-- ==== Sys2Proof/Word.lean ====
section
/-!
DEFINITION. The word types of the model and sparse tables: a table is an association list whose keys rise
strictly, so that equal tables are equal data.
-/
namespace Sys2Proof

/-- One byte. -/
abbrev Byte := BitVec 8
/-- A 16-bit field. -/
abbrev W16 := BitVec 16
/-- A 32-bit register or field. -/
abbrev W32 := BitVec 32
/-- A 64-bit field. -/
abbrev W64 := BitVec 64

/-- A sparse table with natural keys. -/
abbrev Tab (α : Type) := List (Nat × α)

namespace Tab

/-- The entry at a key, if the table lists one. -/
def get? {α : Type} : Tab α → Nat → Option α
  | [], _ => none
  | (j, a) :: t, k => if j = k then some a else Tab.get? t k

/-- Write an entry, keeping the keys strictly rising. -/
def set {α : Type} : Tab α → Nat → α → Tab α
  | [], k, a => [(k, a)]
  | (j, b) :: t, k, a =>
    if k < j then (k, a) :: (j, b) :: t
    else if j = k then (k, a) :: t
    else (j, b) :: Tab.set t k a

/-- Remove the entry at a key. -/
def erase {α : Type} (t : Tab α) (k : Nat) : Tab α := t.filter fun e => e.1 != k

/-- The entry at a key, or a default. -/
def getD {α : Type} (t : Tab α) (k : Nat) (d : α) : α := (Tab.get? t k).getD d

/-- Replace the entry at a key, or the default where none is listed, by its image. -/
def upd {α : Type} (t : Tab α) (k : Nat) (d : α) (f : α → α) : Tab α := Tab.set t k (f (Tab.getD t k d))

/-- The keys rise strictly. -/
def wf {α : Type} : Tab α → Bool
  | [] => true
  | [_] => true
  | (j, _) :: (k, b) :: t => decide (j < k) && Tab.wf ((k, b) :: t)

end Tab

end Sys2Proof
end

