-- ==== Sys2Proof/Operand.lean ====
section
/-!
DEFINITION. The operands of the commands.
-/
namespace Sys2Proof

/-- The path by which a mailbox is written (R110, R111, R90). -/
inductive Path where
  | bar | svc | ring | replay
deriving DecidableEq, Repr

/-- A band: M or H. -/
inductive BandId where
  | m | h
deriving DecidableEq, Repr

/-- The number of a band: 0 M, 1 H. -/
def BandId.num : BandId → Nat
  | .m => 0
  | .h => 1

/-- A command's header as written into a CMD area (R113), and the write of DOORBELL.SEQ that follows (R112). The opcode
is the row's own. -/
structure Doorbell where
  mb : Fin 4
  path : Path
  /-- value written to DOORBELL.SEQ -/
  value : W16
  seq : W16
  flags : Byte := 0
  length : W16
  /-- the header's reserved fields, 1 and 8 bytes -/
  rsv3 : Byte := 0
  rsv8 : W64 := 0
deriving DecidableEq, Repr

/-- A power agent's answer to ENTER (R164). -/
inductive AgentAns where
  | accept
  | delay (us : Nat)
  | refuse (reason : Nat)
deriving DecidableEq, Repr

/-- A PKT_TX descriptor (R138), as its 32 bytes, with the bytes that its buffer holds. -/
structure TxDesc where
  bytes : List Byte
deriving DecidableEq, Repr

/-- A posted PKT_RX buffer (R139). -/
structure RxBuf where
  addr : Nat
  len : Nat
  cookie : W64
deriving DecidableEq, Repr

/-- An Announce message (R207). -/
structure Announce where
  prio1 : Nat
  cls : Nat
  accuracy : Nat
  variance : Nat
  prio2 : Nat
  identity : W64
  steps : Nat
  timescaleArb : Bool
deriving DecidableEq, Repr

/-- The frame that the cipher engine has finished (R571). -/
inductive CipherJob where
  /-- a frame of a plan in staging: band, beat, PPDU, user, and position among the user's frames, then its bounded-flow frames -/
  | stage (band : BandId) (beat ppdu user frame : Nat)
  /-- the oldest received frame that waits -/
  | received
deriving DecidableEq, Repr

/-- The second operand of an ALU instruction (R621). -/
inductive Src2 where
  | reg (r : BitVec 5)
  | imm (v : BitVec 12)
deriving DecidableEq, Repr

/-- A load's or store's addressing mode (R623). -/
inductive AddrMode where
  | offset (o : BitVec 14)
  | post (o : BitVec 14)
  | index (d : BitVec 5)
deriving DecidableEq, Repr

/-- A LOOP's count (R624). -/
inductive LoopCount where
  | imm (n : BitVec 11)
  | reg (d : BitVec 5)
deriving DecidableEq, Repr

/-- How a DRAM training ends (R633, R643). -/
inductive TrainResult where
  | ok (ms : Nat)
  | unsupported (ch sc rank dev reason : Nat)
  | failed (ch sc rank step : Nat)
deriving DecidableEq, Repr

/-- What the ECC decoding of a burst finds (R646). -/
inductive EccResult where
  | clean
  | corrected (dev : Nat)
  | uncorrectable (dev : Nat) (syndrome : List Byte)
deriving DecidableEq, Repr

/-- An MPDU of a received wideband PPDU (R322): its bytes without the FCS, and whether its FCS is good. -/
structure RxMpdu where
  bytes : List Byte
  fcsOk : Bool
deriving DecidableEq, Repr

/-- What an uncorrectable SRAM read of class 3 to 5 loses (R694). -/
inductive SramVictim where
  | none
  /-- class 3: the core whose dispatch read it -/
  | core (c : Fin 32)
  /-- class 4: the packet at the head of an egress queue -/
  | queue (port : Fin 7) (q : Fin 8)
  /-- class 4: a frame of a bounded flow's period -/
  | bf (bf k i : Nat)
  /-- class 4: the packet at the head of the matcher buffer -/
  | matcher
  /-- class 5: an entry of the source cache -/
  | src (i : Nat)
  /-- class 5: the copy of the prefix-length filter -/
  | filter
deriving DecidableEq, Repr

/-- What the LTFs of a PPDU give for a stream of a station in a tone group (R304): exponent, SNR in 0.5 dB, the 240 bytes of H. -/
structure CsiMeas where
  sta : Nat
  stream : Nat
  group : Nat
  exp : Int
  snr : Int
  h : List Byte
deriving DecidableEq, Repr

/-- A received wideband PPDU (R295, R322). -/
structure RxPpdu where
  /-- 0 non-HT, 1 HE or EHT SU, 2 trigger-based, 3 HT or VHT -/
  form : Nat
  /-- end of reception, time of day ns -/
  t : Nat
  mpdus : List RxMpdu := []
  csi : List CsiMeas := []
  /-- the PPDU of the plan that solicited it: beat and index -/
  trig : Option (Nat × Nat) := none
  /-- data symbols that held invalid samples, and whether samples before the end of the last LTF were invalid (R323) -/
  erased : Nat := 0
  blanked : Bool := false
deriving DecidableEq, Repr

/-- A calibration measurement set (R262). -/
structure CalMeas where
  /-- chain index, or slice index with `slice` set -/
  index : Nat
  slice : Bool
  type : Nat
  /-- the three measurements of the set, each the components of the type -/
  m1 : List Int
  m2 : List Int
  m3 : List Int
  /-- temperatures at the first and at the last measurement, 0.25 C -/
  temp0 : Int
  temp : Int
  /-- a happening of R283 ended the set -/
  aborted : Bool := false
deriving DecidableEq, Repr

end Sys2Proof
end

