-- ==== Sys2Proof/Syntax.lean ====
section
/-!
DEFINITION. The commands.
-/
namespace Sys2Proof

/-- The commands of the block: one constructor per row of the table of operations and events. -/
inductive Instr where
  /-- R75. VDD_AON first reaches its Min: Cairn starts on its RC oscillator, the keeper oscillator starts and every output is Z. -/
  | powerOn
  /-- R56. VDD_IO reaches its Min with VDD_AON present: outputs take their HOLD states and the ring transmitters are disabled. -/
  | vddIoUp
  /-- R76. VDD_IO falls with VDD_AON within limits: the device stays in HOLD and every output becomes Z. -/
  | vddIoLoss
  /-- R76. VDD_AON falls below its Min and the device enters OFF. -/
  | powerOff
  /-- R75. PWR_OK rises and the device rests in HOLD with ring pass-through running. -/
  | pwrOkRise
  /-- R78. PWR_OK falls outside OFF and HOLD: Cairn starts the last-gasp write with cause POWER_LOSS and places the device in HOLD. -/
  | pwrOkFall
  /-- R79. RESET_N falls while PWR_OK is high: the device enters HOLD and no last-gasp write starts. -/
  | resetNFall
  /-- R85. A recognised rising edge of RESET_N starts a boot. -/
  | resetNRise (profSel ringRole : BitVec 2) (ringId : BitVec 3) (bootHalt safeN : Bool)
  /-- R85. The HOLD-to-BOOT sequence ends: after the ROM self-test and the MRAM read, FAULT_N is released and BOOT is entered, or SAFE on a failure. -/
  | bootSequenceDone (selfTestOk : Bool)
  /-- R89. Replay goes on with the next profile record, after a long record completes or when replay starts. -/
  | replayResume
  /-- R77. VDD_CORE, VDD_SRAM or VDD_MRAM stays below its Min for 1 µs outside HOLD: SAFE is triggered and the last-gasp write starts with cause BROWNOUT. -/
  | brownout (rail : Nat)
  /-- R83. REFCLK_RF deviates by more than 1 % or is absent for 10 µs: Cairn moves to the RC oscillator and the device enters SAFE with cause REFCLK. -/
  | refclkRfFail
  /-- R83. REFCLK_RF is still not present 10 ms after RESET_N rises, and the device enters SAFE with cause REFCLK. -/
  | refclkRfTimeout
  /-- R84. SERDES_REFCLK fails: every uplink, MGT and ring port goes down and link-down events are raised. -/
  | serdesRefclkFail
  /-- R84. PCIE_REFCLK fails and the PCIe link goes down. -/
  | pcieRefclkFail
  /-- R64. PCIE_PERST_N low resets the PCIe endpoint and the DMA engines. -/
  | pciePerstAssert
  /-- R64. PCIE_PERST_N rises, and PCIe link training starts from BOOT onward. -/
  | pciePerstRelease
  /-- R82. The keeper oscillator becomes stable, so SUMT no longer refuses VIGIL with KEEPER. -/
  | keeperStable
  /-- R148. 10 s pass without a PROFILE_STAGE from the owner, and the staging buffer is released. -/
  | stageOwnerTimeout
  /-- R4. A command with an opcode that command set 3.2 does not define returns E_ARG_RANGE with no other effect. -/
  | undefinedOpcode (op : W16) (d : Doorbell) (p : List Byte)
  /-- R740. Summit starts and takes a command recorded while STATE was NO_SUPERVISOR. -/
  | recordedCommandTaken (mb : Fin 4)
  /-- R121. A long command that waited for an object starts after the holder's CMD_DONE, and its mode and object checks are made again. -/
  | longCommandDeferredStart
  /-- R9. A write to a register that has no row of its own is applied by its access type: RW, W1C, or discarded for RO and reserved locations. -/
  | registerWrite (bar : Bool) (off : Nat) (v : W32)
  /-- R108. A BAR0 or BAR2 access that is not 32-bit aligned completes with Unsupported Request and counts HOST_BAD_ACCESS. -/
  | barBadAccess (write : Bool)
  /-- R140. The host writes a ring's HOST_IDX, posting descriptors or buffers or freeing event slots, and an index beyond S − 1 stops the ring. -/
  | hostIdxWrite (ring : BitVec 6) (v : W32)
  /-- R132. A read of DROP_COUNT returns the drops and clears the counter. -/
  | dropCountRead (ring : BitVec 6)
  /-- R214. A read of TOD_NS_LO at 0x9000 latches a snapshot of the time registers. -/
  | todSnapshotRead
  /-- R605. Writing RESTART empties the trace buffer, zeroes WR_IDX and clears FULL. -/
  | traceRestart
  /-- R605. Writing FREEZE holds trace writing; records that arrive meanwhile count in TRACE_LOST. -/
  | traceFreeze (on : Bool)
  /-- R605. A read of TRACE_LOST returns the lost records and clears the count. -/
  | traceLostRead
  /-- R124. A service-port READ transaction returns SVC_FLAGS and then the bytes of the addressed locations. -/
  | svcRead (addr : BitVec 24) (count : Nat)
  /-- R125. A service-port WRITE transaction is applied to MB2 when the CRC and the address check pass; otherwise it is counted and ignored. -/
  | svcWrite (addr : BitVec 24) (data : List Byte) (crcOk : Bool)
  /-- R138. The PKT_TX descriptors of a packet are fetched by DMA and the packet is sent to its DEST_TYPE destination. -/
  | hostTxPacket (ring : BitVec 6) (descs : List TxDesc) (payload : List Byte) (dmaOk : Bool)
  /-- R141. A packet waiting for a PKT_RX ring is written to posted buffers, or dropped whole when they are too few. -/
  | hostRingWrite (ring : BitVec 6) (bufs : List RxBuf)
  /-- R134. A disabled ring finishes its fetched descriptors, its indices are zeroed and the HR_CONFIG response is posted. -/
  | hrDisableDrained (ring : BitVec 6)
  /-- R134. The MOD_US interval of a ring ends, and a pending vector is raised. -/
  | msixModerationExpiry (ring : BitVec 6)
  /-- R147. Returns chip identity, versions, straps, boot flags and profile validity. -/
  | identify (d : Doorbell) (p : List Byte)
  /-- R703. Quiesces the outputs, powers down D1 to D7 and reboots from step 2 of R85; in MB2 Cairn executes it. -/
  | sysRestart (d : Doorbell) (p : List Byte) (safeN : Bool)
  /-- R150. Verifies a stored profile, and with ACTION 1 replays it in BOOT-ready, as a long command. -/
  | profileLoad (d : Doorbell) (p : List Byte)
  /-- R150. The verification or replay of PROFILE_LOAD completes and its CMD_DONE is posted. -/
  | profileLoadDone (prof : BitVec 2)
  /-- R149. Validates the staged image and starts writing it to a profile as a long command. -/
  | profileStore (d : Doorbell) (p : List Byte)
  /-- R149. The MRAM write of the profile completes and CMD_DONE reports GENERATION and CRC32. -/
  | profileStoreDone (prof : BitVec 2)
  /-- R151. Writes the profile selection for later restarts into Cairn. -/
  | profileSelect (d : Doorbell) (p : List Byte)
  /-- R152. Returns bytes of a stored profile image. -/
  | profileRead (d : Doorbell) (p : List Byte)
  /-- R148. Writes image bytes into the staging buffer and manages its ownership. -/
  | profileStage (d : Doorbell) (p : List Byte)
  /-- R134. Configures and enables a host DMA ring, or disables it. -/
  | hrConfig (d : Doorbell) (p : List Byte)
  /-- R135. Returns the configuration, indices and error state of a ring. -/
  | hrStatus (d : Doorbell) (p : List Byte)
  /-- R136. Routes an event family to an EVENT ring, or to none. -/
  | eventRoute (d : Doorbell) (p : List Byte)
  /-- R65. Sets the direction, level and pull of the selected GPIO pins. -/
  | gpioSet (d : Doorbell) (p : List Byte)
  /-- R66. Returns the GPIO direction, levels, inputs and pulls. -/
  | gpioGet (d : Doorbell) (p : List Byte) (levels : W16)
  /-- R184. Requests a mode transition, through WARM where needed, as a long command. -/
  | modeSet (d : Doorbell) (p : List Byte)
  /-- R185. Returns the mode, the transition and the domain states. -/
  | modeGet (d : Doorbell) (p : List Byte)
  /-- R186. Returns the handshake totals and the per-agent counters, optionally clearing them. -/
  | pwrStats (d : Doorbell) (p : List Byte)
  /-- R187. Returns the state and wake statistics of D0 to D7. -/
  | domainStatus (d : Doorbell) (p : List Byte)
  /-- R188. Sets the wake sources, WARM_TARGET, DEMAND_IDLE_MS and the keeper alarm. -/
  | wakeConfig (d : Doorbell) (p : List Byte)
  /-- R189. Sets the VIGIL uplink and VIGIL_NEXTHOP. -/
  | vigilConfig (d : Doorbell) (p : List Byte)
  /-- R164. A power agent answers ENTER with ACCEPT, DELAY or REFUSE. -/
  | agentAnswer (agent : Fin 16) (ans : AgentAns)
  /-- R164. An agent gives no answer within 100 µs and is treated as REFUSE(TIMEOUT). -/
  | agentAnswerTimeout (agent : Fin 16)
  /-- R165. ENTER is sent again to a delaying agent after n µs, or finally at 10 ms. -/
  | enterResend (agent : Fin 16)
  /-- R154. A mode transition or stage reaches its target; MODE_CHANGED is raised and the next stage or the CMD_DONE follows. -/
  | modeTransitionDone
  /-- R157. At (c+3):0 after a SERVE exit commit the air falls silent, queued access-class frames are flushed and WARM is reached. -/
  | serveExitSilence
  /-- R174. A domain reaches step Up 5: the shadow is reapplied, isolation is released and stalled accesses complete. -/
  | domainWakeDone (dom : Fin 8) (us : Nat) (selfTest : Option (Nat × Nat))
  /-- R180. Regulator ready or lock does not arrive in time: stalled accesses get bus errors and WAKE_RETRY is raised. -/
  | domainWakeTimeout (dom : Fin 8) (upStep : Nat)
  /-- R180. 10 ms after a failed wake, the power-up sequence is repeated once. -/
  | domainWakeRetry (dom : Fin 8)
  /-- R176. A demand-woken domain in VIGIL goes DEMAND_IDLE_MS without an access and powers down. -/
  | demandIdleExpiry (dom : Fin 8)
  /-- R213. The keeper count reaches the alarm and wakes the device from VIGIL. -/
  | keeperAlarm
  /-- R179. WAKE_N is recognised low: a wake from VIGIL, or the abort of a pending entry to VIGIL. -/
  | wakeNAssert
  /-- R62. SAFE_N is recognised low and the device enters SAFE with cause SAFE_N. -/
  | safeNAssert
  /-- R216. Sets the cadence source, BP_CODE, epoch and mark parameters. -/
  | cadSourceSet (d : Doorbell) (p : List Byte)
  /-- R217. Returns the cadence state and the mark counters. -/
  | cadStatus (d : Doorbell) (p : List Byte)
  /-- R218. Returns the time of day, beat, offset, state, bound and INCR. -/
  | timeGet (d : Doorbell) (p : List Byte)
  /-- R219. Schedules a step of the counter at the next beat start, with SOURCE NONE. -/
  | timeStep (d : Doorbell) (p : List Byte)
  /-- R219. Sets INCR from the next tick, with SOURCE NONE. -/
  | timeAdjust (d : Doorbell) (p : List Byte)
  /-- R220. Configures the PTP time-receiver port and its parameters. -/
  | ptpConfig (d : Doorbell) (p : List Byte)
  /-- R221. Enables the cadence master outputs and sets their width and advance. -/
  | cadMasterSet (d : Doorbell) (p : List Byte)
  /-- R222. Sets the holdover budget, the drift figures and the trim window. -/
  | holdoverConfig (d : Doorbell) (p : List Byte)
  /-- R223. Removes and returns transmit timestamps from a port's queue. -/
  | tsRead (d : Doorbell) (p : List Byte)
  /-- R198. A CAD_PULSE with its CAD_DATA frame is taken as the mark of a beat and judged. -/
  | cadPulseMark (t : Nat) (frame : W64)
  /-- R198. The CAD_DATA frame is still incomplete 20 µs after the pulse, and the mark is missed with MISSED_CRC. -/
  | markFrameTimeout (t : Nat)
  /-- R198. The mark interval ends with no pulse or beacon, and the beat is decided MISSED_ABSENT. -/
  | markWindowExpiry
  /-- R200. A half-rate slew brings the error to 0 and INCR returns to 1.0 − freq. -/
  | slewDone
  /-- R204. HOLDOVER_USED reaches BUDGET_BEATS: the cadence becomes DEGRADED and CAD_BUDGET_EXPIRED is raised. -/
  | holdoverBudgetExpiry
  /-- R219. At the beat start the pending sum of TIME_STEP is applied and TIME_STEPPED is raised. -/
  | timeStepApply
  /-- R208. A Sync, with its Follow_Up when two-step, from the grandmaster is taken as a mark and e is computed. -/
  | ptpSyncMark (t1 t2 corr : Int)
  /-- R207. An Announce message is taken into the BMCA that selects the grandmaster. -/
  | ptpAnnounce (gm : Announce)
  /-- R208. A Delay_Resp updates the mean path delay. -/
  | ptpDelayResp (t4 corr : Int)
  /-- R207. The Delay_Req interval ends and a Delay_Req is sent. -/
  | ptpDelayReqTimer (t3 : Int)
  /-- R211. A KEEPER_TRIM measurement window completes and updates KEEPER_TRIM. -/
  | keeperTrimWindow (trim : Int)
  /-- R17. A beat begins at n:0, starting that beat's plan-open, commits, swaps and scheduled actions. -/
  | beatStart (n : Nat)
  /-- R18. At n:(BP/2) late results are dropped and the planner completes the plan with the fallback grouping. -/
  | kernelDeadline (n : Nat)
  /-- R19. The plan for beat n+2 is sealed at n:(4 × BP / 5). -/
  | planSeal (n : Nat)
  /-- R315. The built-in weight kernel completes a set, which is placed in the plan. -/
  | weightSetComplete (band : BandId) (beat : Nat)
  /-- R568. The cipher engine finishes protecting or checking a frame. -/
  | cipherFrameDone (job : CipherJob)
  /-- R569. An entropy health test fails; countermeasures stop and CIPHER_RNG_FAIL is raised. -/
  | rngHealthFail (test : Nat)
  /-- R342. The channel check before a turn PPDU ends: idle starts the PPDU, busy waits or gives CCA_BUSY. -/
  | ccaCheckEnd (band : BandId) (beat id : Nat) (busy : Byte)
  /-- R246. COEX_REQ and COEX_PRI rise REQ_LEAD_US before a PPDU's FEM on sequence. -/
  | coexRequest (band : BandId) (beat id : Nat)
  /-- R235. The FEM on sequence of a planned PPDU begins and the PPDU is sent, unless grant, blanking or LO readiness forbid it. -/
  | ppduFemOn (band : BandId) (beat id : Nat) (grant : Bool)
  /-- R235. The last sample of a PPDU leaves the DAC and the FEM off sequence runs. -/
  | ppduEnd (band : BandId) (beat id : Nat)
  /-- R355. EDCA backoff ends and the TXOP's PPDUs are sent at their offsets. -/
  | edcaAccessGained (band : BandId) (ac : BitVec 2) (off : Nat)
  /-- R354. An Ack, BlockAck or TB response is received and the MPDUs are marked acknowledged. -/
  | responseReceived (band : BandId) (beat id : Nat) (sta : Nat) (acked : List Nat)
  /-- R354. A solicited response is missing and every MPDU of the PPDU counts as unacknowledged. -/
  | responseTimeout (band : BandId) (beat id : Nat) (sta : Nat)
  /-- R397. A period's deadline arrives and the period is decided. -/
  | bfDeadline (bf k : Nat)
  /-- R322. A received HE, EHT or non-HT PPDU is combined and decoded, and its MPDUs are handled. -/
  | airRxPpdu (band : BandId) (rx : RxPpdu)
  /-- R319. No symbol lock by 12 µs: the reception is aborted and RX_FALSE_DET is counted. -/
  | wbRxFalseDet (band : BandId)
  /-- R358. A reorder hole waits REORDER_MS and is skipped. -/
  | reorderTimeout (sta tid : Nat)
  /-- R362. A beacon not sent by TBTT k + 1 is dropped and BEACON_SKIPPED is raised. -/
  | beaconSkipped (band : BandId) (bss : BitVec 3)
  /-- R227. The main synthesizer loses lock: the DACs are muted and the standby takes over, or a relock starts. -/
  | loLockLoss (band : BandId) (residual : Int)
  /-- R228. Relock and divider resynchronisation complete and held PPDUs are sent or marked LATE_LO. -/
  | loReady (band : BandId) (t : Nat)
  /-- R229. A synthesizer fails to lock within 1 ms and is restarted, or is marked FAILED. -/
  | synthLockTimeout (band : BandId) (synth : Bool)
  /-- R247. COEX_GNT falls during a PPDU, which is ended COEX_ABORTED. -/
  | coexGntWithdrawn (band : BandId)
  /-- R248. A BLANK_IN input asserts and mutes the mapped wideband DACs and narrowband PAs. -/
  | blankInAssert (input : BitVec 2)
  /-- R248. A BLANK_IN input releases, and transmissions whose sequence starts later may proceed. -/
  | blankInRelease (input : BitVec 2)
  /-- R243. MISMATCH_INTERVAL passes and a group's coupler is turned to reverse for measurement. -/
  | mismatchMeasureDue (band : BandId)
  /-- R243. A reverse capture completes and the return loss of each chain is estimated. -/
  | mismatchCaptureDone (band : BandId) (rl : List Nat)
  /-- R241. An RFFE transaction completes and the next transaction on the bus begins. -/
  | rffeTransactionDone (band : BandId) (bus : Nat) (parityOk : Bool) (data : List Byte)
  /-- R250. Sets the band's channel as a long command. -/
  | bandConfig (d : Doorbell) (p : List Byte)
  /-- R230. The synthesizer retune for BAND_CONFIG completes and its CMD_DONE is posted. -/
  | bandConfigDone (band : BandId) (ok : Bool)
  /-- R251. Enables or disables chains of a band. -/
  | chainEnable (d : Doorbell) (p : List Byte)
  /-- R252. Sets chain ceilings. -/
  | txpwrSet (d : Doorbell) (p : List Byte)
  /-- R253. Sets FEM timing, gains, coupler registers and USIDs. -/
  | femConfig (d : Doorbell) (p : List Byte)
  /-- R254. Performs one RFFE read or write. -/
  | rffeAccess (d : Doorbell) (p : List Byte)
  /-- R255. Selects and configures the coexistence scheme. -/
  | coexConfig (d : Doorbell) (p : List Byte)
  /-- R256. Sets the radios of each BLANK_IN input and BLANK_TAIL_NS. -/
  | blankMap (d : Doorbell) (p : List Byte)
  /-- R257. Returns the synthesizer and chain states and the outcome counters. -/
  | chainStatus (d : Doorbell) (p : List Byte)
  /-- R258. Starts a CW tone or FEM line pattern test in SURVEY. -/
  | factoryTest (d : Doorbell) (p : List Byte)
  /-- R258. The test duration ends and CMD_DONE is posted. -/
  | factoryTestDone
  /-- R259. Starts a receive-only spectrum sweep in SURVEY. -/
  | spectrumSurvey (d : Doorbell) (p : List Byte)
  /-- R259. A survey span's dwell ends: its packet is delivered and the next span or the CMD_DONE follows. -/
  | surveySpanDone (bins : List Byte)
  /-- R325. Sets the sounding and CSI ageing parameters of a band. -/
  | soundingConfig (d : Doorbell) (p : List Byte)
  /-- R326. Sets the precoding, receive, GI/LTF and puncturing options of a band. -/
  | precodeConfig (d : Doorbell) (p : List Byte)
  /-- R327. Returns a CSI block, a station summary or the band counters. -/
  | csiRead (d : Doorbell) (p : List Byte)
  /-- R271. A calibration gap visits a group for a swap, slice checks, RX image and code updates. -/
  | calGap (band : BandId) (matched : Bool) (fwd : List (Nat × Int))
  /-- R262. A calibration measurement set finishes and is validated under repeat-must-agree. -/
  | calMeasurementDone (m : CalMeas)
  /-- R260. NB_INTERVAL_S passes and narrowband background calibration becomes due. -/
  | nbCalInterval
  /-- R286. STORE_INTERVAL_S passes and changed calibration records are stored. -/
  | calStoreInterval
  /-- R289. Starts a full, partial, background or retest calibration. -/
  | calRun (d : Doorbell) (p : List Byte)
  /-- R289. The calibration run completes and CMD_DONE reports its counts. -/
  | calRunDone
  /-- R290. Returns calibration state per chain. -/
  | calStatus (d : Doorbell) (p : List Byte)
  /-- R291. Sets the calibration schedule parameters. -/
  | calSchedule (d : Doorbell) (p : List Byte)
  /-- R292. Returns a stored calibration record or header block. -/
  | calTableRead (d : Doorbell) (p : List Byte)
  /-- R293. Starts writing changed calibration records, or erasing them. -/
  | calTableStore (d : Doorbell) (p : List Byte)
  /-- R293. The calibration table write completes and CMD_DONE is posted. -/
  | calTableStoreDone
  /-- R294. Returns the roles of a group's slices. -/
  | sliceStatus (d : Doorbell) (p : List Byte)
  /-- R737. A temperature sensor completes a conversion and latches its result. -/
  | sensorConversion (sensor : Nat) (q : Int)
  /-- R697. A reading stays at or above TJ_SHUTDOWN for 1 ms and SAFE is entered with cause THERMAL. -/
  | thermalShutdown (sensor : Nat)
  /-- R372. Creates a station entry. -/
  | staAdd (d : Doorbell) (p : List Byte)
  /-- R372. Replaces the fields of a station entry. -/
  | staModify (d : Doorbell) (p : List Byte)
  /-- R373. Removes a station and flushes its queues and CSI. -/
  | staRemove (d : Doorbell) (p : List Byte)
  /-- R374. Returns a station entry, its counters or the band counters. -/
  | staGet (d : Doorbell) (p : List Byte)
  /-- R375. Sets the band's air scheduling and EDCA parameters. -/
  | acParamSet (d : Doorbell) (p : List Byte)
  /-- R376. Sets a band's turn plan. -/
  | turnPlanSet (d : Doorbell) (p : List Byte)
  /-- R377. Sets a band's air gate list and MAX_AIRTIME_US. -/
  | airGateSet (d : Doorbell) (p : List Byte)
  /-- R378. Sets a BSS beacon template. -/
  | beaconTemplate (d : Doorbell) (p : List Byte)
  /-- R379. Sets the link steering of a multi-link station. -/
  | linkSteer (d : Doorbell) (p : List Byte)
  /-- R380. Binds a policy kernel to a band. -/
  | policyBind (d : Doorbell) (p : List Byte)
  /-- R408. Admits a bounded flow after the admission test. -/
  | bfAdmit (d : Doorbell) (p : List Byte)
  /-- R409. Changes a bounded flow's parameters after the admission test. -/
  | bfModify (d : Doorbell) (p : List Byte)
  /-- R410. Releases a bounded flow and decides its open periods. -/
  | bfRelease (d : Doorbell) (p : List Byte)
  /-- R411. Returns a flow's state and parameters. -/
  | bfStatus (d : Doorbell) (p : List Byte)
  /-- R412. Sets a station pledge or the band's pledge limits. -/
  | bfPledgeSet (d : Doorbell) (p : List Byte)
  /-- R413. Returns a flow's counters. -/
  | bfStats (d : Doorbell) (p : List Byte)
  /-- R482. A frame arrives at the packet path from an uplink, MGT, the air or the host and is parsed, classified and forwarded. -/
  | ethFrameReceived (src srcId : Nat) (tid : Nat) (bytes : List Byte) (t : Nat)
  /-- R486. The matcher finishes inspecting a packet's window, which then goes on to classification. -/
  | payloadMatchDone
  /-- R544. A free port chooses and begins its next frame under strict priority, DWRR, gates and shapers. -/
  | egressFrameStart (port : Fin 7)
  /-- R545. A waiting queue's credit climbs back to 0 and the queue becomes eligible. -/
  | shaperCreditEligible (port : Fin 7) (q : Fin 8)
  /-- R547. A gate list entry takes effect and changes the open traffic classes. -/
  | gateEntryInstant (port : Fin 4) (entry : Nat)
  /-- R549. A new uplink gate list applies from its START_BEAT and raises GATE_LIST_APPLIED. -/
  | gateListApply (port : Fin 4)
  /-- R554. An uplink link comes up, completing chain insertion when both chain links are up. -/
  | ethLinkUp (port : Fin 5)
  /-- R555. An uplink link goes down, making ECMP members dead and raising CHAIN_LINK_DOWN in a chain pair. -/
  | ethLinkDown (port : Fin 5)
  /-- R554. SWITCH_SETTLE_US passes and the UP2 and UP3 transmitters are enabled. -/
  | chainSwitchSettle
  /-- R554. LINK_WAIT_MS ends with a chain link down, and the switch is released with CHAIN_INSERT_FAILED. -/
  | chainLinkWaitExpiry
  /-- R554. RETRY_S passes and chain insertion starts again. -/
  | chainRetryExpiry
  /-- R513. The sweeper visits an L2 bucket and ages its dynamic entries. -/
  | agingVisit (bucket : Nat)
  /-- R519. The rebuilt prefix-length filter is swapped in. -/
  | filterRebuildDone
  /-- R445. Configures a narrowband transceiver. -/
  | nbConfig (d : Doorbell) (p : List Byte)
  /-- R446. Sets the channel plan, or a transceiver's assignment and tuner codes. -/
  | nbChannelPlan (d : Doorbell) (p : List Byte)
  /-- R447. Sets the dwell and duty-cycle limits. -/
  | dwellConfig (d : Doorbell) (p : List Byte)
  /-- R448. Starts tuning channels of a transceiver. -/
  | tunerRun (d : Doorbell) (p : List Byte)
  /-- R448. Tuning of the named channels ends and CMD_DONE reports the results. -/
  | tunerRunDone (x : Fin 4)
  /-- R449. Returns a transceiver's status and counters, or its code pairs. -/
  | nbStats (d : Doorbell) (p : List Byte)
  /-- R474. Adds a node to the node table. -/
  | nodeAdd (d : Doorbell) (p : List Byte)
  /-- R475. Removes a node and fails its waiting frames. -/
  | nodeRemove (d : Doorbell) (p : List Byte)
  /-- R476. Returns a node entry or its statistics. -/
  | nodeGet (d : Doorbell) (p : List Byte)
  /-- R477. Queues a Mladmer frame to a node or broadcast. -/
  | nbSend (d : Doorbell) (p : List Byte)
  /-- R478. Sets the device-wide Mladmer parameters. -/
  | floodConfig (d : Doorbell) (p : List Byte)
  /-- R479. Returns a node's held frames or the store counters. -/
  | heldStatus (d : Doorbell) (p : List Byte)
  /-- R424. A waiting narrowband request reaches an instant at which it may start, and its CCA, ledger and hop tests run. -/
  | nbTxRequestStart (x : Fin 4)
  /-- R433. The CCA interval ends: busy ends the request, idle starts the PA ramp. -/
  | nbCcaDone (x : Fin 4) (power : Int)
  /-- R425. The ramp-down ends, the outcome is SENT and the ledger is charged. -/
  | nbTxDone (x : Fin 4) (err : Option Int)
  /-- R432. A narrowband frame completes its FCS and is checked and passed to the Mladmer MAC. -/
  | nbFrameReceived (x : Fin 4) (frame : List Byte) (fcs2 fcsOk : Bool) (rssi : Int) (t : Nat)
  /-- R432. A PHR with the mode switch set or a bad length ends the reception with PHR_ERROR. -/
  | nbPhrReceived (x : Fin 4) (phr : W16) (rssi : Int)
  /-- R429. No SFD completes in the sync window and the reception aborts as FALSE_DET. -/
  | nbSyncTimeout (x : Fin 4)
  /-- R420. A hop slot begins and a hopping transceiver retunes. -/
  | hopSlotStart (x : Fin 4)
  /-- R423. A narrowband synthesizer locks after a retune. -/
  | nbSynthLocked (x : Fin 4)
  /-- R423. A narrowband synthesizer fails to lock within 1 ms and is restarted, or is marked FAILED. -/
  | nbSynthLockTimeout (x : Fin 4)
  /-- R427. Lock is lost during a transmission; the PA output falls and the outcome is NB_LOCK. -/
  | nbLockLoss (x : Fin 4)
  /-- R434. The reflected-power detector gives a return-loss sample that may fold back or abort the PA. -/
  | nbRlSample (x : Fin 4) (rl : Nat)
  /-- R435. At its first idle moment a transceiver in MISMATCH starts tuning its channel. -/
  | nbAutoTuneStart (x : Fin 4)
  /-- R436. 10 ms after a busy burst, the tuner burst is retried. -/
  | tuneBurstRetry (x : Fin 4)
  /-- R436. A channel's tuning search exceeds 2 s and the channel is counted blocked. -/
  | tuneSearchTimeout (x : Fin 4)
  /-- R461. No matching ACK arrives in time; the attempt is consumed and a retry or failure follows. -/
  | nbAckTimeout (job : Nat)
  /-- R461. The random backoff ends and the next attempt is requested, unless the lifetime has ended. -/
  | nbBackoffExpiry (job : Nat)
  /-- R462. A held frame reaches HOLD_S and fails with HELD_EXPIRED. -/
  | heldFrameExpiry (key : Nat)
  /-- R467. The relay time t0 arrives and the frame is relayed or suppressed. -/
  | relayJitterExpiry (src : W32) (seq : W16)
  /-- R466. A seen-cache entry reaches SEEN_LIFETIME_S and is removed. -/
  | seenEntryExpiry (src : W32) (seq : W16)
  /-- R468. BEACON_INTERVAL_S passes and each enabled transceiver queues a BEACON. -/
  | nbBeaconInterval
  /-- R459. The CTR_FLOOR write completes and frames waiting on it proceed. -/
  | ctrFloorWriteDone
  /-- R463. On-chip held frames finish moving to the DRAM store after VIGIL exit. -/
  | heldStoreMoveDone
  /-- R496. Sets the hash seed, inspected ports and exception destinations. -/
  | parseConfig (d : Doorbell) (p : List Byte)
  /-- R497. Writes a classifier rule. -/
  | ruleWrite (d : Doorbell) (p : List Byte)
  /-- R498. Invalidates rules and zeroes their hit counts. -/
  | ruleClear (d : Doorbell) (p : List Byte)
  /-- R499. Sets a range comparator. -/
  | rangeSet (d : Doorbell) (p : List Byte)
  /-- R500. Writes or clears a payload pattern. -/
  | patternWrite (d : Doorbell) (p : List Byte)
  /-- R501. Sets a policer and fills its bucket. -/
  | policerSet (d : Doorbell) (p : List Byte)
  /-- R502. Returns rule, policer or parser counters. -/
  | classStats (d : Doorbell) (p : List Byte)
  /-- R531. Writes an L2 entry. -/
  | l2Add (d : Doorbell) (p : List Byte)
  /-- R532. Removes an L2 entry. -/
  | l2Remove (d : Doorbell) (p : List Byte)
  /-- R533. Starts removing matching L2 entries as a long command. -/
  | l2Flush (d : Doorbell) (p : List Byte)
  /-- R533. The flush walk completes and CMD_DONE reports counts. -/
  | l2FlushDone
  /-- R534. Writes a route. -/
  | routeAdd (d : Doorbell) (p : List Byte)
  /-- R535. Removes a route. -/
  | routeRemove (d : Doorbell) (p : List Byte)
  /-- R536. Starts reading and applying route records from host memory. -/
  | routeBulk (d : Doorbell) (p : List Byte)
  /-- R536. Bulk route records are applied, or stop at a failure, and CMD_DONE is posted. -/
  | routeBulkDone (records : List Byte)
  /-- R537. Writes a next hop. -/
  | nexthopSet (d : Doorbell) (p : List Byte)
  /-- R538. Writes an ECMP group. -/
  | ecmpSet (d : Doorbell) (p : List Byte)
  /-- R539. Sets aging, learning ports, PVIDs and BSS VIDs. -/
  | agingSet (d : Doorbell) (p : List Byte)
  /-- R540. Returns forwarding gauges and counters. -/
  | fwdStats (d : Doorbell) (p : List Byte)
  /-- R559. Configures an egress queue or a port. -/
  | queueConfig (d : Doorbell) (p : List Byte)
  /-- R560. Configures a queue's credit shaper. -/
  | shaperSet (d : Doorbell) (p : List Byte)
  /-- R561. Sets an uplink gate control list. -/
  | gateListSet (d : Doorbell) (p : List Byte)
  /-- R562. Sets the bounded-flow and DRAM pool sizes. -/
  | bufferConfig (d : Doorbell) (p : List Byte)
  /-- R563. Enables or releases the UP2/UP3 chain pair. -/
  | chainPairSet (d : Doorbell) (p : List Byte)
  /-- R564. Returns queue or pool statistics. -/
  | tmStats (d : Doorbell) (p : List Byte)
  /-- R586. Unwraps a key blob into a slot or KEK. -/
  | keyUnwrap (d : Doorbell) (p : List Byte)
  /-- R587. Erases key slots or KEKs. -/
  | keyErase (d : Doorbell) (p : List Byte)
  /-- R583. Starts fusing KEK0 from MB2 in a halted boot. -/
  | kekProvision (d : Doorbell) (p : List Byte)
  /-- R583. KEK0 is programmed, verified and locked, and CMD_DONE reports KCV. -/
  | kekProvisionDone
  /-- R589. Sets the cipher countermeasure level. -/
  | cmLevelSet (d : Doorbell) (p : List Byte)
  /-- R590. Returns slot entries or cipher counters. -/
  | keySlotInfo (d : Doorbell) (p : List Byte)
  /-- R609. Starts loading a kernel image by DMA. -/
  | kernelLoad (d : Doorbell) (p : List Byte)
  /-- R606. The kernel image is read and verified, and CMD_DONE is posted. -/
  | kernelLoadDone (image : List Byte)
  /-- R610. Starts a kernel and allocates its shared window. -/
  | kernelStart (d : Doorbell) (p : List Byte)
  /-- R610. Stops a kernel and drops its task queues. -/
  | kernelStop (d : Doorbell) (p : List Byte)
  /-- R611. Configures or removes a Col task. -/
  | taskConfig (d : Doorbell) (p : List Byte)
  /-- R612. Selects the TRACE or GAUGE mode. -/
  | colObserveSet (d : Doorbell) (p : List Byte)
  /-- R613. Returns Massif and Col counters. -/
  | massifStats (d : Doorbell) (p : List Byte)
  /-- R594. A free core takes the chosen ready task and a dispatch starts. -/
  | colDispatch
  /-- R602. A dispatch returns and its output records and packet disposition are posted. -/
  | kernelReturn (core : Fin 32)
  /-- R599. A dispatch exceeds BUDGET_US and ends as an overrun. -/
  | kernelBudgetExpiry (core : Fin 32)
  /-- R622. Crag ALU add with wrap. -/
  | add (core : Fin 33) (dst srcA : BitVec 5) (b : Src2)
  /-- R622. Crag ALU subtract with wrap. -/
  | sub (core : Fin 33) (dst srcA : BitVec 5) (b : Src2)
  /-- R622. Crag saturating add. -/
  | adds (core : Fin 33) (dst srcA : BitVec 5) (b : Src2)
  /-- R622. Crag saturating subtract. -/
  | subs (core : Fin 33) (dst srcA : BitVec 5) (b : Src2)
  /-- R622. Crag bitwise AND. -/
  | and_ (core : Fin 33) (dst srcA : BitVec 5) (b : Src2)
  /-- R622. Crag bitwise OR. -/
  | or_ (core : Fin 33) (dst srcA : BitVec 5) (b : Src2)
  /-- R622. Crag bitwise XOR. -/
  | xor (core : Fin 33) (dst srcA : BitVec 5) (b : Src2)
  /-- R622. Crag shift left. -/
  | shl (core : Fin 33) (dst srcA : BitVec 5) (b : Src2)
  /-- R622. Crag logical shift right. -/
  | shr (core : Fin 33) (dst srcA : BitVec 5) (b : Src2)
  /-- R622. Crag arithmetic shift right. -/
  | shra (core : Fin 33) (dst srcA : BitVec 5) (b : Src2)
  /-- R622. Crag low 32 bits of a signed product. -/
  | mul (core : Fin 33) (dst srcA : BitVec 5) (b : Src2)
  /-- R622. Crag Q1.31 multiply, rounded and saturated. -/
  | mulq (core : Fin 33) (dst srcA : BitVec 5) (b : Src2)
  /-- R622. Crag signed minimum. -/
  | min (core : Fin 33) (dst srcA : BitVec 5) (b : Src2)
  /-- R622. Crag signed maximum. -/
  | max (core : Fin 33) (dst srcA : BitVec 5) (b : Src2)
  /-- R622. Crag saturating absolute value. -/
  | abs (core : Fin 33) (dst srcA : BitVec 5) (b : Src2)
  /-- R622. Crag saturating negate. -/
  | neg (core : Fin 33) (dst srcA : BitVec 5) (b : Src2)
  /-- R622. Crag compare, setting the flags. -/
  | cmp (core : Fin 33) (dst srcA : BitVec 5) (b : Src2)
  /-- R622. Crag complex saturating add. -/
  | cadd (core : Fin 33) (dst srcA : BitVec 5) (b : Src2)
  /-- R622. Crag complex saturating subtract. -/
  | csub (core : Fin 33) (dst srcA : BitVec 5) (b : Src2)
  /-- R622. Crag complex conjugate. -/
  | conj (core : Fin 33) (dst srcA : BitVec 5) (b : Src2)
  /-- R622. Crag packs two halfwords into a complex value. -/
  | pack (core : Fin 33) (dst srcA srcB : BitVec 5)
  /-- R622. Crag pointer add. -/
  | padd (core : Fin 33) (dst srcA : BitVec 4) (b : Src2)
  /-- R621. Crag moves an immediate into a data register. -/
  | movi (core : Fin 33) (dst : BitVec 5) (imm : W16)
  /-- R621. Crag moves an immediate into the high half of a data register. -/
  | movhi (core : Fin 33) (dst : BitVec 5) (imm : W16)
  /-- R621. Crag moves an immediate into a pointer. -/
  | moviP (core : Fin 33) (dst : BitVec 4) (imm : W16)
  /-- R618. Crag Q1.15 multiply-accumulate. -/
  | macH (core : Fin 33) (acc : BitVec 3) (srcA srcB : BitVec 5)
  /-- R618. Crag Q1.15 multiply-subtract. -/
  | msuH (core : Fin 33) (acc : BitVec 3) (srcA srcB : BitVec 5)
  /-- R618. Crag Q1.31 multiply-accumulate. -/
  | macW (core : Fin 33) (acc : BitVec 3) (srcA srcB : BitVec 5)
  /-- R618. Crag Q1.31 multiply-subtract. -/
  | msuW (core : Fin 33) (acc : BitVec 3) (srcA srcB : BitVec 5)
  /-- R622. Crag complex multiply-accumulate into an accumulator pair. -/
  | cmac (core : Fin 33) (acc : BitVec 3) (srcA srcB : BitVec 5)
  /-- R622. Crag conjugate complex multiply-accumulate. -/
  | cmacj (core : Fin 33) (acc : BitVec 3) (srcA srcB : BitVec 5)
  /-- R622. Crag complex multiply-subtract. -/
  | cmsu (core : Fin 33) (acc : BitVec 3) (srcA srcB : BitVec 5)
  /-- R622. Crag clears an accumulator. -/
  | clr (core : Fin 33) (acc : BitVec 3)
  /-- R622. Crag clears an accumulator pair. -/
  | clr2 (core : Fin 33) (acc : BitVec 3)
  /-- R622. Crag places a Q1.31 value at accumulator scale. -/
  | mova (core : Fin 33) (acc : BitVec 3) (srcA : BitVec 5)
  /-- R622. Crag adds one accumulator to another. -/
  | adda (core : Fin 33) (acc src : BitVec 3)
  /-- R618. Crag integer multiply-accumulate. -/
  | macI (core : Fin 33) (acc : BitVec 3) (srcA srcB : BitVec 5)
  /-- R622. Crag vector Q1.15 multiply-accumulate of 8 products. -/
  | vmacH (core : Fin 33) (acc : BitVec 3) (pa pb : BitVec 4) (incA incB : Bool)
  /-- R622. Crag vector complex multiply-accumulate of 4 products. -/
  | vcmac (core : Fin 33) (acc : BitVec 3) (pa pb : BitVec 4) (incA incB : Bool)
  /-- R622. Crag vector conjugate complex multiply-accumulate. -/
  | vcmacj (core : Fin 33) (acc : BitVec 3) (pa pb : BitVec 4) (incA incB : Bool)
  /-- R620. Crag extracts a Q1.31 value from an accumulator. -/
  | extW (core : Fin 33) (dst : BitVec 5) (acc : BitVec 3) (sh : BitVec 6)
  /-- R620. Crag extracts a Q1.15 value from an accumulator. -/
  | extH (core : Fin 33) (dst : BitVec 5) (acc : BitVec 3) (sh : BitVec 6)
  /-- R620. Crag extracts an integer from an accumulator. -/
  | extI (core : Fin 33) (dst : BitVec 5) (acc : BitVec 3) (sh : BitVec 6)
  /-- R620. Crag extracts a complex value from an accumulator pair. -/
  | extCx (core : Fin 33) (dst : BitVec 5) (acc : BitVec 3) (sh : BitVec 6)
  /-- R622. Crag raw move of accumulator bits [31:0]. -/
  | rawlo (core : Fin 33) (dst : BitVec 5) (acc : BitVec 3)
  /-- R622. Crag raw move of accumulator bits [63:32]. -/
  | rawmi (core : Fin 33) (dst : BitVec 5) (acc : BitVec 3)
  /-- R622. Crag raw move of the accumulator guard bits. -/
  | rawhi (core : Fin 33) (dst : BitVec 5) (acc : BitVec 3)
  /-- R622. Crag inserts into accumulator bits [31:0]. -/
  | inslo (core : Fin 33) (dst : BitVec 5) (acc : BitVec 3)
  /-- R622. Crag inserts into accumulator bits [63:32]. -/
  | insmi (core : Fin 33) (dst : BitVec 5) (acc : BitVec 3)
  /-- R622. Crag inserts into the accumulator guard bits. -/
  | inshi (core : Fin 33) (dst : BitVec 5) (acc : BitVec 3)
  /-- R623. Crag loads an unsigned byte. -/
  | ldBu (core : Fin 33) (reg : BitVec 5) (ptr : BitVec 4) (m : AddrMode)
  /-- R623. Crag loads a signed byte. -/
  | ldB (core : Fin 33) (reg : BitVec 5) (ptr : BitVec 4) (m : AddrMode)
  /-- R623. Crag loads an unsigned halfword. -/
  | ldHu (core : Fin 33) (reg : BitVec 5) (ptr : BitVec 4) (m : AddrMode)
  /-- R623. Crag loads a signed halfword. -/
  | ldH (core : Fin 33) (reg : BitVec 5) (ptr : BitVec 4) (m : AddrMode)
  /-- R623. Crag loads a word. -/
  | ldW (core : Fin 33) (reg : BitVec 5) (ptr : BitVec 4) (m : AddrMode)
  /-- R623. Crag loads a pointer. -/
  | ldP (core : Fin 33) (reg : BitVec 4) (ptr : BitVec 4) (m : AddrMode)
  /-- R623. Crag loads 8 bytes into an accumulator. -/
  | ldA (core : Fin 33) (reg : BitVec 3) (ptr : BitVec 4) (m : AddrMode)
  /-- R623. Crag stores a saturated byte. -/
  | stB (core : Fin 33) (reg : BitVec 5) (ptr : BitVec 4) (m : AddrMode)
  /-- R623. Crag stores a saturated signed halfword. -/
  | stH (core : Fin 33) (reg : BitVec 5) (ptr : BitVec 4) (m : AddrMode)
  /-- R623. Crag stores a saturated unsigned halfword. -/
  | stHu (core : Fin 33) (reg : BitVec 5) (ptr : BitVec 4) (m : AddrMode)
  /-- R623. Crag stores a word. -/
  | stW (core : Fin 33) (reg : BitVec 5) (ptr : BitVec 4) (m : AddrMode)
  /-- R623. Crag stores a pointer. -/
  | stP (core : Fin 33) (reg : BitVec 4) (ptr : BitVec 4) (m : AddrMode)
  /-- R623. Crag stores a saturated accumulator. -/
  | stA (core : Fin 33) (reg : BitVec 3) (ptr : BitVec 4) (m : AddrMode)
  /-- R623. Crag stores a Q1.31 value as Q1.15. -/
  | stHf (core : Fin 33) (reg : BitVec 5) (ptr : BitVec 4) (m : AddrMode)
  /-- R621. Crag conditional branch. -/
  | branch (core : Fin 33) (cond : BitVec 4) (off : BitVec 24)
  /-- R627. Crag pushes a frame and calls. -/
  | call (core : Fin 33) (off : BitVec 12) (mask : W16)
  /-- R627. Crag calls through a pointer. -/
  | callr (core : Fin 33) (ptr : BitVec 4) (mask : W16)
  /-- R628. Crag returns from a call, or ends the dispatch. -/
  | ret (core : Fin 33) (mask : W16)
  /-- R622. Crag branches through a pointer. -/
  | br (core : Fin 33) (ptr : BitVec 4)
  /-- R624. Crag opens a hardware loop level. -/
  | loop (core : Fin 33) (count : LoopCount) (last : W16)
  /-- R622. Crag reads a special register. -/
  | mfs (core : Fin 33) (reg : BitVec 5) (spec : BitVec 5)
  /-- R622. Crag writes a special register. -/
  | mts (core : Fin 33) (reg : BitVec 5) (spec : BitVec 5)
  /-- R622. Crag no operation. -/
  | nop (core : Fin 33)
  /-- R622. Crag sets the rounding mode. -/
  | setrnd (core : Fin 33) (rnd : BitVec 2)
  /-- R630. Summit reads a control register. -/
  | csrr (core : Fin 33) (reg : BitVec 5) (csr : W16)
  /-- R630. Summit writes a control register. -/
  | csrw (core : Fin 33) (reg : BitVec 5) (csr : W16)
  /-- R630. Summit returns from an exception. -/
  | rfe (core : Fin 33)
  /-- R630. Summit sleeps until a doorbell, timer or event. -/
  | wait (core : Fin 33)
  /-- R630. Summit orders its memory accesses. -/
  | fence (core : Fin 33)
  /-- R622. An undefined Crag encoding faults on Massif or raises a Summit exception. -/
  | undefinedEncoding (core : Fin 33) (word : W32)
  /-- R654. Sets the DRAM configuration and the default map. -/
  | dramConfig (d : Doorbell) (p : List Byte)
  /-- R656. Starts DRAM training as a long command. -/
  | dramTrain (d : Doorbell) (p : List Byte)
  /-- R643. Training ends, or fails, and CMD_DONE is posted. -/
  | dramTrainDone (res : TrainResult)
  /-- R655. Sets the DRAM address map. -/
  | dramMapSet (d : Doorbell) (p : List Byte)
  /-- R657. Returns the controller state and counters. -/
  | dramStatus (d : Doorbell) (p : List Byte)
  /-- R658. Returns bytes of the freeze record. -/
  | freezeRead (d : Doorbell) (p : List Byte)
  /-- R635. Zeroing of the free region completes and patrol scrubbing starts. -/
  | zeroingDone
  /-- R642. tREFI passes and a refresh is due, unless it is postponed. -/
  | refreshDue (ch sc rank : Fin 2)
  /-- R642. Every 16 ms MR4 is read and the refresh rate set. -/
  | mr4Poll (mult : Nat) (hot : Option (Nat × Nat × Nat × Nat))
  /-- R644. 128 ms pass and ZQ calibration of a rank runs. -/
  | zqCalDue (ch sc rank : Fin 2) (limit : Option Nat)
  /-- R644. 10 ms pass and the DQS oscillator and gate are tracked. -/
  | dqsTrackDue (ch sc rank : Fin 2) (lane : Nat) (drift : Int)
  /-- R639. A 1 µs window ends and class credits are renewed. -/
  | dramCreditWindow
  /-- R646. A DRAM burst read completes and is decoded by ECC. -/
  | dramReadComplete (addr cls : Nat) (scrub : Bool) (res : EccResult)
  /-- R649. A command-path parity error freezes the controller, or fails training. -/
  | caParityError (ch sc rank : Fin 2) (addr cls : Nat)
  /-- R649. DDRc_ALERT_N signals a write CRC error, which replays the write or freezes the controller. -/
  | writeCrcAlert (addr cls : Nat) (replayed : Bool)
  /-- R645. DRAM leaves self-refresh after ZQ and tracking and serves requests. -/
  | selfRefreshExitDone
  /-- R684. Configures the ring, or forwards a command to members. -/
  | ringConfig (d : Doorbell) (p : List Byte)
  /-- R685. Returns the ring state and counters. -/
  | ringStatus (d : Doorbell) (p : List Byte)
  /-- R686. Starts sending the SYNC entries to devices. -/
  | ringTableSync (d : Doorbell) (p : List Byte)
  /-- R674. All entries are sent and CMD_DONE is posted. -/
  | ringTableSyncDone
  /-- R687. Sets the rendezvous period and guard, and sends a wake mask. -/
  | rendezvousSet (d : Doorbell) (p : List Byte)
  /-- R660. A ring port achieves lock, deskew and delay measurement and is up. -/
  | ringPortUp (port : Fin 2) (delay us : Nat)
  /-- R660. A ring port loses block lock for 10 µs and goes down. -/
  | ringPortDown (port : Fin 2) (lost : Nat) (peerVigil : Bool)
  /-- R661. SWITCH_SETTLE_US passes and the ring transmitters are enabled. -/
  | ringSwitchSettle
  /-- R661. LINK_WAIT_MS ends with neither port up, and the ring is released. -/
  | ringLinkWaitExpiry
  /-- R661. RETRY_S passes and ring insertion starts again. -/
  | ringRetryExpiry
  /-- R669. A BEACON is received, taken as a mark, relayed, and used for roster and paths. -/
  | ringBeaconRx (port : Fin 2) (t residence : Nat) (frame : List Byte)
  /-- R483. A ring DATA message for this device is de-encapsulated and parsed. -/
  | ringDataRx (port : Fin 2) (frame : List Byte)
  /-- R666. A ring message not for this device is forwarded or stripped. -/
  | ringTransitFrame (port : Fin 2) (frame : List Byte)
  /-- R665. A ring frame with an unknown MSG_TYPE or a bad CRC is discarded. -/
  | ringBadMsgType (port : Fin 2) (frame : List Byte) (crcOk : Bool)
  /-- R667. A free ring port begins the next waiting frame in priority order. -/
  | ringPortTxStart (port : Fin 2)
  /-- R673. A COMMAND from the master is queued, rejected or answered E_BUSY. -/
  | ringCommandRx (port : Fin 2) (frame : List Byte)
  /-- R673. A queued ring COMMAND is written into MB3 once MB3 is not BUSY. -/
  | mb3CommandInject
  /-- R673. A RESPONSE reaches the master and RING_CMD_RESULT is raised. -/
  | ringResponseRx (port : Fin 2) (frame : List Byte)
  /-- R674. A TABLE_UPDATE is validated and applied as REMOTE, or a gap is raised. -/
  | ringTableUpdateRx (port : Fin 2) (frame : List Byte)
  /-- R675. A CHANNEL_SUMMARY is written into the views window. -/
  | ringSummaryRx (port : Fin 2) (frame : List Byte)
  /-- R675. SUMMARY_BEATS pass and a CHANNEL_SUMMARY is broadcast. -/
  | summaryTimer
  /-- R672. A CLAIM is received and mastership passes at the claim beat. -/
  | ringClaimRx (port : Fin 2) (frame : List Byte)
  /-- R678. At R_k the acting master sends a RENDEZVOUS to neighbours in VIGIL. -/
  | rendezvousInstant
  /-- R678. A rendezvous window opens and lane 0 comes up. -/
  | rdvWindowOpen
  /-- R679. The rendezvous window ends, and its guard widens if nothing arrived. -/
  | rdvWindowEnd
  /-- R680. A RENDEZVOUS is received, relayed, updates KEEPER_TRIM and may wake the device. -/
  | rendezvousRx (port : Fin 2) (ticks residence : Nat) (frame : List Byte)
  /-- R693. The Summit cores differ; SAFE is entered with cause LOCKSTEP and Summit is held in reset. -/
  | lockstepMismatch (pcA pcB : W32)
  /-- R694. An uncorrectable SRAM read takes its class's action, SAFE for classes 0 to 2. -/
  | sramUncorrectable (cls : Nat) (addr : W32) (victim : SramVictim)
  /-- R695. HEARTBEAT is unchanged for WDT_MS and SAFE is entered with cause WATCHDOG. -/
  | wdtStage1Expiry
  /-- R695. HEARTBEAT is unchanged for WDT_RESET_MS and Cairn performs a watchdog reset. -/
  | wdtResetExpiry (safeN : Bool)
  /-- R700. The fault record write completes and the window is made valid. -/
  | lastGaspDone
  /-- R704. AUTO_DELAY_MS after SAFE entry, Cairn restarts the device for an enabled cause. -/
  | autoRestartExpiry (safeN : Bool)
  /-- R708. Every 3,600 s Summit writes the availability record. -/
  | availabilityWrite
  /-- R123. Each 1 ms of the Summit main loop increments HEARTBEAT. -/
  | heartbeatTick
  /-- R711. Returns event records from the SRAM or persistent log. -/
  | logRead (d : Doorbell) (p : List Byte)
  /-- R712. Returns bytes of a fault record slot. -/
  | faultRead (d : Doorbell) (p : List Byte)
  /-- R713. Returns the Cairn fault counters. -/
  | counterRead (d : Doorbell) (p : List Byte)
  /-- R714. Returns a status snapshot, temperatures and availability. -/
  | statusRead (d : Doorbell) (p : List Byte)
  /-- R715. Sets the watchdog, auto-restart and thermal warning settings. -/
  | watchdogSet (d : Doorbell) (p : List Byte)
  /-- R716. Starts clearing the persistent log or the fault slots. -/
  | logClear (d : Doorbell) (p : List Byte)
  /-- R716. The log region is zeroed and CMD_DONE is posted. -/
  | logClearDone
  /-- R740. A doorbell written while STATE is NO_SUPERVISOR copies the command into the mailbox as recorded, and STATE stays NO_SUPERVISOR. -/
  | commandRecorded (op : W16) (d : Doorbell) (p : List Byte)
  /-- R115. A doorbell written while STATE is BUSY, or while a command is already recorded, is discarded, sets OVERRUN and counts DOORBELL_OVERRUN. -/
  | doorbellOverrun (op : W16) (d : Doorbell) (p : List Byte)
  /-- R64. PCIe link training completes, HOST_LINK is set, and BAR0 becomes reachable. -/
  | pcieLinkUp
  /-- R227. After a switchover or a channel change, the former main synthesizer relocks or retunes and becomes the phase-tracked standby again. -/
  | standbyRelocked (band : BandId) (synth : Bool)
  /-- R319. The short-training correlation of an untriggered wideband reception is detected, and the AGC runs and freezes. -/
  | wbPreambleDetected (band : BandId)
  /-- R320. A 0.8 µs power window ending before lock shows a rise of RX_STEP_DB, and the wideband receiver restarts and counts RX_RESTART. -/
  | wbRxRestart (band : BandId) (rise : Int)
  /-- R429. The 16-bit preamble correlation matches, the AGC freezes, P_ref is set, and the receiver enters PREAMBLE with its sync window open. -/
  | nbPreambleDetected (x : Fin 4) (power : Int)
  /-- R430. A 4 Tb power window ends above P_ref + RESTART_DB in PREAMBLE, or above RSSI + CAPTURE_DB in PAYLOAD, and restarts the receiver or aborts the frame with CAPTURE_EN. -/
  | nbRxWindowPower (x : Fin 4) (power : Int)
  /-- R424. A narrowband request still waiting for lock, blanking release or its start instant reaches LATEST, and ends with NB_LATE, or NB_LOCK when the transceiver is FAILED. -/
  | nbRequestLatest (x : Fin 4)
  /-- R442. BLANK_TAIL_NS after a blanking release, the narrowband detector is freed and wideband samples are valid again. -/
  | blankTailExpiry (input : BitVec 2)
deriving DecidableEq, Repr

end Sys2Proof
end

