-- ==== Sys2Proof/Decode.lean ====
section
/-!
DEFINITION. Decoding a word by the bits of the table of operations: no row of the table gives bits.
-/
namespace Sys2Proof

/-- The command that a word spells by the table's bits. -/
def decodeTableWord (_nbits _w : Nat) : Option Instr := none

end Sys2Proof
end

