-- ==== Sys2Proof/Config.lean ====
section
/-!
DEFINITION. What an implementation fixes and the values that the spec leaves open. A constant without a body is a free
value: nothing constrains it (DESIGN CHOICE, entries 46, 47, 85, 88, 104, 110, 134, 140, 141 of the assumption log).
-/
namespace Sys2Proof.Config

/-- A fresh open value: the n-th value, drawn where the spec states none. -/
opaque fresh : Nat → Nat → Nat

/-- The order code is TA-3192-XB, else TA-3192-SB (R147, R697). -/
opaque xb : Bool
/-- The PCIe Vendor ID (R106). -/
opaque vendorId : BitVec 16
/-- The serial number (R147). -/
opaque serial : BitVec 64

/-- CRC-16/CCITT of a chain record: the spec does not give its initial value (R287). -/
opaque crc16 : List Byte → Nat
/-- Agreement of two PA compensation models (R260): the spec does not give the model's terms in dB and degrees. -/
opaque paAgree : List Int → List Int → Bool
/-- A tie that the spec does not break is rounded up. -/
opaque tieUp : Int → Bool
/-- The 16 bytes of a slice record (R286): point, types and values. The spec does not lay them out. -/
opaque sliceRecord : Nat → List (Nat × List Int) → List Byte
/-- The header of the calibration region (R286) by retired slices and valid chain records. The spec does not lay it out. -/
opaque calHeader : List Nat → List Nat → Nat → Byte

/-- The tone groups that an RU of a size code and position overlaps in a channel of a width (R297, R303): the tone plan is
IEEE 802.11's. -/
opaque ruGroups : Nat → Nat → Nat → List Nat
/-- Two RUs of a channel, each a size code and a position, share a tone. -/
opaque ruOverlap : Nat → (Nat × Nat) → (Nat × Nat) → Bool
/-- The predicted SNR of a user through a weight set, 0.5 dB, by the SNRs of its blocks and the streams of the set (R348). -/
opaque predSnr : List Int → Nat → Int
/-- The response time of an explicit sounding's frames, ns (R307). -/
opaque explicitNs : Nat → Nat

/-- The MLD address of the device (R566): no command sets it. -/
opaque apMld : BitVec 48
/-- What the spec does not state of a datagram that Foothill builds (R469): the bytes of its MAC addresses, its traffic class
byte, its flow label, its flags word. -/
opaque udpMac : Nat → Byte
opaque udpTos : Byte
opaque udpFlow : Nat
opaque udpDf : Bool
/-- The ciphertext and MIC of a group frame by key, Ethernet header, PN and frame: the spec does not give the header that the
frame has on air (R360). -/
opaque groupSeal : List Byte → List Byte → Nat → List Byte → List Byte

/-- The internal hashes of the L2 table, of a family's route table and of the prefix-length filter (R507, R515, R516). -/
opaque l2Hash : Nat → Nat → Nat → Nat
opaque routeHash : Nat → Nat → Nat → Nat → Nat
opaque bloomHash : Nat → Nat → Nat → Nat → Nat
/-- PCP and DEI of a tag that the device adds, by the packet's user priority (R505). -/
opaque addedPcp : Nat → Nat

/-- Whether MOVI extends its immediate by its sign: the spec does not say. -/
opaque moviSigned : Bool
/-- The codes of the record kinds of a kernel's output area (R601): 0 GROUPING, 1 WEIGHT_SET, 2 SIGNAL, 3 HOST_MSG. -/
opaque recordKind : Nat → Nat
/-- Where the event descriptor, the output area and a packet's copy lie in the local window (R600), in 8 bytes. -/
opaque descAt : Nat
opaque outAt : Nat
opaque pktAt : Nat
/-- Where a band's candidate list and outcome records lie in the views window (R600), in 16 bytes. -/
opaque candAt : Nat → Nat
opaque outcomesAt : Nat → Nat
/-- Bytes of the views window, of an event descriptor and of Summit's memory that the spec does not state. -/
opaque viewsByte : Nat → Nat → BitVec 8
opaque descByte : Nat → Nat → BitVec 8
opaque summitByte : Nat → BitVec 8
/-- The code pair that NB_STATS gives for a channel that the plan does not have (R449): the spec names none. -/
opaque tuneByte : Nat → Nat → BitVec 8
/-- Where Summit goes on a Summit exception. -/
opaque summitVector : BitVec 32

end Sys2Proof.Config
end

