-- ==== Sys2Proof/Machine/Parts/Basic.lean ====
section
/-!
DEFINITION. Parts of the state: supplies, straps, pins, boot, mailboxes, host rings, events, modes and faults.
In each field's docstring the bars part: the rule, the width, where the reset value comes from
(S: the spec; a number n: log entry n; M: the model's own bookkeeping), and what the field is.
-/
namespace Sys2Proof.Machine

/-- The objects that commands hold (R121). -/
inductive Obj where
  | profile (n : Nat)
  | modeCtl
  | band (n : Nat)
  | calEngine
  | calTables
  | mramLog
  | l2Table
  | routeTable
  | kek0
  | kernel (n : Nat)
  | dram
  | ringTable
  | xcvr (n : Nat)
  | chan (n : Nat)
  | hostRing (n : Nat)
deriving DecidableEq, Repr

/-- A command as Summit takes it (R114): a copy of the header fields it needs and of the parameters. -/
structure Cmd where
  mb : Nat := 0
  op : Nat := 0
  seq : W16 := 0
  flags : Byte := 0
  par : List Byte := []
  path : Path := .bar
deriving DecidableEq, Repr

/-- A pending long command (R119, R121). -/
structure LongCmd where
  cmd : Cmd
  objs : List Obj := []
  started : Bool := true
  startNs : Nat := 0
deriving DecidableEq, Repr

/-- What the ring transmitters do (R55). -/
inductive RingTx where
  | z | disabled | passThrough | rendezvous | ridgeline
deriving DecidableEq, Repr

/-- What the DDR5 outputs do (R55). -/
inductive DdrOut where
  | z | reset | training | active | selfRefresh | frozen
deriving DecidableEq, Repr

/-- A thing the device emits at one of its interfaces. -/
inductive Emit where
  /-- Bytes written to host memory by DMA. -/
  | hostMem (addr : Nat) (bytes : List Byte)
  /-- An MSI-X vector raised. -/
  | msix (vec : Nat)
  /-- An Ethernet frame begun on a port: 0 to 3 UP0 to UP3, 4 MGT. -/
  | eth (port : Nat) (bytes : List Byte)
  /-- A Ridgeline frame begun on a ring port: 0 E, 1 W. -/
  | ring (port : Nat) (bytes : List Byte)
  /-- A wideband PPDU put on air: band, position in the plan, frame where it carries one beacon, management or group frame. -/
  | air (band : Nat) (id : Nat) (body : List Byte)
  /-- A narrowband transmission begun: transceiver, channel, PSDU. -/
  | nb (xcvr : Nat) (chan : Nat) (psdu : List Byte)
  /-- A cadence mark driven on CAD_OUT_PULSE and CAD_OUT_DATA. -/
  | cadOut (frame : W64)
  /-- An RFFE transaction put on a bus: band, bus, USID, operation, address, data. -/
  | rffe (band bus usid op addr : Nat) (data : List Byte)
  /-- ENTER or CANCEL sent to a power agent. -/
  | enter (agent target : Nat)
  | cancel (agent : Nat)
  /-- A plan-open, trigger or other event raised to Col: kind and object. -/
  | col (kind obj : Nat)
  /-- A command to the DDR5 devices: channel, kind. -/
  | ddr (ch kind : Nat)
  /-- A packet handed to the packet path from inside the device. -/
  | path (bytes : List Byte)
deriving DecidableEq, Repr

/-- What a BAR or service-port access completes with. -/
inductive BusReply where
  | none
  | data (bytes : List Byte)
  | unsupported
deriving DecidableEq, Repr

/-- Supplies, clocks, control inputs, sampled straps and GPIO. -/
structure Pwr where
  /-- R75|1|S|VDD_AON within its limits -/
  vddAon : Bool := true
  /-- R56|1|S|VDD_IO within its limits -/
  vddIo : Bool := true
  /-- R75|1|S|PWR_OK high -/
  pwrOk : Bool := true
  /-- R61|1|S|RESET_N level: low, the device is held in reset -/
  resetN : Bool := false
  /-- R62|1|2|SAFE_N level as last recognised -/
  safeN : Bool := true
  /-- R64|1|2|PCIE_PERST_N level -/
  perstN : Bool := false
  /-- R83|1|2|REFCLK_RF present and within 1 % -/
  refclkRf : Bool := true
  /-- R84|1|2|SERDES_REFCLK runs -/
  refclkSerdes : Bool := true
  /-- R84|1|2|PCIE_REFCLK runs -/
  refclkPcie : Bool := true
  /-- R82|1|2|the keeper oscillator is stable -/
  keeperStable : Bool := false
  /-- R83|1|S|Cairn runs on its RC oscillator -/
  onRc : Bool := true
  /-- R123|2|S|PROF_SEL as sampled -/
  profSel : BitVec 2 := 0
  /-- R123|2|S|RING_ROLE as sampled -/
  ringRole : BitVec 2 := 0
  /-- R123|3|S|RING_ID as sampled -/
  ringId : BitVec 3 := 0
  /-- R123|1|S|BOOT_HALT as sampled -/
  bootHalt : Bool := false
  /-- R65|16|S|GPIO directions, 1 output -/
  gpioDir : W16 := 0
  /-- R65|16|3|GPIO output levels -/
  gpioLevel : W16 := 0
  /-- R65|16|S|GPIO pull-downs kept -/
  gpioPull : W16 := 0xFFFF
  /-- R66|16|2|levels at the GPIO balls as last sampled -/
  gpioIn : W16 := 0
deriving DecidableEq, Repr

/-- Levels and states of the outputs (R55). -/
structure Outs where
  /-- R51|1|S|every output is high-impedance, its supply being absent -/
  z : Bool := false
  /-- R55|1|S|FAULT_N asserted -/
  faultN : Bool := true
  /-- R55|1|S|BYP_HOLD_RING high -/
  bypRing : Bool := false
  /-- R55|1|S|BYP_HOLD_CHAIN high -/
  bypChain : Bool := false
  /-- R55|4|S|UP0 to UP3 transmitters enabled -/
  upTx : BitVec 4 := 0
  /-- R55|1|S|MGT transmitter enabled -/
  mgtTx : Bool := false
  /-- R55|1|S|ring transmitters -/
  ringTx : RingTx := .passThrough
  /-- R55|1|S|PCIe transmitters active (else electrical idle) -/
  pcieTx : Bool := false
  /-- R55|1|S|DDR5 outputs -/
  ddr : DdrOut := .reset
  /-- R55|1|S|CAD_OUT_PULSE and CAD_OUT_DATA driven as cadence master (else low) -/
  cadOut : Bool := false
  /-- R55|1|S|COEX_REQ -/
  coexReq : Bool := false
  /-- R55|1|S|COEX_PRI -/
  coexPri : Bool := false
  /-- R55|1|S|RFFE buses active (else held low) -/
  rffe : Bool := false
  /-- R55|24|S|PAEN lines, band M in bits 11:0, band H in bits 23:12 -/
  paen : BitVec 24 := 0
  /-- R55|24|S|TRSW lines -/
  trsw : BitVec 24 := 0
  /-- R55|24|S|LNAEN lines -/
  lnaen : BitVec 24 := 0
  /-- R698|192|S|DACs unmuted, band M in bits 95:0, band H in bits 191:96 -/
  dac : BitVec 192 := 0
  /-- R698|4|S|narrowband PAs on -/
  nbPa : BitVec 4 := 0
deriving DecidableEq, Repr

/-- Where a boot stands (R85, R87). -/
inductive BootPhase where
  /-- no boot in progress -/
  | idle
  /-- steps 1 to 5 of R85 -/
  | sequence
  /-- replaying the stream -/
  | replay
  /-- BOOT-ready -/
  | ready
  /-- autostart in progress -/
  | autostart
  /-- boot finished -/
  | done
deriving DecidableEq, Repr

/-- Boot, profile selection, replay, staging and MRAM. -/
structure Boot where
  /-- R94|4|S|BOOT_STAGE of STATUS0 -/
  stage : BitVec 4 := 0
  /-- R87|-|S|phase of the boot -/
  phase : BootPhase := .idle
  /-- R123|2|S|ACTIVE_PROFILE -/
  active : BitVec 2 := 0
  /-- R96|3|S|PROFILE_SELECT selection, none since the last rising edge of RESET_N -/
  sel : Option (BitVec 2) := none
  /-- R147|1|S|replay failed -/
  replayFailed : Bool := false
  /-- R89|16|S|index of the next record to replay -/
  recIdx : Nat := 0
  /-- R89|32|S|image offset of the next record -/
  recOff : Nat := 0
  /-- R89|16|S|records of the stream -/
  recCount : Nat := 0
  /-- R89|1|S|a long record is awaited -/
  waitLong : Bool := false
  /-- R89|16|M|status with which the awaited record has completed -/
  recStatus : Option Nat := none
  /-- R94|64|S|time of day at the start of replay -/
  replayNs : Nat := 0
  /-- R150|-|S|the PROFILE_LOAD that replays, if one does -/
  loader : Option Cmd := none
  /-- R150|2|S|profile whose stream is replayed -/
  replayProf : Nat := 0
  /-- R98|8|S|autostart mode of the profile in use -/
  autostart : Nat := 0
  /-- R743|1|S|an autostart is under way -/
  autoOn : Bool := false
  /-- R148|-|S|mailbox that owns the staging buffer -/
  stageOwner : Option Nat := none
  /-- R148|64 KB|S|staging buffer, sparse, unlisted bytes 0 -/
  stageBuf : List (Nat × Byte) := []
  /-- R149|-|S|images being written, by profile -/
  storeJobs : Tab (List Byte) := []
  /-- R150|-|S|PROFILE_LOAD verifications in progress: profile and reason -/
  loadJobs : Tab Nat := []
  /-- R101|512 KB|5|MRAM contents, sparse, unlisted bytes 0 -/
  mram : List (Nat × Byte) := []
  /-- R102|-|2|addresses of 64-bit MRAM words that hold an uncorrectable error -/
  mramBad : List Nat := []
  /-- R277|216|5|slices recorded as retired in the header of the calibration region: 108 x band + 9 x group + slice -/
  calRetired : List Nat := []
  /-- R286|216 x 9 records|5|slice records of the calibration region, by 9 x slice index + point, then by type -/
  calSlices : Tab (Tab (List Int)) := []
  /-- R703|1|S|a restart is under way, from its start until Summit starts -/
  restarting : Bool := false
  /-- R183|8|S|cause code of the mode change that the boot in progress makes -/
  cause : Nat := 4
deriving DecidableEq, Repr

/-- A command recorded while no supervisor runs (R740): the copied header and parameters, and the doorbell value. -/
structure Recorded where
  cmd : Cmd
  /-- the header and the doorbell value agree, and LENGTH and the reserved fields are in order (R114) -/
  seqOk : Bool := true
  hdrOk : Bool := true
deriving DecidableEq, Repr

/-- One mailbox page (R109). -/
structure MbPage where
  /-- R109|512 bytes|S|CMD area -/
  cmd : List Byte := List.replicate 512 0
  /-- R109|512 bytes|S|RSP area -/
  rsp : List Byte := List.replicate 512 0
  /-- R109|16|S|DOORBELL.SEQ -/
  doorbell : W16 := 0
  /-- R109|1|S|STATE is BUSY -/
  busy : Bool := false
  /-- R109|1|S|STATE is DONE -/
  done : Bool := false
  /-- R740|1|S|DONE was set by Cairn in HOLD, where NO_SUPERVISOR would otherwise read -/
  cairnDone : Bool := false
  /-- R109|1|S|SEQ_MISMATCH -/
  mismatch : Bool := false
  /-- R109|1|S|OVERRUN -/
  overrun : Bool := false
  /-- R109|16|S|LAST_SEQ -/
  lastSeq : W16 := 0
  /-- R109|1|S|HOST_WRITE_EN, MB2 only -/
  hostWriteEn : Bool := false
  /-- R109|1|S|IRQ_EN -/
  irqEn : Bool := false
  /-- R109|7|S|MSIX_VEC -/
  vec : BitVec 7 := 0
  /-- R740|-|S|recorded command -/
  recorded : Option Recorded := none
deriving DecidableEq, Repr

/-- A stalled command: it waits in the interconnect bridge for a domain to wake (R176). -/
structure Stalled where
  dom : Nat
  cmd : Cmd
deriving DecidableEq, Repr

/-- The four mailboxes and the long commands. -/
structure Mbx where
  /-- R109|4 pages|S|mailbox pages MB0 to MB3 -/
  pages : List MbPage := [{}, { vec := 1 }, { vec := 2 }, { vec := 3 }]
  /-- R119|-|S|pending long commands in doorbell order -/
  longs : List LongCmd := []
  /-- R176|-|S|commands stalled on a waking domain, in arrival order -/
  stalled : List Stalled := []
  /-- R127|1|2|the previous service-port WRITE was not applied -/
  svcRejected : Bool := false
deriving DecidableEq, Repr

/-- An event record (R128). -/
structure EvtRec where
  code : Nat
  sev : Nat
  mailbox : Nat := 0xFF
  seq : W32
  ts : Nat
  beat : Nat
  offset : Nat
  cmdSeq : W16 := 0
  object : W32 := 0xFFFFFFFF
  payload : List Byte := []
deriving DecidableEq, Repr

/-- A packet that waits for a PKT_RX ring (R141), with its completion fields (R139). -/
structure HostPkt where
  srcType : Nat
  reason : Nat
  srcId : Nat
  rule : W16 := 0xFFFF
  flags : Nat := 0
  hash : W32 := 0
  ts : Nat := 0
  bytes : List Byte
deriving DecidableEq, Repr

/-- One host DMA ring (R132, R134, R135). -/
structure Ring where
  /-- R135|8|S|TYPE, 0 not configured -/
  type : Nat := 0
  /-- R132|1|S|ENABLED -/
  enabled : Bool := false
  /-- R134|1|S|PUSH -/
  push : Bool := false
  /-- R134|8|4|LOG2_SIZE -/
  log2 : Nat := 0
  /-- R137|7|S|MSIX_VEC (64 + n for HRn) -/
  vec : Nat := 0
  /-- R134|64|4|BASE -/
  base : Nat := 0
  /-- R134|64|4|WB_ADDR -/
  wb : Nat := 0
  /-- R134|16|4|MOD_US -/
  modUs : Nat := 0
  /-- R134|16|4|MOD_COUNT -/
  modCount : Nat := 0
  /-- R132|16|S|HOST_IDX -/
  hostIdx : W16 := 0
  /-- R132|16|S|DEV_IDX -/
  devIdx : W16 := 0
  /-- R132|1|S|ERROR -/
  error : Bool := false
  /-- R140|1|S|the ring is stopped until it is disabled and enabled again -/
  stopped : Bool := false
  /-- R132|1|S|OVERFLOW -/
  overflow : Bool := false
  /-- R132|32|S|DROP_COUNT, clears on read -/
  dropCount : W32 := 0
  /-- R135|32|S|DROPS since last enabled -/
  drops : W32 := 0
  /-- R135|32|S|COMPLETIONS since last enabled -/
  completions : W32 := 0
  /-- R135|64|S|ERROR_COOKIE -/
  errCookie : W64 := 0
  /-- R135|8|S|ERROR_CAUSE -/
  errCause : Nat := 0
  /-- R131|-|S|waiting records, newest first -/
  waiting : List EvtRec := []
  /-- R130|-|S|records dropped for lack of slots and not yet reported: count, first and last EVT_SEQ -/
  lost : Option (Nat × W32 × W32) := none
  /-- R134|16|M|completions since the last vector -/
  sinceVec : Nat := 0
  /-- R134|1|M|the moderation interval runs -/
  modRunning : Bool := false
  /-- R141|-|S|packets waiting to be written, oldest first -/
  queue : List HostPkt := []
  /-- R134|-|S|the HR_CONFIG that disables the ring and has not been answered -/
  disabling : Option Cmd := none
deriving DecidableEq, Repr

/-- The PCIe endpoint and the host rings. -/
structure HostIf where
  /-- R123|1|S|HOST_LINK -/
  link : Bool := false
  /-- R64|1|M|PCIe link training runs -/
  training : Bool := false
  /-- R132|64 rings|S|rings that differ from their reset state -/
  rings : Tab Ring := []
  /-- R129|32 x 8|S|routes of the event families that differ from R129; 0xFF no ring -/
  routes : Tab Nat := []
  /-- R107|128 x 16 bytes|4|MSI-X table words that have been written -/
  msixTable : Tab W32 := []
  /-- R107|128|4|MSI-X pending bits -/
  msixPend : BitVec 128 := 0
  /-- R132|512 KB|4|contents of the push windows, sparse, unlisted bytes 0 -/
  push : List (Nat × Byte) := []
  /-- R124|-|M|completion of the last BAR or service-port access -/
  reply : BusReply := .none
  /-- R127|8|M|SVC_FLAGS shifted out in byte 0 of the last service-port transaction -/
  svcFlags : Byte := 0x80
deriving DecidableEq, Repr

/-- Event numbering and logs. -/
structure Evt where
  /-- R30|32|S|EVENT_SEQ -/
  seq : W32 := 0
  /-- R131|4,096 records|S|event log in Summit SRAM, newest first -/
  log : List EvtRec := []
  /-- R701|7 records|2|Cairn mirror, newest first -/
  mirror : List EvtRec := []
  /-- R702|10|5|persistent-log slot that is written next -/
  persistNext : Nat := 0
  /-- R630|1|S|Summit sleeps in WAIT -/
  asleep : Bool := false
deriving DecidableEq, Repr

/-- State of one power domain (R187). -/
structure Domain where
  /-- R187|8|S|STATE: 0 OFF, 1 ON, 2 WAKING, 3 DEMAND_ON, 4 FROZEN, 5 FAILED -/
  st : Nat := 0
  /-- R187|8|S|RETRIES -/
  retries : Nat := 0
  /-- R187|8|S|FAIL_STEP -/
  failStep : Nat := 0
  /-- R187|32|S|WAKE_COUNT -/
  wakes : Nat := 0
  /-- R187|32|S|LAST_WAKE_US -/
  lastUs : Nat := 0
  /-- R180|1|M|the repeated power-up is under way or due -/
  retrying : Bool := false
deriving DecidableEq, Repr

/-- Where a power agent stands in the handshake. -/
inductive AgentSt where
  | idle | waiting | accepted
  | delayed (us : Nat)
deriving DecidableEq, Repr

/-- One power agent (R170). -/
structure Agent where
  /-- R170|32|S|REFUSE_COUNT -/
  refuse : Nat := 0
  /-- R170|32|S|ABORT_COUNT -/
  abort : Nat := 0
  /-- R170|16|S|DELAY_COUNT -/
  delay : Nat := 0
  /-- R170|8|S|LAST_REASON -/
  last : Nat := 0
  /-- R164|-|S|answer in the handshake that runs -/
  st : AgentSt := .idle
  /-- R165|1|S|the ENTER sent at 10 ms has been sent -/
  final : Bool := false
deriving DecidableEq, Repr

/-- What asked for the transition that runs. -/
inductive TransBy where
  | modeSet (c : Cmd)
  | autostart
  | wake
deriving DecidableEq, Repr

/-- A mode transition in progress (R154, R155). -/
structure Trans where
  /-- who asked for it -/
  by_ : TransBy
  /-- the mode asked for -/
  final : Nat
  /-- the mode the stage that runs leads to -/
  stage : Nat
  /-- cause code of the mode changes it makes (R183) -/
  cause : Nat := 0
  /-- a handshake runs, has committed, or the stage has none -/
  handshaking : Bool := false
  committed : Bool := false
  /-- FORCE_BF -/
  force : Bool := false
  /-- time of day when the request was accepted, when the stage began and when its handshake began -/
  startNs : Nat := 0
  stageNs : Nat := 0
  hsNs : Nat := 0
  /-- handshake time summed over the stages, ns -/
  hsSum : Nat := 0
  /-- beat in which the SERVE exit committed -/
  commitBeat : Nat := 0
deriving DecidableEq, Repr

/-- Modes, domains, the entry handshake and wake settings. -/
structure Modes where
  /-- R123|3|S|MODE -/
  mode : Nat := 1
  /-- R123|3|S|TARGET_MODE -/
  target : Nat := 1
  /-- R123|-|S|the transition in progress; IN_TRANSITION is 1 while there is one -/
  trans : Option Trans := none
  /-- R185|8|4|LAST_CAUSE -/
  lastCause : Nat := 4
  /-- R185|64|M|time of day of the last mode change -/
  sinceNs : Nat := 0
  /-- R160|8 domains|S|D0 to D7 -/
  doms : List Domain := { st := 1 } :: List.replicate 7 {}
  /-- R181|8|S|DEGRADED -/
  degraded : Byte := 0
  /-- R170|16 agents|S|power agents -/
  agents : List Agent := List.replicate 16 {}
  /-- R186|32|S|ENTRIES_ATTEMPTED -/
  attempted : Nat := 0
  /-- R186|32|S|ENTRIES_COMMITTED -/
  committedN : Nat := 0
  /-- R186|32|S|ENTRIES_ABORTED -/
  aborted : Nat := 0
  /-- R186|32|S|WAKE_ABORTS -/
  wakeAborts : Nat := 0
  /-- R188|5|S|SOURCES of WAKE_CONFIG -/
  wakeSources : BitVec 5 := 0x0F
  /-- R188|8|S|WARM_TARGET -/
  warmTarget : Nat := 5
  /-- R188|16|S|DEMAND_IDLE_MS -/
  demandIdleMs : Nat := 10
  /-- R188|48|S|ALARM_BEAT -/
  alarmBeat : Nat := 0
  /-- R168|-|S|a wake source held until the entry to VIGIL: source and object -/
  wakeHeld : Option (Nat × Nat) := none
  /-- R189|8|S|VIGIL_UPLINK -/
  vigilUplink : Nat := 0xFF
  /-- R189|16|4|VIGIL_NEXTHOP -/
  vigilNexthop : Nat := 0
deriving DecidableEq, Repr

/-- Where the last-gasp write stands (R700). -/
inductive Gasp where
  | idle
  /-- writing slot n, the record's bytes being fixed but for CAUSE_MASK and what follows -/
  | writing (slot : Nat) (image : List Byte) (powerLoss : Bool)
  | done (slot : Nat) (powerLoss : Bool)
deriving DecidableEq, Repr

/-- Faults, watchdog, temperatures and availability. -/
structure Flt where
  /-- R123|8|S|SAFE_CAUSE -/
  cause : Nat := 0
  /-- R690|32|2|CAUSE_MASK of the present SAFE stay -/
  mask : W32 := 0
  /-- R693|1|S|Summit is held in reset -/
  summitHeld : Bool := false
  /-- R123|1|S|Summit runs (its main loop answers) -/
  summitRun : Bool := false
  /-- R123|32|S|HEARTBEAT -/
  heartbeat : W32 := 0
  /-- R700|-|S|last-gasp write -/
  gasp : Gasp := .idle
  /-- R123|1|S|LAST_GASP_DONE -/
  gaspDone : Bool := false
  /-- R123|1|S|FAULT_RECORD_VALID -/
  recValid : Bool := false
  /-- R701|512 bytes|2|fault record window -/
  window : List Byte := List.replicate 512 0
  /-- R700|4|5|newest fault-record slot written, if any -/
  newest : Option Nat := none
  /-- R701|32|5|FAULT_SEQ of the last record -/
  faultSeq : W32 := 0
  /-- R701|64|S|DETAIL of the cause -/
  detail : List Byte := List.replicate 8 0
  /-- R707|29 x 32|S|fault counters -/
  counters : List W32 := List.replicate 29 0
  /-- R715|16|S|WDT_MS -/
  wdtMs : Nat := 100
  /-- R715|16|S|WDT_RESET_MS -/
  wdtResetMs : Nat := 1000
  /-- R715|16|S|AUTO_MASK -/
  autoMask : W16 := 0
  /-- R715|16|S|AUTO_DELAY_MS -/
  autoDelayMs : Nat := 1000
  /-- R715|8|S|AUTO_LIMIT -/
  autoLimit : Nat := 3
  /-- R715|8|S|THERMAL_WARN_C when set by command; by default TJ_SHUTDOWN - 10 -/
  warnC : Option Nat := none
  /-- R704|-|2|times of day (s) of the automatic restarts of the last 3,600 s -/
  autoTimes : List Nat := []
  /-- R704|1|S|AUTO_RESTART_LIMIT is to be raised at the next boot -/
  limitHit : Bool := false
  /-- R695|1|S|WATCHDOG_RESET is to be raised by the boot that follows -/
  wdtHit : Bool := false
  /-- R737|36 x 16|2|latched results of the sensors in 0.25 C: core die 0 to 7, RF die M 8 to 19, RF die H 20 to 31, L0 to L3 32 to 35 -/
  sensors : List Int := List.replicate 36 0
  /-- R697|1|M|THERMAL_WARN may be raised -/
  warnArmed : Bool := true
  /-- R694|6 x 32|M|corrections of each SRAM class since SRAM_CORRECTED was last raised -/
  ceRecent : List Nat := List.replicate 6 0
  /-- R708|64|5|SERVE_S -/
  serveS : Nat := 0
  /-- R708|30|M|time in SERVE, in ns, that SERVE_S does not hold yet -/
  serveNs : Nat := 0
  /-- R708|32|5|OUTAGES -/
  outages : Nat := 0
  /-- R708|64|5|OUTAGE_MS -/
  outageMs : Nat := 0
  /-- R708|64|M|time of day at which the outage that runs began -/
  outageFrom : Option Nat := none
  /-- R708|1|S|power was lost in SERVE; the outage runs from the next rising edge of RESET_N -/
  lossPending : Bool := false
  /-- R704|1|M|AUTO_DELAY_MS has passed and the automatic restart waits for LAST_GASP_DONE or SAFE_N -/
  autoDue : Bool := false
  /-- R708|64|M|time of day at which SERVE was reached -/
  serveFrom : Option Nat := none
deriving DecidableEq, Repr

end Sys2Proof.Machine
end

