-- ==== Sys2Proof/Machine/Parts/Air.lean ====
section
/-!
DEFINITION. Parts of the state: wideband PHY, channel state, stations, plans and bounded flows (docstring form as in
Parts.Basic).
-/
namespace Sys2Proof.Machine

/-- A frame held for the air or by a queue. -/
structure Frame where
  tid : Nat := 0
  bytes : List Byte := []
  /-- time of day at which it was enqueued, ns -/
  enq : Nat := 0
  /-- unacknowledged attempts so far (R356) -/
  tries : Nat := 0
  /-- packet number and ciphertext, once protected (R577) -/
  pn : Option Nat := none
  /-- band it is assigned to at the present plan-open (R368): 0 M, 1 H -/
  band : Option Nat := none
  /-- it lies in the DRAM pool (R552) -/
  dram : Bool := false
deriving DecidableEq, Repr

/-- A channel-state block (R309). -/
structure CsiBlock where
  beat : Nat
  source : Nat
  snr : Int
  exp : Int
  h : List Byte
deriving DecidableEq, Repr

/-- Sounding and processing options, and the receiver, of one band (R325 to R327). -/
structure Phy where
  /-- R325|3|S|FLAGS: SOUND_EN, PASSIVE, EXPLICIT_EN -/
  sndFlags : BitVec 3 := 3
  /-- R325|16|S|RESOUND_AGE -/
  resound : Nat := 10
  /-- R325|16|S|CSI_MAX_AGE -/
  maxAge : Nat := 20
  /-- R325|8|S|SOUND_FRAC -/
  frac : Nat := 5
  /-- R325|8|S|MAX_TX_SS -/
  maxTx : Nat := 4
  /-- R325|8|S|NG -/
  ng : Nat := 1
  /-- R325|8|S|CODEBOOK -/
  codebook : Nat := 1
  /-- R325|16|S|EXPLICIT_INTERVAL -/
  explicit : Nat := 10000
  /-- R325|8|S|CSI_MIN_SNR -/
  minSnr : Nat := 6
  /-- R326|1|S|RX_RESTART_EN -/
  restartEn : Bool := false
  /-- R326|16|S|REG -/
  reg : Nat := 16
  /-- R326|8|S|RX_STEP_DB -/
  stepDb : Nat := 10
  /-- R326|8|S|BROAD_GROUP -/
  broad : Nat := 0
  /-- R326|8|S|GI_LTF -/
  gi : Nat := 0
  /-- R326|8|S|TB_GI_LTF -/
  tbGi : Nat := 0
  /-- R326|8|S|PUNCT_MASK -/
  punct : Byte := 0
  /-- R326|8|S|MAX_SETS -/
  maxSets : Nat := 8
  /-- R327|14 x 32|S|band counters in the order of CSI_READ KIND 2 -/
  ctr : List Nat := List.replicate 14 0
  /-- R319|-|S|receiver: 0 IDLE, 1 DETECTED, 2 FROZEN, 3 LOCKED -/
  rx : Nat := 0
  /-- R319|64|M|time of day of step 1 of the reception -/
  rxNs : Nat := 0
  /-- R305|-|M|turn beats of the last 100 in which sounding took air: beat, airtime ns -/
  sounded : List (Nat × Nat) := []
  /-- R313|2 x 8|S|weight sets of the precoder banks by bank: a set is named by its beat and plan index -/
  banks : List (List (Nat × Nat)) := [[], []]
  /-- R313|1|S|the active bank -/
  bank : Nat := 0
deriving DecidableEq, Repr

/-- A received MPDU's MSDUs, as they wait in a reorder buffer. -/
structure RxMsdu where
  /-- Ethernet frames, one for each MSDU -/
  msdus : List (List Byte)
  at_ : Nat
  /-- band on which it came -/
  band : Nat := 0
  tid : Nat := 0
  /-- slot, replay counter and PN, if it was protected -/
  key : Option (Nat × Nat × Nat) := none
deriving DecidableEq, Repr

/-- A received MPDU that waits for the cipher engine (R571). -/
structure RxJob where
  band : Nat
  sta : Nat
  /-- time of day at the end of its PPDU -/
  at_ : Nat
  mpdu : List Byte
deriving DecidableEq, Repr

/-- A receive reorder buffer (R358): next sequence number and held MPDUs. -/
structure Reorder where
  next : Nat := 0
  held : Tab RxMsdu := []
deriving DecidableEq, Repr

/-- Parameters of a station (R372). -/
structure StaParm where
  flags : BitVec 6 := 0
  bss : Nat := 0
  links : BitVec 2 := 0
  aid : Nat := 0
  mld : Nat := 0
  addrM : Nat := 0
  addrH : Nat := 0
  rxSs : Nat := 0
  txSs : Nat := 0
  mcsM : Nat := 0
  mcsH : Nat := 0
  maxAmpdu : Nat := 0
  maxMpdu : Nat := 0
  txBa : Byte := 0
  rxBa : Byte := 0
  baSize : Nat := 0
  ks : Nat := 0
  cipher : Nat := 0
  uapsd : BitVec 4 := 0
  weight : Nat := 16
deriving DecidableEq, Repr

/-- A station's state on one link. -/
structure LinkSt where
  dozing : Bool := false
  unusable : Bool := false
  /-- consecutive PPDUs without response (R367) -/
  fails : Nat := 0
  /-- MCS and streams of its last placement (R368) -/
  mcs : Nat := 0
  ss : Nat := 1
  /-- OLLA in 0.1 dB (R348) -/
  olla : Int := 0
  /-- the link is awake for one MPDU only (PS-Poll), or for a service period (R359) -/
  psPoll : Bool := false
  sp : Bool := false
  /-- last explicit sounding (R307) -/
  explicitAt : Option Nat := none
deriving DecidableEq, Repr

/-- A station entry (R328). -/
structure Sta where
  /-- R372|-|S|fields of STA_ADD -/
  p : StaParm
  /-- R333|4 queues|S|access-class queues, head first -/
  q : List (List Frame) := [[], [], [], []]
  /-- R345|32|S|DEFICIT in units of 1/16 us -/
  deficit : Int := 0
  /-- R374|-|S|link state on M and H -/
  lm : LinkSt := {}
  lh : LinkSt := {}
  /-- R374|8 x 32|S|MPDU_TX, MPDU_ACKED, AC_EXPIRED, AC_RETRY_DROP, AC_QUEUE_DROP, MPDU_RX, UNAUTH_DROP, RX_PROT_MISMATCH -/
  ctr : List Nat := List.replicate 8 0
  /-- R379|8|S|MODE of LINK_STEER -/
  steer : Nat := 0
  /-- R379|4 x 2|S|AC_LINK -/
  acLink : List (BitVec 2) := [3, 3, 3, 3]
  /-- R358|8|S|receive reorder buffers by TID -/
  reorder : Tab Reorder := []
  /-- R349|32|S|bytes of the last buffer status report, by TID -/
  bsr : Tab Nat := []
  /-- R356|-|S|TIDs whose next A-MPDU carries a BlockAckReq -/
  bar : List Nat := []
deriving DecidableEq, Repr

/-- Parameters of one access class (R375). -/
structure AcParm where
  aifsn : Nat
  ecwmin : Nat
  ecwmax : Nat
  retry : Nat := 7
  txop : Nat
  life : Nat
  qlimit : Nat := 1024
deriving DecidableEq, Repr

/-- A turn plan (R376). -/
structure TurnPlan where
  cycle : Nat
  start : Nat
  /-- first beat to which it applies -/
  from_ : Nat
  kinds : List Nat
  /-- R339|1|S|TURN_PLAN_APPLIED has been raised -/
  applied : Bool := false
  /-- R376|1|S|RUN_LATE -/
  runLate : Bool := false
deriving DecidableEq, Repr

/-- An air gate list (R377). -/
structure AirGates where
  cycleBeats : Nat := 1
  start : Nat := 0
  from_ : Nat := 0
  /-- beat in cycle, offset, open mask -/
  entries : List (Nat × Nat × Nat) := []
  /-- R377|1|S|RUN_LATE -/
  runLate : Bool := false
deriving DecidableEq, Repr

/-- A BSS and its beacon template (R378). -/
structure Bss where
  enable : Bool := false
  dtim : Nat := 1
  interval : Nat := 100
  tsfOff : Nat := 0
  timOff : Nat := 0xFFFF
  bssid : Nat := 0
  gtk : Nat := 0
  rate : Nat := 6
  ring : Nat := 32
  template : List Byte := []
  /-- next TBTT to place (R362) -/
  nextTbtt : Nat := 0
  /-- group frames may be sent: the DTIM beacon has gone out (R360) -/
  dtimOpen : Bool := false
deriving DecidableEq, Repr

/-- One user of a planned PPDU. -/
structure PUser where
  sta : Nat
  /-- RU by code and position (R601); 11 stands for the full-width RU of any width in plans -/
  size : Nat := 11
  pos : Nat := 0
  ss : Nat := 1
  mcs : Nat := 0
  frames : List Frame := []
  /-- bounded-flow attempts carried: flow, period, frame index -/
  bf : List (Nat × Nat × Nat) := []
  /-- the response: positions acknowledged among `frames`, then `bf`; none while it is awaited -/
  resp : Option (List Nat) := none
deriving DecidableEq, Repr

/-- One user entry of a GROUPING (R601). -/
structure GUser where
  sta : Nat
  size : Nat := 11
  pos : Nat := 0
  ss : Nat := 1
  mcs : Nat := 0xFF
deriving DecidableEq, Repr

/-- A grouping that the built-in weight kernel has still to compute (R315): its users, and for bounded flows the PPDU that
waits for the set (R395). -/
structure Grouping where
  users : List GUser
  ppdu : Option Nat := none
deriving DecidableEq, Repr

/-- A planned PPDU (R340). -/
structure Ppdu where
  /-- 0 precoded, 1 broad beam, 2 trigger, 3 Multi-STA BlockAck, 4 beacon, 5 management (R369) -/
  kind : Nat
  /-- planned offset P (in a SHARED beat, within its TXOP), duration on air, airtime A with SIFS and response, window end W, ns -/
  p : Nat
  dur : Nat
  a : Nat
  w : Nat
  users : List PUser := []
  /-- highest access class carried, 4 for bounded flows -/
  cls : Nat := 3
  bf : Bool := false
  round : Nat := 0
  sounding : Bool := false
  /-- an explicit sounding (R307) -/
  explicit : Bool := false
  /-- a BSRP trigger (R349) -/
  bsrp : Bool := false
  /-- matched-filter weights -/
  mf : Bool := false
  /-- the retry slot's PPDU (R357) -/
  retry : Bool := false
  bss : Nat := 0
  /-- frame carried by a beacon, management or group PPDU -/
  body : List Byte := []
  /-- TBTT number of a beacon -/
  tbtt : Nat := 0
  /-- data symbols -/
  nsym : Nat := 0
  /-- spacing from the end of the exchange before it -/
  spacing : Nat := 16000
  /-- TXOP in a SHARED beat -/
  txop : Nat := 0
  /-- the channel check has passed, or the TXOP has been gained -/
  ready : Bool := false
  /-- actual offset once begun -/
  start : Option Nat := none
  /-- outcome code once recorded -/
  outcome : Option Nat := none
  sent : Nat := 0
  acked : Nat := 0
deriving DecidableEq, Repr

/-- A plan (R343). -/
structure Plan where
  kind : Nat
  /-- 0 open, 1 sealed, 2 staging, 3 executing, 4 closed -/
  st : Nat := 0
  ppdus : List Ppdu := []
  /-- end of the last placed exchange -/
  cursor : Nat := 0
  /-- weight sets counted against R301 -/
  sets : Nat := 0
  groupings : List Grouping := []
  /-- length of the bounded-flow interval, ns -/
  bfLen : Nat := 0
  /-- candidates listed at plan-open (R346), highest DEFICIT first -/
  cand : List Nat := []
  /-- reserved intervals: start and end, ns -/
  reserved : List (Nat × Nat) := []
  /-- the retry slot, if reserved and not filled: start and length -/
  retry : Option (Nat × Nat) := none
  /-- start of the TXOP being filled, in the air of a SHARED beat taken as one run -/
  txBase : Nat := 0
  /-- air left for the candidates at plan-open, ns -/
  airLeft : Nat := 0
  /-- the planner has completed it at n:(BP/2) -/
  completed : Bool := false
deriving DecidableEq, Repr

/-- Air scheduling of one band. -/
structure AirBand where
  /-- R375|8|S|UL_MAX_PCT -/
  ulPct : Nat := 40
  /-- R375|16|S|TURN_HEAD_NS -/
  head : Nat := 12000
  /-- R375|16|S|TURN_TAIL_NS -/
  tail : Nat := 8000
  /-- R375|8|S|RETRY_SLOT_SYM -/
  retrySym : Nat := 0
  /-- R375|8|S|MIN_DATA_SYM -/
  minSym : Nat := 2
  /-- R375|16|S|QUANTUM_US -/
  quantum : Nat := 500
  /-- R375|16|S|REORDER_MS -/
  reorderMs : Nat := 20
  /-- R375|8|S|OUTCOME_RING, 0xFF none -/
  outRing : Nat := 0xFF
  /-- R375|8|4|OUTCOME_MASK -/
  outMask : Byte := 0
  /-- R375|8|S|MCS_MARGIN -/
  mcsMargin : Nat := 6
  /-- R375|8|S|BSRP_INTERVAL -/
  bsrp : Nat := 8
  /-- R375|4 classes|S|access-class parameters -/
  ac : List AcParm := [⟨7, 4, 10, 7, 0, 1000, 1024⟩, ⟨3, 4, 6, 7, 0, 500, 1024⟩, ⟨1, 3, 4, 7, 3008, 200, 1024⟩,
    ⟨1, 2, 3, 7, 1504, 100, 1024⟩]
  /-- R376|-|S|turn plans, newest first -/
  turns : List TurnPlan := []
  /-- R377|-|S|gate lists, newest first -/
  gates : List AirGates := []
  /-- R377|5 x 16|S|MAX_AIRTIME_US of AC 0 to 3 and BF -/
  maxAir : List Nat := [5484, 5484, 5484, 5484, 5484]
  /-- R378|8 BSSs|S|BSSs that have been set -/
  bss : Tab Bss := []
  /-- R360|1,024 frames|S|group queue: BSS and frame -/
  group : List (Nat × Frame) := []
  /-- R365|256 frames|S|management frames from the host -/
  mgmt : List (Nat × List Byte) := []
  /-- R380|16|S|KERNEL of POLICY_BIND, 0xFFFF none -/
  kernel : Nat := 0xFFFF
  /-- R380|16|S|CAND_MAX -/
  candMax : Nat := 256
  /-- R343|-|S|plans by beat -/
  plans : Tab Plan := []
  /-- R374|13 x 32|S|counters in the order of STA_GET KIND 2 -/
  ctr : List Nat := List.replicate 13 0
  /-- R355|4 x 16|2|EDCA backoff counters -/
  backoff : List Nat := [0, 0, 0, 0]
  /-- R349|32|M|turn beats since the last BSRP Trigger -/
  sinceBsrp : Nat := 0
  /-- R235|-|S|index of the PPDU whose FEM sequence or transmission runs, and the beat of its plan -/
  onAir : Option (Nat × Nat) := none
  /-- R232|48|M|end of the last PPDU sent, ns within its beat -/
  lastEnd : Nat := 0
  /-- R278|1|S|an array reciprocity slot is due at the band's first turn beat (R279) -/
  recipDue : Bool := true
  /-- R412|8|S|PLEDGE_FRAC -/
  frac : Nat := 60
  /-- R412|8|S|BF_CAP_PCT -/
  cap : Nat := 80
  /-- R412|8|S|REVIEW_COUNT -/
  review : Nat := 8
deriving DecidableEq, Repr

/-- A station's pledge on one link (R412). -/
structure Pledge where
  mcs : Nat
  ss : Nat
  margin : Nat := 12
  /-- margin at the last plan-open with a valid block, 0.5 dB (R388) -/
  last : Option Int := none
  /-- consecutive plan-opens at which the pledge failed, and held -/
  failRun : Nat := 0
  holdRun : Nat := 0
deriving DecidableEq, Repr

/-- Parameters of a bounded flow (R408). -/
structure BfParm where
  sta : Nat := 0
  link : Nat := 0
  dir : Nat := 0
  tid : Nat := 0
  flags : Nat := 0
  maxFrame : Nat := 0
  fpp : Nat := 0
  attempts : Nat := 0
  period : Nat := 1
  deadline : Nat := 2
  first : Nat := 0
  /-- FIRST_BEAT as it was given -/
  given : Nat := 0
  pinKind : Nat := 0
  pinPlen : Nat := 0
  pinVlan : Nat := 0
  pinKey : List Byte := []
deriving DecidableEq, Repr

/-- An undecided period of a flow (R381). -/
structure BfPeriod where
  k : Nat
  /-- parameters that govern it (R409) -/
  attempts : Nat
  fpp : Nat
  deadline : Nat
  /-- accepted downlink frames, or expected uplink frames; the flag says delivered -/
  frames : List (Frame × Bool) := []
  notOffered : Nat := 0
  used : Nat := 0
  reason : Nat := 11
  /-- accepted frames that packet memory has lost (R694) -/
  lost : List Nat := []
deriving DecidableEq, Repr

/-- A bounded flow (R399). -/
structure Bf where
  /-- R408|-|S|parameters -/
  p : BfParm
  /-- R409|-|S|parameters that govern from later beats, newest first -/
  next : List (Nat × BfParm) := []
  /-- R399|8|S|STATE -/
  st : Nat := 1
  /-- R411|4|S|CAUSES -/
  causes : BitVec 4 := 0
  /-- R391|48|S|first beat of service -/
  from_ : Nat := 0
  /-- R397|-|S|undecided periods, earliest first -/
  periods : List BfPeriod := []
  /-- R383|32|S|first period not yet opened -/
  nextK : Nat := 0
  /-- R413|20 x 32|S|ACCEPTED, DELIVERED, MISSED, EXCESS, NOT_OFFERED, ATTEMPTS_SENT, then MISSED by reason 1 to 14 -/
  ctr : List Nat := List.replicate 20 0
deriving DecidableEq, Repr

/-- Stations, plans, channel state and bounded flows. -/
structure Air where
  /-- R328|2,048 entries|S|station table -/
  stas : Tab Sta := []
  /-- R343|-|S|band M -/
  m : AirBand := {}
  /-- R343|-|S|band H -/
  h : AirBand := {}
  /-- R326|-|S|PHY of band M -/
  phyM : Phy := {}
  /-- R326|-|S|PHY of band H -/
  phyH : Phy := {}
  /-- R308|-|S|current channel-state blocks; key ((STA x 2 + band) x 4 + stream) x 128 + group -/
  csi : Tab CsiBlock := []
  /-- R308|-|S|blocks written in the present beat -/
  csiNew : Tab CsiBlock := []
  /-- R399|1,024 flows|S|bounded flows -/
  bfs : Tab Bf := []
  /-- R412|4,096|S|pledges by 2 x STA + link -/
  pledges : Tab Pledge := []
  /-- R373|32|S|STA_FLUSHED -/
  flushed : Nat := 0
  /-- R571|-|S|received frames that wait for the cipher engine, oldest first -/
  rxq : List RxJob := []
  /-- R345|48|S|beat of the newest plan-open -/
  beat : Nat := 0
deriving DecidableEq, Repr

end Sys2Proof.Machine
end

