-- ==== Sys2Proof/Machine/Parts/Packet.lean ====
section
/-!
DEFINITION. Parts of the state: parser and classifier, forwarding, traffic manager and cipher engine (docstring form as
in Parts.Basic).
-/
namespace Sys2Proof.Machine

/-- A packet of the packet path with what the parser and classifier found. -/
structure Pkt where
  /-- source port code (R480) -/
  src : Nat
  /-- SRC_ID of the key -/
  srcId : Nat := 0
  bytes : List Byte
  /-- received TID, from the air -/
  tid : Nat := 0
  /-- ingress VID of the band and BSS, from the air -/
  airVid : Nat := 0
  /-- receive timestamp, time of day ns -/
  ts : Nat := 0
  /-- RX_FLAGS of a frame of the air: bit 0 DECRYPTED, bit 1 MIC_OK -/
  flags : Nat := 0
  /-- match bits, once the payload matcher has inspected it, and whether it was skipped -/
  matched : Option (List Nat) := none
  skipped : Bool := false
deriving DecidableEq, Repr

/-- A classifier rule (R497). -/
structure Rule where
  valid : Bool
  action : Nat
  opts : Byte
  up : Nat
  tc : Nat
  dest : Nat
  policer : Nat
  rangeA : Nat
  rangeB : Nat
  pattern : Nat
  value : List Byte
  mask : List Byte
  hits : Nat := 0
deriving DecidableEq, Repr

/-- A range comparator (R499). -/
structure RangeCmp where
  off : Nat
  lo : Nat
  hi : Nat
deriving DecidableEq, Repr

/-- A payload pattern (R500). -/
structure Pattern where
  anchored : Bool
  anchor : Nat
  data : List Byte
  mask : List Byte
deriving DecidableEq, Repr

/-- A policer (R493). -/
structure Policer where
  enable : Bool := false
  remark : Bool := false
  up : Nat := 0
  rate : Nat := 1
  burst : Nat := 1
  tokens : Nat := 0
  acc : Nat := 0
  last : Nat := 0
  conform : Nat := 0
  exceed : Nat := 0
deriving DecidableEq, Repr

/-- Parser, matcher and classifier. -/
structure Cls where
  /-- R496|32|S|HASH_SEED -/
  seed : W32 := 0
  /-- R496|10|S|INSPECT_PORTS -/
  inspect : Nat := 0
  /-- R496|5 x 8|S|EXC_TYPE -/
  excType : List Nat := [0, 0, 0, 0, 0]
  /-- R496|5 x 16|4|EXC_INDEX -/
  excIndex : List Nat := [0, 0, 0, 0, 0]
  /-- R497|4,096 rules|S|rules that have been written -/
  rules : Tab Rule := []
  /-- R499|256|S|range comparators that have been set -/
  ranges : Tab RangeCmp := []
  /-- R500|1,024|S|patterns that have been written -/
  patterns : Tab Pattern := []
  /-- R501|512|S|policers that have been set -/
  policers : Tab Policer := []
  /-- R502|25 x 32|S|LAYOUT_COUNT 0 to 15, exception kinds 0 to 4, NO_RULE, INSPECT_SKIPPED, RULE_BF_MISS, EXC_DROP -/
  ctr : List Nat := List.replicate 25 0
  /-- R480|-|M|packets of the air, of the host and of Foothill that wait for the parser, oldest first -/
  inq : List Pkt := []
  /-- R487|256 KB|S|packets that wait for the matcher, oldest first -/
  buffer : List Pkt := []
  /-- R487|64|M|time of day of the last MATCHER_OVERLOAD -/
  overloadAt : Option Nat := none
  /-- R487|-|M|times of day of the skips of the last second -/
  skips : List Nat := []
deriving DecidableEq, Repr

/-- An L2 entry (R507). -/
structure L2e where
  mac : Nat
  vid : Nat
  static : Bool
  hit : Bool := false
  stale : Bool := false
  type : Nat
  dest : Nat
  /-- PIN was set by the command that added it -/
  pin : Bool := false
  remote : Bool := false
  sync : Bool := false
deriving DecidableEq, Repr

/-- A bucket of a hash table: its slots, and OVF. -/
structure Bucket (α : Type) where
  slots : Tab α := []
  ovf : Bool := false
deriving DecidableEq, Repr

/-- A route (R515). -/
structure Route where
  plen : Nat
  /-- the prefix, as a number of 32 or 128 bits -/
  pre : Nat
  ecmp : Bool
  /-- PIN was set by the command that added it -/
  pin : Bool := false
  sync : Bool := false
  remote : Bool := false
  result : Nat
deriving DecidableEq, Repr

/-- A source-cache entry (R511). -/
structure SrcHit where
  mac : Nat
  vid : Nat
  type : Nat
  dest : Nat
  hit : Bool := true
deriving DecidableEq, Repr

/-- A next hop (R537). -/
structure NextHop where
  type : Nat := 0
  routed : Bool := false
  sync : Bool := false
  remote : Bool := false
  dest : Nat := 0
  vid : Nat := 0
  dmac : Nat := 0
  smac : Nat := 0
  mtu : Nat := 1500
  flood : Nat := 0
  bss : Nat := 0
deriving DecidableEq, Repr

/-- An ECMP group (R538). -/
structure Ecmp where
  members : List Nat
  sync : Bool := false
  remote : Bool := false
deriving DecidableEq, Repr

/-- The forwarding engine. -/
structure Fwd where
  /-- R507|65,536 buckets|S|buckets of the L2 table that are not empty -/
  l2 : Tab (Bucket L2e) := []
  /-- R507|17|S|L2_ENTRIES -/
  l2n : Nat := 0
  /-- R511|32,768 entries|2|source cache, newest first -/
  src : List SrcHit := []
  /-- R515|131,072 buckets|S|IPv4 buckets that are not empty -/
  v4 : Tab (Bucket Route) := []
  /-- R515|32,768 buckets|S|IPv6 buckets that are not empty -/
  v6 : Tab (Bucket Route) := []
  /-- R515|2 routes|S|routes of length 0, IPv4 and IPv6 -/
  zero : List (Option Route) := [none, none]
  /-- R540|2 x 19|S|ROUTES_V4 and ROUTES_V6 -/
  rn : List Nat := [0, 0]
  /-- R516|8,388,608|S|set bits of the prefix-length filter -/
  bloom : List Nat := []
  /-- R516|161|S|populated lengths, with the number of routes of each: IPv4, IPv6 -/
  lens : List (Tab Nat) := [[], []]
  /-- R519|15|S|removals since the last rebuild -/
  removals : Nat := 0
  /-- R519|1|S|a rebuild is under way -/
  rebuild : Bool := false
  /-- R520|16,384|S|next hops that have been set -/
  nh : Tab NextHop := []
  /-- R538|1,024|S|ECMP groups that have been set -/
  ecmp : Tab Ecmp := []
  /-- R539|16|S|PERIOD_S -/
  period : Nat := 300
  /-- R539|16|S|PERIOD_S of the sweep that runs -/
  sweepT : Nat := 300
  /-- R513|1|S|a sweep runs -/
  sweeping : Bool := false
  /-- R539|10|S|LEARN_PORTS -/
  learn : Nat := 0x036F
  /-- R539|1|4|RING_LEARN -/
  ringLearn : Bool := false
  /-- R539|8 x 12|S|PVID -/
  pvid : List Nat := List.replicate 8 0
  /-- R539|16 x 12|S|BSS_VID -/
  bssVid : List Nat := List.replicate 16 0
  /-- R540|20 x 32|S|counters in the order of FWD_STATS, LEARNED first -/
  ctr : List Nat := List.replicate 20 0
  /-- R529|-|M|LEARN_FULL has been raised in the present sweep, and failed placements in it -/
  fullRaised : Bool := false
  fullN : Nat := 0
deriving DecidableEq, Repr

/-- A packet in an egress queue. -/
structure QPkt where
  bytes : List Byte
  cells : Nat
  dram : Bool := false
  /-- COOKIE of the PKT_TX descriptor that asked for a transmit timestamp -/
  ts : Option W64 := none
  /-- ring device, on RING_E and RING_W; 0x0F all -/
  dst : Nat := 0
  /-- hops of a broadcast on this port -/
  hops : Nat := 0
deriving DecidableEq, Repr

/-- An egress queue of PORT 0 to 6 (R541, R545, R559, R560). -/
structure Queue where
  /-- R559|1|S|MODE, strict; the reset value depends on the TC -/
  strict : Bool := false
  /-- R559|8|S|WEIGHT -/
  weight : Nat := 4
  /-- R559|1|S|DRAM_EN -/
  dramEn : Bool := true
  /-- R559|32|S|QLIMIT_CELLS -/
  limit : Nat := 4096
  /-- R559|8|S|ALPHA_LOG2 -/
  alpha : Int := 0
  /-- R560|1|S|ENABLE of the shaper -/
  shaper : Bool := false
  /-- R560|32|4|IDLE_SLOPE -/
  slope : Nat := 0
  /-- R560|32|S|HI_CREDIT -/
  hi : Int := 256
  /-- R560|32|S|LO_CREDIT -/
  lo : Int := -256
  /-- R545|32|S|CREDIT -/
  credit : Int := 0
  /-- R545|32|S|ACC -/
  acc : Nat := 0
  /-- R545|64|M|time of day at which the shaper was last evaluated -/
  last : Nat := 0
  /-- R544|32|S|DEFICIT -/
  deficit : Nat := 0
  /-- R541|-|S|packets, head first -/
  q : List QPkt := []
  /-- R564|5 x 32|S|ENQ_PKTS, DEQ_PKTS, Q_DROP, BUF_DROP, GATE_OVERSIZE -/
  ctr : List Nat := List.replicate 5 0
deriving DecidableEq, Repr

/-- A gate list (R547, R561). -/
structure Gates where
  cycle : Nat := 1
  start : Nat := 0
  /-- first beat to which it applies -/
  from_ : Nat := 0
  maxFrame : List Nat := List.replicate 8 1522
  /-- beat in cycle, offset, open mask -/
  entries : List (Nat × Nat × Nat) := []
  /-- GATE_LIST_APPLIED has been raised -/
  applied : Bool := true
  /-- RUN_LATE (R561) -/
  runLate : Bool := false
deriving DecidableEq, Repr

/-- A wired port of PORT 0 to 6. -/
structure Port where
  /-- R559|1|S|ENABLE (UP0 to UP3 and MGT) -/
  enable : Bool := false
  /-- R559|1|4|RS-FEC -/
  fec : Bool := false
  /-- R559|2|4|MODE -/
  mode : Nat := 0
  /-- R554|1|S|the link is up -/
  link : Bool := false
  /-- R544|64|M|time of day at which the port can begin its next frame -/
  freeAt : Nat := 0
  /-- R541|8 queues|S|egress queues by TC -/
  qs : List Queue := List.replicate 6 ({} : Queue) ++ List.replicate 2 ({ strict := true } : Queue)
  /-- R544|3|M|queue at which the DWRR scan stands, and whether its visit has begun -/
  rr : Nat := 0
  visiting : Bool := false
  /-- R547|-|S|gate list in force -/
  gates : Gates := {}
  /-- R561|-|S|gate list that applies from a later beat -/
  next : Option Gates := none
  /-- R547|8|S|gates open now -/
  open_ : Byte := 0xFF
deriving DecidableEq, Repr

/-- The queue of a host ring (R543). -/
structure HostQ where
  /-- R559|32|S|QLIMIT_CELLS of the ring's queue -/
  limit : Nat := 4096
  /-- R559|1|S|DRAM_EN -/
  dramEn : Bool := true
  /-- R559|8|S|WEIGHT -/
  weight : Nat := 4
  /-- R559|8|S|ALPHA_LOG2 -/
  alpha : Int := 0
  /-- R564|5 x 32|S|counters as for the other queues -/
  ctr : List Nat := List.replicate 5 0
deriving DecidableEq, Repr

/-- The traffic manager. -/
structure Tm where
  /-- R541|7 ports|S|UP0 to UP3, MGT, RING_E, RING_W -/
  ports : List Port := List.replicate 7 {}
  /-- R543|30 queues|S|host-ring queues that differ from their defaults -/
  host : Tab HostQ := []
  /-- R562|32|S|BF_POOL_KB -/
  bfKb : Nat := 4096
  /-- R562|32|S|DRAM_POOL_MB -/
  dramMb : Nat := 0
  /-- R564|32|S|SHARED_LOW_CELLS -/
  low : Nat := 114688
  /-- R564|32|S|VIGIL_DRAIN_DROP -/
  drain : Nat := 0
  /-- R563|1|S|ENABLE of CHAIN_PAIR_SET -/
  chainEn : Bool := false
  /-- R563|16|S|SWITCH_SETTLE_US -/
  settle : Nat := 1000
  /-- R563|16|S|LINK_WAIT_MS -/
  wait : Nat := 500
  /-- R563|16|S|RETRY_S -/
  retry : Nat := 60
  /-- R564|8|S|CHAIN_STATE -/
  chain : Nat := 0
  /-- R554|64|M|time of day at which the insertion began -/
  chainNs : Nat := 0
  /-- R554|-|S|SWITCH_SETTLE_US and LINK_WAIT_MS of the insertion that runs -/
  chainSettle : Nat := 1000
  chainWait : Nat := 500
  /-- R554|1|S|the transmitters of UP2 and UP3 have been enabled in this insertion -/
  chainTx : Bool := false
  /-- R554|1|S|RETRY_S ended outside WARM, SURVEY and SERVE; the retry waits for WARM -/
  chainDue : Bool := false
deriving DecidableEq, Repr

/-- A loaded key slot (R572). Its key is the unwrap of the blob under `kekVal`. -/
structure Slot where
  type : Nat
  usage : Byte
  keyId : Nat
  kek : Nat
  bind : Byte
  /-- KEK under which it was wrapped, as loaded then -/
  kekVal : List Byte := []
  blob : List Byte
  /-- next transmit PN less one: the last PN used, INIT_PN if none -/
  pn : Nat
  initPn : Nat
  fingerprint : W32
  /-- KEY_PN_EXHAUSTED has been raised -/
  exhausted : Bool := false
  /-- nine receive replay counters (R578) -/
  replay : List Nat := List.replicate 9 0
  /-- order of loading (R576) -/
  order : Nat := 0
deriving DecidableEq, Repr

/-- The cipher engine. -/
structure Cipher where
  /-- R572|8,192 slots|S|loaded slots -/
  slots : Tab Slot := []
  /-- R572|-|M|number of slots loaded so far -/
  order : Nat := 0
  /-- R580|256|5|KEK0 as fused, two copies -/
  kek0 : Option (List Byte × List Byte) := none
  /-- R583|1|5|KEK0 lock fuse blown -/
  locked : Bool := false
  /-- R583|32|5|KCV of KEK0 -/
  kcv : List Byte := [0, 0, 0, 0]
  /-- R583|48|5|provisioning beat, in the identity region of MRAM -/
  provBeat : Nat := 0
  /-- R583|1|S|KEK0 FAILED -/
  kek0Failed : Bool := false
  /-- R580|3 x 256|S|KEK1 to KEK3 -/
  keks : Tab (List Byte) := []
  /-- R567|2|S|LEVEL_SET -/
  level : Nat := 2
  /-- R569|1|S|an entropy health test has failed -/
  rngFail : Bool := false
  /-- R570|1|S|the engine is FAILED -/
  failed : Bool := false
  /-- R590|8 x 32|S|KEY_EMPTY, KEY_MISMATCH, USAGE_DENIED, RX_MIC_FAIL, RX_REPLAY, PN_EXHAUSTED, UNWRAP_OK, UNWRAP_AUTH_FAIL -/
  ctr : List Nat := List.replicate 8 0
deriving DecidableEq, Repr

end Sys2Proof.Machine
end

