-- ==== Sys2Proof/Machine/Parts/Massif.lean ====
section
/-!
DEFINITION. Parts of the state: Col, Massif, and the Crag cores of Massif and Summit (docstring form as in Parts.Basic).
-/
namespace Sys2Proof.Machine

/-- What a dispatch serves (R592, R600). -/
inductive DispKind where
  | planOpen (band : Nat)
  | chainSet (band : Nat)
  | outcome (band : Nat)
  | packet
  | other
deriving DecidableEq, Repr

/-- A packet given to a packet task (R595, R600). -/
structure ColPkt where
  pkt : Pkt
  hash : W32 := 0
  rule : Nat := 0xFFFF
  exc : Nat := 0
  up : Nat := 0
  tc : Nat := 0
  /-- instant at which it made its task ready, ns -/
  at_ : Nat := 0
deriving DecidableEq, Repr

/-- A dispatch on a core. -/
structure Disp where
  task : Nat
  kernel : Nat
  kind : DispKind := .other
  flags : W64 := 0
  startNs : Nat := 0
  /-- beat in which it started -/
  beat : Nat := 0
  pkt : Option ColPkt := none
  /-- its reorder entry, when the task is ordered -/
  rob : Option Nat := none
  /-- it has executed its last RET (R628) and waits for its records to be posted -/
  returned : Bool := false
deriving DecidableEq, Repr

/-- A reorder entry (R596): task, group, and once its dispatch has ended its disposition: drop, forward or host ring. -/
structure Rob where
  task : Nat
  group : Nat
  pkt : ColPkt
  core : Nat
  /-- flags that its dispatch consumed, and its task's priority -/
  flags : Nat := 0
  prio : Nat := 0
  done : Option (Nat × Nat × List Byte) := none
deriving DecidableEq, Repr

/-- One Crag core (R614). Core 32 stands for the Summit pair. -/
structure Core where
  /-- R614|32 x 32|S|d0 to d31 -/
  d : List W32 := List.replicate 32 0
  /-- R614|8 x 72|S|acc0 to acc7 -/
  acc : List (BitVec 72) := List.replicate 8 0
  /-- R614|16 x 32|S|p0 to p15 (sp) -/
  p : List W32 := List.replicate 16 0
  /-- R614|32|S|lk -/
  lk : W32 := 0xFFFFFFF0
  /-- R616|32|S|st -/
  st : W32 := 0x20
  /-- R614|3 x 32|4|ls0 to ls2 -/
  ls : List W32 := [0, 0, 0]
  /-- R614|3 x 32|4|le0 to le2 -/
  le : List W32 := [0, 0, 0]
  /-- R614|3 x 32|4|lc0 to lc2 -/
  lc : List W32 := [0, 0, 0]
  /-- R615|32|4|PC -/
  pc : W32 := 0x80000000
  /-- R597|112 KB|S|local window, sparse, unlisted bytes 0 (on Summit: its memory, unlisted bytes free) -/
  mem : List (Nat × Byte) := []
  /-- R593|-|S|the dispatch that runs -/
  run : Option Disp := none
  /-- R630|65,536 x 32|4|control registers (Summit), sparse -/
  csr : Tab W32 := []
  /-- R630|32|4|PC saved by a Summit exception -/
  epc : W32 := 0
  /-- R630|1|4|PRIV saved by a Summit exception -/
  epriv : Bool := true
  /-- R613|32|S|busy time, ns -/
  busyNs : Nat := 0
  /-- R605|4 x 16|S|in the present beat: busy ns, dispatches, overruns, faults -/
  gauge : List Nat := [0, 0, 0, 0]
deriving DecidableEq, Repr

/-- A kernel image (R606, R610). -/
structure Kernel where
  code : List Byte
  localNeed : Nat
  sharedNeed : Nat
  entry : Nat
  crc : W32
  started : Bool := false
  retain : Bool := false
  limit : Nat := 16
  sharedKb : Nat := 0
  /-- shared window, sparse, unlisted bytes 0 -/
  shared : List (Nat × Byte) := []
  /-- consecutive failing dispatches -/
  fails : Nat := 0
  /-- beat of the last KERNEL_OVERRUN -/
  overrunBeat : Option Nat := none
deriving DecidableEq, Repr

/-- A Col task (R591, R611). -/
structure Task where
  kernel : Nat
  all : Bool := false
  ordered : Bool := false
  prio : Nat := 0
  orderBits : Nat := 0
  parallel : Nat := 1
  coreMask : W32 := 0xFFFFFFFF
  waitMask : W64 := 0
  budget : Nat := 100
  qdepth : Nat := 256
  /-- source, bit, parameter -/
  binds : List (Nat × Nat × Nat) := []
  flags : W64 := 0
  /-- instant at which it became ready, ns -/
  readyNs : Nat := 0
  queue : List ColPkt := []
deriving DecidableEq, Repr

/-- Col, the kernels and the shared SRAM. -/
structure Col where
  /-- R591|1,024 tasks|S|tasks 16 to 1,023 that are configured -/
  tasks : Tab Task := []
  /-- R606|64 kernels|S|kernels held in DRAM -/
  kernels : Tab Kernel := []
  /-- R614|33 cores|S|cores 0 to 31 of Massif, and Summit as 32 -/
  cores : List Core := List.replicate 32 ({} : Core) ++ [{ st := 0x80000020 }]
  /-- R597|2 MB|S|views window: the bytes that the spec states, the others open -/
  views : List (Nat × Byte) := []
  /-- R600|2 x 16|S|outcome records last completed in the views window, by band -/
  outs : List Nat := [0, 0]
  /-- R596|4,096 entries|S|reorder buffer, oldest first -/
  rob : Tab Rob := []
  /-- R596|-|M|next reorder key -/
  robNext : Nat := 0
  /-- R612|2|S|MODE of COL_OBSERVE_SET -/
  observe : Nat := 0
  /-- R612|1|4|WRAP -/
  wrap : Bool := false
  /-- R604|65,536 records|S|trace buffer -/
  trace : Tab (List Byte) := []
  /-- R605|16|S|WR_IDX -/
  wr : Nat := 0
  /-- R605|1|S|FULL -/
  full : Bool := false
  /-- R605|1|S|FREEZE -/
  freeze : Bool := false
  /-- R605|8|S|PAGE -/
  page : Nat := 0
  /-- R605|32|S|TRACE_LOST -/
  lost : W32 := 0
  /-- R604|8|S|record count -/
  seq : Nat := 0
  /-- R605|4 KB|S|GAUGE snapshot, sparse, unlisted bytes 0 -/
  snap : List (Nat × Byte) := []
  /-- R605|8 x 16|S|waits of the present beat by priority and bin -/
  hist : List Nat := List.replicate 128 0
  /-- R613|7 x 32|S|DISPATCHES, OVERRUNS, KERNEL_FAULTS, COL_QUEUE_DROP, COL_ROB_FULL, GROUP_REJECT, TRACE_LOST -/
  ctr : List Nat := List.replicate 7 0
deriving DecidableEq, Repr

end Sys2Proof.Machine
end

