-- ==== Sys2Proof/Machine/Parts/Nb.lean ====
section
/-!
DEFINITION. Parts of the state: the narrowband transceivers, the dwell ledger and the Mladmer MAC (docstring form as in
Parts.Basic).
-/
namespace Sys2Proof.Machine

/-- What a narrowband request carries (R460), in the order in which requests are chosen. -/
inductive NbKind where
  | ack | held | relay | data | beacon | tuner
deriving DecidableEq, Repr

/-- A Mladmer frame to be built (R450). -/
structure NbFrame where
  /-- node it is for, 0xFFFF for broadcast -/
  node : Nat
  type : Nat
  ackReq : Bool := false
  flood : Bool := false
  secured : Bool := false
  mic8 : Bool := false
  ttl : Nat := 1
  dst : W32
  seq : W16
  data : List Byte := []
  /-- its FRAME_COUNTER, once taken -/
  counter : Option Nat := none
deriving DecidableEq, Repr

/-- A request that waits for a transceiver, or that it handles (R424, R460). -/
structure NbReq where
  kind : NbKind
  /-- job or held frame it serves, 0 for none -/
  key : Nat := 0
  /-- the frame it carries; a relay carries bytes -/
  frame : Option NbFrame := none
  psdu : List Byte := []
  /-- start window, time of day ns -/
  earliest : Nat
  latest : Nat
  cca : Bool := true
  /-- channel and probes of a tuner burst -/
  chan : Option Nat := none
  probes : List (Nat × Nat) := []
deriving DecidableEq, Repr

/-- A channel check or a transmission in progress (R425, R433). -/
structure NbTx where
  req : NbReq
  /-- start of the check or of the ramp, time of day ns -/
  at_ : Nat
  /-- PA-on time D, ns -/
  d : Nat
  /-- the channel check runs and the ramp has not begun -/
  sensing : Bool := false
  /-- the receiver has been in PREAMBLE or PAYLOAD during the check -/
  busy : Bool := false
deriving DecidableEq, Repr

/-- Tuning of channels (R436). -/
structure Tune where
  chan : Nat
  last : Nat
  fromCurrent : Bool
  /-- best pair so far and its RL -/
  best : Option ((Nat × Nat) × Nat) := none
  moves : Nat := 0
  startNs : Nat := 0
  /-- RL of the probes of the burst that runs, oldest first -/
  results : List Nat := []
  /-- instant at which the burst is tried again -/
  retryAt : Option Nat := none
  tuned : Nat := 0
  poor : Nat := 0
  blocked : Nat := 0
  worst : Nat := 0xFF
  worstCh : Nat := 0
  /-- it serves a TUNER_RUN -/
  cmd : Bool := true
  /-- every channel has been handled -/
  ended : Bool := false
deriving DecidableEq, Repr

/-- One narrowband transceiver (R414, R445, R449). -/
structure Xcvr where
  /-- R445|1|S|ENABLE -/
  enable : Bool := false
  /-- R445|1|S|CAPTURE_EN -/
  capture : Bool := false
  /-- R445|1|S|AUTO_TUNE -/
  autoTune : Bool := true
  /-- R445|1|S|WHITEN -/
  whiten : Bool := true
  /-- R445|8|S|MOD -/
  mod : Nat := 1
  /-- R445|8|S|PREAMBLE_LEN -/
  pre : Nat := 8
  /-- R445|16|S|SYMBOL_KBAUD -/
  kbaud : Nat := 50
  /-- R445|8|S|FCS_TYPE -/
  fcs : Nat := 0
  /-- R445|8|S|TXPWR in 0.5 dBm -/
  txpwr : Int := 0
  /-- R445|8|S|RAMP_US -/
  ramp : Nat := 20
  /-- R445|16|S|SFD -/
  sfd : W16 := 0x904E
  /-- R445|8|S|CCA_DBM -/
  ccaDbm : Int := -85
  /-- R445|8|S|RESTART_DB -/
  restartDb : Nat := 10
  /-- R445|8|S|CAPTURE_DB -/
  captureDb : Nat := 8
  /-- R445|8|S|RL_PROTECT -/
  rlProtect : Nat := 14
  /-- R445|8|S|RL_GOOD -/
  rlGood : Nat := 40
  /-- R445|16|S|CCA_US -/
  ccaUs : Nat := 160
  /-- R446|1|4|HOPPING -/
  hopping : Bool := false
  /-- R446|8|4|FIXED_CH -/
  fixedCh : Nat := 0
  /-- R446|8|4|VIGIL_CH -/
  vigilCh : Nat := 0
  /-- R446|16|4|HOP_BEATS -/
  hopBeats : Nat := 1
  /-- R446|16|4|HOP_OFFSET -/
  hopOffset : Nat := 0
  /-- R446|64 x 8|4|HOP_SEQ -/
  hopSeq : List Nat := [0]
  /-- R437|64 x 2 x 5|S|code pairs of the channels tuned or loaded -/
  codes : Tab (Nat × Nat) := []
  /-- R449|8|S|STATE: 0 disabled, 1 SEARCH, 2 PREAMBLE, 3 PAYLOAD, 4 transmitting, 5 retuning, 6 FAILED -/
  st : Nat := 0
  /-- R449|8|4|CHANNEL -/
  ch : Nat := 0
  /-- R449|8|S|LAST_RL, 0xFF none -/
  lastRl : Nat := 0xFF
  /-- R449|1|S|MISMATCH -/
  mismatch : Bool := false
  /-- R442|1|M|detector held until release + BLANK_TAIL_NS -/
  held : Bool := false
  /-- R434|8|M|consecutive samples below RL_PROTECT in this transmission, and the fold-back made -/
  lowRun : Nat := 0
  folded : Bool := false
  /-- R434|-|M|samples of this transmission: sum and count -/
  rlSum : Nat := 0
  rlN : Nat := 0
  /-- R426|16|S|closed-loop correction in 0.01 dB, held within 300 -/
  corr : Int := 0
  /-- R423|1|S|the synthesizer has been restarted once -/
  tried : Bool := false
  /-- R429|8|M|P_ref, or RSSI once latched, of the reception in progress, 0.5 dBm -/
  level : Int := 0
  /-- R431|1|M|CAPTURE_LOST has been counted for the frame -/
  capLost : Bool := false
  /-- R421|1|M|excluded from the present hop slot -/
  collide : Bool := false
  /-- R420|1|M|to move to the channel it is assigned at its first idle moment (R422) -/
  moveDue : Bool := false
  /-- R420|48|M|hop slot in force -/
  slot : Option Nat := none
  /-- R460|-|S|requests that wait in the MAC -/
  reqs : List NbReq := []
  /-- R424|-|S|the request handed over, while it waits -/
  handed : Option NbReq := none
  /-- R424|-|S|the channel check or transmission in progress -/
  tx : Option NbTx := none
  /-- R461|-|S|job or held frame whose ACK is awaited -/
  hold : Option Nat := none
  /-- R436|-|S|tuning in progress -/
  tune : Option Tune := none
  /-- R449|21 x 32|S|counters in the order of NB_STATS -/
  ctr : List Nat := List.replicate 21 0
deriving DecidableEq, Repr

/-- A sub-band of the duty ledger (R447). -/
structure SubBand where
  low : Nat
  high : Nat
  duty : Nat
  /-- a transmission in the sub-band has begun since NB_DUTY_LIMIT was last raised -/
  armed : Bool := false
deriving DecidableEq, Repr

/-- Radio L and the ledger. -/
structure Nb where
  /-- R414|4 transceivers|S|L0 to L3 -/
  x : List Xcvr := [{}, {}, {}, {}]
  /-- R419|8|4|COUNT of the channel plan -/
  count : Nat := 0
  /-- R419|32|4|BASE_KHZ -/
  base : Nat := 0
  /-- R419|32|4|SPACING_HZ -/
  spacing : Nat := 0
  /-- R447|1|S|DWELL_EN -/
  dwellEn : Bool := true
  /-- R447|1|S|DUTY_EN -/
  dutyEn : Bool := false
  /-- R447|16|S|MAX_TX_MS -/
  maxTx : Nat := 400
  /-- R447|16|S|WINDOW_S -/
  window : Nat := 20
  /-- R447|32|S|MAX_CUM_MS -/
  maxCum : Nat := 400
  /-- R447|8 sub-bands|4|sub-bands -/
  subs : List SubBand := []
  /-- R438|-|S|dwell charges by channel: dwell bucket and PA-on ns -/
  dwell : Tab (Tab Nat) := []
  /-- R438|-|S|duty charges by sub-band: duty bucket and PA-on ns -/
  duty : Tab (Tab Nat) := []
deriving DecidableEq, Repr

/-- A Mladmer node (R474, R476). -/
structure Node where
  /-- R474|4|S|FLAGS: SLEEPY, WAKE, REPORT, REQUIRE_SECURED -/
  flags : BitVec 4
  /-- R474|8|S|XCVR -/
  xcvr : Nat
  /-- R474|32|S|ADDR -/
  addr : W32
  /-- R474|16|S|KS -/
  ks : Nat
  /-- R474|8|S|DELIVER -/
  deliver : Nat
  /-- R474|8|S|RING -/
  ring : Nat
  /-- R474|8|S|HOLD_S -/
  holdS : Nat
  /-- R474|8|S|HELD_MAX -/
  heldMax : Nat
  /-- R458|32|S|next outgoing FRAME_COUNTER -/
  txCtr : Nat
  /-- R455|32|S|RX_CTR -/
  rxCtr : Nat
  /-- R455|16|4|LAST_RX_SEQ -/
  lastSeq : W16 := 0
  /-- R476|64|S|LAST_HEARD_NS, 0 none -/
  heard : Nat := 0
  /-- R455|64|M|instant of the last accepted frame -/
  lastAt : Option Nat := none
  /-- R476|8|4|LAST_RSSI -/
  rssi : Int := 0
  /-- R476|8|4|LAST_XCVR -/
  lastX : Nat := 0
  /-- R476|8|4|LAST_CHANNEL -/
  lastCh : Nat := 0
  /-- R461|16|4|TX_SEQ, the next SEQ -/
  txSeq : W16 := 0
  /-- R476|8 x 32|S|RX_FRAMES, TX_FRAMES, TX_FAILED, MIC_FAIL, REPLAY_DROP, DUP, HELD_EXPIRED, HELD_DROPPED -/
  ctr : List Nat := List.replicate 8 0
  /-- R464|-|S|poll service in progress: consecutive failures and prev_end -/
  service : Option (Nat × Nat) := none
  /-- R464|1|S|MORE of the HELD frame handed over last -/
  told : Bool := false
  /-- R464|-|M|end of a POLL whose service starts when its ACK has ended -/
  pollEnd : Option Nat := none
deriving DecidableEq, Repr

/-- A held frame (R462). -/
structure HeldFrame where
  key : Nat
  frame : NbFrame
  cookie : W64 := 0
  /-- time of day of entry, ns -/
  at_ : Nat
  attempts : Nat := 0
  last : Nat := 0
  /-- end of its last transmission, and end of the wait for its ACK -/
  endNs : Nat := 0
  wake : Option Nat := none
  /-- it lies in the DRAM store -/
  dram : Bool := false
deriving DecidableEq, Repr

/-- Where a direct frame stands (R461). -/
inductive JobSt where
  | queued | waitAck | backoff | waitFloor
deriving DecidableEq, Repr

/-- A DATA frame that the MAC sends directly (R461, R465). -/
structure Job where
  frame : NbFrame
  xcvr : Nat
  k : Nat := 1
  /-- lifetime end, time of day ns -/
  until_ : Nat
  cookie : W64 := 0
  last : Nat := 0
  st : JobSt := .queued
  /-- end of the wait for its ACK, or of its backoff -/
  wake : Nat := 0
deriving DecidableEq, Repr

/-- A seen-cache entry (R466). -/
structure Seen where
  src : W32
  seq : W16
  at_ : Nat
  /-- frame ends of its later copies -/
  ends : List Nat := []
deriving DecidableEq, Repr

/-- A relay that waits for its t0 (R467). -/
structure Relay where
  xcvr : Nat
  src : W32
  seq : W16
  frame : List Byte
  t0 : Nat
deriving DecidableEq, Repr

/-- The Mladmer MAC. -/
structure Mlad where
  /-- R474|8,192 nodes|S|node table -/
  nodes : Tab Node := []
  /-- R462|32,768 frames|S|held-frame store, oldest first -/
  store : List HeldFrame := []
  /-- R466|16,384 entries|S|seen-cache, oldest first -/
  seen : List Seen := []
  /-- R467|-|S|relays waiting for their jitter -/
  relays : List Relay := []
  /-- R461|-|S|frames being sent, by key -/
  jobs : Tab Job := []
  /-- R461|-|M|next key -/
  nextKey : Nat := 1
  /-- R478|32|S|GW_ADDR -/
  gw : W32 := 0
  /-- R478|16|4|NET_ID -/
  netId : W16 := 0
  /-- R478|1|S|RELAY -/
  relay : Bool := true
  /-- R478|1|4|UNKNOWN_TO_HOST -/
  unkHost : Bool := false
  /-- R478|1|4|UDP_IPV6 -/
  udp6 : Bool := false
  /-- R478|1|4|BEACON_EN -/
  beaconEn : Bool := false
  /-- R478|8|S|SUPPRESS -/
  suppress : Nat := 3
  /-- R478|8|S|JITTER_MS -/
  jitter : Nat := 20
  /-- R478|8|S|SEEN_LIFETIME_S -/
  seenS : Nat := 32
  /-- R478|8|S|BEACON_INTERVAL_S -/
  beaconS : Nat := 10
  /-- R478|8|4|HOST_RING -/
  hostRing : Nat := 0
  /-- R478|16|4|GROUP_KS -/
  groupKs : Nat := 0xFFFF
  /-- R478|16|S|UDP_PORT -/
  port : Nat := 41720
  /-- R478|16 bytes|4|UDP_SRC_IP -/
  srcIp : List Byte := List.replicate 16 0
  /-- R478|16 bytes|4|UDP_DST_IP -/
  dstIp : List Byte := List.replicate 16 0
  /-- R461|16|4|broadcast TX_SEQ -/
  bcastSeq : W16 := 0
  /-- R458|32|S|outgoing FRAME_COUNTER of GROUP_KS -/
  groupCtr : Nat := 0
  /-- R459|64|S|CTR_FLOOR as read at this boot -/
  floor : Nat := 0
  /-- R459|64|S|CTR_FLOOR as stored -/
  stored : Nat := 0
  /-- R459|1|S|a CTR_FLOOR write is in progress -/
  floorWriting : Bool := false
  /-- R463|1|S|on-chip frames are moving to the DRAM store -/
  moving : Bool := false
  /-- R479|28 x 32|S|counters in the order of HELD_STATUS KIND 1 -/
  ctr : List Nat := List.replicate 28 0
deriving DecidableEq, Repr

end Sys2Proof.Machine
end

