-- ==== Sys2Proof/Machine/Parts/Radio.lean ====
section
/-!
DEFINITION. Parts of the state: the wideband front end (synthesizers, chains, FEM control, RFFE, coexistence) and
calibration (docstring form as in Parts.Basic).
-/
namespace Sys2Proof.Machine

/-- One wideband chain (R257). -/
structure Chain where
  /-- R251|1|S|enabled by CHAIN_ENABLE -/
  enabled : Bool := true
  /-- R257|8|S|cause of exclusion, 0 not excluded -/
  cause : Nat := 0
  /-- R245|1|S|enabled again and waiting for a good measurement at -24.00 dBm -/
  proving : Bool := false
  /-- R257|8|6|serving slice -/
  slice : Nat := 0
  /-- R257|8|S|last return loss in 0.25 dB, 0xFF none -/
  rl : Nat := 0xFF
  /-- R257|16|S|ceiling TXPWR in 0.25 dBm -/
  txpwr : Int := -40
  /-- R257|8|S|chip-port drive in 0.25 dBm -/
  drive : Int := -40
  /-- R233|1|S|a TXPWR_SET has set the ceiling -/
  powerSet : Bool := false
  /-- R244|1|S|a first measurement below 6.0 dB waits for its repeat -/
  suspect : Bool := false
  /-- R253|4|4|USID of the chain's FEM -/
  usid : Nat := 0
deriving DecidableEq, Repr

/-- A channel (R250). -/
structure Channel where
  width : Nat := 0
  center : Nat := 0
  primary : Nat := 0
  enable : Bool := false
deriving DecidableEq, Repr

/-- An RFFE transaction (R241). -/
structure Rffe where
  usid : Nat
  op : Nat
  addr : Nat
  data : List Byte := []
  count : Nat := 1
  /-- the RFFE_ACCESS that asked for it, if a command did -/
  by_ : Option Cmd := none
  /-- the read has been retried once -/
  retried : Bool := false
deriving DecidableEq, Repr

/-- One wideband band's front end. -/
structure Band where
  /-- R257|-|4|the channel in use -/
  ch : Channel := {}
  /-- R257|1|4|MAIN: 0 SA, 1 SB -/
  main : Nat := 0
  /-- R257|8|S|SA_STATE -/
  sa : Nat := 0
  /-- R257|8|S|SB_STATE -/
  sb : Nat := 0
  /-- R229|1|S|SA has been restarted once -/
  saTried : Bool := false
  /-- R229|1|S|SB has been restarted once -/
  sbTried : Bool := false
  /-- R226|1|S|the standby is phase-tracked to the main -/
  tracked : Bool := false
  /-- R228|1|S|the LO is ready -/
  loReady : Bool := false
  /-- R228|64|S|LO ready instant, time of day ns -/
  loReadyNs : Nat := 0
  /-- R230|-|S|channel a pending BAND_CONFIG retunes to -/
  retune : Option Channel := none
  /-- R230|-|S|channel that becomes the band's at a beat start in SERVE, and that beat -/
  switchAt : Option (Nat × Channel) := none
  /-- R230|48|M|beat whose PPDU instants keep to offsets of 12,000 ns and more -/
  guardBeat : Option Nat := none
  /-- R229|1|S|BAND_DOWN -/
  down : Bool := false
  /-- R251|96 chains|S|chains 0 to 95 -/
  chains : List Chain := (List.range 96).map fun i => { slice := i % 8 }
  /-- R253|8|S|SCLK_CODE -/
  sclk : Nat := 0
  /-- R253|16|S|T_LNA_OFF -/
  tLnaOff : Nat := 50
  /-- R253|16|S|T_TRSW_SETTLE -/
  tTrsw : Nat := 200
  /-- R253|16|S|T_PA_SETTLE -/
  tPa : Nat := 500
  /-- R253|16|S|T_PA_HOLD -/
  tHold : Nat := 100
  /-- R253|16|S|T_PA_OFF -/
  tPaOff : Nat := 200
  /-- R253|16|S|T_RX_SETTLE -/
  tRx : Nat := 100
  /-- R253|16|S|FEM_TX_GAIN in 0.25 dB -/
  femGain : Int := 0
  /-- R253|16|S|CPL_LOSS in 0.25 dB -/
  cplLoss : Nat := 120
  /-- R253|16|S|CPL_REG, 0xFFFF none -/
  cplReg : Nat := 0xFFFF
  /-- R253|8|4|CPL_FWD -/
  cplFwd : Nat := 0
  /-- R253|8|4|CPL_REV -/
  cplRev : Nat := 0
  /-- R253|16|S|STBY_REG, 0xFFFF none -/
  stbyReg : Nat := 0xFFFF
  /-- R253|8|4|STBY_VAL -/
  stbyVal : Nat := 0
  /-- R253|8|4|ACTIVE_VAL -/
  actVal : Nat := 0
  /-- R253|16|S|MISMATCH_INTERVAL -/
  mmInterval : Nat := 50
  /-- R243|8|M|group whose coupler is turned to reverse, if any -/
  mmGroup : Option Nat := none
  /-- R243|8|M|group that the next measurement visits -/
  mmNext : Nat := 0
  /-- R249|6 x 32|S|LATE_LO, LO_ABORTED, BLANKED, BLANK_ABORTED, COEX_DENIED, COEX_ABORTED -/
  outc : List W32 := [0, 0, 0, 0, 0, 0]
  /-- R239|3 buses|S|RFFE transactions waiting, oldest first; the head is on the bus -/
  rffe : List (List Rffe) := [[], [], []]
deriving DecidableEq, Repr

/-- The two bands and coexistence. -/
structure Fe where
  /-- R250|-|S|band M -/
  m : Band := {}
  /-- R250|-|S|band H -/
  h : Band := {}
  /-- R255|8|S|MODE of COEX_CONFIG -/
  coexMode : Nat := 0
  /-- R255|2|4|BAND_MASK -/
  coexMask : Nat := 0
  /-- R255|16|S|REQ_LEAD_US -/
  reqLead : Nat := 10
  /-- R246|1|M|another request has risen while the lines were high -/
  coexNext : Bool := false
  /-- R255|8|S|PRI_POLICY -/
  priPolicy : Nat := 1
  /-- R255|1|4|FLAGS bit 0, include the response window -/
  coexResp : Bool := false
  /-- R256|4 x 6|4|MAP0 to MAP3 -/
  blankMap : List (BitVec 6) := [0, 0, 0, 0]
  /-- R256|16|S|BLANK_TAIL_NS -/
  blankTail : Nat := 500
  /-- R248|4|2|BLANK_IN levels as recognised -/
  blankIn : BitVec 4 := 0
  /-- R258|-|S|FACTORY_TEST that runs: test, band, chain -/
  test : Option (Nat × Nat × Nat) := none
  /-- R259|-|S|SPECTRUM_SURVEY that runs: band, chain, start of the present span, stop, dwell, ring -/
  survey : Option (Nat × Nat × Nat × Nat × Nat × Nat) := none
deriving DecidableEq, Repr

/-- Calibration state of one chain (R265, R290): index 0 to 95 M, 96 to 191 H, 192 to 195 L0 to L3. -/
structure ChainCal where
  /-- R265|32|S|CAL_COUNT -/
  count : Nat := 0
  /-- R265|64|S|LAST_CAL_NS -/
  lastNs : Nat := 0
  /-- R264|8|S|RESULT of the last set -/
  result : Nat := 0
  /-- R290|8|S|TYPE of the last set -/
  type : Nat := 0
  /-- R265|32|S|DISAGREE -/
  disagree : Nat := 0
  /-- R290|1|S|NEAR -/
  near : Bool := false
  /-- R290|1|S|clamped -/
  clamped : Bool := false
  /-- R279|3|S|chain-level types still to be accepted on the new centre; PROVISIONAL while any is listed -/
  provisional : List Nat := []
  /-- R282|8 x 8|S|consecutive OUT_OF_TRIM results by type -/
  outRun : Tab Nat := []
  /-- R267|8 types|S|live values by type, with the temperature at which each was accepted, in 0.25 C -/
  live : Tab (List Int × Int) := []
  /-- R268|8 types|S|value in force by type, as last applied -/
  force : Tab (List Int) := []
  /-- R280|16|S|DIG_GAIN, 0.0625 dB -/
  digGain : Int := 0
  /-- R287|16|S|centre on which the chain-level values were measured -/
  center : Nat := 0
  /-- R260|-|S|types due -/
  due : List Nat := []
deriving DecidableEq, Repr

/-- One converter slice (R294). -/
structure Slice where
  /-- R294|8|6|ROLE: 0 serving, 1 spare, 2 matching, 3 retired -/
  role : Nat := 0
  /-- R294|8|6|POSITION -/
  pos : Nat := 0xFF
  /-- R294|8|S|RESULT -/
  result : Nat := 0
  /-- R294|32|S|TIMES_SPARE -/
  spares : Nat := 0
  /-- R272|8|S|consecutive visits with DISAGREE_KEPT -/
  disRun : Nat := 0
  /-- R272|8|M|visit of the group at which a set last gave DISAGREE_KEPT -/
  disAt : Option Nat := none
  /-- R276|2|S|cause with which it failed validation and has not been replaced, 0 none: 1 out of trim, 2 disagreement, 3 matching -/
  failed : Nat := 0
  /-- R277|-|M|slice-level types accepted in the retest that runs -/
  retest : List Nat := []
  /-- R267|8 types|S|live values by type and the temperature of acceptance -/
  live : Tab (List Int × Int) := []
deriving DecidableEq, Repr

/-- One wideband group's calibration (R271, R273). -/
structure GroupCal where
  /-- R294|9 slices|6|S0 to S8 -/
  slices : List Slice := ((List.range 8).map fun i => { pos := i }) ++ [{ role := 1 }]
  /-- R273|32|S|SWAP_COUNT of the group -/
  swaps : Nat := 0
  /-- R271|-|M|gaps in which the group has been visited -/
  visits : Nat := 0
  /-- R274|8|S|consecutive visits at which the swap was skipped -/
  skipRun : Nat := 0
  /-- R275|1|S|the group has no spare -/
  suspended : Bool := false
  /-- R275|-|S|a permanent replacement is pending: the failed slice and its chain position -/
  replace : Option (Nat × Nat × Nat) := none
  /-- R266|16|2|group temperature in 0.25 C -/
  temp : Int := 0
  /-- R268|1|S|an excursion beyond the points has raised CAL_TEMP_CLAMP -/
  clampRaised : Bool := false
deriving DecidableEq, Repr

/-- A calibration run (R289). -/
structure CalRun where
  types : Nat
  band : Nat
  flags : Nat
  chains : List Nat
  /-- chain and type of the sets accepted -/
  accepted : List (Nat × Nat) := []
  disagrees : Nat := 0
  outOfTrim : Nat := 0
deriving DecidableEq, Repr

/-- Calibration. -/
structure Cal where
  /-- R265|196 chains|S|calibration state of the chains that differ from reset -/
  chains : Tab ChainCal := []
  /-- R271|24 groups|S|calibration state of the groups that differ from reset, MG00 to MG11, HG00 to HG11 -/
  groups : Tab GroupCal := []
  /-- R290|2 x 32|S|SWAP_COUNT by band -/
  swapCount : List Nat := [0, 0]
  /-- R290|2 x 32|S|SWAP_SKIPPED by band -/
  swapSkipped : List Nat := [0, 0]
  /-- R290|3 x 32|S|POWER_SHORT by band -/
  powerShort : List Nat := [0, 0, 0]
  /-- R271|2 x 4|S|group that the next gap of each band visits -/
  nextGroup : List Nat := [0, 0]
  /-- R278|2 x 48|S|beat of the last array reciprocity slot of each band -/
  lastRecip : List (Option Nat) := [none, none]
  /-- R291|8|S|CAL_GAP_INTERVAL -/
  gapInterval : Nat := 8
  /-- R291|8|S|TEMP_STEP_C -/
  tempStep : Nat := 5
  /-- R291|16|S|RECIP_INTERVAL -/
  recip : Nat := 1000
  /-- R291|16|S|STORE_INTERVAL_S -/
  storeS : Nat := 600
  /-- R291|16|S|NB_INTERVAL_S -/
  nbS : Nat := 60
  /-- R291|8|S|SHADOW_BEATS -/
  shadow : Nat := 2
  /-- R291|8|S|BG_TYPES -/
  bgTypes : Byte := 0xFF
  /-- R291|-|S|schedule that takes effect at a later beat, and that beat -/
  nextSched : Option (Nat × List Nat) := none
  /-- R289|-|S|the CAL_RUN that runs -/
  run : Option CalRun := none
  /-- R266|4 x 16|2|temperatures of L0 to L3 in 0.25 C -/
  nbTemp : List Int := [0, 0, 0, 0]
  /-- R268|4|M|L0 to L3 whose excursion beyond the points has raised CAL_TEMP_CLAMP -/
  nbClamp : List Bool := [false, false, false, false]
  /-- R286|-|S|chain records changed since they were stored, by 9 x chain index + point -/
  edits : Tab (List Byte) := []
  /-- R286|-|S|slice values changed since they were stored, by 9 x slice index + point, then by type -/
  sliceEdits : Tab (Tab (List Int)) := []
deriving DecidableEq, Repr

end Sys2Proof.Machine
end

