-- ==== Sys2Proof/Machine/Parts/Ring.lean ====
section
/-!
DEFINITION. Parts of the state: the DDR5 controller and the Ridgeline ring (docstring form as in Parts.Basic).
-/
namespace Sys2Proof.Machine

/-- An address map (R636): base bit and mask of each target. -/
structure DMap where
  /-- CH, SC, BG0, BG1, BG2, BA0, BA1, RK -/
  xbase : List Nat := List.replicate 8 0xFF
  colbase : List Nat := List.replicate 7 0
  rowbase : List Nat := List.replicate 16 0
  mask : List Nat := List.replicate 8 0
deriving DecidableEq, Repr

/-- A command put on a DRAM channel, as the freeze record keeps it (R651). -/
structure DCmd where
  ts : W32
  cmd : Nat
  loc : Nat
  bgba : Nat := 0
  cls : Nat := 0
  row : Nat := 0
  col : Nat := 0
deriving DecidableEq, Repr

/-- The DRAM controller. -/
structure Dram where
  /-- R657|8|S|STATE but for SAFE: 0 unconfigured, 1 configured, 2 training, 3 ready, 4 self-refresh, 5 frozen -/
  st : Nat := 0
  /-- R654|8|4|RANKS -/
  ranks : Nat := 1
  /-- R654|8|4|DENSITY_GB -/
  density : Nat := 16
  /-- R654|8|S|REF_MODE -/
  refMode : Nat := 0
  /-- R654|8|S|FGR -/
  fgr : Nat := 0
  /-- R654|16|S|OPEN_IDLE_NS -/
  openIdle : Nat := 200
  /-- R654|16|S|SCRUB_HOURS -/
  scrubH : Nat := 24
  /-- R654|16|S|CE_THRESHOLD -/
  ceThr : Nat := 16
  /-- R636|-|4|address map -/
  map : DMap := {}
  /-- R635|40|S|watermark of the zeroing of the free region, and whether it is complete -/
  watermark : Nat := 0
  zeroed : Bool := false
  /-- R657|8|4|REF_MULT -/
  refMult : Nat := 1
  /-- R657|10 x 32|S|CE_TOTAL, UE_TOTAL, WRITE_CRC_RETRY, SCRUB_PASSES, ZQ_CALS, TRACK_ADJ, REF_POSTPONED, DRAM_WB_FULL, ROW_HITS, ROW_MISSES -/
  ctr : List Nat := List.replicate 10 0
  /-- R657|1,000 windows of 6 x 32|S|bytes served by class in the windows of the last 1 ms, newest first -/
  hist : List (List Nat) := []
  /-- R657|80 x 16|S|DEVICE_CE that are not 0 -/
  ce : Tab Nat := []
  /-- R647|-|M|by device: times of day of the corrections of the last hour, newest first, and whether degraded was raised -/
  ceHour : Tab (List Nat × Bool) := []
  /-- R647|-|M|by channel: time of day of the last DRAM_CORRECTED, and times of the corrections of the last second -/
  ceAt : List (Option Nat × List Nat) := [(none, []), (none, [])]
  /-- R639|6 x 32|S|credits of C0 to C5 in bytes -/
  credit : List Int := List.replicate 6 0
  /-- R639|6 x 32|S|bytes served in the present window -/
  served : List Nat := List.replicate 6 0
  /-- R642|3|S|postponed refreshes of each rank (channel, sub-channel, rank) -/
  debt : Tab Nat := []
  /-- R641|32|S|bytes in the C4 write buffer -/
  wb : Nat := 0
  /-- R651|4,096 bytes|S|freeze record, sparse, unlisted bytes 0 -/
  freeze : List (Nat × Byte) := []
  /-- R651|64 commands|S|last commands, newest first -/
  cmds : List DCmd := []
  /-- R649|-|S|lines whose write has signalled a CRC error once and is replayed -/
  replay : List Nat := []
  /-- R638|-|S|open rows by bank: row, and the time of day, ns, at which an idle row closes -/
  rows : Tab (Nat × Option Nat) := []
  /-- R644|-|S|corrections applied since training by lane, 1/1024 UI -/
  lanes : Tab Int := []
  /-- R656|64|M|time of day at which training began -/
  trainNs : Nat := 0
deriving DecidableEq, Repr

/-- A ring port (R660). -/
structure RPort where
  /-- R660|1|S|up -/
  up : Bool := false
  /-- R660|32|2|LINK_DELAY_NS -/
  delay : Nat := 0
  /-- R663|8 x 8|2|PATH of the last copy received -/
  path : List Nat := List.replicate 8 0xFF
  /-- R663|48|M|beat of that copy -/
  beat : Option Nat := none
  /-- R667|-|S|frames waiting: class of R667 and frame, oldest first -/
  wait : List (Nat × List Byte) := []
  /-- R678|1|S|the neighbour is in VIGIL -/
  vigil : Bool := false
  /-- R678|1|S|lane 0 is up for a window -/
  lane0 : Bool := false
deriving DecidableEq, Repr

/-- The Ridgeline ring. -/
structure RingSt where
  /-- R685|8|S|STATE: 0 disabled, 1 INSERTING, 2 INSERTED, 3 RELEASED -/
  st : Nat := 0
  /-- R684|1|S|ENABLE -/
  enable : Bool := true
  /-- R684|1|4|AUTO_SYNC -/
  autoSync : Bool := false
  /-- R684|1|4|SUMMARY_EN -/
  sumEn : Bool := false
  /-- R684|1|S|VIGIL_OK -/
  vigilOk : Bool := true
  /-- R684|16|S|SWITCH_SETTLE_US -/
  settle : Nat := 1000
  /-- R684|16|S|LINK_WAIT_MS -/
  wait : Nat := 500
  /-- R684|16|S|RETRY_S -/
  retry : Nat := 60
  /-- R684|16|S|SUMMARY_BEATS -/
  sumBeats : Nat := 100
  /-- R661|1|S|insertion has begun since the boot -/
  began : Bool := false
  /-- R661|1|S|the retry waits for WARM -/
  due : Bool := false
  /-- R663|1|S|no retry until the next RING_CONFIG -/
  blocked : Bool := false
  /-- R661|64|M|time of day of the rise of BYP_HOLD_RING -/
  insNs : Nat := 0
  /-- R661|16|S|SWITCH_SETTLE_US, LINK_WAIT_MS and RETRY_S of the insertion begun last -/
  insSettle : Nat := 1000
  insWait : Nat := 500
  insRetry : Nat := 60
  /-- R661|1|S|transmitters enabled -/
  txOn : Bool := false
  /-- R661|64|M|time of day at which an insertion failed, while its RETRY_S runs -/
  retryFrom : Option Nat := none
  /-- R660|2 ports|S|RING_E, RING_W -/
  ports : List RPort := [{}, {}]
  /-- R685|8|S|acting master -/
  master : Option Nat := none
  /-- R662|1|S|this device is acting master -/
  acting : Bool := false
  /-- R670|48|S|beat at whose start a takeover is due -/
  takeAt : Option Nat := none
  /-- R670|48|S|beat of the last beacon received -/
  lastBeacon : Nat := 0
  /-- R685|8|S|ROSTER -/
  roster : Nat := 0
  /-- R681|1|S|VIGIL_OK of the last beacon received -/
  peerVigilOk : Bool := true
  /-- R672|8|S|consecutive ACTING beacons that agreed -/
  agree : Nat := 0
  /-- R672|48|S|claim beat pending: ours, or another's with its origin -/
  claim : Option (Nat × Nat) := none
  /-- R672|1|S|FORCE_CLAIM is pending -/
  force : Bool := false
  /-- R672|1|S|RING_MASTER_CONFLICT has been raised -/
  conflict : Bool := false
  /-- R672|1|S|silent after losing to another strapped master -/
  silent : Bool := false
  /-- R664|8 x 16|S|SEQ by message type -/
  seq : List Nat := List.replicate 9 0
  /-- R674|8 x 16|S|next TABLE_UPDATE SEQ by origin -/
  expect : Tab Nat := []
  /-- R673|8 commands|S|COMMANDs held for MB3, oldest first -/
  held : List (List Byte) := []
  /-- R673|-|S|origins of the MB3 commands whose responses go back, with SEQ -/
  back : List (Nat × W16) := []
  /-- R675|-|S|stations placed in precoded PPDUs since the last summary: station, band -/
  placed : List (Nat × Nat) := []
  /-- R675|48|S|beat of the last summary -/
  sumAt : Nat := 0
  /-- R685|8 x 32|S|BEACONS_RX, RING_RX_ERROR, RING_STRIPPED, RING_NO_PATH, RING_CMD_REJECT, TABLE_UPDATES_RX, RDV_OK, RDV_MISS -/
  ctr : List Nat := List.replicate 8 0
  /-- R687|16|S|VIGIL_CHECK_MS -/
  checkMs : Nat := 1000
  /-- R687|16|S|RDV_GUARD_US -/
  guardUs : Nat := 50
  /-- R679|32|S|G in us -/
  g : Nat := 50
  /-- R681|8|S|WAKE_MASK and the rendezvous still to carry it -/
  wakeMask : Nat := 0
  wakeLeft : Nat := 0
  /-- R679|16|S|failed windows in a row -/
  misses : Nat := 0
  /-- R678|1|S|a window is open, and whether a valid RENDEZVOUS has arrived in it -/
  window : Bool := false
  arrived : Bool := false
  /-- R680|-|S|index and corrected arrival (keeper ticks) of the last successful rendezvous in this VIGIL -/
  lastRdv : Option (Nat × Rat) := none
  /-- R678|64|M|index of the last rendezvous instant at which this device sent -/
  rdvK : Option Nat := none
  /-- R673|-|S|COMMANDs sent whose responses have not all come: target, SEQ, opcode -/
  sent : List (Nat × Nat × Nat) := []
  /-- R674|8|S|devices to which an AUTO_SYNC runs -/
  syncing : Option Nat := none
deriving DecidableEq, Repr

end Sys2Proof.Machine
end

