-- ==== Sys2Proof/Machine/Parts/Time.lean ====
section
/-!
DEFINITION. Parts of the state: cadence, time of day, keeper, network time and timestamps (docstring form as in
Parts.Basic).
-/
namespace Sys2Proof.Machine

/-- One transmit timestamp (R210). -/
structure TsEntry where
  id : W16
  cookie : W64
  ns : Nat
  lostBefore : Bool := false
deriving DecidableEq, Repr

/-- A port's transmit timestamp queue (R210). -/
structure TsQueue where
  /-- R210|64 entries|2|entries, oldest first -/
  entries : List TsEntry := []
  /-- R210|16|2|next TS_ID -/
  nextId : W16 := 0
  /-- R210|1|2|an entry has been lost since the last appended -/
  lost : Bool := false
  /-- R210|32|2|TS_OVERFLOW -/
  overflow : Nat := 0
deriving DecidableEq, Repr

/-- What an Announce message offers, in the order of comparison of the BMCA (R207). -/
structure Gm where
  prio1 : Nat
  cls : Nat
  accuracy : Nat
  variance : Nat
  prio2 : Nat
  identity : W64
  stepsRemoved : Nat := 0
deriving DecidableEq, Repr

/-- What VIGIL captured at its commit (R211). -/
structure Capture where
  k0 : Nat
  /-- time of day, ns and 32-bit fraction as one number -/
  t0 : Nat
  err0 : Nat
  /-- CAD_STATE at the commit (R742) -/
  cadState : Nat
deriving DecidableEq, Repr

/-- The run of consistent marks (R199). -/
structure MarkRun where
  count : Nat
  beat : Nat
  /-- local instant of its last mark, ns -/
  at_ : Int
deriving DecidableEq, Repr

/-- What the realignment that runs is doing (R200). -/
inductive Realign where
  | none
  /-- the counter is slewing at half rate -/
  | slew
  /-- the counter has been aligned; the first mark with a small error locks -/
  | settle
deriving DecidableEq, Repr

/-- Cadence and time of day. -/
structure Cad where
  /-- R194|96|S|time-of-day counter: ns and a 32-bit fraction, as one number -/
  tod : Nat := 0
  /-- R194|64|S|INCR, 32.32 -/
  incr : Nat := 0x100000000
  /-- R194|1|S|the counter runs -/
  run : Bool := false
  /-- R195|rational|S|freq, the frequency estimate -/
  freq : Rat := 0
  /-- R214|2|S|SOURCE -/
  source : Nat := 0
  /-- R214|3|S|BP_CODE -/
  bpCode : Nat := 2
  /-- R216|8|S|ACQUIRE_MARKS -/
  acquire : Nat := 4
  /-- R216|32|S|MARK_TOL_NS -/
  tol : Nat := 1000
  /-- R216|64|S|CAD_EPOCH -/
  epoch : Nat := 0
  /-- R216|16|S|CAD_IN_DELAY_NS -/
  inDelay : Nat := 0
  /-- R216|16|S|LOOP_TC -/
  loopTc : Nat := 64
  /-- R216|16|S|SLEW_LIMIT_MS -/
  slewMs : Nat := 1000
  /-- R216|32|S|SOURCE_ERR_NS -/
  srcErr : Nat := 0
  /-- R214|4|S|CAD_STATE -/
  state : Nat := 0
  /-- R214|32|S|ERR_BOUND_NS -/
  errBound : Nat := 0xFFFFFFFF
  /-- R200|1|S|the next acquisition is a first acquisition -/
  firstAcq : Bool := true
  /-- R199|-|S|run of consistent marks -/
  markRun : Option MarkRun := none
  /-- R200|-|S|realignment -/
  realign : Realign := .none
  /-- R200|1|S|CAD_STEP_NEEDED has been raised since the last CAD_SOURCE_SET -/
  stepNeeded : Bool := false
  /-- R217|8|S|CONSEC_MISSED -/
  consec : Nat := 0
  /-- R215|8|S|kind of the last missed mark -/
  lastKind : Nat := 0
  /-- R202|48|4|beat of the last good mark -/
  lastGood : Nat := 0
  /-- R217|32|S|LAST_ERR_NS -/
  lastErr : Int := 0
  /-- R201|16 x 32|S|magnitudes of e of the last good marks, newest first -/
  errs : List Nat := []
  /-- R198|48|S|newest beat whose mark has been decided -/
  decided : Option Nat := none
  /-- R217|32|S|MARKS_GOOD -/
  good : Nat := 0
  /-- R217|5 x 32|S|MISSED_TIME, MISSED_ABSENT, MISSED_CRC, MISSED_SEQ, MISSED_BP -/
  missed : List Nat := [0, 0, 0, 0, 0]
  /-- R217|32|S|MARK_STRAY -/
  stray : Nat := 0
  /-- R217|32|S|HOLDOVER_USED -/
  used : Nat := 0
  /-- R217|32|S|HOLDOVER_ENTRIES -/
  entries : Nat := 0
  /-- R217|32|S|BUDGET_EXPIRIES -/
  expiries : Nat := 0
  /-- R217|32|S|STEPS -/
  steps : Nat := 0
  /-- R217|48|4|LAST_LOCK_BEAT -/
  lastLock : Nat := 0
  /-- R217|2|4|SENDER_FLAGS -/
  sender : BitVec 2 := 0
  /-- R202|64|M|time of day at which HOLDOVER was entered and the bound then held -/
  hoFrom : Nat := 0
  hoBound : Nat := 0
  /-- R204|1|S|ERR_BOUND_NS grows by HOLDOVER_PPB: from the entry to DEGRADED until LOCKED, a new source or a restore -/
  growing : Bool := false
  /-- R222|32|S|BUDGET_BEATS -/
  budget : Nat := 2000
  /-- R222|32|S|HOLDOVER_PPB -/
  hoPpb : Nat := 200
  /-- R222|32|S|KEEPER_UNC_PPB -/
  kUnc : Nat := 3000
  /-- R222|8|S|TRIM_WINDOW_LOG2 -/
  trimLog2 : Nat := 0
  /-- R219|64|S|sum of the TIME_STEP commands that wait for the next beat start -/
  stepSum : Option Int := none
  /-- R221|1|S|ENABLE of CAD_MASTER_SET -/
  masterEn : Bool := false
  /-- R221|16|S|PULSE_WIDTH_NS -/
  pulseW : Nat := 1000
  /-- R221|16|S|OUT_ADVANCE_NS -/
  advance : Nat := 0
deriving DecidableEq, Repr

/-- PTP, the keeper, the timestamp queues and the latched time registers. -/
structure Clk where
  /-- R220|8|S|PORT of PTP_CONFIG, 0xFF none -/
  ptpPort : Nat := 0xFF
  /-- R220|8|4|TRANSPORT -/
  transport : Nat := 0
  /-- R220|8|S|DOMAIN -/
  domain : Nat := 0
  /-- R220|8|S|LOG_SYNC -/
  logSync : Int := -4
  /-- R220|8|S|LOG_DELAY_REQ -/
  logDelay : Int := 0
  /-- R220|1|4|accept the ARB timescale -/
  arbOk : Bool := false
  /-- R220|16|4|VLAN_ID -/
  vlan : Nat := 0
  /-- R220|32|4|DELAY_ASYM_NS -/
  asym : Int := 0
  /-- R220|16 bytes|4|SRC_ADDR -/
  srcAddr : List Byte := List.replicate 16 0
  /-- R217|64|S|the selected grandmaster -/
  gm : Option Gm := none
  /-- R208|64|S|mean path delay, and the time of day it was taken -/
  delay : Option (Int × Nat) := none
  /-- R208|64|M|t1 + correction and t2 of the last Sync -/
  sync : Option (Int × Int) := none
  /-- R207|64|M|transmit instant t3 of the last Delay_Req -/
  t3 : Option Int := none
  /-- R210|5 queues|2|transmit timestamp queues of UP0 to UP3 and MGT -/
  tsq : List TsQueue := List.replicate 5 {}
  /-- R211|48|2|keeper count -/
  keeper : Nat := 0
  /-- R211|-|M|part of the present keeper tick, in units of 1/64 ns; a tick has 1,953,125 of them -/
  keeperPart : Nat := 0
  /-- R214|32|S|KEEPER_TRIM, parts per 10^12 -/
  trim : Int := 0
  /-- R211|-|S|capture at the commit of the entry to VIGIL -/
  capture : Option Capture := none
  /-- R742|96|M|largest keeper-derived time reported in this stay in VIGIL -/
  lastReported : Nat := 0
  /-- R211|48|2|keeper ticks of a restore that a restart in VIGIL made, until the boot reports TIME_COASTED -/
  coasted : Option Nat := none
  /-- R213|48|S|keeper alarm count, if armed -/
  alarm : Option Nat := none
  /-- R214|10 x 32|S|latched registers 0x9004 to 0x9028 -/
  snap : List W32 := [0, 0, 0, 0, 0, 0x200, 0xFFFFFFFF, 0, 1, 0]
deriving DecidableEq, Repr

end Sys2Proof.Machine
end

