-- ==== Sys2Proof/Machine/State.lean ====
section
/-!
DEFINITION. The machine's state, its reset, its faults and refusals.
-/
namespace Sys2Proof.Machine

/-- The whole state of the block. -/
structure State where
  /-- commands that wait, first in, first out -/
  pending : List Instr := []
  /-- number of open values drawn so far -/
  drawn : Nat := 0
  /-- what the device has emitted, newest first -/
  out : List Emit := []
  pwr : Pwr := {}
  outs : Outs := {}
  boot : Boot := {}
  mbx : Mbx := {}
  host : HostIf := {}
  evt : Evt := {}
  modes : Modes := {}
  flt : Flt := {}
  cad : Cad := {}
  clk : Clk := {}
  fe : Fe := {}
  cal : Cal := {}
  air : Air := {}
  nb : Nb := {}
  mlad : Mlad := {}
  cls : Cls := {}
  fwd : Fwd := {}
  tm : Tm := {}
  cipher : Cipher := {}
  col : Col := {}
  dram : Dram := {}
  ring : RingSt := {}
deriving DecidableEq, Repr

/-- Why a step stops with a fault. -/
inductive Fault where
  /-- No command raises it: every condition that the spec calls an error has its own effect on the state (safe). -/
  | none
deriving DecidableEq, Repr

/-- Why a command is refused. -/
inductive Refusal where
  /-- Raised by the arm of a command that has no meaning yet (safe). -/
  | notModelled (mnemonic : String)
deriving DecidableEq, Repr

/-- The device in HOLD with its supplies up and RESET_N low, before any boot (log entry 1). -/
def State.reset : State := {}

end Sys2Proof.Machine
end

