-- ==== Sys2Proof/Machine/Bytes.lean ====
section
/-!
DEFINITION. Bytes, little-endian fields, sparse memories, lists and checksums.
-/
namespace Sys2Proof.Machine

/-- A number as k little-endian bytes (R7). -/
def le : Nat → Nat → List Byte
  | 0, _ => []
  | k + 1, n => BitVec.ofNat 8 n :: le k (n / 256)

/-- A signed number as k little-endian bytes. -/
def leI (k : Nat) (i : Int) : List Byte := le k (i.emod (256 ^ k : Nat)).toNat

/-- A number as k big-endian bytes. -/
def be (k n : Nat) : List Byte := (le k n).reverse

/-- The number that little-endian bytes spell. -/
def unLe : List Byte → Nat
  | [] => 0
  | b :: t => b.toNat + 256 * unLe t

/-- The number that big-endian bytes spell. -/
def unBe (b : List Byte) : Nat := unLe b.reverse

/-- The byte at an index, 0 beyond the end. -/
def byteAt (b : List Byte) (i : Nat) : Byte := b.getD i 0

/-- k bytes from an offset on; bytes beyond the end read 0. -/
def slice (b : List Byte) (off k : Nat) : List Byte := (List.range k).map fun i => byteAt b (off + i)

/-- The little-endian field of k bytes at an offset. -/
def fld (b : List Byte) (off k : Nat) : Nat := unLe (slice b off k)

/-- A number read as two's complement of w bits. -/
def signed (w n : Nat) : Int := if n % 2 ^ w < 2 ^ (w - 1) then (n % 2 ^ w : Nat) else (n % 2 ^ w : Nat) - (2 ^ w : Nat)

/-- Bytes padded with zeros, or cut, to a length. -/
def pad (k : Nat) (b : List Byte) : List Byte := b.take k ++ List.replicate (k - b.length) 0

/-- Bytes overwritten from an offset on; the length is kept. -/
def patch (b : List Byte) (off : Nat) (w : List Byte) : List Byte :=
  (b.take off ++ w ++ b.drop (off + w.length)).take b.length

/-- A bit of a number. -/
def bit (n i : Nat) : Bool := n / 2 ^ i % 2 == 1

/-- A flag as a number. -/
def b2n (b : Bool) : Nat := if b then 1 else 0

/-- Add with saturation at the top of w bits. -/
def satAdd (w n k : Nat) : Nat := min (2 ^ w - 1) (n + k)

/-- Replace the i-th entry of a list by its image. -/
def updAt {α : Type} (l : List α) (i : Nat) (f : α → α) : List α := l.modify i f

/-- Replace the i-th entry of a list. -/
def setAt {α : Type} (l : List α) (i : Nat) (a : α) : List α := l.set i a

/-- Add to the i-th of a list of 32-bit saturating counters. -/
def bump (l : List Nat) (i : Nat) (k : Nat := 1) : List Nat := l.modify i fun n => satAdd 32 n k

/-- Set each counter of a list to 0. -/
def zeroed (l : List Nat) : List Nat := l.map fun _ => 0

/-- A count read from a list of counters. -/
def ctrAt (l : List Nat) (i : Nat) : Nat := l.getD i 0

/-- The bytes of a list of 32-bit counters. -/
def ctrBytes (l : List Nat) : List Byte := l.flatMap fun n => le 4 n

/-- Counters of n, from the first of a list. -/
def sumOf (l : List Nat) : Nat := l.foldl (· + ·) 0

/-! Sparse memories: addresses rise strictly, an unlisted byte reads 0, and no listed byte is 0. -/

/-- The byte at an address. -/
def memGet (m : List (Nat × Byte)) (a : Nat) : Byte := Tab.getD m a 0

/-- Write one byte, keeping the canonical form. -/
def memSet (m : List (Nat × Byte)) (a : Nat) (v : Byte) : List (Nat × Byte) :=
  if v = 0 then Tab.erase m a else Tab.set m a v

/-- k bytes from an address on. -/
def memRead (m : List (Nat × Byte)) (a k : Nat) : List Byte := (List.range k).map fun i => memGet m (a + i)

/-- Write bytes from an address on. -/
def memWrite : List (Nat × Byte) → Nat → List Byte → List (Nat × Byte)
  | m, _, [] => m
  | m, a, v :: t => memWrite (memSet m a v) (a + 1) t

/-- The little-endian field of k bytes at an address. -/
def memFld (m : List (Nat × Byte)) (a k : Nat) : Nat := unLe (memRead m a k)

/-- A range of addresses set to 0. -/
def memClear (m : List (Nat × Byte)) (a k : Nat) : List (Nat × Byte) := m.filter fun e => e.1 < a || a + k ≤ e.1

/-- The canonical form of a sparse memory. -/
abbrev Memory.wf (m : List (Nat × Byte)) : Bool := Tab.wf m && m.all fun e => e.2 != 0

/-! Checksums. -/

/-- One bit of a reflected CRC: the register shifted right, the polynomial added where the bit that leaves is 1. -/
def crcStep (poly r : Nat) : Nat := if r % 2 = 1 then (r / 2) ^^^ poly else r / 2

/-- A byte taken into a reflected CRC. -/
def crcByte (poly r : Nat) (b : Byte) : Nat :=
  let x := r ^^^ b.toNat
  crcStep poly (crcStep poly (crcStep poly (crcStep poly (crcStep poly (crcStep poly (crcStep poly (crcStep poly x)))))))

/-- CRC-32 of IEEE 802.3. -/
def crc32 (b : List Byte) : Nat := (b.foldl (crcByte 0xEDB88320) 0xFFFFFFFF) ^^^ 0xFFFFFFFF

/-- CRC32C with an initial value and no final inversion (R488). -/
def crc32c (init : Nat) (b : List Byte) : Nat := b.foldl (crcByte 0x82F63B78) init

/-- One bit of the CRC-8 of R125, most significant bit first. -/
def crc8Step (r : Nat) : Nat := if r / 128 % 2 = 1 then (2 * r % 256) ^^^ 7 else 2 * r % 256

/-- The CRC-8 of R125. -/
def crc8 (b : List Byte) : Nat :=
  b.foldl (fun r x =>
    let y := r ^^^ x.toNat
    crc8Step (crc8Step (crc8Step (crc8Step (crc8Step (crc8Step (crc8Step (crc8Step y)))))))) 0

end Sys2Proof.Machine
end

