-- ==== Sys2Proof/Machine/Aes.lean ====
section
/-!
DEFINITION. AES and its modes (R565): the block cipher, the key unwrap of RFC 3394, CCM, GCM and CMAC (log entry 25).
-/
namespace Sys2Proof.Machine

/-! The block cipher. A block and a round key are 16 bytes, column by column. -/

/-- The S-box. -/
def aesBox : List Byte :=
  [0x63, 0x7C, 0x77, 0x7B, 0xF2, 0x6B, 0x6F, 0xC5, 0x30, 0x01, 0x67, 0x2B, 0xFE, 0xD7, 0xAB, 0x76] ++
  [0xCA, 0x82, 0xC9, 0x7D, 0xFA, 0x59, 0x47, 0xF0, 0xAD, 0xD4, 0xA2, 0xAF, 0x9C, 0xA4, 0x72, 0xC0] ++
  [0xB7, 0xFD, 0x93, 0x26, 0x36, 0x3F, 0xF7, 0xCC, 0x34, 0xA5, 0xE5, 0xF1, 0x71, 0xD8, 0x31, 0x15] ++
  [0x04, 0xC7, 0x23, 0xC3, 0x18, 0x96, 0x05, 0x9A, 0x07, 0x12, 0x80, 0xE2, 0xEB, 0x27, 0xB2, 0x75] ++
  [0x09, 0x83, 0x2C, 0x1A, 0x1B, 0x6E, 0x5A, 0xA0, 0x52, 0x3B, 0xD6, 0xB3, 0x29, 0xE3, 0x2F, 0x84] ++
  [0x53, 0xD1, 0x00, 0xED, 0x20, 0xFC, 0xB1, 0x5B, 0x6A, 0xCB, 0xBE, 0x39, 0x4A, 0x4C, 0x58, 0xCF] ++
  [0xD0, 0xEF, 0xAA, 0xFB, 0x43, 0x4D, 0x33, 0x85, 0x45, 0xF9, 0x02, 0x7F, 0x50, 0x3C, 0x9F, 0xA8] ++
  [0x51, 0xA3, 0x40, 0x8F, 0x92, 0x9D, 0x38, 0xF5, 0xBC, 0xB6, 0xDA, 0x21, 0x10, 0xFF, 0xF3, 0xD2] ++
  [0xCD, 0x0C, 0x13, 0xEC, 0x5F, 0x97, 0x44, 0x17, 0xC4, 0xA7, 0x7E, 0x3D, 0x64, 0x5D, 0x19, 0x73] ++
  [0x60, 0x81, 0x4F, 0xDC, 0x22, 0x2A, 0x90, 0x88, 0x46, 0xEE, 0xB8, 0x14, 0xDE, 0x5E, 0x0B, 0xDB] ++
  [0xE0, 0x32, 0x3A, 0x0A, 0x49, 0x06, 0x24, 0x5C, 0xC2, 0xD3, 0xAC, 0x62, 0x91, 0x95, 0xE4, 0x79] ++
  [0xE7, 0xC8, 0x37, 0x6D, 0x8D, 0xD5, 0x4E, 0xA9, 0x6C, 0x56, 0xF4, 0xEA, 0x65, 0x7A, 0xAE, 0x08] ++
  [0xBA, 0x78, 0x25, 0x2E, 0x1C, 0xA6, 0xB4, 0xC6, 0xE8, 0xDD, 0x74, 0x1F, 0x4B, 0xBD, 0x8B, 0x8A] ++
  [0x70, 0x3E, 0xB5, 0x66, 0x48, 0x03, 0xF6, 0x0E, 0x61, 0x35, 0x57, 0xB9, 0x86, 0xC1, 0x1D, 0x9E] ++
  [0xE1, 0xF8, 0x98, 0x11, 0x69, 0xD9, 0x8E, 0x94, 0x9B, 0x1E, 0x87, 0xE9, 0xCE, 0x55, 0x28, 0xDF] ++
  [0x8C, 0xA1, 0x89, 0x0D, 0xBF, 0xE6, 0x42, 0x68, 0x41, 0x99, 0x2D, 0x0F, 0xB0, 0x54, 0xBB, 0x16]

/-- The S-box at a byte. -/
def subByte (b : Byte) : Byte := aesBox.getD b.toNat 0

/-- The inverse S-box. -/
def aesUnbox : List Byte :=
  [0x52, 0x09, 0x6A, 0xD5, 0x30, 0x36, 0xA5, 0x38, 0xBF, 0x40, 0xA3, 0x9E, 0x81, 0xF3, 0xD7, 0xFB] ++
  [0x7C, 0xE3, 0x39, 0x82, 0x9B, 0x2F, 0xFF, 0x87, 0x34, 0x8E, 0x43, 0x44, 0xC4, 0xDE, 0xE9, 0xCB] ++
  [0x54, 0x7B, 0x94, 0x32, 0xA6, 0xC2, 0x23, 0x3D, 0xEE, 0x4C, 0x95, 0x0B, 0x42, 0xFA, 0xC3, 0x4E] ++
  [0x08, 0x2E, 0xA1, 0x66, 0x28, 0xD9, 0x24, 0xB2, 0x76, 0x5B, 0xA2, 0x49, 0x6D, 0x8B, 0xD1, 0x25] ++
  [0x72, 0xF8, 0xF6, 0x64, 0x86, 0x68, 0x98, 0x16, 0xD4, 0xA4, 0x5C, 0xCC, 0x5D, 0x65, 0xB6, 0x92] ++
  [0x6C, 0x70, 0x48, 0x50, 0xFD, 0xED, 0xB9, 0xDA, 0x5E, 0x15, 0x46, 0x57, 0xA7, 0x8D, 0x9D, 0x84] ++
  [0x90, 0xD8, 0xAB, 0x00, 0x8C, 0xBC, 0xD3, 0x0A, 0xF7, 0xE4, 0x58, 0x05, 0xB8, 0xB3, 0x45, 0x06] ++
  [0xD0, 0x2C, 0x1E, 0x8F, 0xCA, 0x3F, 0x0F, 0x02, 0xC1, 0xAF, 0xBD, 0x03, 0x01, 0x13, 0x8A, 0x6B] ++
  [0x3A, 0x91, 0x11, 0x41, 0x4F, 0x67, 0xDC, 0xEA, 0x97, 0xF2, 0xCF, 0xCE, 0xF0, 0xB4, 0xE6, 0x73] ++
  [0x96, 0xAC, 0x74, 0x22, 0xE7, 0xAD, 0x35, 0x85, 0xE2, 0xF9, 0x37, 0xE8, 0x1C, 0x75, 0xDF, 0x6E] ++
  [0x47, 0xF1, 0x1A, 0x71, 0x1D, 0x29, 0xC5, 0x89, 0x6F, 0xB7, 0x62, 0x0E, 0xAA, 0x18, 0xBE, 0x1B] ++
  [0xFC, 0x56, 0x3E, 0x4B, 0xC6, 0xD2, 0x79, 0x20, 0x9A, 0xDB, 0xC0, 0xFE, 0x78, 0xCD, 0x5A, 0xF4] ++
  [0x1F, 0xDD, 0xA8, 0x33, 0x88, 0x07, 0xC7, 0x31, 0xB1, 0x12, 0x10, 0x59, 0x27, 0x80, 0xEC, 0x5F] ++
  [0x60, 0x51, 0x7F, 0xA9, 0x19, 0xB5, 0x4A, 0x0D, 0x2D, 0xE5, 0x7A, 0x9F, 0x93, 0xC9, 0x9C, 0xEF] ++
  [0xA0, 0xE0, 0x3B, 0x4D, 0xAE, 0x2A, 0xF5, 0xB0, 0xC8, 0xEB, 0xBB, 0x3C, 0x83, 0x53, 0x99, 0x61] ++
  [0x17, 0x2B, 0x04, 0x7E, 0xBA, 0x77, 0xD6, 0x26, 0xE1, 0x69, 0x14, 0x63, 0x55, 0x21, 0x0C, 0x7D]

/-- The inverse S-box at a byte. -/
def unsubByte (b : Byte) : Byte := aesUnbox.getD b.toNat 0

/-- Multiplication by x in the field of AES. -/
def xtime (b : Byte) : Byte := (b <<< 1) ^^^ (if b.getLsbD 7 then 0x1B else 0)

/-- Multiplication by a small constant in the field of AES. -/
def gmul (k : Nat) (b : Byte) : Byte :=
  let b2 := xtime b
  let b4 := xtime b2
  let b8 := xtime b4
  (if bit k 0 then b else 0) ^^^ (if bit k 1 then b2 else 0) ^^^ (if bit k 2 then b4 else 0) ^^^ (if bit k 3 then b8 else 0)

/-- The bytes of two lists, each added to the other's. -/
def xorBytes (a b : List Byte) : List Byte := (a.zip b).map fun x => x.1 ^^^ x.2

/-- The next word of the key schedule: its index and the words so far. -/
def nextWord (nk i : Nat) (w : List (List Byte)) : List Byte :=
  let t := w.getD (i - 1) []
  let t := if i % nk = 0 then
      let r := (t.drop 1 ++ t.take 1).map subByte
      xorBytes r [(List.range (i / nk - 1)).foldl (fun x _ => xtime x) 1, 0, 0, 0]
    else if 6 < nk && i % nk = 4 then t.map subByte
    else t
  xorBytes (w.getD (i - nk) []) t

/-- The round keys of a key of 16 or 32 bytes. -/
def roundKeys (key : List Byte) : List (List Byte) :=
  let nk := key.length / 4
  let n := 4 * (nk + 7)
  let w0 := (List.range nk).map fun i => slice key (4 * i) 4
  let w := (List.range (n - nk)).foldl (fun w i => w ++ [nextWord nk (nk + i) w]) w0
  (List.range (nk + 7)).map fun r => (w.drop (4 * r)).take 4 |>.flatten

/-- The columns of a block times a circulant matrix with a first row. -/
def mixColumns (a b c d : Nat) (s : List Byte) : List Byte :=
  (List.range 16).map fun i =>
    let x (k : Nat) : Byte := byteAt s (4 * (i / 4) + (i + k) % 4)
    gmul a (x 0) ^^^ gmul b (x 1) ^^^ gmul c (x 2) ^^^ gmul d (x 3)

/-- The rows of a block, each rotated to the left by its number. -/
def shiftRows (s : List Byte) : List Byte := (List.range 16).map fun i => byteAt s ((i + 4 * (i % 4)) % 16)

/-- The rows of a block, each rotated to the right by its number. -/
def unshiftRows (s : List Byte) : List Byte := (List.range 16).map fun i => byteAt s ((i + 12 * (i % 4)) % 16)

/-- The rounds of an encryption after the first key was added. -/
def encRounds : List (List Byte) → List Byte → List Byte
  | [], s => s
  | [k], s => xorBytes (shiftRows (s.map subByte)) k
  | k :: ks, s => encRounds ks (xorBytes (mixColumns 2 3 1 1 (shiftRows (s.map subByte))) k)

/-- AES encryption of one block. -/
def aesEnc (key block : List Byte) : List Byte :=
  match roundKeys key with
  | [] => block
  | k :: ks => encRounds ks (xorBytes (pad 16 block) k)

/-- The rounds of a decryption, with the round keys last first. -/
def decRounds : List (List Byte) → List Byte → List Byte
  | [], s => s
  | [k], s => xorBytes ((unshiftRows s).map unsubByte) k
  | k :: ks, s => decRounds ks (mixColumns 14 11 13 9 (xorBytes ((unshiftRows s).map unsubByte) k))

/-- AES decryption of one block. -/
def aesDec (key block : List Byte) : List Byte :=
  match (roundKeys key).reverse with
  | [] => block
  | k :: ks => decRounds ks (xorBytes (pad 16 block) k)

/-! Key unwrap (RFC 3394, R582). -/

/-- The first 4 bytes of the encryption of an all-zero block (R583). -/
def kcvOf (key : List Byte) : List Byte := (aesEnc key (List.replicate 16 0)).take 4

/-- One step of the unwrap, number t, of register i. -/
def unwrapStep (kek : List Byte) (i t : Nat) (x : List Byte × List Byte) : List Byte × List Byte :=
  let b := aesDec kek (xorBytes x.1 (be 8 t) ++ slice x.2 (8 * i) 8)
  (b.take 8, patch x.2 (8 * i) (b.drop 8))

/-- The unwrap of RFC 3394 under a KEK with an initial value of 8 bytes: the key, where the integrity check holds. -/
def keyUnwrap (kek iv wrapped : List Byte) : Option (List Byte) :=
  let n := wrapped.length / 8 - 1
  let steps := (List.range (6 * n)).map fun j => 6 * n - j
  let (a, r) := steps.foldl (fun x t => unwrapStep kek ((t - 1) % n) t x) (wrapped.take 8, wrapped.drop 8)
  if a == iv then some r else none

/-! Counter mode and CCM (R453, R566). -/

/-- A list cut into blocks of 16 bytes, the last as short as it is: so many at most. -/
def blocks16 : Nat → List Byte → List (List Byte)
  | 0, _ => []
  | k + 1, b => if b.isEmpty then [] else b.take 16 :: blocks16 k (b.drop 16)

/-- The blocks of a list. -/
def blocksOf16 (b : List Byte) : List (List Byte) := blocks16 (b.length / 16 + 1) b

/-- A list padded with zeros to whole blocks. -/
def pad16 (b : List Byte) : List Byte := b ++ List.replicate ((16 - b.length % 16) % 16) 0

/-- The chained encryption of blocks from a value on. -/
def cbcMac (key x : List Byte) (m : List Byte) : List Byte := (blocksOf16 (pad16 m)).foldl (fun x b => aesEnc key (xorBytes x b)) x

/-- The counter block of CCM with a 2-byte length field. -/
def ccmCtr (nonce : List Byte) (i : Nat) : List Byte := 1 :: nonce ++ be 2 i

/-- A text under counter mode from counter block 1 on. -/
def ccmText (key nonce text : List Byte) : List Byte :=
  (blocksOf16 text).zipIdx.flatMap fun b => xorBytes b.1 (aesEnc key (ccmCtr nonce (b.2 + 1)))

/-- The MIC of m bytes that CCM gives a plaintext, encrypted. -/
def ccmMic (key nonce aad plain : List Byte) (m : Nat) : List Byte :=
  let b0 := BitVec.ofNat 8 ((if aad.isEmpty then 0 else 64) + 8 * ((m - 2) / 2) + 1) :: nonce ++ be 2 plain.length
  let a := if aad.isEmpty then [] else pad16 (be 2 aad.length ++ aad)
  let t := cbcMac key (List.replicate 16 0) (b0 ++ a ++ plain)
  xorBytes (t.take m) (aesEnc key (ccmCtr nonce 0))

/-- A plaintext protected by CCM: the ciphertext and the MIC. -/
def ccmSeal (key nonce aad plain : List Byte) (m : Nat) : List Byte := ccmText key nonce plain ++ ccmMic key nonce aad plain m

/-- The plaintext of what CCM protects, where its MIC verifies. -/
def ccmOpen (key nonce aad text : List Byte) (m : Nat) : Option (List Byte) :=
  let plain := ccmText key nonce (text.take (text.length - m))
  if text.length < m then none
  else if ccmMic key nonce aad plain m == text.drop (text.length - m) then some plain else none

/-! GCM (R566). -/

/-- A block as a number whose leftmost bit is the highest. -/
def blockNum (b : List Byte) : BitVec 128 := BitVec.ofNat 128 (unBe (pad 16 b))

/-- One step of the multiplication of GHASH. -/
def ghStep (x : BitVec 128) (z : BitVec 128 × BitVec 128) (i : Nat) : BitVec 128 × BitVec 128 :=
  (if x.getLsbD (127 - i) then z.1 ^^^ z.2 else z.1, if z.2.getLsbD 0 then (z.2 >>> 1) ^^^ (0xE1 <<< 120 : BitVec 128) else z.2 >>> 1)

/-- The product in the field of GHASH. -/
def ghMul (x y : BitVec 128) : BitVec 128 := ((List.range 128).foldl (ghStep x) (0, y)).1

/-- GHASH of whole blocks under H. -/
def ghash (h : BitVec 128) (m : List Byte) : BitVec 128 := (blocksOf16 m).foldl (fun x b => ghMul (x ^^^ blockNum b) h) 0

/-- A text under counter mode with a 12-byte nonce, from counter 2 on. -/
def gcmText (key nonce text : List Byte) : List Byte :=
  (blocksOf16 text).zipIdx.flatMap fun b => xorBytes b.1 (aesEnc key (nonce ++ be 4 (b.2 + 2)))

/-- The 16-byte tag that GCM gives a ciphertext. -/
def gcmTag (key nonce aad text : List Byte) : List Byte :=
  let h := blockNum (aesEnc key (List.replicate 16 0))
  let g := ghash h (pad16 aad ++ pad16 text ++ be 8 (8 * aad.length) ++ be 8 (8 * text.length))
  xorBytes (be 16 g.toNat) (aesEnc key (nonce ++ be 4 1))

/-- A plaintext protected by GCM: the ciphertext and the tag. -/
def gcmSeal (key nonce aad plain : List Byte) : List Byte :=
  let c := gcmText key nonce plain
  c ++ gcmTag key nonce aad c

/-- The plaintext of what GCM protects, where its tag verifies. -/
def gcmOpen (key nonce aad text : List Byte) : Option (List Byte) :=
  let c := text.take (text.length - 16)
  if text.length < 16 then none
  else if gcmTag key nonce aad c == text.drop (text.length - 16) then some (gcmText key nonce c) else none

/-! CMAC (R566). -/

/-- The subkey after a block: its double in the field of CMAC. -/
def cmacDouble (b : BitVec 128) : BitVec 128 := (b <<< 1) ^^^ (if b.getLsbD 127 then 0x87 else 0)

/-- CMAC of a message. -/
def cmac (key m : List Byte) : List Byte :=
  let k1 := cmacDouble (blockNum (aesEnc key (List.replicate 16 0)))
  let n := if m.isEmpty then 0 else (m.length - 1) / 16
  let last := m.drop (16 * n)
  let tail := if last.length = 16 then xorBytes last (be 16 k1.toNat) else xorBytes (pad 16 (last ++ [0x80])) (be 16 (cmacDouble k1).toNat)
  aesEnc key (xorBytes (cbcMac key (List.replicate 16 0) (m.take (16 * n))) tail)

/-! Frames of IEEE 802.11 (R566, log entry 25). -/

/-- The additional data of a frame: its Frame Control with what may change masked, its addresses, the fragment number, the
fourth address, and the TID. -/
def macAad (m a1 a2 a3 : List Byte) : List Byte :=
  let data := (byteAt m 0).toNat / 4 % 4 = 2
  let qos := data && (byteAt m 0).getLsbD 7
  let four := (byteAt m 1).getLsbD 0 && (byteAt m 1).getLsbD 1
  [if data then byteAt m 0 &&& 0x8F else byteAt m 0, (byteAt m 1 &&& (if qos then 0x47 else 0xC7)) ||| 0x40] ++ a1 ++ a2 ++ a3 ++
    [byteAt m 22 &&& 0x0F, 0] ++ (if four then slice m 24 6 else []) ++
    (if qos then [byteAt m (if four then 30 else 24) &&& 0x0F, 0] else [])

/-- The nonce flags of CCMP: the TID and whether it is a management frame. -/
def macFlags (m : List Byte) : Byte :=
  let type := (byteAt m 0).toNat / 4 % 4
  let four := (byteAt m 1).getLsbD 0 && (byteAt m 1).getLsbD 1
  if type = 0 then 0x10
  else if (byteAt m 0).getLsbD 7 then byteAt m (if four then 30 else 24) &&& 0x0F
  else 0

/-- A frame's text protected by the suite of a slot type 1 to 4. -/
def macSeal (type : Nat) (key m a1 a2 a3 : List Byte) (pn : Nat) (plain : List Byte) : List Byte :=
  if type ≤ 2 then ccmSeal key (macFlags m :: a2 ++ be 6 pn) (macAad m a1 a2 a3) plain (8 * type)
  else gcmSeal key (a2 ++ be 6 pn) (macAad m a1 a2 a3) plain

/-- The plaintext of a frame protected by the suite of a slot type 1 to 4, where its MIC verifies. -/
def macOpen (type : Nat) (key m a1 a2 a3 : List Byte) (pn : Nat) (text : List Byte) : Option (List Byte) :=
  if type ≤ 2 then ccmOpen key (macFlags m :: a2 ++ be 6 pn) (macAad m a1 a2 a3) text (8 * type)
  else gcmOpen key (a2 ++ be 6 pn) (macAad m a1 a2 a3) text

/-- The MIC of a group-addressed management frame or a beacon under a slot of type 5 to 8 (R576). The MIC field of the frame is
0, and a beacon's timestamp counts as 0. -/
def bipMic (type : Nat) (key m : List Byte) (ipn : Nat) : List Byte :=
  let aad := [byteAt m 0, byteAt m 1 &&& 0xC7] ++ slice m 4 18
  let body := if byteAt m 0 = 0x80 then List.replicate 8 0 ++ m.drop 32 else m.drop 24
  if type ≤ 6 then (cmac key (aad ++ body)).take (if type = 5 then 8 else 16)
  else gcmTag key (slice m 10 6 ++ be 6 ipn) (aad ++ body) []

end Sys2Proof.Machine
end

