-- ==== Sys2Proof/Machine/Ops.lean ====
section
/-!
DEFINITION. The shared operations: parts of the state, time, events, host rings, mailboxes and long commands.
-/
namespace Sys2Proof.Machine

/-- A step's outcome. -/
abbrev Out := Host.Outcome State Fault Refusal

/-- The state with its part `pwr` replaced by its image. -/
def State.onPwr (s : State) (f : Pwr → Pwr) : State := { s with pwr := f s.pwr }
/-- The state with its part `outs` replaced by its image. -/
def State.onOuts (s : State) (f : Outs → Outs) : State := { s with outs := f s.outs }
/-- The state with its part `boot` replaced by its image. -/
def State.onBoot (s : State) (f : Boot → Boot) : State := { s with boot := f s.boot }
/-- The state with its part `mbx` replaced by its image. -/
def State.onMbx (s : State) (f : Mbx → Mbx) : State := { s with mbx := f s.mbx }
/-- The state with its part `host` replaced by its image. -/
def State.onHost (s : State) (f : HostIf → HostIf) : State := { s with host := f s.host }
/-- The state with its part `evt` replaced by its image. -/
def State.onEvt (s : State) (f : Evt → Evt) : State := { s with evt := f s.evt }
/-- The state with its part `modes` replaced by its image. -/
def State.onModes (s : State) (f : Modes → Modes) : State := { s with modes := f s.modes }
/-- The state with its part `flt` replaced by its image. -/
def State.onFlt (s : State) (f : Flt → Flt) : State := { s with flt := f s.flt }
/-- The state with its part `cad` replaced by its image. -/
def State.onCad (s : State) (f : Cad → Cad) : State := { s with cad := f s.cad }
/-- The state with its part `clk` replaced by its image. -/
def State.onClk (s : State) (f : Clk → Clk) : State := { s with clk := f s.clk }
/-- The state with its part `fe` replaced by its image. -/
def State.onFe (s : State) (f : Fe → Fe) : State := { s with fe := f s.fe }
/-- The state with its part `cal` replaced by its image. -/
def State.onCal (s : State) (f : Cal → Cal) : State := { s with cal := f s.cal }
/-- The state with its part `air` replaced by its image. -/
def State.onAir (s : State) (f : Air → Air) : State := { s with air := f s.air }
/-- The state with its part `nb` replaced by its image. -/
def State.onNb (s : State) (f : Nb → Nb) : State := { s with nb := f s.nb }
/-- The state with its part `mlad` replaced by its image. -/
def State.onMlad (s : State) (f : Mlad → Mlad) : State := { s with mlad := f s.mlad }
/-- The state with its part `cls` replaced by its image. -/
def State.onCls (s : State) (f : Cls → Cls) : State := { s with cls := f s.cls }
/-- The state with its part `fwd` replaced by its image. -/
def State.onFwd (s : State) (f : Fwd → Fwd) : State := { s with fwd := f s.fwd }
/-- The state with its part `tm` replaced by its image. -/
def State.onTm (s : State) (f : Tm → Tm) : State := { s with tm := f s.tm }
/-- The state with its part `cipher` replaced by its image. -/
def State.onCipher (s : State) (f : Cipher → Cipher) : State := { s with cipher := f s.cipher }
/-- The state with its part `col` replaced by its image. -/
def State.onCol (s : State) (f : Col → Col) : State := { s with col := f s.col }
/-- The state with its part `dram` replaced by its image. -/
def State.onDram (s : State) (f : Dram → Dram) : State := { s with dram := f s.dram }
/-- The state with its part `ring` replaced by its image. -/
def State.onRing (s : State) (f : RingSt → RingSt) : State := { s with ring := f s.ring }

/-- The device emits something. -/
def State.emit (s : State) (e : Emit) : State := { s with out := e :: s.out }

/-- A value that the spec leaves open, and the state after drawing it (Config). -/
def State.draw (s : State) (bound : Nat) : Nat × State := (Config.fresh s.drawn bound % bound, { s with drawn := s.drawn + 1 })

/-! Time (R190 to R194, R742). -/

/-- The beat period in ns (R190). -/
def bpNs (s : State) : Nat := 250000 * 2 ^ s.cad.bpCode

/-- 2^-32 ns of keeper-derived time that n keeper ticks carry under a trim (R211, R742). -/
def keeperSpan (n : Nat) (trim : Int) : Nat := ((n * 1953125 * 2 ^ 26 : Nat) * (10 ^ 12 + trim) / 10 ^ 12 : Int).toNat

/-- The keeper-derived time, in 2^-32 ns (R742). -/
def keeperTod (s : State) : Nat :=
  match s.clk.capture with
  | some c => max s.clk.lastReported (c.t0 + keeperSpan (s.clk.keeper - c.k0) s.clk.trim)
  | none => s.cad.tod

/-- A keeper-derived time is reported: later ones do not fall below it (R742). -/
def noteTime (s : State) : State :=
  if s.modes.mode = 3 then s.onClk fun k => { k with lastReported := keeperTod s } else s

/-- The counter is brought forward to a time of day, ns, where it runs and is behind, and the keeper goes with it; in VIGIL the
keeper alone goes on until its time reaches it (log entry 21). -/
def advanceTo (t : Int) (s : State) : State :=
  match s.modes.mode == 3, s.clk.capture with
  | true, some c =>
    let need : Int := t * 2 ^ 32 - c.t0
    let den : Int := 1953125 * 2 ^ 26 * (10 ^ 12 + s.clk.trim)
    let n := ((need * 10 ^ 12 + den - 1) / den).toNat
    if s.clk.keeper < c.k0 + n then s.onClk fun k => { k with keeper := c.k0 + n, keeperPart := 0 } else s
  | _, _ =>
    if s.cad.run && s.modes.mode != 3 && (s.cad.tod / 2 ^ 32 : Nat) < t then
      let part := s.clk.keeperPart + 64 * (t.toNat - s.cad.tod / 2 ^ 32)
      (s.onCad fun c => { c with tod := t.toNat * 2 ^ 32 }).onClk fun k => { k with
        keeper := (k.keeper + part / 1953125) % 2 ^ 48, keeperPart := part % 1953125 }
    else s

/-- The time of day that readers see, in ns (R742). -/
def nowNs (s : State) : Nat := (if s.modes.mode = 3 then keeperTod s else s.cad.tod) / 2 ^ 32

/-- The error bound of the time of day at the present instant (R201, R202, R204, R742). -/
def errNow (s : State) : Nat :=
  match s.modes.mode == 3, s.clk.capture with
  | true, some c => min 0xFFFFFFFF (c.err0 + 2 + ((keeperTod s - c.t0) * s.cad.kUnc + (2 ^ 32 * 10 ^ 9 - 1)) / (2 ^ 32 * 10 ^ 9))
  | _, _ =>
    if s.cad.state = 2 || s.cad.state = 3 || s.cad.growing then
      min 0xFFFFFFFF (s.cad.hoBound + ((nowNs s - s.cad.hoFrom) * s.cad.hoPpb + (10 ^ 9 - 1)) / 10 ^ 9)
    else s.cad.errBound

/-- CAD_STATE as it reads (R214, R742). -/
def cadStateNow (s : State) : Nat :=
  match s.modes.mode == 3, s.clk.capture with
  | true, some c => c.cadState
  | _, _ => s.cad.state

/-- The beat of a time of day (R191). -/
def beatAt (s : State) (t : Nat) : Nat := ((((t : Int) - s.cad.epoch) / (bpNs s : Int)).emod (2 ^ 48)).toNat

/-- The offset of a time of day in its beat (R191). -/
def offAt (s : State) (t : Nat) : Nat := (((t : Int) - s.cad.epoch).emod (bpNs s : Int)).toNat

/-- The present beat. -/
def curBeat (s : State) : Nat := beatAt s (nowNs s)

/-- The offset of the present instant. -/
def curOff (s : State) : Nat := offAt s (nowNs s)

/-- The time of day at which a beat begins, ns (R191). -/
def beatNs (s : State) (b : Nat) : Nat := s.cad.epoch + b * bpNs s

/-- The beat that a command which affects the air reports (R23). -/
def effBeat (s : State) (air : Bool) : Nat := (curBeat s + if air then 3 else 0) % 2 ^ 48

/-! Counters of Cairn (R707). -/

/-- Count once in a counter of Cairn. -/
def countCairn (i : Nat) (s : State) (k : Nat := 1) : State :=
  s.onFlt fun f => { f with counters := f.counters.modify i fun c => BitVec.ofNat 32 (satAdd 32 c.toNat k) }

/-! MSI-X (R107, R134). -/

/-- Raise an MSI-X vector: where its table entry is masked, its pending bit is set. -/
def raiseVec (v : Nat) (s : State) : State :=
  if (Tab.getD s.host.msixTable (4 * v + 3) 0).getLsbD 0 then
    s.onHost fun h => { h with msixPend := h.msixPend ||| (1 <<< v : BitVec 128) }
  else s.emit (.msix v)

/-! Host rings (R132 to R142). -/

/-- The reset state of a ring: its vector follows its number (R137). -/
def Ring.init (n : Nat) : Ring := { vec := (64 + n) % 128 }

/-- A ring. -/
def getRing (s : State) (n : Nat) : Ring := Tab.getD s.host.rings n (Ring.init n)

/-- Replace a ring by its image. -/
def onRingN (n : Nat) (f : Ring → Ring) (s : State) : State :=
  s.onHost fun h => { h with rings := Tab.upd h.rings n (Ring.init n) f }

/-- Entries of a ring. -/
def Ring.size (g : Ring) : Nat := 2 ^ g.log2

/-- The ring takes what is written to it. -/
def Ring.live (g : Ring) : Bool := g.enabled && !g.stopped

/-- Completions are counted towards the ring's vector, which is raised where moderation lets it (R134). -/
def ringVector (n k : Nat) (s : State) : State :=
  let g := getRing s n
  let c := g.sinceVec + k
  if g.modRunning && c < g.modCount then onRingN n (fun g => { g with sinceVec := c }) s
  else raiseVec g.vec (onRingN n (fun g => { g with sinceVec := 0, modRunning := 0 < g.modUs }) s)

/-- The device's index is written to WB_ADDR and the vector follows (R142). -/
def ringPublish (n k : Nat) (s : State) : State :=
  let g := getRing s n
  ringVector n k (s.emit (.hostMem g.wb (le 4 g.devIdx.toNat)))

/-- A drop on a ring is counted (R130, R132, R141). -/
def ringDrop (n : Nat) (s : State) : State :=
  onRingN n (fun g => { g with dropCount := g.dropCount + 1, drops := BitVec.ofNat 32 (satAdd 32 g.drops.toNat 1), overflow := true }) s

/-! Events (R128 to R131, R739). -/

/-- The severity of an event code (R739). -/
def severity (code : Nat) : Nat :=
  if [0x0283, 0x0482, 0x0C82, 0x0E81, 0x1F80, 0x1F82, 0x1F84].contains code then 3
  else if [0x0081, 0x0082, 0x0181, 0x0182, 0x0183, 0x0282, 0x0381, 0x0382, 0x0386, 0x0480, 0x0481, 0x0483, 0x0485, 0x0581,
    0x0582, 0x0583, 0x0781, 0x0783, 0x0880, 0x0883, 0x0980, 0x0A80, 0x0B81, 0x0B83, 0x0C80, 0x0C81, 0x0D80, 0x0D82,
    0x0E82, 0x0E83, 0x0E84, 0x0F81, 0x0F82, 0x0F84, 0x0F85, 0x0F86, 0x0F89, 0x1F81].contains code then 2
  else if [0x0281, 0x0383, 0x0384, 0x0385, 0x0388, 0x0484, 0x0580, 0x0681, 0x0683, 0x0780, 0x0782, 0x0784, 0x0881, 0x0882,
    0x0884, 0x0B82, 0x0D81, 0x0E80, 0x0F83, 0x0F87, 0x1F83].contains code then 1
  else 0

/-- The 64 bytes of an event record (R128). -/
def recBytes (r : EvtRec) : List Byte :=
  le 2 r.code ++ le 1 r.sev ++ le 1 r.mailbox ++ le 4 r.seq.toNat ++ le 8 r.ts ++ le 6 r.beat ++ le 4 r.offset ++
  le 2 r.cmdSeq.toNat ++ le 4 r.object.toNat ++ pad 32 r.payload

/-- The ring that takes a record, if any (R129, R136). -/
def ringOf (s : State) (code : Nat) : Option Nat :=
  if code = 0x0080 || severity code = 3 || code / 256 = 7 then some 63
  else match Tab.getD s.host.routes (code / 256) 62 with
    | 0xFF => none
    | r => some r

/-- A record is written into the next slot of its ring. -/
def ringPutRec (n : Nat) (r : EvtRec) (s : State) : State :=
  let g := getRing s n
  ringPublish n 1 (onRingN n (fun g => { g with devIdx := g.devIdx + 1, completions := g.completions + 1 })
    (s.emit (.hostMem (g.base + 64 * (g.devIdx.toNat % g.size)) (recBytes r))))

/-- A record is routed to a ring: it is written, or waits, or is dropped (R129, R130). -/
def ringRoute (n : Nat) (r : EvtRec) (s : State) : State :=
  let g := getRing s n
  if !g.live then onRingN n (fun g => { g with waiting := r :: g.waiting }) s
  else if (g.devIdx - g.hostIdx).toNat ≥ g.size - 1 then
    onRingN n (fun g => { g with lost := match g.lost with
      | some (k, a, _) => some (k + 1, a, r.seq)
      | none => some (1, r.seq, r.seq) }) (ringDrop n s)
  else ringPutRec n r s

/-- The MRAM takes bytes. -/
def mramWrite (a : Nat) (b : List Byte) (s : State) : State := s.onBoot fun x => { x with mram := memWrite x.mram a b }

/-- A record is kept in the logs: the log of Summit, and with severity WARNING or FAULT the mirror and the persistent log
(R131, R701, R702). -/
def logRec (r : EvtRec) (s : State) : State :=
  let s := s.onEvt fun e => { e with asleep := false, seq := r.seq, log := (r :: e.log).take 4096,
                                     mirror := if r.sev ≥ 2 then (r :: e.mirror).take 7 else e.mirror }
  if r.sev ≥ 2 || r.code = 0x0180 then
    (mramWrite (0x62000 + 64 * s.evt.persistNext) (recBytes r) s).onEvt fun e => { e with persistNext := (e.persistNext + 1) % 880 }
  else s

/-- The record of a happening at the present instant, with the next sequence number (R30). -/
def mkRec (s : State) (code : Nat) (obj : Option Nat) (payload : List Byte) (mb : Nat := 0xFF) (cmdSeq : W16 := 0) : EvtRec :=
  let t := nowNs s
  { code, sev := severity code, mailbox := mb, seq := s.evt.seq + 1, ts := t, beat := beatAt s t, offset := offAt s t, cmdSeq,
    object := match obj with
      | some o => BitVec.ofNat 32 o
      | none => 0xFFFFFFFF,
    payload }

/-- Raise an event. Summit raises events, so nothing is raised while it does not run. -/
def raise (code : Nat) (obj : Option Nat) (payload : List Byte) (s : State) (mb : Nat := 0xFF) (cmdSeq : W16 := 0) : State :=
  if !s.flt.summitRun then s else
  let r := mkRec s code obj payload mb cmdSeq
  let s := logRec r (noteTime s)
  match ringOf s code with
  | some n => ringRoute n r s
  | none => s

/-- EVENT_LOST is written to the ring that lost records, once a slot is free (R130). -/
def flushLost (n : Nat) (s : State) : State :=
  let g := getRing s n
  match g.lost with
  | some (k, a, b) =>
    if g.live && (g.devIdx - g.hostIdx).toNat < g.size - 1 then
      let r := mkRec s 0x0081 (some n) (le 4 k ++ le 4 a.toNat ++ le 4 b.toNat)
      ringPutRec n r (onRingN n (fun g => { g with lost := none }) (logRec r s))
    else s
  | none => s

/-! Commands (R112 to R122). -/

/-- The parameter field of k bytes at an offset from the start of the header (R113). Bytes beyond LENGTH read 0. -/
def Cmd.u (c : Cmd) (off k : Nat) : Nat := fld c.par (off - 16) k

/-- A signed parameter of k bytes. -/
def Cmd.i (c : Cmd) (off k : Nat) : Int := signed (8 * k) (c.u off k)

/-- Parameter bytes. -/
def Cmd.bytes (c : Cmd) (off k : Nat) : List Byte := slice c.par (off - 16) k

/-- Reserved fields, each an offset and a length, are 0 (R8). -/
def Cmd.zero (c : Cmd) (fs : List (Nat × Nat)) : Bool := fs.all fun f => c.u f.1 f.2 = 0

/-- Reserved bits of a flags byte, above its lowest n, are 0 (R8). -/
def Cmd.flagsBelow (c : Cmd) (off n : Nat) : Bool := c.u off 1 < 2 ^ n

/-- What a command answers: a status, data, whether it affects the air (R23), and whether the response comes later. -/
structure Ans where
  status : Nat := 0
  data : List Byte := []
  air : Bool := false
  later : Bool := false
deriving DecidableEq, Repr

/-- OK with data. -/
def Ans.ok (data : List Byte := []) : Ans := { data }
/-- OK, for a command that affects the air. -/
def Ans.okAir (data : List Byte := []) : Ans := { data, air := true }
/-- An error. -/
def Ans.err (status : Nat) (data : List Byte := []) : Ans := { status, data }
/-- A long command is accepted. -/
def Ans.pending : Ans := { status := 1 }
/-- The response is posted by a later event. -/
def Ans.wait : Ans := { later := true }

/-- E_ARG_RANGE -/
abbrev eArg : Ans := .err 2
/-- E_STATE -/
abbrev eState : Ans := .err 3
/-- E_NO_RESOURCE -/
abbrev eNoRes : Ans := .err 4
/-- E_HW_FAULT -/
abbrev eHw : Ans := .err 5
/-- E_AUTH -/
abbrev eAuth : Ans := .err 6
/-- E_BUSY -/
abbrev eBusy : Ans := .err 7

/-- What the spec says of an opcode: the modes it is permitted in, its reserved fields, the objects it holds, the domains
its blocks lie in, and its effect. -/
structure OpSpec where
  op : Nat
  /-- IDENTIFY or a diagnostic read command (R145) -/
  diag : Bool := false
  modes : Cmd → State → Bool := fun _ _ => true
  rsv : Cmd → Bool := fun _ => true
  objs : Cmd → List Obj := fun _ => []
  needs : Cmd → List Nat := fun _ => []
  body : Cmd → State → Ans × State

/-- The present mode is one of these (R153). -/
def inModes (l : List Nat) (_ : Cmd) (s : State) : Bool := l.contains s.modes.mode

/-- Objects that started long commands hold (R121). -/
def heldObjs (s : State) : List Obj := (s.mbx.longs.filter (·.started)).flatMap (·.objs)

/-- Some object of a list is held. -/
def anyHeld (s : State) (os : List Obj) : Bool := os.any (heldObjs s).contains

/-- PENDING of a mailbox (R119, R121). -/
def pendingOf (s : State) (mb : Nat) : Nat := (s.mbx.longs.filter (·.cmd.mb == mb)).length

/-- A domain. -/
def getDom (s : State) (d : Nat) : Domain := s.modes.doms.getD d {}

/-- Replace a domain by its image. -/
def onDom (d : Nat) (f : Domain → Domain) (s : State) : State := s.onModes fun m => { m with doms := updAt m.doms d f }

/-- A domain is powered: on, on demand, or frozen with power. -/
def domOn (s : State) (d : Nat) : Bool := [1, 3, 4].contains (getDom s d).st

/-- DRAM can be used: trained, its domain on (R90, R177, R653). -/
def dramReady (s : State) : Bool := s.dram.st = 3 && domOn s 5 && s.modes.mode != 7

/-- R91, R117: boot is not yet ready, or a transition is in progress. -/
def shutOut (c : Cmd) (s : State) : Bool :=
  c.path != .replay && (s.modes.trans.isSome || (s.modes.mode = 2 && s.boot.phase = .replay && (s.boot.loader.isNone || c.mb = 2)))

/-- A command's effect with the objects it holds (R121) and the limit of R120. -/
def perform (o : OpSpec) (c : Cmd) (s : State) : Ans × State :=
  let (a, t) := o.body c s
  if a.status = 1 then
    if pendingOf s c.mb ≥ 32 then (eBusy, s)
    else
      let busy := anyHeld s (o.objs c)
      let l : LongCmd := { cmd := c, objs := o.objs c, started := !busy, startNs := nowNs s }
      (a, (if busy then s else t).onMbx fun m => { m with longs := m.longs ++ [l] })
  else if anyHeld s (o.objs c) then (eBusy, s)
  else (a, t)

/-- A command that needs a FAILED domain fails (R181); one that finds a Demand domain off stalls in the bridge and starts its
wake (R176); else it has its effect. -/
def engage (o : OpSpec) (c : Cmd) (s : State) : Ans × State :=
  match (o.needs c).find? fun d => (getDom s d).st = 5 with
  | some d => (.err 0x0202 [BitVec.ofNat 8 d], s)
  | none => match (o.needs c).find? fun d => (getDom s d).st = 0 || (getDom s d).st = 2 with
  | some d =>
    (.wait, (onDom d (fun x => if x.retrying then x else { x with st := 2 }) s).onMbx fun m => { m with stalled := m.stalled ++ [{ dom := d, cmd := c }] })
  | none => perform o c s

/-- The checks of a command and its effect: R114 (reserved fields), R91 and R117, the mode, then what it needs and does. -/
def judge (o : OpSpec) (c : Cmd) (s : State) : Ans × State :=
  if !o.rsv c then (eArg, s)
  else if !o.diag && shutOut c s then (eBusy, s)
  else if !o.modes c s then (eState, s)
  else engage o c s

/-- A mailbox page. -/
def getPage (s : State) (mb : Nat) : MbPage := s.mbx.pages.getD mb {}

/-- Replace a mailbox page by its image. -/
def onPage (mb : Nat) (f : MbPage → MbPage) (s : State) : State := s.onMbx fun m => { m with pages := updAt m.pages mb f }

/-- The effective beat of a response or CMD_DONE (R23, R113). -/
def effOf (s : State) (a : Ans) : Nat := if a.status = 0 then effBeat s a.air else 0xFFFFFFFFFFFF

/-- The bytes of a response (R113). -/
def rspBytes (s : State) (c : Cmd) (a : Ans) : List Byte :=
  le 2 a.status ++ le 2 c.seq.toNat ++ le 2 a.data.length ++ [0, 0] ++ le 6 (effOf s a) ++ [0, 0] ++ a.data

/-- CMD_DONE is raised for a command (R119, R128). -/
def cmdDone (c : Cmd) (a : Ans) (s : State) : State :=
  raise 0x0080 none (le 2 c.op ++ le 2 a.status ++ le 6 (effOf s a) ++ le 1 (min 20 a.data.length) ++ [0] ++ pad 20 a.data) s c.mb c.seq

/-- The position of a ring device in a PATH. -/
def pathIdx (p : List Nat) (d : Nat) : Option Nat := p.findIdx? (· == d)

/-- Entries of a PATH (R663). -/
def pathLen (p : List Nat) : Nat := (p.filter (· != 0xFF)).length

/-- Hops to a device over a port: 0 E, 1 W (R663). -/
def hopsTo (s : State) (port d : Nat) : Option Nat :=
  let p := (s.ring.ports.getD port {}).path
  (pathIdx p d).map fun i => pathLen p - i

/-- The 16 bytes of a ring header (R664). -/
def ringHdr (type origin dst hops len tc flags beat seq : Nat) : List Byte :=
  be 1 type ++ be 1 origin ++ be 1 dst ++ be 1 hops ++ be 2 len ++ be 1 tc ++ be 1 flags ++ be 6 beat ++ be 2 seq

/-- A frame joins the frames that wait at a ring port, in a class of R667. -/
def ringWait (port cls : Nat) (f : List Byte) (s : State) : State :=
  s.onRing fun r => { r with ports := updAt r.ports port fun p => { p with wait := p.wait ++ [(cls, f)] } }

/-- Devices of a roster, as a count. -/
def rosterSize (m : Nat) : Nat := ((List.range 8).filter (bit m)).length

/-- Send a message of this device on the ring (R664 to R667): to one device by the port with fewer hops, or to all. -/
def ringSend (type dst cls tc : Nat) (body : List Byte) (s : State) : State :=
  let me := s.pwr.ringId.toNat
  let q := s.ring.seq.getD type 0
  let fr (port hops : Nat) := ringHdr type me dst hops body.length tc port (curBeat s) q ++ body
  let s' := s.onRing fun r => { r with seq := setAt r.seq type ((q + 1) % 65536) }
  if dst = 0x0F then
    let n := rosterSize s.ring.roster
    let whole := [0, 1].all fun p => pathLen (s.ring.ports.getD p {}).path ≥ n
    if whole then ringWait 0 cls (fr 0 (n - 1)) s'
    else
      let k (p : Nat) := pathLen (s.ring.ports.getD p {}).path
      ringWait 1 cls (fr 1 (k 1)) (ringWait 0 cls (fr 0 (k 0)) s')
  else if !bit s.ring.roster dst then s.onRing fun r => { r with ctr := bump r.ctr 3 }
  else match hopsTo s 0 dst, hopsTo s 1 dst with
    | some e, some w => if e ≤ w then ringWait 0 cls (fr 0 e) s' else ringWait 1 cls (fr 1 w) s'
    | some e, none => ringWait 0 cls (fr 0 e) s'
    | none, some w => ringWait 1 cls (fr 1 w) s'
    | none, none => s.onRing fun r => { r with ctr := bump r.ctr 3 }

/-- A response goes back over the ring to the master that sent the COMMAND (R673). -/
def ringBack (c : Cmd) (bytes : List Byte) (last : Bool) (s : State) : State :=
  match s.ring.back.find? fun b => b.2 == c.seq with
  | some b => (ringSend 4 b.1 3 0 bytes s).onRing fun r => if last then { r with back := r.back.erase b } else r
  | none => s

/-- A response is posted (R116), and CMD_DONE after it where NOTIFY asks for one. A replayed record leaves its status for the
replay (R89). -/
def post (c : Cmd) (a : Ans) (s : State) : State :=
  if a.later then s else
  let s := match c.path with
    | .replay => s.onBoot fun b => { b with recStatus := some a.status }
    | p =>
      let r := rspBytes s c a
      let s := onPage c.mb (fun g => { g with rsp := patch g.rsp 0 r, lastSeq := c.seq, busy := false, done := true }) s
      let s := if p == .ring then ringBack c r (a.status != 1) s else s
      let g := getPage s c.mb
      if g.irqEn then raiseVec g.vec.toNat s else s
  if c.flags.getLsbD 0 && a.status != 1 then cmdDone c a s else s

/-- A long command ends: its CMD_DONE is raised, then PENDING falls (R119). -/
def endLong (l : LongCmd) (a : Ans) (s : State) : State :=
  let s := cmdDone l.cmd a s
  let s := match l.cmd.path with
    | .replay => s.onBoot fun b => { b with recStatus := some a.status }
    | .ring => match s.evt.log.head? with
      | some r => ringBack l.cmd (recBytes r) true s
      | none => s
    | _ => s
  s.onMbx fun m => { m with longs := m.longs.erase l }

/-- The first long command that runs with an opcode and satisfies a test. -/
def findLong (s : State) (op : Nat) (p : Cmd → Bool := fun _ => true) : Option LongCmd :=
  s.mbx.longs.find? fun l => l.started && l.cmd.op == op && p l.cmd

/-- End the long command that runs with an opcode, if one does. -/
def endOp (op : Nat) (a : Ans) (s : State) (p : Cmd → Bool := fun _ => true) : State :=
  match findLong s op p with
  | some l => endLong l a s
  | none => s

/-- The command that a doorbell starts, from the page's CMD area (R114). -/
def copyCmd (mb : Nat) (path : Path) (value : W16) (cmd : List Byte) : Cmd :=
  { mb, op := fld cmd 0 2, seq := value, flags := byteAt cmd 2, par := slice cmd 16 (min 496 (fld cmd 6 2)), path }

/-- The header's own checks (R8, R114): LENGTH, reserved bits and fields. -/
def hdrOk (cmd : List Byte) : Bool :=
  fld cmd 6 2 ≤ 496 && byteAt cmd 2 &&& 0xFE == 0 && byteAt cmd 3 == 0 && fld cmd 8 8 = 0

/-- The bytes that a command's header and parameters put into a CMD area (R112). -/
def cmdArea (op : Nat) (d : Doorbell) (p : List Byte) : List Byte :=
  le 2 op ++ [d.flags, d.rsv3] ++ le 2 d.seq.toNat ++ le 2 d.length.toNat ++ le 8 d.rsv8.toNat ++ p.take 496

/-- Summit takes a copied command: the header's checks, then the opcode's. -/
def serve (o : Option OpSpec) (c : Cmd) (seqOk hdr : Bool) (s : State) : State :=
  if !seqOk then post c eArg (onPage c.mb (fun g => { g with mismatch := true }) s)
  else if !hdr then post c eArg s
  else match o with
    | none => post c eArg s
    | some o => let (a, t) := judge o c s; post c a t

/-- Whether a write to a mailbox's CMD area and DOORBELL reaches it by a path (R64, R110, R111, R126). -/
def mayWrite (mb : Nat) (path : Path) (s : State) : Bool :=
  match path with
  | .bar => s.host.link && mb != 3 && (mb != 2 || (getPage s 2).hostWriteEn)
  | .svc => mb == 2 && s.modes.mode != 0 && !s.outs.z
  | .ring => mb == 3
  | .replay => false

/-- A write that does not reach a mailbox: it is discarded, and counted where the spec counts it (R110, R126). The words are
the header, the parameters and the doorbell. -/
def refuseWrite (mb : Nat) (path : Path) (words : Nat) (s : State) : State :=
  match path with
  | .bar => if s.host.link && mb == 3 then countCairn 25 s words else s
  | .svc => if mb != 2 && s.modes.mode != 0 && !s.outs.z then (countCairn 28 s).onMbx fun m => { m with svcRejected := true } else s
  | _ => s

/-- The device ends SAFE, HOLD or OFF as its mode says nothing more: Summit takes no command (R109). -/
def noSupervisor (s : State) : Bool := !s.flt.summitRun

/-- A doorbell is written with the CMD area as it stands: it starts the command, or is discarded (R115), or the command is
recorded (R740). -/
def ringBell (o : Option OpSpec) (mb : Nat) (path : Path) (value : W16) (s : State) : State :=
  let s := (onPage mb (fun g => { g with doorbell := value }) s).onEvt fun e => { e with asleep := false }
  let g := getPage s mb
  let c := copyCmd mb path value g.cmd
  -- R588: the key of KEK_PROVISION is cleared from MB2 when the command is copied
  let s := if mb = 2 && c.op = 0x0C03 && !g.busy && g.recorded.isNone then onPage 2 (fun g => { g with cmd := List.replicate 512 0 }) s else s
  let overrun (s : State) := countCairn 26 (onPage mb (fun g => { g with overrun := true }) s)
  if noSupervisor s then
    if g.recorded.isSome then overrun s
    else onPage mb (fun g => { g with cairnDone := false, recorded := some { cmd := c, seqOk := fld g.cmd 4 2 = value.toNat, hdrOk := hdrOk g.cmd } }) s
  else if g.busy then overrun s
  else serve o c (fld g.cmd 4 2 = value.toNat) (hdrOk g.cmd) (onPage mb (fun g => { g with busy := true, done := false }) s)

/-- The host, the service port or Ridgeline writes a command into a mailbox and rings its doorbell. -/
def mailbox (op : Nat) (o : Option OpSpec) (d : Doorbell) (p : List Byte) (s : State) : State :=
  let mb := d.mb.val
  if mayWrite mb d.path s then
    ringBell o mb d.path d.value (onPage mb (fun g => { g with cmd := patch g.cmd 0 (cmdArea op d p) }) s)
  else refuseWrite mb d.path (5 + (p.length + 3) / 4) s

/-- The effect of a command row. -/
def command (o : OpSpec) (d : Doorbell) (p : List Byte) (s : State) : Out := .next (mailbox o.op (some o) d p s)

end Sys2Proof.Machine
end

