-- ==== Sys2Proof/Machine/Pools.lean ====
section
/-!
DEFINITION. Packet memory: the pools, and where a packet is stored (R550 to R552).
-/
namespace Sys2Proof.Machine

/-- Cells of a packet of a length (R550). -/
def cellsOf (n : Nat) : Nat := (n + 255) / 256

/-- Cells of frames, on chip or in DRAM. -/
def frameCells (dram : Bool) (l : List Frame) : Nat := sumOf ((l.filter fun f => f.dram == dram).map fun f => cellsOf f.bytes.length)

/-- Cells of an egress queue, on chip or in DRAM. -/
def Queue.cellsIn (q : Queue) (dram : Bool) : Nat := sumOf ((q.q.filter fun p => p.dram == dram).map (·.cells))

/-- Cells of an egress queue. -/
def Queue.depth (q : Queue) : Nat := q.cellsIn false + q.cellsIn true

/-- Cells of the queue of a host ring. -/
def hostCells (s : State) (n : Nat) : Nat := sumOf ((getRing s n).queue.map fun k => cellsOf k.bytes.length)

/-- Frames of the access-class queues and of plans, which hold no bounded-flow frames there. -/
def airFrames (s : State) : List Frame :=
  (s.air.stas.flatMap fun e => e.2.q.flatten) ++
  ((s.air.m.plans ++ s.air.h.plans).flatMap fun e => e.2.ppdus.flatMap fun p => p.users.flatMap (·.frames))

/-- Cells of the group and management queues. -/
def groupCells (x : AirBand) : Nat := sumOf (x.group.map fun g => cellsOf g.2.bytes.length) + sumOf (x.mgmt.map fun g => cellsOf g.2.length)

/-- Cells of packets that wait for Col or in its reorder buffer. -/
def colCells (s : State) : Nat :=
  sumOf (s.col.tasks.flatMap fun t => t.2.queue.map fun p => cellsOf p.pkt.bytes.length) +
  sumOf (s.col.rob.map fun r => cellsOf r.2.pkt.pkt.bytes.length)

/-- Cells in use of the shared pool. -/
def sharedUsed (s : State) : Nat :=
  sumOf (s.tm.ports.flatMap fun p => p.qs.map fun q => q.cellsIn false) + sumOf (s.host.rings.map fun r => hostCells s r.1) +
  frameCells false (airFrames s) + groupCells s.air.m + groupCells s.air.h + colCells s

/-- SHARED_FREE_CELLS: the 32 MB of packet memory without the bounded-flow pool, and what is in use of it (R550). -/
def sharedFree (s : State) : Nat := 131072 - 4 * s.tm.bfKb - sharedUsed s

/-- Cells of the DRAM pool that may be used: those below the watermark of the zeroing (R562, R635). -/
def dramCells (s : State) : Nat :=
  if s.dram.zeroed then 4096 * s.tm.dramMb else min (4096 * s.tm.dramMb) ((s.dram.watermark - 0x46800000) / 256)

/-- DRAM_FREE_CELLS (R550). -/
def dramFree (s : State) : Nat :=
  dramCells s - (sumOf (s.tm.ports.flatMap fun p => p.qs.map fun q => q.cellsIn true) + frameCells true (airFrames s))

/-- SHARED_LOW_CELLS follows (R564). -/
def noteLow (s : State) : State := s.onTm fun t => { t with low := min t.low (sharedFree s) }

/-- Where place() puts a packet (R552). -/
inductive Stored where
  | chip | dram | wbFull | bufDrop
deriving DecidableEq, Repr

/-- The C4 write buffer has no room for a packet of n cells (R641). -/
def wbFull (s : State) (n : Nat) : Bool := 2097152 < s.dram.wb + 256 * n

/-- A packet of n cells goes through the C4 write buffer (R641). -/
def wbPut (n : Nat) (s : State) : State := s.onDram fun d => { d with wb := d.wb + 256 * n }

/-- A placement has found the C4 write buffer full (R641). -/
def wbMissed (s : State) : State := s.onDram fun d => { d with ctr := bump d.ctr 7 }

/-- place() but for the queue's own limit (R552): ALPHA_LOG2, DRAM_EN, the queue's cells on chip, the packet's cells. -/
def storeIn (s : State) (alpha : Int) (dramEn : Bool) (chip n : Nat) : Stored :=
  if 8 * (chip + n) ≤ 2 ^ (alpha + 3).toNat * sharedFree s then .chip
  else if dramEn && n ≤ dramFree s && dramReady s then (if wbFull s n then .wbFull else .dram)
  else .bufDrop

end Sys2Proof.Machine
end

