-- ==== Sys2Proof/Machine/Ledger.lean ====
section
/-!
DEFINITION. Times of the narrowband air, tuner codes, and the dwell and duty-cycle ledger (R416, R425, R437 to R441).
-/
namespace Sys2Proof.Machine

/-- Bits per ms of a transceiver, so that Tb is its inverse (R416). -/
def Xcvr.rate (x : Xcvr) : Nat := x.kbaud * (if x.mod = 2 then 2 else 1)

/-- The time of n bits, ns, rounded up. -/
def Xcvr.bits (x : Xcvr) (n : Nat) : Nat := (n * 10 ^ 6 + x.rate - 1) / max 1 x.rate

/-- Twice the Carson bandwidth, kHz (R416). -/
def Xcvr.carson2 (x : Xcvr) : Nat := if x.mod = 0 then 3 * x.kbaud else 4 * x.kbaud

/-- Bytes of the FCS. -/
def Xcvr.fcsLen (x : Xcvr) : Nat := if x.fcs = 0 then 4 else 2

/-- The airtime of a frame of n bytes, FCS not counted (R425). -/
def Xcvr.airtime (x : Xcvr) (n : Nat) : Nat := x.bits (8 * (x.pre + 4 + n + x.fcsLen))

/-- The PA-on time D of a request: both ramps, and the PPDU or the burst's probes of 20 µs (R425, R436). -/
def Xcvr.paOn (x : Xcvr) (q : NbReq) : Nat :=
  2000 * x.ramp + (if q.kind = .tuner then 20000 * q.probes.length else x.airtime q.psdu.length)

/-- CCA_T (R433). -/
def Xcvr.ccaT (x : Xcvr) : Nat := max (1000 * x.ccaUs) (x.bits 8)

/-- The wait for an ACK after the end of a frame (R461). -/
def Xcvr.ackWait (x : Xcvr) : Nat := 1200000 + x.bits (8 * (x.pre + 2))

/-- The centre of a channel of the plan, Hz (R419). -/
def nbCentre (s : State) (c : Nat) : Nat := s.nb.base * 1000 + c * s.nb.spacing

/-- The code pair of a channel: its own, or that of the tuned channel nearest in frequency (R437). -/
def codesOf (x : Xcvr) (c : Nat) : Nat × Nat :=
  let far (k : Nat) : Nat := ((k : Int) - c).natAbs
  match x.codes.foldl (fun (b : Option (Nat × (Nat × Nat))) e => match b with
      | none => some e
      | some m => if far e.1 < far m.1 then some e else some m) none with
  | some e => e.2
  | none => (16, 16)

/-! Keeper ticks (R438). -/

/-- The keeper count at a time of day not before now. -/
def tickAt (s : State) (t : Nat) : Nat :=
  match s.modes.mode == 3, s.clk.capture with
  | true, some c => c.k0 + (((t : Int) * 2 ^ 32 - c.t0) * 10 ^ 12 / (1953125 * 2 ^ 26 * (10 ^ 12 + s.clk.trim))).toNat
  | _, _ => s.clk.keeper + (s.clk.keeperPart + 64 * (t - nowNs s)) / 1953125

/-- The time of day, ns, by which a keeper count not before now has been reached. -/
def tickNs (s : State) (k : Nat) : Nat :=
  match s.modes.mode == 3, s.clk.capture with
  | true, some c => (c.t0 + keeperSpan (k - c.k0) s.clk.trim + (2 ^ 32 - 1)) / 2 ^ 32
  | _, _ => nowNs s + ((k - s.clk.keeper) * 1953125 - s.clk.keeperPart + 63) / 64

/-- Ticks of a dwell bucket. -/
def dwellTicks (s : State) : Nat := (s.nb.window * 32768 + 19) / 20

/-- Ticks of a duty bucket. -/
def dutyTicks : Nat := 1966080

/-- The sub-band of a channel. -/
def subOf (s : State) (c : Nat) : Option Nat :=
  s.nb.subs.findIdx? fun b => b.low * 1000 ≤ nbCentre s c && nbCentre s c < b.high * 1000

/-- The charges of a record in a bucket and the k before it. -/
def chargeIn (r : Tab Nat) (b k : Nat) : Nat := sumOf ((r.filter fun e => b ≤ e.1 + k && e.1 ≤ b).map (·.2))

/-- The dwell charge of a channel at a time (R439). -/
def dwellAt (s : State) (c t : Nat) : Nat := chargeIn (Tab.getD s.nb.dwell c []) (tickAt s t / max 1 (dwellTicks s)) 20

/-- The duty charge of a sub-band at a time (R440). -/
def dutyAt (s : State) (j t : Nat) : Nat := chargeIn (Tab.getD s.nb.duty j []) (tickAt s t / dutyTicks) 60

/-- The first ledger test that a transmission of PA-on time d on a channel fails at a time, if any: the outcome (R439, R440). -/
def ledgerFails (s : State) (c d t : Nat) : Option Nat :=
  if s.nb.dwellEn && s.nb.maxCum * 10 ^ 6 < dwellAt s c t + d then some 0x0822
  else match s.nb.dutyEn, subOf s c with
    | true, some j => if ((s.nb.subs[j]?).map (·.duty)).getD 0 * 360 * 10 ^ 6 < dutyAt s j t + d then some 0x0823 else none
    | _, _ => none

/-- The earliest instant from t on at which both tests pass, before a limit; else the outcome of the test that fails last. -/
def ledgerFrom (s : State) (c d latest : Nat) : Nat → Nat → Nat → Nat ⊕ Nat
  | 0, _, o => .inr o
  | n + 1, t, o =>
    if latest ≤ t then .inr o
    else match ledgerFails s c d t with
      | none => .inl t
      | some o =>
        let k := if o = 0x0822 then max 1 (dwellTicks s) else dutyTicks
        ledgerFrom s c d latest n (max (t + 1) (tickNs s ((tickAt s t / k + 1) * k))) o

/-- Records older than a window add nothing; they are dropped. -/
def chargePut (r : Tab Nat) (b d k : Nat) : Tab Nat := (Tab.upd r b 0 (· + d)).filter fun e => b ≤ e.1 + k

/-- PA-on time that has just ended is charged (R438). -/
def charge (c d : Nat) (s : State) : State :=
  let t := nowNs s
  let b := tickAt s t / max 1 (dwellTicks s)
  let s := s.onNb fun n => { n with dwell := Tab.upd n.dwell c [] fun r => chargePut r b d 20 }
  match subOf s c with
  | some j => s.onNb fun n => { n with duty := Tab.upd n.duty j [] fun r => chargePut r (tickAt s t / dutyTicks) d 60 }
  | none => s

/-- A DUTY_BLOCKED outcome: the first since a transmission in the sub-band began raises NB_DUTY_LIMIT (R440). -/
def dutyLimit (c : Nat) (s : State) : State :=
  match subOf s c with
  | some j =>
    if ((s.nb.subs[j]?).map (·.armed)).getD false then
      raise 0x0882 none (le 1 j ++ [0, 0, 0] ++ le 4 (dutyAt s j (nowNs s) / 10 ^ 6))
        (s.onNb fun n => { n with subs := updAt n.subs j fun b => { b with armed := false } })
    else s
  | none => s

/-- DWELL_CONFIG (R441, R447). -/
def specDwellConfig : OpSpec where
  op := 0x0803
  modes := inModes [2, 3, 4, 5, 6]
  rsv c := c.flagsBelow 16 2 && c.zero [(18, 2), (28, 4)] && c.zero ((List.range (min 8 (c.u 17 1))).map fun j => (42 + 12 * j, 2))
  body c s :=
    let n := c.u 17 1
    let subs : List SubBand := (List.range (min 8 n)).map fun j => { low := c.u (32 + 12 * j) 4, high := c.u (36 + 12 * j) 4, duty := c.u (40 + 12 * j) 2 }
    let w := c.u 22 2
    let clash := subs.zipIdx.any fun a => subs.zipIdx.any fun b => a.2 < b.2 && a.1.low < b.1.high && b.1.low < a.1.high
    if 8 < n || c.u 20 2 < 1 || 4000 < c.u 20 2 || w < 1 || 3600 < w || c.u 24 4 < 1 || w * 1000 < c.u 24 4 ||
        (subs.any fun b => b.high ≤ b.low || b.duty < 1 || 10000 < b.duty) || clash then (eArg, s)
    else
      let same := (s.nb.subs.map fun b => (b.low, b.high, b.duty)) == subs.map fun b => (b.low, b.high, b.duty)
      let newW := w != s.nb.window
      let s := s.onNb fun b => { b with
        dwellEn := bit (c.u 16 1) 0, dutyEn := bit (c.u 16 1) 1, maxTx := c.u 20 2, window := w, maxCum := c.u 24 4
        subs := if same then b.subs else subs }
      let k := tickAt s (nowNs s)
      let s := if newW then s.onNb fun b => { b with dwell := (List.range b.count).map fun i => (i, [(k / max 1 (dwellTicks s), b.maxCum * 10 ^ 6)]) } else s
      (.ok, if same then s else s.onNb fun b => { b with
        duty := subs.zipIdx.map fun x => (x.2, [(k / dutyTicks, x.1.duty * 360 * 10 ^ 6)]) })

/-- DWELL_CONFIG. -/
def execDwellConfig (d : Doorbell) (p : List Byte) (s : State) : Out := command specDwellConfig d p s

end Sys2Proof.Machine
end

