-- ==== Sys2Proof/Machine/Life.lean ====
section
/-!
DEFINITION. What the device's life consists of: leaving VIGIL, entering modes, SAFE and its fault record, HOLD, restarts.
-/
namespace Sys2Proof.Machine

/-! Leaving VIGIL (R194, R211, R212). -/

/-- Scheduled actions in order of their beats: insertion into a sorted list. -/
def insBeat (a : Nat × Nat × Option Nat) : List (Nat × Nat × Option Nat) → List (Nat × Nat × Option Nat)
  | [] => [a]
  | b :: t => if a.1 < b.1 then a :: b :: t else b :: insBeat a t

/-- A wideband band's scheduled lists with the expired ones removed. -/
def AirBand.expire (b0 b1 : Nat) (a : AirBand) : AirBand :=
  { a with turns := a.turns.filter fun t => t.applied || t.runLate || t.from_ < b0 || b1 < t.from_,
           gates := a.gates.filter fun g => g.runLate || g.from_ < b0 || b1 < g.from_ }

/-- The actions of a wideband band that expire: beat, opcode, object. -/
def AirBand.expired (band b0 b1 : Nat) (a : AirBand) : List (Nat × Nat × Option Nat) :=
  ((a.turns.filter fun t => !(t.applied || t.runLate || t.from_ < b0 || b1 < t.from_)).map fun t => (t.from_, 0x0606, some band)) ++
  ((a.gates.filter fun g => !(g.runLate || g.from_ < b0 || b1 < g.from_)).map fun g => (g.from_, 0x0607, some band))

/-- A port's next gate list expires. -/
def Port.expires (b0 b1 : Nat) (p : Port) : Bool :=
  match p.next with
  | some g => !(g.runLate || g.from_ < b0 || b1 < g.from_)
  | none => false

/-- Actions scheduled for beats slept through: those without RUN_LATE are discarded and reported (R212). -/
def expireSleep (b0 b1 : Nat) (s : State) : State :=
  let ports := s.tm.ports.zipIdx
  let acts := s.air.m.expired 0 b0 b1 ++ s.air.h.expired 1 b0 b1 ++
    ((ports.filter fun p => p.1.expires b0 b1).map fun p => ((p.1.next.map (·.from_)).getD 0, 0x0B03, some p.2)) ++
    (if s.cad.stepSum.isSome then [(b0 + 1, 0x0304, none)] else [])
  let s := s.onAir fun a => { a with m := a.m.expire b0 b1, h := a.h.expire b0 b1 }
  let s := s.onTm fun t => { t with ports := t.ports.map fun p => if p.expires b0 b1 then { p with next := none } else p }
  let s := s.onCad fun c => { c with stepSum := none }
  (acts.foldr insBeat []).foldl (fun s a => raise 0x0385 a.2.2 (le 2 a.2.1 ++ [0, 0] ++ le 6 a.1) s) s

/-- Cairn loads the counter from the keeper (R211 step 3). -/
def loadCounter (s : State) : State :=
  match s.clk.capture with
  | none => s
  | some c =>
    let t1 := max (keeperTod s) (if s.clk.lastReported = 0 then 0 else s.clk.lastReported + 2 ^ 32)
    let err := c.err0 + 2 + ((t1 - c.t0) * s.cad.kUnc + (2 ^ 32 * 10 ^ 9 - 1)) / (2 ^ 32 * 10 ^ 9)
    (s.onCad fun x => { x with tod := t1, run := true, errBound := min err 0xFFFFFFFF, growing := false }).onClk fun k => { k with capture := none, lastReported := 0 }

/-- VIGIL is left for a mode other than HOLD, not by a restart (R211, R212): the counter is restored, the cadence is COASTED or
FREE, and expired actions are reported. The mode is still VIGIL. -/
def leaveVigil (s : State) : State :=
  match s.clk.capture with
  | none => s
  | some c =>
    let n := s.clk.keeper - c.k0
    let b0 := beatAt s (c.t0 / 2 ^ 32)
    let s := loadCounter s
    let s := s.onModes fun m => { m with mode := 4 }
    let b1 := curBeat s
    let s := s.onCad fun x => { x with state := if x.source = 3 then 5 else 4, markRun := none, realign := .none,
                                       incr := if x.source = 3 then x.incr else 0x100000000 - (x.freq * 0x100000000).floor.toNat }
    let s := raise 0x0384 none (le 8 n ++ leI 4 s.clk.trim ++ le 4 s.cad.errBound) s
    -- R422: without a cadence source the hopping transceivers return at once
    let s := if s.cad.state = 4 then s else s.onNb fun n => { n with x := n.x.map fun x => { x with moveDue := x.hopping } }
    -- R463: held frames move back to DRAM
    let s := s.onMlad fun m => { m with moving := m.store.any fun f => !f.dram }
    -- R545: every shaper restarts from 0
    let s := s.onTm fun t => { t with ports := t.ports.map fun p => { p with qs := p.qs.map fun q => { q with credit := 0, acc := 0, last := nowNs s } } }
    (expireSleep b0 b1 s).onModes fun m => { m with mode := 3 }

/-! Outputs that follow from the mode (R55). -/

/-- The device is cadence master (R206, R671). -/
def isMaster (s : State) : Bool := s.cad.masterEn && (s.pwr.ringRole != 2 || s.ring.acting)

/-- Ring transmitters in a mode. -/
def ringTxOf (s : State) (mode : Nat) : RingTx :=
  if mode = 1 then (if s.pwr.pwrOk && s.pwr.refclkSerdes then .passThrough else .disabled)
  else if s.pwr.ringRole = 3 then .disabled
  else if mode = 2 || mode = 7 then .passThrough
  else if mode = 3 then .rendezvous
  else if s.ring.txOn then .ridgeline else .disabled

/-- Transmitters of UP0 to UP3 in a mode: the enabled ports, of the chain pair once inserted. -/
def upTxOf (s : State) (mode : Nat) : BitVec 4 :=
  let up (i : Nat) : Bool :=
    let on := (s.tm.ports.getD i {}).enable && !(s.tm.chainEn && (i = 2 || i = 3) && !s.tm.chainTx)
    if mode = 3 then on && (s.modes.vigilUplink = i || (s.modes.vigilUplink = 5 && (i = 2 || i = 3)))
    else on && (mode = 4 || mode = 5 || mode = 6)
  BitVec.ofNat 4 (b2n (up 0) + 2 * b2n (up 1) + 4 * b2n (up 2) + 8 * b2n (up 3))

/-- A group of a band has an enabled chain (R234). -/
def Band.groupOn (b : Band) (g : Nat) : Bool := ((b.chains.drop (8 * g)).take 8).any (·.enabled)

/-- The line mask of the groups of both bands that have an enabled chain: band M in bits 11:0, band H in bits 23:12. -/
def groupLines (s : State) : BitVec 24 :=
  BitVec.ofNat 24 (sumOf ((List.range 12).map fun g => (if s.fe.m.groupOn g then 2 ^ g else 0) + (if s.fe.h.groupOn g then 2 ^ (12 + g) else 0)))

/-- The outputs that follow from the mode and the configuration (R55). -/
def refreshOuts (s : State) : State :=
  let m := s.modes.mode
  if m = 0 || m = 7 || s.outs.z then s
  else s.onOuts fun o => { o with
    upTx := upTxOf s m
    mgtTx := (s.tm.ports.getD 4 {}).enable && (m = 4 || m = 5 || m = 6 || (m = 3 && s.modes.vigilUplink = 4))
    ringTx := ringTxOf s m
    pcieTx := 2 ≤ m
    ddr := if m = 1 then .reset else if m = 3 then .selfRefresh else if m = 2 && s.dram.st != 3 then o.ddr else .active
    cadOut := isMaster s && 4 ≤ m && m ≤ 6 && [1, 2, 3, 5].contains s.cad.state
    rffe := 4 ≤ m && m ≤ 6
    lnaen := if m = 5 then groupLines s &&& ~~~o.trsw else if m = 6 && s.fe.survey.isSome then groupLines s else 0
    paen := o.paen &&& groupLines s
    trsw := o.trsw &&& groupLines s
    faultN := m = 1 }

/-- All outputs high-impedance (R51). -/
def outsZ : Outs := { z := true, faultN := false, ringTx := .z, ddr := .z }

/-- Outputs in their SAFE states, after the sequence of R698. -/
def outsSafe (s : State) : Outs :=
  { faultN := true, ringTx := if s.pwr.ringRole = 3 then .disabled else .passThrough, pcieTx := s.outs.pcieTx, ddr := .frozen }

/-! Modes and domains (R153, R160). -/

/-- The domains that a mode needs (R160). -/
def needed (mode : Nat) : List Nat :=
  match mode with
  | 2 => [0, 1]
  | 3 => [0, 1, 2, 3]
  | 4 | 5 | 6 => [0, 1, 2, 3, 4, 5, 6, 7]
  | 7 => [0, 1]
  | 1 => [0]
  | _ => []

/-- A domain's state on entry to a mode: FAILED stays, SAFE freezes what was powered. -/
def domIn (mode d : Nat) (x : Domain) : Domain :=
  if mode = 7 then (if d ≥ 2 && (x.st = 1 || x.st = 3 || x.st = 2) then { x with st := 4 } else if d < 2 then { x with st := 1 } else x)
  else if x.st = 5 then x
  else if (needed mode).contains d then { x with st := 1 }
  else { x with st := 0, retrying := false }

/-- Blocks of a domain that loses power: their counters and queues restart from zero, their configuration is shadowed
(R163). -/
def dropDomain (d : Nat) (s : State) : State :=
  if d = 4 then s.onCol fun c => { c with
    cores := (c.cores.zipIdx.map fun x => if x.2 < 32 then ({} : Core) else x.1),
    tasks := c.tasks.map fun t => (t.1, { t.2 with flags := 0, queue := [] }),
    rob := [], ctr := zeroed c.ctr, trace := [], wr := 0, full := false, views := [], hist := zeroed c.hist }
  else if d = 6 then (s.onAir fun a => { a with phyM := { a.phyM with ctr := zeroed a.phyM.ctr, rx := 0, banks := [[], []] } }).onFe fun f =>
    { f with m := { f.m with sa := 0, sb := 0, loReady := false, rffe := [[], [], []], outc := f.m.outc.map fun _ => 0 } }
  else if d = 7 then (s.onAir fun a => { a with phyH := { a.phyH with ctr := zeroed a.phyH.ctr, rx := 0, banks := [[], []] } }).onFe fun f =>
    { f with h := { f.h with sa := 0, sb := 0, loReady := false, rffe := [[], [], []], outc := f.h.outc.map fun _ => 0 } }
  else s

/-- The synthesizers of a band as a mode has them (R226): both locked, the standby tracked, or both off. -/
def Band.synths (on : Bool) (b : Band) : Band :=
  if on then { b with sa := if b.sa = 4 then 4 else 2, sb := if b.sb = 4 then 4 else 2, tracked := true, loReady := true }
  else { b with sa := if b.sa = 4 then 4 else 0, sb := if b.sb = 4 then 4 else 0, tracked := false, loReady := false }

/-- A mode is reached: domains, outputs and synthesizers follow, and MODE_CHANGED is raised (R154, R160, R183). -/
def enterMode (mode cause us : Nat) (s : State) : State :=
  let from_ := s.modes.mode
  let lost := if mode = 3 then [4, 5, 6, 7] else []
  let s := lost.foldl (fun s d => dropDomain d s) s
  -- R678: the lanes of the ring are down in VIGIL but for its windows
  let s := if mode = 3 then s.onRing fun r => { r with lastRdv := none, window := false, arrived := false, misses := 0, g := r.guardUs,
                                                       ports := r.ports.map fun p => { p with up := false, wait := [] } } else s
  let s := s.onModes fun m => { m with mode, target := if m.trans.isSome then m.target else mode, lastCause := cause,
                                       doms := m.doms.zipIdx.map fun x => domIn mode x.2 x.1 }
  let s := s.onModes fun m => { m with sinceNs := nowNs s }
  let s := s.onFe fun f => { f with m := f.m.synths (4 ≤ mode && mode ≤ 6), h := f.h.synths (4 ≤ mode && mode ≤ 6) }
  raise 0x0280 none (le 1 from_ ++ le 1 mode ++ le 1 cause ++ [0] ++ le 4 (min us 0xFFFFFFFF)) (refreshOuts s)

/-! Temperatures (R697, R737). -/

/-- The hottest of k sensors from one on. -/
def hottest (s : State) (i k : Nat) : Int := ((s.flt.sensors.drop i).take k).foldl max (s.flt.sensors.getD i 0)

/-- The readings of Cairn: TJ_CORE, TJ_RFM and TJ_RFH, 0.25 C (R697). -/
def tjs (s : State) : List Int := [hottest s 0 8, hottest s 8 12, hottest s 20 12]

/-! The fault record (R700, R701). -/

/-- A fault-record slot's MRAM address (R702). -/
def slotAddr (n : Nat) : Nat := 0x60000 + 512 * n

/-- The record of a fault, but for EVENTS, CRC32 and COMMIT (R701). -/
def faultHead (code : Nat) (s : State) : List Byte :=
  let t := nowNs s
  le 4 0x46524543 ++ le 4 (s.flt.faultSeq.toNat + 1) ++ le 1 code ++ le 1 s.modes.mode ++ le 1 s.modes.target ++
  le 1 (b2n s.flt.summitHeld + 2 * ((memGet s.dram.freeze 0).toNat % 2) + 4 * b2n s.pwr.onRc) ++
  le 4 s.flt.mask.toNat ++ le 8 t ++ le 6 (beatAt s t) ++ le 1 s.boot.active.toNat ++
  le 1 (sumOf ((List.range 8).map fun d => if domOn s d then 2 ^ d else 0)) ++ le 4 (offAt s t) ++ le 4 s.flt.heartbeat.toNat ++
  le 4 s.evt.seq.toNat ++ pad 8 s.flt.detail ++ leI 2 ((tjs s).getD 0 0) ++ leI 2 (max ((tjs s).getD 1 0) ((tjs s).getD 2 0))

/-- The last-gasp write starts, into the slot after the newest: its COMMIT is written as 0 (R700). -/
def startGasp (code : Nat) (s : State) : State :=
  let go (s : State) :=
    let slot := match s.flt.newest with
      | some n => (n + 1) % 16
      | none => 0
    (mramWrite (slotAddr slot + 508) [0, 0, 0, 0] s).onFlt fun f => { f with gasp := .writing slot (faultHead code s) (code = 12), gaspDone := false }
  match s.flt.gasp with
  | .idle => go s
  | .writing _ _ _ => s
  | .done _ pl => if code = 12 && !pl then go s else s

/-- The mirror's records, oldest first, in 448 bytes (R701). -/
def mirrorBytes (s : State) : List Byte := pad 448 (s.evt.mirror.reverse.flatMap recBytes)

/-- The last-gasp write completes (R700): the slot holds the record, and the window shows it. That the one write of a stay in SAFE is done
is remembered for that stay: after a restart or an edge of RESET_N the next trigger writes again. -/
def endGasp (s : State) : State :=
  match s.flt.gasp with
  | .writing slot head pl =>
    let body := head.take 12 ++ le 4 s.flt.mask.toNat ++ head.drop 16 ++ mirrorBytes s
    let img := body ++ le 4 (crc32 body) ++ le 4 0xA5C33C5A
    (mramWrite (slotAddr slot) img s).onFlt fun f => { f with gasp := if s.modes.mode = 7 && !s.boot.restarting then .done slot pl else .idle, gaspDone := true, recValid := true, window := img,
                                                              newest := some slot, faultSeq := f.faultSeq + 1 }
  | _ => s

/-! SAFE (R688 to R698). -/

/-- A cause is counted in SAFE_ENTRIES and added to CAUSE_MASK while the record's word has not been written (R690, R707). -/
def addCause (code : Nat) (s : State) : State :=
  (countCairn (code - 1) s).onFlt fun f => match f.gasp with
    | .done _ _ => f
    | _ => { f with mask := f.mask ||| (1 <<< code : BitVec 32) }

/-- SAFE_ENTERED (R691, R710). -/
def raiseSafe (code : Nat) (later : Bool) (s : State) : State :=
  raise 0x1F80 none (le 1 code ++ le 1 (b2n later) ++ [0, 0] ++ le 4 s.flt.mask.toNat) s

/-- Nanoseconds in SERVE that SERVE_S does not hold yet (R708). -/
def servedNs (s : State) : Nat :=
  s.flt.serveNs + (match s.flt.serveFrom with
    | some t => nowNs s - t
    | none => 0)

/-- SERVE_S at the present instant: whole seconds of all the time spent in SERVE (R708). -/
def servedS (s : State) : Nat := s.flt.serveS + servedNs s / 10 ^ 9

/-- An outage begins (R708). -/
def beginOutage (s : State) : State :=
  if s.modes.mode = 5 then s.onFlt fun f => { f with
      outages := satAdd 32 f.outages 1, outageFrom := some (nowNs s),
      serveS := servedS s, serveNs := servedNs s % 10 ^ 9, serveFrom := none }
  else s

/-- Narrowband transmissions that the hardwired sequence ends are charged for the time their PA was on (R443). -/
def chargeHalted (s : State) : State :=
  s.nb.x.foldl (fun s x => match x.tx with
    | some t => if t.sensing then s else charge x.ch (min t.d (nowNs s - t.at_)) s
    | none => s) s

/-- What the radios, the buses and the engines do when the hardwired sequence takes the outputs (R226, R241, R283, R443, R698):
transmissions, measurements, tests and transactions end. -/
def haltRadios (s : State) : State :=
  let band (b : Band) : Band := { (b.synths false) with rffe := [[], [], []], mmGroup := none, retune := none, switchAt := none, guardBeat := none }
  let s := s.onFe fun f => { f with m := band f.m, h := band f.h, test := none, survey := none }
  let s := s.onAir fun a => { a with m := { a.m with onAir := none }, h := { a.h with onAir := none } }
  let s := chargeHalted s
  let s := s.onNb fun n => { n with x := n.x.map fun x =>
    { x with tx := none, tune := none, reqs := [], handed := none, hold := none, st := if 2 ≤ x.st && x.st ≤ 4 then 1 else x.st } }
  s.onCal fun c => { c with run := none }

/-- Bypass switches are released, the ring and the chain pair with them (R70, R555, R676). -/
def releaseSwitches (s : State) : State :=
  (s.onRing fun r => { r with st := if r.st = 0 then 0 else 3, txOn := false, acting := false, master := none, due := false, retryFrom := none, takeAt := none, claim := none,
                              ports := r.ports.map fun p => { p with up := false, wait := [] } }).onTm fun t =>
    { t with chain := if t.chain = 0 then 0 else 3, chainTx := false, chainDue := false }

/-- Long commands and transitions end without result (R169, R691); the cause's own MODE_SET stays. -/
def endAllLongs (keep : Cmd → Bool) (s : State) : State :=
  let s := s.onMbx fun m => { m with longs := m.longs.filter fun l => keep l.cmd }
  let s := s.onModes fun m => { m with trans := none, target := m.mode, wakeHeld := none, agents := m.agents.map fun a => { a with st := .idle, final := false } }
  s.onBoot fun b => { b with storeJobs := [], loadJobs := [], loader := none, waitLong := false, autoOn := false,
                             phase := if b.phase = .sequence then .sequence else .done,
                             stageOwner := if b.storeJobs.isEmpty then b.stageOwner else none }

/-- SAFE is entered with a cause and its DETAIL (R688 to R692, R698): from any mode but OFF and HOLD, or from the boot that runs
in HOLD. A cause that arises in SAFE is added. -/
def enterSafe (code : Nat) (detail : List Byte) (s : State) (keep : Cmd → Bool := fun _ => false) : State :=
  if s.modes.mode = 0 then s
  else if s.modes.mode = 1 && s.boot.phase != .sequence then s
  else if s.modes.mode = 7 && !s.boot.restarting then raiseSafe code true (addCause code s)
  else
    let s := if s.modes.mode = 3 then leaveVigil s else s
    let s := beginOutage s
    let s := s.onFlt fun f => { f with cause := code, mask := 0, detail := pad 8 detail }
    let s := addCause code s
    let s := startGasp code s
    let s := haltRadios (releaseSwitches (endAllLongs keep s))
    let s := s.onOuts fun _ => outsSafe s
    let s := s.onBoot fun b => { b with phase := .done, stage := if code = 1 && b.phase = .sequence then 0xF
        else if code = 10 || code = 11 then 0xE else b.stage, restarting := false }
    let s := s.onDram fun d => if d.st = 2 then { d with st := 1 } else d
    enterMode 7 3 0 (raiseSafe code false s)

/-! HOLD and restarts (R61, R79, R194, R703, R741). -/

/-- The host rings, the vectors and the link as the endpoint's reset leaves them (R64). -/
def HostIf.initial : HostIf := {}

/-- What of the narrowband radio survives restarts: the ledger, which lives in D0 (R438). -/
def nbKept (s : State) : Nb :=
  { dwellEn := s.nb.dwellEn, dutyEn := s.nb.dutyEn, maxTx := s.nb.maxTx, window := s.nb.window, maxCum := s.nb.maxCum, subs := s.nb.subs,
    dwell := s.nb.dwell, duty := s.nb.duty }

/-- The device enters HOLD (R61): everything but the supplies, straps and Cairn's lasting state is at its reset value. Recorded
commands are discarded. The last-gasp write goes on. -/
def enterHold (s : State) : State :=
  let o : Outs := { ringTx := if s.pwr.pwrOk && s.pwr.refclkSerdes then .passThrough else .disabled, z := s.outs.z }
  { pending := s.pending, drawn := s.drawn, out := s.out
    pwr := { s.pwr with onRc := true, gpioDir := 0, gpioLevel := 0, gpioPull := 0xFFFF, profSel := 0, ringRole := 0, ringId := 0, bootHalt := false }
    outs := if s.outs.z then outsZ else o
    boot := { mram := s.boot.mram, mramBad := s.boot.mramBad, calRetired := s.boot.calRetired, calSlices := s.boot.calSlices }
    evt := { mirror := s.evt.mirror, persistNext := s.evt.persistNext }
    flt := { s.flt with cause := 0, mask := s.flt.mask, summitHeld := false, summitRun := false, heartbeat := 0, recValid := false,
                        gaspDone := false, serveFrom := none, autoDue := false,
                        outageMs := s.flt.outageMs + (s.flt.outageFrom.map fun t => (nowNs s - t) / 10 ^ 6).getD 0,
                        outageFrom := s.flt.outageFrom.map fun _ => 0 }
    clk := { keeper := s.clk.keeper, keeperPart := s.clk.keeperPart }
    nb := nbKept s
    cipher := { kek0 := s.cipher.kek0, locked := s.cipher.locked, kcv := s.cipher.kcv, provBeat := s.cipher.provBeat }
    dram := { freeze := s.dram.freeze } }

/-- What a boot starts from, whatever started it (R30, R196, R572): every block at its defaults, Cairn's lasting state kept. -/
def bootState (s : State) : State :=
  { pending := s.pending, drawn := s.drawn, out := s.out, pwr := { s.pwr with gpioDir := 0, gpioLevel := 0, gpioPull := 0xFFFF }, outs := s.outs
    boot := { mram := s.boot.mram, mramBad := s.boot.mramBad, calRetired := s.boot.calRetired, calSlices := s.boot.calSlices, sel := s.boot.sel, active := s.boot.active, cause := s.boot.cause,
              phase := .sequence, stage := 1, restarting := true }
    mbx := { pages := [{}, { vec := 1 },
                { (getPage s 2) with busy := false, done := false, cairnDone := false, recorded := (getPage s 2).recorded, doorbell := (getPage s 2).doorbell },
                { vec := 3 }],
             svcRejected := s.mbx.svcRejected }
    host := {}
    evt := { mirror := s.evt.mirror, persistNext := s.evt.persistNext }
    modes := { mode := s.modes.mode, target := s.modes.mode, lastCause := s.modes.lastCause, sinceNs := nowNs s }
    flt := { s.flt with
      summitHeld := false, summitRun := false, heartbeat := 0, serveFrom := none, autoDue := false,
      gasp := match s.flt.gasp with
        | .writing n i p => .writing n i p
        | _ => .idle }
    cad := { tod := s.cad.tod, incr := s.cad.incr, run := s.cad.run, freq := 1 - (s.cad.incr : Rat) / 0x100000000,
             source := if s.pwr.ringRole = 0 || s.pwr.ringRole = 2 then 2 else 0,
             errBound := if s.clk.coasted.isSome then s.cad.errBound else 0xFFFFFFFF }
    clk := { keeper := s.clk.keeper, keeperPart := s.clk.keeperPart, trim := s.clk.trim, coasted := s.clk.coasted }
    nb := nbKept s
    cipher := { kek0 := s.cipher.kek0, locked := s.cipher.locked, kcv := s.cipher.kcv, provBeat := s.cipher.provBeat }
    dram := { freeze := s.dram.freeze } }

/-- A restart from step 2 of R703 on: D1 to D7 lose power and the boot starts at step 2 of R85. Commands recorded before are
discarded (R740). The mode reads SAFE until BOOT. -/
def restart (s : State) : State :=
  let s := if s.modes.mode = 3 then
      (loadCounter s).onClk fun k => { k with coasted := s.clk.capture.map fun c => s.clk.keeper - c.k0 }
    else s
  let s := onPage 2 (fun g => { g with recorded := none }) s
  let s := s.onModes fun m => { m with mode := 7 }
  let t := bootState (s.onBoot fun b => { b with active := b.sel.getD s.pwr.profSel, cause := 5 })
  t.onOuts fun _ => outsSafe s

end Sys2Proof.Machine
end

