-- ==== Sys2Proof/Machine/NbBase.lean ====
section
/-!
DEFINITION. Narrowband transceivers and Mladmer nodes: access, channels, moves, and the failing of frames (R420 to R422, R461,
R462, R473).
-/
namespace Sys2Proof.Machine

/-! Transceivers. -/

/-- A transceiver. -/
def getX (s : State) (i : Nat) : Xcvr := s.nb.x.getD i {}

/-- Replace a transceiver by its image. -/
def onX (i : Nat) (f : Xcvr → Xcvr) (s : State) : State := s.onNb fun n => { n with x := updAt n.x i f }

/-- Count in the counters of a transceiver (R449). -/
def countX (i c : Nat) (s : State) (k : Nat := 1) : State := onX i (fun x => { x with ctr := bump x.ctr c k }) s

/-- Transceivers work in VIGIL, WARM and SERVE (R414). -/
def nbLive (s : State) : Bool := 3 ≤ s.modes.mode && s.modes.mode ≤ 5 && domOn s 2

/-- Beats are not counted for hopping: from the commit of the entry to VIGIL until the cadence leaves COASTED (R422). -/
def hopHold (s : State) : Bool :=
  s.modes.mode = 3 || s.cad.state = 4 || (s.modes.trans.map fun t => t.stage = 3 && t.committed) == some true

/-- The hop slot of the present beat (R420). -/
def slotNow (s : State) (x : Xcvr) : Nat := curBeat s / max 1 x.hopBeats

/-- The channel that a transceiver is assigned (R420, R422). -/
def assignedCh (s : State) (x : Xcvr) : Nat :=
  if !x.hopping then x.fixedCh
  else if hopHold s then x.vigilCh
  else x.hopSeq.getD ((slotNow s x + x.hopOffset) % max 1 x.hopSeq.length) 0

/-- Transceivers that share a channel with an enabled one of lower index are silent, and each that becomes so counts HOP_COLLIDE
(R421). -/
def collisions (s : State) : State :=
  s.onNb fun n => { n with x := n.x.zipIdx.map fun p =>
    let hit := p.1.enable && (n.x.zipIdx.any fun q => q.2 < p.2 && q.1.enable && q.1.ch = p.1.ch)
    { p.1 with collide := hit, ctr := if hit && !p.1.collide then bump p.1.ctr 19 else p.1.ctr } }

/-- A transceiver retunes to a channel (R420, R423): it neither transmits nor receives until its synthesizer locks. -/
def retuneX (i ch : Nat) (s : State) : State :=
  collisions (onX i (fun x => if x.st = 6 then { x with ch, moveDue := false }
    else { x with ch, st := if x.enable then 5 else 0, tried := false, moveDue := false }) s)

/-- Transceivers that are to move do so where they are idle: in SEARCH, with no transmission begun (R422). -/
def nbMoves (s : State) : State :=
  (List.range 4).foldl (fun s i =>
    let x := getX s i
    if x.moveDue && x.st = 1 && x.tx.isNone then retuneX i (assignedCh s x) s else s) s

/-! Nodes and frames (R461, R462, R473, R476). -/

/-- Count in the counters of the MAC (R479). -/
def countMlad (i : Nat) (s : State) (k : Nat := 1) : State := s.onMlad fun m => { m with ctr := bump m.ctr i k }

/-- A node. -/
def getNode (s : State) (n : Nat) : Option Node := Tab.get? s.mlad.nodes n

/-- Replace a listed node by its image. -/
def onNode (n : Nat) (f : Node → Node) (s : State) : State :=
  match getNode s n with
  | some x => s.onMlad fun m => { m with nodes := Tab.set m.nodes n (f x) }
  | none => s

/-- Count in the counters of a node (R476). -/
def countNode (n i : Nat) (s : State) : State := onNode n (fun x => { x with ctr := bump x.ctr i }) s

/-- fail(f, reason) of R461: the frame is gone, TX_FAILED counts, and NB_TX_FAILED is raised for a REPORT node. -/
def failNb (f : NbFrame) (reason attempts last : Nat) (cookie : W64) (s : State) : State :=
  let s := countNode f.node 2 (countMlad 14 s)
  let s := if reason = 3 then countNode f.node 6 s else if reason = 4 || reason = 5 then countNode f.node 7 s else s
  if ((getNode s f.node).map fun n => n.flags.getLsbD 2).getD false then
    raise 0x0884 (some f.node) (le 1 reason ++ le 1 (min 8 attempts) ++ le 2 f.seq.toNat ++ le 2 last ++ [0, 0] ++ le 8 cookie.toNat) s
  else s

/-- A held frame leaves the store and fails: 3 HELD_EXPIRED, 4 STORE_FULL, 5 NODE_FULL, 6 REMOVED, 1 RETRY (R462). -/
def dropHeld (f : HeldFrame) (reason : Nat) (s : State) : State :=
  let s := s.onMlad fun m => { m with store := m.store.filter fun g => g.key != f.key }
  let s := if reason = 3 then countMlad 18 s else if reason = 4 then countMlad 16 s else if reason = 5 then countMlad 17 s else s
  failNb f.frame reason f.attempts f.last f.cookie s

/-- NBMC keeps the newest 2,048 held frames on chip (R172, R463). -/
def trimHeld (s : State) : State :=
  let s := (s.mlad.store.take (s.mlad.store.length - 2048)).foldl (fun s f => dropHeld f 4 s) s
  s.onMlad fun m => { m with store := m.store.map fun f => { f with dram := false }, moving := false }

end Sys2Proof.Machine
end

