-- ==== Sys2Proof/Machine/Trans.lean ====
section
/-!
DEFINITION. Mode transitions: the entry handshake, its commit and its abort, the stages of a transition, wakes.
-/
namespace Sys2Proof.Machine

/-- The next mode on the way to a mode (R154, R155). -/
def nextMode (m final : Nat) : Nat := if m = 4 then final else 4

/-- A stage is an entry: it needs the handshake (R164). -/
def isEntry (m t : Nat) : Bool := (m = 5 && t = 4) || (m = 6 && t = 4) || (m = 4 && t = 3)

/-- The first FAILED domain that a mode needs (R182). -/
def failedFor (s : State) (mode : Nat) : Option Nat := (needed mode).find? fun d => (getDom s d).st = 5

/-- The first FAILED domain that a mode, or WARM on the way to it, needs. -/
def failedOnWay (s : State) (final : Nat) : Option Nat := failedFor s (if s.modes.mode = 4 then final else 4)

/-- The RESULT of MODE_SET (R184). -/
def modeResult (agent reason dom : Nat) (t : Trans) (s : State) : List Byte :=
  [BitVec.ofNat 8 s.modes.mode, BitVec.ofNat 8 agent, BitVec.ofNat 8 reason, BitVec.ofNat 8 dom] ++
  le 4 (min 0xFFFFFFFF ((nowNs s - t.startNs) / 1000)) ++ le 4 (min 0xFFFFFFFF (t.hsSum / 1000))

/-- AUTOSTART_STOPPED (R743, R94). -/
def autoStopped (reason agent refusal dom : Nat) (s : State) : State :=
  raise 0x0183 none ([BitVec.ofNat 8 s.modes.mode, BitVec.ofNat 8 reason, BitVec.ofNat 8 agent, BitVec.ofNat 8 refusal, BitVec.ofNat 8 dom])
    (s.onBoot fun b => { b with stage := 8, autoOn := false, phase := .done })

/-- A transition ends with a status (R154, R167, R182, R184, R743). -/
def finishTrans (status agent reason dom : Nat) (s : State) : State :=
  match s.modes.trans with
  | none => s
  | some t =>
    let s := s.onModes fun m => { m with trans := none, target := m.mode }
    match t.by_ with
    | .wake => s
    | .autostart =>
      if status = 0 then s.onBoot fun b => { b with stage := 8, autoOn := false, phase := .done }
      else autoStopped (if status = 0x0201 then 2 else 3) agent reason dom s
    | .modeSet c =>
      match s.mbx.longs.find? fun l => l.cmd == c with
      | some l => endLong l { status, data := modeResult agent reason dom t s, air := true } s
      | none => s

/-- The entry is aborted (R167, R168, R170): the agents return to their states. -/
def abortEntry (agent reason : Nat) (s : State) : State :=
  match s.modes.trans with
  | none => s
  | some t =>
    let back (a : Agent) : Bool := match a.st with
      | .accepted => true
      | .delayed _ => true
      | _ => false
    let s := s.onModes fun m => { m with
      aborted := satAdd 32 m.aborted 1
      wakeAborts := if agent = 0xFF then satAdd 32 m.wakeAborts 1 else m.wakeAborts
      wakeHeld := none
      agents := m.agents.map fun a => { a with abort := if back a then satAdd 32 a.abort 1 else a.abort, st := .idle, final := false }
      trans := some { t with handshaking := false, hsSum := t.hsSum + (nowNs s - t.hsNs) } }
    let s := (List.range 16).foldl (fun s a => s.emit (.cancel a)) s
    let s := raise 0x0281 (if agent = 0xFF then none else some agent)
      [BitVec.ofNat 8 t.stage, BitVec.ofNat 8 agent, BitVec.ofNat 8 reason] s
    finishTrans 0x0201 agent reason 0xFF s

/-- An agent refuses (R164, R165, R170). -/
def refuseEntry (a reason : Nat) (s : State) : State :=
  abortEntry a reason (s.onModes fun m => { m with
    agents := updAt m.agents a fun x => { x with refuse := satAdd 32 x.refuse 1, last := reason, st := .idle } })

/-- The handshake of the stage begins: ENTER goes to all agents (R164, R168). -/
def startHandshake (s : State) : State :=
  match s.modes.trans with
  | none => s
  | some t =>
    let s := s.onModes fun m => { m with
      attempted := satAdd 32 m.attempted 1
      agents := m.agents.map fun a => { a with st := .waiting, final := false }
      trans := some { t with handshaking := true, committed := false, hsNs := nowNs s } }
    let s := (List.range 16).foldl (fun s a => s.emit (.enter a t.stage)) s
    if t.stage = 3 && s.modes.wakeHeld.isSome then abortEntry 0xFF 0x0E s else s

/-- Domains that a stage powers up begin to wake (R174). -/
def wakeFor (mode : Nat) (s : State) : State :=
  s.onModes fun m => { m with
    doms := m.doms.zipIdx.map fun x =>
      if (needed mode).contains x.2 && x.1.st = 0 then { x.1 with st := 2 } else x.1 }

/-- A stage of the transition begins. -/
def startStage (s : State) : State :=
  match s.modes.trans with
  | none => s
  | some t =>
    let stage := nextMode s.modes.mode t.final
    match failedFor s stage with
    | some d => finishTrans 0x0202 0xFF 0 d s
    | none =>
      let s := s.onModes fun m => { m with trans := some { t with stage, stageNs := nowNs s, handshaking := false, committed := false } }
      if isEntry s.modes.mode stage then startHandshake s else wakeFor stage s

/-- A transition to a mode begins (R154, R155). -/
def beginTrans (by_ : TransBy) (final cause : Nat) (force : Bool) (s : State) : State :=
  let t : Trans := { by_, final, stage := final, cause, force, startNs := nowNs s }
  startStage (s.onModes fun m => { m with trans := some t, target := final })

/-- Autostart begins, or the device rests in BOOT-ready (R87, R92). -/
def autostart (s : State) : State :=
  let a := s.boot.autostart
  if a = 0 || s.pwr.bootHalt then s.onBoot fun b => { b with phase := .ready, stage := 6 }
  else beginTrans .autostart a 1 false (s.onBoot fun b => { b with phase := .autostart, stage := 7, autoOn := true })

/-- VIGIL is woken by a source (R179). -/
def vigilWake (src obj : Nat) (s : State) : State :=
  let s := raise 0x0284 (some obj) ([BitVec.ofNat 8 src, 0, 0, 0] ++ le 4 obj) s
  beginTrans .wake s.modes.warmTarget 2 false s

/-- A wake source is asserted (R168, R179). -/
def wakeSource (src obj : Nat) (s : State) : State :=
  if !s.modes.wakeSources.getLsbD src then s
  else match s.modes.trans with
  | some t =>
    if t.final = 3 then
      if t.stage = 3 && t.handshaking && !t.committed then abortEntry 0xFF 0x0E s
      else s.onModes fun m => { m with wakeHeld := some (m.wakeHeld.getD (src, obj)) }
    else s
  | none => if s.modes.mode = 3 then vigilWake src obj s else s

/-! The commit (R166, R157, R172, R211, R645). -/

/-- Cairn captures the keeper and the counter (R211 step 2). -/
def captureClock (s : State) : State :=
  s.onClk fun k => { k with capture := some { k0 := k.keeper, t0 := s.cad.tod, err0 := errNow s, cadState := s.cad.state }, lastReported := 0 }

/-- TMGR drops the packets that are still in DRAM (R172). -/
def drainDrop (s : State) : State :=
  let onPorts := sumOf (s.tm.ports.flatMap fun p => p.qs.map fun q => (q.q.filter (·.dram)).length)
  let onAir := sumOf (s.air.stas.flatMap fun e => e.2.q.map fun q => (q.filter (·.dram)).length)
  let s := s.onAir fun a => { a with stas := a.stas.map fun e => (e.1, { e.2 with q := e.2.q.map fun q => q.filter fun f => !f.dram }) }
  s.onTm fun t => { t with
    drain := satAdd 32 t.drain (onPorts + onAir)
    ports := t.ports.map fun p => { p with qs := p.qs.map fun q => { q with q := q.q.filter fun x => !x.dram } } }

/-- The keeper alarm's count (R213). -/
def alarmCount (s : State) : Option Nat :=
  match s.clk.capture with
  | none => none
  | some c =>
    if s.modes.alarmBeat = 0 then none
    else
      let need : Int := (s.cad.epoch + s.modes.alarmBeat * bpNs s) * 2 ^ 32 - c.t0
      if need ≤ 0 then some c.k0
      else
        let num : Int := need * 10 ^ 12
        let den : Int := 1953125 * 2 ^ 26 * (10 ^ 12 + s.clk.trim)
        some (c.k0 + ((num + den - 1) / den).toNat)

/-- The DRAM goes to self refresh (R645). -/
def selfRefresh (s : State) : State :=
  s.onDram fun d => if d.st = 3 then { d with st := 4, debt := [], wb := 0, rows := [], replay := [] } else d

/-- The domains that VIGIL does not need lose their supply (R172). -/
def vigilDoms (s : State) : State :=
  s.onModes fun m => { m with
    doms := m.doms.zipIdx.map fun x =>
      if [4, 5, 6, 7].contains x.2 && x.1.st != 5 then { x.1 with st := 0 } else x.1 }

/-- What the commit of an entry to VIGIL does beside (R172, R211, R645). -/
def vigilCommit (s : State) : State :=
  vigilDoms (selfRefresh (nbMoves ((drainDrop (trimHeld (captureClock s))).onNb fun n =>
    { n with x := n.x.map fun x => { x with moveDue := x.hopping } })))

/-- The entry commits (R166). -/
def commitEntry (s : State) : State :=
  match s.modes.trans with
  | none => s
  | some t =>
    let now := nowNs s
    let s := s.onModes fun m => { m with
      committedN := satAdd 32 m.committedN 1
      agents := m.agents.map fun a => { a with st := .idle, final := false }
      trans := some { t with handshaking := false, committed := true, hsSum := t.hsSum + (now - t.hsNs), commitBeat := curBeat s } }
    if t.stage = 3 then vigilCommit s else s

/-! Insertion of the ring and of the chain pair (R661, R554). -/

/-- Step 1 of ring insertion. -/
def ringInsert (s : State) : State :=
  refreshOuts ((s.onRing fun r => { r with
    st := 1, began := true, due := false, insNs := nowNs s, insSettle := r.settle, insWait := r.wait, insRetry := r.retry, txOn := false,
    retryFrom := none, acting := false, master := none, silent := false, conflict := false, agree := 0, claim := none, takeAt := none,
    ports := r.ports.map fun p => { p with up := false, wait := [], path := List.replicate 8 0xFF, beat := none } }).onOuts fun o => { o with bypRing := true })

/-- Step 1 of chain insertion. -/
def chainInsert (s : State) : State :=
  refreshOuts ((s.onTm fun t => { t with
    chain := 1, chainNs := nowNs s, chainSettle := t.settle, chainWait := t.wait, chainTx := false, chainDue := false,
    ports := t.ports.zipIdx.map fun p => if p.2 = 2 || p.2 = 3 then { p.1 with link := false } else p.1 }).onOuts fun o => { o with bypChain := true })

/-- What entering WARM starts (R661, R554). -/
def warmEntry (s : State) : State :=
  let s := if s.pwr.ringRole != 3 && s.ring.enable && !s.ring.blocked && ((!s.ring.began && s.ring.st = 0) || s.ring.due) then ringInsert s else s
  if s.tm.chainEn && (s.tm.chain = 0 || s.tm.chainDue) then chainInsert s else s

/-- Availability at a return to SERVE (R708). -/
def serveEntry (s : State) : State :=
  s.onFlt fun f => { f with
    outageMs := f.outageMs + (match f.outageFrom with
      | some t => (nowNs s - t) / 10 ^ 6
      | none => 0)
    outageFrom := none, serveFrom := some (nowNs s) }

/-- Time in SERVE is added when it is left (R708). -/
def serveLeave (s : State) : State :=
  s.onFlt fun f => { f with
    serveS := servedS s
    serveNs := servedNs s % 10 ^ 9
    serveFrom := none }

/-- A stage reaches its mode: MODE_CHANGED, then the next stage or the end (R154, R155, R168). `calOk` tells whether stored
calibration is valid for every enabled chain (R93). -/
def stageReached (calOk : Bool) (s : State) : State :=
  match s.modes.trans with
  | none => s
  | some t =>
    let from_ := s.modes.mode
    let s := if from_ = 3 then nbMoves (leaveVigil s) else if from_ = 5 then serveLeave s else s
    let us := (nowNs s - t.stageNs) / 1000
    let s := s.onModes fun m => { m with target := t.final }
    let s := enterMode t.stage t.cause us s
    let s := if from_ = 2 then s.onBoot fun b => if b.autoOn then b else { b with stage := 8, phase := .done } else s
    let s := if t.stage = 4 then warmEntry s else if t.stage = 5 then serveEntry s else s
    let s := if t.stage = 3 then s.onClk fun k => { k with alarm := alarmCount s } else s
    if t.stage = t.final then
      let s := finishTrans 0 0xFF 0 0xFF s
      match s.modes.mode == 3, s.modes.wakeHeld with
      | true, some (src, obj) => wakeSource src obj (s.onModes fun m => { m with wakeHeld := none })
      | _, _ => s
    else if t.by_ = .autostart && t.final = 5 && !calOk then
      autoStopped 1 0xFF 0 0xFF (s.onModes fun m => { m with trans := none, target := m.mode })
    else startStage s

end Sys2Proof.Machine
end

