-- ==== Sys2Proof/Machine/Power.lean ====
section
/-!
DEFINITION. Supplies, reset and safety pins, reference clocks, PCIe link events, the watchdog, the fault causes and restarts.
-/
namespace Sys2Proof.Machine

/-- Do something where a condition holds: an event that cannot happen in a state leaves it unchanged (log entry 20). -/
def onlyIf (c : Bool) (f : State → State) (s : State) : State := if c then f s else s

/-- What survives without VDD_AON: MRAM, fuses and what the fault region and the availability record hold (R76, R101, R708). -/
def powerless (s : State) : State :=
  { pending := s.pending, drawn := s.drawn, out := s.out
    pwr := { vddAon := false, vddIo := s.pwr.vddIo, pwrOk := s.pwr.pwrOk, resetN := s.pwr.resetN, safeN := s.pwr.safeN,
             perstN := s.pwr.perstN, refclkRf := s.pwr.refclkRf, refclkSerdes := s.pwr.refclkSerdes, refclkPcie := s.pwr.refclkPcie,
             gpioIn := s.pwr.gpioIn }
    outs := outsZ
    boot := { mram := s.boot.mram, mramBad := s.boot.mramBad, calRetired := s.boot.calRetired, calSlices := s.boot.calSlices }
    evt := { persistNext := s.evt.persistNext }
    modes := { mode := 0, target := 0, doms := List.replicate 8 {} }
    flt := { newest := s.flt.newest, faultSeq := s.flt.faultSeq, serveS := s.flt.serveS, serveNs := s.flt.serveNs, outages := s.flt.outages,
             outageMs := s.flt.outageMs, lossPending := s.flt.lossPending, sensors := s.flt.sensors }
    cipher := { kek0 := s.cipher.kek0, locked := s.cipher.locked, kcv := s.cipher.kcv, provBeat := s.cipher.provBeat } }

/-- The outputs as HOLD leaves them (R55, R56). -/
def outsHold (s : State) : Outs := { ringTx := if s.pwr.pwrOk && s.pwr.refclkSerdes then .passThrough else .disabled }

/-- A power loss in SERVE begins an outage that runs from the next rising edge of RESET_N (R708). -/
def lossOutage (s : State) : State :=
  if s.modes.mode = 5 then (serveLeave s).onFlt fun f => { f with outages := satAdd 32 f.outages 1, lossPending := true } else s

/-- POWER_ON (R75 step 1). -/
def execPowerOn (s : State) : Out :=
  .next (onlyIf (!s.pwr.vddAon) (fun s =>
    let s := powerless s
    { s with pwr := { s.pwr with vddAon := true, vddIo := false, pwrOk := false },
             modes := { lastCause := 4 } }) s)

/-- VDD_IO_UP (R56, R75 step 3). -/
def execVddIoUp (s : State) : Out :=
  .next (onlyIf (s.pwr.vddAon && !s.pwr.vddIo) (fun s =>
    let s := s.onPwr fun p => { p with vddIo := true }
    s.onOuts fun _ => outsHold s) s)

/-- VDD_IO_LOSS (R51, R76): every output is Z. -/
def execVddIoLoss (s : State) : Out :=
  .next (onlyIf (s.pwr.vddAon && s.pwr.vddIo) (fun s => (s.onPwr fun p => { p with vddIo := false }).onOuts fun _ => outsZ) s)

/-- POWER_OFF (R76): VDD_AON falls, the device is in OFF. -/
def execPowerOff (s : State) : Out := .next (onlyIf s.pwr.vddAon (fun s => powerless (lossOutage s)) s)

/-- PWR_OK_RISE (R75 step 6). -/
def execPwrOkRise (s : State) : Out :=
  .next (onlyIf (s.pwr.vddAon && s.pwr.vddIo && !s.pwr.pwrOk) (fun s =>
    let s := s.onPwr fun p => { p with pwrOk := true, refclkRf := true, refclkSerdes := true }
    s.onOuts fun _ => outsHold s) s)

/-- The last-gasp write of a power loss begins (R78, R700). -/
def powerLossGasp (s : State) : State :=
  let s := countCairn 11 s
  match s.flt.gasp with
  | .writing _ _ _ => s.onFlt fun f => { f with mask := f.mask ||| 0x1000 }
  | _ => startGasp 12 (s.onFlt fun f => { f with mask := 0x1000, detail := List.replicate 8 0 })

/-- PWR_OK_FALL (R78, R61). -/
def execPwrOkFall (s : State) : Out :=
  .next (onlyIf (s.pwr.vddAon && s.pwr.pwrOk) (fun s =>
    let s := if s.modes.mode ≥ 2 then powerLossGasp (lossOutage s) else s
    let s := enterHold (s.onPwr fun p => { p with pwrOk := false })
    s) s)

/-- RESET_N_FALL (R79, R61): while PWR_OK is low the device is in HOLD already, and only the level changes. -/
def execResetNFall (s : State) : Out :=
  .next (onlyIf (s.pwr.vddAon && s.pwr.resetN) (fun s =>
    if s.pwr.pwrOk then enterHold ((serveLeave s).onPwr fun p => { p with resetN := false })
    else s.onPwr fun p => { p with resetN := false }) s)

/-- The cadence source at boot (R196). -/
def bootSource (role : BitVec 2) : Nat := if role = 0 || role = 2 then 2 else 0

/-- RESET_N_RISE (R58, R85 step 1): the straps are sampled, what each rising edge clears is cleared, and the boot begins. -/
def execResetNRise (profSel ringRole : BitVec 2) (ringId : BitVec 3) (bootHalt safeN : Bool) (s : State) : Out :=
  .next (onlyIf (s.modes.mode = 1 && s.pwr.pwrOk && s.pwr.vddIo && !s.pwr.resetN) (fun s =>
    let s := s.onPwr fun p => { p with resetN := true, profSel, ringRole, ringId, bootHalt, safeN, refclkRf := true }
    let s := s.onBoot fun b => { b with phase := .sequence, stage := 1, sel := none, cause := 4, restarting := false }
    let s := s.onFlt fun f => { f with
      counters := List.replicate 29 0
      wdtMs := 100, wdtResetMs := 1000, autoMask := 0, autoDelayMs := 1000, autoLimit := 3, warnC := none
      autoTimes := [], limitHit := false, wdtHit := false, autoDue := false
      gasp := match f.gasp with
        | .writing n i p => .writing n i p
        | _ => .idle
      outageFrom := if f.lossPending then some 0 else f.outageFrom
      lossPending := false }
    let s := (s.onNb fun _ => {}).onDram fun d => { d with freeze := [] }
    s.onCad fun c => { c with run := true, source := bootSource ringRole }) s)

/-- BROWNOUT (R77): rail 0 VDD_CORE, 1 VDD_SRAM, 2 VDD_MRAM. -/
def execBrownout (rail : Nat) (s : State) : Out :=
  .next (onlyIf (s.pwr.pwrOk && s.modes.mode ≥ 2 && rail ≤ 2) (enterSafe 9 [BitVec.ofNat 8 rail]) s)

/-- REFCLK_RF_FAIL (R83). -/
def execRefclkRfFail (s : State) : Out :=
  .next (onlyIf (s.pwr.pwrOk && (s.modes.mode ≥ 2 || s.boot.phase == .sequence)) (fun s =>
    enterSafe 10 [] (s.onPwr fun p => { p with refclkRf := false, onRc := true })) s)

/-- REFCLK_RF_TIMEOUT (R83): 10 ms after RESET_N rises. -/
def execRefclkRfTimeout (s : State) : Out :=
  .next (onlyIf (s.pwr.pwrOk && s.boot.phase == .sequence) (fun s =>
    enterSafe 10 [] (s.onPwr fun p => { p with refclkRf := false, onRc := true })) s)

/-- The PCIe link goes down. -/
def linkDown (s : State) : State := s.onHost fun h => { h with link := false, training := false }

/-- PCIE_REFCLK_FAIL (R84). -/
def execPcieRefclkFail (s : State) : Out := .next (linkDown (s.onPwr fun p => { p with refclkPcie := false }))

/-- A ring as the reset of the DMA engines leaves it: its configuration is lost; what waits for it is Summit's. -/
def Ring.afterPerst (n : Nat) (g : Ring) : Ring := { (Ring.init n) with waiting := g.waiting, disabling := g.disabling }

/-- PCIE_PERST_ASSERT (R64): the endpoint and the DMA engines are reset; the mode does not change. -/
def execPciePerstAssert (s : State) : Out :=
  .next ((linkDown (s.onPwr fun p => { p with perstN := false })).onHost fun h => { h with
    rings := h.rings.map fun g => (g.1, g.2.afterPerst g.1)
    msixTable := [], msixPend := 0 })

/-- PCIE_PERST_RELEASE (R64). -/
def execPciePerstRelease (s : State) : Out :=
  .next (let s := s.onPwr fun p => { p with perstN := true }
    if 2 ≤ s.modes.mode then s.onHost fun h => { h with training := true } else s)

/-- PCIE_LINK_UP (R64, R123). -/
def execPcieLinkUp (s : State) : Out :=
  .next (onlyIf (s.host.training && s.pwr.perstN && 2 ≤ s.modes.mode && !s.boot.restarting) (fun s =>
    (s.onPwr fun p => { p with refclkPcie := true }).onHost fun h => { h with link := true, training := false }) s)

/-- KEEPER_STABLE (R82). -/
def execKeeperStable (s : State) : Out := .next (onlyIf s.pwr.vddAon (fun s => s.onPwr fun p => { p with keeperStable := true }) s)

/-- SAFE_N_ASSERT (R61, R62, R688). -/
def execSafeNAssert (s : State) : Out := .next (enterSafe 1 [] (s.onPwr fun p => { p with safeN := false }))

/-- WAKE_N_ASSERT (R179). -/
def execWakeNAssert (s : State) : Out := .next (wakeSource 0 0xFFFFFFFF s)

/-- KEEPER_ALARM (R213). -/
def execKeeperAlarm (s : State) : Out :=
  .next (onlyIf (s.clk.alarm.isSome && s.modes.mode = 3) (fun s => wakeSource 4 0xFFFFFFFF (s.onClk fun k => { k with alarm := none })) s)

/-! Faults (R690 to R697). -/

/-- TJ_SHUTDOWN in degrees C (R697). -/
def tjShutdown : Nat := if Config.xb then 120 else 110

/-- THERMAL_SHUTDOWN (R697). -/
def execThermalShutdown (sensor : Nat) (s : State) : Out :=
  let q := (tjs s).getD sensor 0
  .next (onlyIf (sensor < 3 && 2 ≤ s.modes.mode && 4 * (tjShutdown : Int) ≤ q) (enterSafe 8 ([BitVec.ofNat 8 sensor, 0] ++ leI 2 q)) s)

/-- LOCKSTEP_MISMATCH (R693): both cores are held in reset. -/
def execLockstepMismatch (pcA pcB : W32) (s : State) : Out :=
  .next (onlyIf (s.flt.summitRun && 1 ≤ s.modes.mode) (fun s =>
    enterSafe 3 (le 4 pcA.toNat ++ le 4 pcB.toNat) (s.onFlt fun f => { f with summitHeld := true, summitRun := false })) s)

/-- HEARTBEAT_TICK (R123). -/
def execHeartbeatTick (s : State) : Out :=
  .next (onlyIf s.flt.summitRun (fun s => (s.onFlt fun f => { f with heartbeat := f.heartbeat + 1 }).onEvt fun e => { e with asleep := false }) s)

/-- The watchdog acts: from BOOT onward, with Summit released and SAFE_N high (R693, R695). -/
def watchdogActs (s : State) : Bool := 2 ≤ s.modes.mode && !s.boot.restarting && !s.flt.summitHeld && s.flt.summitRun

/-- WDT_STAGE1_EXPIRY (R695). -/
def execWdtStage1Expiry (s : State) : Out :=
  .next (onlyIf (watchdogActs s && s.modes.mode != 7 && s.flt.wdtMs != 0 && s.pwr.safeN) (fun s => enterSafe 4 [] (countCairn 12 s)) s)

/-- A fault record is written for a watchdog reset outside SAFE (R695, R710; log entry 27). -/
def watchdogRecord (s : State) : State :=
  if s.modes.mode = 7 then s
  else startGasp 4 ((beginOutage s).onFlt fun f => { f with mask := match f.gasp with
    | .writing _ _ _ => f.mask ||| 0x10
    | _ => 0x10 })

/-- WDT_RESET_EXPIRY (R695): the watchdog reset. -/
def execWdtResetExpiry (safeN : Bool) (s : State) : Out :=
  let s := s.onPwr fun p => { p with safeN }
  .next (onlyIf (watchdogActs s && s.flt.wdtResetMs != 0 && safeN) (fun s =>
    restart ((watchdogRecord (countCairn 13 s)).onFlt fun f => { f with wdtHit := true })) s)

/-- Automatic restarts of the last 3,600 s, as seconds of the time of day (R704). -/
def recentAuto (s : State) : List Nat := s.flt.autoTimes.filter fun t => nowNs s / 10 ^ 9 < t + 3600

/-- The automatic restart, or its refusal at the limit (R704). -/
def autoRestart (s : State) : State :=
  let l := recentAuto s
  if l.length ≥ s.flt.autoLimit then s.onFlt fun f => { f with autoTimes := l, limitHit := true, autoDue := false }
  else restart ((countCairn 14 s).onFlt fun f => { f with autoTimes := (nowNs s / 10 ^ 9) :: l, autoDue := false })

/-- AUTO_RESTART_EXPIRY (R704). -/
def execAutoRestartExpiry (safeN : Bool) (s : State) : Out :=
  let s := s.onPwr fun p => { p with safeN }
  .next (onlyIf (s.modes.mode = 7 && !s.boot.restarting && [3, 4, 5, 6, 7, 9].contains s.flt.cause && s.flt.autoMask.getLsbD s.flt.cause && safeN)
    (fun s => if s.flt.gaspDone then autoRestart s else s.onFlt fun f => { f with autoDue := true }) s)

/-- LAST_GASP_DONE (R700). -/
def execLastGaspDone (s : State) : Out :=
  .next (let t := endGasp s
    if t.flt.autoDue && t.modes.mode = 7 && !t.boot.restarting && t.pwr.safeN && t.flt.gaspDone then autoRestart t else t)

/-- AVAILABILITY_WRITE (R708): what has accumulated is written, SERVE_S up to the present instant. -/
def execAvailabilityWrite (s : State) : Out :=
  .next (onlyIf s.flt.summitRun (fun s => match s.flt.serveFrom with
    | some _ => s.onFlt fun f => { f with serveS := servedS s, serveNs := servedNs s % 10 ^ 9, serveFrom := some (nowNs s) }
    | none => s) s)

/-! Domains (R174 to R181). -/

/-- Some mode the device is in or heads for needs the domain (R181). -/
def domNeeded (d : Nat) (s : State) : Bool :=
  (needed s.modes.mode).contains d || (match s.modes.trans with
    | some t => (needed t.stage).contains d || (needed t.final).contains d
    | none => false)

/-- The commands that stall on a domain are answered with a status. -/
def failStalled (d : Nat) (a : Ans) (s : State) : State :=
  let l := s.mbx.stalled.filter (·.dom == d)
  let s := s.onMbx fun m => { m with stalled := m.stalled.filter (·.dom != d) }
  l.foldl (fun s x => post x.cmd a s) s

/-- DOMAIN_WAKE_TIMEOUT (R180, R181): step 1 regulator, 2 lock. -/
def execDomainWakeTimeout (dom : Fin 8) (upStep : Nat) (s : State) : Out :=
  let d := dom.val
  .next (onlyIf ((getDom s d).st = 2 && (upStep = 1 || upStep = 2)) (fun s =>
    if (getDom s d).retrying then
      let safe := domNeeded d s
      let s := onDom d (fun x => { x with st := 5, retrying := false, failStep := upStep, retries := satAdd 8 x.retries 1 }) s
      let s := raise 0x0283 (some d) [BitVec.ofNat 8 d, BitVec.ofNat 8 upStep, BitVec.ofNat 8 (b2n safe)] s
      if safe then enterSafe 7 [BitVec.ofNat 8 d, BitVec.ofNat 8 upStep] s
      else failStalled d (.err 0x0202 [BitVec.ofNat 8 d]) (s.onModes fun m => { m with degraded := m.degraded ||| (1 <<< d : BitVec 8) })
    else
      let s := onDom d (fun x => { x with st := 0, retrying := true, failStep := upStep, retries := satAdd 8 x.retries 1 }) s
      raise 0x0282 (some d) [BitVec.ofNat 8 d, BitVec.ofNat 8 upStep] (failStalled d eHw s)) s)

/-- DOMAIN_WAKE_RETRY (R180). -/
def execDomainWakeRetry (dom : Fin 8) (s : State) : Out :=
  .next (onlyIf ((getDom s dom.val).st = 0 && (getDom s dom.val).retrying) (onDom dom.val fun x => { x with st := 2 }) s)

/-- DEMAND_IDLE_EXPIRY (R176). -/
def execDemandIdleExpiry (dom : Fin 8) (s : State) : Out :=
  .next (onlyIf (s.modes.mode = 3 && (getDom s dom.val).st = 3) (fun s => onDom dom.val (fun x => { x with st := 0 }) (dropDomain dom.val s)) s)

/-! The entry handshake (R164 to R167). -/

/-- A long command with an opcode is pending. -/
def opPending (s : State) (op : Nat) : Bool := s.mbx.longs.any (·.cmd.op == op)

/-- A band has admitted flows (R158). -/
def bandFlows (s : State) (link : Nat) : Bool := s.air.bfs.any fun f => f.2.p.link = link

/-- The reason with which an agent refuses an entry in the present state (R82, R158, R171, R556, R681), if it does. -/
def agentRefusal (s : State) (t : Trans) (a : Nat) : Option Nat :=
  let vigil := t.stage = 3
  let whenever (c : Bool) (r : Nat) : Option Nat := if c then some r else none
  match a with
  | 0 => if vigil && !s.pwr.keeperStable then some 3 else whenever (!s.boot.storeJobs.isEmpty) 4
  | 1 => whenever (opPending s 0x0804) 5
  | 4 => whenever (opPending s 0x0A03 || opPending s 0x0A06) 6
  | 7 =>
    if !vigil then none
    else
      let u := s.modes.vigilUplink
      let up (i : Nat) : Bool := (s.tm.ports.getD i {}).link
      if u = 0xFF || (s.tm.chainEn && u != 5) then some 0x0D
      else whenever (if u = 5 then !(up 2 && up 3) else !up u) 7
  | 8 => whenever (opPending s 0x0F03 || (vigil && s.ring.st = 2 &&
      !(if s.ring.acting then s.ring.vigilOk else s.ring.peerVigilOk))) 8
  | 9 => whenever (opPending s 0x0D01) 9
  | 11 => whenever (opPending s 0x0E02 || s.dram.st = 5) 0x0A
  | 12 => whenever (s.modes.mode = 5 && !t.force && bandFlows s 0) 0x0B
  | 13 => whenever (s.modes.mode = 5 && !t.force && bandFlows s 1) 0x0B
  | 14 => whenever (opPending s 0x0501) 0x0C
  | _ => none

/-- A handshake runs and awaits an agent's answer. -/
def awaits (s : State) (a : Nat) : Bool :=
  match s.modes.trans with
  | some t => t.handshaking && !t.committed && (s.modes.agents.getD a {}).st == .waiting
  | none => false

/-- An answer is taken (R164 to R167). -/
def takeAnswer (a : Nat) (ans : AgentAns) (s : State) : State :=
  match ans with
  | .refuse r => refuseEntry a r s
  | .delay us =>
    let s := s.onModes fun m => { m with agents := updAt m.agents a fun x => { x with delay := satAdd 16 x.delay 1 } }
    if (s.modes.agents.getD a {}).final then refuseEntry a 2 s
    else s.onModes fun m => { m with agents := updAt m.agents a fun x => { x with st := .delayed (max 1 (min 10000 us)) } }
  | .accept =>
    let s := s.onModes fun m => { m with agents := updAt m.agents a fun x => { x with st := .accepted } }
    if s.modes.agents.all (·.st == .accepted) then commitEntry s else s

/-- AGENT_ANSWER (R164): where the spec has the agent refuse in the present state, it refuses. -/
def execAgentAnswer (agent : Fin 16) (ans : AgentAns) (s : State) : Out :=
  .next (onlyIf (awaits s agent.val) (fun s =>
    match s.modes.trans.bind fun t => agentRefusal s t agent.val with
    | some r => takeAnswer agent.val (.refuse r) s
    | none => takeAnswer agent.val ans s) s)

/-- AGENT_ANSWER_TIMEOUT (R164, R165): 100 us without an answer. -/
def execAgentAnswerTimeout (agent : Fin 16) (s : State) : Out :=
  .next (onlyIf (awaits s agent.val) (fun s => refuseEntry agent.val (if (s.modes.agents.getD agent.val {}).final then 2 else 1) s) s)

/-- ENTER_RESEND (R165): the ENTER sent at 10 ms is the last one. -/
def execEnterResend (agent : Fin 16) (s : State) : Out :=
  .next (match s.modes.trans, (s.modes.agents.getD agent.val {}).st with
    | some t, .delayed _ =>
      if t.handshaking && !t.committed then
        (s.onModes fun m => { m with
          agents := updAt m.agents agent.val fun x => { x with st := .waiting, final := decide (t.hsNs + 10 ^ 7 ≤ nowNs s) } }).emit (.enter agent.val t.stage)
      else s
    | _, _ => s)

end Sys2Proof.Machine
end

