-- ==== Sys2Proof/Machine/HostIfc.lean ====
section
/-!
DEFINITION. The host interface: registers and the service port, host rings and event routing, GPIO.
-/
namespace Sys2Proof.Machine

/-! Registers (R109, R123, R124 to R127). -/

/-- STATE of MB_STATUS (R109, R740). -/
def mbState (s : State) (mb : Nat) : Nat :=
  let g := getPage s mb
  if noSupervisor s then (if g.cairnDone then 2 else 3)
  else if g.busy then 1 else if g.done then 2 else 0

/-- MB_STATUS (R109). -/
def mbStatusWord (s : State) (mb : Nat) : Nat :=
  let g := getPage s mb
  pendingOf s mb * 2 ^ 16 + b2n g.mismatch * 2 ^ 9 + b2n g.overrun * 2 ^ 8 + mbState s mb

/-- MB_CTRL (R109). -/
def mbCtrlWord (s : State) (mb : Nat) : Nat :=
  let g := getPage s mb
  b2n g.hostWriteEn * 2 ^ 8 + b2n g.irqEn * 2 ^ 7 + g.vec.toNat

/-- The bytes of a mailbox page that are not reserved (R109). -/
def mbPageBytes (s : State) (mb : Nat) : List Byte :=
  let g := getPage s mb
  g.cmd ++ g.rsp ++ le 4 g.doorbell.toNat ++ le 4 (mbStatusWord s mb) ++ le 4 g.lastSeq.toNat ++ le 4 (mbCtrlWord s mb)

/-- STATUS0 (R123). -/
def status0 (s : State) : Nat :=
  s.boot.stage.toNat * 2 ^ 28 + s.modes.mode * 2 ^ 21 + s.modes.target * 2 ^ 18 + b2n s.modes.trans.isSome * 2 ^ 17 +
  b2n (s.modes.mode == 7) * 2 ^ 16 + b2n s.outs.faultN * 2 ^ 15 + b2n (s.cad.state == 2 || s.cad.state == 3) * 2 ^ 14 +
  b2n s.pwr.bootHalt * 2 ^ 13 + b2n s.host.link * 2 ^ 12 + s.flt.cause

/-- STRAPS: STATUS1[7:0] (R123). -/
def strapsByte (s : State) : Nat :=
  s.pwr.profSel.toNat * 2 ^ 6 + s.pwr.ringRole.toNat * 2 ^ 4 + s.pwr.ringId.toNat * 2 + b2n s.pwr.bootHalt

/-- STATUS1 (R123). -/
def status1 (s : State) : Nat := s.boot.active.toNat * 2 ^ 8 + strapsByte s

/-- The words of the status page (R123). -/
def statusBytes (s : State) : List Byte :=
  le 4 (status0 s) ++ le 4 (status1 s) ++ le 4 s.flt.heartbeat.toNat ++ le 4 s.evt.seq.toNat ++
  le 4 (b2n s.flt.recValid * 2 ^ 31 + b2n s.flt.gaspDone)

/-- A byte of the service address map; unmapped space reads 0 (R126). -/
def svcByte (s : State) (a : Nat) : Byte :=
  if 0x2000 ≤ a ∧ a < 0x3000 then byteAt (mbPageBytes s 2) (a - 0x2000)
  else if 0x8000 ≤ a ∧ a < 0x9000 then byteAt (statusBytes s) (a - 0x8000)
  else if 0x10000 ≤ a ∧ a < 0x11000 then byteAt s.flt.window (a - 0x10000)
  else if 0x11000 ≤ a ∧ a < 0x12000 then memGet s.dram.freeze (a - 0x11000)
  else 0

/-- SVC_FLAGS (R127). -/
def svcFlagsNow (s : State) : Byte :=
  BitVec.ofNat 8 (0x80 + s.modes.mode * 16 + b2n (s.modes.mode == 7) * 8 + b2n (mbState s 2 == 1) * 4 + b2n s.mbx.svcRejected * 2)

/-- SVC_READ (R124). -/
def execSvcRead (addr : BitVec 24) (count : Nat) (s : State) : Out :=
  .next (if s.modes.mode = 0 || s.outs.z then s.onHost fun h => { h with reply := .none }
    else s.onHost fun h => { h with
      reply := .data ((List.range count).map fun i => svcByte s ((addr.toNat + i) % 2 ^ 24))
      svcFlags := svcFlagsNow s })

/-- BAR_BAD_ACCESS (R108). -/
def execBarBadAccess (write : Bool) (s : State) : Out :=
  .next (onlyIf s.host.link (fun s => (countCairn 25 s).onHost fun h => { h with reply := if write then .none else .unsupported }) s)

/-! Host rings (R132 to R142). -/

/-- A ring is stopped: ERROR is set and HR_ERROR raised (R140). -/
def ringError (n cause : Nat) (cookie : W64) (s : State) : State :=
  let s := onRingN n (fun g => { g with stopped := true, error := true, errCause := cause, errCookie := cookie }) s
  raise 0x0082 (some n) (le 8 cookie.toNat ++ le 1 cause) s

/-- HOST_IDX_WRITE (R132, R140, R130). -/
def execHostIdxWrite (ring : BitVec 6) (v : W32) (s : State) : Out :=
  let n := ring.toNat
  .next (onlyIf s.host.link (fun s =>
    let i : W16 := v.setWidth 16
    let s := onRingN n (fun g => { g with hostIdx := i }) s
    let g := getRing s n
    if !g.live then s
    else
      let gap := if g.type = 3 then (g.devIdx - i).toNat else (i - g.devIdx).toNat
      if gap > g.size - 1 then ringError n 1 0 s
      else if g.type = 3 then flushLost n s
      else s) s)

/-- DROP_COUNT_READ (R132): the register clears on read. -/
def execDropCountRead (ring : BitVec 6) (s : State) : Out :=
  .next (onlyIf s.host.link (fun s =>
    let d := (getRing s ring.toNat).dropCount
    (onRingN ring.toNat (fun g => { g with dropCount := 0 }) s).onHost fun h => { h with reply := .data (le 4 d.toNat) }) s)

/-- The waiting records of an EVENT ring that is enabled are written, the newest S/2 - 1 of those still in the log, behind one
EVENT_LOST that reports the others (R131). -/
def flushWaiting (n : Nat) (s : State) : State :=
  let g := getRing s n
  let inLog (r : EvtRec) : Bool := s.evt.log.contains r
  let keep := (g.waiting.filter inLog).take (g.size / 2 - 1)
  let lost := g.waiting.filter fun r => !keep.contains r
  let s := onRingN n (fun g => { g with waiting := [] }) s
  let s := match lost.getLast?, lost.head? with
    | some a, some b =>
      let r := mkRec s 0x0081 (some n) (le 4 lost.length ++ le 4 a.seq.toNat ++ le 4 b.seq.toNat)
      ringPutRec n r (logRec r s)
    | _, _ => s
  keep.reverse.foldl (fun s r => ringPutRec n r s) s

/-- HR_CONFIG with ENABLE set: the fields are in range (R134). -/
def hrConfigOk (c : Cmd) : Bool :=
  let n := c.u 16 1
  let t := c.u 17 1
  let push := bit (c.u 19 1) 1
  (if t = 1 then n ≤ 31 else if t = 2 then 32 ≤ n && n ≤ 61 else t = 3 && 32 ≤ n) &&
  c.u 18 1 ≤ 127 && (!push || t = 1) && 4 ≤ c.u 20 1 && c.u 20 1 ≤ (if push then 9 else 16) &&
  (push || c.u 24 8 % 4096 = 0) && c.u 32 8 % 8 = 0 && c.u 40 2 ≤ 1000 && 1 ≤ c.u 42 2 && c.u 42 2 ≤ 256

/-- HR_CONFIG (R134). -/
def specHrConfig : OpSpec where
  op := 0x0110
  rsv c := c.flagsBelow 19 2 && c.zero [(21, 3), (44, 4)]
  objs c := [.hostRing (c.u 16 1)]
  body c s :=
    let n := c.u 16 1
    let g := getRing s n
    if n > 63 then (eArg, s)
    else if !bit (c.u 19 1) 0 then
      if g.enabled then (.wait, onRingN n (fun g => { g with disabling := some c }) s) else (.ok, s)
    else if !hrConfigOk c then (eArg, s)
    else if g.enabled then (eState, s)
    else
      let s := onRingN n (fun g => { g with
        type := c.u 17 1, enabled := true, push := bit (c.u 19 1) 1, log2 := c.u 20 1, vec := c.u 18 1, base := c.u 24 8, wb := c.u 32 8,
        modUs := c.u 40 2, modCount := c.u 42 2, error := false, stopped := false, errCause := 0, errCookie := 0, drops := 0,
        completions := 0, sinceVec := 0, modRunning := false, queue := [] }) s
      (.ok, if c.u 17 1 = 3 then flushLost n (flushWaiting n s) else s)

/-- HR_CONFIG. -/
def execHrConfig (d : Doorbell) (p : List Byte) (s : State) : Out := command specHrConfig d p s

/-- HR_DISABLE_DRAINED (R134): the indices are zeroed, then the response is posted. -/
def execHrDisableDrained (ring : BitVec 6) (s : State) : Out :=
  .next (match (getRing s ring.toNat).disabling with
    | some c => post c .ok (onRingN ring.toNat (fun g => { g with enabled := false, stopped := false, hostIdx := 0, devIdx := 0, disabling := none,
                                                                  queue := [], sinceVec := 0, modRunning := false }) s)
    | none => s)

/-- HR_STATUS (R135). -/
def specHrStatus : OpSpec where
  op := 0x0111
  rsv c := c.zero [(17, 3)]
  objs c := [.hostRing (c.u 16 1)]
  body c s :=
    if c.u 16 1 > 63 then (eArg, s)
    else
      let g := getRing s (c.u 16 1)
      (.ok (le 1 g.type ++ le 1 (b2n g.enabled + 2 * b2n g.push + 4 * b2n g.error + 8 * b2n g.overflow) ++ le 1 g.log2 ++ le 1 g.vec ++
        le 2 g.hostIdx.toNat ++ le 2 g.devIdx.toNat ++ le 4 g.drops.toNat ++ le 4 g.completions.toNat ++ le 8 g.errCookie.toNat ++
        le 1 g.errCause ++ [0, 0, 0]), s)

/-- HR_STATUS. -/
def execHrStatus (d : Doorbell) (p : List Byte) (s : State) : Out := command specHrStatus d p s

/-- MSIX_MODERATION_EXPIRY (R134). -/
def execMsixModerationExpiry (ring : BitVec 6) (s : State) : Out :=
  let n := ring.toNat
  .next (onlyIf (getRing s n).modRunning (fun s =>
    if (getRing s n).sinceVec > 0 then raiseVec (getRing s n).vec (onRingN n (fun g => { g with sinceVec := 0 }) s)
    else onRingN n (fun g => { g with modRunning := false }) s) s)

/-- EVENT_ROUTE (R136). -/
def specEventRoute : OpSpec where
  op := 0x0112
  modes := inModes [2, 3, 4, 5, 6]
  rsv c := c.zero [(18, 2)]
  body c s :=
    let f := c.u 16 1
    let r := c.u 17 1
    if f > 0x1F || f = 7 then (eArg, s)
    else if r != 0xFF && !(32 ≤ r && r ≤ 63 && (getRing s r).type = 3) then (eArg, s)
    else (.ok, s.onHost fun h => { h with routes := Tab.set h.routes f r })

/-- EVENT_ROUTE. -/
def execEventRoute (d : Doorbell) (p : List Byte) (s : State) : Out := command specEventRoute d p s

/-- Buffers that hold a packet, oldest first, with the bytes each takes; none where they are too few (R139, R141). -/
def fillBufs : List RxBuf → List Byte → Option (List (RxBuf × List Byte))
  | _, [] => some []
  | [], _ :: _ => none
  | b :: t, x :: xs => (fillBufs t ((x :: xs).drop b.len)).map fun r => (b, (x :: xs).take b.len) :: r

/-- The completion fields of one PKT_RX descriptor (R139). -/
def rxCompletion (k : HostPkt) (len : Nat) (eop : Bool) : List Byte :=
  le 2 len ++ le 2 (b2n eop + 2 * (k.flags % 4)) ++ le 1 k.srcType ++ le 1 k.reason ++ le 2 k.srcId ++ le 2 k.rule.toNat ++
  le 4 k.hash.toNat ++ le 8 k.ts

/-- The device writes a packet into posted buffers, descriptor by descriptor. -/
def writeBufs (n : Nat) (k : HostPkt) : List (RxBuf × List Byte) → State → State
  | [], s => s
  | x :: t, s =>
    let g := getRing s n
    let slot := g.base + 32 * (g.devIdx.toNat % g.size)
    let s := (s.emit (.hostMem x.1.addr x.2)).emit (.hostMem (slot + 10) (rxCompletion k x.2.length t.isEmpty))
    writeBufs n k t (onRingN n (fun g => { g with devIdx := g.devIdx + 1, completions := g.completions + 1 }) s)

/-- Count in the counters of a host ring's queue (R564). -/
def countHostQ (n i : Nat) (s : State) : State := s.onTm fun t => { t with host := Tab.upd t.host n {} fun q => { q with ctr := bump q.ctr i } }

/-- HOST_RING_WRITE (R139 to R142): the packet at the head of a PKT_RX ring's queue is written whole, or dropped whole. -/
def execHostRingWrite (ring : BitVec 6) (bufs : List RxBuf) (s : State) : Out :=
  let n := ring.toNat
  .next (match (getRing s n).queue with
    | [] => s
    | k :: rest =>
      let s := countHostQ n 1 (onRingN n (fun g => { g with queue := rest }) s)
      let g := getRing s n
      let posted := bufs.take (g.hostIdx - g.devIdx).toNat
      if !(g.live && g.type = 2) then ringDrop n s
      else match fillBufs posted k.bytes with
        | none => ringDrop n s
        | some l =>
          match l.find? fun x => x.1.len < 256 || 9216 < x.1.len with
          | some x => ringDrop n (ringError n 2 x.1.cookie s)
          | none => ringPublish n l.length (writeBufs n k l s))

/-- A packet is handed to the queue of a PKT_RX ring, always on chip (R141, R543, R552). -/
def hostQueue (n : Nat) (k : HostPkt) (s : State) : State :=
  let q := Tab.getD s.tm.host n {}
  let c := cellsOf k.bytes.length
  if q.limit < hostCells s n + c then countHostQ n 2 s
  else match storeIn s q.alpha false (hostCells s n) c with
    | .chip => noteLow (countHostQ n 0 (onRingN n (fun g => { g with queue := g.queue ++ [k] }) s))
    | _ => countHostQ n 3 s

/-! GPIO (R65, R66). -/

/-- The bits of a word that a mask selects come from another. -/
def maskBits (mask old new : W16) : W16 := (old &&& ~~~mask) ||| (new &&& mask)

/-- GPIO_SET (R65). -/
def specGpioSet : OpSpec where
  op := 0x0120
  modes := inModes [2, 3, 4, 5, 6]
  body c s :=
    let m := BitVec.ofNat 16 (c.u 16 2)
    (.ok, s.onPwr fun p => { p with
      gpioDir := maskBits m p.gpioDir (BitVec.ofNat 16 (c.u 18 2))
      gpioLevel := maskBits m p.gpioLevel (BitVec.ofNat 16 (c.u 20 2))
      gpioPull := maskBits m p.gpioPull (BitVec.ofNat 16 (c.u 22 2)) })

/-- GPIO_SET. -/
def execGpioSet (d : Doorbell) (p : List Byte) (s : State) : Out := command specGpioSet d p s

/-- GPIO_GET (R66). -/
def specGpioGet : OpSpec where
  op := 0x0121
  body _ s := (.ok (le 2 s.pwr.gpioDir.toNat ++ le 2 s.pwr.gpioLevel.toNat ++ le 2 s.pwr.gpioIn.toNat ++ le 2 s.pwr.gpioPull.toNat), s)

/-- GPIO_GET: the levels at the balls during the command are the operand. -/
def execGpioGet (d : Doorbell) (p : List Byte) (levels : W16) (s : State) : Out :=
  command specGpioGet d p (s.onPwr fun x => { x with gpioIn := levels })

end Sys2Proof.Machine
end

