-- ==== Sys2Proof/Machine/Identity.lean ====
section
/-!
DEFINITION. Identity and profile commands, and the profile image (R97, R98, R147 to R152).
-/
namespace Sys2Proof.Machine

/-- MRAM offset of a profile (R101). -/
def profBase (n : Nat) : Nat := 0x10000 * n

/-- A field of a stored profile. -/
def profFld (s : State) (n off k : Nat) : Nat := memFld s.boot.mram (profBase n + off) k

/-- The CRC of an image of a length (R98). -/
def imageCrc (img : List Byte) : Nat := crc32 (img.take 56 ++ img.drop 64)

/-- The bytes of a stored image, of its LENGTH. -/
def profBytes (s : State) (n : Nat) : List Byte := memRead s.boot.mram (profBase n) (profFld s n 8 4)

/-- Words of a region that hold uncorrectable errors. -/
def badWords (s : State) (a k : Nat) : Nat := (s.boot.mramBad.filter fun w => a ≤ w + 7 && w < a + k).length

/-- The first failing check of R97 on a stored profile; 0 where it is valid (R146). -/
def profReason (s : State) (n : Nat) : Nat :=
  let len := profFld s n 8 4
  if profFld s n 0 4 != 0x31504654 then 1
  else if profFld s n 4 2 != 1 || profFld s n 6 1 != 3 || profFld s n 7 1 > 2 then 2
  else if len % 4 != 0 || len < 64 || 65536 < len then 3
  else if !([0, 3, 4, 5].contains (profFld s n 16 1)) then 7
  else if imageCrc (profBytes s n) != profFld s n 56 4 then 4
  else if profFld s n 60 4 != 0xA5C33C5A then 5
  else if badWords s (profBase n) len > 0 then 6
  else 0

/-- A profile is verified: uncorrectable words read are counted (R97, R102). -/
def verifyProf (n : Nat) (s : State) : Nat × State :=
  let r := profReason s n
  (r, if r = 6 then countCairn 24 s (badWords s (profBase n) (profFld s n 8 4)) else s)

/-- IDENTIFY (R147). -/
def specIdentify : OpSpec where
  op := 0x0101
  diag := true
  body _ s :=
    let ok (n : Nat) : Bool := profReason s n = 0
    let flags := b2n s.pwr.bootHalt + 2 * b2n (s.modes.mode == 2 && s.boot.phase == .ready) + 4 * b2n s.boot.replayFailed
    (.ok (le 2 0x3192 ++ [0xB1] ++ le 1 (b2n Config.xb) ++ [3, 2, 3, 2] ++ le 8 Config.serial.toNat ++ le 1 (strapsByte s) ++ le 1 flags ++
      le 1 s.boot.active.toNat ++ le 1 s.modes.mode ++ le 1 (b2n (ok 0) + 2 * b2n (ok 1) + 4 * b2n (ok 2) + 8 * b2n (ok 3)) ++
      le 2 Config.vendorId.toNat ++ [0] ++ ((List.range 4).flatMap fun n => le 4 (if ok n then profFld s n 12 4 else 0))), s)

/-- IDENTIFY. -/
def execIdentify (d : Doorbell) (p : List Byte) (s : State) : Out := command specIdentify d p s

/-- PROFILE_SELECT (R96, R151). -/
def specProfileSelect : OpSpec where
  op := 0x0105
  rsv c := c.zero [(17, 3)]
  objs c := [.profile (c.u 16 1)]
  body c s := if c.u 16 1 > 3 then (eArg, s) else (.ok, s.onBoot fun b => { b with sel := some (BitVec.ofNat 2 (c.u 16 1)) })

/-- PROFILE_SELECT. -/
def execProfileSelect (d : Doorbell) (p : List Byte) (s : State) : Out := command specProfileSelect d p s

/-- PROFILE_READ (R152). -/
def specProfileRead : OpSpec where
  op := 0x0106
  rsv c := c.zero [(17, 1)]
  objs c := [.profile (c.u 16 1)]
  body c s :=
    let k := c.u 18 2
    let off := c.u 20 4
    if c.u 16 1 > 3 || k % 4 != 0 || k < 4 || 480 < k || off % 4 != 0 || 65536 < off + k then (eArg, s)
    else (.ok (memRead s.boot.mram (profBase (c.u 16 1) + off) k), s)

/-- PROFILE_READ. -/
def execProfileRead (d : Doorbell) (p : List Byte) (s : State) : Out := command specProfileRead d p s

/-- PROFILE_STAGE (R148). -/
def specProfileStage : OpSpec where
  op := 0x0107
  rsv c := c.zero [(22, 2)]
  body c s :=
    let off := c.u 16 4
    let k := c.u 20 2
    if off % 4 != 0 || 65532 < off || k % 4 != 0 || k < 4 || 480 < k || 65536 < off + k || c.par.length != 8 + k then (eArg, s)
    else match s.boot.stageOwner with
      | some m =>
        if m != c.mb then (.err 0x0103, s)
        else
          let buf := if off = 0 then [] else s.boot.stageBuf
          (.ok, s.onBoot fun b => { b with stageBuf := memWrite buf off (c.bytes 24 k) })
      | none =>
        if off != 0 then (eState, s)
        else (.ok, s.onBoot fun b => { b with stageOwner := some c.mb, stageBuf := memWrite [] 0 (c.bytes 24 k) })

/-- PROFILE_STAGE. -/
def execProfileStage (d : Doorbell) (p : List Byte) (s : State) : Out := command specProfileStage d p s

/-- STAGE_OWNER_TIMEOUT (R148). -/
def execStageOwnerTimeout (s : State) : Out := .next (s.onBoot fun b => { b with stageOwner := none })

/-- PROFILE_STORE_DONE (R100, R149): the image is written, COMMIT last. -/
def execProfileStoreDone (prof : BitVec 2) (s : State) : Out :=
  .next (match Tab.get? s.boot.storeJobs prof.toNat with
    | none => s
    | some img =>
      let base := profBase prof.toNat
      let bad := badWords s base img.length
      let s := mramWrite base (if bad > 0 then img.take 60 ++ [0, 0, 0, 0] ++ img.drop 64 else img) s
      let s := if bad > 0 then countCairn 24 s bad else s
      let s := endOp 0x0104 { status := if bad > 0 then 5 else 0, data := slice img 12 4 ++ slice img 56 4 } s fun c => c.u 16 1 == prof.toNat
      s.onBoot fun b => { b with storeJobs := Tab.erase b.storeJobs prof.toNat, stageOwner := none })

/-- The RESULT of PROFILE_LOAD (R150). -/
def loadResult (reason replayed failing status gen : Nat) : List Byte :=
  le 1 reason ++ [0] ++ le 2 replayed ++ le 2 failing ++ le 2 status ++ le 4 gen

/-- The fields of a replay's start (R89, R94, R150). -/
def startReplay (n : Nat) (s : State) : State :=
  s.onBoot fun b => { b with
    phase := .replay, replayProf := n, recIdx := 0, recOff := 64, recCount := profFld s n 18 2, waitLong := false, recStatus := none
    replayFailed := false, replayNs := nowNs s, autostart := profFld s n 16 1 }

/-- PROFILE_LOAD (R150). -/
def specProfileLoad : OpSpec where
  op := 0x0103
  rsv c := c.zero [(18, 2)]
  objs c := [.profile (c.u 16 1)]
  body c s :=
    let n := c.u 16 1
    if n > 3 || c.u 17 1 > 1 then (eArg, s)
    else if c.u 17 1 = 0 then (.pending, s.onBoot fun b => { b with loadJobs := Tab.set b.loadJobs n 0 })
    else if !(s.modes.mode = 2 && s.boot.phase = .ready) then (eState, s)
    else
      let (r, s) := verifyProf n s
      let s := s.onBoot fun b => { b with loader := some c, loadJobs := Tab.set b.loadJobs n r, recIdx := 0, recStatus := none, replayFailed := false }
      (.pending, if r = 0 then startReplay n s else s)

/-- PROFILE_LOAD. -/
def execProfileLoad (d : Doorbell) (p : List Byte) (s : State) : Out := command specProfileLoad d p s

/-- PROFILE_LOAD_DONE (R150). -/
def execProfileLoadDone (prof : BitVec 2) (s : State) : Out :=
  let n := prof.toNat
  .next (match s.boot.loader with
    | some c =>
      if c.u 16 1 = n && s.boot.phase = .ready then
        let r := Tab.getD s.boot.loadJobs n 0
        let gen := profFld s n 12 4
        let fin (s : State) : State := s.onBoot fun b => { b with loader := none, loadJobs := Tab.erase b.loadJobs n }
        let mine (x : Cmd) : Bool := x == c
        if r != 0 then fin (endOp 0x0103 { status := 0x0102, data := loadResult r 0 0xFFFF 0 gen } s mine)
        else if s.boot.replayFailed then
          fin (endOp 0x0103 { status := 0x0104, data := loadResult 0 s.boot.recIdx s.boot.recIdx (s.boot.recStatus.getD 0) gen } s mine)
        else fin (endOp 0x0103 { data := loadResult 0 s.boot.recIdx 0xFFFF 0 gen } s mine)
      else s
    | none =>
      match Tab.get? s.boot.loadJobs n with
      | some _ =>
        let (r, s) := verifyProf n s
        let s := endOp 0x0103 { status := if r = 0 then 0 else 0x0102, data := loadResult r 0 0xFFFF 0 (profFld s n 12 4) } s fun c => c.u 16 1 == n
        s.onBoot fun b => { b with loadJobs := Tab.erase b.loadJobs n }
      | none => s)

end Sys2Proof.Machine
end

