-- ==== Sys2Proof/Machine/ModeCmds.lean ====
section
/-!
DEFINITION. Power commands (R184 to R189) and the diagnostic, log and watchdog commands (R710 to R716).
-/
namespace Sys2Proof.Machine

/-- MODE_SET (R155, R156, R182, R184). -/
def specModeSet : OpSpec where
  op := 0x0201
  rsv c := c.flagsBelow 17 1 && c.zero [(18, 2)]
  objs _ := [.modeCtl]
  body c s :=
    let t := c.u 16 1
    if t < 3 || 7 < t then (eArg, s)
    else if s.modes.mode = 7 || (s.modes.mode = 2 && s.boot.phase != .ready) then (eState, s)
    else if t = s.modes.mode then (.ok, s)
    else if t = 7 then (.pending, enterSafe 2 [] s)
    else match failedOnWay s t with
      | some d => (.err 0x0202 [BitVec.ofNat 8 d], s)
      | none => (.pending, beginTrans (.modeSet c) t 0 (bit (c.u 17 1) 0) s)

/-- MODE_SET. -/
def execModeSet (d : Doorbell) (p : List Byte) (s : State) : Out := command specModeSet d p s

/-- A bit for each domain with a property. -/
def domBits (s : State) (f : Domain → Bool) : Nat := sumOf (s.modes.doms.zipIdx.map fun x => if f x.1 then 2 ^ x.2 else 0)

/-- MODE_GET (R185). -/
def specModeGet : OpSpec where
  op := 0x0202
  diag := true
  body _ s :=
    (.ok (le 1 s.modes.mode ++ le 1 s.modes.target ++ le 1 (b2n s.modes.trans.isSome) ++ le 1 s.modes.lastCause ++
      le 4 (min 0xFFFFFFFF ((nowNs s - s.modes.sinceNs) / 10 ^ 6)) ++ le 1 (domBits s fun x => [1, 3, 4].contains x.st) ++
      le 1 (domBits s (·.st == 3)) ++ le 1 (domBits s (·.st == 5)) ++ [s.modes.degraded] ++ [0, 0, 0, 0]), s)

/-- MODE_GET. -/
def execModeGet (d : Doorbell) (p : List Byte) (s : State) : Out := command specModeGet d p s

/-- The agents' names (R171). -/
def agentNames : List (List Byte) :=
  ["SUMT", "NBRD", "NBMC", "PRSR", "FWDE", "TMGR", "CIPH", "ETHU", "RING", "MSIF", "COLD", "DRAM", "WBM_", "WBH_", "CALE", "MBOX"].map fun n =>
    n.toList.map fun c => BitVec.ofNat 8 c.toNat

/-- PWR_STATS (R186). -/
def specPwrStats : OpSpec where
  op := 0x0203
  diag := true
  rsv c := c.flagsBelow 16 1 && c.zero [(17, 3)]
  body c s :=
    let m := s.modes
    let data := le 4 m.attempted ++ le 4 m.committedN ++ le 4 m.aborted ++ le 4 m.wakeAborts ++
      ((agentNames.zip m.agents).flatMap fun a => a.1 ++ le 4 a.2.refuse ++ le 4 a.2.abort ++ le 2 a.2.delay ++ le 1 a.2.last ++ [0])
    (.ok data, if !bit (c.u 16 1) 0 then s else s.onModes fun m => { m with
      attempted := 0, committedN := 0, aborted := 0, wakeAborts := 0,
      agents := m.agents.map fun a => { a with refuse := 0, abort := 0, delay := 0 } })

/-- PWR_STATS. -/
def execPwrStats (d : Doorbell) (p : List Byte) (s : State) : Out := command specPwrStats d p s

/-- DOMAIN_STATUS (R187). -/
def specDomainStatus : OpSpec where
  op := 0x0204
  diag := true
  body _ s := (.ok (s.modes.doms.flatMap fun x =>
    le 1 x.st ++ le 1 x.retries ++ le 1 x.failStep ++ [0] ++ le 4 x.wakes ++ le 4 x.lastUs ++ [0, 0, 0, 0]), s)

/-- DOMAIN_STATUS. -/
def execDomainStatus (d : Doorbell) (p : List Byte) (s : State) : Out := command specDomainStatus d p s

/-- WAKE_CONFIG (R188). -/
def specWakeConfig : OpSpec where
  op := 0x0205
  modes := inModes [2, 3, 4, 5, 6]
  rsv c := c.flagsBelow 16 5 && c.zero [(26, 2)]
  body c s :=
    if !(c.u 17 1 = 4 || c.u 17 1 = 5) || c.u 18 2 < 1 || 1000 < c.u 18 2 then (eArg, s)
    else
      let s := s.onModes fun m => { m with
        wakeSources := BitVec.ofNat 5 (c.u 16 1), warmTarget := c.u 17 1, demandIdleMs := c.u 18 2, alarmBeat := c.u 20 6 }
      (.ok, if s.modes.mode = 3 then s.onClk fun k => { k with alarm := alarmCount s } else s)

/-- WAKE_CONFIG. -/
def execWakeConfig (d : Doorbell) (p : List Byte) (s : State) : Out := command specWakeConfig d p s

/-- VIGIL_CONFIG (R189). -/
def specVigilConfig : OpSpec where
  op := 0x0206
  modes := inModes [2, 4, 5]
  rsv c := c.zero [(17, 1), (20, 4)]
  body c s :=
    if (5 < c.u 16 1 && c.u 16 1 != 0xFF) || 16383 < c.u 18 2 then (eArg, s)
    else (.ok, s.onModes fun m => { m with vigilUplink := c.u 16 1, vigilNexthop := c.u 18 2 })

/-- VIGIL_CONFIG. -/
def execVigilConfig (d : Doorbell) (p : List Byte) (s : State) : Out := command specVigilConfig d p s

/-! Family 0x1F. -/

/-- The records of the persistent log, oldest first (R702). -/
def persistRecs (s : State) : List (List Byte) :=
  ((List.range 880).map fun i => memRead s.boot.mram (0x62000 + 64 * ((s.evt.persistNext + i) % 880)) 64).filter fun r => fld r 0 2 != 0

/-- LOG_READ (R711). -/
def specLogRead : OpSpec where
  op := 0x1F01
  diag := true
  rsv c := c.zero [(18, 2)]
  body c s :=
    let k := c.u 17 1
    let from_ := c.u 20 4
    if c.u 16 1 > 1 || k < 1 || 7 < k then (eArg, s)
    else
      let recs := if c.u 16 1 = 0 then s.evt.log.reverse.map recBytes else persistRecs s
      let l := (recs.filter fun r => (fld r 4 4 + 2 ^ 32 - from_) % 2 ^ 32 < 2 ^ 31).take k
      if l.isEmpty then (.err 0x1F01, s) else (.ok (le 1 l.length ++ [0, 0, 0] ++ l.flatten), s)

/-- LOG_READ. -/
def execLogRead (d : Doorbell) (p : List Byte) (s : State) : Out := command specLogRead d p s

/-- A fault-record slot's bytes. -/
def slotBytes (s : State) (n : Nat) : List Byte := memRead s.boot.mram (slotAddr n) 512

/-- A slot is valid: TAG, COMMIT and CRC32 are correct (R700). -/
def slotValid (b : List Byte) : Bool := fld b 0 4 = 0x46524543 && fld b 508 4 = 0xA5C33C5A && fld b 504 4 = crc32 (b.take 504)

/-- FAULT_READ (R712). -/
def specFaultRead : OpSpec where
  op := 0x1F02
  diag := true
  rsv c := c.zero [(17, 1)]
  body c s :=
    let n := c.u 16 1
    let off := c.u 18 2
    let k := c.u 20 2
    if (15 < n && n != 0xFF) || off % 16 != 0 || 496 < off || k % 16 != 0 || k < 16 || 480 < k || 512 < off + k then (eArg, s)
    else match if n = 0xFF then s.flt.newest else some n with
      | none => (.err 0x1F01, s)
      | some n =>
        let b := slotBytes s n
        if slotValid b then (.ok (slice b off k), s) else (.err 0x1F01, s)

/-- FAULT_READ. -/
def execFaultRead (d : Doorbell) (p : List Byte) (s : State) : Out := command specFaultRead d p s

/-- COUNTER_READ (R713). -/
def specCounterRead : OpSpec where
  op := 0x1F03
  diag := true
  rsv c := c.flagsBelow 18 1
  body c s :=
    let i := c.u 16 1
    let k := c.u 17 1
    if 29 < i + k then (eArg, s)
    else (.ok (((s.flt.counters.drop i).take k).flatMap fun n => le 4 n.toNat),
      if !bit (c.u 18 1) 0 then s else s.onFlt fun f => { f with
        counters := f.counters.zipIdx.map fun x => if i ≤ x.2 && x.2 < i + k then 0 else x.1 })

/-- COUNTER_READ. -/
def execCounterRead (d : Doorbell) (p : List Byte) (s : State) : Out := command specCounterRead d p s

/-- STATUS_READ (R714). -/
def specStatusRead : OpSpec where
  op := 0x1F04
  diag := true
  body _ s :=
    (.ok (statusBytes s ++ ((tjs s).flatMap fun q => leI 2 q) ++ [0, 0] ++ le 8 (servedS s) ++ le 4 s.flt.outages ++ le 8 s.flt.outageMs), s)

/-- STATUS_READ. -/
def execStatusRead (d : Doorbell) (p : List Byte) (s : State) : Out := command specStatusRead d p s

/-- Bits of AUTO_MASK that may be set (R704). -/
def autoMaskOk (m : Nat) : Bool := (List.range 16).all fun i => !bit m i || [3, 4, 5, 6, 7, 9].contains i

/-- WATCHDOG_SET (R715). -/
def specWatchdogSet : OpSpec where
  op := 0x1F05
  modes := inModes [2, 3, 4, 5, 6]
  rsv c := c.zero [(26, 2)]
  body c s :=
    let w := c.u 16 2
    let r := c.u 18 2
    if !((w = 0 || (10 ≤ w && w ≤ 10000)) && (r = 0 || (100 ≤ r && r ≤ 60000)) && autoMaskOk (c.u 20 2) && c.u 22 2 ≤ 60000 &&
      1 ≤ c.u 24 1 && c.u 24 1 ≤ 16 && 60 ≤ c.u 25 1 && c.u 25 1 + 5 ≤ tjShutdown) then (eArg, s)
    else (.ok, s.onFlt fun f => { f with
      wdtMs := w, wdtResetMs := r, autoMask := BitVec.ofNat 16 (c.u 20 2), autoDelayMs := c.u 22 2, autoLimit := c.u 24 1, warnC := some (c.u 25 1) })

/-- WATCHDOG_SET. -/
def execWatchdogSet (d : Doorbell) (p : List Byte) (s : State) : Out := command specWatchdogSet d p s

/-- LOG_CLEAR (R716). -/
def specLogClear : OpSpec where
  op := 0x1F06
  modes := inModes [2, 4, 6]
  rsv c := c.flagsBelow 16 2 && c.zero [(17, 3)]
  objs _ := [.mramLog]
  body c s := if c.u 20 4 != 0x52535452 then (eArg, s) else (.pending, s)

/-- LOG_CLEAR. -/
def execLogClear (d : Doorbell) (p : List Byte) (s : State) : Out := command specLogClear d p s

/-- LOG_CLEAR_DONE (R716): the regions named are zeroed. -/
def execLogClearDone (s : State) : Out :=
  .next (match findLong s 0x1F06 with
    | none => s
    | some l =>
      let w := l.cmd.u 16 1
      let s := s.onBoot fun b => { b with mram := if bit w 0 then memClear b.mram 0x62000 56320 else b.mram }
      let s := s.onBoot fun b => { b with mram := if bit w 1 then memClear b.mram 0x60000 8192 else b.mram }
      endLong l .ok s)

end Sys2Proof.Machine
end

