-- ==== Sys2Proof/Machine/FrontEnd.lean ====
section
/-!
DEFINITION. The wideband front end (chapter 7), but for what the air plan drives.
-/
namespace Sys2Proof.Machine

/-- The front end of a band: 0 M, 1 H. -/
def getBand (s : State) (b : Nat) : Band := if b = 0 then s.fe.m else s.fe.h

/-- Replace the front end of a band by its image. -/
def onBand (b : Nat) (f : Band → Band) (s : State) : State :=
  s.onFe fun x => if b = 0 then { x with m := f x.m } else { x with h := f x.h }

/-- Replace a chain of a band by its image. -/
def onChain (b i : Nat) (f : Chain → Chain) (s : State) : State := onBand b (fun x => { x with chains := updAt x.chains i f }) s

/-- A chain takes part in transmissions: it is enabled and not excluded. -/
def Chain.active (c : Chain) : Bool := c.enabled && c.cause = 0

/-- The domain of a band (R160). -/
def bandDom (b : Nat) : Nat := if b = 0 then 6 else 7

/-- The synthesizer state of a band: 0 SA, 1 SB. -/
def Band.synth (b : Band) (n : Nat) : Nat := if n = 0 then b.sa else b.sb

/-- Set a synthesizer's state. -/
def Band.setSynth (b : Band) (n st : Nat) : Band := if n = 0 then { b with sa := st } else { b with sb := st }

/-- Count an outcome of R249: 0 LATE_LO to 5 COEX_ABORTED. -/
def countOut (b i : Nat) (s : State) : State :=
  onBand b (fun x => { x with outc := x.outc.modify i fun c => BitVec.ofNat 32 (satAdd 32 c.toNat 1) }) s

/-! Channels (R224). -/

/-- Centres of the 5 GHz channelisation by width (log entry 22). -/
def centres5 (w : Nat) : List Nat :=
  match w with
  | 0 => ((List.range 8).map fun i => 5180 + 20 * i) ++ ((List.range 12).map fun i => 5500 + 20 * i) ++ (List.range 8).map fun i => 5745 + 20 * i
  | 1 => ((List.range 4).map fun i => 5190 + 40 * i) ++ ((List.range 6).map fun i => 5510 + 40 * i) ++ (List.range 4).map fun i => 5755 + 40 * i
  | 2 => [5210, 5290, 5530, 5610, 5690, 5775, 5855]
  | _ => [5250, 5570, 5815]

/-- Centres of the 6 GHz channelisation by width (log entry 22). -/
def centres6 (w : Nat) : List Nat :=
  match w with
  | 0 => 5935 :: (List.range 59).map fun i => 5955 + 20 * i
  | 1 => (List.range 29).map fun i => 5965 + 40 * i
  | 2 => (List.range 14).map fun i => 5985 + 80 * i
  | _ => (List.range 7).map fun i => 6025 + 160 * i

/-- A channel is one of its band's (R224). -/
def channelOk (b w centre : Nat) : Bool := (if b = 0 then centres5 w else centres6 w).contains centre

/-! RFFE (R239 to R241). -/

/-- Put a transaction on a bus, behind those that wait. -/
def rffePush (b bus : Nat) (x : Rffe) (s : State) : State :=
  let idle := ((getBand s b).rffe.getD bus []).isEmpty
  let s := onBand b (fun f => { f with rffe := updAt f.rffe bus fun l => l ++ [x] }) s
  if idle then s.emit (.rffe b bus x.usid x.op x.addr x.data) else s

/-- Write a register of a chain's FEM, where it has a USID and the register is defined. -/
def femWrite (b chain reg val : Nat) (s : State) : State :=
  let u := ((getBand s b).chains.getD chain {}).usid
  if reg = 0xFFFF || u = 0 then s else rffePush b (chain / 32) { usid := u, op := 3, addr := reg, data := [BitVec.ofNat 8 val] } s

/-- A USID is shared on its bus (R240). -/
def usidShared (f : Band) (bus u : Nat) : Bool := ((((f.chains.drop (32 * bus)).take 32).filter fun c => c.usid = u).length) > 1

/-- RFFE_ACCESS (R240, R241, R254). -/
def specRffeAccess : OpSpec where
  op := 0x0405
  modes := inModes [4, 6]
  rsv c := c.zero [(23, 1)]
  needs c := [bandDom (c.u 16 1)]
  body c s :=
    let b := c.u 16 1
    let bus := c.u 17 1
    let u := c.u 18 1
    let op := c.u 19 1
    let addr := c.u 20 2
    let k := c.u 22 1
    let addrOk := if op = 0 then addr = 0 else if op ≤ 2 then addr ≤ 0x1F else addr ≤ 0xFF
    let read := op = 2 || op = 4
    if b > 1 || bus > 2 || u > 15 || op > 4 || !addrOk || k < 1 || (if op < 3 then 1 < k else 4 < k) ||
      (read && (u = 0 || usidShared (getBand s b) bus u)) then (eArg, s)
    else (.wait, rffePush b bus { usid := u, op, addr, data := if read then [] else c.bytes 24 k, count := k, by_ := some c } s)

/-- RFFE_ACCESS. -/
def execRffeAccess (d : Doorbell) (p : List Byte) (s : State) : Out := command specRffeAccess d p s

/-- The next transaction of a bus begins. -/
def rffeNext (b bus : Nat) (s : State) : State :=
  let s := onBand b (fun f => { f with rffe := updAt f.rffe bus fun l => l.drop 1 }) s
  match (getBand s b).rffe.getD bus [] with
  | x :: _ => s.emit (.rffe b bus x.usid x.op x.addr x.data)
  | [] => s

/-- RFFE_TRANSACTION_DONE (R241). -/
def execRffeTransactionDone (band : BandId) (bus : Nat) (parityOk : Bool) (data : List Byte) (s : State) : Out :=
  let b := band.num
  .next (match (getBand s b).rffe.getD bus [] with
    | [] => s
    | x :: rest =>
      let read := x.op = 2 || x.op = 4
      let answer (a : Ans) (s : State) : State := match x.by_ with
        | some c => post c a s
        | none => s
      if read && !parityOk then
        if x.retried then
          rffeNext b bus (answer (.err 0x0403) (raise 0x0485 none [BitVec.ofNat 8 b, BitVec.ofNat 8 bus, BitVec.ofNat 8 x.usid, 1] s))
        else
          (onBand b (fun f => { f with rffe := setAt f.rffe bus ({ x with retried := true } :: rest) }) s).emit (.rffe b bus x.usid x.op x.addr [])
      else rffeNext b bus (answer (.ok (pad 4 (if read then data.take x.count else []))) s))

/-! Chains (R244, R245, R251, R252). -/

/-- A task is ready (R591). -/
def taskReady (c : Col) (t : Task) : Bool :=
  let m := t.flags &&& t.waitMask
  ((Tab.get? c.kernels t.kernel).map (·.started)).getD false && t.waitMask != 0 && (if t.all then m == t.waitMask else m != 0)

/-- A source of Col fires: each binding to it sets its flag (R592, R593). -/
def colEvent (source param : Nat) (s : State) : State :=
  let up (t : Task) : Task :=
    let bits := (t.binds.filter fun b => b.1 = source && b.2.2 = param).foldl (fun w b => w ||| ((1 : W64) <<< b.2.1)) 0
    let u := { t with flags := t.flags ||| bits }
    if !taskReady s.col t && taskReady s.col u then { u with readyNs := nowNs s } else u
  (s.onCol fun c => { c with tasks := c.tasks.map fun e => (e.1, up e.2) }).emit (.col source param)

/-- A chain is excluded: cause 1 mismatch, 2 calibration (R244). -/
def excludeChain (b i cause rl : Nat) (s : State) : State :=
  let f := getBand s b
  let s := onChain b i (fun c => { c with cause, proving := false, suspect := false }) s
  let s := s.onOuts fun o => { o with dac := o.dac &&& ~~~(1 <<< (96 * b + i) : BitVec 192) }
  let s := femWrite b i f.stbyReg f.stbyVal s
  colEvent 1 b (raise 0x0483 none [BitVec.ofNat 8 b, BitVec.ofNat 8 i, BitVec.ofNat 8 cause, BitVec.ofNat 8 rl] s)

/-- CHAIN_ENABLE (R245, R251). -/
def specChainEnable : OpSpec where
  op := 0x0402
  modes := inModes [2, 4, 5, 6]
  rsv c := c.zero [(17, 3)]
  objs c := [.band (c.u 16 1)]
  needs c := [bandDom (c.u 16 1)]
  body c s :=
    let b := c.u 16 1
    if b > 1 then (eArg, s)
    else
      let on (i : Nat) : Bool := bit (c.u (20 + i / 8) 1) (i % 8)
      let f := getBand s b
      let back := (List.range 96).filter fun i => on i && (f.chains.getD i {}).cause != 0
      let bad (i : Nat) : Bool :=
        ((((Tab.getD s.cal.groups (12 * b + i / 8) {}).slices.filter fun y => y.role = 0 && y.pos = i % 8 && y.failed != 0)).length) > 0
      let again := back.filter bad
      let back := back.filter fun i => !bad i
      let en (k : Chain) (i : Nat) : Chain :=
        if !on i then { k with enabled := false }
        else if bad i then { k with enabled := true }
        else { k with enabled := true, proving := k.proving || k.cause != 0, cause := 0 }
      let s := onBand b (fun f => { f with chains := f.chains.zipIdx.map fun x => en x.1 x.2 }) s
      let s := back.foldl (fun s i => femWrite b i f.stbyReg f.actVal s) s
      let s := again.foldl (fun s i => raise 0x0483 none [BitVec.ofNat 8 b, BitVec.ofNat 8 i, 2, BitVec.ofNat 8 ((f.chains.getD i {}).rl)] s) s
      (.okAir, refreshOuts (colEvent 1 b s))

/-- CHAIN_ENABLE. -/
def execChainEnable (d : Doorbell) (p : List Byte) (s : State) : Out := command specChainEnable d p s

/-- The first chain of a TXPWR_SET whose drive falls outside -24.00 to +6.00 dBm (R233). -/
def badDrive (c : Cmd) (gain : Int) (first n : Nat) : Option Nat :=
  (List.range n).findSome? fun i =>
    let d := c.i (20 + 2 * i) 2 - gain
    if d < -96 || 24 < d then some (first + i) else none

/-- TXPWR_SET (R233, R252). -/
def specTxpwrSet : OpSpec where
  op := 0x0403
  modes := inModes [2, 4, 5, 6]
  rsv c := c.zero [(17, 1)]
  objs c := [.band (c.u 16 1)]
  needs c := [bandDom (c.u 16 1)]
  body c s :=
    let b := c.u 16 1
    let i0 := c.u 18 1
    let n := c.u 19 1
    if b > 1 || 95 < i0 || n < 1 || 96 < i0 + n then (eArg, s)
    else
      let g := (getBand s b).femGain
      match badDrive c g i0 n with
      | some i => (.err 0x0402 [BitVec.ofNat 8 i], s)
      | none =>
        let up (k : Chain) (i : Nat) : Chain :=
          let t := c.i (20 + 2 * (i - i0)) 2
          if i0 ≤ i && i < i0 + n then { k with txpwr := t, drive := t - g, powerSet := true } else k
        (.okAir, onBand b (fun f => { f with chains := f.chains.zipIdx.map fun x => up x.1 x.2 }) s)

/-- TXPWR_SET. -/
def execTxpwrSet (d : Doorbell) (p : List Byte) (s : State) : Out := command specTxpwrSet d p s

/-- The fields of FEM_CONFIG are in range (R236, R253). -/
def femConfigOk (c : Cmd) : Bool :=
  c.u 16 1 ≤ 1 && c.u 17 1 ≤ 1 && c.u 20 2 ≤ 1000 && c.u 22 2 ≤ 2000 && c.u 24 2 ≤ 3000 && c.u 26 2 ≤ 1000 && c.u 28 2 ≤ 2000 && c.u 30 2 ≤ 2000 &&
  c.u 20 2 + c.u 22 2 + c.u 24 2 ≤ 4000 && c.u 26 2 + c.u 28 2 + c.u 30 2 ≤ 4000 && 0 ≤ c.i 32 2 && c.i 32 2 ≤ 160 &&
  40 ≤ c.u 34 2 && c.u 34 2 ≤ 200 && 10 ≤ c.u 44 2 && c.u 44 2 ≤ 1000

/-- FEM_CONFIG (R253). -/
def specFemConfig : OpSpec where
  op := 0x0404
  modes := inModes [2, 4, 6]
  rsv c := c.zero [(18, 2), (46, 2)] && (List.range 96).all fun i => c.u (48 + i) 1 < 16
  objs c := [.band (c.u 16 1)]
  needs c := [bandDom (c.u 16 1)]
  body c s :=
    if !femConfigOk c then (eArg, s)
    else
      let g := c.i 32 2
      (.ok, onBand (c.u 16 1) (fun f => { f with
        sclk := c.u 17 1, tLnaOff := c.u 20 2, tTrsw := c.u 22 2, tPa := c.u 24 2, tHold := c.u 26 2, tPaOff := c.u 28 2, tRx := c.u 30 2,
        femGain := g, cplLoss := c.u 34 2, cplReg := c.u 36 2, cplFwd := c.u 38 1, cplRev := c.u 39 1, stbyReg := c.u 40 2, stbyVal := c.u 42 1,
        actVal := c.u 43 1, mmInterval := c.u 44 2,
        chains := f.chains.zipIdx.map fun x =>
          if x.1.powerSet then { x.1 with usid := c.u (48 + x.2) 1, drive := max (-96) (min 24 (x.1.txpwr - g)) }
          else { x.1 with usid := c.u (48 + x.2) 1, txpwr := x.1.drive + g } }) s)

/-- FEM_CONFIG. -/
def execFemConfig (d : Doorbell) (p : List Byte) (s : State) : Out := command specFemConfig d p s

/-! Mismatch (R243 to R245). -/

/-- Write a value to the coupler register of every FEM of a group, each USID once. -/
def coupler (b g val : Nat) (s : State) : State :=
  let f := getBand s b
  let us := (((f.chains.drop (8 * g)).take 8).map (·.usid)).eraseDups.filter (· != 0)
  us.foldl (fun s u => rffePush b (g / 4) { usid := u, op := 3, addr := f.cplReg, data := [BitVec.ofNat 8 val] } s) s

/-- MISMATCH_MEASURE_DUE (R243). -/
def execMismatchMeasureDue (band : BandId) (s : State) : Out :=
  let b := band.num
  let f := getBand s b
  .next (onlyIf (s.modes.mode = 5 && f.cplReg != 0xFFFF && f.mmGroup.isNone) (fun s =>
    coupler b f.mmNext f.cplRev (onBand b (fun f => { f with mmGroup := some f.mmNext, mmNext := (f.mmNext + 1) % 12 }) s)) s)

/-- A chain's return loss is judged (R244, R245). -/
def judgeRl (b i rl : Nat) (s : State) : State :=
  let c := (getBand s b).chains.getD i {}
  let s := onChain b i (fun c => { c with rl := min rl 0xFE }) s
  if !c.active then s
  else if c.proving then
    if 24 ≤ rl then
      raise 0x0484 none [BitVec.ofNat 8 b, BitVec.ofNat 8 i, 0, BitVec.ofNat 8 (min rl 0xFE)] (onChain b i (fun c => { c with proving := false }) s)
    else excludeChain b i 1 rl s
  else if 24 ≤ rl then onChain b i (fun c => { c with suspect := false }) s
  else if c.suspect then excludeChain b i 1 rl s
  else onChain b i (fun c => { c with suspect := true }) s

/-- MISMATCH_CAPTURE_DONE (R243): the return losses of the group's eight chains, in 0.25 dB. -/
def execMismatchCaptureDone (band : BandId) (rl : List Nat) (s : State) : Out :=
  let b := band.num
  .next (match (getBand s b).mmGroup with
    | none => s
    | some g =>
      let s := (rl.take 8).zipIdx.foldl (fun s x => judgeRl b (8 * g + x.2) x.1 s) s
      let s := coupler b g (getBand s b).cplFwd s
      let again := (((getBand s b).chains.drop (8 * g)).take 8).any (·.suspect)
      onBand b (fun f => { f with mmGroup := none, mmNext := if again then g else f.mmNext }) s)

/-! Coexistence settings (R255, R256). -/

/-- COEX_CONFIG (R255). -/
def specCoexConfig : OpSpec where
  op := 0x0406
  modes := inModes [2, 4]
  rsv c := c.flagsBelow 17 2 && c.flagsBelow 21 1 && c.zero [(22, 2)]
  body c s :=
    if c.u 16 1 > 2 || c.u 18 2 < 2 || 100 < c.u 18 2 || c.u 20 1 > 2 then (eArg, s)
    else (.okAir, s.onFe fun f => { f with
      coexMode := c.u 16 1, coexMask := c.u 17 1, reqLead := c.u 18 2, priPolicy := c.u 20 1, coexResp := bit (c.u 21 1) 0 })

/-- COEX_CONFIG. -/
def execCoexConfig (d : Doorbell) (p : List Byte) (s : State) : Out := command specCoexConfig d p s

/-- BLANK_MAP (R256). -/
def specBlankMap : OpSpec where
  op := 0x0407
  modes := inModes [2, 4]
  rsv c := ([16, 17, 18, 19].all fun o => c.flagsBelow o 6) && c.zero [(22, 2)]
  body c s :=
    if 10000 < c.u 20 2 then (eArg, s)
    else (.okAir, s.onFe fun f => { f with blankMap := [16, 17, 18, 19].map fun o => BitVec.ofNat 6 (c.u o 1), blankTail := c.u 20 2 })

/-- BLANK_MAP. -/
def execBlankMap (d : Doorbell) (p : List Byte) (s : State) : Out := command specBlankMap d p s

/-- Some asserted input blanks a radio: 0 M, 1 H, 2 to 5 L0 to L3 (R248). -/
def blanked (s : State) (radio : Nat) : Bool :=
  s.fe.coexMode = 2 && (List.range 4).any fun i => s.fe.blankIn.getLsbD i && (s.fe.blankMap.getD i 0).getLsbD radio

/-! Channel changes (R230, R250). -/

/-- The band's channel becomes another (R230); the stored channel state goes (R250). -/
def setChannel (b : Nat) (ch : Channel) (s : State) : State :=
  let key (k : Nat) : Bool := k / 512 % 2 = b
  let s := onBand b (fun f => { f with ch }) s
  s.onAir fun a => { a with csi := a.csi.filter fun e => !key e.1, csiNew := a.csiNew.filter fun e => !key e.1 }

/-- BAND_CONFIG (R224, R230, R250). -/
def specBandConfig : OpSpec where
  op := 0x0401
  modes := inModes [4, 5, 6]
  rsv c := c.flagsBelow 21 1 && c.zero [(22, 2)]
  objs c := [.band (c.u 16 1)]
  needs c := [bandDom (c.u 16 1)]
  body c s :=
    let b := c.u 16 1
    let w := c.u 17 1
    if b > 1 || w > 3 || c.u 20 1 ≥ 2 ^ w then (eArg, s)
    else if !channelOk b w (c.u 18 2) then (.err 0x0401, s)
    else if s.modes.mode = 5 && bandFlows s b then (eState, s)
    else
      let ch : Channel := { width := w, center := c.u 18 2, primary := c.u 20 1, enable := bit (c.u 21 1) 0 }
      let re (f : Band) (n : Nat) : Band := if f.synth n = 4 then f else f.setSynth n 3
      (.pending, onBand b (fun f =>
        let f := { f with retune := some ch, tracked := false }
        if s.modes.mode = 5 then re f (1 - f.main) else { re (re f 0) 1 with loReady := false }) s)

/-- BAND_CONFIG. -/
def execBandConfig (d : Doorbell) (p : List Byte) (s : State) : Out := command specBandConfig d p s

/-- CHAIN_STATUS (R257). -/
def specChainStatus : OpSpec where
  op := 0x0408
  rsv c := c.zero [(19, 1)]
  needs c := [bandDom (c.u 16 1)]
  body c s :=
    let b := c.u 16 1
    let i0 := c.u 17 1
    let n := c.u 18 1
    if b > 1 || 95 < i0 || n < 1 || 48 < n || 96 < i0 + n then (eArg, s)
    else
      let f := getBand s b
      let st (x : Chain) : Nat := if x.cause != 0 then 2 else if x.enabled then 1 else 0
      (.ok (le 1 b ++ le 1 f.main ++ le 1 f.sa ++ le 1 f.sb ++ le 2 f.ch.center ++ le 1 f.ch.width ++
        le 1 ((f.chains.filter fun x => x.cause != 0).length) ++ (f.outc.flatMap fun x => le 4 x.toNat) ++
        ((f.chains.drop i0).take n).flatMap fun x => le 1 (st x) ++ le 1 x.cause ++ le 1 x.slice ++ le 1 x.rl ++ leI 2 x.txpwr ++
          leI 1 (if x.proving then -96 else x.drive) ++ [0]), s)

/-- CHAIN_STATUS. -/
def execChainStatus (d : Doorbell) (p : List Byte) (s : State) : Out := command specChainStatus d p s

/-- STANDBY_RELOCKED (R227, R230): the standby is locked and phase-tracked again; where the main has FAILED it becomes the main. -/
def execStandbyRelocked (band : BandId) (synth : Bool) (s : State) : Out :=
  let b := band.num
  let n := b2n synth
  let f := getBand s b
  .next (onlyIf ((f.synth n = 2 || f.synth n = 3) && n != f.main && 4 ≤ s.modes.mode && s.modes.mode ≤ 6) (fun s =>
    let g := { (f.setSynth n 1) with saTried := if n = 0 then false else f.saTried, sbTried := if n = 1 then false else f.sbTried }
    if f.synth f.main = 4 then
      let (r, s) := s.draw 65536
      raise 0x0480 none ([BitVec.ofNat 8 b, BitVec.ofNat 8 n, 0, 0] ++ le 2 r) (onBand b (fun _ => { g with main := n, tracked := false, loReady := true }) s)
    else onBand b (fun _ => { g with tracked := true }) s) s)

/-! Tests (R258, R259). -/

/-- The groups of a band that a chain number names: one, or all groups with an enabled chain. -/
def testGroups (f : Band) (chain : Nat) : List Nat := (List.range 12).filter fun g => f.groupOn g && (chain = 0xFF || chain / 8 = g)

/-- A line mask of groups of a band. -/
def lineMask (b : Nat) (gs : List Nat) : BitVec 24 := BitVec.ofNat 24 (sumOf (gs.map fun g => 2 ^ (12 * b + g)))

/-- FACTORY_TEST (R231, R258). -/
def specFactoryTest : OpSpec where
  op := 0x0409
  modes := inModes [6]
  rsv c := c.zero [(19, 1), (28, 4)]
  objs c := [.band (c.u 17 1)]
  needs c := [bandDom (c.u 17 1)]
  body c s :=
    let b := c.u 17 1
    let ch := c.u 18 1
    let half : Int := 10000 * 2 ^ (getBand s b).ch.width
    if c.u 16 1 > 1 || b > 1 || (95 < ch && ch != 0xFF) || c.i 20 4 < -half || half < c.i 20 4 || c.i 24 2 < -96 || 24 < c.i 24 2 ||
      c.u 26 2 < 1 || 10000 < c.u 26 2 then (eArg, s)
    else if opPending s 0x0501 then (eBusy, s)
    else
      let m := lineMask b (testGroups (getBand s b) ch)
      (.pending, (s.onFe fun f => { f with test := some (c.u 16 1, b, ch) }).onOuts fun o => { o with
        paen := o.paen ||| m, trsw := o.trsw ||| m, lnaen := o.lnaen &&& ~~~m,
        dac := if c.u 16 1 = 0 then (if ch = 0xFF then BitVec.ofNat 192 ((2 ^ 96 - 1) * 2 ^ (96 * b)) else (1 <<< (96 * b + ch) : BitVec 192)) else o.dac })

/-- FACTORY_TEST. -/
def execFactoryTest (d : Doorbell) (p : List Byte) (s : State) : Out := command specFactoryTest d p s

/-- FACTORY_TEST_DONE (R258). -/
def execFactoryTestDone (s : State) : Out :=
  .next (match s.fe.test with
    | none => s
    | some _ =>
      let s := (s.onFe fun f => { f with test := none }).onOuts fun o => { o with paen := 0, trsw := 0, dac := 0 }
      endOp 0x0409 .ok (refreshOuts s))

/-- SPECTRUM_SURVEY (R259). -/
def specSpectrumSurvey : OpSpec where
  op := 0x040A
  modes := inModes [6]
  rsv c := c.zero [(18, 2), (29, 3)]
  objs c := [.band (c.u 16 1)]
  needs c := [bandDom (c.u 16 1)]
  body c s :=
    let b := c.u 16 1
    let a := c.u 20 2
    let z := c.u 22 2
    let r := c.u 28 1
    let lo := if b = 0 then 5150 else 5925
    let hi := if b = 0 then 5925 else 7125
    if b > 1 || 95 < c.u 17 1 || a < lo || hi < a || z < lo || hi < z || z < a || c.u 24 4 < 100 || 1000000 < c.u 24 4 ||
      !(32 ≤ r && r ≤ 61 && (getRing s r).type = 2) then (eArg, s)
    else (.pending, refreshOuts (s.onFe fun f => { f with survey := some (b, c.u 17 1, a, z, c.u 24 4, r) }))

/-- SPECTRUM_SURVEY. -/
def execSpectrumSurvey (d : Doorbell) (p : List Byte) (s : State) : Out := command specSpectrumSurvey d p s

/-- SURVEY_SPAN_DONE (R259). -/
def execSurveySpanDone (bins : List Byte) (s : State) : Out :=
  .next (match s.fe.survey with
    | none => s
    | some (b, ch, a, z, dwell, r) =>
      let bytes := le 2 (a + 80) ++ le 1 ch ++ [0, 0, 0, 0, 0] ++ le 8 (curBeat s) ++ pad 512 bins
      let s := hostQueue r { srcType := 2, reason := 1, srcId := 0, ts := nowNs s, bytes } s
      if z ≤ a + 160 then endOp 0x040A .ok (refreshOuts (s.onFe fun f => { f with survey := none }))
      else s.onFe fun f => { f with survey := some (b, ch, a + 160, z, dwell, r) })

end Sys2Proof.Machine
end

