-- ==== Sys2Proof/Machine/Calibration.lean ====
section
/-!
DEFINITION. Calibration and trimming (chapter 8).
-/
namespace Sys2Proof.Machine

/-! Indices: chains 0 to 95 M, 96 to 191 H, 192 to 195 L0 to L3; slices 108 x band + 9 x group + slice. -/

/-- The calibration state of a chain. -/
def getCC (s : State) (i : Nat) : ChainCal := Tab.getD s.cal.chains i {}

/-- Replace the calibration state of a chain by its image. -/
def onCC (i : Nat) (f : ChainCal → ChainCal) (s : State) : State := s.onCal fun c => { c with chains := Tab.upd c.chains i {} f }

/-- The calibration state of a group of a band. -/
def getGC (s : State) (b g : Nat) : GroupCal := Tab.getD s.cal.groups (12 * b + g) {}

/-- Replace the calibration state of a group by its image. -/
def onGC (b g : Nat) (f : GroupCal → GroupCal) (s : State) : State :=
  s.onCal fun c => { c with groups := Tab.upd c.groups (12 * b + g) {} f }

/-- Replace a slice of a group by its image. -/
def onSlice (b g k : Nat) (f : Slice → Slice) (s : State) : State := onGC b g (fun x => { x with slices := updAt x.slices k f }) s

/-- The band of a chain index: 0 M, 1 H, 2 L (R289). -/
def ccBand (i : Nat) : Nat := if i < 192 then i / 96 else 2

/-- The chain's number in its band. -/
def ccNum (i : Nat) : Nat := if i < 192 then i % 96 else i - 192

/-- The temperature of a chain index (R266), 0.25 C. -/
def ccTemp (s : State) (i : Nat) : Int := if i < 192 then (getGC s (i / 96) (i % 96 / 8)).temp else s.cal.nbTemp.getD (i - 192) 0

/-! Values (R262, R263, R267, R268). -/

/-- Two values of a type agree (R260, R262). The spec gives no tolerance for the delay of array reciprocity. -/
def calAgree (type : Nat) (a b : List Int) : Bool :=
  let within (l : List Int) : Bool := a.length = b.length && ((a.zip b).zip l).all fun x => (x.1.1 - x.1.2).natAbs < x.2.natAbs
  match type with
  | 0 => a.head? == b.head?
  | 1 => a.length = b.length && (a.zip b).all fun x => (x.1 - x.2).natAbs < 2
  | 5 => within [10]
  | 6 => within [200, 100]
  | 7 => Config.paAgree a b
  | _ => a.length = b.length && (a.zip b).all fun x => (x.1 - x.2).natAbs < 1

/-- The mean of two codes, a tie going toward the previous code (R262). -/
def mean2 (a b : Int) (prev : Option Int) : Int :=
  let lo := (a + b) / 2
  if (a + b) % 2 = 0 then lo
  else match prev with
    | some p => if p ≤ lo then lo else lo + 1
    | none => if Config.tieUp (a + b) then lo + 1 else lo

/-- The mean of two values. -/
def calMean (a b : List Int) (prev : Option (List Int)) : List Int :=
  (a.zip b).zipIdx.map fun x => mean2 x.1.1 x.1.2 (prev.bind fun p => p[x.2]?)

/-- How far two values lie apart. -/
def calDist (a b : List Int) : Nat := sumOf ((a.zip b).map fun x => (x.1 - x.2).natAbs)

/-- The highest code of each element of a type's trim; a type with digital trim has none (R260). -/
def trimTop (l : Bool) (type : Nat) : List Int :=
  match type with
  | 0 => [255, 15]
  | 1 => List.replicate 6 255
  | 2 => [63]
  | 3 => [127, 127, 255, 255]
  | 4 => [127, 127]
  | 7 => if l then [63] else []
  | _ => []

/-- A value clamped to its trim's range, and whether it lay outside (R263). -/
def clampTrim (l : Bool) (type : Nat) (v : List Int) : List Int × Bool :=
  let top := trimTop l type
  let w := v.zipIdx.map fun x => match top[x.2]? with
    | some t => max 0 (min t x.1)
    | none => x.1
  (w, w != v)

/-- The outcome of repeat-must-agree: the value accepted, if one is, and the result code (R262, R263). -/
def calDecide (l : Bool) (m : CalMeas) (prev : Option (List Int)) : Option (List Int) × Nat :=
  let close (v : List Int) (r : Nat) : Option (List Int) × Nat :=
    let (w, out) := clampTrim l m.type v
    (some w, if out then 5 else r)
  if m.aborted then (none, 4)
  else if calAgree m.type m.m1 m.m2 then close (calMean m.m1 m.m2 prev) 1
  else if calAgree m.type m.m3 m.m1 || calAgree m.type m.m3 m.m2 then
    close (calMean m.m3 (if calDist m.m3 m.m1 ≤ calDist m.m3 m.m2 then m.m1 else m.m2) prev) 2
  else (none, 3)

/-- The nine temperature points, 0.25 C (R267). -/
def calPoints : List Int := [-160, -80, 0, 80, 160, 240, 320, 400, 460]

/-- The point within 5 C of a temperature, if any (R267). -/
def nearPoint (t : Int) : Option Nat := calPoints.findIdx? fun p => (t - p).natAbs ≤ 20

/-- Rounded division to the nearest integer. -/
def roundDiv (n : Int) (d : Nat) : Int :=
  let q := n / d
  let r := n % d
  if 2 * r < d then q else if 2 * r = d then (if Config.tieUp n then q + 1 else q) else q + 1

/-- The linear interpolation between two points, rounded to the nearest code (R268). -/
def interp (a b : List Int) (pa pb t : Int) : List Int :=
  (a.zip b).map fun x => x.1 + roundDiv ((x.2 - x.1) * (t - pa)) (pb - pa).toNat

/-- The value that the points give at a temperature, and NEAR (R268). -/
def formed (at_ : Nat → Option (List Int)) (t : Int) : Option (List Int × Bool) :=
  let ok := calPoints.zipIdx.filterMap fun x => (at_ x.2).map fun v => (x.1, v)
  if t < -160 then (at_ 0).map fun v => (v, false)
  else if 460 ≤ t then (at_ 8).map fun v => (v, false)
  else match (ok.filter fun x => x.1 ≤ t).getLast?, (ok.filter fun x => t ≤ x.1).head? with
    | some (pa, a), some (pb, b) => some (if pa = pb then a else interp a b pa pb t, false)
    | some (pa, a), none => if t - pa ≤ 40 then some (a, true) else none
    | none, some (pb, b) => if pb - t ≤ 40 then some (b, true) else none
    | none, none => none

/-! Records (R286, R287). -/

/-- MRAM address of a chain record. -/
def recAddr (k : Nat) : Nat := 0x41000 + 48 * k

/-- The chain record as stored. -/
def storedRec (s : State) (k : Nat) : List Byte := memRead s.boot.mram (recAddr k) 48

/-- A stored record is valid: VALID is set, its CRC holds and no word of it is uncorrectable. -/
def storedOk (s : State) (k : Nat) : Bool :=
  let r := storedRec s k
  bit (fld r 0 1) 7 && fld r 46 2 = Config.crc16 (r.take 46) % 65536 &&
    !s.boot.mramBad.any fun w => recAddr k ≤ w + 7 && w < recAddr k + 48

/-- The record held at a point, if it is valid. -/
def heldRec (s : State) (k : Nat) : Option (List Byte) :=
  match Tab.get? s.cal.edits k with
  | some r => some r
  | none => if storedOk s k then some (storedRec s k) else none

/-- Where a type's value lies in a record: offset, bytes of an element, elements, signedness of each. -/
def recField (l : Bool) (type : Nat) : Option (Nat × Nat × List Bool) :=
  match type with
  | 0 => if l then some (28, 1, [false]) else none
  | 3 => some (6, 1, [false, false, false, false])
  | 4 => some (10, 1, [false, false])
  | 5 => some (12, 2, [true])
  | 6 => if l then none else some (16, 2, [true, false, true])
  | 7 => if l then some (29, 1, [false]) else some (22, 2, [true, true, true])
  | _ => none

/-- The value of a type that a record holds. -/
def recVal (l : Bool) (type : Nat) (r : List Byte) : Option (List Int) :=
  (recField l type).map fun f => f.2.2.zipIdx.map fun x =>
    let n := fld r (f.1 + f.2.1 * x.2) f.2.1
    if x.1 then signed (8 * f.2.1) n else n

/-- A record with a type's value written into it. -/
def recPut (l : Bool) (type : Nat) (v : List Int) (r : List Byte) : List Byte :=
  match recField l type with
  | some f => patch r f.1 ((v.take f.2.2.length).flatMap fun x => leI f.2.1 x)
  | none => r

/-- A record closed with its CRC. -/
def recClose (r : List Byte) : List Byte := patch r 46 (le 2 (Config.crc16 (r.take 46) % 65536))

/-- The values of a slice record held at a point. -/
def heldSlice (s : State) (k : Nat) : Tab (List Int) :=
  match Tab.get? s.cal.sliceEdits k with
  | some v => v
  | none => Tab.getD s.boot.calSlices k []

/-- The value that a chain's points give for a type at its temperature. -/
def chainFormed (s : State) (i type : Nat) : Option (List Int × Bool) :=
  formed (fun p => (heldRec s (9 * i + p)).bind (recVal (192 ≤ i) type)) (ccTemp s i)

/-- The value that a slice's points give for a type. -/
def sliceFormed (s : State) (sl type : Nat) : Option (List Int × Bool) :=
  formed (fun p => Tab.get? (heldSlice s (9 * sl + p)) type) (getGC s (sl / 108) (sl % 108 / 9)).temp

/-- A value accepted since the temperature last changed by TEMP_STEP_C overrides the formed value (R268). -/
def liveOver (s : State) (live : Tab (List Int × Int)) (type : Nat) (t : Int) (f : Option (List Int × Bool)) : Option (List Int × Bool) :=
  match Tab.get? live type with
  | some (v, at_) => if (t - at_).natAbs < 4 * s.cal.tempStep then some (v, false) else match f with
    | some x => some x
    | none => some (v, false)
  | none => f

/-- The value of a chain-level type of a chain. -/
def chainVal (s : State) (i type : Nat) : Option (List Int × Bool) :=
  liveOver s (getCC s i).live type (ccTemp s i) (chainFormed s i type)

/-- Stored calibration is valid at the current temperature for every enabled chain (R93, R269). -/
def calValid (s : State) : Bool :=
  [0, 1].all fun b => (getBand s b).chains.zipIdx.all fun x =>
    !x.1.enabled ||
      (([3, 4, 5, 6, 7].all fun t => (chainFormed s (96 * b + x.2) t).isSome) &&
       [1, 2].all fun t => (sliceFormed s (108 * b + 9 * (x.2 / 8) + x.1.slice) t).isSome)

/-! Slices (R272 to R277). -/

/-- The spare of a group, matching or not. -/
def spareOf (g : GroupCal) : Option Nat := g.slices.findIdx? fun x => x.role = 1 || x.role = 2

/-- A slice is retired: it is recorded in the header, and its group has no spare (R275, R277). -/
def retireSlice (b g k cause : Nat) (s : State) : State :=
  let s := onGC b g (fun x => { x with slices := updAt x.slices k fun y => { y with role := 3, pos := 0xFF, failed := 0 }, suspended := true, skipRun := 0 }) s
  let n := 108 * b + 9 * g + k
  let s := s.onBoot fun x => { x with calRetired := if x.calRetired.contains n then x.calRetired else n :: x.calRetired }
  let s := raise 0x0582 none [BitVec.ofNat 8 b, BitVec.ofNat 8 g, BitVec.ofNat 8 k, BitVec.ofNat 8 cause] s
  raise 0x0583 none [BitVec.ofNat 8 b, BitVec.ofNat 8 g] s

/-- A slice fails validation: cause 1 out of trim, 2 disagreement, 3 matching (R275, R276). -/
def failSlice (b g k cause : Nat) (s : State) : State :=
  let x := getGC s b g
  let y := x.slices.getD k {}
  if y.role = 1 || y.role = 2 then retireSlice b g k cause s
  else if y.role = 3 || y.failed != 0 then s
  else
    let s := onSlice b g k (fun y => { y with failed := cause }) s
    let s := excludeChain b (8 * g + y.pos) 2 ((getBand s b).chains.getD (8 * g + y.pos) {}).rl s
    match spareOf x with
    | some sp =>
      if x.replace.isSome then s
      else onGC b g (fun x => { x with replace := some (k, y.pos, sp), slices := updAt x.slices sp fun z => { z with role := 2 } }) s
    | none => s

/-- A slice takes a chain position. -/
def seatSlice (b g k j : Nat) (s : State) : State :=
  onChain b (8 * g + j) (fun c => { c with slice := k }) (onSlice b g k (fun y => { y with role := 0, pos := j }) s)

/-- The swap of a group's visit: a permanent replacement, or the normal swap where the spare has been matched (R273 to R275). -/
def visitSwap (b g : Nat) (matched : Bool) (s : State) : State :=
  let x := getGC s b g
  match x.replace with
  | some (k, j, sp) =>
    let cause := (x.slices.getD k {}).failed
    retireSlice b g k cause (seatSlice b g sp j (onGC b g (fun x => { x with replace := none }) s))
  | none => match x.suspended, spareOf x with
    | false, some sp =>
      if matched then
        let j := x.swaps % 8
        match x.slices.findIdx? fun y => y.role = 0 && y.pos = j with
        | some k =>
          let s := onSlice b g k (fun y => { y with role := 1, pos := 0xFF, spares := satAdd 32 y.spares 1 }) s
          let s := onGC b g (fun x => { x with swaps := satAdd 32 x.swaps 1, skipRun := 0 }) (seatSlice b g sp j s)
          s.onCal fun c => { c with swapCount := bump c.swapCount b }
        | none => s
      else
        let s := s.onCal fun c => { c with swapSkipped := bump c.swapSkipped b }
        let s := onGC b g (fun x => { x with skipRun := x.skipRun + 1, slices := updAt x.slices sp fun y => { y with role := 1 } }) s
        if x.skipRun + 1 ≥ 3 then failSlice b g sp 3 s else s
    | _, _ => s

/-! Gaps (R270, R271, R280). -/

/-- A beat is a gap beat of a band (R270). -/
def gapBeat (s : State) (b beat : Nat) : Bool := beat % s.cal.gapInterval = if b = 0 then 0 else s.cal.gapInterval / 2

/-- The changed codes of a chain are applied (R268, R271). -/
def applyCodes (i : Nat) (s : State) : State :=
  let vs := (List.range 8).filterMap fun t => (chainVal s i t).map fun v => (t, v)
  onCC i (fun c => { c with force := vs.map fun x => (x.1, x.2.1), near := vs.any fun x => x.2.2 }) s

/-- The power loop's step of a chain, from the forward level at full-scale drive in 0.01 dB (R280). -/
def powerStep (b i : Nat) (level : Int) (s : State) : State :=
  let f := getBand s b
  let c := f.chains.getD i {}
  let det := ((chainVal s (96 * b + i) 5).map fun v => v.1.headD 0).getD 0
  let miss := 25 * c.txpwr - (level + 25 * f.cplLoss + det)
  if !c.enabled || c.cause != 0 || miss.natAbs ≤ 25 then s
  else if 600 < 25 * c.drive + miss then
    onChain b i (fun c => { c with drive := 24 }) (s.onCal fun k => { k with powerShort := bump k.powerShort b })
  else
    let (k, s) := s.draw 5
    let g := (getCC s (96 * b + i)).digGain
    let g' := if 0 < miss then g + k else g - k
    onChain b i (fun c => { c with drive := max (-96) (min 24 (c.drive + (g' / 4 - g / 4))) }) (onCC (96 * b + i) (fun c => { c with digGain := g' }) s)

/-- The types that a visit makes due for a chain (R260, R271, R279). -/
def visitDue (s : State) : List Nat := [3, 4, 7].filter fun t => s.cal.bgTypes.getLsbD t

/-- CAL_GAP (R271): `matched` tells whether the spare has reached the limits of R273; `fwd` gives the forward levels of chains of the
group, by position. -/
def execCalGap (band : BandId) (matched : Bool) (fwd : List (Nat × Int)) (s : State) : Out :=
  let b := band.num
  .next (onlyIf ((s.modes.mode = 5 || (s.modes.mode = 4 && !opPending s 0x0501)) && domOn s (bandDom b) && gapBeat s b (curBeat s)) (fun s =>
    let first := (List.range 12).find? fun g => (getGC s b g).replace.isSome
    let g := first.getD (s.cal.nextGroup.getD b 0)
    let s := if first.isSome then s else s.onCal fun c => { c with nextGroup := updAt c.nextGroup b fun n => (n + 1) % 12 }
    let s := visitSwap b g matched s
    let s := onGC b g (fun x => { x with visits := x.visits + 1 }) s
    let types := visitDue s
    let s := (List.range 8).foldl (fun s j => onCC (96 * b + 8 * g + j) (fun c => { c with due := (c.due ++ types).eraseDups }) s) s
    let s := ((s.cal.chains.map (·.1)).filter fun i => i / 96 = b && i < 192).foldl (fun s i => applyCodes i s) s
    (fwd.filter fun x => x.1 < 8).foldl (fun s x => powerStep b (8 * g + x.1) x.2 s) s) s)

/-! Sets (R262 to R265, R272, R282). -/

/-- A set counts in the calibration run that covers it (R289). -/
def countRun (i type result : Nat) (s : State) : State :=
  let up (r : CalRun) : CalRun :=
    if !bit r.types type || !r.chains.contains i then r
    else
      { r with
        accepted := if result = 1 || result = 2 then (i, type) :: r.accepted else r.accepted
        disagrees := r.disagrees + b2n (result == 3)
        outOfTrim := r.outOfTrim + b2n (result == 5) }
  s.onCal fun c => { c with run := c.run.map up }

/-- CAL_DISAGREE (R262, R288). -/
def calDisagree (b n type level : Nat) (s : State) : State :=
  raise 0x0580 none [BitVec.ofNat 8 b, BitVec.ofNat 8 n, BitVec.ofNat 8 type, BitVec.ofNat 8 level] s

/-- The set of a chain, or of a narrowband path. -/
def chainSet (i : Nat) (m : CalMeas) (s : State) : State :=
  let l := 192 ≤ i
  let c := getCC s i
  let b := ccBand i
  let prev := (chainVal s i m.type).map (·.1)
  let shut : Bool := !l && ((getBand s b).chains.getD (i % 96) {}).cause != 0
  if shut then onCC i (fun c => { c with result := 6, type := m.type }) s
  else
    let (v, r) := calDecide l m prev
    let run := if r = 5 then Tab.getD c.outRun m.type 0 + 1 else 0
    let centre := if l then 0 else (getBand s b).ch.center
    let s := onCC i (fun c => { c with
      count := if r = 4 then c.count else satAdd 32 c.count 1
      lastNs := if r = 4 then c.lastNs else nowNs s
      result := r
      type := m.type
      disagree := c.disagree + b2n (r == 3 && c.disagree < 2 ^ 32 - 1)
      clamped := r == 5
      outRun := if r = 4 then c.outRun else Tab.set c.outRun m.type run
      due := if r = 4 then c.due else c.due.filter (· != m.type)
      provisional := if r = 1 || r = 2 then c.provisional.filter (· != m.type) else c.provisional
      center := if v.isSome && (m.type = 3 || 4 ≤ m.type) then centre else c.center
      live := match v with
        | some v => Tab.set c.live m.type (v, m.temp)
        | none => c.live }) s
    let s := match v, nearPoint m.temp, r = 1 || r = 2 with
      | some v, some p, true =>
        let k := 9 * i + p
        let old := (heldRec s k).getD (List.replicate 48 0)
        let head := [BitVec.ofNat 8 (128 + p), BitVec.ofNat 8 r] ++ le 2 centre ++ leI 2 m.temp
        let dig := leI 2 (getCC s i).digGain
        s.onCal fun c => { c with edits := Tab.set c.edits k (recClose (recPut l m.type v (patch (patch old 0 head) 14 dig))) }
      | _, _, _ => s
    let s := countRun i m.type r s
    let s := if r = 3 then calDisagree b (ccNum i) m.type 0 s else s
    if !l && 2 ≤ run && [3, 4, 6].contains m.type then excludeChain b (i % 96) 2 ((getBand s b).chains.getD (i % 96) {}).rl s else s

/-- The consecutive visits at which a slice disagreed, this one included (R262, R276). -/
def slicePast (visits r : Nat) (y : Slice) : Nat :=
  if r != 3 then y.disRun else match y.disAt with
    | some at_ => if at_ = visits then y.disRun else if at_ + 1 = visits then y.disRun + 1 else 1
    | none => 1

/-- The result of a set of a slice is noted with the slice: its live value, its next test. -/
def sliceNote (b g k r dis : Nat) (v : Option (List Int)) (m : CalMeas) (s : State) : State :=
  let at_ := (getGC s b g).visits
  onSlice b g k (fun y => { y with
    result := r
    disRun := dis
    disAt := if r = 3 then some at_ else y.disAt
    retest := if r = 1 || r = 2 then (m.type :: y.retest).eraseDups else y.retest.filter (· != m.type)
    live := match v with
      | some v => Tab.set y.live m.type (v, m.temp)
      | none => y.live }) s

/-- A value near a temperature point edits the record of the slice. -/
def sliceEdit (n r : Nat) (v : Option (List Int)) (m : CalMeas) (s : State) : State :=
  match v, nearPoint m.temp, r = 1 || r = 2 with
  | some v, some p, true => s.onCal fun c => { c with sliceEdits := Tab.set c.sliceEdits (9 * n + p) (Tab.set (heldSlice s (9 * n + p)) m.type v) }
  | _, _, _ => s

/-- The set counts for the chain that the slice serves. -/
def sliceCount (chain r : Nat) (m : CalMeas) (s : State) : State :=
  countRun chain m.type r (onCC chain (fun c => { c with
    count := satAdd 32 c.count 1, lastNs := nowNs s, result := r, type := m.type, disagree := c.disagree + b2n (r == 3 && c.disagree < 2 ^ 32 - 1) }) s)

/-- A slice whose sets disagree three times running, or cannot be brought in, has failed (R275, R276). -/
def sliceVerdict (b g k r dis type : Nat) (s : State) : State :=
  let s := if r = 3 then calDisagree b (9 * g + k) type 1 s else s
  if r = 5 then failSlice b g k 1 s else if r = 3 && 3 ≤ dis then failSlice b g k 2 s else s

/-- The value of a type that a slice has: its live one, else the stored one. -/
def slicePrev (n type : Nat) (y : Slice) (s : State) : Option (List Int) :=
  match Tab.get? y.live type with
  | some v => some v.1
  | none => (sliceFormed s n type).map (·.1)

/-- The set of a converter slice. -/
def sliceSet (n : Nat) (m : CalMeas) (s : State) : State :=
  let b := n / 108
  let g := n % 108 / 9
  let k := n % 9
  let y := (getGC s b g).slices.getD k {}
  let d := calDecide false m (slicePrev n m.type y s)
  let dis := slicePast (getGC s b g).visits d.2 y
  let s := sliceEdit n d.2 d.1 m (sliceNote b g k d.2 dis d.1 m s)
  let s := if y.role = 0 && y.pos < 8 && d.2 != 4 then sliceCount (96 * b + 8 * g + y.pos) d.2 m s else s
  sliceVerdict b g k d.2 dis m.type s

/-- CAL_MEASUREMENT_DONE (R262): a set whose temperature moved by more than 2 C is discarded (R263). -/
def execCalMeasurementDone (m : CalMeas) (s : State) : Out :=
  .next (onlyIf (s.flt.summitRun && s.modes.mode ≥ 4 && s.modes.mode ≤ 6 && m.type ≤ 7 && (m.aborted || (m.temp - m.temp0).natAbs ≤ 8)) (fun s =>
    if m.slice then (if m.index < 216 && (m.type = 1 || m.type = 2) then sliceSet m.index m s else s)
    else if m.index < 192 then (if 3 ≤ m.type then chainSet m.index m s else s)
    else if m.index < 196 && m.type != 6 then chainSet m.index m s
    else s) s)

/-- NB_CAL_INTERVAL (R260): the types of L whose interval is NB_INTERVAL_S become due. -/
def execNbCalInterval (s : State) : Out :=
  .next (onlyIf (s.modes.mode = 4 || s.modes.mode = 5) (fun s =>
    let due := [1, 2, 7].filter fun t => s.cal.bgTypes.getLsbD t
    [192, 193, 194, 195].foldl (fun s i => onCC i (fun c => { c with due := (c.due ++ due).eraseDups }) s) s) s)

/-- The changed records are written to the calibration region (R286). -/
def storeCal (s : State) : State :=
  let s := s.cal.edits.foldl (fun s e => mramWrite (recAddr e.1) e.2 s) s
  let s := s.cal.sliceEdits.foldl (fun s e => s.onBoot fun b => { b with calSlices := Tab.set b.calSlices e.1 e.2 }) s
  s.onCal fun c => { c with edits := [], sliceEdits := [] }

/-- CAL_STORE_INTERVAL (R286). -/
def execCalStoreInterval (s : State) : Out := .next (onlyIf (s.flt.summitRun && s.cal.storeS != 0) storeCal s)

/-! Commands (R288 to R294). -/

/-- The chains that a CAL_RUN names (R289). -/
def runChains (c : Cmd) (full : Bool) (s : State) : List Nat :=
  let on (i : Nat) : Bool := full || bit (c.u (20 + i / 8) 1) (i % 8)
  let b := c.u 18 1
  let wide (w : Nat) : List Nat := if b = w || b = 3 then
      ((List.range 96).filter fun i => on i && (!full || ((getBand s w).chains.getD i {}).enabled)).map (96 * w + ·) else []
  wide 0 ++ wide 1 ++ (if b = 2 || b = 3 then ((List.range 4).filter on).map (192 + ·) else [])

/-- The synthesizers of a band that have not failed take a state (R231, R284). -/
def setSynths (b st : Nat) (s : State) : State :=
  let re (f : Band) (n : Nat) : Band := if f.synth n = 4 || f.synth n = 0 then f else f.setSynth n st
  onBand b (fun f => { re (re f 0) 1 with tracked := st == 1, loReady := st == 1 }) s

/-- The bands whose synthesizers a run takes. -/
def runBands (types band : Nat) : List Nat := if !bit types 0 then [] else [0, 1].filter fun b => band = b || band = 3

/-- The domains of the bands that a BAND field names. -/
def calDoms (b : Nat) : List Nat := if b = 0 then [6] else if b = 1 then [7] else if b = 3 then [6, 7] else []

/-- CAL_RUN (R284, R285, R289). -/
def specCalRun : OpSpec where
  op := 0x0501
  modes c s :=
    let f := c.u 19 1
    if bit f 1 then s.modes.mode = 5 && !bit f 0 && !bit f 3 else if bit f 0 || bit f 3 then s.modes.mode = 6 else s.modes.mode = 4 || s.modes.mode = 6
  rsv c := c.flagsBelow 19 4 && c.zero [(17, 1)]
  objs _ := [.calEngine]
  needs c := calDoms (c.u 18 1)
  body c s :=
    let f := c.u 19 1
    if c.u 18 1 > 3 then (eArg, s)
    else
      let full := bit f 0
      let band := if full then 3 else c.u 18 1
      let types := if full then 255 else c.u 16 2
      let r : CalRun := { types, band, flags := f, chains := runChains c full s }
      let s := s.onCal fun k => { k with run := some r }
      let s := if bit f 3 then s.onCal fun k => { k with groups := k.groups.map fun g => (g.1, { g.2 with slices := g.2.slices.map fun y => { y with retest := [] } }) } else s
      (.pending, if bit f 1 then s else (runBands types band).foldl (fun s b => setSynths b 3 s) s)

/-- CAL_RUN. -/
def execCalRun (d : Doorbell) (p : List Byte) (s : State) : Out := command specCalRun d p s

/-- The types of a run that apply to a chain. -/
def runTypes (types i : Nat) : List Nat := (List.range 8).filter fun t => bit types t && (if i < 192 then 3 ≤ t else t != 6)

/-- Slices that pass the retest return: a retired one as its group's spare (R277). -/
def retestDone (s : State) : State :=
  s.cal.groups.foldl (fun s g => g.2.slices.zipIdx.foldl (fun s y =>
    let b := g.1 / 12
    let n := 108 * b + 9 * (g.1 % 12) + y.2
    if ([1, 2].all y.1.retest.contains) && (y.1.role = 3 || y.1.failed != 0) then
      let back := y.1.role = 3 && (spareOf (getGC s b (g.1 % 12))).isNone
      let s := onSlice b (g.1 % 12) y.2 (fun z => { z with failed := 0, role := if back then 1 else z.role, spares := z.spares + b2n back }) s
      if back then
        (onGC b (g.1 % 12) (fun x => { x with suspended := false }) s).onBoot fun x => { x with calRetired := x.calRetired.filter (· != n) }
      else s
    else s) s) s

/-- CAL_RUN_DONE (R289). -/
def execCalRunDone (s : State) : Out :=
  .next (match s.cal.run with
    | none => s
    | some r =>
      let full := bit r.flags 0
      let ok := (r.accepted.map (·.1)).eraseDups
      let clamps := (r.chains.filter fun i => ccTemp s i < -160 || 460 ≤ ccTemp s i).length
      let left := (r.chains.filter fun i => (runTypes r.types i).any fun t => !r.accepted.contains (i, t)).length
      let s := s.onCal fun k => { k with run := none }
      let s := if bit r.flags 1 then s else (runBands r.types r.band).foldl (fun s b => setSynths b 1 s) s
      let s := if bit r.flags 3 then retestDone s else s
      let s := if full || bit r.flags 2 then storeCal s else s
      if left != 0 && !bit r.flags 1 && !bit r.flags 3 then endOp 0x0501 (.err 0x0501 (le 2 left)) s
      else endOp 0x0501 (.ok (le 2 ok.length ++ le 2 r.disagrees ++ le 2 r.outOfTrim ++ le 2 clamps)) s)

/-- CAL_STATUS (R290). -/
def specCalStatus : OpSpec where
  op := 0x0502
  rsv c := c.zero [(19, 1)]
  needs c := calDoms (c.u 16 1)
  body c s :=
    let b := c.u 16 1
    let i0 := c.u 17 1
    let n := c.u 18 1
    if b > 2 || i0 > 95 || n < 1 || 20 < n || 96 < i0 + n || (b = 2 && 4 < i0 + n) then (eArg, s)
    else
      let sus := sumOf ((List.range 12).map fun g => if b < 2 && (getGC s b g).suspended then 2 ^ g else 0)
      let one (k : Nat) : List Byte :=
        let c := getCC s (96 * b + i0 + k)
        le 4 c.count ++ le 8 c.lastNs ++ le 1 c.result ++ le 1 c.type ++
          le 1 (b2n c.near + 2 * b2n c.clamped + 4 * b2n (!c.provisional.isEmpty)) ++ [0] ++ le 4 c.disagree
      (.ok (le 1 b ++ [0] ++ le 2 sus ++ le 4 (ctrAt s.cal.swapCount b) ++ le 4 (ctrAt s.cal.swapSkipped b) ++ le 4 (ctrAt s.cal.powerShort b) ++
        (List.range n).flatMap one), s)

/-- CAL_STATUS. -/
def execCalStatus (d : Doorbell) (p : List Byte) (s : State) : Out := command specCalStatus d p s

/-- A schedule takes effect (R291). -/
def applySched (v : List Nat) (c : Cal) : Cal :=
  { c with
    gapInterval := v.getD 0 8, tempStep := v.getD 1 5, recip := v.getD 2 1000, storeS := v.getD 3 600, nbS := v.getD 4 60,
    shadow := v.getD 5 2, bgTypes := BitVec.ofNat 8 (v.getD 6 255), nextSched := none }

/-- CAL_SCHEDULE (R291). -/
def specCalSchedule : OpSpec where
  op := 0x0503
  modes := inModes [2, 4, 5, 6]
  rsv c := c.zero [(26, 2)]
  body c s :=
    let g := c.u 16 1
    let st := c.u 20 2
    let sec := if st = 0 then true else 60 ≤ st
    if g % 2 = 1 || g < 4 || 64 < g || c.u 17 1 < 1 || 20 < c.u 17 1 || c.u 18 2 < 100 || 10000 < c.u 18 2 || !sec ||
      c.u 22 2 < 10 || 3600 < c.u 22 2 || c.u 24 1 < 1 || 8 < c.u 24 1 then (eArg, s)
    else
      let v := [g, c.u 17 1, c.u 18 2, st, c.u 22 2, c.u 24 1, c.u 25 1]
      if s.modes.mode = 5 then (.okAir, s.onCal fun k => { k with nextSched := some (effBeat s true, v) })
      else (.ok, s.onCal (applySched v))

/-- CAL_SCHEDULE. -/
def execCalSchedule (d : Doorbell) (p : List Byte) (s : State) : Out := command specCalSchedule d p s

/-- The live values of a chain as a record (R292): the point of a live record is not stated. -/
def liveRec (s : State) (i point : Nat) : List Byte :=
  let l := 192 ≤ i
  let c := getCC s i
  let head := [BitVec.ofNat 8 point, BitVec.ofNat 8 c.result] ++ le 2 c.center ++ leI 2 (ccTemp s i)
  let r := patch (patch (List.replicate 48 0) 0 head) 14 (leI 2 c.digGain)
  recClose ((List.range 8).foldl (fun r t => match chainVal s i t with
    | some v => recPut l t v.1 r
    | none => r) r)

/-- CAL_TABLE_READ (R292). -/
def specCalTableRead : OpSpec where
  op := 0x0504
  rsv c := c.zero [(21, 3)]
  body c s :=
    let kind := c.u 16 1
    let b := c.u 17 1
    let i := c.u 18 2
    let p := c.u 20 1
    if kind > 2 || b > 2 || (kind < 2 && 8 < p && p != 0xFF) then (eArg, s)
    else match kind with
      | 0 =>
        if (if b = 2 then 4 else 96) ≤ i then (eArg, s)
        else if p = 0xFF then
          let (x, s) := s.draw 256
          (.ok (liveRec s (96 * b + i) x), s)
        else (.ok (storedRec s (9 * (96 * b + i) + p)), s)
      | 1 =>
        if b = 2 || 108 ≤ i then (eArg, s)
        else
          let n := 108 * b + i
          let live := ((getGC s b (i / 9)).slices.getD (i % 9) {}).live.map fun v => (v.1, v.2.1)
          (.ok (pad 16 (Config.sliceRecord p (if p = 0xFF then live else Tab.getD s.boot.calSlices (9 * n + p) []))), s)
      | _ =>
        if 9 ≤ i then (eArg, s)
        else
          let valid := (List.range 1764).filter fun k => storedOk s k
          (.ok ((List.range 480).map fun k => Config.calHeader s.boot.calRetired valid (480 * i + k)), s)

/-- CAL_TABLE_READ. -/
def execCalTableRead (d : Doorbell) (p : List Byte) (s : State) : Out := command specCalTableRead d p s

/-- CAL_TABLE_STORE (R293). -/
def specCalTableStore : OpSpec where
  op := 0x0505
  modes c s := !bit (c.u 16 1) 0 || s.modes.mode = 6
  rsv c := c.flagsBelow 16 1 && c.zero [(17, 3)]
  objs _ := [.calTables]
  body _ s := (.pending, s)

/-- CAL_TABLE_STORE. -/
def execCalTableStore (d : Doorbell) (p : List Byte) (s : State) : Out := command specCalTableStore d p s

/-- CAL_TABLE_STORE_DONE (R293): ERASE clears every record and VALID bit. -/
def execCalTableStoreDone (s : State) : Out :=
  .next (match findLong s 0x0505 with
    | none => s
    | some l =>
      let s := if bit (l.cmd.u 16 1) 0 then
          (s.onBoot fun b => { b with mram := memClear b.mram 0x41000 (48 * 1764), calSlices := [] }).onCal fun c => { c with edits := [], sliceEdits := [] }
        else storeCal s
      endLong l .ok s)

/-- SLICE_STATUS (R294). -/
def specSliceStatus : OpSpec where
  op := 0x0506
  rsv c := c.zero [(18, 2)]
  needs c := calDoms (c.u 16 1)
  body c s :=
    if c.u 16 1 > 1 || c.u 17 1 > 11 then (eArg, s)
    else
      (.ok ((getGC s (c.u 16 1) (c.u 17 1)).slices.flatMap fun y => le 1 y.role ++ le 1 y.pos ++ le 1 y.result ++ [0] ++ le 4 y.spares), s)

/-- SLICE_STATUS. -/
def execSliceStatus (d : Doorbell) (p : List Byte) (s : State) : Out := command specSliceStatus d p s

/-! What a beat start does (R261, R266, R268, R273, R291). -/

/-- The temperature of a sensor is read: 0 to 23 the groups MG00 to HG11, 24 to 27 L0 to L3. -/
def readTemp (n : Nat) (t : Int) (s : State) : State :=
  if n < 24 then
    let g := getGC s (n / 12) (n % 12)
    let out := t < -160 || 460 ≤ t
    let s := onGC (n / 12) (n % 12) (fun g => { g with temp := t, clampRaised := out }) s
    if out && !g.clampRaised then raise 0x0581 none ([BitVec.ofNat 8 (n / 12), BitVec.ofNat 8 (n % 12)] ++ leI 2 t) s else s
  else if n < 28 then
    let i := n - 24
    let out := t < -160 || 460 ≤ t
    let was := s.cal.nbClamp.getD i false
    let s := s.onCal fun c => { c with nbTemp := setAt c.nbTemp i t, nbClamp := setAt c.nbClamp i out }
    if out && !was then raise 0x0581 none ([2, BitVec.ofNat 8 i] ++ leI 2 t) s else s
  else s

/-- Types become due where the temperature has moved by TEMP_STEP_C since their last acceptance (R261). -/
def tempDue (s : State) : State :=
  let up (e : Nat × ChainCal) : Nat × ChainCal :=
    let t := ccTemp s e.1
    (e.1, { e.2 with due := (e.2.due ++ (e.2.live.filter fun v => 4 * s.cal.tempStep ≤ (t - v.2.2).natAbs).map (·.1)).eraseDups })
  s.onCal fun c => { c with chains := c.chains.map up }

/-- The spare of the group that a band visits next is matched for SHADOW_BEATS before the visit (R273). -/
def shadowStart (b beat : Nat) (s : State) : State :=
  let near := (List.range (s.cal.shadow + 1)).any fun k => gapBeat s b (beat + k)
  let g := s.cal.nextGroup.getD b 0
  let x := getGC s b g
  if s.modes.mode = 5 && near && !x.suspended && x.replace.isNone then match spareOf x with
    | some sp => onSlice b g sp (fun y => { y with role := 2 }) s
    | none => s
  else s

/-- Calibration at the start of a beat. -/
def calBeat (beat : Nat) (s : State) : State :=
  let s := match s.cal.nextSched with
    | some (at_, v) => if at_ ≤ beat then s.onCal (applySched v) else s
    | none => s
  let s := tempDue ((List.range 28).foldl (fun s n => readTemp n (s.flt.sensors.getD (8 + n) 0) s) s)
  shadowStart 1 beat (shadowStart 0 beat s)

/-- Retired slices remain retired across boots (R277). -/
def bootSlices (s : State) : State :=
  s.boot.calRetired.foldl (fun s n =>
    let b := n / 108
    let g := n % 108 / 9
    let k := n % 9
    let x := getGC s b g
    let pos := (x.slices.getD k {}).pos
    let s := onGC b g (fun x => { x with suspended := true, slices := updAt x.slices k fun y => { y with role := 3, pos := 0xFF } }) s
    match spareOf x with
    | some sp => if sp = k || 8 ≤ pos then s else seatSlice b g sp pos s
    | none => s) s

end Sys2Proof.Machine
end

