-- ==== Sys2Proof/Machine/AirBase.lean ====
section
/-!
DEFINITION. Air scheduling: durations, beat kinds, gates, queues, channel-state validity and bounded-flow periods
(chapters 9 to 11).
-/
namespace Sys2Proof.Machine

/-- Air scheduling of a band. -/
def getAB (s : State) (b : Nat) : AirBand := if b = 0 then s.air.m else s.air.h

/-- Replace a band's air scheduling by its image. -/
def onAB (b : Nat) (f : AirBand → AirBand) (s : State) : State :=
  s.onAir fun a => if b = 0 then { a with m := f a.m } else { a with h := f a.h }

/-- The PHY of a band. -/
def getPhy (s : State) (b : Nat) : Phy := if b = 0 then s.air.phyM else s.air.phyH

/-- Replace a band's PHY by its image. -/
def onPhy (b : Nat) (f : Phy → Phy) (s : State) : State :=
  s.onAir fun a => if b = 0 then { a with phyM := f a.phyM } else { a with phyH := f a.phyH }

/-- Count in the PHY counters of a band (R327). -/
def countPhy (b i : Nat) (s : State) (k : Nat := 1) : State := onPhy b (fun p => { p with ctr := bump p.ctr i k }) s

/-- Count in the air counters of a band (R374). -/
def countAir (b i : Nat) (s : State) (k : Nat := 1) : State := onAB b (fun x => { x with ctr := bump x.ctr i k }) s

/-- A station's entry. -/
def getSta (s : State) (n : Nat) : Option Sta := Tab.get? s.air.stas n

/-- Replace a listed station's entry by its image. -/
def onSta (n : Nat) (f : Sta → Sta) (s : State) : State :=
  match getSta s n with
  | some x => s.onAir fun a => { a with stas := Tab.set a.stas n (f x) }
  | none => s

/-- Count in the counters of a station (R374). -/
def countSta (n i : Nat) (s : State) (k : Nat := 1) : State := onSta n (fun x => { x with ctr := bump x.ctr i k }) s

/-- A station's state on a link. -/
def Sta.link (x : Sta) (b : Nat) : LinkSt := if b = 0 then x.lm else x.lh

/-- Replace a station's state on a link by its image. -/
def Sta.onLink (b : Nat) (f : LinkSt → LinkSt) (x : Sta) : Sta := if b = 0 then { x with lm := f x.lm } else { x with lh := f x.lh }

/-- The stronger claim first: a list ordered by a key, highest first, the order kept among equals. -/
def insertDesc {α : Type} (key : α → Int) (a : α) : List α → List α
  | [] => [a]
  | b :: t => if key b < key a then a :: b :: t else b :: insertDesc key a t

/-- A list ordered by a key, highest first. -/
def sortDesc {α : Type} (key : α → Int) (l : List α) : List α := l.reverse.foldl (fun acc a => insertDesc (fun x => key x) a acc) []

/-- Division rounded up. -/
def ceilDiv (n d : Nat) : Nat := (n + d - 1) / d

/-! Durations (R341), ns. -/

/-- T_LTF by GI_LTF code. -/
def tLtf (gi : Nat) : Nat := [7200, 8000, 13600, 16000].getD gi 16000
/-- T_SYM by GI_LTF code. -/
def tSym (gi : Nat) : Nat := [13600, 14400, 13600, 16000].getD gi 16000
/-- The GI_LTF code of a TB_GI_LTF. -/
def tbGiCode (g : Nat) : Nat := if g = 0 then 1 else 3
/-- N_LTF for streams on a tone. -/
def nLtf (streams : Nat) : Nat := if streams ≤ 1 then 1 else streams + streams % 2
/-- A non-HT PPDU of a length at a rate in Mbit/s. -/
def nonHtNs (len r : Nat) : Nat := 20000 + 4000 * ceilDiv (22 + 8 * len) (4 * r)
/-- A Trigger frame for users. -/
def trigNs (u : Nat) : Nat := nonHtNs (28 + 5 * u) 24
/-- A Multi-STA BlockAck for users. -/
def msbaNs (u : Nat) : Nat := nonHtNs (24 + 38 * u) 54
/-- An MU PPDU before its data symbols. -/
def muHead (u streams gi : Nat) : Nat := 36000 + 4000 * (2 + ceilDiv u 4) + nLtf streams * tLtf gi
/-- A TB PPDU before its data symbols. -/
def tbHead (streams tb : Nat) : Nat := 40000 + nLtf streams * tLtf (tbGiCode tb)
/-- A TB BlockAck response. -/
def ackTb (tb : Nat) : Nat := if tb = 0 then 77000 else 88000
/-- SIFS. -/
def sifs : Nat := 16000

/-- Data tones of an RU by its size code (R387; IEEE 802.11 tone plans, log entry 23). -/
def ruTones (size : Nat) : Nat := [24, 48, 102, 72, 126, 234, 468, 702, 980, 1448, 1682, 1960].getD size 0

/-- Data tones of the unpunctured full-width RU. -/
def widthTones (w : Nat) : Nat := [234, 468, 980, 1960].getD w 1960

/-- Subchannels that a mask punctures, among those of a width. -/
def punctured (w mask : Nat) : Nat := ((List.range (2 ^ w)).filter (bit mask)).length

/-- Data tones of a band's full-width RU or MRU. -/
def bandTones (s : State) (b : Nat) : Nat :=
  let w := (getBand s b).ch.width
  match w, punctured w (getPhy s b).punct.toNat with
  | 2, 1 => 702
  | 3, 1 => 1682
  | 3, 2 => 1448
  | _, _ => widthTones w

/-- Data tones of a user's RU in a plan. -/
def userTones (s : State) (b size : Nat) : Nat := if size = 11 then bandTones s b else ruTones size

/-- Bits per data tone by MCS, in sixths (R386). -/
def mcsBits (m : Nat) : Nat := [3, 6, 9, 12, 18, 24, 27, 30, 36, 40, 45, 50, 54, 60].getD m 3

/-- REQ_SNR by MCS, dB (R386). -/
def reqSnr (m : Nat) : Nat := [2, 5, 8, 11, 14, 18, 20, 21, 25, 27, 30, 32, 35, 37].getD m 37

/-- Bits per symbol of a user. -/
def nDbps (tones mcs ss : Nat) : Nat := tones * mcsBits mcs / 6 * ss

/-- Symbols for bytes. -/
def symsFor (bytes dbps : Nat) : Nat := ceilDiv (16 + 8 * bytes) (max 1 dbps)

/-- Bytes of the MPDU that carries a frame, with its delimiter (R387). -/
def mpduLen (f : Frame) : Nat := f.bytes.length - 14 + 58

/-! Beats (R335 to R337). -/

/-- The turn plan that governs a beat (R336, R339). -/
def turnAt (x : AirBand) (beat : Nat) : Option TurnPlan := x.turns.find? fun t => t.from_ ≤ beat

/-- The kind that a turn plan gives a beat. -/
def TurnPlan.kindAt (t : TurnPlan) (beat : Nat) : Nat := t.kinds.getD (((beat : Int) - t.start).emod (t.cycle : Int)).toNat 0

/-- The kind of a beat by the turn plans alone. -/
def planKind (x : AirBand) (beat : Nat) : Nat := ((turnAt x beat).map fun t => t.kindAt beat).getD 2

/-- The kind of a beat: 0 QUIET, 1 TURN, 2 SHARED. -/
def beatKind (s : State) (b beat : Nat) : Nat := if [0, 3, 4].contains s.cad.state then 2 else planKind (getAB s b) beat

/-- The band is in service. -/
def inService (s : State) (b : Nat) : Bool := s.modes.mode = 5 && (getBand s b).ch.enable && !(getBand s b).down && domOn s (bandDom b)

/-- The end of the usable air of a beat. -/
def usableEnd (s : State) (b : Nat) : Nat := bpNs s - (getAB s b).tail

/-- C: the usable air (R391). -/
def usableAir (s : State) (b : Nat) : Nat := usableEnd s b - (getAB s b).head

/-! Gates (R352). Classes: 0 to 3 the access classes, 4 bounded flows. -/

/-- The gate list that governs a beat. -/
def gatesAt (x : AirBand) (beat : Nat) : Option AirGates := (x.gates.find? fun g => g.from_ ≤ beat).bind fun g => if g.entries.isEmpty then none else some g

/-- The beat's place in a gate cycle. -/
def AirGates.pos (g : AirGates) (beat : Nat) : Nat := (((beat : Int) - g.start).emod (g.cycleBeats : Int)).toNat

/-- An entry, with the mask before it. -/
def AirGates.steps (g : AirGates) : List ((Nat × Nat × Nat) × Nat) :=
  g.entries.zipIdx.map fun x => (x.1, ((if x.2 = 0 then g.entries.getLast? else g.entries[x.2 - 1]?).map fun e => e.2.2).getD 0x1F)

/-- guard(c), ns. -/
def guardNs (s : State) (b c : Nat) : Nat := 1000 * ((getAB s b).maxAir.getD c 5484 + 16) + ackTb (getPhy s b).tbGi

/-- The intervals of a beat in which no PPDU that carries a class may begin. -/
def forbidden (s : State) (b beat c : Nat) : List (Nat × Nat) :=
  match gatesAt (getAB s b) beat with
  | none => []
  | some g =>
    let bp := bpNs s
    let guard := guardNs s b c
    let here := g.steps.filter fun e => e.1.1 = g.pos beat
    let opens (t : Nat) : Nat := ((here.find? fun e => t < e.1.2.1 && bit e.1.2.2 c).map fun e => e.1.2.1).getD bp
    let before := (here.head?.map fun e => e.2).getD
      (((g.entries.filter fun e => e.1 < g.pos beat).getLast?.map fun e => e.2.2).getD ((g.entries.getLast?.map fun e => e.2.2).getD 0x1F))
    let start := if bit before c then [] else [(0, ((here.find? fun e => bit e.1.2.2 c).map fun e => e.1.2.1).getD bp)]
    let now := (here.filter fun e => bit e.2 c && !bit e.1.2.2 c).map fun e => (e.1.2.1 - guard, opens e.1.2.1)
    let later := (List.range (guard / bp + 1)).flatMap fun j =>
      (g.steps.filter fun e => e.1.1 = g.pos (beat + j + 1) && bit e.2 c && !bit e.1.2.2 c).map fun e => ((j + 1) * bp + e.1.2.1 - guard, bp)
    start ++ now ++ later.filter fun x => x.1 < bp

/-- The intervals that a PPDU of some classes must keep out of: reserved ones and those of its classes. -/
def blocksOf (s : State) (b beat : Nat) (reserved : List (Nat × Nat)) (classes : List Nat) : List (Nat × Nat) :=
  reserved ++ classes.flatMap fun c => forbidden s b beat c

/-- The window end of an instant (R340). -/
def windowEnd (fin : Nat) (blocks : List (Nat × Nat)) (p : Nat) : Nat := (blocks.filter fun x => p < x.1).foldl (fun w x => min w x.1) fin

/-- The earliest instant, not before `from_`, at which an airtime fits, and its window end (R343). -/
def placeAt (fin : Nat) (blocks : List (Nat × Nat)) (from_ a : Nat) : Option (Nat × Nat) :=
  let cands := (sortDesc (fun p => -((p : Nat) : Int)) (from_ :: ((blocks.map (·.2)).filter fun p => from_ < p)))
  (cands.find? fun p => !(blocks.any fun x => x.1 ≤ p && p < x.2) && p + a ≤ windowEnd fin blocks p).map fun p => (p, windowEnd fin blocks p)

/-! Access-class queues (R333, R334, R356). -/

/-- The access class of a TID. -/
def acOf (tid : Nat) : Nat := [1, 0, 0, 1, 2, 2, 3, 3].getD tid 1

/-- A frame is enqueued for a station (R334, R552): on chip, in DRAM, or dropped. -/
def enqAc (n tid : Nat) (bytes : List Byte) (s : State) : State :=
  match getSta s n with
  | none => s
  | some x =>
    let a := acOf tid
    let b := if bit x.p.links.toNat 0 then 0 else 1
    let q := x.q.getD a []
    let put (dram : Bool) (s : State) := noteLow (onSta n (fun x => { x with q := updAt x.q a fun l => l ++ [{ tid, bytes, enq := nowNs s, dram }] }) s)
    if ((getAB s b).ac.map (·.qlimit)).getD a 1024 ≤ q.length then countSta n 4 s
    else match storeIn s 0 true (frameCells false q) (cellsOf bytes.length) with
      | .chip => put false s
      | .dram => put true (wbPut (cellsOf bytes.length) s)
      | .wbFull => wbMissed s
      | .bufDrop => s

/-- A data frame for a station: before it is authorised only EtherType 0x888E from the host passes (R330). -/
def toSta (n tid : Nat) (bytes : List Byte) (fromHost : Bool) (s : State) : State :=
  match getSta s n with
  | none => s
  | some x =>
    if x.p.flags.getLsbD 4 || (fromHost && byteAt bytes 12 = 0x88 && byteAt bytes 13 = 0x8E) then enqAc n tid bytes s
    else countSta n 6 s

/-- Frames go back to the head of their queues (R334). -/
def returnFrames (n : Nat) (fs : List Frame) (s : State) : State :=
  fs.reverse.foldl (fun s f => onSta n (fun x => { x with q := updAt x.q (acOf f.tid) fun l => { f with band := none } :: l }) s) s

/-- The end of a frame's lifetime, ns. -/
def lifeEnd (s : State) (b : Nat) (f : Frame) : Nat := f.enq + 10 ^ 6 * (((getAB s b).ac.map (·.life)).getD (acOf f.tid) 500)

/-- A discard: the next A-MPDU to the station and TID carries a BlockAckReq (R356). -/
def discarded (n tid i : Nat) (s : State) : State :=
  onSta n (fun x => { x with bar := if x.bar.contains tid then x.bar else tid :: x.bar }) (countSta n i s)

/-- One attempt of a frame has not been acknowledged: the frame that remains, if it does. -/
def failFrame (b n : Nat) (f : Frame) (s : State) : Option Frame × State :=
  if f.tries + 1 ≥ ((getAB s b).ac.map (·.retry)).getD (acOf f.tid) 7 then (none, discarded n f.tid 3 s)
  else (some { f with tries := f.tries + 1 }, s)

/-! Channel state (R303, R308 to R310). -/

/-- The key of a block. -/
def csiKey (sta b stream group : Nat) : Nat := ((sta * 2 + b) * 4 + stream) * 128 + group

/-- Tone groups of a width. -/
def toneGroups (w : Nat) : Nat := [16, 31, 63, 125].getD w 125

/-- The valid block of a station's stream and group, for a plan that opens at a beat. -/
def validBlock (s : State) (b beat sta stream group : Nat) : Option CsiBlock :=
  (Tab.get? s.air.csi (csiKey sta b stream group)).bind fun k => if beat ≤ k.beat + (getPhy s b).maxAge then some k else none

/-- The groups of a user's RU. -/
def ruGroups (s : State) (b size pos : Nat) : List Nat :=
  let w := (getBand s b).ch.width
  if size = 11 then List.range (toneGroups w) else Config.ruGroups w size pos

/-- A stream has a valid block on every group of an RU. -/
def streamOk (s : State) (b beat sta size pos stream : Nat) : Bool := (ruGroups s b size pos).all fun g => (validBlock s b beat sta stream g).isSome

/-- Streams with valid blocks on every group of an RU. -/
def okStreams (s : State) (b beat sta size pos : Nat) : Nat := ((List.range 4).filter fun i => streamOk s b beat sta size pos i).length

/-- A station is MU-eligible on an RU for a number of streams (R310). -/
def muOk (s : State) (b beat sta size pos ss : Nat) : Bool := 1 ≤ ss && (List.range ss).all fun i => i < 4 && streamOk s b beat sta size pos i

/-- The SNRs of a station's valid blocks. -/
def blockSnrs (s : State) (b beat sta : Nat) : List Int :=
  (List.range 4).flatMap fun i => (List.range (toneGroups (getBand s b).ch.width)).filterMap fun g => (validBlock s b beat sta i g).map (·.snr)

/-- A station has some valid block. -/
def hasBlock (s : State) (b beat sta : Nat) : Bool := !(blockSnrs s b beat sta).isEmpty

/-- The mean of integers, a fraction being rounded one way or the other as the device has it. -/
def meanOf (l : List Int) : Int :=
  let t : Int := l.foldl (· + ·) (0 : Int)
  let q := t / (l.length : Int)
  if t % (l.length : Int) = 0 then q else if Config.tieUp t then q + 1 else q

/-- The planned MCS of a user (R348): the highest whose required SNR is met. -/
def plannedMcs (s : State) (b : Nat) (sta : Nat) (pred : Int) : Nat :=
  match getSta s sta with
  | none => 0
  | some x =>
    let top := if b = 0 then x.p.mcsM else x.p.mcsH
    let budget : Int := 5 * pred - 5 * (getAB s b).mcsMargin + (x.link b).olla
    ((List.range (top + 1)).filter fun m => ((10 * reqSnr m : Nat) : Int) ≤ budget).getLast?.getD 0

/-- OLLA after an acknowledgement (R348), 0.1 dB. -/
def ollaStep (sent acked : Nat) (o : Int) : Int := max (-100) (min 100 (if 10 * (sent - acked) > sent then o - 10 else o + 1))

/-! Bounded-flow periods (R381 to R384, R397, R398). -/

/-- A flow. -/
def getBf (s : State) (n : Nat) : Option Bf := Tab.get? s.air.bfs n

/-- Replace an admitted flow by its image. -/
def onBf (n : Nat) (f : Bf → Bf) (s : State) : State :=
  match getBf s n with
  | some x => s.onAir fun a => { a with bfs := Tab.set a.bfs n (f x) }
  | none => s

/-- Count in the counters of a flow (R413). -/
def countBf (n i : Nat) (s : State) (k : Nat := 1) : State := onBf n (fun x => { x with ctr := bump x.ctr i k }) s

/-- The start of a period. -/
def Bf.start (x : Bf) (k : Nat) : Nat := x.p.first + k * x.p.period

/-- The parameters that govern a period (R409). -/
def Bf.parmAt (x : Bf) (k : Nat) : BfParm := ((x.next.find? fun v => v.1 ≤ x.start k).map (·.2)).getD x.p

/-- Replace a period by its image, opening it where it is not listed. -/
def Bf.onPeriod (k : Nat) (f : BfPeriod → BfPeriod) (x : Bf) : Bf :=
  if x.periods.any (·.k == k) then { x with periods := x.periods.map fun p => if p.k = k then f p else p }
  else
    let q := x.parmAt k
    let p : BfPeriod := { k, attempts := q.attempts, fpp := q.fpp, deadline := q.deadline }
    { x with periods := (x.periods.filter fun r => r.k < k) ++ [f p] ++ x.periods.filter fun r => k < r.k }

/-- A period. -/
def Bf.period (x : Bf) (k : Nat) : Option BfPeriod := x.periods.find? (·.k == k)

/-- A frame enters a downlink flow (R382). -/
def bfEnter (n : Nat) (bytes : List Byte) (s : State) : State :=
  match getBf s n with
  | none => s
  | some x =>
    let e := max (curBeat s + 3) x.from_
    let k := ceilDiv (e - x.p.first) (max 1 x.p.period)
    let q := x.parmAt k
    let have_ := ((x.period k).map fun p => p.frames.length).getD 0
    let f : Frame := { tid := x.p.tid, bytes, enq := nowNs s }
    if x.p.dir = 0 && bytes.length - 14 ≤ q.maxFrame && have_ < q.fpp then
      onBf n (Bf.onPeriod k fun p => { p with frames := p.frames ++ [(f, false)] }) (countBf n 0 s)
    else
      let s := countBf n 3 s
      if bit q.flags 1 then enqAc x.p.sta x.p.tid bytes s else s

/-- A period is decided with a reason (R384, R397): undelivered frames are reported and removed. -/
def decide_ (n k reason : Nat) (s : State) : State :=
  match getBf s n with
  | none => s
  | some x => match x.period k with
    | none => s
    | some p =>
      let s := onBf n (fun y => { y with periods := y.periods.filter fun r => r.k != k }) s
      let expected := p.frames.length - p.notOffered
      let got := (p.frames.filter (·.2)).length
      let miss := (p.frames.zipIdx.filter fun f => !f.1.2).take (expected - got)
      if expected ≤ got then s
      else
        let mask := sumOf (miss.map fun f => 2 ^ f.2)
        let s := countBf n (5 + reason) (countBf n 2 s (expected - got)) (expected - got)
        raise 0x0780 (some n) (le 4 k ++ le 6 (x.start k + p.deadline) ++ le 1 reason ++ le 1 expected ++ le 1 got ++ le 1 p.used ++
          le 2 mask ++ le 2 x.p.sta) s

/-- An attempt of a period is consumed with a reason; after its last the period is decided (R396, R397). -/
def consume (n k reason : Nat) (s : State) : State :=
  match (getBf s n).bind fun x => x.period k with
  | none => s
  | some p =>
    let s := onBf n (Bf.onPeriod k fun p => { p with used := p.used + 1, reason := if reason = 0 then p.reason else reason }) s
    let st := ((getBf s n).map (·.st)).getD 0
    if p.attempts ≤ p.used + 1 && st != 3 then decide_ n k (if reason = 0 then p.reason else reason) s else s

/-- A frame of a period is delivered; a period with nothing left is closed without a record. -/
def delivered (n k i : Nat) (s : State) : State :=
  match (getBf s n).bind fun x => x.period k with
  | none => s
  | some p =>
    if (p.frames.getD i ({}, true)).2 then s
    else onBf n (Bf.onPeriod k fun p => { p with frames := updAt p.frames i fun f => (f.1, true) }) (countBf n 1 s)

/-- The frames of a period still to be delivered. -/
def BfPeriod.open_ (p : BfPeriod) : List Nat :=
  let miss := (p.frames.zipIdx.filter fun f => !f.1.2 && !p.lost.contains f.2).map (·.2)
  miss.take (p.frames.length - p.notOffered - (p.frames.filter (·.2)).length)

/-- A flow enters REVIEW with a cause, or adds one (R400): 1 MARGIN, 2 LINK, 3 BAND_DOWN, 4 TURN_PLAN. -/
def enterReview (n cause : Nat) (s : State) : State :=
  match getBf s n with
  | none => s
  | some x =>
    if x.st = 3 || x.causes.getLsbD (cause - 1) then s
    else
      let m := ((Tab.get? s.air.pledges (2 * x.p.sta + x.p.link)).bind (·.last)).getD (-128)
      let s := onBf n (fun y => { y with st := 2, causes := y.causes ||| ((1 : BitVec 4) <<< (cause - 1)) }) s
      raise 0x0781 (some n) (le 1 cause ++ leI 1 m ++ le 2 x.p.sta) s

/-- A cause clears; with the last the flow returns to ACTIVE (R400). -/
def clearCause (n cause : Nat) (s : State) : State :=
  match getBf s n with
  | none => s
  | some x =>
    let c := x.causes &&& ~~~((1 : BitVec 4) <<< (cause - 1))
    if x.st != 2 || !x.causes.getLsbD (cause - 1) then s
    else if c = 0 then raise 0x0782 (some n) ([2, 0] ++ le 2 x.p.sta) (onBf n (fun y => { y with st := 1, causes := 0 }) s)
    else onBf n (fun y => { y with causes := c }) s

/-- Flows of a station on a link. -/
def flowsOf (s : State) (p : Bf → Bool) : List Nat := (s.air.bfs.filter fun e => p e.2).map (·.1)

end Sys2Proof.Machine
end

