-- ==== Sys2Proof/Machine/Phy.lean ====
section
/-!
DEFINITION. Wideband PHY: sounding and precoding options, channel state reads and the untriggered receiver (chapter 9).
-/
namespace Sys2Proof.Machine

/-- SOUNDING_CONFIG (R325). -/
def specSoundingConfig : OpSpec where
  op := 0x040B
  modes := inModes [2, 4, 5, 6]
  rsv c := c.flagsBelow 17 3 && c.zero [(29, 3)]
  needs c := [bandDom (c.u 16 1)]
  body c s :=
    if c.u 16 1 > 1 || c.u 18 2 < 2 || 1000 < c.u 18 2 || c.u 20 2 < 2 || 2000 < c.u 20 2 || 20 < c.u 22 1 || c.u 23 1 < 1 || 4 < c.u 23 1 ||
      1 < c.u 24 1 || 1 < c.u 25 1 || c.u 26 2 < 100 || 60000 < c.u 26 2 || 60 < c.u 28 1 || c.u 20 2 < c.u 18 2 then (eArg, s)
    else
      (.okAir, onPhy (c.u 16 1) (fun p => { p with
        sndFlags := BitVec.ofNat 3 (c.u 17 1), resound := c.u 18 2, maxAge := c.u 20 2, frac := c.u 22 1, maxTx := c.u 23 1, ng := c.u 24 1,
        codebook := c.u 25 1, explicit := c.u 26 2, minSnr := c.u 28 1 }) s)

/-- SOUNDING_CONFIG. -/
def execSoundingConfig (d : Doorbell) (p : List Byte) (s : State) : Out := command specSoundingConfig d p s

/-- A puncturing pattern that IEEE 802.11be permits for non-OFDMA transmission in a width (R298; log entry 23). -/
def punctOk (w mask : Nat) : Bool :=
  mask = 0 || (w = 2 && (List.range 4).any fun i => mask = 2 ^ i) ||
    (w = 3 && ((List.range 8).any (fun i => mask = 2 ^ i) || (List.range 4).any fun i => mask = 3 * 4 ^ i))

/-- PRECODE_CONFIG (R298, R326). -/
def specPrecodeConfig : OpSpec where
  op := 0x040C
  modes := inModes [2, 4, 5, 6]
  rsv c := c.flagsBelow 17 1 && c.zero [(26, 6)]
  needs c := [bandDom (c.u 16 1)]
  body c s :=
    let b := c.u 16 1
    if b > 1 || 256 < c.u 18 2 || c.u 20 1 < 6 || 20 < c.u 20 1 || 11 < c.u 21 1 || 3 < c.u 22 1 || 1 < c.u 23 1 || c.u 25 1 < 1 || 8 < c.u 25 1 then
      (eArg, s)
    else
      let ch := (getBand s b).ch
      if bit (c.u 24 1) ch.primary || !punctOk ch.width (c.u 24 1) then (.err 0x0406 [24], s)
      else
        (.okAir, onPhy b (fun p => { p with
          restartEn := bit (c.u 17 1) 0, reg := c.u 18 2, stepDb := c.u 20 1, broad := c.u 21 1, gi := c.u 22 1, tbGi := c.u 23 1,
          punct := BitVec.ofNat 8 (c.u 24 1), maxSets := c.u 25 1 }) s)

/-- PRECODE_CONFIG. -/
def execPrecodeConfig (d : Doorbell) (p : List Byte) (s : State) : Out := command specPrecodeConfig d p s

/-- The bytes of a block (R309). -/
def blockBytes (sta stream group : Nat) (k : CsiBlock) : List Byte :=
  le 2 sta ++ le 1 stream ++ le 1 group ++ leI 1 k.exp ++ le 1 k.source ++ leI 1 k.snr ++ [0] ++ le 6 k.beat ++ [0, 0] ++ pad 240 k.h

/-- The summary of a station's stream (R327). -/
def streamSummary (s : State) (b sta i : Nat) : List Byte :=
  let n := curBeat s
  let gs := List.range (toneGroups (getBand s b).ch.width)
  let cur := gs.filterMap fun g => Tab.get? s.air.csi (csiKey sta b i g)
  let ok := gs.filterMap fun g => validBlock s b n sta i g
  let newest := cur.foldl (fun (o : Option CsiBlock) k => match o with
    | some j => if j.beat < k.beat then some k else some j
    | none => some k) none
  let oldest := ok.foldl (fun (o : Option Nat) k => match o with
    | some j => some (min j k.beat)
    | none => some k.beat) none
  le 1 ((newest.map (·.source)).getD 0) ++ leI 1 (if ok.isEmpty then 0 else meanOf (ok.map (·.snr))) ++ le 1 ok.length ++ [0] ++
    le 4 ((oldest.map fun o => n - o).getD 0xFFFFFFFF)

/-- CSI_READ (R327). -/
def specCsiRead : OpSpec where
  op := 0x040D
  modes := inModes [4, 5, 6]
  rsv c := c.flagsBelow 22 1 && c.zero [(23, 1)]
  needs c := [5, bandDom (c.u 17 1)]
  body c s :=
    let kind := c.u 16 1
    let b := c.u 17 1
    let sta := c.u 18 2
    let w := (getBand s b).ch.width
    if kind > 2 || b > 1 || (kind < 2 && 2047 < sta) || (kind = 0 && (3 < c.u 20 1 || toneGroups w ≤ c.u 21 1)) then (eArg, s)
    else match kind with
      | 2 =>
        let p := getPhy s b
        (.ok (ctrBytes p.ctr ++ le 4 0), if bit (c.u 22 1) 0 then onPhy b (fun p => { p with ctr := zeroed p.ctr }) s else s)
      | 0 => match getSta s sta, Tab.get? s.air.csi (csiKey sta b (c.u 20 1) (c.u 21 1)) with
        | some _, some k => (.ok (blockBytes sta (c.u 20 1) (c.u 21 1) k), s)
        | _, _ => (.err 0x0405, s)
      | _ => match getSta s sta with
        | none => (.err 0x0405, s)
        | some _ =>
          let n := curBeat s
          let streams := ((List.range 4).filter fun i => (List.range (toneGroups w)).any fun g => (validBlock s b n sta i g).isSome).length
          (.ok (le 1 streams ++ le 1 (b2n (muOk s b n sta 11 0 1)) ++ [0, 0] ++ (List.range 4).flatMap (streamSummary s b sta)), s)

/-- CSI_READ. -/
def execCsiRead (d : Doorbell) (p : List Byte) (s : State) : Out := command specCsiRead d p s

/-! The untriggered receiver (R319, R320). -/

/-- The receiver of a band takes air: the band is in service and sends nothing. -/
def rxOpen (s : State) (b : Nat) : Bool := inService s b && (getAB s b).onAir.isNone

/-- WB_PREAMBLE_DETECTED (R319): the gains run and freeze. -/
def execWbPreambleDetected (band : BandId) (s : State) : Out :=
  let b := band.num
  .next (onlyIf (rxOpen s b && (getPhy s b).rx = 0) (fun s => onPhy b (fun p => { p with rx := 2, rxNs := nowNs s }) s) s)

/-- WB_RX_FALSE_DET (R319): the gains return to rest. -/
def execWbRxFalseDet (band : BandId) (s : State) : Out :=
  let b := band.num
  .next (onlyIf ((getPhy s b).rx = 1 || (getPhy s b).rx = 2) (fun s => countPhy b 9 (onPhy b (fun p => { p with rx := 0 }) s)) s)

/-- WB_RX_RESTART (R320): the rise of a power window that ends before the lock, in dB. -/
def execWbRxRestart (band : BandId) (rise : Int) (s : State) : Out :=
  let b := band.num
  let p := getPhy s b
  .next (onlyIf (p.restartEn && p.rx = 2 && (p.stepDb : Int) ≤ rise) (fun s => countPhy b 8 (onPhy b (fun p => { p with rx := 0, rxNs := nowNs s }) s)) s)

end Sys2Proof.Machine
end

