-- ==== Sys2Proof/Machine/Stations.lean ====
section
/-!
DEFINITION. The commands of family 0x06 (R370 to R380).
-/
namespace Sys2Proof.Machine

/-- The parameters of STA_ADD (R372). -/
def staParm (c : Cmd) : StaParm where
  flags := BitVec.ofNat 6 (c.u 18 2)
  bss := c.u 20 1
  links := BitVec.ofNat 2 (c.u 21 1)
  aid := c.u 22 2
  mld := c.u 24 6
  addrM := c.u 30 6
  addrH := c.u 36 6
  rxSs := c.u 42 1
  txSs := c.u 43 1
  mcsM := c.u 44 1
  mcsH := c.u 45 1
  maxAmpdu := c.u 46 2
  maxMpdu := c.u 48 2
  txBa := BitVec.ofNat 8 (c.u 50 1)
  rxBa := BitVec.ofNat 8 (c.u 51 1)
  baSize := c.u 52 2
  ks := c.u 54 2
  cipher := c.u 56 1
  uapsd := BitVec.ofNat 4 (c.u 57 1)
  weight := c.u 58 1

/-- The fields of a station are in range (R372). -/
def staOk (c : Cmd) : Bool :=
  let p := staParm c
  let eht := p.flags.getLsbD 1
  let top := if eht then 13 else 11
  c.u 16 2 ≤ 2047 && p.bss ≤ 7 && 1 ≤ c.u 21 1 && c.u 21 1 ≤ 3 && (c.u 21 1 != 3 || p.flags.getLsbD 2) && 1 ≤ p.aid && p.aid ≤ 2007 &&
  (bit (c.u 21 1) 0 || p.addrM = 0) && (bit (c.u 21 1) 1 || p.addrH = 0) && 1 ≤ p.rxSs && p.rxSs ≤ 16 && 1 ≤ p.txSs && p.txSs ≤ 4 &&
  p.mcsM ≤ top && p.mcsH ≤ top && 1 ≤ p.maxAmpdu && p.maxAmpdu ≤ 256 && [3895, 7991, 11454].contains p.maxMpdu && 1 ≤ p.baSize && p.baSize ≤ 256 &&
  p.ks ≤ 8191 && p.cipher ≤ 4 && 1 ≤ p.weight

/-- Reserved fields of a station (R372). -/
def staRsv (c : Cmd) : Bool := c.u 18 2 < 64 && c.u 57 1 < 16 && c.zero [(59, 5)]

/-- Another entry holds one of a station's addresses (R329). -/
def addrTaken (s : State) (n : Nat) (p : StaParm) : Bool :=
  s.air.stas.any fun e => e.1 != n && (e.2.p.mld = p.mld ||
    [p.addrM, p.addrH].any fun a => a != 0 && (a = e.2.p.addrM || a = e.2.p.addrH))

/-- Another entry of the BSS holds a station's AID. -/
def aidTaken (s : State) (n : Nat) (p : StaParm) : Bool := s.air.stas.any fun e => e.1 != n && e.2.p.bss = p.bss && e.2.p.aid = p.aid

/-- STA_ADD (R372). -/
def specStaAdd : OpSpec where
  op := 0x0601
  modes := inModes [2, 4, 5, 6]
  rsv := staRsv
  needs _ := [3]
  body c s :=
    let n := c.u 16 2
    if !staOk c then (eArg, s)
    else if (getSta s n).isSome || addrTaken s n (staParm c) then (.err 0x0601, s)
    else if aidTaken s n (staParm c) then (eArg, s)
    else (.okAir, s.onAir fun a => { a with stas := Tab.set a.stas n { p := staParm c } })

/-- STA_ADD. -/
def execStaAdd (d : Doorbell) (p : List Byte) (s : State) : Out := command specStaAdd d p s

/-- STA_MODIFY (R372). -/
def specStaModify : OpSpec where
  op := 0x0602
  modes := inModes [2, 4, 5, 6]
  rsv := staRsv
  needs _ := [3]
  body c s :=
    let n := c.u 16 2
    let q := staParm c
    if !staOk c then (eArg, s)
    else match getSta s n with
      | none => (.err 0x0602, s)
      | some x =>
        if q.bss != x.p.bss || q.aid != x.p.aid || q.mld != x.p.mld || q.addrM != x.p.addrM || q.addrH != x.p.addrH then (eArg, s)
        else (.okAir, onSta n (fun x => { x with p := q }) s)

/-- STA_MODIFY. -/
def execStaModify (d : Doorbell) (p : List Byte) (s : State) : Out := command specStaModify d p s

/-- The index entries of a station are cleared (R308). -/
def clearCsi (n : Nat) (s : State) : State :=
  s.onAir fun a => { a with csi := a.csi.filter fun e => e.1 / 1024 != n, csiNew := a.csiNew.filter fun e => e.1 / 1024 != n }

/-- STA_REMOVE (R373). -/
def specStaRemove : OpSpec where
  op := 0x0603
  modes := inModes [2, 4, 5, 6]
  rsv c := c.zero [(18, 2)]
  needs _ := [3]
  body c s :=
    let n := c.u 16 2
    if 2047 < n then (eArg, s)
    else match getSta s n with
      | none => (.err 0x0602, s)
      | some x =>
        if s.air.bfs.any fun f => f.2.p.sta = n then (.err 0x0603, s)
        else
          let k := sumOf (x.q.map List.length)
          (.okAir, clearCsi n (s.onAir fun a => { a with
            stas := Tab.erase a.stas n, flushed := satAdd 32 a.flushed k, pledges := a.pledges.filter fun e => e.1 / 2 != n }))

/-- STA_REMOVE. -/
def execStaRemove (d : Doorbell) (p : List Byte) (s : State) : Out := command specStaRemove d p s

/-- The bytes of an entry in the STA_ADD layout (R372). -/
def staBytes (n : Nat) (p : StaParm) : List Byte :=
  le 2 n ++ le 2 p.flags.toNat ++ le 1 p.bss ++ le 1 p.links.toNat ++ le 2 p.aid ++ le 6 p.mld ++ le 6 p.addrM ++ le 6 p.addrH ++ le 1 p.rxSs ++
    le 1 p.txSs ++ le 1 p.mcsM ++ le 1 p.mcsH ++ le 2 p.maxAmpdu ++ le 2 p.maxMpdu ++ [p.txBa, p.rxBa] ++ le 2 p.baSize ++ le 2 p.ks ++
    le 1 p.cipher ++ le 1 p.uapsd.toNat ++ le 1 p.weight ++ [0, 0, 0, 0, 0]

/-- DEFICIT in us. -/
def deficitUs (x : Sta) : Int := if x.deficit % 16 = 0 then x.deficit / 16 else if Config.tieUp x.deficit then x.deficit / 16 + 1 else x.deficit / 16

/-- STA_GET (R374). -/
def specStaGet : OpSpec where
  op := 0x0604
  modes := inModes [2, 4, 5, 6]
  needs _ := [3]
  body c s :=
    let kind := c.u 16 1
    let n := c.u 18 2
    if kind > 2 || (kind = 2 && c.u 17 1 > 1) || (kind < 2 && 2047 < n) then (eArg, s)
    else if kind = 2 then (.ok (ctrBytes (getAB s (c.u 17 1)).ctr), s)
    else match getSta s n with
      | none => (.err 0x0602, s)
      | some x =>
        if kind = 0 then (.ok (staBytes n x.p), s)
        else
          let st := b2n x.lm.dozing + 2 * b2n x.lh.dozing + 4 * b2n x.lm.unusable + 8 * b2n x.lh.unusable
          (.ok (ctrBytes x.ctr ++ leI 4 (deficitUs x) ++ le 1 st ++ le 1 x.lm.mcs ++ le 1 x.lh.mcs ++ [0]), s)

/-- STA_GET. -/
def execStaGet (d : Doorbell) (p : List Byte) (s : State) : Out := command specStaGet d p s

/-- An access class of AC_PARAM_SET (R375). -/
def acParm (c : Cmd) (a : Nat) : AcParm :=
  let o := 32 + 10 * a
  { aifsn := c.u o 1, ecwmin := c.u (o + 1) 1, ecwmax := c.u (o + 2) 1, retry := c.u (o + 3) 1, txop := c.u (o + 4) 2, life := c.u (o + 6) 2,
    qlimit := c.u (o + 8) 2 }

/-- An access class is in range. -/
def AcParm.ok (a : AcParm) : Bool :=
  1 ≤ a.aifsn && a.aifsn ≤ 15 && a.ecwmin ≤ a.ecwmax && a.ecwmax ≤ 15 && 1 ≤ a.retry && a.retry ≤ 15 && a.txop ≤ 8160 && 1 ≤ a.life && a.life ≤ 10000 &&
  16 ≤ a.qlimit && a.qlimit ≤ 4096

/-- AC_PARAM_SET (R375). -/
def specAcParamSet : OpSpec where
  op := 0x0605
  modes := inModes [2, 4, 5, 6]
  rsv c := c.flagsBelow 29 2
  needs _ := [3]
  body c s :=
    let acs := (List.range 4).map (acParm c)
    let ring := c.u 28 1
    if c.u 16 1 > 1 || 100 < c.u 17 1 || 50000 < c.u 18 2 || 50000 < c.u 20 2 || 32 < c.u 22 1 || c.u 23 1 < 1 || 16 < c.u 23 1 || c.u 24 2 < 10 ||
      10000 < c.u 24 2 || c.u 26 2 < 1 || 1000 < c.u 26 2 || !((32 ≤ ring && ring ≤ 61) || ring = 0xFF) || 40 < c.u 30 1 || c.u 31 1 < 1 ||
      !acs.all AcParm.ok then (eArg, s)
    else
      (.okAir, onAB (c.u 16 1) (fun x => { x with
        ulPct := c.u 17 1, head := c.u 18 2, tail := c.u 20 2, retrySym := c.u 22 1, minSym := c.u 23 1, quantum := c.u 24 2, reorderMs := c.u 26 2,
        outRing := ring, outMask := BitVec.ofNat 8 (c.u 29 1), mcsMargin := c.u 30 1, bsrp := c.u 31 1, ac := acs }) s)

/-- AC_PARAM_SET. -/
def execAcParamSet (d : Doorbell) (p : List Byte) (s : State) : Out := command specAcParamSet d p s

/-- The first beat of a plan or list with a START_BEAT, and the beat its phases count from; none where it is too late (R376). -/
def startBeat (s : State) (start : Nat) (runLate : Bool) : Option (Nat × Nat) :=
  let e := effBeat s true
  if start = 0 then some (e, e) else if e ≤ start then some (start, start) else if runLate then some (e, start) else none

/-- TURN_PLAN_SET (R376). -/
def specTurnPlanSet : OpSpec where
  op := 0x0606
  modes := inModes [2, 4, 5, 6]
  rsv c := c.flagsBelow 17 1 && c.zero [(26, 2)]
  needs _ := [3]
  body c s :=
    let n := c.u 18 2
    let kinds := (List.range n).map fun p => c.u (28 + p / 4) 1 / 4 ^ (p % 4) % 4
    if c.u 16 1 > 1 || n < 1 || 1024 < n || kinds.contains 3 then (eArg, s)
    else match startBeat s (c.u 20 6) (bit (c.u 17 1) 0) with
      | none => (.err 0x0604, s)
      | some (from_, start) =>
        let t : TurnPlan := { cycle := n, start, from_, kinds, runLate := bit (c.u 17 1) 0 }
        (.okAir, onAB (c.u 16 1) (fun x => { x with turns := t :: x.turns }) s)

/-- TURN_PLAN_SET. -/
def execTurnPlanSet (d : Doorbell) (p : List Byte) (s : State) : Out := command specTurnPlanSet d p s

/-- The entries of AIR_GATE_SET (R377). -/
def gateEntries (c : Cmd) : List (Nat × Nat × Nat) := (List.range (c.u 17 1)).map fun i => (c.u (44 + 6 * i) 1, c.u (40 + 6 * i) 4, c.u (45 + 6 * i) 1)

/-- The first entry that breaks R353. -/
def badGate (s : State) (c : Cmd) : Option Nat :=
  let es := gateEntries c
  let rise (i : Nat) (e : Nat × Nat × Nat) : Bool := match es[i - 1]? with
    | some f => i = 0 || f.1 < e.1 || (f.1 = e.1 && f.2.1 < e.2.1)
    | none => true
  (es.zipIdx.find? fun x => !rise x.2 x.1 || bpNs s ≤ x.1.2.1 || (!bit x.1.2.2 4 && bandFlows s (c.u 16 1))).map (·.2)

/-- AIR_GATE_SET (R353, R377). -/
def specAirGateSet : OpSpec where
  op := 0x0607
  modes := inModes [2, 4, 5, 6]
  rsv c := c.flagsBelow 19 1 && c.zero [(26, 2), (38, 2)] && (gateEntries c).all fun e => e.2.2 < 32
  needs _ := [3]
  body c s :=
    let air := (List.range 5).map fun i => c.u (28 + 2 * i) 2
    if c.u 16 1 > 1 || 64 < c.u 17 1 || c.u 18 1 < 1 || 64 < c.u 18 1 || (air.any fun a => a < 100 || 5484 < a) ||
      ((gateEntries c).any fun e => c.u 18 1 ≤ e.1) then (eArg, s)
    else match badGate s c with
      | some i => (.err 0x0605 [BitVec.ofNat 8 i], s)
      | none => match startBeat s (c.u 20 6) (bit (c.u 19 1) 0) with
        | none => (.err 0x0604, s)
        | some (from_, start) =>
          let g : AirGates := { cycleBeats := c.u 18 1, start, from_, entries := gateEntries c, runLate := bit (c.u 19 1) 0 }
          (.okAir, onAB (c.u 16 1) (fun x => { x with gates := g :: x.gates, maxAir := air }) s)

/-- AIR_GATE_SET. -/
def execAirGateSet (d : Doorbell) (p : List Byte) (s : State) : Out := command specAirGateSet d p s

/-- BEACON_TEMPLATE (R362, R378). -/
def specBeaconTemplate : OpSpec where
  op := 0x0608
  modes := inModes [2, 4, 5, 6]
  rsv c := c.flagsBelow 18 1 && c.zero [(38, 10)]
  needs _ := [3]
  body c s :=
    let n := c.u 26 2
    let tim := c.u 24 2
    if c.u 16 1 > 1 || 7 < c.u 17 1 || c.u 19 1 < 1 || c.u 20 2 < 20 || 1000 < c.u 20 2 || n < 24 || 448 < n || 8191 < c.u 34 2 ||
      !([6, 9, 12, 18, 24, 36, 48, 54].contains (c.u 36 1)) || c.u 37 1 < 32 || 61 < c.u 37 1 then (eArg, s)
    else if n < c.u 22 2 + 8 || (tim != 0xFFFF && n ≤ tim) then (.err 0x0606, s)
    else
      let period := 1024 * c.u 20 2
      let first := ceilDiv (effBeat s true * bpNs s / 1000) period
      let x : Bss := { enable := bit (c.u 18 1) 0, dtim := c.u 19 1, interval := c.u 20 2, tsfOff := c.u 22 2, timOff := tim, bssid := c.u 28 6,
                       gtk := c.u 34 2, rate := c.u 36 1, ring := c.u 37 1, template := c.bytes 48 n, nextTbtt := first }
      (.okAir, onAB (c.u 16 1) (fun y => { y with bss := Tab.set y.bss (c.u 17 1) x }) s)

/-- BEACON_TEMPLATE. -/
def execBeaconTemplate (d : Doorbell) (p : List Byte) (s : State) : Out := command specBeaconTemplate d p s

/-- LINK_STEER (R379). -/
def specLinkSteer : OpSpec where
  op := 0x0609
  modes := inModes [2, 4, 5, 6]
  rsv c := c.zero [(19, 1), (24, 4)] && [20, 21, 22, 23].all fun o => c.u o 1 < 4
  needs _ := [3]
  body c s :=
    let n := c.u 16 2
    if 2047 < n || 4 < c.u 18 1 then (eArg, s)
    else match getSta s n with
      | none => (.err 0x0602, s)
      | some x =>
        if !x.p.flags.getLsbD 2 then (eArg, s)
        else (.okAir, onSta n (fun x => { x with steer := c.u 18 1, acLink := [20, 21, 22, 23].map fun o => BitVec.ofNat 2 (c.u o 1) }) s)

/-- LINK_STEER. -/
def execLinkSteer (d : Doorbell) (p : List Byte) (s : State) : Out := command specLinkSteer d p s

/-- POLICY_BIND (R380). -/
def specPolicyBind : OpSpec where
  op := 0x060A
  modes := inModes [2, 4, 5, 6]
  rsv c := c.zero [(17, 1), (22, 2)]
  needs _ := [3]
  body c s :=
    let k := c.u 18 2
    if c.u 16 1 > 1 || (63 < k && k != 0xFFFF) || c.u 20 2 < 16 || 1024 < c.u 20 2 then (eArg, s)
    else if k != 0xFFFF && !((Tab.get? s.col.kernels k).map (·.started)).getD false then (eState, s)
    else (.okAir, onAB (c.u 16 1) (fun x => { x with kernel := k, candMax := c.u 20 2 }) s)

/-- POLICY_BIND. -/
def execPolicyBind (d : Doorbell) (p : List Byte) (s : State) : Out := command specPolicyBind d p s

end Sys2Proof.Machine
end

