-- ==== Sys2Proof/Machine/FlowPlan.lean ====
section
/-!
DEFINITION. Bounded flows: where attempts fall, what they cost, and the bounded-flow interval of a plan (R387 to R396, R400).
-/
namespace Sys2Proof.Machine

/-- A period's attempts in a beat: the period, its bytes, and how many attempts the beat holds. -/
structure BfItem where
  bf : Nat
  k : Nat
  sta : Nat
  dir : Nat
  count : Nat
  bytes : Nat
  mcs : Nat
  ss : Nat
  /-- frames still to be delivered -/
  frames : List Nat := []
deriving DecidableEq, Repr

/-- Attempts of a period that fall in a beat, by the TURN beats of its window (R389). -/
def attemptsIn (turns : List Nat) (attempts beat : Nat) : Nat :=
  match turns.findIdx? (· == beat) with
  | none => 0
  | some i => if i + 1 < turns.length then b2n (i + 1 ≤ attempts) else attempts - i

/-- The TURN beats of a window. -/
def turnsOf (isTurn : Nat → Bool) (start d : Nat) : List Nat := ((List.range d).map (start + ·)).filter isTurn

/-- The pledge of a station on a link. -/
def pledgeOf (s : State) (sta link : Nat) : Option Pledge := Tab.get? s.air.pledges (2 * sta + link)

/-- Periods of a flow whose window holds a beat. -/
def periodsAt (x : Bf) (beat : Nat) : List Nat :=
  if beat < x.p.first then []
  else
    let d := x.next.foldl (fun d v => max d v.2.deadline) x.p.deadline
    let hi := (beat - x.p.first) / max 1 x.p.period
    let lo := ceilDiv (beat + 1 - d - x.p.first) (max 1 x.p.period)
    ((List.range (hi + 1 - lo)).map (lo + ·)).filter fun k => x.from_ ≤ x.start k && beat < x.start k + (x.parmAt k).deadline

/-- Every reserved attempt of some flows in a beat (R389, R390). -/
def reservedItems (s : State) (flows : List (Nat × Bf)) (isTurn : Nat → Bool) (beat : Nat) : List BfItem :=
  flows.flatMap fun e => (periodsAt e.2 beat).filterMap fun k =>
    let q := e.2.parmAt k
    let n := attemptsIn (turnsOf isTurn (e.2.start k) q.deadline) q.attempts beat
    let pl := (pledgeOf s q.sta q.link).getD { mcs := 0, ss := 1 }
    if n = 0 then none
    else some { bf := e.1, k, sta := q.sta, dir := q.dir, count := n, bytes := q.fpp * (q.maxFrame + 58), mcs := pl.mcs, ss := pl.ss }

/-- A user of a bounded-flow exchange: one station, with its periods. -/
structure BfUser where
  sta : Nat
  ss : Nat
  mcs : Nat
  bytes : Nat
  items : List BfItem
deriving DecidableEq, Repr

/-- Users of a round and direction, one per station, by lowest BF index (R390). -/
def roundUsers (items : List BfItem) : List BfUser :=
  (sortDesc (fun i => -((i.bf : Nat) : Int)) items).foldl (fun us i =>
    if us.any (·.sta == i.sta) then
      us.map fun u => if u.sta = i.sta then { u with bytes := u.bytes + i.bytes, items := u.items ++ [i], mcs := min u.mcs i.mcs } else u
    else us ++ [{ sta := i.sta, ss := i.ss, mcs := i.mcs, bytes := i.bytes, items := [i] }]) []

/-- Users cut into exchanges of at most 8 users and 16 streams. -/
def exchanges (us : List BfUser) : List (List BfUser) :=
  us.foldl (fun l u => match l.getLast? with
    | some c => if c.length < 8 && sumOf (c.map (·.ss)) + u.ss ≤ 16 then l.dropLast ++ [c ++ [u]] else l ++ [[u]]
    | none => [[u]]) []

/-- Data symbols of an exchange. -/
def exSyms (s : State) (b : Nat) (c : List BfUser) : Nat := c.foldl (fun n u => max n (symsFor u.bytes (nDbps (bandTones s b) u.mcs u.ss))) 0

/-- The PPDU of an exchange: uplink 1, downlink 0. -/
def exPpdu (s : State) (b dir : Nat) (c : List BfUser) : Nat :=
  let st := sumOf (c.map (·.ss))
  let p := getPhy s b
  if dir = 1 then tbHead st p.tbGi + exSyms s b c * tSym (tbGiCode p.tbGi) else muHead c.length st p.gi + exSyms s b c * tSym p.gi

/-- The whole exchange with the SIFS after it. -/
def exTotal (s : State) (b dir : Nat) (c : List BfUser) : Nat :=
  if dir = 1 then trigNs c.length + sifs + exPpdu s b 1 c + sifs + msbaNs c.length + sifs
  else exPpdu s b 0 c + sifs + ackTb (getPhy s b).tbGi + sifs

/-- The exchanges of a beat in order: round, direction, users. -/
def beatExchanges (items : List BfItem) : List (Nat × Nat × List BfUser) :=
  [1, 2, 3, 4].flatMap fun r => [1, 0].flatMap fun d =>
    (exchanges (roundUsers (items.filter fun i => r ≤ i.count && i.dir = d))).map fun c => (r, d, c)

/-- price(b), and whether a PPDU is too long (R390). -/
def priceOf (s : State) (b : Nat) (items : List BfItem) : Nat × Bool :=
  let ex := beatExchanges items
  (sumOf (ex.map fun e => exTotal s b e.2.1 e.2.2), ex.any fun e => 1000 * (getAB s b).maxAir.getD 4 5484 < exPpdu s b e.2.1 e.2.2)

/-- The result of the air part of the admission test: failure (0 none, 1 air, 3 PPDU length), the dearest beat and its price. -/
structure AirTest where
  fail : Nat := 0
  beat : Nat := 0
  ns : Nat := 0
deriving DecidableEq, Repr

/-- Every TURN beat of [e, e + h) is priced against a share of C (R391). -/
def airTest (s : State) (b : Nat) (flows : List (Nat × Bf)) (isTurn : Nat → Bool) (e h pct : Nat) : AirTest :=
  let lim := usableAir s b * pct / 100
  (((List.range h).map (e + ·)).filter isTurn).foldl (fun r beat =>
    let (n, long) := priceOf s b (reservedItems s flows isTurn beat)
    { fail := if r.fail != 0 then r.fail else if long then 3 else if lim < n then 1 else 0
      beat := if r.ns < n then beat else r.beat
      ns := max r.ns n }) { beat := ((((List.range h).map (e + ·)).filter isTurn).head?).getD e }

/-- The admitted flows of a band. -/
def bandBfs (s : State) (b : Nat) : List (Nat × Bf) := s.air.bfs.filter fun e => e.2.p.link = b

/-- The hyperperiod of some flows (R391). -/
def hyper (x : AirBand) (e : Nat) (flows : List (Nat × Bf)) : Nat :=
  flows.foldl (fun h f => Nat.lcm h f.2.p.period) (((turnAt x e).map (·.cycle)).getD 1)

/-- The beats that the turn plan in force at a beat makes TURN. -/
def turnBy (x : AirBand) (e beat : Nat) : Bool := ((turnAt x e).map fun t => t.kindAt beat == 1).getD false

/-- Some period of a flow has no TURN beat in its window. -/
def noTurn (x : AirBand) (e h : Nat) (f : Bf) : Bool :=
  let k0 := ceilDiv (max e f.from_ - f.p.first) (max 1 f.p.period)
  (List.range (ceilDiv h (max 1 f.p.period))).any fun i =>
    (turnsOf (turnBy x e) (f.start (k0 + i)) (f.parmAt (k0 + i)).deadline).isEmpty

/-- The band's flows pass the test of R391 at a beat, as far as the turn plan and the air decide it. -/
def bandPasses (s : State) (b e pct : Nat) : Bool :=
  let x := getAB s b
  let fs := bandBfs s b
  let h := hyper x e fs
  h ≤ 4096 && fs.all (fun f => !noTurn x e h f.2) && (airTest s b fs (turnBy x e) e h pct).fail = 0

/-- The downlink buffer need of a flow, bytes (R392). -/
def bufferNeed (p : BfParm) : Nat := if p.dir = 0 then p.fpp * (p.maxFrame + 58) * (ceilDiv (p.deadline + 2) (max 1 p.period) + 1) else 0

/-! The bounded-flow interval (R393 to R396). -/

/-- An attempt is withheld: 8 the link dozes, 9 it is UNUSABLE (R396). -/
def withheld (s : State) (sta b : Nat) : Nat :=
  match getSta s sta with
  | none => 9
  | some x => let l := x.link b
    if l.dozing && !l.psPoll && !l.sp then 8 else if l.unusable then 9 else 0

/-- The attempts that a plan still needs (R394). -/
def neededItems (s : State) (b beat : Nat) : List BfItem :=
  let items := reservedItems s ((bandBfs s b).filter fun e => e.2.st = 1 || e.2.st = 2) (fun t => planKind (getAB s b) t = 1) beat
  items.filterMap fun i => match (getBf s i.bf).bind fun x => (x.period i.k).map fun p => (x, p) with
    | none => none
    | some (x, p) =>
      let open_ := p.open_
      let q := x.parmAt i.k
      let mcs := if x.st = 2 then min i.mcs (plannedMcs s b i.sta (Config.predSnr (blockSnrs s b (beat - 2) i.sta) i.ss)) else i.mcs
      if open_.isEmpty then none else some { i with frames := open_, bytes := open_.length * (q.maxFrame + 58), mcs }

/-- In REVIEW the MCS of users is raised to the pledge, lowest BF first, until the exchanges fit (R400). -/
def raiseMcs (s : State) (b lim : Nat) : List Nat → List BfItem → List BfItem
  | [], items => items
  | f :: fs, items =>
    if (priceOf s b items).1 ≤ lim then items
    else raiseMcs s b lim fs (items.map fun i => if i.bf = f then { i with mcs := ((pledgeOf s i.sta b).map (·.mcs)).getD i.mcs } else i)

/-- The triples that a user carries: flow, period, frame. -/
def BfUser.triples (u : BfUser) : List (Nat × Nat × Nat) := u.items.flatMap fun i => i.frames.map fun f => (i.bf, i.k, f)

/-- A user of a plan for a bounded-flow user. -/
def BfUser.pUser (u : BfUser) : PUser := { sta := u.sta, ss := u.ss, mcs := u.mcs, bf := u.triples }

/-- The exchanges that fit in a length, in order; the periods of those that do not are named. -/
def fitExchanges (s : State) (b lim : Nat) : List (Nat × Nat × List BfUser) → Nat → List (Nat × Nat × List BfUser) × List BfItem
  | [], _ => ([], [])
  | (r, d, c) :: t, used =>
    let n := exTotal s b d c
    if used + n ≤ lim then
      let (a, m) := fitExchanges s b lim t (used + n)
      ((r, d, c) :: a, m)
    else
      let (a, m) := fitExchanges s b lim t used
      (a, c.flatMap (·.items) ++ m)

/-- The PPDUs of an exchange at an instant, and the grouping that a precoded one asks for (R395). -/
def exchangePpdus (s : State) (b at_ : Nat) (w : Nat) (e : Nat × Nat × List BfUser) : List Ppdu :=
  let (r, d, c) := e
  let us := c.map BfUser.pUser
  let n := exSyms s b c
  if d = 1 then
    let tr := trigNs c.length
    let tb := exPpdu s b 1 c
    [{ kind := 2, p := at_, dur := tr, a := tr + sifs + tb, w, users := us, cls := 4, bf := true, round := r, nsym := n },
     { kind := 3, p := at_ + tr + sifs + tb + sifs, dur := msbaNs c.length, a := msbaNs c.length, w, users := us.map fun u => { u with bf := [] }, cls := 4,
       bf := true, round := r }]
  else
    let m := exPpdu s b 0 c
    [{ kind := 0, p := at_, dur := m, a := m + sifs + ackTb (getPhy s b).tbGi, w, users := us, cls := 4, bf := true, round := r, nsym := n, mf := true }]

/-- A downlink user without a valid block on every tone group is sent alone on the broad beam (R395). -/
def soloPpdu (s : State) (b at_ w r : Nat) (u : BfUser) : Ppdu :=
  let p := getPhy s b
  let n := symsFor u.bytes (nDbps (bandTones s b) u.mcs 1)
  let m := muHead 1 1 p.gi + n * tSym p.gi
  { kind := 1, p := at_, dur := m, a := m + sifs + ackTb p.tbGi, w, users := [{ u.pUser with ss := 1 }], cls := 4, bf := true, round := r, nsym := n }

/-- Consume an attempt of each period of some items. -/
def consumeAll (items : List BfItem) (reason : Nat) (s : State) : State := items.foldl (fun s i => consume i.bf i.k reason s) s

/-- A user of a joint exchange that may not be precoded goes out alone where the price allows it; else its attempts are used up. -/
def soloUser (b head price w r : Nat) (acc : List Ppdu × Nat × State) (u : BfUser) : List Ppdu × Nat × State :=
  let p := soloPpdu acc.2.2 b acc.2.1 w r u
  if acc.2.1 + p.a + sifs ≤ head + price then (acc.1 ++ [p], acc.2.1 + p.a + sifs, acc.2.2) else (acc.1, acc.2.1, consumeAll u.items 7 acc.2.2)

/-- An exchange of the reserved part is placed. -/
def putExchange (b beat head price w : Nat) (acc : List Ppdu × Nat × State) (e : Nat × Nat × List BfUser) : List Ppdu × Nat × State :=
  let (r, d, c) := e
  let ok (u : BfUser) : Bool := d = 1 || muOk acc.2.2 b (beat - 2) u.sta 11 0 u.ss
  let good := c.filter ok
  let ps := if good.isEmpty then acc.1 else acc.1 ++ exchangePpdus acc.2.2 b acc.2.1 w (r, d, good)
  let t := if good.isEmpty then acc.2.1 else acc.2.1 + exTotal acc.2.2 b d good
  (c.filter fun u => !ok u).foldl (soloUser b head price w r) (ps, t, acc.2.2)

/-- The attempts of withheld stations are used up at plan-open. -/
def consumeHeld (b : Nat) (out : List BfItem) (s : State) : State :=
  out.foldl (fun s i => (List.range i.count).foldl (fun s _ => consume i.bf i.k (withheld s i.sta b) s) s) s

/-- The price of the reserved part of a beat, and the exchanges that fit with the items that do not. -/
def bfFits (b beat : Nat) (items : List BfItem) (s : State) : Nat × List (Nat × Nat × List BfUser) × List BfItem :=
  let price := (priceOf s b (reservedItems s (bandBfs s b) (fun t => planKind (getAB s b) t = 1) beat)).1
  let review := items.any fun i => ((getBf s i.bf).map (·.st)).getD 0 = 2
  let lim := if review then max price (usableAir s b * (getAB s b).cap / 100) else price
  let items := raiseMcs s b lim ((items.map (·.bf)).eraseDups.filter fun f => ((getBf s f).map (·.st)).getD 0 = 2) items
  (price, fitExchanges s b (min lim (usableAir s b)) (beatExchanges items) 0)

/-- The exchanges are placed one after another behind the head of the beat; the items that do not fit are used up. -/
def putExchanges (b beat price : Nat) (es : List (Nat × Nat × List BfUser)) (left : List BfItem) (s : State) : List Ppdu × Nat × State :=
  es.foldl (putExchange b beat (getAB s b).head price (usableEnd s b)) ([], (getAB s b).head, consumeAll left 11 s)

/-- The bounded-flow interval of a TURN beat's plan: its PPDUs, its length, and what its attempts have come to. -/
def bfInterval (b beat : Nat) (s : State) : List Ppdu × Nat × State :=
  let all := neededItems s b beat
  let s := consumeHeld b (all.filter fun i => withheld s i.sta b != 0) s
  let f := bfFits b beat (all.filter fun i => withheld s i.sta b = 0) s
  let go := putExchanges b beat f.1 f.2.1 f.2.2 s
  (go.1, go.2.1 - (getAB s b).head, go.2.2)

end Sys2Proof.Machine
end

