-- ==== Sys2Proof/Machine/Planner.lean ====
section
/-!
DEFINITION. The planner: link assignment, placement of PPDUs, the fallback grouping and the life of a plan (R17 to R21,
R340 to R368).
-/
namespace Sys2Proof.Machine

/-- A plan of a band. -/
def getPlan (s : State) (b beat : Nat) : Option Plan := Tab.get? (getAB s b).plans beat

/-- Replace a listed plan by its image. -/
def onPlan (b beat : Nat) (f : Plan → Plan) (s : State) : State :=
  match getPlan s b beat with
  | some p => onAB b (fun x => { x with plans := Tab.set x.plans beat (f p) }) s
  | none => s

/-! Links and candidates (R346, R367, R368). -/

/-- A link is usable for a beat by an access class (R367); a service period serves its delivery-enabled classes only (R359). -/
def linkUsable (s : State) (beat a b : Nat) (x : Sta) : Bool :=
  let l := x.link b
  x.p.links.getLsbD b && (x.acLink.getD a 3).getLsbD b && inService s b && beatKind s b beat != 0 && !l.unusable &&
    (!l.dozing || l.psPoll || (l.sp && x.p.uapsd.getLsbD a))

/-- The rate of a station's link at its last placement. -/
def linkRate (s : State) (b : Nat) (x : Sta) : Nat := nDbps (bandTones s b) (x.link b).mcs (x.link b).ss

/-- The band of each frame of an access class (R368). -/
def assignAc (s : State) (beat a : Nat) (x : Sta) (fs : List Frame) : List Frame :=
  let um := linkUsable s beat a 0 x
  let uh := linkUsable s beat a 1 x
  let rm := linkRate s 0 x
  let rh := linkRate s 1 x
  let all (b : Option Nat) : List Frame := fs.map fun f => { f with band := b }
  let only (b : Nat) (ok : Bool) : List Frame := all (if ok then some b else none)
  if !um && !uh then all none
  else if x.steer = 3 then only 0 um
  else if x.steer = 4 then only 1 uh
  else if !(um && uh) then all (some (b2n uh))
  else if x.p.flags.getLsbD 3 then
    let tm := beatKind s 0 beat = 1
    let th := beatKind s 1 beat = 1
    all (some (if tm && !th then 0 else if th && !tm then 1 else if rm < rh then 1 else 0))
  else if x.steer = 1 then all (some 0)
  else if x.steer = 2 then all (some 1)
  else
    let q := sumOf (fs.map fun f => f.bytes.length)
    let lim := q * rm / max 1 (rm + rh)
    (fs.foldl (fun (acc : List Frame × Nat) f => (acc.1 ++ [{ f with band := some (if acc.2 < lim then 0 else 1) }], acc.2 + f.bytes.length)) ([], 0)).1

/-- The queued frames of every station are assigned to bands for a beat (R368). -/
def assignLinks (beat : Nat) (s : State) : State :=
  let one (x : Sta) : Sta := { x with q := x.q.zipIdx.map fun q => assignAc s beat q.2 x q.1 }
  s.onAir fun a => { a with stas := a.stas.map fun e => (e.1, one e.2) }

/-- Frames of a station assigned to a band. -/
def Sta.held (x : Sta) (b : Nat) : List Frame := (x.q.reverse.flatMap id).filter fun f => f.band = some b

/-- Undelivered frames of a station's DEGRADED downlink flows on a link (R401). -/
def degradedOf (s : State) (sta b : Nat) : List (Nat × Nat × Nat) :=
  s.air.bfs.flatMap fun e => if e.2.st = 3 && e.2.p.dir = 0 && e.2.p.sta = sta && e.2.p.link = b then
    e.2.periods.flatMap fun p => p.open_.map fun i => (e.1, p.k, i) else []

/-- The downlink candidates of a band (R346). -/
def candidates (s : State) (b : Nat) : List Nat :=
  let l := s.air.stas.filter fun e => e.2.p.links.getLsbD b && withheld s e.1 b != 8 && (!(e.2.held b).isEmpty || !(degradedOf s e.1 b).isEmpty)
  ((sortDesc (fun e => e.2.deficit) l).map (·.1)).take (getAB s b).candMax

/-- Reported uplink bytes of a station. -/
def Sta.uplink (x : Sta) : Nat := sumOf (x.bsr.map (·.2))

/-- Clamp a deficit (R345). -/
def clampDef (s : State) (b : Nat) (d : Int) : Int := max (-((256 * (getAB s b).quantum : Nat) : Int)) (min ((256 * (getAB s b).quantum : Nat) : Int) d)

/-- Deficits rise at a plan-open (R345), in 1/16 us. -/
def riseDeficits (b : Nat) (s : State) : State :=
  let one (x : Sta) : Sta :=
    if (x.held b).isEmpty && !(0 < x.uplink && x.p.links.getLsbD b) then x
    else { x with deficit := clampDef s b (x.deficit + (getAB s b).quantum * x.p.weight) }
  s.onAir fun a => { a with stas := a.stas.map fun e => (e.1, one e.2) }

/-- Deficits fall by each station's share of a PPDU (R345). -/
def payDeficits (b : Nat) (p : Ppdu) (s : State) : State :=
  let w (u : PUser) : Nat := u.ss * userTones s b u.size
  let all := sumOf (p.users.map w)
  p.users.foldl (fun s u => onSta u.sta (fun x => { x with deficit := clampDef s b (x.deficit - (p.a * 16 * w u / (1000 * max 1 all) : Nat)) }) s) s

/-! Placement (R340, R343, R355). -/

/-- The limit of a TXOP, ns; one PPDU where the parameter is 0. -/
def txopNs (s : State) (b c : Nat) : Nat := 1000 * (((getAB s b).ac.map (·.txop)).getD (min c 3) 0)

/-- Where the next PPDU of an airtime would stand in a plan: its planned offset and window end. -/
def place (s : State) (b beat : Nat) (p : Plan) (classes : List Nat) (a : Nat) : Option (Nat × Nat) :=
  placeAt (usableEnd s b) (blocksOf s b beat p.reserved classes) p.cursor a

/-- A PPDU placed at an offset joins the plan; in a SHARED beat it joins the TXOP that is being filled or begins another. -/
def addPpdu (s : State) (b : Nat) (x : Ppdu) (p : Plan) : Plan :=
  let last := p.ppdus.getLast?
  let spacing := match last with
    | some l => x.p - (l.p + l.a)
    | none => 1000000
  if p.kind = 1 then { p with ppdus := p.ppdus ++ [{ x with spacing := if p.ppdus.isEmpty then 1000000 else spacing }], cursor := x.p + x.a + sifs }
  else
    let n := (last.map (·.txop)).getD 0
    let cls := max x.cls ((last.map (·.cls)).getD 0)
    let joins := last.isSome && x.kind != 4 && (last.map (·.kind)) != some 4 && x.p + x.a - p.txBase ≤ txopNs s b cls
    let base := if joins then p.txBase else x.p
    { p with ppdus := p.ppdus ++ [{ x with p := x.p - base, txop := if joins || last.isNone then n else n + 1, spacing := if joins then sifs else 1000000 }],
             cursor := x.p + x.a + sifs, txBase := base }

/-- Frames that a user takes from a station's queues: VO first, one TID unless MULTI_TID, at most so many, within so many
bytes; and the queues that remain. -/
def takeFrames (b n limit : Nat) (x : Sta) : List Frame × List (List Frame) :=
  let multi := x.p.flags.getLsbD 5
  let go := [3, 2, 1, 0].foldl (fun (acc : List Frame × Nat × Bool × List (List Frame)) a =>
    let (got, bytes, full, qs) := acc
    let r := (x.q.getD a []).foldl (fun (c : List Frame × Nat × Bool × List Frame) f =>
      let (g, by_, stop, rest) := c
      let tidOk := multi || ((g.head?.map (·.tid)).getD f.tid) = f.tid
      if f.band != some b || !tidOk || stop then (g, by_, stop, rest ++ [f])
      else if n ≤ g.length || limit < 16 + 8 * (by_ + mpduLen f) then (g, by_, true, rest ++ [f])
      else (g ++ [f], by_ + mpduLen f, false, rest)) (got, bytes, full, [])
    (r.1, r.2.1, r.2.2.1, r.2.2.2 :: qs)) ([], 0, false, [])
  (go.1, go.2.2.2)

/-- A user asked for in a precoded or broad-beam PPDU, with its planned MCS. -/
structure Want where
  sta : Nat
  size : Nat := 11
  pos : Nat := 0
  ss : Nat
  mcs : Nat
deriving DecidableEq, Repr

/-- MPDUs that a user may take. -/
def mpduMax (b : Nat) (x : Sta) : Nat := if (x.link b).dozing && (x.link b).psPoll then 1 else x.p.maxAmpdu

/-- Frames whose lifetime ends before an instant are discarded (R356). -/
def dropExpired (b n fin : Nat) (s : State) : State :=
  match getSta s n with
  | none => s
  | some x =>
    let old := (x.held b).filter fun f => lifeEnd s b f < fin
    if old.isEmpty then s
    else
      let s := onSta n (fun x => { x with q := x.q.map fun q => q.filter fun f => !(f.band = some b && lifeEnd s b f < fin) }) s
      old.foldl (fun s f => discarded n f.tid 2 s) s

/-- A user of a PPDU with the frames that its bits carry; they leave their queues (R334, R346). -/
def takeUser (b : Nat) (w : Want) (t : List (Nat × Nat × Nat)) (bits : Nat) (acc : List PUser × State) : List PUser × State :=
  match getSta acc.2 w.sta with
  | none => acc
  | some x =>
    let r := takeFrames b (mpduMax b x) bits x
    if r.1.isEmpty && t.isEmpty then acc
    else
      let link (l : LinkSt) : LinkSt := { l with mcs := w.mcs, ss := w.ss, psPoll := false, sp := false }
      (acc.1 ++ [{ sta := w.sta, size := w.size, pos := w.pos, ss := w.ss, mcs := w.mcs, frames := r.1, bf := t }],
       onSta w.sta (fun x => Sta.onLink b link { x with q := r.2, bar := x.bar.filter fun i => !(r.1.map (·.tid)).contains i }) acc.2)

/-- A data PPDU is placed for some users, if one can be (R344): kind 0 precoded, 1 broad beam. -/
def placeData (b beat kind : Nat) (mf : Bool) (wants : List Want) (s : State) : Option State :=
  match getPlan s b beat with
  | none => none
  | some plan =>
    let ph := getPhy s b
    let bits (w : Want) : Nat := nDbps (userTones s b w.size) w.mcs w.ss
    let s1 := wants.foldl (fun s w => dropExpired b w.sta (beatNs s beat + plan.cursor) s) s
    let bfs (w : Want) : List (Nat × Nat × Nat) := if plan.kind = 2 then degradedOf s1 w.sta b else []
    let bfBytes (t : List (Nat × Nat × Nat)) : Nat := sumOf (t.map fun x => ((getBf s1 x.1).map fun f => (f.parmAt x.2.1).maxFrame + 58).getD 0)
    let dry := wants.filterMap fun w => (getSta s1 w.sta).bind fun x =>
      let fs := (takeFrames b (mpduMax b x) (10 ^ 9) x).1
      if fs.isEmpty && (bfs w).isEmpty then none else some (w, fs)
    let classes := (dry.flatMap fun d => (if (bfs d.1).isEmpty then [] else [3]) ++ d.2.map fun f => acOf f.tid).eraseDups
    let rus := (dry.map fun d => (d.1.size, d.1.pos)).eraseDups
    let streams := rus.foldl (fun m r => max m (sumOf ((dry.filter fun d => (d.1.size, d.1.pos) = r).map fun d => d.1.ss))) 0
    let head := muHead dry.length streams ph.gi
    let tail := sifs + ackTb ph.tbGi
    let top := classes.foldl (fun m c => min m (1000 * (getAB s b).maxAir.getD c 5484)) 5484000
    let need := dry.foldl (fun n d => max n (symsFor (sumOf (d.2.map mpduLen) + bfBytes (bfs d.1)) (bits d.1))) 0
    let least := (getAB s b).minSym
    if dry.isEmpty || top < head + least * tSym ph.gi then none
    else match place s1 b beat plan classes (head + least * tSym ph.gi + tail) with
      | none => none
      | some (p, w) =>
        let nsym := min need ((min (w - p - tail) top - head) / tSym ph.gi)
        let done := dry.foldl (fun acc d => takeUser b d.1 (bfs d.1) (nsym * bits d.1 - 8 * bfBytes (bfs d.1)) acc) ([], s1)
        if done.1.isEmpty then none
        else
          let dur := head + nsym * tSym ph.gi
          let x : Ppdu := { kind, p, dur, a := dur + tail, w, users := done.1, cls := classes.foldl max 0, mf, nsym }
          some (onPlan b beat (addPpdu s b x) done.2)

/-! Weight sets (R301, R302, R313 to R316). -/

/-- Weight sets of a beat (R301, R326). -/
def maxSets (s : State) (b : Nat) : Nat := min (getPhy s b).maxSets (bpNs s / 250000)

/-- A weight-set slot is taken, if one is left. -/
def takeSet (b beat : Nat) (s : State) : State := onPlan b beat (fun p => { p with sets := p.sets + 1 }) s

/-- The RUs that a width has (R297). -/
def ruInWidth (w size : Nat) : Bool := if size ≤ 5 then true else if size = 6 then 1 ≤ w else if size = 7 || size = 8 then 2 ≤ w else size ≤ 11 && w = 3

/-- The code of the full-width RU of a width. -/
def fullRu (w : Nat) : Nat := [5, 6, 8, 11].getD w 11

/-- A grouping keeps the limits of R301 and R302. -/
def groupOk (s : State) (b beat : Nat) (us : List GUser) : Bool :=
  let w := (getBand s b).ch.width
  let eht (u : GUser) : Bool := ((getSta s u.sta).map fun x => x.p.flags.getLsbD 1).getD false
  let rxSs (u : GUser) : Nat := ((getSta s u.sta).map fun x => x.p.rxSs).getD 0
  let rus := (us.map fun u => (u.size, u.pos)).eraseDups
  let inRu (r : Nat × Nat) : List GUser := us.filter fun u => (u.size, u.pos) = r
  let ruOk (r : Nat × Nat) : Bool :=
    let l := inRu r
    let t := sumOf (l.map (·.ss))
    l.length ≤ 8 && t ≤ (if l.all eht then 16 else 8) && (l.length = 1 || (5 ≤ r.1 && l.all fun u => u.ss ≤ 4)) && ruInWidth w r.1
  let size (r : Nat) : Nat := if r = fullRu w then 11 else r
  !us.isEmpty && us.length ≤ 64 && rus.length ≤ 64 && (us.map (·.sta)).eraseDups.length = us.length &&
    rus.all ruOk && rus.all (fun r => rus.all fun q => r = q || !Config.ruOverlap w r q) &&
    us.all fun u => (getSta s u.sta).isSome && 1 ≤ u.ss && u.ss ≤ rxSs u && (u.mcs ≤ 13 || u.mcs = 0xFF) &&
      u.ss ≤ 4 && (List.range u.ss).all fun i => streamOk s b (beat - 2) u.sta (size u.size) u.pos i

/-- The users of a grouping as they are placed. -/
def groupWants (s : State) (b beat : Nat) (us : List GUser) : List Want :=
  let k := sumOf (us.map (·.ss))
  us.map fun u =>
    let pred := Config.predSnr (blockSnrs s b (beat - 2) u.sta) k
    { sta := u.sta, size := if u.size = fullRu (getBand s b).ch.width then 11 else u.size, pos := u.pos, ss := u.ss,
      mcs := if u.mcs = 0xFF then plannedMcs s b u.sta pred
             else min u.mcs (((getSta s u.sta).map fun x => if b = 0 then x.p.mcsM else x.p.mcsH).getD 0) }

/-- A completed set's PPDU is placed; without air it is counted (R343). -/
def placeGroup (b beat : Nat) (us : List GUser) (s : State) : State :=
  match placeData b beat 0 false (groupWants s b beat us) s with
  | some s => s
  | none => countAir b 3 s

/-- A policy kernel delivers a grouping, or a complete weight set (R302, R343, R602). -/
def deliver (b beat : Nat) (us : List GUser) (complete : Bool) (s : State) : State :=
  match getPlan s b beat with
  | some p =>
    if p.st != 0 || p.completed || maxSets s b ≤ p.sets || !groupOk s b beat us then countPhy b 2 s
    else
      let s := takeSet b beat s
      if complete then placeGroup b beat us s else onPlan b beat (fun p => { p with groupings := p.groupings ++ [{ users := us }] }) s
  | none => countPhy b 2 s

/-- WEIGHT_SET_COMPLETE (R315): the first grouping that waits is computed. -/
def execWeightSetComplete (band : BandId) (beat : Nat) (s : State) : Out :=
  let b := band.num
  .next (match getPlan s b beat with
    | none => s
    | some p => match p.groupings with
      | [] => s
      | g :: rest =>
        if p.st != 0 || p.completed then s else
        let s := countPhy b 0 (onPlan b beat (fun p => { p with groupings := rest }) s)
        match g.ppdu with
        | some i => onPlan b beat (fun p => { p with ppdus := updAt p.ppdus i fun x => { x with mf := false } }) s
        | none => placeGroup b beat g.users s)

/-- The fallback's precoded PPDUs (R347): so many tries at most. -/
def fallbackMu (b beat : Nat) : Nat → State → State × Bool
  | 0, s => (s, false)
  | n + 1, s => match getPlan s b beat with
    | none => (s, false)
    | some p =>
      let used := p.ppdus.flatMap fun x => x.users.map (·.sta)
      let left := p.cand.filter fun c => !used.contains c
      let g := (left.filter fun c => muOk s b (beat - 2) c 11 0 1).take 8
      let ws := (g.foldl (fun (acc : List Want × Nat) c =>
        let ss := min 2 (okStreams s b (beat - 2) c 11 0)
        if acc.2 + ss ≤ 16 then (acc.1 ++ [({ sta := c, ss, mcs := 0 } : Want)], acc.2 + ss) else acc) ([], 0)).1
      let k := sumOf (ws.map (·.ss))
      let ws := ws.map fun w => { w with mcs := plannedMcs s b w.sta (Config.predSnr (blockSnrs s b (beat - 2) w.sta) k) }
      if ws.isEmpty || maxSets s b ≤ p.sets then (s, false)
      else match placeData b beat 0 true ws s with
        | some t => ((fallbackMu b beat n (countPhy b 3 (takeSet b beat t))).1, true)
        | none => (s, false)

/-- The fallback grouping (R347). -/
def fallback (b beat : Nat) (s : State) : State :=
  let (s, a) := fallbackMu b beat 8 s
  match getPlan s b beat with
  | none => s
  | some p =>
    let used := p.ppdus.flatMap fun x => x.users.map (·.sta)
    let w := (getBand s b).ch.width
    let free := (List.range (2 ^ w)).filter fun i => !(getPhy s b).punct.getLsbD i
    let left := (p.cand.filter fun c => !used.contains c && !hasBlock s b (beat - 2) c).take (min (2 ^ w) free.length)
    let ws := (left.zip free).map fun c =>
      ({ sta := c.1, size := 5, pos := c.2, ss := 1, mcs := plannedMcs s b c.1 (Config.predSnr [] 1) } : Want)
    let r := if ws.isEmpty then none else placeData b beat 1 false ws s
    let s := r.getD s
    if a || r.isSome then countAir b 0 s else s

/-! Beacons, group and management frames (R360, R362, R365). -/

/-- The time of day of a TBTT, ns (R361, R362). -/
def tbttNs (s : State) (x : Bss) (k : Nat) : Nat := s.cad.epoch + k * x.interval * 1024000

/-- A management frame is unicast and has its Protected Frame bit set (R364). -/
def mgmtProtected (body : List Byte) : Bool := !(byteAt body 4).getLsbD 0 && (byteAt body 1).getLsbD 6

/-- The station that a management frame is addressed to. -/
def mgmtPeer (s : State) (b : Nat) (body : List Byte) : Option Sta :=
  (s.air.stas.find? fun e => (if b = 0 then e.2.p.addrM else e.2.p.addrH) = fld body 4 6 && e.2.p.links.getLsbD b).map (·.2)

/-- Bytes that protection adds to a management frame: the cipher's header and MIC (R573). -/
def mgmtGrowth (s : State) (b : Nat) (body : List Byte) : Nat :=
  if mgmtProtected body then 8 + (if ((mgmtPeer s b body).map (·.p.cipher)).getD 0 = 1 then 8 else 16) else 0

/-- A non-HT PPDU of the broad beam, with or without an Ack, is placed. -/
def placePlain (b beat kind bss : Nat) (body : List Byte) (rate : Nat) (ack : Bool) (tbtt : Nat) (s : State) : Option State :=
  match getPlan s b beat with
  | none => none
  | some plan =>
    let dur := nonHtNs (body.length + 4 + if kind = 5 then mgmtGrowth s b body else 0) rate
    let a := if ack then dur + sifs + nonHtNs 14 24 else dur
    (place s b beat plan [] a).map fun pw =>
      onPlan b beat (addPpdu s b { kind, p := pw.1, dur, a, w := pw.2, bss, body, tbtt }) s

/-- A BSS's beacon already stands in a plan that has not ended. -/
def beaconPlaced (s : State) (b i k : Nat) : Bool :=
  (getAB s b).plans.any fun e => e.2.st < 4 && e.2.ppdus.any fun p => p.kind = 4 && p.bss = i && p.tbtt = k && p.outcome.isNone

/-- The beacons due in a beat are placed. -/
def placeBeacons (b beat : Nat) (s : State) : State :=
  (getAB s b).bss.foldl (fun s e =>
    let x := e.2
    if x.enable && tbttNs s x x.nextTbtt ≤ beatNs s beat + (getAB s b).head && !beaconPlaced s b e.1 x.nextTbtt then
      (placePlain b beat 4 e.1 x.template x.rate false x.nextTbtt s).getD s
    else s) s

/-- Some station of a BSS has a dozing link on the band. -/
def bssDozes (s : State) (b bss : Nat) : Bool := s.air.stas.any fun e => e.2.p.bss = bss && e.2.p.links.getLsbD b && (e.2.link b).dozing

/-- Up to 8 management frames, then the group frames that may go (R360, R365). -/
def placePlainFrames (b beat : Nat) (s : State) : State :=
  let x := getAB s b
  let s := (x.mgmt.take 8).foldl (fun s m =>
    let bss := Tab.getD x.bss m.1 {}
    match placePlain b beat 5 m.1 m.2 bss.rate (!(byteAt m.2 4).getLsbD 0) 0 s with
    | some t => onAB b (fun y => { y with mgmt := y.mgmt.erase m }) t
    | none => s) s
  (getAB s b).group.foldl (fun s g =>
    let bss := Tab.getD (getAB s b).bss g.1 {}
    if bssDozes s b g.1 && !bss.dtimOpen then s
    else match placePlain b beat 1 g.1 g.2.bytes bss.rate false 0 s with
      | some t => onAB b (fun y => { y with group := y.group.erase g }) t
      | none => s) s

/-- The DTIM opening of each BSS whose group frames have found air ends with the beat (R360). -/
def closeDtim (b beat : Nat) (s : State) : State :=
  let had (i : Nat) : Bool := ((getPlan s b beat).map fun p => p.ppdus.any fun x => x.kind = 1 && !x.body.isEmpty && x.bss = i).getD false
  onAB b (fun y => { y with bss := y.bss.map fun e => if had e.1 then (e.1, { e.2 with dtimOpen := false }) else e }) s

/-! Sounding and triggered uplink (R305, R307, R349, R350). -/

/-- A trigger with its response is placed; classes gate it. -/
def placeTrigger (b beat : Nat) (x : Ppdu) (streams nsym : Nat) (classes : List Nat) (msba : Bool) (budget : Nat) (s : State) : Option (State × Nat) :=
  match getPlan s b beat with
  | none => none
  | some plan =>
    let ph := getPhy s b
    let u := x.users.length
    let tr := trigNs u
    let more := if msba then sifs + msbaNs u else 0
    let base := tr + sifs + tbHead streams ph.tbGi
    let least := (getAB s b).minSym
    let sym := tSym (tbGiCode ph.tbGi)
    let top := classes.foldl (fun m c => min m (1000 * (getAB s b).maxAir.getD c 5484)) 5484000
    if budget < base + least * sym + more then none
    else match place s b beat plan classes (base + least * sym + more) with
      | none => none
      | some (p, w) =>
        let n := max least (min nsym ((min (min (w - p) budget - more) (top + tr + sifs) - base) / sym))
        let a := base + n * sym
        let t := onPlan b beat (addPpdu s b { x with p, dur := tr, a, w, nsym := n }) s
        let t := if msba then
            onPlan b beat (fun q => addPpdu t b { kind := 3, p := q.cursor, dur := msbaNs u, a := msbaNs u, w, users := x.users, cls := x.cls } q) t
          else t
        some (t, a + more)

/-- An explicit sounding is due for a station (R307). -/
def explicitDue (s : State) (b beat : Nat) (x : Sta) : Bool :=
  (getPhy s b).sndFlags.getLsbD 2 && x.p.links.getLsbD b && (((x.link b).explicitAt.map fun e => decide (e + (getPhy s b).explicit ≤ beat)).getD true)

/-- The air of soundings over the last 100 turn beats (R305). -/
def soundedNs (s : State) (b : Nat) : Nat := sumOf ((getPhy s b).sounded.map (·.2))

/-- The air that a turn beat gave to soundings is noted (R305). -/
def noteSounding (b beat n : Nat) (s : State) : State := onPhy b (fun p => { p with sounded := ((beat, n) :: p.sounded).take 100 }) s

/-- The sounding slot of a turn beat (R350). -/
def placeSounding (b beat : Nat) (s : State) : State :=
  let ph := getPhy s b
  let room := 100 * usableAir s b * ph.frac / 100 - soundedNs s b
  match s.air.stas.find? fun e => explicitDue s b beat e.2 with
  | some e =>
    let n := Config.explicitNs e.1
    match (getPlan s b beat).bind fun plan => if room < n then none else (place s b beat plan [1] n).map fun pw => (plan, pw) with
    | some (_, p, w) =>
      let x : Ppdu := { kind := 2, p, dur := n, a := n, w, users := [{ sta := e.1 }], cls := 1, sounding := true, explicit := true }
      noteSounding b beat n (countPhy b 7 (onSta e.1 (Sta.onLink b fun l => { l with explicitAt := some beat }) (onPlan b beat (addPpdu s b x) s)))
    | none => noteSounding b beat 0 s
  | none =>
    let age (n : Nat) : Bool := !((List.range 4).any fun i => (ruGroups s b 11 0).any fun g =>
      ((validBlock s b (beat - 2) n i g).map fun k => decide (beat - 2 < k.beat + ph.resound)).getD false)
    let want := (sortDesc (fun e => e.2.deficit) (s.air.stas.filter fun e => e.2.p.links.getLsbD b && withheld s e.1 b = 0 &&
      (!(e.2.held b).isEmpty || s.air.bfs.any fun f => f.2.p.sta = e.1 && f.2.p.link = b && f.2.p.dir = 0) && age e.1))
    let bf (n : Nat) : Bool := s.air.bfs.any (fun f => f.2.p.sta = n && f.2.p.link = b && f.2.p.dir = 0) && !hasBlock s b (beat - 2) n
    let want := (want.filter fun e => bf e.1) ++ want.filter fun e => !bf e.1
    let us := (want.foldl (fun (acc : List PUser × Nat) e =>
      let ss := min ph.maxTx e.2.p.txSs
      if acc.1.length < 8 && acc.2 + ss ≤ 16 then (acc.1 ++ [({ sta := e.1, ss } : PUser)], acc.2 + ss) else acc) ([], 0)).1
    if us.isEmpty || !ph.sndFlags.getLsbD 0 then noteSounding b beat 0 s
    else
      let k := sumOf (us.map (·.ss))
      let x : Ppdu := { kind := 2, p := 0, dur := 0, a := 0, w := 0, users := us, cls := 1, sounding := true }
      match placeTrigger b beat x k (getAB s b).minSym [1] false room s with
      | some (t, n) => noteSounding b beat n (countPhy b 5 t)
      | none => noteSounding b beat 0 s

/-- One triggered uplink exchange after another within a budget (R349): so many at most. -/
def placeUplink (b beat : Nat) : Nat → Nat → State → State
  | 0, _, s => s
  | n + 1, budget, s =>
    let used := ((getPlan s b beat).map fun p => (p.ppdus.filter fun x => x.kind = 2 && !x.sounding && !x.bf).flatMap fun x => x.users.map (·.sta)).getD []
    let l := sortDesc (fun e => e.2.deficit) (s.air.stas.filter fun e =>
      e.2.p.links.getLsbD b && withheld s e.1 b = 0 && 0 < e.2.uplink && !used.contains e.1)
    let us := (l.foldl (fun (acc : List PUser × Nat) e =>
      let ss := min e.2.p.txSs 2
      let mcs := plannedMcs s b e.1 (Config.predSnr (blockSnrs s b (beat - 2) e.1) ss)
      if acc.1.length < 8 && acc.2 + ss ≤ 16 then (acc.1 ++ [({ sta := e.1, ss, mcs } : PUser)], acc.2 + ss) else acc) ([], 0)).1
    if us.isEmpty then s
    else
      let need := us.foldl (fun m u => max m (symsFor (((getSta s u.sta).map Sta.uplink).getD 0) (nDbps (bandTones s b) u.mcs u.ss))) 0
      let cls := (us.flatMap fun u => ((getSta s u.sta).map fun x => (x.bsr.filter fun r => 0 < r.2).map fun r => acOf r.1).getD []).eraseDups
      let x : Ppdu := { kind := 2, p := 0, dur := 0, a := 0, w := 0, users := us, cls := cls.foldl max 0 }
      match placeTrigger b beat x (sumOf (us.map (·.ss))) need cls true budget s with
      | some (t, k) => placeUplink b beat n (budget - k) t
      | none => s

/-- The BSRP Trigger of every so many turn beats, to every associated station (R349). -/
def placeBsrp (b beat : Nat) (s : State) : State :=
  if (getAB s b).sinceBsrp + 1 < (getAB s b).bsrp then onAB b (fun x => { x with sinceBsrp := x.sinceBsrp + 1 }) s
  else
    let s := onAB b (fun x => { x with sinceBsrp := 0 }) s
    let all := (s.air.stas.filter fun e => e.2.p.links.getLsbD b && withheld s e.1 b = 0).map (·.1)
    (List.range (ceilDiv all.length 8)).foldl (fun s i =>
      let us := ((all.drop (8 * i)).take 8).map fun n => ({ sta := n } : PUser)
      let x : Ppdu := { kind := 2, p := 0, dur := 0, a := 0, w := 0, users := us, cls := 0, bsrp := true }
      ((placeTrigger b beat x us.length (getAB s b).minSym [] false (10 ^ 9) s).map (·.1)).getD s) s

/-! The life of a plan (R17, R339, R343). -/

/-- The beat from which the prices of some flows repeat: every flow is served, and its first windows have passed. -/
def steadyFrom (beat : Nat) (fs : List (Nat × Bf)) : Nat :=
  fs.foldl (fun e f => max e (max f.2.p.first f.2.from_ + f.2.p.deadline)) beat

/-- TURN_PLAN_APPLIED at the first plan under a turn plan; the flows of the band are tested against it (R339, R400). -/
def turnApplied (b beat : Nat) (s : State) : State :=
  match turnAt (getAB s b) beat with
  | none => s
  | some t =>
    if t.applied then s
    else
      let s := onAB b (fun x => { x with turns := x.turns.map fun u => if u = t then { u with applied := true } else u }) s
      let s := raise 0x0680 none ([BitVec.ofNat 8 b, 0] ++ le 2 t.cycle ++ le 6 t.start) s
      let x := getAB s b
      let fs := bandBfs s b
      let h := min 4096 (hyper x beat fs)
      let dear := [beat, steadyFrom beat fs].any fun e => (airTest s b fs (turnBy x beat) e h x.cap).fail != 0
      let bad (f : Nat × Bf) : Bool := dear || noTurn x beat h f.2
      let ok := bandPasses s b beat x.frac
      fs.foldl (fun s f => if bad f then enterReview f.1 4 s else if ok then clearCause f.1 4 s else s) s

/-- The array reciprocity slot is due in a turn beat (R278, R279). -/
def recipDue (s : State) (b beat : Nat) : Bool :=
  s.cal.bgTypes.getLsbD 6 && ((getAB s b).recipDue || ((s.cal.lastRecip.getD b none).map fun l => decide (l + s.cal.recip ≤ beat)).getD true)

/-- The reciprocity slot is reserved directly after the bounded-flow interval. -/
def reserveRecip (b beat : Nat) (s : State) : State :=
  if !recipDue s b beat then s
  else match (getPlan s b beat).bind fun p => (place s b beat p [] 48000).map (·.1) with
    | none => s
    | some p =>
      let s := onPlan b beat (fun x => { x with reserved := (p, p + 48000) :: x.reserved, cursor := p + 48000 }) s
      let s := onAB b (fun x => { x with recipDue := false }) s
      s.onCal fun c => { c with lastRecip := setAt c.lastRecip b (some beat) }

/-- The retry slot is reserved at the end of a turn beat's air (R357). -/
def reserveRetry (b beat : Nat) (s : State) : State :=
  let n := (getAB s b).retrySym
  if n = 0 then s
  else
    let ph := getPhy s b
    let len := muHead 64 16 ph.gi + n * tSym ph.gi + sifs + ackTb ph.tbGi
    match getPlan s b beat with
    | none => s
    | some p =>
      let fin := windowEnd (usableEnd s b) p.reserved p.cursor
      if fin < p.cursor + len then s
      else onPlan b beat (fun x => { x with retry := some (fin - len, len), reserved := (fin - len, fin) :: x.reserved }) s

/-- A plan enters the table of the band. -/
def setPlan (b beat : Nat) (p : Plan) (s : State) : State := onAB b (fun x => { x with plans := Tab.set x.plans beat p }) s

/-- The reserved part of a turn beat opens: bounded-flow exchanges, their groupings and the reciprocity slot (R337, R17). -/
def openReserved (b beat head : Nat) (s : State) : State :=
  let r := bfInterval b beat s
  let gs := r.1.zipIdx.filterMap fun x => if x.1.kind = 0 then
    some ({ users := x.1.users.map fun u => { sta := u.sta, ss := u.ss, mcs := u.mcs }, ppdu := some x.2 } : Grouping) else none
  reserveRecip b beat (onPlan b beat (fun p => { p with
    ppdus := r.1, bfLen := r.2.1, groupings := gs, sets := min gs.length (maxSets r.2.2 b)
    cursor := if r.2.1 = 0 then p.cursor else max p.cursor (head + r.2.1) }) r.2.2)

/-- The air that a plan has left. -/
def planLeft (b beat : Nat) (s : State) : Nat := ((getPlan s b beat).map fun p => usableEnd s b - p.cursor).getD 0

/-- The soundings and the BSRP Trigger of a turn beat (R305, R349). -/
def openProbes (b beat : Nat) (s : State) : State := placeBsrp b beat (placeSounding b beat s)

/-- The candidates of the plan, and the air left for them (R341). -/
def closeOpen (b beat : Nat) (s : State) : State :=
  let cand := candidates s b
  onPlan b beat (fun p => { p with cand, airLeft := planLeft b beat s }) s

/-- A plan opens (R17, R339): group and management frames, soundings, triggers, the uplink, in the order of the rules. -/
def openPlan (b beat : Nat) (s : State) : State :=
  let s := turnApplied b beat s
  let kind := beatKind s b beat
  if kind = 0 then setPlan b beat { kind, st := 1 } s
  else
    let gap := if gapBeat s b beat then [(bpNs s - 16000, bpNs s)] else []
    let head := max (getAB s b).head (if (getBand s b).guardBeat = some beat then 12000 else 0)
    let s := riseDeficits b (setPlan b beat { kind, cursor := head, reserved := gap } s)
    let s := onlyIf (kind = 1) (openReserved b beat head) s
    let s := closeDtim b beat (placePlainFrames b beat (placeBeacons b beat s))
    let s := onlyIf (kind = 1) (openProbes b beat) s
    let s := placeUplink b beat 64 (planLeft b beat s * (getAB s b).ulPct / 100) s
    closeOpen b beat (onlyIf (kind = 1) (reserveRetry b beat) s)

/-- A plan is completed at n:(BP/2): unfinished sets are abandoned, the fallback runs and deficits fall (R316, R343). -/
def completePlan (b beat : Nat) (s : State) : State :=
  match getPlan s b beat with
  | none => s
  | some p =>
    if p.st != 0 || p.completed then s
    else
      let s := countPhy b 1 s p.groupings.length
      let s := countPhy b 3 s (p.groupings.filter fun g => g.ppdu.isSome).length
      let s := onPlan b beat (fun p => { p with groupings := [], completed := true }) s
      let s := fallback b beat s
      ((getPlan s b beat).map fun p => p.ppdus.foldl (fun s x => payDeficits b x s) s).getD s

end Sys2Proof.Machine
end

