-- ==== Sys2Proof/Machine/CipherEng.lean ====
section
/-!
DEFINITION. The cipher engine and its key slots (chapter 17), but for the frames of the air.
-/
namespace Sys2Proof.Machine

/-- Count in the counters of the cipher engine (R590). -/
def countCipher (i : Nat) (s : State) : State := s.onCipher fun c => { c with ctr := bump c.ctr i }

/-- Replace a loaded slot by its image. -/
def onSlot (k : Nat) (f : Slot → Slot) (s : State) : State :=
  match Tab.get? s.cipher.slots k with
  | some x => s.onCipher fun c => { c with slots := Tab.set c.slots k (f x) }
  | none => s

/-- The key of a loaded slot: the unwrap of its blob. -/
def slotKey (x : Slot) : List Byte := (keyUnwrap x.kekVal (x.blob.take 8) (x.blob.drop 16)).getD []

/-- An address as it stands in additional data and nonces (R566): of a multi-link station and of the device towards it, the MLD
address. The BSSID is that of the frame. -/
def mldAddr (x : Sta) (bssid a : List Byte) : List Byte :=
  if !x.p.flags.getLsbD 2 then a
  else if a == bssid then le 6 Config.apMld.toNat
  else if a == le 6 x.p.addrM || a == le 6 x.p.addrH then le 6 x.p.mld
  else a

/-- KEK0 is usable: its lock is blown and both copies reproduce the KCV (R583). -/
def kek0Ok (s : State) : Bool :=
  s.cipher.locked && match s.cipher.kek0 with
    | some (a, b) => kcvOf a == s.cipher.kcv && kcvOf b == s.cipher.kcv
    | none => false

/-- The bit of USAGE that the present mode needs (R574). -/
def modeBit (s : State) : Option Nat := match s.modes.mode with
  | 3 => some 4
  | 4 => some 5
  | 5 => some 6
  | _ => none

/-- Whether a use of a slot succeeds; where it does not, what is counted (R570, R574): 0 KEY_EMPTY, 1 KEY_MISMATCH, 2 USAGE_DENIED. -/
def slotUse (s : State) (k : Nat) (types : List Nat) (encrypt : Bool) : Slot ⊕ Nat :=
  if s.cipher.failed then .inr 0
  else match Tab.get? s.cipher.slots k with
    | none => .inr 0
    | some x =>
      if !types.contains x.type then .inr 1
      else if !x.usage.getLsbD (if encrypt then 0 else 1) || !((modeBit s).map fun b => x.usage.getLsbD b).getD false then .inr 2
      else .inl x

/-- The next transmit PN of a slot (R577). -/
def takePn (k : Nat) (s : State) : Option Nat × State :=
  match Tab.get? s.cipher.slots k with
  | none => (none, s)
  | some x =>
    if 2 ^ 48 ≤ x.pn + 1 then
      let s := countCipher 5 s
      (none, if x.exhausted then s else raise 0x0C80 none (le 2 k) (onSlot k (fun x => { x with exhausted := true }) s))
    else (some (x.pn + 1), onSlot k (fun x => { x with pn := x.pn + 1 }) s)

/-- A frame is to be protected under a slot: its PN, or nothing where it is discarded (R574, R577). -/
def protect (k : Nat) (types : List Nat) (s : State) : Option Nat × State :=
  match slotUse s k types true with
  | .inr i => (none, countCipher i s)
  | .inl _ => takePn k s

/-- RNG_HEALTH_FAIL (R569). -/
def execRngHealthFail (test : Nat) (s : State) : Out :=
  .next (onlyIf (domOn s 3) (fun s => raise 0x0C81 none (le 1 test) (s.onCipher fun c => { c with rngFail := true })) s)

/-- Each slot is unwrapped again when D3 powers up: transmit PNs restart as at their loading (R572). -/
def reloadSlots (s : State) : State :=
  s.onCipher fun c => { c with slots := c.slots.map fun e => (e.1, { e.2 with pn := e.2.initPn, exhausted := false, replay := List.replicate 9 0 }) }

/-- The known-answer tests at a power-up of D3 find a failing mode and key size, if any (R570). -/
def cipherSelfTest (bad : Option (Nat × Nat)) (s : State) : State :=
  match bad with
  | some (mode, bits) => raise 0x0C82 none (le 1 mode ++ le 1 bits) (s.onCipher fun c => { c with failed := true })
  | none => s

/-! Blobs (R581, R582). -/

/-- WRAP_LEN of a key type. -/
def wrapLen (t : Nat) : Option Nat := if [1, 3, 5, 7, 9].contains t then some 24 else if [2, 4, 6, 8, 10, 15].contains t then some 40 else none

/-- The blob offset of the first field that fails the check of form (R582). -/
def blobBad (b : List Byte) : Option Nat :=
  let t := fld b 2 1
  let slot := fld b 4 2
  let id := fld b 8 1
  let bind := fld b 9 1
  let grp := 5 ≤ t && t ≤ 8
  if fld b 0 2 != 0x4B57 then some 0
  else if wrapLen t = none then some 2
  else if some (fld b 7 1) != wrapLen t || b.length != 16 + fld b 7 1 then some 7
  else if (if t = 15 then slot < 1 || 3 < slot else 8191 < slot) then some 4
  else if 3 < fld b 3 1 || (t = 15 && fld b 3 1 != 0) then some 3
  else if (if t = 15 then id != 0 else if grp then id < 4 || 7 < id else 3 < id) then some 8
  else if !grp && bind != 0 then some 9
  else if (9 ≤ t) && fld b 10 6 != 0 then some 10
  else if (fld b 6 1 &&& 0x8C) != 0 || (t = 15 && fld b 6 1 != 0) then some 6
  else if bind &&& 0x70 != 0 then some 9
  else none

/-- The KEK that a blob names, if it is loaded or usable. -/
def kekOf (s : State) (n : Nat) : Option (List Byte) :=
  if n = 0 then (if kek0Ok s then s.cipher.kek0.map (·.1) else none) else Tab.get? s.cipher.keks n

/-- A blob's key is loaded (R572, R580, R582). -/
def loadBlob (b : List Byte) (kek key : List Byte) (s : State) : State :=
  let slot := fld b 4 2
  if fld b 2 1 = 15 then s.onCipher fun c => { c with keks := Tab.set c.keks slot key }
  else
    let x : Slot := { type := fld b 2 1, usage := byteAt b 6, keyId := fld b 8 1, kek := fld b 3 1, bind := byteAt b 9, kekVal := kek, blob := b,
                      pn := fld b 10 6, initPn := fld b 10 6, fingerprint := BitVec.ofNat 32 (crc32 b), order := s.cipher.order + 1 }
    s.onCipher fun c => { c with slots := Tab.set c.slots slot x, order := c.order + 1 }

/-- KEY_UNWRAP (R582, R586). -/
def specKeyUnwrap : OpSpec where
  op := 0x0C01
  modes := inModes [2, 3, 4, 5, 6]
  needs _ := [3]
  body c s :=
    let b := c.par
    if s.cipher.failed then (eHw, s)
    else match blobBad b with
      | some o => (.err 0x0C01 [BitVec.ofNat 8 o], s)
      | none =>
        let k := fld b 3 1
        if k = 0 && s.cipher.kek0Failed then (eHw, s)
        else match kekOf s k with
          | none => (.err 0x0C02, s)
          | some kek => match keyUnwrap kek (b.take 8) (b.drop 16) with
            | none => (eAuth, countCipher 7 s)
            | some key => (.ok (slice b 4 2 ++ slice b 2 1 ++ [0] ++ le 4 (crc32 b)), countCipher 6 (loadBlob b kek key s))

/-- KEY_UNWRAP. -/
def execKeyUnwrap (d : Doorbell) (p : List Byte) (s : State) : Out := command specKeyUnwrap d p s

/-- KEY_ERASE (R587). -/
def specKeyErase : OpSpec where
  op := 0x0C02
  modes := inModes [2, 3, 4, 5, 6]
  rsv c := c.zero [(17, 1), (22, 2)]
  needs _ := [3]
  body c s :=
    let i := c.u 18 2
    let n := c.u 20 2
    match c.u 16 1 with
    | 0 =>
      if 8191 < i || n < 1 || 8192 < i + n then (eArg, s)
      else (.ok, s.onCipher fun x => { x with slots := x.slots.filter fun e => e.1 < i || i + n ≤ e.1 })
    | 1 =>
      if i < 1 || 3 < i || n < 1 || 4 < i + n then (eArg, s)
      else (.ok, s.onCipher fun x => { x with keks := x.keks.filter fun e => e.1 < i || i + n ≤ e.1 })
    | _ => (eArg, s)

/-- KEY_ERASE. -/
def execKeyErase (d : Doorbell) (p : List Byte) (s : State) : Out := command specKeyErase d p s

/-- KEK_PROVISION (R583, R588). -/
def specKekProvision : OpSpec where
  op := 0x0C03
  rsv c := c.zero [(56, 4)]
  objs _ := [.kek0]
  needs _ := [3]
  body c s :=
    if s.cipher.locked then (.err 0x0C03, s)
    else if c.mb != 2 || s.modes.mode != 2 || s.boot.phase != .ready || !s.pwr.bootHalt then (eState, s)
    else if c.u 52 4 != 0x30304B45 then (eArg, s)
    else if kcvOf (c.bytes 16 32) != c.bytes 48 4 then (eAuth, s)
    else (.pending, s)

/-- KEK_PROVISION. -/
def execKekProvision (d : Doorbell) (p : List Byte) (s : State) : Out := command specKekProvision d p s

/-- KEK_PROVISION_DONE (R583): both copies are programmed and verified, then the lock is blown. -/
def execKekProvisionDone (s : State) : Out :=
  .next (match findLong s 0x0C03 with
    | none => s
    | some l =>
      let k := l.cmd.bytes 16 32
      let kcv := l.cmd.bytes 48 4
      let s := s.onCipher fun c => { c with kek0 := some (k, k), kcv, locked := true, provBeat := curBeat s }
      endLong l (.ok kcv) s)

/-- CM_LEVEL_SET (R589). -/
def specCmLevelSet : OpSpec where
  op := 0x0C04
  modes := inModes [2, 3, 4, 5, 6]
  rsv c := c.zero [(17, 3)]
  needs _ := [3]
  body c s := if c.u 16 1 > 3 then (eArg, s) else (.ok, s.onCipher fun x => { x with level := c.u 16 1 })

/-- CM_LEVEL_SET. -/
def execCmLevelSet (d : Doorbell) (p : List Byte) (s : State) : Out := command specCmLevelSet d p s

/-- An entry of KEY_SLOT_INFO (R590). -/
def slotInfo (s : State) (k : Nat) : List Byte :=
  match Tab.get? s.cipher.slots k with
  | some x => [1] ++ le 1 x.type ++ [x.usage] ++ le 1 x.keyId ++ le 1 x.kek ++ [x.bind] ++ le 6 x.pn ++ le 4 x.fingerprint.toNat
  | none => List.replicate 16 0

/-- KEY_SLOT_INFO (R590). -/
def specKeySlotInfo : OpSpec where
  op := 0x0C05
  rsv c := if c.u 16 1 = 1 then c.flagsBelow 17 1 else c.u 17 1 = 0
  needs _ := [3]
  body c s :=
    match c.u 16 1 with
    | 0 =>
      let i := c.u 18 2
      let n := c.u 20 2
      if 8191 < i || n < 1 || 30 < n || 8192 < i + n then (eArg, s) else (.ok ((List.range n).flatMap fun k => slotInfo s (i + k)), s)
    | 1 =>
      let x := s.cipher
      let keks := b2n (kek0Ok s) + sumOf (x.keks.map fun e => 2 ^ e.1) + 16 * b2n x.kek0Failed + 32 * b2n x.failed
      (.ok (le 1 x.level ++ le 1 (if x.rngFail then 0 else x.level) ++ le 1 keks ++ [0] ++ le 4 x.slots.length ++ ctrBytes x.ctr),
        if bit (c.u 17 1) 0 then s.onCipher fun x => { x with ctr := zeroed x.ctr } else s)
    | _ => (eArg, s)

/-- KEY_SLOT_INFO. -/
def execKeySlotInfo (d : Doorbell) (p : List Byte) (s : State) : Out := command specKeySlotInfo d p s

/-- The IGTK or BIGTK in use of a BSS: the slot of type 5 to 8 loaded last for it and the role (R576). -/
def groupKey (s : State) (b bss : Nat) (beacon : Bool) : Option Nat :=
  let l := s.cipher.slots.filter fun e => 5 ≤ e.2.type && e.2.type ≤ 8 && e.2.bind.toNat = 128 + 8 * b + bss && (decide (6 ≤ e.2.keyId) == beacon)
  ((sortDesc (fun e => ((e.2.order : Nat) : Int)) l).head?).map (·.1)

end Sys2Proof.Machine
end

