-- ==== Sys2Proof/Machine/AirExec.lean ====
section
/-!
DEFINITION. What the MAC engine does with a plan: instants, outcomes, responses, retries, and the silences (R232, R246 to
R248, R342, R354 to R358, R369, R396).
-/
namespace Sys2Proof.Machine

/-- A PPDU of a plan. -/
def getPpdu (s : State) (b beat i : Nat) : Option Ppdu := (getPlan s b beat).bind fun p => p.ppdus[i]?

/-- Replace a PPDU of a plan by its image. -/
def onPpdu (b beat i : Nat) (f : Ppdu → Ppdu) (s : State) : State := onPlan b beat (fun p => { p with ppdus := updAt p.ppdus i f }) s

/-- The length of the FEM on sequence (R235). -/
def femLead (s : State) (b : Nat) : Nat :=
  let f := getBand s b
  f.tLnaOff + f.tTrsw + f.tPa

/-- The periods that the users of a PPDU carry. -/
def bfPairs (us : List PUser) : List (Nat × Nat) := ((us.flatMap (·.bf)).map fun t => (t.1, t.2.1)).eraseDups

/-- The miss reason of an outcome (R398). -/
def missReason (code : Nat) : Nat :=
  match code with
  | 0x0410 => 2
  | 0x0411 => 2
  | 0x0412 => 3
  | 0x0413 => 3
  | 0x0414 => 4
  | 0x0415 => 4
  | 0x0610 => 5
  | 0x0612 => 6
  | 0x0611 => 10
  | _ => 1

/-- The outcome record of a PPDU (R369). -/
def outcomeRec (b beat i code : Nat) (x : Ppdu) : List Byte :=
  le 6 beat ++ le 1 b ++ le 1 x.kind ++ le 1 i ++ le 1 x.users.length ++ le 2 code ++ le 4 x.p ++
    le 4 (x.start.getD 0xFFFFFFFF) ++ le 4 (if x.start.isSome then x.dur else 0) ++ le 2 x.sent ++ le 2 x.acked ++ [0, 0, 0, 0]

/-- Bytes written from an address on. -/
def putBytes : Tab Byte → Nat → List Byte → Tab Byte
  | m, _, [] => m
  | m, a, v :: t => putBytes (Tab.set m a v) (a + 1) t

/-- Where a band's outcome records lie in the views window. -/
def outcomesAt (b : Nat) : Nat := 16 * (Config.outcomesAt b % 65536)

/-- The outcome records of a beat are complete in the views window, and Col hears of it (R369, R592). -/
def outcomesDone (b beat : Nat) (s : State) : State :=
  let l := ((getPlan s b beat).map (·.ppdus)).getD []
  let bytes := l.zipIdx.flatMap fun x => outcomeRec b beat x.2 (x.1.outcome.getD 0) x.1
  colEvent 2 b (s.onCol fun c => { c with views := putBytes c.views (outcomesAt b) bytes, outs := setAt c.outs b l.length })

/-- The outcome of a PPDU is recorded, counted and delivered (R249, R369). -/
def record (b beat i code : Nat) (s : State) : State :=
  match getPpdu s b beat i with
  | none => s
  | some x =>
    if x.outcome.isSome then s
    else
      let s := onPpdu b beat i (fun x => { x with outcome := some code }) s
      let s := if 0x0410 ≤ code && code ≤ 0x0415 then countOut b (code - 0x0410) s
        else if 0x0610 ≤ code && code ≤ 0x0612 then countAir b (4 + (code - 0x0610)) s else s
      let a := getAB s b
      let s := if a.outRing != 0xFF && a.outMask.getLsbD (if code = 0 then 0 else 1) then
          hostQueue a.outRing { srcType := 2, reason := 1, srcId := 0, ts := nowNs s, bytes := outcomeRec b beat i code x } s
        else s
      if ((getPlan s b beat).map fun p => p.ppdus.all fun y => y.outcome.isSome).getD false then outcomesDone b beat s else s

/-- A PPDU's reserved attempts are consumed; flows served by contention have none (R396, R401). -/
def consumeUsers (us : List PUser) (reason : Nat) (s : State) : State :=
  (bfPairs us).foldl (fun s p => if ((getBf s p.1).map (·.st)).getD 3 = 3 then s else consume p.1 p.2 reason s) s

/-- A PPDU is not sent (R356): its frames return unchanged, its attempts are consumed. -/
def notSent (b beat i code : Nat) (s : State) : State :=
  match getPpdu s b beat i with
  | none => s
  | some x =>
    if x.outcome.isSome || x.start.isSome then s
    else
      let s := record b beat i code s
      let s := x.users.foldl (fun s u => returnFrames u.sta u.frames s) s
      let s := if x.kind = 5 then onAB b (fun a => { a with mgmt := (x.bss, x.body) :: a.mgmt }) s
        else if x.kind = 1 && !x.body.isEmpty then onAB b (fun a => { a with group := (x.bss, { bytes := x.body }) :: a.group }) s
        else s
      consumeUsers x.users (missReason code) s

/-- One more failed attempt of a frame: it joins the frames to return, unless it was discarded. -/
def failStep (b n : Nat) (acc : List Frame × State) (f : Frame) : List Frame × State :=
  let r := failFrame b n f acc.2
  (acc.1 ++ r.1.toList, r.2)

/-- The frames of a station that failed and may be sent again, and the state after their attempts. -/
def failFrames (b n : Nat) (fs : List Frame) (s : State) : List Frame × State := fs.foldl (failStep b n) ([], s)

/-- Frames of a station whose attempt was not acknowledged return to their queue, or are discarded (R356). -/
def failAll (b n : Nat) (fs : List Frame) (s : State) : State :=
  let r := failFrames b n fs s
  returnFrames n r.1 r.2

/-- The transmit lines of a band fall and its DACs are muted. -/
def endTx (b : Nat) (s : State) : State :=
  let m := lineMask b (List.range 12)
  let s := s.onOuts fun o => { o with paen := o.paen &&& ~~~m, trsw := o.trsw &&& ~~~m, dac := o.dac &&& ~~~(BitVec.ofNat 192 ((2 ^ 96 - 1) * 2 ^ (96 * b))) }
  refreshOuts (onAB b (fun a => { a with onAir := none, lastEnd := curOff s }) s)

/-- The coexistence lines fall, unless another request has risen meanwhile (R246). -/
def dropCoex (s : State) : State :=
  if s.fe.coexNext then s.onFe fun f => { f with coexNext := false } else s.onOuts fun o => { o with coexReq := false, coexPri := false }

/-- The PPDU on air is cut short (R356, R396). -/
def cutShort (b code : Nat) (s : State) : State :=
  match (getAB s b).onAir with
  | none => s
  | some (beat, i) =>
    let s := dropCoex (endTx b s)
    match getPpdu s b beat i with
    | none => s
    | some x =>
      let s := record b beat i code s
      let s := x.users.foldl (fun s u => failAll b u.sta u.frames s) s
      consumeUsers x.users (missReason code) s

/-! Discarding plans (R157, R201). -/

/-- A plan is discarded: its PPDUs that have not begun are SILENCED. -/
def discardPlan (b beat : Nat) (s : State) : State :=
  match getPlan s b beat with
  | none => s
  | some p => (List.range p.ppdus.length).foldl (fun s i => notSent b beat i 0x0612 s) s

/-- Every plan opened for a band is discarded; the one whose PPDU is on air stays until its end. -/
def discardBand (b : Nat) (s : State) : State :=
  let s := ((getAB s b).plans.map (·.1)).foldl (fun s beat => discardPlan b beat s) s
  onAB b (fun a => { a with plans := a.plans.filter fun e => (a.onAir.map (·.1)) = some e.1 }) s

/-! Responses (R354 to R357). -/

/-- The link of a station has had no response: after 4 in a row it is UNUSABLE (R367, R400). -/
def linkFails (b n : Nat) (s : State) : State :=
  match getSta s n with
  | none => s
  | some x =>
    let l := x.link b
    let s := onSta n (Sta.onLink b fun l => { l with fails := l.fails + 1, unusable := l.unusable || 4 ≤ l.fails + 1 }) s
    if l.unusable || l.fails + 1 < 4 then s
    else
      let s := raise 0x0681 (some n) [BitVec.ofNat 8 b] s
      (flowsOf s fun f => f.p.sta = n && f.p.link = b).foldl (fun s f => enterReview f 2 s) s

/-- A frame from a station is received on a link: it is usable (R367, R400). -/
def linkHeard (b n : Nat) (s : State) : State :=
  match getSta s n with
  | none => s
  | some x =>
    let s := onSta n (Sta.onLink b fun l => { l with fails := 0, unusable := false }) s
    if (x.link b).unusable then
      (flowsOf s fun f => f.p.sta = n && f.p.link = b).foldl (fun s f => clearCause f 2 s) (raise 0x0682 (some n) [BitVec.ofNat 8 b] s)
    else s

/-- The response of one user of a PPDU: the positions acknowledged, or none at all. -/
def userResp (b beat i n : Nat) (acked : List Nat) (missing : Bool) (s : State) : State :=
  match (getPpdu s b beat i).bind fun x => (x.users.find? fun u => u.sta = n && u.resp.isNone).map fun u => (x, u) with
  | none => s
  | some (x, u) =>
    let k := u.frames.length
    let ok := acked.filter fun j => j < k + u.bf.length
    let okAc := (ok.filter fun j => j < k).length
    let s := onPpdu b beat i (fun x => { x with
      acked := x.acked + ok.length
      users := x.users.map fun v => if v.sta = n && v.resp.isNone then { v with resp := some ok } else v }) s
    let s := if missing then linkFails b n s else linkHeard b n s
    let s := if x.kind ≤ 1 then
        countSta n 1 (onSta n (Sta.onLink b fun l => { l with olla := ollaStep (k + u.bf.length) ok.length l.olla }) s) okAc
      else if x.sounding && missing then countPhy b 6 s
      else s
    let s := if x.kind ≤ 1 then
        (u.bf.zipIdx.filter fun t => ok.contains (k + t.2)).foldl (fun s t => delivered t.1.1 t.1.2.1 t.1.2.2 s) s
      else s
    consumeUsers [u] 1 s

/-- The frames of a user that its response left unacknowledged. -/
def PUser.left (u : PUser) : List Frame := (u.frames.zipIdx.filter fun f => !((u.resp.getD []).contains f.2)).map (·.1)

/-- The users of a retry PPDU, with the frames that go out again (R357). -/
def retryUser (b : Nat) (acc : List PUser × State) (u : PUser) : List PUser × State :=
  let t := failFrames b u.sta u.left acc.2
  (acc.1 ++ [{ u with frames := t.1, bf := [], resp := none }], t.2)

/-- The retry PPDU takes the retry slot of the plan (R357). -/
def placeRetry (b beat : Nat) (p : Plan) (x : Ppdu) (s : State) : State :=
  let r := x.users.foldl (retryUser b) ([], s)
  let slot := p.retry.getD (0, 0)
  let n := (getAB s b).retrySym
  let tail := sifs + ackTb (getPhy s b).tbGi
  let us := r.1.filter fun u => !u.frames.isEmpty
  let y : Ppdu := { kind := 0, p := slot.1, dur := slot.2 - tail, a := slot.2, w := slot.1 + slot.2, users := us, cls := x.cls, mf := x.mf, retry := true,
                    nsym := n, spacing := 1000000 }
  if us.isEmpty then r.2 else countAir b 7 (onPlan b beat (fun p => { p with ppdus := p.ppdus ++ [y], retry := none }) r.2)

/-- Unacknowledged frames take the retry slot of the beat, where it is free (R357), or return (R356). -/
def settle (b beat i : Nat) (s : State) : State :=
  match getPlan s b beat, getPpdu s b beat i with
  | some p, some x =>
    if x.users.any (·.resp.isNone) then s
    else
      let s := record b beat i 0 s
      if x.kind = 0 && !x.bf && !x.retry && p.retry.isSome && x.users.any (fun u => !u.left.isEmpty) then
        placeRetry b beat p x s
      else x.users.foldl (fun s u => failAll b u.sta u.left s) s
  | _, _ => s

/-- RESPONSE_RECEIVED (R354): the positions acknowledged count a user's frames, then its bounded-flow frames. -/
def execResponseReceived (band : BandId) (beat id : Nat) (sta : Nat) (acked : List Nat) (s : State) : Out :=
  let b := band.num
  .next (onlyIf (((getPpdu s b beat id).map fun x => x.start.isSome && x.outcome.isNone).getD false) (fun s =>
    let s := settle b beat id (userResp b beat id sta acked false s)
    if s.fe.coexResp then dropCoex s else s) s)

/-- RESPONSE_TIMEOUT (R354). -/
def execResponseTimeout (band : BandId) (beat id : Nat) (sta : Nat) (s : State) : Out :=
  let b := band.num
  .next (onlyIf (((getPpdu s b beat id).map fun x => x.start.isSome && x.outcome.isNone).getD false) (fun s =>
    let s := settle b beat id (userResp b beat id sta [] true s)
    if s.fe.coexResp then dropCoex s else s) s)

/-! Sending (R232, R235, R342). -/

/-- The TSF at a time of day (R361). -/
def tsfAt (s : State) (t : Nat) : Nat := (((t : Int) - s.cad.epoch) / 1000).emod (2 ^ 64) |>.toNat

/-- A frame whose last element is a Management MIC element takes the Key ID, IPN and MIC of a key (R576). -/
def micElement (k : Option Nat) (body : List Byte) (s : State) : List Byte × State :=
  let n := body.length
  let mic := if byteAt body (n - 18) = 76 && byteAt body (n - 17) = 16 then 8 else if byteAt body (n - 26) = 76 && byteAt body (n - 25) = 24 then 16 else 0
  match k, mic with
  | none, _ => (body, s)
  | _, 0 => (body, s)
  | some k, mic => match protect k [5, 6, 7, 8] s, Tab.get? s.cipher.slots k with
    | (some pn, s), some x =>
      let with_ := patch body (n - mic - 8) (le 2 x.keyId ++ le 6 pn)
      (patch with_ (n - mic) (pad mic (bipMic x.type (slotKey x) with_ pn)), s)
    | (_, s), _ => (body, s)

/-- A beacon as it is sent (R362): Timestamp, DTIM count, partial virtual bitmap, and the BIGTK's MIC. -/
def beaconBody (b start : Nat) (x : Ppdu) (s : State) : List Byte × State :=
  let bss := Tab.getD (getAB s b).bss x.bss {}
  let at_ := beatNs s (curBeat s) + start + 20000 + 4000 * ((16 + 8 * bss.tsfOff) / (4 * bss.rate))
  let body := patch x.body bss.tsfOff (le 8 (tsfAt s at_))
  let body := if bss.timOff = 0xFFFF then body
    else
      let len := (byteAt body (bss.timOff + 1)).toNat - 3
      let want (aid : Nat) : Bool := s.air.stas.any fun e => e.2.p.bss = x.bss && e.2.p.aid = aid && (e.2.link b).dozing && e.2.q.any fun q => !q.isEmpty
      let bits := (List.range len).map fun j => BitVec.ofNat 8 (sumOf ((List.range 8).map fun i => if want (8 * j + i) then 2 ^ i else 0))
      patch (patch body (bss.timOff + 2) [BitVec.ofNat 8 ((bss.dtim - x.tbtt % bss.dtim) % bss.dtim)]) (bss.timOff + 5) bits
  micElement (groupKey s b x.bss true) body s

/-- A unicast management frame with its Protected Frame bit set is protected under the addressee's KS_PTK (R364, R575). An
addressee that is no station has no key. -/
def protectMgmt (b : Nat) (body : List Byte) (s : State) : List Byte × State :=
  match mgmtPeer s b body with
  | none => ([], countCipher 0 s)
  | some x => match protect x.p.ks [x.p.cipher] s, Tab.get? s.cipher.slots x.p.ks with
    | (some pn, s), some k =>
      let head := le 2 (pn % 65536) ++ [0, BitVec.ofNat 8 (0x20 + 64 * k.keyId)] ++ le 4 (pn / 65536)
      let addr (o : Nat) : List Byte := mldAddr x (slice body 10 6) (slice body o 6)
      (body.take 24 ++ head ++ macSeal k.type (slotKey k) body (addr 4) (addr 10) (addr 16) pn (body.drop 24), s)
    | (_, s), _ => ([], s)

/-- A group frame is encrypted with the group key of its BSS; it is empty where the key cannot be used. -/
def groupCrypt (k : Nat) (body : List Byte) (s : State) : List Byte × State :=
  let r := protect k [1, 2, 3, 4] s
  match r.1, Tab.get? s.cipher.slots k with
  | some pn, some y => (Config.groupSeal (slotKey y) (body.take 14) pn body, r.2)
  | _, _ => ([], r.2)

/-- The frame that a PPDU of the broad beam carries, as it is sent. -/
def sentBody (b start : Nat) (x : Ppdu) (s : State) : List Byte × State :=
  if x.kind = 4 then beaconBody b start x s
  else if x.kind = 5 && mgmtProtected x.body then protectMgmt b x.body s
  else if x.kind = 5 && (byteAt x.body 4).getLsbD 0 then micElement (groupKey s b x.bss false) x.body s
  else if x.kind = 1 && !x.body.isEmpty then
    let k := (Tab.getD (getAB s b).bss x.bss {}).gtk
    groupCrypt k x.body s
  else (x.body, s)

/-- What a user still has to send when its PPDU begins (R385, R394, "no MPDU is sent after its lifetime ends"). -/
def trimUser (s : State) (b fin : Nat) (u : PUser) : PUser :=
  { u with
    frames := u.frames.filter fun f => fin ≤ lifeEnd s b f
    bf := u.bf.filter fun t => match (getBf s t.1).bind fun f => (f.period t.2.1).map fun p => (f, p) with
      | some (f, p) => p.open_.contains t.2.2 && fin < beatNs s (f.start p.k + p.deadline)
      | none => false }

/-- A PPDU with its users and its body is on the air: the counters, the lines of the band and the DACs follow. -/
def putOnAir (b beat i start : Nat) (x : Ppdu) (us : List PUser) (body : List Byte) (s : State) : State :=
  let n := sumOf (us.map fun u => u.frames.length + u.bf.length)
  let s := onPpdu b beat i (fun x => { x with start := some start, users := us, sent := n }) s
  let s := if (getPhy s b).rx != 0 then countPhy b 10 (onPhy b (fun p => { p with rx := 0 }) s) else s
  let s := us.foldl (fun s u => countSta u.sta 0 s (if x.kind ≤ 1 then u.frames.length + u.bf.length else 0)) s
  let s := (bfPairs us).foldl (fun s p => countBf p.1 5 s) s
  let m := lineMask b ((List.range 12).filter fun g => (getBand s b).groupOn g)
  let on := sumOf ((getBand s b).chains.zipIdx.map fun c => if c.1.active then 2 ^ (96 * b + c.2) else 0)
  let s := s.onOuts fun o => { o with paen := o.paen ||| m, trsw := o.trsw ||| m, lnaen := o.lnaen &&& ~~~m, dac := o.dac ||| BitVec.ofNat 192 on }
  (onAB b (fun a => { a with onAir := some (beat, i) }) s).emit (.air b i body)

/-- The FEM on sequence begins and the PPDU goes on air. -/
def goOnAir (b beat i start : Nat) (x : Ppdu) (s : State) : State :=
  let fin := beatNs s beat + start + x.a
  let us := x.users.map (trimUser s b fin)
  let old := (x.users.zip us).flatMap fun p => (p.1.frames.filter fun f => !p.2.frames.contains f).map fun f => (p.1.sta, f)
  let s := old.foldl (fun s f => discarded f.1 f.2.tid 2 s) s
  let carried := x.kind ≤ 1 || x.bf
  let us := if carried && x.body.isEmpty && x.kind != 3 then us.filter fun u => !(u.frames.isEmpty && u.bf.isEmpty) else us
  let (body, s) := sentBody b start x s
  if (carried && x.body.isEmpty && us.isEmpty) || (body.isEmpty && !x.body.isEmpty) then record b beat i 0 s
  else
    putOnAir b beat i start x us body s

/-- PPDU_FEM_ON (R232, R235, R246, R248). -/
def execPpduFemOn (band : BandId) (beat id : Nat) (grant : Bool) (s : State) : Out :=
  let b := band.num
  .next (match getPlan s b beat, getPpdu s b beat id with
    | some p, some x =>
      let f := getBand s b
      let start := curOff s + femLead s b
      let fits : Bool := start + x.a ≤ x.w
      let wait : Bool := p.kind != 1 || (x.spacing > 25000)
      let late := x.p + 1000 < start && (f.loReadyNs : Int) > (beatNs s beat + x.p - femLead s b : Nat)
      if p.st != 3 || beat != curBeat s || !inService s b && !f.down || (getAB s b).onAir.isSome || x.outcome.isSome || x.start.isSome ||
        start < x.p || (wait && !x.ready) then s
      else if f.down then notSent b beat id 0x0410 s
      else if blanked s b then notSent b beat id 0x0412 s
      else if !f.loReady then (if fits then s else notSent b beat id 0x0410 s)
      else if !fits then notSent b beat id (if late then 0x0410 else if p.kind = 1 then 0x0610 else 0x0611) s
      else if s.fe.coexMode = 1 && bit s.fe.coexMask b && !grant then dropCoex (notSent b beat id 0x0414 s)
      else goOnAir b beat id start x s
    | _, _ => s)

/-- PPDU_END (R235): the off sequence; a PPDU that solicits nothing is done. -/
def execPpduEnd (band : BandId) (beat id : Nat) (s : State) : Out :=
  let b := band.num
  .next (onlyIf ((getAB s b).onAir = some (beat, id)) (fun s =>
    let s := endTx b s
    match getPpdu s b beat id with
    | none => dropCoex s
    | some x =>
      let solicits := x.kind ≤ 2 && !x.users.isEmpty
      let s := if s.fe.coexResp && solicits then s else dropCoex s
      let s := if x.kind = 4 then onAB b (fun a => { a with bss := Tab.upd a.bss x.bss {} fun y =>
          { y with nextTbtt := max y.nextTbtt (x.tbtt + 1), dtimOpen := y.dtimOpen || x.tbtt % y.dtim = 0 } }) s else s
      if solicits then s else record b beat id 0 s) s)

/-- CCA_CHECK_END (R342): the busy subchannels. -/
def execCcaCheckEnd (band : BandId) (beat id : Nat) (busy : Byte) (s : State) : Out :=
  let b := band.num
  .next (match getPlan s b beat, getPpdu s b beat id with
    | some p, some x =>
      let ch := (getBand s b).ch
      let mask := (getPhy s b).punct.toNat
      let held := (List.range (2 ^ ch.width)).filter fun i => busy.getLsbD i && !bit mask i
      let primary := busy.getLsbD ch.primary
      let more := sumOf (held.map fun i => 2 ^ i)
      let ofdma := x.kind = 1 && !x.users.isEmpty
      let ok (s : State) : State := onPpdu b beat id (fun x => { x with ready := true }) s
      if p.st != 3 || beat != curBeat s || p.kind != 1 || x.outcome.isSome || x.start.isSome then s
      else if !primary && (held.isEmpty || (x.kind != 0 && !ofdma)) then ok s
      else if !primary && ofdma && punctOk ch.width (mask + more) then
        let out := x.users.filter fun u => held.contains u.pos
        let s := out.foldl (fun s u => returnFrames u.sta u.frames s) s
        let s := consumeUsers (out.filter fun u => !u.bf.isEmpty) 5 s
        ok (onPpdu b beat id (fun x => { x with users := x.users.filter fun u => !held.contains u.pos }) s)
      else if x.w < curOff s + 9000 + femLead s b + x.a then notSent b beat id 0x0610 s
      else s
    | _, _ => s)

/-- COEX_REQUEST (R246). -/
def execCoexRequest (band : BandId) (beat id : Nat) (s : State) : Out :=
  let b := band.num
  .next (match getPpdu s b beat id with
    | none => s
    | some x =>
      if s.fe.coexMode != 1 || !bit s.fe.coexMask b || x.outcome.isSome then s
      else
        let pri := s.fe.priPolicy = 2 || (s.fe.priPolicy = 1 && x.bf)
        let s := if s.outs.coexReq then s.onFe fun f => { f with coexNext := true } else s
        s.onOuts fun o => { o with coexReq := true, coexPri := o.coexPri || pri })

/-- COEX_GNT_WITHDRAWN (R247). -/
def execCoexGntWithdrawn (band : BandId) (s : State) : Out :=
  let b := band.num
  .next (onlyIf (s.fe.coexMode = 1 && bit s.fe.coexMask b) (cutShort b 0x0415) s)

/-- EDCA_ACCESS_GAINED (R355): the next TXOP has gained access at an offset. -/
def execEdcaAccessGained (band : BandId) (ac : BitVec 2) (off : Nat) (s : State) : Out :=
  let b := band.num
  let beat := curBeat s
  .next (match getPlan s b beat with
    | none => s
    | some p => match p.st = 3 && p.kind = 2, p.ppdus.find? fun x => !x.ready && x.outcome.isNone with
      | true, some h =>
        if h.kind != 4 && h.cls % 4 != ac.toNat && !(h.cls = 4 && ac.toNat = 3) then s
        else
          let e := 2 ^ (((getAB s b).ac.map (·.ecwmax)).getD ac.toNat 4)
          let (n, s) := s.draw e
          let s := onAB b (fun a => { a with backoff := setAt a.backoff ac.toNat n }) s
          (p.ppdus.zipIdx.filter fun x => x.1.txop = h.txop && x.1.outcome.isNone).foldl (fun s x =>
            let at_ := off + x.1.p
            let w := windowEnd (usableEnd s b) (blocksOf s b beat p.reserved (if x.1.kind ≤ 2 then [min x.1.cls 3] else [])) at_
            if at_ + x.1.a ≤ w then onPpdu b beat x.2 (fun y => { y with p := at_, w, ready := true }) s else notSent b beat x.2 0x0611 s) s
      | _, _ => s)

/-- BEACON_SKIPPED (R362). -/
def execBeaconSkipped (band : BandId) (bss : BitVec 3) (s : State) : Out :=
  let b := band.num
  .next (match Tab.get? (getAB s b).bss bss.toNat with
    | none => s
    | some x =>
      if x.enable && inService s b && tbttNs s x (x.nextTbtt + 1) ≤ nowNs s then
        let s := onAB b (fun a => { a with bss := Tab.upd a.bss bss.toNat {} fun y => { y with nextTbtt := y.nextTbtt + 1 } }) s
        raise 0x0683 none ([BitVec.ofNat 8 b, BitVec.ofNat 8 bss.toNat, 0, 0] ++ le 8 x.nextTbtt) (countAir b 8 s)
      else s)

/-! The local oscillator (R227 to R229). -/

/-- LO_LOCK_LOSS (R227, R228): the residual of a switchover in 0.01 degrees. -/
def execLoLockLoss (band : BandId) (residual : Int) (s : State) : Out :=
  let b := band.num
  let f := getBand s b
  .next (onlyIf (4 ≤ s.modes.mode && s.modes.mode ≤ 6 && f.synth f.main = 1) (fun s =>
    let s := cutShort b 0x0411 s
    let s := s.onOuts fun o => { o with dac := o.dac &&& ~~~(BitVec.ofNat 192 ((2 ^ 96 - 1) * 2 ^ (96 * b))) }
    let other := 1 - f.main
    if f.synth other = 1 && f.tracked then
      let s := onBand b (fun f => { (f.setSynth f.main 2) with main := other, tracked := false }) s
      raise 0x0480 none ([BitVec.ofNat 8 b, BitVec.ofNat 8 other, 0, 0] ++ leI 2 residual) s
    else onBand b (fun f => { (f.setSynth f.main 2) with loReady := false }) s) s)

/-- LO_READY (R228): the verification of the dividers completes at a time of day. -/
def execLoReady (band : BandId) (t : Nat) (s : State) : Out :=
  let b := band.num
  let f := getBand s b
  .next (onlyIf (4 ≤ s.modes.mode && s.modes.mode ≤ 6 && !f.loReady && (f.synth f.main = 1 || f.synth f.main = 2)) (fun s =>
    let s := advanceTo t s
    onBand b (fun f => { (f.setSynth f.main 1) with loReady := true, loReadyNs := t }) s) s)

/-- SYNTH_LOCK_TIMEOUT (R229). -/
def execSynthLockTimeout (band : BandId) (synth : Bool) (s : State) : Out :=
  let b := band.num
  let n := b2n synth
  let f := getBand s b
  let tried := if n = 0 then f.saTried else f.sbTried
  let mark (f : Band) : Band := if n = 0 then { f with saTried := true } else { f with sbTried := true }
  .next (onlyIf (4 ≤ s.modes.mode && s.modes.mode ≤ 6 && (f.synth n = 2 || f.synth n = 3)) (fun s =>
    if !tried then onBand b mark s
    else
      let other := 1 - n
      let s := onBand b (fun f => { (f.setSynth n 4) with tracked := false }) s
      let s := raise 0x0481 none [BitVec.ofNat 8 b, BitVec.ofNat 8 n] s
      if f.synth other = 4 then
        let s := onBand b (fun f => { f with down := true, loReady := false }) s
        let s := raise 0x0482 none [BitVec.ofNat 8 b, 1] (refreshOuts s)
        (flowsOf s fun g => g.p.link = b).foldl (fun s g => enterReview g 3 s) s
      else if f.main = n then onBand b (fun f => { f with main := other, loReady := f.synth other = 1 }) s
      else s) s)

/-! The cadence and the flows (R401). -/

/-- Every flow becomes DEGRADED. -/
def degradeAll (s : State) : State :=
  (s.air.bfs.map (·.1)).foldl (fun s n => match getBf s n with
    | none => s
    | some f =>
      if f.st = 3 then s
      else raise 0x0783 (some n) (le 1 s.cad.state ++ [0] ++ le 2 f.p.sta) (onBf n (fun f => { f with st := 3, causes := 0 }) s)) s

/-- DEGRADED flows return at a lock (R401), to ACTIVE where the band passes the test of R391, else to REVIEW with cause TURN_PLAN;
the event of either return is BF_RESTORED. -/
def restoreAll (s : State) : State :=
  [0, 1].foldl (fun s b =>
    let ok := bandPasses s b (effBeat s true) (getAB s b).frac
    (flowsOf s fun f => f.p.link = b && f.st = 3).foldl (fun s n => match getBf s n with
      | none => s
      | some f =>
        let s := onBf n (fun f => if ok then { f with st := 1, causes := 0 } else { f with st := 2, causes := 8 }) s
        raise 0x0782 (some n) ([3, 0] ++ le 2 f.p.sta) s) s) s

end Sys2Proof.Machine
end

