-- ==== Sys2Proof/Machine/TmBase.lean ====
section
/-!
DEFINITION. The traffic manager's queues, shapers and gate lists (R541 to R552).
-/
namespace Sys2Proof.Machine

/-- A port. -/
def getPort (s : State) (p : Nat) : Port := s.tm.ports.getD p {}

/-- Replace a port by its image. -/
def onPort (p : Nat) (f : Port → Port) (s : State) : State := s.onTm fun t => { t with ports := updAt t.ports p f }

/-- Replace a queue of a port by its image. -/
def onQueue (p q : Nat) (f : Queue → Queue) (s : State) : State := onPort p (fun x => { x with qs := updAt x.qs q f }) s

/-- R by port and mode, Gbit/s (R544): the ring runs at the rate of its lanes and is not timed here. -/
def portRate (m : Nat) : Nat := [25, 10, 1, 1].getD m 25

/-- The transmit time of a frame of L bytes, FCS included, ns (R544). -/
def wireNs (r l : Nat) : Nat := ((l + 20) * 8 + r - 1) / r

/-! Gates (R547 to R549). -/

/-- The phase of a beat. -/
def Gates.phase (g : Gates) (beat : Nat) : Nat := (((beat : Int) - g.start).emod ((max 1 g.cycle : Nat) : Int)).toNat

/-- The mask in force at an instant. -/
def Gates.maskAt (g : Gates) (beat off : Nat) : Nat :=
  let p := g.phase beat
  match (g.entries.filter fun e => e.1 < p || (e.1 = p && e.2.1 ≤ off)).getLast? with
  | some e => e.2.2
  | none => (g.entries.getLast?.map fun e => e.2.2).getD 0xFF

/-- Entries that close a traffic class. -/
def Gates.closes (g : Gates) (c : Nat) : List (Nat × Nat × Nat) :=
  (g.entries.zipIdx.filter fun x =>
    let before := ((if x.2 = 0 then g.entries.getLast? else g.entries[x.2 - 1]?).map fun e => e.2.2).getD 0xFF
    bit before c && !bit x.1.2.2 c).map (·.1)

/-- The next instant of an entry that is later than a time of day, in a beat not before `from_`. -/
def Gates.nextAt (s : State) (g : Gates) (from_ t : Nat) (e : Nat × Nat × Nat) : Nat :=
  let b := max from_ (beatAt s t)
  let d := (((e.1 : Nat) : Int) - g.phase b).emod ((max 1 g.cycle : Nat) : Int) |>.toNat
  let i := beatNs s (b + d) + e.2.1
  if i ≤ t then beatNs s (b + d + g.cycle) + e.2.1 else i

/-- G(c) (R548). -/
def Gates.guard (g : Gates) (rate c : Nat) : Nat := wireNs rate (g.maxFrame.getD c 1522)

/-- A time of day lies in a guard band of a class, for closings before `until_`. -/
def Gates.inGuard (s : State) (g : Gates) (rate c from_ : Nat) (until_ : Option Nat) (t : Nat) : Bool :=
  (g.closes c).any fun e =>
    let i := g.nextAt s from_ t e
    i ≤ t + g.guard rate c && ((until_.map fun u => decide (i < beatNs s u)).getD true)

/-- A gate list with entries is in force on a port. -/
def gated (s : State) (p : Nat) : Bool := p < 4 && s.modes.mode != 3 && !(getPort s p).gates.entries.isEmpty

/-- The gate of a class lets a frame begin (R544, R548). -/
def gateOpen (s : State) (p c : Nat) : Bool :=
  let x := getPort s p
  let r := portRate x.mode
  let t := nowNs s
  if 4 ≤ p || s.modes.mode = 3 then true
  else
    (x.gates.entries.isEmpty || x.open_.getLsbD c) &&
    !(x.gates.inGuard s r c 0 (x.next.map (·.from_)) t) &&
    !((x.next.map fun g => g.inGuard s r c g.from_ none t).getD false)

/-- Gates take the state of the entry in force at the new time after a step of the counter by d ns; shapers keep their
credit (R549). -/
def regate (d : Int) (s : State) : State :=
  s.onTm fun t => { t with ports := t.ports.map fun p => { p with
    open_ := BitVec.ofNat 8 (p.gates.maskAt (curBeat s) (curOff s))
    qs := p.qs.map fun q => { q with last := ((q.last : Int) + d).toNat } } }

/-! Shapers (R545). -/

/-- A queue's shaper at an instant. -/
def Queue.shapeTo (t : Nat) (q : Queue) : Queue :=
  if !q.shaper || (q.q.isEmpty && 0 ≤ q.credit) then { q with last := t }
  else
    let acc := q.acc + (t - q.last) * q.slope
    let credit := q.credit + ((acc / 10 ^ 6 : Nat) : Int)
    let q := { q with last := t, credit, acc := acc % 10 ^ 6 }
    let q := if q.q.isEmpty && 0 < q.credit then { q with credit := 0, acc := 0 } else q
    if q.hi ≤ q.credit then { q with credit := q.hi, acc := 0 } else q

/-- The credit that the scheduler sees: in VIGIL shapers are not evaluated and every one has 0 (R545). -/
def creditOf (s : State) (q : Queue) : Int := if s.modes.mode = 3 then 0 else (q.shapeTo (nowNs s)).credit

/-! Placing a packet (R541, R552). -/

/-- Count in the counters of a queue (R564). -/
def countQ (p q i : Nat) (s : State) : State := onQueue p q (fun x => { x with ctr := bump x.ctr i }) s

/-- A packet is enqueued at a wired or ring port's queue. -/
def enqPort (p q : Nat) (bytes : List Byte) (s : State) (ts : Option W64 := none) (dst hops : Nat := 0) : State :=
  let x := getPort s p
  let y := x.qs.getD q {}
  let n := cellsOf bytes.length
  let put (dram : Bool) (s : State) :=
    noteLow (countQ p q 0 (onQueue p q (fun y =>
      let y := if s.modes.mode = 3 then y else y.shapeTo (nowNs s)
      { y with q := y.q ++ [{ bytes, cells := n, dram, ts, dst, hops }] }) s))
  if gated s p && x.gates.maxFrame.getD q 1522 < bytes.length + 4 then countQ p q 4 s
  else if y.limit < y.depth + n then countQ p q 2 s
  else match storeIn s y.alpha y.dramEn (y.cellsIn false) n with
    | .chip => put false s
    | .dram => put true (wbPut n s)
    | .wbFull => countQ p q 3 (wbMissed s)
    | .bufDrop => countQ p q 3 s

end Sys2Proof.Machine
end

