-- ==== Sys2Proof/Machine/Hooks.lean ====
section
/-!
DEFINITION. What a change of the cadence does to plans, flows, gates and narrowband channels.
-/
namespace Sys2Proof.Machine

/-- The planner discards the plans already opened (R201). -/
def discardPlans (s : State) : State := discardBand 1 (discardBand 0 s)
/-- Every flow becomes DEGRADED (R401). -/
def degradeFlows (s : State) : State := degradeAll s
/-- DEGRADED flows return at a lock (R401). -/
def restoreFlows (s : State) : State := restoreAll s
/-- A standby master that enters HOLDOVER on missed beacons takes over at the next beat, and one beat later for each standby
master of a lower RING_ID in the roster (R670). Which members of the roster are standby masters is not carried on the ring. -/
def takeoverDue (s : State) : State :=
  if s.pwr.ringRole = 2 && s.cad.source = 2 && s.ring.st = 2 && !s.ring.acting then
    let lower := ((List.range s.pwr.ringId.toNat).filter fun d => bit s.ring.roster d && s.ring.master != some d).length
    let (k, s) := s.draw (lower + 1)
    s.onRing fun r => { r with takeAt := some (curBeat s + 1 + k) }
  else s
/-- Hopping transceivers leave VIGIL_CH once the cadence leaves COASTED (R422). -/
def resumeHopping (s : State) : State :=
  nbMoves (s.onNb fun n => { n with x := n.x.map fun x => { x with moveDue := x.hopping } })

end Sys2Proof.Machine
end

