-- ==== Sys2Proof/Machine/Cadence.lean ====
section
/-!
DEFINITION. Cadence, time of day and network time (chapter 6).
-/
namespace Sys2Proof.Machine

/-! The discipline loop (R195). -/

/-- 1.0 less a frequency estimate, as INCR, held within 200 ppm (R194, R195). -/
def incrOf (x : Rat) : Nat := min 0x1000D1B71 (max 0xFFF2E48F (x * 0x100000000).floor.toNat)

/-- MARK_PERIOD in ns (R195). -/
def markPeriod (s : State) : Rat := if s.cad.source = 1 then 1000000000 * ((2 : Rat) ^ s.clk.logSync) else (bpNs s : Rat)

/-- The loop at a good mark with error e (R195). -/
def discipline (e : Int) (s : State) : State :=
  let p := markPeriod s
  let tc : Rat := s.cad.loopTc
  let f := s.cad.freq + (e : Rat) / (4 * tc * tc * p)
  s.onCad fun c => { c with freq := f, incr := incrOf (1 - f - (e : Rat) / (tc * p)) }

/-- The coasting rate, 1.0 - freq (R195, R202). -/
def coastIncr (s : State) : Nat := incrOf (1 - s.cad.freq)

/-- The cadence takes a state; leaving COASTED frees the hopping transceivers (R422), ACQUIRING and DEGRADED degrade the flows
(R401), REALIGNING silences the air (R201). The bound keeps what HOLDOVER left, and grows on from DEGRADED (R202, R204). -/
def setCad (n : Nat) (s : State) : State :=
  let old := s.cad.state
  let b := errNow s
  let s := s.onCad fun c => { c with
    state := n, markRun := none, errBound := if old = 2 && n != 3 then b else c.errBound
    growing := n = 3 || (c.growing && (n = 0 || n = 6)) }
  let s := if old = 4 && n != 4 then resumeHopping s else s
  let s := if n = 0 || n = 3 then degradeFlows s else if n = 6 then discardPlans s else s
  refreshOuts s

/-- A step of the counter by an amount of ns (R200, R219). -/
def stepCounter (d : Int) (cause : Nat) (s : State) : State :=
  let s := s.onCad fun c => { c with tod := ((c.tod : Int) + d * 2 ^ 32).toNat, steps := satAdd 32 c.steps 1 }
  regate d (raise 0x0383 none (leI 8 d ++ le 1 cause) s)

/-! Marks (R198 to R203). -/

/-- A mark as it is judged: its instant on the local counter, what it says, and whether its CRC is good. -/
structure Mark where
  at_ : Int
  beat : Nat
  bp : Nat
  crcOk : Bool := true
deriving DecidableEq, Repr

/-- A good mark is taken in LOCKED (R195, R201). -/
def goodMark (e : Int) (beat : Nat) (s : State) : State :=
  let errs := (e.natAbs :: s.cad.errs).take 16
  discipline e (s.onCad fun c => { c with
    good := satAdd 32 c.good 1, consec := 0, lastErr := e, lastGood := beat, errs,
    errBound := min 0xFFFFFFFF (errs.foldl max 0 + c.srcErr) })

/-- HOLDOVER is entered (R202). -/
def enterHoldover (s : State) : State :=
  let b := errNow s
  let s := s.onCad fun c => { c with
    hoFrom := nowNs s, hoBound := b, used := 0, entries := satAdd 32 c.entries 1, incr := coastIncr s }
  takeoverDue (raise 0x0381 none (le 1 s.cad.lastKind ++ [0, 0, 0] ++ le 6 s.cad.lastGood) (setCad 2 s))

/-- A mark of a kind is missed: 1 TIME, 2 ABSENT, 3 CRC, 4 SEQ, 5 BP (R198, R202). -/
def missedMark (kind : Nat) (s : State) : State :=
  let s := s.onCad fun c => { c with missed := bump c.missed (kind - 1) }
  if s.cad.state = 1 then
    let s := s.onCad fun c => { c with consec := c.consec + 1, lastKind := kind }
    if s.cad.consec ≥ 3 then enterHoldover s else s
  else s

/-- The cadence locks at a mark (R199). -/
def lockAt (e : Int) (beat : Nat) (s : State) : State :=
  let s := setCad 1 s
  let s := s.onCad fun c => { c with realign := .none, firstAcq := false, lastLock := beat, decided := some beat, incr := coastIncr s }
  let s := goodMark e beat s
  restoreFlows (raise 0x0380 none (le 1 s.cad.source ++ [0, 0, 0] ++ le 4 s.cad.errBound ++ leI 4 e) s)

/-- A realignment starts at the last mark of a run, with local time ahead by e (R200). -/
def startRealign (e : Int) (s : State) : State :=
  if s.cad.firstAcq then
    let s := setCad 6 (s.onCad fun c => { c with firstAcq := false, realign := .settle, incr := coastIncr s })
    stepCounter (-e) 1 s
  else if e < 0 then
    stepCounter (-e) 2 (setCad 6 (s.onCad fun c => { c with realign := .settle, incr := coastIncr s }))
  else if e ≤ s.cad.slewMs * 1000000 then
    setCad 6 (s.onCad fun c => { c with realign := .slew, incr := 0x80000000 })
  else
    let s := if s.cad.stepNeeded then s else raise 0x0386 none (le 8 e.toNat) (s.onCad fun c => { c with stepNeeded := true })
    if s.cad.state = 0 then s.onCad fun c => { c with markRun := none } else setCad 0 s

/-- A mark in ACQUIRING, COASTED, HOLDOVER or DEGRADED: it extends or begins a run, and a run of ACQUIRE_MARKS locks or realigns
(R199). The period is that between consistent marks, e the error at the mark, and agree the agreement of the beat numbers. -/
def searchMark (m : Mark) (period : Int) (numbered agree : Bool) (e : Int) (s : State) : State :=
  let n := match s.cad.markRun with
    | some r =>
      let d := m.at_ - r.at_ - period
      if (!numbered || m.beat = (r.beat + 1) % 2 ^ 48) && -(s.cad.tol : Int) ≤ d && d < s.cad.tol then r.count + 1 else 1
    | none => 1
  let s := s.onCad fun c => { c with markRun := some { count := n, beat := m.beat, at_ := m.at_ } }
  if n < s.cad.acquire then s
  else if agree && e.natAbs < s.cad.tol then lockAt e m.beat s
  else startRealign e s

/-- The start of a numbered beat on the local counter, signed. -/
def beatInt (s : State) (b : Nat) : Int := s.cad.epoch + (b : Int) * bpNs s

/-- The beat whose mark interval holds an instant, and the offset from its start (R198). -/
def markBeat (s : State) (x : Int) : Nat × Int :=
  let k := (x - s.cad.epoch + (bpNs s / 2 : Nat)).ediv (bpNs s : Int)
  ((k.emod (2 ^ 48)).toNat, x - (s.cad.epoch + k * bpNs s))

/-- A mark of the pins or of the ring is judged (R198 to R200). A further copy on the ring is no stray. -/
def judgeMark (ring : Bool) (m : Mark) (s : State) : State :=
  let (b, d) := markBeat s m.at_
  if s.cad.state = 1 then
    if s.cad.decided = some b || (s.cad.tol : Int) ≤ d then
      if ring then s else s.onCad fun c => { c with stray := satAdd 32 c.stray 1 }
    else
      let s := s.onCad fun c => { c with decided := some b }
      if d < -(s.cad.tol : Int) then missedMark 1 s
      else if !m.crcOk then missedMark 3 s
      else if m.beat != b then missedMark 4 s
      else if m.bp != s.cad.bpCode then missedMark 5 s
      else goodMark d b s
  else if !m.crcOk then missedMark 3 (s.onCad fun c => { c with markRun := none })
  else if m.bp != s.cad.bpCode then missedMark 5 (s.onCad fun c => { c with markRun := none })
  else
    let e := m.at_ - beatInt s m.beat
    if s.cad.state = 6 then
      if s.cad.realign = .settle && m.beat = b && e.natAbs < s.cad.tol then lockAt e m.beat s else s
    else if s.cad.state = 5 then s
    else searchMark m (bpNs s) true (m.beat == b) e s

/-- Marks are taken: the cadence receiver is powered and the time-unit clock runs (R194). -/
def marksOn (s : State) : Bool := 2 ≤ s.modes.mode && s.modes.mode != 3 && !s.boot.restarting && s.cad.run

/-- The CRC-8 of a CAD_DATA frame is good (R205). -/
def cadFrameOk (f : W64) : Bool := crc8 (be 7 (f.toNat / 256)) = f.toNat % 256

/-- CAD_PULSE_MARK (R193, R198, R205): the sample that reads high lies at time of day t. -/
def execCadPulseMark (t : Nat) (frame : W64) (s : State) : Out :=
  .next (onlyIf (marksOn s && s.cad.source = 0) (fun s =>
    let s := advanceTo t s
    let ok := cadFrameOk frame
    let s := if ok then s.onCad fun c => { c with sender := (frame >>> 11).setWidth 2 } else s
    judgeMark false { at_ := (t : Int) - s.cad.inDelay, beat := frame.toNat / 2 ^ 16, bp := frame.toNat / 2 ^ 13 % 8, crcOk := ok } s) s)

/-- MARK_FRAME_TIMEOUT (R198): the pulse at t has no complete frame 20 us later. -/
def execMarkFrameTimeout (t : Nat) (s : State) : Out :=
  .next (onlyIf (marksOn s && s.cad.source = 0) (fun s =>
    judgeMark false { at_ := (t : Int) - s.cad.inDelay, beat := 0, bp := 0, crcOk := false } (advanceTo (t + 20000) s)) s)

/-- MARK_WINDOW_EXPIRY (R198): the interval of the earliest undecided beat ends without a mark. -/
def execMarkWindowExpiry (s : State) : Out :=
  .next (onlyIf (marksOn s && s.cad.state = 1) (fun s =>
    if s.cad.source = 1 then missedMark 2 s
    else
      let b := curBeat s
      let next (d : Nat) : Nat := if (d + 2 ^ 48 - b) % 2 ^ 48 < 2 ^ 47 then d + 1 else b
      let b := match s.cad.decided with
        | some d => next d
        | none => b
      missedMark 2 ((advanceTo (beatNs s b + s.cad.tol) s).onCad fun c => { c with decided := some (b % 2 ^ 48) })) s)

/-- SLEW_DONE (R200). -/
def execSlewDone (s : State) : Out :=
  .next (onlyIf (s.cad.state = 6 && s.cad.realign == .slew) (fun s => s.onCad fun c => { c with realign := .settle, incr := coastIncr s }) s)

/-- HOLDOVER_BUDGET_EXPIRY (R204). -/
def execHoldoverBudgetExpiry (s : State) : Out :=
  .next (onlyIf (s.cad.state = 2) (fun s =>
    let s := s.onCad fun c => { c with used := max c.used c.budget, expiries := satAdd 32 c.expiries 1 }
    let r := s.cad.markRun
    let s := setCad 3 (raise 0x0382 none ([0, 0, 0, 0] ++ le 4 s.cad.used) s)
    s.onCad fun c => { c with markRun := r }) s)

/-! PTP (R207, R208, R210). -/

/-- One grandmaster offer is better than another: the first field that differs decides (R207). -/
def Gm.better (a b : Gm) : Bool :=
  let k (g : Gm) : List Nat := [g.prio1, g.cls, g.accuracy, g.variance, g.prio2, g.identity.toNat, g.stepsRemoved]
  match ((k a).zip (k b)).find? fun x => x.1 != x.2 with
  | some x => x.1 < x.2
  | none => false

/-- PTP runs (R207). -/
def ptpOn (s : State) : Bool := marksOn s && s.cad.source = 1 && s.clk.ptpPort != 0xFF

/-- PTP_ANNOUNCE (R207, R208). -/
def execPtpAnnounce (gm : Announce) (s : State) : Out :=
  .next (onlyIf (ptpOn s && (!gm.timescaleArb || s.clk.arbOk)) (fun s =>
    let g : Gm := { prio1 := gm.prio1, cls := gm.cls, accuracy := gm.accuracy, variance := gm.variance, prio2 := gm.prio2,
                    identity := gm.identity, stepsRemoved := gm.steps }
    let take (changed : Bool) : State :=
      let s := s.onClk fun k => { k with gm := some g }
      if changed then raise 0x0388 none (le 8 g.identity.toNat) s else s
    match s.clk.gm with
    | some h => if h.identity = g.identity then take false else if g.better h then take true else s
    | none => take true) s)

/-- The mean path delay is at most 16 Delay_Req intervals old (R198). -/
def delayFresh (s : State) : Option Int :=
  match s.clk.delay with
  | some (d, t) => if ((nowNs s - t : Nat) : Rat) ≤ 16 * 1000000000 * ((2 : Rat) ^ s.clk.logDelay) then some d else none
  | none => none

/-- PTP_SYNC_MARK (R195, R198, R199, R208): t1 the origin time, t2 the receive time, corr the correction. -/
def execPtpSyncMark (t1 t2 corr : Int) (s : State) : Out :=
  .next (onlyIf (ptpOn s && s.clk.gm.isSome) (fun s =>
    let s := (advanceTo t2 s).onClk fun k => { k with sync := some (t1 + corr, t2) }
    let (b, _) := markBeat s t2
    match delayFresh s with
    | none => if s.cad.state = 1 then missedMark 1 s else s.onCad fun c => { c with markRun := none }
    | some dly =>
      let e := t2 - (t1 + corr + dly + s.clk.asym)
      if s.cad.state = 1 then
        if (s.cad.tol : Int) ≤ e.natAbs then missedMark 1 s else goodMark e b s
      else if s.cad.state = 6 then
        if s.cad.realign = .settle && e.natAbs < s.cad.tol then lockAt e b s else s
      else if s.cad.state = 5 then s
      else searchMark { at_ := t2, beat := b, bp := 0 } (markPeriod s).floor false true e s) s)

/-- PTP_DELAY_REQ_TIMER (R207): a Delay_Req leaves at t3. -/
def execPtpDelayReqTimer (t3 : Int) (s : State) : Out :=
  .next (onlyIf (ptpOn s && s.clk.gm.isSome) (fun s => (s.onClk fun k => { k with t3 := some t3 }).emit (.eth s.clk.ptpPort [])) s)

/-- PTP_DELAY_RESP (R208): the mean path delay of the last Sync and Delay_Req. -/
def execPtpDelayResp (t4 corr : Int) (s : State) : Out :=
  .next (onlyIf (ptpOn s) (fun s => match s.clk.sync, s.clk.t3 with
    | some (t1, t2), some t3 =>
      s.onClk fun k => { k with delay := some (((t2 - t3) + (t4 - corr - t1)).ediv 2, nowNs s), t3 := none }
    | _, _ => s) s)

/-- A transmit timestamp is taken on a port (R210). -/
def takeTs (port : Nat) (cookie : W64) (ns : Nat) (s : State) : State :=
  let q := s.clk.tsq.getD port {}
  let id := q.nextId
  let set (f : TsQueue → TsQueue) (s : State) : State := s.onClk fun k => { k with tsq := updAt k.tsq port f }
  if q.entries.length < 64 then
    let s := set (fun q => { q with nextId := id + 1, entries := q.entries ++ [{ id, cookie, ns, lostBefore := q.lost }], lost := false }) s
    if q.entries.isEmpty then raise 0x0387 (some port) [BitVec.ofNat 8 port] s else s
  else set (fun q => { q with nextId := id + 1, lost := true, overflow := satAdd 32 q.overflow 1 }) s

/-! The keeper and the time registers (R211, R214, R742). -/

/-- KEEPER_TRIM_WINDOW (R211). -/
def execKeeperTrimWindow (trim : Int) (s : State) : Out :=
  .next (onlyIf (s.cad.run && s.modes.mode != 3) (fun s => s.onClk fun k => { k with trim }) s)

/-- The time of day that readers see, ns and fraction (R742). -/
def readTod (s : State) : Nat := if s.modes.mode = 3 then keeperTod s else s.cad.tod

/-- The words 0x9004 to 0x9028 at one tick (R214). -/
def timeWords (s : State) : List W32 :=
  let t := readTod s
  let ns := t / 2 ^ 32
  let b := beatAt s ns
  [ns / 2 ^ 32, t % 2 ^ 32, b % 2 ^ 32, b / 2 ^ 32, offAt s ns,
   s.cad.bpCode * 2 ^ 8 + s.cad.source * 2 ^ 6 + cadStateNow s, errNow s, s.cad.incr % 2 ^ 32, s.cad.incr / 2 ^ 32].map (BitVec.ofNat 32) ++
  [BitVec.ofInt 32 s.clk.trim]

/-- TOD_SNAPSHOT_READ (R214): a read of 0x9000. -/
def execTodSnapshotRead (s : State) : Out :=
  .next (onlyIf s.host.link (fun s =>
    let lo := readTod s / 2 ^ 32 % 2 ^ 32
    ((noteTime s).onClk fun k => { k with snap := timeWords s }).onHost fun h => { h with reply := .data (le 4 lo) }) s)

/-! Commands (R216 to R223). -/

/-- A holdover ends with a change of source (R200). -/
def holdoverEnds (s : State) : State :=
  raise 0x0382 none ([1, 0, 0, 0] ++ le 4 s.cad.used) (s.onCad fun c => { c with expiries := satAdd 32 c.expiries 1 })

/-- The settings of CAD_SOURCE_SET. -/
def sourceFields (c : Cmd) (s : State) : State :=
  s.onCad fun k => { k with
    source := c.u 16 1, bpCode := c.u 17 1, acquire := c.u 18 1, tol := c.u 20 4, epoch := c.u 24 8, inDelay := c.u 32 2, loopTc := c.u 34 2
    slewMs := c.u 36 2, srcErr := c.u 40 4, stepNeeded := false }

/-- The cadence follows a new source: it acquires anew, or runs free (R194, R200), and nothing bounds the error (R214). -/
def newSource (src : Nat) (s : State) : State :=
  let s := s.onCad fun k => { k with firstAcq := true, realign := .none, consec := 0, decided := none
                                     incr := if src != 3 then coastIncr s else k.incr }
  let s := if src = 3 then (if s.cad.state = 5 then s else setCad 5 s) else setCad 0 s
  s.onCad fun k => { k with errBound := 0xFFFFFFFF, growing := false }

/-- CAD_SOURCE_SET (R216). -/
def specCadSourceSet : OpSpec where
  op := 0x0301
  modes := inModes [2, 4, 5, 6]
  rsv c := c.zero [(19, 1), (38, 2)]
  body c s :=
    let src := c.u 16 1
    let bp := c.u 17 1
    if src > 3 || bp > 4 || c.u 18 1 < 2 || 16 < c.u 18 1 || c.u 20 4 < 100 || 10000 < c.u 20 4 || 10000 < c.u 32 2 ||
      c.u 34 2 < 8 || 1024 < c.u 34 2 || 1000 < c.u 36 2 || 1000000 < c.u 40 4 then (eArg, s)
    else if (s.modes.mode = 5 && bp != s.cad.bpCode) || (src = 2 && (s.pwr.ringRole = 1 || s.pwr.ringRole = 3)) ||
      (src = 1 && s.clk.ptpPort = 0xFF) then (eState, s)
    else
      let changed := src != s.cad.source || bp != s.cad.bpCode || c.u 24 8 != s.cad.epoch
      (.ok, onlyIf changed (newSource src) (sourceFields c (onlyIf (changed && s.cad.state = 2) holdoverEnds s)))

/-- CAD_SOURCE_SET. -/
def execCadSourceSet (d : Doorbell) (p : List Byte) (s : State) : Out := command specCadSourceSet d p s

/-- CAD_STATUS (R217). -/
def specCadStatus : OpSpec where
  op := 0x0302
  body _ s :=
    let c := s.cad
    (.ok (le 1 (cadStateNow s) ++ le 1 c.source ++ le 1 c.bpCode ++ le 1 c.consec ++ le 4 c.used ++ le 4 (errNow s) ++ leI 4 c.lastErr ++
      le 4 c.good ++ ctrBytes c.missed ++ le 4 c.stray ++ le 4 c.entries ++ le 4 c.expiries ++ le 4 c.steps ++
      le 8 ((s.clk.gm.map (·.identity.toNat)).getD 0) ++ le 6 c.lastLock ++ le 1 c.sender.toNat ++ [0]), s)

/-- CAD_STATUS. -/
def execCadStatus (d : Doorbell) (p : List Byte) (s : State) : Out := command specCadStatus d p s

/-- TIME_GET (R218). -/
def specTimeGet : OpSpec where
  op := 0x0303
  body _ s :=
    let t := readTod s
    let ns := t / 2 ^ 32
    (.ok (le 8 ns ++ le 4 (t % 2 ^ 32) ++ le 6 (beatAt s ns) ++ [0, 0] ++ le 4 (offAt s ns) ++ le 1 (cadStateNow s) ++ [0, 0, 0] ++
      le 4 (errNow s) ++ le 8 s.cad.incr), noteTime s)

/-- TIME_GET. -/
def execTimeGet (d : Doorbell) (p : List Byte) (s : State) : Out := command specTimeGet d p s

/-- TIME_STEP (R219). -/
def specTimeStep : OpSpec where
  op := 0x0304
  body c s :=
    if c.u 16 8 = 0 then (eArg, s)
    else if s.modes.mode = 3 || s.modes.mode = 7 || s.modes.mode = 5 then (eState, s)
    else if s.cad.source != 3 then (.err 0x0301, s)
    else (.ok, s.onCad fun k => { k with stepSum := some (k.stepSum.getD 0 + c.i 16 8) })

/-- TIME_STEP. -/
def execTimeStep (d : Doorbell) (p : List Byte) (s : State) : Out := command specTimeStep d p s

/-- TIME_ADJUST (R219). -/
def specTimeAdjust : OpSpec where
  op := 0x0305
  body c s :=
    if c.u 16 8 < 0xFFF2E48F || 0x1000D1B71 < c.u 16 8 then (eArg, s)
    else if s.modes.mode = 3 || s.modes.mode = 7 then (eState, s)
    else if s.cad.source != 3 then (.err 0x0301, s)
    else (.ok, s.onCad fun k => { k with incr := c.u 16 8, freq := 1 - (c.u 16 8 : Rat) / 0x100000000 })

/-- TIME_ADJUST. -/
def execTimeAdjust (d : Doorbell) (p : List Byte) (s : State) : Out := command specTimeAdjust d p s

/-- TIME_STEP_APPLY (R219): at the start of the next beat. -/
def execTimeStepApply (s : State) : Out :=
  .next (match s.cad.stepSum with
    | none => s
    | some d =>
      if s.modes.mode = 3 then s
      else
        let s := (advanceTo (beatNs s (curBeat s + 1)) s).onCad fun c => { c with stepSum := none }
        if d = 0 then s else stepCounter d 0 s)

/-- PTP_CONFIG (R220). -/
def specPtpConfig : OpSpec where
  op := 0x0306
  modes := inModes [2, 4, 5, 6]
  rsv c := c.flagsBelow 21 1 && c.zero [(28, 4)]
  body c s :=
    let p := c.u 16 1
    if (3 < p && p != 0xFF) || 2 < c.u 17 1 || c.i 19 1 < -7 || 0 < c.i 19 1 || c.i 20 1 < -7 || 4 < c.i 20 1 || 4094 < c.u 22 2 then (eArg, s)
    else if s.cad.source = 1 then (eState, s)
    else if p != 0xFF && !(s.tm.ports.getD p {}).enable then (.err 0x0302, s)
    else (.ok, s.onClk fun k => { k with
      ptpPort := p, transport := c.u 17 1, domain := c.u 18 1, logSync := c.i 19 1, logDelay := c.i 20 1, arbOk := bit (c.u 21 1) 0,
      vlan := c.u 22 2, asym := c.i 24 4, srcAddr := c.bytes 32 16, gm := none, delay := none, sync := none, t3 := none })

/-- PTP_CONFIG. -/
def execPtpConfig (d : Doorbell) (p : List Byte) (s : State) : Out := command specPtpConfig d p s

/-- CAD_MASTER_SET (R221). -/
def specCadMasterSet : OpSpec where
  op := 0x0307
  modes := inModes [2, 4, 5, 6]
  rsv c := c.zero [(17, 1), (22, 2)]
  body c s :=
    let w := c.u 18 2
    if c.u 16 1 > 1 || w < 100 || 10000 < w || bpNs s < 2 * w || 1000 < c.u 20 2 then (eArg, s)
    else (.ok, refreshOuts (s.onCad fun k => { k with masterEn := c.u 16 1 == 1, pulseW := w, advance := c.u 20 2 }))

/-- CAD_MASTER_SET. -/
def execCadMasterSet (d : Doorbell) (p : List Byte) (s : State) : Out := command specCadMasterSet d p s

/-- HOLDOVER_CONFIG (R222). -/
def specHoldoverConfig : OpSpec where
  op := 0x0308
  modes := inModes [2, 4, 5, 6]
  rsv c := c.zero [(29, 3)]
  body c s :=
    if c.u 16 4 < 1 || 1000000 < c.u 16 4 || c.u 20 4 < 1 || 10000 < c.u 20 4 || c.u 24 4 < 100 || 100000 < c.u 24 4 || 4 < c.u 28 1 then (eArg, s)
    else
      let b := errNow s
      let now := nowNs s
      (.ok, s.onCad fun k => { k with
        budget := c.u 16 4, hoPpb := c.u 20 4, kUnc := c.u 24 4, trimLog2 := c.u 28 1,
        hoBound := if k.state = 2 || k.state = 3 || k.growing then b else k.hoBound,
        hoFrom := if k.state = 2 || k.state = 3 || k.growing then now else k.hoFrom })

/-- HOLDOVER_CONFIG. -/
def execHoldoverConfig (d : Doorbell) (p : List Byte) (s : State) : Out := command specHoldoverConfig d p s

/-- TS_READ (R223). -/
def specTsRead : OpSpec where
  op := 0x0309
  rsv c := c.zero [(18, 2)]
  body c s :=
    let p := c.u 16 1
    let k := c.u 17 1
    if 4 < p || k < 1 || 16 < k then (eArg, s)
    else if !(s.tm.ports.getD p {}).enable then (.err 0x0302, s)
    else
      let q := s.clk.tsq.getD p {}
      let l := q.entries.take k
      let rest := q.entries.drop k
      (.ok (le 1 l.length ++ le 1 rest.length ++ [0, 0] ++ l.flatMap fun e =>
        le 2 e.id.toNat ++ le 1 (b2n e.lostBefore) ++ [0, 0, 0, 0, 0] ++ le 8 e.cookie.toNat ++ le 8 e.ns),
       s.onClk fun c => { c with tsq := updAt c.tsq p fun q => { q with entries := rest } })

/-- TS_READ. -/
def execTsRead (d : Doorbell) (p : List Byte) (s : State) : Out := command specTsRead d p s

end Sys2Proof.Machine
end

