-- ==== Sys2Proof/Machine/Tm.lean ====
section
/-!
DEFINITION. The traffic manager: sending, gates, shapers, the chain pair and family 0x0B (chapter 16).
-/
namespace Sys2Proof.Machine

/-! Sending (R544). -/

/-- A port's transmitter is on and its link is up. -/
def portReady (s : State) (p : Nat) : Bool :=
  let x := getPort s p
  if p < 4 then x.enable && x.link && s.outs.upTx.getLsbD p
  else if p = 4 then x.enable && x.link && s.outs.mgtTx
  else s.ring.st = 2 && (s.ring.ports.getD (p - 5) {}).up && s.outs.ringTx == .ridgeline

/-- The length of a packet on the wire, FCS included. -/
def QPkt.wire (x : QPkt) : Nat := x.bytes.length + 4

/-- eligible() of R544. -/
def eligible (s : State) (p c : Nat) (q : Queue) : Bool := !q.q.isEmpty && gateOpen s p c && (!q.shaper || 0 ≤ creditOf s q)

/-- The next weighted queue under DWRR, and the port after the visits that lead to it (R544). -/
def dwrr : Nat → (Nat → Queue → Bool) → Port → Option (Nat × Port)
  | 0, _, _ => none
  | k + 1, ok, x =>
    let q := x.qs.getD x.rr {}
    let good := !q.strict && ok x.rr q
    if good && x.visiting && ((q.q.head?.map (·.wire)).getD 0 ≤ q.deficit) then some (x.rr, x)
    else if good && !x.visiting then dwrr k ok { x with visiting := true, qs := updAt x.qs x.rr fun q => { q with deficit := q.deficit + 256 * q.weight } }
    else dwrr k ok { x with rr := (x.rr + 1) % 8, visiting := false }

/-- choose() of R544. -/
def chooseQueue (s : State) (p : Nat) : Option (Nat × Port) :=
  let x := getPort s p
  let ok := eligible s p
  match ([7, 6, 5, 4, 3, 2, 1, 0].find? fun c => (x.qs.getD c {}).strict && ok c (x.qs.getD c {})) with
  | some c => some (c, x)
  | none => if (List.range 8).any fun c => ok c (x.qs.getD c {}) then dwrr 800 ok x else none

/-- The head of a queue begins: deficit, credit and counters follow (R544, R545). -/
def Queue.begin_ (vigil : Bool) (t : Nat) (q : Queue) : Queue :=
  match q.q with
  | [] => q
  | x :: rest =>
    let q := if vigil then q else q.shapeTo t
    let d := if q.strict then q.deficit else q.deficit - x.wire
    let c := if q.shaper && !vigil then max q.lo (q.credit - 256) else q.credit
    let empty := rest.isEmpty
    { q with q := rest, deficit := if empty then 0 else d, credit := if empty && 0 < c then 0 else c,
             acc := if empty && 0 < c then 0 else q.acc, ctr := bump q.ctr 1 }

/-- A packet of a DATA queue leaves on a ring port with its header (R664, R666). -/
def ringData (port tc : Nat) (x : QPkt) (s : State) : State :=
  let q := s.ring.seq.getD 2 0
  let hops := if x.dst = 0x0F then some x.hops else if bit s.ring.roster x.dst then hopsTo s port x.dst else none
  match hops with
  | none => s.onRing fun r => { r with ctr := bump r.ctr 3 }
  | some h =>
    let f := ringHdr 2 s.pwr.ringId.toNat x.dst h x.bytes.length tc port (curBeat s) q ++ x.bytes
    (s.onRing fun r => { r with seq := setAt r.seq 2 ((q + 1) % 65536) }).emit (.ring port f)

/-- A port that can begin a frame begins the next of its queues. -/
def egress (p : Nat) (s : State) : State :=
  match chooseQueue s p with
  | none => s
  | some (c, x) =>
    match (x.qs.getD c {}).q with
    | [] => s
    | k :: _ =>
      let t := nowNs s
      let r := portRate x.mode
      let s := onPort p (fun _ => { x with
        qs := updAt x.qs c (Queue.begin_ (s.modes.mode = 3) t), freeAt := if p < 5 then t + wireNs r k.wire else t }) s
      if p < 5 then
        let s := match k.ts with
          | some cookie => takeTs p cookie (t + 64 / r) s
          | none => s
        s.emit (.eth p k.bytes)
      else ringData (p - 5) c k s

/-- EGRESS_FRAME_START (R544): the port is free from the end of its last frame on. On the ring, frames of Ridgeline's own go
first (R667). -/
def execEgressFrameStart (port : Fin 7) (s : State) : Out :=
  let p := port.val
  .next (onlyIf (portReady s p && (p < 5 || (s.ring.ports.getD (p - 5) {}).wait.isEmpty)) (fun s => egress p (advanceTo (getPort s p).freeAt s)) s)

/-- SHAPER_CREDIT_ELIGIBLE (R545): the credit of a waiting queue climbs back to 0. -/
def execShaperCreditEligible (port : Fin 7) (q : Fin 8) (s : State) : Out :=
  let x := (getPort s port.val).qs.getD q.val {}
  .next (onlyIf (x.shaper && !x.q.isEmpty && x.credit < 0 && 0 < x.slope && s.modes.mode != 3 && s.cad.run) (fun s =>
    let need := (-x.credit).toNat * 10 ^ 6 - x.acc
    let s := advanceTo (x.last + (need + x.slope - 1) / x.slope : Nat) s
    onQueue port.val q.val (Queue.shapeTo (nowNs s)) s) s)

/-- GATE_ENTRY_INSTANT (R547). -/
def execGateEntryInstant (port : Fin 4) (entry : Nat) (s : State) : Out :=
  let p := port.val
  let g := (getPort s p).gates
  .next (match g.entries[entry]? with
    | none => s
    | some e => onlyIf (s.modes.mode != 3 && s.cad.run) (fun s =>
        onPort p (fun x => { x with open_ := BitVec.ofNat 8 e.2.2 }) (advanceTo (g.nextAt s g.from_ (nowNs s - 1) e) s)) s)

/-- GATE_LIST_APPLY (R549). -/
def execGateListApply (port : Fin 4) (s : State) : Out :=
  let p := port.val
  .next (match (getPort s p).next with
    | none => s
    | some g => onlyIf (s.modes.mode != 3 && s.cad.run) (fun s =>
        let s := advanceTo (beatNs s g.from_) s
        let s := onPort p (fun x => { x with gates := { g with applied := true }, next := none, open_ := BitVec.ofNat 8 (g.maskAt (curBeat s) (curOff s)) }) s
        raise 0x0B84 (some p) (le 1 p ++ [0] ++ le 2 g.cycle ++ le 6 g.start) s) s)

/-! Links and the chain pair (R554, R555). -/

/-- ETH_LINK_UP (R554). -/
def execEthLinkUp (port : Fin 5) (s : State) : Out :=
  let p := port.val
  let on := if p = 4 then s.outs.mgtTx else s.outs.upTx.getLsbD p
  .next (onlyIf ((getPort s p).enable && on) (fun s =>
    let s := onPort p (fun x => { x with link := true }) s
    if s.tm.chain = 1 && s.tm.chainTx && (getPort s 2).link && (getPort s 3).link then
      raise 0x0B80 none (le 4 ((nowNs s - s.tm.chainNs) / 1000)) (s.onTm fun t => { t with chain := 2 })
    else s) s)

/-- A wired port goes down (R555). -/
def ethDown (p : Nat) (s : State) : State :=
  if (getPort s p).link then
    let s := onPort p (fun x => { x with link := false }) s
    if s.tm.chain = 2 && (p = 2 || p = 3) then raise 0x0B83 (some p) (le 1 p) s else s
  else s

/-- ETH_LINK_DOWN (R555). -/
def execEthLinkDown (port : Fin 5) (s : State) : Out := .next (ethDown port.val s)

/-- CHAIN_SWITCH_SETTLE (R554). -/
def execChainSwitchSettle (s : State) : Out :=
  .next (onlyIf (s.tm.chain = 1 && !s.tm.chainTx) (fun s =>
    refreshOuts ((advanceTo (s.tm.chainNs + 1000 * s.tm.chainSettle : Nat) s).onTm fun t => { t with chainTx := true })) s)

/-- The chain switch is released (R554, R555). -/
def chainRelease (st : Nat) (s : State) : State :=
  refreshOuts ((s.onTm fun t => { t with
    chain := st, chainTx := false, chainDue := false, chainNs := nowNs s,
    ports := t.ports.zipIdx.map fun p => if p.2 = 2 || p.2 = 3 then { p.1 with link := false } else p.1 }).onOuts fun o => { o with bypChain := false })

/-- CHAIN_LINK_WAIT_EXPIRY (R554). -/
def execChainLinkWaitExpiry (s : State) : Out :=
  .next (onlyIf (s.tm.chain = 1 && s.tm.chainTx) (fun s =>
    let s := advanceTo (s.tm.chainNs + 1000 * s.tm.chainSettle + 10 ^ 6 * s.tm.chainWait : Nat) s
    let up := b2n (getPort s 2).link + 2 * b2n (getPort s 3).link
    raise 0x0B81 none (le 1 up) (chainRelease 3 s)) s)

/-- CHAIN_RETRY_EXPIRY (R554). -/
def execChainRetryExpiry (s : State) : Out :=
  .next (onlyIf (s.tm.chain = 3 && s.tm.chainEn && !s.tm.chainDue && s.modes.mode != 7) (fun s =>
    let s := advanceTo (s.tm.chainNs + 10 ^ 9 * s.tm.retry : Nat) s
    if [4, 5, 6].contains s.modes.mode then chainInsert s else s.onTm fun t => { t with chainDue := true }) s)

/-! Commands (R557 to R564). -/

/-- QUEUE_CONFIG (R559). -/
def specQueueConfig : OpSpec where
  op := 0x0B01
  modes c s := [2, 4, 6].contains s.modes.mode || (s.modes.mode = 5 && c.u 16 1 != 1)
  rsv c := c.flagsBelow 19 (if c.u 16 1 = 1 then 2 else 1) && c.zero [(23, 1)]
  needs _ := [3]
  body c s :=
    let p := c.u 17 1
    let q := c.u 18 1
    match c.u 16 1 with
    | 0 =>
      if 7 < p || (if p = 7 then q < 32 || 61 < q else 7 < q) || 1 < c.u 20 1 && p != 7 || c.u 21 1 < 1 || c.i 22 1 < -3 || 3 < c.i 22 1 || c.u 24 4 < 16 ||
        131072 < c.u 24 4 then (eArg, s)
      else if p = 7 then
        (.ok, s.onTm fun t => { t with host := Tab.upd t.host q {} fun x => { x with
          limit := c.u 24 4, dramEn := bit (c.u 19 1) 0, weight := c.u 21 1, alpha := c.i 22 1 } })
      else
        (.ok, onQueue p q (fun x => { x with
          strict := c.u 20 1 = 0, weight := c.u 21 1, dramEn := bit (c.u 19 1) 0, limit := c.u 24 4, alpha := c.i 22 1 }) s)
    | 1 =>
      let m := c.u 20 1
      if 4 < p || q != 0 || 3 < m then (eArg, s)
      else if (if p = 4 then m < 2 else 1 < m) || (bit (c.u 19 1) 1 && m != 0) then (.err 0x0B04, s)
      else
        let en := bit (c.u 19 1) 0
        (.ok, refreshOuts (onPort p (fun x => { x with
          enable := en, fec := bit (c.u 19 1) 1, mode := m, link := x.link && en && x.mode = m && x.fec == bit (c.u 19 1) 1 }) s))
    | _ => (eArg, s)

/-- QUEUE_CONFIG. -/
def execQueueConfig (d : Doorbell) (p : List Byte) (s : State) : Out := command specQueueConfig d p s

/-- SHAPER_SET (R546, R560). -/
def specShaperSet : OpSpec where
  op := 0x0B02
  modes := inModes [2, 3, 4, 5, 6]
  rsv c := c.flagsBelow 18 1 && c.zero [(19, 1)]
  needs _ := [3]
  body c s :=
    if 6 < c.u 16 1 || 7 < c.u 17 1 || c.u 20 4 < 1 || 38400000 < c.u 20 4 || 65535 < c.u 24 4 || c.i 28 4 < -65536 || -256 < c.i 28 4 then (eArg, s)
    else
      (.ok, onQueue (c.u 16 1) (c.u 17 1) (fun q => { q with
        shaper := bit (c.u 18 1) 0, slope := c.u 20 4, hi := (c.u 24 4 : Nat), lo := c.i 28 4, credit := 0, acc := 0, last := nowNs s }) s)

/-- SHAPER_SET. -/
def execShaperSet (d : Doorbell) (p : List Byte) (s : State) : Out := command specShaperSet d p s

/-- The entries of GATE_LIST_SET (R561). -/
def portGateEntries (c : Cmd) : List (Nat × Nat × Nat) := (List.range (c.u 17 1)).map fun i => (c.u (52 + 6 * i) 1, c.u (48 + 6 * i) 4, c.u (53 + 6 * i) 1)

/-- The first entry out of order, or with an offset not below BP (R557). -/
def badPortGate (s : State) (es : List (Nat × Nat × Nat)) : Option Nat :=
  let rise (i : Nat) (e : Nat × Nat × Nat) : Bool := match es[i - 1]? with
    | some f => i = 0 || f.1 < e.1 || (f.1 = e.1 && f.2.1 < e.2.1)
    | none => true
  (es.zipIdx.find? fun x => !rise x.2 x.1 || bpNs s ≤ x.1.2.1).map (·.2)

/-- GATE_LIST_SET (R561). -/
def specGateListSet : OpSpec where
  op := 0x0B03
  modes := inModes [2, 4, 5, 6]
  rsv c := c.flagsBelow 19 1 && c.zero [(26, 2), (44, 4)]
  needs _ := [3]
  body c s :=
    let es := portGateEntries c
    let mf := (List.range 8).map fun t => c.u (28 + 2 * t) 2
    let start := c.u 20 6
    let late := bit (c.u 19 1) 0
    let now := curBeat s
    if 3 < c.u 16 1 || 64 < c.u 17 1 || c.u 18 1 < 1 || 64 < c.u 18 1 || (mf.any fun m => m < 64 || 9216 < m) || (es.any fun e => c.u 18 1 ≤ e.1) then (eArg, s)
    else match badPortGate s es with
      | some i => (.err 0x0B02 (le 1 i), s)
      | none =>
        if start != 0 && start ≤ now && !late then (.err 0x0B03, s)
        else
          let from_ := if start ≤ now then now + 1 else start
          let g : Gates := { cycle := c.u 18 1, start := if start = 0 then now + 1 else start, from_, maxFrame := mf, entries := es, applied := false, runLate := late }
          (.ok, onPort (c.u 16 1) (fun x => { x with next := some g }) s)

/-- GATE_LIST_SET. -/
def execGateListSet (d : Doorbell) (p : List Byte) (s : State) : Out := command specGateListSet d p s

/-- The size of the free region of DRAM in MB (R634): what the configuration leaves above the fixed regions. -/
def dramRoomMb (s : State) : Nat := 4 * s.dram.density * s.dram.ranks * 1024 - 1128

/-- BUFFER_CONFIG (R562). -/
def specBufferConfig : OpSpec where
  op := 0x0B04
  modes := inModes [2, 4, 6]
  rsv c := c.zero [(24, 8)]
  needs _ := [3]
  body c s :=
    let k := c.u 16 4
    let m := c.u 20 4
    if k % 64 != 0 || k < 1024 || 16384 < k || 16384 < m then (eArg, s)
    else if m != 0 && (!([3, 4].contains s.dram.st) || dramRoomMb s < m) then (.err 0x0B01, s)
    else (.ok, noteLow (s.onTm fun t => { t with bfKb := k, dramMb := m }))

/-- BUFFER_CONFIG. -/
def execBufferConfig (d : Doorbell) (p : List Byte) (s : State) : Out := command specBufferConfig d p s

/-- CHAIN_PAIR_SET (R554, R555, R563). -/
def specChainPairSet : OpSpec where
  op := 0x0B05
  modes := inModes [2, 4, 5, 6]
  rsv c := c.flagsBelow 16 1 && c.zero [(17, 1), (24, 4)]
  needs _ := [3]
  body c s :=
    if 10000 < c.u 18 2 || c.u 20 2 < 10 || 5000 < c.u 20 2 || c.u 22 2 < 1 || 3600 < c.u 22 2 then (eArg, s)
    else if !((getPort s 2).enable && (getPort s 3).enable) then (.err 0x0B04, s)
    else
      let en := bit (c.u 16 1) 0
      let was := s.tm.chainEn
      let s := s.onTm fun t => { t with chainEn := en, settle := c.u 18 2, wait := c.u 20 2, retry := c.u 22 2 }
      if en then
        (.ok, if [4, 5, 6].contains s.modes.mode && (s.tm.chain = 0 || s.tm.chain = 3) then chainInsert s else refreshOuts s)
      else (.ok, if was then raise 0x0B82 none [0] (chainRelease 0 s) else s)

/-- CHAIN_PAIR_SET. -/
def execChainPairSet (d : Doorbell) (p : List Byte) (s : State) : Out := command specChainPairSet d p s

/-- BF_FREE_BYTES: the bounded-flow pool less the charges of the accepted downlink frames (R551). -/
def bfFree (s : State) : Nat :=
  1024 * s.tm.bfKb - sumOf (s.air.bfs.map fun e => if e.2.p.dir = 0 then sumOf (e.2.periods.map fun p => p.frames.length * ((e.2.parmAt p.k).maxFrame + 58)) else 0)

/-- TM_STATS (R564). -/
def specTmStats : OpSpec where
  op := 0x0B06
  rsv c := c.flagsBelow 19 1
  needs _ := [3]
  body c s :=
    let clear := bit (c.u 19 1) 0
    let p := c.u 17 1
    let q := c.u 18 1
    match c.u 16 1 with
    | 0 =>
      if 7 < p || (if p = 7 then q < 32 || 61 < q else 7 < q) then (eArg, s)
      else if p = 7 then
        (.ok (ctrBytes (Tab.getD s.tm.host q {}).ctr ++ le 4 (hostCells s q) ++ le 4 0 ++ le 4 0),
          if clear then s.onTm fun t => { t with host := Tab.upd t.host q {} fun x => { x with ctr := zeroed x.ctr } } else s)
      else
        let x := (getPort s p).qs.getD q {}
        (.ok (ctrBytes x.ctr ++ le 4 x.depth ++ le 4 (x.cellsIn true) ++ leI 4 (creditOf s x)),
          if clear then onQueue p q (fun x => { x with ctr := zeroed x.ctr }) s else s)
    | 1 =>
      (.ok (le 4 (sharedFree s) ++ le 4 s.tm.low ++ le 4 (bfFree s) ++ le 4 (dramFree s) ++ le 4 s.tm.drain ++ le 4 s.tm.chain),
        if clear then s.onTm fun t => { t with low := sharedFree s, drain := 0 } else s)
    | _ => (eArg, s)

/-- TM_STATS. -/
def execTmStats (d : Doorbell) (p : List Byte) (s : State) : Out := command specTmStats d p s

end Sys2Proof.Machine
end

