-- ==== Sys2Proof/Machine/NbMac.lean ====
section
/-!
DEFINITION. The Mladmer MAC's sending side: frames, counters, requests and their outcomes (R450 to R468).
-/
namespace Sys2Proof.Machine

/-! Frames (R450, R451, R453). -/

/-- FC (R450). -/
def NbFrame.fc (f : NbFrame) (more : Bool) : Nat :=
  f.type + 8 * b2n f.ackReq + 16 * b2n f.secured + 32 * b2n more + 64 * b2n f.flood + 128 * b2n f.mic8

/-- The first 12 bytes of a frame with a TTL. -/
def NbFrame.head (f : NbFrame) (more : Bool) (ttl : Nat) (src : W32) : List Byte :=
  le 1 (f.fc more) ++ le 1 ttl ++ be 4 src.toNat ++ be 4 f.dst.toNat ++ be 2 f.seq.toNat

/-- The key slot of a frame: the node's, or GROUP_KS for a broadcast (R453). -/
def frameKs (s : State) (node : Nat) : Nat :=
  if node = 0xFFFF then s.mlad.groupKs else ((getNode s node).map (·.ks)).getD 0xFFFF

/-- The nonce of a frame by its first 16 bytes (R453). -/
def nbNonce (b : List Byte) : List Byte := slice b 2 4 ++ slice b 12 4 ++ slice b 10 2 ++ b.take 1 ++ [0, 0]

/-- The frame's bytes at its handover; nothing where its key cannot be used, and the frame is discarded (R453, R574). -/
def buildNb (f : NbFrame) (more : Bool) (s : State) : Option (List Byte) × State :=
  let h (ttl : Nat) := f.head more ttl s.mlad.gw
  if !f.secured then (some (h f.ttl ++ f.data), s)
  else match slotUse s (frameKs s f.node) [9, 10] true with
    | .inr i => (none, countCipher i s)
    | .inl k =>
      let c := f.counter.getD 0
      let mic := if f.mic8 then 8 else 4
      let aad := h 0 ++ be 4 c
      (some (h f.ttl ++ be 4 c ++ ccmSeal (slotKey k) (nbNonce aad) aad f.data mic), s)

/-! Counters (R458, R459). -/

/-- The next outgoing FRAME_COUNTER of a node, or of GROUP_KS. -/
def nextCtr (s : State) (node : Nat) : Nat :=
  if node = 0xFFFF then s.mlad.groupCtr else ((getNode s node).map (·.txCtr)).getD 0

/-- The counter would pass 0xFFFF_FFFF (R458). -/
def ctrOver (s : State) (node : Nat) : Bool := 0xFFFFFFFF < nextCtr s node

/-- The counter has reached the stored value less 4,096, and its frame waits for CTR_FLOOR (R459). -/
def ctrWaits (s : State) (node : Nat) : Bool := s.mlad.stored ≤ nextCtr s node + 4096

/-- A frame still needs a counter. -/
def NbFrame.wantsCtr (f : NbFrame) : Bool := f.secured && f.counter.isNone

/-- A frame takes the next counter. -/
def takeCtr (f : NbFrame) (s : State) : NbFrame × State :=
  if !f.wantsCtr then (f, s)
  else
    ({ f with counter := some (nextCtr s f.node) },
      if f.node = 0xFFFF then s.onMlad fun m => { m with groupCtr := m.groupCtr + 1 }
      else onNode f.node (fun n => { n with txCtr := n.txCtr + 1 }) s)

/-- A write of CTR_FLOOR begins where a frame waits for one (R459). -/
def wantFloor (s : State) : State := s.onMlad fun m => { m with floorWriting := true }

/-! Requests (R460, R461). -/

/-- A new key. -/
def newKey (s : State) : Nat × State := (s.mlad.nextKey, s.onMlad fun m => { m with nextKey := m.nextKey + 1 })

/-- A request joins those that wait for a transceiver. -/
def putReq (i : Nat) (q : NbReq) (s : State) : State := onX i (fun x => { x with reqs := x.reqs ++ [q] }) s

/-- The transceiver of a node: its own, or that on which it was last heard (R474). -/
def nodeX (s : State) (node : Nat) : Nat :=
  match getNode s node with
  | some n => if n.xcvr = 0xFF then n.lastX else n.xcvr
  | none => 0

/-- The oldest held frame of a node, but for one. -/
def heldOf (s : State) (node : Nat) (but : Nat := 0) : Option HeldFrame := s.mlad.store.find? fun h => h.frame.node == node && h.key != but

/-- The held frame with a key. -/
def heldAt (s : State) (key : Nat) : Option HeldFrame := s.mlad.store.find? fun h => h.key == key

/-- Replace a held frame by its image. -/
def onHeld (key : Nat) (f : HeldFrame → HeldFrame) (s : State) : State :=
  s.onMlad fun m => { m with store := m.store.map fun h => if h.key = key then f h else h }

/-- The poll service of a node goes on with its oldest frame (R464). -/
def serviceNext (node fails prevEnd : Nat) (s : State) : State :=
  match decide (fails < 2), heldOf s node with
  | true, some h =>
    let e := prevEnd + 1000000
    putReq (nodeX s node) { kind := .held, key := h.key, frame := some { h.frame with type := 4, ackReq := true }, earliest := e, latest := e + 10000000 }
      (onNode node (fun n => { n with service := some (fails, prevEnd) }) s)
  | _, _ => onNode node (fun n => { n with service := none }) s

/-- A POLL starts a poll service (R464). -/
def serviceStart (node prevEnd : Nat) (s : State) : State :=
  if ((getNode s node).map fun n => n.service.isSome).getD true then s else serviceNext node 0 prevEnd s

/-- The attempt of a held frame ends: delivered, or not (R464). -/
def heldResult (node key : Nat) (ok : Bool) (out prevEnd : Nat) (s : State) : State :=
  let fails := (((getNode s node).bind (·.service)).map (·.1)).getD 0
  let told := ((getNode s node).map (·.told)).getD false
  match heldAt s key, ok with
  | none, _ => serviceNext node fails prevEnd s
  | some _, true =>
    let s := countMlad 15 (s.onMlad fun m => { m with store := m.store.filter fun h => h.key != key })
    if told then serviceNext node 0 prevEnd s else onNode node (fun n => { n with service := none }) s
  | some h, false =>
    let s := onHeld key (fun h => { h with attempts := h.attempts + 1, last := out, wake := none }) s
    let s := if h.attempts + 1 = 8 then match heldAt s key with
        | some g => dropHeld g 1 s
        | none => s
      else s
    serviceNext node (fails + 1) prevEnd s

/-- A direct frame ends in failure (R461). -/
def failJob (key : Nat) (reason : Nat) (s : State) : State :=
  match Tab.get? s.mlad.jobs key with
  | some j => failNb j.frame reason j.k j.last j.cookie (s.onMlad fun m => { m with jobs := Tab.erase m.jobs key })
  | none => s

/-- Replace a job by its image. -/
def onJob (key : Nat) (f : Job → Job) (s : State) : State :=
  match Tab.get? s.mlad.jobs key with
  | some j => s.onMlad fun m => { m with jobs := Tab.set m.jobs key (f j) }
  | none => s

/-- A request for the next attempt of a direct frame. -/
def jobRequest (key : Nat) (s : State) : State :=
  match Tab.get? s.mlad.jobs key with
  | some j => putReq j.xcvr { kind := .data, key, frame := some j.frame, earliest := nowNs s, latest := j.until_ } (onJob key (fun j => { j with st := .queued }) s)
  | none => s

/-- An attempt of a direct frame is consumed: failure after the eighth, else the backoff (R461). -/
def jobRetry (key : Nat) (s : State) : State :=
  match Tab.get? s.mlad.jobs key with
  | none => s
  | some j =>
    if j.k ≥ 8 then failJob key 1 s
    else
      let (u, s) := (countMlad 13 s).draw (2 ^ min (j.k + 2) 8)
      onJob key (fun j => { j with st := .backoff, wake := nowNs s + u * 10 ^ 6 }) s

/-- What the MAC does with the outcome of a request: 0 SENT, or a code of R444. `fin` is the end of the frame. -/
def macOutcome (i : Nat) (q : NbReq) (out fin : Nat) (s : State) : State :=
  let node := (q.frame.map (·.node)).getD 0xFFFF
  match q.kind with
  | .ack =>
    let s := if out = 0 then countNode node 1 (countMlad 11 s) else countMlad 12 s
    match (getNode s node).bind (·.pollEnd) with
    | some e => serviceStart node (if out = 0 then fin else e) (onNode node (fun n => { n with pollEnd := none }) s)
    | none => s
  | .relay => countMlad (if out = 0 then 19 else 21) s
  | .beacon => if out = 0 then countMlad 24 s else s
  | .held =>
    if out = 0 then
      let w := fin + (getX s i).ackWait
      onX i (fun x => { x with hold := some q.key }) (onHeld q.key (fun h => { h with endNs := fin, wake := some w }) (countNode node 1 s))
    else heldResult node q.key false out (nowNs s) s
  | .data =>
    match Tab.get? s.mlad.jobs q.key with
    | none => s
    | some j =>
      let s := onJob q.key (fun j => { j with last := out }) s
      if out = 0 then
        let s := countNode node 1 (countMlad 10 s)
        if j.frame.ackReq then
          let w := fin + (getX s i).ackWait
          onX i (fun x => { x with hold := some q.key }) (onJob q.key (fun j => { j with st := .waitAck, wake := w }) s)
        else s.onMlad fun m => { m with jobs := Tab.erase m.jobs q.key }
      else if j.frame.flood || node = 0xFFFF || out = 0x0820 || out = 0x0822 || out = 0x0823 || out = 0x0826 then failJob q.key 7 s
      else jobRetry q.key s
  | .tuner => s

/-- An outcome other than SENT is counted under its own name (R424). -/
def countOutcome (i out : Nat) (s : State) : State := if out = 0 then s else countX i (out - 0x0820 + 10) s

/-! Handing over (R460). -/

/-- The rank of a kind of request. -/
def NbKind.rank : NbKind → Nat
  | .ack => 0
  | .held => 1
  | .relay => 2
  | .data => 3
  | .beacon => 4
  | .tuner => 5

/-- A request may be handed over: its frame does not wait for CTR_FLOOR. -/
def reqReady (s : State) (q : NbReq) : Bool :=
  match q.frame with
  | some f => !(f.wantsCtr && !ctrOver s f.node && ctrWaits s f.node)
  | none => true

/-- A comes before b in the order of R460. -/
def reqBefore (a b : NbReq) : Bool := a.kind.rank < b.kind.rank || (a.kind.rank == b.kind.rank && a.earliest < b.earliest)

/-- The request that the MAC hands over next. -/
def nextReq (s : State) (x : Xcvr) : Option NbReq :=
  (x.reqs.filter (reqReady s)).foldl (fun b q => match b with
    | none => some q
    | some a => some (if reqBefore q a then q else a)) none

/-- A burst that has not begun its ramp gives way to a MAC request (R428). -/
def burstWaits (x : Xcvr) : Bool :=
  (x.handed.map fun q => decide (q.kind = .tuner)).getD false ||
  (x.tx.map fun t => t.sensing && decide (t.req.kind = .tuner)).getD false

/-- The transceiver can take a request now. -/
def canHand (s : State) (i : Nat) : Bool :=
  let x := getX s i
  match nextReq s x with
  | none => false
  | some q => x.hold.isNone && ((x.handed.isNone && x.tx.isNone) || (burstWaits x && q.kind != .tuner))

/-- The frame of a request at its handover, MORE decided and its counter taken: the request with its bytes, or the reason it
ends, 0 where its key cannot be used (R453, R456, R458, R464). -/
def fillReq (q : NbReq) (s : State) : Option NbReq × Nat × State :=
  match q.frame with
  | none => (some q, 0, s)
  | some f =>
    if f.wantsCtr && ctrOver s f.node then (none, 8, s)
    else
      let more := match q.kind with
        | .ack => ((getNode s f.node).map fun n => n.flags.getLsbD 0).getD false && (heldOf s f.node).isSome
        | .held => (heldOf s f.node q.key).isSome
        | _ => false
      let (f, s) := takeCtr f s
      let s := if q.kind = .held then onHeld q.key (fun h => { h with frame := { h.frame with counter := f.counter } }) (onNode f.node (fun n => { n with told := more }) s) else s
      match buildNb f more s with
      | (some b, s) => (some { q with frame := some f, psdu := b }, 0, s)
      | (none, s) => (none, 0, s)

/-- A request whose frame cannot be built is given up: the frame fails with reason COUNTER (R458), or, its key being unusable,
is discarded (R574). -/
def giveUp (i : Nat) (q : NbReq) (reason : Nat) (s : State) : State :=
  let node := (q.frame.map (·.node)).getD 0xFFFF
  match q.kind with
  | .data => if reason = 8 then failJob q.key 8 s else s.onMlad fun m => { m with jobs := Tab.erase m.jobs q.key }
  | .held =>
    let fails := (((getNode s node).bind (·.service)).map (·.1)).getD 0
    let s := match heldAt s q.key, reason == 8 with
      | some h, true => dropHeld h 8 s
      | _, _ => s.onMlad fun m => { m with store := m.store.filter fun h => h.key != q.key }
    serviceNext node fails (nowNs s) s
  | .ack => macOutcome i q 0x0820 0 (match q.frame with
    | some f => if reason = 8 then failNb f 8 0 0 0 s else s
    | none => s)
  | _ => s

/-- Hand the next request to a transceiver. -/
def handOne (i : Nat) (s : State) : State :=
  match nextReq s (getX s i) with
  | none => s
  | some q =>
    -- a waiting burst goes back among the requests, and its channel is left
    let s := onX i (fun x =>
      let back := match x.handed, x.tx with
        | some b, _ => [b]
        | none, some t => [t.req]
        | none, none => []
      { x with reqs := x.reqs.erase q ++ back, handed := none, tx := none, moveDue := x.moveDue || !back.isEmpty && x.ch != assignedCh s x }) s
    let s := nbMoves s
    match fillReq q s with
    | (none, r, s) => giveUp i q r s
    | (some q, _, s) =>
      let x := getX s i
      let stop (o : Nat) : State := macOutcome i q o 0 (countOutcome i o s)
      if q.kind != .tuner && s.nb.dwellEn && s.nb.maxTx * 10 ^ 6 < x.paOn q then stop 0x0822
      else if x.st = 6 then stop 0x0826
      else onX i (fun x => { x with handed := some q }) s

/-- Free transceivers take requests until none can. -/
def pumpN : Nat → State → State
  | 0, s => s
  | n + 1, s => match (List.range 4).find? (canHand s) with
    | none => s
    | some i => pumpN n (handOne i s)

/-- The MAC hands over what it can. -/
def pump (s : State) : State :=
  let s := if s.nb.x.any fun x => x.reqs.any fun q => !reqReady s q then wantFloor s else s
  pumpN (16 + 16 * sumOf (s.nb.x.map fun x => x.reqs.length)) s

/-! Sending (R461, R462, R465, R477). -/

/-- The capacity of the held-frame store (R462). -/
def storeCap (s : State) : Nat := if s.modes.mode != 3 && dramReady s then 32768 else 2048

/-- New held frames enter the DRAM store (R462, R463). -/
def storeInDram (s : State) : Bool := storeCap s = 32768 && !s.mlad.moving

/-- A frame enters the held-frame store (R462). -/
def hold (f : NbFrame) (cookie : W64) (s : State) : State :=
  let mine := s.mlad.store.filter fun h => h.frame.node == f.node
  let most := ((getNode s f.node).map (·.heldMax)).getD 16
  let s := match mine with
    | h :: _ => if most ≤ mine.length then dropHeld h 5 s else s
    | [] => s
  let full := if storeInDram s then 32768 ≤ s.mlad.store.length else 2048 ≤ (s.mlad.store.filter fun h => !h.dram).length
  let s := match s.mlad.store with
    | h :: _ => if full then dropHeld h 4 s else s
    | [] => s
  let (key, s) := newKey s
  let g : HeldFrame := { key, frame := f, cookie, at_ := nowNs s, dram := storeInDram s }
  s.onMlad fun m => { m with store := m.store ++ [g] }

/-- An entry of the seen-cache is created; at a full cache the oldest goes (R466). -/
def see (src : W32) (seq : W16) (s : State) : State :=
  let s := if 16384 ≤ s.mlad.seen.length then countMlad 23 (s.onMlad fun m => { m with seen := m.seen.drop 1 }) else s
  s.onMlad fun m => { m with seen := m.seen ++ [{ src, seq, at_ := nowNs s }] }

/-- A frame is sent directly on a transceiver (R461, R465). -/
def sendDirect (f : NbFrame) (i lifeMs : Nat) (cookie : W64) (s : State) : State :=
  let (key, s) := newKey s
  let j : Job := { frame := f, xcvr := i, until_ := nowNs s + lifeMs * 10 ^ 6, cookie }
  let put (j : Job) (s : State) := s.onMlad fun m => { m with jobs := Tab.set m.jobs key j }
  if f.wantsCtr && ctrOver s f.node then failNb f 8 0 0 cookie s
  else if f.wantsCtr && ctrWaits s f.node then wantFloor (put { j with st := .waitFloor } s)
  else
    let (f, s) := takeCtr f s
    jobRequest key (put { j with frame := f } s)

/-- One copy of a frame is handed to a transceiver; the counter of the first copy is that of all. -/
def sendCopy (f : NbFrame) (lifeMs : Nat) (cookie : W64) (a : Option Nat × State) (i : Nat) : Option Nat × State :=
  let t := sendDirect { f with counter := a.1 } i lifeMs cookie a.2
  ((Tab.get? t.mlad.jobs (t.mlad.nextKey - 1)).bind (·.frame.counter) <|> a.1, t)

/-- The error of a send that is not accepted (R473). -/
def nbRefusal (node flags ttl xcvr lifeMs len : Nat) (s : State) : Option Nat :=
  let flood := bit flags 1
  let sec := bit flags 2
  let bc := node = 0xFFFF
  if 32 ≤ flags || (bit flags 3 && !sec) || (4 ≤ xcvr && xcvr != 0xFF) || lifeMs < 10 || 60000 < lifeMs ||
      (if flood then ttl < 1 || 31 < ttl else ttl != 0) || (8192 ≤ node && !bc) then some 2
  else if (if sec then 196 else 200) < len then some 0x0808
  else if !bc && (getNode s node).isNone then some 0x0806
  else if s.mlad.gw = 0 then some 0x0809
  else if sec && frameKs s node = 0xFFFF then some 0x0807
  else none

/-- NB_SEND (R477), and the send records of R470 and R471: the status and, where it is OK, the SEQ. -/
def nbSend (node flags ttl xcvr lifeMs : Nat) (data : List Byte) (cookie : W64) (s : State) : Nat × W16 × State :=
  match nbRefusal node flags ttl xcvr lifeMs data.length s with
  | some e => (e, 0, s)
  | none =>
    let ack := bit flags 0
    let flood := bit flags 1
    let sec := bit flags 2
    let mic8 := bit flags 3
    let bc := node = 0xFFFF
    let seq := if bc then s.mlad.bcastSeq else ((getNode s node).map (·.txSeq)).getD 0
    let dst : W32 := if bc then 0xFFFFFFFF else ((getNode s node).map (·.addr)).getD 0
    let s := if bc then s.onMlad fun m => { m with bcastSeq := m.bcastSeq + 1 } else onNode node (fun n => { n with txSeq := n.txSeq + 1 }) s
    let f : NbFrame := { node, type := 0, ackReq := ack && !flood && !bc, flood, secured := sec, mic8, ttl := if flood then ttl else 1, dst, seq, data }
    let s := if flood then see s.mlad.gw seq s else s
    if !bc && !flood && !bit flags 4 && ((getNode s node).map fun n => n.flags.getLsbD 0).getD false then (0, seq, hold f cookie s)
    else
      let xs := if xcvr != 0xFF then [xcvr] else if bc then (List.range 4).filter fun i => (getX s i).enable else [nodeX s node]
      -- the copies of a broadcast are one frame: they carry the counter that the first takes
      (0, seq, pump (xs.foldl (sendCopy f lifeMs cookie) (none, s)).2)

end Sys2Proof.Machine
end

