-- ==== Sys2Proof/Machine/NbRadio.lean ====
section
/-!
DEFINITION. The narrowband transceivers: channel access, transmission, reception, tuning, blanking and family 0x08 of the radio
(R414 to R449).
-/
namespace Sys2Proof.Machine

/-! Tuning (R436). -/

/-- The 16 code pairs with which a search begins. -/
def tuneGrid : List (Nat × Nat) := [3, 11, 19, 27].flatMap fun a => [3, 11, 19, 27].map fun b => (a, b)

/-- The neighbours of a code pair at distance 1 in each bank: up to 8. -/
def tuneNear (p : Nat × Nat) : List (Nat × Nat) :=
  ([(0, 0), (0, 1), (0, 2), (1, 0), (1, 2), (2, 0), (2, 1), (2, 2)].map fun d => (p.1 + d.1, p.2 + d.2)).filterMap fun q =>
    if 1 ≤ q.1 && q.1 ≤ 32 && 1 ≤ q.2 && q.2 ≤ 32 then some (q.1 - 1, q.2 - 1) else none

/-- Ask for a burst of probes on the channel being tuned. -/
def tuneBurst (i : Nat) (probes : List (Nat × Nat)) (s : State) : State :=
  match (getX s i).tune with
  | some t => putReq i { kind := .tuner, earliest := nowNs s, latest := nowNs s + 100000000, chan := some t.chan, probes }
      (onX i (fun x => { x with tune := some { t with results := [], retryAt := none } }) s)
  | none => s

/-- The search of the channel begins. -/
def tuneBegin (i : Nat) (s : State) : State :=
  let x := getX s i
  match x.tune with
  | some t =>
    let c := codesOf x t.chan
    tuneBurst i (if t.fromCurrent then c :: tuneNear c else tuneGrid)
      (onX i (fun x => { x with tune := some { t with best := none, moves := 0, startNs := nowNs s } }) s)
  | none => s

/-- The next channel is tuned, or all have been: a run by command then awaits its end. -/
def tuneNext (i : Nat) (s : State) : State :=
  match (getX s i).tune with
  | some t =>
    if t.chan < t.last then tuneBegin i (onX i (fun x => { x with tune := some { t with chan := t.chan + 1 } }) s)
    else
      let s := onX i (fun x => { x with tune := if t.cmd then some { t with ended := true } else none, moveDue := x.moveDue || x.ch != assignedCh s x }) s
      nbMoves s
  | none => s

/-- MISMATCH clears where a return loss reaches RL_GOOD (R435). -/
def clearMismatch (i ch rl : Nat) (s : State) : State :=
  let x := getX s i
  if x.mismatch && x.rlGood ≤ rl then raise 0x0881 none (le 1 i ++ le 1 ch ++ le 1 rl) (onX i (fun x => { x with mismatch := false }) s) else s

/-- A search ends with a code pair and its return loss (R436). -/
def tuneEnd (i : Nat) (p : Nat × Nat) (rl : Nat) (s : State) : State :=
  match (getX s i).tune with
  | some t =>
    let s := onX i (fun x => { x with
      codes := Tab.set x.codes t.chan p
      tune := some { t with tuned := t.tuned + 1, poor := t.poor + b2n (decide (rl < x.rlGood)),
                            worst := if rl < t.worst || t.tuned = 0 then rl else t.worst,
                            worstCh := if rl < t.worst || t.tuned = 0 then t.chan else t.worstCh } }) s
    tuneNext i (clearMismatch i t.chan rl s)
  | none => s

/-- The pair of highest return loss; of several, any. -/
def tuneBest (rs : List ((Nat × Nat) × Nat)) (s : State) : ((Nat × Nat) × Nat) × State :=
  let top := rs.foldl (fun m r => max m r.2) 0
  let best := rs.filter fun r => r.2 = top
  let (k, s) := s.draw (max 1 best.length)
  (best.getD k ((16, 16), 0), s)

/-- One step of a search, with the results of its burst (R436). -/
def tuneStep (i : Nat) (rs : List ((Nat × Nat) × Nat)) (s : State) : State :=
  match (getX s i).tune with
  | none => s
  | some t =>
    let move (b : (Nat × Nat) × Nat) (rest : List ((Nat × Nat) × Nat)) (moves : Nat) (s : State) : State :=
      let (c, s) := tuneBest rest s
      if c.2 < b.2 + 1 then tuneEnd i b.1 b.2 s
      else if 32 ≤ moves + 1 then tuneEnd i c.1 c.2 s
      else tuneBurst i (tuneNear c.1) (onX i (fun x => { x with tune := x.tune.map fun t => { t with best := some c, moves := moves + 1 } }) s)
    match t.best, t.fromCurrent with
    | some b, _ => move b rs t.moves s
    | none, true => match rs with
      | b :: rest => move b rest 0 s
      | [] => s
    | none, false =>
      let (c, s) := tuneBest rs s
      tuneBurst i (tuneNear c.1) (onX i (fun x => { x with tune := x.tune.map fun t => { t with best := some c } }) s)

/-- A burst has ended with an outcome: its results go on with the search, or it is tried again 10 ms later. -/
def burstOutcome (i : Nat) (q : NbReq) (out : Nat) (s : State) : State :=
  let x := getX s i
  match x.tune with
  | some t =>
    if q.chan != some t.chan || t.ended then s
    else if out = 0 then tuneStep i (q.probes.zip t.results) s
    else onX i (fun x => { x with tune := some { t with retryAt := some (nowNs s + 10000000) } }) s
  | none => s

/-! Access and transmission (R424 to R427). -/

/-- A request ends with an outcome; the transceiver is free again, and moves to its own channel where it has left it. -/
def endReq (i : Nat) (q : NbReq) (out fin : Nat) (s : State) : State :=
  let s := onX i (fun x => { x with handed := none, tx := none, moveDue := x.moveDue || (decide (q.kind = .tuner) && x.ch != assignedCh s x) }) s
  let s := if q.kind = .tuner then burstOutcome i q out s else macOutcome i q out fin (countOutcome i out s)
  pump (nbMoves s)

/-- The end of the hop slot in force. -/
def slotEnd (s : State) (x : Xcvr) : Nat := beatNs s ((slotNow s x + 1) * max 1 x.hopBeats)

/-- A request is at an instant at which the ramp could begin: the tests of R424, and the ramp. -/
def tryRamp (i : Nat) (q : NbReq) (s : State) : State :=
  let x := getX s i
  let t := nowNs s
  let d := x.paOn q
  let wait (e : Nat) : State := onX i (fun x => { x with tx := none, handed := some { q with earliest := e } }) s
  if q.latest ≤ t then endReq i q (if x.st = 6 then 0x0826 else 0x0820) 0 s
  else if x.hopping && !hopHold s && slotEnd s x < t + d then wait (slotEnd s x)
  else match ledgerFails s x.ch d t with
    | some o => match ledgerFrom s x.ch d q.latest 128 t o with
      | .inl t1 => wait t1
      | .inr o => endReq i q o 0 (if o = 0x0823 then dutyLimit x.ch s else s)
    | none =>
      let s := if x.st = 2 then countX i 7 s else s
      let s := match subOf s x.ch with
        | some j => s.onNb fun n => { n with subs := updAt n.subs j fun b => { b with armed := true } }
        | none => s
      let s := s.onOuts fun o => { o with nbPa := o.nbPa ||| (1 <<< i : BitVec 4) }
      (onX i (fun x => { x with st := 4, handed := none, tx := some { req := q, at_ := t, d }, lowRun := 0, folded := false, rlSum := 0, rlN := 0 }) s).emit
        (.nb i x.ch q.psdu)

/-- The transceiver may take part in the air now: it is live, enabled, locked, not silenced, not blanked. -/
def nbFree (s : State) (i : Nat) : Bool :=
  let x := getX s i
  nbLive s && x.enable && (x.st = 1 || x.st = 2) && !x.collide && !blanked s (2 + i)

/-- NB_TX_REQUEST_START (R424). -/
def execNbTxRequestStart (x : Fin 4) (s : State) : Out :=
  let i := x.val
  .next (match (getX s i).handed with
    | none => s
    | some q =>
      if (getX s i).tx.isSome || !nbFree s i then s
      else
        let s := advanceTo q.earliest s
        let x := getX s i
        if q.latest ≤ nowNs s then endReq i q 0x0820 0 s
        else match q.chan with
          | some c =>
            if c != x.ch then retuneX i c s
            else onX i (fun x => { x with handed := none, tx := some { req := q, at_ := nowNs s, d := x.paOn q, sensing := true, busy := decide (x.st = 2) } }) s
          | none =>
            if q.cca then onX i (fun x => { x with handed := none, tx := some { req := q, at_ := nowNs s, d := x.paOn q, sensing := true, busy := decide (x.st = 2) } }) s
            else tryRamp i q s)

/-- NB_CCA_DONE (R433): the interval's mean power is in 0.5 dBm. -/
def execNbCcaDone (x : Fin 4) (power : Int) (s : State) : Out :=
  let i := x.val
  .next (match (getX s i).tx with
    | some t =>
      if !t.sensing then s
      else
        let s := advanceTo ((t.at_ + (getX s i).ccaT : Nat)) s
        if t.busy || (getX s i).st = 3 || 2 * (getX s i).ccaDbm ≤ power then endReq i t.req 0x0821 0 s else tryRamp i t.req s
    | none => s)

/-- NB_REQUEST_LATEST (R424). -/
def execNbRequestLatest (x : Fin 4) (s : State) : Out :=
  let i := x.val
  .next (match (getX s i).handed with
    | some q => endReq i q (if (getX s i).st = 6 then 0x0826 else 0x0820) 0 (advanceTo q.latest s)
    | none => s)

/-- The PA goes off: its bit falls and the time it was on is charged (R438). -/
def paOff (i : Nat) (t : NbTx) (s : State) : State :=
  let s := s.onOuts fun o => { o with nbPa := o.nbPa &&& ~~~(1 <<< i : BitVec 4) }
  charge (getX s i).ch (nowNs s - t.at_) s

/-- The closed loop of R426, from the mean error TXPWR less output in 0.01 dB. -/
def closeLoop (i : Nat) (err : Int) (s : State) : State :=
  let x := getX s i
  if x.mismatch || err.natAbs ≤ 25 then s
  else
    let c := x.corr + max (-50) (min 50 err)
    let s := onX i (fun x => { x with corr := max (-300) (min 300 c) }) s
    if 300 < c.natAbs then countX i 18 s else s

/-- NB_TX_DONE (R425, R426, R435): `err` is the mean error of the full-power part, where that lasts 100 µs or more. -/
def execNbTxDone (x : Fin 4) (err : Option Int) (s : State) : Out :=
  let i := x.val
  .next (match (getX s i).tx with
    | some t =>
      let tuner := decide (t.req.kind = .tuner)
      let live := ((getX s i).tune.map fun u => t.req.chan == some u.chan && !u.ended).getD false
      let n := ((getX s i).tune.map fun u => u.results.length).getD 0
      if t.sensing || (tuner && live && n != t.req.probes.length) then s
      else
        let s := paOff i t (advanceTo ((t.at_ + t.d : Nat)) s)
        let s := onX i (fun x => { x with st := 1 }) s
        let s := if tuner then s else
          let s := countX i 9 s
          let s := match err with
            | some e => closeLoop i e s
            | none => s
          let x := getX s i
          if 0 < x.rlN then clearMismatch i x.ch (x.rlSum / x.rlN) s else s
        endReq i t.req 0 (t.at_ + t.d - 1000 * (getX s i).ramp) s
    | none => s)

/-- NB_LOCK_LOSS (R427). -/
def execNbLockLoss (x : Fin 4) (s : State) : Out :=
  let i := x.val
  .next (match (getX s i).tx with
    | some t =>
      if t.sensing then s
      else endReq i t.req 0x0826 0 (onX i (fun x => { x with st := 5, tried := false }) (paOff i t s))
    | none => s)

/-- NB_RL_SAMPLE (R434): a sample each 50 µs from the end of the ramp-up, in 0.25 dB; in a burst, the next probe's result. -/
def execNbRlSample (x : Fin 4) (rl : Nat) (s : State) : Out :=
  let i := x.val
  .next (match (getX s i).tx with
    | none => s
    | some t =>
      if t.sensing then s
      else if t.req.kind = .tuner then
        let live := ((getX s i).tune.map fun u => t.req.chan == some u.chan && !u.ended && u.results.length < t.req.probes.length).getD false
        if !live then s
        else countX i 20 (onX i (fun x => { x with lastRl := min 254 rl, tune := x.tune.map fun u => { u with results := u.results ++ [rl] } }) s)
      else
        let x := getX s i
        let s := advanceTo ((t.at_ + 1000 * x.ramp + 50000 * x.rlN : Nat)) s
        let run := if rl < x.rlProtect then x.lowRun + 1 else 0
        let s := onX i (fun x => { x with lastRl := min 254 rl, rlSum := x.rlSum + rl, rlN := x.rlN + 1, lowRun := run }) s
        if run < 2 then s
        else if !x.folded then countX i 17 (onX i (fun x => { x with folded := true, lowRun := 0 }) s)
        else
          let s := if x.mismatch then s else raise 0x0880 none (le 1 i ++ le 1 x.ch ++ le 1 rl) (onX i (fun x => { x with mismatch := true }) s)
          endReq i t.req 0x0825 0 (onX i (fun x => { x with st := 1 }) (paOff i t s)))

/-! Synthesizers and hopping (R420 to R423). -/

/-- NB_SYNTH_LOCKED (R423). -/
def execNbSynthLocked (x : Fin 4) (s : State) : Out :=
  let i := x.val
  .next (onlyIf ((getX s i).st = 5 && (getX s i).ch < s.nb.count && domOn s 2) (fun s =>
    pump (nbMoves (onX i (fun x => { x with st := 1, tried := false }) s))) s)

/-- Every request of a FAILED transceiver ends with NB_LOCK (R423). -/
def failX (i : Nat) (s : State) : State :=
  let s := raise 0x0883 none (le 1 i) (onX i (fun x => { x with st := 6 }) s)
  let s := match (getX s i).handed, (getX s i).tx with
    | some q, _ => endReq i q 0x0826 0 s
    | none, some t => endReq i t.req 0x0826 0 s
    | none, none => s
  pump s

/-- NB_SYNTH_LOCK_TIMEOUT (R423): restarted once, then FAILED. -/
def execNbSynthLockTimeout (x : Fin 4) (s : State) : Out :=
  let i := x.val
  .next (onlyIf ((getX s i).st = 5 && domOn s 2) (fun s =>
    if (getX s i).tried then failX i s else onX i (fun x => { x with tried := true }) s) s)

/-- HOP_SLOT_START (R420, R421): the slot of the present beat, where it has not been taken up, else the next one. A channel check
that it meets goes back to waiting; a reception that it meets ends (log entry 30). -/
def execHopSlotStart (x : Fin 4) (s : State) : Out :=
  let i := x.val
  .next (onlyIf ((getX s i).hopping && (getX s i).enable && (getX s i).st != 6 && !hopHold s && domOn s 2) (fun s =>
    let x := getX s i
    let s := if x.slot = some (slotNow s x) then advanceTo (slotEnd s x) s else s
    let s := onX i (fun x => { x with slot := some (slotNow s x), collide := false }) s
    if x.st = 4 then onX i (fun x => { x with moveDue := true }) s
    else
      let s := match x.tx with
        | some t => onX i (fun x => { x with tx := none, handed := some t.req }) s
        | none => s
      retuneX i (assignedCh s (getX s i)) s) s)

/-! Reception (R429 to R432). -/

/-- The receiver of a transceiver listens: not transmitting, locked, not silenced, its detector not held. -/
def nbListens (s : State) (i : Nat) : Bool := nbFree s i && !(getX s i).held

/-- NB_PREAMBLE_DETECTED (R429): P_ref in 0.5 dBm. -/
def execNbPreambleDetected (x : Fin 4) (power : Int) (s : State) : Out :=
  let i := x.val
  .next (onlyIf (nbListens s i && (getX s i).st = 1) (fun s =>
    onX i (fun x => { x with st := 2, level := power, capLost := false, tx := x.tx.map fun t => { t with busy := true } }) s) s)

/-- NB_SYNC_TIMEOUT (R429). -/
def execNbSyncTimeout (x : Fin 4) (s : State) : Out :=
  let i := x.val
  .next (onlyIf ((getX s i).st = 2) (fun s => countX i 3 (onX i (fun x => { x with st := 1 }) s)) s)

/-- NB_RX_WINDOW_POWER (R430, R431): the power of a window of 4 Tb, in 0.5 dBm. -/
def execNbRxWindowPower (x : Fin 4) (power : Int) (s : State) : Out :=
  let i := x.val
  let y := getX s i
  .next (if y.st = 2 && y.level + 2 * (y.restartDb : Int) ≤ power then countX i 4 (onX i (fun x => { x with st := 1 }) s)
    else if y.st = 3 && y.level + 2 * (y.captureDb : Int) ≤ power then
      if y.capture then countX i 5 (onX i (fun x => { x with st := 1 }) s)
      else if y.capLost then s else countX i 6 (onX i (fun x => { x with capLost := true }) s)
    else s)

/-- A latched RSSI lies within -130 and 0 dBm (R429). -/
def clampRssi (r : Int) : Int := max (-260) (min 0 r)

/-- A PHR is in order (R417, R432): no mode switch, and a length from 1 byte beyond the FCS to 255. Bit 15 is the mode switch, bit
12 the FCS type, bits 10 to 0 the length, as IEEE 802.15.4 orders them (log entry 31). -/
def phrOk (phr : W16) : Bool :=
  !phr.getLsbD 15 && (phr.toNat % 2048 ≤ 255) && ((if phr.getLsbD 12 then 3 else 5) ≤ phr.toNat % 2048)

/-- NB_PHR_RECEIVED (R429, R432): the SFD has put the receiver in PAYLOAD with RSSI latched; a PHR out of order ends the
reception. -/
def execNbPhrReceived (x : Fin 4) (phr : W16) (rssi : Int) (s : State) : Out :=
  let i := x.val
  .next (onlyIf (nbListens s i && (getX s i).st = 2) (fun s =>
    let s := onX i (fun x => { x with st := 3, level := clampRssi rssi }) s
    if phrOk phr then s else countX i 2 (onX i (fun x => { x with st := 1 }) s)) s)

/-! Blanking (R442). -/

/-- A radio L0 to L3 is blanked: its transmission ends and is charged, a check goes back to waiting, a reception is abandoned, and
the detector is held. -/
def blankNb (i : Nat) (s : State) : State :=
  let s := onX i (fun x => { x with held := true }) s
  let x := getX s i
  match x.tx with
  | some t =>
    if t.sensing then onX i (fun x => { x with tx := none, handed := some t.req, st := if x.st = 2 || x.st = 3 then 1 else x.st }) (if x.st = 2 || x.st = 3 then countX i 8 s else s)
    else endReq i t.req 0x0824 0 (onX i (fun x => { x with st := 1 }) (paOff i t s))
  | none => if x.st = 2 || x.st = 3 then countX i 8 (onX i (fun x => { x with st := 1 }) s) else s

/-! Commands of the radio (R445, R446, R448, R449). -/

/-- The plan and an enabled transceiver suit each other (R418): the code of the error where they do not. -/
def planBad (s : State) (x : Xcvr) : Option Nat :=
  if s.nb.count = 0 then none
  else
    let w := x.carson2 * 1000
    let top := nbCentre s (s.nb.count - 1)
    if 4 * nbCentre s 0 < w + 4 * 750000000 || 4 * 960000000 < 4 * top + w then some 0x0802
    else if 2 * s.nb.spacing < w then some 0x0801
    else none

/-- NB_CONFIG (R445). -/
def specNbConfig : OpSpec where
  op := 0x0801
  modes := inModes [2, 3, 4, 5, 6]
  rsv c := c.flagsBelow 17 4 && c.zero [(23, 1), (33, 1), (36, 4)]
  needs _ := [2]
  body c s :=
    let i := c.u 16 1
    let f := c.u 17 1
    let bad := 3 < i || 2 < c.u 18 1 || c.u 19 1 < 4 || 32 < c.u 19 1 || c.u 20 2 < 10 || 300 < c.u 20 2 || 1 < c.u 22 1 ||
      c.i 24 1 < -20 || 40 < c.i 24 1 || c.u 25 1 < 2 || 64 < c.u 25 1 || c.i 28 1 < -110 || -60 < c.i 28 1 ||
      c.u 29 1 < 6 || 20 < c.u 29 1 || c.u 30 1 < 4 || 20 < c.u 30 1 || c.u 31 1 < 4 || 40 < c.u 31 1 ||
      c.u 32 1 < c.u 31 1 + 4 || 80 < c.u 32 1 || c.u 34 2 < 64 || 5000 < c.u 34 2
    let x := getX s i
    let y : Xcvr := { x with
      enable := bit f 0, capture := bit f 1, autoTune := bit f 2, whiten := bit f 3, mod := c.u 18 1, pre := c.u 19 1
      kbaud := c.u 20 2, fcs := c.u 22 1, txpwr := c.i 24 1, ramp := c.u 25 1, sfd := BitVec.ofNat 16 (c.u 26 2), ccaDbm := c.i 28 1
      restartDb := c.u 29 1, captureDb := c.u 30 1, rlProtect := c.u 31 1, rlGood := c.u 32 1, ccaUs := c.u 34 2 }
    if bad then (eArg, s)
    else match y.enable, planBad s y with
      | true, some e => (.err e, s)
      | _, _ =>
        if x.st = 4 then (eBusy, s)
        else
          let s := if x.st = 2 || x.st = 3 then countX i 7 s else s
          let st := if x.st = 6 then 6 else if !y.enable then 0 else if x.st = 0 || x.st = 5 then 5 else 1
          let s := onX i (fun x => { y with
            ctr := x.ctr, st, ch := if y.enable && x.st = 0 then assignedCh s x else x.ch
            tx := none, handed := (x.tx.map (·.req)) <|> x.handed, tried := x.tried && x.enable }) s
          (.ok, pump (collisions s))

/-- NB_CONFIG. -/
def execNbConfig (d : Doorbell) (p : List Byte) (s : State) : Out := command specNbConfig d p s

/-- The TUNE bytes of a transceiver (R446, R449). -/
def tuneBytes (s : State) (x : Xcvr) : List Byte :=
  (List.range 64).flatMap fun c => if c < s.nb.count then le 1 (codesOf x c).1 ++ le 1 (codesOf x c).2 else [Config.tuneByte c 0, Config.tuneByte c 1]

/-- NB_CHANNEL_PLAN (R419, R421, R437, R446). -/
def specNbChannelPlan : OpSpec where
  op := 0x0802
  modes := inModes [2, 3, 4, 5, 6]
  rsv c := if c.u 16 1 = 0 then c.zero [(18, 2), (28, 4)]
    else c.zero [(26, 2)] && c.zero ((List.range 64).filterMap fun k => if c.u 21 1 ≤ k then some (28 + k, 1) else none)
  needs _ := [2]
  body c s :=
    let n := c.u 17 1
    match c.u 16 1 with
    | 0 =>
      if n < 1 || 64 < n || c.u 20 4 < 750000 || 960000 < c.u 20 4 || c.u 24 4 < 12500 || 2000000 < c.u 24 4 then (eArg, s)
      else if s.nb.x.any (·.enable) then (eState, s)
      else
        let s := s.onNb fun b => { b with
          count := n, base := c.u 20 4, spacing := c.u 24 4
          x := b.x.map fun y => { y with codes := y.codes.filter (·.1 < n) } }
        (.ok, [192, 193, 194, 195].foldl (fun s i => onCC i (fun k => { k with due := (k.due ++ [0]).eraseDups }) s) s)
    | 1 =>
      let cnt := s.nb.count
      let x := getX s n
      let len := c.u 21 1
      let hop := c.u 18 1
      let seq := (List.range (min 64 len)).map fun k => c.u (28 + k) 1
      let codes := (List.range 64).map fun k => (c.u (92 + 2 * k) 1, c.u (93 + 2 * k) 1)
      let codeBad (v : Nat) : Bool := 31 < v && v != 0xFF
      let bad := 3 < n || 1 < hop || cnt ≤ c.u 19 1 || cnt ≤ c.u 20 1 || len < 1 || 64 < len || c.u 22 2 < 1 || 10000 < c.u 22 2 ||
        len ≤ c.u 24 2 || seq.any (cnt ≤ ·) || codes.any fun p => codeBad p.1 || codeBad p.2
      let clash := hop = 0 && x.enable && s.nb.x.zipIdx.any fun y => y.2 != n && y.1.enable && !y.1.hopping && y.1.fixedCh = c.u 19 1
      if bad || clash then (eArg, s)
      else if x.st = 4 then (eBusy, s)
      else
        let keep (v k : Nat) : Nat := if v = 0xFF then k else v
        let tuned := (codes.zipIdx.take cnt).foldl (fun (t : Tab (Nat × Nat)) p =>
          if p.1.1 = 0xFF && p.1.2 = 0xFF then t else Tab.set t p.2 (keep p.1.1 (codesOf x p.2).1, keep p.1.2 (codesOf x p.2).2)) x.codes
        let s := onX n (fun x => { x with
          hopping := hop = 1, fixedCh := c.u 19 1, vigilCh := c.u 20 1, hopBeats := c.u 22 2, hopOffset := c.u 24 2, hopSeq := seq, codes := tuned, slot := none }) s
        let s := onX n (fun x => { x with moveDue := x.enable && x.ch != assignedCh s x, ch := if x.enable then x.ch else assignedCh s x }) s
        (.ok, nbMoves s)
    | _ => (eArg, s)

/-- NB_CHANNEL_PLAN. -/
def execNbChannelPlan (d : Doorbell) (p : List Byte) (s : State) : Out := command specNbChannelPlan d p s

/-- TUNER_RUN (R448): it takes over from a tuning that the device began itself. -/
def specTunerRun : OpSpec where
  op := 0x0804
  rsv c := c.flagsBelow 17 1
  objs c := [.xcvr (c.u 16 1)]
  needs _ := [2]
  body c s :=
    let i := c.u 16 1
    let n := c.u 19 1
    if 3 < i || n < 1 || 64 < n || s.nb.count < c.u 18 1 + n then (eArg, s)
    else if !inModes [3, 4, 5] c s || !(getX s i).enable then (eState, s)
    else
      let t : Tune := { chan := c.u 18 1, last := c.u 18 1 + n - 1, fromCurrent := bit (c.u 17 1) 0 }
      (.pending, pump (tuneBegin i (onX i (fun x => { x with
        reqs := x.reqs.filter fun q => q.kind != .tuner
        handed := x.handed.filter fun q => q.kind != .tuner
        tune := some t }) s)))

/-- TUNER_RUN. -/
def execTunerRun (d : Doorbell) (p : List Byte) (s : State) : Out := command specTunerRun d p s

/-- TUNER_RUN_DONE (R448). -/
def execTunerRunDone (x : Fin 4) (s : State) : Out :=
  let i := x.val
  .next (match (getX s i).tune with
    | some t =>
      if !t.cmd || !t.ended then s
      else
        let s := onX i (fun x => { x with tune := none }) s
        let r := [t.tuned, t.poor, t.blocked, 0, t.worst, t.worstCh].map fun n => BitVec.ofNat 8 n
        let st := if 0 < t.blocked then 0x0804 else if 0 < t.poor then 0x0803 else 0
        endOp 0x0804 { status := st, data := r } s (fun c => c.u 16 1 == i)
    | none => s)

/-- NB_AUTO_TUNE_START (R435). -/
def execNbAutoTuneStart (x : Fin 4) (s : State) : Out :=
  let i := x.val
  let y := getX s i
  .next (onlyIf (nbFree s i && y.st = 1 && y.mismatch && y.autoTune && y.tune.isNone && y.tx.isNone && y.handed.isNone) (fun s =>
    pump (tuneBegin i (onX i (fun x => { x with tune := some { chan := x.ch, last := x.ch, fromCurrent := false, cmd := false } }) s))) s)

/-- TUNE_BURST_RETRY (R436). -/
def execTuneBurstRetry (x : Fin 4) (s : State) : Out :=
  let i := x.val
  .next (match (getX s i).tune with
    | some t => match t.retryAt with
      | some r =>
        let s := advanceTo r s
        let c := codesOf (getX s i) t.chan
        let probes := match t.best, t.fromCurrent with
          | some b, _ => tuneNear b.1
          | none, true => c :: tuneNear c
          | none, false => tuneGrid
        pump (tuneBurst i probes s)
      | none => s
    | none => s)

/-- TUNE_SEARCH_TIMEOUT (R436): the channel keeps its codes and counts as blocked. -/
def execTuneSearchTimeout (x : Fin 4) (s : State) : Out :=
  let i := x.val
  .next (match (getX s i).tune with
    | some t =>
      if t.ended then s
      else
        let s := advanceTo ((t.startNs + 2000000000 : Nat)) s
        let s := onX i (fun x => { x with
          reqs := x.reqs.filter fun q => q.kind != .tuner
          handed := x.handed.filter fun q => q.kind != .tuner
          tx := x.tx.filter fun u => !(u.sensing && u.req.kind = .tuner)
          tune := some { t with blocked := t.blocked + 1, retryAt := none } }) s
        pump (tuneNext i s)
    | none => s)

/-- NB_STATS (R449). -/
def specNbStats : OpSpec where
  op := 0x0805
  modes _ s := s.modes.mode != 7
  rsv c := c.flagsBelow 18 1 && c.zero [(19, 1)]
  needs _ := [2]
  body c s :=
    let i := c.u 16 1
    let x := getX s i
    if 3 < i || 1 < c.u 17 1 then (eArg, s)
    else
      -- VDD_NBPA is measured at the read
      let (mv, s) := s.draw 65536
      let data :=
        if c.u 17 1 = 1 then tuneBytes s x
        else
          let p := codesOf x x.ch
          le 1 x.st ++ le 1 (b2n x.mismatch + 2 * b2n x.hopping + 4 * b2n (blanked s (2 + i))) ++ le 1 x.ch ++ le 1 x.lastRl ++ le 1 p.1 ++ le 1 p.2 ++
          leI 2 (s.cal.nbTemp.getD i 0) ++ le 2 mv ++ [0, 0] ++ ctrBytes x.ctr ++ le 4 (dwellAt s x.ch (nowNs s) / 10 ^ 6)
      (.ok data, if bit (c.u 18 1) 0 then onX i (fun x => { x with ctr := zeroed x.ctr }) s else s)

/-- NB_STATS. -/
def execNbStats (d : Doorbell) (p : List Byte) (s : State) : Out := command specNbStats d p s

end Sys2Proof.Machine
end

