-- ==== Sys2Proof/Machine/Mladmer.lean ====
section
/-!
DEFINITION. The Mladmer MAC: receiving, delivery, the store, the seen-cache, relays, beacons and its commands (R452 to R479).
-/
namespace Sys2Proof.Machine

/-! Delivery (R469, R470). -/

/-- A packet waits for the parser (R480). -/
def toPath (p : Pkt) (s : State) : State := s.onCls fun c => { c with inq := c.inq ++ [p] }

/-- A narrowband record with KIND 0 (R470): its NODE is little-endian in host buffers and in network order in a datagram. -/
def nbRecord (net : Bool) (node x ch : Nat) (rssi : Int) (micOk flood : Bool) (head data : List Byte) : List Byte :=
  [1, 0] ++ (if net then be 2 node else le 2 node) ++ le 1 x ++ leI 1 (max (-128) (min 127 rssi)) ++ le 1 ch ++
  le 1 (b2n micOk + 2 * b2n flood) ++ head.take 12 ++ data

/-- The 16-bit one's complement sum of big-endian words. -/
def onesSum : List Byte → Nat
  | a :: b :: t => 256 * a.toNat + b.toNat + onesSum t
  | [a] => 256 * a.toNat
  | [] => 0

/-- The Internet checksum of a sum of words. -/
def inetSum (n : Nat) : Nat :=
  let f (n : Nat) := n / 65536 + n % 65536
  0xFFFF - f (f (f n))

/-- A UDP datagram of Foothill, as an Ethernet frame (R469). What the spec does not state of its headers is open (Config). -/
def udpFrame (s : State) (ident : Nat) (body : List Byte) : List Byte :=
  let m := s.mlad
  let port := be 2 m.port
  let len := 8 + body.length
  let macs := (List.range 12).map Config.udpMac
  let udp (src dst : List Byte) : List Byte :=
    let c := inetSum (onesSum (src ++ dst ++ be 2 17 ++ be 2 len ++ port ++ port ++ be 2 len ++ [0, 0] ++ body))
    port ++ port ++ be 2 len ++ be 2 (if c = 0 then 0xFFFF else c) ++ body
  if m.udp6 then
    macs ++ [0x86, 0xDD] ++ be 4 (0x60000000 + 1048576 * Config.udpTos.toNat + Config.udpFlow % 1048576) ++ be 2 len ++ [17, 64] ++
    m.srcIp ++ m.dstIp ++ udp m.srcIp m.dstIp
  else
    let src := m.srcIp.take 4
    let dst := m.dstIp.take 4
    let head (c : Nat) : List Byte := [0x45, Config.udpTos] ++ be 2 (20 + len) ++ be 2 ident ++ be 2 (if Config.udpDf then 0x4000 else 0) ++ [64, 17] ++ be 2 c ++ src ++ dst
    macs ++ [0x08, 0x00] ++ head (inetSum (onesSum (head 0))) ++ udp src dst

/-- A record goes to a PKT_RX ring. -/
def recToHost (ring node : Nat) (rec : List Byte) (flags t : Nat) (s : State) : State :=
  hostQueue ring { srcType := 4, reason := 3, srcId := node, flags, ts := t, bytes := rec } s

/-- An accepted DATA frame of a node is delivered by its DELIVER field (R469). Bits 0 and 1 of `flags` stand for DECRYPTED and MIC_OK
(R139). -/
def nbDeliver (node i : Nat) (rssi : Int) (t : Nat) (secured flood : Bool) (head data : List Byte) (s : State) : State :=
  match getNode s node with
  | none => s
  | some n =>
    let ch := (getX s i).ch
    if n.deliver = 0 then recToHost n.ring node (nbRecord false node i ch rssi secured flood head data) (if secured then 3 else 0) t s
    else
      let (ident, s) := s.draw 65536
      let f := udpFrame s ident (nbRecord true node i ch rssi secured flood head data)
      countMlad 25 (toPath { src := 7, srcId := 0xFFFF, bytes := f, ts := nowNs s } s)

/-! Receiving (R454 to R456, R464, R467, R472). -/

/-- The fields of a received frame. -/
structure NbHead where
  type : Nat
  ackReq : Bool
  secured : Bool
  flood : Bool
  mic8 : Bool
  ttl : Nat
  src : W32
  dst : W32
  seq : W16
deriving DecidableEq, Repr

/-- The header of a frame of 12 bytes or more (R450). -/
def nbHead (b : List Byte) : NbHead :=
  let fc := (byteAt b 0).toNat
  { type := fc % 8, ackReq := bit fc 3, secured := bit fc 4, flood := bit fc 6, mic8 := bit fc 7, ttl := (byteAt b 1).toNat
    src := BitVec.ofNat 32 (unBe (slice b 2 4)), dst := BitVec.ofNat 32 (unBe (slice b 6 4)), seq := BitVec.ofNat 16 (unBe (slice b 10 2)) }

/-- Bytes of the MIC. -/
def NbHead.mic (h : NbHead) : Nat := if !h.secured then 0 else if h.mic8 then 8 else 4

/-- Step 1 of R454, with R451 and R452. -/
def wellFormedNb (b : List Byte) : Bool :=
  let h := nbHead b
  12 ≤ b.length && [0, 1, 2].contains h.type && (!h.mic8 || h.secured) &&
  (if h.secured then 12 + h.mic + 4 ≤ b.length else true) && b.length ≤ 212 + h.mic && (!h.flood || h.ttl != 0) &&
  h.src != 0 && h.src != 0xFFFFFFFF

/-- The node with an address. -/
def nodeAt (s : State) (a : W32) : Option (Nat × Node) := s.mlad.nodes.find? fun e => e.2.addr == a

/-- What steps 5 to 7 of R454 find. -/
inductive NbVerdict where
  | drop
  | dup
  | ok (data : List Byte) (ctr : Option Nat)
deriving DecidableEq, Repr

/-- Steps 5 to 7 of R454 for a frame of a node: protection, MIC, replay (R453, R455). -/
def nbVerify (k : Nat) (n : Node) (b : List Byte) (t : Nat) (s : State) : NbVerdict × State :=
  let h := nbHead b
  if n.flags.getLsbD 3 && !h.secured then (.drop, countMlad 5 s)
  else if h.secured then
    let bad (s : State) : NbVerdict × State := (.drop, countNode k 3 (countMlad 6 s))
    if n.ks = 0xFFFF then bad s
    else match slotUse s n.ks [9, 10] false with
      | .inr c => bad (countCipher c s)
      | .inl x =>
        let ctr := unBe (slice b 12 4)
        let aad := b.take 1 ++ [0] ++ (b.drop 2).take 14
        match ccmOpen (slotKey x) (nbNonce aad) aad (b.drop 16) h.mic with
        | none => bad (countCipher 3 s)
        | some p =>
          if n.rxCtr < ctr then (.ok p (some ctr), s)
          else if ctr = n.rxCtr && h.seq = n.lastSeq then (.dup, countNode k 5 (countMlad 8 s))
          else (.drop, countNode k 4 (countMlad 7 (countCipher 4 s)))
  else
    let near := (n.lastAt.map fun a => decide (((t : Int) - a).natAbs < 2000000000)).getD false
    if h.type != 1 && h.seq = n.lastSeq && near then (.dup, countNode k 5 (countMlad 8 s))
    else (.ok (b.drop 12) none, s)

/-- The node's fields follow an accepted frame (R455). -/
def nbHeard (k i : Nat) (h : NbHead) (ctr : Option Nat) (rssi : Int) (t : Nat) (s : State) : State :=
  let ch := (getX s i).ch
  countNode k 0 (onNode k (fun n => { n with
    rxCtr := ctr.getD n.rxCtr
    lastSeq := if ctr.isNone && h.type = 1 then n.lastSeq else h.seq
    heard := t, lastAt := if ctr.isNone && h.type = 1 then n.lastAt else some t, rssi, lastX := i, lastCh := ch }) s)

/-- An ACK is queued (R456). -/
def ackReq (k i fin : Nat) (h : NbHead) (s : State) : State :=
  let e := fin + 1000000 - 1000 * (getX s i).ramp
  putReq i { kind := .ack, cca := false, earliest := e, latest := e + 200000
             frame := some { node := k, type := 1, secured := h.secured, mic8 := h.mic8, dst := h.src, seq := h.seq } } s

/-- The transceiver that waits for the ACK of a job or held frame is free. -/
def unhold (key : Nat) (s : State) : State := s.onNb fun n => { n with x := n.x.map fun x => if x.hold = some key then { x with hold := none } else x }

/-- An ACK of a node: it ends the wait it matches (R461, R464). -/
def nbAcked (k : Nat) (seq : W16) (t fin : Nat) (s : State) : State :=
  match s.mlad.jobs.find? fun e => e.2.frame.node == k && e.2.frame.seq == seq && e.2.st == .waitAck && decide (t ≤ e.2.wake) with
  | some e => unhold e.1 (s.onMlad fun m => { m with jobs := Tab.erase m.jobs e.1 })
  | none => match s.mlad.store.find? fun h => h.frame.node == k && h.frame.seq == seq && ((h.wake.map fun w => decide (t ≤ w)).getD false) with
    | some h => heldResult k h.key true 0 fin (unhold h.key s)
    | none => s

/-- A wake by a node with WAKE set (R179, R469). -/
def nbWake (k : Nat) (s : State) : State :=
  if ((getNode s k).map fun n => n.flags.getLsbD 1).getD false then wakeSource 1 k s else s

/-- A frame of a known node, not flooded, passes from step 5 on (R454). -/
def nbUnicast (k i : Nat) (b : List Byte) (rssi : Int) (t fin : Nat) (s : State) : State :=
  let h := nbHead b
  match getNode s k with
  | none => s
  | some n =>
    let direct := h.dst = s.mlad.gw
    let ack (s : State) : State := if h.ackReq && direct then ackReq k i fin h s else s
    match nbVerify k n b t s with
    | (.drop, s) => s
    | (.dup, s) => ack s
    | (.ok data ctr, s) =>
      let s := nbHeard k i h ctr rssi t s
      match h.type with
      | 1 => if direct then nbAcked k h.seq t fin s else s
      | 2 =>
        let s := nbWake k (countMlad 1 s)
        let sleepy := n.flags.getLsbD 0
        if h.ackReq && direct then ack (if sleepy then onNode k (fun n => { n with pollEnd := some fin }) s else s)
        else if sleepy then serviceStart k fin s else s
      | _ => ack (nbDeliver k i rssi t h.secured false b data (nbWake k (countMlad 0 s)))

/-- A flooded frame that is not for the gateway alone is relayed after its jitter (R467). -/
def relayFlood (i : Nat) (b : List Byte) (fin : Nat) (s : State) : State :=
  let h := nbHead b
  if (h.dst = s.mlad.gw && s.mlad.gw != 0) || !s.mlad.relay then s
  else if h.ttl = 1 then countMlad 22 s
  else
    let r := s.draw (s.mlad.jitter + 1)
    let g := b.take 1 ++ le 1 (h.ttl - 1) ++ b.drop 2
    r.2.onMlad fun m => { m with relays := m.relays ++ [{ xcvr := i, src := h.src, seq := h.seq, frame := g, t0 := fin + r.1 * 10 ^ 6 }] }

/-- A flooded frame of a known node is taken by its type (R467, R468). -/
def takeFlood (k i : Nat) (b : List Byte) (rssi : Int) (t fin : Nat) (sleepy : Bool) (data : List Byte) (s : State) : State :=
  let h := nbHead b
  match h.type with
  | 0 => nbDeliver k i rssi t h.secured true b data (countMlad 0 s)
  | 1 => if h.dst = s.mlad.gw && s.mlad.gw != 0 then nbAcked k h.seq t fin s else s
  | _ => if sleepy then serviceStart k fin (countMlad 1 s) else countMlad 1 s

/-- A flooded frame that the seen-cache does not know is delivered and relayed (R467, R472). -/
def nbFlooded (i : Nat) (b : List Byte) (rssi : Int) (t fin : Nat) (s : State) : State :=
  let h := nbHead b
  let mine := h.dst = s.mlad.gw && s.mlad.gw != 0
  let bc := h.dst = 0xFFFFFFFF
  match nodeAt s h.src with
  | none =>
    let s := countMlad 3 s
    let s := if !h.secured && h.type = 0 && s.mlad.unkHost && (mine || bc) then
        recToHost s.mlad.hostRing 0xFFFF (nbRecord false 0xFFFF i (getX s i).ch rssi false true b (b.drop 12)) 0 t s
      else s
    relayFlood i b fin s
  | some (k, n) =>
    -- steps 5 to 7 apply where the frame is delivered, or relayed for a known node
    if !(mine || bc) && !s.mlad.relay then s
    else match nbVerify k n b t s with
      | (.ok data ctr, s) =>
        if mine || bc then relayFlood i b fin (takeFlood k i b rssi t fin (n.flags.getLsbD 0) data (nbWake k (nbHeard k i h ctr rssi t s)))
        else relayFlood i b fin s
      | (_, s) => s

/-- The receive checks of R454 for a frame with its instant and its end. -/
def macRx (i : Nat) (b : List Byte) (rssi : Int) (t fin : Nat) (s : State) : State :=
  let h := nbHead b
  if !wellFormedNb b then countMlad 4 s
  else if !h.flood && (s.mlad.gw = 0 || (h.dst != s.mlad.gw && h.dst != 0xFFFFFFFF)) then countMlad 2 s
  else if h.flood then
    if s.mlad.seen.any fun e => e.src == h.src && e.seq == h.seq then
      countMlad 9 (s.onMlad fun m => { m with seen := m.seen.map fun e => if e.src = h.src && e.seq = h.seq then { e with ends := e.ends ++ [fin] } else e })
    else nbFlooded i b rssi t fin (see h.src h.seq s)
  else match nodeAt s h.src with
    | none =>
      let s := countMlad 3 s
      if !h.secured && h.type = 0 && s.mlad.unkHost then
        recToHost s.mlad.hostRing 0xFFFF (nbRecord false 0xFFFF i (getX s i).ch rssi false false b (b.drop 12)) 0 t s
      else s
    | some (k, _) => nbUnicast k i b rssi t fin s

/-- NB_FRAME_RECEIVED (R429, R432): the frame without its FCS, the type of its FCS by its PHR, whether the FCS matches, RSSI in
0.5 dBm and the frame's instant. -/
def execNbFrameReceived (x : Fin 4) (frame : List Byte) (fcs2 fcsOk : Bool) (rssi : Int) (t : Nat) (s : State) : Out :=
  let i := x.val
  .next (onlyIf (nbListens s i && ((getX s i).st = 2 || (getX s i).st = 3)) (fun s =>
    let fin := t + (getX s i).bits (8 * (2 + frame.length + if fcs2 then 2 else 4))
    let s := onX i (fun x => { x with st := 1 }) (advanceTo fin s)
    let s := if fcsOk then macRx i frame (clampRssi rssi) t fin (countX i 0 s) else countX i 1 s
    pump (nbMoves s)) s)

/-! Timers (R459, R461 to R463, R466 to R468). -/

/-- NB_ACK_TIMEOUT (R461, R464). -/
def execNbAckTimeout (job : Nat) (s : State) : Out :=
  .next (match Tab.get? s.mlad.jobs job, heldAt s job with
    | some j, _ => if j.st = .waitAck then pump (jobRetry job (unhold job (advanceTo j.wake s))) else s
    | none, some h => match h.wake with
      | some w => pump (heldResult h.frame.node job false h.last h.endNs (unhold job (advanceTo w s)))
      | none => s
    | none, none => s)

/-- NB_BACKOFF_EXPIRY (R461). -/
def execNbBackoffExpiry (job : Nat) (s : State) : Out :=
  .next (match Tab.get? s.mlad.jobs job with
    | some j =>
      if j.st != .backoff then s
      else
        let s := advanceTo j.wake s
        if j.until_ ≤ nowNs s then failJob job 2 s
        else pump (jobRequest job (onJob job (fun j => { j with k := j.k + 1 }) s))
    | none => s)

/-- Requests of a held frame that have not begun to transmit are withdrawn; the service goes on with the next frame. -/
def withdrawHeld (node key : Nat) (s : State) : State :=
  let mine (q : NbReq) : Bool := q.kind == .held && q.key == key
  let had := s.nb.x.any fun x => x.reqs.any mine || (x.handed.map mine).getD false || (x.tx.map fun t => t.sensing && mine t.req).getD false
  let s := s.onNb fun n => { n with x := n.x.map fun x => { x with
    reqs := x.reqs.filter fun q => !mine q
    handed := x.handed.filter fun q => !mine q
    tx := x.tx.filter fun t => !(t.sensing && mine t.req) } }
  match had, (getNode s node).bind (·.service) with
  | true, some (fails, e) => serviceNext node fails e s
  | _, _ => s

/-- HELD_FRAME_EXPIRY (R462). -/
def execHeldFrameExpiry (key : Nat) (s : State) : Out :=
  .next (match heldAt s key with
    | some h =>
      let s := advanceTo ((h.at_ + 10 ^ 9 * ((getNode s h.frame.node).map (·.holdS)).getD 60 : Nat)) s
      pump (withdrawHeld h.frame.node key (unhold key (dropHeld h 3 s)))
    | none => s)

/-- RELAY_JITTER_EXPIRY (R467). -/
def execRelayJitterExpiry (src : W32) (seq : W16) (s : State) : Out :=
  .next (match s.mlad.relays.find? fun r => r.src == src && r.seq == seq with
    | some r =>
      let s := advanceTo r.t0 s
      let s := s.onMlad fun m => { m with relays := m.relays.erase r }
      let copies := 1 + (((s.mlad.seen.find? fun e => e.src == src && e.seq == seq).map fun e => (e.ends.filter (· < r.t0)).length)).getD 0
      if 0 < s.mlad.suppress && s.mlad.suppress ≤ copies then countMlad 20 s
      else pump (putReq r.xcvr { kind := .relay, psdu := r.frame, earliest := r.t0, latest := r.t0 + 100000000 } s)
    | none => s)

/-- SEEN_ENTRY_EXPIRY (R466). -/
def execSeenEntryExpiry (src : W32) (seq : W16) (s : State) : Out :=
  .next (match s.mlad.seen.find? fun e => e.src == src && e.seq == seq with
    | some e => (advanceTo ((e.at_ + 10 ^ 9 * s.mlad.seenS : Nat)) s).onMlad fun m => { m with seen := m.seen.erase e }
    | none => s)

/-- NB_BEACON_INTERVAL (R468): each enabled transceiver queues a BEACON; one round takes one SEQ and one counter. -/
def execNbBeaconInterval (s : State) : Out :=
  .next (onlyIf (s.mlad.beaconEn && s.mlad.gw != 0 && nbLive s) (fun s =>
    let now := nowNs s
    let flags := b2n (decide (s.modes.mode = 3)) + 2 * b2n (decide (cadStateNow s != 1 && cadStateNow s != 5))
    let data := be 2 s.mlad.netId.toNat ++ be 4 ((((now : Int) - s.cad.epoch) / 10 ^ 9).emod (2 ^ 32)).toNat ++ le 1 flags ++ [0]
    let f : NbFrame := { node := 0xFFFF, type := 3, secured := s.mlad.groupKs != 0xFFFF, dst := 0xFFFFFFFF, seq := s.mlad.bcastSeq, data }
    let s := s.onMlad fun m => { m with bcastSeq := m.bcastSeq + 1 }
    let (f, s) := if f.wantsCtr && !ctrOver s 0xFFFF && !ctrWaits s 0xFFFF then takeCtr f s else (f, s)
    pump ((List.range 4).foldl (fun s i =>
      if (getX s i).enable then putReq i { kind := .beacon, frame := some f, earliest := now, latest := now + 10 ^ 9 } s else s) s)) s)

/-- Frames that waited for CTR_FLOOR take their counters (R459); copies of a broadcast share one. -/
def resumeFloor (s : State) : State :=
  (s.mlad.jobs.filter fun e => e.2.st == .waitFloor).foldl (fun s e =>
    let f := e.2.frame
    let sib := if f.node = 0xFFFF then (s.mlad.jobs.find? fun g => g.2.frame.node == 0xFFFF && g.2.frame.seq == f.seq && g.2.frame.counter.isSome).bind (·.2.frame.counter) else none
    if sib.isNone && ctrWaits s f.node then wantFloor s
    else
      let (g, s) := takeCtr { f with counter := sib } s
      jobRequest e.1 (onJob e.1 (fun j => { j with frame := g }) s)) s

/-- CTR_FLOOR_WRITE_DONE (R459). -/
def execCtrFloorWriteDone (s : State) : Out :=
  .next (onlyIf s.mlad.floorWriting (fun s =>
    let v := s.mlad.stored + 65536
    let s := (mramWrite 0x6FFF0 (le 8 v) s).onMlad fun m => { m with stored := v, floorWriting := false }
    pump (resumeFloor s)) s)

/-- HELD_STORE_MOVE_DONE (R463). -/
def execHeldStoreMoveDone (s : State) : Out :=
  .next (onlyIf (s.mlad.moving && dramReady s && s.modes.mode != 3) (fun s =>
    s.onMlad fun m => { m with moving := false, store := m.store.map fun h => { h with dram := true } }) s)

/-! Commands (R473 to R479). -/

/-- The modes of the Mladmer commands (R473). -/
def nbModes : Cmd → State → Bool := inModes [2, 3, 4, 5, 6]

/-- NODE_ADD (R474). -/
def specNodeAdd : OpSpec where
  op := 0x0810
  modes := nbModes
  rsv c := c.flagsBelow 18 4 && c.zero [(30, 2), (40, 8)]
  needs _ := [2]
  body c s :=
    let n := c.u 16 2
    let ks := c.u 24 2
    let addr : W32 := BitVec.ofNat 32 (c.u 20 4)
    if 8191 < n || (3 < c.u 19 1 && c.u 19 1 != 0xFF) || addr = 0 || addr = 0xFFFFFFFF || (8191 < ks && ks != 0xFFFF) || 1 < c.u 26 1 ||
        c.u 27 1 < 32 || 61 < c.u 27 1 || c.u 28 1 < 1 || 60 < c.u 28 1 || c.u 29 1 < 1 || 16 < c.u 29 1 then (eArg, s)
    else if (getNode s n).isSome || (nodeAt s addr).isSome then (.err 0x0805, s)
    else if ks != 0xFFFF && !(((Tab.get? s.cipher.slots ks).map fun x => (x.type = 9 || x.type = 10) && x.usage.getLsbD 0 && x.usage.getLsbD 1).getD false) then (eAuth, s)
    else
      let x : Node := { flags := BitVec.ofNat 4 (c.u 18 1), xcvr := c.u 19 1, addr, ks, deliver := c.u 26 1, ring := c.u 27 1, holdS := c.u 28 1,
                        heldMax := c.u 29 1, txCtr := max s.mlad.floor (c.u 32 4), rxCtr := c.u 36 4 }
      (.ok, s.onMlad fun m => { m with nodes := Tab.set m.nodes n x })

/-- NODE_ADD. -/
def execNodeAdd (d : Doorbell) (p : List Byte) (s : State) : Out := command specNodeAdd d p s

/-- Requests that wait for a node are withdrawn. -/
def dropReqs (node : Nat) (s : State) : State :=
  let mine (q : NbReq) : Bool := (q.frame.map fun f => f.node == node).getD false
  s.onNb fun n => { n with x := n.x.map fun x => { x with
    reqs := x.reqs.filter fun q => !mine q
    handed := x.handed.filter fun q => !mine q
    tx := x.tx.filter fun t => !(t.sensing && mine t.req) } }

/-- NODE_REMOVE (R475). -/
def specNodeRemove : OpSpec where
  op := 0x0811
  modes := nbModes
  rsv c := c.zero [(18, 2)]
  needs _ := [2]
  body c s :=
    let n := c.u 16 2
    if 8191 < n then (eArg, s)
    else if (getNode s n).isNone then (.err 0x0806, s)
    else
      let held := s.mlad.store.filter fun h => h.frame.node == n
      let jobs := s.mlad.jobs.filter fun e => e.2.frame.node == n
      let s := dropReqs n s
      let s := held.foldl (fun s h => unhold h.key (dropHeld h 6 s)) s
      let s := jobs.foldl (fun s e => unhold e.1 (failJob e.1 6 s)) s
      (.ok, pump (s.onMlad fun m => { m with nodes := Tab.erase m.nodes n }))

/-- NODE_REMOVE. -/
def execNodeRemove (d : Doorbell) (p : List Byte) (s : State) : Out := command specNodeRemove d p s

/-- NODE_GET (R476). -/
def specNodeGet : OpSpec where
  op := 0x0812
  modes := nbModes
  rsv c := c.zero [(19, 1)]
  needs _ := [2]
  body c s :=
    let n := c.u 16 2
    if 8191 < n || 1 < c.u 18 1 then (eArg, s)
    else match getNode s n with
      | none => (.err 0x0806, s)
      | some x =>
        (.ok (if c.u 18 1 = 0 then
            le 2 n ++ le 1 x.flags.toNat ++ le 1 x.xcvr ++ le 4 x.addr.toNat ++ le 2 x.ks ++ le 1 x.deliver ++ le 1 x.ring ++ le 1 x.holdS ++ le 1 x.heldMax ++
            [0, 0] ++ le 4 (min 0xFFFFFFFF x.txCtr) ++ le 4 x.rxCtr ++ List.replicate 8 0
          else
            le 8 x.heard ++ leI 1 (max (-128) (min 127 x.rssi)) ++ le 1 x.lastX ++ le 1 x.lastCh ++
            le 1 (min 255 (s.mlad.store.filter fun h => h.frame.node == n).length) ++ le 2 x.txSeq.toNat ++ le 2 x.lastSeq.toNat ++ ctrBytes x.ctr), s)

/-- NODE_GET. -/
def execNodeGet (d : Doorbell) (p : List Byte) (s : State) : Out := command specNodeGet d p s

/-- NB_SEND (R477). -/
def specNbSend : OpSpec where
  op := 0x0813
  modes := nbModes
  rsv c := c.flagsBelow 18 5 && c.zero [(21, 1), (25, 3)]
  needs _ := [2]
  body c s :=
    let n := c.u 24 1
    if c.par.length != 20 + n then (eArg, s)
    else
      let (st, seq, s) := nbSend (c.u 16 2) (c.u 18 1) (c.u 19 1) (c.u 20 1) (c.u 22 2) (c.bytes 36 n) (BitVec.ofNat 64 (c.u 28 8)) s
      (if st = 0 then .ok (le 2 seq.toNat) else .err st, s)

/-- NB_SEND. -/
def execNbSend (d : Doorbell) (p : List Byte) (s : State) : Out := command specNbSend d p s

/-- FLOOD_CONFIG (R478). -/
def specFloodConfig : OpSpec where
  op := 0x0814
  modes := nbModes
  rsv c := c.flagsBelow 22 4
  needs _ := [2]
  body c s :=
    let gw : W32 := BitVec.ofNat 32 (c.u 16 4)
    let f := c.u 22 1
    let ks := c.u 28 2
    if gw = 0xFFFFFFFF || c.u 23 1 = 1 || 15 < c.u 23 1 || 20 < c.u 24 1 || c.u 25 1 < 1 || 32 < c.u 25 1 || c.u 26 1 < 1 ||
        c.u 27 1 < 32 || 61 < c.u 27 1 || (8191 < ks && ks != 0xFFFF) then (eArg, s)
    else (.ok, s.onMlad fun m => { m with
      gw, netId := BitVec.ofNat 16 (c.u 20 2), relay := bit f 0, unkHost := bit f 1, udp6 := bit f 2, beaconEn := bit f 3, suppress := c.u 23 1
      jitter := c.u 24 1, seenS := c.u 25 1, beaconS := c.u 26 1, hostRing := c.u 27 1, groupKs := ks, port := c.u 30 2
      srcIp := c.bytes 32 16, dstIp := c.bytes 48 16 })

/-- FLOOD_CONFIG. -/
def execFloodConfig (d : Doorbell) (p : List Byte) (s : State) : Out := command specFloodConfig d p s

/-- HELD_STATUS (R479). -/
def specHeldStatus : OpSpec where
  op := 0x0815
  modes := nbModes
  rsv c := c.flagsBelow 19 (if c.u 18 1 = 1 then 1 else 0)
  needs _ := [2]
  body c s :=
    let n := c.u 16 2
    match c.u 18 1 with
    | 0 =>
      if 8191 < n then (eArg, s)
      else if (getNode s n).isNone then (.err 0x0806, s)
      else
        let l := s.mlad.store.filter fun h => h.frame.node == n
        (.ok (le 1 l.length ++ [0, 0, 0] ++ l.flatMap fun h =>
          le 2 h.frame.seq.toNat ++ le 1 h.attempts ++ [0] ++ le 4 ((nowNs s - h.at_) / 10 ^ 6) ++ le 8 h.cookie.toNat), s)
    | 1 =>
      (.ok (le 4 s.mlad.store.length ++ le 4 (storeCap s) ++ ctrBytes s.mlad.ctr),
        if bit (c.u 19 1) 0 then s.onMlad fun m => { m with ctr := zeroed m.ctr } else s)
    | _ => (eArg, s)

/-- HELD_STATUS. -/
def execHeldStatus (d : Doorbell) (p : List Byte) (s : State) : Out := command specHeldStatus d p s

end Sys2Proof.Machine
end

