-- ==== Sys2Proof/Machine/ColBase.lean ====
section
/-!
DEFINITION. Col's tasks, flags, packet queues and trace (R591 to R596, R604).
-/
namespace Sys2Proof.Machine

/-- Count in the counters of Col and Massif (R613). -/
def countCol (i : Nat) (s : State) (k : Nat := 1) : State := s.onCol fun c => { c with ctr := bump c.ctr i k }

/-- Count in the counters of the parser and classifier (R502). -/
def countCls (i : Nat) (s : State) (k : Nat := 1) : State := s.onCls fun c => { c with ctr := bump c.ctr i k }

/-- A configured task. -/
def getTask (s : State) (n : Nat) : Option Task := Tab.get? s.col.tasks n

/-- Replace a configured task by its image; the instant at which it becomes ready is kept. -/
def onTask (n : Nat) (f : Task → Task) (s : State) : State :=
  match getTask s n with
  | some t =>
    let u := f t
    let u := if !taskReady s.col t && taskReady s.col u then { u with readyNs := nowNs s } else u
    s.onCol fun c => { c with tasks := Tab.set c.tasks n u }
  | none => s

/-- A trace record (R604). KIND: 0 dispatch, 1 return, 2 fault, 3 overrun, 4 queue drop, 5 release, 6 released as drop. -/
def traceRec (task core kind flags wait prio : Nat) (s : State) : State :=
  if s.col.observe != 1 || s.modes.mode = 3 then s
  else if s.col.freeze || s.col.full then
    countCol 6 (s.onCol fun c => { c with lost := c.lost + 1 })
  else
    let r := le 4 (nowNs s) ++ le 2 task ++ le 1 core ++ le 1 kind ++ le 4 flags ++ le 2 (min 65535 wait) ++ le 1 (prio % 8) ++ le 1 s.col.seq
    let w := (s.col.wr + 1) % 65536
    let fill := !s.col.wrap && w = 0
    let s := s.onCol fun c => { c with trace := Tab.set c.trace c.wr r, wr := w, seq := (c.seq + 1) % 256, full := fill }
    if fill then raise 0x0D83 none (le 2 w) s else s

/-- A trace record whose WAIT the spec does not state: it is open. -/
def traceOpen (task core kind flags prio : Nat) (s : State) : State :=
  let (w, s) := s.draw 65536
  traceRec task core kind flags w prio s

/-- The flag bits of a task bound to a source and parameter. -/
def Task.bound (t : Task) (source param : Nat) : W64 :=
  t.binds.foldl (fun f b => if b.1 = source && b.2.2 = param then f ||| (1 <<< b.2.1 : BitVec 64) else f) 0

/-- While a task's packet queue is not empty its PACKET flags are set (R592). -/
def Task.repacket (t : Task) : Task := if t.queue.isEmpty then t else { t with flags := t.flags ||| t.bound 3 0 }

/-- A packet reaches a task (R491, R595). -/
def colPacket (n : Nat) (p : ColPkt) (s : State) : State :=
  match getTask s n with
  | none => countCls 24 s
  | some t =>
    if s.modes.mode = 3 then countCls 24 s
    else if t.qdepth ≤ t.queue.length then
      -- no core has taken the packet: CORE of the record is open
      let (c, s) := s.draw 32
      countCol 3 (traceOpen n c 4 0 t.prio s)
    else noteLow (onTask n (fun t => Task.repacket { t with queue := t.queue ++ [{ p with at_ := nowNs s }] }) s)

end Sys2Proof.Machine
end

