-- ==== Sys2Proof/Machine/Parse.lean ====
section
/-!
DEFINITION. The parser: layouts, exceptions, the key, the payload window and the flow hash (R482 to R488).
-/
namespace Sys2Proof.Machine

/-- The big-endian field of k bytes at an offset. -/
def beAt (b : List Byte) (off k : Nat) : Nat := unBe (slice b off k)

/-- What the parser finds. -/
structure Parsed where
  layout : Nat := 0
  /-- exception bits (R484) -/
  exc : Nat := 0
  frag : Bool := false
  nonfirst : Bool := false
  tagged : Bool := false
  tci : Nat := 0
  etype : Nat := 0
  /-- a good IPv4 or IPv6 header: its offset, and the length of the packet from it on -/
  l3 : Option Nat := none
  l3len : Nat := 0
  proto : Nat := 0
  tos : Nat := 0
  ttl : Nat := 0
  sip : List Byte := List.replicate 16 0
  dip : List Byte := List.replicate 16 0
  /-- a good UDP or TCP header: its offset -/
  l4 : Option Nat := none
  sport : Nat := 0
  dport : Nat := 0
  aux : List Byte := [0, 0]
deriving DecidableEq, Repr

/-- IP protocols of UNKNOWN_ENC. -/
def encProtos : List Nat := [4, 41, 47, 97, 115]

/-- IPv6 next headers of IPV6_EXT. -/
def extHeaders : List Nat := [0, 43, 44, 51, 60, 135, 139, 140, 253, 254]

/-- Set an exception bit. -/
def Parsed.withExc (p : Parsed) (k : Nat) : Parsed := { p with exc := p.exc ||| 2 ^ k }

/-- The L4 header of an IP packet (R482, R484): base is the layout of the IP packet without L4, v6 its family. -/
def parseL4 (m : Mlad) (b : List Byte) (v6 : Bool) (l4 : Nat) (p : Parsed) : Parsed :=
  let fin := (p.l3.getD 0) + p.l3len
  let t := b2n p.tagged
  if p.proto = 17 then
    if fin < l4 + 8 then p.withExc 3
    else
      let dport := beAt b (l4 + 2) 2
      let mine := dport = m.port && (if v6 then m.udp6 && p.dip = m.srcIp else !m.udp6 && p.dip.take 4 = m.srcIp.take 4)
      let p := { p with l4 := some l4, sport := beAt b l4 2, dport, layout := if mine then 14 else (if v6 then 10 else 4) + t
                        aux := if mine then slice b (l4 + 10) 2 else [0, 0] }
      if dport = 4789 || dport = 6081 then p.withExc 4 else p
  else if p.proto = 6 then
    if fin < l4 + 20 || fin < l4 + 4 * ((byteAt b (l4 + 12)).toNat / 16) then p.withExc 3
    else { p with l4 := some l4, sport := beAt b l4 2, dport := beAt b (l4 + 2) 2, layout := (if v6 then 12 else 6) + t, aux := [byteAt b (l4 + 13), 0] }
  else if encProtos.contains p.proto then p.withExc 4
  else p

/-- An IPv4 packet. -/
def parseV4 (m : Mlad) (b : List Byte) (o : Nat) (p : Parsed) : Parsed :=
  let ihl := (byteAt b o).toNat % 16
  let total := beAt b (o + 2) 2
  if (byteAt b o).toNat / 16 != 4 || ihl < 5 || b.length < o + 4 * ihl || onesSum (slice b o (4 * ihl)) % 65535 != 0 ||
      total < 4 * ihl || b.length < o + total then p.withExc 3
  else
    let frag := beAt b (o + 6) 2
    let p := { p with
      layout := 2 + b2n p.tagged, l3 := some o, l3len := total, tos := (byteAt b (o + 1)).toNat, ttl := (byteAt b (o + 8)).toNat
      proto := (byteAt b (o + 9)).toNat, sip := slice b (o + 12) 4 ++ List.replicate 12 0, dip := slice b (o + 16) 4 ++ List.replicate 12 0
      frag := frag % 8192 != 0 || bit frag 13, nonfirst := frag % 8192 != 0 }
    if 5 < ihl then p.withExc 0
    else if p.frag then (if encProtos.contains p.proto then p.withExc 4 else p)
    else parseL4 m b false (o + 20) p

/-- An IPv6 packet. -/
def parseV6 (m : Mlad) (b : List Byte) (o : Nat) (p : Parsed) : Parsed :=
  let plen := beAt b (o + 4) 2
  if b.length < o + 40 + plen then p.withExc 3
  else
    let p := { p with
      layout := 8 + b2n p.tagged, l3 := some o, l3len := 40 + plen, tos := beAt b o 2 / 16 % 256, ttl := (byteAt b (o + 7)).toNat
      proto := (byteAt b (o + 6)).toNat, sip := slice b (o + 8) 16, dip := slice b (o + 24) 16 }
    if extHeaders.contains p.proto then p.withExc 1 else parseL4 m b true (o + 40) p

/-- The parser. -/
def parse (m : Mlad) (b : List Byte) : Parsed :=
  let e1 := beAt b 12 2
  let tags := [0x8100, 0x88A8, 0x9100]
  if e1 = 0x88A8 || e1 = 0x9100 then ({ etype := e1 } : Parsed).withExc 2
  else
    let tagged := e1 = 0x8100
    let e := if tagged then beAt b 16 2 else e1
    let o := if tagged then 18 else 14
    let p : Parsed := { layout := b2n tagged, tagged, tci := if tagged then beAt b 14 2 else 0, etype := e }
    if tagged && tags.contains e then p.withExc 2
    else if e = 0x0800 then parseV4 m b o p
    else if e = 0x86DD then parseV6 m b o p
    else if e = 0x8847 || e = 0x8848 then p.withExc 4
    else p

/-- The key (R485). -/
def keyOf (p : Pkt) (q : Parsed) : List Byte :=
  le 1 q.layout ++ le 1 p.src ++ le 1 q.exc ++ le 1 (b2n q.frag + 2 * b2n q.nonfirst + 4 * b2n p.matched.isSome + 8 * b2n p.skipped) ++
  slice p.bytes 0 12 ++ be 2 q.tci ++ be 2 q.etype ++ le 1 q.proto ++ le 1 q.tos ++ le 1 q.ttl ++ [0] ++ q.sip ++ q.dip ++
  be 2 q.sport ++ be 2 q.dport ++ q.aux ++ be 2 p.srcId

/-! The payload matcher (R486). -/

/-- The window of a packet that the matcher inspects. -/
def windowOf (b : List Byte) (q : Parsed) : List Byte :=
  match q.l4 with
  | some o =>
    let start := if q.proto = 17 then o + 8 else o + 4 * ((byteAt b (o + 12)).toNat / 16)
    let fin := (q.l3.getD 0) + q.l3len
    slice b start (min 512 (fin - start))
  | none => []

/-- The matcher inspects the packet. -/
def inspects (s : State) (p : Pkt) (q : Parsed) : Bool :=
  ((4 ≤ q.layout && q.layout ≤ 7) || (10 ≤ q.layout && q.layout ≤ 13)) && !q.frag && bit s.cls.inspect p.src

/-- A pattern matches at an offset of a window. -/
def Pattern.at (t : Pattern) (w : List Byte) (o : Nat) : Bool :=
  o + t.data.length ≤ w.length && (List.range t.data.length).all fun i =>
    byteAt w (o + i) &&& byteAt t.mask i == byteAt t.data i &&& byteAt t.mask i

/-- A pattern matches a window. -/
def Pattern.hits (t : Pattern) (w : List Byte) : Bool :=
  if t.anchored then t.at w t.anchor else (List.range (w.length + 1)).any (t.at w)

/-- The match bits of a packet, as the list of the patterns that match. -/
def matchBits (s : State) (w : List Byte) : List Nat := (s.cls.patterns.filter fun e => e.2.hits w).map (·.1)

/-! The flow hash (R488). -/

/-- FLOW_HASH of a packet. -/
def flowHash (s : State) (b : List Byte) (q : Parsed) : W32 :=
  let x (u v t : List Byte) : W32 :=
    let (lo, hi) := if unBe u ≤ unBe v then (u, v) else (v, u)
    BitVec.ofNat 32 (crc32c s.cls.seed.toNat (lo ++ hi ++ t ++ be 2 (q.tci % 4096)))
  if 2 ≤ q.layout && q.layout ≤ 14 then x (q.sip ++ be 2 q.sport) (q.dip ++ be 2 q.dport) (le 1 q.proto)
  else if q.layout ≤ 1 then x (slice b 6 6) (slice b 0 6) (be 2 q.etype)
  else 0

end Sys2Proof.Machine
end

