-- ==== Sys2Proof/Machine/FwdTab.lean ====
section
/-!
DEFINITION. The forwarding tables: buckets, the L2 table, routes, the prefix-length filter, pinned entries, table updates on the
ring (R507 to R529).
-/
namespace Sys2Proof.Machine

/-- Count in the counters of the forwarding engine (R540): they saturate, but PROBES and LOOKUPS wrap. -/
def countFwd (i : Nat) (s : State) (k : Nat := 1) : State :=
  s.onFwd fun f => { f with ctr := f.ctr.modify i fun n => if i = 12 || i = 13 then (n + k) % 2 ^ 32 else satAdd 32 n k }

/-! Buckets (R507, R508). -/

/-- A bucket of a table. -/
def bucketAt {α : Type} (t : Tab (Bucket α)) (b : Nat) : Bucket α := Tab.getD t b {}

/-- A bucket is written; an empty one without OVF is not listed. -/
def putBucket {α : Type} (t : Tab (Bucket α)) (b : Nat) (x : Bucket α) : Tab (Bucket α) :=
  if x.slots.isEmpty && !x.ovf then Tab.erase t b else Tab.set t b x

/-- The entry of a bucket that satisfies a test, with its slot. -/
def Bucket.find {α : Type} (x : Bucket α) (p : α → Bool) : Option (Nat × α) := x.slots.find? fun e => p e.2

/-- A search of b1, then of b2 where b1 has OVF and no match: bucket, slot and entry, and the probes made. -/
def probe {α : Type} (t : Tab (Bucket α)) (b1 b2 : Nat) (p : α → Bool) : Option (Nat × Nat × α) × Nat :=
  match (bucketAt t b1).find p with
  | some (i, e) => (some (b1, i, e), 1)
  | none =>
    if (bucketAt t b1).ovf then match (bucketAt t b2).find p with
      | some (i, e) => (some (b2, i, e), 2)
      | none => (none, 2)
    else (none, 1)

/-- An entry is placed in a free slot of b1, else of b2, which sets OVF on b1. -/
def placeEntry {α : Type} (t : Tab (Bucket α)) (b1 b2 : Nat) (e : α) : Option (Tab (Bucket α)) :=
  let free (x : Bucket α) : Option Nat := (List.range 4).find? fun i => (Tab.get? x.slots i).isNone
  match free (bucketAt t b1) with
  | some i => let x := bucketAt t b1; some (putBucket t b1 { x with slots := Tab.set x.slots i e })
  | none => match free (bucketAt t b2) with
    | some i =>
      let x := bucketAt t b2
      let t := putBucket t b2 { x with slots := Tab.set x.slots i e }
      some (putBucket t b1 { bucketAt t b1 with ovf := true })
    | none => none

/-- The entry in a slot is replaced. -/
def setSlot {α : Type} (t : Tab (Bucket α)) (b i : Nat) (e : α) : Tab (Bucket α) :=
  let x := bucketAt t b
  putBucket t b { x with slots := Tab.set x.slots i e }

/-- A slot is emptied. -/
def clearSlot {α : Type} (t : Tab (Bucket α)) (b i : Nat) : Tab (Bucket α) :=
  let x := bucketAt t b
  putBucket t b { x with slots := Tab.erase x.slots i }

/-- All entries of a table, with bucket and slot. -/
def entriesOf {α : Type} (t : Tab (Bucket α)) : List (Nat × Nat × α) := t.flatMap fun b => b.2.slots.map fun e => (b.1, e.1, e.2)

/-! Pins (R405, R523, R524). -/

/-- A flow holds the L2 entry of a key. -/
def heldL2 (s : State) (mac vid : Nat) : Bool :=
  s.air.bfs.any fun e => e.2.p.pinKind = 1 && e.2.p.pinVlan = vid && unBe (e.2.p.pinKey.take 6) = mac

/-- A number's highest bits of a width, the others 0. -/
def maskTo (w l a : Nat) : Nat := a / 2 ^ (w - l) * 2 ^ (w - l)

/-- Bits of an address of a family: 0 IPv4, 1 IPv6. -/
def famBits (f : Nat) : Nat := if f = 0 then 32 else 128

/-- A flow holds a route. -/
def heldRoute (s : State) (f plen pre : Nat) : Bool :=
  s.air.bfs.any fun e => e.2.p.pinKind = 2 + f && e.2.p.pinPlen = plen && unBe (e.2.p.pinKey.take (famBits f / 8)) = pre

/-- An L2 entry is pinned. -/
def l2Pinned (s : State) (e : L2e) : Bool := e.type = 6 || e.pin || heldL2 s e.mac e.vid

/-- All routes of a family. -/
def routesOf (s : State) (f : Nat) : List Route :=
  (s.fwd.zero.getD f none).toList ++ (entriesOf (if f = 0 then s.fwd.v4 else s.fwd.v6)).map (·.2.2)

/-- A route lies within another. -/
def Route.within (f : Nat) (r q : Route) : Bool := q.plen ≤ r.plen && maskTo (famBits f) q.plen r.pre = q.pre

/-- A route is pinned: itself, or as one within a pinned route. -/
def routePinned (s : State) (f : Nat) (r : Route) : Bool :=
  (routesOf s f).any fun q => (q.pin || heldRoute s f q.plen q.pre) && r.within f q

/-- Places taken in the pinned table. -/
def pinnedUsed (s : State) : Nat :=
  ((entriesOf s.fwd.l2).filter fun e => l2Pinned s e.2.2).length +
  sumOf ([0, 1].map fun f => ((routesOf s f).filter (routePinned s f)).length)

/-! The L2 table (R507 to R509). -/

/-- A candidate bucket of a key. -/
def l2Bucket (i mac vid : Nat) : Nat := Config.l2Hash i mac vid % 65536

/-- The entry with a key. -/
def l2Find (s : State) (mac vid : Nat) : Option (Nat × Nat × L2e) :=
  (probe s.fwd.l2 (l2Bucket 1 mac vid) (l2Bucket 2 mac vid) fun e => e.mac = mac && e.vid = vid).1

/-- The table takes a new entry, if it can. -/
def l2Place (e : L2e) (s : State) : Option State :=
  if 131072 ≤ s.fwd.l2n then none
  else (placeEntry s.fwd.l2 (l2Bucket 1 e.mac e.vid) (l2Bucket 2 e.mac e.vid) e).map fun t => s.onFwd fun f => { f with l2 := t, l2n := f.l2n + 1 }

/-- The source cache forgets a key whose table entry is written or removed (R511). -/
def forgetSrc (mac vid : Nat) (s : State) : State := s.onFwd fun f => { f with src := f.src.filter fun h => !(h.mac = mac && h.vid = vid) }

/-- An entry is written over another. -/
def l2Set (b i : Nat) (e : L2e) (s : State) : State := forgetSrc e.mac e.vid (s.onFwd fun f => { f with l2 := setSlot f.l2 b i e })

/-- An entry is removed. -/
def l2Del (b i : Nat) (e : L2e) (s : State) : State :=
  forgetSrc e.mac e.vid (s.onFwd fun f => { f with l2 := clearSlot f.l2 b i, l2n := f.l2n - 1 })

/-- The destination type and index that a bridge port stands for (R510). -/
def srcDest (src srcId : Nat) : Nat × Nat := if src ≤ 4 then (1, src) else if src ≤ 6 then (3, srcId) else (2, srcId)

/-! Table updates on the ring (R526, R528, R674). -/

/-- A forwarding command, as a table update carries it. -/
def updateBody (op : Nat) (par : List Byte) : List Byte := le 2 op ++ [0, 0, 0, 0] ++ le 2 par.length ++ List.replicate 8 0 ++ par

/-- The device is in a ring. -/
def ringOn (s : State) : Bool := s.ring.st = 2

/-- A table update goes to every other device of the ring. -/
def sendUpdate (op : Nat) (par : List Byte) (s : State) : State :=
  if ringOn s then countFwd 19 (ringSend 5 0x0F 3 0 (updateBody op par) s) else s

/-- An entry that the device has learned, moved, hit or aged out is announced: as L2_ADD or L2_REMOVE with SYNC clear (R528). -/
def announce (op : Nat) (e : L2e) (s : State) : State :=
  if s.fwd.ringLearn && !e.static && !e.remote && (e.type = 1 || e.type = 2) && ringOn s then
    ringSend 5 0x0F 3 0 (updateBody op (be 6 e.mac ++ le 2 e.vid ++ (if op = 0x0A01 then le 1 e.type ++ [0] ++ le 2 e.dest ++ List.replicate 4 0 else List.replicate 4 0))) s
  else s

/-! Learning (R510, R511). -/

/-- The cache takes a confirmed triple; the oldest is evicted and writes its HIT into its table entry. -/
def cacheSrc (h : SrcHit) (s : State) : State :=
  let l := h :: s.fwd.src
  match l.getLast?, decide (32768 < l.length) with
  | some o, true =>
    let s := s.onFwd fun f => { f with src := l.dropLast }
    match l2Find s o.mac o.vid, o.hit with
    | some (b, i, e), true => s.onFwd fun f => { f with l2 := setSlot f.l2 b i { e with hit := true } }
    | _, _ => s
  | _, _ => s.onFwd fun f => { f with src := l }

/-- learn(): the entry's destination is given, and whether it is the ring's announcement of a remote one. -/
def learnAs (mac vid type dest : Nat) (remote : Bool) (s : State) : State :=
  if s.fwd.src.any fun h => h.mac = mac && h.vid = vid && h.type = type && h.dest = dest then
    s.onFwd fun f => { f with src := f.src.map fun h => if h.mac = mac && h.vid = vid then { h with hit := true } else h }
  else match l2Find s mac vid with
    | none =>
      let e : L2e := { mac, vid, static := false, hit := true, type, dest, remote }
      match l2Place e s with
      | some t => announce 0x0A01 e (countFwd 0 (forgetSrc mac vid t))
      | none =>
        let s := (countFwd 1 s).onFwd fun f => { f with fullN := f.fullN + 1 }
        if s.fwd.fullRaised then s
        else raise 0x0A80 none (le 2 vid ++ [0, 0] ++ le 4 s.fwd.fullN) (s.onFwd fun f => { f with fullRaised := true })
    | some (b, i, e) =>
      let same := e.type = type && e.dest = dest
      if e.static then (if same then s else countFwd 3 s)
      else if same then
        cacheSrc { mac, vid, type, dest } (s.onFwd fun f => { f with l2 := setSlot f.l2 b i { e with hit := true } })
      else
        let n := { e with type, dest, hit := true, stale := false, remote }
        announce 0x0A01 n (countFwd 2 (l2Set b i n s))

/-- learn() for a packet's source. -/
def learn (mac vid src srcId : Nat) (s : State) : State :=
  if src = 7 || s.modes.mode = 3 || !dramReady s then s
  else let d := srcDest src srcId; learnAs mac vid d.1 d.2 false s

/-! Routes (R515 to R519). -/

/-- The bucket array of a family. -/
def routeTab (s : State) (f : Nat) : Tab (Bucket Route) := if f = 0 then s.fwd.v4 else s.fwd.v6

/-- Replace the bucket array of a family. -/
def onRouteTab (f : Nat) (g : Tab (Bucket Route) → Tab (Bucket Route)) (s : State) : State :=
  s.onFwd fun x => if f = 0 then { x with v4 := g x.v4 } else { x with v6 := g x.v6 }

/-- A candidate bucket of a prefix. -/
def routeBucket (f i plen pre : Nat) : Nat := Config.routeHash f i plen pre % (if f = 0 then 131072 else 32768)

/-- The filter bits of a prefix. -/
def bloomBits (f plen pre : Nat) : List Nat := (List.range 8).map fun i => Config.bloomHash i f plen pre % 8388608

/-- A search for the route of a prefix, with its probes. -/
def routeProbe (s : State) (f plen pre : Nat) : Option (Nat × Nat × Route) × Nat :=
  probe (routeTab s f) (routeBucket f 1 plen pre) (routeBucket f 2 plen pre) fun r => r.plen = plen && r.pre = pre

/-- The route of a prefix. -/
def routeFind (s : State) (f plen pre : Nat) : Option Route :=
  if plen = 0 then s.fwd.zero.getD f none else (routeProbe s f plen pre).1.map (·.2.2)

/-- Routes held at most in a family. -/
def routeCap (f : Nat) : Nat := if f = 0 then 262144 else 65536

/-- A route is written, replacing any with its prefix; nothing where no slot is free. -/
def routePut (f : Nat) (r : Route) (s : State) : Option State :=
  if r.plen = 0 then
    some (s.onFwd fun x => { x with zero := setAt x.zero f (some r), rn := if (x.zero.getD f none).isNone then bump x.rn f else x.rn })
  else match (routeProbe s f r.plen r.pre).1 with
    | some (b, i, _) => some (onRouteTab f (fun t => setSlot t b i r) s)
    | none =>
      if routeCap f ≤ s.fwd.rn.getD f 0 then none
      else (placeEntry (routeTab s f) (routeBucket f 1 r.plen r.pre) (routeBucket f 2 r.plen r.pre) r).map fun t =>
        (onRouteTab f (fun _ => t) s).onFwd fun x => { x with
          rn := bump x.rn f
          bloom := (bloomBits f r.plen r.pre).foldl (fun l b => if l.contains b then l else b :: l) x.bloom
          lens := updAt x.lens f fun l => Tab.upd l r.plen 0 (· + 1) }

/-- A route is removed; its filter bits stay until a rebuild (R519). -/
def routeDel (f plen pre : Nat) (s : State) : State :=
  if plen = 0 then s.onFwd fun x => { x with zero := setAt x.zero f none, rn := updAt x.rn f (· - 1) }
  else match (routeProbe s f plen pre).1 with
    | some (b, i, _) =>
      (onRouteTab f (fun t => clearSlot t b i) s).onFwd fun x => { x with
        rn := updAt x.rn f (· - 1)
        lens := updAt x.lens f fun l => (Tab.upd l plen 0 (· - 1)).filter fun e => e.2 != 0
        removals := x.removals + 1, rebuild := x.rebuild || 16384 ≤ x.removals + 1 }
    | none => s

/-- What a route lookup finds. -/
inductive RouteHit where
  | none
  | found (r : Route)
  /-- in VIGIL it would probe DRAM (R525) -/
  | divert
deriving DecidableEq, Repr

/-- The probes of the populated lengths, longest first, whose filter bits are all set: the route, and the probes made. -/
def lookupLens (s : State) (f a : Nat) : List Nat → Nat → Option Route × Nat
  | [], n => (none, n)
  | l :: ls, n =>
    let pre := maskTo (famBits f) l a
    if (bloomBits f l pre).all s.fwd.bloom.contains then
      match routeProbe s f l pre with
      | (some (_, _, r), k) => (some r, n + k)
      | (none, k) => lookupLens s f a ls (n + k)
    else lookupLens s f a ls n

/-- route_lookup() (R517). -/
def routeLookup (f a : Nat) (s : State) : RouteHit × State :=
  let s := countFwd 13 s
  let w := famBits f
  let hits := (routesOf s f).filter fun r => routePinned s f r && maskTo w r.plen a = r.pre
  match hits.foldl (fun (b : Option Route) r => match b with
      | some q => if q.plen < r.plen then some r else b
      | none => some r) none with
  | some r => (.found r, s)
  | none =>
    let ls := ((s.fwd.lens.getD f []).map (·.1)).reverse
    let passes := ls.any fun l => (bloomBits f l (maskTo w l a)).all s.fwd.bloom.contains
    let last (s : State) : RouteHit × State := match s.fwd.zero.getD f none with
      | some r => (.found r, s)
      | none => (.none, s)
    if s.modes.mode = 3 then (if passes then (.divert, s) else last s)
    else
      let (r, n) := lookupLens s f a ls 0
      let s := countFwd 12 s n
      let s := if 8 < n then countFwd 11 s else s
      match r with
      | some r => (.found r, s)
      | none => last s

/-! Next hops (R520 to R522). -/

/-- A next hop. -/
def nextHop (s : State) (n : Nat) : NextHop := Tab.getD s.fwd.nh n {}

/-- A member of an ECMP group is live. -/
def nhLive (s : State) (n : NextHop) : Bool :=
  match n.type with
  | 1 => (getPort s n.dest).link
  | 2 => (getSta s n.dest).isSome
  | 3 => bit s.ring.roster n.dest
  | _ => true

/-- select() of R522. -/
def selectNh (s : State) (r : Route) (hash : W32) : Option NextHop :=
  if !r.ecmp then some (nextHop s r.result)
  else
    let g := ((Tab.get? s.fwd.ecmp r.result).map (·.members)).getD []
    let i := hash.toNat * g.length / 2 ^ 32
    ((List.range g.length).map fun j => nextHop s (g.getD ((i + j) % g.length) 0)).find? (nhLive s)

end Sys2Proof.Machine
end

