-- ==== Sys2Proof/Machine/Forward.lean ====
section
/-!
DEFINITION. The forwarding decision and delivery (R503 to R506, R520 to R525), Mladmer-over-UDP (R471).
-/
namespace Sys2Proof.Machine

/-- A packet with what the parser and the classifier have set: its user priority, traffic class, rule and hash. -/
structure Fwded where
  pkt : Pkt
  par : Parsed
  hash : W32
  up : Nat
  tc : Nat
  /-- applied rule, 0xFFFF if none -/
  rule : Nat := 0xFFFF
deriving DecidableEq, Repr

/-- A packet goes to a PKT_RX ring (R139, R491, R505). -/
def toHostRing (ring reason : Nat) (x : Fwded) (bytes : List Byte) (s : State) : State :=
  let t := if x.pkt.src ≤ 4 then 1 else if x.pkt.src ≤ 6 then 5 else if x.pkt.src = 7 then 0 else 2
  let id := if x.pkt.src ≤ 4 then x.pkt.src else x.pkt.srcId
  hostQueue ring { srcType := t, reason, srcId := id, rule := BitVec.ofNat 16 x.rule, flags := x.pkt.flags, hash := x.hash, ts := x.pkt.ts, bytes } s

/-- The frame without its 802.1Q tag. -/
def untag (x : Fwded) (b : List Byte) : List Byte := if x.par.tagged then b.take 12 ++ b.drop 16 else b

/-- The frame with a tag of a VID: a tag it had keeps PCP and DEI. -/
def retag (x : Fwded) (vid : Nat) (b : List Byte) : List Byte :=
  let top := if x.par.tagged then x.par.tci / 4096 else Config.addedPcp x.up % 16
  let u := untag x b
  u.take 12 ++ [0x81, 0x00] ++ be 2 (4096 * top + vid) ++ u.drop 12

/-- PVID of a source code. -/
def pvidOf (s : State) (src : Nat) : Nat := s.fwd.pvid.getD src 0

/-- A packet leaves by an uplink or MGT (R505). -/
def toWire (port vid : Nat) (x : Fwded) (b : List Byte) (s : State) : State :=
  enqPort port x.tc (if vid = pvidOf s port then untag x b else retag x vid b) s

/-- The frame as it leaves on the ring or to a host ring. -/
def innerTag (x : Fwded) (vid : Nat) (b : List Byte) : List Byte := if vid = 0 then untag x b else retag x vid b

/-- A packet goes to a ring device, or to all (R505, R520, R666). -/
def toRing (dst tc : Nat) (b : List Byte) (s : State) : State :=
  let near (p : Nat) := pathLen (s.ring.ports.getD p {}).path
  if dst = 0x0F then
    let n := rosterSize s.ring.roster
    if n ≤ near 0 && n ≤ near 1 then enqPort 5 tc b s none 0x0F (n - 1)
    else enqPort 6 tc b (enqPort 5 tc b s none 0x0F (near 0)) none 0x0F (near 1)
  else
    let lost := s.onRing fun r => { r with ctr := bump r.ctr 3 }
    if !bit s.ring.roster dst then lost
    else match hopsTo s 0 dst, hopsTo s 1 dst with
      | some e, some w => enqPort (if e ≤ w then 5 else 6) tc b s none dst
      | some _, none => enqPort 5 tc b s none dst
      | none, some _ => enqPort 6 tc b s none dst
      | none, none => lost

/-- A copy joins the group queue of a BSS of a band (R360, R520, R552). -/
def toGroup (b bss : Nat) (x : Fwded) (bytes : List Byte) (s : State) : State :=
  let q := getAB s b
  if 1024 ≤ q.group.length then s
  else match storeIn s 0 false (groupCells q) (cellsOf bytes.length) with
    | .chip => noteLow (onAB b (fun q => { q with group := q.group ++ [(bss, { tid := x.up, bytes, enq := nowNs s })] }) s)
    | _ => s

/-- The packet's own source, as a destination (R506). -/
def isSource (x : Fwded) (type dest : Nat) : Bool :=
  (type = 1 && x.pkt.src = dest) || (type = 2 && (x.pkt.src = 8 || x.pkt.src = 9) && x.pkt.srcId = dest) ||
  (type = 3 && (x.pkt.src = 5 || x.pkt.src = 6) && x.pkt.srcId = dest)

/-- A flood next hop delivers one copy to each destination of its mask but the source (R520). -/
def flood (n : NextHop) (vid : Nat) (x : Fwded) (b : List Byte) (s : State) : State :=
  let wires := (List.range 5).filter fun p => bit n.flood p && !isSource x 1 p
  let s := wires.foldl (fun s p => toWire p vid x b s) s
  let s := if bit n.flood 5 && x.pkt.src != 5 && x.pkt.src != 6 then toRing 0x0F x.tc (innerTag x vid b) s else s
  let s := if bit n.flood 6 then toGroup 0 n.bss x (untag x b) s else s
  let s := if bit n.flood 7 then toGroup 1 n.bss x (untag x b) s else s
  if bit n.flood 8 then toHostRing n.dest 0 x (innerTag x vid b) s else s

/-- Delivery to a destination type other than a next hop (R505). -/
def deliverTo (type dest vid : Nat) (x : Fwded) (b : List Byte) (s : State) : State :=
  match type with
  | 1 => toWire dest vid x b s
  | 2 => toSta dest x.up (untag x b) (x.pkt.src = 7 && x.pkt.srcId != 0xFFFF) s
  | 3 => toRing dest x.tc (innerTag x vid b) s
  | 4 => toHostRing dest 0 x (innerTag x vid b) s
  | _ => s

/-- Delivery by a next hop. -/
def deliverNh (n : NextHop) (vid : Nat) (x : Fwded) (b : List Byte) (s : State) : State :=
  if n.type = 5 then flood n vid x b s else deliverTo n.type n.dest vid x b s

/-- Next hop 0: a host ring with REASON 1, unmodified, or discard (R504, R521). -/
def viaZero (x : Fwded) (s : State) : State :=
  let n := nextHop s 0
  if n.type = 4 then toHostRing n.dest 1 x x.pkt.bytes s else s

/-- A bridged packet is delivered (R505, R506). -/
def bridge (type dest vid : Nat) (x : Fwded) (s : State) : State :=
  if type = 5 then deliverNh (nextHop s dest) vid x x.pkt.bytes s
  else if isSource x type dest then countFwd 6 s
  else deliverTo type dest vid x x.pkt.bytes s

/-- A routed frame's new MAC addresses, TTL and header checksum (R504). -/
def rewrite (n : NextHop) (x : Fwded) : List Byte :=
  if !n.routed then x.pkt.bytes
  else
    let b := be 6 n.dmac ++ be 6 n.smac ++ x.pkt.bytes.drop 12
    match x.par.l3 with
    | none => b
    | some o =>
      if 8 ≤ x.par.layout && x.par.layout ≤ 13 then patch b (o + 7) (le 1 (x.par.ttl - 1))
      else
        let b := patch (patch b (o + 8) (le 1 (x.par.ttl - 1))) (o + 10) [0, 0]
        patch b (o + 10) (be 2 (inetSum (onesSum (slice b o (4 * ((byteAt b o).toNat % 16))))))

/-- A packet is routed on its destination address (R504). -/
def routePkt (x : Fwded) (s : State) : State :=
  let q := x.par
  let f := if 8 ≤ q.layout then 1 else 0
  if q.layout < 2 || 13 < q.layout || q.exc != 0 then viaZero x s
  else match routeLookup f (unBe (q.dip.take (famBits f / 8))) s with
    | (.divert, s) => let n := nextHop s s.modes.vigilNexthop; deliverNh n n.vid x x.pkt.bytes (countFwd 15 s)
    | (.none, s) => countFwd 7 s
    | (.found r, s) => match selectNh s r x.hash with
      | none => countFwd 10 s
      | some n =>
        if q.ttl ≤ 1 then viaZero x (countFwd 8 s)
        else if n.mtu < q.l3len then viaZero x (countFwd 9 s)
        else deliverNh n n.vid x (rewrite n x) s

/-- What an L2 lookup finds (R508, R525). -/
def l2Lookup (mac vid : Nat) (s : State) : Option L2e × Bool :=
  match l2Find s mac vid with
  | some (_, _, e) => if s.modes.mode = 3 && !l2Pinned s e then (none, true) else (some e, false)
  | none => (none, s.modes.mode = 3)

/-- The ingress VID (R503). -/
def ingressVid (s : State) (x : Fwded) : Nat :=
  if x.par.tagged then x.par.tci % 4096 else if x.pkt.src ≤ 7 then pvidOf s x.pkt.src else x.pkt.airVid

/-- forward() of R504. -/
def forward (x : Fwded) (s : State) : State :=
  let vid := ingressVid s x
  let b := x.pkt.bytes
  let dmac := beAt b 0 6
  let smac := beAt b 6 6
  if vid = 4095 then countFwd 5 s
  else
    let s := if bit s.fwd.learn x.pkt.src && !(byteAt b 6).getLsbD 0 && smac != 0 then learn smac vid x.pkt.src x.pkt.srcId s else s
    let divert (s : State) : State := let n := nextHop s s.modes.vigilNexthop; deliverNh n n.vid x b (countFwd 15 s)
    let go (e : L2e) (s : State) : State := if e.type = 6 then routePkt x s else bridge e.type e.dest vid x s
    match l2Lookup dmac vid s with
    | (some e, _) => go e s
    | (none, true) => divert s
    | (none, false) => match l2Lookup 0xFFFFFFFFFFFF vid s with
      | (some e, _) => go e s
      | (none, _) => countFwd 5 s

/-! Mladmer-over-UDP (R471). -/

/-- A layout 14 packet goes to Foothill. -/
def udpIn (x : Fwded) (s : State) : State :=
  let o := x.par.l4.getD 0
  let fin := (x.par.l3.getD 0) + x.par.l3len
  let r := slice x.pkt.bytes (o + 8) (min (fin - (o + 8)) (beAt x.pkt.bytes (o + 4) 2 - 8))
  let m := s.mlad
  let from_ := if x.par.layout = 14 && m.udp6 then x.par.sip = m.dstIp else x.par.sip.take 4 = m.dstIp.take 4
  if !from_ || r.length < 8 || byteAt r 0 != 1 || byteAt r 1 != 1 || byteAt r 7 != 0 then countMlad 27 s
  else
    let (_, _, s) := nbSend (beAt r 2 2) (byteAt r 5).toNat (byteAt r 6).toNat (byteAt r 4).toNat 10000 (r.drop 8) 0 (countMlad 26 s)
    s

/-- FORWARD of R491. -/
def forwardOrNb (x : Fwded) (s : State) : State := if x.par.layout = 14 then udpIn x s else forward x s

end Sys2Proof.Machine
end

