-- ==== Sys2Proof/Machine/Classify.lean ====
section
/-!
DEFINITION. The classifier, the entry of packets, and the commands of family 0x09 (R486 to R502).
-/
namespace Sys2Proof.Machine

/-! Rules (R489, R490). -/

/-- A range comparator's result on a key. -/
def rangeHit (s : State) (n : Nat) (key : List Byte) : Bool :=
  match Tab.get? s.cls.ranges n with
  | some c => let v := beAt key c.off 2; c.lo ≤ v && v ≤ c.hi
  | none => false

/-- A rule matches a packet's key and match bits. -/
def Rule.matches (s : State) (r : Rule) (key : List Byte) (bits : List Nat) : Bool :=
  r.valid && ((List.range 64).all fun i => byteAt key i &&& byteAt r.mask i == byteAt r.value i) &&
  (r.rangeA = 0xFFFF || rangeHit s r.rangeA key != r.opts.getLsbD 4) && (r.rangeB = 0xFFFF || rangeHit s r.rangeB key != r.opts.getLsbD 5) &&
  (r.pattern = 0xFFFF || bits.contains r.pattern != r.opts.getLsbD 3)

/-- A policer judges a packet: it conforms, or exceeds (R493). -/
def police (n : Nat) (s : State) : Bool × State :=
  let p := Tab.getD s.cls.policers n {}
  let put (p : Policer) : State := s.onCls fun c => { c with policers := Tab.set c.policers n p }
  if !p.enable then (true, put { p with conform := satAdd 32 p.conform 1 })
  else
    let t := nowNs s
    let acc := p.acc + (t - p.last) * p.rate * 256
    let tokens := min (p.burst * 256) (p.tokens + acc / 10 ^ 9)
    let p := { p with acc := acc % 10 ^ 9, last := t, tokens }
    if 256 ≤ tokens then (true, put { p with tokens := tokens - 256, conform := satAdd 32 p.conform 1 })
    else (false, put { p with exceed := satAdd 32 p.exceed 1 })

/-- The exception destination of the lowest exception bit (R491, R496). -/
def exception (x : Fwded) (s : State) : State :=
  let k := ((List.range 5).find? (bit x.par.exc)).getD 0
  let i := s.cls.excIndex.getD k 0
  match s.cls.excType.getD k 0 with
  | 1 => toHostRing i 1 x x.pkt.bytes s
  | 2 => colPacket i { pkt := x.pkt, hash := x.hash, exc := x.par.exc, up := x.up, tc := x.tc } s
  | _ => countCls 24 s

/-- The action of a rule (R491). -/
def act (r : Rule) (x : Fwded) (s : State) : State :=
  let host (s : State) : State := toHostRing r.dest (if x.par.exc = 0 then 0 else 1) x x.pkt.bytes s
  match r.action with
  | 0 => forwardOrNb x s
  | 2 => host s
  | 3 => colPacket r.dest { pkt := x.pkt, hash := x.hash, rule := x.rule, exc := x.par.exc, up := x.up, tc := x.tc } s
  | 4 =>
    if ((getBf s r.dest).map fun f => f.p.dir == 0).getD false then bfEnter r.dest (untag x x.pkt.bytes) s
    else forwardOrNb x (countCls 23 s)
  | 5 => forwardOrNb x (host s)
  | _ => s

/-- A packet is classified (R489 to R493). -/
def classify (p : Pkt) (s : State) : State :=
  let q := parse s.mlad p.bytes
  let key := keyOf p q
  let up := if 8 ≤ p.src then p.tid else if q.tagged then q.tci / 8192 else if q.l3.isSome then q.tos / 32 else 0
  let x : Fwded := { pkt := p, par := q, hash := flowHash s p.bytes q, up, tc := up }
  match s.cls.rules.find? fun e => e.2.matches s key (p.matched.getD []) with
  | none =>
    let s := countCls 21 s
    if q.exc = 0 then forwardOrNb x s else exception x s
  | some (n, r) =>
    let up := if r.opts.getLsbD 0 then r.up else up
    let x := { x with up, tc := if r.opts.getLsbD 1 then r.tc else up, rule := n }
    let s := s.onCls fun c => { c with rules := Tab.set c.rules n { r with hits := satAdd 32 r.hits 1 } }
    let s := if s.modes.mode = 3 && r.opts.getLsbD 2 then wakeSource 2 p.src s else s
    if r.policer = 0xFFFF then act r x s
    else match police r.policer s with
      | (true, s) => act r x s
      | (false, s) =>
        let l := Tab.getD s.cls.policers r.policer {}
        if l.remark then act r { x with up := l.up, tc := l.up } s else s

/-- A packet that the full matcher buffer does not take (R487). -/
def skipMatch (s : State) : State :=
  let t := nowNs s
  let s := (countCls 22 s).onCls fun c => { c with skips := t :: c.skips.filter fun u => t < u + 10 ^ 9 }
  if (s.cls.overloadAt.map fun u => decide (t < u + 10 ^ 9)).getD false then s
  else raise 0x0980 none (le 4 s.cls.skips.length) (s.onCls fun c => { c with overloadAt := some t })

/-- A packet enters the parser (R482 to R487): it waits for the matcher, or is classified. -/
def ingress (p : Pkt) (s : State) : State :=
  let q := parse s.mlad p.bytes
  let s := countCls q.layout s
  let s := (List.range 5).foldl (fun s k => if bit q.exc k then countCls (16 + k) s else s) s
  if inspects s p q then
    if 262144 < sumOf (s.cls.buffer.map fun b => b.bytes.length) + p.bytes.length then classify { p with skipped := true } (skipMatch s)
    else s.onCls fun c => { c with buffer := c.buffer ++ [p] }
  else classify p s

/-- The packet path runs: Summit has booted, and the domain of the packet path is powered. -/
def pathOn (s : State) : Bool := 2 ≤ s.modes.mode && s.modes.mode ≤ 6 && domOn s 3

/-- ETH_FRAME_RECEIVED (R480, R482): a frame, without its FCS, of a port 0 to 4 that is up, received at time of day t, or, for the
host, Foothill and the air, the oldest that waits of source 7 to 9. -/
def execEthFrameReceived (src srcId tid : Nat) (bytes : List Byte) (t : Nat) (s : State) : Out :=
  .next (onlyIf (pathOn s) (fun s =>
    if src ≤ 4 then
      if (getPort s src).link then ingress { src, srcId := 0, tid, bytes, ts := t } (advanceTo t s) else s
    else match s.cls.inq.find? fun p => p.src == src && p.srcId == srcId with
      | some p => ingress p (s.onCls fun c => { c with inq := c.inq.erase p })
      | none => s) s)

/-- PAYLOAD_MATCH_DONE (R486): the oldest packet that waits has been inspected. -/
def execPayloadMatchDone (s : State) : Out :=
  .next (onlyIf (pathOn s) (fun s => match s.cls.buffer with
    | p :: rest =>
      let bits := matchBits s (windowOf p.bytes (parse s.mlad p.bytes))
      classify { p with matched := some bits } (s.onCls fun c => { c with buffer := rest })
    | [] => s) s)

/-! Commands (R495 to R502). -/

/-- The modes of family 0x09 (R495). -/
def clsModes : Cmd → State → Bool := inModes [2, 3, 4, 5, 6]

/-- PARSE_CONFIG (R496). -/
def specParseConfig : OpSpec where
  op := 0x0901
  modes := clsModes
  rsv c := c.zero ([(22, 2), (44, 4)] ++ (List.range 5).map fun e => (25 + 4 * e, 1)) && c.u 20 2 < 1024
  needs _ := [3]
  body c s :=
    let ts := (List.range 5).map fun e => c.u (24 + 4 * e) 1
    let is_ := (List.range 5).map fun e => c.u (26 + 4 * e) 2
    let bad := (ts.zip is_).any fun x => 2 < x.1 || (x.1 = 1 && (x.2 < 32 || 61 < x.2)) || (x.1 = 2 && 1023 < x.2)
    if bad then (eArg, s)
    else (.ok, s.onCls fun k => { k with seed := BitVec.ofNat 32 (c.u 16 4), inspect := c.u 20 2, excType := ts, excIndex := is_ })

/-- PARSE_CONFIG. -/
def execParseConfig (d : Doorbell) (p : List Byte) (s : State) : Out := command specParseConfig d p s

/-- RULE_WRITE (R497). -/
def specRuleWrite : OpSpec where
  op := 0x0902
  modes := clsModes
  rsv c := c.flagsBelow 18 1 && c.flagsBelow 20 6 && c.zero [(23, 1), (34, 2)]
  needs _ := [3]
  body c s :=
    let n := c.u 16 2
    let a := c.u 19 1
    let dest := c.u 24 2
    let value := c.bytes 36 64
    let mask := c.bytes 100 64
    let none_ (v lim : Nat) : Bool := v = 0xFFFF || v ≤ lim
    let destBad := match a with
      | 2 => dest < 32 || 61 < dest
      | 5 => dest < 32 || 61 < dest
      | 3 => 1023 < dest
      | 4 => 1023 < dest
      | _ => dest != 0
    let refBad := (c.u 26 2 != 0xFFFF && (Tab.get? s.cls.policers (c.u 26 2)).isNone) ||
      (c.u 28 2 != 0xFFFF && (Tab.get? s.cls.ranges (c.u 28 2)).isNone) || (c.u 30 2 != 0xFFFF && (Tab.get? s.cls.ranges (c.u 30 2)).isNone) ||
      (c.u 32 2 != 0xFFFF && (Tab.get? s.cls.patterns (c.u 32 2)).isNone)
    if 4095 < n || 5 < a || 7 < c.u 21 1 || 7 < c.u 22 1 || !none_ (c.u 26 2) 511 || !none_ (c.u 28 2) 255 || !none_ (c.u 30 2) 255 ||
        !none_ (c.u 32 2) 1023 || (List.range 64).any (fun i => byteAt value i &&& ~~~(byteAt mask i) != 0) then (eArg, s)
    else if destBad || refBad then (.err 0x0901, s)
    else
      let hits := ((Tab.get? s.cls.rules n).map (·.hits)).getD 0
      let r : Rule := { valid := bit (c.u 18 1) 0, action := a, opts := BitVec.ofNat 8 (c.u 20 1), up := c.u 21 1, tc := c.u 22 1, dest, policer := c.u 26 2,
                        rangeA := c.u 28 2, rangeB := c.u 30 2, pattern := c.u 32 2, value, mask, hits }
      (.ok, s.onCls fun k => { k with rules := Tab.set k.rules n r })

/-- RULE_WRITE. -/
def execRuleWrite (d : Doorbell) (p : List Byte) (s : State) : Out := command specRuleWrite d p s

/-- RULE_CLEAR (R498). -/
def specRuleClear : OpSpec where
  op := 0x0903
  modes := clsModes
  needs _ := [3]
  body c s :=
    let i := c.u 16 2
    let n := c.u 18 2
    if n < 1 || 4096 < i + n then (eArg, s)
    else (.ok, s.onCls fun k => { k with rules := k.rules.map fun e => if i ≤ e.1 && e.1 < i + n then (e.1, { e.2 with valid := false, hits := 0 }) else e })

/-- RULE_CLEAR. -/
def execRuleClear (d : Doorbell) (p : List Byte) (s : State) : Out := command specRuleClear d p s

/-- RANGE_SET (R499). -/
def specRangeSet : OpSpec where
  op := 0x0904
  modes := clsModes
  rsv c := c.zero [(19, 1)]
  needs _ := [3]
  body c s :=
    if 255 < c.u 16 2 || 62 < c.u 18 1 || c.u 18 1 % 2 = 1 || c.u 22 2 < c.u 20 2 then (eArg, s)
    else (.ok, s.onCls fun k => { k with ranges := Tab.set k.ranges (c.u 16 2) { off := c.u 18 1, lo := c.u 20 2, hi := c.u 22 2 } })

/-- RANGE_SET. -/
def execRangeSet (d : Doorbell) (p : List Byte) (s : State) : Out := command specRangeSet d p s

/-- PATTERN_WRITE (R500). -/
def specPatternWrite : OpSpec where
  op := 0x0905
  modes := clsModes
  rsv c := c.flagsBelow 19 1 && c.zero [(22, 2)]
  needs _ := [3]
  body c s :=
    let n := c.u 16 2
    let len := c.u 18 1
    let data := c.bytes 24 32
    let mask := c.bytes 56 32
    if 1023 < n || 32 < len || 511 < c.u 20 2 || (data.drop len).any (· != 0) || (mask.drop len).any (· != 0) then (eArg, s)
    else if len = 0 then
      if s.cls.rules.any fun e => e.2.valid && e.2.pattern = n then (.err 0x0901, s)
      else (.ok, s.onCls fun k => { k with patterns := Tab.erase k.patterns n })
    else if byteAt mask 0 = 0 || byteAt mask (len - 1) = 0 || 512 < c.u 20 2 + len then (.err 0x0902, s)
    else (.ok, s.onCls fun k => { k with patterns := Tab.set k.patterns n { anchored := bit (c.u 19 1) 0, anchor := c.u 20 2, data := data.take len, mask := mask.take len } })

/-- PATTERN_WRITE. -/
def execPatternWrite (d : Doorbell) (p : List Byte) (s : State) : Out := command specPatternWrite d p s

/-- POLICER_SET (R493, R501): the bucket is filled. -/
def specPolicerSet : OpSpec where
  op := 0x0906
  modes := clsModes
  rsv c := c.flagsBelow 18 2
  needs _ := [3]
  body c s :=
    let n := c.u 16 2
    let burst := c.u 24 4
    if 511 < n || 7 < c.u 19 1 || c.u 20 4 < 1 || 150000000 < c.u 20 4 || burst < 1 || 65535 < burst then (eArg, s)
    else
      let o := Tab.getD s.cls.policers n {}
      (.ok, s.onCls fun k => { k with policers := Tab.set k.policers n { o with
        enable := bit (c.u 18 1) 0, remark := bit (c.u 18 1) 1, up := c.u 19 1, rate := c.u 20 4, burst, tokens := burst * 256, acc := 0, last := nowNs s } })

/-- POLICER_SET. -/
def execPolicerSet (d : Doorbell) (p : List Byte) (s : State) : Out := command specPolicerSet d p s

/-- CLASS_STATS (R502). -/
def specClassStats : OpSpec where
  op := 0x0907
  modes := clsModes
  rsv c := c.flagsBelow 17 1
  needs _ := [3]
  body c s :=
    let i := c.u 18 2
    let n := c.u 20 2
    let clear := bit (c.u 17 1) 0
    let mine (k : Nat) : Bool := clear && i ≤ k && k < i + n
    match c.u 16 1 with
    | 0 =>
      if n < 1 || 120 < n || 4096 < i + n then (eArg, s)
      else (.ok ((List.range n).flatMap fun k => le 4 ((Tab.get? s.cls.rules (i + k)).map (·.hits) |>.getD 0)),
        s.onCls fun k => { k with rules := k.rules.map fun e => if mine e.1 then (e.1, { e.2 with hits := 0 }) else e })
    | 1 =>
      if n < 1 || 60 < n || 512 < i + n then (eArg, s)
      else (.ok ((List.range n).flatMap fun k => let p := Tab.getD s.cls.policers (i + k) {}; le 4 p.conform ++ le 4 p.exceed),
        s.onCls fun k => { k with policers := k.policers.map fun e => if mine e.1 then (e.1, { e.2 with conform := 0, exceed := 0 }) else e })
    | 2 => (.ok (ctrBytes s.cls.ctr), if clear then s.onCls fun k => { k with ctr := zeroed k.ctr } else s)
    | _ => (eArg, s)

/-- CLASS_STATS. -/
def execClassStats (d : Doorbell) (p : List Byte) (s : State) : Out := command specClassStats d p s

end Sys2Proof.Machine
end

