-- ==== Sys2Proof/Machine/FwdCmds.lean ====
section
/-!
DEFINITION. The sweeper, the filter's rebuild, table updates from the ring, and the commands of family 0x0A (R513, R514, R519,
R526 to R540).
-/
namespace Sys2Proof.Machine

/-! The sweeper (R513, R514). -/

/-- Sweeping is possible: D5 is on and the DRAM serves. -/
def sweepOn (s : State) : Bool := s.modes.mode != 3 && dramReady s && s.fwd.period != 0

/-- An entry as a visit leaves it, none where it is removed (R511, R513). -/
def visit (s : State) (b i : Nat) (e : L2e) : State :=
  if e.static || l2Pinned s e then s
  else
    let cached := s.fwd.src.any fun h => h.mac = e.mac && h.vid = e.vid && h.hit
    let s := s.onFwd fun f => { f with src := f.src.map fun h => if h.mac = e.mac && h.vid = e.vid then { h with hit := false } else h }
    let put (e : L2e) (s : State) : State := s.onFwd fun f => { f with l2 := setSlot f.l2 b i e }
    if e.hit || cached then announce 0x0A01 e (put { e with hit := false, stale := false } s)
    else if e.stale then announce 0x0A02 e (countFwd 4 (l2Del b i e s))
    else put { e with stale := true } s

/-- AGING_VISIT (R513): the visit of bucket 0 starts a sweep, with the PERIOD_S then set. -/
def execAgingVisit (bucket : Nat) (s : State) : Out :=
  .next (onlyIf (sweepOn s && bucket < 65536 && (bucket = 0 || s.fwd.sweeping)) (fun s =>
    let s := if bucket = 0 then s.onFwd fun f => { f with sweepT := f.period, sweeping := true, fullRaised := false, fullN := 0 } else s
    let s := (bucketAt s.fwd.l2 bucket).slots.foldl (fun s e => visit s bucket e.1 e.2) s
    if bucket = 65535 then s.onFwd fun f => { f with sweeping := false } else s) s)

/-! The rebuild (R519, R507). -/

/-- OVF of a bucket is still needed: some entry in another bucket has it as its b1. -/
def ovfNeeded {α : Type} (t : Tab (Bucket α)) (home : α → Nat) (b : Nat) : Bool := (entriesOf t).any fun e => e.1 != b && home e.2.2 = b

/-- OVF is cleared where no entry needs it. -/
def fixOvf {α : Type} (t : Tab (Bucket α)) (home : α → Nat) : Tab (Bucket α) :=
  t.filterMap fun x =>
    let y := { x.2 with ovf := x.2.ovf && ovfNeeded t home x.1 }
    if y.slots.isEmpty && !y.ovf then none else some (x.1, y)

/-- FILTER_REBUILD_DONE (R519). -/
def execFilterRebuildDone (s : State) : Out :=
  .next (onlyIf s.fwd.rebuild (fun s =>
    let bits := [0, 1].flatMap fun f => (entriesOf (routeTab s f)).flatMap fun e => bloomBits f e.2.2.plen e.2.2.pre
    countFwd 14 (s.onFwd fun x => { x with
      bloom := bits.eraseDups, removals := 0, rebuild := false
      l2 := fixOvf x.l2 fun e => l2Bucket 1 e.mac e.vid
      v4 := fixOvf x.v4 fun r => routeBucket 0 1 r.plen r.pre
      v6 := fixOvf x.v6 fun r => routeBucket 1 1 r.plen r.pre })) s)

/-! The effects of the table commands, local or by a table update (R526, R527). -/

/-- The modes of the table commands (R530). -/
def tabModes : Cmd → State → Bool := inModes [2, 4, 5, 6]

/-- A table command that finds the DRAM not ready. -/
def needDram (s : State) : Bool := !dramReady s

/-- Next hops that have been set. -/
def nhSet (s : State) (n : Nat) : Bool := n = 0 || (Tab.get? s.fwd.nh n).isSome

/-- What a forwarding command answers: a status, and the state after it. A table update that a local entry forbids answers
0xFFFF (R527). -/
abbrev FwdAns := Nat × State

/-- A DEST_TYPE and DEST_ID are in range (R505): 2 for a field out of range, 0x0A04 for a next hop that does not suit. -/
def destBad (s : State) (mac type dest : Nat) (static : Bool) : Nat :=
  let multi := static && bit (mac / 2 ^ 40) 0
  let range := match type with
    | 1 => dest ≤ 4
    | 2 => dest ≤ 2047
    | 3 => dest ≤ 7
    | 4 => 32 ≤ dest && dest ≤ 61
    | 5 => dest ≤ 16383
    | 6 => true
    | _ => false
  if !range || (multi && type != 5) then 2
  else if type = 5 && (!nhSet s dest || (multi && (nextHop s dest).type != 5)) then 0x0A04
  else 0

/-- L2_ADD (R531). -/
def doL2Add (remote : Bool) (c : Cmd) (s : State) : FwdAns :=
  let mac := unBe (c.bytes 16 6)
  let vid := c.u 22 2
  let static := bit (c.u 25 1) 0
  let pin := bit (c.u 25 1) 1
  let e : L2e := { mac, vid, static, hit := !static, type := c.u 24 1, dest := c.u 26 2, pin, remote, sync := bit (c.u 25 1) 2 }
  if 4094 < vid then (2, s)
  else match destBad s mac e.type e.dest static with
    | 0 =>
      if heldL2 s mac vid then (7, s)
      else
        let old := l2Find s mac vid
        let wasPinned := (old.map fun o => l2Pinned s o.2.2).getD false
        if l2Pinned s e && !wasPinned && 4096 ≤ pinnedUsed s then (0x0A03, s)
        else match old with
          | some (b, i, o) => if remote && !o.remote then (0xFFFF, s) else (0, l2Set b i e s)
          | none => match l2Place e s with
            | some t => (0, forgetSrc mac vid t)
            | none => (0x0A01, s)
    | n => (n, s)

/-- L2_REMOVE (R532). -/
def doL2Remove (remote : Bool) (c : Cmd) (s : State) : FwdAns :=
  let mac := unBe (c.bytes 16 6)
  let vid := c.u 22 2
  match l2Find s mac vid with
  | none => (0x0A02, s)
  | some (b, i, e) => if heldL2 s mac vid then (7, s) else if remote && !e.remote then (0xFFFF, s) else (0, l2Del b i e s)

/-- The fields of a route: family, length, flags, result, prefix (R534, R536). -/
structure RouteRec where
  fam : Nat
  plen : Nat
  flags : Nat
  result : Nat
  pre : List Byte
deriving DecidableEq, Repr

/-- The prefix as a number of its family. -/
def RouteRec.num (r : RouteRec) : Nat := unBe (r.pre.take (famBits r.fam / 8))

/-- The family, length and prefix are in range. -/
def RouteRec.keyOk (r : RouteRec) : Bool :=
  r.fam ≤ 1 && r.plen ≤ famBits r.fam && maskTo (famBits r.fam) r.plen r.num = r.num && (r.fam = 1 || (r.pre.drop 4).all (· == 0))

/-- A flow holds a route, or a route within one that it holds (R405, R524). -/
def routeHeld (s : State) (f plen pre : Nat) : Bool := heldRoute s f plen pre

/-- A route is added (R524, R534). -/
def routeAdd (remote : Bool) (r : RouteRec) (s : State) : FwdAns :=
  let ecmp := bit r.flags 0
  if !r.keyOk || (if ecmp then 1023 else 16383) < r.result then (2, s)
  else if (if ecmp then (Tab.get? s.fwd.ecmp r.result).isNone else !nhSet s r.result) then (0x0A04, s)
  else if routeHeld s r.fam r.plen r.num then (7, s)
  else
    let n : Route := { plen := r.plen, pre := r.num, ecmp, pin := bit r.flags 1, sync := bit r.flags 2, remote, result := r.result }
    if remote && ((routeFind s r.fam r.plen r.num).map fun o => !o.remote).getD false then (0xFFFF, s)
    else match routePut r.fam n s with
      | none => (0x0A01, s)
      | some t => if 4096 < pinnedUsed t && pinnedUsed s < pinnedUsed t then (0x0A03, s) else (0, t)

/-- A route is removed (R535). -/
def routeRemove (remote : Bool) (r : RouteRec) (s : State) : FwdAns :=
  if !r.keyOk then (2, s)
  else match routeFind s r.fam r.plen r.num with
    | none => (0x0A02, s)
    | some o => if routeHeld s r.fam r.plen r.num then (7, s) else if remote && !o.remote then (0xFFFF, s) else (0, routeDel r.fam r.plen r.num s)

/-- The route of a ROUTE_ADD or ROUTE_REMOVE. -/
def cmdRoute (c : Cmd) : RouteRec := { fam := c.u 16 1, plen := c.u 17 1, flags := c.u 18 1, result := c.u 20 2, pre := c.bytes 24 16 }

/-- NEXTHOP_SET (R521, R537). -/
def doNexthop (remote : Bool) (c : Cmd) (s : State) : FwdAns :=
  let n := c.u 16 2
  let t := c.u 18 1
  let dest := c.u 20 2
  let routed := bit (c.u 19 1) 0
  let x : NextHop := { type := t, routed, sync := bit (c.u 19 1) 2, remote, dest, vid := c.u 22 2, dmac := unBe (c.bytes 24 6), smac := unBe (c.bytes 30 6),
                       mtu := c.u 36 2, flood := c.u 38 2, bss := c.u 40 1 }
  let range := match t with
    | 1 => dest ≤ 4
    | 2 => dest ≤ 2047
    | 3 => dest ≤ 7
    | 4 => 32 ≤ dest && dest ≤ 61
    | 5 => !bit x.flood 8 || (32 ≤ dest && dest ≤ 61)
    | _ => true
  let named := (s.fwd.ecmp.any fun g => g.2.members.contains n) || [0, 1].any fun f => (routesOf s f).any fun r => !r.ecmp && r.result = n
  if 16383 < n || 5 < t || !range || 4094 < x.vid || x.mtu < 64 || 9216 < x.mtu || 7 < x.bss || 511 < x.flood then (2, s)
  else if n = 0 && ((t != 0 && t != 4) || routed) then (0x0A04, s)
  else if remote && t = 0 && named then (2, s)
  else if remote && ((Tab.get? s.fwd.nh n).map fun o => !o.remote).getD false then (0xFFFF, s)
  else (0, s.onFwd fun f => { f with nh := Tab.set f.nh n x })

/-- ECMP_SET (R538). -/
def doEcmp (remote : Bool) (c : Cmd) (s : State) : FwdAns :=
  let g := c.u 16 2
  let n := c.u 18 1
  let ms := (List.range (min 16 n)).map fun i => c.u (20 + 2 * i) 2
  if 1023 < g || n < 1 || 16 < n || ms.any (16383 < ·) then (2, s)
  else if ms.any fun m => !nhSet s m then (0x0A04, s)
  else if remote && ((Tab.get? s.fwd.ecmp g).map fun o => !o.remote).getD false then (0xFFFF, s)
  else (0, s.onFwd fun f => { f with ecmp := Tab.set f.ecmp g { members := ms, sync := bit (c.u 19 1) 2, remote } })

/-- A local command's answer; with SYNC set it is sent to the ring (R526). -/
def fwdAns (c : Cmd) (sync : Bool) (r : FwdAns) : Ans × State :=
  if r.1 != 0 then (.err r.1, r.2) else (.ok, if sync then sendUpdate c.op c.par r.2 else r.2)

/-! Commands. -/

/-- L2_ADD. -/
def specL2Add : OpSpec where
  op := 0x0A01
  modes := tabModes
  rsv c := c.flagsBelow 25 3 && c.zero [(28, 4)]
  objs _ := [.l2Table]
  needs _ := [3]
  body c s := if needDram s then (eState, s) else fwdAns c (bit (c.u 25 1) 2) (doL2Add false c s)

/-- L2_ADD. -/
def execL2Add (d : Doorbell) (p : List Byte) (s : State) : Out := command specL2Add d p s

/-- L2_REMOVE. -/
def specL2Remove : OpSpec where
  op := 0x0A02
  modes := tabModes
  rsv c := (c.u 24 1 = 0 || c.u 24 1 = 4) && c.zero [(25, 3)]
  objs _ := [.l2Table]
  needs _ := [3]
  body c s := if 4094 < c.u 22 2 then (eArg, s) else if needDram s then (eState, s) else fwdAns c (bit (c.u 24 1) 2) (doL2Remove false c s)

/-- L2_REMOVE. -/
def execL2Remove (d : Doorbell) (p : List Byte) (s : State) : Out := command specL2Remove d p s

/-- An L2 entry matches an L2_FLUSH (R533). -/
def flushes (c : Cmd) (e : L2e) : Bool :=
  let f := c.u 16 1
  (!bit f 0 || e.vid = c.u 20 2) && (!bit f 1 || (e.type = c.u 17 1 && e.dest = c.u 18 2)) && (bit f 2 || !e.static)

/-- L2_FLUSH (R533). -/
def specL2Flush : OpSpec where
  op := 0x0A03
  modes := tabModes
  rsv c := c.flagsBelow 16 4 && c.zero [(22, 2)]
  objs _ := [.l2Table]
  needs _ := [3]
  body c s :=
    let f := c.u 16 1
    if (bit f 0 && 4094 < c.u 20 2) || (bit f 1 && (c.u 17 1 < 1 || 6 < c.u 17 1)) then (eArg, s)
    else if needDram s then (eState, s) else (.pending, s)

/-- L2_FLUSH. -/
def execL2Flush (d : Doorbell) (p : List Byte) (s : State) : Out := command specL2Flush d p s

/-- The walk of an L2_FLUSH removes what it matches, but for what a flow holds: removed, kept. -/
def flushWalk (c : Cmd) (remoteOnly : Bool) (s : State) : Nat × Nat × State :=
  let hits := (entriesOf s.fwd.l2).filter fun e => flushes c e.2.2 && (!remoteOnly || e.2.2.remote)
  let (held, gone) := hits.partition fun e => heldL2 s e.2.2.mac e.2.2.vid
  (gone.length, held.length, gone.foldl (fun s e => l2Del e.1 e.2.1 e.2.2 s) s)

/-- L2_FLUSH_DONE (R533). -/
def execL2FlushDone (s : State) : Out :=
  .next (match findLong s 0x0A03 with
    | none => s
    | some l =>
      let (n, k, s) := flushWalk l.cmd false s
      let s := if bit (l.cmd.u 16 1) 3 then sendUpdate 0x0A03 l.cmd.par s else s
      endLong l (.ok (le 4 n ++ le 4 k)) s)

/-- ROUTE_ADD. -/
def specRouteAdd : OpSpec where
  op := 0x0A04
  modes := tabModes
  rsv c := c.flagsBelow 18 3 && c.zero [(19, 1), (22, 2)]
  objs _ := [.routeTable]
  needs _ := [3]
  body c s := if needDram s then (eState, s) else fwdAns c (bit (c.u 18 1) 2) (routeAdd false (cmdRoute c) s)

/-- ROUTE_ADD. -/
def execRouteAdd (d : Doorbell) (p : List Byte) (s : State) : Out := command specRouteAdd d p s

/-- ROUTE_REMOVE. -/
def specRouteRemove : OpSpec where
  op := 0x0A05
  modes := tabModes
  rsv c := (c.u 18 1 = 0 || c.u 18 1 = 4) && c.zero [(19, 1), (22, 2)]
  objs _ := [.routeTable]
  needs _ := [3]
  body c s := if needDram s then (eState, s) else fwdAns c (bit (c.u 18 1) 2) (routeRemove false (cmdRoute c) s)

/-- ROUTE_REMOVE. -/
def execRouteRemove (d : Doorbell) (p : List Byte) (s : State) : Out := command specRouteRemove d p s

/-- ROUTE_BULK (R536). -/
def specRouteBulk : OpSpec where
  op := 0x0A06
  modes := tabModes
  rsv c := c.zero [(28, 4)]
  objs _ := [.routeTable]
  needs _ := [3]
  body c s :=
    if c.u 16 8 % 8 != 0 || c.u 24 4 < 1 || 65536 < c.u 24 4 then (eArg, s) else if needDram s then (eState, s) else (.pending, s)

/-- ROUTE_BULK. -/
def execRouteBulk (d : Doorbell) (p : List Byte) (s : State) : Out := command specRouteBulk d p s

/-- A record of ROUTE_BULK is applied (R536). -/
def bulkRecord (r : List Byte) (s : State) : FwdAns :=
  let x : RouteRec := { fam := fld r 0 1, plen := fld r 1 1, flags := fld r 2 1, result := fld r 4 2, pre := slice r 8 16 }
  let op := fld r 3 1
  if 1 < op || 7 < x.flags || fld r 6 2 != 0 || (op = 1 && x.flags &&& 3 != 0) then (2, s)
  else
    let a := if op = 0 then routeAdd false x s else routeRemove false x s
    if a.1 = 0 && bit x.flags 2 then
      (0, sendUpdate (if op = 0 then 0x0A04 else 0x0A05) ([BitVec.ofNat 8 x.fam, BitVec.ofNat 8 x.plen, BitVec.ofNat 8 x.flags, 0] ++ le 2 x.result ++ [0, 0] ++ x.pre) a.2)
    else a

/-- Records are applied in order; a failing one stops them: applied, status of the failing one. -/
def bulkRun : Nat → List Byte → Nat → State → Nat × Option Nat × State
  | 0, _, k, s => (k, none, s)
  | n + 1, b, k, s =>
    match bulkRecord (slice b 0 24) s with
    | (0, s) => bulkRun n (b.drop 24) (k + 1) s
    | (e, s) => (k, some e, s)

/-- ROUTE_BULK_DONE (R536): the records are those read from host memory. -/
def execRouteBulkDone (records : List Byte) (s : State) : Out :=
  .next (match findLong s 0x0A06 with
    | none => s
    | some l =>
      let r := bulkRun (l.cmd.u 24 4) records 0 s
      let e := r.2.1
      endLong l { status := e.getD 0, data := le 4 r.1 ++ le 4 (if e.isSome then r.1 else 0xFFFFFFFF) ++ le 2 (e.getD 0) } r.2.2)

/-- NEXTHOP_SET. -/
def specNexthopSet : OpSpec where
  op := 0x0A07
  modes := inModes [2, 3, 4, 5, 6]
  rsv c := c.u 19 1 &&& 0xFA = 0 && c.u 38 2 < 512 && c.zero [(41, 3)]
  needs _ := [3]
  body c s := fwdAns c (bit (c.u 19 1) 2) (doNexthop false c s)

/-- NEXTHOP_SET. -/
def execNexthopSet (d : Doorbell) (p : List Byte) (s : State) : Out := command specNexthopSet d p s

/-- ECMP_SET. -/
def specEcmpSet : OpSpec where
  op := 0x0A08
  modes := inModes [2, 3, 4, 5, 6]
  rsv c := (c.u 19 1 = 0 || c.u 19 1 = 4) && (List.range 16).all fun i => i < c.u 18 1 || c.u (20 + 2 * i) 2 = 0
  needs _ := [3]
  body c s := fwdAns c (bit (c.u 19 1) 2) (doEcmp false c s)

/-- ECMP_SET. -/
def execEcmpSet (d : Doorbell) (p : List Byte) (s : State) : Out := command specEcmpSet d p s

/-- AGING_SET (R539): a new PERIOD_S applies from the next sweep start. -/
def specAgingSet : OpSpec where
  op := 0x0A09
  modes := tabModes
  rsv c := c.flagsBelow 20 1 && c.zero [(21, 3)] && c.u 18 2 < 1024
  needs _ := [3]
  body c s :=
    let pv := (List.range 8).map fun i => c.u (24 + 2 * i) 2
    let bv := (List.range 16).map fun i => c.u (40 + 2 * i) 2
    if 1000 < c.u 16 2 || (pv ++ bv).any (4094 < ·) then (eArg, s)
    else (.ok, s.onFwd fun f => { f with period := c.u 16 2, learn := c.u 18 2, ringLearn := bit (c.u 20 1) 0, pvid := pv, bssVid := bv })

/-- AGING_SET. -/
def execAgingSet (d : Doorbell) (p : List Byte) (s : State) : Out := command specAgingSet d p s

/-- FWD_STATS (R540). -/
def specFwdStats : OpSpec where
  op := 0x0A0A
  modes := inModes [2, 3, 4, 5, 6, 7]
  rsv c := c.flagsBelow 16 1 && c.zero [(17, 3)]
  needs _ := [3]
  body c s :=
    (.ok (le 4 s.fwd.l2n ++ le 4 (s.fwd.rn.getD 0 0) ++ le 4 (s.fwd.rn.getD 1 0) ++ le 4 (pinnedUsed s) ++ ctrBytes s.fwd.ctr),
      if bit (c.u 16 1) 0 then s.onFwd fun f => { f with ctr := zeroed f.ctr } else s)

/-- FWD_STATS. -/
def execFwdStats (d : Doorbell) (p : List Byte) (s : State) : Out := command specFwdStats d p s

/-! Table updates from the ring (R526 to R528). -/

/-- An announcement of another device: an entry that it has learned, moved or found hit, or has aged out (R528). -/
def announced (origin op : Nat) (c : Cmd) (s : State) : State :=
  let mac := unBe (c.bytes 16 6)
  let vid := c.u 22 2
  if op = 0x0A01 then learnAs mac vid 3 origin true s
  else match l2Find s mac vid with
    | some (b, i, e) => if !e.static && e.type = 3 && e.dest = origin then l2Del b i e s else s
    | none => s

/-- A table update is applied and counted, or rejected (R527). -/
def updateDone (c : Cmd) (o : OpSpec) (r : FwdAns) (s : State) : State :=
  if !o.rsv c then countFwd 17 s
  else if r.1 = 0 then countFwd 16 r.2 else if r.1 = 0xFFFF then countFwd 18 s else countFwd 17 s

/-- A table update is validated as its command and applied with REMOTE set. -/
def applyUpdate (origin : Nat) (body : List Byte) (s : State) : State :=
  let op := fld body 0 2
  let c : Cmd := { op, par := slice body 16 (min (body.length - 16) (fld body 6 2)) }
  let dram := dramReady s && s.modes.mode != 3
  match op with
  | 0x0A01 => if !dram then countFwd 17 s else if !bit (c.u 25 1) 2 then announced origin op c s else updateDone c specL2Add (doL2Add true c s) s
  | 0x0A02 => if !dram then countFwd 17 s else if !bit (c.u 24 1) 2 then announced origin op c s else updateDone c specL2Remove (doL2Remove true c s) s
  | 0x0A03 => if !dram then countFwd 17 s else updateDone c specL2Flush (0, (flushWalk c true s).2.2) s
  | 0x0A04 => if !dram then countFwd 17 s else updateDone c specRouteAdd (routeAdd true (cmdRoute c) s) s
  | 0x0A05 => if !dram then countFwd 17 s else updateDone c specRouteRemove (routeRemove true (cmdRoute c) s) s
  | 0x0A07 => updateDone c specNexthopSet (doNexthop true c s) s
  | 0x0A08 => updateDone c specEcmpSet (doEcmp true c s) s
  | _ => countFwd 17 s

end Sys2Proof.Machine
end

