-- ==== Sys2Proof/Machine/Flows.lean ====
section
/-!
DEFINITION. The commands of family 0x07 and the deadlines of bounded flows (R391, R397, R405 to R413).
-/
namespace Sys2Proof.Machine

/-- The parameters of BF_ADMIT (R408). -/
def bfParm (c : Cmd) (e : Nat) : BfParm where
  sta := c.u 18 2
  link := c.u 20 1
  dir := c.u 21 1
  tid := c.u 22 1
  flags := c.u 23 1
  maxFrame := c.u 24 2
  fpp := c.u 26 1
  attempts := c.u 27 1
  period := c.u 28 2
  deadline := c.u 30 2
  first := if c.u 32 6 = 0 then e else c.u 32 6
  given := c.u 32 6
  pinKind := c.u 38 1
  pinPlen := c.u 39 1
  pinVlan := c.u 40 2
  pinKey := c.bytes 44 16

/-- The fields of a flow are in range (R408). -/
def bfOk (s : State) (n : Nat) (p : BfParm) : Bool :=
  n ≤ 1023 && p.link ≤ 1 && p.dir ≤ 1 && p.tid ≤ 7 && 64 ≤ p.maxFrame && p.maxFrame ≤ 2304 && 1 ≤ p.fpp && p.fpp ≤ 16 && 1 ≤ p.attempts && p.attempts ≤ 4 &&
  1 ≤ p.period && p.period ≤ 1024 && 2 ≤ p.deadline && p.deadline ≤ 1024 && p.pinKind ≤ 3 && (p.pinKind != 1 || p.pinVlan ≤ 4094) &&
  (p.pinKind != 2 || p.pinPlen ≤ 32) && (p.pinKind != 3 || p.pinPlen ≤ 128) && p.sta ≤ 2047 &&
  match getSta s p.sta with
  | some x => x.p.links.getLsbD p.link
  | none => false

/-- Reserved fields of BF_ADMIT (R408). -/
def bfRsv (c : Cmd) : Bool := c.flagsBelow 23 2 && c.zero [(42, 2)]

/-- C × PLEDGE_FRAC / 100 (R408). -/
def bfLimit (s : State) (b : Nat) : Nat := usableAir s b * (getAB s b).frac / 100

/-- The response of BF_ADMIT (R408). -/
def bfData (s : State) (b reason : Nat) (r : AirTest) : List Byte := le 1 reason ++ [0] ++ le 6 r.beat ++ le 4 r.ns ++ le 4 (bfLimit s b)

/-- The parameters that govern a flow's latest periods. -/
def Bf.newest (x : Bf) : BfParm := (x.next.head?.map (·.2)).getD x.p

/-- The pledge of a flow's station does not hold, or is wanting (R391); an uplink pledge has at most TX_SS streams (R412). -/
def pledgeFails (s : State) (q : BfParm) : Bool :=
  match pledgeOf s q.sta q.link with
  | none => true
  | some p =>
    ((p.last.map fun m => decide (m < (p.margin : Int))).getD false) ||
    (q.dir = 1 && ((getSta s q.sta).map fun x => decide (x.p.txSs < p.ss)).getD false)

/-- The entry that a flow names to pin exists, and the pinned table has room for it (R405). -/
def pinFails (s : State) (n : Nat) (f : Bf) : Bool :=
  let q := f.p
  let t := s.onAir fun a => { a with bfs := Tab.set a.bfs n f }
  let found : Bool := match q.pinKind with
    | 1 => (l2Find s (unBe (q.pinKey.take 6)) q.pinVlan).isSome
    | 2 => (routeFind s 0 q.pinPlen (unBe (q.pinKey.take 4))).isSome
    | 3 => (routeFind s 1 q.pinPlen (unBe q.pinKey)).isSome
    | _ => true
  !found || (4096 < pinnedUsed t && pinnedUsed s < pinnedUsed t)

/-- The test of R391 for a flow against the others of its band: the first failure's status, its reason, and the dearest beat. -/
def admitTest (s : State) (n e : Nat) (f : Bf) : Nat × Nat × AirTest :=
  let q := f.newest
  let x := getAB s q.link
  let rest := s.air.bfs.filter fun g => g.1 != n
  let flows := Tab.set (rest.filter fun g => g.2.p.link = q.link) n f
  let h := hyper x e flows
  let r := airTest s q.link flows (turnBy x e) e h x.frac
  let need := sumOf ((rest.map fun g => bufferNeed g.2.newest)) + bufferNeed q
  if s.cad.state != 1 && s.cad.state != 5 then (0x0703, 0, {})
  else if pledgeFails s q then (0x0704, 0, {})
  else if 4096 < h then (0x0708, 0, {})
  else if noTurn x e h f then (0x0702, 0, {})
  else if r.fail != 0 then (0x0701, r.fail, r)
  else if 1024 * s.tm.bfKb < need then (0x0701, 2, r)
  else if pinFails s n f then (0x0705, 0, {})
  else (0, 0, r)

/-- The answer to a test, with the flow where it passes. -/
def admitAnswer (s : State) (n e : Nat) (f : Bf) : Ans × State :=
  let (st, reason, r) := admitTest s n e f
  let data := bfData s f.p.link reason r
  if st = 0 then (.okAir data, s.onAir fun a => { a with bfs := Tab.set a.bfs n f })
  else (.err st (if st = 0x0701 then data else []), s)

/-- BF_ADMIT (R408). -/
def specBfAdmit : OpSpec where
  op := 0x0701
  modes := inModes [5]
  rsv := bfRsv
  needs _ := [3]
  body c s :=
    let n := c.u 16 2
    let e := effBeat s true
    let q := bfParm c e
    if !bfOk s n q then (eArg, s)
    else if (getBf s n).isSome then (.err 0x0706, s)
    else if q.first < e && !bit q.flags 0 then (eArg, s)
    else admitAnswer s n e { p := q, from_ := e, nextK := ceilDiv (e - q.first) q.period }

/-- BF_ADMIT. -/
def execBfAdmit (d : Doorbell) (p : List Byte) (s : State) : Out := command specBfAdmit d p s

/-- BF_MODIFY (R409). -/
def specBfModify : OpSpec where
  op := 0x0702
  modes := inModes [5]
  rsv := bfRsv
  needs _ := [3]
  body c s :=
    let n := c.u 16 2
    let e := effBeat s true
    let q := bfParm c e
    if !bfOk s n q then (eArg, s)
    else match getBf s n with
      | none => (.err 0x0707, s)
      | some x =>
        let o := x.newest
        let new : BfParm := { o with maxFrame := q.maxFrame, fpp := q.fpp, attempts := q.attempts, deadline := q.deadline, flags := q.flags }
        if { q with first := o.first } != new || o.flags % 2 != q.flags % 2 then (eArg, s)
        else admitAnswer s n e { x with next := (e, new) :: x.next }

/-- BF_MODIFY. -/
def execBfModify (d : Doorbell) (p : List Byte) (s : State) : Out := command specBfModify d p s

/-- A flow leaves every plan (R394). -/
def unplan (n : Nat) (s : State) : State :=
  let user (u : PUser) : PUser := { u with bf := u.bf.filter fun t => t.1 != n }
  let ppdu (x : Ppdu) : Ppdu := if x.start.isSome then x else { x with users := x.users.map user }
  let band (x : AirBand) : AirBand := { x with plans := x.plans.map fun e => (e.1, { e.2 with ppdus := e.2.ppdus.map ppdu }) }
  s.onAir fun a => { a with m := band a.m, h := band a.h }

/-- A flow ends: its undecided periods are decided with a reason and BF_RELEASED is raised with a cause (R158, R410). -/
def endFlow (n reason cause : Nat) (s : State) : State :=
  match getBf s n with
  | none => s
  | some x =>
    let t := (x.periods.map (·.k)).foldl (fun s k => decide_ n k reason s) s
    let missed := ((getBf t n).map fun y => ctrAt y.ctr 2 - ctrAt x.ctr 2).getD 0
    let t := unplan n (t.onAir fun a => { a with bfs := Tab.erase a.bfs n })
    raise 0x0784 (some n) (le 1 cause ++ [0] ++ le 2 missed) t

/-- BF_RELEASE (R410). -/
def specBfRelease : OpSpec where
  op := 0x0703
  modes := inModes [5]
  rsv c := c.zero [(18, 2)]
  needs _ := [3]
  body c s :=
    let n := c.u 16 2
    if 1023 < n then (eArg, s)
    else if (getBf s n).isNone then (.err 0x0707, s)
    else (.okAir, endFlow n 13 0 s)

/-- BF_RELEASE. -/
def execBfRelease (d : Doorbell) (p : List Byte) (s : State) : Out := command specBfRelease d p s

/-- Offsets 16 to 59 of BF_ADMIT as stored (R411). -/
def bfBytes (n : Nat) (p : BfParm) : List Byte :=
  le 2 n ++ le 2 p.sta ++ le 1 p.link ++ le 1 p.dir ++ le 1 p.tid ++ le 1 p.flags ++ le 2 p.maxFrame ++ le 1 p.fpp ++ le 1 p.attempts ++ le 2 p.period ++
    le 2 p.deadline ++ le 6 p.given ++ le 1 p.pinKind ++ le 1 p.pinPlen ++ le 2 p.pinVlan ++ [0, 0] ++ pad 16 p.pinKey

/-- BF_STATUS (R411). -/
def specBfStatus : OpSpec where
  op := 0x0704
  rsv c := c.zero [(18, 2)]
  needs _ := [3]
  body c s :=
    let n := c.u 16 2
    if 1023 < n then (eArg, s)
    else match getBf s n with
      | none => (.ok ([0, 0, 0x80] ++ List.replicate 57 0), s)
      | some x =>
        let m := ((pledgeOf s x.p.sta x.p.link).bind (·.last)).getD (-128)
        let k := (curBeat s - x.p.first) / max 1 x.p.period
        let due := ((x.periods.map fun p => x.start p.k + p.deadline).foldl (fun m b => some (min b (m.getD b))) none).getD 0
        (.ok (le 1 x.st ++ le 1 x.causes.toNat ++ leI 1 m ++ [0] ++ le 4 k ++ le 6 due ++ [0, 0] ++ bfBytes n x.newest), s)

/-- BF_STATUS. -/
def execBfStatus (d : Doorbell) (p : List Byte) (s : State) : Out := command specBfStatus d p s

/-- The test of R391 for a band whose pledges or limits change (R412): some flow of the band is affected, and it fails. -/
def pledgeTest (s : State) (b : Nat) (affected : Bool) : Ans × State :=
  let x := getAB s b
  let e := effBeat s true
  let fs := bandBfs s b
  let h := hyper x e fs
  let r := airTest s b fs (turnBy x e) e h x.frac
  if affected && (4096 < h || r.fail != 0) then (.err 0x0701 (bfData s b (if 4096 < h then 1 else r.fail) r), s) else (.okAir, s)

/-- BF_PLEDGE_SET (R412). -/
def specBfPledgeSet : OpSpec where
  op := 0x0705
  modes := inModes [2, 4, 5, 6]
  rsv c := c.zero [(17, 3)] && (if c.u 16 1 = 0 then c.zero [(26, 2)] else c.u 16 1 != 1 || c.zero [(24, 4)])
  needs _ := [3]
  body c s :=
    match c.u 16 1 with
    | 0 =>
      let n := c.u 20 2
      let b := c.u 22 1
      let p : Pledge := { mcs := c.u 23 1, ss := c.u 24 1, margin := c.u 25 1 }
      let flows := s.air.bfs.filter fun f => f.2.p.sta = n && f.2.p.link = b
      match getSta s n with
      | none => (eArg, s)
      | some x =>
        if 1 < b || !x.p.links.getLsbD b || (if b = 0 then x.p.mcsM else x.p.mcsH) < p.mcs || p.ss < 1 || 4 < p.ss || 40 < p.margin ||
          (x.p.txSs < p.ss && flows.any fun f => f.2.p.dir = 1) then (eArg, s)
        else
          let p := match pledgeOf s n b with
            | some o => if o.mcs = p.mcs && o.ss = p.ss then { o with margin := p.margin } else p
            | none => p
          let t := s.onAir fun a => { a with pledges := Tab.set a.pledges (2 * n + b) p }
          let (r, t) := pledgeTest t b (!flows.isEmpty)
          (r, if r.status = 0 then t else s)
    | 1 =>
      let b := c.u 20 1
      let frac := c.u 21 1
      let cap := c.u 22 1
      if 1 < b || frac < 10 || 90 < frac || cap < frac || 95 < cap || c.u 23 1 < 1 then (eArg, s)
      else
        let t := onAB b (fun x => { x with frac, cap, review := c.u 23 1 }) s
        let (r, t) := pledgeTest t b (!(bandBfs s b).isEmpty)
        (r, if r.status = 0 then t else s)
    | _ => (eArg, s)

/-- BF_PLEDGE_SET. -/
def execBfPledgeSet (d : Doorbell) (p : List Byte) (s : State) : Out := command specBfPledgeSet d p s

/-- BF_STATS (R413). -/
def specBfStats : OpSpec where
  op := 0x0706
  rsv c := c.flagsBelow 18 1 && c.zero [(19, 1)]
  needs _ := [3]
  body c s :=
    let n := c.u 16 2
    if 1023 < n then (eArg, s)
    else match getBf s n with
      | none => (.err 0x0707, s)
      | some x => (.ok (ctrBytes x.ctr), if bit (c.u 18 1) 0 then onBf n (fun x => { x with ctr := zeroed x.ctr }) s else s)

/-- BF_STATS. -/
def execBfStats (d : Doorbell) (p : List Byte) (s : State) : Out := command specBfStats d p s

/-- BF_DEADLINE (R397): the period's deadline arrives; a DEGRADED flow's frames were served by contention (R398). -/
def execBfDeadline (bf k : Nat) (s : State) : Out :=
  .next (match s.modes.mode == 5, (getBf s bf).bind fun x => (x.period k).map fun p => (x, p) with
    | true, some (x, p) => decide_ bf k (if x.st = 3 then 10 else p.reason) (advanceTo (beatNs s (x.start k + p.deadline)) s)
    | _, _ => s)

end Sys2Proof.Machine
end

