-- ==== Sys2Proof/Machine/AirRx.lean ====
section
/-!
DEFINITION. Reception from the air: MPDUs, power save, buffer reports, reorder buffers, decryption, channel-state capture (R295,
R304, R322, R323, R329 to R332, R349, R358, R359, R363, R383, R568, R575, R578).
-/
namespace Sys2Proof.Machine

/-! The MAC header (IEEE 802.11, log entry 24). -/

/-- Type: 0 management, 1 control, 2 data. -/
def macType (m : List Byte) : Nat := (byteAt m 0).toNat / 4 % 4
/-- Subtype. -/
def macSub (m : List Byte) : Nat := (byteAt m 0).toNat / 16
/-- A flag of the second octet of Frame Control. -/
def macFlag (m : List Byte) (i : Nat) : Bool := (byteAt m 1).getLsbD i
/-- A QoS data frame. -/
def macQos (m : List Byte) : Bool := macType m = 2 && bit (macSub m) 3
/-- A data frame without a body. -/
def macNull (m : List Byte) : Bool := macType m = 2 && bit (macSub m) 2
/-- Offset of the QoS Control field. -/
def qosOff (m : List Byte) : Nat := if macFlag m 0 && macFlag m 1 then 30 else 24
/-- Length of the header with QoS Control, without HT Control. -/
def qosEnd (m : List Byte) : Nat := if macQos m then qosOff m + 2 else qosOff m
/-- An HT Control field is present. -/
def macHtc (m : List Byte) : Bool := macFlag m 7 && (macQos m || macType m = 0)
/-- Length of the header. -/
def macHdr (m : List Byte) : Nat := qosEnd m + if macHtc m then 4 else 0
/-- TID of a QoS frame, 0 of another. -/
def macTid (m : List Byte) : Nat := if macQos m then (byteAt m (qosOff m)).toNat % 8 else 0
/-- Sequence number. -/
def macSeq (m : List Byte) : Nat := fld m 22 2 / 16
/-- A fragment. -/
def macFrag (m : List Byte) : Bool := macFlag m 2 || fld m 22 2 % 16 != 0
/-- Replay counter of a frame (R578). -/
def replayOf (m : List Byte) : Nat := if macQos m then macTid m else 8

/-- The station that transmits a frame on a band (R329). -/
def staOf (s : State) (b : Nat) (m : List Byte) : Option (Nat × Sta) :=
  let a := fld m 10 6
  s.air.stas.find? fun e => (if b = 0 then e.2.p.addrM else e.2.p.addrH) = a && e.2.p.links.getLsbD b

/-! Delivery of MSDUs. -/

/-- A frame goes to the MGMT_RING of a BSS, where that is enabled (R330, R363). -/
def toMgmtRing (b bss : Nat) (k : HostPkt) (s : State) : State :=
  let ring := (Tab.getD (getAB s b).bss bss {}).ring
  if (getRing s ring).enabled then hostQueue ring k s else countAir b 9 s

/-- One MSDU leaves the MAC engine as an Ethernet frame (R330, R480). -/
def msduUp (b n tid : Nat) (secure : Bool) (t : Nat) (f : List Byte) (s : State) : State :=
  match getSta s n with
  | none => s
  | some x =>
    if x.p.flags.getLsbD 4 then
      toPath { src := 8 + b, srcId := n, bytes := f, tid, airVid := s.fwd.bssVid.getD (8 * b + x.p.bss) 0, ts := t, flags := if secure then 3 else 0 } s
    else if byteAt f 12 = 0x88 && byteAt f 13 = 0x8E then
      toMgmtRing b x.p.bss { srcType := 2, reason := 2, srcId := n, flags := if secure then 3 else 0, ts := t, bytes := f } s
    else countSta n 6 s

/-- An MPDU leaves the reorder buffer: the replay check, then its MSDUs (R578). -/
def mpduUp (n : Nat) (r : RxMsdu) (s : State) : State :=
  let go (s : State) : State := r.msdus.foldl (fun s f => msduUp r.band n r.tid r.key.isSome r.at_ f s) s
  match r.key with
  | none => go s
  | some (k, i, pn) => match Tab.get? s.cipher.slots k with
    | none => go s
    | some x =>
      if pn ≤ x.replay.getD i 0 then countCipher 4 s
      else go (onSlot k (fun x => { x with replay := setAt x.replay i pn }) s)

/-! Reorder buffers (R358). -/

/-- Distance of a sequence number from the window's start. -/
def Reorder.dist (r : Reorder) (sn : Nat) : Nat := (sn + 4096 - r.next % 4096) % 4096

/-- Held MPDUs in sequence order. -/
def Reorder.inOrder (r : Reorder) : List (Nat × RxMsdu) := sortDesc (fun e => -((r.dist e.1 : Nat) : Int)) r.held

/-- The window moves to a sequence number: what is held before it leaves. -/
def Reorder.moveTo (r : Reorder) (sn : Nat) : List RxMsdu × Reorder :=
  let d := r.dist sn
  ((r.inOrder.filter fun e => r.dist e.1 < d).map (·.2), { next := sn % 4096, held := r.held.filter fun e => d ≤ r.dist e.1 })

/-- MPDUs without a hole before them leave: so many at most. -/
def Reorder.run : Nat → Reorder → List RxMsdu × Reorder
  | 0, r => ([], r)
  | k + 1, r => match Tab.get? r.held r.next with
    | none => ([], r)
    | some m =>
      let (l, q) := Reorder.run k { next := (r.next + 1) % 4096, held := Tab.erase r.held r.next }
      (m :: l, q)

/-- An MPDU enters a buffer of a size: what leaves. -/
def Reorder.put (size sn : Nat) (m : RxMsdu) (r : Reorder) : List RxMsdu × Reorder :=
  if 2048 ≤ r.dist sn || (Tab.get? r.held sn).isSome then ([], r)
  else
    let (a, r) := if r.dist sn < size then ([], r) else r.moveTo ((sn + 4097 - size) % 4096)
    let (c, r) := Reorder.run (size + 1) { r with held := Tab.set r.held sn m }
    (a ++ c, r)

/-- A buffer of a station is replaced, and what leaves it goes up. -/
def reorderStep (n tid : Nat) (f : Reorder → List RxMsdu × Reorder) (start : Nat) (s : State) : State :=
  match getSta s n with
  | none => s
  | some x =>
    let (out, r) := f (Tab.getD x.reorder tid { next := start })
    out.foldl (fun s m => mpduUp n m s) (onSta n (fun x => { x with reorder := Tab.set x.reorder tid r }) s)

/-- REORDER_TIMEOUT (R358): the hole before the first held MPDU has waited REORDER_MS. -/
def execReorderTimeout (sta tid : Nat) (s : State) : Out :=
  .next (match (getSta s sta).bind fun x => (Tab.get? x.reorder tid).map fun r => (x, r) with
    | none => s
    | some (_, r) => match r.inOrder.head? with
      | none => s
      | some h =>
        let since := r.held.foldl (fun t e => min t e.2.at_) h.2.at_
        let s := advanceTo (since + 10 ^ 6 * (getAB s h.2.band).reorderMs) s
        reorderStep sta tid (fun r => let (a, q) := r.moveTo h.1; let (c, q) := Reorder.run 1024 q; (a ++ c, q)) 0 s)

/-! Data frames. -/

/-- The Ethernet form of an MSDU with its addresses (log entry 24). -/
def etherOf (da sa m : List Byte) : List Byte :=
  let snap := slice m 0 6
  if snap == [0xAA, 0xAA, 3, 0, 0, 0] || snap == [0xAA, 0xAA, 3, 0, 0, 0xF8] then da ++ sa ++ m.drop 6
  else da ++ sa ++ be 2 m.length ++ m

/-- The subframes of an A-MSDU: so many at most. -/
def subframes : Nat → List Byte → List (List Byte)
  | 0, _ => []
  | k + 1, b =>
    let n := unBe (slice b 12 2)
    if b.length < 14 || b.length < 14 + n then []
    else etherOf (b.take 6) (slice b 6 6) (slice b 14 n) :: subframes k (b.drop ((14 + n + 3) / 4 * 4))

/-- The MSDUs of a data frame's body (R332). -/
def msdusOf (x : Sta) (m body : List Byte) : List (List Byte) :=
  if macNull m then []
  else if macQos m && (byteAt m (qosOff m)).getLsbD 7 then (if 7935 < body.length then [] else subframes 600 body)
  else [etherOf (slice m 16 6) (le 6 x.p.mld) body]

/-- An uplink MPDU counts for a flow (R383): for the earliest open period, in its window, that is short of frames. -/
def countUplink (b n tid t : Nat) (s : State) : State :=
  let beat := beatAt s t
  let hit (e : Nat × Bf) : Option (Nat × Nat × Nat) :=
    if e.2.p.sta = n && e.2.p.link = b && e.2.p.dir = 1 && e.2.p.tid = tid then
      (e.2.periods.find? fun p => e.2.start p.k ≤ beat && beat < e.2.start p.k + p.deadline && !p.open_.isEmpty).bind fun p =>
        p.open_.head?.map fun i => (e.1, p.k, i)
    else none
  match s.air.bfs.findSome? hit with
  | some (f, k, i) => delivered f k i s
  | none => s

/-- A data frame that has passed its checks. -/
def dataUp (b n t : Nat) (m body : List Byte) (key : Option (Nat × Nat × Nat)) (s : State) : State :=
  match getSta s n with
  | none => s
  | some x =>
    let s := countSta n 5 s
    let tid := macTid m
    let s := if macNull m then s else countUplink b n tid t s
    let r : RxMsdu := { msdus := msdusOf x m body, at_ := t, band := b, tid, key }
    if macQos m && !macNull m && x.p.rxBa.getLsbD tid then reorderStep n tid (Reorder.put x.p.baSize (macSeq m) r) (macSeq m) s
    else if macNull m then s else mpduUp n r s

/-- A management frame goes to its BSS's ring (R363). -/
def mgmtUp (b t : Nat) (sta : Option Nat) (m : List Byte) (secure : Bool) (s : State) : State :=
  let id := fld m 16 6
  let bss := ((getAB s b).bss.find? fun e => e.2.bssid = id).map (·.1)
  toMgmtRing b (bss.getD 0) { srcType := 6, reason := 2, srcId := sta.getD 0xFFFF, flags := if secure then 3 else 0, ts := t, bytes := m } s

/-! The cipher engine (R568, R575, R578). -/

/-- The packet number of a protected frame. -/
def rxPn (m : List Byte) : Nat := let h := macHdr m; fld m h 2 + 65536 * fld m (h + 4) 4

/-- The plaintext of a station's protected frame under a slot, where its MIC verifies (R566). -/
def unsealed (x : Sta) (y : Slot) (m : List Byte) : Option (List Byte) :=
  let addr (o : Nat) : List Byte := mldAddr x (slice m 4 6) (slice m o 6)
  macOpen y.type (slotKey y) m (addr 4) (addr 10) (addr 16) (rxPn m) (m.drop (macHdr m + 8))

/-- The oldest received frame that waits is decrypted and checked. -/
def decryptOldest (s : State) : State :=
  match s.air.rxq with
  | [] => s
  | j :: rest =>
    let s := s.onAir fun a => { a with rxq := rest }
    match getSta s j.sta with
    | none => s
    | some x =>
      let h := macHdr j.mpdu
      let id := (byteAt j.mpdu (h + 3)).toNat / 64
      let pair := if x.p.ks % 2 = 0 then x.p.ks + 1 else x.p.ks - 1
      match [x.p.ks, pair].find? fun k => ((Tab.get? s.cipher.slots k).map (·.keyId)) = some id with
      | none => countCipher 0 s
      | some k => match slotUse s k [x.p.cipher] false with
        | .inr i => countCipher i s
        | .inl y => match unsealed x y j.mpdu with
          | none => countCipher 3 s
          | some plain =>
            if macType j.mpdu = 0 then
              let pn := rxPn j.mpdu
              if pn ≤ y.replay.getD 8 0 then countCipher 4 s
              else mgmtUp j.band j.at_ (some j.sta) (j.mpdu.take h ++ plain) true (onSlot k (fun y => { y with replay := setAt y.replay 8 pn }) s)
            else dataUp j.band j.sta j.at_ j.mpdu plain (some (k, replayOf j.mpdu, rxPn j.mpdu)) s

/-- A frame of a plan is protected in staging (R331, R577); where its key does not serve it is discarded. -/
def protectStaged (b beat i u j : Nat) (s : State) : State :=
  match getPlan s b beat, (getPpdu s b beat i).bind fun x => x.users[u]? with
  | some p, some v => match getSta s v.sta with
    | none => s
    | some x =>
      if p.st != 2 || x.p.cipher = 0 then s
      else
        let onUser (f : PUser → PUser) (s : State) : State := onPpdu b beat i (fun y => { y with users := updAt y.users u f }) s
        if j < v.frames.length then
          if ((v.frames[j]?).bind (·.pn)).isSome then s
          else match protect x.p.ks [x.p.cipher] s with
            | (some pn, s) => onUser (fun v => { v with frames := updAt v.frames j fun f => { f with pn := some pn } }) s
            | (none, s) => onUser (fun v => { v with frames := v.frames.eraseIdx j }) s
        else match v.bf[j - v.frames.length]? with
          | none => s
          | some (n, k, f) =>
            let old := ((getBf s n).bind fun y => y.period k).bind fun q => (q.frames[f]?).bind fun g => g.1.pn
            if old.isSome then s
            else match protect x.p.ks [x.p.cipher] s with
              | (some pn, s) => onBf n (Bf.onPeriod k fun q => { q with frames := updAt q.frames f fun g => ({ g.1 with pn := some pn }, g.2) }) s
              | (none, s) =>
                let s := onUser (fun v => { v with bf := v.bf.filter fun t => t != (n, k, f) }) s
                if v.bf.any fun t => t != (n, k, f) && t.1 = n && t.2.1 = k then s else consume n k 1 s
  | _, _ => s

/-- CIPHER_FRAME_DONE (R568, R571). -/
def execCipherFrameDone (job : CipherJob) (s : State) : Out :=
  .next (onlyIf (domOn s 3) (fun s => match job with
    | .stage band beat ppdu user frame => protectStaged band.num beat ppdu user frame s
    | .received => decryptOldest s) s)

/-! Reports and power save (R349, R359). -/

/-- Bytes that a Queue Size octet of a QoS Control field reports, none where it says nothing (IEEE 802.11ax, log entry 24). -/
def queueSize (q : Nat) : Option Nat :=
  let u := q % 64
  match q / 64 with
  | 0 => some (16 * u)
  | 1 => some (1024 + 256 * u)
  | 2 => some (17408 + 2048 * u)
  | _ => if u < 62 then some (148480 + 32768 * u) else if u = 62 then some 2147328 else none

/-- A station's report for a TID. -/
def reportTid (n tid bytes : Nat) (s : State) : State :=
  onSta n (fun x => { x with bsr := if bytes = 0 then Tab.erase x.bsr tid else Tab.set x.bsr tid bytes }) s

/-- A BSR Control field's 26 bits: the highest queue of its class, and the rest of the total on another class that it names. -/
def reportBsr (n v : Nat) (s : State) : State :=
  let scale := [16, 256, 2048, 32768].getD (v / 256 % 4) 16
  let hi := v / 1024 % 256
  let all := v / 262144 % 256
  let tidOf (aci : Nat) : Nat := [0, 1, 5, 7].getD aci 0
  let top := v / 64 % 4
  let rest := ((List.range 4).filter fun a => bit v a && a != top).getLast?
  if hi = 255 || all = 255 then s
  else
    let s := onSta n (fun x => { x with bsr := [] }) s
    let s := reportTid n (tidOf top) (hi * scale) s
    match rest with
    | some a => reportTid n (tidOf a) ((all - hi) * scale) s
    | none => s

/-- Buffer reports of a frame. -/
def reports (n : Nat) (m : List Byte) (s : State) : State :=
  let s := if macQos m && (byteAt m (qosOff m)).getLsbD 4 then
      match queueSize (byteAt m (qosOff m + 1)).toNat with
      | some k => reportTid n (macTid m) k s
      | none => s
    else s
  if macHtc m && fld m (qosEnd m) 4 % 4 = 3 && fld m (qosEnd m) 4 / 4 % 16 = 3 then reportBsr n (fld m (qosEnd m) 4 / 64) s else s

/-- The power-management bit, a PS-Poll or a UAPSD trigger (R359). -/
def powerSave (b n : Nat) (m : List Byte) (s : State) : State :=
  onSta n (fun x =>
    let pm := macFlag m 4
    let x := Sta.onLink b (fun l => { l with dozing := pm, psPoll := l.psPoll && pm, sp := l.sp && pm }) x
    if macType m = 1 && macSub m = 10 then Sta.onLink b (fun l => { l with psPoll := true }) x
    else if pm && macQos m && x.p.uapsd.getLsbD (acOf (macTid m)) then Sta.onLink b (fun l => { l with sp := true }) x
    else x) s

/-- A BlockAckReq moves the window (R358). -/
def barMoves (n : Nat) (m : List Byte) (s : State) : State :=
  let tid := fld m 16 2 / 4096
  let sn := fld m 18 2 / 16
  match getSta s n with
  | none => s
  | some x =>
    if tid < 8 && x.p.rxBa.getLsbD tid then
      reorderStep n tid (fun r => if 2048 ≤ r.dist sn then ([], r) else
        let (a, q) := r.moveTo sn
        let (c, q) := Reorder.run (x.p.baSize + 1) q
        (a ++ c, q)) sn s
    else s

/-! A PPDU. -/

/-- One MPDU of a PPDU with a good FCS. -/
def mpduIn (b : Nat) (form t : Nat) (m : List Byte) (s : State) : State :=
  match staOf s b m with
  | none =>
    match macType m with
    | 2 => if form = 0 then countPhy b 13 s else countAir b 12 s
    | 0 => if macFrag m then countAir b 11 s else mgmtUp b t none m false s
    | _ => s
  | some (n, x) =>
    let s := reports n m (powerSave b n m (linkHeard b n s))
    match macType m with
    | 2 =>
      if form = 0 then countPhy b 13 s
      else if macFrag m then countAir b 11 s
      else if macNull m then dataUp b n t m [] none s
      else if macFlag m 6 != (x.p.cipher != 0) then countSta n 7 s
      else if macFlag m 6 then s.onAir fun a => { a with rxq := a.rxq ++ [{ band := b, sta := n, at_ := t, mpdu := m }] }
      else dataUp b n t m (m.drop (macHdr m)) none s
    | 0 =>
      if macFrag m then countAir b 11 s
      else if macFlag m 6 then s.onAir fun a => { a with rxq := a.rxq ++ [{ band := b, sta := n, at_ := t, mpdu := m }] }
      else mgmtUp b t (some n) m false s
    | 1 => if macSub m = 8 then barMoves n m s else s
    | _ => s

/-- Frames of a flow that its station has not offered (R383): it answered the trigger with a QoS Null, or reported 0 for the TID and
sent none of it. -/
def notOffered (b : Nat) (trig : Nat × Nat) (ms : List (List Byte)) (s : State) : State :=
  match getPpdu s b trig.1 trig.2 with
  | none => s
  | some x => if !x.bf then s else (x.users.flatMap fun u => u.bf.map fun t => (u.sta, t.1, t.2.1)).eraseDups.foldl (fun s e =>
    let (n, f, k) := e
    let mine := ms.filter fun m => ((staOf s b m).map (·.1)) = some n
    match (getBf s f).bind fun y => (y.period k).map fun p => (y, p) with
    | none => s
    | some (y, p) =>
      let null := mine.any fun m => macQos m && macNull m
      let none_ := mine.any (fun m => macQos m && macTid m = y.p.tid && (byteAt m (qosOff m)).getLsbD 4 && byteAt m (qosOff m + 1) = 0) &&
        !(mine.any fun m => macQos m && !macNull m && macTid m = y.p.tid)
      let waiting := (s.air.rxq.filter fun j => j.sta = n && macType j.mpdu = 2 && macTid j.mpdu = y.p.tid).length
      let left := p.open_.length - waiting
      if y.p.dir = 1 && (null || none_) && 0 < left then countBf f 4 (onBf f (Bf.onPeriod k fun p => { p with notOffered := p.notOffered + left }) s) left
      else s) s

/-- The entries of the chains that are enabled and not excluded; the others hold 0 (R309). -/
def liveH (f : Band) (h : List Byte) : List Byte :=
  let v := unLe (pad 240 h)
  le 240 (sumOf (f.chains.zipIdx.map fun c => if c.1.enabled && c.1.cause = 0 then v / 2 ^ (20 * c.2) % 2 ^ 20 * 2 ^ (20 * c.2) else 0))

/-- A block is captured (R304, R308): the previous beat's block stays current until the next beat. -/
def capture (b source : Nat) (k : CsiMeas) (s : State) : State :=
  let p := getPhy s b
  if (getSta s k.sta).isNone || 3 < k.stream || toneGroups (getBand s b).ch.width ≤ k.group || k.snr < p.minSnr || !dramReady s then s
  else
    let c : CsiBlock := { beat := curBeat s, source, snr := k.snr, exp := k.exp, h := liveH (getBand s b) k.h }
    countPhy b 4 (s.onAir fun a => { a with csiNew := Tab.set a.csiNew (csiKey k.sta b k.stream k.group) c })

/-- The channel state that a PPDU gives (R304): SOUND_EN for one solicited in a sounding slot, else PASSIVE. -/
def captures (b : Nat) (rx : RxPpdu) (s : State) : State :=
  let sounding := ((rx.trig.bind fun t => getPpdu s b t.1 t.2).map (·.sounding)).getD false
  let on := (getPhy s b).sndFlags.getLsbD (if sounding then 0 else 1)
  if on && (rx.form = 1 || rx.form = 2) then rx.csi.foldl (fun s k => capture b (if sounding then 1 else 2) k s) s else s

/-- AIR_RX_PPDU (R295, R322, R323): a reception ends. -/
def execAirRxPpdu (band : BandId) (rx : RxPpdu) (s : State) : Out :=
  let b := band.num
  .next (onlyIf (rxOpen s b && (rx.form = 2 || (getPhy s b).rx = 2)) (fun s =>
    let s := onPhy b (fun p => if rx.form = 2 then p else { p with rx := 0 }) (advanceTo rx.t s)
    if rx.blanked then countPhy b 11 s
    else if rx.form = 3 then countPhy b 13 s
    else
      let s := captures b rx (countPhy b 12 s rx.erased)
      let ms := (rx.mpdus.filter (·.fcsOk)).map (·.bytes)
      let s := ms.foldl (fun s m => mpduIn b rx.form rx.t m s) s
      match rx.trig with
      | some t => notOffered b t ms s
      | none => s) s)

end Sys2Proof.Machine
end

