-- ==== Sys2Proof/Machine/AirEdges.lean ====
section
/-!
DEFINITION. Blanking inputs, the end of a channel change, the air's silence after SERVE, and the end of a mode's stage (R154, R157,
R158, R230, R248, R250, R442).
-/
namespace Sys2Proof.Machine

/-! Blanking (R248, R442). -/

/-- BLANK_IN_ASSERT (R248): what each radio that becomes blanked does. -/
def execBlankInAssert (input : BitVec 2) (s : State) : Out :=
  let t := s.onFe fun f => { f with blankIn := f.blankIn ||| ((1 : BitVec 4) <<< input.toNat) }
  .next ((List.range 6).foldl (fun u r =>
    if blanked t r && !blanked s r then (if r < 2 then cutShort r 0x0413 u else blankNb (r - 2) u) else u) t)

/-- BLANK_IN_RELEASE (R248): transmissions may begin again; the detectors stay held for BLANK_TAIL_NS. -/
def execBlankInRelease (input : BitVec 2) (s : State) : Out :=
  .next (s.onFe fun f => { f with blankIn := f.blankIn &&& ~~~((1 : BitVec 4) <<< input.toNat) })

/-- BLANK_TAIL_EXPIRY (R442): the detectors of the radios that no input blanks are freed. -/
def execBlankTailExpiry (input : BitVec 2) (s : State) : Out :=
  .next (onlyIf (!s.fe.blankIn.getLsbD input.toNat) (fun s => s.onNb fun n => { n with
    x := n.x.zipIdx.map fun x => if (s.fe.blankMap.getD input.toNat 0).getLsbD (2 + x.2) && !blanked s (2 + x.2) then { x.1 with held := false } else x.1 }) s)

/-! Channel changes (R230, R250, R279). -/

/-- A band takes another channel: on another centre its chain-level values are PROVISIONAL and are measured first (R279). -/
def newChannel (b : Nat) (ch : Channel) (s : State) : State :=
  let old := (getBand s b).ch
  let s := if old.width != ch.width || old.center != ch.center then setChannel b ch s else onBand b (fun f => { f with ch }) s
  if old.center = ch.center then s
  else
    let s := onAB b (fun a => { a with recipDue := true }) s
    (List.range 96).foldl (fun s i => onCC (96 * b + i) (fun c => { c with provisional := [6, 3, 4], due := [3, 4] ++ c.due.filter fun t => t != 3 && t != 4 }) s) s

/-- A synthesizer that has not FAILED is locked. -/
def relock (n : Nat) (f : Band) : Band := if f.synth n = 4 then f else f.setSynth n 1

/-- BAND_CONFIG_DONE (R230, R250): in SERVE the standby is on the new channel, which becomes the band's three beats on; elsewhere both
synthesizers are. Where the lock failed, the old channel stays. -/
def execBandConfigDone (band : BandId) (ok : Bool) (s : State) : Out :=
  let b := band.num
  .next (match findLong s 0x0401 (fun c => c.u 16 1 == b), (getBand s b).retune with
    | some l, some ch =>
      let both (s : State) : State := onBand b (fun f => { relock 1 (relock 0 f) with retune := none, tracked := f.synth 0 != 4 && f.synth 1 != 4 }) s
      if !ok then endLong l (.err 0x0404) (both s)
      else if s.modes.mode = 5 then
        endLong l .okAir (onBand b (fun f => { relock (1 - f.main) f with retune := none, switchAt := some (effBeat s true, ch), guardBeat := some (effBeat s true) }) s)
      else endLong l .okAir (refreshOuts (newChannel b ch (both s)))
    | _, _ => s)

/-- The selector makes the retuned synthesizer the main at the effective beat, and the former main retunes (R230). -/
def mainSwitch (b n : Nat) (s : State) : State :=
  match (getBand s b).switchAt with
  | none => s
  | some (k, ch) =>
    if n < k then s
    else refreshOuts (newChannel b ch (onBand b (fun f =>
      { (f.setSynth f.main 3) with main := 1 - f.main, switchAt := none, tracked := false, loReady := false, guardBeat := some k }) s))

/-! The end of SERVE (R157, R158). -/

/-- Access-class frames still queued are discarded and counted, per band. -/
def flushAir (s : State) : State :=
  let n (b : Nat) : Nat := sumOf (s.air.stas.map fun e => sumOf (e.2.q.map fun q =>
    (q.filter fun f => f.band.getD (if e.2.p.links.getLsbD 0 then 0 else 1) = b).length))
  let t := s.onAir fun a => { a with stas := a.stas.map fun e => (e.1, { e.2 with q := [[], [], [], []] }) }
  countAir 1 2 (countAir 0 2 t (n 0)) (n 1)

/-- The beat c of a SERVE exit that has committed. -/
def serveExit (s : State) : Option Nat :=
  s.modes.trans.bind fun t => if s.modes.mode = 5 && t.stage = 4 && t.committed then some t.commitBeat else none

/-- SERVE_EXIT_SILENCE (R157, R158): at (c+3):0 the flows end, the queues are flushed and WARM is reached. -/
def execServeExitSilence (s : State) : Out :=
  .next (match serveExit s with
    | none => s
    | some c =>
      let s := advanceTo (beatNs s (c + 3)) s
      let s := (s.air.bfs.map (·.1)).foldl (fun s n => endFlow n 14 1 s) s
      let s := flushAir (discardPlans s)
      let s := s.onAir fun a => { a with m := { a.m with plans := [] }, h := { a.h with plans := [] } }
      stageReached (calValid s) s)

/-! Stages (R154). -/

/-- The domains that a mode needs are on. -/
def domainsUp (s : State) (mode : Nat) : Bool := (needed mode).all fun d => (getDom s d).st = 1 || (getDom s d).st = 3

/-- MODE_TRANSITION_DONE (R154, R184): the stage reaches its mode; in SAFE the MODE_SET that asked for it ends. -/
def execModeTransitionDone (s : State) : Out :=
  .next (match s.modes.trans with
    | some t =>
      if (serveExit s).isSome || t.handshaking || (isEntry s.modes.mode t.stage && !t.committed) || !domainsUp s t.stage then s
      else stageReached (calValid s) s
    | none =>
      if s.modes.mode != 7 then s
      else match findLong s 0x0201 with
        | none => s
        | some l =>
          let us := (nowNs s - l.startNs) / 1000
          endLong l { data := [7, 0xFF, 0, 0xFF] ++ le 4 us ++ le 4 0 } s)

end Sys2Proof.Machine
end

