-- ==== Sys2Proof/Machine/CragBase.lean ====
section
/-!
DEFINITION. The Crag cores: windows, faults, the end of a dispatch, loops and the form of a step (R596 to R599, R602, R603, R615,
R619, R624, R625, R631).
-/
namespace Sys2Proof.Machine

/-- A core: 0 to 31 of Massif, 32 Summit. -/
def getCore (s : State) (n : Nat) : Core := s.col.cores.getD n {}

/-- Replace a core by its image. -/
def onCore (n : Nat) (f : Core → Core) (s : State) : State := s.onCol fun c => { c with cores := updAt c.cores n f }

/-- Replace a kernel by its image. -/
def onKernel (n : Nat) (f : Kernel → Kernel) (s : State) : State :=
  match Tab.get? s.col.kernels n with
  | some k => s.onCol fun c => { c with kernels := Tab.set c.kernels n (f k) }
  | none => s

/-! The end of a dispatch (R596, R598, R599, R603). -/

/-- A packet leaves Massif by a disposition: 0 drop, 1 forward, 2 host ring (R603). -/
def dispose (disp ring : Nat) (bytes : List Byte) (p : ColPkt) (s : State) : State :=
  let q := { p.pkt with bytes }
  let x : Fwded := { pkt := q, par := parse s.mlad bytes, hash := p.hash, up := p.up, tc := p.tc, rule := p.rule }
  match disp with
  | 1 => forward x s
  | 2 => if 32 ≤ ring && ring ≤ 61 then toHostRing ring 1 x bytes s else s
  | _ => s

/-- The oldest entries of a task's group whose dispatch has ended are released, in arrival order: so many at most (R596). -/
def releaseRob (task group : Nat) : Nat → State → State
  | 0, s => s
  | n + 1, s => match s.col.rob.find? fun e => e.2.task = task && e.2.group = group with
    | none => s
    | some (key, r) => match r.done with
      | none => s
      | some (disp, ring, bytes) =>
        let s := s.onCol fun c => { c with rob := Tab.erase c.rob key }
        let s := traceOpen r.task r.core (if disp = 0 then 6 else 5) r.flags r.prio s
        releaseRob task group n (dispose disp ring bytes r.pkt s)

/-- A packet dispatch ends with a disposition. -/
def endPacket (d : Disp) (disp ring : Nat) (bytes : List Byte) (s : State) : State :=
  match d.pkt with
  | none => s
  | some p => match d.rob with
    | none => dispose disp ring bytes p s
    | some key => match Tab.get? s.col.rob key with
      | none => s
      | some r =>
        releaseRob r.task r.group s.col.rob.length
          (s.onCol fun c => { c with rob := Tab.set c.rob key { r with done := some (disp, ring, bytes) } })

/-- The core of a dispatch is free again; its busy time is counted (R605, R613). -/
def freeCore (n : Nat) (s : State) : State :=
  let now := nowNs s
  let b0 := beatNs s (curBeat s)
  onCore n (fun k => { k with
    run := none
    busyNs := k.busyNs + ((k.run.map fun d => now - d.startNs).getD 0)
    gauge := updAt k.gauge 0 fun g => g + ((k.run.map fun d => now - max d.startNs b0).getD 0) }) s

/-- The trace record of a dispatch's end, with its run time. -/
def traceEnd (n kind : Nat) (d : Disp) (s : State) : State :=
  traceRec d.task n kind d.flags.toNat ((nowNs s - d.startNs) / 10) (((getTask s d.task).map (·.prio)).getD 0) s

/-- A kernel stops: its tasks are no longer ready, and their packet queues are dropped (R610). -/
def stopKernel (n : Nat) (s : State) : State :=
  let k := sumOf (s.col.tasks.map fun e => if e.2.kernel = n then e.2.queue.length else 0)
  let s := s.onCol fun c => { c with tasks := c.tasks.map fun e => if e.2.kernel = n then (e.1, { e.2 with queue := [] }) else e }
  countCol 3 (onKernel n (fun k => { k with started := false }) s) k

/-- A kernel's dispatch has failed: after FAULT_LIMIT in a row it is stopped (R598). -/
def kernelFails (n : Nat) (s : State) : State :=
  match Tab.get? s.col.kernels n with
  | none => s
  | some k =>
    if k.started && k.limit ≤ k.fails + 1 then
      raise 0x0D82 none (le 2 n ++ [1]) (stopKernel n (onKernel n (fun k => { k with fails := 0 }) s))
    else onKernel n (fun k => { k with fails := k.fails + 1 }) s

/-- The dispatch of a core ends as a fault at an address (R598). -/
def kernelFault (n : Nat) (addr : W32) (s : State) : State :=
  match (getCore s n).run with
  | none => s
  | some d =>
    let s := traceEnd n 2 d s
    let s := countCol 2 (onCore n (fun k => { k with gauge := updAt k.gauge 3 (· + 1) }) (freeCore n s))
    let s := endPacket d 0 0 [] s
    let s := raise 0x0D80 none (le 2 d.kernel ++ le 2 d.task ++ le 1 n ++ [0, 0, 0] ++ le 4 addr.toNat) s
    kernelFails d.kernel s

/-- The dispatch of a core ends at its budget or at the kernel deadline (R599). -/
def overrun (n : Nat) (s : State) : State :=
  match (getCore s n).run with
  | none => s
  | some d =>
    let s := traceEnd n 3 d s
    let s := countCol 1 (onCore n (fun k => { k with gauge := updAt k.gauge 2 (· + 1) }) (freeCore n s))
    let s := endPacket d 0 0 [] s
    let again := ((Tab.get? s.col.kernels d.kernel).map fun k => k.overrunBeat == some (curBeat s)).getD false
    let s := if again then s
      else raise 0x0D81 none (le 2 d.kernel ++ le 2 d.task ++ le 1 n) (onKernel d.kernel (fun k => { k with overrunBeat := some (curBeat s) }) s)
    kernelFails d.kernel s

/-! Windows (R597, R615). -/

/-- The bytes of the CSI window at an address. -/
def csiBytes (s : State) (a n : Nat) : List Byte :=
  let i := a / 256
  let g := i % 125
  let st := i / 125 % 4
  let b := i / 500 % 2
  let sta := i / 1000
  match Tab.get? s.air.csi (csiKey sta b st g) with
  | some k => slice (blockBytes sta st g k) (a % 256) n
  | none => List.replicate n 0

/-- The kernel that a core runs. -/
def kernelOf (s : State) (k : Core) : Option (Nat × Kernel) := k.run.bind fun d => (Tab.get? s.col.kernels d.kernel).map fun x => (d.kernel, x)

/-- A naturally aligned read of a size, none where it faults. -/
def cragRead (s : State) (n : Nat) (k : Core) (a size : Nat) : Option (List Byte) :=
  if a % size != 0 then none
  else if n = 32 then some ((List.range size).map fun i => (Tab.get? k.mem (a + i)).getD (Config.summitByte (a + i)))
  else if a < 0x1C000 then some (memRead k.mem a size)
  else if 0x10000000 ≤ a && a < 0x20000000 then
    (kernelOf s k).bind fun x => if a - 0x10000000 < 1024 * x.2.sharedKb then some (memRead x.2.shared (a - 0x10000000) size) else none
  else if 0x20000000 ≤ a && a < 0x20200000 then
    some ((List.range size).map fun i => (Tab.get? s.col.views (a - 0x20000000 + i)).getD (Config.viewsByte s.drawn (a - 0x20000000 + i)))
  else if 0x40000000 ≤ a && a < 0x5F400000 then some (csiBytes s (a - 0x40000000) size)
  else none

/-- A naturally aligned write, none where it faults. -/
def cragWrite (n a : Nat) (b : List Byte) (k : Core) (s : State) : Option (Core × State) :=
  if a % b.length != 0 then none
  else if n = 32 then some ({ k with mem := putBytes k.mem a b }, s)
  else if a < 0x1C000 then some ({ k with mem := memWrite k.mem a b }, s)
  else if 0x10000000 ≤ a && a < 0x20000000 then
    (kernelOf s k).bind fun x =>
      if a - 0x10000000 < 1024 * x.2.sharedKb then
        some (k, onKernel x.1 (fun y => { y with shared := memWrite y.shared (a - 0x10000000) b }) s)
      else none
  else none

/-- Words written upward from an address, none where one faults. -/
def cragWords (n a : Nat) : List W32 → Core → State → Option (Core × State)
  | [], k, s => some (k, s)
  | w :: t, k, s => (cragWrite n a (Sys2Proof.Machine.le 4 w.toNat) k s).bind fun r => cragWords n (a + 4) t r.1 r.2

/-- An instruction address of a core. -/
def inCode (s : State) (n : Nat) (k : Core) : Bool :=
  n = 32 || (k.pc.toNat % 4 = 0 && 0x80000000 ≤ k.pc.toNat && match kernelOf s k with
    | some x => decide (k.pc.toNat < 0x80000000 + x.2.code.length)
    | none => false)

/-! Registers and status (R614, R616). -/

/-- A data register. -/
def Core.dr (k : Core) (i : BitVec 5) : W32 := k.d.getD i.toNat 0
/-- A data register is written. -/
def Core.setD (k : Core) (i : BitVec 5) (v : W32) : Core := { k with d := setAt k.d i.toNat v }
/-- A pointer. -/
def Core.pr (k : Core) (i : BitVec 4) : W32 := k.p.getD i.toNat 0
/-- A pointer is written. -/
def Core.setP (k : Core) (i : BitVec 4) (v : W32) : Core := { k with p := setAt k.p i.toNat v }
/-- An accumulator, as a number. -/
def Core.ac (k : Core) (i : BitVec 3) : Int := (k.acc.getD i.toNat 0).toInt
/-- An accumulator is written. -/
def Core.setA (k : Core) (i : BitVec 3) (v : Int) : Core := { k with acc := setAt k.acc i.toNat (BitVec.ofInt 72 v) }
/-- Active loop levels. -/
def Core.depth (k : Core) : Nat := k.st.toNat / 65536 % 4
/-- The number of active loop levels is written. -/
def Core.setDepth (k : Core) (n : Nat) : Core := { k with st := (k.st &&& 0xFFFCFFFF) ||| BitVec.ofNat 32 (65536 * n) }
/-- A bit of st is set or cleared. -/
def Core.setSt (k : Core) (i : Nat) (v : Bool) : Core :=
  { k with st := if v then k.st ||| BitVec.ofNat 32 (2 ^ i) else k.st &&& ~~~(BitVec.ofNat 32 (2 ^ i)) }
/-- A sticky bit of st: 6 AOV, 7 SATF. -/
def Core.stick (k : Core) (i : Nat) (v : Bool) : Core := if v then k.setSt i true else k
/-- RND: 3 acts as 2. -/
def Core.rnd (k : Core) : Nat := min 2 (k.st.toNat / 16 % 4)
/-- Privileged mode. -/
def Core.priv (k : Core) : Bool := k.st.getLsbD 31

/-! Steps. -/

/-- What an instruction does, but for the program counter's advance. -/
inductive CragRes where
  /-- it goes on at the next instruction -/
  | next (k : Core) (s : State)
  /-- it jumps: loop levels that do not hold the target end -/
  | jump (k : Core) (target : W32) (s : State)
  /-- it jumps and no level ends -/
  | call (k : Core) (target : W32) (s : State)
  /-- its dispatch returns -/
  | done (k : Core)
  /-- it faults at an address -/
  | fault (addr : W32)

/-- The end test of R625 over the levels below one: the levels that end, and where execution goes on. -/
def endTest (k : Core) : Nat → Core × W32
  | 0 => (k, k.pc + 4)
  | i + 1 =>
    if k.le.getD i 0 != k.pc then (k, k.pc + 4)
    else
      let c := k.lc.getD i 0
      if 1 < c.toNat then ({ k with lc := setAt k.lc i (c - 1) }, k.ls.getD i 0)
      else endTest (({ k with lc := setAt k.lc i 0 }).setDepth i) i

/-- The instruction at PC has completed without a branch (R625). -/
def advance (k : Core) : Core :=
  let r := endTest k k.depth
  { r.1 with pc := r.2 }

/-- A taken branch ends the levels that do not hold its target, and every level inside them (R625). -/
def jumpTo (k : Core) (t : W32) : Core :=
  let out := (List.range k.depth).find? fun i => t.toNat < (k.ls.getD i 0).toNat || (k.le.getD i 0).toNat < t.toNat
  { k.setDepth (out.getD k.depth) with pc := t }

/-- PC stands at the end of an active level. -/
def atLoopEnd (k : Core) : Bool := (List.range k.depth).any fun i => k.le.getD i 0 = k.pc

/-- A Summit exception (R631): PRIV and PC are saved; Summit goes on in privileged mode. -/
def summitException (k : Core) : Core := { k with epc := k.pc, epriv := k.priv, st := k.st ||| 0x80000000, pc := Config.summitVector }

/-- A fault of a core (R598, R631). -/
def cragFault (n : Nat) (addr : W32) (s : State) : State := if n = 32 then onCore 32 summitException s else kernelFault n addr s

/-- A core executes instructions: a dispatch runs on it; Summit is awake. -/
def cragRuns (s : State) (n : Nat) : Bool :=
  if n = 32 then s.flt.summitRun && !s.evt.asleep else ((getCore s n).run.map fun d => !d.returned).getD false

/-- A core executes an instruction; `ctl` marks those that may not stand at the end of a loop (R625). -/
def crag (core : Fin 33) (ctl : Bool) (f : Core → State → CragRes) (s : State) : Out :=
  let n := core.val
  let k := getCore s n
  .next (if !cragRuns s n then s
    else if !inCode s n k || (ctl && atLoopEnd k) then cragFault n k.pc s
    else match f k s with
      | .next k s => onCore n (fun _ => advance k) s
      | .jump k t s => onCore n (fun _ => jumpTo k t) s
      | .call k t s => onCore n (fun _ => { k with pc := t }) s
      | .done k => onCore n (fun _ => { k with run := k.run.map fun d => { d with returned := true } }) s
      | .fault a => cragFault n a s)

/-! Arithmetic (R617 to R620). -/

/-- X / 2^k rounded by a mode: 0 truncate, 1 round-half-up, 2 convergent. -/
def roundBy (mode : Nat) (x : Int) (k : Nat) : Int :=
  let m : Int := ((2 ^ k : Nat) : Int)
  let f := x / m
  let r := x % m
  match mode with
  | 0 => f
  | 1 => if m ≤ 2 * r then f + 1 else f
  | _ => if 2 * r < m then f else if m < 2 * r then f + 1 else if f % 2 = 0 then f else f + 1

/-- A number brought into a range, and whether it had to be. -/
def clampTo (lo hi x : Int) : Int × Bool := if x < lo then (lo, true) else if hi < x then (hi, true) else (x, false)

/-- Saturation to w signed bits. -/
def satS (w : Nat) (x : Int) : Int × Bool := clampTo (-((2 ^ (w - 1) : Nat) : Int)) ((2 ^ (w - 1) : Nat) - 1) x

/-- The real part of a complex value. -/
def reOf (w : W32) : Int := signed 16 w.toNat
/-- The imaginary part of a complex value. -/
def imOf (w : W32) : Int := signed 16 (w.toNat / 65536)
/-- A complex value of two parts. -/
def cxOf (re im : Int) : W32 := BitVec.ofNat 32 ((re.emod 65536).toNat + 65536 * (im.emod 65536).toNat)

/-- An accumulator takes an exact sum, with the limits of R618. -/
def Core.accum (k : Core) (i : BitVec 3) (v : Int) : Core :=
  let r := satS 72 v
  (k.setA i r.1).stick 6 r.2

end Sys2Proof.Machine
end

