-- ==== Sys2Proof/Machine/Crag.lean ====
section
/-!
DEFINITION. The instructions of Crag (R616 to R631).
-/
namespace Sys2Proof.Machine

/-! ALU (classes 0x0 to 0x2). -/

/-- The value of a second operand. -/
def Src2.value (b : Src2) (k : Core) : W32 := match b with
  | .reg r => k.dr r
  | .imm v => v.signExtend 32

/-- A second operand whose field is 0. -/
def Src2.isZero (b : Src2) : Bool := b == .reg 0 || b == .imm 0

/-- What an ALU operation gives: its result, C and V where it sets them, whether it saturated. -/
structure AluRes where
  val : W32
  cv : Option (Bool × Bool) := none
  sat : Bool := false
deriving DecidableEq, Repr

/-- Flags of an ALU result (R616). -/
def Core.flags (k : Core) (r : AluRes) : Core :=
  let k := (k.setSt 0 (r.val = 0)).setSt 1 (r.val.getLsbD 31)
  let k := match r.cv with
    | some (c, v) => (k.setSt 2 c).setSt 3 v
    | none => k
  k.stick 7 r.sat

/-- An ALU instruction. -/
def alu (core : Fin 33) (dst srcA : BitVec 5) (b : Src2) (f : Core → W32 → W32 → AluRes) (s : State) : Out :=
  crag core false (fun k s =>
    let r := f k (k.dr srcA) (Src2.value b k)
    .next ((k.flags r).setD dst r.val) s) s

/-- An ALU instruction whose second operand's field must be 0. -/
def alu1 (core : Fin 33) (dst srcA : BitVec 5) (b : Src2) (f : W32 → AluRes) (s : State) : Out :=
  crag core false (fun k s =>
    if !Src2.isZero b then .fault k.pc
    else
      let r := f (k.dr srcA)
      .next ((k.flags r).setD dst r.val) s) s

/-- A saturated result. -/
def satRes (x : Int) : AluRes := let r := satS 32 x; { val := BitVec.ofInt 32 r.1, sat := r.2 }

/-- A sum, with carry and overflow. -/
def addRes (a b : W32) : AluRes :=
  { val := a + b, cv := some (decide (2 ^ 32 ≤ a.toNat + b.toNat), (satS 32 (a.toInt + b.toInt)).2) }

/-- A difference, with no borrow and overflow. -/
def subRes (a b : W32) : AluRes :=
  { val := a - b, cv := some (decide (b.toNat ≤ a.toNat), (satS 32 (a.toInt - b.toInt)).2) }

/-- Complex parts combined and saturated. -/
def cxRes (re im : Int) : AluRes :=
  let x := satS 16 re
  let y := satS 16 im
  { val := cxOf x.1 y.1, sat := x.2 || y.2 }

/-- ADD (R622). -/
def execAdd (core : Fin 33) (dst srcA : BitVec 5) (b : Src2) (s : State) : Out := alu core dst srcA b (fun _ a b => addRes a b) s
/-- SUB (R622). -/
def execSub (core : Fin 33) (dst srcA : BitVec 5) (b : Src2) (s : State) : Out := alu core dst srcA b (fun _ a b => subRes a b) s
/-- ADDS (R622). -/
def execAdds (core : Fin 33) (dst srcA : BitVec 5) (b : Src2) (s : State) : Out :=
  alu core dst srcA b (fun _ a b => { satRes (a.toInt + b.toInt) with cv := (addRes a b).cv }) s
/-- SUBS (R622). -/
def execSubs (core : Fin 33) (dst srcA : BitVec 5) (b : Src2) (s : State) : Out :=
  alu core dst srcA b (fun _ a b => { satRes (a.toInt - b.toInt) with cv := (subRes a b).cv }) s
/-- AND (R622). -/
def execAnd (core : Fin 33) (dst srcA : BitVec 5) (b : Src2) (s : State) : Out := alu core dst srcA b (fun _ a b => { val := a &&& b }) s
/-- OR (R622). -/
def execOr (core : Fin 33) (dst srcA : BitVec 5) (b : Src2) (s : State) : Out := alu core dst srcA b (fun _ a b => { val := a ||| b }) s
/-- XOR (R622). -/
def execXor (core : Fin 33) (dst srcA : BitVec 5) (b : Src2) (s : State) : Out := alu core dst srcA b (fun _ a b => { val := a ^^^ b }) s
/-- SHL (R622). -/
def execShl (core : Fin 33) (dst srcA : BitVec 5) (b : Src2) (s : State) : Out := alu core dst srcA b (fun _ a b => { val := a <<< (b.toNat % 32) }) s
/-- SHR (R622). -/
def execShr (core : Fin 33) (dst srcA : BitVec 5) (b : Src2) (s : State) : Out := alu core dst srcA b (fun _ a b => { val := a >>> (b.toNat % 32) }) s
/-- SHRA (R622). -/
def execShra (core : Fin 33) (dst srcA : BitVec 5) (b : Src2) (s : State) : Out := alu core dst srcA b (fun _ a b => { val := a.sshiftRight (b.toNat % 32) }) s
/-- MUL (R622). -/
def execMul (core : Fin 33) (dst srcA : BitVec 5) (b : Src2) (s : State) : Out := alu core dst srcA b (fun _ a b => { val := a * b }) s
/-- MULQ (R622). -/
def execMulq (core : Fin 33) (dst srcA : BitVec 5) (b : Src2) (s : State) : Out :=
  alu core dst srcA b (fun k a b => satRes (roundBy k.rnd (a.toInt * b.toInt) 31)) s
/-- MIN (R622). -/
def execMin (core : Fin 33) (dst srcA : BitVec 5) (b : Src2) (s : State) : Out := alu core dst srcA b (fun _ a b => { val := if a.sle b then a else b }) s
/-- MAX (R622). -/
def execMax (core : Fin 33) (dst srcA : BitVec 5) (b : Src2) (s : State) : Out := alu core dst srcA b (fun _ a b => { val := if a.sle b then b else a }) s
/-- ABS (R622). -/
def execAbs (core : Fin 33) (dst srcA : BitVec 5) (b : Src2) (s : State) : Out := alu1 core dst srcA b (fun a => satRes a.toInt.natAbs) s
/-- NEG (R622). -/
def execNeg (core : Fin 33) (dst srcA : BitVec 5) (b : Src2) (s : State) : Out := alu1 core dst srcA b (fun a => satRes (-a.toInt)) s
/-- CMP (R622): DST must be 0. -/
def execCmp (core : Fin 33) (dst srcA : BitVec 5) (b : Src2) (s : State) : Out :=
  crag core false (fun k s => if dst != 0 then .fault k.pc else .next (k.flags (subRes (k.dr srcA) (Src2.value b k))) s) s
/-- CADD (R622). -/
def execCadd (core : Fin 33) (dst srcA : BitVec 5) (b : Src2) (s : State) : Out := alu core dst srcA b (fun _ a b => cxRes (reOf a + reOf b) (imOf a + imOf b)) s
/-- CSUB (R622). -/
def execCsub (core : Fin 33) (dst srcA : BitVec 5) (b : Src2) (s : State) : Out := alu core dst srcA b (fun _ a b => cxRes (reOf a - reOf b) (imOf a - imOf b)) s
/-- CONJ (R622). -/
def execConj (core : Fin 33) (dst srcA : BitVec 5) (b : Src2) (s : State) : Out := alu1 core dst srcA b (fun a => cxRes (reOf a) (-imOf a)) s
/-- PACK (R622). -/
def execPack (core : Fin 33) (dst srcA srcB : BitVec 5) (s : State) : Out :=
  alu core dst srcA (.reg srcB) (fun _ a b => { val := BitVec.ofNat 32 (a.toNat % 65536 + 65536 * (b.toNat % 65536)) }) s
/-- PADD (R622). -/
def execPadd (core : Fin 33) (dst srcA : BitVec 4) (b : Src2) (s : State) : Out :=
  crag core false (fun k s => .next (k.setP dst (k.pr srcA + Src2.value b k)) s) s
/-- MOVI (R621). -/
def execMovi (core : Fin 33) (dst : BitVec 5) (imm : W16) (s : State) : Out :=
  crag core false (fun k s => .next (k.setD dst (if Config.moviSigned then imm.signExtend 32 else imm.setWidth 32)) s) s
/-- MOVHI (R621). -/
def execMovhi (core : Fin 33) (dst : BitVec 5) (imm : W16) (s : State) : Out :=
  crag core false (fun k s => .next (k.setD dst (BitVec.ofNat 32 (65536 * imm.toNat + (k.dr dst).toNat % 65536))) s) s
/-- MOVI p (R621). -/
def execMoviP (core : Fin 33) (dst : BitVec 4) (imm : W16) (s : State) : Out :=
  crag core false (fun k s => .next (k.setP dst (if Config.moviSigned then imm.signExtend 32 else imm.setWidth 32)) s) s

/-! Accumulators (classes 0x3 to 0x5). -/

/-- An accumulation into one accumulator. -/
def mac (core : Fin 33) (acc : BitVec 3) (f : Core → Int) (s : State) : Out :=
  crag core false (fun k s => .next (k.accum acc (k.ac acc + f k)) s) s

/-- An accumulation into a pair: real and imaginary. -/
def mac2 (core : Fin 33) (acc : BitVec 3) (f : Core → Int × Int) (s : State) : Out :=
  crag core false (fun k s =>
    if acc.getLsbD 0 then .fault k.pc
    else
      let v := f k
      .next ((k.accum acc (k.ac acc + v.1)).accum (acc + 1) (k.ac (acc + 1) + v.2)) s) s

/-- A complex product, at accumulator scale. -/
def cxMul (a b : W32) : Int × Int := (2 ^ 32 * (reOf a * reOf b - imOf a * imOf b), 2 ^ 32 * (reOf a * imOf b + imOf a * reOf b))
/-- A complex product with the first value conjugated. -/
def cxMulJ (a b : W32) : Int × Int := (2 ^ 32 * (reOf a * reOf b + imOf a * imOf b), 2 ^ 32 * (reOf a * imOf b - imOf a * reOf b))

/-- MAC.H (R618). -/
def execMacH (core : Fin 33) (acc : BitVec 3) (srcA srcB : BitVec 5) (s : State) : Out := mac core acc (fun k => 2 ^ 32 * (reOf (k.dr srcA) * reOf (k.dr srcB))) s
/-- MSU.H (R618). -/
def execMsuH (core : Fin 33) (acc : BitVec 3) (srcA srcB : BitVec 5) (s : State) : Out := mac core acc (fun k => -(2 ^ 32 * (reOf (k.dr srcA) * reOf (k.dr srcB)))) s
/-- MAC.W (R618). -/
def execMacW (core : Fin 33) (acc : BitVec 3) (srcA srcB : BitVec 5) (s : State) : Out := mac core acc (fun k => (k.dr srcA).toInt * (k.dr srcB).toInt) s
/-- MSU.W (R618). -/
def execMsuW (core : Fin 33) (acc : BitVec 3) (srcA srcB : BitVec 5) (s : State) : Out := mac core acc (fun k => -((k.dr srcA).toInt * (k.dr srcB).toInt)) s
/-- CMAC (R622). -/
def execCmac (core : Fin 33) (acc : BitVec 3) (srcA srcB : BitVec 5) (s : State) : Out := mac2 core acc (fun k => cxMul (k.dr srcA) (k.dr srcB)) s
/-- CMACJ (R622). -/
def execCmacj (core : Fin 33) (acc : BitVec 3) (srcA srcB : BitVec 5) (s : State) : Out := mac2 core acc (fun k => cxMulJ (k.dr srcA) (k.dr srcB)) s
/-- CMSU (R622). -/
def execCmsu (core : Fin 33) (acc : BitVec 3) (srcA srcB : BitVec 5) (s : State) : Out :=
  mac2 core acc (fun k => let v := cxMul (k.dr srcA) (k.dr srcB); (-v.1, -v.2)) s
/-- CLR (R622). -/
def execClr (core : Fin 33) (acc : BitVec 3) (s : State) : Out := crag core false (fun k s => .next (k.setA acc 0) s) s
/-- CLR2 (R622). -/
def execClr2 (core : Fin 33) (acc : BitVec 3) (s : State) : Out :=
  crag core false (fun k s => if acc.getLsbD 0 then .fault k.pc else .next ((k.setA acc 0).setA (acc + 1) 0) s) s
/-- MOVA (R622). -/
def execMova (core : Fin 33) (acc : BitVec 3) (srcA : BitVec 5) (s : State) : Out := crag core false (fun k s => .next (k.setA acc ((k.dr srcA).toInt * 2 ^ 31)) s) s
/-- ADDA (R622). -/
def execAdda (core : Fin 33) (acc src : BitVec 3) (s : State) : Out := mac core acc (fun k => k.ac src) s
/-- MAC.I (R618). -/
def execMacI (core : Fin 33) (acc : BitVec 3) (srcA srcB : BitVec 5) (s : State) : Out := mac core acc (fun k => (k.dr srcA).toInt * (k.dr srcB).toInt) s

/-- The words of 16 bytes. -/
def words4 (b : List Byte) : List W32 := (List.range 4).map fun i => BitVec.ofNat 32 (fld b (4 * i) 4)

/-- The pointers of a vector instruction after it (R623): each one whose INC bit is set has grown by 16. -/
def vecInc (k : Core) (pa pb : BitVec 4) (incA incB : Bool) : Core :=
  let j := if incA then k.setP pa (k.pr pa + 16) else k
  if incB && !(incA && pa = pb) then j.setP pb (k.pr pb + 16) else j

/-- A vector instruction: what it adds, from the 16 bytes at each pointer. -/
def vec (core : Fin 33) (pair : Bool) (acc : BitVec 3) (pa pb : BitVec 4) (incA incB : Bool) (f : List W32 → List W32 → Int × Int) (s : State) : Out :=
  crag core false (fun k s =>
    if pair && acc.getLsbD 0 then .fault k.pc
    else match cragRead s core.val k (k.pr pa).toNat 16, cragRead s core.val k (k.pr pb).toNat 16 with
      | none, _ => .fault (k.pr pa)
      | _, none => .fault (k.pr pb)
      | some a, some b =>
        let v := f (words4 a) (words4 b)
        let k := vecInc k pa pb incA incB
        let j := k.accum acc (k.ac acc + v.1)
        .next (if pair then j.accum (acc + 1) (k.ac (acc + 1) + v.2) else j) s) s

/-- A sum of complex products. -/
def sumCx (f : W32 → W32 → Int × Int) (a b : List W32) : Int × Int :=
  (a.zip b).foldl (fun t p => let v := f p.1 p.2; (t.1 + v.1, t.2 + v.2)) (0, 0)

/-- VMAC.H (R622). -/
def execVmacH (core : Fin 33) (acc : BitVec 3) (pa pb : BitVec 4) (incA incB : Bool) (s : State) : Out :=
  vec core false acc pa pb incA incB (sumCx fun a b => (2 ^ 32 * (reOf a * reOf b + imOf a * imOf b), 0)) s
/-- VCMAC (R622). -/
def execVcmac (core : Fin 33) (acc : BitVec 3) (pa pb : BitVec 4) (incA incB : Bool) (s : State) : Out := vec core true acc pa pb incA incB (sumCx cxMul) s
/-- VCMACJ (R622). -/
def execVcmacj (core : Fin 33) (acc : BitVec 3) (pa pb : BitVec 4) (incA incB : Bool) (s : State) : Out := vec core true acc pa pb incA incB (sumCx cxMulJ) s

/-- A × 2^(sh - base), rounded, in w signed bits. -/
def extract (k : Core) (acc : BitVec 3) (sh : BitVec 6) (base w : Nat) : Int × Bool :=
  let e : Int := (base : Int) - sh.toInt
  satS w (if e < 0 then k.ac acc * 2 ^ (-e).toNat else roundBy k.rnd (k.ac acc) e.toNat)

/-- EXT.W (R620, R622). -/
def execExtW (core : Fin 33) (dst : BitVec 5) (acc : BitVec 3) (sh : BitVec 6) (s : State) : Out :=
  crag core false (fun k s => let r := extract k acc sh 31 32; .next ((k.setD dst (BitVec.ofInt 32 r.1)).stick 7 r.2) s) s
/-- EXT.H (R620, R622). -/
def execExtH (core : Fin 33) (dst : BitVec 5) (acc : BitVec 3) (sh : BitVec 6) (s : State) : Out :=
  crag core false (fun k s => let r := extract k acc sh 47 16; .next ((k.setD dst (BitVec.ofInt 32 r.1)).stick 7 r.2) s) s
/-- EXT.I (R620, R622). -/
def execExtI (core : Fin 33) (dst : BitVec 5) (acc : BitVec 3) (sh : BitVec 6) (s : State) : Out :=
  crag core false (fun k s => let r := extract k acc sh 0 32; .next ((k.setD dst (BitVec.ofInt 32 r.1)).stick 7 r.2) s) s
/-- EXT.CX (R620, R622). -/
def execExtCx (core : Fin 33) (dst : BitVec 5) (acc : BitVec 3) (sh : BitVec 6) (s : State) : Out :=
  crag core false (fun k s =>
    if acc.getLsbD 0 then .fault k.pc
    else
      let x := extract k acc sh 47 16
      let y := extract k (acc + 1) sh 47 16
      .next ((k.setD dst (cxOf x.1 y.1)).stick 7 (x.2 || y.2)) s) s
/-- RAWLO (R622). -/
def execRawlo (core : Fin 33) (dst : BitVec 5) (acc : BitVec 3) (s : State) : Out := crag core false (fun k s => .next (k.setD dst (BitVec.ofInt 32 (k.ac acc))) s) s
/-- RAWMI (R622). -/
def execRawmi (core : Fin 33) (dst : BitVec 5) (acc : BitVec 3) (s : State) : Out := crag core false (fun k s => .next (k.setD dst (BitVec.ofInt 32 (k.ac acc / 2 ^ 32))) s) s
/-- RAWHI (R622). -/
def execRawhi (core : Fin 33) (dst : BitVec 5) (acc : BitVec 3) (s : State) : Out := crag core false (fun k s => .next (k.setD dst (BitVec.ofInt 32 (k.ac acc / 2 ^ 64))) s) s
/-- Bits of an accumulator are replaced: from a bit on, a width, a value. -/
def insAcc (k : Core) (acc : BitVec 3) (lo w : Nat) (v : Nat) : Core :=
  let a := (k.acc.getD acc.toNat 0).toNat
  { k with acc := setAt k.acc acc.toNat (BitVec.ofNat 72 (a % 2 ^ lo + v % 2 ^ w * 2 ^ lo + a / 2 ^ (lo + w) * 2 ^ (lo + w))) }
/-- INSLO (R622). -/
def execInslo (core : Fin 33) (dst : BitVec 5) (acc : BitVec 3) (s : State) : Out := crag core false (fun k s => .next (insAcc k acc 0 32 (k.dr dst).toNat) s) s
/-- INSMI (R622). -/
def execInsmi (core : Fin 33) (dst : BitVec 5) (acc : BitVec 3) (s : State) : Out := crag core false (fun k s => .next (insAcc k acc 32 32 (k.dr dst).toNat) s) s
/-- INSHI (R622). -/
def execInshi (core : Fin 33) (dst : BitVec 5) (acc : BitVec 3) (s : State) : Out := crag core false (fun k s => .next (insAcc k acc 64 8 (k.dr dst).toNat) s) s

/-! Loads and stores (R623). -/

/-- The address of an access and the pointer after it. -/
def cragAddr (k : Core) (ptr : BitVec 4) (m : AddrMode) (size : Nat) : W32 × W32 :=
  let p := k.pr ptr
  match m with
  | .offset o => (p + BitVec.ofInt 32 (o.toInt * size), p)
  | .post o => (p, p + BitVec.ofInt 32 (o.toInt * size))
  | .index d => (p, p + k.dr d)

/-- A load: what the bytes put into the core, after the pointer has moved. -/
def load (core : Fin 33) (ptr : BitVec 4) (m : AddrMode) (size : Nat) (f : Nat → Core → Core) (s : State) : Out :=
  crag core false (fun k s =>
    let a := cragAddr k ptr m size
    match cragRead s core.val k a.1.toNat size with
    | none => .fault a.1
    | some b => .next (f (unLe b) (k.setP ptr a.2)) s) s

/-- A store of a value and of whether it saturated. -/
def store (core : Fin 33) (ptr : BitVec 4) (m : AddrMode) (size : Nat) (f : Core → Int × Bool) (s : State) : Out :=
  crag core false (fun k s =>
    let a := cragAddr k ptr m size
    let v := f k
    match cragWrite core.val a.1.toNat (leI size v.1) k s with
    | none => .fault a.1
    | some (j, t) => .next ((j.setP ptr a.2).stick 7 v.2) t) s

/-- LD.BU (R623). -/
def execLdBu (core : Fin 33) (reg : BitVec 5) (ptr : BitVec 4) (m : AddrMode) (s : State) : Out := load core ptr m 1 (fun v k => k.setD reg (BitVec.ofNat 32 v)) s
/-- LD.B (R623). -/
def execLdB (core : Fin 33) (reg : BitVec 5) (ptr : BitVec 4) (m : AddrMode) (s : State) : Out := load core ptr m 1 (fun v k => k.setD reg (BitVec.ofInt 32 (signed 8 v))) s
/-- LD.HU (R623). -/
def execLdHu (core : Fin 33) (reg : BitVec 5) (ptr : BitVec 4) (m : AddrMode) (s : State) : Out := load core ptr m 2 (fun v k => k.setD reg (BitVec.ofNat 32 v)) s
/-- LD.H (R623). -/
def execLdH (core : Fin 33) (reg : BitVec 5) (ptr : BitVec 4) (m : AddrMode) (s : State) : Out := load core ptr m 2 (fun v k => k.setD reg (BitVec.ofInt 32 (signed 16 v))) s
/-- LD.W (R623). -/
def execLdW (core : Fin 33) (reg : BitVec 5) (ptr : BitVec 4) (m : AddrMode) (s : State) : Out := load core ptr m 4 (fun v k => k.setD reg (BitVec.ofNat 32 v)) s
/-- LD.P (R623): the loaded value wins over the pointer's increment. -/
def execLdP (core : Fin 33) (reg : BitVec 4) (ptr : BitVec 4) (m : AddrMode) (s : State) : Out := load core ptr m 4 (fun v k => k.setP reg (BitVec.ofNat 32 v)) s
/-- LD.A (R623). -/
def execLdA (core : Fin 33) (reg : BitVec 3) (ptr : BitVec 4) (m : AddrMode) (s : State) : Out := load core ptr m 8 (fun v k => k.setA reg (signed 64 v)) s
/-- ST.B (R620, R623). -/
def execStB (core : Fin 33) (reg : BitVec 5) (ptr : BitVec 4) (m : AddrMode) (s : State) : Out := store core ptr m 1 (fun k => clampTo 0 255 (k.dr reg).toInt) s
/-- ST.H (R620, R623). -/
def execStH (core : Fin 33) (reg : BitVec 5) (ptr : BitVec 4) (m : AddrMode) (s : State) : Out := store core ptr m 2 (fun k => satS 16 (k.dr reg).toInt) s
/-- ST.HU (R620, R623). -/
def execStHu (core : Fin 33) (reg : BitVec 5) (ptr : BitVec 4) (m : AddrMode) (s : State) : Out := store core ptr m 2 (fun k => clampTo 0 65535 (k.dr reg).toInt) s
/-- ST.W (R623). -/
def execStW (core : Fin 33) (reg : BitVec 5) (ptr : BitVec 4) (m : AddrMode) (s : State) : Out := store core ptr m 4 (fun k => ((k.dr reg).toInt, false)) s
/-- ST.P (R623). -/
def execStP (core : Fin 33) (reg : BitVec 4) (ptr : BitVec 4) (m : AddrMode) (s : State) : Out := store core ptr m 4 (fun k => ((k.pr reg).toInt, false)) s
/-- ST.A (R620, R623). -/
def execStA (core : Fin 33) (reg : BitVec 3) (ptr : BitVec 4) (m : AddrMode) (s : State) : Out := store core ptr m 8 (fun k => satS 64 (k.ac reg)) s
/-- ST.HF (R620, R623). -/
def execStHf (core : Fin 33) (reg : BitVec 5) (ptr : BitVec 4) (m : AddrMode) (s : State) : Out :=
  store core ptr m 2 (fun k => satS 16 (roundBy k.rnd (k.dr reg).toInt 16)) s

/-! Branches, calls, loops (R621, R624, R625, R627, R628). -/

/-- A condition holds, none where the code is undefined (R622). -/
def condHolds (k : Core) (c : BitVec 4) : Option Bool :=
  let z := k.st.getLsbD 0
  let n := k.st.getLsbD 1
  let cy := k.st.getLsbD 2
  let v := k.st.getLsbD 3
  match c.toNat with
  | 0 => some true
  | 1 => some z
  | 2 => some (!z)
  | 3 => some (n != v)
  | 4 => some (n == v)
  | 5 => some (!z && n == v)
  | 6 => some (z || n != v)
  | 7 => some (!cy)
  | 8 => some cy
  | 9 => some n
  | 10 => some (!n)
  | 11 => some (k.st.getLsbD 7)
  | _ => none

/-- The address of the instruction at an offset in words. -/
def wordsFrom (pc : W32) (off : Int) : W32 := pc + BitVec.ofInt 32 (4 * off)

/-- BRANCH (R621, R622). -/
def execBranch (core : Fin 33) (cond : BitVec 4) (off : BitVec 24) (s : State) : Out :=
  crag core true (fun k s => match condHolds k cond with
    | none => .fault k.pc
    | some true => .jump k (wordsFrom k.pc off.toInt) s
    | some false => .next k s) s

/-- d16 to d31 that a mask names. -/
def maskRegs (mask : W16) : List Nat := (List.range 16).filter mask.getLsbD

/-- A frame is pushed and the call jumps (R627). -/
def pushCall (n : Nat) (mask : W16) (target : W32) (k : Core) (s : State) : CragRes :=
  let regs := maskRegs mask
  let sp := k.pr 15 - BitVec.ofNat 32 (8 + 4 * regs.length)
  let frame := [k.lk, mask.setWidth 32] ++ regs.map fun i => k.d.getD (16 + i) 0
  if (k.pr 15).toNat % 4 != 0 then .fault sp
  else match cragWords n sp.toNat frame k s with
    | none => .fault sp
    | some (j, t) => .call { j.setP 15 sp with lk := k.pc + 4 } target t

/-- CALL (R627). -/
def execCall (core : Fin 33) (off : BitVec 12) (mask : W16) (s : State) : Out :=
  crag core true (fun k s => pushCall core.val mask (wordsFrom k.pc off.toInt) k s) s

/-- CALLR (R627). -/
def execCallr (core : Fin 33) (ptr : BitVec 4) (mask : W16) (s : State) : Out :=
  crag core true (fun k s => pushCall core.val mask (k.pr ptr) k s) s

/-- The words of a frame, none where a read faults. -/
def readWords (s : State) (n a : Nat) (k : Core) : Nat → Option (List W32)
  | 0 => some []
  | i + 1 => (cragRead s n k a 4).bind fun b => (readWords s n (a + 4) k i).map fun l => BitVec.ofNat 32 (unLe b) :: l

/-- RET (R628): with the lk of a kernel's entry, the dispatch ends. -/
def execRet (core : Fin 33) (mask : W16) (s : State) : Out :=
  crag core true (fun k s =>
    if core.val != 32 && k.lk = 0xFFFFFFF0 then (if mask = 0 then .done k else .fault k.pc)
    else
      let regs := maskRegs mask
      let sp := k.pr 15
      match readWords s core.val sp.toNat k (2 + regs.length) with
      | some (lk :: m :: vals) =>
        if m != mask.setWidth 32 then .fault k.pc
        else
          let k' := (regs.zip vals).foldl (fun k r => { k with d := setAt k.d (16 + r.1) r.2 }) k
          .jump { k'.setP 15 (sp + BitVec.ofNat 32 (8 + 4 * regs.length)) with lk } k.lk s
      | _ => .fault sp) s

/-- BR (R622). -/
def execBr (core : Fin 33) (ptr : BitVec 4) (s : State) : Out := crag core true (fun k s => .jump k (k.pr ptr) s) s

/-- LOOP (R624, R625). -/
def execLoop (core : Fin 33) (count : LoopCount) (last : W16) (s : State) : Out :=
  crag core true (fun k s =>
    let i := k.depth
    let n : W32 := match count with
      | .imm v => v.setWidth 32
      | .reg d => k.dr d
    let e := k.pc + BitVec.ofNat 32 (4 * last.toNat)
    let beyond := (List.range i).any fun j =>
      (k.ls.getD j 0).toNat ≤ k.pc.toNat && k.pc.toNat ≤ (k.le.getD j 0).toNat && (k.le.getD j 0).toNat < e.toNat
    if last = 0 || 3 ≤ i || beyond then .fault k.pc
    else
      let k := { k with ls := setAt k.ls i (k.pc + 4), le := setAt k.le i e, lc := setAt k.lc i n }
      if n = 0 then .call k (e + 4) s else .call (k.setDepth (i + 1)) (k.pc + 4) s) s

/-! System (classes 0xB and 0xF). -/

/-- A special register, none where the code is undefined (R622). -/
def special (k : Core) (c : Nat) : Option W32 :=
  if c = 0 then some k.st else if c = 1 then some k.lk
  else if c ≤ 4 then k.ls[c - 2]? else if c ≤ 7 then k.le[c - 5]? else k.lc[c - 8]?

/-- A special register is written: in st RND and the flags take the value, and 1 clears SATF and AOV (R616). -/
def setSpecial (k : Core) (c : Nat) (v : W32) : Core :=
  if c = 0 then { k with st := (k.st &&& 0xFFFFFFC0 &&& ~~~(v &&& 0xC0)) ||| (v &&& 0x3F) }
  else if c = 1 then { k with lk := v }
  else if c ≤ 4 then { k with ls := setAt k.ls (c - 2) v }
  else if c ≤ 7 then { k with le := setAt k.le (c - 5) v }
  else { k with lc := setAt k.lc (c - 8) v }

/-- MFS (R622). -/
def execMfs (core : Fin 33) (reg spec : BitVec 5) (s : State) : Out :=
  crag core false (fun k s => match special k spec.toNat with
    | some v => .next (k.setD reg v) s
    | none => .fault k.pc) s

/-- MTS (R622, R625): what it writes to a loop register acts from the next instruction on. -/
def execMts (core : Fin 33) (reg spec : BitVec 5) (s : State) : Out :=
  crag core false (fun k s =>
    if (special k spec.toNat).isNone then .fault k.pc
    else
      let j := advance k
      .call (setSpecial j spec.toNat (k.dr reg)) j.pc s) s

/-- NOP (R622). -/
def execNop (core : Fin 33) (s : State) : Out := crag core false (fun k s => .next k s) s
/-- SETRND (R622). -/
def execSetrnd (core : Fin 33) (rnd : BitVec 2) (s : State) : Out :=
  crag core false (fun k s => .next { k with st := (k.st &&& 0xFFFFFFCF) ||| BitVec.ofNat 32 (16 * rnd.toNat) } s) s

/-- A class 0xF instruction: Summit's, in privileged mode (R598, R630, R631). -/
def privileged (core : Fin 33) (f : Core → State → CragRes) (s : State) : Out :=
  crag core false (fun k s => if core.val = 32 && k.priv then f k s else .fault k.pc) s

/-- CSRR (R630). -/
def execCsrr (core : Fin 33) (reg : BitVec 5) (csr : W16) (s : State) : Out := privileged core (fun k s => .next (k.setD reg (Tab.getD k.csr csr.toNat 0)) s) s
/-- CSRW (R630). -/
def execCsrw (core : Fin 33) (reg : BitVec 5) (csr : W16) (s : State) : Out :=
  privileged core (fun k s => .next { k with csr := Tab.set k.csr csr.toNat (k.dr reg) } s) s
/-- RFE (R630). -/
def execRfe (core : Fin 33) (s : State) : Out := privileged core (fun k s => .call (k.setSt 31 k.epriv) k.epc s) s
/-- WAIT (R630). -/
def execWait (core : Fin 33) (s : State) : Out := privileged core (fun k s => .next k (s.onEvt fun e => { e with asleep := true })) s
/-- FENCE (R630): accesses complete in order. -/
def execFence (core : Fin 33) (s : State) : Out := privileged core (fun k s => .next k s) s

end Sys2Proof.Machine
end

