-- ==== Sys2Proof/Machine/CragCode.lean ====
section
/-!
DEFINITION. The encoding of Crag instructions and the check of kernel images (R606, R621, R622, R626).
-/
namespace Sys2Proof.Machine

/-- An instruction as a word spells it: the rows of R622, without the core. -/
inductive CragIns where
  | add (dst srcA : BitVec 5) (b : Src2)
  | sub (dst srcA : BitVec 5) (b : Src2)
  | adds (dst srcA : BitVec 5) (b : Src2)
  | subs (dst srcA : BitVec 5) (b : Src2)
  | and_ (dst srcA : BitVec 5) (b : Src2)
  | or_ (dst srcA : BitVec 5) (b : Src2)
  | xor (dst srcA : BitVec 5) (b : Src2)
  | shl (dst srcA : BitVec 5) (b : Src2)
  | shr (dst srcA : BitVec 5) (b : Src2)
  | shra (dst srcA : BitVec 5) (b : Src2)
  | mul (dst srcA : BitVec 5) (b : Src2)
  | mulq (dst srcA : BitVec 5) (b : Src2)
  | min (dst srcA : BitVec 5) (b : Src2)
  | max (dst srcA : BitVec 5) (b : Src2)
  | abs (dst srcA : BitVec 5) (b : Src2)
  | neg (dst srcA : BitVec 5) (b : Src2)
  | cmp (dst srcA : BitVec 5) (b : Src2)
  | cadd (dst srcA : BitVec 5) (b : Src2)
  | csub (dst srcA : BitVec 5) (b : Src2)
  | conj (dst srcA : BitVec 5) (b : Src2)
  | pack (dst srcA srcB : BitVec 5)
  | padd (dst srcA : BitVec 4) (b : Src2)
  | movi (dst : BitVec 5) (imm : W16)
  | movhi (dst : BitVec 5) (imm : W16)
  | moviP (dst : BitVec 4) (imm : W16)
  | macH (acc : BitVec 3) (srcA srcB : BitVec 5)
  | msuH (acc : BitVec 3) (srcA srcB : BitVec 5)
  | macW (acc : BitVec 3) (srcA srcB : BitVec 5)
  | msuW (acc : BitVec 3) (srcA srcB : BitVec 5)
  | cmac (acc : BitVec 3) (srcA srcB : BitVec 5)
  | cmacj (acc : BitVec 3) (srcA srcB : BitVec 5)
  | cmsu (acc : BitVec 3) (srcA srcB : BitVec 5)
  | clr (acc : BitVec 3)
  | clr2 (acc : BitVec 3)
  | mova (acc : BitVec 3) (srcA : BitVec 5)
  | adda (acc src : BitVec 3)
  | macI (acc : BitVec 3) (srcA srcB : BitVec 5)
  | vmacH (acc : BitVec 3) (pa pb : BitVec 4) (incA incB : Bool)
  | vcmac (acc : BitVec 3) (pa pb : BitVec 4) (incA incB : Bool)
  | vcmacj (acc : BitVec 3) (pa pb : BitVec 4) (incA incB : Bool)
  | extW (dst : BitVec 5) (acc : BitVec 3) (sh : BitVec 6)
  | extH (dst : BitVec 5) (acc : BitVec 3) (sh : BitVec 6)
  | extI (dst : BitVec 5) (acc : BitVec 3) (sh : BitVec 6)
  | extCx (dst : BitVec 5) (acc : BitVec 3) (sh : BitVec 6)
  | rawlo (dst : BitVec 5) (acc : BitVec 3)
  | rawmi (dst : BitVec 5) (acc : BitVec 3)
  | rawhi (dst : BitVec 5) (acc : BitVec 3)
  | inslo (dst : BitVec 5) (acc : BitVec 3)
  | insmi (dst : BitVec 5) (acc : BitVec 3)
  | inshi (dst : BitVec 5) (acc : BitVec 3)
  | ldBu (reg : BitVec 5) (ptr : BitVec 4) (m : AddrMode)
  | ldB (reg : BitVec 5) (ptr : BitVec 4) (m : AddrMode)
  | ldHu (reg : BitVec 5) (ptr : BitVec 4) (m : AddrMode)
  | ldH (reg : BitVec 5) (ptr : BitVec 4) (m : AddrMode)
  | ldW (reg : BitVec 5) (ptr : BitVec 4) (m : AddrMode)
  | ldP (reg : BitVec 4) (ptr : BitVec 4) (m : AddrMode)
  | ldA (reg : BitVec 3) (ptr : BitVec 4) (m : AddrMode)
  | stB (reg : BitVec 5) (ptr : BitVec 4) (m : AddrMode)
  | stH (reg : BitVec 5) (ptr : BitVec 4) (m : AddrMode)
  | stHu (reg : BitVec 5) (ptr : BitVec 4) (m : AddrMode)
  | stW (reg : BitVec 5) (ptr : BitVec 4) (m : AddrMode)
  | stP (reg : BitVec 4) (ptr : BitVec 4) (m : AddrMode)
  | stA (reg : BitVec 3) (ptr : BitVec 4) (m : AddrMode)
  | stHf (reg : BitVec 5) (ptr : BitVec 4) (m : AddrMode)
  | branch (cond : BitVec 4) (off : BitVec 24)
  | call (off : BitVec 12) (mask : W16)
  | callr (ptr : BitVec 4) (mask : W16)
  | ret (mask : W16)
  | br (ptr : BitVec 4)
  | loop (count : LoopCount) (last : W16)
  | mfs (reg : BitVec 5) (spec : BitVec 5)
  | mts (reg : BitVec 5) (spec : BitVec 5)
  | nop
  | setrnd (rnd : BitVec 2)
  | csrr (reg : BitVec 5) (csr : W16)
  | csrw (reg : BitVec 5) (csr : W16)
  | rfe
  | wait
  | fence
deriving DecidableEq, Repr

/-- Bits hi to lo of a word. -/
def bits (w hi lo : Nat) : Nat := w / 2 ^ lo % 2 ^ (hi - lo + 1)

/-- A field of a word as a bit vector. -/
def fieldOf (w lo n : Nat) : BitVec n := BitVec.ofNat n (w / 2 ^ lo)

/-- Something where a condition holds. -/
def guardOf {α : Type} (c : Bool) (a : α) : Option α := if c then some a else none

/-- An ALU word (classes 0x0 and 0x1). -/
def decodeAlu (op : Nat) (dst a : BitVec 5) (b : Src2) : Option CragIns :=
  let zero := Src2.isZero b
  match op with
  | 0 => some (.add dst a b)
  | 1 => some (.sub dst a b)
  | 2 => some (.adds dst a b)
  | 3 => some (.subs dst a b)
  | 4 => some (.and_ dst a b)
  | 5 => some (.or_ dst a b)
  | 6 => some (.xor dst a b)
  | 7 => some (.shl dst a b)
  | 8 => some (.shr dst a b)
  | 9 => some (.shra dst a b)
  | 10 => some (.mul dst a b)
  | 11 => some (.mulq dst a b)
  | 12 => some (.min dst a b)
  | 13 => some (.max dst a b)
  | 14 => guardOf zero (.abs dst a b)
  | 15 => guardOf zero (.neg dst a b)
  | 16 => guardOf (dst == 0) (.cmp dst a b)
  | 17 => some (.cadd dst a b)
  | 18 => some (.csub dst a b)
  | 19 => guardOf zero (.conj dst a b)
  | 20 => match b with
    | .reg r => some (.pack dst a r)
    | .imm _ => none
  | 21 => some (.padd (dst.setWidth 4) (a.setWidth 4) b)
  | _ => none

/-- A multiply-accumulate word (class 0x3). -/
def decodeMac (op : Nat) (acc : BitVec 3) (a b : BitVec 5) : Option CragIns :=
  let even := !acc.getLsbD 0
  let zero := a == 0 && b == 0
  match op with
  | 0 => some (.macH acc a b)
  | 1 => some (.msuH acc a b)
  | 2 => some (.macW acc a b)
  | 3 => some (.msuW acc a b)
  | 4 => guardOf even (.cmac acc a b)
  | 5 => guardOf even (.cmacj acc a b)
  | 6 => guardOf even (.cmsu acc a b)
  | 7 => guardOf zero (.clr acc)
  | 8 => guardOf (even && zero) (.clr2 acc)
  | 9 => some (.mova acc a)
  | 10 => some (.adda acc (a.setWidth 3))
  | 11 => some (.macI acc a b)
  | _ => none

/-- An extract or raw move (class 0x5). -/
def decodeExt (op : Nat) (dst : BitVec 5) (acc : BitVec 3) (sh : BitVec 6) : Option CragIns :=
  let zero := sh == 0
  match op with
  | 0 => some (.extW dst acc sh)
  | 1 => some (.extH dst acc sh)
  | 2 => guardOf (!acc.getLsbD 0) (.extCx dst acc sh)
  | 3 => guardOf zero (.rawlo dst acc)
  | 4 => guardOf zero (.rawmi dst acc)
  | 5 => guardOf zero (.rawhi dst acc)
  | 6 => guardOf zero (.inslo dst acc)
  | 7 => guardOf zero (.insmi dst acc)
  | 8 => guardOf zero (.inshi dst acc)
  | 9 => some (.extI dst acc sh)
  | _ => none

/-- The addressing mode of a load or store word (R623). -/
def decodeMode (w : Nat) : Option AddrMode :=
  match bits w 24 23 with
  | 0 => some (.offset (fieldOf w 0 14))
  | 1 => some (.post (fieldOf w 0 14))
  | 2 => guardOf (bits w 8 0 == 0) (.index (fieldOf w 9 5))
  | _ => none

/-- A load word (class 0x6). -/
def decodeLoad (kind : Nat) (reg : BitVec 5) (ptr : BitVec 4) (m : AddrMode) : Option CragIns :=
  match kind with
  | 0 => some (.ldBu reg ptr m)
  | 1 => some (.ldB reg ptr m)
  | 2 => some (.ldHu reg ptr m)
  | 3 => some (.ldH reg ptr m)
  | 4 => some (.ldW reg ptr m)
  | 5 => guardOf (reg.toNat < 16) (.ldP (reg.setWidth 4) ptr m)
  | 6 => guardOf (reg.toNat < 8) (.ldA (reg.setWidth 3) ptr m)
  | _ => none

/-- A store word (class 0x7). -/
def decodeStore (kind : Nat) (reg : BitVec 5) (ptr : BitVec 4) (m : AddrMode) : Option CragIns :=
  match kind with
  | 0 => some (.stB reg ptr m)
  | 1 => some (.stH reg ptr m)
  | 2 => some (.stHu reg ptr m)
  | 3 => some (.stW reg ptr m)
  | 4 => guardOf (reg.toNat < 16) (.stP (reg.setWidth 4) ptr m)
  | 5 => guardOf (reg.toNat < 8) (.stA (reg.setWidth 3) ptr m)
  | 6 => some (.stHf reg ptr m)
  | _ => none

/-- A system word (class 0xB). -/
def decodeSys (w : Nat) : Option CragIns :=
  let z := bits w 19 16 == 0
  let dreg : BitVec 5 := fieldOf w 19 5
  let spec : BitVec 5 := fieldOf w 14 5
  match bits w 27 24 with
  | 0 => guardOf (z && bits w 23 20 == 0) (.ret (fieldOf w 0 16))
  | 1 => guardOf z (.callr (fieldOf w 20 4) (fieldOf w 0 16))
  | 2 => guardOf (z && bits w 15 0 == 0) (.br (fieldOf w 20 4))
  | 3 => guardOf (bits w 13 0 == 0 && spec.toNat ≤ 10) (.mfs dreg spec)
  | 4 => guardOf (bits w 13 0 == 0 && spec.toNat ≤ 10) (.mts dreg spec)
  | 5 => guardOf (bits w 23 0 == 0) (.nop)
  | 6 => guardOf (bits w 23 2 == 0) (.setrnd (fieldOf w 0 2))
  | _ => none

/-- A privileged word (class 0xF), on Summit. -/
def decodePriv (w : Nat) : Option CragIns :=
  match bits w 27 24 with
  | 0 => some (.csrr (fieldOf w 19 5) (fieldOf w 0 16))
  | 1 => some (.csrw (fieldOf w 19 5) (fieldOf w 0 16))
  | 2 => some (.rfe)
  | 3 => some (.wait)
  | 4 => some (.fence)
  | _ => none

/-- The instruction that a word spells on a core, none where it is undefined (R621, R622). -/
def cragDecode (c : Fin 33) (w : Nat) : Option CragIns :=
  match bits w 31 28 with
  | 0 => if bits w 6 0 != 0 then none else decodeAlu (bits w 27 22) (fieldOf w 17 5) (fieldOf w 12 5) (.reg (fieldOf w 7 5))
  | 1 => decodeAlu (bits w 27 22) (fieldOf w 17 5) (fieldOf w 12 5) (.imm (fieldOf w 0 12))
  | 2 =>
    if bits w 20 16 != 0 then none
    else match bits w 27 26 with
      | 0 => some (.movi (fieldOf w 21 5) (fieldOf w 0 16))
      | 1 => some (.movhi (fieldOf w 21 5) (fieldOf w 0 16))
      | 2 => guardOf (bits w 25 21 < 16) (.moviP (fieldOf w 21 4) (fieldOf w 0 16))
      | _ => none
  | 3 => if bits w 9 0 != 0 then none else decodeMac (bits w 27 23) (fieldOf w 20 3) (fieldOf w 15 5) (fieldOf w 10 5)
  | 4 =>
    let acc : BitVec 3 := fieldOf w 21 3
    if bits w 10 0 != 0 then none
    else match bits w 27 24 with
      | 0 => some (.vmacH acc (fieldOf w 17 4) (fieldOf w 13 4) (bit w 12) (bit w 11))
      | 1 => guardOf (!acc.getLsbD 0) (.vcmac acc (fieldOf w 17 4) (fieldOf w 13 4) (bit w 12) (bit w 11))
      | 2 => guardOf (!acc.getLsbD 0) (.vcmacj acc (fieldOf w 17 4) (fieldOf w 13 4) (bit w 12) (bit w 11))
      | _ => none
  | 5 => if bits w 6 0 != 0 || bits w 15 13 != 0 then none else decodeExt (bits w 27 24) (fieldOf w 19 5) (fieldOf w 16 3) (fieldOf w 7 6)
  | 6 => (decodeMode w).bind fun m => decodeLoad (bits w 27 25) (fieldOf w 18 5) (fieldOf w 14 4) m
  | 7 => (decodeMode w).bind fun m => decodeStore (bits w 27 25) (fieldOf w 18 5) (fieldOf w 14 4) m
  | 8 => guardOf (bits w 27 24 ≤ 11) (.branch (fieldOf w 24 4) (fieldOf w 0 24))
  | 9 => some (.call (fieldOf w 16 12) (fieldOf w 0 16))
  | 10 =>
    if bits w 15 0 = 0 then none
    else if bit w 27 then guardOf (bits w 26 21 == 0) (.loop (.reg (fieldOf w 16 5)) (fieldOf w 0 16))
    else some (.loop (.imm (fieldOf w 16 11)) (fieldOf w 0 16))
  | 11 => decodeSys w
  | 15 => if c = 32 then decodePriv w else none
  | _ => none

/-- UNDEFINED_ENCODING (R622): a word that spells no instruction. -/
def execUndefinedEncoding (core : Fin 33) (word : W32) (s : State) : Out :=
  if (cragDecode core word.toNat).isSome then .next s else crag core false (fun k _ => .fault k.pc) s

/-! Kernel images (R606, R626). -/

/-- The direct target of a word, in words from it: of a branch, a call, or a loop's last body instruction. -/
def targetOf (i : CragIns) : Option Int :=
  match i with
  | .branch _ off => some off.toInt
  | .call off _ => some off.toInt
  | .loop _ last => some last.toNat
  | _ => none

/-- The word of an image at an index. -/
def codeWord (code : List Byte) (i : Nat) : Nat := fld code (4 * i) 4

/-- The first field of an image's header that fails (R606). -/
def headBad (b : List Byte) : Option Nat :=
  let n := fld b 8 4
  if fld b 0 4 != 0x4E524B43 then some 0
  else if fld b 4 2 != 1 then some 4
  else if fld b 6 2 != 0 then some 6
  else if n < 4 || 262144 < n || n % 4 != 0 || b.length != 64 + n then some 8
  else if 1024 < fld b 16 4 then some 16
  else if fld b 20 4 % 4 != 0 || n ≤ fld b 20 4 then some 20
  else if (slice b 28 36).any (· != 0) then some 28
  else none

/-- The first check that an image fails: its offset and the check (R606). -/
def imageBad (b : List Byte) : Option (Nat × Nat) :=
  let code := b.drop 64
  let n := code.length / 4
  match headBad b with
  | some o => some (o, 1)
  | none =>
    if crc32 code != fld b 24 4 then some (24, 2)
    else match (List.range n).find? fun i => (cragDecode 0 (codeWord code i)).isNone with
      | some i => some (64 + 4 * i, 3)
      | none =>
        let out (i : Nat) : Bool := match (cragDecode 0 (codeWord code i)).bind targetOf with
          | some t => (i : Int) + t < 0 || (n : Int) ≤ i + t
          | none => false
        match (List.range n).find? out with
        | some i => some (64 + 4 * i, 4)
        | none => if 114688 < fld b 12 4 then some (12, 5) else none

end Sys2Proof.Machine
end

