-- ==== Sys2Proof/Machine/ColCmds.lean ====
section
/-!
DEFINITION. Col's dispatches and the commands of family 0x0D (R593 to R596, R599 to R613).
-/
namespace Sys2Proof.Machine

/-! The views window (R600). -/

/-- Where a band's candidate list lies in the views window. -/
def candAt (b : Nat) : Nat := 16 * (Config.candAt b % 65536)

/-- A candidate's entry (R600), as at a plan-open. -/
def candEntry (s : State) (b beat n : Nat) : List Byte :=
  match getSta s n with
  | none => List.replicate 16 0
  | some x =>
    let snrs := blockSnrs s b (beat - 2) n
    let snr := if snrs.isEmpty then [Config.viewsByte s.drawn n] else leI 1 (meanOf snrs)
    let held := x.held b
    let beats := (List.range 4).flatMap fun i => (List.range (toneGroups (getBand s b).ch.width)).filterMap fun g => (validBlock s b (beat - 2) n i g).map (·.beat)
    let age := match beats with
      | [] => 0xFFFF
      | h :: t => min 0xFFFF (beat - 2 - t.foldl min h)
    let acs := sumOf ((List.range 4).map fun a => if held.any (fun f => acOf f.tid = a) then 2 ^ a else 0)
    let flags := b2n (muOk s b (beat - 2) n 11 0 1) + 2 * b2n (x.p.flags.getLsbD 1) + 4 * b2n (s.air.bfs.any fun f => f.2.p.sta = n)
    le 2 n ++ le 1 (okStreams s b (beat - 2) n 11 0) ++ snr ++ leI 4 (deficitUs x) ++ le 4 (sumOf (held.map fun f => f.bytes.length)) ++
      le 1 acs ++ le 1 flags ++ le 2 age

/-- A plan's candidates are written into the views window. -/
def putCandidates (b beat : Nat) (s : State) : State :=
  match getPlan s b beat with
  | none => s
  | some p => s.onCol fun c => { c with views := putBytes c.views (candAt b) (p.cand.flatMap (candEntry s b beat)) }

/-! Dispatch (R593, R594, R600). -/

/-- Addresses in the local window of the event descriptor, the output area and a packet's copy. -/
def descAt : Nat := 8 * (Config.descAt % 14329)
def outAt : Nat := 8 * (Config.outAt % 13825)
def pktAt : Nat := 8 * (Config.pktAt % 14081)

/-- The flags that a dispatch of a task consumes. -/
def Task.taken (t : Task) : W64 := t.flags &&& t.waitMask

/-- A packet task. -/
def Task.isPacket (t : Task) : Bool := t.binds.any fun b => b.1 = 3

/-- The next dispatch of a task serves a packet. -/
def Task.servesPacket (t : Task) : Bool := t.taken &&& t.bound 3 0 != 0 && !t.queue.isEmpty

/-- What a dispatch serves: the first binding whose flag it consumes. -/
def Task.kindOf (t : Task) : DispKind :=
  if t.servesPacket then .packet
  else match t.binds.find? fun b => t.taken.getLsbD b.2.1 with
    | some (0, _, b) => .planOpen b
    | some (1, _, b) => .chainSet b
    | some (2, _, b) => .outcome b
    | _ => .other

/-- Dispatches of a task that run. -/
def runningOf (s : State) (n : Nat) : Nat := (s.col.cores.filter fun k => (k.run.map fun d => d.task == n).getD false).length

/-- The lowest free core that a task may use. -/
def freeFor (s : State) (t : Task) : Option Nat := (List.range 32).find? fun c => t.coreMask.getLsbD c && (getCore s c).run.isNone

/-- A ready task may start a dispatch, but for the reorder buffer. -/
def startable (s : State) (n : Nat) (t : Task) : Bool :=
  taskReady s.col t && runningOf s n < (if t.isPacket then t.parallel else 1) && (freeFor s t).isSome

/-- The reorder buffer is full and holds a task back. -/
def robHolds (s : State) (t : Task) : Bool := t.ordered && t.servesPacket && 4096 ≤ s.col.rob.length

/-- The task chosen by R594 among some. -/
def chooseTask (l : List (Nat × Task)) : Option (Nat × Task) :=
  l.foldl (fun best e => match best with
    | none => some e
    | some b => if b.2.prio < e.2.prio || (b.2.prio = e.2.prio && e.2.readyNs < b.2.readyNs) then some e else best) none

/-- The event descriptor (R600). -/
def descriptor (s : State) (n : Nat) (kind : DispKind) (p : Option ColPkt) : List Byte :=
  let open_ := (List.range 48).map (Config.descByte s.drawn) ++ List.replicate 16 0
  let band := match kind with
    | .planOpen b => b
    | .chainSet b => b
    | .outcome b => b
    | _ => 0xFF
  let d := patch open_ 0 (le 2 n ++ le 1 band ++ le 1 (cadStateNow s) ++ le 6 (curBeat s))
  match kind with
  | .planOpen b =>
    let q := (getPlan s b (curBeat s + 2)).getD { kind := 0 }
    patch (patch d 10 (le 6 (curBeat s + 2))) 16 (le 4 q.airLeft ++ le 2 q.cand.length ++ le 2 (maxSets s b - q.sets) ++ le 4 (candAt b))
  | .outcome b => patch d 28 (le 4 (outcomesAt b) ++ le 2 (s.col.outs.getD b 0))
  | .packet => match p with
    | some p => patch d 34 (le 2 p.pkt.bytes.length ++ le 4 pktAt ++ le 4 p.hash.toNat ++ le 2 p.rule ++ le 1 p.exc ++ le 1 p.pkt.src)
    | none => d
  | _ => d

/-- The bin of a wait of WAIT_HIST (R605). -/
def waitBin (w : Nat) : Nat := if w < 200 then 0 else min 15 (Nat.log2 (w / 100))

/-- A dispatch of a task starts on a core (R593, R596, R600). -/
def startDispatch (n core : Nat) (t : Task) (x : Kernel) (s : State) : State :=
  let kind := t.kindOf
  let now := nowNs s
  let p := if kind = .packet then t.queue.head? else none
  let flags := t.taken
  let desc := descriptor s n kind p
  let s := onTask n (fun t => { t with flags := t.flags &&& ~~~flags, queue := if kind = .packet then t.queue.tail else t.queue }) s
  let s := onTask n Task.repacket s
  let group := (p.map fun p => if t.orderBits = 0 then 0 else p.hash.toNat / 2 ^ (32 - t.orderBits)).getD 0
  let key := s.col.robNext
  let rob := p.bind fun p => if t.ordered then some ({ task := n, group, pkt := p, core, flags := flags.toNat, prio := t.prio } : Rob) else none
  let s := match rob with
    | some r => s.onCol fun c => { c with rob := Tab.set c.rob key r, robNext := key + 1 }
    | none => s
  let d : Disp := { task := n, kernel := t.kernel, kind, flags, startNs := now, beat := curBeat s, pkt := p, rob := rob.map fun _ => key }
  let s := onCore core (fun k =>
    let mem := memWrite (if x.retain then k.mem else []) descAt desc
    let mem := match p with
      | some p => memWrite mem pktAt (p.pkt.bytes.take 2048)
      | none => mem
    { d := [flags.setWidth 32, (flags >>> 32).setWidth 32, BitVec.ofNat 32 n, BitVec.ofNat 32 core] ++ List.replicate 28 0
      p := [BitVec.ofNat 32 descAt, 0x10000000, BitVec.ofNat 32 outAt] ++ List.replicate 12 0 ++ [0x1C000]
      pc := BitVec.ofNat 32 (0x80000000 + x.entry)
      mem, run := some d, busyNs := k.busyNs, gauge := updAt k.gauge 1 (· + 1) }) s
  let wait := now - t.readyNs
  let s := countCol 0 (s.onCol fun c => { c with hist := updAt c.hist (16 * t.prio + waitBin wait) (· + 1) })
  traceRec n core 0 flags.toNat (wait / 10) t.prio s

/-- COL_DISPATCH (R594): a free core takes the chosen ready task. -/
def execColDispatch (s : State) : Out :=
  .next (onlyIf (s.modes.mode != 3 && domOn s 4) (fun s =>
    let l := s.col.tasks.filter fun e => startable s e.1 e.2
    let s := countCol 4 s (b2n (l.any fun e => robHolds s e.2))
    match chooseTask (l.filter fun e => !robHolds s e.2) with
    | none => s
    | some (n, t) => match freeFor s t, Tab.get? s.col.kernels t.kernel with
      | some c, some x => startDispatch n c t x s
      | _, _ => s) s)

/-! The end of a dispatch (R599, R601 to R603). -/

/-- The user entries of a GROUPING (R601). -/
def gUsers (body : List Byte) (n : Nat) : List GUser :=
  (List.range n).map fun i => { sta := fld body (8 * i) 2, size := fld body (8 * i + 2) 1, pos := fld body (8 * i + 3) 1, ss := fld body (8 * i + 4) 1,
                                mcs := fld body (8 * i + 5) 1 }

/-- One record of an output area is posted (R601, R602). -/
def postRecord (d : Disp) (r : List Byte) (s : State) : State :=
  let b := fld r 1 1
  let n := fld r 2 1
  let target := fld r 4 2
  let body := r.drop 8
  let plan := match d.kind with
    | .planOpen _ => true
    | _ => false
  let group (complete : Bool) : State :=
    if b ≤ 1 && plan && (getAB s b).kernel = d.kernel then deliver b (d.beat + 2) (gUsers body n) complete s else countCol 5 s
  match Config.recordKind (fld r 0 1) with
  | 0 => group false
  | 1 => group true
  | 2 => onTask target (fun t => if t.binds.any fun x => x.1 = 5 && x.2.1 = n then { t with flags := t.flags ||| ((1 : W64) <<< n) } else t) s
  | 3 =>
    if 32 ≤ target && target ≤ 61 && body.length ≤ 256 then hostQueue target { srcType := 0, reason := 1, srcId := 0, ts := nowNs s, bytes := body } s
    else s
  | _ => s

/-- So many records of an output area are posted in order. -/
def postRecords (d : Disp) (area : List Byte) : Nat → Nat → State → State
  | 0, _, s => s
  | n + 1, o, s =>
    let len := fld area (o + 6) 2
    if 4096 < o + 8 + len then s else postRecords d area n (o + 8 + len) (postRecord d (slice area o (8 + len)) s)

/-- KERNEL_RETURN (R602, R603). -/
def execKernelReturn (core : Fin 32) (s : State) : Out :=
  let n := core.val
  let k := getCore s n
  .next (match k.run with
    | none => s
    | some d =>
      if !d.returned then s
      else
        let count := (k.dr 0).toNat
        if 64 < count then kernelFault n k.pc s
        else
          let s := onKernel d.kernel (fun x => { x with fails := 0 }) (freeCore n (traceEnd n 1 d s))
          let s := postRecords d (memRead k.mem outAt 4096) count 0 s
          match d.pkt with
          | none => s
          | some p =>
            let len := p.pkt.bytes.length
            let bytes := memRead k.mem pktAt (min len 2048) ++ p.pkt.bytes.drop 2048
            let (disp, s) := if 2 < (k.dr 1).toNat then s.draw 3 else ((k.dr 1).toNat, s)
            endPacket d disp (k.dr 2).toNat bytes s)

/-- KERNEL_BUDGET_EXPIRY (R599). -/
def execKernelBudgetExpiry (core : Fin 32) (s : State) : Out :=
  .next (match (getCore s core.val).run with
    | none => s
    | some d => overrun core.val (advanceTo (d.startNs + 1000 * (((getTask s d.task).map (·.budget)).getD 100)) s))

/-- Every PLAN_OPEN dispatch of a beat ends at its kernel deadline (R599). -/
def endPlanOpens (beat : Nat) (s : State) : State :=
  (List.range 32).foldl (fun s c => match (getCore s c).run with
    | some d => match d.kind with
      | .planOpen _ => if d.beat = beat then overrun c s else s
      | _ => s
    | none => s) s

/-! GAUGE (R604, R605). -/

/-- Ready dispatches that a core may take. -/
def depthOf (s : State) (c : Nat) : Nat :=
  sumOf (s.col.tasks.map fun e =>
    if !taskReady s.col e.2 || !e.2.coreMask.getLsbD c then 0
    else if e.2.isPacket then min (max 1 e.2.queue.length) (e.2.parallel - runningOf s e.1) else 1 - runningOf s e.1)

/-- The snapshot latched at the start of a beat. -/
def latchGauge (n : Nat) (s : State) : State :=
  let bp := bpNs s
  let core (c : Nat) : List Byte :=
    let k := getCore s c
    let g (i : Nat) : Nat := k.gauge.getD i 0
    let more := (k.run.map fun d => beatNs s n - max d.startNs (beatNs s (n - 1))).getD 0
    le 2 (depthOf s c) ++ le 2 (min 65535 ((g 0 + more) * 65536 / bp)) ++ le 4 (g 1) ++ le 2 (g 2) ++ le 2 (g 3) ++ [0, 0, 0, 0]
  let snap := le 6 (n - 1) ++ [0, 0] ++ (List.range 32).flatMap core ++ s.col.hist.flatMap (le 4)
  let s := if s.col.observe = 2 then s.onCol fun c => { c with snap := memWrite c.snap 0 snap } else s
  s.onCol fun c => { c with hist := List.replicate 128 0, cores := c.cores.map fun k => { k with gauge := [0, 0, 0, 0] } }

/-! Kernels (R606, R608 to R610). -/

/-- The modes of family 0x0D. -/
def colModes : Cmd → State → Bool := inModes [2, 4, 5, 6]

/-- A kernel is started. -/
def kernelStarted (s : State) (n : Nat) : Bool := ((Tab.get? s.col.kernels n).map (·.started)).getD false

/-- KERNEL_LOAD (R609). -/
def specKernelLoad : OpSpec where
  op := 0x0D01
  modes := colModes
  rsv c := c.zero [(18, 2)]
  objs c := [.kernel (c.u 16 2)]
  needs _ := [4]
  body c s :=
    if 63 < c.u 16 2 || c.u 20 8 % 8 != 0 then (eArg, s)
    else if kernelStarted s (c.u 16 2) || !dramReady s then (eState, s)
    else (.pending, s)

/-- KERNEL_LOAD. -/
def execKernelLoad (d : Doorbell) (p : List Byte) (s : State) : Out := command specKernelLoad d p s

/-- KERNEL_LOAD_DONE (R606, R609): the image as its DMA has read it. -/
def execKernelLoadDone (image : List Byte) (s : State) : Out :=
  .next (match findLong s 0x0D01 with
    | none => s
    | some l =>
      let b := pad (l.cmd.u 28 4) image
      match imageBad b with
      | some (o, k) => endLong l (.err 0x0D01 (le 4 o ++ le 1 k)) s
      | none =>
        let x : Kernel := { code := b.drop 64, localNeed := fld b 12 4, sharedNeed := fld b 16 4, entry := fld b 20 4, crc := BitVec.ofNat 32 (fld b 24 4) }
        endLong l (.ok (le 4 (fld b 24 4))) (s.onCol fun c => { c with kernels := Tab.set c.kernels (l.cmd.u 16 2) x }))

/-- Tasks that have become ready take the present instant. -/
def readied (old : Col) (s : State) : State :=
  let now := nowNs s
  s.onCol fun c => { c with tasks := c.tasks.map fun e => if taskReady c e.2 && !taskReady old e.2 then (e.1, { e.2 with readyNs := now }) else e }

/-- KERNEL_START (R610). -/
def specKernelStart : OpSpec where
  op := 0x0D02
  modes := colModes
  rsv c := c.flagsBelow 18 1
  objs c := [.kernel (c.u 16 2)]
  needs _ := [4]
  body c s :=
    let n := c.u 16 2
    let kb := c.u 20 4
    let used := sumOf (s.col.kernels.map fun e => if e.2.started then e.2.sharedKb else 0)
    if 63 < n || c.u 19 1 < 1 || 1024 < kb || kb % 16 != 0 then (eArg, s)
    else match Tab.get? s.col.kernels n with
      | none => (eState, s)
      | some x =>
        if x.started then (eState, s)
        else if kb < x.sharedNeed then (eArg, s)
        else if 6144 < used + kb then (.err 0x0D02, s)
        else (.ok, readied s.col (onKernel n (fun x => { x with
          started := true, retain := bit (c.u 18 1) 0, limit := c.u 19 1, sharedKb := kb, shared := [], fails := 0 }) s))

/-- KERNEL_START. -/
def execKernelStart (d : Doorbell) (p : List Byte) (s : State) : Out := command specKernelStart d p s

/-- KERNEL_STOP (R610). -/
def specKernelStop : OpSpec where
  op := 0x0D03
  modes := colModes
  rsv c := c.zero [(18, 2)]
  objs c := [.kernel (c.u 16 2)]
  needs _ := [4]
  body c s :=
    let n := c.u 16 2
    if 63 < n then (eArg, s) else if kernelStarted s n then (.ok, stopKernel n s) else (eState, s)

/-- KERNEL_STOP. -/
def execKernelStop (d : Doorbell) (p : List Byte) (s : State) : Out := command specKernelStop d p s

/-! Tasks and observation (R611 to R613). -/

/-- The bindings of TASK_CONFIG: source, bit, parameter. -/
def taskBinds (c : Cmd) : List (Nat × Nat × Nat) :=
  ((List.range 8).map fun j => (c.u (40 + 4 * j) 1, c.u (41 + 4 * j) 1, c.u (42 + 4 * j) 2)).filter fun b => b.1 != 0xFF

/-- A binding is in range (R592). -/
def bindOk (b : Nat × Nat × Nat) : Bool :=
  b.2.1 ≤ 63 && (if b.1 ≤ 2 then b.2.2 ≤ 1 else if b.1 = 3 || b.1 = 5 then b.2.2 = 0 else b.1 = 4 && 1 ≤ b.2.2)

/-- TASK_CONFIG (R611). -/
def specTaskConfig : OpSpec where
  op := 0x0D04
  modes := colModes
  rsv c := c.flagsBelow 18 3
  needs _ := [4]
  body c s :=
    let n := c.u 16 2
    let t : Task := { kernel := c.u 20 2, all := bit (c.u 18 1) 1, ordered := bit (c.u 18 1) 2, prio := c.u 19 1, orderBits := c.u 22 1,
                      parallel := c.u 23 1, coreMask := BitVec.ofNat 32 (c.u 24 4), waitMask := BitVec.ofNat 64 (c.u 28 8), budget := c.u 36 2,
                      qdepth := c.u 38 2, binds := taskBinds c }
    if n < 16 || 1023 < n then (eArg, s)
    else if !bit (c.u 18 1) 0 then (.ok, s.onCol fun x => { x with tasks := Tab.erase x.tasks n })
    else if 6 < t.prio || 63 < t.kernel || 12 < t.orderBits || t.parallel < 1 || 32 < t.parallel || t.budget < 1 || 10000 < t.budget || t.qdepth < 16 ||
      4096 < t.qdepth || !t.binds.all bindOk then (eArg, s)
    else
      let old := (getTask s n).getD t
      (.ok, readied s.col (s.onCol fun x => { x with
        tasks := Tab.set x.tasks n (Task.repacket { t with flags := old.flags, queue := old.queue, readyNs := nowNs s }) }))

/-- TASK_CONFIG. -/
def execTaskConfig (d : Doorbell) (p : List Byte) (s : State) : Out := command specTaskConfig d p s

/-- COL_OBSERVE_SET (R612). -/
def specColObserveSet : OpSpec where
  op := 0x0D05
  modes := colModes
  rsv c := c.flagsBelow 17 1 && c.zero [(18, 2)]
  needs _ := [4]
  body c s :=
    let m := c.u 16 1
    if 2 < m then (eArg, s)
    else
      let t := s.onCol fun x => { x with observe := m, wrap := bit (c.u 17 1) 0 }
      (.ok, if m = s.col.observe then t else t.onCol fun x => { x with trace := [], wr := 0, full := false })

/-- COL_OBSERVE_SET. -/
def execColObserveSet (d : Doorbell) (p : List Byte) (s : State) : Out := command specColObserveSet d p s

/-- MASSIF_STATS (R613). -/
def specMassifStats : OpSpec where
  op := 0x0D06
  rsv c := c.flagsBelow 16 1 && c.zero [(17, 3)]
  needs _ := [4]
  body c s :=
    let busy := (List.range 32).flatMap fun i => le 4 (min 0xFFFFFFFF ((getCore s i).busyNs / 1000))
    (.ok (ctrBytes s.col.ctr ++ le 4 s.col.rob.length ++ busy),
      if bit (c.u 16 1) 0 then s.onCol fun x => { x with ctr := zeroed x.ctr, cores := x.cores.map fun k => { k with busyNs := 0 } } else s)

/-- MASSIF_STATS. -/
def execMassifStats (d : Doorbell) (p : List Byte) (s : State) : Out := command specMassifStats d p s

/-! The trace window (R605). -/

/-- TRACE_RESTART: the buffer is emptied. -/
def execTraceRestart (s : State) : Out :=
  .next (onlyIf s.host.link (fun s => s.onCol fun c => { c with trace := [], wr := 0, full := false }) s)

/-- TRACE_FREEZE. -/
def execTraceFreeze (on : Bool) (s : State) : Out := .next (onlyIf s.host.link (fun s => s.onCol fun c => { c with freeze := on }) s)

/-- TRACE_LOST_READ: the read clears the count. -/
def execTraceLostRead (s : State) : Out := .next (onlyIf s.host.link (fun s => s.onCol fun c => { c with lost := 0 }) s)

end Sys2Proof.Machine
end

