-- ==== Sys2Proof/Machine/Dram.lean ====
section
/-!
DEFINITION. The DDR5 controller: the address map, refresh and tracking, reads and their errors, the freeze, and the
commands of family 0x0E.
-/
namespace Sys2Proof.Machine

/-! The configuration and the address map (R632, R636, R637). -/

/-- The capacity in bytes (R632). -/
def dramBytes (d : Dram) : Nat := 4 * d.density * d.ranks * 2 ^ 30

/-- N: the address bits (R636). -/
def dramN (d : Dram) : Nat := if d.density * d.ranks = 8 then 35 else 36

/-- A sum of powers of 2. -/
def bitsMask (l : List Nat) : Nat := sumOf (l.map fun i => 2 ^ i)

/-- The default map of a configuration (R637). -/
def defaultMap (d : Dram) : DMap :=
  let row0 := if dramN d = 36 then 20 else 19
  let x (base r1 r2 : Nat) : Nat := bitsMask [base, row0 + r1, row0 + r2]
  let ba1 := d.density = 16
  let rk := d.ranks = 2
  { xbase := [8, 9, 10, 11, 12, 18, if ba1 then 19 else 0xFF, if rk then 19 else 0xFF]
    colbase := [6, 7, 13, 14, 15, 16, 17]
    rowbase := (List.range 16).map (row0 + ·)
    mask := [x 8 0 6, x 9 1 7, x 10 2 8, x 11 3 9, x 12 4 10, x 18 5 11, if ba1 then x 19 12 13 else 0, if rk then x 19 12 13 else 0] }

/-- The bits of a number, as a parity. -/
def parity (n : Nat) : Nat := (((List.range 64).filter (bit n)).length) % 2

/-- The targets' bases in the order of DRAM_MAP_SET (R655). -/
def DMap.bases (m : DMap) : List Nat := m.xbase ++ m.colbase ++ m.rowbase

/-- The target at a position satisfies what R637 asks of it: positions 0 to 7 XOR, 8 to 14 COL, 15 to 30 ROW. -/
def targetOk (d : Dram) (m : DMap) (i : Nat) : Bool :=
  let n := dramN d
  let b := m.bases.getD i 0xFF
  let k := m.mask.getD i 0
  if (i = 6 && d.density != 16) || (i = 7 && d.ranks != 2) then b = 0xFF && k = 0
  else
    6 ≤ b && b < n && !(m.bases.take i).contains b &&
    (7 < i || (bit k b && k < 2 ^ n && (List.range n).all fun j => !bit k j || j = b || (m.colbase ++ m.rowbase).contains j))

/-- The first target at fault of a map, if any (R637, R652). -/
def badTarget (d : Dram) (m : DMap) : Option Nat := (List.range 31).find? fun i => !targetOk d m i

/-- Where a line lies (R636). -/
structure DLoc where
  ch : Nat
  sc : Nat
  rank : Nat
  bg : Nat
  bank : Nat
  row : Nat
  col : Nat
deriving DecidableEq, Repr

/-- The place of an address in a map (R636). -/
def dramLoc (m : DMap) (a : Nat) : DLoc :=
  let x (i : Nat) : Nat := parity (a &&& m.mask.getD i 0)
  let gather (l : List Nat) : Nat := sumOf (l.zipIdx.map fun b => if bit a b.1 then 2 ^ b.2 else 0)
  { ch := x 0, sc := x 1, rank := x 7, bg := x 2 + 2 * x 3 + 4 * x 4, bank := x 5 + 2 * x 6, row := gather m.rowbase, col := gather m.colbase }

/-- The index of a rank among those of the controller: channel, sub-channel, rank. -/
def rankIdx (ch sc rank : Nat) : Nat := 4 * ch + 2 * sc + rank

/-- The index of a device (R657). -/
def devIdx (ch sc rank dev : Nat) : Nat := 10 * rankIdx ch sc rank + dev

/-- The index of a bank. -/
def DLoc.bankIdx (l : DLoc) : Nat := 32 * rankIdx l.ch l.sc l.rank + 4 * l.bg + l.bank

/-- The ranks that the configuration has. -/
def allRanks (d : Dram) : List (Nat × Nat × Nat) :=
  [0, 1].flatMap fun ch => [0, 1].flatMap fun sc => (List.range d.ranks).map fun r => (ch, sc, r)

/-- A class may reach an address (R634, R639). -/
def regionOk (d : Dram) (cls a : Nat) : Bool :=
  a < dramBytes d && match cls with
  | 0 => true
  | 1 => 0x8000000 ≤ a && a < 0x46800000
  | 2 => 0x5000000 ≤ a && a < 0x6000000
  | 3 | 4 => 0x46800000 ≤ a
  | _ => (0x4000000 ≤ a && a < 0x5000000) || (0x6000000 ≤ a && a < 0x6800000)

/-! The devices' commands (R651). -/

/-- A command is put on a channel, and kept for the freeze record. -/
def dramCmd (kind cls : Nat) (l : DLoc) (s : State) : State :=
  let loc := l.ch + 2 * l.sc + 4 * l.rank
  let e : DCmd := { ts := BitVec.ofNat 32 (nowNs s), cmd := kind, loc, bgba := 16 * l.bg + l.bank, cls, row := l.row, col := l.col }
  (s.onDram fun d => { d with cmds := (e :: d.cmds).take 64 }).emit (.ddr l.ch kind)

/-- A command to a rank. -/
def rankCmd (kind ch sc rank : Nat) (s : State) : State := dramCmd kind 0 { ch, sc, rank, bg := 0, bank := 0, row := 0, col := 0 } s

/-- Count in the counters of R657. -/
def countDram (i k : Nat) (s : State) : State := s.onDram fun d => { d with ctr := bump d.ctr i k }

/-! The freeze (R649 to R651). -/

/-- The freeze record (R651). -/
def freezeRec (cause ch sc rank : Nat) (l : DLoc) (dev cls op addr later : Nat) (synd : List Byte) (s : State) : List Byte :=
  let t := nowNs s
  le 1 1 ++ le 1 cause ++ le 1 ch ++ le 1 sc ++ le 1 rank ++ le 1 l.bg ++ le 1 l.bank ++ le 1 dev ++ le 4 l.row ++ le 2 l.col ++
  le 1 cls ++ le 1 op ++ le 8 addr ++ le 8 t ++ le 6 (beatAt s t) ++ le 2 later ++ pad 16 synd ++ le 8 0 ++
  s.dram.cmds.reverse.flatMap fun c => le 4 c.ts.toNat ++ le 1 c.cmd ++ le 1 c.loc ++ le 1 c.bgba ++ le 1 c.cls ++ le 4 c.row ++ le 2 c.col ++ le 2 0

/-- The freeze record is written and the DRAM is FROZEN. -/
def putFreeze (r : List Byte) (s : State) : State := s.onDram fun d => { d with freeze := memWrite [] 0 r, st := 5 }

/-- A freeze cause arises (R649 to R651): the controller freezes, or counts a later error; in the cycle of the freeze the cause
of the lower channel, sub-channel and rank is the one recorded. -/
def dramFreeze (cause ch sc rank : Nat) (l : DLoc) (dev cls op addr : Nat) (synd : List Byte) (s : State) : State :=
  let fz := s.dram.freeze
  let later := min 65535 (memFld fz 38 2 + 1)
  let key := 4 * ch + 2 * sc + rank
  let old := 4 * memFld fz 2 1 + 2 * memFld fz 3 1 + memFld fz 4 1
  let now (n : Nat) := freezeRec cause ch sc rank l dev cls op addr n synd s
  if s.dram.st = 5 then
    if memFld fz 24 8 = nowNs s && key < old then putFreeze (now later) s
    else s.onDram fun d => { d with freeze := memWrite d.freeze 38 (le 2 later) }
  else raise 0x0E81 none (le 1 cause ++ le 1 ch ++ le 1 sc ++ [0] ++ le 8 addr) (enterSafe 6 [] (putFreeze (now 0) s))

/-- The controller is frozen or could freeze (R649). -/
def mayFreeze (s : State) : Bool := s.dram.st = 5 || dramReady s

/-- A training that an error on the interface ends (R649): the spec does not tie the step to the command. -/
def trainFails (ch sc rank : Nat) (s : State) : State :=
  let (step, s) := s.draw 8
  endOp 0x0E02 (.err 0x0E02 [BitVec.ofNat 8 ch, BitVec.ofNat 8 sc, BitVec.ofNat 8 rank, BitVec.ofNat 8 (step + 1)])
    (s.onDram fun d => { d with st := 1 })

/-! Training (R633, R635, R643). -/

/-- DRAM_TRAIN_DONE (R633, R635, R643, R656). -/
def execDramTrainDone (res : TrainResult) (s : State) : Out :=
  .next (onlyIf (s.dram.st = 2) (fun s =>
    match res with
    | .ok ms =>
      if ms ≤ 580 then
        let s := s.onDram fun d => { d with st := 3, watermark := 0x46800000, zeroed := false, debt := [], rows := [], replay := [], lanes := [] }
        endOp 0x0E02 (.ok (le 4 (dramBytes s.dram / 2 ^ 20) ++ le 2 ms)) s
      else s
    | .unsupported ch sc rank dev reason =>
      if 1 ≤ reason && reason ≤ 5 && ch < 2 && sc < 2 && rank < 2 && dev < 10 then
        endOp 0x0E02 (.err 0x0E01 (le 1 ch ++ le 1 sc ++ le 1 rank ++ le 1 dev ++ le 1 reason)) (s.onDram fun d => { d with st := 1 })
      else s
    | .failed ch sc rank step =>
      if 1 ≤ step && step ≤ 8 && ch < 2 && sc < 2 && rank < 2 then
        endOp 0x0E02 (.err 0x0E02 (le 1 ch ++ le 1 sc ++ le 1 rank ++ le 1 step)) (s.onDram fun d => { d with st := 1 })
      else s) s)

/-- ZEROING_DONE (R635). -/
def execZeroingDone (s : State) : Out :=
  .next (onlyIf (dramReady s && !s.dram.zeroed) (fun s => s.onDram fun d => { d with zeroed := true, watermark := dramBytes d }) s)

/-! Refresh, calibration and tracking (R642, R644, R645). -/

/-- Rows close in the banks that a test selects. -/
def closeRows (p : Nat → Bool) (s : State) : State := s.onDram fun d => { d with rows := d.rows.filter fun r => !p r.1 }

/-- A refresh is issued to a rank (R642): all banks, or one bank of every group. -/
def issueRefresh (ch sc rank : Nat) (s : State) : State :=
  let base := 32 * rankIdx ch sc rank
  if s.dram.refMode = 0 then rankCmd 8 ch sc rank (closeRows (fun b => base ≤ b && b < base + 32) s)
  else
    let (bank, s) := s.draw (if s.dram.density = 16 then 4 else 2)
    dramCmd 9 0 { ch, sc, rank, bg := 0, bank, row := 0, col := 0 } (closeRows (fun b => base ≤ b && b < base + 32 && b % 4 = bank) s)

/-- REFRESH_DUE (R642, R650): whether C1 or C2 has pending requests, and whether the controller then postpones, is open. In SAFE
the refresh is issued. -/
def execRefreshDue (ch sc rank : Fin 2) (s : State) : Out :=
  .next (onlyIf (rank.val < s.dram.ranks && domOn s 5) (fun s =>
    let i := rankIdx ch.val sc.val rank.val
    if s.dram.st = 5 || (s.dram.st = 3 && s.modes.mode = 7) then s.emit (.ddr ch.val (if s.dram.refMode = 0 then 8 else 9))
    else if s.dram.st = 3 then
      let (k, s) := s.draw 3
      let owed := Tab.getD s.dram.debt i 0
      if k = 0 then
        let s := (List.range (owed + 1)).foldl (fun s _ => issueRefresh ch.val sc.val rank.val s) s
        s.onDram fun d => { d with debt := Tab.erase d.debt i }
      else if k = 1 || 4 ≤ owed then issueRefresh ch.val sc.val rank.val s
      else countDram 6 1 (s.onDram fun d => { d with debt := Tab.set d.debt i (owed + 1) })
    else s) s)

/-- MR4_POLL (R642): the highest multiplier that a device asks for, and the first device above its range. -/
def execMr4Poll (mult : Nat) (hot : Option (Nat × Nat × Nat × Nat)) (s : State) : Out :=
  .next (onlyIf (dramReady s && [1, 2, 4].contains mult) (fun s =>
    let s := (allRanks s.dram).foldl (fun s r => rankCmd 10 r.1 r.2.1 r.2.2 s) (s.onDram fun d => { d with refMult := mult })
    match hot with
    | some (ch, sc, rank, dev) => raise 0x0E83 none (le 1 ch ++ le 1 sc ++ le 1 rank ++ le 1 dev) s
    | none => s) s)

/-- DRAM_TRACK_LIMIT (R644). -/
def trackLimit (ch sc rank lane : Nat) (s : State) : State := raise 0x0E84 none (le 1 ch ++ le 1 sc ++ le 1 rank ++ le 1 lane) s

/-- ZQ_CAL_DUE (R644): the lane, if any, whose correction would pass 0.25 UI. -/
def execZqCalDue (ch sc rank : Fin 2) (limit : Option Nat) (s : State) : Out :=
  .next (onlyIf (dramReady s && decide (rank.val < s.dram.ranks)) (fun s =>
    let s := countDram 4 1 (rankCmd 14 ch.val sc.val rank.val s)
    match limit with
    | some lane => trackLimit ch.val sc.val rank.val lane s
    | none => s) s)

/-- DQS_TRACK_DUE (R644): a lane's drift since its last correction, 1/1024 UI. -/
def execDqsTrackDue (ch sc rank : Fin 2) (lane : Nat) (drift : Int) (s : State) : Out :=
  .next (onlyIf (dramReady s && decide (rank.val < s.dram.ranks) && decide (lane < 40)) (fun s =>
    let s := rankCmd 10 ch.val sc.val rank.val s
    let i := 40 * rankIdx ch.val sc.val rank.val + lane
    let now := Tab.getD s.dram.lanes i 0
    if drift.natAbs ≤ 16 then s
    else if 256 < (now + drift).natAbs then trackLimit ch.val sc.val rank.val lane s
    else countDram 5 1 (s.onDram fun d => { d with lanes := if now + drift = 0 then Tab.erase d.lanes i else Tab.set d.lanes i (now + drift) })) s)

/-- SELF_REFRESH_EXIT_DONE (R514, R645): ZQ calibration and a tracking pass have run, and requests are served. -/
def execSelfRefreshExitDone (s : State) : Out :=
  .next (onlyIf (s.dram.st = 4 && domOn s 5 && s.modes.mode != 7) (fun s =>
    let rs := allRanks s.dram
    let s := rs.foldl (fun s r => countDram 4 1 (rankCmd 14 r.1 r.2.1 r.2.2 (rankCmd 13 r.1 r.2.1 r.2.2 s))) s
    (s.onDram fun d => { d with st := 3 }).onFwd fun f => { f with sweeping := false }) s)

/-! Requests (R638 to R641). -/

/-- DRAM_CREDIT_WINDOW (R635, R639, R641, R657): credits are renewed; the zeroing advances by up to 10 GB/s, and the C4 write
buffer drains by at least its class's reserve where it holds so much. -/
def execDramCreditWindow (s : State) : Out :=
  .next (onlyIf (s.dram.st = 5 || (s.dram.st = 3 && domOn s 5)) (fun s =>
    if !dramReady s then s.onDram fun d => { d with hist := (List.replicate 6 0 :: d.hist).take 1000, served := List.replicate 6 0, credit := List.replicate 6 0 }
    else
      let (z, s) := if s.dram.zeroed then (0, s) else s.draw 157
      let (x, s) := s.draw (s.dram.wb - min s.dram.wb 20000 + 1)
      let out := min s.dram.wb 20000 + x
      s.onDram fun d => { d with
        watermark := min (dramBytes d) (d.watermark + 64 * z), wb := d.wb - out
        hist := (updAt (updAt d.served 4 (· + out)) 0 (· + 64 * z) :: d.hist).take 1000
        served := List.replicate 6 0, credit := [2000, 8000, 14000, 12000, 20000, 4000] }) s)

/-- The row policy's effect on a bank after an access of a class (R638): a hint is fixed by the class (R639). Whether a queued
request hits the row (AUTO) is open. -/
def afterAccess (cls : Nat) (l : DLoc) (s : State) : State :=
  let keep (t : Option Nat) (s : State) := s.onDram fun d => { d with rows := Tab.set d.rows l.bankIdx (l.row, t) }
  let close (s : State) := s.onDram fun d => { d with rows := Tab.erase d.rows l.bankIdx }
  match cls with
  | 1 => keep (some (nowNs s + s.dram.openIdle)) s
  | 0 | 2 => close s
  | _ => let (k, s) := s.draw 2; if k = 1 then keep none s else close s

/-- A bank's open row. -/
def openRow (s : State) (b : Nat) : Option Nat :=
  match Tab.get? s.dram.rows b with
  | some (r, some t) => if nowNs s < t then some r else none
  | some (r, none) => some r
  | none => none

/-- A burst is served (R638, R640): the bank's row, the counters, the credit. -/
def serveBurst (cls : Nat) (write : Bool) (l : DLoc) (s : State) : State :=
  let b := l.bankIdx
  let hit := openRow s b == some l.row
  let s := if hit then countDram 8 1 s
    else
      let s := if (openRow s b).isSome then dramCmd 6 cls l s else s
      countDram 9 1 (dramCmd 1 cls l s)
  let s := afterAccess cls l s
  let closed := (Tab.get? s.dram.rows b).isNone
  let s := dramCmd ((if write then 4 else 2) + b2n closed) cls l s
  s.onDram fun d => { d with credit := updAt d.credit cls (· - 64), served := updAt d.served cls (· + 64) }

/-- A corrected read (R647). -/
def correctedAt (l : DLoc) (dev : Nat) (s : State) : State :=
  let i := devIdx l.ch l.sc l.rank dev
  let t := nowNs s
  let s := s.onDram fun d => { d with ctr := bump d.ctr 0, ce := Tab.upd d.ce i 0 fun n => satAdd 16 n 1 }
  let who (n : Nat) : List Byte := le 1 l.ch ++ le 1 l.sc ++ le 1 l.rank ++ le 1 dev ++ le 4 n
  let (last, times) := s.dram.ceAt.getD l.ch (none, [])
  let times := t :: times.filter fun x => t < x + 10 ^ 9
  let due : Bool := match last with
    | some x => decide (x + 10 ^ 9 ≤ t)
    | none => true
  let s := s.onDram fun d => { d with ceAt := setAt d.ceAt l.ch (if due then some t else last, times) }
  let s := if due then raise 0x0E80 none (who times.length) s else s
  let (hour, raised) := Tab.getD s.dram.ceHour i ([], false)
  let hour := t :: hour.filter fun x => t < x + 3600 * 10 ^ 9
  let worn := s.dram.ceThr ≤ hour.length && !raised
  let s := s.onDram fun d => { d with ceHour := Tab.set d.ceHour i (hour, raised || worn) }
  if worn then raise 0x0E82 none (who hour.length) s else s

/-- DRAM_READ_COMPLETE (R640, R646 to R650): in a frozen controller the read ends with a bus error. -/
def execDramReadComplete (addr cls : Nat) (scrub : Bool) (res : EccResult) (s : State) : Out :=
  let a := addr / 64 * 64
  let l := dramLoc s.dram.map a
  .next (onlyIf (mayFreeze s && decide (cls ≤ 5) && regionOk s.dram cls a && (!scrub || (cls = 0 && (s.dram.zeroed || a < 0x46800000)))) (fun s =>
    if s.dram.st = 5 then
      match res with
      | .uncorrectable dev synd => dramFreeze 1 l.ch l.sc l.rank l dev cls (if scrub then 2 else 0) a synd (countDram 1 1 s)
      | _ => s
    else
      let s := serveBurst cls false l s
      let s := if scrub && a + 64 = dramBytes s.dram then countDram 3 1 s else s
      match res with
      | .clean => s
      | .corrected dev => if dev < 10 then correctedAt l dev (dramCmd 4 0 l s) else s
      | .uncorrectable dev synd => dramFreeze 1 l.ch l.sc l.rank l dev cls (if scrub then 2 else 0) a synd (countDram 1 1 s)) s)

/-- CA_PARITY_ERROR (R649 to R651). -/
def execCaParityError (ch sc rank : Fin 2) (addr cls : Nat) (s : State) : Out :=
  .next (if s.dram.st = 2 then trainFails ch.val sc.val rank.val s
    else onlyIf (mayFreeze s && decide (cls ≤ 5)) (fun s =>
      let a := addr / 64 * 64
      dramFreeze 2 ch.val sc.val rank.val (dramLoc s.dram.map a) 0xFF cls 3 a [] s) s)

/-- WRITE_CRC_ALERT (R649 to R651): the first error of a write replays it; on the replay it freezes the controller or ends the
training. -/
def execWriteCrcAlert (addr cls : Nat) (replayed : Bool) (s : State) : Out :=
  let a := addr / 64 * 64
  let l := dramLoc s.dram.map a
  .next (onlyIf (s.dram.st = 2 || (mayFreeze s && decide (cls ≤ 5) && regionOk s.dram cls a)) (fun s =>
    if !replayed then
      if s.dram.st = 5 then s
      else countDram 2 1 ((if s.dram.st = 3 then dramCmd 4 cls l s else s).onDram fun d => { d with replay := a :: d.replay.filter (· != a) })
    else if !s.dram.replay.contains a then s
    else
      let s := s.onDram fun d => { d with replay := d.replay.filter (· != a) }
      if s.dram.st = 2 then trainFails l.ch l.sc l.rank s else dramFreeze 3 l.ch l.sc l.rank l 0xFF cls 1 a [] s) s)

/-! The commands (R653 to R658). -/

/-- DRAM_CONFIG (R632, R653, R654). -/
def specDramConfig : OpSpec where
  op := 0x0E01
  modes := inModes [2]
  rsv c := c.zero [(26, 6)]
  objs _ := [.dram]
  needs _ := [5]
  body c s :=
    let ranks := c.u 16 1
    let density := c.u 17 1
    if 2 < s.dram.st then (eState, s)
    else if !([(1, 8), (2, 8), (1, 16)].contains (ranks, density)) || 1 < c.u 18 1 || 1 < c.u 19 1 || c.u 20 2 < 50 || 2000 < c.u 20 2 ||
      c.u 22 2 < 1 || 168 < c.u 22 2 || c.u 24 2 < 1 then (eArg, s)
    else (.ok, s.onDram fun d =>
      let d := { d with st := 1, ranks, density, refMode := c.u 18 1, fgr := c.u 19 1, openIdle := c.u 20 2, scrubH := c.u 22 2, ceThr := c.u 24 2 }
      { d with map := defaultMap d })

/-- DRAM_CONFIG. -/
def execDramConfig (d : Doorbell) (p : List Byte) (s : State) : Out := command specDramConfig d p s

/-- The map that DRAM_MAP_SET carries (R655). -/
def cmdMap (c : Cmd) : DMap :=
  { xbase := (List.range 8).map fun i => c.u (20 + i) 1, colbase := (List.range 7).map fun i => c.u (28 + i) 1,
    rowbase := (List.range 16).map fun i => c.u (36 + i) 1, mask := (List.range 8).map fun i => c.u (52 + 8 * i) 8 }

/-- DRAM_MAP_SET (R637, R653, R655). -/
def specDramMapSet : OpSpec where
  op := 0x0E03
  modes := inModes [2]
  rsv c := c.flagsBelow 16 1 && c.zero [(17, 3), (35, 1)]
  objs _ := [.dram]
  needs _ := [5]
  body c s :=
    if s.dram.st != 1 then (eState, s)
    else if bit (c.u 16 1) 0 then (.ok, s.onDram fun d => { d with map := defaultMap d })
    else match badTarget s.dram (cmdMap c) with
      | some i => (.err 0x0E03 [BitVec.ofNat 8 i], s)
      | none => (.ok, s.onDram fun d => { d with map := cmdMap c })

/-- DRAM_MAP_SET. -/
def execDramMapSet (d : Doorbell) (p : List Byte) (s : State) : Out := command specDramMapSet d p s

/-- DRAM_TRAIN (R643, R653, R656). -/
def specDramTrain : OpSpec where
  op := 0x0E02
  modes := inModes [2]
  objs _ := [.dram]
  needs _ := [5]
  body _ s :=
    if s.dram.st = 1 || s.dram.st = 2 then
      (.pending, refreshOuts (s.onDram fun d => { d with st := 2, trainNs := nowNs s, replay := [] }))
    else (eState, s)

/-- DRAM_TRAIN. -/
def execDramTrain (d : Doorbell) (p : List Byte) (s : State) : Out := command specDramTrain d p s

/-- STATE of DRAM_STATUS (R657). -/
def dramState (s : State) : Nat := if s.modes.mode = 7 && s.dram.st = 3 then 6 else s.dram.st

/-- CLASS_MBPS (R657): the mean over the last 1 ms, 0 in self-refresh. -/
def classMbps (s : State) (i : Nat) : Nat := if s.dram.st = 4 then 0 else sumOf (s.dram.hist.map fun w => ctrAt w i) / 1000

/-- DRAM_STATUS (R657). -/
def specDramStatus : OpSpec where
  op := 0x0E04
  rsv c := c.flagsBelow 16 1 && c.zero [(17, 3)]
  body c s :=
    let d := s.dram
    let clear := bit (c.u 16 1) 0
    (.ok (le 1 (dramState s) ++ le 1 (b2n d.zeroed) ++ le 1 d.refMult ++ [0] ++ le 4 (if d.st = 0 then 0 else dramBytes d / 2 ^ 20) ++
        ctrBytes d.ctr ++ (List.range 6).flatMap (fun i => le 4 (classMbps s i)) ++ (List.range 80).flatMap fun i => le 2 (Tab.getD d.ce i 0)),
      if clear then s.onDram fun d => { d with ctr := zeroed d.ctr, ce := [] } else s)

/-- DRAM_STATUS. -/
def execDramStatus (d : Doorbell) (p : List Byte) (s : State) : Out := command specDramStatus d p s

/-- FREEZE_READ (R650, R658). -/
def specFreezeRead : OpSpec where
  op := 0x0E05
  body c s :=
    let off := c.u 16 2
    let n := c.u 18 2
    if off % 16 != 0 || n % 16 != 0 || n < 16 || 480 < n || 4080 < off || 4096 < off + n then (eArg, s)
    else (.ok (memRead s.dram.freeze off n), s)

/-- FREEZE_READ. -/
def execFreezeRead (d : Doorbell) (p : List Byte) (s : State) : Out := command specFreezeRead d p s

end Sys2Proof.Machine
end

