-- ==== Sys2Proof/Machine/Ring.lean ====
section
/-!
DEFINITION. The Ridgeline ring (chapter 21): insertion, routing, beacons and mastership, commands, table updates and
summaries, rendezvous.
-/
namespace Sys2Proof.Machine

/-! Ports, insertion and release (R660, R661, R676). -/

/-- This device's RING_ID. -/
def ringId (s : State) : Nat := s.pwr.ringId.toNat

/-- A ring port. -/
def ringPort (s : State) (p : Nat) : RPort := s.ring.ports.getD p {}

/-- Replace a ring port by its image. -/
def onRPort (p : Nat) (f : RPort → RPort) (s : State) : State := s.onRing fun r => { r with ports := updAt r.ports p f }

/-- Count in the counters of R685. -/
def countRing (i : Nat) (s : State) (k : Nat := 1) : State := s.onRing fun r => { r with ctr := bump r.ctr i k }

/-- A port carries ring frames. -/
def ringLive (s : State) (p : Nat) : Bool := portReady s (5 + p)

/-- The ring is left (R661 step 3′, R676): BYP_HOLD_RING falls and the transmitters are off. The state is 3 RELEASED, or 0 with
ENABLE clear. -/
def ringRelease (st : Nat) (s : State) : State :=
  refreshOuts ((s.onRing fun r => { r with
    st, txOn := false, acting := false, master := none, due := false, retryFrom := none, takeAt := none, claim := none
    ports := r.ports.map fun p => { p with up := false, wait := [] } }).onOuts fun o => { o with bypRing := false })

/-- RING_SWITCH_SETTLE (R661 step 2). -/
def execRingSwitchSettle (s : State) : Out :=
  .next (onlyIf (s.ring.st = 1 && !s.ring.txOn) (fun s =>
    refreshOuts ((advanceTo (s.ring.insNs + 1000 * s.ring.insSettle) s).onRing fun r => { r with txOn := true })) s)

/-- RING_PORT_UP (R660, R661 step 3): us after the rise of BYP_HOLD_RING where the ring is being inserted. -/
def execRingPortUp (port : Fin 2) (delay us : Nat) (s : State) : Out :=
  let p := port.val
  .next (onlyIf (s.ring.txOn && (s.ring.st = 1 || s.ring.st = 2) && s.outs.ringTx == .ridgeline && !(ringPort s p).up) (fun s =>
    let s := if s.ring.st = 1 then advanceTo (s.ring.insNs + 1000 * us) s else s
    let s := onRPort p (fun x => { x with up := true, delay, vigil := false, lane0 := false }) s
    if s.ring.st = 1 then
      let mine := s.pwr.ringRole = 1
      let s := s.onRing fun r => { r with st := 2, acting := mine, master := if mine then some (ringId s) else none }
      raise 0x0F80 none (le 4 ((nowNs s - s.ring.insNs) / 1000)) (refreshOuts s)
    else s) s)

/-- A port goes down with frames in flight (R660). -/
def portDown (p lost : Nat) (s : State) : State :=
  raise 0x0F82 none [BitVec.ofNat 8 p] (countRing 1 (onRPort p (fun x => { x with up := false }) s) lost)

/-- RING_PORT_DOWN (R660): the neighbour may have gone to VIGIL (R678). -/
def execRingPortDown (port : Fin 2) (lost : Nat) (peerVigil : Bool) (s : State) : Out :=
  .next (onlyIf (ringPort s port.val).up (fun s => onRPort port.val (fun x => { x with vigil := peerVigil }) (portDown port.val lost s)) s)

/-- RING_LINK_WAIT_EXPIRY (R661 step 3′). -/
def execRingLinkWaitExpiry (s : State) : Out :=
  .next (onlyIf (s.ring.st = 1 && s.ring.txOn) (fun s =>
    let s := ringRelease 3 (advanceTo (s.ring.insNs + 1000 * s.ring.insSettle + 1000000 * s.ring.insWait) s)
    raise 0x0F81 none [0] (s.onRing fun r => { r with retryFrom := some (nowNs s) })) s)

/-- RING_RETRY_EXPIRY (R661). -/
def execRingRetryExpiry (s : State) : Out :=
  .next (match s.ring.retryFrom with
    | some t =>
      if s.ring.st = 3 && s.ring.enable && !s.ring.blocked then
        let s := advanceTo (t + 1000000000 * s.ring.insRetry) s
        if [4, 5, 6].contains s.modes.mode then ringInsert s else s.onRing fun r => { r with due := true, retryFrom := none }
      else s
    | none => s)

/-! Frames (R664 to R667). -/

/-- Fields of a ring header (R664). -/
def rfType (f : List Byte) : Nat := beAt f 0 1
def rfOrigin (f : List Byte) : Nat := beAt f 1 1 % 8
def rfDst (f : List Byte) : Nat := beAt f 2 1
def rfHops (f : List Byte) : Nat := beAt f 3 1
def rfLen (f : List Byte) : Nat := beAt f 4 2
def rfTc (f : List Byte) : Nat := beAt f 6 1
def rfSeq (f : List Byte) : Nat := beAt f 14 2
/-- The body of a frame. -/
def rfBody (f : List Byte) : List Byte := slice f 16 (min (f.length - 16) (rfLen f))

/-- A frame is for this device: DST names it, or all, and another sent it (R666). -/
def ringTaken (s : State) (f : List Byte) : Bool := (rfDst f = ringId s || rfDst f = 0x0F) && rfOrigin f != ringId s

/-- A received frame goes on by the opposite port, with one hop less, or is stripped (R666). Beacons, claims and rendezvous go
before other frames (R667). -/
def ringTransit (p : Nat) (f : List Byte) (s : State) : State :=
  if rfDst f = ringId s && rfOrigin f != ringId s then s
  else if rfOrigin f = ringId s || rfHops f ≤ 1 then countRing 2 s
  else ringWait (1 - p) (if [1, 7, 8].contains (rfType f) then 1 else 2) (patch f 3 (be 1 (rfHops f - 1))) s

/-- A frame of a type arrives: it goes on where it must, and is taken where it is for this device. -/
def ringRx (type : Nat) (port : Fin 2) (f : List Byte) (take : State → State) (s : State) : State :=
  onlyIf (ringLive s port.val && rfType f = type) (fun s =>
    let t := ringTransit port.val f s
    if ringTaken s f then take t else t) s

/-- RING_TRANSIT_FRAME (R14, R666). -/
def execRingTransitFrame (port : Fin 2) (frame : List Byte) (s : State) : Out :=
  .next (onlyIf (ringLive s port.val && decide (1 ≤ rfType frame) && decide (rfType frame ≤ 8) && !ringTaken s frame) (ringTransit port.val frame) s)

/-- RING_BAD_MSG_TYPE (R660, R665). -/
def execRingBadMsgType (port : Fin 2) (frame : List Byte) (crcOk : Bool) (s : State) : Out :=
  .next (onlyIf (ringLive s port.val && (!crcOk || rfType frame = 0 || 8 < rfType frame)) (fun s => countRing 1 s) s)

/-- RING_PORT_TX_START (R667): the lowest class first, in each class the oldest, then the DATA queues. -/
def execRingPortTxStart (port : Fin 2) (s : State) : Out :=
  let p := port.val
  .next (onlyIf (ringLive s p) (fun s =>
    let w := (ringPort s p).wait
    match [1, 2, 3].findSome? fun c => w.find? fun e => e.1 = c with
    | some e => (onRPort p (fun x => { x with wait := x.wait.erase e }) s).emit (.ring p e.2)
    | none => egress (5 + p) s) s)

/-- RING_DATA_RX (R483, R665, R666). -/
def execRingDataRx (port : Fin 2) (frame : List Byte) (s : State) : Out :=
  .next (ringRx 2 port frame (fun s =>
    onlyIf (pathOn s) (ingress { src := 5 + port.val, srcId := rfOrigin frame, bytes := rfBody frame, ts := nowNs s }) s) s)

/-! Beacons, roster and mastership (R662, R663, R668 to R672). -/

/-- The devices of a PATH. -/
def pathMask (p : List Nat) : Nat := sumOf ((List.range 8).map fun d => if p.contains d then 2 ^ d else 0)

/-- The devices that have newly joined start an AUTO_SYNC (R674). -/
def autoSync (new : Nat) (s : State) : State :=
  if s.ring.autoSync && new != 0 then s.onRing fun r => { r with syncing := some (r.syncing.getD 0 ||| new) } else s

/-- The roster follows the copies of the last beacon, or of the one before it where the present one's has not come (R663). -/
def updateRoster (b : Nat) (s : State) : State :=
  let seen := (s.ring.ports.map fun p => if p.beat = some b || p.beat = some (b - 1) then pathMask p.path else 0).foldl (· ||| ·) 0
  let old := s.ring.roster
  if seen = old then s
  else
    let s := raise 0x0F83 none [BitVec.ofNat 8 old, BitVec.ofNat 8 seen] (s.onRing fun r => { r with roster := seen })
    autoSync (seen &&& (0xFF ^^^ (old ||| 2 ^ ringId s))) s

/-- RING_MASTER_CONFLICT, once (R672). -/
def masterConflict (other : Nat) (beats ns : Int) (s : State) : State :=
  if s.ring.conflict then s
  else raise 0x0F85 none (le 1 other ++ leI 4 beats ++ leI 4 ns) (s.onRing fun r => { r with conflict := true })

/-- This device sends its CLAIM for the beat 4 beats on (R672). -/
def sendClaim (s : State) : State :=
  let c := (curBeat s + 4) % 2 ^ 48
  ringSend 7 0x0F 1 0 (be 6 c) (s.onRing fun r => { r with claim := some (c, ringId s), force := false, agree := 0 })

/-- A device strapped 01 receives a beacon of another device (R672): its beat b, mark instant m, and whether ACTING is set. -/
def strapped (origin b : Nat) (m : Int) (acting : Bool) (s : State) : State :=
  let (lb, d) := markBeat s m
  let diff : Int := (b : Int) - lb
  if acting then
    let s := refreshOuts (s.onRing fun r => { r with acting := false })
    let own := match s.ring.claim with
      | some (_, o) => decide (o = ringId s)
      | none => false
    if own then s
    else if s.ring.force then sendClaim s
    else if diff = 0 && d.natAbs < s.cad.tol then
      let s := s.onRing fun r => { r with agree := r.agree + 1, conflict := false }
      if s.cad.state = 1 && s.cad.acquire ≤ s.ring.agree then sendClaim s else s
    else masterConflict origin diff d (s.onRing fun r => { r with agree := 0 })
  else if origin < ringId s then
    masterConflict origin diff d (refreshOuts (s.onRing fun r => { r with acting := false, silent := true }))
  else s

/-- A relayed BEACON or RENDEZVOUS: CORR_NS grows by the link's delay and the residence, PATH by this device (R669). -/
def relayed (s : State) (p residence : Nat) (f : List Byte) : List Byte :=
  let corr := be 4 (beAt f 24 4 + (ringPort s p).delay + residence)
  let path := slice f 28 8
  let path := match path.findIdx? (· == 0xFF) with
    | some i => patch path i [BitVec.ofNat 8 (ringId s)]
    | none => path
  patch (patch f 24 corr) 28 path

/-- RING_BEACON_RX (R663, R669, R670, R672): a copy of the beacon of a beat arrives at time of day t and stays for a residence
time. -/
def execRingBeaconRx (port : Fin 2) (t residence : Nat) (frame : List Byte) (s : State) : Out :=
  let p := port.val
  .next (onlyIf (ringLive s p && rfType frame = 1 && rfDst frame = 0x0F) (fun s =>
    let s := countRing 0 (advanceTo t s)
    let b := beAt frame 16 6
    let flags := beAt frame 23 1
    let path := (slice frame 28 8).map (·.toNat)
    let origin := rfOrigin frame
    let me := ringId s
    if origin = me && s.pwr.ringRole != 0 then
      countRing 2 (updateRoster b (onRPort p (fun x => { x with path, beat := some b }) s))
    else if path.contains me then
      raise 0x0F86 none [BitVec.ofNat 8 me] (ringRelease 3 (s.onRing fun r => { r with blocked := true }))
    else
      let second := (ringPort s (1 - p)).beat = some b
      let m : Int := (t : Int) - beAt frame 24 4 - (ringPort s p).delay
      let s := onRPort p (fun x => { x with path, beat := some b }) s
      let acting := bit flags 2
      let s := s.onRing fun r => { r with
        master := some origin, lastBeacon := b, peerVigilOk := bit flags 3, takeAt := if acting then none else r.takeAt }
      let s := updateRoster b s
      let s := if s.pwr.ringRole = 1 then strapped origin b m acting s else s
      let s := if !second && s.cad.source = 2 && marksOn s then judgeMark true { at_ := m, beat := b, bp := beAt frame 22 1 % 8 } s else s
      if rfHops frame ≤ 1 then countRing 2 s
      else ringWait (1 - p) 1 (patch (relayed s p residence frame) 3 (be 1 (rfHops frame - 1))) s) s)

/-- The beacon of a beat (R668): it leaves by both ports with the most hops that the header allows. -/
def sendBeacon (b : Nat) (s : State) : State :=
  let me := ringId s
  let q := s.ring.seq.getD 1 0
  let flags := b2n (s.cad.state = 2 || s.cad.state = 3) + 2 * b2n (s.cad.state = 5) + 4 * b2n (s.pwr.ringRole = 2) + 8 * b2n s.ring.vigilOk
  let body := be 6 b ++ be 1 s.cad.bpCode ++ be 1 flags ++ be 4 0 ++ be 1 me ++ List.replicate 7 0xFF ++ be 1 s.ring.roster ++ be 3 0
  let s := s.onRing fun r => { r with seq := setAt r.seq 1 ((q + 1) % 65536) }
  [0, 1].foldl (fun s p => ringWait p 1 (ringHdr 1 me 0x0F 7 body.length 0 p b q ++ body) s) s

/-- What the ring does at the start of a beat (R668, R670, R672): a takeover, a claim, the beacon. -/
def ringBeat (b : Nat) (s : State) : State :=
  if s.ring.st != 2 then s
  else
    let s := match s.ring.takeAt with
      | some k =>
        if s.cad.state != 2 && s.cad.state != 3 then s.onRing fun r => { r with takeAt := none }
        else if k ≤ b then
          raise 0x0F84 none (le 1 (ringId s) ++ le 6 s.ring.lastBeacon)
            (refreshOuts (s.onRing fun r => { r with takeAt := none, acting := true, master := some (ringId s) }))
        else s
      | none => s
    let s := match s.ring.claim with
      | some (c, o) =>
        if b < c then s
        else refreshOuts (s.onRing fun r => { r with claim := none, acting := decide (o = ringId s), master := some o, conflict := false })
      | none => s
    if s.ring.acting && !s.ring.silent && [4, 5, 6].contains s.modes.mode && [1, 2, 3, 5].contains s.cad.state then sendBeacon b s else s

/-- RING_CLAIM_RX (R672): a standby master that acts gives mastership back at the claim beat. -/
def execRingClaimRx (port : Fin 2) (frame : List Byte) (s : State) : Out :=
  .next (ringRx 7 port frame (fun s =>
    if s.ring.acting && s.pwr.ringRole = 2 then s.onRing fun r => { r with claim := some (beAt frame 16 6, rfOrigin frame) } else s) s)

/-! Commands of the master (R673). -/

/-- RING_COMMAND_RX (R673). -/
def execRingCommandRx (port : Fin 2) (frame : List Byte) (s : State) : Out :=
  .next (ringRx 3 port frame (fun s =>
    let body := rfBody frame
    if s.ring.master != some (rfOrigin frame) then countRing 4 s
    else if 8 ≤ s.ring.held.length then
      ringSend 4 (rfOrigin frame) 3 0 (le 2 7 ++ slice body 4 2 ++ [0, 0, 0, 0] ++ le 6 0xFFFFFFFFFFFF ++ [0, 0]) s
    else s.onRing fun r => { r with held := r.held ++ [frame] }) s)

/-- RING_RESPONSE_RX (R673): a response, or the CMD_DONE record of a long command. -/
def execRingResponseRx (port : Fin 2) (frame : List Byte) (s : State) : Out :=
  .next (ringRx 4 port frame (fun s =>
    if !s.ring.acting then s
    else
      let b := rfBody frame
      let o := rfOrigin frame
      let isDone := b.length = 64 && fld b 0 2 = 0x0080
      let seq := if isDone then fld b 26 2 else fld b 2 2
      let known := s.ring.sent.find? fun e => e.1 = o && e.2.1 = seq
      let op := if isDone then fld b 32 2 else (known.map (·.2.2)).getD 0
      let status := if isDone then fld b 34 2 else fld b 0 2
      let eff := if isDone then slice b 36 6 else slice b 8 6
      let s := match known with
        | some e => if status = 1 then s else s.onRing fun r => { r with sent := r.sent.erase e }
        | none => s
      raise 0x0F88 none (le 1 o ++ [0] ++ le 2 seq ++ le 2 op ++ le 2 status ++ eff) s) s)

/-! Table updates (R526, R674). -/

/-- RING_TABLE_UPDATE_RX (R526 to R528, R674): in SEQ order for each origin; a copy that has come by the other port is
dropped. -/
def execRingTableUpdateRx (port : Fin 2) (frame : List Byte) (s : State) : Out :=
  .next (ringRx 5 port frame (fun s =>
    let o := rfOrigin frame
    let q := rfSeq frame
    let want := Tab.get? s.ring.expect o
    if want = some ((q + 1) % 65536) then s
    else
      let s := countRing 5 (s.onRing fun r => { r with expect := Tab.set r.expect o ((q + 1) % 65536) })
      let s := match want with
        | some w => if w = q then s else raise 0x0F89 none (le 1 o ++ le 2 w ++ le 2 q) s
        | none => s
      applyUpdate o (rfBody frame) s) s)

/-- The add command of a next hop (R537). -/
def nhUpdate (n : Nat) (x : NextHop) : List Byte :=
  updateBody 0x0A07 (le 2 n ++ le 1 x.type ++ le 1 (b2n x.routed + 4) ++ le 2 x.dest ++ le 2 x.vid ++ be 6 x.dmac ++ be 6 x.smac ++ le 2 x.mtu ++
    le 2 x.flood ++ le 1 x.bss ++ [0, 0, 0])

/-- The add command of an ECMP group (R538). -/
def ecmpUpdate (g : Nat) (x : Ecmp) : List Byte :=
  updateBody 0x0A08 (le 2 g ++ le 1 x.members.length ++ [4] ++ pad 32 (x.members.flatMap fun m => le 2 m))

/-- The add command of a route (R534). -/
def routeUpdate (f : Nat) (r : Route) : List Byte :=
  updateBody 0x0A04 (le 1 f ++ le 1 r.plen ++ le 1 (b2n r.ecmp + 2 * b2n r.pin + 4) ++ [0] ++ le 2 r.result ++ [0, 0] ++
    pad 16 (be (famBits f / 8) r.pre))

/-- The add command of an L2 entry (R531). -/
def l2Update (e : L2e) : List Byte :=
  updateBody 0x0A01 (be 6 e.mac ++ le 2 e.vid ++ le 1 e.type ++ le 1 (b2n e.static + 2 * b2n e.pin + 4) ++ le 2 e.dest ++ [0, 0, 0, 0])

/-- The entries that a local command wrote with SYNC set, as add commands: next hops, ECMP groups, routes, L2 entries (R674). -/
def syncBodies (s : State) : List (List Byte) :=
  ((s.fwd.nh.filter fun e => e.2.sync && !e.2.remote).map fun e => nhUpdate e.1 e.2) ++
  ((s.fwd.ecmp.filter fun e => e.2.sync && !e.2.remote).map fun e => ecmpUpdate e.1 e.2) ++
  ([0, 1].flatMap fun f => ((routesOf s f).filter fun r => r.sync && !r.remote).map (routeUpdate f)) ++
  (((entriesOf s.fwd.l2).filter fun e => e.2.2.sync && !e.2.2.remote).map fun e => l2Update e.2.2)

/-- A table sync to the devices of a mask. -/
def sendSync (mask : Nat) (s : State) : State :=
  let ds := (List.range 8).filter (bit mask)
  (syncBodies s).foldl (fun s b => ds.foldl (fun s d => ringSend 5 d 3 0 b s) s) s

/-- RING_TABLE_SYNC_DONE (R674, R686). -/
def execRingTableSyncDone (s : State) : Out :=
  .next (match s.ring.syncing, findLong s 0x0F03 with
    | some m, _ => (sendSync m s).onRing fun r => { r with syncing := none }
    | none, some l => endLong l (.ok (le 4 (syncBodies s).length)) (sendSync (l.cmd.u 16 1) s)
    | none, none => s)

/-! Summaries (R675). -/

/-- An entry of a CHANNEL_SUMMARY: station and band. -/
def summaryEntry (s : State) (e : Nat × Nat) : List Byte :=
  match getSta s e.1 with
  | none => List.replicate 8 0
  | some x =>
    let snrs := blockSnrs s e.2 (curBeat s) e.1
    be 6 (if e.2 = 0 then x.p.addrM else x.p.addrH) ++ [BitVec.ofNat 8 e.2] ++ if snrs.isEmpty then [Config.viewsByte s.drawn e.1] else leI 1 (meanOf snrs)

/-- SUMMARY_TIMER (R675). -/
def execSummaryTimer (s : State) : Out :=
  .next (onlyIf (s.ring.sumEn && s.ring.st = 2 && [4, 5, 6].contains s.modes.mode && decide (s.ring.sumAt + s.ring.sumBeats ≤ curBeat s)) (fun s =>
    let l := (s.ring.placed.filter fun e => (getSta s e.1).isSome).take 64
    ringSend 6 0x0F 3 0 (be 1 l.length ++ [0, 0, 0] ++ l.flatMap (summaryEntry s))
      (s.onRing fun r => { r with placed := [], sumAt := curBeat s })) s)

/-- RING_SUMMARY_RX (R675). -/
def execRingSummaryRx (port : Fin 2) (frame : List Byte) (s : State) : Out :=
  .next (ringRx 6 port frame (fun s =>
    s.onCol fun c => { c with views := putBytes c.views (0x1F8000 + 0x1000 * rfOrigin frame) (le 8 (curBeat s) ++ (rfBody frame).take 516) }) s)

/-! Rendezvous (R678 to R681). -/

/-- The rendezvous period in ns. -/
def rdvNs (s : State) : Nat := s.ring.checkMs * 1000000

/-- RENDEZVOUS_INSTANT (R678, R681): the next instant R_k is reached. -/
def execRendezvousInstant (s : State) : Out :=
  .next (onlyIf (s.ring.acting && s.ring.st = 2 && decide (3 ≤ s.modes.mode) && decide (s.modes.mode ≤ 6)) (fun s =>
    let first : Nat := (nowNs s - s.cad.epoch + rdvNs s - 1) / rdvNs s
    let k : Nat := match s.ring.rdvK with
      | some j => max first (j + 1)
      | none => first
    let s := noteTime (advanceTo (s.cad.epoch + k * rdvNs s) s)
    let wake := 0 < s.ring.wakeLeft
    let q := s.ring.seq.getD 8 0
    let body := be 4 (k % 2 ^ 32) ++ be 1 (b2n wake) ++ be 1 (if wake then s.ring.wakeMask else 0) ++ [0, 0] ++ be 4 0 ++ be 1 (ringId s) ++ List.replicate 7 0xFF
    let s := s.onRing fun r => { r with rdvK := some k, wakeLeft := r.wakeLeft - 1, seq := setAt r.seq 8 ((q + 1) % 65536) }
    [0, 1].foldl (fun s p =>
      if s.modes.mode = 3 || (ringPort s p).vigil then s.emit (.ring p (ringHdr 8 (ringId s) 0x0F 7 body.length 0 p (curBeat s) q ++ body)) else s) s) s)

/-- A port runs rendezvous windows: both in VIGIL, else those whose neighbour is in VIGIL. -/
def rdvPort (s : State) (p : Nat) : Bool := s.ring.st = 2 && (s.modes.mode = 3 || ([4, 5, 6].contains s.modes.mode && (ringPort s p).vigil))

/-- RDV_WINDOW_OPEN (R678). -/
def execRdvWindowOpen (s : State) : Out :=
  .next (onlyIf (!s.ring.window && !s.ring.acting && (rdvPort s 0 || rdvPort s 1)) (fun s =>
    let s := s.onRing fun r => { r with window := true, arrived := false }
    [0, 1].foldl (fun s p => if rdvPort s p then onRPort p (fun x => { x with lane0 := true }) s else s) s) s)

/-- RDV_WINDOW_END (R679). -/
def execRdvWindowEnd (s : State) : Out :=
  .next (onlyIf s.ring.window (fun s =>
    let hit := s.ring.arrived
    let s := s.onRing fun r => { r with window := false, arrived := false, ports := r.ports.map fun p => { p with lane0 := false } }
    if hit then s
    else
      let s := countRing 7 (s.onRing fun r => { r with misses := satAdd 16 r.misses 1, g := min (4 * r.g) (500 * r.checkMs) })
      raise 0x0F87 none (le 4 s.ring.g ++ le 2 s.ring.misses) s) s)

/-- KEEPER_TRIM follows from two successful rendezvous (R680): index and corrected arrival in keeper ticks of each. -/
def rdvTrim (s : State) (k1 : Nat) (a1 : Rat) (k2 : Nat) (a2 : Rat) : Int :=
  let n := a2 - a1
  let dk : Rat := (((k2 + 2 ^ 32 - k1) % 2 ^ 32 : Nat) : Rat)
  if n ≤ 0 then s.clk.trim else (10 ^ 12 * (dk * rdvNs s / (n * (30517578125 / 1000000)) - 1)).floor

/-- RENDEZVOUS_RX (R669, R678 to R681): it arrives at a keeper count and stays for a residence time. -/
def execRendezvousRx (port : Fin 2) (ticks residence : Nat) (frame : List Byte) (s : State) : Out :=
  let p := port.val
  .next (onlyIf (s.ring.window && (ringPort s p).lane0 && rfType frame = 8 && !(slice frame 28 8).contains (BitVec.ofNat 8 (ringId s))) (fun s =>
    let s := s.onClk fun k => { k with keeper := max k.keeper ticks }
    let k := beAt frame 16 4
    let a : Rat := (ticks : Rat) - ((beAt frame 24 4 + (ringPort s p).delay : Nat) : Rat) / (30517578125 / 1000000)
    let first := !s.ring.arrived
    let s := if first then countRing 6 s else s
    let s := if first && s.modes.mode = 3 then
        let s := match s.ring.lastRdv with
          | some (k1, a1) => noteTime (s.onClk fun c => { c with trim := rdvTrim s k1 a1 k a })
          | none => s
        s.onRing fun r => { r with lastRdv := some (k, a) }
      else s
    let s := s.onRing fun r => { r with arrived := true, misses := 0, g := r.guardUs }
    let s := if 1 < rfHops frame && (ringPort s (1 - p)).lane0 then
        s.emit (.ring (1 - p) (patch (relayed s p residence frame) 3 (be 1 (rfHops frame - 1))))
      else s
    if bit (beAt frame 20 1) 0 && bit (beAt frame 21 1) (ringId s) && s.modes.mode = 3 then wakeSource 3 (rfOrigin frame) s else s) s)

/-! The commands (R682 to R687). -/

/-- RING_CONFIG (R661, R672, R673, R684). -/
def specRingConfig : OpSpec where
  op := 0x0F01
  modes := inModes [2, 4, 5, 6]
  rsv c := if c.u 16 1 = 0 then c.flagsBelow 17 5 && c.zero [(26, 2)] else c.zero [(18, 2)]
  needs _ := [3]
  body c s :=
    let f := c.u 17 1
    match c.u 16 1 with
    | 0 =>
      if 10000 < c.u 18 2 || c.u 20 2 < 10 || 5000 < c.u 20 2 || c.u 22 2 < 1 || 3600 < c.u 22 2 || c.u 24 2 < 10 || 10000 < c.u 24 2 then (eArg, s)
      else if s.pwr.ringRole = 3 then (.err 0x0F01, s)
      else
        let en := bit f 0
        let s := s.onRing fun r => { r with
          enable := en, autoSync := bit f 1, sumEn := bit f 2, vigilOk := bit f 3, settle := c.u 18 2, wait := c.u 20 2, retry := c.u 22 2,
          sumBeats := c.u 24 2, blocked := if en then false else r.blocked, force := bit f 4 && s.pwr.ringRole = 1 && !r.acting }
        if !en then (.ok, if s.ring.st = 0 then s.onRing fun r => { r with due := false } else ringRelease 0 s)
        else if [4, 5, 6].contains s.modes.mode && (s.ring.st = 0 || s.ring.st = 3) then (.ok, ringInsert s)
        else if s.ring.force && s.ring.st = 2 && s.ring.master.isSome && s.ring.master != some (ringId s) then (.ok, sendClaim s)
        else (.ok, s)
    | 1 =>
      if c.par.length < 20 || 500 < c.par.length then (eArg, s)
      else if s.pwr.ringRole = 3 || !s.ring.acting then (.err 0x0F01, s)
      else
        let cmd := c.par.drop 4
        let op := fld cmd 0 2
        let seq := fld cmd 4 2
        let ds := (List.range 8).filter (bit f)
        (.ok, ds.foldl (fun s d => (ringSend 3 d 3 0 cmd s).onRing fun r => { r with sent := r.sent ++ [(d, seq, op)] }) s)
    | _ => (eArg, s)

/-- RING_CONFIG. -/
def execRingConfig (d : Doorbell) (p : List Byte) (s : State) : Out := command specRingConfig d p s

/-- STATE of RING_STATUS (R685). -/
def ringState (s : State) : Nat := if s.modes.mode = 3 && s.ring.st = 2 then 4 else s.ring.st

/-- RING_STATUS (R685). -/
def specRingStatus : OpSpec where
  op := 0x0F02
  rsv c := c.flagsBelow 16 1 && c.zero [(17, 3)]
  needs _ := [3]
  body c s :=
    let e := ringPort s 0
    let w := ringPort s 1
    (.ok (le 1 (ringState s) ++ le 1 (s.ring.master.getD 0xFF) ++ le 1 s.ring.roster ++ le 1 (b2n e.up + 2 * b2n w.up) ++
        e.path.flatMap (le 1) ++ w.path.flatMap (le 1) ++ le 4 e.delay ++ le 4 w.delay ++ ctrBytes s.ring.ctr),
      if bit (c.u 16 1) 0 then s.onRing fun r => { r with ctr := zeroed r.ctr } else s)

/-- RING_STATUS. -/
def execRingStatus (d : Doorbell) (p : List Byte) (s : State) : Out := command specRingStatus d p s

/-- RING_TABLE_SYNC (R674, R686). -/
def specRingTableSync : OpSpec where
  op := 0x0F03
  modes := inModes [4, 5, 6]
  rsv c := c.zero [(17, 3)]
  objs _ := [.ringTable]
  needs _ := [3]
  body _ s := if s.pwr.ringRole = 3 then (.err 0x0F01, s) else (.pending, s)

/-- RING_TABLE_SYNC. -/
def execRingTableSync (d : Doorbell) (p : List Byte) (s : State) : Out := command specRingTableSync d p s

/-- RENDEZVOUS_SET (R681, R687). -/
def specRendezvousSet : OpSpec where
  op := 0x0F04
  modes := inModes [2, 3, 4, 5, 6]
  rsv c := c.zero [(21, 3)]
  needs _ := [3]
  body c s :=
    let ms := c.u 16 2
    let g := c.u 18 2
    let mask := c.u 20 1
    if ms < 100 || 60000 < ms || g < 10 || 1000 < g then (eArg, s)
    else if s.pwr.ringRole = 3 || (mask != 0 && !s.ring.acting) then (.err 0x0F01, s)
    else (.ok, s.onRing fun r => { r with
      checkMs := ms, guardUs := g, g, rdvK := none, wakeMask := mask, wakeLeft := if mask = 0 then 0 else 3 })

/-- RENDEZVOUS_SET. -/
def execRendezvousSet (d : Doorbell) (p : List Byte) (s : State) : Out := command specRendezvousSet d p s

end Sys2Proof.Machine
end

