-- ==== Sys2Proof/Machine/Beat.lean ====
section
/-!
DEFINITION. The beat: what happens at n:0, at n:(BP/2) and at n:(4 × BP / 5) (R17 to R22).
-/
namespace Sys2Proof.Machine

/-! The plan that has been executed (R342, R355, R369). -/

/-- A PPDU's response windows have all passed: users not heard of have not answered (R354). -/
def closeWindows (b beat i : Nat) (s : State) : State :=
  match getPpdu s b beat i with
  | none => s
  | some x =>
    if x.outcome.isSome || x.start.isNone || (getAB s b).onAir = some (beat, i) then s
    else settle b beat i ((x.users.filter (·.resp.isNone)).foldl (fun s u => userResp b beat i u.sta [] true s) s)

/-- A plan's beat has ended: what it has not sent is reported, and it is dropped. -/
def closePlan (b beat : Nat) (s : State) : State :=
  match getPlan s b beat with
  | none => s
  | some p =>
    let never := if p.kind = 1 then (if (getBand s b).loReady then 0x0610 else 0x0410) else 0x0611
    let s := (List.range p.ppdus.length).foldl (fun s i => notSent b beat i never (closeWindows b beat i s)) s
    if (getAB s b).onAir.map (·.1) = some beat then onPlan b beat (fun p => { p with st := 4 }) s
    else onAB b (fun a => { a with plans := Tab.erase a.plans beat }) s

/-! Staging and execution (R20 to R22). -/

/-- The frames of a user that were not staged in time go back to the head of their queue (R21). -/
def unstaged (b beat i j : Nat) (s : State) : State :=
  match (getPpdu s b beat i).bind fun x => x.users[j]? with
  | none => s
  | some u =>
    if ((getSta s u.sta).map fun x => x.p.cipher).getD 0 = 0 then s
    else
      let late := u.frames.filter (·.pn.isNone)
      let s := (u.bf.zipIdx).foldl (fun s t => protectStaged b beat i j (u.frames.length + t.2) s) s
      if late.isEmpty then s
      else
        let s := onPpdu b beat i (fun x => { x with users := updAt x.users j fun u => { u with frames := u.frames.filter (·.pn.isSome) } }) s
        countAir b 1 (returnFrames u.sta late s) late.length

/-- A plan's beat begins: the precoder banks swap, and it is executed (R20 to R22). Bounded-flow frames are always staged in time. -/
def runPlan (b beat : Nat) (s : State) : State :=
  let s := onPhy b (fun p => { p with bank := 1 - p.bank }) s
  match getPlan s b beat with
  | none => s
  | some p =>
    let s := onPlan b beat (fun p => { p with st := 2 }) s
    let s := p.ppdus.zipIdx.foldl (fun s x => (List.range x.1.users.length).foldl (fun s j => unstaged b beat x.2 j s) s) s
    let s := if s.ring.sumEn then s.onRing fun r => { r with
        placed := (r.placed ++ (p.ppdus.filter fun x => x.kind = 0).flatMap fun x => x.users.map fun u => (u.sta, b)).eraseDups } else s
    onPlan b beat (fun p => { p with st := 3 }) s

/-- The weights of the plan of the next beat are loaded into the inactive bank, and its frames are staged (R20, R313). -/
def stagePlan (b beat : Nat) (s : State) : State :=
  let sets := ((getPlan s b beat).map fun p => (p.ppdus.zipIdx.filter fun x => x.1.kind = 0).map fun x => (beat, x.2)).getD []
  let s := onPhy b (fun p => { p with banks := setAt p.banks (1 - p.bank) (sets.take 8) }) s
  onPlan b beat (fun p => { p with st := 2 }) s

/-! Channel state and flows (R308, R381, R388). -/

/-- The index makes current the blocks captured in the beat before (R308). -/
def commitCsi (s : State) : State :=
  s.onAir fun a => { a with csi := a.csiNew.foldl (fun t e => Tab.set t e.1 e.2) a.csi, csiNew := [] }

/-- Later parameters govern once no earlier period is left (R409). -/
def Bf.promote (n : Nat) (x : Bf) : Bf :=
  match x.next.find? fun v => v.1 + x.p.deadline ≤ n with
  | some v => { x with p := v.2, next := x.next.filter fun w => v.1 < w.1 }
  | none => x

/-- The release instants up to n:0 pass: an uplink period then expects its frames (R381, R383). -/
def releasePeriods (n : Nat) (x : Bf) : Bf :=
  if n + 2 < x.p.first then x
  else
    let last := (n + 2 - x.p.first) / max 1 x.p.period
    let ks := (List.range (last + 1 - x.nextK)).map (x.nextK + ·)
    let x := if x.p.dir = 1 then ks.foldl (fun x k => x.onPeriod k fun p => { p with frames := List.replicate p.fpp (({} : Frame), false) }) x else x
    { x with nextK := max x.nextK (last + 1) }

/-- What a plan-open does to a flow's periods. -/
def bfBeat (n : Nat) (s : State) : State := s.onAir fun a => { a with bfs := a.bfs.map fun e => (e.1, (releasePeriods n e.2).promote n) }

/-- The predicted SNR of a pledge: the mean block SNR of its best streams, 0.5 dB; none without a valid block (R388). -/
def pledgeSnr (s : State) (b n sta ss : Nat) : Option Int :=
  let per := (List.range 4).filterMap fun i =>
    let l := (List.range (toneGroups (getBand s b).ch.width)).filterMap fun g => (validBlock s b n sta i g).map (·.snr)
    if l.isEmpty then none else some (meanOf l, l)
  let best := (sortDesc (·.1) per).take ss
  if best.isEmpty then none else some (meanOf (best.flatMap (·.2)))

/-- A pledge is evaluated at a plan-open (R388, R400). -/
def evalPledge (b n sta : Nat) (s : State) : State :=
  match pledgeOf s sta b with
  | none => s
  | some p => match pledgeSnr s b n sta p.ss with
    | none => s
    | some v =>
      let m := v - (2 * reqSnr p.mcs : Nat)
      let holds : Bool := decide ((p.margin : Int) ≤ m)
      let q := { p with last := some m, failRun := if holds then 0 else p.failRun + 1, holdRun := if holds then p.holdRun + 1 else 0 }
      let s := s.onAir fun a => { a with pledges := Tab.set a.pledges (2 * sta + b) q }
      let fs := flowsOf s fun x => x.p.sta = sta && x.p.link = b
      let need := (getAB s b).review
      if !holds && need ≤ q.failRun then fs.foldl (fun s f => enterReview f 1 s) s
      else if holds && need ≤ q.holdRun then fs.foldl (fun s f => clearCause f 1 s) s
      else s

/-- Every pledge of a band is evaluated. -/
def evalPledges (b n : Nat) (s : State) : State :=
  ((s.air.pledges.filter fun e => e.1 % 2 = b).map (·.1 / 2)).foldl (fun s sta => evalPledge b n sta s) s

/-! The beat (R17). -/

/-- The CAD_DATA frame of a beat (R205). -/
def cadFrame (s : State) (n : Nat) : W64 :=
  let hi := n % 2 ^ 48 * 256 + s.cad.bpCode * 32 + (if s.cad.state = 2 || s.cad.state = 3 then 16 else 0) + (if s.cad.state = 5 then 8 else 0)
  BitVec.ofNat 64 (hi * 256 + crc8 (be 7 hi))

/-- Lists scheduled for later beats that newer ones have replaced are dropped (R336, R352). -/
def pruneLists (n : Nat) (x : AirBand) : AirBand :=
  { x with
    turns := (x.turns.takeWhile fun t => n < t.from_) ++ (x.turns.dropWhile fun t => n < t.from_).take 1
    gates := (x.gates.takeWhile fun t => n < t.from_) ++ (x.gates.dropWhile fun t => n < t.from_).take 1 }

/-- The planner opens plans: not while REALIGNING, nor once the exit from SERVE has committed (R157, R201). -/
def plansOpen (s : State) : Bool := s.cad.state != 6 && (serveExit s).isNone

/-- The plan-open of a band for the beat two beats on (R17, R343, R592). -/
def planOpen (b n : Nat) (s : State) : State :=
  if inService s b && plansOpen s then colEvent 0 b (putCandidates b (n + 2) (openPlan b (n + 2) s)) else s

/-- The work of a beat's start on the air of one band: the plan before it closes, its own runs, the next is staged. -/
def airBeat (b n : Nat) (s : State) : State :=
  let s := (((getAB s b).plans.filter fun e => e.1 < n).map (·.1)).foldl (fun s k => closePlan b k s) s
  onAB b (pruneLists (n - 1)) (stagePlan b (n + 1) (runPlan b n s))

/-- The work of n:0. -/
def beatStart (n : Nat) (s : State) : State :=
  let s := s.onAir fun a => { a with beat := n }
  let s := if s.cad.state = 2 then s.onCad fun c => { c with used := satAdd 32 c.used 1 } else s
  let s := if s.outs.cadOut then s.emit (.cadOut (cadFrame s n)) else s
  let s := ringBeat n s
  let s := if s.modes.mode = 5 || s.modes.mode = 4 || s.modes.mode = 6 then mainSwitch 1 n (mainSwitch 0 n (calBeat n s)) else s
  let s := commitCsi s
  let s := if s.modes.mode = 5 then
      let s := airBeat 1 n (airBeat 0 n s)
      let s := bfBeat n s
      let s := [0, 1].foldl (fun s b => if inService s b && plansOpen s then evalPledges b n s else s) s
      let s := if plansOpen s then assignLinks (n + 2) s else s
      planOpen 1 n (planOpen 0 n s)
    else s
  let s := latchGauge n s
  let periods := (s.col.tasks.flatMap fun t => (t.2.binds.filter fun x => x.1 = 4).map (·.2.2)).eraseDups
  periods.foldl (fun s k => if 0 < k && n % k = 0 then colEvent 4 k s else s) s

/-- BEAT_START (R17): temperatures are read at the start of a beat (R268). -/
def execBeatStart (n : Nat) (s : State) : Out :=
  .next (onlyIf (marksOn s && s.modes.mode != 7 && (decide (nowNs s ≤ beatNs s n) || curBeat s = n) && (n = 0 || s.air.beat != n)) (fun s =>
    beatStart n (advanceTo (beatNs s n) s)) s)

/-- KERNEL_DEADLINE (R18, R316, R347, R599): n:(BP/2). -/
def execKernelDeadline (n : Nat) (s : State) : Out :=
  let t := beatNs s n + bpNs s / 2
  .next (onlyIf (marksOn s && s.modes.mode = 5 && (decide (nowNs s ≤ t) || curBeat s = n) && s.air.beat = n) (fun s =>
    let s := endPlanOpens n (advanceTo t s)
    completePlan 1 (n + 2) (completePlan 0 (n + 2) s)) s)

/-- PLAN_SEAL (R19): n:(4 × BP / 5). -/
def execPlanSeal (n : Nat) (s : State) : Out :=
  let t := beatNs s n + 4 * bpNs s / 5
  let seal_ (p : Plan) : Plan := if p.st = 0 then { p with st := 1 } else p
  .next (onlyIf (marksOn s && s.modes.mode = 5 && (decide (nowNs s ≤ t) || curBeat s = n) && s.air.beat = n) (fun s =>
    onPlan 1 (n + 2) seal_ (onPlan 0 (n + 2) seal_ (advanceTo t s))) s)

end Sys2Proof.Machine
end

