-- ==== Sys2Proof/Machine/Table.lean ====
section
/-!
DEFINITION. The opcodes of command set 3.2 (R145), the restart command (R703), and PROFILE_STORE, which checks records against them
(R149).
-/
namespace Sys2Proof.Machine

/-! SYS_RESTART (R703). -/

/-- Some reading lies at or above TJ_SHUTDOWN - 10 (R697, R703). -/
def tooHot (s : State) : Bool := (tjs s).any fun q => 4 * ((tjShutdown : Int) - 10) ≤ q

/-- SYS_RESTART (R703): it posts no response. -/
def specSysRestart : OpSpec where
  op := 0x0102
  modes _ s := s.modes.mode != 1 && s.pwr.safeN && !tooHot s
  rsv c := c.zero [(16, 4)]
  body c s := if c.u 20 4 = 0x52535452 then (.wait, restart s) else (eArg, s)

/-! The opcode index (R145). -/

/-- The opcodes of family 0x01 (R145), but for PROFILE_STORE. -/
def family01 : List OpSpec := [specIdentify, specProfileLoad, specProfileSelect, specProfileRead, specProfileStage, specHrConfig,
  specHrStatus, specEventRoute, specGpioSet, specGpioGet, specSysRestart]

/-- The opcodes of family 0x02 (R145). -/
def family02 : List OpSpec := [specModeSet, specModeGet, specPwrStats, specDomainStatus, specWakeConfig, specVigilConfig]

/-- The opcodes of family 0x03 (R145). -/
def family03 : List OpSpec := [specCadSourceSet, specCadStatus, specTimeGet, specTimeStep, specTimeAdjust, specPtpConfig,
  specCadMasterSet, specHoldoverConfig, specTsRead]

/-- The opcodes of family 0x04 (R145). -/
def family04 : List OpSpec := [specBandConfig, specChainEnable, specTxpwrSet, specFemConfig, specRffeAccess, specCoexConfig,
  specBlankMap, specChainStatus, specFactoryTest, specSpectrumSurvey, specSoundingConfig, specPrecodeConfig, specCsiRead]

/-- The opcodes of family 0x05 (R145). -/
def family05 : List OpSpec := [specCalRun, specCalStatus, specCalSchedule, specCalTableRead, specCalTableStore, specSliceStatus]

/-- The opcodes of family 0x06 (R145). -/
def family06 : List OpSpec := [specStaAdd, specStaModify, specStaRemove, specStaGet, specAcParamSet, specTurnPlanSet, specAirGateSet,
  specBeaconTemplate, specLinkSteer, specPolicyBind]

/-- The opcodes of family 0x07 (R145). -/
def family07 : List OpSpec := [specBfAdmit, specBfModify, specBfRelease, specBfStatus, specBfPledgeSet, specBfStats]

/-- The opcodes of family 0x08 (R145). -/
def family08 : List OpSpec := [specNbConfig, specNbChannelPlan, specDwellConfig, specTunerRun, specNbStats, specNodeAdd, specNodeRemove,
  specNodeGet, specNbSend, specFloodConfig, specHeldStatus]

/-- The opcodes of family 0x09 (R145). -/
def family09 : List OpSpec := [specParseConfig, specRuleWrite, specRuleClear, specRangeSet, specPatternWrite, specPolicerSet,
  specClassStats]

/-- The opcodes of family 0x0A (R145). -/
def family0A : List OpSpec := [specL2Add, specL2Remove, specL2Flush, specRouteAdd, specRouteRemove, specRouteBulk, specNexthopSet,
  specEcmpSet, specAgingSet, specFwdStats]

/-- The opcodes of family 0x0B (R145). -/
def family0B : List OpSpec := [specQueueConfig, specShaperSet, specGateListSet, specBufferConfig, specChainPairSet, specTmStats]

/-- The opcodes of family 0x0C (R145). -/
def family0C : List OpSpec := [specKeyUnwrap, specKeyErase, specKekProvision, specCmLevelSet, specKeySlotInfo]

/-- The opcodes of family 0x0D (R145). -/
def family0D : List OpSpec := [specKernelLoad, specKernelStart, specKernelStop, specTaskConfig, specColObserveSet, specMassifStats]

/-- The opcodes of family 0x0E (R145). -/
def family0E : List OpSpec := [specDramConfig, specDramTrain, specDramMapSet, specDramStatus, specFreezeRead]

/-- The opcodes of family 0x0F (R145). -/
def family0F : List OpSpec := [specRingConfig, specRingStatus, specRingTableSync, specRendezvousSet]

/-- The opcodes of family 0x1F (R145). -/
def family1F : List OpSpec := [specLogRead, specFaultRead, specCounterRead, specStatusRead, specWatchdogSet, specLogClear]

/-- The opcodes of command set 3.2 but for PROFILE_STORE (R145). -/
def baseSpecs : List OpSpec := family01 ++ family02 ++ family03 ++ family04 ++ family05 ++ family06 ++ family07 ++ family08 ++ family09 ++ family0A ++ family0B ++ family0C ++ family0D ++ family0E ++ family0F ++ family1F

/-- What the spec says of an opcode of a list, if it is defined. -/
def findSpec (l : List OpSpec) (op : Nat) : Option OpSpec := l.find? fun o => o.op == op

/-! PROFILE_STORE (R149). -/

/-- Opcodes that a record must not carry (R99). -/
def barred : List Nat := [0x0102, 0x0103, 0x0104, 0x0105, 0x0106, 0x0107, 0x0201, 0x0409, 0x040A]

/-- The first failing header field of an image (R149): its offset. -/
def imageHeadBad (img : List Byte) : Option Nat :=
  if fld img 0 4 != 0x31504654 then some 0
  else if fld img 4 2 != 1 then some 4
  else if fld img 6 1 != 3 then some 6
  else if 2 < fld img 7 1 then some 7
  else if fld img 8 4 % 4 != 0 || fld img 8 4 < 64 || 65536 < fld img 8 4 then some 8
  else if !([0, 3, 4, 5].contains (fld img 16 1)) then some 16
  else none

/-- The offsets of the records of an image, where they fill exactly LENGTH - 64 bytes (R98, R149). -/
def recordOffs (img : List Byte) (len : Nat) : Nat → Nat → Option (List Nat)
  | 0, pos => if pos = len then some [] else none
  | n + 1, pos =>
    if len < pos + 16 then none
    else (recordOffs img len n (pos + (16 + fld img (pos + 6) 2 + 3) / 4 * 4)).map fun l => pos :: l

/-- The first reserved byte of the parameters of an opcode that is not 0: its offset in the parameters. -/
def rsvBad (o : OpSpec) (par : List Byte) : Option Nat :=
  (List.range par.length).find? fun i => !o.rsv { par := par.take (i + 1) }

/-- The first failing field of a record (R8, R99, R145, R149): its offset in the record. -/
def recordBad (r : List Byte) : Option Nat :=
  match findSpec baseSpecs (fld r 0 2) with
  | none => some 0
  | some o =>
    if barred.contains o.op then some 0
    else if byteAt r 2 &&& 0xFE != 0 then some 2
    else if byteAt r 3 != 0 then some 3
    else if 496 < fld r 6 2 then some 6
    else match (List.range 8).find? fun i => byteAt r (8 + i) != 0 with
      | some i => some (8 + i)
      | none => (rsvBad o (slice r 16 (fld r 6 2))).map (· + 16)

/-- The image offset of the first field of a staged image that fails a check of PROFILE_STORE. -/
def stagedBad (img : List Byte) : Option Nat :=
  match imageHeadBad img with
  | some a => some a
  | none =>
    if 4096 < fld img 18 2 then some 18
    else match recordOffs img (fld img 8 4) (fld img 18 2) 64 with
      | none => some 8
      | some l => l.findSome? fun a => (recordBad ((img.drop a).take (16 + 496))).map (· + a)

/-- The image that a store writes: GENERATION, CRC32 and COMMIT are the device's (R149). -/
def storedImage (n : Nat) (img : List Byte) (s : State) : List Byte :=
  let gen := if profFld s n 0 4 = 0x31504654 then (profFld s n 12 4 + 1) % 2 ^ 32 else 1
  let x := patch (img.take (fld img 8 4)) 12 (le 4 gen)
  patch x 56 (le 4 (imageCrc x) ++ le 4 0xA5C33C5A)

/-- PROFILE_STORE (R149): COMMIT is written as 0 first (R100). -/
def specProfileStore : OpSpec where
  op := 0x0104
  rsv c := c.zero [(17, 3)]
  objs c := [.profile (c.u 16 1)]
  body c s :=
    let n := c.u 16 1
    let img := memRead s.boot.stageBuf 0 65536
    if 3 < n then (eArg, s)
    else if s.boot.stageOwner != some c.mb then (eState, s)
    else match stagedBad img with
      | some a => (.err 0x0101 (le 4 a), s)
      | none =>
        (.pending, (mramWrite (profBase n + 60) [0, 0, 0, 0] s).onBoot fun b => { b with storeJobs := Tab.set b.storeJobs n (storedImage n img s) })

/-- PROFILE_STORE. -/
def execProfileStore (d : Doorbell) (p : List Byte) (s : State) : Out := command specProfileStore d p s

/-- What the spec says of an opcode; none where it is undefined (R4, R145). -/
def specOf (op : Nat) : Option OpSpec := findSpec (specProfileStore :: baseSpecs) op

end Sys2Proof.Machine
end

