-- ==== Sys2Proof/Machine/BootSeq.lean ====
section
/-!
DEFINITION. From HOLD to BOOT, the replay of a profile's stream and the autostart (R85 to R100, R743).
-/
namespace Sys2Proof.Machine

/-! Replay (R89, R90, R99). -/

/-- The record that is replayed next: its 16 bytes of header and its parameters. -/
def nextRecord (s : State) : List Byte :=
  let a := profBase s.boot.replayProf + s.boot.recOff
  memRead s.boot.mram a (16 + min 496 (memFld s.boot.mram (a + 6) 2))

/-- A record stops the replay: REPLAY_FAILED, and the device rests in BOOT-ready (R89, R94). -/
def replayStops (status : Nat) (s : State) : State :=
  let s := raise 0x0182 none (le 2 s.boot.recIdx ++ slice (nextRecord s) 0 2 ++ le 2 status) s
  s.onBoot fun b => { b with phase := .ready, stage := 6, replayFailed := true, waitLong := false, recStatus := some status }

/-- The stream has been replayed. A boot raises BOOT_COMPLETE and goes on to its autostart; a PROFILE_LOAD has none (R87, R150). -/
def replayEnds (s : State) : State :=
  if s.boot.loader.isSome then s.onBoot fun b => { b with phase := .ready, stage := 6, waitLong := false, recStatus := none }
  else
    let n := s.boot.replayProf
    autostart (raise 0x0180 none (le 1 n ++ [0, 0, 0] ++ le 4 (profFld s n 12 4) ++ le 2 s.boot.recIdx ++ [0, 0] ++
      le 4 (min 0xFFFFFFFF ((nowNs s - s.boot.replayNs) / 1000))) s)

/-- The record in hand has completed with OK: the next one follows. -/
def replayNext (s : State) : State :=
  s.onBoot fun b => { b with recIdx := b.recIdx + 1, recOff := b.recOff + (16 + memFld b.mram (profBase b.replayProf + b.recOff + 6) 2 + 3) / 4 * 4,
                             waitLong := false, recStatus := none }

/-- A record is executed as if it had arrived in MB2 (R89). -/
def replayRecord (s : State) : State :=
  let r := nextRecord s
  let s := s.onBoot fun b => { b with stage := if byteAt r 1 = 0x0E then 5 else 4, recStatus := none }
  let c := copyCmd 2 .replay (BitVec.ofNat 16 (fld r 4 2)) r
  if barred.contains c.op then s.onBoot fun b => { b with recStatus := some 3 }
  else serve (specOf c.op) c true (hdrOk r) s

/-- Records are replayed until one is awaited, one fails or none is left. -/
def replayRun : Nat → State → State
  | 0, s => s
  | n + 1, s =>
    if s.boot.phase != .replay then s
    else if s.boot.waitLong then
      match s.boot.recStatus with
      | none => s
      | some 1 => s
      | some 0 => replayRun n (replayNext s)
      | some e => replayStops e s
    else if s.boot.recCount ≤ s.boot.recIdx then replayEnds s
    else
      let t := replayRecord s
      if t.boot.phase != .replay then t
      else match t.boot.recStatus with
        | none => t.onBoot fun b => { b with waitLong := true }
        | some 1 => t.onBoot fun b => { b with waitLong := true }
        | some 0 => replayRun n (replayNext t)
        | some e => replayStops e t

/-- REPLAY_RESUME (R89). -/
def execReplayResume (s : State) : Out := .next (replayRun (2 * s.boot.recCount + 2) s)

/-! HOLD to BOOT (R85, R86). -/

/-- The ROM loads the newest valid slot into the window (R701). -/
def loadWindow (s : State) : State :=
  match s.flt.newest with
  | none => s
  | some k =>
    match ((List.range 16).map fun i => (k + 16 - i) % 16).find? fun n => slotValid (memRead s.boot.mram (slotAddr n) 512) with
    | some n => s.onFlt fun f => { f with window := memRead s.boot.mram (slotAddr n) 512, recValid := true }
    | none => s

/-- KEK0 is FAILED where its lock is blown and its copies do not reproduce the KCV (R583). -/
def checkKek0 (s : State) : State := s.onCipher fun c => { c with kek0Failed := c.locked && !kek0Ok s }

/-- Summit reads CTR_FLOOR and writes it 65,536 higher (R459). -/
def loadFloor (s : State) : State :=
  let f := memFld s.boot.mram 0x6FFF0 8
  (mramWrite 0x6FFF0 (le 8 (f + 65536)) s).onMlad fun m => { m with floor := f, stored := f + 65536, groupCtr := f }

/-- What the watchdog and the limit of automatic restarts have to report at this boot (R695, R704). -/
def bootReports (s : State) : State :=
  let s := if s.flt.wdtHit then raise 0x1F82 none (le 4 s.flt.faultSeq.toNat) s else s
  let s := if s.flt.limitHit then raise 0x1F84 none (le 1 (min 255 (recentAuto s).length)) s else s
  s.onFlt fun f => { f with wdtHit := false, limitHit := false }

/-- The selected profile is verified and its replay begins (R87, R97). -/
def beginReplay (s : State) : State :=
  let n := s.boot.active.toNat
  let (r, s) := verifyProf n s
  if r = 0 then
    let s := startReplay n s
    if s.boot.recCount = 0 then replayEnds s else s
  else
    raise 0x0181 none (le 1 n ++ le 1 r) (s.onBoot fun b => { b with phase := .ready, stage := 6, autostart := 0 })

/-- A restart in VIGIL restored the counter, and the boot reports it (R211). -/
def reportCoast (s : State) : State :=
  match s.clk.coasted with
  | some n => raise 0x0384 none (le 8 n ++ leI 4 s.clk.trim ++ le 4 s.cad.errBound) (s.onClk fun k => { k with coasted := none })
  | none => s

/-- BOOT is reached (R64, R85 step 6, R703). -/
def reachBoot (s : State) : State :=
  let cause := s.boot.cause
  let s := s.onBoot fun b => { b with
    active := if b.restarting then b.sel.getD s.pwr.profSel else s.pwr.profSel, stage := 3, restarting := false, replayFailed := false }
  let s := s.onFlt fun f => { f with cause := 0, mask := 0 }
  let s := enterMode 2 cause ((nowNs s - s.modes.sinceNs) / 1000) s
  let s := if s.pwr.perstN then s.onHost fun h => { h with training := true } else s
  beginReplay (bootReports s)

/-- BOOT_SEQUENCE_DONE (R63, R85 steps 2 to 6, R86). -/
def execBootSequenceDone (selfTestOk : Bool) (s : State) : Out :=
  .next (onlyIf (s.boot.phase == .sequence && s.pwr.refclkRf && s.pwr.pwrOk) (fun s =>
    let s := s.onFlt fun f => { f with summitHeld := false, summitRun := true }
    let s := (s.onPwr fun p => { p with onRc := false }).onEvt fun e => { e with asleep := false }
    let s := reportCoast s
    if !selfTestOk then enterSafe 11 [] s
    else if !s.boot.restarting && !s.pwr.safeN then enterSafe 1 [] s
    else reachBoot (bootSlices (loadFloor (checkKek0 (loadWindow s))))) s)

end Sys2Proof.Machine
end

