-- ==== Sys2Proof/Machine/Access.lean ====
section
/-!
DEFINITION. Register writes through BAR0 and BAR2, service-port writes, doorbells of any opcode, restarts by command, and the
commands that wait: recorded, deferred, stalled, forwarded over the ring.
-/
namespace Sys2Proof.Machine

/-! Doorbells (R114, R115, R703, R740). -/

/-- Cairn posts a response in MB2 (R703, R740). -/
def cairnPost (c : Cmd) (a : Ans) (s : State) : State :=
  let s := post c a s
  if noSupervisor s && !a.later then onPage 2 (fun g => { g with cairnDone := true }) s else s

/-- Cairn executes a SYS_RESTART written to MB2, whatever the state of Summit (R703, R740). -/
def cairnBell (path : Path) (value : W16) (s : State) : State :=
  let s := onPage 2 (fun g => { g with doorbell := value }) s
  let cmd := (getPage s 2).cmd
  let c := copyCmd 2 path value cmd
  if s.modes.mode = 1 then cairnPost c eState s
  else
    let s := onPage 2 (fun g => { g with recorded := none }) s
    if fld cmd 4 2 != value.toNat then cairnPost c eArg (onPage 2 (fun g => { g with mismatch := true }) s)
    else if !hdrOk cmd || !specSysRestart.rsv c then cairnPost c eArg s
    else if !specSysRestart.modes c s then cairnPost c eState s
    else let (a, t) := specSysRestart.body c s; cairnPost c a t

/-- A doorbell is written with whatever command the CMD area holds. -/
def bell (mb : Nat) (path : Path) (value : W16) (s : State) : State :=
  let op := fld (getPage s mb).cmd 0 2
  if mb = 2 && op = 0x0102 then cairnBell path value s else ringBell (specOf op) mb path value s

/-- A command of an opcode is written with its doorbell. -/
def writeCommand (op : Nat) (d : Doorbell) (p : List Byte) (s : State) : State :=
  let mb := d.mb.val
  if mayWrite mb d.path s then bell mb d.path d.value (onPage mb (fun g => { g with cmd := patch g.cmd 0 (cmdArea op d p) }) s)
  else refuseWrite mb d.path (5 + (p.length + 3) / 4) s

/-- SYS_RESTART (R703). -/
def execSysRestart (d : Doorbell) (p : List Byte) (safeN : Bool) (s : State) : Out :=
  .next (writeCommand 0x0102 d p (s.onPwr fun x => { x with safeN }))

/-- UNDEFINED_OPCODE (R4, R114). -/
def execUndefinedOpcode (op : W16) (d : Doorbell) (p : List Byte) (s : State) : Out :=
  .next (onlyIf (specOf op.toNat).isNone (mailbox op.toNat none d p) s)

/-- An opcode written to a mailbox is Cairn's to execute. -/
def cairnTakes (op : W16) (d : Doorbell) : Bool := d.mb == 2 && op == 0x0102

/-- COMMAND_RECORDED (R740). -/
def execCommandRecorded (op : W16) (d : Doorbell) (p : List Byte) (s : State) : Out :=
  .next (onlyIf (noSupervisor s && (getPage s d.mb.val).recorded.isNone && mayWrite d.mb.val d.path s && !cairnTakes op d)
    (writeCommand op.toNat d p) s)

/-- DOORBELL_OVERRUN (R115, R740). -/
def execDoorbellOverrun (op : W16) (d : Doorbell) (p : List Byte) (s : State) : Out :=
  .next (onlyIf (mayWrite d.mb.val d.path s && !cairnTakes op d &&
      (if noSupervisor s then (getPage s d.mb.val).recorded.isSome else (getPage s d.mb.val).busy))
    (writeCommand op.toNat d p) s)

/-- RECORDED_COMMAND_TAKEN (R740). -/
def execRecordedCommandTaken (mb : Fin 4) (s : State) : Out :=
  .next (match (getPage s mb.val).recorded with
    | none => s
    | some r => onlyIf (!noSupervisor s && !(getPage s mb.val).busy) (fun s =>
        serve (specOf r.cmd.op) r.cmd r.seqOk r.hdrOk
          (onPage mb.val (fun g => { g with recorded := none, busy := true, done := false, cairnDone := false }) s)) s)

/-! Register writes (R107 to R111, R132, R605). -/

/-- A write to a mailbox page through BAR0. -/
def pageWrite (mb r : Nat) (v : W32) (s : State) : State :=
  if r < 0x200 then
    if mayWrite mb .bar s then onPage mb (fun g => { g with cmd := patch g.cmd r (le 4 v.toNat) }) s else refuseWrite mb .bar 1 s
  else if r = 0x400 then
    if mayWrite mb .bar s then bell mb .bar (v.setWidth 16) s else refuseWrite mb .bar 1 s
  else if r = 0x404 && mb != 3 then
    onPage mb (fun g => { g with overrun := g.overrun && !v.getLsbD 8, mismatch := g.mismatch && !v.getLsbD 9 }) s
  else if r = 0x40C then onPage mb (fun g => { g with vec := v.setWidth 7, irqEn := v.getLsbD 7, hostWriteEn := mb = 2 && v.getLsbD 8 }) s
  else s

/-- A write to the MSI-X table: a vector that is unmasked while it pends is raised. -/
def msixWrite (i : Nat) (v : W32) (s : State) : State :=
  let w := if i % 4 = 3 then v &&& 1 else if i % 4 = 0 then v &&& 0xFFFFFFFC else v
  let s := s.onHost fun h => { h with msixTable := if w = 0 then Tab.erase h.msixTable i else Tab.set h.msixTable i w }
  if i % 4 = 3 && !w.getLsbD 0 && s.host.msixPend.getLsbD (i / 4) then
    (s.onHost fun h => { h with msixPend := h.msixPend &&& ~~~(1 <<< (i / 4) : BitVec 128) }).emit (.msix (i / 4))
  else s

/-- A write to BAR0. -/
def bar0Write (off : Nat) (v : W32) (s : State) : State :=
  if off < 0x4000 then pageWrite (off / 0x1000) (off % 0x1000) v s
  else if off = 0xA000 then
    s.onCol fun c => let c := { c with freeze := v.getLsbD 0 }; if v.getLsbD 1 then { c with trace := [], wr := 0, full := false } else c
  else if off = 0xA008 then s.onCol fun c => { c with page := v.toNat % 256 }
  else if 0xC000 ≤ off && off < 0xC800 then msixWrite ((off - 0xC000) / 4) v s
  else s

/-- A write to BAR2: the index registers of a ring but for HOST_IDX, and the push windows. -/
def bar2Write (off : Nat) (v : W32) (s : State) : State :=
  if off < 0x40000 then
    if off % 0x1000 = 8 then
      onRingN (off / 0x1000) (fun g => { g with overflow := g.overflow && !v.getLsbD 2, error := g.error && !v.getLsbD 1 }) s
    else s
  else if off < 0xC0000 then s.onHost fun h => { h with push := memWrite h.push (off - 0x40000) (le 4 v.toNat) }
  else s

/-- REGISTER_WRITE (R107 to R111, R132, R605), of BAR2 where `bar` holds, else of BAR0: writes to read-only and reserved locations are discarded (R108). -/
def execRegisterWrite (bar : Bool) (off : Nat) (v : W32) (s : State) : Out :=
  if !s.host.link then .next s
  else if off % 4 != 0 || (if bar then 0x100000 else 0x10000) ≤ off then execBarBadAccess true s
  else if bar && off < 0x40000 && off % 0x1000 = 0 then execHostIdxWrite (BitVec.ofNat 6 (off / 0x1000)) v s
  else .next ((if bar then bar2Write off v s else bar0Write off v s).onHost fun h => { h with reply := .none })

/-! Service-port writes (R125, R126). -/

/-- A service address that a WRITE may reach: CMD, DOORBELL, MB_STATUS and MB_CTRL of MB2. -/
def svcWritable (a : Nat) : Bool := (0x2000 ≤ a && a < 0x2200) || (0x2400 ≤ a && a < 0x2408) || (0x240C ≤ a && a < 0x2410)

/-- A byte written through the service port into MB2, but for the doorbell's effect. -/
def svcPut (a : Nat) (v : Byte) (s : State) : State :=
  onPage 2 (fun g =>
    if a < 0x2200 then { g with cmd := setAt g.cmd (a - 0x2000) v }
    else match a with
      | 0x2400 => { g with doorbell := (g.doorbell &&& 0xFF00) ||| v.setWidth 16 }
      | 0x2401 => { g with doorbell := (g.doorbell &&& 0x00FF) ||| (v.setWidth 16 <<< 8) }
      | 0x2405 => { g with overrun := g.overrun && !v.getLsbD 0, mismatch := g.mismatch && !v.getLsbD 1 }
      | 0x240C => { g with vec := v.setWidth 7, irqEn := v.getLsbD 7 }
      | 0x240D => { g with hostWriteEn := v.getLsbD 0 }
      | _ => g) s

/-- The bytes of a WRITE land in rising address order. -/
def svcPutAll : Nat → List Byte → State → State
  | _, [], s => s
  | a, v :: t, s => svcPutAll (a + 1) t (svcPut a v s)

/-- SVC_WRITE (R110, R112, R125, R126): the doorbell rings once every byte has landed. -/
def execSvcWrite (addr : BitVec 24) (data : List Byte) (crcOk : Bool) (s : State) : Out :=
  let a := addr.toNat
  .next (onlyIf (s.modes.mode != 0 && !s.outs.z) (fun s =>
    let s := s.onHost fun h => { h with reply := .none, svcFlags := svcFlagsNow s }
    let reject (i : Nat) := (countCairn i s).onMbx fun m => { m with svcRejected := true }
    if !crcOk then reject 27
    else if !(List.range data.length).all fun i => svcWritable (a + i) then reject 28
    else
      let s := svcPutAll a data (s.onMbx fun m => { m with svcRejected := false })
      if a < 0x2404 && 0x2400 < a + data.length then bell 2 .svc (getPage s 2).doorbell s else s) s)

/-! Commands that waited (R121, R176, R673). -/

/-- Why a long command that waited cannot start now, if it cannot (R117, R121, R181). -/
def startFails (o : OpSpec) (c : Cmd) (s : State) : Option Ans :=
  if !o.diag && shutOut c s then some eBusy
  else if !o.modes c s then some eState
  else ((o.needs c).find? fun d => (getDom s d).st = 5).map fun d => .err 0x0202 [BitVec.ofNat 8 d]

/-- A long command that waited starts, or ends at once (R121). -/
def startLong (l : LongCmd) (o : OpSpec) (s : State) : State :=
  match startFails o l.cmd s with
  | some a => endLong l a s
  | none =>
    match (o.needs l.cmd).find? fun d => (getDom s d).st = 0 || (getDom s d).st = 2 with
    | some d => onDom d (fun x => if x.retrying then x else { x with st := 2 }) s
    | none =>
      let (a, t) := o.body l.cmd (s.onMbx fun m => { m with longs := m.longs.erase l })
      if a.status = 1 then t.onMbx fun m => { m with longs := m.longs ++ [{ l with started := true, startNs := nowNs s }] }
      else endLong l a (if a.status = 0 then t else s)

/-- LONG_COMMAND_DEFERRED_START (R121): the first in doorbell order whose objects are free. -/
def execLongCommandDeferredStart (s : State) : Out :=
  .next (match s.mbx.longs.find? fun l => !l.started && !anyHeld s l.objs with
    | some l => match specOf l.cmd.op with
      | some o => startLong l o s
      | none => s
    | none => s)

/-- The commands that stalled on a domain go on, in arrival order (R176). -/
def resumeStalled (d : Nat) (s : State) : State :=
  let l := s.mbx.stalled.filter (·.dom == d)
  let s := s.onMbx fun m => { m with stalled := m.stalled.filter (·.dom != d) }
  l.foldl (fun s x => match specOf x.cmd.op with
    | some o => let (a, t) := engage o x.cmd s; post x.cmd a t
    | none => s) s

/-- DOMAIN_WAKE_DONE (R163, R174, R176, R570, R572). -/
def execDomainWakeDone (dom : Fin 8) (us : Nat) (selfTest : Option (Nat × Nat)) (s : State) : Out :=
  let d := dom.val
  .next (onlyIf ((getDom s d).st = 2) (fun s =>
    let st := if domNeeded d s then 1 else 3
    let s := onDom d (fun x => { x with st, retrying := false, wakes := satAdd 32 x.wakes 1, lastUs := min 0xFFFFFFFF us }) s
    let s := if d = 3 then cipherSelfTest selfTest (reloadSlots s) else s
    resumeStalled d s) s)

/-- MB3_COMMAND_INJECT (R110, R673): the oldest COMMAND held is written into MB3, and its response goes back to its origin. -/
def execMb3CommandInject (s : State) : Out :=
  .next (match s.ring.held with
    | [] => s
    | f :: rest => onlyIf (!(getPage s 3).busy && !noSupervisor s) (fun s =>
        let b := rfBody f
        let seq : W16 := BitVec.ofNat 16 (fld b 4 2)
        let s := s.onRing fun r => { r with held := rest, back := r.back ++ [(rfOrigin f, seq)] }
        bell 3 .ring seq (onPage 3 (fun g => { g with cmd := patch g.cmd 0 (pad 512 b) }) s)) s)

end Sys2Proof.Machine
end

