-- ==== Sys2Proof/Machine/Mishaps.lean ====
section
/-!
DEFINITION. Packets from the host (R138, R140), SRAM errors (R694), temperatures (R697, R737) and a lost SerDes clock (R84).
-/
namespace Sys2Proof.Machine

/-! Packets from the host (R138 to R140). -/

/-- A field of a PKT_TX descriptor. -/
def txFld (d : TxDesc) (off k : Nat) : Nat := fld d.bytes off k
/-- EOP. -/
def txEop (d : TxDesc) : Bool := bit (txFld d 10 2) 0
/-- COOKIE. -/
def txCookie (d : TxDesc) : W64 := BitVec.ofNat 64 (txFld d 16 8)

/-- DEST_QUEUE and DEST_ID are in range for DEST_TYPE (R138, R364, R541). -/
def txDestOk (d : TxDesc) : Bool :=
  let q := txFld d 13 1
  let id := txFld d 14 2
  match txFld d 12 1 with
  | 0 => true
  | 1 => q ≤ 7 && id ≤ 4
  | 2 => q ≤ 3 && (id ≤ 2047 || (id = 0xFFFF && q = 3))
  | 3 => id ≤ 1023
  | 4 => id ≤ 8191 || id = 0xFFFF
  | 5 => q ≤ 7 && (id ≤ 7 || id = 0x0F)
  | _ => false

/-- Every field of a descriptor is in range (R138, R209). -/
def txOk (d : TxDesc) : Bool :=
  1 ≤ txFld d 8 2 && txFld d 8 2 ≤ 9216 && txFld d 10 2 < 4 && txFld d 24 8 = 0 && txDestOk d && (!bit (txFld d 10 2) 1 || txFld d 12 1 = 1)

/-- The descriptors of a packet: those up to the one with EOP. -/
def packetDescs : List TxDesc → Option (List TxDesc)
  | [] => none
  | d :: t => if txEop d then some [d] else (packetDescs t).map (d :: ·)

/-- A management frame of the host joins the queue of the band and BSS whose BSSID is its Address 2 (R364, R365). -/
def mgmtFromHost (bytes : List Byte) (s : State) : State :=
  let a2 := fld bytes 10 6
  let at_ (b : Nat) : Option (Nat × Nat) := ((getAB s b).bss.find? fun e => e.2.bssid == a2).map fun e => (b, e.1)
  match at_ 0 <|> at_ 1 with
  | none =>
    let (b, s) := s.draw 2
    countAir b 10 s
  | some (b, i) =>
    if 256 ≤ (getAB s b).mgmt.length then countAir b 10 s
    else match storeIn s 0 false (groupCells (getAB s b)) (cellsOf bytes.length) with
      | .chip => noteLow (onAB b (fun a => { a with mgmt := a.mgmt ++ [(i, bytes)] }) s)
      | _ => s

/-- A narrowband record of KIND 1 from the host (R470, R471); false where a field is out of range. -/
def nbFromHost (id : Nat) (r : List Byte) (cookie : W64) (s : State) : Bool × State :=
  if r.length < 8 || byteAt r 0 != 1 || byteAt r 1 != 1 || byteAt r 7 != 0 || fld r 2 2 != id then (false, s)
  else
    let (st, _, t) := nbSend id (byteAt r 5).toNat (byteAt r 6).toNat (byteAt r 4).toNat 10000 (r.drop 8) cookie s
    if st = 2 then (false, s) else (true, t)

/-- A packet of the host goes to its destination; false where a field is out of range (R138). -/
def hostDeliver (ring : Nat) (d : TxDesc) (bytes : List Byte) (s : State) : Bool × State :=
  let id := txFld d 14 2
  let q := txFld d 13 1
  match txFld d 12 1 with
  | 0 => (true, toPath { src := 7, srcId := ring, bytes, ts := nowNs s } s)
  | 1 => (true, enqPort id q bytes s (if bit (txFld d 10 2) 1 then some (txCookie d) else none))
  | 2 =>
    if id = 0xFFFF then (true, mgmtFromHost bytes s)
    else
      -- DEST_QUEUE names the access class; which of its two TIDs the frame takes is not stated (R333)
      let (k, s) := s.draw 2
      (true, toSta id (([[1, 2], [0, 3], [4, 5], [6, 7]].getD q [0, 3]).getD k 0) bytes true s)
  | 3 => (true, bfEnter id bytes s)
  | 4 => nbFromHost id bytes (txCookie d) s
  | _ => (true, toRing id q bytes s)

/-- The descriptors that a PKT_TX ring fetches: from host memory, or from its push window (R138). -/
def fetchedDescs (n : Nat) (descs : List TxDesc) (s : State) : List TxDesc :=
  let g := getRing s n
  if g.push then
    (List.range descs.length).map fun i => { bytes := memRead s.host.push (0x4000 * n + 32 * ((g.devIdx.toNat + i) % 512)) 32 }
  else descs

/-- HOST_TX_PACKET (R138 to R142). -/
def execHostTxPacket (ring : BitVec 6) (descs : List TxDesc) (payload : List Byte) (dmaOk : Bool) (s : State) : Out :=
  let n := ring.toNat
  let g := getRing s n
  .next (onlyIf (s.host.link && g.live && g.type = 1 && domOn s 3) (fun s =>
    match packetDescs (fetchedDescs n descs s) with
    | none => s
    | some l =>
      if (g.hostIdx - g.devIdx).toNat < l.length then s
      else if !dmaOk then
        let (k, s) := s.draw l.length
        ringError n 3 ((l.map txCookie).getD k 0) s
      else match l.find? fun d => !txOk d with
        | some d => ringError n 2 (txCookie d) s
        | none =>
          let len := sumOf (l.map fun d => txFld d 8 2)
          let d := l.headD { bytes := [] }
          if 9216 < len then ringError n 2 (txCookie d) s
          else
            let (good, t) := hostDeliver n d (pad len payload) s
            if !good then ringError n 2 (txCookie d) s
            else
              ringPublish n l.length (onRingN n (fun g => { g with devIdx := g.devIdx + BitVec.ofNat 16 l.length,
                                                                    completions := g.completions + BitVec.ofNat 32 l.length }) t)) s)

/-! Uncorrectable SRAM reads (R694). -/

/-- A packet at the head of an egress queue is discarded. -/
def loseQueued (port q : Nat) (s : State) : State := onQueue port q (fun x => { x with q := x.q.drop 1 }) s

/-- A frame of a period is lost: it is no longer sent, and its period ends with NO_DELIVERY (R397, R694). -/
def loseBf (n k i : Nat) (s : State) : State :=
  match (getBf s n).bind fun x => x.period k with
  | none => s
  | some p =>
    if p.frames.length ≤ i || (p.frames.getD i ({}, true)).2 then s
    else
      let cut (x : Ppdu) : Ppdu :=
        if x.start.isSome then x else { x with users := x.users.map fun u => { u with bf := u.bf.filter fun t => t != (n, k, i) } }
      let plans (a : AirBand) : AirBand := { a with plans := a.plans.map fun e => (e.1, { e.2 with ppdus := e.2.ppdus.map cut }) }
      (onBf n (Bf.onPeriod k fun p => { p with lost := i :: p.lost, reason := 1 }) s).onAir fun a => { a with m := plans a.m, h := plans a.h }

/-- What an uncorrectable read of packet memory loses. -/
def losePacket (v : SramVictim) (s : State) : State :=
  match v with
  | .queue port q => loseQueued port.val q.val s
  | .bf n k i => loseBf n k i s
  | .matcher => s.onCls fun c => { c with buffer := c.buffer.drop 1 }
  | _ => s

/-- SRAM_UNCORRECTABLE (R694). -/
def execSramUncorrectable (cls : Nat) (addr : W32) (victim : SramVictim) (s : State) : Out :=
  .next (onlyIf (2 ≤ s.modes.mode && cls < 6) (fun s =>
    let s := countCairn 21 s
    match cls with
    | 3 => match victim with
      | .core c => kernelFault c.val addr s
      | _ => s
    | 4 => losePacket victim (countCairn 22 s)
    | 5 => match victim with
      | .src i => s.onFwd fun f => { f with src := f.src.eraseIdx i }
      | .filter => s.onFwd fun f => { f with rebuild := true }
      | _ => s
    | _ => enterSafe 5 ([BitVec.ofNat 8 cls, 0, 0, 0] ++ le 4 addr.toNat) s) s)

/-! Temperatures (R697, R737). -/

/-- THERMAL_WARN_C (R715): by default TJ_SHUTDOWN - 10. -/
def warnLevel (s : State) : Int := ((s.flt.warnC.getD (tjShutdown - 10) : Nat) : Int)

/-- A reading of Cairn has been taken: THERMAL_WARN when one first reaches the level (R697). -/
def thermalWatch (s : State) : State :=
  let l := tjs s
  let w := 4 * warnLevel s
  if s.flt.warnArmed then
    match l.zipIdx.find? fun x => w ≤ x.1 with
    | some x => raise 0x1F81 none ([BitVec.ofNat 8 x.2, 0] ++ leI 2 x.1) (s.onFlt fun f => { f with warnArmed := false })
    | none => s
  else if l.all fun q => q ≤ w - 20 then s.onFlt fun f => { f with warnArmed := true }
  else s

/-- SENSOR_CONVERSION (R737). -/
def execSensorConversion (sensor : Nat) (q : Int) (s : State) : Out :=
  .next (onlyIf (s.pwr.vddAon && sensor < 36) (fun s => thermalWatch (s.onFlt fun f => { f with sensors := setAt f.sensors sensor q })) s)

/-! The SerDes clock (R84). -/

/-- SERDES_REFCLK_FAIL (R84): every wired and ring port goes down; in HOLD the pass-through stops. -/
def execSerdesRefclkFail (s : State) : Out :=
  .next (onlyIf s.pwr.refclkSerdes (fun s =>
    let s := s.onPwr fun p => { p with refclkSerdes := false }
    let s := (List.range 5).foldl (fun s p => ethDown p s) s
    let s := (List.range 2).foldl (fun s p => if (ringPort s p).up then portDown p 0 s else s) s
    if s.modes.mode = 1 && !s.outs.z then s.onOuts fun o => { o with ringTx := .disabled } else s) s)

end Sys2Proof.Machine
end

