-- ==== Sys2Proof/Machine/Dispatch.lean ====
section
/-!
DEFINITION. The dispatch: one arm per command.
-/
namespace Sys2Proof.Machine

/-- The effect of a command on everything but the queue. -/
def exec (i : Instr) (s : State) : Host.Outcome State Fault Refusal :=
  match i with
  | .powerOn => Sys2Proof.Machine.execPowerOn s
  | .vddIoUp => Sys2Proof.Machine.execVddIoUp s
  | .vddIoLoss => Sys2Proof.Machine.execVddIoLoss s
  | .powerOff => Sys2Proof.Machine.execPowerOff s
  | .pwrOkRise => Sys2Proof.Machine.execPwrOkRise s
  | .pwrOkFall => Sys2Proof.Machine.execPwrOkFall s
  | .resetNFall => Sys2Proof.Machine.execResetNFall s
  | .resetNRise profSel ringRole ringId bootHalt safeN => Sys2Proof.Machine.execResetNRise profSel ringRole ringId bootHalt safeN s
  | .bootSequenceDone selfTestOk => Sys2Proof.Machine.execBootSequenceDone selfTestOk s
  | .replayResume => Sys2Proof.Machine.execReplayResume s
  | .brownout rail => Sys2Proof.Machine.execBrownout rail s
  | .refclkRfFail => Sys2Proof.Machine.execRefclkRfFail s
  | .refclkRfTimeout => Sys2Proof.Machine.execRefclkRfTimeout s
  | .serdesRefclkFail => Sys2Proof.Machine.execSerdesRefclkFail s
  | .pcieRefclkFail => Sys2Proof.Machine.execPcieRefclkFail s
  | .pciePerstAssert => Sys2Proof.Machine.execPciePerstAssert s
  | .pciePerstRelease => Sys2Proof.Machine.execPciePerstRelease s
  | .keeperStable => Sys2Proof.Machine.execKeeperStable s
  | .stageOwnerTimeout => Sys2Proof.Machine.execStageOwnerTimeout s
  | .undefinedOpcode op d p => Sys2Proof.Machine.execUndefinedOpcode op d p s
  | .recordedCommandTaken mb => Sys2Proof.Machine.execRecordedCommandTaken mb s
  | .longCommandDeferredStart => Sys2Proof.Machine.execLongCommandDeferredStart s
  | .registerWrite bar off v => Sys2Proof.Machine.execRegisterWrite bar off v s
  | .barBadAccess write => Sys2Proof.Machine.execBarBadAccess write s
  | .hostIdxWrite ring v => Sys2Proof.Machine.execHostIdxWrite ring v s
  | .dropCountRead ring => Sys2Proof.Machine.execDropCountRead ring s
  | .todSnapshotRead => Sys2Proof.Machine.execTodSnapshotRead s
  | .traceRestart => Sys2Proof.Machine.execTraceRestart s
  | .traceFreeze on => Sys2Proof.Machine.execTraceFreeze on s
  | .traceLostRead => Sys2Proof.Machine.execTraceLostRead s
  | .svcRead addr count => Sys2Proof.Machine.execSvcRead addr count s
  | .svcWrite addr data crcOk => Sys2Proof.Machine.execSvcWrite addr data crcOk s
  | .hostTxPacket ring descs payload dmaOk => Sys2Proof.Machine.execHostTxPacket ring descs payload dmaOk s
  | .hostRingWrite ring bufs => Sys2Proof.Machine.execHostRingWrite ring bufs s
  | .hrDisableDrained ring => Sys2Proof.Machine.execHrDisableDrained ring s
  | .msixModerationExpiry ring => Sys2Proof.Machine.execMsixModerationExpiry ring s
  | .identify d p => Sys2Proof.Machine.execIdentify d p s
  | .sysRestart d p safeN => Sys2Proof.Machine.execSysRestart d p safeN s
  | .profileLoad d p => Sys2Proof.Machine.execProfileLoad d p s
  | .profileLoadDone prof => Sys2Proof.Machine.execProfileLoadDone prof s
  | .profileStore d p => Sys2Proof.Machine.execProfileStore d p s
  | .profileStoreDone prof => Sys2Proof.Machine.execProfileStoreDone prof s
  | .profileSelect d p => Sys2Proof.Machine.execProfileSelect d p s
  | .profileRead d p => Sys2Proof.Machine.execProfileRead d p s
  | .profileStage d p => Sys2Proof.Machine.execProfileStage d p s
  | .hrConfig d p => Sys2Proof.Machine.execHrConfig d p s
  | .hrStatus d p => Sys2Proof.Machine.execHrStatus d p s
  | .eventRoute d p => Sys2Proof.Machine.execEventRoute d p s
  | .gpioSet d p => Sys2Proof.Machine.execGpioSet d p s
  | .gpioGet d p levels => Sys2Proof.Machine.execGpioGet d p levels s
  | .modeSet d p => Sys2Proof.Machine.execModeSet d p s
  | .modeGet d p => Sys2Proof.Machine.execModeGet d p s
  | .pwrStats d p => Sys2Proof.Machine.execPwrStats d p s
  | .domainStatus d p => Sys2Proof.Machine.execDomainStatus d p s
  | .wakeConfig d p => Sys2Proof.Machine.execWakeConfig d p s
  | .vigilConfig d p => Sys2Proof.Machine.execVigilConfig d p s
  | .agentAnswer agent ans => Sys2Proof.Machine.execAgentAnswer agent ans s
  | .agentAnswerTimeout agent => Sys2Proof.Machine.execAgentAnswerTimeout agent s
  | .enterResend agent => Sys2Proof.Machine.execEnterResend agent s
  | .modeTransitionDone => Sys2Proof.Machine.execModeTransitionDone s
  | .serveExitSilence => Sys2Proof.Machine.execServeExitSilence s
  | .domainWakeDone dom us selfTest => Sys2Proof.Machine.execDomainWakeDone dom us selfTest s
  | .domainWakeTimeout dom upStep => Sys2Proof.Machine.execDomainWakeTimeout dom upStep s
  | .domainWakeRetry dom => Sys2Proof.Machine.execDomainWakeRetry dom s
  | .demandIdleExpiry dom => Sys2Proof.Machine.execDemandIdleExpiry dom s
  | .keeperAlarm => Sys2Proof.Machine.execKeeperAlarm s
  | .wakeNAssert => Sys2Proof.Machine.execWakeNAssert s
  | .safeNAssert => Sys2Proof.Machine.execSafeNAssert s
  | .cadSourceSet d p => Sys2Proof.Machine.execCadSourceSet d p s
  | .cadStatus d p => Sys2Proof.Machine.execCadStatus d p s
  | .timeGet d p => Sys2Proof.Machine.execTimeGet d p s
  | .timeStep d p => Sys2Proof.Machine.execTimeStep d p s
  | .timeAdjust d p => Sys2Proof.Machine.execTimeAdjust d p s
  | .ptpConfig d p => Sys2Proof.Machine.execPtpConfig d p s
  | .cadMasterSet d p => Sys2Proof.Machine.execCadMasterSet d p s
  | .holdoverConfig d p => Sys2Proof.Machine.execHoldoverConfig d p s
  | .tsRead d p => Sys2Proof.Machine.execTsRead d p s
  | .cadPulseMark t frame => Sys2Proof.Machine.execCadPulseMark t frame s
  | .markFrameTimeout t => Sys2Proof.Machine.execMarkFrameTimeout t s
  | .markWindowExpiry => Sys2Proof.Machine.execMarkWindowExpiry s
  | .slewDone => Sys2Proof.Machine.execSlewDone s
  | .holdoverBudgetExpiry => Sys2Proof.Machine.execHoldoverBudgetExpiry s
  | .timeStepApply => Sys2Proof.Machine.execTimeStepApply s
  | .ptpSyncMark t1 t2 corr => Sys2Proof.Machine.execPtpSyncMark t1 t2 corr s
  | .ptpAnnounce gm => Sys2Proof.Machine.execPtpAnnounce gm s
  | .ptpDelayResp t4 corr => Sys2Proof.Machine.execPtpDelayResp t4 corr s
  | .ptpDelayReqTimer t3 => Sys2Proof.Machine.execPtpDelayReqTimer t3 s
  | .keeperTrimWindow trim => Sys2Proof.Machine.execKeeperTrimWindow trim s
  | .beatStart n => Sys2Proof.Machine.execBeatStart n s
  | .kernelDeadline n => Sys2Proof.Machine.execKernelDeadline n s
  | .planSeal n => Sys2Proof.Machine.execPlanSeal n s
  | .weightSetComplete band beat => Sys2Proof.Machine.execWeightSetComplete band beat s
  | .cipherFrameDone job => Sys2Proof.Machine.execCipherFrameDone job s
  | .rngHealthFail test => Sys2Proof.Machine.execRngHealthFail test s
  | .ccaCheckEnd band beat id busy => Sys2Proof.Machine.execCcaCheckEnd band beat id busy s
  | .coexRequest band beat id => Sys2Proof.Machine.execCoexRequest band beat id s
  | .ppduFemOn band beat id grant => Sys2Proof.Machine.execPpduFemOn band beat id grant s
  | .ppduEnd band beat id => Sys2Proof.Machine.execPpduEnd band beat id s
  | .edcaAccessGained band ac off => Sys2Proof.Machine.execEdcaAccessGained band ac off s
  | .responseReceived band beat id sta acked => Sys2Proof.Machine.execResponseReceived band beat id sta acked s
  | .responseTimeout band beat id sta => Sys2Proof.Machine.execResponseTimeout band beat id sta s
  | .bfDeadline bf k => Sys2Proof.Machine.execBfDeadline bf k s
  | .airRxPpdu band rx => Sys2Proof.Machine.execAirRxPpdu band rx s
  | .wbRxFalseDet band => Sys2Proof.Machine.execWbRxFalseDet band s
  | .reorderTimeout sta tid => Sys2Proof.Machine.execReorderTimeout sta tid s
  | .beaconSkipped band bss => Sys2Proof.Machine.execBeaconSkipped band bss s
  | .loLockLoss band residual => Sys2Proof.Machine.execLoLockLoss band residual s
  | .loReady band t => Sys2Proof.Machine.execLoReady band t s
  | .synthLockTimeout band synth => Sys2Proof.Machine.execSynthLockTimeout band synth s
  | .coexGntWithdrawn band => Sys2Proof.Machine.execCoexGntWithdrawn band s
  | .blankInAssert input => Sys2Proof.Machine.execBlankInAssert input s
  | .blankInRelease input => Sys2Proof.Machine.execBlankInRelease input s
  | .mismatchMeasureDue band => Sys2Proof.Machine.execMismatchMeasureDue band s
  | .mismatchCaptureDone band rl => Sys2Proof.Machine.execMismatchCaptureDone band rl s
  | .rffeTransactionDone band bus parityOk data => Sys2Proof.Machine.execRffeTransactionDone band bus parityOk data s
  | .bandConfig d p => Sys2Proof.Machine.execBandConfig d p s
  | .bandConfigDone band ok => Sys2Proof.Machine.execBandConfigDone band ok s
  | .chainEnable d p => Sys2Proof.Machine.execChainEnable d p s
  | .txpwrSet d p => Sys2Proof.Machine.execTxpwrSet d p s
  | .femConfig d p => Sys2Proof.Machine.execFemConfig d p s
  | .rffeAccess d p => Sys2Proof.Machine.execRffeAccess d p s
  | .coexConfig d p => Sys2Proof.Machine.execCoexConfig d p s
  | .blankMap d p => Sys2Proof.Machine.execBlankMap d p s
  | .chainStatus d p => Sys2Proof.Machine.execChainStatus d p s
  | .factoryTest d p => Sys2Proof.Machine.execFactoryTest d p s
  | .factoryTestDone => Sys2Proof.Machine.execFactoryTestDone s
  | .spectrumSurvey d p => Sys2Proof.Machine.execSpectrumSurvey d p s
  | .surveySpanDone bins => Sys2Proof.Machine.execSurveySpanDone bins s
  | .soundingConfig d p => Sys2Proof.Machine.execSoundingConfig d p s
  | .precodeConfig d p => Sys2Proof.Machine.execPrecodeConfig d p s
  | .csiRead d p => Sys2Proof.Machine.execCsiRead d p s
  | .calGap band matched fwd => Sys2Proof.Machine.execCalGap band matched fwd s
  | .calMeasurementDone m => Sys2Proof.Machine.execCalMeasurementDone m s
  | .nbCalInterval => Sys2Proof.Machine.execNbCalInterval s
  | .calStoreInterval => Sys2Proof.Machine.execCalStoreInterval s
  | .calRun d p => Sys2Proof.Machine.execCalRun d p s
  | .calRunDone => Sys2Proof.Machine.execCalRunDone s
  | .calStatus d p => Sys2Proof.Machine.execCalStatus d p s
  | .calSchedule d p => Sys2Proof.Machine.execCalSchedule d p s
  | .calTableRead d p => Sys2Proof.Machine.execCalTableRead d p s
  | .calTableStore d p => Sys2Proof.Machine.execCalTableStore d p s
  | .calTableStoreDone => Sys2Proof.Machine.execCalTableStoreDone s
  | .sliceStatus d p => Sys2Proof.Machine.execSliceStatus d p s
  | .sensorConversion sensor q => Sys2Proof.Machine.execSensorConversion sensor q s
  | .thermalShutdown sensor => Sys2Proof.Machine.execThermalShutdown sensor s
  | .staAdd d p => Sys2Proof.Machine.execStaAdd d p s
  | .staModify d p => Sys2Proof.Machine.execStaModify d p s
  | .staRemove d p => Sys2Proof.Machine.execStaRemove d p s
  | .staGet d p => Sys2Proof.Machine.execStaGet d p s
  | .acParamSet d p => Sys2Proof.Machine.execAcParamSet d p s
  | .turnPlanSet d p => Sys2Proof.Machine.execTurnPlanSet d p s
  | .airGateSet d p => Sys2Proof.Machine.execAirGateSet d p s
  | .beaconTemplate d p => Sys2Proof.Machine.execBeaconTemplate d p s
  | .linkSteer d p => Sys2Proof.Machine.execLinkSteer d p s
  | .policyBind d p => Sys2Proof.Machine.execPolicyBind d p s
  | .bfAdmit d p => Sys2Proof.Machine.execBfAdmit d p s
  | .bfModify d p => Sys2Proof.Machine.execBfModify d p s
  | .bfRelease d p => Sys2Proof.Machine.execBfRelease d p s
  | .bfStatus d p => Sys2Proof.Machine.execBfStatus d p s
  | .bfPledgeSet d p => Sys2Proof.Machine.execBfPledgeSet d p s
  | .bfStats d p => Sys2Proof.Machine.execBfStats d p s
  | .ethFrameReceived src srcId tid bytes t => Sys2Proof.Machine.execEthFrameReceived src srcId tid bytes t s
  | .payloadMatchDone => Sys2Proof.Machine.execPayloadMatchDone s
  | .egressFrameStart port => Sys2Proof.Machine.execEgressFrameStart port s
  | .shaperCreditEligible port q => Sys2Proof.Machine.execShaperCreditEligible port q s
  | .gateEntryInstant port entry => Sys2Proof.Machine.execGateEntryInstant port entry s
  | .gateListApply port => Sys2Proof.Machine.execGateListApply port s
  | .ethLinkUp port => Sys2Proof.Machine.execEthLinkUp port s
  | .ethLinkDown port => Sys2Proof.Machine.execEthLinkDown port s
  | .chainSwitchSettle => Sys2Proof.Machine.execChainSwitchSettle s
  | .chainLinkWaitExpiry => Sys2Proof.Machine.execChainLinkWaitExpiry s
  | .chainRetryExpiry => Sys2Proof.Machine.execChainRetryExpiry s
  | .agingVisit bucket => Sys2Proof.Machine.execAgingVisit bucket s
  | .filterRebuildDone => Sys2Proof.Machine.execFilterRebuildDone s
  | .nbConfig d p => Sys2Proof.Machine.execNbConfig d p s
  | .nbChannelPlan d p => Sys2Proof.Machine.execNbChannelPlan d p s
  | .dwellConfig d p => Sys2Proof.Machine.execDwellConfig d p s
  | .tunerRun d p => Sys2Proof.Machine.execTunerRun d p s
  | .tunerRunDone x => Sys2Proof.Machine.execTunerRunDone x s
  | .nbStats d p => Sys2Proof.Machine.execNbStats d p s
  | .nodeAdd d p => Sys2Proof.Machine.execNodeAdd d p s
  | .nodeRemove d p => Sys2Proof.Machine.execNodeRemove d p s
  | .nodeGet d p => Sys2Proof.Machine.execNodeGet d p s
  | .nbSend d p => Sys2Proof.Machine.execNbSend d p s
  | .floodConfig d p => Sys2Proof.Machine.execFloodConfig d p s
  | .heldStatus d p => Sys2Proof.Machine.execHeldStatus d p s
  | .nbTxRequestStart x => Sys2Proof.Machine.execNbTxRequestStart x s
  | .nbCcaDone x power => Sys2Proof.Machine.execNbCcaDone x power s
  | .nbTxDone x err => Sys2Proof.Machine.execNbTxDone x err s
  | .nbFrameReceived x frame fcs2 fcsOk rssi t => Sys2Proof.Machine.execNbFrameReceived x frame fcs2 fcsOk rssi t s
  | .nbPhrReceived x phr rssi => Sys2Proof.Machine.execNbPhrReceived x phr rssi s
  | .nbSyncTimeout x => Sys2Proof.Machine.execNbSyncTimeout x s
  | .hopSlotStart x => Sys2Proof.Machine.execHopSlotStart x s
  | .nbSynthLocked x => Sys2Proof.Machine.execNbSynthLocked x s
  | .nbSynthLockTimeout x => Sys2Proof.Machine.execNbSynthLockTimeout x s
  | .nbLockLoss x => Sys2Proof.Machine.execNbLockLoss x s
  | .nbRlSample x rl => Sys2Proof.Machine.execNbRlSample x rl s
  | .nbAutoTuneStart x => Sys2Proof.Machine.execNbAutoTuneStart x s
  | .tuneBurstRetry x => Sys2Proof.Machine.execTuneBurstRetry x s
  | .tuneSearchTimeout x => Sys2Proof.Machine.execTuneSearchTimeout x s
  | .nbAckTimeout job => Sys2Proof.Machine.execNbAckTimeout job s
  | .nbBackoffExpiry job => Sys2Proof.Machine.execNbBackoffExpiry job s
  | .heldFrameExpiry key => Sys2Proof.Machine.execHeldFrameExpiry key s
  | .relayJitterExpiry src seq => Sys2Proof.Machine.execRelayJitterExpiry src seq s
  | .seenEntryExpiry src seq => Sys2Proof.Machine.execSeenEntryExpiry src seq s
  | .nbBeaconInterval => Sys2Proof.Machine.execNbBeaconInterval s
  | .ctrFloorWriteDone => Sys2Proof.Machine.execCtrFloorWriteDone s
  | .heldStoreMoveDone => Sys2Proof.Machine.execHeldStoreMoveDone s
  | .parseConfig d p => Sys2Proof.Machine.execParseConfig d p s
  | .ruleWrite d p => Sys2Proof.Machine.execRuleWrite d p s
  | .ruleClear d p => Sys2Proof.Machine.execRuleClear d p s
  | .rangeSet d p => Sys2Proof.Machine.execRangeSet d p s
  | .patternWrite d p => Sys2Proof.Machine.execPatternWrite d p s
  | .policerSet d p => Sys2Proof.Machine.execPolicerSet d p s
  | .classStats d p => Sys2Proof.Machine.execClassStats d p s
  | .l2Add d p => Sys2Proof.Machine.execL2Add d p s
  | .l2Remove d p => Sys2Proof.Machine.execL2Remove d p s
  | .l2Flush d p => Sys2Proof.Machine.execL2Flush d p s
  | .l2FlushDone => Sys2Proof.Machine.execL2FlushDone s
  | .routeAdd d p => Sys2Proof.Machine.execRouteAdd d p s
  | .routeRemove d p => Sys2Proof.Machine.execRouteRemove d p s
  | .routeBulk d p => Sys2Proof.Machine.execRouteBulk d p s
  | .routeBulkDone records => Sys2Proof.Machine.execRouteBulkDone records s
  | .nexthopSet d p => Sys2Proof.Machine.execNexthopSet d p s
  | .ecmpSet d p => Sys2Proof.Machine.execEcmpSet d p s
  | .agingSet d p => Sys2Proof.Machine.execAgingSet d p s
  | .fwdStats d p => Sys2Proof.Machine.execFwdStats d p s
  | .queueConfig d p => Sys2Proof.Machine.execQueueConfig d p s
  | .shaperSet d p => Sys2Proof.Machine.execShaperSet d p s
  | .gateListSet d p => Sys2Proof.Machine.execGateListSet d p s
  | .bufferConfig d p => Sys2Proof.Machine.execBufferConfig d p s
  | .chainPairSet d p => Sys2Proof.Machine.execChainPairSet d p s
  | .tmStats d p => Sys2Proof.Machine.execTmStats d p s
  | .keyUnwrap d p => Sys2Proof.Machine.execKeyUnwrap d p s
  | .keyErase d p => Sys2Proof.Machine.execKeyErase d p s
  | .kekProvision d p => Sys2Proof.Machine.execKekProvision d p s
  | .kekProvisionDone => Sys2Proof.Machine.execKekProvisionDone s
  | .cmLevelSet d p => Sys2Proof.Machine.execCmLevelSet d p s
  | .keySlotInfo d p => Sys2Proof.Machine.execKeySlotInfo d p s
  | .kernelLoad d p => Sys2Proof.Machine.execKernelLoad d p s
  | .kernelLoadDone image => Sys2Proof.Machine.execKernelLoadDone image s
  | .kernelStart d p => Sys2Proof.Machine.execKernelStart d p s
  | .kernelStop d p => Sys2Proof.Machine.execKernelStop d p s
  | .taskConfig d p => Sys2Proof.Machine.execTaskConfig d p s
  | .colObserveSet d p => Sys2Proof.Machine.execColObserveSet d p s
  | .massifStats d p => Sys2Proof.Machine.execMassifStats d p s
  | .colDispatch => Sys2Proof.Machine.execColDispatch s
  | .kernelReturn core => Sys2Proof.Machine.execKernelReturn core s
  | .kernelBudgetExpiry core => Sys2Proof.Machine.execKernelBudgetExpiry core s
  | .add core dst srcA b => Sys2Proof.Machine.execAdd core dst srcA b s
  | .sub core dst srcA b => Sys2Proof.Machine.execSub core dst srcA b s
  | .adds core dst srcA b => Sys2Proof.Machine.execAdds core dst srcA b s
  | .subs core dst srcA b => Sys2Proof.Machine.execSubs core dst srcA b s
  | .and_ core dst srcA b => Sys2Proof.Machine.execAnd core dst srcA b s
  | .or_ core dst srcA b => Sys2Proof.Machine.execOr core dst srcA b s
  | .xor core dst srcA b => Sys2Proof.Machine.execXor core dst srcA b s
  | .shl core dst srcA b => Sys2Proof.Machine.execShl core dst srcA b s
  | .shr core dst srcA b => Sys2Proof.Machine.execShr core dst srcA b s
  | .shra core dst srcA b => Sys2Proof.Machine.execShra core dst srcA b s
  | .mul core dst srcA b => Sys2Proof.Machine.execMul core dst srcA b s
  | .mulq core dst srcA b => Sys2Proof.Machine.execMulq core dst srcA b s
  | .min core dst srcA b => Sys2Proof.Machine.execMin core dst srcA b s
  | .max core dst srcA b => Sys2Proof.Machine.execMax core dst srcA b s
  | .abs core dst srcA b => Sys2Proof.Machine.execAbs core dst srcA b s
  | .neg core dst srcA b => Sys2Proof.Machine.execNeg core dst srcA b s
  | .cmp core dst srcA b => Sys2Proof.Machine.execCmp core dst srcA b s
  | .cadd core dst srcA b => Sys2Proof.Machine.execCadd core dst srcA b s
  | .csub core dst srcA b => Sys2Proof.Machine.execCsub core dst srcA b s
  | .conj core dst srcA b => Sys2Proof.Machine.execConj core dst srcA b s
  | .pack core dst srcA srcB => Sys2Proof.Machine.execPack core dst srcA srcB s
  | .padd core dst srcA b => Sys2Proof.Machine.execPadd core dst srcA b s
  | .movi core dst imm => Sys2Proof.Machine.execMovi core dst imm s
  | .movhi core dst imm => Sys2Proof.Machine.execMovhi core dst imm s
  | .moviP core dst imm => Sys2Proof.Machine.execMoviP core dst imm s
  | .macH core acc srcA srcB => Sys2Proof.Machine.execMacH core acc srcA srcB s
  | .msuH core acc srcA srcB => Sys2Proof.Machine.execMsuH core acc srcA srcB s
  | .macW core acc srcA srcB => Sys2Proof.Machine.execMacW core acc srcA srcB s
  | .msuW core acc srcA srcB => Sys2Proof.Machine.execMsuW core acc srcA srcB s
  | .cmac core acc srcA srcB => Sys2Proof.Machine.execCmac core acc srcA srcB s
  | .cmacj core acc srcA srcB => Sys2Proof.Machine.execCmacj core acc srcA srcB s
  | .cmsu core acc srcA srcB => Sys2Proof.Machine.execCmsu core acc srcA srcB s
  | .clr core acc => Sys2Proof.Machine.execClr core acc s
  | .clr2 core acc => Sys2Proof.Machine.execClr2 core acc s
  | .mova core acc srcA => Sys2Proof.Machine.execMova core acc srcA s
  | .adda core acc src => Sys2Proof.Machine.execAdda core acc src s
  | .macI core acc srcA srcB => Sys2Proof.Machine.execMacI core acc srcA srcB s
  | .vmacH core acc pa pb incA incB => Sys2Proof.Machine.execVmacH core acc pa pb incA incB s
  | .vcmac core acc pa pb incA incB => Sys2Proof.Machine.execVcmac core acc pa pb incA incB s
  | .vcmacj core acc pa pb incA incB => Sys2Proof.Machine.execVcmacj core acc pa pb incA incB s
  | .extW core dst acc sh => Sys2Proof.Machine.execExtW core dst acc sh s
  | .extH core dst acc sh => Sys2Proof.Machine.execExtH core dst acc sh s
  | .extI core dst acc sh => Sys2Proof.Machine.execExtI core dst acc sh s
  | .extCx core dst acc sh => Sys2Proof.Machine.execExtCx core dst acc sh s
  | .rawlo core dst acc => Sys2Proof.Machine.execRawlo core dst acc s
  | .rawmi core dst acc => Sys2Proof.Machine.execRawmi core dst acc s
  | .rawhi core dst acc => Sys2Proof.Machine.execRawhi core dst acc s
  | .inslo core dst acc => Sys2Proof.Machine.execInslo core dst acc s
  | .insmi core dst acc => Sys2Proof.Machine.execInsmi core dst acc s
  | .inshi core dst acc => Sys2Proof.Machine.execInshi core dst acc s
  | .ldBu core reg ptr m => Sys2Proof.Machine.execLdBu core reg ptr m s
  | .ldB core reg ptr m => Sys2Proof.Machine.execLdB core reg ptr m s
  | .ldHu core reg ptr m => Sys2Proof.Machine.execLdHu core reg ptr m s
  | .ldH core reg ptr m => Sys2Proof.Machine.execLdH core reg ptr m s
  | .ldW core reg ptr m => Sys2Proof.Machine.execLdW core reg ptr m s
  | .ldP core reg ptr m => Sys2Proof.Machine.execLdP core reg ptr m s
  | .ldA core reg ptr m => Sys2Proof.Machine.execLdA core reg ptr m s
  | .stB core reg ptr m => Sys2Proof.Machine.execStB core reg ptr m s
  | .stH core reg ptr m => Sys2Proof.Machine.execStH core reg ptr m s
  | .stHu core reg ptr m => Sys2Proof.Machine.execStHu core reg ptr m s
  | .stW core reg ptr m => Sys2Proof.Machine.execStW core reg ptr m s
  | .stP core reg ptr m => Sys2Proof.Machine.execStP core reg ptr m s
  | .stA core reg ptr m => Sys2Proof.Machine.execStA core reg ptr m s
  | .stHf core reg ptr m => Sys2Proof.Machine.execStHf core reg ptr m s
  | .branch core cond off => Sys2Proof.Machine.execBranch core cond off s
  | .call core off mask => Sys2Proof.Machine.execCall core off mask s
  | .callr core ptr mask => Sys2Proof.Machine.execCallr core ptr mask s
  | .ret core mask => Sys2Proof.Machine.execRet core mask s
  | .br core ptr => Sys2Proof.Machine.execBr core ptr s
  | .loop core count last => Sys2Proof.Machine.execLoop core count last s
  | .mfs core reg spec => Sys2Proof.Machine.execMfs core reg spec s
  | .mts core reg spec => Sys2Proof.Machine.execMts core reg spec s
  | .nop core => Sys2Proof.Machine.execNop core s
  | .setrnd core rnd => Sys2Proof.Machine.execSetrnd core rnd s
  | .csrr core reg csr => Sys2Proof.Machine.execCsrr core reg csr s
  | .csrw core reg csr => Sys2Proof.Machine.execCsrw core reg csr s
  | .rfe core => Sys2Proof.Machine.execRfe core s
  | .wait core => Sys2Proof.Machine.execWait core s
  | .fence core => Sys2Proof.Machine.execFence core s
  | .undefinedEncoding core word => Sys2Proof.Machine.execUndefinedEncoding core word s
  | .dramConfig d p => Sys2Proof.Machine.execDramConfig d p s
  | .dramTrain d p => Sys2Proof.Machine.execDramTrain d p s
  | .dramTrainDone res => Sys2Proof.Machine.execDramTrainDone res s
  | .dramMapSet d p => Sys2Proof.Machine.execDramMapSet d p s
  | .dramStatus d p => Sys2Proof.Machine.execDramStatus d p s
  | .freezeRead d p => Sys2Proof.Machine.execFreezeRead d p s
  | .zeroingDone => Sys2Proof.Machine.execZeroingDone s
  | .refreshDue ch sc rank => Sys2Proof.Machine.execRefreshDue ch sc rank s
  | .mr4Poll mult hot => Sys2Proof.Machine.execMr4Poll mult hot s
  | .zqCalDue ch sc rank limit => Sys2Proof.Machine.execZqCalDue ch sc rank limit s
  | .dqsTrackDue ch sc rank lane drift => Sys2Proof.Machine.execDqsTrackDue ch sc rank lane drift s
  | .dramCreditWindow => Sys2Proof.Machine.execDramCreditWindow s
  | .dramReadComplete addr cls scrub res => Sys2Proof.Machine.execDramReadComplete addr cls scrub res s
  | .caParityError ch sc rank addr cls => Sys2Proof.Machine.execCaParityError ch sc rank addr cls s
  | .writeCrcAlert addr cls replayed => Sys2Proof.Machine.execWriteCrcAlert addr cls replayed s
  | .selfRefreshExitDone => Sys2Proof.Machine.execSelfRefreshExitDone s
  | .ringConfig d p => Sys2Proof.Machine.execRingConfig d p s
  | .ringStatus d p => Sys2Proof.Machine.execRingStatus d p s
  | .ringTableSync d p => Sys2Proof.Machine.execRingTableSync d p s
  | .ringTableSyncDone => Sys2Proof.Machine.execRingTableSyncDone s
  | .rendezvousSet d p => Sys2Proof.Machine.execRendezvousSet d p s
  | .ringPortUp port delay us => Sys2Proof.Machine.execRingPortUp port delay us s
  | .ringPortDown port lost peerVigil => Sys2Proof.Machine.execRingPortDown port lost peerVigil s
  | .ringSwitchSettle => Sys2Proof.Machine.execRingSwitchSettle s
  | .ringLinkWaitExpiry => Sys2Proof.Machine.execRingLinkWaitExpiry s
  | .ringRetryExpiry => Sys2Proof.Machine.execRingRetryExpiry s
  | .ringBeaconRx port t residence frame => Sys2Proof.Machine.execRingBeaconRx port t residence frame s
  | .ringDataRx port frame => Sys2Proof.Machine.execRingDataRx port frame s
  | .ringTransitFrame port frame => Sys2Proof.Machine.execRingTransitFrame port frame s
  | .ringBadMsgType port frame crcOk => Sys2Proof.Machine.execRingBadMsgType port frame crcOk s
  | .ringPortTxStart port => Sys2Proof.Machine.execRingPortTxStart port s
  | .ringCommandRx port frame => Sys2Proof.Machine.execRingCommandRx port frame s
  | .mb3CommandInject => Sys2Proof.Machine.execMb3CommandInject s
  | .ringResponseRx port frame => Sys2Proof.Machine.execRingResponseRx port frame s
  | .ringTableUpdateRx port frame => Sys2Proof.Machine.execRingTableUpdateRx port frame s
  | .ringSummaryRx port frame => Sys2Proof.Machine.execRingSummaryRx port frame s
  | .summaryTimer => Sys2Proof.Machine.execSummaryTimer s
  | .ringClaimRx port frame => Sys2Proof.Machine.execRingClaimRx port frame s
  | .rendezvousInstant => Sys2Proof.Machine.execRendezvousInstant s
  | .rdvWindowOpen => Sys2Proof.Machine.execRdvWindowOpen s
  | .rdvWindowEnd => Sys2Proof.Machine.execRdvWindowEnd s
  | .rendezvousRx port ticks residence frame => Sys2Proof.Machine.execRendezvousRx port ticks residence frame s
  | .lockstepMismatch pcA pcB => Sys2Proof.Machine.execLockstepMismatch pcA pcB s
  | .sramUncorrectable cls addr victim => Sys2Proof.Machine.execSramUncorrectable cls addr victim s
  | .wdtStage1Expiry => Sys2Proof.Machine.execWdtStage1Expiry s
  | .wdtResetExpiry safeN => Sys2Proof.Machine.execWdtResetExpiry safeN s
  | .lastGaspDone => Sys2Proof.Machine.execLastGaspDone s
  | .autoRestartExpiry safeN => Sys2Proof.Machine.execAutoRestartExpiry safeN s
  | .availabilityWrite => Sys2Proof.Machine.execAvailabilityWrite s
  | .heartbeatTick => Sys2Proof.Machine.execHeartbeatTick s
  | .logRead d p => Sys2Proof.Machine.execLogRead d p s
  | .faultRead d p => Sys2Proof.Machine.execFaultRead d p s
  | .counterRead d p => Sys2Proof.Machine.execCounterRead d p s
  | .statusRead d p => Sys2Proof.Machine.execStatusRead d p s
  | .watchdogSet d p => Sys2Proof.Machine.execWatchdogSet d p s
  | .logClear d p => Sys2Proof.Machine.execLogClear d p s
  | .logClearDone => Sys2Proof.Machine.execLogClearDone s
  | .commandRecorded op d p => Sys2Proof.Machine.execCommandRecorded op d p s
  | .doorbellOverrun op d p => Sys2Proof.Machine.execDoorbellOverrun op d p s
  | .pcieLinkUp => Sys2Proof.Machine.execPcieLinkUp s
  | .standbyRelocked band synth => Sys2Proof.Machine.execStandbyRelocked band synth s
  | .wbPreambleDetected band => Sys2Proof.Machine.execWbPreambleDetected band s
  | .wbRxRestart band rise => Sys2Proof.Machine.execWbRxRestart band rise s
  | .nbPreambleDetected x power => Sys2Proof.Machine.execNbPreambleDetected x power s
  | .nbRxWindowPower x power => Sys2Proof.Machine.execNbRxWindowPower x power s
  | .nbRequestLatest x => Sys2Proof.Machine.execNbRequestLatest x s
  | .blankTailExpiry input => Sys2Proof.Machine.execBlankTailExpiry input s

end Sys2Proof.Machine
end

