-- ==== Sys2Proof/Machine/Tick.lean ====
section
/-!
DEFINITION. A tick of the 1 GHz clock, which is what a step is while no command waits (log entry 7).
-/
namespace Sys2Proof.Machine

/-- The time-of-day counter adds INCR (R194); in VIGIL it stands still (R211). -/
def tickTod (s : State) : State :=
  if s.cad.run && s.modes.mode != 3 then s.onCad fun c => { c with tod := (c.tod + c.incr) % 2 ^ 96 } else s

/-- The keeper, 32,768 Hz, goes on by 64 / 1,953,125 of its tick in a nanosecond (R742). -/
def tickKeeper (s : State) : State :=
  if s.pwr.vddAon then
    let part := s.clk.keeperPart + 64
    s.onClk fun k => { k with keeper := (k.keeper + part / 1953125) % 2 ^ 48, keeperPart := part % 1953125 }
  else s

/-- One tick of the clock. -/
def tick (s : State) : State := tickKeeper (tickTod s)

end Sys2Proof.Machine
end

