-- ==== Sys2Proof/Safety.lean ====
section
/-!
DEFINITION. What a safe run is: every step answers a next state; the invariant of the machine; and the terms in which a statement
says that a command completes.
-/
namespace Sys2Proof

/-- A step of a state answers a next state: it neither faults nor refuses. -/
def Completes (s : Machine.State) : Prop := ∃ t, Machine.step s = .next t

/-- A transition leads from one legal mode to another (R153, R154). -/
def Machine.Trans.legal (t : Machine.Trans) : Bool := t.stage ≤ 7 && t.final ≤ 7

/-- What every step keeps: the sparse memories (MRAM, the staging buffer, the push windows, the freeze record) are in canonical
form; the mode and the modes that a transition, an autostart or a wake lead to are mode codes of R153; there are four mailbox
pages (R109), eight domains (R160), 29 fault counters (R707) and 36 temperature sensors (R737). -/
structure Inv (s : Machine.State) : Prop where
  mram : Machine.Memory.wf s.boot.mram = true
  stage : Machine.Memory.wf s.boot.stageBuf = true
  push : Machine.Memory.wf s.host.push = true
  freeze : Machine.Memory.wf s.dram.freeze = true
  mode : s.modes.mode ≤ 7
  warm : s.modes.warmTarget ≤ 7
  auto : s.boot.autostart ≤ 7
  trans : s.modes.trans.all Machine.Trans.legal = true
  pages : s.mbx.pages.length = 4
  doms : s.modes.doms.length = 8
  counters : s.flt.counters.length = 29
  sensors : s.flt.sensors.length = 36

/-- The parts of the state beside the queue. -/
inductive Machine.Part where
  | pwr
  | outs
  | boot
  | mbx
  | host
  | evt
  | modes
  | flt
  | cad
  | clk
  | fe
  | cal
  | air
  | nb
  | mlad
  | cls
  | fwd
  | tm
  | cipher
  | col
  | dram
  | ring
  | drawn
  | out
deriving DecidableEq, Repr

/-- A part is the same in two states. -/
def Machine.Part.same (s t : Machine.State) : Machine.Part → Prop
  | .pwr => t.pwr = s.pwr
  | .outs => t.outs = s.outs
  | .boot => t.boot = s.boot
  | .mbx => t.mbx = s.mbx
  | .host => t.host = s.host
  | .evt => t.evt = s.evt
  | .modes => t.modes = s.modes
  | .flt => t.flt = s.flt
  | .cad => t.cad = s.cad
  | .clk => t.clk = s.clk
  | .fe => t.fe = s.fe
  | .cal => t.cal = s.cal
  | .air => t.air = s.air
  | .nb => t.nb = s.nb
  | .mlad => t.mlad = s.mlad
  | .cls => t.cls = s.cls
  | .fwd => t.fwd = s.fwd
  | .tm => t.tm = s.tm
  | .cipher => t.cipher = s.cipher
  | .col => t.col = s.col
  | .dram => t.dram = s.dram
  | .ring => t.ring = s.ring
  | .drawn => t.drawn = s.drawn
  | .out => t.out = s.out

/-- From s to t nothing changes but these parts of the state; the queue is the same. -/
def Framed (l : List Machine.Part) (s t : Machine.State) : Prop := t.pending = s.pending ∧ ∀ p, p ∉ l → Machine.Part.same s t p

end Sys2Proof

namespace Sys2Proof.Claim
open Sys2Proof.Machine

/-- A command completes: it answers a next state that differs from s in no part but those of l, and that has P. -/
def Does (o : Out) (s : State) (l : List Part) (P : State → Prop) : Prop := ∃ u, o = .next u ∧ Framed l s u ∧ P u

/-- The CMD area of the mailbox once the header and the parameters are written (R112, R113). -/
def area (o : OpSpec) (d : Doorbell) (p : List Byte) (s : State) : List Byte := patch (getPage s d.mb.val).cmd 0 (cmdArea o.op d p)

/-- The command that the doorbell starts (R114). -/
def cmdOf (o : OpSpec) (d : Doorbell) (p : List Byte) (s : State) : Cmd := copyCmd d.mb.val d.path d.value (area o d p s)

/-- The state in which Summit has copied the command (R114): the page is BUSY and holds what was written, but for the key of
KEK_PROVISION, which is cleared from MB2 (R588). -/
def copied (o : OpSpec) (d : Doorbell) (p : List Byte) (s : State) : State :=
  (onPage d.mb.val (fun g => { g with
      cmd := if d.mb.val = 2 ∧ (cmdOf o d p s).op = 0x0C03 then List.replicate 512 0 else area o d p s
      doorbell := d.value, busy := true, done := false }) s).onEvt fun e => { e with asleep := false }

/-- Nothing turns the command away: the mailbox can be written by the path and is idle, Summit runs, the header is in order, the
reserved parameters are 0, boot is ready and no transition runs (or the opcode is a diagnostic read), the mode permits the
opcode, and the domains of its blocks are up (R8, R91, R110, R114, R115, R117, R176, R181). -/
structure Ready (o : OpSpec) (d : Doorbell) (p : List Byte) (s : State) : Prop where
  reach : mayWrite d.mb.val d.path s = true
  page : d.mb.val < s.mbx.pages.length
  run : s.flt.summitRun = true
  idle : (getPage s d.mb.val).busy = false
  record : (getPage s d.mb.val).recorded = none
  seq : fld (area o d p s) 4 2 = d.value.toNat
  hdr : hdrOk (area o d p s) = true
  rsv : o.rsv (cmdOf o d p s) = true
  open_ : o.diag = true ∨ shutOut (cmdOf o d p s) (copied o d p s) = false
  mode : o.modes (cmdOf o d p s) (copied o d p s) = true
  doms : ∀ x ∈ o.needs (cmdOf o d p s), (getDom s x).st ≠ 0 ∧ (getDom s x).st ≠ 2 ∧ (getDom s x).st ≠ 5
  free : anyHeld s (o.objs (cmdOf o d p s)) = false

/-- A command is answered at once: its effect leads to a state u that differs from s in no part but those of l, and that has P;
then the answer a is posted (`ResponsePosted` says what that does). -/
def Answers (out : Out) (o : OpSpec) (d : Doorbell) (p : List Byte) (s : State) (l : List Part) (a : Ans) (P : State → Prop) : Prop :=
  ∃ u, out = .next (post (cmdOf o d p s) a u) ∧ Framed l s u ∧ P u

/-- A long command is accepted (R119): its effect leads to a state u as above; it stands last among the pending long commands,
with the objects that it holds and the instant; then PENDING is posted. -/
def Accepts (out : Out) (o : OpSpec) (d : Doorbell) (p : List Byte) (s : State) (l : List Part) (P : State → Prop) : Prop :=
  ∃ u, out = .next (post (cmdOf o d p s) .pending u) ∧ Framed l s u ∧ P u ∧
    ∃ m, m.cmd = cmdOf o d p s ∧ m.started = true ∧ m.objs = o.objs (cmdOf o d p s) ∧ u.mbx.longs.getLast? = some m

/-- The specification, the doorbell and the parameters of a command row that does nothing but write a command into a mailbox; none
for the events, for the rows that bring something more with them, and for the instructions of the cores. -/
def sent : Instr → Option (OpSpec × Doorbell × List Byte)
  | .identify d p => some (specIdentify, d, p)
  | .profileLoad d p => some (specProfileLoad, d, p)
  | .profileStore d p => some (specProfileStore, d, p)
  | .profileSelect d p => some (specProfileSelect, d, p)
  | .profileRead d p => some (specProfileRead, d, p)
  | .profileStage d p => some (specProfileStage, d, p)
  | .hrConfig d p => some (specHrConfig, d, p)
  | .hrStatus d p => some (specHrStatus, d, p)
  | .eventRoute d p => some (specEventRoute, d, p)
  | .gpioSet d p => some (specGpioSet, d, p)
  | .modeSet d p => some (specModeSet, d, p)
  | .modeGet d p => some (specModeGet, d, p)
  | .pwrStats d p => some (specPwrStats, d, p)
  | .domainStatus d p => some (specDomainStatus, d, p)
  | .wakeConfig d p => some (specWakeConfig, d, p)
  | .vigilConfig d p => some (specVigilConfig, d, p)
  | .cadSourceSet d p => some (specCadSourceSet, d, p)
  | .cadStatus d p => some (specCadStatus, d, p)
  | .timeGet d p => some (specTimeGet, d, p)
  | .timeStep d p => some (specTimeStep, d, p)
  | .timeAdjust d p => some (specTimeAdjust, d, p)
  | .ptpConfig d p => some (specPtpConfig, d, p)
  | .cadMasterSet d p => some (specCadMasterSet, d, p)
  | .holdoverConfig d p => some (specHoldoverConfig, d, p)
  | .tsRead d p => some (specTsRead, d, p)
  | .bandConfig d p => some (specBandConfig, d, p)
  | .chainEnable d p => some (specChainEnable, d, p)
  | .txpwrSet d p => some (specTxpwrSet, d, p)
  | .femConfig d p => some (specFemConfig, d, p)
  | .rffeAccess d p => some (specRffeAccess, d, p)
  | .coexConfig d p => some (specCoexConfig, d, p)
  | .blankMap d p => some (specBlankMap, d, p)
  | .chainStatus d p => some (specChainStatus, d, p)
  | .factoryTest d p => some (specFactoryTest, d, p)
  | .spectrumSurvey d p => some (specSpectrumSurvey, d, p)
  | .soundingConfig d p => some (specSoundingConfig, d, p)
  | .precodeConfig d p => some (specPrecodeConfig, d, p)
  | .csiRead d p => some (specCsiRead, d, p)
  | .calRun d p => some (specCalRun, d, p)
  | .calStatus d p => some (specCalStatus, d, p)
  | .calSchedule d p => some (specCalSchedule, d, p)
  | .calTableRead d p => some (specCalTableRead, d, p)
  | .calTableStore d p => some (specCalTableStore, d, p)
  | .sliceStatus d p => some (specSliceStatus, d, p)
  | .staAdd d p => some (specStaAdd, d, p)
  | .staModify d p => some (specStaModify, d, p)
  | .staRemove d p => some (specStaRemove, d, p)
  | .staGet d p => some (specStaGet, d, p)
  | .acParamSet d p => some (specAcParamSet, d, p)
  | .turnPlanSet d p => some (specTurnPlanSet, d, p)
  | .airGateSet d p => some (specAirGateSet, d, p)
  | .beaconTemplate d p => some (specBeaconTemplate, d, p)
  | .linkSteer d p => some (specLinkSteer, d, p)
  | .policyBind d p => some (specPolicyBind, d, p)
  | .bfAdmit d p => some (specBfAdmit, d, p)
  | .bfModify d p => some (specBfModify, d, p)
  | .bfRelease d p => some (specBfRelease, d, p)
  | .bfStatus d p => some (specBfStatus, d, p)
  | .bfPledgeSet d p => some (specBfPledgeSet, d, p)
  | .bfStats d p => some (specBfStats, d, p)
  | .nbConfig d p => some (specNbConfig, d, p)
  | .nbChannelPlan d p => some (specNbChannelPlan, d, p)
  | .dwellConfig d p => some (specDwellConfig, d, p)
  | .tunerRun d p => some (specTunerRun, d, p)
  | .nbStats d p => some (specNbStats, d, p)
  | .nodeAdd d p => some (specNodeAdd, d, p)
  | .nodeRemove d p => some (specNodeRemove, d, p)
  | .nodeGet d p => some (specNodeGet, d, p)
  | .nbSend d p => some (specNbSend, d, p)
  | .floodConfig d p => some (specFloodConfig, d, p)
  | .heldStatus d p => some (specHeldStatus, d, p)
  | .parseConfig d p => some (specParseConfig, d, p)
  | .ruleWrite d p => some (specRuleWrite, d, p)
  | .ruleClear d p => some (specRuleClear, d, p)
  | .rangeSet d p => some (specRangeSet, d, p)
  | .patternWrite d p => some (specPatternWrite, d, p)
  | .policerSet d p => some (specPolicerSet, d, p)
  | .classStats d p => some (specClassStats, d, p)
  | .l2Add d p => some (specL2Add, d, p)
  | .l2Remove d p => some (specL2Remove, d, p)
  | .l2Flush d p => some (specL2Flush, d, p)
  | .routeAdd d p => some (specRouteAdd, d, p)
  | .routeRemove d p => some (specRouteRemove, d, p)
  | .routeBulk d p => some (specRouteBulk, d, p)
  | .nexthopSet d p => some (specNexthopSet, d, p)
  | .ecmpSet d p => some (specEcmpSet, d, p)
  | .agingSet d p => some (specAgingSet, d, p)
  | .fwdStats d p => some (specFwdStats, d, p)
  | .queueConfig d p => some (specQueueConfig, d, p)
  | .shaperSet d p => some (specShaperSet, d, p)
  | .gateListSet d p => some (specGateListSet, d, p)
  | .bufferConfig d p => some (specBufferConfig, d, p)
  | .chainPairSet d p => some (specChainPairSet, d, p)
  | .tmStats d p => some (specTmStats, d, p)
  | .keyUnwrap d p => some (specKeyUnwrap, d, p)
  | .keyErase d p => some (specKeyErase, d, p)
  | .kekProvision d p => some (specKekProvision, d, p)
  | .cmLevelSet d p => some (specCmLevelSet, d, p)
  | .keySlotInfo d p => some (specKeySlotInfo, d, p)
  | .kernelLoad d p => some (specKernelLoad, d, p)
  | .kernelStart d p => some (specKernelStart, d, p)
  | .kernelStop d p => some (specKernelStop, d, p)
  | .taskConfig d p => some (specTaskConfig, d, p)
  | .colObserveSet d p => some (specColObserveSet, d, p)
  | .massifStats d p => some (specMassifStats, d, p)
  | .dramConfig d p => some (specDramConfig, d, p)
  | .dramTrain d p => some (specDramTrain, d, p)
  | .dramMapSet d p => some (specDramMapSet, d, p)
  | .dramStatus d p => some (specDramStatus, d, p)
  | .freezeRead d p => some (specFreezeRead, d, p)
  | .ringConfig d p => some (specRingConfig, d, p)
  | .ringStatus d p => some (specRingStatus, d, p)
  | .ringTableSync d p => some (specRingTableSync, d, p)
  | .rendezvousSet d p => some (specRendezvousSet, d, p)
  | .logRead d p => some (specLogRead, d, p)
  | .faultRead d p => some (specFaultRead, d, p)
  | .counterRead d p => some (specCounterRead, d, p)
  | .statusRead d p => some (specStatusRead, d, p)
  | .watchdogSet d p => some (specWatchdogSet, d, p)
  | .logClear d p => some (specLogClear, d, p)
  | _ => none

end Sys2Proof.Claim
end

