-- ==== Sys2Proof/Certificates/Slice0/Obligations.lean ====
section
/-!
DEFINITION. The statements for the provers. A clause about a command says: where its conditions hold, exec answers a next state,
nothing changes but the named parts of the state, and what the rules say of those.
-/
open Sys2Proof Sys2Proof.Machine Sys2Proof.Claim

/-- With the supply or pin in the state from which the event can happen: POWER_ON leaves VDD_AON up, VDD_IO and PWR_OK low, the mode HOLD, every output high-impedance, MRAM and the fuses kept; VDD_IO_UP ends high impedance; VDD_IO_LOSS and POWER_OFF make every output high-impedance, POWER_OFF with the mode OFF and the fuses kept; PWR_OK_RISE lets the clocks run; PWR_OK_FALL and RESET_N_FALL enter HOLD: Summit stops, mailboxes, host rings and straps are at their reset values, MRAM is kept; RESET_N_RISE samples the straps, starts the boot sequence and the time of day, and clears the fault counters and the DRAM freeze record; KEEPER_STABLE marks the keeper stable. What no clause names stays. -/
def Obligations.SuppliesAndResetTakeEffect : Prop :=
  (∀ (s : State), (s.pwr.vddAon = false) →
    Does (exec .powerOn s) s [.pwr, .outs, .boot, .mbx, .host, .evt, .modes, .flt, .cad, .clk, .fe, .cal, .air, .nb, .mlad, .cls, .fwd, .tm, .cipher, .col, .dram, .ring] fun u => u.pwr.vddAon = true ∧ u.pwr.vddIo = false ∧ u.pwr.pwrOk = false ∧ u.modes.mode = 1 ∧ u.outs.z = true ∧ u.boot.mram = s.boot.mram ∧ u.cipher.kek0 = s.cipher.kek0 ∧ u.cipher.locked = s.cipher.locked ∧ u.mbx = {} ∧ u.flt.summitRun = false) ∧
  (∀ (s : State), (s.pwr.vddAon = true ∧ s.pwr.vddIo = false) →
    Does (exec .vddIoUp s) s [.pwr, .outs] fun u => u.pwr = { s.pwr with vddIo := true } ∧ u.outs.z = false ∧ u.outs.faultN = true ∧ u.outs.paen = 0 ∧ u.outs.nbPa = 0) ∧
  (∀ (s : State), (s.pwr.vddAon = true ∧ s.pwr.vddIo = true) →
    Does (exec .vddIoLoss s) s [.pwr, .outs] fun u => u.pwr = { s.pwr with vddIo := false } ∧ u.outs = outsZ) ∧
  (∀ (s : State), (s.pwr.vddAon = true) →
    Does (exec .powerOff s) s [.pwr, .outs, .boot, .mbx, .host, .evt, .modes, .flt, .cad, .clk, .fe, .cal, .air, .nb, .mlad, .cls, .fwd, .tm, .cipher, .col, .dram, .ring] fun u => u.pwr.vddAon = false ∧ u.modes.mode = 0 ∧ u.outs = outsZ ∧ u.boot.mram = s.boot.mram ∧ u.cipher.kek0 = s.cipher.kek0 ∧ u.cipher.locked = s.cipher.locked ∧ u.cipher.kcv = s.cipher.kcv ∧ u.flt.summitRun = false ∧ u.flt.counters = List.replicate 29 0) ∧
  (∀ (s : State), (s.pwr.vddAon = true ∧ s.pwr.vddIo = true ∧ s.pwr.pwrOk = false) →
    Does (exec .pwrOkRise s) s [.pwr, .outs] fun u => u.pwr = { s.pwr with pwrOk := true, refclkRf := true, refclkSerdes := true } ∧ u.outs.ringTx = .passThrough ∧ u.outs.faultN = true) ∧
  (∀ (s : State), (s.pwr.vddAon = true ∧ s.pwr.pwrOk = true) →
    Does (exec .pwrOkFall s) s [.pwr, .outs, .boot, .mbx, .host, .evt, .modes, .flt, .cad, .clk, .fe, .cal, .air, .nb, .mlad, .cls, .fwd, .tm, .cipher, .col, .dram, .ring] fun u => u.pwr.pwrOk = false ∧ u.modes.mode = 1 ∧ u.flt.summitRun = false ∧ u.mbx = {} ∧ u.host = {} ∧ u.air = {} ∧ u.cipher.kek0 = s.cipher.kek0 ∧ u.cipher.locked = s.cipher.locked) ∧
  (∀ (s : State), (s.pwr.vddAon = true ∧ s.pwr.pwrOk = true ∧ s.pwr.resetN = true) →
    Does (exec .resetNFall s) s [.pwr, .outs, .boot, .mbx, .host, .evt, .modes, .flt, .cad, .clk, .fe, .cal, .air, .nb, .mlad, .cls, .fwd, .tm, .cipher, .col, .dram, .ring] fun u => u.pwr.resetN = false ∧ u.pwr.gpioDir = 0 ∧ u.pwr.gpioPull = 0xFFFF ∧ u.modes.mode = 1 ∧ u.flt.summitRun = false ∧ u.mbx = {} ∧ u.host = {} ∧ u.ring = {} ∧ u.air = {} ∧ u.boot.mram = s.boot.mram ∧ u.cipher.kek0 = s.cipher.kek0 ∧ u.cipher.locked = s.cipher.locked) ∧
  (∀ (s : State) (profSel ringRole : BitVec 2) (ringId : BitVec 3) (bootHalt safeN : Bool), (s.modes.mode = 1 ∧ s.pwr.pwrOk = true ∧ s.pwr.vddIo = true ∧ s.pwr.resetN = false) →
    Does (exec (.resetNRise profSel ringRole ringId bootHalt safeN) s) s [.pwr, .boot, .flt, .cad, .nb, .dram] fun u => u.pwr = { s.pwr with resetN := true, profSel := profSel, ringRole := ringRole, ringId := ringId, bootHalt := bootHalt, safeN := safeN, refclkRf := true } ∧ u.boot.phase = .sequence ∧ u.boot.stage = 1 ∧ u.boot.sel = none ∧ u.flt.counters = List.replicate 29 0 ∧ u.flt.wdtMs = 100 ∧ u.flt.wdtResetMs = 1000 ∧ u.flt.autoMask = 0 ∧ u.nb = {} ∧ u.dram = { s.dram with freeze := [] } ∧ u.cad.run = true ∧ u.cad.source = (if ringRole = 0 ∨ ringRole = 2 then 2 else 0)) ∧
  (∀ (s : State), (s.pwr.vddAon = true) →
    Does (exec .keeperStable s) s [.pwr] fun u => u.pwr = { s.pwr with keeperStable := true })

/-- From modes BOOT to CALIBRATE, a brownout, a failed radio reference, a low SAFE_N, a reading at or above TJ_SHUTDOWN, a lockstep mismatch and the expiry of the first stage of the watchdog each lead to SAFE: the mode is 7, SAFE_CAUSE is the cause's code and the outputs are those of R698, with FAULT_N asserted and every PAEN, TRSW and LNAEN line, every DAC and every narrowband PA off. A missing radio reference during the boot sequence does so too. In SAFE, a low SAFE_N leaves mode, cause and outputs as they are and is counted. -/
def Obligations.FailSafeEventsEnterSafe : Prop :=
  (∀ (s : State) (rail : Nat), (s.pwr.pwrOk = true ∧ 2 ≤ s.modes.mode ∧ s.modes.mode ≤ 6 ∧ rail ≤ 2) →
    Does (exec (.brownout rail) s) s [.outs, .boot, .mbx, .host, .evt, .modes, .flt, .cad, .clk, .fe, .cal, .air, .nb, .mlad, .tm, .col, .dram, .ring, .out] fun u => u.modes.mode = 7 ∧ u.outs = outsSafe s ∧ u.flt.cause = 9) ∧
  (∀ (s : State), (s.pwr.pwrOk = true ∧ 2 ≤ s.modes.mode ∧ s.modes.mode ≤ 6) →
    Does (exec .refclkRfFail s) s [.pwr, .outs, .boot, .mbx, .host, .evt, .modes, .flt, .cad, .clk, .fe, .cal, .air, .nb, .mlad, .tm, .col, .dram, .ring, .out] fun u => u.modes.mode = 7 ∧ u.outs = outsSafe s ∧ u.flt.cause = 10 ∧ u.pwr.refclkRf = false ∧ u.pwr.onRc = true) ∧
  (∀ (s : State), (s.pwr.pwrOk = true ∧ s.boot.phase = .sequence ∧ 2 ≤ s.modes.mode ∧ s.modes.mode ≤ 6) →
    Does (exec .refclkRfTimeout s) s [.pwr, .outs, .boot, .mbx, .host, .evt, .modes, .flt, .cad, .clk, .fe, .cal, .air, .nb, .mlad, .tm, .col, .dram, .ring, .out] fun u => u.modes.mode = 7 ∧ u.outs = outsSafe s ∧ u.flt.cause = 10 ∧ u.pwr.refclkRf = false) ∧
  (∀ (s : State), (s.pwr.pwrOk = true ∧ s.boot.phase = .sequence ∧ s.modes.mode = 1) →
    Does (exec .refclkRfTimeout s) s [.pwr, .outs, .boot, .mbx, .host, .evt, .modes, .flt, .cad, .clk, .fe, .cal, .air, .nb, .mlad, .tm, .col, .dram, .ring, .out] fun u => u.modes.mode = 7 ∧ u.outs = outsSafe s ∧ u.flt.cause = 10) ∧
  (∀ (s : State), (2 ≤ s.modes.mode ∧ s.modes.mode ≤ 6) →
    Does (exec .safeNAssert s) s [.pwr, .outs, .boot, .mbx, .host, .evt, .modes, .flt, .cad, .clk, .fe, .cal, .air, .nb, .mlad, .tm, .col, .dram, .ring, .out] fun u => u.modes.mode = 7 ∧ u.outs = outsSafe s ∧ u.flt.cause = 1 ∧ u.pwr = { s.pwr with safeN := false }) ∧
  (∀ (s : State), (s.modes.mode = 7 ∧ s.boot.restarting = false ∧ s.flt.counters.length = 29) →
    Does (exec .safeNAssert s) s [.pwr, .outs, .boot, .mbx, .host, .evt, .modes, .flt, .cad, .clk, .fe, .cal, .air, .nb, .mlad, .tm, .col, .dram, .ring, .out] fun u => u.modes = s.modes ∧ u.outs = s.outs ∧ u.flt.cause = s.flt.cause ∧ u.pwr = { s.pwr with safeN := false } ∧ u.flt.counters = s.flt.counters.modify 0 fun c => BitVec.ofNat 32 (satAdd 32 c.toNat 1)) ∧
  (∀ (s : State) (sensor : Nat), (sensor < 3 ∧ 2 ≤ s.modes.mode ∧ s.modes.mode ≤ 6 ∧ 4 * (tjShutdown : Int) ≤ (tjs s).getD sensor 0) →
    Does (exec (.thermalShutdown sensor) s) s [.outs, .boot, .mbx, .host, .evt, .modes, .flt, .cad, .clk, .fe, .cal, .air, .nb, .mlad, .tm, .col, .dram, .ring, .out] fun u => u.modes.mode = 7 ∧ u.outs = outsSafe s ∧ u.flt.cause = 8) ∧
  (∀ (s : State) (pcA pcB : W32), (s.flt.summitRun = true ∧ 2 ≤ s.modes.mode ∧ s.modes.mode ≤ 6) →
    Does (exec (.lockstepMismatch pcA pcB) s) s [.outs, .boot, .mbx, .host, .evt, .modes, .flt, .cad, .clk, .fe, .cal, .air, .nb, .mlad, .tm, .col, .dram, .ring, .out] fun u => u.modes.mode = 7 ∧ u.outs = outsSafe s ∧ u.flt.cause = 3) ∧
  (∀ (s : State), (watchdogActs s = true ∧ s.modes.mode ≤ 6 ∧ s.flt.wdtMs ≠ 0 ∧ s.pwr.safeN = true) →
    Does (exec .wdtStage1Expiry s) s [.outs, .boot, .mbx, .host, .evt, .modes, .flt, .cad, .clk, .fe, .cal, .air, .nb, .mlad, .tm, .col, .dram, .ring, .out] fun u => u.modes.mode = 7 ∧ u.outs = outsSafe s ∧ u.flt.cause = 4)

/-- The second stage of the watchdog counts and restarts: the boot sequence begins with cause RESTART, Summit does not run, the outputs are in their SAFE states, and the time of day goes on. AUTO_RESTART_EXPIRY restarts when the cause is in AUTO_MASK, the record is written and the limit is not reached; at the limit the device stays in SAFE and notes it; before the record is written it waits. LAST_GASP_DONE makes the record valid, and the write counts as done for a stay in SAFE. AVAILABILITY_WRITE moves the whole seconds of the time spent in SERVE to SERVE_S and keeps the rest. HEARTBEAT_TICK advances HEARTBEAT by one. -/
def Obligations.RestartRowsTakeEffect : Prop :=
  (∀ (s : State) (safeN : Bool), (watchdogActs s = true ∧ s.flt.wdtResetMs ≠ 0 ∧ safeN = true) →
    Does (exec (.wdtResetExpiry safeN) s) s [.pwr, .outs, .boot, .mbx, .host, .evt, .modes, .flt, .cad, .clk, .fe, .cal, .air, .nb, .mlad, .cls, .fwd, .tm, .cipher, .col, .dram, .ring] fun u => u.modes.mode = 7 ∧ u.boot.phase = .sequence ∧ u.boot.restarting = true ∧ u.boot.cause = 5 ∧ u.flt.summitRun = false ∧ u.flt.wdtHit = true ∧ u.outs.faultN = true ∧ u.outs.paen = 0) ∧
  (∀ (s : State) (safeN : Bool), (s.modes.mode = 7 ∧ s.boot.restarting = false ∧ s.flt.cause ∈ [3, 4, 5, 6, 7, 9] ∧ s.flt.autoMask.getLsbD s.flt.cause = true ∧ safeN = true ∧ s.flt.gaspDone = true ∧ (recentAuto s).length < s.flt.autoLimit) →
    Does (exec (.autoRestartExpiry safeN) s) s [.pwr, .outs, .boot, .mbx, .host, .evt, .modes, .flt, .cad, .clk, .fe, .cal, .air, .nb, .mlad, .cls, .fwd, .tm, .cipher, .col, .dram, .ring] fun u => u.modes.mode = 7 ∧ u.boot.phase = .sequence ∧ u.boot.restarting = true ∧ u.flt.summitRun = false ∧ u.flt.autoTimes = (nowNs s / 10 ^ 9) :: recentAuto s) ∧
  (∀ (s : State) (safeN : Bool), (s.modes.mode = 7 ∧ s.boot.restarting = false ∧ s.flt.cause ∈ [3, 4, 5, 6, 7, 9] ∧ s.flt.autoMask.getLsbD s.flt.cause = true ∧ safeN = true ∧ s.flt.gaspDone = true ∧ s.flt.autoLimit ≤ (recentAuto s).length) →
    Does (exec (.autoRestartExpiry safeN) s) s [.pwr, .outs, .boot, .mbx, .host, .evt, .modes, .flt, .cad, .clk, .fe, .cal, .air, .nb, .mlad, .cls, .fwd, .tm, .cipher, .col, .dram, .ring] fun u => u.modes = s.modes ∧ u.boot = s.boot ∧ u.flt = { s.flt with autoTimes := recentAuto s, limitHit := true, autoDue := false }) ∧
  (∀ (s : State) (safeN : Bool), (s.modes.mode = 7 ∧ s.boot.restarting = false ∧ s.flt.cause ∈ [3, 4, 5, 6, 7, 9] ∧ s.flt.autoMask.getLsbD s.flt.cause = true ∧ safeN = true ∧ s.flt.gaspDone = false) →
    Does (exec (.autoRestartExpiry safeN) s) s [.pwr, .outs, .boot, .mbx, .host, .evt, .modes, .flt, .cad, .clk, .fe, .cal, .air, .nb, .mlad, .cls, .fwd, .tm, .cipher, .col, .dram, .ring] fun u => u.modes = s.modes ∧ u.boot = s.boot ∧ u.flt = { s.flt with autoDue := true }) ∧
  (∀ (s : State) (slot : Nat) (head : List Byte) (loss : Bool), (s.flt.gasp = .writing slot head loss ∧ s.flt.autoDue = false) →
    Does (exec .lastGaspDone s) s [.pwr, .outs, .boot, .mbx, .host, .evt, .modes, .flt, .cad, .clk, .fe, .cal, .air, .nb, .mlad, .cls, .fwd, .tm, .cipher, .col, .dram, .ring] fun u => u.flt.recValid = true ∧ u.flt.gaspDone = true ∧ u.flt.newest = some slot ∧ u.flt.faultSeq = s.flt.faultSeq + 1 ∧ u.modes = s.modes ∧ u.flt.gasp = (if s.modes.mode = 7 ∧ s.boot.restarting = false then .done slot loss else .idle)) ∧
  (∀ (s : State) (since : Nat), (s.flt.summitRun = true ∧ s.flt.serveFrom = some since) →
    Does (exec .availabilityWrite s) s [.flt] fun u => u.flt.serveS = s.flt.serveS + (s.flt.serveNs + (nowNs s - since)) / 10 ^ 9 ∧ u.flt.serveNs = (s.flt.serveNs + (nowNs s - since)) % 10 ^ 9 ∧ u.flt.serveFrom = some (nowNs s)) ∧
  (∀ (s : State), (s.flt.summitRun = true) →
    Does (exec .heartbeatTick s) s [.evt, .flt] fun u => u.flt = { s.flt with heartbeat := s.flt.heartbeat + 1 } ∧ u.evt = { s.evt with asleep := false })

/-- A lost PCIe reference or PERST_N low takes the link down; PERST_N low also resets every host ring's configuration, the MSI-X table and the pending bits, and leaves the mode; PERST_N high from BOOT on starts link training; the link comes up out of training. WAKE_N in VIGIL with its source enabled and no transition running starts the way to WARM_TARGET; a disabled source does nothing. The keeper alarm in VIGIL is taken once. -/
def Obligations.LinkAndWakePinsTakeEffect : Prop :=
  (∀ (s : State), Does (exec .pcieRefclkFail s) s [.pwr, .host] fun u => u.host = { s.host with link := false, training := false } ∧ u.pwr = { s.pwr with refclkPcie := false }) ∧
  (∀ (s : State), Does (exec .pciePerstAssert s) s [.pwr, .host] fun u => u.pwr = { s.pwr with perstN := false } ∧ u.host.link = false ∧ u.host.training = false ∧ u.host.msixTable = [] ∧ u.host.msixPend = 0 ∧ u.host.rings = s.host.rings.map (fun g => (g.1, g.2.afterPerst g.1)) ∧ u.modes = s.modes) ∧
  (∀ (s : State), (2 ≤ s.modes.mode) →
    Does (exec .pciePerstRelease s) s [.pwr, .host] fun u => u.pwr = { s.pwr with perstN := true } ∧ u.host = { s.host with training := true }) ∧
  (∀ (s : State), (s.host.training = true ∧ s.pwr.perstN = true ∧ 2 ≤ s.modes.mode ∧ s.boot.restarting = false) →
    Does (exec .pcieLinkUp s) s [.pwr, .host] fun u => u.host = { s.host with link := true, training := false } ∧ u.pwr = { s.pwr with refclkPcie := true }) ∧
  (∀ (s : State), (s.modes.mode = 3 ∧ s.modes.wakeSources.getLsbD 0 = true ∧ s.modes.trans = none ∧ s.modes.warmTarget ≤ 7) →
    Does (exec .wakeNAssert s) s [.boot, .mbx, .host, .evt, .modes, .clk, .ring, .out] fun u => (u.modes.trans.isSome = true → u.modes.target = s.modes.warmTarget) ∧ u.modes.mode = 3) ∧
  (∀ (s : State), (s.modes.wakeSources.getLsbD 0 = false) →
    Does (exec .wakeNAssert s) s [.boot, .mbx, .host, .evt, .modes, .clk, .ring, .out] fun u => u = s) ∧
  (∀ (s : State), (s.clk.alarm.isSome = true ∧ s.modes.mode = 3 ∧ s.modes.wakeSources.getLsbD 4 = false) →
    Does (exec .keeperAlarm s) s [.boot, .mbx, .host, .evt, .modes, .clk, .ring, .out] fun u => u.clk = { s.clk with alarm := none } ∧ u.modes = s.modes)

/-- When the boot sequence ends with the references present and SAFE_N high (or after a restart), Summit runs and, with a passed self test, the device is in BOOT or on its way beyond it, no longer restarting; with a failed self test it is in SAFE with cause 11. REPLAY_RESUME does nothing outside the replay; with no record left it ends a PROFILE_LOAD's replay in BOOT-ready. -/
def Obligations.BootSequenceTakesEffect : Prop :=
  (∀ (s : State) (selfTestOk : Bool), (s.boot.phase = .sequence ∧ s.pwr.refclkRf = true ∧ s.pwr.pwrOk = true ∧ 2 ≤ s.modes.mode ∧ s.modes.mode ≤ 6 ∧ selfTestOk = false) →
    Does (exec (.bootSequenceDone selfTestOk) s) s [.pwr, .outs, .boot, .mbx, .host, .evt, .modes, .flt, .cad, .clk, .fe, .cal, .air, .nb, .mlad, .tm, .cipher, .col, .dram, .ring, .out] fun u => u.modes.mode = 7 ∧ u.flt.cause = 11 ∧ u.pwr.onRc = false ∧ u.outs = outsSafe s) ∧
  (∀ (s : State) (selfTestOk : Bool), (s.boot.phase = .sequence ∧ s.pwr.refclkRf = true ∧ s.pwr.pwrOk = true ∧ selfTestOk = true ∧ (s.boot.restarting = true ∨ s.pwr.safeN = true)) →
    Does (exec (.bootSequenceDone selfTestOk) s) s [.pwr, .outs, .boot, .mbx, .host, .evt, .modes, .flt, .cad, .clk, .fe, .cal, .air, .nb, .mlad, .tm, .cipher, .col, .dram, .ring, .out] fun u => ∃ w, u = reachBoot w ∧ w.flt.summitRun = true ∧ w.pwr = { s.pwr with onRc := false } ∧ w.modes = s.modes) ∧
  (∀ (s : State), (s.boot.phase ≠ .replay) →
    Does (exec .replayResume s) s [.pwr, .outs, .boot, .mbx, .host, .evt, .modes, .flt, .cad, .clk, .fe, .cal, .air, .nb, .mlad, .cls, .fwd, .tm, .cipher, .col, .dram, .ring, .drawn, .out] fun u => u = s) ∧
  (∀ (s : State), (s.boot.phase = .replay ∧ s.boot.waitLong = false ∧ s.boot.recCount ≤ s.boot.recIdx ∧ s.boot.loader.isSome = true) →
    Does (exec .replayResume s) s [.pwr, .outs, .boot, .mbx, .host, .evt, .modes, .flt, .cad, .clk, .fe, .cal, .air, .nb, .mlad, .cls, .fwd, .tm, .cipher, .col, .dram, .ring, .drawn, .out] fun u => u.boot = { s.boot with phase := .ready, stage := 6, waitLong := false, recStatus := none })

/-- A write over the link to a CMD word of a mailbox that the host may write lands there; MB_CTRL takes IRQ_EN, MSIX_VEC and, on MB2 only, HOST_WRITE_EN; a push window takes the word; the W1C bits of a ring clear; an unaligned or out-of-range access is counted. Reads of DROP_COUNT clear it. With a live ring and an index in range HOST_IDX is taken. The service port reads the bytes of the service map and the flags before the read; a write with a bad CRC or outside MB2's writable locations is counted and rejected; a write that lands in CMD of MB2 is taken. -/
def Obligations.RegisterAccessTakesEffect : Prop :=
  (∀ (s : State) (bar : Bool) (off : Nat) (v : W32), (s.host.link = true ∧ bar = false ∧ off % 4 = 0 ∧ off < 0x200 ∧ s.mbx.pages.length = 4) →
    Does (exec (.registerWrite bar off v) s) s [.pwr, .outs, .boot, .mbx, .host, .evt, .modes, .flt, .cad, .clk, .fe, .cal, .air, .nb, .mlad, .cls, .fwd, .tm, .cipher, .col, .dram, .ring, .drawn, .out] fun u => (getPage u 0).cmd = patch (getPage s 0).cmd off (le 4 v.toNat) ∧ u.host = { s.host with reply := .none }) ∧
  (∀ (s : State) (bar : Bool) (off : Nat) (v : W32) (mb : Nat), (s.host.link = true ∧ bar = false ∧ off = 0x1000 * mb + 0x40C ∧ mb ≤ 3 ∧ s.mbx.pages.length = 4) →
    Does (exec (.registerWrite bar off v) s) s [.pwr, .outs, .boot, .mbx, .host, .evt, .modes, .flt, .cad, .clk, .fe, .cal, .air, .nb, .mlad, .cls, .fwd, .tm, .cipher, .col, .dram, .ring, .drawn, .out] fun u => (getPage u mb).vec = v.setWidth 7 ∧ (getPage u mb).irqEn = v.getLsbD 7 ∧ (getPage u mb).hostWriteEn = (mb == 2 && v.getLsbD 8) ∧ (getPage u mb).cmd = (getPage s mb).cmd) ∧
  (∀ (s : State) (bar : Bool) (off : Nat) (v : W32), (s.host.link = true ∧ bar = true ∧ off % 4 = 0 ∧ 0x40000 ≤ off ∧ off < 0xC0000) →
    Does (exec (.registerWrite bar off v) s) s [.pwr, .outs, .boot, .mbx, .host, .evt, .modes, .flt, .cad, .clk, .fe, .cal, .air, .nb, .mlad, .cls, .fwd, .tm, .cipher, .col, .dram, .ring, .drawn, .out] fun u => u.host = { s.host with push := memWrite s.host.push (off - 0x40000) (le 4 v.toNat), reply := .none } ∧ u.mbx = s.mbx) ∧
  (∀ (s : State) (bar : Bool) (off : Nat) (v : W32), (s.host.link = true ∧ off % 4 ≠ 0 ∧ s.flt.counters.length = 29) →
    Does (exec (.registerWrite bar off v) s) s [.pwr, .outs, .boot, .mbx, .host, .evt, .modes, .flt, .cad, .clk, .fe, .cal, .air, .nb, .mlad, .cls, .fwd, .tm, .cipher, .col, .dram, .ring, .drawn, .out] fun u => u.flt.counters = s.flt.counters.modify 25 (fun c => BitVec.ofNat 32 (satAdd 32 c.toNat 1)) ∧ u.mbx = s.mbx ∧ u.host = { s.host with reply := .none }) ∧
  (∀ (s : State) (write : Bool), (s.host.link = true) →
    Does (exec (.barBadAccess write) s) s [.host, .flt] fun u => u.flt.counters = s.flt.counters.modify 25 (fun c => BitVec.ofNat 32 (satAdd 32 c.toNat 1)) ∧ u.host = { s.host with reply := if write then .none else .unsupported }) ∧
  (∀ (s : State) (ring : BitVec 6), (s.host.link = true) →
    Does (exec (.dropCountRead ring) s) s [.host] fun u => (getRing u ring.toNat).dropCount = 0 ∧ u.host.reply = .data (le 4 (getRing s ring.toNat).dropCount.toNat)) ∧
  (∀ (s : State) (ring : BitVec 6) (v : W32), (s.host.link = true ∧ (getRing s ring.toNat).enabled = true ∧ (getRing s ring.toNat).stopped = false ∧ (getRing s ring.toNat).type ≠ 3 ∧ (v.setWidth 16 - (getRing s ring.toNat).devIdx).toNat ≤ (getRing s ring.toNat).size - 1) →
    Does (exec (.hostIdxWrite ring v) s) s [.boot, .host, .evt, .clk, .out] fun u => getRing u ring.toNat = { getRing s ring.toNat with hostIdx := v.setWidth 16 } ∧ u.evt = s.evt) ∧
  (∀ (s : State) (addr : BitVec 24) (count : Nat), (s.modes.mode ≠ 0 ∧ s.outs.z = false) →
    Does (exec (.svcRead addr count) s) s [.host] fun u => u.host = { s.host with reply := .data ((List.range count).map fun i => svcByte s ((addr.toNat + i) % 2 ^ 24)), svcFlags := svcFlagsNow s }) ∧
  (∀ (s : State) (addr : BitVec 24) (data : List Byte) (crcOk : Bool), (s.modes.mode ≠ 0 ∧ s.outs.z = false ∧ crcOk = false) →
    Does (exec (.svcWrite addr data crcOk) s) s [.pwr, .outs, .boot, .mbx, .host, .evt, .modes, .flt, .cad, .clk, .fe, .cal, .air, .nb, .mlad, .cls, .fwd, .tm, .cipher, .col, .dram, .ring, .drawn, .out] fun u => u.flt.counters = s.flt.counters.modify 27 (fun c => BitVec.ofNat 32 (satAdd 32 c.toNat 1)) ∧ u.mbx = { s.mbx with svcRejected := true } ∧ u.host = { s.host with reply := .none, svcFlags := svcFlagsNow s }) ∧
  (∀ (s : State) (addr : BitVec 24) (data : List Byte) (crcOk : Bool) (v : Byte), (s.modes.mode ≠ 0 ∧ s.outs.z = false ∧ crcOk = true ∧ data = [v] ∧ 0x2000 ≤ addr.toNat ∧ addr.toNat < 0x2200 ∧ s.mbx.pages.length = 4) →
    Does (exec (.svcWrite addr data crcOk) s) s [.pwr, .outs, .boot, .mbx, .host, .evt, .modes, .flt, .cad, .clk, .fe, .cal, .air, .nb, .mlad, .cls, .fwd, .tm, .cipher, .col, .dram, .ring, .drawn, .out] fun u => (getPage u 2).cmd = setAt (getPage s 2).cmd (addr.toNat - 0x2000) v ∧ u.mbx.svcRejected = false ∧ u.host = { s.host with reply := .none, svcFlags := svcFlagsNow s }) ∧
  (∀ (s : State) (addr : BitVec 24) (data : List Byte) (crcOk : Bool), (s.modes.mode ≠ 0 ∧ s.outs.z = false ∧ crcOk = true ∧ data ≠ [] ∧ addr.toNat < 0x2000) →
    Does (exec (.svcWrite addr data crcOk) s) s [.pwr, .outs, .boot, .mbx, .host, .evt, .modes, .flt, .cad, .clk, .fe, .cal, .air, .nb, .mlad, .cls, .fwd, .tm, .cipher, .col, .dram, .ring, .drawn, .out] fun u => u.flt.counters = s.flt.counters.modify 28 (fun c => BitVec.ofNat 32 (satAdd 32 c.toNat 1)) ∧ u.mbx = { s.mbx with svcRejected := true })

/-- A packet at the head of a live PKT_RX ring's queue whose posted buffers hold it leaves the queue; one whose buffers are too few is dropped and counted. A disabled ring's indices are zero once it has drained. At the end of a moderation interval with completions waiting the count restarts; with none the interval ends. A PKT_TX packet whose descriptors could not be fetched stops the ring with its cause. -/
def Obligations.HostRingRowsTakeEffect : Prop :=
  (∀ (s : State) (ring : BitVec 6) (bufs : List RxBuf) (k : HostPkt) (rest : List HostPkt), ((getRing s ring.toNat).queue = k :: rest ∧ (getRing s ring.toNat).enabled = false) →
    Does (exec (.hostRingWrite ring bufs) s) s [.boot, .host, .evt, .clk, .tm, .out] fun u => (getRing u ring.toNat).queue = rest ∧ (getRing u ring.toNat).dropCount = (getRing s ring.toNat).dropCount + 1 ∧ (getRing u ring.toNat).overflow = true) ∧
  (∀ (s : State) (ring : BitVec 6) (bufs : List RxBuf) (k : HostPkt) (rest : List HostPkt) (b : RxBuf), ((getRing s ring.toNat).queue = k :: rest ∧ (getRing s ring.toNat).enabled = true ∧ (getRing s ring.toNat).stopped = false ∧ (getRing s ring.toNat).type = 2 ∧ (getRing s ring.toNat).hostIdx = (getRing s ring.toNat).devIdx + 1 ∧ bufs = [b] ∧ 256 ≤ b.len ∧ b.len ≤ 9216 ∧ k.bytes ≠ [] ∧ k.bytes.length ≤ b.len) →
    Does (exec (.hostRingWrite ring bufs) s) s [.boot, .host, .evt, .clk, .tm, .out] fun u => (getRing u ring.toNat).queue = rest ∧ (getRing u ring.toNat).devIdx = (getRing s ring.toNat).devIdx + 1 ∧ (getRing u ring.toNat).dropCount = (getRing s ring.toNat).dropCount) ∧
  (∀ (s : State) (ring : BitVec 6) (c : Cmd), ((getRing s ring.toNat).disabling = some c) →
    Does (exec (.hrDisableDrained ring) s) s [.boot, .mbx, .host, .evt, .clk, .ring, .out] fun u => ∃ w, u = post c .ok w ∧ getRing w ring.toNat = { getRing s ring.toNat with enabled := false, stopped := false, hostIdx := 0, devIdx := 0, disabling := none, queue := [], sinceVec := 0, modRunning := false }) ∧
  (∀ (s : State) (ring : BitVec 6), ((getRing s ring.toNat).modRunning = true ∧ 0 < (getRing s ring.toNat).sinceVec) →
    Does (exec (.msixModerationExpiry ring) s) s [.host, .out] fun u => (getRing u ring.toNat).sinceVec = 0 ∧ (getRing u ring.toNat).modRunning = true) ∧
  (∀ (s : State) (ring : BitVec 6), ((getRing s ring.toNat).modRunning = true ∧ (getRing s ring.toNat).sinceVec = 0) →
    Does (exec (.msixModerationExpiry ring) s) s [.host, .out] fun u => getRing u ring.toNat = { getRing s ring.toNat with modRunning := false }) ∧
  (∀ (s : State) (ring : BitVec 6) (descs : List TxDesc) (payload : List Byte) (dmaOk : Bool) (l : List TxDesc), (s.host.link = true ∧ (getRing s ring.toNat).enabled = true ∧ (getRing s ring.toNat).stopped = false ∧ (getRing s ring.toNat).type = 1 ∧ domOn s 3 = true ∧ packetDescs (fetchedDescs ring.toNat descs s) = some l ∧ l.length ≤ ((getRing s ring.toNat).hostIdx - (getRing s ring.toNat).devIdx).toNat ∧ dmaOk = true ∧ l.find? (fun d => !txOk d) = none ∧ sumOf (l.map fun d => txFld d 8 2) ≤ 9216 ∧ (hostDeliver ring.toNat (l.headD { bytes := [] }) (pad (sumOf (l.map fun d => txFld d 8 2)) payload) s).1 = true) →
    Does (exec (.hostTxPacket ring descs payload dmaOk) s) s [.boot, .host, .evt, .clk, .air, .nb, .mlad, .cls, .tm, .cipher, .dram, .ring, .drawn, .out] fun u => ∃ w, (hostDeliver ring.toNat (l.headD { bytes := [] }) (pad (sumOf (l.map fun d => txFld d 8 2)) payload) s).2 = w ∧ u = ringPublish ring.toNat l.length (onRingN ring.toNat (fun g => { g with devIdx := g.devIdx + BitVec.ofNat 16 l.length, completions := g.completions + BitVec.ofNat 32 l.length }) w)) ∧
  (∀ (s : State) (ring : BitVec 6) (descs : List TxDesc) (payload : List Byte) (dmaOk : Bool) (l : List TxDesc), (s.host.link = true ∧ (getRing s ring.toNat).enabled = true ∧ (getRing s ring.toNat).stopped = false ∧ (getRing s ring.toNat).type = 1 ∧ domOn s 3 = true ∧ packetDescs (fetchedDescs ring.toNat descs s) = some l ∧ l.length ≤ ((getRing s ring.toNat).hostIdx - (getRing s ring.toNat).devIdx).toNat ∧ dmaOk = false) →
    Does (exec (.hostTxPacket ring descs payload dmaOk) s) s [.boot, .host, .evt, .clk, .air, .nb, .mlad, .cls, .tm, .cipher, .dram, .ring, .drawn, .out] fun u => (getRing u ring.toNat).stopped = true ∧ (getRing u ring.toNat).error = true ∧ (getRing u ring.toNat).errCause = 3 ∧ u.drawn = s.drawn + 1)

/-- While no supervisor runs, a command written to an idle mailbox is recorded with its header's verdict; a doorbell of a busy mailbox sets OVERRUN, is counted, and starts nothing; a recorded command is served once Summit runs, the page BUSY. A long command whose objects are free and that nothing turns away starts. A domain that has woken is on (or on demand) and what stalled on it goes on. The oldest COMMAND of the ring is written into an idle MB3. SYS_RESTART in MB2, well formed and confirmed outside HOLD with SAFE_N high and no hot sensor, restarts the device: the mode reads SAFE, the boot sequence runs, Summit does not. -/
def Obligations.WaitingCommandsTakeEffect : Prop :=
  (∀ (s : State) (op : W16) (d : Doorbell) (p : List Byte), (s.flt.summitRun = false ∧ d.mb.val < s.mbx.pages.length ∧ (getPage s d.mb.val).recorded = none ∧ mayWrite d.mb.val d.path s = true ∧ d.mb.val ≠ 2) →
    Does (exec (.commandRecorded op d p) s) s [.pwr, .outs, .boot, .mbx, .host, .evt, .modes, .flt, .cad, .clk, .fe, .cal, .air, .nb, .mlad, .cls, .fwd, .tm, .cipher, .col, .dram, .ring, .drawn, .out] fun u => ∃ r, (getPage u d.mb.val).recorded = some r ∧ r.cmd = copyCmd d.mb.val d.path d.value (patch (getPage s d.mb.val).cmd 0 (cmdArea op.toNat d p)) ∧ r.hdrOk = hdrOk (patch (getPage s d.mb.val).cmd 0 (cmdArea op.toNat d p)) ∧ (getPage u d.mb.val).doorbell = d.value) ∧
  (∀ (s : State) (op : W16) (d : Doorbell) (p : List Byte), (s.flt.summitRun = true ∧ d.mb.val < s.mbx.pages.length ∧ (getPage s d.mb.val).busy = true ∧ mayWrite d.mb.val d.path s = true ∧ d.mb.val ≠ 2) →
    Does (exec (.doorbellOverrun op d p) s) s [.pwr, .outs, .boot, .mbx, .host, .evt, .modes, .flt, .cad, .clk, .fe, .cal, .air, .nb, .mlad, .cls, .fwd, .tm, .cipher, .col, .dram, .ring, .drawn, .out] fun u => (getPage u d.mb.val).overrun = true ∧ (getPage u d.mb.val).busy = true ∧ (getPage u d.mb.val).rsp = (getPage s d.mb.val).rsp ∧ u.mbx.longs = s.mbx.longs ∧ u.flt.counters = s.flt.counters.modify 26 (fun c => BitVec.ofNat 32 (satAdd 32 c.toNat 1))) ∧
  (∀ (s : State) (mb : Fin 4) (r : Recorded), ((getPage s mb.val).recorded = some r ∧ s.flt.summitRun = true ∧ (getPage s mb.val).busy = false) →
    exec (.recordedCommandTaken mb) s = .next (serve (specOf r.cmd.op) r.cmd r.seqOk r.hdrOk (onPage mb.val (fun g => { g with recorded := none, busy := true, done := false, cairnDone := false }) s))) ∧
  (∀ (s : State) (l : LongCmd) (o : OpSpec), (s.mbx.longs.find? (fun l => !l.started && !anyHeld s l.objs) = some l ∧ specOf l.cmd.op = some o ∧ startFails o l.cmd s = none ∧ (o.needs l.cmd).find? (fun d => (getDom s d).st = 0 || (getDom s d).st = 2) = none ∧ (o.body l.cmd (s.onMbx fun m => { m with longs := m.longs.erase l })).1.status = 1) →
    Does (exec .longCommandDeferredStart s) s [.pwr, .outs, .boot, .mbx, .host, .evt, .modes, .flt, .cad, .clk, .fe, .cal, .air, .nb, .mlad, .cls, .fwd, .tm, .cipher, .col, .dram, .ring, .drawn, .out] fun u => ∃ m ∈ u.mbx.longs, m.cmd = l.cmd ∧ m.objs = l.objs ∧ m.started = true ∧ m.startNs = nowNs s) ∧
  (∀ (s : State) (dom : Fin 8) (us : Nat) (selfTest : Option (Nat × Nat)), ((getDom s dom.val).st = 2 ∧ s.modes.doms.length = 8 ∧ dom.val ≠ 3 ∧ s.mbx.stalled.filter (·.dom == dom.val) = []) →
    Does (exec (.domainWakeDone dom us selfTest) s) s [.pwr, .outs, .boot, .mbx, .host, .evt, .modes, .flt, .cad, .clk, .fe, .cal, .air, .nb, .mlad, .cls, .fwd, .tm, .cipher, .col, .dram, .ring, .drawn, .out] fun u => getDom u dom.val = { getDom s dom.val with st := if domNeeded dom.val s then 1 else 3, retrying := false, wakes := satAdd 32 (getDom s dom.val).wakes 1, lastUs := min 0xFFFFFFFF us } ∧ u.mbx.stalled = s.mbx.stalled.filter (·.dom != dom.val)) ∧
  (∀ (s : State) (f : List Byte) (rest : List (List Byte)), (s.ring.held = f :: rest ∧ (getPage s 3).busy = false ∧ s.flt.summitRun = true) →
    Does (exec .mb3CommandInject s) s [.pwr, .outs, .boot, .mbx, .host, .evt, .modes, .flt, .cad, .clk, .fe, .cal, .air, .nb, .mlad, .cls, .fwd, .tm, .cipher, .col, .dram, .ring, .drawn, .out] fun u => ∃ w, w.ring.held = rest ∧ w.ring.back = s.ring.back ++ [(rfOrigin f, BitVec.ofNat 16 (fld (rfBody f) 4 2))] ∧ u = bell 3 .ring (BitVec.ofNat 16 (fld (rfBody f) 4 2)) (onPage 3 (fun g => { g with cmd := patch g.cmd 0 (pad 512 (rfBody f)) }) w)) ∧
  (∀ (s : State) (d : Doorbell) (p : List Byte) (safeN : Bool), (d.mb.val = 2 ∧ mayWrite 2 d.path s = true ∧ s.mbx.pages.length = 4 ∧ (cmdOf specSysRestart d p s).op = 0x0102 ∧ fld (area specSysRestart d p s) 4 2 = d.value.toNat ∧ hdrOk (area specSysRestart d p s) = true ∧ specSysRestart.rsv (cmdOf specSysRestart d p s) = true ∧ (cmdOf specSysRestart d p s).u 20 4 = 0x52535452 ∧ s.modes.mode ≠ 1 ∧ safeN = true ∧ tooHot s = false) →
    Does (exec (.sysRestart d p safeN) s) s [.pwr, .outs, .boot, .mbx, .host, .evt, .modes, .flt, .cad, .clk, .fe, .cal, .air, .nb, .mlad, .cls, .fwd, .tm, .cipher, .col, .dram, .ring, .drawn, .out] fun u => u.modes.mode = 7 ∧ u.boot.phase = .sequence ∧ u.boot.restarting = true ∧ u.boot.cause = 5 ∧ u.flt.summitRun = false ∧ u.outs.faultN = true ∧ u.outs.paen = 0)

/-- Where nothing turns the command away, each opcode of family 0x01 is answered, or accepted as a long command, with the data and the effect of its rule: IDENTIFY gives the device's identity; PROFILE_SELECT stores the selection; PROFILE_READ gives the bytes of MRAM; PROFILE_STAGE takes the staging buffer for its mailbox and writes the bytes; PROFILE_STORE writes COMMIT as 0 and keeps the image to be written; PROFILE_LOAD without replay keeps the profile to be verified; HR_CONFIG enables a ring with its fields or begins to disable it; HR_STATUS gives its state; EVENT_ROUTE sets the family's route; GPIO_SET changes the masked bits; GPIO_GET gives directions, levels and pull-downs. -/
def Obligations.Family01CommandsAnswer : Prop :=
  (∀ (s : State) (d : Doorbell) (p : List Byte), Ready specIdentify d p s → Answers (exec (.identify d p) s) specIdentify d p s [.mbx, .evt] (.ok (le 2 0x3192 ++ [0xB1] ++ le 1 (b2n Config.xb) ++ [3, 2, 3, 2] ++ le 8 Config.serial.toNat ++ le 1 (strapsByte s) ++ le 1 (b2n s.pwr.bootHalt + 2 * b2n (s.modes.mode == 2 && s.boot.phase == .ready) + 4 * b2n s.boot.replayFailed) ++ le 1 s.boot.active.toNat ++ le 1 s.modes.mode ++ le 1 (b2n (profReason s 0 = 0) + 2 * b2n (profReason s 1 = 0) + 4 * b2n (profReason s 2 = 0) + 8 * b2n (profReason s 3 = 0)) ++ le 2 Config.vendorId.toNat ++ [0] ++ ((List.range 4).flatMap fun n => le 4 (if profReason s n = 0 then profFld s n 12 4 else 0)))) fun u => u.boot = s.boot ∧ u.modes = s.modes) ∧
  (∀ (s : State) (d : Doorbell) (p : List Byte), Ready specProfileSelect d p s → let c := cmdOf specProfileSelect d p s
    (c.u 16 1 ≤ 3) →
    Answers (exec (.profileSelect d p) s) specProfileSelect d p s [.boot, .mbx, .evt] (.ok) fun u => u.boot = { s.boot with sel := some (BitVec.ofNat 2 (c.u 16 1)) }) ∧
  (∀ (s : State) (d : Doorbell) (p : List Byte), Ready specProfileRead d p s → let c := cmdOf specProfileRead d p s
    (c.u 16 1 ≤ 3 ∧ c.u 18 2 % 4 = 0 ∧ 4 ≤ c.u 18 2 ∧ c.u 18 2 ≤ 480 ∧ c.u 20 4 % 4 = 0 ∧ c.u 20 4 + c.u 18 2 ≤ 65536) →
    Answers (exec (.profileRead d p) s) specProfileRead d p s [.mbx, .evt] (.ok (memRead s.boot.mram (0x10000 * c.u 16 1 + c.u 20 4) (c.u 18 2))) fun u => u.boot = s.boot) ∧
  (∀ (s : State) (d : Doorbell) (p : List Byte), Ready specProfileStage d p s → let c := cmdOf specProfileStage d p s
    (s.boot.stageOwner = none ∧ c.u 16 4 = 0 ∧ c.u 20 2 % 4 = 0 ∧ 4 ≤ c.u 20 2 ∧ c.u 20 2 ≤ 480 ∧ c.par.length = 8 + c.u 20 2) →
    Answers (exec (.profileStage d p) s) specProfileStage d p s [.boot, .mbx, .evt] (.ok) fun u => u.boot = { s.boot with stageOwner := some c.mb, stageBuf := memWrite [] 0 (c.bytes 24 (c.u 20 2)) }) ∧
  (∀ (s : State) (d : Doorbell) (p : List Byte), Ready specProfileStage d p s → let c := cmdOf specProfileStage d p s
    (s.boot.stageOwner = some c.mb ∧ c.u 16 4 % 4 = 0 ∧ 0 < c.u 16 4 ∧ c.u 16 4 + c.u 20 2 ≤ 65536 ∧ c.u 20 2 % 4 = 0 ∧ 4 ≤ c.u 20 2 ∧ c.u 20 2 ≤ 480 ∧ c.par.length = 8 + c.u 20 2) →
    Answers (exec (.profileStage d p) s) specProfileStage d p s [.boot, .mbx, .evt] (.ok) fun u => u.boot = { s.boot with stageBuf := memWrite s.boot.stageBuf (c.u 16 4) (c.bytes 24 (c.u 20 2)) }) ∧
  (∀ (s : State) (d : Doorbell) (p : List Byte), Ready specProfileStore d p s → pendingOf s d.mb.val < 32 → let c := cmdOf specProfileStore d p s
    (c.u 16 1 ≤ 3 ∧ s.boot.stageOwner = some c.mb ∧ stagedBad (memRead s.boot.stageBuf 0 65536) = none) →
    Accepts (exec (.profileStore d p) s) specProfileStore d p s [.boot, .mbx, .evt] fun u => u.boot = { s.boot with mram := memWrite s.boot.mram (0x10000 * c.u 16 1 + 60) [0, 0, 0, 0], storeJobs := Tab.set s.boot.storeJobs (c.u 16 1) (storedImage (c.u 16 1) (memRead s.boot.stageBuf 0 65536) s) }) ∧
  (∀ (s : State) (d : Doorbell) (p : List Byte), Ready specProfileLoad d p s → pendingOf s d.mb.val < 32 → let c := cmdOf specProfileLoad d p s
    (c.u 16 1 ≤ 3 ∧ c.u 17 1 = 0) →
    Accepts (exec (.profileLoad d p) s) specProfileLoad d p s [.boot, .mbx, .host, .evt, .modes, .flt, .clk, .ring, .out] fun u => u.boot = { s.boot with loadJobs := Tab.set s.boot.loadJobs (c.u 16 1) 0 }) ∧
  (∀ (s : State) (d : Doorbell) (p : List Byte), Ready specHrConfig d p s → let c := cmdOf specHrConfig d p s
    (c.u 16 1 ≤ 63 ∧ bit (c.u 19 1) 0 = true ∧ hrConfigOk c = true ∧ (getRing s (c.u 16 1)).enabled = false ∧ c.u 17 1 ≠ 3) →
    Answers (exec (.hrConfig d p) s) specHrConfig d p s [.boot, .mbx, .host, .evt, .out] (.ok) fun u => getRing u (c.u 16 1) = { getRing s (c.u 16 1) with type := c.u 17 1, enabled := true, push := bit (c.u 19 1) 1, log2 := c.u 20 1, vec := c.u 18 1, base := c.u 24 8, wb := c.u 32 8, modUs := c.u 40 2, modCount := c.u 42 2, error := false, stopped := false, errCause := 0, errCookie := 0, drops := 0, completions := 0, sinceVec := 0, modRunning := false, queue := [] }) ∧
  (∀ (s : State) (d : Doorbell) (p : List Byte), Ready specHrConfig d p s → let c := cmdOf specHrConfig d p s
    (c.u 16 1 ≤ 63 ∧ bit (c.u 19 1) 0 = true ∧ hrConfigOk c = true ∧ (getRing s (c.u 16 1)).enabled = false ∧ c.u 17 1 = 3) →
    Answers (exec (.hrConfig d p) s) specHrConfig d p s [.boot, .mbx, .host, .evt, .out] (.ok) fun u => ∃ w, u = flushLost (c.u 16 1) (flushWaiting (c.u 16 1) w) ∧ (getRing w (c.u 16 1)).type = 3 ∧ (getRing w (c.u 16 1)).enabled = true ∧ (getRing w (c.u 16 1)).base = c.u 24 8 ∧ (getRing w (c.u 16 1)).log2 = c.u 20 1 ∧ (getRing w (c.u 16 1)).waiting = (getRing s (c.u 16 1)).waiting) ∧
  (∀ (s : State) (d : Doorbell) (p : List Byte), Ready specHrConfig d p s → let c := cmdOf specHrConfig d p s
    (c.u 16 1 ≤ 63 ∧ bit (c.u 19 1) 0 = false ∧ (getRing s (c.u 16 1)).enabled = true) →
    Does (exec (.hrConfig d p) s) s [.boot, .mbx, .host, .evt, .out] fun u => (getRing u (c.u 16 1)).disabling = some c ∧ (getRing u (c.u 16 1)).enabled = true) ∧
  (∀ (s : State) (d : Doorbell) (p : List Byte), Ready specHrStatus d p s → let c := cmdOf specHrStatus d p s
    (c.u 16 1 ≤ 63) →
    Answers (exec (.hrStatus d p) s) specHrStatus d p s [.mbx, .evt] (let g := getRing s (c.u 16 1); .ok (le 1 g.type ++ le 1 (b2n g.enabled + 2 * b2n g.push + 4 * b2n g.error + 8 * b2n g.overflow) ++ le 1 g.log2 ++ le 1 g.vec ++ le 2 g.hostIdx.toNat ++ le 2 g.devIdx.toNat ++ le 4 g.drops.toNat ++ le 4 g.completions.toNat ++ le 8 g.errCookie.toNat ++ le 1 g.errCause ++ [0, 0, 0])) fun u => u.host = s.host) ∧
  (∀ (s : State) (d : Doorbell) (p : List Byte), Ready specEventRoute d p s → let c := cmdOf specEventRoute d p s
    (c.u 16 1 ≤ 0x1F ∧ c.u 16 1 ≠ 7 ∧ (c.u 17 1 = 0xFF ∨ (32 ≤ c.u 17 1 ∧ c.u 17 1 ≤ 63 ∧ (getRing s (c.u 17 1)).type = 3))) →
    Answers (exec (.eventRoute d p) s) specEventRoute d p s [.mbx, .host, .evt] (.ok) fun u => u.host = { s.host with routes := Tab.set s.host.routes (c.u 16 1) (c.u 17 1) }) ∧
  (∀ (s : State) (d : Doorbell) (p : List Byte), Ready specGpioSet d p s → let c := cmdOf specGpioSet d p s
    Answers (exec (.gpioSet d p) s) specGpioSet d p s [.pwr, .mbx, .evt] (.ok) fun u => u.pwr = { s.pwr with gpioDir := maskBits (BitVec.ofNat 16 (c.u 16 2)) s.pwr.gpioDir (BitVec.ofNat 16 (c.u 18 2)), gpioLevel := maskBits (BitVec.ofNat 16 (c.u 16 2)) s.pwr.gpioLevel (BitVec.ofNat 16 (c.u 20 2)), gpioPull := maskBits (BitVec.ofNat 16 (c.u 16 2)) s.pwr.gpioPull (BitVec.ofNat 16 (c.u 22 2)) }) ∧
  (∀ (s : State) (d : Doorbell) (p : List Byte) (levels : W16), Ready specGpioGet d p (s.onPwr fun x => { x with gpioIn := levels }) → Answers (exec (.gpioGet d p levels) s) specGpioGet d p (s.onPwr fun x => { x with gpioIn := levels }) [.mbx, .evt] (.ok (le 2 s.pwr.gpioDir.toNat ++ le 2 s.pwr.gpioLevel.toNat ++ le 2 levels.toNat ++ le 2 s.pwr.gpioPull.toNat)) fun u => u.pwr = { s.pwr with gpioIn := levels })

/-- The owner of the staging buffer loses it after its time. A store that ends writes the image whole and frees the buffer, where the region has no bad word. A verification that ends leaves its list. -/
def Obligations.ProfileEndsAnswerTheirCommands : Prop :=
  (∀ (s : State), Does (exec .stageOwnerTimeout s) s [.boot] fun u => u.boot = { s.boot with stageOwner := none }) ∧
  (∀ (s : State) (prof : BitVec 2) (img : List Byte), (Tab.get? s.boot.storeJobs prof.toNat = some img ∧ badWords s (0x10000 * prof.toNat) img.length = 0 ∧ findLong (mramWrite (0x10000 * prof.toNat) img s) 0x0104 (fun c => c.u 16 1 == prof.toNat) = none) →
    Does (exec (.profileStoreDone prof) s) s [.boot, .mbx, .host, .evt, .flt, .clk, .ring, .out] fun u => u.boot = { s.boot with mram := memWrite s.boot.mram (0x10000 * prof.toNat) img, storeJobs := Tab.erase s.boot.storeJobs prof.toNat, stageOwner := none }) ∧
  (∀ (s : State) (prof : BitVec 2) (r : Nat), (s.boot.loader = none ∧ Tab.get? s.boot.loadJobs prof.toNat = some r ∧ profReason s prof.toNat = 0 ∧ findLong s 0x0103 (fun c => c.u 16 1 == prof.toNat) = none) →
    Does (exec (.profileLoadDone prof) s) s [.boot, .mbx, .host, .evt, .flt, .clk, .ring, .out] fun u => u.boot = { s.boot with loadJobs := Tab.erase s.boot.loadJobs prof.toNat })

/-- A Demand domain idle in VIGIL goes off; a first failed wake leaves the domain off and retried, with RETRIES counted; a failed retry makes it FAILED, and DEGRADED is set where no mode needs it; the retry wakes it again. An agent that accepts in a handshake where others still wait is noted; one that delays is sent ENTER again, the last time from 10 ms on; a refusal or a timeout aborts the entry: the transition is over, the mode stays, the abort is counted, and every agent is idle again. -/
def Obligations.DomainsAndHandshakeTakeEffect : Prop :=
  (∀ (s : State) (dom : Fin 8), (s.modes.mode = 3 ∧ (getDom s dom.val).st = 3 ∧ s.modes.doms.length = 8) →
    Does (exec (.demandIdleExpiry dom) s) s [.modes, .fe, .air, .col] fun u => getDom u dom.val = { getDom s dom.val with st := 0 } ∧ u.modes.mode = 3) ∧
  (∀ (s : State) (dom : Fin 8) (upStep : Nat), ((getDom s dom.val).st = 2 ∧ (upStep = 1 ∨ upStep = 2) ∧ (getDom s dom.val).retrying = false ∧ s.modes.doms.length = 8) →
    Does (exec (.domainWakeTimeout dom upStep) s) s [.outs, .boot, .mbx, .host, .evt, .modes, .flt, .cad, .clk, .fe, .cal, .air, .nb, .mlad, .tm, .col, .dram, .ring, .out] fun u => getDom u dom.val = { getDom s dom.val with st := 0, retrying := true, failStep := upStep, retries := satAdd 8 (getDom s dom.val).retries 1 } ∧ u.modes.mode = s.modes.mode) ∧
  (∀ (s : State) (dom : Fin 8) (upStep : Nat), ((getDom s dom.val).st = 2 ∧ (upStep = 1 ∨ upStep = 2) ∧ (getDom s dom.val).retrying = true ∧ s.modes.doms.length = 8 ∧ domNeeded dom.val s = false) →
    Does (exec (.domainWakeTimeout dom upStep) s) s [.outs, .boot, .mbx, .host, .evt, .modes, .flt, .cad, .clk, .fe, .cal, .air, .nb, .mlad, .tm, .col, .dram, .ring, .out] fun u => getDom u dom.val = { getDom s dom.val with st := 5, retrying := false, failStep := upStep, retries := satAdd 8 (getDom s dom.val).retries 1 } ∧ u.modes.degraded = s.modes.degraded ||| (1 <<< dom.val : BitVec 8) ∧ u.modes.mode = s.modes.mode) ∧
  (∀ (s : State) (dom : Fin 8), ((getDom s dom.val).st = 0 ∧ (getDom s dom.val).retrying = true ∧ s.modes.doms.length = 8) →
    Does (exec (.domainWakeRetry dom) s) s [.modes] fun u => getDom u dom.val = { getDom s dom.val with st := 2 }) ∧
  (∀ (s : State) (agent : Fin 16) (ans : AgentAns), (awaits s agent.val = true ∧ ans = .accept ∧ s.modes.trans.bind (fun t => agentRefusal s t agent.val) = none ∧ (updAt s.modes.agents agent.val fun x => { x with st := .accepted }).all (fun x => x.st == .accepted) = false) →
    Does (exec (.agentAnswer agent ans) s) s [.boot, .mbx, .host, .evt, .modes, .clk, .air, .nb, .mlad, .tm, .dram, .ring, .out] fun u => u.modes = { s.modes with agents := updAt s.modes.agents agent.val fun x => { x with st := .accepted } }) ∧
  (∀ (s : State) (agent : Fin 16) (ans : AgentAns) (t : Trans) (r : Nat), (awaits s agent.val = true ∧ s.modes.trans = some t ∧ t.by_ = .wake ∧ agentRefusal s t agent.val = some r) →
    Does (exec (.agentAnswer agent ans) s) s [.boot, .mbx, .host, .evt, .modes, .clk, .air, .nb, .mlad, .tm, .dram, .ring, .out] fun u => u.modes.trans = none ∧ u.modes.mode = s.modes.mode ∧ u.modes.target = s.modes.mode ∧ u.modes.aborted = satAdd 32 s.modes.aborted 1 ∧ u.modes.agents.all (fun x => x.st == .idle) = true) ∧
  (∀ (s : State) (agent : Fin 16) (t : Trans), (awaits s agent.val = true ∧ s.modes.trans = some t ∧ t.by_ = .wake) →
    Does (exec (.agentAnswerTimeout agent) s) s [.boot, .mbx, .host, .evt, .modes, .clk, .ring, .out] fun u => u.modes.trans = none ∧ u.modes.mode = s.modes.mode ∧ u.modes.target = s.modes.mode ∧ u.modes.aborted = satAdd 32 s.modes.aborted 1 ∧ u.modes.agents.all (fun x => x.st == .idle) = true) ∧
  (∀ (s : State) (agent : Fin 16) (t : Trans) (us : Nat), (s.modes.trans = some t ∧ (s.modes.agents.getD agent.val {}).st = .delayed us ∧ t.handshaking = true ∧ t.committed = false) →
    Does (exec (.enterResend agent) s) s [.modes, .out] fun u => u.modes = { s.modes with agents := updAt s.modes.agents agent.val fun x => { x with st := .waiting, final := decide (t.hsNs + 10 ^ 7 ≤ nowNs s) } } ∧ u.out = .enter agent.val t.stage :: s.out)

/-- MODE_SET of the present mode is answered OK at once; of SAFE it is accepted and the device enters SAFE with cause 2; of another reachable mode it is accepted and the transition begins, unless a domain on the way is FAILED. MODE_GET, PWR_STATS and DOMAIN_STATUS give the mode, the handshake's counters and the domains; PWR_STATS clears the counters where asked. WAKE_CONFIG and VIGIL_CONFIG store their settings. -/
def Obligations.Family02CommandsAnswer : Prop :=
  (∀ (s : State) (d : Doorbell) (p : List Byte), Ready specModeSet d p s → let c := cmdOf specModeSet d p s
    (3 ≤ c.u 16 1 ∧ c.u 16 1 < 7 ∧ c.u 16 1 = s.modes.mode) →
    Answers (exec (.modeSet d p) s) specModeSet d p s [.outs, .boot, .mbx, .host, .evt, .modes, .flt, .cad, .clk, .fe, .cal, .air, .nb, .mlad, .tm, .col, .dram, .ring, .out] (.ok) fun u => u.modes = s.modes) ∧
  (∀ (s : State) (d : Doorbell) (p : List Byte), Ready specModeSet d p s → pendingOf s d.mb.val < 32 → let c := cmdOf specModeSet d p s
    (s.modes.mode = 4 ∧ c.u 16 1 = 5 ∧ failedFor s 5 = none) →
    Accepts (exec (.modeSet d p) s) specModeSet d p s [.outs, .boot, .mbx, .host, .evt, .modes, .flt, .cad, .clk, .fe, .cal, .air, .nb, .mlad, .tm, .col, .dram, .ring, .out] fun u => ∃ w, u = beginTrans (.modeSet c) 5 0 (bit (c.u 17 1) 0) w ∧ w.modes = s.modes) ∧
  (∀ (s : State) (d : Doorbell) (p : List Byte), Ready specModeSet d p s → pendingOf s d.mb.val < 32 → let c := cmdOf specModeSet d p s
    (c.u 16 1 = 7 ∧ 3 ≤ s.modes.mode ∧ s.modes.mode ≤ 6) →
    Accepts (exec (.modeSet d p) s) specModeSet d p s [.outs, .boot, .mbx, .host, .evt, .modes, .flt, .cad, .clk, .fe, .cal, .air, .nb, .mlad, .tm, .col, .dram, .ring, .out] fun u => u.modes.mode = 7 ∧ u.flt.cause = 2 ∧ u.outs = outsSafe s) ∧
  (∀ (s : State) (d : Doorbell) (p : List Byte), Ready specModeGet d p s → Answers (exec (.modeGet d p) s) specModeGet d p s [.mbx, .evt] (.ok (le 1 s.modes.mode ++ le 1 s.modes.target ++ le 1 (b2n s.modes.trans.isSome) ++ le 1 s.modes.lastCause ++ le 4 (min 0xFFFFFFFF ((nowNs s - s.modes.sinceNs) / 10 ^ 6)) ++ le 1 (domBits s fun x => [1, 3, 4].contains x.st) ++ le 1 (domBits s (·.st == 3)) ++ le 1 (domBits s (·.st == 5)) ++ [s.modes.degraded] ++ [0, 0, 0, 0])) fun u => u.modes = s.modes) ∧
  (∀ (s : State) (d : Doorbell) (p : List Byte), Ready specPwrStats d p s → let c := cmdOf specPwrStats d p s
    (bit (c.u 16 1) 0 = false) →
    Answers (exec (.pwrStats d p) s) specPwrStats d p s [.mbx, .evt, .modes] (.ok (le 4 s.modes.attempted ++ le 4 s.modes.committedN ++ le 4 s.modes.aborted ++ le 4 s.modes.wakeAborts ++ ((agentNames.zip s.modes.agents).flatMap fun a => a.1 ++ le 4 a.2.refuse ++ le 4 a.2.abort ++ le 2 a.2.delay ++ le 1 a.2.last ++ [0]))) fun u => u.modes = s.modes) ∧
  (∀ (s : State) (d : Doorbell) (p : List Byte), Ready specPwrStats d p s → let c := cmdOf specPwrStats d p s
    (bit (c.u 16 1) 0 = true) →
    Answers (exec (.pwrStats d p) s) specPwrStats d p s [.mbx, .evt, .modes] (.ok (le 4 s.modes.attempted ++ le 4 s.modes.committedN ++ le 4 s.modes.aborted ++ le 4 s.modes.wakeAborts ++ ((agentNames.zip s.modes.agents).flatMap fun a => a.1 ++ le 4 a.2.refuse ++ le 4 a.2.abort ++ le 2 a.2.delay ++ le 1 a.2.last ++ [0]))) fun u => u.modes.attempted = 0 ∧ u.modes.committedN = 0 ∧ u.modes.aborted = 0 ∧ u.modes.wakeAborts = 0 ∧ u.modes.mode = s.modes.mode ∧ u.modes.agents = s.modes.agents.map fun a => { a with refuse := 0, abort := 0, delay := 0 }) ∧
  (∀ (s : State) (d : Doorbell) (p : List Byte), Ready specDomainStatus d p s → Answers (exec (.domainStatus d p) s) specDomainStatus d p s [.mbx, .evt] (.ok (s.modes.doms.flatMap fun x => le 1 x.st ++ le 1 x.retries ++ le 1 x.failStep ++ [0] ++ le 4 x.wakes ++ le 4 x.lastUs ++ [0, 0, 0, 0])) fun u => u.modes = s.modes) ∧
  (∀ (s : State) (d : Doorbell) (p : List Byte), Ready specWakeConfig d p s → let c := cmdOf specWakeConfig d p s
    ((c.u 17 1 = 4 ∨ c.u 17 1 = 5) ∧ 1 ≤ c.u 18 2 ∧ c.u 18 2 ≤ 1000) →
    Answers (exec (.wakeConfig d p) s) specWakeConfig d p s [.mbx, .evt, .modes, .clk] (.ok) fun u => u.modes = { s.modes with wakeSources := BitVec.ofNat 5 (c.u 16 1), warmTarget := c.u 17 1, demandIdleMs := c.u 18 2, alarmBeat := c.u 20 6 } ∧ (s.modes.mode ≠ 3 → u.clk = s.clk)) ∧
  (∀ (s : State) (d : Doorbell) (p : List Byte), Ready specVigilConfig d p s → let c := cmdOf specVigilConfig d p s
    ((c.u 16 1 ≤ 5 ∨ c.u 16 1 = 0xFF) ∧ c.u 18 2 ≤ 16383) →
    Answers (exec (.vigilConfig d p) s) specVigilConfig d p s [.mbx, .evt, .modes] (.ok) fun u => u.modes = { s.modes with vigilUplink := c.u 16 1, vigilNexthop := c.u 18 2 })

/-- LOG_READ gives the records of the log from a sequence number on, or E_NO_RECORD where none matches; FAULT_READ gives bytes of a valid slot, or E_NO_RECORD; COUNTER_READ gives the counters and clears them where asked; STATUS_READ gives the status page, temperatures and availability; WATCHDOG_SET stores its settings; LOG_CLEAR with CONFIRM is accepted and, when done, its regions of MRAM read 0. -/
def Obligations.Family1FCommandsAnswer : Prop :=
  (∀ (s : State) (d : Doorbell) (p : List Byte), Ready specLogRead d p s → let c := cmdOf specLogRead d p s
    (c.u 16 1 = 0 ∧ 1 ≤ c.u 17 1 ∧ c.u 17 1 ≤ 7 ∧ (((s.evt.log.reverse.map recBytes).filter fun r => (fld r 4 4 + 2 ^ 32 - c.u 20 4) % 2 ^ 32 < 2 ^ 31).take (c.u 17 1)).isEmpty = true) →
    Answers (exec (.logRead d p) s) specLogRead d p s [.mbx, .evt] (.err 0x1F01) fun u => u.flt = s.flt) ∧
  (∀ (s : State) (d : Doorbell) (p : List Byte), Ready specLogRead d p s → let c := cmdOf specLogRead d p s
    (c.u 16 1 = 0 ∧ 1 ≤ c.u 17 1 ∧ c.u 17 1 ≤ 7 ∧ (((s.evt.log.reverse.map recBytes).filter fun r => (fld r 4 4 + 2 ^ 32 - c.u 20 4) % 2 ^ 32 < 2 ^ 31).take (c.u 17 1)).isEmpty = false) →
    Answers (exec (.logRead d p) s) specLogRead d p s [.mbx, .evt] (let l := ((s.evt.log.reverse.map recBytes).filter fun r => (fld r 4 4 + 2 ^ 32 - c.u 20 4) % 2 ^ 32 < 2 ^ 31).take (c.u 17 1); .ok (le 1 l.length ++ [0, 0, 0] ++ l.flatten)) fun u => u.flt = s.flt) ∧
  (∀ (s : State) (d : Doorbell) (p : List Byte), Ready specFaultRead d p s → let c := cmdOf specFaultRead d p s
    (c.u 16 1 ≤ 15 ∧ c.u 18 2 % 16 = 0 ∧ c.u 18 2 ≤ 496 ∧ c.u 20 2 % 16 = 0 ∧ 16 ≤ c.u 20 2 ∧ c.u 20 2 ≤ 480 ∧ c.u 18 2 + c.u 20 2 ≤ 512 ∧ slotValid (slotBytes s (c.u 16 1)) = true) →
    Answers (exec (.faultRead d p) s) specFaultRead d p s [.mbx, .evt] (.ok (slice (slotBytes s (c.u 16 1)) (c.u 18 2) (c.u 20 2))) fun u => u.boot = s.boot) ∧
  (∀ (s : State) (d : Doorbell) (p : List Byte), Ready specCounterRead d p s → let c := cmdOf specCounterRead d p s
    (c.u 16 1 + c.u 17 1 ≤ 29 ∧ bit (c.u 18 1) 0 = false) →
    Answers (exec (.counterRead d p) s) specCounterRead d p s [.mbx, .evt, .flt] (.ok (((s.flt.counters.drop (c.u 16 1)).take (c.u 17 1)).flatMap fun n => le 4 n.toNat)) fun u => u.flt = s.flt) ∧
  (∀ (s : State) (d : Doorbell) (p : List Byte), Ready specCounterRead d p s → let c := cmdOf specCounterRead d p s
    (c.u 16 1 + c.u 17 1 ≤ 29 ∧ bit (c.u 18 1) 0 = true) →
    Answers (exec (.counterRead d p) s) specCounterRead d p s [.mbx, .evt, .flt] (.ok (((s.flt.counters.drop (c.u 16 1)).take (c.u 17 1)).flatMap fun n => le 4 n.toNat)) fun u => u.flt = { s.flt with counters := s.flt.counters.zipIdx.map fun x => if c.u 16 1 ≤ x.2 && x.2 < c.u 16 1 + c.u 17 1 then 0 else x.1 }) ∧
  (∀ (s : State) (d : Doorbell) (p : List Byte), Ready specStatusRead d p s → Answers (exec (.statusRead d p) s) specStatusRead d p s [.mbx, .evt] (.ok (statusBytes s ++ ((tjs s).flatMap fun q => leI 2 q) ++ [0, 0] ++ le 8 (s.flt.serveS + (s.flt.serveNs + ((s.flt.serveFrom.map fun t => nowNs s - t).getD 0)) / 10 ^ 9) ++ le 4 s.flt.outages ++ le 8 s.flt.outageMs)) fun u => u.flt = s.flt) ∧
  (∀ (s : State) (d : Doorbell) (p : List Byte), Ready specWatchdogSet d p s → let c := cmdOf specWatchdogSet d p s
    ((c.u 16 2 = 0 ∨ (10 ≤ c.u 16 2 ∧ c.u 16 2 ≤ 10000)) ∧ (c.u 18 2 = 0 ∨ (100 ≤ c.u 18 2 ∧ c.u 18 2 ≤ 60000)) ∧ autoMaskOk (c.u 20 2) = true ∧ c.u 22 2 ≤ 60000 ∧ 1 ≤ c.u 24 1 ∧ c.u 24 1 ≤ 16 ∧ 60 ≤ c.u 25 1 ∧ c.u 25 1 + 5 ≤ tjShutdown) →
    Answers (exec (.watchdogSet d p) s) specWatchdogSet d p s [.mbx, .evt, .flt] (.ok) fun u => u.flt = { s.flt with wdtMs := c.u 16 2, wdtResetMs := c.u 18 2, autoMask := BitVec.ofNat 16 (c.u 20 2), autoDelayMs := c.u 22 2, autoLimit := c.u 24 1, warnC := some (c.u 25 1) }) ∧
  (∀ (s : State) (d : Doorbell) (p : List Byte), Ready specLogClear d p s → pendingOf s d.mb.val < 32 → let c := cmdOf specLogClear d p s
    (c.u 20 4 = 0x52535452) →
    Accepts (exec (.logClear d p) s) specLogClear d p s [.mbx, .evt] fun u => u.boot = s.boot) ∧
  (∀ (s : State) (l : LongCmd), (findLong s 0x1F06 = some l ∧ l.cmd.path = .bar) →
    Does (exec .logClearDone s) s [.boot, .mbx, .host, .evt, .clk, .ring, .out] fun u => u.boot.mram = (let m := if bit (l.cmd.u 16 1) 0 then memClear s.boot.mram 0x62000 56320 else s.boot.mram; if bit (l.cmd.u 16 1) 1 then memClear m 0x60000 8192 else m) ∧ u.mbx.longs = s.mbx.longs.erase l) ∧
  (∀ (s : State), (findLong s 0x1F06 = none) →
    Does (exec .logClearDone s) s [.boot, .mbx, .host, .evt, .clk, .ring, .out] fun u => u = s)

/-- CAD_SOURCE_SET stores its settings; TIME_GET gives the time of day readers see, its beat, offset and bound; TIME_STEP and TIME_ADJUST with source FREE add to the step that waits and set INCR; PTP_CONFIG, CAD_MASTER_SET and HOLDOVER_CONFIG store their settings; TS_READ gives and removes the oldest timestamps of a port; CAD_STATUS gives state and counters. -/
def Obligations.Family03CommandsAnswer : Prop :=
  (∀ (s : State) (d : Doorbell) (p : List Byte), Ready specCadSourceSet d p s → let c := cmdOf specCadSourceSet d p s
    (c.u 16 1 = s.cad.source ∧ s.cad.source = 0 ∧ c.u 17 1 = s.cad.bpCode ∧ s.cad.bpCode ≤ 4 ∧ 2 ≤ c.u 18 1 ∧ c.u 18 1 ≤ 16 ∧ 100 ≤ c.u 20 4 ∧ c.u 20 4 ≤ 10000 ∧ c.u 24 8 = s.cad.epoch ∧ c.u 32 2 ≤ 10000 ∧ 8 ≤ c.u 34 2 ∧ c.u 34 2 ≤ 1024 ∧ c.u 36 2 ≤ 1000 ∧ c.u 40 4 ≤ 1000000) →
    Answers (exec (.cadSourceSet d p) s) specCadSourceSet d p s [.outs, .boot, .mbx, .host, .evt, .cad, .clk, .fe, .air, .nb, .tm, .col, .out] (.ok) fun u => u.cad = { s.cad with acquire := c.u 18 1, tol := c.u 20 4, inDelay := c.u 32 2, loopTc := c.u 34 2, slewMs := c.u 36 2, srcErr := c.u 40 4, stepNeeded := false }) ∧
  (∀ (s : State) (d : Doorbell) (p : List Byte), Ready specCadSourceSet d p s → let c := cmdOf specCadSourceSet d p s
    (c.u 16 1 = 0 ∧ s.cad.source ≠ 0 ∧ s.cad.state ≠ 2 ∧ c.u 17 1 = s.cad.bpCode ∧ s.cad.bpCode ≤ 4 ∧ 2 ≤ c.u 18 1 ∧ c.u 18 1 ≤ 16 ∧ 100 ≤ c.u 20 4 ∧ c.u 20 4 ≤ 10000 ∧ c.u 32 2 ≤ 10000 ∧ 8 ≤ c.u 34 2 ∧ c.u 34 2 ≤ 1024 ∧ c.u 36 2 ≤ 1000 ∧ c.u 40 4 ≤ 1000000) →
    Answers (exec (.cadSourceSet d p) s) specCadSourceSet d p s [.outs, .boot, .mbx, .host, .evt, .cad, .clk, .fe, .air, .nb, .tm, .col, .out] (.ok) fun u => u.cad.source = 0 ∧ u.cad.state = 0 ∧ u.cad.epoch = c.u 24 8 ∧ u.cad.tol = c.u 20 4 ∧ u.cad.firstAcq = true ∧ u.cad.realign = .none ∧ u.cad.markRun = none) ∧
  (∀ (s : State) (d : Doorbell) (p : List Byte), Ready specCadStatus d p s → Answers (exec (.cadStatus d p) s) specCadStatus d p s [.mbx, .evt] (.ok (le 1 (cadStateNow s) ++ le 1 s.cad.source ++ le 1 s.cad.bpCode ++ le 1 s.cad.consec ++ le 4 s.cad.used ++ le 4 (errNow s) ++ leI 4 s.cad.lastErr ++ le 4 s.cad.good ++ ctrBytes s.cad.missed ++ le 4 s.cad.stray ++ le 4 s.cad.entries ++ le 4 s.cad.expiries ++ le 4 s.cad.steps ++ le 8 ((s.clk.gm.map (·.identity.toNat)).getD 0) ++ le 6 s.cad.lastLock ++ le 1 s.cad.sender.toNat ++ [0])) fun u => u.cad = s.cad) ∧
  (∀ (s : State) (d : Doorbell) (p : List Byte), Ready specTimeGet d p s → Answers (exec (.timeGet d p) s) specTimeGet d p s [.mbx, .evt, .clk] (.ok (le 8 (readTod s / 2 ^ 32) ++ le 4 (readTod s % 2 ^ 32) ++ le 6 (beatAt s (readTod s / 2 ^ 32)) ++ [0, 0] ++ le 4 (offAt s (readTod s / 2 ^ 32)) ++ le 1 (cadStateNow s) ++ [0, 0, 0] ++ le 4 (errNow s) ++ le 8 s.cad.incr)) fun u => u.cad = s.cad ∧ (s.modes.mode ≠ 3 → u.clk = s.clk)) ∧
  (∀ (s : State) (d : Doorbell) (p : List Byte), Ready specTimeStep d p s → let c := cmdOf specTimeStep d p s
    (c.u 16 8 ≠ 0 ∧ s.modes.mode ≠ 3 ∧ s.modes.mode ≠ 7 ∧ s.modes.mode ≠ 5 ∧ s.cad.source = 3) →
    Answers (exec (.timeStep d p) s) specTimeStep d p s [.mbx, .evt, .cad] (.ok) fun u => u.cad = { s.cad with stepSum := some (s.cad.stepSum.getD 0 + c.i 16 8) }) ∧
  (∀ (s : State) (d : Doorbell) (p : List Byte), Ready specTimeAdjust d p s → let c := cmdOf specTimeAdjust d p s
    (0xFFF2E48F ≤ c.u 16 8 ∧ c.u 16 8 ≤ 0x1000D1B71 ∧ s.modes.mode ≠ 3 ∧ s.modes.mode ≠ 7 ∧ s.cad.source = 3) →
    Answers (exec (.timeAdjust d p) s) specTimeAdjust d p s [.mbx, .evt, .cad] (.ok) fun u => u.cad = { s.cad with incr := c.u 16 8, freq := 1 - (c.u 16 8 : Rat) / 0x100000000 }) ∧
  (∀ (s : State) (d : Doorbell) (p : List Byte), Ready specPtpConfig d p s → let c := cmdOf specPtpConfig d p s
    (c.u 16 1 = 0xFF ∧ c.u 17 1 ≤ 2 ∧ -7 ≤ c.i 19 1 ∧ c.i 19 1 ≤ 0 ∧ -7 ≤ c.i 20 1 ∧ c.i 20 1 ≤ 4 ∧ c.u 22 2 ≤ 4094 ∧ s.cad.source ≠ 1) →
    Answers (exec (.ptpConfig d p) s) specPtpConfig d p s [.mbx, .evt, .clk] (.ok) fun u => u.clk = { s.clk with ptpPort := 0xFF, transport := c.u 17 1, domain := c.u 18 1, logSync := c.i 19 1, logDelay := c.i 20 1, arbOk := bit (c.u 21 1) 0, vlan := c.u 22 2, asym := c.i 24 4, srcAddr := c.bytes 32 16, gm := none, delay := none, sync := none, t3 := none }) ∧
  (∀ (s : State) (d : Doorbell) (p : List Byte), Ready specPtpConfig d p s → let c := cmdOf specPtpConfig d p s
    (c.u 16 1 ≤ 3 ∧ (s.tm.ports.getD (c.u 16 1) {}).enable = true ∧ c.u 17 1 ≤ 2 ∧ -7 ≤ c.i 19 1 ∧ c.i 19 1 ≤ 0 ∧ -7 ≤ c.i 20 1 ∧ c.i 20 1 ≤ 4 ∧ c.u 22 2 ≤ 4094 ∧ s.cad.source ≠ 1) →
    Answers (exec (.ptpConfig d p) s) specPtpConfig d p s [.mbx, .evt, .clk] (.ok) fun u => u.clk.ptpPort = c.u 16 1 ∧ u.clk.domain = c.u 18 1 ∧ u.clk.gm = none ∧ u.clk.delay = none) ∧
  (∀ (s : State) (d : Doorbell) (p : List Byte), Ready specCadMasterSet d p s → let c := cmdOf specCadMasterSet d p s
    (c.u 16 1 ≤ 1 ∧ 100 ≤ c.u 18 2 ∧ c.u 18 2 ≤ 10000 ∧ 2 * c.u 18 2 ≤ bpNs s ∧ c.u 20 2 ≤ 1000) →
    Answers (exec (.cadMasterSet d p) s) specCadMasterSet d p s [.outs, .mbx, .evt, .cad] (.ok) fun u => u.cad = { s.cad with masterEn := c.u 16 1 == 1, pulseW := c.u 18 2, advance := c.u 20 2 }) ∧
  (∀ (s : State) (d : Doorbell) (p : List Byte), Ready specHoldoverConfig d p s → let c := cmdOf specHoldoverConfig d p s
    (1 ≤ c.u 16 4 ∧ c.u 16 4 ≤ 1000000 ∧ 1 ≤ c.u 20 4 ∧ c.u 20 4 ≤ 10000 ∧ 100 ≤ c.u 24 4 ∧ c.u 24 4 ≤ 100000 ∧ c.u 28 1 ≤ 4 ∧ s.cad.state ≠ 2 ∧ s.cad.state ≠ 3) →
    Answers (exec (.holdoverConfig d p) s) specHoldoverConfig d p s [.mbx, .evt, .cad] (.ok) fun u => u.cad = { s.cad with budget := c.u 16 4, hoPpb := c.u 20 4, kUnc := c.u 24 4, trimLog2 := c.u 28 1 }) ∧
  (∀ (s : State) (d : Doorbell) (p : List Byte), Ready specTsRead d p s → let c := cmdOf specTsRead d p s
    (c.u 16 1 ≤ 4 ∧ 1 ≤ c.u 17 1 ∧ c.u 17 1 ≤ 16 ∧ (s.tm.ports.getD (c.u 16 1) {}).enable = true ∧ (s.clk.tsq.getD (c.u 16 1) {}).entries = []) →
    Answers (exec (.tsRead d p) s) specTsRead d p s [.mbx, .evt, .clk] (.ok [0, 0, 0, 0]) fun u => u.clk = { s.clk with tsq := updAt s.clk.tsq (c.u 16 1) fun q => { q with entries := [] } })

/-- With the cadence receiver on: a good mark in LOCKED is counted, clears the run of misses and stores its error; outside LOCKED a mark whose frame is bad or does not come in time is missed as CRC; in LOCKED an interval without mark is missed as ABSENT; a slew that ends settles; at the end of the budget of HOLDOVER the state is FREE-running DEGRADED and the expiry is counted. -/
def Obligations.CadenceMarksTakeEffect : Prop :=
  (∀ (s : State) (t : Nat) (frame : W64), (marksOn s = true ∧ s.cad.source = 0 ∧ s.cad.state ≠ 1 ∧ cadFrameOk frame = false) →
    Does (exec (.cadPulseMark t frame) s) s [.outs, .boot, .host, .evt, .cad, .clk, .fe, .air, .nb, .tm, .col, .ring, .drawn, .out] fun u => u.cad.markRun = none ∧ u.cad.missed = bump s.cad.missed 2 ∧ u.cad.state = s.cad.state) ∧
  (∀ (s : State) (t : Nat) (frame : W64), (marksOn s = true ∧ s.cad.source = 0 ∧ s.cad.state = 1 ∧ cadFrameOk frame = true ∧ frame.toNat / 2 ^ 13 % 8 = s.cad.bpCode ∧ (markBeat s ((t : Int) - s.cad.inDelay)).1 = frame.toNat / 2 ^ 16 ∧ s.cad.decided ≠ some (frame.toNat / 2 ^ 16) ∧ -(s.cad.tol : Int) ≤ (markBeat s ((t : Int) - s.cad.inDelay)).2 ∧ (markBeat s ((t : Int) - s.cad.inDelay)).2 < s.cad.tol) →
    Does (exec (.cadPulseMark t frame) s) s [.outs, .boot, .host, .evt, .cad, .clk, .fe, .air, .nb, .tm, .col, .ring, .drawn, .out] fun u => u.cad.state = 1 ∧ u.cad.good = satAdd 32 s.cad.good 1 ∧ u.cad.consec = 0 ∧ u.cad.lastErr = (markBeat s ((t : Int) - s.cad.inDelay)).2 ∧ u.cad.lastGood = frame.toNat / 2 ^ 16) ∧
  (∀ (s : State) (t : Nat), (marksOn s = true ∧ s.cad.source = 0 ∧ s.cad.state ≠ 1) →
    Does (exec (.markFrameTimeout t) s) s [.outs, .boot, .host, .evt, .cad, .clk, .fe, .air, .nb, .tm, .col, .ring, .drawn, .out] fun u => u.cad.markRun = none ∧ u.cad.missed = bump s.cad.missed 2 ∧ u.cad.state = s.cad.state) ∧
  (∀ (s : State), (marksOn s = true ∧ s.cad.state = 1 ∧ s.cad.consec = 0) →
    Does (exec .markWindowExpiry s) s [.outs, .boot, .host, .evt, .cad, .clk, .fe, .air, .nb, .tm, .col, .ring, .drawn, .out] fun u => u.cad.state = 1 ∧ u.cad.consec = 1 ∧ u.cad.lastKind = 2 ∧ u.cad.missed = bump s.cad.missed 1) ∧
  (∀ (s : State), (s.cad.state = 6 ∧ s.cad.realign = .slew) →
    Does (exec .slewDone s) s [.host, .cad, .fe, .air, .tm, .col, .out] fun u => u.cad = { s.cad with realign := .settle, incr := coastIncr s }) ∧
  (∀ (s : State), (s.cad.state = 2) →
    Does (exec .holdoverBudgetExpiry s) s [.outs, .boot, .host, .evt, .cad, .clk, .fe, .air, .nb, .tm, .col, .out] fun u => u.cad.state = 3 ∧ u.cad.used = max s.cad.used s.cad.budget ∧ u.cad.expiries = satAdd 32 s.cad.expiries 1)

/-- With PTP on a port: an Announce is taken when none is selected; a Sync is kept; a Delay_Req leaves at its instant; a Delay_Resp gives the mean path delay. The keeper's trim is taken outside VIGIL. A read of 0x9000 latches the time registers. A waiting step of 0 is dropped; one that is not is counted. -/
def Obligations.TimeEventsTakeEffect : Prop :=
  (∀ (s : State) (gm : Announce), (ptpOn s = true ∧ gm.timescaleArb = false ∧ s.clk.gm = none) →
    Does (exec (.ptpAnnounce gm) s) s [.boot, .host, .evt, .clk, .out] fun u => u.clk.gm = some { prio1 := gm.prio1, cls := gm.cls, accuracy := gm.accuracy, variance := gm.variance, prio2 := gm.prio2, identity := gm.identity, stepsRemoved := gm.steps }) ∧
  (∀ (s : State) (t1 t2 corr : Int), (ptpOn s = true ∧ s.clk.gm.isSome = true ∧ s.clk.delay = none ∧ s.cad.state ≠ 1) →
    Does (exec (.ptpSyncMark t1 t2 corr) s) s [.outs, .boot, .host, .evt, .cad, .clk, .fe, .air, .nb, .tm, .col, .ring, .drawn, .out] fun u => u.clk.sync = some (t1 + corr, t2) ∧ u.cad.markRun = none ∧ u.cad.state = s.cad.state) ∧
  (∀ (s : State) (t3 : Int), (ptpOn s = true ∧ s.clk.gm.isSome = true) →
    Does (exec (.ptpDelayReqTimer t3) s) s [.clk, .out] fun u => u.clk = { s.clk with t3 := some t3 } ∧ u.out = .eth s.clk.ptpPort [] :: s.out) ∧
  (∀ (s : State) (t4 corr : Int) (t1 t2 t3 : Int), (ptpOn s = true ∧ s.clk.sync = some (t1, t2) ∧ s.clk.t3 = some t3) →
    Does (exec (.ptpDelayResp t4 corr) s) s [.clk] fun u => u.clk = { s.clk with delay := some (((t2 - t3) + (t4 - corr - t1)).ediv 2, nowNs s), t3 := none }) ∧
  (∀ (s : State) (trim : Int), (s.cad.run = true ∧ s.modes.mode ≠ 3) →
    Does (exec (.keeperTrimWindow trim) s) s [.clk] fun u => u.clk = { s.clk with trim := trim }) ∧
  (∀ (s : State), (s.host.link = true) →
    Does (exec .todSnapshotRead s) s [.host, .clk] fun u => u.clk.snap = timeWords s ∧ u.host.reply = .data (le 4 (readTod s / 2 ^ 32 % 2 ^ 32)) ∧ u.cad = s.cad) ∧
  (∀ (s : State), (s.cad.stepSum = some 0 ∧ s.modes.mode ≠ 3) →
    Does (exec .timeStepApply s) s [.boot, .host, .evt, .cad, .clk, .tm, .out] fun u => u.cad.stepSum = none ∧ u.cad.steps = s.cad.steps) ∧
  (∀ (s : State) (d : Int), (s.cad.stepSum = some d ∧ d ≠ 0 ∧ s.modes.mode ≠ 3) →
    Does (exec .timeStepApply s) s [.boot, .host, .evt, .cad, .clk, .tm, .out] fun u => u.cad.stepSum = none ∧ u.cad.steps = satAdd 32 s.cad.steps 1)

/-- A conversion stores its sensor's reading. An uncorrectable SRAM read is counted: in classes 0 to 2 it enters SAFE with cause 5; in class 5 the entry of the source cache is lost, or the filter is rebuilt; in class 4 the packet is lost and counted. A lost SerDes clock is noted, and in HOLD the ring's pass-through stops. -/
def Obligations.FaultEventsTakeEffect : Prop :=
  (∀ (s : State) (sensor : Nat) (q : Int), (s.pwr.vddAon = true ∧ sensor < 36) →
    Does (exec (.sensorConversion sensor q) s) s [.boot, .host, .evt, .flt, .clk, .out] fun u => u.flt.sensors = setAt s.flt.sensors sensor q ∧ u.modes = s.modes) ∧
  (∀ (s : State) (cls : Nat) (addr : W32) (victim : SramVictim), (2 ≤ s.modes.mode ∧ s.modes.mode ≤ 6 ∧ cls < 3) →
    Does (exec (.sramUncorrectable cls addr victim) s) s [.outs, .boot, .mbx, .host, .evt, .modes, .flt, .cad, .clk, .fe, .cal, .air, .nb, .mlad, .cls, .fwd, .tm, .col, .dram, .ring, .drawn, .out] fun u => u.modes.mode = 7 ∧ u.flt.cause = 5 ∧ u.outs = outsSafe s) ∧
  (∀ (s : State) (cls : Nat) (addr : W32) (victim : SramVictim) (i : Nat), (2 ≤ s.modes.mode ∧ cls = 5 ∧ victim = .src i) →
    Does (exec (.sramUncorrectable cls addr victim) s) s [.outs, .boot, .mbx, .host, .evt, .modes, .flt, .cad, .clk, .fe, .cal, .air, .nb, .mlad, .cls, .fwd, .tm, .col, .dram, .ring, .drawn, .out] fun u => u.fwd = { s.fwd with src := s.fwd.src.eraseIdx i } ∧ u.flt.counters = s.flt.counters.modify 21 (fun c => BitVec.ofNat 32 (satAdd 32 c.toNat 1)) ∧ u.modes = s.modes) ∧
  (∀ (s : State) (cls : Nat) (addr : W32) (victim : SramVictim), (2 ≤ s.modes.mode ∧ cls = 5 ∧ victim = .filter) →
    Does (exec (.sramUncorrectable cls addr victim) s) s [.outs, .boot, .mbx, .host, .evt, .modes, .flt, .cad, .clk, .fe, .cal, .air, .nb, .mlad, .cls, .fwd, .tm, .col, .dram, .ring, .drawn, .out] fun u => u.fwd = { s.fwd with rebuild := true } ∧ u.modes = s.modes) ∧
  (∀ (s : State) (cls : Nat) (addr : W32) (victim : SramVictim), (2 ≤ s.modes.mode ∧ cls = 4 ∧ victim = .matcher) →
    Does (exec (.sramUncorrectable cls addr victim) s) s [.outs, .boot, .mbx, .host, .evt, .modes, .flt, .cad, .clk, .fe, .cal, .air, .nb, .mlad, .cls, .fwd, .tm, .col, .dram, .ring, .drawn, .out] fun u => u.cls.buffer = s.cls.buffer.drop 1 ∧ u.modes = s.modes) ∧
  (∀ (s : State), (s.pwr.refclkSerdes = true ∧ s.modes.mode = 1 ∧ s.outs.z = false) →
    Does (exec .serdesRefclkFail s) s [.pwr, .outs, .boot, .host, .evt, .clk, .tm, .ring, .out] fun u => u.pwr = { s.pwr with refclkSerdes := false } ∧ u.outs.ringTx = .disabled ∧ u.modes = s.modes)

/-- Where nothing turns the command away and its operands are in range: BAND_CONFIG is accepted and begins to retune; CHAIN_ENABLE and TXPWR_SET change the chains named; FEM_CONFIG, COEX_CONFIG, BLANK_MAP, SOUNDING_CONFIG and PRECODE_CONFIG store their settings; RFFE_ACCESS joins its bus and answers later; CHAIN_STATUS gives the band's state; FACTORY_TEST and SPECTRUM_SURVEY are accepted and run; CSI_READ of the counters gives them and clears them where asked. -/
def Obligations.Family04CommandsAnswer : Prop :=
  (∀ (s : State) (d : Doorbell) (p : List Byte), Ready specBandConfig d p s → pendingOf s d.mb.val < 32 → let c := cmdOf specBandConfig d p s
    (c.u 16 1 ≤ 1 ∧ c.u 17 1 ≤ 3 ∧ c.u 20 1 < 2 ^ c.u 17 1 ∧ channelOk (c.u 16 1) (c.u 17 1) (c.u 18 2) = true ∧ s.modes.mode = 4) →
    Accepts (exec (.bandConfig d p) s) specBandConfig d p s [.mbx, .evt, .fe] fun u => (getBand u (c.u 16 1)).retune = some { width := c.u 17 1, center := c.u 18 2, primary := c.u 20 1, enable := bit (c.u 21 1) 0 } ∧ (getBand u (c.u 16 1)).tracked = false ∧ (getBand u (c.u 16 1)).loReady = false ∧ (getBand u (c.u 16 1)).ch = (getBand s (c.u 16 1)).ch) ∧
  (∀ (s : State) (d : Doorbell) (p : List Byte), Ready specChainEnable d p s → let c := cmdOf specChainEnable d p s
    (c.u 16 1 ≤ 1 ∧ ((getBand s (c.u 16 1)).chains.all fun k => k.cause == 0) = true) →
    Answers (exec (.chainEnable d p) s) specChainEnable d p s [.outs, .boot, .mbx, .host, .evt, .clk, .fe, .col, .out] (.okAir) fun u => u.fe = (onBand (c.u 16 1) (fun f => { f with chains := f.chains.zipIdx.map fun x => { x.1 with enabled := bit (c.u (20 + x.2 / 8) 1) (x.2 % 8) } }) s).fe) ∧
  (∀ (s : State) (d : Doorbell) (p : List Byte), Ready specTxpwrSet d p s → let c := cmdOf specTxpwrSet d p s
    (c.u 16 1 ≤ 1 ∧ c.u 18 1 ≤ 95 ∧ 1 ≤ c.u 19 1 ∧ c.u 18 1 + c.u 19 1 ≤ 96 ∧ badDrive c (getBand s (c.u 16 1)).femGain (c.u 18 1) (c.u 19 1) = none) →
    Answers (exec (.txpwrSet d p) s) specTxpwrSet d p s [.mbx, .evt, .fe] (.okAir) fun u => u.fe = (onBand (c.u 16 1) (fun f => { f with chains := f.chains.zipIdx.map fun x => if c.u 18 1 ≤ x.2 && x.2 < c.u 18 1 + c.u 19 1 then { x.1 with txpwr := c.i (20 + 2 * (x.2 - c.u 18 1)) 2, drive := c.i (20 + 2 * (x.2 - c.u 18 1)) 2 - (getBand s (c.u 16 1)).femGain, powerSet := true } else x.1 }) s).fe) ∧
  (∀ (s : State) (d : Doorbell) (p : List Byte), Ready specFemConfig d p s → let c := cmdOf specFemConfig d p s
    (femConfigOk c = true) →
    Answers (exec (.femConfig d p) s) specFemConfig d p s [.mbx, .evt, .fe] (.ok) fun u => (getBand u (c.u 16 1)).femGain = c.i 32 2 ∧ (getBand u (c.u 16 1)).tPa = c.u 24 2 ∧ (getBand u (c.u 16 1)).tHold = c.u 26 2 ∧ (getBand u (c.u 16 1)).mmInterval = c.u 44 2 ∧ (getBand u (c.u 16 1)).stbyReg = c.u 40 2 ∧ (getBand u (c.u 16 1)).ch = (getBand s (c.u 16 1)).ch) ∧
  (∀ (s : State) (d : Doorbell) (p : List Byte), Ready specRffeAccess d p s → let c := cmdOf specRffeAccess d p s
    (c.u 16 1 ≤ 1 ∧ c.u 17 1 ≤ 2 ∧ c.u 18 1 ≤ 15 ∧ c.u 19 1 = 3 ∧ c.u 20 2 ≤ 0xFF ∧ 1 ≤ c.u 22 1 ∧ c.u 22 1 ≤ 4) →
    Does (exec (.rffeAccess d p) s) s [.mbx, .evt, .fe, .out] fun u => (getBand u (c.u 16 1)).rffe = updAt (getBand s (c.u 16 1)).rffe (c.u 17 1) fun l => l ++ [{ usid := c.u 18 1, op := 3, addr := c.u 20 2, data := c.bytes 24 (c.u 22 1), count := c.u 22 1, by_ := some c }]) ∧
  (∀ (s : State) (d : Doorbell) (p : List Byte), Ready specCoexConfig d p s → let c := cmdOf specCoexConfig d p s
    (c.u 16 1 ≤ 2 ∧ 2 ≤ c.u 18 2 ∧ c.u 18 2 ≤ 100 ∧ c.u 20 1 ≤ 2) →
    Answers (exec (.coexConfig d p) s) specCoexConfig d p s [.mbx, .evt, .fe] (.okAir) fun u => u.fe = { s.fe with coexMode := c.u 16 1, coexMask := c.u 17 1, reqLead := c.u 18 2, priPolicy := c.u 20 1, coexResp := bit (c.u 21 1) 0 }) ∧
  (∀ (s : State) (d : Doorbell) (p : List Byte), Ready specBlankMap d p s → let c := cmdOf specBlankMap d p s
    (c.u 20 2 ≤ 10000) →
    Answers (exec (.blankMap d p) s) specBlankMap d p s [.mbx, .evt, .fe] (.okAir) fun u => u.fe = { s.fe with blankMap := [16, 17, 18, 19].map fun o => BitVec.ofNat 6 (c.u o 1), blankTail := c.u 20 2 }) ∧
  (∀ (s : State) (d : Doorbell) (p : List Byte), Ready specChainStatus d p s → let c := cmdOf specChainStatus d p s
    (c.u 16 1 ≤ 1 ∧ 1 ≤ c.u 18 1 ∧ c.u 18 1 ≤ 48 ∧ c.u 17 1 + c.u 18 1 ≤ 96) →
    Answers (exec (.chainStatus d p) s) specChainStatus d p s [.mbx, .evt] (let f := getBand s (c.u 16 1); .ok (le 1 (c.u 16 1) ++ le 1 f.main ++ le 1 f.sa ++ le 1 f.sb ++ le 2 f.ch.center ++ le 1 f.ch.width ++ le 1 ((f.chains.filter fun x => x.cause != 0).length) ++ (f.outc.flatMap fun x => le 4 x.toNat) ++ ((f.chains.drop (c.u 17 1)).take (c.u 18 1)).flatMap fun x => le 1 (if x.cause != 0 then 2 else if x.enabled then 1 else 0) ++ le 1 x.cause ++ le 1 x.slice ++ le 1 x.rl ++ leI 2 x.txpwr ++ leI 1 (if x.proving then -96 else x.drive) ++ [0])) fun u => u.fe = s.fe) ∧
  (∀ (s : State) (d : Doorbell) (p : List Byte), Ready specFactoryTest d p s → pendingOf s d.mb.val < 32 → let c := cmdOf specFactoryTest d p s
    (c.u 16 1 = 1 ∧ c.u 17 1 ≤ 1 ∧ c.u 18 1 ≤ 95 ∧ c.i 20 4 = 0 ∧ c.i 24 2 = 0 ∧ 1 ≤ c.u 26 2 ∧ c.u 26 2 ≤ 10000 ∧ opPending s 0x0501 = false) →
    Accepts (exec (.factoryTest d p) s) specFactoryTest d p s [.outs, .mbx, .evt, .fe] fun u => u.fe = { s.fe with test := some (1, c.u 17 1, c.u 18 1) } ∧ u.outs.paen = s.outs.paen ||| lineMask (c.u 17 1) (testGroups (getBand s (c.u 17 1)) (c.u 18 1)) ∧ u.outs.dac = s.outs.dac) ∧
  (∀ (s : State) (d : Doorbell) (p : List Byte), Ready specSpectrumSurvey d p s → pendingOf s d.mb.val < 32 → let c := cmdOf specSpectrumSurvey d p s
    (c.u 16 1 = 0 ∧ c.u 17 1 ≤ 95 ∧ 5150 ≤ c.u 20 2 ∧ c.u 20 2 ≤ c.u 22 2 ∧ c.u 22 2 ≤ 5925 ∧ 100 ≤ c.u 24 4 ∧ c.u 24 4 ≤ 1000000 ∧ 32 ≤ c.u 28 1 ∧ c.u 28 1 ≤ 61 ∧ (getRing s (c.u 28 1)).type = 2) →
    Accepts (exec (.spectrumSurvey d p) s) specSpectrumSurvey d p s [.outs, .mbx, .evt, .fe] fun u => u.fe = { s.fe with survey := some (0, c.u 17 1, c.u 20 2, c.u 22 2, c.u 24 4, c.u 28 1) }) ∧
  (∀ (s : State) (d : Doorbell) (p : List Byte), Ready specSoundingConfig d p s → let c := cmdOf specSoundingConfig d p s
    (c.u 16 1 ≤ 1 ∧ 2 ≤ c.u 18 2 ∧ c.u 18 2 ≤ 1000 ∧ c.u 18 2 ≤ c.u 20 2 ∧ c.u 20 2 ≤ 2000 ∧ c.u 22 1 ≤ 20 ∧ 1 ≤ c.u 23 1 ∧ c.u 23 1 ≤ 4 ∧ c.u 24 1 ≤ 1 ∧ c.u 25 1 ≤ 1 ∧ 100 ≤ c.u 26 2 ∧ c.u 26 2 ≤ 60000 ∧ c.u 28 1 ≤ 60) →
    Answers (exec (.soundingConfig d p) s) specSoundingConfig d p s [.mbx, .evt, .air] (.okAir) fun u => getPhy u (c.u 16 1) = { getPhy s (c.u 16 1) with sndFlags := BitVec.ofNat 3 (c.u 17 1), resound := c.u 18 2, maxAge := c.u 20 2, frac := c.u 22 1, maxTx := c.u 23 1, ng := c.u 24 1, codebook := c.u 25 1, explicit := c.u 26 2, minSnr := c.u 28 1 }) ∧
  (∀ (s : State) (d : Doorbell) (p : List Byte), Ready specPrecodeConfig d p s → let c := cmdOf specPrecodeConfig d p s
    (c.u 16 1 ≤ 1 ∧ c.u 18 2 ≤ 256 ∧ 6 ≤ c.u 20 1 ∧ c.u 20 1 ≤ 20 ∧ c.u 21 1 ≤ 11 ∧ c.u 22 1 ≤ 3 ∧ c.u 23 1 ≤ 1 ∧ 1 ≤ c.u 25 1 ∧ c.u 25 1 ≤ 8 ∧ bit (c.u 24 1) (getBand s (c.u 16 1)).ch.primary = false ∧ punctOk (getBand s (c.u 16 1)).ch.width (c.u 24 1) = true) →
    Answers (exec (.precodeConfig d p) s) specPrecodeConfig d p s [.mbx, .evt, .air] (.okAir) fun u => getPhy u (c.u 16 1) = { getPhy s (c.u 16 1) with restartEn := bit (c.u 17 1) 0, reg := c.u 18 2, stepDb := c.u 20 1, broad := c.u 21 1, gi := c.u 22 1, tbGi := c.u 23 1, punct := BitVec.ofNat 8 (c.u 24 1), maxSets := c.u 25 1 }) ∧
  (∀ (s : State) (d : Doorbell) (p : List Byte), Ready specCsiRead d p s → let c := cmdOf specCsiRead d p s
    (c.u 16 1 = 2 ∧ c.u 17 1 ≤ 1 ∧ bit (c.u 22 1) 0 = true) →
    Answers (exec (.csiRead d p) s) specCsiRead d p s [.mbx, .evt, .air] (.ok (ctrBytes (getPhy s (c.u 17 1)).ctr ++ le 4 0)) fun u => getPhy u (c.u 17 1) = { getPhy s (c.u 17 1) with ctr := zeroed (getPhy s (c.u 17 1)).ctr }) ∧
  (∀ (s : State) (d : Doorbell) (p : List Byte), Ready specCsiRead d p s → let c := cmdOf specCsiRead d p s
    (c.u 16 1 = 2 ∧ c.u 17 1 ≤ 1 ∧ bit (c.u 22 1) 0 = false) →
    Answers (exec (.csiRead d p) s) specCsiRead d p s [.mbx, .evt, .air] (.ok (ctrBytes (getPhy s (c.u 17 1)).ctr ++ le 4 0)) fun u => u.air = s.air) ∧
  (∀ (s : State) (d : Doorbell) (p : List Byte), Ready specCsiRead d p s → let c := cmdOf specCsiRead d p s
    (c.u 16 1 = 0 ∧ c.u 17 1 ≤ 1 ∧ c.u 18 2 ≤ 2047 ∧ c.u 20 1 ≤ 3 ∧ c.u 21 1 < toneGroups (getBand s (c.u 17 1)).ch.width ∧ getSta s (c.u 18 2) = none) →
    Answers (exec (.csiRead d p) s) specCsiRead d p s [.mbx, .evt, .air] (.err 0x0405) fun u => u.air = s.air)

/-- An RFFE transaction that ends leaves the head of its bus, and a read with bad parity is retried once; a mismatch measurement turns to the next group and ends there; a relocked standby synthesizer is locked and tracked; a factory test ends with PAEN, TRSW and the DACs off; a survey's last span ends the survey; a preamble detected in service makes the receiver hold its gains, a false detection frees it and is counted, a step of level restarts it and is counted. -/
def Obligations.RadioEventsTakeEffect : Prop :=
  (∀ (s : State) (band : BandId) (bus : Nat) (parityOk : Bool) (data : List Byte) (x : Rffe), ((getBand s band.num).rffe.getD bus [] = [x] ∧ x.op = 3 ∧ x.by_ = none) →
    Does (exec (.rffeTransactionDone band bus parityOk data) s) s [.boot, .mbx, .host, .evt, .clk, .fe, .ring, .out] fun u => (getBand u band.num).rffe = updAt (getBand s band.num).rffe bus fun l => l.drop 1) ∧
  (∀ (s : State) (band : BandId) (bus : Nat) (parityOk : Bool) (data : List Byte) (x : Rffe) (rest : List Rffe), ((getBand s band.num).rffe.getD bus [] = x :: rest ∧ x.op = 4 ∧ parityOk = false ∧ x.retried = false) →
    Does (exec (.rffeTransactionDone band bus parityOk data) s) s [.boot, .mbx, .host, .evt, .clk, .fe, .ring, .out] fun u => (getBand u band.num).rffe = setAt (getBand s band.num).rffe bus ({ x with retried := true } :: rest) ∧ u.out = Emit.rffe band.num bus x.usid x.op x.addr [] :: s.out) ∧
  (∀ (s : State) (band : BandId), (s.modes.mode = 5 ∧ (getBand s band.num).cplReg ≠ 0xFFFF ∧ (getBand s band.num).mmGroup = none) →
    Does (exec (.mismatchMeasureDue band) s) s [.fe, .out] fun u => (getBand u band.num).mmGroup = some (getBand s band.num).mmNext ∧ (getBand u band.num).mmNext = ((getBand s band.num).mmNext + 1) % 12) ∧
  (∀ (s : State) (band : BandId) (rl : List Nat) (g : Nat), ((getBand s band.num).mmGroup = some g) →
    Does (exec (.mismatchCaptureDone band rl) s) s [.outs, .boot, .host, .evt, .clk, .fe, .col, .out] fun u => (getBand u band.num).mmGroup = none) ∧
  (∀ (s : State) (band : BandId) (synth : Bool), (((getBand s band.num).synth (b2n synth) = 2 ∨ (getBand s band.num).synth (b2n synth) = 3) ∧ b2n synth ≠ (getBand s band.num).main ∧ 4 ≤ s.modes.mode ∧ s.modes.mode ≤ 6 ∧ (getBand s band.num).synth (getBand s band.num).main ≠ 4) →
    Does (exec (.standbyRelocked band synth) s) s [.boot, .host, .evt, .clk, .fe, .drawn, .out] fun u => (getBand u band.num).synth (b2n synth) = 1 ∧ (getBand u band.num).tracked = true ∧ (getBand u band.num).main = (getBand s band.num).main ∧ u.drawn = s.drawn) ∧
  (∀ (s : State) (x : Nat × Nat × Nat), (s.fe.test = some x) →
    Does (exec .factoryTestDone s) s [.outs, .boot, .mbx, .host, .evt, .clk, .fe, .ring, .out] fun u => u.fe.test = none ∧ u.outs.dac = 0 ∧ u.outs.paen = 0) ∧
  (∀ (s : State) (bins : List Byte) (ch a z dwell r : Nat), (s.fe.survey = some (0, ch, a, z, dwell, r) ∧ z ≤ a + 160) →
    Does (exec (.surveySpanDone bins) s) s [.outs, .boot, .mbx, .host, .evt, .clk, .fe, .tm, .ring, .out] fun u => u.fe.survey = none) ∧
  (∀ (s : State) (bins : List Byte) (ch a z dwell r : Nat), (s.fe.survey = some (0, ch, a, z, dwell, r) ∧ a + 160 < z) →
    Does (exec (.surveySpanDone bins) s) s [.outs, .boot, .mbx, .host, .evt, .clk, .fe, .tm, .ring, .out] fun u => u.fe.survey = some (0, ch, a + 160, z, dwell, r)) ∧
  (∀ (s : State) (band : BandId), (rxOpen s band.num = true ∧ (getPhy s band.num).rx = 0) →
    Does (exec (.wbPreambleDetected band) s) s [.air] fun u => getPhy u band.num = { getPhy s band.num with rx := 2, rxNs := nowNs s }) ∧
  (∀ (s : State) (band : BandId), ((getPhy s band.num).rx = 1 ∨ (getPhy s band.num).rx = 2) →
    Does (exec (.wbRxFalseDet band) s) s [.air] fun u => getPhy u band.num = { getPhy s band.num with rx := 0, ctr := bump (getPhy s band.num).ctr 9 }) ∧
  (∀ (s : State) (band : BandId) (rise : Int), ((getPhy s band.num).restartEn = true ∧ (getPhy s band.num).rx = 2 ∧ ((getPhy s band.num).stepDb : Int) ≤ rise) →
    Does (exec (.wbRxRestart band rise) s) s [.air] fun u => getPhy u band.num = { getPhy s band.num with rx := 0, rxNs := nowNs s, ctr := bump (getPhy s band.num).ctr 8 })

/-- CAL_RUN is accepted with its types, band and chains; CAL_STATUS, CAL_TABLE_READ of a stored record and SLICE_STATUS give their data; CAL_SCHEDULE outside SERVE stores its settings at once; CAL_TABLE_STORE is accepted. A run that ends is over; an erase that ends clears the records of the chains and slices in MRAM. In a calibration gap the group visited counts a visit. A measurement of an excluded chain is noted and not taken. The store interval writes what has been edited. The narrowband interval makes the background types due. -/
def Obligations.CalibrationRowsTakeEffect : Prop :=
  (∀ (s : State) (d : Doorbell) (p : List Byte), Ready specCalRun d p s → pendingOf s d.mb.val < 32 → let c := cmdOf specCalRun d p s
    (c.u 19 1 = 0 ∧ c.u 18 1 = 2 ∧ c.u 16 2 = 2) →
    Accepts (exec (.calRun d p) s) specCalRun d p s [.mbx, .evt, .fe, .cal] fun u => u.cal = { s.cal with run := some { types := 2, band := 2, flags := 0, chains := runChains c false s } }) ∧
  (∀ (s : State) (d : Doorbell) (p : List Byte), Ready specCalStatus d p s → let c := cmdOf specCalStatus d p s
    (c.u 16 1 = 2 ∧ c.u 17 1 = 0 ∧ c.u 18 1 = 1) →
    Answers (exec (.calStatus d p) s) specCalStatus d p s [.mbx, .evt] (.ok ([2, 0, 0, 0] ++ le 4 (ctrAt s.cal.swapCount 2) ++ le 4 (ctrAt s.cal.swapSkipped 2) ++ le 4 (ctrAt s.cal.powerShort 2) ++ (let k := getCC s 192; le 4 k.count ++ le 8 k.lastNs ++ le 1 k.result ++ le 1 k.type ++ le 1 (b2n k.near + 2 * b2n k.clamped + 4 * b2n (!k.provisional.isEmpty)) ++ [0] ++ le 4 k.disagree))) fun u => u.cal = s.cal) ∧
  (∀ (s : State) (d : Doorbell) (p : List Byte), Ready specCalSchedule d p s → let c := cmdOf specCalSchedule d p s
    (c.u 16 1 % 2 = 0 ∧ 4 ≤ c.u 16 1 ∧ c.u 16 1 ≤ 64 ∧ 1 ≤ c.u 17 1 ∧ c.u 17 1 ≤ 20 ∧ 100 ≤ c.u 18 2 ∧ c.u 18 2 ≤ 10000 ∧ c.u 20 2 = 0 ∧ 10 ≤ c.u 22 2 ∧ c.u 22 2 ≤ 3600 ∧ 1 ≤ c.u 24 1 ∧ c.u 24 1 ≤ 8 ∧ s.modes.mode ≠ 5) →
    Answers (exec (.calSchedule d p) s) specCalSchedule d p s [.mbx, .evt, .cal] (.ok) fun u => u.cal = { s.cal with gapInterval := c.u 16 1, tempStep := c.u 17 1, recip := c.u 18 2, storeS := 0, nbS := c.u 22 2, shadow := c.u 24 1, bgTypes := BitVec.ofNat 8 (c.u 25 1), nextSched := none }) ∧
  (∀ (s : State) (d : Doorbell) (p : List Byte), Ready specCalSchedule d p s → let c := cmdOf specCalSchedule d p s
    (c.u 16 1 % 2 = 0 ∧ 4 ≤ c.u 16 1 ∧ c.u 16 1 ≤ 64 ∧ 1 ≤ c.u 17 1 ∧ c.u 17 1 ≤ 20 ∧ 100 ≤ c.u 18 2 ∧ c.u 18 2 ≤ 10000 ∧ c.u 20 2 = 0 ∧ 10 ≤ c.u 22 2 ∧ c.u 22 2 ≤ 3600 ∧ 1 ≤ c.u 24 1 ∧ c.u 24 1 ≤ 8 ∧ s.modes.mode = 5) →
    Answers (exec (.calSchedule d p) s) specCalSchedule d p s [.mbx, .evt, .cal] (.okAir) fun u => u.cal = { s.cal with nextSched := some (effBeat s true, [c.u 16 1, c.u 17 1, c.u 18 2, 0, c.u 22 2, c.u 24 1, c.u 25 1]) }) ∧
  (∀ (s : State) (d : Doorbell) (p : List Byte), Ready specCalTableRead d p s → let c := cmdOf specCalTableRead d p s
    (c.u 16 1 = 0 ∧ c.u 17 1 ≤ 1 ∧ c.u 18 2 < 96 ∧ c.u 20 1 ≤ 8) →
    Answers (exec (.calTableRead d p) s) specCalTableRead d p s [.mbx, .evt, .drawn] (.ok (storedRec s (9 * (96 * c.u 17 1 + c.u 18 2) + c.u 20 1))) fun u => u.cal = s.cal ∧ u.boot = s.boot) ∧
  (∀ (s : State) (d : Doorbell) (p : List Byte), Ready specCalTableStore d p s → pendingOf s d.mb.val < 32 → Accepts (exec (.calTableStore d p) s) specCalTableStore d p s [.mbx, .evt] fun u => u.cal = s.cal ∧ u.boot = s.boot) ∧
  (∀ (s : State) (d : Doorbell) (p : List Byte), Ready specSliceStatus d p s → let c := cmdOf specSliceStatus d p s
    (c.u 16 1 ≤ 1 ∧ c.u 17 1 ≤ 11) →
    Answers (exec (.sliceStatus d p) s) specSliceStatus d p s [.mbx, .evt] (.ok ((getGC s (c.u 16 1) (c.u 17 1)).slices.flatMap fun y => le 1 y.role ++ le 1 y.pos ++ le 1 y.result ++ [0] ++ le 4 y.spares)) fun u => u.cal = s.cal) ∧
  (∀ (s : State) (r : CalRun), (s.cal.run = some r) →
    Does (exec .calRunDone s) s [.boot, .mbx, .host, .evt, .clk, .fe, .cal, .ring, .out] fun u => u.cal.run = none) ∧
  (∀ (s : State) (l : LongCmd), (findLong s 0x0505 = some l ∧ bit (l.cmd.u 16 1) 0 = true ∧ l.cmd.path = .bar) →
    Does (exec .calTableStoreDone s) s [.boot, .mbx, .host, .evt, .clk, .cal, .ring, .out] fun u => u.boot.mram = memClear s.boot.mram 0x41000 (48 * 1764) ∧ u.boot.calSlices = [] ∧ u.cal = { s.cal with edits := [], sliceEdits := [] } ∧ u.mbx.longs = s.mbx.longs.erase l) ∧
  (∀ (s : State) (band : BandId) (matched : Bool) (fwd : List (Nat × Int)), (s.modes.mode = 5 ∧ domOn s (bandDom band.num) = true ∧ gapBeat s band.num (curBeat s) = true ∧ ((List.range 12).find? fun g => (getGC s band.num g).replace.isSome) = none) →
    Does (exec (.calGap band matched fwd) s) s [.outs, .boot, .host, .evt, .clk, .fe, .cal, .col, .drawn, .out] fun u => u.cal.nextGroup = updAt s.cal.nextGroup band.num fun n => (n + 1) % 12) ∧
  (∀ (s : State) (m : CalMeas), (s.flt.summitRun = true ∧ s.modes.mode = 4 ∧ m.slice = false ∧ m.index < 192 ∧ 3 ≤ m.type ∧ m.type ≤ 7 ∧ m.aborted = true ∧ ((getBand s (ccBand m.index)).chains.getD (m.index % 96) {}).cause ≠ 0) →
    Does (exec (.calMeasurementDone m) s) s [.outs, .boot, .host, .evt, .clk, .fe, .cal, .col, .out] fun u => getCC u m.index = { getCC s m.index with result := 6, type := m.type }) ∧
  (∀ (s : State) (m : CalMeas), (s.flt.summitRun = true ∧ s.modes.mode = 4 ∧ m.slice = false ∧ m.index < 192 ∧ m.type ≤ 2 ∧ m.aborted = true) →
    Does (exec (.calMeasurementDone m) s) s [.outs, .boot, .host, .evt, .clk, .fe, .cal, .col, .out] fun u => u = s) ∧
  (∀ (s : State), (s.modes.mode = 4 ∨ s.modes.mode = 5) →
    Does (exec .nbCalInterval s) s [.cal] fun u => (getCC u 195).due = ((getCC s 195).due ++ [1, 2, 7].filter fun t => s.cal.bgTypes.getLsbD t).eraseDups) ∧
  (∀ (s : State), (s.flt.summitRun = true ∧ s.cal.storeS ≠ 0) →
    Does (exec .calStoreInterval s) s [.boot, .cal] fun u => u.cal = { s.cal with edits := [], sliceEdits := [] })

/-- With its fields in range and nothing in the way, STA_ADD enters the station with the parameters given and everything else at its start; an occupied entry or an address in use is refused; STA_MODIFY replaces the parameters where the addresses and the AID stay; STA_REMOVE deletes a station without flows together with its pledges and its channel state, and counts the frames that it held; STA_GET gives the parameters, the counters or the band's counters; AC_PARAM_SET, TURN_PLAN_SET, AIR_GATE_SET, BEACON_TEMPLATE, LINK_STEER and POLICY_BIND store what they carry. -/
def Obligations.Family06CommandsAnswer : Prop :=
  (∀ (s : State) (d : Doorbell) (p : List Byte), Ready specStaAdd d p s → let c := cmdOf specStaAdd d p s
    (staOk c = true ∧ getSta s (c.u 16 2) = none ∧ addrTaken s (c.u 16 2) (staParm c) = false ∧ aidTaken s (c.u 16 2) (staParm c) = false) →
    Answers (exec (.staAdd d p) s) specStaAdd d p s [.mbx, .evt, .air] (.okAir) fun u => getSta u (c.u 16 2) = some { p := staParm c } ∧ (∀ m, m ≠ c.u 16 2 → getSta u m = getSta s m) ∧ u.air = { s.air with stas := u.air.stas }) ∧
  (∀ (s : State) (d : Doorbell) (p : List Byte), Ready specStaAdd d p s → let c := cmdOf specStaAdd d p s
    (staOk c = true ∧ (getSta s (c.u 16 2)).isSome = true) →
    Answers (exec (.staAdd d p) s) specStaAdd d p s [.mbx, .evt, .air] (.err 0x0601) fun u => u.air = s.air) ∧
  (∀ (s : State) (d : Doorbell) (p : List Byte) (x : Sta), Ready specStaModify d p s → let c := cmdOf specStaModify d p s
    (staOk c = true ∧ getSta s (c.u 16 2) = some x ∧ (staParm c).bss = x.p.bss ∧ (staParm c).aid = x.p.aid ∧ (staParm c).mld = x.p.mld ∧ (staParm c).addrM = x.p.addrM ∧ (staParm c).addrH = x.p.addrH) →
    Answers (exec (.staModify d p) s) specStaModify d p s [.mbx, .evt, .air] (.okAir) fun u => getSta u (c.u 16 2) = some { x with p := staParm c } ∧ (∀ m, m ≠ c.u 16 2 → getSta u m = getSta s m) ∧ u.air = { s.air with stas := u.air.stas }) ∧
  (∀ (s : State) (d : Doorbell) (p : List Byte), Ready specStaModify d p s → let c := cmdOf specStaModify d p s
    (staOk c = true ∧ getSta s (c.u 16 2) = none) →
    Answers (exec (.staModify d p) s) specStaModify d p s [.mbx, .evt, .air] (.err 0x0602) fun u => u.air = s.air) ∧
  (∀ (s : State) (d : Doorbell) (p : List Byte) (x : Sta), Ready specStaRemove d p s → let c := cmdOf specStaRemove d p s
    (c.u 16 2 ≤ 2047 ∧ getSta s (c.u 16 2) = some x ∧ (s.air.bfs.any fun f => f.2.p.sta = c.u 16 2) = false) →
    Answers (exec (.staRemove d p) s) specStaRemove d p s [.mbx, .evt, .air] (.okAir) fun u => u.air = { s.air with stas := Tab.erase s.air.stas (c.u 16 2), flushed := satAdd 32 s.air.flushed (sumOf (x.q.map List.length)), pledges := s.air.pledges.filter (fun e => e.1 / 2 != c.u 16 2), csi := s.air.csi.filter (fun e => e.1 / 1024 != c.u 16 2), csiNew := s.air.csiNew.filter (fun e => e.1 / 1024 != c.u 16 2) }) ∧
  (∀ (s : State) (d : Doorbell) (p : List Byte) (x : Sta), Ready specStaRemove d p s → let c := cmdOf specStaRemove d p s
    (c.u 16 2 ≤ 2047 ∧ getSta s (c.u 16 2) = some x ∧ (s.air.bfs.any fun f => f.2.p.sta = c.u 16 2) = true) →
    Answers (exec (.staRemove d p) s) specStaRemove d p s [.mbx, .evt, .air] (.err 0x0603) fun u => u.air = s.air) ∧
  (∀ (s : State) (d : Doorbell) (p : List Byte), Ready specStaGet d p s → let c := cmdOf specStaGet d p s
    (c.u 16 1 = 2 ∧ c.u 17 1 ≤ 1) →
    Answers (exec (.staGet d p) s) specStaGet d p s [.mbx, .evt] (.ok (ctrBytes (getAB s (c.u 17 1)).ctr)) fun u => u.air = s.air) ∧
  (∀ (s : State) (d : Doorbell) (p : List Byte) (x : Sta), Ready specStaGet d p s → let c := cmdOf specStaGet d p s
    (c.u 16 1 = 0 ∧ c.u 18 2 ≤ 2047 ∧ getSta s (c.u 18 2) = some x) →
    Answers (exec (.staGet d p) s) specStaGet d p s [.mbx, .evt] (.ok (staBytes (c.u 18 2) x.p)) fun u => u.air = s.air) ∧
  (∀ (s : State) (d : Doorbell) (p : List Byte), Ready specAcParamSet d p s → let c := cmdOf specAcParamSet d p s
    (c.u 16 1 ≤ 1 ∧ c.u 17 1 ≤ 100 ∧ c.u 18 2 ≤ 50000 ∧ c.u 20 2 ≤ 50000 ∧ c.u 22 1 ≤ 32 ∧ 1 ≤ c.u 23 1 ∧ c.u 23 1 ≤ 16 ∧ 10 ≤ c.u 24 2 ∧ c.u 24 2 ≤ 10000 ∧ 1 ≤ c.u 26 2 ∧ c.u 26 2 ≤ 1000 ∧ ((32 ≤ c.u 28 1 ∧ c.u 28 1 ≤ 61) ∨ c.u 28 1 = 0xFF) ∧ c.u 30 1 ≤ 40 ∧ 1 ≤ c.u 31 1 ∧ ((List.range 4).map (acParm c)).all AcParm.ok = true) →
    Answers (exec (.acParamSet d p) s) specAcParamSet d p s [.mbx, .evt, .air] (.okAir) fun u => getAB u (c.u 16 1) = { getAB s (c.u 16 1) with ulPct := c.u 17 1, head := c.u 18 2, tail := c.u 20 2, retrySym := c.u 22 1, minSym := c.u 23 1, quantum := c.u 24 2, reorderMs := c.u 26 2, outRing := c.u 28 1, outMask := BitVec.ofNat 8 (c.u 29 1), mcsMargin := c.u 30 1, bsrp := c.u 31 1, ac := (List.range 4).map (acParm c) }) ∧
  (∀ (s : State) (d : Doorbell) (p : List Byte) (f b : Nat), Ready specTurnPlanSet d p s → let c := cmdOf specTurnPlanSet d p s
    (c.u 16 1 ≤ 1 ∧ 1 ≤ c.u 18 2 ∧ c.u 18 2 ≤ 1024 ∧ ((List.range (c.u 18 2)).map fun p => c.u (28 + p / 4) 1 / 4 ^ (p % 4) % 4).contains 3 = false ∧ startBeat s (c.u 20 6) (bit (c.u 17 1) 0) = some (f, b)) →
    Answers (exec (.turnPlanSet d p) s) specTurnPlanSet d p s [.mbx, .evt, .air] (.okAir) fun u => getAB u (c.u 16 1) = { getAB s (c.u 16 1) with turns := { cycle := c.u 18 2, start := b, from_ := f, kinds := (List.range (c.u 18 2)).map (fun p => c.u (28 + p / 4) 1 / 4 ^ (p % 4) % 4), runLate := bit (c.u 17 1) 0 } :: (getAB s (c.u 16 1)).turns }) ∧
  (∀ (s : State) (d : Doorbell) (p : List Byte), Ready specTurnPlanSet d p s → let c := cmdOf specTurnPlanSet d p s
    (c.u 16 1 ≤ 1 ∧ 1 ≤ c.u 18 2 ∧ c.u 18 2 ≤ 1024 ∧ ((List.range (c.u 18 2)).map fun p => c.u (28 + p / 4) 1 / 4 ^ (p % 4) % 4).contains 3 = false ∧ c.u 20 6 ≠ 0 ∧ c.u 20 6 < effBeat s true ∧ bit (c.u 17 1) 0 = false) →
    Answers (exec (.turnPlanSet d p) s) specTurnPlanSet d p s [.mbx, .evt, .air] (.err 0x0604) fun u => u.air = s.air) ∧
  (∀ (s : State) (d : Doorbell) (p : List Byte) (f b : Nat), Ready specAirGateSet d p s → let c := cmdOf specAirGateSet d p s
    (c.u 16 1 ≤ 1 ∧ c.u 17 1 ≤ 64 ∧ 1 ≤ c.u 18 1 ∧ c.u 18 1 ≤ 64 ∧ (∀ i, i < 5 → 100 ≤ c.u (28 + 2 * i) 2 ∧ c.u (28 + 2 * i) 2 ≤ 5484) ∧ ((gateEntries c).all fun e => decide (e.1 < c.u 18 1)) = true ∧ badGate s c = none ∧ startBeat s (c.u 20 6) (bit (c.u 19 1) 0) = some (f, b)) →
    Answers (exec (.airGateSet d p) s) specAirGateSet d p s [.mbx, .evt, .air] (.okAir) fun u => getAB u (c.u 16 1) = { getAB s (c.u 16 1) with gates := { cycleBeats := c.u 18 1, start := b, from_ := f, entries := gateEntries c, runLate := bit (c.u 19 1) 0 } :: (getAB s (c.u 16 1)).gates, maxAir := (List.range 5).map (fun i => c.u (28 + 2 * i) 2) }) ∧
  (∀ (s : State) (d : Doorbell) (p : List Byte), Ready specBeaconTemplate d p s → let c := cmdOf specBeaconTemplate d p s
    (c.u 16 1 ≤ 1 ∧ c.u 17 1 ≤ 7 ∧ 1 ≤ c.u 19 1 ∧ 20 ≤ c.u 20 2 ∧ c.u 20 2 ≤ 1000 ∧ 24 ≤ c.u 26 2 ∧ c.u 26 2 ≤ 448 ∧ c.u 34 2 ≤ 8191 ∧ c.u 36 1 ∈ [6, 9, 12, 18, 24, 36, 48, 54] ∧ 32 ≤ c.u 37 1 ∧ c.u 37 1 ≤ 61 ∧ c.u 22 2 + 8 ≤ c.u 26 2 ∧ (c.u 24 2 = 0xFFFF ∨ c.u 24 2 < c.u 26 2)) →
    Answers (exec (.beaconTemplate d p) s) specBeaconTemplate d p s [.mbx, .evt, .air] (.okAir) fun u => ∃ x, Tab.get? (getAB u (c.u 16 1)).bss (c.u 17 1) = some x ∧ x.enable = bit (c.u 18 1) 0 ∧ x.dtim = c.u 19 1 ∧ x.interval = c.u 20 2 ∧ x.tsfOff = c.u 22 2 ∧ x.timOff = c.u 24 2 ∧ x.bssid = c.u 28 6 ∧ x.gtk = c.u 34 2 ∧ x.rate = c.u 36 1 ∧ x.ring = c.u 37 1 ∧ x.template = c.bytes 48 (c.u 26 2) ∧ getAB u (c.u 16 1) = { getAB s (c.u 16 1) with bss := (getAB u (c.u 16 1)).bss }) ∧
  (∀ (s : State) (d : Doorbell) (p : List Byte), Ready specBeaconTemplate d p s → let c := cmdOf specBeaconTemplate d p s
    (c.u 16 1 ≤ 1 ∧ c.u 17 1 ≤ 7 ∧ 1 ≤ c.u 19 1 ∧ 20 ≤ c.u 20 2 ∧ c.u 20 2 ≤ 1000 ∧ 24 ≤ c.u 26 2 ∧ c.u 26 2 ≤ 448 ∧ c.u 34 2 ≤ 8191 ∧ c.u 36 1 = 6 ∧ c.u 37 1 = 32 ∧ c.u 26 2 < c.u 22 2 + 8) →
    Answers (exec (.beaconTemplate d p) s) specBeaconTemplate d p s [.mbx, .evt, .air] (.err 0x0606) fun u => u.air = s.air) ∧
  (∀ (s : State) (d : Doorbell) (p : List Byte) (x : Sta), Ready specLinkSteer d p s → let c := cmdOf specLinkSteer d p s
    (c.u 16 2 ≤ 2047 ∧ c.u 18 1 ≤ 4 ∧ getSta s (c.u 16 2) = some x ∧ x.p.flags.getLsbD 2 = true) →
    Answers (exec (.linkSteer d p) s) specLinkSteer d p s [.mbx, .evt, .air] (.okAir) fun u => getSta u (c.u 16 2) = some { x with steer := c.u 18 1, acLink := [20, 21, 22, 23].map (fun o => BitVec.ofNat 2 (c.u o 1)) } ∧ u.air = { s.air with stas := u.air.stas }) ∧
  (∀ (s : State) (d : Doorbell) (p : List Byte), Ready specPolicyBind d p s → let c := cmdOf specPolicyBind d p s
    (c.u 16 1 ≤ 1 ∧ c.u 18 2 = 0xFFFF ∧ 16 ≤ c.u 20 2 ∧ c.u 20 2 ≤ 1024) →
    Answers (exec (.policyBind d p) s) specPolicyBind d p s [.mbx, .evt, .air] (.okAir) fun u => getAB u (c.u 16 1) = { getAB s (c.u 16 1) with kernel := c.u 18 2, candMax := c.u 20 2 }) ∧
  (∀ (s : State) (d : Doorbell) (p : List Byte), Ready specPolicyBind d p s → let c := cmdOf specPolicyBind d p s
    (c.u 16 1 ≤ 1 ∧ c.u 18 2 ≤ 63 ∧ 16 ≤ c.u 20 2 ∧ c.u 20 2 ≤ 1024 ∧ ((Tab.get? s.col.kernels (c.u 18 2)).map (·.started)).getD false = false) →
    Answers (exec (.policyBind d p) s) specPolicyBind d p s [.mbx, .evt, .air] (eState) fun u => u.air = s.air)

/-- BF_ADMIT admits a flow that passes the test, from the effective beat on, and refuses one that is admitted already; BF_MODIFY of an unknown flow is refused; BF_RELEASE removes the flow, BF_STATUS and BF_STATS tell its state and counters, the counters cleared where asked; BF_PLEDGE_SET stores a pledge where no flow of the station and link depends on it, and a band's fraction, cap and review where no flow of the band does. A period's deadline decides it: it leaves the open periods. -/
def Obligations.Family07CommandsAnswer : Prop :=
  (∀ (s : State) (d : Doorbell) (p : List Byte) (r : AirTest), Ready specBfAdmit d p s → let c := cmdOf specBfAdmit d p s
    (bfOk s (c.u 16 2) (bfParm c (effBeat s true)) = true ∧ getBf s (c.u 16 2) = none ∧ c.u 32 6 = 0 ∧ admitTest s (c.u 16 2) (effBeat s true) { p := bfParm c (effBeat s true), from_ := effBeat s true, nextK := ceilDiv (effBeat s true - (bfParm c (effBeat s true)).first) (bfParm c (effBeat s true)).period } = (0, 0, r)) →
    Answers (exec (.bfAdmit d p) s) specBfAdmit d p s [.mbx, .evt, .air] (.okAir (bfData s (bfParm c (effBeat s true)).link 0 r)) fun u => (getBf u (c.u 16 2)).map (·.p) = some (bfParm c (effBeat s true)) ∧ (getBf u (c.u 16 2)).map (·.from_) = some (effBeat s true) ∧ (∀ m, m ≠ c.u 16 2 → getBf u m = getBf s m) ∧ u.air = { s.air with bfs := u.air.bfs }) ∧
  (∀ (s : State) (d : Doorbell) (p : List Byte), Ready specBfAdmit d p s → let c := cmdOf specBfAdmit d p s
    (bfOk s (c.u 16 2) (bfParm c (effBeat s true)) = true ∧ (getBf s (c.u 16 2)).isSome = true) →
    Answers (exec (.bfAdmit d p) s) specBfAdmit d p s [.mbx, .evt, .air] (.err 0x0706) fun u => u.air = s.air) ∧
  (∀ (s : State) (d : Doorbell) (p : List Byte), Ready specBfModify d p s → let c := cmdOf specBfModify d p s
    (bfOk s (c.u 16 2) (bfParm c (effBeat s true)) = true ∧ getBf s (c.u 16 2) = none) →
    Answers (exec (.bfModify d p) s) specBfModify d p s [.mbx, .evt, .air] (.err 0x0707) fun u => u.air = s.air) ∧
  (∀ (s : State) (d : Doorbell) (p : List Byte) (x : Bf) (r : AirTest), Ready specBfModify d p s → let c := cmdOf specBfModify d p s
    (bfOk s (c.u 16 2) (bfParm c (effBeat s true)) = true ∧ getBf s (c.u 16 2) = some x ∧ { bfParm c (effBeat s true) with first := x.newest.first } = { x.newest with maxFrame := c.u 24 2, fpp := c.u 26 1, attempts := c.u 27 1, deadline := c.u 30 2, flags := c.u 23 1 } ∧ x.newest.flags % 2 = c.u 23 1 % 2 ∧ admitTest s (c.u 16 2) (effBeat s true) { x with next := (effBeat s true, { x.newest with maxFrame := c.u 24 2, fpp := c.u 26 1, attempts := c.u 27 1, deadline := c.u 30 2, flags := c.u 23 1 }) :: x.next } = (0, 0, r)) →
    Answers (exec (.bfModify d p) s) specBfModify d p s [.mbx, .evt, .air] (.okAir (bfData s x.p.link 0 r)) fun u => getBf u (c.u 16 2) = some { x with next := (effBeat s true, { x.newest with maxFrame := c.u 24 2, fpp := c.u 26 1, attempts := c.u 27 1, deadline := c.u 30 2, flags := c.u 23 1 }) :: x.next } ∧ u.air = { s.air with bfs := u.air.bfs }) ∧
  (∀ (s : State) (d : Doorbell) (p : List Byte), Ready specBfRelease d p s → let c := cmdOf specBfRelease d p s
    (c.u 16 2 ≤ 1023 ∧ (getBf s (c.u 16 2)).isSome = true) →
    Answers (exec (.bfRelease d p) s) specBfRelease d p s [.boot, .mbx, .host, .evt, .clk, .air, .out] (.okAir) fun u => getBf u (c.u 16 2) = none) ∧
  (∀ (s : State) (d : Doorbell) (p : List Byte), Ready specBfRelease d p s → let c := cmdOf specBfRelease d p s
    (c.u 16 2 ≤ 1023 ∧ getBf s (c.u 16 2) = none) →
    Answers (exec (.bfRelease d p) s) specBfRelease d p s [.boot, .mbx, .host, .evt, .clk, .air, .out] (.err 0x0707) fun u => u.air = s.air) ∧
  (∀ (s : State) (d : Doorbell) (p : List Byte), Ready specBfStatus d p s → let c := cmdOf specBfStatus d p s
    (c.u 16 2 ≤ 1023 ∧ getBf s (c.u 16 2) = none) →
    Answers (exec (.bfStatus d p) s) specBfStatus d p s [.mbx, .evt] (.ok ([0, 0, 0x80] ++ List.replicate 57 0)) fun u => u.air = s.air) ∧
  (∀ (s : State) (d : Doorbell) (p : List Byte) (x : Bf), Ready specBfStatus d p s → let c := cmdOf specBfStatus d p s
    (c.u 16 2 ≤ 1023 ∧ getBf s (c.u 16 2) = some x ∧ pledgeOf s x.p.sta x.p.link = none ∧ x.periods = []) →
    Answers (exec (.bfStatus d p) s) specBfStatus d p s [.mbx, .evt] (.ok (le 1 x.st ++ le 1 x.causes.toNat ++ leI 1 (-128) ++ [0] ++ le 4 ((curBeat s - x.p.first) / max 1 x.p.period) ++ le 6 0 ++ [0, 0] ++ bfBytes (c.u 16 2) x.newest)) fun u => u.air = s.air) ∧
  (∀ (s : State) (d : Doorbell) (p : List Byte) (x : Sta), Ready specBfPledgeSet d p s → let c := cmdOf specBfPledgeSet d p s
    (c.u 16 1 = 0 ∧ c.u 22 1 = 0 ∧ getSta s (c.u 20 2) = some x ∧ x.p.links.getLsbD 0 = true ∧ c.u 23 1 ≤ x.p.mcsM ∧ 1 ≤ c.u 24 1 ∧ c.u 24 1 ≤ 4 ∧ c.u 25 1 ≤ 40 ∧ (s.air.bfs.filter fun f => f.2.p.sta = c.u 20 2 && f.2.p.link = 0) = [] ∧ pledgeOf s (c.u 20 2) 0 = none) →
    Answers (exec (.bfPledgeSet d p) s) specBfPledgeSet d p s [.mbx, .evt, .air] (.okAir) fun u => pledgeOf u (c.u 20 2) 0 = some { mcs := c.u 23 1, ss := c.u 24 1, margin := c.u 25 1 } ∧ u.air = { s.air with pledges := u.air.pledges }) ∧
  (∀ (s : State) (d : Doorbell) (p : List Byte), Ready specBfPledgeSet d p s → let c := cmdOf specBfPledgeSet d p s
    (c.u 16 1 = 1 ∧ c.u 20 1 ≤ 1 ∧ 10 ≤ c.u 21 1 ∧ c.u 21 1 ≤ 90 ∧ c.u 21 1 ≤ c.u 22 1 ∧ c.u 22 1 ≤ 95 ∧ 1 ≤ c.u 23 1 ∧ bandBfs s (c.u 20 1) = []) →
    Answers (exec (.bfPledgeSet d p) s) specBfPledgeSet d p s [.mbx, .evt, .air] (.okAir) fun u => getAB u (c.u 20 1) = { getAB s (c.u 20 1) with frac := c.u 21 1, cap := c.u 22 1, review := c.u 23 1 }) ∧
  (∀ (s : State) (d : Doorbell) (p : List Byte) (x : Bf), Ready specBfStats d p s → let c := cmdOf specBfStats d p s
    (c.u 16 2 ≤ 1023 ∧ getBf s (c.u 16 2) = some x ∧ bit (c.u 18 1) 0 = true) →
    Answers (exec (.bfStats d p) s) specBfStats d p s [.mbx, .evt, .air] (.ok (ctrBytes x.ctr)) fun u => getBf u (c.u 16 2) = some { x with ctr := zeroed x.ctr }) ∧
  (∀ (s : State) (d : Doorbell) (p : List Byte) (x : Bf), Ready specBfStats d p s → let c := cmdOf specBfStats d p s
    (c.u 16 2 ≤ 1023 ∧ getBf s (c.u 16 2) = some x ∧ bit (c.u 18 1) 0 = false) →
    Answers (exec (.bfStats d p) s) specBfStats d p s [.mbx, .evt, .air] (.ok (ctrBytes x.ctr)) fun u => u.air = s.air) ∧
  (∀ (s : State) (bf k : Nat) (x : Bf) (q : BfPeriod), (s.modes.mode = 5 ∧ getBf s bf = some x ∧ x.period k = some q) →
    Does (exec (.bfDeadline bf k) s) s [.boot, .host, .evt, .cad, .clk, .air, .out] fun u => ∃ y, getBf u bf = some y ∧ y.period k = none) ∧
  (∀ (s : State) (bf k : Nat), (s.modes.mode ≠ 5) →
    Does (exec (.bfDeadline bf k) s) s [.boot, .host, .evt, .cad, .clk, .air, .out] fun u => u = s) ∧
  (∀ (s : State) (band : BandId) (beat : Nat) (q : Plan) (g : Grouping) (rest : List Grouping) (i : Nat), (getPlan s band.num beat = some q ∧ q.groupings = g :: rest ∧ q.st = 0 ∧ q.completed = false ∧ g.ppdu = some i) →
    Does (exec (.weightSetComplete band beat) s) s [.air] fun u => getPlan u band.num beat = some { q with groupings := rest, ppdus := updAt q.ppdus i fun x => { x with mf := false } } ∧ getPhy u band.num = { getPhy s band.num with ctr := bump (getPhy s band.num).ctr 0 })

/-- A blanking input's level is taken; released, nothing else changes, and its tail's expiry frees the detectors of the narrowband radios it maps to that nothing blanks. A failed channel change leaves the old channel; a good one outside SERVE makes the new channel the band's, in SERVE it is scheduled for the effective beat. At the end of the silence after SERVE the mode is WARM; a stage whose domains are up and whose handshake is over reaches its mode. -/
def Obligations.AirEdgeRowsTakeEffect : Prop :=
  (∀ (s : State) (input : BitVec 2), Does (exec (.blankInAssert input) s) s [.outs, .boot, .host, .evt, .clk, .fe, .air, .nb, .mlad, .tm, .cipher, .col, .drawn, .out] fun u => u.fe.blankIn = s.fe.blankIn ||| ((1 : BitVec 4) <<< input.toNat)) ∧
  (∀ (s : State) (input : BitVec 2), (s.fe.coexMode ≠ 2) →
    Does (exec (.blankInAssert input) s) s [.outs, .boot, .host, .evt, .clk, .fe, .air, .nb, .mlad, .tm, .cipher, .col, .drawn, .out] fun u => u = s.onFe fun f => { f with blankIn := f.blankIn ||| ((1 : BitVec 4) <<< input.toNat) }) ∧
  (∀ (s : State) (input : BitVec 2), Does (exec (.blankInRelease input) s) s [.fe] fun u => u.fe = { s.fe with blankIn := s.fe.blankIn &&& ~~~((1 : BitVec 4) <<< input.toNat) }) ∧
  (∀ (s : State) (input : BitVec 2) (i : Nat) (x : Xcvr), (s.fe.blankIn.getLsbD input.toNat = false ∧ s.nb.x[i]? = some x) →
    Does (exec (.blankTailExpiry input) s) s [.nb] fun u => u.nb.x[i]? = some (if (s.fe.blankMap.getD input.toNat 0).getLsbD (2 + i) && !blanked s (2 + i) then { x with held := false } else x)) ∧
  (∀ (s : State) (band : BandId) (ok : Bool) (l : LongCmd) (ch : Channel), (findLong s 0x0401 (fun c => c.u 16 1 == band.num) = some l ∧ (getBand s band.num).retune = some ch ∧ ok = false) →
    Does (exec (.bandConfigDone band ok) s) s [.outs, .boot, .mbx, .host, .evt, .clk, .fe, .cal, .air, .ring, .out] fun u => (getBand u band.num).retune = none ∧ (getBand u band.num).ch = (getBand s band.num).ch ∧ u.mbx.longs = s.mbx.longs.erase l) ∧
  (∀ (s : State) (band : BandId) (ok : Bool) (l : LongCmd) (ch : Channel), (findLong s 0x0401 (fun c => c.u 16 1 == band.num) = some l ∧ (getBand s band.num).retune = some ch ∧ ok = true ∧ s.modes.mode = 4) →
    Does (exec (.bandConfigDone band ok) s) s [.outs, .boot, .mbx, .host, .evt, .clk, .fe, .cal, .air, .ring, .out] fun u => (getBand u band.num).retune = none ∧ (getBand u band.num).ch = ch ∧ u.mbx.longs = s.mbx.longs.erase l) ∧
  (∀ (s : State) (band : BandId) (ok : Bool) (l : LongCmd) (ch : Channel), (findLong s 0x0401 (fun c => c.u 16 1 == band.num) = some l ∧ (getBand s band.num).retune = some ch ∧ ok = true ∧ s.modes.mode = 5) →
    Does (exec (.bandConfigDone band ok) s) s [.outs, .boot, .mbx, .host, .evt, .clk, .fe, .cal, .air, .ring, .out] fun u => (getBand u band.num).retune = none ∧ (getBand u band.num).ch = (getBand s band.num).ch ∧ (getBand u band.num).switchAt = some (effBeat s true, ch) ∧ u.mbx.longs = s.mbx.longs.erase l) ∧
  (∀ (s : State) (c : Nat) (t : Trans) (n : Nat) (x : Bf), (serveExit s = some c ∧ s.modes.trans = some t ∧ t.final = 4 ∧ s.air.bfs = [(n, x)]) →
    Does (exec .serveExitSilence s) s [.outs, .boot, .mbx, .host, .evt, .modes, .flt, .cad, .clk, .fe, .air, .nb, .mlad, .tm, .col, .ring, .out] fun u => u.modes.mode = 4 ∧ u.modes.trans = none ∧ getBf u n = none) ∧
  (∀ (s : State) (t : Trans), (s.modes.mode = 2 ∧ s.modes.trans = some t ∧ t.stage = 4 ∧ t.final = 4 ∧ t.handshaking = false ∧ t.committed = true ∧ domainsUp s 4 = true) →
    Does (exec .modeTransitionDone s) s [.outs, .boot, .mbx, .host, .evt, .modes, .flt, .cad, .clk, .fe, .air, .nb, .mlad, .tm, .col, .ring, .out] fun u => u.modes.mode = 4 ∧ u.modes.trans = none ∧ u.modes.lastCause = t.cause) ∧
  (∀ (s : State) (t : Trans), (s.modes.trans = some t ∧ t.handshaking = true) →
    Does (exec .modeTransitionDone s) s [.outs, .boot, .mbx, .host, .evt, .modes, .flt, .cad, .clk, .fe, .air, .nb, .mlad, .tm, .col, .ring, .out] fun u => u = s)

/-- A PPDU whose instant has come goes on air where it fits and nothing blanks it, and gets the outcome BLANKED where its band is blanked; its end leaves the air free and, where it solicits nothing, records outcome 0. A clear channel makes a PPDU ready; a busy primary with time left changes nothing, without time left the outcome is CCA_BUSY. A response, or the end of its wait, of the last user records the outcome; a missing response counts on the link. A coexistence request raises its lines; a grant withdrawn cuts the PPDU on air short. Access gained makes the head of a SHARE plan ready at its instant. A beacon too late is skipped. A lost lock changes to the tracked standby, or waits; a verified divider makes the oscillator ready; a synthesizer that fails to lock twice has FAILED, and with both failed the band is down. -/
def Obligations.PlannedPpduRowsTakeEffect : Prop :=
  (∀ (s : State) (band : BandId) (beat id : Nat) (grant : Bool) (q : Plan) (x : Ppdu), (getPlan s band.num beat = some q ∧ q.ppdus[id]? = some x ∧ q.st = 3 ∧ beat = curBeat s ∧ inService s band.num = true ∧ (getBand s band.num).down = false ∧ (getAB s band.num).onAir = none ∧ x.outcome = none ∧ x.start = none ∧ x.p ≤ curOff s + femLead s band.num ∧ curOff s + femLead s band.num + x.a ≤ x.w ∧ blanked s band.num = false ∧ (getBand s band.num).loReady = true ∧ s.fe.coexMode = 0 ∧ x.kind = 3 ∧ x.bf = false ∧ x.users = [] ∧ x.body = [] ∧ x.ready = true) →
    Does (exec (.ppduFemOn band beat id grant) s) s [.outs, .boot, .host, .evt, .clk, .fe, .air, .tm, .cipher, .col, .out] fun u => (getAB u band.num).onAir = some (beat, id) ∧ getPpdu u band.num beat id = some { x with start := some (curOff s + femLead s band.num), users := [], sent := 0 } ∧ u.out = Emit.air band.num id [] :: s.out) ∧
  (∀ (s : State) (band : BandId) (beat id : Nat) (grant : Bool) (q : Plan) (x : Ppdu), (getPlan s band.num beat = some q ∧ q.ppdus[id]? = some x ∧ q.st = 3 ∧ beat = curBeat s ∧ inService s band.num = true ∧ (getBand s band.num).down = false ∧ (getAB s band.num).onAir = none ∧ x.outcome = none ∧ x.start = none ∧ x.p ≤ curOff s + femLead s band.num ∧ blanked s band.num = true ∧ x.ready = true) →
    Does (exec (.ppduFemOn band beat id grant) s) s [.outs, .boot, .host, .evt, .clk, .fe, .air, .tm, .cipher, .col, .out] fun u => (getPpdu u band.num beat id).map (·.outcome) = some (some 0x0412) ∧ (getAB u band.num).onAir = none) ∧
  (∀ (s : State) (band : BandId) (beat id : Nat) (x : Ppdu), ((getAB s band.num).onAir = some (beat, id) ∧ getPpdu s band.num beat id = some x ∧ x.kind = 3 ∧ x.outcome = none ∧ s.fe.coexNext = false) →
    Does (exec (.ppduEnd band beat id) s) s [.outs, .host, .fe, .air, .tm, .col, .out] fun u => (getAB u band.num).onAir = none ∧ (getPpdu u band.num beat id).map (·.outcome) = some (some 0) ∧ u.outs.coexReq = false ∧ u.outs.coexPri = false) ∧
  (∀ (s : State) (band : BandId) (beat id : Nat) (busy : Byte) (q : Plan) (x : Ppdu), (getPlan s band.num beat = some q ∧ q.ppdus[id]? = some x ∧ q.st = 3 ∧ beat = curBeat s ∧ q.kind = 1 ∧ x.outcome = none ∧ x.start = none ∧ busy = 0) →
    Does (exec (.ccaCheckEnd band beat id busy) s) s [.boot, .host, .evt, .clk, .fe, .air, .tm, .col, .out] fun u => getPpdu u band.num beat id = some { x with ready := true } ∧ u.fe = s.fe) ∧
  (∀ (s : State) (band : BandId) (beat id : Nat) (busy : Byte) (q : Plan) (x : Ppdu), (getPlan s band.num beat = some q ∧ q.ppdus[id]? = some x ∧ q.st = 3 ∧ beat = curBeat s ∧ q.kind = 1 ∧ x.outcome = none ∧ x.start = none ∧ busy.getLsbD (getBand s band.num).ch.primary = true ∧ curOff s + 9000 + femLead s band.num + x.a ≤ x.w) →
    Does (exec (.ccaCheckEnd band beat id busy) s) s [.boot, .host, .evt, .clk, .fe, .air, .tm, .col, .out] fun u => u = s) ∧
  (∀ (s : State) (band : BandId) (beat id : Nat) (busy : Byte) (q : Plan) (x : Ppdu), (getPlan s band.num beat = some q ∧ q.ppdus[id]? = some x ∧ q.st = 3 ∧ beat = curBeat s ∧ q.kind = 1 ∧ x.outcome = none ∧ x.start = none ∧ busy.getLsbD (getBand s band.num).ch.primary = true ∧ x.w < curOff s + 9000 + femLead s band.num + x.a) →
    Does (exec (.ccaCheckEnd band beat id busy) s) s [.boot, .host, .evt, .clk, .fe, .air, .tm, .col, .out] fun u => (getPpdu u band.num beat id).map (·.outcome) = some (some 0x0610)) ∧
  (∀ (s : State) (band : BandId) (beat id : Nat) (sta : Nat) (acked : List Nat) (x : Ppdu) (v : PUser), (getPpdu s band.num beat id = some x ∧ x.start.isSome = true ∧ x.outcome = none ∧ x.users = [v] ∧ v.sta = sta ∧ v.resp = none) →
    Does (exec (.responseReceived band beat id sta acked) s) s [.outs, .boot, .host, .evt, .clk, .fe, .air, .tm, .col, .out] fun u => (getPpdu u band.num beat id).map (·.outcome) = some (some 0) ∧ (getPpdu u band.num beat id).map (·.acked) = some (x.acked + (acked.filter fun j => j < v.frames.length + v.bf.length).length)) ∧
  (∀ (s : State) (band : BandId) (beat id : Nat) (sta : Nat) (x : Ppdu) (v : PUser) (y : Sta), (getPpdu s band.num beat id = some x ∧ x.start.isSome = true ∧ x.outcome = none ∧ x.users = [v] ∧ v.sta = sta ∧ v.resp = none ∧ getSta s sta = some y) →
    Does (exec (.responseTimeout band beat id sta) s) s [.outs, .boot, .host, .evt, .clk, .fe, .air, .tm, .col, .out] fun u => (getPpdu u band.num beat id).map (·.outcome) = some (some 0) ∧ (getSta u sta).map (fun z => (z.link band.num).fails) = some ((y.link band.num).fails + 1)) ∧
  (∀ (s : State) (band : BandId) (beat id : Nat) (x : Ppdu), (getPpdu s band.num beat id = some x ∧ s.fe.coexMode = 1 ∧ bit s.fe.coexMask band.num = true ∧ x.outcome = none) →
    Does (exec (.coexRequest band beat id) s) s [.outs, .fe] fun u => u.outs = { s.outs with coexReq := true, coexPri := s.outs.coexPri || (decide (s.fe.priPolicy = 2) || (decide (s.fe.priPolicy = 1) && x.bf)) }) ∧
  (∀ (s : State) (band : BandId) (beat id : Nat) (x : Ppdu), (s.fe.coexMode = 1 ∧ bit s.fe.coexMask band.num = true ∧ (getAB s band.num).onAir = some (beat, id) ∧ getPpdu s band.num beat id = some x ∧ x.outcome = none) →
    Does (exec (.coexGntWithdrawn band) s) s [.outs, .boot, .host, .evt, .clk, .fe, .air, .tm, .col, .out] fun u => (getAB u band.num).onAir = none ∧ (getPpdu u band.num beat id).map (·.outcome) = some (some 0x0415)) ∧
  (∀ (s : State) (band : BandId), (s.fe.coexMode ≠ 1) →
    Does (exec (.coexGntWithdrawn band) s) s [.outs, .boot, .host, .evt, .clk, .fe, .air, .tm, .col, .out] fun u => u = s) ∧
  (∀ (s : State) (band : BandId) (ac : BitVec 2) (off : Nat) (q : Plan) (x : Ppdu), (getPlan s band.num (curBeat s) = some q ∧ q.st = 3 ∧ q.kind = 2 ∧ q.ppdus = [x] ∧ x.ready = false ∧ x.outcome = none ∧ x.kind = 4 ∧ off + x.p + x.a ≤ windowEnd (usableEnd s band.num) (blocksOf s band.num (curBeat s) q.reserved []) (off + x.p)) →
    Does (exec (.edcaAccessGained band ac off) s) s [.boot, .host, .evt, .clk, .fe, .air, .tm, .col, .drawn, .out] fun u => getPpdu u band.num (curBeat s) 0 = some { x with p := off + x.p, w := windowEnd (usableEnd s band.num) (blocksOf s band.num (curBeat s) q.reserved []) (off + x.p), ready := true }) ∧
  (∀ (s : State) (band : BandId) (bss : BitVec 3) (x : Bss), (Tab.get? (getAB s band.num).bss bss.toNat = some x ∧ x.enable = true ∧ inService s band.num = true ∧ tbttNs s x (x.nextTbtt + 1) ≤ nowNs s) →
    Does (exec (.beaconSkipped band bss) s) s [.boot, .host, .evt, .clk, .air, .out] fun u => Tab.get? (getAB u band.num).bss bss.toNat = some { x with nextTbtt := x.nextTbtt + 1 }) ∧
  (∀ (s : State) (band : BandId) (residual : Int), (4 ≤ s.modes.mode ∧ s.modes.mode ≤ 6 ∧ (getBand s band.num).synth (getBand s band.num).main = 1 ∧ (getBand s band.num).main ≤ 1 ∧ (getBand s band.num).synth (1 - (getBand s band.num).main) = 1 ∧ (getBand s band.num).tracked = true) →
    Does (exec (.loLockLoss band residual) s) s [.outs, .boot, .host, .evt, .clk, .fe, .air, .tm, .col, .out] fun u => (getBand u band.num).main = 1 - (getBand s band.num).main ∧ (getBand u band.num).synth (getBand s band.num).main = 2 ∧ (getBand u band.num).tracked = false ∧ (getBand u band.num).loReady = (getBand s band.num).loReady) ∧
  (∀ (s : State) (band : BandId) (residual : Int), (4 ≤ s.modes.mode ∧ s.modes.mode ≤ 6 ∧ (getBand s band.num).synth (getBand s band.num).main = 1 ∧ (getBand s band.num).synth (1 - (getBand s band.num).main) ≠ 1) →
    Does (exec (.loLockLoss band residual) s) s [.outs, .boot, .host, .evt, .clk, .fe, .air, .tm, .col, .out] fun u => (getBand u band.num).main = (getBand s band.num).main ∧ (getBand u band.num).synth (getBand s band.num).main = 2 ∧ (getBand u band.num).loReady = false) ∧
  (∀ (s : State) (band : BandId) (t : Nat), (4 ≤ s.modes.mode ∧ s.modes.mode ≤ 6 ∧ (getBand s band.num).loReady = false ∧ (getBand s band.num).synth (getBand s band.num).main = 2) →
    Does (exec (.loReady band t) s) s [.cad, .clk, .fe] fun u => (getBand u band.num).loReady = true ∧ (getBand u band.num).loReadyNs = t ∧ (getBand u band.num).synth (getBand s band.num).main = 1 ∧ (getBand u band.num).main = (getBand s band.num).main) ∧
  (∀ (s : State) (band : BandId) (synth : Bool), (4 ≤ s.modes.mode ∧ s.modes.mode ≤ 6 ∧ synth = false ∧ (getBand s band.num).sa = 2 ∧ (getBand s band.num).saTried = false) →
    Does (exec (.synthLockTimeout band synth) s) s [.outs, .boot, .host, .evt, .clk, .fe, .air, .out] fun u => getBand u band.num = { getBand s band.num with saTried := true }) ∧
  (∀ (s : State) (band : BandId) (synth : Bool), (4 ≤ s.modes.mode ∧ s.modes.mode ≤ 6 ∧ synth = false ∧ (getBand s band.num).sa = 2 ∧ (getBand s band.num).saTried = true ∧ (getBand s band.num).main = 0 ∧ (getBand s band.num).sb = 1) →
    Does (exec (.synthLockTimeout band synth) s) s [.outs, .boot, .host, .evt, .clk, .fe, .air, .out] fun u => (getBand u band.num).sa = 4 ∧ (getBand u band.num).main = 1 ∧ (getBand u band.num).loReady = true ∧ (getBand u band.num).down = (getBand s band.num).down) ∧
  (∀ (s : State) (band : BandId) (synth : Bool), (4 ≤ s.modes.mode ∧ s.modes.mode ≤ 6 ∧ synth = true ∧ (getBand s band.num).sb = 3 ∧ (getBand s band.num).sbTried = true ∧ (getBand s band.num).sa = 4) →
    Does (exec (.synthLockTimeout band synth) s) s [.outs, .boot, .host, .evt, .clk, .fe, .air, .out] fun u => (getBand u band.num).sb = 4 ∧ (getBand u band.num).down = true ∧ (getBand u band.num).loReady = false)

/-- At the start of a beat the beat is noted and the captured channel state becomes current; at the kernels' deadline an open plan is completed; the seal closes an open plan. A reception that blanking touched, or that has an invalid signal field, is counted and frees the receiver. A hole whose time is over is passed. The oldest received frame leaves its queue when the cipher engine is done with it; a staged frame takes the next packet number of its key. -/
def Obligations.BeatsAndReceptionTakeEffect : Prop :=
  (∀ (s : State) (n : Nat), (marksOn s = true ∧ s.modes.mode ≠ 7 ∧ curBeat s = n ∧ s.air.beat ≠ n) →
    Does (exec (.beatStart n) s) s [.outs, .boot, .host, .evt, .cad, .clk, .fe, .cal, .air, .tm, .cipher, .col, .ring, .out] fun u => u.air.beat = n ∧ u.air.csiNew = []) ∧
  (∀ (s : State) (n : Nat), (marksOn s = false) →
    Does (exec (.beatStart n) s) s [.outs, .boot, .host, .evt, .cad, .clk, .fe, .cal, .air, .tm, .cipher, .col, .ring, .out] fun u => u = s) ∧
  (∀ (s : State) (n : Nat) (q : Plan), (marksOn s = true ∧ s.modes.mode = 5 ∧ curBeat s = n ∧ s.air.beat = n ∧ getPlan s 0 (n + 2) = some q ∧ q.st = 0 ∧ q.completed = false) →
    Does (exec (.kernelDeadline n) s) s [.boot, .host, .evt, .cad, .clk, .air, .fwd, .tm, .col, .dram, .ring, .drawn, .out] fun u => ∃ q', getPlan u 0 (n + 2) = some q' ∧ q'.completed = true) ∧
  (∀ (s : State) (n : Nat) (q : Plan), (marksOn s = true ∧ s.modes.mode = 5 ∧ curBeat s = n ∧ s.air.beat = n ∧ getPlan s 0 (n + 2) = some q ∧ q.st = 0) →
    Does (exec (.planSeal n) s) s [.cad, .clk, .air] fun u => getPlan u 0 (n + 2) = some { q with st := 1 }) ∧
  (∀ (s : State) (band : BandId) (rx : RxPpdu), (rxOpen s band.num = true ∧ (getPhy s band.num).rx = 2 ∧ rx.form ≠ 2 ∧ rx.blanked = true) →
    Does (exec (.airRxPpdu band rx) s) s [.boot, .host, .evt, .cad, .clk, .air, .cls, .tm, .cipher, .out] fun u => getPhy u band.num = { getPhy s band.num with rx := 0, ctr := bump (getPhy s band.num).ctr 11 }) ∧
  (∀ (s : State) (band : BandId) (rx : RxPpdu), (rxOpen s band.num = true ∧ (getPhy s band.num).rx = 2 ∧ rx.form = 3 ∧ rx.blanked = false) →
    Does (exec (.airRxPpdu band rx) s) s [.boot, .host, .evt, .cad, .clk, .air, .cls, .tm, .cipher, .out] fun u => getPhy u band.num = { getPhy s band.num with rx := 0, ctr := bump (getPhy s band.num).ctr 13 }) ∧
  (∀ (s : State) (band : BandId) (rx : RxPpdu), (rxOpen s band.num = true ∧ (getPhy s band.num).rx = 2 ∧ rx.form = 0 ∧ rx.blanked = false ∧ rx.mpdus = [] ∧ rx.trig = none) →
    Does (exec (.airRxPpdu band rx) s) s [.boot, .host, .evt, .cad, .clk, .air, .cls, .tm, .cipher, .out] fun u => getPhy u band.num = { getPhy s band.num with rx := 0, ctr := bump (getPhy s band.num).ctr 12 rx.erased }) ∧
  (∀ (s : State) (sta tid : Nat) (x : Sta) (r : Reorder) (n : Nat) (m : RxMsdu), (getSta s sta = some x ∧ Tab.get? x.reorder tid = some r ∧ r.held = [(n, m)] ∧ n < 4096) →
    Does (exec (.reorderTimeout sta tid) s) s [.host, .cad, .clk, .air, .cls, .tm, .cipher] fun u => ∃ y, getSta u sta = some y ∧ Tab.get? y.reorder tid = some { next := (n + 1) % 4096, held := [] }) ∧
  (∀ (s : State) (job : CipherJob) (j : RxJob) (rest : List RxJob), (domOn s 3 = true ∧ job = .received ∧ s.air.rxq = j :: rest) →
    Does (exec (.cipherFrameDone job) s) s [.boot, .host, .evt, .clk, .air, .cls, .tm, .cipher, .out] fun u => u.air.rxq = rest) ∧
  (∀ (s : State) (job : CipherJob) (b : BandId) (beat i : Nat) (q : Plan) (x : Ppdu) (v : PUser) (f : Frame) (y : Sta) (z : Slot), (domOn s 3 = true ∧ job = .stage b beat i 0 0 ∧ getPlan s b.num beat = some q ∧ q.st = 2 ∧ q.ppdus[i]? = some x ∧ x.users = [v] ∧ v.frames = [f] ∧ f.pn = none ∧ getSta s v.sta = some y ∧ y.p.cipher ≠ 0 ∧ slotUse s y.p.ks [y.p.cipher] true = .inl z ∧ z.pn + 1 < 2 ^ 48) →
    Does (exec (.cipherFrameDone job) s) s [.boot, .host, .evt, .clk, .air, .cls, .tm, .cipher, .out] fun u => (Tab.get? u.cipher.slots y.p.ks).map (·.pn) = some (z.pn + 1) ∧ getPpdu u b.num beat i = some { x with users := [{ v with frames := [{ f with pn := some (z.pn + 1) }] }] }) ∧
  (∀ (s : State) (job : CipherJob), (domOn s 3 = false) →
    Does (exec (.cipherFrameDone job) s) s [.boot, .host, .evt, .clk, .air, .cls, .tm, .cipher, .out] fun u => u = s)

/-- A blob that is in form and unwraps under a loaded KEK loads its slot and the answer names the slot, the type and the fingerprint; one whose unwrap fails is refused with E_AUTH and counted; a missing KEK is refused. KEY_ERASE deletes the slots or KEKs named. KEK_PROVISION is refused once the lock is blown, and with a wrong CONFIRM; at its end both copies hold the key and the lock is blown. CM_LEVEL_SET stores its level; KEY_SLOT_INFO gives the engine's state and counters and clears the counters where asked. A failed health test holds the generator. -/
def Obligations.CipherRowsTakeEffect : Prop :=
  (∀ (s : State) (d : Doorbell) (p : List Byte) (kek : List Byte), Ready specKeyUnwrap d p s → let c := cmdOf specKeyUnwrap d p s
    (s.cipher.failed = false ∧ blobBad c.par = none ∧ fld c.par 3 1 ≠ 0 ∧ fld c.par 2 1 ≠ 15 ∧ Tab.get? s.cipher.keks (fld c.par 3 1) = some kek) →
    Answers (exec (.keyUnwrap d p) s) specKeyUnwrap d p s [.mbx, .evt, .cipher] (if (keyUnwrap kek (c.par.take 8) (c.par.drop 16)).isSome = true then .ok (slice c.par 4 2 ++ slice c.par 2 1 ++ [0] ++ le 4 (crc32 c.par)) else eAuth) fun u => ((keyUnwrap kek (c.par.take 8) (c.par.drop 16)).isSome = true → (Tab.get? u.cipher.slots (fld c.par 4 2)).map (·.type) = some (fld c.par 2 1) ∧ (Tab.get? u.cipher.slots (fld c.par 4 2)).map (·.usage) = some (byteAt c.par 6) ∧ (Tab.get? u.cipher.slots (fld c.par 4 2)).map (·.pn) = some (fld c.par 10 6) ∧ (Tab.get? u.cipher.slots (fld c.par 4 2)).map (·.exhausted) = some false ∧ u.cipher.ctr = bump s.cipher.ctr 6) ∧ ((keyUnwrap kek (c.par.take 8) (c.par.drop 16)).isSome = false → u.cipher = { s.cipher with ctr := bump s.cipher.ctr 7 })) ∧
  (∀ (s : State) (d : Doorbell) (p : List Byte), Ready specKeyUnwrap d p s → let c := cmdOf specKeyUnwrap d p s
    (s.cipher.failed = false ∧ blobBad c.par = none ∧ fld c.par 3 1 ≠ 0 ∧ Tab.get? s.cipher.keks (fld c.par 3 1) = none) →
    Answers (exec (.keyUnwrap d p) s) specKeyUnwrap d p s [.mbx, .evt, .cipher] (.err 0x0C02) fun u => u.cipher = s.cipher) ∧
  (∀ (s : State) (d : Doorbell) (p : List Byte), Ready specKeyErase d p s → let c := cmdOf specKeyErase d p s
    (c.u 16 1 = 0 ∧ 1 ≤ c.u 20 2 ∧ c.u 18 2 + c.u 20 2 ≤ 8192) →
    Answers (exec (.keyErase d p) s) specKeyErase d p s [.mbx, .evt, .cipher] (.ok) fun u => u.cipher = { s.cipher with slots := s.cipher.slots.filter (fun e => e.1 < c.u 18 2 || c.u 18 2 + c.u 20 2 ≤ e.1) }) ∧
  (∀ (s : State) (d : Doorbell) (p : List Byte), Ready specKeyErase d p s → let c := cmdOf specKeyErase d p s
    (c.u 16 1 = 1 ∧ 1 ≤ c.u 18 2 ∧ 1 ≤ c.u 20 2 ∧ c.u 18 2 + c.u 20 2 ≤ 4) →
    Answers (exec (.keyErase d p) s) specKeyErase d p s [.mbx, .evt, .cipher] (.ok) fun u => u.cipher = { s.cipher with keks := s.cipher.keks.filter (fun e => e.1 < c.u 18 2 || c.u 18 2 + c.u 20 2 ≤ e.1) }) ∧
  (∀ (s : State) (d : Doorbell) (p : List Byte), Ready specKekProvision d p s → (s.cipher.locked = true) →
    Answers (exec (.kekProvision d p) s) specKekProvision d p s [.mbx, .evt] (.err 0x0C03) fun u => u.cipher = s.cipher) ∧
  (∀ (s : State) (d : Doorbell) (p : List Byte), Ready specKekProvision d p s → pendingOf s d.mb.val < 32 → let c := cmdOf specKekProvision d p s
    (s.cipher.locked = false ∧ d.mb.val = 2 ∧ s.modes.mode = 2 ∧ s.boot.phase = .ready ∧ s.pwr.bootHalt = true ∧ c.u 52 4 = 0x30304B45 ∧ kcvOf (c.bytes 16 32) = c.bytes 48 4) →
    Accepts (exec (.kekProvision d p) s) specKekProvision d p s [.mbx, .evt] fun u => u.cipher = s.cipher) ∧
  (∀ (s : State) (d : Doorbell) (p : List Byte), Ready specKekProvision d p s → let c := cmdOf specKekProvision d p s
    (s.cipher.locked = false ∧ d.mb.val = 2 ∧ s.modes.mode = 2 ∧ s.boot.phase = .ready ∧ s.pwr.bootHalt = true ∧ c.u 52 4 ≠ 0x30304B45) →
    Answers (exec (.kekProvision d p) s) specKekProvision d p s [.mbx, .evt] (eArg) fun u => u.cipher = s.cipher) ∧
  (∀ (s : State) (l : LongCmd), (findLong s 0x0C03 = some l) →
    Does (exec .kekProvisionDone s) s [.boot, .mbx, .host, .evt, .clk, .cipher, .ring, .out] fun u => u.cipher = { s.cipher with kek0 := some (l.cmd.bytes 16 32, l.cmd.bytes 16 32), kcv := l.cmd.bytes 48 4, locked := true, provBeat := curBeat s } ∧ u.mbx.longs = s.mbx.longs.erase l) ∧
  (∀ (s : State) (d : Doorbell) (p : List Byte), Ready specCmLevelSet d p s → let c := cmdOf specCmLevelSet d p s
    (c.u 16 1 ≤ 3) →
    Answers (exec (.cmLevelSet d p) s) specCmLevelSet d p s [.mbx, .evt, .cipher] (.ok) fun u => u.cipher = { s.cipher with level := c.u 16 1 }) ∧
  (∀ (s : State) (d : Doorbell) (p : List Byte), Ready specKeySlotInfo d p s → let c := cmdOf specKeySlotInfo d p s
    (c.u 16 1 = 1 ∧ bit (c.u 17 1) 0 = true) →
    Answers (exec (.keySlotInfo d p) s) specKeySlotInfo d p s [.mbx, .evt, .cipher] (.ok (le 1 s.cipher.level ++ le 1 (if s.cipher.rngFail then 0 else s.cipher.level) ++ le 1 (b2n (kek0Ok s) + sumOf (s.cipher.keks.map fun e => 2 ^ e.1) + 16 * b2n s.cipher.kek0Failed + 32 * b2n s.cipher.failed) ++ [0] ++ le 4 s.cipher.slots.length ++ ctrBytes s.cipher.ctr)) fun u => u.cipher = { s.cipher with ctr := zeroed s.cipher.ctr }) ∧
  (∀ (s : State) (d : Doorbell) (p : List Byte), Ready specKeySlotInfo d p s → let c := cmdOf specKeySlotInfo d p s
    (c.u 16 1 = 0 ∧ 1 ≤ c.u 20 2 ∧ c.u 20 2 ≤ 30 ∧ c.u 18 2 + c.u 20 2 ≤ 8192) →
    Answers (exec (.keySlotInfo d p) s) specKeySlotInfo d p s [.mbx, .evt, .cipher] (.ok ((List.range (c.u 20 2)).flatMap fun k => slotInfo s (c.u 18 2 + k))) fun u => u.cipher = s.cipher) ∧
  (∀ (s : State) (test : Nat), (domOn s 3 = true) →
    Does (exec (.rngHealthFail test) s) s [.boot, .host, .evt, .clk, .cipher, .out] fun u => u.cipher = { s.cipher with rngFail := true })

/-- A frame of a port that is up, and that no matcher inspects, meets the first rule that matches: a rule that drops counts a hit and sends nothing; a port that is down brings nothing. A packet that the matcher has inspected leaves the buffer for the classifier. PARSE_CONFIG, RANGE_SET, PATTERN_WRITE and POLICER_SET store what they carry, the bucket filled; RULE_WRITE writes a rule whose references exist and keeps its count; RULE_CLEAR makes rules invalid; CLASS_STATS gives counters and clears them where asked. -/
def Obligations.ClassifierRowsTakeEffect : Prop :=
  (∀ (s : State) (src srcId : Nat) (tid : Nat) (bytes : List Byte) (t : Nat) (n : Nat) (r : Rule), (pathOn s = true ∧ src ≤ 4 ∧ (getPort s src).link = true ∧ s.cls.inspect = 0 ∧ s.cls.rules = [(n, r)] ∧ r.valid = true ∧ r.action = 1 ∧ r.opts = 0 ∧ r.policer = 0xFFFF ∧ r.rangeA = 0xFFFF ∧ r.rangeB = 0xFFFF ∧ r.pattern = 0xFFFF ∧ r.value = [] ∧ r.mask = []) →
    Does (exec (.ethFrameReceived src srcId tid bytes t) s) s [.boot, .mbx, .host, .evt, .modes, .cad, .clk, .air, .nb, .mlad, .cls, .fwd, .tm, .cipher, .col, .dram, .ring, .drawn, .out] fun u => u.cls.rules = [(n, { r with hits := satAdd 32 r.hits 1 })] ∧ u.fwd = s.fwd ∧ u.tm = s.tm ∧ u.out = s.out) ∧
  (∀ (s : State) (src srcId : Nat) (tid : Nat) (bytes : List Byte) (t : Nat), (src ≤ 4 ∧ (getPort s src).link = false) →
    Does (exec (.ethFrameReceived src srcId tid bytes t) s) s [.boot, .mbx, .host, .evt, .modes, .cad, .clk, .air, .nb, .mlad, .cls, .fwd, .tm, .cipher, .col, .dram, .ring, .drawn, .out] fun u => u = s) ∧
  (∀ (s : State) (k : Pkt) (rest : List Pkt) (n : Nat) (r : Rule), (pathOn s = true ∧ s.cls.buffer = k :: rest ∧ s.cls.rules = [(n, r)] ∧ r.valid = true ∧ r.action = 1 ∧ r.opts = 0 ∧ r.policer = 0xFFFF ∧ r.rangeA = 0xFFFF ∧ r.rangeB = 0xFFFF ∧ r.pattern = 0xFFFF ∧ r.value = [] ∧ r.mask = []) →
    Does (exec .payloadMatchDone s) s [.boot, .mbx, .host, .evt, .modes, .clk, .air, .nb, .mlad, .cls, .fwd, .tm, .cipher, .col, .dram, .ring, .drawn, .out] fun u => u.cls = { s.cls with buffer := rest, rules := [(n, { r with hits := satAdd 32 r.hits 1 })] } ∧ u.out = s.out) ∧
  (∀ (s : State) (d : Doorbell) (p : List Byte), Ready specParseConfig d p s → let c := cmdOf specParseConfig d p s
    (∀ e, e < 5 → c.u (24 + 4 * e) 1 = 0) →
    Answers (exec (.parseConfig d p) s) specParseConfig d p s [.mbx, .evt, .cls] (.ok) fun u => u.cls = { s.cls with seed := BitVec.ofNat 32 (c.u 16 4), inspect := c.u 20 2, excType := [0, 0, 0, 0, 0], excIndex := (List.range 5).map (fun e => c.u (26 + 4 * e) 2) }) ∧
  (∀ (s : State) (d : Doorbell) (p : List Byte), Ready specRuleWrite d p s → let c := cmdOf specRuleWrite d p s
    (c.u 16 2 ≤ 4095 ∧ c.u 19 1 = 1 ∧ c.u 21 1 ≤ 7 ∧ c.u 22 1 ≤ 7 ∧ c.u 26 2 = 0xFFFF ∧ c.u 28 2 = 0xFFFF ∧ c.u 30 2 = 0xFFFF ∧ c.u 32 2 = 0xFFFF ∧ c.u 24 2 = 0 ∧ (List.range 64).any (fun i => byteAt (c.bytes 36 64) i &&& ~~~(byteAt (c.bytes 100 64) i) != 0) = false) →
    Answers (exec (.ruleWrite d p) s) specRuleWrite d p s [.mbx, .evt, .cls] (.ok) fun u => Tab.get? u.cls.rules (c.u 16 2) = some { valid := bit (c.u 18 1) 0, action := 1, opts := BitVec.ofNat 8 (c.u 20 1), up := c.u 21 1, tc := c.u 22 1, dest := 0, policer := 0xFFFF, rangeA := 0xFFFF, rangeB := 0xFFFF, pattern := 0xFFFF, value := c.bytes 36 64, mask := c.bytes 100 64, hits := ((Tab.get? s.cls.rules (c.u 16 2)).map (·.hits)).getD 0 } ∧ u.cls = { s.cls with rules := u.cls.rules }) ∧
  (∀ (s : State) (d : Doorbell) (p : List Byte), Ready specRuleWrite d p s → let c := cmdOf specRuleWrite d p s
    (c.u 16 2 ≤ 4095 ∧ c.u 19 1 = 1 ∧ c.u 21 1 ≤ 7 ∧ c.u 22 1 ≤ 7 ∧ c.u 26 2 = 5 ∧ c.u 28 2 = 0xFFFF ∧ c.u 30 2 = 0xFFFF ∧ c.u 32 2 = 0xFFFF ∧ Tab.get? s.cls.policers 5 = none ∧ (List.range 64).any (fun i => byteAt (c.bytes 36 64) i &&& ~~~(byteAt (c.bytes 100 64) i) != 0) = false) →
    Answers (exec (.ruleWrite d p) s) specRuleWrite d p s [.mbx, .evt, .cls] (.err 0x0901) fun u => u.cls = s.cls) ∧
  (∀ (s : State) (d : Doorbell) (p : List Byte), Ready specRuleClear d p s → let c := cmdOf specRuleClear d p s
    (1 ≤ c.u 18 2 ∧ c.u 16 2 + c.u 18 2 ≤ 4096) →
    Answers (exec (.ruleClear d p) s) specRuleClear d p s [.mbx, .evt, .cls] (.ok) fun u => u.cls = { s.cls with rules := s.cls.rules.map (fun e => if c.u 16 2 ≤ e.1 && e.1 < c.u 16 2 + c.u 18 2 then (e.1, { e.2 with valid := false, hits := 0 }) else e) }) ∧
  (∀ (s : State) (d : Doorbell) (p : List Byte), Ready specRangeSet d p s → let c := cmdOf specRangeSet d p s
    (c.u 16 2 ≤ 255 ∧ c.u 18 1 ≤ 62 ∧ c.u 18 1 % 2 = 0 ∧ c.u 20 2 ≤ c.u 22 2) →
    Answers (exec (.rangeSet d p) s) specRangeSet d p s [.mbx, .evt, .cls] (.ok) fun u => u.cls = { s.cls with ranges := Tab.set s.cls.ranges (c.u 16 2) { off := c.u 18 1, lo := c.u 20 2, hi := c.u 22 2 } }) ∧
  (∀ (s : State) (d : Doorbell) (p : List Byte), Ready specPatternWrite d p s → let c := cmdOf specPatternWrite d p s
    (c.u 16 2 ≤ 1023 ∧ 1 ≤ c.u 18 1 ∧ c.u 18 1 ≤ 32 ∧ c.u 20 2 + c.u 18 1 ≤ 512 ∧ c.u 20 2 ≤ 511 ∧ ((c.bytes 24 32).drop (c.u 18 1)).any (· != 0) = false ∧ ((c.bytes 56 32).drop (c.u 18 1)).any (· != 0) = false ∧ byteAt (c.bytes 56 32) 0 ≠ 0 ∧ byteAt (c.bytes 56 32) (c.u 18 1 - 1) ≠ 0) →
    Answers (exec (.patternWrite d p) s) specPatternWrite d p s [.mbx, .evt, .cls] (.ok) fun u => u.cls = { s.cls with patterns := Tab.set s.cls.patterns (c.u 16 2) { anchored := bit (c.u 19 1) 0, anchor := c.u 20 2, data := (c.bytes 24 32).take (c.u 18 1), mask := (c.bytes 56 32).take (c.u 18 1) } }) ∧
  (∀ (s : State) (d : Doorbell) (p : List Byte) (n : Nat) (r : Rule), Ready specPatternWrite d p s → let c := cmdOf specPatternWrite d p s
    (c.u 16 2 ≤ 1023 ∧ c.u 18 1 = 0 ∧ c.u 20 2 ≤ 511 ∧ (c.bytes 24 32).any (· != 0) = false ∧ (c.bytes 56 32).any (· != 0) = false ∧ s.cls.rules = [(n, r)] ∧ r.valid = true ∧ r.pattern = c.u 16 2) →
    Answers (exec (.patternWrite d p) s) specPatternWrite d p s [.mbx, .evt, .cls] (.err 0x0901) fun u => u.cls = s.cls) ∧
  (∀ (s : State) (d : Doorbell) (p : List Byte), Ready specPolicerSet d p s → let c := cmdOf specPolicerSet d p s
    (c.u 16 2 ≤ 511 ∧ c.u 19 1 ≤ 7 ∧ 1 ≤ c.u 20 4 ∧ c.u 20 4 ≤ 150000000 ∧ 1 ≤ c.u 24 4 ∧ c.u 24 4 ≤ 65535) →
    Answers (exec (.policerSet d p) s) specPolicerSet d p s [.mbx, .evt, .cls] (.ok) fun u => Tab.get? u.cls.policers (c.u 16 2) = some { Tab.getD s.cls.policers (c.u 16 2) {} with enable := bit (c.u 18 1) 0, remark := bit (c.u 18 1) 1, up := c.u 19 1, rate := c.u 20 4, burst := c.u 24 4, tokens := c.u 24 4 * 256, acc := 0, last := nowNs s } ∧ u.cls = { s.cls with policers := u.cls.policers }) ∧
  (∀ (s : State) (d : Doorbell) (p : List Byte), Ready specClassStats d p s → let c := cmdOf specClassStats d p s
    (c.u 16 1 = 2 ∧ bit (c.u 17 1) 0 = true) →
    Answers (exec (.classStats d p) s) specClassStats d p s [.mbx, .evt, .cls] (.ok (ctrBytes s.cls.ctr)) fun u => u.cls = { s.cls with ctr := zeroed s.cls.ctr }) ∧
  (∀ (s : State) (d : Doorbell) (p : List Byte), Ready specClassStats d p s → let c := cmdOf specClassStats d p s
    (c.u 16 1 = 2 ∧ bit (c.u 17 1) 0 = false) →
    Answers (exec (.classStats d p) s) specClassStats d p s [.mbx, .evt, .cls] (.ok (ctrBytes s.cls.ctr)) fun u => u.cls = s.cls) ∧
  (∀ (s : State) (d : Doorbell) (p : List Byte), Ready specClassStats d p s → let c := cmdOf specClassStats d p s
    (c.u 16 1 = 0 ∧ 1 ≤ c.u 20 2 ∧ c.u 20 2 ≤ 120 ∧ c.u 18 2 + c.u 20 2 ≤ 4096 ∧ bit (c.u 17 1) 0 = true) →
    Answers (exec (.classStats d p) s) specClassStats d p s [.mbx, .evt, .cls] (.ok ((List.range (c.u 20 2)).flatMap fun k => le 4 ((Tab.get? s.cls.rules (c.u 18 2 + k)).map (·.hits) |>.getD 0))) fun u => u.cls = { s.cls with rules := s.cls.rules.map (fun e => if c.u 18 2 ≤ e.1 && e.1 < c.u 18 2 + c.u 20 2 then (e.1, { e.2 with hits := 0 }) else e) })

/-- A port that is ready and has one packet in an ungated strict queue sends it and is busy for its time on the wire; a port that is not ready sends nothing. A shaped queue whose credit has climbed back is evaluated at that instant. A gate entry's instant takes its mask; a new gate list takes its place and its mask at its beat. A link up or down is noted, the chain pair becomes inserted when both its ports are up; the chain's settling enables its transmitters, its wait's end releases the switch, its retry inserts again. QUEUE_CONFIG, SHAPER_SET, GATE_LIST_SET, BUFFER_CONFIG and CHAIN_PAIR_SET store what they carry; TM_STATS gives the pools and clears its counters where asked. -/
def Obligations.TrafficManagerRowsTakeEffect : Prop :=
  (∀ (s : State) (port : Fin 7) (k : QPkt) (y : Queue) (z : List Queue), (port.val < 4 ∧ portReady s port.val = true ∧ s.cad.run = true ∧ s.modes.mode = 4 ∧ (getPort s port.val).gates.entries = [] ∧ (getPort s port.val).next = none ∧ (getPort s port.val).qs = y :: z ∧ z.all (fun q => q.q.isEmpty) = true ∧ y.strict = true ∧ y.shaper = false ∧ y.q = [k] ∧ k.ts = none) →
    Does (exec (.egressFrameStart port) s) s [.boot, .host, .evt, .cad, .clk, .tm, .ring, .out] fun u => u.out = Emit.eth port.val k.bytes :: s.out ∧ u.tm.ports = updAt s.tm.ports port.val (fun x => { x with qs := updAt x.qs 0 (Queue.begin_ false (nowNs u)), freeAt := nowNs u + wireNs (portRate x.mode) (k.bytes.length + 4) })) ∧
  (∀ (s : State) (port : Fin 7), (portReady s port.val = false) →
    Does (exec (.egressFrameStart port) s) s [.boot, .host, .evt, .cad, .clk, .tm, .ring, .out] fun u => u = s) ∧
  (∀ (s : State) (port : Fin 7) (q : Fin 8) (x : Queue), (x = (getPort s port.val).qs.getD q.val {} ∧ x.shaper = true ∧ x.q ≠ [] ∧ x.credit < 0 ∧ 0 < x.slope ∧ s.modes.mode = 4 ∧ s.cad.run = true) →
    Does (exec (.shaperCreditEligible port q) s) s [.cad, .clk, .tm] fun u => u.tm.ports = updAt s.tm.ports port.val (fun x => { x with qs := updAt x.qs q.val (Queue.shapeTo (nowNs u)) })) ∧
  (∀ (s : State) (port : Fin 4) (entry : Nat) (e : Nat × Nat × Nat), ((getPort s port.val).gates.entries[entry]? = some e ∧ s.modes.mode ≠ 3 ∧ s.cad.run = true) →
    Does (exec (.gateEntryInstant port entry) s) s [.cad, .clk, .tm] fun u => u.tm.ports = updAt s.tm.ports port.val (fun x => { x with open_ := BitVec.ofNat 8 e.2.2 })) ∧
  (∀ (s : State) (port : Fin 4) (g : Gates), ((getPort s port.val).next = some g ∧ s.modes.mode ≠ 3 ∧ s.cad.run = true) →
    Does (exec (.gateListApply port) s) s [.boot, .host, .evt, .cad, .clk, .tm, .out] fun u => ∃ m, u.tm.ports = updAt s.tm.ports port.val (fun x => { x with gates := { g with applied := true }, next := none, open_ := m })) ∧
  (∀ (s : State) (port : Fin 5), ((getPort s port.val).enable = true ∧ port.val < 4 ∧ s.outs.upTx.getLsbD port.val = true ∧ s.tm.chain = 0) →
    Does (exec (.ethLinkUp port) s) s [.boot, .host, .evt, .clk, .tm, .out] fun u => u.tm = { s.tm with ports := updAt s.tm.ports port.val (fun x => { x with link := true }) }) ∧
  (∀ (s : State) (port : Fin 5), ((getPort s port.val).enable = true ∧ port.val = 2 ∧ s.outs.upTx.getLsbD 2 = true ∧ s.tm.chain = 1 ∧ s.tm.chainTx = true ∧ (getPort s 3).link = true) →
    Does (exec (.ethLinkUp port) s) s [.boot, .host, .evt, .clk, .tm, .out] fun u => u.tm = { s.tm with chain := 2, ports := updAt s.tm.ports 2 (fun x => { x with link := true }) }) ∧
  (∀ (s : State) (port : Fin 5), ((getPort s port.val).link = true) →
    Does (exec (.ethLinkDown port) s) s [.boot, .host, .evt, .clk, .tm, .out] fun u => u.tm = { s.tm with ports := updAt s.tm.ports port.val (fun x => { x with link := false }) }) ∧
  (∀ (s : State), (s.tm.chain = 1 ∧ s.tm.chainTx = false) →
    Does (exec .chainSwitchSettle s) s [.outs, .cad, .clk, .tm] fun u => u.tm = { s.tm with chainTx := true }) ∧
  (∀ (s : State), (s.tm.chain = 1 ∧ s.tm.chainTx = true) →
    Does (exec .chainLinkWaitExpiry s) s [.outs, .boot, .host, .evt, .cad, .clk, .tm, .out] fun u => u.tm.chain = 3 ∧ u.tm.chainTx = false) ∧
  (∀ (s : State), (s.tm.chain = 3 ∧ s.tm.chainEn = true ∧ s.tm.chainDue = false ∧ s.modes.mode = 4) →
    Does (exec .chainRetryExpiry s) s [.outs, .cad, .clk, .tm] fun u => u.tm.chain = 1 ∧ u.tm.chainTx = false ∧ u.tm.chainSettle = s.tm.settle ∧ u.tm.chainWait = s.tm.wait) ∧
  (∀ (s : State), (s.tm.chain = 3 ∧ s.tm.chainEn = true ∧ s.tm.chainDue = false ∧ s.modes.mode = 3) →
    Does (exec .chainRetryExpiry s) s [.outs, .cad, .clk, .tm] fun u => u.tm = { s.tm with chainDue := true }) ∧
  (∀ (s : State) (d : Doorbell) (p : List Byte), Ready specQueueConfig d p s → let c := cmdOf specQueueConfig d p s
    (c.u 16 1 = 0 ∧ c.u 17 1 ≤ 6 ∧ c.u 18 1 ≤ 7 ∧ c.u 20 1 ≤ 1 ∧ 1 ≤ c.u 21 1 ∧ -3 ≤ c.i 22 1 ∧ c.i 22 1 ≤ 3 ∧ 16 ≤ c.u 24 4 ∧ c.u 24 4 ≤ 131072) →
    Answers (exec (.queueConfig d p) s) specQueueConfig d p s [.outs, .mbx, .evt, .tm] (.ok) fun u => u.tm = (onQueue (c.u 17 1) (c.u 18 1) (fun x => { x with strict := decide (c.u 20 1 = 0), weight := c.u 21 1, dramEn := bit (c.u 19 1) 0, limit := c.u 24 4, alpha := c.i 22 1 }) s).tm) ∧
  (∀ (s : State) (d : Doorbell) (p : List Byte), Ready specQueueConfig d p s → let c := cmdOf specQueueConfig d p s
    (c.u 16 1 = 0 ∧ c.u 17 1 = 7 ∧ 32 ≤ c.u 18 1 ∧ c.u 18 1 ≤ 61 ∧ 1 ≤ c.u 21 1 ∧ -3 ≤ c.i 22 1 ∧ c.i 22 1 ≤ 3 ∧ 16 ≤ c.u 24 4 ∧ c.u 24 4 ≤ 131072) →
    Answers (exec (.queueConfig d p) s) specQueueConfig d p s [.outs, .mbx, .evt, .tm] (.ok) fun u => Tab.get? u.tm.host (c.u 18 1) = some { Tab.getD s.tm.host (c.u 18 1) {} with limit := c.u 24 4, dramEn := bit (c.u 19 1) 0, weight := c.u 21 1, alpha := c.i 22 1 } ∧ u.tm = { s.tm with host := u.tm.host }) ∧
  (∀ (s : State) (d : Doorbell) (p : List Byte), Ready specQueueConfig d p s → let c := cmdOf specQueueConfig d p s
    (c.u 16 1 = 1 ∧ c.u 17 1 ≤ 3 ∧ c.u 18 1 = 0 ∧ c.u 20 1 ≤ 1 ∧ (bit (c.u 19 1) 1 = false ∨ c.u 20 1 = 0)) →
    Answers (exec (.queueConfig d p) s) specQueueConfig d p s [.outs, .mbx, .evt, .tm] (.ok) fun u => u.tm.ports = updAt s.tm.ports (c.u 17 1) (fun x => { x with enable := bit (c.u 19 1) 0, fec := bit (c.u 19 1) 1, mode := c.u 20 1, link := x.link && bit (c.u 19 1) 0 && x.mode = c.u 20 1 && x.fec == bit (c.u 19 1) 1 })) ∧
  (∀ (s : State) (d : Doorbell) (p : List Byte), Ready specShaperSet d p s → let c := cmdOf specShaperSet d p s
    (c.u 16 1 ≤ 6 ∧ c.u 17 1 ≤ 7 ∧ 1 ≤ c.u 20 4 ∧ c.u 20 4 ≤ 38400000 ∧ c.u 24 4 ≤ 65535 ∧ -65536 ≤ c.i 28 4 ∧ c.i 28 4 ≤ -256) →
    Answers (exec (.shaperSet d p) s) specShaperSet d p s [.mbx, .evt, .tm] (.ok) fun u => u.tm = (onQueue (c.u 16 1) (c.u 17 1) (fun q => { q with shaper := bit (c.u 18 1) 0, slope := c.u 20 4, hi := (c.u 24 4 : Nat), lo := c.i 28 4, credit := 0, acc := 0, last := nowNs s }) s).tm) ∧
  (∀ (s : State) (d : Doorbell) (p : List Byte), Ready specGateListSet d p s → let c := cmdOf specGateListSet d p s
    (c.u 16 1 ≤ 3 ∧ c.u 17 1 ≤ 64 ∧ 1 ≤ c.u 18 1 ∧ c.u 18 1 ≤ 64 ∧ (∀ t, t < 8 → 64 ≤ c.u (28 + 2 * t) 2 ∧ c.u (28 + 2 * t) 2 ≤ 9216) ∧ ((portGateEntries c).all fun e => decide (e.1 < c.u 18 1)) = true ∧ badPortGate s (portGateEntries c) = none ∧ curBeat s < c.u 20 6) →
    Answers (exec (.gateListSet d p) s) specGateListSet d p s [.mbx, .evt, .tm] (.ok) fun u => u.tm.ports = updAt s.tm.ports (c.u 16 1) (fun x => { x with next := some { cycle := c.u 18 1, start := c.u 20 6, from_ := c.u 20 6, maxFrame := (List.range 8).map (fun t => c.u (28 + 2 * t) 2), entries := portGateEntries c, applied := false, runLate := bit (c.u 19 1) 0 } })) ∧
  (∀ (s : State) (d : Doorbell) (p : List Byte), Ready specGateListSet d p s → let c := cmdOf specGateListSet d p s
    (c.u 16 1 ≤ 3 ∧ c.u 17 1 = 0 ∧ 1 ≤ c.u 18 1 ∧ c.u 18 1 ≤ 64 ∧ (∀ t, t < 8 → 64 ≤ c.u (28 + 2 * t) 2 ∧ c.u (28 + 2 * t) 2 ≤ 9216) ∧ c.u 20 6 ≠ 0 ∧ c.u 20 6 ≤ curBeat s ∧ bit (c.u 19 1) 0 = false) →
    Answers (exec (.gateListSet d p) s) specGateListSet d p s [.mbx, .evt, .tm] (.err 0x0B03) fun u => u.tm = s.tm) ∧
  (∀ (s : State) (d : Doorbell) (p : List Byte), Ready specBufferConfig d p s → let c := cmdOf specBufferConfig d p s
    (c.u 16 4 % 64 = 0 ∧ 1024 ≤ c.u 16 4 ∧ c.u 16 4 ≤ 16384 ∧ c.u 20 4 = 0) →
    Answers (exec (.bufferConfig d p) s) specBufferConfig d p s [.mbx, .evt, .tm] (.ok) fun u => u.tm.bfKb = c.u 16 4 ∧ u.tm.dramMb = 0 ∧ u.tm.ports = s.tm.ports) ∧
  (∀ (s : State) (d : Doorbell) (p : List Byte), Ready specChainPairSet d p s → let c := cmdOf specChainPairSet d p s
    (c.u 18 2 ≤ 10000 ∧ 10 ≤ c.u 20 2 ∧ c.u 20 2 ≤ 5000 ∧ 1 ≤ c.u 22 2 ∧ c.u 22 2 ≤ 3600 ∧ (getPort s 2).enable = true ∧ (getPort s 3).enable = true ∧ bit (c.u 16 1) 0 = true ∧ s.modes.mode = 4 ∧ s.tm.chain = 0) →
    Answers (exec (.chainPairSet d p) s) specChainPairSet d p s [.outs, .boot, .mbx, .host, .evt, .clk, .fe, .air, .tm, .col, .out] (.ok) fun u => u.tm.chainEn = true ∧ u.tm.settle = c.u 18 2 ∧ u.tm.wait = c.u 20 2 ∧ u.tm.retry = c.u 22 2 ∧ u.tm.chain = 1 ∧ u.outs.bypChain = true) ∧
  (∀ (s : State) (d : Doorbell) (p : List Byte), Ready specChainPairSet d p s → let c := cmdOf specChainPairSet d p s
    (c.u 18 2 ≤ 10000 ∧ 10 ≤ c.u 20 2 ∧ c.u 20 2 ≤ 5000 ∧ 1 ≤ c.u 22 2 ∧ c.u 22 2 ≤ 3600 ∧ (getPort s 2).enable = false) →
    Answers (exec (.chainPairSet d p) s) specChainPairSet d p s [.outs, .boot, .mbx, .host, .evt, .clk, .fe, .air, .tm, .col, .out] (.err 0x0B04) fun u => u.tm = s.tm) ∧
  (∀ (s : State) (d : Doorbell) (p : List Byte), Ready specTmStats d p s → let c := cmdOf specTmStats d p s
    (c.u 16 1 = 1 ∧ bit (c.u 19 1) 0 = true) →
    Answers (exec (.tmStats d p) s) specTmStats d p s [.mbx, .evt, .tm] (.ok (le 4 (sharedFree s) ++ le 4 s.tm.low ++ le 4 (bfFree s) ++ le 4 (dramFree s) ++ le 4 s.tm.drain ++ le 4 s.tm.chain)) fun u => u.tm = { s.tm with low := sharedFree s, drain := 0 }) ∧
  (∀ (s : State) (d : Doorbell) (p : List Byte), Ready specDwellConfig d p s → let c := cmdOf specDwellConfig d p s
    (c.u 17 1 = 0 ∧ 1 ≤ c.u 20 2 ∧ c.u 20 2 ≤ 4000 ∧ c.u 22 2 = s.nb.window ∧ 1 ≤ c.u 22 2 ∧ c.u 22 2 ≤ 3600 ∧ 1 ≤ c.u 24 4 ∧ c.u 24 4 ≤ c.u 22 2 * 1000 ∧ s.nb.subs = []) →
    Answers (exec (.dwellConfig d p) s) specDwellConfig d p s [.mbx, .evt, .nb] (.ok) fun u => u.nb = { s.nb with dwellEn := bit (c.u 16 1) 0, dutyEn := bit (c.u 16 1) 1, maxTx := c.u 20 2, maxCum := c.u 24 4 })

/-- L2_ADD writes over the entry with its key, and L2_REMOVE and ROUTE_REMOVE of an absent key are refused as not found; L2_FLUSH is accepted as a long command and its end removes each entry that matches, but for those held by a flow, and answers both counts. ROUTE_ADD writes a route of length 0 in the two places kept for those. NEXTHOP_SET, ECMP_SET and AGING_SET store what they carry; an ECMP group of a next hop that is not set is refused. FWD_STATS answers the gauges and the counters and clears the counters where asked. A visit of a bucket clears HIT, then marks STALE, then removes; a rebuild leaves the filter with the bits of the routes there are. -/
def Obligations.ForwardingRowsTakeEffect : Prop :=
  (∀ (s : State) (bucket : Nat) (i : Nat) (e : L2e) (o : Bool), (sweepOn s = true ∧ 0 < bucket ∧ bucket < 65535 ∧ s.fwd.sweeping = true ∧ bucketAt s.fwd.l2 bucket = { slots := [(i, e)], ovf := o } ∧ e.static = false ∧ l2Pinned s e = false) →
    Does (exec (.agingVisit bucket) s) s [.fwd, .ring] fun u => u.fwd.l2 = (if e.hit = true ∨ (s.fwd.src.any fun h => h.mac = e.mac && h.vid = e.vid && h.hit) = true then setSlot s.fwd.l2 bucket i { e with hit := false, stale := false } else if e.stale = true then clearSlot s.fwd.l2 bucket i else setSlot s.fwd.l2 bucket i { e with stale := true }) ∧ u.fwd.sweeping = true) ∧
  (∀ (s : State) (bucket : Nat) (e : L2e), (sweepOn s = true ∧ bucket = 0 ∧ bucketAt s.fwd.l2 0 = { slots := [(0, e)] } ∧ e.static = true) →
    Does (exec (.agingVisit bucket) s) s [.fwd, .ring] fun u => u.fwd = { s.fwd with sweepT := s.fwd.period, sweeping := true, fullRaised := false, fullN := 0 }) ∧
  (∀ (s : State), (s.fwd.rebuild = true ∧ s.fwd.v4 = [] ∧ s.fwd.v6 = [] ∧ s.fwd.l2 = []) →
    Does (exec .filterRebuildDone s) s [.fwd] fun u => u.fwd.bloom = [] ∧ u.fwd.removals = 0 ∧ u.fwd.rebuild = false ∧ u.fwd.ctr = s.fwd.ctr.modify 14 (fun n => satAdd 32 n 1)) ∧
  (∀ (s : State) (d : Doorbell) (p : List Byte) (b i : Nat) (o : L2e), Ready specL2Add d p s → let c := cmdOf specL2Add d p s
    (dramReady s = true ∧ c.u 22 2 ≤ 4094 ∧ destBad s (unBe (c.bytes 16 6)) (c.u 24 1) (c.u 26 2) (bit (c.u 25 1) 0) = 0 ∧ bit (c.u 25 1) 1 = false ∧ c.u 24 1 ≠ 6 ∧ heldL2 s (unBe (c.bytes 16 6)) (c.u 22 2) = false ∧ l2Find s (unBe (c.bytes 16 6)) (c.u 22 2) = some (b, i, o)) →
    Answers (exec (.l2Add d p) s) specL2Add d p s [.mbx, .evt, .fwd, .ring] (.ok) fun u => u.fwd.l2 = setSlot s.fwd.l2 b i { mac := unBe (c.bytes 16 6), vid := c.u 22 2, static := bit (c.u 25 1) 0, hit := !bit (c.u 25 1) 0, type := c.u 24 1, dest := c.u 26 2, sync := bit (c.u 25 1) 2 } ∧ u.fwd.l2n = s.fwd.l2n) ∧
  (∀ (s : State) (d : Doorbell) (p : List Byte), Ready specL2Add d p s → let c := cmdOf specL2Add d p s
    (dramReady s = true ∧ c.u 22 2 ≤ 4094 ∧ destBad s (unBe (c.bytes 16 6)) (c.u 24 1) (c.u 26 2) (bit (c.u 25 1) 0) = 0 ∧ bit (c.u 25 1) 1 = false ∧ c.u 24 1 ≠ 6 ∧ heldL2 s (unBe (c.bytes 16 6)) (c.u 22 2) = false ∧ s.fwd.l2 = [] ∧ s.fwd.l2n = 0) →
    Answers (exec (.l2Add d p) s) specL2Add d p s [.mbx, .evt, .fwd, .ring] (.ok) fun u => u.fwd.l2 = [(l2Bucket 1 (unBe (c.bytes 16 6)) (c.u 22 2), { slots := [(0, { mac := unBe (c.bytes 16 6), vid := c.u 22 2, static := bit (c.u 25 1) 0, hit := !bit (c.u 25 1) 0, type := c.u 24 1, dest := c.u 26 2, sync := bit (c.u 25 1) 2 })] })] ∧ u.fwd.l2n = 1) ∧
  (∀ (s : State) (d : Doorbell) (p : List Byte), Ready specL2Remove d p s → let c := cmdOf specL2Remove d p s
    (dramReady s = true ∧ c.u 22 2 ≤ 4094 ∧ l2Find s (unBe (c.bytes 16 6)) (c.u 22 2) = none) →
    Answers (exec (.l2Remove d p) s) specL2Remove d p s [.mbx, .evt, .fwd, .ring] (.err 0x0A02) fun u => u.fwd = s.fwd) ∧
  (∀ (s : State) (d : Doorbell) (p : List Byte) (b i : Nat) (o : L2e), Ready specL2Remove d p s → let c := cmdOf specL2Remove d p s
    (dramReady s = true ∧ c.u 22 2 ≤ 4094 ∧ heldL2 s (unBe (c.bytes 16 6)) (c.u 22 2) = false ∧ l2Find s (unBe (c.bytes 16 6)) (c.u 22 2) = some (b, i, o)) →
    Answers (exec (.l2Remove d p) s) specL2Remove d p s [.mbx, .evt, .fwd, .ring] (.ok) fun u => u.fwd.l2 = clearSlot s.fwd.l2 b i ∧ u.fwd.l2n = s.fwd.l2n - 1) ∧
  (∀ (s : State) (d : Doorbell) (p : List Byte), Ready specL2Flush d p s → pendingOf s d.mb.val < 32 → let c := cmdOf specL2Flush d p s
    (dramReady s = true ∧ c.u 20 2 ≤ 4094 ∧ 1 ≤ c.u 17 1 ∧ c.u 17 1 ≤ 6) →
    Accepts (exec (.l2Flush d p) s) specL2Flush d p s [.mbx, .evt] fun u => u.fwd = s.fwd) ∧
  (∀ (s : State) (l : LongCmd) (b : Nat) (e f : L2e), (findLong s 0x0A03 = some l ∧ s.fwd.l2 = [(b, { slots := [(0, e), (1, f)] })] ∧ flushes l.cmd e = true ∧ flushes l.cmd f = false ∧ heldL2 s e.mac e.vid = false) →
    Does (exec .l2FlushDone s) s [.boot, .mbx, .host, .evt, .clk, .fwd, .ring, .out] fun u => u.fwd.l2 = [(b, { slots := [(1, f)] })] ∧ u.fwd.l2n = s.fwd.l2n - 1 ∧ u.mbx.longs = s.mbx.longs.erase l) ∧
  (∀ (s : State) (d : Doorbell) (p : List Byte), Ready specRouteAdd d p s → let c := cmdOf specRouteAdd d p s
    (dramReady s = true ∧ c.u 16 1 ≤ 1 ∧ c.u 17 1 = 0 ∧ (cmdRoute c).num = 0 ∧ c.bytes 28 12 = List.replicate 12 0 ∧ bit (c.u 18 1) 0 = false ∧ bit (c.u 18 1) 1 = false ∧ c.u 20 2 ≤ 16383 ∧ nhSet s (c.u 20 2) = true ∧ s.air.bfs = [] ∧ (∀ q, q ∈ routesOf s 0 ++ routesOf s 1 → q.pin = false)) →
    Answers (exec (.routeAdd d p) s) specRouteAdd d p s [.mbx, .evt, .fwd, .ring] (.ok) fun u => u.fwd.zero = setAt s.fwd.zero (c.u 16 1) (some { plen := 0, pre := 0, ecmp := false, sync := bit (c.u 18 1) 2, result := c.u 20 2 })) ∧
  (∀ (s : State) (d : Doorbell) (p : List Byte), Ready specRouteRemove d p s → let c := cmdOf specRouteRemove d p s
    (dramReady s = true ∧ (cmdRoute c).keyOk = true ∧ routeFind s (c.u 16 1) (c.u 17 1) (cmdRoute c).num = none) →
    Answers (exec (.routeRemove d p) s) specRouteRemove d p s [.mbx, .evt, .fwd, .ring] (.err 0x0A02) fun u => u.fwd = s.fwd) ∧
  (∀ (s : State) (d : Doorbell) (p : List Byte) (r : Route), Ready specRouteRemove d p s → let c := cmdOf specRouteRemove d p s
    (dramReady s = true ∧ (cmdRoute c).keyOk = true ∧ c.u 17 1 = 0 ∧ s.fwd.zero.getD (c.u 16 1) none = some r ∧ s.air.bfs = []) →
    Answers (exec (.routeRemove d p) s) specRouteRemove d p s [.mbx, .evt, .fwd, .ring] (.ok) fun u => u.fwd.zero = setAt s.fwd.zero (c.u 16 1) none ∧ u.fwd.rn = updAt s.fwd.rn (c.u 16 1) (· - 1)) ∧
  (∀ (s : State) (d : Doorbell) (p : List Byte), Ready specRouteBulk d p s → pendingOf s d.mb.val < 32 → let c := cmdOf specRouteBulk d p s
    (dramReady s = true ∧ c.u 16 8 % 8 = 0 ∧ 1 ≤ c.u 24 4 ∧ c.u 24 4 ≤ 65536) →
    Accepts (exec (.routeBulk d p) s) specRouteBulk d p s [.mbx, .evt] fun u => u.fwd = s.fwd) ∧
  (∀ (s : State) (records : List Byte) (l : LongCmd), (findLong s 0x0A06 = some l ∧ l.cmd.u 24 4 = 1 ∧ 1 < fld (slice records 0 24) 3 1) →
    Does (exec (.routeBulkDone records) s) s [.boot, .mbx, .host, .evt, .clk, .fwd, .ring, .out] fun u => u.fwd = s.fwd ∧ u.mbx.longs = s.mbx.longs.erase l) ∧
  (∀ (s : State) (records : List Byte) (l : LongCmd) (r : Route), (findLong s 0x0A06 = some l ∧ l.cmd.u 24 4 = 1 ∧ slice records 0 24 = [0, 0, 0, 1] ++ List.replicate 20 0 ∧ s.fwd.zero = [some r, none] ∧ s.air.bfs = []) →
    Does (exec (.routeBulkDone records) s) s [.boot, .mbx, .host, .evt, .clk, .fwd, .ring, .out] fun u => u.fwd.zero = [none, none] ∧ u.mbx.longs = s.mbx.longs.erase l) ∧
  (∀ (s : State) (d : Doorbell) (p : List Byte), Ready specNexthopSet d p s → let c := cmdOf specNexthopSet d p s
    (c.u 16 2 ≤ 16383 ∧ c.u 16 2 ≠ 0 ∧ c.u 18 1 = 1 ∧ c.u 20 2 ≤ 4 ∧ c.u 22 2 ≤ 4094 ∧ 64 ≤ c.u 36 2 ∧ c.u 36 2 ≤ 9216 ∧ c.u 38 2 ≤ 511 ∧ c.u 40 1 ≤ 7) →
    Answers (exec (.nexthopSet d p) s) specNexthopSet d p s [.mbx, .host, .evt, .air, .fwd, .tm, .dram, .ring] (.ok) fun u => u.fwd.nh = Tab.set s.fwd.nh (c.u 16 2) { type := 1, routed := bit (c.u 19 1) 0, sync := bit (c.u 19 1) 2, dest := c.u 20 2, vid := c.u 22 2, dmac := unBe (c.bytes 24 6), smac := unBe (c.bytes 30 6), mtu := c.u 36 2, flood := c.u 38 2, bss := c.u 40 1 }) ∧
  (∀ (s : State) (d : Doorbell) (p : List Byte), Ready specEcmpSet d p s → let c := cmdOf specEcmpSet d p s
    (c.u 16 2 ≤ 1023 ∧ c.u 18 1 = 2 ∧ c.u 20 2 ≤ 16383 ∧ c.u 22 2 ≤ 16383 ∧ nhSet s (c.u 20 2) = true ∧ nhSet s (c.u 22 2) = true) →
    Answers (exec (.ecmpSet d p) s) specEcmpSet d p s [.mbx, .evt, .fwd, .ring] (.ok) fun u => u.fwd.ecmp = Tab.set s.fwd.ecmp (c.u 16 2) { members := [c.u 20 2, c.u 22 2], sync := bit (c.u 19 1) 2 }) ∧
  (∀ (s : State) (d : Doorbell) (p : List Byte), Ready specEcmpSet d p s → let c := cmdOf specEcmpSet d p s
    (c.u 16 2 ≤ 1023 ∧ c.u 18 1 = 2 ∧ c.u 20 2 ≤ 16383 ∧ c.u 22 2 ≤ 16383 ∧ nhSet s (c.u 22 2) = false) →
    Answers (exec (.ecmpSet d p) s) specEcmpSet d p s [.mbx, .evt, .fwd, .ring] (.err 0x0A04) fun u => u.fwd = s.fwd) ∧
  (∀ (s : State) (d : Doorbell) (p : List Byte), Ready specAgingSet d p s → let c := cmdOf specAgingSet d p s
    (c.u 16 2 ≤ 1000 ∧ (∀ i, i < 24 → c.u (24 + 2 * i) 2 ≤ 4094)) →
    Answers (exec (.agingSet d p) s) specAgingSet d p s [.boot, .mbx, .host, .evt, .clk, .fwd, .ring, .out] (.ok) fun u => u.fwd = { s.fwd with period := c.u 16 2, learn := c.u 18 2, ringLearn := bit (c.u 20 1) 0, pvid := (List.range 8).map (fun i => c.u (24 + 2 * i) 2), bssVid := (List.range 16).map (fun i => c.u (40 + 2 * i) 2) }) ∧
  (∀ (s : State) (d : Doorbell) (p : List Byte), Ready specFwdStats d p s → let c := cmdOf specFwdStats d p s
    Answers (exec (.fwdStats d p) s) specFwdStats d p s [.mbx, .evt, .fwd] (.ok (le 4 s.fwd.l2n ++ le 4 (s.fwd.rn.getD 0 0) ++ le 4 (s.fwd.rn.getD 1 0) ++ le 4 (pinnedUsed s) ++ ctrBytes s.fwd.ctr)) fun u => u.fwd = { s.fwd with ctr := if bit (c.u 16 1) 0 then zeroed s.fwd.ctr else s.fwd.ctr })

/-- A request that may start begins its channel check; a check that finds the channel above the threshold ends the request as busy, one that finds it quiet starts the ramp; a request that is not started before LATEST ends late. The end of a transmission turns the PA off and returns the receiver to SEARCH; loss of lock retunes it. Return-loss samples are noted and two below RL_PROTECT fold the power back. The synthesizer's lock puts a transceiver in SEARCH, its timeout restarts it once and then fails it; a hop slot retunes to the channel assigned. A preamble, its sync timeout, a rise of power and a PHR move the receiver between SEARCH, PREAMBLE and PAYLOAD. A frame with a bad FCS is counted. The opcodes store what they carry, TUNER_RUN begins a tuning, and its end ends the command. -/
def Obligations.NarrowbandRowsTakeEffect : Prop :=
  (∀ (s : State) (x : Fin 4), ((getX s x.val).handed = none) →
    Does (exec (.nbTxRequestStart x) s) s [.outs, .boot, .host, .evt, .cad, .clk, .nb, .mlad, .cipher, .drawn, .out] fun u => u = s) ∧
  (∀ (s : State) (x : Fin 4) (q : NbReq), ((getX s x.val).handed = some q ∧ (getX s x.val).tx = none ∧ nbFree s x.val = true ∧ (getX s x.val).st = 1 ∧ q.earliest ≤ nowNs s ∧ nowNs s < q.latest ∧ s.modes.mode = 5 ∧ q.chan = none ∧ q.cca = true) →
    Does (exec (.nbTxRequestStart x) s) s [.outs, .boot, .host, .evt, .cad, .clk, .nb, .mlad, .cipher, .drawn, .out] fun u => (getX u x.val).handed = none ∧ (getX u x.val).tx = some { req := q, at_ := nowNs s, d := (getX s x.val).paOn q, sensing := true }) ∧
  (∀ (s : State) (x : Fin 4) (power : Int) (t : NbTx), ((getX s x.val).tx = some t ∧ t.sensing = true ∧ t.req.kind = .relay ∧ 2 * (getX s x.val).ccaDbm ≤ power ∧ (∀ y ∈ s.nb.x, y.reqs = [] ∧ y.moveDue = false)) →
    Does (exec (.nbCcaDone x power) s) s [.outs, .boot, .host, .evt, .cad, .clk, .nb, .mlad, .cipher, .drawn, .out] fun u => u.nb.x = updAt s.nb.x x.val (fun y => { y with handed := none, tx := none, ctr := bump y.ctr 11 }) ∧ u.mlad.ctr = bump s.mlad.ctr 21 ∧ u.outs.nbPa = s.outs.nbPa) ∧
  (∀ (s : State) (x : Fin 4) (power : Int) (t : NbTx), ((getX s x.val).tx = some t ∧ t.sensing = true ∧ t.busy = false ∧ (getX s x.val).st = 1 ∧ power < 2 * (getX s x.val).ccaDbm ∧ s.modes.mode = 5 ∧ t.at_ + (getX s x.val).ccaT ≤ nowNs s ∧ nowNs s < t.req.latest ∧ (getX s x.val).hopping = false ∧ ledgerFails s (getX s x.val).ch ((getX s x.val).paOn t.req) (nowNs s) = none) →
    Does (exec (.nbCcaDone x power) s) s [.outs, .boot, .host, .evt, .cad, .clk, .nb, .mlad, .cipher, .drawn, .out] fun u => (getX u x.val).st = 4 ∧ (getX u x.val).tx = some { req := t.req, at_ := nowNs s, d := (getX s x.val).paOn t.req } ∧ u.outs.nbPa = s.outs.nbPa ||| (1 <<< x.val : BitVec 4) ∧ u.out = s.out ++ [Emit.nb x.val (getX s x.val).ch t.req.psdu]) ∧
  (∀ (s : State) (x : Fin 4) (q : NbReq), ((getX s x.val).handed = some q ∧ q.kind = .relay ∧ (getX s x.val).st ≠ 6 ∧ (∀ y ∈ s.nb.x, y.reqs = [] ∧ y.moveDue = false)) →
    Does (exec (.nbRequestLatest x) s) s [.boot, .host, .evt, .cad, .clk, .nb, .mlad, .cipher, .drawn, .out] fun u => u.nb.x = updAt s.nb.x x.val (fun y => { y with handed := none, tx := none, ctr := bump y.ctr 10 }) ∧ u.mlad.ctr = bump s.mlad.ctr 21) ∧
  (∀ (s : State) (x : Fin 4) (err : Option Int) (t : NbTx), ((getX s x.val).tx = some t ∧ t.sensing = false ∧ t.req.kind = .relay ∧ err = none ∧ (getX s x.val).rlN = 0 ∧ (∀ y ∈ s.nb.x, y.reqs = [] ∧ y.moveDue = false)) →
    Does (exec (.nbTxDone x err) s) s [.outs, .boot, .host, .evt, .cad, .clk, .nb, .mlad, .cipher, .drawn, .out] fun u => u.nb.x = updAt s.nb.x x.val (fun y => { y with st := 1, handed := none, tx := none, ctr := bump y.ctr 9 }) ∧ u.outs.nbPa = s.outs.nbPa &&& ~~~(1 <<< x.val : BitVec 4) ∧ u.mlad.ctr = bump s.mlad.ctr 19) ∧
  (∀ (s : State) (x : Fin 4) (t : NbTx), ((getX s x.val).tx = some t ∧ t.sensing = false ∧ t.req.kind = .relay ∧ (∀ y ∈ s.nb.x, y.reqs = [] ∧ y.moveDue = false)) →
    Does (exec (.nbLockLoss x) s) s [.outs, .boot, .host, .evt, .clk, .nb, .mlad, .cipher, .drawn, .out] fun u => u.nb.x = updAt s.nb.x x.val (fun y => { y with st := 5, tried := false, handed := none, tx := none, ctr := bump y.ctr 16 }) ∧ u.outs.nbPa = s.outs.nbPa &&& ~~~(1 <<< x.val : BitVec 4)) ∧
  (∀ (s : State) (x : Fin 4) (rl : Nat) (t : NbTx), ((getX s x.val).tx = some t ∧ t.sensing = false ∧ t.req.kind ≠ .tuner ∧ (getX s x.val).rlProtect ≤ rl) →
    Does (exec (.nbRlSample x rl) s) s [.outs, .boot, .host, .evt, .cad, .clk, .nb, .mlad, .cipher, .drawn, .out] fun u => u.nb.x = updAt s.nb.x x.val (fun y => { y with lastRl := min 254 rl, rlSum := y.rlSum + rl, rlN := y.rlN + 1, lowRun := 0 })) ∧
  (∀ (s : State) (x : Fin 4) (rl : Nat) (t : NbTx), ((getX s x.val).tx = some t ∧ t.sensing = false ∧ t.req.kind ≠ .tuner ∧ rl < (getX s x.val).rlProtect ∧ (getX s x.val).lowRun = 1 ∧ (getX s x.val).folded = false) →
    Does (exec (.nbRlSample x rl) s) s [.outs, .boot, .host, .evt, .cad, .clk, .nb, .mlad, .cipher, .drawn, .out] fun u => u.nb.x = updAt s.nb.x x.val (fun y => { y with lastRl := min 254 rl, rlSum := y.rlSum + rl, rlN := y.rlN + 1, lowRun := 0, folded := true, ctr := bump y.ctr 17 })) ∧
  (∀ (s : State) (x : Fin 4), ((getX s x.val).st = 5 ∧ (getX s x.val).ch < s.nb.count ∧ domOn s 2 = true ∧ (∀ y ∈ s.nb.x, y.reqs = [] ∧ y.moveDue = false)) →
    Does (exec (.nbSynthLocked x) s) s [.boot, .host, .evt, .clk, .nb, .mlad, .cipher, .drawn, .out] fun u => u.nb.x = updAt s.nb.x x.val (fun y => { y with st := 1, tried := false })) ∧
  (∀ (s : State) (x : Fin 4), ((getX s x.val).st = 5 ∧ domOn s 2 = true ∧ (getX s x.val).tried = false) →
    Does (exec (.nbSynthLockTimeout x) s) s [.boot, .host, .evt, .clk, .nb, .mlad, .cipher, .drawn, .out] fun u => u.nb.x = updAt s.nb.x x.val (fun y => { y with tried := true })) ∧
  (∀ (s : State) (x : Fin 4), ((getX s x.val).st = 5 ∧ domOn s 2 = true ∧ (getX s x.val).tried = true ∧ (getX s x.val).handed = none ∧ (getX s x.val).tx = none ∧ (∀ y ∈ s.nb.x, y.reqs = [])) →
    Does (exec (.nbSynthLockTimeout x) s) s [.boot, .host, .evt, .clk, .nb, .mlad, .cipher, .drawn, .out] fun u => u.nb.x = updAt s.nb.x x.val (fun y => { y with st := 6 })) ∧
  (∀ (s : State) (x : Fin 4), ((getX s x.val).hopping = true ∧ (getX s x.val).enable = true ∧ (getX s x.val).st = 1 ∧ hopHold s = false ∧ domOn s 2 = true ∧ (getX s x.val).tx = none ∧ (getX s x.val).slot ≠ some (slotNow s (getX s x.val))) →
    Does (exec (.hopSlotStart x) s) s [.cad, .clk, .nb] fun u => (getX u x.val).slot = some (slotNow s (getX s x.val)) ∧ (getX u x.val).st = 5 ∧ (getX u x.val).ch = assignedCh s (getX s x.val)) ∧
  (∀ (s : State) (x : Fin 4), ((getX s x.val).hopping = false) →
    Does (exec (.hopSlotStart x) s) s [.cad, .clk, .nb] fun u => u = s) ∧
  (∀ (s : State) (x : Fin 4) (power : Int), (nbListens s x.val = true ∧ (getX s x.val).st = 1) →
    Does (exec (.nbPreambleDetected x power) s) s [.nb] fun u => u.nb.x = updAt s.nb.x x.val (fun y => { y with st := 2, level := power, capLost := false, tx := y.tx.map (fun t => { t with busy := true }) })) ∧
  (∀ (s : State) (x : Fin 4) (power : Int), (nbListens s x.val = false) →
    Does (exec (.nbPreambleDetected x power) s) s [.nb] fun u => u = s) ∧
  (∀ (s : State) (x : Fin 4), ((getX s x.val).st = 2) →
    Does (exec (.nbSyncTimeout x) s) s [.nb] fun u => u.nb.x = updAt s.nb.x x.val (fun y => { y with st := 1, ctr := bump y.ctr 3 })) ∧
  (∀ (s : State) (x : Fin 4) (power : Int), ((getX s x.val).st = 2 ∧ (getX s x.val).level + 2 * ((getX s x.val).restartDb : Int) ≤ power) →
    Does (exec (.nbRxWindowPower x power) s) s [.nb] fun u => u.nb.x = updAt s.nb.x x.val (fun y => { y with st := 1, ctr := bump y.ctr 4 })) ∧
  (∀ (s : State) (x : Fin 4) (power : Int), ((getX s x.val).st = 3 ∧ (getX s x.val).capture = true ∧ (getX s x.val).level + 2 * ((getX s x.val).captureDb : Int) ≤ power) →
    Does (exec (.nbRxWindowPower x power) s) s [.nb] fun u => u.nb.x = updAt s.nb.x x.val (fun y => { y with st := 1, ctr := bump y.ctr 5 })) ∧
  (∀ (s : State) (x : Fin 4) (power : Int), ((getX s x.val).st = 3 ∧ (getX s x.val).capture = false ∧ (getX s x.val).capLost = false ∧ (getX s x.val).level + 2 * ((getX s x.val).captureDb : Int) ≤ power) →
    Does (exec (.nbRxWindowPower x power) s) s [.nb] fun u => u.nb.x = updAt s.nb.x x.val (fun y => { y with capLost := true, ctr := bump y.ctr 6 })) ∧
  (∀ (s : State) (x : Fin 4) (phr : W16) (rssi : Int), (nbListens s x.val = true ∧ (getX s x.val).st = 2 ∧ phrOk phr = true) →
    Does (exec (.nbPhrReceived x phr rssi) s) s [.nb] fun u => u.nb.x = updAt s.nb.x x.val (fun y => { y with st := 3, level := max (-260) (min 0 rssi) })) ∧
  (∀ (s : State) (x : Fin 4) (phr : W16) (rssi : Int), (nbListens s x.val = true ∧ (getX s x.val).st = 2 ∧ phrOk phr = false) →
    Does (exec (.nbPhrReceived x phr rssi) s) s [.nb] fun u => u.nb.x = updAt s.nb.x x.val (fun y => { y with st := 1, level := max (-260) (min 0 rssi), ctr := bump y.ctr 2 })) ∧
  (∀ (s : State) (x : Fin 4) (frame : List Byte) (fcs2 fcsOk : Bool) (rssi : Int) (t : Nat), (nbListens s x.val = true ∧ (getX s x.val).st = 2 ∧ fcsOk = false ∧ (∀ y ∈ s.nb.x, y.reqs = [] ∧ y.moveDue = false)) →
    Does (exec (.nbFrameReceived x frame fcs2 fcsOk rssi t) s) s [.boot, .mbx, .host, .evt, .modes, .cad, .clk, .air, .nb, .mlad, .cls, .tm, .cipher, .ring, .drawn, .out] fun u => u.nb.x = updAt s.nb.x x.val (fun y => { y with st := 1, ctr := bump y.ctr 1 }) ∧ u.mlad = s.mlad) ∧
  (∀ (s : State) (d : Doorbell) (p : List Byte), Ready specNbConfig d p s → let c := cmdOf specNbConfig d p s
    (c.u 16 1 ≤ 3 ∧ bit (c.u 17 1) 0 = false ∧ (getX s (c.u 16 1)).st = 0 ∧ (getX s (c.u 16 1)).tx = none ∧ (getX s (c.u 16 1)).tried = false ∧ (getX s (c.u 16 1)).enable = false ∧ (∀ y ∈ s.nb.x, y.enable = false ∧ y.collide = false ∧ y.reqs = []) ∧ c.u 18 1 ≤ 2 ∧ 4 ≤ c.u 19 1 ∧ c.u 19 1 ≤ 32 ∧ 10 ≤ c.u 20 2 ∧ c.u 20 2 ≤ 300 ∧ c.u 22 1 ≤ 1 ∧ -20 ≤ c.i 24 1 ∧ c.i 24 1 ≤ 40 ∧ 2 ≤ c.u 25 1 ∧ c.u 25 1 ≤ 64 ∧ -110 ≤ c.i 28 1 ∧ c.i 28 1 ≤ -60 ∧ 6 ≤ c.u 29 1 ∧ c.u 29 1 ≤ 20 ∧ 4 ≤ c.u 30 1 ∧ c.u 30 1 ≤ 20 ∧ 4 ≤ c.u 31 1 ∧ c.u 31 1 ≤ 40 ∧ c.u 31 1 + 4 ≤ c.u 32 1 ∧ c.u 32 1 ≤ 80 ∧ 64 ≤ c.u 34 2 ∧ c.u 34 2 ≤ 5000) →
    Answers (exec (.nbConfig d p) s) specNbConfig d p s [.boot, .mbx, .host, .evt, .clk, .nb, .mlad, .cipher, .drawn, .out] (.ok) fun u => u.nb.x = updAt s.nb.x (c.u 16 1) (fun y => { y with capture := bit (c.u 17 1) 1, autoTune := bit (c.u 17 1) 2, whiten := bit (c.u 17 1) 3, mod := c.u 18 1, pre := c.u 19 1, kbaud := c.u 20 2, fcs := c.u 22 1, txpwr := c.i 24 1, ramp := c.u 25 1, sfd := BitVec.ofNat 16 (c.u 26 2), ccaDbm := c.i 28 1, restartDb := c.u 29 1, captureDb := c.u 30 1, rlProtect := c.u 31 1, rlGood := c.u 32 1, ccaUs := c.u 34 2 })) ∧
  (∀ (s : State) (d : Doorbell) (p : List Byte), Ready specNbConfig d p s → let c := cmdOf specNbConfig d p s
    (c.u 16 1 ≤ 3 ∧ bit (c.u 17 1) 0 = true ∧ s.nb.count = 0 ∧ (getX s (c.u 16 1)).st = 0 ∧ (getX s (c.u 16 1)).tx = none ∧ (getX s (c.u 16 1)).tried = false ∧ (getX s (c.u 16 1)).enable = false ∧ (∀ y ∈ s.nb.x, y.enable = false ∧ y.collide = false ∧ y.reqs = []) ∧ c.u 18 1 ≤ 2 ∧ 4 ≤ c.u 19 1 ∧ c.u 19 1 ≤ 32 ∧ 10 ≤ c.u 20 2 ∧ c.u 20 2 ≤ 300 ∧ c.u 22 1 ≤ 1 ∧ -20 ≤ c.i 24 1 ∧ c.i 24 1 ≤ 40 ∧ 2 ≤ c.u 25 1 ∧ c.u 25 1 ≤ 64 ∧ -110 ≤ c.i 28 1 ∧ c.i 28 1 ≤ -60 ∧ 6 ≤ c.u 29 1 ∧ c.u 29 1 ≤ 20 ∧ 4 ≤ c.u 30 1 ∧ c.u 30 1 ≤ 20 ∧ 4 ≤ c.u 31 1 ∧ c.u 31 1 ≤ 40 ∧ c.u 31 1 + 4 ≤ c.u 32 1 ∧ c.u 32 1 ≤ 80 ∧ 64 ≤ c.u 34 2 ∧ c.u 34 2 ≤ 5000) →
    Answers (exec (.nbConfig d p) s) specNbConfig d p s [.boot, .mbx, .host, .evt, .clk, .nb, .mlad, .cipher, .drawn, .out] (.ok) fun u => u.nb.x = updAt s.nb.x (c.u 16 1) (fun y => { y with enable := true, st := 5, ch := assignedCh s (getX s (c.u 16 1)), capture := bit (c.u 17 1) 1, autoTune := bit (c.u 17 1) 2, whiten := bit (c.u 17 1) 3, mod := c.u 18 1, pre := c.u 19 1, kbaud := c.u 20 2, fcs := c.u 22 1, txpwr := c.i 24 1, ramp := c.u 25 1, sfd := BitVec.ofNat 16 (c.u 26 2), ccaDbm := c.i 28 1, restartDb := c.u 29 1, captureDb := c.u 30 1, rlProtect := c.u 31 1, rlGood := c.u 32 1, ccaUs := c.u 34 2 })) ∧
  (∀ (s : State) (d : Doorbell) (p : List Byte), Ready specNbConfig d p s → let c := cmdOf specNbConfig d p s
    (c.u 16 1 ≤ 3 ∧ c.u 19 1 < 4) →
    Answers (exec (.nbConfig d p) s) specNbConfig d p s [.boot, .mbx, .host, .evt, .clk, .nb, .mlad, .cipher, .drawn, .out] (eArg) fun u => u.nb = s.nb) ∧
  (∀ (s : State) (d : Doorbell) (p : List Byte), Ready specNbChannelPlan d p s → let c := cmdOf specNbChannelPlan d p s
    (c.u 16 1 = 0 ∧ 1 ≤ c.u 17 1 ∧ c.u 17 1 ≤ 64 ∧ 750000 ≤ c.u 20 4 ∧ c.u 20 4 ≤ 960000 ∧ 12500 ≤ c.u 24 4 ∧ c.u 24 4 ≤ 2000000 ∧ s.nb.x.any (·.enable) = false) →
    Answers (exec (.nbChannelPlan d p) s) specNbChannelPlan d p s [.mbx, .evt, .cal, .nb] (.ok) fun u => u.nb = { s.nb with count := c.u 17 1, base := c.u 20 4, spacing := c.u 24 4, x := s.nb.x.map fun y => { y with codes := y.codes.filter (·.1 < c.u 17 1) } }) ∧
  (∀ (s : State) (d : Doorbell) (p : List Byte), Ready specNbChannelPlan d p s → let c := cmdOf specNbChannelPlan d p s
    (c.u 16 1 = 0 ∧ 1 ≤ c.u 17 1 ∧ c.u 17 1 ≤ 64 ∧ 750000 ≤ c.u 20 4 ∧ c.u 20 4 ≤ 960000 ∧ 12500 ≤ c.u 24 4 ∧ c.u 24 4 ≤ 2000000 ∧ s.nb.x.any (·.enable) = true) →
    Answers (exec (.nbChannelPlan d p) s) specNbChannelPlan d p s [.mbx, .evt, .cal, .nb] (eState) fun u => u.nb = s.nb) ∧
  (∀ (s : State) (d : Doorbell) (p : List Byte), Ready specNbChannelPlan d p s → let c := cmdOf specNbChannelPlan d p s
    (c.u 16 1 = 1 ∧ c.u 17 1 ≤ 3 ∧ c.u 18 1 = 0 ∧ c.u 19 1 < s.nb.count ∧ c.u 20 1 < s.nb.count ∧ c.u 21 1 = 1 ∧ 1 ≤ c.u 22 2 ∧ c.u 22 2 ≤ 10000 ∧ c.u 24 2 = 0 ∧ c.u 28 1 < s.nb.count ∧ (∀ k, k < 64 → c.u (92 + 2 * k) 1 = 0xFF ∧ c.u (93 + 2 * k) 1 = 0xFF) ∧ (getX s (c.u 17 1)).enable = false ∧ (getX s (c.u 17 1)).st = 0 ∧ (∀ y ∈ s.nb.x, y.moveDue = false)) →
    Answers (exec (.nbChannelPlan d p) s) specNbChannelPlan d p s [.mbx, .evt, .cal, .nb] (.ok) fun u => u.nb.x = updAt s.nb.x (c.u 17 1) (fun y => { y with hopping := false, fixedCh := c.u 19 1, vigilCh := c.u 20 1, hopBeats := c.u 22 2, hopOffset := 0, hopSeq := [c.u 28 1], slot := none, ch := c.u 19 1 })) ∧
  (∀ (s : State) (d : Doorbell) (p : List Byte), Ready specTunerRun d p s → pendingOf s d.mb.val < 32 → let c := cmdOf specTunerRun d p s
    (c.u 16 1 ≤ 3 ∧ 1 ≤ c.u 19 1 ∧ c.u 19 1 ≤ 64 ∧ c.u 18 1 + c.u 19 1 ≤ s.nb.count ∧ s.modes.mode = 4 ∧ (getX s (c.u 16 1)).enable = true) →
    Accepts (exec (.tunerRun d p) s) specTunerRun d p s [.boot, .mbx, .host, .evt, .clk, .nb, .mlad, .cipher, .drawn, .out] fun u => (getX u (c.u 16 1)).tune.map (·.chan) = some (c.u 18 1) ∧ (getX u (c.u 16 1)).tune.map (·.last) = some (c.u 18 1 + c.u 19 1 - 1) ∧ (getX u (c.u 16 1)).tune.map (·.cmd) = some true) ∧
  (∀ (s : State) (x : Fin 4) (t : Tune) (l : LongCmd), ((getX s x.val).tune = some t ∧ t.cmd = true ∧ t.ended = true ∧ findLong s 0x0804 (fun c => c.u 16 1 == x.val) = some l) →
    Does (exec (.tunerRunDone x) s) s [.boot, .mbx, .host, .evt, .clk, .nb, .ring, .out] fun u => u.nb.x = updAt s.nb.x x.val (fun y => { y with tune := none }) ∧ u.mbx.longs = s.mbx.longs.erase l) ∧
  (∀ (s : State) (x : Fin 4), (nbFree s x.val = true ∧ (getX s x.val).st = 1 ∧ (getX s x.val).mismatch = true ∧ (getX s x.val).autoTune = true ∧ (getX s x.val).tune = none ∧ (getX s x.val).tx = none ∧ (getX s x.val).handed = none) →
    Does (exec (.nbAutoTuneStart x) s) s [.boot, .host, .evt, .clk, .nb, .mlad, .cipher, .drawn, .out] fun u => (getX u x.val).tune.map (·.chan) = some (getX s x.val).ch ∧ (getX u x.val).tune.map (·.last) = some (getX s x.val).ch ∧ (getX u x.val).tune.map (·.cmd) = some false) ∧
  (∀ (s : State) (x : Fin 4) (t : Tune) (r : Nat), ((getX s x.val).tune = some t ∧ t.retryAt = some r) →
    Does (exec (.tuneBurstRetry x) s) s [.boot, .host, .evt, .cad, .clk, .nb, .mlad, .cipher, .drawn, .out] fun u => (getX u x.val).tune = some { t with retryAt := none, results := [] }) ∧
  (∀ (s : State) (x : Fin 4) (t : Tune), ((getX s x.val).tune = some t ∧ t.ended = false ∧ t.cmd = true ∧ t.chan = t.last) →
    Does (exec (.tuneSearchTimeout x) s) s [.boot, .host, .evt, .cad, .clk, .nb, .mlad, .cipher, .drawn, .out] fun u => (getX u x.val).tune = some { t with blocked := t.blocked + 1, retryAt := none, ended := true }) ∧
  (∀ (s : State) (d : Doorbell) (p : List Byte), Ready specNbStats d p s → let c := cmdOf specNbStats d p s
    (c.u 16 1 ≤ 3 ∧ c.u 17 1 = 1 ∧ bit (c.u 18 1) 0 = true) →
    Answers (exec (.nbStats d p) s) specNbStats d p s [.mbx, .evt, .nb, .drawn] (.ok (tuneBytes s (getX s (c.u 16 1)))) fun u => u.nb.x = updAt s.nb.x (c.u 16 1) (fun y => { y with ctr := zeroed y.ctr })) ∧
  (∀ (s : State) (d : Doorbell) (p : List Byte), Ready specNbStats d p s → let c := cmdOf specNbStats d p s
    (c.u 16 1 ≤ 3 ∧ c.u 17 1 = 0 ∧ bit (c.u 18 1) 0 = false ∧ blanked s (2 + c.u 16 1) = false) →
    Answers (exec (.nbStats d p) s) specNbStats d p s [.mbx, .evt, .nb, .drawn] (.ok (le 1 (getX s (c.u 16 1)).st ++ le 1 (b2n (getX s (c.u 16 1)).mismatch + 2 * b2n (getX s (c.u 16 1)).hopping) ++ le 1 (getX s (c.u 16 1)).ch ++ le 1 (getX s (c.u 16 1)).lastRl ++ le 1 (codesOf (getX s (c.u 16 1)) (getX s (c.u 16 1)).ch).1 ++ le 1 (codesOf (getX s (c.u 16 1)) (getX s (c.u 16 1)).ch).2 ++ leI 2 (s.cal.nbTemp.getD (c.u 16 1) 0) ++ le 2 (s.draw 65536).1 ++ [0, 0] ++ ctrBytes (getX s (c.u 16 1)).ctr ++ le 4 (dwellAt s (getX s (c.u 16 1)).ch (nowNs s) / 10 ^ 6))) fun u => u.nb = s.nb)

/-- NODE_ADD enters a node, NODE_REMOVE takes it out, NODE_GET answers its settings; an absent node and a used index are refused. NB_SEND is refused without an address of its own and holds a frame for a sleepy node. FLOOD_CONFIG stores what it carries, HELD_STATUS answers the store and the counters. A frame without its ACK goes to its backoff, or fails after the eighth attempt; a backoff that ends past the lifetime fails the frame. A held frame expires, a relay is suppressed by copies, a seen-cache entry goes at its age, a beacon takes the next broadcast SEQ. A CTR_FLOOR write raises the stored value by 65,536, and the move of the store ends with every frame in DRAM. -/
def Obligations.MladmerRowsTakeEffect : Prop :=
  (∀ (s : State) (job : Nat) (j : Job), (Tab.get? s.mlad.jobs job = some j ∧ j.st = .waitAck ∧ j.k < 8 ∧ (∀ y ∈ s.nb.x, y.reqs = [])) →
    Does (exec (.nbAckTimeout job) s) s [.boot, .host, .evt, .cad, .clk, .nb, .mlad, .cipher, .drawn, .out] fun u => (Tab.get? u.mlad.jobs job).map (·.st) = some .backoff ∧ (Tab.get? u.mlad.jobs job).map (·.k) = some j.k ∧ u.mlad.ctr = bump s.mlad.ctr 13) ∧
  (∀ (s : State) (job : Nat) (j : Job), (s.mlad.jobs = [(job, j)] ∧ j.st = .waitAck ∧ 8 ≤ j.k ∧ (∀ y ∈ s.nb.x, y.reqs = [])) →
    Does (exec (.nbAckTimeout job) s) s [.boot, .host, .evt, .cad, .clk, .nb, .mlad, .cipher, .drawn, .out] fun u => u.mlad.jobs = [] ∧ u.mlad.ctr = bump s.mlad.ctr 14) ∧
  (∀ (s : State) (job : Nat), (Tab.get? s.mlad.jobs job = none ∧ s.mlad.store = []) →
    Does (exec (.nbAckTimeout job) s) s [.boot, .host, .evt, .cad, .clk, .nb, .mlad, .cipher, .drawn, .out] fun u => u = s) ∧
  (∀ (s : State) (job : Nat) (j : Job), (s.mlad.jobs = [(job, j)] ∧ j.st = .backoff ∧ s.modes.mode = 5 ∧ j.until_ ≤ nowNs s ∧ j.wake ≤ nowNs s) →
    Does (exec (.nbBackoffExpiry job) s) s [.boot, .host, .evt, .cad, .clk, .nb, .mlad, .cipher, .drawn, .out] fun u => u.mlad.jobs = [] ∧ u.mlad.ctr = bump s.mlad.ctr 14) ∧
  (∀ (s : State) (job : Nat) (j : Job), (Tab.get? s.mlad.jobs job = some j ∧ j.st = .backoff ∧ s.modes.mode = 5 ∧ j.wake ≤ nowNs s ∧ nowNs s < j.until_ ∧ (∀ y ∈ s.nb.x, y.hold.isSome = true)) →
    Does (exec (.nbBackoffExpiry job) s) s [.boot, .host, .evt, .cad, .clk, .nb, .mlad, .cipher, .drawn, .out] fun u => (Tab.get? u.mlad.jobs job).map (·.st) = some .queued ∧ (Tab.get? u.mlad.jobs job).map (·.k) = some (j.k + 1) ∧ u.nb.x = updAt s.nb.x j.xcvr (fun y => { y with reqs := y.reqs ++ [{ kind := .data, key := job, frame := some j.frame, earliest := nowNs s, latest := j.until_ }] })) ∧
  (∀ (s : State) (key : Nat) (h : HeldFrame), (s.mlad.store = [h] ∧ h.key = key ∧ (∀ y ∈ s.nb.x, y.reqs = [] ∧ y.handed = none ∧ y.tx = none)) →
    Does (exec (.heldFrameExpiry key) s) s [.boot, .host, .evt, .cad, .clk, .nb, .mlad, .cipher, .drawn, .out] fun u => u.mlad.store = [] ∧ u.mlad.ctr = bump (bump s.mlad.ctr 18) 14) ∧
  (∀ (s : State) (src : W32) (seq : W16) (r : Relay), (s.mlad.relays = [r] ∧ r.src = src ∧ r.seq = seq ∧ s.mlad.suppress = 1) →
    Does (exec (.relayJitterExpiry src seq) s) s [.boot, .host, .evt, .cad, .clk, .nb, .mlad, .cipher, .drawn, .out] fun u => u.mlad.relays = [] ∧ u.mlad.ctr = bump s.mlad.ctr 20 ∧ u.nb = s.nb) ∧
  (∀ (s : State) (src : W32) (seq : W16) (r : Relay), (s.mlad.relays = [r] ∧ r.src = src ∧ r.seq = seq ∧ s.mlad.suppress = 0 ∧ (∀ y ∈ s.nb.x, y.hold.isSome = true)) →
    Does (exec (.relayJitterExpiry src seq) s) s [.boot, .host, .evt, .cad, .clk, .nb, .mlad, .cipher, .drawn, .out] fun u => u.mlad.relays = [] ∧ u.nb.x = updAt s.nb.x r.xcvr (fun y => { y with reqs := y.reqs ++ [{ kind := .relay, psdu := r.frame, earliest := r.t0, latest := r.t0 + 100000000 }] })) ∧
  (∀ (s : State) (src : W32) (seq : W16) (e : Seen), (s.mlad.seen = [e] ∧ e.src = src ∧ e.seq = seq) →
    Does (exec (.seenEntryExpiry src seq) s) s [.cad, .clk, .mlad] fun u => u.mlad.seen = []) ∧
  (∀ (s : State), (s.mlad.beaconEn = true ∧ s.mlad.gw ≠ 0 ∧ nbLive s = true ∧ (∀ y ∈ s.nb.x, y.enable = false)) →
    Does (exec .nbBeaconInterval s) s [.boot, .host, .evt, .clk, .nb, .mlad, .cipher, .drawn, .out] fun u => u.mlad.bcastSeq = s.mlad.bcastSeq + 1) ∧
  (∀ (s : State), (s.mlad.beaconEn = false) →
    Does (exec .nbBeaconInterval s) s [.boot, .host, .evt, .clk, .nb, .mlad, .cipher, .drawn, .out] fun u => u = s) ∧
  (∀ (s : State), (s.mlad.floorWriting = true ∧ s.mlad.jobs = [] ∧ (∀ y ∈ s.nb.x, y.reqs = [])) →
    Does (exec .ctrFloorWriteDone s) s [.boot, .host, .evt, .clk, .nb, .mlad, .cipher, .drawn, .out] fun u => u.mlad.stored = s.mlad.stored + 65536 ∧ u.mlad.floorWriting = false ∧ u.boot.mram = memWrite s.boot.mram 0x6FFF0 (le 8 (s.mlad.stored + 65536))) ∧
  (∀ (s : State), (s.mlad.moving = true ∧ dramReady s = true ∧ s.modes.mode ≠ 3) →
    Does (exec .heldStoreMoveDone s) s [.mlad] fun u => u.mlad = { s.mlad with moving := false, store := s.mlad.store.map (fun h => { h with dram := true }) }) ∧
  (∀ (s : State) (d : Doorbell) (p : List Byte), Ready specNodeAdd d p s → let c := cmdOf specNodeAdd d p s
    (c.u 16 2 ≤ 8191 ∧ c.u 19 1 ≤ 3 ∧ c.u 20 4 ≠ 0 ∧ c.u 20 4 ≠ 0xFFFFFFFF ∧ c.u 24 2 = 0xFFFF ∧ c.u 26 1 ≤ 1 ∧ 32 ≤ c.u 27 1 ∧ c.u 27 1 ≤ 61 ∧ 1 ≤ c.u 28 1 ∧ c.u 28 1 ≤ 60 ∧ 1 ≤ c.u 29 1 ∧ c.u 29 1 ≤ 16 ∧ getNode s (c.u 16 2) = none ∧ nodeAt s (BitVec.ofNat 32 (c.u 20 4)) = none) →
    Answers (exec (.nodeAdd d p) s) specNodeAdd d p s [.mbx, .evt, .air, .mlad] (.ok) fun u => getNode u (c.u 16 2) = some { flags := BitVec.ofNat 4 (c.u 18 1), xcvr := c.u 19 1, addr := BitVec.ofNat 32 (c.u 20 4), ks := 0xFFFF, deliver := c.u 26 1, ring := c.u 27 1, holdS := c.u 28 1, heldMax := c.u 29 1, txCtr := max s.mlad.floor (c.u 32 4), rxCtr := c.u 36 4 }) ∧
  (∀ (s : State) (d : Doorbell) (p : List Byte), Ready specNodeAdd d p s → let c := cmdOf specNodeAdd d p s
    (c.u 16 2 ≤ 8191 ∧ c.u 19 1 ≤ 3 ∧ c.u 20 4 ≠ 0 ∧ c.u 20 4 ≠ 0xFFFFFFFF ∧ c.u 24 2 = 0xFFFF ∧ c.u 26 1 ≤ 1 ∧ 32 ≤ c.u 27 1 ∧ c.u 27 1 ≤ 61 ∧ 1 ≤ c.u 28 1 ∧ c.u 28 1 ≤ 60 ∧ 1 ≤ c.u 29 1 ∧ c.u 29 1 ≤ 16 ∧ (getNode s (c.u 16 2)).isSome = true) →
    Answers (exec (.nodeAdd d p) s) specNodeAdd d p s [.mbx, .evt, .air, .mlad] (.err 0x0805) fun u => u.mlad = s.mlad) ∧
  (∀ (s : State) (d : Doorbell) (p : List Byte) (n : Nat) (x : Node), Ready specNodeRemove d p s → let c := cmdOf specNodeRemove d p s
    (c.u 16 2 ≤ 8191 ∧ s.mlad.nodes = [(n, x)] ∧ n = c.u 16 2 ∧ s.mlad.store = [] ∧ s.mlad.jobs = [] ∧ (∀ y ∈ s.nb.x, y.reqs = [] ∧ y.handed = none ∧ y.tx = none)) →
    Answers (exec (.nodeRemove d p) s) specNodeRemove d p s [.boot, .mbx, .host, .evt, .clk, .nb, .mlad, .cipher, .drawn, .out] (.ok) fun u => u.mlad.nodes = []) ∧
  (∀ (s : State) (d : Doorbell) (p : List Byte), Ready specNodeRemove d p s → let c := cmdOf specNodeRemove d p s
    (c.u 16 2 ≤ 8191 ∧ getNode s (c.u 16 2) = none) →
    Answers (exec (.nodeRemove d p) s) specNodeRemove d p s [.boot, .mbx, .host, .evt, .clk, .nb, .mlad, .cipher, .drawn, .out] (.err 0x0806) fun u => u.mlad = s.mlad) ∧
  (∀ (s : State) (d : Doorbell) (p : List Byte) (x : Node), Ready specNodeGet d p s → let c := cmdOf specNodeGet d p s
    (c.u 16 2 ≤ 8191 ∧ c.u 18 1 = 0 ∧ getNode s (c.u 16 2) = some x) →
    Answers (exec (.nodeGet d p) s) specNodeGet d p s [.mbx, .evt, .air] (.ok (le 2 (c.u 16 2) ++ le 1 x.flags.toNat ++ le 1 x.xcvr ++ le 4 x.addr.toNat ++ le 2 x.ks ++ le 1 x.deliver ++ le 1 x.ring ++ le 1 x.holdS ++ le 1 x.heldMax ++ [0, 0] ++ le 4 (min 0xFFFFFFFF x.txCtr) ++ le 4 x.rxCtr ++ List.replicate 8 0)) fun u => u.mlad = s.mlad) ∧
  (∀ (s : State) (d : Doorbell) (p : List Byte), Ready specNodeGet d p s → let c := cmdOf specNodeGet d p s
    (c.u 16 2 ≤ 8191 ∧ c.u 18 1 ≤ 1 ∧ getNode s (c.u 16 2) = none) →
    Answers (exec (.nodeGet d p) s) specNodeGet d p s [.mbx, .evt, .air] (.err 0x0806) fun u => u.mlad = s.mlad) ∧
  (∀ (s : State) (d : Doorbell) (p : List Byte), Ready specNbSend d p s → let c := cmdOf specNbSend d p s
    (c.par.length = 20 + c.u 24 1 ∧ c.u 24 1 ≤ 196 ∧ c.u 16 2 = 0xFFFF ∧ c.u 18 1 = 0 ∧ c.u 19 1 = 0 ∧ c.u 20 1 ≤ 3 ∧ 10 ≤ c.u 22 2 ∧ c.u 22 2 ≤ 60000 ∧ s.mlad.gw = 0) →
    Answers (exec (.nbSend d p) s) specNbSend d p s [.boot, .mbx, .host, .evt, .clk, .nb, .mlad, .cipher, .drawn, .out] (.err 0x0809) fun u => u.mlad = s.mlad ∧ u.nb = s.nb) ∧
  (∀ (s : State) (d : Doorbell) (p : List Byte) (x : Node), Ready specNbSend d p s → let c := cmdOf specNbSend d p s
    (c.par.length = 20 + c.u 24 1 ∧ c.u 24 1 ≤ 196 ∧ c.u 16 2 ≤ 8191 ∧ c.u 18 1 = 1 ∧ c.u 19 1 = 0 ∧ c.u 20 1 ≤ 3 ∧ 10 ≤ c.u 22 2 ∧ c.u 22 2 ≤ 60000 ∧ s.mlad.gw ≠ 0 ∧ getNode s (c.u 16 2) = some x ∧ x.flags.getLsbD 0 = true ∧ s.mlad.store = []) →
    Answers (exec (.nbSend d p) s) specNbSend d p s [.boot, .mbx, .host, .evt, .clk, .nb, .mlad, .cipher, .drawn, .out] (.ok (le 2 x.txSeq.toNat)) fun u => u.mlad.store = [{ key := s.mlad.nextKey, frame := { node := c.u 16 2, type := 0, ackReq := true, dst := x.addr, seq := x.txSeq, data := c.bytes 36 (c.u 24 1) }, cookie := BitVec.ofNat 64 (c.u 28 8), at_ := nowNs s, dram := storeInDram s }] ∧ (getNode u (c.u 16 2)).map (·.txSeq) = some (x.txSeq + 1) ∧ u.nb = s.nb) ∧
  (∀ (s : State) (d : Doorbell) (p : List Byte), Ready specFloodConfig d p s → let c := cmdOf specFloodConfig d p s
    (c.u 16 4 ≠ 0xFFFFFFFF ∧ c.u 23 1 ≠ 1 ∧ c.u 23 1 ≤ 15 ∧ c.u 24 1 ≤ 20 ∧ 1 ≤ c.u 25 1 ∧ c.u 25 1 ≤ 32 ∧ 1 ≤ c.u 26 1 ∧ 32 ≤ c.u 27 1 ∧ c.u 27 1 ≤ 61 ∧ c.u 28 2 ≤ 8191) →
    Answers (exec (.floodConfig d p) s) specFloodConfig d p s [.mbx, .evt, .mlad] (.ok) fun u => u.mlad = { s.mlad with gw := BitVec.ofNat 32 (c.u 16 4), netId := BitVec.ofNat 16 (c.u 20 2), relay := bit (c.u 22 1) 0, unkHost := bit (c.u 22 1) 1, udp6 := bit (c.u 22 1) 2, beaconEn := bit (c.u 22 1) 3, suppress := c.u 23 1, jitter := c.u 24 1, seenS := c.u 25 1, beaconS := c.u 26 1, hostRing := c.u 27 1, groupKs := c.u 28 2, port := c.u 30 2, srcIp := c.bytes 32 16, dstIp := c.bytes 48 16 }) ∧
  (∀ (s : State) (d : Doorbell) (p : List Byte), Ready specFloodConfig d p s → let c := cmdOf specFloodConfig d p s
    (c.u 23 1 = 1) →
    Answers (exec (.floodConfig d p) s) specFloodConfig d p s [.mbx, .evt, .mlad] (eArg) fun u => u.mlad = s.mlad) ∧
  (∀ (s : State) (d : Doorbell) (p : List Byte), Ready specHeldStatus d p s → let c := cmdOf specHeldStatus d p s
    (c.u 18 1 = 1) →
    Answers (exec (.heldStatus d p) s) specHeldStatus d p s [.mbx, .evt, .mlad] (.ok (le 4 s.mlad.store.length ++ le 4 (storeCap s) ++ ctrBytes s.mlad.ctr)) fun u => u.mlad = { s.mlad with ctr := if bit (c.u 19 1) 0 then zeroed s.mlad.ctr else s.mlad.ctr }) ∧
  (∀ (s : State) (d : Doorbell) (p : List Byte), Ready specHeldStatus d p s → let c := cmdOf specHeldStatus d p s
    (c.u 18 1 = 0 ∧ c.u 16 2 ≤ 8191 ∧ getNode s (c.u 16 2) = none) →
    Answers (exec (.heldStatus d p) s) specHeldStatus d p s [.mbx, .evt, .mlad] (.err 0x0806) fun u => u.mlad = s.mlad)

/-- A ready task of a started kernel takes the lowest free core it may use: the core starts at the kernel's entry with the task's number, and the flags are consumed. A dispatch that returns frees its core and clears the kernel's failures; one that ends at its budget frees it as an overrun and counts as a failure. KERNEL_LOAD is accepted and its end stores the image or names the check that failed; KERNEL_START and KERNEL_STOP start and stop a kernel; TASK_CONFIG writes or deletes a task; COL_OBSERVE_SET and the trace commands set up and empty the trace; MASSIF_STATS answers the counters and clears them where asked. -/
def Obligations.ColRowsTakeEffect : Prop :=
  (∀ (s : State) (n c : Nat) (t : Task) (x : Kernel) (k : Core), (s.modes.mode = 5 ∧ domOn s 4 = true ∧ s.col.observe = 0 ∧ s.col.tasks = [(n, t)] ∧ t.binds = [] ∧ startable s n t = true ∧ freeFor s t = some c ∧ s.col.cores[c]? = some k ∧ Tab.get? s.col.kernels t.kernel = some x) →
    Does (exec .colDispatch s) s [.boot, .host, .evt, .clk, .col, .out] fun u => (getCore u c).run = some { task := n, kernel := t.kernel, flags := t.taken, startNs := nowNs s, beat := curBeat s } ∧ (getCore u c).pc = BitVec.ofNat 32 (0x80000000 + x.entry) ∧ (getCore u c).dr 2 = BitVec.ofNat 32 n ∧ (getCore u c).dr 3 = BitVec.ofNat 32 c ∧ (getTask u n).map (·.flags) = some (t.flags &&& ~~~t.taken)) ∧
  (∀ (s : State), (s.col.tasks = []) →
    Does (exec .colDispatch s) s [.boot, .host, .evt, .clk, .col, .out] fun u => u.col.cores = s.col.cores ∧ u.col.tasks = []) ∧
  (∀ (s : State) (core : Fin 32) (d : Disp) (x : Kernel), ((getCore s core.val).run = some d ∧ d.returned = true ∧ (getCore s core.val).dr 0 = 0 ∧ d.pkt = none ∧ Tab.get? s.col.kernels d.kernel = some x ∧ s.col.observe = 0) →
    Does (exec (.kernelReturn core) s) s [.boot, .host, .evt, .clk, .air, .fwd, .tm, .col, .dram, .ring, .drawn, .out] fun u => (getCore u core.val).run = none ∧ (Tab.get? u.col.kernels d.kernel).map (·.fails) = some 0 ∧ u.col.ctr = s.col.ctr) ∧
  (∀ (s : State) (core : Fin 32) (d : Disp), ((getCore s core.val).run = some d ∧ d.returned = false) →
    Does (exec (.kernelReturn core) s) s [.boot, .host, .evt, .clk, .air, .fwd, .tm, .col, .dram, .ring, .drawn, .out] fun u => u = s) ∧
  (∀ (s : State) (core : Fin 32) (d : Disp) (x : Kernel), ((getCore s core.val).run = some d ∧ d.pkt = none ∧ Tab.get? s.col.kernels d.kernel = some x ∧ x.fails + 1 < x.limit ∧ s.col.observe = 0) →
    Does (exec (.kernelBudgetExpiry core) s) s [.boot, .host, .evt, .cad, .clk, .air, .fwd, .tm, .col, .dram, .ring, .drawn, .out] fun u => (getCore u core.val).run = none ∧ (Tab.get? u.col.kernels d.kernel).map (·.fails) = some (x.fails + 1) ∧ u.col.ctr = bump s.col.ctr 1) ∧
  (∀ (s : State) (core : Fin 32), ((getCore s core.val).run = none) →
    Does (exec (.kernelBudgetExpiry core) s) s [.boot, .host, .evt, .cad, .clk, .air, .fwd, .tm, .col, .dram, .ring, .drawn, .out] fun u => u = s) ∧
  (∀ (s : State) (d : Doorbell) (p : List Byte), Ready specKernelLoad d p s → pendingOf s d.mb.val < 32 → let c := cmdOf specKernelLoad d p s
    (c.u 16 2 ≤ 63 ∧ c.u 20 8 % 8 = 0 ∧ kernelStarted s (c.u 16 2) = false ∧ dramReady s = true) →
    Accepts (exec (.kernelLoad d p) s) specKernelLoad d p s [.mbx, .evt] fun u => u.col = s.col) ∧
  (∀ (s : State) (d : Doorbell) (p : List Byte), Ready specKernelLoad d p s → let c := cmdOf specKernelLoad d p s
    (c.u 16 2 ≤ 63 ∧ c.u 20 8 % 8 = 0 ∧ kernelStarted s (c.u 16 2) = true) →
    Answers (exec (.kernelLoad d p) s) specKernelLoad d p s [.mbx, .evt] (eState) fun u => u.col = s.col) ∧
  (∀ (s : State) (image : List Byte) (l : LongCmd), (findLong s 0x0D01 = some l ∧ imageBad (pad (l.cmd.u 28 4) image) = none) →
    Does (exec (.kernelLoadDone image) s) s [.boot, .mbx, .host, .evt, .clk, .col, .ring, .out] fun u => Tab.get? u.col.kernels (l.cmd.u 16 2) = some { code := (pad (l.cmd.u 28 4) image).drop 64, localNeed := fld (pad (l.cmd.u 28 4) image) 12 4, sharedNeed := fld (pad (l.cmd.u 28 4) image) 16 4, entry := fld (pad (l.cmd.u 28 4) image) 20 4, crc := BitVec.ofNat 32 (fld (pad (l.cmd.u 28 4) image) 24 4) } ∧ u.mbx.longs = s.mbx.longs.erase l) ∧
  (∀ (s : State) (image : List Byte) (l : LongCmd), (findLong s 0x0D01 = some l ∧ (imageBad (pad (l.cmd.u 28 4) image)).isSome = true) →
    Does (exec (.kernelLoadDone image) s) s [.boot, .mbx, .host, .evt, .clk, .col, .ring, .out] fun u => u.col = s.col ∧ u.mbx.longs = s.mbx.longs.erase l) ∧
  (∀ (s : State) (d : Doorbell) (p : List Byte) (n : Nat) (x : Kernel), Ready specKernelStart d p s → let c := cmdOf specKernelStart d p s
    (s.col.kernels = [(n, x)] ∧ n = c.u 16 2 ∧ n ≤ 63 ∧ x.started = false ∧ 1 ≤ c.u 19 1 ∧ c.u 20 4 ≤ 1024 ∧ c.u 20 4 % 16 = 0 ∧ x.sharedNeed ≤ c.u 20 4) →
    Answers (exec (.kernelStart d p) s) specKernelStart d p s [.mbx, .evt, .col] (.ok) fun u => Tab.get? u.col.kernels n = some { x with started := true, retain := bit (c.u 18 1) 0, limit := c.u 19 1, sharedKb := c.u 20 4, shared := [], fails := 0 }) ∧
  (∀ (s : State) (d : Doorbell) (p : List Byte), Ready specKernelStart d p s → let c := cmdOf specKernelStart d p s
    (c.u 16 2 ≤ 63 ∧ 1 ≤ c.u 19 1 ∧ c.u 20 4 ≤ 1024 ∧ c.u 20 4 % 16 = 0 ∧ Tab.get? s.col.kernels (c.u 16 2) = none) →
    Answers (exec (.kernelStart d p) s) specKernelStart d p s [.mbx, .evt, .col] (eState) fun u => u.col = s.col) ∧
  (∀ (s : State) (d : Doorbell) (p : List Byte), Ready specKernelStop d p s → let c := cmdOf specKernelStop d p s
    (c.u 16 2 ≤ 63 ∧ kernelStarted s (c.u 16 2) = true) →
    Answers (exec (.kernelStop d p) s) specKernelStop d p s [.mbx, .evt, .col] (.ok) fun u => kernelStarted u (c.u 16 2) = false ∧ u.col.tasks = s.col.tasks.map (fun e => if e.2.kernel = c.u 16 2 then (e.1, { e.2 with queue := [] }) else e)) ∧
  (∀ (s : State) (d : Doorbell) (p : List Byte), Ready specKernelStop d p s → let c := cmdOf specKernelStop d p s
    (c.u 16 2 ≤ 63 ∧ kernelStarted s (c.u 16 2) = false) →
    Answers (exec (.kernelStop d p) s) specKernelStop d p s [.mbx, .evt, .col] (eState) fun u => u.col = s.col) ∧
  (∀ (s : State) (d : Doorbell) (p : List Byte), Ready specTaskConfig d p s → let c := cmdOf specTaskConfig d p s
    (16 ≤ c.u 16 2 ∧ c.u 16 2 ≤ 1023 ∧ bit (c.u 18 1) 0 = false) →
    Answers (exec (.taskConfig d p) s) specTaskConfig d p s [.mbx, .evt, .col] (.ok) fun u => u.col = { s.col with tasks := Tab.erase s.col.tasks (c.u 16 2) }) ∧
  (∀ (s : State) (d : Doorbell) (p : List Byte), Ready specTaskConfig d p s → let c := cmdOf specTaskConfig d p s
    (s.col.kernels = [] ∧ 16 ≤ c.u 16 2 ∧ c.u 16 2 ≤ 1023 ∧ bit (c.u 18 1) 0 = true ∧ c.u 19 1 ≤ 6 ∧ c.u 20 2 ≤ 63 ∧ c.u 22 1 ≤ 12 ∧ 1 ≤ c.u 23 1 ∧ c.u 23 1 ≤ 32 ∧ 1 ≤ c.u 36 2 ∧ c.u 36 2 ≤ 10000 ∧ 16 ≤ c.u 38 2 ∧ c.u 38 2 ≤ 4096 ∧ taskBinds c = [] ∧ getTask s (c.u 16 2) = none) →
    Answers (exec (.taskConfig d p) s) specTaskConfig d p s [.mbx, .evt, .col] (.ok) fun u => getTask u (c.u 16 2) = some { kernel := c.u 20 2, all := bit (c.u 18 1) 1, ordered := bit (c.u 18 1) 2, prio := c.u 19 1, orderBits := c.u 22 1, parallel := c.u 23 1, coreMask := BitVec.ofNat 32 (c.u 24 4), waitMask := BitVec.ofNat 64 (c.u 28 8), budget := c.u 36 2, qdepth := c.u 38 2, readyNs := nowNs s }) ∧
  (∀ (s : State) (d : Doorbell) (p : List Byte), Ready specColObserveSet d p s → let c := cmdOf specColObserveSet d p s
    (c.u 16 1 ≤ 2 ∧ c.u 16 1 ≠ s.col.observe) →
    Answers (exec (.colObserveSet d p) s) specColObserveSet d p s [.mbx, .evt, .col] (.ok) fun u => u.col = { s.col with observe := c.u 16 1, wrap := bit (c.u 17 1) 0, trace := [], wr := 0, full := false }) ∧
  (∀ (s : State) (d : Doorbell) (p : List Byte), Ready specColObserveSet d p s → let c := cmdOf specColObserveSet d p s
    (c.u 16 1 ≤ 2 ∧ c.u 16 1 = s.col.observe) →
    Answers (exec (.colObserveSet d p) s) specColObserveSet d p s [.mbx, .evt, .col] (.ok) fun u => u.col = { s.col with wrap := bit (c.u 17 1) 0 }) ∧
  (∀ (s : State) (d : Doorbell) (p : List Byte), Ready specMassifStats d p s → let c := cmdOf specMassifStats d p s
    (bit (c.u 16 1) 0 = true) →
    Answers (exec (.massifStats d p) s) specMassifStats d p s [.mbx, .evt, .col] (.ok (ctrBytes s.col.ctr ++ le 4 s.col.rob.length ++ ((List.range 32).flatMap fun i => le 4 (min 0xFFFFFFFF ((getCore s i).busyNs / 1000))))) fun u => u.col = { s.col with ctr := zeroed s.col.ctr, cores := s.col.cores.map (fun k => { k with busyNs := 0 }) }) ∧
  (∀ (s : State) (d : Doorbell) (p : List Byte), Ready specMassifStats d p s → let c := cmdOf specMassifStats d p s
    (bit (c.u 16 1) 0 = false) →
    Answers (exec (.massifStats d p) s) specMassifStats d p s [.mbx, .evt, .col] (.ok (ctrBytes s.col.ctr ++ le 4 s.col.rob.length ++ ((List.range 32).flatMap fun i => le 4 (min 0xFFFFFFFF ((getCore s i).busyNs / 1000))))) fun u => u.col = s.col) ∧
  (∀ (s : State), (s.host.link = true) →
    Does (exec .traceRestart s) s [.col] fun u => u.col = { s.col with trace := [], wr := 0, full := false }) ∧
  (∀ (s : State) (on : Bool), (s.host.link = true) →
    Does (exec (.traceFreeze on) s) s [.col] fun u => u.col = { s.col with freeze := on }) ∧
  (∀ (s : State), (s.host.link = true) →
    Does (exec .traceLostRead s) s [.col] fun u => u.col = { s.col with lost := 0 })

/-- DRAM_CONFIG stores a configuration and loads its default map, DRAM_MAP_SET stores a map, DRAM_TRAIN is accepted once configured and its end leaves the DRAM ready and answers its capacity. DRAM_STATUS answers the state and counters, FREEZE_READ the record's bytes. The zeroing's end sets the watermark; a refresh in SAFE or frozen is issued; MR4 polls set the rate; ZQ calibrations and drift corrections are counted, and one of more than 0.25 UI is not applied; a credit window renews the credits; a clean read takes its credit, a corrected one is counted; an uncorrectable read, a command parity error and a replayed write error freeze the controller with a record of the cause; self-refresh ends ready. -/
def Obligations.DramRowsTakeEffect : Prop :=
  (∀ (s : State) (d : Doorbell) (p : List Byte), Ready specDramConfig d p s → let c := cmdOf specDramConfig d p s
    (s.dram.st ≤ 2 ∧ [(1, 8), (2, 8), (1, 16)].contains (c.u 16 1, c.u 17 1) = true ∧ c.u 18 1 ≤ 1 ∧ c.u 19 1 ≤ 1 ∧ 50 ≤ c.u 20 2 ∧ c.u 20 2 ≤ 2000 ∧ 1 ≤ c.u 22 2 ∧ c.u 22 2 ≤ 168 ∧ 1 ≤ c.u 24 2) →
    Answers (exec (.dramConfig d p) s) specDramConfig d p s [.mbx, .evt, .dram] (.ok) fun u => u.dram = { s.dram with st := 1, ranks := c.u 16 1, density := c.u 17 1, refMode := c.u 18 1, fgr := c.u 19 1, openIdle := c.u 20 2, scrubH := c.u 22 2, ceThr := c.u 24 2, map := defaultMap { s.dram with st := 1, ranks := c.u 16 1, density := c.u 17 1, refMode := c.u 18 1, fgr := c.u 19 1, openIdle := c.u 20 2, scrubH := c.u 22 2, ceThr := c.u 24 2 } }) ∧
  (∀ (s : State) (d : Doorbell) (p : List Byte), Ready specDramConfig d p s → (2 < s.dram.st) →
    Answers (exec (.dramConfig d p) s) specDramConfig d p s [.mbx, .evt, .dram] (eState) fun u => u.dram = s.dram) ∧
  (∀ (s : State) (d : Doorbell) (p : List Byte), Ready specDramTrain d p s → pendingOf s d.mb.val < 32 → (s.dram.st = 1) →
    Accepts (exec (.dramTrain d p) s) specDramTrain d p s [.outs, .mbx, .evt, .dram] fun u => u.dram = { s.dram with st := 2, trainNs := nowNs s, replay := [] }) ∧
  (∀ (s : State) (d : Doorbell) (p : List Byte), Ready specDramTrain d p s → (s.dram.st = 0 ∨ s.dram.st = 3) →
    Answers (exec (.dramTrain d p) s) specDramTrain d p s [.outs, .mbx, .evt, .dram] (eState) fun u => u.dram = s.dram) ∧
  (∀ (s : State) (res : TrainResult) (ms : Nat) (l : LongCmd), (s.dram.st = 2 ∧ res = .ok ms ∧ ms ≤ 580 ∧ findLong s 0x0E02 = some l) →
    Does (exec (.dramTrainDone res) s) s [.boot, .mbx, .host, .evt, .clk, .dram, .ring, .out] fun u => u.dram = { s.dram with st := 3, watermark := 0x46800000, zeroed := false, debt := [], rows := [], replay := [], lanes := [] } ∧ u.mbx.longs = s.mbx.longs.erase l) ∧
  (∀ (s : State) (res : TrainResult) (ch sc rank step : Nat) (l : LongCmd), (s.dram.st = 2 ∧ res = .failed ch sc rank step ∧ 1 ≤ step ∧ step ≤ 8 ∧ ch < 2 ∧ sc < 2 ∧ rank < 2 ∧ findLong s 0x0E02 = some l) →
    Does (exec (.dramTrainDone res) s) s [.boot, .mbx, .host, .evt, .clk, .dram, .ring, .out] fun u => u.dram = { s.dram with st := 1 } ∧ u.mbx.longs = s.mbx.longs.erase l) ∧
  (∀ (s : State) (d : Doorbell) (p : List Byte), Ready specDramMapSet d p s → let c := cmdOf specDramMapSet d p s
    (s.dram.st = 1 ∧ bit (c.u 16 1) 0 = true) →
    Answers (exec (.dramMapSet d p) s) specDramMapSet d p s [.mbx, .evt, .dram] (.ok) fun u => u.dram = { s.dram with map := defaultMap s.dram }) ∧
  (∀ (s : State) (d : Doorbell) (p : List Byte), Ready specDramMapSet d p s → let c := cmdOf specDramMapSet d p s
    (s.dram.st = 1 ∧ bit (c.u 16 1) 0 = false ∧ badTarget s.dram (cmdMap c) = none) →
    Answers (exec (.dramMapSet d p) s) specDramMapSet d p s [.mbx, .evt, .dram] (.ok) fun u => u.dram = { s.dram with map := cmdMap c }) ∧
  (∀ (s : State) (d : Doorbell) (p : List Byte), Ready specDramMapSet d p s → let c := cmdOf specDramMapSet d p s
    (s.dram.st = 1 ∧ bit (c.u 16 1) 0 = false ∧ badTarget s.dram (cmdMap c) = some 3) →
    Answers (exec (.dramMapSet d p) s) specDramMapSet d p s [.mbx, .evt, .dram] (.err 0x0E03 [3]) fun u => u.dram = s.dram) ∧
  (∀ (s : State) (d : Doorbell) (p : List Byte), Ready specDramStatus d p s → let c := cmdOf specDramStatus d p s
    Answers (exec (.dramStatus d p) s) specDramStatus d p s [.mbx, .evt, .dram] (.ok (le 1 (dramState s) ++ le 1 (b2n s.dram.zeroed) ++ le 1 s.dram.refMult ++ [0] ++ le 4 (if s.dram.st = 0 then 0 else dramBytes s.dram / 2 ^ 20) ++ ctrBytes s.dram.ctr ++ (List.range 6).flatMap (fun i => le 4 (classMbps s i)) ++ (List.range 80).flatMap (fun i => le 2 (Tab.getD s.dram.ce i 0)))) fun u => u.dram = { s.dram with ctr := if bit (c.u 16 1) 0 then zeroed s.dram.ctr else s.dram.ctr, ce := if bit (c.u 16 1) 0 then [] else s.dram.ce }) ∧
  (∀ (s : State) (d : Doorbell) (p : List Byte), Ready specFreezeRead d p s → let c := cmdOf specFreezeRead d p s
    (c.u 16 2 % 16 = 0 ∧ c.u 18 2 % 16 = 0 ∧ 16 ≤ c.u 18 2 ∧ c.u 18 2 ≤ 480 ∧ c.u 16 2 + c.u 18 2 ≤ 4096) →
    Answers (exec (.freezeRead d p) s) specFreezeRead d p s [.mbx, .evt] (.ok (memRead s.dram.freeze (c.u 16 2) (c.u 18 2))) fun u => u.dram = s.dram) ∧
  (∀ (s : State) (d : Doorbell) (p : List Byte), Ready specFreezeRead d p s → let c := cmdOf specFreezeRead d p s
    (c.u 16 2 % 16 ≠ 0) →
    Answers (exec (.freezeRead d p) s) specFreezeRead d p s [.mbx, .evt] (eArg) fun u => u.dram = s.dram) ∧
  (∀ (s : State), (dramReady s = true ∧ s.dram.zeroed = false) →
    Does (exec .zeroingDone s) s [.dram] fun u => u.dram = { s.dram with zeroed := true, watermark := dramBytes s.dram }) ∧
  (∀ (s : State) (ch sc rank : Fin 2), (rank.val < s.dram.ranks ∧ domOn s 5 = true ∧ s.dram.st = 5 ∧ s.dram.refMode = 0) →
    Does (exec (.refreshDue ch sc rank) s) s [.dram, .drawn, .out] fun u => u.out = s.out ++ [Emit.ddr ch.val 8] ∧ u.dram = s.dram) ∧
  (∀ (s : State) (ch sc rank : Fin 2), (rank.val < s.dram.ranks ∧ domOn s 5 = true ∧ s.dram.st = 3 ∧ s.modes.mode = 5 ∧ Tab.getD s.dram.debt (rankIdx ch.val sc.val rank.val) 0 ≤ 4) →
    Does (exec (.refreshDue ch sc rank) s) s [.dram, .drawn, .out] fun u => Tab.getD u.dram.debt (rankIdx ch.val sc.val rank.val) 0 ≤ 4) ∧
  (∀ (s : State) (mult : Nat) (hot : Option (Nat × Nat × Nat × Nat)), (dramReady s = true ∧ (mult = 1 ∨ mult = 2 ∨ mult = 4) ∧ hot = none) →
    Does (exec (.mr4Poll mult hot) s) s [.boot, .host, .evt, .clk, .dram, .out] fun u => u.dram.refMult = mult) ∧
  (∀ (s : State) (mult : Nat) (hot : Option (Nat × Nat × Nat × Nat)), (dramReady s = false) →
    Does (exec (.mr4Poll mult hot) s) s [.boot, .host, .evt, .clk, .dram, .out] fun u => u = s) ∧
  (∀ (s : State) (ch sc rank : Fin 2) (limit : Option Nat), (dramReady s = true ∧ rank.val < s.dram.ranks ∧ limit = none) →
    Does (exec (.zqCalDue ch sc rank limit) s) s [.boot, .host, .evt, .clk, .dram, .out] fun u => u.dram.ctr = bump s.dram.ctr 4 ∧ u.out = s.out ++ [Emit.ddr ch.val 14]) ∧
  (∀ (s : State) (ch sc rank : Fin 2) (lane : Nat) (drift : Int), (dramReady s = true ∧ rank.val < s.dram.ranks ∧ lane < 40 ∧ 16 < drift.natAbs ∧ (Tab.getD s.dram.lanes (40 * rankIdx ch.val sc.val rank.val + lane) 0 + drift).natAbs ≤ 256) →
    Does (exec (.dqsTrackDue ch sc rank lane drift) s) s [.boot, .host, .evt, .clk, .dram, .out] fun u => Tab.getD u.dram.lanes (40 * rankIdx ch.val sc.val rank.val + lane) 0 = Tab.getD s.dram.lanes (40 * rankIdx ch.val sc.val rank.val + lane) 0 + drift ∧ u.dram.ctr = bump s.dram.ctr 5) ∧
  (∀ (s : State) (ch sc rank : Fin 2) (lane : Nat) (drift : Int), (dramReady s = true ∧ rank.val < s.dram.ranks ∧ lane < 40 ∧ 16 < drift.natAbs ∧ 256 < (Tab.getD s.dram.lanes (40 * rankIdx ch.val sc.val rank.val + lane) 0 + drift).natAbs) →
    Does (exec (.dqsTrackDue ch sc rank lane drift) s) s [.boot, .host, .evt, .clk, .dram, .out] fun u => u.dram.lanes = s.dram.lanes ∧ u.dram.ctr = s.dram.ctr) ∧
  (∀ (s : State), (dramReady s = true ∧ s.dram.st = 3 ∧ domOn s 5 = true ∧ s.dram.zeroed = true) →
    Does (exec .dramCreditWindow s) s [.dram, .drawn] fun u => u.dram.credit = [2000, 8000, 14000, 12000, 20000, 4000] ∧ u.dram.served = List.replicate 6 0 ∧ u.dram.wb ≤ s.dram.wb - min s.dram.wb 20000) ∧
  (∀ (s : State) (addr cls : Nat) (scrub : Bool) (res : EccResult), (dramReady s = true ∧ s.dram.st = 3 ∧ cls ≤ 5 ∧ regionOk s.dram cls (addr / 64 * 64) = true ∧ scrub = false ∧ res = .clean) →
    Does (exec (.dramReadComplete addr cls scrub res) s) s [.outs, .boot, .mbx, .host, .evt, .modes, .flt, .cad, .clk, .fe, .cal, .air, .nb, .mlad, .tm, .col, .dram, .ring, .drawn, .out] fun u => u.dram.credit = updAt s.dram.credit cls (· - 64) ∧ u.dram.served = updAt s.dram.served cls (· + 64) ∧ u.dram.st = 3) ∧
  (∀ (s : State) (addr cls : Nat) (scrub : Bool) (res : EccResult) (dev : Nat), (dramReady s = true ∧ s.dram.st = 3 ∧ cls ≤ 5 ∧ regionOk s.dram cls (addr / 64 * 64) = true ∧ scrub = false ∧ res = .corrected dev ∧ dev < 10 ∧ s.dram.ctr = List.replicate 10 0) →
    Does (exec (.dramReadComplete addr cls scrub res) s) s [.outs, .boot, .mbx, .host, .evt, .modes, .flt, .cad, .clk, .fe, .cal, .air, .nb, .mlad, .tm, .col, .dram, .ring, .drawn, .out] fun u => ctrAt u.dram.ctr 0 = 1 ∧ ctrAt u.dram.ctr 1 = 0 ∧ u.dram.st = 3 ∧ Tab.getD u.dram.ce (devIdx (dramLoc s.dram.map (addr / 64 * 64)).ch (dramLoc s.dram.map (addr / 64 * 64)).sc (dramLoc s.dram.map (addr / 64 * 64)).rank dev) 0 = satAdd 16 (Tab.getD s.dram.ce (devIdx (dramLoc s.dram.map (addr / 64 * 64)).ch (dramLoc s.dram.map (addr / 64 * 64)).sc (dramLoc s.dram.map (addr / 64 * 64)).rank dev) 0) 1) ∧
  (∀ (s : State) (addr cls : Nat) (scrub : Bool) (res : EccResult) (dev : Nat) (synd : List Byte), (dramReady s = true ∧ s.dram.st = 3 ∧ cls ≤ 5 ∧ regionOk s.dram cls (addr / 64 * 64) = true ∧ scrub = false ∧ res = .uncorrectable dev synd) →
    Does (exec (.dramReadComplete addr cls scrub res) s) s [.outs, .boot, .mbx, .host, .evt, .modes, .flt, .cad, .clk, .fe, .cal, .air, .nb, .mlad, .tm, .col, .dram, .ring, .drawn, .out] fun u => u.dram.st = 5 ∧ memFld u.dram.freeze 0 1 = 1 ∧ memFld u.dram.freeze 1 1 = 1 ∧ memFld u.dram.freeze 16 8 = addr / 64 * 64 % 2 ^ 64 ∧ memFld u.dram.freeze 14 1 = cls) ∧
  (∀ (s : State) (ch sc rank : Fin 2) (addr cls : Nat), (dramReady s = true ∧ s.dram.st = 3 ∧ cls ≤ 5) →
    Does (exec (.caParityError ch sc rank addr cls) s) s [.outs, .boot, .mbx, .host, .evt, .modes, .flt, .cad, .clk, .fe, .cal, .air, .nb, .mlad, .tm, .col, .dram, .ring, .drawn, .out] fun u => u.dram.st = 5 ∧ memFld u.dram.freeze 0 1 = 1 ∧ memFld u.dram.freeze 1 1 = 2 ∧ memFld u.dram.freeze 2 1 = ch.val ∧ memFld u.dram.freeze 3 1 = sc.val ∧ memFld u.dram.freeze 4 1 = rank.val) ∧
  (∀ (s : State) (ch sc rank : Fin 2) (addr cls : Nat), (s.dram.st = 1) →
    Does (exec (.caParityError ch sc rank addr cls) s) s [.outs, .boot, .mbx, .host, .evt, .modes, .flt, .cad, .clk, .fe, .cal, .air, .nb, .mlad, .tm, .col, .dram, .ring, .drawn, .out] fun u => u = s) ∧
  (∀ (s : State) (addr cls : Nat) (replayed : Bool), (dramReady s = true ∧ s.dram.st = 3 ∧ cls ≤ 5 ∧ regionOk s.dram cls (addr / 64 * 64) = true ∧ replayed = false ∧ s.dram.replay = []) →
    Does (exec (.writeCrcAlert addr cls replayed) s) s [.outs, .boot, .mbx, .host, .evt, .modes, .flt, .cad, .clk, .fe, .cal, .air, .nb, .mlad, .tm, .col, .dram, .ring, .drawn, .out] fun u => u.dram.st = 3 ∧ u.dram.replay = [addr / 64 * 64] ∧ u.dram.ctr = bump s.dram.ctr 2) ∧
  (∀ (s : State) (addr cls : Nat) (replayed : Bool), (dramReady s = true ∧ s.dram.st = 3 ∧ cls ≤ 5 ∧ regionOk s.dram cls (addr / 64 * 64) = true ∧ replayed = true ∧ s.dram.replay = [addr / 64 * 64]) →
    Does (exec (.writeCrcAlert addr cls replayed) s) s [.outs, .boot, .mbx, .host, .evt, .modes, .flt, .cad, .clk, .fe, .cal, .air, .nb, .mlad, .tm, .col, .dram, .ring, .drawn, .out] fun u => u.dram.st = 5 ∧ memFld u.dram.freeze 0 1 = 1 ∧ memFld u.dram.freeze 1 1 = 3) ∧
  (∀ (s : State), (s.dram.st = 4 ∧ domOn s 5 = true ∧ s.modes.mode ≠ 7) →
    Does (exec .selfRefreshExitDone s) s [.fwd, .dram, .out] fun u => u.dram.st = 3 ∧ u.fwd.sweeping = false) ∧
  (∀ (s : State), (s.dram.st = 3) →
    Does (exec .selfRefreshExitDone s) s [.fwd, .dram, .out] fun u => u = s)

/-- After the switch settles the transmitters are on; a port that comes up while inserting inserts the ring, with the device strapped master acting; the wait's end without a link releases it, and the retry inserts again in WARM or marks it due. A port that goes down counts its lost frames. A frame for another device goes on by the opposite port with one hop less, or is stripped; a bad one is counted. The lowest class waits first. A beacon names the acting master; a claim is noted; a COMMAND of the master is held and another's is refused; a response completes the command it answers; a TABLE_UPDATE sets the next SEQ expected and its copy is dropped; a summary lands in the views window. Rendezvous windows open, count hits and misses and widen. RING_CONFIG, RENDEZVOUS_SET and RING_TABLE_SYNC take effect, and are refused to a device strapped 11; RING_STATUS answers and clears its counters. -/
def Obligations.RingRowsTakeEffect : Prop :=
  (∀ (s : State), (s.ring.st = 1 ∧ s.ring.txOn = false) →
    Does (exec .ringSwitchSettle s) s [.outs, .cad, .clk, .ring] fun u => u.ring = { s.ring with txOn := true }) ∧
  (∀ (s : State) (port : Fin 2) (delay us : Nat), (s.ring.txOn = true ∧ s.ring.st = 1 ∧ s.outs.ringTx = .ridgeline ∧ (ringPort s port.val).up = false) →
    Does (exec (.ringPortUp port delay us) s) s [.outs, .boot, .host, .evt, .cad, .clk, .ring, .out] fun u => u.ring.st = 2 ∧ u.ring.acting = decide (s.pwr.ringRole = 1) ∧ u.ring.master = (if s.pwr.ringRole = 1 then some (ringId s) else none) ∧ u.ring.ports = updAt s.ring.ports port.val (fun x => { x with up := true, delay := delay, vigil := false, lane0 := false })) ∧
  (∀ (s : State) (port : Fin 2) (delay us : Nat), (s.ring.st = 0) →
    Does (exec (.ringPortUp port delay us) s) s [.outs, .boot, .host, .evt, .cad, .clk, .ring, .out] fun u => u = s) ∧
  (∀ (s : State) (port : Fin 2) (lost : Nat) (peerVigil : Bool), ((ringPort s port.val).up = true) →
    Does (exec (.ringPortDown port lost peerVigil) s) s [.boot, .host, .evt, .clk, .ring, .out] fun u => u.ring.ports = updAt s.ring.ports port.val (fun x => { x with up := false, vigil := peerVigil }) ∧ u.ring.ctr = bump s.ring.ctr 1 lost) ∧
  (∀ (s : State), (s.ring.st = 1 ∧ s.ring.txOn = true) →
    Does (exec .ringLinkWaitExpiry s) s [.outs, .boot, .host, .evt, .cad, .clk, .ring, .out] fun u => u.ring.st = 3 ∧ u.ring.txOn = false ∧ u.outs.bypRing = false ∧ u.ring.retryFrom.isSome = true) ∧
  (∀ (s : State) (t : Nat), (s.ring.retryFrom = some t ∧ s.ring.st = 3 ∧ s.ring.enable = true ∧ s.ring.blocked = false ∧ s.modes.mode = 4) →
    Does (exec .ringRetryExpiry s) s [.outs, .cad, .clk, .ring] fun u => u.ring.st = 1 ∧ u.ring.retryFrom = none ∧ u.outs.bypRing = true) ∧
  (∀ (s : State) (t : Nat), (s.ring.retryFrom = some t ∧ s.ring.st = 3 ∧ s.ring.enable = true ∧ s.ring.blocked = false ∧ s.modes.mode = 3) →
    Does (exec .ringRetryExpiry s) s [.outs, .cad, .clk, .ring] fun u => u.ring = { s.ring with due := true, retryFrom := none }) ∧
  (∀ (s : State) (port : Fin 2) (frame : List Byte), (ringLive s port.val = true ∧ 1 ≤ rfType frame ∧ rfType frame ≤ 8 ∧ rfDst frame ≠ ringId s ∧ rfDst frame ≠ 0x0F ∧ rfOrigin frame ≠ ringId s ∧ 1 < rfHops frame ∧ rfType frame ≠ 1 ∧ rfType frame ≠ 7 ∧ rfType frame ≠ 8) →
    Does (exec (.ringTransitFrame port frame) s) s [.ring] fun u => u.ring = { s.ring with ports := updAt s.ring.ports (1 - port.val) (fun p => { p with wait := p.wait ++ [(2, patch frame 3 (be 1 (rfHops frame - 1)))] }) }) ∧
  (∀ (s : State) (port : Fin 2) (frame : List Byte), (ringLive s port.val = true ∧ 1 ≤ rfType frame ∧ rfType frame ≤ 8 ∧ rfDst frame ≠ ringId s ∧ rfDst frame ≠ 0x0F ∧ rfHops frame ≤ 1) →
    Does (exec (.ringTransitFrame port frame) s) s [.ring] fun u => u.ring = { s.ring with ctr := bump s.ring.ctr 2 }) ∧
  (∀ (s : State) (port : Fin 2) (frame : List Byte) (crcOk : Bool), (ringLive s port.val = true ∧ (crcOk = false ∨ rfType frame = 0 ∨ 8 < rfType frame)) →
    Does (exec (.ringBadMsgType port frame crcOk) s) s [.ring] fun u => u.ring = { s.ring with ctr := bump s.ring.ctr 1 }) ∧
  (∀ (s : State) (port : Fin 2) (x : RPort) (f g : List Byte), (ringLive s port.val = true ∧ s.ring.ports[port.val]? = some x ∧ x.wait = [(2, f), (1, g)]) →
    Does (exec (.ringPortTxStart port) s) s [.boot, .host, .evt, .clk, .tm, .ring, .out] fun u => u.out = s.out ++ [Emit.ring port.val g] ∧ u.ring.ports = updAt s.ring.ports port.val (fun x => { x with wait := [(2, f)] })) ∧
  (∀ (s : State) (port : Fin 2) (frame : List Byte), (ringLive s port.val = true ∧ rfType frame = 2 ∧ rfDst frame ≠ ringId s ∧ rfDst frame ≠ 0x0F ∧ rfOrigin frame ≠ ringId s ∧ 1 < rfHops frame) →
    Does (exec (.ringDataRx port frame) s) s [.boot, .mbx, .host, .evt, .modes, .clk, .air, .nb, .mlad, .cls, .fwd, .tm, .cipher, .col, .dram, .ring, .drawn, .out] fun u => u.ring = { s.ring with ports := updAt s.ring.ports (1 - port.val) (fun p => { p with wait := p.wait ++ [(2, patch frame 3 (be 1 (rfHops frame - 1)))] }) } ∧ u.fwd = s.fwd) ∧
  (∀ (s : State) (port : Fin 2) (frame : List Byte), (ringLive s port.val = true ∧ rfType frame = 2 ∧ rfDst frame = ringId s ∧ rfOrigin frame ≠ ringId s ∧ pathOn s = false) →
    Does (exec (.ringDataRx port frame) s) s [.boot, .mbx, .host, .evt, .modes, .clk, .air, .nb, .mlad, .cls, .fwd, .tm, .cipher, .col, .dram, .ring, .drawn, .out] fun u => u = s) ∧
  (∀ (s : State) (port : Fin 2) (t residence : Nat) (frame : List Byte), (ringLive s port.val = true ∧ rfType frame = 1 ∧ rfDst frame = 0x0F ∧ rfOrigin frame ≠ ringId s ∧ ((slice frame 28 8).map (·.toNat)).contains (ringId s) = false ∧ s.pwr.ringRole = 0 ∧ s.cad.source ≠ 2 ∧ 1 < rfHops frame) →
    Does (exec (.ringBeaconRx port t residence frame) s) s [.outs, .boot, .host, .evt, .cad, .clk, .fe, .air, .nb, .tm, .col, .ring, .drawn, .out] fun u => u.ring.master = some (rfOrigin frame) ∧ u.ring.lastBeacon = beAt frame 16 6 ∧ u.ring.peerVigilOk = bit (beAt frame 23 1) 3 ∧ u.ring.ctr = bump s.ring.ctr 0) ∧
  (∀ (s : State) (port : Fin 2) (t residence : Nat) (frame : List Byte), (ringLive s port.val = true ∧ rfType frame = 1 ∧ rfDst frame = 0x0F ∧ rfOrigin frame ≠ ringId s ∧ ((slice frame 28 8).map (·.toNat)).contains (ringId s) = true) →
    Does (exec (.ringBeaconRx port t residence frame) s) s [.outs, .boot, .host, .evt, .cad, .clk, .fe, .air, .nb, .tm, .col, .ring, .drawn, .out] fun u => u.ring.st = 3 ∧ u.ring.blocked = true ∧ u.outs.bypRing = false) ∧
  (∀ (s : State) (port : Fin 2) (frame : List Byte), (ringLive s port.val = true ∧ rfType frame = 3 ∧ rfDst frame = ringId s ∧ rfOrigin frame ≠ ringId s ∧ s.ring.master = some (rfOrigin frame) ∧ s.ring.held.length < 8) →
    Does (exec (.ringCommandRx port frame) s) s [.ring] fun u => u.ring = { s.ring with held := s.ring.held ++ [frame] }) ∧
  (∀ (s : State) (port : Fin 2) (frame : List Byte), (ringLive s port.val = true ∧ rfType frame = 3 ∧ rfDst frame = ringId s ∧ rfOrigin frame ≠ ringId s ∧ s.ring.master ≠ some (rfOrigin frame)) →
    Does (exec (.ringCommandRx port frame) s) s [.ring] fun u => u.ring = { s.ring with ctr := bump s.ring.ctr 4 }) ∧
  (∀ (s : State) (port : Fin 2) (frame : List Byte) (o q op : Nat), (ringLive s port.val = true ∧ rfType frame = 4 ∧ rfDst frame = ringId s ∧ rfOrigin frame ≠ ringId s ∧ s.ring.acting = true ∧ s.ring.sent = [(o, q, op)] ∧ rfOrigin frame = o ∧ (rfBody frame).length < 64 ∧ fld (rfBody frame) 2 2 = q ∧ fld (rfBody frame) 0 2 ≠ 1) →
    Does (exec (.ringResponseRx port frame) s) s [.boot, .host, .evt, .clk, .ring, .out] fun u => u.ring.sent = []) ∧
  (∀ (s : State) (port : Fin 2) (frame : List Byte), (ringLive s port.val = true ∧ rfType frame = 4 ∧ rfDst frame = ringId s ∧ rfOrigin frame ≠ ringId s ∧ s.ring.acting = false) →
    Does (exec (.ringResponseRx port frame) s) s [.boot, .host, .evt, .clk, .ring, .out] fun u => u = s) ∧
  (∀ (s : State) (port : Fin 2) (frame : List Byte), (ringLive s port.val = true ∧ rfType frame = 5 ∧ rfDst frame = ringId s ∧ rfOrigin frame ≠ ringId s ∧ Tab.get? s.ring.expect (rfOrigin frame) = none) →
    Does (exec (.ringTableUpdateRx port frame) s) s [.boot, .host, .evt, .clk, .air, .fwd, .tm, .dram, .ring, .out] fun u => Tab.get? u.ring.expect (rfOrigin frame) = some ((rfSeq frame + 1) % 65536) ∧ u.ring.ctr = bump s.ring.ctr 5) ∧
  (∀ (s : State) (port : Fin 2) (frame : List Byte), (ringLive s port.val = true ∧ rfType frame = 5 ∧ rfDst frame = ringId s ∧ rfOrigin frame ≠ ringId s ∧ Tab.get? s.ring.expect (rfOrigin frame) = some ((rfSeq frame + 1) % 65536)) →
    Does (exec (.ringTableUpdateRx port frame) s) s [.boot, .host, .evt, .clk, .air, .fwd, .tm, .dram, .ring, .out] fun u => u = s) ∧
  (∀ (s : State) (port : Fin 2) (frame : List Byte), (ringLive s port.val = true ∧ rfType frame = 6 ∧ rfDst frame = ringId s ∧ rfOrigin frame ≠ ringId s) →
    Does (exec (.ringSummaryRx port frame) s) s [.col, .ring] fun u => u.col.views = putBytes s.col.views (0x1F8000 + 0x1000 * rfOrigin frame) (le 8 (curBeat s) ++ (rfBody frame).take 516) ∧ u.ring = s.ring) ∧
  (∀ (s : State), (s.ring.sumEn = true ∧ s.ring.st = 2 ∧ s.modes.mode = 5 ∧ s.ring.sumAt + s.ring.sumBeats ≤ curBeat s) →
    Does (exec .summaryTimer s) s [.ring] fun u => u.ring.placed = [] ∧ u.ring.sumAt = curBeat s) ∧
  (∀ (s : State) (port : Fin 2) (frame : List Byte), (ringLive s port.val = true ∧ rfType frame = 7 ∧ rfDst frame = ringId s ∧ rfOrigin frame ≠ ringId s ∧ s.ring.acting = true ∧ s.pwr.ringRole = 2) →
    Does (exec (.ringClaimRx port frame) s) s [.ring] fun u => u.ring = { s.ring with claim := some (beAt frame 16 6, rfOrigin frame) }) ∧
  (∀ (s : State), (s.ring.acting = true ∧ s.ring.st = 2 ∧ s.modes.mode = 5) →
    Does (exec .rendezvousInstant s) s [.cad, .clk, .ring, .out] fun u => u.ring.wakeLeft = s.ring.wakeLeft - 1 ∧ u.ring.rdvK.isSome = true ∧ u.ring.seq = setAt s.ring.seq 8 ((s.ring.seq.getD 8 0 + 1) % 65536)) ∧
  (∀ (s : State), (s.ring.acting = false) →
    Does (exec .rendezvousInstant s) s [.cad, .clk, .ring, .out] fun u => u = s) ∧
  (∀ (s : State), (s.ring.window = false ∧ s.ring.acting = false ∧ s.ring.st = 2 ∧ s.modes.mode = 3) →
    Does (exec .rdvWindowOpen s) s [.ring] fun u => u.ring = { s.ring with window := true, arrived := false, ports := updAt (updAt s.ring.ports 0 (fun x => { x with lane0 := true })) 1 (fun x => { x with lane0 := true }) }) ∧
  (∀ (s : State), (s.ring.window = true ∧ s.ring.arrived = true) →
    Does (exec .rdvWindowEnd s) s [.boot, .host, .evt, .clk, .ring, .out] fun u => u.ring = { s.ring with window := false, arrived := false, ports := s.ring.ports.map (fun p => { p with lane0 := false }) }) ∧
  (∀ (s : State), (s.ring.window = true ∧ s.ring.arrived = false) →
    Does (exec .rdvWindowEnd s) s [.boot, .host, .evt, .clk, .ring, .out] fun u => u.ring.window = false ∧ u.ring.g = min (4 * s.ring.g) (500 * s.ring.checkMs) ∧ u.ring.misses = satAdd 16 s.ring.misses 1 ∧ u.ring.ctr = bump s.ring.ctr 7) ∧
  (∀ (s : State) (port : Fin 2) (ticks residence : Nat) (frame : List Byte), (s.ring.window = true ∧ s.ring.arrived = false ∧ (ringPort s port.val).lane0 = true ∧ rfType frame = 8 ∧ (slice frame 28 8).contains (BitVec.ofNat 8 (ringId s)) = false ∧ s.modes.mode = 5) →
    Does (exec (.rendezvousRx port ticks residence frame) s) s [.boot, .mbx, .host, .evt, .modes, .clk, .ring, .out] fun u => u.ring = { s.ring with arrived := true, misses := 0, g := s.ring.guardUs, ctr := bump s.ring.ctr 6 }) ∧
  (∀ (s : State) (d : Doorbell) (p : List Byte), Ready specRingConfig d p s → let c := cmdOf specRingConfig d p s
    (c.u 16 1 = 0 ∧ c.u 18 2 ≤ 10000 ∧ 10 ≤ c.u 20 2 ∧ c.u 20 2 ≤ 5000 ∧ 1 ≤ c.u 22 2 ∧ c.u 22 2 ≤ 3600 ∧ 10 ≤ c.u 24 2 ∧ c.u 24 2 ≤ 10000 ∧ s.pwr.ringRole = 0 ∧ bit (c.u 17 1) 0 = true ∧ s.modes.mode = 4 ∧ s.ring.st = 2) →
    Answers (exec (.ringConfig d p) s) specRingConfig d p s [.outs, .mbx, .host, .evt, .fe, .air, .tm, .col, .ring, .out] (.ok) fun u => u.ring = { s.ring with enable := true, autoSync := bit (c.u 17 1) 1, sumEn := bit (c.u 17 1) 2, vigilOk := bit (c.u 17 1) 3, settle := c.u 18 2, wait := c.u 20 2, retry := c.u 22 2, sumBeats := c.u 24 2, blocked := false, force := false }) ∧
  (∀ (s : State) (d : Doorbell) (p : List Byte), Ready specRingConfig d p s → let c := cmdOf specRingConfig d p s
    (c.u 16 1 = 0 ∧ c.u 18 2 ≤ 10000 ∧ 10 ≤ c.u 20 2 ∧ c.u 20 2 ≤ 5000 ∧ 1 ≤ c.u 22 2 ∧ c.u 22 2 ≤ 3600 ∧ 10 ≤ c.u 24 2 ∧ c.u 24 2 ≤ 10000 ∧ s.pwr.ringRole = 0 ∧ bit (c.u 17 1) 0 = true ∧ s.modes.mode = 4 ∧ s.ring.st = 3) →
    Answers (exec (.ringConfig d p) s) specRingConfig d p s [.outs, .mbx, .host, .evt, .fe, .air, .tm, .col, .ring, .out] (.ok) fun u => u.ring.st = 1 ∧ u.outs.bypRing = true ∧ u.ring.settle = c.u 18 2) ∧
  (∀ (s : State) (d : Doorbell) (p : List Byte), Ready specRingConfig d p s → let c := cmdOf specRingConfig d p s
    (c.u 16 1 = 0 ∧ c.u 18 2 ≤ 10000 ∧ 10 ≤ c.u 20 2 ∧ c.u 20 2 ≤ 5000 ∧ 1 ≤ c.u 22 2 ∧ c.u 22 2 ≤ 3600 ∧ 10 ≤ c.u 24 2 ∧ c.u 24 2 ≤ 10000 ∧ s.pwr.ringRole = 3) →
    Answers (exec (.ringConfig d p) s) specRingConfig d p s [.outs, .mbx, .host, .evt, .fe, .air, .tm, .col, .ring, .out] (.err 0x0F01) fun u => u.ring = s.ring) ∧
  (∀ (s : State) (d : Doorbell) (p : List Byte), Ready specRingStatus d p s → let c := cmdOf specRingStatus d p s
    Answers (exec (.ringStatus d p) s) specRingStatus d p s [.mbx, .evt, .ring] (.ok (le 1 (ringState s) ++ le 1 (s.ring.master.getD 0xFF) ++ le 1 s.ring.roster ++ le 1 (b2n (ringPort s 0).up + 2 * b2n (ringPort s 1).up) ++ (ringPort s 0).path.flatMap (le 1) ++ (ringPort s 1).path.flatMap (le 1) ++ le 4 (ringPort s 0).delay ++ le 4 (ringPort s 1).delay ++ ctrBytes s.ring.ctr)) fun u => u.ring = { s.ring with ctr := if bit (c.u 16 1) 0 then zeroed s.ring.ctr else s.ring.ctr }) ∧
  (∀ (s : State) (d : Doorbell) (p : List Byte), Ready specRingTableSync d p s → pendingOf s d.mb.val < 32 → (s.pwr.ringRole ≠ 3) →
    Accepts (exec (.ringTableSync d p) s) specRingTableSync d p s [.mbx, .evt] fun u => u.ring = s.ring) ∧
  (∀ (s : State) (d : Doorbell) (p : List Byte), Ready specRingTableSync d p s → (s.pwr.ringRole = 3) →
    Answers (exec (.ringTableSync d p) s) specRingTableSync d p s [.mbx, .evt] (.err 0x0F01) fun u => u.ring = s.ring) ∧
  (∀ (s : State) (l : LongCmd), (s.ring.syncing = none ∧ findLong s 0x0F03 = some l) →
    Does (exec .ringTableSyncDone s) s [.boot, .mbx, .host, .evt, .clk, .ring, .out] fun u => u.mbx.longs = s.mbx.longs.erase l ∧ u.fwd = s.fwd) ∧
  (∀ (s : State), (s.ring.syncing = some 0) →
    Does (exec .ringTableSyncDone s) s [.boot, .mbx, .host, .evt, .clk, .ring, .out] fun u => u.ring = { s.ring with syncing := none }) ∧
  (∀ (s : State) (d : Doorbell) (p : List Byte), Ready specRendezvousSet d p s → let c := cmdOf specRendezvousSet d p s
    (100 ≤ c.u 16 2 ∧ c.u 16 2 ≤ 60000 ∧ 10 ≤ c.u 18 2 ∧ c.u 18 2 ≤ 1000 ∧ s.pwr.ringRole ≠ 3 ∧ s.ring.acting = true) →
    Answers (exec (.rendezvousSet d p) s) specRendezvousSet d p s [.mbx, .evt, .ring] (.ok) fun u => u.ring = { s.ring with checkMs := c.u 16 2, guardUs := c.u 18 2, g := c.u 18 2, rdvK := none, wakeMask := c.u 20 1, wakeLeft := if c.u 20 1 = 0 then 0 else 3 }) ∧
  (∀ (s : State) (d : Doorbell) (p : List Byte), Ready specRendezvousSet d p s → let c := cmdOf specRendezvousSet d p s
    (100 ≤ c.u 16 2 ∧ c.u 16 2 ≤ 60000 ∧ 10 ≤ c.u 18 2 ∧ c.u 18 2 ≤ 1000 ∧ s.pwr.ringRole ≠ 3 ∧ s.ring.acting = false ∧ c.u 20 1 ≠ 0) →
    Answers (exec (.rendezvousSet d p) s) specRendezvousSet d p s [.mbx, .evt, .ring] (.err 0x0F01) fun u => u.ring = s.ring)

/-- On a core that runs and stands in its code, each ALU instruction writes its result to its destination, sets Z and N of it and, where R622 has it so, C and V, sets SATF where it saturated, and goes on at the next instruction; ABS, NEG and CONJ with a second operand that is not 0, and CMP with a destination that is not 0, end as a fault. -/
def Obligations.CragArithmeticResults : Prop :=
  (∀ (s : State) (core : Fin 33) (dst srcA : BitVec 5) (b : Src2), (cragRuns s core.val = true ∧ inCode s core.val (getCore s core.val) = true) →
    exec (.add core dst srcA b) s = .next (let k := getCore s core.val; let a := k.dr srcA; let y := Src2.value b k; let v := a + y; onCore core.val (fun _ => advance (((((k.setSt 0 (decide (v = 0))).setSt 1 (v.getLsbD 31)).setSt 2 (decide (2 ^ 32 ≤ a.toNat + y.toNat))).setSt 3 (decide (a.toInt + y.toInt < -(2 ^ 31) ∨ 2 ^ 31 ≤ a.toInt + y.toInt))).setD dst v)) s)) ∧
  (∀ (s : State) (core : Fin 33) (dst srcA : BitVec 5) (b : Src2), (cragRuns s core.val = true ∧ inCode s core.val (getCore s core.val) = true) →
    exec (.sub core dst srcA b) s = .next (let k := getCore s core.val; let a := k.dr srcA; let y := Src2.value b k; let v := a - y; onCore core.val (fun _ => advance (((((k.setSt 0 (decide (v = 0))).setSt 1 (v.getLsbD 31)).setSt 2 (decide (y.toNat ≤ a.toNat))).setSt 3 (decide (a.toInt - y.toInt < -(2 ^ 31) ∨ 2 ^ 31 ≤ a.toInt - y.toInt))).setD dst v)) s)) ∧
  (∀ (s : State) (core : Fin 33) (dst srcA : BitVec 5) (b : Src2), (cragRuns s core.val = true ∧ inCode s core.val (getCore s core.val) = true) →
    exec (.adds core dst srcA b) s = .next (let k := getCore s core.val; let a := k.dr srcA; let y := Src2.value b k; let x : Int := a.toInt + y.toInt; let c := max (-(2 ^ 31)) (min (2 ^ 31 - 1) x); let v := BitVec.ofInt 32 c; onCore core.val (fun _ => advance ((((((k.setSt 0 (decide (v = 0))).setSt 1 (v.getLsbD 31)).setSt 2 (decide (2 ^ 32 ≤ a.toNat + y.toNat))).setSt 3 (decide (a.toInt + y.toInt < -(2 ^ 31) ∨ 2 ^ 31 ≤ a.toInt + y.toInt))).stick 7 (decide (x ≠ c))).setD dst v)) s)) ∧
  (∀ (s : State) (core : Fin 33) (dst srcA : BitVec 5) (b : Src2), (cragRuns s core.val = true ∧ inCode s core.val (getCore s core.val) = true) →
    exec (.subs core dst srcA b) s = .next (let k := getCore s core.val; let a := k.dr srcA; let y := Src2.value b k; let x : Int := a.toInt - y.toInt; let c := max (-(2 ^ 31)) (min (2 ^ 31 - 1) x); let v := BitVec.ofInt 32 c; onCore core.val (fun _ => advance ((((((k.setSt 0 (decide (v = 0))).setSt 1 (v.getLsbD 31)).setSt 2 (decide (y.toNat ≤ a.toNat))).setSt 3 (decide (a.toInt - y.toInt < -(2 ^ 31) ∨ 2 ^ 31 ≤ a.toInt - y.toInt))).stick 7 (decide (x ≠ c))).setD dst v)) s)) ∧
  (∀ (s : State) (core : Fin 33) (dst srcA : BitVec 5) (b : Src2), (cragRuns s core.val = true ∧ inCode s core.val (getCore s core.val) = true) →
    exec (.and_ core dst srcA b) s = .next (let k := getCore s core.val; let a := k.dr srcA; let y := Src2.value b k; let v := a &&& y; onCore core.val (fun _ => advance (((k.setSt 0 (decide (v = 0))).setSt 1 (v.getLsbD 31)).setD dst v)) s)) ∧
  (∀ (s : State) (core : Fin 33) (dst srcA : BitVec 5) (b : Src2), (cragRuns s core.val = true ∧ inCode s core.val (getCore s core.val) = true) →
    exec (.or_ core dst srcA b) s = .next (let k := getCore s core.val; let a := k.dr srcA; let y := Src2.value b k; let v := a ||| y; onCore core.val (fun _ => advance (((k.setSt 0 (decide (v = 0))).setSt 1 (v.getLsbD 31)).setD dst v)) s)) ∧
  (∀ (s : State) (core : Fin 33) (dst srcA : BitVec 5) (b : Src2), (cragRuns s core.val = true ∧ inCode s core.val (getCore s core.val) = true) →
    exec (.xor core dst srcA b) s = .next (let k := getCore s core.val; let a := k.dr srcA; let y := Src2.value b k; let v := a ^^^ y; onCore core.val (fun _ => advance (((k.setSt 0 (decide (v = 0))).setSt 1 (v.getLsbD 31)).setD dst v)) s)) ∧
  (∀ (s : State) (core : Fin 33) (dst srcA : BitVec 5) (b : Src2), (cragRuns s core.val = true ∧ inCode s core.val (getCore s core.val) = true) →
    exec (.shl core dst srcA b) s = .next (let k := getCore s core.val; let a := k.dr srcA; let y := Src2.value b k; let v := a <<< (y.toNat % 32); onCore core.val (fun _ => advance (((k.setSt 0 (decide (v = 0))).setSt 1 (v.getLsbD 31)).setD dst v)) s)) ∧
  (∀ (s : State) (core : Fin 33) (dst srcA : BitVec 5) (b : Src2), (cragRuns s core.val = true ∧ inCode s core.val (getCore s core.val) = true) →
    exec (.shr core dst srcA b) s = .next (let k := getCore s core.val; let a := k.dr srcA; let y := Src2.value b k; let v := a >>> (y.toNat % 32); onCore core.val (fun _ => advance (((k.setSt 0 (decide (v = 0))).setSt 1 (v.getLsbD 31)).setD dst v)) s)) ∧
  (∀ (s : State) (core : Fin 33) (dst srcA : BitVec 5) (b : Src2), (cragRuns s core.val = true ∧ inCode s core.val (getCore s core.val) = true) →
    exec (.shra core dst srcA b) s = .next (let k := getCore s core.val; let a := k.dr srcA; let y := Src2.value b k; let v := a.sshiftRight (y.toNat % 32); onCore core.val (fun _ => advance (((k.setSt 0 (decide (v = 0))).setSt 1 (v.getLsbD 31)).setD dst v)) s)) ∧
  (∀ (s : State) (core : Fin 33) (dst srcA : BitVec 5) (b : Src2), (cragRuns s core.val = true ∧ inCode s core.val (getCore s core.val) = true) →
    exec (.mul core dst srcA b) s = .next (let k := getCore s core.val; let a := k.dr srcA; let y := Src2.value b k; let v := a * y; onCore core.val (fun _ => advance (((k.setSt 0 (decide (v = 0))).setSt 1 (v.getLsbD 31)).setD dst v)) s)) ∧
  (∀ (s : State) (core : Fin 33) (dst srcA : BitVec 5) (b : Src2), (cragRuns s core.val = true ∧ inCode s core.val (getCore s core.val) = true) →
    exec (.min core dst srcA b) s = .next (let k := getCore s core.val; let a := k.dr srcA; let y := Src2.value b k; let v := if a.toInt ≤ y.toInt then a else y; onCore core.val (fun _ => advance (((k.setSt 0 (decide (v = 0))).setSt 1 (v.getLsbD 31)).setD dst v)) s)) ∧
  (∀ (s : State) (core : Fin 33) (dst srcA : BitVec 5) (b : Src2), (cragRuns s core.val = true ∧ inCode s core.val (getCore s core.val) = true) →
    exec (.max core dst srcA b) s = .next (let k := getCore s core.val; let a := k.dr srcA; let y := Src2.value b k; let v := if a.toInt ≤ y.toInt then y else a; onCore core.val (fun _ => advance (((k.setSt 0 (decide (v = 0))).setSt 1 (v.getLsbD 31)).setD dst v)) s)) ∧
  (∀ (s : State) (core : Fin 33) (dst srcA : BitVec 5) (b : Src2), (cragRuns s core.val = true ∧ inCode s core.val (getCore s core.val) = true) →
    exec (.mulq core dst srcA b) s = .next (let k := getCore s core.val; let a := k.dr srcA; let y := Src2.value b k; let x : Int := roundBy k.rnd (a.toInt * y.toInt) 31; let c := max (-(2 ^ 31)) (min (2 ^ 31 - 1) x); let v := BitVec.ofInt 32 c; onCore core.val (fun _ => advance ((((k.setSt 0 (decide (v = 0))).setSt 1 (v.getLsbD 31)).stick 7 (decide (x ≠ c))).setD dst v)) s)) ∧
  (∀ (s : State) (core : Fin 33) (dst srcA : BitVec 5) (b : Src2), (cragRuns s core.val = true ∧ inCode s core.val (getCore s core.val) = true ∧ (b = .reg 0 ∨ b = .imm 0)) →
    exec (.abs core dst srcA b) s = .next (let k := getCore s core.val; let a := k.dr srcA; let x : Int := (a.toInt.natAbs : Int); let c := max (-(2 ^ 31)) (min (2 ^ 31 - 1) x); let v := BitVec.ofInt 32 c; onCore core.val (fun _ => advance ((((k.setSt 0 (decide (v = 0))).setSt 1 (v.getLsbD 31)).stick 7 (decide (x ≠ c))).setD dst v)) s)) ∧
  (∀ (s : State) (core : Fin 33) (dst srcA : BitVec 5) (b : Src2), (cragRuns s core.val = true ∧ inCode s core.val (getCore s core.val) = true ∧ (b = .reg 0 ∨ b = .imm 0)) →
    exec (.neg core dst srcA b) s = .next (let k := getCore s core.val; let a := k.dr srcA; let x : Int := -a.toInt; let c := max (-(2 ^ 31)) (min (2 ^ 31 - 1) x); let v := BitVec.ofInt 32 c; onCore core.val (fun _ => advance ((((k.setSt 0 (decide (v = 0))).setSt 1 (v.getLsbD 31)).stick 7 (decide (x ≠ c))).setD dst v)) s)) ∧
  (∀ (s : State) (core : Fin 33) (dst srcA : BitVec 5) (b : Src2), (cragRuns s core.val = true ∧ inCode s core.val (getCore s core.val) = true ∧ b ≠ .reg 0 ∧ b ≠ .imm 0) →
    exec (.abs core dst srcA b) s = .next (cragFault core.val (getCore s core.val).pc s)) ∧
  (∀ (s : State) (core : Fin 33) (dst srcA : BitVec 5) (b : Src2), (cragRuns s core.val = true ∧ inCode s core.val (getCore s core.val) = true ∧ dst = 0) →
    exec (.cmp core dst srcA b) s = .next (let k := getCore s core.val; let a := k.dr srcA; let y := Src2.value b k; let v := a - y; onCore core.val (fun _ => advance ((((k.setSt 0 (decide (v = 0))).setSt 1 (v.getLsbD 31)).setSt 2 (decide (y.toNat ≤ a.toNat))).setSt 3 (decide (a.toInt - y.toInt < -(2 ^ 31) ∨ 2 ^ 31 ≤ a.toInt - y.toInt)))) s)) ∧
  (∀ (s : State) (core : Fin 33) (dst srcA : BitVec 5) (b : Src2), (cragRuns s core.val = true ∧ inCode s core.val (getCore s core.val) = true ∧ dst ≠ 0) →
    exec (.cmp core dst srcA b) s = .next (cragFault core.val (getCore s core.val).pc s)) ∧
  (∀ (s : State) (core : Fin 33) (dst srcA : BitVec 5) (b : Src2), (cragRuns s core.val = true ∧ inCode s core.val (getCore s core.val) = true) →
    exec (.cadd core dst srcA b) s = .next (let k := getCore s core.val; let a := k.dr srcA; let y := Src2.value b k; let x : Int := reOf a + reOf y; let z : Int := imOf a + imOf y; let c := max (-(2 ^ 15)) (min (2 ^ 15 - 1) x); let e := max (-(2 ^ 15)) (min (2 ^ 15 - 1) z); let v := cxOf c e; onCore core.val (fun _ => advance ((((k.setSt 0 (decide (v = 0))).setSt 1 (v.getLsbD 31)).stick 7 (decide (x ≠ c ∨ z ≠ e))).setD dst v)) s)) ∧
  (∀ (s : State) (core : Fin 33) (dst srcA : BitVec 5) (b : Src2), (cragRuns s core.val = true ∧ inCode s core.val (getCore s core.val) = true) →
    exec (.csub core dst srcA b) s = .next (let k := getCore s core.val; let a := k.dr srcA; let y := Src2.value b k; let x : Int := reOf a - reOf y; let z : Int := imOf a - imOf y; let c := max (-(2 ^ 15)) (min (2 ^ 15 - 1) x); let e := max (-(2 ^ 15)) (min (2 ^ 15 - 1) z); let v := cxOf c e; onCore core.val (fun _ => advance ((((k.setSt 0 (decide (v = 0))).setSt 1 (v.getLsbD 31)).stick 7 (decide (x ≠ c ∨ z ≠ e))).setD dst v)) s)) ∧
  (∀ (s : State) (core : Fin 33) (dst srcA : BitVec 5) (b : Src2), (cragRuns s core.val = true ∧ inCode s core.val (getCore s core.val) = true ∧ (b = .reg 0 ∨ b = .imm 0)) →
    exec (.conj core dst srcA b) s = .next (let k := getCore s core.val; let a := k.dr srcA; let x : Int := reOf a; let z : Int := -imOf a; let c := max (-(2 ^ 15)) (min (2 ^ 15 - 1) x); let e := max (-(2 ^ 15)) (min (2 ^ 15 - 1) z); let v := cxOf c e; onCore core.val (fun _ => advance ((((k.setSt 0 (decide (v = 0))).setSt 1 (v.getLsbD 31)).stick 7 (decide (z ≠ e))).setD dst v)) s)) ∧
  (∀ (s : State) (core : Fin 33) (dst srcA srcB : BitVec 5), (cragRuns s core.val = true ∧ inCode s core.val (getCore s core.val) = true) →
    exec (.pack core dst srcA srcB) s = .next (let k := getCore s core.val; let a := k.dr srcA; let y := k.dr srcB; let v : W32 := BitVec.ofNat 32 (a.toNat % 65536 + 65536 * (y.toNat % 65536)); onCore core.val (fun _ => advance (((k.setSt 0 (decide (v = 0))).setSt 1 (v.getLsbD 31)).setD dst v)) s)) ∧
  (∀ (s : State) (core : Fin 33) (dst srcA : BitVec 4) (b : Src2), (cragRuns s core.val = true ∧ inCode s core.val (getCore s core.val) = true) →
    exec (.padd core dst srcA b) s = .next (let k := getCore s core.val; onCore core.val (fun _ => advance (k.setP dst (k.pr srcA + Src2.value b k))) s)) ∧
  (∀ (s : State) (core : Fin 33) (dst : BitVec 5) (imm : W16), (cragRuns s core.val = true ∧ inCode s core.val (getCore s core.val) = true) →
    exec (.movi core dst imm) s = .next (let k := getCore s core.val; onCore core.val (fun _ => advance (k.setD dst (if Config.moviSigned then imm.signExtend 32 else imm.setWidth 32))) s)) ∧
  (∀ (s : State) (core : Fin 33) (dst : BitVec 5) (imm : W16), (cragRuns s core.val = true ∧ inCode s core.val (getCore s core.val) = true) →
    exec (.movhi core dst imm) s = .next (let k := getCore s core.val; onCore core.val (fun _ => advance (k.setD dst (BitVec.ofNat 32 (65536 * imm.toNat + (k.dr dst).toNat % 65536)))) s)) ∧
  (∀ (s : State) (core : Fin 33) (dst : BitVec 4) (imm : W16), (cragRuns s core.val = true ∧ inCode s core.val (getCore s core.val) = true) →
    exec (.moviP core dst imm) s = .next (let k := getCore s core.val; onCore core.val (fun _ => advance (k.setP dst (if Config.moviSigned then imm.signExtend 32 else imm.setWidth 32))) s))

/-- On a core that runs and stands in its code, a multiply-accumulate adds its exact product to its accumulator, brought into 72 signed bits with AOV set where it had to be; the complex ones do so on a pair, and an odd accumulator of a pair ends as a fault; the vector ones take 16 bytes at each pointer and move the pointers they mark. EXT takes the shifted, rounded and saturated value; RAW and INS move the accumulator's bits. -/
def Obligations.CragAccumulatorResults : Prop :=
  (∀ (s : State) (core : Fin 33) (acc : BitVec 3) (srcA srcB : BitVec 5), (cragRuns s core.val = true ∧ inCode s core.val (getCore s core.val) = true) →
    exec (.macH core acc srcA srcB) s = .next (let k := getCore s core.val; let x : Int := k.ac acc + (2 ^ 32 * (reOf (k.dr srcA) * reOf (k.dr srcB))); let c := max (-(2 ^ 71)) (min (2 ^ 71 - 1) (x)); onCore core.val (fun _ => advance ((k.setA acc c).stick 6 (decide (x ≠ c)))) s)) ∧
  (∀ (s : State) (core : Fin 33) (acc : BitVec 3) (srcA srcB : BitVec 5), (cragRuns s core.val = true ∧ inCode s core.val (getCore s core.val) = true) →
    exec (.msuH core acc srcA srcB) s = .next (let k := getCore s core.val; let x : Int := k.ac acc + (-(2 ^ 32 * (reOf (k.dr srcA) * reOf (k.dr srcB)))); let c := max (-(2 ^ 71)) (min (2 ^ 71 - 1) (x)); onCore core.val (fun _ => advance ((k.setA acc c).stick 6 (decide (x ≠ c)))) s)) ∧
  (∀ (s : State) (core : Fin 33) (acc : BitVec 3) (srcA srcB : BitVec 5), (cragRuns s core.val = true ∧ inCode s core.val (getCore s core.val) = true) →
    exec (.macW core acc srcA srcB) s = .next (let k := getCore s core.val; let x : Int := k.ac acc + ((k.dr srcA).toInt * (k.dr srcB).toInt); let c := max (-(2 ^ 71)) (min (2 ^ 71 - 1) (x)); onCore core.val (fun _ => advance ((k.setA acc c).stick 6 (decide (x ≠ c)))) s)) ∧
  (∀ (s : State) (core : Fin 33) (acc : BitVec 3) (srcA srcB : BitVec 5), (cragRuns s core.val = true ∧ inCode s core.val (getCore s core.val) = true) →
    exec (.msuW core acc srcA srcB) s = .next (let k := getCore s core.val; let x : Int := k.ac acc + (-((k.dr srcA).toInt * (k.dr srcB).toInt)); let c := max (-(2 ^ 71)) (min (2 ^ 71 - 1) (x)); onCore core.val (fun _ => advance ((k.setA acc c).stick 6 (decide (x ≠ c)))) s)) ∧
  (∀ (s : State) (core : Fin 33) (acc : BitVec 3) (srcA srcB : BitVec 5), (cragRuns s core.val = true ∧ inCode s core.val (getCore s core.val) = true) →
    exec (.macI core acc srcA srcB) s = .next (let k := getCore s core.val; let x : Int := k.ac acc + ((k.dr srcA).toInt * (k.dr srcB).toInt); let c := max (-(2 ^ 71)) (min (2 ^ 71 - 1) (x)); onCore core.val (fun _ => advance ((k.setA acc c).stick 6 (decide (x ≠ c)))) s)) ∧
  (∀ (s : State) (core : Fin 33) (acc src : BitVec 3), (cragRuns s core.val = true ∧ inCode s core.val (getCore s core.val) = true) →
    exec (.adda core acc src) s = .next (let k := getCore s core.val; let x : Int := k.ac acc + (k.ac src); let c := max (-(2 ^ 71)) (min (2 ^ 71 - 1) (x)); onCore core.val (fun _ => advance ((k.setA acc c).stick 6 (decide (x ≠ c)))) s)) ∧
  (∀ (s : State) (core : Fin 33) (acc : BitVec 3) (srcA srcB : BitVec 5), (cragRuns s core.val = true ∧ inCode s core.val (getCore s core.val) = true ∧ acc.getLsbD 0 = false) →
    exec (.cmac core acc srcA srcB) s = .next (let k := getCore s core.val; let a := k.dr srcA; let y := k.dr srcB; let x : Int := k.ac acc + (2 ^ 32 * (reOf a * reOf y - imOf a * imOf y)); let z : Int := k.ac (acc + 1) + (2 ^ 32 * (reOf a * imOf y + imOf a * reOf y)); let c := max (-(2 ^ 71)) (min (2 ^ 71 - 1) (x)); let e := max (-(2 ^ 71)) (min (2 ^ 71 - 1) (z)); onCore core.val (fun _ => advance ((((k.setA acc c).stick 6 (decide (x ≠ c))).setA (acc + 1) e).stick 6 (decide (z ≠ e)))) s)) ∧
  (∀ (s : State) (core : Fin 33) (acc : BitVec 3) (srcA srcB : BitVec 5), (cragRuns s core.val = true ∧ inCode s core.val (getCore s core.val) = true ∧ acc.getLsbD 0 = false) →
    exec (.cmacj core acc srcA srcB) s = .next (let k := getCore s core.val; let a := k.dr srcA; let y := k.dr srcB; let x : Int := k.ac acc + (2 ^ 32 * (reOf a * reOf y + imOf a * imOf y)); let z : Int := k.ac (acc + 1) + (2 ^ 32 * (reOf a * imOf y - imOf a * reOf y)); let c := max (-(2 ^ 71)) (min (2 ^ 71 - 1) (x)); let e := max (-(2 ^ 71)) (min (2 ^ 71 - 1) (z)); onCore core.val (fun _ => advance ((((k.setA acc c).stick 6 (decide (x ≠ c))).setA (acc + 1) e).stick 6 (decide (z ≠ e)))) s)) ∧
  (∀ (s : State) (core : Fin 33) (acc : BitVec 3) (srcA srcB : BitVec 5), (cragRuns s core.val = true ∧ inCode s core.val (getCore s core.val) = true ∧ acc.getLsbD 0 = false) →
    exec (.cmsu core acc srcA srcB) s = .next (let k := getCore s core.val; let a := k.dr srcA; let y := k.dr srcB; let x : Int := k.ac acc + (-(2 ^ 32 * (reOf a * reOf y - imOf a * imOf y))); let z : Int := k.ac (acc + 1) + (-(2 ^ 32 * (reOf a * imOf y + imOf a * reOf y))); let c := max (-(2 ^ 71)) (min (2 ^ 71 - 1) (x)); let e := max (-(2 ^ 71)) (min (2 ^ 71 - 1) (z)); onCore core.val (fun _ => advance ((((k.setA acc c).stick 6 (decide (x ≠ c))).setA (acc + 1) e).stick 6 (decide (z ≠ e)))) s)) ∧
  (∀ (s : State) (core : Fin 33) (acc : BitVec 3) (srcA srcB : BitVec 5), (cragRuns s core.val = true ∧ inCode s core.val (getCore s core.val) = true ∧ acc.getLsbD 0 = true) →
    exec (.cmac core acc srcA srcB) s = .next (cragFault core.val (getCore s core.val).pc s)) ∧
  (∀ (s : State) (core : Fin 33) (acc : BitVec 3), (cragRuns s core.val = true ∧ inCode s core.val (getCore s core.val) = true) →
    exec (.clr core acc) s = .next (let k := getCore s core.val; onCore core.val (fun _ => advance (k.setA acc 0)) s)) ∧
  (∀ (s : State) (core : Fin 33) (acc : BitVec 3), (cragRuns s core.val = true ∧ inCode s core.val (getCore s core.val) = true ∧ acc.getLsbD 0 = false) →
    exec (.clr2 core acc) s = .next (let k := getCore s core.val; onCore core.val (fun _ => advance ((k.setA acc 0).setA (acc + 1) 0)) s)) ∧
  (∀ (s : State) (core : Fin 33) (acc : BitVec 3), (cragRuns s core.val = true ∧ inCode s core.val (getCore s core.val) = true ∧ acc.getLsbD 0 = true) →
    exec (.clr2 core acc) s = .next (cragFault core.val (getCore s core.val).pc s)) ∧
  (∀ (s : State) (core : Fin 33) (acc : BitVec 3) (srcA : BitVec 5), (cragRuns s core.val = true ∧ inCode s core.val (getCore s core.val) = true) →
    exec (.mova core acc srcA) s = .next (let k := getCore s core.val; onCore core.val (fun _ => advance (k.setA acc ((k.dr srcA).toInt * 2 ^ 31))) s)) ∧
  (∀ (s : State) (core : Fin 33) (acc : BitVec 3) (pa pb : BitVec 4) (incA incB : Bool) (p q : List Byte), (cragRuns s core.val = true ∧ inCode s core.val (getCore s core.val) = true ∧ cragRead s core.val (getCore s core.val) ((getCore s core.val).pr pa).toNat 16 = some p ∧ cragRead s core.val (getCore s core.val) ((getCore s core.val).pr pb).toNat 16 = some q) →
    exec (.vmacH core acc pa pb incA incB) s = .next (let k := getCore s core.val; let k1 := if incA then k.setP pa (k.pr pa + 16) else k; let k2 := if incB && !(incA && pa = pb) then k1.setP pb (k.pr pb + 16) else k1; let x : Int := k.ac acc + 2 ^ 32 * (([0, 1, 2, 3, 4, 5, 6, 7] : List Nat).map fun i => signed 16 (fld p (2 * i) 2) * signed 16 (fld q (2 * i) 2)).sum; let c := max (-(2 ^ 71)) (min (2 ^ 71 - 1) (x)); onCore core.val (fun _ => advance ((k2.setA acc c).stick 6 (decide (x ≠ c)))) s)) ∧
  (∀ (s : State) (core : Fin 33) (acc : BitVec 3) (pa pb : BitVec 4) (incA incB : Bool) (p q : List Byte), (cragRuns s core.val = true ∧ inCode s core.val (getCore s core.val) = true ∧ acc.getLsbD 0 = false ∧ cragRead s core.val (getCore s core.val) ((getCore s core.val).pr pa).toNat 16 = some p ∧ cragRead s core.val (getCore s core.val) ((getCore s core.val).pr pb).toNat 16 = some q) →
    exec (.vcmac core acc pa pb incA incB) s = .next (let k := getCore s core.val; let k1 := if incA then k.setP pa (k.pr pa + 16) else k; let k2 := if incB && !(incA && pa = pb) then k1.setP pb (k.pr pb + 16) else k1; let x : Int := k.ac acc + 2 ^ 32 * (([0, 1, 2, 3] : List Nat).map fun i => signed 16 (fld p (2 * (2 * i)) 2) * signed 16 (fld q (2 * (2 * i)) 2) - signed 16 (fld p (2 * (2 * i + 1)) 2) * signed 16 (fld q (2 * (2 * i + 1)) 2)).sum; let z : Int := k.ac (acc + 1) + 2 ^ 32 * (([0, 1, 2, 3] : List Nat).map fun i => signed 16 (fld p (2 * (2 * i)) 2) * signed 16 (fld q (2 * (2 * i + 1)) 2) + signed 16 (fld p (2 * (2 * i + 1)) 2) * signed 16 (fld q (2 * (2 * i)) 2)).sum; let c := max (-(2 ^ 71)) (min (2 ^ 71 - 1) (x)); let e := max (-(2 ^ 71)) (min (2 ^ 71 - 1) (z)); onCore core.val (fun _ => advance ((((k2.setA acc c).stick 6 (decide (x ≠ c))).setA (acc + 1) e).stick 6 (decide (z ≠ e)))) s)) ∧
  (∀ (s : State) (core : Fin 33) (acc : BitVec 3) (pa pb : BitVec 4) (incA incB : Bool) (p q : List Byte), (cragRuns s core.val = true ∧ inCode s core.val (getCore s core.val) = true ∧ acc.getLsbD 0 = false ∧ cragRead s core.val (getCore s core.val) ((getCore s core.val).pr pa).toNat 16 = some p ∧ cragRead s core.val (getCore s core.val) ((getCore s core.val).pr pb).toNat 16 = some q) →
    exec (.vcmacj core acc pa pb incA incB) s = .next (let k := getCore s core.val; let k1 := if incA then k.setP pa (k.pr pa + 16) else k; let k2 := if incB && !(incA && pa = pb) then k1.setP pb (k.pr pb + 16) else k1; let x : Int := k.ac acc + 2 ^ 32 * (([0, 1, 2, 3] : List Nat).map fun i => signed 16 (fld p (2 * (2 * i)) 2) * signed 16 (fld q (2 * (2 * i)) 2) + signed 16 (fld p (2 * (2 * i + 1)) 2) * signed 16 (fld q (2 * (2 * i + 1)) 2)).sum; let z : Int := k.ac (acc + 1) + 2 ^ 32 * (([0, 1, 2, 3] : List Nat).map fun i => signed 16 (fld p (2 * (2 * i)) 2) * signed 16 (fld q (2 * (2 * i + 1)) 2) - signed 16 (fld p (2 * (2 * i + 1)) 2) * signed 16 (fld q (2 * (2 * i)) 2)).sum; let c := max (-(2 ^ 71)) (min (2 ^ 71 - 1) (x)); let e := max (-(2 ^ 71)) (min (2 ^ 71 - 1) (z)); onCore core.val (fun _ => advance ((((k2.setA acc c).stick 6 (decide (x ≠ c))).setA (acc + 1) e).stick 6 (decide (z ≠ e)))) s)) ∧
  (∀ (s : State) (core : Fin 33) (dst : BitVec 5) (acc : BitVec 3) (sh : BitVec 6), (cragRuns s core.val = true ∧ inCode s core.val (getCore s core.val) = true) →
    exec (.extW core dst acc sh) s = .next (let k := getCore s core.val; let e : Int := 31 - sh.toInt; let x : Int := if e < 0 then k.ac acc * 2 ^ (-e).toNat else roundBy k.rnd (k.ac acc) e.toNat; let c := max (-(2 ^ 31)) (min (2 ^ 31 - 1) x); onCore core.val (fun _ => advance ((k.setD dst (BitVec.ofInt 32 c)).stick 7 (decide (x ≠ c)))) s)) ∧
  (∀ (s : State) (core : Fin 33) (dst : BitVec 5) (acc : BitVec 3) (sh : BitVec 6), (cragRuns s core.val = true ∧ inCode s core.val (getCore s core.val) = true) →
    exec (.extH core dst acc sh) s = .next (let k := getCore s core.val; let e : Int := 47 - sh.toInt; let x : Int := if e < 0 then k.ac acc * 2 ^ (-e).toNat else roundBy k.rnd (k.ac acc) e.toNat; let c := max (-(2 ^ 15)) (min (2 ^ 15 - 1) x); onCore core.val (fun _ => advance ((k.setD dst (BitVec.ofInt 32 c)).stick 7 (decide (x ≠ c)))) s)) ∧
  (∀ (s : State) (core : Fin 33) (dst : BitVec 5) (acc : BitVec 3) (sh : BitVec 6), (cragRuns s core.val = true ∧ inCode s core.val (getCore s core.val) = true) →
    exec (.extI core dst acc sh) s = .next (let k := getCore s core.val; let e : Int := 0 - sh.toInt; let x : Int := if e < 0 then k.ac acc * 2 ^ (-e).toNat else roundBy k.rnd (k.ac acc) e.toNat; let c := max (-(2 ^ 31)) (min (2 ^ 31 - 1) x); onCore core.val (fun _ => advance ((k.setD dst (BitVec.ofInt 32 c)).stick 7 (decide (x ≠ c)))) s)) ∧
  (∀ (s : State) (core : Fin 33) (dst : BitVec 5) (acc : BitVec 3) (sh : BitVec 6), (cragRuns s core.val = true ∧ inCode s core.val (getCore s core.val) = true ∧ acc.getLsbD 0 = false) →
    exec (.extCx core dst acc sh) s = .next (let k := getCore s core.val; let e : Int := 47 - sh.toInt; let x : Int := roundBy k.rnd (k.ac acc) e.toNat; let z : Int := roundBy k.rnd (k.ac (acc + 1)) e.toNat; let c := max (-(2 ^ 15)) (min (2 ^ 15 - 1) x); let g := max (-(2 ^ 15)) (min (2 ^ 15 - 1) z); onCore core.val (fun _ => advance ((k.setD dst (cxOf c g)).stick 7 (decide (x ≠ c ∨ z ≠ g)))) s)) ∧
  (∀ (s : State) (core : Fin 33) (dst : BitVec 5) (acc : BitVec 3), (cragRuns s core.val = true ∧ inCode s core.val (getCore s core.val) = true) →
    exec (.rawlo core dst acc) s = .next (let k := getCore s core.val; onCore core.val (fun _ => advance (k.setD dst ((k.acc.getD acc.toNat 0).extractLsb' 0 32))) s)) ∧
  (∀ (s : State) (core : Fin 33) (dst : BitVec 5) (acc : BitVec 3), (cragRuns s core.val = true ∧ inCode s core.val (getCore s core.val) = true) →
    exec (.rawmi core dst acc) s = .next (let k := getCore s core.val; onCore core.val (fun _ => advance (k.setD dst ((k.acc.getD acc.toNat 0).extractLsb' 32 32))) s)) ∧
  (∀ (s : State) (core : Fin 33) (dst : BitVec 5) (acc : BitVec 3), (cragRuns s core.val = true ∧ inCode s core.val (getCore s core.val) = true) →
    exec (.rawhi core dst acc) s = .next (let k := getCore s core.val; onCore core.val (fun _ => advance (k.setD dst (((k.acc.getD acc.toNat 0).extractLsb' 64 8).signExtend 32))) s)) ∧
  (∀ (s : State) (core : Fin 33) (dst : BitVec 5) (acc : BitVec 3), (cragRuns s core.val = true ∧ inCode s core.val (getCore s core.val) = true) →
    exec (.inslo core dst acc) s = .next (let k := getCore s core.val; let A : BitVec 72 := k.acc.getD acc.toNat 0; onCore core.val (fun _ => advance ({ k with acc := setAt k.acc acc.toNat (A.extractLsb' 64 8 ++ A.extractLsb' 32 32 ++ k.dr dst : BitVec 72) })) s)) ∧
  (∀ (s : State) (core : Fin 33) (dst : BitVec 5) (acc : BitVec 3), (cragRuns s core.val = true ∧ inCode s core.val (getCore s core.val) = true) →
    exec (.insmi core dst acc) s = .next (let k := getCore s core.val; let A : BitVec 72 := k.acc.getD acc.toNat 0; onCore core.val (fun _ => advance ({ k with acc := setAt k.acc acc.toNat (A.extractLsb' 64 8 ++ k.dr dst ++ A.extractLsb' 0 32 : BitVec 72) })) s)) ∧
  (∀ (s : State) (core : Fin 33) (dst : BitVec 5) (acc : BitVec 3), (cragRuns s core.val = true ∧ inCode s core.val (getCore s core.val) = true) →
    exec (.inshi core dst acc) s = .next (let k := getCore s core.val; let A : BitVec 72 := k.acc.getD acc.toNat 0; onCore core.val (fun _ => advance ({ k with acc := setAt k.acc acc.toNat ((k.dr dst).extractLsb' 0 8 ++ A.extractLsb' 32 32 ++ A.extractLsb' 0 32 : BitVec 72) })) s))

/-- On a core that runs and stands in its code, a load of readable, naturally aligned bytes puts them, zero- or sign-extended as its kind says, into its register and moves the pointer as its mode says, the loaded pointer winning over the increment; a store writes its saturated value at the address of its mode, moves the pointer, and sets SATF where it saturated; an access that cannot be made ends as a fault at its address. -/
def Obligations.CragLoadsAndStoresResults : Prop :=
  (∀ (s : State) (core : Fin 33) (reg : BitVec 5) (ptr : BitVec 4) (m : AddrMode) (v : List Byte), (cragRuns s core.val = true ∧ inCode s core.val (getCore s core.val) = true ∧ cragRead s core.val (getCore s core.val) (cragAddr (getCore s core.val) ptr m 1).1.toNat 1 = some v) →
    exec (.ldBu core reg ptr m) s = .next (let k := getCore s core.val; onCore core.val (fun _ => advance ((k.setP ptr (cragAddr k ptr m 1).2).setD reg (BitVec.ofNat 32 (unLe v)))) s)) ∧
  (∀ (s : State) (core : Fin 33) (reg : BitVec 5) (ptr : BitVec 4) (m : AddrMode) (v : List Byte), (cragRuns s core.val = true ∧ inCode s core.val (getCore s core.val) = true ∧ cragRead s core.val (getCore s core.val) (cragAddr (getCore s core.val) ptr m 1).1.toNat 1 = some v) →
    exec (.ldB core reg ptr m) s = .next (let k := getCore s core.val; onCore core.val (fun _ => advance ((k.setP ptr (cragAddr k ptr m 1).2).setD reg (BitVec.ofInt 32 (signed 8 (unLe v))))) s)) ∧
  (∀ (s : State) (core : Fin 33) (reg : BitVec 5) (ptr : BitVec 4) (m : AddrMode) (v : List Byte), (cragRuns s core.val = true ∧ inCode s core.val (getCore s core.val) = true ∧ cragRead s core.val (getCore s core.val) (cragAddr (getCore s core.val) ptr m 2).1.toNat 2 = some v) →
    exec (.ldHu core reg ptr m) s = .next (let k := getCore s core.val; onCore core.val (fun _ => advance ((k.setP ptr (cragAddr k ptr m 2).2).setD reg (BitVec.ofNat 32 (unLe v)))) s)) ∧
  (∀ (s : State) (core : Fin 33) (reg : BitVec 5) (ptr : BitVec 4) (m : AddrMode) (v : List Byte), (cragRuns s core.val = true ∧ inCode s core.val (getCore s core.val) = true ∧ cragRead s core.val (getCore s core.val) (cragAddr (getCore s core.val) ptr m 2).1.toNat 2 = some v) →
    exec (.ldH core reg ptr m) s = .next (let k := getCore s core.val; onCore core.val (fun _ => advance ((k.setP ptr (cragAddr k ptr m 2).2).setD reg (BitVec.ofInt 32 (signed 16 (unLe v))))) s)) ∧
  (∀ (s : State) (core : Fin 33) (reg : BitVec 5) (ptr : BitVec 4) (m : AddrMode) (v : List Byte), (cragRuns s core.val = true ∧ inCode s core.val (getCore s core.val) = true ∧ cragRead s core.val (getCore s core.val) (cragAddr (getCore s core.val) ptr m 4).1.toNat 4 = some v) →
    exec (.ldW core reg ptr m) s = .next (let k := getCore s core.val; onCore core.val (fun _ => advance ((k.setP ptr (cragAddr k ptr m 4).2).setD reg (BitVec.ofNat 32 (unLe v)))) s)) ∧
  (∀ (s : State) (core : Fin 33) (reg : BitVec 4) (ptr : BitVec 4) (m : AddrMode) (v : List Byte), (cragRuns s core.val = true ∧ inCode s core.val (getCore s core.val) = true ∧ cragRead s core.val (getCore s core.val) (cragAddr (getCore s core.val) ptr m 4).1.toNat 4 = some v) →
    exec (.ldP core reg ptr m) s = .next (let k := getCore s core.val; onCore core.val (fun _ => advance ((k.setP ptr (cragAddr k ptr m 4).2).setP reg (BitVec.ofNat 32 (unLe v)))) s)) ∧
  (∀ (s : State) (core : Fin 33) (reg : BitVec 3) (ptr : BitVec 4) (m : AddrMode) (v : List Byte), (cragRuns s core.val = true ∧ inCode s core.val (getCore s core.val) = true ∧ cragRead s core.val (getCore s core.val) (cragAddr (getCore s core.val) ptr m 8).1.toNat 8 = some v) →
    exec (.ldA core reg ptr m) s = .next (let k := getCore s core.val; onCore core.val (fun _ => advance ((k.setP ptr (cragAddr k ptr m 8).2).setA reg (signed 64 (unLe v)))) s)) ∧
  (∀ (s : State) (core : Fin 33) (reg : BitVec 5) (ptr : BitVec 4) (m : AddrMode), (cragRuns s core.val = true ∧ inCode s core.val (getCore s core.val) = true ∧ cragRead s core.val (getCore s core.val) (cragAddr (getCore s core.val) ptr m 4).1.toNat 4 = none) →
    exec (.ldW core reg ptr m) s = .next (cragFault core.val (cragAddr (getCore s core.val) ptr m 4).1 s)) ∧
  (∀ (s : State) (core : Fin 33) (reg : BitVec 5) (ptr : BitVec 4) (m : AddrMode) (j : Core) (t : State), (cragRuns s core.val = true ∧ inCode s core.val (getCore s core.val) = true ∧ cragWrite core.val (cragAddr (getCore s core.val) ptr m 1).1.toNat (let k := getCore s core.val; leI 1 (max (0) (min (255) ((k.dr reg).toInt)))) (getCore s core.val) s = some (j, t)) →
    exec (.stB core reg ptr m) s = .next (let k := getCore s core.val; onCore core.val (fun _ => advance ((j.setP ptr (cragAddr k ptr m 1).2).stick 7 (decide ((k.dr reg).toInt ≠ max (0) (min (255) ((k.dr reg).toInt)))))) t)) ∧
  (∀ (s : State) (core : Fin 33) (reg : BitVec 5) (ptr : BitVec 4) (m : AddrMode) (j : Core) (t : State), (cragRuns s core.val = true ∧ inCode s core.val (getCore s core.val) = true ∧ cragWrite core.val (cragAddr (getCore s core.val) ptr m 2).1.toNat (let k := getCore s core.val; leI 2 (max (-(2 ^ 15)) (min (2 ^ 15 - 1) ((k.dr reg).toInt)))) (getCore s core.val) s = some (j, t)) →
    exec (.stH core reg ptr m) s = .next (let k := getCore s core.val; onCore core.val (fun _ => advance ((j.setP ptr (cragAddr k ptr m 2).2).stick 7 (decide ((k.dr reg).toInt ≠ max (-(2 ^ 15)) (min (2 ^ 15 - 1) ((k.dr reg).toInt)))))) t)) ∧
  (∀ (s : State) (core : Fin 33) (reg : BitVec 5) (ptr : BitVec 4) (m : AddrMode) (j : Core) (t : State), (cragRuns s core.val = true ∧ inCode s core.val (getCore s core.val) = true ∧ cragWrite core.val (cragAddr (getCore s core.val) ptr m 2).1.toNat (let k := getCore s core.val; leI 2 (max (0) (min (65535) ((k.dr reg).toInt)))) (getCore s core.val) s = some (j, t)) →
    exec (.stHu core reg ptr m) s = .next (let k := getCore s core.val; onCore core.val (fun _ => advance ((j.setP ptr (cragAddr k ptr m 2).2).stick 7 (decide ((k.dr reg).toInt ≠ max (0) (min (65535) ((k.dr reg).toInt)))))) t)) ∧
  (∀ (s : State) (core : Fin 33) (reg : BitVec 5) (ptr : BitVec 4) (m : AddrMode) (j : Core) (t : State), (cragRuns s core.val = true ∧ inCode s core.val (getCore s core.val) = true ∧ cragWrite core.val (cragAddr (getCore s core.val) ptr m 4).1.toNat (let k := getCore s core.val; leI 4 ((k.dr reg).toInt)) (getCore s core.val) s = some (j, t)) →
    exec (.stW core reg ptr m) s = .next (let k := getCore s core.val; onCore core.val (fun _ => advance ((j.setP ptr (cragAddr k ptr m 4).2))) t)) ∧
  (∀ (s : State) (core : Fin 33) (reg : BitVec 4) (ptr : BitVec 4) (m : AddrMode) (j : Core) (t : State), (cragRuns s core.val = true ∧ inCode s core.val (getCore s core.val) = true ∧ cragWrite core.val (cragAddr (getCore s core.val) ptr m 4).1.toNat (let k := getCore s core.val; leI 4 ((k.pr reg).toInt)) (getCore s core.val) s = some (j, t)) →
    exec (.stP core reg ptr m) s = .next (let k := getCore s core.val; onCore core.val (fun _ => advance ((j.setP ptr (cragAddr k ptr m 4).2))) t)) ∧
  (∀ (s : State) (core : Fin 33) (reg : BitVec 3) (ptr : BitVec 4) (m : AddrMode) (j : Core) (t : State), (cragRuns s core.val = true ∧ inCode s core.val (getCore s core.val) = true ∧ cragWrite core.val (cragAddr (getCore s core.val) ptr m 8).1.toNat (let k := getCore s core.val; leI 8 (max (-(2 ^ 63)) (min (2 ^ 63 - 1) (k.ac reg)))) (getCore s core.val) s = some (j, t)) →
    exec (.stA core reg ptr m) s = .next (let k := getCore s core.val; onCore core.val (fun _ => advance ((j.setP ptr (cragAddr k ptr m 8).2).stick 7 (decide (k.ac reg ≠ max (-(2 ^ 63)) (min (2 ^ 63 - 1) (k.ac reg)))))) t)) ∧
  (∀ (s : State) (core : Fin 33) (reg : BitVec 5) (ptr : BitVec 4) (m : AddrMode) (j : Core) (t : State), (cragRuns s core.val = true ∧ inCode s core.val (getCore s core.val) = true ∧ cragWrite core.val (cragAddr (getCore s core.val) ptr m 2).1.toNat (let k := getCore s core.val; leI 2 (max (-(2 ^ 15)) (min (2 ^ 15 - 1) (roundBy k.rnd (k.dr reg).toInt 16)))) (getCore s core.val) s = some (j, t)) →
    exec (.stHf core reg ptr m) s = .next (let k := getCore s core.val; onCore core.val (fun _ => advance ((j.setP ptr (cragAddr k ptr m 2).2).stick 7 (decide (roundBy k.rnd (k.dr reg).toInt 16 ≠ max (-(2 ^ 15)) (min (2 ^ 15 - 1) (roundBy k.rnd (k.dr reg).toInt 16)))))) t)) ∧
  (∀ (s : State) (core : Fin 33) (reg : BitVec 5) (ptr : BitVec 4) (m : AddrMode), (cragRuns s core.val = true ∧ inCode s core.val (getCore s core.val) = true ∧ core.val ≠ 32 ∧ (cragAddr (getCore s core.val) ptr m 4).1.toNat % 4 = 0 ∧ (cragAddr (getCore s core.val) ptr m 4).1.toNat < 0x1C000) →
    exec (.stW core reg ptr m) s = .next (let k := getCore s core.val; onCore core.val (fun _ => advance ({ k with mem := memWrite k.mem (cragAddr k ptr m 4).1.toNat (leI 4 (k.dr reg).toInt), p := setAt k.p ptr.toNat (cragAddr k ptr m 4).2 })) s)) ∧
  (∀ (s : State) (core : Fin 33) (reg : BitVec 5) (ptr : BitVec 4) (m : AddrMode), (cragRuns s core.val = true ∧ inCode s core.val (getCore s core.val) = true ∧ cragWrite core.val (cragAddr (getCore s core.val) ptr m 4).1.toNat (leI 4 ((getCore s core.val).dr reg).toInt) (getCore s core.val) s = none) →
    exec (.stW core reg ptr m) s = .next (cragFault core.val (cragAddr (getCore s core.val) ptr m 4).1 s))

/-- On a core that runs and stands in its code, a branch whose condition holds jumps and ends the loop levels that do not hold its target; one whose condition does not hold goes on. CALL and CALLR push a frame and jump; RET with the entry's lk ends the dispatch, and else restores the frame. LOOP opens a level, or skips its body where its count is 0. MFS and MTS read and write the special registers, SETRND the rounding. CSRR, CSRW, RFE, WAIT and FENCE act on Summit in privileged mode. A control instruction at the end of a loop, a privileged one elsewhere and an undefined word end as faults; on a core that does not run nothing happens. -/
def Obligations.CragControlFlowResults : Prop :=
  (∀ (s : State) (core : Fin 33) (cond : BitVec 4) (off : BitVec 24), (cragRuns s core.val = true ∧ inCode s core.val (getCore s core.val) = true ∧ atLoopEnd (getCore s core.val) = false ∧ condHolds (getCore s core.val) cond = some true) →
    exec (.branch core cond off) s = .next (let k := getCore s core.val; onCore core.val (fun _ => jumpTo k (k.pc + BitVec.ofInt 32 (4 * off.toInt))) s)) ∧
  (∀ (s : State) (core : Fin 33) (cond : BitVec 4) (off : BitVec 24), (cragRuns s core.val = true ∧ inCode s core.val (getCore s core.val) = true ∧ atLoopEnd (getCore s core.val) = false ∧ condHolds (getCore s core.val) cond = some false) →
    exec (.branch core cond off) s = .next (let k := getCore s core.val; onCore core.val (fun _ => advance (k)) s)) ∧
  (∀ (s : State) (core : Fin 33) (cond : BitVec 4) (off : BitVec 24), (cragRuns s core.val = true ∧ inCode s core.val (getCore s core.val) = true ∧ atLoopEnd (getCore s core.val) = true) →
    exec (.branch core cond off) s = .next (cragFault core.val (getCore s core.val).pc s)) ∧
  (∀ (s : State) (core : Fin 33) (cond : BitVec 4) (off : BitVec 24), (cragRuns s core.val = false) →
    exec (.branch core cond off) s = .next (s)) ∧
  (∀ (s : State) (core : Fin 33) (off : BitVec 12) (mask : W16) (j : Core) (t : State), (cragRuns s core.val = true ∧ inCode s core.val (getCore s core.val) = true ∧ atLoopEnd (getCore s core.val) = false ∧ ((getCore s core.val).pr 15).toNat % 4 = 0 ∧ (let k := getCore s core.val; let regs := maskRegs mask; cragWords core.val (k.pr 15 - BitVec.ofNat 32 (8 + 4 * regs.length)).toNat ([k.lk, mask.setWidth 32] ++ regs.map fun i => k.d.getD (16 + i) 0) k s = some (j, t))) →
    exec (.call core off mask) s = .next (let k := getCore s core.val; onCore core.val (fun _ => { j.setP 15 (k.pr 15 - BitVec.ofNat 32 (8 + 4 * (maskRegs mask).length)) with lk := k.pc + 4, pc := k.pc + BitVec.ofInt 32 (4 * off.toInt) }) t)) ∧
  (∀ (s : State) (core : Fin 33) (ptr : BitVec 4) (mask : W16) (j : Core) (t : State), (cragRuns s core.val = true ∧ inCode s core.val (getCore s core.val) = true ∧ atLoopEnd (getCore s core.val) = false ∧ ((getCore s core.val).pr 15).toNat % 4 = 0 ∧ (let k := getCore s core.val; let regs := maskRegs mask; cragWords core.val (k.pr 15 - BitVec.ofNat 32 (8 + 4 * regs.length)).toNat ([k.lk, mask.setWidth 32] ++ regs.map fun i => k.d.getD (16 + i) 0) k s = some (j, t))) →
    exec (.callr core ptr mask) s = .next (let k := getCore s core.val; onCore core.val (fun _ => { j.setP 15 (k.pr 15 - BitVec.ofNat 32 (8 + 4 * (maskRegs mask).length)) with lk := k.pc + 4, pc := k.pr ptr }) t)) ∧
  (∀ (s : State) (core : Fin 33) (mask : W16), (cragRuns s core.val = true ∧ inCode s core.val (getCore s core.val) = true ∧ atLoopEnd (getCore s core.val) = false ∧ core.val ≠ 32 ∧ (getCore s core.val).lk = 0xFFFFFFF0 ∧ mask = 0) →
    exec (.ret core mask) s = .next (let k := getCore s core.val; onCore core.val (fun _ => { k with run := k.run.map fun d => { d with returned := true } }) s)) ∧
  (∀ (s : State) (core : Fin 33) (mask : W16) (q : W32), (cragRuns s core.val = true ∧ inCode s core.val (getCore s core.val) = true ∧ atLoopEnd (getCore s core.val) = false ∧ (getCore s core.val).lk ≠ 0xFFFFFFF0 ∧ mask = 0 ∧ readWords s core.val ((getCore s core.val).pr 15).toNat (getCore s core.val) 2 = some [q, 0]) →
    exec (.ret core mask) s = .next (let k := getCore s core.val; onCore core.val (fun _ => jumpTo { k.setP 15 (k.pr 15 + 8) with lk := q } k.lk) s)) ∧
  (∀ (s : State) (core : Fin 33) (ptr : BitVec 4), (cragRuns s core.val = true ∧ inCode s core.val (getCore s core.val) = true ∧ atLoopEnd (getCore s core.val) = false) →
    exec (.br core ptr) s = .next (let k := getCore s core.val; onCore core.val (fun _ => jumpTo k (k.pr ptr)) s)) ∧
  (∀ (s : State) (core : Fin 33) (count : LoopCount) (last : W16) (n : BitVec 11), (cragRuns s core.val = true ∧ inCode s core.val (getCore s core.val) = true ∧ atLoopEnd (getCore s core.val) = false ∧ last ≠ 0 ∧ (getCore s core.val).depth = 0 ∧ count = .imm n ∧ n ≠ 0) →
    exec (.loop core count last) s = .next (let k := getCore s core.val; onCore core.val (fun _ => { { k with ls := setAt k.ls 0 (k.pc + 4), le := setAt k.le 0 (k.pc + BitVec.ofNat 32 (4 * last.toNat)), lc := setAt k.lc 0 (n.setWidth 32) }.setDepth 1 with pc := k.pc + 4 }) s)) ∧
  (∀ (s : State) (core : Fin 33) (count : LoopCount) (last : W16) (r : BitVec 5), (cragRuns s core.val = true ∧ inCode s core.val (getCore s core.val) = true ∧ atLoopEnd (getCore s core.val) = false ∧ last ≠ 0 ∧ (getCore s core.val).depth = 0 ∧ count = .reg r ∧ (getCore s core.val).dr r = 0) →
    exec (.loop core count last) s = .next (let k := getCore s core.val; onCore core.val (fun _ => { k with ls := setAt k.ls 0 (k.pc + 4), le := setAt k.le 0 (k.pc + BitVec.ofNat 32 (4 * last.toNat)), lc := setAt k.lc 0 0, pc := k.pc + BitVec.ofNat 32 (4 * last.toNat) + 4 }) s)) ∧
  (∀ (s : State) (core : Fin 33) (count : LoopCount) (last : W16), (cragRuns s core.val = true ∧ inCode s core.val (getCore s core.val) = true ∧ atLoopEnd (getCore s core.val) = false ∧ (getCore s core.val).depth = 3) →
    exec (.loop core count last) s = .next (cragFault core.val (getCore s core.val).pc s)) ∧
  (∀ (s : State) (core : Fin 33) (reg : BitVec 5) (spec : BitVec 5) (v : W32), (cragRuns s core.val = true ∧ inCode s core.val (getCore s core.val) = true ∧ special (getCore s core.val) spec.toNat = some v) →
    exec (.mfs core reg spec) s = .next (let k := getCore s core.val; onCore core.val (fun _ => advance (k.setD reg v)) s)) ∧
  (∀ (s : State) (core : Fin 33) (reg : BitVec 5) (spec : BitVec 5), (cragRuns s core.val = true ∧ inCode s core.val (getCore s core.val) = true ∧ 10 < spec.toNat ∧ (getCore s core.val).lc.length = 3) →
    exec (.mfs core reg spec) s = .next (cragFault core.val (getCore s core.val).pc s)) ∧
  (∀ (s : State) (core : Fin 33) (reg : BitVec 5) (spec : BitVec 5), (cragRuns s core.val = true ∧ inCode s core.val (getCore s core.val) = true ∧ spec = 1) →
    exec (.mts core reg spec) s = .next (let k := getCore s core.val; onCore core.val (fun _ => { advance k with lk := k.dr reg }) s)) ∧
  (∀ (s : State) (core : Fin 33) (reg : BitVec 5) (spec : BitVec 5), (cragRuns s core.val = true ∧ inCode s core.val (getCore s core.val) = true ∧ spec = 0) →
    exec (.mts core reg spec) s = .next (let k := getCore s core.val; let j := advance k; let v := k.dr reg; onCore core.val (fun _ => { j with st := (j.st &&& 0xFFFFFFC0 &&& ~~~(v &&& 0xC0)) ||| (v &&& 0x3F) }) s)) ∧
  (∀ (s : State) (core : Fin 33), (cragRuns s core.val = true ∧ inCode s core.val (getCore s core.val) = true) →
    exec (.nop core) s = .next (let k := getCore s core.val; onCore core.val (fun _ => advance (k)) s)) ∧
  (∀ (s : State) (core : Fin 33) (rnd : BitVec 2), (cragRuns s core.val = true ∧ inCode s core.val (getCore s core.val) = true) →
    exec (.setrnd core rnd) s = .next (let k := getCore s core.val; onCore core.val (fun _ => advance ({ k with st := (k.st &&& 0xFFFFFFCF) ||| BitVec.ofNat 32 (16 * rnd.toNat) })) s)) ∧
  (∀ (s : State) (core : Fin 33) (reg : BitVec 5) (csr : W16), (core.val = 32 ∧ cragRuns s 32 = true ∧ (getCore s 32).priv = true) →
    exec (.csrr core reg csr) s = .next (let k := getCore s 32; onCore 32 (fun _ => advance (k.setD reg (Tab.getD k.csr csr.toNat 0))) s)) ∧
  (∀ (s : State) (core : Fin 33) (reg : BitVec 5) (csr : W16), (core.val = 32 ∧ cragRuns s 32 = true ∧ (getCore s 32).priv = true) →
    exec (.csrw core reg csr) s = .next (let k := getCore s 32; onCore 32 (fun _ => advance ({ k with csr := Tab.set k.csr csr.toNat (k.dr reg) })) s)) ∧
  (∀ (s : State) (core : Fin 33), (core.val = 32 ∧ cragRuns s 32 = true ∧ (getCore s 32).priv = true) →
    exec (.rfe core) s = .next (let k := getCore s 32; onCore 32 (fun _ => { k.setSt 31 k.epriv with pc := k.epc }) s)) ∧
  (∀ (s : State) (core : Fin 33), (core.val = 32 ∧ cragRuns s 32 = true ∧ (getCore s 32).priv = true) →
    exec (.wait core) s = .next (let k := getCore s 32; onCore 32 (fun _ => advance (k)) { s with evt := { s.evt with asleep := true } })) ∧
  (∀ (s : State) (core : Fin 33), (core.val = 32 ∧ cragRuns s 32 = true ∧ (getCore s 32).priv = true) →
    exec (.fence core) s = .next (let k := getCore s 32; onCore 32 (fun _ => advance (k)) s)) ∧
  (∀ (s : State) (core : Fin 33) (reg : BitVec 5) (csr : W16), (cragRuns s core.val = true ∧ inCode s core.val (getCore s core.val) = true ∧ core.val ≠ 32) →
    exec (.csrr core reg csr) s = .next (cragFault core.val (getCore s core.val).pc s)) ∧
  (∀ (s : State) (core : Fin 33) (reg : BitVec 5) (csr : W16), (cragRuns s core.val = true ∧ inCode s core.val (getCore s core.val) = true ∧ core.val ≠ 32) →
    exec (.csrw core reg csr) s = .next (cragFault core.val (getCore s core.val).pc s)) ∧
  (∀ (s : State) (core : Fin 33), (cragRuns s core.val = true ∧ inCode s core.val (getCore s core.val) = true ∧ core.val ≠ 32) →
    exec (.rfe core) s = .next (cragFault core.val (getCore s core.val).pc s)) ∧
  (∀ (s : State) (core : Fin 33), (cragRuns s core.val = true ∧ inCode s core.val (getCore s core.val) = true ∧ core.val ≠ 32) →
    exec (.wait core) s = .next (cragFault core.val (getCore s core.val).pc s)) ∧
  (∀ (s : State) (core : Fin 33), (cragRuns s core.val = true ∧ inCode s core.val (getCore s core.val) = true ∧ core.val ≠ 32) →
    exec (.fence core) s = .next (cragFault core.val (getCore s core.val).pc s)) ∧
  (∀ (s : State) (core : Fin 33), (core.val = 32 ∧ cragRuns s 32 = true ∧ (getCore s 32).priv = false) →
    exec (.rfe core) s = .next (onCore 32 summitException s)) ∧
  (∀ (s : State) (core : Fin 33) (word : W32), (cragRuns s core.val = true ∧ inCode s core.val (getCore s core.val) = true ∧ cragDecode core word.toNat = none) →
    exec (.undefinedEncoding core word) s = .next (cragFault core.val (getCore s core.val).pc s)) ∧
  (∀ (s : State) (core : Fin 33) (word : W32), (core.val = 32 ∧ cragRuns s 32 = true ∧ cragDecode core word.toNat = none) →
    exec (.undefinedEncoding core word) s = .next (onCore 32 summitException s))

/-- A step runs the command at the front of the queue, on the state whose queue is the rest. -/
def Obligations.StepRunsFrontCommand : Prop :=
  ∀ (s : State) (c : Instr) (rest : List Instr), s.pending = c :: rest → step s = exec c { s with pending := rest }

/-- With an empty queue a step answers a next state in which only two things have gone on: the time-of-day counter, by INCR modulo 2^96, where it runs and the mode is not VIGIL; and, with VDD_AON up, the keeper, by 64 parts of the 1,953,125 of its tick. That an empty queue means one tick is the model's choice (log entry 7). -/
def Obligations.IdleStepIsOneTick : Prop :=
  ∀ s : State, s.pending = [] → ∃ u, step s = .next u ∧ Framed [.cad, .clk] s u ∧
    u.cad = (if s.cad.run = true ∧ s.modes.mode ≠ 3 then { s.cad with tod := (s.cad.tod + s.cad.incr) % 2 ^ 96 } else s.cad) ∧
    u.clk = (if s.pwr.vddAon = true then
      { s.clk with keeper := (s.clk.keeper + (s.clk.keeperPart + 64) / 1953125) % 2 ^ 48, keeperPart := (s.clk.keeperPart + 64) % 1953125 } else s.clk)

/-- The reset state is in HOLD (mode 1) with RESET_N low; its status page reads the reset values of R123; its mailbox pages are IDLE, or NO_SUPERVISOR while no supervisor runs, with MSIX_VEC their own number and no interrupt enabled; its time of day is 0, INCR is 1.0, the cadence is ACQUIRING with an unknown bound; no command waits and nothing has been emitted. That RESET_N is low with the supplies up is the model's choice of the state (log entry 1). -/
def Obligations.ResetStateOfThePage : Prop :=
  State.reset.pending = [] ∧ State.reset.out = [] ∧ State.reset.drawn = 0 ∧ State.reset.modes.mode = 1 ∧ State.reset.modes.target = 1 ∧
  State.reset.modes.trans = none ∧ State.reset.pwr.resetN = false ∧
  statusBytes State.reset = [0x00, 0x80, 0x24, 0x00] ++ [0, 0, 0, 0] ++ [0, 0, 0, 0] ++ [0, 0, 0, 0] ++ [0, 0, 0, 0] ∧
  (∀ mb : Fin 4, (getPage State.reset mb.val).busy = false ∧ (getPage State.reset mb.val).done = false ∧ (getPage State.reset mb.val).irqEn = false ∧
    (getPage State.reset mb.val).vec = BitVec.ofNat 7 mb.val ∧ (getPage State.reset mb.val).hostWriteEn = false ∧ mbState State.reset mb.val = 3) ∧
  State.reset.cad.tod = 0 ∧ State.reset.cad.incr = 0x100000000 ∧ State.reset.cad.state = 0 ∧ State.reset.cad.errBound = 0xFFFFFFFF ∧
  State.reset.boot.phase = .idle ∧ State.reset.flt.summitRun = false

/-- The reset state meets the invariant: sparse memories in canonical form, legal mode codes, four mailbox pages, eight domains, 29 fault counters, 36 sensors. -/
def Obligations.ResetMeetsInvariant : Prop :=
  Inv State.reset

/-- Whatever command is at the front of the queue (or none), from every state that meets the invariant a step that answers a next state leads to one that meets it: MRAM, the staging buffer, the push windows and the freeze record stay in canonical form, the mode and the modes that a transition, an autostart or a wake lead to stay mode codes of R153, and there stay four mailbox pages, eight domains, 29 fault counters and 36 sensors. -/
def Obligations.EveryStepKeepsInvariant : Prop :=
  ∀ s t : State, Inv s → step s = .next t → Inv t

/-- In every state, reachable or not, a step answers a next state: no command, operand or condition stops the machine. An event that cannot happen in a state leaves it unchanged (log entry 20). -/
def Obligations.EveryStepCompletes : Prop :=
  ∀ s : State, Completes s

/-- From every state, a command that answers a next state leaves the queue of the commands that wait as it is, and the count of open values drawn does not fall: no drawn value is used twice. -/
def Obligations.CommandsLeaveTheQueue : Prop :=
  ∀ (c : Instr) (s t : State), exec c s = .next t → t.pending = s.pending ∧ s.drawn ≤ t.drawn

/-- From every state whose lock fuse is blown, every step that answers a next state, a supply failing or returning and a restart among them, leaves it blown. -/
def Obligations.LockFuseStaysBlown : Prop :=
  ∀ s t : State, s.cipher.locked = true → step s = .next t → t.cipher.locked = true

/-- A response to a command of the host or the service port that asks for no notification leaves STATUS, SEQ, LENGTH, the reserved fields, EFFECTIVE_BEAT and the data at the offsets of R113 in RSP, LAST_SEQ the doorbell's value, and the page DONE and no longer BUSY. Its other fields, the other pages and the pending long commands stay. Where the page's interrupt is enabled its vector is raised, or its pending bit set where the vector is masked. Nothing else changes. A deferred response changes nothing. -/
def Obligations.ResponsePosted : Prop :=
  (∀ (c : Cmd) (a : Ans) (s : State), a.later = true → post c a s = s) ∧
  (∀ (c : Cmd) (a : Ans) (s : State), a.later = false → c.path ≠ .replay → c.path ≠ .ring → c.mb < s.mbx.pages.length → c.flags.getLsbD 0 = false →
    let r := le 2 a.status ++ le 2 c.seq.toNat ++ le 2 a.data.length ++ [0, 0] ++
      le 6 (if a.status = 0 then (curBeat s + if a.air then 3 else 0) % 2 ^ 48 else 0xFFFFFFFFFFFF) ++ [0, 0] ++ a.data
    let u := post c a s
    getPage u c.mb = { getPage s c.mb with rsp := patch (getPage s c.mb).rsp 0 r, lastSeq := c.seq, busy := false, done := true } ∧
      (∀ o, o ≠ c.mb → getPage u o = getPage s o) ∧ u.mbx.longs = s.mbx.longs ∧
      Framed (if (getPage s c.mb).irqEn then [.mbx, .host, .out] else [.mbx]) s u ∧
      ((getPage s c.mb).irqEn = true → (Tab.getD s.host.msixTable (4 * (getPage s c.mb).vec.toNat + 3) 0).getLsbD 0 = false →
        u.out = .msix (getPage s c.mb).vec.toNat :: s.out ∧ u.host = s.host) ∧
      ((getPage s c.mb).irqEn = true → (Tab.getD s.host.msixTable (4 * (getPage s c.mb).vec.toNat + 3) 0).getLsbD 0 = true →
        u.out = s.out ∧ u.host = { s.host with msixPend := s.host.msixPend ||| (1 <<< (getPage s c.mb).vec.toNat : BitVec 128) }))

/-- For every opcode that no command has, written with a well-formed header into an idle mailbox that the path reaches while Summit runs, in every mode: the next state is the one in which the command has been copied, with E_ARG_RANGE posted, and nothing else. -/
def Obligations.UndefinedOpcodeAnswered : Prop :=
  (∀ (s : State) (op : W16) (d : Doorbell) (p : List Byte), (specOf op.toNat = none ∧ Ready { op := op.toNat, diag := true, body := fun _ s => (eArg, s) } d p s) →
    exec (.undefinedOpcode op d p) s = .next (post (cmdOf { op := op.toNat, diag := true, body := fun _ s => (eArg, s) } d p s) eArg (copied { op := op.toNat, diag := true, body := fun _ s => (eArg, s) } d p s)))

/-- For every row that writes a command into a mailbox, from every state: where the path does not reach the mailbox, no page changes; while the page is BUSY and Summit runs, OVERRUN is set and counted and nothing starts; else, on an idle page with Summit running, a doorbell that differs from the header's SEQ sets SEQ_MISMATCH and is answered E_ARG_RANGE; a bad header or a reserved field that is not 0, E_ARG_RANGE; before BOOT-ready or in a transition, E_BUSY but for diagnostic reads; in a mode that does not permit it, E_STATE; with a FAILED domain that it needs, E_DOMAIN_FAILED with the domain. In each of these cases the state is the one in which the command has been copied, with the answer posted. -/
def Obligations.CommandsTurnedAway : Prop :=
  ∀ (i : Instr) (o : OpSpec) (d : Doorbell) (p : List Byte) (s : State), sent i = some (o, d, p) →
  (mayWrite d.mb.val d.path s = false → ∃ u, exec i s = .next u ∧ Framed [.mbx, .flt] s u ∧ u.mbx.pages = s.mbx.pages ∧ u.mbx.longs = s.mbx.longs) ∧
  (mayWrite d.mb.val d.path s = true → d.mb.val < s.mbx.pages.length → s.flt.summitRun = true → (getPage s d.mb.val).busy = true →
    ∃ u, exec i s = .next u ∧ Framed [.mbx, .flt, .evt] s u ∧ (getPage u d.mb.val).overrun = true ∧ (getPage u d.mb.val).busy = true ∧
      (getPage u d.mb.val).rsp = (getPage s d.mb.val).rsp ∧ u.mbx.longs = s.mbx.longs ∧
      u.flt.counters = s.flt.counters.modify 26 (fun c => BitVec.ofNat 32 (satAdd 32 c.toNat 1))) ∧
  (mayWrite d.mb.val d.path s = true → d.mb.val < s.mbx.pages.length → s.flt.summitRun = true → (getPage s d.mb.val).busy = false →
    (getPage s d.mb.val).recorded = none →
    (fld (area o d p s) 4 2 ≠ d.value.toNat →
      exec i s = .next (post (cmdOf o d p s) (.err 2) (onPage d.mb.val (fun g => { g with mismatch := true }) (copied o d p s)))) ∧
    (fld (area o d p s) 4 2 = d.value.toNat →
      ((hdrOk (area o d p s) = false ∨ o.rsv (cmdOf o d p s) = false) → exec i s = .next (post (cmdOf o d p s) (.err 2) (copied o d p s))) ∧
      (hdrOk (area o d p s) = true → o.rsv (cmdOf o d p s) = true →
        (o.diag = false → shutOut (cmdOf o d p s) (copied o d p s) = true → exec i s = .next (post (cmdOf o d p s) (.err 7) (copied o d p s))) ∧
        ((o.diag = true ∨ shutOut (cmdOf o d p s) (copied o d p s) = false) →
          (o.modes (cmdOf o d p s) (copied o d p s) = false → exec i s = .next (post (cmdOf o d p s) (.err 3) (copied o d p s))) ∧
          (o.modes (cmdOf o d p s) (copied o d p s) = true → ∀ x, (o.needs (cmdOf o d p s)).find? (fun x => decide ((getDom s x).st = 5)) = some x →
            exec i s = .next (post (cmdOf o d p s) (.err 0x0202 [BitVec.ofNat 8 x]) (copied o d p s)))))))

/-- With VDD_AON up, PWR_OK high and VDD_IO present, a fall of RESET_N, and a fall of PWR_OK, from every mode: the status page reads MODE 1, TARGET_MODE 1, FAULT_ASSERTED 1 and 0 elsewhere. -/
def Obligations.HoldReadsResetPage : Prop :=
  (∀ s : State, s.pwr.vddAon = true → s.pwr.pwrOk = true → s.outs.z = false → (s.pwr.resetN = true →
      ∃ u, exec .resetNFall s = .next u ∧ statusBytes u = le 4 0x248000 ++ le 4 0 ++ le 4 0 ++ le 4 0 ++ le 4 0)) ∧
  (∀ s : State, s.pwr.vddAon = true → s.pwr.pwrOk = true → s.outs.z = false →
      ∃ u, exec .pwrOkFall s = .next u ∧ statusBytes u = le 4 0x248000 ++ le 4 0 ++ le 4 0 ++ le 4 0 ++ le 4 0)

/-- With VDD_AON up and PWR_OK high, a fall of RESET_N leads to HOLD; MRAM holds what it held; the last-gasp write stands where it stood, so none is started. -/
def Obligations.ResetNFallEntersHold : Prop :=
  (∀ (s : State), (s.pwr.vddAon = true ∧ s.pwr.pwrOk = true ∧ s.pwr.resetN = true) →
    Does (exec .resetNFall s) s [.pwr, .outs, .boot, .mbx, .host, .evt, .modes, .flt, .cad, .clk, .fe, .cal, .air, .nb, .mlad, .cls, .fwd, .tm, .cipher, .col, .dram, .ring] fun u => u.modes.mode = 1 ∧ u.pwr.resetN = false ∧ u.boot.mram = s.boot.mram ∧ u.flt.gasp = s.flt.gasp)

/-- PROFILE_SELECT with a profile in range stores it and is answered OK. SYS_RESTART, both stages of the watchdog and the other causes of SAFE leave the selection, from every state and on every path. A fall of RESET_N, of PWR_OK and of VDD_AON loses it. -/
def Obligations.ProfileSelectionLife : Prop :=
  (∀ (s : State) (d : Doorbell) (p : List Byte), Ready specProfileSelect d p s → (cmdOf specProfileSelect d p s).u 16 1 ≤ 3 →
    Answers (exec (.profileSelect d p) s) specProfileSelect d p s [.boot, .mbx, .evt] .ok fun u =>
      u.boot = { s.boot with sel := some (BitVec.ofNat 2 ((cmdOf specProfileSelect d p s).u 16 1)) }) ∧
  (∀ (s t : State) (d : Doorbell) (p : List Byte) (b : Bool) (n : Nat) (v w : W32),
    (exec (.sysRestart d p b) s = .next t ∨ exec (.wdtResetExpiry b) s = .next t ∨ exec .wdtStage1Expiry s = .next t ∨
      exec (.autoRestartExpiry b) s = .next t ∨ exec .safeNAssert s = .next t ∨ exec (.brownout n) s = .next t ∨ exec .refclkRfFail s = .next t ∨
      exec .refclkRfTimeout s = .next t ∨ exec (.thermalShutdown n) s = .next t ∨ exec (.lockstepMismatch v w) s = .next t) →
    t.boot.sel = s.boot.sel) ∧
  (∀ s : State, s.pwr.vddAon = true → s.pwr.pwrOk = true → s.pwr.resetN = true → ∃ u, exec .resetNFall s = .next u ∧ u.boot.sel = none) ∧
  (∀ s : State, s.pwr.vddAon = true → s.pwr.pwrOk = true → ∃ u, exec .pwrOkFall s = .next u ∧ u.boot.sel = none) ∧
  (∀ s : State, s.pwr.vddAon = true → ∃ u, exec .powerOff s = .next u ∧ u.boot.sel = none)

/-- Where nothing turns it away: with PROFILE 0 to 3, COUNT a multiple of 4 from 4 to 480 and OFFSET a multiple of 4 whose range ends within 65,536, the data are the COUNT bytes of MRAM from the profile's base plus OFFSET, whatever they hold; a range past 65,536, a COUNT or OFFSET that is no multiple of 4 and a COUNT out of range are answered E_ARG_RANGE. Its one reserved byte must be 0. Every mode permits it. -/
def Obligations.ProfileReadReturnsTheImage : Prop :=
  (∀ (s : State) (d : Doorbell) (p : List Byte), Ready specProfileRead d p s →
    let c := cmdOf specProfileRead d p s
    (c.u 16 1 ≤ 3 → c.u 18 2 % 4 = 0 → 4 ≤ c.u 18 2 → c.u 18 2 ≤ 480 → c.u 20 4 % 4 = 0 → c.u 20 4 + c.u 18 2 ≤ 65536 →
      Answers (exec (.profileRead d p) s) specProfileRead d p s [.mbx, .evt] (.ok (memRead s.boot.mram (0x10000 * c.u 16 1 + c.u 20 4) (c.u 18 2))) fun _ => True) ∧
    (c.u 18 2 % 4 ≠ 0 ∨ c.u 18 2 < 4 ∨ 480 < c.u 18 2 ∨ c.u 20 4 % 4 ≠ 0 ∨ 65536 < c.u 20 4 + c.u 18 2 →
      Answers (exec (.profileRead d p) s) specProfileRead d p s [.mbx, .evt] (.err 2) fun _ => True)) ∧
  (∀ (c : Cmd) (s : State), specProfileRead.modes c s = true) ∧ specProfileRead.op = 0x0106 ∧
  (∀ c : Cmd, specProfileRead.rsv c = decide (c.u 17 1 = 0))

/-- For every exact value X, every k and every RND: truncate gives the greatest r with r 2^k at most X; round-half-up the greatest r with 2 r 2^k at most 2 X + 2^k; convergent an r nearest to X / 2^k, which is even where two are nearest. RND 3 acts as 2 (R616). MULQ and EXT.W, on a core that runs and stands in its code, saturate what this rounding gives: they round first. -/
def Obligations.DiscardedBitsAreRounded : Prop :=
  (∀ (s : State) (core : Fin 33) (dst srcA : BitVec 5) (b : Src2), (cragRuns s core.val = true ∧ inCode s core.val (getCore s core.val) = true) →
    exec (.mulq core dst srcA b) s = .next (let k := getCore s core.val; let a := k.dr srcA; let y := Src2.value b k; let x : Int := roundBy k.rnd (a.toInt * y.toInt) 31; let c := max (-(2 ^ 31)) (min (2 ^ 31 - 1) x); let v := BitVec.ofInt 32 c; onCore core.val (fun _ => advance ((((k.setSt 0 (decide (v = 0))).setSt 1 (v.getLsbD 31)).stick 7 (decide (x ≠ c))).setD dst v)) s)) ∧
  (∀ (s : State) (core : Fin 33) (dst : BitVec 5) (acc : BitVec 3) (sh : BitVec 6), (cragRuns s core.val = true ∧ inCode s core.val (getCore s core.val) = true) →
    exec (.extW core dst acc sh) s = .next (let k := getCore s core.val; let e : Int := 31 - sh.toInt; let x : Int := if e < 0 then k.ac acc * 2 ^ (-e).toNat else roundBy k.rnd (k.ac acc) e.toNat; let c := max (-(2 ^ 31)) (min (2 ^ 31 - 1) x); onCore core.val (fun _ => advance ((k.setD dst (BitVec.ofInt 32 c)).stick 7 (decide (x ≠ c)))) s)) ∧
  (∀ (x : Int) (k : Nat), roundBy 0 x k * 2 ^ k ≤ x ∧ x < (roundBy 0 x k + 1) * 2 ^ k) ∧
  (∀ (x : Int) (k : Nat), 2 * (roundBy 1 x k * 2 ^ k) ≤ 2 * x + 2 ^ k ∧ 2 * x + 2 ^ k < 2 * ((roundBy 1 x k + 1) * 2 ^ k)) ∧
  (∀ (x : Int) (k : Nat) (m : Nat), 2 ≤ m → (∀ r : Int, (x - roundBy m x k * 2 ^ k).natAbs ≤ (x - r * 2 ^ k).natAbs) ∧
    (∀ r : Int, r ≠ roundBy m x k → (x - r * 2 ^ k).natAbs = (x - roundBy m x k * 2 ^ k).natAbs → roundBy m x k % 2 = 0)) ∧
  (∀ (k : Core), k.rnd = min 2 (k.st.toNat / 16 % 4))

/-- For each store form of class 0x7 on a core that runs and stands in its code, with A the address that its pointer and mode give and n its width: where the access is in a window that can be written, the instruction completes; no other core changes; the core's data registers, accumulators, link register and every pointer but the one used are as before; every byte of its own memory outside A to A + n - 1, and every byte of every kernel's shared window outside the stored ones, reads as before; and no part of the state but Col's changes. -/
def Obligations.StoresTouchOnlyTheirBytes : Prop :=
  ∀ (s : State) (core : Fin 33) (rd : BitVec 5) (rp : BitVec 4) (ra : BitVec 3) (ptr : BitVec 4) (m : AddrMode) (e : Instr × Nat),
    e ∈ [(Instr.stB core rd ptr m, 1), (Instr.stH core rd ptr m, 2), (Instr.stHu core rd ptr m, 2), (Instr.stHf core rd ptr m, 2),
      (Instr.stW core rd ptr m, 4), (Instr.stP core rp ptr m, 4), (Instr.stA core ra ptr m, 8)] →
    cragRuns s core.val = true → inCode s core.val (getCore s core.val) = true →
    (cragWrite core.val (cragAddr (getCore s core.val) ptr m e.2).1.toNat (List.replicate e.2 0) (getCore s core.val) s).isSome = true →
    ∃ u, exec e.1 s = .next u ∧ Framed [.col] s u ∧ (∀ o, o ≠ core.val → getCore u o = getCore s o) ∧
      (getCore u core.val).d = (getCore s core.val).d ∧ (getCore u core.val).acc = (getCore s core.val).acc ∧
      (getCore u core.val).lk = (getCore s core.val).lk ∧ (∀ q, q ≠ ptr → (getCore u core.val).pr q = (getCore s core.val).pr q) ∧
      (let a := (cragAddr (getCore s core.val) ptr m e.2).1.toNat
       (∀ b, ¬ (a ≤ b ∧ b < a + e.2) → Tab.get? (getCore u core.val).mem b = Tab.get? (getCore s core.val).mem b) ∧
       (∀ q x, Tab.get? s.col.kernels q = some x → ∃ y, Tab.get? u.col.kernels q = some y ∧ y.code = x.code ∧
          ∀ b, ¬ (a ≤ b + 0x10000000 ∧ b + 0x10000000 < a + e.2) → memGet y.shared b = memGet x.shared b))

/-- With no active level, or PC not at the end of the innermost one, PC goes on by 4 and nothing else changes. At its end with more than one iteration left, the count falls by one and PC is the level's start. At its end otherwise, its count is 0, the level ends, and the next outer level is tested at the same address. Every ALU, multiply, load and store instruction goes on in this way. -/
def Obligations.LoopEndTest : Prop :=
  (∀ k : Core, (k.depth = 0 ∨ ∃ i, k.depth = i + 1 ∧ k.le.getD i 0 ≠ k.pc) → advance k = { k with pc := k.pc + 4 }) ∧
  (∀ (k : Core) (i : Nat), k.depth = i + 1 → k.le.getD i 0 = k.pc → 1 < (k.lc.getD i 0).toNat →
    advance k = { k with lc := setAt k.lc i (k.lc.getD i 0 - 1), pc := k.ls.getD i 0 }) ∧
  (∀ (k : Core) (i : Nat), k.depth = i + 1 → k.le.getD i 0 = k.pc → (k.lc.getD i 0).toNat ≤ 1 →
    advance k = advance (({ k with lc := setAt k.lc i 0 }).setDepth i))

/-- While Summit runs, an event takes the number after the last one (modulo 2^32), and stands newest in the event log, which keeps the 4,096 newest records, with its code, its payload and its mailbox. While Summit does not run, nothing happens. -/
def Obligations.EventsAreNumbered : Prop :=
  (∀ (code : Nat) (obj : Option Nat) (pl : List Byte) (s : State) (mb : Nat) (q : W16), s.flt.summitRun = true →
    (raise code obj pl s mb q).evt.seq = s.evt.seq + 1 ∧
    ∃ r, (raise code obj pl s mb q).evt.log = (r :: s.evt.log).take 4096 ∧ r.code = code ∧ r.seq = s.evt.seq + 1 ∧ r.payload = pl ∧ r.mailbox = mb ∧ r.cmdSeq = q) ∧
  (∀ (code : Nat) (obj : Option Nat) (pl : List Byte) (s : State) (mb : Nat) (q : W16), s.flt.summitRun = false → raise code obj pl s mb q = s)
end

