-- ==== Sys2Proof/Laws/State.lean ====
section
/-!
SUPPORT. One lemma per part of the state per update.
-/
namespace Sys2Proof.Machine

@[simp] theorem State.onPwr_pending (s : State) (f : Pwr → Pwr) : (s.onPwr f).pending = s.pending := rfl
@[simp] theorem State.onPwr_drawn (s : State) (f : Pwr → Pwr) : (s.onPwr f).drawn = s.drawn := rfl
@[simp] theorem State.onPwr_out (s : State) (f : Pwr → Pwr) : (s.onPwr f).out = s.out := rfl
@[simp] theorem State.onPwr_pwr (s : State) (f : Pwr → Pwr) : (s.onPwr f).pwr = f s.pwr := rfl
@[simp] theorem State.onPwr_outs (s : State) (f : Pwr → Pwr) : (s.onPwr f).outs = s.outs := rfl
@[simp] theorem State.onPwr_boot (s : State) (f : Pwr → Pwr) : (s.onPwr f).boot = s.boot := rfl
@[simp] theorem State.onPwr_mbx (s : State) (f : Pwr → Pwr) : (s.onPwr f).mbx = s.mbx := rfl
@[simp] theorem State.onPwr_host (s : State) (f : Pwr → Pwr) : (s.onPwr f).host = s.host := rfl
@[simp] theorem State.onPwr_evt (s : State) (f : Pwr → Pwr) : (s.onPwr f).evt = s.evt := rfl
@[simp] theorem State.onPwr_modes (s : State) (f : Pwr → Pwr) : (s.onPwr f).modes = s.modes := rfl
@[simp] theorem State.onPwr_flt (s : State) (f : Pwr → Pwr) : (s.onPwr f).flt = s.flt := rfl
@[simp] theorem State.onPwr_cad (s : State) (f : Pwr → Pwr) : (s.onPwr f).cad = s.cad := rfl
@[simp] theorem State.onPwr_clk (s : State) (f : Pwr → Pwr) : (s.onPwr f).clk = s.clk := rfl
@[simp] theorem State.onPwr_fe (s : State) (f : Pwr → Pwr) : (s.onPwr f).fe = s.fe := rfl
@[simp] theorem State.onPwr_cal (s : State) (f : Pwr → Pwr) : (s.onPwr f).cal = s.cal := rfl
@[simp] theorem State.onPwr_air (s : State) (f : Pwr → Pwr) : (s.onPwr f).air = s.air := rfl
@[simp] theorem State.onPwr_nb (s : State) (f : Pwr → Pwr) : (s.onPwr f).nb = s.nb := rfl
@[simp] theorem State.onPwr_mlad (s : State) (f : Pwr → Pwr) : (s.onPwr f).mlad = s.mlad := rfl
@[simp] theorem State.onPwr_cls (s : State) (f : Pwr → Pwr) : (s.onPwr f).cls = s.cls := rfl
@[simp] theorem State.onPwr_fwd (s : State) (f : Pwr → Pwr) : (s.onPwr f).fwd = s.fwd := rfl
@[simp] theorem State.onPwr_tm (s : State) (f : Pwr → Pwr) : (s.onPwr f).tm = s.tm := rfl
@[simp] theorem State.onPwr_cipher (s : State) (f : Pwr → Pwr) : (s.onPwr f).cipher = s.cipher := rfl
@[simp] theorem State.onPwr_col (s : State) (f : Pwr → Pwr) : (s.onPwr f).col = s.col := rfl
@[simp] theorem State.onPwr_dram (s : State) (f : Pwr → Pwr) : (s.onPwr f).dram = s.dram := rfl
@[simp] theorem State.onPwr_ring (s : State) (f : Pwr → Pwr) : (s.onPwr f).ring = s.ring := rfl
@[simp] theorem State.onOuts_pending (s : State) (f : Outs → Outs) : (s.onOuts f).pending = s.pending := rfl
@[simp] theorem State.onOuts_drawn (s : State) (f : Outs → Outs) : (s.onOuts f).drawn = s.drawn := rfl
@[simp] theorem State.onOuts_out (s : State) (f : Outs → Outs) : (s.onOuts f).out = s.out := rfl
@[simp] theorem State.onOuts_pwr (s : State) (f : Outs → Outs) : (s.onOuts f).pwr = s.pwr := rfl
@[simp] theorem State.onOuts_outs (s : State) (f : Outs → Outs) : (s.onOuts f).outs = f s.outs := rfl
@[simp] theorem State.onOuts_boot (s : State) (f : Outs → Outs) : (s.onOuts f).boot = s.boot := rfl
@[simp] theorem State.onOuts_mbx (s : State) (f : Outs → Outs) : (s.onOuts f).mbx = s.mbx := rfl
@[simp] theorem State.onOuts_host (s : State) (f : Outs → Outs) : (s.onOuts f).host = s.host := rfl
@[simp] theorem State.onOuts_evt (s : State) (f : Outs → Outs) : (s.onOuts f).evt = s.evt := rfl
@[simp] theorem State.onOuts_modes (s : State) (f : Outs → Outs) : (s.onOuts f).modes = s.modes := rfl
@[simp] theorem State.onOuts_flt (s : State) (f : Outs → Outs) : (s.onOuts f).flt = s.flt := rfl
@[simp] theorem State.onOuts_cad (s : State) (f : Outs → Outs) : (s.onOuts f).cad = s.cad := rfl
@[simp] theorem State.onOuts_clk (s : State) (f : Outs → Outs) : (s.onOuts f).clk = s.clk := rfl
@[simp] theorem State.onOuts_fe (s : State) (f : Outs → Outs) : (s.onOuts f).fe = s.fe := rfl
@[simp] theorem State.onOuts_cal (s : State) (f : Outs → Outs) : (s.onOuts f).cal = s.cal := rfl
@[simp] theorem State.onOuts_air (s : State) (f : Outs → Outs) : (s.onOuts f).air = s.air := rfl
@[simp] theorem State.onOuts_nb (s : State) (f : Outs → Outs) : (s.onOuts f).nb = s.nb := rfl
@[simp] theorem State.onOuts_mlad (s : State) (f : Outs → Outs) : (s.onOuts f).mlad = s.mlad := rfl
@[simp] theorem State.onOuts_cls (s : State) (f : Outs → Outs) : (s.onOuts f).cls = s.cls := rfl
@[simp] theorem State.onOuts_fwd (s : State) (f : Outs → Outs) : (s.onOuts f).fwd = s.fwd := rfl
@[simp] theorem State.onOuts_tm (s : State) (f : Outs → Outs) : (s.onOuts f).tm = s.tm := rfl
@[simp] theorem State.onOuts_cipher (s : State) (f : Outs → Outs) : (s.onOuts f).cipher = s.cipher := rfl
@[simp] theorem State.onOuts_col (s : State) (f : Outs → Outs) : (s.onOuts f).col = s.col := rfl
@[simp] theorem State.onOuts_dram (s : State) (f : Outs → Outs) : (s.onOuts f).dram = s.dram := rfl
@[simp] theorem State.onOuts_ring (s : State) (f : Outs → Outs) : (s.onOuts f).ring = s.ring := rfl
@[simp] theorem State.onBoot_pending (s : State) (f : Boot → Boot) : (s.onBoot f).pending = s.pending := rfl
@[simp] theorem State.onBoot_drawn (s : State) (f : Boot → Boot) : (s.onBoot f).drawn = s.drawn := rfl
@[simp] theorem State.onBoot_out (s : State) (f : Boot → Boot) : (s.onBoot f).out = s.out := rfl
@[simp] theorem State.onBoot_pwr (s : State) (f : Boot → Boot) : (s.onBoot f).pwr = s.pwr := rfl
@[simp] theorem State.onBoot_outs (s : State) (f : Boot → Boot) : (s.onBoot f).outs = s.outs := rfl
@[simp] theorem State.onBoot_boot (s : State) (f : Boot → Boot) : (s.onBoot f).boot = f s.boot := rfl
@[simp] theorem State.onBoot_mbx (s : State) (f : Boot → Boot) : (s.onBoot f).mbx = s.mbx := rfl
@[simp] theorem State.onBoot_host (s : State) (f : Boot → Boot) : (s.onBoot f).host = s.host := rfl
@[simp] theorem State.onBoot_evt (s : State) (f : Boot → Boot) : (s.onBoot f).evt = s.evt := rfl
@[simp] theorem State.onBoot_modes (s : State) (f : Boot → Boot) : (s.onBoot f).modes = s.modes := rfl
@[simp] theorem State.onBoot_flt (s : State) (f : Boot → Boot) : (s.onBoot f).flt = s.flt := rfl
@[simp] theorem State.onBoot_cad (s : State) (f : Boot → Boot) : (s.onBoot f).cad = s.cad := rfl
@[simp] theorem State.onBoot_clk (s : State) (f : Boot → Boot) : (s.onBoot f).clk = s.clk := rfl
@[simp] theorem State.onBoot_fe (s : State) (f : Boot → Boot) : (s.onBoot f).fe = s.fe := rfl
@[simp] theorem State.onBoot_cal (s : State) (f : Boot → Boot) : (s.onBoot f).cal = s.cal := rfl
@[simp] theorem State.onBoot_air (s : State) (f : Boot → Boot) : (s.onBoot f).air = s.air := rfl
@[simp] theorem State.onBoot_nb (s : State) (f : Boot → Boot) : (s.onBoot f).nb = s.nb := rfl
@[simp] theorem State.onBoot_mlad (s : State) (f : Boot → Boot) : (s.onBoot f).mlad = s.mlad := rfl
@[simp] theorem State.onBoot_cls (s : State) (f : Boot → Boot) : (s.onBoot f).cls = s.cls := rfl
@[simp] theorem State.onBoot_fwd (s : State) (f : Boot → Boot) : (s.onBoot f).fwd = s.fwd := rfl
@[simp] theorem State.onBoot_tm (s : State) (f : Boot → Boot) : (s.onBoot f).tm = s.tm := rfl
@[simp] theorem State.onBoot_cipher (s : State) (f : Boot → Boot) : (s.onBoot f).cipher = s.cipher := rfl
@[simp] theorem State.onBoot_col (s : State) (f : Boot → Boot) : (s.onBoot f).col = s.col := rfl
@[simp] theorem State.onBoot_dram (s : State) (f : Boot → Boot) : (s.onBoot f).dram = s.dram := rfl
@[simp] theorem State.onBoot_ring (s : State) (f : Boot → Boot) : (s.onBoot f).ring = s.ring := rfl
@[simp] theorem State.onMbx_pending (s : State) (f : Mbx → Mbx) : (s.onMbx f).pending = s.pending := rfl
@[simp] theorem State.onMbx_drawn (s : State) (f : Mbx → Mbx) : (s.onMbx f).drawn = s.drawn := rfl
@[simp] theorem State.onMbx_out (s : State) (f : Mbx → Mbx) : (s.onMbx f).out = s.out := rfl
@[simp] theorem State.onMbx_pwr (s : State) (f : Mbx → Mbx) : (s.onMbx f).pwr = s.pwr := rfl
@[simp] theorem State.onMbx_outs (s : State) (f : Mbx → Mbx) : (s.onMbx f).outs = s.outs := rfl
@[simp] theorem State.onMbx_boot (s : State) (f : Mbx → Mbx) : (s.onMbx f).boot = s.boot := rfl
@[simp] theorem State.onMbx_mbx (s : State) (f : Mbx → Mbx) : (s.onMbx f).mbx = f s.mbx := rfl
@[simp] theorem State.onMbx_host (s : State) (f : Mbx → Mbx) : (s.onMbx f).host = s.host := rfl
@[simp] theorem State.onMbx_evt (s : State) (f : Mbx → Mbx) : (s.onMbx f).evt = s.evt := rfl
@[simp] theorem State.onMbx_modes (s : State) (f : Mbx → Mbx) : (s.onMbx f).modes = s.modes := rfl
@[simp] theorem State.onMbx_flt (s : State) (f : Mbx → Mbx) : (s.onMbx f).flt = s.flt := rfl
@[simp] theorem State.onMbx_cad (s : State) (f : Mbx → Mbx) : (s.onMbx f).cad = s.cad := rfl
@[simp] theorem State.onMbx_clk (s : State) (f : Mbx → Mbx) : (s.onMbx f).clk = s.clk := rfl
@[simp] theorem State.onMbx_fe (s : State) (f : Mbx → Mbx) : (s.onMbx f).fe = s.fe := rfl
@[simp] theorem State.onMbx_cal (s : State) (f : Mbx → Mbx) : (s.onMbx f).cal = s.cal := rfl
@[simp] theorem State.onMbx_air (s : State) (f : Mbx → Mbx) : (s.onMbx f).air = s.air := rfl
@[simp] theorem State.onMbx_nb (s : State) (f : Mbx → Mbx) : (s.onMbx f).nb = s.nb := rfl
@[simp] theorem State.onMbx_mlad (s : State) (f : Mbx → Mbx) : (s.onMbx f).mlad = s.mlad := rfl
@[simp] theorem State.onMbx_cls (s : State) (f : Mbx → Mbx) : (s.onMbx f).cls = s.cls := rfl
@[simp] theorem State.onMbx_fwd (s : State) (f : Mbx → Mbx) : (s.onMbx f).fwd = s.fwd := rfl
@[simp] theorem State.onMbx_tm (s : State) (f : Mbx → Mbx) : (s.onMbx f).tm = s.tm := rfl
@[simp] theorem State.onMbx_cipher (s : State) (f : Mbx → Mbx) : (s.onMbx f).cipher = s.cipher := rfl
@[simp] theorem State.onMbx_col (s : State) (f : Mbx → Mbx) : (s.onMbx f).col = s.col := rfl
@[simp] theorem State.onMbx_dram (s : State) (f : Mbx → Mbx) : (s.onMbx f).dram = s.dram := rfl
@[simp] theorem State.onMbx_ring (s : State) (f : Mbx → Mbx) : (s.onMbx f).ring = s.ring := rfl
@[simp] theorem State.onHost_pending (s : State) (f : HostIf → HostIf) : (s.onHost f).pending = s.pending := rfl
@[simp] theorem State.onHost_drawn (s : State) (f : HostIf → HostIf) : (s.onHost f).drawn = s.drawn := rfl
@[simp] theorem State.onHost_out (s : State) (f : HostIf → HostIf) : (s.onHost f).out = s.out := rfl
@[simp] theorem State.onHost_pwr (s : State) (f : HostIf → HostIf) : (s.onHost f).pwr = s.pwr := rfl
@[simp] theorem State.onHost_outs (s : State) (f : HostIf → HostIf) : (s.onHost f).outs = s.outs := rfl
@[simp] theorem State.onHost_boot (s : State) (f : HostIf → HostIf) : (s.onHost f).boot = s.boot := rfl
@[simp] theorem State.onHost_mbx (s : State) (f : HostIf → HostIf) : (s.onHost f).mbx = s.mbx := rfl
@[simp] theorem State.onHost_host (s : State) (f : HostIf → HostIf) : (s.onHost f).host = f s.host := rfl
@[simp] theorem State.onHost_evt (s : State) (f : HostIf → HostIf) : (s.onHost f).evt = s.evt := rfl
@[simp] theorem State.onHost_modes (s : State) (f : HostIf → HostIf) : (s.onHost f).modes = s.modes := rfl
@[simp] theorem State.onHost_flt (s : State) (f : HostIf → HostIf) : (s.onHost f).flt = s.flt := rfl
@[simp] theorem State.onHost_cad (s : State) (f : HostIf → HostIf) : (s.onHost f).cad = s.cad := rfl
@[simp] theorem State.onHost_clk (s : State) (f : HostIf → HostIf) : (s.onHost f).clk = s.clk := rfl
@[simp] theorem State.onHost_fe (s : State) (f : HostIf → HostIf) : (s.onHost f).fe = s.fe := rfl
@[simp] theorem State.onHost_cal (s : State) (f : HostIf → HostIf) : (s.onHost f).cal = s.cal := rfl
@[simp] theorem State.onHost_air (s : State) (f : HostIf → HostIf) : (s.onHost f).air = s.air := rfl
@[simp] theorem State.onHost_nb (s : State) (f : HostIf → HostIf) : (s.onHost f).nb = s.nb := rfl
@[simp] theorem State.onHost_mlad (s : State) (f : HostIf → HostIf) : (s.onHost f).mlad = s.mlad := rfl
@[simp] theorem State.onHost_cls (s : State) (f : HostIf → HostIf) : (s.onHost f).cls = s.cls := rfl
@[simp] theorem State.onHost_fwd (s : State) (f : HostIf → HostIf) : (s.onHost f).fwd = s.fwd := rfl
@[simp] theorem State.onHost_tm (s : State) (f : HostIf → HostIf) : (s.onHost f).tm = s.tm := rfl
@[simp] theorem State.onHost_cipher (s : State) (f : HostIf → HostIf) : (s.onHost f).cipher = s.cipher := rfl
@[simp] theorem State.onHost_col (s : State) (f : HostIf → HostIf) : (s.onHost f).col = s.col := rfl
@[simp] theorem State.onHost_dram (s : State) (f : HostIf → HostIf) : (s.onHost f).dram = s.dram := rfl
@[simp] theorem State.onHost_ring (s : State) (f : HostIf → HostIf) : (s.onHost f).ring = s.ring := rfl
@[simp] theorem State.onEvt_pending (s : State) (f : Evt → Evt) : (s.onEvt f).pending = s.pending := rfl
@[simp] theorem State.onEvt_drawn (s : State) (f : Evt → Evt) : (s.onEvt f).drawn = s.drawn := rfl
@[simp] theorem State.onEvt_out (s : State) (f : Evt → Evt) : (s.onEvt f).out = s.out := rfl
@[simp] theorem State.onEvt_pwr (s : State) (f : Evt → Evt) : (s.onEvt f).pwr = s.pwr := rfl
@[simp] theorem State.onEvt_outs (s : State) (f : Evt → Evt) : (s.onEvt f).outs = s.outs := rfl
@[simp] theorem State.onEvt_boot (s : State) (f : Evt → Evt) : (s.onEvt f).boot = s.boot := rfl
@[simp] theorem State.onEvt_mbx (s : State) (f : Evt → Evt) : (s.onEvt f).mbx = s.mbx := rfl
@[simp] theorem State.onEvt_host (s : State) (f : Evt → Evt) : (s.onEvt f).host = s.host := rfl
@[simp] theorem State.onEvt_evt (s : State) (f : Evt → Evt) : (s.onEvt f).evt = f s.evt := rfl
@[simp] theorem State.onEvt_modes (s : State) (f : Evt → Evt) : (s.onEvt f).modes = s.modes := rfl
@[simp] theorem State.onEvt_flt (s : State) (f : Evt → Evt) : (s.onEvt f).flt = s.flt := rfl
@[simp] theorem State.onEvt_cad (s : State) (f : Evt → Evt) : (s.onEvt f).cad = s.cad := rfl
@[simp] theorem State.onEvt_clk (s : State) (f : Evt → Evt) : (s.onEvt f).clk = s.clk := rfl
@[simp] theorem State.onEvt_fe (s : State) (f : Evt → Evt) : (s.onEvt f).fe = s.fe := rfl
@[simp] theorem State.onEvt_cal (s : State) (f : Evt → Evt) : (s.onEvt f).cal = s.cal := rfl
@[simp] theorem State.onEvt_air (s : State) (f : Evt → Evt) : (s.onEvt f).air = s.air := rfl
@[simp] theorem State.onEvt_nb (s : State) (f : Evt → Evt) : (s.onEvt f).nb = s.nb := rfl
@[simp] theorem State.onEvt_mlad (s : State) (f : Evt → Evt) : (s.onEvt f).mlad = s.mlad := rfl
@[simp] theorem State.onEvt_cls (s : State) (f : Evt → Evt) : (s.onEvt f).cls = s.cls := rfl
@[simp] theorem State.onEvt_fwd (s : State) (f : Evt → Evt) : (s.onEvt f).fwd = s.fwd := rfl
@[simp] theorem State.onEvt_tm (s : State) (f : Evt → Evt) : (s.onEvt f).tm = s.tm := rfl
@[simp] theorem State.onEvt_cipher (s : State) (f : Evt → Evt) : (s.onEvt f).cipher = s.cipher := rfl
@[simp] theorem State.onEvt_col (s : State) (f : Evt → Evt) : (s.onEvt f).col = s.col := rfl
@[simp] theorem State.onEvt_dram (s : State) (f : Evt → Evt) : (s.onEvt f).dram = s.dram := rfl
@[simp] theorem State.onEvt_ring (s : State) (f : Evt → Evt) : (s.onEvt f).ring = s.ring := rfl
@[simp] theorem State.onModes_pending (s : State) (f : Modes → Modes) : (s.onModes f).pending = s.pending := rfl
@[simp] theorem State.onModes_drawn (s : State) (f : Modes → Modes) : (s.onModes f).drawn = s.drawn := rfl
@[simp] theorem State.onModes_out (s : State) (f : Modes → Modes) : (s.onModes f).out = s.out := rfl
@[simp] theorem State.onModes_pwr (s : State) (f : Modes → Modes) : (s.onModes f).pwr = s.pwr := rfl
@[simp] theorem State.onModes_outs (s : State) (f : Modes → Modes) : (s.onModes f).outs = s.outs := rfl
@[simp] theorem State.onModes_boot (s : State) (f : Modes → Modes) : (s.onModes f).boot = s.boot := rfl
@[simp] theorem State.onModes_mbx (s : State) (f : Modes → Modes) : (s.onModes f).mbx = s.mbx := rfl
@[simp] theorem State.onModes_host (s : State) (f : Modes → Modes) : (s.onModes f).host = s.host := rfl
@[simp] theorem State.onModes_evt (s : State) (f : Modes → Modes) : (s.onModes f).evt = s.evt := rfl
@[simp] theorem State.onModes_modes (s : State) (f : Modes → Modes) : (s.onModes f).modes = f s.modes := rfl
@[simp] theorem State.onModes_flt (s : State) (f : Modes → Modes) : (s.onModes f).flt = s.flt := rfl
@[simp] theorem State.onModes_cad (s : State) (f : Modes → Modes) : (s.onModes f).cad = s.cad := rfl
@[simp] theorem State.onModes_clk (s : State) (f : Modes → Modes) : (s.onModes f).clk = s.clk := rfl
@[simp] theorem State.onModes_fe (s : State) (f : Modes → Modes) : (s.onModes f).fe = s.fe := rfl
@[simp] theorem State.onModes_cal (s : State) (f : Modes → Modes) : (s.onModes f).cal = s.cal := rfl
@[simp] theorem State.onModes_air (s : State) (f : Modes → Modes) : (s.onModes f).air = s.air := rfl
@[simp] theorem State.onModes_nb (s : State) (f : Modes → Modes) : (s.onModes f).nb = s.nb := rfl
@[simp] theorem State.onModes_mlad (s : State) (f : Modes → Modes) : (s.onModes f).mlad = s.mlad := rfl
@[simp] theorem State.onModes_cls (s : State) (f : Modes → Modes) : (s.onModes f).cls = s.cls := rfl
@[simp] theorem State.onModes_fwd (s : State) (f : Modes → Modes) : (s.onModes f).fwd = s.fwd := rfl
@[simp] theorem State.onModes_tm (s : State) (f : Modes → Modes) : (s.onModes f).tm = s.tm := rfl
@[simp] theorem State.onModes_cipher (s : State) (f : Modes → Modes) : (s.onModes f).cipher = s.cipher := rfl
@[simp] theorem State.onModes_col (s : State) (f : Modes → Modes) : (s.onModes f).col = s.col := rfl
@[simp] theorem State.onModes_dram (s : State) (f : Modes → Modes) : (s.onModes f).dram = s.dram := rfl
@[simp] theorem State.onModes_ring (s : State) (f : Modes → Modes) : (s.onModes f).ring = s.ring := rfl
@[simp] theorem State.onFlt_pending (s : State) (f : Flt → Flt) : (s.onFlt f).pending = s.pending := rfl
@[simp] theorem State.onFlt_drawn (s : State) (f : Flt → Flt) : (s.onFlt f).drawn = s.drawn := rfl
@[simp] theorem State.onFlt_out (s : State) (f : Flt → Flt) : (s.onFlt f).out = s.out := rfl
@[simp] theorem State.onFlt_pwr (s : State) (f : Flt → Flt) : (s.onFlt f).pwr = s.pwr := rfl
@[simp] theorem State.onFlt_outs (s : State) (f : Flt → Flt) : (s.onFlt f).outs = s.outs := rfl
@[simp] theorem State.onFlt_boot (s : State) (f : Flt → Flt) : (s.onFlt f).boot = s.boot := rfl
@[simp] theorem State.onFlt_mbx (s : State) (f : Flt → Flt) : (s.onFlt f).mbx = s.mbx := rfl
@[simp] theorem State.onFlt_host (s : State) (f : Flt → Flt) : (s.onFlt f).host = s.host := rfl
@[simp] theorem State.onFlt_evt (s : State) (f : Flt → Flt) : (s.onFlt f).evt = s.evt := rfl
@[simp] theorem State.onFlt_modes (s : State) (f : Flt → Flt) : (s.onFlt f).modes = s.modes := rfl
@[simp] theorem State.onFlt_flt (s : State) (f : Flt → Flt) : (s.onFlt f).flt = f s.flt := rfl
@[simp] theorem State.onFlt_cad (s : State) (f : Flt → Flt) : (s.onFlt f).cad = s.cad := rfl
@[simp] theorem State.onFlt_clk (s : State) (f : Flt → Flt) : (s.onFlt f).clk = s.clk := rfl
@[simp] theorem State.onFlt_fe (s : State) (f : Flt → Flt) : (s.onFlt f).fe = s.fe := rfl
@[simp] theorem State.onFlt_cal (s : State) (f : Flt → Flt) : (s.onFlt f).cal = s.cal := rfl
@[simp] theorem State.onFlt_air (s : State) (f : Flt → Flt) : (s.onFlt f).air = s.air := rfl
@[simp] theorem State.onFlt_nb (s : State) (f : Flt → Flt) : (s.onFlt f).nb = s.nb := rfl
@[simp] theorem State.onFlt_mlad (s : State) (f : Flt → Flt) : (s.onFlt f).mlad = s.mlad := rfl
@[simp] theorem State.onFlt_cls (s : State) (f : Flt → Flt) : (s.onFlt f).cls = s.cls := rfl
@[simp] theorem State.onFlt_fwd (s : State) (f : Flt → Flt) : (s.onFlt f).fwd = s.fwd := rfl
@[simp] theorem State.onFlt_tm (s : State) (f : Flt → Flt) : (s.onFlt f).tm = s.tm := rfl
@[simp] theorem State.onFlt_cipher (s : State) (f : Flt → Flt) : (s.onFlt f).cipher = s.cipher := rfl
@[simp] theorem State.onFlt_col (s : State) (f : Flt → Flt) : (s.onFlt f).col = s.col := rfl
@[simp] theorem State.onFlt_dram (s : State) (f : Flt → Flt) : (s.onFlt f).dram = s.dram := rfl
@[simp] theorem State.onFlt_ring (s : State) (f : Flt → Flt) : (s.onFlt f).ring = s.ring := rfl
@[simp] theorem State.onCad_pending (s : State) (f : Cad → Cad) : (s.onCad f).pending = s.pending := rfl
@[simp] theorem State.onCad_drawn (s : State) (f : Cad → Cad) : (s.onCad f).drawn = s.drawn := rfl
@[simp] theorem State.onCad_out (s : State) (f : Cad → Cad) : (s.onCad f).out = s.out := rfl
@[simp] theorem State.onCad_pwr (s : State) (f : Cad → Cad) : (s.onCad f).pwr = s.pwr := rfl
@[simp] theorem State.onCad_outs (s : State) (f : Cad → Cad) : (s.onCad f).outs = s.outs := rfl
@[simp] theorem State.onCad_boot (s : State) (f : Cad → Cad) : (s.onCad f).boot = s.boot := rfl
@[simp] theorem State.onCad_mbx (s : State) (f : Cad → Cad) : (s.onCad f).mbx = s.mbx := rfl
@[simp] theorem State.onCad_host (s : State) (f : Cad → Cad) : (s.onCad f).host = s.host := rfl
@[simp] theorem State.onCad_evt (s : State) (f : Cad → Cad) : (s.onCad f).evt = s.evt := rfl
@[simp] theorem State.onCad_modes (s : State) (f : Cad → Cad) : (s.onCad f).modes = s.modes := rfl
@[simp] theorem State.onCad_flt (s : State) (f : Cad → Cad) : (s.onCad f).flt = s.flt := rfl
@[simp] theorem State.onCad_cad (s : State) (f : Cad → Cad) : (s.onCad f).cad = f s.cad := rfl
@[simp] theorem State.onCad_clk (s : State) (f : Cad → Cad) : (s.onCad f).clk = s.clk := rfl
@[simp] theorem State.onCad_fe (s : State) (f : Cad → Cad) : (s.onCad f).fe = s.fe := rfl
@[simp] theorem State.onCad_cal (s : State) (f : Cad → Cad) : (s.onCad f).cal = s.cal := rfl
@[simp] theorem State.onCad_air (s : State) (f : Cad → Cad) : (s.onCad f).air = s.air := rfl
@[simp] theorem State.onCad_nb (s : State) (f : Cad → Cad) : (s.onCad f).nb = s.nb := rfl
@[simp] theorem State.onCad_mlad (s : State) (f : Cad → Cad) : (s.onCad f).mlad = s.mlad := rfl
@[simp] theorem State.onCad_cls (s : State) (f : Cad → Cad) : (s.onCad f).cls = s.cls := rfl
@[simp] theorem State.onCad_fwd (s : State) (f : Cad → Cad) : (s.onCad f).fwd = s.fwd := rfl
@[simp] theorem State.onCad_tm (s : State) (f : Cad → Cad) : (s.onCad f).tm = s.tm := rfl
@[simp] theorem State.onCad_cipher (s : State) (f : Cad → Cad) : (s.onCad f).cipher = s.cipher := rfl
@[simp] theorem State.onCad_col (s : State) (f : Cad → Cad) : (s.onCad f).col = s.col := rfl
@[simp] theorem State.onCad_dram (s : State) (f : Cad → Cad) : (s.onCad f).dram = s.dram := rfl
@[simp] theorem State.onCad_ring (s : State) (f : Cad → Cad) : (s.onCad f).ring = s.ring := rfl
@[simp] theorem State.onClk_pending (s : State) (f : Clk → Clk) : (s.onClk f).pending = s.pending := rfl
@[simp] theorem State.onClk_drawn (s : State) (f : Clk → Clk) : (s.onClk f).drawn = s.drawn := rfl
@[simp] theorem State.onClk_out (s : State) (f : Clk → Clk) : (s.onClk f).out = s.out := rfl
@[simp] theorem State.onClk_pwr (s : State) (f : Clk → Clk) : (s.onClk f).pwr = s.pwr := rfl
@[simp] theorem State.onClk_outs (s : State) (f : Clk → Clk) : (s.onClk f).outs = s.outs := rfl
@[simp] theorem State.onClk_boot (s : State) (f : Clk → Clk) : (s.onClk f).boot = s.boot := rfl
@[simp] theorem State.onClk_mbx (s : State) (f : Clk → Clk) : (s.onClk f).mbx = s.mbx := rfl
@[simp] theorem State.onClk_host (s : State) (f : Clk → Clk) : (s.onClk f).host = s.host := rfl
@[simp] theorem State.onClk_evt (s : State) (f : Clk → Clk) : (s.onClk f).evt = s.evt := rfl
@[simp] theorem State.onClk_modes (s : State) (f : Clk → Clk) : (s.onClk f).modes = s.modes := rfl
@[simp] theorem State.onClk_flt (s : State) (f : Clk → Clk) : (s.onClk f).flt = s.flt := rfl
@[simp] theorem State.onClk_cad (s : State) (f : Clk → Clk) : (s.onClk f).cad = s.cad := rfl
@[simp] theorem State.onClk_clk (s : State) (f : Clk → Clk) : (s.onClk f).clk = f s.clk := rfl
@[simp] theorem State.onClk_fe (s : State) (f : Clk → Clk) : (s.onClk f).fe = s.fe := rfl
@[simp] theorem State.onClk_cal (s : State) (f : Clk → Clk) : (s.onClk f).cal = s.cal := rfl
@[simp] theorem State.onClk_air (s : State) (f : Clk → Clk) : (s.onClk f).air = s.air := rfl
@[simp] theorem State.onClk_nb (s : State) (f : Clk → Clk) : (s.onClk f).nb = s.nb := rfl
@[simp] theorem State.onClk_mlad (s : State) (f : Clk → Clk) : (s.onClk f).mlad = s.mlad := rfl
@[simp] theorem State.onClk_cls (s : State) (f : Clk → Clk) : (s.onClk f).cls = s.cls := rfl
@[simp] theorem State.onClk_fwd (s : State) (f : Clk → Clk) : (s.onClk f).fwd = s.fwd := rfl
@[simp] theorem State.onClk_tm (s : State) (f : Clk → Clk) : (s.onClk f).tm = s.tm := rfl
@[simp] theorem State.onClk_cipher (s : State) (f : Clk → Clk) : (s.onClk f).cipher = s.cipher := rfl
@[simp] theorem State.onClk_col (s : State) (f : Clk → Clk) : (s.onClk f).col = s.col := rfl
@[simp] theorem State.onClk_dram (s : State) (f : Clk → Clk) : (s.onClk f).dram = s.dram := rfl
@[simp] theorem State.onClk_ring (s : State) (f : Clk → Clk) : (s.onClk f).ring = s.ring := rfl
@[simp] theorem State.onFe_pending (s : State) (f : Fe → Fe) : (s.onFe f).pending = s.pending := rfl
@[simp] theorem State.onFe_drawn (s : State) (f : Fe → Fe) : (s.onFe f).drawn = s.drawn := rfl
@[simp] theorem State.onFe_out (s : State) (f : Fe → Fe) : (s.onFe f).out = s.out := rfl
@[simp] theorem State.onFe_pwr (s : State) (f : Fe → Fe) : (s.onFe f).pwr = s.pwr := rfl
@[simp] theorem State.onFe_outs (s : State) (f : Fe → Fe) : (s.onFe f).outs = s.outs := rfl
@[simp] theorem State.onFe_boot (s : State) (f : Fe → Fe) : (s.onFe f).boot = s.boot := rfl
@[simp] theorem State.onFe_mbx (s : State) (f : Fe → Fe) : (s.onFe f).mbx = s.mbx := rfl
@[simp] theorem State.onFe_host (s : State) (f : Fe → Fe) : (s.onFe f).host = s.host := rfl
@[simp] theorem State.onFe_evt (s : State) (f : Fe → Fe) : (s.onFe f).evt = s.evt := rfl
@[simp] theorem State.onFe_modes (s : State) (f : Fe → Fe) : (s.onFe f).modes = s.modes := rfl
@[simp] theorem State.onFe_flt (s : State) (f : Fe → Fe) : (s.onFe f).flt = s.flt := rfl
@[simp] theorem State.onFe_cad (s : State) (f : Fe → Fe) : (s.onFe f).cad = s.cad := rfl
@[simp] theorem State.onFe_clk (s : State) (f : Fe → Fe) : (s.onFe f).clk = s.clk := rfl
@[simp] theorem State.onFe_fe (s : State) (f : Fe → Fe) : (s.onFe f).fe = f s.fe := rfl
@[simp] theorem State.onFe_cal (s : State) (f : Fe → Fe) : (s.onFe f).cal = s.cal := rfl
@[simp] theorem State.onFe_air (s : State) (f : Fe → Fe) : (s.onFe f).air = s.air := rfl
@[simp] theorem State.onFe_nb (s : State) (f : Fe → Fe) : (s.onFe f).nb = s.nb := rfl
@[simp] theorem State.onFe_mlad (s : State) (f : Fe → Fe) : (s.onFe f).mlad = s.mlad := rfl
@[simp] theorem State.onFe_cls (s : State) (f : Fe → Fe) : (s.onFe f).cls = s.cls := rfl
@[simp] theorem State.onFe_fwd (s : State) (f : Fe → Fe) : (s.onFe f).fwd = s.fwd := rfl
@[simp] theorem State.onFe_tm (s : State) (f : Fe → Fe) : (s.onFe f).tm = s.tm := rfl
@[simp] theorem State.onFe_cipher (s : State) (f : Fe → Fe) : (s.onFe f).cipher = s.cipher := rfl
@[simp] theorem State.onFe_col (s : State) (f : Fe → Fe) : (s.onFe f).col = s.col := rfl
@[simp] theorem State.onFe_dram (s : State) (f : Fe → Fe) : (s.onFe f).dram = s.dram := rfl
@[simp] theorem State.onFe_ring (s : State) (f : Fe → Fe) : (s.onFe f).ring = s.ring := rfl
@[simp] theorem State.onCal_pending (s : State) (f : Cal → Cal) : (s.onCal f).pending = s.pending := rfl
@[simp] theorem State.onCal_drawn (s : State) (f : Cal → Cal) : (s.onCal f).drawn = s.drawn := rfl
@[simp] theorem State.onCal_out (s : State) (f : Cal → Cal) : (s.onCal f).out = s.out := rfl
@[simp] theorem State.onCal_pwr (s : State) (f : Cal → Cal) : (s.onCal f).pwr = s.pwr := rfl
@[simp] theorem State.onCal_outs (s : State) (f : Cal → Cal) : (s.onCal f).outs = s.outs := rfl
@[simp] theorem State.onCal_boot (s : State) (f : Cal → Cal) : (s.onCal f).boot = s.boot := rfl
@[simp] theorem State.onCal_mbx (s : State) (f : Cal → Cal) : (s.onCal f).mbx = s.mbx := rfl
@[simp] theorem State.onCal_host (s : State) (f : Cal → Cal) : (s.onCal f).host = s.host := rfl
@[simp] theorem State.onCal_evt (s : State) (f : Cal → Cal) : (s.onCal f).evt = s.evt := rfl
@[simp] theorem State.onCal_modes (s : State) (f : Cal → Cal) : (s.onCal f).modes = s.modes := rfl
@[simp] theorem State.onCal_flt (s : State) (f : Cal → Cal) : (s.onCal f).flt = s.flt := rfl
@[simp] theorem State.onCal_cad (s : State) (f : Cal → Cal) : (s.onCal f).cad = s.cad := rfl
@[simp] theorem State.onCal_clk (s : State) (f : Cal → Cal) : (s.onCal f).clk = s.clk := rfl
@[simp] theorem State.onCal_fe (s : State) (f : Cal → Cal) : (s.onCal f).fe = s.fe := rfl
@[simp] theorem State.onCal_cal (s : State) (f : Cal → Cal) : (s.onCal f).cal = f s.cal := rfl
@[simp] theorem State.onCal_air (s : State) (f : Cal → Cal) : (s.onCal f).air = s.air := rfl
@[simp] theorem State.onCal_nb (s : State) (f : Cal → Cal) : (s.onCal f).nb = s.nb := rfl
@[simp] theorem State.onCal_mlad (s : State) (f : Cal → Cal) : (s.onCal f).mlad = s.mlad := rfl
@[simp] theorem State.onCal_cls (s : State) (f : Cal → Cal) : (s.onCal f).cls = s.cls := rfl
@[simp] theorem State.onCal_fwd (s : State) (f : Cal → Cal) : (s.onCal f).fwd = s.fwd := rfl
@[simp] theorem State.onCal_tm (s : State) (f : Cal → Cal) : (s.onCal f).tm = s.tm := rfl
@[simp] theorem State.onCal_cipher (s : State) (f : Cal → Cal) : (s.onCal f).cipher = s.cipher := rfl
@[simp] theorem State.onCal_col (s : State) (f : Cal → Cal) : (s.onCal f).col = s.col := rfl
@[simp] theorem State.onCal_dram (s : State) (f : Cal → Cal) : (s.onCal f).dram = s.dram := rfl
@[simp] theorem State.onCal_ring (s : State) (f : Cal → Cal) : (s.onCal f).ring = s.ring := rfl
@[simp] theorem State.onAir_pending (s : State) (f : Air → Air) : (s.onAir f).pending = s.pending := rfl
@[simp] theorem State.onAir_drawn (s : State) (f : Air → Air) : (s.onAir f).drawn = s.drawn := rfl
@[simp] theorem State.onAir_out (s : State) (f : Air → Air) : (s.onAir f).out = s.out := rfl
@[simp] theorem State.onAir_pwr (s : State) (f : Air → Air) : (s.onAir f).pwr = s.pwr := rfl
@[simp] theorem State.onAir_outs (s : State) (f : Air → Air) : (s.onAir f).outs = s.outs := rfl
@[simp] theorem State.onAir_boot (s : State) (f : Air → Air) : (s.onAir f).boot = s.boot := rfl
@[simp] theorem State.onAir_mbx (s : State) (f : Air → Air) : (s.onAir f).mbx = s.mbx := rfl
@[simp] theorem State.onAir_host (s : State) (f : Air → Air) : (s.onAir f).host = s.host := rfl
@[simp] theorem State.onAir_evt (s : State) (f : Air → Air) : (s.onAir f).evt = s.evt := rfl
@[simp] theorem State.onAir_modes (s : State) (f : Air → Air) : (s.onAir f).modes = s.modes := rfl
@[simp] theorem State.onAir_flt (s : State) (f : Air → Air) : (s.onAir f).flt = s.flt := rfl
@[simp] theorem State.onAir_cad (s : State) (f : Air → Air) : (s.onAir f).cad = s.cad := rfl
@[simp] theorem State.onAir_clk (s : State) (f : Air → Air) : (s.onAir f).clk = s.clk := rfl
@[simp] theorem State.onAir_fe (s : State) (f : Air → Air) : (s.onAir f).fe = s.fe := rfl
@[simp] theorem State.onAir_cal (s : State) (f : Air → Air) : (s.onAir f).cal = s.cal := rfl
@[simp] theorem State.onAir_air (s : State) (f : Air → Air) : (s.onAir f).air = f s.air := rfl
@[simp] theorem State.onAir_nb (s : State) (f : Air → Air) : (s.onAir f).nb = s.nb := rfl
@[simp] theorem State.onAir_mlad (s : State) (f : Air → Air) : (s.onAir f).mlad = s.mlad := rfl
@[simp] theorem State.onAir_cls (s : State) (f : Air → Air) : (s.onAir f).cls = s.cls := rfl
@[simp] theorem State.onAir_fwd (s : State) (f : Air → Air) : (s.onAir f).fwd = s.fwd := rfl
@[simp] theorem State.onAir_tm (s : State) (f : Air → Air) : (s.onAir f).tm = s.tm := rfl
@[simp] theorem State.onAir_cipher (s : State) (f : Air → Air) : (s.onAir f).cipher = s.cipher := rfl
@[simp] theorem State.onAir_col (s : State) (f : Air → Air) : (s.onAir f).col = s.col := rfl
@[simp] theorem State.onAir_dram (s : State) (f : Air → Air) : (s.onAir f).dram = s.dram := rfl
@[simp] theorem State.onAir_ring (s : State) (f : Air → Air) : (s.onAir f).ring = s.ring := rfl
@[simp] theorem State.onNb_pending (s : State) (f : Nb → Nb) : (s.onNb f).pending = s.pending := rfl
@[simp] theorem State.onNb_drawn (s : State) (f : Nb → Nb) : (s.onNb f).drawn = s.drawn := rfl
@[simp] theorem State.onNb_out (s : State) (f : Nb → Nb) : (s.onNb f).out = s.out := rfl
@[simp] theorem State.onNb_pwr (s : State) (f : Nb → Nb) : (s.onNb f).pwr = s.pwr := rfl
@[simp] theorem State.onNb_outs (s : State) (f : Nb → Nb) : (s.onNb f).outs = s.outs := rfl
@[simp] theorem State.onNb_boot (s : State) (f : Nb → Nb) : (s.onNb f).boot = s.boot := rfl
@[simp] theorem State.onNb_mbx (s : State) (f : Nb → Nb) : (s.onNb f).mbx = s.mbx := rfl
@[simp] theorem State.onNb_host (s : State) (f : Nb → Nb) : (s.onNb f).host = s.host := rfl
@[simp] theorem State.onNb_evt (s : State) (f : Nb → Nb) : (s.onNb f).evt = s.evt := rfl
@[simp] theorem State.onNb_modes (s : State) (f : Nb → Nb) : (s.onNb f).modes = s.modes := rfl
@[simp] theorem State.onNb_flt (s : State) (f : Nb → Nb) : (s.onNb f).flt = s.flt := rfl
@[simp] theorem State.onNb_cad (s : State) (f : Nb → Nb) : (s.onNb f).cad = s.cad := rfl
@[simp] theorem State.onNb_clk (s : State) (f : Nb → Nb) : (s.onNb f).clk = s.clk := rfl
@[simp] theorem State.onNb_fe (s : State) (f : Nb → Nb) : (s.onNb f).fe = s.fe := rfl
@[simp] theorem State.onNb_cal (s : State) (f : Nb → Nb) : (s.onNb f).cal = s.cal := rfl
@[simp] theorem State.onNb_air (s : State) (f : Nb → Nb) : (s.onNb f).air = s.air := rfl
@[simp] theorem State.onNb_nb (s : State) (f : Nb → Nb) : (s.onNb f).nb = f s.nb := rfl
@[simp] theorem State.onNb_mlad (s : State) (f : Nb → Nb) : (s.onNb f).mlad = s.mlad := rfl
@[simp] theorem State.onNb_cls (s : State) (f : Nb → Nb) : (s.onNb f).cls = s.cls := rfl
@[simp] theorem State.onNb_fwd (s : State) (f : Nb → Nb) : (s.onNb f).fwd = s.fwd := rfl
@[simp] theorem State.onNb_tm (s : State) (f : Nb → Nb) : (s.onNb f).tm = s.tm := rfl
@[simp] theorem State.onNb_cipher (s : State) (f : Nb → Nb) : (s.onNb f).cipher = s.cipher := rfl
@[simp] theorem State.onNb_col (s : State) (f : Nb → Nb) : (s.onNb f).col = s.col := rfl
@[simp] theorem State.onNb_dram (s : State) (f : Nb → Nb) : (s.onNb f).dram = s.dram := rfl
@[simp] theorem State.onNb_ring (s : State) (f : Nb → Nb) : (s.onNb f).ring = s.ring := rfl
@[simp] theorem State.onMlad_pending (s : State) (f : Mlad → Mlad) : (s.onMlad f).pending = s.pending := rfl
@[simp] theorem State.onMlad_drawn (s : State) (f : Mlad → Mlad) : (s.onMlad f).drawn = s.drawn := rfl
@[simp] theorem State.onMlad_out (s : State) (f : Mlad → Mlad) : (s.onMlad f).out = s.out := rfl
@[simp] theorem State.onMlad_pwr (s : State) (f : Mlad → Mlad) : (s.onMlad f).pwr = s.pwr := rfl
@[simp] theorem State.onMlad_outs (s : State) (f : Mlad → Mlad) : (s.onMlad f).outs = s.outs := rfl
@[simp] theorem State.onMlad_boot (s : State) (f : Mlad → Mlad) : (s.onMlad f).boot = s.boot := rfl
@[simp] theorem State.onMlad_mbx (s : State) (f : Mlad → Mlad) : (s.onMlad f).mbx = s.mbx := rfl
@[simp] theorem State.onMlad_host (s : State) (f : Mlad → Mlad) : (s.onMlad f).host = s.host := rfl
@[simp] theorem State.onMlad_evt (s : State) (f : Mlad → Mlad) : (s.onMlad f).evt = s.evt := rfl
@[simp] theorem State.onMlad_modes (s : State) (f : Mlad → Mlad) : (s.onMlad f).modes = s.modes := rfl
@[simp] theorem State.onMlad_flt (s : State) (f : Mlad → Mlad) : (s.onMlad f).flt = s.flt := rfl
@[simp] theorem State.onMlad_cad (s : State) (f : Mlad → Mlad) : (s.onMlad f).cad = s.cad := rfl
@[simp] theorem State.onMlad_clk (s : State) (f : Mlad → Mlad) : (s.onMlad f).clk = s.clk := rfl
@[simp] theorem State.onMlad_fe (s : State) (f : Mlad → Mlad) : (s.onMlad f).fe = s.fe := rfl
@[simp] theorem State.onMlad_cal (s : State) (f : Mlad → Mlad) : (s.onMlad f).cal = s.cal := rfl
@[simp] theorem State.onMlad_air (s : State) (f : Mlad → Mlad) : (s.onMlad f).air = s.air := rfl
@[simp] theorem State.onMlad_nb (s : State) (f : Mlad → Mlad) : (s.onMlad f).nb = s.nb := rfl
@[simp] theorem State.onMlad_mlad (s : State) (f : Mlad → Mlad) : (s.onMlad f).mlad = f s.mlad := rfl
@[simp] theorem State.onMlad_cls (s : State) (f : Mlad → Mlad) : (s.onMlad f).cls = s.cls := rfl
@[simp] theorem State.onMlad_fwd (s : State) (f : Mlad → Mlad) : (s.onMlad f).fwd = s.fwd := rfl
@[simp] theorem State.onMlad_tm (s : State) (f : Mlad → Mlad) : (s.onMlad f).tm = s.tm := rfl
@[simp] theorem State.onMlad_cipher (s : State) (f : Mlad → Mlad) : (s.onMlad f).cipher = s.cipher := rfl
@[simp] theorem State.onMlad_col (s : State) (f : Mlad → Mlad) : (s.onMlad f).col = s.col := rfl
@[simp] theorem State.onMlad_dram (s : State) (f : Mlad → Mlad) : (s.onMlad f).dram = s.dram := rfl
@[simp] theorem State.onMlad_ring (s : State) (f : Mlad → Mlad) : (s.onMlad f).ring = s.ring := rfl
@[simp] theorem State.onCls_pending (s : State) (f : Cls → Cls) : (s.onCls f).pending = s.pending := rfl
@[simp] theorem State.onCls_drawn (s : State) (f : Cls → Cls) : (s.onCls f).drawn = s.drawn := rfl
@[simp] theorem State.onCls_out (s : State) (f : Cls → Cls) : (s.onCls f).out = s.out := rfl
@[simp] theorem State.onCls_pwr (s : State) (f : Cls → Cls) : (s.onCls f).pwr = s.pwr := rfl
@[simp] theorem State.onCls_outs (s : State) (f : Cls → Cls) : (s.onCls f).outs = s.outs := rfl
@[simp] theorem State.onCls_boot (s : State) (f : Cls → Cls) : (s.onCls f).boot = s.boot := rfl
@[simp] theorem State.onCls_mbx (s : State) (f : Cls → Cls) : (s.onCls f).mbx = s.mbx := rfl
@[simp] theorem State.onCls_host (s : State) (f : Cls → Cls) : (s.onCls f).host = s.host := rfl
@[simp] theorem State.onCls_evt (s : State) (f : Cls → Cls) : (s.onCls f).evt = s.evt := rfl
@[simp] theorem State.onCls_modes (s : State) (f : Cls → Cls) : (s.onCls f).modes = s.modes := rfl
@[simp] theorem State.onCls_flt (s : State) (f : Cls → Cls) : (s.onCls f).flt = s.flt := rfl
@[simp] theorem State.onCls_cad (s : State) (f : Cls → Cls) : (s.onCls f).cad = s.cad := rfl
@[simp] theorem State.onCls_clk (s : State) (f : Cls → Cls) : (s.onCls f).clk = s.clk := rfl
@[simp] theorem State.onCls_fe (s : State) (f : Cls → Cls) : (s.onCls f).fe = s.fe := rfl
@[simp] theorem State.onCls_cal (s : State) (f : Cls → Cls) : (s.onCls f).cal = s.cal := rfl
@[simp] theorem State.onCls_air (s : State) (f : Cls → Cls) : (s.onCls f).air = s.air := rfl
@[simp] theorem State.onCls_nb (s : State) (f : Cls → Cls) : (s.onCls f).nb = s.nb := rfl
@[simp] theorem State.onCls_mlad (s : State) (f : Cls → Cls) : (s.onCls f).mlad = s.mlad := rfl
@[simp] theorem State.onCls_cls (s : State) (f : Cls → Cls) : (s.onCls f).cls = f s.cls := rfl
@[simp] theorem State.onCls_fwd (s : State) (f : Cls → Cls) : (s.onCls f).fwd = s.fwd := rfl
@[simp] theorem State.onCls_tm (s : State) (f : Cls → Cls) : (s.onCls f).tm = s.tm := rfl
@[simp] theorem State.onCls_cipher (s : State) (f : Cls → Cls) : (s.onCls f).cipher = s.cipher := rfl
@[simp] theorem State.onCls_col (s : State) (f : Cls → Cls) : (s.onCls f).col = s.col := rfl
@[simp] theorem State.onCls_dram (s : State) (f : Cls → Cls) : (s.onCls f).dram = s.dram := rfl
@[simp] theorem State.onCls_ring (s : State) (f : Cls → Cls) : (s.onCls f).ring = s.ring := rfl
@[simp] theorem State.onFwd_pending (s : State) (f : Fwd → Fwd) : (s.onFwd f).pending = s.pending := rfl
@[simp] theorem State.onFwd_drawn (s : State) (f : Fwd → Fwd) : (s.onFwd f).drawn = s.drawn := rfl
@[simp] theorem State.onFwd_out (s : State) (f : Fwd → Fwd) : (s.onFwd f).out = s.out := rfl
@[simp] theorem State.onFwd_pwr (s : State) (f : Fwd → Fwd) : (s.onFwd f).pwr = s.pwr := rfl
@[simp] theorem State.onFwd_outs (s : State) (f : Fwd → Fwd) : (s.onFwd f).outs = s.outs := rfl
@[simp] theorem State.onFwd_boot (s : State) (f : Fwd → Fwd) : (s.onFwd f).boot = s.boot := rfl
@[simp] theorem State.onFwd_mbx (s : State) (f : Fwd → Fwd) : (s.onFwd f).mbx = s.mbx := rfl
@[simp] theorem State.onFwd_host (s : State) (f : Fwd → Fwd) : (s.onFwd f).host = s.host := rfl
@[simp] theorem State.onFwd_evt (s : State) (f : Fwd → Fwd) : (s.onFwd f).evt = s.evt := rfl
@[simp] theorem State.onFwd_modes (s : State) (f : Fwd → Fwd) : (s.onFwd f).modes = s.modes := rfl
@[simp] theorem State.onFwd_flt (s : State) (f : Fwd → Fwd) : (s.onFwd f).flt = s.flt := rfl
@[simp] theorem State.onFwd_cad (s : State) (f : Fwd → Fwd) : (s.onFwd f).cad = s.cad := rfl
@[simp] theorem State.onFwd_clk (s : State) (f : Fwd → Fwd) : (s.onFwd f).clk = s.clk := rfl
@[simp] theorem State.onFwd_fe (s : State) (f : Fwd → Fwd) : (s.onFwd f).fe = s.fe := rfl
@[simp] theorem State.onFwd_cal (s : State) (f : Fwd → Fwd) : (s.onFwd f).cal = s.cal := rfl
@[simp] theorem State.onFwd_air (s : State) (f : Fwd → Fwd) : (s.onFwd f).air = s.air := rfl
@[simp] theorem State.onFwd_nb (s : State) (f : Fwd → Fwd) : (s.onFwd f).nb = s.nb := rfl
@[simp] theorem State.onFwd_mlad (s : State) (f : Fwd → Fwd) : (s.onFwd f).mlad = s.mlad := rfl
@[simp] theorem State.onFwd_cls (s : State) (f : Fwd → Fwd) : (s.onFwd f).cls = s.cls := rfl
@[simp] theorem State.onFwd_fwd (s : State) (f : Fwd → Fwd) : (s.onFwd f).fwd = f s.fwd := rfl
@[simp] theorem State.onFwd_tm (s : State) (f : Fwd → Fwd) : (s.onFwd f).tm = s.tm := rfl
@[simp] theorem State.onFwd_cipher (s : State) (f : Fwd → Fwd) : (s.onFwd f).cipher = s.cipher := rfl
@[simp] theorem State.onFwd_col (s : State) (f : Fwd → Fwd) : (s.onFwd f).col = s.col := rfl
@[simp] theorem State.onFwd_dram (s : State) (f : Fwd → Fwd) : (s.onFwd f).dram = s.dram := rfl
@[simp] theorem State.onFwd_ring (s : State) (f : Fwd → Fwd) : (s.onFwd f).ring = s.ring := rfl
@[simp] theorem State.onTm_pending (s : State) (f : Tm → Tm) : (s.onTm f).pending = s.pending := rfl
@[simp] theorem State.onTm_drawn (s : State) (f : Tm → Tm) : (s.onTm f).drawn = s.drawn := rfl
@[simp] theorem State.onTm_out (s : State) (f : Tm → Tm) : (s.onTm f).out = s.out := rfl
@[simp] theorem State.onTm_pwr (s : State) (f : Tm → Tm) : (s.onTm f).pwr = s.pwr := rfl
@[simp] theorem State.onTm_outs (s : State) (f : Tm → Tm) : (s.onTm f).outs = s.outs := rfl
@[simp] theorem State.onTm_boot (s : State) (f : Tm → Tm) : (s.onTm f).boot = s.boot := rfl
@[simp] theorem State.onTm_mbx (s : State) (f : Tm → Tm) : (s.onTm f).mbx = s.mbx := rfl
@[simp] theorem State.onTm_host (s : State) (f : Tm → Tm) : (s.onTm f).host = s.host := rfl
@[simp] theorem State.onTm_evt (s : State) (f : Tm → Tm) : (s.onTm f).evt = s.evt := rfl
@[simp] theorem State.onTm_modes (s : State) (f : Tm → Tm) : (s.onTm f).modes = s.modes := rfl
@[simp] theorem State.onTm_flt (s : State) (f : Tm → Tm) : (s.onTm f).flt = s.flt := rfl
@[simp] theorem State.onTm_cad (s : State) (f : Tm → Tm) : (s.onTm f).cad = s.cad := rfl
@[simp] theorem State.onTm_clk (s : State) (f : Tm → Tm) : (s.onTm f).clk = s.clk := rfl
@[simp] theorem State.onTm_fe (s : State) (f : Tm → Tm) : (s.onTm f).fe = s.fe := rfl
@[simp] theorem State.onTm_cal (s : State) (f : Tm → Tm) : (s.onTm f).cal = s.cal := rfl
@[simp] theorem State.onTm_air (s : State) (f : Tm → Tm) : (s.onTm f).air = s.air := rfl
@[simp] theorem State.onTm_nb (s : State) (f : Tm → Tm) : (s.onTm f).nb = s.nb := rfl
@[simp] theorem State.onTm_mlad (s : State) (f : Tm → Tm) : (s.onTm f).mlad = s.mlad := rfl
@[simp] theorem State.onTm_cls (s : State) (f : Tm → Tm) : (s.onTm f).cls = s.cls := rfl
@[simp] theorem State.onTm_fwd (s : State) (f : Tm → Tm) : (s.onTm f).fwd = s.fwd := rfl
@[simp] theorem State.onTm_tm (s : State) (f : Tm → Tm) : (s.onTm f).tm = f s.tm := rfl
@[simp] theorem State.onTm_cipher (s : State) (f : Tm → Tm) : (s.onTm f).cipher = s.cipher := rfl
@[simp] theorem State.onTm_col (s : State) (f : Tm → Tm) : (s.onTm f).col = s.col := rfl
@[simp] theorem State.onTm_dram (s : State) (f : Tm → Tm) : (s.onTm f).dram = s.dram := rfl
@[simp] theorem State.onTm_ring (s : State) (f : Tm → Tm) : (s.onTm f).ring = s.ring := rfl
@[simp] theorem State.onCipher_pending (s : State) (f : Cipher → Cipher) : (s.onCipher f).pending = s.pending := rfl
@[simp] theorem State.onCipher_drawn (s : State) (f : Cipher → Cipher) : (s.onCipher f).drawn = s.drawn := rfl
@[simp] theorem State.onCipher_out (s : State) (f : Cipher → Cipher) : (s.onCipher f).out = s.out := rfl
@[simp] theorem State.onCipher_pwr (s : State) (f : Cipher → Cipher) : (s.onCipher f).pwr = s.pwr := rfl
@[simp] theorem State.onCipher_outs (s : State) (f : Cipher → Cipher) : (s.onCipher f).outs = s.outs := rfl
@[simp] theorem State.onCipher_boot (s : State) (f : Cipher → Cipher) : (s.onCipher f).boot = s.boot := rfl
@[simp] theorem State.onCipher_mbx (s : State) (f : Cipher → Cipher) : (s.onCipher f).mbx = s.mbx := rfl
@[simp] theorem State.onCipher_host (s : State) (f : Cipher → Cipher) : (s.onCipher f).host = s.host := rfl
@[simp] theorem State.onCipher_evt (s : State) (f : Cipher → Cipher) : (s.onCipher f).evt = s.evt := rfl
@[simp] theorem State.onCipher_modes (s : State) (f : Cipher → Cipher) : (s.onCipher f).modes = s.modes := rfl
@[simp] theorem State.onCipher_flt (s : State) (f : Cipher → Cipher) : (s.onCipher f).flt = s.flt := rfl
@[simp] theorem State.onCipher_cad (s : State) (f : Cipher → Cipher) : (s.onCipher f).cad = s.cad := rfl
@[simp] theorem State.onCipher_clk (s : State) (f : Cipher → Cipher) : (s.onCipher f).clk = s.clk := rfl
@[simp] theorem State.onCipher_fe (s : State) (f : Cipher → Cipher) : (s.onCipher f).fe = s.fe := rfl
@[simp] theorem State.onCipher_cal (s : State) (f : Cipher → Cipher) : (s.onCipher f).cal = s.cal := rfl
@[simp] theorem State.onCipher_air (s : State) (f : Cipher → Cipher) : (s.onCipher f).air = s.air := rfl
@[simp] theorem State.onCipher_nb (s : State) (f : Cipher → Cipher) : (s.onCipher f).nb = s.nb := rfl
@[simp] theorem State.onCipher_mlad (s : State) (f : Cipher → Cipher) : (s.onCipher f).mlad = s.mlad := rfl
@[simp] theorem State.onCipher_cls (s : State) (f : Cipher → Cipher) : (s.onCipher f).cls = s.cls := rfl
@[simp] theorem State.onCipher_fwd (s : State) (f : Cipher → Cipher) : (s.onCipher f).fwd = s.fwd := rfl
@[simp] theorem State.onCipher_tm (s : State) (f : Cipher → Cipher) : (s.onCipher f).tm = s.tm := rfl
@[simp] theorem State.onCipher_cipher (s : State) (f : Cipher → Cipher) : (s.onCipher f).cipher = f s.cipher := rfl
@[simp] theorem State.onCipher_col (s : State) (f : Cipher → Cipher) : (s.onCipher f).col = s.col := rfl
@[simp] theorem State.onCipher_dram (s : State) (f : Cipher → Cipher) : (s.onCipher f).dram = s.dram := rfl
@[simp] theorem State.onCipher_ring (s : State) (f : Cipher → Cipher) : (s.onCipher f).ring = s.ring := rfl
@[simp] theorem State.onCol_pending (s : State) (f : Col → Col) : (s.onCol f).pending = s.pending := rfl
@[simp] theorem State.onCol_drawn (s : State) (f : Col → Col) : (s.onCol f).drawn = s.drawn := rfl
@[simp] theorem State.onCol_out (s : State) (f : Col → Col) : (s.onCol f).out = s.out := rfl
@[simp] theorem State.onCol_pwr (s : State) (f : Col → Col) : (s.onCol f).pwr = s.pwr := rfl
@[simp] theorem State.onCol_outs (s : State) (f : Col → Col) : (s.onCol f).outs = s.outs := rfl
@[simp] theorem State.onCol_boot (s : State) (f : Col → Col) : (s.onCol f).boot = s.boot := rfl
@[simp] theorem State.onCol_mbx (s : State) (f : Col → Col) : (s.onCol f).mbx = s.mbx := rfl
@[simp] theorem State.onCol_host (s : State) (f : Col → Col) : (s.onCol f).host = s.host := rfl
@[simp] theorem State.onCol_evt (s : State) (f : Col → Col) : (s.onCol f).evt = s.evt := rfl
@[simp] theorem State.onCol_modes (s : State) (f : Col → Col) : (s.onCol f).modes = s.modes := rfl
@[simp] theorem State.onCol_flt (s : State) (f : Col → Col) : (s.onCol f).flt = s.flt := rfl
@[simp] theorem State.onCol_cad (s : State) (f : Col → Col) : (s.onCol f).cad = s.cad := rfl
@[simp] theorem State.onCol_clk (s : State) (f : Col → Col) : (s.onCol f).clk = s.clk := rfl
@[simp] theorem State.onCol_fe (s : State) (f : Col → Col) : (s.onCol f).fe = s.fe := rfl
@[simp] theorem State.onCol_cal (s : State) (f : Col → Col) : (s.onCol f).cal = s.cal := rfl
@[simp] theorem State.onCol_air (s : State) (f : Col → Col) : (s.onCol f).air = s.air := rfl
@[simp] theorem State.onCol_nb (s : State) (f : Col → Col) : (s.onCol f).nb = s.nb := rfl
@[simp] theorem State.onCol_mlad (s : State) (f : Col → Col) : (s.onCol f).mlad = s.mlad := rfl
@[simp] theorem State.onCol_cls (s : State) (f : Col → Col) : (s.onCol f).cls = s.cls := rfl
@[simp] theorem State.onCol_fwd (s : State) (f : Col → Col) : (s.onCol f).fwd = s.fwd := rfl
@[simp] theorem State.onCol_tm (s : State) (f : Col → Col) : (s.onCol f).tm = s.tm := rfl
@[simp] theorem State.onCol_cipher (s : State) (f : Col → Col) : (s.onCol f).cipher = s.cipher := rfl
@[simp] theorem State.onCol_col (s : State) (f : Col → Col) : (s.onCol f).col = f s.col := rfl
@[simp] theorem State.onCol_dram (s : State) (f : Col → Col) : (s.onCol f).dram = s.dram := rfl
@[simp] theorem State.onCol_ring (s : State) (f : Col → Col) : (s.onCol f).ring = s.ring := rfl
@[simp] theorem State.onDram_pending (s : State) (f : Dram → Dram) : (s.onDram f).pending = s.pending := rfl
@[simp] theorem State.onDram_drawn (s : State) (f : Dram → Dram) : (s.onDram f).drawn = s.drawn := rfl
@[simp] theorem State.onDram_out (s : State) (f : Dram → Dram) : (s.onDram f).out = s.out := rfl
@[simp] theorem State.onDram_pwr (s : State) (f : Dram → Dram) : (s.onDram f).pwr = s.pwr := rfl
@[simp] theorem State.onDram_outs (s : State) (f : Dram → Dram) : (s.onDram f).outs = s.outs := rfl
@[simp] theorem State.onDram_boot (s : State) (f : Dram → Dram) : (s.onDram f).boot = s.boot := rfl
@[simp] theorem State.onDram_mbx (s : State) (f : Dram → Dram) : (s.onDram f).mbx = s.mbx := rfl
@[simp] theorem State.onDram_host (s : State) (f : Dram → Dram) : (s.onDram f).host = s.host := rfl
@[simp] theorem State.onDram_evt (s : State) (f : Dram → Dram) : (s.onDram f).evt = s.evt := rfl
@[simp] theorem State.onDram_modes (s : State) (f : Dram → Dram) : (s.onDram f).modes = s.modes := rfl
@[simp] theorem State.onDram_flt (s : State) (f : Dram → Dram) : (s.onDram f).flt = s.flt := rfl
@[simp] theorem State.onDram_cad (s : State) (f : Dram → Dram) : (s.onDram f).cad = s.cad := rfl
@[simp] theorem State.onDram_clk (s : State) (f : Dram → Dram) : (s.onDram f).clk = s.clk := rfl
@[simp] theorem State.onDram_fe (s : State) (f : Dram → Dram) : (s.onDram f).fe = s.fe := rfl
@[simp] theorem State.onDram_cal (s : State) (f : Dram → Dram) : (s.onDram f).cal = s.cal := rfl
@[simp] theorem State.onDram_air (s : State) (f : Dram → Dram) : (s.onDram f).air = s.air := rfl
@[simp] theorem State.onDram_nb (s : State) (f : Dram → Dram) : (s.onDram f).nb = s.nb := rfl
@[simp] theorem State.onDram_mlad (s : State) (f : Dram → Dram) : (s.onDram f).mlad = s.mlad := rfl
@[simp] theorem State.onDram_cls (s : State) (f : Dram → Dram) : (s.onDram f).cls = s.cls := rfl
@[simp] theorem State.onDram_fwd (s : State) (f : Dram → Dram) : (s.onDram f).fwd = s.fwd := rfl
@[simp] theorem State.onDram_tm (s : State) (f : Dram → Dram) : (s.onDram f).tm = s.tm := rfl
@[simp] theorem State.onDram_cipher (s : State) (f : Dram → Dram) : (s.onDram f).cipher = s.cipher := rfl
@[simp] theorem State.onDram_col (s : State) (f : Dram → Dram) : (s.onDram f).col = s.col := rfl
@[simp] theorem State.onDram_dram (s : State) (f : Dram → Dram) : (s.onDram f).dram = f s.dram := rfl
@[simp] theorem State.onDram_ring (s : State) (f : Dram → Dram) : (s.onDram f).ring = s.ring := rfl
@[simp] theorem State.onRing_pending (s : State) (f : RingSt → RingSt) : (s.onRing f).pending = s.pending := rfl
@[simp] theorem State.onRing_drawn (s : State) (f : RingSt → RingSt) : (s.onRing f).drawn = s.drawn := rfl
@[simp] theorem State.onRing_out (s : State) (f : RingSt → RingSt) : (s.onRing f).out = s.out := rfl
@[simp] theorem State.onRing_pwr (s : State) (f : RingSt → RingSt) : (s.onRing f).pwr = s.pwr := rfl
@[simp] theorem State.onRing_outs (s : State) (f : RingSt → RingSt) : (s.onRing f).outs = s.outs := rfl
@[simp] theorem State.onRing_boot (s : State) (f : RingSt → RingSt) : (s.onRing f).boot = s.boot := rfl
@[simp] theorem State.onRing_mbx (s : State) (f : RingSt → RingSt) : (s.onRing f).mbx = s.mbx := rfl
@[simp] theorem State.onRing_host (s : State) (f : RingSt → RingSt) : (s.onRing f).host = s.host := rfl
@[simp] theorem State.onRing_evt (s : State) (f : RingSt → RingSt) : (s.onRing f).evt = s.evt := rfl
@[simp] theorem State.onRing_modes (s : State) (f : RingSt → RingSt) : (s.onRing f).modes = s.modes := rfl
@[simp] theorem State.onRing_flt (s : State) (f : RingSt → RingSt) : (s.onRing f).flt = s.flt := rfl
@[simp] theorem State.onRing_cad (s : State) (f : RingSt → RingSt) : (s.onRing f).cad = s.cad := rfl
@[simp] theorem State.onRing_clk (s : State) (f : RingSt → RingSt) : (s.onRing f).clk = s.clk := rfl
@[simp] theorem State.onRing_fe (s : State) (f : RingSt → RingSt) : (s.onRing f).fe = s.fe := rfl
@[simp] theorem State.onRing_cal (s : State) (f : RingSt → RingSt) : (s.onRing f).cal = s.cal := rfl
@[simp] theorem State.onRing_air (s : State) (f : RingSt → RingSt) : (s.onRing f).air = s.air := rfl
@[simp] theorem State.onRing_nb (s : State) (f : RingSt → RingSt) : (s.onRing f).nb = s.nb := rfl
@[simp] theorem State.onRing_mlad (s : State) (f : RingSt → RingSt) : (s.onRing f).mlad = s.mlad := rfl
@[simp] theorem State.onRing_cls (s : State) (f : RingSt → RingSt) : (s.onRing f).cls = s.cls := rfl
@[simp] theorem State.onRing_fwd (s : State) (f : RingSt → RingSt) : (s.onRing f).fwd = s.fwd := rfl
@[simp] theorem State.onRing_tm (s : State) (f : RingSt → RingSt) : (s.onRing f).tm = s.tm := rfl
@[simp] theorem State.onRing_cipher (s : State) (f : RingSt → RingSt) : (s.onRing f).cipher = s.cipher := rfl
@[simp] theorem State.onRing_col (s : State) (f : RingSt → RingSt) : (s.onRing f).col = s.col := rfl
@[simp] theorem State.onRing_dram (s : State) (f : RingSt → RingSt) : (s.onRing f).dram = s.dram := rfl
@[simp] theorem State.onRing_ring (s : State) (f : RingSt → RingSt) : (s.onRing f).ring = f s.ring := rfl
@[simp] theorem State.emit_pending (s : State) (e : Emit) : (s.emit e).pending = s.pending := rfl
@[simp] theorem State.emit_drawn (s : State) (e : Emit) : (s.emit e).drawn = s.drawn := rfl
@[simp] theorem State.emit_pwr (s : State) (e : Emit) : (s.emit e).pwr = s.pwr := rfl
@[simp] theorem State.emit_outs (s : State) (e : Emit) : (s.emit e).outs = s.outs := rfl
@[simp] theorem State.emit_boot (s : State) (e : Emit) : (s.emit e).boot = s.boot := rfl
@[simp] theorem State.emit_mbx (s : State) (e : Emit) : (s.emit e).mbx = s.mbx := rfl
@[simp] theorem State.emit_host (s : State) (e : Emit) : (s.emit e).host = s.host := rfl
@[simp] theorem State.emit_evt (s : State) (e : Emit) : (s.emit e).evt = s.evt := rfl
@[simp] theorem State.emit_modes (s : State) (e : Emit) : (s.emit e).modes = s.modes := rfl
@[simp] theorem State.emit_flt (s : State) (e : Emit) : (s.emit e).flt = s.flt := rfl
@[simp] theorem State.emit_cad (s : State) (e : Emit) : (s.emit e).cad = s.cad := rfl
@[simp] theorem State.emit_clk (s : State) (e : Emit) : (s.emit e).clk = s.clk := rfl
@[simp] theorem State.emit_fe (s : State) (e : Emit) : (s.emit e).fe = s.fe := rfl
@[simp] theorem State.emit_cal (s : State) (e : Emit) : (s.emit e).cal = s.cal := rfl
@[simp] theorem State.emit_air (s : State) (e : Emit) : (s.emit e).air = s.air := rfl
@[simp] theorem State.emit_nb (s : State) (e : Emit) : (s.emit e).nb = s.nb := rfl
@[simp] theorem State.emit_mlad (s : State) (e : Emit) : (s.emit e).mlad = s.mlad := rfl
@[simp] theorem State.emit_cls (s : State) (e : Emit) : (s.emit e).cls = s.cls := rfl
@[simp] theorem State.emit_fwd (s : State) (e : Emit) : (s.emit e).fwd = s.fwd := rfl
@[simp] theorem State.emit_tm (s : State) (e : Emit) : (s.emit e).tm = s.tm := rfl
@[simp] theorem State.emit_cipher (s : State) (e : Emit) : (s.emit e).cipher = s.cipher := rfl
@[simp] theorem State.emit_col (s : State) (e : Emit) : (s.emit e).col = s.col := rfl
@[simp] theorem State.emit_dram (s : State) (e : Emit) : (s.emit e).dram = s.dram := rfl
@[simp] theorem State.emit_ring (s : State) (e : Emit) : (s.emit e).ring = s.ring := rfl
@[simp] theorem State.emit_out (s : State) (e : Emit) : (s.emit e).out = e :: s.out := rfl

end Sys2Proof.Machine
end

