-- ==== Sys2Proof/Laws/Keeps.lean ====
section
/-!
SUPPORT. What every effect of a command keeps: the queue of the commands that wait, the count of open values drawn, the lock
fuse of KEK0, the invariant. One lemma per way of building a state.
-/
namespace Sys2Proof.Machine

variable {m : Part → Bool}

/-- From s to t: nothing changes but the parts of m; the queue is the same, no drawn value is taken back, a blown lock stays
blown, the invariant is kept. -/
structure Keeps (m : Part → Bool) (s t : State) : Prop where
  frame : ∀ p, m p = false → Part.same s t p
  pending : t.pending = s.pending
  drawn : s.drawn ≤ t.drawn
  lock : s.cipher.locked = true → t.cipher.locked = true
  inv : Inv s → Inv t

/-- The second component of an answer is kept to. -/
def KeepsP {α : Type} (m : Part → Bool) (s : State) (p : α × State) : Prop := Keeps m s p.2
/-- The third component of an answer is kept to. -/
def KeepsT {α β : Type} (m : Part → Bool) (s : State) (p : α × β × State) : Prop := Keeps m s p.2.2
/-- The state of an answer that may be none is kept to. -/
def KeepsO (m : Part → Bool) (s : State) (p : Option State) : Prop := ∀ t, p = some t → Keeps m s t
/-- Every next state is kept to. -/
def KeepsOut (m : Part → Bool) (s : State) (p : Out) : Prop := ∀ t, p = .next t → Keeps m s t

theorem Keeps.refl (s : State) : Keeps m s s := ⟨fun p _ => by cases p <;> rfl, rfl, Nat.le_refl _, id, id⟩
theorem Keeps.trans {s t u : State} (h : Keeps m s t) (k : Keeps m t u) : Keeps m s u :=
  ⟨fun p hp => by have a := h.frame p hp; have b := k.frame p hp; cases p <;> exact Eq.trans b a, k.pending.trans h.pending, Nat.le_trans h.drawn k.drawn, k.lock ∘ h.lock, k.inv ∘ h.inv⟩

theorem keepsP_mk {α : Type} {s t : State} {a : α} (h : Keeps m s t) : KeepsP m s (a, t) := h
theorem keeps_snd {α : Type} {s : State} {p : α × State} (h : KeepsP m s p) : Keeps m s p.2 := h
theorem keeps_of_eq {α : Type} {s t : State} {p : α × State} {a : α} (h : KeepsP m s p) (e : p = (a, t)) : Keeps m s t := by
  subst e; exact h
theorem keepsT_mk {α β : Type} {s t : State} {a : α} {b : β} (h : Keeps m s t) : KeepsT m s (a, b, t) := h
theorem keeps_snd2 {α β : Type} {s : State} {p : α × β × State} (h : KeepsT m s p) : Keeps m s p.2.2 := h
theorem keeps_of_eq2 {α β : Type} {s t : State} {p : α × β × State} {a : α} {b : β} (h : KeepsT m s p) (e : p = (a, b, t)) : Keeps m s t := by
  subst e; exact h
theorem keepsO_some {s t : State} (h : Keeps m s t) : KeepsO m s (some t) := by intro u e; cases e; exact h
theorem keepsO_none {s : State} : KeepsO m s none := by intro u e; cases e
theorem keeps_of_some {s t : State} {p : Option State} (h : KeepsO m s p) (e : p = some t) : Keeps m s t := h t e
theorem keepsOut_next {s t : State} (h : Keeps m s t) : KeepsOut m s (.next t) := by intro u e; cases e; exact h


theorem keepsP_out {α : Type} {s t : State} {a : α} (h : KeepsP m s (a, t)) : Keeps m s t := h
theorem keepsT_out {α β : Type} {s t : State} {a : α} {b : β} (h : KeepsT m s (a, b, t)) : Keeps m s t := h

theorem keeps_foldl {α : Type} {s t : State} {g : State → α → State} {l : List α} (h : Keeps m s t)
    (hg : ∀ u x, Keeps m s u → Keeps m s (g u x)) : Keeps m s (l.foldl g t) := by
  induction l generalizing t with
  | nil => exact h
  | cons x l ih => exact ih (hg t x h)
theorem keepsP_foldl {α β : Type} {s : State} {p : β × State} {g : β × State → α → β × State} {l : List α} (h : KeepsP m s p)
    (hg : ∀ u x, KeepsP m s u → KeepsP m s (g u x)) : KeepsP m s (l.foldl g p) := by
  induction l generalizing p with
  | nil => exact h
  | cons x l ih => exact ih (hg p x h)
theorem keepsT_foldl {α β γ : Type} {s : State} {p : β × γ × State} {g : β × γ × State → α → β × γ × State} {l : List α} (h : KeepsT m s p)
    (hg : ∀ u x, KeepsT m s u → KeepsT m s (g u x)) : KeepsT m s (l.foldl g p) := by
  induction l generalizing p with
  | nil => exact h
  | cons x l ih => exact ih (hg p x h)
/-- The state of a pair that may be none is kept to. -/
def KeepsF {α : Type} (m : Part → Bool) (s : State) (p : Option (State × α)) : Prop := ∀ t n, p = some (t, n) → Keeps m s t
theorem keepsF_none {α : Type} {s : State} : KeepsF (α := α) m s none := by intro u n e; cases e
theorem keepsF_some {α : Type} {s t : State} {n : α} (h : Keeps m s t) : KeepsF m s (some (t, n)) := by intro u m e; cases e; exact h
theorem keeps_of_someF {α : Type} {s t : State} {n : α} {p : Option (State × α)} (h : KeepsF m s p) (e : p = some (t, n)) : Keeps m s t := h t n e
theorem keepsF_map {α : Type} {s t : State} {p : Option (State × α)} (h : KeepsF m s p) (k : Keeps m s t) : Keeps m s ((p.map (·.1)).getD t) := by
  cases p with
  | none => exact k
  | some x => exact h x.1 x.2 rfl
/-- The state of a second component that may be none is kept to. -/
def KeepsR {α : Type} (m : Part → Bool) (s : State) (p : Option (α × State)) : Prop := ∀ n t, p = some (n, t) → Keeps m s t
theorem keepsR_none {α : Type} {s : State} : KeepsR (α := α) m s none := by intro u n e; cases e
theorem keepsR_some {α : Type} {s t : State} {n : α} (h : Keeps m s t) : KeepsR m s (some (n, t)) := by intro u m e; cases e; exact h
theorem keeps_of_someR {α : Type} {s t : State} {n : α} {p : Option (α × State)} (h : KeepsR m s p) (e : p = some (n, t)) : Keeps m s t := h n t e
theorem keepsR_bind {α β : Type} {s : State} {o : Option β} {f : β → Option (α × State)} (h : ∀ x, KeepsR m s (f x)) : KeepsR m s (o.bind f) := by
  cases o with
  | none => exact keepsR_none
  | some x => exact h x
theorem keepsO_map {α : Type} {s : State} {o : Option α} {g : α → State} (h : ∀ x, o = some x → Keeps m s (g x)) : KeepsO m s (o.map g) := by
  intro t e; cases o with
  | none => cases e
  | some x => cases e; exact h x rfl
theorem keeps_getD {s t : State} {o : Option State} (h : KeepsO m s o) (k : Keeps m s t) : Keeps m s (o.getD t) := by
  cases o with
  | none => exact k
  | some x => exact h x rfl

/-- A list of parts of a mask that holds a longer list. -/
theorem sub {l k : List Part} (h : l.all k.contains = true) (hm : k.all m = true) : l.all m = true := by
  simp only [List.all_eq_true, List.contains_iff_mem] at *
  exact fun x hx => hm x (h x hx)

theorem not_of {p : Part} (hm : [p].all m = true) (hp : m p = false) : False := by simp [hp] at hm

theorem onPwr_keeps {s0 s : State} (hm : [Part.pwr].all m = true) (h : Keeps m s0 s) {f : Pwr → Pwr} : Keeps m s0 (s.onPwr f) :=
  ⟨fun p hp => by cases p <;> first | exact h.frame _ hp | exact (not_of hm hp).elim, h.pending, h.drawn, h.lock, fun i => let j := h.inv i; ⟨j.1, j.2, j.3, j.4, j.5, j.6, j.7, j.8, j.9, j.10, j.11, j.12⟩⟩
theorem onOuts_keeps {s0 s : State} (hm : [Part.outs].all m = true) (h : Keeps m s0 s) {f : Outs → Outs} : Keeps m s0 (s.onOuts f) :=
  ⟨fun p hp => by cases p <;> first | exact h.frame _ hp | exact (not_of hm hp).elim, h.pending, h.drawn, h.lock, fun i => let j := h.inv i; ⟨j.1, j.2, j.3, j.4, j.5, j.6, j.7, j.8, j.9, j.10, j.11, j.12⟩⟩
theorem onEvt_keeps {s0 s : State} (hm : [Part.evt].all m = true) (h : Keeps m s0 s) {f : Evt → Evt} : Keeps m s0 (s.onEvt f) :=
  ⟨fun p hp => by cases p <;> first | exact h.frame _ hp | exact (not_of hm hp).elim, h.pending, h.drawn, h.lock, fun i => let j := h.inv i; ⟨j.1, j.2, j.3, j.4, j.5, j.6, j.7, j.8, j.9, j.10, j.11, j.12⟩⟩
theorem onCad_keeps {s0 s : State} (hm : [Part.cad].all m = true) (h : Keeps m s0 s) {f : Cad → Cad} : Keeps m s0 (s.onCad f) :=
  ⟨fun p hp => by cases p <;> first | exact h.frame _ hp | exact (not_of hm hp).elim, h.pending, h.drawn, h.lock, fun i => let j := h.inv i; ⟨j.1, j.2, j.3, j.4, j.5, j.6, j.7, j.8, j.9, j.10, j.11, j.12⟩⟩
theorem onClk_keeps {s0 s : State} (hm : [Part.clk].all m = true) (h : Keeps m s0 s) {f : Clk → Clk} : Keeps m s0 (s.onClk f) :=
  ⟨fun p hp => by cases p <;> first | exact h.frame _ hp | exact (not_of hm hp).elim, h.pending, h.drawn, h.lock, fun i => let j := h.inv i; ⟨j.1, j.2, j.3, j.4, j.5, j.6, j.7, j.8, j.9, j.10, j.11, j.12⟩⟩
theorem onFe_keeps {s0 s : State} (hm : [Part.fe].all m = true) (h : Keeps m s0 s) {f : Fe → Fe} : Keeps m s0 (s.onFe f) :=
  ⟨fun p hp => by cases p <;> first | exact h.frame _ hp | exact (not_of hm hp).elim, h.pending, h.drawn, h.lock, fun i => let j := h.inv i; ⟨j.1, j.2, j.3, j.4, j.5, j.6, j.7, j.8, j.9, j.10, j.11, j.12⟩⟩
theorem onCal_keeps {s0 s : State} (hm : [Part.cal].all m = true) (h : Keeps m s0 s) {f : Cal → Cal} : Keeps m s0 (s.onCal f) :=
  ⟨fun p hp => by cases p <;> first | exact h.frame _ hp | exact (not_of hm hp).elim, h.pending, h.drawn, h.lock, fun i => let j := h.inv i; ⟨j.1, j.2, j.3, j.4, j.5, j.6, j.7, j.8, j.9, j.10, j.11, j.12⟩⟩
theorem onAir_keeps {s0 s : State} (hm : [Part.air].all m = true) (h : Keeps m s0 s) {f : Air → Air} : Keeps m s0 (s.onAir f) :=
  ⟨fun p hp => by cases p <;> first | exact h.frame _ hp | exact (not_of hm hp).elim, h.pending, h.drawn, h.lock, fun i => let j := h.inv i; ⟨j.1, j.2, j.3, j.4, j.5, j.6, j.7, j.8, j.9, j.10, j.11, j.12⟩⟩
theorem onNb_keeps {s0 s : State} (hm : [Part.nb].all m = true) (h : Keeps m s0 s) {f : Nb → Nb} : Keeps m s0 (s.onNb f) :=
  ⟨fun p hp => by cases p <;> first | exact h.frame _ hp | exact (not_of hm hp).elim, h.pending, h.drawn, h.lock, fun i => let j := h.inv i; ⟨j.1, j.2, j.3, j.4, j.5, j.6, j.7, j.8, j.9, j.10, j.11, j.12⟩⟩
theorem onMlad_keeps {s0 s : State} (hm : [Part.mlad].all m = true) (h : Keeps m s0 s) {f : Mlad → Mlad} : Keeps m s0 (s.onMlad f) :=
  ⟨fun p hp => by cases p <;> first | exact h.frame _ hp | exact (not_of hm hp).elim, h.pending, h.drawn, h.lock, fun i => let j := h.inv i; ⟨j.1, j.2, j.3, j.4, j.5, j.6, j.7, j.8, j.9, j.10, j.11, j.12⟩⟩
theorem onCls_keeps {s0 s : State} (hm : [Part.cls].all m = true) (h : Keeps m s0 s) {f : Cls → Cls} : Keeps m s0 (s.onCls f) :=
  ⟨fun p hp => by cases p <;> first | exact h.frame _ hp | exact (not_of hm hp).elim, h.pending, h.drawn, h.lock, fun i => let j := h.inv i; ⟨j.1, j.2, j.3, j.4, j.5, j.6, j.7, j.8, j.9, j.10, j.11, j.12⟩⟩
theorem onFwd_keeps {s0 s : State} (hm : [Part.fwd].all m = true) (h : Keeps m s0 s) {f : Fwd → Fwd} : Keeps m s0 (s.onFwd f) :=
  ⟨fun p hp => by cases p <;> first | exact h.frame _ hp | exact (not_of hm hp).elim, h.pending, h.drawn, h.lock, fun i => let j := h.inv i; ⟨j.1, j.2, j.3, j.4, j.5, j.6, j.7, j.8, j.9, j.10, j.11, j.12⟩⟩
theorem onTm_keeps {s0 s : State} (hm : [Part.tm].all m = true) (h : Keeps m s0 s) {f : Tm → Tm} : Keeps m s0 (s.onTm f) :=
  ⟨fun p hp => by cases p <;> first | exact h.frame _ hp | exact (not_of hm hp).elim, h.pending, h.drawn, h.lock, fun i => let j := h.inv i; ⟨j.1, j.2, j.3, j.4, j.5, j.6, j.7, j.8, j.9, j.10, j.11, j.12⟩⟩
theorem onCol_keeps {s0 s : State} (hm : [Part.col].all m = true) (h : Keeps m s0 s) {f : Col → Col} : Keeps m s0 (s.onCol f) :=
  ⟨fun p hp => by cases p <;> first | exact h.frame _ hp | exact (not_of hm hp).elim, h.pending, h.drawn, h.lock, fun i => let j := h.inv i; ⟨j.1, j.2, j.3, j.4, j.5, j.6, j.7, j.8, j.9, j.10, j.11, j.12⟩⟩
theorem onRing_keeps {s0 s : State} (hm : [Part.ring].all m = true) (h : Keeps m s0 s) {f : RingSt → RingSt} : Keeps m s0 (s.onRing f) :=
  ⟨fun p hp => by cases p <;> first | exact h.frame _ hp | exact (not_of hm hp).elim, h.pending, h.drawn, h.lock, fun i => let j := h.inv i; ⟨j.1, j.2, j.3, j.4, j.5, j.6, j.7, j.8, j.9, j.10, j.11, j.12⟩⟩
theorem emit_keeps {s0 s : State} (hm : [Part.out].all m = true) (h : Keeps m s0 s) {e : Emit} : Keeps m s0 (s.emit e) := ⟨fun p hp => by cases p <;> first | exact h.frame _ hp | exact (not_of hm hp).elim, h.pending, h.drawn, h.lock, fun i => let j := h.inv i; ⟨j.1, j.2, j.3, j.4, j.5, j.6, j.7, j.8, j.9, j.10, j.11, j.12⟩⟩
theorem draw_keeps {s0 s : State} (hm : [Part.drawn].all m = true) (h : Keeps m s0 s) {n : Nat} : KeepsP m s0 (s.draw n) :=
  ⟨fun p hp => by cases p <;> first | exact h.frame _ hp | exact (not_of hm hp).elim, h.pending, Nat.le_trans h.drawn (Nat.le_succ _), h.lock, fun i => let j := h.inv i; ⟨j.1, j.2, j.3, j.4, j.5, j.6, j.7, j.8, j.9, j.10, j.11, j.12⟩⟩
theorem onBoot_keeps {s0 s : State} (hm : [Part.boot].all m = true) (h : Keeps m s0 s) {f : Boot → Boot} (h1 : Memory.wf s.boot.mram = true → Memory.wf (f s.boot).mram = true)
    (h2 : Memory.wf s.boot.stageBuf = true → Memory.wf (f s.boot).stageBuf = true)
    (h3 : s.boot.autostart ≤ 7 → (f s.boot).autostart ≤ 7) : Keeps m s0 (s.onBoot f) :=
  ⟨fun p hp => by cases p <;> first | exact h.frame _ hp | exact (not_of hm hp).elim, h.pending, h.drawn, h.lock, fun i => let j := h.inv i; ⟨h1 j.1, h2 j.2, j.3, j.4, j.5, j.6, h3 j.7, j.8, j.9, j.10, j.11, j.12⟩⟩
theorem onHost_keeps {s0 s : State} (hm : [Part.host].all m = true) (h : Keeps m s0 s) {f : HostIf → HostIf} (h1 : Memory.wf s.host.push = true → Memory.wf (f s.host).push = true) : Keeps m s0 (s.onHost f) :=
  ⟨fun p hp => by cases p <;> first | exact h.frame _ hp | exact (not_of hm hp).elim, h.pending, h.drawn, h.lock, fun i => let j := h.inv i; ⟨j.1, j.2, h1 j.3, j.4, j.5, j.6, j.7, j.8, j.9, j.10, j.11, j.12⟩⟩
theorem onDram_keeps {s0 s : State} (hm : [Part.dram].all m = true) (h : Keeps m s0 s) {f : Dram → Dram} (h1 : Memory.wf s.dram.freeze = true → Memory.wf (f s.dram).freeze = true) : Keeps m s0 (s.onDram f) :=
  ⟨fun p hp => by cases p <;> first | exact h.frame _ hp | exact (not_of hm hp).elim, h.pending, h.drawn, h.lock, fun i => let j := h.inv i; ⟨j.1, j.2, j.3, h1 j.4, j.5, j.6, j.7, j.8, j.9, j.10, j.11, j.12⟩⟩
theorem onMbx_keeps {s0 s : State} (hm : [Part.mbx].all m = true) (h : Keeps m s0 s) {f : Mbx → Mbx} (h1 : s.mbx.pages.length = 4 → (f s.mbx).pages.length = 4) : Keeps m s0 (s.onMbx f) :=
  ⟨fun p hp => by cases p <;> first | exact h.frame _ hp | exact (not_of hm hp).elim, h.pending, h.drawn, h.lock, fun i => let j := h.inv i; ⟨j.1, j.2, j.3, j.4, j.5, j.6, j.7, j.8, h1 j.9, j.10, j.11, j.12⟩⟩
theorem onFlt_keeps {s0 s : State} (hm : [Part.flt].all m = true) (h : Keeps m s0 s) {f : Flt → Flt} (h1 : s.flt.counters.length = 29 → (f s.flt).counters.length = 29)
    (h2 : s.flt.sensors.length = 36 → (f s.flt).sensors.length = 36) : Keeps m s0 (s.onFlt f) :=
  ⟨fun p hp => by cases p <;> first | exact h.frame _ hp | exact (not_of hm hp).elim, h.pending, h.drawn, h.lock, fun i => let j := h.inv i; ⟨j.1, j.2, j.3, j.4, j.5, j.6, j.7, j.8, j.9, j.10, h1 j.11, h2 j.12⟩⟩
theorem onModes_keeps {s0 s : State} (hm : [Part.modes].all m = true) (h : Keeps m s0 s) {f : Modes → Modes} (h1 : s.modes.mode ≤ 7 → (f s.modes).mode ≤ 7) (h2 : s.modes.warmTarget ≤ 7 → (f s.modes).warmTarget ≤ 7)
    (h3 : s.modes.trans.all Trans.legal = true → (f s.modes).trans.all Trans.legal = true)
    (h4 : s.modes.doms.length = 8 → (f s.modes).doms.length = 8) : Keeps m s0 (s.onModes f) :=
  ⟨fun p hp => by cases p <;> first | exact h.frame _ hp | exact (not_of hm hp).elim, h.pending, h.drawn, h.lock, fun i => let j := h.inv i; ⟨j.1, j.2, j.3, j.4, h1 j.5, h2 j.6, j.7, h3 j.8, j.9, h4 j.10, j.11, j.12⟩⟩
theorem onCipher_keeps {s0 s : State} (hm : [Part.cipher].all m = true) (h : Keeps m s0 s) {f : Cipher → Cipher} (h1 : s.cipher.locked = true → (f s.cipher).locked = true) : Keeps m s0 (s.onCipher f) :=
  ⟨fun p hp => by cases p <;> first | exact h.frame _ hp | exact (not_of hm hp).elim, h.pending, h.drawn, fun l => h1 (h.lock l), fun i => let j := h.inv i; ⟨j.1, j.2, j.3, j.4, j.5, j.6, j.7, j.8, j.9, j.10, j.11, j.12⟩⟩

end Sys2Proof.Machine
end

