-- ==== Sys2Proof/Laws/Memory.lean ====
section
/-!
SUPPORT. Sparse memories: every operation keeps the canonical form, and a read after a write.
-/
namespace Sys2Proof

/-- Keys of a table all lie above a bound. -/
def Tab.above {α : Type} (k : Nat) (t : Tab α) : Prop := ∀ e ∈ t, k < e.1

theorem Tab.wf_cons {α : Type} {j : Nat} {a : α} {t : Tab α} : Tab.wf ((j, a) :: t) = true ↔ Tab.above j t ∧ Tab.wf t = true := by
  induction t generalizing j a with
  | nil => simp [Tab.wf, Tab.above]
  | cons e t ih =>
    obtain ⟨k, b⟩ := e
    simp only [Tab.wf, Bool.and_eq_true, decide_eq_true_eq]
    constructor
    · rintro ⟨h, w⟩
      refine ⟨?_, w⟩
      intro e he
      rcases List.mem_cons.1 he with rfl | he
      · exact h
      · exact Nat.lt_trans h ((ih.1 w).1 e he)
    · rintro ⟨h, w⟩
      exact ⟨h _ (List.mem_cons_self ..), w⟩

theorem Tab.above_set {α : Type} {j k : Nat} {a : α} {t : Tab α} (h : Tab.above j t) (hk : j < k) : Tab.above j (Tab.set t k a) := by
  induction t with
  | nil => simpa [Tab.set, Tab.above] using hk
  | cons e t ih =>
    obtain ⟨i, b⟩ := e
    have h1 : j < i := h _ (List.mem_cons_self ..)
    have h2 : Tab.above j t := fun e he => h e (List.mem_cons_of_mem _ he)
    unfold Tab.set
    split
    · intro e he
      rcases List.mem_cons.1 he with rfl | he
      · exact hk
      · exact h e he
    · split
      · intro e he
        rcases List.mem_cons.1 he with rfl | he
        · exact hk
        · exact h2 e he
      · intro e he
        rcases List.mem_cons.1 he with rfl | he
        · exact h1
        · exact ih h2 e he

theorem Tab.wf_set {α : Type} {k : Nat} {a : α} {t : Tab α} (h : Tab.wf t = true) : Tab.wf (Tab.set t k a) = true := by
  induction t with
  | nil => rfl
  | cons e t ih =>
    obtain ⟨i, b⟩ := e
    have ⟨h1, h2⟩ := Tab.wf_cons.1 h
    unfold Tab.set
    split
    · rename_i hk
      refine Tab.wf_cons.2 ⟨?_, h⟩
      intro e he
      rcases List.mem_cons.1 he with rfl | he
      · exact hk
      · exact Nat.lt_trans hk (h1 e he)
    · split
      · rename_i hk; subst hk; exact Tab.wf_cons.2 ⟨h1, h2⟩
      · rename_i hk hn
        exact Tab.wf_cons.2 ⟨Tab.above_set h1 (by omega), ih h2⟩

theorem Tab.wf_filter {α : Type} {p : Nat × α → Bool} {t : Tab α} (h : Tab.wf t = true) : Tab.wf (t.filter p) = true := by
  induction t with
  | nil => rfl
  | cons e t ih =>
    obtain ⟨i, b⟩ := e
    have ⟨h1, h2⟩ := Tab.wf_cons.1 h
    simp only [List.filter_cons]
    split
    · exact Tab.wf_cons.2 ⟨fun e he => h1 e (List.mem_filter.1 he).1, ih h2⟩
    · exact ih h2

theorem Tab.get?_set {α : Type} {k j : Nat} {a : α} {t : Tab α} : Tab.get? (Tab.set t k a) j = if j = k then some a else Tab.get? t j := by
  induction t with
  | nil =>
    by_cases h : j = k
    · simp [Tab.set, Tab.get?, h]
    · simp [Tab.set, Tab.get?, h, Ne.symm h]
  | cons e t ih =>
    obtain ⟨i, b⟩ := e
    unfold Tab.set
    by_cases h : j = k
    · subst h
      split
      · simp [Tab.get?]
      · split
        · simp [Tab.get?]
        · rename_i h2; simp [Tab.get?, ih, h2]
    · have hk : k ≠ j := Ne.symm h
      split
      · simp [Tab.get?, h, hk]
      · split
        · rename_i h2; subst h2; simp [Tab.get?, h, hk]
        · simp only [Tab.get?, ih, h, if_false]

theorem Tab.get?_filter {α : Type} {p : Nat × α → Bool} {j : Nat} {t : Tab α} (h : Tab.wf t = true) :
    Tab.get? (t.filter p) j = (Tab.get? t j).filter fun a => p (j, a) := by
  induction t with
  | nil => rfl
  | cons e t ih =>
    obtain ⟨i, b⟩ := e
    have ⟨h1, h2⟩ := Tab.wf_cons.1 h
    have hn : Tab.get? t i = none := by
      clear ih h
      induction t with
      | nil => rfl
      | cons e t ih =>
        obtain ⟨k, c⟩ := e
        have h3 : i < k := h1 _ (List.mem_cons_self ..)
        have : k ≠ i := by omega
        simp only [Tab.get?, this, if_false]
        exact ih (fun e he => h1 e (List.mem_cons_of_mem _ he)) (Tab.wf_cons.1 h2).2
    simp only [List.filter_cons]
    by_cases hj : i = j
    · subst hj
      split
      · rename_i hp; simp [Tab.get?, Option.filter, hp]
      · rename_i hp; simp [Tab.get?, Option.filter, hp, ih h2, hn]
    · split <;> simp [Tab.get?, hj, ih h2]

namespace Machine

theorem memSet_wf {m : List (Nat × Byte)} {a : Nat} {v : Byte} (h : Memory.wf m = true) : Memory.wf (memSet m a v) = true := by
  simp only [Memory.wf, Bool.and_eq_true, List.all_eq_true] at h ⊢
  unfold memSet
  split
  · exact ⟨Tab.wf_filter h.1, fun e he => h.2 e (List.mem_filter.1 he).1⟩
  · rename_i hv
    refine ⟨Tab.wf_set h.1, ?_⟩
    intro e he
    have : e = (a, v) ∨ e ∈ m := by
      clear h hv
      induction m with
      | nil => simpa [Tab.set] using he
      | cons x t ih =>
        obtain ⟨i, b⟩ := x
        unfold Tab.set at he
        split at he
        · rcases List.mem_cons.1 he with h | h
          · exact Or.inl h
          · exact Or.inr h
        · split at he
          · rcases List.mem_cons.1 he with h | h
            · exact Or.inl h
            · exact Or.inr (List.mem_cons_of_mem _ h)
          · rcases List.mem_cons.1 he with h | h
            · exact Or.inr (h ▸ List.mem_cons_self ..)
            · rcases ih h with h | h
              · exact Or.inl h
              · exact Or.inr (List.mem_cons_of_mem _ h)
    rcases this with rfl | h'
    · simpa using hv
    · exact h.2 e h'

theorem memWrite_wf {b : List Byte} : ∀ {m : List (Nat × Byte)} {a : Nat}, Memory.wf m = true → Memory.wf (memWrite m a b) = true := by
  induction b with
  | nil => intro m a h; exact h
  | cons v t ih => intro m a h; exact ih (memSet_wf h)

theorem memClear_wf {m : List (Nat × Byte)} {a k : Nat} (h : Memory.wf m = true) : Memory.wf (memClear m a k) = true := by
  simp only [Memory.wf, Bool.and_eq_true, List.all_eq_true] at h ⊢
  exact ⟨Tab.wf_filter h.1, fun e he => h.2 e (List.mem_filter.1 he).1⟩

theorem memGet_memSet {m : List (Nat × Byte)} {a b : Nat} {v : Byte} (h : Memory.wf m = true) :
    memGet (memSet m a v) b = if b = a then v else memGet m b := by
  simp only [Memory.wf, Bool.and_eq_true] at h
  unfold memGet memSet Tab.getD
  split
  · rename_i hv; subst hv
    rw [Tab.erase, Tab.get?_filter h.1]
    by_cases hb : b = a
    · subst hb
      cases Tab.get? m b <;> simp [Option.filter]
    · cases hg : Tab.get? m b <;> simp [Option.filter, hb]
  · rw [Tab.get?_set]
    by_cases hb : b = a <;> simp [hb]

theorem memGet_memWrite {b : List Byte} : ∀ {m : List (Nat × Byte)} {a c : Nat}, Memory.wf m = true →
    memGet (memWrite m a b) c = if a ≤ c ∧ c < a + b.length then b.getD (c - a) 0 else memGet m c := by
  induction b with
  | nil =>
    intro m a c _
    have : ¬ (a ≤ c ∧ c < a + ([] : List Byte).length) := by simp
    rw [if_neg this]; rfl
  | cons v t ih =>
    intro m a c h
    rw [memWrite, ih (memSet_wf h), memGet_memSet h]
    by_cases h1 : c = a
    · subst h1
      have e1 : ¬ (c + 1 ≤ c ∧ c < c + 1 + t.length) := by omega
      have e2 : c ≤ c ∧ c < c + (v :: t).length := by simp
      rw [if_neg e1, if_pos rfl, if_pos e2]; simp
    · by_cases h2 : a + 1 ≤ c ∧ c < a + 1 + t.length
      · have e2 : a ≤ c ∧ c < a + (v :: t).length := by simp only [List.length_cons]; omega
        rw [if_pos h2, if_pos e2]
        have : c - a = (c - (a + 1)) + 1 := by omega
        rw [this]; simp
      · have e2 : ¬ (a ≤ c ∧ c < a + (v :: t).length) := by simp only [List.length_cons]; omega
        rw [if_neg h2, if_neg e2, if_neg h1]

end Machine

end Sys2Proof
end

