-- ==== Sys2Proof/Laws/KeepOps.lean ====
section
/-!
SUPPORT. What the operations of Machine.Ops keep.
-/
set_option linter.unusedSimpArgs false
set_option linter.unusedVariables false
namespace Sys2Proof.Machine

variable {pm : Part → Bool}

theorem noteTime_keeps {s0 s : State}  (hm : ([.clk] : List Part).all pm = true) (hk : Keeps pm s0 s) :
    Keeps pm s0 (noteTime s) := by
  unfold noteTime
  try dsimp only
  repeat' first
    | with_reducible assumption
    | with_reducible refine onClk_keeps (sub (by decide) hm) ?_
    | split

theorem advanceTo_keeps {s0 s : State} {t : Int} (hm : ([.cad, .clk] : List Part).all pm = true) (hk : Keeps pm s0 s) :
    Keeps pm s0 (advanceTo t s) := by
  unfold advanceTo
  try dsimp only
  repeat' first
    | with_reducible assumption
    | with_reducible refine onCad_keeps (sub (by decide) hm) ?_
    | with_reducible refine onClk_keeps (sub (by decide) hm) ?_
    | split

theorem countCairn_keeps {s0 s : State} {i : Nat} {k : Nat} (hm : ([.flt] : List Part).all pm = true) (hk : Keeps pm s0 s) :
    Keeps pm s0 (countCairn i s k) := by
  unfold countCairn
  try dsimp only
  repeat' first
    | with_reducible assumption
    | with_reducible refine onFlt_keeps (sub (by decide) hm) ?_ ?_ ?_
    | with_reducible exact id
    | (intro hh; simp only [updAt, setAt, List.length_modify, List.length_set, List.length_map, List.length_zipIdx, List.length_cons, List.length_nil]; with_reducible exact hh)

theorem raiseVec_keeps {s0 s : State} {v : Nat} (hm : ([.host, .out] : List Part).all pm = true) (hk : Keeps pm s0 s) :
    Keeps pm s0 (raiseVec v s) := by
  unfold raiseVec
  try dsimp only
  repeat' first
    | with_reducible assumption
    | with_reducible refine onHost_keeps (sub (by decide) hm) ?_ ?_
    | with_reducible refine emit_keeps (sub (by decide) hm) ?_
    | split
    | with_reducible exact id

theorem onRingN_keeps {s0 s : State} {n : Nat} {f : Ring → Ring} (hm : ([.host] : List Part).all pm = true) (hk : Keeps pm s0 s) :
    Keeps pm s0 (onRingN n f s) := by
  unfold onRingN
  try dsimp only
  repeat' first
    | with_reducible assumption
    | with_reducible refine onHost_keeps (sub (by decide) hm) ?_ ?_
    | with_reducible exact id

theorem ringVector_keeps {s0 s : State} {n k : Nat} (hm : ([.host, .out] : List Part).all pm = true) (hk : Keeps pm s0 s) :
    Keeps pm s0 (ringVector n k s) := by
  unfold ringVector
  try dsimp only
  repeat' first
    | with_reducible assumption
    | with_reducible refine onRingN_keeps (sub (by decide) hm) ?_
    | with_reducible refine raiseVec_keeps (sub (by decide) hm) ?_
    | split

theorem ringPublish_keeps {s0 s : State} {n k : Nat} (hm : ([.host, .out] : List Part).all pm = true) (hk : Keeps pm s0 s) :
    Keeps pm s0 (ringPublish n k s) := by
  unfold ringPublish
  try dsimp only
  repeat' first
    | with_reducible assumption
    | with_reducible refine emit_keeps (sub (by decide) hm) ?_
    | with_reducible refine ringVector_keeps (sub (by decide) hm) ?_

theorem ringDrop_keeps {s0 s : State} {n : Nat} (hm : ([.host] : List Part).all pm = true) (hk : Keeps pm s0 s) :
    Keeps pm s0 (ringDrop n s) := by
  unfold ringDrop
  try dsimp only
  repeat' first
    | with_reducible assumption
    | with_reducible refine onRingN_keeps (sub (by decide) hm) ?_

theorem ringPutRec_keeps {s0 s : State} {n : Nat} {r : EvtRec} (hm : ([.host, .out] : List Part).all pm = true) (hk : Keeps pm s0 s) :
    Keeps pm s0 (ringPutRec n r s) := by
  unfold ringPutRec
  try dsimp only
  repeat' first
    | with_reducible assumption
    | with_reducible refine emit_keeps (sub (by decide) hm) ?_
    | with_reducible refine ringPublish_keeps (sub (by decide) hm) ?_
    | with_reducible refine onRingN_keeps (sub (by decide) hm) ?_

theorem ringRoute_keeps {s0 s : State} {n : Nat} {r : EvtRec} (hm : ([.host, .out] : List Part).all pm = true) (hk : Keeps pm s0 s) :
    Keeps pm s0 (ringRoute n r s) := by
  unfold ringRoute
  try dsimp only
  repeat' first
    | with_reducible assumption
    | with_reducible refine ringPutRec_keeps (sub (by decide) hm) ?_
    | with_reducible refine ringDrop_keeps (sub (by decide) hm) ?_
    | with_reducible refine onRingN_keeps (sub (by decide) hm) ?_
    | split

theorem mramWrite_keeps {s0 s : State} {a : Nat} {b : List Byte} (hm : ([.boot] : List Part).all pm = true) (hk : Keeps pm s0 s) :
    Keeps pm s0 (mramWrite a b s) := by
  unfold mramWrite
  try dsimp only
  repeat' first
    | with_reducible assumption
    | with_reducible refine onBoot_keeps (sub (by decide) hm) ?_ ?_ ?_ ?_
    | with_reducible exact id
    | exact memWrite_wf

theorem logRec_keeps {s0 s : State} {r : EvtRec} (hm : ([.boot, .evt] : List Part).all pm = true) (hk : Keeps pm s0 s) :
    Keeps pm s0 (logRec r s) := by
  unfold logRec
  try dsimp only
  repeat' first
    | with_reducible assumption
    | with_reducible refine onEvt_keeps (sub (by decide) hm) ?_
    | with_reducible refine mramWrite_keeps (sub (by decide) hm) ?_
    | split

theorem raise_keeps {s0 s : State} {code : Nat} {obj : Option Nat} {payload : List Byte} {mb : Nat} {cmdSeq : W16} (hm : ([.boot, .host, .evt, .clk, .out] : List Part).all pm = true) (hk : Keeps pm s0 s) :
    Keeps pm s0 (raise code obj payload s mb cmdSeq) := by
  unfold raise
  try dsimp only
  repeat' first
    | with_reducible assumption
    | with_reducible refine logRec_keeps (sub (by decide) hm) ?_
    | with_reducible refine ringRoute_keeps (sub (by decide) hm) ?_
    | with_reducible refine noteTime_keeps (sub (by decide) hm) ?_
    | split

theorem flushLost_keeps {s0 s : State} {n : Nat} (hm : ([.boot, .host, .evt, .out] : List Part).all pm = true) (hk : Keeps pm s0 s) :
    Keeps pm s0 (flushLost n s) := by
  unfold flushLost
  try dsimp only
  repeat' first
    | with_reducible assumption
    | with_reducible refine logRec_keeps (sub (by decide) hm) ?_
    | with_reducible refine ringPutRec_keeps (sub (by decide) hm) ?_
    | with_reducible refine onRingN_keeps (sub (by decide) hm) ?_
    | split

theorem onDom_keeps {s0 s : State} {d : Nat} {f : Domain → Domain} (hm : ([.modes] : List Part).all pm = true) (hk : Keeps pm s0 s) :
    Keeps pm s0 (onDom d f s) := by
  unfold onDom
  try dsimp only
  repeat' first
    | with_reducible assumption
    | with_reducible refine onModes_keeps (sub (by decide) hm) ?_ ?_ ?_ ?_ ?_
    | with_reducible exact id
    | (intro hh; simp only [updAt, setAt, List.length_modify, List.length_set, List.length_map, List.length_zipIdx, List.length_cons, List.length_nil]; with_reducible exact hh)

/-- The body of an opcode keeps to a state. -/
def BodyKeeps (pm : Part → Bool) (s0 : State) (o : OpSpec) : Prop := ∀ c s, Keeps pm s0 s → KeepsP pm s0 (o.body c s)

theorem perform_keeps {s0 s : State} {o : OpSpec} {c : Cmd} (hm : ([.mbx] : List Part).all pm = true) (h : Keeps pm s0 s) (hb : BodyKeeps pm s0 o) : KeepsP pm s0 (perform o c s) := by
  have hb := hb c s h
  unfold perform
  revert hb
  generalize o.body c s = r
  intro hb
  obtain ⟨a, t⟩ := r
  have hb : Keeps pm s0 t := hb
  dsimp only
  split
  · split
    · exact h
    · refine keepsP_mk (onMbx_keeps (sub (by decide) hm) ?_ ?_)
      case refine_2 => exact fun x => x
      split
      · exact h
      · exact hb
  · split
    · exact h
    · exact hb

theorem engage_keeps {s0 s : State} {o : OpSpec} {c : Cmd} (hm : ([.mbx, .modes] : List Part).all pm = true) (h : Keeps pm s0 s) (hb : BodyKeeps pm s0 o) : KeepsP pm s0 (engage o c s) := by
  unfold engage
  split
  · exact h
  · split
    · refine keepsP_mk (onMbx_keeps (sub (by decide) hm) (onDom_keeps (sub (by decide) hm) h) ?_)
      exact fun x => x
    · exact perform_keeps (sub (by decide) hm) h hb

theorem judge_keeps {s0 s : State} {o : OpSpec} {c : Cmd} (hm : ([.mbx, .modes] : List Part).all pm = true) (h : Keeps pm s0 s) (hb : BodyKeeps pm s0 o) : KeepsP pm s0 (judge o c s) := by
  unfold judge
  split
  · exact h
  · split
    · exact h
    · split
      · exact h
      · exact engage_keeps (sub (by decide) hm) h hb

theorem onPage_keeps {s0 s : State} {mb : Nat} {f : MbPage → MbPage} (hm : ([.mbx] : List Part).all pm = true) (hk : Keeps pm s0 s) :
    Keeps pm s0 (onPage mb f s) := by
  unfold onPage
  try dsimp only
  repeat' first
    | with_reducible assumption
    | with_reducible refine onMbx_keeps (sub (by decide) hm) ?_ ?_
    | (intro hh; simp only [updAt, setAt, List.length_modify, List.length_set, List.length_map, List.length_zipIdx, List.length_cons, List.length_nil]; with_reducible exact hh)

theorem cmdDone_keeps {s0 s : State} {c : Cmd} {a : Ans} (hm : ([.boot, .host, .evt, .clk, .out] : List Part).all pm = true) (hk : Keeps pm s0 s) :
    Keeps pm s0 (cmdDone c a s) := by
  unfold cmdDone
  try dsimp only
  repeat' first
    | with_reducible assumption
    | with_reducible refine raise_keeps (sub (by decide) hm) ?_

theorem ringWait_keeps {s0 s : State} {port cls : Nat} {f : List Byte} (hm : ([.ring] : List Part).all pm = true) (hk : Keeps pm s0 s) :
    Keeps pm s0 (ringWait port cls f s) := by
  unfold ringWait
  try dsimp only
  repeat' first
    | with_reducible assumption
    | with_reducible refine onRing_keeps (sub (by decide) hm) ?_

theorem ringSend_keeps {s0 s : State} {type dst cls tc : Nat} {body : List Byte} (hm : ([.ring] : List Part).all pm = true) (hk : Keeps pm s0 s) :
    Keeps pm s0 (ringSend type dst cls tc body s) := by
  unfold ringSend
  try dsimp only
  repeat' first
    | with_reducible assumption
    | with_reducible refine onRing_keeps (sub (by decide) hm) ?_
    | with_reducible refine ringWait_keeps (sub (by decide) hm) ?_
    | split

theorem ringBack_keeps {s0 s : State} {c : Cmd} {bytes : List Byte} {last : Bool} (hm : ([.ring] : List Part).all pm = true) (hk : Keeps pm s0 s) :
    Keeps pm s0 (ringBack c bytes last s) := by
  unfold ringBack
  try dsimp only
  repeat' first
    | with_reducible assumption
    | with_reducible refine onRing_keeps (sub (by decide) hm) ?_
    | with_reducible refine ringSend_keeps (sub (by decide) hm) ?_
    | split

theorem post_keeps {s0 s : State} {c : Cmd} {a : Ans} (hm : ([.boot, .mbx, .host, .evt, .clk, .ring, .out] : List Part).all pm = true) (hk : Keeps pm s0 s) :
    Keeps pm s0 (post c a s) := by
  unfold post
  try dsimp only
  repeat' first
    | with_reducible assumption
    | with_reducible refine onBoot_keeps (sub (by decide) hm) ?_ ?_ ?_ ?_
    | with_reducible refine ringBack_keeps (sub (by decide) hm) ?_
    | with_reducible refine cmdDone_keeps (sub (by decide) hm) ?_
    | with_reducible refine onPage_keeps (sub (by decide) hm) ?_
    | with_reducible refine raiseVec_keeps (sub (by decide) hm) ?_
    | split
    | with_reducible exact id

theorem endLong_keeps {s0 s : State} {l : LongCmd} {a : Ans} (hm : ([.boot, .mbx, .host, .evt, .clk, .ring, .out] : List Part).all pm = true) (hk : Keeps pm s0 s) :
    Keeps pm s0 (endLong l a s) := by
  unfold endLong
  try dsimp only
  repeat' first
    | with_reducible assumption
    | with_reducible refine onBoot_keeps (sub (by decide) hm) ?_ ?_ ?_ ?_
    | with_reducible refine onMbx_keeps (sub (by decide) hm) ?_ ?_
    | with_reducible refine ringBack_keeps (sub (by decide) hm) ?_
    | with_reducible refine cmdDone_keeps (sub (by decide) hm) ?_
    | split
    | with_reducible exact id

theorem endOp_keeps {s0 s : State} {op : Nat} {a : Ans} {p : Cmd → Bool} (hm : ([.boot, .mbx, .host, .evt, .clk, .ring, .out] : List Part).all pm = true) (hk : Keeps pm s0 s) :
    Keeps pm s0 (endOp op a s p) := by
  unfold endOp
  try dsimp only
  repeat' first
    | with_reducible assumption
    | with_reducible refine endLong_keeps (sub (by decide) hm) ?_
    | split

theorem serve_keeps {s0 s : State} {o : Option OpSpec} {c : Cmd} {q r : Bool} (hm : ([.boot, .mbx, .host, .evt, .modes, .clk, .ring, .out] : List Part).all pm = true) (h : Keeps pm s0 s) (hb : ∀ x, o = some x → BodyKeeps pm s0 x) :
    Keeps pm s0 (serve o c q r s) := by
  unfold serve
  split
  · exact post_keeps (sub (by decide) hm) (onPage_keeps (sub (by decide) hm) h)
  · split
    · exact post_keeps (sub (by decide) hm) h
    · split
      · exact post_keeps (sub (by decide) hm) h
      · rename_i x
        exact post_keeps (sub (by decide) hm) (keeps_snd (judge_keeps (sub (by decide) hm) h (hb x rfl)))

theorem refuseWrite_keeps {s0 s : State} {mb : Nat} {path : Path} {words : Nat} (hm : ([.mbx, .flt] : List Part).all pm = true) (hk : Keeps pm s0 s) :
    Keeps pm s0 (refuseWrite mb path words s) := by
  unfold refuseWrite
  try dsimp only
  repeat' first
    | with_reducible assumption
    | with_reducible refine onMbx_keeps (sub (by decide) hm) ?_ ?_
    | with_reducible refine countCairn_keeps (sub (by decide) hm) ?_
    | split
    | with_reducible exact id

theorem ringBell_keeps {s0 s : State} {o : Option OpSpec} {mb : Nat} {path : Path} {value : W16} (hm : ([.boot, .mbx, .host, .evt, .modes, .flt, .clk, .ring, .out] : List Part).all pm = true) (h : Keeps pm s0 s)
    (hb : ∀ x, o = some x → BodyKeeps pm s0 x) : Keeps pm s0 (ringBell o mb path value s) := by
  unfold ringBell
  dsimp only
  have h1 : Keeps pm s0 ((onPage mb (fun g => { g with doorbell := value }) s).onEvt fun e => { e with asleep := false }) :=
    onEvt_keeps (sub (by decide) hm) (onPage_keeps (sub (by decide) hm) h)
  revert h1
  generalize ((onPage mb (fun g => { g with doorbell := value }) s).onEvt fun e => { e with asleep := false }) = u
  intro h1
  have h2 : ∀ b : Bool, Keeps pm s0 (if b = true then onPage 2 (fun g => { g with cmd := List.replicate 512 0 }) u else u) := by
    intro b; split
    · exact onPage_keeps (sub (by decide) hm) h1
    · exact h1
  generalize (mb = 2 && _ && _ && _ : Bool) = b
  specialize h2 b
  revert h2
  generalize (if b = true then onPage 2 (fun g => { g with cmd := List.replicate 512 0 }) u else u) = v
  intro h2
  split
  · split
    · exact countCairn_keeps (sub (by decide) hm) (onPage_keeps (sub (by decide) hm) h2)
    · exact onPage_keeps (sub (by decide) hm) h2
  · split
    · exact countCairn_keeps (sub (by decide) hm) (onPage_keeps (sub (by decide) hm) h2)
    · exact serve_keeps (sub (by decide) hm) (onPage_keeps (sub (by decide) hm) h2) hb

theorem mailbox_keeps {s0 s : State} {op : Nat} {o : Option OpSpec} {d : Doorbell} {p : List Byte} (hm : ([.boot, .mbx, .host, .evt, .modes, .flt, .clk, .ring, .out] : List Part).all pm = true) (h : Keeps pm s0 s)
    (hb : ∀ x, o = some x → BodyKeeps pm s0 x) : Keeps pm s0 (mailbox op o d p s) := by
  unfold mailbox
  dsimp only
  split
  · exact ringBell_keeps (sub (by decide) hm) (onPage_keeps (sub (by decide) hm) h) hb
  · exact refuseWrite_keeps (sub (by decide) hm) h

theorem command_keeps {s0 s : State} {o : OpSpec} {d : Doorbell} {p : List Byte} (hm : ([.boot, .mbx, .host, .evt, .modes, .flt, .clk, .ring, .out] : List Part).all pm = true) (h : Keeps pm s0 s) (hb : BodyKeeps pm s0 o) :
    KeepsOut pm s0 (command o d p s) :=
  keepsOut_next (mailbox_keeps (sub (by decide) hm) h (by intro x e; cases e; exact hb))

end Sys2Proof.Machine
end

