-- ==== Sys2Proof/Laws/KeepLedger.lean ====
section
/-!
SUPPORT. What the operations of Machine.Ledger keep.
-/
set_option linter.unusedSimpArgs false
set_option linter.unusedVariables false
namespace Sys2Proof.Machine

variable {pm : Part → Bool}

theorem charge_keeps {s0 s : State} {c d : Nat} (hm : ([.nb] : List Part).all pm = true) (hk : Keeps pm s0 s) :
    Keeps pm s0 (charge c d s) := by
  unfold charge
  try dsimp only
  repeat' first
    | with_reducible assumption
    | with_reducible refine onNb_keeps (sub (by decide) hm) ?_
    | split

theorem dutyLimit_keeps {s0 s : State} {c : Nat} (hm : ([.boot, .host, .evt, .clk, .nb, .out] : List Part).all pm = true) (hk : Keeps pm s0 s) :
    Keeps pm s0 (dutyLimit c s) := by
  unfold dutyLimit
  try dsimp only
  repeat' first
    | with_reducible assumption
    | with_reducible refine onNb_keeps (sub (by decide) hm) ?_
    | with_reducible refine raise_keeps (sub (by decide) hm) ?_
    | split

theorem specDwellConfig_keeps {s0 s : State} {c : Cmd} (hm : ([.nb] : List Part).all pm = true) (h : Keeps pm s0 s) : KeepsP pm s0 (specDwellConfig.body c s) := by
  simp only [specDwellConfig]
  repeat' first
    | with_reducible assumption
    | with_reducible refine onNb_keeps (sub (by decide) hm) ?_
    | with_reducible refine keepsP_mk ?_
    | split

theorem execDwellConfig_keeps {s0 s : State} {d : Doorbell} {p : List Byte} (hm : ([.boot, .mbx, .host, .evt, .modes, .flt, .clk, .nb, .ring, .out] : List Part).all pm = true) (hk : Keeps pm s0 s) :
    KeepsOut pm s0 (execDwellConfig d p s) := by
  unfold execDwellConfig
  try dsimp only
  repeat' first
    | with_reducible assumption
    | (refine command_keeps (sub (by decide) hm) ?_ (fun _ _ hh => specDwellConfig_keeps (sub (by decide) hm) hh))

end Sys2Proof.Machine
end

