-- ==== Sys2Proof/Laws/KeepLife.lean ====
section
/-!
SUPPORT. What the operations of Machine.Life keep.
-/
set_option linter.unusedSimpArgs false
set_option linter.unusedVariables false
namespace Sys2Proof.Machine

variable {pm : Part → Bool}

theorem expireSleep_keeps {s0 s : State} {b0 b1 : Nat} (hm : ([.boot, .host, .evt, .cad, .clk, .air, .tm, .out] : List Part).all pm = true) (hk : Keeps pm s0 s) :
    Keeps pm s0 (expireSleep b0 b1 s) := by
  unfold expireSleep
  try dsimp only
  repeat' first
    | with_reducible assumption
    | with_reducible refine onCad_keeps (sub (by decide) hm) ?_
    | with_reducible refine onAir_keeps (sub (by decide) hm) ?_
    | with_reducible refine onTm_keeps (sub (by decide) hm) ?_
    | with_reducible refine raise_keeps (sub (by decide) hm) ?_
    | with_reducible refine keeps_foldl ?_ ?_
    | (intro _ _ _)

theorem loadCounter_keeps {s0 s : State}  (hm : ([.cad, .clk] : List Part).all pm = true) (hk : Keeps pm s0 s) :
    Keeps pm s0 (loadCounter s) := by
  unfold loadCounter
  try dsimp only
  repeat' first
    | with_reducible assumption
    | with_reducible refine onCad_keeps (sub (by decide) hm) ?_
    | with_reducible refine onClk_keeps (sub (by decide) hm) ?_
    | split

theorem leaveVigil_keeps {s0 s : State}  (hm : ([.boot, .host, .evt, .modes, .cad, .clk, .air, .nb, .mlad, .tm, .out] : List Part).all pm = true) (hk : Keeps pm s0 s) :
    Keeps pm s0 (leaveVigil s) := by
  unfold leaveVigil
  try dsimp only
  repeat' first
    | with_reducible assumption
    | with_reducible refine onModes_keeps (sub (by decide) hm) ?_ ?_ ?_ ?_ ?_
    | with_reducible refine onCad_keeps (sub (by decide) hm) ?_
    | with_reducible refine onNb_keeps (sub (by decide) hm) ?_
    | with_reducible refine onMlad_keeps (sub (by decide) hm) ?_
    | with_reducible refine onTm_keeps (sub (by decide) hm) ?_
    | with_reducible refine loadCounter_keeps (sub (by decide) hm) ?_
    | with_reducible refine expireSleep_keeps (sub (by decide) hm) ?_
    | with_reducible refine raise_keeps (sub (by decide) hm) ?_
    | split
    | with_reducible exact id
    | (intro hh; simp at hh ⊢; done)

theorem refreshOuts_keeps {s0 s : State}  (hm : ([.outs] : List Part).all pm = true) (hk : Keeps pm s0 s) :
    Keeps pm s0 (refreshOuts s) := by
  unfold refreshOuts
  try dsimp only
  repeat' first
    | with_reducible assumption
    | with_reducible refine onOuts_keeps (sub (by decide) hm) ?_
    | split

theorem dropDomain_keeps {s0 s : State} {d : Nat} (hm : ([.fe, .air, .col] : List Part).all pm = true) (hk : Keeps pm s0 s) :
    Keeps pm s0 (dropDomain d s) := by
  unfold dropDomain
  try dsimp only
  repeat' first
    | with_reducible assumption
    | with_reducible refine onFe_keeps (sub (by decide) hm) ?_
    | with_reducible refine onAir_keeps (sub (by decide) hm) ?_
    | with_reducible refine onCol_keeps (sub (by decide) hm) ?_
    | split

theorem enterMode_keeps {s0 s : State} {mode cause us : Nat} (hm : ([.outs, .boot, .host, .evt, .modes, .clk, .fe, .air, .col, .ring, .out] : List Part).all pm = true) (h : Keeps pm s0 s) (hmode : Inv s0 → mode ≤ 7) :
    Keeps pm s0 (enterMode mode cause us s) := by
  unfold enterMode
  dsimp only
  have k1 : Keeps pm s0 ((if mode = 3 then [4, 5, 6, 7] else []).foldl (fun s d => dropDomain d s) s) :=
    keeps_foldl h fun u x k => dropDomain_keeps (sub (by decide) hm) k
  revert k1
  generalize (if mode = 3 then [4, 5, 6, 7] else []).foldl (fun s d => dropDomain d s) s = u
  intro k1
  have k2 : Keeps pm s0 (if mode = 3 then u.onRing fun r => { r with
      lastRdv := none, window := false, arrived := false, misses := 0, g := r.guardUs
      ports := r.ports.map fun p => { p with up := false, wait := [] } } else u) := by
    split
    · exact onRing_keeps (sub (by decide) hm) k1
    · exact k1
  revert k2
  generalize (if mode = 3 then u.onRing _ else u) = v
  intro k2
  refine raise_keeps (sub (by decide) hm) (refreshOuts_keeps (sub (by decide) hm) (onFe_keeps (sub (by decide) hm) (onModes_keeps (sub (by decide) hm) ?_ id id id id)))
  exact ⟨fun p hp => by cases p <;> first | exact k2.frame _ hp | simp [hp] at hm, k2.pending, k2.drawn, k2.lock, fun i => let j := k2.inv i
    ⟨j.1, j.2, j.3, j.4, hmode i, j.6, j.7, j.8, j.9, by simpa [State.onModes] using j.10, j.11, j.12⟩⟩

theorem startGasp_keeps {s0 s : State} {code : Nat} (hm : ([.boot, .flt] : List Part).all pm = true) (hk : Keeps pm s0 s) :
    Keeps pm s0 (startGasp code s) := by
  unfold startGasp
  try dsimp only
  repeat' first
    | with_reducible assumption
    | with_reducible refine onFlt_keeps (sub (by decide) hm) ?_ ?_ ?_
    | with_reducible refine mramWrite_keeps (sub (by decide) hm) ?_
    | split
    | with_reducible exact id

theorem endGasp_keeps {s0 s : State}  (hm : ([.boot, .flt] : List Part).all pm = true) (hk : Keeps pm s0 s) :
    Keeps pm s0 (endGasp s) := by
  unfold endGasp
  try dsimp only
  repeat' first
    | with_reducible assumption
    | with_reducible refine onFlt_keeps (sub (by decide) hm) ?_ ?_ ?_
    | with_reducible refine mramWrite_keeps (sub (by decide) hm) ?_
    | split
    | with_reducible exact id

theorem addCause_keeps {s0 s : State} {code : Nat} (hm : ([.flt] : List Part).all pm = true) (hk : Keeps pm s0 s) :
    Keeps pm s0 (addCause code s) := by
  unfold addCause
  try dsimp only
  repeat' first
    | with_reducible assumption
    | with_reducible refine onFlt_keeps (sub (by decide) hm) ?_ ?_ ?_
    | with_reducible refine countCairn_keeps (sub (by decide) hm) ?_
    | split
    | with_reducible exact id

theorem raiseSafe_keeps {s0 s : State} {code : Nat} {later : Bool} (hm : ([.boot, .host, .evt, .clk, .out] : List Part).all pm = true) (hk : Keeps pm s0 s) :
    Keeps pm s0 (raiseSafe code later s) := by
  unfold raiseSafe
  try dsimp only
  repeat' first
    | with_reducible assumption
    | with_reducible refine raise_keeps (sub (by decide) hm) ?_

theorem beginOutage_keeps {s0 s : State}  (hm : ([.flt] : List Part).all pm = true) (hk : Keeps pm s0 s) :
    Keeps pm s0 (beginOutage s) := by
  unfold beginOutage
  try dsimp only
  repeat' first
    | with_reducible assumption
    | with_reducible refine onFlt_keeps (sub (by decide) hm) ?_ ?_ ?_
    | split
    | with_reducible exact id

theorem chargeHalted_keeps {s0 s : State}  (hm : ([.nb] : List Part).all pm = true) (hk : Keeps pm s0 s) :
    Keeps pm s0 (chargeHalted s) := by
  unfold chargeHalted
  try dsimp only
  repeat' first
    | with_reducible assumption
    | with_reducible refine charge_keeps (sub (by decide) hm) ?_
    | with_reducible refine keeps_foldl ?_ ?_
    | split
    | (intro _ _ _)

theorem haltRadios_keeps {s0 s : State}  (hm : ([.fe, .cal, .air, .nb] : List Part).all pm = true) (hk : Keeps pm s0 s) :
    Keeps pm s0 (haltRadios s) := by
  unfold haltRadios
  try dsimp only
  repeat' first
    | with_reducible assumption
    | with_reducible refine onFe_keeps (sub (by decide) hm) ?_
    | with_reducible refine onCal_keeps (sub (by decide) hm) ?_
    | with_reducible refine onAir_keeps (sub (by decide) hm) ?_
    | with_reducible refine onNb_keeps (sub (by decide) hm) ?_
    | with_reducible refine chargeHalted_keeps (sub (by decide) hm) ?_

theorem releaseSwitches_keeps {s0 s : State}  (hm : ([.tm, .ring] : List Part).all pm = true) (hk : Keeps pm s0 s) :
    Keeps pm s0 (releaseSwitches s) := by
  unfold releaseSwitches
  try dsimp only
  repeat' first
    | with_reducible assumption
    | with_reducible refine onTm_keeps (sub (by decide) hm) ?_
    | with_reducible refine onRing_keeps (sub (by decide) hm) ?_

theorem endAllLongs_keeps {s0 s : State} {keep : Cmd → Bool} (hm : ([.boot, .mbx, .modes] : List Part).all pm = true) (hk : Keeps pm s0 s) :
    Keeps pm s0 (endAllLongs keep s) := by
  unfold endAllLongs
  try dsimp only
  repeat' first
    | with_reducible assumption
    | with_reducible refine onBoot_keeps (sub (by decide) hm) ?_ ?_ ?_ ?_
    | with_reducible refine onMbx_keeps (sub (by decide) hm) ?_ ?_
    | with_reducible refine onModes_keeps (sub (by decide) hm) ?_ ?_ ?_ ?_ ?_
    | split
    | with_reducible exact id
    | (intro hh; simp at hh ⊢; done)

theorem enterSafe_keeps {s0 s : State} {code : Nat} {detail : List Byte} {keep : Cmd → Bool} (hm : ([.outs, .boot, .mbx, .host, .evt, .modes, .flt, .cad, .clk, .fe, .cal, .air, .nb, .mlad, .tm, .col, .dram, .ring, .out] : List Part).all pm = true) (hk : Keeps pm s0 s) :
    Keeps pm s0 (enterSafe code detail s keep) := by
  unfold enterSafe
  try dsimp only
  repeat' first
    | with_reducible assumption
    | with_reducible refine onOuts_keeps (sub (by decide) hm) ?_
    | with_reducible refine onBoot_keeps (sub (by decide) hm) ?_ ?_ ?_ ?_
    | with_reducible refine onFlt_keeps (sub (by decide) hm) ?_ ?_ ?_
    | with_reducible refine onDram_keeps (sub (by decide) hm) ?_ ?_
    | with_reducible refine endAllLongs_keeps (sub (by decide) hm) ?_
    | with_reducible refine releaseSwitches_keeps (sub (by decide) hm) ?_
    | with_reducible refine haltRadios_keeps (sub (by decide) hm) ?_
    | with_reducible refine beginOutage_keeps (sub (by decide) hm) ?_
    | with_reducible refine raiseSafe_keeps (sub (by decide) hm) ?_
    | with_reducible refine addCause_keeps (sub (by decide) hm) ?_
    | with_reducible refine startGasp_keeps (sub (by decide) hm) ?_
    | with_reducible refine enterMode_keeps (sub (by decide) hm) ?_ (fun _ => Nat.le_of_ble_eq_true rfl)
    | with_reducible refine leaveVigil_keeps (sub (by decide) hm) ?_
    | split
    | with_reducible exact id

theorem enterHold_keeps {s0 s : State} (hm : ([.pwr, .outs, .boot, .mbx, .host, .evt, .modes, .flt, .cad, .clk, .fe, .cal, .air, .nb, .mlad, .cls, .fwd, .tm, .cipher, .col, .dram, .ring] : List Part).all pm = true) (h : Keeps pm s0 s) : Keeps pm s0 (enterHold s) := by
  exact ⟨fun p hp => by cases p <;> first | exact h.frame _ hp | simp [hp] at hm, h.pending, h.drawn, h.lock, fun i => let j := h.inv i; ⟨j.mram, rfl, rfl, j.freeze, (Nat.le_of_ble_eq_true rfl), (Nat.le_of_ble_eq_true rfl), (Nat.le_of_ble_eq_true rfl), rfl, rfl, rfl, j.counters, j.sensors⟩⟩

theorem bootState_keeps {s0 s : State} (hm : ([.pwr, .outs, .boot, .mbx, .host, .evt, .modes, .flt, .cad, .clk, .fe, .cal, .air, .nb, .mlad, .cls, .fwd, .tm, .cipher, .col, .dram, .ring] : List Part).all pm = true) (h : Keeps pm s0 s) : Keeps pm s0 (bootState s) := by
  exact ⟨fun p hp => by cases p <;> first | exact h.frame _ hp | simp [hp] at hm, h.pending, h.drawn, h.lock, fun i => let j := h.inv i; ⟨j.mram, rfl, rfl, j.freeze, j.mode, (Nat.le_of_ble_eq_true rfl), (Nat.le_of_ble_eq_true rfl), rfl, rfl, rfl, j.counters, j.sensors⟩⟩

theorem restart_keeps {s0 s : State}  (hm : ([.pwr, .outs, .boot, .mbx, .host, .evt, .modes, .flt, .cad, .clk, .fe, .cal, .air, .nb, .mlad, .cls, .fwd, .tm, .cipher, .col, .dram, .ring] : List Part).all pm = true) (hk : Keeps pm s0 s) :
    Keeps pm s0 (restart s) := by
  unfold restart
  try dsimp only
  repeat' first
    | with_reducible assumption
    | with_reducible refine onOuts_keeps (sub (by decide) hm) ?_
    | with_reducible refine onBoot_keeps (sub (by decide) hm) ?_ ?_ ?_ ?_
    | with_reducible refine onModes_keeps (sub (by decide) hm) ?_ ?_ ?_ ?_ ?_
    | with_reducible refine bootState_keeps (sub (by decide) hm) ?_
    | with_reducible refine onClk_keeps (sub (by decide) hm) ?_
    | with_reducible refine loadCounter_keeps (sub (by decide) hm) ?_
    | with_reducible refine onPage_keeps (sub (by decide) hm) ?_
    | split
    | with_reducible exact id
    | (intro hh; simp at hh ⊢; done)

end Sys2Proof.Machine
end

