-- ==== Sys2Proof/Laws/KeepNbBase.lean ====
section
/-!
SUPPORT. What the operations of Machine.NbBase keep.
-/
set_option linter.unusedSimpArgs false
set_option linter.unusedVariables false
namespace Sys2Proof.Machine

variable {pm : Part → Bool}

theorem onX_keeps {s0 s : State} {i : Nat} {f : Xcvr → Xcvr} (hm : ([.nb] : List Part).all pm = true) (hk : Keeps pm s0 s) :
    Keeps pm s0 (onX i f s) := by
  unfold onX
  try dsimp only
  repeat' first
    | with_reducible assumption
    | with_reducible refine onNb_keeps (sub (by decide) hm) ?_

theorem countX_keeps {s0 s : State} {i c : Nat} {k : Nat} (hm : ([.nb] : List Part).all pm = true) (hk : Keeps pm s0 s) :
    Keeps pm s0 (countX i c s k) := by
  unfold countX
  try dsimp only
  repeat' first
    | with_reducible assumption
    | with_reducible refine onX_keeps (sub (by decide) hm) ?_

theorem collisions_keeps {s0 s : State}  (hm : ([.nb] : List Part).all pm = true) (hk : Keeps pm s0 s) :
    Keeps pm s0 (collisions s) := by
  unfold collisions
  try dsimp only
  repeat' first
    | with_reducible assumption
    | with_reducible refine onNb_keeps (sub (by decide) hm) ?_

theorem retuneX_keeps {s0 s : State} {i ch : Nat} (hm : ([.nb] : List Part).all pm = true) (hk : Keeps pm s0 s) :
    Keeps pm s0 (retuneX i ch s) := by
  unfold retuneX
  try dsimp only
  repeat' first
    | with_reducible assumption
    | with_reducible refine collisions_keeps (sub (by decide) hm) ?_
    | with_reducible refine onX_keeps (sub (by decide) hm) ?_

theorem nbMoves_keeps {s0 s : State}  (hm : ([.nb] : List Part).all pm = true) (hk : Keeps pm s0 s) :
    Keeps pm s0 (nbMoves s) := by
  unfold nbMoves
  try dsimp only
  repeat' first
    | with_reducible assumption
    | with_reducible refine retuneX_keeps (sub (by decide) hm) ?_
    | with_reducible refine keeps_foldl ?_ ?_
    | split
    | (intro _ _ _)

theorem countMlad_keeps {s0 s : State} {i : Nat} {k : Nat} (hm : ([.mlad] : List Part).all pm = true) (hk : Keeps pm s0 s) :
    Keeps pm s0 (countMlad i s k) := by
  unfold countMlad
  try dsimp only
  repeat' first
    | with_reducible assumption
    | with_reducible refine onMlad_keeps (sub (by decide) hm) ?_

theorem onNode_keeps {s0 s : State} {n : Nat} {f : Node → Node} (hm : ([.mlad] : List Part).all pm = true) (hk : Keeps pm s0 s) :
    Keeps pm s0 (onNode n f s) := by
  unfold onNode
  try dsimp only
  repeat' first
    | with_reducible assumption
    | with_reducible refine onMlad_keeps (sub (by decide) hm) ?_
    | split

theorem countNode_keeps {s0 s : State} {n i : Nat} (hm : ([.mlad] : List Part).all pm = true) (hk : Keeps pm s0 s) :
    Keeps pm s0 (countNode n i s) := by
  unfold countNode
  try dsimp only
  repeat' first
    | with_reducible assumption
    | with_reducible refine onNode_keeps (sub (by decide) hm) ?_

theorem failNb_keeps {s0 s : State} {f : NbFrame} {reason attempts last : Nat} {cookie : W64} (hm : ([.boot, .host, .evt, .clk, .mlad, .out] : List Part).all pm = true) (hk : Keeps pm s0 s) :
    Keeps pm s0 (failNb f reason attempts last cookie s) := by
  unfold failNb
  try dsimp only
  repeat' first
    | with_reducible assumption
    | with_reducible refine countNode_keeps (sub (by decide) hm) ?_
    | with_reducible refine countMlad_keeps (sub (by decide) hm) ?_
    | with_reducible refine raise_keeps (sub (by decide) hm) ?_
    | split

theorem dropHeld_keeps {s0 s : State} {f : HeldFrame} {reason : Nat} (hm : ([.boot, .host, .evt, .clk, .mlad, .out] : List Part).all pm = true) (hk : Keeps pm s0 s) :
    Keeps pm s0 (dropHeld f reason s) := by
  unfold dropHeld
  try dsimp only
  repeat' first
    | with_reducible assumption
    | with_reducible refine onMlad_keeps (sub (by decide) hm) ?_
    | with_reducible refine failNb_keeps (sub (by decide) hm) ?_
    | with_reducible refine countMlad_keeps (sub (by decide) hm) ?_
    | split

theorem trimHeld_keeps {s0 s : State}  (hm : ([.boot, .host, .evt, .clk, .mlad, .out] : List Part).all pm = true) (hk : Keeps pm s0 s) :
    Keeps pm s0 (trimHeld s) := by
  unfold trimHeld
  try dsimp only
  repeat' first
    | with_reducible assumption
    | with_reducible refine onMlad_keeps (sub (by decide) hm) ?_
    | with_reducible refine dropHeld_keeps (sub (by decide) hm) ?_
    | with_reducible refine keeps_foldl ?_ ?_
    | (intro _ _ _)

end Sys2Proof.Machine
end

