-- ==== Sys2Proof/Laws/KeepTrans.lean ====
section
/-!
SUPPORT. What the operations of Machine.Trans keep.
-/
set_option linter.unusedSimpArgs false
set_option linter.unusedVariables false
namespace Sys2Proof.Machine

variable {pm : Part → Bool}

theorem onModesI_keeps {s0 s : State} {f : Modes → Modes} (hm : ([.modes] : List Part).all pm = true) (h : Keeps pm s0 s) (h1 : (f s.modes).mode = s.modes.mode)
    (h2 : (f s.modes).warmTarget = s.modes.warmTarget)
    (h3 : Inv s0 → (f s.modes).trans.all Trans.legal = true)
    (h4 : s.modes.doms.length = 8 → (f s.modes).doms.length = 8) : Keeps pm s0 (s.onModes f) :=
  ⟨fun p hp => by cases p <;> first | exact h.frame _ hp | simp [hp] at hm, h.pending, h.drawn, h.lock, fun i => let j := h.inv i
    ⟨j.1, j.2, j.3, j.4, Nat.le_trans (Nat.le_of_eq h1) j.5, Nat.le_trans (Nat.le_of_eq h2) j.6, j.7, h3 i, j.9, h4 j.10, j.11, j.12⟩⟩

/-- A transition under way leads to mode codes. -/
theorem trans_legal {s0 s : State} {t : Trans} (h : Keeps pm s0 s) (e : s.modes.trans = some t) (i : Inv s0) : t.stage ≤ 7 ∧ t.final ≤ 7 := by
  have := (h.inv i).trans
  rw [e] at this
  simpa [Trans.legal] using this

/-- A transition with bounded modes is legal. -/
theorem legal_of {t : Trans} (h : t.stage ≤ 7 ∧ t.final ≤ 7) : (some t).all Trans.legal = true := by
  simpa [Trans.legal] using h

theorem autoStopped_keeps {s0 s : State} {reason agent refusal dom : Nat} (hm : ([.boot, .host, .evt, .clk, .out] : List Part).all pm = true) (hk : Keeps pm s0 s) :
    Keeps pm s0 (autoStopped reason agent refusal dom s) := by
  unfold autoStopped
  try dsimp only
  repeat' first
    | with_reducible assumption
    | with_reducible refine onBoot_keeps (sub (by decide) hm) ?_ ?_ ?_ ?_
    | with_reducible refine raise_keeps (sub (by decide) hm) ?_
    | with_reducible exact id

theorem finishTrans_keeps {s0 s : State} {status agent reason dom : Nat} (hm : ([.boot, .mbx, .host, .evt, .modes, .clk, .ring, .out] : List Part).all pm = true) (hk : Keeps pm s0 s) :
    Keeps pm s0 (finishTrans status agent reason dom s) := by
  unfold finishTrans
  try dsimp only
  repeat' first
    | with_reducible assumption
    | with_reducible refine onBoot_keeps (sub (by decide) hm) ?_ ?_ ?_ ?_
    | with_reducible refine onModes_keeps (sub (by decide) hm) ?_ ?_ ?_ ?_ ?_
    | with_reducible refine autoStopped_keeps (sub (by decide) hm) ?_
    | with_reducible refine endLong_keeps (sub (by decide) hm) ?_
    | split
    | with_reducible exact id
    | (intro hh; simp at hh ⊢; done)

theorem abortEntry_keeps {s0 s : State} {agent reason : Nat} (hm : ([.boot, .mbx, .host, .evt, .modes, .clk, .ring, .out] : List Part).all pm = true) (hk : Keeps pm s0 s) :
    Keeps pm s0 (abortEntry agent reason s) := by
  unfold abortEntry
  try dsimp only
  repeat' first
    | with_reducible assumption
    | with_reducible refine onModes_keeps (sub (by decide) hm) ?_ ?_ ?_ ?_ ?_
    | with_reducible refine emit_keeps (sub (by decide) hm) ?_
    | with_reducible refine finishTrans_keeps (sub (by decide) hm) ?_
    | with_reducible refine raise_keeps (sub (by decide) hm) ?_
    | with_reducible refine keeps_foldl ?_ ?_
    | split
    | with_reducible exact id
    | (intro hh; simp_all [Trans.legal]; done)
    | (intro _ _ _)

theorem refuseEntry_keeps {s0 s : State} {a reason : Nat} (hm : ([.boot, .mbx, .host, .evt, .modes, .clk, .ring, .out] : List Part).all pm = true) (hk : Keeps pm s0 s) :
    Keeps pm s0 (refuseEntry a reason s) := by
  unfold refuseEntry
  try dsimp only
  repeat' first
    | with_reducible assumption
    | with_reducible refine onModes_keeps (sub (by decide) hm) ?_ ?_ ?_ ?_ ?_
    | with_reducible refine abortEntry_keeps (sub (by decide) hm) ?_
    | with_reducible exact id

theorem startHandshake_keeps {s0 s : State}  (hm : ([.boot, .mbx, .host, .evt, .modes, .clk, .ring, .out] : List Part).all pm = true) (hk : Keeps pm s0 s) :
    Keeps pm s0 (startHandshake s) := by
  unfold startHandshake
  try dsimp only
  repeat' first
    | with_reducible assumption
    | with_reducible refine onModes_keeps (sub (by decide) hm) ?_ ?_ ?_ ?_ ?_
    | with_reducible refine emit_keeps (sub (by decide) hm) ?_
    | with_reducible refine abortEntry_keeps (sub (by decide) hm) ?_
    | with_reducible refine keeps_foldl ?_ ?_
    | split
    | with_reducible exact id
    | (intro hh; simp_all [Trans.legal]; done)
    | (intro _ _ _)

theorem wakeFor_keeps {s0 s : State} {mode : Nat} (hm : ([.modes] : List Part).all pm = true) (hk : Keeps pm s0 s) :
    Keeps pm s0 (wakeFor mode s) := by
  unfold wakeFor
  try dsimp only
  repeat' first
    | with_reducible assumption
    | with_reducible refine onModes_keeps (sub (by decide) hm) ?_ ?_ ?_ ?_ ?_
    | with_reducible exact id
    | (intro hh; simp only [updAt, setAt, List.length_modify, List.length_set, List.length_map, List.length_zipIdx, List.length_cons, List.length_nil]; with_reducible exact hh)

theorem startStage_keeps {s0 s : State} (hm : ([.boot, .mbx, .host, .evt, .modes, .clk, .ring, .out] : List Part).all pm = true) (h : Keeps pm s0 s) : Keeps pm s0 (startStage s) := by
  unfold startStage
  split
  · exact h
  · rename_i t e
    dsimp only
    split
    · exact finishTrans_keeps (sub (by decide) hm) h
    · have k : Keeps pm s0 (s.onModes fun m => { m with trans := some { t with stage := nextMode s.modes.mode t.final, stageNs := nowNs s, handshaking := false, committed := false } }) := by
        refine onModesI_keeps (sub (by decide) hm) h rfl rfl (fun i => legal_of ⟨?_, (trans_legal h e i).2⟩) id
        have := (trans_legal h e i).2
        show nextMode s.modes.mode t.final ≤ 7
        unfold nextMode
        split <;> omega
      split
      · exact startHandshake_keeps (sub (by decide) hm) k
      · exact wakeFor_keeps (sub (by decide) hm) k

theorem beginTrans_keeps {s0 s : State} {by_ : TransBy} {final cause : Nat} {force : Bool} (hm : ([.boot, .mbx, .host, .evt, .modes, .clk, .ring, .out] : List Part).all pm = true) (h : Keeps pm s0 s)
    (hf : Inv s0 → final ≤ 7) : Keeps pm s0 (beginTrans by_ final cause force s) := by
  unfold beginTrans
  exact startStage_keeps (sub (by decide) hm) (onModesI_keeps (sub (by decide) hm) h rfl rfl (fun i => legal_of ⟨hf i, hf i⟩) id)

theorem autostart_keeps {s0 s : State} (hm : ([.boot, .mbx, .host, .evt, .modes, .clk, .ring, .out] : List Part).all pm = true) (h : Keeps pm s0 s) : Keeps pm s0 (autostart s) := by
  unfold autostart
  dsimp only
  split
  · exact onBoot_keeps (sub (by decide) hm) h id id id
  · exact beginTrans_keeps (sub (by decide) hm) (onBoot_keeps (sub (by decide) hm) h id id id) fun i => (h.inv i).auto

theorem vigilWake_keeps {s0 s : State} {src obj : Nat} (hm : ([.boot, .mbx, .host, .evt, .modes, .clk, .ring, .out] : List Part).all pm = true) (h : Keeps pm s0 s) : Keeps pm s0 (vigilWake src obj s) := by
  unfold vigilWake
  exact beginTrans_keeps (sub (by decide) hm) (raise_keeps (sub (by decide) hm) h) fun i => ((raise_keeps (sub (by decide) hm) h).inv i).warm

theorem wakeSource_keeps {s0 s : State} {src obj : Nat} (hm : ([.boot, .mbx, .host, .evt, .modes, .clk, .ring, .out] : List Part).all pm = true) (hk : Keeps pm s0 s) :
    Keeps pm s0 (wakeSource src obj s) := by
  unfold wakeSource
  try dsimp only
  repeat' first
    | with_reducible assumption
    | with_reducible refine onModes_keeps (sub (by decide) hm) ?_ ?_ ?_ ?_ ?_
    | with_reducible refine vigilWake_keeps (sub (by decide) hm) ?_
    | with_reducible refine abortEntry_keeps (sub (by decide) hm) ?_
    | split
    | with_reducible exact id

theorem captureClock_keeps {s0 s : State}  (hm : ([.clk] : List Part).all pm = true) (hk : Keeps pm s0 s) :
    Keeps pm s0 (captureClock s) := by
  unfold captureClock
  try dsimp only
  repeat' first
    | with_reducible assumption
    | with_reducible refine onClk_keeps (sub (by decide) hm) ?_

theorem drainDrop_keeps {s0 s : State}  (hm : ([.air, .tm] : List Part).all pm = true) (hk : Keeps pm s0 s) :
    Keeps pm s0 (drainDrop s) := by
  unfold drainDrop
  try dsimp only
  repeat' first
    | with_reducible assumption
    | with_reducible refine onAir_keeps (sub (by decide) hm) ?_
    | with_reducible refine onTm_keeps (sub (by decide) hm) ?_

theorem selfRefresh_keeps {s0 s : State}  (hm : ([.dram] : List Part).all pm = true) (hk : Keeps pm s0 s) :
    Keeps pm s0 (selfRefresh s) := by
  unfold selfRefresh
  try dsimp only
  repeat' first
    | with_reducible assumption
    | with_reducible refine onDram_keeps (sub (by decide) hm) ?_ ?_
    | split
    | with_reducible exact id

theorem vigilDoms_keeps {s0 s : State}  (hm : ([.modes] : List Part).all pm = true) (hk : Keeps pm s0 s) :
    Keeps pm s0 (vigilDoms s) := by
  unfold vigilDoms
  try dsimp only
  repeat' first
    | with_reducible assumption
    | with_reducible refine onModes_keeps (sub (by decide) hm) ?_ ?_ ?_ ?_ ?_
    | with_reducible exact id
    | (intro hh; simp only [updAt, setAt, List.length_modify, List.length_set, List.length_map, List.length_zipIdx, List.length_cons, List.length_nil]; with_reducible exact hh)

theorem vigilCommit_keeps {s0 s : State}  (hm : ([.boot, .host, .evt, .modes, .clk, .air, .nb, .mlad, .tm, .dram, .out] : List Part).all pm = true) (hk : Keeps pm s0 s) :
    Keeps pm s0 (vigilCommit s) := by
  unfold vigilCommit
  try dsimp only
  repeat' first
    | with_reducible assumption
    | with_reducible refine onNb_keeps (sub (by decide) hm) ?_
    | with_reducible refine vigilDoms_keeps (sub (by decide) hm) ?_
    | with_reducible refine selfRefresh_keeps (sub (by decide) hm) ?_
    | with_reducible refine drainDrop_keeps (sub (by decide) hm) ?_
    | with_reducible refine captureClock_keeps (sub (by decide) hm) ?_
    | with_reducible refine trimHeld_keeps (sub (by decide) hm) ?_
    | with_reducible refine nbMoves_keeps (sub (by decide) hm) ?_

theorem commitEntry_keeps {s0 s : State} (hm : ([.boot, .host, .evt, .modes, .clk, .air, .nb, .mlad, .tm, .dram, .out] : List Part).all pm = true) (h : Keeps pm s0 s) : Keeps pm s0 (commitEntry s) := by
  unfold commitEntry
  split
  · exact h
  · rename_i t e
    dsimp only
    have k : Keeps pm s0 (s.onModes fun m => { m with
      committedN := satAdd 32 m.committedN 1
      agents := m.agents.map fun a => { a with st := .idle, final := false }
      trans := some { t with handshaking := false, committed := true, hsSum := t.hsSum + (nowNs s - t.hsNs), commitBeat := curBeat s } }) := by
      refine onModesI_keeps (sub (by decide) hm) h rfl rfl (fun i => ?_) id
      have := trans_legal h e i
      simpa [Trans.legal] using this
    split
    · exact vigilCommit_keeps (sub (by decide) hm) k
    · exact k

theorem ringInsert_keeps {s0 s : State}  (hm : ([.outs, .ring] : List Part).all pm = true) (hk : Keeps pm s0 s) :
    Keeps pm s0 (ringInsert s) := by
  unfold ringInsert
  try dsimp only
  repeat' first
    | with_reducible assumption
    | with_reducible refine onOuts_keeps (sub (by decide) hm) ?_
    | with_reducible refine onRing_keeps (sub (by decide) hm) ?_
    | with_reducible refine refreshOuts_keeps (sub (by decide) hm) ?_

theorem chainInsert_keeps {s0 s : State}  (hm : ([.outs, .tm] : List Part).all pm = true) (hk : Keeps pm s0 s) :
    Keeps pm s0 (chainInsert s) := by
  unfold chainInsert
  try dsimp only
  repeat' first
    | with_reducible assumption
    | with_reducible refine onOuts_keeps (sub (by decide) hm) ?_
    | with_reducible refine onTm_keeps (sub (by decide) hm) ?_
    | with_reducible refine refreshOuts_keeps (sub (by decide) hm) ?_

theorem warmEntry_keeps {s0 s : State}  (hm : ([.outs, .tm, .ring] : List Part).all pm = true) (hk : Keeps pm s0 s) :
    Keeps pm s0 (warmEntry s) := by
  unfold warmEntry
  try dsimp only
  repeat' first
    | with_reducible assumption
    | with_reducible refine chainInsert_keeps (sub (by decide) hm) ?_
    | with_reducible refine ringInsert_keeps (sub (by decide) hm) ?_
    | split

theorem serveEntry_keeps {s0 s : State}  (hm : ([.flt] : List Part).all pm = true) (hk : Keeps pm s0 s) :
    Keeps pm s0 (serveEntry s) := by
  unfold serveEntry
  try dsimp only
  repeat' first
    | with_reducible assumption
    | with_reducible refine onFlt_keeps (sub (by decide) hm) ?_ ?_ ?_
    | split
    | with_reducible exact id

theorem serveLeave_keeps {s0 s : State}  (hm : ([.flt] : List Part).all pm = true) (hk : Keeps pm s0 s) :
    Keeps pm s0 (serveLeave s) := by
  unfold serveLeave
  try dsimp only
  repeat' first
    | with_reducible assumption
    | with_reducible refine onFlt_keeps (sub (by decide) hm) ?_ ?_ ?_
    | split
    | with_reducible exact id

theorem stageReached_keeps {s0 s : State} {calOk : Bool} (hm : ([.outs, .boot, .mbx, .host, .evt, .modes, .flt, .cad, .clk, .fe, .air, .nb, .mlad, .tm, .col, .ring, .out] : List Part).all pm = true) (h : Keeps pm s0 s) : Keeps pm s0 (stageReached calOk s) := by
  unfold stageReached
  split
  · exact h
  · rename_i t e
    dsimp only
    have k1 : Keeps pm s0 (if s.modes.mode = 3 then nbMoves (leaveVigil s) else if s.modes.mode = 5 then serveLeave s else s) := by
      split
      · exact nbMoves_keeps (sub (by decide) hm) (leaveVigil_keeps (sub (by decide) hm) h)
      · split
        · exact serveLeave_keeps (sub (by decide) hm) h
        · exact h
    revert k1
    generalize (if s.modes.mode = 3 then nbMoves (leaveVigil s) else if s.modes.mode = 5 then serveLeave s else s) = u
    intro k1
    have k2 : Keeps pm s0 (enterMode t.stage t.cause ((nowNs u - t.stageNs) / 1000) (u.onModes fun m => { m with target := t.final })) :=
      enterMode_keeps (sub (by decide) hm) (onModes_keeps (sub (by decide) hm) k1 id id id id) fun i => (trans_legal h e i).1
    revert k2
    generalize enterMode t.stage t.cause _ _ = v
    intro k2
    have k3 : Keeps pm s0 (if s.modes.mode = 2 then v.onBoot fun b => if b.autoOn then b else { b with stage := 8, phase := .done } else v) := by
      split
      · refine onBoot_keeps (sub (by decide) hm) k2 ?_ ?_ ?_ <;> (intro hh; split <;> exact hh)
      · exact k2
    revert k3
    generalize (if s.modes.mode = 2 then v.onBoot _ else v) = w
    intro k3
    have k4 : Keeps pm s0 (if t.stage = 4 then warmEntry w else if t.stage = 5 then serveEntry w else w) := by
      split
      · exact warmEntry_keeps (sub (by decide) hm) k3
      · split
        · exact serveEntry_keeps (sub (by decide) hm) k3
        · exact k3
    revert k4
    generalize (if t.stage = 4 then warmEntry w else if t.stage = 5 then serveEntry w else w) = x
    intro k4
    have k5 : Keeps pm s0 (if t.stage = 3 then x.onClk fun k => { k with alarm := alarmCount x } else x) := by
      split
      · exact onClk_keeps (sub (by decide) hm) k4
      · exact k4
    revert k5
    generalize (if t.stage = 3 then x.onClk _ else x) = y
    intro k5
    split
    · split
      · exact wakeSource_keeps (sub (by decide) hm) (onModes_keeps (sub (by decide) hm) (finishTrans_keeps (sub (by decide) hm) k5) id id id id)
      · exact finishTrans_keeps (sub (by decide) hm) k5
    · split
      · exact autoStopped_keeps (sub (by decide) hm) (onModes_keeps (sub (by decide) hm) k5 id id (fun _ => rfl) id)
      · exact startStage_keeps (sub (by decide) hm) k5

end Sys2Proof.Machine
end

