-- ==== Sys2Proof/Laws/KeepPower.lean ====
section
/-!
SUPPORT. What the operations of Machine.Power keep.
-/
set_option linter.unusedSimpArgs false
set_option linter.unusedVariables false
namespace Sys2Proof.Machine

variable {pm : Part → Bool}

theorem onlyIf_keeps {s0 s : State} {c : Bool} {f : State → State} (hm : ([] : List Part).all pm = true) (h : Keeps pm s0 s) (hf : Keeps pm s0 s → Keeps pm s0 (f s)) :
    Keeps pm s0 (onlyIf c f s) := by
  unfold onlyIf
  split
  · exact hf h
  · exact h

theorem powerless_keeps {s0 s : State} (hm : ([.pwr, .outs, .boot, .mbx, .host, .evt, .modes, .flt, .cad, .clk, .fe, .cal, .air, .nb, .mlad, .cls, .fwd, .tm, .cipher, .col, .dram, .ring] : List Part).all pm = true) (h : Keeps pm s0 s) : Keeps pm s0 (powerless s) := by
  exact ⟨fun p hp => by cases p <;> first | exact h.frame _ hp | simp [hp] at hm, h.pending, h.drawn, h.lock, fun i => let j := h.inv i; ⟨j.mram, rfl, rfl, rfl, (Nat.le_of_ble_eq_true rfl), (Nat.le_of_ble_eq_true rfl), (Nat.le_of_ble_eq_true rfl), rfl, rfl, rfl, rfl, j.sensors⟩⟩

theorem lossOutage_keeps {s0 s : State}  (hm : ([.flt] : List Part).all pm = true) (hk : Keeps pm s0 s) :
    Keeps pm s0 (lossOutage s) := by
  unfold lossOutage
  try dsimp only
  repeat' first
    | with_reducible assumption
    | with_reducible refine onFlt_keeps (sub (by decide) hm) ?_ ?_ ?_
    | with_reducible refine serveLeave_keeps (sub (by decide) hm) ?_
    | split
    | with_reducible exact id

theorem execPowerOn_keeps {s0 s : State} (hm : ([.pwr, .outs, .boot, .mbx, .host, .evt, .modes, .flt, .cad, .clk, .fe, .cal, .air, .nb, .mlad, .cls, .fwd, .tm, .cipher, .col, .dram, .ring] : List Part).all pm = true) (h : Keeps pm s0 s) : KeepsOut pm s0 (execPowerOn s) := by
  refine keepsOut_next (onlyIf_keeps (sub (by decide) hm) h fun h => ?_)
  exact ⟨fun p hp => by cases p <;> first | exact h.frame _ hp | simp [hp] at hm, h.pending, h.drawn, h.lock, fun i => let j := h.inv i; ⟨j.mram, rfl, rfl, rfl, (Nat.le_of_ble_eq_true rfl), (Nat.le_of_ble_eq_true rfl), (Nat.le_of_ble_eq_true rfl), rfl, rfl, rfl, rfl, j.sensors⟩⟩

theorem execVddIoUp_keeps {s0 s : State}  (hm : ([.pwr, .outs] : List Part).all pm = true) (hk : Keeps pm s0 s) :
    KeepsOut pm s0 (execVddIoUp s) := by
  unfold execVddIoUp
  try dsimp only
  repeat' first
    | with_reducible assumption
    | with_reducible refine onPwr_keeps (sub (by decide) hm) ?_
    | with_reducible refine onOuts_keeps (sub (by decide) hm) ?_
    | with_reducible refine onlyIf_keeps (sub (by decide) hm) ?_ (fun _ => ?_)
    | with_reducible refine keepsOut_next ?_

theorem execVddIoLoss_keeps {s0 s : State}  (hm : ([.pwr, .outs] : List Part).all pm = true) (hk : Keeps pm s0 s) :
    KeepsOut pm s0 (execVddIoLoss s) := by
  unfold execVddIoLoss
  try dsimp only
  repeat' first
    | with_reducible assumption
    | with_reducible refine onPwr_keeps (sub (by decide) hm) ?_
    | with_reducible refine onOuts_keeps (sub (by decide) hm) ?_
    | with_reducible refine onlyIf_keeps (sub (by decide) hm) ?_ (fun _ => ?_)
    | with_reducible refine keepsOut_next ?_

theorem execPowerOff_keeps {s0 s : State}  (hm : ([.pwr, .outs, .boot, .mbx, .host, .evt, .modes, .flt, .cad, .clk, .fe, .cal, .air, .nb, .mlad, .cls, .fwd, .tm, .cipher, .col, .dram, .ring] : List Part).all pm = true) (hk : Keeps pm s0 s) :
    KeepsOut pm s0 (execPowerOff s) := by
  unfold execPowerOff
  try dsimp only
  repeat' first
    | with_reducible assumption
    | with_reducible refine lossOutage_keeps (sub (by decide) hm) ?_
    | with_reducible refine powerless_keeps (sub (by decide) hm) ?_
    | with_reducible refine onlyIf_keeps (sub (by decide) hm) ?_ (fun _ => ?_)
    | with_reducible refine keepsOut_next ?_

theorem execPwrOkRise_keeps {s0 s : State}  (hm : ([.pwr, .outs] : List Part).all pm = true) (hk : Keeps pm s0 s) :
    KeepsOut pm s0 (execPwrOkRise s) := by
  unfold execPwrOkRise
  try dsimp only
  repeat' first
    | with_reducible assumption
    | with_reducible refine onPwr_keeps (sub (by decide) hm) ?_
    | with_reducible refine onOuts_keeps (sub (by decide) hm) ?_
    | with_reducible refine onlyIf_keeps (sub (by decide) hm) ?_ (fun _ => ?_)
    | with_reducible refine keepsOut_next ?_

theorem powerLossGasp_keeps {s0 s : State}  (hm : ([.boot, .flt] : List Part).all pm = true) (hk : Keeps pm s0 s) :
    Keeps pm s0 (powerLossGasp s) := by
  unfold powerLossGasp
  try dsimp only
  repeat' first
    | with_reducible assumption
    | with_reducible refine onFlt_keeps (sub (by decide) hm) ?_ ?_ ?_
    | with_reducible refine startGasp_keeps (sub (by decide) hm) ?_
    | with_reducible refine countCairn_keeps (sub (by decide) hm) ?_
    | split
    | with_reducible exact id

theorem execPwrOkFall_keeps {s0 s : State}  (hm : ([.pwr, .outs, .boot, .mbx, .host, .evt, .modes, .flt, .cad, .clk, .fe, .cal, .air, .nb, .mlad, .cls, .fwd, .tm, .cipher, .col, .dram, .ring] : List Part).all pm = true) (hk : Keeps pm s0 s) :
    KeepsOut pm s0 (execPwrOkFall s) := by
  unfold execPwrOkFall
  try dsimp only
  repeat' first
    | with_reducible assumption
    | with_reducible refine onPwr_keeps (sub (by decide) hm) ?_
    | with_reducible refine powerLossGasp_keeps (sub (by decide) hm) ?_
    | with_reducible refine lossOutage_keeps (sub (by decide) hm) ?_
    | with_reducible refine onlyIf_keeps (sub (by decide) hm) ?_ (fun _ => ?_)
    | with_reducible refine enterHold_keeps (sub (by decide) hm) ?_
    | with_reducible refine keepsOut_next ?_
    | split

theorem execResetNFall_keeps {s0 s : State}  (hm : ([.pwr, .outs, .boot, .mbx, .host, .evt, .modes, .flt, .cad, .clk, .fe, .cal, .air, .nb, .mlad, .cls, .fwd, .tm, .cipher, .col, .dram, .ring] : List Part).all pm = true) (hk : Keeps pm s0 s) :
    KeepsOut pm s0 (execResetNFall s) := by
  unfold execResetNFall
  try dsimp only
  repeat' first
    | with_reducible assumption
    | with_reducible refine onPwr_keeps (sub (by decide) hm) ?_
    | with_reducible refine onlyIf_keeps (sub (by decide) hm) ?_ (fun _ => ?_)
    | with_reducible refine serveLeave_keeps (sub (by decide) hm) ?_
    | with_reducible refine enterHold_keeps (sub (by decide) hm) ?_
    | with_reducible refine keepsOut_next ?_
    | split

theorem execResetNRise_keeps {s0 s : State} {profSel ringRole : BitVec 2} {ringId : BitVec 3} {bootHalt safeN : Bool} (hm : ([.pwr, .boot, .flt, .cad, .nb, .dram] : List Part).all pm = true) (hk : Keeps pm s0 s) :
    KeepsOut pm s0 (execResetNRise profSel ringRole ringId bootHalt safeN s) := by
  unfold execResetNRise
  try dsimp only
  repeat' first
    | with_reducible assumption
    | with_reducible refine onPwr_keeps (sub (by decide) hm) ?_
    | with_reducible refine onBoot_keeps (sub (by decide) hm) ?_ ?_ ?_ ?_
    | with_reducible refine onFlt_keeps (sub (by decide) hm) ?_ ?_ ?_
    | with_reducible refine onCad_keeps (sub (by decide) hm) ?_
    | with_reducible refine onNb_keeps (sub (by decide) hm) ?_
    | with_reducible refine onDram_keeps (sub (by decide) hm) ?_ ?_
    | with_reducible refine onlyIf_keeps (sub (by decide) hm) ?_ (fun _ => ?_)
    | with_reducible refine keepsOut_next ?_
    | split
    | with_reducible exact id
    | exact fun _ => rfl
    | (intro hh; simp at hh ⊢; done)

theorem execBrownout_keeps {s0 s : State} {rail : Nat} (hm : ([.outs, .boot, .mbx, .host, .evt, .modes, .flt, .cad, .clk, .fe, .cal, .air, .nb, .mlad, .tm, .col, .dram, .ring, .out] : List Part).all pm = true) (hk : Keeps pm s0 s) :
    KeepsOut pm s0 (execBrownout rail s) := by
  unfold execBrownout
  try dsimp only
  repeat' first
    | with_reducible assumption
    | with_reducible refine onlyIf_keeps (sub (by decide) hm) ?_ (fun _ => ?_)
    | with_reducible refine enterSafe_keeps (sub (by decide) hm) ?_
    | with_reducible refine keepsOut_next ?_

theorem execRefclkRfFail_keeps {s0 s : State}  (hm : ([.pwr, .outs, .boot, .mbx, .host, .evt, .modes, .flt, .cad, .clk, .fe, .cal, .air, .nb, .mlad, .tm, .col, .dram, .ring, .out] : List Part).all pm = true) (hk : Keeps pm s0 s) :
    KeepsOut pm s0 (execRefclkRfFail s) := by
  unfold execRefclkRfFail
  try dsimp only
  repeat' first
    | with_reducible assumption
    | with_reducible refine onPwr_keeps (sub (by decide) hm) ?_
    | with_reducible refine onlyIf_keeps (sub (by decide) hm) ?_ (fun _ => ?_)
    | with_reducible refine enterSafe_keeps (sub (by decide) hm) ?_
    | with_reducible refine keepsOut_next ?_

theorem execRefclkRfTimeout_keeps {s0 s : State}  (hm : ([.pwr, .outs, .boot, .mbx, .host, .evt, .modes, .flt, .cad, .clk, .fe, .cal, .air, .nb, .mlad, .tm, .col, .dram, .ring, .out] : List Part).all pm = true) (hk : Keeps pm s0 s) :
    KeepsOut pm s0 (execRefclkRfTimeout s) := by
  unfold execRefclkRfTimeout
  try dsimp only
  repeat' first
    | with_reducible assumption
    | with_reducible refine onPwr_keeps (sub (by decide) hm) ?_
    | with_reducible refine onlyIf_keeps (sub (by decide) hm) ?_ (fun _ => ?_)
    | with_reducible refine enterSafe_keeps (sub (by decide) hm) ?_
    | with_reducible refine keepsOut_next ?_

theorem linkDown_keeps {s0 s : State}  (hm : ([.host] : List Part).all pm = true) (hk : Keeps pm s0 s) :
    Keeps pm s0 (linkDown s) := by
  unfold linkDown
  try dsimp only
  repeat' first
    | with_reducible assumption
    | with_reducible refine onHost_keeps (sub (by decide) hm) ?_ ?_
    | with_reducible exact id

theorem execPcieRefclkFail_keeps {s0 s : State}  (hm : ([.pwr, .host] : List Part).all pm = true) (hk : Keeps pm s0 s) :
    KeepsOut pm s0 (execPcieRefclkFail s) := by
  unfold execPcieRefclkFail
  try dsimp only
  repeat' first
    | with_reducible assumption
    | with_reducible refine onPwr_keeps (sub (by decide) hm) ?_
    | with_reducible refine linkDown_keeps (sub (by decide) hm) ?_
    | with_reducible refine keepsOut_next ?_

theorem execPciePerstAssert_keeps {s0 s : State}  (hm : ([.pwr, .host] : List Part).all pm = true) (hk : Keeps pm s0 s) :
    KeepsOut pm s0 (execPciePerstAssert s) := by
  unfold execPciePerstAssert
  try dsimp only
  repeat' first
    | with_reducible assumption
    | with_reducible refine onPwr_keeps (sub (by decide) hm) ?_
    | with_reducible refine onHost_keeps (sub (by decide) hm) ?_ ?_
    | with_reducible refine linkDown_keeps (sub (by decide) hm) ?_
    | with_reducible refine keepsOut_next ?_
    | with_reducible exact id

theorem execPciePerstRelease_keeps {s0 s : State}  (hm : ([.pwr, .host] : List Part).all pm = true) (hk : Keeps pm s0 s) :
    KeepsOut pm s0 (execPciePerstRelease s) := by
  unfold execPciePerstRelease
  try dsimp only
  repeat' first
    | with_reducible assumption
    | with_reducible refine onPwr_keeps (sub (by decide) hm) ?_
    | with_reducible refine onHost_keeps (sub (by decide) hm) ?_ ?_
    | with_reducible refine keepsOut_next ?_
    | split
    | with_reducible exact id

theorem execPcieLinkUp_keeps {s0 s : State}  (hm : ([.pwr, .host] : List Part).all pm = true) (hk : Keeps pm s0 s) :
    KeepsOut pm s0 (execPcieLinkUp s) := by
  unfold execPcieLinkUp
  try dsimp only
  repeat' first
    | with_reducible assumption
    | with_reducible refine onPwr_keeps (sub (by decide) hm) ?_
    | with_reducible refine onHost_keeps (sub (by decide) hm) ?_ ?_
    | with_reducible refine onlyIf_keeps (sub (by decide) hm) ?_ (fun _ => ?_)
    | with_reducible refine keepsOut_next ?_
    | with_reducible exact id

theorem execKeeperStable_keeps {s0 s : State}  (hm : ([.pwr] : List Part).all pm = true) (hk : Keeps pm s0 s) :
    KeepsOut pm s0 (execKeeperStable s) := by
  unfold execKeeperStable
  try dsimp only
  repeat' first
    | with_reducible assumption
    | with_reducible refine onPwr_keeps (sub (by decide) hm) ?_
    | with_reducible refine onlyIf_keeps (sub (by decide) hm) ?_ (fun _ => ?_)
    | with_reducible refine keepsOut_next ?_

theorem execSafeNAssert_keeps {s0 s : State}  (hm : ([.pwr, .outs, .boot, .mbx, .host, .evt, .modes, .flt, .cad, .clk, .fe, .cal, .air, .nb, .mlad, .tm, .col, .dram, .ring, .out] : List Part).all pm = true) (hk : Keeps pm s0 s) :
    KeepsOut pm s0 (execSafeNAssert s) := by
  unfold execSafeNAssert
  try dsimp only
  repeat' first
    | with_reducible assumption
    | with_reducible refine onPwr_keeps (sub (by decide) hm) ?_
    | with_reducible refine enterSafe_keeps (sub (by decide) hm) ?_
    | with_reducible refine keepsOut_next ?_

theorem execWakeNAssert_keeps {s0 s : State}  (hm : ([.boot, .mbx, .host, .evt, .modes, .clk, .ring, .out] : List Part).all pm = true) (hk : Keeps pm s0 s) :
    KeepsOut pm s0 (execWakeNAssert s) := by
  unfold execWakeNAssert
  try dsimp only
  repeat' first
    | with_reducible assumption
    | with_reducible refine wakeSource_keeps (sub (by decide) hm) ?_
    | with_reducible refine keepsOut_next ?_

theorem execKeeperAlarm_keeps {s0 s : State}  (hm : ([.boot, .mbx, .host, .evt, .modes, .clk, .ring, .out] : List Part).all pm = true) (hk : Keeps pm s0 s) :
    KeepsOut pm s0 (execKeeperAlarm s) := by
  unfold execKeeperAlarm
  try dsimp only
  repeat' first
    | with_reducible assumption
    | with_reducible refine onClk_keeps (sub (by decide) hm) ?_
    | with_reducible refine onlyIf_keeps (sub (by decide) hm) ?_ (fun _ => ?_)
    | with_reducible refine wakeSource_keeps (sub (by decide) hm) ?_
    | with_reducible refine keepsOut_next ?_

theorem execThermalShutdown_keeps {s0 s : State} {sensor : Nat} (hm : ([.outs, .boot, .mbx, .host, .evt, .modes, .flt, .cad, .clk, .fe, .cal, .air, .nb, .mlad, .tm, .col, .dram, .ring, .out] : List Part).all pm = true) (hk : Keeps pm s0 s) :
    KeepsOut pm s0 (execThermalShutdown sensor s) := by
  unfold execThermalShutdown
  try dsimp only
  repeat' first
    | with_reducible assumption
    | with_reducible refine onlyIf_keeps (sub (by decide) hm) ?_ (fun _ => ?_)
    | with_reducible refine enterSafe_keeps (sub (by decide) hm) ?_
    | with_reducible refine keepsOut_next ?_

theorem execLockstepMismatch_keeps {s0 s : State} {pcA pcB : W32} (hm : ([.outs, .boot, .mbx, .host, .evt, .modes, .flt, .cad, .clk, .fe, .cal, .air, .nb, .mlad, .tm, .col, .dram, .ring, .out] : List Part).all pm = true) (hk : Keeps pm s0 s) :
    KeepsOut pm s0 (execLockstepMismatch pcA pcB s) := by
  unfold execLockstepMismatch
  try dsimp only
  repeat' first
    | with_reducible assumption
    | with_reducible refine onFlt_keeps (sub (by decide) hm) ?_ ?_ ?_
    | with_reducible refine onlyIf_keeps (sub (by decide) hm) ?_ (fun _ => ?_)
    | with_reducible refine enterSafe_keeps (sub (by decide) hm) ?_
    | with_reducible refine keepsOut_next ?_
    | with_reducible exact id

theorem execHeartbeatTick_keeps {s0 s : State}  (hm : ([.evt, .flt] : List Part).all pm = true) (hk : Keeps pm s0 s) :
    KeepsOut pm s0 (execHeartbeatTick s) := by
  unfold execHeartbeatTick
  try dsimp only
  repeat' first
    | with_reducible assumption
    | with_reducible refine onEvt_keeps (sub (by decide) hm) ?_
    | with_reducible refine onFlt_keeps (sub (by decide) hm) ?_ ?_ ?_
    | with_reducible refine onlyIf_keeps (sub (by decide) hm) ?_ (fun _ => ?_)
    | with_reducible refine keepsOut_next ?_
    | with_reducible exact id

theorem execWdtStage1Expiry_keeps {s0 s : State}  (hm : ([.outs, .boot, .mbx, .host, .evt, .modes, .flt, .cad, .clk, .fe, .cal, .air, .nb, .mlad, .tm, .col, .dram, .ring, .out] : List Part).all pm = true) (hk : Keeps pm s0 s) :
    KeepsOut pm s0 (execWdtStage1Expiry s) := by
  unfold execWdtStage1Expiry
  try dsimp only
  repeat' first
    | with_reducible assumption
    | with_reducible refine onlyIf_keeps (sub (by decide) hm) ?_ (fun _ => ?_)
    | with_reducible refine enterSafe_keeps (sub (by decide) hm) ?_
    | with_reducible refine countCairn_keeps (sub (by decide) hm) ?_
    | with_reducible refine keepsOut_next ?_

theorem watchdogRecord_keeps {s0 s : State}  (hm : ([.boot, .flt] : List Part).all pm = true) (hk : Keeps pm s0 s) :
    Keeps pm s0 (watchdogRecord s) := by
  unfold watchdogRecord
  try dsimp only
  repeat' first
    | with_reducible assumption
    | with_reducible refine onFlt_keeps (sub (by decide) hm) ?_ ?_ ?_
    | with_reducible refine beginOutage_keeps (sub (by decide) hm) ?_
    | with_reducible refine startGasp_keeps (sub (by decide) hm) ?_
    | split
    | with_reducible exact id

theorem execWdtResetExpiry_keeps {s0 s : State} {safeN : Bool} (hm : ([.pwr, .outs, .boot, .mbx, .host, .evt, .modes, .flt, .cad, .clk, .fe, .cal, .air, .nb, .mlad, .cls, .fwd, .tm, .cipher, .col, .dram, .ring] : List Part).all pm = true) (hk : Keeps pm s0 s) :
    KeepsOut pm s0 (execWdtResetExpiry safeN s) := by
  unfold execWdtResetExpiry
  try dsimp only
  repeat' first
    | with_reducible assumption
    | with_reducible refine onPwr_keeps (sub (by decide) hm) ?_
    | with_reducible refine onFlt_keeps (sub (by decide) hm) ?_ ?_ ?_
    | with_reducible refine watchdogRecord_keeps (sub (by decide) hm) ?_
    | with_reducible refine onlyIf_keeps (sub (by decide) hm) ?_ (fun _ => ?_)
    | with_reducible refine restart_keeps (sub (by decide) hm) ?_
    | with_reducible refine countCairn_keeps (sub (by decide) hm) ?_
    | with_reducible refine keepsOut_next ?_
    | with_reducible exact id

theorem autoRestart_keeps {s0 s : State}  (hm : ([.pwr, .outs, .boot, .mbx, .host, .evt, .modes, .flt, .cad, .clk, .fe, .cal, .air, .nb, .mlad, .cls, .fwd, .tm, .cipher, .col, .dram, .ring] : List Part).all pm = true) (hk : Keeps pm s0 s) :
    Keeps pm s0 (autoRestart s) := by
  unfold autoRestart
  try dsimp only
  repeat' first
    | with_reducible assumption
    | with_reducible refine onFlt_keeps (sub (by decide) hm) ?_ ?_ ?_
    | with_reducible refine restart_keeps (sub (by decide) hm) ?_
    | with_reducible refine countCairn_keeps (sub (by decide) hm) ?_
    | split
    | with_reducible exact id

theorem execAutoRestartExpiry_keeps {s0 s : State} {safeN : Bool} (hm : ([.pwr, .outs, .boot, .mbx, .host, .evt, .modes, .flt, .cad, .clk, .fe, .cal, .air, .nb, .mlad, .cls, .fwd, .tm, .cipher, .col, .dram, .ring] : List Part).all pm = true) (hk : Keeps pm s0 s) :
    KeepsOut pm s0 (execAutoRestartExpiry safeN s) := by
  unfold execAutoRestartExpiry
  try dsimp only
  repeat' first
    | with_reducible assumption
    | with_reducible refine onPwr_keeps (sub (by decide) hm) ?_
    | with_reducible refine onFlt_keeps (sub (by decide) hm) ?_ ?_ ?_
    | with_reducible refine autoRestart_keeps (sub (by decide) hm) ?_
    | with_reducible refine onlyIf_keeps (sub (by decide) hm) ?_ (fun _ => ?_)
    | with_reducible refine keepsOut_next ?_
    | split
    | with_reducible exact id

theorem execLastGaspDone_keeps {s0 s : State}  (hm : ([.pwr, .outs, .boot, .mbx, .host, .evt, .modes, .flt, .cad, .clk, .fe, .cal, .air, .nb, .mlad, .cls, .fwd, .tm, .cipher, .col, .dram, .ring] : List Part).all pm = true) (hk : Keeps pm s0 s) :
    KeepsOut pm s0 (execLastGaspDone s) := by
  unfold execLastGaspDone
  try dsimp only
  repeat' first
    | with_reducible assumption
    | with_reducible refine autoRestart_keeps (sub (by decide) hm) ?_
    | with_reducible refine endGasp_keeps (sub (by decide) hm) ?_
    | with_reducible refine keepsOut_next ?_
    | split

theorem execAvailabilityWrite_keeps {s0 s : State}  (hm : ([.flt] : List Part).all pm = true) (hk : Keeps pm s0 s) :
    KeepsOut pm s0 (execAvailabilityWrite s) := by
  unfold execAvailabilityWrite
  try dsimp only
  repeat' first
    | with_reducible assumption
    | with_reducible refine onFlt_keeps (sub (by decide) hm) ?_ ?_ ?_
    | with_reducible refine onlyIf_keeps (sub (by decide) hm) ?_ (fun _ => ?_)
    | with_reducible refine keepsOut_next ?_
    | split
    | with_reducible exact id

theorem failStalled_keeps {s0 s : State} {d : Nat} {a : Ans} (hm : ([.boot, .mbx, .host, .evt, .clk, .ring, .out] : List Part).all pm = true) (hk : Keeps pm s0 s) :
    Keeps pm s0 (failStalled d a s) := by
  unfold failStalled
  try dsimp only
  repeat' first
    | with_reducible assumption
    | with_reducible refine onMbx_keeps (sub (by decide) hm) ?_ ?_
    | with_reducible refine post_keeps (sub (by decide) hm) ?_
    | with_reducible refine keeps_foldl ?_ ?_
    | with_reducible exact id
    | (intro _ _ _)

theorem execDomainWakeTimeout_keeps {s0 s : State} {dom : Fin 8} {upStep : Nat} (hm : ([.outs, .boot, .mbx, .host, .evt, .modes, .flt, .cad, .clk, .fe, .cal, .air, .nb, .mlad, .tm, .col, .dram, .ring, .out] : List Part).all pm = true) (hk : Keeps pm s0 s) :
    KeepsOut pm s0 (execDomainWakeTimeout dom upStep s) := by
  unfold execDomainWakeTimeout
  try dsimp only
  repeat' first
    | with_reducible assumption
    | with_reducible refine onModes_keeps (sub (by decide) hm) ?_ ?_ ?_ ?_ ?_
    | with_reducible refine failStalled_keeps (sub (by decide) hm) ?_
    | with_reducible refine onlyIf_keeps (sub (by decide) hm) ?_ (fun _ => ?_)
    | with_reducible refine enterSafe_keeps (sub (by decide) hm) ?_
    | with_reducible refine onDom_keeps (sub (by decide) hm) ?_
    | with_reducible refine raise_keeps (sub (by decide) hm) ?_
    | with_reducible refine keepsOut_next ?_
    | split
    | with_reducible exact id

theorem execDomainWakeRetry_keeps {s0 s : State} {dom : Fin 8} (hm : ([.modes] : List Part).all pm = true) (hk : Keeps pm s0 s) :
    KeepsOut pm s0 (execDomainWakeRetry dom s) := by
  unfold execDomainWakeRetry
  try dsimp only
  repeat' first
    | with_reducible assumption
    | with_reducible refine onlyIf_keeps (sub (by decide) hm) ?_ (fun _ => ?_)
    | with_reducible refine onDom_keeps (sub (by decide) hm) ?_
    | with_reducible refine keepsOut_next ?_

theorem execDemandIdleExpiry_keeps {s0 s : State} {dom : Fin 8} (hm : ([.modes, .fe, .air, .col] : List Part).all pm = true) (hk : Keeps pm s0 s) :
    KeepsOut pm s0 (execDemandIdleExpiry dom s) := by
  unfold execDemandIdleExpiry
  try dsimp only
  repeat' first
    | with_reducible assumption
    | with_reducible refine onlyIf_keeps (sub (by decide) hm) ?_ (fun _ => ?_)
    | with_reducible refine dropDomain_keeps (sub (by decide) hm) ?_
    | with_reducible refine onDom_keeps (sub (by decide) hm) ?_
    | with_reducible refine keepsOut_next ?_

theorem takeAnswer_keeps {s0 s : State} {a : Nat} {ans : AgentAns} (hm : ([.boot, .mbx, .host, .evt, .modes, .clk, .air, .nb, .mlad, .tm, .dram, .ring, .out] : List Part).all pm = true) (hk : Keeps pm s0 s) :
    Keeps pm s0 (takeAnswer a ans s) := by
  unfold takeAnswer
  try dsimp only
  repeat' first
    | with_reducible assumption
    | with_reducible refine onModes_keeps (sub (by decide) hm) ?_ ?_ ?_ ?_ ?_
    | with_reducible refine commitEntry_keeps (sub (by decide) hm) ?_
    | with_reducible refine refuseEntry_keeps (sub (by decide) hm) ?_
    | split
    | with_reducible exact id

theorem execAgentAnswer_keeps {s0 s : State} {agent : Fin 16} {ans : AgentAns} (hm : ([.boot, .mbx, .host, .evt, .modes, .clk, .air, .nb, .mlad, .tm, .dram, .ring, .out] : List Part).all pm = true) (hk : Keeps pm s0 s) :
    KeepsOut pm s0 (execAgentAnswer agent ans s) := by
  unfold execAgentAnswer
  try dsimp only
  repeat' first
    | with_reducible assumption
    | with_reducible refine takeAnswer_keeps (sub (by decide) hm) ?_
    | with_reducible refine onlyIf_keeps (sub (by decide) hm) ?_ (fun _ => ?_)
    | with_reducible refine keepsOut_next ?_
    | split

theorem execAgentAnswerTimeout_keeps {s0 s : State} {agent : Fin 16} (hm : ([.boot, .mbx, .host, .evt, .modes, .clk, .ring, .out] : List Part).all pm = true) (hk : Keeps pm s0 s) :
    KeepsOut pm s0 (execAgentAnswerTimeout agent s) := by
  unfold execAgentAnswerTimeout
  try dsimp only
  repeat' first
    | with_reducible assumption
    | with_reducible refine onlyIf_keeps (sub (by decide) hm) ?_ (fun _ => ?_)
    | with_reducible refine refuseEntry_keeps (sub (by decide) hm) ?_
    | with_reducible refine keepsOut_next ?_

theorem execEnterResend_keeps {s0 s : State} {agent : Fin 16} (hm : ([.modes, .out] : List Part).all pm = true) (hk : Keeps pm s0 s) :
    KeepsOut pm s0 (execEnterResend agent s) := by
  unfold execEnterResend
  try dsimp only
  repeat' first
    | with_reducible assumption
    | with_reducible refine onModes_keeps (sub (by decide) hm) ?_ ?_ ?_ ?_ ?_
    | with_reducible refine emit_keeps (sub (by decide) hm) ?_
    | with_reducible refine keepsOut_next ?_
    | split
    | with_reducible exact id

end Sys2Proof.Machine
end

