-- ==== Sys2Proof/Laws/KeepPools.lean ====
section
/-!
SUPPORT. What the operations of Machine.Pools keep.
-/
set_option linter.unusedSimpArgs false
set_option linter.unusedVariables false
namespace Sys2Proof.Machine

variable {pm : Part → Bool}

theorem noteLow_keeps {s0 s : State}  (hm : ([.tm] : List Part).all pm = true) (hk : Keeps pm s0 s) :
    Keeps pm s0 (noteLow s) := by
  unfold noteLow
  try dsimp only
  repeat' first
    | with_reducible assumption
    | with_reducible refine onTm_keeps (sub (by decide) hm) ?_

theorem wbPut_keeps {s0 s : State} {n : Nat} (hm : ([.dram] : List Part).all pm = true) (hk : Keeps pm s0 s) :
    Keeps pm s0 (wbPut n s) := by
  unfold wbPut
  try dsimp only
  repeat' first
    | with_reducible assumption
    | with_reducible refine onDram_keeps (sub (by decide) hm) ?_ ?_
    | with_reducible exact id

theorem wbMissed_keeps {s0 s : State}  (hm : ([.dram] : List Part).all pm = true) (hk : Keeps pm s0 s) :
    Keeps pm s0 (wbMissed s) := by
  unfold wbMissed
  try dsimp only
  repeat' first
    | with_reducible assumption
    | with_reducible refine onDram_keeps (sub (by decide) hm) ?_ ?_
    | with_reducible exact id

end Sys2Proof.Machine
end

