-- ==== Sys2Proof/Laws/KeepHostIfc.lean ====
section
/-!
SUPPORT. What the operations of Machine.HostIfc keep.
-/
set_option linter.unusedSimpArgs false
set_option linter.unusedVariables false
namespace Sys2Proof.Machine

variable {pm : Part → Bool}

theorem execSvcRead_keeps {s0 s : State} {addr : BitVec 24} {count : Nat} (hm : ([.host] : List Part).all pm = true) (hk : Keeps pm s0 s) :
    KeepsOut pm s0 (execSvcRead addr count s) := by
  unfold execSvcRead
  try dsimp only
  repeat' first
    | with_reducible assumption
    | with_reducible refine onHost_keeps (sub (by decide) hm) ?_ ?_
    | with_reducible refine keepsOut_next ?_
    | split
    | with_reducible exact id

theorem execBarBadAccess_keeps {s0 s : State} {write : Bool} (hm : ([.host, .flt] : List Part).all pm = true) (hk : Keeps pm s0 s) :
    KeepsOut pm s0 (execBarBadAccess write s) := by
  unfold execBarBadAccess
  try dsimp only
  repeat' first
    | with_reducible assumption
    | with_reducible refine onHost_keeps (sub (by decide) hm) ?_ ?_
    | with_reducible refine onlyIf_keeps (sub (by decide) hm) ?_ (fun _ => ?_)
    | with_reducible refine countCairn_keeps (sub (by decide) hm) ?_
    | with_reducible refine keepsOut_next ?_
    | split
    | with_reducible exact id

theorem ringError_keeps {s0 s : State} {n cause : Nat} {cookie : W64} (hm : ([.boot, .host, .evt, .clk, .out] : List Part).all pm = true) (hk : Keeps pm s0 s) :
    Keeps pm s0 (ringError n cause cookie s) := by
  unfold ringError
  try dsimp only
  repeat' first
    | with_reducible assumption
    | with_reducible refine raise_keeps (sub (by decide) hm) ?_
    | with_reducible refine onRingN_keeps (sub (by decide) hm) ?_

theorem execHostIdxWrite_keeps {s0 s : State} {ring : BitVec 6} {v : W32} (hm : ([.boot, .host, .evt, .clk, .out] : List Part).all pm = true) (hk : Keeps pm s0 s) :
    KeepsOut pm s0 (execHostIdxWrite ring v s) := by
  unfold execHostIdxWrite
  try dsimp only
  repeat' first
    | with_reducible assumption
    | with_reducible refine ringError_keeps (sub (by decide) hm) ?_
    | with_reducible refine onlyIf_keeps (sub (by decide) hm) ?_ (fun _ => ?_)
    | with_reducible refine flushLost_keeps (sub (by decide) hm) ?_
    | with_reducible refine onRingN_keeps (sub (by decide) hm) ?_
    | with_reducible refine keepsOut_next ?_
    | split

theorem execDropCountRead_keeps {s0 s : State} {ring : BitVec 6} (hm : ([.host] : List Part).all pm = true) (hk : Keeps pm s0 s) :
    KeepsOut pm s0 (execDropCountRead ring s) := by
  unfold execDropCountRead
  try dsimp only
  repeat' first
    | with_reducible assumption
    | with_reducible refine onHost_keeps (sub (by decide) hm) ?_ ?_
    | with_reducible refine onlyIf_keeps (sub (by decide) hm) ?_ (fun _ => ?_)
    | with_reducible refine onRingN_keeps (sub (by decide) hm) ?_
    | with_reducible refine keepsOut_next ?_
    | with_reducible exact id

theorem flushWaiting_keeps {s0 s : State} {n : Nat} (hm : ([.boot, .host, .evt, .out] : List Part).all pm = true) (hk : Keeps pm s0 s) :
    Keeps pm s0 (flushWaiting n s) := by
  unfold flushWaiting
  try dsimp only
  repeat' first
    | with_reducible assumption
    | with_reducible refine logRec_keeps (sub (by decide) hm) ?_
    | with_reducible refine ringPutRec_keeps (sub (by decide) hm) ?_
    | with_reducible refine onRingN_keeps (sub (by decide) hm) ?_
    | with_reducible refine keeps_foldl ?_ ?_
    | split
    | (intro _ _ _)

theorem specHrConfig_keeps {s0 s : State} {c : Cmd} (hm : ([.boot, .host, .evt, .out] : List Part).all pm = true) (h : Keeps pm s0 s) : KeepsP pm s0 (specHrConfig.body c s) := by
  simp only [specHrConfig]
  repeat' first
    | with_reducible assumption
    | with_reducible refine flushWaiting_keeps (sub (by decide) hm) ?_
    | with_reducible refine flushLost_keeps (sub (by decide) hm) ?_
    | with_reducible refine onRingN_keeps (sub (by decide) hm) ?_
    | with_reducible refine keepsP_mk ?_
    | split

theorem execHrConfig_keeps {s0 s : State} {d : Doorbell} {p : List Byte} (hm : ([.boot, .mbx, .host, .evt, .modes, .flt, .clk, .ring, .out] : List Part).all pm = true) (hk : Keeps pm s0 s) :
    KeepsOut pm s0 (execHrConfig d p s) := by
  unfold execHrConfig
  try dsimp only
  repeat' first
    | with_reducible assumption
    | (refine command_keeps (sub (by decide) hm) ?_ (fun _ _ hh => specHrConfig_keeps (sub (by decide) hm) hh))

theorem execHrDisableDrained_keeps {s0 s : State} {ring : BitVec 6} (hm : ([.boot, .mbx, .host, .evt, .clk, .ring, .out] : List Part).all pm = true) (hk : Keeps pm s0 s) :
    KeepsOut pm s0 (execHrDisableDrained ring s) := by
  unfold execHrDisableDrained
  try dsimp only
  repeat' first
    | with_reducible assumption
    | with_reducible refine post_keeps (sub (by decide) hm) ?_
    | with_reducible refine onRingN_keeps (sub (by decide) hm) ?_
    | with_reducible refine keepsOut_next ?_
    | split

theorem specHrStatus_keeps {s0 s : State} {c : Cmd} (hm : ([] : List Part).all pm = true) (h : Keeps pm s0 s) : KeepsP pm s0 (specHrStatus.body c s) := by
  simp only [specHrStatus]
  repeat' first
    | with_reducible assumption
    | with_reducible refine keepsP_mk ?_
    | split

theorem execHrStatus_keeps {s0 s : State} {d : Doorbell} {p : List Byte} (hm : ([.boot, .mbx, .host, .evt, .modes, .flt, .clk, .ring, .out] : List Part).all pm = true) (hk : Keeps pm s0 s) :
    KeepsOut pm s0 (execHrStatus d p s) := by
  unfold execHrStatus
  try dsimp only
  repeat' first
    | with_reducible assumption
    | (refine command_keeps (sub (by decide) hm) ?_ (fun _ _ hh => specHrStatus_keeps (sub (by decide) hm) hh))

theorem execMsixModerationExpiry_keeps {s0 s : State} {ring : BitVec 6} (hm : ([.host, .out] : List Part).all pm = true) (hk : Keeps pm s0 s) :
    KeepsOut pm s0 (execMsixModerationExpiry ring s) := by
  unfold execMsixModerationExpiry
  try dsimp only
  repeat' first
    | with_reducible assumption
    | with_reducible refine onlyIf_keeps (sub (by decide) hm) ?_ (fun _ => ?_)
    | with_reducible refine onRingN_keeps (sub (by decide) hm) ?_
    | with_reducible refine raiseVec_keeps (sub (by decide) hm) ?_
    | with_reducible refine keepsOut_next ?_
    | split

theorem specEventRoute_keeps {s0 s : State} {c : Cmd} (hm : ([.host] : List Part).all pm = true) (h : Keeps pm s0 s) : KeepsP pm s0 (specEventRoute.body c s) := by
  simp only [specEventRoute]
  repeat' first
    | with_reducible assumption
    | with_reducible refine onHost_keeps (sub (by decide) hm) ?_ ?_
    | with_reducible refine keepsP_mk ?_
    | split
    | with_reducible exact id

theorem execEventRoute_keeps {s0 s : State} {d : Doorbell} {p : List Byte} (hm : ([.boot, .mbx, .host, .evt, .modes, .flt, .clk, .ring, .out] : List Part).all pm = true) (hk : Keeps pm s0 s) :
    KeepsOut pm s0 (execEventRoute d p s) := by
  unfold execEventRoute
  try dsimp only
  repeat' first
    | with_reducible assumption
    | (refine command_keeps (sub (by decide) hm) ?_ (fun _ _ hh => specEventRoute_keeps (sub (by decide) hm) hh))

theorem writeBufs_keeps {s0 s : State} {n : Nat} {k : HostPkt} {l : List (RxBuf × List Byte)} (hm : ([.host, .out] : List Part).all pm = true) (h : Keeps pm s0 s) :
    Keeps pm s0 (writeBufs n k l s) := by
  induction l generalizing s with
  | nil => exact h
  | cons x t ih =>
    unfold writeBufs
    exact ih (onRingN_keeps (sub (by decide) hm) (emit_keeps (sub (by decide) hm) (emit_keeps (sub (by decide) hm) h)))

theorem countHostQ_keeps {s0 s : State} {n i : Nat} (hm : ([.tm] : List Part).all pm = true) (hk : Keeps pm s0 s) :
    Keeps pm s0 (countHostQ n i s) := by
  unfold countHostQ
  try dsimp only
  repeat' first
    | with_reducible assumption
    | with_reducible refine onTm_keeps (sub (by decide) hm) ?_

theorem execHostRingWrite_keeps {s0 s : State} {ring : BitVec 6} {bufs : List RxBuf} (hm : ([.boot, .host, .evt, .clk, .tm, .out] : List Part).all pm = true) (hk : Keeps pm s0 s) :
    KeepsOut pm s0 (execHostRingWrite ring bufs s) := by
  unfold execHostRingWrite
  try dsimp only
  repeat' first
    | with_reducible assumption
    | with_reducible refine countHostQ_keeps (sub (by decide) hm) ?_
    | with_reducible refine writeBufs_keeps (sub (by decide) hm) ?_
    | with_reducible refine ringError_keeps (sub (by decide) hm) ?_
    | with_reducible refine ringDrop_keeps (sub (by decide) hm) ?_
    | with_reducible refine ringPublish_keeps (sub (by decide) hm) ?_
    | with_reducible refine onRingN_keeps (sub (by decide) hm) ?_
    | with_reducible refine keepsOut_next ?_
    | split

theorem hostQueue_keeps {s0 s : State} {n : Nat} {k : HostPkt} (hm : ([.host, .tm] : List Part).all pm = true) (hk : Keeps pm s0 s) :
    Keeps pm s0 (hostQueue n k s) := by
  unfold hostQueue
  try dsimp only
  repeat' first
    | with_reducible assumption
    | with_reducible refine countHostQ_keeps (sub (by decide) hm) ?_
    | with_reducible refine noteLow_keeps (sub (by decide) hm) ?_
    | with_reducible refine onRingN_keeps (sub (by decide) hm) ?_
    | split

theorem specGpioSet_keeps {s0 s : State} {c : Cmd} (hm : ([.pwr] : List Part).all pm = true) (h : Keeps pm s0 s) : KeepsP pm s0 (specGpioSet.body c s) := by
  simp only [specGpioSet]
  repeat' first
    | with_reducible assumption
    | with_reducible refine onPwr_keeps (sub (by decide) hm) ?_
    | with_reducible refine keepsP_mk ?_

theorem execGpioSet_keeps {s0 s : State} {d : Doorbell} {p : List Byte} (hm : ([.pwr, .boot, .mbx, .host, .evt, .modes, .flt, .clk, .ring, .out] : List Part).all pm = true) (hk : Keeps pm s0 s) :
    KeepsOut pm s0 (execGpioSet d p s) := by
  unfold execGpioSet
  try dsimp only
  repeat' first
    | with_reducible assumption
    | (refine command_keeps (sub (by decide) hm) ?_ (fun _ _ hh => specGpioSet_keeps (sub (by decide) hm) hh))

theorem specGpioGet_keeps {s0 s : State} {c : Cmd} (hm : ([] : List Part).all pm = true) (h : Keeps pm s0 s) : KeepsP pm s0 (specGpioGet.body c s) := by
  simp only [specGpioGet]
  repeat' first
    | with_reducible assumption
    | with_reducible refine keepsP_mk ?_

theorem execGpioGet_keeps {s0 s : State} {d : Doorbell} {p : List Byte} {levels : W16} (hm : ([.pwr, .boot, .mbx, .host, .evt, .modes, .flt, .clk, .ring, .out] : List Part).all pm = true) (hk : Keeps pm s0 s) :
    KeepsOut pm s0 (execGpioGet d p levels s) := by
  unfold execGpioGet
  try dsimp only
  repeat' first
    | with_reducible assumption
    | with_reducible refine onPwr_keeps (sub (by decide) hm) ?_
    | (refine command_keeps (sub (by decide) hm) ?_ (fun _ _ hh => specGpioGet_keeps (sub (by decide) hm) hh))

end Sys2Proof.Machine
end

