-- ==== Sys2Proof/Laws/KeepIdentity.lean ====
section
/-!
SUPPORT. What the operations of Machine.Identity keep.
-/
set_option linter.unusedSimpArgs false
set_option linter.unusedVariables false
namespace Sys2Proof.Machine

variable {pm : Part → Bool}

theorem verifyProf_keeps {s0 s : State} {n : Nat} (hm : ([.flt] : List Part).all pm = true) (hk : Keeps pm s0 s) :
    KeepsP pm s0 (verifyProf n s) := by
  unfold verifyProf
  try dsimp only
  repeat' first
    | with_reducible assumption
    | with_reducible refine countCairn_keeps (sub (by decide) hm) ?_
    | with_reducible refine keepsP_mk ?_
    | split

theorem specIdentify_keeps {s0 s : State} {c : Cmd} (hm : ([] : List Part).all pm = true) (h : Keeps pm s0 s) : KeepsP pm s0 (specIdentify.body c s) := by
  simp only [specIdentify]
  repeat' first
    | with_reducible assumption
    | with_reducible refine keepsP_mk ?_

theorem execIdentify_keeps {s0 s : State} {d : Doorbell} {p : List Byte} (hm : ([.boot, .mbx, .host, .evt, .modes, .flt, .clk, .ring, .out] : List Part).all pm = true) (hk : Keeps pm s0 s) :
    KeepsOut pm s0 (execIdentify d p s) := by
  unfold execIdentify
  try dsimp only
  repeat' first
    | with_reducible assumption
    | (refine command_keeps (sub (by decide) hm) ?_ (fun _ _ hh => specIdentify_keeps (sub (by decide) hm) hh))

theorem specProfileSelect_keeps {s0 s : State} {c : Cmd} (hm : ([.boot] : List Part).all pm = true) (h : Keeps pm s0 s) : KeepsP pm s0 (specProfileSelect.body c s) := by
  simp only [specProfileSelect]
  repeat' first
    | with_reducible assumption
    | with_reducible refine onBoot_keeps (sub (by decide) hm) ?_ ?_ ?_ ?_
    | with_reducible refine keepsP_mk ?_
    | split
    | with_reducible exact id

theorem execProfileSelect_keeps {s0 s : State} {d : Doorbell} {p : List Byte} (hm : ([.boot, .mbx, .host, .evt, .modes, .flt, .clk, .ring, .out] : List Part).all pm = true) (hk : Keeps pm s0 s) :
    KeepsOut pm s0 (execProfileSelect d p s) := by
  unfold execProfileSelect
  try dsimp only
  repeat' first
    | with_reducible assumption
    | (refine command_keeps (sub (by decide) hm) ?_ (fun _ _ hh => specProfileSelect_keeps (sub (by decide) hm) hh))

theorem specProfileRead_keeps {s0 s : State} {c : Cmd} (hm : ([] : List Part).all pm = true) (h : Keeps pm s0 s) : KeepsP pm s0 (specProfileRead.body c s) := by
  simp only [specProfileRead]
  repeat' first
    | with_reducible assumption
    | with_reducible refine keepsP_mk ?_
    | split

theorem execProfileRead_keeps {s0 s : State} {d : Doorbell} {p : List Byte} (hm : ([.boot, .mbx, .host, .evt, .modes, .flt, .clk, .ring, .out] : List Part).all pm = true) (hk : Keeps pm s0 s) :
    KeepsOut pm s0 (execProfileRead d p s) := by
  unfold execProfileRead
  try dsimp only
  repeat' first
    | with_reducible assumption
    | (refine command_keeps (sub (by decide) hm) ?_ (fun _ _ hh => specProfileRead_keeps (sub (by decide) hm) hh))

theorem specProfileStage_keeps {s0 s : State} {c : Cmd} (hm : ([.boot] : List Part).all pm = true) (h : Keeps pm s0 s) : KeepsP pm s0 (specProfileStage.body c s) := by
  simp only [specProfileStage]
  repeat' first
    | with_reducible assumption
    | with_reducible refine onBoot_keeps (sub (by decide) hm) ?_ ?_ ?_ ?_
    | with_reducible refine keepsP_mk ?_
    | split
    | with_reducible exact id
    | exact memWrite_wf
    | exact (fun _ => memWrite_wf rfl)

theorem execProfileStage_keeps {s0 s : State} {d : Doorbell} {p : List Byte} (hm : ([.boot, .mbx, .host, .evt, .modes, .flt, .clk, .ring, .out] : List Part).all pm = true) (hk : Keeps pm s0 s) :
    KeepsOut pm s0 (execProfileStage d p s) := by
  unfold execProfileStage
  try dsimp only
  repeat' first
    | with_reducible assumption
    | (refine command_keeps (sub (by decide) hm) ?_ (fun _ _ hh => specProfileStage_keeps (sub (by decide) hm) hh))

theorem execStageOwnerTimeout_keeps {s0 s : State}  (hm : ([.boot] : List Part).all pm = true) (hk : Keeps pm s0 s) :
    KeepsOut pm s0 (execStageOwnerTimeout s) := by
  unfold execStageOwnerTimeout
  try dsimp only
  repeat' first
    | with_reducible assumption
    | with_reducible refine onBoot_keeps (sub (by decide) hm) ?_ ?_ ?_ ?_
    | with_reducible refine keepsOut_next ?_
    | with_reducible exact id

theorem execProfileStoreDone_keeps {s0 s : State} {prof : BitVec 2} (hm : ([.boot, .mbx, .host, .evt, .flt, .clk, .ring, .out] : List Part).all pm = true) (hk : Keeps pm s0 s) :
    KeepsOut pm s0 (execProfileStoreDone prof s) := by
  unfold execProfileStoreDone
  try dsimp only
  repeat' first
    | with_reducible assumption
    | with_reducible refine onBoot_keeps (sub (by decide) hm) ?_ ?_ ?_ ?_
    | with_reducible refine endOp_keeps (sub (by decide) hm) ?_
    | with_reducible refine mramWrite_keeps (sub (by decide) hm) ?_
    | with_reducible refine countCairn_keeps (sub (by decide) hm) ?_
    | with_reducible refine keepsOut_next ?_
    | split
    | with_reducible exact id

/-- A valid profile starts a mode of R153. -/
theorem profReason_auto {s : State} {n : Nat} (h : profReason s n = 0) : profFld s n 16 1 ≤ 7 := by
  unfold profReason at h
  dsimp only at h
  repeat' split at h
  all_goals first | omega | skip
  all_goals simp_all
  all_goals omega

theorem startReplay_keeps {s0 s : State} {n : Nat} (hm : ([.boot, .mbx, .host, .evt, .modes, .clk, .ring, .out] : List Part).all pm = true) (h : Keeps pm s0 s) (ha : Inv s0 → profFld s n 16 1 ≤ 7) : Keeps pm s0 (startReplay n s) := by
  unfold startReplay
  exact ⟨fun p hp => by cases p <;> first | exact h.frame _ hp | simp [hp] at hm, h.pending, h.drawn, h.lock, fun i => let j := h.inv i
    ⟨j.1, j.2, j.3, j.4, j.5, j.6, ha i, j.8, j.9, j.10, j.11, j.12⟩⟩

theorem verifyProf_auto {s : State} {n : Nat} (h : (verifyProf n s).1 = 0) : profFld (verifyProf n s).2 n 16 1 ≤ 7 := by
  unfold verifyProf at h ⊢
  dsimp only at h ⊢
  rw [if_neg (by omega)]
  exact profReason_auto h

theorem specProfileLoad_keeps {s0 s : State} {c : Cmd} (hm : ([.boot, .mbx, .host, .evt, .modes, .flt, .clk, .ring, .out] : List Part).all pm = true) (h : Keeps pm s0 s) : KeepsP pm s0 (specProfileLoad.body c s) := by
  simp only [specProfileLoad]
  split
  · exact h
  · split
    · exact keepsP_mk (onBoot_keeps (sub (by decide) hm) h id id id)
    · split
      · exact h
      · have k := @verifyProf_auto s (c.u 16 1)
        have hv : KeepsP pm s0 (verifyProf (c.u 16 1) s) := verifyProf_keeps (sub (by decide) hm) h
        revert k hv
        generalize verifyProf (c.u 16 1) s = r
        intro k hv
        refine keepsP_mk ?_
        split
        · rename_i hz
          refine startReplay_keeps (sub (by decide) hm) (onBoot_keeps (sub (by decide) hm) (keeps_snd hv) id id id) fun _ => ?_
          have := k hz
          simpa only [profFld, State.onBoot] using this
        · exact onBoot_keeps (sub (by decide) hm) (keeps_snd hv) id id id

theorem execProfileLoad_keeps {s0 s : State} {d : Doorbell} {p : List Byte} (hm : ([.boot, .mbx, .host, .evt, .modes, .flt, .clk, .ring, .out] : List Part).all pm = true) (hk : Keeps pm s0 s) :
    KeepsOut pm s0 (execProfileLoad d p s) := by
  unfold execProfileLoad
  try dsimp only
  repeat' first
    | with_reducible assumption
    | (refine command_keeps (sub (by decide) hm) ?_ (fun _ _ hh => specProfileLoad_keeps (sub (by decide) hm) hh))

theorem execProfileLoadDone_keeps {s0 s : State} {prof : BitVec 2} (hm : ([.boot, .mbx, .host, .evt, .flt, .clk, .ring, .out] : List Part).all pm = true) (hk : Keeps pm s0 s) :
    KeepsOut pm s0 (execProfileLoadDone prof s) := by
  unfold execProfileLoadDone
  try dsimp only
  repeat' first
    | with_reducible assumption
    | with_reducible refine onBoot_keeps (sub (by decide) hm) ?_ ?_ ?_ ?_
    | with_reducible refine keeps_snd (verifyProf_keeps (sub (by decide) hm) ?_)
    | with_reducible refine endOp_keeps (sub (by decide) hm) ?_
    | with_reducible refine keepsOut_next ?_
    | split
    | with_reducible exact id

end Sys2Proof.Machine
end

