-- ==== Sys2Proof/Laws/KeepModeCmds.lean ====
section
/-!
SUPPORT. What the operations of Machine.ModeCmds keep.
-/
set_option linter.unusedSimpArgs false
set_option linter.unusedVariables false
namespace Sys2Proof.Machine

variable {pm : Part → Bool}

theorem specModeSet_keeps {s0 s : State} {c : Cmd} (hm : ([.outs, .boot, .mbx, .host, .evt, .modes, .flt, .cad, .clk, .fe, .cal, .air, .nb, .mlad, .tm, .col, .dram, .ring, .out] : List Part).all pm = true) (h : Keeps pm s0 s) : KeepsP pm s0 (specModeSet.body c s) := by
  simp only [specModeSet]
  split
  · exact h
  · rename_i hr
    split
    · exact h
    · split
      · exact h
      · split
        · exact enterSafe_keeps (sub (by decide) hm) h
        · split
          · exact h
          · exact beginTrans_keeps (sub (by decide) hm) h fun _ => by simp at hr; omega

theorem execModeSet_keeps {s0 s : State} {d : Doorbell} {p : List Byte} (hm : ([.outs, .boot, .mbx, .host, .evt, .modes, .flt, .cad, .clk, .fe, .cal, .air, .nb, .mlad, .tm, .col, .dram, .ring, .out] : List Part).all pm = true) (hk : Keeps pm s0 s) :
    KeepsOut pm s0 (execModeSet d p s) := by
  unfold execModeSet
  try dsimp only
  repeat' first
    | with_reducible assumption
    | (refine command_keeps (sub (by decide) hm) ?_ (fun _ _ hh => specModeSet_keeps (sub (by decide) hm) hh))

theorem specModeGet_keeps {s0 s : State} {c : Cmd} (hm : ([] : List Part).all pm = true) (h : Keeps pm s0 s) : KeepsP pm s0 (specModeGet.body c s) := by
  simp only [specModeGet]
  repeat' first
    | with_reducible assumption
    | with_reducible refine keepsP_mk ?_

theorem execModeGet_keeps {s0 s : State} {d : Doorbell} {p : List Byte} (hm : ([.boot, .mbx, .host, .evt, .modes, .flt, .clk, .ring, .out] : List Part).all pm = true) (hk : Keeps pm s0 s) :
    KeepsOut pm s0 (execModeGet d p s) := by
  unfold execModeGet
  try dsimp only
  repeat' first
    | with_reducible assumption
    | (refine command_keeps (sub (by decide) hm) ?_ (fun _ _ hh => specModeGet_keeps (sub (by decide) hm) hh))

theorem specPwrStats_keeps {s0 s : State} {c : Cmd} (hm : ([.modes] : List Part).all pm = true) (h : Keeps pm s0 s) : KeepsP pm s0 (specPwrStats.body c s) := by
  simp only [specPwrStats]
  repeat' first
    | with_reducible assumption
    | with_reducible refine onModes_keeps (sub (by decide) hm) ?_ ?_ ?_ ?_ ?_
    | with_reducible refine keepsP_mk ?_
    | split
    | with_reducible exact id

theorem execPwrStats_keeps {s0 s : State} {d : Doorbell} {p : List Byte} (hm : ([.boot, .mbx, .host, .evt, .modes, .flt, .clk, .ring, .out] : List Part).all pm = true) (hk : Keeps pm s0 s) :
    KeepsOut pm s0 (execPwrStats d p s) := by
  unfold execPwrStats
  try dsimp only
  repeat' first
    | with_reducible assumption
    | (refine command_keeps (sub (by decide) hm) ?_ (fun _ _ hh => specPwrStats_keeps (sub (by decide) hm) hh))

theorem specDomainStatus_keeps {s0 s : State} {c : Cmd} (hm : ([] : List Part).all pm = true) (h : Keeps pm s0 s) : KeepsP pm s0 (specDomainStatus.body c s) := by
  simp only [specDomainStatus]
  repeat' first
    | with_reducible assumption
    | with_reducible refine keepsP_mk ?_

theorem execDomainStatus_keeps {s0 s : State} {d : Doorbell} {p : List Byte} (hm : ([.boot, .mbx, .host, .evt, .modes, .flt, .clk, .ring, .out] : List Part).all pm = true) (hk : Keeps pm s0 s) :
    KeepsOut pm s0 (execDomainStatus d p s) := by
  unfold execDomainStatus
  try dsimp only
  repeat' first
    | with_reducible assumption
    | (refine command_keeps (sub (by decide) hm) ?_ (fun _ _ hh => specDomainStatus_keeps (sub (by decide) hm) hh))

theorem specWakeConfig_keeps {s0 s : State} {c : Cmd} (hm : ([.modes, .clk] : List Part).all pm = true) (h : Keeps pm s0 s) : KeepsP pm s0 (specWakeConfig.body c s) := by
  simp only [specWakeConfig]
  split
  · exact h
  · rename_i hr
    refine keepsP_mk ?_
    have k : Keeps pm s0 (s.onModes fun m => { m with
          wakeSources := BitVec.ofNat 5 (c.u 16 1), warmTarget := c.u 17 1, demandIdleMs := c.u 18 2, alarmBeat := c.u 20 6 }) := by
      refine onModes_keeps (sub (by decide) hm) h id (fun _ => ?_) id id
      simp at hr
      show c.u 17 1 ≤ 7
      omega
    split
    · exact onClk_keeps (sub (by decide) hm) k
    · exact k

theorem execWakeConfig_keeps {s0 s : State} {d : Doorbell} {p : List Byte} (hm : ([.boot, .mbx, .host, .evt, .modes, .flt, .clk, .ring, .out] : List Part).all pm = true) (hk : Keeps pm s0 s) :
    KeepsOut pm s0 (execWakeConfig d p s) := by
  unfold execWakeConfig
  try dsimp only
  repeat' first
    | with_reducible assumption
    | (refine command_keeps (sub (by decide) hm) ?_ (fun _ _ hh => specWakeConfig_keeps (sub (by decide) hm) hh))

theorem specVigilConfig_keeps {s0 s : State} {c : Cmd} (hm : ([.modes] : List Part).all pm = true) (h : Keeps pm s0 s) : KeepsP pm s0 (specVigilConfig.body c s) := by
  simp only [specVigilConfig]
  repeat' first
    | with_reducible assumption
    | with_reducible refine onModes_keeps (sub (by decide) hm) ?_ ?_ ?_ ?_ ?_
    | with_reducible refine keepsP_mk ?_
    | split
    | with_reducible exact id

theorem execVigilConfig_keeps {s0 s : State} {d : Doorbell} {p : List Byte} (hm : ([.boot, .mbx, .host, .evt, .modes, .flt, .clk, .ring, .out] : List Part).all pm = true) (hk : Keeps pm s0 s) :
    KeepsOut pm s0 (execVigilConfig d p s) := by
  unfold execVigilConfig
  try dsimp only
  repeat' first
    | with_reducible assumption
    | (refine command_keeps (sub (by decide) hm) ?_ (fun _ _ hh => specVigilConfig_keeps (sub (by decide) hm) hh))

theorem specLogRead_keeps {s0 s : State} {c : Cmd} (hm : ([] : List Part).all pm = true) (h : Keeps pm s0 s) : KeepsP pm s0 (specLogRead.body c s) := by
  simp only [specLogRead]
  repeat' first
    | with_reducible assumption
    | with_reducible refine keepsP_mk ?_
    | split

theorem execLogRead_keeps {s0 s : State} {d : Doorbell} {p : List Byte} (hm : ([.boot, .mbx, .host, .evt, .modes, .flt, .clk, .ring, .out] : List Part).all pm = true) (hk : Keeps pm s0 s) :
    KeepsOut pm s0 (execLogRead d p s) := by
  unfold execLogRead
  try dsimp only
  repeat' first
    | with_reducible assumption
    | (refine command_keeps (sub (by decide) hm) ?_ (fun _ _ hh => specLogRead_keeps (sub (by decide) hm) hh))

theorem specFaultRead_keeps {s0 s : State} {c : Cmd} (hm : ([] : List Part).all pm = true) (h : Keeps pm s0 s) : KeepsP pm s0 (specFaultRead.body c s) := by
  simp only [specFaultRead]
  repeat' first
    | with_reducible assumption
    | with_reducible refine keepsP_mk ?_
    | split

theorem execFaultRead_keeps {s0 s : State} {d : Doorbell} {p : List Byte} (hm : ([.boot, .mbx, .host, .evt, .modes, .flt, .clk, .ring, .out] : List Part).all pm = true) (hk : Keeps pm s0 s) :
    KeepsOut pm s0 (execFaultRead d p s) := by
  unfold execFaultRead
  try dsimp only
  repeat' first
    | with_reducible assumption
    | (refine command_keeps (sub (by decide) hm) ?_ (fun _ _ hh => specFaultRead_keeps (sub (by decide) hm) hh))

theorem specCounterRead_keeps {s0 s : State} {c : Cmd} (hm : ([.flt] : List Part).all pm = true) (h : Keeps pm s0 s) : KeepsP pm s0 (specCounterRead.body c s) := by
  simp only [specCounterRead]
  repeat' first
    | with_reducible assumption
    | with_reducible refine onFlt_keeps (sub (by decide) hm) ?_ ?_ ?_
    | with_reducible refine keepsP_mk ?_
    | split
    | with_reducible exact id
    | (intro hh; simp only [updAt, setAt, List.length_modify, List.length_set, List.length_map, List.length_zipIdx, List.length_cons, List.length_nil]; with_reducible exact hh)

theorem execCounterRead_keeps {s0 s : State} {d : Doorbell} {p : List Byte} (hm : ([.boot, .mbx, .host, .evt, .modes, .flt, .clk, .ring, .out] : List Part).all pm = true) (hk : Keeps pm s0 s) :
    KeepsOut pm s0 (execCounterRead d p s) := by
  unfold execCounterRead
  try dsimp only
  repeat' first
    | with_reducible assumption
    | (refine command_keeps (sub (by decide) hm) ?_ (fun _ _ hh => specCounterRead_keeps (sub (by decide) hm) hh))

theorem specStatusRead_keeps {s0 s : State} {c : Cmd} (hm : ([.boot, .mbx, .host, .evt, .modes, .clk, .ring, .out] : List Part).all pm = true) (h : Keeps pm s0 s) : KeepsP pm s0 (specStatusRead.body c s) := by
  simp only [specStatusRead]
  repeat' first
    | with_reducible assumption
    | with_reducible refine keepsP_mk ?_

theorem execStatusRead_keeps {s0 s : State} {d : Doorbell} {p : List Byte} (hm : ([.boot, .mbx, .host, .evt, .modes, .flt, .clk, .ring, .out] : List Part).all pm = true) (hk : Keeps pm s0 s) :
    KeepsOut pm s0 (execStatusRead d p s) := by
  unfold execStatusRead
  try dsimp only
  repeat' first
    | with_reducible assumption
    | (refine command_keeps (sub (by decide) hm) ?_ (fun _ _ hh => specStatusRead_keeps (sub (by decide) hm) hh))

theorem specWatchdogSet_keeps {s0 s : State} {c : Cmd} (hm : ([.flt] : List Part).all pm = true) (h : Keeps pm s0 s) : KeepsP pm s0 (specWatchdogSet.body c s) := by
  simp only [specWatchdogSet]
  repeat' first
    | with_reducible assumption
    | with_reducible refine onFlt_keeps (sub (by decide) hm) ?_ ?_ ?_
    | with_reducible refine keepsP_mk ?_
    | split
    | with_reducible exact id

theorem execWatchdogSet_keeps {s0 s : State} {d : Doorbell} {p : List Byte} (hm : ([.boot, .mbx, .host, .evt, .modes, .flt, .clk, .ring, .out] : List Part).all pm = true) (hk : Keeps pm s0 s) :
    KeepsOut pm s0 (execWatchdogSet d p s) := by
  unfold execWatchdogSet
  try dsimp only
  repeat' first
    | with_reducible assumption
    | (refine command_keeps (sub (by decide) hm) ?_ (fun _ _ hh => specWatchdogSet_keeps (sub (by decide) hm) hh))

theorem specLogClear_keeps {s0 s : State} {c : Cmd} (hm : ([] : List Part).all pm = true) (h : Keeps pm s0 s) : KeepsP pm s0 (specLogClear.body c s) := by
  simp only [specLogClear]
  repeat' first
    | with_reducible assumption
    | with_reducible refine keepsP_mk ?_
    | split

theorem execLogClear_keeps {s0 s : State} {d : Doorbell} {p : List Byte} (hm : ([.boot, .mbx, .host, .evt, .modes, .flt, .clk, .ring, .out] : List Part).all pm = true) (hk : Keeps pm s0 s) :
    KeepsOut pm s0 (execLogClear d p s) := by
  unfold execLogClear
  try dsimp only
  repeat' first
    | with_reducible assumption
    | (refine command_keeps (sub (by decide) hm) ?_ (fun _ _ hh => specLogClear_keeps (sub (by decide) hm) hh))

theorem execLogClearDone_keeps {s0 s : State}  (hm : ([.boot, .mbx, .host, .evt, .clk, .ring, .out] : List Part).all pm = true) (hk : Keeps pm s0 s) :
    KeepsOut pm s0 (execLogClearDone s) := by
  unfold execLogClearDone
  try dsimp only
  repeat' first
    | with_reducible assumption
    | with_reducible refine onBoot_keeps (sub (by decide) hm) ?_ ?_ ?_ ?_
    | with_reducible refine endLong_keeps (sub (by decide) hm) ?_
    | with_reducible refine keepsOut_next ?_
    | split
    | with_reducible exact id
    | exact memClear_wf

end Sys2Proof.Machine
end

