-- ==== Sys2Proof/Laws/KeepFrontEnd.lean ====
section
/-!
SUPPORT. What the operations of Machine.FrontEnd keep.
-/
set_option linter.unusedSimpArgs false
set_option linter.unusedVariables false
namespace Sys2Proof.Machine

variable {pm : Part → Bool}

theorem onBand_keeps {s0 s : State} {b : Nat} {f : Band → Band} (hm : ([.fe] : List Part).all pm = true) (hk : Keeps pm s0 s) :
    Keeps pm s0 (onBand b f s) := by
  unfold onBand
  try dsimp only
  repeat' first
    | with_reducible assumption
    | with_reducible refine onFe_keeps (sub (by decide) hm) ?_

theorem onChain_keeps {s0 s : State} {b i : Nat} {f : Chain → Chain} (hm : ([.fe] : List Part).all pm = true) (hk : Keeps pm s0 s) :
    Keeps pm s0 (onChain b i f s) := by
  unfold onChain
  try dsimp only
  repeat' first
    | with_reducible assumption
    | with_reducible refine onBand_keeps (sub (by decide) hm) ?_

theorem countOut_keeps {s0 s : State} {b i : Nat} (hm : ([.fe] : List Part).all pm = true) (hk : Keeps pm s0 s) :
    Keeps pm s0 (countOut b i s) := by
  unfold countOut
  try dsimp only
  repeat' first
    | with_reducible assumption
    | with_reducible refine onBand_keeps (sub (by decide) hm) ?_

theorem rffePush_keeps {s0 s : State} {b bus : Nat} {x : Rffe} (hm : ([.fe, .out] : List Part).all pm = true) (hk : Keeps pm s0 s) :
    Keeps pm s0 (rffePush b bus x s) := by
  unfold rffePush
  try dsimp only
  repeat' first
    | with_reducible assumption
    | with_reducible refine emit_keeps (sub (by decide) hm) ?_
    | with_reducible refine onBand_keeps (sub (by decide) hm) ?_
    | split

theorem femWrite_keeps {s0 s : State} {b chain reg val : Nat} (hm : ([.fe, .out] : List Part).all pm = true) (hk : Keeps pm s0 s) :
    Keeps pm s0 (femWrite b chain reg val s) := by
  unfold femWrite
  try dsimp only
  repeat' first
    | with_reducible assumption
    | with_reducible refine rffePush_keeps (sub (by decide) hm) ?_
    | split

theorem specRffeAccess_keeps {s0 s : State} {c : Cmd} (hm : ([.fe, .out] : List Part).all pm = true) (h : Keeps pm s0 s) : KeepsP pm s0 (specRffeAccess.body c s) := by
  simp only [specRffeAccess]
  repeat' first
    | with_reducible assumption
    | with_reducible refine rffePush_keeps (sub (by decide) hm) ?_
    | with_reducible refine keepsP_mk ?_
    | split

theorem execRffeAccess_keeps {s0 s : State} {d : Doorbell} {p : List Byte} (hm : ([.boot, .mbx, .host, .evt, .modes, .flt, .clk, .fe, .ring, .out] : List Part).all pm = true) (hk : Keeps pm s0 s) :
    KeepsOut pm s0 (execRffeAccess d p s) := by
  unfold execRffeAccess
  try dsimp only
  repeat' first
    | with_reducible assumption
    | (refine command_keeps (sub (by decide) hm) ?_ (fun _ _ hh => specRffeAccess_keeps (sub (by decide) hm) hh))

theorem rffeNext_keeps {s0 s : State} {b bus : Nat} (hm : ([.fe, .out] : List Part).all pm = true) (hk : Keeps pm s0 s) :
    Keeps pm s0 (rffeNext b bus s) := by
  unfold rffeNext
  try dsimp only
  repeat' first
    | with_reducible assumption
    | with_reducible refine emit_keeps (sub (by decide) hm) ?_
    | with_reducible refine onBand_keeps (sub (by decide) hm) ?_
    | split

theorem execRffeTransactionDone_keeps {s0 s : State} {band : BandId} {bus : Nat} {parityOk : Bool} {data : List Byte} (hm : ([.boot, .mbx, .host, .evt, .clk, .fe, .ring, .out] : List Part).all pm = true) (hk : Keeps pm s0 s) :
    KeepsOut pm s0 (execRffeTransactionDone band bus parityOk data s) := by
  unfold execRffeTransactionDone
  try dsimp only
  repeat' first
    | with_reducible assumption
    | with_reducible refine emit_keeps (sub (by decide) hm) ?_
    | with_reducible refine rffeNext_keeps (sub (by decide) hm) ?_
    | with_reducible refine onBand_keeps (sub (by decide) hm) ?_
    | with_reducible refine post_keeps (sub (by decide) hm) ?_
    | with_reducible refine raise_keeps (sub (by decide) hm) ?_
    | with_reducible refine keepsOut_next ?_
    | split

theorem colEvent_keeps {s0 s : State} {source param : Nat} (hm : ([.col, .out] : List Part).all pm = true) (hk : Keeps pm s0 s) :
    Keeps pm s0 (colEvent source param s) := by
  unfold colEvent
  try dsimp only
  repeat' first
    | with_reducible assumption
    | with_reducible refine onCol_keeps (sub (by decide) hm) ?_
    | with_reducible refine emit_keeps (sub (by decide) hm) ?_

theorem excludeChain_keeps {s0 s : State} {b i cause rl : Nat} (hm : ([.outs, .boot, .host, .evt, .clk, .fe, .col, .out] : List Part).all pm = true) (hk : Keeps pm s0 s) :
    Keeps pm s0 (excludeChain b i cause rl s) := by
  unfold excludeChain
  try dsimp only
  repeat' first
    | with_reducible assumption
    | with_reducible refine onOuts_keeps (sub (by decide) hm) ?_
    | with_reducible refine colEvent_keeps (sub (by decide) hm) ?_
    | with_reducible refine femWrite_keeps (sub (by decide) hm) ?_
    | with_reducible refine onChain_keeps (sub (by decide) hm) ?_
    | with_reducible refine raise_keeps (sub (by decide) hm) ?_

theorem specChainEnable_keeps {s0 s : State} {c : Cmd} (hm : ([.outs, .boot, .host, .evt, .clk, .fe, .col, .out] : List Part).all pm = true) (h : Keeps pm s0 s) : KeepsP pm s0 (specChainEnable.body c s) := by
  simp only [specChainEnable]
  repeat' first
    | with_reducible assumption
    | with_reducible refine colEvent_keeps (sub (by decide) hm) ?_
    | with_reducible refine femWrite_keeps (sub (by decide) hm) ?_
    | with_reducible refine onBand_keeps (sub (by decide) hm) ?_
    | with_reducible refine refreshOuts_keeps (sub (by decide) hm) ?_
    | with_reducible refine raise_keeps (sub (by decide) hm) ?_
    | with_reducible refine keepsP_mk ?_
    | with_reducible refine keeps_foldl ?_ ?_
    | split
    | (intro _ _ _)

theorem execChainEnable_keeps {s0 s : State} {d : Doorbell} {p : List Byte} (hm : ([.outs, .boot, .mbx, .host, .evt, .modes, .flt, .clk, .fe, .col, .ring, .out] : List Part).all pm = true) (hk : Keeps pm s0 s) :
    KeepsOut pm s0 (execChainEnable d p s) := by
  unfold execChainEnable
  try dsimp only
  repeat' first
    | with_reducible assumption
    | (refine command_keeps (sub (by decide) hm) ?_ (fun _ _ hh => specChainEnable_keeps (sub (by decide) hm) hh))

theorem specTxpwrSet_keeps {s0 s : State} {c : Cmd} (hm : ([.fe] : List Part).all pm = true) (h : Keeps pm s0 s) : KeepsP pm s0 (specTxpwrSet.body c s) := by
  simp only [specTxpwrSet]
  repeat' first
    | with_reducible assumption
    | with_reducible refine onBand_keeps (sub (by decide) hm) ?_
    | with_reducible refine keepsP_mk ?_
    | split

theorem execTxpwrSet_keeps {s0 s : State} {d : Doorbell} {p : List Byte} (hm : ([.boot, .mbx, .host, .evt, .modes, .flt, .clk, .fe, .ring, .out] : List Part).all pm = true) (hk : Keeps pm s0 s) :
    KeepsOut pm s0 (execTxpwrSet d p s) := by
  unfold execTxpwrSet
  try dsimp only
  repeat' first
    | with_reducible assumption
    | (refine command_keeps (sub (by decide) hm) ?_ (fun _ _ hh => specTxpwrSet_keeps (sub (by decide) hm) hh))

theorem specFemConfig_keeps {s0 s : State} {c : Cmd} (hm : ([.fe] : List Part).all pm = true) (h : Keeps pm s0 s) : KeepsP pm s0 (specFemConfig.body c s) := by
  simp only [specFemConfig]
  repeat' first
    | with_reducible assumption
    | with_reducible refine onBand_keeps (sub (by decide) hm) ?_
    | with_reducible refine keepsP_mk ?_
    | split

theorem execFemConfig_keeps {s0 s : State} {d : Doorbell} {p : List Byte} (hm : ([.boot, .mbx, .host, .evt, .modes, .flt, .clk, .fe, .ring, .out] : List Part).all pm = true) (hk : Keeps pm s0 s) :
    KeepsOut pm s0 (execFemConfig d p s) := by
  unfold execFemConfig
  try dsimp only
  repeat' first
    | with_reducible assumption
    | (refine command_keeps (sub (by decide) hm) ?_ (fun _ _ hh => specFemConfig_keeps (sub (by decide) hm) hh))

theorem coupler_keeps {s0 s : State} {b g val : Nat} (hm : ([.fe, .out] : List Part).all pm = true) (hk : Keeps pm s0 s) :
    Keeps pm s0 (coupler b g val s) := by
  unfold coupler
  try dsimp only
  repeat' first
    | with_reducible assumption
    | with_reducible refine rffePush_keeps (sub (by decide) hm) ?_
    | with_reducible refine keeps_foldl ?_ ?_
    | (intro _ _ _)

theorem execMismatchMeasureDue_keeps {s0 s : State} {band : BandId} (hm : ([.fe, .out] : List Part).all pm = true) (hk : Keeps pm s0 s) :
    KeepsOut pm s0 (execMismatchMeasureDue band s) := by
  unfold execMismatchMeasureDue
  try dsimp only
  repeat' first
    | with_reducible assumption
    | with_reducible refine coupler_keeps (sub (by decide) hm) ?_
    | with_reducible refine onBand_keeps (sub (by decide) hm) ?_
    | with_reducible refine onlyIf_keeps (sub (by decide) hm) ?_ (fun _ => ?_)
    | with_reducible refine keepsOut_next ?_

theorem judgeRl_keeps {s0 s : State} {b i rl : Nat} (hm : ([.outs, .boot, .host, .evt, .clk, .fe, .col, .out] : List Part).all pm = true) (hk : Keeps pm s0 s) :
    Keeps pm s0 (judgeRl b i rl s) := by
  unfold judgeRl
  try dsimp only
  repeat' first
    | with_reducible assumption
    | with_reducible refine excludeChain_keeps (sub (by decide) hm) ?_
    | with_reducible refine onChain_keeps (sub (by decide) hm) ?_
    | with_reducible refine raise_keeps (sub (by decide) hm) ?_
    | split

theorem execMismatchCaptureDone_keeps {s0 s : State} {band : BandId} {rl : List Nat} (hm : ([.outs, .boot, .host, .evt, .clk, .fe, .col, .out] : List Part).all pm = true) (hk : Keeps pm s0 s) :
    KeepsOut pm s0 (execMismatchCaptureDone band rl s) := by
  unfold execMismatchCaptureDone
  try dsimp only
  repeat' first
    | with_reducible assumption
    | with_reducible refine judgeRl_keeps (sub (by decide) hm) ?_
    | with_reducible refine coupler_keeps (sub (by decide) hm) ?_
    | with_reducible refine onBand_keeps (sub (by decide) hm) ?_
    | with_reducible refine keepsOut_next ?_
    | with_reducible refine keeps_foldl ?_ ?_
    | split
    | (intro _ _ _)

theorem specCoexConfig_keeps {s0 s : State} {c : Cmd} (hm : ([.fe] : List Part).all pm = true) (h : Keeps pm s0 s) : KeepsP pm s0 (specCoexConfig.body c s) := by
  simp only [specCoexConfig]
  repeat' first
    | with_reducible assumption
    | with_reducible refine onFe_keeps (sub (by decide) hm) ?_
    | with_reducible refine keepsP_mk ?_
    | split

theorem execCoexConfig_keeps {s0 s : State} {d : Doorbell} {p : List Byte} (hm : ([.boot, .mbx, .host, .evt, .modes, .flt, .clk, .fe, .ring, .out] : List Part).all pm = true) (hk : Keeps pm s0 s) :
    KeepsOut pm s0 (execCoexConfig d p s) := by
  unfold execCoexConfig
  try dsimp only
  repeat' first
    | with_reducible assumption
    | (refine command_keeps (sub (by decide) hm) ?_ (fun _ _ hh => specCoexConfig_keeps (sub (by decide) hm) hh))

theorem specBlankMap_keeps {s0 s : State} {c : Cmd} (hm : ([.fe] : List Part).all pm = true) (h : Keeps pm s0 s) : KeepsP pm s0 (specBlankMap.body c s) := by
  simp only [specBlankMap]
  repeat' first
    | with_reducible assumption
    | with_reducible refine onFe_keeps (sub (by decide) hm) ?_
    | with_reducible refine keepsP_mk ?_
    | split

theorem execBlankMap_keeps {s0 s : State} {d : Doorbell} {p : List Byte} (hm : ([.boot, .mbx, .host, .evt, .modes, .flt, .clk, .fe, .ring, .out] : List Part).all pm = true) (hk : Keeps pm s0 s) :
    KeepsOut pm s0 (execBlankMap d p s) := by
  unfold execBlankMap
  try dsimp only
  repeat' first
    | with_reducible assumption
    | (refine command_keeps (sub (by decide) hm) ?_ (fun _ _ hh => specBlankMap_keeps (sub (by decide) hm) hh))

theorem setChannel_keeps {s0 s : State} {b : Nat} {ch : Channel} (hm : ([.fe, .air] : List Part).all pm = true) (hk : Keeps pm s0 s) :
    Keeps pm s0 (setChannel b ch s) := by
  unfold setChannel
  try dsimp only
  repeat' first
    | with_reducible assumption
    | with_reducible refine onAir_keeps (sub (by decide) hm) ?_
    | with_reducible refine onBand_keeps (sub (by decide) hm) ?_

theorem specBandConfig_keeps {s0 s : State} {c : Cmd} (hm : ([.fe] : List Part).all pm = true) (h : Keeps pm s0 s) : KeepsP pm s0 (specBandConfig.body c s) := by
  simp only [specBandConfig]
  repeat' first
    | with_reducible assumption
    | with_reducible refine onBand_keeps (sub (by decide) hm) ?_
    | with_reducible refine keepsP_mk ?_
    | split

theorem execBandConfig_keeps {s0 s : State} {d : Doorbell} {p : List Byte} (hm : ([.boot, .mbx, .host, .evt, .modes, .flt, .clk, .fe, .ring, .out] : List Part).all pm = true) (hk : Keeps pm s0 s) :
    KeepsOut pm s0 (execBandConfig d p s) := by
  unfold execBandConfig
  try dsimp only
  repeat' first
    | with_reducible assumption
    | (refine command_keeps (sub (by decide) hm) ?_ (fun _ _ hh => specBandConfig_keeps (sub (by decide) hm) hh))

theorem specChainStatus_keeps {s0 s : State} {c : Cmd} (hm : ([] : List Part).all pm = true) (h : Keeps pm s0 s) : KeepsP pm s0 (specChainStatus.body c s) := by
  simp only [specChainStatus]
  repeat' first
    | with_reducible assumption
    | with_reducible refine keepsP_mk ?_
    | split

theorem execChainStatus_keeps {s0 s : State} {d : Doorbell} {p : List Byte} (hm : ([.boot, .mbx, .host, .evt, .modes, .flt, .clk, .ring, .out] : List Part).all pm = true) (hk : Keeps pm s0 s) :
    KeepsOut pm s0 (execChainStatus d p s) := by
  unfold execChainStatus
  try dsimp only
  repeat' first
    | with_reducible assumption
    | (refine command_keeps (sub (by decide) hm) ?_ (fun _ _ hh => specChainStatus_keeps (sub (by decide) hm) hh))

theorem execStandbyRelocked_keeps {s0 s : State} {band : BandId} {synth : Bool} (hm : ([.boot, .host, .evt, .clk, .fe, .drawn, .out] : List Part).all pm = true) (hk : Keeps pm s0 s) :
    KeepsOut pm s0 (execStandbyRelocked band synth s) := by
  unfold execStandbyRelocked
  try dsimp only
  repeat' first
    | with_reducible assumption
    | with_reducible refine keeps_snd (draw_keeps (sub (by decide) hm) ?_)
    | with_reducible refine onBand_keeps (sub (by decide) hm) ?_
    | with_reducible refine onlyIf_keeps (sub (by decide) hm) ?_ (fun _ => ?_)
    | with_reducible refine raise_keeps (sub (by decide) hm) ?_
    | with_reducible refine keepsOut_next ?_
    | split

theorem specFactoryTest_keeps {s0 s : State} {c : Cmd} (hm : ([.outs, .fe] : List Part).all pm = true) (h : Keeps pm s0 s) : KeepsP pm s0 (specFactoryTest.body c s) := by
  simp only [specFactoryTest]
  repeat' first
    | with_reducible assumption
    | with_reducible refine onOuts_keeps (sub (by decide) hm) ?_
    | with_reducible refine onFe_keeps (sub (by decide) hm) ?_
    | with_reducible refine keepsP_mk ?_
    | split

theorem execFactoryTest_keeps {s0 s : State} {d : Doorbell} {p : List Byte} (hm : ([.outs, .boot, .mbx, .host, .evt, .modes, .flt, .clk, .fe, .ring, .out] : List Part).all pm = true) (hk : Keeps pm s0 s) :
    KeepsOut pm s0 (execFactoryTest d p s) := by
  unfold execFactoryTest
  try dsimp only
  repeat' first
    | with_reducible assumption
    | (refine command_keeps (sub (by decide) hm) ?_ (fun _ _ hh => specFactoryTest_keeps (sub (by decide) hm) hh))

theorem execFactoryTestDone_keeps {s0 s : State}  (hm : ([.outs, .boot, .mbx, .host, .evt, .clk, .fe, .ring, .out] : List Part).all pm = true) (hk : Keeps pm s0 s) :
    KeepsOut pm s0 (execFactoryTestDone s) := by
  unfold execFactoryTestDone
  try dsimp only
  repeat' first
    | with_reducible assumption
    | with_reducible refine onOuts_keeps (sub (by decide) hm) ?_
    | with_reducible refine onFe_keeps (sub (by decide) hm) ?_
    | with_reducible refine refreshOuts_keeps (sub (by decide) hm) ?_
    | with_reducible refine endOp_keeps (sub (by decide) hm) ?_
    | with_reducible refine keepsOut_next ?_
    | split

theorem specSpectrumSurvey_keeps {s0 s : State} {c : Cmd} (hm : ([.outs, .fe] : List Part).all pm = true) (h : Keeps pm s0 s) : KeepsP pm s0 (specSpectrumSurvey.body c s) := by
  simp only [specSpectrumSurvey]
  repeat' first
    | with_reducible assumption
    | with_reducible refine onFe_keeps (sub (by decide) hm) ?_
    | with_reducible refine refreshOuts_keeps (sub (by decide) hm) ?_
    | with_reducible refine keepsP_mk ?_
    | split

theorem execSpectrumSurvey_keeps {s0 s : State} {d : Doorbell} {p : List Byte} (hm : ([.outs, .boot, .mbx, .host, .evt, .modes, .flt, .clk, .fe, .ring, .out] : List Part).all pm = true) (hk : Keeps pm s0 s) :
    KeepsOut pm s0 (execSpectrumSurvey d p s) := by
  unfold execSpectrumSurvey
  try dsimp only
  repeat' first
    | with_reducible assumption
    | (refine command_keeps (sub (by decide) hm) ?_ (fun _ _ hh => specSpectrumSurvey_keeps (sub (by decide) hm) hh))

theorem execSurveySpanDone_keeps {s0 s : State} {bins : List Byte} (hm : ([.outs, .boot, .mbx, .host, .evt, .clk, .fe, .tm, .ring, .out] : List Part).all pm = true) (hk : Keeps pm s0 s) :
    KeepsOut pm s0 (execSurveySpanDone bins s) := by
  unfold execSurveySpanDone
  try dsimp only
  repeat' first
    | with_reducible assumption
    | with_reducible refine onFe_keeps (sub (by decide) hm) ?_
    | with_reducible refine hostQueue_keeps (sub (by decide) hm) ?_
    | with_reducible refine refreshOuts_keeps (sub (by decide) hm) ?_
    | with_reducible refine endOp_keeps (sub (by decide) hm) ?_
    | with_reducible refine keepsOut_next ?_
    | split

end Sys2Proof.Machine
end

