-- ==== Sys2Proof/Laws/KeepCalibration.lean ====
section
/-!
SUPPORT. What the operations of Machine.Calibration keep.
-/
set_option linter.unusedSimpArgs false
set_option linter.unusedVariables false
namespace Sys2Proof.Machine

variable {pm : Part → Bool}

theorem onCC_keeps {s0 s : State} {i : Nat} {f : ChainCal → ChainCal} (hm : ([.cal] : List Part).all pm = true) (hk : Keeps pm s0 s) :
    Keeps pm s0 (onCC i f s) := by
  unfold onCC
  try dsimp only
  repeat' first
    | with_reducible assumption
    | with_reducible refine onCal_keeps (sub (by decide) hm) ?_

theorem onGC_keeps {s0 s : State} {b g : Nat} {f : GroupCal → GroupCal} (hm : ([.cal] : List Part).all pm = true) (hk : Keeps pm s0 s) :
    Keeps pm s0 (onGC b g f s) := by
  unfold onGC
  try dsimp only
  repeat' first
    | with_reducible assumption
    | with_reducible refine onCal_keeps (sub (by decide) hm) ?_

theorem onSlice_keeps {s0 s : State} {b g k : Nat} {f : Slice → Slice} (hm : ([.cal] : List Part).all pm = true) (hk : Keeps pm s0 s) :
    Keeps pm s0 (onSlice b g k f s) := by
  unfold onSlice
  try dsimp only
  repeat' first
    | with_reducible assumption
    | with_reducible refine onGC_keeps (sub (by decide) hm) ?_

theorem retireSlice_keeps {s0 s : State} {b g k cause : Nat} (hm : ([.boot, .host, .evt, .clk, .cal, .out] : List Part).all pm = true) (hk : Keeps pm s0 s) :
    Keeps pm s0 (retireSlice b g k cause s) := by
  unfold retireSlice
  try dsimp only
  repeat' first
    | with_reducible assumption
    | with_reducible refine onBoot_keeps (sub (by decide) hm) ?_ ?_ ?_ ?_
    | with_reducible refine onGC_keeps (sub (by decide) hm) ?_
    | with_reducible refine raise_keeps (sub (by decide) hm) ?_
    | split
    | with_reducible exact id

theorem failSlice_keeps {s0 s : State} {b g k cause : Nat} (hm : ([.outs, .boot, .host, .evt, .clk, .fe, .cal, .col, .out] : List Part).all pm = true) (hk : Keeps pm s0 s) :
    Keeps pm s0 (failSlice b g k cause s) := by
  unfold failSlice
  try dsimp only
  repeat' first
    | with_reducible assumption
    | with_reducible refine retireSlice_keeps (sub (by decide) hm) ?_
    | with_reducible refine onSlice_keeps (sub (by decide) hm) ?_
    | with_reducible refine onGC_keeps (sub (by decide) hm) ?_
    | with_reducible refine excludeChain_keeps (sub (by decide) hm) ?_
    | split

theorem seatSlice_keeps {s0 s : State} {b g k j : Nat} (hm : ([.fe, .cal] : List Part).all pm = true) (hk : Keeps pm s0 s) :
    Keeps pm s0 (seatSlice b g k j s) := by
  unfold seatSlice
  try dsimp only
  repeat' first
    | with_reducible assumption
    | with_reducible refine onSlice_keeps (sub (by decide) hm) ?_
    | with_reducible refine onChain_keeps (sub (by decide) hm) ?_

theorem visitSwap_keeps {s0 s : State} {b g : Nat} {matched : Bool} (hm : ([.outs, .boot, .host, .evt, .clk, .fe, .cal, .col, .out] : List Part).all pm = true) (hk : Keeps pm s0 s) :
    Keeps pm s0 (visitSwap b g matched s) := by
  unfold visitSwap
  try dsimp only
  repeat' first
    | with_reducible assumption
    | with_reducible refine onCal_keeps (sub (by decide) hm) ?_
    | with_reducible refine seatSlice_keeps (sub (by decide) hm) ?_
    | with_reducible refine failSlice_keeps (sub (by decide) hm) ?_
    | with_reducible refine retireSlice_keeps (sub (by decide) hm) ?_
    | with_reducible refine onSlice_keeps (sub (by decide) hm) ?_
    | with_reducible refine onGC_keeps (sub (by decide) hm) ?_
    | split

theorem applyCodes_keeps {s0 s : State} {i : Nat} (hm : ([.cal] : List Part).all pm = true) (hk : Keeps pm s0 s) :
    Keeps pm s0 (applyCodes i s) := by
  unfold applyCodes
  try dsimp only
  repeat' first
    | with_reducible assumption
    | with_reducible refine onCC_keeps (sub (by decide) hm) ?_

theorem powerStep_keeps {s0 s : State} {b i : Nat} {level : Int} (hm : ([.fe, .cal, .drawn] : List Part).all pm = true) (hk : Keeps pm s0 s) :
    Keeps pm s0 (powerStep b i level s) := by
  unfold powerStep
  try dsimp only
  repeat' first
    | with_reducible assumption
    | with_reducible refine onCal_keeps (sub (by decide) hm) ?_
    | with_reducible refine keeps_snd (draw_keeps (sub (by decide) hm) ?_)
    | with_reducible refine onCC_keeps (sub (by decide) hm) ?_
    | with_reducible refine onChain_keeps (sub (by decide) hm) ?_
    | split

theorem execCalGap_keeps {s0 s : State} {band : BandId} {matched : Bool} {fwd : List (Nat × Int)} (hm : ([.outs, .boot, .host, .evt, .clk, .fe, .cal, .col, .drawn, .out] : List Part).all pm = true) (hk : Keeps pm s0 s) :
    KeepsOut pm s0 (execCalGap band matched fwd s) := by
  unfold execCalGap
  try dsimp only
  repeat' first
    | with_reducible assumption
    | with_reducible refine onCal_keeps (sub (by decide) hm) ?_
    | with_reducible refine powerStep_keeps (sub (by decide) hm) ?_
    | with_reducible refine applyCodes_keeps (sub (by decide) hm) ?_
    | with_reducible refine visitSwap_keeps (sub (by decide) hm) ?_
    | with_reducible refine onGC_keeps (sub (by decide) hm) ?_
    | with_reducible refine onCC_keeps (sub (by decide) hm) ?_
    | with_reducible refine onlyIf_keeps (sub (by decide) hm) ?_ (fun _ => ?_)
    | with_reducible refine keepsOut_next ?_
    | with_reducible refine keeps_foldl ?_ ?_
    | split
    | (intro _ _ _)

theorem countRun_keeps {s0 s : State} {i type result : Nat} (hm : ([.cal] : List Part).all pm = true) (hk : Keeps pm s0 s) :
    Keeps pm s0 (countRun i type result s) := by
  unfold countRun
  try dsimp only
  repeat' first
    | with_reducible assumption
    | with_reducible refine onCal_keeps (sub (by decide) hm) ?_

theorem calDisagree_keeps {s0 s : State} {b n type level : Nat} (hm : ([.boot, .host, .evt, .clk, .out] : List Part).all pm = true) (hk : Keeps pm s0 s) :
    Keeps pm s0 (calDisagree b n type level s) := by
  unfold calDisagree
  try dsimp only
  repeat' first
    | with_reducible assumption
    | with_reducible refine raise_keeps (sub (by decide) hm) ?_

theorem chainSet_keeps {s0 s : State} {i : Nat} {m : CalMeas} (hm : ([.outs, .boot, .host, .evt, .clk, .fe, .cal, .col, .out] : List Part).all pm = true) (hk : Keeps pm s0 s) :
    Keeps pm s0 (chainSet i m s) := by
  unfold chainSet
  try dsimp only
  repeat' first
    | with_reducible assumption
    | with_reducible refine onCal_keeps (sub (by decide) hm) ?_
    | with_reducible refine calDisagree_keeps (sub (by decide) hm) ?_
    | with_reducible refine countRun_keeps (sub (by decide) hm) ?_
    | with_reducible refine onCC_keeps (sub (by decide) hm) ?_
    | with_reducible refine excludeChain_keeps (sub (by decide) hm) ?_
    | split

theorem sliceNote_keeps {s0 s : State} {b g k r dis : Nat} {v : Option (List Int)} {m : CalMeas} (hm : ([.cal] : List Part).all pm = true) (hk : Keeps pm s0 s) :
    Keeps pm s0 (sliceNote b g k r dis v m s) := by
  unfold sliceNote
  try dsimp only
  repeat' first
    | with_reducible assumption
    | with_reducible refine onSlice_keeps (sub (by decide) hm) ?_

theorem sliceEdit_keeps {s0 s : State} {n r : Nat} {v : Option (List Int)} {m : CalMeas} (hm : ([.cal] : List Part).all pm = true) (hk : Keeps pm s0 s) :
    Keeps pm s0 (sliceEdit n r v m s) := by
  unfold sliceEdit
  try dsimp only
  repeat' first
    | with_reducible assumption
    | with_reducible refine onCal_keeps (sub (by decide) hm) ?_
    | split

theorem sliceCount_keeps {s0 s : State} {chain r : Nat} {m : CalMeas} (hm : ([.cal] : List Part).all pm = true) (hk : Keeps pm s0 s) :
    Keeps pm s0 (sliceCount chain r m s) := by
  unfold sliceCount
  try dsimp only
  repeat' first
    | with_reducible assumption
    | with_reducible refine countRun_keeps (sub (by decide) hm) ?_
    | with_reducible refine onCC_keeps (sub (by decide) hm) ?_

theorem sliceVerdict_keeps {s0 s : State} {b g k r dis type : Nat} (hm : ([.outs, .boot, .host, .evt, .clk, .fe, .cal, .col, .out] : List Part).all pm = true) (hk : Keeps pm s0 s) :
    Keeps pm s0 (sliceVerdict b g k r dis type s) := by
  unfold sliceVerdict
  try dsimp only
  repeat' first
    | with_reducible assumption
    | with_reducible refine calDisagree_keeps (sub (by decide) hm) ?_
    | with_reducible refine failSlice_keeps (sub (by decide) hm) ?_
    | split

theorem sliceSet_keeps {s0 s : State} {n : Nat} {m : CalMeas} (hm : ([.outs, .boot, .host, .evt, .clk, .fe, .cal, .col, .out] : List Part).all pm = true) (hk : Keeps pm s0 s) :
    Keeps pm s0 (sliceSet n m s) := by
  unfold sliceSet
  try dsimp only
  repeat' first
    | with_reducible assumption
    | with_reducible refine sliceVerdict_keeps (sub (by decide) hm) ?_
    | with_reducible refine sliceCount_keeps (sub (by decide) hm) ?_
    | with_reducible refine sliceEdit_keeps (sub (by decide) hm) ?_
    | with_reducible refine sliceNote_keeps (sub (by decide) hm) ?_
    | split

theorem execCalMeasurementDone_keeps {s0 s : State} {m : CalMeas} (hm : ([.outs, .boot, .host, .evt, .clk, .fe, .cal, .col, .out] : List Part).all pm = true) (hk : Keeps pm s0 s) :
    KeepsOut pm s0 (execCalMeasurementDone m s) := by
  unfold execCalMeasurementDone
  try dsimp only
  repeat' first
    | with_reducible assumption
    | with_reducible refine sliceSet_keeps (sub (by decide) hm) ?_
    | with_reducible refine chainSet_keeps (sub (by decide) hm) ?_
    | with_reducible refine onlyIf_keeps (sub (by decide) hm) ?_ (fun _ => ?_)
    | with_reducible refine keepsOut_next ?_
    | split

theorem execNbCalInterval_keeps {s0 s : State}  (hm : ([.cal] : List Part).all pm = true) (hk : Keeps pm s0 s) :
    KeepsOut pm s0 (execNbCalInterval s) := by
  unfold execNbCalInterval
  try dsimp only
  repeat' first
    | with_reducible assumption
    | with_reducible refine onCC_keeps (sub (by decide) hm) ?_
    | with_reducible refine onlyIf_keeps (sub (by decide) hm) ?_ (fun _ => ?_)
    | with_reducible refine keepsOut_next ?_
    | with_reducible refine keeps_foldl ?_ ?_
    | (intro _ _ _)

theorem storeCal_keeps {s0 s : State}  (hm : ([.boot, .cal] : List Part).all pm = true) (hk : Keeps pm s0 s) :
    Keeps pm s0 (storeCal s) := by
  unfold storeCal
  try dsimp only
  repeat' first
    | with_reducible assumption
    | with_reducible refine onBoot_keeps (sub (by decide) hm) ?_ ?_ ?_ ?_
    | with_reducible refine onCal_keeps (sub (by decide) hm) ?_
    | with_reducible refine mramWrite_keeps (sub (by decide) hm) ?_
    | with_reducible refine keeps_foldl ?_ ?_
    | with_reducible exact id
    | (intro _ _ _)

theorem execCalStoreInterval_keeps {s0 s : State}  (hm : ([.boot, .cal] : List Part).all pm = true) (hk : Keeps pm s0 s) :
    KeepsOut pm s0 (execCalStoreInterval s) := by
  unfold execCalStoreInterval
  try dsimp only
  repeat' first
    | with_reducible assumption
    | with_reducible refine storeCal_keeps (sub (by decide) hm) ?_
    | with_reducible refine onlyIf_keeps (sub (by decide) hm) ?_ (fun _ => ?_)
    | with_reducible refine keepsOut_next ?_

theorem setSynths_keeps {s0 s : State} {b st : Nat} (hm : ([.fe] : List Part).all pm = true) (hk : Keeps pm s0 s) :
    Keeps pm s0 (setSynths b st s) := by
  unfold setSynths
  try dsimp only
  repeat' first
    | with_reducible assumption
    | with_reducible refine onBand_keeps (sub (by decide) hm) ?_

theorem specCalRun_keeps {s0 s : State} {c : Cmd} (hm : ([.fe, .cal] : List Part).all pm = true) (h : Keeps pm s0 s) : KeepsP pm s0 (specCalRun.body c s) := by
  simp only [specCalRun]
  repeat' first
    | with_reducible assumption
    | with_reducible refine onCal_keeps (sub (by decide) hm) ?_
    | with_reducible refine setSynths_keeps (sub (by decide) hm) ?_
    | with_reducible refine keepsP_mk ?_
    | with_reducible refine keeps_foldl ?_ ?_
    | split
    | (intro _ _ _)

theorem execCalRun_keeps {s0 s : State} {d : Doorbell} {p : List Byte} (hm : ([.boot, .mbx, .host, .evt, .modes, .flt, .clk, .fe, .cal, .ring, .out] : List Part).all pm = true) (hk : Keeps pm s0 s) :
    KeepsOut pm s0 (execCalRun d p s) := by
  unfold execCalRun
  try dsimp only
  repeat' first
    | with_reducible assumption
    | (refine command_keeps (sub (by decide) hm) ?_ (fun _ _ hh => specCalRun_keeps (sub (by decide) hm) hh))

theorem retestDone_keeps {s0 s : State}  (hm : ([.boot, .cal] : List Part).all pm = true) (hk : Keeps pm s0 s) :
    Keeps pm s0 (retestDone s) := by
  unfold retestDone
  try dsimp only
  repeat' first
    | with_reducible assumption
    | with_reducible refine onBoot_keeps (sub (by decide) hm) ?_ ?_ ?_ ?_
    | with_reducible refine onSlice_keeps (sub (by decide) hm) ?_
    | with_reducible refine onGC_keeps (sub (by decide) hm) ?_
    | with_reducible refine keeps_foldl ?_ ?_
    | split
    | with_reducible exact id
    | (intro _ _ _)

theorem execCalRunDone_keeps {s0 s : State}  (hm : ([.boot, .mbx, .host, .evt, .clk, .fe, .cal, .ring, .out] : List Part).all pm = true) (hk : Keeps pm s0 s) :
    KeepsOut pm s0 (execCalRunDone s) := by
  unfold execCalRunDone
  try dsimp only
  repeat' first
    | with_reducible assumption
    | with_reducible refine onCal_keeps (sub (by decide) hm) ?_
    | with_reducible refine retestDone_keeps (sub (by decide) hm) ?_
    | with_reducible refine setSynths_keeps (sub (by decide) hm) ?_
    | with_reducible refine storeCal_keeps (sub (by decide) hm) ?_
    | with_reducible refine endOp_keeps (sub (by decide) hm) ?_
    | with_reducible refine keepsOut_next ?_
    | with_reducible refine keeps_foldl ?_ ?_
    | split
    | (intro _ _ _)

theorem specCalStatus_keeps {s0 s : State} {c : Cmd} (hm : ([] : List Part).all pm = true) (h : Keeps pm s0 s) : KeepsP pm s0 (specCalStatus.body c s) := by
  simp only [specCalStatus]
  repeat' first
    | with_reducible assumption
    | with_reducible refine keepsP_mk ?_
    | split

theorem execCalStatus_keeps {s0 s : State} {d : Doorbell} {p : List Byte} (hm : ([.boot, .mbx, .host, .evt, .modes, .flt, .clk, .ring, .out] : List Part).all pm = true) (hk : Keeps pm s0 s) :
    KeepsOut pm s0 (execCalStatus d p s) := by
  unfold execCalStatus
  try dsimp only
  repeat' first
    | with_reducible assumption
    | (refine command_keeps (sub (by decide) hm) ?_ (fun _ _ hh => specCalStatus_keeps (sub (by decide) hm) hh))

theorem specCalSchedule_keeps {s0 s : State} {c : Cmd} (hm : ([.cal] : List Part).all pm = true) (h : Keeps pm s0 s) : KeepsP pm s0 (specCalSchedule.body c s) := by
  simp only [specCalSchedule]
  repeat' first
    | with_reducible assumption
    | with_reducible refine onCal_keeps (sub (by decide) hm) ?_
    | with_reducible refine keepsP_mk ?_
    | split

theorem execCalSchedule_keeps {s0 s : State} {d : Doorbell} {p : List Byte} (hm : ([.boot, .mbx, .host, .evt, .modes, .flt, .clk, .cal, .ring, .out] : List Part).all pm = true) (hk : Keeps pm s0 s) :
    KeepsOut pm s0 (execCalSchedule d p s) := by
  unfold execCalSchedule
  try dsimp only
  repeat' first
    | with_reducible assumption
    | (refine command_keeps (sub (by decide) hm) ?_ (fun _ _ hh => specCalSchedule_keeps (sub (by decide) hm) hh))

theorem specCalTableRead_keeps {s0 s : State} {c : Cmd} (hm : ([.drawn] : List Part).all pm = true) (h : Keeps pm s0 s) : KeepsP pm s0 (specCalTableRead.body c s) := by
  simp only [specCalTableRead]
  repeat' first
    | with_reducible assumption
    | with_reducible refine keeps_snd (draw_keeps (sub (by decide) hm) ?_)
    | with_reducible refine keepsP_mk ?_
    | split
    | with_reducible dsimp only

theorem execCalTableRead_keeps {s0 s : State} {d : Doorbell} {p : List Byte} (hm : ([.boot, .mbx, .host, .evt, .modes, .flt, .clk, .ring, .drawn, .out] : List Part).all pm = true) (hk : Keeps pm s0 s) :
    KeepsOut pm s0 (execCalTableRead d p s) := by
  unfold execCalTableRead
  try dsimp only
  repeat' first
    | with_reducible assumption
    | (refine command_keeps (sub (by decide) hm) ?_ (fun _ _ hh => specCalTableRead_keeps (sub (by decide) hm) hh))

theorem specCalTableStore_keeps {s0 s : State} {c : Cmd} (hm : ([] : List Part).all pm = true) (h : Keeps pm s0 s) : KeepsP pm s0 (specCalTableStore.body c s) := by
  simp only [specCalTableStore]
  repeat' first
    | with_reducible assumption
    | with_reducible refine keepsP_mk ?_

theorem execCalTableStore_keeps {s0 s : State} {d : Doorbell} {p : List Byte} (hm : ([.boot, .mbx, .host, .evt, .modes, .flt, .clk, .ring, .out] : List Part).all pm = true) (hk : Keeps pm s0 s) :
    KeepsOut pm s0 (execCalTableStore d p s) := by
  unfold execCalTableStore
  try dsimp only
  repeat' first
    | with_reducible assumption
    | (refine command_keeps (sub (by decide) hm) ?_ (fun _ _ hh => specCalTableStore_keeps (sub (by decide) hm) hh))

theorem execCalTableStoreDone_keeps {s0 s : State}  (hm : ([.boot, .mbx, .host, .evt, .clk, .cal, .ring, .out] : List Part).all pm = true) (hk : Keeps pm s0 s) :
    KeepsOut pm s0 (execCalTableStoreDone s) := by
  unfold execCalTableStoreDone
  try dsimp only
  repeat' first
    | with_reducible assumption
    | with_reducible refine onBoot_keeps (sub (by decide) hm) ?_ ?_ ?_ ?_
    | with_reducible refine onCal_keeps (sub (by decide) hm) ?_
    | with_reducible refine storeCal_keeps (sub (by decide) hm) ?_
    | with_reducible refine endLong_keeps (sub (by decide) hm) ?_
    | with_reducible refine keepsOut_next ?_
    | split
    | with_reducible exact id
    | exact memClear_wf

theorem specSliceStatus_keeps {s0 s : State} {c : Cmd} (hm : ([] : List Part).all pm = true) (h : Keeps pm s0 s) : KeepsP pm s0 (specSliceStatus.body c s) := by
  simp only [specSliceStatus]
  repeat' first
    | with_reducible assumption
    | with_reducible refine keepsP_mk ?_
    | split

theorem execSliceStatus_keeps {s0 s : State} {d : Doorbell} {p : List Byte} (hm : ([.boot, .mbx, .host, .evt, .modes, .flt, .clk, .ring, .out] : List Part).all pm = true) (hk : Keeps pm s0 s) :
    KeepsOut pm s0 (execSliceStatus d p s) := by
  unfold execSliceStatus
  try dsimp only
  repeat' first
    | with_reducible assumption
    | (refine command_keeps (sub (by decide) hm) ?_ (fun _ _ hh => specSliceStatus_keeps (sub (by decide) hm) hh))

theorem readTemp_keeps {s0 s : State} {n : Nat} {t : Int} (hm : ([.boot, .host, .evt, .clk, .cal, .out] : List Part).all pm = true) (hk : Keeps pm s0 s) :
    Keeps pm s0 (readTemp n t s) := by
  unfold readTemp
  try dsimp only
  repeat' first
    | with_reducible assumption
    | with_reducible refine onCal_keeps (sub (by decide) hm) ?_
    | with_reducible refine onGC_keeps (sub (by decide) hm) ?_
    | with_reducible refine raise_keeps (sub (by decide) hm) ?_
    | split

theorem tempDue_keeps {s0 s : State}  (hm : ([.cal] : List Part).all pm = true) (hk : Keeps pm s0 s) :
    Keeps pm s0 (tempDue s) := by
  unfold tempDue
  try dsimp only
  repeat' first
    | with_reducible assumption
    | with_reducible refine onCal_keeps (sub (by decide) hm) ?_

theorem shadowStart_keeps {s0 s : State} {b beat : Nat} (hm : ([.cal] : List Part).all pm = true) (hk : Keeps pm s0 s) :
    Keeps pm s0 (shadowStart b beat s) := by
  unfold shadowStart
  try dsimp only
  repeat' first
    | with_reducible assumption
    | with_reducible refine onSlice_keeps (sub (by decide) hm) ?_
    | split

theorem calBeat_keeps {s0 s : State} {beat : Nat} (hm : ([.boot, .host, .evt, .clk, .cal, .out] : List Part).all pm = true) (hk : Keeps pm s0 s) :
    Keeps pm s0 (calBeat beat s) := by
  unfold calBeat
  try dsimp only
  repeat' first
    | with_reducible assumption
    | with_reducible refine onCal_keeps (sub (by decide) hm) ?_
    | with_reducible refine shadowStart_keeps (sub (by decide) hm) ?_
    | with_reducible refine tempDue_keeps (sub (by decide) hm) ?_
    | with_reducible refine readTemp_keeps (sub (by decide) hm) ?_
    | with_reducible refine keeps_foldl ?_ ?_
    | split
    | (intro _ _ _)

theorem bootSlices_keeps {s0 s : State}  (hm : ([.fe, .cal] : List Part).all pm = true) (hk : Keeps pm s0 s) :
    Keeps pm s0 (bootSlices s) := by
  unfold bootSlices
  try dsimp only
  repeat' first
    | with_reducible assumption
    | with_reducible refine seatSlice_keeps (sub (by decide) hm) ?_
    | with_reducible refine onGC_keeps (sub (by decide) hm) ?_
    | with_reducible refine keeps_foldl ?_ ?_
    | split
    | (intro _ _ _)

end Sys2Proof.Machine
end

