-- ==== Sys2Proof/Laws/KeepAirBase.lean ====
section
/-!
SUPPORT. What the operations of Machine.AirBase keep.
-/
set_option linter.unusedSimpArgs false
set_option linter.unusedVariables false
namespace Sys2Proof.Machine

variable {pm : Part → Bool}

theorem onAB_keeps {s0 s : State} {b : Nat} {f : AirBand → AirBand} (hm : ([.air] : List Part).all pm = true) (hk : Keeps pm s0 s) :
    Keeps pm s0 (onAB b f s) := by
  unfold onAB
  try dsimp only
  repeat' first
    | with_reducible assumption
    | with_reducible refine onAir_keeps (sub (by decide) hm) ?_

theorem onPhy_keeps {s0 s : State} {b : Nat} {f : Phy → Phy} (hm : ([.air] : List Part).all pm = true) (hk : Keeps pm s0 s) :
    Keeps pm s0 (onPhy b f s) := by
  unfold onPhy
  try dsimp only
  repeat' first
    | with_reducible assumption
    | with_reducible refine onAir_keeps (sub (by decide) hm) ?_

theorem countPhy_keeps {s0 s : State} {b i : Nat} {k : Nat} (hm : ([.air] : List Part).all pm = true) (hk : Keeps pm s0 s) :
    Keeps pm s0 (countPhy b i s k) := by
  unfold countPhy
  try dsimp only
  repeat' first
    | with_reducible assumption
    | with_reducible refine onPhy_keeps (sub (by decide) hm) ?_

theorem countAir_keeps {s0 s : State} {b i : Nat} {k : Nat} (hm : ([.air] : List Part).all pm = true) (hk : Keeps pm s0 s) :
    Keeps pm s0 (countAir b i s k) := by
  unfold countAir
  try dsimp only
  repeat' first
    | with_reducible assumption
    | with_reducible refine onAB_keeps (sub (by decide) hm) ?_

theorem onSta_keeps {s0 s : State} {n : Nat} {f : Sta → Sta} (hm : ([.air] : List Part).all pm = true) (hk : Keeps pm s0 s) :
    Keeps pm s0 (onSta n f s) := by
  unfold onSta
  try dsimp only
  repeat' first
    | with_reducible assumption
    | with_reducible refine onAir_keeps (sub (by decide) hm) ?_
    | split

theorem countSta_keeps {s0 s : State} {n i : Nat} {k : Nat} (hm : ([.air] : List Part).all pm = true) (hk : Keeps pm s0 s) :
    Keeps pm s0 (countSta n i s k) := by
  unfold countSta
  try dsimp only
  repeat' first
    | with_reducible assumption
    | with_reducible refine onSta_keeps (sub (by decide) hm) ?_

theorem enqAc_keeps {s0 s : State} {n tid : Nat} {bytes : List Byte} (hm : ([.air, .tm, .dram] : List Part).all pm = true) (hk : Keeps pm s0 s) :
    Keeps pm s0 (enqAc n tid bytes s) := by
  unfold enqAc
  try dsimp only
  repeat' first
    | with_reducible assumption
    | with_reducible refine countSta_keeps (sub (by decide) hm) ?_
    | with_reducible refine onSta_keeps (sub (by decide) hm) ?_
    | with_reducible refine wbMissed_keeps (sub (by decide) hm) ?_
    | with_reducible refine wbPut_keeps (sub (by decide) hm) ?_
    | with_reducible refine noteLow_keeps (sub (by decide) hm) ?_
    | split

theorem toSta_keeps {s0 s : State} {n tid : Nat} {bytes : List Byte} {fromHost : Bool} (hm : ([.air, .tm, .dram] : List Part).all pm = true) (hk : Keeps pm s0 s) :
    Keeps pm s0 (toSta n tid bytes fromHost s) := by
  unfold toSta
  try dsimp only
  repeat' first
    | with_reducible assumption
    | with_reducible refine enqAc_keeps (sub (by decide) hm) ?_
    | with_reducible refine countSta_keeps (sub (by decide) hm) ?_
    | split

theorem returnFrames_keeps {s0 s : State} {n : Nat} {fs : List Frame} (hm : ([.air] : List Part).all pm = true) (hk : Keeps pm s0 s) :
    Keeps pm s0 (returnFrames n fs s) := by
  unfold returnFrames
  try dsimp only
  repeat' first
    | with_reducible assumption
    | with_reducible refine onSta_keeps (sub (by decide) hm) ?_
    | with_reducible refine keeps_foldl ?_ ?_
    | (intro _ _ _)

theorem discarded_keeps {s0 s : State} {n tid i : Nat} (hm : ([.air] : List Part).all pm = true) (hk : Keeps pm s0 s) :
    Keeps pm s0 (discarded n tid i s) := by
  unfold discarded
  try dsimp only
  repeat' first
    | with_reducible assumption
    | with_reducible refine countSta_keeps (sub (by decide) hm) ?_
    | with_reducible refine onSta_keeps (sub (by decide) hm) ?_

theorem failFrame_keeps {s0 s : State} {b n : Nat} {f : Frame} (hm : ([.air] : List Part).all pm = true) (hk : Keeps pm s0 s) :
    KeepsP pm s0 (failFrame b n f s) := by
  unfold failFrame
  try dsimp only
  repeat' first
    | with_reducible assumption
    | with_reducible refine discarded_keeps (sub (by decide) hm) ?_
    | with_reducible refine keepsP_mk ?_
    | split

theorem onBf_keeps {s0 s : State} {n : Nat} {f : Bf → Bf} (hm : ([.air] : List Part).all pm = true) (hk : Keeps pm s0 s) :
    Keeps pm s0 (onBf n f s) := by
  unfold onBf
  try dsimp only
  repeat' first
    | with_reducible assumption
    | with_reducible refine onAir_keeps (sub (by decide) hm) ?_
    | split

theorem countBf_keeps {s0 s : State} {n i : Nat} {k : Nat} (hm : ([.air] : List Part).all pm = true) (hk : Keeps pm s0 s) :
    Keeps pm s0 (countBf n i s k) := by
  unfold countBf
  try dsimp only
  repeat' first
    | with_reducible assumption
    | with_reducible refine onBf_keeps (sub (by decide) hm) ?_

theorem bfEnter_keeps {s0 s : State} {n : Nat} {bytes : List Byte} (hm : ([.air, .tm, .dram] : List Part).all pm = true) (hk : Keeps pm s0 s) :
    Keeps pm s0 (bfEnter n bytes s) := by
  unfold bfEnter
  try dsimp only
  repeat' first
    | with_reducible assumption
    | with_reducible refine countBf_keeps (sub (by decide) hm) ?_
    | with_reducible refine onBf_keeps (sub (by decide) hm) ?_
    | with_reducible refine enqAc_keeps (sub (by decide) hm) ?_
    | split

theorem decide__keeps {s0 s : State} {n k reason : Nat} (hm : ([.boot, .host, .evt, .clk, .air, .out] : List Part).all pm = true) (hk : Keeps pm s0 s) :
    Keeps pm s0 (decide_ n k reason s) := by
  unfold decide_
  try dsimp only
  repeat' first
    | with_reducible assumption
    | with_reducible refine countBf_keeps (sub (by decide) hm) ?_
    | with_reducible refine onBf_keeps (sub (by decide) hm) ?_
    | with_reducible refine raise_keeps (sub (by decide) hm) ?_
    | split

theorem consume_keeps {s0 s : State} {n k reason : Nat} (hm : ([.boot, .host, .evt, .clk, .air, .out] : List Part).all pm = true) (hk : Keeps pm s0 s) :
    Keeps pm s0 (consume n k reason s) := by
  unfold consume
  try dsimp only
  repeat' first
    | with_reducible assumption
    | with_reducible refine decide__keeps (sub (by decide) hm) ?_
    | with_reducible refine onBf_keeps (sub (by decide) hm) ?_
    | split

theorem delivered_keeps {s0 s : State} {n k i : Nat} (hm : ([.air] : List Part).all pm = true) (hk : Keeps pm s0 s) :
    Keeps pm s0 (delivered n k i s) := by
  unfold delivered
  try dsimp only
  repeat' first
    | with_reducible assumption
    | with_reducible refine countBf_keeps (sub (by decide) hm) ?_
    | with_reducible refine onBf_keeps (sub (by decide) hm) ?_
    | split

theorem enterReview_keeps {s0 s : State} {n cause : Nat} (hm : ([.boot, .host, .evt, .clk, .air, .out] : List Part).all pm = true) (hk : Keeps pm s0 s) :
    Keeps pm s0 (enterReview n cause s) := by
  unfold enterReview
  try dsimp only
  repeat' first
    | with_reducible assumption
    | with_reducible refine onBf_keeps (sub (by decide) hm) ?_
    | with_reducible refine raise_keeps (sub (by decide) hm) ?_
    | split

theorem clearCause_keeps {s0 s : State} {n cause : Nat} (hm : ([.boot, .host, .evt, .clk, .air, .out] : List Part).all pm = true) (hk : Keeps pm s0 s) :
    Keeps pm s0 (clearCause n cause s) := by
  unfold clearCause
  try dsimp only
  repeat' first
    | with_reducible assumption
    | with_reducible refine onBf_keeps (sub (by decide) hm) ?_
    | with_reducible refine raise_keeps (sub (by decide) hm) ?_
    | split

end Sys2Proof.Machine
end

