-- ==== Sys2Proof/Laws/KeepPhy.lean ====
section
/-!
SUPPORT. What the operations of Machine.Phy keep.
-/
set_option linter.unusedSimpArgs false
set_option linter.unusedVariables false
namespace Sys2Proof.Machine

variable {pm : Part → Bool}

theorem specSoundingConfig_keeps {s0 s : State} {c : Cmd} (hm : ([.air] : List Part).all pm = true) (h : Keeps pm s0 s) : KeepsP pm s0 (specSoundingConfig.body c s) := by
  simp only [specSoundingConfig]
  repeat' first
    | with_reducible assumption
    | with_reducible refine onPhy_keeps (sub (by decide) hm) ?_
    | with_reducible refine keepsP_mk ?_
    | split

theorem execSoundingConfig_keeps {s0 s : State} {d : Doorbell} {p : List Byte} (hm : ([.boot, .mbx, .host, .evt, .modes, .flt, .clk, .air, .ring, .out] : List Part).all pm = true) (hk : Keeps pm s0 s) :
    KeepsOut pm s0 (execSoundingConfig d p s) := by
  unfold execSoundingConfig
  try dsimp only
  repeat' first
    | with_reducible assumption
    | (refine command_keeps (sub (by decide) hm) ?_ (fun _ _ hh => specSoundingConfig_keeps (sub (by decide) hm) hh))

theorem specPrecodeConfig_keeps {s0 s : State} {c : Cmd} (hm : ([.air] : List Part).all pm = true) (h : Keeps pm s0 s) : KeepsP pm s0 (specPrecodeConfig.body c s) := by
  simp only [specPrecodeConfig]
  repeat' first
    | with_reducible assumption
    | with_reducible refine onPhy_keeps (sub (by decide) hm) ?_
    | with_reducible refine keepsP_mk ?_
    | split

theorem execPrecodeConfig_keeps {s0 s : State} {d : Doorbell} {p : List Byte} (hm : ([.boot, .mbx, .host, .evt, .modes, .flt, .clk, .air, .ring, .out] : List Part).all pm = true) (hk : Keeps pm s0 s) :
    KeepsOut pm s0 (execPrecodeConfig d p s) := by
  unfold execPrecodeConfig
  try dsimp only
  repeat' first
    | with_reducible assumption
    | (refine command_keeps (sub (by decide) hm) ?_ (fun _ _ hh => specPrecodeConfig_keeps (sub (by decide) hm) hh))

theorem specCsiRead_keeps {s0 s : State} {c : Cmd} (hm : ([.air] : List Part).all pm = true) (h : Keeps pm s0 s) : KeepsP pm s0 (specCsiRead.body c s) := by
  simp only [specCsiRead]
  repeat' first
    | with_reducible assumption
    | with_reducible refine onPhy_keeps (sub (by decide) hm) ?_
    | with_reducible refine keepsP_mk ?_
    | split

theorem execCsiRead_keeps {s0 s : State} {d : Doorbell} {p : List Byte} (hm : ([.boot, .mbx, .host, .evt, .modes, .flt, .clk, .air, .ring, .out] : List Part).all pm = true) (hk : Keeps pm s0 s) :
    KeepsOut pm s0 (execCsiRead d p s) := by
  unfold execCsiRead
  try dsimp only
  repeat' first
    | with_reducible assumption
    | (refine command_keeps (sub (by decide) hm) ?_ (fun _ _ hh => specCsiRead_keeps (sub (by decide) hm) hh))

theorem execWbPreambleDetected_keeps {s0 s : State} {band : BandId} (hm : ([.air] : List Part).all pm = true) (hk : Keeps pm s0 s) :
    KeepsOut pm s0 (execWbPreambleDetected band s) := by
  unfold execWbPreambleDetected
  try dsimp only
  repeat' first
    | with_reducible assumption
    | with_reducible refine onPhy_keeps (sub (by decide) hm) ?_
    | with_reducible refine onlyIf_keeps (sub (by decide) hm) ?_ (fun _ => ?_)
    | with_reducible refine keepsOut_next ?_

theorem execWbRxFalseDet_keeps {s0 s : State} {band : BandId} (hm : ([.air] : List Part).all pm = true) (hk : Keeps pm s0 s) :
    KeepsOut pm s0 (execWbRxFalseDet band s) := by
  unfold execWbRxFalseDet
  try dsimp only
  repeat' first
    | with_reducible assumption
    | with_reducible refine countPhy_keeps (sub (by decide) hm) ?_
    | with_reducible refine onPhy_keeps (sub (by decide) hm) ?_
    | with_reducible refine onlyIf_keeps (sub (by decide) hm) ?_ (fun _ => ?_)
    | with_reducible refine keepsOut_next ?_

theorem execWbRxRestart_keeps {s0 s : State} {band : BandId} {rise : Int} (hm : ([.air] : List Part).all pm = true) (hk : Keeps pm s0 s) :
    KeepsOut pm s0 (execWbRxRestart band rise s) := by
  unfold execWbRxRestart
  try dsimp only
  repeat' first
    | with_reducible assumption
    | with_reducible refine countPhy_keeps (sub (by decide) hm) ?_
    | with_reducible refine onPhy_keeps (sub (by decide) hm) ?_
    | with_reducible refine onlyIf_keeps (sub (by decide) hm) ?_ (fun _ => ?_)
    | with_reducible refine keepsOut_next ?_

end Sys2Proof.Machine
end

