-- ==== Sys2Proof/Laws/KeepStations.lean ====
section
/-!
SUPPORT. What the operations of Machine.Stations keep.
-/
set_option linter.unusedSimpArgs false
set_option linter.unusedVariables false
namespace Sys2Proof.Machine

variable {pm : Part → Bool}

theorem specStaAdd_keeps {s0 s : State} {c : Cmd} (hm : ([.air] : List Part).all pm = true) (h : Keeps pm s0 s) : KeepsP pm s0 (specStaAdd.body c s) := by
  simp only [specStaAdd]
  repeat' first
    | with_reducible assumption
    | with_reducible refine onAir_keeps (sub (by decide) hm) ?_
    | with_reducible refine keepsP_mk ?_
    | split

theorem execStaAdd_keeps {s0 s : State} {d : Doorbell} {p : List Byte} (hm : ([.boot, .mbx, .host, .evt, .modes, .flt, .clk, .air, .ring, .out] : List Part).all pm = true) (hk : Keeps pm s0 s) :
    KeepsOut pm s0 (execStaAdd d p s) := by
  unfold execStaAdd
  try dsimp only
  repeat' first
    | with_reducible assumption
    | (refine command_keeps (sub (by decide) hm) ?_ (fun _ _ hh => specStaAdd_keeps (sub (by decide) hm) hh))

theorem specStaModify_keeps {s0 s : State} {c : Cmd} (hm : ([.air] : List Part).all pm = true) (h : Keeps pm s0 s) : KeepsP pm s0 (specStaModify.body c s) := by
  simp only [specStaModify]
  repeat' first
    | with_reducible assumption
    | with_reducible refine onSta_keeps (sub (by decide) hm) ?_
    | with_reducible refine keepsP_mk ?_
    | split

theorem execStaModify_keeps {s0 s : State} {d : Doorbell} {p : List Byte} (hm : ([.boot, .mbx, .host, .evt, .modes, .flt, .clk, .air, .ring, .out] : List Part).all pm = true) (hk : Keeps pm s0 s) :
    KeepsOut pm s0 (execStaModify d p s) := by
  unfold execStaModify
  try dsimp only
  repeat' first
    | with_reducible assumption
    | (refine command_keeps (sub (by decide) hm) ?_ (fun _ _ hh => specStaModify_keeps (sub (by decide) hm) hh))

theorem clearCsi_keeps {s0 s : State} {n : Nat} (hm : ([.air] : List Part).all pm = true) (hk : Keeps pm s0 s) :
    Keeps pm s0 (clearCsi n s) := by
  unfold clearCsi
  try dsimp only
  repeat' first
    | with_reducible assumption
    | with_reducible refine onAir_keeps (sub (by decide) hm) ?_

theorem specStaRemove_keeps {s0 s : State} {c : Cmd} (hm : ([.air] : List Part).all pm = true) (h : Keeps pm s0 s) : KeepsP pm s0 (specStaRemove.body c s) := by
  simp only [specStaRemove]
  repeat' first
    | with_reducible assumption
    | with_reducible refine onAir_keeps (sub (by decide) hm) ?_
    | with_reducible refine clearCsi_keeps (sub (by decide) hm) ?_
    | with_reducible refine keepsP_mk ?_
    | split

theorem execStaRemove_keeps {s0 s : State} {d : Doorbell} {p : List Byte} (hm : ([.boot, .mbx, .host, .evt, .modes, .flt, .clk, .air, .ring, .out] : List Part).all pm = true) (hk : Keeps pm s0 s) :
    KeepsOut pm s0 (execStaRemove d p s) := by
  unfold execStaRemove
  try dsimp only
  repeat' first
    | with_reducible assumption
    | (refine command_keeps (sub (by decide) hm) ?_ (fun _ _ hh => specStaRemove_keeps (sub (by decide) hm) hh))

theorem specStaGet_keeps {s0 s : State} {c : Cmd} (hm : ([] : List Part).all pm = true) (h : Keeps pm s0 s) : KeepsP pm s0 (specStaGet.body c s) := by
  simp only [specStaGet]
  repeat' first
    | with_reducible assumption
    | with_reducible refine keepsP_mk ?_
    | split

theorem execStaGet_keeps {s0 s : State} {d : Doorbell} {p : List Byte} (hm : ([.boot, .mbx, .host, .evt, .modes, .flt, .clk, .ring, .out] : List Part).all pm = true) (hk : Keeps pm s0 s) :
    KeepsOut pm s0 (execStaGet d p s) := by
  unfold execStaGet
  try dsimp only
  repeat' first
    | with_reducible assumption
    | (refine command_keeps (sub (by decide) hm) ?_ (fun _ _ hh => specStaGet_keeps (sub (by decide) hm) hh))

theorem specAcParamSet_keeps {s0 s : State} {c : Cmd} (hm : ([.air] : List Part).all pm = true) (h : Keeps pm s0 s) : KeepsP pm s0 (specAcParamSet.body c s) := by
  simp only [specAcParamSet]
  repeat' first
    | with_reducible assumption
    | with_reducible refine onAB_keeps (sub (by decide) hm) ?_
    | with_reducible refine keepsP_mk ?_
    | split

theorem execAcParamSet_keeps {s0 s : State} {d : Doorbell} {p : List Byte} (hm : ([.boot, .mbx, .host, .evt, .modes, .flt, .clk, .air, .ring, .out] : List Part).all pm = true) (hk : Keeps pm s0 s) :
    KeepsOut pm s0 (execAcParamSet d p s) := by
  unfold execAcParamSet
  try dsimp only
  repeat' first
    | with_reducible assumption
    | (refine command_keeps (sub (by decide) hm) ?_ (fun _ _ hh => specAcParamSet_keeps (sub (by decide) hm) hh))

theorem specTurnPlanSet_keeps {s0 s : State} {c : Cmd} (hm : ([.air] : List Part).all pm = true) (h : Keeps pm s0 s) : KeepsP pm s0 (specTurnPlanSet.body c s) := by
  simp only [specTurnPlanSet]
  repeat' first
    | with_reducible assumption
    | with_reducible refine onAB_keeps (sub (by decide) hm) ?_
    | with_reducible refine keepsP_mk ?_
    | split

theorem execTurnPlanSet_keeps {s0 s : State} {d : Doorbell} {p : List Byte} (hm : ([.boot, .mbx, .host, .evt, .modes, .flt, .clk, .air, .ring, .out] : List Part).all pm = true) (hk : Keeps pm s0 s) :
    KeepsOut pm s0 (execTurnPlanSet d p s) := by
  unfold execTurnPlanSet
  try dsimp only
  repeat' first
    | with_reducible assumption
    | (refine command_keeps (sub (by decide) hm) ?_ (fun _ _ hh => specTurnPlanSet_keeps (sub (by decide) hm) hh))

theorem specAirGateSet_keeps {s0 s : State} {c : Cmd} (hm : ([.air] : List Part).all pm = true) (h : Keeps pm s0 s) : KeepsP pm s0 (specAirGateSet.body c s) := by
  simp only [specAirGateSet]
  repeat' first
    | with_reducible assumption
    | with_reducible refine onAB_keeps (sub (by decide) hm) ?_
    | with_reducible refine keepsP_mk ?_
    | split

theorem execAirGateSet_keeps {s0 s : State} {d : Doorbell} {p : List Byte} (hm : ([.boot, .mbx, .host, .evt, .modes, .flt, .clk, .air, .ring, .out] : List Part).all pm = true) (hk : Keeps pm s0 s) :
    KeepsOut pm s0 (execAirGateSet d p s) := by
  unfold execAirGateSet
  try dsimp only
  repeat' first
    | with_reducible assumption
    | (refine command_keeps (sub (by decide) hm) ?_ (fun _ _ hh => specAirGateSet_keeps (sub (by decide) hm) hh))

theorem specBeaconTemplate_keeps {s0 s : State} {c : Cmd} (hm : ([.air] : List Part).all pm = true) (h : Keeps pm s0 s) : KeepsP pm s0 (specBeaconTemplate.body c s) := by
  simp only [specBeaconTemplate]
  repeat' first
    | with_reducible assumption
    | with_reducible refine onAB_keeps (sub (by decide) hm) ?_
    | with_reducible refine keepsP_mk ?_
    | split

theorem execBeaconTemplate_keeps {s0 s : State} {d : Doorbell} {p : List Byte} (hm : ([.boot, .mbx, .host, .evt, .modes, .flt, .clk, .air, .ring, .out] : List Part).all pm = true) (hk : Keeps pm s0 s) :
    KeepsOut pm s0 (execBeaconTemplate d p s) := by
  unfold execBeaconTemplate
  try dsimp only
  repeat' first
    | with_reducible assumption
    | (refine command_keeps (sub (by decide) hm) ?_ (fun _ _ hh => specBeaconTemplate_keeps (sub (by decide) hm) hh))

theorem specLinkSteer_keeps {s0 s : State} {c : Cmd} (hm : ([.air] : List Part).all pm = true) (h : Keeps pm s0 s) : KeepsP pm s0 (specLinkSteer.body c s) := by
  simp only [specLinkSteer]
  repeat' first
    | with_reducible assumption
    | with_reducible refine onSta_keeps (sub (by decide) hm) ?_
    | with_reducible refine keepsP_mk ?_
    | split

theorem execLinkSteer_keeps {s0 s : State} {d : Doorbell} {p : List Byte} (hm : ([.boot, .mbx, .host, .evt, .modes, .flt, .clk, .air, .ring, .out] : List Part).all pm = true) (hk : Keeps pm s0 s) :
    KeepsOut pm s0 (execLinkSteer d p s) := by
  unfold execLinkSteer
  try dsimp only
  repeat' first
    | with_reducible assumption
    | (refine command_keeps (sub (by decide) hm) ?_ (fun _ _ hh => specLinkSteer_keeps (sub (by decide) hm) hh))

theorem specPolicyBind_keeps {s0 s : State} {c : Cmd} (hm : ([.air] : List Part).all pm = true) (h : Keeps pm s0 s) : KeepsP pm s0 (specPolicyBind.body c s) := by
  simp only [specPolicyBind]
  repeat' first
    | with_reducible assumption
    | with_reducible refine onAB_keeps (sub (by decide) hm) ?_
    | with_reducible refine keepsP_mk ?_
    | split

theorem execPolicyBind_keeps {s0 s : State} {d : Doorbell} {p : List Byte} (hm : ([.boot, .mbx, .host, .evt, .modes, .flt, .clk, .air, .ring, .out] : List Part).all pm = true) (hk : Keeps pm s0 s) :
    KeepsOut pm s0 (execPolicyBind d p s) := by
  unfold execPolicyBind
  try dsimp only
  repeat' first
    | with_reducible assumption
    | (refine command_keeps (sub (by decide) hm) ?_ (fun _ _ hh => specPolicyBind_keeps (sub (by decide) hm) hh))

end Sys2Proof.Machine
end

