-- ==== Sys2Proof/Laws/KeepFlowPlan.lean ====
section
/-!
SUPPORT. What the operations of Machine.FlowPlan keep.
-/
set_option linter.unusedSimpArgs false
set_option linter.unusedVariables false
namespace Sys2Proof.Machine

variable {pm : Part → Bool}

theorem consumeAll_keeps {s0 s : State} {items : List BfItem} {reason : Nat} (hm : ([.boot, .host, .evt, .clk, .air, .out] : List Part).all pm = true) (hk : Keeps pm s0 s) :
    Keeps pm s0 (consumeAll items reason s) := by
  unfold consumeAll
  try dsimp only
  repeat' first
    | with_reducible assumption
    | with_reducible refine consume_keeps (sub (by decide) hm) ?_
    | with_reducible refine keeps_foldl ?_ ?_
    | (intro _ _ _)

theorem soloUser_keeps {s0 : State} {b head price w r : Nat} {acc : List Ppdu × Nat × State} {u : BfUser} (hm : ([.boot, .host, .evt, .clk, .air, .out] : List Part).all pm = true) (hk : KeepsT pm s0 acc) :
    KeepsT pm s0 (soloUser b head price w r acc u) := by
  unfold soloUser
  try dsimp only
  repeat' first
    | with_reducible refine consumeAll_keeps (sub (by decide) hm) ?_
    | with_reducible refine keepsT_mk ?_
    | with_reducible exact keeps_snd2 (by assumption)
    | split

theorem putExchange_keeps {s0 : State} {b beat head price w : Nat} {acc : List Ppdu × Nat × State} {e : Nat × Nat × List BfUser} (hm : ([.boot, .host, .evt, .clk, .air, .out] : List Part).all pm = true) (hk : KeepsT pm s0 acc) :
    KeepsT pm s0 (putExchange b beat head price w acc e) := by
  unfold putExchange
  try dsimp only
  repeat' first
    | with_reducible assumption
    | with_reducible refine soloUser_keeps (sub (by decide) hm) ?_
    | with_reducible refine keepsT_mk ?_
    | with_reducible refine keeps_snd2 (keepsT_foldl ?_ ?_)
    | with_reducible exact keeps_snd2 (by assumption)
    | (intro _ _ _)

theorem consumeHeld_keeps {s0 s : State} {b : Nat} {out : List BfItem} (hm : ([.boot, .host, .evt, .clk, .air, .out] : List Part).all pm = true) (hk : Keeps pm s0 s) :
    Keeps pm s0 (consumeHeld b out s) := by
  unfold consumeHeld
  try dsimp only
  repeat' first
    | with_reducible assumption
    | with_reducible refine consume_keeps (sub (by decide) hm) ?_
    | with_reducible refine keeps_foldl ?_ ?_
    | (intro _ _ _)

theorem putExchanges_keeps {s0 s : State} {b beat price : Nat} {es : List (Nat × Nat × List BfUser)} {left : List BfItem} (hm : ([.boot, .host, .evt, .clk, .air, .out] : List Part).all pm = true) (hk : Keeps pm s0 s) :
    KeepsT pm s0 (putExchanges b beat price es left s) := by
  unfold putExchanges
  try dsimp only
  repeat' first
    | with_reducible assumption
    | with_reducible refine putExchange_keeps (sub (by decide) hm) ?_
    | with_reducible refine consumeAll_keeps (sub (by decide) hm) ?_
    | with_reducible refine keepsT_mk ?_
    | with_reducible refine keeps_snd2 (keepsT_foldl ?_ ?_)
    | (intro _ _ _)

theorem bfInterval_keeps {s0 s : State} {b beat : Nat} (hm : ([.boot, .host, .evt, .clk, .air, .out] : List Part).all pm = true) (hk : Keeps pm s0 s) :
    KeepsT pm s0 (bfInterval b beat s) := by
  unfold bfInterval
  try dsimp only
  repeat' first
    | with_reducible assumption
    | with_reducible refine keeps_snd2 (putExchanges_keeps (sub (by decide) hm) ?_)
    | with_reducible refine consumeHeld_keeps (sub (by decide) hm) ?_
    | with_reducible refine keepsT_mk ?_

end Sys2Proof.Machine
end

