-- ==== Sys2Proof/Laws/KeepPlanner.lean ====
section
/-!
SUPPORT. What the operations of Machine.Planner keep.
-/
set_option linter.unusedSimpArgs false
set_option linter.unusedVariables false
namespace Sys2Proof.Machine

variable {pm : Part → Bool}

theorem onlyAir_keeps {s0 u : State} {b : Nat} {c : Bool} (hm : ([.air] : List Part).all pm = true) (h : Keeps pm s0 u) : Keeps pm s0 (if c = true then countAir b 0 u else u) := by
  split
  · exact countAir_keeps (sub (by decide) hm) h
  · exact h

theorem onPlan_keeps {s0 s : State} {b beat : Nat} {f : Plan → Plan} (hm : ([.air] : List Part).all pm = true) (hk : Keeps pm s0 s) :
    Keeps pm s0 (onPlan b beat f s) := by
  unfold onPlan
  try dsimp only
  repeat' first
    | with_reducible assumption
    | with_reducible refine onAB_keeps (sub (by decide) hm) ?_
    | split

theorem assignLinks_keeps {s0 s : State} {beat : Nat} (hm : ([.air] : List Part).all pm = true) (hk : Keeps pm s0 s) :
    Keeps pm s0 (assignLinks beat s) := by
  unfold assignLinks
  try dsimp only
  repeat' first
    | with_reducible assumption
    | with_reducible refine onAir_keeps (sub (by decide) hm) ?_

theorem riseDeficits_keeps {s0 s : State} {b : Nat} (hm : ([.air] : List Part).all pm = true) (hk : Keeps pm s0 s) :
    Keeps pm s0 (riseDeficits b s) := by
  unfold riseDeficits
  try dsimp only
  repeat' first
    | with_reducible assumption
    | with_reducible refine onAir_keeps (sub (by decide) hm) ?_

theorem payDeficits_keeps {s0 s : State} {b : Nat} {p : Ppdu} (hm : ([.air] : List Part).all pm = true) (hk : Keeps pm s0 s) :
    Keeps pm s0 (payDeficits b p s) := by
  unfold payDeficits
  try dsimp only
  repeat' first
    | with_reducible assumption
    | with_reducible refine onSta_keeps (sub (by decide) hm) ?_
    | with_reducible refine keeps_foldl ?_ ?_
    | (intro _ _ _)

theorem dropExpired_keeps {s0 s : State} {b n fin : Nat} (hm : ([.air] : List Part).all pm = true) (hk : Keeps pm s0 s) :
    Keeps pm s0 (dropExpired b n fin s) := by
  unfold dropExpired
  try dsimp only
  repeat' first
    | with_reducible assumption
    | with_reducible refine discarded_keeps (sub (by decide) hm) ?_
    | with_reducible refine onSta_keeps (sub (by decide) hm) ?_
    | with_reducible refine keeps_foldl ?_ ?_
    | split
    | (intro _ _ _)

theorem takeUser_keeps {s0 : State} {b : Nat} {w : Want} {t : List (Nat × Nat × Nat)} {bits : Nat} {acc : List PUser × State} (hm : ([.air] : List Part).all pm = true) (hk : KeepsP pm s0 acc) :
    KeepsP pm s0 (takeUser b w t bits acc) := by
  unfold takeUser
  try dsimp only
  repeat' first
    | with_reducible refine onSta_keeps (sub (by decide) hm) ?_
    | with_reducible refine keepsP_mk ?_
    | with_reducible exact keeps_snd (by assumption)
    | split

theorem placeData_keeps {s0 s : State} {b beat kind : Nat} {mf : Bool} {wants : List Want} (hm : ([.air] : List Part).all pm = true) (hk : Keeps pm s0 s) :
    KeepsO pm s0 (placeData b beat kind mf wants s) := by
  unfold placeData
  try dsimp only
  repeat' first
    | with_reducible assumption
    | with_reducible refine takeUser_keeps (sub (by decide) hm) ?_
    | with_reducible refine dropExpired_keeps (sub (by decide) hm) ?_
    | with_reducible refine onPlan_keeps (sub (by decide) hm) ?_
    | with_reducible refine keepsP_mk ?_
    | with_reducible exact keepsO_none
    | with_reducible refine keepsO_some ?_
    | with_reducible refine keeps_foldl ?_ ?_
    | with_reducible refine keeps_snd (keepsP_foldl ?_ ?_)
    | split
    | (intro _ _ _)

theorem takeSet_keeps {s0 s : State} {b beat : Nat} (hm : ([.air] : List Part).all pm = true) (hk : Keeps pm s0 s) :
    Keeps pm s0 (takeSet b beat s) := by
  unfold takeSet
  try dsimp only
  repeat' first
    | with_reducible assumption
    | with_reducible refine onPlan_keeps (sub (by decide) hm) ?_

theorem placeGroup_keeps {s0 s : State} {b beat : Nat} {us : List GUser} (hm : ([.air] : List Part).all pm = true) (hk : Keeps pm s0 s) :
    Keeps pm s0 (placeGroup b beat us s) := by
  unfold placeGroup
  try dsimp only
  repeat' first
    | with_reducible assumption
    | with_reducible refine placeData_keeps (sub (by decide) hm) ?_
    | with_reducible refine countAir_keeps (sub (by decide) hm) ?_
    | (with_reducible refine keeps_of_some ?_ (by assumption))
    | split

theorem deliver_keeps {s0 s : State} {b beat : Nat} {us : List GUser} {complete : Bool} (hm : ([.air] : List Part).all pm = true) (hk : Keeps pm s0 s) :
    Keeps pm s0 (deliver b beat us complete s) := by
  unfold deliver
  try dsimp only
  repeat' first
    | with_reducible assumption
    | with_reducible refine placeGroup_keeps (sub (by decide) hm) ?_
    | with_reducible refine takeSet_keeps (sub (by decide) hm) ?_
    | with_reducible refine onPlan_keeps (sub (by decide) hm) ?_
    | with_reducible refine countPhy_keeps (sub (by decide) hm) ?_
    | split

theorem execWeightSetComplete_keeps {s0 s : State} {band : BandId} {beat : Nat} (hm : ([.air] : List Part).all pm = true) (hk : Keeps pm s0 s) :
    KeepsOut pm s0 (execWeightSetComplete band beat s) := by
  unfold execWeightSetComplete
  try dsimp only
  repeat' first
    | with_reducible assumption
    | with_reducible refine placeGroup_keeps (sub (by decide) hm) ?_
    | with_reducible refine onPlan_keeps (sub (by decide) hm) ?_
    | with_reducible refine countPhy_keeps (sub (by decide) hm) ?_
    | with_reducible refine keepsOut_next ?_
    | split

theorem fallbackMu_keeps {s0 s : State} {b beat n : Nat} (hm : ([.air] : List Part).all pm = true) (h : Keeps pm s0 s) : Keeps pm s0 (fallbackMu b beat n s).1 := by
  induction n generalizing s with
  | zero => exact h
  | succ n ih =>
    unfold fallbackMu
    split
    · exact h
    · dsimp only
      split
      · exact h
      · split
        · rename_i t e
          exact ih (countPhy_keeps (sub (by decide) hm) (takeSet_keeps (sub (by decide) hm) (placeData_keeps (sub (by decide) hm) h t e)))
        · exact h

theorem fallback_keeps {s0 s : State} {b beat : Nat} (hm : ([.air] : List Part).all pm = true) (h : Keeps pm s0 s) : Keeps pm s0 (fallback b beat s) := by
  unfold fallback
  have k := fallbackMu_keeps (sub (by decide) hm) (b := b) (beat := beat) (n := 8) h
  revert k
  generalize fallbackMu b beat 8 s = r
  intro k
  obtain ⟨u, a⟩ := r
  dsimp only at k ⊢
  split
  · exact k
  · refine onlyAir_keeps (sub (by decide) hm) ?_
    refine keeps_getD ?_ k
    split
    · exact keepsO_none
    · exact placeData_keeps (sub (by decide) hm) k

theorem placePlain_keeps {s0 s : State} {b beat kind bss : Nat} {body : List Byte} {rate : Nat} {ack : Bool} {tbtt : Nat} (hm : ([.air] : List Part).all pm = true) (hk : Keeps pm s0 s) :
    KeepsO pm s0 (placePlain b beat kind bss body rate ack tbtt s) := by
  unfold placePlain
  try dsimp only
  repeat' first
    | with_reducible assumption
    | with_reducible refine onPlan_keeps (sub (by decide) hm) ?_
    | with_reducible exact keepsO_none
    | with_reducible refine keepsO_map ?_
    | split
    | (intro _ _)

theorem placeBeacons_keeps {s0 s : State} {b beat : Nat} (hm : ([.air] : List Part).all pm = true) (hk : Keeps pm s0 s) :
    Keeps pm s0 (placeBeacons b beat s) := by
  unfold placeBeacons
  try dsimp only
  repeat' first
    | with_reducible assumption
    | with_reducible refine placePlain_keeps (sub (by decide) hm) ?_
    | with_reducible refine keeps_getD ?_ ?_
    | with_reducible refine keeps_foldl ?_ ?_
    | split
    | (intro _ _ _)

theorem placePlainFrames_keeps {s0 s : State} {b beat : Nat} (hm : ([.air] : List Part).all pm = true) (hk : Keeps pm s0 s) :
    Keeps pm s0 (placePlainFrames b beat s) := by
  unfold placePlainFrames
  try dsimp only
  repeat' first
    | with_reducible assumption
    | with_reducible refine placePlain_keeps (sub (by decide) hm) ?_
    | with_reducible refine onAB_keeps (sub (by decide) hm) ?_
    | with_reducible refine keeps_foldl ?_ ?_
    | (with_reducible refine keeps_of_some ?_ (by assumption))
    | split
    | (intro _ _ _)

theorem closeDtim_keeps {s0 s : State} {b beat : Nat} (hm : ([.air] : List Part).all pm = true) (hk : Keeps pm s0 s) :
    Keeps pm s0 (closeDtim b beat s) := by
  unfold closeDtim
  try dsimp only
  repeat' first
    | with_reducible assumption
    | with_reducible refine onAB_keeps (sub (by decide) hm) ?_

theorem placeTrigger_keeps {s0 s : State} {b beat : Nat} {x : Ppdu} {streams nsym : Nat} {classes : List Nat} {msba : Bool} {budget : Nat}
    (hm : ([.air] : List Part).all pm = true) (h : Keeps pm s0 s) : KeepsF pm s0 (placeTrigger b beat x streams nsym classes msba budget s) := by
  unfold placeTrigger
  repeat' first
    | with_reducible exact keepsF_none
    | with_reducible refine keepsF_some ?_
    | with_reducible assumption
    | with_reducible refine onPlan_keeps (sub (by decide) hm) ?_
    | split
    | dsimp only

theorem noteSounding_keeps {s0 s : State} {b beat n : Nat} (hm : ([.air] : List Part).all pm = true) (hk : Keeps pm s0 s) :
    Keeps pm s0 (noteSounding b beat n s) := by
  unfold noteSounding
  try dsimp only
  repeat' first
    | with_reducible assumption
    | with_reducible refine onPhy_keeps (sub (by decide) hm) ?_

theorem placeSounding_keeps {s0 s : State} {b beat : Nat} (hm : ([.air] : List Part).all pm = true) (hk : Keeps pm s0 s) :
    Keeps pm s0 (placeSounding b beat s) := by
  unfold placeSounding
  try dsimp only
  repeat' first
    | with_reducible assumption
    | with_reducible exact keeps_of_someF (placeTrigger_keeps (sub (by decide) hm) (by assumption)) (by assumption)
    | with_reducible refine noteSounding_keeps (sub (by decide) hm) ?_
    | with_reducible refine onPlan_keeps (sub (by decide) hm) ?_
    | with_reducible refine onSta_keeps (sub (by decide) hm) ?_
    | with_reducible refine countPhy_keeps (sub (by decide) hm) ?_
    | split

theorem placeUplink_keeps {s0 s : State} {b beat n budget : Nat} (hm : ([.air] : List Part).all pm = true) (h : Keeps pm s0 s) : Keeps pm s0 (placeUplink b beat n budget s) := by
  induction n generalizing s budget with
  | zero => exact h
  | succ n ih =>
    unfold placeUplink
    dsimp only
    split
    · exact h
    · split
      · rename_i e
        exact ih (keeps_of_someF (placeTrigger_keeps (sub (by decide) hm) h) e)
      · exact h

theorem placeBsrp_keeps {s0 s : State} {b beat : Nat} (hm : ([.air] : List Part).all pm = true) (hk : Keeps pm s0 s) :
    Keeps pm s0 (placeBsrp b beat s) := by
  unfold placeBsrp
  try dsimp only
  repeat' first
    | with_reducible assumption
    | with_reducible refine keepsF_map (placeTrigger_keeps (sub (by decide) hm) (by assumption)) (by assumption)
    | with_reducible refine onAB_keeps (sub (by decide) hm) ?_
    | with_reducible refine keeps_foldl ?_ ?_
    | split
    | (intro _ _ _)

theorem turnApplied_keeps {s0 s : State} {b beat : Nat} (hm : ([.boot, .host, .evt, .clk, .air, .out] : List Part).all pm = true) (hk : Keeps pm s0 s) :
    Keeps pm s0 (turnApplied b beat s) := by
  unfold turnApplied
  try dsimp only
  repeat' first
    | with_reducible assumption
    | with_reducible refine clearCause_keeps (sub (by decide) hm) ?_
    | with_reducible refine enterReview_keeps (sub (by decide) hm) ?_
    | with_reducible refine onAB_keeps (sub (by decide) hm) ?_
    | with_reducible refine raise_keeps (sub (by decide) hm) ?_
    | with_reducible refine keeps_foldl ?_ ?_
    | split
    | (intro _ _ _)

theorem reserveRecip_keeps {s0 s : State} {b beat : Nat} (hm : ([.cal, .air] : List Part).all pm = true) (hk : Keeps pm s0 s) :
    Keeps pm s0 (reserveRecip b beat s) := by
  unfold reserveRecip
  try dsimp only
  repeat' first
    | with_reducible assumption
    | with_reducible refine onCal_keeps (sub (by decide) hm) ?_
    | with_reducible refine onPlan_keeps (sub (by decide) hm) ?_
    | with_reducible refine onAB_keeps (sub (by decide) hm) ?_
    | split

theorem reserveRetry_keeps {s0 s : State} {b beat : Nat} (hm : ([.air] : List Part).all pm = true) (hk : Keeps pm s0 s) :
    Keeps pm s0 (reserveRetry b beat s) := by
  unfold reserveRetry
  try dsimp only
  repeat' first
    | with_reducible assumption
    | with_reducible refine onPlan_keeps (sub (by decide) hm) ?_
    | split

theorem setPlan_keeps {s0 s : State} {b beat : Nat} {p : Plan} (hm : ([.air] : List Part).all pm = true) (hk : Keeps pm s0 s) :
    Keeps pm s0 (setPlan b beat p s) := by
  unfold setPlan
  try dsimp only
  repeat' first
    | with_reducible assumption
    | with_reducible refine onAB_keeps (sub (by decide) hm) ?_

theorem openReserved_keeps {s0 s : State} {b beat head : Nat} (hm : ([.boot, .host, .evt, .clk, .cal, .air, .out] : List Part).all pm = true) (hk : Keeps pm s0 s) :
    Keeps pm s0 (openReserved b beat head s) := by
  unfold openReserved
  try dsimp only
  repeat' first
    | with_reducible assumption
    | with_reducible refine reserveRecip_keeps (sub (by decide) hm) ?_
    | with_reducible refine onPlan_keeps (sub (by decide) hm) ?_
    | with_reducible refine keeps_snd2 (bfInterval_keeps (sub (by decide) hm) ?_)

theorem openProbes_keeps {s0 s : State} {b beat : Nat} (hm : ([.air] : List Part).all pm = true) (hk : Keeps pm s0 s) :
    Keeps pm s0 (openProbes b beat s) := by
  unfold openProbes
  try dsimp only
  repeat' first
    | with_reducible assumption
    | with_reducible refine placeBsrp_keeps (sub (by decide) hm) ?_
    | with_reducible refine placeSounding_keeps (sub (by decide) hm) ?_

theorem closeOpen_keeps {s0 s : State} {b beat : Nat} (hm : ([.air] : List Part).all pm = true) (hk : Keeps pm s0 s) :
    Keeps pm s0 (closeOpen b beat s) := by
  unfold closeOpen
  try dsimp only
  repeat' first
    | with_reducible assumption
    | with_reducible refine onPlan_keeps (sub (by decide) hm) ?_

theorem openPlan_keeps {s0 s : State} {b beat : Nat} (hm : ([.boot, .host, .evt, .clk, .cal, .air, .out] : List Part).all pm = true) (hk : Keeps pm s0 s) :
    Keeps pm s0 (openPlan b beat s) := by
  unfold openPlan
  try dsimp only
  repeat' first
    | with_reducible assumption
    | with_reducible refine closeOpen_keeps (sub (by decide) hm) ?_
    | with_reducible refine openProbes_keeps (sub (by decide) hm) ?_
    | with_reducible refine openReserved_keeps (sub (by decide) hm) ?_
    | with_reducible refine setPlan_keeps (sub (by decide) hm) ?_
    | with_reducible refine reserveRetry_keeps (sub (by decide) hm) ?_
    | with_reducible refine turnApplied_keeps (sub (by decide) hm) ?_
    | with_reducible refine placeUplink_keeps (sub (by decide) hm) ?_
    | with_reducible refine closeDtim_keeps (sub (by decide) hm) ?_
    | with_reducible refine placePlainFrames_keeps (sub (by decide) hm) ?_
    | with_reducible refine placeBeacons_keeps (sub (by decide) hm) ?_
    | with_reducible refine riseDeficits_keeps (sub (by decide) hm) ?_
    | with_reducible refine onlyIf_keeps (sub (by decide) hm) ?_ (fun _ => ?_)
    | split

theorem completePlan_keeps {s0 s : State} {b beat : Nat} (hm : ([.air] : List Part).all pm = true) (hk : Keeps pm s0 s) :
    Keeps pm s0 (completePlan b beat s) := by
  unfold completePlan
  try dsimp only
  repeat' first
    | with_reducible assumption
    | with_reducible refine fallback_keeps (sub (by decide) hm) ?_
    | with_reducible refine payDeficits_keeps (sub (by decide) hm) ?_
    | with_reducible refine onPlan_keeps (sub (by decide) hm) ?_
    | with_reducible refine countPhy_keeps (sub (by decide) hm) ?_
    | with_reducible refine keepsO_map ?_
    | with_reducible refine keeps_getD ?_ ?_
    | with_reducible refine keeps_foldl ?_ ?_
    | split
    | (intro _ _ _)
    | (intro _ _)

end Sys2Proof.Machine
end

