-- ==== Sys2Proof/Laws/KeepCipherEng.lean ====
section
/-!
SUPPORT. What the operations of Machine.CipherEng keep.
-/
set_option linter.unusedSimpArgs false
set_option linter.unusedVariables false
namespace Sys2Proof.Machine

variable {pm : Part → Bool}

theorem countCipher_keeps {s0 s : State} {i : Nat} (hm : ([.cipher] : List Part).all pm = true) (hk : Keeps pm s0 s) :
    Keeps pm s0 (countCipher i s) := by
  unfold countCipher
  try dsimp only
  repeat' first
    | with_reducible assumption
    | with_reducible refine onCipher_keeps (sub (by decide) hm) ?_ ?_
    | with_reducible exact id

theorem onSlot_keeps {s0 s : State} {k : Nat} {f : Slot → Slot} (hm : ([.cipher] : List Part).all pm = true) (hk : Keeps pm s0 s) :
    Keeps pm s0 (onSlot k f s) := by
  unfold onSlot
  try dsimp only
  repeat' first
    | with_reducible assumption
    | with_reducible refine onCipher_keeps (sub (by decide) hm) ?_ ?_
    | split
    | with_reducible exact id

theorem takePn_keeps {s0 s : State} {k : Nat} (hm : ([.boot, .host, .evt, .clk, .cipher, .out] : List Part).all pm = true) (hk : Keeps pm s0 s) :
    KeepsP pm s0 (takePn k s) := by
  unfold takePn
  try dsimp only
  repeat' first
    | with_reducible assumption
    | with_reducible refine onSlot_keeps (sub (by decide) hm) ?_
    | with_reducible refine countCipher_keeps (sub (by decide) hm) ?_
    | with_reducible refine raise_keeps (sub (by decide) hm) ?_
    | with_reducible refine keepsP_mk ?_
    | split

theorem protect_keeps {s0 s : State} {k : Nat} {types : List Nat} (hm : ([.boot, .host, .evt, .clk, .cipher, .out] : List Part).all pm = true) (hk : Keeps pm s0 s) :
    KeepsP pm s0 (protect k types s) := by
  unfold protect
  try dsimp only
  repeat' first
    | with_reducible assumption
    | with_reducible refine keeps_snd (takePn_keeps (sub (by decide) hm) ?_)
    | with_reducible refine countCipher_keeps (sub (by decide) hm) ?_
    | with_reducible refine keepsP_mk ?_
    | split

theorem execRngHealthFail_keeps {s0 s : State} {test : Nat} (hm : ([.boot, .host, .evt, .clk, .cipher, .out] : List Part).all pm = true) (hk : Keeps pm s0 s) :
    KeepsOut pm s0 (execRngHealthFail test s) := by
  unfold execRngHealthFail
  try dsimp only
  repeat' first
    | with_reducible assumption
    | with_reducible refine onCipher_keeps (sub (by decide) hm) ?_ ?_
    | with_reducible refine onlyIf_keeps (sub (by decide) hm) ?_ (fun _ => ?_)
    | with_reducible refine raise_keeps (sub (by decide) hm) ?_
    | with_reducible refine keepsOut_next ?_
    | with_reducible exact id

theorem reloadSlots_keeps {s0 s : State}  (hm : ([.cipher] : List Part).all pm = true) (hk : Keeps pm s0 s) :
    Keeps pm s0 (reloadSlots s) := by
  unfold reloadSlots
  try dsimp only
  repeat' first
    | with_reducible assumption
    | with_reducible refine onCipher_keeps (sub (by decide) hm) ?_ ?_
    | with_reducible exact id

theorem cipherSelfTest_keeps {s0 s : State} {bad : Option (Nat × Nat)} (hm : ([.boot, .host, .evt, .clk, .cipher, .out] : List Part).all pm = true) (hk : Keeps pm s0 s) :
    Keeps pm s0 (cipherSelfTest bad s) := by
  unfold cipherSelfTest
  try dsimp only
  repeat' first
    | with_reducible assumption
    | with_reducible refine onCipher_keeps (sub (by decide) hm) ?_ ?_
    | with_reducible refine raise_keeps (sub (by decide) hm) ?_
    | split
    | with_reducible exact id

theorem loadBlob_keeps {s0 s : State} {b : List Byte} {kek key : List Byte} (hm : ([.cipher] : List Part).all pm = true) (hk : Keeps pm s0 s) :
    Keeps pm s0 (loadBlob b kek key s) := by
  unfold loadBlob
  try dsimp only
  repeat' first
    | with_reducible assumption
    | with_reducible refine onCipher_keeps (sub (by decide) hm) ?_ ?_
    | split
    | with_reducible exact id

theorem specKeyUnwrap_keeps {s0 s : State} {c : Cmd} (hm : ([.cipher] : List Part).all pm = true) (h : Keeps pm s0 s) : KeepsP pm s0 (specKeyUnwrap.body c s) := by
  simp only [specKeyUnwrap]
  repeat' first
    | with_reducible assumption
    | with_reducible refine loadBlob_keeps (sub (by decide) hm) ?_
    | with_reducible refine countCipher_keeps (sub (by decide) hm) ?_
    | with_reducible refine keepsP_mk ?_
    | split

theorem execKeyUnwrap_keeps {s0 s : State} {d : Doorbell} {p : List Byte} (hm : ([.boot, .mbx, .host, .evt, .modes, .flt, .clk, .cipher, .ring, .out] : List Part).all pm = true) (hk : Keeps pm s0 s) :
    KeepsOut pm s0 (execKeyUnwrap d p s) := by
  unfold execKeyUnwrap
  try dsimp only
  repeat' first
    | with_reducible assumption
    | (refine command_keeps (sub (by decide) hm) ?_ (fun _ _ hh => specKeyUnwrap_keeps (sub (by decide) hm) hh))

theorem specKeyErase_keeps {s0 s : State} {c : Cmd} (hm : ([.cipher] : List Part).all pm = true) (h : Keeps pm s0 s) : KeepsP pm s0 (specKeyErase.body c s) := by
  simp only [specKeyErase]
  repeat' first
    | with_reducible assumption
    | with_reducible refine onCipher_keeps (sub (by decide) hm) ?_ ?_
    | with_reducible refine keepsP_mk ?_
    | split
    | with_reducible exact id

theorem execKeyErase_keeps {s0 s : State} {d : Doorbell} {p : List Byte} (hm : ([.boot, .mbx, .host, .evt, .modes, .flt, .clk, .cipher, .ring, .out] : List Part).all pm = true) (hk : Keeps pm s0 s) :
    KeepsOut pm s0 (execKeyErase d p s) := by
  unfold execKeyErase
  try dsimp only
  repeat' first
    | with_reducible assumption
    | (refine command_keeps (sub (by decide) hm) ?_ (fun _ _ hh => specKeyErase_keeps (sub (by decide) hm) hh))

theorem specKekProvision_keeps {s0 s : State} {c : Cmd} (hm : ([] : List Part).all pm = true) (h : Keeps pm s0 s) : KeepsP pm s0 (specKekProvision.body c s) := by
  simp only [specKekProvision]
  repeat' first
    | with_reducible assumption
    | with_reducible refine keepsP_mk ?_
    | split

theorem execKekProvision_keeps {s0 s : State} {d : Doorbell} {p : List Byte} (hm : ([.boot, .mbx, .host, .evt, .modes, .flt, .clk, .ring, .out] : List Part).all pm = true) (hk : Keeps pm s0 s) :
    KeepsOut pm s0 (execKekProvision d p s) := by
  unfold execKekProvision
  try dsimp only
  repeat' first
    | with_reducible assumption
    | (refine command_keeps (sub (by decide) hm) ?_ (fun _ _ hh => specKekProvision_keeps (sub (by decide) hm) hh))

theorem execKekProvisionDone_keeps {s0 s : State}  (hm : ([.boot, .mbx, .host, .evt, .clk, .cipher, .ring, .out] : List Part).all pm = true) (hk : Keeps pm s0 s) :
    KeepsOut pm s0 (execKekProvisionDone s) := by
  unfold execKekProvisionDone
  try dsimp only
  repeat' first
    | with_reducible assumption
    | with_reducible refine onCipher_keeps (sub (by decide) hm) ?_ ?_
    | with_reducible refine endLong_keeps (sub (by decide) hm) ?_
    | with_reducible refine keepsOut_next ?_
    | split
    | (intro hh; simp at hh ⊢; done)

theorem specCmLevelSet_keeps {s0 s : State} {c : Cmd} (hm : ([.cipher] : List Part).all pm = true) (h : Keeps pm s0 s) : KeepsP pm s0 (specCmLevelSet.body c s) := by
  simp only [specCmLevelSet]
  repeat' first
    | with_reducible assumption
    | with_reducible refine onCipher_keeps (sub (by decide) hm) ?_ ?_
    | with_reducible refine keepsP_mk ?_
    | split
    | with_reducible exact id

theorem execCmLevelSet_keeps {s0 s : State} {d : Doorbell} {p : List Byte} (hm : ([.boot, .mbx, .host, .evt, .modes, .flt, .clk, .cipher, .ring, .out] : List Part).all pm = true) (hk : Keeps pm s0 s) :
    KeepsOut pm s0 (execCmLevelSet d p s) := by
  unfold execCmLevelSet
  try dsimp only
  repeat' first
    | with_reducible assumption
    | (refine command_keeps (sub (by decide) hm) ?_ (fun _ _ hh => specCmLevelSet_keeps (sub (by decide) hm) hh))

theorem specKeySlotInfo_keeps {s0 s : State} {c : Cmd} (hm : ([.cipher] : List Part).all pm = true) (h : Keeps pm s0 s) : KeepsP pm s0 (specKeySlotInfo.body c s) := by
  simp only [specKeySlotInfo]
  repeat' first
    | with_reducible assumption
    | with_reducible refine onCipher_keeps (sub (by decide) hm) ?_ ?_
    | with_reducible refine keepsP_mk ?_
    | split
    | with_reducible exact id

theorem execKeySlotInfo_keeps {s0 s : State} {d : Doorbell} {p : List Byte} (hm : ([.boot, .mbx, .host, .evt, .modes, .flt, .clk, .cipher, .ring, .out] : List Part).all pm = true) (hk : Keeps pm s0 s) :
    KeepsOut pm s0 (execKeySlotInfo d p s) := by
  unfold execKeySlotInfo
  try dsimp only
  repeat' first
    | with_reducible assumption
    | (refine command_keeps (sub (by decide) hm) ?_ (fun _ _ hh => specKeySlotInfo_keeps (sub (by decide) hm) hh))

end Sys2Proof.Machine
end

