-- ==== Sys2Proof/Laws/KeepAirExec.lean ====
section
/-!
SUPPORT. What the operations of Machine.AirExec keep.
-/
set_option linter.unusedSimpArgs false
set_option linter.unusedVariables false
namespace Sys2Proof.Machine

variable {pm : Part → Bool}

theorem onPpdu_keeps {s0 s : State} {b beat i : Nat} {f : Ppdu → Ppdu} (hm : ([.air] : List Part).all pm = true) (hk : Keeps pm s0 s) :
    Keeps pm s0 (onPpdu b beat i f s) := by
  unfold onPpdu
  try dsimp only
  repeat' first
    | with_reducible assumption
    | with_reducible refine onPlan_keeps (sub (by decide) hm) ?_

theorem outcomesDone_keeps {s0 s : State} {b beat : Nat} (hm : ([.col, .out] : List Part).all pm = true) (hk : Keeps pm s0 s) :
    Keeps pm s0 (outcomesDone b beat s) := by
  unfold outcomesDone
  try dsimp only
  repeat' first
    | with_reducible assumption
    | with_reducible refine onCol_keeps (sub (by decide) hm) ?_
    | with_reducible refine colEvent_keeps (sub (by decide) hm) ?_

theorem record_keeps {s0 s : State} {b beat i code : Nat} (hm : ([.host, .fe, .air, .tm, .col, .out] : List Part).all pm = true) (hk : Keeps pm s0 s) :
    Keeps pm s0 (record b beat i code s) := by
  unfold record
  try dsimp only
  repeat' first
    | with_reducible assumption
    | with_reducible refine outcomesDone_keeps (sub (by decide) hm) ?_
    | with_reducible refine onPpdu_keeps (sub (by decide) hm) ?_
    | with_reducible refine countAir_keeps (sub (by decide) hm) ?_
    | with_reducible refine countOut_keeps (sub (by decide) hm) ?_
    | with_reducible refine hostQueue_keeps (sub (by decide) hm) ?_
    | split

theorem consumeUsers_keeps {s0 s : State} {us : List PUser} {reason : Nat} (hm : ([.boot, .host, .evt, .clk, .air, .out] : List Part).all pm = true) (hk : Keeps pm s0 s) :
    Keeps pm s0 (consumeUsers us reason s) := by
  unfold consumeUsers
  try dsimp only
  repeat' first
    | with_reducible assumption
    | with_reducible refine consume_keeps (sub (by decide) hm) ?_
    | with_reducible refine keeps_foldl ?_ ?_
    | split
    | (intro _ _ _)

theorem notSent_keeps {s0 s : State} {b beat i code : Nat} (hm : ([.boot, .host, .evt, .clk, .fe, .air, .tm, .col, .out] : List Part).all pm = true) (hk : Keeps pm s0 s) :
    Keeps pm s0 (notSent b beat i code s) := by
  unfold notSent
  try dsimp only
  repeat' first
    | with_reducible assumption
    | with_reducible refine consumeUsers_keeps (sub (by decide) hm) ?_
    | with_reducible refine record_keeps (sub (by decide) hm) ?_
    | with_reducible refine returnFrames_keeps (sub (by decide) hm) ?_
    | with_reducible refine onAB_keeps (sub (by decide) hm) ?_
    | with_reducible refine keeps_foldl ?_ ?_
    | split
    | (intro _ _ _)

theorem failStep_keeps {s0 : State} {b n : Nat} {acc : List Frame × State} {f : Frame} (hm : ([.air] : List Part).all pm = true) (hk : KeepsP pm s0 acc) :
    KeepsP pm s0 (failStep b n acc f) := by
  unfold failStep
  try dsimp only
  repeat' first
    | with_reducible refine keeps_snd (failFrame_keeps (sub (by decide) hm) ?_)
    | with_reducible refine keepsP_mk ?_
    | with_reducible exact keeps_snd (by assumption)

theorem failFrames_keeps {s0 s : State} {b n : Nat} {fs : List Frame} (hm : ([.air] : List Part).all pm = true) (hk : Keeps pm s0 s) :
    KeepsP pm s0 (failFrames b n fs s) := by
  unfold failFrames
  try dsimp only
  repeat' first
    | with_reducible assumption
    | with_reducible refine failStep_keeps (sub (by decide) hm) ?_
    | with_reducible refine keepsP_mk ?_
    | with_reducible refine keeps_snd (keepsP_foldl ?_ ?_)
    | (intro _ _ _)

theorem failAll_keeps {s0 s : State} {b n : Nat} {fs : List Frame} (hm : ([.air] : List Part).all pm = true) (hk : Keeps pm s0 s) :
    Keeps pm s0 (failAll b n fs s) := by
  unfold failAll
  try dsimp only
  repeat' first
    | with_reducible assumption
    | with_reducible refine keeps_snd (failFrames_keeps (sub (by decide) hm) ?_)
    | with_reducible refine returnFrames_keeps (sub (by decide) hm) ?_

theorem endTx_keeps {s0 s : State} {b : Nat} (hm : ([.outs, .air] : List Part).all pm = true) (hk : Keeps pm s0 s) :
    Keeps pm s0 (endTx b s) := by
  unfold endTx
  try dsimp only
  repeat' first
    | with_reducible assumption
    | with_reducible refine onOuts_keeps (sub (by decide) hm) ?_
    | with_reducible refine onAB_keeps (sub (by decide) hm) ?_
    | with_reducible refine refreshOuts_keeps (sub (by decide) hm) ?_

theorem dropCoex_keeps {s0 s : State}  (hm : ([.outs, .fe] : List Part).all pm = true) (hk : Keeps pm s0 s) :
    Keeps pm s0 (dropCoex s) := by
  unfold dropCoex
  try dsimp only
  repeat' first
    | with_reducible assumption
    | with_reducible refine onOuts_keeps (sub (by decide) hm) ?_
    | with_reducible refine onFe_keeps (sub (by decide) hm) ?_
    | split

theorem cutShort_keeps {s0 s : State} {b code : Nat} (hm : ([.outs, .boot, .host, .evt, .clk, .fe, .air, .tm, .col, .out] : List Part).all pm = true) (hk : Keeps pm s0 s) :
    Keeps pm s0 (cutShort b code s) := by
  unfold cutShort
  try dsimp only
  repeat' first
    | with_reducible assumption
    | with_reducible refine dropCoex_keeps (sub (by decide) hm) ?_
    | with_reducible refine endTx_keeps (sub (by decide) hm) ?_
    | with_reducible refine failAll_keeps (sub (by decide) hm) ?_
    | with_reducible refine consumeUsers_keeps (sub (by decide) hm) ?_
    | with_reducible refine record_keeps (sub (by decide) hm) ?_
    | with_reducible refine keeps_foldl ?_ ?_
    | split
    | (intro _ _ _)

theorem discardPlan_keeps {s0 s : State} {b beat : Nat} (hm : ([.boot, .host, .evt, .clk, .fe, .air, .tm, .col, .out] : List Part).all pm = true) (hk : Keeps pm s0 s) :
    Keeps pm s0 (discardPlan b beat s) := by
  unfold discardPlan
  try dsimp only
  repeat' first
    | with_reducible assumption
    | with_reducible refine notSent_keeps (sub (by decide) hm) ?_
    | with_reducible refine keeps_foldl ?_ ?_
    | split
    | (intro _ _ _)

theorem discardBand_keeps {s0 s : State} {b : Nat} (hm : ([.boot, .host, .evt, .clk, .fe, .air, .tm, .col, .out] : List Part).all pm = true) (hk : Keeps pm s0 s) :
    Keeps pm s0 (discardBand b s) := by
  unfold discardBand
  try dsimp only
  repeat' first
    | with_reducible assumption
    | with_reducible refine discardPlan_keeps (sub (by decide) hm) ?_
    | with_reducible refine onAB_keeps (sub (by decide) hm) ?_
    | with_reducible refine keeps_foldl ?_ ?_
    | (intro _ _ _)

theorem linkFails_keeps {s0 s : State} {b n : Nat} (hm : ([.boot, .host, .evt, .clk, .air, .out] : List Part).all pm = true) (hk : Keeps pm s0 s) :
    Keeps pm s0 (linkFails b n s) := by
  unfold linkFails
  try dsimp only
  repeat' first
    | with_reducible assumption
    | with_reducible refine enterReview_keeps (sub (by decide) hm) ?_
    | with_reducible refine onSta_keeps (sub (by decide) hm) ?_
    | with_reducible refine raise_keeps (sub (by decide) hm) ?_
    | with_reducible refine keeps_foldl ?_ ?_
    | split
    | (intro _ _ _)

theorem linkHeard_keeps {s0 s : State} {b n : Nat} (hm : ([.boot, .host, .evt, .clk, .air, .out] : List Part).all pm = true) (hk : Keeps pm s0 s) :
    Keeps pm s0 (linkHeard b n s) := by
  unfold linkHeard
  try dsimp only
  repeat' first
    | with_reducible assumption
    | with_reducible refine clearCause_keeps (sub (by decide) hm) ?_
    | with_reducible refine onSta_keeps (sub (by decide) hm) ?_
    | with_reducible refine raise_keeps (sub (by decide) hm) ?_
    | with_reducible refine keeps_foldl ?_ ?_
    | split
    | (intro _ _ _)

theorem userResp_keeps {s0 s : State} {b beat i n : Nat} {acked : List Nat} {missing : Bool} (hm : ([.boot, .host, .evt, .clk, .air, .out] : List Part).all pm = true) (hk : Keeps pm s0 s) :
    Keeps pm s0 (userResp b beat i n acked missing s) := by
  unfold userResp
  try dsimp only
  repeat' first
    | with_reducible assumption
    | with_reducible refine linkHeard_keeps (sub (by decide) hm) ?_
    | with_reducible refine linkFails_keeps (sub (by decide) hm) ?_
    | with_reducible refine consumeUsers_keeps (sub (by decide) hm) ?_
    | with_reducible refine onPpdu_keeps (sub (by decide) hm) ?_
    | with_reducible refine delivered_keeps (sub (by decide) hm) ?_
    | with_reducible refine countSta_keeps (sub (by decide) hm) ?_
    | with_reducible refine onSta_keeps (sub (by decide) hm) ?_
    | with_reducible refine countPhy_keeps (sub (by decide) hm) ?_
    | with_reducible refine keeps_foldl ?_ ?_
    | split
    | (intro _ _ _)

theorem retryUser_keeps {s0 : State} {b : Nat} {acc : List PUser × State} {u : PUser} (hm : ([.air] : List Part).all pm = true) (hk : KeepsP pm s0 acc) :
    KeepsP pm s0 (retryUser b acc u) := by
  unfold retryUser
  try dsimp only
  repeat' first
    | with_reducible refine keeps_snd (failFrames_keeps (sub (by decide) hm) ?_)
    | with_reducible refine keepsP_mk ?_
    | with_reducible exact keeps_snd (by assumption)

theorem placeRetry_keeps {s0 s : State} {b beat : Nat} {p : Plan} {x : Ppdu} (hm : ([.air] : List Part).all pm = true) (hk : Keeps pm s0 s) :
    Keeps pm s0 (placeRetry b beat p x s) := by
  unfold placeRetry
  try dsimp only
  repeat' first
    | with_reducible assumption
    | with_reducible refine retryUser_keeps (sub (by decide) hm) ?_
    | with_reducible refine onPlan_keeps (sub (by decide) hm) ?_
    | with_reducible refine countAir_keeps (sub (by decide) hm) ?_
    | with_reducible refine keepsP_mk ?_
    | with_reducible refine keeps_snd (keepsP_foldl ?_ ?_)
    | split
    | (intro _ _ _)

theorem settle_keeps {s0 s : State} {b beat i : Nat} (hm : ([.host, .fe, .air, .tm, .col, .out] : List Part).all pm = true) (hk : Keeps pm s0 s) :
    Keeps pm s0 (settle b beat i s) := by
  unfold settle
  try dsimp only
  repeat' first
    | with_reducible assumption
    | with_reducible refine placeRetry_keeps (sub (by decide) hm) ?_
    | with_reducible refine failAll_keeps (sub (by decide) hm) ?_
    | with_reducible refine record_keeps (sub (by decide) hm) ?_
    | with_reducible refine keeps_foldl ?_ ?_
    | split
    | (intro _ _ _)

theorem execResponseReceived_keeps {s0 s : State} {band : BandId} {beat id : Nat} {sta : Nat} {acked : List Nat} (hm : ([.outs, .boot, .host, .evt, .clk, .fe, .air, .tm, .col, .out] : List Part).all pm = true) (hk : Keeps pm s0 s) :
    KeepsOut pm s0 (execResponseReceived band beat id sta acked s) := by
  unfold execResponseReceived
  try dsimp only
  repeat' first
    | with_reducible assumption
    | with_reducible refine settle_keeps (sub (by decide) hm) ?_
    | with_reducible refine userResp_keeps (sub (by decide) hm) ?_
    | with_reducible refine dropCoex_keeps (sub (by decide) hm) ?_
    | with_reducible refine onlyIf_keeps (sub (by decide) hm) ?_ (fun _ => ?_)
    | with_reducible refine keepsOut_next ?_
    | split

theorem execResponseTimeout_keeps {s0 s : State} {band : BandId} {beat id : Nat} {sta : Nat} (hm : ([.outs, .boot, .host, .evt, .clk, .fe, .air, .tm, .col, .out] : List Part).all pm = true) (hk : Keeps pm s0 s) :
    KeepsOut pm s0 (execResponseTimeout band beat id sta s) := by
  unfold execResponseTimeout
  try dsimp only
  repeat' first
    | with_reducible assumption
    | with_reducible refine settle_keeps (sub (by decide) hm) ?_
    | with_reducible refine userResp_keeps (sub (by decide) hm) ?_
    | with_reducible refine dropCoex_keeps (sub (by decide) hm) ?_
    | with_reducible refine onlyIf_keeps (sub (by decide) hm) ?_ (fun _ => ?_)
    | with_reducible refine keepsOut_next ?_
    | split

theorem micElement_keeps {s0 s : State} {k : Option Nat} {body : List Byte} (hm : ([.boot, .host, .evt, .clk, .cipher, .out] : List Part).all pm = true) (hk : Keeps pm s0 s) :
    KeepsP pm s0 (micElement k body s) := by
  unfold micElement
  try dsimp only
  repeat' first
    | with_reducible assumption
    | with_reducible refine protect_keeps (sub (by decide) hm) ?_
    | with_reducible refine keepsP_mk ?_
    | (with_reducible refine keeps_of_eq ?_ (by assumption))
    | split

theorem beaconBody_keeps {s0 s : State} {b start : Nat} {x : Ppdu} (hm : ([.boot, .host, .evt, .clk, .cipher, .out] : List Part).all pm = true) (hk : Keeps pm s0 s) :
    KeepsP pm s0 (beaconBody b start x s) := by
  unfold beaconBody
  try dsimp only
  repeat' first
    | with_reducible assumption
    | with_reducible refine micElement_keeps (sub (by decide) hm) ?_

theorem protectMgmt_keeps {s0 s : State} {b : Nat} {body : List Byte} (hm : ([.boot, .host, .evt, .clk, .cipher, .out] : List Part).all pm = true) (hk : Keeps pm s0 s) :
    KeepsP pm s0 (protectMgmt b body s) := by
  unfold protectMgmt
  try dsimp only
  repeat' first
    | with_reducible assumption
    | with_reducible refine protect_keeps (sub (by decide) hm) ?_
    | with_reducible refine countCipher_keeps (sub (by decide) hm) ?_
    | with_reducible refine keepsP_mk ?_
    | (with_reducible refine keeps_of_eq ?_ (by assumption))
    | split

theorem groupCrypt_keeps {s0 s : State} {k : Nat} {body : List Byte} (hm : ([.boot, .host, .evt, .clk, .cipher, .out] : List Part).all pm = true) (hk : Keeps pm s0 s) : KeepsP pm s0 (groupCrypt k body s) := by
  unfold groupCrypt
  have h : KeepsP pm s0 (protect k [1, 2, 3, 4] s) := protect_keeps (sub (by decide) hm) hk
  revert h
  generalize protect k [1, 2, 3, 4] s = r
  intro h
  dsimp only
  split
  · exact h
  · exact h

theorem sentBody_keeps {s0 s : State} {b start : Nat} {x : Ppdu} (hm : ([.boot, .host, .evt, .clk, .cipher, .out] : List Part).all pm = true) (hk : Keeps pm s0 s) : KeepsP pm s0 (sentBody b start x s) := by
  unfold sentBody
  split
  · exact beaconBody_keeps (sub (by decide) hm) hk
  · split
    · exact protectMgmt_keeps (sub (by decide) hm) hk
    · split
      · exact micElement_keeps (sub (by decide) hm) hk
      · split
        · exact groupCrypt_keeps (sub (by decide) hm) hk
        · exact hk

theorem putOnAir_keeps {s0 s : State} {b beat i start : Nat} {x : Ppdu} {us : List PUser} {body : List Byte} (hm : ([.outs, .air, .out] : List Part).all pm = true) (hk : Keeps pm s0 s) :
    Keeps pm s0 (putOnAir b beat i start x us body s) := by
  unfold putOnAir
  try dsimp only
  repeat' first
    | with_reducible assumption
    | with_reducible refine onOuts_keeps (sub (by decide) hm) ?_
    | with_reducible refine emit_keeps (sub (by decide) hm) ?_
    | with_reducible refine onPpdu_keeps (sub (by decide) hm) ?_
    | with_reducible refine countBf_keeps (sub (by decide) hm) ?_
    | with_reducible refine countSta_keeps (sub (by decide) hm) ?_
    | with_reducible refine countPhy_keeps (sub (by decide) hm) ?_
    | with_reducible refine onPhy_keeps (sub (by decide) hm) ?_
    | with_reducible refine onAB_keeps (sub (by decide) hm) ?_
    | with_reducible refine keeps_foldl ?_ ?_
    | split
    | (intro _ _ _)

theorem goOnAir_keeps {s0 s : State} {b beat i start : Nat} {x : Ppdu} (hm : ([.outs, .boot, .host, .evt, .clk, .fe, .air, .tm, .cipher, .col, .out] : List Part).all pm = true) (hk : Keeps pm s0 s) :
    Keeps pm s0 (goOnAir b beat i start x s) := by
  unfold goOnAir
  try dsimp only
  repeat' first
    | with_reducible assumption
    | with_reducible refine putOnAir_keeps (sub (by decide) hm) ?_
    | with_reducible refine keeps_snd (sentBody_keeps (sub (by decide) hm) ?_)
    | with_reducible refine record_keeps (sub (by decide) hm) ?_
    | with_reducible refine discarded_keeps (sub (by decide) hm) ?_
    | with_reducible refine keeps_foldl ?_ ?_
    | split
    | (intro _ _ _)

theorem execPpduFemOn_keeps {s0 s : State} {band : BandId} {beat id : Nat} {grant : Bool} (hm : ([.outs, .boot, .host, .evt, .clk, .fe, .air, .tm, .cipher, .col, .out] : List Part).all pm = true) (hk : Keeps pm s0 s) :
    KeepsOut pm s0 (execPpduFemOn band beat id grant s) := by
  unfold execPpduFemOn
  try dsimp only
  repeat' first
    | with_reducible assumption
    | with_reducible refine goOnAir_keeps (sub (by decide) hm) ?_
    | with_reducible refine dropCoex_keeps (sub (by decide) hm) ?_
    | with_reducible refine notSent_keeps (sub (by decide) hm) ?_
    | with_reducible refine keepsOut_next ?_
    | split

theorem execPpduEnd_keeps {s0 s : State} {band : BandId} {beat id : Nat} (hm : ([.outs, .host, .fe, .air, .tm, .col, .out] : List Part).all pm = true) (hk : Keeps pm s0 s) :
    KeepsOut pm s0 (execPpduEnd band beat id s) := by
  unfold execPpduEnd
  try dsimp only
  repeat' first
    | with_reducible assumption
    | with_reducible refine dropCoex_keeps (sub (by decide) hm) ?_
    | with_reducible refine endTx_keeps (sub (by decide) hm) ?_
    | with_reducible refine record_keeps (sub (by decide) hm) ?_
    | with_reducible refine onAB_keeps (sub (by decide) hm) ?_
    | with_reducible refine onlyIf_keeps (sub (by decide) hm) ?_ (fun _ => ?_)
    | with_reducible refine keepsOut_next ?_
    | split

theorem execCcaCheckEnd_keeps {s0 s : State} {band : BandId} {beat id : Nat} {busy : Byte} (hm : ([.boot, .host, .evt, .clk, .fe, .air, .tm, .col, .out] : List Part).all pm = true) (hk : Keeps pm s0 s) :
    KeepsOut pm s0 (execCcaCheckEnd band beat id busy s) := by
  unfold execCcaCheckEnd
  try dsimp only
  repeat' first
    | with_reducible assumption
    | with_reducible refine notSent_keeps (sub (by decide) hm) ?_
    | with_reducible refine consumeUsers_keeps (sub (by decide) hm) ?_
    | with_reducible refine onPpdu_keeps (sub (by decide) hm) ?_
    | with_reducible refine returnFrames_keeps (sub (by decide) hm) ?_
    | with_reducible refine keepsOut_next ?_
    | with_reducible refine keeps_foldl ?_ ?_
    | split
    | (intro _ _ _)

theorem execCoexRequest_keeps {s0 s : State} {band : BandId} {beat id : Nat} (hm : ([.outs, .fe] : List Part).all pm = true) (hk : Keeps pm s0 s) :
    KeepsOut pm s0 (execCoexRequest band beat id s) := by
  unfold execCoexRequest
  try dsimp only
  repeat' first
    | with_reducible assumption
    | with_reducible refine onOuts_keeps (sub (by decide) hm) ?_
    | with_reducible refine onFe_keeps (sub (by decide) hm) ?_
    | with_reducible refine keepsOut_next ?_
    | split

theorem execCoexGntWithdrawn_keeps {s0 s : State} {band : BandId} (hm : ([.outs, .boot, .host, .evt, .clk, .fe, .air, .tm, .col, .out] : List Part).all pm = true) (hk : Keeps pm s0 s) :
    KeepsOut pm s0 (execCoexGntWithdrawn band s) := by
  unfold execCoexGntWithdrawn
  try dsimp only
  repeat' first
    | with_reducible assumption
    | with_reducible refine cutShort_keeps (sub (by decide) hm) ?_
    | with_reducible refine onlyIf_keeps (sub (by decide) hm) ?_ (fun _ => ?_)
    | with_reducible refine keepsOut_next ?_

theorem execEdcaAccessGained_keeps {s0 s : State} {band : BandId} {ac : BitVec 2} {off : Nat} (hm : ([.boot, .host, .evt, .clk, .fe, .air, .tm, .col, .drawn, .out] : List Part).all pm = true) (hk : Keeps pm s0 s) :
    KeepsOut pm s0 (execEdcaAccessGained band ac off s) := by
  unfold execEdcaAccessGained
  try dsimp only
  repeat' first
    | with_reducible assumption
    | with_reducible refine keeps_snd (draw_keeps (sub (by decide) hm) ?_)
    | with_reducible refine notSent_keeps (sub (by decide) hm) ?_
    | with_reducible refine onPpdu_keeps (sub (by decide) hm) ?_
    | with_reducible refine onAB_keeps (sub (by decide) hm) ?_
    | with_reducible refine keepsOut_next ?_
    | with_reducible refine keeps_foldl ?_ ?_
    | split
    | (intro _ _ _)

theorem execBeaconSkipped_keeps {s0 s : State} {band : BandId} {bss : BitVec 3} (hm : ([.boot, .host, .evt, .clk, .air, .out] : List Part).all pm = true) (hk : Keeps pm s0 s) :
    KeepsOut pm s0 (execBeaconSkipped band bss s) := by
  unfold execBeaconSkipped
  try dsimp only
  repeat' first
    | with_reducible assumption
    | with_reducible refine countAir_keeps (sub (by decide) hm) ?_
    | with_reducible refine onAB_keeps (sub (by decide) hm) ?_
    | with_reducible refine raise_keeps (sub (by decide) hm) ?_
    | with_reducible refine keepsOut_next ?_
    | split

theorem execLoLockLoss_keeps {s0 s : State} {band : BandId} {residual : Int} (hm : ([.outs, .boot, .host, .evt, .clk, .fe, .air, .tm, .col, .out] : List Part).all pm = true) (hk : Keeps pm s0 s) :
    KeepsOut pm s0 (execLoLockLoss band residual s) := by
  unfold execLoLockLoss
  try dsimp only
  repeat' first
    | with_reducible assumption
    | with_reducible refine onOuts_keeps (sub (by decide) hm) ?_
    | with_reducible refine cutShort_keeps (sub (by decide) hm) ?_
    | with_reducible refine onBand_keeps (sub (by decide) hm) ?_
    | with_reducible refine onlyIf_keeps (sub (by decide) hm) ?_ (fun _ => ?_)
    | with_reducible refine raise_keeps (sub (by decide) hm) ?_
    | with_reducible refine keepsOut_next ?_
    | split

theorem execLoReady_keeps {s0 s : State} {band : BandId} {t : Nat} (hm : ([.cad, .clk, .fe] : List Part).all pm = true) (hk : Keeps pm s0 s) :
    KeepsOut pm s0 (execLoReady band t s) := by
  unfold execLoReady
  try dsimp only
  repeat' first
    | with_reducible assumption
    | with_reducible refine onBand_keeps (sub (by decide) hm) ?_
    | with_reducible refine onlyIf_keeps (sub (by decide) hm) ?_ (fun _ => ?_)
    | with_reducible refine advanceTo_keeps (sub (by decide) hm) ?_
    | with_reducible refine keepsOut_next ?_

theorem execSynthLockTimeout_keeps {s0 s : State} {band : BandId} {synth : Bool} (hm : ([.outs, .boot, .host, .evt, .clk, .fe, .air, .out] : List Part).all pm = true) (hk : Keeps pm s0 s) :
    KeepsOut pm s0 (execSynthLockTimeout band synth s) := by
  unfold execSynthLockTimeout
  try dsimp only
  repeat' first
    | with_reducible assumption
    | with_reducible refine enterReview_keeps (sub (by decide) hm) ?_
    | with_reducible refine onBand_keeps (sub (by decide) hm) ?_
    | with_reducible refine onlyIf_keeps (sub (by decide) hm) ?_ (fun _ => ?_)
    | with_reducible refine refreshOuts_keeps (sub (by decide) hm) ?_
    | with_reducible refine raise_keeps (sub (by decide) hm) ?_
    | with_reducible refine keepsOut_next ?_
    | with_reducible refine keeps_foldl ?_ ?_
    | split
    | (intro _ _ _)

theorem degradeAll_keeps {s0 s : State}  (hm : ([.boot, .host, .evt, .clk, .air, .out] : List Part).all pm = true) (hk : Keeps pm s0 s) :
    Keeps pm s0 (degradeAll s) := by
  unfold degradeAll
  try dsimp only
  repeat' first
    | with_reducible assumption
    | with_reducible refine onBf_keeps (sub (by decide) hm) ?_
    | with_reducible refine raise_keeps (sub (by decide) hm) ?_
    | with_reducible refine keeps_foldl ?_ ?_
    | split
    | (intro _ _ _)

theorem restoreAll_keeps {s0 s : State}  (hm : ([.boot, .host, .evt, .clk, .air, .out] : List Part).all pm = true) (hk : Keeps pm s0 s) :
    Keeps pm s0 (restoreAll s) := by
  unfold restoreAll
  try dsimp only
  repeat' first
    | with_reducible assumption
    | with_reducible refine enterReview_keeps (sub (by decide) hm) ?_
    | with_reducible refine onBf_keeps (sub (by decide) hm) ?_
    | with_reducible refine raise_keeps (sub (by decide) hm) ?_
    | with_reducible refine keeps_foldl ?_ ?_
    | split
    | (intro _ _ _)

end Sys2Proof.Machine
end

