-- ==== Sys2Proof/Laws/KeepTmBase.lean ====
section
/-!
SUPPORT. What the operations of Machine.TmBase keep.
-/
set_option linter.unusedSimpArgs false
set_option linter.unusedVariables false
namespace Sys2Proof.Machine

variable {pm : Part → Bool}

theorem onPort_keeps {s0 s : State} {p : Nat} {f : Port → Port} (hm : ([.tm] : List Part).all pm = true) (hk : Keeps pm s0 s) :
    Keeps pm s0 (onPort p f s) := by
  unfold onPort
  try dsimp only
  repeat' first
    | with_reducible assumption
    | with_reducible refine onTm_keeps (sub (by decide) hm) ?_

theorem onQueue_keeps {s0 s : State} {p q : Nat} {f : Queue → Queue} (hm : ([.tm] : List Part).all pm = true) (hk : Keeps pm s0 s) :
    Keeps pm s0 (onQueue p q f s) := by
  unfold onQueue
  try dsimp only
  repeat' first
    | with_reducible assumption
    | with_reducible refine onPort_keeps (sub (by decide) hm) ?_

theorem regate_keeps {s0 s : State} {d : Int} (hm : ([.tm] : List Part).all pm = true) (hk : Keeps pm s0 s) :
    Keeps pm s0 (regate d s) := by
  unfold regate
  try dsimp only
  repeat' first
    | with_reducible assumption
    | with_reducible refine onTm_keeps (sub (by decide) hm) ?_

theorem countQ_keeps {s0 s : State} {p q i : Nat} (hm : ([.tm] : List Part).all pm = true) (hk : Keeps pm s0 s) :
    Keeps pm s0 (countQ p q i s) := by
  unfold countQ
  try dsimp only
  repeat' first
    | with_reducible assumption
    | with_reducible refine onQueue_keeps (sub (by decide) hm) ?_

theorem enqPort_keeps {s0 s : State} {p q : Nat} {bytes : List Byte} {ts : Option W64} {dst hops : Nat} (hm : ([.tm, .dram] : List Part).all pm = true) (hk : Keeps pm s0 s) :
    Keeps pm s0 (enqPort p q bytes s ts dst hops) := by
  unfold enqPort
  try dsimp only
  repeat' first
    | with_reducible assumption
    | with_reducible refine countQ_keeps (sub (by decide) hm) ?_
    | with_reducible refine onQueue_keeps (sub (by decide) hm) ?_
    | with_reducible refine wbMissed_keeps (sub (by decide) hm) ?_
    | with_reducible refine wbPut_keeps (sub (by decide) hm) ?_
    | with_reducible refine noteLow_keeps (sub (by decide) hm) ?_
    | split

end Sys2Proof.Machine
end

