-- ==== Sys2Proof/Laws/KeepHooks.lean ====
section
/-!
SUPPORT. What the operations of Machine.Hooks keep.
-/
set_option linter.unusedSimpArgs false
set_option linter.unusedVariables false
namespace Sys2Proof.Machine

variable {pm : Part → Bool}

theorem discardPlans_keeps {s0 s : State}  (hm : ([.boot, .host, .evt, .clk, .fe, .air, .tm, .col, .out] : List Part).all pm = true) (hk : Keeps pm s0 s) :
    Keeps pm s0 (discardPlans s) := by
  unfold discardPlans
  try dsimp only
  repeat' first
    | with_reducible assumption
    | with_reducible refine discardBand_keeps (sub (by decide) hm) ?_

theorem degradeFlows_keeps {s0 s : State}  (hm : ([.boot, .host, .evt, .clk, .air, .out] : List Part).all pm = true) (hk : Keeps pm s0 s) :
    Keeps pm s0 (degradeFlows s) := by
  unfold degradeFlows
  try dsimp only
  repeat' first
    | with_reducible assumption
    | with_reducible refine degradeAll_keeps (sub (by decide) hm) ?_

theorem restoreFlows_keeps {s0 s : State}  (hm : ([.boot, .host, .evt, .clk, .air, .out] : List Part).all pm = true) (hk : Keeps pm s0 s) :
    Keeps pm s0 (restoreFlows s) := by
  unfold restoreFlows
  try dsimp only
  repeat' first
    | with_reducible assumption
    | with_reducible refine restoreAll_keeps (sub (by decide) hm) ?_

theorem takeoverDue_keeps {s0 s : State}  (hm : ([.ring, .drawn] : List Part).all pm = true) (hk : Keeps pm s0 s) :
    Keeps pm s0 (takeoverDue s) := by
  unfold takeoverDue
  try dsimp only
  repeat' first
    | with_reducible assumption
    | with_reducible refine onRing_keeps (sub (by decide) hm) ?_
    | with_reducible refine keeps_snd (draw_keeps (sub (by decide) hm) ?_)
    | split

theorem resumeHopping_keeps {s0 s : State}  (hm : ([.nb] : List Part).all pm = true) (hk : Keeps pm s0 s) :
    Keeps pm s0 (resumeHopping s) := by
  unfold resumeHopping
  try dsimp only
  repeat' first
    | with_reducible assumption
    | with_reducible refine onNb_keeps (sub (by decide) hm) ?_
    | with_reducible refine nbMoves_keeps (sub (by decide) hm) ?_

end Sys2Proof.Machine
end

