-- ==== Sys2Proof/Laws/KeepCadence.lean ====
section
/-!
SUPPORT. What the operations of Machine.Cadence keep.
-/
set_option linter.unusedSimpArgs false
set_option linter.unusedVariables false
namespace Sys2Proof.Machine

variable {pm : Part → Bool}

theorem discipline_keeps {s0 s : State} {e : Int} (hm : ([.cad] : List Part).all pm = true) (hk : Keeps pm s0 s) :
    Keeps pm s0 (discipline e s) := by
  unfold discipline
  try dsimp only
  repeat' first
    | with_reducible assumption
    | with_reducible refine onCad_keeps (sub (by decide) hm) ?_

theorem setCad_keeps {s0 s : State} {n : Nat} (hm : ([.outs, .boot, .host, .evt, .cad, .clk, .fe, .air, .nb, .tm, .col, .out] : List Part).all pm = true) (hk : Keeps pm s0 s) :
    Keeps pm s0 (setCad n s) := by
  unfold setCad
  try dsimp only
  repeat' first
    | with_reducible assumption
    | with_reducible refine onCad_keeps (sub (by decide) hm) ?_
    | with_reducible refine resumeHopping_keeps (sub (by decide) hm) ?_
    | with_reducible refine degradeFlows_keeps (sub (by decide) hm) ?_
    | with_reducible refine discardPlans_keeps (sub (by decide) hm) ?_
    | with_reducible refine refreshOuts_keeps (sub (by decide) hm) ?_
    | split

theorem stepCounter_keeps {s0 s : State} {d : Int} {cause : Nat} (hm : ([.boot, .host, .evt, .cad, .clk, .tm, .out] : List Part).all pm = true) (hk : Keeps pm s0 s) :
    Keeps pm s0 (stepCounter d cause s) := by
  unfold stepCounter
  try dsimp only
  repeat' first
    | with_reducible assumption
    | with_reducible refine onCad_keeps (sub (by decide) hm) ?_
    | with_reducible refine regate_keeps (sub (by decide) hm) ?_
    | with_reducible refine raise_keeps (sub (by decide) hm) ?_

theorem goodMark_keeps {s0 s : State} {e : Int} {beat : Nat} (hm : ([.cad] : List Part).all pm = true) (hk : Keeps pm s0 s) :
    Keeps pm s0 (goodMark e beat s) := by
  unfold goodMark
  try dsimp only
  repeat' first
    | with_reducible assumption
    | with_reducible refine onCad_keeps (sub (by decide) hm) ?_
    | with_reducible refine discipline_keeps (sub (by decide) hm) ?_

theorem enterHoldover_keeps {s0 s : State}  (hm : ([.outs, .boot, .host, .evt, .cad, .clk, .fe, .air, .nb, .tm, .col, .ring, .drawn, .out] : List Part).all pm = true) (hk : Keeps pm s0 s) :
    Keeps pm s0 (enterHoldover s) := by
  unfold enterHoldover
  try dsimp only
  repeat' first
    | with_reducible assumption
    | with_reducible refine onCad_keeps (sub (by decide) hm) ?_
    | with_reducible refine setCad_keeps (sub (by decide) hm) ?_
    | with_reducible refine takeoverDue_keeps (sub (by decide) hm) ?_
    | with_reducible refine raise_keeps (sub (by decide) hm) ?_

theorem missedMark_keeps {s0 s : State} {kind : Nat} (hm : ([.outs, .boot, .host, .evt, .cad, .clk, .fe, .air, .nb, .tm, .col, .ring, .drawn, .out] : List Part).all pm = true) (hk : Keeps pm s0 s) :
    Keeps pm s0 (missedMark kind s) := by
  unfold missedMark
  try dsimp only
  repeat' first
    | with_reducible assumption
    | with_reducible refine onCad_keeps (sub (by decide) hm) ?_
    | with_reducible refine enterHoldover_keeps (sub (by decide) hm) ?_
    | split

theorem lockAt_keeps {s0 s : State} {e : Int} {beat : Nat} (hm : ([.outs, .boot, .host, .evt, .cad, .clk, .fe, .air, .nb, .tm, .col, .out] : List Part).all pm = true) (hk : Keeps pm s0 s) :
    Keeps pm s0 (lockAt e beat s) := by
  unfold lockAt
  try dsimp only
  repeat' first
    | with_reducible assumption
    | with_reducible refine onCad_keeps (sub (by decide) hm) ?_
    | with_reducible refine goodMark_keeps (sub (by decide) hm) ?_
    | with_reducible refine setCad_keeps (sub (by decide) hm) ?_
    | with_reducible refine restoreFlows_keeps (sub (by decide) hm) ?_
    | with_reducible refine raise_keeps (sub (by decide) hm) ?_

theorem startRealign_keeps {s0 s : State} {e : Int} (hm : ([.outs, .boot, .host, .evt, .cad, .clk, .fe, .air, .nb, .tm, .col, .out] : List Part).all pm = true) (hk : Keeps pm s0 s) :
    Keeps pm s0 (startRealign e s) := by
  unfold startRealign
  try dsimp only
  repeat' first
    | with_reducible assumption
    | with_reducible refine onCad_keeps (sub (by decide) hm) ?_
    | with_reducible refine stepCounter_keeps (sub (by decide) hm) ?_
    | with_reducible refine setCad_keeps (sub (by decide) hm) ?_
    | with_reducible refine raise_keeps (sub (by decide) hm) ?_
    | split

theorem searchMark_keeps {s0 s : State} {m : Mark} {period : Int} {numbered agree : Bool} {e : Int} (hm : ([.outs, .boot, .host, .evt, .cad, .clk, .fe, .air, .nb, .tm, .col, .out] : List Part).all pm = true) (hk : Keeps pm s0 s) :
    Keeps pm s0 (searchMark m period numbered agree e s) := by
  unfold searchMark
  try dsimp only
  repeat' first
    | with_reducible assumption
    | with_reducible refine onCad_keeps (sub (by decide) hm) ?_
    | with_reducible refine startRealign_keeps (sub (by decide) hm) ?_
    | with_reducible refine lockAt_keeps (sub (by decide) hm) ?_
    | split

theorem judgeMark_keeps {s0 s : State} {ring : Bool} {m : Mark} (hm : ([.outs, .boot, .host, .evt, .cad, .clk, .fe, .air, .nb, .tm, .col, .ring, .drawn, .out] : List Part).all pm = true) (hk : Keeps pm s0 s) :
    Keeps pm s0 (judgeMark ring m s) := by
  unfold judgeMark
  try dsimp only
  repeat' first
    | with_reducible assumption
    | with_reducible refine onCad_keeps (sub (by decide) hm) ?_
    | with_reducible refine searchMark_keeps (sub (by decide) hm) ?_
    | with_reducible refine lockAt_keeps (sub (by decide) hm) ?_
    | with_reducible refine missedMark_keeps (sub (by decide) hm) ?_
    | with_reducible refine goodMark_keeps (sub (by decide) hm) ?_
    | split

theorem execCadPulseMark_keeps {s0 s : State} {t : Nat} {frame : W64} (hm : ([.outs, .boot, .host, .evt, .cad, .clk, .fe, .air, .nb, .tm, .col, .ring, .drawn, .out] : List Part).all pm = true) (hk : Keeps pm s0 s) :
    KeepsOut pm s0 (execCadPulseMark t frame s) := by
  unfold execCadPulseMark
  try dsimp only
  repeat' first
    | with_reducible assumption
    | with_reducible refine onCad_keeps (sub (by decide) hm) ?_
    | with_reducible refine judgeMark_keeps (sub (by decide) hm) ?_
    | with_reducible refine onlyIf_keeps (sub (by decide) hm) ?_ (fun _ => ?_)
    | with_reducible refine advanceTo_keeps (sub (by decide) hm) ?_
    | with_reducible refine keepsOut_next ?_
    | split

theorem execMarkFrameTimeout_keeps {s0 s : State} {t : Nat} (hm : ([.outs, .boot, .host, .evt, .cad, .clk, .fe, .air, .nb, .tm, .col, .ring, .drawn, .out] : List Part).all pm = true) (hk : Keeps pm s0 s) :
    KeepsOut pm s0 (execMarkFrameTimeout t s) := by
  unfold execMarkFrameTimeout
  try dsimp only
  repeat' first
    | with_reducible assumption
    | with_reducible refine judgeMark_keeps (sub (by decide) hm) ?_
    | with_reducible refine onlyIf_keeps (sub (by decide) hm) ?_ (fun _ => ?_)
    | with_reducible refine advanceTo_keeps (sub (by decide) hm) ?_
    | with_reducible refine keepsOut_next ?_

theorem execMarkWindowExpiry_keeps {s0 s : State}  (hm : ([.outs, .boot, .host, .evt, .cad, .clk, .fe, .air, .nb, .tm, .col, .ring, .drawn, .out] : List Part).all pm = true) (hk : Keeps pm s0 s) :
    KeepsOut pm s0 (execMarkWindowExpiry s) := by
  unfold execMarkWindowExpiry
  try dsimp only
  repeat' first
    | with_reducible assumption
    | with_reducible refine onCad_keeps (sub (by decide) hm) ?_
    | with_reducible refine missedMark_keeps (sub (by decide) hm) ?_
    | with_reducible refine onlyIf_keeps (sub (by decide) hm) ?_ (fun _ => ?_)
    | with_reducible refine advanceTo_keeps (sub (by decide) hm) ?_
    | with_reducible refine keepsOut_next ?_
    | split

theorem execSlewDone_keeps {s0 s : State}  (hm : ([.host, .cad, .fe, .air, .tm, .col, .out] : List Part).all pm = true) (hk : Keeps pm s0 s) :
    KeepsOut pm s0 (execSlewDone s) := by
  unfold execSlewDone
  try dsimp only
  repeat' first
    | with_reducible assumption
    | with_reducible refine onCad_keeps (sub (by decide) hm) ?_
    | with_reducible refine onlyIf_keeps (sub (by decide) hm) ?_ (fun _ => ?_)
    | with_reducible refine keepsOut_next ?_

theorem execHoldoverBudgetExpiry_keeps {s0 s : State}  (hm : ([.outs, .boot, .host, .evt, .cad, .clk, .fe, .air, .nb, .tm, .col, .out] : List Part).all pm = true) (hk : Keeps pm s0 s) :
    KeepsOut pm s0 (execHoldoverBudgetExpiry s) := by
  unfold execHoldoverBudgetExpiry
  try dsimp only
  repeat' first
    | with_reducible assumption
    | with_reducible refine onCad_keeps (sub (by decide) hm) ?_
    | with_reducible refine setCad_keeps (sub (by decide) hm) ?_
    | with_reducible refine onlyIf_keeps (sub (by decide) hm) ?_ (fun _ => ?_)
    | with_reducible refine raise_keeps (sub (by decide) hm) ?_
    | with_reducible refine keepsOut_next ?_

theorem execPtpAnnounce_keeps {s0 s : State} {gm : Announce} (hm : ([.boot, .host, .evt, .clk, .out] : List Part).all pm = true) (hk : Keeps pm s0 s) :
    KeepsOut pm s0 (execPtpAnnounce gm s) := by
  unfold execPtpAnnounce
  try dsimp only
  repeat' first
    | with_reducible assumption
    | with_reducible refine onClk_keeps (sub (by decide) hm) ?_
    | with_reducible refine onlyIf_keeps (sub (by decide) hm) ?_ (fun _ => ?_)
    | with_reducible refine raise_keeps (sub (by decide) hm) ?_
    | with_reducible refine keepsOut_next ?_
    | split

theorem execPtpSyncMark_keeps {s0 s : State} {t1 t2 corr : Int} (hm : ([.outs, .boot, .host, .evt, .cad, .clk, .fe, .air, .nb, .tm, .col, .ring, .drawn, .out] : List Part).all pm = true) (hk : Keeps pm s0 s) :
    KeepsOut pm s0 (execPtpSyncMark t1 t2 corr s) := by
  unfold execPtpSyncMark
  try dsimp only
  repeat' first
    | with_reducible assumption
    | with_reducible refine onCad_keeps (sub (by decide) hm) ?_
    | with_reducible refine onClk_keeps (sub (by decide) hm) ?_
    | with_reducible refine searchMark_keeps (sub (by decide) hm) ?_
    | with_reducible refine lockAt_keeps (sub (by decide) hm) ?_
    | with_reducible refine missedMark_keeps (sub (by decide) hm) ?_
    | with_reducible refine goodMark_keeps (sub (by decide) hm) ?_
    | with_reducible refine onlyIf_keeps (sub (by decide) hm) ?_ (fun _ => ?_)
    | with_reducible refine advanceTo_keeps (sub (by decide) hm) ?_
    | with_reducible refine keepsOut_next ?_
    | split

theorem execPtpDelayReqTimer_keeps {s0 s : State} {t3 : Int} (hm : ([.clk, .out] : List Part).all pm = true) (hk : Keeps pm s0 s) :
    KeepsOut pm s0 (execPtpDelayReqTimer t3 s) := by
  unfold execPtpDelayReqTimer
  try dsimp only
  repeat' first
    | with_reducible assumption
    | with_reducible refine onClk_keeps (sub (by decide) hm) ?_
    | with_reducible refine emit_keeps (sub (by decide) hm) ?_
    | with_reducible refine onlyIf_keeps (sub (by decide) hm) ?_ (fun _ => ?_)
    | with_reducible refine keepsOut_next ?_

theorem execPtpDelayResp_keeps {s0 s : State} {t4 corr : Int} (hm : ([.clk] : List Part).all pm = true) (hk : Keeps pm s0 s) :
    KeepsOut pm s0 (execPtpDelayResp t4 corr s) := by
  unfold execPtpDelayResp
  try dsimp only
  repeat' first
    | with_reducible assumption
    | with_reducible refine onClk_keeps (sub (by decide) hm) ?_
    | with_reducible refine onlyIf_keeps (sub (by decide) hm) ?_ (fun _ => ?_)
    | with_reducible refine keepsOut_next ?_
    | split

theorem takeTs_keeps {s0 s : State} {port : Nat} {cookie : W64} {ns : Nat} (hm : ([.boot, .host, .evt, .clk, .out] : List Part).all pm = true) (hk : Keeps pm s0 s) :
    Keeps pm s0 (takeTs port cookie ns s) := by
  unfold takeTs
  try dsimp only
  repeat' first
    | with_reducible assumption
    | with_reducible refine onClk_keeps (sub (by decide) hm) ?_
    | with_reducible refine raise_keeps (sub (by decide) hm) ?_
    | split

theorem execKeeperTrimWindow_keeps {s0 s : State} {trim : Int} (hm : ([.clk] : List Part).all pm = true) (hk : Keeps pm s0 s) :
    KeepsOut pm s0 (execKeeperTrimWindow trim s) := by
  unfold execKeeperTrimWindow
  try dsimp only
  repeat' first
    | with_reducible assumption
    | with_reducible refine onClk_keeps (sub (by decide) hm) ?_
    | with_reducible refine onlyIf_keeps (sub (by decide) hm) ?_ (fun _ => ?_)
    | with_reducible refine keepsOut_next ?_

theorem execTodSnapshotRead_keeps {s0 s : State}  (hm : ([.host, .clk] : List Part).all pm = true) (hk : Keeps pm s0 s) :
    KeepsOut pm s0 (execTodSnapshotRead s) := by
  unfold execTodSnapshotRead
  try dsimp only
  repeat' first
    | with_reducible assumption
    | with_reducible refine onHost_keeps (sub (by decide) hm) ?_ ?_
    | with_reducible refine onClk_keeps (sub (by decide) hm) ?_
    | with_reducible refine onlyIf_keeps (sub (by decide) hm) ?_ (fun _ => ?_)
    | with_reducible refine noteTime_keeps (sub (by decide) hm) ?_
    | with_reducible refine keepsOut_next ?_
    | with_reducible exact id

theorem holdoverEnds_keeps {s0 s : State}  (hm : ([.boot, .host, .evt, .cad, .clk, .out] : List Part).all pm = true) (hk : Keeps pm s0 s) :
    Keeps pm s0 (holdoverEnds s) := by
  unfold holdoverEnds
  try dsimp only
  repeat' first
    | with_reducible assumption
    | with_reducible refine onCad_keeps (sub (by decide) hm) ?_
    | with_reducible refine raise_keeps (sub (by decide) hm) ?_

theorem sourceFields_keeps {s0 s : State} {c : Cmd} (hm : ([.cad] : List Part).all pm = true) (hk : Keeps pm s0 s) :
    Keeps pm s0 (sourceFields c s) := by
  unfold sourceFields
  try dsimp only
  repeat' first
    | with_reducible assumption
    | with_reducible refine onCad_keeps (sub (by decide) hm) ?_

theorem newSource_keeps {s0 s : State} {src : Nat} (hm : ([.outs, .boot, .host, .evt, .cad, .clk, .fe, .air, .nb, .tm, .col, .out] : List Part).all pm = true) (hk : Keeps pm s0 s) :
    Keeps pm s0 (newSource src s) := by
  unfold newSource
  try dsimp only
  repeat' first
    | with_reducible assumption
    | with_reducible refine onCad_keeps (sub (by decide) hm) ?_
    | with_reducible refine setCad_keeps (sub (by decide) hm) ?_
    | split

theorem specCadSourceSet_keeps {s0 s : State} {c : Cmd} (hm : ([.outs, .boot, .host, .evt, .cad, .clk, .fe, .air, .nb, .tm, .col, .out] : List Part).all pm = true) (h : Keeps pm s0 s) : KeepsP pm s0 (specCadSourceSet.body c s) := by
  simp only [specCadSourceSet]
  repeat' first
    | with_reducible assumption
    | with_reducible refine newSource_keeps (sub (by decide) hm) ?_
    | with_reducible refine sourceFields_keeps (sub (by decide) hm) ?_
    | with_reducible refine holdoverEnds_keeps (sub (by decide) hm) ?_
    | with_reducible refine onlyIf_keeps (sub (by decide) hm) ?_ (fun _ => ?_)
    | with_reducible refine keepsP_mk ?_
    | split

theorem execCadSourceSet_keeps {s0 s : State} {d : Doorbell} {p : List Byte} (hm : ([.outs, .boot, .mbx, .host, .evt, .modes, .flt, .cad, .clk, .fe, .air, .nb, .tm, .col, .ring, .out] : List Part).all pm = true) (hk : Keeps pm s0 s) :
    KeepsOut pm s0 (execCadSourceSet d p s) := by
  unfold execCadSourceSet
  try dsimp only
  repeat' first
    | with_reducible assumption
    | (refine command_keeps (sub (by decide) hm) ?_ (fun _ _ hh => specCadSourceSet_keeps (sub (by decide) hm) hh))

theorem specCadStatus_keeps {s0 s : State} {c : Cmd} (hm : ([] : List Part).all pm = true) (h : Keeps pm s0 s) : KeepsP pm s0 (specCadStatus.body c s) := by
  simp only [specCadStatus]
  repeat' first
    | with_reducible assumption
    | with_reducible refine keepsP_mk ?_

theorem execCadStatus_keeps {s0 s : State} {d : Doorbell} {p : List Byte} (hm : ([.boot, .mbx, .host, .evt, .modes, .flt, .clk, .ring, .out] : List Part).all pm = true) (hk : Keeps pm s0 s) :
    KeepsOut pm s0 (execCadStatus d p s) := by
  unfold execCadStatus
  try dsimp only
  repeat' first
    | with_reducible assumption
    | (refine command_keeps (sub (by decide) hm) ?_ (fun _ _ hh => specCadStatus_keeps (sub (by decide) hm) hh))

theorem specTimeGet_keeps {s0 s : State} {c : Cmd} (hm : ([.clk] : List Part).all pm = true) (h : Keeps pm s0 s) : KeepsP pm s0 (specTimeGet.body c s) := by
  simp only [specTimeGet]
  repeat' first
    | with_reducible assumption
    | with_reducible refine noteTime_keeps (sub (by decide) hm) ?_
    | with_reducible refine keepsP_mk ?_

theorem execTimeGet_keeps {s0 s : State} {d : Doorbell} {p : List Byte} (hm : ([.boot, .mbx, .host, .evt, .modes, .flt, .clk, .ring, .out] : List Part).all pm = true) (hk : Keeps pm s0 s) :
    KeepsOut pm s0 (execTimeGet d p s) := by
  unfold execTimeGet
  try dsimp only
  repeat' first
    | with_reducible assumption
    | (refine command_keeps (sub (by decide) hm) ?_ (fun _ _ hh => specTimeGet_keeps (sub (by decide) hm) hh))

theorem specTimeStep_keeps {s0 s : State} {c : Cmd} (hm : ([.cad] : List Part).all pm = true) (h : Keeps pm s0 s) : KeepsP pm s0 (specTimeStep.body c s) := by
  simp only [specTimeStep]
  repeat' first
    | with_reducible assumption
    | with_reducible refine onCad_keeps (sub (by decide) hm) ?_
    | with_reducible refine keepsP_mk ?_
    | split

theorem execTimeStep_keeps {s0 s : State} {d : Doorbell} {p : List Byte} (hm : ([.boot, .mbx, .host, .evt, .modes, .flt, .cad, .clk, .ring, .out] : List Part).all pm = true) (hk : Keeps pm s0 s) :
    KeepsOut pm s0 (execTimeStep d p s) := by
  unfold execTimeStep
  try dsimp only
  repeat' first
    | with_reducible assumption
    | (refine command_keeps (sub (by decide) hm) ?_ (fun _ _ hh => specTimeStep_keeps (sub (by decide) hm) hh))

theorem specTimeAdjust_keeps {s0 s : State} {c : Cmd} (hm : ([.cad] : List Part).all pm = true) (h : Keeps pm s0 s) : KeepsP pm s0 (specTimeAdjust.body c s) := by
  simp only [specTimeAdjust]
  repeat' first
    | with_reducible assumption
    | with_reducible refine onCad_keeps (sub (by decide) hm) ?_
    | with_reducible refine keepsP_mk ?_
    | split

theorem execTimeAdjust_keeps {s0 s : State} {d : Doorbell} {p : List Byte} (hm : ([.boot, .mbx, .host, .evt, .modes, .flt, .cad, .clk, .ring, .out] : List Part).all pm = true) (hk : Keeps pm s0 s) :
    KeepsOut pm s0 (execTimeAdjust d p s) := by
  unfold execTimeAdjust
  try dsimp only
  repeat' first
    | with_reducible assumption
    | (refine command_keeps (sub (by decide) hm) ?_ (fun _ _ hh => specTimeAdjust_keeps (sub (by decide) hm) hh))

theorem execTimeStepApply_keeps {s0 s : State}  (hm : ([.boot, .host, .evt, .cad, .clk, .tm, .out] : List Part).all pm = true) (hk : Keeps pm s0 s) :
    KeepsOut pm s0 (execTimeStepApply s) := by
  unfold execTimeStepApply
  try dsimp only
  repeat' first
    | with_reducible assumption
    | with_reducible refine onCad_keeps (sub (by decide) hm) ?_
    | with_reducible refine stepCounter_keeps (sub (by decide) hm) ?_
    | with_reducible refine advanceTo_keeps (sub (by decide) hm) ?_
    | with_reducible refine keepsOut_next ?_
    | split

theorem specPtpConfig_keeps {s0 s : State} {c : Cmd} (hm : ([.clk] : List Part).all pm = true) (h : Keeps pm s0 s) : KeepsP pm s0 (specPtpConfig.body c s) := by
  simp only [specPtpConfig]
  repeat' first
    | with_reducible assumption
    | with_reducible refine onClk_keeps (sub (by decide) hm) ?_
    | with_reducible refine keepsP_mk ?_
    | split

theorem execPtpConfig_keeps {s0 s : State} {d : Doorbell} {p : List Byte} (hm : ([.boot, .mbx, .host, .evt, .modes, .flt, .clk, .ring, .out] : List Part).all pm = true) (hk : Keeps pm s0 s) :
    KeepsOut pm s0 (execPtpConfig d p s) := by
  unfold execPtpConfig
  try dsimp only
  repeat' first
    | with_reducible assumption
    | (refine command_keeps (sub (by decide) hm) ?_ (fun _ _ hh => specPtpConfig_keeps (sub (by decide) hm) hh))

theorem specCadMasterSet_keeps {s0 s : State} {c : Cmd} (hm : ([.outs, .cad] : List Part).all pm = true) (h : Keeps pm s0 s) : KeepsP pm s0 (specCadMasterSet.body c s) := by
  simp only [specCadMasterSet]
  repeat' first
    | with_reducible assumption
    | with_reducible refine onCad_keeps (sub (by decide) hm) ?_
    | with_reducible refine refreshOuts_keeps (sub (by decide) hm) ?_
    | with_reducible refine keepsP_mk ?_
    | split

theorem execCadMasterSet_keeps {s0 s : State} {d : Doorbell} {p : List Byte} (hm : ([.outs, .boot, .mbx, .host, .evt, .modes, .flt, .cad, .clk, .ring, .out] : List Part).all pm = true) (hk : Keeps pm s0 s) :
    KeepsOut pm s0 (execCadMasterSet d p s) := by
  unfold execCadMasterSet
  try dsimp only
  repeat' first
    | with_reducible assumption
    | (refine command_keeps (sub (by decide) hm) ?_ (fun _ _ hh => specCadMasterSet_keeps (sub (by decide) hm) hh))

theorem specHoldoverConfig_keeps {s0 s : State} {c : Cmd} (hm : ([.cad] : List Part).all pm = true) (h : Keeps pm s0 s) : KeepsP pm s0 (specHoldoverConfig.body c s) := by
  simp only [specHoldoverConfig]
  repeat' first
    | with_reducible assumption
    | with_reducible refine onCad_keeps (sub (by decide) hm) ?_
    | with_reducible refine keepsP_mk ?_
    | split

theorem execHoldoverConfig_keeps {s0 s : State} {d : Doorbell} {p : List Byte} (hm : ([.boot, .mbx, .host, .evt, .modes, .flt, .cad, .clk, .ring, .out] : List Part).all pm = true) (hk : Keeps pm s0 s) :
    KeepsOut pm s0 (execHoldoverConfig d p s) := by
  unfold execHoldoverConfig
  try dsimp only
  repeat' first
    | with_reducible assumption
    | (refine command_keeps (sub (by decide) hm) ?_ (fun _ _ hh => specHoldoverConfig_keeps (sub (by decide) hm) hh))

theorem specTsRead_keeps {s0 s : State} {c : Cmd} (hm : ([.clk] : List Part).all pm = true) (h : Keeps pm s0 s) : KeepsP pm s0 (specTsRead.body c s) := by
  simp only [specTsRead]
  repeat' first
    | with_reducible assumption
    | with_reducible refine onClk_keeps (sub (by decide) hm) ?_
    | with_reducible refine keepsP_mk ?_
    | split

theorem execTsRead_keeps {s0 s : State} {d : Doorbell} {p : List Byte} (hm : ([.boot, .mbx, .host, .evt, .modes, .flt, .clk, .ring, .out] : List Part).all pm = true) (hk : Keeps pm s0 s) :
    KeepsOut pm s0 (execTsRead d p s) := by
  unfold execTsRead
  try dsimp only
  repeat' first
    | with_reducible assumption
    | (refine command_keeps (sub (by decide) hm) ?_ (fun _ _ hh => specTsRead_keeps (sub (by decide) hm) hh))

end Sys2Proof.Machine
end

