-- ==== Sys2Proof/Laws/KeepTm.lean ====
section
/-!
SUPPORT. What the operations of Machine.Tm keep.
-/
set_option linter.unusedSimpArgs false
set_option linter.unusedVariables false
namespace Sys2Proof.Machine

variable {pm : Part → Bool}

theorem ringData_keeps {s0 s : State} {port tc : Nat} {x : QPkt} (hm : ([.ring, .out] : List Part).all pm = true) (hk : Keeps pm s0 s) :
    Keeps pm s0 (ringData port tc x s) := by
  unfold ringData
  try dsimp only
  repeat' first
    | with_reducible assumption
    | with_reducible refine onRing_keeps (sub (by decide) hm) ?_
    | with_reducible refine emit_keeps (sub (by decide) hm) ?_
    | split

theorem egress_keeps {s0 s : State} {p : Nat} (hm : ([.boot, .host, .evt, .clk, .tm, .ring, .out] : List Part).all pm = true) (hk : Keeps pm s0 s) :
    Keeps pm s0 (egress p s) := by
  unfold egress
  try dsimp only
  repeat' first
    | with_reducible assumption
    | with_reducible refine emit_keeps (sub (by decide) hm) ?_
    | with_reducible refine ringData_keeps (sub (by decide) hm) ?_
    | with_reducible refine takeTs_keeps (sub (by decide) hm) ?_
    | with_reducible refine onPort_keeps (sub (by decide) hm) ?_
    | split

theorem execEgressFrameStart_keeps {s0 s : State} {port : Fin 7} (hm : ([.boot, .host, .evt, .cad, .clk, .tm, .ring, .out] : List Part).all pm = true) (hk : Keeps pm s0 s) :
    KeepsOut pm s0 (execEgressFrameStart port s) := by
  unfold execEgressFrameStart
  try dsimp only
  repeat' first
    | with_reducible assumption
    | with_reducible refine egress_keeps (sub (by decide) hm) ?_
    | with_reducible refine onlyIf_keeps (sub (by decide) hm) ?_ (fun _ => ?_)
    | with_reducible refine advanceTo_keeps (sub (by decide) hm) ?_
    | with_reducible refine keepsOut_next ?_

theorem execShaperCreditEligible_keeps {s0 s : State} {port : Fin 7} {q : Fin 8} (hm : ([.cad, .clk, .tm] : List Part).all pm = true) (hk : Keeps pm s0 s) :
    KeepsOut pm s0 (execShaperCreditEligible port q s) := by
  unfold execShaperCreditEligible
  try dsimp only
  repeat' first
    | with_reducible assumption
    | with_reducible refine onQueue_keeps (sub (by decide) hm) ?_
    | with_reducible refine onlyIf_keeps (sub (by decide) hm) ?_ (fun _ => ?_)
    | with_reducible refine advanceTo_keeps (sub (by decide) hm) ?_
    | with_reducible refine keepsOut_next ?_

theorem execGateEntryInstant_keeps {s0 s : State} {port : Fin 4} {entry : Nat} (hm : ([.cad, .clk, .tm] : List Part).all pm = true) (hk : Keeps pm s0 s) :
    KeepsOut pm s0 (execGateEntryInstant port entry s) := by
  unfold execGateEntryInstant
  try dsimp only
  repeat' first
    | with_reducible assumption
    | with_reducible refine onPort_keeps (sub (by decide) hm) ?_
    | with_reducible refine onlyIf_keeps (sub (by decide) hm) ?_ (fun _ => ?_)
    | with_reducible refine advanceTo_keeps (sub (by decide) hm) ?_
    | with_reducible refine keepsOut_next ?_
    | split

theorem execGateListApply_keeps {s0 s : State} {port : Fin 4} (hm : ([.boot, .host, .evt, .cad, .clk, .tm, .out] : List Part).all pm = true) (hk : Keeps pm s0 s) :
    KeepsOut pm s0 (execGateListApply port s) := by
  unfold execGateListApply
  try dsimp only
  repeat' first
    | with_reducible assumption
    | with_reducible refine onPort_keeps (sub (by decide) hm) ?_
    | with_reducible refine onlyIf_keeps (sub (by decide) hm) ?_ (fun _ => ?_)
    | with_reducible refine raise_keeps (sub (by decide) hm) ?_
    | with_reducible refine advanceTo_keeps (sub (by decide) hm) ?_
    | with_reducible refine keepsOut_next ?_
    | split

theorem execEthLinkUp_keeps {s0 s : State} {port : Fin 5} (hm : ([.boot, .host, .evt, .clk, .tm, .out] : List Part).all pm = true) (hk : Keeps pm s0 s) :
    KeepsOut pm s0 (execEthLinkUp port s) := by
  unfold execEthLinkUp
  try dsimp only
  repeat' first
    | with_reducible assumption
    | with_reducible refine onTm_keeps (sub (by decide) hm) ?_
    | with_reducible refine onPort_keeps (sub (by decide) hm) ?_
    | with_reducible refine onlyIf_keeps (sub (by decide) hm) ?_ (fun _ => ?_)
    | with_reducible refine raise_keeps (sub (by decide) hm) ?_
    | with_reducible refine keepsOut_next ?_
    | split

theorem ethDown_keeps {s0 s : State} {p : Nat} (hm : ([.boot, .host, .evt, .clk, .tm, .out] : List Part).all pm = true) (hk : Keeps pm s0 s) :
    Keeps pm s0 (ethDown p s) := by
  unfold ethDown
  try dsimp only
  repeat' first
    | with_reducible assumption
    | with_reducible refine onPort_keeps (sub (by decide) hm) ?_
    | with_reducible refine raise_keeps (sub (by decide) hm) ?_
    | split

theorem execEthLinkDown_keeps {s0 s : State} {port : Fin 5} (hm : ([.boot, .host, .evt, .clk, .tm, .out] : List Part).all pm = true) (hk : Keeps pm s0 s) :
    KeepsOut pm s0 (execEthLinkDown port s) := by
  unfold execEthLinkDown
  try dsimp only
  repeat' first
    | with_reducible assumption
    | with_reducible refine ethDown_keeps (sub (by decide) hm) ?_
    | with_reducible refine keepsOut_next ?_

theorem execChainSwitchSettle_keeps {s0 s : State}  (hm : ([.outs, .cad, .clk, .tm] : List Part).all pm = true) (hk : Keeps pm s0 s) :
    KeepsOut pm s0 (execChainSwitchSettle s) := by
  unfold execChainSwitchSettle
  try dsimp only
  repeat' first
    | with_reducible assumption
    | with_reducible refine onTm_keeps (sub (by decide) hm) ?_
    | with_reducible refine onlyIf_keeps (sub (by decide) hm) ?_ (fun _ => ?_)
    | with_reducible refine refreshOuts_keeps (sub (by decide) hm) ?_
    | with_reducible refine advanceTo_keeps (sub (by decide) hm) ?_
    | with_reducible refine keepsOut_next ?_

theorem chainRelease_keeps {s0 s : State} {st : Nat} (hm : ([.outs, .tm] : List Part).all pm = true) (hk : Keeps pm s0 s) :
    Keeps pm s0 (chainRelease st s) := by
  unfold chainRelease
  try dsimp only
  repeat' first
    | with_reducible assumption
    | with_reducible refine onOuts_keeps (sub (by decide) hm) ?_
    | with_reducible refine onTm_keeps (sub (by decide) hm) ?_
    | with_reducible refine refreshOuts_keeps (sub (by decide) hm) ?_

theorem execChainLinkWaitExpiry_keeps {s0 s : State}  (hm : ([.outs, .boot, .host, .evt, .cad, .clk, .tm, .out] : List Part).all pm = true) (hk : Keeps pm s0 s) :
    KeepsOut pm s0 (execChainLinkWaitExpiry s) := by
  unfold execChainLinkWaitExpiry
  try dsimp only
  repeat' first
    | with_reducible assumption
    | with_reducible refine chainRelease_keeps (sub (by decide) hm) ?_
    | with_reducible refine onlyIf_keeps (sub (by decide) hm) ?_ (fun _ => ?_)
    | with_reducible refine raise_keeps (sub (by decide) hm) ?_
    | with_reducible refine advanceTo_keeps (sub (by decide) hm) ?_
    | with_reducible refine keepsOut_next ?_

theorem execChainRetryExpiry_keeps {s0 s : State}  (hm : ([.outs, .cad, .clk, .tm] : List Part).all pm = true) (hk : Keeps pm s0 s) :
    KeepsOut pm s0 (execChainRetryExpiry s) := by
  unfold execChainRetryExpiry
  try dsimp only
  repeat' first
    | with_reducible assumption
    | with_reducible refine onTm_keeps (sub (by decide) hm) ?_
    | with_reducible refine onlyIf_keeps (sub (by decide) hm) ?_ (fun _ => ?_)
    | with_reducible refine chainInsert_keeps (sub (by decide) hm) ?_
    | with_reducible refine advanceTo_keeps (sub (by decide) hm) ?_
    | with_reducible refine keepsOut_next ?_
    | split

theorem specQueueConfig_keeps {s0 s : State} {c : Cmd} (hm : ([.outs, .tm] : List Part).all pm = true) (h : Keeps pm s0 s) : KeepsP pm s0 (specQueueConfig.body c s) := by
  simp only [specQueueConfig]
  repeat' first
    | with_reducible assumption
    | with_reducible refine onTm_keeps (sub (by decide) hm) ?_
    | with_reducible refine onQueue_keeps (sub (by decide) hm) ?_
    | with_reducible refine onPort_keeps (sub (by decide) hm) ?_
    | with_reducible refine refreshOuts_keeps (sub (by decide) hm) ?_
    | with_reducible refine keepsP_mk ?_
    | split

theorem execQueueConfig_keeps {s0 s : State} {d : Doorbell} {p : List Byte} (hm : ([.outs, .boot, .mbx, .host, .evt, .modes, .flt, .clk, .tm, .ring, .out] : List Part).all pm = true) (hk : Keeps pm s0 s) :
    KeepsOut pm s0 (execQueueConfig d p s) := by
  unfold execQueueConfig
  try dsimp only
  repeat' first
    | with_reducible assumption
    | (refine command_keeps (sub (by decide) hm) ?_ (fun _ _ hh => specQueueConfig_keeps (sub (by decide) hm) hh))

theorem specShaperSet_keeps {s0 s : State} {c : Cmd} (hm : ([.tm] : List Part).all pm = true) (h : Keeps pm s0 s) : KeepsP pm s0 (specShaperSet.body c s) := by
  simp only [specShaperSet]
  repeat' first
    | with_reducible assumption
    | with_reducible refine onQueue_keeps (sub (by decide) hm) ?_
    | with_reducible refine keepsP_mk ?_
    | split

theorem execShaperSet_keeps {s0 s : State} {d : Doorbell} {p : List Byte} (hm : ([.boot, .mbx, .host, .evt, .modes, .flt, .clk, .tm, .ring, .out] : List Part).all pm = true) (hk : Keeps pm s0 s) :
    KeepsOut pm s0 (execShaperSet d p s) := by
  unfold execShaperSet
  try dsimp only
  repeat' first
    | with_reducible assumption
    | (refine command_keeps (sub (by decide) hm) ?_ (fun _ _ hh => specShaperSet_keeps (sub (by decide) hm) hh))

theorem specGateListSet_keeps {s0 s : State} {c : Cmd} (hm : ([.tm] : List Part).all pm = true) (h : Keeps pm s0 s) : KeepsP pm s0 (specGateListSet.body c s) := by
  simp only [specGateListSet]
  repeat' first
    | with_reducible assumption
    | with_reducible refine onPort_keeps (sub (by decide) hm) ?_
    | with_reducible refine keepsP_mk ?_
    | split

theorem execGateListSet_keeps {s0 s : State} {d : Doorbell} {p : List Byte} (hm : ([.boot, .mbx, .host, .evt, .modes, .flt, .clk, .tm, .ring, .out] : List Part).all pm = true) (hk : Keeps pm s0 s) :
    KeepsOut pm s0 (execGateListSet d p s) := by
  unfold execGateListSet
  try dsimp only
  repeat' first
    | with_reducible assumption
    | (refine command_keeps (sub (by decide) hm) ?_ (fun _ _ hh => specGateListSet_keeps (sub (by decide) hm) hh))

theorem specBufferConfig_keeps {s0 s : State} {c : Cmd} (hm : ([.tm] : List Part).all pm = true) (h : Keeps pm s0 s) : KeepsP pm s0 (specBufferConfig.body c s) := by
  simp only [specBufferConfig]
  repeat' first
    | with_reducible assumption
    | with_reducible refine onTm_keeps (sub (by decide) hm) ?_
    | with_reducible refine noteLow_keeps (sub (by decide) hm) ?_
    | with_reducible refine keepsP_mk ?_
    | split

theorem execBufferConfig_keeps {s0 s : State} {d : Doorbell} {p : List Byte} (hm : ([.boot, .mbx, .host, .evt, .modes, .flt, .clk, .tm, .ring, .out] : List Part).all pm = true) (hk : Keeps pm s0 s) :
    KeepsOut pm s0 (execBufferConfig d p s) := by
  unfold execBufferConfig
  try dsimp only
  repeat' first
    | with_reducible assumption
    | (refine command_keeps (sub (by decide) hm) ?_ (fun _ _ hh => specBufferConfig_keeps (sub (by decide) hm) hh))

theorem specChainPairSet_keeps {s0 s : State} {c : Cmd} (hm : ([.outs, .boot, .host, .evt, .clk, .fe, .air, .tm, .col, .out] : List Part).all pm = true) (h : Keeps pm s0 s) : KeepsP pm s0 (specChainPairSet.body c s) := by
  simp only [specChainPairSet]
  repeat' first
    | with_reducible assumption
    | with_reducible refine onTm_keeps (sub (by decide) hm) ?_
    | with_reducible refine chainRelease_keeps (sub (by decide) hm) ?_
    | with_reducible refine chainInsert_keeps (sub (by decide) hm) ?_
    | with_reducible refine refreshOuts_keeps (sub (by decide) hm) ?_
    | with_reducible refine raise_keeps (sub (by decide) hm) ?_
    | with_reducible refine keepsP_mk ?_
    | split

theorem execChainPairSet_keeps {s0 s : State} {d : Doorbell} {p : List Byte} (hm : ([.outs, .boot, .mbx, .host, .evt, .modes, .flt, .clk, .fe, .air, .tm, .col, .ring, .out] : List Part).all pm = true) (hk : Keeps pm s0 s) :
    KeepsOut pm s0 (execChainPairSet d p s) := by
  unfold execChainPairSet
  try dsimp only
  repeat' first
    | with_reducible assumption
    | (refine command_keeps (sub (by decide) hm) ?_ (fun _ _ hh => specChainPairSet_keeps (sub (by decide) hm) hh))

theorem specTmStats_keeps {s0 s : State} {c : Cmd} (hm : ([.tm] : List Part).all pm = true) (h : Keeps pm s0 s) : KeepsP pm s0 (specTmStats.body c s) := by
  simp only [specTmStats]
  repeat' first
    | with_reducible assumption
    | with_reducible refine onTm_keeps (sub (by decide) hm) ?_
    | with_reducible refine onQueue_keeps (sub (by decide) hm) ?_
    | with_reducible refine keepsP_mk ?_
    | split

theorem execTmStats_keeps {s0 s : State} {d : Doorbell} {p : List Byte} (hm : ([.boot, .mbx, .host, .evt, .modes, .flt, .clk, .tm, .ring, .out] : List Part).all pm = true) (hk : Keeps pm s0 s) :
    KeepsOut pm s0 (execTmStats d p s) := by
  unfold execTmStats
  try dsimp only
  repeat' first
    | with_reducible assumption
    | (refine command_keeps (sub (by decide) hm) ?_ (fun _ _ hh => specTmStats_keeps (sub (by decide) hm) hh))

end Sys2Proof.Machine
end

