-- ==== Sys2Proof/Laws/KeepNbMac.lean ====
section
/-!
SUPPORT. What the operations of Machine.NbMac keep.
-/
set_option linter.unusedSimpArgs false
set_option linter.unusedVariables false
namespace Sys2Proof.Machine

variable {pm : Part → Bool}

theorem buildNb_keeps {s0 s : State} {f : NbFrame} {more : Bool} (hm : ([.cipher] : List Part).all pm = true) (hk : Keeps pm s0 s) :
    KeepsP pm s0 (buildNb f more s) := by
  unfold buildNb
  try dsimp only
  repeat' first
    | with_reducible assumption
    | with_reducible refine countCipher_keeps (sub (by decide) hm) ?_
    | with_reducible refine keepsP_mk ?_
    | split

theorem takeCtr_keeps {s0 s : State} {f : NbFrame} (hm : ([.mlad] : List Part).all pm = true) (hk : Keeps pm s0 s) :
    KeepsP pm s0 (takeCtr f s) := by
  unfold takeCtr
  try dsimp only
  repeat' first
    | with_reducible assumption
    | with_reducible refine onMlad_keeps (sub (by decide) hm) ?_
    | with_reducible refine onNode_keeps (sub (by decide) hm) ?_
    | with_reducible refine keepsP_mk ?_
    | split

theorem wantFloor_keeps {s0 s : State}  (hm : ([.mlad] : List Part).all pm = true) (hk : Keeps pm s0 s) :
    Keeps pm s0 (wantFloor s) := by
  unfold wantFloor
  try dsimp only
  repeat' first
    | with_reducible assumption
    | with_reducible refine onMlad_keeps (sub (by decide) hm) ?_

theorem newKey_keeps {s0 s : State}  (hm : ([.mlad] : List Part).all pm = true) (hk : Keeps pm s0 s) :
    KeepsP pm s0 (newKey s) := by
  unfold newKey
  try dsimp only
  repeat' first
    | with_reducible assumption
    | with_reducible refine onMlad_keeps (sub (by decide) hm) ?_
    | with_reducible refine keepsP_mk ?_

theorem putReq_keeps {s0 s : State} {i : Nat} {q : NbReq} (hm : ([.nb] : List Part).all pm = true) (hk : Keeps pm s0 s) :
    Keeps pm s0 (putReq i q s) := by
  unfold putReq
  try dsimp only
  repeat' first
    | with_reducible assumption
    | with_reducible refine onX_keeps (sub (by decide) hm) ?_

theorem onHeld_keeps {s0 s : State} {key : Nat} {f : HeldFrame → HeldFrame} (hm : ([.mlad] : List Part).all pm = true) (hk : Keeps pm s0 s) :
    Keeps pm s0 (onHeld key f s) := by
  unfold onHeld
  try dsimp only
  repeat' first
    | with_reducible assumption
    | with_reducible refine onMlad_keeps (sub (by decide) hm) ?_

theorem serviceNext_keeps {s0 s : State} {node fails prevEnd : Nat} (hm : ([.nb, .mlad] : List Part).all pm = true) (hk : Keeps pm s0 s) :
    Keeps pm s0 (serviceNext node fails prevEnd s) := by
  unfold serviceNext
  try dsimp only
  repeat' first
    | with_reducible assumption
    | with_reducible refine putReq_keeps (sub (by decide) hm) ?_
    | with_reducible refine onNode_keeps (sub (by decide) hm) ?_
    | split

theorem serviceStart_keeps {s0 s : State} {node prevEnd : Nat} (hm : ([.nb, .mlad] : List Part).all pm = true) (hk : Keeps pm s0 s) :
    Keeps pm s0 (serviceStart node prevEnd s) := by
  unfold serviceStart
  try dsimp only
  repeat' first
    | with_reducible assumption
    | with_reducible refine serviceNext_keeps (sub (by decide) hm) ?_
    | split

theorem heldResult_keeps {s0 s : State} {node key : Nat} {ok : Bool} {out prevEnd : Nat} (hm : ([.boot, .host, .evt, .clk, .nb, .mlad, .out] : List Part).all pm = true) (hk : Keeps pm s0 s) :
    Keeps pm s0 (heldResult node key ok out prevEnd s) := by
  unfold heldResult
  try dsimp only
  repeat' first
    | with_reducible assumption
    | with_reducible refine onMlad_keeps (sub (by decide) hm) ?_
    | with_reducible refine serviceNext_keeps (sub (by decide) hm) ?_
    | with_reducible refine onHeld_keeps (sub (by decide) hm) ?_
    | with_reducible refine dropHeld_keeps (sub (by decide) hm) ?_
    | with_reducible refine onNode_keeps (sub (by decide) hm) ?_
    | with_reducible refine countMlad_keeps (sub (by decide) hm) ?_
    | split

theorem failJob_keeps {s0 s : State} {key : Nat} {reason : Nat} (hm : ([.boot, .host, .evt, .clk, .mlad, .out] : List Part).all pm = true) (hk : Keeps pm s0 s) :
    Keeps pm s0 (failJob key reason s) := by
  unfold failJob
  try dsimp only
  repeat' first
    | with_reducible assumption
    | with_reducible refine onMlad_keeps (sub (by decide) hm) ?_
    | with_reducible refine failNb_keeps (sub (by decide) hm) ?_
    | split

theorem onJob_keeps {s0 s : State} {key : Nat} {f : Job → Job} (hm : ([.mlad] : List Part).all pm = true) (hk : Keeps pm s0 s) :
    Keeps pm s0 (onJob key f s) := by
  unfold onJob
  try dsimp only
  repeat' first
    | with_reducible assumption
    | with_reducible refine onMlad_keeps (sub (by decide) hm) ?_
    | split

theorem jobRequest_keeps {s0 s : State} {key : Nat} (hm : ([.nb, .mlad] : List Part).all pm = true) (hk : Keeps pm s0 s) :
    Keeps pm s0 (jobRequest key s) := by
  unfold jobRequest
  try dsimp only
  repeat' first
    | with_reducible assumption
    | with_reducible refine onJob_keeps (sub (by decide) hm) ?_
    | with_reducible refine putReq_keeps (sub (by decide) hm) ?_
    | split

theorem jobRetry_keeps {s0 s : State} {key : Nat} (hm : ([.boot, .host, .evt, .clk, .mlad, .drawn, .out] : List Part).all pm = true) (hk : Keeps pm s0 s) :
    Keeps pm s0 (jobRetry key s) := by
  unfold jobRetry
  try dsimp only
  repeat' first
    | with_reducible assumption
    | with_reducible refine keeps_snd (draw_keeps (sub (by decide) hm) ?_)
    | with_reducible refine onJob_keeps (sub (by decide) hm) ?_
    | with_reducible refine failJob_keeps (sub (by decide) hm) ?_
    | with_reducible refine countMlad_keeps (sub (by decide) hm) ?_
    | split

theorem macOutcome_keeps {s0 s : State} {i : Nat} {q : NbReq} {out fin : Nat} (hm : ([.boot, .host, .evt, .clk, .nb, .mlad, .drawn, .out] : List Part).all pm = true) (hk : Keeps pm s0 s) :
    Keeps pm s0 (macOutcome i q out fin s) := by
  unfold macOutcome
  try dsimp only
  repeat' first
    | with_reducible assumption
    | with_reducible refine onMlad_keeps (sub (by decide) hm) ?_
    | with_reducible refine jobRetry_keeps (sub (by decide) hm) ?_
    | with_reducible refine onJob_keeps (sub (by decide) hm) ?_
    | with_reducible refine failJob_keeps (sub (by decide) hm) ?_
    | with_reducible refine heldResult_keeps (sub (by decide) hm) ?_
    | with_reducible refine serviceStart_keeps (sub (by decide) hm) ?_
    | with_reducible refine onHeld_keeps (sub (by decide) hm) ?_
    | with_reducible refine countNode_keeps (sub (by decide) hm) ?_
    | with_reducible refine onNode_keeps (sub (by decide) hm) ?_
    | with_reducible refine countMlad_keeps (sub (by decide) hm) ?_
    | with_reducible refine onX_keeps (sub (by decide) hm) ?_
    | split

theorem countOutcome_keeps {s0 s : State} {i out : Nat} (hm : ([.nb] : List Part).all pm = true) (hk : Keeps pm s0 s) :
    Keeps pm s0 (countOutcome i out s) := by
  unfold countOutcome
  try dsimp only
  repeat' first
    | with_reducible assumption
    | with_reducible refine countX_keeps (sub (by decide) hm) ?_
    | split

theorem fillReq_keeps {s0 s : State} {q : NbReq} (hm : ([.mlad, .cipher] : List Part).all pm = true) (hk : Keeps pm s0 s) :
    KeepsT pm s0 (fillReq q s) := by
  unfold fillReq
  try dsimp only
  repeat' first
    | with_reducible assumption
    | with_reducible refine onHeld_keeps (sub (by decide) hm) ?_
    | with_reducible refine keeps_snd (takeCtr_keeps (sub (by decide) hm) ?_)
    | with_reducible refine buildNb_keeps (sub (by decide) hm) ?_
    | with_reducible refine onNode_keeps (sub (by decide) hm) ?_
    | with_reducible refine keepsT_mk ?_
    | (with_reducible refine keeps_of_eq ?_ (by assumption))
    | split

theorem giveUp_keeps {s0 s : State} {i : Nat} {q : NbReq} {reason : Nat} (hm : ([.boot, .host, .evt, .clk, .nb, .mlad, .drawn, .out] : List Part).all pm = true) (hk : Keeps pm s0 s) :
    Keeps pm s0 (giveUp i q reason s) := by
  unfold giveUp
  try dsimp only
  repeat' first
    | with_reducible assumption
    | with_reducible refine onMlad_keeps (sub (by decide) hm) ?_
    | with_reducible refine macOutcome_keeps (sub (by decide) hm) ?_
    | with_reducible refine failJob_keeps (sub (by decide) hm) ?_
    | with_reducible refine serviceNext_keeps (sub (by decide) hm) ?_
    | with_reducible refine dropHeld_keeps (sub (by decide) hm) ?_
    | with_reducible refine failNb_keeps (sub (by decide) hm) ?_
    | split

theorem handOne_keeps {s0 s : State} {i : Nat} (hm : ([.boot, .host, .evt, .clk, .nb, .mlad, .cipher, .drawn, .out] : List Part).all pm = true) (hk : Keeps pm s0 s) :
    Keeps pm s0 (handOne i s) := by
  unfold handOne
  try dsimp only
  repeat' first
    | with_reducible assumption
    | with_reducible refine giveUp_keeps (sub (by decide) hm) ?_
    | with_reducible refine fillReq_keeps (sub (by decide) hm) ?_
    | with_reducible refine countOutcome_keeps (sub (by decide) hm) ?_
    | with_reducible refine macOutcome_keeps (sub (by decide) hm) ?_
    | with_reducible refine nbMoves_keeps (sub (by decide) hm) ?_
    | with_reducible refine onX_keeps (sub (by decide) hm) ?_
    | (with_reducible refine keeps_of_eq2 ?_ (by assumption))
    | split

theorem pumpN_keeps {s0 s : State} {n : Nat} (hm : ([.boot, .host, .evt, .clk, .nb, .mlad, .cipher, .drawn, .out] : List Part).all pm = true) (hk : Keeps pm s0 s) : Keeps pm s0 (pumpN n s) := by
  induction n generalizing s with
  | zero => exact hk
  | succ n ih =>
    unfold pumpN
    split
    · exact hk
    · exact ih (handOne_keeps (sub (by decide) hm) hk)

theorem pump_keeps {s0 s : State}  (hm : ([.boot, .host, .evt, .clk, .nb, .mlad, .cipher, .drawn, .out] : List Part).all pm = true) (hk : Keeps pm s0 s) :
    Keeps pm s0 (pump s) := by
  unfold pump
  try dsimp only
  repeat' first
    | with_reducible assumption
    | with_reducible refine pumpN_keeps (sub (by decide) hm) ?_
    | with_reducible refine wantFloor_keeps (sub (by decide) hm) ?_
    | split

theorem hold_keeps {s0 s : State} {f : NbFrame} {cookie : W64} (hm : ([.boot, .host, .evt, .clk, .mlad, .out] : List Part).all pm = true) (hk : Keeps pm s0 s) :
    Keeps pm s0 (hold f cookie s) := by
  unfold hold
  try dsimp only
  repeat' first
    | with_reducible assumption
    | with_reducible refine onMlad_keeps (sub (by decide) hm) ?_
    | with_reducible refine keeps_snd (newKey_keeps (sub (by decide) hm) ?_)
    | with_reducible refine dropHeld_keeps (sub (by decide) hm) ?_
    | split

theorem see_keeps {s0 s : State} {src : W32} {seq : W16} (hm : ([.mlad] : List Part).all pm = true) (hk : Keeps pm s0 s) :
    Keeps pm s0 (see src seq s) := by
  unfold see
  try dsimp only
  repeat' first
    | with_reducible assumption
    | with_reducible refine onMlad_keeps (sub (by decide) hm) ?_
    | with_reducible refine countMlad_keeps (sub (by decide) hm) ?_
    | split

theorem sendDirect_keeps {s0 s : State} {f : NbFrame} {i lifeMs : Nat} {cookie : W64} (hm : ([.boot, .host, .evt, .clk, .nb, .mlad, .out] : List Part).all pm = true) (hk : Keeps pm s0 s) :
    Keeps pm s0 (sendDirect f i lifeMs cookie s) := by
  unfold sendDirect
  try dsimp only
  repeat' first
    | with_reducible assumption
    | with_reducible refine onMlad_keeps (sub (by decide) hm) ?_
    | with_reducible refine jobRequest_keeps (sub (by decide) hm) ?_
    | with_reducible refine keeps_snd (newKey_keeps (sub (by decide) hm) ?_)
    | with_reducible refine wantFloor_keeps (sub (by decide) hm) ?_
    | with_reducible refine keeps_snd (takeCtr_keeps (sub (by decide) hm) ?_)
    | with_reducible refine failNb_keeps (sub (by decide) hm) ?_
    | split

theorem sendCopy_keeps {s0 : State} {f : NbFrame} {lifeMs : Nat} {cookie : W64} {a : Option Nat × State} {i : Nat} (hm : ([.boot, .host, .evt, .clk, .nb, .mlad, .out] : List Part).all pm = true) (hk : KeepsP pm s0 a) :
    KeepsP pm s0 (sendCopy f lifeMs cookie a i) := by
  unfold sendCopy
  try dsimp only
  repeat' first
    | with_reducible refine sendDirect_keeps (sub (by decide) hm) ?_
    | with_reducible refine keepsP_mk ?_
    | with_reducible exact keeps_snd (by assumption)

theorem nbSend_keeps {s0 s : State} {node flags ttl xcvr lifeMs : Nat} {data : List Byte} {cookie : W64} (hm : ([.boot, .host, .evt, .clk, .nb, .mlad, .cipher, .drawn, .out] : List Part).all pm = true) (hk : Keeps pm s0 s) :
    KeepsT pm s0 (nbSend node flags ttl xcvr lifeMs data cookie s) := by
  unfold nbSend
  try dsimp only
  repeat' first
    | with_reducible assumption
    | with_reducible refine onMlad_keeps (sub (by decide) hm) ?_
    | with_reducible refine sendCopy_keeps (sub (by decide) hm) ?_
    | with_reducible refine see_keeps (sub (by decide) hm) ?_
    | with_reducible refine hold_keeps (sub (by decide) hm) ?_
    | with_reducible refine pump_keeps (sub (by decide) hm) ?_
    | with_reducible refine onNode_keeps (sub (by decide) hm) ?_
    | with_reducible refine keepsT_mk ?_
    | with_reducible refine keepsP_mk ?_
    | with_reducible refine keeps_snd (keepsP_foldl ?_ ?_)
    | split
    | (intro _ _ _)

end Sys2Proof.Machine
end

