-- ==== Sys2Proof/Laws/KeepNbRadio.lean ====
section
/-!
SUPPORT. What the operations of Machine.NbRadio keep.
-/
set_option linter.unusedSimpArgs false
set_option linter.unusedVariables false
namespace Sys2Proof.Machine

variable {pm : Part → Bool}

theorem tuneBurst_keeps {s0 s : State} {i : Nat} {probes : List (Nat × Nat)} (hm : ([.nb] : List Part).all pm = true) (hk : Keeps pm s0 s) :
    Keeps pm s0 (tuneBurst i probes s) := by
  unfold tuneBurst
  try dsimp only
  repeat' first
    | with_reducible assumption
    | with_reducible refine putReq_keeps (sub (by decide) hm) ?_
    | with_reducible refine onX_keeps (sub (by decide) hm) ?_
    | split

theorem tuneBegin_keeps {s0 s : State} {i : Nat} (hm : ([.nb] : List Part).all pm = true) (hk : Keeps pm s0 s) :
    Keeps pm s0 (tuneBegin i s) := by
  unfold tuneBegin
  try dsimp only
  repeat' first
    | with_reducible assumption
    | with_reducible refine tuneBurst_keeps (sub (by decide) hm) ?_
    | with_reducible refine onX_keeps (sub (by decide) hm) ?_
    | split

theorem tuneNext_keeps {s0 s : State} {i : Nat} (hm : ([.nb] : List Part).all pm = true) (hk : Keeps pm s0 s) :
    Keeps pm s0 (tuneNext i s) := by
  unfold tuneNext
  try dsimp only
  repeat' first
    | with_reducible assumption
    | with_reducible refine tuneBegin_keeps (sub (by decide) hm) ?_
    | with_reducible refine nbMoves_keeps (sub (by decide) hm) ?_
    | with_reducible refine onX_keeps (sub (by decide) hm) ?_
    | split

theorem clearMismatch_keeps {s0 s : State} {i ch rl : Nat} (hm : ([.boot, .host, .evt, .clk, .nb, .out] : List Part).all pm = true) (hk : Keeps pm s0 s) :
    Keeps pm s0 (clearMismatch i ch rl s) := by
  unfold clearMismatch
  try dsimp only
  repeat' first
    | with_reducible assumption
    | with_reducible refine onX_keeps (sub (by decide) hm) ?_
    | with_reducible refine raise_keeps (sub (by decide) hm) ?_
    | split

theorem tuneEnd_keeps {s0 s : State} {i : Nat} {p : Nat × Nat} {rl : Nat} (hm : ([.boot, .host, .evt, .clk, .nb, .out] : List Part).all pm = true) (hk : Keeps pm s0 s) :
    Keeps pm s0 (tuneEnd i p rl s) := by
  unfold tuneEnd
  try dsimp only
  repeat' first
    | with_reducible assumption
    | with_reducible refine clearMismatch_keeps (sub (by decide) hm) ?_
    | with_reducible refine tuneNext_keeps (sub (by decide) hm) ?_
    | with_reducible refine onX_keeps (sub (by decide) hm) ?_
    | split

theorem tuneBest_keeps {s0 s : State} {rs : List ((Nat × Nat) × Nat)} (hm : ([.drawn] : List Part).all pm = true) (hk : Keeps pm s0 s) :
    KeepsP pm s0 (tuneBest rs s) := by
  unfold tuneBest
  try dsimp only
  repeat' first
    | with_reducible assumption
    | with_reducible refine keeps_snd (draw_keeps (sub (by decide) hm) ?_)
    | with_reducible refine keepsP_mk ?_

theorem tuneStep_keeps {s0 s : State} {i : Nat} {rs : List ((Nat × Nat) × Nat)} (hm : ([.boot, .host, .evt, .clk, .nb, .drawn, .out] : List Part).all pm = true) (hk : Keeps pm s0 s) :
    Keeps pm s0 (tuneStep i rs s) := by
  unfold tuneStep
  try dsimp only
  repeat' first
    | with_reducible assumption
    | with_reducible refine keeps_snd (tuneBest_keeps (sub (by decide) hm) ?_)
    | with_reducible refine tuneEnd_keeps (sub (by decide) hm) ?_
    | with_reducible refine tuneBurst_keeps (sub (by decide) hm) ?_
    | with_reducible refine onX_keeps (sub (by decide) hm) ?_
    | split

theorem burstOutcome_keeps {s0 s : State} {i : Nat} {q : NbReq} {out : Nat} (hm : ([.boot, .host, .evt, .clk, .nb, .drawn, .out] : List Part).all pm = true) (hk : Keeps pm s0 s) :
    Keeps pm s0 (burstOutcome i q out s) := by
  unfold burstOutcome
  try dsimp only
  repeat' first
    | with_reducible assumption
    | with_reducible refine tuneStep_keeps (sub (by decide) hm) ?_
    | with_reducible refine onX_keeps (sub (by decide) hm) ?_
    | split

theorem endReq_keeps {s0 s : State} {i : Nat} {q : NbReq} {out fin : Nat} (hm : ([.boot, .host, .evt, .clk, .nb, .mlad, .cipher, .drawn, .out] : List Part).all pm = true) (hk : Keeps pm s0 s) :
    Keeps pm s0 (endReq i q out fin s) := by
  unfold endReq
  try dsimp only
  repeat' first
    | with_reducible assumption
    | with_reducible refine burstOutcome_keeps (sub (by decide) hm) ?_
    | with_reducible refine pump_keeps (sub (by decide) hm) ?_
    | with_reducible refine countOutcome_keeps (sub (by decide) hm) ?_
    | with_reducible refine macOutcome_keeps (sub (by decide) hm) ?_
    | with_reducible refine nbMoves_keeps (sub (by decide) hm) ?_
    | with_reducible refine onX_keeps (sub (by decide) hm) ?_
    | split

theorem tryRamp_keeps {s0 s : State} {i : Nat} {q : NbReq} (hm : ([.outs, .boot, .host, .evt, .clk, .nb, .mlad, .cipher, .drawn, .out] : List Part).all pm = true) (hk : Keeps pm s0 s) :
    Keeps pm s0 (tryRamp i q s) := by
  unfold tryRamp
  try dsimp only
  repeat' first
    | with_reducible assumption
    | with_reducible refine onOuts_keeps (sub (by decide) hm) ?_
    | with_reducible refine onNb_keeps (sub (by decide) hm) ?_
    | with_reducible refine emit_keeps (sub (by decide) hm) ?_
    | with_reducible refine endReq_keeps (sub (by decide) hm) ?_
    | with_reducible refine countX_keeps (sub (by decide) hm) ?_
    | with_reducible refine onX_keeps (sub (by decide) hm) ?_
    | with_reducible refine dutyLimit_keeps (sub (by decide) hm) ?_
    | split

theorem execNbTxRequestStart_keeps {s0 s : State} {x : Fin 4} (hm : ([.outs, .boot, .host, .evt, .cad, .clk, .nb, .mlad, .cipher, .drawn, .out] : List Part).all pm = true) (hk : Keeps pm s0 s) :
    KeepsOut pm s0 (execNbTxRequestStart x s) := by
  unfold execNbTxRequestStart
  try dsimp only
  repeat' first
    | with_reducible assumption
    | with_reducible refine tryRamp_keeps (sub (by decide) hm) ?_
    | with_reducible refine endReq_keeps (sub (by decide) hm) ?_
    | with_reducible refine retuneX_keeps (sub (by decide) hm) ?_
    | with_reducible refine onX_keeps (sub (by decide) hm) ?_
    | with_reducible refine advanceTo_keeps (sub (by decide) hm) ?_
    | with_reducible refine keepsOut_next ?_
    | split

theorem execNbCcaDone_keeps {s0 s : State} {x : Fin 4} {power : Int} (hm : ([.outs, .boot, .host, .evt, .cad, .clk, .nb, .mlad, .cipher, .drawn, .out] : List Part).all pm = true) (hk : Keeps pm s0 s) :
    KeepsOut pm s0 (execNbCcaDone x power s) := by
  unfold execNbCcaDone
  try dsimp only
  repeat' first
    | with_reducible assumption
    | with_reducible refine tryRamp_keeps (sub (by decide) hm) ?_
    | with_reducible refine endReq_keeps (sub (by decide) hm) ?_
    | with_reducible refine advanceTo_keeps (sub (by decide) hm) ?_
    | with_reducible refine keepsOut_next ?_
    | split

theorem execNbRequestLatest_keeps {s0 s : State} {x : Fin 4} (hm : ([.boot, .host, .evt, .cad, .clk, .nb, .mlad, .cipher, .drawn, .out] : List Part).all pm = true) (hk : Keeps pm s0 s) :
    KeepsOut pm s0 (execNbRequestLatest x s) := by
  unfold execNbRequestLatest
  try dsimp only
  repeat' first
    | with_reducible assumption
    | with_reducible refine endReq_keeps (sub (by decide) hm) ?_
    | with_reducible refine advanceTo_keeps (sub (by decide) hm) ?_
    | with_reducible refine keepsOut_next ?_
    | split

theorem paOff_keeps {s0 s : State} {i : Nat} {t : NbTx} (hm : ([.outs, .nb] : List Part).all pm = true) (hk : Keeps pm s0 s) :
    Keeps pm s0 (paOff i t s) := by
  unfold paOff
  try dsimp only
  repeat' first
    | with_reducible assumption
    | with_reducible refine onOuts_keeps (sub (by decide) hm) ?_
    | with_reducible refine charge_keeps (sub (by decide) hm) ?_

theorem closeLoop_keeps {s0 s : State} {i : Nat} {err : Int} (hm : ([.nb] : List Part).all pm = true) (hk : Keeps pm s0 s) :
    Keeps pm s0 (closeLoop i err s) := by
  unfold closeLoop
  try dsimp only
  repeat' first
    | with_reducible assumption
    | with_reducible refine countX_keeps (sub (by decide) hm) ?_
    | with_reducible refine onX_keeps (sub (by decide) hm) ?_
    | split

theorem execNbTxDone_keeps {s0 s : State} {x : Fin 4} {err : Option Int} (hm : ([.outs, .boot, .host, .evt, .cad, .clk, .nb, .mlad, .cipher, .drawn, .out] : List Part).all pm = true) (hk : Keeps pm s0 s) :
    KeepsOut pm s0 (execNbTxDone x err s) := by
  unfold execNbTxDone
  try dsimp only
  repeat' first
    | with_reducible assumption
    | with_reducible refine closeLoop_keeps (sub (by decide) hm) ?_
    | with_reducible refine paOff_keeps (sub (by decide) hm) ?_
    | with_reducible refine endReq_keeps (sub (by decide) hm) ?_
    | with_reducible refine clearMismatch_keeps (sub (by decide) hm) ?_
    | with_reducible refine countX_keeps (sub (by decide) hm) ?_
    | with_reducible refine onX_keeps (sub (by decide) hm) ?_
    | with_reducible refine advanceTo_keeps (sub (by decide) hm) ?_
    | with_reducible refine keepsOut_next ?_
    | split

theorem execNbLockLoss_keeps {s0 s : State} {x : Fin 4} (hm : ([.outs, .boot, .host, .evt, .clk, .nb, .mlad, .cipher, .drawn, .out] : List Part).all pm = true) (hk : Keeps pm s0 s) :
    KeepsOut pm s0 (execNbLockLoss x s) := by
  unfold execNbLockLoss
  try dsimp only
  repeat' first
    | with_reducible assumption
    | with_reducible refine paOff_keeps (sub (by decide) hm) ?_
    | with_reducible refine endReq_keeps (sub (by decide) hm) ?_
    | with_reducible refine onX_keeps (sub (by decide) hm) ?_
    | with_reducible refine keepsOut_next ?_
    | split

theorem execNbRlSample_keeps {s0 s : State} {x : Fin 4} {rl : Nat} (hm : ([.outs, .boot, .host, .evt, .cad, .clk, .nb, .mlad, .cipher, .drawn, .out] : List Part).all pm = true) (hk : Keeps pm s0 s) :
    KeepsOut pm s0 (execNbRlSample x rl s) := by
  unfold execNbRlSample
  try dsimp only
  repeat' first
    | with_reducible assumption
    | with_reducible refine paOff_keeps (sub (by decide) hm) ?_
    | with_reducible refine endReq_keeps (sub (by decide) hm) ?_
    | with_reducible refine countX_keeps (sub (by decide) hm) ?_
    | with_reducible refine onX_keeps (sub (by decide) hm) ?_
    | with_reducible refine raise_keeps (sub (by decide) hm) ?_
    | with_reducible refine advanceTo_keeps (sub (by decide) hm) ?_
    | with_reducible refine keepsOut_next ?_
    | split

theorem execNbSynthLocked_keeps {s0 s : State} {x : Fin 4} (hm : ([.boot, .host, .evt, .clk, .nb, .mlad, .cipher, .drawn, .out] : List Part).all pm = true) (hk : Keeps pm s0 s) :
    KeepsOut pm s0 (execNbSynthLocked x s) := by
  unfold execNbSynthLocked
  try dsimp only
  repeat' first
    | with_reducible assumption
    | with_reducible refine pump_keeps (sub (by decide) hm) ?_
    | with_reducible refine onlyIf_keeps (sub (by decide) hm) ?_ (fun _ => ?_)
    | with_reducible refine nbMoves_keeps (sub (by decide) hm) ?_
    | with_reducible refine onX_keeps (sub (by decide) hm) ?_
    | with_reducible refine keepsOut_next ?_

theorem failX_keeps {s0 s : State} {i : Nat} (hm : ([.boot, .host, .evt, .clk, .nb, .mlad, .cipher, .drawn, .out] : List Part).all pm = true) (hk : Keeps pm s0 s) :
    Keeps pm s0 (failX i s) := by
  unfold failX
  try dsimp only
  repeat' first
    | with_reducible assumption
    | with_reducible refine endReq_keeps (sub (by decide) hm) ?_
    | with_reducible refine pump_keeps (sub (by decide) hm) ?_
    | with_reducible refine onX_keeps (sub (by decide) hm) ?_
    | with_reducible refine raise_keeps (sub (by decide) hm) ?_
    | split

theorem execNbSynthLockTimeout_keeps {s0 s : State} {x : Fin 4} (hm : ([.boot, .host, .evt, .clk, .nb, .mlad, .cipher, .drawn, .out] : List Part).all pm = true) (hk : Keeps pm s0 s) :
    KeepsOut pm s0 (execNbSynthLockTimeout x s) := by
  unfold execNbSynthLockTimeout
  try dsimp only
  repeat' first
    | with_reducible assumption
    | with_reducible refine failX_keeps (sub (by decide) hm) ?_
    | with_reducible refine onlyIf_keeps (sub (by decide) hm) ?_ (fun _ => ?_)
    | with_reducible refine onX_keeps (sub (by decide) hm) ?_
    | with_reducible refine keepsOut_next ?_
    | split

theorem execHopSlotStart_keeps {s0 s : State} {x : Fin 4} (hm : ([.cad, .clk, .nb] : List Part).all pm = true) (hk : Keeps pm s0 s) :
    KeepsOut pm s0 (execHopSlotStart x s) := by
  unfold execHopSlotStart
  try dsimp only
  repeat' first
    | with_reducible assumption
    | with_reducible refine onlyIf_keeps (sub (by decide) hm) ?_ (fun _ => ?_)
    | with_reducible refine retuneX_keeps (sub (by decide) hm) ?_
    | with_reducible refine onX_keeps (sub (by decide) hm) ?_
    | with_reducible refine advanceTo_keeps (sub (by decide) hm) ?_
    | with_reducible refine keepsOut_next ?_
    | split

theorem execNbPreambleDetected_keeps {s0 s : State} {x : Fin 4} {power : Int} (hm : ([.nb] : List Part).all pm = true) (hk : Keeps pm s0 s) :
    KeepsOut pm s0 (execNbPreambleDetected x power s) := by
  unfold execNbPreambleDetected
  try dsimp only
  repeat' first
    | with_reducible assumption
    | with_reducible refine onlyIf_keeps (sub (by decide) hm) ?_ (fun _ => ?_)
    | with_reducible refine onX_keeps (sub (by decide) hm) ?_
    | with_reducible refine keepsOut_next ?_

theorem execNbSyncTimeout_keeps {s0 s : State} {x : Fin 4} (hm : ([.nb] : List Part).all pm = true) (hk : Keeps pm s0 s) :
    KeepsOut pm s0 (execNbSyncTimeout x s) := by
  unfold execNbSyncTimeout
  try dsimp only
  repeat' first
    | with_reducible assumption
    | with_reducible refine onlyIf_keeps (sub (by decide) hm) ?_ (fun _ => ?_)
    | with_reducible refine countX_keeps (sub (by decide) hm) ?_
    | with_reducible refine onX_keeps (sub (by decide) hm) ?_
    | with_reducible refine keepsOut_next ?_

theorem execNbRxWindowPower_keeps {s0 s : State} {x : Fin 4} {power : Int} (hm : ([.nb] : List Part).all pm = true) (hk : Keeps pm s0 s) :
    KeepsOut pm s0 (execNbRxWindowPower x power s) := by
  unfold execNbRxWindowPower
  try dsimp only
  repeat' first
    | with_reducible assumption
    | with_reducible refine countX_keeps (sub (by decide) hm) ?_
    | with_reducible refine onX_keeps (sub (by decide) hm) ?_
    | with_reducible refine keepsOut_next ?_
    | split

theorem execNbPhrReceived_keeps {s0 s : State} {x : Fin 4} {phr : W16} {rssi : Int} (hm : ([.nb] : List Part).all pm = true) (hk : Keeps pm s0 s) :
    KeepsOut pm s0 (execNbPhrReceived x phr rssi s) := by
  unfold execNbPhrReceived
  try dsimp only
  repeat' first
    | with_reducible assumption
    | with_reducible refine onlyIf_keeps (sub (by decide) hm) ?_ (fun _ => ?_)
    | with_reducible refine countX_keeps (sub (by decide) hm) ?_
    | with_reducible refine onX_keeps (sub (by decide) hm) ?_
    | with_reducible refine keepsOut_next ?_
    | split

theorem blankNb_keeps {s0 s : State} {i : Nat} (hm : ([.outs, .boot, .host, .evt, .clk, .nb, .mlad, .cipher, .drawn, .out] : List Part).all pm = true) (hk : Keeps pm s0 s) :
    Keeps pm s0 (blankNb i s) := by
  unfold blankNb
  try dsimp only
  repeat' first
    | with_reducible assumption
    | with_reducible refine paOff_keeps (sub (by decide) hm) ?_
    | with_reducible refine endReq_keeps (sub (by decide) hm) ?_
    | with_reducible refine countX_keeps (sub (by decide) hm) ?_
    | with_reducible refine onX_keeps (sub (by decide) hm) ?_
    | split

theorem specNbConfig_keeps {s0 s : State} {c : Cmd} (hm : ([.boot, .host, .evt, .clk, .nb, .mlad, .cipher, .drawn, .out] : List Part).all pm = true) (h : Keeps pm s0 s) : KeepsP pm s0 (specNbConfig.body c s) := by
  simp only [specNbConfig]
  repeat' first
    | with_reducible assumption
    | with_reducible refine pump_keeps (sub (by decide) hm) ?_
    | with_reducible refine collisions_keeps (sub (by decide) hm) ?_
    | with_reducible refine countX_keeps (sub (by decide) hm) ?_
    | with_reducible refine onX_keeps (sub (by decide) hm) ?_
    | with_reducible refine keepsP_mk ?_
    | split

theorem execNbConfig_keeps {s0 s : State} {d : Doorbell} {p : List Byte} (hm : ([.boot, .mbx, .host, .evt, .modes, .flt, .clk, .nb, .mlad, .cipher, .ring, .drawn, .out] : List Part).all pm = true) (hk : Keeps pm s0 s) :
    KeepsOut pm s0 (execNbConfig d p s) := by
  unfold execNbConfig
  try dsimp only
  repeat' first
    | with_reducible assumption
    | (refine command_keeps (sub (by decide) hm) ?_ (fun _ _ hh => specNbConfig_keeps (sub (by decide) hm) hh))

theorem specNbChannelPlan_keeps {s0 s : State} {c : Cmd} (hm : ([.cal, .nb] : List Part).all pm = true) (h : Keeps pm s0 s) : KeepsP pm s0 (specNbChannelPlan.body c s) := by
  simp only [specNbChannelPlan]
  repeat' first
    | with_reducible assumption
    | with_reducible refine onNb_keeps (sub (by decide) hm) ?_
    | with_reducible refine onCC_keeps (sub (by decide) hm) ?_
    | with_reducible refine nbMoves_keeps (sub (by decide) hm) ?_
    | with_reducible refine onX_keeps (sub (by decide) hm) ?_
    | with_reducible refine keepsP_mk ?_
    | with_reducible refine keeps_foldl ?_ ?_
    | split
    | (intro _ _ _)

theorem execNbChannelPlan_keeps {s0 s : State} {d : Doorbell} {p : List Byte} (hm : ([.boot, .mbx, .host, .evt, .modes, .flt, .clk, .cal, .nb, .ring, .out] : List Part).all pm = true) (hk : Keeps pm s0 s) :
    KeepsOut pm s0 (execNbChannelPlan d p s) := by
  unfold execNbChannelPlan
  try dsimp only
  repeat' first
    | with_reducible assumption
    | (refine command_keeps (sub (by decide) hm) ?_ (fun _ _ hh => specNbChannelPlan_keeps (sub (by decide) hm) hh))

theorem specTunerRun_keeps {s0 s : State} {c : Cmd} (hm : ([.boot, .host, .evt, .clk, .nb, .mlad, .cipher, .drawn, .out] : List Part).all pm = true) (h : Keeps pm s0 s) : KeepsP pm s0 (specTunerRun.body c s) := by
  simp only [specTunerRun]
  repeat' first
    | with_reducible assumption
    | with_reducible refine tuneBegin_keeps (sub (by decide) hm) ?_
    | with_reducible refine pump_keeps (sub (by decide) hm) ?_
    | with_reducible refine onX_keeps (sub (by decide) hm) ?_
    | with_reducible refine keepsP_mk ?_
    | split

theorem execTunerRun_keeps {s0 s : State} {d : Doorbell} {p : List Byte} (hm : ([.boot, .mbx, .host, .evt, .modes, .flt, .clk, .nb, .mlad, .cipher, .ring, .drawn, .out] : List Part).all pm = true) (hk : Keeps pm s0 s) :
    KeepsOut pm s0 (execTunerRun d p s) := by
  unfold execTunerRun
  try dsimp only
  repeat' first
    | with_reducible assumption
    | (refine command_keeps (sub (by decide) hm) ?_ (fun _ _ hh => specTunerRun_keeps (sub (by decide) hm) hh))

theorem execTunerRunDone_keeps {s0 s : State} {x : Fin 4} (hm : ([.boot, .mbx, .host, .evt, .clk, .nb, .ring, .out] : List Part).all pm = true) (hk : Keeps pm s0 s) :
    KeepsOut pm s0 (execTunerRunDone x s) := by
  unfold execTunerRunDone
  try dsimp only
  repeat' first
    | with_reducible assumption
    | with_reducible refine onX_keeps (sub (by decide) hm) ?_
    | with_reducible refine endOp_keeps (sub (by decide) hm) ?_
    | with_reducible refine keepsOut_next ?_
    | split

theorem execNbAutoTuneStart_keeps {s0 s : State} {x : Fin 4} (hm : ([.boot, .host, .evt, .clk, .nb, .mlad, .cipher, .drawn, .out] : List Part).all pm = true) (hk : Keeps pm s0 s) :
    KeepsOut pm s0 (execNbAutoTuneStart x s) := by
  unfold execNbAutoTuneStart
  try dsimp only
  repeat' first
    | with_reducible assumption
    | with_reducible refine tuneBegin_keeps (sub (by decide) hm) ?_
    | with_reducible refine pump_keeps (sub (by decide) hm) ?_
    | with_reducible refine onlyIf_keeps (sub (by decide) hm) ?_ (fun _ => ?_)
    | with_reducible refine onX_keeps (sub (by decide) hm) ?_
    | with_reducible refine keepsOut_next ?_

theorem execTuneBurstRetry_keeps {s0 s : State} {x : Fin 4} (hm : ([.boot, .host, .evt, .cad, .clk, .nb, .mlad, .cipher, .drawn, .out] : List Part).all pm = true) (hk : Keeps pm s0 s) :
    KeepsOut pm s0 (execTuneBurstRetry x s) := by
  unfold execTuneBurstRetry
  try dsimp only
  repeat' first
    | with_reducible assumption
    | with_reducible refine tuneBurst_keeps (sub (by decide) hm) ?_
    | with_reducible refine pump_keeps (sub (by decide) hm) ?_
    | with_reducible refine advanceTo_keeps (sub (by decide) hm) ?_
    | with_reducible refine keepsOut_next ?_
    | split

theorem execTuneSearchTimeout_keeps {s0 s : State} {x : Fin 4} (hm : ([.boot, .host, .evt, .cad, .clk, .nb, .mlad, .cipher, .drawn, .out] : List Part).all pm = true) (hk : Keeps pm s0 s) :
    KeepsOut pm s0 (execTuneSearchTimeout x s) := by
  unfold execTuneSearchTimeout
  try dsimp only
  repeat' first
    | with_reducible assumption
    | with_reducible refine tuneNext_keeps (sub (by decide) hm) ?_
    | with_reducible refine pump_keeps (sub (by decide) hm) ?_
    | with_reducible refine onX_keeps (sub (by decide) hm) ?_
    | with_reducible refine advanceTo_keeps (sub (by decide) hm) ?_
    | with_reducible refine keepsOut_next ?_
    | split

theorem specNbStats_keeps {s0 s : State} {c : Cmd} (hm : ([.nb, .drawn] : List Part).all pm = true) (h : Keeps pm s0 s) : KeepsP pm s0 (specNbStats.body c s) := by
  simp only [specNbStats]
  repeat' first
    | with_reducible assumption
    | with_reducible refine keeps_snd (draw_keeps (sub (by decide) hm) ?_)
    | with_reducible refine onX_keeps (sub (by decide) hm) ?_
    | with_reducible refine keepsP_mk ?_
    | split
    | with_reducible dsimp only

theorem execNbStats_keeps {s0 s : State} {d : Doorbell} {p : List Byte} (hm : ([.boot, .mbx, .host, .evt, .modes, .flt, .clk, .nb, .ring, .drawn, .out] : List Part).all pm = true) (hk : Keeps pm s0 s) :
    KeepsOut pm s0 (execNbStats d p s) := by
  unfold execNbStats
  try dsimp only
  repeat' first
    | with_reducible assumption
    | (refine command_keeps (sub (by decide) hm) ?_ (fun _ _ hh => specNbStats_keeps (sub (by decide) hm) hh))

end Sys2Proof.Machine
end

