-- ==== Sys2Proof/Laws/KeepMladmer.lean ====
section
/-!
SUPPORT. What the operations of Machine.Mladmer keep.
-/
set_option linter.unusedSimpArgs false
set_option linter.unusedVariables false
namespace Sys2Proof.Machine

variable {pm : Part → Bool}

theorem toPath_keeps {s0 s : State} {p : Pkt} (hm : ([.cls] : List Part).all pm = true) (hk : Keeps pm s0 s) :
    Keeps pm s0 (toPath p s) := by
  unfold toPath
  try dsimp only
  repeat' first
    | with_reducible assumption
    | with_reducible refine onCls_keeps (sub (by decide) hm) ?_

theorem recToHost_keeps {s0 s : State} {ring node : Nat} {rec : List Byte} {flags t : Nat} (hm : ([.host, .tm] : List Part).all pm = true) (hk : Keeps pm s0 s) :
    Keeps pm s0 (recToHost ring node rec flags t s) := by
  unfold recToHost
  try dsimp only
  repeat' first
    | with_reducible assumption
    | with_reducible refine hostQueue_keeps (sub (by decide) hm) ?_

theorem nbDeliver_keeps {s0 s : State} {node i : Nat} {rssi : Int} {t : Nat} {secured flood : Bool} {head data : List Byte} (hm : ([.host, .air, .mlad, .cls, .tm, .drawn] : List Part).all pm = true) (hk : Keeps pm s0 s) :
    Keeps pm s0 (nbDeliver node i rssi t secured flood head data s) := by
  unfold nbDeliver
  try dsimp only
  repeat' first
    | with_reducible assumption
    | with_reducible refine keeps_snd (draw_keeps (sub (by decide) hm) ?_)
    | with_reducible refine recToHost_keeps (sub (by decide) hm) ?_
    | with_reducible refine toPath_keeps (sub (by decide) hm) ?_
    | with_reducible refine countMlad_keeps (sub (by decide) hm) ?_
    | split

theorem nbVerify_keeps {s0 s : State} {k : Nat} {n : Node} {b : List Byte} {t : Nat} (hm : ([.mlad, .cipher] : List Part).all pm = true) (hk : Keeps pm s0 s) :
    KeepsP pm s0 (nbVerify k n b t s) := by
  unfold nbVerify
  try dsimp only
  repeat' first
    | with_reducible assumption
    | with_reducible refine countCipher_keeps (sub (by decide) hm) ?_
    | with_reducible refine countNode_keeps (sub (by decide) hm) ?_
    | with_reducible refine countMlad_keeps (sub (by decide) hm) ?_
    | with_reducible refine keepsP_mk ?_
    | split

theorem nbHeard_keeps {s0 s : State} {k i : Nat} {h : NbHead} {ctr : Option Nat} {rssi : Int} {t : Nat} (hm : ([.mlad] : List Part).all pm = true) (hk : Keeps pm s0 s) :
    Keeps pm s0 (nbHeard k i h ctr rssi t s) := by
  unfold nbHeard
  try dsimp only
  repeat' first
    | with_reducible assumption
    | with_reducible refine countNode_keeps (sub (by decide) hm) ?_
    | with_reducible refine onNode_keeps (sub (by decide) hm) ?_

theorem ackReq_keeps {s0 s : State} {k i fin : Nat} {h : NbHead} (hm : ([.nb] : List Part).all pm = true) (hk : Keeps pm s0 s) :
    Keeps pm s0 (ackReq k i fin h s) := by
  unfold ackReq
  try dsimp only
  repeat' first
    | with_reducible assumption
    | with_reducible refine putReq_keeps (sub (by decide) hm) ?_

theorem unhold_keeps {s0 s : State} {key : Nat} (hm : ([.boot, .host, .evt, .clk, .nb, .mlad, .out] : List Part).all pm = true) (hk : Keeps pm s0 s) :
    Keeps pm s0 (unhold key s) := by
  unfold unhold
  try dsimp only
  repeat' first
    | with_reducible assumption
    | with_reducible refine onNb_keeps (sub (by decide) hm) ?_

theorem nbAcked_keeps {s0 s : State} {k : Nat} {seq : W16} {t fin : Nat} (hm : ([.boot, .host, .evt, .clk, .nb, .mlad, .out] : List Part).all pm = true) (hk : Keeps pm s0 s) :
    Keeps pm s0 (nbAcked k seq t fin s) := by
  unfold nbAcked
  try dsimp only
  repeat' first
    | with_reducible assumption
    | with_reducible refine onMlad_keeps (sub (by decide) hm) ?_
    | with_reducible refine unhold_keeps (sub (by decide) hm) ?_
    | with_reducible refine heldResult_keeps (sub (by decide) hm) ?_
    | split

theorem nbWake_keeps {s0 s : State} {k : Nat} (hm : ([.boot, .mbx, .host, .evt, .modes, .clk, .ring, .out] : List Part).all pm = true) (hk : Keeps pm s0 s) :
    Keeps pm s0 (nbWake k s) := by
  unfold nbWake
  try dsimp only
  repeat' first
    | with_reducible assumption
    | with_reducible refine wakeSource_keeps (sub (by decide) hm) ?_
    | split

theorem nbUnicast_keeps {s0 s : State} {k i : Nat} {b : List Byte} {rssi : Int} {t fin : Nat} (hm : ([.boot, .mbx, .host, .evt, .modes, .clk, .air, .nb, .mlad, .cls, .tm, .cipher, .ring, .drawn, .out] : List Part).all pm = true) (hk : Keeps pm s0 s) :
    Keeps pm s0 (nbUnicast k i b rssi t fin s) := by
  unfold nbUnicast
  try dsimp only
  repeat' first
    | with_reducible assumption
    | with_reducible refine nbWake_keeps (sub (by decide) hm) ?_
    | with_reducible refine nbAcked_keeps (sub (by decide) hm) ?_
    | with_reducible refine ackReq_keeps (sub (by decide) hm) ?_
    | with_reducible refine nbHeard_keeps (sub (by decide) hm) ?_
    | with_reducible refine nbVerify_keeps (sub (by decide) hm) ?_
    | with_reducible refine nbDeliver_keeps (sub (by decide) hm) ?_
    | with_reducible refine serviceStart_keeps (sub (by decide) hm) ?_
    | with_reducible refine onNode_keeps (sub (by decide) hm) ?_
    | with_reducible refine countMlad_keeps (sub (by decide) hm) ?_
    | (with_reducible refine keeps_of_eq ?_ (by assumption))
    | split

theorem relayFlood_keeps {s0 s : State} {i : Nat} {b : List Byte} {fin : Nat} (hm : ([.mlad, .drawn] : List Part).all pm = true) (hk : Keeps pm s0 s) :
    Keeps pm s0 (relayFlood i b fin s) := by
  unfold relayFlood
  try dsimp only
  repeat' first
    | with_reducible assumption
    | with_reducible refine onMlad_keeps (sub (by decide) hm) ?_
    | with_reducible refine keeps_snd (draw_keeps (sub (by decide) hm) ?_)
    | with_reducible refine countMlad_keeps (sub (by decide) hm) ?_
    | split

theorem takeFlood_keeps {s0 s : State} {k i : Nat} {b : List Byte} {rssi : Int} {t fin : Nat} {sleepy : Bool} {data : List Byte} (hm : ([.boot, .host, .evt, .clk, .air, .nb, .mlad, .cls, .tm, .drawn, .out] : List Part).all pm = true) (hk : Keeps pm s0 s) :
    Keeps pm s0 (takeFlood k i b rssi t fin sleepy data s) := by
  unfold takeFlood
  try dsimp only
  repeat' first
    | with_reducible assumption
    | with_reducible refine nbAcked_keeps (sub (by decide) hm) ?_
    | with_reducible refine nbDeliver_keeps (sub (by decide) hm) ?_
    | with_reducible refine serviceStart_keeps (sub (by decide) hm) ?_
    | with_reducible refine countMlad_keeps (sub (by decide) hm) ?_
    | split

theorem nbFlooded_keeps {s0 s : State} {i : Nat} {b : List Byte} {rssi : Int} {t fin : Nat} (hm : ([.boot, .mbx, .host, .evt, .modes, .clk, .air, .nb, .mlad, .cls, .tm, .cipher, .ring, .drawn, .out] : List Part).all pm = true) (hk : Keeps pm s0 s) :
    Keeps pm s0 (nbFlooded i b rssi t fin s) := by
  unfold nbFlooded
  try dsimp only
  repeat' first
    | with_reducible assumption
    | with_reducible refine takeFlood_keeps (sub (by decide) hm) ?_
    | with_reducible refine relayFlood_keeps (sub (by decide) hm) ?_
    | with_reducible refine nbWake_keeps (sub (by decide) hm) ?_
    | with_reducible refine nbHeard_keeps (sub (by decide) hm) ?_
    | with_reducible refine nbVerify_keeps (sub (by decide) hm) ?_
    | with_reducible refine recToHost_keeps (sub (by decide) hm) ?_
    | with_reducible refine countMlad_keeps (sub (by decide) hm) ?_
    | (with_reducible refine keeps_of_eq ?_ (by assumption))
    | split

theorem macRx_keeps {s0 s : State} {i : Nat} {b : List Byte} {rssi : Int} {t fin : Nat} (hm : ([.boot, .mbx, .host, .evt, .modes, .clk, .air, .nb, .mlad, .cls, .tm, .cipher, .ring, .drawn, .out] : List Part).all pm = true) (hk : Keeps pm s0 s) :
    Keeps pm s0 (macRx i b rssi t fin s) := by
  unfold macRx
  try dsimp only
  repeat' first
    | with_reducible assumption
    | with_reducible refine onMlad_keeps (sub (by decide) hm) ?_
    | with_reducible refine nbFlooded_keeps (sub (by decide) hm) ?_
    | with_reducible refine nbUnicast_keeps (sub (by decide) hm) ?_
    | with_reducible refine recToHost_keeps (sub (by decide) hm) ?_
    | with_reducible refine see_keeps (sub (by decide) hm) ?_
    | with_reducible refine countMlad_keeps (sub (by decide) hm) ?_
    | split

theorem execNbFrameReceived_keeps {s0 s : State} {x : Fin 4} {frame : List Byte} {fcs2 fcsOk : Bool} {rssi : Int} {t : Nat} (hm : ([.boot, .mbx, .host, .evt, .modes, .cad, .clk, .air, .nb, .mlad, .cls, .tm, .cipher, .ring, .drawn, .out] : List Part).all pm = true) (hk : Keeps pm s0 s) :
    KeepsOut pm s0 (execNbFrameReceived x frame fcs2 fcsOk rssi t s) := by
  unfold execNbFrameReceived
  try dsimp only
  repeat' first
    | with_reducible assumption
    | with_reducible refine macRx_keeps (sub (by decide) hm) ?_
    | with_reducible refine pump_keeps (sub (by decide) hm) ?_
    | with_reducible refine onlyIf_keeps (sub (by decide) hm) ?_ (fun _ => ?_)
    | with_reducible refine nbMoves_keeps (sub (by decide) hm) ?_
    | with_reducible refine countX_keeps (sub (by decide) hm) ?_
    | with_reducible refine onX_keeps (sub (by decide) hm) ?_
    | with_reducible refine advanceTo_keeps (sub (by decide) hm) ?_
    | with_reducible refine keepsOut_next ?_
    | split

theorem execNbAckTimeout_keeps {s0 s : State} {job : Nat} (hm : ([.boot, .host, .evt, .cad, .clk, .nb, .mlad, .cipher, .drawn, .out] : List Part).all pm = true) (hk : Keeps pm s0 s) :
    KeepsOut pm s0 (execNbAckTimeout job s) := by
  unfold execNbAckTimeout
  try dsimp only
  repeat' first
    | with_reducible assumption
    | with_reducible refine unhold_keeps (sub (by decide) hm) ?_
    | with_reducible refine pump_keeps (sub (by decide) hm) ?_
    | with_reducible refine jobRetry_keeps (sub (by decide) hm) ?_
    | with_reducible refine heldResult_keeps (sub (by decide) hm) ?_
    | with_reducible refine advanceTo_keeps (sub (by decide) hm) ?_
    | with_reducible refine keepsOut_next ?_
    | split

theorem execNbBackoffExpiry_keeps {s0 s : State} {job : Nat} (hm : ([.boot, .host, .evt, .cad, .clk, .nb, .mlad, .cipher, .drawn, .out] : List Part).all pm = true) (hk : Keeps pm s0 s) :
    KeepsOut pm s0 (execNbBackoffExpiry job s) := by
  unfold execNbBackoffExpiry
  try dsimp only
  repeat' first
    | with_reducible assumption
    | with_reducible refine pump_keeps (sub (by decide) hm) ?_
    | with_reducible refine jobRequest_keeps (sub (by decide) hm) ?_
    | with_reducible refine onJob_keeps (sub (by decide) hm) ?_
    | with_reducible refine failJob_keeps (sub (by decide) hm) ?_
    | with_reducible refine advanceTo_keeps (sub (by decide) hm) ?_
    | with_reducible refine keepsOut_next ?_
    | split

theorem withdrawHeld_keeps {s0 s : State} {node key : Nat} (hm : ([.nb, .mlad] : List Part).all pm = true) (hk : Keeps pm s0 s) :
    Keeps pm s0 (withdrawHeld node key s) := by
  unfold withdrawHeld
  try dsimp only
  repeat' first
    | with_reducible assumption
    | with_reducible refine onNb_keeps (sub (by decide) hm) ?_
    | with_reducible refine serviceNext_keeps (sub (by decide) hm) ?_
    | split

theorem execHeldFrameExpiry_keeps {s0 s : State} {key : Nat} (hm : ([.boot, .host, .evt, .cad, .clk, .nb, .mlad, .cipher, .drawn, .out] : List Part).all pm = true) (hk : Keeps pm s0 s) :
    KeepsOut pm s0 (execHeldFrameExpiry key s) := by
  unfold execHeldFrameExpiry
  try dsimp only
  repeat' first
    | with_reducible assumption
    | with_reducible refine withdrawHeld_keeps (sub (by decide) hm) ?_
    | with_reducible refine unhold_keeps (sub (by decide) hm) ?_
    | with_reducible refine pump_keeps (sub (by decide) hm) ?_
    | with_reducible refine dropHeld_keeps (sub (by decide) hm) ?_
    | with_reducible refine advanceTo_keeps (sub (by decide) hm) ?_
    | with_reducible refine keepsOut_next ?_
    | split

theorem execRelayJitterExpiry_keeps {s0 s : State} {src : W32} {seq : W16} (hm : ([.boot, .host, .evt, .cad, .clk, .nb, .mlad, .cipher, .drawn, .out] : List Part).all pm = true) (hk : Keeps pm s0 s) :
    KeepsOut pm s0 (execRelayJitterExpiry src seq s) := by
  unfold execRelayJitterExpiry
  try dsimp only
  repeat' first
    | with_reducible assumption
    | with_reducible refine onMlad_keeps (sub (by decide) hm) ?_
    | with_reducible refine pump_keeps (sub (by decide) hm) ?_
    | with_reducible refine putReq_keeps (sub (by decide) hm) ?_
    | with_reducible refine countMlad_keeps (sub (by decide) hm) ?_
    | with_reducible refine advanceTo_keeps (sub (by decide) hm) ?_
    | with_reducible refine keepsOut_next ?_
    | split

theorem execSeenEntryExpiry_keeps {s0 s : State} {src : W32} {seq : W16} (hm : ([.cad, .clk, .mlad] : List Part).all pm = true) (hk : Keeps pm s0 s) :
    KeepsOut pm s0 (execSeenEntryExpiry src seq s) := by
  unfold execSeenEntryExpiry
  try dsimp only
  repeat' first
    | with_reducible assumption
    | with_reducible refine onMlad_keeps (sub (by decide) hm) ?_
    | with_reducible refine advanceTo_keeps (sub (by decide) hm) ?_
    | with_reducible refine keepsOut_next ?_
    | split

theorem execNbBeaconInterval_keeps {s0 s : State}  (hm : ([.boot, .host, .evt, .clk, .nb, .mlad, .cipher, .drawn, .out] : List Part).all pm = true) (hk : Keeps pm s0 s) :
    KeepsOut pm s0 (execNbBeaconInterval s) := by
  unfold execNbBeaconInterval
  try dsimp only
  repeat' first
    | with_reducible assumption
    | with_reducible refine onMlad_keeps (sub (by decide) hm) ?_
    | with_reducible refine pump_keeps (sub (by decide) hm) ?_
    | with_reducible refine putReq_keeps (sub (by decide) hm) ?_
    | with_reducible refine keeps_snd (takeCtr_keeps (sub (by decide) hm) ?_)
    | with_reducible refine onlyIf_keeps (sub (by decide) hm) ?_ (fun _ => ?_)
    | with_reducible refine keepsOut_next ?_
    | with_reducible refine keeps_foldl ?_ ?_
    | split
    | (intro _ _ _)

theorem resumeFloor_keeps {s0 s : State}  (hm : ([.nb, .mlad] : List Part).all pm = true) (hk : Keeps pm s0 s) :
    Keeps pm s0 (resumeFloor s) := by
  unfold resumeFloor
  try dsimp only
  repeat' first
    | with_reducible assumption
    | with_reducible refine jobRequest_keeps (sub (by decide) hm) ?_
    | with_reducible refine onJob_keeps (sub (by decide) hm) ?_
    | with_reducible refine wantFloor_keeps (sub (by decide) hm) ?_
    | with_reducible refine keeps_snd (takeCtr_keeps (sub (by decide) hm) ?_)
    | with_reducible refine keeps_foldl ?_ ?_
    | split
    | (intro _ _ _)

theorem execCtrFloorWriteDone_keeps {s0 s : State}  (hm : ([.boot, .host, .evt, .clk, .nb, .mlad, .cipher, .drawn, .out] : List Part).all pm = true) (hk : Keeps pm s0 s) :
    KeepsOut pm s0 (execCtrFloorWriteDone s) := by
  unfold execCtrFloorWriteDone
  try dsimp only
  repeat' first
    | with_reducible assumption
    | with_reducible refine onMlad_keeps (sub (by decide) hm) ?_
    | with_reducible refine resumeFloor_keeps (sub (by decide) hm) ?_
    | with_reducible refine pump_keeps (sub (by decide) hm) ?_
    | with_reducible refine onlyIf_keeps (sub (by decide) hm) ?_ (fun _ => ?_)
    | with_reducible refine mramWrite_keeps (sub (by decide) hm) ?_
    | with_reducible refine keepsOut_next ?_

theorem execHeldStoreMoveDone_keeps {s0 s : State}  (hm : ([.mlad] : List Part).all pm = true) (hk : Keeps pm s0 s) :
    KeepsOut pm s0 (execHeldStoreMoveDone s) := by
  unfold execHeldStoreMoveDone
  try dsimp only
  repeat' first
    | with_reducible assumption
    | with_reducible refine onMlad_keeps (sub (by decide) hm) ?_
    | with_reducible refine onlyIf_keeps (sub (by decide) hm) ?_ (fun _ => ?_)
    | with_reducible refine keepsOut_next ?_

theorem specNodeAdd_keeps {s0 s : State} {c : Cmd} (hm : ([.air, .mlad] : List Part).all pm = true) (h : Keeps pm s0 s) : KeepsP pm s0 (specNodeAdd.body c s) := by
  simp only [specNodeAdd]
  repeat' first
    | with_reducible assumption
    | with_reducible refine onMlad_keeps (sub (by decide) hm) ?_
    | with_reducible refine keepsP_mk ?_
    | split

theorem execNodeAdd_keeps {s0 s : State} {d : Doorbell} {p : List Byte} (hm : ([.boot, .mbx, .host, .evt, .modes, .flt, .clk, .air, .mlad, .ring, .out] : List Part).all pm = true) (hk : Keeps pm s0 s) :
    KeepsOut pm s0 (execNodeAdd d p s) := by
  unfold execNodeAdd
  try dsimp only
  repeat' first
    | with_reducible assumption
    | (refine command_keeps (sub (by decide) hm) ?_ (fun _ _ hh => specNodeAdd_keeps (sub (by decide) hm) hh))

theorem dropReqs_keeps {s0 s : State} {node : Nat} (hm : ([.nb] : List Part).all pm = true) (hk : Keeps pm s0 s) :
    Keeps pm s0 (dropReqs node s) := by
  unfold dropReqs
  try dsimp only
  repeat' first
    | with_reducible assumption
    | with_reducible refine onNb_keeps (sub (by decide) hm) ?_

theorem specNodeRemove_keeps {s0 s : State} {c : Cmd} (hm : ([.boot, .host, .evt, .clk, .nb, .mlad, .cipher, .drawn, .out] : List Part).all pm = true) (h : Keeps pm s0 s) : KeepsP pm s0 (specNodeRemove.body c s) := by
  simp only [specNodeRemove]
  repeat' first
    | with_reducible assumption
    | with_reducible refine onMlad_keeps (sub (by decide) hm) ?_
    | with_reducible refine dropReqs_keeps (sub (by decide) hm) ?_
    | with_reducible refine unhold_keeps (sub (by decide) hm) ?_
    | with_reducible refine pump_keeps (sub (by decide) hm) ?_
    | with_reducible refine failJob_keeps (sub (by decide) hm) ?_
    | with_reducible refine dropHeld_keeps (sub (by decide) hm) ?_
    | with_reducible refine keepsP_mk ?_
    | with_reducible refine keeps_foldl ?_ ?_
    | split
    | (intro _ _ _)

theorem execNodeRemove_keeps {s0 s : State} {d : Doorbell} {p : List Byte} (hm : ([.boot, .mbx, .host, .evt, .modes, .flt, .clk, .nb, .mlad, .cipher, .ring, .drawn, .out] : List Part).all pm = true) (hk : Keeps pm s0 s) :
    KeepsOut pm s0 (execNodeRemove d p s) := by
  unfold execNodeRemove
  try dsimp only
  repeat' first
    | with_reducible assumption
    | (refine command_keeps (sub (by decide) hm) ?_ (fun _ _ hh => specNodeRemove_keeps (sub (by decide) hm) hh))

theorem specNodeGet_keeps {s0 s : State} {c : Cmd} (hm : ([.air] : List Part).all pm = true) (h : Keeps pm s0 s) : KeepsP pm s0 (specNodeGet.body c s) := by
  simp only [specNodeGet]
  repeat' first
    | with_reducible assumption
    | with_reducible refine keepsP_mk ?_
    | split

theorem execNodeGet_keeps {s0 s : State} {d : Doorbell} {p : List Byte} (hm : ([.boot, .mbx, .host, .evt, .modes, .flt, .clk, .air, .ring, .out] : List Part).all pm = true) (hk : Keeps pm s0 s) :
    KeepsOut pm s0 (execNodeGet d p s) := by
  unfold execNodeGet
  try dsimp only
  repeat' first
    | with_reducible assumption
    | (refine command_keeps (sub (by decide) hm) ?_ (fun _ _ hh => specNodeGet_keeps (sub (by decide) hm) hh))

theorem specNbSend_keeps {s0 s : State} {c : Cmd} (hm : ([.boot, .host, .evt, .clk, .nb, .mlad, .cipher, .drawn, .out] : List Part).all pm = true) (h : Keeps pm s0 s) : KeepsP pm s0 (specNbSend.body c s) := by
  simp only [specNbSend]
  repeat' first
    | with_reducible assumption
    | with_reducible refine keeps_snd2 (nbSend_keeps (sub (by decide) hm) ?_)
    | with_reducible refine keepsP_mk ?_
    | split

theorem execNbSend_keeps {s0 s : State} {d : Doorbell} {p : List Byte} (hm : ([.boot, .mbx, .host, .evt, .modes, .flt, .clk, .nb, .mlad, .cipher, .ring, .drawn, .out] : List Part).all pm = true) (hk : Keeps pm s0 s) :
    KeepsOut pm s0 (execNbSend d p s) := by
  unfold execNbSend
  try dsimp only
  repeat' first
    | with_reducible assumption
    | (refine command_keeps (sub (by decide) hm) ?_ (fun _ _ hh => specNbSend_keeps (sub (by decide) hm) hh))

theorem specFloodConfig_keeps {s0 s : State} {c : Cmd} (hm : ([.mlad] : List Part).all pm = true) (h : Keeps pm s0 s) : KeepsP pm s0 (specFloodConfig.body c s) := by
  simp only [specFloodConfig]
  repeat' first
    | with_reducible assumption
    | with_reducible refine onMlad_keeps (sub (by decide) hm) ?_
    | with_reducible refine keepsP_mk ?_
    | split

theorem execFloodConfig_keeps {s0 s : State} {d : Doorbell} {p : List Byte} (hm : ([.boot, .mbx, .host, .evt, .modes, .flt, .clk, .mlad, .ring, .out] : List Part).all pm = true) (hk : Keeps pm s0 s) :
    KeepsOut pm s0 (execFloodConfig d p s) := by
  unfold execFloodConfig
  try dsimp only
  repeat' first
    | with_reducible assumption
    | (refine command_keeps (sub (by decide) hm) ?_ (fun _ _ hh => specFloodConfig_keeps (sub (by decide) hm) hh))

theorem specHeldStatus_keeps {s0 s : State} {c : Cmd} (hm : ([.mlad] : List Part).all pm = true) (h : Keeps pm s0 s) : KeepsP pm s0 (specHeldStatus.body c s) := by
  simp only [specHeldStatus]
  repeat' first
    | with_reducible assumption
    | with_reducible refine onMlad_keeps (sub (by decide) hm) ?_
    | with_reducible refine keepsP_mk ?_
    | split

theorem execHeldStatus_keeps {s0 s : State} {d : Doorbell} {p : List Byte} (hm : ([.boot, .mbx, .host, .evt, .modes, .flt, .clk, .mlad, .ring, .out] : List Part).all pm = true) (hk : Keeps pm s0 s) :
    KeepsOut pm s0 (execHeldStatus d p s) := by
  unfold execHeldStatus
  try dsimp only
  repeat' first
    | with_reducible assumption
    | (refine command_keeps (sub (by decide) hm) ?_ (fun _ _ hh => specHeldStatus_keeps (sub (by decide) hm) hh))

end Sys2Proof.Machine
end

