-- ==== Sys2Proof/Laws/KeepColBase.lean ====
section
/-!
SUPPORT. What the operations of Machine.ColBase keep.
-/
set_option linter.unusedSimpArgs false
set_option linter.unusedVariables false
namespace Sys2Proof.Machine

variable {pm : Part → Bool}

theorem countCol_keeps {s0 s : State} {i : Nat} {k : Nat} (hm : ([.col] : List Part).all pm = true) (hk : Keeps pm s0 s) :
    Keeps pm s0 (countCol i s k) := by
  unfold countCol
  try dsimp only
  repeat' first
    | with_reducible assumption
    | with_reducible refine onCol_keeps (sub (by decide) hm) ?_

theorem countCls_keeps {s0 s : State} {i : Nat} {k : Nat} (hm : ([.cls] : List Part).all pm = true) (hk : Keeps pm s0 s) :
    Keeps pm s0 (countCls i s k) := by
  unfold countCls
  try dsimp only
  repeat' first
    | with_reducible assumption
    | with_reducible refine onCls_keeps (sub (by decide) hm) ?_

theorem onTask_keeps {s0 s : State} {n : Nat} {f : Task → Task} (hm : ([.col] : List Part).all pm = true) (hk : Keeps pm s0 s) :
    Keeps pm s0 (onTask n f s) := by
  unfold onTask
  try dsimp only
  repeat' first
    | with_reducible assumption
    | with_reducible refine onCol_keeps (sub (by decide) hm) ?_
    | split

theorem traceRec_keeps {s0 s : State} {task core kind flags wait prio : Nat} (hm : ([.boot, .host, .evt, .clk, .col, .out] : List Part).all pm = true) (hk : Keeps pm s0 s) :
    Keeps pm s0 (traceRec task core kind flags wait prio s) := by
  unfold traceRec
  try dsimp only
  repeat' first
    | with_reducible assumption
    | with_reducible refine onCol_keeps (sub (by decide) hm) ?_
    | with_reducible refine countCol_keeps (sub (by decide) hm) ?_
    | with_reducible refine raise_keeps (sub (by decide) hm) ?_
    | split

theorem traceOpen_keeps {s0 s : State} {task core kind flags prio : Nat} (hm : ([.boot, .host, .evt, .clk, .col, .drawn, .out] : List Part).all pm = true) (hk : Keeps pm s0 s) :
    Keeps pm s0 (traceOpen task core kind flags prio s) := by
  unfold traceOpen
  try dsimp only
  repeat' first
    | with_reducible assumption
    | with_reducible refine keeps_snd (draw_keeps (sub (by decide) hm) ?_)
    | with_reducible refine traceRec_keeps (sub (by decide) hm) ?_

theorem colPacket_keeps {s0 s : State} {n : Nat} {p : ColPkt} (hm : ([.boot, .host, .evt, .clk, .cls, .tm, .col, .drawn, .out] : List Part).all pm = true) (hk : Keeps pm s0 s) :
    Keeps pm s0 (colPacket n p s) := by
  unfold colPacket
  try dsimp only
  repeat' first
    | with_reducible assumption
    | with_reducible refine keeps_snd (draw_keeps (sub (by decide) hm) ?_)
    | with_reducible refine traceOpen_keeps (sub (by decide) hm) ?_
    | with_reducible refine onTask_keeps (sub (by decide) hm) ?_
    | with_reducible refine countCls_keeps (sub (by decide) hm) ?_
    | with_reducible refine countCol_keeps (sub (by decide) hm) ?_
    | with_reducible refine noteLow_keeps (sub (by decide) hm) ?_
    | split

end Sys2Proof.Machine
end

