-- ==== Sys2Proof/Laws/KeepFwdTab.lean ====
section
/-!
SUPPORT. What the operations of Machine.FwdTab keep.
-/
set_option linter.unusedSimpArgs false
set_option linter.unusedVariables false
namespace Sys2Proof.Machine

variable {pm : Part → Bool}

theorem countFwd_keeps {s0 s : State} {i : Nat} {k : Nat} (hm : ([.fwd] : List Part).all pm = true) (hk : Keeps pm s0 s) :
    Keeps pm s0 (countFwd i s k) := by
  unfold countFwd
  try dsimp only
  repeat' first
    | with_reducible assumption
    | with_reducible refine onFwd_keeps (sub (by decide) hm) ?_

theorem l2Place_keeps {s0 s : State} {e : L2e} (hm : ([.fwd] : List Part).all pm = true) (hk : Keeps pm s0 s) :
    KeepsO pm s0 (l2Place e s) := by
  unfold l2Place
  try dsimp only
  repeat' first
    | with_reducible assumption
    | with_reducible refine onFwd_keeps (sub (by decide) hm) ?_
    | with_reducible exact keepsO_none
    | with_reducible refine keepsO_map ?_
    | split
    | (intro _ _)

theorem forgetSrc_keeps {s0 s : State} {mac vid : Nat} (hm : ([.fwd] : List Part).all pm = true) (hk : Keeps pm s0 s) :
    Keeps pm s0 (forgetSrc mac vid s) := by
  unfold forgetSrc
  try dsimp only
  repeat' first
    | with_reducible assumption
    | with_reducible refine onFwd_keeps (sub (by decide) hm) ?_

theorem l2Set_keeps {s0 s : State} {b i : Nat} {e : L2e} (hm : ([.fwd] : List Part).all pm = true) (hk : Keeps pm s0 s) :
    Keeps pm s0 (l2Set b i e s) := by
  unfold l2Set
  try dsimp only
  repeat' first
    | with_reducible assumption
    | with_reducible refine onFwd_keeps (sub (by decide) hm) ?_
    | with_reducible refine forgetSrc_keeps (sub (by decide) hm) ?_

theorem l2Del_keeps {s0 s : State} {b i : Nat} {e : L2e} (hm : ([.fwd] : List Part).all pm = true) (hk : Keeps pm s0 s) :
    Keeps pm s0 (l2Del b i e s) := by
  unfold l2Del
  try dsimp only
  repeat' first
    | with_reducible assumption
    | with_reducible refine onFwd_keeps (sub (by decide) hm) ?_
    | with_reducible refine forgetSrc_keeps (sub (by decide) hm) ?_

theorem sendUpdate_keeps {s0 s : State} {op : Nat} {par : List Byte} (hm : ([.fwd, .ring] : List Part).all pm = true) (hk : Keeps pm s0 s) :
    Keeps pm s0 (sendUpdate op par s) := by
  unfold sendUpdate
  try dsimp only
  repeat' first
    | with_reducible assumption
    | with_reducible refine countFwd_keeps (sub (by decide) hm) ?_
    | with_reducible refine ringSend_keeps (sub (by decide) hm) ?_
    | split

theorem announce_keeps {s0 s : State} {op : Nat} {e : L2e} (hm : ([.ring] : List Part).all pm = true) (hk : Keeps pm s0 s) :
    Keeps pm s0 (announce op e s) := by
  unfold announce
  try dsimp only
  repeat' first
    | with_reducible assumption
    | with_reducible refine ringSend_keeps (sub (by decide) hm) ?_
    | split

theorem cacheSrc_keeps {s0 s : State} {h : SrcHit} (hm : ([.fwd] : List Part).all pm = true) (hk : Keeps pm s0 s) :
    Keeps pm s0 (cacheSrc h s) := by
  unfold cacheSrc
  try dsimp only
  repeat' first
    | with_reducible assumption
    | with_reducible refine onFwd_keeps (sub (by decide) hm) ?_
    | split

theorem learnAs_keeps {s0 s : State} {mac vid type dest : Nat} {remote : Bool} (hm : ([.boot, .host, .evt, .clk, .fwd, .ring, .out] : List Part).all pm = true) (hk : Keeps pm s0 s) :
    Keeps pm s0 (learnAs mac vid type dest remote s) := by
  unfold learnAs
  try dsimp only
  repeat' first
    | with_reducible assumption
    | with_reducible refine onFwd_keeps (sub (by decide) hm) ?_
    | with_reducible refine cacheSrc_keeps (sub (by decide) hm) ?_
    | with_reducible refine announce_keeps (sub (by decide) hm) ?_
    | with_reducible refine l2Set_keeps (sub (by decide) hm) ?_
    | with_reducible refine forgetSrc_keeps (sub (by decide) hm) ?_
    | with_reducible refine l2Place_keeps (sub (by decide) hm) ?_
    | with_reducible refine countFwd_keeps (sub (by decide) hm) ?_
    | with_reducible refine raise_keeps (sub (by decide) hm) ?_
    | (with_reducible refine keeps_of_some ?_ (by assumption))
    | split

theorem learn_keeps {s0 s : State} {mac vid src srcId : Nat} (hm : ([.boot, .host, .evt, .clk, .fwd, .ring, .out] : List Part).all pm = true) (hk : Keeps pm s0 s) :
    Keeps pm s0 (learn mac vid src srcId s) := by
  unfold learn
  try dsimp only
  repeat' first
    | with_reducible assumption
    | with_reducible refine learnAs_keeps (sub (by decide) hm) ?_
    | split

theorem onRouteTab_keeps {s0 s : State} {f : Nat} {g : Tab (Bucket Route) → Tab (Bucket Route)} (hm : ([.fwd] : List Part).all pm = true) (hk : Keeps pm s0 s) :
    Keeps pm s0 (onRouteTab f g s) := by
  unfold onRouteTab
  try dsimp only
  repeat' first
    | with_reducible assumption
    | with_reducible refine onFwd_keeps (sub (by decide) hm) ?_

theorem routePut_keeps {s0 s : State} {f : Nat} {r : Route} (hm : ([.fwd] : List Part).all pm = true) (hk : Keeps pm s0 s) :
    KeepsO pm s0 (routePut f r s) := by
  unfold routePut
  try dsimp only
  repeat' first
    | with_reducible assumption
    | with_reducible refine onFwd_keeps (sub (by decide) hm) ?_
    | with_reducible refine onRouteTab_keeps (sub (by decide) hm) ?_
    | with_reducible exact keepsO_none
    | with_reducible refine keepsO_some ?_
    | with_reducible refine keepsO_map ?_
    | split
    | (intro _ _)

theorem routeDel_keeps {s0 s : State} {f plen pre : Nat} (hm : ([.fwd] : List Part).all pm = true) (hk : Keeps pm s0 s) :
    Keeps pm s0 (routeDel f plen pre s) := by
  unfold routeDel
  try dsimp only
  repeat' first
    | with_reducible assumption
    | with_reducible refine onFwd_keeps (sub (by decide) hm) ?_
    | with_reducible refine onRouteTab_keeps (sub (by decide) hm) ?_
    | split

theorem routeLookup_keeps {s0 s : State} {f a : Nat} (hm : ([.fwd] : List Part).all pm = true) (hk : Keeps pm s0 s) :
    KeepsP pm s0 (routeLookup f a s) := by
  unfold routeLookup
  try dsimp only
  repeat' first
    | with_reducible assumption
    | with_reducible refine countFwd_keeps (sub (by decide) hm) ?_
    | with_reducible refine keepsP_mk ?_
    | split

end Sys2Proof.Machine
end

