-- ==== Sys2Proof/Laws/KeepForward.lean ====
section
/-!
SUPPORT. What the operations of Machine.Forward keep.
-/
set_option linter.unusedSimpArgs false
set_option linter.unusedVariables false
namespace Sys2Proof.Machine

variable {pm : Part → Bool}

theorem toHostRing_keeps {s0 s : State} {ring reason : Nat} {x : Fwded} {bytes : List Byte} (hm : ([.host, .tm] : List Part).all pm = true) (hk : Keeps pm s0 s) :
    Keeps pm s0 (toHostRing ring reason x bytes s) := by
  unfold toHostRing
  try dsimp only
  repeat' first
    | with_reducible assumption
    | with_reducible refine hostQueue_keeps (sub (by decide) hm) ?_

theorem toWire_keeps {s0 s : State} {port vid : Nat} {x : Fwded} {b : List Byte} (hm : ([.tm, .dram] : List Part).all pm = true) (hk : Keeps pm s0 s) :
    Keeps pm s0 (toWire port vid x b s) := by
  unfold toWire
  try dsimp only
  repeat' first
    | with_reducible assumption
    | with_reducible refine enqPort_keeps (sub (by decide) hm) ?_

theorem toRing_keeps {s0 s : State} {dst tc : Nat} {b : List Byte} (hm : ([.tm, .dram, .ring] : List Part).all pm = true) (hk : Keeps pm s0 s) :
    Keeps pm s0 (toRing dst tc b s) := by
  unfold toRing
  try dsimp only
  repeat' first
    | with_reducible assumption
    | with_reducible refine onRing_keeps (sub (by decide) hm) ?_
    | with_reducible refine enqPort_keeps (sub (by decide) hm) ?_
    | split

theorem toGroup_keeps {s0 s : State} {b bss : Nat} {x : Fwded} {bytes : List Byte} (hm : ([.air, .tm] : List Part).all pm = true) (hk : Keeps pm s0 s) :
    Keeps pm s0 (toGroup b bss x bytes s) := by
  unfold toGroup
  try dsimp only
  repeat' first
    | with_reducible assumption
    | with_reducible refine onAB_keeps (sub (by decide) hm) ?_
    | with_reducible refine noteLow_keeps (sub (by decide) hm) ?_
    | split

theorem flood_keeps {s0 s : State} {n : NextHop} {vid : Nat} {x : Fwded} {b : List Byte} (hm : ([.host, .air, .tm, .dram, .ring] : List Part).all pm = true) (hk : Keeps pm s0 s) :
    Keeps pm s0 (flood n vid x b s) := by
  unfold flood
  try dsimp only
  repeat' first
    | with_reducible assumption
    | with_reducible refine toGroup_keeps (sub (by decide) hm) ?_
    | with_reducible refine toRing_keeps (sub (by decide) hm) ?_
    | with_reducible refine toWire_keeps (sub (by decide) hm) ?_
    | with_reducible refine toHostRing_keeps (sub (by decide) hm) ?_
    | with_reducible refine keeps_foldl ?_ ?_
    | split
    | (intro _ _ _)

theorem deliverTo_keeps {s0 s : State} {type dest vid : Nat} {x : Fwded} {b : List Byte} (hm : ([.host, .air, .tm, .dram, .ring] : List Part).all pm = true) (hk : Keeps pm s0 s) :
    Keeps pm s0 (deliverTo type dest vid x b s) := by
  unfold deliverTo
  try dsimp only
  repeat' first
    | with_reducible assumption
    | with_reducible refine toRing_keeps (sub (by decide) hm) ?_
    | with_reducible refine toWire_keeps (sub (by decide) hm) ?_
    | with_reducible refine toHostRing_keeps (sub (by decide) hm) ?_
    | with_reducible refine toSta_keeps (sub (by decide) hm) ?_
    | split

theorem deliverNh_keeps {s0 s : State} {n : NextHop} {vid : Nat} {x : Fwded} {b : List Byte} (hm : ([.host, .air, .tm, .dram, .ring] : List Part).all pm = true) (hk : Keeps pm s0 s) :
    Keeps pm s0 (deliverNh n vid x b s) := by
  unfold deliverNh
  try dsimp only
  repeat' first
    | with_reducible assumption
    | with_reducible refine deliverTo_keeps (sub (by decide) hm) ?_
    | with_reducible refine flood_keeps (sub (by decide) hm) ?_
    | split

theorem viaZero_keeps {s0 s : State} {x : Fwded} (hm : ([.host, .tm] : List Part).all pm = true) (hk : Keeps pm s0 s) :
    Keeps pm s0 (viaZero x s) := by
  unfold viaZero
  try dsimp only
  repeat' first
    | with_reducible assumption
    | with_reducible refine toHostRing_keeps (sub (by decide) hm) ?_
    | split

theorem bridge_keeps {s0 s : State} {type dest vid : Nat} {x : Fwded} (hm : ([.host, .air, .fwd, .tm, .dram, .ring] : List Part).all pm = true) (hk : Keeps pm s0 s) :
    Keeps pm s0 (bridge type dest vid x s) := by
  unfold bridge
  try dsimp only
  repeat' first
    | with_reducible assumption
    | with_reducible refine deliverNh_keeps (sub (by decide) hm) ?_
    | with_reducible refine deliverTo_keeps (sub (by decide) hm) ?_
    | with_reducible refine countFwd_keeps (sub (by decide) hm) ?_
    | split

theorem routePkt_keeps {s0 s : State} {x : Fwded} (hm : ([.host, .air, .fwd, .tm, .dram, .ring] : List Part).all pm = true) (hk : Keeps pm s0 s) :
    Keeps pm s0 (routePkt x s) := by
  unfold routePkt
  try dsimp only
  repeat' first
    | with_reducible assumption
    | with_reducible refine viaZero_keeps (sub (by decide) hm) ?_
    | with_reducible refine deliverNh_keeps (sub (by decide) hm) ?_
    | with_reducible refine routeLookup_keeps (sub (by decide) hm) ?_
    | with_reducible refine countFwd_keeps (sub (by decide) hm) ?_
    | (with_reducible refine keeps_of_eq ?_ (by assumption))
    | split

theorem forward_keeps {s0 s : State} {x : Fwded} (hm : ([.boot, .host, .evt, .clk, .air, .fwd, .tm, .dram, .ring, .out] : List Part).all pm = true) (hk : Keeps pm s0 s) :
    Keeps pm s0 (forward x s) := by
  unfold forward
  try dsimp only
  repeat' first
    | with_reducible assumption
    | with_reducible refine routePkt_keeps (sub (by decide) hm) ?_
    | with_reducible refine bridge_keeps (sub (by decide) hm) ?_
    | with_reducible refine deliverNh_keeps (sub (by decide) hm) ?_
    | with_reducible refine learn_keeps (sub (by decide) hm) ?_
    | with_reducible refine countFwd_keeps (sub (by decide) hm) ?_
    | split

theorem udpIn_keeps {s0 s : State} {x : Fwded} (hm : ([.boot, .host, .evt, .clk, .nb, .mlad, .cipher, .drawn, .out] : List Part).all pm = true) (hk : Keeps pm s0 s) :
    Keeps pm s0 (udpIn x s) := by
  unfold udpIn
  try dsimp only
  repeat' first
    | with_reducible assumption
    | with_reducible refine keeps_snd2 (nbSend_keeps (sub (by decide) hm) ?_)
    | with_reducible refine countMlad_keeps (sub (by decide) hm) ?_
    | split

theorem forwardOrNb_keeps {s0 s : State} {x : Fwded} (hm : ([.boot, .host, .evt, .clk, .air, .nb, .mlad, .fwd, .tm, .cipher, .dram, .ring, .drawn, .out] : List Part).all pm = true) (hk : Keeps pm s0 s) :
    Keeps pm s0 (forwardOrNb x s) := by
  unfold forwardOrNb
  try dsimp only
  repeat' first
    | with_reducible assumption
    | with_reducible refine udpIn_keeps (sub (by decide) hm) ?_
    | with_reducible refine forward_keeps (sub (by decide) hm) ?_
    | split

end Sys2Proof.Machine
end

