-- ==== Sys2Proof/Laws/KeepClassify.lean ====
section
/-!
SUPPORT. What the operations of Machine.Classify keep.
-/
set_option linter.unusedSimpArgs false
set_option linter.unusedVariables false
namespace Sys2Proof.Machine

variable {pm : Part → Bool}

theorem police_keeps {s0 s : State} {n : Nat} (hm : ([.cls] : List Part).all pm = true) (hk : Keeps pm s0 s) :
    KeepsP pm s0 (police n s) := by
  unfold police
  try dsimp only
  repeat' first
    | with_reducible assumption
    | with_reducible refine onCls_keeps (sub (by decide) hm) ?_
    | with_reducible refine keepsP_mk ?_
    | split

theorem exception_keeps {s0 s : State} {x : Fwded} (hm : ([.boot, .host, .evt, .clk, .cls, .tm, .col, .drawn, .out] : List Part).all pm = true) (hk : Keeps pm s0 s) :
    Keeps pm s0 (exception x s) := by
  unfold exception
  try dsimp only
  repeat' first
    | with_reducible assumption
    | with_reducible refine toHostRing_keeps (sub (by decide) hm) ?_
    | with_reducible refine colPacket_keeps (sub (by decide) hm) ?_
    | with_reducible refine countCls_keeps (sub (by decide) hm) ?_
    | split

theorem act_keeps {s0 s : State} {r : Rule} {x : Fwded} (hm : ([.boot, .host, .evt, .clk, .air, .nb, .mlad, .cls, .fwd, .tm, .cipher, .col, .dram, .ring, .drawn, .out] : List Part).all pm = true) (hk : Keeps pm s0 s) :
    Keeps pm s0 (act r x s) := by
  unfold act
  try dsimp only
  repeat' first
    | with_reducible assumption
    | with_reducible refine forwardOrNb_keeps (sub (by decide) hm) ?_
    | with_reducible refine toHostRing_keeps (sub (by decide) hm) ?_
    | with_reducible refine colPacket_keeps (sub (by decide) hm) ?_
    | with_reducible refine countCls_keeps (sub (by decide) hm) ?_
    | with_reducible refine bfEnter_keeps (sub (by decide) hm) ?_
    | split

theorem classify_keeps {s0 s : State} {p : Pkt} (hm : ([.boot, .mbx, .host, .evt, .modes, .clk, .air, .nb, .mlad, .cls, .fwd, .tm, .cipher, .col, .dram, .ring, .drawn, .out] : List Part).all pm = true) (hk : Keeps pm s0 s) :
    Keeps pm s0 (classify p s) := by
  unfold classify
  try dsimp only
  repeat' first
    | with_reducible assumption
    | with_reducible refine onCls_keeps (sub (by decide) hm) ?_
    | with_reducible refine act_keeps (sub (by decide) hm) ?_
    | with_reducible refine exception_keeps (sub (by decide) hm) ?_
    | with_reducible refine police_keeps (sub (by decide) hm) ?_
    | with_reducible refine forwardOrNb_keeps (sub (by decide) hm) ?_
    | with_reducible refine countCls_keeps (sub (by decide) hm) ?_
    | with_reducible refine wakeSource_keeps (sub (by decide) hm) ?_
    | (with_reducible refine keeps_of_eq ?_ (by assumption))
    | split

theorem skipMatch_keeps {s0 s : State}  (hm : ([.boot, .host, .evt, .clk, .cls, .out] : List Part).all pm = true) (hk : Keeps pm s0 s) :
    Keeps pm s0 (skipMatch s) := by
  unfold skipMatch
  try dsimp only
  repeat' first
    | with_reducible assumption
    | with_reducible refine onCls_keeps (sub (by decide) hm) ?_
    | with_reducible refine countCls_keeps (sub (by decide) hm) ?_
    | with_reducible refine raise_keeps (sub (by decide) hm) ?_
    | split

theorem ingress_keeps {s0 s : State} {p : Pkt} (hm : ([.boot, .mbx, .host, .evt, .modes, .clk, .air, .nb, .mlad, .cls, .fwd, .tm, .cipher, .col, .dram, .ring, .drawn, .out] : List Part).all pm = true) (hk : Keeps pm s0 s) :
    Keeps pm s0 (ingress p s) := by
  unfold ingress
  try dsimp only
  repeat' first
    | with_reducible assumption
    | with_reducible refine onCls_keeps (sub (by decide) hm) ?_
    | with_reducible refine skipMatch_keeps (sub (by decide) hm) ?_
    | with_reducible refine classify_keeps (sub (by decide) hm) ?_
    | with_reducible refine countCls_keeps (sub (by decide) hm) ?_
    | with_reducible refine keeps_foldl ?_ ?_
    | split
    | (intro _ _ _)

theorem execEthFrameReceived_keeps {s0 s : State} {src srcId tid : Nat} {bytes : List Byte} {t : Nat} (hm : ([.boot, .mbx, .host, .evt, .modes, .cad, .clk, .air, .nb, .mlad, .cls, .fwd, .tm, .cipher, .col, .dram, .ring, .drawn, .out] : List Part).all pm = true) (hk : Keeps pm s0 s) :
    KeepsOut pm s0 (execEthFrameReceived src srcId tid bytes t s) := by
  unfold execEthFrameReceived
  try dsimp only
  repeat' first
    | with_reducible assumption
    | with_reducible refine onCls_keeps (sub (by decide) hm) ?_
    | with_reducible refine ingress_keeps (sub (by decide) hm) ?_
    | with_reducible refine onlyIf_keeps (sub (by decide) hm) ?_ (fun _ => ?_)
    | with_reducible refine advanceTo_keeps (sub (by decide) hm) ?_
    | with_reducible refine keepsOut_next ?_
    | split

theorem execPayloadMatchDone_keeps {s0 s : State}  (hm : ([.boot, .mbx, .host, .evt, .modes, .clk, .air, .nb, .mlad, .cls, .fwd, .tm, .cipher, .col, .dram, .ring, .drawn, .out] : List Part).all pm = true) (hk : Keeps pm s0 s) :
    KeepsOut pm s0 (execPayloadMatchDone s) := by
  unfold execPayloadMatchDone
  try dsimp only
  repeat' first
    | with_reducible assumption
    | with_reducible refine onCls_keeps (sub (by decide) hm) ?_
    | with_reducible refine classify_keeps (sub (by decide) hm) ?_
    | with_reducible refine onlyIf_keeps (sub (by decide) hm) ?_ (fun _ => ?_)
    | with_reducible refine keepsOut_next ?_
    | split

theorem specParseConfig_keeps {s0 s : State} {c : Cmd} (hm : ([.cls] : List Part).all pm = true) (h : Keeps pm s0 s) : KeepsP pm s0 (specParseConfig.body c s) := by
  simp only [specParseConfig]
  repeat' first
    | with_reducible assumption
    | with_reducible refine onCls_keeps (sub (by decide) hm) ?_
    | with_reducible refine keepsP_mk ?_
    | split

theorem execParseConfig_keeps {s0 s : State} {d : Doorbell} {p : List Byte} (hm : ([.boot, .mbx, .host, .evt, .modes, .flt, .clk, .cls, .ring, .out] : List Part).all pm = true) (hk : Keeps pm s0 s) :
    KeepsOut pm s0 (execParseConfig d p s) := by
  unfold execParseConfig
  try dsimp only
  repeat' first
    | with_reducible assumption
    | (refine command_keeps (sub (by decide) hm) ?_ (fun _ _ hh => specParseConfig_keeps (sub (by decide) hm) hh))

theorem specRuleWrite_keeps {s0 s : State} {c : Cmd} (hm : ([.cls] : List Part).all pm = true) (h : Keeps pm s0 s) : KeepsP pm s0 (specRuleWrite.body c s) := by
  simp only [specRuleWrite]
  repeat' first
    | with_reducible assumption
    | with_reducible refine onCls_keeps (sub (by decide) hm) ?_
    | with_reducible refine keepsP_mk ?_
    | split

theorem execRuleWrite_keeps {s0 s : State} {d : Doorbell} {p : List Byte} (hm : ([.boot, .mbx, .host, .evt, .modes, .flt, .clk, .cls, .ring, .out] : List Part).all pm = true) (hk : Keeps pm s0 s) :
    KeepsOut pm s0 (execRuleWrite d p s) := by
  unfold execRuleWrite
  try dsimp only
  repeat' first
    | with_reducible assumption
    | (refine command_keeps (sub (by decide) hm) ?_ (fun _ _ hh => specRuleWrite_keeps (sub (by decide) hm) hh))

theorem specRuleClear_keeps {s0 s : State} {c : Cmd} (hm : ([.cls] : List Part).all pm = true) (h : Keeps pm s0 s) : KeepsP pm s0 (specRuleClear.body c s) := by
  simp only [specRuleClear]
  repeat' first
    | with_reducible assumption
    | with_reducible refine onCls_keeps (sub (by decide) hm) ?_
    | with_reducible refine keepsP_mk ?_
    | split

theorem execRuleClear_keeps {s0 s : State} {d : Doorbell} {p : List Byte} (hm : ([.boot, .mbx, .host, .evt, .modes, .flt, .clk, .cls, .ring, .out] : List Part).all pm = true) (hk : Keeps pm s0 s) :
    KeepsOut pm s0 (execRuleClear d p s) := by
  unfold execRuleClear
  try dsimp only
  repeat' first
    | with_reducible assumption
    | (refine command_keeps (sub (by decide) hm) ?_ (fun _ _ hh => specRuleClear_keeps (sub (by decide) hm) hh))

theorem specRangeSet_keeps {s0 s : State} {c : Cmd} (hm : ([.cls] : List Part).all pm = true) (h : Keeps pm s0 s) : KeepsP pm s0 (specRangeSet.body c s) := by
  simp only [specRangeSet]
  repeat' first
    | with_reducible assumption
    | with_reducible refine onCls_keeps (sub (by decide) hm) ?_
    | with_reducible refine keepsP_mk ?_
    | split

theorem execRangeSet_keeps {s0 s : State} {d : Doorbell} {p : List Byte} (hm : ([.boot, .mbx, .host, .evt, .modes, .flt, .clk, .cls, .ring, .out] : List Part).all pm = true) (hk : Keeps pm s0 s) :
    KeepsOut pm s0 (execRangeSet d p s) := by
  unfold execRangeSet
  try dsimp only
  repeat' first
    | with_reducible assumption
    | (refine command_keeps (sub (by decide) hm) ?_ (fun _ _ hh => specRangeSet_keeps (sub (by decide) hm) hh))

theorem specPatternWrite_keeps {s0 s : State} {c : Cmd} (hm : ([.cls] : List Part).all pm = true) (h : Keeps pm s0 s) : KeepsP pm s0 (specPatternWrite.body c s) := by
  simp only [specPatternWrite]
  repeat' first
    | with_reducible assumption
    | with_reducible refine onCls_keeps (sub (by decide) hm) ?_
    | with_reducible refine keepsP_mk ?_
    | split

theorem execPatternWrite_keeps {s0 s : State} {d : Doorbell} {p : List Byte} (hm : ([.boot, .mbx, .host, .evt, .modes, .flt, .clk, .cls, .ring, .out] : List Part).all pm = true) (hk : Keeps pm s0 s) :
    KeepsOut pm s0 (execPatternWrite d p s) := by
  unfold execPatternWrite
  try dsimp only
  repeat' first
    | with_reducible assumption
    | (refine command_keeps (sub (by decide) hm) ?_ (fun _ _ hh => specPatternWrite_keeps (sub (by decide) hm) hh))

theorem specPolicerSet_keeps {s0 s : State} {c : Cmd} (hm : ([.cls] : List Part).all pm = true) (h : Keeps pm s0 s) : KeepsP pm s0 (specPolicerSet.body c s) := by
  simp only [specPolicerSet]
  repeat' first
    | with_reducible assumption
    | with_reducible refine onCls_keeps (sub (by decide) hm) ?_
    | with_reducible refine keepsP_mk ?_
    | split

theorem execPolicerSet_keeps {s0 s : State} {d : Doorbell} {p : List Byte} (hm : ([.boot, .mbx, .host, .evt, .modes, .flt, .clk, .cls, .ring, .out] : List Part).all pm = true) (hk : Keeps pm s0 s) :
    KeepsOut pm s0 (execPolicerSet d p s) := by
  unfold execPolicerSet
  try dsimp only
  repeat' first
    | with_reducible assumption
    | (refine command_keeps (sub (by decide) hm) ?_ (fun _ _ hh => specPolicerSet_keeps (sub (by decide) hm) hh))

theorem specClassStats_keeps {s0 s : State} {c : Cmd} (hm : ([.cls] : List Part).all pm = true) (h : Keeps pm s0 s) : KeepsP pm s0 (specClassStats.body c s) := by
  simp only [specClassStats]
  repeat' first
    | with_reducible assumption
    | with_reducible refine onCls_keeps (sub (by decide) hm) ?_
    | with_reducible refine keepsP_mk ?_
    | split

theorem execClassStats_keeps {s0 s : State} {d : Doorbell} {p : List Byte} (hm : ([.boot, .mbx, .host, .evt, .modes, .flt, .clk, .cls, .ring, .out] : List Part).all pm = true) (hk : Keeps pm s0 s) :
    KeepsOut pm s0 (execClassStats d p s) := by
  unfold execClassStats
  try dsimp only
  repeat' first
    | with_reducible assumption
    | (refine command_keeps (sub (by decide) hm) ?_ (fun _ _ hh => specClassStats_keeps (sub (by decide) hm) hh))

end Sys2Proof.Machine
end

