-- ==== Sys2Proof/Laws/KeepFwdCmds.lean ====
section
/-!
SUPPORT. What the operations of Machine.FwdCmds keep.
-/
set_option linter.unusedSimpArgs false
set_option linter.unusedVariables false
namespace Sys2Proof.Machine

variable {pm : Part → Bool}

theorem visit_keeps {s0 s : State} {b i : Nat} {e : L2e} (hm : ([.fwd, .ring] : List Part).all pm = true) (hk : Keeps pm s0 s) :
    Keeps pm s0 (visit s b i e) := by
  unfold visit
  try dsimp only
  repeat' first
    | with_reducible assumption
    | with_reducible refine onFwd_keeps (sub (by decide) hm) ?_
    | with_reducible refine announce_keeps (sub (by decide) hm) ?_
    | with_reducible refine l2Del_keeps (sub (by decide) hm) ?_
    | with_reducible refine countFwd_keeps (sub (by decide) hm) ?_
    | split

theorem execAgingVisit_keeps {s0 s : State} {bucket : Nat} (hm : ([.fwd, .ring] : List Part).all pm = true) (hk : Keeps pm s0 s) :
    KeepsOut pm s0 (execAgingVisit bucket s) := by
  unfold execAgingVisit
  try dsimp only
  repeat' first
    | with_reducible assumption
    | with_reducible refine onFwd_keeps (sub (by decide) hm) ?_
    | with_reducible refine visit_keeps (sub (by decide) hm) ?_
    | with_reducible refine onlyIf_keeps (sub (by decide) hm) ?_ (fun _ => ?_)
    | with_reducible refine keepsOut_next ?_
    | with_reducible refine keeps_foldl ?_ ?_
    | split
    | (intro _ _ _)

theorem execFilterRebuildDone_keeps {s0 s : State}  (hm : ([.fwd] : List Part).all pm = true) (hk : Keeps pm s0 s) :
    KeepsOut pm s0 (execFilterRebuildDone s) := by
  unfold execFilterRebuildDone
  try dsimp only
  repeat' first
    | with_reducible assumption
    | with_reducible refine onFwd_keeps (sub (by decide) hm) ?_
    | with_reducible refine countFwd_keeps (sub (by decide) hm) ?_
    | with_reducible refine onlyIf_keeps (sub (by decide) hm) ?_ (fun _ => ?_)
    | with_reducible refine keepsOut_next ?_

theorem doL2Add_keeps {s0 s : State} {remote : Bool} {c : Cmd} (hm : ([.fwd] : List Part).all pm = true) (hk : Keeps pm s0 s) :
    KeepsP pm s0 (doL2Add remote c s) := by
  unfold doL2Add
  try dsimp only
  repeat' first
    | with_reducible assumption
    | with_reducible refine l2Set_keeps (sub (by decide) hm) ?_
    | with_reducible refine forgetSrc_keeps (sub (by decide) hm) ?_
    | with_reducible refine l2Place_keeps (sub (by decide) hm) ?_
    | with_reducible refine keepsP_mk ?_
    | (with_reducible refine keeps_of_some ?_ (by assumption))
    | split

theorem doL2Remove_keeps {s0 s : State} {remote : Bool} {c : Cmd} (hm : ([.fwd] : List Part).all pm = true) (hk : Keeps pm s0 s) :
    KeepsP pm s0 (doL2Remove remote c s) := by
  unfold doL2Remove
  try dsimp only
  repeat' first
    | with_reducible assumption
    | with_reducible refine l2Del_keeps (sub (by decide) hm) ?_
    | with_reducible refine keepsP_mk ?_
    | split

theorem routeAdd_keeps {s0 s : State} {remote : Bool} {r : RouteRec} (hm : ([.fwd] : List Part).all pm = true) (hk : Keeps pm s0 s) :
    KeepsP pm s0 (routeAdd remote r s) := by
  unfold routeAdd
  try dsimp only
  repeat' first
    | with_reducible assumption
    | with_reducible refine routePut_keeps (sub (by decide) hm) ?_
    | with_reducible refine keepsP_mk ?_
    | (with_reducible refine keeps_of_some ?_ (by assumption))
    | split

theorem routeRemove_keeps {s0 s : State} {remote : Bool} {r : RouteRec} (hm : ([.fwd] : List Part).all pm = true) (hk : Keeps pm s0 s) :
    KeepsP pm s0 (routeRemove remote r s) := by
  unfold routeRemove
  try dsimp only
  repeat' first
    | with_reducible assumption
    | with_reducible refine routeDel_keeps (sub (by decide) hm) ?_
    | with_reducible refine keepsP_mk ?_
    | split

theorem doNexthop_keeps {s0 s : State} {remote : Bool} {c : Cmd} (hm : ([.host, .air, .fwd, .tm, .dram, .ring] : List Part).all pm = true) (hk : Keeps pm s0 s) :
    KeepsP pm s0 (doNexthop remote c s) := by
  unfold doNexthop
  try dsimp only
  repeat' first
    | with_reducible assumption
    | with_reducible refine onFwd_keeps (sub (by decide) hm) ?_
    | with_reducible refine keepsP_mk ?_
    | split

theorem doEcmp_keeps {s0 s : State} {remote : Bool} {c : Cmd} (hm : ([.fwd] : List Part).all pm = true) (hk : Keeps pm s0 s) :
    KeepsP pm s0 (doEcmp remote c s) := by
  unfold doEcmp
  try dsimp only
  repeat' first
    | with_reducible assumption
    | with_reducible refine onFwd_keeps (sub (by decide) hm) ?_
    | with_reducible refine keepsP_mk ?_
    | split

theorem fwdAns_keeps {s0 : State} {c : Cmd} {sync : Bool} {r : FwdAns} (hm : ([.fwd, .ring] : List Part).all pm = true) (hk : KeepsP pm s0 r) : KeepsP pm s0 (fwdAns c sync r) := by
  unfold fwdAns
  split
  · exact hk
  · split
    · exact keepsP_mk (sendUpdate_keeps (sub (by decide) hm) hk)
    · exact hk

theorem specL2Add_keeps {s0 s : State} {c : Cmd} (hm : ([.fwd, .ring] : List Part).all pm = true) (h : Keeps pm s0 s) : KeepsP pm s0 (specL2Add.body c s) := by
  simp only [specL2Add]
  repeat' first
    | with_reducible assumption
    | with_reducible refine keeps_snd (fwdAns_keeps (sub (by decide) hm) ?_)
    | with_reducible refine doL2Add_keeps (sub (by decide) hm) ?_
    | with_reducible refine keepsP_mk ?_
    | split

theorem execL2Add_keeps {s0 s : State} {d : Doorbell} {p : List Byte} (hm : ([.boot, .mbx, .host, .evt, .modes, .flt, .clk, .fwd, .ring, .out] : List Part).all pm = true) (hk : Keeps pm s0 s) :
    KeepsOut pm s0 (execL2Add d p s) := by
  unfold execL2Add
  try dsimp only
  repeat' first
    | with_reducible assumption
    | (refine command_keeps (sub (by decide) hm) ?_ (fun _ _ hh => specL2Add_keeps (sub (by decide) hm) hh))

theorem specL2Remove_keeps {s0 s : State} {c : Cmd} (hm : ([.fwd, .ring] : List Part).all pm = true) (h : Keeps pm s0 s) : KeepsP pm s0 (specL2Remove.body c s) := by
  simp only [specL2Remove]
  repeat' first
    | with_reducible assumption
    | with_reducible refine keeps_snd (fwdAns_keeps (sub (by decide) hm) ?_)
    | with_reducible refine doL2Remove_keeps (sub (by decide) hm) ?_
    | with_reducible refine keepsP_mk ?_
    | split

theorem execL2Remove_keeps {s0 s : State} {d : Doorbell} {p : List Byte} (hm : ([.boot, .mbx, .host, .evt, .modes, .flt, .clk, .fwd, .ring, .out] : List Part).all pm = true) (hk : Keeps pm s0 s) :
    KeepsOut pm s0 (execL2Remove d p s) := by
  unfold execL2Remove
  try dsimp only
  repeat' first
    | with_reducible assumption
    | (refine command_keeps (sub (by decide) hm) ?_ (fun _ _ hh => specL2Remove_keeps (sub (by decide) hm) hh))

theorem specL2Flush_keeps {s0 s : State} {c : Cmd} (hm : ([] : List Part).all pm = true) (h : Keeps pm s0 s) : KeepsP pm s0 (specL2Flush.body c s) := by
  simp only [specL2Flush]
  repeat' first
    | with_reducible assumption
    | with_reducible refine keepsP_mk ?_
    | split

theorem execL2Flush_keeps {s0 s : State} {d : Doorbell} {p : List Byte} (hm : ([.boot, .mbx, .host, .evt, .modes, .flt, .clk, .ring, .out] : List Part).all pm = true) (hk : Keeps pm s0 s) :
    KeepsOut pm s0 (execL2Flush d p s) := by
  unfold execL2Flush
  try dsimp only
  repeat' first
    | with_reducible assumption
    | (refine command_keeps (sub (by decide) hm) ?_ (fun _ _ hh => specL2Flush_keeps (sub (by decide) hm) hh))

theorem flushWalk_keeps {s0 s : State} {c : Cmd} {remoteOnly : Bool} (hm : ([.fwd] : List Part).all pm = true) (hk : Keeps pm s0 s) :
    KeepsT pm s0 (flushWalk c remoteOnly s) := by
  unfold flushWalk
  try dsimp only
  repeat' first
    | with_reducible assumption
    | with_reducible refine l2Del_keeps (sub (by decide) hm) ?_
    | with_reducible refine keepsT_mk ?_
    | with_reducible refine keeps_foldl ?_ ?_
    | (intro _ _ _)

theorem execL2FlushDone_keeps {s0 s : State}  (hm : ([.boot, .mbx, .host, .evt, .clk, .fwd, .ring, .out] : List Part).all pm = true) (hk : Keeps pm s0 s) :
    KeepsOut pm s0 (execL2FlushDone s) := by
  unfold execL2FlushDone
  try dsimp only
  repeat' first
    | with_reducible assumption
    | with_reducible refine keeps_snd2 (flushWalk_keeps (sub (by decide) hm) ?_)
    | with_reducible refine sendUpdate_keeps (sub (by decide) hm) ?_
    | with_reducible refine endLong_keeps (sub (by decide) hm) ?_
    | with_reducible refine keepsOut_next ?_
    | split

theorem specRouteAdd_keeps {s0 s : State} {c : Cmd} (hm : ([.fwd, .ring] : List Part).all pm = true) (h : Keeps pm s0 s) : KeepsP pm s0 (specRouteAdd.body c s) := by
  simp only [specRouteAdd]
  repeat' first
    | with_reducible assumption
    | with_reducible refine keeps_snd (fwdAns_keeps (sub (by decide) hm) ?_)
    | with_reducible refine routeAdd_keeps (sub (by decide) hm) ?_
    | with_reducible refine keepsP_mk ?_
    | split

theorem execRouteAdd_keeps {s0 s : State} {d : Doorbell} {p : List Byte} (hm : ([.boot, .mbx, .host, .evt, .modes, .flt, .clk, .fwd, .ring, .out] : List Part).all pm = true) (hk : Keeps pm s0 s) :
    KeepsOut pm s0 (execRouteAdd d p s) := by
  unfold execRouteAdd
  try dsimp only
  repeat' first
    | with_reducible assumption
    | (refine command_keeps (sub (by decide) hm) ?_ (fun _ _ hh => specRouteAdd_keeps (sub (by decide) hm) hh))

theorem specRouteRemove_keeps {s0 s : State} {c : Cmd} (hm : ([.fwd, .ring] : List Part).all pm = true) (h : Keeps pm s0 s) : KeepsP pm s0 (specRouteRemove.body c s) := by
  simp only [specRouteRemove]
  repeat' first
    | with_reducible assumption
    | with_reducible refine keeps_snd (fwdAns_keeps (sub (by decide) hm) ?_)
    | with_reducible refine routeRemove_keeps (sub (by decide) hm) ?_
    | with_reducible refine keepsP_mk ?_
    | split

theorem execRouteRemove_keeps {s0 s : State} {d : Doorbell} {p : List Byte} (hm : ([.boot, .mbx, .host, .evt, .modes, .flt, .clk, .fwd, .ring, .out] : List Part).all pm = true) (hk : Keeps pm s0 s) :
    KeepsOut pm s0 (execRouteRemove d p s) := by
  unfold execRouteRemove
  try dsimp only
  repeat' first
    | with_reducible assumption
    | (refine command_keeps (sub (by decide) hm) ?_ (fun _ _ hh => specRouteRemove_keeps (sub (by decide) hm) hh))

theorem specRouteBulk_keeps {s0 s : State} {c : Cmd} (hm : ([] : List Part).all pm = true) (h : Keeps pm s0 s) : KeepsP pm s0 (specRouteBulk.body c s) := by
  simp only [specRouteBulk]
  repeat' first
    | with_reducible assumption
    | with_reducible refine keepsP_mk ?_
    | split

theorem execRouteBulk_keeps {s0 s : State} {d : Doorbell} {p : List Byte} (hm : ([.boot, .mbx, .host, .evt, .modes, .flt, .clk, .ring, .out] : List Part).all pm = true) (hk : Keeps pm s0 s) :
    KeepsOut pm s0 (execRouteBulk d p s) := by
  unfold execRouteBulk
  try dsimp only
  repeat' first
    | with_reducible assumption
    | (refine command_keeps (sub (by decide) hm) ?_ (fun _ _ hh => specRouteBulk_keeps (sub (by decide) hm) hh))

theorem bulkRecord_keeps {s0 s : State} {r : List Byte} (hm : ([.fwd, .ring] : List Part).all pm = true) (hk : Keeps pm s0 s) :
    KeepsP pm s0 (bulkRecord r s) := by
  unfold bulkRecord
  try dsimp only
  repeat' first
    | with_reducible assumption
    | with_reducible refine keeps_snd (routeRemove_keeps (sub (by decide) hm) ?_)
    | with_reducible refine keeps_snd (routeAdd_keeps (sub (by decide) hm) ?_)
    | with_reducible refine sendUpdate_keeps (sub (by decide) hm) ?_
    | with_reducible refine keepsP_mk ?_
    | split

theorem bulkRun_keeps {s0 s : State} {n k : Nat} {b : List Byte} (hm : ([.fwd, .ring] : List Part).all pm = true) (hk : Keeps pm s0 s) : KeepsT pm s0 (bulkRun n b k s) := by
  induction n generalizing s k b with
  | zero => exact hk
  | succ n ih =>
    unfold bulkRun
    have h : KeepsP pm s0 (bulkRecord (slice b 0 24) s) := bulkRecord_keeps (sub (by decide) hm) hk
    revert h
    generalize bulkRecord (slice b 0 24) s = r
    intro h
    obtain ⟨e, t⟩ := r
    split
    · rename_i heq
      cases heq
      exact ih h
    · rename_i heq
      cases heq
      exact h

theorem execRouteBulkDone_keeps {s0 s : State} {records : List Byte} (hm : ([.boot, .mbx, .host, .evt, .clk, .fwd, .ring, .out] : List Part).all pm = true) (hk : Keeps pm s0 s) :
    KeepsOut pm s0 (execRouteBulkDone records s) := by
  unfold execRouteBulkDone
  try dsimp only
  repeat' first
    | with_reducible assumption
    | with_reducible refine keeps_snd2 (bulkRun_keeps (sub (by decide) hm) ?_)
    | with_reducible refine endLong_keeps (sub (by decide) hm) ?_
    | with_reducible refine keepsOut_next ?_
    | split

theorem specNexthopSet_keeps {s0 s : State} {c : Cmd} (hm : ([.host, .air, .fwd, .tm, .dram, .ring] : List Part).all pm = true) (h : Keeps pm s0 s) : KeepsP pm s0 (specNexthopSet.body c s) := by
  simp only [specNexthopSet]
  repeat' first
    | with_reducible assumption
    | with_reducible refine fwdAns_keeps (sub (by decide) hm) ?_
    | with_reducible refine doNexthop_keeps (sub (by decide) hm) ?_

theorem execNexthopSet_keeps {s0 s : State} {d : Doorbell} {p : List Byte} (hm : ([.boot, .mbx, .host, .evt, .modes, .flt, .clk, .air, .fwd, .tm, .dram, .ring, .out] : List Part).all pm = true) (hk : Keeps pm s0 s) :
    KeepsOut pm s0 (execNexthopSet d p s) := by
  unfold execNexthopSet
  try dsimp only
  repeat' first
    | with_reducible assumption
    | (refine command_keeps (sub (by decide) hm) ?_ (fun _ _ hh => specNexthopSet_keeps (sub (by decide) hm) hh))

theorem specEcmpSet_keeps {s0 s : State} {c : Cmd} (hm : ([.fwd, .ring] : List Part).all pm = true) (h : Keeps pm s0 s) : KeepsP pm s0 (specEcmpSet.body c s) := by
  simp only [specEcmpSet]
  repeat' first
    | with_reducible assumption
    | with_reducible refine fwdAns_keeps (sub (by decide) hm) ?_
    | with_reducible refine doEcmp_keeps (sub (by decide) hm) ?_

theorem execEcmpSet_keeps {s0 s : State} {d : Doorbell} {p : List Byte} (hm : ([.boot, .mbx, .host, .evt, .modes, .flt, .clk, .fwd, .ring, .out] : List Part).all pm = true) (hk : Keeps pm s0 s) :
    KeepsOut pm s0 (execEcmpSet d p s) := by
  unfold execEcmpSet
  try dsimp only
  repeat' first
    | with_reducible assumption
    | (refine command_keeps (sub (by decide) hm) ?_ (fun _ _ hh => specEcmpSet_keeps (sub (by decide) hm) hh))

theorem specAgingSet_keeps {s0 s : State} {c : Cmd} (hm : ([.boot, .host, .evt, .clk, .fwd, .ring, .out] : List Part).all pm = true) (h : Keeps pm s0 s) : KeepsP pm s0 (specAgingSet.body c s) := by
  simp only [specAgingSet]
  repeat' first
    | with_reducible assumption
    | with_reducible refine onFwd_keeps (sub (by decide) hm) ?_
    | with_reducible refine keepsP_mk ?_
    | split

theorem execAgingSet_keeps {s0 s : State} {d : Doorbell} {p : List Byte} (hm : ([.boot, .mbx, .host, .evt, .modes, .flt, .clk, .fwd, .ring, .out] : List Part).all pm = true) (hk : Keeps pm s0 s) :
    KeepsOut pm s0 (execAgingSet d p s) := by
  unfold execAgingSet
  try dsimp only
  repeat' first
    | with_reducible assumption
    | (refine command_keeps (sub (by decide) hm) ?_ (fun _ _ hh => specAgingSet_keeps (sub (by decide) hm) hh))

theorem specFwdStats_keeps {s0 s : State} {c : Cmd} (hm : ([.fwd] : List Part).all pm = true) (h : Keeps pm s0 s) : KeepsP pm s0 (specFwdStats.body c s) := by
  simp only [specFwdStats]
  repeat' first
    | with_reducible assumption
    | with_reducible refine onFwd_keeps (sub (by decide) hm) ?_
    | with_reducible refine keepsP_mk ?_
    | split

theorem execFwdStats_keeps {s0 s : State} {d : Doorbell} {p : List Byte} (hm : ([.boot, .mbx, .host, .evt, .modes, .flt, .clk, .fwd, .ring, .out] : List Part).all pm = true) (hk : Keeps pm s0 s) :
    KeepsOut pm s0 (execFwdStats d p s) := by
  unfold execFwdStats
  try dsimp only
  repeat' first
    | with_reducible assumption
    | (refine command_keeps (sub (by decide) hm) ?_ (fun _ _ hh => specFwdStats_keeps (sub (by decide) hm) hh))

theorem announced_keeps {s0 s : State} {origin op : Nat} {c : Cmd} (hm : ([.boot, .host, .evt, .clk, .fwd, .ring, .out] : List Part).all pm = true) (hk : Keeps pm s0 s) :
    Keeps pm s0 (announced origin op c s) := by
  unfold announced
  try dsimp only
  repeat' first
    | with_reducible assumption
    | with_reducible refine learnAs_keeps (sub (by decide) hm) ?_
    | with_reducible refine l2Del_keeps (sub (by decide) hm) ?_
    | split

theorem updateDone_keeps {s0 s : State} {c : Cmd} {o : OpSpec} {r : FwdAns} (hm : ([.fwd] : List Part).all pm = true) (hk : Keeps pm s0 s) (hr : KeepsP pm s0 r) :
    Keeps pm s0 (updateDone c o r s) := by
  unfold updateDone
  split
  · exact countFwd_keeps (sub (by decide) hm) hk
  · split
    · exact countFwd_keeps (sub (by decide) hm) hr
    · split <;> exact countFwd_keeps (sub (by decide) hm) hk

theorem applyUpdate_keeps {s0 s : State} {origin : Nat} {body : List Byte} (hm : ([.boot, .host, .evt, .clk, .air, .fwd, .tm, .dram, .ring, .out] : List Part).all pm = true) (hk : Keeps pm s0 s) :
    Keeps pm s0 (applyUpdate origin body s) := by
  unfold applyUpdate
  try dsimp only
  repeat' first
    | with_reducible assumption
    | with_reducible refine updateDone_keeps (sub (by decide) hm) ?_ ?_
    | with_reducible refine announced_keeps (sub (by decide) hm) ?_
    | with_reducible refine keeps_snd2 (flushWalk_keeps (sub (by decide) hm) ?_)
    | with_reducible refine doEcmp_keeps (sub (by decide) hm) ?_
    | with_reducible refine doNexthop_keeps (sub (by decide) hm) ?_
    | with_reducible refine routeRemove_keeps (sub (by decide) hm) ?_
    | with_reducible refine routeAdd_keeps (sub (by decide) hm) ?_
    | with_reducible refine doL2Remove_keeps (sub (by decide) hm) ?_
    | with_reducible refine doL2Add_keeps (sub (by decide) hm) ?_
    | with_reducible refine countFwd_keeps (sub (by decide) hm) ?_
    | with_reducible refine keepsP_mk ?_
    | split

end Sys2Proof.Machine
end

