-- ==== Sys2Proof/Laws/KeepFlows.lean ====
section
/-!
SUPPORT. What the operations of Machine.Flows keep.
-/
set_option linter.unusedSimpArgs false
set_option linter.unusedVariables false
namespace Sys2Proof.Machine

variable {pm : Part → Bool}

theorem admitAnswer_keeps {s0 s : State} {n e : Nat} {f : Bf} (hm : ([.air] : List Part).all pm = true) (hk : Keeps pm s0 s) :
    KeepsP pm s0 (admitAnswer s n e f) := by
  unfold admitAnswer
  try dsimp only
  repeat' first
    | with_reducible assumption
    | with_reducible refine onAir_keeps (sub (by decide) hm) ?_
    | with_reducible refine keepsP_mk ?_
    | split

theorem specBfAdmit_keeps {s0 s : State} {c : Cmd} (hm : ([.air] : List Part).all pm = true) (h : Keeps pm s0 s) : KeepsP pm s0 (specBfAdmit.body c s) := by
  simp only [specBfAdmit]
  repeat' first
    | with_reducible assumption
    | with_reducible refine keeps_snd (admitAnswer_keeps (sub (by decide) hm) ?_)
    | with_reducible refine keepsP_mk ?_
    | split

theorem execBfAdmit_keeps {s0 s : State} {d : Doorbell} {p : List Byte} (hm : ([.boot, .mbx, .host, .evt, .modes, .flt, .clk, .air, .ring, .out] : List Part).all pm = true) (hk : Keeps pm s0 s) :
    KeepsOut pm s0 (execBfAdmit d p s) := by
  unfold execBfAdmit
  try dsimp only
  repeat' first
    | with_reducible assumption
    | (refine command_keeps (sub (by decide) hm) ?_ (fun _ _ hh => specBfAdmit_keeps (sub (by decide) hm) hh))

theorem specBfModify_keeps {s0 s : State} {c : Cmd} (hm : ([.air] : List Part).all pm = true) (h : Keeps pm s0 s) : KeepsP pm s0 (specBfModify.body c s) := by
  simp only [specBfModify]
  repeat' first
    | with_reducible assumption
    | with_reducible refine keeps_snd (admitAnswer_keeps (sub (by decide) hm) ?_)
    | with_reducible refine keepsP_mk ?_
    | split

theorem execBfModify_keeps {s0 s : State} {d : Doorbell} {p : List Byte} (hm : ([.boot, .mbx, .host, .evt, .modes, .flt, .clk, .air, .ring, .out] : List Part).all pm = true) (hk : Keeps pm s0 s) :
    KeepsOut pm s0 (execBfModify d p s) := by
  unfold execBfModify
  try dsimp only
  repeat' first
    | with_reducible assumption
    | (refine command_keeps (sub (by decide) hm) ?_ (fun _ _ hh => specBfModify_keeps (sub (by decide) hm) hh))

theorem unplan_keeps {s0 s : State} {n : Nat} (hm : ([.air] : List Part).all pm = true) (hk : Keeps pm s0 s) :
    Keeps pm s0 (unplan n s) := by
  unfold unplan
  try dsimp only
  repeat' first
    | with_reducible assumption
    | with_reducible refine onAir_keeps (sub (by decide) hm) ?_

theorem endFlow_keeps {s0 s : State} {n reason cause : Nat} (hm : ([.boot, .host, .evt, .clk, .air, .out] : List Part).all pm = true) (hk : Keeps pm s0 s) :
    Keeps pm s0 (endFlow n reason cause s) := by
  unfold endFlow
  try dsimp only
  repeat' first
    | with_reducible assumption
    | with_reducible refine onAir_keeps (sub (by decide) hm) ?_
    | with_reducible refine unplan_keeps (sub (by decide) hm) ?_
    | with_reducible refine decide__keeps (sub (by decide) hm) ?_
    | with_reducible refine raise_keeps (sub (by decide) hm) ?_
    | with_reducible refine keeps_foldl ?_ ?_
    | split
    | (intro _ _ _)

theorem specBfRelease_keeps {s0 s : State} {c : Cmd} (hm : ([.boot, .host, .evt, .clk, .air, .out] : List Part).all pm = true) (h : Keeps pm s0 s) : KeepsP pm s0 (specBfRelease.body c s) := by
  simp only [specBfRelease]
  repeat' first
    | with_reducible assumption
    | with_reducible refine endFlow_keeps (sub (by decide) hm) ?_
    | with_reducible refine keepsP_mk ?_
    | split

theorem execBfRelease_keeps {s0 s : State} {d : Doorbell} {p : List Byte} (hm : ([.boot, .mbx, .host, .evt, .modes, .flt, .clk, .air, .ring, .out] : List Part).all pm = true) (hk : Keeps pm s0 s) :
    KeepsOut pm s0 (execBfRelease d p s) := by
  unfold execBfRelease
  try dsimp only
  repeat' first
    | with_reducible assumption
    | (refine command_keeps (sub (by decide) hm) ?_ (fun _ _ hh => specBfRelease_keeps (sub (by decide) hm) hh))

theorem specBfStatus_keeps {s0 s : State} {c : Cmd} (hm : ([] : List Part).all pm = true) (h : Keeps pm s0 s) : KeepsP pm s0 (specBfStatus.body c s) := by
  simp only [specBfStatus]
  repeat' first
    | with_reducible assumption
    | with_reducible refine keepsP_mk ?_
    | split

theorem execBfStatus_keeps {s0 s : State} {d : Doorbell} {p : List Byte} (hm : ([.boot, .mbx, .host, .evt, .modes, .flt, .clk, .ring, .out] : List Part).all pm = true) (hk : Keeps pm s0 s) :
    KeepsOut pm s0 (execBfStatus d p s) := by
  unfold execBfStatus
  try dsimp only
  repeat' first
    | with_reducible assumption
    | (refine command_keeps (sub (by decide) hm) ?_ (fun _ _ hh => specBfStatus_keeps (sub (by decide) hm) hh))

theorem pledgeTest_keeps {s0 s : State} {b : Nat} {affected : Bool} (hm : ([] : List Part).all pm = true) (hk : Keeps pm s0 s) :
    KeepsP pm s0 (pledgeTest s b affected) := by
  unfold pledgeTest
  try dsimp only
  repeat' first
    | with_reducible assumption
    | with_reducible refine keepsP_mk ?_
    | split

theorem specBfPledgeSet_keeps {s0 s : State} {c : Cmd} (hm : ([.air] : List Part).all pm = true) (h : Keeps pm s0 s) : KeepsP pm s0 (specBfPledgeSet.body c s) := by
  simp only [specBfPledgeSet]
  repeat' first
    | with_reducible assumption
    | with_reducible refine onAir_keeps (sub (by decide) hm) ?_
    | with_reducible refine keeps_snd (pledgeTest_keeps (sub (by decide) hm) ?_)
    | with_reducible refine onAB_keeps (sub (by decide) hm) ?_
    | with_reducible refine keepsP_mk ?_
    | split

theorem execBfPledgeSet_keeps {s0 s : State} {d : Doorbell} {p : List Byte} (hm : ([.boot, .mbx, .host, .evt, .modes, .flt, .clk, .air, .ring, .out] : List Part).all pm = true) (hk : Keeps pm s0 s) :
    KeepsOut pm s0 (execBfPledgeSet d p s) := by
  unfold execBfPledgeSet
  try dsimp only
  repeat' first
    | with_reducible assumption
    | (refine command_keeps (sub (by decide) hm) ?_ (fun _ _ hh => specBfPledgeSet_keeps (sub (by decide) hm) hh))

theorem specBfStats_keeps {s0 s : State} {c : Cmd} (hm : ([.air] : List Part).all pm = true) (h : Keeps pm s0 s) : KeepsP pm s0 (specBfStats.body c s) := by
  simp only [specBfStats]
  repeat' first
    | with_reducible assumption
    | with_reducible refine onBf_keeps (sub (by decide) hm) ?_
    | with_reducible refine keepsP_mk ?_
    | split

theorem execBfStats_keeps {s0 s : State} {d : Doorbell} {p : List Byte} (hm : ([.boot, .mbx, .host, .evt, .modes, .flt, .clk, .air, .ring, .out] : List Part).all pm = true) (hk : Keeps pm s0 s) :
    KeepsOut pm s0 (execBfStats d p s) := by
  unfold execBfStats
  try dsimp only
  repeat' first
    | with_reducible assumption
    | (refine command_keeps (sub (by decide) hm) ?_ (fun _ _ hh => specBfStats_keeps (sub (by decide) hm) hh))

theorem execBfDeadline_keeps {s0 s : State} {bf k : Nat} (hm : ([.boot, .host, .evt, .cad, .clk, .air, .out] : List Part).all pm = true) (hk : Keeps pm s0 s) :
    KeepsOut pm s0 (execBfDeadline bf k s) := by
  unfold execBfDeadline
  try dsimp only
  repeat' first
    | with_reducible assumption
    | with_reducible refine decide__keeps (sub (by decide) hm) ?_
    | with_reducible refine advanceTo_keeps (sub (by decide) hm) ?_
    | with_reducible refine keepsOut_next ?_
    | split

end Sys2Proof.Machine
end

