-- ==== Sys2Proof/Laws/KeepAirRx.lean ====
section
/-!
SUPPORT. What the operations of Machine.AirRx keep.
-/
set_option linter.unusedSimpArgs false
set_option linter.unusedVariables false
namespace Sys2Proof.Machine

variable {pm : Part → Bool}

theorem toMgmtRing_keeps {s0 s : State} {b bss : Nat} {k : HostPkt} (hm : ([.host, .air, .tm] : List Part).all pm = true) (hk : Keeps pm s0 s) :
    Keeps pm s0 (toMgmtRing b bss k s) := by
  unfold toMgmtRing
  try dsimp only
  repeat' first
    | with_reducible assumption
    | with_reducible refine countAir_keeps (sub (by decide) hm) ?_
    | with_reducible refine hostQueue_keeps (sub (by decide) hm) ?_
    | split

theorem msduUp_keeps {s0 s : State} {b n tid : Nat} {secure : Bool} {t : Nat} {f : List Byte} (hm : ([.host, .air, .cls, .tm] : List Part).all pm = true) (hk : Keeps pm s0 s) :
    Keeps pm s0 (msduUp b n tid secure t f s) := by
  unfold msduUp
  try dsimp only
  repeat' first
    | with_reducible assumption
    | with_reducible refine toMgmtRing_keeps (sub (by decide) hm) ?_
    | with_reducible refine toPath_keeps (sub (by decide) hm) ?_
    | with_reducible refine countSta_keeps (sub (by decide) hm) ?_
    | split

theorem mpduUp_keeps {s0 s : State} {n : Nat} {r : RxMsdu} (hm : ([.host, .air, .cls, .tm, .cipher] : List Part).all pm = true) (hk : Keeps pm s0 s) :
    Keeps pm s0 (mpduUp n r s) := by
  unfold mpduUp
  try dsimp only
  repeat' first
    | with_reducible assumption
    | with_reducible refine msduUp_keeps (sub (by decide) hm) ?_
    | with_reducible refine onSlot_keeps (sub (by decide) hm) ?_
    | with_reducible refine countCipher_keeps (sub (by decide) hm) ?_
    | with_reducible refine keeps_foldl ?_ ?_
    | split
    | (intro _ _ _)

theorem reorderStep_keeps {s0 s : State} {n tid : Nat} {f : Reorder → List RxMsdu × Reorder} {start : Nat} (hm : ([.host, .air, .cls, .tm, .cipher] : List Part).all pm = true) (hk : Keeps pm s0 s) :
    Keeps pm s0 (reorderStep n tid f start s) := by
  unfold reorderStep
  try dsimp only
  repeat' first
    | with_reducible assumption
    | with_reducible refine mpduUp_keeps (sub (by decide) hm) ?_
    | with_reducible refine onSta_keeps (sub (by decide) hm) ?_
    | with_reducible refine keeps_foldl ?_ ?_
    | split
    | (intro _ _ _)

theorem execReorderTimeout_keeps {s0 s : State} {sta tid : Nat} (hm : ([.host, .cad, .clk, .air, .cls, .tm, .cipher] : List Part).all pm = true) (hk : Keeps pm s0 s) :
    KeepsOut pm s0 (execReorderTimeout sta tid s) := by
  unfold execReorderTimeout
  try dsimp only
  repeat' first
    | with_reducible assumption
    | with_reducible refine reorderStep_keeps (sub (by decide) hm) ?_
    | with_reducible refine advanceTo_keeps (sub (by decide) hm) ?_
    | with_reducible refine keepsOut_next ?_
    | split

theorem countUplink_keeps {s0 s : State} {b n tid t : Nat} (hm : ([.air] : List Part).all pm = true) (hk : Keeps pm s0 s) :
    Keeps pm s0 (countUplink b n tid t s) := by
  unfold countUplink
  try dsimp only
  repeat' first
    | with_reducible assumption
    | with_reducible refine delivered_keeps (sub (by decide) hm) ?_
    | split

theorem dataUp_keeps {s0 s : State} {b n t : Nat} {m body : List Byte} {key : Option (Nat × Nat × Nat)} (hm : ([.host, .air, .cls, .tm, .cipher] : List Part).all pm = true) (hk : Keeps pm s0 s) :
    Keeps pm s0 (dataUp b n t m body key s) := by
  unfold dataUp
  try dsimp only
  repeat' first
    | with_reducible assumption
    | with_reducible refine countUplink_keeps (sub (by decide) hm) ?_
    | with_reducible refine reorderStep_keeps (sub (by decide) hm) ?_
    | with_reducible refine mpduUp_keeps (sub (by decide) hm) ?_
    | with_reducible refine countSta_keeps (sub (by decide) hm) ?_
    | split

theorem mgmtUp_keeps {s0 s : State} {b t : Nat} {sta : Option Nat} {m : List Byte} {secure : Bool} (hm : ([.host, .air, .tm] : List Part).all pm = true) (hk : Keeps pm s0 s) :
    Keeps pm s0 (mgmtUp b t sta m secure s) := by
  unfold mgmtUp
  try dsimp only
  repeat' first
    | with_reducible assumption
    | with_reducible refine toMgmtRing_keeps (sub (by decide) hm) ?_

theorem decryptOldest_keeps {s0 s : State}  (hm : ([.host, .air, .cls, .tm, .cipher] : List Part).all pm = true) (hk : Keeps pm s0 s) :
    Keeps pm s0 (decryptOldest s) := by
  unfold decryptOldest
  try dsimp only
  repeat' first
    | with_reducible assumption
    | with_reducible refine onAir_keeps (sub (by decide) hm) ?_
    | with_reducible refine mgmtUp_keeps (sub (by decide) hm) ?_
    | with_reducible refine dataUp_keeps (sub (by decide) hm) ?_
    | with_reducible refine onSlot_keeps (sub (by decide) hm) ?_
    | with_reducible refine countCipher_keeps (sub (by decide) hm) ?_
    | split

theorem protectStaged_keeps {s0 s : State} {b beat i u j : Nat} (hm : ([.boot, .host, .evt, .clk, .air, .cipher, .out] : List Part).all pm = true) (hk : Keeps pm s0 s) :
    Keeps pm s0 (protectStaged b beat i u j s) := by
  unfold protectStaged
  try dsimp only
  repeat' first
    | with_reducible assumption
    | with_reducible refine onPpdu_keeps (sub (by decide) hm) ?_
    | with_reducible refine protect_keeps (sub (by decide) hm) ?_
    | with_reducible refine consume_keeps (sub (by decide) hm) ?_
    | with_reducible refine onBf_keeps (sub (by decide) hm) ?_
    | (with_reducible refine keeps_of_eq ?_ (by assumption))
    | split

theorem execCipherFrameDone_keeps {s0 s : State} {job : CipherJob} (hm : ([.boot, .host, .evt, .clk, .air, .cls, .tm, .cipher, .out] : List Part).all pm = true) (hk : Keeps pm s0 s) :
    KeepsOut pm s0 (execCipherFrameDone job s) := by
  unfold execCipherFrameDone
  try dsimp only
  repeat' first
    | with_reducible assumption
    | with_reducible refine protectStaged_keeps (sub (by decide) hm) ?_
    | with_reducible refine decryptOldest_keeps (sub (by decide) hm) ?_
    | with_reducible refine onlyIf_keeps (sub (by decide) hm) ?_ (fun _ => ?_)
    | with_reducible refine keepsOut_next ?_
    | split

theorem reportTid_keeps {s0 s : State} {n tid bytes : Nat} (hm : ([.air] : List Part).all pm = true) (hk : Keeps pm s0 s) :
    Keeps pm s0 (reportTid n tid bytes s) := by
  unfold reportTid
  try dsimp only
  repeat' first
    | with_reducible assumption
    | with_reducible refine onSta_keeps (sub (by decide) hm) ?_

theorem reportBsr_keeps {s0 s : State} {n v : Nat} (hm : ([.air] : List Part).all pm = true) (hk : Keeps pm s0 s) :
    Keeps pm s0 (reportBsr n v s) := by
  unfold reportBsr
  try dsimp only
  repeat' first
    | with_reducible assumption
    | with_reducible refine reportTid_keeps (sub (by decide) hm) ?_
    | with_reducible refine onSta_keeps (sub (by decide) hm) ?_
    | split

theorem reports_keeps {s0 s : State} {n : Nat} {m : List Byte} (hm : ([.air] : List Part).all pm = true) (hk : Keeps pm s0 s) :
    Keeps pm s0 (reports n m s) := by
  unfold reports
  try dsimp only
  repeat' first
    | with_reducible assumption
    | with_reducible refine reportBsr_keeps (sub (by decide) hm) ?_
    | with_reducible refine reportTid_keeps (sub (by decide) hm) ?_
    | split

theorem powerSave_keeps {s0 s : State} {b n : Nat} {m : List Byte} (hm : ([.air] : List Part).all pm = true) (hk : Keeps pm s0 s) :
    Keeps pm s0 (powerSave b n m s) := by
  unfold powerSave
  try dsimp only
  repeat' first
    | with_reducible assumption
    | with_reducible refine onSta_keeps (sub (by decide) hm) ?_

theorem barMoves_keeps {s0 s : State} {n : Nat} {m : List Byte} (hm : ([.host, .air, .cls, .tm, .cipher] : List Part).all pm = true) (hk : Keeps pm s0 s) :
    Keeps pm s0 (barMoves n m s) := by
  unfold barMoves
  try dsimp only
  repeat' first
    | with_reducible assumption
    | with_reducible refine reorderStep_keeps (sub (by decide) hm) ?_
    | split

theorem mpduIn_keeps {s0 s : State} {b : Nat} {form t : Nat} {m : List Byte} (hm : ([.boot, .host, .evt, .clk, .air, .cls, .tm, .cipher, .out] : List Part).all pm = true) (hk : Keeps pm s0 s) :
    Keeps pm s0 (mpduIn b form t m s) := by
  unfold mpduIn
  try dsimp only
  repeat' first
    | with_reducible assumption
    | with_reducible refine onAir_keeps (sub (by decide) hm) ?_
    | with_reducible refine barMoves_keeps (sub (by decide) hm) ?_
    | with_reducible refine powerSave_keeps (sub (by decide) hm) ?_
    | with_reducible refine reports_keeps (sub (by decide) hm) ?_
    | with_reducible refine mgmtUp_keeps (sub (by decide) hm) ?_
    | with_reducible refine dataUp_keeps (sub (by decide) hm) ?_
    | with_reducible refine linkHeard_keeps (sub (by decide) hm) ?_
    | with_reducible refine countSta_keeps (sub (by decide) hm) ?_
    | with_reducible refine countAir_keeps (sub (by decide) hm) ?_
    | with_reducible refine countPhy_keeps (sub (by decide) hm) ?_
    | split

theorem notOffered_keeps {s0 s : State} {b : Nat} {trig : Nat × Nat} {ms : List (List Byte)} (hm : ([.air] : List Part).all pm = true) (hk : Keeps pm s0 s) :
    Keeps pm s0 (notOffered b trig ms s) := by
  unfold notOffered
  try dsimp only
  repeat' first
    | with_reducible assumption
    | with_reducible refine countBf_keeps (sub (by decide) hm) ?_
    | with_reducible refine onBf_keeps (sub (by decide) hm) ?_
    | with_reducible refine keeps_foldl ?_ ?_
    | split
    | (intro _ _ _)

theorem capture_keeps {s0 s : State} {b source : Nat} {k : CsiMeas} (hm : ([.air] : List Part).all pm = true) (hk : Keeps pm s0 s) :
    Keeps pm s0 (capture b source k s) := by
  unfold capture
  try dsimp only
  repeat' first
    | with_reducible assumption
    | with_reducible refine onAir_keeps (sub (by decide) hm) ?_
    | with_reducible refine countPhy_keeps (sub (by decide) hm) ?_
    | split

theorem captures_keeps {s0 s : State} {b : Nat} {rx : RxPpdu} (hm : ([.air] : List Part).all pm = true) (hk : Keeps pm s0 s) :
    Keeps pm s0 (captures b rx s) := by
  unfold captures
  try dsimp only
  repeat' first
    | with_reducible assumption
    | with_reducible refine capture_keeps (sub (by decide) hm) ?_
    | with_reducible refine keeps_foldl ?_ ?_
    | split
    | (intro _ _ _)

theorem execAirRxPpdu_keeps {s0 s : State} {band : BandId} {rx : RxPpdu} (hm : ([.boot, .host, .evt, .cad, .clk, .air, .cls, .tm, .cipher, .out] : List Part).all pm = true) (hk : Keeps pm s0 s) :
    KeepsOut pm s0 (execAirRxPpdu band rx s) := by
  unfold execAirRxPpdu
  try dsimp only
  repeat' first
    | with_reducible assumption
    | with_reducible refine captures_keeps (sub (by decide) hm) ?_
    | with_reducible refine notOffered_keeps (sub (by decide) hm) ?_
    | with_reducible refine mpduIn_keeps (sub (by decide) hm) ?_
    | with_reducible refine countPhy_keeps (sub (by decide) hm) ?_
    | with_reducible refine onPhy_keeps (sub (by decide) hm) ?_
    | with_reducible refine onlyIf_keeps (sub (by decide) hm) ?_ (fun _ => ?_)
    | with_reducible refine advanceTo_keeps (sub (by decide) hm) ?_
    | with_reducible refine keepsOut_next ?_
    | with_reducible refine keeps_foldl ?_ ?_
    | split
    | (intro _ _ _)

end Sys2Proof.Machine
end

