-- ==== Sys2Proof/Laws/KeepAirEdges.lean ====
section
/-!
SUPPORT. What the operations of Machine.AirEdges keep.
-/
set_option linter.unusedSimpArgs false
set_option linter.unusedVariables false
namespace Sys2Proof.Machine

variable {pm : Part → Bool}

theorem execBlankInAssert_keeps {s0 s : State} {input : BitVec 2} (hm : ([.outs, .boot, .host, .evt, .clk, .fe, .air, .nb, .mlad, .tm, .cipher, .col, .drawn, .out] : List Part).all pm = true) (hk : Keeps pm s0 s) :
    KeepsOut pm s0 (execBlankInAssert input s) := by
  unfold execBlankInAssert
  try dsimp only
  repeat' first
    | with_reducible assumption
    | with_reducible refine onFe_keeps (sub (by decide) hm) ?_
    | with_reducible refine blankNb_keeps (sub (by decide) hm) ?_
    | with_reducible refine cutShort_keeps (sub (by decide) hm) ?_
    | with_reducible refine keepsOut_next ?_
    | with_reducible refine keeps_foldl ?_ ?_
    | split
    | (intro _ _ _)

theorem execBlankInRelease_keeps {s0 s : State} {input : BitVec 2} (hm : ([.fe] : List Part).all pm = true) (hk : Keeps pm s0 s) :
    KeepsOut pm s0 (execBlankInRelease input s) := by
  unfold execBlankInRelease
  try dsimp only
  repeat' first
    | with_reducible assumption
    | with_reducible refine onFe_keeps (sub (by decide) hm) ?_
    | with_reducible refine keepsOut_next ?_

theorem execBlankTailExpiry_keeps {s0 s : State} {input : BitVec 2} (hm : ([.nb] : List Part).all pm = true) (hk : Keeps pm s0 s) :
    KeepsOut pm s0 (execBlankTailExpiry input s) := by
  unfold execBlankTailExpiry
  try dsimp only
  repeat' first
    | with_reducible assumption
    | with_reducible refine onNb_keeps (sub (by decide) hm) ?_
    | with_reducible refine onlyIf_keeps (sub (by decide) hm) ?_ (fun _ => ?_)
    | with_reducible refine keepsOut_next ?_

theorem newChannel_keeps {s0 s : State} {b : Nat} {ch : Channel} (hm : ([.fe, .cal, .air] : List Part).all pm = true) (hk : Keeps pm s0 s) :
    Keeps pm s0 (newChannel b ch s) := by
  unfold newChannel
  try dsimp only
  repeat' first
    | with_reducible assumption
    | with_reducible refine onAB_keeps (sub (by decide) hm) ?_
    | with_reducible refine onCC_keeps (sub (by decide) hm) ?_
    | with_reducible refine setChannel_keeps (sub (by decide) hm) ?_
    | with_reducible refine onBand_keeps (sub (by decide) hm) ?_
    | with_reducible refine keeps_foldl ?_ ?_
    | split
    | (intro _ _ _)

theorem execBandConfigDone_keeps {s0 s : State} {band : BandId} {ok : Bool} (hm : ([.outs, .boot, .mbx, .host, .evt, .clk, .fe, .cal, .air, .ring, .out] : List Part).all pm = true) (hk : Keeps pm s0 s) :
    KeepsOut pm s0 (execBandConfigDone band ok s) := by
  unfold execBandConfigDone
  try dsimp only
  repeat' first
    | with_reducible assumption
    | with_reducible refine newChannel_keeps (sub (by decide) hm) ?_
    | with_reducible refine onBand_keeps (sub (by decide) hm) ?_
    | with_reducible refine refreshOuts_keeps (sub (by decide) hm) ?_
    | with_reducible refine endLong_keeps (sub (by decide) hm) ?_
    | with_reducible refine keepsOut_next ?_
    | split

theorem mainSwitch_keeps {s0 s : State} {b n : Nat} (hm : ([.outs, .fe, .cal, .air] : List Part).all pm = true) (hk : Keeps pm s0 s) :
    Keeps pm s0 (mainSwitch b n s) := by
  unfold mainSwitch
  try dsimp only
  repeat' first
    | with_reducible assumption
    | with_reducible refine newChannel_keeps (sub (by decide) hm) ?_
    | with_reducible refine onBand_keeps (sub (by decide) hm) ?_
    | with_reducible refine refreshOuts_keeps (sub (by decide) hm) ?_
    | split

theorem flushAir_keeps {s0 s : State}  (hm : ([.air] : List Part).all pm = true) (hk : Keeps pm s0 s) :
    Keeps pm s0 (flushAir s) := by
  unfold flushAir
  try dsimp only
  repeat' first
    | with_reducible assumption
    | with_reducible refine onAir_keeps (sub (by decide) hm) ?_
    | with_reducible refine countAir_keeps (sub (by decide) hm) ?_

theorem execServeExitSilence_keeps {s0 s : State}  (hm : ([.outs, .boot, .mbx, .host, .evt, .modes, .flt, .cad, .clk, .fe, .air, .nb, .mlad, .tm, .col, .ring, .out] : List Part).all pm = true) (hk : Keeps pm s0 s) :
    KeepsOut pm s0 (execServeExitSilence s) := by
  unfold execServeExitSilence
  try dsimp only
  repeat' first
    | with_reducible assumption
    | with_reducible refine onAir_keeps (sub (by decide) hm) ?_
    | with_reducible refine flushAir_keeps (sub (by decide) hm) ?_
    | with_reducible refine endFlow_keeps (sub (by decide) hm) ?_
    | with_reducible refine discardPlans_keeps (sub (by decide) hm) ?_
    | with_reducible refine stageReached_keeps (sub (by decide) hm) ?_
    | with_reducible refine advanceTo_keeps (sub (by decide) hm) ?_
    | with_reducible refine keepsOut_next ?_
    | with_reducible refine keeps_foldl ?_ ?_
    | split
    | (intro _ _ _)

theorem execModeTransitionDone_keeps {s0 s : State}  (hm : ([.outs, .boot, .mbx, .host, .evt, .modes, .flt, .cad, .clk, .fe, .air, .nb, .mlad, .tm, .col, .ring, .out] : List Part).all pm = true) (hk : Keeps pm s0 s) :
    KeepsOut pm s0 (execModeTransitionDone s) := by
  unfold execModeTransitionDone
  try dsimp only
  repeat' first
    | with_reducible assumption
    | with_reducible refine stageReached_keeps (sub (by decide) hm) ?_
    | with_reducible refine endLong_keeps (sub (by decide) hm) ?_
    | with_reducible refine keepsOut_next ?_
    | split

end Sys2Proof.Machine
end

