-- ==== Sys2Proof/Laws/KeepCragBase.lean ====
section
/-!
SUPPORT. What the operations of Machine.CragBase keep.
-/
set_option linter.unusedSimpArgs false
set_option linter.unusedVariables false
namespace Sys2Proof.Machine

variable {pm : Part → Bool}

/-- The state after an instruction is kept to. -/
def KeepsC (pm : Part → Bool) (s0 : State) : CragRes → Prop
  | .next _ t => Keeps pm s0 t
  | .jump _ _ t => Keeps pm s0 t
  | .call _ _ t => Keeps pm s0 t
  | .done _ => True
  | .fault _ => True

theorem keepsC_next {s0 t : State} {k : Core} (h : Keeps pm s0 t) : KeepsC pm s0 (.next k t) := h
theorem keepsC_jump {s0 t : State} {k : Core} {a : W32} (h : Keeps pm s0 t) : KeepsC pm s0 (.jump k a t) := h
theorem keepsC_call {s0 t : State} {k : Core} {a : W32} (h : Keeps pm s0 t) : KeepsC pm s0 (.call k a t) := h
theorem keepsC_done {s0 : State} {k : Core} : KeepsC pm s0 (.done k) := trivial
theorem keepsC_fault {s0 : State} {a : W32} : KeepsC pm s0 (.fault a) := trivial

theorem onCore_keeps {s0 s : State} {n : Nat} {f : Core → Core} (hm : ([.col] : List Part).all pm = true) (hk : Keeps pm s0 s) :
    Keeps pm s0 (onCore n f s) := by
  unfold onCore
  try dsimp only
  repeat' first
    | with_reducible assumption
    | with_reducible refine onCol_keeps (sub (by decide) hm) ?_

theorem onKernel_keeps {s0 s : State} {n : Nat} {f : Kernel → Kernel} (hm : ([.col] : List Part).all pm = true) (hk : Keeps pm s0 s) :
    Keeps pm s0 (onKernel n f s) := by
  unfold onKernel
  try dsimp only
  repeat' first
    | with_reducible assumption
    | with_reducible refine onCol_keeps (sub (by decide) hm) ?_
    | split

theorem dispose_keeps {s0 s : State} {disp ring : Nat} {bytes : List Byte} {p : ColPkt} (hm : ([.boot, .host, .evt, .clk, .air, .fwd, .tm, .dram, .ring, .out] : List Part).all pm = true) (hk : Keeps pm s0 s) :
    Keeps pm s0 (dispose disp ring bytes p s) := by
  unfold dispose
  try dsimp only
  repeat' first
    | with_reducible assumption
    | with_reducible refine forward_keeps (sub (by decide) hm) ?_
    | with_reducible refine toHostRing_keeps (sub (by decide) hm) ?_
    | split

theorem releaseRob_keeps {s0 s : State} {task group n : Nat} (hm : ([.boot, .host, .evt, .clk, .air, .fwd, .tm, .col, .dram, .ring, .drawn, .out] : List Part).all pm = true) (hk : Keeps pm s0 s) : Keeps pm s0 (releaseRob task group n s) := by
  induction n generalizing s with
  | zero => exact hk
  | succ n ih =>
    unfold releaseRob
    split
    · exact hk
    · split
      · exact hk
      · exact ih (dispose_keeps (sub (by decide) hm) (traceOpen_keeps (sub (by decide) hm) (onCol_keeps (sub (by decide) hm) hk)))

theorem endPacket_keeps {s0 s : State} {d : Disp} {disp ring : Nat} {bytes : List Byte} (hm : ([.boot, .host, .evt, .clk, .air, .fwd, .tm, .col, .dram, .ring, .drawn, .out] : List Part).all pm = true) (hk : Keeps pm s0 s) :
    Keeps pm s0 (endPacket d disp ring bytes s) := by
  unfold endPacket
  try dsimp only
  repeat' first
    | with_reducible assumption
    | with_reducible refine onCol_keeps (sub (by decide) hm) ?_
    | with_reducible refine releaseRob_keeps (sub (by decide) hm) ?_
    | with_reducible refine dispose_keeps (sub (by decide) hm) ?_
    | split

theorem freeCore_keeps {s0 s : State} {n : Nat} (hm : ([.col] : List Part).all pm = true) (hk : Keeps pm s0 s) :
    Keeps pm s0 (freeCore n s) := by
  unfold freeCore
  try dsimp only
  repeat' first
    | with_reducible assumption
    | with_reducible refine onCore_keeps (sub (by decide) hm) ?_

theorem traceEnd_keeps {s0 s : State} {n kind : Nat} {d : Disp} (hm : ([.boot, .host, .evt, .clk, .col, .out] : List Part).all pm = true) (hk : Keeps pm s0 s) :
    Keeps pm s0 (traceEnd n kind d s) := by
  unfold traceEnd
  try dsimp only
  repeat' first
    | with_reducible assumption
    | with_reducible refine traceRec_keeps (sub (by decide) hm) ?_

theorem stopKernel_keeps {s0 s : State} {n : Nat} (hm : ([.col] : List Part).all pm = true) (hk : Keeps pm s0 s) :
    Keeps pm s0 (stopKernel n s) := by
  unfold stopKernel
  try dsimp only
  repeat' first
    | with_reducible assumption
    | with_reducible refine onCol_keeps (sub (by decide) hm) ?_
    | with_reducible refine onKernel_keeps (sub (by decide) hm) ?_
    | with_reducible refine countCol_keeps (sub (by decide) hm) ?_

theorem kernelFails_keeps {s0 s : State} {n : Nat} (hm : ([.boot, .host, .evt, .clk, .col, .out] : List Part).all pm = true) (hk : Keeps pm s0 s) :
    Keeps pm s0 (kernelFails n s) := by
  unfold kernelFails
  try dsimp only
  repeat' first
    | with_reducible assumption
    | with_reducible refine stopKernel_keeps (sub (by decide) hm) ?_
    | with_reducible refine onKernel_keeps (sub (by decide) hm) ?_
    | with_reducible refine raise_keeps (sub (by decide) hm) ?_
    | split

theorem kernelFault_keeps {s0 s : State} {n : Nat} {addr : W32} (hm : ([.boot, .host, .evt, .clk, .air, .fwd, .tm, .col, .dram, .ring, .drawn, .out] : List Part).all pm = true) (hk : Keeps pm s0 s) :
    Keeps pm s0 (kernelFault n addr s) := by
  unfold kernelFault
  try dsimp only
  repeat' first
    | with_reducible assumption
    | with_reducible refine kernelFails_keeps (sub (by decide) hm) ?_
    | with_reducible refine traceEnd_keeps (sub (by decide) hm) ?_
    | with_reducible refine freeCore_keeps (sub (by decide) hm) ?_
    | with_reducible refine endPacket_keeps (sub (by decide) hm) ?_
    | with_reducible refine onCore_keeps (sub (by decide) hm) ?_
    | with_reducible refine countCol_keeps (sub (by decide) hm) ?_
    | with_reducible refine raise_keeps (sub (by decide) hm) ?_
    | split

theorem overrun_keeps {s0 s : State} {n : Nat} (hm : ([.boot, .host, .evt, .clk, .air, .fwd, .tm, .col, .dram, .ring, .drawn, .out] : List Part).all pm = true) (hk : Keeps pm s0 s) :
    Keeps pm s0 (overrun n s) := by
  unfold overrun
  try dsimp only
  repeat' first
    | with_reducible assumption
    | with_reducible refine kernelFails_keeps (sub (by decide) hm) ?_
    | with_reducible refine traceEnd_keeps (sub (by decide) hm) ?_
    | with_reducible refine freeCore_keeps (sub (by decide) hm) ?_
    | with_reducible refine endPacket_keeps (sub (by decide) hm) ?_
    | with_reducible refine onKernel_keeps (sub (by decide) hm) ?_
    | with_reducible refine onCore_keeps (sub (by decide) hm) ?_
    | with_reducible refine countCol_keeps (sub (by decide) hm) ?_
    | with_reducible refine raise_keeps (sub (by decide) hm) ?_
    | split

theorem cragWrite_keeps {s0 s : State} {n a : Nat} {b : List Byte} {k : Core} (hm : ([.col] : List Part).all pm = true) (hk : Keeps pm s0 s) : KeepsR pm s0 (cragWrite n a b k s) := by
  unfold cragWrite
  by_cases h1 : (a % b.length != 0) = true
  · rw [if_pos h1]; exact keepsR_none
  rw [if_neg h1]
  by_cases h2 : n = 32
  · rw [if_pos h2]; exact keepsR_some hk
  rw [if_neg h2]
  by_cases h3 : a < 0x1C000
  · rw [if_pos h3]; exact keepsR_some hk
  rw [if_neg h3]
  by_cases h4 : 0x10000000 ≤ a && a < 0x20000000
  · rw [if_pos h4]
    refine keepsR_bind fun x => ?_
    by_cases h5 : a - 0x10000000 < 1024 * x.2.sharedKb
    · rw [if_pos h5]; exact keepsR_some (onKernel_keeps (sub (by decide) hm) hk)
    · rw [if_neg h5]; exact keepsR_none
  · rw [if_neg h4]; exact keepsR_none

theorem cragWords_keeps {s0 s : State} {n a : Nat} {l : List W32} {k : Core} (hm : ([.col] : List Part).all pm = true) (hk : Keeps pm s0 s) : KeepsR pm s0 (cragWords n a l k s) := by
  induction l generalizing s k a with
  | nil => exact keepsR_some hk
  | cons w t ih =>
    unfold cragWords
    have h : KeepsR pm s0 (cragWrite n a (Sys2Proof.Machine.le 4 w.toNat) k s) := cragWrite_keeps (sub (by decide) hm) hk
    revert h
    cases cragWrite n a (Sys2Proof.Machine.le 4 w.toNat) k s with
    | none => intro _; exact keepsR_none
    | some r =>
      intro h
      exact ih (h r.1 r.2 rfl)


theorem cragFault_keeps {s0 s : State} {n : Nat} {addr : W32} (hm : ([.boot, .host, .evt, .clk, .air, .fwd, .tm, .col, .dram, .ring, .drawn, .out] : List Part).all pm = true) (hk : Keeps pm s0 s) :
    Keeps pm s0 (cragFault n addr s) := by
  unfold cragFault
  try dsimp only
  repeat' first
    | with_reducible assumption
    | with_reducible refine kernelFault_keeps (sub (by decide) hm) ?_
    | with_reducible refine onCore_keeps (sub (by decide) hm) ?_
    | split

theorem crag_keeps {s0 s : State} {core : Fin 33} {ctl : Bool} {f : Core → State → CragRes} (hm : ([.boot, .host, .evt, .clk, .air, .fwd, .tm, .col, .dram, .ring, .drawn, .out] : List Part).all pm = true) (hk : Keeps pm s0 s)
    (hf : ∀ k, KeepsC pm s0 (f k s)) : KeepsOut pm s0 (crag core ctl f s) := by
  unfold crag
  refine keepsOut_next ?_
  split
  · exact hk
  · split
    · exact cragFault_keeps (sub (by decide) hm) hk
    · have h := hf (getCore s core.val)
      revert h
      cases f (getCore s core.val) s with
      | next k t => exact fun h => onCore_keeps (sub (by decide) hm) h
      | jump k a t => exact fun h => onCore_keeps (sub (by decide) hm) h
      | call k a t => exact fun h => onCore_keeps (sub (by decide) hm) h
      | done k => exact fun _ => onCore_keeps (sub (by decide) hm) hk
      | fault a => exact fun _ => cragFault_keeps (sub (by decide) hm) hk

end Sys2Proof.Machine
end

