-- ==== Sys2Proof/Laws/KeepCrag.lean ====
section
/-!
SUPPORT. What the operations of Machine.Crag keep.
-/
set_option linter.unusedSimpArgs false
set_option linter.unusedVariables false
namespace Sys2Proof.Machine

variable {pm : Part → Bool}

theorem alu_keeps {s0 s : State} {core : Fin 33} {dst srcA : BitVec 5} {b : Src2} {f : Core → W32 → W32 → AluRes} (hm : ([.boot, .host, .evt, .clk, .air, .fwd, .tm, .col, .dram, .ring, .drawn, .out] : List Part).all pm = true) (hk : Keeps pm s0 s) :
    KeepsOut pm s0 (alu core dst srcA b f s) := by
  unfold alu
  try dsimp only
  repeat' first
    | with_reducible assumption
    | with_reducible refine crag_keeps (sub (by decide) hm) ?_ (fun _ => ?_)
    | with_reducible refine keepsC_next ?_

theorem alu1_keeps {s0 s : State} {core : Fin 33} {dst srcA : BitVec 5} {b : Src2} {f : W32 → AluRes} (hm : ([.boot, .host, .evt, .clk, .air, .fwd, .tm, .col, .dram, .ring, .drawn, .out] : List Part).all pm = true) (hk : Keeps pm s0 s) :
    KeepsOut pm s0 (alu1 core dst srcA b f s) := by
  unfold alu1
  try dsimp only
  repeat' first
    | with_reducible assumption
    | with_reducible refine crag_keeps (sub (by decide) hm) ?_ (fun _ => ?_)
    | with_reducible refine keepsC_next ?_
    | with_reducible exact keepsC_fault
    | split

theorem execAdd_keeps {s0 s : State} {core : Fin 33} {dst srcA : BitVec 5} {b : Src2} (hm : ([.boot, .host, .evt, .clk, .air, .fwd, .tm, .col, .dram, .ring, .drawn, .out] : List Part).all pm = true) (hk : Keeps pm s0 s) :
    KeepsOut pm s0 (execAdd core dst srcA b s) := by
  unfold execAdd
  try dsimp only
  repeat' first
    | with_reducible assumption
    | with_reducible refine alu_keeps (sub (by decide) hm) ?_

theorem execSub_keeps {s0 s : State} {core : Fin 33} {dst srcA : BitVec 5} {b : Src2} (hm : ([.boot, .host, .evt, .clk, .air, .fwd, .tm, .col, .dram, .ring, .drawn, .out] : List Part).all pm = true) (hk : Keeps pm s0 s) :
    KeepsOut pm s0 (execSub core dst srcA b s) := by
  unfold execSub
  try dsimp only
  repeat' first
    | with_reducible assumption
    | with_reducible refine alu_keeps (sub (by decide) hm) ?_

theorem execAdds_keeps {s0 s : State} {core : Fin 33} {dst srcA : BitVec 5} {b : Src2} (hm : ([.boot, .host, .evt, .clk, .air, .fwd, .tm, .col, .dram, .ring, .drawn, .out] : List Part).all pm = true) (hk : Keeps pm s0 s) :
    KeepsOut pm s0 (execAdds core dst srcA b s) := by
  unfold execAdds
  try dsimp only
  repeat' first
    | with_reducible assumption
    | with_reducible refine alu_keeps (sub (by decide) hm) ?_

theorem execSubs_keeps {s0 s : State} {core : Fin 33} {dst srcA : BitVec 5} {b : Src2} (hm : ([.boot, .host, .evt, .clk, .air, .fwd, .tm, .col, .dram, .ring, .drawn, .out] : List Part).all pm = true) (hk : Keeps pm s0 s) :
    KeepsOut pm s0 (execSubs core dst srcA b s) := by
  unfold execSubs
  try dsimp only
  repeat' first
    | with_reducible assumption
    | with_reducible refine alu_keeps (sub (by decide) hm) ?_

theorem execAnd_keeps {s0 s : State} {core : Fin 33} {dst srcA : BitVec 5} {b : Src2} (hm : ([.boot, .host, .evt, .clk, .air, .fwd, .tm, .col, .dram, .ring, .drawn, .out] : List Part).all pm = true) (hk : Keeps pm s0 s) :
    KeepsOut pm s0 (execAnd core dst srcA b s) := by
  unfold execAnd
  try dsimp only
  repeat' first
    | with_reducible assumption
    | with_reducible refine alu_keeps (sub (by decide) hm) ?_

theorem execOr_keeps {s0 s : State} {core : Fin 33} {dst srcA : BitVec 5} {b : Src2} (hm : ([.boot, .host, .evt, .clk, .air, .fwd, .tm, .col, .dram, .ring, .drawn, .out] : List Part).all pm = true) (hk : Keeps pm s0 s) :
    KeepsOut pm s0 (execOr core dst srcA b s) := by
  unfold execOr
  try dsimp only
  repeat' first
    | with_reducible assumption
    | with_reducible refine alu_keeps (sub (by decide) hm) ?_

theorem execXor_keeps {s0 s : State} {core : Fin 33} {dst srcA : BitVec 5} {b : Src2} (hm : ([.boot, .host, .evt, .clk, .air, .fwd, .tm, .col, .dram, .ring, .drawn, .out] : List Part).all pm = true) (hk : Keeps pm s0 s) :
    KeepsOut pm s0 (execXor core dst srcA b s) := by
  unfold execXor
  try dsimp only
  repeat' first
    | with_reducible assumption
    | with_reducible refine alu_keeps (sub (by decide) hm) ?_

theorem execShl_keeps {s0 s : State} {core : Fin 33} {dst srcA : BitVec 5} {b : Src2} (hm : ([.boot, .host, .evt, .clk, .air, .fwd, .tm, .col, .dram, .ring, .drawn, .out] : List Part).all pm = true) (hk : Keeps pm s0 s) :
    KeepsOut pm s0 (execShl core dst srcA b s) := by
  unfold execShl
  try dsimp only
  repeat' first
    | with_reducible assumption
    | with_reducible refine alu_keeps (sub (by decide) hm) ?_

theorem execShr_keeps {s0 s : State} {core : Fin 33} {dst srcA : BitVec 5} {b : Src2} (hm : ([.boot, .host, .evt, .clk, .air, .fwd, .tm, .col, .dram, .ring, .drawn, .out] : List Part).all pm = true) (hk : Keeps pm s0 s) :
    KeepsOut pm s0 (execShr core dst srcA b s) := by
  unfold execShr
  try dsimp only
  repeat' first
    | with_reducible assumption
    | with_reducible refine alu_keeps (sub (by decide) hm) ?_

theorem execShra_keeps {s0 s : State} {core : Fin 33} {dst srcA : BitVec 5} {b : Src2} (hm : ([.boot, .host, .evt, .clk, .air, .fwd, .tm, .col, .dram, .ring, .drawn, .out] : List Part).all pm = true) (hk : Keeps pm s0 s) :
    KeepsOut pm s0 (execShra core dst srcA b s) := by
  unfold execShra
  try dsimp only
  repeat' first
    | with_reducible assumption
    | with_reducible refine alu_keeps (sub (by decide) hm) ?_

theorem execMul_keeps {s0 s : State} {core : Fin 33} {dst srcA : BitVec 5} {b : Src2} (hm : ([.boot, .host, .evt, .clk, .air, .fwd, .tm, .col, .dram, .ring, .drawn, .out] : List Part).all pm = true) (hk : Keeps pm s0 s) :
    KeepsOut pm s0 (execMul core dst srcA b s) := by
  unfold execMul
  try dsimp only
  repeat' first
    | with_reducible assumption
    | with_reducible refine alu_keeps (sub (by decide) hm) ?_

theorem execMulq_keeps {s0 s : State} {core : Fin 33} {dst srcA : BitVec 5} {b : Src2} (hm : ([.boot, .host, .evt, .clk, .air, .fwd, .tm, .col, .dram, .ring, .drawn, .out] : List Part).all pm = true) (hk : Keeps pm s0 s) :
    KeepsOut pm s0 (execMulq core dst srcA b s) := by
  unfold execMulq
  try dsimp only
  repeat' first
    | with_reducible assumption
    | with_reducible refine alu_keeps (sub (by decide) hm) ?_

theorem execMin_keeps {s0 s : State} {core : Fin 33} {dst srcA : BitVec 5} {b : Src2} (hm : ([.boot, .host, .evt, .clk, .air, .fwd, .tm, .col, .dram, .ring, .drawn, .out] : List Part).all pm = true) (hk : Keeps pm s0 s) :
    KeepsOut pm s0 (execMin core dst srcA b s) := by
  unfold execMin
  try dsimp only
  repeat' first
    | with_reducible assumption
    | with_reducible refine alu_keeps (sub (by decide) hm) ?_

theorem execMax_keeps {s0 s : State} {core : Fin 33} {dst srcA : BitVec 5} {b : Src2} (hm : ([.boot, .host, .evt, .clk, .air, .fwd, .tm, .col, .dram, .ring, .drawn, .out] : List Part).all pm = true) (hk : Keeps pm s0 s) :
    KeepsOut pm s0 (execMax core dst srcA b s) := by
  unfold execMax
  try dsimp only
  repeat' first
    | with_reducible assumption
    | with_reducible refine alu_keeps (sub (by decide) hm) ?_

theorem execAbs_keeps {s0 s : State} {core : Fin 33} {dst srcA : BitVec 5} {b : Src2} (hm : ([.boot, .host, .evt, .clk, .air, .fwd, .tm, .col, .dram, .ring, .drawn, .out] : List Part).all pm = true) (hk : Keeps pm s0 s) :
    KeepsOut pm s0 (execAbs core dst srcA b s) := by
  unfold execAbs
  try dsimp only
  repeat' first
    | with_reducible assumption
    | with_reducible refine alu1_keeps (sub (by decide) hm) ?_

theorem execNeg_keeps {s0 s : State} {core : Fin 33} {dst srcA : BitVec 5} {b : Src2} (hm : ([.boot, .host, .evt, .clk, .air, .fwd, .tm, .col, .dram, .ring, .drawn, .out] : List Part).all pm = true) (hk : Keeps pm s0 s) :
    KeepsOut pm s0 (execNeg core dst srcA b s) := by
  unfold execNeg
  try dsimp only
  repeat' first
    | with_reducible assumption
    | with_reducible refine alu1_keeps (sub (by decide) hm) ?_

theorem execCmp_keeps {s0 s : State} {core : Fin 33} {dst srcA : BitVec 5} {b : Src2} (hm : ([.boot, .host, .evt, .clk, .air, .fwd, .tm, .col, .dram, .ring, .drawn, .out] : List Part).all pm = true) (hk : Keeps pm s0 s) :
    KeepsOut pm s0 (execCmp core dst srcA b s) := by
  unfold execCmp
  try dsimp only
  repeat' first
    | with_reducible assumption
    | with_reducible refine crag_keeps (sub (by decide) hm) ?_ (fun _ => ?_)
    | with_reducible refine keepsC_next ?_
    | with_reducible exact keepsC_fault
    | split

theorem execCadd_keeps {s0 s : State} {core : Fin 33} {dst srcA : BitVec 5} {b : Src2} (hm : ([.boot, .host, .evt, .clk, .air, .fwd, .tm, .col, .dram, .ring, .drawn, .out] : List Part).all pm = true) (hk : Keeps pm s0 s) :
    KeepsOut pm s0 (execCadd core dst srcA b s) := by
  unfold execCadd
  try dsimp only
  repeat' first
    | with_reducible assumption
    | with_reducible refine alu_keeps (sub (by decide) hm) ?_

theorem execCsub_keeps {s0 s : State} {core : Fin 33} {dst srcA : BitVec 5} {b : Src2} (hm : ([.boot, .host, .evt, .clk, .air, .fwd, .tm, .col, .dram, .ring, .drawn, .out] : List Part).all pm = true) (hk : Keeps pm s0 s) :
    KeepsOut pm s0 (execCsub core dst srcA b s) := by
  unfold execCsub
  try dsimp only
  repeat' first
    | with_reducible assumption
    | with_reducible refine alu_keeps (sub (by decide) hm) ?_

theorem execConj_keeps {s0 s : State} {core : Fin 33} {dst srcA : BitVec 5} {b : Src2} (hm : ([.boot, .host, .evt, .clk, .air, .fwd, .tm, .col, .dram, .ring, .drawn, .out] : List Part).all pm = true) (hk : Keeps pm s0 s) :
    KeepsOut pm s0 (execConj core dst srcA b s) := by
  unfold execConj
  try dsimp only
  repeat' first
    | with_reducible assumption
    | with_reducible refine alu1_keeps (sub (by decide) hm) ?_

theorem execPack_keeps {s0 s : State} {core : Fin 33} {dst srcA srcB : BitVec 5} (hm : ([.boot, .host, .evt, .clk, .air, .fwd, .tm, .col, .dram, .ring, .drawn, .out] : List Part).all pm = true) (hk : Keeps pm s0 s) :
    KeepsOut pm s0 (execPack core dst srcA srcB s) := by
  unfold execPack
  try dsimp only
  repeat' first
    | with_reducible assumption
    | with_reducible refine alu_keeps (sub (by decide) hm) ?_

theorem execPadd_keeps {s0 s : State} {core : Fin 33} {dst srcA : BitVec 4} {b : Src2} (hm : ([.boot, .host, .evt, .clk, .air, .fwd, .tm, .col, .dram, .ring, .drawn, .out] : List Part).all pm = true) (hk : Keeps pm s0 s) :
    KeepsOut pm s0 (execPadd core dst srcA b s) := by
  unfold execPadd
  try dsimp only
  repeat' first
    | with_reducible assumption
    | with_reducible refine crag_keeps (sub (by decide) hm) ?_ (fun _ => ?_)
    | with_reducible refine keepsC_next ?_

theorem execMovi_keeps {s0 s : State} {core : Fin 33} {dst : BitVec 5} {imm : W16} (hm : ([.boot, .host, .evt, .clk, .air, .fwd, .tm, .col, .dram, .ring, .drawn, .out] : List Part).all pm = true) (hk : Keeps pm s0 s) :
    KeepsOut pm s0 (execMovi core dst imm s) := by
  unfold execMovi
  try dsimp only
  repeat' first
    | with_reducible assumption
    | with_reducible refine crag_keeps (sub (by decide) hm) ?_ (fun _ => ?_)
    | with_reducible refine keepsC_next ?_

theorem execMovhi_keeps {s0 s : State} {core : Fin 33} {dst : BitVec 5} {imm : W16} (hm : ([.boot, .host, .evt, .clk, .air, .fwd, .tm, .col, .dram, .ring, .drawn, .out] : List Part).all pm = true) (hk : Keeps pm s0 s) :
    KeepsOut pm s0 (execMovhi core dst imm s) := by
  unfold execMovhi
  try dsimp only
  repeat' first
    | with_reducible assumption
    | with_reducible refine crag_keeps (sub (by decide) hm) ?_ (fun _ => ?_)
    | with_reducible refine keepsC_next ?_

theorem execMoviP_keeps {s0 s : State} {core : Fin 33} {dst : BitVec 4} {imm : W16} (hm : ([.boot, .host, .evt, .clk, .air, .fwd, .tm, .col, .dram, .ring, .drawn, .out] : List Part).all pm = true) (hk : Keeps pm s0 s) :
    KeepsOut pm s0 (execMoviP core dst imm s) := by
  unfold execMoviP
  try dsimp only
  repeat' first
    | with_reducible assumption
    | with_reducible refine crag_keeps (sub (by decide) hm) ?_ (fun _ => ?_)
    | with_reducible refine keepsC_next ?_

theorem mac_keeps {s0 s : State} {core : Fin 33} {acc : BitVec 3} {f : Core → Int} (hm : ([.boot, .host, .evt, .clk, .air, .fwd, .tm, .col, .dram, .ring, .drawn, .out] : List Part).all pm = true) (hk : Keeps pm s0 s) :
    KeepsOut pm s0 (mac core acc f s) := by
  unfold mac
  try dsimp only
  repeat' first
    | with_reducible assumption
    | with_reducible refine crag_keeps (sub (by decide) hm) ?_ (fun _ => ?_)
    | with_reducible refine keepsC_next ?_

theorem mac2_keeps {s0 s : State} {core : Fin 33} {acc : BitVec 3} {f : Core → Int × Int} (hm : ([.boot, .host, .evt, .clk, .air, .fwd, .tm, .col, .dram, .ring, .drawn, .out] : List Part).all pm = true) (hk : Keeps pm s0 s) :
    KeepsOut pm s0 (mac2 core acc f s) := by
  unfold mac2
  try dsimp only
  repeat' first
    | with_reducible assumption
    | with_reducible refine crag_keeps (sub (by decide) hm) ?_ (fun _ => ?_)
    | with_reducible refine keepsC_next ?_
    | with_reducible exact keepsC_fault
    | split

theorem execMacH_keeps {s0 s : State} {core : Fin 33} {acc : BitVec 3} {srcA srcB : BitVec 5} (hm : ([.boot, .host, .evt, .clk, .air, .fwd, .tm, .col, .dram, .ring, .drawn, .out] : List Part).all pm = true) (hk : Keeps pm s0 s) :
    KeepsOut pm s0 (execMacH core acc srcA srcB s) := by
  unfold execMacH
  try dsimp only
  repeat' first
    | with_reducible assumption
    | with_reducible refine mac_keeps (sub (by decide) hm) ?_

theorem execMsuH_keeps {s0 s : State} {core : Fin 33} {acc : BitVec 3} {srcA srcB : BitVec 5} (hm : ([.boot, .host, .evt, .clk, .air, .fwd, .tm, .col, .dram, .ring, .drawn, .out] : List Part).all pm = true) (hk : Keeps pm s0 s) :
    KeepsOut pm s0 (execMsuH core acc srcA srcB s) := by
  unfold execMsuH
  try dsimp only
  repeat' first
    | with_reducible assumption
    | with_reducible refine mac_keeps (sub (by decide) hm) ?_

theorem execMacW_keeps {s0 s : State} {core : Fin 33} {acc : BitVec 3} {srcA srcB : BitVec 5} (hm : ([.boot, .host, .evt, .clk, .air, .fwd, .tm, .col, .dram, .ring, .drawn, .out] : List Part).all pm = true) (hk : Keeps pm s0 s) :
    KeepsOut pm s0 (execMacW core acc srcA srcB s) := by
  unfold execMacW
  try dsimp only
  repeat' first
    | with_reducible assumption
    | with_reducible refine mac_keeps (sub (by decide) hm) ?_

theorem execMsuW_keeps {s0 s : State} {core : Fin 33} {acc : BitVec 3} {srcA srcB : BitVec 5} (hm : ([.boot, .host, .evt, .clk, .air, .fwd, .tm, .col, .dram, .ring, .drawn, .out] : List Part).all pm = true) (hk : Keeps pm s0 s) :
    KeepsOut pm s0 (execMsuW core acc srcA srcB s) := by
  unfold execMsuW
  try dsimp only
  repeat' first
    | with_reducible assumption
    | with_reducible refine mac_keeps (sub (by decide) hm) ?_

theorem execCmac_keeps {s0 s : State} {core : Fin 33} {acc : BitVec 3} {srcA srcB : BitVec 5} (hm : ([.boot, .host, .evt, .clk, .air, .fwd, .tm, .col, .dram, .ring, .drawn, .out] : List Part).all pm = true) (hk : Keeps pm s0 s) :
    KeepsOut pm s0 (execCmac core acc srcA srcB s) := by
  unfold execCmac
  try dsimp only
  repeat' first
    | with_reducible assumption
    | with_reducible refine mac2_keeps (sub (by decide) hm) ?_

theorem execCmacj_keeps {s0 s : State} {core : Fin 33} {acc : BitVec 3} {srcA srcB : BitVec 5} (hm : ([.boot, .host, .evt, .clk, .air, .fwd, .tm, .col, .dram, .ring, .drawn, .out] : List Part).all pm = true) (hk : Keeps pm s0 s) :
    KeepsOut pm s0 (execCmacj core acc srcA srcB s) := by
  unfold execCmacj
  try dsimp only
  repeat' first
    | with_reducible assumption
    | with_reducible refine mac2_keeps (sub (by decide) hm) ?_

theorem execCmsu_keeps {s0 s : State} {core : Fin 33} {acc : BitVec 3} {srcA srcB : BitVec 5} (hm : ([.boot, .host, .evt, .clk, .air, .fwd, .tm, .col, .dram, .ring, .drawn, .out] : List Part).all pm = true) (hk : Keeps pm s0 s) :
    KeepsOut pm s0 (execCmsu core acc srcA srcB s) := by
  unfold execCmsu
  try dsimp only
  repeat' first
    | with_reducible assumption
    | with_reducible refine mac2_keeps (sub (by decide) hm) ?_

theorem execClr_keeps {s0 s : State} {core : Fin 33} {acc : BitVec 3} (hm : ([.boot, .host, .evt, .clk, .air, .fwd, .tm, .col, .dram, .ring, .drawn, .out] : List Part).all pm = true) (hk : Keeps pm s0 s) :
    KeepsOut pm s0 (execClr core acc s) := by
  unfold execClr
  try dsimp only
  repeat' first
    | with_reducible assumption
    | with_reducible refine crag_keeps (sub (by decide) hm) ?_ (fun _ => ?_)
    | with_reducible refine keepsC_next ?_

theorem execClr2_keeps {s0 s : State} {core : Fin 33} {acc : BitVec 3} (hm : ([.boot, .host, .evt, .clk, .air, .fwd, .tm, .col, .dram, .ring, .drawn, .out] : List Part).all pm = true) (hk : Keeps pm s0 s) :
    KeepsOut pm s0 (execClr2 core acc s) := by
  unfold execClr2
  try dsimp only
  repeat' first
    | with_reducible assumption
    | with_reducible refine crag_keeps (sub (by decide) hm) ?_ (fun _ => ?_)
    | with_reducible refine keepsC_next ?_
    | with_reducible exact keepsC_fault
    | split

theorem execMova_keeps {s0 s : State} {core : Fin 33} {acc : BitVec 3} {srcA : BitVec 5} (hm : ([.boot, .host, .evt, .clk, .air, .fwd, .tm, .col, .dram, .ring, .drawn, .out] : List Part).all pm = true) (hk : Keeps pm s0 s) :
    KeepsOut pm s0 (execMova core acc srcA s) := by
  unfold execMova
  try dsimp only
  repeat' first
    | with_reducible assumption
    | with_reducible refine crag_keeps (sub (by decide) hm) ?_ (fun _ => ?_)
    | with_reducible refine keepsC_next ?_

theorem execAdda_keeps {s0 s : State} {core : Fin 33} {acc src : BitVec 3} (hm : ([.boot, .host, .evt, .clk, .air, .fwd, .tm, .col, .dram, .ring, .drawn, .out] : List Part).all pm = true) (hk : Keeps pm s0 s) :
    KeepsOut pm s0 (execAdda core acc src s) := by
  unfold execAdda
  try dsimp only
  repeat' first
    | with_reducible assumption
    | with_reducible refine mac_keeps (sub (by decide) hm) ?_

theorem execMacI_keeps {s0 s : State} {core : Fin 33} {acc : BitVec 3} {srcA srcB : BitVec 5} (hm : ([.boot, .host, .evt, .clk, .air, .fwd, .tm, .col, .dram, .ring, .drawn, .out] : List Part).all pm = true) (hk : Keeps pm s0 s) :
    KeepsOut pm s0 (execMacI core acc srcA srcB s) := by
  unfold execMacI
  try dsimp only
  repeat' first
    | with_reducible assumption
    | with_reducible refine mac_keeps (sub (by decide) hm) ?_

theorem vec_keeps {s0 s : State} {core : Fin 33} {pair : Bool} {acc : BitVec 3} {pa pb : BitVec 4} {incA incB : Bool} {f : List W32 → List W32 → Int × Int} (hm : ([.boot, .host, .evt, .clk, .air, .fwd, .tm, .col, .dram, .ring, .drawn, .out] : List Part).all pm = true) (hk : Keeps pm s0 s) :
    KeepsOut pm s0 (vec core pair acc pa pb incA incB f s) := by
  unfold vec
  try dsimp only
  repeat' first
    | with_reducible assumption
    | with_reducible refine crag_keeps (sub (by decide) hm) ?_ (fun _ => ?_)
    | with_reducible refine keepsC_next ?_
    | with_reducible exact keepsC_fault
    | split

theorem execVmacH_keeps {s0 s : State} {core : Fin 33} {acc : BitVec 3} {pa pb : BitVec 4} {incA incB : Bool} (hm : ([.boot, .host, .evt, .clk, .air, .fwd, .tm, .col, .dram, .ring, .drawn, .out] : List Part).all pm = true) (hk : Keeps pm s0 s) :
    KeepsOut pm s0 (execVmacH core acc pa pb incA incB s) := by
  unfold execVmacH
  try dsimp only
  repeat' first
    | with_reducible assumption
    | with_reducible refine vec_keeps (sub (by decide) hm) ?_

theorem execVcmac_keeps {s0 s : State} {core : Fin 33} {acc : BitVec 3} {pa pb : BitVec 4} {incA incB : Bool} (hm : ([.boot, .host, .evt, .clk, .air, .fwd, .tm, .col, .dram, .ring, .drawn, .out] : List Part).all pm = true) (hk : Keeps pm s0 s) :
    KeepsOut pm s0 (execVcmac core acc pa pb incA incB s) := by
  unfold execVcmac
  try dsimp only
  repeat' first
    | with_reducible assumption
    | with_reducible refine vec_keeps (sub (by decide) hm) ?_

theorem execVcmacj_keeps {s0 s : State} {core : Fin 33} {acc : BitVec 3} {pa pb : BitVec 4} {incA incB : Bool} (hm : ([.boot, .host, .evt, .clk, .air, .fwd, .tm, .col, .dram, .ring, .drawn, .out] : List Part).all pm = true) (hk : Keeps pm s0 s) :
    KeepsOut pm s0 (execVcmacj core acc pa pb incA incB s) := by
  unfold execVcmacj
  try dsimp only
  repeat' first
    | with_reducible assumption
    | with_reducible refine vec_keeps (sub (by decide) hm) ?_

theorem execExtW_keeps {s0 s : State} {core : Fin 33} {dst : BitVec 5} {acc : BitVec 3} {sh : BitVec 6} (hm : ([.boot, .host, .evt, .clk, .air, .fwd, .tm, .col, .dram, .ring, .drawn, .out] : List Part).all pm = true) (hk : Keeps pm s0 s) :
    KeepsOut pm s0 (execExtW core dst acc sh s) := by
  unfold execExtW
  try dsimp only
  repeat' first
    | with_reducible assumption
    | with_reducible refine crag_keeps (sub (by decide) hm) ?_ (fun _ => ?_)
    | with_reducible refine keepsC_next ?_

theorem execExtH_keeps {s0 s : State} {core : Fin 33} {dst : BitVec 5} {acc : BitVec 3} {sh : BitVec 6} (hm : ([.boot, .host, .evt, .clk, .air, .fwd, .tm, .col, .dram, .ring, .drawn, .out] : List Part).all pm = true) (hk : Keeps pm s0 s) :
    KeepsOut pm s0 (execExtH core dst acc sh s) := by
  unfold execExtH
  try dsimp only
  repeat' first
    | with_reducible assumption
    | with_reducible refine crag_keeps (sub (by decide) hm) ?_ (fun _ => ?_)
    | with_reducible refine keepsC_next ?_

theorem execExtI_keeps {s0 s : State} {core : Fin 33} {dst : BitVec 5} {acc : BitVec 3} {sh : BitVec 6} (hm : ([.boot, .host, .evt, .clk, .air, .fwd, .tm, .col, .dram, .ring, .drawn, .out] : List Part).all pm = true) (hk : Keeps pm s0 s) :
    KeepsOut pm s0 (execExtI core dst acc sh s) := by
  unfold execExtI
  try dsimp only
  repeat' first
    | with_reducible assumption
    | with_reducible refine crag_keeps (sub (by decide) hm) ?_ (fun _ => ?_)
    | with_reducible refine keepsC_next ?_

theorem execExtCx_keeps {s0 s : State} {core : Fin 33} {dst : BitVec 5} {acc : BitVec 3} {sh : BitVec 6} (hm : ([.boot, .host, .evt, .clk, .air, .fwd, .tm, .col, .dram, .ring, .drawn, .out] : List Part).all pm = true) (hk : Keeps pm s0 s) :
    KeepsOut pm s0 (execExtCx core dst acc sh s) := by
  unfold execExtCx
  try dsimp only
  repeat' first
    | with_reducible assumption
    | with_reducible refine crag_keeps (sub (by decide) hm) ?_ (fun _ => ?_)
    | with_reducible refine keepsC_next ?_
    | with_reducible exact keepsC_fault
    | split

theorem execRawlo_keeps {s0 s : State} {core : Fin 33} {dst : BitVec 5} {acc : BitVec 3} (hm : ([.boot, .host, .evt, .clk, .air, .fwd, .tm, .col, .dram, .ring, .drawn, .out] : List Part).all pm = true) (hk : Keeps pm s0 s) :
    KeepsOut pm s0 (execRawlo core dst acc s) := by
  unfold execRawlo
  try dsimp only
  repeat' first
    | with_reducible assumption
    | with_reducible refine crag_keeps (sub (by decide) hm) ?_ (fun _ => ?_)
    | with_reducible refine keepsC_next ?_

theorem execRawmi_keeps {s0 s : State} {core : Fin 33} {dst : BitVec 5} {acc : BitVec 3} (hm : ([.boot, .host, .evt, .clk, .air, .fwd, .tm, .col, .dram, .ring, .drawn, .out] : List Part).all pm = true) (hk : Keeps pm s0 s) :
    KeepsOut pm s0 (execRawmi core dst acc s) := by
  unfold execRawmi
  try dsimp only
  repeat' first
    | with_reducible assumption
    | with_reducible refine crag_keeps (sub (by decide) hm) ?_ (fun _ => ?_)
    | with_reducible refine keepsC_next ?_

theorem execRawhi_keeps {s0 s : State} {core : Fin 33} {dst : BitVec 5} {acc : BitVec 3} (hm : ([.boot, .host, .evt, .clk, .air, .fwd, .tm, .col, .dram, .ring, .drawn, .out] : List Part).all pm = true) (hk : Keeps pm s0 s) :
    KeepsOut pm s0 (execRawhi core dst acc s) := by
  unfold execRawhi
  try dsimp only
  repeat' first
    | with_reducible assumption
    | with_reducible refine crag_keeps (sub (by decide) hm) ?_ (fun _ => ?_)
    | with_reducible refine keepsC_next ?_

theorem execInslo_keeps {s0 s : State} {core : Fin 33} {dst : BitVec 5} {acc : BitVec 3} (hm : ([.boot, .host, .evt, .clk, .air, .fwd, .tm, .col, .dram, .ring, .drawn, .out] : List Part).all pm = true) (hk : Keeps pm s0 s) :
    KeepsOut pm s0 (execInslo core dst acc s) := by
  unfold execInslo
  try dsimp only
  repeat' first
    | with_reducible assumption
    | with_reducible refine crag_keeps (sub (by decide) hm) ?_ (fun _ => ?_)
    | with_reducible refine keepsC_next ?_

theorem execInsmi_keeps {s0 s : State} {core : Fin 33} {dst : BitVec 5} {acc : BitVec 3} (hm : ([.boot, .host, .evt, .clk, .air, .fwd, .tm, .col, .dram, .ring, .drawn, .out] : List Part).all pm = true) (hk : Keeps pm s0 s) :
    KeepsOut pm s0 (execInsmi core dst acc s) := by
  unfold execInsmi
  try dsimp only
  repeat' first
    | with_reducible assumption
    | with_reducible refine crag_keeps (sub (by decide) hm) ?_ (fun _ => ?_)
    | with_reducible refine keepsC_next ?_

theorem execInshi_keeps {s0 s : State} {core : Fin 33} {dst : BitVec 5} {acc : BitVec 3} (hm : ([.boot, .host, .evt, .clk, .air, .fwd, .tm, .col, .dram, .ring, .drawn, .out] : List Part).all pm = true) (hk : Keeps pm s0 s) :
    KeepsOut pm s0 (execInshi core dst acc s) := by
  unfold execInshi
  try dsimp only
  repeat' first
    | with_reducible assumption
    | with_reducible refine crag_keeps (sub (by decide) hm) ?_ (fun _ => ?_)
    | with_reducible refine keepsC_next ?_

theorem load_keeps {s0 s : State} {core : Fin 33} {ptr : BitVec 4} {m : AddrMode} {size : Nat} {f : Nat → Core → Core} (hm : ([.boot, .host, .evt, .clk, .air, .fwd, .tm, .col, .dram, .ring, .drawn, .out] : List Part).all pm = true) (hk : Keeps pm s0 s) :
    KeepsOut pm s0 (load core ptr m size f s) := by
  unfold load
  try dsimp only
  repeat' first
    | with_reducible assumption
    | with_reducible refine crag_keeps (sub (by decide) hm) ?_ (fun _ => ?_)
    | with_reducible refine keepsC_next ?_
    | with_reducible exact keepsC_fault
    | split

theorem store_keeps {s0 s : State} {core : Fin 33} {ptr : BitVec 4} {m : AddrMode} {size : Nat} {f : Core → Int × Bool} (hm : ([.boot, .host, .evt, .clk, .air, .fwd, .tm, .col, .dram, .ring, .drawn, .out] : List Part).all pm = true) (hk : Keeps pm s0 s) :
    KeepsOut pm s0 (store core ptr m size f s) := by
  unfold store
  try dsimp only
  repeat' first
    | with_reducible assumption
    | with_reducible refine crag_keeps (sub (by decide) hm) ?_ (fun _ => ?_)
    | with_reducible refine keepsC_next ?_
    | with_reducible exact keepsC_fault
    | with_reducible exact keeps_of_someR (cragWrite_keeps (sub (by decide) hm) (by assumption)) (by assumption)
    | split

theorem execLdBu_keeps {s0 s : State} {core : Fin 33} {reg : BitVec 5} {ptr : BitVec 4} {m : AddrMode} (hm : ([.boot, .host, .evt, .clk, .air, .fwd, .tm, .col, .dram, .ring, .drawn, .out] : List Part).all pm = true) (hk : Keeps pm s0 s) :
    KeepsOut pm s0 (execLdBu core reg ptr m s) := by
  unfold execLdBu
  try dsimp only
  repeat' first
    | with_reducible assumption
    | with_reducible refine load_keeps (sub (by decide) hm) ?_

theorem execLdB_keeps {s0 s : State} {core : Fin 33} {reg : BitVec 5} {ptr : BitVec 4} {m : AddrMode} (hm : ([.boot, .host, .evt, .clk, .air, .fwd, .tm, .col, .dram, .ring, .drawn, .out] : List Part).all pm = true) (hk : Keeps pm s0 s) :
    KeepsOut pm s0 (execLdB core reg ptr m s) := by
  unfold execLdB
  try dsimp only
  repeat' first
    | with_reducible assumption
    | with_reducible refine load_keeps (sub (by decide) hm) ?_

theorem execLdHu_keeps {s0 s : State} {core : Fin 33} {reg : BitVec 5} {ptr : BitVec 4} {m : AddrMode} (hm : ([.boot, .host, .evt, .clk, .air, .fwd, .tm, .col, .dram, .ring, .drawn, .out] : List Part).all pm = true) (hk : Keeps pm s0 s) :
    KeepsOut pm s0 (execLdHu core reg ptr m s) := by
  unfold execLdHu
  try dsimp only
  repeat' first
    | with_reducible assumption
    | with_reducible refine load_keeps (sub (by decide) hm) ?_

theorem execLdH_keeps {s0 s : State} {core : Fin 33} {reg : BitVec 5} {ptr : BitVec 4} {m : AddrMode} (hm : ([.boot, .host, .evt, .clk, .air, .fwd, .tm, .col, .dram, .ring, .drawn, .out] : List Part).all pm = true) (hk : Keeps pm s0 s) :
    KeepsOut pm s0 (execLdH core reg ptr m s) := by
  unfold execLdH
  try dsimp only
  repeat' first
    | with_reducible assumption
    | with_reducible refine load_keeps (sub (by decide) hm) ?_

theorem execLdW_keeps {s0 s : State} {core : Fin 33} {reg : BitVec 5} {ptr : BitVec 4} {m : AddrMode} (hm : ([.boot, .host, .evt, .clk, .air, .fwd, .tm, .col, .dram, .ring, .drawn, .out] : List Part).all pm = true) (hk : Keeps pm s0 s) :
    KeepsOut pm s0 (execLdW core reg ptr m s) := by
  unfold execLdW
  try dsimp only
  repeat' first
    | with_reducible assumption
    | with_reducible refine load_keeps (sub (by decide) hm) ?_

theorem execLdP_keeps {s0 s : State} {core : Fin 33} {reg : BitVec 4} {ptr : BitVec 4} {m : AddrMode} (hm : ([.boot, .host, .evt, .clk, .air, .fwd, .tm, .col, .dram, .ring, .drawn, .out] : List Part).all pm = true) (hk : Keeps pm s0 s) :
    KeepsOut pm s0 (execLdP core reg ptr m s) := by
  unfold execLdP
  try dsimp only
  repeat' first
    | with_reducible assumption
    | with_reducible refine load_keeps (sub (by decide) hm) ?_

theorem execLdA_keeps {s0 s : State} {core : Fin 33} {reg : BitVec 3} {ptr : BitVec 4} {m : AddrMode} (hm : ([.boot, .host, .evt, .clk, .air, .fwd, .tm, .col, .dram, .ring, .drawn, .out] : List Part).all pm = true) (hk : Keeps pm s0 s) :
    KeepsOut pm s0 (execLdA core reg ptr m s) := by
  unfold execLdA
  try dsimp only
  repeat' first
    | with_reducible assumption
    | with_reducible refine load_keeps (sub (by decide) hm) ?_

theorem execStB_keeps {s0 s : State} {core : Fin 33} {reg : BitVec 5} {ptr : BitVec 4} {m : AddrMode} (hm : ([.boot, .host, .evt, .clk, .air, .fwd, .tm, .col, .dram, .ring, .drawn, .out] : List Part).all pm = true) (hk : Keeps pm s0 s) :
    KeepsOut pm s0 (execStB core reg ptr m s) := by
  unfold execStB
  try dsimp only
  repeat' first
    | with_reducible assumption
    | with_reducible refine store_keeps (sub (by decide) hm) ?_

theorem execStH_keeps {s0 s : State} {core : Fin 33} {reg : BitVec 5} {ptr : BitVec 4} {m : AddrMode} (hm : ([.boot, .host, .evt, .clk, .air, .fwd, .tm, .col, .dram, .ring, .drawn, .out] : List Part).all pm = true) (hk : Keeps pm s0 s) :
    KeepsOut pm s0 (execStH core reg ptr m s) := by
  unfold execStH
  try dsimp only
  repeat' first
    | with_reducible assumption
    | with_reducible refine store_keeps (sub (by decide) hm) ?_

theorem execStHu_keeps {s0 s : State} {core : Fin 33} {reg : BitVec 5} {ptr : BitVec 4} {m : AddrMode} (hm : ([.boot, .host, .evt, .clk, .air, .fwd, .tm, .col, .dram, .ring, .drawn, .out] : List Part).all pm = true) (hk : Keeps pm s0 s) :
    KeepsOut pm s0 (execStHu core reg ptr m s) := by
  unfold execStHu
  try dsimp only
  repeat' first
    | with_reducible assumption
    | with_reducible refine store_keeps (sub (by decide) hm) ?_

theorem execStW_keeps {s0 s : State} {core : Fin 33} {reg : BitVec 5} {ptr : BitVec 4} {m : AddrMode} (hm : ([.boot, .host, .evt, .clk, .air, .fwd, .tm, .col, .dram, .ring, .drawn, .out] : List Part).all pm = true) (hk : Keeps pm s0 s) :
    KeepsOut pm s0 (execStW core reg ptr m s) := by
  unfold execStW
  try dsimp only
  repeat' first
    | with_reducible assumption
    | with_reducible refine store_keeps (sub (by decide) hm) ?_

theorem execStP_keeps {s0 s : State} {core : Fin 33} {reg : BitVec 4} {ptr : BitVec 4} {m : AddrMode} (hm : ([.boot, .host, .evt, .clk, .air, .fwd, .tm, .col, .dram, .ring, .drawn, .out] : List Part).all pm = true) (hk : Keeps pm s0 s) :
    KeepsOut pm s0 (execStP core reg ptr m s) := by
  unfold execStP
  try dsimp only
  repeat' first
    | with_reducible assumption
    | with_reducible refine store_keeps (sub (by decide) hm) ?_

theorem execStA_keeps {s0 s : State} {core : Fin 33} {reg : BitVec 3} {ptr : BitVec 4} {m : AddrMode} (hm : ([.boot, .host, .evt, .clk, .air, .fwd, .tm, .col, .dram, .ring, .drawn, .out] : List Part).all pm = true) (hk : Keeps pm s0 s) :
    KeepsOut pm s0 (execStA core reg ptr m s) := by
  unfold execStA
  try dsimp only
  repeat' first
    | with_reducible assumption
    | with_reducible refine store_keeps (sub (by decide) hm) ?_

theorem execStHf_keeps {s0 s : State} {core : Fin 33} {reg : BitVec 5} {ptr : BitVec 4} {m : AddrMode} (hm : ([.boot, .host, .evt, .clk, .air, .fwd, .tm, .col, .dram, .ring, .drawn, .out] : List Part).all pm = true) (hk : Keeps pm s0 s) :
    KeepsOut pm s0 (execStHf core reg ptr m s) := by
  unfold execStHf
  try dsimp only
  repeat' first
    | with_reducible assumption
    | with_reducible refine store_keeps (sub (by decide) hm) ?_

theorem execBranch_keeps {s0 s : State} {core : Fin 33} {cond : BitVec 4} {off : BitVec 24} (hm : ([.boot, .host, .evt, .clk, .air, .fwd, .tm, .col, .dram, .ring, .drawn, .out] : List Part).all pm = true) (hk : Keeps pm s0 s) :
    KeepsOut pm s0 (execBranch core cond off s) := by
  unfold execBranch
  try dsimp only
  repeat' first
    | with_reducible assumption
    | with_reducible refine crag_keeps (sub (by decide) hm) ?_ (fun _ => ?_)
    | with_reducible refine keepsC_next ?_
    | with_reducible refine keepsC_jump ?_
    | with_reducible exact keepsC_fault
    | split

theorem pushCall_keeps {s0 s : State} {n : Nat} {mask : W16} {target : W32} {k : Core} (hm : ([.col] : List Part).all pm = true) (hk : Keeps pm s0 s) :
    KeepsC pm s0 (pushCall n mask target k s) := by
  unfold pushCall
  try dsimp only
  repeat' first
    | with_reducible refine keepsC_call ?_
    | with_reducible exact keepsC_fault
    | with_reducible exact keeps_of_someR (cragWords_keeps (sub (by decide) hm) (by assumption)) (by assumption)
    | split

theorem execCall_keeps {s0 s : State} {core : Fin 33} {off : BitVec 12} {mask : W16} (hm : ([.boot, .host, .evt, .clk, .air, .fwd, .tm, .col, .dram, .ring, .drawn, .out] : List Part).all pm = true) (hk : Keeps pm s0 s) :
    KeepsOut pm s0 (execCall core off mask s) := by
  unfold execCall
  try dsimp only
  repeat' first
    | with_reducible assumption
    | with_reducible refine pushCall_keeps (sub (by decide) hm) ?_
    | with_reducible refine crag_keeps (sub (by decide) hm) ?_ (fun _ => ?_)

theorem execCallr_keeps {s0 s : State} {core : Fin 33} {ptr : BitVec 4} {mask : W16} (hm : ([.boot, .host, .evt, .clk, .air, .fwd, .tm, .col, .dram, .ring, .drawn, .out] : List Part).all pm = true) (hk : Keeps pm s0 s) :
    KeepsOut pm s0 (execCallr core ptr mask s) := by
  unfold execCallr
  try dsimp only
  repeat' first
    | with_reducible assumption
    | with_reducible refine pushCall_keeps (sub (by decide) hm) ?_
    | with_reducible refine crag_keeps (sub (by decide) hm) ?_ (fun _ => ?_)

theorem execRet_keeps {s0 s : State} {core : Fin 33} {mask : W16} (hm : ([.boot, .host, .evt, .clk, .air, .fwd, .tm, .col, .dram, .ring, .drawn, .out] : List Part).all pm = true) (hk : Keeps pm s0 s) :
    KeepsOut pm s0 (execRet core mask s) := by
  unfold execRet
  try dsimp only
  repeat' first
    | with_reducible assumption
    | with_reducible refine crag_keeps (sub (by decide) hm) ?_ (fun _ => ?_)
    | with_reducible refine keepsC_jump ?_
    | with_reducible exact keepsC_done
    | with_reducible exact keepsC_fault
    | split

theorem execBr_keeps {s0 s : State} {core : Fin 33} {ptr : BitVec 4} (hm : ([.boot, .host, .evt, .clk, .air, .fwd, .tm, .col, .dram, .ring, .drawn, .out] : List Part).all pm = true) (hk : Keeps pm s0 s) :
    KeepsOut pm s0 (execBr core ptr s) := by
  unfold execBr
  try dsimp only
  repeat' first
    | with_reducible assumption
    | with_reducible refine crag_keeps (sub (by decide) hm) ?_ (fun _ => ?_)
    | with_reducible refine keepsC_jump ?_

theorem execLoop_keeps {s0 s : State} {core : Fin 33} {count : LoopCount} {last : W16} (hm : ([.boot, .host, .evt, .clk, .air, .fwd, .tm, .col, .dram, .ring, .drawn, .out] : List Part).all pm = true) (hk : Keeps pm s0 s) :
    KeepsOut pm s0 (execLoop core count last s) := by
  unfold execLoop
  try dsimp only
  repeat' first
    | with_reducible assumption
    | with_reducible refine crag_keeps (sub (by decide) hm) ?_ (fun _ => ?_)
    | with_reducible refine keepsC_call ?_
    | with_reducible exact keepsC_fault
    | split

theorem execMfs_keeps {s0 s : State} {core : Fin 33} {reg spec : BitVec 5} (hm : ([.boot, .host, .evt, .clk, .air, .fwd, .tm, .col, .dram, .ring, .drawn, .out] : List Part).all pm = true) (hk : Keeps pm s0 s) :
    KeepsOut pm s0 (execMfs core reg spec s) := by
  unfold execMfs
  try dsimp only
  repeat' first
    | with_reducible assumption
    | with_reducible refine crag_keeps (sub (by decide) hm) ?_ (fun _ => ?_)
    | with_reducible refine keepsC_next ?_
    | with_reducible exact keepsC_fault
    | split

theorem execMts_keeps {s0 s : State} {core : Fin 33} {reg spec : BitVec 5} (hm : ([.boot, .host, .evt, .clk, .air, .fwd, .tm, .col, .dram, .ring, .drawn, .out] : List Part).all pm = true) (hk : Keeps pm s0 s) :
    KeepsOut pm s0 (execMts core reg spec s) := by
  unfold execMts
  try dsimp only
  repeat' first
    | with_reducible assumption
    | with_reducible refine crag_keeps (sub (by decide) hm) ?_ (fun _ => ?_)
    | with_reducible refine keepsC_call ?_
    | with_reducible exact keepsC_fault
    | split

theorem execNop_keeps {s0 s : State} {core : Fin 33} (hm : ([.boot, .host, .evt, .clk, .air, .fwd, .tm, .col, .dram, .ring, .drawn, .out] : List Part).all pm = true) (hk : Keeps pm s0 s) :
    KeepsOut pm s0 (execNop core s) := by
  unfold execNop
  try dsimp only
  repeat' first
    | with_reducible assumption
    | with_reducible refine crag_keeps (sub (by decide) hm) ?_ (fun _ => ?_)
    | with_reducible refine keepsC_next ?_

theorem execSetrnd_keeps {s0 s : State} {core : Fin 33} {rnd : BitVec 2} (hm : ([.boot, .host, .evt, .clk, .air, .fwd, .tm, .col, .dram, .ring, .drawn, .out] : List Part).all pm = true) (hk : Keeps pm s0 s) :
    KeepsOut pm s0 (execSetrnd core rnd s) := by
  unfold execSetrnd
  try dsimp only
  repeat' first
    | with_reducible assumption
    | with_reducible refine crag_keeps (sub (by decide) hm) ?_ (fun _ => ?_)
    | with_reducible refine keepsC_next ?_

theorem privileged_keeps {s0 s : State} {core : Fin 33} {f : Core → State → CragRes} (hm : ([.boot, .host, .evt, .clk, .air, .fwd, .tm, .col, .dram, .ring, .drawn, .out] : List Part).all pm = true) (hk : Keeps pm s0 s)
    (hf : ∀ k, KeepsC pm s0 (f k s)) : KeepsOut pm s0 (privileged core f s) := by
  unfold privileged
  refine crag_keeps (sub (by decide) hm) hk fun k => ?_
  split
  · exact hf k
  · exact keepsC_fault

theorem execCsrr_keeps {s0 s : State} {core : Fin 33} {reg : BitVec 5} {csr : W16} (hm : ([.boot, .host, .evt, .clk, .air, .fwd, .tm, .col, .dram, .ring, .drawn, .out] : List Part).all pm = true) (hk : Keeps pm s0 s) :
    KeepsOut pm s0 (execCsrr core reg csr s) := by
  unfold execCsrr
  try dsimp only
  repeat' first
    | with_reducible assumption
    | with_reducible refine privileged_keeps (sub (by decide) hm) ?_ (fun _ => ?_)
    | with_reducible refine keepsC_next ?_

theorem execCsrw_keeps {s0 s : State} {core : Fin 33} {reg : BitVec 5} {csr : W16} (hm : ([.boot, .host, .evt, .clk, .air, .fwd, .tm, .col, .dram, .ring, .drawn, .out] : List Part).all pm = true) (hk : Keeps pm s0 s) :
    KeepsOut pm s0 (execCsrw core reg csr s) := by
  unfold execCsrw
  try dsimp only
  repeat' first
    | with_reducible assumption
    | with_reducible refine privileged_keeps (sub (by decide) hm) ?_ (fun _ => ?_)
    | with_reducible refine keepsC_next ?_

theorem execRfe_keeps {s0 s : State} {core : Fin 33} (hm : ([.boot, .host, .evt, .clk, .air, .fwd, .tm, .col, .dram, .ring, .drawn, .out] : List Part).all pm = true) (hk : Keeps pm s0 s) :
    KeepsOut pm s0 (execRfe core s) := by
  unfold execRfe
  try dsimp only
  repeat' first
    | with_reducible assumption
    | with_reducible refine privileged_keeps (sub (by decide) hm) ?_ (fun _ => ?_)
    | with_reducible refine keepsC_call ?_

theorem execWait_keeps {s0 s : State} {core : Fin 33} (hm : ([.boot, .host, .evt, .clk, .air, .fwd, .tm, .col, .dram, .ring, .drawn, .out] : List Part).all pm = true) (hk : Keeps pm s0 s) :
    KeepsOut pm s0 (execWait core s) := by
  unfold execWait
  try dsimp only
  repeat' first
    | with_reducible assumption
    | with_reducible refine onEvt_keeps (sub (by decide) hm) ?_
    | with_reducible refine privileged_keeps (sub (by decide) hm) ?_ (fun _ => ?_)
    | with_reducible refine keepsC_next ?_

theorem execFence_keeps {s0 s : State} {core : Fin 33} (hm : ([.boot, .host, .evt, .clk, .air, .fwd, .tm, .col, .dram, .ring, .drawn, .out] : List Part).all pm = true) (hk : Keeps pm s0 s) :
    KeepsOut pm s0 (execFence core s) := by
  unfold execFence
  try dsimp only
  repeat' first
    | with_reducible assumption
    | with_reducible refine privileged_keeps (sub (by decide) hm) ?_ (fun _ => ?_)
    | with_reducible refine keepsC_next ?_

end Sys2Proof.Machine
end

