-- ==== Sys2Proof/Laws/KeepCragCode.lean ====
section
/-!
SUPPORT. What the operations of Machine.CragCode keep.
-/
set_option linter.unusedSimpArgs false
set_option linter.unusedVariables false
namespace Sys2Proof.Machine

variable {pm : Part → Bool}

theorem execUndefinedEncoding_keeps {s0 s : State} {core : Fin 33} {word : W32} (hm : ([.boot, .host, .evt, .clk, .air, .fwd, .tm, .col, .dram, .ring, .drawn, .out] : List Part).all pm = true) (hk : Keeps pm s0 s) :
    KeepsOut pm s0 (execUndefinedEncoding core word s) := by
  unfold execUndefinedEncoding
  try dsimp only
  repeat' first
    | with_reducible assumption
    | with_reducible refine crag_keeps (sub (by decide) hm) ?_ (fun _ => keepsC_fault)
    | with_reducible refine keepsOut_next ?_
    | split

end Sys2Proof.Machine
end

