-- ==== Sys2Proof/Laws/KeepColCmds.lean ====
section
/-!
SUPPORT. What the operations of Machine.ColCmds keep.
-/
set_option linter.unusedSimpArgs false
set_option linter.unusedVariables false
namespace Sys2Proof.Machine

variable {pm : Part → Bool}

theorem putCandidates_keeps {s0 s : State} {b beat : Nat} (hm : ([.col] : List Part).all pm = true) (hk : Keeps pm s0 s) :
    Keeps pm s0 (putCandidates b beat s) := by
  unfold putCandidates
  try dsimp only
  repeat' first
    | with_reducible assumption
    | with_reducible refine onCol_keeps (sub (by decide) hm) ?_
    | split

theorem startDispatch_keeps {s0 s : State} {n core : Nat} {t : Task} {x : Kernel} (hm : ([.boot, .host, .evt, .clk, .col, .out] : List Part).all pm = true) (hk : Keeps pm s0 s) :
    Keeps pm s0 (startDispatch n core t x s) := by
  unfold startDispatch
  try dsimp only
  repeat' first
    | with_reducible assumption
    | with_reducible refine onCol_keeps (sub (by decide) hm) ?_
    | with_reducible refine onCore_keeps (sub (by decide) hm) ?_
    | with_reducible refine traceRec_keeps (sub (by decide) hm) ?_
    | with_reducible refine onTask_keeps (sub (by decide) hm) ?_
    | with_reducible refine countCol_keeps (sub (by decide) hm) ?_
    | split

theorem execColDispatch_keeps {s0 s : State}  (hm : ([.boot, .host, .evt, .clk, .col, .out] : List Part).all pm = true) (hk : Keeps pm s0 s) :
    KeepsOut pm s0 (execColDispatch s) := by
  unfold execColDispatch
  try dsimp only
  repeat' first
    | with_reducible assumption
    | with_reducible refine startDispatch_keeps (sub (by decide) hm) ?_
    | with_reducible refine countCol_keeps (sub (by decide) hm) ?_
    | with_reducible refine onlyIf_keeps (sub (by decide) hm) ?_ (fun _ => ?_)
    | with_reducible refine keepsOut_next ?_
    | split

theorem postRecord_keeps {s0 s : State} {d : Disp} {r : List Byte} (hm : ([.host, .air, .tm, .col] : List Part).all pm = true) (hk : Keeps pm s0 s) :
    Keeps pm s0 (postRecord d r s) := by
  unfold postRecord
  try dsimp only
  repeat' first
    | with_reducible assumption
    | with_reducible refine onTask_keeps (sub (by decide) hm) ?_
    | with_reducible refine countCol_keeps (sub (by decide) hm) ?_
    | with_reducible refine deliver_keeps (sub (by decide) hm) ?_
    | with_reducible refine hostQueue_keeps (sub (by decide) hm) ?_
    | split

theorem postRecords_keeps {s0 s : State} {d : Disp} {area : List Byte} {n o : Nat} (hm : ([.host, .air, .tm, .col] : List Part).all pm = true) (hk : Keeps pm s0 s) : Keeps pm s0 (postRecords d area n o s) := by
  induction n generalizing s o with
  | zero => exact hk
  | succ n ih =>
    unfold postRecords
    dsimp only
    split
    · exact hk
    · exact ih (postRecord_keeps (sub (by decide) hm) hk)

theorem execKernelReturn_keeps {s0 s : State} {core : Fin 32} (hm : ([.boot, .host, .evt, .clk, .air, .fwd, .tm, .col, .dram, .ring, .drawn, .out] : List Part).all pm = true) (hk : Keeps pm s0 s) :
    KeepsOut pm s0 (execKernelReturn core s) := by
  unfold execKernelReturn
  try dsimp only
  repeat' first
    | with_reducible assumption
    | with_reducible refine keeps_snd (draw_keeps (sub (by decide) hm) ?_)
    | with_reducible refine postRecords_keeps (sub (by decide) hm) ?_
    | with_reducible refine kernelFault_keeps (sub (by decide) hm) ?_
    | with_reducible refine traceEnd_keeps (sub (by decide) hm) ?_
    | with_reducible refine freeCore_keeps (sub (by decide) hm) ?_
    | with_reducible refine endPacket_keeps (sub (by decide) hm) ?_
    | with_reducible refine onKernel_keeps (sub (by decide) hm) ?_
    | with_reducible refine keepsOut_next ?_
    | split

theorem execKernelBudgetExpiry_keeps {s0 s : State} {core : Fin 32} (hm : ([.boot, .host, .evt, .cad, .clk, .air, .fwd, .tm, .col, .dram, .ring, .drawn, .out] : List Part).all pm = true) (hk : Keeps pm s0 s) :
    KeepsOut pm s0 (execKernelBudgetExpiry core s) := by
  unfold execKernelBudgetExpiry
  try dsimp only
  repeat' first
    | with_reducible assumption
    | with_reducible refine overrun_keeps (sub (by decide) hm) ?_
    | with_reducible refine advanceTo_keeps (sub (by decide) hm) ?_
    | with_reducible refine keepsOut_next ?_
    | split

theorem endPlanOpens_keeps {s0 s : State} {beat : Nat} (hm : ([.boot, .host, .evt, .clk, .air, .fwd, .tm, .col, .dram, .ring, .drawn, .out] : List Part).all pm = true) (hk : Keeps pm s0 s) :
    Keeps pm s0 (endPlanOpens beat s) := by
  unfold endPlanOpens
  try dsimp only
  repeat' first
    | with_reducible assumption
    | with_reducible refine overrun_keeps (sub (by decide) hm) ?_
    | with_reducible refine keeps_foldl ?_ ?_
    | split
    | (intro _ _ _)

theorem latchGauge_keeps {s0 s : State} {n : Nat} (hm : ([.col] : List Part).all pm = true) (hk : Keeps pm s0 s) :
    Keeps pm s0 (latchGauge n s) := by
  unfold latchGauge
  try dsimp only
  repeat' first
    | with_reducible assumption
    | with_reducible refine onCol_keeps (sub (by decide) hm) ?_
    | split

theorem specKernelLoad_keeps {s0 s : State} {c : Cmd} (hm : ([] : List Part).all pm = true) (h : Keeps pm s0 s) : KeepsP pm s0 (specKernelLoad.body c s) := by
  simp only [specKernelLoad]
  repeat' first
    | with_reducible assumption
    | with_reducible refine keepsP_mk ?_
    | split

theorem execKernelLoad_keeps {s0 s : State} {d : Doorbell} {p : List Byte} (hm : ([.boot, .mbx, .host, .evt, .modes, .flt, .clk, .ring, .out] : List Part).all pm = true) (hk : Keeps pm s0 s) :
    KeepsOut pm s0 (execKernelLoad d p s) := by
  unfold execKernelLoad
  try dsimp only
  repeat' first
    | with_reducible assumption
    | (refine command_keeps (sub (by decide) hm) ?_ (fun _ _ hh => specKernelLoad_keeps (sub (by decide) hm) hh))

theorem execKernelLoadDone_keeps {s0 s : State} {image : List Byte} (hm : ([.boot, .mbx, .host, .evt, .clk, .col, .ring, .out] : List Part).all pm = true) (hk : Keeps pm s0 s) :
    KeepsOut pm s0 (execKernelLoadDone image s) := by
  unfold execKernelLoadDone
  try dsimp only
  repeat' first
    | with_reducible assumption
    | with_reducible refine onCol_keeps (sub (by decide) hm) ?_
    | with_reducible refine endLong_keeps (sub (by decide) hm) ?_
    | with_reducible refine keepsOut_next ?_
    | split

theorem readied_keeps {s0 s : State} {old : Col} (hm : ([.col] : List Part).all pm = true) (hk : Keeps pm s0 s) :
    Keeps pm s0 (readied old s) := by
  unfold readied
  try dsimp only
  repeat' first
    | with_reducible assumption
    | with_reducible refine onCol_keeps (sub (by decide) hm) ?_

theorem specKernelStart_keeps {s0 s : State} {c : Cmd} (hm : ([.col] : List Part).all pm = true) (h : Keeps pm s0 s) : KeepsP pm s0 (specKernelStart.body c s) := by
  simp only [specKernelStart]
  repeat' first
    | with_reducible assumption
    | with_reducible refine readied_keeps (sub (by decide) hm) ?_
    | with_reducible refine onKernel_keeps (sub (by decide) hm) ?_
    | with_reducible refine keepsP_mk ?_
    | split

theorem execKernelStart_keeps {s0 s : State} {d : Doorbell} {p : List Byte} (hm : ([.boot, .mbx, .host, .evt, .modes, .flt, .clk, .col, .ring, .out] : List Part).all pm = true) (hk : Keeps pm s0 s) :
    KeepsOut pm s0 (execKernelStart d p s) := by
  unfold execKernelStart
  try dsimp only
  repeat' first
    | with_reducible assumption
    | (refine command_keeps (sub (by decide) hm) ?_ (fun _ _ hh => specKernelStart_keeps (sub (by decide) hm) hh))

theorem specKernelStop_keeps {s0 s : State} {c : Cmd} (hm : ([.col] : List Part).all pm = true) (h : Keeps pm s0 s) : KeepsP pm s0 (specKernelStop.body c s) := by
  simp only [specKernelStop]
  repeat' first
    | with_reducible assumption
    | with_reducible refine stopKernel_keeps (sub (by decide) hm) ?_
    | with_reducible refine keepsP_mk ?_
    | split

theorem execKernelStop_keeps {s0 s : State} {d : Doorbell} {p : List Byte} (hm : ([.boot, .mbx, .host, .evt, .modes, .flt, .clk, .col, .ring, .out] : List Part).all pm = true) (hk : Keeps pm s0 s) :
    KeepsOut pm s0 (execKernelStop d p s) := by
  unfold execKernelStop
  try dsimp only
  repeat' first
    | with_reducible assumption
    | (refine command_keeps (sub (by decide) hm) ?_ (fun _ _ hh => specKernelStop_keeps (sub (by decide) hm) hh))

theorem specTaskConfig_keeps {s0 s : State} {c : Cmd} (hm : ([.col] : List Part).all pm = true) (h : Keeps pm s0 s) : KeepsP pm s0 (specTaskConfig.body c s) := by
  simp only [specTaskConfig]
  repeat' first
    | with_reducible assumption
    | with_reducible refine onCol_keeps (sub (by decide) hm) ?_
    | with_reducible refine readied_keeps (sub (by decide) hm) ?_
    | with_reducible refine keepsP_mk ?_
    | split

theorem execTaskConfig_keeps {s0 s : State} {d : Doorbell} {p : List Byte} (hm : ([.boot, .mbx, .host, .evt, .modes, .flt, .clk, .col, .ring, .out] : List Part).all pm = true) (hk : Keeps pm s0 s) :
    KeepsOut pm s0 (execTaskConfig d p s) := by
  unfold execTaskConfig
  try dsimp only
  repeat' first
    | with_reducible assumption
    | (refine command_keeps (sub (by decide) hm) ?_ (fun _ _ hh => specTaskConfig_keeps (sub (by decide) hm) hh))

theorem specColObserveSet_keeps {s0 s : State} {c : Cmd} (hm : ([.col] : List Part).all pm = true) (h : Keeps pm s0 s) : KeepsP pm s0 (specColObserveSet.body c s) := by
  simp only [specColObserveSet]
  repeat' first
    | with_reducible assumption
    | with_reducible refine onCol_keeps (sub (by decide) hm) ?_
    | with_reducible refine keepsP_mk ?_
    | split

theorem execColObserveSet_keeps {s0 s : State} {d : Doorbell} {p : List Byte} (hm : ([.boot, .mbx, .host, .evt, .modes, .flt, .clk, .col, .ring, .out] : List Part).all pm = true) (hk : Keeps pm s0 s) :
    KeepsOut pm s0 (execColObserveSet d p s) := by
  unfold execColObserveSet
  try dsimp only
  repeat' first
    | with_reducible assumption
    | (refine command_keeps (sub (by decide) hm) ?_ (fun _ _ hh => specColObserveSet_keeps (sub (by decide) hm) hh))

theorem specMassifStats_keeps {s0 s : State} {c : Cmd} (hm : ([.col] : List Part).all pm = true) (h : Keeps pm s0 s) : KeepsP pm s0 (specMassifStats.body c s) := by
  simp only [specMassifStats]
  repeat' first
    | with_reducible assumption
    | with_reducible refine onCol_keeps (sub (by decide) hm) ?_
    | with_reducible refine keepsP_mk ?_
    | split

theorem execMassifStats_keeps {s0 s : State} {d : Doorbell} {p : List Byte} (hm : ([.boot, .mbx, .host, .evt, .modes, .flt, .clk, .col, .ring, .out] : List Part).all pm = true) (hk : Keeps pm s0 s) :
    KeepsOut pm s0 (execMassifStats d p s) := by
  unfold execMassifStats
  try dsimp only
  repeat' first
    | with_reducible assumption
    | (refine command_keeps (sub (by decide) hm) ?_ (fun _ _ hh => specMassifStats_keeps (sub (by decide) hm) hh))

theorem execTraceRestart_keeps {s0 s : State}  (hm : ([.col] : List Part).all pm = true) (hk : Keeps pm s0 s) :
    KeepsOut pm s0 (execTraceRestart s) := by
  unfold execTraceRestart
  try dsimp only
  repeat' first
    | with_reducible assumption
    | with_reducible refine onCol_keeps (sub (by decide) hm) ?_
    | with_reducible refine onlyIf_keeps (sub (by decide) hm) ?_ (fun _ => ?_)
    | with_reducible refine keepsOut_next ?_

theorem execTraceFreeze_keeps {s0 s : State} {on : Bool} (hm : ([.col] : List Part).all pm = true) (hk : Keeps pm s0 s) :
    KeepsOut pm s0 (execTraceFreeze on s) := by
  unfold execTraceFreeze
  try dsimp only
  repeat' first
    | with_reducible assumption
    | with_reducible refine onCol_keeps (sub (by decide) hm) ?_
    | with_reducible refine onlyIf_keeps (sub (by decide) hm) ?_ (fun _ => ?_)
    | with_reducible refine keepsOut_next ?_

theorem execTraceLostRead_keeps {s0 s : State}  (hm : ([.col] : List Part).all pm = true) (hk : Keeps pm s0 s) :
    KeepsOut pm s0 (execTraceLostRead s) := by
  unfold execTraceLostRead
  try dsimp only
  repeat' first
    | with_reducible assumption
    | with_reducible refine onCol_keeps (sub (by decide) hm) ?_
    | with_reducible refine onlyIf_keeps (sub (by decide) hm) ?_ (fun _ => ?_)
    | with_reducible refine keepsOut_next ?_

end Sys2Proof.Machine
end

