-- ==== Sys2Proof/Laws/KeepDram.lean ====
section
/-!
SUPPORT. What the operations of Machine.Dram keep.
-/
set_option linter.unusedSimpArgs false
set_option linter.unusedVariables false
namespace Sys2Proof.Machine

variable {pm : Part → Bool}

theorem dramCmd_keeps {s0 s : State} {kind cls : Nat} {l : DLoc} (hm : ([.dram, .out] : List Part).all pm = true) (hk : Keeps pm s0 s) :
    Keeps pm s0 (dramCmd kind cls l s) := by
  unfold dramCmd
  try dsimp only
  repeat' first
    | with_reducible assumption
    | with_reducible refine onDram_keeps (sub (by decide) hm) ?_ ?_
    | with_reducible refine emit_keeps (sub (by decide) hm) ?_
    | with_reducible exact id

theorem rankCmd_keeps {s0 s : State} {kind ch sc rank : Nat} (hm : ([.dram, .out] : List Part).all pm = true) (hk : Keeps pm s0 s) :
    Keeps pm s0 (rankCmd kind ch sc rank s) := by
  unfold rankCmd
  try dsimp only
  repeat' first
    | with_reducible assumption
    | with_reducible refine dramCmd_keeps (sub (by decide) hm) ?_

theorem countDram_keeps {s0 s : State} {i k : Nat} (hm : ([.dram] : List Part).all pm = true) (hk : Keeps pm s0 s) :
    Keeps pm s0 (countDram i k s) := by
  unfold countDram
  try dsimp only
  repeat' first
    | with_reducible assumption
    | with_reducible refine onDram_keeps (sub (by decide) hm) ?_ ?_
    | with_reducible exact id

theorem putFreeze_keeps {s0 s : State} {r : List Byte} (hm : ([.dram] : List Part).all pm = true) (hk : Keeps pm s0 s) :
    Keeps pm s0 (putFreeze r s) := by
  unfold putFreeze
  try dsimp only
  repeat' first
    | with_reducible assumption
    | with_reducible refine onDram_keeps (sub (by decide) hm) ?_ ?_
    | exact (fun _ => memWrite_wf rfl)

theorem dramFreeze_keeps {s0 s : State} {cause ch sc rank : Nat} {l : DLoc} {dev cls op addr : Nat} {synd : List Byte} (hm : ([.outs, .boot, .mbx, .host, .evt, .modes, .flt, .cad, .clk, .fe, .cal, .air, .nb, .mlad, .tm, .col, .dram, .ring, .out] : List Part).all pm = true) (hk : Keeps pm s0 s) :
    Keeps pm s0 (dramFreeze cause ch sc rank l dev cls op addr synd s) := by
  unfold dramFreeze
  try dsimp only
  repeat' first
    | with_reducible assumption
    | with_reducible refine onDram_keeps (sub (by decide) hm) ?_ ?_
    | with_reducible refine putFreeze_keeps (sub (by decide) hm) ?_
    | with_reducible refine enterSafe_keeps (sub (by decide) hm) ?_
    | with_reducible refine raise_keeps (sub (by decide) hm) ?_
    | split
    | exact memWrite_wf

theorem trainFails_keeps {s0 s : State} {ch sc rank : Nat} (hm : ([.boot, .mbx, .host, .evt, .clk, .dram, .ring, .drawn, .out] : List Part).all pm = true) (hk : Keeps pm s0 s) :
    Keeps pm s0 (trainFails ch sc rank s) := by
  unfold trainFails
  try dsimp only
  repeat' first
    | with_reducible assumption
    | with_reducible refine onDram_keeps (sub (by decide) hm) ?_ ?_
    | with_reducible refine keeps_snd (draw_keeps (sub (by decide) hm) ?_)
    | with_reducible refine endOp_keeps (sub (by decide) hm) ?_
    | with_reducible exact id

theorem execDramTrainDone_keeps {s0 s : State} {res : TrainResult} (hm : ([.boot, .mbx, .host, .evt, .clk, .dram, .ring, .out] : List Part).all pm = true) (hk : Keeps pm s0 s) :
    KeepsOut pm s0 (execDramTrainDone res s) := by
  unfold execDramTrainDone
  try dsimp only
  repeat' first
    | with_reducible assumption
    | with_reducible refine onDram_keeps (sub (by decide) hm) ?_ ?_
    | with_reducible refine onlyIf_keeps (sub (by decide) hm) ?_ (fun _ => ?_)
    | with_reducible refine endOp_keeps (sub (by decide) hm) ?_
    | with_reducible refine keepsOut_next ?_
    | split
    | with_reducible exact id

theorem execZeroingDone_keeps {s0 s : State}  (hm : ([.dram] : List Part).all pm = true) (hk : Keeps pm s0 s) :
    KeepsOut pm s0 (execZeroingDone s) := by
  unfold execZeroingDone
  try dsimp only
  repeat' first
    | with_reducible assumption
    | with_reducible refine onDram_keeps (sub (by decide) hm) ?_ ?_
    | with_reducible refine onlyIf_keeps (sub (by decide) hm) ?_ (fun _ => ?_)
    | with_reducible refine keepsOut_next ?_
    | with_reducible exact id

theorem closeRows_keeps {s0 s : State} {p : Nat → Bool} (hm : ([.dram] : List Part).all pm = true) (hk : Keeps pm s0 s) :
    Keeps pm s0 (closeRows p s) := by
  unfold closeRows
  try dsimp only
  repeat' first
    | with_reducible assumption
    | with_reducible refine onDram_keeps (sub (by decide) hm) ?_ ?_
    | with_reducible exact id

theorem issueRefresh_keeps {s0 s : State} {ch sc rank : Nat} (hm : ([.dram, .drawn, .out] : List Part).all pm = true) (hk : Keeps pm s0 s) :
    Keeps pm s0 (issueRefresh ch sc rank s) := by
  unfold issueRefresh
  try dsimp only
  repeat' first
    | with_reducible assumption
    | with_reducible refine keeps_snd (draw_keeps (sub (by decide) hm) ?_)
    | with_reducible refine closeRows_keeps (sub (by decide) hm) ?_
    | with_reducible refine rankCmd_keeps (sub (by decide) hm) ?_
    | with_reducible refine dramCmd_keeps (sub (by decide) hm) ?_
    | split

theorem execRefreshDue_keeps {s0 s : State} {ch sc rank : Fin 2} (hm : ([.dram, .drawn, .out] : List Part).all pm = true) (hk : Keeps pm s0 s) :
    KeepsOut pm s0 (execRefreshDue ch sc rank s) := by
  unfold execRefreshDue
  try dsimp only
  repeat' first
    | with_reducible assumption
    | with_reducible refine onDram_keeps (sub (by decide) hm) ?_ ?_
    | with_reducible refine emit_keeps (sub (by decide) hm) ?_
    | with_reducible refine keeps_snd (draw_keeps (sub (by decide) hm) ?_)
    | with_reducible refine issueRefresh_keeps (sub (by decide) hm) ?_
    | with_reducible refine countDram_keeps (sub (by decide) hm) ?_
    | with_reducible refine onlyIf_keeps (sub (by decide) hm) ?_ (fun _ => ?_)
    | with_reducible refine keepsOut_next ?_
    | with_reducible refine keeps_foldl ?_ ?_
    | split
    | with_reducible exact id
    | (intro _ _ _)

theorem execMr4Poll_keeps {s0 s : State} {mult : Nat} {hot : Option (Nat × Nat × Nat × Nat)} (hm : ([.boot, .host, .evt, .clk, .dram, .out] : List Part).all pm = true) (hk : Keeps pm s0 s) :
    KeepsOut pm s0 (execMr4Poll mult hot s) := by
  unfold execMr4Poll
  try dsimp only
  repeat' first
    | with_reducible assumption
    | with_reducible refine onDram_keeps (sub (by decide) hm) ?_ ?_
    | with_reducible refine rankCmd_keeps (sub (by decide) hm) ?_
    | with_reducible refine onlyIf_keeps (sub (by decide) hm) ?_ (fun _ => ?_)
    | with_reducible refine raise_keeps (sub (by decide) hm) ?_
    | with_reducible refine keepsOut_next ?_
    | with_reducible refine keeps_foldl ?_ ?_
    | split
    | with_reducible exact id
    | (intro _ _ _)

theorem trackLimit_keeps {s0 s : State} {ch sc rank lane : Nat} (hm : ([.boot, .host, .evt, .clk, .out] : List Part).all pm = true) (hk : Keeps pm s0 s) :
    Keeps pm s0 (trackLimit ch sc rank lane s) := by
  unfold trackLimit
  try dsimp only
  repeat' first
    | with_reducible assumption
    | with_reducible refine raise_keeps (sub (by decide) hm) ?_

theorem execZqCalDue_keeps {s0 s : State} {ch sc rank : Fin 2} {limit : Option Nat} (hm : ([.boot, .host, .evt, .clk, .dram, .out] : List Part).all pm = true) (hk : Keeps pm s0 s) :
    KeepsOut pm s0 (execZqCalDue ch sc rank limit s) := by
  unfold execZqCalDue
  try dsimp only
  repeat' first
    | with_reducible assumption
    | with_reducible refine trackLimit_keeps (sub (by decide) hm) ?_
    | with_reducible refine countDram_keeps (sub (by decide) hm) ?_
    | with_reducible refine rankCmd_keeps (sub (by decide) hm) ?_
    | with_reducible refine onlyIf_keeps (sub (by decide) hm) ?_ (fun _ => ?_)
    | with_reducible refine keepsOut_next ?_
    | split

theorem execDqsTrackDue_keeps {s0 s : State} {ch sc rank : Fin 2} {lane : Nat} {drift : Int} (hm : ([.boot, .host, .evt, .clk, .dram, .out] : List Part).all pm = true) (hk : Keeps pm s0 s) :
    KeepsOut pm s0 (execDqsTrackDue ch sc rank lane drift s) := by
  unfold execDqsTrackDue
  try dsimp only
  repeat' first
    | with_reducible assumption
    | with_reducible refine onDram_keeps (sub (by decide) hm) ?_ ?_
    | with_reducible refine trackLimit_keeps (sub (by decide) hm) ?_
    | with_reducible refine countDram_keeps (sub (by decide) hm) ?_
    | with_reducible refine rankCmd_keeps (sub (by decide) hm) ?_
    | with_reducible refine onlyIf_keeps (sub (by decide) hm) ?_ (fun _ => ?_)
    | with_reducible refine keepsOut_next ?_
    | split
    | with_reducible exact id

theorem execSelfRefreshExitDone_keeps {s0 s : State}  (hm : ([.fwd, .dram, .out] : List Part).all pm = true) (hk : Keeps pm s0 s) :
    KeepsOut pm s0 (execSelfRefreshExitDone s) := by
  unfold execSelfRefreshExitDone
  try dsimp only
  repeat' first
    | with_reducible assumption
    | with_reducible refine onFwd_keeps (sub (by decide) hm) ?_
    | with_reducible refine onDram_keeps (sub (by decide) hm) ?_ ?_
    | with_reducible refine countDram_keeps (sub (by decide) hm) ?_
    | with_reducible refine rankCmd_keeps (sub (by decide) hm) ?_
    | with_reducible refine onlyIf_keeps (sub (by decide) hm) ?_ (fun _ => ?_)
    | with_reducible refine keepsOut_next ?_
    | with_reducible refine keeps_foldl ?_ ?_
    | with_reducible exact id
    | (intro _ _ _)

theorem execDramCreditWindow_keeps {s0 s : State}  (hm : ([.dram, .drawn] : List Part).all pm = true) (hk : Keeps pm s0 s) :
    KeepsOut pm s0 (execDramCreditWindow s) := by
  unfold execDramCreditWindow
  try dsimp only
  repeat' first
    | with_reducible assumption
    | with_reducible refine onDram_keeps (sub (by decide) hm) ?_ ?_
    | with_reducible refine keeps_snd (draw_keeps (sub (by decide) hm) ?_)
    | with_reducible refine onlyIf_keeps (sub (by decide) hm) ?_ (fun _ => ?_)
    | with_reducible refine keepsOut_next ?_
    | split
    | with_reducible exact id

theorem afterAccess_keeps {s0 s : State} {cls : Nat} {l : DLoc} (hm : ([.dram, .drawn] : List Part).all pm = true) (hk : Keeps pm s0 s) :
    Keeps pm s0 (afterAccess cls l s) := by
  unfold afterAccess
  try dsimp only
  repeat' first
    | with_reducible assumption
    | with_reducible refine onDram_keeps (sub (by decide) hm) ?_ ?_
    | with_reducible refine keeps_snd (draw_keeps (sub (by decide) hm) ?_)
    | split
    | with_reducible exact id

theorem serveBurst_keeps {s0 s : State} {cls : Nat} {write : Bool} {l : DLoc} (hm : ([.dram, .drawn, .out] : List Part).all pm = true) (hk : Keeps pm s0 s) :
    Keeps pm s0 (serveBurst cls write l s) := by
  unfold serveBurst
  try dsimp only
  repeat' first
    | with_reducible assumption
    | with_reducible refine onDram_keeps (sub (by decide) hm) ?_ ?_
    | with_reducible refine afterAccess_keeps (sub (by decide) hm) ?_
    | with_reducible refine countDram_keeps (sub (by decide) hm) ?_
    | with_reducible refine dramCmd_keeps (sub (by decide) hm) ?_
    | split
    | with_reducible exact id

theorem correctedAt_keeps {s0 s : State} {l : DLoc} {dev : Nat} (hm : ([.boot, .host, .evt, .clk, .dram, .out] : List Part).all pm = true) (hk : Keeps pm s0 s) :
    Keeps pm s0 (correctedAt l dev s) := by
  unfold correctedAt
  try dsimp only
  repeat' first
    | with_reducible assumption
    | with_reducible refine onDram_keeps (sub (by decide) hm) ?_ ?_
    | with_reducible refine raise_keeps (sub (by decide) hm) ?_
    | split
    | with_reducible exact id

theorem execDramReadComplete_keeps {s0 s : State} {addr cls : Nat} {scrub : Bool} {res : EccResult} (hm : ([.outs, .boot, .mbx, .host, .evt, .modes, .flt, .cad, .clk, .fe, .cal, .air, .nb, .mlad, .tm, .col, .dram, .ring, .drawn, .out] : List Part).all pm = true) (hk : Keeps pm s0 s) :
    KeepsOut pm s0 (execDramReadComplete addr cls scrub res s) := by
  unfold execDramReadComplete
  try dsimp only
  repeat' first
    | with_reducible assumption
    | with_reducible refine correctedAt_keeps (sub (by decide) hm) ?_
    | with_reducible refine serveBurst_keeps (sub (by decide) hm) ?_
    | with_reducible refine dramFreeze_keeps (sub (by decide) hm) ?_
    | with_reducible refine countDram_keeps (sub (by decide) hm) ?_
    | with_reducible refine dramCmd_keeps (sub (by decide) hm) ?_
    | with_reducible refine onlyIf_keeps (sub (by decide) hm) ?_ (fun _ => ?_)
    | with_reducible refine keepsOut_next ?_
    | split

theorem execCaParityError_keeps {s0 s : State} {ch sc rank : Fin 2} {addr cls : Nat} (hm : ([.outs, .boot, .mbx, .host, .evt, .modes, .flt, .cad, .clk, .fe, .cal, .air, .nb, .mlad, .tm, .col, .dram, .ring, .drawn, .out] : List Part).all pm = true) (hk : Keeps pm s0 s) :
    KeepsOut pm s0 (execCaParityError ch sc rank addr cls s) := by
  unfold execCaParityError
  try dsimp only
  repeat' first
    | with_reducible assumption
    | with_reducible refine trainFails_keeps (sub (by decide) hm) ?_
    | with_reducible refine dramFreeze_keeps (sub (by decide) hm) ?_
    | with_reducible refine onlyIf_keeps (sub (by decide) hm) ?_ (fun _ => ?_)
    | with_reducible refine keepsOut_next ?_
    | split

theorem execWriteCrcAlert_keeps {s0 s : State} {addr cls : Nat} {replayed : Bool} (hm : ([.outs, .boot, .mbx, .host, .evt, .modes, .flt, .cad, .clk, .fe, .cal, .air, .nb, .mlad, .tm, .col, .dram, .ring, .drawn, .out] : List Part).all pm = true) (hk : Keeps pm s0 s) :
    KeepsOut pm s0 (execWriteCrcAlert addr cls replayed s) := by
  unfold execWriteCrcAlert
  try dsimp only
  repeat' first
    | with_reducible assumption
    | with_reducible refine onDram_keeps (sub (by decide) hm) ?_ ?_
    | with_reducible refine trainFails_keeps (sub (by decide) hm) ?_
    | with_reducible refine dramFreeze_keeps (sub (by decide) hm) ?_
    | with_reducible refine countDram_keeps (sub (by decide) hm) ?_
    | with_reducible refine dramCmd_keeps (sub (by decide) hm) ?_
    | with_reducible refine onlyIf_keeps (sub (by decide) hm) ?_ (fun _ => ?_)
    | with_reducible refine keepsOut_next ?_
    | split
    | with_reducible exact id

theorem specDramConfig_keeps {s0 s : State} {c : Cmd} (hm : ([.dram] : List Part).all pm = true) (h : Keeps pm s0 s) : KeepsP pm s0 (specDramConfig.body c s) := by
  simp only [specDramConfig]
  repeat' first
    | with_reducible assumption
    | with_reducible refine onDram_keeps (sub (by decide) hm) ?_ ?_
    | with_reducible refine keepsP_mk ?_
    | split
    | with_reducible exact id

theorem execDramConfig_keeps {s0 s : State} {d : Doorbell} {p : List Byte} (hm : ([.boot, .mbx, .host, .evt, .modes, .flt, .clk, .dram, .ring, .out] : List Part).all pm = true) (hk : Keeps pm s0 s) :
    KeepsOut pm s0 (execDramConfig d p s) := by
  unfold execDramConfig
  try dsimp only
  repeat' first
    | with_reducible assumption
    | (refine command_keeps (sub (by decide) hm) ?_ (fun _ _ hh => specDramConfig_keeps (sub (by decide) hm) hh))

theorem specDramMapSet_keeps {s0 s : State} {c : Cmd} (hm : ([.dram] : List Part).all pm = true) (h : Keeps pm s0 s) : KeepsP pm s0 (specDramMapSet.body c s) := by
  simp only [specDramMapSet]
  repeat' first
    | with_reducible assumption
    | with_reducible refine onDram_keeps (sub (by decide) hm) ?_ ?_
    | with_reducible refine keepsP_mk ?_
    | split
    | with_reducible exact id

theorem execDramMapSet_keeps {s0 s : State} {d : Doorbell} {p : List Byte} (hm : ([.boot, .mbx, .host, .evt, .modes, .flt, .clk, .dram, .ring, .out] : List Part).all pm = true) (hk : Keeps pm s0 s) :
    KeepsOut pm s0 (execDramMapSet d p s) := by
  unfold execDramMapSet
  try dsimp only
  repeat' first
    | with_reducible assumption
    | (refine command_keeps (sub (by decide) hm) ?_ (fun _ _ hh => specDramMapSet_keeps (sub (by decide) hm) hh))

theorem specDramTrain_keeps {s0 s : State} {c : Cmd} (hm : ([.outs, .dram] : List Part).all pm = true) (h : Keeps pm s0 s) : KeepsP pm s0 (specDramTrain.body c s) := by
  simp only [specDramTrain]
  repeat' first
    | with_reducible assumption
    | with_reducible refine onDram_keeps (sub (by decide) hm) ?_ ?_
    | with_reducible refine refreshOuts_keeps (sub (by decide) hm) ?_
    | with_reducible refine keepsP_mk ?_
    | split
    | with_reducible exact id

theorem execDramTrain_keeps {s0 s : State} {d : Doorbell} {p : List Byte} (hm : ([.outs, .boot, .mbx, .host, .evt, .modes, .flt, .clk, .dram, .ring, .out] : List Part).all pm = true) (hk : Keeps pm s0 s) :
    KeepsOut pm s0 (execDramTrain d p s) := by
  unfold execDramTrain
  try dsimp only
  repeat' first
    | with_reducible assumption
    | (refine command_keeps (sub (by decide) hm) ?_ (fun _ _ hh => specDramTrain_keeps (sub (by decide) hm) hh))

theorem specDramStatus_keeps {s0 s : State} {c : Cmd} (hm : ([.dram] : List Part).all pm = true) (h : Keeps pm s0 s) : KeepsP pm s0 (specDramStatus.body c s) := by
  simp only [specDramStatus]
  repeat' first
    | with_reducible assumption
    | with_reducible refine onDram_keeps (sub (by decide) hm) ?_ ?_
    | with_reducible refine keepsP_mk ?_
    | split
    | with_reducible exact id

theorem execDramStatus_keeps {s0 s : State} {d : Doorbell} {p : List Byte} (hm : ([.boot, .mbx, .host, .evt, .modes, .flt, .clk, .dram, .ring, .out] : List Part).all pm = true) (hk : Keeps pm s0 s) :
    KeepsOut pm s0 (execDramStatus d p s) := by
  unfold execDramStatus
  try dsimp only
  repeat' first
    | with_reducible assumption
    | (refine command_keeps (sub (by decide) hm) ?_ (fun _ _ hh => specDramStatus_keeps (sub (by decide) hm) hh))

theorem specFreezeRead_keeps {s0 s : State} {c : Cmd} (hm : ([] : List Part).all pm = true) (h : Keeps pm s0 s) : KeepsP pm s0 (specFreezeRead.body c s) := by
  simp only [specFreezeRead]
  repeat' first
    | with_reducible assumption
    | with_reducible refine keepsP_mk ?_
    | split

theorem execFreezeRead_keeps {s0 s : State} {d : Doorbell} {p : List Byte} (hm : ([.boot, .mbx, .host, .evt, .modes, .flt, .clk, .ring, .out] : List Part).all pm = true) (hk : Keeps pm s0 s) :
    KeepsOut pm s0 (execFreezeRead d p s) := by
  unfold execFreezeRead
  try dsimp only
  repeat' first
    | with_reducible assumption
    | (refine command_keeps (sub (by decide) hm) ?_ (fun _ _ hh => specFreezeRead_keeps (sub (by decide) hm) hh))

end Sys2Proof.Machine
end

