-- ==== Sys2Proof/Laws/KeepRing.lean ====
section
/-!
SUPPORT. What the operations of Machine.Ring keep.
-/
set_option linter.unusedSimpArgs false
set_option linter.unusedVariables false
namespace Sys2Proof.Machine

variable {pm : Part → Bool}

theorem onRPort_keeps {s0 s : State} {p : Nat} {f : RPort → RPort} (hm : ([.ring] : List Part).all pm = true) (hk : Keeps pm s0 s) :
    Keeps pm s0 (onRPort p f s) := by
  unfold onRPort
  try dsimp only
  repeat' first
    | with_reducible assumption
    | with_reducible refine onRing_keeps (sub (by decide) hm) ?_

theorem countRing_keeps {s0 s : State} {i : Nat} {k : Nat} (hm : ([.ring] : List Part).all pm = true) (hk : Keeps pm s0 s) :
    Keeps pm s0 (countRing i s k) := by
  unfold countRing
  try dsimp only
  repeat' first
    | with_reducible assumption
    | with_reducible refine onRing_keeps (sub (by decide) hm) ?_

theorem ringRelease_keeps {s0 s : State} {st : Nat} (hm : ([.outs, .ring] : List Part).all pm = true) (hk : Keeps pm s0 s) :
    Keeps pm s0 (ringRelease st s) := by
  unfold ringRelease
  try dsimp only
  repeat' first
    | with_reducible assumption
    | with_reducible refine onOuts_keeps (sub (by decide) hm) ?_
    | with_reducible refine onRing_keeps (sub (by decide) hm) ?_
    | with_reducible refine refreshOuts_keeps (sub (by decide) hm) ?_

theorem execRingSwitchSettle_keeps {s0 s : State}  (hm : ([.outs, .cad, .clk, .ring] : List Part).all pm = true) (hk : Keeps pm s0 s) :
    KeepsOut pm s0 (execRingSwitchSettle s) := by
  unfold execRingSwitchSettle
  try dsimp only
  repeat' first
    | with_reducible assumption
    | with_reducible refine onRing_keeps (sub (by decide) hm) ?_
    | with_reducible refine onlyIf_keeps (sub (by decide) hm) ?_ (fun _ => ?_)
    | with_reducible refine refreshOuts_keeps (sub (by decide) hm) ?_
    | with_reducible refine advanceTo_keeps (sub (by decide) hm) ?_
    | with_reducible refine keepsOut_next ?_

theorem execRingPortUp_keeps {s0 s : State} {port : Fin 2} {delay us : Nat} (hm : ([.outs, .boot, .host, .evt, .cad, .clk, .ring, .out] : List Part).all pm = true) (hk : Keeps pm s0 s) :
    KeepsOut pm s0 (execRingPortUp port delay us s) := by
  unfold execRingPortUp
  try dsimp only
  repeat' first
    | with_reducible assumption
    | with_reducible refine onRing_keeps (sub (by decide) hm) ?_
    | with_reducible refine onRPort_keeps (sub (by decide) hm) ?_
    | with_reducible refine onlyIf_keeps (sub (by decide) hm) ?_ (fun _ => ?_)
    | with_reducible refine refreshOuts_keeps (sub (by decide) hm) ?_
    | with_reducible refine raise_keeps (sub (by decide) hm) ?_
    | with_reducible refine advanceTo_keeps (sub (by decide) hm) ?_
    | with_reducible refine keepsOut_next ?_
    | split

theorem portDown_keeps {s0 s : State} {p lost : Nat} (hm : ([.boot, .host, .evt, .clk, .ring, .out] : List Part).all pm = true) (hk : Keeps pm s0 s) :
    Keeps pm s0 (portDown p lost s) := by
  unfold portDown
  try dsimp only
  repeat' first
    | with_reducible assumption
    | with_reducible refine countRing_keeps (sub (by decide) hm) ?_
    | with_reducible refine onRPort_keeps (sub (by decide) hm) ?_
    | with_reducible refine raise_keeps (sub (by decide) hm) ?_

theorem execRingPortDown_keeps {s0 s : State} {port : Fin 2} {lost : Nat} {peerVigil : Bool} (hm : ([.boot, .host, .evt, .clk, .ring, .out] : List Part).all pm = true) (hk : Keeps pm s0 s) :
    KeepsOut pm s0 (execRingPortDown port lost peerVigil s) := by
  unfold execRingPortDown
  try dsimp only
  repeat' first
    | with_reducible assumption
    | with_reducible refine portDown_keeps (sub (by decide) hm) ?_
    | with_reducible refine onRPort_keeps (sub (by decide) hm) ?_
    | with_reducible refine onlyIf_keeps (sub (by decide) hm) ?_ (fun _ => ?_)
    | with_reducible refine keepsOut_next ?_

theorem execRingLinkWaitExpiry_keeps {s0 s : State}  (hm : ([.outs, .boot, .host, .evt, .cad, .clk, .ring, .out] : List Part).all pm = true) (hk : Keeps pm s0 s) :
    KeepsOut pm s0 (execRingLinkWaitExpiry s) := by
  unfold execRingLinkWaitExpiry
  try dsimp only
  repeat' first
    | with_reducible assumption
    | with_reducible refine onRing_keeps (sub (by decide) hm) ?_
    | with_reducible refine ringRelease_keeps (sub (by decide) hm) ?_
    | with_reducible refine onlyIf_keeps (sub (by decide) hm) ?_ (fun _ => ?_)
    | with_reducible refine raise_keeps (sub (by decide) hm) ?_
    | with_reducible refine advanceTo_keeps (sub (by decide) hm) ?_
    | with_reducible refine keepsOut_next ?_

theorem execRingRetryExpiry_keeps {s0 s : State}  (hm : ([.outs, .cad, .clk, .ring] : List Part).all pm = true) (hk : Keeps pm s0 s) :
    KeepsOut pm s0 (execRingRetryExpiry s) := by
  unfold execRingRetryExpiry
  try dsimp only
  repeat' first
    | with_reducible assumption
    | with_reducible refine onRing_keeps (sub (by decide) hm) ?_
    | with_reducible refine ringInsert_keeps (sub (by decide) hm) ?_
    | with_reducible refine advanceTo_keeps (sub (by decide) hm) ?_
    | with_reducible refine keepsOut_next ?_
    | split

theorem ringTransit_keeps {s0 s : State} {p : Nat} {f : List Byte} (hm : ([.ring] : List Part).all pm = true) (hk : Keeps pm s0 s) :
    Keeps pm s0 (ringTransit p f s) := by
  unfold ringTransit
  try dsimp only
  repeat' first
    | with_reducible assumption
    | with_reducible refine countRing_keeps (sub (by decide) hm) ?_
    | with_reducible refine ringWait_keeps (sub (by decide) hm) ?_
    | split

theorem ringRx_keeps {s0 s : State} {type : Nat} {port : Fin 2} {f : List Byte} {take : State → State} (hm : ([.ring] : List Part).all pm = true) (hk : Keeps pm s0 s)
    (ht : ∀ t, Keeps pm s0 t → Keeps pm s0 (take t)) : Keeps pm s0 (ringRx type port f take s) := by
  unfold ringRx
  refine onlyIf_keeps (sub (by decide) hm) hk fun h => ?_
  dsimp only
  split
  · exact ht _ (ringTransit_keeps (sub (by decide) hm) h)
  · exact ringTransit_keeps (sub (by decide) hm) h

theorem execRingTransitFrame_keeps {s0 s : State} {port : Fin 2} {frame : List Byte} (hm : ([.ring] : List Part).all pm = true) (hk : Keeps pm s0 s) :
    KeepsOut pm s0 (execRingTransitFrame port frame s) := by
  unfold execRingTransitFrame
  try dsimp only
  repeat' first
    | with_reducible assumption
    | with_reducible refine ringTransit_keeps (sub (by decide) hm) ?_
    | with_reducible refine onlyIf_keeps (sub (by decide) hm) ?_ (fun _ => ?_)
    | with_reducible refine keepsOut_next ?_

theorem execRingBadMsgType_keeps {s0 s : State} {port : Fin 2} {frame : List Byte} {crcOk : Bool} (hm : ([.ring] : List Part).all pm = true) (hk : Keeps pm s0 s) :
    KeepsOut pm s0 (execRingBadMsgType port frame crcOk s) := by
  unfold execRingBadMsgType
  try dsimp only
  repeat' first
    | with_reducible assumption
    | with_reducible refine countRing_keeps (sub (by decide) hm) ?_
    | with_reducible refine onlyIf_keeps (sub (by decide) hm) ?_ (fun _ => ?_)
    | with_reducible refine keepsOut_next ?_

theorem execRingPortTxStart_keeps {s0 s : State} {port : Fin 2} (hm : ([.boot, .host, .evt, .clk, .tm, .ring, .out] : List Part).all pm = true) (hk : Keeps pm s0 s) :
    KeepsOut pm s0 (execRingPortTxStart port s) := by
  unfold execRingPortTxStart
  try dsimp only
  repeat' first
    | with_reducible assumption
    | with_reducible refine emit_keeps (sub (by decide) hm) ?_
    | with_reducible refine onRPort_keeps (sub (by decide) hm) ?_
    | with_reducible refine egress_keeps (sub (by decide) hm) ?_
    | with_reducible refine onlyIf_keeps (sub (by decide) hm) ?_ (fun _ => ?_)
    | with_reducible refine keepsOut_next ?_
    | split

theorem execRingDataRx_keeps {s0 s : State} {port : Fin 2} {frame : List Byte} (hm : ([.boot, .mbx, .host, .evt, .modes, .clk, .air, .nb, .mlad, .cls, .fwd, .tm, .cipher, .col, .dram, .ring, .drawn, .out] : List Part).all pm = true) (hk : Keeps pm s0 s) :
    KeepsOut pm s0 (execRingDataRx port frame s) := by
  unfold execRingDataRx
  try dsimp only
  repeat' first
    | with_reducible assumption
    | with_reducible refine ringRx_keeps (sub (by decide) hm) ?_ (fun _ _ => ?_)
    | with_reducible refine ingress_keeps (sub (by decide) hm) ?_
    | with_reducible refine onlyIf_keeps (sub (by decide) hm) ?_ (fun _ => ?_)
    | with_reducible refine keepsOut_next ?_

theorem autoSync_keeps {s0 s : State} {new : Nat} (hm : ([.ring] : List Part).all pm = true) (hk : Keeps pm s0 s) :
    Keeps pm s0 (autoSync new s) := by
  unfold autoSync
  try dsimp only
  repeat' first
    | with_reducible assumption
    | with_reducible refine onRing_keeps (sub (by decide) hm) ?_
    | split

theorem updateRoster_keeps {s0 s : State} {b : Nat} (hm : ([.boot, .host, .evt, .clk, .ring, .out] : List Part).all pm = true) (hk : Keeps pm s0 s) :
    Keeps pm s0 (updateRoster b s) := by
  unfold updateRoster
  try dsimp only
  repeat' first
    | with_reducible assumption
    | with_reducible refine onRing_keeps (sub (by decide) hm) ?_
    | with_reducible refine autoSync_keeps (sub (by decide) hm) ?_
    | with_reducible refine raise_keeps (sub (by decide) hm) ?_
    | split

theorem masterConflict_keeps {s0 s : State} {other : Nat} {beats ns : Int} (hm : ([.boot, .host, .evt, .clk, .ring, .out] : List Part).all pm = true) (hk : Keeps pm s0 s) :
    Keeps pm s0 (masterConflict other beats ns s) := by
  unfold masterConflict
  try dsimp only
  repeat' first
    | with_reducible assumption
    | with_reducible refine onRing_keeps (sub (by decide) hm) ?_
    | with_reducible refine raise_keeps (sub (by decide) hm) ?_
    | split

theorem sendClaim_keeps {s0 s : State}  (hm : ([.ring] : List Part).all pm = true) (hk : Keeps pm s0 s) :
    Keeps pm s0 (sendClaim s) := by
  unfold sendClaim
  try dsimp only
  repeat' first
    | with_reducible assumption
    | with_reducible refine onRing_keeps (sub (by decide) hm) ?_
    | with_reducible refine ringSend_keeps (sub (by decide) hm) ?_

theorem strapped_keeps {s0 s : State} {origin b : Nat} {m : Int} {acting : Bool} (hm : ([.outs, .boot, .host, .evt, .clk, .ring, .out] : List Part).all pm = true) (hk : Keeps pm s0 s) :
    Keeps pm s0 (strapped origin b m acting s) := by
  unfold strapped
  try dsimp only
  repeat' first
    | with_reducible assumption
    | with_reducible refine onRing_keeps (sub (by decide) hm) ?_
    | with_reducible refine sendClaim_keeps (sub (by decide) hm) ?_
    | with_reducible refine masterConflict_keeps (sub (by decide) hm) ?_
    | with_reducible refine refreshOuts_keeps (sub (by decide) hm) ?_
    | split

theorem execRingBeaconRx_keeps {s0 s : State} {port : Fin 2} {t residence : Nat} {frame : List Byte} (hm : ([.outs, .boot, .host, .evt, .cad, .clk, .fe, .air, .nb, .tm, .col, .ring, .drawn, .out] : List Part).all pm = true) (hk : Keeps pm s0 s) :
    KeepsOut pm s0 (execRingBeaconRx port t residence frame s) := by
  unfold execRingBeaconRx
  try dsimp only
  repeat' first
    | with_reducible assumption
    | with_reducible refine onRing_keeps (sub (by decide) hm) ?_
    | with_reducible refine strapped_keeps (sub (by decide) hm) ?_
    | with_reducible refine updateRoster_keeps (sub (by decide) hm) ?_
    | with_reducible refine ringRelease_keeps (sub (by decide) hm) ?_
    | with_reducible refine countRing_keeps (sub (by decide) hm) ?_
    | with_reducible refine onRPort_keeps (sub (by decide) hm) ?_
    | with_reducible refine judgeMark_keeps (sub (by decide) hm) ?_
    | with_reducible refine onlyIf_keeps (sub (by decide) hm) ?_ (fun _ => ?_)
    | with_reducible refine ringWait_keeps (sub (by decide) hm) ?_
    | with_reducible refine raise_keeps (sub (by decide) hm) ?_
    | with_reducible refine advanceTo_keeps (sub (by decide) hm) ?_
    | with_reducible refine keepsOut_next ?_
    | split

theorem sendBeacon_keeps {s0 s : State} {b : Nat} (hm : ([.ring] : List Part).all pm = true) (hk : Keeps pm s0 s) :
    Keeps pm s0 (sendBeacon b s) := by
  unfold sendBeacon
  try dsimp only
  repeat' first
    | with_reducible assumption
    | with_reducible refine onRing_keeps (sub (by decide) hm) ?_
    | with_reducible refine ringWait_keeps (sub (by decide) hm) ?_
    | with_reducible refine keeps_foldl ?_ ?_
    | (intro _ _ _)

theorem ringBeat_keeps {s0 s : State} {b : Nat} (hm : ([.outs, .boot, .host, .evt, .clk, .ring, .out] : List Part).all pm = true) (hk : Keeps pm s0 s) :
    Keeps pm s0 (ringBeat b s) := by
  unfold ringBeat
  try dsimp only
  repeat' first
    | with_reducible assumption
    | with_reducible refine onRing_keeps (sub (by decide) hm) ?_
    | with_reducible refine sendBeacon_keeps (sub (by decide) hm) ?_
    | with_reducible refine refreshOuts_keeps (sub (by decide) hm) ?_
    | with_reducible refine raise_keeps (sub (by decide) hm) ?_
    | split

theorem execRingClaimRx_keeps {s0 s : State} {port : Fin 2} {frame : List Byte} (hm : ([.ring] : List Part).all pm = true) (hk : Keeps pm s0 s) :
    KeepsOut pm s0 (execRingClaimRx port frame s) := by
  unfold execRingClaimRx
  try dsimp only
  repeat' first
    | with_reducible assumption
    | with_reducible refine onRing_keeps (sub (by decide) hm) ?_
    | with_reducible refine ringRx_keeps (sub (by decide) hm) ?_ (fun _ _ => ?_)
    | with_reducible refine keepsOut_next ?_
    | split

theorem execRingCommandRx_keeps {s0 s : State} {port : Fin 2} {frame : List Byte} (hm : ([.ring] : List Part).all pm = true) (hk : Keeps pm s0 s) :
    KeepsOut pm s0 (execRingCommandRx port frame s) := by
  unfold execRingCommandRx
  try dsimp only
  repeat' first
    | with_reducible assumption
    | with_reducible refine onRing_keeps (sub (by decide) hm) ?_
    | with_reducible refine ringRx_keeps (sub (by decide) hm) ?_ (fun _ _ => ?_)
    | with_reducible refine countRing_keeps (sub (by decide) hm) ?_
    | with_reducible refine ringSend_keeps (sub (by decide) hm) ?_
    | with_reducible refine keepsOut_next ?_
    | split

theorem execRingResponseRx_keeps {s0 s : State} {port : Fin 2} {frame : List Byte} (hm : ([.boot, .host, .evt, .clk, .ring, .out] : List Part).all pm = true) (hk : Keeps pm s0 s) :
    KeepsOut pm s0 (execRingResponseRx port frame s) := by
  unfold execRingResponseRx
  try dsimp only
  repeat' first
    | with_reducible assumption
    | with_reducible refine onRing_keeps (sub (by decide) hm) ?_
    | with_reducible refine ringRx_keeps (sub (by decide) hm) ?_ (fun _ _ => ?_)
    | with_reducible refine raise_keeps (sub (by decide) hm) ?_
    | with_reducible refine keepsOut_next ?_
    | split

theorem execRingTableUpdateRx_keeps {s0 s : State} {port : Fin 2} {frame : List Byte} (hm : ([.boot, .host, .evt, .clk, .air, .fwd, .tm, .dram, .ring, .out] : List Part).all pm = true) (hk : Keeps pm s0 s) :
    KeepsOut pm s0 (execRingTableUpdateRx port frame s) := by
  unfold execRingTableUpdateRx
  try dsimp only
  repeat' first
    | with_reducible assumption
    | with_reducible refine onRing_keeps (sub (by decide) hm) ?_
    | with_reducible refine ringRx_keeps (sub (by decide) hm) ?_ (fun _ _ => ?_)
    | with_reducible refine countRing_keeps (sub (by decide) hm) ?_
    | with_reducible refine applyUpdate_keeps (sub (by decide) hm) ?_
    | with_reducible refine raise_keeps (sub (by decide) hm) ?_
    | with_reducible refine keepsOut_next ?_
    | split

theorem sendSync_keeps {s0 s : State} {mask : Nat} (hm : ([.ring] : List Part).all pm = true) (hk : Keeps pm s0 s) :
    Keeps pm s0 (sendSync mask s) := by
  unfold sendSync
  try dsimp only
  repeat' first
    | with_reducible assumption
    | with_reducible refine ringSend_keeps (sub (by decide) hm) ?_
    | with_reducible refine keeps_foldl ?_ ?_
    | (intro _ _ _)

theorem execRingTableSyncDone_keeps {s0 s : State}  (hm : ([.boot, .mbx, .host, .evt, .clk, .ring, .out] : List Part).all pm = true) (hk : Keeps pm s0 s) :
    KeepsOut pm s0 (execRingTableSyncDone s) := by
  unfold execRingTableSyncDone
  try dsimp only
  repeat' first
    | with_reducible assumption
    | with_reducible refine onRing_keeps (sub (by decide) hm) ?_
    | with_reducible refine sendSync_keeps (sub (by decide) hm) ?_
    | with_reducible refine endLong_keeps (sub (by decide) hm) ?_
    | with_reducible refine keepsOut_next ?_
    | split

theorem execSummaryTimer_keeps {s0 s : State}  (hm : ([.ring] : List Part).all pm = true) (hk : Keeps pm s0 s) :
    KeepsOut pm s0 (execSummaryTimer s) := by
  unfold execSummaryTimer
  try dsimp only
  repeat' first
    | with_reducible assumption
    | with_reducible refine onRing_keeps (sub (by decide) hm) ?_
    | with_reducible refine onlyIf_keeps (sub (by decide) hm) ?_ (fun _ => ?_)
    | with_reducible refine ringSend_keeps (sub (by decide) hm) ?_
    | with_reducible refine keepsOut_next ?_

theorem execRingSummaryRx_keeps {s0 s : State} {port : Fin 2} {frame : List Byte} (hm : ([.col, .ring] : List Part).all pm = true) (hk : Keeps pm s0 s) :
    KeepsOut pm s0 (execRingSummaryRx port frame s) := by
  unfold execRingSummaryRx
  try dsimp only
  repeat' first
    | with_reducible assumption
    | with_reducible refine onCol_keeps (sub (by decide) hm) ?_
    | with_reducible refine ringRx_keeps (sub (by decide) hm) ?_ (fun _ _ => ?_)
    | with_reducible refine keepsOut_next ?_

theorem execRendezvousInstant_keeps {s0 s : State}  (hm : ([.cad, .clk, .ring, .out] : List Part).all pm = true) (hk : Keeps pm s0 s) :
    KeepsOut pm s0 (execRendezvousInstant s) := by
  unfold execRendezvousInstant
  try dsimp only
  repeat' first
    | with_reducible assumption
    | with_reducible refine onRing_keeps (sub (by decide) hm) ?_
    | with_reducible refine emit_keeps (sub (by decide) hm) ?_
    | with_reducible refine onlyIf_keeps (sub (by decide) hm) ?_ (fun _ => ?_)
    | with_reducible refine advanceTo_keeps (sub (by decide) hm) ?_
    | with_reducible refine noteTime_keeps (sub (by decide) hm) ?_
    | with_reducible refine keepsOut_next ?_
    | with_reducible refine keeps_foldl ?_ ?_
    | split
    | (intro _ _ _)

theorem execRdvWindowOpen_keeps {s0 s : State}  (hm : ([.ring] : List Part).all pm = true) (hk : Keeps pm s0 s) :
    KeepsOut pm s0 (execRdvWindowOpen s) := by
  unfold execRdvWindowOpen
  try dsimp only
  repeat' first
    | with_reducible assumption
    | with_reducible refine onRing_keeps (sub (by decide) hm) ?_
    | with_reducible refine onRPort_keeps (sub (by decide) hm) ?_
    | with_reducible refine onlyIf_keeps (sub (by decide) hm) ?_ (fun _ => ?_)
    | with_reducible refine keepsOut_next ?_
    | with_reducible refine keeps_foldl ?_ ?_
    | split
    | (intro _ _ _)

theorem execRdvWindowEnd_keeps {s0 s : State}  (hm : ([.boot, .host, .evt, .clk, .ring, .out] : List Part).all pm = true) (hk : Keeps pm s0 s) :
    KeepsOut pm s0 (execRdvWindowEnd s) := by
  unfold execRdvWindowEnd
  try dsimp only
  repeat' first
    | with_reducible assumption
    | with_reducible refine onRing_keeps (sub (by decide) hm) ?_
    | with_reducible refine countRing_keeps (sub (by decide) hm) ?_
    | with_reducible refine onlyIf_keeps (sub (by decide) hm) ?_ (fun _ => ?_)
    | with_reducible refine raise_keeps (sub (by decide) hm) ?_
    | with_reducible refine keepsOut_next ?_
    | split

theorem execRendezvousRx_keeps {s0 s : State} {port : Fin 2} {ticks residence : Nat} {frame : List Byte} (hm : ([.boot, .mbx, .host, .evt, .modes, .clk, .ring, .out] : List Part).all pm = true) (hk : Keeps pm s0 s) :
    KeepsOut pm s0 (execRendezvousRx port ticks residence frame s) := by
  unfold execRendezvousRx
  try dsimp only
  repeat' first
    | with_reducible assumption
    | with_reducible refine onClk_keeps (sub (by decide) hm) ?_
    | with_reducible refine onRing_keeps (sub (by decide) hm) ?_
    | with_reducible refine emit_keeps (sub (by decide) hm) ?_
    | with_reducible refine countRing_keeps (sub (by decide) hm) ?_
    | with_reducible refine onlyIf_keeps (sub (by decide) hm) ?_ (fun _ => ?_)
    | with_reducible refine wakeSource_keeps (sub (by decide) hm) ?_
    | with_reducible refine noteTime_keeps (sub (by decide) hm) ?_
    | with_reducible refine keepsOut_next ?_
    | split

theorem specRingConfig_keeps {s0 s : State} {c : Cmd} (hm : ([.outs, .host, .fe, .air, .tm, .col, .ring, .out] : List Part).all pm = true) (h : Keeps pm s0 s) : KeepsP pm s0 (specRingConfig.body c s) := by
  simp only [specRingConfig]
  repeat' first
    | with_reducible assumption
    | with_reducible refine onRing_keeps (sub (by decide) hm) ?_
    | with_reducible refine sendClaim_keeps (sub (by decide) hm) ?_
    | with_reducible refine ringRelease_keeps (sub (by decide) hm) ?_
    | with_reducible refine ringInsert_keeps (sub (by decide) hm) ?_
    | with_reducible refine ringSend_keeps (sub (by decide) hm) ?_
    | with_reducible refine keepsP_mk ?_
    | with_reducible refine keeps_foldl ?_ ?_
    | split
    | (intro _ _ _)

theorem execRingConfig_keeps {s0 s : State} {d : Doorbell} {p : List Byte} (hm : ([.outs, .boot, .mbx, .host, .evt, .modes, .flt, .clk, .fe, .air, .tm, .col, .ring, .out] : List Part).all pm = true) (hk : Keeps pm s0 s) :
    KeepsOut pm s0 (execRingConfig d p s) := by
  unfold execRingConfig
  try dsimp only
  repeat' first
    | with_reducible assumption
    | (refine command_keeps (sub (by decide) hm) ?_ (fun _ _ hh => specRingConfig_keeps (sub (by decide) hm) hh))

theorem specRingStatus_keeps {s0 s : State} {c : Cmd} (hm : ([.ring] : List Part).all pm = true) (h : Keeps pm s0 s) : KeepsP pm s0 (specRingStatus.body c s) := by
  simp only [specRingStatus]
  repeat' first
    | with_reducible assumption
    | with_reducible refine onRing_keeps (sub (by decide) hm) ?_
    | with_reducible refine keepsP_mk ?_
    | split

theorem execRingStatus_keeps {s0 s : State} {d : Doorbell} {p : List Byte} (hm : ([.boot, .mbx, .host, .evt, .modes, .flt, .clk, .ring, .out] : List Part).all pm = true) (hk : Keeps pm s0 s) :
    KeepsOut pm s0 (execRingStatus d p s) := by
  unfold execRingStatus
  try dsimp only
  repeat' first
    | with_reducible assumption
    | (refine command_keeps (sub (by decide) hm) ?_ (fun _ _ hh => specRingStatus_keeps (sub (by decide) hm) hh))

theorem specRingTableSync_keeps {s0 s : State} {c : Cmd} (hm : ([] : List Part).all pm = true) (h : Keeps pm s0 s) : KeepsP pm s0 (specRingTableSync.body c s) := by
  simp only [specRingTableSync]
  repeat' first
    | with_reducible assumption
    | with_reducible refine keepsP_mk ?_
    | split

theorem execRingTableSync_keeps {s0 s : State} {d : Doorbell} {p : List Byte} (hm : ([.boot, .mbx, .host, .evt, .modes, .flt, .clk, .ring, .out] : List Part).all pm = true) (hk : Keeps pm s0 s) :
    KeepsOut pm s0 (execRingTableSync d p s) := by
  unfold execRingTableSync
  try dsimp only
  repeat' first
    | with_reducible assumption
    | (refine command_keeps (sub (by decide) hm) ?_ (fun _ _ hh => specRingTableSync_keeps (sub (by decide) hm) hh))

theorem specRendezvousSet_keeps {s0 s : State} {c : Cmd} (hm : ([.ring] : List Part).all pm = true) (h : Keeps pm s0 s) : KeepsP pm s0 (specRendezvousSet.body c s) := by
  simp only [specRendezvousSet]
  repeat' first
    | with_reducible assumption
    | with_reducible refine onRing_keeps (sub (by decide) hm) ?_
    | with_reducible refine keepsP_mk ?_
    | split

theorem execRendezvousSet_keeps {s0 s : State} {d : Doorbell} {p : List Byte} (hm : ([.boot, .mbx, .host, .evt, .modes, .flt, .clk, .ring, .out] : List Part).all pm = true) (hk : Keeps pm s0 s) :
    KeepsOut pm s0 (execRendezvousSet d p s) := by
  unfold execRendezvousSet
  try dsimp only
  repeat' first
    | with_reducible assumption
    | (refine command_keeps (sub (by decide) hm) ?_ (fun _ _ hh => specRendezvousSet_keeps (sub (by decide) hm) hh))

end Sys2Proof.Machine
end

