-- ==== Sys2Proof/Laws/KeepBeat.lean ====
section
/-!
SUPPORT. What the operations of Machine.Beat keep.
-/
set_option linter.unusedSimpArgs false
set_option linter.unusedVariables false
namespace Sys2Proof.Machine

variable {pm : Part → Bool}

theorem closeWindows_keeps {s0 s : State} {b beat i : Nat} (hm : ([.boot, .host, .evt, .clk, .fe, .air, .tm, .col, .out] : List Part).all pm = true) (hk : Keeps pm s0 s) :
    Keeps pm s0 (closeWindows b beat i s) := by
  unfold closeWindows
  try dsimp only
  repeat' first
    | with_reducible assumption
    | with_reducible refine settle_keeps (sub (by decide) hm) ?_
    | with_reducible refine userResp_keeps (sub (by decide) hm) ?_
    | with_reducible refine keeps_foldl ?_ ?_
    | split
    | (intro _ _ _)

theorem closePlan_keeps {s0 s : State} {b beat : Nat} (hm : ([.boot, .host, .evt, .clk, .fe, .air, .tm, .col, .out] : List Part).all pm = true) (hk : Keeps pm s0 s) :
    Keeps pm s0 (closePlan b beat s) := by
  unfold closePlan
  try dsimp only
  repeat' first
    | with_reducible assumption
    | with_reducible refine closeWindows_keeps (sub (by decide) hm) ?_
    | with_reducible refine notSent_keeps (sub (by decide) hm) ?_
    | with_reducible refine onPlan_keeps (sub (by decide) hm) ?_
    | with_reducible refine onAB_keeps (sub (by decide) hm) ?_
    | with_reducible refine keeps_foldl ?_ ?_
    | split
    | (intro _ _ _)

theorem unstaged_keeps {s0 s : State} {b beat i j : Nat} (hm : ([.boot, .host, .evt, .clk, .air, .cipher, .out] : List Part).all pm = true) (hk : Keeps pm s0 s) :
    Keeps pm s0 (unstaged b beat i j s) := by
  unfold unstaged
  try dsimp only
  repeat' first
    | with_reducible assumption
    | with_reducible refine protectStaged_keeps (sub (by decide) hm) ?_
    | with_reducible refine onPpdu_keeps (sub (by decide) hm) ?_
    | with_reducible refine returnFrames_keeps (sub (by decide) hm) ?_
    | with_reducible refine countAir_keeps (sub (by decide) hm) ?_
    | with_reducible refine keeps_foldl ?_ ?_
    | split
    | (intro _ _ _)

theorem runPlan_keeps {s0 s : State} {b beat : Nat} (hm : ([.boot, .host, .evt, .clk, .air, .cipher, .ring, .out] : List Part).all pm = true) (hk : Keeps pm s0 s) :
    Keeps pm s0 (runPlan b beat s) := by
  unfold runPlan
  try dsimp only
  repeat' first
    | with_reducible assumption
    | with_reducible refine onRing_keeps (sub (by decide) hm) ?_
    | with_reducible refine unstaged_keeps (sub (by decide) hm) ?_
    | with_reducible refine onPlan_keeps (sub (by decide) hm) ?_
    | with_reducible refine onPhy_keeps (sub (by decide) hm) ?_
    | with_reducible refine keeps_foldl ?_ ?_
    | split
    | (intro _ _ _)

theorem stagePlan_keeps {s0 s : State} {b beat : Nat} (hm : ([.air] : List Part).all pm = true) (hk : Keeps pm s0 s) :
    Keeps pm s0 (stagePlan b beat s) := by
  unfold stagePlan
  try dsimp only
  repeat' first
    | with_reducible assumption
    | with_reducible refine onPlan_keeps (sub (by decide) hm) ?_
    | with_reducible refine onPhy_keeps (sub (by decide) hm) ?_

theorem commitCsi_keeps {s0 s : State}  (hm : ([.air] : List Part).all pm = true) (hk : Keeps pm s0 s) :
    Keeps pm s0 (commitCsi s) := by
  unfold commitCsi
  try dsimp only
  repeat' first
    | with_reducible assumption
    | with_reducible refine onAir_keeps (sub (by decide) hm) ?_

theorem bfBeat_keeps {s0 s : State} {n : Nat} (hm : ([.air] : List Part).all pm = true) (hk : Keeps pm s0 s) :
    Keeps pm s0 (bfBeat n s) := by
  unfold bfBeat
  try dsimp only
  repeat' first
    | with_reducible assumption
    | with_reducible refine onAir_keeps (sub (by decide) hm) ?_

theorem evalPledge_keeps {s0 s : State} {b n sta : Nat} (hm : ([.boot, .host, .evt, .clk, .air, .out] : List Part).all pm = true) (hk : Keeps pm s0 s) :
    Keeps pm s0 (evalPledge b n sta s) := by
  unfold evalPledge
  try dsimp only
  repeat' first
    | with_reducible assumption
    | with_reducible refine onAir_keeps (sub (by decide) hm) ?_
    | with_reducible refine clearCause_keeps (sub (by decide) hm) ?_
    | with_reducible refine enterReview_keeps (sub (by decide) hm) ?_
    | with_reducible refine keeps_foldl ?_ ?_
    | split
    | (intro _ _ _)

theorem evalPledges_keeps {s0 s : State} {b n : Nat} (hm : ([.boot, .host, .evt, .clk, .air, .out] : List Part).all pm = true) (hk : Keeps pm s0 s) :
    Keeps pm s0 (evalPledges b n s) := by
  unfold evalPledges
  try dsimp only
  repeat' first
    | with_reducible assumption
    | with_reducible refine evalPledge_keeps (sub (by decide) hm) ?_
    | with_reducible refine keeps_foldl ?_ ?_
    | (intro _ _ _)

theorem planOpen_keeps {s0 s : State} {b n : Nat} (hm : ([.boot, .host, .evt, .clk, .cal, .air, .col, .out] : List Part).all pm = true) (hk : Keeps pm s0 s) :
    Keeps pm s0 (planOpen b n s) := by
  unfold planOpen
  try dsimp only
  repeat' first
    | with_reducible assumption
    | with_reducible refine putCandidates_keeps (sub (by decide) hm) ?_
    | with_reducible refine openPlan_keeps (sub (by decide) hm) ?_
    | with_reducible refine colEvent_keeps (sub (by decide) hm) ?_
    | split

theorem airBeat_keeps {s0 s : State} {b n : Nat} (hm : ([.boot, .host, .evt, .clk, .fe, .air, .tm, .cipher, .col, .ring, .out] : List Part).all pm = true) (hk : Keeps pm s0 s) :
    Keeps pm s0 (airBeat b n s) := by
  unfold airBeat
  try dsimp only
  repeat' first
    | with_reducible assumption
    | with_reducible refine stagePlan_keeps (sub (by decide) hm) ?_
    | with_reducible refine runPlan_keeps (sub (by decide) hm) ?_
    | with_reducible refine closePlan_keeps (sub (by decide) hm) ?_
    | with_reducible refine onAB_keeps (sub (by decide) hm) ?_
    | with_reducible refine keeps_foldl ?_ ?_
    | (intro _ _ _)

theorem beatStart_keeps {s0 s : State} {n : Nat} (hm : ([.outs, .boot, .host, .evt, .cad, .clk, .fe, .cal, .air, .tm, .cipher, .col, .ring, .out] : List Part).all pm = true) (hk : Keeps pm s0 s) :
    Keeps pm s0 (beatStart n s) := by
  unfold beatStart
  try dsimp only
  repeat' first
    | with_reducible assumption
    | with_reducible refine onCad_keeps (sub (by decide) hm) ?_
    | with_reducible refine onAir_keeps (sub (by decide) hm) ?_
    | with_reducible refine emit_keeps (sub (by decide) hm) ?_
    | with_reducible refine airBeat_keeps (sub (by decide) hm) ?_
    | with_reducible refine planOpen_keeps (sub (by decide) hm) ?_
    | with_reducible refine evalPledges_keeps (sub (by decide) hm) ?_
    | with_reducible refine bfBeat_keeps (sub (by decide) hm) ?_
    | with_reducible refine commitCsi_keeps (sub (by decide) hm) ?_
    | with_reducible refine ringBeat_keeps (sub (by decide) hm) ?_
    | with_reducible refine latchGauge_keeps (sub (by decide) hm) ?_
    | with_reducible refine mainSwitch_keeps (sub (by decide) hm) ?_
    | with_reducible refine assignLinks_keeps (sub (by decide) hm) ?_
    | with_reducible refine calBeat_keeps (sub (by decide) hm) ?_
    | with_reducible refine colEvent_keeps (sub (by decide) hm) ?_
    | with_reducible refine keeps_foldl ?_ ?_
    | split
    | (intro _ _ _)

theorem execBeatStart_keeps {s0 s : State} {n : Nat} (hm : ([.outs, .boot, .host, .evt, .cad, .clk, .fe, .cal, .air, .tm, .cipher, .col, .ring, .out] : List Part).all pm = true) (hk : Keeps pm s0 s) :
    KeepsOut pm s0 (execBeatStart n s) := by
  unfold execBeatStart
  try dsimp only
  repeat' first
    | with_reducible assumption
    | with_reducible refine beatStart_keeps (sub (by decide) hm) ?_
    | with_reducible refine onlyIf_keeps (sub (by decide) hm) ?_ (fun _ => ?_)
    | with_reducible refine advanceTo_keeps (sub (by decide) hm) ?_
    | with_reducible refine keepsOut_next ?_

theorem execKernelDeadline_keeps {s0 s : State} {n : Nat} (hm : ([.boot, .host, .evt, .cad, .clk, .air, .fwd, .tm, .col, .dram, .ring, .drawn, .out] : List Part).all pm = true) (hk : Keeps pm s0 s) :
    KeepsOut pm s0 (execKernelDeadline n s) := by
  unfold execKernelDeadline
  try dsimp only
  repeat' first
    | with_reducible assumption
    | with_reducible refine endPlanOpens_keeps (sub (by decide) hm) ?_
    | with_reducible refine completePlan_keeps (sub (by decide) hm) ?_
    | with_reducible refine onlyIf_keeps (sub (by decide) hm) ?_ (fun _ => ?_)
    | with_reducible refine advanceTo_keeps (sub (by decide) hm) ?_
    | with_reducible refine keepsOut_next ?_

theorem execPlanSeal_keeps {s0 s : State} {n : Nat} (hm : ([.cad, .clk, .air] : List Part).all pm = true) (hk : Keeps pm s0 s) :
    KeepsOut pm s0 (execPlanSeal n s) := by
  unfold execPlanSeal
  try dsimp only
  repeat' first
    | with_reducible assumption
    | with_reducible refine onPlan_keeps (sub (by decide) hm) ?_
    | with_reducible refine onlyIf_keeps (sub (by decide) hm) ?_ (fun _ => ?_)
    | with_reducible refine advanceTo_keeps (sub (by decide) hm) ?_
    | with_reducible refine keepsOut_next ?_

end Sys2Proof.Machine
end

