-- ==== Sys2Proof/Laws/KeepTable.lean ====
section
/-!
SUPPORT. What the operations of Machine.Table keep.
-/
set_option linter.unusedSimpArgs false
set_option linter.unusedVariables false
namespace Sys2Proof.Machine

variable {pm : Part → Bool}

theorem specSysRestart_keeps {s0 s : State} {c : Cmd} (hm : ([.pwr, .outs, .boot, .mbx, .host, .evt, .modes, .flt, .cad, .clk, .fe, .cal, .air, .nb, .mlad, .cls, .fwd, .tm, .cipher, .col, .dram, .ring] : List Part).all pm = true) (h : Keeps pm s0 s) : KeepsP pm s0 (specSysRestart.body c s) := by
  simp only [specSysRestart]
  repeat' first
    | with_reducible assumption
    | with_reducible refine restart_keeps (sub (by decide) hm) ?_
    | with_reducible refine keepsP_mk ?_
    | split

theorem specProfileStore_keeps {s0 s : State} {c : Cmd} (hm : ([.boot] : List Part).all pm = true) (h : Keeps pm s0 s) : KeepsP pm s0 (specProfileStore.body c s) := by
  simp only [specProfileStore]
  repeat' first
    | with_reducible assumption
    | with_reducible refine onBoot_keeps (sub (by decide) hm) ?_ ?_ ?_ ?_
    | with_reducible refine mramWrite_keeps (sub (by decide) hm) ?_
    | with_reducible refine keepsP_mk ?_
    | split
    | with_reducible exact id

/-- Every body of a list of opcodes keeps to a state. -/
def AllKeep (pm : Part → Bool) (l : List OpSpec) : Prop := ∀ o ∈ l, ∀ s0, BodyKeeps pm s0 o
theorem allKeep_nil : AllKeep pm [] := by intro o h; cases h
theorem allKeep_cons {o : OpSpec} {l : List OpSpec} (h : ∀ s0 c s, Keeps pm s0 s → KeepsP pm s0 (o.body c s)) (k : AllKeep pm l) : AllKeep pm (o :: l) := by
  intro x hx
  cases hx with
  | head => exact h
  | tail _ hx => exact k x hx
theorem allKeep_append {l k : List OpSpec} (h : AllKeep pm l) (h' : AllKeep pm k) : AllKeep pm (l ++ k) := by
  intro x hx
  cases List.mem_append.mp hx with
  | inl hx => exact h x hx
  | inr hx => exact h' x hx

theorem family01_keep (hm : ([.pwr, .outs, .boot, .mbx, .host, .evt, .modes, .flt, .cad, .clk, .fe, .cal, .air, .nb, .mlad, .cls, .fwd, .tm, .cipher, .col, .dram, .ring, .drawn, .out] : List Part).all pm = true) : AllKeep pm family01 :=
  allKeep_cons (fun _ _ _ h => specIdentify_keeps (sub (by decide) hm) h) <|
  allKeep_cons (fun _ _ _ h => specProfileLoad_keeps (sub (by decide) hm) h) <|
  allKeep_cons (fun _ _ _ h => specProfileSelect_keeps (sub (by decide) hm) h) <|
  allKeep_cons (fun _ _ _ h => specProfileRead_keeps (sub (by decide) hm) h) <|
  allKeep_cons (fun _ _ _ h => specProfileStage_keeps (sub (by decide) hm) h) <|
  allKeep_cons (fun _ _ _ h => specHrConfig_keeps (sub (by decide) hm) h) <|
  allKeep_cons (fun _ _ _ h => specHrStatus_keeps (sub (by decide) hm) h) <|
  allKeep_cons (fun _ _ _ h => specEventRoute_keeps (sub (by decide) hm) h) <|
  allKeep_cons (fun _ _ _ h => specGpioSet_keeps (sub (by decide) hm) h) <|
  allKeep_cons (fun _ _ _ h => specGpioGet_keeps (sub (by decide) hm) h) <|
  allKeep_cons (fun _ _ _ h => specSysRestart_keeps (sub (by decide) hm) h) <|
  allKeep_nil
theorem family02_keep (hm : ([.pwr, .outs, .boot, .mbx, .host, .evt, .modes, .flt, .cad, .clk, .fe, .cal, .air, .nb, .mlad, .cls, .fwd, .tm, .cipher, .col, .dram, .ring, .drawn, .out] : List Part).all pm = true) : AllKeep pm family02 :=
  allKeep_cons (fun _ _ _ h => specModeSet_keeps (sub (by decide) hm) h) <|
  allKeep_cons (fun _ _ _ h => specModeGet_keeps (sub (by decide) hm) h) <|
  allKeep_cons (fun _ _ _ h => specPwrStats_keeps (sub (by decide) hm) h) <|
  allKeep_cons (fun _ _ _ h => specDomainStatus_keeps (sub (by decide) hm) h) <|
  allKeep_cons (fun _ _ _ h => specWakeConfig_keeps (sub (by decide) hm) h) <|
  allKeep_cons (fun _ _ _ h => specVigilConfig_keeps (sub (by decide) hm) h) <|
  allKeep_nil
theorem family03_keep (hm : ([.pwr, .outs, .boot, .mbx, .host, .evt, .modes, .flt, .cad, .clk, .fe, .cal, .air, .nb, .mlad, .cls, .fwd, .tm, .cipher, .col, .dram, .ring, .drawn, .out] : List Part).all pm = true) : AllKeep pm family03 :=
  allKeep_cons (fun _ _ _ h => specCadSourceSet_keeps (sub (by decide) hm) h) <|
  allKeep_cons (fun _ _ _ h => specCadStatus_keeps (sub (by decide) hm) h) <|
  allKeep_cons (fun _ _ _ h => specTimeGet_keeps (sub (by decide) hm) h) <|
  allKeep_cons (fun _ _ _ h => specTimeStep_keeps (sub (by decide) hm) h) <|
  allKeep_cons (fun _ _ _ h => specTimeAdjust_keeps (sub (by decide) hm) h) <|
  allKeep_cons (fun _ _ _ h => specPtpConfig_keeps (sub (by decide) hm) h) <|
  allKeep_cons (fun _ _ _ h => specCadMasterSet_keeps (sub (by decide) hm) h) <|
  allKeep_cons (fun _ _ _ h => specHoldoverConfig_keeps (sub (by decide) hm) h) <|
  allKeep_cons (fun _ _ _ h => specTsRead_keeps (sub (by decide) hm) h) <|
  allKeep_nil
theorem family04_keep (hm : ([.pwr, .outs, .boot, .mbx, .host, .evt, .modes, .flt, .cad, .clk, .fe, .cal, .air, .nb, .mlad, .cls, .fwd, .tm, .cipher, .col, .dram, .ring, .drawn, .out] : List Part).all pm = true) : AllKeep pm family04 :=
  allKeep_cons (fun _ _ _ h => specBandConfig_keeps (sub (by decide) hm) h) <|
  allKeep_cons (fun _ _ _ h => specChainEnable_keeps (sub (by decide) hm) h) <|
  allKeep_cons (fun _ _ _ h => specTxpwrSet_keeps (sub (by decide) hm) h) <|
  allKeep_cons (fun _ _ _ h => specFemConfig_keeps (sub (by decide) hm) h) <|
  allKeep_cons (fun _ _ _ h => specRffeAccess_keeps (sub (by decide) hm) h) <|
  allKeep_cons (fun _ _ _ h => specCoexConfig_keeps (sub (by decide) hm) h) <|
  allKeep_cons (fun _ _ _ h => specBlankMap_keeps (sub (by decide) hm) h) <|
  allKeep_cons (fun _ _ _ h => specChainStatus_keeps (sub (by decide) hm) h) <|
  allKeep_cons (fun _ _ _ h => specFactoryTest_keeps (sub (by decide) hm) h) <|
  allKeep_cons (fun _ _ _ h => specSpectrumSurvey_keeps (sub (by decide) hm) h) <|
  allKeep_cons (fun _ _ _ h => specSoundingConfig_keeps (sub (by decide) hm) h) <|
  allKeep_cons (fun _ _ _ h => specPrecodeConfig_keeps (sub (by decide) hm) h) <|
  allKeep_cons (fun _ _ _ h => specCsiRead_keeps (sub (by decide) hm) h) <|
  allKeep_nil
theorem family05_keep (hm : ([.pwr, .outs, .boot, .mbx, .host, .evt, .modes, .flt, .cad, .clk, .fe, .cal, .air, .nb, .mlad, .cls, .fwd, .tm, .cipher, .col, .dram, .ring, .drawn, .out] : List Part).all pm = true) : AllKeep pm family05 :=
  allKeep_cons (fun _ _ _ h => specCalRun_keeps (sub (by decide) hm) h) <|
  allKeep_cons (fun _ _ _ h => specCalStatus_keeps (sub (by decide) hm) h) <|
  allKeep_cons (fun _ _ _ h => specCalSchedule_keeps (sub (by decide) hm) h) <|
  allKeep_cons (fun _ _ _ h => specCalTableRead_keeps (sub (by decide) hm) h) <|
  allKeep_cons (fun _ _ _ h => specCalTableStore_keeps (sub (by decide) hm) h) <|
  allKeep_cons (fun _ _ _ h => specSliceStatus_keeps (sub (by decide) hm) h) <|
  allKeep_nil
theorem family06_keep (hm : ([.pwr, .outs, .boot, .mbx, .host, .evt, .modes, .flt, .cad, .clk, .fe, .cal, .air, .nb, .mlad, .cls, .fwd, .tm, .cipher, .col, .dram, .ring, .drawn, .out] : List Part).all pm = true) : AllKeep pm family06 :=
  allKeep_cons (fun _ _ _ h => specStaAdd_keeps (sub (by decide) hm) h) <|
  allKeep_cons (fun _ _ _ h => specStaModify_keeps (sub (by decide) hm) h) <|
  allKeep_cons (fun _ _ _ h => specStaRemove_keeps (sub (by decide) hm) h) <|
  allKeep_cons (fun _ _ _ h => specStaGet_keeps (sub (by decide) hm) h) <|
  allKeep_cons (fun _ _ _ h => specAcParamSet_keeps (sub (by decide) hm) h) <|
  allKeep_cons (fun _ _ _ h => specTurnPlanSet_keeps (sub (by decide) hm) h) <|
  allKeep_cons (fun _ _ _ h => specAirGateSet_keeps (sub (by decide) hm) h) <|
  allKeep_cons (fun _ _ _ h => specBeaconTemplate_keeps (sub (by decide) hm) h) <|
  allKeep_cons (fun _ _ _ h => specLinkSteer_keeps (sub (by decide) hm) h) <|
  allKeep_cons (fun _ _ _ h => specPolicyBind_keeps (sub (by decide) hm) h) <|
  allKeep_nil
theorem family07_keep (hm : ([.pwr, .outs, .boot, .mbx, .host, .evt, .modes, .flt, .cad, .clk, .fe, .cal, .air, .nb, .mlad, .cls, .fwd, .tm, .cipher, .col, .dram, .ring, .drawn, .out] : List Part).all pm = true) : AllKeep pm family07 :=
  allKeep_cons (fun _ _ _ h => specBfAdmit_keeps (sub (by decide) hm) h) <|
  allKeep_cons (fun _ _ _ h => specBfModify_keeps (sub (by decide) hm) h) <|
  allKeep_cons (fun _ _ _ h => specBfRelease_keeps (sub (by decide) hm) h) <|
  allKeep_cons (fun _ _ _ h => specBfStatus_keeps (sub (by decide) hm) h) <|
  allKeep_cons (fun _ _ _ h => specBfPledgeSet_keeps (sub (by decide) hm) h) <|
  allKeep_cons (fun _ _ _ h => specBfStats_keeps (sub (by decide) hm) h) <|
  allKeep_nil
theorem family08_keep (hm : ([.pwr, .outs, .boot, .mbx, .host, .evt, .modes, .flt, .cad, .clk, .fe, .cal, .air, .nb, .mlad, .cls, .fwd, .tm, .cipher, .col, .dram, .ring, .drawn, .out] : List Part).all pm = true) : AllKeep pm family08 :=
  allKeep_cons (fun _ _ _ h => specNbConfig_keeps (sub (by decide) hm) h) <|
  allKeep_cons (fun _ _ _ h => specNbChannelPlan_keeps (sub (by decide) hm) h) <|
  allKeep_cons (fun _ _ _ h => specDwellConfig_keeps (sub (by decide) hm) h) <|
  allKeep_cons (fun _ _ _ h => specTunerRun_keeps (sub (by decide) hm) h) <|
  allKeep_cons (fun _ _ _ h => specNbStats_keeps (sub (by decide) hm) h) <|
  allKeep_cons (fun _ _ _ h => specNodeAdd_keeps (sub (by decide) hm) h) <|
  allKeep_cons (fun _ _ _ h => specNodeRemove_keeps (sub (by decide) hm) h) <|
  allKeep_cons (fun _ _ _ h => specNodeGet_keeps (sub (by decide) hm) h) <|
  allKeep_cons (fun _ _ _ h => specNbSend_keeps (sub (by decide) hm) h) <|
  allKeep_cons (fun _ _ _ h => specFloodConfig_keeps (sub (by decide) hm) h) <|
  allKeep_cons (fun _ _ _ h => specHeldStatus_keeps (sub (by decide) hm) h) <|
  allKeep_nil
theorem family09_keep (hm : ([.pwr, .outs, .boot, .mbx, .host, .evt, .modes, .flt, .cad, .clk, .fe, .cal, .air, .nb, .mlad, .cls, .fwd, .tm, .cipher, .col, .dram, .ring, .drawn, .out] : List Part).all pm = true) : AllKeep pm family09 :=
  allKeep_cons (fun _ _ _ h => specParseConfig_keeps (sub (by decide) hm) h) <|
  allKeep_cons (fun _ _ _ h => specRuleWrite_keeps (sub (by decide) hm) h) <|
  allKeep_cons (fun _ _ _ h => specRuleClear_keeps (sub (by decide) hm) h) <|
  allKeep_cons (fun _ _ _ h => specRangeSet_keeps (sub (by decide) hm) h) <|
  allKeep_cons (fun _ _ _ h => specPatternWrite_keeps (sub (by decide) hm) h) <|
  allKeep_cons (fun _ _ _ h => specPolicerSet_keeps (sub (by decide) hm) h) <|
  allKeep_cons (fun _ _ _ h => specClassStats_keeps (sub (by decide) hm) h) <|
  allKeep_nil
theorem family0A_keep (hm : ([.pwr, .outs, .boot, .mbx, .host, .evt, .modes, .flt, .cad, .clk, .fe, .cal, .air, .nb, .mlad, .cls, .fwd, .tm, .cipher, .col, .dram, .ring, .drawn, .out] : List Part).all pm = true) : AllKeep pm family0A :=
  allKeep_cons (fun _ _ _ h => specL2Add_keeps (sub (by decide) hm) h) <|
  allKeep_cons (fun _ _ _ h => specL2Remove_keeps (sub (by decide) hm) h) <|
  allKeep_cons (fun _ _ _ h => specL2Flush_keeps (sub (by decide) hm) h) <|
  allKeep_cons (fun _ _ _ h => specRouteAdd_keeps (sub (by decide) hm) h) <|
  allKeep_cons (fun _ _ _ h => specRouteRemove_keeps (sub (by decide) hm) h) <|
  allKeep_cons (fun _ _ _ h => specRouteBulk_keeps (sub (by decide) hm) h) <|
  allKeep_cons (fun _ _ _ h => specNexthopSet_keeps (sub (by decide) hm) h) <|
  allKeep_cons (fun _ _ _ h => specEcmpSet_keeps (sub (by decide) hm) h) <|
  allKeep_cons (fun _ _ _ h => specAgingSet_keeps (sub (by decide) hm) h) <|
  allKeep_cons (fun _ _ _ h => specFwdStats_keeps (sub (by decide) hm) h) <|
  allKeep_nil
theorem family0B_keep (hm : ([.pwr, .outs, .boot, .mbx, .host, .evt, .modes, .flt, .cad, .clk, .fe, .cal, .air, .nb, .mlad, .cls, .fwd, .tm, .cipher, .col, .dram, .ring, .drawn, .out] : List Part).all pm = true) : AllKeep pm family0B :=
  allKeep_cons (fun _ _ _ h => specQueueConfig_keeps (sub (by decide) hm) h) <|
  allKeep_cons (fun _ _ _ h => specShaperSet_keeps (sub (by decide) hm) h) <|
  allKeep_cons (fun _ _ _ h => specGateListSet_keeps (sub (by decide) hm) h) <|
  allKeep_cons (fun _ _ _ h => specBufferConfig_keeps (sub (by decide) hm) h) <|
  allKeep_cons (fun _ _ _ h => specChainPairSet_keeps (sub (by decide) hm) h) <|
  allKeep_cons (fun _ _ _ h => specTmStats_keeps (sub (by decide) hm) h) <|
  allKeep_nil
theorem family0C_keep (hm : ([.pwr, .outs, .boot, .mbx, .host, .evt, .modes, .flt, .cad, .clk, .fe, .cal, .air, .nb, .mlad, .cls, .fwd, .tm, .cipher, .col, .dram, .ring, .drawn, .out] : List Part).all pm = true) : AllKeep pm family0C :=
  allKeep_cons (fun _ _ _ h => specKeyUnwrap_keeps (sub (by decide) hm) h) <|
  allKeep_cons (fun _ _ _ h => specKeyErase_keeps (sub (by decide) hm) h) <|
  allKeep_cons (fun _ _ _ h => specKekProvision_keeps (sub (by decide) hm) h) <|
  allKeep_cons (fun _ _ _ h => specCmLevelSet_keeps (sub (by decide) hm) h) <|
  allKeep_cons (fun _ _ _ h => specKeySlotInfo_keeps (sub (by decide) hm) h) <|
  allKeep_nil
theorem family0D_keep (hm : ([.pwr, .outs, .boot, .mbx, .host, .evt, .modes, .flt, .cad, .clk, .fe, .cal, .air, .nb, .mlad, .cls, .fwd, .tm, .cipher, .col, .dram, .ring, .drawn, .out] : List Part).all pm = true) : AllKeep pm family0D :=
  allKeep_cons (fun _ _ _ h => specKernelLoad_keeps (sub (by decide) hm) h) <|
  allKeep_cons (fun _ _ _ h => specKernelStart_keeps (sub (by decide) hm) h) <|
  allKeep_cons (fun _ _ _ h => specKernelStop_keeps (sub (by decide) hm) h) <|
  allKeep_cons (fun _ _ _ h => specTaskConfig_keeps (sub (by decide) hm) h) <|
  allKeep_cons (fun _ _ _ h => specColObserveSet_keeps (sub (by decide) hm) h) <|
  allKeep_cons (fun _ _ _ h => specMassifStats_keeps (sub (by decide) hm) h) <|
  allKeep_nil
theorem family0E_keep (hm : ([.pwr, .outs, .boot, .mbx, .host, .evt, .modes, .flt, .cad, .clk, .fe, .cal, .air, .nb, .mlad, .cls, .fwd, .tm, .cipher, .col, .dram, .ring, .drawn, .out] : List Part).all pm = true) : AllKeep pm family0E :=
  allKeep_cons (fun _ _ _ h => specDramConfig_keeps (sub (by decide) hm) h) <|
  allKeep_cons (fun _ _ _ h => specDramTrain_keeps (sub (by decide) hm) h) <|
  allKeep_cons (fun _ _ _ h => specDramMapSet_keeps (sub (by decide) hm) h) <|
  allKeep_cons (fun _ _ _ h => specDramStatus_keeps (sub (by decide) hm) h) <|
  allKeep_cons (fun _ _ _ h => specFreezeRead_keeps (sub (by decide) hm) h) <|
  allKeep_nil
theorem family0F_keep (hm : ([.pwr, .outs, .boot, .mbx, .host, .evt, .modes, .flt, .cad, .clk, .fe, .cal, .air, .nb, .mlad, .cls, .fwd, .tm, .cipher, .col, .dram, .ring, .drawn, .out] : List Part).all pm = true) : AllKeep pm family0F :=
  allKeep_cons (fun _ _ _ h => specRingConfig_keeps (sub (by decide) hm) h) <|
  allKeep_cons (fun _ _ _ h => specRingStatus_keeps (sub (by decide) hm) h) <|
  allKeep_cons (fun _ _ _ h => specRingTableSync_keeps (sub (by decide) hm) h) <|
  allKeep_cons (fun _ _ _ h => specRendezvousSet_keeps (sub (by decide) hm) h) <|
  allKeep_nil
theorem family1F_keep (hm : ([.pwr, .outs, .boot, .mbx, .host, .evt, .modes, .flt, .cad, .clk, .fe, .cal, .air, .nb, .mlad, .cls, .fwd, .tm, .cipher, .col, .dram, .ring, .drawn, .out] : List Part).all pm = true) : AllKeep pm family1F :=
  allKeep_cons (fun _ _ _ h => specLogRead_keeps (sub (by decide) hm) h) <|
  allKeep_cons (fun _ _ _ h => specFaultRead_keeps (sub (by decide) hm) h) <|
  allKeep_cons (fun _ _ _ h => specCounterRead_keeps (sub (by decide) hm) h) <|
  allKeep_cons (fun _ _ _ h => specStatusRead_keeps (sub (by decide) hm) h) <|
  allKeep_cons (fun _ _ _ h => specWatchdogSet_keeps (sub (by decide) hm) h) <|
  allKeep_cons (fun _ _ _ h => specLogClear_keeps (sub (by decide) hm) h) <|
  allKeep_nil
theorem baseSpecs_keep (hm : ([.pwr, .outs, .boot, .mbx, .host, .evt, .modes, .flt, .cad, .clk, .fe, .cal, .air, .nb, .mlad, .cls, .fwd, .tm, .cipher, .col, .dram, .ring, .drawn, .out] : List Part).all pm = true) : AllKeep pm baseSpecs := allKeep_append (allKeep_append (allKeep_append (allKeep_append (allKeep_append (allKeep_append (allKeep_append (allKeep_append (allKeep_append (allKeep_append (allKeep_append (allKeep_append (allKeep_append (allKeep_append (allKeep_append (family01_keep hm) (family02_keep hm)) (family03_keep hm)) (family04_keep hm)) (family05_keep hm)) (family06_keep hm)) (family07_keep hm)) (family08_keep hm)) (family09_keep hm)) (family0A_keep hm)) (family0B_keep hm)) (family0C_keep hm)) (family0D_keep hm)) (family0E_keep hm)) (family0F_keep hm)) (family1F_keep hm)

theorem execProfileStore_keeps {s0 s : State} {d : Doorbell} {p : List Byte} (hm : ([.boot, .mbx, .host, .evt, .modes, .flt, .clk, .ring, .out] : List Part).all pm = true) (hk : Keeps pm s0 s) : KeepsOut pm s0 (execProfileStore d p s) :=
  command_keeps (sub (by decide) hm) hk fun _ _ h => specProfileStore_keeps (sub (by decide) hm) h

/-- Every opcode's body keeps to a state. -/
theorem specOf_keeps {s0 : State} {op : Nat} (hm : ([.pwr, .outs, .boot, .mbx, .host, .evt, .modes, .flt, .cad, .clk, .fe, .cal, .air, .nb, .mlad, .cls, .fwd, .tm, .cipher, .col, .dram, .ring, .drawn, .out] : List Part).all pm = true) : ∀ x, specOf op = some x → BodyKeeps pm s0 x := by
  intro x hx
  have hx' : x ∈ specProfileStore :: baseSpecs := by
    unfold specOf findSpec at hx
    exact List.mem_of_find?_eq_some hx
  exact allKeep_cons (fun _ _ _ h => specProfileStore_keeps (sub (by decide) hm) h) (baseSpecs_keep hm) x hx' s0

end Sys2Proof.Machine
end

