-- ==== Sys2Proof/Laws/KeepBootSeq.lean ====
section
/-!
SUPPORT. What the operations of Machine.BootSeq keep.
-/
set_option linter.unusedSimpArgs false
set_option linter.unusedVariables false
namespace Sys2Proof.Machine

variable {pm : Part → Bool}

theorem replayStops_keeps {s0 s : State} {status : Nat} (hm : ([.boot, .host, .evt, .clk, .out] : List Part).all pm = true) (hk : Keeps pm s0 s) :
    Keeps pm s0 (replayStops status s) := by
  unfold replayStops
  try dsimp only
  repeat' first
    | with_reducible assumption
    | with_reducible refine onBoot_keeps (sub (by decide) hm) ?_ ?_ ?_ ?_
    | with_reducible refine raise_keeps (sub (by decide) hm) ?_
    | with_reducible exact id

theorem replayEnds_keeps {s0 s : State}  (hm : ([.boot, .mbx, .host, .evt, .modes, .clk, .ring, .out] : List Part).all pm = true) (hk : Keeps pm s0 s) :
    Keeps pm s0 (replayEnds s) := by
  unfold replayEnds
  try dsimp only
  repeat' first
    | with_reducible assumption
    | with_reducible refine onBoot_keeps (sub (by decide) hm) ?_ ?_ ?_ ?_
    | with_reducible refine autostart_keeps (sub (by decide) hm) ?_
    | with_reducible refine raise_keeps (sub (by decide) hm) ?_
    | split
    | with_reducible exact id

theorem replayNext_keeps {s0 s : State}  (hm : ([.boot] : List Part).all pm = true) (hk : Keeps pm s0 s) :
    Keeps pm s0 (replayNext s) := by
  unfold replayNext
  try dsimp only
  repeat' first
    | with_reducible assumption
    | with_reducible refine onBoot_keeps (sub (by decide) hm) ?_ ?_ ?_ ?_
    | with_reducible exact id

theorem replayRecord_keeps {s0 s : State}  (hm : ([.pwr, .outs, .boot, .mbx, .host, .evt, .modes, .flt, .cad, .clk, .fe, .cal, .air, .nb, .mlad, .cls, .fwd, .tm, .cipher, .col, .dram, .ring, .drawn, .out] : List Part).all pm = true) (hk : Keeps pm s0 s) :
    Keeps pm s0 (replayRecord s) := by
  unfold replayRecord
  try dsimp only
  repeat' first
    | with_reducible assumption
    | with_reducible refine serve_keeps (sub (by decide) hm) ?_ (specOf_keeps (sub (by decide) hm))
    | with_reducible refine onBoot_keeps (sub (by decide) hm) ?_ ?_ ?_ ?_
    | split
    | with_reducible exact id

theorem replayRun_keeps {s0 s : State} {n : Nat} (hm : ([.pwr, .outs, .boot, .mbx, .host, .evt, .modes, .flt, .cad, .clk, .fe, .cal, .air, .nb, .mlad, .cls, .fwd, .tm, .cipher, .col, .dram, .ring, .drawn, .out] : List Part).all pm = true) (hk : Keeps pm s0 s) : Keeps pm s0 (replayRun n s) := by
  induction n generalizing s with
  | zero => exact hk
  | succ n ih =>
    unfold replayRun
    split
    · exact hk
    · split
      · split
        · exact hk
        · exact hk
        · exact ih (replayNext_keeps (sub (by decide) hm) hk)
        · exact replayStops_keeps (sub (by decide) hm) hk
      · split
        · exact replayEnds_keeps (sub (by decide) hm) hk
        · have h : Keeps pm s0 (replayRecord s) := replayRecord_keeps (sub (by decide) hm) hk
          revert h
          dsimp only
          generalize replayRecord s = t
          intro h
          split
          · exact h
          · split
            · exact onBoot_keeps (sub (by decide) hm) h id id id
            · exact onBoot_keeps (sub (by decide) hm) h id id id
            · exact ih (replayNext_keeps (sub (by decide) hm) h)
            · exact replayStops_keeps (sub (by decide) hm) h

theorem execReplayResume_keeps {s0 s : State}  (hm : ([.pwr, .outs, .boot, .mbx, .host, .evt, .modes, .flt, .cad, .clk, .fe, .cal, .air, .nb, .mlad, .cls, .fwd, .tm, .cipher, .col, .dram, .ring, .drawn, .out] : List Part).all pm = true) (hk : Keeps pm s0 s) :
    KeepsOut pm s0 (execReplayResume s) := by
  unfold execReplayResume
  try dsimp only
  repeat' first
    | with_reducible assumption
    | with_reducible refine replayRun_keeps (sub (by decide) hm) ?_
    | with_reducible refine keepsOut_next ?_

theorem loadWindow_keeps {s0 s : State}  (hm : ([.flt] : List Part).all pm = true) (hk : Keeps pm s0 s) :
    Keeps pm s0 (loadWindow s) := by
  unfold loadWindow
  try dsimp only
  repeat' first
    | with_reducible assumption
    | with_reducible refine onFlt_keeps (sub (by decide) hm) ?_ ?_ ?_
    | split
    | with_reducible exact id

theorem checkKek0_keeps {s0 s : State}  (hm : ([.cipher] : List Part).all pm = true) (hk : Keeps pm s0 s) :
    Keeps pm s0 (checkKek0 s) := by
  unfold checkKek0
  try dsimp only
  repeat' first
    | with_reducible assumption
    | with_reducible refine onCipher_keeps (sub (by decide) hm) ?_ ?_
    | with_reducible exact id

theorem loadFloor_keeps {s0 s : State}  (hm : ([.boot, .mlad] : List Part).all pm = true) (hk : Keeps pm s0 s) :
    Keeps pm s0 (loadFloor s) := by
  unfold loadFloor
  try dsimp only
  repeat' first
    | with_reducible assumption
    | with_reducible refine onMlad_keeps (sub (by decide) hm) ?_
    | with_reducible refine mramWrite_keeps (sub (by decide) hm) ?_

theorem bootReports_keeps {s0 s : State}  (hm : ([.boot, .host, .evt, .flt, .clk, .out] : List Part).all pm = true) (hk : Keeps pm s0 s) :
    Keeps pm s0 (bootReports s) := by
  unfold bootReports
  try dsimp only
  repeat' first
    | with_reducible assumption
    | with_reducible refine onFlt_keeps (sub (by decide) hm) ?_ ?_ ?_
    | with_reducible refine raise_keeps (sub (by decide) hm) ?_
    | split
    | with_reducible exact id

theorem beginReplay_keeps {s0 s : State} (hm : ([.boot, .mbx, .host, .evt, .modes, .flt, .clk, .ring, .out] : List Part).all pm = true) (hk : Keeps pm s0 s) : Keeps pm s0 (beginReplay s) := by
  unfold beginReplay
  have k := @verifyProf_auto s s.boot.active.toNat
  have hv : KeepsP pm s0 (verifyProf s.boot.active.toNat s) := verifyProf_keeps (sub (by decide) hm) hk
  revert k hv
  dsimp only
  generalize verifyProf s.boot.active.toNat s = r
  intro k hv
  split
  · rename_i hz
    have h : Keeps pm s0 (startReplay s.boot.active.toNat r.2) := startReplay_keeps (sub (by decide) hm) (keeps_snd hv) fun _ => k hz
    split
    · exact replayEnds_keeps (sub (by decide) hm) h
    · exact h
  · refine raise_keeps (sub (by decide) hm) (onBoot_keeps (sub (by decide) hm) (keeps_snd hv) id id ?_)
    exact fun _ => Nat.le_of_ble_eq_true rfl

theorem reachBoot_keeps {s0 s : State}  (hm : ([.outs, .boot, .mbx, .host, .evt, .modes, .flt, .clk, .fe, .air, .col, .ring, .out] : List Part).all pm = true) (hk : Keeps pm s0 s) :
    Keeps pm s0 (reachBoot s) := by
  unfold reachBoot
  try dsimp only
  repeat' first
    | with_reducible assumption
    | with_reducible refine onBoot_keeps (sub (by decide) hm) ?_ ?_ ?_ ?_
    | with_reducible refine onHost_keeps (sub (by decide) hm) ?_ ?_
    | with_reducible refine onFlt_keeps (sub (by decide) hm) ?_ ?_ ?_
    | with_reducible refine beginReplay_keeps (sub (by decide) hm) ?_
    | with_reducible refine bootReports_keeps (sub (by decide) hm) ?_
    | with_reducible refine enterMode_keeps (sub (by decide) hm) ?_ (fun _ => Nat.le_of_ble_eq_true rfl)
    | split
    | with_reducible exact id

theorem reportCoast_keeps {s0 s : State} (hm : ([.boot, .host, .evt, .clk, .out] : List Part).all pm = true) (hk : Keeps pm s0 s) : Keeps pm s0 (reportCoast s) := by
  unfold reportCoast
  repeat' first
    | with_reducible assumption
    | with_reducible refine onClk_keeps (sub (by decide) hm) ?_
    | with_reducible refine raise_keeps (sub (by decide) hm) ?_
    | split

theorem execBootSequenceDone_keeps {s0 s : State} {selfTestOk : Bool} (hm : ([.pwr, .outs, .boot, .mbx, .host, .evt, .modes, .flt, .cad, .clk, .fe, .cal, .air, .nb, .mlad, .tm, .cipher, .col, .dram, .ring, .out] : List Part).all pm = true) (hk : Keeps pm s0 s) :
    KeepsOut pm s0 (execBootSequenceDone selfTestOk s) := by
  unfold execBootSequenceDone
  try dsimp only
  repeat' first
    | with_reducible assumption
    | with_reducible refine onPwr_keeps (sub (by decide) hm) ?_
    | with_reducible refine onEvt_keeps (sub (by decide) hm) ?_
    | with_reducible refine onFlt_keeps (sub (by decide) hm) ?_ ?_ ?_
    | with_reducible refine reportCoast_keeps (sub (by decide) hm) ?_
    | with_reducible refine reachBoot_keeps (sub (by decide) hm) ?_
    | with_reducible refine loadFloor_keeps (sub (by decide) hm) ?_
    | with_reducible refine checkKek0_keeps (sub (by decide) hm) ?_
    | with_reducible refine loadWindow_keeps (sub (by decide) hm) ?_
    | with_reducible refine bootSlices_keeps (sub (by decide) hm) ?_
    | with_reducible refine onlyIf_keeps (sub (by decide) hm) ?_ (fun _ => ?_)
    | with_reducible refine enterSafe_keeps (sub (by decide) hm) ?_
    | with_reducible refine keepsOut_next ?_
    | split
    | with_reducible exact id

end Sys2Proof.Machine
end

