-- ==== Sys2Proof/Laws/KeepAccess.lean ====
section
/-!
SUPPORT. What the operations of Machine.Access keep.
-/
set_option linter.unusedSimpArgs false
set_option linter.unusedVariables false
namespace Sys2Proof.Machine

variable {pm : Part → Bool}

theorem cairnPost_keeps {s0 s : State} {c : Cmd} {a : Ans} (hm : ([.boot, .mbx, .host, .evt, .clk, .ring, .out] : List Part).all pm = true) (hk : Keeps pm s0 s) :
    Keeps pm s0 (cairnPost c a s) := by
  unfold cairnPost
  try dsimp only
  repeat' first
    | with_reducible assumption
    | with_reducible refine post_keeps (sub (by decide) hm) ?_
    | with_reducible refine onPage_keeps (sub (by decide) hm) ?_
    | split

theorem cairnBell_keeps {s0 s : State} {path : Path} {value : W16} (hm : ([.pwr, .outs, .boot, .mbx, .host, .evt, .modes, .flt, .cad, .clk, .fe, .cal, .air, .nb, .mlad, .cls, .fwd, .tm, .cipher, .col, .dram, .ring, .out] : List Part).all pm = true) (hk : Keeps pm s0 s) :
    Keeps pm s0 (cairnBell path value s) := by
  unfold cairnBell
  try dsimp only
  repeat' first
    | with_reducible assumption
    | with_reducible refine cairnPost_keeps (sub (by decide) hm) ?_
    | with_reducible refine keeps_snd (specSysRestart_keeps (sub (by decide) hm) ?_)
    | with_reducible refine onPage_keeps (sub (by decide) hm) ?_
    | split

theorem bell_keeps {s0 s : State} {mb : Nat} {path : Path} {value : W16} (hm : ([.pwr, .outs, .boot, .mbx, .host, .evt, .modes, .flt, .cad, .clk, .fe, .cal, .air, .nb, .mlad, .cls, .fwd, .tm, .cipher, .col, .dram, .ring, .drawn, .out] : List Part).all pm = true) (hk : Keeps pm s0 s) :
    Keeps pm s0 (bell mb path value s) := by
  unfold bell
  try dsimp only
  repeat' first
    | with_reducible assumption
    | with_reducible refine ringBell_keeps (sub (by decide) hm) ?_ (specOf_keeps (sub (by decide) hm))
    | with_reducible refine cairnBell_keeps (sub (by decide) hm) ?_
    | split

theorem writeCommand_keeps {s0 s : State} {op : Nat} {d : Doorbell} {p : List Byte} (hm : ([.pwr, .outs, .boot, .mbx, .host, .evt, .modes, .flt, .cad, .clk, .fe, .cal, .air, .nb, .mlad, .cls, .fwd, .tm, .cipher, .col, .dram, .ring, .drawn, .out] : List Part).all pm = true) (hk : Keeps pm s0 s) :
    Keeps pm s0 (writeCommand op d p s) := by
  unfold writeCommand
  try dsimp only
  repeat' first
    | with_reducible assumption
    | with_reducible refine bell_keeps (sub (by decide) hm) ?_
    | with_reducible refine refuseWrite_keeps (sub (by decide) hm) ?_
    | with_reducible refine onPage_keeps (sub (by decide) hm) ?_
    | split

theorem execSysRestart_keeps {s0 s : State} {d : Doorbell} {p : List Byte} {safeN : Bool} (hm : ([.pwr, .outs, .boot, .mbx, .host, .evt, .modes, .flt, .cad, .clk, .fe, .cal, .air, .nb, .mlad, .cls, .fwd, .tm, .cipher, .col, .dram, .ring, .drawn, .out] : List Part).all pm = true) (hk : Keeps pm s0 s) :
    KeepsOut pm s0 (execSysRestart d p safeN s) := by
  unfold execSysRestart
  try dsimp only
  repeat' first
    | with_reducible assumption
    | with_reducible refine onPwr_keeps (sub (by decide) hm) ?_
    | with_reducible refine writeCommand_keeps (sub (by decide) hm) ?_
    | with_reducible refine keepsOut_next ?_

theorem execUndefinedOpcode_keeps {s0 s : State} {op : W16} {d : Doorbell} {p : List Byte} (hm : ([.pwr, .outs, .boot, .mbx, .host, .evt, .modes, .flt, .cad, .clk, .fe, .cal, .air, .nb, .mlad, .cls, .fwd, .tm, .cipher, .col, .dram, .ring, .drawn, .out] : List Part).all pm = true) (hk : Keeps pm s0 s) :
    KeepsOut pm s0 (execUndefinedOpcode op d p s) := by
  unfold execUndefinedOpcode
  try dsimp only
  repeat' first
    | with_reducible assumption
    | with_reducible refine mailbox_keeps (sub (by decide) hm) ?_ (fun _ h => nomatch h)
    | with_reducible refine onlyIf_keeps (sub (by decide) hm) ?_ (fun _ => ?_)
    | with_reducible refine keepsOut_next ?_

theorem execCommandRecorded_keeps {s0 s : State} {op : W16} {d : Doorbell} {p : List Byte} (hm : ([.pwr, .outs, .boot, .mbx, .host, .evt, .modes, .flt, .cad, .clk, .fe, .cal, .air, .nb, .mlad, .cls, .fwd, .tm, .cipher, .col, .dram, .ring, .drawn, .out] : List Part).all pm = true) (hk : Keeps pm s0 s) :
    KeepsOut pm s0 (execCommandRecorded op d p s) := by
  unfold execCommandRecorded
  try dsimp only
  repeat' first
    | with_reducible assumption
    | with_reducible refine writeCommand_keeps (sub (by decide) hm) ?_
    | with_reducible refine onlyIf_keeps (sub (by decide) hm) ?_ (fun _ => ?_)
    | with_reducible refine keepsOut_next ?_

theorem execDoorbellOverrun_keeps {s0 s : State} {op : W16} {d : Doorbell} {p : List Byte} (hm : ([.pwr, .outs, .boot, .mbx, .host, .evt, .modes, .flt, .cad, .clk, .fe, .cal, .air, .nb, .mlad, .cls, .fwd, .tm, .cipher, .col, .dram, .ring, .drawn, .out] : List Part).all pm = true) (hk : Keeps pm s0 s) :
    KeepsOut pm s0 (execDoorbellOverrun op d p s) := by
  unfold execDoorbellOverrun
  try dsimp only
  repeat' first
    | with_reducible assumption
    | with_reducible refine writeCommand_keeps (sub (by decide) hm) ?_
    | with_reducible refine onlyIf_keeps (sub (by decide) hm) ?_ (fun _ => ?_)
    | with_reducible refine keepsOut_next ?_

theorem execRecordedCommandTaken_keeps {s0 s : State} {mb : Fin 4} (hm : ([.pwr, .outs, .boot, .mbx, .host, .evt, .modes, .flt, .cad, .clk, .fe, .cal, .air, .nb, .mlad, .cls, .fwd, .tm, .cipher, .col, .dram, .ring, .drawn, .out] : List Part).all pm = true) (hk : Keeps pm s0 s) :
    KeepsOut pm s0 (execRecordedCommandTaken mb s) := by
  unfold execRecordedCommandTaken
  try dsimp only
  repeat' first
    | with_reducible assumption
    | with_reducible refine serve_keeps (sub (by decide) hm) ?_ (specOf_keeps (sub (by decide) hm))
    | with_reducible refine onlyIf_keeps (sub (by decide) hm) ?_ (fun _ => ?_)
    | with_reducible refine onPage_keeps (sub (by decide) hm) ?_
    | with_reducible refine keepsOut_next ?_
    | split

theorem pageWrite_keeps {s0 s : State} {mb r : Nat} {v : W32} (hm : ([.pwr, .outs, .boot, .mbx, .host, .evt, .modes, .flt, .cad, .clk, .fe, .cal, .air, .nb, .mlad, .cls, .fwd, .tm, .cipher, .col, .dram, .ring, .drawn, .out] : List Part).all pm = true) (hk : Keeps pm s0 s) :
    Keeps pm s0 (pageWrite mb r v s) := by
  unfold pageWrite
  try dsimp only
  repeat' first
    | with_reducible assumption
    | with_reducible refine bell_keeps (sub (by decide) hm) ?_
    | with_reducible refine refuseWrite_keeps (sub (by decide) hm) ?_
    | with_reducible refine onPage_keeps (sub (by decide) hm) ?_
    | split

theorem msixWrite_keeps {s0 s : State} {i : Nat} {v : W32} (hm : ([.host, .out] : List Part).all pm = true) (hk : Keeps pm s0 s) :
    Keeps pm s0 (msixWrite i v s) := by
  unfold msixWrite
  try dsimp only
  repeat' first
    | with_reducible assumption
    | with_reducible refine onHost_keeps (sub (by decide) hm) ?_ ?_
    | with_reducible refine emit_keeps (sub (by decide) hm) ?_
    | split
    | with_reducible exact id

theorem bar0Write_keeps {s0 s : State} {off : Nat} {v : W32} (hm : ([.pwr, .outs, .boot, .mbx, .host, .evt, .modes, .flt, .cad, .clk, .fe, .cal, .air, .nb, .mlad, .cls, .fwd, .tm, .cipher, .col, .dram, .ring, .drawn, .out] : List Part).all pm = true) (hk : Keeps pm s0 s) :
    Keeps pm s0 (bar0Write off v s) := by
  unfold bar0Write
  try dsimp only
  repeat' first
    | with_reducible assumption
    | with_reducible refine onCol_keeps (sub (by decide) hm) ?_
    | with_reducible refine msixWrite_keeps (sub (by decide) hm) ?_
    | with_reducible refine pageWrite_keeps (sub (by decide) hm) ?_
    | split

theorem bar2Write_keeps {s0 s : State} {off : Nat} {v : W32} (hm : ([.host] : List Part).all pm = true) (hk : Keeps pm s0 s) :
    Keeps pm s0 (bar2Write off v s) := by
  unfold bar2Write
  try dsimp only
  repeat' first
    | with_reducible assumption
    | with_reducible refine onHost_keeps (sub (by decide) hm) ?_ ?_
    | with_reducible refine onRingN_keeps (sub (by decide) hm) ?_
    | split
    | exact memWrite_wf

theorem execRegisterWrite_keeps {s0 s : State} {bar : Bool} {off : Nat} {v : W32} (hm : ([.pwr, .outs, .boot, .mbx, .host, .evt, .modes, .flt, .cad, .clk, .fe, .cal, .air, .nb, .mlad, .cls, .fwd, .tm, .cipher, .col, .dram, .ring, .drawn, .out] : List Part).all pm = true) (hk : Keeps pm s0 s) :
    KeepsOut pm s0 (execRegisterWrite bar off v s) := by
  unfold execRegisterWrite
  try dsimp only
  repeat' first
    | with_reducible assumption
    | with_reducible refine onHost_keeps (sub (by decide) hm) ?_ ?_
    | with_reducible refine bar2Write_keeps (sub (by decide) hm) ?_
    | with_reducible refine bar0Write_keeps (sub (by decide) hm) ?_
    | with_reducible refine execHostIdxWrite_keeps (sub (by decide) hm) ?_
    | with_reducible refine execBarBadAccess_keeps (sub (by decide) hm) ?_
    | with_reducible refine keepsOut_next ?_
    | split
    | with_reducible exact id

theorem svcPut_keeps {s0 s : State} {a : Nat} {v : Byte} (hm : ([.boot, .mbx, .host, .evt, .clk, .air, .fwd, .tm, .col, .dram, .ring, .drawn, .out] : List Part).all pm = true) (hk : Keeps pm s0 s) :
    Keeps pm s0 (svcPut a v s) := by
  unfold svcPut
  try dsimp only
  repeat' first
    | with_reducible assumption
    | with_reducible refine onPage_keeps (sub (by decide) hm) ?_

theorem svcPutAll_keeps {s0 s : State} {a : Nat} {l : List Byte} (hm : ([.boot, .mbx, .host, .evt, .clk, .air, .fwd, .tm, .col, .dram, .ring, .drawn, .out] : List Part).all pm = true) (hk : Keeps pm s0 s) : Keeps pm s0 (svcPutAll a l s) := by
  induction l generalizing s a with
  | nil => exact hk
  | cons v t ih => exact ih (svcPut_keeps (sub (by decide) hm) hk)

theorem execSvcWrite_keeps {s0 s : State} {addr : BitVec 24} {data : List Byte} {crcOk : Bool} (hm : ([.pwr, .outs, .boot, .mbx, .host, .evt, .modes, .flt, .cad, .clk, .fe, .cal, .air, .nb, .mlad, .cls, .fwd, .tm, .cipher, .col, .dram, .ring, .drawn, .out] : List Part).all pm = true) (hk : Keeps pm s0 s) :
    KeepsOut pm s0 (execSvcWrite addr data crcOk s) := by
  unfold execSvcWrite
  try dsimp only
  repeat' first
    | with_reducible assumption
    | with_reducible refine onMbx_keeps (sub (by decide) hm) ?_ ?_
    | with_reducible refine onHost_keeps (sub (by decide) hm) ?_ ?_
    | with_reducible refine svcPutAll_keeps (sub (by decide) hm) ?_
    | with_reducible refine bell_keeps (sub (by decide) hm) ?_
    | with_reducible refine onlyIf_keeps (sub (by decide) hm) ?_ (fun _ => ?_)
    | with_reducible refine countCairn_keeps (sub (by decide) hm) ?_
    | with_reducible refine keepsOut_next ?_
    | split
    | with_reducible exact id

theorem startLong_keeps {s0 s : State} {l : LongCmd} {o : OpSpec} (hm : ([.boot, .mbx, .host, .evt, .modes, .clk, .ring, .out] : List Part).all pm = true) (hk : Keeps pm s0 s) (hb : BodyKeeps pm s0 o) : Keeps pm s0 (startLong l o s) := by
  unfold startLong
  split
  · exact endLong_keeps (sub (by decide) hm) hk
  · split
    · exact onDom_keeps (sub (by decide) hm) hk
    · have h := hb l.cmd (s.onMbx fun m => { m with longs := m.longs.erase l }) (onMbx_keeps (sub (by decide) hm) hk id)
      revert h
      generalize o.body l.cmd (s.onMbx fun m => { m with longs := m.longs.erase l }) = r
      intro h
      obtain ⟨a, t⟩ := r
      have h : Keeps pm s0 t := h
      dsimp only
      split
      · exact onMbx_keeps (sub (by decide) hm) h id
      · refine endLong_keeps (sub (by decide) hm) ?_
        split
        · exact h
        · exact hk

theorem execLongCommandDeferredStart_keeps {s0 s : State}  (hm : ([.pwr, .outs, .boot, .mbx, .host, .evt, .modes, .flt, .cad, .clk, .fe, .cal, .air, .nb, .mlad, .cls, .fwd, .tm, .cipher, .col, .dram, .ring, .drawn, .out] : List Part).all pm = true) (hk : Keeps pm s0 s) :
    KeepsOut pm s0 (execLongCommandDeferredStart s) := by
  unfold execLongCommandDeferredStart
  try dsimp only
  repeat' first
    | with_reducible assumption
    | with_reducible refine startLong_keeps (sub (by decide) hm) ?_ (specOf_keeps (sub (by decide) hm) _ (by assumption))
    | with_reducible refine keepsOut_next ?_
    | split

theorem resumeStalled_keeps {s0 s : State} {d : Nat} (hm : ([.pwr, .outs, .boot, .mbx, .host, .evt, .modes, .flt, .cad, .clk, .fe, .cal, .air, .nb, .mlad, .cls, .fwd, .tm, .cipher, .col, .dram, .ring, .drawn, .out] : List Part).all pm = true) (hk : Keeps pm s0 s) : Keeps pm s0 (resumeStalled d s) := by
  unfold resumeStalled
  refine keeps_foldl (onMbx_keeps (sub (by decide) hm) hk id) fun u x h => ?_
  split
  · rename_i o e
    have k : KeepsP pm s0 (engage o x.cmd u) := engage_keeps (sub (by decide) hm) h (specOf_keeps (sub (by decide) hm) o e)
    exact post_keeps (sub (by decide) hm) (keeps_snd k)
  · exact h

theorem execDomainWakeDone_keeps {s0 s : State} {dom : Fin 8} {us : Nat} {selfTest : Option (Nat × Nat)} (hm : ([.pwr, .outs, .boot, .mbx, .host, .evt, .modes, .flt, .cad, .clk, .fe, .cal, .air, .nb, .mlad, .cls, .fwd, .tm, .cipher, .col, .dram, .ring, .drawn, .out] : List Part).all pm = true) (hk : Keeps pm s0 s) :
    KeepsOut pm s0 (execDomainWakeDone dom us selfTest s) := by
  unfold execDomainWakeDone
  try dsimp only
  repeat' first
    | with_reducible assumption
    | with_reducible refine resumeStalled_keeps (sub (by decide) hm) ?_
    | with_reducible refine cipherSelfTest_keeps (sub (by decide) hm) ?_
    | with_reducible refine reloadSlots_keeps (sub (by decide) hm) ?_
    | with_reducible refine onlyIf_keeps (sub (by decide) hm) ?_ (fun _ => ?_)
    | with_reducible refine onDom_keeps (sub (by decide) hm) ?_
    | with_reducible refine keepsOut_next ?_
    | split

theorem execMb3CommandInject_keeps {s0 s : State}  (hm : ([.pwr, .outs, .boot, .mbx, .host, .evt, .modes, .flt, .cad, .clk, .fe, .cal, .air, .nb, .mlad, .cls, .fwd, .tm, .cipher, .col, .dram, .ring, .drawn, .out] : List Part).all pm = true) (hk : Keeps pm s0 s) :
    KeepsOut pm s0 (execMb3CommandInject s) := by
  unfold execMb3CommandInject
  try dsimp only
  repeat' first
    | with_reducible assumption
    | with_reducible refine onRing_keeps (sub (by decide) hm) ?_
    | with_reducible refine bell_keeps (sub (by decide) hm) ?_
    | with_reducible refine onlyIf_keeps (sub (by decide) hm) ?_ (fun _ => ?_)
    | with_reducible refine onPage_keeps (sub (by decide) hm) ?_
    | with_reducible refine keepsOut_next ?_
    | split

end Sys2Proof.Machine
end

