-- ==== Sys2Proof/Laws/KeepMishaps.lean ====
section
/-!
SUPPORT. What the operations of Machine.Mishaps keep.
-/
set_option linter.unusedSimpArgs false
set_option linter.unusedVariables false
namespace Sys2Proof.Machine

variable {pm : Part → Bool}

theorem mgmtFromHost_keeps {s0 s : State} {bytes : List Byte} (hm : ([.air, .tm, .drawn] : List Part).all pm = true) (hk : Keeps pm s0 s) :
    Keeps pm s0 (mgmtFromHost bytes s) := by
  unfold mgmtFromHost
  try dsimp only
  repeat' first
    | with_reducible assumption
    | with_reducible refine keeps_snd (draw_keeps (sub (by decide) hm) ?_)
    | with_reducible refine countAir_keeps (sub (by decide) hm) ?_
    | with_reducible refine onAB_keeps (sub (by decide) hm) ?_
    | with_reducible refine noteLow_keeps (sub (by decide) hm) ?_
    | split

theorem nbFromHost_keeps {s0 s : State} {id : Nat} {r : List Byte} {cookie : W64} (hm : ([.boot, .host, .evt, .clk, .nb, .mlad, .cipher, .drawn, .out] : List Part).all pm = true) (hk : Keeps pm s0 s) :
    KeepsP pm s0 (nbFromHost id r cookie s) := by
  unfold nbFromHost
  try dsimp only
  repeat' first
    | with_reducible assumption
    | with_reducible refine keeps_snd2 (nbSend_keeps (sub (by decide) hm) ?_)
    | with_reducible refine keepsP_mk ?_
    | split

theorem hostDeliver_keeps {s0 s : State} {ring : Nat} {d : TxDesc} {bytes : List Byte} (hm : ([.boot, .host, .evt, .clk, .air, .nb, .mlad, .cls, .tm, .cipher, .dram, .ring, .drawn, .out] : List Part).all pm = true) (hk : Keeps pm s0 s) :
    KeepsP pm s0 (hostDeliver ring d bytes s) := by
  unfold hostDeliver
  try dsimp only
  repeat' first
    | with_reducible assumption
    | with_reducible refine keeps_snd (draw_keeps (sub (by decide) hm) ?_)
    | with_reducible refine keeps_snd (nbFromHost_keeps (sub (by decide) hm) ?_)
    | with_reducible refine mgmtFromHost_keeps (sub (by decide) hm) ?_
    | with_reducible refine toRing_keeps (sub (by decide) hm) ?_
    | with_reducible refine toPath_keeps (sub (by decide) hm) ?_
    | with_reducible refine enqPort_keeps (sub (by decide) hm) ?_
    | with_reducible refine bfEnter_keeps (sub (by decide) hm) ?_
    | with_reducible refine toSta_keeps (sub (by decide) hm) ?_
    | with_reducible refine keepsP_mk ?_
    | split

theorem execHostTxPacket_keeps {s0 s : State} {ring : BitVec 6} {descs : List TxDesc} {payload : List Byte} {dmaOk : Bool} (hm : ([.boot, .host, .evt, .clk, .air, .nb, .mlad, .cls, .tm, .cipher, .dram, .ring, .drawn, .out] : List Part).all pm = true) (hk : Keeps pm s0 s) :
    KeepsOut pm s0 (execHostTxPacket ring descs payload dmaOk s) := by
  unfold execHostTxPacket
  try dsimp only
  repeat' first
    | with_reducible assumption
    | with_reducible refine keeps_snd (draw_keeps (sub (by decide) hm) ?_)
    | with_reducible refine keeps_snd (hostDeliver_keeps (sub (by decide) hm) ?_)
    | with_reducible refine ringError_keeps (sub (by decide) hm) ?_
    | with_reducible refine onlyIf_keeps (sub (by decide) hm) ?_ (fun _ => ?_)
    | with_reducible refine ringPublish_keeps (sub (by decide) hm) ?_
    | with_reducible refine onRingN_keeps (sub (by decide) hm) ?_
    | with_reducible refine keepsOut_next ?_
    | split

theorem loseQueued_keeps {s0 s : State} {port q : Nat} (hm : ([.tm] : List Part).all pm = true) (hk : Keeps pm s0 s) :
    Keeps pm s0 (loseQueued port q s) := by
  unfold loseQueued
  try dsimp only
  repeat' first
    | with_reducible assumption
    | with_reducible refine onQueue_keeps (sub (by decide) hm) ?_

theorem loseBf_keeps {s0 s : State} {n k i : Nat} (hm : ([.air] : List Part).all pm = true) (hk : Keeps pm s0 s) :
    Keeps pm s0 (loseBf n k i s) := by
  unfold loseBf
  try dsimp only
  repeat' first
    | with_reducible assumption
    | with_reducible refine onAir_keeps (sub (by decide) hm) ?_
    | with_reducible refine onBf_keeps (sub (by decide) hm) ?_
    | split

theorem losePacket_keeps {s0 s : State} {v : SramVictim} (hm : ([.air, .cls, .tm] : List Part).all pm = true) (hk : Keeps pm s0 s) :
    Keeps pm s0 (losePacket v s) := by
  unfold losePacket
  try dsimp only
  repeat' first
    | with_reducible assumption
    | with_reducible refine onCls_keeps (sub (by decide) hm) ?_
    | with_reducible refine loseBf_keeps (sub (by decide) hm) ?_
    | with_reducible refine loseQueued_keeps (sub (by decide) hm) ?_
    | split

theorem execSramUncorrectable_keeps {s0 s : State} {cls : Nat} {addr : W32} {victim : SramVictim} (hm : ([.outs, .boot, .mbx, .host, .evt, .modes, .flt, .cad, .clk, .fe, .cal, .air, .nb, .mlad, .cls, .fwd, .tm, .col, .dram, .ring, .drawn, .out] : List Part).all pm = true) (hk : Keeps pm s0 s) :
    KeepsOut pm s0 (execSramUncorrectable cls addr victim s) := by
  unfold execSramUncorrectable
  try dsimp only
  repeat' first
    | with_reducible assumption
    | with_reducible refine onFwd_keeps (sub (by decide) hm) ?_
    | with_reducible refine losePacket_keeps (sub (by decide) hm) ?_
    | with_reducible refine kernelFault_keeps (sub (by decide) hm) ?_
    | with_reducible refine onlyIf_keeps (sub (by decide) hm) ?_ (fun _ => ?_)
    | with_reducible refine enterSafe_keeps (sub (by decide) hm) ?_
    | with_reducible refine countCairn_keeps (sub (by decide) hm) ?_
    | with_reducible refine keepsOut_next ?_
    | split

theorem thermalWatch_keeps {s0 s : State}  (hm : ([.boot, .host, .evt, .flt, .clk, .out] : List Part).all pm = true) (hk : Keeps pm s0 s) :
    Keeps pm s0 (thermalWatch s) := by
  unfold thermalWatch
  try dsimp only
  repeat' first
    | with_reducible assumption
    | with_reducible refine onFlt_keeps (sub (by decide) hm) ?_ ?_ ?_
    | with_reducible refine raise_keeps (sub (by decide) hm) ?_
    | split
    | with_reducible exact id

theorem execSensorConversion_keeps {s0 s : State} {sensor : Nat} {q : Int} (hm : ([.boot, .host, .evt, .flt, .clk, .out] : List Part).all pm = true) (hk : Keeps pm s0 s) :
    KeepsOut pm s0 (execSensorConversion sensor q s) := by
  unfold execSensorConversion
  try dsimp only
  repeat' first
    | with_reducible assumption
    | with_reducible refine onFlt_keeps (sub (by decide) hm) ?_ ?_ ?_
    | with_reducible refine thermalWatch_keeps (sub (by decide) hm) ?_
    | with_reducible refine onlyIf_keeps (sub (by decide) hm) ?_ (fun _ => ?_)
    | with_reducible refine keepsOut_next ?_
    | with_reducible exact id
    | (intro hh; simp only [updAt, setAt, List.length_modify, List.length_set, List.length_map, List.length_zipIdx, List.length_cons, List.length_nil]; with_reducible exact hh)

theorem execSerdesRefclkFail_keeps {s0 s : State}  (hm : ([.pwr, .outs, .boot, .host, .evt, .clk, .tm, .ring, .out] : List Part).all pm = true) (hk : Keeps pm s0 s) :
    KeepsOut pm s0 (execSerdesRefclkFail s) := by
  unfold execSerdesRefclkFail
  try dsimp only
  repeat' first
    | with_reducible assumption
    | with_reducible refine onPwr_keeps (sub (by decide) hm) ?_
    | with_reducible refine onOuts_keeps (sub (by decide) hm) ?_
    | with_reducible refine portDown_keeps (sub (by decide) hm) ?_
    | with_reducible refine ethDown_keeps (sub (by decide) hm) ?_
    | with_reducible refine onlyIf_keeps (sub (by decide) hm) ?_ (fun _ => ?_)
    | with_reducible refine keepsOut_next ?_
    | with_reducible refine keeps_foldl ?_ ?_
    | split
    | (intro _ _ _)

end Sys2Proof.Machine
end

