-- ==== Sys2Proof/Laws/KeepTick.lean ====
section
/-!
SUPPORT. What the operations of Machine.Tick keep.
-/
set_option linter.unusedSimpArgs false
set_option linter.unusedVariables false
namespace Sys2Proof.Machine

variable {pm : Part → Bool}

theorem tickTod_keeps {s0 s : State}  (hm : ([.cad] : List Part).all pm = true) (hk : Keeps pm s0 s) :
    Keeps pm s0 (tickTod s) := by
  unfold tickTod
  try dsimp only
  repeat' first
    | with_reducible assumption
    | with_reducible refine onCad_keeps (sub (by decide) hm) ?_
    | split

theorem tickKeeper_keeps {s0 s : State}  (hm : ([.clk] : List Part).all pm = true) (hk : Keeps pm s0 s) :
    Keeps pm s0 (tickKeeper s) := by
  unfold tickKeeper
  try dsimp only
  repeat' first
    | with_reducible assumption
    | with_reducible refine onClk_keeps (sub (by decide) hm) ?_
    | split

theorem tick_keeps {s0 s : State}  (hm : ([.cad, .clk] : List Part).all pm = true) (hk : Keeps pm s0 s) :
    Keeps pm s0 (tick s) := by
  unfold tick
  try dsimp only
  repeat' first
    | with_reducible assumption
    | with_reducible refine tickKeeper_keeps (sub (by decide) hm) ?_
    | with_reducible refine tickTod_keeps (sub (by decide) hm) ?_

end Sys2Proof.Machine
end

