-- ==== Sys2Proof/Laws/Arms.lean ====
section
/-!
SUPPORT. The meaning of each command, as one equation.
-/
namespace Sys2Proof.Machine

section
variable (s : State)
theorem exec_powerOn : exec (.powerOn) s = execPowerOn s := rfl
theorem exec_vddIoUp : exec (.vddIoUp) s = execVddIoUp s := rfl
theorem exec_vddIoLoss : exec (.vddIoLoss) s = execVddIoLoss s := rfl
theorem exec_powerOff : exec (.powerOff) s = execPowerOff s := rfl
theorem exec_pwrOkRise : exec (.pwrOkRise) s = execPwrOkRise s := rfl
theorem exec_pwrOkFall : exec (.pwrOkFall) s = execPwrOkFall s := rfl
theorem exec_resetNFall : exec (.resetNFall) s = execResetNFall s := rfl
theorem exec_resetNRise (profSel ringRole : BitVec 2) (ringId : BitVec 3) (bootHalt safeN : Bool) : exec (.resetNRise profSel ringRole ringId bootHalt safeN) s = execResetNRise profSel ringRole ringId bootHalt safeN s := rfl
theorem exec_bootSequenceDone (selfTestOk : Bool) : exec (.bootSequenceDone selfTestOk) s = execBootSequenceDone selfTestOk s := rfl
theorem exec_replayResume : exec (.replayResume) s = execReplayResume s := rfl
theorem exec_brownout (rail : Nat) : exec (.brownout rail) s = execBrownout rail s := rfl
theorem exec_refclkRfFail : exec (.refclkRfFail) s = execRefclkRfFail s := rfl
theorem exec_refclkRfTimeout : exec (.refclkRfTimeout) s = execRefclkRfTimeout s := rfl
theorem exec_serdesRefclkFail : exec (.serdesRefclkFail) s = execSerdesRefclkFail s := rfl
theorem exec_pcieRefclkFail : exec (.pcieRefclkFail) s = execPcieRefclkFail s := rfl
theorem exec_pciePerstAssert : exec (.pciePerstAssert) s = execPciePerstAssert s := rfl
theorem exec_pciePerstRelease : exec (.pciePerstRelease) s = execPciePerstRelease s := rfl
theorem exec_keeperStable : exec (.keeperStable) s = execKeeperStable s := rfl
theorem exec_stageOwnerTimeout : exec (.stageOwnerTimeout) s = execStageOwnerTimeout s := rfl
theorem exec_undefinedOpcode (op : W16) (d : Doorbell) (p : List Byte) : exec (.undefinedOpcode op d p) s = execUndefinedOpcode op d p s := rfl
theorem exec_recordedCommandTaken (mb : Fin 4) : exec (.recordedCommandTaken mb) s = execRecordedCommandTaken mb s := rfl
theorem exec_longCommandDeferredStart : exec (.longCommandDeferredStart) s = execLongCommandDeferredStart s := rfl
theorem exec_registerWrite (bar : Bool) (off : Nat) (v : W32) : exec (.registerWrite bar off v) s = execRegisterWrite bar off v s := rfl
theorem exec_barBadAccess (write : Bool) : exec (.barBadAccess write) s = execBarBadAccess write s := rfl
theorem exec_hostIdxWrite (ring : BitVec 6) (v : W32) : exec (.hostIdxWrite ring v) s = execHostIdxWrite ring v s := rfl
theorem exec_dropCountRead (ring : BitVec 6) : exec (.dropCountRead ring) s = execDropCountRead ring s := rfl
theorem exec_todSnapshotRead : exec (.todSnapshotRead) s = execTodSnapshotRead s := rfl
theorem exec_traceRestart : exec (.traceRestart) s = execTraceRestart s := rfl
theorem exec_traceFreeze (on : Bool) : exec (.traceFreeze on) s = execTraceFreeze on s := rfl
theorem exec_traceLostRead : exec (.traceLostRead) s = execTraceLostRead s := rfl
theorem exec_svcRead (addr : BitVec 24) (count : Nat) : exec (.svcRead addr count) s = execSvcRead addr count s := rfl
theorem exec_svcWrite (addr : BitVec 24) (data : List Byte) (crcOk : Bool) : exec (.svcWrite addr data crcOk) s = execSvcWrite addr data crcOk s := rfl
theorem exec_hostTxPacket (ring : BitVec 6) (descs : List TxDesc) (payload : List Byte) (dmaOk : Bool) : exec (.hostTxPacket ring descs payload dmaOk) s = execHostTxPacket ring descs payload dmaOk s := rfl
theorem exec_hostRingWrite (ring : BitVec 6) (bufs : List RxBuf) : exec (.hostRingWrite ring bufs) s = execHostRingWrite ring bufs s := rfl
theorem exec_hrDisableDrained (ring : BitVec 6) : exec (.hrDisableDrained ring) s = execHrDisableDrained ring s := rfl
theorem exec_msixModerationExpiry (ring : BitVec 6) : exec (.msixModerationExpiry ring) s = execMsixModerationExpiry ring s := rfl
theorem exec_identify (d : Doorbell) (p : List Byte) : exec (.identify d p) s = execIdentify d p s := rfl
theorem exec_sysRestart (d : Doorbell) (p : List Byte) (safeN : Bool) : exec (.sysRestart d p safeN) s = execSysRestart d p safeN s := rfl
theorem exec_profileLoad (d : Doorbell) (p : List Byte) : exec (.profileLoad d p) s = execProfileLoad d p s := rfl
theorem exec_profileLoadDone (prof : BitVec 2) : exec (.profileLoadDone prof) s = execProfileLoadDone prof s := rfl
theorem exec_profileStore (d : Doorbell) (p : List Byte) : exec (.profileStore d p) s = execProfileStore d p s := rfl
theorem exec_profileStoreDone (prof : BitVec 2) : exec (.profileStoreDone prof) s = execProfileStoreDone prof s := rfl
theorem exec_profileSelect (d : Doorbell) (p : List Byte) : exec (.profileSelect d p) s = execProfileSelect d p s := rfl
theorem exec_profileRead (d : Doorbell) (p : List Byte) : exec (.profileRead d p) s = execProfileRead d p s := rfl
theorem exec_profileStage (d : Doorbell) (p : List Byte) : exec (.profileStage d p) s = execProfileStage d p s := rfl
theorem exec_hrConfig (d : Doorbell) (p : List Byte) : exec (.hrConfig d p) s = execHrConfig d p s := rfl
theorem exec_hrStatus (d : Doorbell) (p : List Byte) : exec (.hrStatus d p) s = execHrStatus d p s := rfl
theorem exec_eventRoute (d : Doorbell) (p : List Byte) : exec (.eventRoute d p) s = execEventRoute d p s := rfl
theorem exec_gpioSet (d : Doorbell) (p : List Byte) : exec (.gpioSet d p) s = execGpioSet d p s := rfl
theorem exec_gpioGet (d : Doorbell) (p : List Byte) (levels : W16) : exec (.gpioGet d p levels) s = execGpioGet d p levels s := rfl
theorem exec_modeSet (d : Doorbell) (p : List Byte) : exec (.modeSet d p) s = execModeSet d p s := rfl
theorem exec_modeGet (d : Doorbell) (p : List Byte) : exec (.modeGet d p) s = execModeGet d p s := rfl
theorem exec_pwrStats (d : Doorbell) (p : List Byte) : exec (.pwrStats d p) s = execPwrStats d p s := rfl
theorem exec_domainStatus (d : Doorbell) (p : List Byte) : exec (.domainStatus d p) s = execDomainStatus d p s := rfl
theorem exec_wakeConfig (d : Doorbell) (p : List Byte) : exec (.wakeConfig d p) s = execWakeConfig d p s := rfl
theorem exec_vigilConfig (d : Doorbell) (p : List Byte) : exec (.vigilConfig d p) s = execVigilConfig d p s := rfl
theorem exec_agentAnswer (agent : Fin 16) (ans : AgentAns) : exec (.agentAnswer agent ans) s = execAgentAnswer agent ans s := rfl
theorem exec_agentAnswerTimeout (agent : Fin 16) : exec (.agentAnswerTimeout agent) s = execAgentAnswerTimeout agent s := rfl
theorem exec_enterResend (agent : Fin 16) : exec (.enterResend agent) s = execEnterResend agent s := rfl
theorem exec_modeTransitionDone : exec (.modeTransitionDone) s = execModeTransitionDone s := rfl
theorem exec_serveExitSilence : exec (.serveExitSilence) s = execServeExitSilence s := rfl
theorem exec_domainWakeDone (dom : Fin 8) (us : Nat) (selfTest : Option (Nat × Nat)) : exec (.domainWakeDone dom us selfTest) s = execDomainWakeDone dom us selfTest s := rfl
theorem exec_domainWakeTimeout (dom : Fin 8) (upStep : Nat) : exec (.domainWakeTimeout dom upStep) s = execDomainWakeTimeout dom upStep s := rfl
theorem exec_domainWakeRetry (dom : Fin 8) : exec (.domainWakeRetry dom) s = execDomainWakeRetry dom s := rfl
theorem exec_demandIdleExpiry (dom : Fin 8) : exec (.demandIdleExpiry dom) s = execDemandIdleExpiry dom s := rfl
theorem exec_keeperAlarm : exec (.keeperAlarm) s = execKeeperAlarm s := rfl
theorem exec_wakeNAssert : exec (.wakeNAssert) s = execWakeNAssert s := rfl
theorem exec_safeNAssert : exec (.safeNAssert) s = execSafeNAssert s := rfl
theorem exec_cadSourceSet (d : Doorbell) (p : List Byte) : exec (.cadSourceSet d p) s = execCadSourceSet d p s := rfl
theorem exec_cadStatus (d : Doorbell) (p : List Byte) : exec (.cadStatus d p) s = execCadStatus d p s := rfl
theorem exec_timeGet (d : Doorbell) (p : List Byte) : exec (.timeGet d p) s = execTimeGet d p s := rfl
theorem exec_timeStep (d : Doorbell) (p : List Byte) : exec (.timeStep d p) s = execTimeStep d p s := rfl
theorem exec_timeAdjust (d : Doorbell) (p : List Byte) : exec (.timeAdjust d p) s = execTimeAdjust d p s := rfl
theorem exec_ptpConfig (d : Doorbell) (p : List Byte) : exec (.ptpConfig d p) s = execPtpConfig d p s := rfl
theorem exec_cadMasterSet (d : Doorbell) (p : List Byte) : exec (.cadMasterSet d p) s = execCadMasterSet d p s := rfl
theorem exec_holdoverConfig (d : Doorbell) (p : List Byte) : exec (.holdoverConfig d p) s = execHoldoverConfig d p s := rfl
theorem exec_tsRead (d : Doorbell) (p : List Byte) : exec (.tsRead d p) s = execTsRead d p s := rfl
theorem exec_cadPulseMark (t : Nat) (frame : W64) : exec (.cadPulseMark t frame) s = execCadPulseMark t frame s := rfl
theorem exec_markFrameTimeout (t : Nat) : exec (.markFrameTimeout t) s = execMarkFrameTimeout t s := rfl
theorem exec_markWindowExpiry : exec (.markWindowExpiry) s = execMarkWindowExpiry s := rfl
theorem exec_slewDone : exec (.slewDone) s = execSlewDone s := rfl
theorem exec_holdoverBudgetExpiry : exec (.holdoverBudgetExpiry) s = execHoldoverBudgetExpiry s := rfl
theorem exec_timeStepApply : exec (.timeStepApply) s = execTimeStepApply s := rfl
theorem exec_ptpSyncMark (t1 t2 corr : Int) : exec (.ptpSyncMark t1 t2 corr) s = execPtpSyncMark t1 t2 corr s := rfl
theorem exec_ptpAnnounce (gm : Announce) : exec (.ptpAnnounce gm) s = execPtpAnnounce gm s := rfl
theorem exec_ptpDelayResp (t4 corr : Int) : exec (.ptpDelayResp t4 corr) s = execPtpDelayResp t4 corr s := rfl
theorem exec_ptpDelayReqTimer (t3 : Int) : exec (.ptpDelayReqTimer t3) s = execPtpDelayReqTimer t3 s := rfl
theorem exec_keeperTrimWindow (trim : Int) : exec (.keeperTrimWindow trim) s = execKeeperTrimWindow trim s := rfl
theorem exec_beatStart (n : Nat) : exec (.beatStart n) s = execBeatStart n s := rfl
theorem exec_kernelDeadline (n : Nat) : exec (.kernelDeadline n) s = execKernelDeadline n s := rfl
theorem exec_planSeal (n : Nat) : exec (.planSeal n) s = execPlanSeal n s := rfl
theorem exec_weightSetComplete (band : BandId) (beat : Nat) : exec (.weightSetComplete band beat) s = execWeightSetComplete band beat s := rfl
theorem exec_cipherFrameDone (job : CipherJob) : exec (.cipherFrameDone job) s = execCipherFrameDone job s := rfl
theorem exec_rngHealthFail (test : Nat) : exec (.rngHealthFail test) s = execRngHealthFail test s := rfl
theorem exec_ccaCheckEnd (band : BandId) (beat id : Nat) (busy : Byte) : exec (.ccaCheckEnd band beat id busy) s = execCcaCheckEnd band beat id busy s := rfl
theorem exec_coexRequest (band : BandId) (beat id : Nat) : exec (.coexRequest band beat id) s = execCoexRequest band beat id s := rfl
theorem exec_ppduFemOn (band : BandId) (beat id : Nat) (grant : Bool) : exec (.ppduFemOn band beat id grant) s = execPpduFemOn band beat id grant s := rfl
theorem exec_ppduEnd (band : BandId) (beat id : Nat) : exec (.ppduEnd band beat id) s = execPpduEnd band beat id s := rfl
theorem exec_edcaAccessGained (band : BandId) (ac : BitVec 2) (off : Nat) : exec (.edcaAccessGained band ac off) s = execEdcaAccessGained band ac off s := rfl
theorem exec_responseReceived (band : BandId) (beat id : Nat) (sta : Nat) (acked : List Nat) : exec (.responseReceived band beat id sta acked) s = execResponseReceived band beat id sta acked s := rfl
theorem exec_responseTimeout (band : BandId) (beat id : Nat) (sta : Nat) : exec (.responseTimeout band beat id sta) s = execResponseTimeout band beat id sta s := rfl
theorem exec_bfDeadline (bf k : Nat) : exec (.bfDeadline bf k) s = execBfDeadline bf k s := rfl
theorem exec_airRxPpdu (band : BandId) (rx : RxPpdu) : exec (.airRxPpdu band rx) s = execAirRxPpdu band rx s := rfl
theorem exec_wbRxFalseDet (band : BandId) : exec (.wbRxFalseDet band) s = execWbRxFalseDet band s := rfl
theorem exec_reorderTimeout (sta tid : Nat) : exec (.reorderTimeout sta tid) s = execReorderTimeout sta tid s := rfl
theorem exec_beaconSkipped (band : BandId) (bss : BitVec 3) : exec (.beaconSkipped band bss) s = execBeaconSkipped band bss s := rfl
theorem exec_loLockLoss (band : BandId) (residual : Int) : exec (.loLockLoss band residual) s = execLoLockLoss band residual s := rfl
theorem exec_loReady (band : BandId) (t : Nat) : exec (.loReady band t) s = execLoReady band t s := rfl
theorem exec_synthLockTimeout (band : BandId) (synth : Bool) : exec (.synthLockTimeout band synth) s = execSynthLockTimeout band synth s := rfl
theorem exec_coexGntWithdrawn (band : BandId) : exec (.coexGntWithdrawn band) s = execCoexGntWithdrawn band s := rfl
theorem exec_blankInAssert (input : BitVec 2) : exec (.blankInAssert input) s = execBlankInAssert input s := rfl
theorem exec_blankInRelease (input : BitVec 2) : exec (.blankInRelease input) s = execBlankInRelease input s := rfl
theorem exec_mismatchMeasureDue (band : BandId) : exec (.mismatchMeasureDue band) s = execMismatchMeasureDue band s := rfl
theorem exec_mismatchCaptureDone (band : BandId) (rl : List Nat) : exec (.mismatchCaptureDone band rl) s = execMismatchCaptureDone band rl s := rfl
theorem exec_rffeTransactionDone (band : BandId) (bus : Nat) (parityOk : Bool) (data : List Byte) : exec (.rffeTransactionDone band bus parityOk data) s = execRffeTransactionDone band bus parityOk data s := rfl
theorem exec_bandConfig (d : Doorbell) (p : List Byte) : exec (.bandConfig d p) s = execBandConfig d p s := rfl
theorem exec_bandConfigDone (band : BandId) (ok : Bool) : exec (.bandConfigDone band ok) s = execBandConfigDone band ok s := rfl
theorem exec_chainEnable (d : Doorbell) (p : List Byte) : exec (.chainEnable d p) s = execChainEnable d p s := rfl
theorem exec_txpwrSet (d : Doorbell) (p : List Byte) : exec (.txpwrSet d p) s = execTxpwrSet d p s := rfl
theorem exec_femConfig (d : Doorbell) (p : List Byte) : exec (.femConfig d p) s = execFemConfig d p s := rfl
theorem exec_rffeAccess (d : Doorbell) (p : List Byte) : exec (.rffeAccess d p) s = execRffeAccess d p s := rfl
theorem exec_coexConfig (d : Doorbell) (p : List Byte) : exec (.coexConfig d p) s = execCoexConfig d p s := rfl
theorem exec_blankMap (d : Doorbell) (p : List Byte) : exec (.blankMap d p) s = execBlankMap d p s := rfl
theorem exec_chainStatus (d : Doorbell) (p : List Byte) : exec (.chainStatus d p) s = execChainStatus d p s := rfl
theorem exec_factoryTest (d : Doorbell) (p : List Byte) : exec (.factoryTest d p) s = execFactoryTest d p s := rfl
theorem exec_factoryTestDone : exec (.factoryTestDone) s = execFactoryTestDone s := rfl
theorem exec_spectrumSurvey (d : Doorbell) (p : List Byte) : exec (.spectrumSurvey d p) s = execSpectrumSurvey d p s := rfl
theorem exec_surveySpanDone (bins : List Byte) : exec (.surveySpanDone bins) s = execSurveySpanDone bins s := rfl
theorem exec_soundingConfig (d : Doorbell) (p : List Byte) : exec (.soundingConfig d p) s = execSoundingConfig d p s := rfl
theorem exec_precodeConfig (d : Doorbell) (p : List Byte) : exec (.precodeConfig d p) s = execPrecodeConfig d p s := rfl
theorem exec_csiRead (d : Doorbell) (p : List Byte) : exec (.csiRead d p) s = execCsiRead d p s := rfl
theorem exec_calGap (band : BandId) (matched : Bool) (fwd : List (Nat × Int)) : exec (.calGap band matched fwd) s = execCalGap band matched fwd s := rfl
theorem exec_calMeasurementDone (m : CalMeas) : exec (.calMeasurementDone m) s = execCalMeasurementDone m s := rfl
theorem exec_nbCalInterval : exec (.nbCalInterval) s = execNbCalInterval s := rfl
theorem exec_calStoreInterval : exec (.calStoreInterval) s = execCalStoreInterval s := rfl
theorem exec_calRun (d : Doorbell) (p : List Byte) : exec (.calRun d p) s = execCalRun d p s := rfl
theorem exec_calRunDone : exec (.calRunDone) s = execCalRunDone s := rfl
theorem exec_calStatus (d : Doorbell) (p : List Byte) : exec (.calStatus d p) s = execCalStatus d p s := rfl
theorem exec_calSchedule (d : Doorbell) (p : List Byte) : exec (.calSchedule d p) s = execCalSchedule d p s := rfl
theorem exec_calTableRead (d : Doorbell) (p : List Byte) : exec (.calTableRead d p) s = execCalTableRead d p s := rfl
theorem exec_calTableStore (d : Doorbell) (p : List Byte) : exec (.calTableStore d p) s = execCalTableStore d p s := rfl
theorem exec_calTableStoreDone : exec (.calTableStoreDone) s = execCalTableStoreDone s := rfl
theorem exec_sliceStatus (d : Doorbell) (p : List Byte) : exec (.sliceStatus d p) s = execSliceStatus d p s := rfl
theorem exec_sensorConversion (sensor : Nat) (q : Int) : exec (.sensorConversion sensor q) s = execSensorConversion sensor q s := rfl
theorem exec_thermalShutdown (sensor : Nat) : exec (.thermalShutdown sensor) s = execThermalShutdown sensor s := rfl
theorem exec_staAdd (d : Doorbell) (p : List Byte) : exec (.staAdd d p) s = execStaAdd d p s := rfl
theorem exec_staModify (d : Doorbell) (p : List Byte) : exec (.staModify d p) s = execStaModify d p s := rfl
theorem exec_staRemove (d : Doorbell) (p : List Byte) : exec (.staRemove d p) s = execStaRemove d p s := rfl
theorem exec_staGet (d : Doorbell) (p : List Byte) : exec (.staGet d p) s = execStaGet d p s := rfl
theorem exec_acParamSet (d : Doorbell) (p : List Byte) : exec (.acParamSet d p) s = execAcParamSet d p s := rfl
theorem exec_turnPlanSet (d : Doorbell) (p : List Byte) : exec (.turnPlanSet d p) s = execTurnPlanSet d p s := rfl
theorem exec_airGateSet (d : Doorbell) (p : List Byte) : exec (.airGateSet d p) s = execAirGateSet d p s := rfl
theorem exec_beaconTemplate (d : Doorbell) (p : List Byte) : exec (.beaconTemplate d p) s = execBeaconTemplate d p s := rfl
theorem exec_linkSteer (d : Doorbell) (p : List Byte) : exec (.linkSteer d p) s = execLinkSteer d p s := rfl
theorem exec_policyBind (d : Doorbell) (p : List Byte) : exec (.policyBind d p) s = execPolicyBind d p s := rfl
theorem exec_bfAdmit (d : Doorbell) (p : List Byte) : exec (.bfAdmit d p) s = execBfAdmit d p s := rfl
theorem exec_bfModify (d : Doorbell) (p : List Byte) : exec (.bfModify d p) s = execBfModify d p s := rfl
theorem exec_bfRelease (d : Doorbell) (p : List Byte) : exec (.bfRelease d p) s = execBfRelease d p s := rfl
theorem exec_bfStatus (d : Doorbell) (p : List Byte) : exec (.bfStatus d p) s = execBfStatus d p s := rfl
theorem exec_bfPledgeSet (d : Doorbell) (p : List Byte) : exec (.bfPledgeSet d p) s = execBfPledgeSet d p s := rfl
theorem exec_bfStats (d : Doorbell) (p : List Byte) : exec (.bfStats d p) s = execBfStats d p s := rfl
theorem exec_ethFrameReceived (src srcId : Nat) (tid : Nat) (bytes : List Byte) (t : Nat) : exec (.ethFrameReceived src srcId tid bytes t) s = execEthFrameReceived src srcId tid bytes t s := rfl
theorem exec_payloadMatchDone : exec (.payloadMatchDone) s = execPayloadMatchDone s := rfl
theorem exec_egressFrameStart (port : Fin 7) : exec (.egressFrameStart port) s = execEgressFrameStart port s := rfl
theorem exec_shaperCreditEligible (port : Fin 7) (q : Fin 8) : exec (.shaperCreditEligible port q) s = execShaperCreditEligible port q s := rfl
theorem exec_gateEntryInstant (port : Fin 4) (entry : Nat) : exec (.gateEntryInstant port entry) s = execGateEntryInstant port entry s := rfl
theorem exec_gateListApply (port : Fin 4) : exec (.gateListApply port) s = execGateListApply port s := rfl
theorem exec_ethLinkUp (port : Fin 5) : exec (.ethLinkUp port) s = execEthLinkUp port s := rfl
theorem exec_ethLinkDown (port : Fin 5) : exec (.ethLinkDown port) s = execEthLinkDown port s := rfl
theorem exec_chainSwitchSettle : exec (.chainSwitchSettle) s = execChainSwitchSettle s := rfl
theorem exec_chainLinkWaitExpiry : exec (.chainLinkWaitExpiry) s = execChainLinkWaitExpiry s := rfl
theorem exec_chainRetryExpiry : exec (.chainRetryExpiry) s = execChainRetryExpiry s := rfl
theorem exec_agingVisit (bucket : Nat) : exec (.agingVisit bucket) s = execAgingVisit bucket s := rfl
theorem exec_filterRebuildDone : exec (.filterRebuildDone) s = execFilterRebuildDone s := rfl
theorem exec_nbConfig (d : Doorbell) (p : List Byte) : exec (.nbConfig d p) s = execNbConfig d p s := rfl
theorem exec_nbChannelPlan (d : Doorbell) (p : List Byte) : exec (.nbChannelPlan d p) s = execNbChannelPlan d p s := rfl
theorem exec_dwellConfig (d : Doorbell) (p : List Byte) : exec (.dwellConfig d p) s = execDwellConfig d p s := rfl
theorem exec_tunerRun (d : Doorbell) (p : List Byte) : exec (.tunerRun d p) s = execTunerRun d p s := rfl
theorem exec_tunerRunDone (x : Fin 4) : exec (.tunerRunDone x) s = execTunerRunDone x s := rfl
theorem exec_nbStats (d : Doorbell) (p : List Byte) : exec (.nbStats d p) s = execNbStats d p s := rfl
theorem exec_nodeAdd (d : Doorbell) (p : List Byte) : exec (.nodeAdd d p) s = execNodeAdd d p s := rfl
theorem exec_nodeRemove (d : Doorbell) (p : List Byte) : exec (.nodeRemove d p) s = execNodeRemove d p s := rfl
theorem exec_nodeGet (d : Doorbell) (p : List Byte) : exec (.nodeGet d p) s = execNodeGet d p s := rfl
theorem exec_nbSend (d : Doorbell) (p : List Byte) : exec (.nbSend d p) s = execNbSend d p s := rfl
theorem exec_floodConfig (d : Doorbell) (p : List Byte) : exec (.floodConfig d p) s = execFloodConfig d p s := rfl
theorem exec_heldStatus (d : Doorbell) (p : List Byte) : exec (.heldStatus d p) s = execHeldStatus d p s := rfl
theorem exec_nbTxRequestStart (x : Fin 4) : exec (.nbTxRequestStart x) s = execNbTxRequestStart x s := rfl
theorem exec_nbCcaDone (x : Fin 4) (power : Int) : exec (.nbCcaDone x power) s = execNbCcaDone x power s := rfl
theorem exec_nbTxDone (x : Fin 4) (err : Option Int) : exec (.nbTxDone x err) s = execNbTxDone x err s := rfl
theorem exec_nbFrameReceived (x : Fin 4) (frame : List Byte) (fcs2 fcsOk : Bool) (rssi : Int) (t : Nat) : exec (.nbFrameReceived x frame fcs2 fcsOk rssi t) s = execNbFrameReceived x frame fcs2 fcsOk rssi t s := rfl
theorem exec_nbPhrReceived (x : Fin 4) (phr : W16) (rssi : Int) : exec (.nbPhrReceived x phr rssi) s = execNbPhrReceived x phr rssi s := rfl
theorem exec_nbSyncTimeout (x : Fin 4) : exec (.nbSyncTimeout x) s = execNbSyncTimeout x s := rfl
theorem exec_hopSlotStart (x : Fin 4) : exec (.hopSlotStart x) s = execHopSlotStart x s := rfl
theorem exec_nbSynthLocked (x : Fin 4) : exec (.nbSynthLocked x) s = execNbSynthLocked x s := rfl
theorem exec_nbSynthLockTimeout (x : Fin 4) : exec (.nbSynthLockTimeout x) s = execNbSynthLockTimeout x s := rfl
theorem exec_nbLockLoss (x : Fin 4) : exec (.nbLockLoss x) s = execNbLockLoss x s := rfl
theorem exec_nbRlSample (x : Fin 4) (rl : Nat) : exec (.nbRlSample x rl) s = execNbRlSample x rl s := rfl
theorem exec_nbAutoTuneStart (x : Fin 4) : exec (.nbAutoTuneStart x) s = execNbAutoTuneStart x s := rfl
theorem exec_tuneBurstRetry (x : Fin 4) : exec (.tuneBurstRetry x) s = execTuneBurstRetry x s := rfl
theorem exec_tuneSearchTimeout (x : Fin 4) : exec (.tuneSearchTimeout x) s = execTuneSearchTimeout x s := rfl
theorem exec_nbAckTimeout (job : Nat) : exec (.nbAckTimeout job) s = execNbAckTimeout job s := rfl
theorem exec_nbBackoffExpiry (job : Nat) : exec (.nbBackoffExpiry job) s = execNbBackoffExpiry job s := rfl
theorem exec_heldFrameExpiry (key : Nat) : exec (.heldFrameExpiry key) s = execHeldFrameExpiry key s := rfl
theorem exec_relayJitterExpiry (src : W32) (seq : W16) : exec (.relayJitterExpiry src seq) s = execRelayJitterExpiry src seq s := rfl
theorem exec_seenEntryExpiry (src : W32) (seq : W16) : exec (.seenEntryExpiry src seq) s = execSeenEntryExpiry src seq s := rfl
theorem exec_nbBeaconInterval : exec (.nbBeaconInterval) s = execNbBeaconInterval s := rfl
theorem exec_ctrFloorWriteDone : exec (.ctrFloorWriteDone) s = execCtrFloorWriteDone s := rfl
theorem exec_heldStoreMoveDone : exec (.heldStoreMoveDone) s = execHeldStoreMoveDone s := rfl
theorem exec_parseConfig (d : Doorbell) (p : List Byte) : exec (.parseConfig d p) s = execParseConfig d p s := rfl
theorem exec_ruleWrite (d : Doorbell) (p : List Byte) : exec (.ruleWrite d p) s = execRuleWrite d p s := rfl
theorem exec_ruleClear (d : Doorbell) (p : List Byte) : exec (.ruleClear d p) s = execRuleClear d p s := rfl
theorem exec_rangeSet (d : Doorbell) (p : List Byte) : exec (.rangeSet d p) s = execRangeSet d p s := rfl
theorem exec_patternWrite (d : Doorbell) (p : List Byte) : exec (.patternWrite d p) s = execPatternWrite d p s := rfl
theorem exec_policerSet (d : Doorbell) (p : List Byte) : exec (.policerSet d p) s = execPolicerSet d p s := rfl
theorem exec_classStats (d : Doorbell) (p : List Byte) : exec (.classStats d p) s = execClassStats d p s := rfl
theorem exec_l2Add (d : Doorbell) (p : List Byte) : exec (.l2Add d p) s = execL2Add d p s := rfl
theorem exec_l2Remove (d : Doorbell) (p : List Byte) : exec (.l2Remove d p) s = execL2Remove d p s := rfl
theorem exec_l2Flush (d : Doorbell) (p : List Byte) : exec (.l2Flush d p) s = execL2Flush d p s := rfl
theorem exec_l2FlushDone : exec (.l2FlushDone) s = execL2FlushDone s := rfl
theorem exec_routeAdd (d : Doorbell) (p : List Byte) : exec (.routeAdd d p) s = execRouteAdd d p s := rfl
theorem exec_routeRemove (d : Doorbell) (p : List Byte) : exec (.routeRemove d p) s = execRouteRemove d p s := rfl
theorem exec_routeBulk (d : Doorbell) (p : List Byte) : exec (.routeBulk d p) s = execRouteBulk d p s := rfl
theorem exec_routeBulkDone (records : List Byte) : exec (.routeBulkDone records) s = execRouteBulkDone records s := rfl
theorem exec_nexthopSet (d : Doorbell) (p : List Byte) : exec (.nexthopSet d p) s = execNexthopSet d p s := rfl
theorem exec_ecmpSet (d : Doorbell) (p : List Byte) : exec (.ecmpSet d p) s = execEcmpSet d p s := rfl
theorem exec_agingSet (d : Doorbell) (p : List Byte) : exec (.agingSet d p) s = execAgingSet d p s := rfl
theorem exec_fwdStats (d : Doorbell) (p : List Byte) : exec (.fwdStats d p) s = execFwdStats d p s := rfl
theorem exec_queueConfig (d : Doorbell) (p : List Byte) : exec (.queueConfig d p) s = execQueueConfig d p s := rfl
theorem exec_shaperSet (d : Doorbell) (p : List Byte) : exec (.shaperSet d p) s = execShaperSet d p s := rfl
theorem exec_gateListSet (d : Doorbell) (p : List Byte) : exec (.gateListSet d p) s = execGateListSet d p s := rfl
theorem exec_bufferConfig (d : Doorbell) (p : List Byte) : exec (.bufferConfig d p) s = execBufferConfig d p s := rfl
theorem exec_chainPairSet (d : Doorbell) (p : List Byte) : exec (.chainPairSet d p) s = execChainPairSet d p s := rfl
theorem exec_tmStats (d : Doorbell) (p : List Byte) : exec (.tmStats d p) s = execTmStats d p s := rfl
theorem exec_keyUnwrap (d : Doorbell) (p : List Byte) : exec (.keyUnwrap d p) s = execKeyUnwrap d p s := rfl
theorem exec_keyErase (d : Doorbell) (p : List Byte) : exec (.keyErase d p) s = execKeyErase d p s := rfl
theorem exec_kekProvision (d : Doorbell) (p : List Byte) : exec (.kekProvision d p) s = execKekProvision d p s := rfl
theorem exec_kekProvisionDone : exec (.kekProvisionDone) s = execKekProvisionDone s := rfl
theorem exec_cmLevelSet (d : Doorbell) (p : List Byte) : exec (.cmLevelSet d p) s = execCmLevelSet d p s := rfl
theorem exec_keySlotInfo (d : Doorbell) (p : List Byte) : exec (.keySlotInfo d p) s = execKeySlotInfo d p s := rfl
theorem exec_kernelLoad (d : Doorbell) (p : List Byte) : exec (.kernelLoad d p) s = execKernelLoad d p s := rfl
theorem exec_kernelLoadDone (image : List Byte) : exec (.kernelLoadDone image) s = execKernelLoadDone image s := rfl
theorem exec_kernelStart (d : Doorbell) (p : List Byte) : exec (.kernelStart d p) s = execKernelStart d p s := rfl
theorem exec_kernelStop (d : Doorbell) (p : List Byte) : exec (.kernelStop d p) s = execKernelStop d p s := rfl
theorem exec_taskConfig (d : Doorbell) (p : List Byte) : exec (.taskConfig d p) s = execTaskConfig d p s := rfl
theorem exec_colObserveSet (d : Doorbell) (p : List Byte) : exec (.colObserveSet d p) s = execColObserveSet d p s := rfl
theorem exec_massifStats (d : Doorbell) (p : List Byte) : exec (.massifStats d p) s = execMassifStats d p s := rfl
theorem exec_colDispatch : exec (.colDispatch) s = execColDispatch s := rfl
theorem exec_kernelReturn (core : Fin 32) : exec (.kernelReturn core) s = execKernelReturn core s := rfl
theorem exec_kernelBudgetExpiry (core : Fin 32) : exec (.kernelBudgetExpiry core) s = execKernelBudgetExpiry core s := rfl
theorem exec_add (core : Fin 33) (dst srcA : BitVec 5) (b : Src2) : exec (.add core dst srcA b) s = execAdd core dst srcA b s := rfl
theorem exec_sub (core : Fin 33) (dst srcA : BitVec 5) (b : Src2) : exec (.sub core dst srcA b) s = execSub core dst srcA b s := rfl
theorem exec_adds (core : Fin 33) (dst srcA : BitVec 5) (b : Src2) : exec (.adds core dst srcA b) s = execAdds core dst srcA b s := rfl
theorem exec_subs (core : Fin 33) (dst srcA : BitVec 5) (b : Src2) : exec (.subs core dst srcA b) s = execSubs core dst srcA b s := rfl
theorem exec_and_ (core : Fin 33) (dst srcA : BitVec 5) (b : Src2) : exec (.and_ core dst srcA b) s = execAnd core dst srcA b s := rfl
theorem exec_or_ (core : Fin 33) (dst srcA : BitVec 5) (b : Src2) : exec (.or_ core dst srcA b) s = execOr core dst srcA b s := rfl
theorem exec_xor (core : Fin 33) (dst srcA : BitVec 5) (b : Src2) : exec (.xor core dst srcA b) s = execXor core dst srcA b s := rfl
theorem exec_shl (core : Fin 33) (dst srcA : BitVec 5) (b : Src2) : exec (.shl core dst srcA b) s = execShl core dst srcA b s := rfl
theorem exec_shr (core : Fin 33) (dst srcA : BitVec 5) (b : Src2) : exec (.shr core dst srcA b) s = execShr core dst srcA b s := rfl
theorem exec_shra (core : Fin 33) (dst srcA : BitVec 5) (b : Src2) : exec (.shra core dst srcA b) s = execShra core dst srcA b s := rfl
theorem exec_mul (core : Fin 33) (dst srcA : BitVec 5) (b : Src2) : exec (.mul core dst srcA b) s = execMul core dst srcA b s := rfl
theorem exec_mulq (core : Fin 33) (dst srcA : BitVec 5) (b : Src2) : exec (.mulq core dst srcA b) s = execMulq core dst srcA b s := rfl
theorem exec_min (core : Fin 33) (dst srcA : BitVec 5) (b : Src2) : exec (.min core dst srcA b) s = execMin core dst srcA b s := rfl
theorem exec_max (core : Fin 33) (dst srcA : BitVec 5) (b : Src2) : exec (.max core dst srcA b) s = execMax core dst srcA b s := rfl
theorem exec_abs (core : Fin 33) (dst srcA : BitVec 5) (b : Src2) : exec (.abs core dst srcA b) s = execAbs core dst srcA b s := rfl
theorem exec_neg (core : Fin 33) (dst srcA : BitVec 5) (b : Src2) : exec (.neg core dst srcA b) s = execNeg core dst srcA b s := rfl
theorem exec_cmp (core : Fin 33) (dst srcA : BitVec 5) (b : Src2) : exec (.cmp core dst srcA b) s = execCmp core dst srcA b s := rfl
theorem exec_cadd (core : Fin 33) (dst srcA : BitVec 5) (b : Src2) : exec (.cadd core dst srcA b) s = execCadd core dst srcA b s := rfl
theorem exec_csub (core : Fin 33) (dst srcA : BitVec 5) (b : Src2) : exec (.csub core dst srcA b) s = execCsub core dst srcA b s := rfl
theorem exec_conj (core : Fin 33) (dst srcA : BitVec 5) (b : Src2) : exec (.conj core dst srcA b) s = execConj core dst srcA b s := rfl
theorem exec_pack (core : Fin 33) (dst srcA srcB : BitVec 5) : exec (.pack core dst srcA srcB) s = execPack core dst srcA srcB s := rfl
theorem exec_padd (core : Fin 33) (dst srcA : BitVec 4) (b : Src2) : exec (.padd core dst srcA b) s = execPadd core dst srcA b s := rfl
theorem exec_movi (core : Fin 33) (dst : BitVec 5) (imm : W16) : exec (.movi core dst imm) s = execMovi core dst imm s := rfl
theorem exec_movhi (core : Fin 33) (dst : BitVec 5) (imm : W16) : exec (.movhi core dst imm) s = execMovhi core dst imm s := rfl
theorem exec_moviP (core : Fin 33) (dst : BitVec 4) (imm : W16) : exec (.moviP core dst imm) s = execMoviP core dst imm s := rfl
theorem exec_macH (core : Fin 33) (acc : BitVec 3) (srcA srcB : BitVec 5) : exec (.macH core acc srcA srcB) s = execMacH core acc srcA srcB s := rfl
theorem exec_msuH (core : Fin 33) (acc : BitVec 3) (srcA srcB : BitVec 5) : exec (.msuH core acc srcA srcB) s = execMsuH core acc srcA srcB s := rfl
theorem exec_macW (core : Fin 33) (acc : BitVec 3) (srcA srcB : BitVec 5) : exec (.macW core acc srcA srcB) s = execMacW core acc srcA srcB s := rfl
theorem exec_msuW (core : Fin 33) (acc : BitVec 3) (srcA srcB : BitVec 5) : exec (.msuW core acc srcA srcB) s = execMsuW core acc srcA srcB s := rfl
theorem exec_cmac (core : Fin 33) (acc : BitVec 3) (srcA srcB : BitVec 5) : exec (.cmac core acc srcA srcB) s = execCmac core acc srcA srcB s := rfl
theorem exec_cmacj (core : Fin 33) (acc : BitVec 3) (srcA srcB : BitVec 5) : exec (.cmacj core acc srcA srcB) s = execCmacj core acc srcA srcB s := rfl
theorem exec_cmsu (core : Fin 33) (acc : BitVec 3) (srcA srcB : BitVec 5) : exec (.cmsu core acc srcA srcB) s = execCmsu core acc srcA srcB s := rfl
theorem exec_clr (core : Fin 33) (acc : BitVec 3) : exec (.clr core acc) s = execClr core acc s := rfl
theorem exec_clr2 (core : Fin 33) (acc : BitVec 3) : exec (.clr2 core acc) s = execClr2 core acc s := rfl
theorem exec_mova (core : Fin 33) (acc : BitVec 3) (srcA : BitVec 5) : exec (.mova core acc srcA) s = execMova core acc srcA s := rfl
theorem exec_adda (core : Fin 33) (acc src : BitVec 3) : exec (.adda core acc src) s = execAdda core acc src s := rfl
theorem exec_macI (core : Fin 33) (acc : BitVec 3) (srcA srcB : BitVec 5) : exec (.macI core acc srcA srcB) s = execMacI core acc srcA srcB s := rfl
theorem exec_vmacH (core : Fin 33) (acc : BitVec 3) (pa pb : BitVec 4) (incA incB : Bool) : exec (.vmacH core acc pa pb incA incB) s = execVmacH core acc pa pb incA incB s := rfl
theorem exec_vcmac (core : Fin 33) (acc : BitVec 3) (pa pb : BitVec 4) (incA incB : Bool) : exec (.vcmac core acc pa pb incA incB) s = execVcmac core acc pa pb incA incB s := rfl
theorem exec_vcmacj (core : Fin 33) (acc : BitVec 3) (pa pb : BitVec 4) (incA incB : Bool) : exec (.vcmacj core acc pa pb incA incB) s = execVcmacj core acc pa pb incA incB s := rfl
theorem exec_extW (core : Fin 33) (dst : BitVec 5) (acc : BitVec 3) (sh : BitVec 6) : exec (.extW core dst acc sh) s = execExtW core dst acc sh s := rfl
theorem exec_extH (core : Fin 33) (dst : BitVec 5) (acc : BitVec 3) (sh : BitVec 6) : exec (.extH core dst acc sh) s = execExtH core dst acc sh s := rfl
theorem exec_extI (core : Fin 33) (dst : BitVec 5) (acc : BitVec 3) (sh : BitVec 6) : exec (.extI core dst acc sh) s = execExtI core dst acc sh s := rfl
theorem exec_extCx (core : Fin 33) (dst : BitVec 5) (acc : BitVec 3) (sh : BitVec 6) : exec (.extCx core dst acc sh) s = execExtCx core dst acc sh s := rfl
theorem exec_rawlo (core : Fin 33) (dst : BitVec 5) (acc : BitVec 3) : exec (.rawlo core dst acc) s = execRawlo core dst acc s := rfl
theorem exec_rawmi (core : Fin 33) (dst : BitVec 5) (acc : BitVec 3) : exec (.rawmi core dst acc) s = execRawmi core dst acc s := rfl
theorem exec_rawhi (core : Fin 33) (dst : BitVec 5) (acc : BitVec 3) : exec (.rawhi core dst acc) s = execRawhi core dst acc s := rfl
theorem exec_inslo (core : Fin 33) (dst : BitVec 5) (acc : BitVec 3) : exec (.inslo core dst acc) s = execInslo core dst acc s := rfl
theorem exec_insmi (core : Fin 33) (dst : BitVec 5) (acc : BitVec 3) : exec (.insmi core dst acc) s = execInsmi core dst acc s := rfl
theorem exec_inshi (core : Fin 33) (dst : BitVec 5) (acc : BitVec 3) : exec (.inshi core dst acc) s = execInshi core dst acc s := rfl
theorem exec_ldBu (core : Fin 33) (reg : BitVec 5) (ptr : BitVec 4) (m : AddrMode) : exec (.ldBu core reg ptr m) s = execLdBu core reg ptr m s := rfl
theorem exec_ldB (core : Fin 33) (reg : BitVec 5) (ptr : BitVec 4) (m : AddrMode) : exec (.ldB core reg ptr m) s = execLdB core reg ptr m s := rfl
theorem exec_ldHu (core : Fin 33) (reg : BitVec 5) (ptr : BitVec 4) (m : AddrMode) : exec (.ldHu core reg ptr m) s = execLdHu core reg ptr m s := rfl
theorem exec_ldH (core : Fin 33) (reg : BitVec 5) (ptr : BitVec 4) (m : AddrMode) : exec (.ldH core reg ptr m) s = execLdH core reg ptr m s := rfl
theorem exec_ldW (core : Fin 33) (reg : BitVec 5) (ptr : BitVec 4) (m : AddrMode) : exec (.ldW core reg ptr m) s = execLdW core reg ptr m s := rfl
theorem exec_ldP (core : Fin 33) (reg : BitVec 4) (ptr : BitVec 4) (m : AddrMode) : exec (.ldP core reg ptr m) s = execLdP core reg ptr m s := rfl
theorem exec_ldA (core : Fin 33) (reg : BitVec 3) (ptr : BitVec 4) (m : AddrMode) : exec (.ldA core reg ptr m) s = execLdA core reg ptr m s := rfl
theorem exec_stB (core : Fin 33) (reg : BitVec 5) (ptr : BitVec 4) (m : AddrMode) : exec (.stB core reg ptr m) s = execStB core reg ptr m s := rfl
theorem exec_stH (core : Fin 33) (reg : BitVec 5) (ptr : BitVec 4) (m : AddrMode) : exec (.stH core reg ptr m) s = execStH core reg ptr m s := rfl
theorem exec_stHu (core : Fin 33) (reg : BitVec 5) (ptr : BitVec 4) (m : AddrMode) : exec (.stHu core reg ptr m) s = execStHu core reg ptr m s := rfl
theorem exec_stW (core : Fin 33) (reg : BitVec 5) (ptr : BitVec 4) (m : AddrMode) : exec (.stW core reg ptr m) s = execStW core reg ptr m s := rfl
theorem exec_stP (core : Fin 33) (reg : BitVec 4) (ptr : BitVec 4) (m : AddrMode) : exec (.stP core reg ptr m) s = execStP core reg ptr m s := rfl
theorem exec_stA (core : Fin 33) (reg : BitVec 3) (ptr : BitVec 4) (m : AddrMode) : exec (.stA core reg ptr m) s = execStA core reg ptr m s := rfl
theorem exec_stHf (core : Fin 33) (reg : BitVec 5) (ptr : BitVec 4) (m : AddrMode) : exec (.stHf core reg ptr m) s = execStHf core reg ptr m s := rfl
theorem exec_branch (core : Fin 33) (cond : BitVec 4) (off : BitVec 24) : exec (.branch core cond off) s = execBranch core cond off s := rfl
theorem exec_call (core : Fin 33) (off : BitVec 12) (mask : W16) : exec (.call core off mask) s = execCall core off mask s := rfl
theorem exec_callr (core : Fin 33) (ptr : BitVec 4) (mask : W16) : exec (.callr core ptr mask) s = execCallr core ptr mask s := rfl
theorem exec_ret (core : Fin 33) (mask : W16) : exec (.ret core mask) s = execRet core mask s := rfl
theorem exec_br (core : Fin 33) (ptr : BitVec 4) : exec (.br core ptr) s = execBr core ptr s := rfl
theorem exec_loop (core : Fin 33) (count : LoopCount) (last : W16) : exec (.loop core count last) s = execLoop core count last s := rfl
theorem exec_mfs (core : Fin 33) (reg : BitVec 5) (spec : BitVec 5) : exec (.mfs core reg spec) s = execMfs core reg spec s := rfl
theorem exec_mts (core : Fin 33) (reg : BitVec 5) (spec : BitVec 5) : exec (.mts core reg spec) s = execMts core reg spec s := rfl
theorem exec_nop (core : Fin 33) : exec (.nop core) s = execNop core s := rfl
theorem exec_setrnd (core : Fin 33) (rnd : BitVec 2) : exec (.setrnd core rnd) s = execSetrnd core rnd s := rfl
theorem exec_csrr (core : Fin 33) (reg : BitVec 5) (csr : W16) : exec (.csrr core reg csr) s = execCsrr core reg csr s := rfl
theorem exec_csrw (core : Fin 33) (reg : BitVec 5) (csr : W16) : exec (.csrw core reg csr) s = execCsrw core reg csr s := rfl
theorem exec_rfe (core : Fin 33) : exec (.rfe core) s = execRfe core s := rfl
theorem exec_wait (core : Fin 33) : exec (.wait core) s = execWait core s := rfl
theorem exec_fence (core : Fin 33) : exec (.fence core) s = execFence core s := rfl
theorem exec_undefinedEncoding (core : Fin 33) (word : W32) : exec (.undefinedEncoding core word) s = execUndefinedEncoding core word s := rfl
theorem exec_dramConfig (d : Doorbell) (p : List Byte) : exec (.dramConfig d p) s = execDramConfig d p s := rfl
theorem exec_dramTrain (d : Doorbell) (p : List Byte) : exec (.dramTrain d p) s = execDramTrain d p s := rfl
theorem exec_dramTrainDone (res : TrainResult) : exec (.dramTrainDone res) s = execDramTrainDone res s := rfl
theorem exec_dramMapSet (d : Doorbell) (p : List Byte) : exec (.dramMapSet d p) s = execDramMapSet d p s := rfl
theorem exec_dramStatus (d : Doorbell) (p : List Byte) : exec (.dramStatus d p) s = execDramStatus d p s := rfl
theorem exec_freezeRead (d : Doorbell) (p : List Byte) : exec (.freezeRead d p) s = execFreezeRead d p s := rfl
theorem exec_zeroingDone : exec (.zeroingDone) s = execZeroingDone s := rfl
theorem exec_refreshDue (ch sc rank : Fin 2) : exec (.refreshDue ch sc rank) s = execRefreshDue ch sc rank s := rfl
theorem exec_mr4Poll (mult : Nat) (hot : Option (Nat × Nat × Nat × Nat)) : exec (.mr4Poll mult hot) s = execMr4Poll mult hot s := rfl
theorem exec_zqCalDue (ch sc rank : Fin 2) (limit : Option Nat) : exec (.zqCalDue ch sc rank limit) s = execZqCalDue ch sc rank limit s := rfl
theorem exec_dqsTrackDue (ch sc rank : Fin 2) (lane : Nat) (drift : Int) : exec (.dqsTrackDue ch sc rank lane drift) s = execDqsTrackDue ch sc rank lane drift s := rfl
theorem exec_dramCreditWindow : exec (.dramCreditWindow) s = execDramCreditWindow s := rfl
theorem exec_dramReadComplete (addr cls : Nat) (scrub : Bool) (res : EccResult) : exec (.dramReadComplete addr cls scrub res) s = execDramReadComplete addr cls scrub res s := rfl
theorem exec_caParityError (ch sc rank : Fin 2) (addr cls : Nat) : exec (.caParityError ch sc rank addr cls) s = execCaParityError ch sc rank addr cls s := rfl
theorem exec_writeCrcAlert (addr cls : Nat) (replayed : Bool) : exec (.writeCrcAlert addr cls replayed) s = execWriteCrcAlert addr cls replayed s := rfl
theorem exec_selfRefreshExitDone : exec (.selfRefreshExitDone) s = execSelfRefreshExitDone s := rfl
theorem exec_ringConfig (d : Doorbell) (p : List Byte) : exec (.ringConfig d p) s = execRingConfig d p s := rfl
theorem exec_ringStatus (d : Doorbell) (p : List Byte) : exec (.ringStatus d p) s = execRingStatus d p s := rfl
theorem exec_ringTableSync (d : Doorbell) (p : List Byte) : exec (.ringTableSync d p) s = execRingTableSync d p s := rfl
theorem exec_ringTableSyncDone : exec (.ringTableSyncDone) s = execRingTableSyncDone s := rfl
theorem exec_rendezvousSet (d : Doorbell) (p : List Byte) : exec (.rendezvousSet d p) s = execRendezvousSet d p s := rfl
theorem exec_ringPortUp (port : Fin 2) (delay us : Nat) : exec (.ringPortUp port delay us) s = execRingPortUp port delay us s := rfl
theorem exec_ringPortDown (port : Fin 2) (lost : Nat) (peerVigil : Bool) : exec (.ringPortDown port lost peerVigil) s = execRingPortDown port lost peerVigil s := rfl
theorem exec_ringSwitchSettle : exec (.ringSwitchSettle) s = execRingSwitchSettle s := rfl
theorem exec_ringLinkWaitExpiry : exec (.ringLinkWaitExpiry) s = execRingLinkWaitExpiry s := rfl
theorem exec_ringRetryExpiry : exec (.ringRetryExpiry) s = execRingRetryExpiry s := rfl
theorem exec_ringBeaconRx (port : Fin 2) (t residence : Nat) (frame : List Byte) : exec (.ringBeaconRx port t residence frame) s = execRingBeaconRx port t residence frame s := rfl
theorem exec_ringDataRx (port : Fin 2) (frame : List Byte) : exec (.ringDataRx port frame) s = execRingDataRx port frame s := rfl
theorem exec_ringTransitFrame (port : Fin 2) (frame : List Byte) : exec (.ringTransitFrame port frame) s = execRingTransitFrame port frame s := rfl
theorem exec_ringBadMsgType (port : Fin 2) (frame : List Byte) (crcOk : Bool) : exec (.ringBadMsgType port frame crcOk) s = execRingBadMsgType port frame crcOk s := rfl
theorem exec_ringPortTxStart (port : Fin 2) : exec (.ringPortTxStart port) s = execRingPortTxStart port s := rfl
theorem exec_ringCommandRx (port : Fin 2) (frame : List Byte) : exec (.ringCommandRx port frame) s = execRingCommandRx port frame s := rfl
theorem exec_mb3CommandInject : exec (.mb3CommandInject) s = execMb3CommandInject s := rfl
theorem exec_ringResponseRx (port : Fin 2) (frame : List Byte) : exec (.ringResponseRx port frame) s = execRingResponseRx port frame s := rfl
theorem exec_ringTableUpdateRx (port : Fin 2) (frame : List Byte) : exec (.ringTableUpdateRx port frame) s = execRingTableUpdateRx port frame s := rfl
theorem exec_ringSummaryRx (port : Fin 2) (frame : List Byte) : exec (.ringSummaryRx port frame) s = execRingSummaryRx port frame s := rfl
theorem exec_summaryTimer : exec (.summaryTimer) s = execSummaryTimer s := rfl
theorem exec_ringClaimRx (port : Fin 2) (frame : List Byte) : exec (.ringClaimRx port frame) s = execRingClaimRx port frame s := rfl
theorem exec_rendezvousInstant : exec (.rendezvousInstant) s = execRendezvousInstant s := rfl
theorem exec_rdvWindowOpen : exec (.rdvWindowOpen) s = execRdvWindowOpen s := rfl
theorem exec_rdvWindowEnd : exec (.rdvWindowEnd) s = execRdvWindowEnd s := rfl
theorem exec_rendezvousRx (port : Fin 2) (ticks residence : Nat) (frame : List Byte) : exec (.rendezvousRx port ticks residence frame) s = execRendezvousRx port ticks residence frame s := rfl
theorem exec_lockstepMismatch (pcA pcB : W32) : exec (.lockstepMismatch pcA pcB) s = execLockstepMismatch pcA pcB s := rfl
theorem exec_sramUncorrectable (cls : Nat) (addr : W32) (victim : SramVictim) : exec (.sramUncorrectable cls addr victim) s = execSramUncorrectable cls addr victim s := rfl
theorem exec_wdtStage1Expiry : exec (.wdtStage1Expiry) s = execWdtStage1Expiry s := rfl
theorem exec_wdtResetExpiry (safeN : Bool) : exec (.wdtResetExpiry safeN) s = execWdtResetExpiry safeN s := rfl
theorem exec_lastGaspDone : exec (.lastGaspDone) s = execLastGaspDone s := rfl
theorem exec_autoRestartExpiry (safeN : Bool) : exec (.autoRestartExpiry safeN) s = execAutoRestartExpiry safeN s := rfl
theorem exec_availabilityWrite : exec (.availabilityWrite) s = execAvailabilityWrite s := rfl
theorem exec_heartbeatTick : exec (.heartbeatTick) s = execHeartbeatTick s := rfl
theorem exec_logRead (d : Doorbell) (p : List Byte) : exec (.logRead d p) s = execLogRead d p s := rfl
theorem exec_faultRead (d : Doorbell) (p : List Byte) : exec (.faultRead d p) s = execFaultRead d p s := rfl
theorem exec_counterRead (d : Doorbell) (p : List Byte) : exec (.counterRead d p) s = execCounterRead d p s := rfl
theorem exec_statusRead (d : Doorbell) (p : List Byte) : exec (.statusRead d p) s = execStatusRead d p s := rfl
theorem exec_watchdogSet (d : Doorbell) (p : List Byte) : exec (.watchdogSet d p) s = execWatchdogSet d p s := rfl
theorem exec_logClear (d : Doorbell) (p : List Byte) : exec (.logClear d p) s = execLogClear d p s := rfl
theorem exec_logClearDone : exec (.logClearDone) s = execLogClearDone s := rfl
theorem exec_commandRecorded (op : W16) (d : Doorbell) (p : List Byte) : exec (.commandRecorded op d p) s = execCommandRecorded op d p s := rfl
theorem exec_doorbellOverrun (op : W16) (d : Doorbell) (p : List Byte) : exec (.doorbellOverrun op d p) s = execDoorbellOverrun op d p s := rfl
theorem exec_pcieLinkUp : exec (.pcieLinkUp) s = execPcieLinkUp s := rfl
theorem exec_standbyRelocked (band : BandId) (synth : Bool) : exec (.standbyRelocked band synth) s = execStandbyRelocked band synth s := rfl
theorem exec_wbPreambleDetected (band : BandId) : exec (.wbPreambleDetected band) s = execWbPreambleDetected band s := rfl
theorem exec_wbRxRestart (band : BandId) (rise : Int) : exec (.wbRxRestart band rise) s = execWbRxRestart band rise s := rfl
theorem exec_nbPreambleDetected (x : Fin 4) (power : Int) : exec (.nbPreambleDetected x power) s = execNbPreambleDetected x power s := rfl
theorem exec_nbRxWindowPower (x : Fin 4) (power : Int) : exec (.nbRxWindowPower x power) s = execNbRxWindowPower x power s := rfl
theorem exec_nbRequestLatest (x : Fin 4) : exec (.nbRequestLatest x) s = execNbRequestLatest x s := rfl
theorem exec_blankTailExpiry (input : BitVec 2) : exec (.blankTailExpiry input) s = execBlankTailExpiry input s := rfl
end

end Sys2Proof.Machine
end

