-- ==== Sys2Proof/Laws/Claims.lean ====
section
/-!
SUPPORT. From what an effect keeps to the frame of a statement, and the path of a mailbox command that nothing turns away.
-/
namespace Sys2Proof.Machine
open Sys2Proof.Claim

/-- The mask of a list of parts. -/
def maskOf (l : List Part) (p : Part) : Bool := l.contains p

theorem maskOf_all (l : List Part) : l.all (maskOf l) = true := by
  simp only [List.all_eq_true, maskOf, List.contains_iff_mem]
  exact fun _ h => h

/-- What keeps to the mask of a list keeps to its frame. -/
theorem frame_of_keeps {l : List Part} {s t : State} (h : Keeps (maskOf l) s t) : Framed l s t :=
  ⟨h.pending, fun p hp => h.frame p (by simpa [maskOf] using hp)⟩

theorem frame_of_keepsOut {l : List Part} {s t : State} {o : Out} (h : KeepsOut (maskOf l) s o) (e : o = .next t) : Framed l s t :=
  frame_of_keeps (h t e)

/-- An outcome that keeps to a list of parts completes, once its next state and the facts about it are at hand. -/
theorem does_of_keeps {l : List Part} {s t : State} {o : Out} {P : State → Prop} (h : KeepsOut (maskOf l) s o) (e : o = .next t) (hP : P t) :
    Does o s l P := ⟨t, e, frame_of_keepsOut h e, hP⟩

theorem copied_keeps {o : OpSpec} {d : Doorbell} {p : List Byte} {s : State} {m : Part → Bool} (hm : ([.mbx, .evt] : List Part).all m = true) :
    Keeps m s (copied o d p s) :=
  onEvt_keeps (sub (by decide) hm) (onPage_keeps (sub (by decide) hm) (Keeps.refl s))

theorem find_bad_none {l : List Nat} {s : State} (h : ∀ x ∈ l, (getDom s x).st ≠ 0 ∧ (getDom s x).st ≠ 2 ∧ (getDom s x).st ≠ 5) :
    (l.find? fun d => decide ((getDom s d).st = 5)) = none ∧ (l.find? fun d => decide ((getDom s d).st = 0) || decide ((getDom s d).st = 2)) = none := by
  constructor
  · rw [List.find?_eq_none]; intro x hx; simp [(h x hx).2.2]
  · rw [List.find?_eq_none]; intro x hx; simp [(h x hx).1, (h x hx).2.1]

@[simp] theorem copied_modes (o : OpSpec) (d : Doorbell) (p : List Byte) (s : State) : (copied o d p s).modes = s.modes := rfl
@[simp] theorem copied_longs (o : OpSpec) (d : Doorbell) (p : List Byte) (s : State) : (copied o d p s).mbx.longs = s.mbx.longs := rfl
theorem copied_heldObjs (o : OpSpec) (d : Doorbell) (p : List Byte) (s : State) : heldObjs (copied o d p s) = heldObjs s := rfl
theorem copied_anyHeld (o : OpSpec) (d : Doorbell) (p : List Byte) (s : State) (l : List Obj) : anyHeld (copied o d p s) l = anyHeld s l := rfl

theorem getPage_onPage {mb : Nat} {f : MbPage → MbPage} {s : State} (h : mb < s.mbx.pages.length) :
    getPage (onPage mb f s) mb = f (getPage s mb) := by
  simp only [getPage, onPage, State.onMbx, updAt, List.getD_eq_getElem?_getD, List.getElem?_modify_eq, List.getElem?_eq_getElem h]
  rfl
theorem onPage_onPage {mb : Nat} {f g : MbPage → MbPage} {s : State} : onPage mb f (onPage mb g s) = onPage mb (f ∘ g) s := by
  simp only [onPage, State.onMbx, updAt, List.modify_modify_eq]
theorem onPage_onEvt {mb : Nat} {f : MbPage → MbPage} {g : Evt → Evt} {s : State} : onPage mb f (s.onEvt g) = (onPage mb f s).onEvt g := rfl
theorem getPage_onEvt {mb : Nat} {g : Evt → Evt} {s : State} : getPage (s.onEvt g) mb = getPage s mb := rfl

theorem onPage_pages_length {mb : Nat} {f : MbPage → MbPage} {s : State} : (onPage mb f s).mbx.pages.length = s.mbx.pages.length := by
  simp [onPage, State.onMbx, updAt]
theorem onPage_congr {mb : Nat} {f g : MbPage → MbPage} {s : State} (h : f (getPage s mb) = g (getPage s mb)) : onPage mb f s = onPage mb g s := by
  have : updAt s.mbx.pages mb f = updAt s.mbx.pages mb g := by
    apply List.ext_getElem?
    intro i
    simp only [updAt, List.getElem?_modify]
    by_cases hi : mb = i
    · subst hi
      cases hx : s.mbx.pages[mb]? with
      | none => rfl
      | some x =>
        have hg : getPage s mb = x := by simp only [getPage, List.getD_eq_getElem?_getD, hx]; rfl
        simp only [if_true, Option.map_eq_map, Option.map_some]
        rw [← hg, h]
    · simp [hi]
  simp only [onPage, State.onMbx, this]

/-- The doorbell of an idle mailbox of a running Summit brings the command to the checks of its opcode. -/
theorem command_served {o : OpSpec} {d : Doorbell} {p : List Byte} {s : State} (h : Ready o d p s) :
    command o d p s = .next (serve (some o) (cmdOf o d p s) true true (copied o d p s)) := by
  have hi := h.idle
  have hr := h.record
  have hq : fld (patch (getPage s d.mb.val).cmd 0 (cmdArea o.op d p)) 4 2 = d.value.toNat := h.seq
  have hh : hdrOk (patch (getPage s d.mb.val).cmd 0 (cmdArea o.op d p)) = true := h.hdr
  unfold command mailbox ringBell
  simp only [h.reach, if_true, onPage_onPage, onPage_onEvt, getPage_onEvt, getPage_onPage h.page, Function.comp, noSupervisor]
  have hrun : ∀ mb f, ((onPage mb f s).onEvt fun e => { e with asleep := false }).flt.summitRun = true := fun _ _ => h.run
  by_cases hk : d.mb.val = 2 ∧ (cmdOf o d p s).op = 0x0C03
  · obtain ⟨h2, hop⟩ := hk
    have hop' : (copyCmd 2 d.path d.value (patch (getPage s 2).cmd 0 (cmdArea o.op d p))).op = 0x0C03 := by
      have := hop; simp only [cmdOf, area, h2] at this; exact this
    rw [h2] at hi hr hq hh
    have hp := h.page; rw [h2] at hp
    simp only [h2, hop', hi, hr, onPage_onPage, onPage_onEvt, Option.isNone_none, decide_true, Bool.not_false, Bool.and_self, if_true]
    rw [if_neg (by rw [hrun]; exact Bool.false_ne_true), if_neg Bool.false_ne_true, hq, hh]
    simp only [copied, cmdOf, area, h2, hop', and_self, if_true, decide_true]
    rfl
  · have hk' : ¬ (d.mb.val = 2 ∧ (copyCmd d.mb.val d.path d.value (patch (getPage s d.mb.val).cmd 0 (cmdArea o.op d p))).op = 0x0C03) := hk
    have hb : (decide (d.mb.val = 2) && decide ((copyCmd d.mb.val d.path d.value (patch (getPage s d.mb.val).cmd 0 (cmdArea o.op d p))).op = 0x0C03)) = false := by
      simpa using hk'
    simp only [hb, Bool.false_and, if_false, Bool.false_eq_true, onPage_onPage, onPage_onEvt, hi, hq, hh, decide_true]
    rw [if_neg (by rw [hrun]; exact Bool.false_ne_true)]
    simp only [copied, cmdOf, area]
    congr 3
    refine onPage_congr ?_
    exact congrArg (fun x => (MbPage.mk x (getPage s d.mb.val).rsp d.value true false (getPage s d.mb.val).cairnDone (getPage s d.mb.val).mismatch
      (getPage s d.mb.val).overrun (getPage s d.mb.val).lastSeq (getPage s d.mb.val).hostWriteEn (getPage s d.mb.val).irqEn (getPage s d.mb.val).vec
      (getPage s d.mb.val).recorded)) (if_neg hk').symm

theorem command_eq {o : OpSpec} {d : Doorbell} {p : List Byte} {s : State} (h : Ready o d p s) :
    command o d p s = .next (let r := perform o (cmdOf o d p s) (copied o d p s); post (cmdOf o d p s) r.1 r.2) := by
  obtain ⟨h1, h2⟩ := find_bad_none (s := copied o d p s) (l := o.needs (cmdOf o d p s)) (fun x hx => h.doms x hx)
  rw [command_served h]
  have ho : (!o.diag && shutOut (cmdOf o d p s) (copied o d p s)) = false := by rcases h.open_ with a | a <;> simp [a]
  simp only [serve, judge, engage, h.rsv, h.mode, ho, h1, h2, Bool.not_true, if_false, Bool.false_eq_true]

/-- A command that nothing turns away and whose effect is no long one is answered with what its effect answers. -/
theorem command_answers {o : OpSpec} {d : Doorbell} {p : List Byte} {s u : State} {a : Ans} {l : List Part} {P : State → Prop} (h : Ready o d p s)
    (e : o.body (cmdOf o d p s) (copied o d p s) = (a, u)) (ha : a.status ≠ 1) (hl : Framed l s u) (hP : P u) :
    Answers (command o d p s) o d p s l a P := by
  refine ⟨u, ?_, hl, hP⟩
  rw [command_eq h]
  simp only [perform, e, ha, if_false, copied_anyHeld, h.free, Bool.false_eq_true]

/-- A long command that nothing turns away is accepted, where fewer than 32 are pending on its mailbox. -/
theorem command_accepts {o : OpSpec} {d : Doorbell} {p : List Byte} {s u : State} {l : List Part} {P : State → Prop} (h : Ready o d p s)
    (e : o.body (cmdOf o d p s) (copied o d p s) = (.pending, u)) (hn : pendingOf s d.mb.val < 32) (hm : .mbx ∈ l) (hl : Framed l s u)
    (hP : ∀ f, P (u.onMbx f)) : Accepts (command o d p s) o d p s l P := by
  have hn' : pendingOf (copied o d p s) (cmdOf o d p s).mb < 32 := hn
  refine ⟨u.onMbx fun m => { m with longs := m.longs ++ [{ cmd := cmdOf o d p s, objs := o.objs (cmdOf o d p s), started := true, startNs := nowNs (copied o d p s) }] },
    ?_, ⟨hl.1, fun q hq => ?_⟩, hP _, { cmd := cmdOf o d p s, objs := o.objs (cmdOf o d p s), started := true, startNs := nowNs (copied o d p s) }, rfl, rfl, rfl, ?_⟩
  · rw [command_eq h]
    simp only [perform, e, Ans.pending, if_true, if_neg (Nat.not_le.mpr hn'), copied_anyHeld, h.free, Bool.not_false, Bool.false_eq_true, if_false]
  · have := hl.2 q hq
    cases q <;> first | exact this | exact absurd hm hq
  · simp [State.onMbx]

@[simp] theorem getRing_onRingN {n : Nat} {f : Ring → Ring} {s : State} : getRing (onRingN n f s) n = f (getRing s n) := by
  simp [getRing, onRingN, State.onHost, Tab.getD, Tab.upd, Tab.get?_set]
@[simp] theorem getRing_emit {n : Nat} {e : Emit} {s : State} : getRing (s.emit e) n = getRing s n := rfl

end Sys2Proof.Machine
end

