-- ==== Sys2Proof/Laws/Frames.lean ====
section
/-!
SUPPORT. What the shared operations leave alone: their frames, and each part that none of their effects touches.
-/
namespace Sys2Proof.Machine

theorem noteTime_frame {s : State} : Framed [.clk] s (noteTime s) :=
  frame_of_keeps (noteTime_keeps (maskOf_all _) (Keeps.refl _))
@[simp] theorem noteTime_pwr {s : State} : (noteTime s).pwr = s.pwr := noteTime_frame.2 .pwr (by decide)
@[simp] theorem noteTime_outs {s : State} : (noteTime s).outs = s.outs := noteTime_frame.2 .outs (by decide)
@[simp] theorem noteTime_boot {s : State} : (noteTime s).boot = s.boot := noteTime_frame.2 .boot (by decide)
@[simp] theorem noteTime_mbx {s : State} : (noteTime s).mbx = s.mbx := noteTime_frame.2 .mbx (by decide)
@[simp] theorem noteTime_host {s : State} : (noteTime s).host = s.host := noteTime_frame.2 .host (by decide)
@[simp] theorem noteTime_evt {s : State} : (noteTime s).evt = s.evt := noteTime_frame.2 .evt (by decide)
@[simp] theorem noteTime_modes {s : State} : (noteTime s).modes = s.modes := noteTime_frame.2 .modes (by decide)
@[simp] theorem noteTime_flt {s : State} : (noteTime s).flt = s.flt := noteTime_frame.2 .flt (by decide)
@[simp] theorem noteTime_cad {s : State} : (noteTime s).cad = s.cad := noteTime_frame.2 .cad (by decide)
@[simp] theorem noteTime_fe {s : State} : (noteTime s).fe = s.fe := noteTime_frame.2 .fe (by decide)
@[simp] theorem noteTime_cal {s : State} : (noteTime s).cal = s.cal := noteTime_frame.2 .cal (by decide)
@[simp] theorem noteTime_air {s : State} : (noteTime s).air = s.air := noteTime_frame.2 .air (by decide)
@[simp] theorem noteTime_nb {s : State} : (noteTime s).nb = s.nb := noteTime_frame.2 .nb (by decide)
@[simp] theorem noteTime_mlad {s : State} : (noteTime s).mlad = s.mlad := noteTime_frame.2 .mlad (by decide)
@[simp] theorem noteTime_cls {s : State} : (noteTime s).cls = s.cls := noteTime_frame.2 .cls (by decide)
@[simp] theorem noteTime_fwd {s : State} : (noteTime s).fwd = s.fwd := noteTime_frame.2 .fwd (by decide)
@[simp] theorem noteTime_tm {s : State} : (noteTime s).tm = s.tm := noteTime_frame.2 .tm (by decide)
@[simp] theorem noteTime_cipher {s : State} : (noteTime s).cipher = s.cipher := noteTime_frame.2 .cipher (by decide)
@[simp] theorem noteTime_col {s : State} : (noteTime s).col = s.col := noteTime_frame.2 .col (by decide)
@[simp] theorem noteTime_dram {s : State} : (noteTime s).dram = s.dram := noteTime_frame.2 .dram (by decide)
@[simp] theorem noteTime_ring {s : State} : (noteTime s).ring = s.ring := noteTime_frame.2 .ring (by decide)
@[simp] theorem noteTime_drawn {s : State} : (noteTime s).drawn = s.drawn := noteTime_frame.2 .drawn (by decide)
@[simp] theorem noteTime_out {s : State} : (noteTime s).out = s.out := noteTime_frame.2 .out (by decide)
@[simp] theorem noteTime_pending {s : State} : (noteTime s).pending = s.pending := noteTime_frame.1

theorem advanceTo_frame {t : Int} {s : State} : Framed [.cad, .clk] s (advanceTo t s) :=
  frame_of_keeps (advanceTo_keeps (maskOf_all _) (Keeps.refl _))
@[simp] theorem advanceTo_pwr {t : Int} {s : State} : (advanceTo t s).pwr = s.pwr := advanceTo_frame.2 .pwr (by decide)
@[simp] theorem advanceTo_outs {t : Int} {s : State} : (advanceTo t s).outs = s.outs := advanceTo_frame.2 .outs (by decide)
@[simp] theorem advanceTo_boot {t : Int} {s : State} : (advanceTo t s).boot = s.boot := advanceTo_frame.2 .boot (by decide)
@[simp] theorem advanceTo_mbx {t : Int} {s : State} : (advanceTo t s).mbx = s.mbx := advanceTo_frame.2 .mbx (by decide)
@[simp] theorem advanceTo_host {t : Int} {s : State} : (advanceTo t s).host = s.host := advanceTo_frame.2 .host (by decide)
@[simp] theorem advanceTo_evt {t : Int} {s : State} : (advanceTo t s).evt = s.evt := advanceTo_frame.2 .evt (by decide)
@[simp] theorem advanceTo_modes {t : Int} {s : State} : (advanceTo t s).modes = s.modes := advanceTo_frame.2 .modes (by decide)
@[simp] theorem advanceTo_flt {t : Int} {s : State} : (advanceTo t s).flt = s.flt := advanceTo_frame.2 .flt (by decide)
@[simp] theorem advanceTo_fe {t : Int} {s : State} : (advanceTo t s).fe = s.fe := advanceTo_frame.2 .fe (by decide)
@[simp] theorem advanceTo_cal {t : Int} {s : State} : (advanceTo t s).cal = s.cal := advanceTo_frame.2 .cal (by decide)
@[simp] theorem advanceTo_air {t : Int} {s : State} : (advanceTo t s).air = s.air := advanceTo_frame.2 .air (by decide)
@[simp] theorem advanceTo_nb {t : Int} {s : State} : (advanceTo t s).nb = s.nb := advanceTo_frame.2 .nb (by decide)
@[simp] theorem advanceTo_mlad {t : Int} {s : State} : (advanceTo t s).mlad = s.mlad := advanceTo_frame.2 .mlad (by decide)
@[simp] theorem advanceTo_cls {t : Int} {s : State} : (advanceTo t s).cls = s.cls := advanceTo_frame.2 .cls (by decide)
@[simp] theorem advanceTo_fwd {t : Int} {s : State} : (advanceTo t s).fwd = s.fwd := advanceTo_frame.2 .fwd (by decide)
@[simp] theorem advanceTo_tm {t : Int} {s : State} : (advanceTo t s).tm = s.tm := advanceTo_frame.2 .tm (by decide)
@[simp] theorem advanceTo_cipher {t : Int} {s : State} : (advanceTo t s).cipher = s.cipher := advanceTo_frame.2 .cipher (by decide)
@[simp] theorem advanceTo_col {t : Int} {s : State} : (advanceTo t s).col = s.col := advanceTo_frame.2 .col (by decide)
@[simp] theorem advanceTo_dram {t : Int} {s : State} : (advanceTo t s).dram = s.dram := advanceTo_frame.2 .dram (by decide)
@[simp] theorem advanceTo_ring {t : Int} {s : State} : (advanceTo t s).ring = s.ring := advanceTo_frame.2 .ring (by decide)
@[simp] theorem advanceTo_drawn {t : Int} {s : State} : (advanceTo t s).drawn = s.drawn := advanceTo_frame.2 .drawn (by decide)
@[simp] theorem advanceTo_out {t : Int} {s : State} : (advanceTo t s).out = s.out := advanceTo_frame.2 .out (by decide)
@[simp] theorem advanceTo_pending {t : Int} {s : State} : (advanceTo t s).pending = s.pending := advanceTo_frame.1

theorem countCairn_frame {i : Nat} {s : State} {k : Nat} : Framed [.flt] s (countCairn i s k) :=
  frame_of_keeps (countCairn_keeps (maskOf_all _) (Keeps.refl _))
@[simp] theorem countCairn_pwr {i : Nat} {s : State} {k : Nat} : (countCairn i s k).pwr = s.pwr := countCairn_frame.2 .pwr (by decide)
@[simp] theorem countCairn_outs {i : Nat} {s : State} {k : Nat} : (countCairn i s k).outs = s.outs := countCairn_frame.2 .outs (by decide)
@[simp] theorem countCairn_boot {i : Nat} {s : State} {k : Nat} : (countCairn i s k).boot = s.boot := countCairn_frame.2 .boot (by decide)
@[simp] theorem countCairn_mbx {i : Nat} {s : State} {k : Nat} : (countCairn i s k).mbx = s.mbx := countCairn_frame.2 .mbx (by decide)
@[simp] theorem countCairn_host {i : Nat} {s : State} {k : Nat} : (countCairn i s k).host = s.host := countCairn_frame.2 .host (by decide)
@[simp] theorem countCairn_evt {i : Nat} {s : State} {k : Nat} : (countCairn i s k).evt = s.evt := countCairn_frame.2 .evt (by decide)
@[simp] theorem countCairn_modes {i : Nat} {s : State} {k : Nat} : (countCairn i s k).modes = s.modes := countCairn_frame.2 .modes (by decide)
@[simp] theorem countCairn_cad {i : Nat} {s : State} {k : Nat} : (countCairn i s k).cad = s.cad := countCairn_frame.2 .cad (by decide)
@[simp] theorem countCairn_clk {i : Nat} {s : State} {k : Nat} : (countCairn i s k).clk = s.clk := countCairn_frame.2 .clk (by decide)
@[simp] theorem countCairn_fe {i : Nat} {s : State} {k : Nat} : (countCairn i s k).fe = s.fe := countCairn_frame.2 .fe (by decide)
@[simp] theorem countCairn_cal {i : Nat} {s : State} {k : Nat} : (countCairn i s k).cal = s.cal := countCairn_frame.2 .cal (by decide)
@[simp] theorem countCairn_air {i : Nat} {s : State} {k : Nat} : (countCairn i s k).air = s.air := countCairn_frame.2 .air (by decide)
@[simp] theorem countCairn_nb {i : Nat} {s : State} {k : Nat} : (countCairn i s k).nb = s.nb := countCairn_frame.2 .nb (by decide)
@[simp] theorem countCairn_mlad {i : Nat} {s : State} {k : Nat} : (countCairn i s k).mlad = s.mlad := countCairn_frame.2 .mlad (by decide)
@[simp] theorem countCairn_cls {i : Nat} {s : State} {k : Nat} : (countCairn i s k).cls = s.cls := countCairn_frame.2 .cls (by decide)
@[simp] theorem countCairn_fwd {i : Nat} {s : State} {k : Nat} : (countCairn i s k).fwd = s.fwd := countCairn_frame.2 .fwd (by decide)
@[simp] theorem countCairn_tm {i : Nat} {s : State} {k : Nat} : (countCairn i s k).tm = s.tm := countCairn_frame.2 .tm (by decide)
@[simp] theorem countCairn_cipher {i : Nat} {s : State} {k : Nat} : (countCairn i s k).cipher = s.cipher := countCairn_frame.2 .cipher (by decide)
@[simp] theorem countCairn_col {i : Nat} {s : State} {k : Nat} : (countCairn i s k).col = s.col := countCairn_frame.2 .col (by decide)
@[simp] theorem countCairn_dram {i : Nat} {s : State} {k : Nat} : (countCairn i s k).dram = s.dram := countCairn_frame.2 .dram (by decide)
@[simp] theorem countCairn_ring {i : Nat} {s : State} {k : Nat} : (countCairn i s k).ring = s.ring := countCairn_frame.2 .ring (by decide)
@[simp] theorem countCairn_drawn {i : Nat} {s : State} {k : Nat} : (countCairn i s k).drawn = s.drawn := countCairn_frame.2 .drawn (by decide)
@[simp] theorem countCairn_out {i : Nat} {s : State} {k : Nat} : (countCairn i s k).out = s.out := countCairn_frame.2 .out (by decide)
@[simp] theorem countCairn_pending {i : Nat} {s : State} {k : Nat} : (countCairn i s k).pending = s.pending := countCairn_frame.1

theorem raiseVec_frame {v : Nat} {s : State} : Framed [.host, .out] s (raiseVec v s) :=
  frame_of_keeps (raiseVec_keeps (maskOf_all _) (Keeps.refl _))
@[simp] theorem raiseVec_pwr {v : Nat} {s : State} : (raiseVec v s).pwr = s.pwr := raiseVec_frame.2 .pwr (by decide)
@[simp] theorem raiseVec_outs {v : Nat} {s : State} : (raiseVec v s).outs = s.outs := raiseVec_frame.2 .outs (by decide)
@[simp] theorem raiseVec_boot {v : Nat} {s : State} : (raiseVec v s).boot = s.boot := raiseVec_frame.2 .boot (by decide)
@[simp] theorem raiseVec_mbx {v : Nat} {s : State} : (raiseVec v s).mbx = s.mbx := raiseVec_frame.2 .mbx (by decide)
@[simp] theorem raiseVec_evt {v : Nat} {s : State} : (raiseVec v s).evt = s.evt := raiseVec_frame.2 .evt (by decide)
@[simp] theorem raiseVec_modes {v : Nat} {s : State} : (raiseVec v s).modes = s.modes := raiseVec_frame.2 .modes (by decide)
@[simp] theorem raiseVec_flt {v : Nat} {s : State} : (raiseVec v s).flt = s.flt := raiseVec_frame.2 .flt (by decide)
@[simp] theorem raiseVec_cad {v : Nat} {s : State} : (raiseVec v s).cad = s.cad := raiseVec_frame.2 .cad (by decide)
@[simp] theorem raiseVec_clk {v : Nat} {s : State} : (raiseVec v s).clk = s.clk := raiseVec_frame.2 .clk (by decide)
@[simp] theorem raiseVec_fe {v : Nat} {s : State} : (raiseVec v s).fe = s.fe := raiseVec_frame.2 .fe (by decide)
@[simp] theorem raiseVec_cal {v : Nat} {s : State} : (raiseVec v s).cal = s.cal := raiseVec_frame.2 .cal (by decide)
@[simp] theorem raiseVec_air {v : Nat} {s : State} : (raiseVec v s).air = s.air := raiseVec_frame.2 .air (by decide)
@[simp] theorem raiseVec_nb {v : Nat} {s : State} : (raiseVec v s).nb = s.nb := raiseVec_frame.2 .nb (by decide)
@[simp] theorem raiseVec_mlad {v : Nat} {s : State} : (raiseVec v s).mlad = s.mlad := raiseVec_frame.2 .mlad (by decide)
@[simp] theorem raiseVec_cls {v : Nat} {s : State} : (raiseVec v s).cls = s.cls := raiseVec_frame.2 .cls (by decide)
@[simp] theorem raiseVec_fwd {v : Nat} {s : State} : (raiseVec v s).fwd = s.fwd := raiseVec_frame.2 .fwd (by decide)
@[simp] theorem raiseVec_tm {v : Nat} {s : State} : (raiseVec v s).tm = s.tm := raiseVec_frame.2 .tm (by decide)
@[simp] theorem raiseVec_cipher {v : Nat} {s : State} : (raiseVec v s).cipher = s.cipher := raiseVec_frame.2 .cipher (by decide)
@[simp] theorem raiseVec_col {v : Nat} {s : State} : (raiseVec v s).col = s.col := raiseVec_frame.2 .col (by decide)
@[simp] theorem raiseVec_dram {v : Nat} {s : State} : (raiseVec v s).dram = s.dram := raiseVec_frame.2 .dram (by decide)
@[simp] theorem raiseVec_ring {v : Nat} {s : State} : (raiseVec v s).ring = s.ring := raiseVec_frame.2 .ring (by decide)
@[simp] theorem raiseVec_drawn {v : Nat} {s : State} : (raiseVec v s).drawn = s.drawn := raiseVec_frame.2 .drawn (by decide)
@[simp] theorem raiseVec_pending {v : Nat} {s : State} : (raiseVec v s).pending = s.pending := raiseVec_frame.1

theorem onRingN_frame {n : Nat} {f : Ring → Ring} {s : State} : Framed [.host] s (onRingN n f s) :=
  frame_of_keeps (onRingN_keeps (maskOf_all _) (Keeps.refl _))

theorem ringVector_frame {n k : Nat} {s : State} : Framed [.host, .out] s (ringVector n k s) :=
  frame_of_keeps (ringVector_keeps (maskOf_all _) (Keeps.refl _))

theorem ringPublish_frame {n k : Nat} {s : State} : Framed [.host, .out] s (ringPublish n k s) :=
  frame_of_keeps (ringPublish_keeps (maskOf_all _) (Keeps.refl _))
@[simp] theorem ringPublish_pwr {n k : Nat} {s : State} : (ringPublish n k s).pwr = s.pwr := ringPublish_frame.2 .pwr (by decide)
@[simp] theorem ringPublish_outs {n k : Nat} {s : State} : (ringPublish n k s).outs = s.outs := ringPublish_frame.2 .outs (by decide)
@[simp] theorem ringPublish_boot {n k : Nat} {s : State} : (ringPublish n k s).boot = s.boot := ringPublish_frame.2 .boot (by decide)
@[simp] theorem ringPublish_mbx {n k : Nat} {s : State} : (ringPublish n k s).mbx = s.mbx := ringPublish_frame.2 .mbx (by decide)
@[simp] theorem ringPublish_evt {n k : Nat} {s : State} : (ringPublish n k s).evt = s.evt := ringPublish_frame.2 .evt (by decide)
@[simp] theorem ringPublish_modes {n k : Nat} {s : State} : (ringPublish n k s).modes = s.modes := ringPublish_frame.2 .modes (by decide)
@[simp] theorem ringPublish_flt {n k : Nat} {s : State} : (ringPublish n k s).flt = s.flt := ringPublish_frame.2 .flt (by decide)
@[simp] theorem ringPublish_cad {n k : Nat} {s : State} : (ringPublish n k s).cad = s.cad := ringPublish_frame.2 .cad (by decide)
@[simp] theorem ringPublish_clk {n k : Nat} {s : State} : (ringPublish n k s).clk = s.clk := ringPublish_frame.2 .clk (by decide)
@[simp] theorem ringPublish_fe {n k : Nat} {s : State} : (ringPublish n k s).fe = s.fe := ringPublish_frame.2 .fe (by decide)
@[simp] theorem ringPublish_cal {n k : Nat} {s : State} : (ringPublish n k s).cal = s.cal := ringPublish_frame.2 .cal (by decide)
@[simp] theorem ringPublish_air {n k : Nat} {s : State} : (ringPublish n k s).air = s.air := ringPublish_frame.2 .air (by decide)
@[simp] theorem ringPublish_nb {n k : Nat} {s : State} : (ringPublish n k s).nb = s.nb := ringPublish_frame.2 .nb (by decide)
@[simp] theorem ringPublish_mlad {n k : Nat} {s : State} : (ringPublish n k s).mlad = s.mlad := ringPublish_frame.2 .mlad (by decide)
@[simp] theorem ringPublish_cls {n k : Nat} {s : State} : (ringPublish n k s).cls = s.cls := ringPublish_frame.2 .cls (by decide)
@[simp] theorem ringPublish_fwd {n k : Nat} {s : State} : (ringPublish n k s).fwd = s.fwd := ringPublish_frame.2 .fwd (by decide)
@[simp] theorem ringPublish_tm {n k : Nat} {s : State} : (ringPublish n k s).tm = s.tm := ringPublish_frame.2 .tm (by decide)
@[simp] theorem ringPublish_cipher {n k : Nat} {s : State} : (ringPublish n k s).cipher = s.cipher := ringPublish_frame.2 .cipher (by decide)
@[simp] theorem ringPublish_col {n k : Nat} {s : State} : (ringPublish n k s).col = s.col := ringPublish_frame.2 .col (by decide)
@[simp] theorem ringPublish_dram {n k : Nat} {s : State} : (ringPublish n k s).dram = s.dram := ringPublish_frame.2 .dram (by decide)
@[simp] theorem ringPublish_ring {n k : Nat} {s : State} : (ringPublish n k s).ring = s.ring := ringPublish_frame.2 .ring (by decide)
@[simp] theorem ringPublish_drawn {n k : Nat} {s : State} : (ringPublish n k s).drawn = s.drawn := ringPublish_frame.2 .drawn (by decide)
@[simp] theorem ringPublish_pending {n k : Nat} {s : State} : (ringPublish n k s).pending = s.pending := ringPublish_frame.1

theorem ringDrop_frame {n : Nat} {s : State} : Framed [.host] s (ringDrop n s) :=
  frame_of_keeps (ringDrop_keeps (maskOf_all _) (Keeps.refl _))
@[simp] theorem ringDrop_pwr {n : Nat} {s : State} : (ringDrop n s).pwr = s.pwr := ringDrop_frame.2 .pwr (by decide)
@[simp] theorem ringDrop_outs {n : Nat} {s : State} : (ringDrop n s).outs = s.outs := ringDrop_frame.2 .outs (by decide)
@[simp] theorem ringDrop_boot {n : Nat} {s : State} : (ringDrop n s).boot = s.boot := ringDrop_frame.2 .boot (by decide)
@[simp] theorem ringDrop_mbx {n : Nat} {s : State} : (ringDrop n s).mbx = s.mbx := ringDrop_frame.2 .mbx (by decide)
@[simp] theorem ringDrop_evt {n : Nat} {s : State} : (ringDrop n s).evt = s.evt := ringDrop_frame.2 .evt (by decide)
@[simp] theorem ringDrop_modes {n : Nat} {s : State} : (ringDrop n s).modes = s.modes := ringDrop_frame.2 .modes (by decide)
@[simp] theorem ringDrop_flt {n : Nat} {s : State} : (ringDrop n s).flt = s.flt := ringDrop_frame.2 .flt (by decide)
@[simp] theorem ringDrop_cad {n : Nat} {s : State} : (ringDrop n s).cad = s.cad := ringDrop_frame.2 .cad (by decide)
@[simp] theorem ringDrop_clk {n : Nat} {s : State} : (ringDrop n s).clk = s.clk := ringDrop_frame.2 .clk (by decide)
@[simp] theorem ringDrop_fe {n : Nat} {s : State} : (ringDrop n s).fe = s.fe := ringDrop_frame.2 .fe (by decide)
@[simp] theorem ringDrop_cal {n : Nat} {s : State} : (ringDrop n s).cal = s.cal := ringDrop_frame.2 .cal (by decide)
@[simp] theorem ringDrop_air {n : Nat} {s : State} : (ringDrop n s).air = s.air := ringDrop_frame.2 .air (by decide)
@[simp] theorem ringDrop_nb {n : Nat} {s : State} : (ringDrop n s).nb = s.nb := ringDrop_frame.2 .nb (by decide)
@[simp] theorem ringDrop_mlad {n : Nat} {s : State} : (ringDrop n s).mlad = s.mlad := ringDrop_frame.2 .mlad (by decide)
@[simp] theorem ringDrop_cls {n : Nat} {s : State} : (ringDrop n s).cls = s.cls := ringDrop_frame.2 .cls (by decide)
@[simp] theorem ringDrop_fwd {n : Nat} {s : State} : (ringDrop n s).fwd = s.fwd := ringDrop_frame.2 .fwd (by decide)
@[simp] theorem ringDrop_tm {n : Nat} {s : State} : (ringDrop n s).tm = s.tm := ringDrop_frame.2 .tm (by decide)
@[simp] theorem ringDrop_cipher {n : Nat} {s : State} : (ringDrop n s).cipher = s.cipher := ringDrop_frame.2 .cipher (by decide)
@[simp] theorem ringDrop_col {n : Nat} {s : State} : (ringDrop n s).col = s.col := ringDrop_frame.2 .col (by decide)
@[simp] theorem ringDrop_dram {n : Nat} {s : State} : (ringDrop n s).dram = s.dram := ringDrop_frame.2 .dram (by decide)
@[simp] theorem ringDrop_ring {n : Nat} {s : State} : (ringDrop n s).ring = s.ring := ringDrop_frame.2 .ring (by decide)
@[simp] theorem ringDrop_drawn {n : Nat} {s : State} : (ringDrop n s).drawn = s.drawn := ringDrop_frame.2 .drawn (by decide)
@[simp] theorem ringDrop_out {n : Nat} {s : State} : (ringDrop n s).out = s.out := ringDrop_frame.2 .out (by decide)
@[simp] theorem ringDrop_pending {n : Nat} {s : State} : (ringDrop n s).pending = s.pending := ringDrop_frame.1

theorem ringPutRec_frame {n : Nat} {r : EvtRec} {s : State} : Framed [.host, .out] s (ringPutRec n r s) :=
  frame_of_keeps (ringPutRec_keeps (maskOf_all _) (Keeps.refl _))

theorem ringRoute_frame {n : Nat} {r : EvtRec} {s : State} : Framed [.host, .out] s (ringRoute n r s) :=
  frame_of_keeps (ringRoute_keeps (maskOf_all _) (Keeps.refl _))

theorem mramWrite_frame {a : Nat} {b : List Byte} {s : State} : Framed [.boot] s (mramWrite a b s) :=
  frame_of_keeps (mramWrite_keeps (maskOf_all _) (Keeps.refl _))
@[simp] theorem mramWrite_pwr {a : Nat} {b : List Byte} {s : State} : (mramWrite a b s).pwr = s.pwr := mramWrite_frame.2 .pwr (by decide)
@[simp] theorem mramWrite_outs {a : Nat} {b : List Byte} {s : State} : (mramWrite a b s).outs = s.outs := mramWrite_frame.2 .outs (by decide)
@[simp] theorem mramWrite_mbx {a : Nat} {b : List Byte} {s : State} : (mramWrite a b s).mbx = s.mbx := mramWrite_frame.2 .mbx (by decide)
@[simp] theorem mramWrite_host {a : Nat} {b : List Byte} {s : State} : (mramWrite a b s).host = s.host := mramWrite_frame.2 .host (by decide)
@[simp] theorem mramWrite_evt {a : Nat} {b : List Byte} {s : State} : (mramWrite a b s).evt = s.evt := mramWrite_frame.2 .evt (by decide)
@[simp] theorem mramWrite_modes {a : Nat} {b : List Byte} {s : State} : (mramWrite a b s).modes = s.modes := mramWrite_frame.2 .modes (by decide)
@[simp] theorem mramWrite_flt {a : Nat} {b : List Byte} {s : State} : (mramWrite a b s).flt = s.flt := mramWrite_frame.2 .flt (by decide)
@[simp] theorem mramWrite_cad {a : Nat} {b : List Byte} {s : State} : (mramWrite a b s).cad = s.cad := mramWrite_frame.2 .cad (by decide)
@[simp] theorem mramWrite_clk {a : Nat} {b : List Byte} {s : State} : (mramWrite a b s).clk = s.clk := mramWrite_frame.2 .clk (by decide)
@[simp] theorem mramWrite_fe {a : Nat} {b : List Byte} {s : State} : (mramWrite a b s).fe = s.fe := mramWrite_frame.2 .fe (by decide)
@[simp] theorem mramWrite_cal {a : Nat} {b : List Byte} {s : State} : (mramWrite a b s).cal = s.cal := mramWrite_frame.2 .cal (by decide)
@[simp] theorem mramWrite_air {a : Nat} {b : List Byte} {s : State} : (mramWrite a b s).air = s.air := mramWrite_frame.2 .air (by decide)
@[simp] theorem mramWrite_nb {a : Nat} {b : List Byte} {s : State} : (mramWrite a b s).nb = s.nb := mramWrite_frame.2 .nb (by decide)
@[simp] theorem mramWrite_mlad {a : Nat} {b : List Byte} {s : State} : (mramWrite a b s).mlad = s.mlad := mramWrite_frame.2 .mlad (by decide)
@[simp] theorem mramWrite_cls {a : Nat} {b : List Byte} {s : State} : (mramWrite a b s).cls = s.cls := mramWrite_frame.2 .cls (by decide)
@[simp] theorem mramWrite_fwd {a : Nat} {b : List Byte} {s : State} : (mramWrite a b s).fwd = s.fwd := mramWrite_frame.2 .fwd (by decide)
@[simp] theorem mramWrite_tm {a : Nat} {b : List Byte} {s : State} : (mramWrite a b s).tm = s.tm := mramWrite_frame.2 .tm (by decide)
@[simp] theorem mramWrite_cipher {a : Nat} {b : List Byte} {s : State} : (mramWrite a b s).cipher = s.cipher := mramWrite_frame.2 .cipher (by decide)
@[simp] theorem mramWrite_col {a : Nat} {b : List Byte} {s : State} : (mramWrite a b s).col = s.col := mramWrite_frame.2 .col (by decide)
@[simp] theorem mramWrite_dram {a : Nat} {b : List Byte} {s : State} : (mramWrite a b s).dram = s.dram := mramWrite_frame.2 .dram (by decide)
@[simp] theorem mramWrite_ring {a : Nat} {b : List Byte} {s : State} : (mramWrite a b s).ring = s.ring := mramWrite_frame.2 .ring (by decide)
@[simp] theorem mramWrite_drawn {a : Nat} {b : List Byte} {s : State} : (mramWrite a b s).drawn = s.drawn := mramWrite_frame.2 .drawn (by decide)
@[simp] theorem mramWrite_out {a : Nat} {b : List Byte} {s : State} : (mramWrite a b s).out = s.out := mramWrite_frame.2 .out (by decide)
@[simp] theorem mramWrite_pending {a : Nat} {b : List Byte} {s : State} : (mramWrite a b s).pending = s.pending := mramWrite_frame.1

theorem logRec_frame {r : EvtRec} {s : State} : Framed [.boot, .evt] s (logRec r s) :=
  frame_of_keeps (logRec_keeps (maskOf_all _) (Keeps.refl _))
@[simp] theorem logRec_pwr {r : EvtRec} {s : State} : (logRec r s).pwr = s.pwr := logRec_frame.2 .pwr (by decide)
@[simp] theorem logRec_outs {r : EvtRec} {s : State} : (logRec r s).outs = s.outs := logRec_frame.2 .outs (by decide)
@[simp] theorem logRec_mbx {r : EvtRec} {s : State} : (logRec r s).mbx = s.mbx := logRec_frame.2 .mbx (by decide)
@[simp] theorem logRec_host {r : EvtRec} {s : State} : (logRec r s).host = s.host := logRec_frame.2 .host (by decide)
@[simp] theorem logRec_modes {r : EvtRec} {s : State} : (logRec r s).modes = s.modes := logRec_frame.2 .modes (by decide)
@[simp] theorem logRec_flt {r : EvtRec} {s : State} : (logRec r s).flt = s.flt := logRec_frame.2 .flt (by decide)
@[simp] theorem logRec_cad {r : EvtRec} {s : State} : (logRec r s).cad = s.cad := logRec_frame.2 .cad (by decide)
@[simp] theorem logRec_clk {r : EvtRec} {s : State} : (logRec r s).clk = s.clk := logRec_frame.2 .clk (by decide)
@[simp] theorem logRec_fe {r : EvtRec} {s : State} : (logRec r s).fe = s.fe := logRec_frame.2 .fe (by decide)
@[simp] theorem logRec_cal {r : EvtRec} {s : State} : (logRec r s).cal = s.cal := logRec_frame.2 .cal (by decide)
@[simp] theorem logRec_air {r : EvtRec} {s : State} : (logRec r s).air = s.air := logRec_frame.2 .air (by decide)
@[simp] theorem logRec_nb {r : EvtRec} {s : State} : (logRec r s).nb = s.nb := logRec_frame.2 .nb (by decide)
@[simp] theorem logRec_mlad {r : EvtRec} {s : State} : (logRec r s).mlad = s.mlad := logRec_frame.2 .mlad (by decide)
@[simp] theorem logRec_cls {r : EvtRec} {s : State} : (logRec r s).cls = s.cls := logRec_frame.2 .cls (by decide)
@[simp] theorem logRec_fwd {r : EvtRec} {s : State} : (logRec r s).fwd = s.fwd := logRec_frame.2 .fwd (by decide)
@[simp] theorem logRec_tm {r : EvtRec} {s : State} : (logRec r s).tm = s.tm := logRec_frame.2 .tm (by decide)
@[simp] theorem logRec_cipher {r : EvtRec} {s : State} : (logRec r s).cipher = s.cipher := logRec_frame.2 .cipher (by decide)
@[simp] theorem logRec_col {r : EvtRec} {s : State} : (logRec r s).col = s.col := logRec_frame.2 .col (by decide)
@[simp] theorem logRec_dram {r : EvtRec} {s : State} : (logRec r s).dram = s.dram := logRec_frame.2 .dram (by decide)
@[simp] theorem logRec_ring {r : EvtRec} {s : State} : (logRec r s).ring = s.ring := logRec_frame.2 .ring (by decide)
@[simp] theorem logRec_drawn {r : EvtRec} {s : State} : (logRec r s).drawn = s.drawn := logRec_frame.2 .drawn (by decide)
@[simp] theorem logRec_out {r : EvtRec} {s : State} : (logRec r s).out = s.out := logRec_frame.2 .out (by decide)
@[simp] theorem logRec_pending {r : EvtRec} {s : State} : (logRec r s).pending = s.pending := logRec_frame.1

theorem raise_frame {code : Nat} {obj : Option Nat} {payload : List Byte} {s : State} {mb : Nat} {cmdSeq : W16} : Framed [.boot, .host, .evt, .clk, .out] s (raise code obj payload s mb cmdSeq) :=
  frame_of_keeps (raise_keeps (maskOf_all _) (Keeps.refl _))
@[simp] theorem raise_pwr {code : Nat} {obj : Option Nat} {payload : List Byte} {s : State} {mb : Nat} {cmdSeq : W16} : (raise code obj payload s mb cmdSeq).pwr = s.pwr := raise_frame.2 .pwr (by decide)
@[simp] theorem raise_outs {code : Nat} {obj : Option Nat} {payload : List Byte} {s : State} {mb : Nat} {cmdSeq : W16} : (raise code obj payload s mb cmdSeq).outs = s.outs := raise_frame.2 .outs (by decide)
@[simp] theorem raise_mbx {code : Nat} {obj : Option Nat} {payload : List Byte} {s : State} {mb : Nat} {cmdSeq : W16} : (raise code obj payload s mb cmdSeq).mbx = s.mbx := raise_frame.2 .mbx (by decide)
@[simp] theorem raise_modes {code : Nat} {obj : Option Nat} {payload : List Byte} {s : State} {mb : Nat} {cmdSeq : W16} : (raise code obj payload s mb cmdSeq).modes = s.modes := raise_frame.2 .modes (by decide)
@[simp] theorem raise_flt {code : Nat} {obj : Option Nat} {payload : List Byte} {s : State} {mb : Nat} {cmdSeq : W16} : (raise code obj payload s mb cmdSeq).flt = s.flt := raise_frame.2 .flt (by decide)
@[simp] theorem raise_cad {code : Nat} {obj : Option Nat} {payload : List Byte} {s : State} {mb : Nat} {cmdSeq : W16} : (raise code obj payload s mb cmdSeq).cad = s.cad := raise_frame.2 .cad (by decide)
@[simp] theorem raise_fe {code : Nat} {obj : Option Nat} {payload : List Byte} {s : State} {mb : Nat} {cmdSeq : W16} : (raise code obj payload s mb cmdSeq).fe = s.fe := raise_frame.2 .fe (by decide)
@[simp] theorem raise_cal {code : Nat} {obj : Option Nat} {payload : List Byte} {s : State} {mb : Nat} {cmdSeq : W16} : (raise code obj payload s mb cmdSeq).cal = s.cal := raise_frame.2 .cal (by decide)
@[simp] theorem raise_air {code : Nat} {obj : Option Nat} {payload : List Byte} {s : State} {mb : Nat} {cmdSeq : W16} : (raise code obj payload s mb cmdSeq).air = s.air := raise_frame.2 .air (by decide)
@[simp] theorem raise_nb {code : Nat} {obj : Option Nat} {payload : List Byte} {s : State} {mb : Nat} {cmdSeq : W16} : (raise code obj payload s mb cmdSeq).nb = s.nb := raise_frame.2 .nb (by decide)
@[simp] theorem raise_mlad {code : Nat} {obj : Option Nat} {payload : List Byte} {s : State} {mb : Nat} {cmdSeq : W16} : (raise code obj payload s mb cmdSeq).mlad = s.mlad := raise_frame.2 .mlad (by decide)
@[simp] theorem raise_cls {code : Nat} {obj : Option Nat} {payload : List Byte} {s : State} {mb : Nat} {cmdSeq : W16} : (raise code obj payload s mb cmdSeq).cls = s.cls := raise_frame.2 .cls (by decide)
@[simp] theorem raise_fwd {code : Nat} {obj : Option Nat} {payload : List Byte} {s : State} {mb : Nat} {cmdSeq : W16} : (raise code obj payload s mb cmdSeq).fwd = s.fwd := raise_frame.2 .fwd (by decide)
@[simp] theorem raise_tm {code : Nat} {obj : Option Nat} {payload : List Byte} {s : State} {mb : Nat} {cmdSeq : W16} : (raise code obj payload s mb cmdSeq).tm = s.tm := raise_frame.2 .tm (by decide)
@[simp] theorem raise_cipher {code : Nat} {obj : Option Nat} {payload : List Byte} {s : State} {mb : Nat} {cmdSeq : W16} : (raise code obj payload s mb cmdSeq).cipher = s.cipher := raise_frame.2 .cipher (by decide)
@[simp] theorem raise_col {code : Nat} {obj : Option Nat} {payload : List Byte} {s : State} {mb : Nat} {cmdSeq : W16} : (raise code obj payload s mb cmdSeq).col = s.col := raise_frame.2 .col (by decide)
@[simp] theorem raise_dram {code : Nat} {obj : Option Nat} {payload : List Byte} {s : State} {mb : Nat} {cmdSeq : W16} : (raise code obj payload s mb cmdSeq).dram = s.dram := raise_frame.2 .dram (by decide)
@[simp] theorem raise_ring {code : Nat} {obj : Option Nat} {payload : List Byte} {s : State} {mb : Nat} {cmdSeq : W16} : (raise code obj payload s mb cmdSeq).ring = s.ring := raise_frame.2 .ring (by decide)
@[simp] theorem raise_drawn {code : Nat} {obj : Option Nat} {payload : List Byte} {s : State} {mb : Nat} {cmdSeq : W16} : (raise code obj payload s mb cmdSeq).drawn = s.drawn := raise_frame.2 .drawn (by decide)
@[simp] theorem raise_pending {code : Nat} {obj : Option Nat} {payload : List Byte} {s : State} {mb : Nat} {cmdSeq : W16} : (raise code obj payload s mb cmdSeq).pending = s.pending := raise_frame.1

theorem flushLost_frame {n : Nat} {s : State} : Framed [.boot, .host, .evt, .out] s (flushLost n s) :=
  frame_of_keeps (flushLost_keeps (maskOf_all _) (Keeps.refl _))

theorem onDom_frame {d : Nat} {f : Domain → Domain} {s : State} : Framed [.modes] s (onDom d f s) :=
  frame_of_keeps (onDom_keeps (maskOf_all _) (Keeps.refl _))

theorem onPage_frame {mb : Nat} {f : MbPage → MbPage} {s : State} : Framed [.mbx] s (onPage mb f s) :=
  frame_of_keeps (onPage_keeps (maskOf_all _) (Keeps.refl _))

theorem cmdDone_frame {c : Cmd} {a : Ans} {s : State} : Framed [.boot, .host, .evt, .clk, .out] s (cmdDone c a s) :=
  frame_of_keeps (cmdDone_keeps (maskOf_all _) (Keeps.refl _))
@[simp] theorem cmdDone_pwr {c : Cmd} {a : Ans} {s : State} : (cmdDone c a s).pwr = s.pwr := cmdDone_frame.2 .pwr (by decide)
@[simp] theorem cmdDone_outs {c : Cmd} {a : Ans} {s : State} : (cmdDone c a s).outs = s.outs := cmdDone_frame.2 .outs (by decide)
@[simp] theorem cmdDone_mbx {c : Cmd} {a : Ans} {s : State} : (cmdDone c a s).mbx = s.mbx := cmdDone_frame.2 .mbx (by decide)
@[simp] theorem cmdDone_modes {c : Cmd} {a : Ans} {s : State} : (cmdDone c a s).modes = s.modes := cmdDone_frame.2 .modes (by decide)
@[simp] theorem cmdDone_flt {c : Cmd} {a : Ans} {s : State} : (cmdDone c a s).flt = s.flt := cmdDone_frame.2 .flt (by decide)
@[simp] theorem cmdDone_cad {c : Cmd} {a : Ans} {s : State} : (cmdDone c a s).cad = s.cad := cmdDone_frame.2 .cad (by decide)
@[simp] theorem cmdDone_fe {c : Cmd} {a : Ans} {s : State} : (cmdDone c a s).fe = s.fe := cmdDone_frame.2 .fe (by decide)
@[simp] theorem cmdDone_cal {c : Cmd} {a : Ans} {s : State} : (cmdDone c a s).cal = s.cal := cmdDone_frame.2 .cal (by decide)
@[simp] theorem cmdDone_air {c : Cmd} {a : Ans} {s : State} : (cmdDone c a s).air = s.air := cmdDone_frame.2 .air (by decide)
@[simp] theorem cmdDone_nb {c : Cmd} {a : Ans} {s : State} : (cmdDone c a s).nb = s.nb := cmdDone_frame.2 .nb (by decide)
@[simp] theorem cmdDone_mlad {c : Cmd} {a : Ans} {s : State} : (cmdDone c a s).mlad = s.mlad := cmdDone_frame.2 .mlad (by decide)
@[simp] theorem cmdDone_cls {c : Cmd} {a : Ans} {s : State} : (cmdDone c a s).cls = s.cls := cmdDone_frame.2 .cls (by decide)
@[simp] theorem cmdDone_fwd {c : Cmd} {a : Ans} {s : State} : (cmdDone c a s).fwd = s.fwd := cmdDone_frame.2 .fwd (by decide)
@[simp] theorem cmdDone_tm {c : Cmd} {a : Ans} {s : State} : (cmdDone c a s).tm = s.tm := cmdDone_frame.2 .tm (by decide)
@[simp] theorem cmdDone_cipher {c : Cmd} {a : Ans} {s : State} : (cmdDone c a s).cipher = s.cipher := cmdDone_frame.2 .cipher (by decide)
@[simp] theorem cmdDone_col {c : Cmd} {a : Ans} {s : State} : (cmdDone c a s).col = s.col := cmdDone_frame.2 .col (by decide)
@[simp] theorem cmdDone_dram {c : Cmd} {a : Ans} {s : State} : (cmdDone c a s).dram = s.dram := cmdDone_frame.2 .dram (by decide)
@[simp] theorem cmdDone_ring {c : Cmd} {a : Ans} {s : State} : (cmdDone c a s).ring = s.ring := cmdDone_frame.2 .ring (by decide)
@[simp] theorem cmdDone_drawn {c : Cmd} {a : Ans} {s : State} : (cmdDone c a s).drawn = s.drawn := cmdDone_frame.2 .drawn (by decide)
@[simp] theorem cmdDone_pending {c : Cmd} {a : Ans} {s : State} : (cmdDone c a s).pending = s.pending := cmdDone_frame.1

theorem ringWait_frame {port cls : Nat} {f : List Byte} {s : State} : Framed [.ring] s (ringWait port cls f s) :=
  frame_of_keeps (ringWait_keeps (maskOf_all _) (Keeps.refl _))

theorem ringSend_frame {type dst cls tc : Nat} {body : List Byte} {s : State} : Framed [.ring] s (ringSend type dst cls tc body s) :=
  frame_of_keeps (ringSend_keeps (maskOf_all _) (Keeps.refl _))
@[simp] theorem ringSend_pwr {type dst cls tc : Nat} {body : List Byte} {s : State} : (ringSend type dst cls tc body s).pwr = s.pwr := ringSend_frame.2 .pwr (by decide)
@[simp] theorem ringSend_outs {type dst cls tc : Nat} {body : List Byte} {s : State} : (ringSend type dst cls tc body s).outs = s.outs := ringSend_frame.2 .outs (by decide)
@[simp] theorem ringSend_boot {type dst cls tc : Nat} {body : List Byte} {s : State} : (ringSend type dst cls tc body s).boot = s.boot := ringSend_frame.2 .boot (by decide)
@[simp] theorem ringSend_mbx {type dst cls tc : Nat} {body : List Byte} {s : State} : (ringSend type dst cls tc body s).mbx = s.mbx := ringSend_frame.2 .mbx (by decide)
@[simp] theorem ringSend_host {type dst cls tc : Nat} {body : List Byte} {s : State} : (ringSend type dst cls tc body s).host = s.host := ringSend_frame.2 .host (by decide)
@[simp] theorem ringSend_evt {type dst cls tc : Nat} {body : List Byte} {s : State} : (ringSend type dst cls tc body s).evt = s.evt := ringSend_frame.2 .evt (by decide)
@[simp] theorem ringSend_modes {type dst cls tc : Nat} {body : List Byte} {s : State} : (ringSend type dst cls tc body s).modes = s.modes := ringSend_frame.2 .modes (by decide)
@[simp] theorem ringSend_flt {type dst cls tc : Nat} {body : List Byte} {s : State} : (ringSend type dst cls tc body s).flt = s.flt := ringSend_frame.2 .flt (by decide)
@[simp] theorem ringSend_cad {type dst cls tc : Nat} {body : List Byte} {s : State} : (ringSend type dst cls tc body s).cad = s.cad := ringSend_frame.2 .cad (by decide)
@[simp] theorem ringSend_clk {type dst cls tc : Nat} {body : List Byte} {s : State} : (ringSend type dst cls tc body s).clk = s.clk := ringSend_frame.2 .clk (by decide)
@[simp] theorem ringSend_fe {type dst cls tc : Nat} {body : List Byte} {s : State} : (ringSend type dst cls tc body s).fe = s.fe := ringSend_frame.2 .fe (by decide)
@[simp] theorem ringSend_cal {type dst cls tc : Nat} {body : List Byte} {s : State} : (ringSend type dst cls tc body s).cal = s.cal := ringSend_frame.2 .cal (by decide)
@[simp] theorem ringSend_air {type dst cls tc : Nat} {body : List Byte} {s : State} : (ringSend type dst cls tc body s).air = s.air := ringSend_frame.2 .air (by decide)
@[simp] theorem ringSend_nb {type dst cls tc : Nat} {body : List Byte} {s : State} : (ringSend type dst cls tc body s).nb = s.nb := ringSend_frame.2 .nb (by decide)
@[simp] theorem ringSend_mlad {type dst cls tc : Nat} {body : List Byte} {s : State} : (ringSend type dst cls tc body s).mlad = s.mlad := ringSend_frame.2 .mlad (by decide)
@[simp] theorem ringSend_cls {type dst cls tc : Nat} {body : List Byte} {s : State} : (ringSend type dst cls tc body s).cls = s.cls := ringSend_frame.2 .cls (by decide)
@[simp] theorem ringSend_fwd {type dst cls tc : Nat} {body : List Byte} {s : State} : (ringSend type dst cls tc body s).fwd = s.fwd := ringSend_frame.2 .fwd (by decide)
@[simp] theorem ringSend_tm {type dst cls tc : Nat} {body : List Byte} {s : State} : (ringSend type dst cls tc body s).tm = s.tm := ringSend_frame.2 .tm (by decide)
@[simp] theorem ringSend_cipher {type dst cls tc : Nat} {body : List Byte} {s : State} : (ringSend type dst cls tc body s).cipher = s.cipher := ringSend_frame.2 .cipher (by decide)
@[simp] theorem ringSend_col {type dst cls tc : Nat} {body : List Byte} {s : State} : (ringSend type dst cls tc body s).col = s.col := ringSend_frame.2 .col (by decide)
@[simp] theorem ringSend_dram {type dst cls tc : Nat} {body : List Byte} {s : State} : (ringSend type dst cls tc body s).dram = s.dram := ringSend_frame.2 .dram (by decide)
@[simp] theorem ringSend_drawn {type dst cls tc : Nat} {body : List Byte} {s : State} : (ringSend type dst cls tc body s).drawn = s.drawn := ringSend_frame.2 .drawn (by decide)
@[simp] theorem ringSend_out {type dst cls tc : Nat} {body : List Byte} {s : State} : (ringSend type dst cls tc body s).out = s.out := ringSend_frame.2 .out (by decide)
@[simp] theorem ringSend_pending {type dst cls tc : Nat} {body : List Byte} {s : State} : (ringSend type dst cls tc body s).pending = s.pending := ringSend_frame.1

theorem ringBack_frame {c : Cmd} {bytes : List Byte} {last : Bool} {s : State} : Framed [.ring] s (ringBack c bytes last s) :=
  frame_of_keeps (ringBack_keeps (maskOf_all _) (Keeps.refl _))
@[simp] theorem ringBack_pwr {c : Cmd} {bytes : List Byte} {last : Bool} {s : State} : (ringBack c bytes last s).pwr = s.pwr := ringBack_frame.2 .pwr (by decide)
@[simp] theorem ringBack_outs {c : Cmd} {bytes : List Byte} {last : Bool} {s : State} : (ringBack c bytes last s).outs = s.outs := ringBack_frame.2 .outs (by decide)
@[simp] theorem ringBack_boot {c : Cmd} {bytes : List Byte} {last : Bool} {s : State} : (ringBack c bytes last s).boot = s.boot := ringBack_frame.2 .boot (by decide)
@[simp] theorem ringBack_mbx {c : Cmd} {bytes : List Byte} {last : Bool} {s : State} : (ringBack c bytes last s).mbx = s.mbx := ringBack_frame.2 .mbx (by decide)
@[simp] theorem ringBack_host {c : Cmd} {bytes : List Byte} {last : Bool} {s : State} : (ringBack c bytes last s).host = s.host := ringBack_frame.2 .host (by decide)
@[simp] theorem ringBack_evt {c : Cmd} {bytes : List Byte} {last : Bool} {s : State} : (ringBack c bytes last s).evt = s.evt := ringBack_frame.2 .evt (by decide)
@[simp] theorem ringBack_modes {c : Cmd} {bytes : List Byte} {last : Bool} {s : State} : (ringBack c bytes last s).modes = s.modes := ringBack_frame.2 .modes (by decide)
@[simp] theorem ringBack_flt {c : Cmd} {bytes : List Byte} {last : Bool} {s : State} : (ringBack c bytes last s).flt = s.flt := ringBack_frame.2 .flt (by decide)
@[simp] theorem ringBack_cad {c : Cmd} {bytes : List Byte} {last : Bool} {s : State} : (ringBack c bytes last s).cad = s.cad := ringBack_frame.2 .cad (by decide)
@[simp] theorem ringBack_clk {c : Cmd} {bytes : List Byte} {last : Bool} {s : State} : (ringBack c bytes last s).clk = s.clk := ringBack_frame.2 .clk (by decide)
@[simp] theorem ringBack_fe {c : Cmd} {bytes : List Byte} {last : Bool} {s : State} : (ringBack c bytes last s).fe = s.fe := ringBack_frame.2 .fe (by decide)
@[simp] theorem ringBack_cal {c : Cmd} {bytes : List Byte} {last : Bool} {s : State} : (ringBack c bytes last s).cal = s.cal := ringBack_frame.2 .cal (by decide)
@[simp] theorem ringBack_air {c : Cmd} {bytes : List Byte} {last : Bool} {s : State} : (ringBack c bytes last s).air = s.air := ringBack_frame.2 .air (by decide)
@[simp] theorem ringBack_nb {c : Cmd} {bytes : List Byte} {last : Bool} {s : State} : (ringBack c bytes last s).nb = s.nb := ringBack_frame.2 .nb (by decide)
@[simp] theorem ringBack_mlad {c : Cmd} {bytes : List Byte} {last : Bool} {s : State} : (ringBack c bytes last s).mlad = s.mlad := ringBack_frame.2 .mlad (by decide)
@[simp] theorem ringBack_cls {c : Cmd} {bytes : List Byte} {last : Bool} {s : State} : (ringBack c bytes last s).cls = s.cls := ringBack_frame.2 .cls (by decide)
@[simp] theorem ringBack_fwd {c : Cmd} {bytes : List Byte} {last : Bool} {s : State} : (ringBack c bytes last s).fwd = s.fwd := ringBack_frame.2 .fwd (by decide)
@[simp] theorem ringBack_tm {c : Cmd} {bytes : List Byte} {last : Bool} {s : State} : (ringBack c bytes last s).tm = s.tm := ringBack_frame.2 .tm (by decide)
@[simp] theorem ringBack_cipher {c : Cmd} {bytes : List Byte} {last : Bool} {s : State} : (ringBack c bytes last s).cipher = s.cipher := ringBack_frame.2 .cipher (by decide)
@[simp] theorem ringBack_col {c : Cmd} {bytes : List Byte} {last : Bool} {s : State} : (ringBack c bytes last s).col = s.col := ringBack_frame.2 .col (by decide)
@[simp] theorem ringBack_dram {c : Cmd} {bytes : List Byte} {last : Bool} {s : State} : (ringBack c bytes last s).dram = s.dram := ringBack_frame.2 .dram (by decide)
@[simp] theorem ringBack_drawn {c : Cmd} {bytes : List Byte} {last : Bool} {s : State} : (ringBack c bytes last s).drawn = s.drawn := ringBack_frame.2 .drawn (by decide)
@[simp] theorem ringBack_out {c : Cmd} {bytes : List Byte} {last : Bool} {s : State} : (ringBack c bytes last s).out = s.out := ringBack_frame.2 .out (by decide)
@[simp] theorem ringBack_pending {c : Cmd} {bytes : List Byte} {last : Bool} {s : State} : (ringBack c bytes last s).pending = s.pending := ringBack_frame.1

theorem post_frame {c : Cmd} {a : Ans} {s : State} : Framed [.boot, .mbx, .host, .evt, .clk, .ring, .out] s (post c a s) :=
  frame_of_keeps (post_keeps (maskOf_all _) (Keeps.refl _))
@[simp] theorem post_pwr {c : Cmd} {a : Ans} {s : State} : (post c a s).pwr = s.pwr := post_frame.2 .pwr (by decide)
@[simp] theorem post_outs {c : Cmd} {a : Ans} {s : State} : (post c a s).outs = s.outs := post_frame.2 .outs (by decide)
@[simp] theorem post_modes {c : Cmd} {a : Ans} {s : State} : (post c a s).modes = s.modes := post_frame.2 .modes (by decide)
@[simp] theorem post_flt {c : Cmd} {a : Ans} {s : State} : (post c a s).flt = s.flt := post_frame.2 .flt (by decide)
@[simp] theorem post_cad {c : Cmd} {a : Ans} {s : State} : (post c a s).cad = s.cad := post_frame.2 .cad (by decide)
@[simp] theorem post_fe {c : Cmd} {a : Ans} {s : State} : (post c a s).fe = s.fe := post_frame.2 .fe (by decide)
@[simp] theorem post_cal {c : Cmd} {a : Ans} {s : State} : (post c a s).cal = s.cal := post_frame.2 .cal (by decide)
@[simp] theorem post_air {c : Cmd} {a : Ans} {s : State} : (post c a s).air = s.air := post_frame.2 .air (by decide)
@[simp] theorem post_nb {c : Cmd} {a : Ans} {s : State} : (post c a s).nb = s.nb := post_frame.2 .nb (by decide)
@[simp] theorem post_mlad {c : Cmd} {a : Ans} {s : State} : (post c a s).mlad = s.mlad := post_frame.2 .mlad (by decide)
@[simp] theorem post_cls {c : Cmd} {a : Ans} {s : State} : (post c a s).cls = s.cls := post_frame.2 .cls (by decide)
@[simp] theorem post_fwd {c : Cmd} {a : Ans} {s : State} : (post c a s).fwd = s.fwd := post_frame.2 .fwd (by decide)
@[simp] theorem post_tm {c : Cmd} {a : Ans} {s : State} : (post c a s).tm = s.tm := post_frame.2 .tm (by decide)
@[simp] theorem post_cipher {c : Cmd} {a : Ans} {s : State} : (post c a s).cipher = s.cipher := post_frame.2 .cipher (by decide)
@[simp] theorem post_col {c : Cmd} {a : Ans} {s : State} : (post c a s).col = s.col := post_frame.2 .col (by decide)
@[simp] theorem post_dram {c : Cmd} {a : Ans} {s : State} : (post c a s).dram = s.dram := post_frame.2 .dram (by decide)
@[simp] theorem post_drawn {c : Cmd} {a : Ans} {s : State} : (post c a s).drawn = s.drawn := post_frame.2 .drawn (by decide)
@[simp] theorem post_pending {c : Cmd} {a : Ans} {s : State} : (post c a s).pending = s.pending := post_frame.1

theorem endLong_frame {l : LongCmd} {a : Ans} {s : State} : Framed [.boot, .mbx, .host, .evt, .clk, .ring, .out] s (endLong l a s) :=
  frame_of_keeps (endLong_keeps (maskOf_all _) (Keeps.refl _))
@[simp] theorem endLong_pwr {l : LongCmd} {a : Ans} {s : State} : (endLong l a s).pwr = s.pwr := endLong_frame.2 .pwr (by decide)
@[simp] theorem endLong_outs {l : LongCmd} {a : Ans} {s : State} : (endLong l a s).outs = s.outs := endLong_frame.2 .outs (by decide)
@[simp] theorem endLong_modes {l : LongCmd} {a : Ans} {s : State} : (endLong l a s).modes = s.modes := endLong_frame.2 .modes (by decide)
@[simp] theorem endLong_flt {l : LongCmd} {a : Ans} {s : State} : (endLong l a s).flt = s.flt := endLong_frame.2 .flt (by decide)
@[simp] theorem endLong_cad {l : LongCmd} {a : Ans} {s : State} : (endLong l a s).cad = s.cad := endLong_frame.2 .cad (by decide)
@[simp] theorem endLong_fe {l : LongCmd} {a : Ans} {s : State} : (endLong l a s).fe = s.fe := endLong_frame.2 .fe (by decide)
@[simp] theorem endLong_cal {l : LongCmd} {a : Ans} {s : State} : (endLong l a s).cal = s.cal := endLong_frame.2 .cal (by decide)
@[simp] theorem endLong_air {l : LongCmd} {a : Ans} {s : State} : (endLong l a s).air = s.air := endLong_frame.2 .air (by decide)
@[simp] theorem endLong_nb {l : LongCmd} {a : Ans} {s : State} : (endLong l a s).nb = s.nb := endLong_frame.2 .nb (by decide)
@[simp] theorem endLong_mlad {l : LongCmd} {a : Ans} {s : State} : (endLong l a s).mlad = s.mlad := endLong_frame.2 .mlad (by decide)
@[simp] theorem endLong_cls {l : LongCmd} {a : Ans} {s : State} : (endLong l a s).cls = s.cls := endLong_frame.2 .cls (by decide)
@[simp] theorem endLong_fwd {l : LongCmd} {a : Ans} {s : State} : (endLong l a s).fwd = s.fwd := endLong_frame.2 .fwd (by decide)
@[simp] theorem endLong_tm {l : LongCmd} {a : Ans} {s : State} : (endLong l a s).tm = s.tm := endLong_frame.2 .tm (by decide)
@[simp] theorem endLong_cipher {l : LongCmd} {a : Ans} {s : State} : (endLong l a s).cipher = s.cipher := endLong_frame.2 .cipher (by decide)
@[simp] theorem endLong_col {l : LongCmd} {a : Ans} {s : State} : (endLong l a s).col = s.col := endLong_frame.2 .col (by decide)
@[simp] theorem endLong_dram {l : LongCmd} {a : Ans} {s : State} : (endLong l a s).dram = s.dram := endLong_frame.2 .dram (by decide)
@[simp] theorem endLong_drawn {l : LongCmd} {a : Ans} {s : State} : (endLong l a s).drawn = s.drawn := endLong_frame.2 .drawn (by decide)
@[simp] theorem endLong_pending {l : LongCmd} {a : Ans} {s : State} : (endLong l a s).pending = s.pending := endLong_frame.1

theorem endOp_frame {op : Nat} {a : Ans} {s : State} {p : Cmd → Bool} : Framed [.boot, .mbx, .host, .evt, .clk, .ring, .out] s (endOp op a s p) :=
  frame_of_keeps (endOp_keeps (maskOf_all _) (Keeps.refl _))
@[simp] theorem endOp_pwr {op : Nat} {a : Ans} {s : State} {p : Cmd → Bool} : (endOp op a s p).pwr = s.pwr := endOp_frame.2 .pwr (by decide)
@[simp] theorem endOp_outs {op : Nat} {a : Ans} {s : State} {p : Cmd → Bool} : (endOp op a s p).outs = s.outs := endOp_frame.2 .outs (by decide)
@[simp] theorem endOp_modes {op : Nat} {a : Ans} {s : State} {p : Cmd → Bool} : (endOp op a s p).modes = s.modes := endOp_frame.2 .modes (by decide)
@[simp] theorem endOp_flt {op : Nat} {a : Ans} {s : State} {p : Cmd → Bool} : (endOp op a s p).flt = s.flt := endOp_frame.2 .flt (by decide)
@[simp] theorem endOp_cad {op : Nat} {a : Ans} {s : State} {p : Cmd → Bool} : (endOp op a s p).cad = s.cad := endOp_frame.2 .cad (by decide)
@[simp] theorem endOp_fe {op : Nat} {a : Ans} {s : State} {p : Cmd → Bool} : (endOp op a s p).fe = s.fe := endOp_frame.2 .fe (by decide)
@[simp] theorem endOp_cal {op : Nat} {a : Ans} {s : State} {p : Cmd → Bool} : (endOp op a s p).cal = s.cal := endOp_frame.2 .cal (by decide)
@[simp] theorem endOp_air {op : Nat} {a : Ans} {s : State} {p : Cmd → Bool} : (endOp op a s p).air = s.air := endOp_frame.2 .air (by decide)
@[simp] theorem endOp_nb {op : Nat} {a : Ans} {s : State} {p : Cmd → Bool} : (endOp op a s p).nb = s.nb := endOp_frame.2 .nb (by decide)
@[simp] theorem endOp_mlad {op : Nat} {a : Ans} {s : State} {p : Cmd → Bool} : (endOp op a s p).mlad = s.mlad := endOp_frame.2 .mlad (by decide)
@[simp] theorem endOp_cls {op : Nat} {a : Ans} {s : State} {p : Cmd → Bool} : (endOp op a s p).cls = s.cls := endOp_frame.2 .cls (by decide)
@[simp] theorem endOp_fwd {op : Nat} {a : Ans} {s : State} {p : Cmd → Bool} : (endOp op a s p).fwd = s.fwd := endOp_frame.2 .fwd (by decide)
@[simp] theorem endOp_tm {op : Nat} {a : Ans} {s : State} {p : Cmd → Bool} : (endOp op a s p).tm = s.tm := endOp_frame.2 .tm (by decide)
@[simp] theorem endOp_cipher {op : Nat} {a : Ans} {s : State} {p : Cmd → Bool} : (endOp op a s p).cipher = s.cipher := endOp_frame.2 .cipher (by decide)
@[simp] theorem endOp_col {op : Nat} {a : Ans} {s : State} {p : Cmd → Bool} : (endOp op a s p).col = s.col := endOp_frame.2 .col (by decide)
@[simp] theorem endOp_dram {op : Nat} {a : Ans} {s : State} {p : Cmd → Bool} : (endOp op a s p).dram = s.dram := endOp_frame.2 .dram (by decide)
@[simp] theorem endOp_drawn {op : Nat} {a : Ans} {s : State} {p : Cmd → Bool} : (endOp op a s p).drawn = s.drawn := endOp_frame.2 .drawn (by decide)
@[simp] theorem endOp_pending {op : Nat} {a : Ans} {s : State} {p : Cmd → Bool} : (endOp op a s p).pending = s.pending := endOp_frame.1

theorem refuseWrite_frame {mb : Nat} {path : Path} {words : Nat} {s : State} : Framed [.mbx, .flt] s (refuseWrite mb path words s) :=
  frame_of_keeps (refuseWrite_keeps (maskOf_all _) (Keeps.refl _))

theorem charge_frame {c d : Nat} {s : State} : Framed [.nb] s (charge c d s) :=
  frame_of_keeps (charge_keeps (maskOf_all _) (Keeps.refl _))

theorem dutyLimit_frame {c : Nat} {s : State} : Framed [.boot, .host, .evt, .clk, .nb, .out] s (dutyLimit c s) :=
  frame_of_keeps (dutyLimit_keeps (maskOf_all _) (Keeps.refl _))

theorem expireSleep_frame {b0 b1 : Nat} {s : State} : Framed [.boot, .host, .evt, .cad, .clk, .air, .tm, .out] s (expireSleep b0 b1 s) :=
  frame_of_keeps (expireSleep_keeps (maskOf_all _) (Keeps.refl _))

theorem loadCounter_frame {s : State} : Framed [.cad, .clk] s (loadCounter s) :=
  frame_of_keeps (loadCounter_keeps (maskOf_all _) (Keeps.refl _))

theorem leaveVigil_frame {s : State} : Framed [.boot, .host, .evt, .modes, .cad, .clk, .air, .nb, .mlad, .tm, .out] s (leaveVigil s) :=
  frame_of_keeps (leaveVigil_keeps (maskOf_all _) (Keeps.refl _))
@[simp] theorem leaveVigil_pwr {s : State} : (leaveVigil s).pwr = s.pwr := leaveVigil_frame.2 .pwr (by decide)
@[simp] theorem leaveVigil_outs {s : State} : (leaveVigil s).outs = s.outs := leaveVigil_frame.2 .outs (by decide)
@[simp] theorem leaveVigil_mbx {s : State} : (leaveVigil s).mbx = s.mbx := leaveVigil_frame.2 .mbx (by decide)
@[simp] theorem leaveVigil_flt {s : State} : (leaveVigil s).flt = s.flt := leaveVigil_frame.2 .flt (by decide)
@[simp] theorem leaveVigil_fe {s : State} : (leaveVigil s).fe = s.fe := leaveVigil_frame.2 .fe (by decide)
@[simp] theorem leaveVigil_cal {s : State} : (leaveVigil s).cal = s.cal := leaveVigil_frame.2 .cal (by decide)
@[simp] theorem leaveVigil_cls {s : State} : (leaveVigil s).cls = s.cls := leaveVigil_frame.2 .cls (by decide)
@[simp] theorem leaveVigil_fwd {s : State} : (leaveVigil s).fwd = s.fwd := leaveVigil_frame.2 .fwd (by decide)
@[simp] theorem leaveVigil_cipher {s : State} : (leaveVigil s).cipher = s.cipher := leaveVigil_frame.2 .cipher (by decide)
@[simp] theorem leaveVigil_col {s : State} : (leaveVigil s).col = s.col := leaveVigil_frame.2 .col (by decide)
@[simp] theorem leaveVigil_dram {s : State} : (leaveVigil s).dram = s.dram := leaveVigil_frame.2 .dram (by decide)
@[simp] theorem leaveVigil_ring {s : State} : (leaveVigil s).ring = s.ring := leaveVigil_frame.2 .ring (by decide)
@[simp] theorem leaveVigil_drawn {s : State} : (leaveVigil s).drawn = s.drawn := leaveVigil_frame.2 .drawn (by decide)
@[simp] theorem leaveVigil_pending {s : State} : (leaveVigil s).pending = s.pending := leaveVigil_frame.1

theorem refreshOuts_frame {s : State} : Framed [.outs] s (refreshOuts s) :=
  frame_of_keeps (refreshOuts_keeps (maskOf_all _) (Keeps.refl _))
@[simp] theorem refreshOuts_pwr {s : State} : (refreshOuts s).pwr = s.pwr := refreshOuts_frame.2 .pwr (by decide)
@[simp] theorem refreshOuts_boot {s : State} : (refreshOuts s).boot = s.boot := refreshOuts_frame.2 .boot (by decide)
@[simp] theorem refreshOuts_mbx {s : State} : (refreshOuts s).mbx = s.mbx := refreshOuts_frame.2 .mbx (by decide)
@[simp] theorem refreshOuts_host {s : State} : (refreshOuts s).host = s.host := refreshOuts_frame.2 .host (by decide)
@[simp] theorem refreshOuts_evt {s : State} : (refreshOuts s).evt = s.evt := refreshOuts_frame.2 .evt (by decide)
@[simp] theorem refreshOuts_modes {s : State} : (refreshOuts s).modes = s.modes := refreshOuts_frame.2 .modes (by decide)
@[simp] theorem refreshOuts_flt {s : State} : (refreshOuts s).flt = s.flt := refreshOuts_frame.2 .flt (by decide)
@[simp] theorem refreshOuts_cad {s : State} : (refreshOuts s).cad = s.cad := refreshOuts_frame.2 .cad (by decide)
@[simp] theorem refreshOuts_clk {s : State} : (refreshOuts s).clk = s.clk := refreshOuts_frame.2 .clk (by decide)
@[simp] theorem refreshOuts_fe {s : State} : (refreshOuts s).fe = s.fe := refreshOuts_frame.2 .fe (by decide)
@[simp] theorem refreshOuts_cal {s : State} : (refreshOuts s).cal = s.cal := refreshOuts_frame.2 .cal (by decide)
@[simp] theorem refreshOuts_air {s : State} : (refreshOuts s).air = s.air := refreshOuts_frame.2 .air (by decide)
@[simp] theorem refreshOuts_nb {s : State} : (refreshOuts s).nb = s.nb := refreshOuts_frame.2 .nb (by decide)
@[simp] theorem refreshOuts_mlad {s : State} : (refreshOuts s).mlad = s.mlad := refreshOuts_frame.2 .mlad (by decide)
@[simp] theorem refreshOuts_cls {s : State} : (refreshOuts s).cls = s.cls := refreshOuts_frame.2 .cls (by decide)
@[simp] theorem refreshOuts_fwd {s : State} : (refreshOuts s).fwd = s.fwd := refreshOuts_frame.2 .fwd (by decide)
@[simp] theorem refreshOuts_tm {s : State} : (refreshOuts s).tm = s.tm := refreshOuts_frame.2 .tm (by decide)
@[simp] theorem refreshOuts_cipher {s : State} : (refreshOuts s).cipher = s.cipher := refreshOuts_frame.2 .cipher (by decide)
@[simp] theorem refreshOuts_col {s : State} : (refreshOuts s).col = s.col := refreshOuts_frame.2 .col (by decide)
@[simp] theorem refreshOuts_dram {s : State} : (refreshOuts s).dram = s.dram := refreshOuts_frame.2 .dram (by decide)
@[simp] theorem refreshOuts_ring {s : State} : (refreshOuts s).ring = s.ring := refreshOuts_frame.2 .ring (by decide)
@[simp] theorem refreshOuts_drawn {s : State} : (refreshOuts s).drawn = s.drawn := refreshOuts_frame.2 .drawn (by decide)
@[simp] theorem refreshOuts_out {s : State} : (refreshOuts s).out = s.out := refreshOuts_frame.2 .out (by decide)
@[simp] theorem refreshOuts_pending {s : State} : (refreshOuts s).pending = s.pending := refreshOuts_frame.1

theorem dropDomain_frame {d : Nat} {s : State} : Framed [.fe, .air, .col] s (dropDomain d s) :=
  frame_of_keeps (dropDomain_keeps (maskOf_all _) (Keeps.refl _))
@[simp] theorem dropDomain_pwr {d : Nat} {s : State} : (dropDomain d s).pwr = s.pwr := dropDomain_frame.2 .pwr (by decide)
@[simp] theorem dropDomain_outs {d : Nat} {s : State} : (dropDomain d s).outs = s.outs := dropDomain_frame.2 .outs (by decide)
@[simp] theorem dropDomain_boot {d : Nat} {s : State} : (dropDomain d s).boot = s.boot := dropDomain_frame.2 .boot (by decide)
@[simp] theorem dropDomain_mbx {d : Nat} {s : State} : (dropDomain d s).mbx = s.mbx := dropDomain_frame.2 .mbx (by decide)
@[simp] theorem dropDomain_host {d : Nat} {s : State} : (dropDomain d s).host = s.host := dropDomain_frame.2 .host (by decide)
@[simp] theorem dropDomain_evt {d : Nat} {s : State} : (dropDomain d s).evt = s.evt := dropDomain_frame.2 .evt (by decide)
@[simp] theorem dropDomain_modes {d : Nat} {s : State} : (dropDomain d s).modes = s.modes := dropDomain_frame.2 .modes (by decide)
@[simp] theorem dropDomain_flt {d : Nat} {s : State} : (dropDomain d s).flt = s.flt := dropDomain_frame.2 .flt (by decide)
@[simp] theorem dropDomain_cad {d : Nat} {s : State} : (dropDomain d s).cad = s.cad := dropDomain_frame.2 .cad (by decide)
@[simp] theorem dropDomain_clk {d : Nat} {s : State} : (dropDomain d s).clk = s.clk := dropDomain_frame.2 .clk (by decide)
@[simp] theorem dropDomain_cal {d : Nat} {s : State} : (dropDomain d s).cal = s.cal := dropDomain_frame.2 .cal (by decide)
@[simp] theorem dropDomain_nb {d : Nat} {s : State} : (dropDomain d s).nb = s.nb := dropDomain_frame.2 .nb (by decide)
@[simp] theorem dropDomain_mlad {d : Nat} {s : State} : (dropDomain d s).mlad = s.mlad := dropDomain_frame.2 .mlad (by decide)
@[simp] theorem dropDomain_cls {d : Nat} {s : State} : (dropDomain d s).cls = s.cls := dropDomain_frame.2 .cls (by decide)
@[simp] theorem dropDomain_fwd {d : Nat} {s : State} : (dropDomain d s).fwd = s.fwd := dropDomain_frame.2 .fwd (by decide)
@[simp] theorem dropDomain_tm {d : Nat} {s : State} : (dropDomain d s).tm = s.tm := dropDomain_frame.2 .tm (by decide)
@[simp] theorem dropDomain_cipher {d : Nat} {s : State} : (dropDomain d s).cipher = s.cipher := dropDomain_frame.2 .cipher (by decide)
@[simp] theorem dropDomain_dram {d : Nat} {s : State} : (dropDomain d s).dram = s.dram := dropDomain_frame.2 .dram (by decide)
@[simp] theorem dropDomain_ring {d : Nat} {s : State} : (dropDomain d s).ring = s.ring := dropDomain_frame.2 .ring (by decide)
@[simp] theorem dropDomain_drawn {d : Nat} {s : State} : (dropDomain d s).drawn = s.drawn := dropDomain_frame.2 .drawn (by decide)
@[simp] theorem dropDomain_out {d : Nat} {s : State} : (dropDomain d s).out = s.out := dropDomain_frame.2 .out (by decide)
@[simp] theorem dropDomain_pending {d : Nat} {s : State} : (dropDomain d s).pending = s.pending := dropDomain_frame.1

theorem enterMode_frame {mode cause us : Nat} {s : State} (h : mode ≤ 7) : Framed [.outs, .boot, .host, .evt, .modes, .clk, .fe, .air, .col, .ring, .out] s (enterMode mode cause us s) :=
  frame_of_keeps (enterMode_keeps (maskOf_all _) (Keeps.refl _) (fun _ => h))

theorem startGasp_frame {code : Nat} {s : State} : Framed [.boot, .flt] s (startGasp code s) :=
  frame_of_keeps (startGasp_keeps (maskOf_all _) (Keeps.refl _))
@[simp] theorem startGasp_pwr {code : Nat} {s : State} : (startGasp code s).pwr = s.pwr := startGasp_frame.2 .pwr (by decide)
@[simp] theorem startGasp_outs {code : Nat} {s : State} : (startGasp code s).outs = s.outs := startGasp_frame.2 .outs (by decide)
@[simp] theorem startGasp_mbx {code : Nat} {s : State} : (startGasp code s).mbx = s.mbx := startGasp_frame.2 .mbx (by decide)
@[simp] theorem startGasp_host {code : Nat} {s : State} : (startGasp code s).host = s.host := startGasp_frame.2 .host (by decide)
@[simp] theorem startGasp_evt {code : Nat} {s : State} : (startGasp code s).evt = s.evt := startGasp_frame.2 .evt (by decide)
@[simp] theorem startGasp_modes {code : Nat} {s : State} : (startGasp code s).modes = s.modes := startGasp_frame.2 .modes (by decide)
@[simp] theorem startGasp_cad {code : Nat} {s : State} : (startGasp code s).cad = s.cad := startGasp_frame.2 .cad (by decide)
@[simp] theorem startGasp_clk {code : Nat} {s : State} : (startGasp code s).clk = s.clk := startGasp_frame.2 .clk (by decide)
@[simp] theorem startGasp_fe {code : Nat} {s : State} : (startGasp code s).fe = s.fe := startGasp_frame.2 .fe (by decide)
@[simp] theorem startGasp_cal {code : Nat} {s : State} : (startGasp code s).cal = s.cal := startGasp_frame.2 .cal (by decide)
@[simp] theorem startGasp_air {code : Nat} {s : State} : (startGasp code s).air = s.air := startGasp_frame.2 .air (by decide)
@[simp] theorem startGasp_nb {code : Nat} {s : State} : (startGasp code s).nb = s.nb := startGasp_frame.2 .nb (by decide)
@[simp] theorem startGasp_mlad {code : Nat} {s : State} : (startGasp code s).mlad = s.mlad := startGasp_frame.2 .mlad (by decide)
@[simp] theorem startGasp_cls {code : Nat} {s : State} : (startGasp code s).cls = s.cls := startGasp_frame.2 .cls (by decide)
@[simp] theorem startGasp_fwd {code : Nat} {s : State} : (startGasp code s).fwd = s.fwd := startGasp_frame.2 .fwd (by decide)
@[simp] theorem startGasp_tm {code : Nat} {s : State} : (startGasp code s).tm = s.tm := startGasp_frame.2 .tm (by decide)
@[simp] theorem startGasp_cipher {code : Nat} {s : State} : (startGasp code s).cipher = s.cipher := startGasp_frame.2 .cipher (by decide)
@[simp] theorem startGasp_col {code : Nat} {s : State} : (startGasp code s).col = s.col := startGasp_frame.2 .col (by decide)
@[simp] theorem startGasp_dram {code : Nat} {s : State} : (startGasp code s).dram = s.dram := startGasp_frame.2 .dram (by decide)
@[simp] theorem startGasp_ring {code : Nat} {s : State} : (startGasp code s).ring = s.ring := startGasp_frame.2 .ring (by decide)
@[simp] theorem startGasp_drawn {code : Nat} {s : State} : (startGasp code s).drawn = s.drawn := startGasp_frame.2 .drawn (by decide)
@[simp] theorem startGasp_out {code : Nat} {s : State} : (startGasp code s).out = s.out := startGasp_frame.2 .out (by decide)
@[simp] theorem startGasp_pending {code : Nat} {s : State} : (startGasp code s).pending = s.pending := startGasp_frame.1

theorem endGasp_frame {s : State} : Framed [.boot, .flt] s (endGasp s) :=
  frame_of_keeps (endGasp_keeps (maskOf_all _) (Keeps.refl _))

theorem addCause_frame {code : Nat} {s : State} : Framed [.flt] s (addCause code s) :=
  frame_of_keeps (addCause_keeps (maskOf_all _) (Keeps.refl _))
@[simp] theorem addCause_pwr {code : Nat} {s : State} : (addCause code s).pwr = s.pwr := addCause_frame.2 .pwr (by decide)
@[simp] theorem addCause_outs {code : Nat} {s : State} : (addCause code s).outs = s.outs := addCause_frame.2 .outs (by decide)
@[simp] theorem addCause_boot {code : Nat} {s : State} : (addCause code s).boot = s.boot := addCause_frame.2 .boot (by decide)
@[simp] theorem addCause_mbx {code : Nat} {s : State} : (addCause code s).mbx = s.mbx := addCause_frame.2 .mbx (by decide)
@[simp] theorem addCause_host {code : Nat} {s : State} : (addCause code s).host = s.host := addCause_frame.2 .host (by decide)
@[simp] theorem addCause_evt {code : Nat} {s : State} : (addCause code s).evt = s.evt := addCause_frame.2 .evt (by decide)
@[simp] theorem addCause_modes {code : Nat} {s : State} : (addCause code s).modes = s.modes := addCause_frame.2 .modes (by decide)
@[simp] theorem addCause_cad {code : Nat} {s : State} : (addCause code s).cad = s.cad := addCause_frame.2 .cad (by decide)
@[simp] theorem addCause_clk {code : Nat} {s : State} : (addCause code s).clk = s.clk := addCause_frame.2 .clk (by decide)
@[simp] theorem addCause_fe {code : Nat} {s : State} : (addCause code s).fe = s.fe := addCause_frame.2 .fe (by decide)
@[simp] theorem addCause_cal {code : Nat} {s : State} : (addCause code s).cal = s.cal := addCause_frame.2 .cal (by decide)
@[simp] theorem addCause_air {code : Nat} {s : State} : (addCause code s).air = s.air := addCause_frame.2 .air (by decide)
@[simp] theorem addCause_nb {code : Nat} {s : State} : (addCause code s).nb = s.nb := addCause_frame.2 .nb (by decide)
@[simp] theorem addCause_mlad {code : Nat} {s : State} : (addCause code s).mlad = s.mlad := addCause_frame.2 .mlad (by decide)
@[simp] theorem addCause_cls {code : Nat} {s : State} : (addCause code s).cls = s.cls := addCause_frame.2 .cls (by decide)
@[simp] theorem addCause_fwd {code : Nat} {s : State} : (addCause code s).fwd = s.fwd := addCause_frame.2 .fwd (by decide)
@[simp] theorem addCause_tm {code : Nat} {s : State} : (addCause code s).tm = s.tm := addCause_frame.2 .tm (by decide)
@[simp] theorem addCause_cipher {code : Nat} {s : State} : (addCause code s).cipher = s.cipher := addCause_frame.2 .cipher (by decide)
@[simp] theorem addCause_col {code : Nat} {s : State} : (addCause code s).col = s.col := addCause_frame.2 .col (by decide)
@[simp] theorem addCause_dram {code : Nat} {s : State} : (addCause code s).dram = s.dram := addCause_frame.2 .dram (by decide)
@[simp] theorem addCause_ring {code : Nat} {s : State} : (addCause code s).ring = s.ring := addCause_frame.2 .ring (by decide)
@[simp] theorem addCause_drawn {code : Nat} {s : State} : (addCause code s).drawn = s.drawn := addCause_frame.2 .drawn (by decide)
@[simp] theorem addCause_out {code : Nat} {s : State} : (addCause code s).out = s.out := addCause_frame.2 .out (by decide)
@[simp] theorem addCause_pending {code : Nat} {s : State} : (addCause code s).pending = s.pending := addCause_frame.1

theorem raiseSafe_frame {code : Nat} {later : Bool} {s : State} : Framed [.boot, .host, .evt, .clk, .out] s (raiseSafe code later s) :=
  frame_of_keeps (raiseSafe_keeps (maskOf_all _) (Keeps.refl _))
@[simp] theorem raiseSafe_pwr {code : Nat} {later : Bool} {s : State} : (raiseSafe code later s).pwr = s.pwr := raiseSafe_frame.2 .pwr (by decide)
@[simp] theorem raiseSafe_outs {code : Nat} {later : Bool} {s : State} : (raiseSafe code later s).outs = s.outs := raiseSafe_frame.2 .outs (by decide)
@[simp] theorem raiseSafe_mbx {code : Nat} {later : Bool} {s : State} : (raiseSafe code later s).mbx = s.mbx := raiseSafe_frame.2 .mbx (by decide)
@[simp] theorem raiseSafe_modes {code : Nat} {later : Bool} {s : State} : (raiseSafe code later s).modes = s.modes := raiseSafe_frame.2 .modes (by decide)
@[simp] theorem raiseSafe_flt {code : Nat} {later : Bool} {s : State} : (raiseSafe code later s).flt = s.flt := raiseSafe_frame.2 .flt (by decide)
@[simp] theorem raiseSafe_cad {code : Nat} {later : Bool} {s : State} : (raiseSafe code later s).cad = s.cad := raiseSafe_frame.2 .cad (by decide)
@[simp] theorem raiseSafe_fe {code : Nat} {later : Bool} {s : State} : (raiseSafe code later s).fe = s.fe := raiseSafe_frame.2 .fe (by decide)
@[simp] theorem raiseSafe_cal {code : Nat} {later : Bool} {s : State} : (raiseSafe code later s).cal = s.cal := raiseSafe_frame.2 .cal (by decide)
@[simp] theorem raiseSafe_air {code : Nat} {later : Bool} {s : State} : (raiseSafe code later s).air = s.air := raiseSafe_frame.2 .air (by decide)
@[simp] theorem raiseSafe_nb {code : Nat} {later : Bool} {s : State} : (raiseSafe code later s).nb = s.nb := raiseSafe_frame.2 .nb (by decide)
@[simp] theorem raiseSafe_mlad {code : Nat} {later : Bool} {s : State} : (raiseSafe code later s).mlad = s.mlad := raiseSafe_frame.2 .mlad (by decide)
@[simp] theorem raiseSafe_cls {code : Nat} {later : Bool} {s : State} : (raiseSafe code later s).cls = s.cls := raiseSafe_frame.2 .cls (by decide)
@[simp] theorem raiseSafe_fwd {code : Nat} {later : Bool} {s : State} : (raiseSafe code later s).fwd = s.fwd := raiseSafe_frame.2 .fwd (by decide)
@[simp] theorem raiseSafe_tm {code : Nat} {later : Bool} {s : State} : (raiseSafe code later s).tm = s.tm := raiseSafe_frame.2 .tm (by decide)
@[simp] theorem raiseSafe_cipher {code : Nat} {later : Bool} {s : State} : (raiseSafe code later s).cipher = s.cipher := raiseSafe_frame.2 .cipher (by decide)
@[simp] theorem raiseSafe_col {code : Nat} {later : Bool} {s : State} : (raiseSafe code later s).col = s.col := raiseSafe_frame.2 .col (by decide)
@[simp] theorem raiseSafe_dram {code : Nat} {later : Bool} {s : State} : (raiseSafe code later s).dram = s.dram := raiseSafe_frame.2 .dram (by decide)
@[simp] theorem raiseSafe_ring {code : Nat} {later : Bool} {s : State} : (raiseSafe code later s).ring = s.ring := raiseSafe_frame.2 .ring (by decide)
@[simp] theorem raiseSafe_drawn {code : Nat} {later : Bool} {s : State} : (raiseSafe code later s).drawn = s.drawn := raiseSafe_frame.2 .drawn (by decide)
@[simp] theorem raiseSafe_pending {code : Nat} {later : Bool} {s : State} : (raiseSafe code later s).pending = s.pending := raiseSafe_frame.1

theorem beginOutage_frame {s : State} : Framed [.flt] s (beginOutage s) :=
  frame_of_keeps (beginOutage_keeps (maskOf_all _) (Keeps.refl _))
@[simp] theorem beginOutage_pwr {s : State} : (beginOutage s).pwr = s.pwr := beginOutage_frame.2 .pwr (by decide)
@[simp] theorem beginOutage_outs {s : State} : (beginOutage s).outs = s.outs := beginOutage_frame.2 .outs (by decide)
@[simp] theorem beginOutage_boot {s : State} : (beginOutage s).boot = s.boot := beginOutage_frame.2 .boot (by decide)
@[simp] theorem beginOutage_mbx {s : State} : (beginOutage s).mbx = s.mbx := beginOutage_frame.2 .mbx (by decide)
@[simp] theorem beginOutage_host {s : State} : (beginOutage s).host = s.host := beginOutage_frame.2 .host (by decide)
@[simp] theorem beginOutage_evt {s : State} : (beginOutage s).evt = s.evt := beginOutage_frame.2 .evt (by decide)
@[simp] theorem beginOutage_modes {s : State} : (beginOutage s).modes = s.modes := beginOutage_frame.2 .modes (by decide)
@[simp] theorem beginOutage_cad {s : State} : (beginOutage s).cad = s.cad := beginOutage_frame.2 .cad (by decide)
@[simp] theorem beginOutage_clk {s : State} : (beginOutage s).clk = s.clk := beginOutage_frame.2 .clk (by decide)
@[simp] theorem beginOutage_fe {s : State} : (beginOutage s).fe = s.fe := beginOutage_frame.2 .fe (by decide)
@[simp] theorem beginOutage_cal {s : State} : (beginOutage s).cal = s.cal := beginOutage_frame.2 .cal (by decide)
@[simp] theorem beginOutage_air {s : State} : (beginOutage s).air = s.air := beginOutage_frame.2 .air (by decide)
@[simp] theorem beginOutage_nb {s : State} : (beginOutage s).nb = s.nb := beginOutage_frame.2 .nb (by decide)
@[simp] theorem beginOutage_mlad {s : State} : (beginOutage s).mlad = s.mlad := beginOutage_frame.2 .mlad (by decide)
@[simp] theorem beginOutage_cls {s : State} : (beginOutage s).cls = s.cls := beginOutage_frame.2 .cls (by decide)
@[simp] theorem beginOutage_fwd {s : State} : (beginOutage s).fwd = s.fwd := beginOutage_frame.2 .fwd (by decide)
@[simp] theorem beginOutage_tm {s : State} : (beginOutage s).tm = s.tm := beginOutage_frame.2 .tm (by decide)
@[simp] theorem beginOutage_cipher {s : State} : (beginOutage s).cipher = s.cipher := beginOutage_frame.2 .cipher (by decide)
@[simp] theorem beginOutage_col {s : State} : (beginOutage s).col = s.col := beginOutage_frame.2 .col (by decide)
@[simp] theorem beginOutage_dram {s : State} : (beginOutage s).dram = s.dram := beginOutage_frame.2 .dram (by decide)
@[simp] theorem beginOutage_ring {s : State} : (beginOutage s).ring = s.ring := beginOutage_frame.2 .ring (by decide)
@[simp] theorem beginOutage_drawn {s : State} : (beginOutage s).drawn = s.drawn := beginOutage_frame.2 .drawn (by decide)
@[simp] theorem beginOutage_out {s : State} : (beginOutage s).out = s.out := beginOutage_frame.2 .out (by decide)
@[simp] theorem beginOutage_pending {s : State} : (beginOutage s).pending = s.pending := beginOutage_frame.1

theorem chargeHalted_frame {s : State} : Framed [.nb] s (chargeHalted s) :=
  frame_of_keeps (chargeHalted_keeps (maskOf_all _) (Keeps.refl _))

theorem haltRadios_frame {s : State} : Framed [.fe, .cal, .air, .nb] s (haltRadios s) :=
  frame_of_keeps (haltRadios_keeps (maskOf_all _) (Keeps.refl _))
@[simp] theorem haltRadios_pwr {s : State} : (haltRadios s).pwr = s.pwr := haltRadios_frame.2 .pwr (by decide)
@[simp] theorem haltRadios_outs {s : State} : (haltRadios s).outs = s.outs := haltRadios_frame.2 .outs (by decide)
@[simp] theorem haltRadios_boot {s : State} : (haltRadios s).boot = s.boot := haltRadios_frame.2 .boot (by decide)
@[simp] theorem haltRadios_mbx {s : State} : (haltRadios s).mbx = s.mbx := haltRadios_frame.2 .mbx (by decide)
@[simp] theorem haltRadios_host {s : State} : (haltRadios s).host = s.host := haltRadios_frame.2 .host (by decide)
@[simp] theorem haltRadios_evt {s : State} : (haltRadios s).evt = s.evt := haltRadios_frame.2 .evt (by decide)
@[simp] theorem haltRadios_modes {s : State} : (haltRadios s).modes = s.modes := haltRadios_frame.2 .modes (by decide)
@[simp] theorem haltRadios_flt {s : State} : (haltRadios s).flt = s.flt := haltRadios_frame.2 .flt (by decide)
@[simp] theorem haltRadios_cad {s : State} : (haltRadios s).cad = s.cad := haltRadios_frame.2 .cad (by decide)
@[simp] theorem haltRadios_clk {s : State} : (haltRadios s).clk = s.clk := haltRadios_frame.2 .clk (by decide)
@[simp] theorem haltRadios_mlad {s : State} : (haltRadios s).mlad = s.mlad := haltRadios_frame.2 .mlad (by decide)
@[simp] theorem haltRadios_cls {s : State} : (haltRadios s).cls = s.cls := haltRadios_frame.2 .cls (by decide)
@[simp] theorem haltRadios_fwd {s : State} : (haltRadios s).fwd = s.fwd := haltRadios_frame.2 .fwd (by decide)
@[simp] theorem haltRadios_tm {s : State} : (haltRadios s).tm = s.tm := haltRadios_frame.2 .tm (by decide)
@[simp] theorem haltRadios_cipher {s : State} : (haltRadios s).cipher = s.cipher := haltRadios_frame.2 .cipher (by decide)
@[simp] theorem haltRadios_col {s : State} : (haltRadios s).col = s.col := haltRadios_frame.2 .col (by decide)
@[simp] theorem haltRadios_dram {s : State} : (haltRadios s).dram = s.dram := haltRadios_frame.2 .dram (by decide)
@[simp] theorem haltRadios_ring {s : State} : (haltRadios s).ring = s.ring := haltRadios_frame.2 .ring (by decide)
@[simp] theorem haltRadios_drawn {s : State} : (haltRadios s).drawn = s.drawn := haltRadios_frame.2 .drawn (by decide)
@[simp] theorem haltRadios_out {s : State} : (haltRadios s).out = s.out := haltRadios_frame.2 .out (by decide)
@[simp] theorem haltRadios_pending {s : State} : (haltRadios s).pending = s.pending := haltRadios_frame.1

theorem releaseSwitches_frame {s : State} : Framed [.tm, .ring] s (releaseSwitches s) :=
  frame_of_keeps (releaseSwitches_keeps (maskOf_all _) (Keeps.refl _))
@[simp] theorem releaseSwitches_pwr {s : State} : (releaseSwitches s).pwr = s.pwr := releaseSwitches_frame.2 .pwr (by decide)
@[simp] theorem releaseSwitches_outs {s : State} : (releaseSwitches s).outs = s.outs := releaseSwitches_frame.2 .outs (by decide)
@[simp] theorem releaseSwitches_boot {s : State} : (releaseSwitches s).boot = s.boot := releaseSwitches_frame.2 .boot (by decide)
@[simp] theorem releaseSwitches_mbx {s : State} : (releaseSwitches s).mbx = s.mbx := releaseSwitches_frame.2 .mbx (by decide)
@[simp] theorem releaseSwitches_host {s : State} : (releaseSwitches s).host = s.host := releaseSwitches_frame.2 .host (by decide)
@[simp] theorem releaseSwitches_evt {s : State} : (releaseSwitches s).evt = s.evt := releaseSwitches_frame.2 .evt (by decide)
@[simp] theorem releaseSwitches_modes {s : State} : (releaseSwitches s).modes = s.modes := releaseSwitches_frame.2 .modes (by decide)
@[simp] theorem releaseSwitches_flt {s : State} : (releaseSwitches s).flt = s.flt := releaseSwitches_frame.2 .flt (by decide)
@[simp] theorem releaseSwitches_cad {s : State} : (releaseSwitches s).cad = s.cad := releaseSwitches_frame.2 .cad (by decide)
@[simp] theorem releaseSwitches_clk {s : State} : (releaseSwitches s).clk = s.clk := releaseSwitches_frame.2 .clk (by decide)
@[simp] theorem releaseSwitches_fe {s : State} : (releaseSwitches s).fe = s.fe := releaseSwitches_frame.2 .fe (by decide)
@[simp] theorem releaseSwitches_cal {s : State} : (releaseSwitches s).cal = s.cal := releaseSwitches_frame.2 .cal (by decide)
@[simp] theorem releaseSwitches_air {s : State} : (releaseSwitches s).air = s.air := releaseSwitches_frame.2 .air (by decide)
@[simp] theorem releaseSwitches_nb {s : State} : (releaseSwitches s).nb = s.nb := releaseSwitches_frame.2 .nb (by decide)
@[simp] theorem releaseSwitches_mlad {s : State} : (releaseSwitches s).mlad = s.mlad := releaseSwitches_frame.2 .mlad (by decide)
@[simp] theorem releaseSwitches_cls {s : State} : (releaseSwitches s).cls = s.cls := releaseSwitches_frame.2 .cls (by decide)
@[simp] theorem releaseSwitches_fwd {s : State} : (releaseSwitches s).fwd = s.fwd := releaseSwitches_frame.2 .fwd (by decide)
@[simp] theorem releaseSwitches_cipher {s : State} : (releaseSwitches s).cipher = s.cipher := releaseSwitches_frame.2 .cipher (by decide)
@[simp] theorem releaseSwitches_col {s : State} : (releaseSwitches s).col = s.col := releaseSwitches_frame.2 .col (by decide)
@[simp] theorem releaseSwitches_dram {s : State} : (releaseSwitches s).dram = s.dram := releaseSwitches_frame.2 .dram (by decide)
@[simp] theorem releaseSwitches_drawn {s : State} : (releaseSwitches s).drawn = s.drawn := releaseSwitches_frame.2 .drawn (by decide)
@[simp] theorem releaseSwitches_out {s : State} : (releaseSwitches s).out = s.out := releaseSwitches_frame.2 .out (by decide)
@[simp] theorem releaseSwitches_pending {s : State} : (releaseSwitches s).pending = s.pending := releaseSwitches_frame.1

theorem endAllLongs_frame {keep : Cmd → Bool} {s : State} : Framed [.boot, .mbx, .modes] s (endAllLongs keep s) :=
  frame_of_keeps (endAllLongs_keeps (maskOf_all _) (Keeps.refl _))
@[simp] theorem endAllLongs_pwr {keep : Cmd → Bool} {s : State} : (endAllLongs keep s).pwr = s.pwr := endAllLongs_frame.2 .pwr (by decide)
@[simp] theorem endAllLongs_outs {keep : Cmd → Bool} {s : State} : (endAllLongs keep s).outs = s.outs := endAllLongs_frame.2 .outs (by decide)
@[simp] theorem endAllLongs_host {keep : Cmd → Bool} {s : State} : (endAllLongs keep s).host = s.host := endAllLongs_frame.2 .host (by decide)
@[simp] theorem endAllLongs_evt {keep : Cmd → Bool} {s : State} : (endAllLongs keep s).evt = s.evt := endAllLongs_frame.2 .evt (by decide)
@[simp] theorem endAllLongs_flt {keep : Cmd → Bool} {s : State} : (endAllLongs keep s).flt = s.flt := endAllLongs_frame.2 .flt (by decide)
@[simp] theorem endAllLongs_cad {keep : Cmd → Bool} {s : State} : (endAllLongs keep s).cad = s.cad := endAllLongs_frame.2 .cad (by decide)
@[simp] theorem endAllLongs_clk {keep : Cmd → Bool} {s : State} : (endAllLongs keep s).clk = s.clk := endAllLongs_frame.2 .clk (by decide)
@[simp] theorem endAllLongs_fe {keep : Cmd → Bool} {s : State} : (endAllLongs keep s).fe = s.fe := endAllLongs_frame.2 .fe (by decide)
@[simp] theorem endAllLongs_cal {keep : Cmd → Bool} {s : State} : (endAllLongs keep s).cal = s.cal := endAllLongs_frame.2 .cal (by decide)
@[simp] theorem endAllLongs_air {keep : Cmd → Bool} {s : State} : (endAllLongs keep s).air = s.air := endAllLongs_frame.2 .air (by decide)
@[simp] theorem endAllLongs_nb {keep : Cmd → Bool} {s : State} : (endAllLongs keep s).nb = s.nb := endAllLongs_frame.2 .nb (by decide)
@[simp] theorem endAllLongs_mlad {keep : Cmd → Bool} {s : State} : (endAllLongs keep s).mlad = s.mlad := endAllLongs_frame.2 .mlad (by decide)
@[simp] theorem endAllLongs_cls {keep : Cmd → Bool} {s : State} : (endAllLongs keep s).cls = s.cls := endAllLongs_frame.2 .cls (by decide)
@[simp] theorem endAllLongs_fwd {keep : Cmd → Bool} {s : State} : (endAllLongs keep s).fwd = s.fwd := endAllLongs_frame.2 .fwd (by decide)
@[simp] theorem endAllLongs_tm {keep : Cmd → Bool} {s : State} : (endAllLongs keep s).tm = s.tm := endAllLongs_frame.2 .tm (by decide)
@[simp] theorem endAllLongs_cipher {keep : Cmd → Bool} {s : State} : (endAllLongs keep s).cipher = s.cipher := endAllLongs_frame.2 .cipher (by decide)
@[simp] theorem endAllLongs_col {keep : Cmd → Bool} {s : State} : (endAllLongs keep s).col = s.col := endAllLongs_frame.2 .col (by decide)
@[simp] theorem endAllLongs_dram {keep : Cmd → Bool} {s : State} : (endAllLongs keep s).dram = s.dram := endAllLongs_frame.2 .dram (by decide)
@[simp] theorem endAllLongs_ring {keep : Cmd → Bool} {s : State} : (endAllLongs keep s).ring = s.ring := endAllLongs_frame.2 .ring (by decide)
@[simp] theorem endAllLongs_drawn {keep : Cmd → Bool} {s : State} : (endAllLongs keep s).drawn = s.drawn := endAllLongs_frame.2 .drawn (by decide)
@[simp] theorem endAllLongs_out {keep : Cmd → Bool} {s : State} : (endAllLongs keep s).out = s.out := endAllLongs_frame.2 .out (by decide)
@[simp] theorem endAllLongs_pending {keep : Cmd → Bool} {s : State} : (endAllLongs keep s).pending = s.pending := endAllLongs_frame.1

theorem enterSafe_frame {code : Nat} {detail : List Byte} {s : State} {keep : Cmd → Bool} : Framed [.outs, .boot, .mbx, .host, .evt, .modes, .flt, .cad, .clk, .fe, .cal, .air, .nb, .mlad, .tm, .col, .dram, .ring, .out] s (enterSafe code detail s keep) :=
  frame_of_keeps (enterSafe_keeps (maskOf_all _) (Keeps.refl _))

theorem restart_frame {s : State} : Framed [.pwr, .outs, .boot, .mbx, .host, .evt, .modes, .flt, .cad, .clk, .fe, .cal, .air, .nb, .mlad, .cls, .fwd, .tm, .cipher, .col, .dram, .ring] s (restart s) :=
  frame_of_keeps (restart_keeps (maskOf_all _) (Keeps.refl _))

theorem onX_frame {i : Nat} {f : Xcvr → Xcvr} {s : State} : Framed [.nb] s (onX i f s) :=
  frame_of_keeps (onX_keeps (maskOf_all _) (Keeps.refl _))

theorem countX_frame {i c : Nat} {s : State} {k : Nat} : Framed [.nb] s (countX i c s k) :=
  frame_of_keeps (countX_keeps (maskOf_all _) (Keeps.refl _))

theorem collisions_frame {s : State} : Framed [.nb] s (collisions s) :=
  frame_of_keeps (collisions_keeps (maskOf_all _) (Keeps.refl _))

theorem retuneX_frame {i ch : Nat} {s : State} : Framed [.nb] s (retuneX i ch s) :=
  frame_of_keeps (retuneX_keeps (maskOf_all _) (Keeps.refl _))

theorem nbMoves_frame {s : State} : Framed [.nb] s (nbMoves s) :=
  frame_of_keeps (nbMoves_keeps (maskOf_all _) (Keeps.refl _))

theorem countMlad_frame {i : Nat} {s : State} {k : Nat} : Framed [.mlad] s (countMlad i s k) :=
  frame_of_keeps (countMlad_keeps (maskOf_all _) (Keeps.refl _))

theorem onNode_frame {n : Nat} {f : Node → Node} {s : State} : Framed [.mlad] s (onNode n f s) :=
  frame_of_keeps (onNode_keeps (maskOf_all _) (Keeps.refl _))

theorem countNode_frame {n i : Nat} {s : State} : Framed [.mlad] s (countNode n i s) :=
  frame_of_keeps (countNode_keeps (maskOf_all _) (Keeps.refl _))

theorem failNb_frame {f : NbFrame} {reason attempts last : Nat} {cookie : W64} {s : State} : Framed [.boot, .host, .evt, .clk, .mlad, .out] s (failNb f reason attempts last cookie s) :=
  frame_of_keeps (failNb_keeps (maskOf_all _) (Keeps.refl _))

theorem dropHeld_frame {f : HeldFrame} {reason : Nat} {s : State} : Framed [.boot, .host, .evt, .clk, .mlad, .out] s (dropHeld f reason s) :=
  frame_of_keeps (dropHeld_keeps (maskOf_all _) (Keeps.refl _))

theorem trimHeld_frame {s : State} : Framed [.boot, .host, .evt, .clk, .mlad, .out] s (trimHeld s) :=
  frame_of_keeps (trimHeld_keeps (maskOf_all _) (Keeps.refl _))

theorem autoStopped_frame {reason agent refusal dom : Nat} {s : State} : Framed [.boot, .host, .evt, .clk, .out] s (autoStopped reason agent refusal dom s) :=
  frame_of_keeps (autoStopped_keeps (maskOf_all _) (Keeps.refl _))

theorem finishTrans_frame {status agent reason dom : Nat} {s : State} : Framed [.boot, .mbx, .host, .evt, .modes, .clk, .ring, .out] s (finishTrans status agent reason dom s) :=
  frame_of_keeps (finishTrans_keeps (maskOf_all _) (Keeps.refl _))

theorem abortEntry_frame {agent reason : Nat} {s : State} : Framed [.boot, .mbx, .host, .evt, .modes, .clk, .ring, .out] s (abortEntry agent reason s) :=
  frame_of_keeps (abortEntry_keeps (maskOf_all _) (Keeps.refl _))

theorem refuseEntry_frame {a reason : Nat} {s : State} : Framed [.boot, .mbx, .host, .evt, .modes, .clk, .ring, .out] s (refuseEntry a reason s) :=
  frame_of_keeps (refuseEntry_keeps (maskOf_all _) (Keeps.refl _))

theorem startHandshake_frame {s : State} : Framed [.boot, .mbx, .host, .evt, .modes, .clk, .ring, .out] s (startHandshake s) :=
  frame_of_keeps (startHandshake_keeps (maskOf_all _) (Keeps.refl _))

theorem wakeFor_frame {mode : Nat} {s : State} : Framed [.modes] s (wakeFor mode s) :=
  frame_of_keeps (wakeFor_keeps (maskOf_all _) (Keeps.refl _))

theorem startStage_frame {s : State} : Framed [.boot, .mbx, .host, .evt, .modes, .clk, .ring, .out] s (startStage s) :=
  frame_of_keeps (startStage_keeps (maskOf_all _) (Keeps.refl _))

theorem beginTrans_frame {by_ : TransBy} {final cause : Nat} {force : Bool} {s : State} (h : final ≤ 7) : Framed [.boot, .mbx, .host, .evt, .modes, .clk, .ring, .out] s (beginTrans by_ final cause force s) :=
  frame_of_keeps (beginTrans_keeps (maskOf_all _) (Keeps.refl _) (fun _ => h))

theorem autostart_frame {s : State} : Framed [.boot, .mbx, .host, .evt, .modes, .clk, .ring, .out] s (autostart s) :=
  frame_of_keeps (autostart_keeps (maskOf_all _) (Keeps.refl _))

theorem vigilWake_frame {src obj : Nat} {s : State} : Framed [.boot, .mbx, .host, .evt, .modes, .clk, .ring, .out] s (vigilWake src obj s) :=
  frame_of_keeps (vigilWake_keeps (maskOf_all _) (Keeps.refl _))

theorem wakeSource_frame {src obj : Nat} {s : State} : Framed [.boot, .mbx, .host, .evt, .modes, .clk, .ring, .out] s (wakeSource src obj s) :=
  frame_of_keeps (wakeSource_keeps (maskOf_all _) (Keeps.refl _))

theorem captureClock_frame {s : State} : Framed [.clk] s (captureClock s) :=
  frame_of_keeps (captureClock_keeps (maskOf_all _) (Keeps.refl _))

theorem drainDrop_frame {s : State} : Framed [.air, .tm] s (drainDrop s) :=
  frame_of_keeps (drainDrop_keeps (maskOf_all _) (Keeps.refl _))

theorem selfRefresh_frame {s : State} : Framed [.dram] s (selfRefresh s) :=
  frame_of_keeps (selfRefresh_keeps (maskOf_all _) (Keeps.refl _))

theorem vigilDoms_frame {s : State} : Framed [.modes] s (vigilDoms s) :=
  frame_of_keeps (vigilDoms_keeps (maskOf_all _) (Keeps.refl _))

theorem vigilCommit_frame {s : State} : Framed [.boot, .host, .evt, .modes, .clk, .air, .nb, .mlad, .tm, .dram, .out] s (vigilCommit s) :=
  frame_of_keeps (vigilCommit_keeps (maskOf_all _) (Keeps.refl _))

theorem commitEntry_frame {s : State} : Framed [.boot, .host, .evt, .modes, .clk, .air, .nb, .mlad, .tm, .dram, .out] s (commitEntry s) :=
  frame_of_keeps (commitEntry_keeps (maskOf_all _) (Keeps.refl _))

theorem ringInsert_frame {s : State} : Framed [.outs, .ring] s (ringInsert s) :=
  frame_of_keeps (ringInsert_keeps (maskOf_all _) (Keeps.refl _))

theorem chainInsert_frame {s : State} : Framed [.outs, .tm] s (chainInsert s) :=
  frame_of_keeps (chainInsert_keeps (maskOf_all _) (Keeps.refl _))

theorem warmEntry_frame {s : State} : Framed [.outs, .tm, .ring] s (warmEntry s) :=
  frame_of_keeps (warmEntry_keeps (maskOf_all _) (Keeps.refl _))

theorem serveEntry_frame {s : State} : Framed [.flt] s (serveEntry s) :=
  frame_of_keeps (serveEntry_keeps (maskOf_all _) (Keeps.refl _))

theorem serveLeave_frame {s : State} : Framed [.flt] s (serveLeave s) :=
  frame_of_keeps (serveLeave_keeps (maskOf_all _) (Keeps.refl _))
@[simp] theorem serveLeave_pwr {s : State} : (serveLeave s).pwr = s.pwr := serveLeave_frame.2 .pwr (by decide)
@[simp] theorem serveLeave_outs {s : State} : (serveLeave s).outs = s.outs := serveLeave_frame.2 .outs (by decide)
@[simp] theorem serveLeave_boot {s : State} : (serveLeave s).boot = s.boot := serveLeave_frame.2 .boot (by decide)
@[simp] theorem serveLeave_mbx {s : State} : (serveLeave s).mbx = s.mbx := serveLeave_frame.2 .mbx (by decide)
@[simp] theorem serveLeave_host {s : State} : (serveLeave s).host = s.host := serveLeave_frame.2 .host (by decide)
@[simp] theorem serveLeave_evt {s : State} : (serveLeave s).evt = s.evt := serveLeave_frame.2 .evt (by decide)
@[simp] theorem serveLeave_modes {s : State} : (serveLeave s).modes = s.modes := serveLeave_frame.2 .modes (by decide)
@[simp] theorem serveLeave_cad {s : State} : (serveLeave s).cad = s.cad := serveLeave_frame.2 .cad (by decide)
@[simp] theorem serveLeave_clk {s : State} : (serveLeave s).clk = s.clk := serveLeave_frame.2 .clk (by decide)
@[simp] theorem serveLeave_fe {s : State} : (serveLeave s).fe = s.fe := serveLeave_frame.2 .fe (by decide)
@[simp] theorem serveLeave_cal {s : State} : (serveLeave s).cal = s.cal := serveLeave_frame.2 .cal (by decide)
@[simp] theorem serveLeave_air {s : State} : (serveLeave s).air = s.air := serveLeave_frame.2 .air (by decide)
@[simp] theorem serveLeave_nb {s : State} : (serveLeave s).nb = s.nb := serveLeave_frame.2 .nb (by decide)
@[simp] theorem serveLeave_mlad {s : State} : (serveLeave s).mlad = s.mlad := serveLeave_frame.2 .mlad (by decide)
@[simp] theorem serveLeave_cls {s : State} : (serveLeave s).cls = s.cls := serveLeave_frame.2 .cls (by decide)
@[simp] theorem serveLeave_fwd {s : State} : (serveLeave s).fwd = s.fwd := serveLeave_frame.2 .fwd (by decide)
@[simp] theorem serveLeave_tm {s : State} : (serveLeave s).tm = s.tm := serveLeave_frame.2 .tm (by decide)
@[simp] theorem serveLeave_cipher {s : State} : (serveLeave s).cipher = s.cipher := serveLeave_frame.2 .cipher (by decide)
@[simp] theorem serveLeave_col {s : State} : (serveLeave s).col = s.col := serveLeave_frame.2 .col (by decide)
@[simp] theorem serveLeave_dram {s : State} : (serveLeave s).dram = s.dram := serveLeave_frame.2 .dram (by decide)
@[simp] theorem serveLeave_ring {s : State} : (serveLeave s).ring = s.ring := serveLeave_frame.2 .ring (by decide)
@[simp] theorem serveLeave_drawn {s : State} : (serveLeave s).drawn = s.drawn := serveLeave_frame.2 .drawn (by decide)
@[simp] theorem serveLeave_out {s : State} : (serveLeave s).out = s.out := serveLeave_frame.2 .out (by decide)
@[simp] theorem serveLeave_pending {s : State} : (serveLeave s).pending = s.pending := serveLeave_frame.1

theorem stageReached_frame {calOk : Bool} {s : State} : Framed [.outs, .boot, .mbx, .host, .evt, .modes, .flt, .cad, .clk, .fe, .air, .nb, .mlad, .tm, .col, .ring, .out] s (stageReached calOk s) :=
  frame_of_keeps (stageReached_keeps (maskOf_all _) (Keeps.refl _))

end Sys2Proof.Machine
end

