-- ==== Sys2Proof/Laws/Safe.lean ====
section
/-!
SUPPORT. What the entry to a mode, the entry to SAFE, the entry to HOLD and a restart leave.
-/
namespace Sys2Proof.Machine

@[simp] theorem enterMode_mode {mode cause us : Nat} {s : State} : (enterMode mode cause us s).modes.mode = mode := by
  simp [enterMode]
theorem enterMode_outs {cause us : Nat} {s : State} : (enterMode 7 cause us s).outs = s.outs := by
  simp [enterMode, refreshOuts]
@[simp] theorem enterMode_flt {mode cause us : Nat} {s : State} (h : mode ≤ 7) : (enterMode mode cause us s).flt = s.flt :=
  (enterMode_frame h).2 .flt (by decide)
@[simp] theorem enterMode_pwr {mode cause us : Nat} {s : State} (h : mode ≤ 7) : (enterMode mode cause us s).pwr = s.pwr :=
  (enterMode_frame h).2 .pwr (by decide)

@[simp] theorem startGasp_cause {code : Nat} {s : State} : (startGasp code s).flt.cause = s.flt.cause := by
  unfold startGasp
  split
  · simp
  · rfl
  · split
    · simp
    · rfl
@[simp] theorem addCause_cause {code : Nat} {s : State} : (addCause code s).flt.cause = s.flt.cause := by
  unfold addCause
  simp only [State.onFlt_flt]
  split <;> simp [countCairn]
theorem outsSafe_congr {s t : State} (hp : t.pwr = s.pwr) (ho : t.outs = s.outs) : outsSafe t = outsSafe s := by
  simp [outsSafe, hp, ho]

/-- SAFE is entered from a mode of 2 to 6, or from a restart. -/
theorem enterSafe_facts {code : Nat} {detail : List Byte} {s : State} {keep : Cmd → Bool} (h0 : 2 ≤ s.modes.mode)
    (h7 : s.modes.mode ≠ 7 ∨ s.boot.restarting = true) :
    (enterSafe code detail s keep).modes.mode = 7 ∧ (enterSafe code detail s keep).outs = outsSafe s ∧
    (enterSafe code detail s keep).flt.cause = code ∧ (enterSafe code detail s keep).pwr = s.pwr := by
  have h1 : s.modes.mode ≠ 0 := by omega
  have h2 : s.modes.mode ≠ 1 := by omega
  have h3 : (s.modes.mode = 7 ∧ s.boot.restarting = false) = False := by
    rcases h7 with h | h <;> simp [h]
  simp only [enterSafe, h1, h2, decide_false, Bool.false_and, if_false, Bool.false_eq_true, Bool.and_eq_true, decide_eq_true_eq,
    Bool.not_eq_true', h3, enterMode_mode, enterMode_outs]
  have hp : (if s.modes.mode = 3 then leaveVigil s else s).pwr = s.pwr := by split <;> simp
  have ho : (if s.modes.mode = 3 then leaveVigil s else s).outs = s.outs := by split <;> simp
  refine ⟨trivial, ?_, by simp, by simp [hp]⟩
  simp only [State.onDram_outs, State.onBoot_outs, State.onOuts_outs, raiseSafe_outs]
  exact outsSafe_congr (by simp [hp]) (by simp [ho])

/-- A cause that arises in SAFE leaves SAFE as it is (R690). -/
theorem enterSafe_in_safe {code : Nat} {detail : List Byte} {s : State} {keep : Cmd → Bool} (h0 : s.modes.mode = 7) (h7 : s.boot.restarting = false) :
    enterSafe code detail s keep = raiseSafe code true (addCause code s) := by
  simp [enterSafe, h0, h7]

end Sys2Proof.Machine
end

