-- ==== Sys2Proof/Laws/Reads.lean ====
section
/-!
SUPPORT. What a read of a band, a PHY, a domain, a chain's calibration or a station gives after it was replaced.
-/
namespace Sys2Proof.Machine

@[simp] theorem getBand_onBand {b : Nat} {f : Band → Band} {s : State} : getBand (onBand b f s) b = f (getBand s b) := by
  unfold getBand onBand; split <;> simp [*]
@[simp] theorem getPhy_onPhy {b : Nat} {f : Phy → Phy} {s : State} : getPhy (onPhy b f s) b = f (getPhy s b) := by
  unfold getPhy onPhy; split <;> simp [*]
@[simp] theorem getAB_onAB {b : Nat} {f : AirBand → AirBand} {s : State} : getAB (onAB b f s) b = f (getAB s b) := by
  unfold getAB onAB; split <;> simp [*]
@[simp] theorem getAB_onPhy {b c : Nat} {f : Phy → Phy} {s : State} : getAB (onPhy b f s) c = getAB s c := by
  unfold getAB onPhy; split <;> split <;> simp [*]
@[simp] theorem getPhy_onAB {b c : Nat} {f : AirBand → AirBand} {s : State} : getPhy (onAB b f s) c = getPhy s c := by
  unfold getPhy onAB; split <;> split <;> simp [*]
theorem getDom_onDom {d : Nat} {f : Domain → Domain} {s : State} (h : d < s.modes.doms.length) : getDom (onDom d f s) d = f (getDom s d) := by
  simp only [getDom, onDom, State.onModes, updAt, List.getD_eq_getElem?_getD, List.getElem?_modify_eq, List.getElem?_eq_getElem h]
  rfl
@[simp] theorem getCC_onCC {i : Nat} {f : ChainCal → ChainCal} {s : State} : getCC (onCC i f s) i = f (getCC s i) := by
  simp [getCC, onCC, Tab.getD, Tab.upd, Tab.get?_set]
@[simp] theorem getGC_onGC {b g : Nat} {f : GroupCal → GroupCal} {s : State} : getGC (onGC b g f s) b g = f (getGC s b g) := by
  simp [getGC, onGC, Tab.getD, Tab.upd, Tab.get?_set]

end Sys2Proof.Machine
end

