-- ==== Sys2Proof/Laws/All.lean ====
section
/-!
SUPPORT. All that is proved of the operations, in one import.
-/
end

