-- ==== Sys2Proof/WellFormed.lean ====
section
/-!
DEFINITION. Well-formed commands: each operand within the range that the spec gives it. A command that is not well formed is
one that the block's interfaces cannot bring.
-/
namespace Sys2Proof

/-- Every operand of a command is within its range. -/
def WellFormed (i : Instr) : Bool :=
  match i with
  -- R77: a rail is 0 to 2
  | .brownout rail => rail ≤ 2
  | .undefinedOpcode _ _ p => p.length ≤ 496
  -- R108: aligned, within its BAR
  | .registerWrite bar off _ => off % 4 = 0 && off < (if bar then 0x100000 else 0x10000)
  -- R138: descriptors of 32 bytes
  | .hostTxPacket _ descs _ _ => descs.all fun d => d.bytes.length = 32
  | .identify _ p => p.length ≤ 496
  | .sysRestart _ p _ => p.length ≤ 496
  | .profileLoad _ p => p.length ≤ 496
  | .profileStore _ p => p.length ≤ 496
  | .profileSelect _ p => p.length ≤ 496
  | .profileRead _ p => p.length ≤ 496
  | .profileStage _ p => p.length ≤ 496
  | .hrConfig _ p => p.length ≤ 496
  | .hrStatus _ p => p.length ≤ 496
  | .eventRoute _ p => p.length ≤ 496
  | .gpioSet _ p => p.length ≤ 496
  | .gpioGet _ p _ => p.length ≤ 496
  | .modeSet _ p => p.length ≤ 496
  | .modeGet _ p => p.length ≤ 496
  | .pwrStats _ p => p.length ≤ 496
  | .domainStatus _ p => p.length ≤ 496
  | .wakeConfig _ p => p.length ≤ 496
  | .vigilConfig _ p => p.length ≤ 496
  -- R183: 1 regulator, 2 lock
  | .domainWakeTimeout _ upStep => upStep = 1 || upStep = 2
  | .cadSourceSet _ p => p.length ≤ 496
  | .cadStatus _ p => p.length ≤ 496
  | .timeGet _ p => p.length ≤ 496
  | .timeStep _ p => p.length ≤ 496
  | .timeAdjust _ p => p.length ≤ 496
  | .ptpConfig _ p => p.length ≤ 496
  | .cadMasterSet _ p => p.length ≤ 496
  | .holdoverConfig _ p => p.length ≤ 496
  | .tsRead _ p => p.length ≤ 496
  -- R328, R333: a station and a TID
  | .reorderTimeout sta tid => sta < 2048 && tid < 8
  -- R241: three buses
  | .rffeTransactionDone _ bus _ _ => bus < 3
  | .bandConfig _ p => p.length ≤ 496
  | .chainEnable _ p => p.length ≤ 496
  | .txpwrSet _ p => p.length ≤ 496
  | .femConfig _ p => p.length ≤ 496
  | .rffeAccess _ p => p.length ≤ 496
  | .coexConfig _ p => p.length ≤ 496
  | .blankMap _ p => p.length ≤ 496
  | .chainStatus _ p => p.length ≤ 496
  | .factoryTest _ p => p.length ≤ 496
  | .spectrumSurvey _ p => p.length ≤ 496
  | .soundingConfig _ p => p.length ≤ 496
  | .precodeConfig _ p => p.length ≤ 496
  | .csiRead _ p => p.length ≤ 496
  | .calRun _ p => p.length ≤ 496
  | .calStatus _ p => p.length ≤ 496
  | .calSchedule _ p => p.length ≤ 496
  | .calTableRead _ p => p.length ≤ 496
  | .calTableStore _ p => p.length ≤ 496
  | .sliceStatus _ p => p.length ≤ 496
  -- R737: 36 sensors
  | .sensorConversion sensor _ => sensor < 36
  -- R697: a reading is 0 to 2
  | .thermalShutdown sensor => sensor < 3
  | .staAdd _ p => p.length ≤ 496
  | .staModify _ p => p.length ≤ 496
  | .staRemove _ p => p.length ≤ 496
  | .staGet _ p => p.length ≤ 496
  | .acParamSet _ p => p.length ≤ 496
  | .turnPlanSet _ p => p.length ≤ 496
  | .airGateSet _ p => p.length ≤ 496
  | .beaconTemplate _ p => p.length ≤ 496
  | .linkSteer _ p => p.length ≤ 496
  | .policyBind _ p => p.length ≤ 496
  | .bfAdmit _ p => p.length ≤ 496
  | .bfModify _ p => p.length ≤ 496
  | .bfRelease _ p => p.length ≤ 496
  | .bfStatus _ p => p.length ≤ 496
  | .bfPledgeSet _ p => p.length ≤ 496
  | .bfStats _ p => p.length ≤ 496
  -- R547: entries of a gate list
  | .gateEntryInstant _ entry => entry < 64
  -- R507: buckets of the L2 table
  | .agingVisit bucket => bucket < 65536
  | .nbConfig _ p => p.length ≤ 496
  | .nbChannelPlan _ p => p.length ≤ 496
  | .dwellConfig _ p => p.length ≤ 496
  | .tunerRun _ p => p.length ≤ 496
  | .nbStats _ p => p.length ≤ 496
  | .nodeAdd _ p => p.length ≤ 496
  | .nodeRemove _ p => p.length ≤ 496
  | .nodeGet _ p => p.length ≤ 496
  | .nbSend _ p => p.length ≤ 496
  | .floodConfig _ p => p.length ≤ 496
  | .heldStatus _ p => p.length ≤ 496
  | .parseConfig _ p => p.length ≤ 496
  | .ruleWrite _ p => p.length ≤ 496
  | .ruleClear _ p => p.length ≤ 496
  | .rangeSet _ p => p.length ≤ 496
  | .patternWrite _ p => p.length ≤ 496
  | .policerSet _ p => p.length ≤ 496
  | .classStats _ p => p.length ≤ 496
  | .l2Add _ p => p.length ≤ 496
  | .l2Remove _ p => p.length ≤ 496
  | .l2Flush _ p => p.length ≤ 496
  | .routeAdd _ p => p.length ≤ 496
  | .routeRemove _ p => p.length ≤ 496
  | .routeBulk _ p => p.length ≤ 496
  | .nexthopSet _ p => p.length ≤ 496
  | .ecmpSet _ p => p.length ≤ 496
  | .agingSet _ p => p.length ≤ 496
  | .fwdStats _ p => p.length ≤ 496
  | .queueConfig _ p => p.length ≤ 496
  | .shaperSet _ p => p.length ≤ 496
  | .gateListSet _ p => p.length ≤ 496
  | .bufferConfig _ p => p.length ≤ 496
  | .chainPairSet _ p => p.length ≤ 496
  | .tmStats _ p => p.length ≤ 496
  | .keyUnwrap _ p => p.length ≤ 496
  | .keyErase _ p => p.length ≤ 496
  | .kekProvision _ p => p.length ≤ 496
  | .cmLevelSet _ p => p.length ≤ 496
  | .keySlotInfo _ p => p.length ≤ 496
  | .kernelLoad _ p => p.length ≤ 496
  | .kernelStart _ p => p.length ≤ 496
  | .kernelStop _ p => p.length ≤ 496
  | .taskConfig _ p => p.length ≤ 496
  | .colObserveSet _ p => p.length ≤ 496
  | .massifStats _ p => p.length ≤ 496
  | .dramConfig _ p => p.length ≤ 496
  | .dramTrain _ p => p.length ≤ 496
  | .dramMapSet _ p => p.length ≤ 496
  | .dramStatus _ p => p.length ≤ 496
  | .freezeRead _ p => p.length ≤ 496
  -- R644: lanes of a sub-channel
  | .dqsTrackDue _ _ _ lane _ => lane < 40
  | .ringConfig _ p => p.length ≤ 496
  | .ringStatus _ p => p.length ≤ 496
  | .ringTableSync _ p => p.length ≤ 496
  | .rendezvousSet _ p => p.length ≤ 496
  -- R694: classes 0 to 5
  | .sramUncorrectable cls _ _ => cls < 6
  | .logRead _ p => p.length ≤ 496
  | .faultRead _ p => p.length ≤ 496
  | .counterRead _ p => p.length ≤ 496
  | .statusRead _ p => p.length ≤ 496
  | .watchdogSet _ p => p.length ≤ 496
  | .logClear _ p => p.length ≤ 496
  | .commandRecorded _ _ p => p.length ≤ 496
  | .doorbellOverrun _ _ p => p.length ≤ 496
  | .powerOn | .vddIoUp | .vddIoLoss | .powerOff | .pwrOkRise | .pwrOkFall | .resetNFall | .resetNRise .. | .bootSequenceDone ..
  | .replayResume | .refclkRfFail | .refclkRfTimeout | .serdesRefclkFail | .pcieRefclkFail | .pciePerstAssert | .pciePerstRelease
  | .keeperStable | .stageOwnerTimeout | .recordedCommandTaken .. | .longCommandDeferredStart | .barBadAccess .. | .hostIdxWrite ..
  | .dropCountRead .. | .todSnapshotRead | .traceRestart | .traceFreeze .. | .traceLostRead | .svcRead .. | .svcWrite ..
  | .hostRingWrite .. | .hrDisableDrained .. | .msixModerationExpiry .. | .profileLoadDone .. | .profileStoreDone ..
  | .agentAnswer .. | .agentAnswerTimeout .. | .enterResend .. | .modeTransitionDone | .serveExitSilence | .domainWakeDone ..
  | .domainWakeRetry .. | .demandIdleExpiry .. | .keeperAlarm | .wakeNAssert | .safeNAssert | .cadPulseMark ..
  | .markFrameTimeout .. | .markWindowExpiry | .slewDone | .holdoverBudgetExpiry | .timeStepApply | .ptpSyncMark ..
  | .ptpAnnounce .. | .ptpDelayResp .. | .ptpDelayReqTimer .. | .keeperTrimWindow .. | .beatStart .. | .kernelDeadline ..
  | .planSeal .. | .weightSetComplete .. | .cipherFrameDone .. | .rngHealthFail .. | .ccaCheckEnd .. | .coexRequest ..
  | .ppduFemOn .. | .ppduEnd .. | .edcaAccessGained .. | .responseReceived .. | .responseTimeout .. | .bfDeadline ..
  | .airRxPpdu .. | .wbRxFalseDet .. | .beaconSkipped .. | .loLockLoss .. | .loReady .. | .synthLockTimeout ..
  | .coexGntWithdrawn .. | .blankInAssert .. | .blankInRelease .. | .mismatchMeasureDue .. | .mismatchCaptureDone ..
  | .bandConfigDone .. | .factoryTestDone | .surveySpanDone .. | .calGap .. | .calMeasurementDone .. | .nbCalInterval
  | .calStoreInterval | .calRunDone | .calTableStoreDone | .ethFrameReceived .. | .payloadMatchDone | .egressFrameStart ..
  | .shaperCreditEligible .. | .gateListApply .. | .ethLinkUp .. | .ethLinkDown .. | .chainSwitchSettle | .chainLinkWaitExpiry
  | .chainRetryExpiry | .filterRebuildDone | .tunerRunDone .. | .nbTxRequestStart .. | .nbCcaDone .. | .nbTxDone ..
  | .nbFrameReceived .. | .nbPhrReceived .. | .nbSyncTimeout .. | .hopSlotStart .. | .nbSynthLocked .. | .nbSynthLockTimeout ..
  | .nbLockLoss .. | .nbRlSample .. | .nbAutoTuneStart .. | .tuneBurstRetry .. | .tuneSearchTimeout .. | .nbAckTimeout ..
  | .nbBackoffExpiry .. | .heldFrameExpiry .. | .relayJitterExpiry .. | .seenEntryExpiry .. | .nbBeaconInterval
  | .ctrFloorWriteDone | .heldStoreMoveDone | .l2FlushDone | .routeBulkDone .. | .kekProvisionDone | .kernelLoadDone ..
  | .colDispatch | .kernelReturn .. | .kernelBudgetExpiry .. | .add .. | .sub .. | .adds .. | .subs .. | .and_ .. | .or_ ..
  | .xor .. | .shl .. | .shr .. | .shra .. | .mul .. | .mulq .. | .min .. | .max .. | .abs .. | .neg .. | .cmp .. | .cadd ..
  | .csub .. | .conj .. | .pack .. | .padd .. | .movi .. | .movhi .. | .moviP .. | .macH .. | .msuH .. | .macW .. | .msuW ..
  | .cmac .. | .cmacj .. | .cmsu .. | .clr .. | .clr2 .. | .mova .. | .adda .. | .macI .. | .vmacH .. | .vcmac .. | .vcmacj ..
  | .extW .. | .extH .. | .extI .. | .extCx .. | .rawlo .. | .rawmi .. | .rawhi .. | .inslo .. | .insmi .. | .inshi .. | .ldBu ..
  | .ldB .. | .ldHu .. | .ldH .. | .ldW .. | .ldP .. | .ldA .. | .stB .. | .stH .. | .stHu .. | .stW .. | .stP .. | .stA ..
  | .stHf .. | .branch .. | .call .. | .callr .. | .ret .. | .br .. | .loop .. | .mfs .. | .mts .. | .nop .. | .setrnd ..
  | .csrr .. | .csrw .. | .rfe .. | .wait .. | .fence .. | .undefinedEncoding .. | .dramTrainDone .. | .zeroingDone
  | .refreshDue .. | .mr4Poll .. | .zqCalDue .. | .dramCreditWindow | .dramReadComplete .. | .caParityError .. | .writeCrcAlert ..
  | .selfRefreshExitDone | .ringTableSyncDone | .ringPortUp .. | .ringPortDown .. | .ringSwitchSettle | .ringLinkWaitExpiry
  | .ringRetryExpiry | .ringBeaconRx .. | .ringDataRx .. | .ringTransitFrame .. | .ringBadMsgType .. | .ringPortTxStart ..
  | .ringCommandRx .. | .mb3CommandInject | .ringResponseRx .. | .ringTableUpdateRx .. | .ringSummaryRx .. | .summaryTimer
  | .ringClaimRx .. | .rendezvousInstant | .rdvWindowOpen | .rdvWindowEnd | .rendezvousRx .. | .lockstepMismatch ..
  | .wdtStage1Expiry | .wdtResetExpiry .. | .lastGaspDone | .autoRestartExpiry .. | .availabilityWrite | .heartbeatTick
  | .logClearDone | .pcieLinkUp | .standbyRelocked .. | .wbPreambleDetected .. | .wbRxRestart .. | .nbPreambleDetected ..
  | .nbRxWindowPower .. | .nbRequestLatest .. | .blankTailExpiry .. => true

end Sys2Proof
end

