-- ==== Sys2Proof/Tests/Slice0.lean ====
section
/-!
SUPPORT. A witness for the conditions of every clause of the statements, ill-formed terms that are refused, and small checks of
single commands.
-/
set_option linter.unusedVariables false
set_option Elab.async false
namespace Sys2Proof.Tests
open Sys2Proof.Machine Sys2Proof.Claim

/-! Small states. -/

/-- A device in a mode, with Summit running, its domains on, the link up and no boot in progress. -/
def live (m : Nat) : State :=
  { flt := { summitHeld := false, summitRun := true }
    modes := { mode := m, target := m, doms := List.replicate 8 { st := 1 } }
    boot := { phase := .done, stage := 8 }
    host := { link := true }
    outs := { z := false }
    cad := { run := true }
    dram := { st := 3, zeroed := true } }

/-- A doorbell of mailbox 0 for so many parameter bytes. -/
def bell (n : Nat) : Doorbell := { mb := 0, path := .bar, value := 7, seq := 7, length := BitVec.ofNat 16 n }

/-- So many parameter bytes with some fields: offset, width, value. -/
def fields (n : Nat) (l : List (Nat × Nat × Nat)) : List Byte := l.foldl (fun b e => patch b (e.1 - 16) (le e.2.1 e.2.2)) (List.replicate n 0)

/-- A live device with its parts of the air replaced. -/
def withAir (m : Nat) (a : Air) : State := { live m with air := a }

/-- A state at another time of day, ns. -/
def atNs (n : Nat) (s : State) : State := { s with cad := { s.cad with tod := n * 2 ^ 32 } }

/-- The parameter bytes of a station in range: bands, AID. -/
def staFields (n links : Nat) : List (Nat × Nat × Nat) :=
  [(16, 2, n), (18, 2, 6), (20, 1, 0), (21, 1, links), (22, 2, 5), (24, 6, 77), (42, 1, 2), (43, 1, 2), (46, 2, 8), (48, 2, 3895), (52, 2, 64), (58, 1, 16)]

/-- The station of those parameters. -/
def sta0 : Sta := { p := { flags := 6, links := 3, aid := 5, mld := 77, rxSs := 2, txSs := 2, maxAmpdu := 8, maxMpdu := 3895, baSize := 64 } }

/-- The parameter bytes of AC_PARAM_SET. -/
def acFields : List (Nat × Nat × Nat) :=
  [(16, 1, 1), (17, 1, 50), (18, 2, 9), (23, 1, 1), (24, 2, 10), (26, 2, 1), (28, 1, 0xFF), (31, 1, 1)] ++
    [0, 1, 2, 3].flatMap fun a => [(32 + 10 * a, 1, 2), (33 + 10 * a, 1, 3), (34 + 10 * a, 1, 4), (35 + 10 * a, 1, 5), (38 + 10 * a, 2, 100), (40 + 10 * a, 2, 16)]

/-- The parameter bytes of BF_ADMIT. -/
def bfFields : List (Nat × Nat × Nat) :=
  [(16, 2, 3), (18, 2, 4), (22, 1, 6), (24, 2, 100), (26, 1, 1), (27, 1, 1), (28, 2, 4), (30, 2, 4)]

/-- An admitted flow. -/
def bf0 : Bf := { p := { sta := 4, tid := 6, maxFrame := 200, fpp := 1, attempts := 1, period := 4, deadline := 4, first := 0, pinKey := List.replicate 16 0 } }

/-- A rule that drops every packet. -/
def dropAll : Rule := { valid := true, action := 1, opts := 0, up := 0, tc := 0, dest := 0, policer := 0xFFFF, rangeA := 0xFFFF, rangeB := 0xFFFF, pattern := 0xFFFF, value := [], mask := [] }

/-- A loaded pairwise key. -/
def slot0 : Slot := { type := 1, usage := 0x43, keyId := 0, kek := 1, bind := 0, blob := [], pn := 0, initPn := 0, fingerprint := 0 }

/-- The front end of an enabled band. -/
def band0 : Band := { ch := { enable := true }, loReady := true, sa := 1, sb := 1, tracked := true }

/-- A PPDU without users. -/
def ppdu (k : Nat) : Ppdu := { kind := k, p := 0, dur := 1000, a := 2000, w := 2000000 }

/-- A device in SERVE whose band M executes a plan of one PPDU. -/
def onPlan0 (k : Nat) (x : Ppdu) : State :=
  { withAir 5 { m := { plans := [(0, { kind := k, st := 3, ppdus := [x] })] } } with fe := { m := band0 } }

/-- A page of the mailboxes is reached and idle, and a command passes the checks of its opcode: a test of `Ready`. -/
def readyOk (o : OpSpec) (d : Doorbell) (p : List Byte) (s : State) : Bool :=
  mayWrite d.mb.val d.path s && decide (d.mb.val < s.mbx.pages.length) && s.flt.summitRun && !(getPage s d.mb.val).busy &&
  (getPage s d.mb.val).recorded.isNone && decide (fld (area o d p s) 4 2 = d.value.toNat) && hdrOk (area o d p s) &&
  o.rsv (cmdOf o d p s) && (o.diag || !shutOut (cmdOf o d p s) (copied o d p s)) && o.modes (cmdOf o d p s) (copied o d p s) &&
  (o.needs (cmdOf o d p s)).all (fun x => decide ((getDom s x).st ≠ 0 ∧ (getDom s x).st ≠ 2 ∧ (getDom s x).st ≠ 5)) &&
  !anyHeld s (o.objs (cmdOf o d p s))

theorem ready_of_readyOk {o : OpSpec} {d : Doorbell} {p : List Byte} {s : State} (h : readyOk o d p s = true) : Ready o d p s := by
  simp only [readyOk, Bool.and_eq_true, Bool.or_eq_true, Bool.not_eq_true', decide_eq_true_eq, Option.isNone_iff_eq_none, List.all_eq_true] at h
  obtain ⟨⟨⟨⟨⟨⟨⟨⟨⟨⟨⟨a, b⟩, c⟩, d⟩, e⟩, f⟩, g⟩, i⟩, j⟩, k⟩, l⟩, m⟩ := h
  exact ⟨a, b, c, d, e, f, g, i, j, k, l, m⟩


/-- A bucket that holds one entry under its key's first hash: the search finds it. -/
theorem l2_probe {s : State} {m v i m' v' : Nat} {e : L2e} (h : s.fwd.l2 = [(l2Bucket 1 m v, { slots := [(i, e)] })]) (hm : m' = m) (hv : v' = v)
    (em : e.mac = m) (ev : e.vid = v) : l2Find s m' v' = some (l2Bucket 1 m v, i, e) := by
  simp [l2Find, probe, bucketAt, h, Tab.getD, Tab.get?, Bucket.find, hm, hv, em, ev]

/-- A Mladmer frame. -/
def nbF : NbFrame := { node := 5, type := 0, dst := 99, seq := 3 }

/-- A Mladmer node. -/
def node0 : Node := { flags := 0, xcvr := 2, addr := 99, ks := 0xFFFF, deliver := 0, ring := 40, holdS := 60, heldMax := 16, txCtr := 7, rxCtr := 8 }

/-- A started kernel of one instruction. -/
def kern0 : Kernel := { code := [0, 0, 0, 0], localNeed := 0, sharedNeed := 0, entry := 0, crc := 0, started := true }

/-- A ready task of kernel 2. -/
def task0 : Task := { kernel := 2, waitMask := 6, flags := 3 }

/-- A ring that is inserted, its ports up, on device 2. -/
def ringed (m : Nat) (r : RingSt) : State :=
  { live m with outs := { z := false, ringTx := .ridgeline }, pwr := { ringId := 2 }, ring := { r with st := 2, ports := [{ up := true }, { up := true }] } }

/-- A ring frame from device 5. -/
def ringF (type dst hops : Nat) (body : List Byte) : List Byte := ringHdr type 5 dst hops body.length 0 0 9 77 ++ body

/-- Bytes that lie in a core's memory from 64 on. -/
def bytes64 : List (Nat × Byte) := memWrite [] 64 [1, 0, 2, 0, 3, 0, 4, 0, 5, 0, 6, 0, 7, 0, 255, 255]

/-- Core 1 runs a kernel of 16 instructions and stands at its third, with these registers. -/
def crag1 (d p : List W32) : State :=
  { live 5 with col := { kernels := [(2, { kern0 with code := List.replicate 64 0, sharedKb := 1 })], cores := [{}, { d := d ++ List.replicate (32 - d.length) 0, p := p ++ List.replicate (15 - p.length) 0 ++ [0x1C000], acc := [0, 0, 7, 0x7FFFFFFFFFFFFFFFFF, 0, 0, 0, 0], mem := memWrite bytes64 96 [2, 0, 2, 0, 3, 0, 4, 0, 5, 0, 6, 0, 7, 0, 1, 0], run := some { task := 20, kernel := 2 }, pc := 0x80000008 }] } }

/-- The same core at the end of a loop. -/
def loop1 : State := onCore 1 (fun k => { k.setDepth 1 with ls := [0x80000004, 0, 0], le := [0x80000008, 0, 0], lc := [4, 0, 0] }) (crag1 [] [])

/-- The same core with three loops active. -/
def deep1 : State := onCore 1 (fun k => k.setDepth 3) (crag1 [] [])

/-- The same core after a call without saved registers. -/
def ret1 : State := onCore 1 (fun k => { k with lk := 0x80000010, p := setAt k.p 15 0x1BFF8, mem := memWrite [] 0x1BFF8 [0xF0, 0xFF, 0xFF, 0xFF, 0, 0, 0, 0] }) (crag1 [] [])

/-- Summit, awake and privileged. -/
def summit1 : State := { live 5 with evt := { asleep := false } }

/-- Summit, awake, in user mode. -/
def user1 : State := onCore 32 (fun k => { k with st := 0x20 }) summit1

/-- Core 1 after a write. -/
def wrote (a : Nat) (b : List Byte) (s : State) : Core := match cragWrite 1 a b (getCore s 1) s with
  | some r => r.1
  | none => {}

/-- Core 1 after words are written. -/
def wroteWords (a : Nat) (l : List W32) (s : State) : Core := match cragWords 1 a l (getCore s 1) s with
  | some r => r.1
  | none => {}


/-- The bytes of a fault record before its checksum, all but the TAG being 0. -/
def rec0 : List Byte := [0x43, 0x45, 0x52, 0x46] ++ List.replicate 500 0

/-- The checksum of those bytes, reached in steps that the kernel can evaluate. -/
theorem crc_rec0 : crc32 rec0 = 0xF7FE3E50 := by
  have e : rec0 = [0x43, 0x45, 0x52, 0x46] ++ List.replicate 100 0 ++ List.replicate 100 0 ++ List.replicate 100 0 ++ List.replicate 100 0 ++
      List.replicate 100 0 := by decide +kernel
  have a : ([0x43, 0x45, 0x52, 0x46] ++ List.replicate 100 (0 : Byte)).foldl (crcByte 0xEDB88320) 0xFFFFFFFF = 2489744525 := by decide +kernel
  have b : (List.replicate 100 (0 : Byte)).foldl (crcByte 0xEDB88320) 2489744525 = 1756690462 := by decide +kernel
  have c : (List.replicate 100 (0 : Byte)).foldl (crcByte 0xEDB88320) 1756690462 = 2285244648 := by decide +kernel
  have d : (List.replicate 100 (0 : Byte)).foldl (crcByte 0xEDB88320) 2285244648 = 1887598365 := by decide +kernel
  have f : (List.replicate 100 (0 : Byte)).foldl (crcByte 0xEDB88320) 1887598365 = 134332847 := by decide +kernel
  rw [e, crc32, List.foldl_append, List.foldl_append, List.foldl_append, List.foldl_append, a, b, c, d, f]
  decide

/-- A device whose first fault-record slot holds a valid record. -/
def faulted : State :=
  { live 4 with boot := { phase := .done, stage := 8, mram := memWrite (memWrite [] 0x60000 [0x43, 0x45, 0x52, 0x46]) 0x601F8 [0x50, 0x3E, 0xFE, 0xF7, 0x5A, 0x3C, 0xC3, 0xA5] } }

theorem faulted_valid {n : Nat} (h : n = 0) : slotValid (slotBytes faulted n) = true := by
  subst h
  have e : (slotBytes faulted 0).take 504 = rec0 := by decide +kernel
  simp only [slotValid, e, crc_rec0]
  decide +kernel

/-- The conditions of `SuppliesAndResetTakeEffect` can be met. -/
theorem witness_SuppliesAndResetTakeEffect :
    (∃ (s : State), s.pwr.vddAon = false) ∧
    (∃ (s : State), s.pwr.vddAon = true ∧ s.pwr.vddIo = false) ∧
    (∃ (s : State), s.pwr.vddAon = true ∧ s.pwr.vddIo = true) ∧
    (∃ (s : State), s.pwr.vddAon = true) ∧
    (∃ (s : State), s.pwr.vddAon = true ∧ s.pwr.vddIo = true ∧ s.pwr.pwrOk = false) ∧
    (∃ (s : State), s.pwr.vddAon = true ∧ s.pwr.pwrOk = true) ∧
    (∃ (s : State), s.pwr.vddAon = true ∧ s.pwr.pwrOk = true ∧ s.pwr.resetN = true) ∧
    (∃ (s : State) (profSel ringRole : BitVec 2) (ringId : BitVec 3) (bootHalt safeN : Bool), s.modes.mode = 1 ∧ s.pwr.pwrOk = true ∧ s.pwr.vddIo = true ∧ s.pwr.resetN = false) ∧
    (∃ (s : State), s.pwr.vddAon = true) :=
  ⟨⟨{ State.reset with pwr := { vddAon := false } }, by decide +kernel⟩,
   ⟨{ live 1 with pwr := { vddIo := false } }, by decide +kernel⟩,
   ⟨live 5, by decide +kernel⟩,
   ⟨live 5, by decide +kernel⟩,
   ⟨{ live 1 with pwr := { pwrOk := false } }, by decide +kernel⟩,
   ⟨live 5, by decide +kernel⟩,
   ⟨{ live 5 with pwr := { resetN := true } }, by decide +kernel⟩,
   ⟨live 1, 2, 1, 3, true, true, by decide +kernel⟩,
   ⟨live 1, by decide +kernel⟩⟩

/-- The conditions of `FailSafeEventsEnterSafe` can be met. -/
theorem witness_FailSafeEventsEnterSafe :
    (∃ (s : State) (rail : Nat), s.pwr.pwrOk = true ∧ 2 ≤ s.modes.mode ∧ s.modes.mode ≤ 6 ∧ rail ≤ 2) ∧
    (∃ (s : State), s.pwr.pwrOk = true ∧ 2 ≤ s.modes.mode ∧ s.modes.mode ≤ 6) ∧
    (∃ (s : State), s.pwr.pwrOk = true ∧ s.boot.phase = .sequence ∧ 2 ≤ s.modes.mode ∧ s.modes.mode ≤ 6) ∧
    (∃ (s : State), s.pwr.pwrOk = true ∧ s.boot.phase = .sequence ∧ s.modes.mode = 1) ∧
    (∃ (s : State), 2 ≤ s.modes.mode ∧ s.modes.mode ≤ 6) ∧
    (∃ (s : State), s.modes.mode = 7 ∧ s.boot.restarting = false ∧ s.flt.counters.length = 29) ∧
    (∃ (s : State) (sensor : Nat), sensor < 3 ∧ 2 ≤ s.modes.mode ∧ s.modes.mode ≤ 6 ∧ 4 * (tjShutdown : Int) ≤ (tjs s).getD sensor 0) ∧
    (∃ (s : State) (pcA pcB : W32), s.flt.summitRun = true ∧ 2 ≤ s.modes.mode ∧ s.modes.mode ≤ 6) ∧
    (∃ (s : State), watchdogActs s = true ∧ s.modes.mode ≤ 6 ∧ s.flt.wdtMs ≠ 0 ∧ s.pwr.safeN = true) :=
  ⟨⟨live 5, 1, by decide +kernel⟩,
   ⟨live 5, by decide +kernel⟩,
   ⟨{ live 2 with boot := { phase := .sequence } }, by decide +kernel⟩,
   ⟨{ live 1 with boot := { phase := .sequence } }, by decide +kernel⟩,
   ⟨live 5, by decide +kernel⟩,
   ⟨live 7, by decide +kernel⟩,
   ⟨{ live 5 with flt := { summitRun := true, sensors := List.replicate 36 600 } }, 0, ⟨by decide, by decide, by decide, by unfold tjShutdown; split <;> decide +kernel⟩⟩,
   ⟨live 5, 0x80000010, 0x80000014, by decide +kernel⟩,
   ⟨live 5, by decide +kernel⟩⟩

/-- The conditions of `RestartRowsTakeEffect` can be met. -/
theorem witness_RestartRowsTakeEffect :
    (∃ (s : State) (safeN : Bool), watchdogActs s = true ∧ s.flt.wdtResetMs ≠ 0 ∧ safeN = true) ∧
    (∃ (s : State) (safeN : Bool), s.modes.mode = 7 ∧ s.boot.restarting = false ∧ s.flt.cause ∈ [3, 4, 5, 6, 7, 9] ∧ s.flt.autoMask.getLsbD s.flt.cause = true ∧ safeN = true ∧ s.flt.gaspDone = true ∧ (recentAuto s).length < s.flt.autoLimit) ∧
    (∃ (s : State) (safeN : Bool), s.modes.mode = 7 ∧ s.boot.restarting = false ∧ s.flt.cause ∈ [3, 4, 5, 6, 7, 9] ∧ s.flt.autoMask.getLsbD s.flt.cause = true ∧ safeN = true ∧ s.flt.gaspDone = true ∧ s.flt.autoLimit ≤ (recentAuto s).length) ∧
    (∃ (s : State) (safeN : Bool), s.modes.mode = 7 ∧ s.boot.restarting = false ∧ s.flt.cause ∈ [3, 4, 5, 6, 7, 9] ∧ s.flt.autoMask.getLsbD s.flt.cause = true ∧ safeN = true ∧ s.flt.gaspDone = false) ∧
    (∃ (s : State) (slot : Nat) (head : List Byte) (loss : Bool), s.flt.gasp = .writing slot head loss ∧ s.flt.autoDue = false) ∧
    (∃ (s : State) (since : Nat), s.flt.summitRun = true ∧ s.flt.serveFrom = some since) ∧
    (∃ (s : State), s.flt.summitRun = true) :=
  ⟨⟨live 7, true, by decide +kernel⟩,
   ⟨{ live 7 with flt := { cause := 4, autoMask := 0x10, gaspDone := true } }, true, by decide +kernel⟩,
   ⟨{ live 7 with flt := { cause := 4, autoMask := 0x10, gaspDone := true, autoLimit := 1, autoTimes := [0] } }, true, by decide +kernel⟩,
   ⟨{ live 7 with flt := { cause := 4, autoMask := 0x10 } }, true, by decide +kernel⟩,
   ⟨{ live 7 with flt := { gasp := .writing 3 [1, 2] false } }, 3, [1, 2], false, by decide +kernel⟩,
   ⟨{ atNs 5000000000 (live 5) with flt := { summitRun := true, serveFrom := some 1 } }, 1, by decide +kernel⟩,
   ⟨live 5, by decide +kernel⟩⟩

/-- The conditions of `LinkAndWakePinsTakeEffect` can be met. -/
theorem witness_LinkAndWakePinsTakeEffect :
    (∃ (s : State), 2 ≤ s.modes.mode) ∧
    (∃ (s : State), s.host.training = true ∧ s.pwr.perstN = true ∧ 2 ≤ s.modes.mode ∧ s.boot.restarting = false) ∧
    (∃ (s : State), s.modes.mode = 3 ∧ s.modes.wakeSources.getLsbD 0 = true ∧ s.modes.trans = none ∧ s.modes.warmTarget ≤ 7) ∧
    (∃ (s : State), s.modes.wakeSources.getLsbD 0 = false) ∧
    (∃ (s : State), s.clk.alarm.isSome = true ∧ s.modes.mode = 3 ∧ s.modes.wakeSources.getLsbD 4 = false) :=
  ⟨⟨live 4, by decide +kernel⟩,
   ⟨{ live 4 with host := { training := true }, pwr := { perstN := true } }, by decide +kernel⟩,
   ⟨live 3, by decide +kernel⟩,
   ⟨{ live 3 with modes := { mode := 3, wakeSources := 0x1E } }, by decide +kernel⟩,
   ⟨{ live 3 with clk := { alarm := some 5 } }, by decide +kernel⟩⟩

/-- The conditions of `BootSequenceTakesEffect` can be met. -/
theorem witness_BootSequenceTakesEffect :
    (∃ (s : State) (selfTestOk : Bool), s.boot.phase = .sequence ∧ s.pwr.refclkRf = true ∧ s.pwr.pwrOk = true ∧ 2 ≤ s.modes.mode ∧ s.modes.mode ≤ 6 ∧ selfTestOk = false) ∧
    (∃ (s : State) (selfTestOk : Bool), s.boot.phase = .sequence ∧ s.pwr.refclkRf = true ∧ s.pwr.pwrOk = true ∧ selfTestOk = true ∧ (s.boot.restarting = true ∨ s.pwr.safeN = true)) ∧
    (∃ (s : State), s.boot.phase ≠ .replay) ∧
    (∃ (s : State), s.boot.phase = .replay ∧ s.boot.waitLong = false ∧ s.boot.recCount ≤ s.boot.recIdx ∧ s.boot.loader.isSome = true) :=
  ⟨⟨{ live 2 with boot := { phase := .sequence } }, false, by decide +kernel⟩,
   ⟨{ live 2 with boot := { phase := .sequence } }, true, by decide +kernel⟩,
   ⟨live 5, by decide +kernel⟩,
   ⟨{ live 2 with boot := { phase := .replay, loader := some {} } }, by decide +kernel⟩⟩

/-- The conditions of `RegisterAccessTakesEffect` can be met. -/
theorem witness_RegisterAccessTakesEffect :
    (∃ (s : State) (bar : Bool) (off : Nat) (v : W32), s.host.link = true ∧ bar = false ∧ off % 4 = 0 ∧ off < 0x200 ∧ s.mbx.pages.length = 4) ∧
    (∃ (s : State) (bar : Bool) (off : Nat) (v : W32) (mb : Nat), s.host.link = true ∧ bar = false ∧ off = 0x1000 * mb + 0x40C ∧ mb ≤ 3 ∧ s.mbx.pages.length = 4) ∧
    (∃ (s : State) (bar : Bool) (off : Nat) (v : W32), s.host.link = true ∧ bar = true ∧ off % 4 = 0 ∧ 0x40000 ≤ off ∧ off < 0xC0000) ∧
    (∃ (s : State) (bar : Bool) (off : Nat) (v : W32), s.host.link = true ∧ off % 4 ≠ 0 ∧ s.flt.counters.length = 29) ∧
    (∃ (s : State) (write : Bool), s.host.link = true) ∧
    (∃ (s : State) (ring : BitVec 6), s.host.link = true) ∧
    (∃ (s : State) (ring : BitVec 6) (v : W32), s.host.link = true ∧ (getRing s ring.toNat).enabled = true ∧ (getRing s ring.toNat).stopped = false ∧ (getRing s ring.toNat).type ≠ 3 ∧ (v.setWidth 16 - (getRing s ring.toNat).devIdx).toNat ≤ (getRing s ring.toNat).size - 1) ∧
    (∃ (s : State) (addr : BitVec 24) (count : Nat), s.modes.mode ≠ 0 ∧ s.outs.z = false) ∧
    (∃ (s : State) (addr : BitVec 24) (data : List Byte) (crcOk : Bool), s.modes.mode ≠ 0 ∧ s.outs.z = false ∧ crcOk = false) ∧
    (∃ (s : State) (addr : BitVec 24) (data : List Byte) (crcOk : Bool) (v : Byte), s.modes.mode ≠ 0 ∧ s.outs.z = false ∧ crcOk = true ∧ data = [v] ∧ 0x2000 ≤ addr.toNat ∧ addr.toNat < 0x2200 ∧ s.mbx.pages.length = 4) ∧
    (∃ (s : State) (addr : BitVec 24) (data : List Byte) (crcOk : Bool), s.modes.mode ≠ 0 ∧ s.outs.z = false ∧ crcOk = true ∧ data ≠ [] ∧ addr.toNat < 0x2000) :=
  ⟨⟨live 4, false, 8, 0x12345678, by decide +kernel⟩,
   ⟨live 4, false, 0x240C, 0x1FF, 2, by decide +kernel⟩,
   ⟨live 4, true, 0x40010, 7, by decide +kernel⟩,
   ⟨live 4, false, 2, 7, by decide +kernel⟩,
   ⟨live 4, false, by decide +kernel⟩,
   ⟨{ live 4 with host := { link := true, rings := [(33, { dropCount := 9 })] } }, 33, by decide +kernel⟩,
   ⟨{ live 4 with host := { link := true, rings := [(1, { type := 1, enabled := true, log2 := 4 })] } }, 1, 15, by decide +kernel⟩,
   ⟨live 4, 0x2000, 4, by decide +kernel⟩,
   ⟨live 4, 0x2000, [1], false, by decide +kernel⟩,
   ⟨live 4, 0x21FF, [9], true, 9, by decide +kernel⟩,
   ⟨live 4, 0x1FFF, [9], true, by decide +kernel⟩⟩

/-- The conditions of `HostRingRowsTakeEffect` can be met. -/
theorem witness_HostRingRowsTakeEffect :
    (∃ (s : State) (ring : BitVec 6) (bufs : List RxBuf) (k : HostPkt) (rest : List HostPkt), (getRing s ring.toNat).queue = k :: rest ∧ (getRing s ring.toNat).enabled = false) ∧
    (∃ (s : State) (ring : BitVec 6) (bufs : List RxBuf) (k : HostPkt) (rest : List HostPkt) (b : RxBuf), (getRing s ring.toNat).queue = k :: rest ∧ (getRing s ring.toNat).enabled = true ∧ (getRing s ring.toNat).stopped = false ∧ (getRing s ring.toNat).type = 2 ∧ (getRing s ring.toNat).hostIdx = (getRing s ring.toNat).devIdx + 1 ∧ bufs = [b] ∧ 256 ≤ b.len ∧ b.len ≤ 9216 ∧ k.bytes ≠ [] ∧ k.bytes.length ≤ b.len) ∧
    (∃ (s : State) (ring : BitVec 6) (c : Cmd), (getRing s ring.toNat).disabling = some c) ∧
    (∃ (s : State) (ring : BitVec 6), (getRing s ring.toNat).modRunning = true ∧ 0 < (getRing s ring.toNat).sinceVec) ∧
    (∃ (s : State) (ring : BitVec 6), (getRing s ring.toNat).modRunning = true ∧ (getRing s ring.toNat).sinceVec = 0) ∧
    (∃ (s : State) (ring : BitVec 6) (descs : List TxDesc) (payload : List Byte) (dmaOk : Bool) (l : List TxDesc), s.host.link = true ∧ (getRing s ring.toNat).enabled = true ∧ (getRing s ring.toNat).stopped = false ∧ (getRing s ring.toNat).type = 1 ∧ domOn s 3 = true ∧ packetDescs (fetchedDescs ring.toNat descs s) = some l ∧ l.length ≤ ((getRing s ring.toNat).hostIdx - (getRing s ring.toNat).devIdx).toNat ∧ dmaOk = true ∧ l.find? (fun d => !txOk d) = none ∧ sumOf (l.map fun d => txFld d 8 2) ≤ 9216 ∧ (hostDeliver ring.toNat (l.headD { bytes := [] }) (pad (sumOf (l.map fun d => txFld d 8 2)) payload) s).1 = true) ∧
    (∃ (s : State) (ring : BitVec 6) (descs : List TxDesc) (payload : List Byte) (dmaOk : Bool) (l : List TxDesc), s.host.link = true ∧ (getRing s ring.toNat).enabled = true ∧ (getRing s ring.toNat).stopped = false ∧ (getRing s ring.toNat).type = 1 ∧ domOn s 3 = true ∧ packetDescs (fetchedDescs ring.toNat descs s) = some l ∧ l.length ≤ ((getRing s ring.toNat).hostIdx - (getRing s ring.toNat).devIdx).toNat ∧ dmaOk = false) :=
  ⟨⟨{ live 4 with host := { link := true, rings := [(33, { type := 2, queue := [{ srcType := 1, reason := 0, srcId := 2, bytes := [1, 2] }] })] } }, 33, [], { srcType := 1, reason := 0, srcId := 2, bytes := [1, 2] }, [], by decide +kernel⟩,
   ⟨{ live 4 with host := { link := true, rings := [(33, { type := 2, enabled := true, log2 := 4, hostIdx := 1, queue := [{ srcType := 1, reason := 0, srcId := 2, bytes := [1, 2] }] })] } }, 33, [{ addr := 4096, len := 256, cookie := 7 }], { srcType := 1, reason := 0, srcId := 2, bytes := [1, 2] }, [], { addr := 4096, len := 256, cookie := 7 }, by decide +kernel⟩,
   ⟨{ live 4 with host := { link := true, rings := [(1, { type := 1, enabled := true, disabling := some {} })] } }, 1, {}, by decide +kernel⟩,
   ⟨{ live 4 with host := { link := true, rings := [(1, { type := 1, enabled := true, modUs := 5, modRunning := true, sinceVec := 3 })] } }, 1, by decide +kernel⟩,
   ⟨{ live 4 with host := { link := true, rings := [(1, { type := 1, enabled := true, modRunning := true })] } }, 1, by decide +kernel⟩,
   ⟨{ live 4 with host := { link := true, rings := [(1, { type := 1, enabled := true, log2 := 4, hostIdx := 1 })] } }, 1, [{ bytes := patch (List.replicate 32 0) 8 [64, 0, 1, 0] }], [1, 2], true, [{ bytes := patch (List.replicate 32 0) 8 [64, 0, 1, 0] }], by decide +kernel⟩,
   ⟨{ live 4 with host := { link := true, rings := [(1, { type := 1, enabled := true, log2 := 4, hostIdx := 1 })] } }, 1, [{ bytes := patch (List.replicate 32 0) 8 [64, 0, 1, 0] }], [1, 2], false, [{ bytes := patch (List.replicate 32 0) 8 [64, 0, 1, 0] }], by decide +kernel⟩⟩

/-- The conditions of `WaitingCommandsTakeEffect` can be met. -/
theorem witness_WaitingCommandsTakeEffect :
    (∃ (s : State) (op : W16) (d : Doorbell) (p : List Byte), s.flt.summitRun = false ∧ d.mb.val < s.mbx.pages.length ∧ (getPage s d.mb.val).recorded = none ∧ mayWrite d.mb.val d.path s = true ∧ d.mb.val ≠ 2) ∧
    (∃ (s : State) (op : W16) (d : Doorbell) (p : List Byte), s.flt.summitRun = true ∧ d.mb.val < s.mbx.pages.length ∧ (getPage s d.mb.val).busy = true ∧ mayWrite d.mb.val d.path s = true ∧ d.mb.val ≠ 2) ∧
    (∃ (s : State) (mb : Fin 4) (r : Recorded), (getPage s mb.val).recorded = some r ∧ s.flt.summitRun = true ∧ (getPage s mb.val).busy = false) ∧
    (∃ (s : State) (l : LongCmd) (o : OpSpec), s.mbx.longs.find? (fun l => !l.started && !anyHeld s l.objs) = some l ∧ specOf l.cmd.op = some o ∧ startFails o l.cmd s = none ∧ (o.needs l.cmd).find? (fun d => (getDom s d).st = 0 || (getDom s d).st = 2) = none ∧ (o.body l.cmd (s.onMbx fun m => { m with longs := m.longs.erase l })).1.status = 1) ∧
    (∃ (s : State) (dom : Fin 8) (us : Nat) (selfTest : Option (Nat × Nat)), (getDom s dom.val).st = 2 ∧ s.modes.doms.length = 8 ∧ dom.val ≠ 3 ∧ s.mbx.stalled.filter (·.dom == dom.val) = []) ∧
    (∃ (s : State) (f : List Byte) (rest : List (List Byte)), s.ring.held = f :: rest ∧ (getPage s 3).busy = false ∧ s.flt.summitRun = true) ∧
    (∃ (s : State) (d : Doorbell) (p : List Byte) (safeN : Bool), d.mb.val = 2 ∧ mayWrite 2 d.path s = true ∧ s.mbx.pages.length = 4 ∧ (cmdOf specSysRestart d p s).op = 0x0102 ∧ fld (area specSysRestart d p s) 4 2 = d.value.toNat ∧ hdrOk (area specSysRestart d p s) = true ∧ specSysRestart.rsv (cmdOf specSysRestart d p s) = true ∧ (cmdOf specSysRestart d p s).u 20 4 = 0x52535452 ∧ s.modes.mode ≠ 1 ∧ safeN = true ∧ tooHot s = false) :=
  ⟨⟨{ live 2 with flt := { summitHeld := true } }, 0x0101, bell 0, [], by decide +kernel⟩,
   ⟨{ live 4 with mbx := { pages := [{ busy := true }, {}, {}, {}] } }, 0x0101, bell 0, [], by decide +kernel⟩,
   ⟨{ live 4 with mbx := { pages := [{ recorded := some { cmd := { op := 0x0101 } } }, {}, {}, {}] } }, 0, { cmd := { op := 0x0101 } }, by decide +kernel⟩,
   ⟨{ live 4 with mbx := { longs := [{ cmd := { op := 0x1F06, par := [1, 0, 0, 0, 0x52, 0x54, 0x53, 0x52] }, started := false }] } }, { cmd := { op := 0x1F06, par := [1, 0, 0, 0, 0x52, 0x54, 0x53, 0x52] }, started := false }, specLogClear, ⟨by decide +kernel, rfl, by decide +kernel, by decide +kernel, by decide +kernel⟩⟩,
   ⟨{ live 5 with modes := { mode := 5, doms := List.replicate 8 { st := 2 } } }, 2, 400, none, by decide +kernel⟩,
   ⟨{ live 4 with ring := { held := [ringF 5 4 3 [1, 1, 0, 0, 9, 0]] } }, ringF 5 4 3 [1, 1, 0, 0, 9, 0], [], by decide +kernel⟩,
   ⟨live 4, { bell 8 with mb := 2, path := .svc }, fields 8 [(20, 4, 0x52535452)], true, ⟨by decide, by decide +kernel, by decide, by decide +kernel, by decide +kernel, by decide +kernel, by decide +kernel, by decide +kernel, by decide, rfl, by unfold tooHot tjShutdown; split <;> decide +kernel⟩⟩⟩

/-- The conditions of `Family01CommandsAnswer` can be met. -/
theorem witness_Family01CommandsAnswer :
    (∃ (s : State) (d : Doorbell) (p : List Byte), Ready specIdentify d p s) ∧
    (∃ (s : State) (d : Doorbell) (p : List Byte), Ready specProfileSelect d p s ∧ (let c := cmdOf specProfileSelect d p s; c.u 16 1 ≤ 3)) ∧
    (∃ (s : State) (d : Doorbell) (p : List Byte), Ready specProfileRead d p s ∧ (let c := cmdOf specProfileRead d p s; c.u 16 1 ≤ 3 ∧ c.u 18 2 % 4 = 0 ∧ 4 ≤ c.u 18 2 ∧ c.u 18 2 ≤ 480 ∧ c.u 20 4 % 4 = 0 ∧ c.u 20 4 + c.u 18 2 ≤ 65536)) ∧
    (∃ (s : State) (d : Doorbell) (p : List Byte), Ready specProfileStage d p s ∧ (let c := cmdOf specProfileStage d p s; s.boot.stageOwner = none ∧ c.u 16 4 = 0 ∧ c.u 20 2 % 4 = 0 ∧ 4 ≤ c.u 20 2 ∧ c.u 20 2 ≤ 480 ∧ c.par.length = 8 + c.u 20 2)) ∧
    (∃ (s : State) (d : Doorbell) (p : List Byte), Ready specProfileStage d p s ∧ (let c := cmdOf specProfileStage d p s; s.boot.stageOwner = some c.mb ∧ c.u 16 4 % 4 = 0 ∧ 0 < c.u 16 4 ∧ c.u 16 4 + c.u 20 2 ≤ 65536 ∧ c.u 20 2 % 4 = 0 ∧ 4 ≤ c.u 20 2 ∧ c.u 20 2 ≤ 480 ∧ c.par.length = 8 + c.u 20 2)) ∧
    (∃ (s : State) (d : Doorbell) (p : List Byte), Ready specProfileStore d p s ∧ pendingOf s d.mb.val < 32 ∧ (let c := cmdOf specProfileStore d p s; c.u 16 1 ≤ 3 ∧ s.boot.stageOwner = some c.mb ∧ stagedBad (memRead s.boot.stageBuf 0 65536) = none)) ∧
    (∃ (s : State) (d : Doorbell) (p : List Byte), Ready specProfileLoad d p s ∧ pendingOf s d.mb.val < 32 ∧ (let c := cmdOf specProfileLoad d p s; c.u 16 1 ≤ 3 ∧ c.u 17 1 = 0)) ∧
    (∃ (s : State) (d : Doorbell) (p : List Byte), Ready specHrConfig d p s ∧ (let c := cmdOf specHrConfig d p s; c.u 16 1 ≤ 63 ∧ bit (c.u 19 1) 0 = true ∧ hrConfigOk c = true ∧ (getRing s (c.u 16 1)).enabled = false ∧ c.u 17 1 ≠ 3)) ∧
    (∃ (s : State) (d : Doorbell) (p : List Byte), Ready specHrConfig d p s ∧ (let c := cmdOf specHrConfig d p s; c.u 16 1 ≤ 63 ∧ bit (c.u 19 1) 0 = true ∧ hrConfigOk c = true ∧ (getRing s (c.u 16 1)).enabled = false ∧ c.u 17 1 = 3)) ∧
    (∃ (s : State) (d : Doorbell) (p : List Byte), Ready specHrConfig d p s ∧ (let c := cmdOf specHrConfig d p s; c.u 16 1 ≤ 63 ∧ bit (c.u 19 1) 0 = false ∧ (getRing s (c.u 16 1)).enabled = true)) ∧
    (∃ (s : State) (d : Doorbell) (p : List Byte), Ready specHrStatus d p s ∧ (let c := cmdOf specHrStatus d p s; c.u 16 1 ≤ 63)) ∧
    (∃ (s : State) (d : Doorbell) (p : List Byte), Ready specEventRoute d p s ∧ (let c := cmdOf specEventRoute d p s; c.u 16 1 ≤ 0x1F ∧ c.u 16 1 ≠ 7 ∧ (c.u 17 1 = 0xFF ∨ (32 ≤ c.u 17 1 ∧ c.u 17 1 ≤ 63 ∧ (getRing s (c.u 17 1)).type = 3)))) ∧
    (∃ (s : State) (d : Doorbell) (p : List Byte), Ready specGpioSet d p s) ∧
    (∃ (s : State) (d : Doorbell) (p : List Byte) (levels : W16), Ready specGpioGet d p (s.onPwr fun x => { x with gpioIn := levels })) :=
  ⟨⟨live 4, bell 0, [], ready_of_readyOk (by decide +kernel)⟩,
   ⟨live 4, bell 4, fields 4 [(16, 1, 2)], ready_of_readyOk (by decide +kernel), by decide +kernel⟩,
   ⟨live 4, bell 8, fields 8 [(16, 1, 3), (18, 2, 16), (20, 4, 65520)], ready_of_readyOk (by decide +kernel), by decide +kernel⟩,
   ⟨live 4, bell 12, fields 12 ([(16, 4, 0), (20, 2, 4), (24, 4, 0x01020304)]), ready_of_readyOk (by decide +kernel), by decide +kernel⟩,
   ⟨{ live 4 with boot := { phase := .done, stage := 8, stageOwner := some 0 } }, bell 12, fields 12 ([(16, 4, 65532), (20, 2, 4), (24, 4, 0x01020304)]), ready_of_readyOk (by decide +kernel), by decide +kernel⟩,
   ⟨{ live 4 with boot := { phase := .done, stage := 8, stageOwner := some 0, stageBuf := memWrite [] 0 [0x54, 0x46, 0x50, 0x31, 1, 0, 3, 0, 64, 0, 0, 0] } }, bell 4, fields 4 [(16, 1, 1)], ready_of_readyOk (by decide +kernel), by decide +kernel, by decide +kernel⟩,
   ⟨live 4, bell 4, fields 4 [(16, 1, 1)], ready_of_readyOk (by decide +kernel), by decide +kernel, by decide +kernel⟩,
   ⟨live 4, bell 28, fields 28 [(16, 1, 1), (17, 1, 1), (18, 1, 5), (19, 1, 1), (20, 1, 4), (24, 8, 4096), (32, 8, 8), (42, 2, 1)], ready_of_readyOk (by decide +kernel), by decide +kernel⟩,
   ⟨live 4, bell 28, fields 28 [(16, 1, 33), (17, 1, 3), (18, 1, 5), (19, 1, 1), (20, 1, 4), (24, 8, 4096), (32, 8, 8), (42, 2, 1)], ready_of_readyOk (by decide +kernel), by decide +kernel⟩,
   ⟨{ live 4 with host := { link := true, rings := [(1, { type := 1, enabled := true })] } }, bell 4, fields 4 [(16, 1, 1)], ready_of_readyOk (by decide +kernel), by decide +kernel⟩,
   ⟨live 4, bell 4, fields 4 [(16, 1, 1)], ready_of_readyOk (by decide +kernel), by decide +kernel⟩,
   ⟨{ live 4 with host := { link := true, rings := [(33, { type := 3 })] } }, bell 4, fields 4 [(16, 1, 2), (17, 1, 33)], ready_of_readyOk (by decide +kernel), by decide +kernel⟩,
   ⟨live 4, bell 0, [], ready_of_readyOk (by decide +kernel)⟩,
   ⟨live 4, bell 0, [], 5, ready_of_readyOk (by decide +kernel)⟩⟩

/-- The conditions of `ProfileEndsAnswerTheirCommands` can be met. -/
theorem witness_ProfileEndsAnswerTheirCommands :
    (∃ (s : State) (prof : BitVec 2) (img : List Byte), Tab.get? s.boot.storeJobs prof.toNat = some img ∧ badWords s (0x10000 * prof.toNat) img.length = 0 ∧ findLong (mramWrite (0x10000 * prof.toNat) img s) 0x0104 (fun c => c.u 16 1 == prof.toNat) = none) ∧
    (∃ (s : State) (prof : BitVec 2) (r : Nat), s.boot.loader = none ∧ Tab.get? s.boot.loadJobs prof.toNat = some r ∧ profReason s prof.toNat = 0 ∧ findLong s 0x0103 (fun c => c.u 16 1 == prof.toNat) = none) :=
  ⟨⟨{ live 4 with boot := { storeJobs := [(1, [1, 2, 3])] } }, 1, [1, 2, 3], by decide +kernel⟩,
   ⟨{ live 4 with boot := { loadJobs := [(1, 0)], mram := memWrite [] 0x10000 (let b := patch (List.replicate 64 0) 0 [0x54, 0x46, 0x50, 0x31, 1, 0, 3, 0, 64]; patch b 56 (le 4 (imageCrc b) ++ le 4 0xA5C33C5A)) } }, 1, 0, by decide +kernel⟩⟩

/-- The conditions of `DomainsAndHandshakeTakeEffect` can be met. -/
theorem witness_DomainsAndHandshakeTakeEffect :
    (∃ (s : State) (dom : Fin 8), s.modes.mode = 3 ∧ (getDom s dom.val).st = 3 ∧ s.modes.doms.length = 8) ∧
    (∃ (s : State) (dom : Fin 8) (upStep : Nat), (getDom s dom.val).st = 2 ∧ (upStep = 1 ∨ upStep = 2) ∧ (getDom s dom.val).retrying = false ∧ s.modes.doms.length = 8) ∧
    (∃ (s : State) (dom : Fin 8) (upStep : Nat), (getDom s dom.val).st = 2 ∧ (upStep = 1 ∨ upStep = 2) ∧ (getDom s dom.val).retrying = true ∧ s.modes.doms.length = 8 ∧ domNeeded dom.val s = false) ∧
    (∃ (s : State) (dom : Fin 8), (getDom s dom.val).st = 0 ∧ (getDom s dom.val).retrying = true ∧ s.modes.doms.length = 8) ∧
    (∃ (s : State) (agent : Fin 16) (ans : AgentAns), awaits s agent.val = true ∧ ans = .accept ∧ s.modes.trans.bind (fun t => agentRefusal s t agent.val) = none ∧ (updAt s.modes.agents agent.val fun x => { x with st := .accepted }).all (fun x => x.st == .accepted) = false) ∧
    (∃ (s : State) (agent : Fin 16) (ans : AgentAns) (t : Trans) (r : Nat), awaits s agent.val = true ∧ s.modes.trans = some t ∧ t.by_ = .wake ∧ agentRefusal s t agent.val = some r) ∧
    (∃ (s : State) (agent : Fin 16) (t : Trans), awaits s agent.val = true ∧ s.modes.trans = some t ∧ t.by_ = .wake) ∧
    (∃ (s : State) (agent : Fin 16) (t : Trans) (us : Nat), s.modes.trans = some t ∧ (s.modes.agents.getD agent.val {}).st = .delayed us ∧ t.handshaking = true ∧ t.committed = false) :=
  ⟨⟨{ live 3 with modes := { mode := 3, doms := List.replicate 8 { st := 3 } } }, 4, by decide +kernel⟩,
   ⟨{ live 5 with modes := { mode := 5, doms := List.replicate 8 { st := 2 } } }, 4, 1, by decide +kernel⟩,
   ⟨{ live 3 with modes := { mode := 3, doms := List.replicate 8 { st := 2, retrying := true } } }, 5, 2, by decide +kernel⟩,
   ⟨{ live 3 with modes := { mode := 3, doms := List.replicate 8 { retrying := true } } }, 5, by decide +kernel⟩,
   ⟨{ live 4 with modes := { mode := 4, trans := some { by_ := .wake, final := 5, stage := 5, handshaking := true }, agents := List.replicate 16 { st := .waiting } } }, 2, .accept, by decide +kernel⟩,
   ⟨{ live 4 with modes := { mode := 4, trans := some { by_ := .wake, final := 5, stage := 5, handshaking := true }, agents := List.replicate 16 { st := .waiting } }, boot := { storeJobs := [(1, [1])] } }, 0, .accept, { by_ := .wake, final := 5, stage := 5, handshaking := true }, 4, by decide +kernel⟩,
   ⟨{ live 4 with modes := { mode := 4, trans := some { by_ := .wake, final := 5, stage := 5, handshaking := true }, agents := List.replicate 16 { st := .waiting } } }, 2, { by_ := .wake, final := 5, stage := 5, handshaking := true }, by decide +kernel⟩,
   ⟨{ live 4 with modes := { mode := 4, trans := some { by_ := .wake, final := 5, stage := 5, handshaking := true }, agents := List.replicate 16 { st := .delayed 5 } } }, 2, { by_ := .wake, final := 5, stage := 5, handshaking := true }, 5, by decide +kernel⟩⟩

/-- The conditions of `Family02CommandsAnswer` can be met. -/
theorem witness_Family02CommandsAnswer :
    (∃ (s : State) (d : Doorbell) (p : List Byte), Ready specModeSet d p s ∧ (let c := cmdOf specModeSet d p s; 3 ≤ c.u 16 1 ∧ c.u 16 1 < 7 ∧ c.u 16 1 = s.modes.mode)) ∧
    (∃ (s : State) (d : Doorbell) (p : List Byte), Ready specModeSet d p s ∧ pendingOf s d.mb.val < 32 ∧ (let c := cmdOf specModeSet d p s; s.modes.mode = 4 ∧ c.u 16 1 = 5 ∧ failedFor s 5 = none)) ∧
    (∃ (s : State) (d : Doorbell) (p : List Byte), Ready specModeSet d p s ∧ pendingOf s d.mb.val < 32 ∧ (let c := cmdOf specModeSet d p s; c.u 16 1 = 7 ∧ 3 ≤ s.modes.mode ∧ s.modes.mode ≤ 6)) ∧
    (∃ (s : State) (d : Doorbell) (p : List Byte), Ready specModeGet d p s) ∧
    (∃ (s : State) (d : Doorbell) (p : List Byte), Ready specPwrStats d p s ∧ (let c := cmdOf specPwrStats d p s; bit (c.u 16 1) 0 = false)) ∧
    (∃ (s : State) (d : Doorbell) (p : List Byte), Ready specPwrStats d p s ∧ (let c := cmdOf specPwrStats d p s; bit (c.u 16 1) 0 = true)) ∧
    (∃ (s : State) (d : Doorbell) (p : List Byte), Ready specDomainStatus d p s) ∧
    (∃ (s : State) (d : Doorbell) (p : List Byte), Ready specWakeConfig d p s ∧ (let c := cmdOf specWakeConfig d p s; (c.u 17 1 = 4 ∨ c.u 17 1 = 5) ∧ 1 ≤ c.u 18 2 ∧ c.u 18 2 ≤ 1000)) ∧
    (∃ (s : State) (d : Doorbell) (p : List Byte), Ready specVigilConfig d p s ∧ (let c := cmdOf specVigilConfig d p s; (c.u 16 1 ≤ 5 ∨ c.u 16 1 = 0xFF) ∧ c.u 18 2 ≤ 16383)) :=
  ⟨⟨live 4, bell 4, fields 4 [(16, 1, 4)], ready_of_readyOk (by decide +kernel), by decide +kernel⟩,
   ⟨live 4, bell 4, fields 4 [(16, 1, 5)], ready_of_readyOk (by decide +kernel), by decide +kernel, by decide +kernel⟩,
   ⟨live 5, bell 4, fields 4 [(16, 1, 7)], ready_of_readyOk (by decide +kernel), by decide +kernel, by decide +kernel⟩,
   ⟨live 4, bell 0, [], ready_of_readyOk (by decide +kernel)⟩,
   ⟨live 4, bell 0, [], ready_of_readyOk (by decide +kernel), by decide +kernel⟩,
   ⟨live 4, bell 4, fields 4 [(16, 1, 1)], ready_of_readyOk (by decide +kernel), by decide +kernel⟩,
   ⟨live 4, bell 0, [], ready_of_readyOk (by decide +kernel)⟩,
   ⟨live 4, bell 4, fields 4 [(17, 1, 4), (18, 2, 10)], ready_of_readyOk (by decide +kernel), by decide +kernel⟩,
   ⟨live 4, bell 4, fields 4 [(16, 1, 255), (18, 2, 0)], ready_of_readyOk (by decide +kernel), by decide +kernel⟩⟩

/-- The conditions of `Family1FCommandsAnswer` can be met. -/
theorem witness_Family1FCommandsAnswer :
    (∃ (s : State) (d : Doorbell) (p : List Byte), Ready specLogRead d p s ∧ (let c := cmdOf specLogRead d p s; c.u 16 1 = 0 ∧ 1 ≤ c.u 17 1 ∧ c.u 17 1 ≤ 7 ∧ (((s.evt.log.reverse.map recBytes).filter fun r => (fld r 4 4 + 2 ^ 32 - c.u 20 4) % 2 ^ 32 < 2 ^ 31).take (c.u 17 1)).isEmpty = true)) ∧
    (∃ (s : State) (d : Doorbell) (p : List Byte), Ready specLogRead d p s ∧ (let c := cmdOf specLogRead d p s; c.u 16 1 = 0 ∧ 1 ≤ c.u 17 1 ∧ c.u 17 1 ≤ 7 ∧ (((s.evt.log.reverse.map recBytes).filter fun r => (fld r 4 4 + 2 ^ 32 - c.u 20 4) % 2 ^ 32 < 2 ^ 31).take (c.u 17 1)).isEmpty = false)) ∧
    (∃ (s : State) (d : Doorbell) (p : List Byte), Ready specFaultRead d p s ∧ (let c := cmdOf specFaultRead d p s; c.u 16 1 ≤ 15 ∧ c.u 18 2 % 16 = 0 ∧ c.u 18 2 ≤ 496 ∧ c.u 20 2 % 16 = 0 ∧ 16 ≤ c.u 20 2 ∧ c.u 20 2 ≤ 480 ∧ c.u 18 2 + c.u 20 2 ≤ 512 ∧ slotValid (slotBytes s (c.u 16 1)) = true)) ∧
    (∃ (s : State) (d : Doorbell) (p : List Byte), Ready specCounterRead d p s ∧ (let c := cmdOf specCounterRead d p s; c.u 16 1 + c.u 17 1 ≤ 29 ∧ bit (c.u 18 1) 0 = false)) ∧
    (∃ (s : State) (d : Doorbell) (p : List Byte), Ready specCounterRead d p s ∧ (let c := cmdOf specCounterRead d p s; c.u 16 1 + c.u 17 1 ≤ 29 ∧ bit (c.u 18 1) 0 = true)) ∧
    (∃ (s : State) (d : Doorbell) (p : List Byte), Ready specStatusRead d p s) ∧
    (∃ (s : State) (d : Doorbell) (p : List Byte), Ready specWatchdogSet d p s ∧ (let c := cmdOf specWatchdogSet d p s; (c.u 16 2 = 0 ∨ (10 ≤ c.u 16 2 ∧ c.u 16 2 ≤ 10000)) ∧ (c.u 18 2 = 0 ∨ (100 ≤ c.u 18 2 ∧ c.u 18 2 ≤ 60000)) ∧ autoMaskOk (c.u 20 2) = true ∧ c.u 22 2 ≤ 60000 ∧ 1 ≤ c.u 24 1 ∧ c.u 24 1 ≤ 16 ∧ 60 ≤ c.u 25 1 ∧ c.u 25 1 + 5 ≤ tjShutdown)) ∧
    (∃ (s : State) (d : Doorbell) (p : List Byte), Ready specLogClear d p s ∧ pendingOf s d.mb.val < 32 ∧ (let c := cmdOf specLogClear d p s; c.u 20 4 = 0x52535452)) ∧
    (∃ (s : State) (l : LongCmd), findLong s 0x1F06 = some l ∧ l.cmd.path = .bar) ∧
    (∃ (s : State), findLong s 0x1F06 = none) :=
  ⟨⟨live 4, bell 4, fields 4 [(17, 1, 1)], ready_of_readyOk (by decide +kernel), by decide +kernel⟩,
   ⟨{ live 4 with evt := { log := [{ code := 0x0183, sev := 1, seq := 5, ts := 1, beat := 2, offset := 3 }] } }, bell 8, fields 8 [(17, 1, 1), (20, 4, 5)], ready_of_readyOk (by decide +kernel), by decide +kernel⟩,
   ⟨faulted, bell 8, fields 8 [(16, 1, 0), (18, 2, 496), (20, 2, 16)], ready_of_readyOk (by decide +kernel), ⟨by decide +kernel, by decide +kernel, by decide +kernel, by decide +kernel, by decide +kernel, by decide +kernel, by decide +kernel, faulted_valid (by decide +kernel)⟩⟩,
   ⟨live 4, bell 4, fields 4 [(16, 1, 3), (17, 1, 2)], ready_of_readyOk (by decide +kernel), by decide +kernel⟩,
   ⟨live 4, bell 4, fields 4 [(16, 1, 3), (17, 1, 26), (18, 1, 1)], ready_of_readyOk (by decide +kernel), by decide +kernel⟩,
   ⟨live 4, bell 0, [], ready_of_readyOk (by decide +kernel)⟩,
   ⟨live 4, bell 12, fields 12 [(16, 2, 100), (18, 2, 1000), (20, 2, 0x10), (22, 2, 1000), (24, 1, 3), (25, 1, 90)], ready_of_readyOk (by decide +kernel), ⟨by decide +kernel, by decide +kernel, by decide +kernel, by decide +kernel, by decide +kernel, by decide +kernel, by decide +kernel, by unfold tjShutdown; split <;> decide +kernel⟩⟩,
   ⟨live 4, bell 8, fields 8 [(20, 4, 0x52535452)], ready_of_readyOk (by decide +kernel), by decide +kernel, by decide +kernel⟩,
   ⟨{ live 4 with mbx := { longs := [{ cmd := { op := 0x1F06, par := [3] } }] } }, { cmd := { op := 0x1F06, par := [3] } }, by decide +kernel⟩,
   ⟨live 4, by decide +kernel⟩⟩

/-- The conditions of `Family03CommandsAnswer` can be met. -/
theorem witness_Family03CommandsAnswer :
    (∃ (s : State) (d : Doorbell) (p : List Byte), Ready specCadSourceSet d p s ∧ (let c := cmdOf specCadSourceSet d p s; c.u 16 1 = s.cad.source ∧ s.cad.source = 0 ∧ c.u 17 1 = s.cad.bpCode ∧ s.cad.bpCode ≤ 4 ∧ 2 ≤ c.u 18 1 ∧ c.u 18 1 ≤ 16 ∧ 100 ≤ c.u 20 4 ∧ c.u 20 4 ≤ 10000 ∧ c.u 24 8 = s.cad.epoch ∧ c.u 32 2 ≤ 10000 ∧ 8 ≤ c.u 34 2 ∧ c.u 34 2 ≤ 1024 ∧ c.u 36 2 ≤ 1000 ∧ c.u 40 4 ≤ 1000000)) ∧
    (∃ (s : State) (d : Doorbell) (p : List Byte), Ready specCadSourceSet d p s ∧ (let c := cmdOf specCadSourceSet d p s; c.u 16 1 = 0 ∧ s.cad.source ≠ 0 ∧ s.cad.state ≠ 2 ∧ c.u 17 1 = s.cad.bpCode ∧ s.cad.bpCode ≤ 4 ∧ 2 ≤ c.u 18 1 ∧ c.u 18 1 ≤ 16 ∧ 100 ≤ c.u 20 4 ∧ c.u 20 4 ≤ 10000 ∧ c.u 32 2 ≤ 10000 ∧ 8 ≤ c.u 34 2 ∧ c.u 34 2 ≤ 1024 ∧ c.u 36 2 ≤ 1000 ∧ c.u 40 4 ≤ 1000000)) ∧
    (∃ (s : State) (d : Doorbell) (p : List Byte), Ready specCadStatus d p s) ∧
    (∃ (s : State) (d : Doorbell) (p : List Byte), Ready specTimeGet d p s) ∧
    (∃ (s : State) (d : Doorbell) (p : List Byte), Ready specTimeStep d p s ∧ (let c := cmdOf specTimeStep d p s; c.u 16 8 ≠ 0 ∧ s.modes.mode ≠ 3 ∧ s.modes.mode ≠ 7 ∧ s.modes.mode ≠ 5 ∧ s.cad.source = 3)) ∧
    (∃ (s : State) (d : Doorbell) (p : List Byte), Ready specTimeAdjust d p s ∧ (let c := cmdOf specTimeAdjust d p s; 0xFFF2E48F ≤ c.u 16 8 ∧ c.u 16 8 ≤ 0x1000D1B71 ∧ s.modes.mode ≠ 3 ∧ s.modes.mode ≠ 7 ∧ s.cad.source = 3)) ∧
    (∃ (s : State) (d : Doorbell) (p : List Byte), Ready specPtpConfig d p s ∧ (let c := cmdOf specPtpConfig d p s; c.u 16 1 = 0xFF ∧ c.u 17 1 ≤ 2 ∧ -7 ≤ c.i 19 1 ∧ c.i 19 1 ≤ 0 ∧ -7 ≤ c.i 20 1 ∧ c.i 20 1 ≤ 4 ∧ c.u 22 2 ≤ 4094 ∧ s.cad.source ≠ 1)) ∧
    (∃ (s : State) (d : Doorbell) (p : List Byte), Ready specPtpConfig d p s ∧ (let c := cmdOf specPtpConfig d p s; c.u 16 1 ≤ 3 ∧ (s.tm.ports.getD (c.u 16 1) {}).enable = true ∧ c.u 17 1 ≤ 2 ∧ -7 ≤ c.i 19 1 ∧ c.i 19 1 ≤ 0 ∧ -7 ≤ c.i 20 1 ∧ c.i 20 1 ≤ 4 ∧ c.u 22 2 ≤ 4094 ∧ s.cad.source ≠ 1)) ∧
    (∃ (s : State) (d : Doorbell) (p : List Byte), Ready specCadMasterSet d p s ∧ (let c := cmdOf specCadMasterSet d p s; c.u 16 1 ≤ 1 ∧ 100 ≤ c.u 18 2 ∧ c.u 18 2 ≤ 10000 ∧ 2 * c.u 18 2 ≤ bpNs s ∧ c.u 20 2 ≤ 1000)) ∧
    (∃ (s : State) (d : Doorbell) (p : List Byte), Ready specHoldoverConfig d p s ∧ (let c := cmdOf specHoldoverConfig d p s; 1 ≤ c.u 16 4 ∧ c.u 16 4 ≤ 1000000 ∧ 1 ≤ c.u 20 4 ∧ c.u 20 4 ≤ 10000 ∧ 100 ≤ c.u 24 4 ∧ c.u 24 4 ≤ 100000 ∧ c.u 28 1 ≤ 4 ∧ s.cad.state ≠ 2 ∧ s.cad.state ≠ 3)) ∧
    (∃ (s : State) (d : Doorbell) (p : List Byte), Ready specTsRead d p s ∧ (let c := cmdOf specTsRead d p s; c.u 16 1 ≤ 4 ∧ 1 ≤ c.u 17 1 ∧ c.u 17 1 ≤ 16 ∧ (s.tm.ports.getD (c.u 16 1) {}).enable = true ∧ (s.clk.tsq.getD (c.u 16 1) {}).entries = [])) :=
  ⟨⟨live 4, bell 28, fields 28 [(16, 1, 0), (17, 1, 2), (18, 1, 4), (20, 4, 1000), (24, 8, 0), (32, 2, 0), (34, 2, 64), (36, 2, 500), (40, 4, 5)], ready_of_readyOk (by decide +kernel), by decide +kernel⟩,
   ⟨{ live 4 with cad := { run := true, source := 3 } }, bell 28, fields 28 [(16, 1, 0), (17, 1, 2), (18, 1, 4), (20, 4, 2000), (24, 8, 9), (32, 2, 0), (34, 2, 64), (36, 2, 500), (40, 4, 5)], ready_of_readyOk (by decide +kernel), by decide +kernel⟩,
   ⟨live 4, bell 0, [], ready_of_readyOk (by decide +kernel)⟩,
   ⟨live 4, bell 0, [], ready_of_readyOk (by decide +kernel)⟩,
   ⟨{ live 4 with cad := { run := true, source := 3 } }, bell 8, fields 8 [(16, 8, 5)], ready_of_readyOk (by decide +kernel), by decide +kernel⟩,
   ⟨{ live 4 with cad := { run := true, source := 3 } }, bell 8, fields 8 [(16, 8, 0x100000001)], ready_of_readyOk (by decide +kernel), by decide +kernel⟩,
   ⟨live 4, bell 20, fields 20 [(16, 1, 255), (17, 1, 1), (18, 1, 3), (19, 1, 252), (20, 1, 0), (21, 1, 1), (22, 2, 5), (24, 4, 9), (32, 1, 7)], ready_of_readyOk (by decide +kernel), by decide +kernel⟩,
   ⟨{ live 4 with tm := { ports := [{ enable := true }] } }, bell 8, fields 8 [(16, 1, 0), (17, 1, 2), (18, 1, 3), (19, 1, 252), (20, 1, 4)], ready_of_readyOk (by decide +kernel), by decide +kernel⟩,
   ⟨live 4, bell 8, fields 8 [(16, 1, 1), (18, 2, 1000), (20, 2, 10)], ready_of_readyOk (by decide +kernel), by decide +kernel⟩,
   ⟨live 4, bell 16, fields 16 [(16, 4, 100), (20, 4, 10), (24, 4, 1000), (28, 1, 2)], ready_of_readyOk (by decide +kernel), by decide +kernel⟩,
   ⟨{ live 4 with tm := { ports := [{ enable := true }] } }, bell 4, fields 4 [(16, 1, 0), (17, 1, 1)], ready_of_readyOk (by decide +kernel), by decide +kernel⟩⟩

/-- The conditions of `CadenceMarksTakeEffect` can be met. -/
theorem witness_CadenceMarksTakeEffect :
    (∃ (s : State) (t : Nat) (frame : W64), marksOn s = true ∧ s.cad.source = 0 ∧ s.cad.state ≠ 1 ∧ cadFrameOk frame = false) ∧
    (∃ (s : State) (t : Nat) (frame : W64), marksOn s = true ∧ s.cad.source = 0 ∧ s.cad.state = 1 ∧ cadFrameOk frame = true ∧ frame.toNat / 2 ^ 13 % 8 = s.cad.bpCode ∧ (markBeat s ((t : Int) - s.cad.inDelay)).1 = frame.toNat / 2 ^ 16 ∧ s.cad.decided ≠ some (frame.toNat / 2 ^ 16) ∧ -(s.cad.tol : Int) ≤ (markBeat s ((t : Int) - s.cad.inDelay)).2 ∧ (markBeat s ((t : Int) - s.cad.inDelay)).2 < s.cad.tol) ∧
    (∃ (s : State) (t : Nat), marksOn s = true ∧ s.cad.source = 0 ∧ s.cad.state ≠ 1) ∧
    (∃ (s : State), marksOn s = true ∧ s.cad.state = 1 ∧ s.cad.consec = 0) ∧
    (∃ (s : State), s.cad.state = 6 ∧ s.cad.realign = .slew) ∧
    (∃ (s : State), s.cad.state = 2) :=
  ⟨⟨live 5, 100, 1, by decide +kernel⟩,
   ⟨{ live 5 with cad := { run := true, state := 1 } }, 5 * bpNs (live 5), (let f := 5 * 2 ^ 16 + 2 * 2 ^ 13; BitVec.ofNat 64 (f + crc8 (be 7 (f / 256)))), by decide +kernel⟩,
   ⟨live 5, 100, by decide +kernel⟩,
   ⟨{ live 5 with cad := { run := true, state := 1 } }, by decide +kernel⟩,
   ⟨{ live 5 with cad := { run := true, state := 6, realign := .slew } }, by decide +kernel⟩,
   ⟨{ live 5 with cad := { run := true, state := 2 } }, by decide +kernel⟩⟩

/-- The conditions of `TimeEventsTakeEffect` can be met. -/
theorem witness_TimeEventsTakeEffect :
    (∃ (s : State) (gm : Announce), ptpOn s = true ∧ gm.timescaleArb = false ∧ s.clk.gm = none) ∧
    (∃ (s : State) (t1 t2 corr : Int), ptpOn s = true ∧ s.clk.gm.isSome = true ∧ s.clk.delay = none ∧ s.cad.state ≠ 1) ∧
    (∃ (s : State) (t3 : Int), ptpOn s = true ∧ s.clk.gm.isSome = true) ∧
    (∃ (s : State) (t4 corr : Int) (t1 t2 t3 : Int), ptpOn s = true ∧ s.clk.sync = some (t1, t2) ∧ s.clk.t3 = some t3) ∧
    (∃ (s : State) (trim : Int), s.cad.run = true ∧ s.modes.mode ≠ 3) ∧
    (∃ (s : State), s.host.link = true) ∧
    (∃ (s : State), s.cad.stepSum = some 0 ∧ s.modes.mode ≠ 3) ∧
    (∃ (s : State) (d : Int), s.cad.stepSum = some d ∧ d ≠ 0 ∧ s.modes.mode ≠ 3) :=
  ⟨⟨{ live 5 with cad := { run := true, source := 1 }, clk := { ptpPort := 0 } }, { prio1 := 1, cls := 2, accuracy := 3, variance := 4, prio2 := 5, identity := 6, steps := 7, timescaleArb := false }, by decide +kernel⟩,
   ⟨{ live 5 with cad := { run := true, source := 1 }, clk := { ptpPort := 0, gm := some { prio1 := 1, cls := 2, accuracy := 3, variance := 4, prio2 := 5, identity := 6 } } }, 10, 20, 1, by decide +kernel⟩,
   ⟨{ live 5 with cad := { run := true, source := 1 }, clk := { ptpPort := 0, gm := some { prio1 := 1, cls := 2, accuracy := 3, variance := 4, prio2 := 5, identity := 6 } } }, 30, by decide +kernel⟩,
   ⟨{ live 5 with cad := { run := true, source := 1 }, clk := { ptpPort := 0, sync := some (10, 20), t3 := some 30 } }, 50, 2, 10, 20, 30, by decide +kernel⟩,
   ⟨live 5, 7, by decide +kernel⟩,
   ⟨live 5, by decide +kernel⟩,
   ⟨{ live 5 with cad := { run := true, stepSum := some 0 } }, by decide +kernel⟩,
   ⟨{ live 5 with cad := { run := true, stepSum := some 5 } }, 5, by decide +kernel⟩⟩

/-- The conditions of `FaultEventsTakeEffect` can be met. -/
theorem witness_FaultEventsTakeEffect :
    (∃ (s : State) (sensor : Nat) (q : Int), s.pwr.vddAon = true ∧ sensor < 36) ∧
    (∃ (s : State) (cls : Nat) (addr : W32) (victim : SramVictim), 2 ≤ s.modes.mode ∧ s.modes.mode ≤ 6 ∧ cls < 3) ∧
    (∃ (s : State) (cls : Nat) (addr : W32) (victim : SramVictim) (i : Nat), 2 ≤ s.modes.mode ∧ cls = 5 ∧ victim = .src i) ∧
    (∃ (s : State) (cls : Nat) (addr : W32) (victim : SramVictim), 2 ≤ s.modes.mode ∧ cls = 5 ∧ victim = .filter) ∧
    (∃ (s : State) (cls : Nat) (addr : W32) (victim : SramVictim), 2 ≤ s.modes.mode ∧ cls = 4 ∧ victim = .matcher) ∧
    (∃ (s : State), s.pwr.refclkSerdes = true ∧ s.modes.mode = 1 ∧ s.outs.z = false) :=
  ⟨⟨live 5, 35, 100, by decide +kernel⟩,
   ⟨live 5, 2, 0, .none, by decide +kernel⟩,
   ⟨{ live 5 with fwd := { src := [] } }, 5, 0, .src 0, 0, by decide +kernel⟩,
   ⟨live 5, 5, 0, .filter, by decide +kernel⟩,
   ⟨live 5, 4, 0, .matcher, by decide +kernel⟩,
   ⟨live 1, by decide +kernel⟩⟩

/-- The conditions of `Family04CommandsAnswer` can be met. -/
theorem witness_Family04CommandsAnswer :
    (∃ (s : State) (d : Doorbell) (p : List Byte), Ready specBandConfig d p s ∧ pendingOf s d.mb.val < 32 ∧ (let c := cmdOf specBandConfig d p s; c.u 16 1 ≤ 1 ∧ c.u 17 1 ≤ 3 ∧ c.u 20 1 < 2 ^ c.u 17 1 ∧ channelOk (c.u 16 1) (c.u 17 1) (c.u 18 2) = true ∧ s.modes.mode = 4)) ∧
    (∃ (s : State) (d : Doorbell) (p : List Byte), Ready specChainEnable d p s ∧ (let c := cmdOf specChainEnable d p s; c.u 16 1 ≤ 1 ∧ ((getBand s (c.u 16 1)).chains.all fun k => k.cause == 0) = true)) ∧
    (∃ (s : State) (d : Doorbell) (p : List Byte), Ready specTxpwrSet d p s ∧ (let c := cmdOf specTxpwrSet d p s; c.u 16 1 ≤ 1 ∧ c.u 18 1 ≤ 95 ∧ 1 ≤ c.u 19 1 ∧ c.u 18 1 + c.u 19 1 ≤ 96 ∧ badDrive c (getBand s (c.u 16 1)).femGain (c.u 18 1) (c.u 19 1) = none)) ∧
    (∃ (s : State) (d : Doorbell) (p : List Byte), Ready specFemConfig d p s ∧ (let c := cmdOf specFemConfig d p s; femConfigOk c = true)) ∧
    (∃ (s : State) (d : Doorbell) (p : List Byte), Ready specRffeAccess d p s ∧ (let c := cmdOf specRffeAccess d p s; c.u 16 1 ≤ 1 ∧ c.u 17 1 ≤ 2 ∧ c.u 18 1 ≤ 15 ∧ c.u 19 1 = 3 ∧ c.u 20 2 ≤ 0xFF ∧ 1 ≤ c.u 22 1 ∧ c.u 22 1 ≤ 4)) ∧
    (∃ (s : State) (d : Doorbell) (p : List Byte), Ready specCoexConfig d p s ∧ (let c := cmdOf specCoexConfig d p s; c.u 16 1 ≤ 2 ∧ 2 ≤ c.u 18 2 ∧ c.u 18 2 ≤ 100 ∧ c.u 20 1 ≤ 2)) ∧
    (∃ (s : State) (d : Doorbell) (p : List Byte), Ready specBlankMap d p s ∧ (let c := cmdOf specBlankMap d p s; c.u 20 2 ≤ 10000)) ∧
    (∃ (s : State) (d : Doorbell) (p : List Byte), Ready specChainStatus d p s ∧ (let c := cmdOf specChainStatus d p s; c.u 16 1 ≤ 1 ∧ 1 ≤ c.u 18 1 ∧ c.u 18 1 ≤ 48 ∧ c.u 17 1 + c.u 18 1 ≤ 96)) ∧
    (∃ (s : State) (d : Doorbell) (p : List Byte), Ready specFactoryTest d p s ∧ pendingOf s d.mb.val < 32 ∧ (let c := cmdOf specFactoryTest d p s; c.u 16 1 = 1 ∧ c.u 17 1 ≤ 1 ∧ c.u 18 1 ≤ 95 ∧ c.i 20 4 = 0 ∧ c.i 24 2 = 0 ∧ 1 ≤ c.u 26 2 ∧ c.u 26 2 ≤ 10000 ∧ opPending s 0x0501 = false)) ∧
    (∃ (s : State) (d : Doorbell) (p : List Byte), Ready specSpectrumSurvey d p s ∧ pendingOf s d.mb.val < 32 ∧ (let c := cmdOf specSpectrumSurvey d p s; c.u 16 1 = 0 ∧ c.u 17 1 ≤ 95 ∧ 5150 ≤ c.u 20 2 ∧ c.u 20 2 ≤ c.u 22 2 ∧ c.u 22 2 ≤ 5925 ∧ 100 ≤ c.u 24 4 ∧ c.u 24 4 ≤ 1000000 ∧ 32 ≤ c.u 28 1 ∧ c.u 28 1 ≤ 61 ∧ (getRing s (c.u 28 1)).type = 2)) ∧
    (∃ (s : State) (d : Doorbell) (p : List Byte), Ready specSoundingConfig d p s ∧ (let c := cmdOf specSoundingConfig d p s; c.u 16 1 ≤ 1 ∧ 2 ≤ c.u 18 2 ∧ c.u 18 2 ≤ 1000 ∧ c.u 18 2 ≤ c.u 20 2 ∧ c.u 20 2 ≤ 2000 ∧ c.u 22 1 ≤ 20 ∧ 1 ≤ c.u 23 1 ∧ c.u 23 1 ≤ 4 ∧ c.u 24 1 ≤ 1 ∧ c.u 25 1 ≤ 1 ∧ 100 ≤ c.u 26 2 ∧ c.u 26 2 ≤ 60000 ∧ c.u 28 1 ≤ 60)) ∧
    (∃ (s : State) (d : Doorbell) (p : List Byte), Ready specPrecodeConfig d p s ∧ (let c := cmdOf specPrecodeConfig d p s; c.u 16 1 ≤ 1 ∧ c.u 18 2 ≤ 256 ∧ 6 ≤ c.u 20 1 ∧ c.u 20 1 ≤ 20 ∧ c.u 21 1 ≤ 11 ∧ c.u 22 1 ≤ 3 ∧ c.u 23 1 ≤ 1 ∧ 1 ≤ c.u 25 1 ∧ c.u 25 1 ≤ 8 ∧ bit (c.u 24 1) (getBand s (c.u 16 1)).ch.primary = false ∧ punctOk (getBand s (c.u 16 1)).ch.width (c.u 24 1) = true)) ∧
    (∃ (s : State) (d : Doorbell) (p : List Byte), Ready specCsiRead d p s ∧ (let c := cmdOf specCsiRead d p s; c.u 16 1 = 2 ∧ c.u 17 1 ≤ 1 ∧ bit (c.u 22 1) 0 = true)) ∧
    (∃ (s : State) (d : Doorbell) (p : List Byte), Ready specCsiRead d p s ∧ (let c := cmdOf specCsiRead d p s; c.u 16 1 = 2 ∧ c.u 17 1 ≤ 1 ∧ bit (c.u 22 1) 0 = false)) ∧
    (∃ (s : State) (d : Doorbell) (p : List Byte), Ready specCsiRead d p s ∧ (let c := cmdOf specCsiRead d p s; c.u 16 1 = 0 ∧ c.u 17 1 ≤ 1 ∧ c.u 18 2 ≤ 2047 ∧ c.u 20 1 ≤ 3 ∧ c.u 21 1 < toneGroups (getBand s (c.u 17 1)).ch.width ∧ getSta s (c.u 18 2) = none)) :=
  ⟨⟨live 4, bell 8, fields 8 [(16, 1, 0), (17, 1, 1), (18, 2, 5190), (20, 1, 1), (21, 1, 1)], ready_of_readyOk (by decide +kernel), by decide +kernel, by decide +kernel⟩,
   ⟨live 4, bell 8, fields 8 [(16, 1, 1), (20, 1, 5)], ready_of_readyOk (by decide +kernel), by decide +kernel⟩,
   ⟨live 4, bell 8, fields 8 [(16, 1, 0), (18, 1, 3), (19, 1, 2), (20, 2, 10)], ready_of_readyOk (by decide +kernel), by decide +kernel⟩,
   ⟨live 4, bell 32, fields 32 [(16, 1, 0), (34, 2, 40), (44, 2, 10), (24, 2, 7)], ready_of_readyOk (by decide +kernel), by decide +kernel⟩,
   ⟨live 4, bell 12, fields 12 [(16, 1, 1), (17, 1, 2), (18, 1, 5), (19, 1, 3), (20, 2, 4), (22, 1, 2), (24, 2, 515)], ready_of_readyOk (by decide +kernel), by decide +kernel⟩,
   ⟨live 4, bell 8, fields 8 [(16, 1, 1), (17, 1, 3), (18, 2, 5), (20, 1, 2), (21, 1, 1)], ready_of_readyOk (by decide +kernel), by decide +kernel⟩,
   ⟨live 4, bell 8, fields 8 [(16, 1, 3), (19, 1, 9), (20, 2, 500)], ready_of_readyOk (by decide +kernel), by decide +kernel⟩,
   ⟨live 4, bell 4, fields 4 [(16, 1, 1), (17, 1, 10), (18, 1, 4)], ready_of_readyOk (by decide +kernel), by decide +kernel⟩,
   ⟨live 6, bell 12, fields 12 [(16, 1, 1), (17, 1, 1), (18, 1, 9), (26, 2, 5)], ready_of_readyOk (by decide +kernel), by decide +kernel, by decide +kernel⟩,
   ⟨{ live 6 with host := { link := true, rings := [(33, { type := 2, enabled := true })] } }, bell 16, fields 16 [(16, 1, 0), (17, 1, 3), (20, 2, 5200), (22, 2, 5300), (24, 4, 1000), (28, 1, 33)], ready_of_readyOk (by decide +kernel), by decide +kernel, by decide +kernel⟩,
   ⟨live 4, bell 16, fields 16 [(16, 1, 0), (18, 2, 3), (20, 2, 5), (22, 1, 1), (23, 1, 2), (26, 2, 200), (28, 1, 6)], ready_of_readyOk (by decide +kernel), by decide +kernel⟩,
   ⟨live 4, bell 12, fields 12 [(16, 1, 1), (18, 2, 7), (20, 1, 6), (21, 1, 3), (25, 1, 2)], ready_of_readyOk (by decide +kernel), by decide +kernel⟩,
   ⟨live 4, bell 8, fields 8 [(16, 1, 2), (17, 1, 1), (22, 1, 1)], ready_of_readyOk (by decide +kernel), by decide +kernel⟩,
   ⟨live 4, bell 4, fields 4 [(16, 1, 2), (17, 1, 1)], ready_of_readyOk (by decide +kernel), by decide +kernel⟩,
   ⟨live 4, bell 4, fields 4 [(16, 1, 0), (17, 1, 1), (18, 2, 9)], ready_of_readyOk (by decide +kernel), by decide +kernel⟩⟩

/-- The conditions of `RadioEventsTakeEffect` can be met. -/
theorem witness_RadioEventsTakeEffect :
    (∃ (s : State) (band : BandId) (bus : Nat) (parityOk : Bool) (data : List Byte) (x : Rffe), (getBand s band.num).rffe.getD bus [] = [x] ∧ x.op = 3 ∧ x.by_ = none) ∧
    (∃ (s : State) (band : BandId) (bus : Nat) (parityOk : Bool) (data : List Byte) (x : Rffe) (rest : List Rffe), (getBand s band.num).rffe.getD bus [] = x :: rest ∧ x.op = 4 ∧ parityOk = false ∧ x.retried = false) ∧
    (∃ (s : State) (band : BandId), s.modes.mode = 5 ∧ (getBand s band.num).cplReg ≠ 0xFFFF ∧ (getBand s band.num).mmGroup = none) ∧
    (∃ (s : State) (band : BandId) (rl : List Nat) (g : Nat), (getBand s band.num).mmGroup = some g) ∧
    (∃ (s : State) (band : BandId) (synth : Bool), ((getBand s band.num).synth (b2n synth) = 2 ∨ (getBand s band.num).synth (b2n synth) = 3) ∧ b2n synth ≠ (getBand s band.num).main ∧ 4 ≤ s.modes.mode ∧ s.modes.mode ≤ 6 ∧ (getBand s band.num).synth (getBand s band.num).main ≠ 4) ∧
    (∃ (s : State) (x : Nat × Nat × Nat), s.fe.test = some x) ∧
    (∃ (s : State) (bins : List Byte) (ch a z dwell r : Nat), s.fe.survey = some (0, ch, a, z, dwell, r) ∧ z ≤ a + 160) ∧
    (∃ (s : State) (bins : List Byte) (ch a z dwell r : Nat), s.fe.survey = some (0, ch, a, z, dwell, r) ∧ a + 160 < z) ∧
    (∃ (s : State) (band : BandId), rxOpen s band.num = true ∧ (getPhy s band.num).rx = 0) ∧
    (∃ (s : State) (band : BandId), (getPhy s band.num).rx = 1 ∨ (getPhy s band.num).rx = 2) ∧
    (∃ (s : State) (band : BandId) (rise : Int), (getPhy s band.num).restartEn = true ∧ (getPhy s band.num).rx = 2 ∧ ((getPhy s band.num).stepDb : Int) ≤ rise) :=
  ⟨⟨{ live 4 with fe := { m := { rffe := [[], [{ usid := 1, op := 3, addr := 2 }], []] } } }, .m, 1, true, [], { usid := 1, op := 3, addr := 2 }, by decide +kernel⟩,
   ⟨{ live 4 with fe := { m := { rffe := [[], [{ usid := 1, op := 4, addr := 2 }], []] } } }, .m, 1, false, [], { usid := 1, op := 4, addr := 2 }, [], by decide +kernel⟩,
   ⟨{ live 5 with fe := { m := { cplReg := 5 } } }, .m, by decide +kernel⟩,
   ⟨{ live 5 with fe := { m := { mmGroup := some 2 } } }, .m, [200, 200, 200, 200, 200, 200, 200, 200], 2, by decide +kernel⟩,
   ⟨{ live 5 with fe := { m := { sa := 1, sb := 2, main := 0 } } }, .m, true, by decide +kernel⟩,
   ⟨{ live 6 with fe := { test := some (0, 1, 5) } }, (0, 1, 5), by decide +kernel⟩,
   ⟨{ live 6 with fe := { survey := some (0, 3, 5200, 5300, 1000, 33) } }, [1, 2], 3, 5200, 5300, 1000, 33, by decide +kernel⟩,
   ⟨{ live 6 with fe := { survey := some (0, 3, 5200, 5400, 1000, 33) } }, [1, 2], 3, 5200, 5400, 1000, 33, by decide +kernel⟩,
   ⟨{ live 5 with fe := { m := { ch := { enable := true } } } }, .m, by decide +kernel⟩,
   ⟨{ live 5 with air := { phyH := { rx := 2 } } }, .h, by decide +kernel⟩,
   ⟨{ live 5 with air := { phyH := { rx := 2, restartEn := true } } }, .h, 12, by decide +kernel⟩⟩

/-- The conditions of `CalibrationRowsTakeEffect` can be met. -/
theorem witness_CalibrationRowsTakeEffect :
    (∃ (s : State) (d : Doorbell) (p : List Byte), Ready specCalRun d p s ∧ pendingOf s d.mb.val < 32 ∧ (let c := cmdOf specCalRun d p s; c.u 19 1 = 0 ∧ c.u 18 1 = 2 ∧ c.u 16 2 = 2)) ∧
    (∃ (s : State) (d : Doorbell) (p : List Byte), Ready specCalStatus d p s ∧ (let c := cmdOf specCalStatus d p s; c.u 16 1 = 2 ∧ c.u 17 1 = 0 ∧ c.u 18 1 = 1)) ∧
    (∃ (s : State) (d : Doorbell) (p : List Byte), Ready specCalSchedule d p s ∧ (let c := cmdOf specCalSchedule d p s; c.u 16 1 % 2 = 0 ∧ 4 ≤ c.u 16 1 ∧ c.u 16 1 ≤ 64 ∧ 1 ≤ c.u 17 1 ∧ c.u 17 1 ≤ 20 ∧ 100 ≤ c.u 18 2 ∧ c.u 18 2 ≤ 10000 ∧ c.u 20 2 = 0 ∧ 10 ≤ c.u 22 2 ∧ c.u 22 2 ≤ 3600 ∧ 1 ≤ c.u 24 1 ∧ c.u 24 1 ≤ 8 ∧ s.modes.mode ≠ 5)) ∧
    (∃ (s : State) (d : Doorbell) (p : List Byte), Ready specCalSchedule d p s ∧ (let c := cmdOf specCalSchedule d p s; c.u 16 1 % 2 = 0 ∧ 4 ≤ c.u 16 1 ∧ c.u 16 1 ≤ 64 ∧ 1 ≤ c.u 17 1 ∧ c.u 17 1 ≤ 20 ∧ 100 ≤ c.u 18 2 ∧ c.u 18 2 ≤ 10000 ∧ c.u 20 2 = 0 ∧ 10 ≤ c.u 22 2 ∧ c.u 22 2 ≤ 3600 ∧ 1 ≤ c.u 24 1 ∧ c.u 24 1 ≤ 8 ∧ s.modes.mode = 5)) ∧
    (∃ (s : State) (d : Doorbell) (p : List Byte), Ready specCalTableRead d p s ∧ (let c := cmdOf specCalTableRead d p s; c.u 16 1 = 0 ∧ c.u 17 1 ≤ 1 ∧ c.u 18 2 < 96 ∧ c.u 20 1 ≤ 8)) ∧
    (∃ (s : State) (d : Doorbell) (p : List Byte), Ready specCalTableStore d p s ∧ pendingOf s d.mb.val < 32) ∧
    (∃ (s : State) (d : Doorbell) (p : List Byte), Ready specSliceStatus d p s ∧ (let c := cmdOf specSliceStatus d p s; c.u 16 1 ≤ 1 ∧ c.u 17 1 ≤ 11)) ∧
    (∃ (s : State) (r : CalRun), s.cal.run = some r) ∧
    (∃ (s : State) (l : LongCmd), findLong s 0x0505 = some l ∧ bit (l.cmd.u 16 1) 0 = true ∧ l.cmd.path = .bar) ∧
    (∃ (s : State) (band : BandId) (matched : Bool) (fwd : List (Nat × Int)), s.modes.mode = 5 ∧ domOn s (bandDom band.num) = true ∧ gapBeat s band.num (curBeat s) = true ∧ ((List.range 12).find? fun g => (getGC s band.num g).replace.isSome) = none) ∧
    (∃ (s : State) (m : CalMeas), s.flt.summitRun = true ∧ s.modes.mode = 4 ∧ m.slice = false ∧ m.index < 192 ∧ 3 ≤ m.type ∧ m.type ≤ 7 ∧ m.aborted = true ∧ ((getBand s (ccBand m.index)).chains.getD (m.index % 96) {}).cause ≠ 0) ∧
    (∃ (s : State) (m : CalMeas), s.flt.summitRun = true ∧ s.modes.mode = 4 ∧ m.slice = false ∧ m.index < 192 ∧ m.type ≤ 2 ∧ m.aborted = true) ∧
    (∃ (s : State), s.modes.mode = 4 ∨ s.modes.mode = 5) ∧
    (∃ (s : State), s.flt.summitRun = true ∧ s.cal.storeS ≠ 0) :=
  ⟨⟨live 4, bell 8, fields 8 [(16, 2, 2), (18, 1, 2), (20, 1, 3)], ready_of_readyOk (by decide +kernel), by decide +kernel, by decide +kernel⟩,
   ⟨live 4, bell 4, fields 4 [(16, 1, 2), (18, 1, 1)], ready_of_readyOk (by decide +kernel), by decide +kernel⟩,
   ⟨live 4, bell 12, fields 12 [(16, 1, 4), (17, 1, 1), (18, 2, 100), (22, 2, 10), (24, 1, 1), (25, 1, 6)], ready_of_readyOk (by decide +kernel), by decide +kernel⟩,
   ⟨live 5, bell 12, fields 12 [(16, 1, 4), (17, 1, 1), (18, 2, 100), (22, 2, 10), (24, 1, 1), (25, 1, 6)], ready_of_readyOk (by decide +kernel), by decide +kernel⟩,
   ⟨live 4, bell 8, fields 8 [(16, 1, 0), (17, 1, 1), (18, 2, 3), (20, 1, 4)], ready_of_readyOk (by decide +kernel), by decide +kernel⟩,
   ⟨live 4, bell 0, [], ready_of_readyOk (by decide +kernel), by decide +kernel⟩,
   ⟨live 4, bell 4, fields 4 [(16, 1, 1), (17, 1, 2)], ready_of_readyOk (by decide +kernel), by decide +kernel⟩,
   ⟨{ live 4 with cal := { run := some { types := 2, band := 2, flags := 0, chains := [192] } } }, { types := 2, band := 2, flags := 0, chains := [192] }, by decide +kernel⟩,
   ⟨{ live 4 with mbx := { longs := [{ cmd := { op := 0x0505, par := [1] } }] } }, { cmd := { op := 0x0505, par := [1] } }, by decide +kernel⟩,
   ⟨{ live 5 with cal := { nextGroup := [3, 4] } }, .m, true, [(2, 5)], by decide +kernel⟩,
   ⟨{ live 4 with fe := { m := { chains := List.replicate 96 { cause := 1 } } } }, { slice := false, index := 5, type := 4, temp := 0, temp0 := 0, m1 := [], m2 := [], m3 := [], aborted := true }, by decide +kernel⟩,
   ⟨live 4, { slice := false, index := 5, type := 1, temp := 0, temp0 := 0, m1 := [], m2 := [], m3 := [], aborted := true }, by decide +kernel⟩,
   ⟨{ live 4 with cal := { bgTypes := 6 } }, by decide +kernel⟩,
   ⟨{ live 4 with cal := { edits := [(3, [1, 2])], storeS := 5 } }, by decide +kernel⟩⟩

/-- The conditions of `Family06CommandsAnswer` can be met. -/
theorem witness_Family06CommandsAnswer :
    (∃ (s : State) (d : Doorbell) (p : List Byte), Ready specStaAdd d p s ∧ (let c := cmdOf specStaAdd d p s; staOk c = true ∧ getSta s (c.u 16 2) = none ∧ addrTaken s (c.u 16 2) (staParm c) = false ∧ aidTaken s (c.u 16 2) (staParm c) = false)) ∧
    (∃ (s : State) (d : Doorbell) (p : List Byte), Ready specStaAdd d p s ∧ (let c := cmdOf specStaAdd d p s; staOk c = true ∧ (getSta s (c.u 16 2)).isSome = true)) ∧
    (∃ (s : State) (d : Doorbell) (p : List Byte) (x : Sta), Ready specStaModify d p s ∧ (let c := cmdOf specStaModify d p s; staOk c = true ∧ getSta s (c.u 16 2) = some x ∧ (staParm c).bss = x.p.bss ∧ (staParm c).aid = x.p.aid ∧ (staParm c).mld = x.p.mld ∧ (staParm c).addrM = x.p.addrM ∧ (staParm c).addrH = x.p.addrH)) ∧
    (∃ (s : State) (d : Doorbell) (p : List Byte), Ready specStaModify d p s ∧ (let c := cmdOf specStaModify d p s; staOk c = true ∧ getSta s (c.u 16 2) = none)) ∧
    (∃ (s : State) (d : Doorbell) (p : List Byte) (x : Sta), Ready specStaRemove d p s ∧ (let c := cmdOf specStaRemove d p s; c.u 16 2 ≤ 2047 ∧ getSta s (c.u 16 2) = some x ∧ (s.air.bfs.any fun f => f.2.p.sta = c.u 16 2) = false)) ∧
    (∃ (s : State) (d : Doorbell) (p : List Byte) (x : Sta), Ready specStaRemove d p s ∧ (let c := cmdOf specStaRemove d p s; c.u 16 2 ≤ 2047 ∧ getSta s (c.u 16 2) = some x ∧ (s.air.bfs.any fun f => f.2.p.sta = c.u 16 2) = true)) ∧
    (∃ (s : State) (d : Doorbell) (p : List Byte), Ready specStaGet d p s ∧ (let c := cmdOf specStaGet d p s; c.u 16 1 = 2 ∧ c.u 17 1 ≤ 1)) ∧
    (∃ (s : State) (d : Doorbell) (p : List Byte) (x : Sta), Ready specStaGet d p s ∧ (let c := cmdOf specStaGet d p s; c.u 16 1 = 0 ∧ c.u 18 2 ≤ 2047 ∧ getSta s (c.u 18 2) = some x)) ∧
    (∃ (s : State) (d : Doorbell) (p : List Byte), Ready specAcParamSet d p s ∧ (let c := cmdOf specAcParamSet d p s; c.u 16 1 ≤ 1 ∧ c.u 17 1 ≤ 100 ∧ c.u 18 2 ≤ 50000 ∧ c.u 20 2 ≤ 50000 ∧ c.u 22 1 ≤ 32 ∧ 1 ≤ c.u 23 1 ∧ c.u 23 1 ≤ 16 ∧ 10 ≤ c.u 24 2 ∧ c.u 24 2 ≤ 10000 ∧ 1 ≤ c.u 26 2 ∧ c.u 26 2 ≤ 1000 ∧ ((32 ≤ c.u 28 1 ∧ c.u 28 1 ≤ 61) ∨ c.u 28 1 = 0xFF) ∧ c.u 30 1 ≤ 40 ∧ 1 ≤ c.u 31 1 ∧ ((List.range 4).map (acParm c)).all AcParm.ok = true)) ∧
    (∃ (s : State) (d : Doorbell) (p : List Byte) (f b : Nat), Ready specTurnPlanSet d p s ∧ (let c := cmdOf specTurnPlanSet d p s; c.u 16 1 ≤ 1 ∧ 1 ≤ c.u 18 2 ∧ c.u 18 2 ≤ 1024 ∧ ((List.range (c.u 18 2)).map fun p => c.u (28 + p / 4) 1 / 4 ^ (p % 4) % 4).contains 3 = false ∧ startBeat s (c.u 20 6) (bit (c.u 17 1) 0) = some (f, b))) ∧
    (∃ (s : State) (d : Doorbell) (p : List Byte), Ready specTurnPlanSet d p s ∧ (let c := cmdOf specTurnPlanSet d p s; c.u 16 1 ≤ 1 ∧ 1 ≤ c.u 18 2 ∧ c.u 18 2 ≤ 1024 ∧ ((List.range (c.u 18 2)).map fun p => c.u (28 + p / 4) 1 / 4 ^ (p % 4) % 4).contains 3 = false ∧ c.u 20 6 ≠ 0 ∧ c.u 20 6 < effBeat s true ∧ bit (c.u 17 1) 0 = false)) ∧
    (∃ (s : State) (d : Doorbell) (p : List Byte) (f b : Nat), Ready specAirGateSet d p s ∧ (let c := cmdOf specAirGateSet d p s; c.u 16 1 ≤ 1 ∧ c.u 17 1 ≤ 64 ∧ 1 ≤ c.u 18 1 ∧ c.u 18 1 ≤ 64 ∧ (∀ i, i < 5 → 100 ≤ c.u (28 + 2 * i) 2 ∧ c.u (28 + 2 * i) 2 ≤ 5484) ∧ ((gateEntries c).all fun e => decide (e.1 < c.u 18 1)) = true ∧ badGate s c = none ∧ startBeat s (c.u 20 6) (bit (c.u 19 1) 0) = some (f, b))) ∧
    (∃ (s : State) (d : Doorbell) (p : List Byte), Ready specBeaconTemplate d p s ∧ (let c := cmdOf specBeaconTemplate d p s; c.u 16 1 ≤ 1 ∧ c.u 17 1 ≤ 7 ∧ 1 ≤ c.u 19 1 ∧ 20 ≤ c.u 20 2 ∧ c.u 20 2 ≤ 1000 ∧ 24 ≤ c.u 26 2 ∧ c.u 26 2 ≤ 448 ∧ c.u 34 2 ≤ 8191 ∧ c.u 36 1 ∈ [6, 9, 12, 18, 24, 36, 48, 54] ∧ 32 ≤ c.u 37 1 ∧ c.u 37 1 ≤ 61 ∧ c.u 22 2 + 8 ≤ c.u 26 2 ∧ (c.u 24 2 = 0xFFFF ∨ c.u 24 2 < c.u 26 2))) ∧
    (∃ (s : State) (d : Doorbell) (p : List Byte), Ready specBeaconTemplate d p s ∧ (let c := cmdOf specBeaconTemplate d p s; c.u 16 1 ≤ 1 ∧ c.u 17 1 ≤ 7 ∧ 1 ≤ c.u 19 1 ∧ 20 ≤ c.u 20 2 ∧ c.u 20 2 ≤ 1000 ∧ 24 ≤ c.u 26 2 ∧ c.u 26 2 ≤ 448 ∧ c.u 34 2 ≤ 8191 ∧ c.u 36 1 = 6 ∧ c.u 37 1 = 32 ∧ c.u 26 2 < c.u 22 2 + 8)) ∧
    (∃ (s : State) (d : Doorbell) (p : List Byte) (x : Sta), Ready specLinkSteer d p s ∧ (let c := cmdOf specLinkSteer d p s; c.u 16 2 ≤ 2047 ∧ c.u 18 1 ≤ 4 ∧ getSta s (c.u 16 2) = some x ∧ x.p.flags.getLsbD 2 = true)) ∧
    (∃ (s : State) (d : Doorbell) (p : List Byte), Ready specPolicyBind d p s ∧ (let c := cmdOf specPolicyBind d p s; c.u 16 1 ≤ 1 ∧ c.u 18 2 = 0xFFFF ∧ 16 ≤ c.u 20 2 ∧ c.u 20 2 ≤ 1024)) ∧
    (∃ (s : State) (d : Doorbell) (p : List Byte), Ready specPolicyBind d p s ∧ (let c := cmdOf specPolicyBind d p s; c.u 16 1 ≤ 1 ∧ c.u 18 2 ≤ 63 ∧ 16 ≤ c.u 20 2 ∧ c.u 20 2 ≤ 1024 ∧ ((Tab.get? s.col.kernels (c.u 18 2)).map (·.started)).getD false = false)) :=
  ⟨⟨live 4, bell 48, fields 48 ((staFields 9 3)), ready_of_readyOk (by decide +kernel), by decide +kernel⟩,
   ⟨withAir 4 { stas := [(9, sta0)] }, bell 48, fields 48 ((staFields 9 3)), ready_of_readyOk (by decide +kernel), by decide +kernel⟩,
   ⟨withAir 4 { stas := [(9, sta0)] }, bell 48, fields 48 ((staFields 9 1)), sta0, ready_of_readyOk (by decide +kernel), by decide +kernel⟩,
   ⟨live 4, bell 48, fields 48 ((staFields 9 1)), ready_of_readyOk (by decide +kernel), by decide +kernel⟩,
   ⟨withAir 4 { stas := [(9, sta0)] }, bell 4, fields 4 [(16, 2, 9)], sta0, ready_of_readyOk (by decide +kernel), by decide +kernel⟩,
   ⟨withAir 4 { stas := [(9, sta0)], bfs := [(1, { p := { sta := 9 } })] }, bell 4, fields 4 [(16, 2, 9)], sta0, ready_of_readyOk (by decide +kernel), by decide +kernel⟩,
   ⟨live 4, bell 4, fields 4 [(16, 1, 2), (17, 1, 1)], ready_of_readyOk (by decide +kernel), by decide +kernel⟩,
   ⟨withAir 4 { stas := [(9, sta0)] }, bell 4, fields 4 [(18, 2, 9)], sta0, ready_of_readyOk (by decide +kernel), by decide +kernel⟩,
   ⟨live 4, bell 64, fields 64 (acFields), ready_of_readyOk (by decide +kernel), by decide +kernel⟩,
   ⟨live 4, bell 16, fields 16 [(16, 1, 0), (18, 2, 2), (28, 1, 6)], 3, 3, ready_of_readyOk (by decide +kernel), by decide +kernel⟩,
   ⟨live 4, bell 16, fields 16 [(16, 1, 0), (18, 2, 2), (28, 1, 6), (20, 6, 1)], ready_of_readyOk (by decide +kernel), by decide +kernel⟩,
   ⟨live 4, bell 24, fields 24 [(16, 1, 0), (18, 1, 2), (28, 2, 100), (30, 2, 100), (32, 2, 100), (34, 2, 100), (36, 2, 100), (20, 6, 8)], 8, 8, ready_of_readyOk (by decide +kernel), by decide +kernel⟩,
   ⟨live 4, bell 24, fields 24 [(17, 1, 3), (19, 1, 1), (20, 2, 100), (22, 2, 24), (24, 2, 36), (26, 2, 48), (36, 1, 6), (37, 1, 32)], ready_of_readyOk (by decide +kernel), by decide +kernel⟩,
   ⟨live 4, bell 24, fields 24 [(17, 1, 3), (19, 1, 1), (20, 2, 100), (22, 2, 44), (24, 2, 36), (26, 2, 48), (36, 1, 6), (37, 1, 32)], ready_of_readyOk (by decide +kernel), by decide +kernel⟩,
   ⟨withAir 4 { stas := [(9, sta0)] }, bell 8, fields 8 [(16, 2, 9), (18, 1, 2), (20, 1, 1)], sta0, ready_of_readyOk (by decide +kernel), by decide +kernel⟩,
   ⟨live 4, bell 8, fields 8 [(16, 1, 1), (18, 2, 65535), (20, 2, 16)], ready_of_readyOk (by decide +kernel), by decide +kernel⟩,
   ⟨live 4, bell 8, fields 8 [(16, 1, 1), (18, 2, 7), (20, 2, 16)], ready_of_readyOk (by decide +kernel), by decide +kernel⟩⟩

/-- The conditions of `Family07CommandsAnswer` can be met. -/
theorem witness_Family07CommandsAnswer :
    (∃ (s : State) (d : Doorbell) (p : List Byte) (r : AirTest), Ready specBfAdmit d p s ∧ (let c := cmdOf specBfAdmit d p s; bfOk s (c.u 16 2) (bfParm c (effBeat s true)) = true ∧ getBf s (c.u 16 2) = none ∧ c.u 32 6 = 0 ∧ admitTest s (c.u 16 2) (effBeat s true) { p := bfParm c (effBeat s true), from_ := effBeat s true, nextK := ceilDiv (effBeat s true - (bfParm c (effBeat s true)).first) (bfParm c (effBeat s true)).period } = (0, 0, r))) ∧
    (∃ (s : State) (d : Doorbell) (p : List Byte), Ready specBfAdmit d p s ∧ (let c := cmdOf specBfAdmit d p s; bfOk s (c.u 16 2) (bfParm c (effBeat s true)) = true ∧ (getBf s (c.u 16 2)).isSome = true)) ∧
    (∃ (s : State) (d : Doorbell) (p : List Byte), Ready specBfModify d p s ∧ (let c := cmdOf specBfModify d p s; bfOk s (c.u 16 2) (bfParm c (effBeat s true)) = true ∧ getBf s (c.u 16 2) = none)) ∧
    (∃ (s : State) (d : Doorbell) (p : List Byte) (x : Bf) (r : AirTest), Ready specBfModify d p s ∧ (let c := cmdOf specBfModify d p s; bfOk s (c.u 16 2) (bfParm c (effBeat s true)) = true ∧ getBf s (c.u 16 2) = some x ∧ { bfParm c (effBeat s true) with first := x.newest.first } = { x.newest with maxFrame := c.u 24 2, fpp := c.u 26 1, attempts := c.u 27 1, deadline := c.u 30 2, flags := c.u 23 1 } ∧ x.newest.flags % 2 = c.u 23 1 % 2 ∧ admitTest s (c.u 16 2) (effBeat s true) { x with next := (effBeat s true, { x.newest with maxFrame := c.u 24 2, fpp := c.u 26 1, attempts := c.u 27 1, deadline := c.u 30 2, flags := c.u 23 1 }) :: x.next } = (0, 0, r))) ∧
    (∃ (s : State) (d : Doorbell) (p : List Byte), Ready specBfRelease d p s ∧ (let c := cmdOf specBfRelease d p s; c.u 16 2 ≤ 1023 ∧ (getBf s (c.u 16 2)).isSome = true)) ∧
    (∃ (s : State) (d : Doorbell) (p : List Byte), Ready specBfRelease d p s ∧ (let c := cmdOf specBfRelease d p s; c.u 16 2 ≤ 1023 ∧ getBf s (c.u 16 2) = none)) ∧
    (∃ (s : State) (d : Doorbell) (p : List Byte), Ready specBfStatus d p s ∧ (let c := cmdOf specBfStatus d p s; c.u 16 2 ≤ 1023 ∧ getBf s (c.u 16 2) = none)) ∧
    (∃ (s : State) (d : Doorbell) (p : List Byte) (x : Bf), Ready specBfStatus d p s ∧ (let c := cmdOf specBfStatus d p s; c.u 16 2 ≤ 1023 ∧ getBf s (c.u 16 2) = some x ∧ pledgeOf s x.p.sta x.p.link = none ∧ x.periods = [])) ∧
    (∃ (s : State) (d : Doorbell) (p : List Byte) (x : Sta), Ready specBfPledgeSet d p s ∧ (let c := cmdOf specBfPledgeSet d p s; c.u 16 1 = 0 ∧ c.u 22 1 = 0 ∧ getSta s (c.u 20 2) = some x ∧ x.p.links.getLsbD 0 = true ∧ c.u 23 1 ≤ x.p.mcsM ∧ 1 ≤ c.u 24 1 ∧ c.u 24 1 ≤ 4 ∧ c.u 25 1 ≤ 40 ∧ (s.air.bfs.filter fun f => f.2.p.sta = c.u 20 2 && f.2.p.link = 0) = [] ∧ pledgeOf s (c.u 20 2) 0 = none)) ∧
    (∃ (s : State) (d : Doorbell) (p : List Byte), Ready specBfPledgeSet d p s ∧ (let c := cmdOf specBfPledgeSet d p s; c.u 16 1 = 1 ∧ c.u 20 1 ≤ 1 ∧ 10 ≤ c.u 21 1 ∧ c.u 21 1 ≤ 90 ∧ c.u 21 1 ≤ c.u 22 1 ∧ c.u 22 1 ≤ 95 ∧ 1 ≤ c.u 23 1 ∧ bandBfs s (c.u 20 1) = [])) ∧
    (∃ (s : State) (d : Doorbell) (p : List Byte) (x : Bf), Ready specBfStats d p s ∧ (let c := cmdOf specBfStats d p s; c.u 16 2 ≤ 1023 ∧ getBf s (c.u 16 2) = some x ∧ bit (c.u 18 1) 0 = true)) ∧
    (∃ (s : State) (d : Doorbell) (p : List Byte) (x : Bf), Ready specBfStats d p s ∧ (let c := cmdOf specBfStats d p s; c.u 16 2 ≤ 1023 ∧ getBf s (c.u 16 2) = some x ∧ bit (c.u 18 1) 0 = false)) ∧
    (∃ (s : State) (bf k : Nat) (x : Bf) (q : BfPeriod), s.modes.mode = 5 ∧ getBf s bf = some x ∧ x.period k = some q) ∧
    (∃ (s : State) (bf k : Nat), s.modes.mode ≠ 5) ∧
    (∃ (s : State) (band : BandId) (beat : Nat) (q : Plan) (g : Grouping) (rest : List Grouping) (i : Nat), getPlan s band.num beat = some q ∧ q.groupings = g :: rest ∧ q.st = 0 ∧ q.completed = false ∧ g.ppdu = some i) :=
  ⟨⟨{ withAir 5 { stas := [(4, sta0)], pledges := [(8, { mcs := 4, ss := 1 })], m := { turns := [{ cycle := 1, start := 0, from_ := 0, kinds := [1] }] } } with cad := { state := 1, run := true }, fe := { m := band0 } }, bell 44, fields 44 (bfFields), (admitTest { withAir 5 { stas := [(4, sta0)], pledges := [(8, { mcs := 4, ss := 1 })], m := { turns := [{ cycle := 1, start := 0, from_ := 0, kinds := [1] }] } } with cad := { state := 1, run := true }, fe := { m := band0 } } 3 3 { p := { sta := 4, tid := 6, maxFrame := 100, fpp := 1, attempts := 1, period := 4, deadline := 4, first := 3, pinKey := List.replicate 16 0 }, from_ := 3, nextK := 0 }).2.2, ready_of_readyOk (by decide +kernel), by decide +kernel⟩,
   ⟨withAir 5 { stas := [(4, sta0)], bfs := [(3, { p := {} })] }, bell 44, fields 44 (bfFields), ready_of_readyOk (by decide +kernel), by decide +kernel⟩,
   ⟨withAir 5 { stas := [(4, sta0)] }, bell 44, fields 44 (bfFields), ready_of_readyOk (by decide +kernel), by decide +kernel⟩,
   ⟨{ withAir 5 { stas := [(4, sta0)], pledges := [(8, { mcs := 4, ss := 1 })], m := { turns := [{ cycle := 1, start := 0, from_ := 0, kinds := [1] }] }, bfs := [(3, bf0)] } with cad := { state := 1, run := true }, fe := { m := band0 } }, bell 44, fields 44 (bfFields), bf0, (admitTest { withAir 5 { stas := [(4, sta0)], pledges := [(8, { mcs := 4, ss := 1 })], m := { turns := [{ cycle := 1, start := 0, from_ := 0, kinds := [1] }] }, bfs := [(3, bf0)] } with cad := { state := 1, run := true }, fe := { m := band0 } } 3 3 { bf0 with next := [(3, { bf0.p with maxFrame := 100 })] }).2.2, ready_of_readyOk (by decide +kernel), by decide +kernel⟩,
   ⟨withAir 5 { bfs := [(3, bf0)] }, bell 4, fields 4 [(16, 2, 3)], ready_of_readyOk (by decide +kernel), by decide +kernel⟩,
   ⟨live 5, bell 4, fields 4 [(16, 2, 3)], ready_of_readyOk (by decide +kernel), by decide +kernel⟩,
   ⟨live 4, bell 4, fields 4 [(16, 2, 3)], ready_of_readyOk (by decide +kernel), by decide +kernel⟩,
   ⟨withAir 4 { bfs := [(3, bf0)] }, bell 4, fields 4 [(16, 2, 3)], bf0, ready_of_readyOk (by decide +kernel), by decide +kernel⟩,
   ⟨withAir 4 { stas := [(9, sta0)] }, bell 12, fields 12 [(20, 2, 9), (24, 1, 2), (25, 1, 7)], sta0, ready_of_readyOk (by decide +kernel), by decide +kernel⟩,
   ⟨live 4, bell 8, fields 8 [(16, 1, 1), (20, 1, 1), (21, 1, 20), (22, 1, 30), (23, 1, 4)], ready_of_readyOk (by decide +kernel), by decide +kernel⟩,
   ⟨withAir 4 { bfs := [(3, bf0)] }, bell 4, fields 4 [(16, 2, 3), (18, 1, 1)], bf0, ready_of_readyOk (by decide +kernel), by decide +kernel⟩,
   ⟨withAir 4 { bfs := [(3, bf0)] }, bell 4, fields 4 [(16, 2, 3)], bf0, ready_of_readyOk (by decide +kernel), by decide +kernel⟩,
   ⟨withAir 5 { bfs := [(3, { bf0 with periods := [{ k := 2, attempts := 1, fpp := 1, deadline := 4 }] })] }, 3, 2, { bf0 with periods := [{ k := 2, attempts := 1, fpp := 1, deadline := 4 }] }, { k := 2, attempts := 1, fpp := 1, deadline := 4 }, by decide +kernel⟩,
   ⟨live 4, 3, 2, by decide +kernel⟩,
   ⟨withAir 5 { m := { plans := [(4, { kind := 1, ppdus := [{ ppdu 0 with mf := true }], groupings := [{ users := [], ppdu := some 0 }] })] } }, .m, 4, { kind := 1, ppdus := [{ ppdu 0 with mf := true }], groupings := [{ users := [], ppdu := some 0 }] }, { users := [], ppdu := some 0 }, [], 0, by decide +kernel⟩⟩

/-- The conditions of `AirEdgeRowsTakeEffect` can be met. -/
theorem witness_AirEdgeRowsTakeEffect :
    (∃ (s : State) (input : BitVec 2), s.fe.coexMode ≠ 2) ∧
    (∃ (s : State) (input : BitVec 2) (i : Nat) (x : Xcvr), s.fe.blankIn.getLsbD input.toNat = false ∧ s.nb.x[i]? = some x) ∧
    (∃ (s : State) (band : BandId) (ok : Bool) (l : LongCmd) (ch : Channel), findLong s 0x0401 (fun c => c.u 16 1 == band.num) = some l ∧ (getBand s band.num).retune = some ch ∧ ok = false) ∧
    (∃ (s : State) (band : BandId) (ok : Bool) (l : LongCmd) (ch : Channel), findLong s 0x0401 (fun c => c.u 16 1 == band.num) = some l ∧ (getBand s band.num).retune = some ch ∧ ok = true ∧ s.modes.mode = 4) ∧
    (∃ (s : State) (band : BandId) (ok : Bool) (l : LongCmd) (ch : Channel), findLong s 0x0401 (fun c => c.u 16 1 == band.num) = some l ∧ (getBand s band.num).retune = some ch ∧ ok = true ∧ s.modes.mode = 5) ∧
    (∃ (s : State) (c : Nat) (t : Trans) (n : Nat) (x : Bf), serveExit s = some c ∧ s.modes.trans = some t ∧ t.final = 4 ∧ s.air.bfs = [(n, x)]) ∧
    (∃ (s : State) (t : Trans), s.modes.mode = 2 ∧ s.modes.trans = some t ∧ t.stage = 4 ∧ t.final = 4 ∧ t.handshaking = false ∧ t.committed = true ∧ domainsUp s 4 = true) ∧
    (∃ (s : State) (t : Trans), s.modes.trans = some t ∧ t.handshaking = true) :=
  ⟨⟨live 5, 2, by decide +kernel⟩,
   ⟨{ live 5 with fe := { blankMap := [4, 0, 0, 0] }, nb := { x := [{ held := true }] } }, 0, 0, { held := true }, by decide +kernel⟩,
   ⟨{ live 4 with mbx := { longs := [{ cmd := { op := 0x0401, par := [0] } }] }, fe := { m := { retune := some { center := 5200 } } } }, .m, false, { cmd := { op := 0x0401, par := [0] } }, { center := 5200 }, by decide +kernel⟩,
   ⟨{ live 4 with mbx := { longs := [{ cmd := { op := 0x0401, par := [0] } }] }, fe := { m := { retune := some { center := 5200 } } } }, .m, true, { cmd := { op := 0x0401, par := [0] } }, { center := 5200 }, by decide +kernel⟩,
   ⟨{ live 5 with mbx := { longs := [{ cmd := { op := 0x0401, par := [0] } }] }, fe := { m := { retune := some { center := 5200 } } } }, .m, true, { cmd := { op := 0x0401, par := [0] } }, { center := 5200 }, by decide +kernel⟩,
   ⟨{ withAir 5 { bfs := [(3, { p := {}, from_ := 0, nextK := 0 })] } with modes := { (live 5).modes with trans := some { final := 4, stage := 4, by_ := .wake, committed := true } } }, 0, { final := 4, stage := 4, by_ := .wake, committed := true }, 3, { p := {}, from_ := 0, nextK := 0 }, by decide +kernel⟩,
   ⟨{ live 2 with modes := { (live 2).modes with trans := some { final := 4, stage := 4, by_ := .wake, cause := 1, committed := true } } }, { final := 4, stage := 4, by_ := .wake, cause := 1, committed := true }, by decide +kernel⟩,
   ⟨{ live 2 with modes := { (live 2).modes with trans := some { final := 4, stage := 4, by_ := .wake, handshaking := true } } }, { final := 4, stage := 4, by_ := .wake, handshaking := true }, by decide +kernel⟩⟩

/-- The conditions of `PlannedPpduRowsTakeEffect` can be met. -/
theorem witness_PlannedPpduRowsTakeEffect :
    (∃ (s : State) (band : BandId) (beat id : Nat) (grant : Bool) (q : Plan) (x : Ppdu), getPlan s band.num beat = some q ∧ q.ppdus[id]? = some x ∧ q.st = 3 ∧ beat = curBeat s ∧ inService s band.num = true ∧ (getBand s band.num).down = false ∧ (getAB s band.num).onAir = none ∧ x.outcome = none ∧ x.start = none ∧ x.p ≤ curOff s + femLead s band.num ∧ curOff s + femLead s band.num + x.a ≤ x.w ∧ blanked s band.num = false ∧ (getBand s band.num).loReady = true ∧ s.fe.coexMode = 0 ∧ x.kind = 3 ∧ x.bf = false ∧ x.users = [] ∧ x.body = [] ∧ x.ready = true) ∧
    (∃ (s : State) (band : BandId) (beat id : Nat) (grant : Bool) (q : Plan) (x : Ppdu), getPlan s band.num beat = some q ∧ q.ppdus[id]? = some x ∧ q.st = 3 ∧ beat = curBeat s ∧ inService s band.num = true ∧ (getBand s band.num).down = false ∧ (getAB s band.num).onAir = none ∧ x.outcome = none ∧ x.start = none ∧ x.p ≤ curOff s + femLead s band.num ∧ blanked s band.num = true ∧ x.ready = true) ∧
    (∃ (s : State) (band : BandId) (beat id : Nat) (x : Ppdu), (getAB s band.num).onAir = some (beat, id) ∧ getPpdu s band.num beat id = some x ∧ x.kind = 3 ∧ x.outcome = none ∧ s.fe.coexNext = false) ∧
    (∃ (s : State) (band : BandId) (beat id : Nat) (busy : Byte) (q : Plan) (x : Ppdu), getPlan s band.num beat = some q ∧ q.ppdus[id]? = some x ∧ q.st = 3 ∧ beat = curBeat s ∧ q.kind = 1 ∧ x.outcome = none ∧ x.start = none ∧ busy = 0) ∧
    (∃ (s : State) (band : BandId) (beat id : Nat) (busy : Byte) (q : Plan) (x : Ppdu), getPlan s band.num beat = some q ∧ q.ppdus[id]? = some x ∧ q.st = 3 ∧ beat = curBeat s ∧ q.kind = 1 ∧ x.outcome = none ∧ x.start = none ∧ busy.getLsbD (getBand s band.num).ch.primary = true ∧ curOff s + 9000 + femLead s band.num + x.a ≤ x.w) ∧
    (∃ (s : State) (band : BandId) (beat id : Nat) (busy : Byte) (q : Plan) (x : Ppdu), getPlan s band.num beat = some q ∧ q.ppdus[id]? = some x ∧ q.st = 3 ∧ beat = curBeat s ∧ q.kind = 1 ∧ x.outcome = none ∧ x.start = none ∧ busy.getLsbD (getBand s band.num).ch.primary = true ∧ x.w < curOff s + 9000 + femLead s band.num + x.a) ∧
    (∃ (s : State) (band : BandId) (beat id : Nat) (sta : Nat) (acked : List Nat) (x : Ppdu) (v : PUser), getPpdu s band.num beat id = some x ∧ x.start.isSome = true ∧ x.outcome = none ∧ x.users = [v] ∧ v.sta = sta ∧ v.resp = none) ∧
    (∃ (s : State) (band : BandId) (beat id : Nat) (sta : Nat) (x : Ppdu) (v : PUser) (y : Sta), getPpdu s band.num beat id = some x ∧ x.start.isSome = true ∧ x.outcome = none ∧ x.users = [v] ∧ v.sta = sta ∧ v.resp = none ∧ getSta s sta = some y) ∧
    (∃ (s : State) (band : BandId) (beat id : Nat) (x : Ppdu), getPpdu s band.num beat id = some x ∧ s.fe.coexMode = 1 ∧ bit s.fe.coexMask band.num = true ∧ x.outcome = none) ∧
    (∃ (s : State) (band : BandId) (beat id : Nat) (x : Ppdu), s.fe.coexMode = 1 ∧ bit s.fe.coexMask band.num = true ∧ (getAB s band.num).onAir = some (beat, id) ∧ getPpdu s band.num beat id = some x ∧ x.outcome = none) ∧
    (∃ (s : State) (band : BandId), s.fe.coexMode ≠ 1) ∧
    (∃ (s : State) (band : BandId) (ac : BitVec 2) (off : Nat) (q : Plan) (x : Ppdu), getPlan s band.num (curBeat s) = some q ∧ q.st = 3 ∧ q.kind = 2 ∧ q.ppdus = [x] ∧ x.ready = false ∧ x.outcome = none ∧ x.kind = 4 ∧ off + x.p + x.a ≤ windowEnd (usableEnd s band.num) (blocksOf s band.num (curBeat s) q.reserved []) (off + x.p)) ∧
    (∃ (s : State) (band : BandId) (bss : BitVec 3) (x : Bss), Tab.get? (getAB s band.num).bss bss.toNat = some x ∧ x.enable = true ∧ inService s band.num = true ∧ tbttNs s x (x.nextTbtt + 1) ≤ nowNs s) ∧
    (∃ (s : State) (band : BandId) (residual : Int), 4 ≤ s.modes.mode ∧ s.modes.mode ≤ 6 ∧ (getBand s band.num).synth (getBand s band.num).main = 1 ∧ (getBand s band.num).main ≤ 1 ∧ (getBand s band.num).synth (1 - (getBand s band.num).main) = 1 ∧ (getBand s band.num).tracked = true) ∧
    (∃ (s : State) (band : BandId) (residual : Int), 4 ≤ s.modes.mode ∧ s.modes.mode ≤ 6 ∧ (getBand s band.num).synth (getBand s band.num).main = 1 ∧ (getBand s band.num).synth (1 - (getBand s band.num).main) ≠ 1) ∧
    (∃ (s : State) (band : BandId) (t : Nat), 4 ≤ s.modes.mode ∧ s.modes.mode ≤ 6 ∧ (getBand s band.num).loReady = false ∧ (getBand s band.num).synth (getBand s band.num).main = 2) ∧
    (∃ (s : State) (band : BandId) (synth : Bool), 4 ≤ s.modes.mode ∧ s.modes.mode ≤ 6 ∧ synth = false ∧ (getBand s band.num).sa = 2 ∧ (getBand s band.num).saTried = false) ∧
    (∃ (s : State) (band : BandId) (synth : Bool), 4 ≤ s.modes.mode ∧ s.modes.mode ≤ 6 ∧ synth = false ∧ (getBand s band.num).sa = 2 ∧ (getBand s band.num).saTried = true ∧ (getBand s band.num).main = 0 ∧ (getBand s band.num).sb = 1) ∧
    (∃ (s : State) (band : BandId) (synth : Bool), 4 ≤ s.modes.mode ∧ s.modes.mode ≤ 6 ∧ synth = true ∧ (getBand s band.num).sb = 3 ∧ (getBand s band.num).sbTried = true ∧ (getBand s band.num).sa = 4) :=
  ⟨⟨onPlan0 1 { ppdu 3 with ready := true }, .m, 0, 0, true, { kind := 1, st := 3, ppdus := [{ ppdu 3 with ready := true }] }, { ppdu 3 with ready := true }, by decide +kernel⟩,
   ⟨{ onPlan0 1 { ppdu 1 with ready := true } with fe := { m := band0, coexMode := 2, blankIn := 1, blankMap := [1, 0, 0, 0] } }, .m, 0, 0, true, { kind := 1, st := 3, ppdus := [{ ppdu 1 with ready := true }] }, { ppdu 1 with ready := true }, by decide +kernel⟩,
   ⟨{ onPlan0 1 { ppdu 3 with start := some 0 } with air := { m := { plans := [(0, { kind := 1, st := 3, ppdus := [{ ppdu 3 with start := some 0 }] })], onAir := some (0, 0) } } }, .m, 0, 0, { ppdu 3 with start := some 0 }, by decide +kernel⟩,
   ⟨onPlan0 1 (ppdu 1), .m, 0, 0, 0, { kind := 1, st := 3, ppdus := [ppdu 1] }, ppdu 1, by decide +kernel⟩,
   ⟨onPlan0 1 (ppdu 1), .m, 0, 0, 1, { kind := 1, st := 3, ppdus := [ppdu 1] }, ppdu 1, by decide +kernel⟩,
   ⟨onPlan0 1 { ppdu 1 with w := 5 }, .m, 0, 0, 1, { kind := 1, st := 3, ppdus := [{ ppdu 1 with w := 5 }] }, { ppdu 1 with w := 5 }, by decide +kernel⟩,
   ⟨onPlan0 1 { ppdu 1 with users := [{ sta := 4, frames := [{}, {}] }], start := some 0 }, .m, 0, 0, 4, [1, 5], { ppdu 1 with users := [{ sta := 4, frames := [{}, {}] }], start := some 0 }, { sta := 4, frames := [{}, {}] }, by decide +kernel⟩,
   ⟨{ onPlan0 1 { ppdu 1 with users := [{ sta := 4 }], start := some 0 } with air := { m := { plans := [(0, { kind := 1, st := 3, ppdus := [{ ppdu 1 with users := [{ sta := 4 }], start := some 0 }] })] }, stas := [(4, { p := { links := 3 } })] } }, .m, 0, 0, 4, { ppdu 1 with users := [{ sta := 4 }], start := some 0 }, { sta := 4 }, { p := { links := 3 } }, by decide +kernel⟩,
   ⟨{ onPlan0 1 (ppdu 1) with fe := { m := band0, coexMode := 1, coexMask := 1, priPolicy := 2 } }, .m, 0, 0, ppdu 1, by decide +kernel⟩,
   ⟨{ onPlan0 1 (ppdu 1) with air := { m := { plans := [(0, { kind := 1, st := 3, ppdus := [{ ppdu 1 with start := some 0 }] })], onAir := some (0, 0) } }, fe := { m := band0, coexMode := 1, coexMask := 1 } }, .m, 0, 0, { ppdu 1 with start := some 0 }, by decide +kernel⟩,
   ⟨live 5, .m, by decide +kernel⟩,
   ⟨onPlan0 2 (ppdu 4), .m, 3, 50000, { kind := 2, st := 3, ppdus := [ppdu 4] }, ppdu 4, by decide +kernel⟩,
   ⟨{ live 5 with air := { m := { bss := [(1, { enable := true, interval := 20 })] } }, fe := { m := band0 }, cad := { run := true, tod := 200000000 * 2 ^ 32 } }, .m, 1, { enable := true, interval := 20 }, by decide +kernel⟩,
   ⟨{ live 5 with fe := { m := band0 } }, .m, 7, by decide +kernel⟩,
   ⟨{ live 5 with fe := { m := { band0 with sb := 2 } } }, .m, 7, by decide +kernel⟩,
   ⟨{ live 5 with fe := { m := { band0 with loReady := false, sa := 2 } } }, .m, 100, by decide +kernel⟩,
   ⟨{ live 5 with fe := { m := { band0 with sa := 2 } } }, .m, false, by decide +kernel⟩,
   ⟨{ live 5 with fe := { m := { band0 with sa := 2, saTried := true } } }, .m, false, by decide +kernel⟩,
   ⟨{ live 5 with fe := { m := { band0 with sa := 4, sb := 3, sbTried := true } } }, .m, true, by decide +kernel⟩⟩

/-- The conditions of `BeatsAndReceptionTakeEffect` can be met. -/
theorem witness_BeatsAndReceptionTakeEffect :
    (∃ (s : State) (n : Nat), marksOn s = true ∧ s.modes.mode ≠ 7 ∧ curBeat s = n ∧ s.air.beat ≠ n) ∧
    (∃ (s : State) (n : Nat), marksOn s = false) ∧
    (∃ (s : State) (n : Nat) (q : Plan), marksOn s = true ∧ s.modes.mode = 5 ∧ curBeat s = n ∧ s.air.beat = n ∧ getPlan s 0 (n + 2) = some q ∧ q.st = 0 ∧ q.completed = false) ∧
    (∃ (s : State) (n : Nat) (q : Plan), marksOn s = true ∧ s.modes.mode = 5 ∧ curBeat s = n ∧ s.air.beat = n ∧ getPlan s 0 (n + 2) = some q ∧ q.st = 0) ∧
    (∃ (s : State) (band : BandId) (rx : RxPpdu), rxOpen s band.num = true ∧ (getPhy s band.num).rx = 2 ∧ rx.form ≠ 2 ∧ rx.blanked = true) ∧
    (∃ (s : State) (band : BandId) (rx : RxPpdu), rxOpen s band.num = true ∧ (getPhy s band.num).rx = 2 ∧ rx.form = 3 ∧ rx.blanked = false) ∧
    (∃ (s : State) (band : BandId) (rx : RxPpdu), rxOpen s band.num = true ∧ (getPhy s band.num).rx = 2 ∧ rx.form = 0 ∧ rx.blanked = false ∧ rx.mpdus = [] ∧ rx.trig = none) ∧
    (∃ (s : State) (sta tid : Nat) (x : Sta) (r : Reorder) (n : Nat) (m : RxMsdu), getSta s sta = some x ∧ Tab.get? x.reorder tid = some r ∧ r.held = [(n, m)] ∧ n < 4096) ∧
    (∃ (s : State) (job : CipherJob) (j : RxJob) (rest : List RxJob), domOn s 3 = true ∧ job = .received ∧ s.air.rxq = j :: rest) ∧
    (∃ (s : State) (job : CipherJob) (b : BandId) (beat i : Nat) (q : Plan) (x : Ppdu) (v : PUser) (f : Frame) (y : Sta) (z : Slot), domOn s 3 = true ∧ job = .stage b beat i 0 0 ∧ getPlan s b.num beat = some q ∧ q.st = 2 ∧ q.ppdus[i]? = some x ∧ x.users = [v] ∧ v.frames = [f] ∧ f.pn = none ∧ getSta s v.sta = some y ∧ y.p.cipher ≠ 0 ∧ slotUse s y.p.ks [y.p.cipher] true = .inl z ∧ z.pn + 1 < 2 ^ 48) ∧
    (∃ (s : State) (job : CipherJob), domOn s 3 = false) :=
  ⟨⟨{ atNs 25000000 (live 4) with boot := { phase := .done, restarting := false } }, curBeat (atNs 25000000 (live 4)), by decide +kernel⟩,
   ⟨live 1, 4, by decide +kernel⟩,
   ⟨{ withAir 5 { m := { plans := [(2, { kind := 1 })] } } with fe := { m := band0 } }, 0, { kind := 1 }, by decide +kernel⟩,
   ⟨{ withAir 5 { m := { plans := [(2, { kind := 1 })] } } with fe := { m := band0 } }, 0, { kind := 1 }, by decide +kernel⟩,
   ⟨{ live 5 with fe := { m := band0 }, air := { phyM := { rx := 2 } } }, .m, { form := 1, t := 50, blanked := true }, by decide +kernel⟩,
   ⟨{ live 5 with fe := { m := band0 }, air := { phyM := { rx := 2 } } }, .m, { form := 3, t := 50 }, by decide +kernel⟩,
   ⟨{ live 5 with fe := { m := band0 }, air := { phyM := { rx := 2 } } }, .m, { form := 0, t := 50, erased := 3 }, by decide +kernel⟩,
   ⟨{ live 5 with air := { stas := [(2, { p := { links := 1 }, reorder := [(0, { next := 4, held := [(9, { msdus := [], at_ := 5 })] })] })] } }, 2, 0, { p := { links := 1 }, reorder := [(0, { next := 4, held := [(9, { msdus := [], at_ := 5 })] })] }, { next := 4, held := [(9, { msdus := [], at_ := 5 })] }, 9, { msdus := [], at_ := 5 }, by decide +kernel⟩,
   ⟨{ live 5 with air := { rxq := [{ band := 0, sta := 3, at_ := 4, mpdu := [] }] } }, .received, { band := 0, sta := 3, at_ := 4, mpdu := [] }, [], by decide +kernel⟩,
   ⟨{ onPlan0 1 (ppdu 1) with air := { m := { plans := [(0, { kind := 1, st := 2, ppdus := [{ ppdu 1 with users := [{ sta := 4, frames := [{}] }] }] })] }, stas := [(4, { p := { links := 1, ks := 6, cipher := 1 } })] }, cipher := { slots := [(6, slot0)] } }, .stage .m 0 0 0 0, .m, 0, 0, { kind := 1, st := 2, ppdus := [{ ppdu 1 with users := [{ sta := 4, frames := [{}] }] }] }, { ppdu 1 with users := [{ sta := 4, frames := [{}] }] }, { sta := 4, frames := [{}] }, {}, { p := { links := 1, ks := 6, cipher := 1 } }, slot0, by decide +kernel⟩,
   ⟨State.reset, .received, by decide +kernel⟩⟩

/-- The conditions of `CipherRowsTakeEffect` can be met. -/
theorem witness_CipherRowsTakeEffect :
    (∃ (s : State) (d : Doorbell) (p : List Byte) (kek : List Byte), Ready specKeyUnwrap d p s ∧ (let c := cmdOf specKeyUnwrap d p s; s.cipher.failed = false ∧ blobBad c.par = none ∧ fld c.par 3 1 ≠ 0 ∧ fld c.par 2 1 ≠ 15 ∧ Tab.get? s.cipher.keks (fld c.par 3 1) = some kek)) ∧
    (∃ (s : State) (d : Doorbell) (p : List Byte), Ready specKeyUnwrap d p s ∧ (let c := cmdOf specKeyUnwrap d p s; s.cipher.failed = false ∧ blobBad c.par = none ∧ fld c.par 3 1 ≠ 0 ∧ Tab.get? s.cipher.keks (fld c.par 3 1) = none)) ∧
    (∃ (s : State) (d : Doorbell) (p : List Byte), Ready specKeyErase d p s ∧ (let c := cmdOf specKeyErase d p s; c.u 16 1 = 0 ∧ 1 ≤ c.u 20 2 ∧ c.u 18 2 + c.u 20 2 ≤ 8192)) ∧
    (∃ (s : State) (d : Doorbell) (p : List Byte), Ready specKeyErase d p s ∧ (let c := cmdOf specKeyErase d p s; c.u 16 1 = 1 ∧ 1 ≤ c.u 18 2 ∧ 1 ≤ c.u 20 2 ∧ c.u 18 2 + c.u 20 2 ≤ 4)) ∧
    (∃ (s : State) (d : Doorbell) (p : List Byte), Ready specKekProvision d p s ∧ (s.cipher.locked = true)) ∧
    (∃ (s : State) (d : Doorbell) (p : List Byte), Ready specKekProvision d p s ∧ pendingOf s d.mb.val < 32 ∧ (let c := cmdOf specKekProvision d p s; s.cipher.locked = false ∧ d.mb.val = 2 ∧ s.modes.mode = 2 ∧ s.boot.phase = .ready ∧ s.pwr.bootHalt = true ∧ c.u 52 4 = 0x30304B45 ∧ kcvOf (c.bytes 16 32) = c.bytes 48 4)) ∧
    (∃ (s : State) (d : Doorbell) (p : List Byte), Ready specKekProvision d p s ∧ (let c := cmdOf specKekProvision d p s; s.cipher.locked = false ∧ d.mb.val = 2 ∧ s.modes.mode = 2 ∧ s.boot.phase = .ready ∧ s.pwr.bootHalt = true ∧ c.u 52 4 ≠ 0x30304B45)) ∧
    (∃ (s : State) (l : LongCmd), findLong s 0x0C03 = some l) ∧
    (∃ (s : State) (d : Doorbell) (p : List Byte), Ready specCmLevelSet d p s ∧ (let c := cmdOf specCmLevelSet d p s; c.u 16 1 ≤ 3)) ∧
    (∃ (s : State) (d : Doorbell) (p : List Byte), Ready specKeySlotInfo d p s ∧ (let c := cmdOf specKeySlotInfo d p s; c.u 16 1 = 1 ∧ bit (c.u 17 1) 0 = true)) ∧
    (∃ (s : State) (d : Doorbell) (p : List Byte), Ready specKeySlotInfo d p s ∧ (let c := cmdOf specKeySlotInfo d p s; c.u 16 1 = 0 ∧ 1 ≤ c.u 20 2 ∧ c.u 20 2 ≤ 30 ∧ c.u 18 2 + c.u 20 2 ≤ 8192)) ∧
    (∃ (s : State) (test : Nat), domOn s 3 = true) :=
  ⟨⟨{ live 4 with cipher := { keks := [(1, List.replicate 32 0)] } }, bell 40, fields 40 [(16, 2, 19287), (18, 1, 1), (19, 1, 1), (20, 2, 9), (22, 1, 0x43), (23, 1, 24), (26, 6, 5), (32, 24, 2666597893707858439519917033257880829891521639795745256319)], List.replicate 32 0, ready_of_readyOk (by decide +kernel), by decide +kernel⟩,
   ⟨live 4, bell 40, fields 40 [(16, 2, 19287), (18, 1, 1), (19, 1, 1), (23, 1, 24), (32, 24, 7)], ready_of_readyOk (by decide +kernel), by decide +kernel⟩,
   ⟨{ live 4 with cipher := { slots := [(3, slot0), (9, slot0)] } }, bell 8, fields 8 [(18, 2, 2), (20, 2, 5)], ready_of_readyOk (by decide +kernel), by decide +kernel⟩,
   ⟨{ live 4 with cipher := { keks := [(1, []), (3, [])] } }, bell 8, fields 8 [(16, 1, 1), (18, 2, 1), (20, 2, 2)], ready_of_readyOk (by decide +kernel), by decide +kernel⟩,
   ⟨{ live 2 with cipher := { locked := true } }, bell 0, [], ready_of_readyOk (by decide +kernel), by decide +kernel⟩,
   ⟨{ live 2 with boot := { phase := .ready }, pwr := { bootHalt := true } }, { bell 40 with mb := 2, path := .svc }, fields 40 [(48, 4, 2025887196), (52, 4, 0x30304B45)], ready_of_readyOk (by decide +kernel), by decide +kernel, by decide +kernel⟩,
   ⟨{ live 2 with boot := { phase := .ready }, pwr := { bootHalt := true } }, { bell 0 with mb := 2, path := .svc }, [], ready_of_readyOk (by decide +kernel), by decide +kernel⟩,
   ⟨{ live 2 with mbx := { longs := [{ cmd := { op := 0x0C03, par := List.replicate 40 7 } }] } }, { cmd := { op := 0x0C03, par := List.replicate 40 7 } }, by decide +kernel⟩,
   ⟨live 4, bell 4, fields 4 [(16, 1, 2)], ready_of_readyOk (by decide +kernel), by decide +kernel⟩,
   ⟨live 4, bell 4, fields 4 [(16, 1, 1), (17, 1, 1)], ready_of_readyOk (by decide +kernel), by decide +kernel⟩,
   ⟨{ live 4 with cipher := { slots := [(3, slot0), (9, slot0)] } }, bell 8, fields 8 [(18, 2, 3), (20, 2, 2)], ready_of_readyOk (by decide +kernel), by decide +kernel⟩,
   ⟨live 4, 3, by decide +kernel⟩⟩

/-- The conditions of `ClassifierRowsTakeEffect` can be met. -/
theorem witness_ClassifierRowsTakeEffect :
    (∃ (s : State) (src srcId : Nat) (tid : Nat) (bytes : List Byte) (t : Nat) (n : Nat) (r : Rule), pathOn s = true ∧ src ≤ 4 ∧ (getPort s src).link = true ∧ s.cls.inspect = 0 ∧ s.cls.rules = [(n, r)] ∧ r.valid = true ∧ r.action = 1 ∧ r.opts = 0 ∧ r.policer = 0xFFFF ∧ r.rangeA = 0xFFFF ∧ r.rangeB = 0xFFFF ∧ r.pattern = 0xFFFF ∧ r.value = [] ∧ r.mask = []) ∧
    (∃ (s : State) (src srcId : Nat) (tid : Nat) (bytes : List Byte) (t : Nat), src ≤ 4 ∧ (getPort s src).link = false) ∧
    (∃ (s : State) (k : Pkt) (rest : List Pkt) (n : Nat) (r : Rule), pathOn s = true ∧ s.cls.buffer = k :: rest ∧ s.cls.rules = [(n, r)] ∧ r.valid = true ∧ r.action = 1 ∧ r.opts = 0 ∧ r.policer = 0xFFFF ∧ r.rangeA = 0xFFFF ∧ r.rangeB = 0xFFFF ∧ r.pattern = 0xFFFF ∧ r.value = [] ∧ r.mask = []) ∧
    (∃ (s : State) (d : Doorbell) (p : List Byte), Ready specParseConfig d p s ∧ (let c := cmdOf specParseConfig d p s; ∀ e, e < 5 → c.u (24 + 4 * e) 1 = 0)) ∧
    (∃ (s : State) (d : Doorbell) (p : List Byte), Ready specRuleWrite d p s ∧ (let c := cmdOf specRuleWrite d p s; c.u 16 2 ≤ 4095 ∧ c.u 19 1 = 1 ∧ c.u 21 1 ≤ 7 ∧ c.u 22 1 ≤ 7 ∧ c.u 26 2 = 0xFFFF ∧ c.u 28 2 = 0xFFFF ∧ c.u 30 2 = 0xFFFF ∧ c.u 32 2 = 0xFFFF ∧ c.u 24 2 = 0 ∧ (List.range 64).any (fun i => byteAt (c.bytes 36 64) i &&& ~~~(byteAt (c.bytes 100 64) i) != 0) = false)) ∧
    (∃ (s : State) (d : Doorbell) (p : List Byte), Ready specRuleWrite d p s ∧ (let c := cmdOf specRuleWrite d p s; c.u 16 2 ≤ 4095 ∧ c.u 19 1 = 1 ∧ c.u 21 1 ≤ 7 ∧ c.u 22 1 ≤ 7 ∧ c.u 26 2 = 5 ∧ c.u 28 2 = 0xFFFF ∧ c.u 30 2 = 0xFFFF ∧ c.u 32 2 = 0xFFFF ∧ Tab.get? s.cls.policers 5 = none ∧ (List.range 64).any (fun i => byteAt (c.bytes 36 64) i &&& ~~~(byteAt (c.bytes 100 64) i) != 0) = false)) ∧
    (∃ (s : State) (d : Doorbell) (p : List Byte), Ready specRuleClear d p s ∧ (let c := cmdOf specRuleClear d p s; 1 ≤ c.u 18 2 ∧ c.u 16 2 + c.u 18 2 ≤ 4096)) ∧
    (∃ (s : State) (d : Doorbell) (p : List Byte), Ready specRangeSet d p s ∧ (let c := cmdOf specRangeSet d p s; c.u 16 2 ≤ 255 ∧ c.u 18 1 ≤ 62 ∧ c.u 18 1 % 2 = 0 ∧ c.u 20 2 ≤ c.u 22 2)) ∧
    (∃ (s : State) (d : Doorbell) (p : List Byte), Ready specPatternWrite d p s ∧ (let c := cmdOf specPatternWrite d p s; c.u 16 2 ≤ 1023 ∧ 1 ≤ c.u 18 1 ∧ c.u 18 1 ≤ 32 ∧ c.u 20 2 + c.u 18 1 ≤ 512 ∧ c.u 20 2 ≤ 511 ∧ ((c.bytes 24 32).drop (c.u 18 1)).any (· != 0) = false ∧ ((c.bytes 56 32).drop (c.u 18 1)).any (· != 0) = false ∧ byteAt (c.bytes 56 32) 0 ≠ 0 ∧ byteAt (c.bytes 56 32) (c.u 18 1 - 1) ≠ 0)) ∧
    (∃ (s : State) (d : Doorbell) (p : List Byte) (n : Nat) (r : Rule), Ready specPatternWrite d p s ∧ (let c := cmdOf specPatternWrite d p s; c.u 16 2 ≤ 1023 ∧ c.u 18 1 = 0 ∧ c.u 20 2 ≤ 511 ∧ (c.bytes 24 32).any (· != 0) = false ∧ (c.bytes 56 32).any (· != 0) = false ∧ s.cls.rules = [(n, r)] ∧ r.valid = true ∧ r.pattern = c.u 16 2)) ∧
    (∃ (s : State) (d : Doorbell) (p : List Byte), Ready specPolicerSet d p s ∧ (let c := cmdOf specPolicerSet d p s; c.u 16 2 ≤ 511 ∧ c.u 19 1 ≤ 7 ∧ 1 ≤ c.u 20 4 ∧ c.u 20 4 ≤ 150000000 ∧ 1 ≤ c.u 24 4 ∧ c.u 24 4 ≤ 65535)) ∧
    (∃ (s : State) (d : Doorbell) (p : List Byte), Ready specClassStats d p s ∧ (let c := cmdOf specClassStats d p s; c.u 16 1 = 2 ∧ bit (c.u 17 1) 0 = true)) ∧
    (∃ (s : State) (d : Doorbell) (p : List Byte), Ready specClassStats d p s ∧ (let c := cmdOf specClassStats d p s; c.u 16 1 = 2 ∧ bit (c.u 17 1) 0 = false)) ∧
    (∃ (s : State) (d : Doorbell) (p : List Byte), Ready specClassStats d p s ∧ (let c := cmdOf specClassStats d p s; c.u 16 1 = 0 ∧ 1 ≤ c.u 20 2 ∧ c.u 20 2 ≤ 120 ∧ c.u 18 2 + c.u 20 2 ≤ 4096 ∧ bit (c.u 17 1) 0 = true)) :=
  ⟨⟨{ live 4 with tm := { ports := [{ enable := true, link := true }] }, cls := { rules := [(5, dropAll)] } }, 0, 0, 0, [1, 2, 3], 50, 5, dropAll, by decide +kernel⟩,
   ⟨live 4, 0, 0, 0, [1, 2, 3], 50, by decide +kernel⟩,
   ⟨{ live 4 with cls := { rules := [(5, dropAll)], buffer := [{ src := 0, bytes := [1, 2] }] } }, { src := 0, bytes := [1, 2] }, [], 5, dropAll, by decide +kernel⟩,
   ⟨live 4, bell 8, fields 8 [(16, 4, 99), (20, 2, 3)], ready_of_readyOk (by decide +kernel), by decide +kernel⟩,
   ⟨live 4, bell 88, fields 88 [(16, 2, 7), (18, 1, 1), (19, 1, 1), (26, 2, 65535), (28, 2, 65535), (30, 2, 65535), (32, 2, 65535), (36, 1, 5), (100, 1, 7)], ready_of_readyOk (by decide +kernel), by decide +kernel⟩,
   ⟨live 4, bell 88, fields 88 [(16, 2, 7), (18, 1, 1), (19, 1, 1), (26, 2, 5), (28, 2, 65535), (30, 2, 65535), (32, 2, 65535), (36, 1, 5), (100, 1, 7)], ready_of_readyOk (by decide +kernel), by decide +kernel⟩,
   ⟨{ live 4 with cls := { rules := [(5, dropAll), (9, dropAll)] } }, bell 4, fields 4 [(16, 2, 5), (18, 2, 2)], ready_of_readyOk (by decide +kernel), by decide +kernel⟩,
   ⟨live 4, bell 8, fields 8 [(16, 2, 3), (18, 1, 4), (20, 2, 5), (22, 2, 6)], ready_of_readyOk (by decide +kernel), by decide +kernel⟩,
   ⟨live 4, bell 44, fields 44 [(16, 2, 3), (18, 1, 2), (20, 2, 5), (24, 2, 513), (56, 2, 65535)], ready_of_readyOk (by decide +kernel), by decide +kernel⟩,
   ⟨{ live 4 with cls := { rules := [(5, { dropAll with pattern := 3 })] } }, bell 4, fields 4 [(16, 2, 3)], 5, { dropAll with pattern := 3 }, ready_of_readyOk (by decide +kernel), by decide +kernel⟩,
   ⟨live 4, bell 12, fields 12 [(16, 2, 3), (18, 1, 3), (19, 1, 4), (20, 4, 1000), (24, 4, 16)], ready_of_readyOk (by decide +kernel), by decide +kernel⟩,
   ⟨live 4, bell 4, fields 4 [(16, 1, 2), (17, 1, 1)], ready_of_readyOk (by decide +kernel), by decide +kernel⟩,
   ⟨live 4, bell 4, fields 4 [(16, 1, 2)], ready_of_readyOk (by decide +kernel), by decide +kernel⟩,
   ⟨{ live 4 with cls := { rules := [(5, dropAll), (9, dropAll)] } }, bell 8, fields 8 [(17, 1, 1), (18, 2, 4), (20, 2, 4)], ready_of_readyOk (by decide +kernel), by decide +kernel⟩⟩

/-- The conditions of `TrafficManagerRowsTakeEffect` can be met. -/
theorem witness_TrafficManagerRowsTakeEffect :
    (∃ (s : State) (port : Fin 7) (k : QPkt) (y : Queue) (z : List Queue), port.val < 4 ∧ portReady s port.val = true ∧ s.cad.run = true ∧ s.modes.mode = 4 ∧ (getPort s port.val).gates.entries = [] ∧ (getPort s port.val).next = none ∧ (getPort s port.val).qs = y :: z ∧ z.all (fun q => q.q.isEmpty) = true ∧ y.strict = true ∧ y.shaper = false ∧ y.q = [k] ∧ k.ts = none) ∧
    (∃ (s : State) (port : Fin 7), portReady s port.val = false) ∧
    (∃ (s : State) (port : Fin 7) (q : Fin 8) (x : Queue), x = (getPort s port.val).qs.getD q.val {} ∧ x.shaper = true ∧ x.q ≠ [] ∧ x.credit < 0 ∧ 0 < x.slope ∧ s.modes.mode = 4 ∧ s.cad.run = true) ∧
    (∃ (s : State) (port : Fin 4) (entry : Nat) (e : Nat × Nat × Nat), (getPort s port.val).gates.entries[entry]? = some e ∧ s.modes.mode ≠ 3 ∧ s.cad.run = true) ∧
    (∃ (s : State) (port : Fin 4) (g : Gates), (getPort s port.val).next = some g ∧ s.modes.mode ≠ 3 ∧ s.cad.run = true) ∧
    (∃ (s : State) (port : Fin 5), (getPort s port.val).enable = true ∧ port.val < 4 ∧ s.outs.upTx.getLsbD port.val = true ∧ s.tm.chain = 0) ∧
    (∃ (s : State) (port : Fin 5), (getPort s port.val).enable = true ∧ port.val = 2 ∧ s.outs.upTx.getLsbD 2 = true ∧ s.tm.chain = 1 ∧ s.tm.chainTx = true ∧ (getPort s 3).link = true) ∧
    (∃ (s : State) (port : Fin 5), (getPort s port.val).link = true) ∧
    (∃ (s : State), s.tm.chain = 1 ∧ s.tm.chainTx = false) ∧
    (∃ (s : State), s.tm.chain = 1 ∧ s.tm.chainTx = true) ∧
    (∃ (s : State), s.tm.chain = 3 ∧ s.tm.chainEn = true ∧ s.tm.chainDue = false ∧ s.modes.mode = 4) ∧
    (∃ (s : State), s.tm.chain = 3 ∧ s.tm.chainEn = true ∧ s.tm.chainDue = false ∧ s.modes.mode = 3) ∧
    (∃ (s : State) (d : Doorbell) (p : List Byte), Ready specQueueConfig d p s ∧ (let c := cmdOf specQueueConfig d p s; c.u 16 1 = 0 ∧ c.u 17 1 ≤ 6 ∧ c.u 18 1 ≤ 7 ∧ c.u 20 1 ≤ 1 ∧ 1 ≤ c.u 21 1 ∧ -3 ≤ c.i 22 1 ∧ c.i 22 1 ≤ 3 ∧ 16 ≤ c.u 24 4 ∧ c.u 24 4 ≤ 131072)) ∧
    (∃ (s : State) (d : Doorbell) (p : List Byte), Ready specQueueConfig d p s ∧ (let c := cmdOf specQueueConfig d p s; c.u 16 1 = 0 ∧ c.u 17 1 = 7 ∧ 32 ≤ c.u 18 1 ∧ c.u 18 1 ≤ 61 ∧ 1 ≤ c.u 21 1 ∧ -3 ≤ c.i 22 1 ∧ c.i 22 1 ≤ 3 ∧ 16 ≤ c.u 24 4 ∧ c.u 24 4 ≤ 131072)) ∧
    (∃ (s : State) (d : Doorbell) (p : List Byte), Ready specQueueConfig d p s ∧ (let c := cmdOf specQueueConfig d p s; c.u 16 1 = 1 ∧ c.u 17 1 ≤ 3 ∧ c.u 18 1 = 0 ∧ c.u 20 1 ≤ 1 ∧ (bit (c.u 19 1) 1 = false ∨ c.u 20 1 = 0))) ∧
    (∃ (s : State) (d : Doorbell) (p : List Byte), Ready specShaperSet d p s ∧ (let c := cmdOf specShaperSet d p s; c.u 16 1 ≤ 6 ∧ c.u 17 1 ≤ 7 ∧ 1 ≤ c.u 20 4 ∧ c.u 20 4 ≤ 38400000 ∧ c.u 24 4 ≤ 65535 ∧ -65536 ≤ c.i 28 4 ∧ c.i 28 4 ≤ -256)) ∧
    (∃ (s : State) (d : Doorbell) (p : List Byte), Ready specGateListSet d p s ∧ (let c := cmdOf specGateListSet d p s; c.u 16 1 ≤ 3 ∧ c.u 17 1 ≤ 64 ∧ 1 ≤ c.u 18 1 ∧ c.u 18 1 ≤ 64 ∧ (∀ t, t < 8 → 64 ≤ c.u (28 + 2 * t) 2 ∧ c.u (28 + 2 * t) 2 ≤ 9216) ∧ ((portGateEntries c).all fun e => decide (e.1 < c.u 18 1)) = true ∧ badPortGate s (portGateEntries c) = none ∧ curBeat s < c.u 20 6)) ∧
    (∃ (s : State) (d : Doorbell) (p : List Byte), Ready specGateListSet d p s ∧ (let c := cmdOf specGateListSet d p s; c.u 16 1 ≤ 3 ∧ c.u 17 1 = 0 ∧ 1 ≤ c.u 18 1 ∧ c.u 18 1 ≤ 64 ∧ (∀ t, t < 8 → 64 ≤ c.u (28 + 2 * t) 2 ∧ c.u (28 + 2 * t) 2 ≤ 9216) ∧ c.u 20 6 ≠ 0 ∧ c.u 20 6 ≤ curBeat s ∧ bit (c.u 19 1) 0 = false)) ∧
    (∃ (s : State) (d : Doorbell) (p : List Byte), Ready specBufferConfig d p s ∧ (let c := cmdOf specBufferConfig d p s; c.u 16 4 % 64 = 0 ∧ 1024 ≤ c.u 16 4 ∧ c.u 16 4 ≤ 16384 ∧ c.u 20 4 = 0)) ∧
    (∃ (s : State) (d : Doorbell) (p : List Byte), Ready specChainPairSet d p s ∧ (let c := cmdOf specChainPairSet d p s; c.u 18 2 ≤ 10000 ∧ 10 ≤ c.u 20 2 ∧ c.u 20 2 ≤ 5000 ∧ 1 ≤ c.u 22 2 ∧ c.u 22 2 ≤ 3600 ∧ (getPort s 2).enable = true ∧ (getPort s 3).enable = true ∧ bit (c.u 16 1) 0 = true ∧ s.modes.mode = 4 ∧ s.tm.chain = 0)) ∧
    (∃ (s : State) (d : Doorbell) (p : List Byte), Ready specChainPairSet d p s ∧ (let c := cmdOf specChainPairSet d p s; c.u 18 2 ≤ 10000 ∧ 10 ≤ c.u 20 2 ∧ c.u 20 2 ≤ 5000 ∧ 1 ≤ c.u 22 2 ∧ c.u 22 2 ≤ 3600 ∧ (getPort s 2).enable = false)) ∧
    (∃ (s : State) (d : Doorbell) (p : List Byte), Ready specTmStats d p s ∧ (let c := cmdOf specTmStats d p s; c.u 16 1 = 1 ∧ bit (c.u 19 1) 0 = true)) ∧
    (∃ (s : State) (d : Doorbell) (p : List Byte), Ready specDwellConfig d p s ∧ (let c := cmdOf specDwellConfig d p s; c.u 17 1 = 0 ∧ 1 ≤ c.u 20 2 ∧ c.u 20 2 ≤ 4000 ∧ c.u 22 2 = s.nb.window ∧ 1 ≤ c.u 22 2 ∧ c.u 22 2 ≤ 3600 ∧ 1 ≤ c.u 24 4 ∧ c.u 24 4 ≤ c.u 22 2 * 1000 ∧ s.nb.subs = [])) :=
  ⟨⟨{ live 4 with tm := { ports := [{ enable := true, link := true, qs := [{ strict := true, q := [{ bytes := [1, 2, 3], cells := 1 }] }] }] }, outs := { z := false, upTx := 15 } }, 0, { bytes := [1, 2, 3], cells := 1 }, { strict := true, q := [{ bytes := [1, 2, 3], cells := 1 }] }, [], by decide +kernel⟩,
   ⟨live 4, 2, by decide +kernel⟩,
   ⟨{ live 4 with tm := { ports := [{ qs := [{ shaper := true, slope := 5, credit := -3, q := [{ bytes := [1], cells := 1 }] }] }] } }, 0, 0, { shaper := true, slope := 5, credit := -3, q := [{ bytes := [1], cells := 1 }] }, by decide +kernel⟩,
   ⟨{ live 4 with tm := { ports := [{ gates := { entries := [(0, 5, 3)] } }] } }, 0, 0, (0, 5, 3), by decide +kernel⟩,
   ⟨{ live 4 with tm := { ports := [{ next := some { from_ := 2, entries := [(0, 5, 3)] } }] } }, 0, { from_ := 2, entries := [(0, 5, 3)] }, by decide +kernel⟩,
   ⟨{ live 4 with tm := { ports := [{ enable := true }] }, outs := { z := false, upTx := 15 } }, 0, by decide +kernel⟩,
   ⟨{ live 4 with tm := { ports := [{}, {}, { enable := true }, { enable := true, link := true }], chain := 1, chainTx := true }, outs := { z := false, upTx := 15 } }, 2, by decide +kernel⟩,
   ⟨{ live 4 with tm := { ports := [{ enable := true, link := true }] } }, 0, by decide +kernel⟩,
   ⟨{ live 4 with tm := { chain := 1 } }, by decide +kernel⟩,
   ⟨{ live 4 with tm := { chain := 1, chainTx := true } }, by decide +kernel⟩,
   ⟨{ live 4 with tm := { chain := 3, chainEn := true } }, by decide +kernel⟩,
   ⟨{ live 3 with tm := { chain := 3, chainEn := true } }, by decide +kernel⟩,
   ⟨live 4, bell 12, fields 12 [(17, 1, 2), (18, 1, 3), (20, 1, 1), (21, 1, 9), (24, 4, 100), (19, 1, 1)], ready_of_readyOk (by decide +kernel), by decide +kernel⟩,
   ⟨live 4, bell 12, fields 12 [(17, 1, 7), (18, 1, 33), (21, 1, 9), (24, 4, 100), (19, 1, 1)], ready_of_readyOk (by decide +kernel), by decide +kernel⟩,
   ⟨live 4, bell 4, fields 4 [(16, 1, 1), (17, 1, 2), (19, 1, 3)], ready_of_readyOk (by decide +kernel), by decide +kernel⟩,
   ⟨live 4, bell 16, fields 16 [(16, 1, 2), (17, 1, 3), (18, 1, 1), (20, 4, 500), (24, 4, 300), (28, 4, 4294967040)], ready_of_readyOk (by decide +kernel), by decide +kernel⟩,
   ⟨live 4, bell 28, fields 28 [(16, 1, 1), (18, 1, 2), (20, 6, 9), (28, 2, 64), (30, 2, 64), (32, 2, 64), (34, 2, 64), (36, 2, 64), (38, 2, 64), (40, 2, 64), (42, 2, 64)], ready_of_readyOk (by decide +kernel), by decide +kernel⟩,
   ⟨atNs 1000000000 (live 4), bell 28, fields 28 [(16, 1, 1), (18, 1, 2), (20, 6, 9), (28, 2, 64), (30, 2, 64), (32, 2, 64), (34, 2, 64), (36, 2, 64), (38, 2, 64), (40, 2, 64), (42, 2, 64)], ready_of_readyOk (by decide +kernel), by decide +kernel⟩,
   ⟨live 4, bell 4, fields 4 [(16, 4, 2048)], ready_of_readyOk (by decide +kernel), by decide +kernel⟩,
   ⟨{ live 4 with tm := { ports := [{}, {}, { enable := true }, { enable := true, link := true }] } }, bell 8, fields 8 [(16, 1, 1), (20, 2, 10), (22, 2, 1)], ready_of_readyOk (by decide +kernel), by decide +kernel⟩,
   ⟨live 4, bell 8, fields 8 [(16, 1, 1), (20, 2, 10), (22, 2, 1)], ready_of_readyOk (by decide +kernel), by decide +kernel⟩,
   ⟨live 4, bell 4, fields 4 [(16, 1, 1), (19, 1, 1)], ready_of_readyOk (by decide +kernel), by decide +kernel⟩,
   ⟨live 4, bell 12, fields 12 [(16, 1, 3), (20, 2, 400), (22, 2, 20), (24, 4, 400)], ready_of_readyOk (by decide +kernel), by decide +kernel⟩⟩

/-- The conditions of `ForwardingRowsTakeEffect` can be met. -/
theorem witness_ForwardingRowsTakeEffect :
    (∃ (s : State) (bucket : Nat) (i : Nat) (e : L2e) (o : Bool), sweepOn s = true ∧ 0 < bucket ∧ bucket < 65535 ∧ s.fwd.sweeping = true ∧ bucketAt s.fwd.l2 bucket = { slots := [(i, e)], ovf := o } ∧ e.static = false ∧ l2Pinned s e = false) ∧
    (∃ (s : State) (bucket : Nat) (e : L2e), sweepOn s = true ∧ bucket = 0 ∧ bucketAt s.fwd.l2 0 = { slots := [(0, e)] } ∧ e.static = true) ∧
    (∃ (s : State), s.fwd.rebuild = true ∧ s.fwd.v4 = [] ∧ s.fwd.v6 = [] ∧ s.fwd.l2 = []) ∧
    (∃ (s : State) (d : Doorbell) (p : List Byte) (b i : Nat) (o : L2e), Ready specL2Add d p s ∧ (let c := cmdOf specL2Add d p s; dramReady s = true ∧ c.u 22 2 ≤ 4094 ∧ destBad s (unBe (c.bytes 16 6)) (c.u 24 1) (c.u 26 2) (bit (c.u 25 1) 0) = 0 ∧ bit (c.u 25 1) 1 = false ∧ c.u 24 1 ≠ 6 ∧ heldL2 s (unBe (c.bytes 16 6)) (c.u 22 2) = false ∧ l2Find s (unBe (c.bytes 16 6)) (c.u 22 2) = some (b, i, o))) ∧
    (∃ (s : State) (d : Doorbell) (p : List Byte), Ready specL2Add d p s ∧ (let c := cmdOf specL2Add d p s; dramReady s = true ∧ c.u 22 2 ≤ 4094 ∧ destBad s (unBe (c.bytes 16 6)) (c.u 24 1) (c.u 26 2) (bit (c.u 25 1) 0) = 0 ∧ bit (c.u 25 1) 1 = false ∧ c.u 24 1 ≠ 6 ∧ heldL2 s (unBe (c.bytes 16 6)) (c.u 22 2) = false ∧ s.fwd.l2 = [] ∧ s.fwd.l2n = 0)) ∧
    (∃ (s : State) (d : Doorbell) (p : List Byte), Ready specL2Remove d p s ∧ (let c := cmdOf specL2Remove d p s; dramReady s = true ∧ c.u 22 2 ≤ 4094 ∧ l2Find s (unBe (c.bytes 16 6)) (c.u 22 2) = none)) ∧
    (∃ (s : State) (d : Doorbell) (p : List Byte) (b i : Nat) (o : L2e), Ready specL2Remove d p s ∧ (let c := cmdOf specL2Remove d p s; dramReady s = true ∧ c.u 22 2 ≤ 4094 ∧ heldL2 s (unBe (c.bytes 16 6)) (c.u 22 2) = false ∧ l2Find s (unBe (c.bytes 16 6)) (c.u 22 2) = some (b, i, o))) ∧
    (∃ (s : State) (d : Doorbell) (p : List Byte), Ready specL2Flush d p s ∧ pendingOf s d.mb.val < 32 ∧ (let c := cmdOf specL2Flush d p s; dramReady s = true ∧ c.u 20 2 ≤ 4094 ∧ 1 ≤ c.u 17 1 ∧ c.u 17 1 ≤ 6)) ∧
    (∃ (s : State) (l : LongCmd) (b : Nat) (e f : L2e), findLong s 0x0A03 = some l ∧ s.fwd.l2 = [(b, { slots := [(0, e), (1, f)] })] ∧ flushes l.cmd e = true ∧ flushes l.cmd f = false ∧ heldL2 s e.mac e.vid = false) ∧
    (∃ (s : State) (d : Doorbell) (p : List Byte), Ready specRouteAdd d p s ∧ (let c := cmdOf specRouteAdd d p s; dramReady s = true ∧ c.u 16 1 ≤ 1 ∧ c.u 17 1 = 0 ∧ (cmdRoute c).num = 0 ∧ c.bytes 28 12 = List.replicate 12 0 ∧ bit (c.u 18 1) 0 = false ∧ bit (c.u 18 1) 1 = false ∧ c.u 20 2 ≤ 16383 ∧ nhSet s (c.u 20 2) = true ∧ s.air.bfs = [] ∧ (∀ q, q ∈ routesOf s 0 ++ routesOf s 1 → q.pin = false))) ∧
    (∃ (s : State) (d : Doorbell) (p : List Byte), Ready specRouteRemove d p s ∧ (let c := cmdOf specRouteRemove d p s; dramReady s = true ∧ (cmdRoute c).keyOk = true ∧ routeFind s (c.u 16 1) (c.u 17 1) (cmdRoute c).num = none)) ∧
    (∃ (s : State) (d : Doorbell) (p : List Byte) (r : Route), Ready specRouteRemove d p s ∧ (let c := cmdOf specRouteRemove d p s; dramReady s = true ∧ (cmdRoute c).keyOk = true ∧ c.u 17 1 = 0 ∧ s.fwd.zero.getD (c.u 16 1) none = some r ∧ s.air.bfs = [])) ∧
    (∃ (s : State) (d : Doorbell) (p : List Byte), Ready specRouteBulk d p s ∧ pendingOf s d.mb.val < 32 ∧ (let c := cmdOf specRouteBulk d p s; dramReady s = true ∧ c.u 16 8 % 8 = 0 ∧ 1 ≤ c.u 24 4 ∧ c.u 24 4 ≤ 65536)) ∧
    (∃ (s : State) (records : List Byte) (l : LongCmd), findLong s 0x0A06 = some l ∧ l.cmd.u 24 4 = 1 ∧ 1 < fld (slice records 0 24) 3 1) ∧
    (∃ (s : State) (records : List Byte) (l : LongCmd) (r : Route), findLong s 0x0A06 = some l ∧ l.cmd.u 24 4 = 1 ∧ slice records 0 24 = [0, 0, 0, 1] ++ List.replicate 20 0 ∧ s.fwd.zero = [some r, none] ∧ s.air.bfs = []) ∧
    (∃ (s : State) (d : Doorbell) (p : List Byte), Ready specNexthopSet d p s ∧ (let c := cmdOf specNexthopSet d p s; c.u 16 2 ≤ 16383 ∧ c.u 16 2 ≠ 0 ∧ c.u 18 1 = 1 ∧ c.u 20 2 ≤ 4 ∧ c.u 22 2 ≤ 4094 ∧ 64 ≤ c.u 36 2 ∧ c.u 36 2 ≤ 9216 ∧ c.u 38 2 ≤ 511 ∧ c.u 40 1 ≤ 7)) ∧
    (∃ (s : State) (d : Doorbell) (p : List Byte), Ready specEcmpSet d p s ∧ (let c := cmdOf specEcmpSet d p s; c.u 16 2 ≤ 1023 ∧ c.u 18 1 = 2 ∧ c.u 20 2 ≤ 16383 ∧ c.u 22 2 ≤ 16383 ∧ nhSet s (c.u 20 2) = true ∧ nhSet s (c.u 22 2) = true)) ∧
    (∃ (s : State) (d : Doorbell) (p : List Byte), Ready specEcmpSet d p s ∧ (let c := cmdOf specEcmpSet d p s; c.u 16 2 ≤ 1023 ∧ c.u 18 1 = 2 ∧ c.u 20 2 ≤ 16383 ∧ c.u 22 2 ≤ 16383 ∧ nhSet s (c.u 22 2) = false)) ∧
    (∃ (s : State) (d : Doorbell) (p : List Byte), Ready specAgingSet d p s ∧ (let c := cmdOf specAgingSet d p s; c.u 16 2 ≤ 1000 ∧ (∀ i, i < 24 → c.u (24 + 2 * i) 2 ≤ 4094))) ∧
    (∃ (s : State) (d : Doorbell) (p : List Byte), Ready specFwdStats d p s) :=
  ⟨⟨{ live 4 with fwd := { sweeping := true, l2 := [(7, { slots := [(2, { mac := 77, vid := 5, static := false, stale := true, type := 1, dest := 2 })], ovf := true })], l2n := 1 } }, 7, 2, { mac := 77, vid := 5, static := false, stale := true, type := 1, dest := 2 }, true, by decide +kernel⟩,
   ⟨{ live 4 with fwd := { l2 := [(0, { slots := [(0, { mac := 77, vid := 5, static := true, type := 1, dest := 2 })] })], l2n := 1 } }, 0, { mac := 77, vid := 5, static := true, type := 1, dest := 2 }, by decide +kernel⟩,
   ⟨{ live 4 with fwd := { rebuild := true, removals := 16384, bloom := [5, 9] } }, by decide +kernel⟩,
   ⟨{ live 4 with fwd := { l2n := 1, l2 := [(l2Bucket 1 77 5, { slots := [(2, { mac := 77, vid := 5, static := false, type := 1, dest := 2 })] })] } }, bell 12, fields 12 [(16, 6, 84662395338752), (22, 2, 5), (24, 1, 1), (25, 1, 1), (26, 2, 3)], l2Bucket 1 77 5, 2, { mac := 77, vid := 5, static := false, type := 1, dest := 2 }, ready_of_readyOk (by decide +kernel), by refine ⟨by decide +kernel, by decide +kernel, by decide +kernel, by decide +kernel, by decide +kernel, by decide +kernel, l2_probe rfl (by decide +kernel) (by decide +kernel) rfl rfl⟩⟩,
   ⟨live 4, bell 12, fields 12 [(16, 6, 84662395338752), (22, 2, 5), (24, 1, 1), (25, 1, 1), (26, 2, 3)], ready_of_readyOk (by decide +kernel), by decide +kernel⟩,
   ⟨live 4, bell 8, fields 8 [(16, 6, 84662395338752), (22, 2, 5)], ready_of_readyOk (by decide +kernel), by decide +kernel⟩,
   ⟨{ live 4 with fwd := { l2n := 1, l2 := [(l2Bucket 1 77 5, { slots := [(2, { mac := 77, vid := 5, static := false, type := 1, dest := 2 })] })] } }, bell 8, fields 8 [(16, 6, 84662395338752), (22, 2, 5)], l2Bucket 1 77 5, 2, { mac := 77, vid := 5, static := false, type := 1, dest := 2 }, ready_of_readyOk (by decide +kernel), by refine ⟨by decide +kernel, by decide +kernel, by decide +kernel, l2_probe rfl (by decide +kernel) (by decide +kernel) rfl rfl⟩⟩,
   ⟨live 4, bell 4, fields 4 [(16, 1, 2), (17, 1, 1), (18, 2, 2)], ready_of_readyOk (by decide +kernel), by decide +kernel, by decide +kernel⟩,
   ⟨{ live 4 with mbx := { longs := [{ cmd := { op := 0x0A03, par := [2, 1, 2, 0, 0, 0, 0, 0] } }] }, fwd := { l2n := 2, l2 := [(7, { slots := [(0, { mac := 77, vid := 5, static := false, type := 1, dest := 2 }), (1, { mac := 78, vid := 5, static := false, type := 1, dest := 3 })] })] } }, { cmd := { op := 0x0A03, par := [2, 1, 2, 0, 0, 0, 0, 0] } }, 7, { mac := 77, vid := 5, static := false, type := 1, dest := 2 }, { mac := 78, vid := 5, static := false, type := 1, dest := 3 }, by decide +kernel⟩,
   ⟨{ live 4 with fwd := { nh := [(9, {})] } }, bell 24, fields 24 [(18, 1, 4), (20, 2, 9), (36, 4, 0)], ready_of_readyOk (by decide +kernel), by decide +kernel⟩,
   ⟨live 4, bell 24, fields 24 [(24, 4, 0), (36, 4, 0)], ready_of_readyOk (by decide +kernel), by decide +kernel⟩,
   ⟨{ live 4 with fwd := { zero := [some { plen := 0, pre := 0, ecmp := false, result := 0 }, none], rn := [1, 0] } }, bell 24, fields 24 [(24, 4, 0), (36, 4, 0)], { plen := 0, pre := 0, ecmp := false, result := 0 }, ready_of_readyOk (by decide +kernel), by decide +kernel⟩,
   ⟨live 4, bell 12, fields 12 [(16, 8, 4096), (24, 4, 3)], ready_of_readyOk (by decide +kernel), by decide +kernel, by decide +kernel⟩,
   ⟨{ live 4 with mbx := { longs := [{ cmd := { op := 0x0A06, par := [0, 0, 0, 0, 0, 0, 0, 0, 1, 0, 0, 0] } }] } }, [0, 0, 0, 2], { cmd := { op := 0x0A06, par := [0, 0, 0, 0, 0, 0, 0, 0, 1, 0, 0, 0] } }, by decide +kernel⟩,
   ⟨{ live 4 with mbx := { longs := [{ cmd := { op := 0x0A06, par := [0, 0, 0, 0, 0, 0, 0, 0, 1, 0, 0, 0] } }] }, fwd := { rn := [1, 0], zero := [some { plen := 0, pre := 0, ecmp := false, result := 0 }, none] } }, [0, 0, 0, 1] ++ List.replicate 20 0, { cmd := { op := 0x0A06, par := [0, 0, 0, 0, 0, 0, 0, 0, 1, 0, 0, 0] } }, { plen := 0, pre := 0, ecmp := false, result := 0 }, by decide +kernel⟩,
   ⟨live 4, bell 28, fields 28 [(16, 2, 9), (18, 1, 1), (19, 1, 5), (20, 2, 3), (22, 2, 7), (24, 6, 99), (30, 6, 98), (36, 2, 1500), (38, 2, 3), (40, 1, 2)], ready_of_readyOk (by decide +kernel), by decide +kernel⟩,
   ⟨{ live 4 with fwd := { nh := [(9, {})] } }, bell 36, fields 36 [(16, 2, 7), (18, 1, 2), (20, 2, 9), (22, 2, 9), (50, 2, 0)], ready_of_readyOk (by decide +kernel), by decide +kernel⟩,
   ⟨{ live 4 with fwd := { nh := [(9, {})] } }, bell 36, fields 36 [(16, 2, 7), (18, 1, 2), (20, 2, 9), (22, 2, 8), (50, 2, 0)], ready_of_readyOk (by decide +kernel), by decide +kernel⟩,
   ⟨live 4, bell 56, fields 56 [(16, 2, 100), (18, 2, 3), (20, 1, 1), (24, 2, 7), (70, 2, 4094)], ready_of_readyOk (by decide +kernel), by decide +kernel⟩,
   ⟨{ live 4 with fwd := { l2n := 7, ctr := [1, 2, 3] } }, bell 4, fields 4 [(16, 1, 1)], ready_of_readyOk (by decide +kernel)⟩⟩

/-- The conditions of `NarrowbandRowsTakeEffect` can be met. -/
theorem witness_NarrowbandRowsTakeEffect :
    (∃ (s : State) (x : Fin 4), (getX s x.val).handed = none) ∧
    (∃ (s : State) (x : Fin 4) (q : NbReq), (getX s x.val).handed = some q ∧ (getX s x.val).tx = none ∧ nbFree s x.val = true ∧ (getX s x.val).st = 1 ∧ q.earliest ≤ nowNs s ∧ nowNs s < q.latest ∧ s.modes.mode = 5 ∧ q.chan = none ∧ q.cca = true) ∧
    (∃ (s : State) (x : Fin 4) (power : Int) (t : NbTx), (getX s x.val).tx = some t ∧ t.sensing = true ∧ t.req.kind = .relay ∧ 2 * (getX s x.val).ccaDbm ≤ power ∧ (∀ y ∈ s.nb.x, y.reqs = [] ∧ y.moveDue = false)) ∧
    (∃ (s : State) (x : Fin 4) (power : Int) (t : NbTx), (getX s x.val).tx = some t ∧ t.sensing = true ∧ t.busy = false ∧ (getX s x.val).st = 1 ∧ power < 2 * (getX s x.val).ccaDbm ∧ s.modes.mode = 5 ∧ t.at_ + (getX s x.val).ccaT ≤ nowNs s ∧ nowNs s < t.req.latest ∧ (getX s x.val).hopping = false ∧ ledgerFails s (getX s x.val).ch ((getX s x.val).paOn t.req) (nowNs s) = none) ∧
    (∃ (s : State) (x : Fin 4) (q : NbReq), (getX s x.val).handed = some q ∧ q.kind = .relay ∧ (getX s x.val).st ≠ 6 ∧ (∀ y ∈ s.nb.x, y.reqs = [] ∧ y.moveDue = false)) ∧
    (∃ (s : State) (x : Fin 4) (err : Option Int) (t : NbTx), (getX s x.val).tx = some t ∧ t.sensing = false ∧ t.req.kind = .relay ∧ err = none ∧ (getX s x.val).rlN = 0 ∧ (∀ y ∈ s.nb.x, y.reqs = [] ∧ y.moveDue = false)) ∧
    (∃ (s : State) (x : Fin 4) (t : NbTx), (getX s x.val).tx = some t ∧ t.sensing = false ∧ t.req.kind = .relay ∧ (∀ y ∈ s.nb.x, y.reqs = [] ∧ y.moveDue = false)) ∧
    (∃ (s : State) (x : Fin 4) (rl : Nat) (t : NbTx), (getX s x.val).tx = some t ∧ t.sensing = false ∧ t.req.kind ≠ .tuner ∧ (getX s x.val).rlProtect ≤ rl) ∧
    (∃ (s : State) (x : Fin 4) (rl : Nat) (t : NbTx), (getX s x.val).tx = some t ∧ t.sensing = false ∧ t.req.kind ≠ .tuner ∧ rl < (getX s x.val).rlProtect ∧ (getX s x.val).lowRun = 1 ∧ (getX s x.val).folded = false) ∧
    (∃ (s : State) (x : Fin 4), (getX s x.val).st = 5 ∧ (getX s x.val).ch < s.nb.count ∧ domOn s 2 = true ∧ (∀ y ∈ s.nb.x, y.reqs = [] ∧ y.moveDue = false)) ∧
    (∃ (s : State) (x : Fin 4), (getX s x.val).st = 5 ∧ domOn s 2 = true ∧ (getX s x.val).tried = false) ∧
    (∃ (s : State) (x : Fin 4), (getX s x.val).st = 5 ∧ domOn s 2 = true ∧ (getX s x.val).tried = true ∧ (getX s x.val).handed = none ∧ (getX s x.val).tx = none ∧ (∀ y ∈ s.nb.x, y.reqs = [])) ∧
    (∃ (s : State) (x : Fin 4), (getX s x.val).hopping = true ∧ (getX s x.val).enable = true ∧ (getX s x.val).st = 1 ∧ hopHold s = false ∧ domOn s 2 = true ∧ (getX s x.val).tx = none ∧ (getX s x.val).slot ≠ some (slotNow s (getX s x.val))) ∧
    (∃ (s : State) (x : Fin 4), (getX s x.val).hopping = false) ∧
    (∃ (s : State) (x : Fin 4) (power : Int), nbListens s x.val = true ∧ (getX s x.val).st = 1) ∧
    (∃ (s : State) (x : Fin 4) (power : Int), nbListens s x.val = false) ∧
    (∃ (s : State) (x : Fin 4), (getX s x.val).st = 2) ∧
    (∃ (s : State) (x : Fin 4) (power : Int), (getX s x.val).st = 2 ∧ (getX s x.val).level + 2 * ((getX s x.val).restartDb : Int) ≤ power) ∧
    (∃ (s : State) (x : Fin 4) (power : Int), (getX s x.val).st = 3 ∧ (getX s x.val).capture = true ∧ (getX s x.val).level + 2 * ((getX s x.val).captureDb : Int) ≤ power) ∧
    (∃ (s : State) (x : Fin 4) (power : Int), (getX s x.val).st = 3 ∧ (getX s x.val).capture = false ∧ (getX s x.val).capLost = false ∧ (getX s x.val).level + 2 * ((getX s x.val).captureDb : Int) ≤ power) ∧
    (∃ (s : State) (x : Fin 4) (phr : W16) (rssi : Int), nbListens s x.val = true ∧ (getX s x.val).st = 2 ∧ phrOk phr = true) ∧
    (∃ (s : State) (x : Fin 4) (phr : W16) (rssi : Int), nbListens s x.val = true ∧ (getX s x.val).st = 2 ∧ phrOk phr = false) ∧
    (∃ (s : State) (x : Fin 4) (frame : List Byte) (fcs2 fcsOk : Bool) (rssi : Int) (t : Nat), nbListens s x.val = true ∧ (getX s x.val).st = 2 ∧ fcsOk = false ∧ (∀ y ∈ s.nb.x, y.reqs = [] ∧ y.moveDue = false)) ∧
    (∃ (s : State) (d : Doorbell) (p : List Byte), Ready specNbConfig d p s ∧ (let c := cmdOf specNbConfig d p s; c.u 16 1 ≤ 3 ∧ bit (c.u 17 1) 0 = false ∧ (getX s (c.u 16 1)).st = 0 ∧ (getX s (c.u 16 1)).tx = none ∧ (getX s (c.u 16 1)).tried = false ∧ (getX s (c.u 16 1)).enable = false ∧ (∀ y ∈ s.nb.x, y.enable = false ∧ y.collide = false ∧ y.reqs = []) ∧ c.u 18 1 ≤ 2 ∧ 4 ≤ c.u 19 1 ∧ c.u 19 1 ≤ 32 ∧ 10 ≤ c.u 20 2 ∧ c.u 20 2 ≤ 300 ∧ c.u 22 1 ≤ 1 ∧ -20 ≤ c.i 24 1 ∧ c.i 24 1 ≤ 40 ∧ 2 ≤ c.u 25 1 ∧ c.u 25 1 ≤ 64 ∧ -110 ≤ c.i 28 1 ∧ c.i 28 1 ≤ -60 ∧ 6 ≤ c.u 29 1 ∧ c.u 29 1 ≤ 20 ∧ 4 ≤ c.u 30 1 ∧ c.u 30 1 ≤ 20 ∧ 4 ≤ c.u 31 1 ∧ c.u 31 1 ≤ 40 ∧ c.u 31 1 + 4 ≤ c.u 32 1 ∧ c.u 32 1 ≤ 80 ∧ 64 ≤ c.u 34 2 ∧ c.u 34 2 ≤ 5000)) ∧
    (∃ (s : State) (d : Doorbell) (p : List Byte), Ready specNbConfig d p s ∧ (let c := cmdOf specNbConfig d p s; c.u 16 1 ≤ 3 ∧ bit (c.u 17 1) 0 = true ∧ s.nb.count = 0 ∧ (getX s (c.u 16 1)).st = 0 ∧ (getX s (c.u 16 1)).tx = none ∧ (getX s (c.u 16 1)).tried = false ∧ (getX s (c.u 16 1)).enable = false ∧ (∀ y ∈ s.nb.x, y.enable = false ∧ y.collide = false ∧ y.reqs = []) ∧ c.u 18 1 ≤ 2 ∧ 4 ≤ c.u 19 1 ∧ c.u 19 1 ≤ 32 ∧ 10 ≤ c.u 20 2 ∧ c.u 20 2 ≤ 300 ∧ c.u 22 1 ≤ 1 ∧ -20 ≤ c.i 24 1 ∧ c.i 24 1 ≤ 40 ∧ 2 ≤ c.u 25 1 ∧ c.u 25 1 ≤ 64 ∧ -110 ≤ c.i 28 1 ∧ c.i 28 1 ≤ -60 ∧ 6 ≤ c.u 29 1 ∧ c.u 29 1 ≤ 20 ∧ 4 ≤ c.u 30 1 ∧ c.u 30 1 ≤ 20 ∧ 4 ≤ c.u 31 1 ∧ c.u 31 1 ≤ 40 ∧ c.u 31 1 + 4 ≤ c.u 32 1 ∧ c.u 32 1 ≤ 80 ∧ 64 ≤ c.u 34 2 ∧ c.u 34 2 ≤ 5000)) ∧
    (∃ (s : State) (d : Doorbell) (p : List Byte), Ready specNbConfig d p s ∧ (let c := cmdOf specNbConfig d p s; c.u 16 1 ≤ 3 ∧ c.u 19 1 < 4)) ∧
    (∃ (s : State) (d : Doorbell) (p : List Byte), Ready specNbChannelPlan d p s ∧ (let c := cmdOf specNbChannelPlan d p s; c.u 16 1 = 0 ∧ 1 ≤ c.u 17 1 ∧ c.u 17 1 ≤ 64 ∧ 750000 ≤ c.u 20 4 ∧ c.u 20 4 ≤ 960000 ∧ 12500 ≤ c.u 24 4 ∧ c.u 24 4 ≤ 2000000 ∧ s.nb.x.any (·.enable) = false)) ∧
    (∃ (s : State) (d : Doorbell) (p : List Byte), Ready specNbChannelPlan d p s ∧ (let c := cmdOf specNbChannelPlan d p s; c.u 16 1 = 0 ∧ 1 ≤ c.u 17 1 ∧ c.u 17 1 ≤ 64 ∧ 750000 ≤ c.u 20 4 ∧ c.u 20 4 ≤ 960000 ∧ 12500 ≤ c.u 24 4 ∧ c.u 24 4 ≤ 2000000 ∧ s.nb.x.any (·.enable) = true)) ∧
    (∃ (s : State) (d : Doorbell) (p : List Byte), Ready specNbChannelPlan d p s ∧ (let c := cmdOf specNbChannelPlan d p s; c.u 16 1 = 1 ∧ c.u 17 1 ≤ 3 ∧ c.u 18 1 = 0 ∧ c.u 19 1 < s.nb.count ∧ c.u 20 1 < s.nb.count ∧ c.u 21 1 = 1 ∧ 1 ≤ c.u 22 2 ∧ c.u 22 2 ≤ 10000 ∧ c.u 24 2 = 0 ∧ c.u 28 1 < s.nb.count ∧ (∀ k, k < 64 → c.u (92 + 2 * k) 1 = 0xFF ∧ c.u (93 + 2 * k) 1 = 0xFF) ∧ (getX s (c.u 17 1)).enable = false ∧ (getX s (c.u 17 1)).st = 0 ∧ (∀ y ∈ s.nb.x, y.moveDue = false))) ∧
    (∃ (s : State) (d : Doorbell) (p : List Byte), Ready specTunerRun d p s ∧ pendingOf s d.mb.val < 32 ∧ (let c := cmdOf specTunerRun d p s; c.u 16 1 ≤ 3 ∧ 1 ≤ c.u 19 1 ∧ c.u 19 1 ≤ 64 ∧ c.u 18 1 + c.u 19 1 ≤ s.nb.count ∧ s.modes.mode = 4 ∧ (getX s (c.u 16 1)).enable = true)) ∧
    (∃ (s : State) (x : Fin 4) (t : Tune) (l : LongCmd), (getX s x.val).tune = some t ∧ t.cmd = true ∧ t.ended = true ∧ findLong s 0x0804 (fun c => c.u 16 1 == x.val) = some l) ∧
    (∃ (s : State) (x : Fin 4), nbFree s x.val = true ∧ (getX s x.val).st = 1 ∧ (getX s x.val).mismatch = true ∧ (getX s x.val).autoTune = true ∧ (getX s x.val).tune = none ∧ (getX s x.val).tx = none ∧ (getX s x.val).handed = none) ∧
    (∃ (s : State) (x : Fin 4) (t : Tune) (r : Nat), (getX s x.val).tune = some t ∧ t.retryAt = some r) ∧
    (∃ (s : State) (x : Fin 4) (t : Tune), (getX s x.val).tune = some t ∧ t.ended = false ∧ t.cmd = true ∧ t.chan = t.last) ∧
    (∃ (s : State) (d : Doorbell) (p : List Byte), Ready specNbStats d p s ∧ (let c := cmdOf specNbStats d p s; c.u 16 1 ≤ 3 ∧ c.u 17 1 = 1 ∧ bit (c.u 18 1) 0 = true)) ∧
    (∃ (s : State) (d : Doorbell) (p : List Byte), Ready specNbStats d p s ∧ (let c := cmdOf specNbStats d p s; c.u 16 1 ≤ 3 ∧ c.u 17 1 = 0 ∧ bit (c.u 18 1) 0 = false ∧ blanked s (2 + c.u 16 1) = false)) :=
  ⟨⟨live 5, 1, by decide +kernel⟩,
   ⟨onX 1 (fun x => { x with enable := true, st := 1, handed := some { kind := .relay, psdu := [1, 2], earliest := 10, latest := 900 } }) (atNs 50 (live 5)), 1, { kind := .relay, psdu := [1, 2], earliest := 10, latest := 900 }, by decide +kernel⟩,
   ⟨onX 1 (fun x => { x with enable := true, st := 1, tx := some { req := { kind := .relay, psdu := [1, 2], earliest := 10, latest := 900 }, at_ := 5, d := 100, sensing := true } }) (atNs 50 (live 5)), 1, -100, { req := { kind := .relay, psdu := [1, 2], earliest := 10, latest := 900 }, at_ := 5, d := 100, sensing := true }, by decide +kernel⟩,
   ⟨onX 1 (fun x => { x with enable := true, st := 1, tx := some { req := { kind := .relay, psdu := [1, 2], earliest := 10, latest := 9000000 }, at_ := 5, d := 100, sensing := true } }) (atNs 500000 (live 5)), 1, -200, { req := { kind := .relay, psdu := [1, 2], earliest := 10, latest := 9000000 }, at_ := 5, d := 100, sensing := true }, by decide +kernel⟩,
   ⟨onX 1 (fun x => { x with enable := true, st := 1, handed := some { kind := .relay, psdu := [1, 2], earliest := 10, latest := 900 } }) (atNs 50 (live 5)), 1, { kind := .relay, psdu := [1, 2], earliest := 10, latest := 900 }, by decide +kernel⟩,
   ⟨{ onX 1 (fun x => { x with enable := true, st := 4, tx := some { req := { kind := .relay, psdu := [1, 2], earliest := 10, latest := 900 }, at_ := 5, d := 100 } }) (atNs 50 (live 5)) with outs := { nbPa := 7 } }, 1, none, { req := { kind := .relay, psdu := [1, 2], earliest := 10, latest := 900 }, at_ := 5, d := 100 }, by decide +kernel⟩,
   ⟨{ onX 1 (fun x => { x with enable := true, st := 4, tx := some { req := { kind := .relay, psdu := [1, 2], earliest := 10, latest := 900 }, at_ := 5, d := 100 } }) (atNs 50 (live 5)) with outs := { nbPa := 7 } }, 1, { req := { kind := .relay, psdu := [1, 2], earliest := 10, latest := 900 }, at_ := 5, d := 100 }, by decide +kernel⟩,
   ⟨onX 1 (fun x => { x with enable := true, st := 4, lowRun := 1, tx := some { req := { kind := .relay, psdu := [1, 2], earliest := 10, latest := 900 }, at_ := 5, d := 100 } }) (atNs 50 (live 5)), 1, 30, { req := { kind := .relay, psdu := [1, 2], earliest := 10, latest := 900 }, at_ := 5, d := 100 }, by decide +kernel⟩,
   ⟨onX 1 (fun x => { x with enable := true, st := 4, lowRun := 1, tx := some { req := { kind := .relay, psdu := [1, 2], earliest := 10, latest := 900 }, at_ := 5, d := 100 } }) (atNs 50 (live 5)), 1, 3, { req := { kind := .relay, psdu := [1, 2], earliest := 10, latest := 900 }, at_ := 5, d := 100 }, by decide +kernel⟩,
   ⟨{ onX 1 (fun x => { x with enable := true, st := 5, ch := 2, tried := true }) (live 5) with nb := { x := [{}, { enable := true, st := 5, ch := 2, tried := true }, {}, {}], count := 4 } }, 1, by decide +kernel⟩,
   ⟨onX 1 (fun x => { x with enable := true, st := 5 }) (live 5), 1, by decide +kernel⟩,
   ⟨onX 1 (fun x => { x with enable := true, st := 5, tried := true }) (live 5), 1, by decide +kernel⟩,
   ⟨onX 1 (fun x => { x with enable := true, st := 1, hopping := true, hopSeq := [3, 4], slot := some 9 }) (live 5), 1, by decide +kernel⟩,
   ⟨live 5, 1, by decide +kernel⟩,
   ⟨onX 1 (fun x => { x with enable := true, st := 1 }) (live 5), 1, -120, by decide +kernel⟩,
   ⟨live 5, 1, -120, by decide +kernel⟩,
   ⟨onX 1 (fun x => { x with enable := true, st := 2 }) (live 5), 1, by decide +kernel⟩,
   ⟨onX 1 (fun x => { x with enable := true, st := 2, level := -150 }) (live 5), 1, -120, by decide +kernel⟩,
   ⟨onX 1 (fun x => { x with enable := true, st := 3, capture := true, level := -150 }) (live 5), 1, -120, by decide +kernel⟩,
   ⟨onX 1 (fun x => { x with enable := true, st := 3, level := -150 }) (live 5), 1, -120, by decide +kernel⟩,
   ⟨onX 1 (fun x => { x with enable := true, st := 2 }) (live 5), 1, 0x0020, -300, by decide +kernel⟩,
   ⟨onX 1 (fun x => { x with enable := true, st := 2 }) (live 5), 1, 0x8020, -120, by decide +kernel⟩,
   ⟨onX 1 (fun x => { x with enable := true, st := 2 }) (live 5), 1, [1, 2, 3], false, false, -120, 5, by decide +kernel⟩,
   ⟨live 4, bell 24, fields 24 [(16, 1, 2), (17, 1, 6), (18, 1, 2), (19, 1, 9), (20, 2, 100), (22, 1, 1), (24, 1, 12), (25, 1, 20), (26, 2, 77), (28, 1, 170), (29, 1, 10), (30, 1, 9), (31, 1, 20), (32, 1, 41), (34, 2, 160), (36, 4, 0)], ready_of_readyOk (by decide +kernel), by decide +kernel⟩,
   ⟨live 4, bell 24, fields 24 [(16, 1, 2), (17, 1, 7), (18, 1, 2), (19, 1, 9), (20, 2, 100), (22, 1, 1), (24, 1, 12), (25, 1, 20), (26, 2, 77), (28, 1, 170), (29, 1, 10), (30, 1, 9), (31, 1, 20), (32, 1, 41), (34, 2, 160), (36, 4, 0)], ready_of_readyOk (by decide +kernel), by decide +kernel⟩,
   ⟨live 4, bell 24, fields 24 [(16, 1, 2), (36, 4, 0)], ready_of_readyOk (by decide +kernel), by decide +kernel⟩,
   ⟨live 4, bell 16, fields 16 [(17, 1, 9), (20, 4, 902000), (24, 4, 200000), (28, 4, 0)], ready_of_readyOk (by decide +kernel), by decide +kernel⟩,
   ⟨onX 1 (fun x => { x with enable := true }) (live 4), bell 16, fields 16 [(17, 1, 9), (20, 4, 902000), (24, 4, 200000), (28, 4, 0)], ready_of_readyOk (by decide +kernel), by decide +kernel⟩,
   ⟨{ live 4 with nb := { count := 9 } }, bell 204, fields 204 ([(16, 1, 1), (17, 1, 2), (19, 1, 8), (20, 1, 7), (21, 1, 1), (22, 2, 5), (28, 1, 6)] ++ (List.range 128).map fun k => (92 + k, 1, 255)), ready_of_readyOk (by decide +kernel), by decide +kernel⟩,
   ⟨{ live 4 with nb := { x := [{}, { enable := true, st := 1 }, {}, {}], count := 9 } }, bell 4, fields 4 [(16, 1, 1), (18, 1, 2), (19, 1, 3)], ready_of_readyOk (by decide +kernel), by decide +kernel, by decide +kernel⟩,
   ⟨{ onX 1 (fun x => { x with enable := true, st := 1, tune := some { chan := 2, last := 2, fromCurrent := false, ended := true } }) (live 4) with mbx := { longs := [{ cmd := { op := 0x0804, par := [1, 0, 0, 0] } }] } }, 1, { chan := 2, last := 2, fromCurrent := false, ended := true }, { cmd := { op := 0x0804, par := [1, 0, 0, 0] } }, by decide +kernel⟩,
   ⟨onX 1 (fun x => { x with enable := true, st := 1, ch := 5, mismatch := true, autoTune := true }) (live 5), 1, by decide +kernel⟩,
   ⟨onX 1 (fun x => { x with enable := true, st := 1, ch := 5, tune := some { chan := 2, last := 2, fromCurrent := false, results := [4], retryAt := some 50 } }) (live 5), 1, { chan := 2, last := 2, fromCurrent := false, results := [4], retryAt := some 50 }, 50, by decide +kernel⟩,
   ⟨onX 1 (fun x => { x with enable := true, st := 1, ch := 5, tune := some { chan := 2, last := 2, fromCurrent := false, results := [4], retryAt := some 50 } }) (live 5), 1, { chan := 2, last := 2, fromCurrent := false, results := [4], retryAt := some 50 }, by decide +kernel⟩,
   ⟨onX 1 (fun x => { x with codes := [(3, (4, 5))], ctr := [1, 2, 3] }) { live 4 with nb := { count := 9 } }, bell 4, fields 4 [(16, 1, 1), (17, 1, 1), (18, 1, 1)], ready_of_readyOk (by decide +kernel), by decide +kernel⟩,
   ⟨onX 1 (fun x => { x with codes := [(3, (4, 5))], ctr := [1, 2, 3] }) { live 4 with nb := { count := 9 } }, bell 4, fields 4 [(16, 1, 1), (18, 1, 0)], ready_of_readyOk (by decide +kernel), by decide +kernel⟩⟩

/-- The conditions of `MladmerRowsTakeEffect` can be met. -/
theorem witness_MladmerRowsTakeEffect :
    (∃ (s : State) (job : Nat) (j : Job), Tab.get? s.mlad.jobs job = some j ∧ j.st = .waitAck ∧ j.k < 8 ∧ (∀ y ∈ s.nb.x, y.reqs = [])) ∧
    (∃ (s : State) (job : Nat) (j : Job), s.mlad.jobs = [(job, j)] ∧ j.st = .waitAck ∧ 8 ≤ j.k ∧ (∀ y ∈ s.nb.x, y.reqs = [])) ∧
    (∃ (s : State) (job : Nat), Tab.get? s.mlad.jobs job = none ∧ s.mlad.store = []) ∧
    (∃ (s : State) (job : Nat) (j : Job), s.mlad.jobs = [(job, j)] ∧ j.st = .backoff ∧ s.modes.mode = 5 ∧ j.until_ ≤ nowNs s ∧ j.wake ≤ nowNs s) ∧
    (∃ (s : State) (job : Nat) (j : Job), Tab.get? s.mlad.jobs job = some j ∧ j.st = .backoff ∧ s.modes.mode = 5 ∧ j.wake ≤ nowNs s ∧ nowNs s < j.until_ ∧ (∀ y ∈ s.nb.x, y.hold.isSome = true)) ∧
    (∃ (s : State) (key : Nat) (h : HeldFrame), s.mlad.store = [h] ∧ h.key = key ∧ (∀ y ∈ s.nb.x, y.reqs = [] ∧ y.handed = none ∧ y.tx = none)) ∧
    (∃ (s : State) (src : W32) (seq : W16) (r : Relay), s.mlad.relays = [r] ∧ r.src = src ∧ r.seq = seq ∧ s.mlad.suppress = 1) ∧
    (∃ (s : State) (src : W32) (seq : W16) (r : Relay), s.mlad.relays = [r] ∧ r.src = src ∧ r.seq = seq ∧ s.mlad.suppress = 0 ∧ (∀ y ∈ s.nb.x, y.hold.isSome = true)) ∧
    (∃ (s : State) (src : W32) (seq : W16) (e : Seen), s.mlad.seen = [e] ∧ e.src = src ∧ e.seq = seq) ∧
    (∃ (s : State), s.mlad.beaconEn = true ∧ s.mlad.gw ≠ 0 ∧ nbLive s = true ∧ (∀ y ∈ s.nb.x, y.enable = false)) ∧
    (∃ (s : State), s.mlad.beaconEn = false) ∧
    (∃ (s : State), s.mlad.floorWriting = true ∧ s.mlad.jobs = [] ∧ (∀ y ∈ s.nb.x, y.reqs = [])) ∧
    (∃ (s : State), s.mlad.moving = true ∧ dramReady s = true ∧ s.modes.mode ≠ 3) ∧
    (∃ (s : State) (d : Doorbell) (p : List Byte), Ready specNodeAdd d p s ∧ (let c := cmdOf specNodeAdd d p s; c.u 16 2 ≤ 8191 ∧ c.u 19 1 ≤ 3 ∧ c.u 20 4 ≠ 0 ∧ c.u 20 4 ≠ 0xFFFFFFFF ∧ c.u 24 2 = 0xFFFF ∧ c.u 26 1 ≤ 1 ∧ 32 ≤ c.u 27 1 ∧ c.u 27 1 ≤ 61 ∧ 1 ≤ c.u 28 1 ∧ c.u 28 1 ≤ 60 ∧ 1 ≤ c.u 29 1 ∧ c.u 29 1 ≤ 16 ∧ getNode s (c.u 16 2) = none ∧ nodeAt s (BitVec.ofNat 32 (c.u 20 4)) = none)) ∧
    (∃ (s : State) (d : Doorbell) (p : List Byte), Ready specNodeAdd d p s ∧ (let c := cmdOf specNodeAdd d p s; c.u 16 2 ≤ 8191 ∧ c.u 19 1 ≤ 3 ∧ c.u 20 4 ≠ 0 ∧ c.u 20 4 ≠ 0xFFFFFFFF ∧ c.u 24 2 = 0xFFFF ∧ c.u 26 1 ≤ 1 ∧ 32 ≤ c.u 27 1 ∧ c.u 27 1 ≤ 61 ∧ 1 ≤ c.u 28 1 ∧ c.u 28 1 ≤ 60 ∧ 1 ≤ c.u 29 1 ∧ c.u 29 1 ≤ 16 ∧ (getNode s (c.u 16 2)).isSome = true)) ∧
    (∃ (s : State) (d : Doorbell) (p : List Byte) (n : Nat) (x : Node), Ready specNodeRemove d p s ∧ (let c := cmdOf specNodeRemove d p s; c.u 16 2 ≤ 8191 ∧ s.mlad.nodes = [(n, x)] ∧ n = c.u 16 2 ∧ s.mlad.store = [] ∧ s.mlad.jobs = [] ∧ (∀ y ∈ s.nb.x, y.reqs = [] ∧ y.handed = none ∧ y.tx = none))) ∧
    (∃ (s : State) (d : Doorbell) (p : List Byte), Ready specNodeRemove d p s ∧ (let c := cmdOf specNodeRemove d p s; c.u 16 2 ≤ 8191 ∧ getNode s (c.u 16 2) = none)) ∧
    (∃ (s : State) (d : Doorbell) (p : List Byte) (x : Node), Ready specNodeGet d p s ∧ (let c := cmdOf specNodeGet d p s; c.u 16 2 ≤ 8191 ∧ c.u 18 1 = 0 ∧ getNode s (c.u 16 2) = some x)) ∧
    (∃ (s : State) (d : Doorbell) (p : List Byte), Ready specNodeGet d p s ∧ (let c := cmdOf specNodeGet d p s; c.u 16 2 ≤ 8191 ∧ c.u 18 1 ≤ 1 ∧ getNode s (c.u 16 2) = none)) ∧
    (∃ (s : State) (d : Doorbell) (p : List Byte), Ready specNbSend d p s ∧ (let c := cmdOf specNbSend d p s; c.par.length = 20 + c.u 24 1 ∧ c.u 24 1 ≤ 196 ∧ c.u 16 2 = 0xFFFF ∧ c.u 18 1 = 0 ∧ c.u 19 1 = 0 ∧ c.u 20 1 ≤ 3 ∧ 10 ≤ c.u 22 2 ∧ c.u 22 2 ≤ 60000 ∧ s.mlad.gw = 0)) ∧
    (∃ (s : State) (d : Doorbell) (p : List Byte) (x : Node), Ready specNbSend d p s ∧ (let c := cmdOf specNbSend d p s; c.par.length = 20 + c.u 24 1 ∧ c.u 24 1 ≤ 196 ∧ c.u 16 2 ≤ 8191 ∧ c.u 18 1 = 1 ∧ c.u 19 1 = 0 ∧ c.u 20 1 ≤ 3 ∧ 10 ≤ c.u 22 2 ∧ c.u 22 2 ≤ 60000 ∧ s.mlad.gw ≠ 0 ∧ getNode s (c.u 16 2) = some x ∧ x.flags.getLsbD 0 = true ∧ s.mlad.store = [])) ∧
    (∃ (s : State) (d : Doorbell) (p : List Byte), Ready specFloodConfig d p s ∧ (let c := cmdOf specFloodConfig d p s; c.u 16 4 ≠ 0xFFFFFFFF ∧ c.u 23 1 ≠ 1 ∧ c.u 23 1 ≤ 15 ∧ c.u 24 1 ≤ 20 ∧ 1 ≤ c.u 25 1 ∧ c.u 25 1 ≤ 32 ∧ 1 ≤ c.u 26 1 ∧ 32 ≤ c.u 27 1 ∧ c.u 27 1 ≤ 61 ∧ c.u 28 2 ≤ 8191)) ∧
    (∃ (s : State) (d : Doorbell) (p : List Byte), Ready specFloodConfig d p s ∧ (let c := cmdOf specFloodConfig d p s; c.u 23 1 = 1)) ∧
    (∃ (s : State) (d : Doorbell) (p : List Byte), Ready specHeldStatus d p s ∧ (let c := cmdOf specHeldStatus d p s; c.u 18 1 = 1)) ∧
    (∃ (s : State) (d : Doorbell) (p : List Byte), Ready specHeldStatus d p s ∧ (let c := cmdOf specHeldStatus d p s; c.u 18 1 = 0 ∧ c.u 16 2 ≤ 8191 ∧ getNode s (c.u 16 2) = none)) :=
  ⟨⟨{ live 5 with mlad := { jobs := [(3, { frame := nbF, xcvr := 1, until_ := 90, st := .waitAck, k := 2 })] } }, 3, { frame := nbF, xcvr := 1, until_ := 90, st := .waitAck, k := 2 }, by decide +kernel⟩,
   ⟨{ live 5 with mlad := { jobs := [(3, { frame := nbF, xcvr := 1, until_ := 90, st := .waitAck, k := 8 })] } }, 3, { frame := nbF, xcvr := 1, until_ := 90, st := .waitAck, k := 8 }, by decide +kernel⟩,
   ⟨live 5, 3, by decide +kernel⟩,
   ⟨{ atNs 100 (live 5) with mlad := { jobs := [(3, { frame := nbF, xcvr := 1, until_ := 90, st := .backoff, k := 8 })] } }, 3, { frame := nbF, xcvr := 1, until_ := 90, st := .backoff, k := 8 }, by decide +kernel⟩,
   ⟨{ atNs 100 (live 5) with mlad := { jobs := [(3, { frame := nbF, xcvr := 1, until_ := 900, st := .backoff, k := 2 })] }, nb := { x := List.replicate 4 { hold := some 8 } } }, 3, { frame := nbF, xcvr := 1, until_ := 900, st := .backoff, k := 2 }, by decide +kernel⟩,
   ⟨{ live 5 with mlad := { store := [{ key := 4, frame := nbF, at_ := 5 }] } }, 4, { key := 4, frame := nbF, at_ := 5 }, by decide +kernel⟩,
   ⟨{ live 5 with mlad := { relays := [{ xcvr := 1, src := 5, seq := 6, frame := [1, 2], t0 := 8 }], suppress := 1 } }, 5, 6, { xcvr := 1, src := 5, seq := 6, frame := [1, 2], t0 := 8 }, by decide +kernel⟩,
   ⟨{ live 5 with mlad := { relays := [{ xcvr := 1, src := 5, seq := 6, frame := [1, 2], t0 := 8 }], suppress := 0 }, nb := { x := List.replicate 4 { hold := some 8 } } }, 5, 6, { xcvr := 1, src := 5, seq := 6, frame := [1, 2], t0 := 8 }, by decide +kernel⟩,
   ⟨{ live 5 with mlad := { seen := [{ src := 5, seq := 6, at_ := 0 }] } }, 5, 6, { src := 5, seq := 6, at_ := 0 }, by decide +kernel⟩,
   ⟨{ live 5 with mlad := { beaconEn := true, gw := 7, bcastSeq := 0xFFFF } }, by decide +kernel⟩,
   ⟨live 5, by decide +kernel⟩,
   ⟨{ live 5 with mlad := { floorWriting := true, stored := 9 } }, by decide +kernel⟩,
   ⟨{ live 5 with mlad := { moving := true, store := [{ key := 4, frame := nbF, at_ := 5 }] } }, by decide +kernel⟩,
   ⟨live 4, bell 32, fields 32 [(16, 2, 5), (18, 1, 5), (19, 1, 2), (20, 4, 99), (24, 2, 65535), (26, 1, 1), (27, 1, 40), (28, 1, 60), (29, 1, 16), (32, 4, 7), (36, 4, 8), (40, 8, 0)], ready_of_readyOk (by decide +kernel), by decide +kernel⟩,
   ⟨{ live 4 with mlad := { nodes := [(5, node0)] } }, bell 32, fields 32 [(16, 2, 5), (18, 1, 5), (19, 1, 2), (20, 4, 99), (24, 2, 65535), (26, 1, 1), (27, 1, 40), (28, 1, 60), (29, 1, 16), (32, 4, 7), (36, 4, 8), (40, 8, 0)], ready_of_readyOk (by decide +kernel), by decide +kernel⟩,
   ⟨{ live 4 with mlad := { nodes := [(5, node0)] } }, bell 4, fields 4 [(16, 2, 5)], 5, node0, ready_of_readyOk (by decide +kernel), by decide +kernel⟩,
   ⟨{ live 4 with mlad := { nodes := [(5, node0)] } }, bell 4, fields 4 [(16, 2, 6)], ready_of_readyOk (by decide +kernel), by decide +kernel⟩,
   ⟨{ live 4 with mlad := { nodes := [(5, node0)] } }, bell 4, fields 4 [(16, 2, 5)], node0, ready_of_readyOk (by decide +kernel), by decide +kernel⟩,
   ⟨{ live 4 with mlad := { nodes := [(5, node0)] } }, bell 4, fields 4 [(16, 2, 6)], ready_of_readyOk (by decide +kernel), by decide +kernel⟩,
   ⟨{ live 4 with mlad := { nodes := [(5, node0)] } }, bell 24, fields 24 [(16, 2, 65535), (22, 2, 1000), (24, 1, 4), (36, 4, 9)], ready_of_readyOk (by decide +kernel), by decide +kernel⟩,
   ⟨{ live 4 with mlad := { nodes := [(5, { node0 with flags := 1, txSeq := 0xFFFF })], gw := 4 } }, bell 24, fields 24 [(16, 2, 5), (18, 1, 1), (22, 2, 1000), (24, 1, 4), (28, 8, 12345), (36, 4, 9)], { node0 with flags := 1, txSeq := 0xFFFF }, ready_of_readyOk (by decide +kernel), by decide +kernel⟩,
   ⟨live 4, bell 48, fields 48 [(16, 4, 99), (20, 2, 8), (22, 1, 13), (23, 1, 3), (24, 1, 20), (25, 1, 32), (26, 1, 10), (27, 1, 32), (28, 2, 8191), (30, 2, 77), (32, 8, 1), (60, 4, 1)], ready_of_readyOk (by decide +kernel), by decide +kernel⟩,
   ⟨live 4, bell 48, fields 48 [(23, 1, 1), (60, 4, 1)], ready_of_readyOk (by decide +kernel), by decide +kernel⟩,
   ⟨{ live 4 with mlad := { store := [{ key := 4, frame := nbF, at_ := 5 }] } }, bell 4, fields 4 [(18, 1, 1), (19, 1, 1)], ready_of_readyOk (by decide +kernel), by decide +kernel⟩,
   ⟨live 4, bell 4, fields 4 [(16, 2, 3)], ready_of_readyOk (by decide +kernel), by decide +kernel⟩⟩

/-- The conditions of `ColRowsTakeEffect` can be met. -/
theorem witness_ColRowsTakeEffect :
    (∃ (s : State) (n c : Nat) (t : Task) (x : Kernel) (k : Core), s.modes.mode = 5 ∧ domOn s 4 = true ∧ s.col.observe = 0 ∧ s.col.tasks = [(n, t)] ∧ t.binds = [] ∧ startable s n t = true ∧ freeFor s t = some c ∧ s.col.cores[c]? = some k ∧ Tab.get? s.col.kernels t.kernel = some x) ∧
    (∃ (s : State), s.col.tasks = []) ∧
    (∃ (s : State) (core : Fin 32) (d : Disp) (x : Kernel), (getCore s core.val).run = some d ∧ d.returned = true ∧ (getCore s core.val).dr 0 = 0 ∧ d.pkt = none ∧ Tab.get? s.col.kernels d.kernel = some x ∧ s.col.observe = 0) ∧
    (∃ (s : State) (core : Fin 32) (d : Disp), (getCore s core.val).run = some d ∧ d.returned = false) ∧
    (∃ (s : State) (core : Fin 32) (d : Disp) (x : Kernel), (getCore s core.val).run = some d ∧ d.pkt = none ∧ Tab.get? s.col.kernels d.kernel = some x ∧ x.fails + 1 < x.limit ∧ s.col.observe = 0) ∧
    (∃ (s : State) (core : Fin 32), (getCore s core.val).run = none) ∧
    (∃ (s : State) (d : Doorbell) (p : List Byte), Ready specKernelLoad d p s ∧ pendingOf s d.mb.val < 32 ∧ (let c := cmdOf specKernelLoad d p s; c.u 16 2 ≤ 63 ∧ c.u 20 8 % 8 = 0 ∧ kernelStarted s (c.u 16 2) = false ∧ dramReady s = true)) ∧
    (∃ (s : State) (d : Doorbell) (p : List Byte), Ready specKernelLoad d p s ∧ (let c := cmdOf specKernelLoad d p s; c.u 16 2 ≤ 63 ∧ c.u 20 8 % 8 = 0 ∧ kernelStarted s (c.u 16 2) = true)) ∧
    (∃ (s : State) (image : List Byte) (l : LongCmd), findLong s 0x0D01 = some l ∧ imageBad (pad (l.cmd.u 28 4) image) = none) ∧
    (∃ (s : State) (image : List Byte) (l : LongCmd), findLong s 0x0D01 = some l ∧ (imageBad (pad (l.cmd.u 28 4) image)).isSome = true) ∧
    (∃ (s : State) (d : Doorbell) (p : List Byte) (n : Nat) (x : Kernel), Ready specKernelStart d p s ∧ (let c := cmdOf specKernelStart d p s; s.col.kernels = [(n, x)] ∧ n = c.u 16 2 ∧ n ≤ 63 ∧ x.started = false ∧ 1 ≤ c.u 19 1 ∧ c.u 20 4 ≤ 1024 ∧ c.u 20 4 % 16 = 0 ∧ x.sharedNeed ≤ c.u 20 4)) ∧
    (∃ (s : State) (d : Doorbell) (p : List Byte), Ready specKernelStart d p s ∧ (let c := cmdOf specKernelStart d p s; c.u 16 2 ≤ 63 ∧ 1 ≤ c.u 19 1 ∧ c.u 20 4 ≤ 1024 ∧ c.u 20 4 % 16 = 0 ∧ Tab.get? s.col.kernels (c.u 16 2) = none)) ∧
    (∃ (s : State) (d : Doorbell) (p : List Byte), Ready specKernelStop d p s ∧ (let c := cmdOf specKernelStop d p s; c.u 16 2 ≤ 63 ∧ kernelStarted s (c.u 16 2) = true)) ∧
    (∃ (s : State) (d : Doorbell) (p : List Byte), Ready specKernelStop d p s ∧ (let c := cmdOf specKernelStop d p s; c.u 16 2 ≤ 63 ∧ kernelStarted s (c.u 16 2) = false)) ∧
    (∃ (s : State) (d : Doorbell) (p : List Byte), Ready specTaskConfig d p s ∧ (let c := cmdOf specTaskConfig d p s; 16 ≤ c.u 16 2 ∧ c.u 16 2 ≤ 1023 ∧ bit (c.u 18 1) 0 = false)) ∧
    (∃ (s : State) (d : Doorbell) (p : List Byte), Ready specTaskConfig d p s ∧ (let c := cmdOf specTaskConfig d p s; s.col.kernels = [] ∧ 16 ≤ c.u 16 2 ∧ c.u 16 2 ≤ 1023 ∧ bit (c.u 18 1) 0 = true ∧ c.u 19 1 ≤ 6 ∧ c.u 20 2 ≤ 63 ∧ c.u 22 1 ≤ 12 ∧ 1 ≤ c.u 23 1 ∧ c.u 23 1 ≤ 32 ∧ 1 ≤ c.u 36 2 ∧ c.u 36 2 ≤ 10000 ∧ 16 ≤ c.u 38 2 ∧ c.u 38 2 ≤ 4096 ∧ taskBinds c = [] ∧ getTask s (c.u 16 2) = none)) ∧
    (∃ (s : State) (d : Doorbell) (p : List Byte), Ready specColObserveSet d p s ∧ (let c := cmdOf specColObserveSet d p s; c.u 16 1 ≤ 2 ∧ c.u 16 1 ≠ s.col.observe)) ∧
    (∃ (s : State) (d : Doorbell) (p : List Byte), Ready specColObserveSet d p s ∧ (let c := cmdOf specColObserveSet d p s; c.u 16 1 ≤ 2 ∧ c.u 16 1 = s.col.observe)) ∧
    (∃ (s : State) (d : Doorbell) (p : List Byte), Ready specMassifStats d p s ∧ (let c := cmdOf specMassifStats d p s; bit (c.u 16 1) 0 = true)) ∧
    (∃ (s : State) (d : Doorbell) (p : List Byte), Ready specMassifStats d p s ∧ (let c := cmdOf specMassifStats d p s; bit (c.u 16 1) 0 = false)) ∧
    (∃ (s : State), s.host.link = true) ∧
    (∃ (s : State) (on : Bool), s.host.link = true) ∧
    (∃ (s : State), s.host.link = true) :=
  ⟨⟨{ live 5 with col := { kernels := [(2, kern0)], tasks := [(20, task0)] } }, 20, 0, task0, kern0, {}, by decide +kernel⟩,
   ⟨live 5, by decide +kernel⟩,
   ⟨{ live 5 with col := { kernels := [(2, { kern0 with fails := 3 })], cores := [{}, { run := some { task := 20, kernel := 2, returned := true } }] } }, 1, { task := 20, kernel := 2, returned := true }, { kern0 with fails := 3 }, by decide +kernel⟩,
   ⟨{ live 5 with col := { kernels := [(2, { kern0 with fails := 3 })], cores := [{}, { run := some { task := 20, kernel := 2 } }] } }, 1, { task := 20, kernel := 2 }, by decide +kernel⟩,
   ⟨{ live 5 with col := { kernels := [(2, { kern0 with fails := 3 })], cores := [{}, { run := some { task := 20, kernel := 2 } }] } }, 1, { task := 20, kernel := 2 }, { kern0 with fails := 3 }, by decide +kernel⟩,
   ⟨live 5, 1, by decide +kernel⟩,
   ⟨live 4, bell 16, fields 16 [(16, 2, 2), (20, 8, 4096), (28, 4, 68)], ready_of_readyOk (by decide +kernel), by decide +kernel, by decide +kernel⟩,
   ⟨{ live 4 with col := { kernels := [(2, kern0)] } }, bell 16, fields 16 [(16, 2, 2), (20, 8, 4096), (28, 4, 68)], ready_of_readyOk (by decide +kernel), by decide +kernel⟩,
   ⟨{ live 4 with mbx := { longs := [{ cmd := { op := 0x0D01, par := [2, 0, 0, 0, 0, 0, 0, 0, 0, 0, 0, 0, 68, 0, 0, 0] } }] } }, le 4 0x4E524B43 ++ le 2 1 ++ le 2 0 ++ le 4 4 ++ le 4 1000 ++ le 4 16 ++ le 4 0 ++ le 4 0x2144DF1C ++ List.replicate 40 0, { cmd := { op := 0x0D01, par := [2, 0, 0, 0, 0, 0, 0, 0, 0, 0, 0, 0, 68, 0, 0, 0] } }, by decide +kernel⟩,
   ⟨{ live 4 with mbx := { longs := [{ cmd := { op := 0x0D01, par := [2, 0, 0, 0, 0, 0, 0, 0, 0, 0, 0, 0, 68, 0, 0, 0] } }] } }, le 4 0x4E524B43 ++ le 2 1, { cmd := { op := 0x0D01, par := [2, 0, 0, 0, 0, 0, 0, 0, 0, 0, 0, 0, 68, 0, 0, 0] } }, by decide +kernel⟩,
   ⟨{ live 4 with col := { kernels := [(2, { kern0 with started := false, sharedNeed := 16 })] } }, bell 8, fields 8 [(16, 2, 2), (18, 1, 1), (19, 1, 4), (20, 4, 32)], 2, { kern0 with started := false, sharedNeed := 16 }, ready_of_readyOk (by decide +kernel), by decide +kernel⟩,
   ⟨live 4, bell 8, fields 8 [(16, 2, 2), (18, 1, 1), (19, 1, 4), (20, 4, 32)], ready_of_readyOk (by decide +kernel), by decide +kernel⟩,
   ⟨{ live 4 with col := { kernels := [(2, kern0)], tasks := [(20, task0)] } }, bell 4, fields 4 [(16, 2, 2)], ready_of_readyOk (by decide +kernel), by decide +kernel⟩,
   ⟨live 4, bell 4, fields 4 [(16, 2, 2)], ready_of_readyOk (by decide +kernel), by decide +kernel⟩,
   ⟨{ live 4 with col := { kernels := [(2, kern0)], tasks := [(20, task0)] } }, bell 56, fields 56 [(16, 2, 20), (68, 4, 0)], ready_of_readyOk (by decide +kernel), by decide +kernel⟩,
   ⟨live 4, bell 56, fields 56 ([(16, 2, 20), (18, 1, 7), (19, 1, 6), (20, 2, 63), (22, 1, 12), (23, 1, 32), (24, 4, 5), (28, 8, 9), (36, 2, 10000), (38, 2, 4096)] ++ (List.range 8).map fun j => (40 + 4 * j, 1, 255)), ready_of_readyOk (by decide +kernel), by decide +kernel⟩,
   ⟨{ live 4 with col := { wr := 5 } }, bell 4, fields 4 [(16, 1, 1), (17, 1, 1)], ready_of_readyOk (by decide +kernel), by decide +kernel⟩,
   ⟨{ live 4 with col := { wr := 5 } }, bell 4, fields 4 [(16, 1, 0), (17, 1, 1)], ready_of_readyOk (by decide +kernel), by decide +kernel⟩,
   ⟨{ live 4 with col := { ctr := [1, 2, 3] } }, bell 4, fields 4 [(16, 1, 1)], ready_of_readyOk (by decide +kernel), by decide +kernel⟩,
   ⟨{ live 4 with col := { ctr := [1, 2, 3] } }, bell 4, fields 4 [(16, 1, 0)], ready_of_readyOk (by decide +kernel), by decide +kernel⟩,
   ⟨{ live 4 with col := { wr := 5, full := true } }, by decide +kernel⟩,
   ⟨live 4, true, by decide +kernel⟩,
   ⟨{ live 4 with col := { lost := 3 } }, by decide +kernel⟩⟩

/-- The conditions of `DramRowsTakeEffect` can be met. -/
theorem witness_DramRowsTakeEffect :
    (∃ (s : State) (d : Doorbell) (p : List Byte), Ready specDramConfig d p s ∧ (let c := cmdOf specDramConfig d p s; s.dram.st ≤ 2 ∧ [(1, 8), (2, 8), (1, 16)].contains (c.u 16 1, c.u 17 1) = true ∧ c.u 18 1 ≤ 1 ∧ c.u 19 1 ≤ 1 ∧ 50 ≤ c.u 20 2 ∧ c.u 20 2 ≤ 2000 ∧ 1 ≤ c.u 22 2 ∧ c.u 22 2 ≤ 168 ∧ 1 ≤ c.u 24 2)) ∧
    (∃ (s : State) (d : Doorbell) (p : List Byte), Ready specDramConfig d p s ∧ (2 < s.dram.st)) ∧
    (∃ (s : State) (d : Doorbell) (p : List Byte), Ready specDramTrain d p s ∧ pendingOf s d.mb.val < 32 ∧ (s.dram.st = 1)) ∧
    (∃ (s : State) (d : Doorbell) (p : List Byte), Ready specDramTrain d p s ∧ (s.dram.st = 0 ∨ s.dram.st = 3)) ∧
    (∃ (s : State) (res : TrainResult) (ms : Nat) (l : LongCmd), s.dram.st = 2 ∧ res = .ok ms ∧ ms ≤ 580 ∧ findLong s 0x0E02 = some l) ∧
    (∃ (s : State) (res : TrainResult) (ch sc rank step : Nat) (l : LongCmd), s.dram.st = 2 ∧ res = .failed ch sc rank step ∧ 1 ≤ step ∧ step ≤ 8 ∧ ch < 2 ∧ sc < 2 ∧ rank < 2 ∧ findLong s 0x0E02 = some l) ∧
    (∃ (s : State) (d : Doorbell) (p : List Byte), Ready specDramMapSet d p s ∧ (let c := cmdOf specDramMapSet d p s; s.dram.st = 1 ∧ bit (c.u 16 1) 0 = true)) ∧
    (∃ (s : State) (d : Doorbell) (p : List Byte), Ready specDramMapSet d p s ∧ (let c := cmdOf specDramMapSet d p s; s.dram.st = 1 ∧ bit (c.u 16 1) 0 = false ∧ badTarget s.dram (cmdMap c) = none)) ∧
    (∃ (s : State) (d : Doorbell) (p : List Byte), Ready specDramMapSet d p s ∧ (let c := cmdOf specDramMapSet d p s; s.dram.st = 1 ∧ bit (c.u 16 1) 0 = false ∧ badTarget s.dram (cmdMap c) = some 3)) ∧
    (∃ (s : State) (d : Doorbell) (p : List Byte), Ready specDramStatus d p s) ∧
    (∃ (s : State) (d : Doorbell) (p : List Byte), Ready specFreezeRead d p s ∧ (let c := cmdOf specFreezeRead d p s; c.u 16 2 % 16 = 0 ∧ c.u 18 2 % 16 = 0 ∧ 16 ≤ c.u 18 2 ∧ c.u 18 2 ≤ 480 ∧ c.u 16 2 + c.u 18 2 ≤ 4096)) ∧
    (∃ (s : State) (d : Doorbell) (p : List Byte), Ready specFreezeRead d p s ∧ (let c := cmdOf specFreezeRead d p s; c.u 16 2 % 16 ≠ 0)) ∧
    (∃ (s : State), dramReady s = true ∧ s.dram.zeroed = false) ∧
    (∃ (s : State) (ch sc rank : Fin 2), rank.val < s.dram.ranks ∧ domOn s 5 = true ∧ s.dram.st = 5 ∧ s.dram.refMode = 0) ∧
    (∃ (s : State) (ch sc rank : Fin 2), rank.val < s.dram.ranks ∧ domOn s 5 = true ∧ s.dram.st = 3 ∧ s.modes.mode = 5 ∧ Tab.getD s.dram.debt (rankIdx ch.val sc.val rank.val) 0 ≤ 4) ∧
    (∃ (s : State) (mult : Nat) (hot : Option (Nat × Nat × Nat × Nat)), dramReady s = true ∧ (mult = 1 ∨ mult = 2 ∨ mult = 4) ∧ hot = none) ∧
    (∃ (s : State) (mult : Nat) (hot : Option (Nat × Nat × Nat × Nat)), dramReady s = false) ∧
    (∃ (s : State) (ch sc rank : Fin 2) (limit : Option Nat), dramReady s = true ∧ rank.val < s.dram.ranks ∧ limit = none) ∧
    (∃ (s : State) (ch sc rank : Fin 2) (lane : Nat) (drift : Int), dramReady s = true ∧ rank.val < s.dram.ranks ∧ lane < 40 ∧ 16 < drift.natAbs ∧ (Tab.getD s.dram.lanes (40 * rankIdx ch.val sc.val rank.val + lane) 0 + drift).natAbs ≤ 256) ∧
    (∃ (s : State) (ch sc rank : Fin 2) (lane : Nat) (drift : Int), dramReady s = true ∧ rank.val < s.dram.ranks ∧ lane < 40 ∧ 16 < drift.natAbs ∧ 256 < (Tab.getD s.dram.lanes (40 * rankIdx ch.val sc.val rank.val + lane) 0 + drift).natAbs) ∧
    (∃ (s : State), dramReady s = true ∧ s.dram.st = 3 ∧ domOn s 5 = true ∧ s.dram.zeroed = true) ∧
    (∃ (s : State) (addr cls : Nat) (scrub : Bool) (res : EccResult), dramReady s = true ∧ s.dram.st = 3 ∧ cls ≤ 5 ∧ regionOk s.dram cls (addr / 64 * 64) = true ∧ scrub = false ∧ res = .clean) ∧
    (∃ (s : State) (addr cls : Nat) (scrub : Bool) (res : EccResult) (dev : Nat), dramReady s = true ∧ s.dram.st = 3 ∧ cls ≤ 5 ∧ regionOk s.dram cls (addr / 64 * 64) = true ∧ scrub = false ∧ res = .corrected dev ∧ dev < 10 ∧ s.dram.ctr = List.replicate 10 0) ∧
    (∃ (s : State) (addr cls : Nat) (scrub : Bool) (res : EccResult) (dev : Nat) (synd : List Byte), dramReady s = true ∧ s.dram.st = 3 ∧ cls ≤ 5 ∧ regionOk s.dram cls (addr / 64 * 64) = true ∧ scrub = false ∧ res = .uncorrectable dev synd) ∧
    (∃ (s : State) (ch sc rank : Fin 2) (addr cls : Nat), dramReady s = true ∧ s.dram.st = 3 ∧ cls ≤ 5) ∧
    (∃ (s : State) (ch sc rank : Fin 2) (addr cls : Nat), s.dram.st = 1) ∧
    (∃ (s : State) (addr cls : Nat) (replayed : Bool), dramReady s = true ∧ s.dram.st = 3 ∧ cls ≤ 5 ∧ regionOk s.dram cls (addr / 64 * 64) = true ∧ replayed = false ∧ s.dram.replay = []) ∧
    (∃ (s : State) (addr cls : Nat) (replayed : Bool), dramReady s = true ∧ s.dram.st = 3 ∧ cls ≤ 5 ∧ regionOk s.dram cls (addr / 64 * 64) = true ∧ replayed = true ∧ s.dram.replay = [addr / 64 * 64]) ∧
    (∃ (s : State), s.dram.st = 4 ∧ domOn s 5 = true ∧ s.modes.mode ≠ 7) ∧
    (∃ (s : State), s.dram.st = 3) :=
  ⟨⟨{ live 2 with dram := {} }, bell 16, fields 16 [(16, 1, 2), (17, 1, 8), (18, 1, 1), (20, 2, 50), (22, 2, 168), (24, 2, 1), (28, 4, 0)], ready_of_readyOk (by decide +kernel), by decide +kernel⟩,
   ⟨live 2, bell 16, fields 16 [(28, 4, 0)], ready_of_readyOk (by decide +kernel), by decide +kernel⟩,
   ⟨{ live 2 with dram := { st := 1, replay := [5] } }, bell 0, [], ready_of_readyOk (by decide +kernel), by decide +kernel, by decide +kernel⟩,
   ⟨live 2, bell 0, [], ready_of_readyOk (by decide +kernel), by decide +kernel⟩,
   ⟨{ live 2 with dram := { st := 2 }, mbx := { longs := [{ cmd := { op := 0x0E02, par := [] } }] } }, .ok 500, 500, { cmd := { op := 0x0E02, par := [] } }, by decide +kernel⟩,
   ⟨{ live 2 with dram := { st := 2 }, mbx := { longs := [{ cmd := { op := 0x0E02, par := [] } }] } }, .failed 1 1 0 8, 1, 1, 0, 8, { cmd := { op := 0x0E02, par := [] } }, by decide +kernel⟩,
   ⟨{ live 2 with dram := { st := 1 } }, bell 100, fields 100 [(16, 1, 1), (112, 4, 0)], ready_of_readyOk (by decide +kernel), by decide +kernel⟩,
   ⟨{ live 2 with dram := { st := 1, ranks := 1, density := 16 } }, bell 100, fields 100 ((let m := defaultMap { ranks := 1, density := 16 }; (m.xbase.zipIdx.map fun e => (20 + e.2, 1, e.1)) ++ (m.colbase.zipIdx.map fun e => (28 + e.2, 1, e.1)) ++ (m.rowbase.zipIdx.map fun e => (36 + e.2, 1, e.1)) ++ (m.mask.zipIdx.map fun e => (52 + 8 * e.2, 8, e.1)))), ready_of_readyOk (by decide +kernel), by decide +kernel⟩,
   ⟨{ live 2 with dram := { st := 1, ranks := 1, density := 16 } }, bell 100, fields 100 ((let m := defaultMap { ranks := 1, density := 16 }; (m.xbase.zipIdx.map fun e => (20 + e.2, 1, if e.2 = 3 then 99 else e.1)) ++ (m.colbase.zipIdx.map fun e => (28 + e.2, 1, e.1)) ++ (m.rowbase.zipIdx.map fun e => (36 + e.2, 1, e.1)) ++ (m.mask.zipIdx.map fun e => (52 + 8 * e.2, 8, e.1)))), ready_of_readyOk (by decide +kernel), by decide +kernel⟩,
   ⟨{ live 5 with dram := { st := 3, zeroed := true, ctr := [1, 2, 3], ce := [(3, 7)] } }, bell 4, fields 4 [(16, 1, 1)], ready_of_readyOk (by decide +kernel)⟩,
   ⟨{ live 5 with dram := { st := 5, freeze := [(16, 7), (20, 9)] } }, bell 4, fields 4 [(16, 2, 16), (18, 2, 480)], ready_of_readyOk (by decide +kernel), by decide +kernel⟩,
   ⟨live 5, bell 4, fields 4 [(16, 2, 17), (18, 2, 16)], ready_of_readyOk (by decide +kernel), by decide +kernel⟩,
   ⟨{ live 5 with dram := { st := 3, watermark := 9 } }, by decide +kernel⟩,
   ⟨{ live 5 with dram := { st := 5 } }, 1, 0, 0, by decide +kernel⟩,
   ⟨{ live 5 with dram := { st := 3, debt := [(4, 4)] } }, 1, 0, 0, by decide +kernel⟩,
   ⟨live 5, 4, none, by decide +kernel⟩,
   ⟨{ live 5 with dram := {} }, 2, none, by decide +kernel⟩,
   ⟨live 5, 1, 1, 0, none, by decide +kernel⟩,
   ⟨{ live 5 with dram := { st := 3, lanes := [(3, 236)] } }, 0, 0, 0, 3, 20, by decide +kernel⟩,
   ⟨{ live 5 with dram := { st := 3, lanes := [(3, 236)] } }, 0, 0, 0, 3, 21, by decide +kernel⟩,
   ⟨{ live 5 with dram := { st := 3, zeroed := true, wb := 50000 } }, by decide +kernel⟩,
   ⟨{ live 5 with dram := { st := 3, zeroed := true, map := defaultMap {} } }, 0x8000041, 1, false, .clean, by decide +kernel⟩,
   ⟨{ live 5 with dram := { st := 3, zeroed := true, map := defaultMap {} } }, 0x8000041, 1, false, .corrected 4, 4, by decide +kernel⟩,
   ⟨{ live 5 with dram := { st := 3, zeroed := true, map := defaultMap {} } }, 0x8000041, 1, false, .uncorrectable 4 [1, 2], 4, [1, 2], by decide +kernel⟩,
   ⟨{ live 5 with dram := { st := 3, zeroed := true, map := defaultMap {} } }, 1, 1, 0, 0x8000041, 1, by decide +kernel⟩,
   ⟨{ live 5 with dram := { st := 1, zeroed := true, map := defaultMap {} } }, 1, 1, 0, 0x8000041, 1, by decide +kernel⟩,
   ⟨{ live 5 with dram := { st := 3, zeroed := true, map := defaultMap {} } }, 0x8000041, 1, false, by decide +kernel⟩,
   ⟨{ live 5 with dram := { st := 3, zeroed := true, map := defaultMap {}, replay := [0x8000040] } }, 0x8000041, 1, true, by decide +kernel⟩,
   ⟨{ live 5 with dram := { st := 4 }, fwd := { sweeping := true } }, by decide +kernel⟩,
   ⟨live 5, by decide +kernel⟩⟩

/-- The conditions of `RingRowsTakeEffect` can be met. -/
theorem witness_RingRowsTakeEffect :
    (∃ (s : State), s.ring.st = 1 ∧ s.ring.txOn = false) ∧
    (∃ (s : State) (port : Fin 2) (delay us : Nat), s.ring.txOn = true ∧ s.ring.st = 1 ∧ s.outs.ringTx = .ridgeline ∧ (ringPort s port.val).up = false) ∧
    (∃ (s : State) (port : Fin 2) (delay us : Nat), s.ring.st = 0) ∧
    (∃ (s : State) (port : Fin 2) (lost : Nat) (peerVigil : Bool), (ringPort s port.val).up = true) ∧
    (∃ (s : State), s.ring.st = 1 ∧ s.ring.txOn = true) ∧
    (∃ (s : State) (t : Nat), s.ring.retryFrom = some t ∧ s.ring.st = 3 ∧ s.ring.enable = true ∧ s.ring.blocked = false ∧ s.modes.mode = 4) ∧
    (∃ (s : State) (t : Nat), s.ring.retryFrom = some t ∧ s.ring.st = 3 ∧ s.ring.enable = true ∧ s.ring.blocked = false ∧ s.modes.mode = 3) ∧
    (∃ (s : State) (port : Fin 2) (frame : List Byte), ringLive s port.val = true ∧ 1 ≤ rfType frame ∧ rfType frame ≤ 8 ∧ rfDst frame ≠ ringId s ∧ rfDst frame ≠ 0x0F ∧ rfOrigin frame ≠ ringId s ∧ 1 < rfHops frame ∧ rfType frame ≠ 1 ∧ rfType frame ≠ 7 ∧ rfType frame ≠ 8) ∧
    (∃ (s : State) (port : Fin 2) (frame : List Byte), ringLive s port.val = true ∧ 1 ≤ rfType frame ∧ rfType frame ≤ 8 ∧ rfDst frame ≠ ringId s ∧ rfDst frame ≠ 0x0F ∧ rfHops frame ≤ 1) ∧
    (∃ (s : State) (port : Fin 2) (frame : List Byte) (crcOk : Bool), ringLive s port.val = true ∧ (crcOk = false ∨ rfType frame = 0 ∨ 8 < rfType frame)) ∧
    (∃ (s : State) (port : Fin 2) (x : RPort) (f g : List Byte), ringLive s port.val = true ∧ s.ring.ports[port.val]? = some x ∧ x.wait = [(2, f), (1, g)]) ∧
    (∃ (s : State) (port : Fin 2) (frame : List Byte), ringLive s port.val = true ∧ rfType frame = 2 ∧ rfDst frame ≠ ringId s ∧ rfDst frame ≠ 0x0F ∧ rfOrigin frame ≠ ringId s ∧ 1 < rfHops frame) ∧
    (∃ (s : State) (port : Fin 2) (frame : List Byte), ringLive s port.val = true ∧ rfType frame = 2 ∧ rfDst frame = ringId s ∧ rfOrigin frame ≠ ringId s ∧ pathOn s = false) ∧
    (∃ (s : State) (port : Fin 2) (t residence : Nat) (frame : List Byte), ringLive s port.val = true ∧ rfType frame = 1 ∧ rfDst frame = 0x0F ∧ rfOrigin frame ≠ ringId s ∧ ((slice frame 28 8).map (·.toNat)).contains (ringId s) = false ∧ s.pwr.ringRole = 0 ∧ s.cad.source ≠ 2 ∧ 1 < rfHops frame) ∧
    (∃ (s : State) (port : Fin 2) (t residence : Nat) (frame : List Byte), ringLive s port.val = true ∧ rfType frame = 1 ∧ rfDst frame = 0x0F ∧ rfOrigin frame ≠ ringId s ∧ ((slice frame 28 8).map (·.toNat)).contains (ringId s) = true) ∧
    (∃ (s : State) (port : Fin 2) (frame : List Byte), ringLive s port.val = true ∧ rfType frame = 3 ∧ rfDst frame = ringId s ∧ rfOrigin frame ≠ ringId s ∧ s.ring.master = some (rfOrigin frame) ∧ s.ring.held.length < 8) ∧
    (∃ (s : State) (port : Fin 2) (frame : List Byte), ringLive s port.val = true ∧ rfType frame = 3 ∧ rfDst frame = ringId s ∧ rfOrigin frame ≠ ringId s ∧ s.ring.master ≠ some (rfOrigin frame)) ∧
    (∃ (s : State) (port : Fin 2) (frame : List Byte) (o q op : Nat), ringLive s port.val = true ∧ rfType frame = 4 ∧ rfDst frame = ringId s ∧ rfOrigin frame ≠ ringId s ∧ s.ring.acting = true ∧ s.ring.sent = [(o, q, op)] ∧ rfOrigin frame = o ∧ (rfBody frame).length < 64 ∧ fld (rfBody frame) 2 2 = q ∧ fld (rfBody frame) 0 2 ≠ 1) ∧
    (∃ (s : State) (port : Fin 2) (frame : List Byte), ringLive s port.val = true ∧ rfType frame = 4 ∧ rfDst frame = ringId s ∧ rfOrigin frame ≠ ringId s ∧ s.ring.acting = false) ∧
    (∃ (s : State) (port : Fin 2) (frame : List Byte), ringLive s port.val = true ∧ rfType frame = 5 ∧ rfDst frame = ringId s ∧ rfOrigin frame ≠ ringId s ∧ Tab.get? s.ring.expect (rfOrigin frame) = none) ∧
    (∃ (s : State) (port : Fin 2) (frame : List Byte), ringLive s port.val = true ∧ rfType frame = 5 ∧ rfDst frame = ringId s ∧ rfOrigin frame ≠ ringId s ∧ Tab.get? s.ring.expect (rfOrigin frame) = some ((rfSeq frame + 1) % 65536)) ∧
    (∃ (s : State) (port : Fin 2) (frame : List Byte), ringLive s port.val = true ∧ rfType frame = 6 ∧ rfDst frame = ringId s ∧ rfOrigin frame ≠ ringId s) ∧
    (∃ (s : State), s.ring.sumEn = true ∧ s.ring.st = 2 ∧ s.modes.mode = 5 ∧ s.ring.sumAt + s.ring.sumBeats ≤ curBeat s) ∧
    (∃ (s : State) (port : Fin 2) (frame : List Byte), ringLive s port.val = true ∧ rfType frame = 7 ∧ rfDst frame = ringId s ∧ rfOrigin frame ≠ ringId s ∧ s.ring.acting = true ∧ s.pwr.ringRole = 2) ∧
    (∃ (s : State), s.ring.acting = true ∧ s.ring.st = 2 ∧ s.modes.mode = 5) ∧
    (∃ (s : State), s.ring.acting = false) ∧
    (∃ (s : State), s.ring.window = false ∧ s.ring.acting = false ∧ s.ring.st = 2 ∧ s.modes.mode = 3) ∧
    (∃ (s : State), s.ring.window = true ∧ s.ring.arrived = true) ∧
    (∃ (s : State), s.ring.window = true ∧ s.ring.arrived = false) ∧
    (∃ (s : State) (port : Fin 2) (ticks residence : Nat) (frame : List Byte), s.ring.window = true ∧ s.ring.arrived = false ∧ (ringPort s port.val).lane0 = true ∧ rfType frame = 8 ∧ (slice frame 28 8).contains (BitVec.ofNat 8 (ringId s)) = false ∧ s.modes.mode = 5) ∧
    (∃ (s : State) (d : Doorbell) (p : List Byte), Ready specRingConfig d p s ∧ (let c := cmdOf specRingConfig d p s; c.u 16 1 = 0 ∧ c.u 18 2 ≤ 10000 ∧ 10 ≤ c.u 20 2 ∧ c.u 20 2 ≤ 5000 ∧ 1 ≤ c.u 22 2 ∧ c.u 22 2 ≤ 3600 ∧ 10 ≤ c.u 24 2 ∧ c.u 24 2 ≤ 10000 ∧ s.pwr.ringRole = 0 ∧ bit (c.u 17 1) 0 = true ∧ s.modes.mode = 4 ∧ s.ring.st = 2)) ∧
    (∃ (s : State) (d : Doorbell) (p : List Byte), Ready specRingConfig d p s ∧ (let c := cmdOf specRingConfig d p s; c.u 16 1 = 0 ∧ c.u 18 2 ≤ 10000 ∧ 10 ≤ c.u 20 2 ∧ c.u 20 2 ≤ 5000 ∧ 1 ≤ c.u 22 2 ∧ c.u 22 2 ≤ 3600 ∧ 10 ≤ c.u 24 2 ∧ c.u 24 2 ≤ 10000 ∧ s.pwr.ringRole = 0 ∧ bit (c.u 17 1) 0 = true ∧ s.modes.mode = 4 ∧ s.ring.st = 3)) ∧
    (∃ (s : State) (d : Doorbell) (p : List Byte), Ready specRingConfig d p s ∧ (let c := cmdOf specRingConfig d p s; c.u 16 1 = 0 ∧ c.u 18 2 ≤ 10000 ∧ 10 ≤ c.u 20 2 ∧ c.u 20 2 ≤ 5000 ∧ 1 ≤ c.u 22 2 ∧ c.u 22 2 ≤ 3600 ∧ 10 ≤ c.u 24 2 ∧ c.u 24 2 ≤ 10000 ∧ s.pwr.ringRole = 3)) ∧
    (∃ (s : State) (d : Doorbell) (p : List Byte), Ready specRingStatus d p s) ∧
    (∃ (s : State) (d : Doorbell) (p : List Byte), Ready specRingTableSync d p s ∧ pendingOf s d.mb.val < 32 ∧ (s.pwr.ringRole ≠ 3)) ∧
    (∃ (s : State) (d : Doorbell) (p : List Byte), Ready specRingTableSync d p s ∧ (s.pwr.ringRole = 3)) ∧
    (∃ (s : State) (l : LongCmd), s.ring.syncing = none ∧ findLong s 0x0F03 = some l) ∧
    (∃ (s : State), s.ring.syncing = some 0) ∧
    (∃ (s : State) (d : Doorbell) (p : List Byte), Ready specRendezvousSet d p s ∧ (let c := cmdOf specRendezvousSet d p s; 100 ≤ c.u 16 2 ∧ c.u 16 2 ≤ 60000 ∧ 10 ≤ c.u 18 2 ∧ c.u 18 2 ≤ 1000 ∧ s.pwr.ringRole ≠ 3 ∧ s.ring.acting = true)) ∧
    (∃ (s : State) (d : Doorbell) (p : List Byte), Ready specRendezvousSet d p s ∧ (let c := cmdOf specRendezvousSet d p s; 100 ≤ c.u 16 2 ∧ c.u 16 2 ≤ 60000 ∧ 10 ≤ c.u 18 2 ∧ c.u 18 2 ≤ 1000 ∧ s.pwr.ringRole ≠ 3 ∧ s.ring.acting = false ∧ c.u 20 1 ≠ 0)) :=
  ⟨⟨{ live 4 with ring := { st := 1 } }, by decide +kernel⟩,
   ⟨{ live 4 with ring := { st := 1, txOn := true }, outs := { ringTx := .ridgeline }, pwr := { ringRole := 1, ringId := 3 } }, 1, 500, 20, by decide +kernel⟩,
   ⟨live 4, 1, 500, 20, by decide +kernel⟩,
   ⟨ringed 5 {}, 1, 3, true, by decide +kernel⟩,
   ⟨{ live 4 with ring := { st := 1, txOn := true }, outs := { bypRing := true } }, by decide +kernel⟩,
   ⟨{ live 4 with ring := { st := 3, retryFrom := some 5 } }, 5, by decide +kernel⟩,
   ⟨{ live 3 with ring := { st := 3, retryFrom := some 5 } }, 5, by decide +kernel⟩,
   ⟨ringed 5 {}, 0, ringF 4 6 3 [1, 2], by decide +kernel⟩,
   ⟨ringed 5 {}, 1, ringF 4 6 1 [1, 2], by decide +kernel⟩,
   ⟨ringed 5 {}, 1, ringF 9 6 1 [1, 2], true, by decide +kernel⟩,
   ⟨{ ringed 5 {} with ring := { st := 2, ports := [{}, { up := true, wait := [(2, [7]), (1, [8])] }] } }, 1, { up := true, wait := [(2, [7]), (1, [8])] }, [7], [8], by decide +kernel⟩,
   ⟨ringed 5 {}, 0, ringF 2 6 3 [1, 2], by decide +kernel⟩,
   ⟨{ ringed 5 {} with modes := { mode := 3 } }, 0, ringF 2 2 3 [1, 2], by decide +kernel⟩,
   ⟨ringed 5 {}, 0, 0, 0, ringF 1 15 7 (be 6 9 ++ [0, 12, 0, 0, 0, 0, 5, 255, 255, 255, 255, 255, 255, 255, 0, 0, 0, 0]), by decide +kernel⟩,
   ⟨ringed 5 {}, 0, 0, 0, ringF 1 15 7 (be 6 9 ++ [0, 12, 0, 0, 0, 0, 5, 2, 255, 255, 255, 255, 255, 255, 0, 0, 0, 0]), by decide +kernel⟩,
   ⟨ringed 5 { master := some 5 }, 0, ringF 3 2 3 [1, 2], by decide +kernel⟩,
   ⟨ringed 5 { master := some 4 }, 0, ringF 3 2 3 [1, 2], by decide +kernel⟩,
   ⟨ringed 5 { acting := true, sent := [(5, 0x0403, 9)] }, 0, ringF 4 2 3 [0, 0, 3, 4, 0, 0, 0, 0], 5, 0x0403, 9, by decide +kernel⟩,
   ⟨ringed 5 { sent := [(5, 0x0403, 9)] }, 0, ringF 4 2 3 [0, 0, 3, 4, 0, 0, 0, 0], by decide +kernel⟩,
   ⟨ringed 5 {}, 0, ringF 5 2 3 (updateBody 0x0A02 [0, 0, 0, 0, 0, 7, 5, 0, 0, 0, 0, 0]), by decide +kernel⟩,
   ⟨ringed 5 { expect := [(5, 78)] }, 0, ringF 5 2 3 (updateBody 0x0A02 [0, 0, 0, 0, 0, 7, 5, 0, 0, 0, 0, 0]), by decide +kernel⟩,
   ⟨ringed 5 {}, 0, ringF 6 2 3 [0, 0, 0, 0], by decide +kernel⟩,
   ⟨ringed 5 { sumEn := true, sumAt := 0, sumBeats := 0, placed := [(3, 0)] }, by decide +kernel⟩,
   ⟨{ ringed 5 { acting := true } with pwr := { ringId := 2, ringRole := 2 } }, 0, ringF 7 2 3 [0, 0, 0, 0, 0, 9], by decide +kernel⟩,
   ⟨ringed 5 { acting := true, wakeLeft := 3 }, by decide +kernel⟩,
   ⟨ringed 5 {}, by decide +kernel⟩,
   ⟨ringed 3 {}, by decide +kernel⟩,
   ⟨ringed 3 { window := true, arrived := true }, by decide +kernel⟩,
   ⟨ringed 3 { window := true, g := 7 }, by decide +kernel⟩,
   ⟨{ ringed 5 {} with ring := { st := 2, window := true, misses := 4, ports := [{ up := true, lane0 := true }, { up := true }] } }, 0, 5, 6, ringF 8 15 7 [0, 0, 0, 9, 0, 0, 0, 0, 0, 0, 0, 0, 5, 255, 255, 255, 255, 255, 255, 255], by decide +kernel⟩,
   ⟨ringed 4 {}, bell 12, fields 12 [(17, 1, 11), (18, 2, 10000), (20, 2, 10), (22, 2, 3600), (24, 2, 10), (26, 2, 0)], ready_of_readyOk (by decide +kernel), by decide +kernel⟩,
   ⟨{ live 4 with ring := { st := 3, blocked := true } }, bell 12, fields 12 [(17, 1, 11), (18, 2, 10000), (20, 2, 10), (22, 2, 3600), (24, 2, 10), (26, 2, 0)], ready_of_readyOk (by decide +kernel), by decide +kernel⟩,
   ⟨{ live 4 with pwr := { ringRole := 3 } }, bell 12, fields 12 [(17, 1, 11), (18, 2, 10000), (20, 2, 10), (22, 2, 3600), (24, 2, 10), (26, 2, 0)], ready_of_readyOk (by decide +kernel), by decide +kernel⟩,
   ⟨ringed 5 { ctr := [1, 2, 3] }, bell 4, fields 4 [(16, 1, 1)], ready_of_readyOk (by decide +kernel)⟩,
   ⟨live 4, bell 4, fields 4 [(16, 1, 3)], ready_of_readyOk (by decide +kernel), by decide +kernel, by decide +kernel⟩,
   ⟨{ live 4 with pwr := { ringRole := 3 } }, bell 4, fields 4 [(16, 1, 3)], ready_of_readyOk (by decide +kernel), by decide +kernel⟩,
   ⟨{ live 4 with mbx := { longs := [{ cmd := { op := 0x0F03, par := [1, 0, 0, 0] } }] } }, { cmd := { op := 0x0F03, par := [1, 0, 0, 0] } }, by decide +kernel⟩,
   ⟨{ live 4 with ring := { syncing := some 0 } }, by decide +kernel⟩,
   ⟨ringed 4 { acting := true }, bell 8, fields 8 [(16, 2, 100), (18, 2, 1000), (20, 1, 5), (21, 3, 0)], ready_of_readyOk (by decide +kernel), by decide +kernel⟩,
   ⟨ringed 4 {}, bell 8, fields 8 [(16, 2, 100), (18, 2, 1000), (20, 1, 5), (21, 3, 0)], ready_of_readyOk (by decide +kernel), by decide +kernel⟩⟩

/-- The conditions of `CragArithmeticResults` can be met. -/
theorem witness_CragArithmeticResults :
    (∃ (s : State) (core : Fin 33) (dst srcA : BitVec 5) (b : Src2), cragRuns s core.val = true ∧ inCode s core.val (getCore s core.val) = true) ∧
    (∃ (s : State) (core : Fin 33) (dst srcA : BitVec 5) (b : Src2), cragRuns s core.val = true ∧ inCode s core.val (getCore s core.val) = true) ∧
    (∃ (s : State) (core : Fin 33) (dst srcA : BitVec 5) (b : Src2), cragRuns s core.val = true ∧ inCode s core.val (getCore s core.val) = true) ∧
    (∃ (s : State) (core : Fin 33) (dst srcA : BitVec 5) (b : Src2), cragRuns s core.val = true ∧ inCode s core.val (getCore s core.val) = true) ∧
    (∃ (s : State) (core : Fin 33) (dst srcA : BitVec 5) (b : Src2), cragRuns s core.val = true ∧ inCode s core.val (getCore s core.val) = true) ∧
    (∃ (s : State) (core : Fin 33) (dst srcA : BitVec 5) (b : Src2), cragRuns s core.val = true ∧ inCode s core.val (getCore s core.val) = true) ∧
    (∃ (s : State) (core : Fin 33) (dst srcA : BitVec 5) (b : Src2), cragRuns s core.val = true ∧ inCode s core.val (getCore s core.val) = true) ∧
    (∃ (s : State) (core : Fin 33) (dst srcA : BitVec 5) (b : Src2), cragRuns s core.val = true ∧ inCode s core.val (getCore s core.val) = true) ∧
    (∃ (s : State) (core : Fin 33) (dst srcA : BitVec 5) (b : Src2), cragRuns s core.val = true ∧ inCode s core.val (getCore s core.val) = true) ∧
    (∃ (s : State) (core : Fin 33) (dst srcA : BitVec 5) (b : Src2), cragRuns s core.val = true ∧ inCode s core.val (getCore s core.val) = true) ∧
    (∃ (s : State) (core : Fin 33) (dst srcA : BitVec 5) (b : Src2), cragRuns s core.val = true ∧ inCode s core.val (getCore s core.val) = true) ∧
    (∃ (s : State) (core : Fin 33) (dst srcA : BitVec 5) (b : Src2), cragRuns s core.val = true ∧ inCode s core.val (getCore s core.val) = true) ∧
    (∃ (s : State) (core : Fin 33) (dst srcA : BitVec 5) (b : Src2), cragRuns s core.val = true ∧ inCode s core.val (getCore s core.val) = true) ∧
    (∃ (s : State) (core : Fin 33) (dst srcA : BitVec 5) (b : Src2), cragRuns s core.val = true ∧ inCode s core.val (getCore s core.val) = true) ∧
    (∃ (s : State) (core : Fin 33) (dst srcA : BitVec 5) (b : Src2), cragRuns s core.val = true ∧ inCode s core.val (getCore s core.val) = true ∧ (b = .reg 0 ∨ b = .imm 0)) ∧
    (∃ (s : State) (core : Fin 33) (dst srcA : BitVec 5) (b : Src2), cragRuns s core.val = true ∧ inCode s core.val (getCore s core.val) = true ∧ (b = .reg 0 ∨ b = .imm 0)) ∧
    (∃ (s : State) (core : Fin 33) (dst srcA : BitVec 5) (b : Src2), cragRuns s core.val = true ∧ inCode s core.val (getCore s core.val) = true ∧ b ≠ .reg 0 ∧ b ≠ .imm 0) ∧
    (∃ (s : State) (core : Fin 33) (dst srcA : BitVec 5) (b : Src2), cragRuns s core.val = true ∧ inCode s core.val (getCore s core.val) = true ∧ dst = 0) ∧
    (∃ (s : State) (core : Fin 33) (dst srcA : BitVec 5) (b : Src2), cragRuns s core.val = true ∧ inCode s core.val (getCore s core.val) = true ∧ dst ≠ 0) ∧
    (∃ (s : State) (core : Fin 33) (dst srcA : BitVec 5) (b : Src2), cragRuns s core.val = true ∧ inCode s core.val (getCore s core.val) = true) ∧
    (∃ (s : State) (core : Fin 33) (dst srcA : BitVec 5) (b : Src2), cragRuns s core.val = true ∧ inCode s core.val (getCore s core.val) = true) ∧
    (∃ (s : State) (core : Fin 33) (dst srcA : BitVec 5) (b : Src2), cragRuns s core.val = true ∧ inCode s core.val (getCore s core.val) = true ∧ (b = .reg 0 ∨ b = .imm 0)) ∧
    (∃ (s : State) (core : Fin 33) (dst srcA srcB : BitVec 5), cragRuns s core.val = true ∧ inCode s core.val (getCore s core.val) = true) ∧
    (∃ (s : State) (core : Fin 33) (dst srcA : BitVec 4) (b : Src2), cragRuns s core.val = true ∧ inCode s core.val (getCore s core.val) = true) ∧
    (∃ (s : State) (core : Fin 33) (dst : BitVec 5) (imm : W16), cragRuns s core.val = true ∧ inCode s core.val (getCore s core.val) = true) ∧
    (∃ (s : State) (core : Fin 33) (dst : BitVec 5) (imm : W16), cragRuns s core.val = true ∧ inCode s core.val (getCore s core.val) = true) ∧
    (∃ (s : State) (core : Fin 33) (dst : BitVec 4) (imm : W16), cragRuns s core.val = true ∧ inCode s core.val (getCore s core.val) = true) :=
  ⟨⟨crag1 [5, 0xFFFFFFF0, 0x7FFFFFFF, 0x80000000, 0x8000F123, 0x00018000] [64, 96, 0x10000000, 128], 1, 7, 2, .imm 1, by decide +kernel⟩,
   ⟨crag1 [5, 0xFFFFFFF0, 0x7FFFFFFF, 0x80000000, 0x8000F123, 0x00018000] [64, 96, 0x10000000, 128], 1, 7, 3, .reg 0, by decide +kernel⟩,
   ⟨crag1 [5, 0xFFFFFFF0, 0x7FFFFFFF, 0x80000000, 0x8000F123, 0x00018000] [64, 96, 0x10000000, 128], 1, 7, 2, .imm 9, by decide +kernel⟩,
   ⟨crag1 [5, 0xFFFFFFF0, 0x7FFFFFFF, 0x80000000, 0x8000F123, 0x00018000] [64, 96, 0x10000000, 128], 1, 7, 3, .imm 9, by decide +kernel⟩,
   ⟨crag1 [5, 0xFFFFFFF0, 0x7FFFFFFF, 0x80000000, 0x8000F123, 0x00018000] [64, 96, 0x10000000, 128], 1, 7, 3, .imm 12, by decide +kernel⟩,
   ⟨crag1 [5, 0xFFFFFFF0, 0x7FFFFFFF, 0x80000000, 0x8000F123, 0x00018000] [64, 96, 0x10000000, 128], 1, 7, 3, .imm 0xFFF, by decide +kernel⟩,
   ⟨crag1 [5, 0xFFFFFFF0, 0x7FFFFFFF, 0x80000000, 0x8000F123, 0x00018000] [64, 96, 0x10000000, 128], 1, 7, 3, .reg 3, by decide +kernel⟩,
   ⟨crag1 [5, 0xFFFFFFF0, 0x7FFFFFFF, 0x80000000, 0x8000F123, 0x00018000] [64, 96, 0x10000000, 128], 1, 7, 3, .imm 33, by decide +kernel⟩,
   ⟨crag1 [5, 0xFFFFFFF0, 0x7FFFFFFF, 0x80000000, 0x8000F123, 0x00018000] [64, 96, 0x10000000, 128], 1, 7, 3, .imm 31, by decide +kernel⟩,
   ⟨crag1 [5, 0xFFFFFFF0, 0x7FFFFFFF, 0x80000000, 0x8000F123, 0x00018000] [64, 96, 0x10000000, 128], 1, 7, 3, .imm 31, by decide +kernel⟩,
   ⟨crag1 [5, 0xFFFFFFF0, 0x7FFFFFFF, 0x80000000, 0x8000F123, 0x00018000] [64, 96, 0x10000000, 128], 1, 7, 3, .reg 2, by decide +kernel⟩,
   ⟨crag1 [5, 0xFFFFFFF0, 0x7FFFFFFF, 0x80000000, 0x8000F123, 0x00018000] [64, 96, 0x10000000, 128], 1, 7, 3, .reg 2, by decide +kernel⟩,
   ⟨crag1 [5, 0xFFFFFFF0, 0x7FFFFFFF, 0x80000000, 0x8000F123, 0x00018000] [64, 96, 0x10000000, 128], 1, 7, 3, .reg 2, by decide +kernel⟩,
   ⟨crag1 [5, 0xFFFFFFF0, 0x7FFFFFFF, 0x80000000, 0x8000F123, 0x00018000] [64, 96, 0x10000000, 128], 1, 7, 3, .reg 3, by decide +kernel⟩,
   ⟨crag1 [5, 0xFFFFFFF0, 0x7FFFFFFF, 0x80000000, 0x8000F123, 0x00018000] [64, 96, 0x10000000, 128], 1, 7, 3, .imm 0, by decide +kernel⟩,
   ⟨crag1 [5, 0xFFFFFFF0, 0x7FFFFFFF, 0x80000000, 0x8000F123, 0x00018000] [64, 96, 0x10000000, 128], 1, 7, 3, .imm 0, by decide +kernel⟩,
   ⟨crag1 [5, 0xFFFFFFF0, 0x7FFFFFFF, 0x80000000, 0x8000F123, 0x00018000] [64, 96, 0x10000000, 128], 1, 7, 3, .imm 1, by decide +kernel⟩,
   ⟨crag1 [5, 0xFFFFFFF0, 0x7FFFFFFF, 0x80000000, 0x8000F123, 0x00018000] [64, 96, 0x10000000, 128], 1, 0, 3, .imm 1, by decide +kernel⟩,
   ⟨crag1 [5, 0xFFFFFFF0, 0x7FFFFFFF, 0x80000000, 0x8000F123, 0x00018000] [64, 96, 0x10000000, 128], 1, 1, 3, .imm 1, by decide +kernel⟩,
   ⟨crag1 [5, 0xFFFFFFF0, 0x7FFFFFFF, 0x80000000, 0x8000F123, 0x00018000] [64, 96, 0x10000000, 128], 1, 7, 4, .reg 5, by decide +kernel⟩,
   ⟨crag1 [5, 0xFFFFFFF0, 0x7FFFFFFF, 0x80000000, 0x8000F123, 0x00018000] [64, 96, 0x10000000, 128], 1, 7, 4, .reg 5, by decide +kernel⟩,
   ⟨crag1 [5, 0xFFFFFFF0, 0x7FFFFFFF, 0x80000000, 0x8000F123, 0x00018000] [64, 96, 0x10000000, 128], 1, 7, 4, .imm 0, by decide +kernel⟩,
   ⟨crag1 [5, 0xFFFFFFF0, 0x7FFFFFFF, 0x80000000, 0x8000F123, 0x00018000] [64, 96, 0x10000000, 128], 1, 7, 4, 5, by decide +kernel⟩,
   ⟨crag1 [5, 0xFFFFFFF0, 0x7FFFFFFF, 0x80000000, 0x8000F123, 0x00018000] [64, 96, 0x10000000, 128], 1, 7, 1, .imm 0xFFF, by decide +kernel⟩,
   ⟨crag1 [5, 0xFFFFFFF0, 0x7FFFFFFF, 0x80000000, 0x8000F123, 0x00018000] [64, 96, 0x10000000, 128], 1, 7, 0x8001, by decide +kernel⟩,
   ⟨crag1 [5, 0xFFFFFFF0, 0x7FFFFFFF, 0x80000000, 0x8000F123, 0x00018000] [64, 96, 0x10000000, 128], 1, 4, 0x8001, by decide +kernel⟩,
   ⟨crag1 [5, 0xFFFFFFF0, 0x7FFFFFFF, 0x80000000, 0x8000F123, 0x00018000] [64, 96, 0x10000000, 128], 1, 4, 0x8001, by decide +kernel⟩⟩

/-- The conditions of `CragAccumulatorResults` can be met. -/
theorem witness_CragAccumulatorResults :
    (∃ (s : State) (core : Fin 33) (acc : BitVec 3) (srcA srcB : BitVec 5), cragRuns s core.val = true ∧ inCode s core.val (getCore s core.val) = true) ∧
    (∃ (s : State) (core : Fin 33) (acc : BitVec 3) (srcA srcB : BitVec 5), cragRuns s core.val = true ∧ inCode s core.val (getCore s core.val) = true) ∧
    (∃ (s : State) (core : Fin 33) (acc : BitVec 3) (srcA srcB : BitVec 5), cragRuns s core.val = true ∧ inCode s core.val (getCore s core.val) = true) ∧
    (∃ (s : State) (core : Fin 33) (acc : BitVec 3) (srcA srcB : BitVec 5), cragRuns s core.val = true ∧ inCode s core.val (getCore s core.val) = true) ∧
    (∃ (s : State) (core : Fin 33) (acc : BitVec 3) (srcA srcB : BitVec 5), cragRuns s core.val = true ∧ inCode s core.val (getCore s core.val) = true) ∧
    (∃ (s : State) (core : Fin 33) (acc src : BitVec 3), cragRuns s core.val = true ∧ inCode s core.val (getCore s core.val) = true) ∧
    (∃ (s : State) (core : Fin 33) (acc : BitVec 3) (srcA srcB : BitVec 5), cragRuns s core.val = true ∧ inCode s core.val (getCore s core.val) = true ∧ acc.getLsbD 0 = false) ∧
    (∃ (s : State) (core : Fin 33) (acc : BitVec 3) (srcA srcB : BitVec 5), cragRuns s core.val = true ∧ inCode s core.val (getCore s core.val) = true ∧ acc.getLsbD 0 = false) ∧
    (∃ (s : State) (core : Fin 33) (acc : BitVec 3) (srcA srcB : BitVec 5), cragRuns s core.val = true ∧ inCode s core.val (getCore s core.val) = true ∧ acc.getLsbD 0 = false) ∧
    (∃ (s : State) (core : Fin 33) (acc : BitVec 3) (srcA srcB : BitVec 5), cragRuns s core.val = true ∧ inCode s core.val (getCore s core.val) = true ∧ acc.getLsbD 0 = true) ∧
    (∃ (s : State) (core : Fin 33) (acc : BitVec 3), cragRuns s core.val = true ∧ inCode s core.val (getCore s core.val) = true) ∧
    (∃ (s : State) (core : Fin 33) (acc : BitVec 3), cragRuns s core.val = true ∧ inCode s core.val (getCore s core.val) = true ∧ acc.getLsbD 0 = false) ∧
    (∃ (s : State) (core : Fin 33) (acc : BitVec 3), cragRuns s core.val = true ∧ inCode s core.val (getCore s core.val) = true ∧ acc.getLsbD 0 = true) ∧
    (∃ (s : State) (core : Fin 33) (acc : BitVec 3) (srcA : BitVec 5), cragRuns s core.val = true ∧ inCode s core.val (getCore s core.val) = true) ∧
    (∃ (s : State) (core : Fin 33) (acc : BitVec 3) (pa pb : BitVec 4) (incA incB : Bool) (p q : List Byte), cragRuns s core.val = true ∧ inCode s core.val (getCore s core.val) = true ∧ cragRead s core.val (getCore s core.val) ((getCore s core.val).pr pa).toNat 16 = some p ∧ cragRead s core.val (getCore s core.val) ((getCore s core.val).pr pb).toNat 16 = some q) ∧
    (∃ (s : State) (core : Fin 33) (acc : BitVec 3) (pa pb : BitVec 4) (incA incB : Bool) (p q : List Byte), cragRuns s core.val = true ∧ inCode s core.val (getCore s core.val) = true ∧ acc.getLsbD 0 = false ∧ cragRead s core.val (getCore s core.val) ((getCore s core.val).pr pa).toNat 16 = some p ∧ cragRead s core.val (getCore s core.val) ((getCore s core.val).pr pb).toNat 16 = some q) ∧
    (∃ (s : State) (core : Fin 33) (acc : BitVec 3) (pa pb : BitVec 4) (incA incB : Bool) (p q : List Byte), cragRuns s core.val = true ∧ inCode s core.val (getCore s core.val) = true ∧ acc.getLsbD 0 = false ∧ cragRead s core.val (getCore s core.val) ((getCore s core.val).pr pa).toNat 16 = some p ∧ cragRead s core.val (getCore s core.val) ((getCore s core.val).pr pb).toNat 16 = some q) ∧
    (∃ (s : State) (core : Fin 33) (dst : BitVec 5) (acc : BitVec 3) (sh : BitVec 6), cragRuns s core.val = true ∧ inCode s core.val (getCore s core.val) = true) ∧
    (∃ (s : State) (core : Fin 33) (dst : BitVec 5) (acc : BitVec 3) (sh : BitVec 6), cragRuns s core.val = true ∧ inCode s core.val (getCore s core.val) = true) ∧
    (∃ (s : State) (core : Fin 33) (dst : BitVec 5) (acc : BitVec 3) (sh : BitVec 6), cragRuns s core.val = true ∧ inCode s core.val (getCore s core.val) = true) ∧
    (∃ (s : State) (core : Fin 33) (dst : BitVec 5) (acc : BitVec 3) (sh : BitVec 6), cragRuns s core.val = true ∧ inCode s core.val (getCore s core.val) = true ∧ acc.getLsbD 0 = false) ∧
    (∃ (s : State) (core : Fin 33) (dst : BitVec 5) (acc : BitVec 3), cragRuns s core.val = true ∧ inCode s core.val (getCore s core.val) = true) ∧
    (∃ (s : State) (core : Fin 33) (dst : BitVec 5) (acc : BitVec 3), cragRuns s core.val = true ∧ inCode s core.val (getCore s core.val) = true) ∧
    (∃ (s : State) (core : Fin 33) (dst : BitVec 5) (acc : BitVec 3), cragRuns s core.val = true ∧ inCode s core.val (getCore s core.val) = true) ∧
    (∃ (s : State) (core : Fin 33) (dst : BitVec 5) (acc : BitVec 3), cragRuns s core.val = true ∧ inCode s core.val (getCore s core.val) = true) ∧
    (∃ (s : State) (core : Fin 33) (dst : BitVec 5) (acc : BitVec 3), cragRuns s core.val = true ∧ inCode s core.val (getCore s core.val) = true) ∧
    (∃ (s : State) (core : Fin 33) (dst : BitVec 5) (acc : BitVec 3), cragRuns s core.val = true ∧ inCode s core.val (getCore s core.val) = true) :=
  ⟨⟨crag1 [5, 0xFFFFFFF0, 0x7FFFFFFF, 0x80000000, 0x8000F123, 0x00018000] [64, 96, 0x10000000, 128], 1, 2, 4, 5, by decide +kernel⟩,
   ⟨crag1 [5, 0xFFFFFFF0, 0x7FFFFFFF, 0x80000000, 0x8000F123, 0x00018000] [64, 96, 0x10000000, 128], 1, 2, 4, 5, by decide +kernel⟩,
   ⟨crag1 [5, 0xFFFFFFF0, 0x7FFFFFFF, 0x80000000, 0x8000F123, 0x00018000] [64, 96, 0x10000000, 128], 1, 2, 4, 5, by decide +kernel⟩,
   ⟨crag1 [5, 0xFFFFFFF0, 0x7FFFFFFF, 0x80000000, 0x8000F123, 0x00018000] [64, 96, 0x10000000, 128], 1, 2, 4, 5, by decide +kernel⟩,
   ⟨crag1 [5, 0xFFFFFFF0, 0x7FFFFFFF, 0x80000000, 0x8000F123, 0x00018000] [64, 96, 0x10000000, 128], 1, 2, 4, 5, by decide +kernel⟩,
   ⟨crag1 [5, 0xFFFFFFF0, 0x7FFFFFFF, 0x80000000, 0x8000F123, 0x00018000] [64, 96, 0x10000000, 128], 1, 2, 3, by decide +kernel⟩,
   ⟨crag1 [5, 0xFFFFFFF0, 0x7FFFFFFF, 0x80000000, 0x8000F123, 0x00018000] [64, 96, 0x10000000, 128], 1, 2, 4, 5, by decide +kernel⟩,
   ⟨crag1 [5, 0xFFFFFFF0, 0x7FFFFFFF, 0x80000000, 0x8000F123, 0x00018000] [64, 96, 0x10000000, 128], 1, 2, 4, 5, by decide +kernel⟩,
   ⟨crag1 [5, 0xFFFFFFF0, 0x7FFFFFFF, 0x80000000, 0x8000F123, 0x00018000] [64, 96, 0x10000000, 128], 1, 2, 4, 5, by decide +kernel⟩,
   ⟨crag1 [5, 0xFFFFFFF0, 0x7FFFFFFF, 0x80000000, 0x8000F123, 0x00018000] [64, 96, 0x10000000, 128], 1, 3, 4, 5, by decide +kernel⟩,
   ⟨crag1 [5, 0xFFFFFFF0, 0x7FFFFFFF, 0x80000000, 0x8000F123, 0x00018000] [64, 96, 0x10000000, 128], 1, 3, by decide +kernel⟩,
   ⟨crag1 [5, 0xFFFFFFF0, 0x7FFFFFFF, 0x80000000, 0x8000F123, 0x00018000] [64, 96, 0x10000000, 128], 1, 2, by decide +kernel⟩,
   ⟨crag1 [5, 0xFFFFFFF0, 0x7FFFFFFF, 0x80000000, 0x8000F123, 0x00018000] [64, 96, 0x10000000, 128], 1, 3, by decide +kernel⟩,
   ⟨crag1 [5, 0xFFFFFFF0, 0x7FFFFFFF, 0x80000000, 0x8000F123, 0x00018000] [64, 96, 0x10000000, 128], 1, 3, 3, by decide +kernel⟩,
   ⟨crag1 [5, 0xFFFFFFF0, 0x7FFFFFFF, 0x80000000, 0x8000F123, 0x00018000] [64, 96, 0x10000000, 128], 1, 3, 0, 1, true, true, [1, 0, 2, 0, 3, 0, 4, 0, 5, 0, 6, 0, 7, 0, 255, 255], [2, 0, 2, 0, 3, 0, 4, 0, 5, 0, 6, 0, 7, 0, 1, 0], by decide +kernel⟩,
   ⟨crag1 [5, 0xFFFFFFF0, 0x7FFFFFFF, 0x80000000, 0x8000F123, 0x00018000] [64, 96, 0x10000000, 128], 1, 2, 0, 1, false, true, [1, 0, 2, 0, 3, 0, 4, 0, 5, 0, 6, 0, 7, 0, 255, 255], [2, 0, 2, 0, 3, 0, 4, 0, 5, 0, 6, 0, 7, 0, 1, 0], by decide +kernel⟩,
   ⟨crag1 [5, 0xFFFFFFF0, 0x7FFFFFFF, 0x80000000, 0x8000F123, 0x00018000] [64, 96, 0x10000000, 128], 1, 2, 0, 1, false, true, [1, 0, 2, 0, 3, 0, 4, 0, 5, 0, 6, 0, 7, 0, 255, 255], [2, 0, 2, 0, 3, 0, 4, 0, 5, 0, 6, 0, 7, 0, 1, 0], by decide +kernel⟩,
   ⟨crag1 [5, 0xFFFFFFF0, 0x7FFFFFFF, 0x80000000, 0x8000F123, 0x00018000] [64, 96, 0x10000000, 128], 1, 7, 3, 5, by decide +kernel⟩,
   ⟨crag1 [5, 0xFFFFFFF0, 0x7FFFFFFF, 0x80000000, 0x8000F123, 0x00018000] [64, 96, 0x10000000, 128], 1, 7, 3, 5, by decide +kernel⟩,
   ⟨crag1 [5, 0xFFFFFFF0, 0x7FFFFFFF, 0x80000000, 0x8000F123, 0x00018000] [64, 96, 0x10000000, 128], 1, 7, 3, 63, by decide +kernel⟩,
   ⟨crag1 [5, 0xFFFFFFF0, 0x7FFFFFFF, 0x80000000, 0x8000F123, 0x00018000] [64, 96, 0x10000000, 128], 1, 7, 2, 5, by decide +kernel⟩,
   ⟨crag1 [5, 0xFFFFFFF0, 0x7FFFFFFF, 0x80000000, 0x8000F123, 0x00018000] [64, 96, 0x10000000, 128], 1, 7, 3, by decide +kernel⟩,
   ⟨crag1 [5, 0xFFFFFFF0, 0x7FFFFFFF, 0x80000000, 0x8000F123, 0x00018000] [64, 96, 0x10000000, 128], 1, 7, 3, by decide +kernel⟩,
   ⟨crag1 [5, 0xFFFFFFF0, 0x7FFFFFFF, 0x80000000, 0x8000F123, 0x00018000] [64, 96, 0x10000000, 128], 1, 7, 3, by decide +kernel⟩,
   ⟨crag1 [5, 0xFFFFFFF0, 0x7FFFFFFF, 0x80000000, 0x8000F123, 0x00018000] [64, 96, 0x10000000, 128], 1, 4, 3, by decide +kernel⟩,
   ⟨crag1 [5, 0xFFFFFFF0, 0x7FFFFFFF, 0x80000000, 0x8000F123, 0x00018000] [64, 96, 0x10000000, 128], 1, 4, 3, by decide +kernel⟩,
   ⟨crag1 [5, 0xFFFFFFF0, 0x7FFFFFFF, 0x80000000, 0x8000F123, 0x00018000] [64, 96, 0x10000000, 128], 1, 4, 3, by decide +kernel⟩⟩

/-- The conditions of `CragLoadsAndStoresResults` can be met. -/
theorem witness_CragLoadsAndStoresResults :
    (∃ (s : State) (core : Fin 33) (reg : BitVec 5) (ptr : BitVec 4) (m : AddrMode) (v : List Byte), cragRuns s core.val = true ∧ inCode s core.val (getCore s core.val) = true ∧ cragRead s core.val (getCore s core.val) (cragAddr (getCore s core.val) ptr m 1).1.toNat 1 = some v) ∧
    (∃ (s : State) (core : Fin 33) (reg : BitVec 5) (ptr : BitVec 4) (m : AddrMode) (v : List Byte), cragRuns s core.val = true ∧ inCode s core.val (getCore s core.val) = true ∧ cragRead s core.val (getCore s core.val) (cragAddr (getCore s core.val) ptr m 1).1.toNat 1 = some v) ∧
    (∃ (s : State) (core : Fin 33) (reg : BitVec 5) (ptr : BitVec 4) (m : AddrMode) (v : List Byte), cragRuns s core.val = true ∧ inCode s core.val (getCore s core.val) = true ∧ cragRead s core.val (getCore s core.val) (cragAddr (getCore s core.val) ptr m 2).1.toNat 2 = some v) ∧
    (∃ (s : State) (core : Fin 33) (reg : BitVec 5) (ptr : BitVec 4) (m : AddrMode) (v : List Byte), cragRuns s core.val = true ∧ inCode s core.val (getCore s core.val) = true ∧ cragRead s core.val (getCore s core.val) (cragAddr (getCore s core.val) ptr m 2).1.toNat 2 = some v) ∧
    (∃ (s : State) (core : Fin 33) (reg : BitVec 5) (ptr : BitVec 4) (m : AddrMode) (v : List Byte), cragRuns s core.val = true ∧ inCode s core.val (getCore s core.val) = true ∧ cragRead s core.val (getCore s core.val) (cragAddr (getCore s core.val) ptr m 4).1.toNat 4 = some v) ∧
    (∃ (s : State) (core : Fin 33) (reg : BitVec 4) (ptr : BitVec 4) (m : AddrMode) (v : List Byte), cragRuns s core.val = true ∧ inCode s core.val (getCore s core.val) = true ∧ cragRead s core.val (getCore s core.val) (cragAddr (getCore s core.val) ptr m 4).1.toNat 4 = some v) ∧
    (∃ (s : State) (core : Fin 33) (reg : BitVec 3) (ptr : BitVec 4) (m : AddrMode) (v : List Byte), cragRuns s core.val = true ∧ inCode s core.val (getCore s core.val) = true ∧ cragRead s core.val (getCore s core.val) (cragAddr (getCore s core.val) ptr m 8).1.toNat 8 = some v) ∧
    (∃ (s : State) (core : Fin 33) (reg : BitVec 5) (ptr : BitVec 4) (m : AddrMode), cragRuns s core.val = true ∧ inCode s core.val (getCore s core.val) = true ∧ cragRead s core.val (getCore s core.val) (cragAddr (getCore s core.val) ptr m 4).1.toNat 4 = none) ∧
    (∃ (s : State) (core : Fin 33) (reg : BitVec 5) (ptr : BitVec 4) (m : AddrMode) (j : Core) (t : State), cragRuns s core.val = true ∧ inCode s core.val (getCore s core.val) = true ∧ cragWrite core.val (cragAddr (getCore s core.val) ptr m 1).1.toNat (let k := getCore s core.val; leI 1 (max (0) (min (255) ((k.dr reg).toInt)))) (getCore s core.val) s = some (j, t)) ∧
    (∃ (s : State) (core : Fin 33) (reg : BitVec 5) (ptr : BitVec 4) (m : AddrMode) (j : Core) (t : State), cragRuns s core.val = true ∧ inCode s core.val (getCore s core.val) = true ∧ cragWrite core.val (cragAddr (getCore s core.val) ptr m 2).1.toNat (let k := getCore s core.val; leI 2 (max (-(2 ^ 15)) (min (2 ^ 15 - 1) ((k.dr reg).toInt)))) (getCore s core.val) s = some (j, t)) ∧
    (∃ (s : State) (core : Fin 33) (reg : BitVec 5) (ptr : BitVec 4) (m : AddrMode) (j : Core) (t : State), cragRuns s core.val = true ∧ inCode s core.val (getCore s core.val) = true ∧ cragWrite core.val (cragAddr (getCore s core.val) ptr m 2).1.toNat (let k := getCore s core.val; leI 2 (max (0) (min (65535) ((k.dr reg).toInt)))) (getCore s core.val) s = some (j, t)) ∧
    (∃ (s : State) (core : Fin 33) (reg : BitVec 5) (ptr : BitVec 4) (m : AddrMode) (j : Core) (t : State), cragRuns s core.val = true ∧ inCode s core.val (getCore s core.val) = true ∧ cragWrite core.val (cragAddr (getCore s core.val) ptr m 4).1.toNat (let k := getCore s core.val; leI 4 ((k.dr reg).toInt)) (getCore s core.val) s = some (j, t)) ∧
    (∃ (s : State) (core : Fin 33) (reg : BitVec 4) (ptr : BitVec 4) (m : AddrMode) (j : Core) (t : State), cragRuns s core.val = true ∧ inCode s core.val (getCore s core.val) = true ∧ cragWrite core.val (cragAddr (getCore s core.val) ptr m 4).1.toNat (let k := getCore s core.val; leI 4 ((k.pr reg).toInt)) (getCore s core.val) s = some (j, t)) ∧
    (∃ (s : State) (core : Fin 33) (reg : BitVec 3) (ptr : BitVec 4) (m : AddrMode) (j : Core) (t : State), cragRuns s core.val = true ∧ inCode s core.val (getCore s core.val) = true ∧ cragWrite core.val (cragAddr (getCore s core.val) ptr m 8).1.toNat (let k := getCore s core.val; leI 8 (max (-(2 ^ 63)) (min (2 ^ 63 - 1) (k.ac reg)))) (getCore s core.val) s = some (j, t)) ∧
    (∃ (s : State) (core : Fin 33) (reg : BitVec 5) (ptr : BitVec 4) (m : AddrMode) (j : Core) (t : State), cragRuns s core.val = true ∧ inCode s core.val (getCore s core.val) = true ∧ cragWrite core.val (cragAddr (getCore s core.val) ptr m 2).1.toNat (let k := getCore s core.val; leI 2 (max (-(2 ^ 15)) (min (2 ^ 15 - 1) (roundBy k.rnd (k.dr reg).toInt 16)))) (getCore s core.val) s = some (j, t)) ∧
    (∃ (s : State) (core : Fin 33) (reg : BitVec 5) (ptr : BitVec 4) (m : AddrMode), cragRuns s core.val = true ∧ inCode s core.val (getCore s core.val) = true ∧ core.val ≠ 32 ∧ (cragAddr (getCore s core.val) ptr m 4).1.toNat % 4 = 0 ∧ (cragAddr (getCore s core.val) ptr m 4).1.toNat < 0x1C000) ∧
    (∃ (s : State) (core : Fin 33) (reg : BitVec 5) (ptr : BitVec 4) (m : AddrMode), cragRuns s core.val = true ∧ inCode s core.val (getCore s core.val) = true ∧ cragWrite core.val (cragAddr (getCore s core.val) ptr m 4).1.toNat (leI 4 ((getCore s core.val).dr reg).toInt) (getCore s core.val) s = none) :=
  ⟨⟨crag1 [5, 0xFFFFFFF0, 0x7FFFFFFF, 0x80000000, 0x8000F123, 0x00018000] [64, 96, 0x10000000, 128], 1, 7, 0, .post 1, [1], by decide +kernel⟩,
   ⟨crag1 [5, 0xFFFFFFF0, 0x7FFFFFFF, 0x80000000, 0x8000F123, 0x00018000] [64, 96, 0x10000000, 128], 1, 7, 0, .offset 14, [255], by decide +kernel⟩,
   ⟨crag1 [5, 0xFFFFFFF0, 0x7FFFFFFF, 0x80000000, 0x8000F123, 0x00018000] [64, 96, 0x10000000, 128], 1, 7, 0, .offset 7, [255, 255], by decide +kernel⟩,
   ⟨crag1 [5, 0xFFFFFFF0, 0x7FFFFFFF, 0x80000000, 0x8000F123, 0x00018000] [64, 96, 0x10000000, 128], 1, 7, 0, .offset 7, [255, 255], by decide +kernel⟩,
   ⟨crag1 [5, 0xFFFFFFF0, 0x7FFFFFFF, 0x80000000, 0x8000F123, 0x00018000] [64, 96, 0x10000000, 128], 1, 7, 0, .index 0, [1, 0, 2, 0], by decide +kernel⟩,
   ⟨crag1 [5, 0xFFFFFFF0, 0x7FFFFFFF, 0x80000000, 0x8000F123, 0x00018000] [64, 96, 0x10000000, 128], 1, 0, 0, .post 1, [1, 0, 2, 0], by decide +kernel⟩,
   ⟨crag1 [5, 0xFFFFFFF0, 0x7FFFFFFF, 0x80000000, 0x8000F123, 0x00018000] [64, 96, 0x10000000, 128], 1, 3, 0, .offset 1, [5, 0, 6, 0, 7, 0, 255, 255], by decide +kernel⟩,
   ⟨crag1 [5, 0xFFFFFFF0, 0x7FFFFFFF, 0x80000000, 0x8000F123, 0x00018000] [64, 96, 0x10000000, 130], 1, 7, 3, .index 0, by decide +kernel⟩,
   ⟨crag1 [5, 0xFFFFFFF0, 0x7FFFFFFF, 0x80000000, 0x8000F123, 0x00018000] [64, 96, 0x10000000, 128], 1, 1, 0, .post 1, wrote 64 [0] (crag1 [5, 0xFFFFFFF0, 0x7FFFFFFF, 0x80000000, 0x8000F123, 0x00018000] [64, 96, 0x10000000, 128]), crag1 [5, 0xFFFFFFF0, 0x7FFFFFFF, 0x80000000, 0x8000F123, 0x00018000] [64, 96, 0x10000000, 128], by decide +kernel⟩,
   ⟨crag1 [5, 0xFFFFFFF0, 0x7FFFFFFF, 0x80000000, 0x8000F123, 0x00018000] [64, 96, 0x10000000, 128], 1, 2, 0, .offset 1, wrote 66 [255, 127] (crag1 [5, 0xFFFFFFF0, 0x7FFFFFFF, 0x80000000, 0x8000F123, 0x00018000] [64, 96, 0x10000000, 128]), crag1 [5, 0xFFFFFFF0, 0x7FFFFFFF, 0x80000000, 0x8000F123, 0x00018000] [64, 96, 0x10000000, 128], by decide +kernel⟩,
   ⟨crag1 [5, 0xFFFFFFF0, 0x7FFFFFFF, 0x80000000, 0x8000F123, 0x00018000] [64, 96, 0x10000000, 128], 1, 2, 0, .offset 1, wrote 66 [255, 255] (crag1 [5, 0xFFFFFFF0, 0x7FFFFFFF, 0x80000000, 0x8000F123, 0x00018000] [64, 96, 0x10000000, 128]), crag1 [5, 0xFFFFFFF0, 0x7FFFFFFF, 0x80000000, 0x8000F123, 0x00018000] [64, 96, 0x10000000, 128], by decide +kernel⟩,
   ⟨crag1 [5, 0xFFFFFFF0, 0x7FFFFFFF, 0x80000000, 0x8000F123, 0x00018000] [64, 96, 0x10000000, 128], 1, 2, 0, .offset 1, wrote 68 [255, 255, 255, 127] (crag1 [5, 0xFFFFFFF0, 0x7FFFFFFF, 0x80000000, 0x8000F123, 0x00018000] [64, 96, 0x10000000, 128]), crag1 [5, 0xFFFFFFF0, 0x7FFFFFFF, 0x80000000, 0x8000F123, 0x00018000] [64, 96, 0x10000000, 128], by decide +kernel⟩,
   ⟨crag1 [5, 0xFFFFFFF0, 0x7FFFFFFF, 0x80000000, 0x8000F123, 0x00018000] [64, 96, 0x10000000, 128], 1, 1, 0, .offset 1, wrote 68 [96, 0, 0, 0] (crag1 [5, 0xFFFFFFF0, 0x7FFFFFFF, 0x80000000, 0x8000F123, 0x00018000] [64, 96, 0x10000000, 128]), crag1 [5, 0xFFFFFFF0, 0x7FFFFFFF, 0x80000000, 0x8000F123, 0x00018000] [64, 96, 0x10000000, 128], by decide +kernel⟩,
   ⟨crag1 [5, 0xFFFFFFF0, 0x7FFFFFFF, 0x80000000, 0x8000F123, 0x00018000] [64, 96, 0x10000000, 128], 1, 3, 0, .offset 1, wrote 72 [255, 255, 255, 255, 255, 255, 255, 127] (crag1 [5, 0xFFFFFFF0, 0x7FFFFFFF, 0x80000000, 0x8000F123, 0x00018000] [64, 96, 0x10000000, 128]), crag1 [5, 0xFFFFFFF0, 0x7FFFFFFF, 0x80000000, 0x8000F123, 0x00018000] [64, 96, 0x10000000, 128], by decide +kernel⟩,
   ⟨crag1 [5, 0xFFFFFFF0, 0x7FFFFFFF, 0x80000000, 0x8000F123, 0x00018000] [64, 96, 0x10000000, 128], 1, 4, 0, .offset 1, wrote 66 [1, 128] (crag1 [5, 0xFFFFFFF0, 0x7FFFFFFF, 0x80000000, 0x8000F123, 0x00018000] [64, 96, 0x10000000, 128]), crag1 [5, 0xFFFFFFF0, 0x7FFFFFFF, 0x80000000, 0x8000F123, 0x00018000] [64, 96, 0x10000000, 128], by decide +kernel⟩,
   ⟨crag1 [5, 0xFFFFFFF0, 0x7FFFFFFF, 0x80000000, 0x8000F123, 0x00018000] [64, 96, 0x10000000, 128], 1, 2, 0, .offset 1, by decide +kernel⟩,
   ⟨crag1 [5, 0xFFFFFFF0, 0x7FFFFFFF, 0x80000000, 0x8000F123, 0x00018000] [64, 96, 0x10000000, 130], 1, 2, 3, .offset 1, by decide +kernel⟩⟩

/-- The conditions of `CragControlFlowResults` can be met. -/
theorem witness_CragControlFlowResults :
    (∃ (s : State) (core : Fin 33) (cond : BitVec 4) (off : BitVec 24), cragRuns s core.val = true ∧ inCode s core.val (getCore s core.val) = true ∧ atLoopEnd (getCore s core.val) = false ∧ condHolds (getCore s core.val) cond = some true) ∧
    (∃ (s : State) (core : Fin 33) (cond : BitVec 4) (off : BitVec 24), cragRuns s core.val = true ∧ inCode s core.val (getCore s core.val) = true ∧ atLoopEnd (getCore s core.val) = false ∧ condHolds (getCore s core.val) cond = some false) ∧
    (∃ (s : State) (core : Fin 33) (cond : BitVec 4) (off : BitVec 24), cragRuns s core.val = true ∧ inCode s core.val (getCore s core.val) = true ∧ atLoopEnd (getCore s core.val) = true) ∧
    (∃ (s : State) (core : Fin 33) (cond : BitVec 4) (off : BitVec 24), cragRuns s core.val = false) ∧
    (∃ (s : State) (core : Fin 33) (off : BitVec 12) (mask : W16) (j : Core) (t : State), cragRuns s core.val = true ∧ inCode s core.val (getCore s core.val) = true ∧ atLoopEnd (getCore s core.val) = false ∧ ((getCore s core.val).pr 15).toNat % 4 = 0 ∧ (let k := getCore s core.val; let regs := maskRegs mask; cragWords core.val (k.pr 15 - BitVec.ofNat 32 (8 + 4 * regs.length)).toNat ([k.lk, mask.setWidth 32] ++ regs.map fun i => k.d.getD (16 + i) 0) k s = some (j, t))) ∧
    (∃ (s : State) (core : Fin 33) (ptr : BitVec 4) (mask : W16) (j : Core) (t : State), cragRuns s core.val = true ∧ inCode s core.val (getCore s core.val) = true ∧ atLoopEnd (getCore s core.val) = false ∧ ((getCore s core.val).pr 15).toNat % 4 = 0 ∧ (let k := getCore s core.val; let regs := maskRegs mask; cragWords core.val (k.pr 15 - BitVec.ofNat 32 (8 + 4 * regs.length)).toNat ([k.lk, mask.setWidth 32] ++ regs.map fun i => k.d.getD (16 + i) 0) k s = some (j, t))) ∧
    (∃ (s : State) (core : Fin 33) (mask : W16), cragRuns s core.val = true ∧ inCode s core.val (getCore s core.val) = true ∧ atLoopEnd (getCore s core.val) = false ∧ core.val ≠ 32 ∧ (getCore s core.val).lk = 0xFFFFFFF0 ∧ mask = 0) ∧
    (∃ (s : State) (core : Fin 33) (mask : W16) (q : W32), cragRuns s core.val = true ∧ inCode s core.val (getCore s core.val) = true ∧ atLoopEnd (getCore s core.val) = false ∧ (getCore s core.val).lk ≠ 0xFFFFFFF0 ∧ mask = 0 ∧ readWords s core.val ((getCore s core.val).pr 15).toNat (getCore s core.val) 2 = some [q, 0]) ∧
    (∃ (s : State) (core : Fin 33) (ptr : BitVec 4), cragRuns s core.val = true ∧ inCode s core.val (getCore s core.val) = true ∧ atLoopEnd (getCore s core.val) = false) ∧
    (∃ (s : State) (core : Fin 33) (count : LoopCount) (last : W16) (n : BitVec 11), cragRuns s core.val = true ∧ inCode s core.val (getCore s core.val) = true ∧ atLoopEnd (getCore s core.val) = false ∧ last ≠ 0 ∧ (getCore s core.val).depth = 0 ∧ count = .imm n ∧ n ≠ 0) ∧
    (∃ (s : State) (core : Fin 33) (count : LoopCount) (last : W16) (r : BitVec 5), cragRuns s core.val = true ∧ inCode s core.val (getCore s core.val) = true ∧ atLoopEnd (getCore s core.val) = false ∧ last ≠ 0 ∧ (getCore s core.val).depth = 0 ∧ count = .reg r ∧ (getCore s core.val).dr r = 0) ∧
    (∃ (s : State) (core : Fin 33) (count : LoopCount) (last : W16), cragRuns s core.val = true ∧ inCode s core.val (getCore s core.val) = true ∧ atLoopEnd (getCore s core.val) = false ∧ (getCore s core.val).depth = 3) ∧
    (∃ (s : State) (core : Fin 33) (reg : BitVec 5) (spec : BitVec 5) (v : W32), cragRuns s core.val = true ∧ inCode s core.val (getCore s core.val) = true ∧ special (getCore s core.val) spec.toNat = some v) ∧
    (∃ (s : State) (core : Fin 33) (reg : BitVec 5) (spec : BitVec 5), cragRuns s core.val = true ∧ inCode s core.val (getCore s core.val) = true ∧ 10 < spec.toNat ∧ (getCore s core.val).lc.length = 3) ∧
    (∃ (s : State) (core : Fin 33) (reg : BitVec 5) (spec : BitVec 5), cragRuns s core.val = true ∧ inCode s core.val (getCore s core.val) = true ∧ spec = 1) ∧
    (∃ (s : State) (core : Fin 33) (reg : BitVec 5) (spec : BitVec 5), cragRuns s core.val = true ∧ inCode s core.val (getCore s core.val) = true ∧ spec = 0) ∧
    (∃ (s : State) (core : Fin 33), cragRuns s core.val = true ∧ inCode s core.val (getCore s core.val) = true) ∧
    (∃ (s : State) (core : Fin 33) (rnd : BitVec 2), cragRuns s core.val = true ∧ inCode s core.val (getCore s core.val) = true) ∧
    (∃ (s : State) (core : Fin 33) (reg : BitVec 5) (csr : W16), core.val = 32 ∧ cragRuns s 32 = true ∧ (getCore s 32).priv = true) ∧
    (∃ (s : State) (core : Fin 33) (reg : BitVec 5) (csr : W16), core.val = 32 ∧ cragRuns s 32 = true ∧ (getCore s 32).priv = true) ∧
    (∃ (s : State) (core : Fin 33), core.val = 32 ∧ cragRuns s 32 = true ∧ (getCore s 32).priv = true) ∧
    (∃ (s : State) (core : Fin 33), core.val = 32 ∧ cragRuns s 32 = true ∧ (getCore s 32).priv = true) ∧
    (∃ (s : State) (core : Fin 33), core.val = 32 ∧ cragRuns s 32 = true ∧ (getCore s 32).priv = true) ∧
    (∃ (s : State) (core : Fin 33) (reg : BitVec 5) (csr : W16), cragRuns s core.val = true ∧ inCode s core.val (getCore s core.val) = true ∧ core.val ≠ 32) ∧
    (∃ (s : State) (core : Fin 33) (reg : BitVec 5) (csr : W16), cragRuns s core.val = true ∧ inCode s core.val (getCore s core.val) = true ∧ core.val ≠ 32) ∧
    (∃ (s : State) (core : Fin 33), cragRuns s core.val = true ∧ inCode s core.val (getCore s core.val) = true ∧ core.val ≠ 32) ∧
    (∃ (s : State) (core : Fin 33), cragRuns s core.val = true ∧ inCode s core.val (getCore s core.val) = true ∧ core.val ≠ 32) ∧
    (∃ (s : State) (core : Fin 33), cragRuns s core.val = true ∧ inCode s core.val (getCore s core.val) = true ∧ core.val ≠ 32) ∧
    (∃ (s : State) (core : Fin 33), core.val = 32 ∧ cragRuns s 32 = true ∧ (getCore s 32).priv = false) ∧
    (∃ (s : State) (core : Fin 33) (word : W32), cragRuns s core.val = true ∧ inCode s core.val (getCore s core.val) = true ∧ cragDecode core word.toNat = none) ∧
    (∃ (s : State) (core : Fin 33) (word : W32), core.val = 32 ∧ cragRuns s 32 = true ∧ cragDecode core word.toNat = none) :=
  ⟨⟨crag1 [5, 0xFFFFFFF0, 0x7FFFFFFF, 0x80000000, 0x8000F123, 0x00018000] [64, 96, 0x10000000, 128], 1, 2, 0xFFFFFF, by decide +kernel⟩,
   ⟨crag1 [5, 0xFFFFFFF0, 0x7FFFFFFF, 0x80000000, 0x8000F123, 0x00018000] [64, 96, 0x10000000, 128], 1, 1, 0xFFFFFF, by decide +kernel⟩,
   ⟨loop1, 1, 2, 0xFFFFFF, by decide +kernel⟩,
   ⟨live 5, 1, 2, 0xFFFFFF, by decide +kernel⟩,
   ⟨crag1 [5, 0xFFFFFFF0, 0x7FFFFFFF, 0x80000000, 0x8000F123, 0x00018000] [64, 96, 0x10000000, 128], 1, 3, 5, wroteWords 0x1BFF0 [0xFFFFFFF0, 5, 0, 0] (crag1 [5, 0xFFFFFFF0, 0x7FFFFFFF, 0x80000000, 0x8000F123, 0x00018000] [64, 96, 0x10000000, 128]), crag1 [5, 0xFFFFFFF0, 0x7FFFFFFF, 0x80000000, 0x8000F123, 0x00018000] [64, 96, 0x10000000, 128], by decide +kernel⟩,
   ⟨crag1 [5, 0xFFFFFFF0, 0x7FFFFFFF, 0x80000000, 0x8000F123, 0x00018000] [64, 96, 0x10000000, 128], 1, 1, 5, wroteWords 0x1BFF0 [0xFFFFFFF0, 5, 0, 0] (crag1 [5, 0xFFFFFFF0, 0x7FFFFFFF, 0x80000000, 0x8000F123, 0x00018000] [64, 96, 0x10000000, 128]), crag1 [5, 0xFFFFFFF0, 0x7FFFFFFF, 0x80000000, 0x8000F123, 0x00018000] [64, 96, 0x10000000, 128], by decide +kernel⟩,
   ⟨crag1 [5, 0xFFFFFFF0, 0x7FFFFFFF, 0x80000000, 0x8000F123, 0x00018000] [64, 96, 0x10000000, 128], 1, 0, by decide +kernel⟩,
   ⟨ret1, 1, 0, 0xFFFFFFF0, by decide +kernel⟩,
   ⟨crag1 [5, 0xFFFFFFF0, 0x7FFFFFFF, 0x80000000, 0x8000F123, 0x00018000] [64, 96, 0x10000000, 128], 1, 1, by decide +kernel⟩,
   ⟨crag1 [5, 0xFFFFFFF0, 0x7FFFFFFF, 0x80000000, 0x8000F123, 0x00018000] [64, 96, 0x10000000, 128], 1, .imm 3, 2, 3, by decide +kernel⟩,
   ⟨crag1 [5, 0xFFFFFFF0, 0x7FFFFFFF, 0x80000000, 0x8000F123, 0x00018000] [64, 96, 0x10000000, 128], 1, .reg 20, 2, 20, by decide +kernel⟩,
   ⟨deep1, 1, .imm 3, 2, by decide +kernel⟩,
   ⟨crag1 [5, 0xFFFFFFF0, 0x7FFFFFFF, 0x80000000, 0x8000F123, 0x00018000] [64, 96, 0x10000000, 128], 1, 7, 1, 0xFFFFFFF0, by decide +kernel⟩,
   ⟨crag1 [5, 0xFFFFFFF0, 0x7FFFFFFF, 0x80000000, 0x8000F123, 0x00018000] [64, 96, 0x10000000, 128], 1, 7, 11, by decide +kernel⟩,
   ⟨crag1 [5, 0xFFFFFFF0, 0x7FFFFFFF, 0x80000000, 0x8000F123, 0x00018000] [64, 96, 0x10000000, 128], 1, 2, 1, by decide +kernel⟩,
   ⟨crag1 [5, 0xFFFFFFF0, 0x7FFFFFFF, 0x80000000, 0x8000F123, 0x00018000] [64, 96, 0x10000000, 128], 1, 4, 0, by decide +kernel⟩,
   ⟨crag1 [5, 0xFFFFFFF0, 0x7FFFFFFF, 0x80000000, 0x8000F123, 0x00018000] [64, 96, 0x10000000, 128], 1, by decide +kernel⟩,
   ⟨crag1 [5, 0xFFFFFFF0, 0x7FFFFFFF, 0x80000000, 0x8000F123, 0x00018000] [64, 96, 0x10000000, 128], 1, 1, by decide +kernel⟩,
   ⟨summit1, 32, 7, 5, by decide +kernel⟩,
   ⟨summit1, 32, 7, 5, by decide +kernel⟩,
   ⟨summit1, 32, by decide +kernel⟩,
   ⟨summit1, 32, by decide +kernel⟩,
   ⟨summit1, 32, by decide +kernel⟩,
   ⟨crag1 [5, 0xFFFFFFF0, 0x7FFFFFFF, 0x80000000, 0x8000F123, 0x00018000] [64, 96, 0x10000000, 128], 1, 7, 5, by decide +kernel⟩,
   ⟨crag1 [5, 0xFFFFFFF0, 0x7FFFFFFF, 0x80000000, 0x8000F123, 0x00018000] [64, 96, 0x10000000, 128], 1, 7, 5, by decide +kernel⟩,
   ⟨crag1 [5, 0xFFFFFFF0, 0x7FFFFFFF, 0x80000000, 0x8000F123, 0x00018000] [64, 96, 0x10000000, 128], 1, by decide +kernel⟩,
   ⟨crag1 [5, 0xFFFFFFF0, 0x7FFFFFFF, 0x80000000, 0x8000F123, 0x00018000] [64, 96, 0x10000000, 128], 1, by decide +kernel⟩,
   ⟨crag1 [5, 0xFFFFFFF0, 0x7FFFFFFF, 0x80000000, 0x8000F123, 0x00018000] [64, 96, 0x10000000, 128], 1, by decide +kernel⟩,
   ⟨user1, 32, by decide +kernel⟩,
   ⟨crag1 [5, 0xFFFFFFF0, 0x7FFFFFFF, 0x80000000, 0x8000F123, 0x00018000] [64, 96, 0x10000000, 128], 1, 0xC0000000, by decide +kernel⟩,
   ⟨user1, 32, 0xC0000000, by decide +kernel⟩⟩

/-- The conditions of `StepRunsFrontCommand` can be met. -/
theorem witness_StepRunsFrontCommand :
    (∃ (s : State) (c : Instr) (rest : List Instr), s.pending = c :: rest) :=
  ⟨{ live 5 with pending := [.heartbeatTick, .powerOff] }, .heartbeatTick, [.powerOff], rfl⟩

/-- The conditions of `IdleStepIsOneTick` can be met. -/
theorem witness_IdleStepIsOneTick :
    (∃ s : State, s.pending = []) :=
  ⟨live 5, rfl⟩

/-- The conditions of `EveryStepKeepsInvariant` can be met. -/
theorem witness_EveryStepKeepsInvariant :
    (∃ s t : State, Inv s ∧ step s = .next t) :=
  ⟨{ live 5 with pending := [.heartbeatTick] }, _, by constructor <;> decide +kernel, rfl⟩

/-- The conditions of `CommandsLeaveTheQueue` can be met. -/
theorem witness_CommandsLeaveTheQueue :
    (∃ (c : Instr) (s t : State), exec c s = .next t) :=
  ⟨.heartbeatTick, live 5, _, rfl⟩

/-- The conditions of `LockFuseStaysBlown` can be met. -/
theorem witness_LockFuseStaysBlown :
    (∃ s t : State, s.cipher.locked = true ∧ step s = .next t) :=
  ⟨{ live 5 with pending := [.powerOff], cipher := { locked := true } }, _, rfl, rfl⟩

/-- The conditions of `ResponsePosted` can be met. -/
theorem witness_ResponsePosted :
    ((∃ a : Ans, a.later = true) ∧ (∃ (c : Cmd) (a : Ans) (s : State), a.later = false ∧ c.path ≠ .replay ∧ c.path ≠ .ring ∧ c.mb < s.mbx.pages.length ∧ c.flags.getLsbD 0 = false ∧ (getPage s c.mb).irqEn = true ∧ (Tab.getD s.host.msixTable (4 * (getPage s c.mb).vec.toNat + 3) 0).getLsbD 0 = false) ∧ ∃ (c : Cmd) (a : Ans) (s : State), a.later = false ∧ c.path ≠ .replay ∧ c.path ≠ .ring ∧ c.mb < s.mbx.pages.length ∧ c.flags.getLsbD 0 = false ∧ (getPage s c.mb).irqEn = true ∧ (Tab.getD s.host.msixTable (4 * (getPage s c.mb).vec.toNat + 3) 0).getLsbD 0 = true) :=
  ⟨⟨.wait, by decide⟩, ⟨{}, .ok [1, 2], { live 5 with mbx := { pages := [{ irqEn := true }, {}, {}, {}] } }, by decide +kernel⟩, {}, .ok [1, 2], { live 5 with mbx := { pages := [{ irqEn := true }, {}, {}, {}] }, host := { link := true, msixTable := [(3, 1)] } }, by decide +kernel⟩

/-- The conditions of `UndefinedOpcodeAnswered` can be met. -/
theorem witness_UndefinedOpcodeAnswered :
    (∃ (s : State) (op : W16) (d : Doorbell) (p : List Byte), specOf op.toNat = none ∧ Ready { op := op.toNat, diag := true, body := fun _ s => (eArg, s) } d p s) :=
  ⟨live 4, 0x01FF, bell 0, [], ⟨rfl, ready_of_readyOk (by decide +kernel)⟩⟩

/-- The conditions of `CommandsTurnedAway` can be met. -/
theorem witness_CommandsTurnedAway :
    ((∃ (d : Doorbell) (s : State), mayWrite d.mb.val d.path s = false) ∧ (∃ (s : State), mayWrite 0 .bar s = true ∧ s.flt.summitRun = true ∧ (getPage s 0).busy = true) ∧ (∃ (d : Doorbell) (s : State), mayWrite d.mb.val d.path s = true ∧ s.flt.summitRun = true ∧ (getPage s d.mb.val).busy = false ∧ (getPage s d.mb.val).recorded = none ∧ fld (area specProfileSelect d [] s) 4 2 ≠ d.value.toNat) ∧ (∃ (d : Doorbell) (p : List Byte) (s : State), fld (area specProfileSelect d p s) 4 2 = d.value.toNat ∧ hdrOk (area specProfileSelect d p s) = true ∧ specProfileSelect.rsv (cmdOf specProfileSelect d p s) = false) ∧ (∃ (d : Doorbell) (p : List Byte) (s : State), hdrOk (area specProfileSelect d p s) = true ∧ specProfileSelect.rsv (cmdOf specProfileSelect d p s) = true ∧ specProfileSelect.diag = false ∧ shutOut (cmdOf specProfileSelect d p s) (copied specProfileSelect d p s) = true) ∧ (∃ (d : Doorbell) (p : List Byte) (s : State), hdrOk (area specBandConfig d p s) = true ∧ specBandConfig.rsv (cmdOf specBandConfig d p s) = true ∧ shutOut (cmdOf specBandConfig d p s) (copied specBandConfig d p s) = false ∧ specBandConfig.modes (cmdOf specBandConfig d p s) (copied specBandConfig d p s) = false)) :=
  ⟨⟨bell 0, live 0 |>.onHost fun _ => {}, by decide⟩, ⟨{ live 5 with mbx := { pages := [{ busy := true }, {}, {}, {}] } }, by decide⟩, ⟨{ bell 0 with value := 8 }, live 5, by decide +kernel⟩, ⟨bell 4, [0, 1, 0, 0], live 5, by decide +kernel⟩, ⟨bell 4, [0, 0, 0, 0], { live 2 with boot := { phase := .replay } }, by decide +kernel⟩, bell 0, [], live 7, by decide +kernel⟩

/-- The conditions of `HoldReadsResetPage` can be met. -/
theorem witness_HoldReadsResetPage :
    (∃ s : State, s.pwr.vddAon = true ∧ s.pwr.pwrOk = true ∧ s.outs.z = false ∧ s.pwr.resetN = true) :=
  ⟨{ live 5 with pwr := { resetN := true } }, by decide⟩

/-- The conditions of `ResetNFallEntersHold` can be met. -/
theorem witness_ResetNFallEntersHold :
    (∃ (s : State), s.pwr.vddAon = true ∧ s.pwr.pwrOk = true ∧ s.pwr.resetN = true) :=
  ⟨{ live 5 with pwr := { resetN := true } }, by decide +kernel⟩

/-- The conditions of `ProfileSelectionLife` can be met. -/
theorem witness_ProfileSelectionLife :
    ((∃ (s : State) (d : Doorbell) (p : List Byte), Ready specProfileSelect d p s ∧ (cmdOf specProfileSelect d p s).u 16 1 ≤ 3) ∧ (∃ s t : State, exec .wdtStage1Expiry s = .next t) ∧ ∃ s : State, s.pwr.vddAon = true ∧ s.pwr.pwrOk = true ∧ s.pwr.resetN = true) :=
  ⟨⟨live 4, bell 4, [3, 0, 0, 0], ready_of_readyOk (by decide +kernel), by decide +kernel⟩, ⟨live 5, _, rfl⟩, { live 5 with pwr := { resetN := true } }, by decide⟩

/-- The conditions of `ProfileReadReturnsTheImage` can be met. -/
theorem witness_ProfileReadReturnsTheImage :
    ((∃ (s : State) (d : Doorbell) (p : List Byte), Ready specProfileRead d p s ∧ (let c := cmdOf specProfileRead d p s; c.u 16 1 ≤ 3 ∧ c.u 18 2 % 4 = 0 ∧ 4 ≤ c.u 18 2 ∧ c.u 18 2 ≤ 480 ∧ c.u 20 4 % 4 = 0 ∧ c.u 20 4 + c.u 18 2 = 65536)) ∧ ∃ (s : State) (d : Doorbell) (p : List Byte), Ready specProfileRead d p s ∧ 65536 < (cmdOf specProfileRead d p s).u 20 4 + (cmdOf specProfileRead d p s).u 18 2) :=
  ⟨⟨live 4, bell 8, fields 8 [(16, 1, 3), (18, 2, 480), (20, 4, 65056)], ready_of_readyOk (by decide +kernel), by decide +kernel⟩, live 7, bell 8, fields 8 [(16, 1, 3), (18, 2, 480), (20, 4, 65060)], ready_of_readyOk (by decide +kernel), by decide +kernel⟩

/-- The conditions of `DiscardedBitsAreRounded` can be met. -/
theorem witness_DiscardedBitsAreRounded :
    (∃ (s : State) (core : Fin 33) (dst srcA : BitVec 5) (b : Src2), cragRuns s core.val = true ∧ inCode s core.val (getCore s core.val) = true) ∧
    (∃ (s : State) (core : Fin 33) (dst : BitVec 5) (acc : BitVec 3) (sh : BitVec 6), cragRuns s core.val = true ∧ inCode s core.val (getCore s core.val) = true) :=
  ⟨⟨crag1 [5, 0xFFFFFFF0, 0x7FFFFFFF, 0x80000000, 0x8000F123, 0x00018000] [64, 96, 0x10000000, 128], 1, 7, 3, .reg 3, by decide +kernel⟩,
   ⟨crag1 [5, 0xFFFFFFF0, 0x7FFFFFFF, 0x80000000, 0x8000F123, 0x00018000] [64, 96, 0x10000000, 128], 1, 7, 3, 5, by decide +kernel⟩⟩

/-- The conditions of `StoresTouchOnlyTheirBytes` can be met. -/
theorem witness_StoresTouchOnlyTheirBytes :
    (∃ (s : State) (core : Fin 33), cragRuns s core.val = true ∧ inCode s core.val (getCore s core.val) = true ∧ (cragWrite core.val (cragAddr (getCore s core.val) 3 (.offset 0) 4).1.toNat (List.replicate 4 0) (getCore s core.val) s).isSome = true) :=
  ⟨crag1 [] [0, 0, 0, 64], 1, by decide +kernel⟩

/-- The conditions of `LoopEndTest` can be met. -/
theorem witness_LoopEndTest :
    ((∃ k : Core, k.depth = 0) ∧ (∃ (k : Core) (i : Nat), k.depth = i + 1 ∧ k.le.getD i 0 = k.pc ∧ 1 < (k.lc.getD i 0).toNat) ∧ ∃ (k : Core) (i : Nat), k.depth = i + 1 ∧ k.le.getD i 0 = k.pc ∧ (k.lc.getD i 0).toNat ≤ 1) :=
  ⟨⟨{}, by decide⟩, ⟨({ le := [0x80000000, 0, 0], lc := [2, 0, 0] } : Core).setDepth 1, 0, by decide⟩, ({ le := [0x80000000, 0, 0] } : Core).setDepth 1, 0, by decide⟩

/-- The conditions of `EventsAreNumbered` can be met. -/
theorem witness_EventsAreNumbered :
    ((∃ s : State, s.flt.summitRun = true) ∧ ∃ s : State, s.flt.summitRun = false) :=
  ⟨⟨live 5, rfl⟩, State.reset, rfl⟩

/-! Ill-formed terms, each refused by its check. -/

theorem test_rail_refused : WellFormed (.brownout 3) = false := by decide
theorem test_parameters_refused : WellFormed (.identify (bell 0) (List.replicate 497 0)) = false := by decide +kernel
theorem test_undefined_opcode_refused : WellFormed (.undefinedOpcode 0xFFFF (bell 0) (List.replicate 497 0)) = false := by decide +kernel
theorem test_recorded_refused : WellFormed (.commandRecorded 0 (bell 0) (List.replicate 497 0)) = false := by decide +kernel
theorem test_overrun_refused : WellFormed (.doorbellOverrun 0 (bell 0) (List.replicate 497 0)) = false := by decide +kernel
theorem test_unaligned_register_refused : WellFormed (.registerWrite false 2 0) = false := by decide
theorem test_register_range_refused : WellFormed (.registerWrite false 0x10000 0) = false := by decide
theorem test_descriptor_refused : WellFormed (.hostTxPacket 0 [{ bytes := [] }] [] true) = false := by decide
theorem test_up_step_refused : WellFormed (.domainWakeTimeout 0 3) = false := by decide
theorem test_tid_refused : WellFormed (.reorderTimeout 0 8) = false := by decide
theorem test_station_refused : WellFormed (.reorderTimeout 2048 0) = false := by decide
theorem test_rffe_bus_refused : WellFormed (.rffeTransactionDone .m 3 true []) = false := by decide
theorem test_sensor_refused : WellFormed (.sensorConversion 36 0) = false := by decide
theorem test_reading_refused : WellFormed (.thermalShutdown 3) = false := by decide
theorem test_gate_entry_refused : WellFormed (.gateEntryInstant 0 64) = false := by decide
theorem test_bucket_refused : WellFormed (.agingVisit 65536) = false := by decide
theorem test_lane_refused : WellFormed (.dqsTrackDue 0 0 0 40 0) = false := by decide
theorem test_sram_class_refused : WellFormed (.sramUncorrectable 6 0 .none) = false := by decide
theorem test_well_formed : WellFormed (.thermalShutdown 2) = true := by decide

/-! Small checks; the expected values are the spec's. -/

/-- R620's table: 2.5 and -2.5 LSB rounded in each way (X = 5 x 2^46 over 2^47). -/
theorem test_rounding_table :
    (roundBy 0 (5 * 2 ^ 46) 47, roundBy 0 (-5 * 2 ^ 46) 47, roundBy 1 (5 * 2 ^ 46) 47, roundBy 1 (-5 * 2 ^ 46) 47,
      roundBy 2 (5 * 2 ^ 46) 47, roundBy 2 (-5 * 2 ^ 46) 47) = (2, -3, 3, -2, 2, -2) := by decide

/-- R628's example: CALL with MASK 0x0003 and sp 0x0001_C000 leaves sp at 0x0001_BFF0 and the mask at 0x0001_BFF4. -/
theorem test_call_frame : (match execCall 1 2 0x0003 (crag1 [] []) with
    | .next u => decide ((getCore u 1).pr 15 = 0x1BFF0 ∧ memRead (getCore u 1).mem 0x1BFF4 4 = [3, 0, 0, 0] ∧ (getCore u 1).lk = 0x8000000C)
    | _ => false) = true := by decide +kernel

/-- R622: -1 x -1 in Q1.31 gives 0x7FFF_FFFF. -/
theorem test_mulq_minus_one : (match execMulq 1 7 0 (.reg 1) (crag1 [0x80000000, 0x80000000] []) with
    | .next u => decide ((getCore u 1).dr 7 = 0x7FFFFFFF)
    | _ => false) = true := by decide +kernel

/-- R123: in HOLD the page reads MODE 1, TARGET_MODE 1 and FAULT_ASSERTED. -/
theorem test_status_word_in_hold : status0 State.reset = 0x248000 := by decide

/-- R117: a command in a transition is answered E_BUSY. -/
theorem test_busy_in_transition : (match execProfileSelect (bell 4) [1, 0, 0, 0] { live 4 with modes := { mode := 4, target := 5, trans := some { by_ := .wake, final := 5, stage := 5 }, doms := List.replicate 8 { st := 1 } } } with
    | .next u => decide ((getPage u 0).rsp.take 2 = [7, 0] ∧ u.boot.sel = none)
    | _ => false) = true := by decide +kernel

/-- The spec gives no table word, so none is decoded (the table has no bits). -/
theorem test_no_word_decodes : decodeTableWord 32 0x12345678 = none := by decide

/-- A step takes the front of the queue. -/
theorem test_step_takes_front : (match step { live 5 with pending := [.heartbeatTick, .powerOff] } with
    | .next u => decide (u.pending = [.powerOff] ∧ u.flt.heartbeat = 1)
    | _ => false) = true := by decide +kernel

end Sys2Proof.Tests
end

section
/-!
The checks of a mailbox command, one equation per check in the order in which they are made (log entry 9), and the answer of
every command. The statements on the scope of the model (O44, O48, O49) follow from them.
-/

namespace Sys2Proof.Machine
open Sys2Proof.Claim

/-! What a served command meets: the header's checks (R8, R114, R115), then the opcode's. -/

section
variable {o : OpSpec} {x : Option OpSpec} {c : Cmd} {s t : State}

theorem serve_seq_differs {hdr : Bool} :
    serve x c false hdr s = post c eArg (onPage c.mb (fun g => { g with mismatch := true }) s) := rfl
theorem serve_header_bad : serve x c true false s = post c eArg s := rfl
theorem serve_undefined : serve none c true true s = post c eArg s := rfl
theorem serve_judged {a : Ans} (h : judge o c s = (a, t)) : serve (some o) c true true s = post c a t := by
  simp [serve, h]

theorem judge_reserved (h : o.rsv c = false) : judge o c s = (eArg, s) := by simp [judge, h]

theorem serve_header_or_reserved_bad {hdr : Bool} (h : hdr = false ∨ o.rsv c = false) :
    serve (some o) c true hdr s = post c eArg s := by
  cases hdr with
  | false => exact serve_header_bad
  | true => exact serve_judged (judge_reserved (h.resolve_left (by decide)))

theorem judge_shutOut (hr : o.rsv c = true) (hd : o.diag = false) (h : shutOut c s = true) : judge o c s = (eBusy, s) := by
  simp [judge, hr, hd, h]
theorem judge_mode (hr : o.rsv c = true) (ho : o.diag = true ∨ shutOut c s = false) (h : o.modes c s = false) :
    judge o c s = (eState, s) := by
  rcases ho with ho | ho <;> simp [judge, hr, ho, h]
theorem judge_engages (hr : o.rsv c = true) (ho : o.diag = true ∨ shutOut c s = false) (h : o.modes c s = true) :
    judge o c s = engage o c s := by
  rcases ho with ho | ho <;> simp [judge, hr, ho, h]
theorem engage_failed {n : Nat} (h : ((o.needs c).find? fun n => decide ((getDom s n).st = 5)) = some n) :
    engage o c s = (.err 0x0202 [BitVec.ofNat 8 n], s) := by simp [engage, h]

end

/-! What a doorbell does. -/

theorem onPage_id {mb : Nat} {s : State} : onPage mb (fun g => g) s = s := by
  simp only [onPage, State.onMbx, updAt]
  exact congrArg (fun l => { s with mbx := { s.mbx with pages := l } }) (List.modify_id mb s.mbx.pages)

/-- The clearing of MB2's CMD area (R588), as an image of the page that the doorbell belongs to. -/
theorem clearKey_eq_onPage {mb : Nat} {b : Bool} {l : List Byte} {s : State} :
    (if decide (mb = 2) && b then onPage 2 (fun g => { g with cmd := l }) s else s) =
      onPage mb (fun g => { g with cmd := if mb = 2 ∧ b = true then l else g.cmd }) s := by
  by_cases h : mb = 2 ∧ b = true
  · obtain ⟨rfl, rfl⟩ := h; simp
  · simp only [if_neg h]
    rw [if_neg (by simpa using h)]
    exact onPage_id.symm

section
variable {x : Option OpSpec} {mb : Nat} {path : Path} {v : W16} {s : State}

theorem noSupervisor_onPage_onEvt {f : MbPage → MbPage} {g : Evt → Evt} (hr : s.flt.summitRun = true) :
    noSupervisor ((onPage mb f s).onEvt g) = false := by simp [noSupervisor, onPage, hr]

/-- A doorbell on an idle page of a running Summit: the command is copied, the page is BUSY, and the checks follow. -/
theorem ringBell_idle (hp : mb < s.mbx.pages.length) (hr : s.flt.summitRun = true) (hb : (getPage s mb).busy = false)
    (hn : (getPage s mb).recorded = none) :
    ringBell x mb path v s =
      serve x (copyCmd mb path v (getPage s mb).cmd) (decide (fld (getPage s mb).cmd 4 2 = v.toNat)) (hdrOk (getPage s mb).cmd)
        ((onPage mb (fun g => { g with
          cmd := if mb = 2 ∧ (copyCmd mb path v (getPage s mb).cmd).op = 0x0C03 then List.replicate 512 0 else g.cmd
          doorbell := v, busy := true, done := false }) s).onEvt fun e => { e with asleep := false }) := by
  simp only [ringBell, getPage_onEvt, getPage_onPage hp, hb, hn, Option.isNone_none, Bool.not_false, Bool.and_true,
    clearKey_eq_onPage]
  simp only [onPage_onEvt, onPage_onPage, noSupervisor_onPage_onEvt hr, Bool.false_eq_true, if_false, decide_eq_true_eq,
    Function.comp_def]

/-- A doorbell on a BUSY page of a running Summit is an overrun (R115): nothing starts. -/
theorem ringBell_busy (hp : mb < s.mbx.pages.length) (hr : s.flt.summitRun = true) (hb : (getPage s mb).busy = true) :
    ringBell x mb path v s = countCairn 26
      ((onPage mb (fun g => { g with doorbell := v, overrun := true }) s).onEvt fun e => { e with asleep := false }) := by
  simp [ringBell, getPage_onEvt, getPage_onPage hp, hb, noSupervisor_onPage_onEvt hr, onPage_onEvt, onPage_onPage, Function.comp_def]

end

theorem getPage_countCairn {i k mb : Nat} {s : State} : getPage (countCairn i s k) mb = getPage s mb := rfl

section
variable {o : OpSpec} {x : Option OpSpec} {d : Doorbell} {p : List Byte} {s : State}

/-- A refused write is at most counted and noted in the service port's status. -/
theorem refuseWrite_pages_longs {mb words : Nat} {path : Path} :
    (refuseWrite mb path words s).mbx.pages = s.mbx.pages ∧ (refuseWrite mb path words s).mbx.longs = s.mbx.longs := by
  unfold refuseWrite
  cases path with
  | bar => dsimp only; split <;> simp
  | svc => dsimp only; split <;> simp
  | ring => exact ⟨rfl, rfl⟩
  | replay => exact ⟨rfl, rfl⟩

theorem mailbox_unreached (op : Nat) (h : mayWrite d.mb.val d.path s = false) :
    mailbox op x d p s = refuseWrite d.mb.val d.path (5 + (p.length + 3) / 4) s := by simp [mailbox, h]

/-- A write that reaches its mailbox fills the CMD area, then rings the doorbell. -/
theorem mailbox_reached (op : Nat) (hw : mayWrite d.mb.val d.path s = true) :
    mailbox op x d p s = ringBell x d.mb.val d.path d.value
      (onPage d.mb.val (fun g => { g with cmd := patch g.cmd 0 (cmdArea op d p) }) s) := by simp [mailbox, hw]

theorem mailbox_busy (op : Nat) (hw : mayWrite d.mb.val d.path s = true) (hp : d.mb.val < s.mbx.pages.length)
    (hr : s.flt.summitRun = true) (hb : (getPage s d.mb.val).busy = true) :
    mailbox op x d p s = countCairn 26 ((onPage d.mb.val (fun g => { g with
      cmd := patch g.cmd 0 (cmdArea op d p), doorbell := d.value, overrun := true }) s).onEvt fun e => { e with asleep := false }) := by
  rw [mailbox_reached op hw, ringBell_busy (s := onPage _ _ s) (by rwa [onPage_pages_length]) hr (by rwa [getPage_onPage hp]),
    onPage_onPage]
  rfl

/-- The frame of an overrun, and what the page and the counters then hold. -/
theorem mailbox_busy_effect (op : Nat) (hw : mayWrite d.mb.val d.path s = true) (hp : d.mb.val < s.mbx.pages.length)
    (hr : s.flt.summitRun = true) (hb : (getPage s d.mb.val).busy = true) :
    let u := mailbox op x d p s
    Framed [.mbx, .flt, .evt] s u ∧ (getPage u d.mb.val).overrun = true ∧ (getPage u d.mb.val).busy = true ∧
      (getPage u d.mb.val).rsp = (getPage s d.mb.val).rsp ∧ u.mbx.longs = s.mbx.longs ∧
      u.flt.counters = s.flt.counters.modify 26 (fun c => BitVec.ofNat 32 (satAdd 32 c.toNat 1)) := by
  simp only [mailbox_busy op hw hp hr hb]
  refine ⟨frame_of_keeps ?_, ?_⟩
  · exact countCairn_keeps (by decide) (onEvt_keeps (by decide) (onPage_keeps (by decide) (Keeps.refl s)))
  · simp only [getPage_countCairn, getPage_onEvt, getPage_onPage hp, hb, true_and]
    exact ⟨rfl, rfl⟩

theorem mailbox_idle (hw : mayWrite d.mb.val d.path s = true) (hp : d.mb.val < s.mbx.pages.length)
    (hr : s.flt.summitRun = true) (hb : (getPage s d.mb.val).busy = false) (hn : (getPage s d.mb.val).recorded = none) :
    mailbox o.op x d p s =
      serve x (cmdOf o d p s) (decide (fld (area o d p s) 4 2 = d.value.toNat)) (hdrOk (area o d p s)) (copied o d p s) := by
  rw [mailbox_reached o.op hw, ringBell_idle (s := onPage _ _ s) (by rwa [onPage_pages_length]) hr (by rwa [getPage_onPage hp])
    (by rwa [getPage_onPage hp]), onPage_onPage, getPage_onPage hp]
  unfold copied cmdOf area
  congr 2
  exact onPage_congr rfl

/-- A command that nothing turns away but its own opcode, which has no specification (R4). -/
theorem mailbox_undefined (h : Ready o d p s) :
    mailbox o.op none d p s = post (cmdOf o d p s) eArg (copied o d p s) := by
  rw [mailbox_idle h.reach h.page h.run h.idle h.record, decide_eq_true h.seq, h.hdr, serve_undefined]

end

/-! Every arm of `exec`. -/

/-- A row that only writes a command into a mailbox is that command. -/
theorem exec_sent {i : Instr} {o : OpSpec} {d : Doorbell} {p : List Byte} (h : sent i = some (o, d, p)) (s : State) :
    exec i s = command o d p s := by
  cases i
  all_goals cases h
  all_goals rfl

/-- An outcome that is one of two next states is a next state. -/
theorem ite_answers {c : Prop} [Decidable c] {a b : Out} (ha : ∃ t, a = .next t) (hb : ∃ t, b = .next t) :
    ∃ t, (if c then a else b) = .next t := by
  split
  · exact ha
  · exact hb

theorem execRegisterWrite_answers (bar : Bool) (off : Nat) (v : W32) (s : State) : ∃ t, execRegisterWrite bar off v s = .next t :=
  ite_answers ⟨_, rfl⟩ (ite_answers ⟨_, rfl⟩ (ite_answers ⟨_, rfl⟩ ⟨_, rfl⟩))

theorem execUndefinedEncoding_answers (core : Fin 33) (word : W32) (s : State) : ∃ t, execUndefinedEncoding core word s = .next t :=
  ite_answers ⟨_, rfl⟩ ⟨_, rfl⟩

/-- Every command answers a next state: but for the two whose meaning distinguishes cases first, each meaning is a next state as
it is written. -/
theorem exec_answers (i : Instr) (s : State) : ∃ t, exec i s = .next t := by
  cases i
  case registerWrite bar off v => exact execRegisterWrite_answers bar off v s
  case undefinedEncoding core word => exact execUndefinedEncoding_answers core word s
  all_goals exact ⟨_, rfl⟩

end Sys2Proof.Machine

namespace Sys2Proof
open Sys2Proof.Machine Sys2Proof.Claim

/-- Settles O44: a tick is a next state, and so is what every command answers. -/
theorem everyStepCompletes : Obligations.EveryStepCompletes := by
  intro s
  unfold Completes step
  split
  · exact ⟨_, rfl⟩
  · exact exec_answers _ _

/-- Settles O48: the row goes the way of every command on an idle page, and finds no opcode. -/
theorem undefinedOpcodeAnswered : Obligations.UndefinedOpcodeAnswered := by
  intro s op d p ⟨hop, h⟩
  have hanswer := mailbox_undefined h
  rw [exec_undefinedOpcode, execUndefinedOpcode, onlyIf, hop, Option.isNone_none, if_pos rfl]
  exact congrArg Host.Outcome.next hanswer

/-- Settles O49: a write that does not arrive, an overrun, then the checks of `serve` and `judge` in their order. -/
theorem commandsTurnedAway : Obligations.CommandsTurnedAway := by
  intro i o d p s hi
  rw [exec_sent hi, command]
  refine ⟨fun hw => ⟨_, rfl, ?_⟩, fun hw hp hr hb => ⟨_, rfl, mailbox_busy_effect o.op hw hp hr hb⟩,
    fun hw hp hr hb hn => ?_⟩
  · rw [mailbox_unreached o.op hw]
    exact ⟨refuseWrite_frame, refuseWrite_pages_longs⟩
  · rw [mailbox_idle hw hp hr hb hn]
    refine ⟨fun hseq => ?_, fun hseq => ?_⟩
    · rw [decide_eq_false hseq, serve_seq_differs]
      rfl
    · rw [decide_eq_true hseq]
      refine ⟨fun hbad => ?_, fun hhdr hrsv => ⟨fun hdiag hshut => ?_, fun hopen => ⟨fun hmode => ?_, fun hmode x hx => ?_⟩⟩⟩
      · rw [serve_header_or_reserved_bad hbad]
      · rw [hhdr, serve_judged (judge_shutOut hrsv hdiag hshut)]
      · rw [hhdr, serve_judged (judge_mode hrsv hopen hmode)]
      · rw [hhdr, serve_judged ((judge_engages hrsv hopen hmode).trans (engage_failed hx))]

end Sys2Proof
end

section
/-!
What the raising of an event does to the numbering and the log of Summit (R30, R131): a record that is kept in the logs, whatever
becomes of its copy in the persistent log, then an event that is raised, whatever ring it is routed to. The statement on event
numbers (O57) follows from them.
-/

namespace Sys2Proof.Machine

section
variable {r : EvtRec} {code : Nat} {obj : Option Nat} {pl : List Byte} {s : State} {mb : Nat} {q : W16}

@[simp] theorem logRec_evt_seq : (logRec r s).evt.seq = r.seq := by
  unfold logRec
  dsimp only
  split <;> simp only [State.onEvt_evt, mramWrite_evt]

@[simp] theorem logRec_evt_log : (logRec r s).evt.log = (r :: s.evt.log).take 4096 := by
  unfold logRec
  dsimp only
  split <;> simp only [State.onEvt_evt, mramWrite_evt]

@[simp] theorem ringRoute_evt {n : Nat} : (ringRoute n r s).evt = s.evt := ringRoute_frame.2 .evt (by decide)

theorem raise_stopped (h : s.flt.summitRun = false) : raise code obj pl s mb q = s := by simp [raise, h]

/-- The routing of the record to a ring leaves the event state as the logs left it. -/
theorem raise_evt_running (h : s.flt.summitRun = true) :
    (raise code obj pl s mb q).evt = (logRec (mkRec s code obj pl mb q) (noteTime s)).evt := by
  unfold raise
  rw [h, Bool.not_true, if_neg Bool.false_ne_true]
  dsimp only
  split
  · exact ringRoute_evt
  · rfl

end

end Sys2Proof.Machine

namespace Sys2Proof
open Sys2Proof.Machine

/-- Settles O57: a running Summit logs the record that `mkRec` numbers; a stopped one raises nothing. -/
theorem eventsAreNumbered : Obligations.EventsAreNumbered := by
  refine ⟨fun code obj pl s mb q hrun => ?_, fun _ _ _ _ _ _ hstop => raise_stopped hstop⟩
  rw [raise_evt_running hrun, logRec_evt_seq, logRec_evt_log, noteTime_evt]
  exact ⟨rfl, mkRec s code obj pl mb q, rfl, rfl, rfl, rfl, rfl, rfl⟩

end Sys2Proof
end

section
/-!
What the supplies, PWR_OK, RESET_N and the keeper do: the states that a device without VDD_AON and a device in HOLD are in, one
equation per row that enters HOLD, then the rows' effects. The statements on supplies and reset (O1) and on the status page in HOLD
(O50) follow from them.
-/

namespace Sys2Proof.Machine
open Sys2Proof.Claim

section
variable {s : State}

theorem onlyIf_of_true {c : Bool} {f : State → State} (h : c = true) : onlyIf c f s = f s := by simp [onlyIf, h]

/-- The effect of an event that can happen in a state is its outcome. -/
theorem next_onlyIf {c : Bool} {f : State → State} (h : c = true) : (.next (onlyIf c f s) : Out) = .next (f s) :=
  congrArg _ (onlyIf_of_true h)

/-! What a power loss records leaves all but the fault part, and the last-gasp write all but MRAM as well. -/

theorem lossOutage_frame : Framed [.flt] s (lossOutage s) := frame_of_keeps (lossOutage_keeps (maskOf_all _) (Keeps.refl _))
@[simp] theorem lossOutage_outs : (lossOutage s).outs = s.outs := lossOutage_frame.2 .outs (by decide)
@[simp] theorem lossOutage_boot : (lossOutage s).boot = s.boot := lossOutage_frame.2 .boot (by decide)
@[simp] theorem lossOutage_cipher : (lossOutage s).cipher = s.cipher := lossOutage_frame.2 .cipher (by decide)

theorem powerLossGasp_frame : Framed [.boot, .flt] s (powerLossGasp s) :=
  frame_of_keeps (powerLossGasp_keeps (maskOf_all _) (Keeps.refl _))
@[simp] theorem powerLossGasp_outs : (powerLossGasp s).outs = s.outs := powerLossGasp_frame.2 .outs (by decide)
@[simp] theorem powerLossGasp_cipher : (powerLossGasp s).cipher = s.cipher := powerLossGasp_frame.2 .cipher (by decide)

/-! A device without VDD_AON (R76): OFF, every output high-impedance, MRAM and the fuses kept. -/

@[simp] theorem powerless_vddAon : (powerless s).pwr.vddAon = false := rfl
@[simp] theorem powerless_outs : (powerless s).outs = outsZ := rfl
@[simp] theorem powerless_mode : (powerless s).modes.mode = 0 := rfl
@[simp] theorem powerless_mram : (powerless s).boot.mram = s.boot.mram := rfl
@[simp] theorem powerless_summitRun : (powerless s).flt.summitRun = false := rfl
@[simp] theorem powerless_counters : (powerless s).flt.counters = List.replicate 29 0 := rfl
@[simp] theorem powerless_kek0 : (powerless s).cipher.kek0 = s.cipher.kek0 := rfl
@[simp] theorem powerless_locked : (powerless s).cipher.locked = s.cipher.locked := rfl
@[simp] theorem powerless_kcv : (powerless s).cipher.kcv = s.cipher.kcv := rfl

/-! A device in HOLD (R61, R79). -/

theorem enterHold_mode : (enterHold s).modes.mode = 1 := rfl
theorem enterHold_target : (enterHold s).modes.target = 1 := rfl
theorem enterHold_trans : (enterHold s).modes.trans = none := rfl
theorem enterHold_mbx : (enterHold s).mbx = {} := rfl
theorem enterHold_cadState : (enterHold s).cad.state = 0 := rfl
theorem enterHold_host : (enterHold s).host = {} := rfl
theorem enterHold_air : (enterHold s).air = {} := rfl
theorem enterHold_ring : (enterHold s).ring = {} := rfl
@[simp] theorem enterHold_mram : (enterHold s).boot.mram = s.boot.mram := rfl
@[simp] theorem enterHold_kek0 : (enterHold s).cipher.kek0 = s.cipher.kek0 := rfl
@[simp] theorem enterHold_locked : (enterHold s).cipher.locked = s.cipher.locked := rfl
theorem enterHold_summitRun : (enterHold s).flt.summitRun = false := rfl
theorem enterHold_pwrOk : (enterHold s).pwr.pwrOk = s.pwr.pwrOk := rfl
theorem enterHold_resetN : (enterHold s).pwr.resetN = s.pwr.resetN := rfl
theorem enterHold_gpioDir : (enterHold s).pwr.gpioDir = 0 := rfl
theorem enterHold_gpioPull : (enterHold s).pwr.gpioPull = 0xFFFF := rfl

theorem enterHold_outs : (enterHold s).outs =
    if s.outs.z then outsZ else { ringTx := if s.pwr.pwrOk && s.pwr.refclkSerdes then .passThrough else .disabled, z := s.outs.z } := rfl

/-- Where the outputs have their supply, FAULT_N is asserted in HOLD (R55). -/
theorem enterHold_faultN (h : s.outs.z = false) : (enterHold s).outs.faultN = true := by rw [enterHold_outs, h]; rfl

theorem enterHold_stage : (enterHold s).boot.stage = 0 := rfl
theorem enterHold_active : (enterHold s).boot.active = 0 := rfl
theorem enterHold_cause : (enterHold s).flt.cause = 0 := rfl
theorem enterHold_heartbeat : (enterHold s).flt.heartbeat = 0 := rfl
theorem enterHold_seq : (enterHold s).evt.seq = 0 := rfl
theorem enterHold_bootHalt : (enterHold s).pwr.bootHalt = false := rfl
theorem enterHold_record : (enterHold s).flt.recValid = false ∧ (enterHold s).flt.gaspDone = false := ⟨rfl, rfl⟩

/-- No strap reads in HOLD (R61). -/
theorem strapsByte_enterHold : strapsByte (enterHold s) = 0 := rfl

/-- In HOLD, STATUS0 reads MODE 1, TARGET_MODE 1 and FAULT_ASSERTED (R123). -/
theorem status0_enterHold (h : s.outs.z = false) : status0 (enterHold s) = 0x248000 := by
  simp [status0, enterHold_stage, enterHold_mode, enterHold_target, enterHold_trans, enterHold_faultN h, enterHold_cadState,
    enterHold_bootHalt, enterHold_host, enterHold_cause, b2n]

/-- The status page of a device in HOLD reads its reset values (R123). -/
theorem statusBytes_enterHold (h : s.outs.z = false) :
    statusBytes (enterHold s) = le 4 0x248000 ++ le 4 0 ++ le 4 0 ++ le 4 0 ++ le 4 0 := by
  simp [statusBytes, status1, status0_enterHold h, strapsByte_enterHold, enterHold_active, enterHold_heartbeat, enterHold_seq,
    enterHold_record, b2n]

/-! The rows that enter HOLD. -/

/-- What a fall of PWR_OK records before HOLD is entered: from BOOT on, the outage and the last-gasp write (R78). -/
def afterPwrOkLoss (s : State) : State := if s.modes.mode ≥ 2 then powerLossGasp (lossOutage s) else s

@[simp] theorem afterPwrOkLoss_outs : (afterPwrOkLoss s).outs = s.outs := by unfold afterPwrOkLoss; split <;> simp
@[simp] theorem afterPwrOkLoss_cipher : (afterPwrOkLoss s).cipher = s.cipher := by unfold afterPwrOkLoss; split <;> simp

theorem execPwrOkFall_hold (h : s.pwr.vddAon = true ∧ s.pwr.pwrOk = true) :
    execPwrOkFall s = .next (enterHold ((afterPwrOkLoss s).onPwr fun p => { p with pwrOk := false })) :=
  next_onlyIf (by simp [h])

theorem execResetNFall_hold (h : s.pwr.vddAon = true ∧ s.pwr.pwrOk = true ∧ s.pwr.resetN = true) :
    execResetNFall s = .next (enterHold ((serveLeave s).onPwr fun p => { p with resetN := false })) := by
  obtain ⟨haon, hok, hrst⟩ := h
  refine (next_onlyIf (by simp [haon, hrst])).trans ?_
  simp [hok]

end

end Sys2Proof.Machine

namespace Sys2Proof
open Sys2Proof.Machine Sys2Proof.Claim

/-- Settles O1: each row's condition holds, so the row has its effect, whose frame the laws of the row give. -/
theorem suppliesAndResetTakeEffect : Obligations.SuppliesAndResetTakeEffect := by
  refine ⟨?powerOn, ?vddIoUp, ?vddIoLoss, ?powerOff, ?pwrOkRise, ?pwrOkFall, ?resetNFall, ?resetNRise, ?keeperStable⟩
  case powerOn =>
    intro s h
    exact does_of_keeps (execPowerOn_keeps (maskOf_all _) (Keeps.refl s)) (next_onlyIf (by simp [h]))
      ⟨rfl, rfl, rfl, rfl, rfl, rfl, rfl, rfl, rfl, rfl⟩
  case vddIoUp =>
    intro s h
    exact does_of_keeps (execVddIoUp_keeps (maskOf_all _) (Keeps.refl s)) (next_onlyIf (by simp [h])) ⟨rfl, rfl, rfl, rfl, rfl⟩
  case vddIoLoss =>
    intro s h
    exact does_of_keeps (execVddIoLoss_keeps (maskOf_all _) (Keeps.refl s)) (next_onlyIf (by simp [h])) ⟨rfl, rfl⟩
  case powerOff =>
    intro s h
    refine does_of_keeps (execPowerOff_keeps (maskOf_all _) (Keeps.refl s)) (next_onlyIf h) ?_
    simp
  case pwrOkRise =>
    intro s h
    exact does_of_keeps (execPwrOkRise_keeps (maskOf_all _) (Keeps.refl s)) (next_onlyIf (by simp [h]))
      ⟨rfl, by simp [outsHold], rfl⟩
  case pwrOkFall =>
    intro s h
    refine does_of_keeps (execPwrOkFall_keeps (maskOf_all _) (Keeps.refl s)) (execPwrOkFall_hold h)
      ⟨enterHold_pwrOk, enterHold_mode, enterHold_summitRun, enterHold_mbx, enterHold_host, enterHold_air, ?_⟩
    simp
  case resetNFall =>
    intro s h
    refine does_of_keeps (execResetNFall_keeps (maskOf_all _) (Keeps.refl s)) (execResetNFall_hold h)
      ⟨enterHold_resetN, enterHold_gpioDir, enterHold_gpioPull, enterHold_mode, enterHold_summitRun, enterHold_mbx, enterHold_host,
        enterHold_ring, enterHold_air, ?_⟩
    simp
  case resetNRise =>
    intro s profSel ringRole ringId bootHalt safeN h
    refine does_of_keeps (execResetNRise_keeps (maskOf_all _) (Keeps.refl s)) (next_onlyIf (by simp [h])) ?_
    simp [bootSource]
  case keeperStable =>
    intro s h
    exact does_of_keeps (execKeeperStable_keeps (maskOf_all _) (Keeps.refl s)) (next_onlyIf h) rfl

/-- Settles O50: both falls enter HOLD, whose status page is that of reset where the outputs have their supply. -/
theorem holdReadsResetPage : Obligations.HoldReadsResetPage := by
  refine ⟨fun s haon hok hz hrst => ⟨_, execResetNFall_hold ⟨haon, hok, hrst⟩, statusBytes_enterHold ?_⟩,
    fun s haon hok hz => ⟨_, execPwrOkFall_hold ⟨haon, hok⟩, statusBytes_enterHold ?_⟩⟩
  · simp [hz]
  · simp [hz]

end Sys2Proof
end

section
/-!
The entry to SAFE, from the mode that a cause finds: from BOOT on, from a boot that runs in HOLD, from a restart, and in SAFE itself.
The statement on the causes of SAFE (O2) follows from it.
-/

namespace Sys2Proof.Machine
open Sys2Proof.Claim

section
variable {code : Nat} {detail : List Byte} {s t : State} {keep : Cmd → Bool}

/-- A state in which a cause begins a stay in SAFE (R688, R690): in HOLD only a boot that runs, in SAFE only a restart. -/
structure OutsideSafe (s : State) : Prop where
  on : s.modes.mode ≠ 0
  hold : s.modes.mode = 1 → s.boot.phase = .sequence
  safe : s.modes.mode = 7 → s.boot.restarting = true

theorem OutsideSafe.of_running (h2 : 2 ≤ s.modes.mode) (h6 : s.modes.mode ≤ 6) : OutsideSafe s :=
  ⟨by omega, fun _ => by omega, fun _ => by omega⟩

theorem OutsideSafe.of_boot (h1 : s.modes.mode = 1) (hseq : s.boot.phase = .sequence) : OutsideSafe s :=
  ⟨by omega, fun _ => hseq, fun _ => by omega⟩

/-- What a cause that arises outside SAFE leaves: the mode, the outputs of R698, SAFE_CAUSE; supplies and pins stay. -/
theorem enterSafe_entered (h : OutsideSafe s) :
    (enterSafe code detail s keep).modes.mode = 7 ∧ (enterSafe code detail s keep).outs = outsSafe s ∧
    (enterSafe code detail s keep).flt.cause = code ∧ (enterSafe code detail s keep).pwr = s.pwr := by
  by_cases h1 : s.modes.mode = 1
  · have hp : (s.boot.phase != .sequence) = false := by simp [h.hold h1]
    have h0 : s.modes.mode ≠ 0 := h.on
    have h3 : s.modes.mode ≠ 3 := by omega
    have h7 : s.modes.mode ≠ 7 := by omega
    simp only [enterSafe, h0, h3, h7, hp, decide_false, Bool.false_and, Bool.and_false, if_false, Bool.false_eq_true, enterMode_mode,
      enterMode_outs, true_and]
    refine ⟨?_, by simp, by simp⟩
    simp only [State.onDram_outs, State.onBoot_outs, State.onOuts_outs, raiseSafe_outs]
    exact outsSafe_congr (by simp) (by simp)
  · refine enterSafe_facts (by have := h.on; omega) ?_
    by_cases h7 : s.modes.mode = 7
    · exact .inr (h.safe h7)
    · exact .inl h7

/-- A cause that an effect on other parts of the state brings with it: the outputs in SAFE are those of the state before. -/
theorem enterSafe_after (h : OutsideSafe t) (hr : t.pwr.ringRole = s.pwr.ringRole) (ho : t.outs.pcieTx = s.outs.pcieTx) :
    (enterSafe code detail t keep).modes.mode = 7 ∧ (enterSafe code detail t keep).outs = outsSafe s ∧
    (enterSafe code detail t keep).flt.cause = code ∧ (enterSafe code detail t keep).pwr = t.pwr := by
  have hout : outsSafe t = outsSafe s := by simp [outsSafe, hr, ho]
  exact hout ▸ enterSafe_entered h

@[simp] theorem addCause_counters : (addCause code s).flt.counters = (countCairn (code - 1) s).flt.counters := by
  unfold addCause
  simp only [State.onFlt_flt]
  split <;> rfl

/-- A cause that arises in SAFE is counted, and mode, outputs and SAFE_CAUSE stay (R690). -/
theorem enterSafe_in_safe_facts (h7 : s.modes.mode = 7) (hr : s.boot.restarting = false) :
    (enterSafe code detail s keep).modes = s.modes ∧ (enterSafe code detail s keep).outs = s.outs ∧
    (enterSafe code detail s keep).flt.cause = s.flt.cause ∧ (enterSafe code detail s keep).pwr = s.pwr ∧
    (enterSafe code detail s keep).flt.counters = (countCairn (code - 1) s).flt.counters := by
  rw [enterSafe_in_safe h7 hr]
  simp

theorem watchdogActs_mode (h : watchdogActs s = true) : 2 ≤ s.modes.mode := by
  simp only [watchdogActs, Bool.and_eq_true, decide_eq_true_eq] at h
  omega

/-- A row that enters SAFE from a state t outside it, which the row's own effect may have led to: supplies and pins are those of t. -/
theorem does_enterSafe_pwr {o : Out} {l : List Part} {P : Pwr → Prop} (hk : KeepsOut (maskOf l) s o)
    (e : o = .next (enterSafe code detail t keep)) (h : OutsideSafe t) (hr : t.pwr.ringRole = s.pwr.ringRole)
    (ho : t.outs.pcieTx = s.outs.pcieTx) (hP : P t.pwr) :
    Does o s l fun u => u.modes.mode = 7 ∧ u.outs = outsSafe s ∧ u.flt.cause = code ∧ P u.pwr := by
  obtain ⟨hmode, houts, hcause, hpwr⟩ := enterSafe_after h hr ho
  exact does_of_keeps hk e ⟨hmode, houts, hcause, hpwr ▸ hP⟩

theorem does_enterSafe {o : Out} {l : List Part} (hk : KeepsOut (maskOf l) s o) (e : o = .next (enterSafe code detail t keep))
    (h : OutsideSafe t) (hr : t.pwr.ringRole = s.pwr.ringRole) (ho : t.outs.pcieTx = s.outs.pcieTx) :
    Does o s l fun u => u.modes.mode = 7 ∧ u.outs = outsSafe s ∧ u.flt.cause = code := by
  obtain ⟨hmode, houts, hcause, -⟩ := enterSafe_after h hr ho
  exact does_of_keeps hk e ⟨hmode, houts, hcause⟩

end

/-! The rows that bring a cause, where it can arise. -/

section
variable {s : State}

theorem execBrownout_enters {rail : Nat} (hok : s.pwr.pwrOk = true) (h2 : 2 ≤ s.modes.mode) (hrail : rail ≤ 2) :
    execBrownout rail s = .next (enterSafe 9 [BitVec.ofNat 8 rail] s) :=
  next_onlyIf (by simp [hok, h2, hrail])

theorem execRefclkRfFail_enters (hok : s.pwr.pwrOk = true) (h2 : 2 ≤ s.modes.mode) :
    execRefclkRfFail s = .next (enterSafe 10 [] (s.onPwr fun p => { p with refclkRf := false, onRc := true })) :=
  next_onlyIf (by simp [hok, h2])

theorem execRefclkRfTimeout_enters (hok : s.pwr.pwrOk = true) (hseq : s.boot.phase = .sequence) :
    execRefclkRfTimeout s = .next (enterSafe 10 [] (s.onPwr fun p => { p with refclkRf := false, onRc := true })) :=
  next_onlyIf (by simp [hok, hseq])

theorem execThermalShutdown_enters {sensor : Nat} (hs : sensor < 3) (h2 : 2 ≤ s.modes.mode)
    (hq : 4 * (tjShutdown : Int) ≤ (tjs s).getD sensor 0) :
    execThermalShutdown sensor s = .next (enterSafe 8 ([BitVec.ofNat 8 sensor, 0] ++ leI 2 ((tjs s).getD sensor 0)) s) :=
  next_onlyIf (by simp only [hs, h2, hq, decide_true, Bool.and_self])

theorem execLockstepMismatch_enters {pcA pcB : W32} (hrun : s.flt.summitRun = true) (h1 : 1 ≤ s.modes.mode) :
    execLockstepMismatch pcA pcB s = .next (enterSafe 3 (le 4 pcA.toNat ++ le 4 pcB.toNat)
      (s.onFlt fun f => { f with summitHeld := true, summitRun := false })) :=
  next_onlyIf (by simp [hrun, h1])

theorem execWdtStage1Expiry_enters (hacts : watchdogActs s = true) (h6 : s.modes.mode ≤ 6) (hms : s.flt.wdtMs ≠ 0)
    (hsafe : s.pwr.safeN = true) : execWdtStage1Expiry s = .next (enterSafe 4 [] (countCairn 12 s)) :=
  next_onlyIf (by have h7 : s.modes.mode ≠ 7 := by omega
                  simp [hacts, h7, hms, hsafe])

end

end Sys2Proof.Machine

namespace Sys2Proof
open Sys2Proof.Machine Sys2Proof.Claim

/-- Settles O2: each row enters SAFE from the state that its own effect leaves, which lies outside SAFE; in SAFE itself the cause is
only counted. -/
theorem failSafeEventsEnterSafe : Obligations.FailSafeEventsEnterSafe := by
  refine ⟨?brownout, ?refclkFail, ?refclkTimeout, ?refclkTimeoutInHold, ?safeN, ?safeNInSafe, ?thermal, ?lockstep, ?watchdog⟩
  case brownout =>
    intro s rail ⟨hok, h2, h6, hrail⟩
    exact does_enterSafe (execBrownout_keeps (maskOf_all _) (Keeps.refl s)) (execBrownout_enters hok h2 hrail)
      (.of_running h2 h6) rfl rfl
  case refclkFail =>
    intro s ⟨hok, h2, h6⟩
    exact does_enterSafe_pwr (P := fun x => x.refclkRf = false ∧ x.onRc = true) (execRefclkRfFail_keeps (maskOf_all _) (Keeps.refl s))
      (execRefclkRfFail_enters hok h2) (.of_running h2 h6) rfl rfl ⟨rfl, rfl⟩
  case refclkTimeout =>
    intro s ⟨hok, hseq, h2, h6⟩
    exact does_enterSafe_pwr (P := fun x => x.refclkRf = false) (execRefclkRfTimeout_keeps (maskOf_all _) (Keeps.refl s))
      (execRefclkRfTimeout_enters hok hseq) (.of_running h2 h6) rfl rfl rfl
  case refclkTimeoutInHold =>
    intro s ⟨hok, hseq, h1⟩
    exact does_enterSafe (execRefclkRfTimeout_keeps (maskOf_all _) (Keeps.refl s)) (execRefclkRfTimeout_enters hok hseq)
      (.of_boot h1 hseq) rfl rfl
  case safeN =>
    intro s ⟨h2, h6⟩
    exact does_enterSafe_pwr (P := fun x => x = { s.pwr with safeN := false }) (execSafeNAssert_keeps (maskOf_all _) (Keeps.refl s)) rfl
      (.of_running h2 h6) rfl rfl rfl
  case safeNInSafe =>
    intro s ⟨h7, hr, _⟩
    exact does_of_keeps (execSafeNAssert_keeps (maskOf_all _) (Keeps.refl s)) rfl (enterSafe_in_safe_facts h7 hr)
  case thermal =>
    intro s sensor ⟨hsensor, h2, h6, hq⟩
    exact does_enterSafe (execThermalShutdown_keeps (maskOf_all _) (Keeps.refl s)) (execThermalShutdown_enters hsensor h2 hq)
      (.of_running h2 h6) rfl rfl
  case lockstep =>
    intro s pcA pcB ⟨hrun, h2, h6⟩
    exact does_enterSafe (execLockstepMismatch_keeps (maskOf_all _) (Keeps.refl s)) (execLockstepMismatch_enters hrun (by omega))
      (.of_running h2 h6) rfl rfl
  case watchdog =>
    intro s ⟨hacts, h6, hms, hsafe⟩
    exact does_enterSafe (execWdtStage1Expiry_keeps (maskOf_all _) (Keeps.refl s)) (execWdtStage1Expiry_enters hacts h6 hms hsafe)
      (.of_running (watchdogActs_mode hacts) h6) rfl rfl

end Sys2Proof
end

section
/-!
The opcodes of family 0x01: the effect of each, as one equation per outcome, under the conditions that its rule states. The statement
on their answers (O9) follows from them.
-/

namespace Sys2Proof.Machine
open Sys2Proof.Claim

section
variable {o : OpSpec} {d : Doorbell} {p : List Byte} {s u : State} {a : Ans} {l : List Part} {P : State → Prop}

/-! From the effect of an opcode to its answer, where the laws of the opcode say what the effect keeps. -/

theorem answers_of_keeps (h : Ready o d p s) (hk : KeepsP (maskOf l) s (o.body (cmdOf o d p s) (copied o d p s)))
    (e : o.body (cmdOf o d p s) (copied o d p s) = (a, u)) (ha : a.status ≠ 1) (hP : P u) : Answers (command o d p s) o d p s l a P :=
  command_answers h e ha (frame_of_keeps (keeps_of_eq hk e)) hP

theorem answers_ok_of_keeps {data : List Byte} (h : Ready o d p s)
    (hk : KeepsP (maskOf l) s (o.body (cmdOf o d p s) (copied o d p s)))
    (e : o.body (cmdOf o d p s) (copied o d p s) = (.ok data, u)) (hP : P u) : Answers (command o d p s) o d p s l (.ok data) P :=
  answers_of_keeps h hk e Nat.zero_ne_one hP

theorem accepts_of_keeps (h : Ready o d p s) (hk : KeepsP (maskOf l) s (o.body (cmdOf o d p s) (copied o d p s)))
    (e : o.body (cmdOf o d p s) (copied o d p s) = (.pending, u)) (hn : pendingOf s d.mb.val < 32) (hm : .mbx ∈ l)
    (hP : ∀ f, P (u.onMbx f)) : Accepts (command o d p s) o d p s l P :=
  command_accepts h e hn hm (frame_of_keeps (keeps_of_eq hk e)) hP

/-- A command whose response comes later has had its effect, and nothing is posted. -/
theorem does_of_answers_wait {out : Out} (h : Answers out o d p s l .wait P) : Does out s l P := h

/-! The copying of a command leaves what the effects of the family read. -/

@[simp] theorem copied_boot : (copied o d p s).boot = s.boot := rfl
@[simp] theorem copied_pwr : (copied o d p s).pwr = s.pwr := rfl

end

section
variable {s t : State} {c : Cmd}

/-! What is read of a stored profile depends on MRAM alone. -/

theorem profFld_congr {n off k : Nat} (h : t.boot = s.boot) : profFld t n off k = profFld s n off k := by simp only [profFld, h]
theorem profBytes_congr {n : Nat} (h : t.boot = s.boot) : profBytes t n = profBytes s n := by simp only [profBytes, profFld_congr h, h]
theorem badWords_congr {a k : Nat} (h : t.boot = s.boot) : badWords t a k = badWords s a k := by simp only [badWords, h]
theorem profReason_congr {n : Nat} (h : t.boot = s.boot) : profReason t n = profReason s n := by
  simp only [profReason, profBytes_congr h, badWords_congr h, profFld_congr h]
theorem storedImage_congr {n : Nat} {img : List Byte} (h : t.boot = s.boot) : storedImage n img t = storedImage n img s := by
  simp only [storedImage, profFld_congr h]

/-! Identity and profiles (R147 to R152). -/

/-- What IDENTIFY answers (R147). -/
def identity (s : State) : List Byte :=
  le 2 0x3192 ++ [0xB1] ++ le 1 (b2n Config.xb) ++ [3, 2, 3, 2] ++ le 8 Config.serial.toNat ++ le 1 (strapsByte s) ++
  le 1 (b2n s.pwr.bootHalt + 2 * b2n (s.modes.mode == 2 && s.boot.phase == .ready) + 4 * b2n s.boot.replayFailed) ++
  le 1 s.boot.active.toNat ++ le 1 s.modes.mode ++
  le 1 (b2n (profReason s 0 = 0) + 2 * b2n (profReason s 1 = 0) + 4 * b2n (profReason s 2 = 0) + 8 * b2n (profReason s 3 = 0)) ++
  le 2 Config.vendorId.toNat ++ [0] ++ ((List.range 4).flatMap fun n => le 4 (if profReason s n = 0 then profFld s n 12 4 else 0))

theorem identity_congr (hp : t.pwr = s.pwr) (hb : t.boot = s.boot) (hm : t.modes = s.modes) : identity t = identity s := by
  simp only [identity, strapsByte, profReason_congr hb, profFld_congr hb, hp, hb, hm]

theorem specIdentify_body : specIdentify.body c s = (.ok (identity s), s) := by
  simp only [specIdentify, identity, decide_eq_true_eq]

theorem specProfileSelect_body (h : c.u 16 1 ≤ 3) :
    specProfileSelect.body c s = (.ok, s.onBoot fun b => { b with sel := some (BitVec.ofNat 2 (c.u 16 1)) }) :=
  if_neg (by omega)

theorem specProfileRead_body (hn : c.u 16 1 ≤ 3) (hk4 : c.u 18 2 % 4 = 0) (hk : 4 ≤ c.u 18 2) (hk' : c.u 18 2 ≤ 480)
    (ho : c.u 20 4 % 4 = 0) (hend : c.u 20 4 + c.u 18 2 ≤ 65536) :
    specProfileRead.body c s = (.ok (memRead s.boot.mram (profBase (c.u 16 1) + c.u 20 4) (c.u 18 2)), s) :=
  if_neg (by simp [hk4, ho]; omega)

/-- The offset and the length of a PROFILE_STAGE are in range (R148). -/
structure StageInRange (c : Cmd) : Prop where
  off4 : c.u 16 4 % 4 = 0
  end_ : c.u 16 4 + c.u 20 2 ≤ 65536
  len4 : c.u 20 2 % 4 = 0
  least : 4 ≤ c.u 20 2
  most : c.u 20 2 ≤ 480
  length : c.par.length = 8 + c.u 20 2

theorem StageInRange.of_start (h0 : c.u 16 4 = 0) (hlen4 : c.u 20 2 % 4 = 0) (hleast : 4 ≤ c.u 20 2) (hmost : c.u 20 2 ≤ 480)
    (hlength : c.par.length = 8 + c.u 20 2) : StageInRange c :=
  ⟨by omega, by omega, hlen4, hleast, hmost, hlength⟩

theorem StageInRange.passes (h : StageInRange c) :
    ¬ ((c.u 16 4 % 4 != 0 || 65532 < c.u 16 4 || c.u 20 2 % 4 != 0 || c.u 20 2 < 4 || 480 < c.u 20 2 || 65536 < c.u 16 4 + c.u 20 2 ||
      c.par.length != 8 + c.u 20 2) = true) := by
  obtain ⟨hoff4, hend, hlen4, hleast, hmost, hlength⟩ := h
  simp [hoff4, hlen4, hlength]
  omega

/-- The first bytes take the free staging buffer for their mailbox (R148). -/
theorem specProfileStage_body_free (h : StageInRange c) (hfree : s.boot.stageOwner = none) (h0 : c.u 16 4 = 0) :
    specProfileStage.body c s =
      (.ok, s.onBoot fun b => { b with stageOwner := some c.mb, stageBuf := memWrite [] 0 (c.bytes 24 (c.u 20 2)) }) := by
  refine (if_neg h.passes).trans ?_
  simp [hfree, h0]

/-- Further bytes of the owner go into its buffer (R148). -/
theorem specProfileStage_body_owned (h : StageInRange c) (hown : s.boot.stageOwner = some c.mb) (h0 : 0 < c.u 16 4) :
    specProfileStage.body c s =
      (.ok, s.onBoot fun b => { b with stageBuf := memWrite s.boot.stageBuf (c.u 16 4) (c.bytes 24 (c.u 20 2)) }) := by
  refine (if_neg h.passes).trans ?_
  simp [hown, show c.u 16 4 ≠ 0 by omega]

theorem specProfileStore_body (hn : c.u 16 1 ≤ 3) (hown : s.boot.stageOwner = some c.mb)
    (hok : stagedBad (memRead s.boot.stageBuf 0 65536) = none) :
    specProfileStore.body c s = (.pending, (mramWrite (profBase (c.u 16 1) + 60) [0, 0, 0, 0] s).onBoot fun b =>
      { b with storeJobs := Tab.set b.storeJobs (c.u 16 1) (storedImage (c.u 16 1) (memRead s.boot.stageBuf 0 65536) s) }) := by
  refine (if_neg (by omega)).trans ((if_neg (by simp [hown])).trans ?_)
  rw [hok]

theorem specProfileLoad_body_verify (hn : c.u 16 1 ≤ 3) (h0 : c.u 17 1 = 0) :
    specProfileLoad.body c s = (.pending, s.onBoot fun b => { b with loadJobs := Tab.set b.loadJobs (c.u 16 1) 0 }) :=
  (if_neg (by simp [h0]; omega)).trans (if_pos h0)

/-! Host rings and event routes (R134 to R136). -/

/-- A ring as HR_CONFIG with ENABLE set leaves it (R134). -/
def Ring.configured (c : Cmd) (g : Ring) : Ring :=
  { g with type := c.u 17 1, enabled := true, push := bit (c.u 19 1) 1, log2 := c.u 20 1, vec := c.u 18 1, base := c.u 24 8,
           wb := c.u 32 8, modUs := c.u 40 2, modCount := c.u 42 2, error := false, stopped := false, errCause := 0, errCookie := 0,
           drops := 0, completions := 0, sinceVec := 0, modRunning := false, queue := [] }

theorem specHrConfig_body_enable (hn : c.u 16 1 ≤ 63) (hen : bit (c.u 19 1) 0 = true) (hok : hrConfigOk c = true)
    (hoff : (getRing s (c.u 16 1)).enabled = false) :
    specHrConfig.body c s = (.ok, if c.u 17 1 = 3
      then flushLost (c.u 16 1) (flushWaiting (c.u 16 1) (onRingN (c.u 16 1) (Ring.configured c) s))
      else onRingN (c.u 16 1) (Ring.configured c) s) :=
  (if_neg (by omega)).trans ((if_neg (by simp [hen])).trans ((if_neg (by simp [hok])).trans (if_neg (by simp [hoff]))))

theorem specHrConfig_body_disable (hn : c.u 16 1 ≤ 63) (hen : bit (c.u 19 1) 0 = false) (hon : (getRing s (c.u 16 1)).enabled = true) :
    specHrConfig.body c s = (.wait, onRingN (c.u 16 1) (fun g => { g with disabling := some c }) s) :=
  (if_neg (by omega)).trans ((if_pos (by simp [hen])).trans (if_pos hon))

/-- What HR_STATUS answers of a ring (R135). -/
def Ring.statusData (g : Ring) : List Byte :=
  le 1 g.type ++ le 1 (b2n g.enabled + 2 * b2n g.push + 4 * b2n g.error + 8 * b2n g.overflow) ++ le 1 g.log2 ++ le 1 g.vec ++
  le 2 g.hostIdx.toNat ++ le 2 g.devIdx.toNat ++ le 4 g.drops.toNat ++ le 4 g.completions.toNat ++ le 8 g.errCookie.toNat ++
  le 1 g.errCause ++ [0, 0, 0]

theorem specHrStatus_body (hn : c.u 16 1 ≤ 63) : specHrStatus.body c s = (.ok (getRing s (c.u 16 1)).statusData, s) :=
  if_neg (by omega)

theorem specEventRoute_body (hf : c.u 16 1 ≤ 0x1F) (h7 : c.u 16 1 ≠ 7)
    (hr : c.u 17 1 = 0xFF ∨ (32 ≤ c.u 17 1 ∧ c.u 17 1 ≤ 63 ∧ (getRing s (c.u 17 1)).type = 3)) :
    specEventRoute.body c s = (.ok, s.onHost fun h => { h with routes := Tab.set h.routes (c.u 16 1) (c.u 17 1) }) := by
  have hroute : ¬ ((c.u 17 1 != 0xFF && !(32 ≤ c.u 17 1 && c.u 17 1 ≤ 63 && (getRing s (c.u 17 1)).type = 3)) = true) := by
    rcases hr with hff | ⟨hlo, hhi, htype⟩
    · simp [hff]
    · simp [hlo, hhi, htype]
  exact (if_neg (by simp [h7]; omega)).trans (if_neg hroute)

end

end Sys2Proof.Machine

namespace Sys2Proof
open Sys2Proof.Machine Sys2Proof.Claim

/-- Settles O9: each opcode's effect under its conditions, from the state in which its command has been copied. -/
theorem family01CommandsAnswer : Obligations.Family01CommandsAnswer := by
  refine ⟨?identify, ?select, ?read, ?stageFirst, ?stageNext, ?store, ?load, ?hrEnable, ?hrEnableEvents, ?hrDisable, ?hrStatus,
    ?route, ?gpioSet, ?gpioGet⟩
  case identify =>
    intro s d p hready
    refine answers_ok_of_keeps hready (specIdentify_keeps (by decide) (copied_keeps (by decide))) ?_ (u := copied specIdentify d p s)
      ⟨rfl, rfl⟩
    rw [specIdentify_body, identity_congr copied_pwr copied_boot (copied_modes ..)]
    rfl
  case select =>
    intro s d p hready c hprof
    exact answers_ok_of_keeps hready (specProfileSelect_keeps (by decide) (copied_keeps (by decide))) (specProfileSelect_body hprof)
      rfl
  case read =>
    intro s d p hready c ⟨hprof, hcount4, hleast, hmost, hoff4, hend⟩
    exact answers_ok_of_keeps hready (specProfileRead_keeps (by decide) (copied_keeps (by decide)))
      (specProfileRead_body hprof hcount4 hleast hmost hoff4 hend) rfl
  case stageFirst =>
    intro s d p hready c ⟨hfree, hoff, hlen4, hleast, hmost, hlength⟩
    exact answers_ok_of_keeps hready (specProfileStage_keeps (by decide) (copied_keeps (by decide)))
      (specProfileStage_body_free (.of_start hoff hlen4 hleast hmost hlength) hfree hoff) rfl
  case stageNext =>
    intro s d p hready c ⟨hown, hoff4, hoff, hend, hlen4, hleast, hmost, hlength⟩
    exact answers_ok_of_keeps hready (specProfileStage_keeps (by decide) (copied_keeps (by decide)))
      (specProfileStage_body_owned ⟨hoff4, hend, hlen4, hleast, hmost, hlength⟩ hown hoff) rfl
  case store =>
    intro s d p hready hpending c ⟨hprof, hown, hgood⟩
    refine accepts_of_keeps hready (specProfileStore_keeps (by decide) (copied_keeps (by decide)))
      (specProfileStore_body hprof hown hgood) hpending (by decide) fun f => ?_
    rw [storedImage_congr copied_boot]
    rfl
  case load =>
    intro s d p hready hpending c ⟨hprof, hverify⟩
    exact accepts_of_keeps hready (specProfileLoad_keeps (by decide) (copied_keeps (by decide)))
      (specProfileLoad_body_verify hprof hverify) hpending (by decide) fun f => rfl
  case hrEnable =>
    intro s d p hready c ⟨hring, henable, hok, hoff, htype⟩
    refine answers_ok_of_keeps hready (specHrConfig_keeps (by decide) (copied_keeps (by decide)))
      (specHrConfig_body_enable hring henable hok hoff) ?_
    rw [if_neg htype, getRing_onRingN]
    rfl
  case hrEnableEvents =>
    intro s d p hready c ⟨hring, henable, hok, hoff, htype⟩
    refine answers_ok_of_keeps hready (specHrConfig_keeps (by decide) (copied_keeps (by decide)))
      (specHrConfig_body_enable hring henable hok hoff) ⟨_, if_pos htype, ?_⟩
    rw [getRing_onRingN]
    exact ⟨htype, rfl, rfl, rfl, rfl⟩
  case hrDisable =>
    intro s d p hready c ⟨hring, hdisable, hon⟩
    refine does_of_answers_wait (answers_of_keeps hready (specHrConfig_keeps (by decide) (copied_keeps (by decide)))
      (specHrConfig_body_disable hring hdisable hon) Nat.zero_ne_one ?_)
    rw [getRing_onRingN]
    exact ⟨rfl, hon⟩
  case hrStatus =>
    intro s d p hready c hring
    exact answers_ok_of_keeps hready (specHrStatus_keeps (by decide) (copied_keeps (by decide))) (specHrStatus_body hring) rfl
  case route =>
    intro s d p hready c ⟨hfamily, hfamily7, hroute⟩
    exact answers_ok_of_keeps hready (specEventRoute_keeps (by decide) (copied_keeps (by decide)))
      (specEventRoute_body hfamily hfamily7 hroute) rfl
  case gpioSet =>
    intro s d p hready
    exact answers_ok_of_keeps hready (specGpioSet_keeps (by decide) (copied_keeps (by decide))) rfl rfl
  case gpioGet =>
    intro s d p levels hready
    exact answers_ok_of_keeps hready (specGpioGet_keeps (by decide) (copied_keeps (by decide))) rfl rfl

end Sys2Proof
end

section
/-!
The invariant of the machine: it holds at reset, and every step keeps it. What each command keeps is proved of its meaning in the
laws; here the meanings are gathered into one law of `exec`. The statements on the invariant (O42, O43) follow from it.
-/

namespace Sys2Proof.Machine

/-- The mask of all parts: for what a command keeps whatever parts it changes. -/
def everyPart : Part → Bool := fun _ => true

theorem everyPart_all (l : List Part) : l.all everyPart = true := List.all_eq_true.2 fun _ _ => rfl

/-- What every command keeps, whatever its operands and the state: each meaning's own law, by the equation of its arm. -/
theorem exec_keeps (i : Instr) (s : State) : KeepsOut everyPart s (exec i s) := by
  cases i with
  | powerOn => rw [exec_powerOn]; exact execPowerOn_keeps (everyPart_all _) (.refl s)
  | vddIoUp => rw [exec_vddIoUp]; exact execVddIoUp_keeps (everyPart_all _) (.refl s)
  | vddIoLoss => rw [exec_vddIoLoss]; exact execVddIoLoss_keeps (everyPart_all _) (.refl s)
  | powerOff => rw [exec_powerOff]; exact execPowerOff_keeps (everyPart_all _) (.refl s)
  | pwrOkRise => rw [exec_pwrOkRise]; exact execPwrOkRise_keeps (everyPart_all _) (.refl s)
  | pwrOkFall => rw [exec_pwrOkFall]; exact execPwrOkFall_keeps (everyPart_all _) (.refl s)
  | resetNFall => rw [exec_resetNFall]; exact execResetNFall_keeps (everyPart_all _) (.refl s)
  | resetNRise => rw [exec_resetNRise]; exact execResetNRise_keeps (everyPart_all _) (.refl s)
  | bootSequenceDone => rw [exec_bootSequenceDone]; exact execBootSequenceDone_keeps (everyPart_all _) (.refl s)
  | replayResume => rw [exec_replayResume]; exact execReplayResume_keeps (everyPart_all _) (.refl s)
  | brownout => rw [exec_brownout]; exact execBrownout_keeps (everyPart_all _) (.refl s)
  | refclkRfFail => rw [exec_refclkRfFail]; exact execRefclkRfFail_keeps (everyPart_all _) (.refl s)
  | refclkRfTimeout => rw [exec_refclkRfTimeout]; exact execRefclkRfTimeout_keeps (everyPart_all _) (.refl s)
  | serdesRefclkFail => rw [exec_serdesRefclkFail]; exact execSerdesRefclkFail_keeps (everyPart_all _) (.refl s)
  | pcieRefclkFail => rw [exec_pcieRefclkFail]; exact execPcieRefclkFail_keeps (everyPart_all _) (.refl s)
  | pciePerstAssert => rw [exec_pciePerstAssert]; exact execPciePerstAssert_keeps (everyPart_all _) (.refl s)
  | pciePerstRelease => rw [exec_pciePerstRelease]; exact execPciePerstRelease_keeps (everyPart_all _) (.refl s)
  | keeperStable => rw [exec_keeperStable]; exact execKeeperStable_keeps (everyPart_all _) (.refl s)
  | stageOwnerTimeout => rw [exec_stageOwnerTimeout]; exact execStageOwnerTimeout_keeps (everyPart_all _) (.refl s)
  | undefinedOpcode => rw [exec_undefinedOpcode]; exact execUndefinedOpcode_keeps (everyPart_all _) (.refl s)
  | recordedCommandTaken => rw [exec_recordedCommandTaken]; exact execRecordedCommandTaken_keeps (everyPart_all _) (.refl s)
  | longCommandDeferredStart => rw [exec_longCommandDeferredStart]; exact execLongCommandDeferredStart_keeps (everyPart_all _) (.refl s)
  | registerWrite => rw [exec_registerWrite]; exact execRegisterWrite_keeps (everyPart_all _) (.refl s)
  | barBadAccess => rw [exec_barBadAccess]; exact execBarBadAccess_keeps (everyPart_all _) (.refl s)
  | hostIdxWrite => rw [exec_hostIdxWrite]; exact execHostIdxWrite_keeps (everyPart_all _) (.refl s)
  | dropCountRead => rw [exec_dropCountRead]; exact execDropCountRead_keeps (everyPart_all _) (.refl s)
  | todSnapshotRead => rw [exec_todSnapshotRead]; exact execTodSnapshotRead_keeps (everyPart_all _) (.refl s)
  | traceRestart => rw [exec_traceRestart]; exact execTraceRestart_keeps (everyPart_all _) (.refl s)
  | traceFreeze => rw [exec_traceFreeze]; exact execTraceFreeze_keeps (everyPart_all _) (.refl s)
  | traceLostRead => rw [exec_traceLostRead]; exact execTraceLostRead_keeps (everyPart_all _) (.refl s)
  | svcRead => rw [exec_svcRead]; exact execSvcRead_keeps (everyPart_all _) (.refl s)
  | svcWrite => rw [exec_svcWrite]; exact execSvcWrite_keeps (everyPart_all _) (.refl s)
  | hostTxPacket => rw [exec_hostTxPacket]; exact execHostTxPacket_keeps (everyPart_all _) (.refl s)
  | hostRingWrite => rw [exec_hostRingWrite]; exact execHostRingWrite_keeps (everyPart_all _) (.refl s)
  | hrDisableDrained => rw [exec_hrDisableDrained]; exact execHrDisableDrained_keeps (everyPart_all _) (.refl s)
  | msixModerationExpiry => rw [exec_msixModerationExpiry]; exact execMsixModerationExpiry_keeps (everyPart_all _) (.refl s)
  | identify => rw [exec_identify]; exact execIdentify_keeps (everyPart_all _) (.refl s)
  | sysRestart => rw [exec_sysRestart]; exact execSysRestart_keeps (everyPart_all _) (.refl s)
  | profileLoad => rw [exec_profileLoad]; exact execProfileLoad_keeps (everyPart_all _) (.refl s)
  | profileLoadDone => rw [exec_profileLoadDone]; exact execProfileLoadDone_keeps (everyPart_all _) (.refl s)
  | profileStore => rw [exec_profileStore]; exact execProfileStore_keeps (everyPart_all _) (.refl s)
  | profileStoreDone => rw [exec_profileStoreDone]; exact execProfileStoreDone_keeps (everyPart_all _) (.refl s)
  | profileSelect => rw [exec_profileSelect]; exact execProfileSelect_keeps (everyPart_all _) (.refl s)
  | profileRead => rw [exec_profileRead]; exact execProfileRead_keeps (everyPart_all _) (.refl s)
  | profileStage => rw [exec_profileStage]; exact execProfileStage_keeps (everyPart_all _) (.refl s)
  | hrConfig => rw [exec_hrConfig]; exact execHrConfig_keeps (everyPart_all _) (.refl s)
  | hrStatus => rw [exec_hrStatus]; exact execHrStatus_keeps (everyPart_all _) (.refl s)
  | eventRoute => rw [exec_eventRoute]; exact execEventRoute_keeps (everyPart_all _) (.refl s)
  | gpioSet => rw [exec_gpioSet]; exact execGpioSet_keeps (everyPart_all _) (.refl s)
  | gpioGet => rw [exec_gpioGet]; exact execGpioGet_keeps (everyPart_all _) (.refl s)
  | modeSet => rw [exec_modeSet]; exact execModeSet_keeps (everyPart_all _) (.refl s)
  | modeGet => rw [exec_modeGet]; exact execModeGet_keeps (everyPart_all _) (.refl s)
  | pwrStats => rw [exec_pwrStats]; exact execPwrStats_keeps (everyPart_all _) (.refl s)
  | domainStatus => rw [exec_domainStatus]; exact execDomainStatus_keeps (everyPart_all _) (.refl s)
  | wakeConfig => rw [exec_wakeConfig]; exact execWakeConfig_keeps (everyPart_all _) (.refl s)
  | vigilConfig => rw [exec_vigilConfig]; exact execVigilConfig_keeps (everyPart_all _) (.refl s)
  | agentAnswer => rw [exec_agentAnswer]; exact execAgentAnswer_keeps (everyPart_all _) (.refl s)
  | agentAnswerTimeout => rw [exec_agentAnswerTimeout]; exact execAgentAnswerTimeout_keeps (everyPart_all _) (.refl s)
  | enterResend => rw [exec_enterResend]; exact execEnterResend_keeps (everyPart_all _) (.refl s)
  | modeTransitionDone => rw [exec_modeTransitionDone]; exact execModeTransitionDone_keeps (everyPart_all _) (.refl s)
  | serveExitSilence => rw [exec_serveExitSilence]; exact execServeExitSilence_keeps (everyPart_all _) (.refl s)
  | domainWakeDone => rw [exec_domainWakeDone]; exact execDomainWakeDone_keeps (everyPart_all _) (.refl s)
  | domainWakeTimeout => rw [exec_domainWakeTimeout]; exact execDomainWakeTimeout_keeps (everyPart_all _) (.refl s)
  | domainWakeRetry => rw [exec_domainWakeRetry]; exact execDomainWakeRetry_keeps (everyPart_all _) (.refl s)
  | demandIdleExpiry => rw [exec_demandIdleExpiry]; exact execDemandIdleExpiry_keeps (everyPart_all _) (.refl s)
  | keeperAlarm => rw [exec_keeperAlarm]; exact execKeeperAlarm_keeps (everyPart_all _) (.refl s)
  | wakeNAssert => rw [exec_wakeNAssert]; exact execWakeNAssert_keeps (everyPart_all _) (.refl s)
  | safeNAssert => rw [exec_safeNAssert]; exact execSafeNAssert_keeps (everyPart_all _) (.refl s)
  | cadSourceSet => rw [exec_cadSourceSet]; exact execCadSourceSet_keeps (everyPart_all _) (.refl s)
  | cadStatus => rw [exec_cadStatus]; exact execCadStatus_keeps (everyPart_all _) (.refl s)
  | timeGet => rw [exec_timeGet]; exact execTimeGet_keeps (everyPart_all _) (.refl s)
  | timeStep => rw [exec_timeStep]; exact execTimeStep_keeps (everyPart_all _) (.refl s)
  | timeAdjust => rw [exec_timeAdjust]; exact execTimeAdjust_keeps (everyPart_all _) (.refl s)
  | ptpConfig => rw [exec_ptpConfig]; exact execPtpConfig_keeps (everyPart_all _) (.refl s)
  | cadMasterSet => rw [exec_cadMasterSet]; exact execCadMasterSet_keeps (everyPart_all _) (.refl s)
  | holdoverConfig => rw [exec_holdoverConfig]; exact execHoldoverConfig_keeps (everyPart_all _) (.refl s)
  | tsRead => rw [exec_tsRead]; exact execTsRead_keeps (everyPart_all _) (.refl s)
  | cadPulseMark => rw [exec_cadPulseMark]; exact execCadPulseMark_keeps (everyPart_all _) (.refl s)
  | markFrameTimeout => rw [exec_markFrameTimeout]; exact execMarkFrameTimeout_keeps (everyPart_all _) (.refl s)
  | markWindowExpiry => rw [exec_markWindowExpiry]; exact execMarkWindowExpiry_keeps (everyPart_all _) (.refl s)
  | slewDone => rw [exec_slewDone]; exact execSlewDone_keeps (everyPart_all _) (.refl s)
  | holdoverBudgetExpiry => rw [exec_holdoverBudgetExpiry]; exact execHoldoverBudgetExpiry_keeps (everyPart_all _) (.refl s)
  | timeStepApply => rw [exec_timeStepApply]; exact execTimeStepApply_keeps (everyPart_all _) (.refl s)
  | ptpSyncMark => rw [exec_ptpSyncMark]; exact execPtpSyncMark_keeps (everyPart_all _) (.refl s)
  | ptpAnnounce => rw [exec_ptpAnnounce]; exact execPtpAnnounce_keeps (everyPart_all _) (.refl s)
  | ptpDelayResp => rw [exec_ptpDelayResp]; exact execPtpDelayResp_keeps (everyPart_all _) (.refl s)
  | ptpDelayReqTimer => rw [exec_ptpDelayReqTimer]; exact execPtpDelayReqTimer_keeps (everyPart_all _) (.refl s)
  | keeperTrimWindow => rw [exec_keeperTrimWindow]; exact execKeeperTrimWindow_keeps (everyPart_all _) (.refl s)
  | beatStart => rw [exec_beatStart]; exact execBeatStart_keeps (everyPart_all _) (.refl s)
  | kernelDeadline => rw [exec_kernelDeadline]; exact execKernelDeadline_keeps (everyPart_all _) (.refl s)
  | planSeal => rw [exec_planSeal]; exact execPlanSeal_keeps (everyPart_all _) (.refl s)
  | weightSetComplete => rw [exec_weightSetComplete]; exact execWeightSetComplete_keeps (everyPart_all _) (.refl s)
  | cipherFrameDone => rw [exec_cipherFrameDone]; exact execCipherFrameDone_keeps (everyPart_all _) (.refl s)
  | rngHealthFail => rw [exec_rngHealthFail]; exact execRngHealthFail_keeps (everyPart_all _) (.refl s)
  | ccaCheckEnd => rw [exec_ccaCheckEnd]; exact execCcaCheckEnd_keeps (everyPart_all _) (.refl s)
  | coexRequest => rw [exec_coexRequest]; exact execCoexRequest_keeps (everyPart_all _) (.refl s)
  | ppduFemOn => rw [exec_ppduFemOn]; exact execPpduFemOn_keeps (everyPart_all _) (.refl s)
  | ppduEnd => rw [exec_ppduEnd]; exact execPpduEnd_keeps (everyPart_all _) (.refl s)
  | edcaAccessGained => rw [exec_edcaAccessGained]; exact execEdcaAccessGained_keeps (everyPart_all _) (.refl s)
  | responseReceived => rw [exec_responseReceived]; exact execResponseReceived_keeps (everyPart_all _) (.refl s)
  | responseTimeout => rw [exec_responseTimeout]; exact execResponseTimeout_keeps (everyPart_all _) (.refl s)
  | bfDeadline => rw [exec_bfDeadline]; exact execBfDeadline_keeps (everyPart_all _) (.refl s)
  | airRxPpdu => rw [exec_airRxPpdu]; exact execAirRxPpdu_keeps (everyPart_all _) (.refl s)
  | wbRxFalseDet => rw [exec_wbRxFalseDet]; exact execWbRxFalseDet_keeps (everyPart_all _) (.refl s)
  | reorderTimeout => rw [exec_reorderTimeout]; exact execReorderTimeout_keeps (everyPart_all _) (.refl s)
  | beaconSkipped => rw [exec_beaconSkipped]; exact execBeaconSkipped_keeps (everyPart_all _) (.refl s)
  | loLockLoss => rw [exec_loLockLoss]; exact execLoLockLoss_keeps (everyPart_all _) (.refl s)
  | loReady => rw [exec_loReady]; exact execLoReady_keeps (everyPart_all _) (.refl s)
  | synthLockTimeout => rw [exec_synthLockTimeout]; exact execSynthLockTimeout_keeps (everyPart_all _) (.refl s)
  | coexGntWithdrawn => rw [exec_coexGntWithdrawn]; exact execCoexGntWithdrawn_keeps (everyPart_all _) (.refl s)
  | blankInAssert => rw [exec_blankInAssert]; exact execBlankInAssert_keeps (everyPart_all _) (.refl s)
  | blankInRelease => rw [exec_blankInRelease]; exact execBlankInRelease_keeps (everyPart_all _) (.refl s)
  | mismatchMeasureDue => rw [exec_mismatchMeasureDue]; exact execMismatchMeasureDue_keeps (everyPart_all _) (.refl s)
  | mismatchCaptureDone => rw [exec_mismatchCaptureDone]; exact execMismatchCaptureDone_keeps (everyPart_all _) (.refl s)
  | rffeTransactionDone => rw [exec_rffeTransactionDone]; exact execRffeTransactionDone_keeps (everyPart_all _) (.refl s)
  | bandConfig => rw [exec_bandConfig]; exact execBandConfig_keeps (everyPart_all _) (.refl s)
  | bandConfigDone => rw [exec_bandConfigDone]; exact execBandConfigDone_keeps (everyPart_all _) (.refl s)
  | chainEnable => rw [exec_chainEnable]; exact execChainEnable_keeps (everyPart_all _) (.refl s)
  | txpwrSet => rw [exec_txpwrSet]; exact execTxpwrSet_keeps (everyPart_all _) (.refl s)
  | femConfig => rw [exec_femConfig]; exact execFemConfig_keeps (everyPart_all _) (.refl s)
  | rffeAccess => rw [exec_rffeAccess]; exact execRffeAccess_keeps (everyPart_all _) (.refl s)
  | coexConfig => rw [exec_coexConfig]; exact execCoexConfig_keeps (everyPart_all _) (.refl s)
  | blankMap => rw [exec_blankMap]; exact execBlankMap_keeps (everyPart_all _) (.refl s)
  | chainStatus => rw [exec_chainStatus]; exact execChainStatus_keeps (everyPart_all _) (.refl s)
  | factoryTest => rw [exec_factoryTest]; exact execFactoryTest_keeps (everyPart_all _) (.refl s)
  | factoryTestDone => rw [exec_factoryTestDone]; exact execFactoryTestDone_keeps (everyPart_all _) (.refl s)
  | spectrumSurvey => rw [exec_spectrumSurvey]; exact execSpectrumSurvey_keeps (everyPart_all _) (.refl s)
  | surveySpanDone => rw [exec_surveySpanDone]; exact execSurveySpanDone_keeps (everyPart_all _) (.refl s)
  | soundingConfig => rw [exec_soundingConfig]; exact execSoundingConfig_keeps (everyPart_all _) (.refl s)
  | precodeConfig => rw [exec_precodeConfig]; exact execPrecodeConfig_keeps (everyPart_all _) (.refl s)
  | csiRead => rw [exec_csiRead]; exact execCsiRead_keeps (everyPart_all _) (.refl s)
  | calGap => rw [exec_calGap]; exact execCalGap_keeps (everyPart_all _) (.refl s)
  | calMeasurementDone => rw [exec_calMeasurementDone]; exact execCalMeasurementDone_keeps (everyPart_all _) (.refl s)
  | nbCalInterval => rw [exec_nbCalInterval]; exact execNbCalInterval_keeps (everyPart_all _) (.refl s)
  | calStoreInterval => rw [exec_calStoreInterval]; exact execCalStoreInterval_keeps (everyPart_all _) (.refl s)
  | calRun => rw [exec_calRun]; exact execCalRun_keeps (everyPart_all _) (.refl s)
  | calRunDone => rw [exec_calRunDone]; exact execCalRunDone_keeps (everyPart_all _) (.refl s)
  | calStatus => rw [exec_calStatus]; exact execCalStatus_keeps (everyPart_all _) (.refl s)
  | calSchedule => rw [exec_calSchedule]; exact execCalSchedule_keeps (everyPart_all _) (.refl s)
  | calTableRead => rw [exec_calTableRead]; exact execCalTableRead_keeps (everyPart_all _) (.refl s)
  | calTableStore => rw [exec_calTableStore]; exact execCalTableStore_keeps (everyPart_all _) (.refl s)
  | calTableStoreDone => rw [exec_calTableStoreDone]; exact execCalTableStoreDone_keeps (everyPart_all _) (.refl s)
  | sliceStatus => rw [exec_sliceStatus]; exact execSliceStatus_keeps (everyPart_all _) (.refl s)
  | sensorConversion => rw [exec_sensorConversion]; exact execSensorConversion_keeps (everyPart_all _) (.refl s)
  | thermalShutdown => rw [exec_thermalShutdown]; exact execThermalShutdown_keeps (everyPart_all _) (.refl s)
  | staAdd => rw [exec_staAdd]; exact execStaAdd_keeps (everyPart_all _) (.refl s)
  | staModify => rw [exec_staModify]; exact execStaModify_keeps (everyPart_all _) (.refl s)
  | staRemove => rw [exec_staRemove]; exact execStaRemove_keeps (everyPart_all _) (.refl s)
  | staGet => rw [exec_staGet]; exact execStaGet_keeps (everyPart_all _) (.refl s)
  | acParamSet => rw [exec_acParamSet]; exact execAcParamSet_keeps (everyPart_all _) (.refl s)
  | turnPlanSet => rw [exec_turnPlanSet]; exact execTurnPlanSet_keeps (everyPart_all _) (.refl s)
  | airGateSet => rw [exec_airGateSet]; exact execAirGateSet_keeps (everyPart_all _) (.refl s)
  | beaconTemplate => rw [exec_beaconTemplate]; exact execBeaconTemplate_keeps (everyPart_all _) (.refl s)
  | linkSteer => rw [exec_linkSteer]; exact execLinkSteer_keeps (everyPart_all _) (.refl s)
  | policyBind => rw [exec_policyBind]; exact execPolicyBind_keeps (everyPart_all _) (.refl s)
  | bfAdmit => rw [exec_bfAdmit]; exact execBfAdmit_keeps (everyPart_all _) (.refl s)
  | bfModify => rw [exec_bfModify]; exact execBfModify_keeps (everyPart_all _) (.refl s)
  | bfRelease => rw [exec_bfRelease]; exact execBfRelease_keeps (everyPart_all _) (.refl s)
  | bfStatus => rw [exec_bfStatus]; exact execBfStatus_keeps (everyPart_all _) (.refl s)
  | bfPledgeSet => rw [exec_bfPledgeSet]; exact execBfPledgeSet_keeps (everyPart_all _) (.refl s)
  | bfStats => rw [exec_bfStats]; exact execBfStats_keeps (everyPart_all _) (.refl s)
  | ethFrameReceived => rw [exec_ethFrameReceived]; exact execEthFrameReceived_keeps (everyPart_all _) (.refl s)
  | payloadMatchDone => rw [exec_payloadMatchDone]; exact execPayloadMatchDone_keeps (everyPart_all _) (.refl s)
  | egressFrameStart => rw [exec_egressFrameStart]; exact execEgressFrameStart_keeps (everyPart_all _) (.refl s)
  | shaperCreditEligible => rw [exec_shaperCreditEligible]; exact execShaperCreditEligible_keeps (everyPart_all _) (.refl s)
  | gateEntryInstant => rw [exec_gateEntryInstant]; exact execGateEntryInstant_keeps (everyPart_all _) (.refl s)
  | gateListApply => rw [exec_gateListApply]; exact execGateListApply_keeps (everyPart_all _) (.refl s)
  | ethLinkUp => rw [exec_ethLinkUp]; exact execEthLinkUp_keeps (everyPart_all _) (.refl s)
  | ethLinkDown => rw [exec_ethLinkDown]; exact execEthLinkDown_keeps (everyPart_all _) (.refl s)
  | chainSwitchSettle => rw [exec_chainSwitchSettle]; exact execChainSwitchSettle_keeps (everyPart_all _) (.refl s)
  | chainLinkWaitExpiry => rw [exec_chainLinkWaitExpiry]; exact execChainLinkWaitExpiry_keeps (everyPart_all _) (.refl s)
  | chainRetryExpiry => rw [exec_chainRetryExpiry]; exact execChainRetryExpiry_keeps (everyPart_all _) (.refl s)
  | agingVisit => rw [exec_agingVisit]; exact execAgingVisit_keeps (everyPart_all _) (.refl s)
  | filterRebuildDone => rw [exec_filterRebuildDone]; exact execFilterRebuildDone_keeps (everyPart_all _) (.refl s)
  | nbConfig => rw [exec_nbConfig]; exact execNbConfig_keeps (everyPart_all _) (.refl s)
  | nbChannelPlan => rw [exec_nbChannelPlan]; exact execNbChannelPlan_keeps (everyPart_all _) (.refl s)
  | dwellConfig => rw [exec_dwellConfig]; exact execDwellConfig_keeps (everyPart_all _) (.refl s)
  | tunerRun => rw [exec_tunerRun]; exact execTunerRun_keeps (everyPart_all _) (.refl s)
  | tunerRunDone => rw [exec_tunerRunDone]; exact execTunerRunDone_keeps (everyPart_all _) (.refl s)
  | nbStats => rw [exec_nbStats]; exact execNbStats_keeps (everyPart_all _) (.refl s)
  | nodeAdd => rw [exec_nodeAdd]; exact execNodeAdd_keeps (everyPart_all _) (.refl s)
  | nodeRemove => rw [exec_nodeRemove]; exact execNodeRemove_keeps (everyPart_all _) (.refl s)
  | nodeGet => rw [exec_nodeGet]; exact execNodeGet_keeps (everyPart_all _) (.refl s)
  | nbSend => rw [exec_nbSend]; exact execNbSend_keeps (everyPart_all _) (.refl s)
  | floodConfig => rw [exec_floodConfig]; exact execFloodConfig_keeps (everyPart_all _) (.refl s)
  | heldStatus => rw [exec_heldStatus]; exact execHeldStatus_keeps (everyPart_all _) (.refl s)
  | nbTxRequestStart => rw [exec_nbTxRequestStart]; exact execNbTxRequestStart_keeps (everyPart_all _) (.refl s)
  | nbCcaDone => rw [exec_nbCcaDone]; exact execNbCcaDone_keeps (everyPart_all _) (.refl s)
  | nbTxDone => rw [exec_nbTxDone]; exact execNbTxDone_keeps (everyPart_all _) (.refl s)
  | nbFrameReceived => rw [exec_nbFrameReceived]; exact execNbFrameReceived_keeps (everyPart_all _) (.refl s)
  | nbPhrReceived => rw [exec_nbPhrReceived]; exact execNbPhrReceived_keeps (everyPart_all _) (.refl s)
  | nbSyncTimeout => rw [exec_nbSyncTimeout]; exact execNbSyncTimeout_keeps (everyPart_all _) (.refl s)
  | hopSlotStart => rw [exec_hopSlotStart]; exact execHopSlotStart_keeps (everyPart_all _) (.refl s)
  | nbSynthLocked => rw [exec_nbSynthLocked]; exact execNbSynthLocked_keeps (everyPart_all _) (.refl s)
  | nbSynthLockTimeout => rw [exec_nbSynthLockTimeout]; exact execNbSynthLockTimeout_keeps (everyPart_all _) (.refl s)
  | nbLockLoss => rw [exec_nbLockLoss]; exact execNbLockLoss_keeps (everyPart_all _) (.refl s)
  | nbRlSample => rw [exec_nbRlSample]; exact execNbRlSample_keeps (everyPart_all _) (.refl s)
  | nbAutoTuneStart => rw [exec_nbAutoTuneStart]; exact execNbAutoTuneStart_keeps (everyPart_all _) (.refl s)
  | tuneBurstRetry => rw [exec_tuneBurstRetry]; exact execTuneBurstRetry_keeps (everyPart_all _) (.refl s)
  | tuneSearchTimeout => rw [exec_tuneSearchTimeout]; exact execTuneSearchTimeout_keeps (everyPart_all _) (.refl s)
  | nbAckTimeout => rw [exec_nbAckTimeout]; exact execNbAckTimeout_keeps (everyPart_all _) (.refl s)
  | nbBackoffExpiry => rw [exec_nbBackoffExpiry]; exact execNbBackoffExpiry_keeps (everyPart_all _) (.refl s)
  | heldFrameExpiry => rw [exec_heldFrameExpiry]; exact execHeldFrameExpiry_keeps (everyPart_all _) (.refl s)
  | relayJitterExpiry => rw [exec_relayJitterExpiry]; exact execRelayJitterExpiry_keeps (everyPart_all _) (.refl s)
  | seenEntryExpiry => rw [exec_seenEntryExpiry]; exact execSeenEntryExpiry_keeps (everyPart_all _) (.refl s)
  | nbBeaconInterval => rw [exec_nbBeaconInterval]; exact execNbBeaconInterval_keeps (everyPart_all _) (.refl s)
  | ctrFloorWriteDone => rw [exec_ctrFloorWriteDone]; exact execCtrFloorWriteDone_keeps (everyPart_all _) (.refl s)
  | heldStoreMoveDone => rw [exec_heldStoreMoveDone]; exact execHeldStoreMoveDone_keeps (everyPart_all _) (.refl s)
  | parseConfig => rw [exec_parseConfig]; exact execParseConfig_keeps (everyPart_all _) (.refl s)
  | ruleWrite => rw [exec_ruleWrite]; exact execRuleWrite_keeps (everyPart_all _) (.refl s)
  | ruleClear => rw [exec_ruleClear]; exact execRuleClear_keeps (everyPart_all _) (.refl s)
  | rangeSet => rw [exec_rangeSet]; exact execRangeSet_keeps (everyPart_all _) (.refl s)
  | patternWrite => rw [exec_patternWrite]; exact execPatternWrite_keeps (everyPart_all _) (.refl s)
  | policerSet => rw [exec_policerSet]; exact execPolicerSet_keeps (everyPart_all _) (.refl s)
  | classStats => rw [exec_classStats]; exact execClassStats_keeps (everyPart_all _) (.refl s)
  | l2Add => rw [exec_l2Add]; exact execL2Add_keeps (everyPart_all _) (.refl s)
  | l2Remove => rw [exec_l2Remove]; exact execL2Remove_keeps (everyPart_all _) (.refl s)
  | l2Flush => rw [exec_l2Flush]; exact execL2Flush_keeps (everyPart_all _) (.refl s)
  | l2FlushDone => rw [exec_l2FlushDone]; exact execL2FlushDone_keeps (everyPart_all _) (.refl s)
  | routeAdd => rw [exec_routeAdd]; exact execRouteAdd_keeps (everyPart_all _) (.refl s)
  | routeRemove => rw [exec_routeRemove]; exact execRouteRemove_keeps (everyPart_all _) (.refl s)
  | routeBulk => rw [exec_routeBulk]; exact execRouteBulk_keeps (everyPart_all _) (.refl s)
  | routeBulkDone => rw [exec_routeBulkDone]; exact execRouteBulkDone_keeps (everyPart_all _) (.refl s)
  | nexthopSet => rw [exec_nexthopSet]; exact execNexthopSet_keeps (everyPart_all _) (.refl s)
  | ecmpSet => rw [exec_ecmpSet]; exact execEcmpSet_keeps (everyPart_all _) (.refl s)
  | agingSet => rw [exec_agingSet]; exact execAgingSet_keeps (everyPart_all _) (.refl s)
  | fwdStats => rw [exec_fwdStats]; exact execFwdStats_keeps (everyPart_all _) (.refl s)
  | queueConfig => rw [exec_queueConfig]; exact execQueueConfig_keeps (everyPart_all _) (.refl s)
  | shaperSet => rw [exec_shaperSet]; exact execShaperSet_keeps (everyPart_all _) (.refl s)
  | gateListSet => rw [exec_gateListSet]; exact execGateListSet_keeps (everyPart_all _) (.refl s)
  | bufferConfig => rw [exec_bufferConfig]; exact execBufferConfig_keeps (everyPart_all _) (.refl s)
  | chainPairSet => rw [exec_chainPairSet]; exact execChainPairSet_keeps (everyPart_all _) (.refl s)
  | tmStats => rw [exec_tmStats]; exact execTmStats_keeps (everyPart_all _) (.refl s)
  | keyUnwrap => rw [exec_keyUnwrap]; exact execKeyUnwrap_keeps (everyPart_all _) (.refl s)
  | keyErase => rw [exec_keyErase]; exact execKeyErase_keeps (everyPart_all _) (.refl s)
  | kekProvision => rw [exec_kekProvision]; exact execKekProvision_keeps (everyPart_all _) (.refl s)
  | kekProvisionDone => rw [exec_kekProvisionDone]; exact execKekProvisionDone_keeps (everyPart_all _) (.refl s)
  | cmLevelSet => rw [exec_cmLevelSet]; exact execCmLevelSet_keeps (everyPart_all _) (.refl s)
  | keySlotInfo => rw [exec_keySlotInfo]; exact execKeySlotInfo_keeps (everyPart_all _) (.refl s)
  | kernelLoad => rw [exec_kernelLoad]; exact execKernelLoad_keeps (everyPart_all _) (.refl s)
  | kernelLoadDone => rw [exec_kernelLoadDone]; exact execKernelLoadDone_keeps (everyPart_all _) (.refl s)
  | kernelStart => rw [exec_kernelStart]; exact execKernelStart_keeps (everyPart_all _) (.refl s)
  | kernelStop => rw [exec_kernelStop]; exact execKernelStop_keeps (everyPart_all _) (.refl s)
  | taskConfig => rw [exec_taskConfig]; exact execTaskConfig_keeps (everyPart_all _) (.refl s)
  | colObserveSet => rw [exec_colObserveSet]; exact execColObserveSet_keeps (everyPart_all _) (.refl s)
  | massifStats => rw [exec_massifStats]; exact execMassifStats_keeps (everyPart_all _) (.refl s)
  | colDispatch => rw [exec_colDispatch]; exact execColDispatch_keeps (everyPart_all _) (.refl s)
  | kernelReturn => rw [exec_kernelReturn]; exact execKernelReturn_keeps (everyPart_all _) (.refl s)
  | kernelBudgetExpiry => rw [exec_kernelBudgetExpiry]; exact execKernelBudgetExpiry_keeps (everyPart_all _) (.refl s)
  | add => rw [exec_add]; exact execAdd_keeps (everyPart_all _) (.refl s)
  | sub => rw [exec_sub]; exact execSub_keeps (everyPart_all _) (.refl s)
  | adds => rw [exec_adds]; exact execAdds_keeps (everyPart_all _) (.refl s)
  | subs => rw [exec_subs]; exact execSubs_keeps (everyPart_all _) (.refl s)
  | and_ => rw [exec_and_]; exact execAnd_keeps (everyPart_all _) (.refl s)
  | or_ => rw [exec_or_]; exact execOr_keeps (everyPart_all _) (.refl s)
  | xor => rw [exec_xor]; exact execXor_keeps (everyPart_all _) (.refl s)
  | shl => rw [exec_shl]; exact execShl_keeps (everyPart_all _) (.refl s)
  | shr => rw [exec_shr]; exact execShr_keeps (everyPart_all _) (.refl s)
  | shra => rw [exec_shra]; exact execShra_keeps (everyPart_all _) (.refl s)
  | mul => rw [exec_mul]; exact execMul_keeps (everyPart_all _) (.refl s)
  | mulq => rw [exec_mulq]; exact execMulq_keeps (everyPart_all _) (.refl s)
  | min => rw [exec_min]; exact execMin_keeps (everyPart_all _) (.refl s)
  | max => rw [exec_max]; exact execMax_keeps (everyPart_all _) (.refl s)
  | abs => rw [exec_abs]; exact execAbs_keeps (everyPart_all _) (.refl s)
  | neg => rw [exec_neg]; exact execNeg_keeps (everyPart_all _) (.refl s)
  | cmp => rw [exec_cmp]; exact execCmp_keeps (everyPart_all _) (.refl s)
  | cadd => rw [exec_cadd]; exact execCadd_keeps (everyPart_all _) (.refl s)
  | csub => rw [exec_csub]; exact execCsub_keeps (everyPart_all _) (.refl s)
  | conj => rw [exec_conj]; exact execConj_keeps (everyPart_all _) (.refl s)
  | pack => rw [exec_pack]; exact execPack_keeps (everyPart_all _) (.refl s)
  | padd => rw [exec_padd]; exact execPadd_keeps (everyPart_all _) (.refl s)
  | movi => rw [exec_movi]; exact execMovi_keeps (everyPart_all _) (.refl s)
  | movhi => rw [exec_movhi]; exact execMovhi_keeps (everyPart_all _) (.refl s)
  | moviP => rw [exec_moviP]; exact execMoviP_keeps (everyPart_all _) (.refl s)
  | macH => rw [exec_macH]; exact execMacH_keeps (everyPart_all _) (.refl s)
  | msuH => rw [exec_msuH]; exact execMsuH_keeps (everyPart_all _) (.refl s)
  | macW => rw [exec_macW]; exact execMacW_keeps (everyPart_all _) (.refl s)
  | msuW => rw [exec_msuW]; exact execMsuW_keeps (everyPart_all _) (.refl s)
  | cmac => rw [exec_cmac]; exact execCmac_keeps (everyPart_all _) (.refl s)
  | cmacj => rw [exec_cmacj]; exact execCmacj_keeps (everyPart_all _) (.refl s)
  | cmsu => rw [exec_cmsu]; exact execCmsu_keeps (everyPart_all _) (.refl s)
  | clr => rw [exec_clr]; exact execClr_keeps (everyPart_all _) (.refl s)
  | clr2 => rw [exec_clr2]; exact execClr2_keeps (everyPart_all _) (.refl s)
  | mova => rw [exec_mova]; exact execMova_keeps (everyPart_all _) (.refl s)
  | adda => rw [exec_adda]; exact execAdda_keeps (everyPart_all _) (.refl s)
  | macI => rw [exec_macI]; exact execMacI_keeps (everyPart_all _) (.refl s)
  | vmacH => rw [exec_vmacH]; exact execVmacH_keeps (everyPart_all _) (.refl s)
  | vcmac => rw [exec_vcmac]; exact execVcmac_keeps (everyPart_all _) (.refl s)
  | vcmacj => rw [exec_vcmacj]; exact execVcmacj_keeps (everyPart_all _) (.refl s)
  | extW => rw [exec_extW]; exact execExtW_keeps (everyPart_all _) (.refl s)
  | extH => rw [exec_extH]; exact execExtH_keeps (everyPart_all _) (.refl s)
  | extI => rw [exec_extI]; exact execExtI_keeps (everyPart_all _) (.refl s)
  | extCx => rw [exec_extCx]; exact execExtCx_keeps (everyPart_all _) (.refl s)
  | rawlo => rw [exec_rawlo]; exact execRawlo_keeps (everyPart_all _) (.refl s)
  | rawmi => rw [exec_rawmi]; exact execRawmi_keeps (everyPart_all _) (.refl s)
  | rawhi => rw [exec_rawhi]; exact execRawhi_keeps (everyPart_all _) (.refl s)
  | inslo => rw [exec_inslo]; exact execInslo_keeps (everyPart_all _) (.refl s)
  | insmi => rw [exec_insmi]; exact execInsmi_keeps (everyPart_all _) (.refl s)
  | inshi => rw [exec_inshi]; exact execInshi_keeps (everyPart_all _) (.refl s)
  | ldBu => rw [exec_ldBu]; exact execLdBu_keeps (everyPart_all _) (.refl s)
  | ldB => rw [exec_ldB]; exact execLdB_keeps (everyPart_all _) (.refl s)
  | ldHu => rw [exec_ldHu]; exact execLdHu_keeps (everyPart_all _) (.refl s)
  | ldH => rw [exec_ldH]; exact execLdH_keeps (everyPart_all _) (.refl s)
  | ldW => rw [exec_ldW]; exact execLdW_keeps (everyPart_all _) (.refl s)
  | ldP => rw [exec_ldP]; exact execLdP_keeps (everyPart_all _) (.refl s)
  | ldA => rw [exec_ldA]; exact execLdA_keeps (everyPart_all _) (.refl s)
  | stB => rw [exec_stB]; exact execStB_keeps (everyPart_all _) (.refl s)
  | stH => rw [exec_stH]; exact execStH_keeps (everyPart_all _) (.refl s)
  | stHu => rw [exec_stHu]; exact execStHu_keeps (everyPart_all _) (.refl s)
  | stW => rw [exec_stW]; exact execStW_keeps (everyPart_all _) (.refl s)
  | stP => rw [exec_stP]; exact execStP_keeps (everyPart_all _) (.refl s)
  | stA => rw [exec_stA]; exact execStA_keeps (everyPart_all _) (.refl s)
  | stHf => rw [exec_stHf]; exact execStHf_keeps (everyPart_all _) (.refl s)
  | branch => rw [exec_branch]; exact execBranch_keeps (everyPart_all _) (.refl s)
  | call => rw [exec_call]; exact execCall_keeps (everyPart_all _) (.refl s)
  | callr => rw [exec_callr]; exact execCallr_keeps (everyPart_all _) (.refl s)
  | ret => rw [exec_ret]; exact execRet_keeps (everyPart_all _) (.refl s)
  | br => rw [exec_br]; exact execBr_keeps (everyPart_all _) (.refl s)
  | loop => rw [exec_loop]; exact execLoop_keeps (everyPart_all _) (.refl s)
  | mfs => rw [exec_mfs]; exact execMfs_keeps (everyPart_all _) (.refl s)
  | mts => rw [exec_mts]; exact execMts_keeps (everyPart_all _) (.refl s)
  | nop => rw [exec_nop]; exact execNop_keeps (everyPart_all _) (.refl s)
  | setrnd => rw [exec_setrnd]; exact execSetrnd_keeps (everyPart_all _) (.refl s)
  | csrr => rw [exec_csrr]; exact execCsrr_keeps (everyPart_all _) (.refl s)
  | csrw => rw [exec_csrw]; exact execCsrw_keeps (everyPart_all _) (.refl s)
  | rfe => rw [exec_rfe]; exact execRfe_keeps (everyPart_all _) (.refl s)
  | wait => rw [exec_wait]; exact execWait_keeps (everyPart_all _) (.refl s)
  | fence => rw [exec_fence]; exact execFence_keeps (everyPart_all _) (.refl s)
  | undefinedEncoding => rw [exec_undefinedEncoding]; exact execUndefinedEncoding_keeps (everyPart_all _) (.refl s)
  | dramConfig => rw [exec_dramConfig]; exact execDramConfig_keeps (everyPart_all _) (.refl s)
  | dramTrain => rw [exec_dramTrain]; exact execDramTrain_keeps (everyPart_all _) (.refl s)
  | dramTrainDone => rw [exec_dramTrainDone]; exact execDramTrainDone_keeps (everyPart_all _) (.refl s)
  | dramMapSet => rw [exec_dramMapSet]; exact execDramMapSet_keeps (everyPart_all _) (.refl s)
  | dramStatus => rw [exec_dramStatus]; exact execDramStatus_keeps (everyPart_all _) (.refl s)
  | freezeRead => rw [exec_freezeRead]; exact execFreezeRead_keeps (everyPart_all _) (.refl s)
  | zeroingDone => rw [exec_zeroingDone]; exact execZeroingDone_keeps (everyPart_all _) (.refl s)
  | refreshDue => rw [exec_refreshDue]; exact execRefreshDue_keeps (everyPart_all _) (.refl s)
  | mr4Poll => rw [exec_mr4Poll]; exact execMr4Poll_keeps (everyPart_all _) (.refl s)
  | zqCalDue => rw [exec_zqCalDue]; exact execZqCalDue_keeps (everyPart_all _) (.refl s)
  | dqsTrackDue => rw [exec_dqsTrackDue]; exact execDqsTrackDue_keeps (everyPart_all _) (.refl s)
  | dramCreditWindow => rw [exec_dramCreditWindow]; exact execDramCreditWindow_keeps (everyPart_all _) (.refl s)
  | dramReadComplete => rw [exec_dramReadComplete]; exact execDramReadComplete_keeps (everyPart_all _) (.refl s)
  | caParityError => rw [exec_caParityError]; exact execCaParityError_keeps (everyPart_all _) (.refl s)
  | writeCrcAlert => rw [exec_writeCrcAlert]; exact execWriteCrcAlert_keeps (everyPart_all _) (.refl s)
  | selfRefreshExitDone => rw [exec_selfRefreshExitDone]; exact execSelfRefreshExitDone_keeps (everyPart_all _) (.refl s)
  | ringConfig => rw [exec_ringConfig]; exact execRingConfig_keeps (everyPart_all _) (.refl s)
  | ringStatus => rw [exec_ringStatus]; exact execRingStatus_keeps (everyPart_all _) (.refl s)
  | ringTableSync => rw [exec_ringTableSync]; exact execRingTableSync_keeps (everyPart_all _) (.refl s)
  | ringTableSyncDone => rw [exec_ringTableSyncDone]; exact execRingTableSyncDone_keeps (everyPart_all _) (.refl s)
  | rendezvousSet => rw [exec_rendezvousSet]; exact execRendezvousSet_keeps (everyPart_all _) (.refl s)
  | ringPortUp => rw [exec_ringPortUp]; exact execRingPortUp_keeps (everyPart_all _) (.refl s)
  | ringPortDown => rw [exec_ringPortDown]; exact execRingPortDown_keeps (everyPart_all _) (.refl s)
  | ringSwitchSettle => rw [exec_ringSwitchSettle]; exact execRingSwitchSettle_keeps (everyPart_all _) (.refl s)
  | ringLinkWaitExpiry => rw [exec_ringLinkWaitExpiry]; exact execRingLinkWaitExpiry_keeps (everyPart_all _) (.refl s)
  | ringRetryExpiry => rw [exec_ringRetryExpiry]; exact execRingRetryExpiry_keeps (everyPart_all _) (.refl s)
  | ringBeaconRx => rw [exec_ringBeaconRx]; exact execRingBeaconRx_keeps (everyPart_all _) (.refl s)
  | ringDataRx => rw [exec_ringDataRx]; exact execRingDataRx_keeps (everyPart_all _) (.refl s)
  | ringTransitFrame => rw [exec_ringTransitFrame]; exact execRingTransitFrame_keeps (everyPart_all _) (.refl s)
  | ringBadMsgType => rw [exec_ringBadMsgType]; exact execRingBadMsgType_keeps (everyPart_all _) (.refl s)
  | ringPortTxStart => rw [exec_ringPortTxStart]; exact execRingPortTxStart_keeps (everyPart_all _) (.refl s)
  | ringCommandRx => rw [exec_ringCommandRx]; exact execRingCommandRx_keeps (everyPart_all _) (.refl s)
  | mb3CommandInject => rw [exec_mb3CommandInject]; exact execMb3CommandInject_keeps (everyPart_all _) (.refl s)
  | ringResponseRx => rw [exec_ringResponseRx]; exact execRingResponseRx_keeps (everyPart_all _) (.refl s)
  | ringTableUpdateRx => rw [exec_ringTableUpdateRx]; exact execRingTableUpdateRx_keeps (everyPart_all _) (.refl s)
  | ringSummaryRx => rw [exec_ringSummaryRx]; exact execRingSummaryRx_keeps (everyPart_all _) (.refl s)
  | summaryTimer => rw [exec_summaryTimer]; exact execSummaryTimer_keeps (everyPart_all _) (.refl s)
  | ringClaimRx => rw [exec_ringClaimRx]; exact execRingClaimRx_keeps (everyPart_all _) (.refl s)
  | rendezvousInstant => rw [exec_rendezvousInstant]; exact execRendezvousInstant_keeps (everyPart_all _) (.refl s)
  | rdvWindowOpen => rw [exec_rdvWindowOpen]; exact execRdvWindowOpen_keeps (everyPart_all _) (.refl s)
  | rdvWindowEnd => rw [exec_rdvWindowEnd]; exact execRdvWindowEnd_keeps (everyPart_all _) (.refl s)
  | rendezvousRx => rw [exec_rendezvousRx]; exact execRendezvousRx_keeps (everyPart_all _) (.refl s)
  | lockstepMismatch => rw [exec_lockstepMismatch]; exact execLockstepMismatch_keeps (everyPart_all _) (.refl s)
  | sramUncorrectable => rw [exec_sramUncorrectable]; exact execSramUncorrectable_keeps (everyPart_all _) (.refl s)
  | wdtStage1Expiry => rw [exec_wdtStage1Expiry]; exact execWdtStage1Expiry_keeps (everyPart_all _) (.refl s)
  | wdtResetExpiry => rw [exec_wdtResetExpiry]; exact execWdtResetExpiry_keeps (everyPart_all _) (.refl s)
  | lastGaspDone => rw [exec_lastGaspDone]; exact execLastGaspDone_keeps (everyPart_all _) (.refl s)
  | autoRestartExpiry => rw [exec_autoRestartExpiry]; exact execAutoRestartExpiry_keeps (everyPart_all _) (.refl s)
  | availabilityWrite => rw [exec_availabilityWrite]; exact execAvailabilityWrite_keeps (everyPart_all _) (.refl s)
  | heartbeatTick => rw [exec_heartbeatTick]; exact execHeartbeatTick_keeps (everyPart_all _) (.refl s)
  | logRead => rw [exec_logRead]; exact execLogRead_keeps (everyPart_all _) (.refl s)
  | faultRead => rw [exec_faultRead]; exact execFaultRead_keeps (everyPart_all _) (.refl s)
  | counterRead => rw [exec_counterRead]; exact execCounterRead_keeps (everyPart_all _) (.refl s)
  | statusRead => rw [exec_statusRead]; exact execStatusRead_keeps (everyPart_all _) (.refl s)
  | watchdogSet => rw [exec_watchdogSet]; exact execWatchdogSet_keeps (everyPart_all _) (.refl s)
  | logClear => rw [exec_logClear]; exact execLogClear_keeps (everyPart_all _) (.refl s)
  | logClearDone => rw [exec_logClearDone]; exact execLogClearDone_keeps (everyPart_all _) (.refl s)
  | commandRecorded => rw [exec_commandRecorded]; exact execCommandRecorded_keeps (everyPart_all _) (.refl s)
  | doorbellOverrun => rw [exec_doorbellOverrun]; exact execDoorbellOverrun_keeps (everyPart_all _) (.refl s)
  | pcieLinkUp => rw [exec_pcieLinkUp]; exact execPcieLinkUp_keeps (everyPart_all _) (.refl s)
  | standbyRelocked => rw [exec_standbyRelocked]; exact execStandbyRelocked_keeps (everyPart_all _) (.refl s)
  | wbPreambleDetected => rw [exec_wbPreambleDetected]; exact execWbPreambleDetected_keeps (everyPart_all _) (.refl s)
  | wbRxRestart => rw [exec_wbRxRestart]; exact execWbRxRestart_keeps (everyPart_all _) (.refl s)
  | nbPreambleDetected => rw [exec_nbPreambleDetected]; exact execNbPreambleDetected_keeps (everyPart_all _) (.refl s)
  | nbRxWindowPower => rw [exec_nbRxWindowPower]; exact execNbRxWindowPower_keeps (everyPart_all _) (.refl s)
  | nbRequestLatest => rw [exec_nbRequestLatest]; exact execNbRequestLatest_keeps (everyPart_all _) (.refl s)
  | blankTailExpiry => rw [exec_blankTailExpiry]; exact execBlankTailExpiry_keeps (everyPart_all _) (.refl s)

/-- The queue is no part of the invariant. -/
theorem inv_pending {s : State} {l : List Instr} (h : Inv s) : Inv { s with pending := l } :=
  ⟨h.mram, h.stage, h.push, h.freeze, h.mode, h.warm, h.auto, h.trans, h.pages, h.doms, h.counters, h.sensors⟩

theorem inv_tick {s : State} (h : Inv s) : Inv (tick s) := (tick_keeps (pm := everyPart) rfl (.refl s)).inv h

theorem inv_exec {i : Instr} {s t : State} (h : Inv s) (e : exec i s = .next t) : Inv t := (exec_keeps i s t e).inv h

end Sys2Proof.Machine

namespace Sys2Proof
open Sys2Proof.Machine

/-- Settles O42: the memories of the reset state are empty, its mode and targets are legal codes, its tables have their lengths. -/
theorem resetMeetsInvariant : Obligations.ResetMeetsInvariant where
  mram := rfl
  stage := rfl
  push := rfl
  freeze := rfl
  mode := by decide
  warm := by decide
  auto := by decide
  trans := rfl
  pages := rfl
  doms := rfl
  counters := rfl
  sensors := rfl

/-- Settles O43: a step is a tick, or the command at the front on the state without it. -/
theorem everyStepKeepsInvariant : Obligations.EveryStepKeepsInvariant := by
  intro s t hinv hstep
  unfold step at hstep
  split at hstep
  case h_1 =>
    cases hstep
    exact inv_tick hinv
  case h_2 => exact inv_exec (inv_pending hinv) hstep

end Sys2Proof
end

section
/-!
What temperatures, SRAM errors and a lost SerDes clock do: a conversion and the reading that follows it, the classes of an
uncorrectable read, and the ports that go down with their clock. The statement on these events (O17) follows from them.
-/

namespace Sys2Proof.Machine
open Sys2Proof.Claim

section
variable {s : State}

/-! Temperatures (R697, R737). -/

/-- The watch on the readings arms and disarms the warning; it changes no reading. -/
theorem thermalWatch_sensors : (thermalWatch s).flt.sensors = s.flt.sensors := by
  unfold thermalWatch
  dsimp only
  split
  · split
    · simp
    · rfl
  · split
    · rfl
    · rfl

theorem thermalWatch_frame : Framed [.boot, .host, .evt, .flt, .clk, .out] s (thermalWatch s) :=
  frame_of_keeps (thermalWatch_keeps (maskOf_all _) (Keeps.refl _))

theorem execSensorConversion_stores {sensor : Nat} {q : Int} (h : s.pwr.vddAon = true ∧ sensor < 36) :
    execSensorConversion sensor q s =
      .next (thermalWatch (s.onFlt fun f => { f with sensors := setAt f.sensors sensor q })) :=
  next_onlyIf (by simp [h])

/-! Uncorrectable SRAM reads (R694), where the device runs. -/

/-- In the classes of control memory SAFE is entered. -/
theorem execSramUncorrectable_enters {cls : Nat} {addr : W32} {victim : SramVictim} (h2 : 2 ≤ s.modes.mode) (hcls : cls < 3) :
    execSramUncorrectable cls addr victim s =
      .next (enterSafe 5 ([BitVec.ofNat 8 cls, 0, 0, 0] ++ le 4 addr.toNat) (countCairn 21 s)) := by
  have h6 : cls < 6 := by omega
  refine (next_onlyIf (by simp [h2, h6])).trans (congrArg _ ?_)
  match cls, hcls with
  | 0, _ => rfl
  | 1, _ => rfl
  | 2, _ => rfl

/-- In packet memory what the victim held is lost, and counted. -/
theorem execSramUncorrectable_packet {addr : W32} {victim : SramVictim} (h2 : 2 ≤ s.modes.mode) :
    execSramUncorrectable 4 addr victim s = .next (losePacket victim (countCairn 22 (countCairn 21 s))) :=
  next_onlyIf (by simp [h2])

theorem execSramUncorrectable_source {addr : W32} {i : Nat} (h2 : 2 ≤ s.modes.mode) :
    execSramUncorrectable 5 addr (.src i) s =
      .next ((countCairn 21 s).onFwd fun f => { f with src := f.src.eraseIdx i }) :=
  next_onlyIf (by simp [h2])

theorem execSramUncorrectable_filter {addr : W32} (h2 : 2 ≤ s.modes.mode) :
    execSramUncorrectable 5 addr .filter s = .next ((countCairn 21 s).onFwd fun f => { f with rebuild := true }) :=
  next_onlyIf (by simp [h2])

/-! The SerDes clock (R84). -/

/-- The ports that lose their clock: the wired ones, then those of the ring. -/
def serdesPortsDown (s : State) : State :=
  (List.range 2).foldl (fun s p => if (ringPort s p).up then portDown p 0 s else s) ((List.range 5).foldl (fun s p => ethDown p s) s)

theorem serdesPortsDown_frame : Framed [.boot, .host, .evt, .clk, .tm, .ring, .out] s (serdesPortsDown s) := by
  refine frame_of_keeps (keeps_foldl (keeps_foldl (Keeps.refl s) fun u p k => ?wired) fun u p k => ?ring)
  case wired => exact ethDown_keeps (by decide) k
  case ring =>
    split
    · exact portDown_keeps (by decide) k
    · exact k

theorem serdesPortsDown_pwr : (serdesPortsDown s).pwr = s.pwr := serdesPortsDown_frame.2 .pwr (by decide)
theorem serdesPortsDown_outs : (serdesPortsDown s).outs = s.outs := serdesPortsDown_frame.2 .outs (by decide)
theorem serdesPortsDown_modes : (serdesPortsDown s).modes = s.modes := serdesPortsDown_frame.2 .modes (by decide)

/-- The ports go down; then, in HOLD with the outputs supplied, the pass-through of the ring stops as well. -/
theorem execSerdesRefclkFail_eq : execSerdesRefclkFail s = .next (onlyIf s.pwr.refclkSerdes (fun s =>
    let t := serdesPortsDown (s.onPwr fun p => { p with refclkSerdes := false })
    if t.modes.mode = 1 && !t.outs.z then t.onOuts fun o => { o with ringTx := .disabled } else t) s) := by
  unfold execSerdesRefclkFail serdesPortsDown
  rfl

theorem execSerdesRefclkFail_hold (h : s.pwr.refclkSerdes = true) (h1 : s.modes.mode = 1) (hz : s.outs.z = false) :
    execSerdesRefclkFail s = .next ((serdesPortsDown (s.onPwr fun p => { p with refclkSerdes := false })).onOuts
      fun o => { o with ringTx := .disabled }) := by
  rw [execSerdesRefclkFail_eq, next_onlyIf h]
  dsimp only
  rw [if_pos (by simp [serdesPortsDown_modes, serdesPortsDown_outs, h1, hz])]

end

end Sys2Proof.Machine

namespace Sys2Proof
open Sys2Proof.Machine Sys2Proof.Claim

/-- Settles O17: each event's condition holds, so it has its effect, whose frame the laws of the row give. -/
theorem faultEventsTakeEffect : Obligations.FaultEventsTakeEffect := by
  refine ⟨?conversion, ?control, ?source, ?filter, ?matcher, ?serdes⟩
  case conversion =>
    intro s sensor q h
    exact does_of_keeps (execSensorConversion_keeps (maskOf_all _) (Keeps.refl s)) (execSensorConversion_stores h)
      ⟨thermalWatch_sensors, thermalWatch_frame.2 .modes (by decide)⟩
  case control =>
    intro s cls addr victim ⟨h2, h6, hcls⟩
    rw [exec_sramUncorrectable]
    obtain ⟨hmode, houts, hcause, -⟩ := enterSafe_after (t := countCairn 21 s) (.of_running h2 h6) rfl rfl
    exact does_of_keeps (execSramUncorrectable_keeps (maskOf_all _) (Keeps.refl s)) (execSramUncorrectable_enters h2 hcls)
      ⟨hmode, hcause, houts⟩
  case source =>
    rintro s _ addr _ i ⟨h2, rfl, rfl⟩
    rw [exec_sramUncorrectable]
    exact does_of_keeps (execSramUncorrectable_keeps (maskOf_all _) (Keeps.refl s)) (execSramUncorrectable_source h2) ⟨rfl, rfl, rfl⟩
  case filter =>
    rintro s _ addr _ ⟨h2, rfl, rfl⟩
    rw [exec_sramUncorrectable]
    exact does_of_keeps (execSramUncorrectable_keeps (maskOf_all _) (Keeps.refl s)) (execSramUncorrectable_filter h2) ⟨rfl, rfl⟩
  case matcher =>
    rintro s _ addr _ ⟨h2, rfl, rfl⟩
    rw [exec_sramUncorrectable]
    exact does_of_keeps (execSramUncorrectable_keeps (maskOf_all _) (Keeps.refl s)) (execSramUncorrectable_packet h2) ⟨rfl, rfl⟩
  case serdes =>
    intro s ⟨hclk, h1, hz⟩
    rw [exec_serdesRefclkFail]
    refine does_of_keeps (execSerdesRefclkFail_keeps (maskOf_all _) (Keeps.refl s)) (execSerdesRefclkFail_hold hclk h1 hz) ⟨?_, rfl, ?_⟩
    · rw [State.onOuts_pwr, serdesPortsDown_pwr, State.onPwr_pwr]
    · rw [State.onOuts_modes, serdesPortsDown_modes, State.onPwr_modes]

end Sys2Proof
end

section
/-!
How long a profile selection lasts (R96): every entry to SAFE and every restart leaves it, by whatever path SYS_RESTART is written;
HOLD and the loss of VDD_AON lose it. The statements on the selection (O52) and on a fall of RESET_N (O51) follow.
-/

namespace Sys2Proof.Machine
open Sys2Proof.Claim

section
variable {s t : State} {c : Cmd} {a : Ans} {o : OpSpec} {x : Option OpSpec}

/-! Events, responses and writes to MRAM. -/

@[simp] theorem onPage_boot {mb : Nat} {f : MbPage → MbPage} : (onPage mb f s).boot = s.boot := rfl
@[simp] theorem onDom_boot {n : Nat} {f : Domain → Domain} : (onDom n f s).boot = s.boot := rfl

@[simp] theorem mramWrite_sel {n : Nat} {b : List Byte} : (mramWrite n b s).boot.sel = s.boot.sel := rfl

@[simp] theorem logRec_sel {r : EvtRec} : (logRec r s).boot.sel = s.boot.sel := by
  unfold logRec
  dsimp only
  split <;> simp

@[simp] theorem raise_sel {code : Nat} {obj : Option Nat} {pl : List Byte} {mb : Nat} {q : W16} :
    (raise code obj pl s mb q).boot.sel = s.boot.sel := by
  unfold raise
  split
  · rfl
  · dsimp only
    split
    · rw [ringRoute_frame.2 .boot (by decide)]; simp
    · simp

theorem foldl_sel {α : Type} {f : State → α → State} (h : ∀ t y, (f t y).boot.sel = t.boot.sel) (l : List α) :
    (l.foldl f s).boot.sel = s.boot.sel := by
  induction l generalizing s with
  | nil => rfl
  | cons y l ih => exact ih.trans (h s y)

@[simp] theorem cmdDone_sel : (cmdDone c a s).boot.sel = s.boot.sel := raise_sel

@[simp] theorem post_sel : (post c a s).boot.sel = s.boot.sel := by
  unfold post
  split
  · rfl
  simp only [apply_ite State.boot, apply_ite Boot.sel, cmdDone_sel, ite_self]
  split
  · rfl
  · simp only [apply_ite State.boot, raiseVec_boot, ringBack_boot, onPage_boot, ite_self]

/-! The entry to SAFE. -/

@[simp] theorem expireSleep_sel {b0 b1 : Nat} : (expireSleep b0 b1 s).boot.sel = s.boot.sel :=
  foldl_sel (fun _ _ => raise_sel) _

@[simp] theorem loadCounter_boot : (loadCounter s).boot = s.boot := loadCounter_frame.2 .boot (by decide)

@[simp] theorem leaveVigil_sel : (leaveVigil s).boot.sel = s.boot.sel := by
  unfold leaveVigil
  split
  · rfl
  · simp [apply_ite State.boot]

@[simp] theorem startGasp_sel {code : Nat} : (startGasp code s).boot.sel = s.boot.sel := by
  unfold startGasp
  dsimp only
  split
  · rfl
  · rfl
  · split <;> rfl

@[simp] theorem raiseSafe_sel {code : Nat} {later : Bool} : (raiseSafe code later s).boot.sel = s.boot.sel := raise_sel
@[simp] theorem endAllLongs_sel {keep : Cmd → Bool} : (endAllLongs keep s).boot.sel = s.boot.sel := rfl

@[simp] theorem enterMode_sel {mode cause us : Nat} : (enterMode mode cause us s).boot.sel = s.boot.sel := by
  unfold enterMode
  have hdrop : ((if mode = 3 then [4, 5, 6, 7] else []).foldl (fun s d => dropDomain d s) s).boot.sel = s.boot.sel :=
    foldl_sel (fun t d => by simp) _
  simp only [raise_sel, refreshOuts_boot, State.onFe_boot, State.onModes_boot, apply_ite State.boot, State.onRing_boot, ite_self]
  exact hdrop

@[simp] theorem enterSafe_sel {code : Nat} {detail : List Byte} {keep : Cmd → Bool} :
    (enterSafe code detail s keep).boot.sel = s.boot.sel := by
  unfold enterSafe
  split
  · rfl
  split
  · rfl
  split
  · simp
  · simp [apply_ite State.boot, apply_ite Boot.sel]

/-! Restarts. -/

/-- What a boot starts from has the selection still. -/
theorem bootState_sel : (bootState s).boot.sel = s.boot.sel := rfl

@[simp] theorem restart_sel : (restart s).boot.sel = s.boot.sel := by
  simp only [restart, State.onOuts_boot, bootState_sel, State.onBoot_boot, State.onModes_boot, onPage_boot, apply_ite State.boot,
    State.onClk_boot, loadCounter_boot, ite_self]

@[simp] theorem watchdogRecord_sel : (watchdogRecord s).boot.sel = s.boot.sel := by
  unfold watchdogRecord
  split
  · rfl
  · simp

@[simp] theorem autoRestart_sel : (autoRestart s).boot.sel = s.boot.sel := by
  unfold autoRestart
  dsimp only
  split
  · rfl
  · simp

theorem onlyIf_sel {b : Bool} {f : State → State} (h : (f s).boot.sel = s.boot.sel) : (onlyIf b f s).boot.sel = s.boot.sel := by
  unfold onlyIf
  split
  · exact h
  · rfl

/-! A command whose effect leaves the selection. -/

/-- The effect of an opcode leaves the profile selection. -/
def KeepsSel (o : OpSpec) : Prop := ∀ c s, (o.body c s).2.boot.sel = s.boot.sel

theorem specSysRestart_keepsSel : KeepsSel specSysRestart := by
  intro c s
  simp only [specSysRestart]
  split
  · exact restart_sel
  · rfl

theorem perform_sel (h : KeepsSel o) : (perform o c s).2.boot.sel = s.boot.sel := by
  unfold perform
  simp only [apply_ite Prod.snd, apply_ite State.boot, apply_ite Boot.sel, State.onMbx_boot, h c s, ite_self]

theorem engage_sel (h : KeepsSel o) : (engage o c s).2.boot.sel = s.boot.sel := by
  unfold engage
  split
  · rfl
  · split
    · simp
    · exact perform_sel h

theorem judge_sel (h : KeepsSel o) : (judge o c s).2.boot.sel = s.boot.sel := by
  unfold judge
  simp only [apply_ite Prod.snd, apply_ite State.boot, apply_ite Boot.sel, engage_sel h, ite_self]

theorem serve_sel {seqOk hdr : Bool} (h : ∀ o, x = some o → KeepsSel o) : (serve x c seqOk hdr s).boot.sel = s.boot.sel := by
  unfold serve
  split
  · simp
  · split
    · simp
    · cases x with
      | none => simp
      | some o => exact post_sel.trans (judge_sel (h o rfl))

theorem ringBell_sel {mb : Nat} {path : Path} {v : W16} (h : ∀ o, x = some o → KeepsSel o) :
    (ringBell x mb path v s).boot.sel = s.boot.sel := by
  unfold ringBell
  simp only [apply_ite State.boot, apply_ite Boot.sel, serve_sel h, onPage_boot, State.onEvt_boot, countCairn_boot, ite_self]

/-! SYS_RESTART, by whatever path and over whatever command area it is written (R703, R740). -/

theorem cairnPost_sel : (cairnPost c a s).boot.sel = s.boot.sel := by
  unfold cairnPost
  simp only [apply_ite State.boot, onPage_boot, post_sel, ite_self]

theorem cairnBell_sel {path : Path} {v : W16} : (cairnBell path v s).boot.sel = s.boot.sel := by
  unfold cairnBell
  simp only [apply_ite State.boot, apply_ite Boot.sel, cairnPost_sel, onPage_boot, specSysRestart_keepsSel _ _, ite_self]

/-- The opcode that a doorbell then finds: that of SYS_RESTART, or a part of it where the page's command area is cut off. -/
theorem fld_patch_restart {d : Doorbell} {p b : List Byte} :
    fld (patch b 0 (cmdArea 0x0102 d p)) 0 2 = 0x0102 ∨ fld (patch b 0 (cmdArea 0x0102 d p)) 0 2 = 2 ∨
      fld (patch b 0 (cmdArea 0x0102 d p)) 0 2 = 0 := by
  match b with
  | [] => exact .inr (.inr rfl)
  | [_] => exact .inr (.inl rfl)
  | _ :: _ :: _ => exact .inl rfl

theorem specOf_restart : specOf 0x0102 = some specSysRestart := rfl

/-- Whatever of its opcode the page holds, what a doorbell of SYS_RESTART does leaves the selection. -/
theorem bell_restart_sel {mb : Nat} {path : Path} {v : W16}
    (h : fld (getPage s mb).cmd 0 2 = 0x0102 ∨ fld (getPage s mb).cmd 0 2 = 2 ∨ fld (getPage s mb).cmd 0 2 = 0) :
    (bell mb path v s).boot.sel = s.boot.sel := by
  unfold bell
  dsimp only
  split
  · exact cairnBell_sel
  · refine ringBell_sel fun o ho => ?_
    rcases h with h | h | h <;> rw [h] at ho
    · cases specOf_restart.symm.trans ho
      exact specSysRestart_keepsSel
    · cases (show specOf 2 = none from rfl).symm.trans ho
    · cases (show specOf 0 = none from rfl).symm.trans ho

theorem fld_page_restart {mb : Nat} {d : Doorbell} {p : List Byte} :
    let t := onPage mb (fun g => { g with cmd := patch g.cmd 0 (cmdArea 0x0102 d p) }) s
    fld (getPage t mb).cmd 0 2 = 0x0102 ∨ fld (getPage t mb).cmd 0 2 = 2 ∨ fld (getPage t mb).cmd 0 2 = 0 := by
  intro t
  by_cases hp : mb < s.mbx.pages.length
  · rw [getPage_onPage hp]
    exact fld_patch_restart
  · have hnone : getPage t mb = {} := by
      rw [getPage, List.getD_eq_getElem?_getD, List.getElem?_eq_none (by rw [onPage_pages_length]; exact Nat.le_of_not_lt hp)]
      rfl
    exact .inr (.inr (by rw [hnone]; rfl))

theorem writeCommand_restart_sel {d : Doorbell} {p : List Byte} : (writeCommand 0x0102 d p s).boot.sel = s.boot.sel := by
  unfold writeCommand
  dsimp only
  split
  · exact (bell_restart_sel fld_page_restart).trans (by rw [onPage_boot])
  · rw [refuseWrite_frame.2 .boot (by decide)]

/-! The rows that restart the device or enter SAFE, from every state. -/

theorem execSysRestart_sel {d : Doorbell} {p : List Byte} {b : Bool} (e : execSysRestart d p b s = .next t) : t.boot.sel = s.boot.sel := by
  cases e
  exact writeCommand_restart_sel

theorem execWdtResetExpiry_sel {b : Bool} (e : execWdtResetExpiry b s = .next t) : t.boot.sel = s.boot.sel := by
  cases e
  exact onlyIf_sel (by simp)

theorem execWdtStage1Expiry_sel (e : execWdtStage1Expiry s = .next t) : t.boot.sel = s.boot.sel := by
  cases e
  exact onlyIf_sel (by simp)

/-- Whether the restart is made, refused at its limit, or waits for the last-gasp write (R704). -/
theorem execAutoRestartExpiry_sel {b : Bool} (e : execAutoRestartExpiry b s = .next t) : t.boot.sel = s.boot.sel := by
  cases e
  refine onlyIf_sel ?_
  simp only [apply_ite State.boot, apply_ite Boot.sel, autoRestart_sel, State.onFlt_boot, ite_self]

/-- A row that enters SAFE where its cause can arise, after an effect f of its own on other parts of the state. -/
theorem sel_of_enterSafe {b : Bool} {code : Nat} {detail : List Byte} {f : State → State} (hf : (f s).boot = s.boot)
    (e : (.next (onlyIf b (fun s => enterSafe code detail (f s)) s) : Out) = .next t) : t.boot.sel = s.boot.sel := by
  cases e
  exact onlyIf_sel (enterSafe_sel.trans (congrArg Boot.sel hf))

/-! HOLD and OFF (R61, R76). -/

theorem enterHold_sel : (enterHold s).boot.sel = none := rfl
theorem powerless_sel : (powerless s).boot.sel = none := rfl

end

end Sys2Proof.Machine

namespace Sys2Proof
open Sys2Proof.Machine Sys2Proof.Claim

/-- Settles O51: the fall enters HOLD, which keeps MRAM and the last-gasp write; the end of a stay in SERVE touches neither. -/
theorem resetNFallEntersHold : Obligations.ResetNFallEntersHold := by
  intro s h
  exact does_of_keeps (execResetNFall_keeps (maskOf_all _) (Keeps.refl s)) (execResetNFall_hold h) ⟨rfl, rfl, rfl, rfl⟩

/-- Settles O52: the opcode stores the selection; a restart and the entry to SAFE keep it; HOLD and OFF have none. -/
theorem profileSelectionLife : Obligations.ProfileSelectionLife := by
  refine ⟨?select, ?survives, ?resetN, ?pwrOk, ?off⟩
  case select =>
    intro s d p hready hprof
    exact answers_ok_of_keeps hready (specProfileSelect_keeps (by decide) (copied_keeps (by decide))) (specProfileSelect_body hprof) rfl
  case survives =>
    intro s t d p b n v w h
    rcases h with hsys | hwdtReset | hwdtStage1 | hauto | hsafeN | hbrownout | hrefclkFail | hrefclkTimeout | hthermal | hlockstep
    · exact execSysRestart_sel hsys
    · exact execWdtResetExpiry_sel hwdtReset
    · exact execWdtStage1Expiry_sel hwdtStage1
    · exact execAutoRestartExpiry_sel hauto
    · cases hsafeN
      exact enterSafe_sel
    · exact sel_of_enterSafe (f := id) rfl hbrownout
    · exact sel_of_enterSafe rfl hrefclkFail
    · exact sel_of_enterSafe rfl hrefclkTimeout
    · exact sel_of_enterSafe (f := id) rfl hthermal
    · exact sel_of_enterSafe rfl hlockstep
  case resetN => exact fun s haon hok hrst => ⟨_, execResetNFall_hold ⟨haon, hok, hrst⟩, enterHold_sel⟩
  case pwrOk => exact fun s haon hok => ⟨_, execPwrOkFall_hold ⟨haon, hok⟩, enterHold_sel⟩
  case off => exact fun s haon => ⟨_, next_onlyIf haon, powerless_sel⟩

end Sys2Proof
end

section
/-!
The queue: a step takes its front, and a command leaves it alone. What the reset state holds. The statements on the front command
(O39), on the queue and the open values (O45) and on the reset state (O41) follow.
-/

namespace Sys2Proof
open Sys2Proof.Machine

/-- Settles O39: a queue that is not empty selects the command arm of `step`. -/
theorem stepRunsFrontCommand : Obligations.StepRunsFrontCommand := by
  intro s c rest h
  unfold step
  rw [h]

/-- Settles O45: the law of `exec` holds both clauses, whatever parts the command changes. -/
theorem commandsLeaveTheQueue : Obligations.CommandsLeaveTheQueue := by
  intro c s t h
  have hkeeps := exec_keeps c s t h
  exact ⟨hkeeps.pending, hkeeps.drawn⟩

/-- Settles O41: the reset state is a closed term; its status page and its four mailbox pages are evaluated. -/
theorem resetStateOfThePage : Obligations.ResetStateOfThePage := by
  have hstatus : statusBytes State.reset = [0x00, 0x80, 0x24, 0x00] ++ [0, 0, 0, 0] ++ [0, 0, 0, 0] ++ [0, 0, 0, 0] ++ [0, 0, 0, 0] := by
    decide
  exact ⟨rfl, rfl, rfl, rfl, rfl, rfl, rfl, hstatus, by decide, rfl, rfl, rfl, rfl, rfl, rfl⟩

end Sys2Proof
end

section
/-!
What posting a response does (R113, R116, R119), where the command is of the host or of the service port and asks for no notification.
The statement on responses (O47) follows.
-/

namespace Sys2Proof.Machine

section
variable {c : Cmd} {a : Ans} {s : State}

/-- A page once a response is posted in it (R113, R116). -/
def MbPage.answered (c : Cmd) (r : List Byte) (g : MbPage) : MbPage :=
  { g with rsp := patch g.rsp 0 r, lastSeq := c.seq, busy := false, done := true }

theorem post_later (h : a.later = true) : post c a s = s := if_pos h

theorem getPage_congr {t : State} {mb : Nat} (h : t.mbx = s.mbx) : getPage t mb = getPage s mb := by simp only [getPage, h]
@[simp] theorem getPage_raiseVec {v mb : Nat} : getPage (raiseVec v s) mb = getPage s mb := getPage_congr raiseVec_mbx
theorem getPage_onPage_ne {mb o : Nat} {f : MbPage → MbPage} (h : o ≠ mb) : getPage (onPage mb f s) o = getPage s o := by
  simp only [getPage, onPage, State.onMbx, updAt, List.getD_eq_getElem?_getD, List.getElem?_modify, if_neg h.symm, Option.map_eq_map,
    Option.map_id']

theorem raiseVec_masked {v : Nat} (h : (Tab.getD s.host.msixTable (4 * v + 3) 0).getLsbD 0 = true) :
    raiseVec v s = s.onHost fun x => { x with msixPend := x.msixPend ||| (1 <<< v : BitVec 128) } := if_pos h
theorem raiseVec_unmasked {v : Nat} (h : (Tab.getD s.host.msixTable (4 * v + 3) 0).getLsbD 0 = false) :
    raiseVec v s = s.emit (.msix v) := if_neg (by rw [h]; decide)

/-- The response is put into the page, then the page's interrupt follows. -/
theorem post_unnotified (hnow : a.later = false) (hreplay : c.path ≠ .replay) (hring : c.path ≠ .ring)
    (hpage : c.mb < s.mbx.pages.length) (hflags : c.flags.getLsbD 0 = false) :
    post c a s = if (getPage s c.mb).irqEn then raiseVec (getPage s c.mb).vec.toNat (onPage c.mb (MbPage.answered c (rspBytes s c a)) s)
      else onPage c.mb (MbPage.answered c (rspBytes s c a)) s := by
  have hlocal : c.path = .bar ∨ c.path = .svc := by
    cases hp : c.path with
    | bar => exact .inl rfl
    | svc => exact .inr rfl
    | ring => exact absurd hp hring
    | replay => exact absurd hp hreplay
  have hbar : ¬ (Path.bar == Path.ring) = true := by decide
  have hsvc : ¬ (Path.svc == Path.ring) = true := by decide
  unfold post
  rcases hlocal with hp | hp
  · simp only [hnow, hflags, hp, getPage_onPage hpage, Bool.false_and, Bool.false_eq_true, if_false, if_neg hbar]
    rfl
  · simp only [hnow, hflags, hp, getPage_onPage hpage, Bool.false_and, Bool.false_eq_true, if_false, if_neg hsvc]
    rfl

/-- The response stands in the command's page, whose other fields stay, whether or not the page's interrupt is enabled. -/
theorem getPage_post_unnotified (hnow : a.later = false) (hreplay : c.path ≠ .replay) (hring : c.path ≠ .ring)
    (hpage : c.mb < s.mbx.pages.length) (hflags : c.flags.getLsbD 0 = false) :
    getPage (post c a s) c.mb = (getPage s c.mb).answered c (rspBytes s c a) := by
  rw [post_unnotified hnow hreplay hring hpage hflags]
  split
  · rw [getPage_raiseVec, getPage_onPage hpage]
  · rw [getPage_onPage hpage]

end

end Sys2Proof.Machine

namespace Sys2Proof
open Sys2Proof.Machine Sys2Proof.Claim

/-- Settles O47: the page takes the response, then its vector, where enabled, is raised or set pending. -/
theorem responsePosted : Obligations.ResponsePosted := by
  refine ⟨fun c a s => post_later, fun c a s hnow hreplay hring hpage hflags => ?_⟩
  have hpost := post_unnotified (a := a) hnow hreplay hring hpage hflags
  refine ⟨?page, ?others, ?longs, ?frame, ?raised, ?masked⟩
  case page => exact getPage_post_unnotified hnow hreplay hring hpage hflags
  case others =>
    intro o ho
    rw [hpost]
    split
    · rw [getPage_raiseVec, getPage_onPage_ne ho]
    · rw [getPage_onPage_ne ho]
  case longs =>
    rw [hpost]
    split
    · rw [raiseVec_mbx]; rfl
    · rfl
  case frame =>
    rw [hpost]
    split
    · exact frame_of_keeps (raiseVec_keeps (by decide) (onPage_keeps (by decide) (Keeps.refl s)))
    · exact onPage_frame
  case raised =>
    intro hirq hmask
    rw [hpost, if_pos hirq, raiseVec_unmasked (s := onPage _ _ s) hmask]
    exact ⟨rfl, rfl⟩
  case masked =>
    intro hirq hmask
    rw [hpost, if_pos hirq, raiseVec_masked (s := onPage _ _ s) hmask]
    exact ⟨rfl, rfl⟩

end Sys2Proof
end

section
/-!
PROFILE_READ (R152): the range that it refuses. The statement on its answers (O53) follows.
-/

namespace Sys2Proof.Machine

section
variable {c : Cmd} {s : State}

/-- A COUNT or an OFFSET out of range, or a range that runs past the image, is refused, whatever PROFILE is. -/
theorem specProfileRead_body_range (h : c.u 18 2 % 4 ≠ 0 ∨ c.u 18 2 < 4 ∨ 480 < c.u 18 2 ∨ c.u 20 4 % 4 ≠ 0 ∨
    65536 < c.u 20 4 + c.u 18 2) : specProfileRead.body c s = (eArg, s) :=
  if_pos (by simp only [Bool.or_eq_true, decide_eq_true_eq, bne_iff_ne]; omega)

theorem specProfileRead_rsv : specProfileRead.rsv c = decide (c.u 17 1 = 0) := by simp [specProfileRead, Cmd.zero]

end

end Sys2Proof.Machine

namespace Sys2Proof
open Sys2Proof.Machine Sys2Proof.Claim

/-- Settles O53: a range within the image is answered with its bytes of MRAM, any other with E_ARG_RANGE. -/
theorem profileReadReturnsTheImage : Obligations.ProfileReadReturnsTheImage := by
  refine ⟨fun s d p hready => ⟨?bytes, ?refused⟩, fun _ _ => rfl, rfl, fun c => specProfileRead_rsv⟩
  case bytes =>
    intro hprof hcount4 hleast hmost hoff4 hend
    exact answers_ok_of_keeps hready (specProfileRead_keeps (by decide) (copied_keeps (by decide)))
      (specProfileRead_body hprof hcount4 hleast hmost hoff4 hend) trivial
  case refused =>
    intro hrange
    exact answers_of_keeps hready (specProfileRead_keeps (by decide) (copied_keeps (by decide)))
      (specProfileRead_body_range hrange) (by decide) trivial

end Sys2Proof
end

section
/-!
Registers over PCIe and the service port (R107 to R112, R124 to R127, R132): what an access does where its conditions hold, one
equation per kind of access. The statement on registers (O6) follows.
-/

namespace Sys2Proof.Machine

section
variable {s : State} {off mb r : Nat} {v : W32}

/-! Writes over PCIe (R107 to R110, R132). -/

theorem mayWrite_bar_mb0 (h : s.host.link = true) : mayWrite 0 .bar s = true := by simp [mayWrite, h]

theorem pageWrite_cmd (hr : r < 0x200) (hw : mayWrite mb .bar s = true) :
    pageWrite mb r v s = onPage mb (fun g => { g with cmd := patch g.cmd r (le 4 v.toNat) }) s :=
  (if_pos hr).trans (if_pos hw)

theorem pageWrite_ctrl : pageWrite mb 0x40C v s =
    onPage mb (fun g => { g with vec := v.setWidth 7, irqEn := v.getLsbD 7, hostWriteEn := mb = 2 && v.getLsbD 8 }) s := rfl

/-- An offset into one of the four mailbox pages of BAR0 is that page's register. -/
theorem bar0Write_page (hoff : off = 0x1000 * mb + r) (hmb : mb ≤ 3) (hr : r < 0x1000) :
    bar0Write off v s = pageWrite mb r v s := by
  unfold bar0Write
  rw [if_pos (by omega), show off / 0x1000 = mb by omega, show off % 0x1000 = r by omega]

theorem bar2Write_push (hlo : 0x40000 ≤ off) (hhi : off < 0xC0000) :
    bar2Write off v s = s.onHost fun h => { h with push := memWrite h.push (off - 0x40000) (le 4 v.toNat) } :=
  (if_neg (by omega)).trans (if_pos hhi)

theorem execRegisterWrite_bar0 (hlink : s.host.link = true) (hoff4 : off % 4 = 0) (hoff : off < 0x10000) :
    execRegisterWrite false off v s = .next ((bar0Write off v s).onHost fun h => { h with reply := .none }) := by
  unfold execRegisterWrite
  rw [if_neg (by simp [hlink]), if_neg (by simp [hoff4]; omega), if_neg (by simp)]
  rfl

theorem execRegisterWrite_bar2 (hlink : s.host.link = true) (hoff4 : off % 4 = 0) (hlo : 0x40000 ≤ off) (hhi : off < 0x100000) :
    execRegisterWrite true off v s = .next ((bar2Write off v s).onHost fun h => { h with reply := .none }) := by
  unfold execRegisterWrite
  rw [if_neg (by simp [hlink]), if_neg (by simp [hoff4]; omega), if_neg (by simp; omega)]
  rfl

/-- A write to a register of a mailbox page. -/
theorem execRegisterWrite_page (hlink : s.host.link = true) (hoff : off = 0x1000 * mb + r) (hmb : mb ≤ 3) (hr : r < 0x1000)
    (hr4 : r % 4 = 0) :
    execRegisterWrite false off v s = .next ((pageWrite mb r v s).onHost fun h => { h with reply := .none }) := by
  rw [execRegisterWrite_bar0 hlink (by omega) (by omega), bar0Write_page hoff hmb hr]

/-- An unaligned write is a bad access (R108). -/
theorem execRegisterWrite_unaligned {bar : Bool} (hlink : s.host.link = true) (hoff4 : off % 4 ≠ 0) :
    execRegisterWrite bar off v s = execBarBadAccess true s :=
  (if_neg (by simp [hlink])).trans (if_pos (by simp [hoff4]))

/-! Bad accesses and ring registers. -/

theorem execBarBadAccess_counted {write : Bool} (hlink : s.host.link = true) :
    execBarBadAccess write s = .next ((countCairn 25 s).onHost fun h => { h with reply := if write then .none else .unsupported }) :=
  next_onlyIf hlink

theorem execDropCountRead_clears {ring : BitVec 6} (hlink : s.host.link = true) :
    execDropCountRead ring s = .next ((onRingN ring.toNat (fun g => { g with dropCount := 0 }) s).onHost
      fun h => { h with reply := .data (le 4 (getRing s ring.toNat).dropCount.toNat) }) := next_onlyIf hlink

theorem getPage_onHost {f : HostIf → HostIf} : getPage (s.onHost f) mb = getPage s mb := rfl
theorem getRing_onHost_reply {n : Nat} {x : BusReply} : getRing (s.onHost fun h => { h with reply := x }) n = getRing s n := rfl

/-- HOST_IDX of a live ring that holds no events takes an index that leaves a slot free (R132, R140). -/
theorem execHostIdxWrite_taken {ring : BitVec 6} (hlink : s.host.link = true) (hen : (getRing s ring.toNat).enabled = true)
    (hstop : (getRing s ring.toNat).stopped = false) (htype : (getRing s ring.toNat).type ≠ 3)
    (hgap : (v.setWidth 16 - (getRing s ring.toNat).devIdx).toNat ≤ (getRing s ring.toNat).size - 1) :
    execHostIdxWrite ring v s = .next (onRingN ring.toNat (fun g => { g with hostIdx := v.setWidth 16 }) s) := by
  refine (next_onlyIf hlink).trans (congrArg _ ?_)
  dsimp only
  rw [getRing_onRingN, if_neg (by simp [Ring.live, hen, hstop]), if_neg htype]
  exact (if_neg (Nat.not_lt.mpr hgap)).trans (if_neg htype)

/-! The service port (R124 to R127). -/

section
variable {addr : BitVec 24} {data : List Byte}

theorem execSvcRead_reads {count : Nat} (hmode : s.modes.mode ≠ 0) (hz : s.outs.z = false) :
    execSvcRead addr count s = .next (s.onHost fun h => { h with
      reply := .data ((List.range count).map fun i => svcByte s ((addr.toNat + i) % 2 ^ 24))
      svcFlags := svcFlagsNow s }) :=
  congrArg _ (if_neg (by simp [hmode, hz]))

/-- A service-port write begins: nothing is answered yet, and byte 0 shifts out the flags of before. -/
def svcBegun (s : State) : State := s.onHost fun h => { h with reply := .none, svcFlags := svcFlagsNow s }

/-- A service-port write that is not applied is counted, and the next flags say so. -/
def svcReject (i : Nat) (s : State) : State := (countCairn i (svcBegun s)).onMbx fun m => { m with svcRejected := true }

theorem execSvcWrite_badCrc (hmode : s.modes.mode ≠ 0) (hz : s.outs.z = false) :
    execSvcWrite addr data false s = .next (svcReject 27 s) := next_onlyIf (by simp [hmode, hz])

/-- A range that begins below MB2 reaches no further than a byte that may not be written (R126). -/
theorem svc_range_unwritable {a : Nat} (hdata : data ≠ []) (hlo : a < 0x2000) :
    ((List.range data.length).all fun i => svcWritable (a + i)) = false := by
  have hfirst : ¬ svcWritable (a + 0) = true := by simp [svcWritable]; omega
  exact List.all_eq_false.2 ⟨0, List.mem_range.2 (List.length_pos_iff.2 hdata), hfirst⟩

theorem execSvcWrite_unwritable (hmode : s.modes.mode ≠ 0) (hz : s.outs.z = false)
    (hbad : ((List.range data.length).all fun i => svcWritable (addr.toNat + i)) = false) :
    execSvcWrite addr data true s = .next (svcReject 28 s) := by
  refine (next_onlyIf (by simp [hmode, hz])).trans ?_
  simp only [hbad]
  rfl

theorem execSvcWrite_cmdByte {b : Byte} (hmode : s.modes.mode ≠ 0) (hz : s.outs.z = false) (hlo : 0x2000 ≤ addr.toNat)
    (hhi : addr.toNat < 0x2200) :
    execSvcWrite addr [b] true s = .next (onPage 2 (fun g => { g with cmd := setAt g.cmd (addr.toNat - 0x2000) b })
      ((svcBegun s).onMbx fun m => { m with svcRejected := false })) := by
  refine (next_onlyIf (by simp [hmode, hz])).trans ?_
  have hw : ((List.range [b].length).all fun i => svcWritable (addr.toNat + i)) = true := by simp [svcWritable, hlo, hhi]
  have hbell : ¬ (decide (addr.toNat < 0x2404) && decide (0x2400 < addr.toNat + [b].length)) = true := by simp; omega
  have hput : ∀ t, svcPut addr.toNat b t = onPage 2 (fun g => { g with cmd := setAt g.cmd (addr.toNat - 0x2000) b }) t := by
    intro t
    simp only [svcPut, if_pos hhi]
  simp only [hw, Bool.not_true, Bool.false_eq_true, if_false, if_neg hbell, svcPutAll, hput]
  rfl

end

end

end Sys2Proof.Machine

namespace Sys2Proof
open Sys2Proof.Machine Sys2Proof.Claim

/-- Settles O6: each access has its effect, from the equation of its kind; the rows' own laws give the frames. -/
theorem registerAccessTakesEffect : Obligations.RegisterAccessTakesEffect := by
  refine ⟨?command, ?control, ?push, ?unaligned, ?badAccess, ?dropCount, ?hostIdx, ?svcRead, ?svcCrc, ?svcCommand, ?svcOutside⟩
  case command =>
    rintro s _ off v ⟨hlink, rfl, hoff4, hoff, hpages⟩
    have hexec := execRegisterWrite_page (v := v) hlink (Nat.zero_add off).symm (Nat.zero_le 3) (by omega) hoff4
    rw [pageWrite_cmd hoff (mayWrite_bar_mb0 hlink)] at hexec
    refine does_of_keeps (execRegisterWrite_keeps (maskOf_all _) (Keeps.refl s)) hexec ⟨?_, rfl⟩
    rw [getPage_onHost, getPage_onPage (by omega)]
  case control =>
    rintro s _ _ v mb ⟨hlink, rfl, rfl, hmb, hpages⟩
    have hexec := execRegisterWrite_page (v := v) (r := 0x40C) hlink rfl hmb (by decide) (by decide)
    refine does_of_keeps (execRegisterWrite_keeps (maskOf_all _) (Keeps.refl s)) hexec ?_
    rw [getPage_onHost, pageWrite_ctrl, getPage_onPage (by omega)]
    exact ⟨rfl, rfl, rfl, rfl⟩
  case push =>
    rintro s _ off v ⟨hlink, rfl, hoff4, hlo, hhi⟩
    have hexec := execRegisterWrite_bar2 (v := v) hlink hoff4 hlo (by omega)
    rw [bar2Write_push hlo hhi] at hexec
    exact does_of_keeps (execRegisterWrite_keeps (maskOf_all _) (Keeps.refl s)) hexec ⟨rfl, rfl⟩
  case unaligned =>
    rintro s bar off v ⟨hlink, hoff4, -⟩
    exact does_of_keeps (execRegisterWrite_keeps (maskOf_all _) (Keeps.refl s))
      ((execRegisterWrite_unaligned hlink hoff4).trans (execBarBadAccess_counted hlink)) ⟨rfl, rfl, rfl⟩
  case badAccess =>
    intro s write hlink
    exact does_of_keeps (execBarBadAccess_keeps (maskOf_all _) (Keeps.refl s)) (execBarBadAccess_counted hlink) ⟨rfl, rfl⟩
  case dropCount =>
    intro s ring hlink
    refine does_of_keeps (execDropCountRead_keeps (maskOf_all _) (Keeps.refl s)) (execDropCountRead_clears hlink) ⟨?_, rfl⟩
    rw [getRing_onHost_reply, getRing_onRingN]
  case hostIdx =>
    rintro s ring v ⟨hlink, hen, hstop, htype, hgap⟩
    exact does_of_keeps (execHostIdxWrite_keeps (maskOf_all _) (Keeps.refl s)) (execHostIdxWrite_taken hlink hen hstop htype hgap)
      ⟨getRing_onRingN, rfl⟩
  case svcRead =>
    rintro s addr count ⟨hmode, hz⟩
    exact does_of_keeps (execSvcRead_keeps (maskOf_all _) (Keeps.refl s)) (execSvcRead_reads hmode hz) rfl
  case svcCrc =>
    rintro s addr data _ ⟨hmode, hz, rfl⟩
    exact does_of_keeps (execSvcWrite_keeps (maskOf_all _) (Keeps.refl s)) (execSvcWrite_badCrc hmode hz) ⟨rfl, rfl, rfl⟩
  case svcCommand =>
    rintro s addr _ _ b ⟨hmode, hz, rfl, rfl, hlo, hhi, hpages⟩
    refine does_of_keeps (execSvcWrite_keeps (maskOf_all _) (Keeps.refl s)) (execSvcWrite_cmdByte hmode hz hlo hhi) ⟨?_, rfl, rfl⟩
    rw [getPage_onPage (by simp [svcBegun, hpages])]
    rfl
  case svcOutside =>
    rintro s addr data _ ⟨hmode, hz, rfl, hdata, hlo⟩
    exact does_of_keeps (execSvcWrite_keeps (maskOf_all _) (Keeps.refl s))
      (execSvcWrite_unwritable hmode hz (svc_range_unwritable hdata hlo)) ⟨rfl, rfl⟩

end Sys2Proof
end

section
/-!
Host rings (R132 to R142): which fields of a ring its vector, an event record and an event leave alone, then one equation per outcome
of the rows on packets to and from the host. The statement on host rings (O7) follows.
-/

namespace Sys2Proof.Machine

section
variable {s t : State} {n m k : Nat} {α : Type} {φ : Ring → α}

theorem getRing_congr (h : t.host = s.host) : getRing t n = getRing s n := by simp only [getRing, h]

theorem getRing_onRingN_ne {f : Ring → Ring} (h : m ≠ n) : getRing (onRingN n f s) m = getRing s m := by
  simp [getRing, onRingN, State.onHost, Tab.getD, Tab.upd, Tab.get?_set, h]

/-- What a change of one ring leaves of every ring. -/
theorem field_onRingN {f : Ring → Ring} (h : ∀ g, φ (f g) = φ g) : φ (getRing (onRingN n f s) m) = φ (getRing s m) := by
  by_cases hm : m = n
  · subst hm
    rw [getRing_onRingN, h]
  · rw [getRing_onRingN_ne hm]

@[simp] theorem getRing_raiseVec {v : Nat} : getRing (raiseVec v s) m = getRing s m := by
  unfold raiseVec
  split <;> rfl

/-- A ring's vector changes what moderation counts, and nothing else of any ring (R134, R142). -/
theorem field_ringPublish (h : ∀ g c r, φ { g with sinceVec := c, modRunning := r } = φ g) :
    φ (getRing (ringPublish n k s) m) = φ (getRing s m) := by
  unfold ringPublish ringVector
  dsimp only
  split
  · exact field_onRingN fun g => h g _ _
  · rw [getRing_raiseVec]
    exact field_onRingN fun g => h g _ _

/-! What a stopped ring reports: the events that follow leave it. -/

/-- Whether a ring is stopped, and with which error (R132, R140). -/
def Ring.fault (g : Ring) : Bool × Bool × Nat := (g.stopped, g.error, g.errCause)

theorem fault_ringPutRec {r : EvtRec} : (getRing (ringPutRec n r s) m).fault = (getRing s m).fault :=
  (field_ringPublish fun _ _ _ => rfl).trans (field_onRingN fun _ => rfl)

theorem fault_ringDrop : (getRing (ringDrop n s) m).fault = (getRing s m).fault := field_onRingN fun _ => rfl

theorem fault_ringRoute {r : EvtRec} : (getRing (ringRoute n r s) m).fault = (getRing s m).fault := by
  unfold ringRoute
  dsimp only
  split
  · exact field_onRingN fun _ => rfl
  · split
    · refine (field_onRingN (φ := Ring.fault) fun _ => ?_).trans fault_ringDrop
      rfl
    · exact fault_ringPutRec

theorem fault_raise {code : Nat} {obj : Option Nat} {pl : List Byte} {mb : Nat} {q : W16} :
    (getRing (raise code obj pl s mb q) m).fault = (getRing s m).fault := by
  have hlog : ∀ r, getRing (logRec r (noteTime s)) m = getRing s m := fun r =>
    getRing_congr (logRec_host.trans noteTime_host)
  unfold raise
  dsimp only
  split
  · rfl
  · split
    · rw [fault_ringRoute, hlog]
    · rw [hlog]

/-- A ring that an error stops is stopped, with ERROR and its cause (R140). -/
theorem fault_ringError {cause : Nat} {cookie : W64} : (getRing (ringError n cause cookie s) n).fault = (true, true, cause) := by
  unfold ringError
  rw [fault_raise, getRing_onRingN]
  rfl

theorem ringError_stops {cause : Nat} {cookie : W64} : (getRing (ringError n cause cookie s) n).stopped = true ∧
    (getRing (ringError n cause cookie s) n).error = true ∧ (getRing (ringError n cause cookie s) n).errCause = cause := by
  simpa only [Ring.fault, Prod.mk.injEq] using fault_ringError (s := s) (n := n) (cause := cause) (cookie := cookie)

theorem ringError_drawn {cause : Nat} {cookie : W64} : (ringError n cause cookie s).drawn = s.drawn := raise_drawn

end

/-! A disabled ring that has drained, and the end of a moderation interval (R134). -/

section
variable {s : State} {ring : BitVec 6} {c : Cmd}

theorem execHrDisableDrained_posts (h : (getRing s ring.toNat).disabling = some c) :
    execHrDisableDrained ring s = .next (post c .ok (onRingN ring.toNat (fun g => { g with
      enabled := false, stopped := false, hostIdx := 0, devIdx := 0, disabling := none, queue := [], sinceVec := 0,
      modRunning := false }) s)) := by
  simp only [execHrDisableDrained, h]

theorem execMsixModerationExpiry_raises (hrun : (getRing s ring.toNat).modRunning = true) (h : 0 < (getRing s ring.toNat).sinceVec) :
    execMsixModerationExpiry ring s =
      .next (raiseVec (getRing s ring.toNat).vec (onRingN ring.toNat (fun g => { g with sinceVec := 0 }) s)) :=
  (next_onlyIf hrun).trans (congrArg _ (if_pos h))

theorem execMsixModerationExpiry_ends (hrun : (getRing s ring.toNat).modRunning = true) (h : (getRing s ring.toNat).sinceVec = 0) :
    execMsixModerationExpiry ring s = .next (onRingN ring.toNat (fun g => { g with modRunning := false }) s) :=
  (next_onlyIf hrun).trans (congrArg _ (if_neg (by simp [h])))

end

/-! Packets to the host (R139, R141). -/

section
variable {s : State} {n : Nat} {ring : BitVec 6} {bufs : List RxBuf} {k : HostPkt} {rest : List HostPkt} {b : RxBuf}

/-- The packet at the head of a ring's queue is taken out of it, and counted (R141, R564). -/
def takePacket (n : Nat) (rest : List HostPkt) (s : State) : State :=
  countHostQ n 1 (onRingN n (fun g => { g with queue := rest }) s)

theorem getRing_countHostQ {i m : Nat} : getRing (countHostQ n i s) m = getRing s m := rfl
@[simp] theorem getRing_takePacket : getRing (takePacket n rest s) n = { getRing s n with queue := rest } := getRing_onRingN

theorem fillBufs_one {bytes : List Byte} (hne : bytes ≠ []) (hlen : bytes.length ≤ b.len) : fillBufs [b] bytes = some [(b, bytes)] := by
  cases bytes with
  | nil => exact absurd rfl hne
  | cons x xs => simp [fillBufs, List.drop_eq_nil_of_le hlen, List.take_of_length_le hlen]

theorem getRing_writeBufs_one {x : RxBuf × List Byte} : getRing (writeBufs n k [x] s) n =
    { getRing s n with devIdx := (getRing s n).devIdx + 1, completions := (getRing s n).completions + 1 } := by
  simp only [writeBufs, getRing_onRingN, getRing_emit]

/-- A ring that takes nothing drops the packet (R141). -/
theorem execHostRingWrite_dropped (hq : (getRing s ring.toNat).queue = k :: rest) (hen : (getRing s ring.toNat).enabled = false) :
    execHostRingWrite ring bufs s = .next (ringDrop ring.toNat (takePacket ring.toNat rest s)) := by
  unfold execHostRingWrite
  simp only [hq, getRing_countHostQ, getRing_onRingN, Ring.live, hen, Bool.false_and, Bool.not_false, if_true]
  rfl

/-- One posted buffer that holds the packet takes it whole (R139). -/
theorem execHostRingWrite_written (hq : (getRing s ring.toNat).queue = k :: rest) (hen : (getRing s ring.toNat).enabled = true)
    (hstop : (getRing s ring.toNat).stopped = false) (htype : (getRing s ring.toNat).type = 2)
    (hposted : (getRing s ring.toNat).hostIdx = (getRing s ring.toNat).devIdx + 1) (hlo : 256 ≤ b.len) (hhi : b.len ≤ 9216)
    (hne : k.bytes ≠ []) (hlen : k.bytes.length ≤ b.len) :
    execHostRingWrite ring [b] s =
      .next (ringPublish ring.toNat 1 (writeBufs ring.toNat k [(b, k.bytes)] (takePacket ring.toNat rest s))) := by
  have hone : ((getRing s ring.toNat).devIdx + 1 - (getRing s ring.toNat).devIdx).toNat = 1 := by
    rw [BitVec.add_comm, BitVec.add_sub_cancel]
    rfl
  have hsize : ([(b, k.bytes)].find? fun x => x.1.len < 256 || 9216 < x.1.len) = none := by simp; omega
  unfold execHostRingWrite
  simp only [hq, getRing_countHostQ, getRing_onRingN, Ring.live, hen, hstop, htype, hposted, hone, List.take_succ_cons, List.take_nil,
    fillBufs_one hne hlen, hsize]
  rfl

end

/-! Packets from the host (R138, R140, R142). -/

section
variable {s : State} {n : Nat} {ring : BitVec 6} {descs l : List TxDesc} {payload : List Byte}

/-- A live PKT_TX ring with its domain on has fetched the descriptors l of one packet, all of them posted (R138). -/
structure TxFetched (n : Nat) (descs l : List TxDesc) (s : State) : Prop where
  link : s.host.link = true
  enabled : (getRing s n).enabled = true
  running : (getRing s n).stopped = false
  type : (getRing s n).type = 1
  domain : domOn s 3 = true
  packet : packetDescs (fetchedDescs n descs s) = some l
  posted : l.length ≤ ((getRing s n).hostIdx - (getRing s n).devIdx).toNat

theorem TxFetched.live (h : TxFetched n descs l s) :
    (s.host.link && (getRing s n).live && (getRing s n).type = 1 && domOn s 3) = true := by
  simp [Ring.live, h.link, h.enabled, h.running, h.type, h.domain]

/-- A packet that the host's memory does not give stops the ring at one of its descriptors (R140, log entry 134). -/
theorem execHostTxPacket_unread (h : TxFetched ring.toNat descs l s) :
    execHostTxPacket ring descs payload false s =
      .next (ringError ring.toNat 3 ((l.map txCookie).getD (s.draw l.length).1 0) (s.draw l.length).2) := by
  refine (next_onlyIf h.live).trans ?_
  simp only [h.packet, if_neg (Nat.not_lt.mpr h.posted)]
  rfl

/-- A packet whose descriptors are in order goes to its destination, and its descriptors are completed (R138, R142). -/
theorem execHostTxPacket_delivered (h : TxFetched ring.toNat descs l s) (hok : l.find? (fun d => !txOk d) = none)
    (hlen : sumOf (l.map fun d => txFld d 8 2) ≤ 9216)
    (hgood : (hostDeliver ring.toNat (l.headD { bytes := [] }) (pad (sumOf (l.map fun d => txFld d 8 2)) payload) s).1 = true) :
    execHostTxPacket ring descs payload true s = .next (ringPublish ring.toNat l.length (onRingN ring.toNat (fun g => { g with
      devIdx := g.devIdx + BitVec.ofNat 16 l.length, completions := g.completions + BitVec.ofNat 32 l.length })
      (hostDeliver ring.toNat (l.headD { bytes := [] }) (pad (sumOf (l.map fun d => txFld d 8 2)) payload) s).2)) := by
  refine (next_onlyIf h.live).trans ?_
  simp only [h.packet, if_neg (Nat.not_lt.mpr h.posted), hok, if_neg (Nat.not_lt.mpr hlen), hgood]
  rfl

end

end Sys2Proof.Machine

namespace Sys2Proof
open Sys2Proof.Machine Sys2Proof.Claim

/-- Settles O7: each row's outcome under its conditions; of the ring, the fields that its vector and its events leave alone. -/
theorem hostRingRowsTakeEffect : Obligations.HostRingRowsTakeEffect := by
  refine ⟨?dropped, ?written, ?drained, ?waiting, ?idle, ?delivered, ?unread⟩
  case dropped =>
    intro s ring bufs k rest ⟨hq, hen⟩
    refine does_of_keeps (execHostRingWrite_keeps (maskOf_all _) (Keeps.refl s)) (execHostRingWrite_dropped hq hen) ?_
    rw [ringDrop, getRing_onRingN, getRing_takePacket]
    exact ⟨rfl, rfl, rfl⟩
  case written =>
    rintro s ring _ k rest b ⟨hq, hen, hstop, htype, hposted, rfl, hlo, hhi, hne, hlen⟩
    refine does_of_keeps (execHostRingWrite_keeps (maskOf_all _) (Keeps.refl s))
      (execHostRingWrite_written hq hen hstop htype hposted hlo hhi hne hlen) ⟨?queue, ?devIdx, ?dropCount⟩
    case queue => rw [field_ringPublish (φ := Ring.queue) fun _ _ _ => rfl, getRing_writeBufs_one, getRing_takePacket]
    case devIdx => rw [field_ringPublish (φ := Ring.devIdx) fun _ _ _ => rfl, getRing_writeBufs_one, getRing_takePacket]
    case dropCount => rw [field_ringPublish (φ := Ring.dropCount) fun _ _ _ => rfl, getRing_writeBufs_one, getRing_takePacket]
  case drained =>
    intro s ring c hc
    exact does_of_keeps (execHrDisableDrained_keeps (maskOf_all _) (Keeps.refl s)) (execHrDisableDrained_posts hc)
      ⟨_, rfl, getRing_onRingN⟩
  case waiting =>
    intro s ring ⟨hrun, hsince⟩
    refine does_of_keeps (execMsixModerationExpiry_keeps (maskOf_all _) (Keeps.refl s)) (execMsixModerationExpiry_raises hrun hsince) ?_
    rw [getRing_raiseVec, getRing_onRingN]
    exact ⟨rfl, hrun⟩
  case idle =>
    intro s ring ⟨hrun, hsince⟩
    exact does_of_keeps (execMsixModerationExpiry_keeps (maskOf_all _) (Keeps.refl s)) (execMsixModerationExpiry_ends hrun hsince)
      getRing_onRingN
  case delivered =>
    rintro s ring descs payload _ l ⟨hlink, hen, hstop, htype, hdom, hpacket, hposted, rfl, hok, hlen, hgood⟩
    exact does_of_keeps (execHostTxPacket_keeps (maskOf_all _) (Keeps.refl s))
      (execHostTxPacket_delivered ⟨hlink, hen, hstop, htype, hdom, hpacket, hposted⟩ hok hlen hgood) ⟨_, rfl, rfl⟩
  case unread =>
    rintro s ring descs payload _ l ⟨hlink, hen, hstop, htype, hdom, hpacket, hposted, rfl⟩
    refine does_of_keeps (execHostTxPacket_keeps (maskOf_all _) (Keeps.refl s))
      (execHostTxPacket_unread ⟨hlink, hen, hstop, htype, hdom, hpacket, hposted⟩) ?_
    obtain ⟨hstopped, herror, hcause⟩ := ringError_stops
    exact ⟨hstopped, herror, hcause, ringError_drawn⟩

end Sys2Proof
end

section
/-!
Power domains and the entry handshake (R160 to R181): what a change of one domain leaves of it and of the mode, one equation per
outcome of a domain's rows, then what an answer, a refusal and a silence do to the handshake. The statement on domains and the
handshake (O11) follows.
-/

namespace Sys2Proof.Machine
open Sys2Proof.Claim

section
variable {s t : State} {d : Nat} {f : Domain → Domain} {a : Ans}

/-! Domains (R160, R176, R180, R181). -/

theorem getDom_congr (h : t.modes = s.modes) : getDom t d = getDom s d := by simp only [getDom, h]

@[simp] theorem onDom_mode : (onDom d f s).modes.mode = s.modes.mode := rfl
@[simp] theorem onDom_degraded : (onDom d f s).modes.degraded = s.modes.degraded := rfl
theorem getDom_onModes_degraded {g : Modes → Byte} : getDom (s.onModes fun m => { m with degraded := g m }) d = getDom s d := rfl

theorem failStalled_frame : Framed [.boot, .mbx, .host, .evt, .clk, .ring, .out] s (failStalled d a s) :=
  frame_of_keeps (failStalled_keeps (maskOf_all _) (Keeps.refl _))
@[simp] theorem failStalled_modes : (failStalled d a s).modes = s.modes := failStalled_frame.2 .modes (by decide)

theorem execDemandIdleExpiry_off {dom : Fin 8} (h3 : s.modes.mode = 3) (hst : (getDom s dom.val).st = 3) :
    execDemandIdleExpiry dom s = .next (onDom dom.val (fun x => { x with st := 0 }) (dropDomain dom.val s)) :=
  next_onlyIf (by simp [h3, hst])

theorem execDomainWakeRetry_wakes {dom : Fin 8} (hst : (getDom s dom.val).st = 0) (hr : (getDom s dom.val).retrying = true) :
    execDomainWakeRetry dom s = .next (onDom dom.val (fun x => { x with st := 2 }) s) :=
  next_onlyIf (by simp [hst, hr])

/-- The row on a wake that times out can happen: the domain wakes, in one of its two steps. -/
theorem wakeTimeout_possible {n : Nat} (hst : (getDom s d).st = 2) (hn : n = 1 ∨ n = 2) :
    ((getDom s d).st = 2 && (n = 1 || n = 2)) = true := by simp [hst, hn]

/-- A first failed wake leaves the domain off, to be retried; what stalled on it fails, and the fault is reported (R180). -/
theorem execDomainWakeTimeout_retried {dom : Fin 8} {n : Nat} (hst : (getDom s dom.val).st = 2) (hn : n = 1 ∨ n = 2)
    (hr : (getDom s dom.val).retrying = false) : ∃ pl, execDomainWakeTimeout dom n s =
      .next (raise 0x0282 (some dom.val) pl (failStalled dom.val eHw (onDom dom.val
        (fun x => { x with st := 0, retrying := true, failStep := n, retries := satAdd 8 x.retries 1 }) s))) :=
  ⟨_, (next_onlyIf (wakeTimeout_possible hst hn)).trans (congrArg _ (if_neg (by simp [hr])))⟩

/-- A failed retry of a domain that no mode needs makes it FAILED and the device DEGRADED (R181). -/
theorem execDomainWakeTimeout_failed {dom : Fin 8} {n : Nat} (hst : (getDom s dom.val).st = 2) (hn : n = 1 ∨ n = 2)
    (hr : (getDom s dom.val).retrying = true) (hneed : domNeeded dom.val s = false) : ∃ pl b, execDomainWakeTimeout dom n s =
      .next (failStalled dom.val b ((raise 0x0283 (some dom.val) pl (onDom dom.val
        (fun x => { x with st := 5, retrying := false, failStep := n, retries := satAdd 8 x.retries 1 }) s)).onModes
          fun m => { m with degraded := m.degraded ||| (1 <<< dom.val : BitVec 8) })) :=
  ⟨_, _, (next_onlyIf (wakeTimeout_possible hst hn)).trans (congrArg _ ((if_pos hr).trans (if_neg (by simp [hneed]))))⟩

end

/-! The entry handshake (R164 to R170). -/

section
variable {s : State} {t : Trans} {agent : Fin 16} {r reason n dom status : Nat}

theorem autoStopped_modes {x y z w : Nat} : (autoStopped x y z w s).modes = s.modes := autoStopped_frame.2 .modes (by decide)

/-- Whatever begins a transition, at its end the device heads for the mode it is in. -/
theorem finishTrans_modes (h : s.modes.trans = some t) :
    (finishTrans status n reason dom s).modes = { s.modes with trans := none, target := s.modes.mode } := by
  unfold finishTrans
  rw [h]
  dsimp only
  split
  case h_1 => rfl
  case h_2 =>
    split
    · rfl
    · rw [autoStopped_modes]; rfl
  case h_3 =>
    split
    · rw [endLong_modes]; rfl
    · rfl

theorem emit_all_modes {f : Nat → Emit} {l : List Nat} : (l.foldl (fun s x => s.emit (f x)) s).modes = s.modes := by
  induction l generalizing s with
  | nil => rfl
  | cons x l ih => exact ih

/-- From s to u an entry is given up: the transition is over, the mode stays, the abort is counted, every agent is idle (R167, R170). -/
def EntryGivenUp (s u : State) : Prop :=
  u.modes.trans = none ∧ u.modes.mode = s.modes.mode ∧ u.modes.target = s.modes.mode ∧
    u.modes.aborted = satAdd 32 s.modes.aborted 1 ∧ u.modes.agents.all (fun x => x.st == .idle) = true

theorem abortEntry_givesUp (h : s.modes.trans = some t) : EntryGivenUp s (abortEntry n reason s) := by
  unfold EntryGivenUp abortEntry
  rw [h]
  dsimp only
  rw [finishTrans_modes (by rw [raise_modes, emit_all_modes]; rfl), raise_modes, emit_all_modes]
  exact ⟨rfl, rfl, rfl, rfl, by simp⟩

/-- The refusal notes its reason at the agent before the abort, which changes nothing that the abort is measured by. -/
theorem refuseEntry_givesUp (h : s.modes.trans = some t) : EntryGivenUp s (refuseEntry n reason s) :=
  abortEntry_givesUp (s := s.onModes _) h

theorem execAgentAnswer_accepted (hw : awaits s agent.val = true)
    (hno : (s.modes.trans.bind fun t => agentRefusal s t agent.val) = none)
    (hall : (updAt s.modes.agents agent.val fun x => { x with st := .accepted }).all (fun x => x.st == .accepted) = false) :
    execAgentAnswer agent .accept s =
      .next (s.onModes fun m => { m with agents := updAt m.agents agent.val fun x => { x with st := .accepted } }) := by
  refine (next_onlyIf hw).trans (congrArg _ ?_)
  rw [hno]
  exact if_neg (by simpa using hall)

/-- Where the state makes the agent refuse, its answer counts for nothing (R164, log entry 32). -/
theorem execAgentAnswer_refused {ans : AgentAns} (hw : awaits s agent.val = true) (h : s.modes.trans = some t)
    (hr : agentRefusal s t agent.val = some r) : execAgentAnswer agent ans s = .next (refuseEntry agent.val r s) := by
  refine (next_onlyIf hw).trans (congrArg _ ?_)
  rw [h, Option.bind_some, hr]
  rfl

theorem execAgentAnswerTimeout_refused (hw : awaits s agent.val = true) : ∃ k,
    execAgentAnswerTimeout agent s = .next (refuseEntry agent.val k s) := ⟨_, next_onlyIf hw⟩

theorem execEnterResend_sent {us : Nat} (h : s.modes.trans = some t) (hst : (s.modes.agents.getD agent.val {}).st = .delayed us)
    (hh : t.handshaking = true) (hc : t.committed = false) : execEnterResend agent s =
      .next ((s.onModes fun m => { m with agents := updAt m.agents agent.val fun x =>
        { x with st := .waiting, final := decide (t.hsNs + 10 ^ 7 ≤ nowNs s) } }).emit (.enter agent.val t.stage)) := by
  unfold execEnterResend
  rw [h, hst]
  exact congrArg _ (if_pos (by simp [hh, hc]))

end

end Sys2Proof.Machine

namespace Sys2Proof
open Sys2Proof.Machine Sys2Proof.Claim

/-- Settles O11: each row has its effect under its conditions; what a domain's rows report and answer leaves the modes alone. -/
theorem domainsAndHandshakeTakeEffect : Obligations.DomainsAndHandshakeTakeEffect := by
  have hlt : ∀ {s : State} {dom : Fin 8}, s.modes.doms.length = 8 → dom.val < s.modes.doms.length := fun {_ dom} h => h.symm ▸ dom.isLt
  refine ⟨?idle, ?retried, ?failed, ?retry, ?accepted, ?refused, ?silent, ?resent⟩
  case idle =>
    intro s dom ⟨h3, hst, hlen⟩
    refine does_of_keeps (execDemandIdleExpiry_keeps (maskOf_all _) (Keeps.refl s)) (execDemandIdleExpiry_off h3 hst) ⟨?_, ?_⟩
    · rw [getDom_onDom (by rw [dropDomain_modes]; exact hlt hlen), getDom_congr dropDomain_modes]
    · rw [onDom_mode, dropDomain_modes, h3]
  case retried =>
    intro s dom n ⟨hst, hn, hr, hlen⟩
    obtain ⟨pl, hexec⟩ := execDomainWakeTimeout_retried hst hn hr
    refine does_of_keeps (execDomainWakeTimeout_keeps (maskOf_all _) (Keeps.refl s)) hexec ⟨?_, ?_⟩
    · rw [getDom_congr (raise_modes.trans failStalled_modes), getDom_onDom (hlt hlen)]
    · rw [raise_modes, failStalled_modes, onDom_mode]
  case failed =>
    intro s dom n ⟨hst, hn, hr, hlen, hneed⟩
    obtain ⟨pl, b, hexec⟩ := execDomainWakeTimeout_failed hst hn hr hneed
    refine does_of_keeps (execDomainWakeTimeout_keeps (maskOf_all _) (Keeps.refl s)) hexec ?_
    rw [getDom_congr failStalled_modes, getDom_onModes_degraded, getDom_congr raise_modes, getDom_onDom (hlt hlen)]
    simp
  case retry =>
    intro s dom ⟨hst, hr, hlen⟩
    exact does_of_keeps (execDomainWakeRetry_keeps (maskOf_all _) (Keeps.refl s)) (execDomainWakeRetry_wakes hst hr)
      (getDom_onDom (hlt hlen))
  case accepted =>
    rintro s agent _ ⟨hw, rfl, hno, hall⟩
    exact does_of_keeps (execAgentAnswer_keeps (maskOf_all _) (Keeps.refl s)) (execAgentAnswer_accepted hw hno hall) rfl
  case refused =>
    rintro s agent ans t r ⟨hw, ht, -, hr⟩
    exact does_of_keeps (execAgentAnswer_keeps (maskOf_all _) (Keeps.refl s)) (execAgentAnswer_refused hw ht hr)
      (refuseEntry_givesUp ht)
  case silent =>
    rintro s agent t ⟨hw, ht, -⟩
    obtain ⟨k, hexec⟩ := execAgentAnswerTimeout_refused hw
    exact does_of_keeps (execAgentAnswerTimeout_keeps (maskOf_all _) (Keeps.refl s)) hexec (refuseEntry_givesUp ht)
  case resent =>
    intro s agent t us ⟨ht, hst, hh, hc⟩
    exact does_of_keeps (execEnterResend_keeps (maskOf_all _) (Keeps.refl s)) (execEnterResend_sent ht hst hh hc) ⟨rfl, rfl⟩

end Sys2Proof
end

section
/-!
Blanking inputs, the end of a channel change, the silence after SERVE and the end of a stage (R154, R157, R158, R230, R248, R250, R442):
which field of the state the cutting short of a PPDU and the discarding of plans leave alone, what a channel change leaves of a band,
and what the last stage of a transition reaches. The statement on these rows (O23) follows.
-/

namespace Sys2Proof.Machine
open Sys2Proof.Claim

section
variable {s t : State} {α β : Type} {φ : State → β} {b n beat i code : Nat}

/-- What no step of a fold changes, the fold leaves as it is. -/
theorem foldl_field {g : State → α → State} (h : ∀ t x, φ (g t x) = φ t) (l : List α) : φ (l.foldl g s) = φ s :=
  List.foldlRecOn l g (motive := fun t => φ t = φ s) rfl fun t ht x _ => (h t x).trans ht

/-! The outcome of a PPDU (R249, R369). -/

theorem onPpdu_frame {f : Ppdu → Ppdu} : Framed [.air] s (onPpdu b beat i f s) :=
  frame_of_keeps (onPpdu_keeps (maskOf_all _) (Keeps.refl _))
theorem hostQueue_frame {k : HostPkt} : Framed [.host, .tm] s (hostQueue n k s) :=
  frame_of_keeps (hostQueue_keeps (maskOf_all _) (Keeps.refl _))
theorem outcomesDone_frame : Framed [.col, .out] s (outcomesDone b beat s) :=
  frame_of_keeps (outcomesDone_keeps (maskOf_all _) (Keeps.refl _))

/-- What is left alone by the counting and the delivery of an outcome is left alone by its record. -/
theorem field_record (hppdu : ∀ f t, φ (onPpdu b beat i f t) = φ t) (hout : ∀ k t, φ (countOut b k t) = φ t)
    (hair : ∀ k t, φ (countAir b k t) = φ t) (hhost : ∀ n k t, φ (hostQueue n k t) = φ t)
    (hdone : ∀ t, φ (outcomesDone b beat t) = φ t) : φ (record b beat i code s) = φ s := by
  unfold record
  split
  · rfl
  split
  · rfl
  simp only [apply_ite φ, hdone, hhost, hout, hair, hppdu, ite_self]

/-! Blanking inputs (R248, R442). -/

/-- The levels of the blanking inputs as recognised (R248). -/
def blankLevels (s : State) : BitVec 4 := s.fe.blankIn

theorem blankLevels_congr (h : t.fe = s.fe) : blankLevels t = blankLevels s := congrArg Fe.blankIn h

theorem blankLevels_onBand {f : Band → Band} : blankLevels (onBand b f s) = blankLevels s := by
  unfold blankLevels onBand
  simp only [State.onFe_fe, apply_ite Fe.blankIn, ite_self]

theorem blankLevels_dropCoex : blankLevels (dropCoex s) = blankLevels s := by
  unfold dropCoex
  split <;> rfl

theorem blankLevels_record : blankLevels (record b beat i code s) = blankLevels s :=
  field_record (fun _ _ => blankLevels_congr (onPpdu_frame.2 .fe (by decide))) (fun _ _ => blankLevels_onBand) (fun _ _ => rfl)
    (fun _ _ _ => blankLevels_congr (hostQueue_frame.2 .fe (by decide)))
    fun _ => blankLevels_congr (outcomesDone_frame.2 .fe (by decide))

theorem endTx_fe : (endTx b s).fe = s.fe := (frame_of_keeps (endTx_keeps (maskOf_all _) (Keeps.refl s))).2 .fe (by decide)
theorem failAll_fe {l : List Frame} : (failAll b n l s).fe = s.fe :=
  (frame_of_keeps (failAll_keeps (maskOf_all _) (Keeps.refl s))).2 .fe (by decide)
theorem consumeUsers_fe {l : List PUser} {k : Nat} : (consumeUsers l k s).fe = s.fe :=
  (frame_of_keeps (consumeUsers_keeps (maskOf_all _) (Keeps.refl s))).2 .fe (by decide)
theorem blankNb_fe : (blankNb i s).fe = s.fe := (frame_of_keeps (blankNb_keeps (maskOf_all _) (Keeps.refl s))).2 .fe (by decide)

theorem blankLevels_cutShort : blankLevels (cutShort b code s) = blankLevels s := by
  have hend : blankLevels (dropCoex (endTx b s)) = blankLevels s := blankLevels_dropCoex.trans (blankLevels_congr endTx_fe)
  unfold cutShort
  split
  · rfl
  dsimp only
  split
  · exact hend
  · rw [blankLevels_congr consumeUsers_fe, foldl_field fun _ _ => blankLevels_congr failAll_fe, blankLevels_record, hend]

/-- Whatever each radio does that becomes blanked, the input's level is taken. -/
theorem execBlankInAssert_taken {input : BitVec 2} : ∃ u, execBlankInAssert input s = .next u ∧
    u.fe.blankIn = s.fe.blankIn ||| ((1 : BitVec 4) <<< input.toNat) := by
  refine ⟨_, rfl, foldl_field (φ := blankLevels) (fun u r => ?_) _⟩
  split
  · split
    · exact blankLevels_cutShort
    · exact blankLevels_congr blankNb_fe
  · rfl

/-- Where the inputs do not blank, the level is all that changes. -/
theorem execBlankInAssert_unused {input : BitVec 2} (h : s.fe.coexMode ≠ 2) : execBlankInAssert input s =
    .next (s.onFe fun f => { f with blankIn := f.blankIn ||| ((1 : BitVec 4) <<< input.toNat) }) :=
  congrArg _ (foldl_field (φ := id) (fun _ _ => if_neg (by simp [blanked, h])) _)

/-- A tail that expires with its input released frees the detectors that nothing blanks (R442). -/
theorem execBlankTailExpiry_frees {input : BitVec 2} (h : s.fe.blankIn.getLsbD input.toNat = false) :
    execBlankTailExpiry input s = .next (s.onNb fun n => { n with
      x := n.x.zipIdx.map fun x =>
        if (s.fe.blankMap.getD input.toNat 0).getLsbD (2 + x.2) && !blanked s (2 + x.2) then { x.1 with held := false } else x.1 }) :=
  next_onlyIf (by simp [h])

end

/-! Channel changes (R230, R250). -/

section
variable {s t : State} {b : Nat} {ch : Channel} {band : BandId} {l : LongCmd} {a : Ans}

theorem getBand_congr (h : t.fe = s.fe) : getBand t b = getBand s b := by simp only [getBand, h]

theorem endLong_longs : (endLong l a s).mbx.longs = s.mbx.longs.erase l := by
  unfold endLong
  dsimp only [State.onMbx_mbx]
  split
  · simp only [State.onBoot_mbx, cmdDone_mbx]
  · split
    · simp only [ringBack_mbx, cmdDone_mbx]
    · simp only [cmdDone_mbx]
  · simp only [cmdDone_mbx]

@[simp] theorem relock_retune {n : Nat} {f : Band} : (relock n f).retune = f.retune := by
  simp only [relock, Band.setSynth, apply_ite Band.retune, ite_self]
@[simp] theorem relock_ch {n : Nat} {f : Band} : (relock n f).ch = f.ch := by
  simp only [relock, Band.setSynth, apply_ite Band.ch, ite_self]

/-- A channel change ends with both synthesizers of the band locked, but for one that has FAILED (R230). -/
def Band.bothLocked (f : Band) : Band :=
  { relock 1 (relock 0 f) with retune := none, tracked := f.synth 0 != 4 && f.synth 1 != 4 }

/-- In SERVE it ends with the standby on the new channel, which becomes the band's at a beat (R230). -/
def Band.standbyLocked (k : Nat) (ch : Channel) (f : Band) : Band :=
  { relock (1 - f.main) f with retune := none, switchAt := some (k, ch), guardBeat := some k }

@[simp] theorem Band.bothLocked_retune {f : Band} : f.bothLocked.retune = none := rfl
@[simp] theorem Band.bothLocked_ch {f : Band} : f.bothLocked.ch = f.ch := relock_ch.trans relock_ch
@[simp] theorem Band.standbyLocked_retune {k : Nat} {f : Band} : (f.standbyLocked k ch).retune = none := rfl
@[simp] theorem Band.standbyLocked_switchAt {k : Nat} {f : Band} : (f.standbyLocked k ch).switchAt = some (k, ch) := rfl
@[simp] theorem Band.standbyLocked_ch {k : Nat} {f : Band} : (f.standbyLocked k ch).ch = f.ch := relock_ch

theorem execBandConfigDone_failed (hl : findLong s 0x0401 (fun c => c.u 16 1 == band.num) = some l)
    (hch : (getBand s band.num).retune = some ch) :
    execBandConfigDone band false s = .next (endLong l (.err 0x0404) (onBand band.num Band.bothLocked s)) := by
  simp only [execBandConfigDone, hl, hch]
  rfl

theorem execBandConfigDone_switched (hl : findLong s 0x0401 (fun c => c.u 16 1 == band.num) = some l)
    (hch : (getBand s band.num).retune = some ch) (h5 : s.modes.mode ≠ 5) : execBandConfigDone band true s =
      .next (endLong l .okAir (refreshOuts (newChannel band.num ch (onBand band.num Band.bothLocked s)))) := by
  simp only [execBandConfigDone, hl, hch, if_neg h5]
  rfl

/-- In SERVE the change waits for the effective beat of its command (log entry 49). -/
theorem execBandConfigDone_scheduled (hl : findLong s 0x0401 (fun c => c.u 16 1 == band.num) = some l)
    (hch : (getBand s band.num).retune = some ch) (h5 : s.modes.mode = 5) : execBandConfigDone band true s =
      .next (endLong l .okAir (onBand band.num (Band.standbyLocked (effBeat s true) ch) s)) := by
  simp only [execBandConfigDone, hl, hch, if_pos h5]
  rfl

@[simp] theorem onBand_mbx {f : Band → Band} : (onBand b f s).mbx = s.mbx := rfl

theorem newChannel_mbx : (newChannel b ch s).mbx = s.mbx :=
  (frame_of_keeps (newChannel_keeps (maskOf_all _) (Keeps.refl s))).2 .mbx (by decide)

theorem onAB_fe {f : AirBand → AirBand} : (onAB b f s).fe = s.fe := rfl
theorem onCC_fe {i : Nat} {f : ChainCal → ChainCal} : (onCC i f s).fe = s.fe := rfl

theorem getBand_setChannel : getBand (setChannel b ch s) b = { getBand s b with ch } :=
  getBand_onBand (f := fun f => { f with ch })

/-- A band that takes a channel keeps all else of its front end (R230, R279). -/
theorem getBand_newChannel : getBand (newChannel b ch s) b = { getBand s b with ch } := by
  have htaken : ∀ c : Prop, [Decidable c] →
      getBand (if c then setChannel b ch s else onBand b (fun f => { f with ch }) s) b = { getBand s b with ch } := by
    intro c _
    split
    · exact getBand_setChannel
    · exact getBand_onBand
  unfold newChannel
  dsimp only
  split
  · exact htaken _
  · exact (getBand_congr ((foldl_field (φ := State.fe) (fun _ _ => onCC_fe) _).trans onAB_fe)).trans (htaken _)

end

/-! Plans discarded and flows ended (R158, R201, R410): a flow that is gone stays gone. -/

section
variable {s : State} {b n m k beat i code reason cause : Nat}

theorem Tab.get?_erase_self {α : Type} {t : Tab α} : Tab.get? (Tab.erase t n) n = none := by
  induction t with
  | nil => rfl
  | cons e t ih =>
    obtain ⟨j, a⟩ := e
    by_cases h : j = n <;> simpa [Tab.erase, Tab.get?, h] using ih

theorem getBf_congr {t : State} (h : t.air.bfs = s.air.bfs) : getBf t n = getBf s n := by simp only [getBf, h]

theorem onAB_bfs {f : AirBand → AirBand} : (onAB b f s).air.bfs = s.air.bfs := by
  unfold onAB
  simp only [State.onAir_air, apply_ite Air.bfs, ite_self]

theorem onPpdu_bfs {f : Ppdu → Ppdu} : (onPpdu b beat i f s).air.bfs = s.air.bfs := by
  unfold onPpdu onPlan
  split
  · exact onAB_bfs
  · rfl

theorem record_bfs : (record b beat i code s).air.bfs = s.air.bfs :=
  field_record (φ := fun t => t.air.bfs) (fun _ _ => onPpdu_bfs) (fun _ _ => rfl) (fun _ _ => onAB_bfs)
    (fun _ _ _ => congrArg Air.bfs (hostQueue_frame.2 .air (by decide)))
    fun _ => congrArg Air.bfs (outcomesDone_frame.2 .air (by decide))

theorem returnFrames_bfs {l : List Frame} : (returnFrames n l s).air.bfs = s.air.bfs := by
  refine foldl_field (φ := fun t => t.air.bfs) (fun t f => ?_) _
  unfold onSta
  split <;> rfl

theorem getBf_onBf_none {f : Bf → Bf} (h : getBf s n = none) : getBf (onBf m f s) n = none := by
  unfold onBf
  split
  case h_1 x hx =>
    have hne : n ≠ m := fun e => by rw [← e, h] at hx; cases hx
    exact Tab.get?_set.trans ((if_neg hne).trans h)
  case h_2 => exact h

/-- Either branch of a choice has no such flow. -/
theorem getBf_ite_none {p : Prop} [Decidable p] {t u : State} (ht : getBf t n = none) (hu : getBf u n = none) :
    getBf (if p then t else u) n = none := by
  split <;> assumption

theorem getBf_decide_none (h : getBf s n = none) : getBf (decide_ m k reason s) n = none := by
  unfold decide_
  split
  · exact h
  split
  · exact h
  dsimp only
  split
  · exact getBf_onBf_none h
  · rw [getBf_congr (congrArg Air.bfs raise_air)]
    exact getBf_onBf_none (getBf_onBf_none (getBf_onBf_none h))

theorem getBf_consume_none (h : getBf s n = none) : getBf (consume m k reason s) n = none := by
  unfold consume
  split
  · exact h
  · exact getBf_ite_none (getBf_decide_none (getBf_onBf_none h)) (getBf_onBf_none h)

theorem getBf_consumeUsers_none {l : List PUser} (h : getBf s n = none) : getBf (consumeUsers l reason s) n = none := by
  exact List.foldlRecOn _ _ (motive := fun t => getBf t n = none) h fun _ ht _ _ => getBf_ite_none ht (getBf_consume_none ht)

theorem getBf_notSent_none (h : getBf s n = none) : getBf (notSent b beat i code s) n = none := by
  unfold notSent
  split
  · exact h
  split
  · exact h
  refine getBf_consumeUsers_none ((getBf_congr ?_).trans h)
  simp only [apply_ite State.air, apply_ite Air.bfs, onAB_bfs, ite_self]
  exact (foldl_field (φ := fun t => t.air.bfs) (fun _ _ => returnFrames_bfs) _).trans record_bfs

theorem getBf_discardPlan_none (h : getBf s n = none) : getBf (discardPlan b beat s) n = none := by
  unfold discardPlan
  split
  · exact h
  · exact List.foldlRecOn _ _ (motive := fun t => getBf t n = none) h fun _ ht _ _ => getBf_notSent_none ht

theorem getBf_discardBand_none (h : getBf s n = none) : getBf (discardBand b s) n = none :=
  (getBf_congr onAB_bfs).trans (List.foldlRecOn _ _ (motive := fun t => getBf t n = none) h fun _ ht _ _ => getBf_discardPlan_none ht)

theorem getBf_discardPlans_none (h : getBf s n = none) : getBf (discardPlans s) n = none :=
  getBf_discardBand_none (getBf_discardBand_none h)

theorem flushAir_bfs : (flushAir s).air.bfs = s.air.bfs := rfl

/-- A flow that ends is no flow any more (R410). -/
theorem getBf_endFlow : getBf (endFlow n reason cause s) n = none := by
  unfold endFlow
  split
  · assumption
  · exact (getBf_congr (congrArg Air.bfs raise_air)).trans Tab.get?_erase_self

end

/-! The last stage of a transition (R154), and the silence after SERVE (R157, R158). -/

section
variable {s : State} {t : Trans} {c n : Nat} {x : Bf} {ok : Bool}

theorem enterMode_trans {mode cause us : Nat} (h : mode ≠ 3) : (enterMode mode cause us s).modes.trans = s.modes.trans := by
  simp [enterMode, h]
theorem enterMode_lastCause {mode cause us : Nat} : (enterMode mode cause us s).modes.lastCause = cause := by simp [enterMode]
theorem enterMode_air {mode cause us : Nat} (h : mode ≠ 3) : (enterMode mode cause us s).air = s.air := by simp [enterMode, h]

theorem warmEntry_modes : (warmEntry s).modes = s.modes := warmEntry_frame.2 .modes (by decide)
theorem warmEntry_air : (warmEntry s).air = s.air := warmEntry_frame.2 .air (by decide)
theorem finishTrans_air {a r d e : Nat} : (finishTrans a r d e s).air = s.air := finishTrans_frame.2 .air (by decide)

/-- The state in which WARM is reached from another mode than VIGIL, before the transition ends (R154, R661, R708). -/
def warmReached (t : Trans) (s : State) : State :=
  let u := (if s.modes.mode = 5 then serveLeave s else s)
  let u := enterMode 4 t.cause ((nowNs u - t.stageNs) / 1000) (u.onModes fun m => { m with target := 4 })
  warmEntry (if s.modes.mode = 2 then u.onBoot fun b => if b.autoOn then b else { b with stage := 8, phase := .done } else u)

theorem warmReached_mode : (warmReached t s).modes.mode = 4 := by
  simp [warmReached, warmEntry_modes, apply_ite State.modes]
theorem warmReached_trans : (warmReached t s).modes.trans = s.modes.trans := by
  simp [warmReached, warmEntry_modes, apply_ite State.modes, enterMode_trans]
theorem warmReached_lastCause : (warmReached t s).modes.lastCause = t.cause := by
  simp [warmReached, warmEntry_modes, apply_ite State.modes, enterMode_lastCause]
theorem warmReached_air : (warmReached t s).air = s.air := by
  simp [warmReached, warmEntry_air, apply_ite State.air, enterMode_air]

/-- A transition to WARM ends where its stage reaches WARM (R154). -/
theorem stageReached_warm (ht : s.modes.trans = some t) (hs : t.stage = 4) (hf : t.final = 4) (h3 : s.modes.mode ≠ 3) :
    stageReached ok s = finishTrans 0 0xFF 0 0xFF (warmReached t s) := by
  have hfin : (finishTrans 0 0xFF 0 0xFF (warmReached t s)).modes.mode = 4 := by
    rw [finishTrans_modes (warmReached_trans.trans ht)]
    exact warmReached_mode
  unfold stageReached
  simp only [ht, hs, hf, if_neg h3, Nat.reduceEqDiff, if_true, if_false]
  split
  case h_1 heq _ =>
    have h43 : 4 = 3 := hfin.symm.trans (eq_of_beq heq)
    cases h43
  case h_2 => rfl

theorem stageReached_warm_modes (ht : s.modes.trans = some t) (hs : t.stage = 4) (hf : t.final = 4) (h3 : s.modes.mode ≠ 3) :
    (stageReached ok s).modes.mode = 4 ∧ (stageReached ok s).modes.trans = none ∧ (stageReached ok s).modes.lastCause = t.cause := by
  rw [stageReached_warm ht hs hf h3, finishTrans_modes (warmReached_trans.trans ht)]
  exact ⟨warmReached_mode, rfl, warmReached_lastCause⟩

theorem stageReached_warm_air (ht : s.modes.trans = some t) (hs : t.stage = 4) (hf : t.final = 4) (h3 : s.modes.mode ≠ 3) :
    (stageReached ok s).air = s.air := by
  rw [stageReached_warm ht hs hf h3, finishTrans_air, warmReached_air]

theorem execModeTransitionDone_reached (ht : s.modes.trans = some t) (h5 : s.modes.mode ≠ 5) (hh : t.handshaking = false)
    (hc : t.committed = true) (hup : domainsUp s t.stage = true) : execModeTransitionDone s = .next (stageReached (calValid s) s) := by
  have hexit : serveExit s = none := by simp [serveExit, ht, h5]
  simp only [execModeTransitionDone, ht]
  exact congrArg _ (if_neg (by simp [hexit, hh, hc, hup]))

theorem execModeTransitionDone_waits (ht : s.modes.trans = some t) (hh : t.handshaking = true) : execModeTransitionDone s = .next s := by
  simp only [execModeTransitionDone, ht]
  exact congrArg _ (if_pos (by simp [hh]))

/-- The beat of the exit is that of a committed transition from SERVE to the stage WARM. -/
theorem serveExit_some (h : serveExit s = some c) (ht : s.modes.trans = some t) : s.modes.mode = 5 ∧ t.stage = 4 := by
  simp only [serveExit, ht, Option.bind_some] at h
  split at h
  case isTrue hc =>
    simp only [Bool.and_eq_true, decide_eq_true_eq] at hc
    exact hc.1
  case isFalse => cases h

/-- The flows end at the third beat after the commit of the exit (R157, R158). -/
def flowsEnded (c : Nat) (s : State) : State :=
  let s := advanceTo (beatNs s (c + 3)) s
  (s.air.bfs.map (·.1)).foldl (fun s n => endFlow n 14 1 s) s

/-- The air after the exit from SERVE that committed at a beat: no flow, no queued frame, no plan (R157, R158). -/
def afterSilence (c : Nat) (s : State) : State :=
  (flushAir (discardPlans (flowsEnded c s))).onAir fun a => { a with m := { a.m with plans := [] }, h := { a.h with plans := [] } }

theorem execServeExitSilence_reached (h : serveExit s = some c) :
    execServeExitSilence s = .next (stageReached (calValid (afterSilence c s)) (afterSilence c s)) := by
  simp only [execServeExitSilence, h]
  rfl

theorem flowsEnded_modes : (flowsEnded c s).modes = s.modes :=
  (foldl_field (φ := State.modes) (fun t _ => (frame_of_keeps (endFlow_keeps (maskOf_all _) (Keeps.refl t))).2 .modes (by decide)) _).trans
    advanceTo_modes

theorem discardPlans_modes : (discardPlans s).modes = s.modes :=
  (frame_of_keeps (discardPlans_keeps (maskOf_all _) (Keeps.refl s))).2 .modes (by decide)
theorem flushAir_modes : (flushAir s).modes = s.modes :=
  (frame_of_keeps (flushAir_keeps (maskOf_all _) (Keeps.refl s))).2 .modes (by decide)

theorem afterSilence_modes : (afterSilence c s).modes = s.modes := by
  rw [afterSilence, State.onAir_modes, flushAir_modes, discardPlans_modes, flowsEnded_modes]

theorem afterSilence_bfs : (afterSilence c s).air.bfs = (discardPlans (flowsEnded c s)).air.bfs := by
  simp only [afterSilence, State.onAir_air, flushAir_bfs]

theorem getBf_flowsEnded (h : s.air.bfs = [(n, x)]) : getBf (flowsEnded c s) n = none := by
  unfold flowsEnded
  dsimp only
  rw [advanceTo_air, h]
  exact getBf_endFlow

theorem getBf_afterSilence (h : s.air.bfs = [(n, x)]) : getBf (afterSilence c s) n = none :=
  (getBf_congr afterSilence_bfs).trans (getBf_discardPlans_none (getBf_flowsEnded h))

end

end Sys2Proof.Machine

namespace Sys2Proof
open Sys2Proof.Machine Sys2Proof.Claim

/-- Settles O23: each row's outcome under its conditions; of a band, a flow and the modes, what the outcome leaves. -/
theorem airEdgeRowsTakeEffect : Obligations.AirEdgeRowsTakeEffect := by
  refine ⟨?taken, ?unused, ?released, ?tail, ?failed, ?switched, ?scheduled, ?silence, ?reached, ?waits⟩
  case taken =>
    intro s input
    obtain ⟨u, hexec, hin⟩ := execBlankInAssert_taken (s := s) (input := input)
    exact does_of_keeps (execBlankInAssert_keeps (maskOf_all _) (Keeps.refl s)) hexec hin
  case unused =>
    intro s input hmode
    exact does_of_keeps (execBlankInAssert_keeps (maskOf_all _) (Keeps.refl s)) (execBlankInAssert_unused hmode) rfl
  case released =>
    intro s input
    exact does_of_keeps (execBlankInRelease_keeps (maskOf_all _) (Keeps.refl s)) rfl rfl
  case tail =>
    intro s input i x ⟨hin, hx⟩
    refine does_of_keeps (execBlankTailExpiry_keeps (maskOf_all _) (Keeps.refl s)) (execBlankTailExpiry_frees hin) ?_
    simp [hx]
  case failed =>
    rintro s band _ l ch ⟨hl, hch, rfl⟩
    refine does_of_keeps (execBandConfigDone_keeps (maskOf_all _) (Keeps.refl s)) (execBandConfigDone_failed hl hch) ?_
    rw [getBand_congr endLong_fe, getBand_onBand]
    exact ⟨Band.bothLocked_retune, Band.bothLocked_ch, endLong_longs⟩
  case switched =>
    rintro s band _ l ch ⟨hl, hch, rfl, h4⟩
    refine does_of_keeps (execBandConfigDone_keeps (maskOf_all _) (Keeps.refl s)) (execBandConfigDone_switched hl hch (by omega)) ?_
    rw [getBand_congr (endLong_fe.trans refreshOuts_fe), getBand_newChannel, getBand_onBand, endLong_longs, refreshOuts_mbx, newChannel_mbx]
    exact ⟨rfl, rfl, rfl⟩
  case scheduled =>
    rintro s band _ l ch ⟨hl, hch, rfl, h5⟩
    refine does_of_keeps (execBandConfigDone_keeps (maskOf_all _) (Keeps.refl s)) (execBandConfigDone_scheduled hl hch h5) ?_
    rw [getBand_congr endLong_fe, getBand_onBand]
    exact ⟨Band.standbyLocked_retune, Band.standbyLocked_ch, Band.standbyLocked_switchAt, endLong_longs⟩
  case silence =>
    intro s c t n x ⟨hexit, ht, hf, hbfs⟩
    obtain ⟨h5, hs⟩ := serveExit_some hexit ht
    have hm : (afterSilence c s).modes = s.modes := afterSilence_modes
    have ht' : (afterSilence c s).modes.trans = some t := hm ▸ ht
    have h3 : (afterSilence c s).modes.mode ≠ 3 := by rw [hm]; omega
    obtain ⟨hmode, htrans, -⟩ := stageReached_warm_modes ht' hs hf h3
    refine does_of_keeps (execServeExitSilence_keeps (maskOf_all _) (Keeps.refl s)) (execServeExitSilence_reached hexit)
      ⟨hmode, htrans, ?_⟩
    exact (getBf_congr (congrArg Air.bfs (stageReached_warm_air ht' hs hf h3))).trans (getBf_afterSilence hbfs)
  case reached =>
    intro s t ⟨h2, ht, hs, hf, hh, hc, hup⟩
    exact does_of_keeps (execModeTransitionDone_keeps (maskOf_all _) (Keeps.refl s))
      (execModeTransitionDone_reached ht (by omega) hh hc (hs ▸ hup)) (stageReached_warm_modes ht hs hf (by omega))
  case waits =>
    intro s t ⟨ht, hh⟩
    exact does_of_keeps (execModeTransitionDone_keeps (maskOf_all _) (Keeps.refl s)) (execModeTransitionDone_waits ht hh) rfl

end Sys2Proof
end

section
/-!
The 1 GHz clock: what a tick does to the time-of-day counter and the keeper (R194, R211, R742), and what the moving of the clock to
the instant of an event leaves of the cadence and of network time. The statement on the idle step (O40) follows from them.
-/

namespace Sys2Proof.Machine

section
variable {s : State} {t : Int}

theorem step_idle (h : s.pending = []) : step s = .next (tick s) := by simp only [step, h]

theorem tick_frame : Framed [.cad, .clk] s (tick s) := frame_of_keeps (tick_keeps (maskOf_all _) (Keeps.refl s))
theorem tickTod_frame : Framed [.cad] s (tickTod s) := frame_of_keeps (tickTod_keeps (maskOf_all _) (Keeps.refl s))
theorem tickKeeper_frame : Framed [.clk] s (tickKeeper s) := frame_of_keeps (tickKeeper_keeps (maskOf_all _) (Keeps.refl s))

theorem tickTod_cad : (tickTod s).cad =
    if s.cad.run = true ∧ s.modes.mode ≠ 3 then { s.cad with tod := (s.cad.tod + s.cad.incr) % 2 ^ 96 } else s.cad := by
  simp only [tickTod, apply_ite State.cad, State.onCad_cad, Bool.and_eq_true, bne_iff_ne]

theorem tickKeeper_clk : (tickKeeper s).clk =
    if s.pwr.vddAon = true then
      { s.clk with keeper := (s.clk.keeper + (s.clk.keeperPart + 64) / 1953125) % 2 ^ 48
                   keeperPart := (s.clk.keeperPart + 64) % 1953125 }
    else s.clk := by
  simp only [tickKeeper, apply_ite State.clk, State.onClk_clk]

theorem tick_cad : (tick s).cad = (tickTod s).cad := tickKeeper_frame.2 .cad (by decide)

/-- The keeper's tick does not see that the counter has gone on. -/
theorem tick_clk : (tick s).clk = (tickKeeper s).clk := by
  have hclk : (tickTod s).clk = s.clk := tickTod_frame.2 .clk (by decide)
  have hpwr : (tickTod s).pwr = s.pwr := tickTod_frame.2 .pwr (by decide)
  rw [tick, tickKeeper_clk, tickKeeper_clk, hclk, hpwr]

/-! To the instant of an event (log entry 21) the clock moves the counter and the keeper's count alone. -/

theorem advanceTo_cad : (advanceTo t s).cad = { s.cad with tod := (advanceTo t s).cad.tod } := by
  unfold advanceTo
  dsimp only
  split <;> split <;> rfl

theorem advanceTo_clk : (advanceTo t s).clk =
    { s.clk with keeper := (advanceTo t s).clk.keeper, keeperPart := (advanceTo t s).clk.keeperPart } := by
  unfold advanceTo
  dsimp only
  split <;> split <;> rfl

@[simp] theorem advanceTo_state : (advanceTo t s).cad.state = s.cad.state := by rw [advanceTo_cad]
@[simp] theorem advanceTo_epoch : (advanceTo t s).cad.epoch = s.cad.epoch := by rw [advanceTo_cad]
@[simp] theorem advanceTo_bpCode : (advanceTo t s).cad.bpCode = s.cad.bpCode := by rw [advanceTo_cad]
@[simp] theorem advanceTo_inDelay : (advanceTo t s).cad.inDelay = s.cad.inDelay := by rw [advanceTo_cad]
@[simp] theorem advanceTo_tol : (advanceTo t s).cad.tol = s.cad.tol := by rw [advanceTo_cad]
@[simp] theorem advanceTo_decided : (advanceTo t s).cad.decided = s.cad.decided := by rw [advanceTo_cad]
@[simp] theorem advanceTo_consec : (advanceTo t s).cad.consec = s.cad.consec := by rw [advanceTo_cad]
@[simp] theorem advanceTo_missed : (advanceTo t s).cad.missed = s.cad.missed := by rw [advanceTo_cad]
@[simp] theorem advanceTo_good : (advanceTo t s).cad.good = s.cad.good := by rw [advanceTo_cad]
@[simp] theorem advanceTo_steps : (advanceTo t s).cad.steps = s.cad.steps := by rw [advanceTo_cad]
@[simp] theorem advanceTo_delay : (advanceTo t s).clk.delay = s.clk.delay := by rw [advanceTo_clk]

end

end Sys2Proof.Machine

namespace Sys2Proof
open Sys2Proof.Machine

/-- Settles O40: an empty queue selects the tick, whose two halves are the counter's and the keeper's. -/
theorem idleStepIsOneTick : Obligations.IdleStepIsOneTick := fun _ hidle =>
  ⟨_, step_idle hidle, tick_frame, tick_cad.trans tickTod_cad, tick_clk.trans tickKeeper_clk⟩

end Sys2Proof
end

section
/-!
Marks (R198 to R205): what becomes of a mark that is missed or good, what a change of the cadence's state does to the cadence, and
the rows of the mark pins, of the realignment and of HOLDOVER in those terms. The statement on marks (O15) follows from them.
-/

namespace Sys2Proof.Machine

section
variable {s u : State} {ring : Bool} {m : Mark} {e : Int} {kind n t : Nat} {frame : W64}

/-! A mark as it is judged. -/

/-- Outside LOCKED a missed mark is counted by its kind, and no more. -/
theorem missedMark_unlocked (h : s.cad.state ≠ 1) :
    missedMark kind s = s.onCad fun c => { c with missed := bump c.missed (kind - 1) } := if_neg h

/-- In LOCKED a first missed mark also begins the run of misses (R202). -/
theorem missedMark_first (h : s.cad.state = 1) (hrun : s.cad.consec = 0) :
    missedMark kind s = s.onCad fun c => { c with missed := bump c.missed (kind - 1), consec := c.consec + 1, lastKind := kind } :=
  (if_pos h).trans (if_neg (by simp [hrun]))

/-- Outside LOCKED a mark with a bad frame ends the run of consistent marks and is missed as CRC (R198, R199). -/
theorem judgeMark_badFrame (h : s.cad.state ≠ 1) (hcrc : m.crcOk = false) :
    judgeMark ring m s = s.onCad fun c => { c with markRun := none, missed := bump c.missed 2 } := by
  unfold judgeMark
  simp only [if_neg h, hcrc, Bool.not_false, if_true]
  exact missedMark_unlocked h

theorem markBeat_congr {x : Int} (he : u.cad.epoch = s.cad.epoch) (hb : u.cad.bpCode = s.cad.bpCode) : markBeat u x = markBeat s x := by
  simp only [markBeat, bpNs, he, hb]

/-- What makes a mark good in LOCKED (R198): it comes within the tolerance of the start of a beat that is undecided, and its frame
says that beat and the period in force. -/
structure Mark.Good (m : Mark) (s : State) : Prop where
  crc : m.crcOk = true
  period : m.bp = s.cad.bpCode
  number : (markBeat s m.at_).1 = m.beat
  undecided : s.cad.decided ≠ some m.beat
  notEarly : -(s.cad.tol : Int) ≤ (markBeat s m.at_).2
  notLate : (markBeat s m.at_).2 < s.cad.tol

theorem Mark.Good.congr (h : m.Good s) (he : u.cad.epoch = s.cad.epoch) (hb : u.cad.bpCode = s.cad.bpCode)
    (ht : u.cad.tol = s.cad.tol) (hd : u.cad.decided = s.cad.decided) : m.Good u := by
  obtain ⟨hcrc, hbp, hno, hnew, hlo, hhi⟩ := h
  have hbeat : markBeat u m.at_ = markBeat s m.at_ := markBeat_congr he hb
  exact ⟨hcrc, by rwa [hb], by rwa [hbeat], by rwa [hd], by rwa [hbeat, ht], by rwa [hbeat, ht]⟩

@[simp] theorem goodMark_state : (goodMark e n s).cad.state = s.cad.state := rfl
/-- Which marks MARKS_GOOD counts is the model's choice (log entry 36). -/
@[simp] theorem goodMark_good : (goodMark e n s).cad.good = satAdd 32 s.cad.good 1 := rfl
@[simp] theorem goodMark_consec : (goodMark e n s).cad.consec = 0 := rfl
@[simp] theorem goodMark_lastErr : (goodMark e n s).cad.lastErr = e := rfl
@[simp] theorem goodMark_lastGood : (goodMark e n s).cad.lastGood = n := rfl

theorem judgeMark_good (h : s.cad.state = 1) (hm : m.Good s) :
    judgeMark ring m s = goodMark (markBeat s m.at_).2 m.beat (s.onCad fun c => { c with decided := some m.beat }) := by
  obtain ⟨hcrc, hbp, hno, hnew, hlo, hhi⟩ := hm
  have hlate : ¬ (s.cad.tol : Int) ≤ (markBeat s m.at_).2 := by omega
  have hearly : ¬ (markBeat s m.at_).2 < -(s.cad.tol : Int) := by omega
  simp [judgeMark, h, hno, hnew, hlate, hearly, hcrc, hbp]

/-! A change of the cadence's state (R201, R204, R401, R422). -/

theorem resumeHopping_cad : (resumeHopping s).cad = s.cad :=
  (frame_of_keeps (resumeHopping_keeps (maskOf_all _) (Keeps.refl s))).2 .cad (by decide)
theorem degradeFlows_cad : (degradeFlows s).cad = s.cad :=
  (frame_of_keeps (degradeFlows_keeps (maskOf_all _) (Keeps.refl s))).2 .cad (by decide)
theorem discardPlans_cad : (discardPlans s).cad = s.cad :=
  (frame_of_keeps (discardPlans_keeps (maskOf_all _) (Keeps.refl s))).2 .cad (by decide)

/-- Whatever follows for hopping, flows, plans and outputs, the cadence takes the state, and of its own the run and the bound. -/
theorem setCad_cad : (setCad n s).cad = { s.cad with
    state := n, markRun := none
    errBound := if s.cad.state = 2 && n != 3 then errNow s else s.cad.errBound
    growing := n = 3 || (s.cad.growing && (n = 0 || n = 6)) } := by
  simp only [setCad, refreshOuts_cad, apply_ite State.cad, degradeFlows_cad, discardPlans_cad, resumeHopping_cad, ite_self,
    State.onCad_cad]

/-! The rows. -/

theorem execCadPulseMark_badFrame (hon : marksOn s = true) (hsrc : s.cad.source = 0) (h : s.cad.state ≠ 1)
    (hframe : cadFrameOk frame = false) : execCadPulseMark t frame s =
      .next ((advanceTo t s).onCad fun c => { c with markRun := none, missed := bump c.missed 2 }) := by
  refine (next_onlyIf (by simp [hon, hsrc])).trans (congrArg _ ?_)
  simp only [hframe, Bool.false_eq_true, if_false]
  exact judgeMark_badFrame (by rwa [advanceTo_state]) rfl

theorem execMarkFrameTimeout_missed (hon : marksOn s = true) (hsrc : s.cad.source = 0) (h : s.cad.state ≠ 1) :
    execMarkFrameTimeout t s =
      .next ((advanceTo (t + 20000) s).onCad fun c => { c with markRun := none, missed := bump c.missed 2 }) :=
  (next_onlyIf (by simp [hon, hsrc])).trans (congrArg _ (judgeMark_badFrame (by rwa [advanceTo_state]) rfl))

/-- A mark of the pins as CAD_PULSE_MARK judges it where its frame's CRC is good (R205). -/
def pulseMark (t : Nat) (frame : W64) (s : State) : Mark :=
  { at_ := (t : Int) - s.cad.inDelay, beat := frame.toNat / 2 ^ 16, bp := frame.toNat / 2 ^ 13 % 8 }

/-- A good mark is taken by the cadence as the counter then stands, with the sender's flags of its frame. -/
theorem execCadPulseMark_good (hon : marksOn s = true) (hsrc : s.cad.source = 0) (h : s.cad.state = 1)
    (hframe : cadFrameOk frame = true) (hm : (pulseMark t frame s).Good s) :
    execCadPulseMark t frame s = .next (goodMark (markBeat s (pulseMark t frame s).at_).2 (frame.toNat / 2 ^ 16)
      ((advanceTo t s).onCad fun c => { c with sender := (frame >>> 11).setWidth 2, decided := some (frame.toNat / 2 ^ 16) })) := by
  refine (next_onlyIf (by simp [hon, hsrc])).trans (congrArg _ ?_)
  simp only [hframe, if_true, State.onCad_cad, advanceTo_inDelay]
  have hbeat : ∀ x, markBeat ((advanceTo t s).onCad fun c => { c with sender := (frame >>> 11).setWidth 2 }) x = markBeat s x :=
    fun _ => markBeat_congr (by simp) (by simp)
  rw [← hbeat]
  exact judgeMark_good (m := pulseMark t frame s) (by simpa using h) (hm.congr (by simp) (by simp) (by simp) (by simp))

/-- In LOCKED the end of an interval without a mark, whatever the source, is a missed mark of kind ABSENT (R198). -/
theorem execMarkWindowExpiry_absent (hon : marksOn s = true) (h : s.cad.state = 1) (hrun : s.cad.consec = 0) :
    ∃ v, execMarkWindowExpiry s = .next (missedMark 2 v) ∧ v.cad.state = 1 ∧ v.cad.consec = 0 ∧ v.cad.missed = s.cad.missed := by
  refine ⟨_, (next_onlyIf (by simp [hon, h])).trans (congrArg _ (apply_ite (missedMark 2) _ _ _).symm), ?_⟩
  split
  · exact ⟨h, hrun, rfl⟩
  · simp [h, hrun]

theorem execSlewDone_settles (h : s.cad.state = 6) (hslew : s.cad.realign = .slew) :
    execSlewDone s = .next (s.onCad fun c => { c with realign := .settle, incr := coastIncr s }) :=
  next_onlyIf (by simp [h, hslew])

/-- At the end of its budget HOLDOVER gives way to DEGRADED, whether or not marks have begun a run (R204). -/
theorem execHoldoverBudgetExpiry_degrades (h : s.cad.state = 2) : ∃ v, execHoldoverBudgetExpiry s = .next v ∧
    v.cad.state = 3 ∧ v.cad.used = max s.cad.used s.cad.budget ∧ v.cad.expiries = satAdd 32 s.cad.expiries 1 := by
  refine ⟨_, next_onlyIf (by simp [h]), ?_⟩
  simp only [State.onCad_cad, setCad_cad, raise_cad, and_self]

end

end Sys2Proof.Machine

namespace Sys2Proof
open Sys2Proof.Machine Sys2Proof.Claim

/-- Settles O15: each row's outcome under its conditions; of the cadence, what the move of the clock and the raising of events leave. -/
theorem cadenceMarksTakeEffect : Obligations.CadenceMarksTakeEffect := by
  refine ⟨?badFrame, ?good, ?timeout, ?absent, ?slew, ?budget⟩
  case badFrame =>
    intro s t frame ⟨hon, hsrc, hst, hframe⟩
    refine does_of_keeps (execCadPulseMark_keeps (maskOf_all _) (Keeps.refl s)) (execCadPulseMark_badFrame hon hsrc hst hframe) ?_
    simp
  case good =>
    intro s t frame ⟨hon, hsrc, hst, hframe, hbp, hbeat, hnew, hlo, hhi⟩
    refine does_of_keeps (execCadPulseMark_keeps (maskOf_all _) (Keeps.refl s))
      (execCadPulseMark_good hon hsrc hst hframe ⟨rfl, hbp, hbeat, hnew, hlo, hhi⟩) ?_
    simp [pulseMark, hst]
  case timeout =>
    intro s t ⟨hon, hsrc, hst⟩
    refine does_of_keeps (execMarkFrameTimeout_keeps (maskOf_all _) (Keeps.refl s)) (execMarkFrameTimeout_missed hon hsrc hst) ?_
    simp
  case absent =>
    intro s ⟨hon, hst, hrun⟩
    obtain ⟨v, hexec, hst', hrun', hmissed⟩ := execMarkWindowExpiry_absent hon hst hrun
    refine does_of_keeps (execMarkWindowExpiry_keeps (maskOf_all _) (Keeps.refl s)) hexec ?_
    simp [missedMark_first hst' hrun', hst', hrun', hmissed]
  case slew =>
    intro s ⟨hst, hslew⟩
    exact does_of_keeps (execSlewDone_keeps (maskOf_all _) (Keeps.refl s)) (execSlewDone_settles hst hslew) rfl
  case budget =>
    intro s hst
    obtain ⟨v, hexec, hv⟩ := execHoldoverBudgetExpiry_degrades hst
    exact does_of_keeps (execHoldoverBudgetExpiry_keeps (maskOf_all _) (Keeps.refl s)) hexec hv

end Sys2Proof
end

section
/-!
Network time and the keeper (R194, R207 to R219): the rows of PTP, of the keeper's trim, of the latched time registers and of the
steps of the counter, each as its effect where it can happen. The statement on time events (O16) follows from them.
-/

namespace Sys2Proof.Machine

section
variable {s : State} {code : Nat} {obj : Option Nat} {pl : List Byte} {mb : Nat} {q : W16} {d t1 t2 t3 t4 corr trim : Int}

/-! PTP (R207, R208). -/

theorem noteTime_gm : (noteTime s).clk.gm = s.clk.gm := by
  unfold noteTime
  split <;> rfl

/-- An event that is raised may note the time, but leaves the grandmaster (R742). -/
theorem raise_gm : (raise code obj pl s mb q).clk.gm = s.clk.gm := by
  unfold raise
  split
  · rfl
  dsimp only
  split
  · rw [ringRoute_frame.2 .clk (by decide), logRec_clk, noteTime_gm]
  · rw [logRec_clk, noteTime_gm]

/-- The grandmaster that an Announce offers (R207). -/
def offeredGm (a : Announce) : Gm :=
  { prio1 := a.prio1, cls := a.cls, accuracy := a.accuracy, variance := a.variance, prio2 := a.prio2, identity := a.identity,
    stepsRemoved := a.steps }

/-- Where none is selected, the grandmaster of an Announce is, and the change is reported (R207). -/
theorem execPtpAnnounce_first {a : Announce} (hon : ptpOn s = true) (harb : a.timescaleArb = false) (hnone : s.clk.gm = none) :
    execPtpAnnounce a s = .next (raise 0x0388 none (le 8 a.identity.toNat) (s.onClk fun k => { k with gm := some (offeredGm a) })) := by
  refine (next_onlyIf (by simp [hon, harb])).trans (congrArg _ ?_)
  simp only [hnone, if_true]
  rfl

theorem delayFresh_none (h : s.clk.delay = none) : delayFresh s = none := by simp only [delayFresh, h]

/-- Outside LOCKED a Sync without a mean path delay is kept, and ends the run of consistent marks (R198, R199). -/
theorem execPtpSyncMark_noDelay (hon : ptpOn s = true) (hgm : s.clk.gm.isSome = true) (hd : s.clk.delay = none)
    (hst : s.cad.state ≠ 1) : execPtpSyncMark t1 t2 corr s =
      .next (((advanceTo t2 s).onClk fun k => { k with sync := some (t1 + corr, t2) }).onCad fun c => { c with markRun := none }) := by
  refine (next_onlyIf (by simp [hon, hgm])).trans (congrArg _ ?_)
  have hnone : delayFresh ((advanceTo t2 s).onClk fun k => { k with sync := some (t1 + corr, t2) }) = none :=
    delayFresh_none (by simp [hd])
  simp only [hnone]
  exact if_neg (by simpa using hst)

theorem execPtpDelayReqTimer_sent (hon : ptpOn s = true) (hgm : s.clk.gm.isSome = true) :
    execPtpDelayReqTimer t3 s = .next ((s.onClk fun k => { k with t3 := some t3 }).emit (.eth s.clk.ptpPort [])) :=
  next_onlyIf (by simp [hon, hgm])

/-- The mean path delay of the last Sync and Delay_Req (R208), once. -/
theorem execPtpDelayResp_measured (hon : ptpOn s = true) (hsync : s.clk.sync = some (t1, t2)) (ht3 : s.clk.t3 = some t3) :
    execPtpDelayResp t4 corr s = .next (s.onClk fun k =>
      { k with delay := some (((t2 - t3) + (t4 - corr - t1)).ediv 2, nowNs s), t3 := none }) := by
  refine (next_onlyIf hon).trans (congrArg _ ?_)
  simp only [hsync, ht3]

/-! The keeper, the time registers and the steps of the counter (R211, R214, R219). -/

theorem execKeeperTrimWindow_trims (hrun : s.cad.run = true) (h3 : s.modes.mode ≠ 3) :
    execKeeperTrimWindow trim s = .next (s.onClk fun k => { k with trim }) :=
  next_onlyIf (by simp [hrun, h3])

theorem execTodSnapshotRead_latches (hlink : s.host.link = true) : execTodSnapshotRead s =
    .next (((noteTime s).onClk fun k => { k with snap := timeWords s }).onHost fun h =>
      { h with reply := .data (le 4 (readTod s / 2 ^ 32 % 2 ^ 32)) }) :=
  next_onlyIf hlink

/-- A step moves the counter and is counted in STEPS; that every step applied counts is the model's choice (log entry 36). -/
theorem stepCounter_cad {cause : Nat} : (stepCounter d cause s).cad =
    { s.cad with tod := ((s.cad.tod : Int) + d * 2 ^ 32).toNat, steps := satAdd 32 s.cad.steps 1 } := by
  have hgates {u : State} : (regate d u).cad = u.cad :=
    (frame_of_keeps (regate_keeps (maskOf_all _) (Keeps.refl u))).2 .cad (by decide)
  rw [stepCounter, hgates, raise_cad, State.onCad_cad]

/-- At the next beat the sum of the steps that wait is taken: a sum of 0 moves nothing (R219). -/
theorem execTimeStepApply_taken (hd : s.cad.stepSum = some d) (h3 : s.modes.mode ≠ 3) : execTimeStepApply s =
    .next (let u := (advanceTo (beatNs s (curBeat s + 1)) s).onCad fun c => { c with stepSum := none }
      if d = 0 then u else stepCounter d 0 u) := by
  simp only [execTimeStepApply, hd, if_neg h3]

end

end Sys2Proof.Machine

namespace Sys2Proof
open Sys2Proof.Machine Sys2Proof.Claim

/-- Settles O16: each row's effect under its conditions; what is reported of it leaves the grandmaster and the counts alone. -/
theorem timeEventsTakeEffect : Obligations.TimeEventsTakeEffect := by
  refine ⟨?announce, ?sync, ?delayReq, ?delayResp, ?trim, ?latch, ?noStep, ?step⟩
  case announce =>
    intro s gm ⟨hon, harb, hnone⟩
    exact does_of_keeps (execPtpAnnounce_keeps (maskOf_all _) (Keeps.refl s)) (execPtpAnnounce_first hon harb hnone) raise_gm
  case sync =>
    intro s t1 t2 corr ⟨hon, hgm, hd, hst⟩
    refine does_of_keeps (execPtpSyncMark_keeps (maskOf_all _) (Keeps.refl s)) (execPtpSyncMark_noDelay hon hgm hd hst) ?_
    simp
  case delayReq =>
    intro s t3 ⟨hon, hgm⟩
    exact does_of_keeps (execPtpDelayReqTimer_keeps (maskOf_all _) (Keeps.refl s)) (execPtpDelayReqTimer_sent hon hgm) ⟨rfl, rfl⟩
  case delayResp =>
    intro s t4 corr t1 t2 t3 ⟨hon, hsync, ht3⟩
    exact does_of_keeps (execPtpDelayResp_keeps (maskOf_all _) (Keeps.refl s)) (execPtpDelayResp_measured hon hsync ht3) rfl
  case trim =>
    intro s trim ⟨hrun, h3⟩
    exact does_of_keeps (execKeeperTrimWindow_keeps (maskOf_all _) (Keeps.refl s)) (execKeeperTrimWindow_trims hrun h3) rfl
  case latch =>
    intro s hlink
    exact does_of_keeps (execTodSnapshotRead_keeps (maskOf_all _) (Keeps.refl s)) (execTodSnapshotRead_latches hlink)
      ⟨rfl, rfl, noteTime_cad⟩
  case noStep =>
    intro s ⟨hd, h3⟩
    refine does_of_keeps (execTimeStepApply_keeps (maskOf_all _) (Keeps.refl s)) (execTimeStepApply_taken hd h3) ?_
    simp
  case step =>
    intro s d ⟨hd, hne, h3⟩
    refine does_of_keeps (execTimeStepApply_keeps (maskOf_all _) (Keeps.refl s)) (execTimeStepApply_taken hd h3) ?_
    simp [hne, stepCounter_cad]

end Sys2Proof
end

section
/-!
The opcodes of family 0x04 (R250 to R259, R325 to R327): the effect of each, as one equation per outcome, under the conditions that its
rule states. The statement on their answers (O18) follows from them.
-/

namespace Sys2Proof.Machine
open Sys2Proof.Claim

section
variable {o : OpSpec} {d : Doorbell} {p : List Byte} {s t : State} {c : Cmd} {b : Nat}

/-! The copying of a command leaves the front end and the air. -/

@[simp] theorem copied_fe : (copied o d p s).fe = s.fe := rfl
@[simp] theorem getBand_copied : getBand (copied o d p s) b = getBand s b := rfl
@[simp] theorem getPhy_copied : getPhy (copied o d p s) b = getPhy s b := rfl

theorem onBand_fe_congr {f : Band → Band} (h : t.fe = s.fe) : (onBand b f t).fe = (onBand b f s).fe := by
  simp only [onBand, State.onFe_fe, h]

/-- A band is replaced by the same image under two functions that agree on it. -/
theorem onBand_congr {f g : Band → Band} (h : f (getBand s b) = g (getBand s b)) : onBand b f s = onBand b g s := by
  unfold getBand at h
  unfold onBand State.onFe
  split at h <;> simp [*]

theorem colEvent_frame {source param : Nat} : Framed [.col, .out] s (colEvent source param s) :=
  frame_of_keeps (colEvent_keeps (maskOf_all _) (Keeps.refl s))
theorem colEvent_fe {source param : Nat} : (colEvent source param s).fe = s.fe := colEvent_frame.2 .fe (by decide)

/-! Channels (R230, R250). -/

/-- The channel that a BAND_CONFIG names (R250). -/
def channelOf (c : Cmd) : Channel := { width := c.u 17 1, center := c.u 18 2, primary := c.u 20 1, enable := bit (c.u 21 1) 0 }

/-- A synthesizer that has not FAILED locks again (R230). -/
def Band.retuning (f : Band) (n : Nat) : Band := if f.synth n = 4 then f else f.setSynth n 3

/-- A band whose two synthesizers retune to a channel (R230). -/
def Band.retuned (ch : Channel) (f : Band) : Band :=
  { (Band.retuning { f with retune := some ch, tracked := false } 0).retuning 1 with loReady := false }

@[simp] theorem Band.retuning_retune {f : Band} {n : Nat} : (f.retuning n).retune = f.retune := by
  simp only [Band.retuning, Band.setSynth, apply_ite Band.retune, ite_self]
@[simp] theorem Band.retuning_tracked {f : Band} {n : Nat} : (f.retuning n).tracked = f.tracked := by
  simp only [Band.retuning, Band.setSynth, apply_ite Band.tracked, ite_self]
@[simp] theorem Band.retuning_ch {f : Band} {n : Nat} : (f.retuning n).ch = f.ch := by
  simp only [Band.retuning, Band.setSynth, apply_ite Band.ch, ite_self]

theorem Band.retuned_facts {ch : Channel} {f : Band} : (f.retuned ch).retune = some ch ∧ (f.retuned ch).tracked = false ∧
    (f.retuned ch).loReady = false ∧ (f.retuned ch).ch = f.ch := by
  simp [Band.retuned]

/-- Outside SERVE both synthesizers retune (R230). -/
theorem specBandConfig_body (hb : c.u 16 1 ≤ 1) (hw : c.u 17 1 ≤ 3) (hp : c.u 20 1 < 2 ^ c.u 17 1)
    (hch : channelOk (c.u 16 1) (c.u 17 1) (c.u 18 2) = true) (h5 : s.modes.mode ≠ 5) :
    specBandConfig.body c s = (.pending, onBand (c.u 16 1) (Band.retuned (channelOf c)) s) := by
  refine (if_neg (by simp; omega)).trans ((if_neg (by simp [hch])).trans ((if_neg (by simp [h5])).trans ?_))
  simp only [if_neg h5]
  rfl

/-! Chains (R233, R244, R251, R252, R257). -/

/-- A band whose chains are enabled by the mask of CHAIN_ENABLE (R251). -/
def Band.enabledBy (c : Cmd) (f : Band) : Band :=
  { f with chains := f.chains.zipIdx.map fun x => { x.1 with enabled := bit (c.u (20 + x.2 / 8) 1) (x.2 % 8) } }

/-- Where no chain is excluded, none returns: the mask is all that is taken (R245, R251). -/
theorem specChainEnable_body (hb : c.u 16 1 ≤ 1) (hnone : ((getBand s (c.u 16 1)).chains.all fun k => k.cause == 0) = true) :
    specChainEnable.body c s =
      (.okAir, refreshOuts (colEvent 1 (c.u 16 1) (onBand (c.u 16 1) (Band.enabledBy c) s))) := by
  have hcause : ∀ k ∈ (getBand s (c.u 16 1)).chains, k.cause = 0 := by simpa using hnone
  have hget : ∀ i, ((getBand s (c.u 16 1)).chains.getD i {}).cause = 0 := by
    intro i
    rw [List.getD_eq_getElem?_getD]
    cases h : (getBand s (c.u 16 1)).chains[i]? with
    | none => rfl
    | some k => exact hcause k (List.mem_of_getElem? h)
  have hback : (List.range 96).filter (fun _ => false) = [] := List.filter_eq_nil_iff.2 fun _ _ => Bool.false_ne_true
  refine (if_neg (by omega)).trans ?_
  simp only [hget, bne_self_eq_false, Bool.and_false, hback, List.filter_nil, List.foldl_nil]
  congr 3
  refine onBand_congr (congrArg (fun l => { getBand s (c.u 16 1) with chains := l }) (List.map_congr_left fun x hx => ?_))
  have hx0 : x.1.cause = 0 := hcause _ (List.fst_mem_of_mem_zipIdx hx)
  cases hon : bit (c.u (20 + x.2 / 8) 1) (x.2 % 8)
  · rfl
  · simp only [hx0, Bool.not_true, Bool.false_eq_true, if_false, bne_self_eq_false, Bool.or_false]
    split
    · rfl
    · rw [← hx0]

/-- A band whose chains of TXPWR_SET have their power set, and their drive behind the gain of the front-end module (R233, R252). -/
def Band.powered (c : Cmd) (f : Band) : Band :=
  { f with chains := f.chains.zipIdx.map fun x =>
      if c.u 18 1 ≤ x.2 && x.2 < c.u 18 1 + c.u 19 1 then
        { x.1 with txpwr := c.i (20 + 2 * (x.2 - c.u 18 1)) 2, drive := c.i (20 + 2 * (x.2 - c.u 18 1)) 2 - f.femGain, powerSet := true }
      else x.1 }

theorem specTxpwrSet_body (hb : c.u 16 1 ≤ 1) (hfirst : c.u 18 1 ≤ 95) (hn : 1 ≤ c.u 19 1) (hend : c.u 18 1 + c.u 19 1 ≤ 96)
    (hdrive : badDrive c (getBand s (c.u 16 1)).femGain (c.u 18 1) (c.u 19 1) = none) :
    specTxpwrSet.body c s = (.okAir, onBand (c.u 16 1) (Band.powered c) s) := by
  refine (if_neg (by simp; omega)).trans ?_
  simp only [hdrive]
  exact congrArg _ (onBand_congr rfl)

/-- What CHAIN_STATUS answers of a band from a chain on (R257). -/
def Band.statusData (b first n : Nat) (f : Band) : List Byte :=
  le 1 b ++ le 1 f.main ++ le 1 f.sa ++ le 1 f.sb ++ le 2 f.ch.center ++ le 1 f.ch.width ++
  le 1 ((f.chains.filter fun x => x.cause != 0).length) ++ (f.outc.flatMap fun x => le 4 x.toNat) ++
  ((f.chains.drop first).take n).flatMap fun x => le 1 (if x.cause != 0 then 2 else if x.enabled then 1 else 0) ++ le 1 x.cause ++
    le 1 x.slice ++ le 1 x.rl ++ leI 2 x.txpwr ++ leI 1 (if x.proving then -96 else x.drive) ++ [0]

theorem specChainStatus_body (hb : c.u 16 1 ≤ 1) (hn : 1 ≤ c.u 18 1) (hn' : c.u 18 1 ≤ 48) (hend : c.u 17 1 + c.u 18 1 ≤ 96) :
    specChainStatus.body c s = (.ok ((getBand s (c.u 16 1)).statusData (c.u 16 1) (c.u 17 1) (c.u 18 1)), s) :=
  if_neg (by simp; omega)

/-! Front-end modules and coexistence (R240, R241, R253 to R256). -/

/-- A band as FEM_CONFIG leaves it (R253). -/
def Band.configured (c : Cmd) (f : Band) : Band :=
  { f with
    sclk := c.u 17 1, tLnaOff := c.u 20 2, tTrsw := c.u 22 2, tPa := c.u 24 2, tHold := c.u 26 2, tPaOff := c.u 28 2, tRx := c.u 30 2,
    femGain := c.i 32 2, cplLoss := c.u 34 2, cplReg := c.u 36 2, cplFwd := c.u 38 1, cplRev := c.u 39 1, stbyReg := c.u 40 2,
    stbyVal := c.u 42 1, actVal := c.u 43 1, mmInterval := c.u 44 2,
    chains := f.chains.zipIdx.map fun x =>
      if x.1.powerSet then { x.1 with usid := c.u (48 + x.2) 1, drive := max (-96) (min 24 (x.1.txpwr - c.i 32 2)) }
      else { x.1 with usid := c.u (48 + x.2) 1, txpwr := x.1.drive + c.i 32 2 } }

theorem Band.configured_facts {f g : Band} (h : g = f.configured c) : g.femGain = c.i 32 2 ∧ g.tPa = c.u 24 2 ∧ g.tHold = c.u 26 2 ∧
    g.mmInterval = c.u 44 2 ∧ g.stbyReg = c.u 40 2 ∧ g.ch = f.ch := by
  subst h
  exact ⟨rfl, rfl, rfl, rfl, rfl, rfl⟩

theorem specFemConfig_body (hok : femConfigOk c = true) :
    specFemConfig.body c s = (.ok, onBand (c.u 16 1) (Band.configured c) s) :=
  if_neg (by simp [hok])

theorem emit_fe_ite {q : Prop} [Decidable q] {e : Emit} : (if q then s.emit e else s).fe = s.fe := by
  split <;> rfl

/-- A transaction joins its bus behind those that wait (R241). -/
theorem getBand_rffePush {bus : Nat} {x : Rffe} : getBand (rffePush b bus x s) b =
    { getBand s b with rffe := updAt (getBand s b).rffe bus fun l => l ++ [x] } := by
  unfold rffePush
  exact (getBand_congr emit_fe_ite).trans getBand_onBand

/-- The transaction that an RFFE_ACCESS of an extended write asks for (R254). -/
def writeOf (c : Cmd) : Rffe :=
  { usid := c.u 18 1, op := 3, addr := c.u 20 2, data := c.bytes 24 (c.u 22 1), count := c.u 22 1, by_ := some c }

theorem specRffeAccess_body_write (hb : c.u 16 1 ≤ 1) (hbus : c.u 17 1 ≤ 2) (hu : c.u 18 1 ≤ 15) (hop : c.u 19 1 = 3)
    (haddr : c.u 20 2 ≤ 0xFF) (hk : 1 ≤ c.u 22 1) (hk' : c.u 22 1 ≤ 4) :
    specRffeAccess.body c s = (.wait, rffePush (c.u 16 1) (c.u 17 1) (writeOf c) s) := by
  simp only [specRffeAccess, hop]
  refine (if_neg (by simp; omega)).trans ?_
  rfl

theorem specCoexConfig_body (hmode : c.u 16 1 ≤ 2) (hlead : 2 ≤ c.u 18 2) (hlead' : c.u 18 2 ≤ 100) (hpri : c.u 20 1 ≤ 2) :
    specCoexConfig.body c s = (.okAir, s.onFe fun f => { f with
      coexMode := c.u 16 1, coexMask := c.u 17 1, reqLead := c.u 18 2, priPolicy := c.u 20 1, coexResp := bit (c.u 21 1) 0 }) :=
  if_neg (by simp; omega)

theorem specBlankMap_body (htail : c.u 20 2 ≤ 10000) :
    specBlankMap.body c s = (.okAir, s.onFe fun f => { f with
      blankMap := [16, 17, 18, 19].map fun o => BitVec.ofNat 6 (c.u o 1), blankTail := c.u 20 2 }) :=
  if_neg (by omega)

/-! Tests (R258, R259). -/

/-- The line pattern drives the lines of the groups of the chains named, and leaves the DACs (R258). -/
theorem specFactoryTest_body_lines (hkind : c.u 16 1 = 1) (hb : c.u 17 1 ≤ 1) (hch : c.u 18 1 ≤ 95) (hfreq : c.i 20 4 = 0)
    (hpow : c.i 24 2 = 0) (hms : 1 ≤ c.u 26 2) (hms' : c.u 26 2 ≤ 10000) (hfree : opPending s 0x0501 = false) :
    specFactoryTest.body c s = (.pending,
      let m := lineMask (c.u 17 1) (testGroups (getBand s (c.u 17 1)) (c.u 18 1))
      (s.onFe fun f => { f with test := some (1, c.u 17 1, c.u 18 1) }).onOuts fun o =>
        { o with paen := o.paen ||| m, trsw := o.trsw ||| m, lnaen := o.lnaen &&& ~~~m }) := by
  have hhalf : (0 : Int) ≤ 10000 * 2 ^ (getBand s (c.u 17 1)).ch.width :=
    Int.mul_nonneg (by decide) (Int.pow_nonneg (by decide))
  simp only [specFactoryTest, hkind, hfreq, hpow, hfree]
  refine (if_neg (by simp; omega)).trans ?_
  simp

theorem specSpectrumSurvey_body (hb : c.u 16 1 = 0) (hch : c.u 17 1 ≤ 95) (hlo : 5150 ≤ c.u 20 2) (hle : c.u 20 2 ≤ c.u 22 2)
    (hhi : c.u 22 2 ≤ 5925) (hdw : 100 ≤ c.u 24 4) (hdw' : c.u 24 4 ≤ 1000000) (hring : 32 ≤ c.u 28 1) (hring' : c.u 28 1 ≤ 61)
    (htype : (getRing s (c.u 28 1)).type = 2) :
    specSpectrumSurvey.body c s = (.pending, refreshOuts (s.onFe fun f =>
      { f with survey := some (0, c.u 17 1, c.u 20 2, c.u 22 2, c.u 24 4, c.u 28 1) })) := by
  simp only [specSpectrumSurvey, hb, if_true]
  exact if_neg (by simp [hring, hring', htype]; omega)

/-! Sounding, precoding and channel state (R325 to R327). -/

theorem specSoundingConfig_body (hb : c.u 16 1 ≤ 1) (hre : 2 ≤ c.u 18 2) (hre' : c.u 18 2 ≤ 1000) (hage : c.u 18 2 ≤ c.u 20 2)
    (hage' : c.u 20 2 ≤ 2000) (hfrac : c.u 22 1 ≤ 20) (htx : 1 ≤ c.u 23 1) (htx' : c.u 23 1 ≤ 4) (hng : c.u 24 1 ≤ 1)
    (hbook : c.u 25 1 ≤ 1) (hexp : 100 ≤ c.u 26 2) (hexp' : c.u 26 2 ≤ 60000) (hsnr : c.u 28 1 ≤ 60) :
    specSoundingConfig.body c s = (.okAir, onPhy (c.u 16 1) (fun p => { p with
      sndFlags := BitVec.ofNat 3 (c.u 17 1), resound := c.u 18 2, maxAge := c.u 20 2, frac := c.u 22 1, maxTx := c.u 23 1, ng := c.u 24 1,
      codebook := c.u 25 1, explicit := c.u 26 2, minSnr := c.u 28 1 }) s) :=
  if_neg (by simp; omega)

theorem specPrecodeConfig_body (hb : c.u 16 1 ≤ 1) (hreg : c.u 18 2 ≤ 256) (hstep : 6 ≤ c.u 20 1) (hstep' : c.u 20 1 ≤ 20)
    (hbroad : c.u 21 1 ≤ 11) (hgi : c.u 22 1 ≤ 3) (htb : c.u 23 1 ≤ 1) (hsets : 1 ≤ c.u 25 1) (hsets' : c.u 25 1 ≤ 8)
    (hprim : bit (c.u 24 1) (getBand s (c.u 16 1)).ch.primary = false)
    (hpunct : punctOk (getBand s (c.u 16 1)).ch.width (c.u 24 1) = true) :
    specPrecodeConfig.body c s = (.okAir, onPhy (c.u 16 1) (fun p => { p with
      restartEn := bit (c.u 17 1) 0, reg := c.u 18 2, stepDb := c.u 20 1, broad := c.u 21 1, gi := c.u 22 1, tbGi := c.u 23 1,
      punct := BitVec.ofNat 8 (c.u 24 1), maxSets := c.u 25 1 }) s) :=
  (if_neg (by simp; omega)).trans (if_neg (by simp [hprim, hpunct]))

/-- The counters of a band's PHY are read, and cleared where asked (R327). -/
theorem specCsiRead_body_counters (hkind : c.u 16 1 = 2) (hb : c.u 17 1 ≤ 1) :
    specCsiRead.body c s = (.ok (ctrBytes (getPhy s (c.u 17 1)).ctr ++ le 4 0),
      if bit (c.u 22 1) 0 then onPhy (c.u 17 1) (fun p => { p with ctr := zeroed p.ctr }) s else s) := by
  simp only [specCsiRead, hkind]
  exact if_neg (by simp; omega)

/-- A station that is not listed has no channel state (R327). -/
theorem specCsiRead_body_absent (hkind : c.u 16 1 = 0) (hb : c.u 17 1 ≤ 1) (hsta : c.u 18 2 ≤ 2047) (hstream : c.u 20 1 ≤ 3)
    (hgroup : c.u 21 1 < toneGroups (getBand s (c.u 17 1)).ch.width) (hnone : getSta s (c.u 18 2) = none) :
    specCsiRead.body c s = (.err 0x0405, s) := by
  simp only [specCsiRead, hkind, hnone]
  exact if_neg (by simp; omega)

end

end Sys2Proof.Machine

namespace Sys2Proof
open Sys2Proof.Machine Sys2Proof.Claim

/-- Settles O18: each opcode's effect under its conditions, from the state in which its command has been copied. -/
theorem family04CommandsAnswer : Obligations.Family04CommandsAnswer := by
  unfold Obligations.Family04CommandsAnswer
  dsimp only
  refine ⟨?band, ?chains, ?power, ?fem, ?rffe, ?coex, ?blank, ?status, ?test, ?survey, ?sounding, ?precode, ?clear, ?counters, ?absent⟩
  case band =>
    intro s d p hready hpending ⟨hb, hw, hp, hch, h4⟩
    have h5 : (copied specBandConfig d p s).modes.mode ≠ 5 := by rw [copied_modes]; omega
    refine accepts_of_keeps hready (specBandConfig_keeps (by decide) (copied_keeps (by decide)))
      (specBandConfig_body hb hw hp hch h5) hpending (by decide) fun f => ?_
    rw [getBand_congr (State.onMbx_fe ..), getBand_onBand]
    exact Band.retuned_facts
  case chains =>
    intro s d p hready ⟨hb, hnone⟩
    refine answers_of_keeps hready (specChainEnable_keeps (by decide) (copied_keeps (by decide)))
      (specChainEnable_body hb hnone) Nat.zero_ne_one ?_
    rw [refreshOuts_fe, colEvent_fe]
    exact onBand_fe_congr copied_fe
  case power =>
    intro s d p hready ⟨hb, hfirst, hn, hend, hdrive⟩
    refine answers_of_keeps hready (specTxpwrSet_keeps (by decide) (copied_keeps (by decide)))
      (specTxpwrSet_body hb hfirst hn hend (by rwa [getBand_copied])) Nat.zero_ne_one ?_
    rw [onBand_fe_congr copied_fe]
    exact congrArg State.fe (onBand_congr rfl)
  case fem =>
    intro s d p hready hok
    refine answers_ok_of_keeps hready (specFemConfig_keeps (by decide) (copied_keeps (by decide))) (specFemConfig_body hok) ?_
    exact Band.configured_facts getBand_onBand
  case rffe =>
    intro s d p hready ⟨hb, hbus, hu, hop, haddr, hk, hk'⟩
    refine does_of_answers_wait (answers_of_keeps hready (specRffeAccess_keeps (by decide) (copied_keeps (by decide)))
      (specRffeAccess_body_write hb hbus hu hop haddr hk hk') Nat.zero_ne_one ?_)
    rw [getBand_rffePush, getBand_copied]
    rfl
  case coex =>
    intro s d p hready ⟨hmode, hlead, hlead', hpri⟩
    exact answers_of_keeps hready (specCoexConfig_keeps (by decide) (copied_keeps (by decide)))
      (specCoexConfig_body hmode hlead hlead' hpri) Nat.zero_ne_one rfl
  case blank =>
    intro s d p hready htail
    exact answers_of_keeps hready (specBlankMap_keeps (by decide) (copied_keeps (by decide))) (specBlankMap_body htail)
      Nat.zero_ne_one rfl
  case status =>
    intro s d p hready ⟨hb, hn, hn', hend⟩
    have hbody := specChainStatus_body (s := copied specChainStatus d p s) hb hn hn' hend
    rw [getBand_copied, Band.statusData] at hbody
    exact answers_ok_of_keeps hready (specChainStatus_keeps (by decide) (copied_keeps (by decide))) hbody rfl
  case test =>
    intro s d p hready hpending ⟨hkind, hb, hch, hfreq, hpow, hms, hms', hfree⟩
    exact accepts_of_keeps hready (specFactoryTest_keeps (by decide) (copied_keeps (by decide)))
      (specFactoryTest_body_lines hkind hb hch hfreq hpow hms hms' hfree) hpending (by decide) fun f => ⟨rfl, rfl, rfl⟩
  case survey =>
    intro s d p hready hpending ⟨hb, hch, hlo, hle, hhi, hdw, hdw', hring, hring', htype⟩
    refine accepts_of_keeps hready (specSpectrumSurvey_keeps (by decide) (copied_keeps (by decide)))
      (specSpectrumSurvey_body hb hch hlo hle hhi hdw hdw' hring hring' htype) hpending (by decide) fun f => ?_
    rw [State.onMbx_fe, refreshOuts_fe]
    rfl
  case sounding =>
    intro s d p hready ⟨hb, hre, hre', hage, hage', hfrac, htx, htx', hng, hbook, hexp, hexp', hsnr⟩
    refine answers_of_keeps hready (specSoundingConfig_keeps (by decide) (copied_keeps (by decide)))
      (specSoundingConfig_body hb hre hre' hage hage' hfrac htx htx' hng hbook hexp hexp' hsnr) Nat.zero_ne_one ?_
    rw [getPhy_onPhy, getPhy_copied]
  case precode =>
    intro s d p hready ⟨hb, hreg, hstep, hstep', hbroad, hgi, htb, hsets, hsets', hprim, hpunct⟩
    refine answers_of_keeps hready (specPrecodeConfig_keeps (by decide) (copied_keeps (by decide)))
      (specPrecodeConfig_body hb hreg hstep hstep' hbroad hgi htb hsets hsets' (by rw [getBand_copied]; exact hprim)
        (by rw [getBand_copied]; exact hpunct)) Nat.zero_ne_one ?_
    rw [getPhy_onPhy, getPhy_copied]
  case clear =>
    intro s d p hready ⟨hkind, hb, hclear⟩
    refine answers_ok_of_keeps hready (specCsiRead_keeps (by decide) (copied_keeps (by decide)))
      (specCsiRead_body_counters hkind hb) ?_
    rw [if_pos hclear, getPhy_onPhy, getPhy_copied]
  case counters =>
    intro s d p hready ⟨hkind, hb, hkeep⟩
    refine answers_ok_of_keeps hready (specCsiRead_keeps (by decide) (copied_keeps (by decide)))
      (specCsiRead_body_counters hkind hb) ?_
    rw [if_neg (Bool.eq_false_iff.1 hkeep)]
    rfl
  case absent =>
    intro s d p hready ⟨hkind, hb, hsta, hstream, hgroup, hnone⟩
    exact answers_of_keeps hready (specCsiRead_keeps (by decide) (copied_keeps (by decide)))
      (specCsiRead_body_absent hkind hb hsta hstream (by rwa [getBand_copied]) hnone) (by decide) rfl

end Sys2Proof
end

section
/-!
What happens at the wideband radios and their front ends (R225, R227, R241 to R244, R257 to R259, R319, R320): each row as its effect
where it can happen. The statement on these rows (O19) follows from them.
-/

namespace Sys2Proof.Machine

section
variable {s : State} {band : BandId} {b n : Nat}

/-! RFFE transactions (R241). -/

/-- A bus whose transaction ends drops it (R241). -/
theorem getBand_rffeNext {bus : Nat} : getBand (rffeNext b bus s) b =
    { getBand s b with rffe := updAt (getBand s b).rffe bus fun l => l.drop 1 } := by
  unfold rffeNext
  dsimp only
  split
  · exact (getBand_congr (State.emit_fe ..)).trans getBand_onBand
  · exact getBand_onBand

/-- A write that no command asked for ends and is answered to none (R241). -/
theorem execRffeTransactionDone_write {bus : Nat} {ok : Bool} {data : List Byte} {x : Rffe} {rest : List Rffe}
    (hbus : (getBand s band.num).rffe.getD bus [] = x :: rest) (hop : x.op = 3) (hby : x.by_ = none) :
    execRffeTransactionDone band bus ok data s = .next (rffeNext band.num bus s) := by
  simp only [execRffeTransactionDone, hbus, hop, hby]
  rfl

/-- A read with bad parity is sent again, once (R241). -/
theorem execRffeTransactionDone_retried {bus : Nat} {data : List Byte} {x : Rffe} {rest : List Rffe}
    (hbus : (getBand s band.num).rffe.getD bus [] = x :: rest) (hop : x.op = 4) (hnew : x.retried = false) :
    execRffeTransactionDone band bus false data s =
      .next ((onBand band.num (fun f => { f with rffe := setAt f.rffe bus ({ x with retried := true } :: rest) }) s).emit
        (.rffe band.num bus x.usid x.op x.addr [])) := by
  simp only [execRffeTransactionDone, hbus, hop, hnew]
  rfl

/-! Mismatch measurements (R243). -/

/-- What turning the couplers of a group changes of the front end is its buses alone. -/
theorem coupler_field {β : Type} {φ : Band → β} {g val : Nat} (h : ∀ f r, φ { f with rffe := r } = φ f) :
    φ (getBand (coupler b g val s) b) = φ (getBand s b) := by
  unfold coupler
  exact foldl_field (φ := fun t => φ (getBand t b)) (fun _ _ => (congrArg φ getBand_rffePush).trans (h ..)) _

theorem execMismatchMeasureDue_turns (h5 : s.modes.mode = 5) (hreg : (getBand s band.num).cplReg ≠ 0xFFFF)
    (hnone : (getBand s band.num).mmGroup = none) : execMismatchMeasureDue band s =
      .next (coupler band.num (getBand s band.num).mmNext (getBand s band.num).cplRev
        (onBand band.num (fun f => { f with mmGroup := some f.mmNext, mmNext := (f.mmNext + 1) % 12 }) s)) :=
  next_onlyIf (by simp [h5, hreg, hnone])

/-- However the group's chains are judged, the measurement of it is over (R243, R244). -/
theorem execMismatchCaptureDone_ends {rl : List Nat} {g : Nat} (hg : (getBand s band.num).mmGroup = some g) :
    ∃ u, execMismatchCaptureDone band rl s = .next u ∧ (getBand u band.num).mmGroup = none := by
  simp only [execMismatchCaptureDone, hg]
  exact ⟨_, rfl, congrArg Band.mmGroup getBand_onBand⟩

/-! Synthesizers (R225, R227, R230). -/

@[simp] theorem Band.synth_setSynth_same {f : Band} {k : Nat} : (f.setSynth n k).synth n = k := by
  unfold Band.synth Band.setSynth
  split <;> rfl
@[simp] theorem Band.setSynth_main {f : Band} {k : Nat} : (f.setSynth n k).main = f.main := by
  unfold Band.setSynth
  split <;> rfl

/-- A band whose standby synthesizer is locked and tracked again (R227, R230). -/
def Band.standbyTracked (n : Nat) (f : Band) : Band :=
  { f.setSynth n 1 with saTried := if n = 0 then false else f.saTried, sbTried := if n = 1 then false else f.sbTried, tracked := true }

@[simp] theorem Band.standbyTracked_synth {f : Band} : (f.standbyTracked n).synth n = 1 := Band.synth_setSynth_same (f := f)
@[simp] theorem Band.standbyTracked_main {f : Band} : (f.standbyTracked n).main = f.main := Band.setSynth_main
@[simp] theorem Band.standbyTracked_tracked {f : Band} : (f.standbyTracked n).tracked = true := rfl

theorem execStandbyRelocked_tracked {synth : Bool}
    (hlost : (getBand s band.num).synth (b2n synth) = 2 ∨ (getBand s band.num).synth (b2n synth) = 3)
    (hother : b2n synth ≠ (getBand s band.num).main) (hlo : 4 ≤ s.modes.mode) (hhi : s.modes.mode ≤ 6)
    (hmain : (getBand s band.num).synth (getBand s band.num).main ≠ 4) :
    execStandbyRelocked band synth s = .next (onBand band.num (Band.standbyTracked (b2n synth)) s) := by
  refine (next_onlyIf (by simp [hlost, hother, hlo, hhi])).trans (congrArg _ ((if_neg hmain).trans ?_))
  exact onBand_congr rfl

/-! Tests (R258, R259). -/

theorem refreshOuts_dac : (refreshOuts s).outs.dac = s.outs.dac := by
  unfold refreshOuts
  dsimp only
  split <;> rfl

/-- What follows from the mode raises no line of the power amplifiers (R55). -/
theorem refreshOuts_paen_off (h : s.outs.paen = 0) : (refreshOuts s).outs.paen = 0 := by
  unfold refreshOuts
  dsimp only
  split
  · exact h
  · simp [h]

theorem execFactoryTestDone_ends {x : Nat × Nat × Nat} (h : s.fe.test = some x) : execFactoryTestDone s =
    .next (endOp 0x0409 .ok (refreshOuts ((s.onFe fun f => { f with test := none }).onOuts fun o =>
      { o with paen := 0, trsw := 0, dac := 0 }))) := by
  simp only [execFactoryTestDone, h]

section
variable {bins : List Byte} {ch a z dwell r : Nat}

/-- The packet that a span of a survey delivers (R259). -/
def spanPacket (bins : List Byte) (ch a : Nat) (s : State) : HostPkt :=
  { srcType := 2, reason := 1, srcId := 0, ts := nowNs s, bytes := le 2 (a + 80) ++ le 1 ch ++ [0, 0, 0, 0, 0] ++ le 8 (curBeat s) ++ pad 512 bins }

theorem execSurveySpanDone_last (h : s.fe.survey = some (b, ch, a, z, dwell, r)) (hz : z ≤ a + 160) : execSurveySpanDone bins s =
    .next (endOp 0x040A .ok (refreshOuts ((hostQueue r (spanPacket bins ch a s) s).onFe fun f => { f with survey := none }))) := by
  simp only [execSurveySpanDone, h, if_pos hz]
  rfl

theorem execSurveySpanDone_next (h : s.fe.survey = some (b, ch, a, z, dwell, r)) (hz : a + 160 < z) : execSurveySpanDone bins s =
    .next ((hostQueue r (spanPacket bins ch a s) s).onFe fun f => { f with survey := some (b, ch, a + 160, z, dwell, r) }) := by
  simp only [execSurveySpanDone, h, if_neg (Nat.not_le.2 hz)]
  rfl

end

/-! The untriggered receiver (R319, R320). -/

@[simp] theorem getPhy_countPhy {i k : Nat} : getPhy (countPhy b i s k) b = { getPhy s b with ctr := bump (getPhy s b).ctr i k } :=
  getPhy_onPhy (f := fun p => { p with ctr := bump p.ctr i k })

end

end Sys2Proof.Machine

namespace Sys2Proof
open Sys2Proof.Machine Sys2Proof.Claim

/-- Settles O19: each row's outcome under its conditions; of a band, what its outcome leaves. -/
theorem radioEventsTakeEffect : Obligations.RadioEventsTakeEffect := by
  refine ⟨?ended, ?retried, ?due, ?captured, ?relocked, ?test, ?lastSpan, ?nextSpan, ?preamble, ?falseDet, ?restart⟩
  case ended =>
    intro s band bus ok data x ⟨hbus, hop, hby⟩
    refine does_of_keeps (execRffeTransactionDone_keeps (maskOf_all _) (Keeps.refl s)) (execRffeTransactionDone_write hbus hop hby) ?_
    rw [getBand_rffeNext]
  case retried =>
    rintro s band bus _ data x rest ⟨hbus, hop, rfl, hnew⟩
    refine does_of_keeps (execRffeTransactionDone_keeps (maskOf_all _) (Keeps.refl s))
      (execRffeTransactionDone_retried hbus hop hnew) ⟨?_, rfl⟩
    rw [getBand_congr (State.emit_fe ..), getBand_onBand]
  case due =>
    intro s band ⟨h5, hreg, hnone⟩
    refine does_of_keeps (execMismatchMeasureDue_keeps (maskOf_all _) (Keeps.refl s)) (execMismatchMeasureDue_turns h5 hreg hnone) ?_
    rw [coupler_field (φ := Band.mmGroup) fun _ _ => rfl, coupler_field (φ := Band.mmNext) fun _ _ => rfl, getBand_onBand]
    exact ⟨rfl, rfl⟩
  case captured =>
    intro s band rl g hg
    obtain ⟨u, hexec, hdone⟩ := execMismatchCaptureDone_ends hg
    exact does_of_keeps (execMismatchCaptureDone_keeps (maskOf_all _) (Keeps.refl s)) hexec hdone
  case relocked =>
    intro s band synth ⟨hlost, hother, hlo, hhi, hmain⟩
    refine does_of_keeps (execStandbyRelocked_keeps (maskOf_all _) (Keeps.refl s))
      (execStandbyRelocked_tracked hlost hother hlo hhi hmain) ?_
    rw [getBand_onBand]
    exact ⟨Band.standbyTracked_synth, Band.standbyTracked_tracked, Band.standbyTracked_main, rfl⟩
  case test =>
    intro s x hx
    refine does_of_keeps (execFactoryTestDone_keeps (maskOf_all _) (Keeps.refl s)) (execFactoryTestDone_ends hx) ?_
    rw [endOp_fe, refreshOuts_fe, endOp_outs, refreshOuts_dac]
    exact ⟨rfl, rfl, refreshOuts_paen_off rfl⟩
  case lastSpan =>
    intro s bins ch a z dwell r ⟨hx, hz⟩
    refine does_of_keeps (execSurveySpanDone_keeps (maskOf_all _) (Keeps.refl s)) (execSurveySpanDone_last hx hz) ?_
    rw [endOp_fe, refreshOuts_fe, State.onFe_fe]
  case nextSpan =>
    intro s bins ch a z dwell r ⟨hx, hz⟩
    exact does_of_keeps (execSurveySpanDone_keeps (maskOf_all _) (Keeps.refl s)) (execSurveySpanDone_next hx hz) rfl
  case preamble =>
    intro s band ⟨hopen, hidle⟩
    exact does_of_keeps (execWbPreambleDetected_keeps (maskOf_all _) (Keeps.refl s)) (next_onlyIf (by simp [hopen, hidle])) getPhy_onPhy
  case falseDet =>
    intro s band hbusy
    refine does_of_keeps (execWbRxFalseDet_keeps (maskOf_all _) (Keeps.refl s)) (next_onlyIf (by simpa using hbusy)) ?_
    rw [getPhy_countPhy, getPhy_onPhy]
  case restart =>
    intro s band rise ⟨hen, hheld, hrise⟩
    refine does_of_keeps (execWbRxRestart_keeps (maskOf_all _) (Keeps.refl s)) (next_onlyIf (by simp [hen, hheld, hrise])) ?_
    rw [getPhy_countPhy, getPhy_onPhy]

end Sys2Proof
end

section
/-!
The execution of a plan (R227 to R229, R235, R246 to R249, R342, R354 to R357, R362, R367, R369): what the rows read of a plan and of a
station's link, which operations leave that alone, then each row as its effect where it can happen. The statement on these rows (O24)
follows from them.
-/

namespace Sys2Proof.Machine
open Sys2Proof.Claim

section
variable {s t : State} {β : Type} {b c n k beat i code : Nat}

/-! Reads of a band's plans, and of a station. -/

theorem getAB_congr (h : t.air = s.air) : getAB t b = getAB s b := by simp only [getAB, h]
theorem getPpdu_congr (h : getAB t b = getAB s b) : getPpdu t b beat i = getPpdu s b beat i := by simp only [getPpdu, getPlan, h]

theorem getPpdu_of_plan {q : Plan} {x : Ppdu} (hq : getPlan s b beat = some q) (hx : q.ppdus[i]? = some x) :
    getPpdu s b beat i = some x := by
  simp [getPpdu, hq, hx]

theorem getPlan_onPlan {f : Plan → Plan} : getPlan (onPlan b beat f s) b beat = (getPlan s b beat).map f := by
  unfold onPlan
  split
  case h_1 q hq =>
    rw [hq, getPlan, getAB_onAB]
    exact Tab.get?_set.trans (if_pos rfl)
  case h_2 hq => rw [hq]; rfl

theorem getPpdu_onPpdu {f : Ppdu → Ppdu} : getPpdu (onPpdu b beat i f s) b beat i = (getPpdu s b beat i).map f := by
  unfold onPpdu getPpdu
  rw [getPlan_onPlan]
  cases getPlan s b beat <;> simp [updAt]

theorem getAB_onSta {f : Sta → Sta} : getAB (onSta n f s) b = getAB s b := by
  unfold onSta
  split <;> rfl
theorem getAB_onBf {f : Bf → Bf} : getAB (onBf n f s) b = getAB s b := by
  unfold onBf
  split <;> rfl

theorem onAB_stas {f : AirBand → AirBand} : (onAB b f s).air.stas = s.air.stas := by
  unfold onAB
  simp only [State.onAir_air, apply_ite Air.stas, ite_self]
theorem onPlan_stas {f : Plan → Plan} : (onPlan b beat f s).air.stas = s.air.stas := by
  unfold onPlan
  split
  · exact onAB_stas
  · rfl
theorem onPhy_stas {f : Phy → Phy} : (onPhy b f s).air.stas = s.air.stas := by
  unfold onPhy
  simp only [State.onAir_air, apply_ite Air.stas, ite_self]
theorem onBf_stas {f : Bf → Bf} : (onBf n f s).air.stas = s.air.stas := by
  unfold onBf
  split <;> rfl

/-- The responses that a station's link has missed in a row (R367). -/
def failsOf (b n : Nat) (s : State) : Option Nat := (getSta s n).map fun x => (x.link b).fails

theorem failsOf_congr (h : t.air.stas = s.air.stas) : failsOf b n t = failsOf b n s := by simp only [failsOf, getSta, h]

theorem getSta_onSta {f : Sta → Sta} : getSta (onSta n f s) k = if k = n then (getSta s n).map f else getSta s k := by
  unfold onSta
  split
  case h_1 x hx => rw [hx]; exact Tab.get?_set
  case h_2 hx =>
    split
    case isTrue h => rw [h, hx]; rfl
    case isFalse => rfl

theorem Sta.link_onLink_same {f : LinkSt → LinkSt} {x : Sta} : (x.onLink b f).link b = f (x.link b) := by
  unfold Sta.link Sta.onLink
  split <;> rfl

theorem Sta.link_onLink_fails {f : LinkSt → LinkSt} {x : Sta} (h : ∀ l, (f l).fails = l.fails) :
    ((x.onLink b f).link c).fails = (x.link c).fails := by
  unfold Sta.link Sta.onLink
  split <;> split <;> simp [h]

/-! What reads of the stations nothing but the responses missed, and nothing of the flows, is left alone by the return and the discard of
frames and by the counting of attempts (R356, R384, R396 to R398). -/

/-- A read that depends neither on the queues and counts of stations nor on flows nor on what an event leaves. -/
structure Apart (φ : State → β) : Prop where
  sta : ∀ n f t, (∀ x c, ((f x).link c).fails = (x.link c).fails) → φ (onSta n f t) = φ t
  bf : ∀ n f t, φ (onBf n f t) = φ t
  event : ∀ code obj pl t, φ (raise code obj pl t) = φ t

theorem apart_getAB (φ : AirBand → β) : Apart fun t => φ (getAB t b) where
  sta _ _ _ _ := congrArg φ getAB_onSta
  bf _ _ _ := congrArg φ getAB_onBf
  event _ _ _ _ := congrArg φ (getAB_congr raise_air)

theorem apart_getPpdu : Apart fun t => getPpdu t b beat i :=
  apart_getAB fun a => (Tab.get? a.plans beat).bind fun q => q.ppdus[i]?

theorem apart_failsOf : Apart (failsOf b n) where
  sta m f t h := by
    unfold failsOf
    rw [getSta_onSta]
    split
    case isTrue e => rw [e]; cases getSta t m <;> simp [h]
    case isFalse => rfl
  bf _ _ _ := failsOf_congr onBf_stas
  event _ _ _ _ := failsOf_congr (congrArg Air.stas raise_air)

section
variable {φ : State → β} (h : Apart φ)
include h

theorem Apart.countSta : φ (countSta n i s k) = φ s := h.sta _ _ _ fun _ _ => rfl
theorem Apart.countBf : φ (countBf n i s k) = φ s := h.bf _ _ _

theorem Apart.returnFrames {l : List Frame} : φ (returnFrames n l s) = φ s :=
  foldl_field (φ := φ) (fun t (f : Frame) => h.sta n (fun x => { x with q := updAt x.q (acOf f.tid) fun l => { f with band := none } :: l }) t
    fun _ _ => rfl) _

theorem Apart.discarded : φ (discarded n k i s) = φ s :=
  (h.sta n (fun x => { x with bar := if x.bar.contains k then x.bar else k :: x.bar }) _ fun _ _ => rfl).trans h.countSta

theorem Apart.failStep {acc : List Frame × State} {f : Frame} : φ (failStep b n acc f).2 = φ acc.2 := by
  unfold Machine.failStep failFrame
  dsimp only
  split
  · exact h.discarded
  · rfl

theorem Apart.failFrames {l : List Frame} : φ (failFrames b n l s).2 = φ s :=
  List.foldlRecOn l _ (motive := fun r : List Frame × State => φ r.2 = φ s) rfl fun _ hr _ _ => h.failStep.trans hr

theorem Apart.failAll {l : List Frame} : φ (failAll b n l s) = φ s := h.returnFrames.trans h.failFrames

theorem Apart.decide_ {reason : Nat} : φ (decide_ n k reason s) = φ s := by
  unfold Machine.decide_
  split
  · rfl
  split
  · rfl
  dsimp only
  split
  · exact h.bf ..
  · exact (h.event ..).trans (h.countBf.trans (h.countBf.trans (h.bf ..)))

theorem Apart.consume {reason : Nat} : φ (consume n k reason s) = φ s := by
  unfold Machine.consume
  split
  · rfl
  · simp only [apply_ite φ, h.decide_, h.bf, ite_self]

theorem Apart.consumeUsers {l : List PUser} {reason : Nat} : φ (consumeUsers l reason s) = φ s :=
  foldl_field (fun _ _ => by simp only [apply_ite φ, h.consume, ite_self]) _

theorem Apart.delivered : φ (delivered n k i s) = φ s := by
  unfold Machine.delivered
  split
  · rfl
  · simp only [apply_ite φ, h.bf, h.countBf, ite_self]

theorem Apart.enterReview {cause : Nat} : φ (enterReview n cause s) = φ s := by
  unfold Machine.enterReview
  split
  · rfl
  · simp only [apply_ite φ, h.event, h.bf, ite_self]

theorem Apart.clearCause {cause : Nat} : φ (clearCause n cause s) = φ s := by
  unfold Machine.clearCause
  split
  · rfl
  · simp only [apply_ite φ, h.event, h.bf, ite_self]

end

/-! The outcome of a PPDU (R249, R369), of one that is not sent (R356) and of one that is cut short (R247). -/

/-- A PPDU with its outcome. -/
def Ppdu.done (code : Nat) (x : Ppdu) : Ppdu := { x with outcome := some code }

/-- The outcome of a PPDU without one is what its record leaves in its plan. -/
theorem getPpdu_record {x : Ppdu} (hx : getPpdu s b beat i = some x) (ho : x.outcome = none) :
    getPpdu (record b beat i code s) b beat i = some (x.done code) := by
  have hair : ∀ k t, getPpdu (countAir b k t) b beat i = getPpdu t b beat i := fun k t => by
    simp only [getPpdu, getPlan, countAir, getAB_onAB]
  have hout : ∀ k t, getPpdu (countOut b k t) b beat i = getPpdu t b beat i := fun _ _ => rfl
  have hhost : ∀ n k t, getPpdu (hostQueue n k t) b beat i = getPpdu t b beat i := fun _ _ _ =>
    getPpdu_congr (getAB_congr (hostQueue_frame.2 .air (by decide)))
  have hdone : ∀ t, getPpdu (outcomesDone b beat t) b beat i = getPpdu t b beat i := fun _ =>
    getPpdu_congr (getAB_congr (outcomesDone_frame.2 .air (by decide)))
  unfold record
  simp only [hx, ho, Option.isSome_none, Bool.false_eq_true, if_false, apply_ite (getPpdu · b beat i), hdone, hhost, hout, hair, ite_self,
    getPpdu_onPpdu]
  rfl

theorem onAir_onPpdu {f : Ppdu → Ppdu} : (getAB (onPpdu b beat i f s) b).onAir = (getAB s b).onAir := by
  unfold onPpdu onPlan
  split
  · rw [getAB_onAB]
  · rfl

theorem onAir_record : (getAB (record b beat i code s) b).onAir = (getAB s b).onAir :=
  field_record (φ := fun t => (getAB t b).onAir) (fun _ _ => onAir_onPpdu) (fun _ _ => rfl)
    (fun _ _ => by rw [countAir, getAB_onAB])
    (fun _ _ _ => congrArg AirBand.onAir (getAB_congr (hostQueue_frame.2 .air (by decide))))
    fun _ => congrArg AirBand.onAir (getAB_congr (outcomesDone_frame.2 .air (by decide)))

theorem record_stas : (record b beat i code s).air.stas = s.air.stas :=
  field_record (φ := fun t => t.air.stas) (fun _ _ => onPlan_stas) (fun _ _ => rfl) (fun _ _ => onAB_stas)
    (fun _ _ _ => congrArg Air.stas (hostQueue_frame.2 .air (by decide)))
    fun _ => congrArg Air.stas (outcomesDone_frame.2 .air (by decide))

theorem record_outs : (record b beat i code s).outs = s.outs :=
  (frame_of_keeps (record_keeps (maskOf_all _) (Keeps.refl s))).2 .outs (by decide)

/-- Of a PPDU that is not sent, the record is all that a read of the band's air finds, but for its queues. -/
theorem notSent_field {φ : AirBand → β} {x : Ppdu} (hmgmt : ∀ a l, φ { a with mgmt := l } = φ a)
    (hgroup : ∀ a l, φ { a with group := l } = φ a) (hx : getPpdu s b beat i = some x) (ho : x.outcome = none) (hs : x.start = none) :
    φ (getAB (notSent b beat i code s) b) = φ (getAB (record b beat i code s) b) := by
  have ha : Apart fun t => φ (getAB t b) := apart_getAB φ
  have hret : ∀ t, φ (getAB (x.users.foldl (fun s u => returnFrames u.sta u.frames s) t) b) = φ (getAB t b) := fun _ =>
    foldl_field (φ := fun t => φ (getAB t b)) (fun _ _ => ha.returnFrames) _
  unfold notSent
  simp only [hx, ho, hs, Option.isSome_none, Bool.or_self, Bool.false_eq_true, if_false]
  rw [ha.consumeUsers]
  simp only [apply_ite (fun t => φ (getAB t b)), getAB_onAB, hmgmt, hgroup, hret, ite_self]

theorem getPpdu_notSent {x : Ppdu} (hx : getPpdu s b beat i = some x) (ho : x.outcome = none) (hs : x.start = none) :
    getPpdu (notSent b beat i code s) b beat i = some (x.done code) :=
  (notSent_field (φ := fun a => (Tab.get? a.plans beat).bind fun q => q.ppdus[i]?) (fun _ _ => rfl) (fun _ _ => rfl) hx ho hs).trans
    (getPpdu_record hx ho)

theorem onAir_notSent {x : Ppdu} (hx : getPpdu s b beat i = some x) (ho : x.outcome = none) (hs : x.start = none) :
    (getAB (notSent b beat i code s) b).onAir = (getAB s b).onAir :=
  (notSent_field (fun _ _ => rfl) (fun _ _ => rfl) hx ho hs).trans onAir_record

theorem dropCoex_air : (dropCoex s).air = s.air := by
  unfold dropCoex
  split <;> rfl

/-- Where no other request waits, the coexistence lines fall (R246). -/
theorem dropCoex_lines (h : s.fe.coexNext = false) : dropCoex s = s.onOuts fun o => { o with coexReq := false, coexPri := false } :=
  if_neg (by simp [h])

theorem getAB_endTx : getAB (endTx b s) b = { getAB s b with onAir := none, lastEnd := curOff s } := by
  unfold endTx
  exact (getAB_congr refreshOuts_air).trans getAB_onAB

theorem onAir_ended : (getAB (dropCoex (endTx b s)) b).onAir = none := by rw [getAB_congr dropCoex_air, getAB_endTx]

theorem getPpdu_ended : getPpdu (dropCoex (endTx b s)) b beat i = getPpdu s b beat i := by
  simp only [getPpdu, getPlan, getAB_congr dropCoex_air, getAB_endTx]

/-- The PPDU on air is recorded, and what it did not deliver is accounted for (R247, R356, R396). -/
theorem cutShort_field {φ : State → β} {x : Ppdu} (h : Apart φ) (hair : (getAB s b).onAir = some (beat, i))
    (hx : getPpdu s b beat i = some x) : φ (cutShort b code s) = φ (record b beat i code (dropCoex (endTx b s))) := by
  unfold cutShort
  simp only [hair, getPpdu_ended, hx]
  exact h.consumeUsers.trans (foldl_field (fun _ _ => h.failAll) _)

theorem onAir_cutShort {x : Ppdu} (hair : (getAB s b).onAir = some (beat, i)) (hx : getPpdu s b beat i = some x) :
    (getAB (cutShort b code s) b).onAir = none :=
  (cutShort_field (apart_getAB AirBand.onAir) hair hx).trans (onAir_record.trans onAir_ended)

theorem getPpdu_cutShort {x : Ppdu} (hair : (getAB s b).onAir = some (beat, i)) (hx : getPpdu s b beat i = some x)
    (ho : x.outcome = none) : getPpdu (cutShort b code s) b beat i = some (x.done code) :=
  (cutShort_field apart_getPpdu hair hx).trans (getPpdu_record (getPpdu_ended.trans hx) ho)

end

/-! Sending (R235, R246, R248). -/

section
variable {s : State} {b beat i start : Nat} {band : BandId} {q : Plan} {x : Ppdu} {grant : Bool}

theorem getPpdu_putOnAir {us : List PUser} {body : List Byte} : getPpdu (putOnAir b beat i start x us body s) b beat i =
    (getPpdu s b beat i).map fun y =>
      { y with start := some start, users := us, sent := sumOf (us.map fun u => u.frames.length + u.bf.length) } := by
  have ha : Apart fun t => getPpdu t b beat i := apart_getPpdu
  have hair : ∀ (f : AirBand → AirBand) t, (f (getAB t b)).plans = (getAB t b).plans →
      getPpdu (onAB b f t) b beat i = getPpdu t b beat i := fun f t h => by simp only [getPpdu, getPlan, getAB_onAB, h]
  have hphy : ∀ f t, getPpdu (onPhy b f t) b beat i = getPpdu t b beat i := fun _ _ => getPpdu_congr getAB_onPhy
  unfold putOnAir
  refine (hair (fun a => { a with onAir := some (beat, i) }) _ rfl).trans ?_
  refine (foldl_field (φ := fun t => getPpdu t b beat i) (fun _ _ => ha.countBf) _).trans ?_
  refine (foldl_field (φ := fun t => getPpdu t b beat i) (fun _ _ => ha.countSta) _).trans ?_
  simp only [apply_ite (getPpdu · b beat i), countPhy, hphy, ite_self, getPpdu_onPpdu]

theorem onAir_putOnAir {us : List PUser} {body : List Byte} :
    (getAB (putOnAir b beat i start x us body s) b).onAir = some (beat, i) := by
  unfold putOnAir
  dsimp only
  rw [getAB_congr (State.emit_air ..), getAB_onAB]

theorem putOnAir_out {us : List PUser} {body : List Byte} : (putOnAir b beat i start x us body s).out = .air b i body :: s.out := by
  have hsta : ∀ n k j t, (countSta n k t j).out = t.out := fun _ _ _ _ => by unfold countSta onSta; split <;> rfl
  have hbf : ∀ n k t, (countBf n k t).out = t.out := fun _ _ _ => by unfold countBf onBf; split <;> rfl
  unfold putOnAir
  refine congrArg (List.cons _) ?_
  refine (foldl_field (φ := State.out) (fun _ _ => hbf ..) _).trans ((foldl_field (φ := State.out) (fun _ _ => hsta ..) _).trans ?_)
  split <;> exact onPpdu_frame.2 .out (by decide)

/-- A PPDU of acknowledgements alone goes on air as it is (R232). -/
theorem goOnAir_ack (hkind : x.kind = 3) (hbf : x.bf = false) (hus : x.users = []) (hbody : x.body = []) :
    goOnAir b beat i start x s = putOnAir b beat i start x [] [] s := by
  simp [goOnAir, sentBody, hkind, hbf, hus, hbody]

/-- The instant of a PPDU has come: its plan executes, the band is in service and its air is free, and the PPDU is ready and not begun
(R235). -/
structure Due (s : State) (b beat : Nat) (q : Plan) (x : Ppdu) : Prop where
  executing : q.st = 3
  now : beat = curBeat s
  service : inService s b = true
  up : (getBand s b).down = false
  free : (getAB s b).onAir = none
  fresh : x.outcome = none
  unbegun : x.start = none
  instant : x.p ≤ curOff s + femLead s b
  ready : x.ready = true

theorem Due.passes (h : Due s b beat q x) (wait : Bool) : ¬ ((q.st != 3 || beat != curBeat s || !inService s b && !(getBand s b).down ||
    (getAB s b).onAir.isSome || x.outcome.isSome || x.start.isSome || curOff s + femLead s b < x.p || (wait && !x.ready)) = true) := by
  obtain ⟨hst, hnow, hserv, -, hfree, hnew, hun, hinst, hready⟩ := h
  simp [hst, ← hnow, hserv, hfree, hnew, hun, hready, Nat.not_lt.2 hinst]

theorem execPpduFemOn_blanked (hq : getPlan s band.num beat = some q) (hx : getPpdu s band.num beat i = some x)
    (h : Due s band.num beat q x) (hbl : blanked s band.num = true) :
    execPpduFemOn band beat i grant s = .next (notSent band.num beat i 0x0412 s) := by
  simp only [execPpduFemOn, hq, hx]
  exact congrArg _ ((if_neg (h.passes _)).trans ((if_neg (by simp [h.up])).trans (if_pos hbl)))

/-- A PPDU that fits, that nothing blanks and that needs no grant goes on air (R235). -/
theorem execPpduFemOn_sent (hq : getPlan s band.num beat = some q) (hx : getPpdu s band.num beat i = some x)
    (h : Due s band.num beat q x) (hbl : blanked s band.num = false) (hlo : (getBand s band.num).loReady = true)
    (hfits : curOff s + femLead s band.num + x.a ≤ x.w) (hco : s.fe.coexMode = 0) :
    execPpduFemOn band beat i grant s = .next (goOnAir band.num beat i (curOff s + femLead s band.num) x s) := by
  simp only [execPpduFemOn, hq, hx]
  refine congrArg _ ((if_neg (h.passes _)).trans ((if_neg (by simp [h.up])).trans ((if_neg (by simp [hbl])).trans ?_)))
  simp [hlo, hfits, hco]

/-- The end of a PPDU that solicits nothing frees the air and the coexistence lines, and records its outcome (R235, R246). -/
theorem execPpduEnd_silent (hair : (getAB s band.num).onAir = some (beat, i)) (hx : getPpdu s band.num beat i = some x)
    (hkind : x.kind = 3) : execPpduEnd band beat i s = .next (record band.num beat i 0 (dropCoex (endTx band.num s))) := by
  have hx' : getPpdu (endTx band.num s) band.num beat i = some x := by
    simpa only [getPpdu, getPlan, getAB_endTx] using hx
  refine (next_onlyIf (decide_eq_true hair)).trans ?_
  simp [hx', hkind]

/-! The check of the channel (R342). -/

section
variable {busy : Byte}

/-- A PPDU of a TURN beat whose plan executes, which has not begun and has no outcome: its channel is checked (R342). -/
structure Checked (s : State) (beat : Nat) (q : Plan) (x : Ppdu) : Prop where
  executing : q.st = 3
  now : beat = curBeat s
  turn : q.kind = 1
  fresh : x.outcome = none
  unbegun : x.start = none

theorem Checked.passes (h : Checked s beat q x) :
    ¬ ((q.st != 3 || beat != curBeat s || q.kind != 1 || x.outcome.isSome || x.start.isSome) = true) := by
  obtain ⟨hst, hnow, hkind, hnew, hun⟩ := h
  simp [hst, ← hnow, hkind, hnew, hun]

theorem execCcaCheckEnd_clear (hq : getPlan s band.num beat = some q) (hx : getPpdu s band.num beat i = some x)
    (h : Checked s beat q x) : execCcaCheckEnd band beat i 0 s =
      .next (onPpdu band.num beat i (fun x => { x with ready := true }) s) := by
  simp only [execCcaCheckEnd, hq, hx]
  exact congrArg _ ((if_neg h.passes).trans (if_pos (by simp)))

/-- A busy primary channel waits where there is time for another check, else the PPDU is not sent (R342). -/
theorem execCcaCheckEnd_busy (hq : getPlan s band.num beat = some q) (hx : getPpdu s band.num beat i = some x)
    (h : Checked s beat q x) (hbusy : busy.getLsbD (getBand s band.num).ch.primary = true) : execCcaCheckEnd band beat i busy s =
      .next (if x.w < curOff s + 9000 + femLead s band.num + x.a then notSent band.num beat i 0x0610 s else s) := by
  simp only [execCcaCheckEnd, hq, hx]
  exact congrArg _ ((if_neg h.passes).trans ((if_neg (by simp [hbusy])).trans (if_neg (by simp [hbusy]))))

end

end

/-! Responses (R354 to R357, R367). -/

section
variable {s : State} {b c n beat i : Nat} {acked : List Nat} {missing : Bool} {x : Ppdu} {v : PUser} {y : Sta} {band : BandId}

/-- The positions acknowledged that a user's frames have. -/
def PUser.heard (acked : List Nat) (v : PUser) : List Nat := acked.filter fun j => j < v.frames.length + v.bf.length

/-- A PPDU with the response of a user's. -/
def Ppdu.answered (n : Nat) (ok : List Nat) (x : Ppdu) : Ppdu :=
  { x with acked := x.acked + ok.length
           users := x.users.map fun v => if v.sta = n && v.resp.isNone then { v with resp := some ok } else v }

theorem getAB_linkFails : getAB (linkFails b n s) c = getAB s c := by
  have ha : Apart fun t => getAB t c := apart_getAB id
  unfold linkFails
  split
  · rfl
  dsimp only
  split
  · exact getAB_onSta
  · exact (foldl_field (φ := fun t => getAB t c) (fun _ _ => ha.enterReview) _).trans ((ha.event ..).trans getAB_onSta)

theorem getAB_linkHeard : getAB (linkHeard b n s) c = getAB s c := by
  have ha : Apart fun t => getAB t c := apart_getAB id
  unfold linkHeard
  split
  · rfl
  dsimp only
  split
  · exact (foldl_field (φ := fun t => getAB t c) (fun _ _ => ha.clearCause) _).trans ((ha.event ..).trans getAB_onSta)
  · exact getAB_onSta

/-- A response that is missing counts on the link (R367). -/
theorem failsOf_linkFails (hy : getSta s n = some y) : failsOf b n (linkFails b n s) = some ((y.link b).fails + 1) := by
  have ha : Apart (failsOf b n) := apart_failsOf
  have hone : ∀ f : LinkSt → LinkSt, (f (y.link b)).fails = (y.link b).fails + 1 →
      failsOf b n (onSta n (Sta.onLink b f) s) = some ((y.link b).fails + 1) := fun f hf => by
    simp [failsOf, getSta_onSta, hy, Sta.link_onLink_same, hf]
  unfold linkFails
  simp only [hy]
  split
  · exact hone _ rfl
  · exact (foldl_field (fun _ _ => ha.enterReview) _).trans ((ha.event ..).trans (hone _ rfl))

/-- A user's response is noted in its PPDU and on its link; all else that it does is apart from a read of either. -/
theorem userResp_field {β : Type} {φ : State → β} (h : Apart φ) (hphy : ∀ t, φ (countPhy b 6 t) = φ t)
    (hx : getPpdu s b beat i = some x) (hv : x.users.find? (fun u => u.sta = n && u.resp.isNone) = some v) :
    φ (userResp b beat i n acked missing s) =
      φ (if missing then linkFails b n (onPpdu b beat i (Ppdu.answered n (v.heard acked)) s)
        else linkHeard b n (onPpdu b beat i (Ppdu.answered n (v.heard acked)) s)) := by
  have hdel : ∀ (l : List ((Nat × Nat × Nat) × Nat)) t, φ (l.foldl (fun s t => delivered t.1.1 t.1.2.1 t.1.2.2 s) t) = φ t :=
    fun _ _ => foldl_field (fun _ _ => h.delivered) _
  have holla : ∀ m (f : LinkSt → Int) t, φ (onSta m (Sta.onLink b fun l => { l with olla := f l }) t) = φ t := fun _ _ _ =>
    h.sta _ _ _ fun _ _ => Sta.link_onLink_fails fun _ => rfl
  unfold userResp
  simp only [hx, hv, Option.bind_some, Option.map_some]
  rw [h.consumeUsers]
  simp only [apply_ite φ, hdel, h.countSta, holla, hphy, ite_self]
  rfl

theorem getPpdu_userResp (hx : getPpdu s b beat i = some x) (hv : x.users.find? (fun u => u.sta = n && u.resp.isNone) = some v) :
    getPpdu (userResp b beat i n acked missing s) b beat i = some (x.answered n (v.heard acked)) := by
  refine (userResp_field apart_getPpdu (fun _ => getPpdu_congr getAB_onPhy) hx hv).trans ?_
  simp only [apply_ite (getPpdu · b beat i), getPpdu_congr getAB_linkFails, getPpdu_congr getAB_linkHeard, ite_self, getPpdu_onPpdu, hx]
  rfl

theorem getSta_onPpdu {f : Ppdu → Ppdu} : getSta (onPpdu b beat i f s) n = getSta s n :=
  congrArg (Tab.get? · n) onPlan_stas

theorem failsOf_userResp (hx : getPpdu s b beat i = some x) (hv : x.users.find? (fun u => u.sta = n && u.resp.isNone) = some v)
    (hy : getSta s n = some y) : failsOf b n (userResp b beat i n acked true s) = some ((y.link b).fails + 1) :=
  (userResp_field apart_failsOf (fun _ => failsOf_congr onPhy_stas) hx hv).trans (failsOf_linkFails (getSta_onPpdu.trans hy))

/-- The frames of a user of a retry PPDU are those that failed: its gathering is apart from plans and links (R357). -/
theorem Apart.retryUsers {β : Type} {φ : State → β} (h : Apart φ) {l : List PUser} : φ (l.foldl (retryUser b) ([], s)).2 = φ s :=
  List.foldlRecOn l _ (motive := fun r : List PUser × State => φ r.2 = φ s) rfl fun _ hr _ _ => h.failFrames.trans hr

/-- The retry PPDU stands behind those of the plan, which stay (R357). -/
theorem getPpdu_placeRetry {q : Plan} {z : Ppdu} (hz : getPpdu s b beat i = some z) :
    getPpdu (placeRetry b beat q x s) b beat i = some z := by
  have hkept : getPpdu (x.users.foldl (retryUser b) ([], s)).2 b beat i = some z := apart_getPpdu.retryUsers.trans hz
  unfold placeRetry
  dsimp only
  split
  · exact hkept
  · simp only [getPpdu, getPlan, countAir, getAB_onAB]
    obtain ⟨r, hr, hri⟩ := Option.bind_eq_some_iff.1 hkept
    refine (congrArg (fun o => Option.bind o _) getPlan_onPlan).trans ?_
    simp [hr, List.getElem?_append_left (List.getElem?_eq_some_iff.1 hri).1, hri]

theorem failsOf_placeRetry {q : Plan} : failsOf b n (placeRetry b beat q x s) = failsOf b n s := by
  unfold placeRetry
  dsimp only
  split
  · exact apart_failsOf.retryUsers
  · exact (failsOf_congr (onAB_stas.trans onPlan_stas)).trans apart_failsOf.retryUsers

/-- With the response of its last user, a PPDU has outcome 0 (R354). -/
theorem getPpdu_settle (hx : getPpdu s b beat i = some x) (ho : x.outcome = none) (hall : x.users.any (·.resp.isNone) = false) :
    getPpdu (settle b beat i s) b beat i = some (x.done 0) := by
  obtain ⟨q, hq, -⟩ := Option.bind_eq_some_iff.1 hx
  have hrec : getPpdu (record b beat i 0 s) b beat i = some (x.done 0) := getPpdu_record hx ho
  unfold settle
  simp only [hq, hx, hall, Bool.false_eq_true, if_false]
  split
  · exact getPpdu_placeRetry hrec
  · exact (foldl_field (φ := fun t => getPpdu t b beat i) (fun _ _ => apart_getPpdu.failAll) _).trans hrec

theorem failsOf_settle : failsOf b n (settle b beat i s) = failsOf b n s := by
  unfold settle
  split
  · split
    · rfl
    dsimp only
    split
    · exact failsOf_placeRetry.trans (failsOf_congr record_stas)
    · exact (foldl_field (fun _ _ => apart_failsOf.failAll) _).trans (failsOf_congr record_stas)
  · rfl

/-- The state after the response of a user, or the end of the wait for it, with the PPDU settled where it was the last (R354). -/
def settled (b beat i n : Nat) (acked : List Nat) (missing : Bool) (s : State) : State :=
  settle b beat i (userResp b beat i n acked missing s)

/-- The PPDU of one user, begun and without outcome, whose response is awaited (R354). -/
structure Awaits (s : State) (b beat i n : Nat) (x : Ppdu) (v : PUser) : Prop where
  found : getPpdu s b beat i = some x
  begun : x.start.isSome = true
  fresh : x.outcome = none
  users : x.users = [v]
  sta : v.sta = n
  open_ : v.resp = none

theorem Awaits.find (h : Awaits s b beat i n x v) : x.users.find? (fun u => u.sta = n && u.resp.isNone) = some v := by
  simp [h.users, h.sta, h.open_]

theorem Awaits.begins (h : Awaits s b beat i n x v) :
    ((getPpdu s b beat i).map fun x => x.start.isSome && x.outcome.isNone).getD false = true := by
  simp [h.found, h.begun, h.fresh]

theorem getPpdu_settled (h : Awaits s b beat i n x v) :
    getPpdu (settled b beat i n acked missing s) b beat i = some ((x.answered n (v.heard acked)).done 0) :=
  getPpdu_settle (getPpdu_userResp h.found h.find) h.fresh (by simp [Ppdu.answered, h.users, h.sta, h.open_])

theorem failsOf_settled (h : Awaits s b beat i n x v) (hy : getSta s n = some y) :
    failsOf b n (settled b beat i n acked true s) = some ((y.link b).fails + 1) :=
  failsOf_settle.trans (failsOf_userResp h.found h.find hy)

/-- The end of a coexistence request that lasts until the response (R246) leaves the air. -/
theorem air_responded {p : Prop} [Decidable p] : (if p then dropCoex s else s).air = s.air := by
  split
  · exact dropCoex_air
  · rfl

theorem execResponseReceived_settles (h : Awaits s band.num beat i n x v) :
    ∃ u, execResponseReceived band beat i n acked s = .next u ∧ u.air = (settled band.num beat i n acked false s).air :=
  ⟨_, next_onlyIf h.begins, air_responded⟩

theorem execResponseTimeout_settles (h : Awaits s band.num beat i n x v) :
    ∃ u, execResponseTimeout band beat i n s = .next u ∧ u.air = (settled band.num beat i n [] true s).air :=
  ⟨_, next_onlyIf h.begins, air_responded⟩

end

/-! Coexistence, contention and beacons (R246, R247, R355, R362). -/

section
variable {s : State} {band : BandId} {beat i : Nat} {x : Ppdu}

/-- A request raises its lines, the priority by the policy (R246). -/
theorem execCoexRequest_raises (hx : getPpdu s band.num beat i = some x) (hmode : s.fe.coexMode = 1)
    (hmask : bit s.fe.coexMask band.num = true) (ho : x.outcome = none) : ∃ u, execCoexRequest band beat i s = .next u ∧
      u.outs = { s.outs with coexReq := true, coexPri := s.outs.coexPri || (decide (s.fe.priPolicy = 2) || (decide (s.fe.priPolicy = 1) && x.bf)) } := by
  simp only [execCoexRequest, hx]
  refine ⟨_, congrArg _ (if_neg (by simp [hmode, hmask, ho])), ?_⟩
  split <;> rfl

theorem execCoexGntWithdrawn_cuts (hmode : s.fe.coexMode = 1) (hmask : bit s.fe.coexMask band.num = true) :
    execCoexGntWithdrawn band s = .next (cutShort band.num 0x0415 s) :=
  next_onlyIf (by simp [hmode, hmask])

theorem execCoexGntWithdrawn_unused (hmode : s.fe.coexMode ≠ 1) : execCoexGntWithdrawn band s = .next s := by
  simp [execCoexGntWithdrawn, onlyIf, hmode]

/-- The state in which a band's access class has drawn its next backoff (R355). -/
def backedOff (b ac : Nat) (s : State) : State :=
  let r := s.draw (2 ^ (((getAB s b).ac.map (·.ecwmax)).getD ac 4))
  onAB b (fun a => { a with backoff := setAt a.backoff ac r.1 }) r.2

theorem getAB_backedOff {b ac : Nat} : ∃ l, getAB (backedOff b ac s) b = { getAB s b with backoff := l } := ⟨_, getAB_onAB⟩

theorem getPpdu_backedOff {b ac : Nat} : getPpdu (backedOff b ac s) b beat i = getPpdu s b beat i := by
  obtain ⟨l, hl⟩ := getAB_backedOff (s := s) (b := b) (ac := ac)
  simp only [getPpdu, getPlan, hl]

theorem usableEnd_backedOff {b ac : Nat} : usableEnd (backedOff b ac s) b = usableEnd s b := by
  obtain ⟨l, hl⟩ := getAB_backedOff (s := s) (b := b) (ac := ac)
  simp only [usableEnd, hl]
  rfl

/-- A beacon that has gained access is ready at its instant where it ends within its window, else it is not sent (R355). -/
def beaconGained (b beat i off : Nat) (reserved : List (Nat × Nat)) (x : Ppdu) (s : State) : State :=
  let w := windowEnd (usableEnd s b) (blocksOf s b beat reserved []) (off + x.p)
  if off + x.p + x.a ≤ w then onPpdu b beat i (fun y => { y with p := off + x.p, w, ready := true }) s else notSent b beat i 0x0611 s

theorem beaconGained_fits {b off : Nat} {reserved : List (Nat × Nat)}
    (h : off + x.p + x.a ≤ windowEnd (usableEnd s b) (blocksOf s b beat reserved []) (off + x.p)) :
    beaconGained b beat i off reserved x s = onPpdu b beat i (fun y =>
      { y with p := off + x.p, w := windowEnd (usableEnd s b) (blocksOf s b beat reserved []) (off + x.p), ready := true }) s :=
  if_pos h

/-- The access class of a beacon alone in its plan draws its next backoff, and the beacon has gained access (R355). -/
theorem execEdcaAccessGained_beacon {ac : BitVec 2} {off : Nat} {q : Plan} (hq : getPlan s band.num (curBeat s) = some q)
    (hst : q.st = 3) (hkind : q.kind = 2) (hone : q.ppdus = [x]) (hready : x.ready = false) (ho : x.outcome = none) (h4 : x.kind = 4) :
    execEdcaAccessGained band ac off s =
      .next (beaconGained band.num (curBeat s) 0 off q.reserved x (backedOff band.num ac.toNat s)) := by
  have hgo : (decide (q.st = 3) && decide (q.kind = 2)) = true := by simp [hst, hkind]
  have hhead : [x].find? (fun x => !x.ready && x.outcome.isNone) = some x := by simp [hready, ho]
  have htxop : [x].zipIdx.filter (fun y => decide (y.1.txop = x.txop) && y.1.outcome.isNone) = [(x, 0)] := by simp [ho]
  have hcls : (if x.kind ≤ 2 then [min x.cls 3] else []) = [] := if_neg (by omega)
  simp only [execEdcaAccessGained, hq, hone, hgo, hhead, htxop, hcls, List.foldl_cons, List.foldl_nil]
  exact congrArg _ (if_neg (by simp [h4]))

/-- A beacon whose next TBTT has come is skipped and counted (R362). -/
theorem execBeaconSkipped_skips {bss : BitVec 3} {x : Bss} (hx : Tab.get? (getAB s band.num).bss bss.toNat = some x)
    (hen : x.enable = true) (hserv : inService s band.num = true) (hlate : tbttNs s x (x.nextTbtt + 1) ≤ nowNs s) :
    ∃ u, execBeaconSkipped band bss s = .next u ∧
      Tab.get? (getAB u band.num).bss bss.toNat = some { x with nextTbtt := x.nextTbtt + 1 } := by
  simp only [execBeaconSkipped, hx]
  refine ⟨_, congrArg _ (if_pos (by simp [hen, hserv, hlate])), ?_⟩
  rw [getAB_congr raise_air, countAir, getAB_onAB, getAB_onAB]
  exact Tab.get?_set.trans (by simp [Tab.getD, hx])

end

/-! The oscillator (R227 to R229). -/

section
variable {s : State} {b beat i n k code : Nat} {band : BandId} {residual : Int} {f : Band}

@[simp] theorem Band.setSynth_loReady : (f.setSynth n k).loReady = f.loReady := by
  unfold Band.setSynth
  split <;> rfl
@[simp] theorem Band.setSynth_down : (f.setSynth n k).down = f.down := by
  unfold Band.setSynth
  split <;> rfl

/-- What a read of a band's front end finds, but for the outcome counters, the cutting short of a PPDU leaves. -/
theorem getBand_cutShort_field {β : Type} {φ : Band → β} (h : ∀ f l, φ { f with outc := l } = φ f) :
    φ (getBand (cutShort b code s) b) = φ (getBand s b) := by
  have hfe : ∀ {t u : State}, t.fe = u.fe → φ (getBand t b) = φ (getBand u b) := fun e => congrArg φ (getBand_congr e)
  have hend : φ (getBand (dropCoex (endTx b s)) b) = φ (getBand s b) := by
    refine Eq.trans ?_ (hfe (endTx_fe (b := b)))
    unfold dropCoex
    split <;> rfl
  have hrec : ∀ beat i, φ (getBand (record b beat i code (dropCoex (endTx b s))) b) = φ (getBand s b) := fun _ _ =>
    (field_record (φ := fun t => φ (getBand t b)) (fun _ _ => hfe (onPpdu_frame.2 .fe (by decide)))
      (fun _ _ => (congrArg φ getBand_onBand).trans (h ..)) (fun _ _ => rfl) (fun _ _ _ => hfe (hostQueue_frame.2 .fe (by decide)))
      fun _ => hfe (outcomesDone_frame.2 .fe (by decide))).trans hend
  unfold cutShort
  split
  · rfl
  dsimp only
  split
  · exact hend
  · exact (hfe consumeUsers_fe).trans ((foldl_field (φ := fun t => φ (getBand t b)) (fun _ _ => hfe failAll_fe) _).trans (hrec ..))

/-- The cutting short of a PPDU changes of its band the outcome counters alone. -/
theorem getBand_cutShort : ∃ l, getBand (cutShort b code s) b = { getBand s b with outc := l } := by
  have h : { getBand (cutShort b code s) b with outc := [] } = { getBand s b with outc := [] } :=
    getBand_cutShort_field (φ := fun f => { f with outc := [] }) fun _ _ => rfl
  exact ⟨_, congrArg (fun f : Band => { f with outc := (getBand (cutShort b code s) b).outc }) h⟩

/-- The state in which the loss of the main synthesizer's lock has stopped what the band sends (R227). -/
def lockLost (b : Nat) (s : State) : State :=
  (cutShort b 0x0411 s).onOuts fun o => { o with dac := o.dac &&& ~~~(BitVec.ofNat 192 ((2 ^ 96 - 1) * 2 ^ (96 * b))) }

/-- The other synthesizer becomes the main, and the one that lost its lock locks again (R227). -/
def Band.switchedOver (other : Nat) (f : Band) : Band := { f.setSynth f.main 2 with main := other, tracked := false }

/-- The main locks again, and the oscillator is not ready meanwhile (R228). -/
def Band.mainWaits (f : Band) : Band := { f.setSynth f.main 2 with loReady := false }

/-- The main is locked and its dividers verified at an instant (R228). -/
def Band.verified (t : Nat) (f : Band) : Band := { f.setSynth f.main 1 with loReady := true, loReadyNs := t }

theorem getBand_lockLost : ∃ l, getBand (lockLost b s) b = { getBand s b with outc := l } := getBand_cutShort

theorem execLoLockLoss_switches (hlo : 4 ≤ s.modes.mode) (hhi : s.modes.mode ≤ 6)
    (hmain : (getBand s band.num).synth (getBand s band.num).main = 1)
    (hother : (getBand s band.num).synth (1 - (getBand s band.num).main) = 1) (htr : (getBand s band.num).tracked = true) :
    ∃ u, execLoLockLoss band residual s = .next u ∧
      getBand u band.num = (getBand (lockLost band.num s) band.num).switchedOver (1 - (getBand s band.num).main) := by
  refine ⟨_, (next_onlyIf (by simp [hlo, hhi, hmain])).trans (congrArg _ (if_pos (by simp [hother, htr]))), ?_⟩
  exact (getBand_congr raise_fe).trans getBand_onBand

theorem execLoLockLoss_waits (hlo : 4 ≤ s.modes.mode) (hhi : s.modes.mode ≤ 6)
    (hmain : (getBand s band.num).synth (getBand s band.num).main = 1)
    (hother : (getBand s band.num).synth (1 - (getBand s band.num).main) ≠ 1) :
    execLoLockLoss band residual s = .next (onBand band.num Band.mainWaits (lockLost band.num s)) :=
  (next_onlyIf (by simp [hlo, hhi, hmain])).trans (congrArg _ (if_neg (by simp [hother])))

theorem execLoReady_verifies {t : Nat} (hlo : 4 ≤ s.modes.mode) (hhi : s.modes.mode ≤ 6)
    (hun : (getBand s band.num).loReady = false) (hmain : (getBand s band.num).synth (getBand s band.num).main = 2) :
    execLoReady band t s = .next (onBand band.num (Band.verified t) (advanceTo t s)) :=
  next_onlyIf (by simp [hlo, hhi, hun, hmain])

/-- The first timeout restarts the synthesizer (R229). -/
theorem execSynthLockTimeout_first (hlo : 4 ≤ s.modes.mode) (hhi : s.modes.mode ≤ 6) (hsa : (getBand s band.num).sa = 2)
    (hnew : (getBand s band.num).saTried = false) :
    execSynthLockTimeout band false s = .next (onBand band.num (fun f => { f with saTried := true }) s) :=
  (next_onlyIf (by simp [hlo, hhi, hsa, Band.synth, b2n])).trans (congrArg _ (if_pos (by simp [hnew, b2n])))

/-- A main synthesizer that fails again has FAILED, and the other, which has not, becomes the main (R229). -/
theorem execSynthLockTimeout_changes (hlo : 4 ≤ s.modes.mode) (hhi : s.modes.mode ≤ 6) (hsa : (getBand s band.num).sa = 2)
    (htried : (getBand s band.num).saTried = true) (hmain : (getBand s band.num).main = 0) (hsb : (getBand s band.num).sb = 1) :
    ∃ u, execSynthLockTimeout band false s = .next u ∧
      getBand u band.num = { getBand s band.num with sa := 4, tracked := false, main := 1, loReady := true } := by
  refine ⟨_, (next_onlyIf (by simp [hlo, hhi, hsa, Band.synth, b2n])).trans (congrArg _ ((if_neg (by simp [htried, b2n])).trans
    ((if_neg (by simp [Band.synth, b2n, hsb])).trans (if_pos (by simp [hmain, b2n]))))), ?_⟩
  rw [getBand_onBand, getBand_congr raise_fe, getBand_onBand]
  simp [Band.setSynth, Band.synth, b2n, hsb]

theorem enterReview_fe {cause : Nat} : (enterReview n cause s).fe = s.fe :=
  (frame_of_keeps (enterReview_keeps (maskOf_all _) (Keeps.refl s))).2 .fe (by decide)

/-- With both synthesizers FAILED the band is down (R229). -/
theorem execSynthLockTimeout_down (hlo : 4 ≤ s.modes.mode) (hhi : s.modes.mode ≤ 6) (hsb : (getBand s band.num).sb = 3)
    (htried : (getBand s band.num).sbTried = true) (hsa : (getBand s band.num).sa = 4) :
    ∃ u, execSynthLockTimeout band true s = .next u ∧
      getBand u band.num = { getBand s band.num with sb := 4, tracked := false, down := true, loReady := false } := by
  refine ⟨_, (next_onlyIf (by simp [hlo, hhi, hsb, Band.synth, b2n])).trans (congrArg _ ((if_neg (by simp [htried, b2n])).trans
    (if_pos (by simp [Band.synth, b2n, hsa])))), ?_⟩
  rw [getBand_congr (foldl_field (φ := State.fe) (fun _ _ => enterReview_fe) _), getBand_congr (raise_fe.trans refreshOuts_fe),
    getBand_onBand, getBand_congr raise_fe, getBand_onBand]
  simp [Band.setSynth, b2n]

end

end Sys2Proof.Machine

namespace Sys2Proof
open Sys2Proof.Machine Sys2Proof.Claim

/-- Settles O24: each row's outcome under its conditions; of a plan, a station's link and a band's oscillator, what the outcome leaves. -/
theorem plannedPpduRowsTakeEffect : Obligations.PlannedPpduRowsTakeEffect := by
  refine ⟨?sent, ?blanked, ?ended, ?clear, ?busy, ?late, ?response, ?noResponse, ?request, ?withdrawn, ?unused, ?access, ?beacon,
    ?switched, ?waits, ?verified, ?restarted, ?changed, ?down⟩
  case sent =>
    intro s band beat id grant q x ⟨hq, hx, hst, hnow, hserv, hup, hfree, ho, hs, hinst, hfits, hbl, hlo, hco, hkind, hbf, hus, hbody, hready⟩
    have hx' := getPpdu_of_plan hq hx
    have hdue : Due s band.num beat q x := ⟨hst, hnow, hserv, hup, hfree, ho, hs, hinst, hready⟩
    refine does_of_keeps (execPpduFemOn_keeps (maskOf_all _) (Keeps.refl s)) (execPpduFemOn_sent hq hx' hdue hbl hlo hfits hco) ?_
    rw [goOnAir_ack hkind hbf hus hbody]
    refine ⟨onAir_putOnAir, ?_, putOnAir_out⟩
    rw [getPpdu_putOnAir, hx']
    rfl
  case blanked =>
    intro s band beat id grant q x ⟨hq, hx, hst, hnow, hserv, hup, hfree, ho, hs, hinst, hbl, hready⟩
    have hx' := getPpdu_of_plan hq hx
    have hdue : Due s band.num beat q x := ⟨hst, hnow, hserv, hup, hfree, ho, hs, hinst, hready⟩
    refine does_of_keeps (execPpduFemOn_keeps (maskOf_all _) (Keeps.refl s)) (execPpduFemOn_blanked hq hx' hdue hbl) ?_
    rw [getPpdu_notSent hx' ho hs, onAir_notSent hx' ho hs]
    exact ⟨rfl, hfree⟩
  case ended =>
    intro s band beat id x ⟨hair, hx, hkind, ho, hnext⟩
    refine does_of_keeps (execPpduEnd_keeps (maskOf_all _) (Keeps.refl s)) (execPpduEnd_silent hair hx hkind) ?_
    rw [onAir_record, getPpdu_record (getPpdu_ended.trans hx) ho, record_outs]
    have hlines := dropCoex_lines (s := endTx band.num s) ((congrArg Fe.coexNext endTx_fe).trans hnext)
    exact ⟨onAir_ended, rfl, hlines ▸ rfl, hlines ▸ rfl⟩
  case clear =>
    rintro s band beat id _ q x ⟨hq, hx, hst, hnow, hkind, ho, hs, rfl⟩
    have hx' := getPpdu_of_plan hq hx
    refine does_of_keeps (execCcaCheckEnd_keeps (maskOf_all _) (Keeps.refl s)) (execCcaCheckEnd_clear hq hx' ⟨hst, hnow, hkind, ho, hs⟩)
      ⟨?_, onPpdu_frame.2 .fe (by decide)⟩
    rw [getPpdu_onPpdu, hx']
    rfl
  case busy =>
    intro s band beat id busy q x ⟨hq, hx, hst, hnow, hkind, ho, hs, hbusy, htime⟩
    refine does_of_keeps (execCcaCheckEnd_keeps (maskOf_all _) (Keeps.refl s))
      (execCcaCheckEnd_busy hq (getPpdu_of_plan hq hx) ⟨hst, hnow, hkind, ho, hs⟩ hbusy) ?_
    exact if_neg (Nat.not_lt.2 htime)
  case late =>
    intro s band beat id busy q x ⟨hq, hx, hst, hnow, hkind, ho, hs, hbusy, htime⟩
    have hx' := getPpdu_of_plan hq hx
    refine does_of_keeps (execCcaCheckEnd_keeps (maskOf_all _) (Keeps.refl s))
      (execCcaCheckEnd_busy hq hx' ⟨hst, hnow, hkind, ho, hs⟩ hbusy) ?_
    rw [if_pos htime, getPpdu_notSent hx' ho hs]
    rfl
  case response =>
    intro s band beat id sta acked x v ⟨hx, hs, ho, hus, hsta, hv⟩
    have haw : Awaits s band.num beat id sta x v := ⟨hx, hs, ho, hus, hsta, hv⟩
    obtain ⟨u, hexec, hu⟩ := execResponseReceived_settles (acked := acked) haw
    refine does_of_keeps (execResponseReceived_keeps (maskOf_all _) (Keeps.refl s)) hexec ?_
    rw [getPpdu_congr (getAB_congr hu), getPpdu_settled haw]
    exact ⟨rfl, rfl⟩
  case noResponse =>
    intro s band beat id sta x v y ⟨hx, hs, ho, hus, hsta, hv, hy⟩
    have haw : Awaits s band.num beat id sta x v := ⟨hx, hs, ho, hus, hsta, hv⟩
    obtain ⟨u, hexec, hu⟩ := execResponseTimeout_settles haw
    refine does_of_keeps (execResponseTimeout_keeps (maskOf_all _) (Keeps.refl s)) hexec ⟨?_, ?_⟩
    · rw [getPpdu_congr (getAB_congr hu), getPpdu_settled haw]
      rfl
    · exact (failsOf_congr (congrArg Air.stas hu)).trans (failsOf_settled haw hy)
  case request =>
    intro s band beat id x ⟨hx, hmode, hmask, ho⟩
    obtain ⟨u, hexec, houts⟩ := execCoexRequest_raises hx hmode hmask ho
    exact does_of_keeps (execCoexRequest_keeps (maskOf_all _) (Keeps.refl s)) hexec houts
  case withdrawn =>
    intro s band beat id x ⟨hmode, hmask, hair, hx, ho⟩
    refine does_of_keeps (execCoexGntWithdrawn_keeps (maskOf_all _) (Keeps.refl s)) (execCoexGntWithdrawn_cuts hmode hmask) ?_
    rw [onAir_cutShort hair hx, getPpdu_cutShort hair hx ho]
    exact ⟨rfl, rfl⟩
  case unused =>
    intro s band hmode
    exact does_of_keeps (execCoexGntWithdrawn_keeps (maskOf_all _) (Keeps.refl s)) (execCoexGntWithdrawn_unused hmode) rfl
  case access =>
    intro s band ac off q x ⟨hq, hst, hkind, hone, hready, ho, h4, hfits⟩
    have hblocks : blocksOf (backedOff band.num ac.toNat s) band.num (curBeat s) q.reserved [] =
        blocksOf s band.num (curBeat s) q.reserved [] := rfl
    refine does_of_keeps (execEdcaAccessGained_keeps (maskOf_all _) (Keeps.refl s))
      (execEdcaAccessGained_beacon hq hst hkind hone hready ho h4) ?_
    rw [beaconGained_fits (by rwa [usableEnd_backedOff, hblocks]), usableEnd_backedOff, hblocks, getPpdu_onPpdu, getPpdu_backedOff,
      getPpdu_of_plan hq (x := x) (by simp [hone])]
    rfl
  case beacon =>
    intro s band bss x ⟨hx, hen, hserv, hlate⟩
    obtain ⟨u, hexec, hskip⟩ := execBeaconSkipped_skips hx hen hserv hlate
    exact does_of_keeps (execBeaconSkipped_keeps (maskOf_all _) (Keeps.refl s)) hexec hskip
  case switched =>
    intro s band residual ⟨hlo, hhi, hmain, hone, hother, htr⟩
    obtain ⟨u, hexec, hu⟩ := execLoLockLoss_switches (residual := residual) hlo hhi hmain hother htr
    obtain ⟨l, hl⟩ := getBand_lockLost (b := band.num) (s := s)
    refine does_of_keeps (execLoLockLoss_keeps (maskOf_all _) (Keeps.refl s)) hexec ?_
    rw [hu, hl]
    exact ⟨rfl, Band.synth_setSynth_same, rfl, Band.setSynth_loReady⟩
  case waits =>
    intro s band residual ⟨hlo, hhi, hmain, hother⟩
    obtain ⟨l, hl⟩ := getBand_lockLost (b := band.num) (s := s)
    refine does_of_keeps (execLoLockLoss_keeps (maskOf_all _) (Keeps.refl s)) (execLoLockLoss_waits hlo hhi hmain hother) ?_
    rw [getBand_onBand, hl]
    exact ⟨Band.setSynth_main, Band.synth_setSynth_same, rfl⟩
  case verified =>
    intro s band t ⟨hlo, hhi, hun, hmain⟩
    refine does_of_keeps (execLoReady_keeps (maskOf_all _) (Keeps.refl s)) (execLoReady_verifies hlo hhi hun hmain) ?_
    rw [getBand_onBand, getBand_congr advanceTo_fe]
    exact ⟨rfl, rfl, Band.synth_setSynth_same, Band.setSynth_main⟩
  case restarted =>
    rintro s band _ ⟨hlo, hhi, rfl, hsa, hnew⟩
    refine does_of_keeps (execSynthLockTimeout_keeps (maskOf_all _) (Keeps.refl s)) (execSynthLockTimeout_first hlo hhi hsa hnew) ?_
    rw [getBand_onBand]
  case changed =>
    rintro s band _ ⟨hlo, hhi, rfl, hsa, htried, hmain, hsb⟩
    obtain ⟨u, hexec, hu⟩ := execSynthLockTimeout_changes hlo hhi hsa htried hmain hsb
    refine does_of_keeps (execSynthLockTimeout_keeps (maskOf_all _) (Keeps.refl s)) hexec ?_
    rw [hu]
    exact ⟨rfl, rfl, rfl, rfl⟩
  case down =>
    rintro s band _ ⟨hlo, hhi, rfl, hsb, htried, hsa⟩
    obtain ⟨u, hexec, hu⟩ := execSynthLockTimeout_down hlo hhi hsb htried hsa
    refine does_of_keeps (execSynthLockTimeout_keeps (maskOf_all _) (Keeps.refl s)) hexec ?_
    rw [hu]
    exact ⟨rfl, rfl, rfl⟩

end Sys2Proof
end

section
/-!
The opcodes of family 0x06 (R370 to R380): the effect of each, as one equation per outcome, under the conditions that its rule states.
The statement on their answers (O21) follows from them.
-/

namespace Sys2Proof.Machine
open Sys2Proof.Claim

section
variable {o : OpSpec} {d : Doorbell} {p : List Byte} {s : State} {c : Cmd} {x : Sta} {f : Sta → Sta} {b m n first start : Nat}

/-! The copying of a command leaves what the effects of the family read. -/

@[simp] theorem copied_air : (copied o d p s).air = s.air := rfl
@[simp] theorem getAB_copied : getAB (copied o d p s) b = getAB s b := rfl
@[simp] theorem getSta_copied : getSta (copied o d p s) n = getSta s n := rfl
theorem startBeat_copied {late : Bool} : startBeat (copied o d p s) start late = startBeat s start late := rfl
theorem badGate_copied : badGate (copied o d p s) c = badGate s c := rfl

/-! Stations (R372 to R374, R379). -/

/-- A station stands at an index with its parameters, everything else at its start (R372). -/
def enterSta (n : Nat) (q : StaParm) (s : State) : State := s.onAir fun a => { a with stas := Tab.set a.stas n { p := q } }

theorem getSta_enterSta {q : StaParm} : getSta (enterSta n q s) m = if m = n then some { p := q } else getSta s m := Tab.get?_set

theorem onSta_air : (onSta n f s).air = { s.air with stas := (onSta n f s).air.stas } := by
  unfold onSta
  split <;> rfl

theorem getSta_onSta_same (hx : getSta s n = some x) : getSta (onSta n f s) n = some (f x) := by simp [getSta_onSta, hx]
theorem getSta_onSta_ne (h : m ≠ n) : getSta (onSta n f s) m = getSta s m := by simp [getSta_onSta, h]

/-- The air without a station: its pledges and its channel state are deleted with it, and the frames that it held are counted
(R308, R373; the pledges by entry 56 of the log). -/
def Air.without (n : Nat) (x : Sta) (a : Air) : Air :=
  { a with
    stas := Tab.erase a.stas n
    flushed := satAdd 32 a.flushed (sumOf (x.q.map List.length))
    pledges := a.pledges.filter fun e => e.1 / 2 != n
    csi := a.csi.filter fun e => e.1 / 1024 != n
    csiNew := a.csiNew.filter fun e => e.1 / 1024 != n }

theorem specStaAdd_body (hok : staOk c = true) (hnone : getSta s (c.u 16 2) = none) (haddr : addrTaken s (c.u 16 2) (staParm c) = false)
    (haid : aidTaken s (c.u 16 2) (staParm c) = false) :
    specStaAdd.body c s = (.okAir, enterSta (c.u 16 2) (staParm c) s) :=
  (if_neg (by simp [hok])).trans ((if_neg (by simp [hnone, haddr])).trans (if_neg (by simp [haid])))

theorem specStaAdd_body_occupied (hok : staOk c = true) (hsome : (getSta s (c.u 16 2)).isSome = true) :
    specStaAdd.body c s = (.err 0x0601, s) :=
  (if_neg (by simp [hok])).trans (if_pos (by simp [hsome]))

/-- The parameters named are those that STA_MODIFY leaves as they are (R372). -/
theorem specStaModify_body (hok : staOk c = true) (hx : getSta s (c.u 16 2) = some x) (hbss : (staParm c).bss = x.p.bss)
    (haid : (staParm c).aid = x.p.aid) (hmld : (staParm c).mld = x.p.mld) (hm : (staParm c).addrM = x.p.addrM)
    (hh : (staParm c).addrH = x.p.addrH) :
    specStaModify.body c s = (.okAir, onSta (c.u 16 2) (fun x => { x with p := staParm c }) s) := by
  simp only [specStaModify, hx]
  exact (if_neg (by simp [hok])).trans (if_neg (by simp [hbss, haid, hmld, hm, hh]))

theorem specStaModify_body_absent (hok : staOk c = true) (hnone : getSta s (c.u 16 2) = none) :
    specStaModify.body c s = (.err 0x0602, s) := by
  simp only [specStaModify, hnone]
  exact if_neg (by simp [hok])

theorem specStaRemove_body (hn : c.u 16 2 ≤ 2047) (hx : getSta s (c.u 16 2) = some x)
    (hfree : (s.air.bfs.any fun f => f.2.p.sta = c.u 16 2) = false) :
    specStaRemove.body c s = (.okAir, s.onAir (Air.without (c.u 16 2) x)) := by
  simp only [specStaRemove, hx]
  exact (if_neg (by omega)).trans (if_neg (by simp [hfree]))

theorem specStaRemove_body_flows (hn : c.u 16 2 ≤ 2047) (hx : getSta s (c.u 16 2) = some x)
    (hflow : (s.air.bfs.any fun f => f.2.p.sta = c.u 16 2) = true) :
    specStaRemove.body c s = (.err 0x0603, s) := by
  simp only [specStaRemove, hx]
  exact (if_neg (by omega)).trans (if_pos hflow)

theorem specStaGet_body_band (hkind : c.u 16 1 = 2) (hb : c.u 17 1 ≤ 1) :
    specStaGet.body c s = (.ok (ctrBytes (getAB s (c.u 17 1)).ctr), s) := by
  simp only [specStaGet, hkind]
  exact (if_neg (by simp; omega)).trans (if_pos trivial)

theorem specStaGet_body_parameters (hkind : c.u 16 1 = 0) (hn : c.u 18 2 ≤ 2047) (hx : getSta s (c.u 18 2) = some x) :
    specStaGet.body c s = (.ok (staBytes (c.u 18 2) x.p), s) := by
  simp only [specStaGet, hkind, hx]
  exact (if_neg (by simp; omega)).trans ((if_neg (by decide)).trans (if_pos trivial))

/-- A station as LINK_STEER leaves it (R379). -/
def Sta.steered (c : Cmd) (x : Sta) : Sta :=
  { x with steer := c.u 18 1, acLink := [20, 21, 22, 23].map fun o => BitVec.ofNat 2 (c.u o 1) }

/-- Links are steered of a station that is a multi-link device (bit 2 of its flags; R379). -/
theorem specLinkSteer_body (hn : c.u 16 2 ≤ 2047) (hsteer : c.u 18 1 ≤ 4) (hx : getSta s (c.u 16 2) = some x)
    (hmld : x.p.flags.getLsbD 2 = true) :
    specLinkSteer.body c s = (.okAir, onSta (c.u 16 2) (Sta.steered c) s) := by
  simp only [specLinkSteer, hx]
  exact (if_neg (by simp; omega)).trans (if_neg (by simp [hmld]))

/-! Access classes (R375). -/

/-- The fields of AC_PARAM_SET are in range (R375). -/
def AcInRange (c : Cmd) : Prop :=
  c.u 16 1 ≤ 1 ∧ c.u 17 1 ≤ 100 ∧ c.u 18 2 ≤ 50000 ∧ c.u 20 2 ≤ 50000 ∧ c.u 22 1 ≤ 32 ∧ 1 ≤ c.u 23 1 ∧ c.u 23 1 ≤ 16 ∧
  10 ≤ c.u 24 2 ∧ c.u 24 2 ≤ 10000 ∧ 1 ≤ c.u 26 2 ∧ c.u 26 2 ≤ 1000 ∧ ((32 ≤ c.u 28 1 ∧ c.u 28 1 ≤ 61) ∨ c.u 28 1 = 0xFF) ∧
  c.u 30 1 ≤ 40 ∧ 1 ≤ c.u 31 1 ∧ ((List.range 4).map (acParm c)).all AcParm.ok = true

/-- A band with the access parameters that AC_PARAM_SET carries (R375). -/
def AirBand.accessSet (c : Cmd) (a : AirBand) : AirBand :=
  { a with
    ulPct := c.u 17 1, head := c.u 18 2, tail := c.u 20 2, retrySym := c.u 22 1, minSym := c.u 23 1, quantum := c.u 24 2
    reorderMs := c.u 26 2, outRing := c.u 28 1, outMask := BitVec.ofNat 8 (c.u 29 1), mcsMargin := c.u 30 1, bsrp := c.u 31 1
    ac := (List.range 4).map (acParm c) }

theorem specAcParamSet_body (h : AcInRange c) : specAcParamSet.body c s = (.okAir, onAB (c.u 16 1) (AirBand.accessSet c) s) := by
  obtain ⟨hb, hul, hhead, htail, hretry, hmin, hmin', hq, hq', hre, hre', hring, hmargin, hbsrp, hacs⟩ := h
  refine if_neg ?_
  simp only [hacs]
  simp
  omega

/-! Turn plans and air gates (R353, R376, R377). -/

/-- A plan whose START_BEAT has passed is too late, unless it may run late (R376). -/
theorem startBeat_late (h0 : start ≠ 0) (hlate : start < effBeat s true) : startBeat s start false = none :=
  (if_neg h0).trans ((if_neg (Nat.not_le.2 hlate)).trans (if_neg Bool.false_ne_true))

/-- The kinds of the beats of a cycle, two bits each (R376). -/
def turnKinds (c : Cmd) : List Nat := (List.range (c.u 18 2)).map fun p => c.u (28 + p / 4) 1 / 4 ^ (p % 4) % 4

/-- The plan that TURN_PLAN_SET carries, from its first beat on, its phases counted from a start (R376). -/
def turnPlanOf (c : Cmd) (first start : Nat) : TurnPlan :=
  { cycle := c.u 18 2, start, from_ := first, kinds := turnKinds c, runLate := bit (c.u 17 1) 0 }

/-- The fields of TURN_PLAN_SET are in range (R376). -/
def TurnsInRange (c : Cmd) : Prop := c.u 16 1 ≤ 1 ∧ 1 ≤ c.u 18 2 ∧ c.u 18 2 ≤ 1024 ∧ (turnKinds c).contains 3 = false

theorem TurnsInRange.passes (h : TurnsInRange c) :
    ¬ (decide (c.u 16 1 > 1) || decide (c.u 18 2 < 1) || decide (1024 < c.u 18 2) || (turnKinds c).contains 3) = true := by
  obtain ⟨hb, hn, hn', hkinds⟩ := h
  rw [hkinds]
  simp
  omega

theorem specTurnPlanSet_body (h : TurnsInRange c) (hstart : startBeat s (c.u 20 6) (bit (c.u 17 1) 0) = some (first, start)) :
    specTurnPlanSet.body c s = (.okAir, onAB (c.u 16 1) (fun a => { a with turns := turnPlanOf c first start :: a.turns }) s) := by
  simp only [specTurnPlanSet, hstart]
  exact if_neg h.passes

theorem specTurnPlanSet_body_late (h : TurnsInRange c) (hstart : startBeat s (c.u 20 6) (bit (c.u 17 1) 0) = none) :
    specTurnPlanSet.body c s = (.err 0x0604, s) := by
  simp only [specTurnPlanSet, hstart]
  exact if_neg h.passes

/-- A band with the gate list and the longest PPDUs that AIR_GATE_SET carries (R353, R377). -/
def AirBand.gated (c : Cmd) (first start : Nat) (a : AirBand) : AirBand :=
  { a with
    gates := { cycleBeats := c.u 18 1, start, from_ := first, entries := gateEntries c, runLate := bit (c.u 19 1) 0 } :: a.gates
    maxAir := (List.range 5).map fun i => c.u (28 + 2 * i) 2 }

theorem specAirGateSet_body (hb : c.u 16 1 ≤ 1) (hn : c.u 17 1 ≤ 64) (hcycle : 1 ≤ c.u 18 1) (hcycle' : c.u 18 1 ≤ 64)
    (hair : ∀ i, i < 5 → 100 ≤ c.u (28 + 2 * i) 2 ∧ c.u (28 + 2 * i) 2 ≤ 5484)
    (hbeats : ((gateEntries c).all fun e => decide (e.1 < c.u 18 1)) = true) (hgates : badGate s c = none)
    (hstart : startBeat s (c.u 20 6) (bit (c.u 19 1) 0) = some (first, start)) :
    specAirGateSet.body c s = (.okAir, onAB (c.u 16 1) (AirBand.gated c first start) s) := by
  have hair' : (((List.range 5).map fun i => c.u (28 + 2 * i) 2).any fun a => decide (a < 100) || decide (5484 < a)) = false := by
    simp only [List.any_eq_false, List.mem_map, List.mem_range]
    rintro _ ⟨i, hi, rfl⟩
    simpa using hair i hi
  have hbeats' : ((gateEntries c).any fun e => decide (c.u 18 1 ≤ e.1)) = false := by
    simpa [List.any_eq_false] using hbeats
  simp only [specAirGateSet, hgates, hstart, hair', hbeats']
  exact if_neg (by simp; omega)

/-! Beacons (R362, R378). -/

/-- The fields of BEACON_TEMPLATE are in range (R378). -/
def BeaconInRange (c : Cmd) : Prop :=
  c.u 16 1 ≤ 1 ∧ c.u 17 1 ≤ 7 ∧ 1 ≤ c.u 19 1 ∧ 20 ≤ c.u 20 2 ∧ c.u 20 2 ≤ 1000 ∧ 24 ≤ c.u 26 2 ∧ c.u 26 2 ≤ 448 ∧ c.u 34 2 ≤ 8191 ∧
  c.u 36 1 ∈ [6, 9, 12, 18, 24, 36, 48, 54] ∧ 32 ≤ c.u 37 1 ∧ c.u 37 1 ≤ 61

/-- The timestamp lies within the template, and the TIM, where there is one, begins within it (R378). -/
def BeaconFits (c : Cmd) : Prop := c.u 22 2 + 8 ≤ c.u 26 2 ∧ (c.u 24 2 = 0xFFFF ∨ c.u 24 2 < c.u 26 2)

/-- The BSS that BEACON_TEMPLATE carries, its first TBTT at or after the effective beat (R362, R378). -/
def bssOf (c : Cmd) (s : State) : Bss :=
  { enable := bit (c.u 18 1) 0, dtim := c.u 19 1, interval := c.u 20 2, tsfOff := c.u 22 2, timOff := c.u 24 2, bssid := c.u 28 6
    gtk := c.u 34 2, rate := c.u 36 1, ring := c.u 37 1, template := c.bytes 48 (c.u 26 2)
    nextTbtt := ceilDiv (effBeat s true * bpNs s / 1000) (1024 * c.u 20 2) }

/-- A band in which a BSS is set up. -/
def AirBand.withBss (n : Nat) (y : Bss) (a : AirBand) : AirBand := { a with bss := Tab.set a.bss n y }

theorem AirBand.withBss_facts {a g : AirBand} (h : g = a.withBss n (bssOf c s)) :
    ∃ y, Tab.get? g.bss n = some y ∧ y.enable = bit (c.u 18 1) 0 ∧ y.dtim = c.u 19 1 ∧ y.interval = c.u 20 2 ∧ y.tsfOff = c.u 22 2 ∧
      y.timOff = c.u 24 2 ∧ y.bssid = c.u 28 6 ∧ y.gtk = c.u 34 2 ∧ y.rate = c.u 36 1 ∧ y.ring = c.u 37 1 ∧
      y.template = c.bytes 48 (c.u 26 2) ∧ g = { a with bss := g.bss } := by
  subst h
  exact ⟨_, Tab.get?_set.trans (if_pos rfl), rfl, rfl, rfl, rfl, rfl, rfl, rfl, rfl, rfl, rfl, rfl⟩

theorem BeaconInRange.passes {y z : Ans × State} (h : BeaconInRange c) :
    (if c.u 16 1 > 1 || 7 < c.u 17 1 || c.u 19 1 < 1 || c.u 20 2 < 20 || 1000 < c.u 20 2 || c.u 26 2 < 24 || 448 < c.u 26 2 ||
        8191 < c.u 34 2 || !([6, 9, 12, 18, 24, 36, 48, 54].contains (c.u 36 1)) || c.u 37 1 < 32 || 61 < c.u 37 1 then y else z) = z := by
  obtain ⟨hb, hbss, hdtim, hint, hint', hlen, hlen', hgtk, hrate, hring, hring'⟩ := h
  have hrate' := List.contains_iff_mem.2 hrate
  refine if_neg ?_
  simp only [hrate']
  simp
  omega

theorem specBeaconTemplate_body (h : BeaconInRange c) (hfits : BeaconFits c) :
    specBeaconTemplate.body c s = (.okAir, onAB (c.u 16 1) (AirBand.withBss (c.u 17 1) (bssOf c s)) s) := by
  obtain ⟨htsf, htim⟩ := hfits
  exact h.passes.trans (if_neg (by simp; omega))

theorem specBeaconTemplate_body_short (h : BeaconInRange c) (hshort : c.u 26 2 < c.u 22 2 + 8) :
    specBeaconTemplate.body c s = (.err 0x0606, s) :=
  h.passes.trans (if_pos (by simp [hshort]))

/-! Policies (R380). -/

/-- KERNEL 0xFFFF binds the fallback grouping alone, which no kernel has to run for (R380). -/
theorem specPolicyBind_body_unbound (hb : c.u 16 1 ≤ 1) (hk : c.u 18 2 = 0xFFFF) (hcand : 16 ≤ c.u 20 2) (hcand' : c.u 20 2 ≤ 1024) :
    specPolicyBind.body c s = (.okAir, onAB (c.u 16 1) (fun a => { a with kernel := c.u 18 2, candMax := c.u 20 2 }) s) :=
  (if_neg (by simp [hk]; omega)).trans (if_neg (by simp [hk]))

/-- A kernel that has not started binds no policy (R380). -/
theorem specPolicyBind_body_stopped (hb : c.u 16 1 ≤ 1) (hk : c.u 18 2 ≤ 63) (hcand : 16 ≤ c.u 20 2) (hcand' : c.u 20 2 ≤ 1024)
    (hstop : ((Tab.get? s.col.kernels (c.u 18 2)).map (·.started)).getD false = false) :
    specPolicyBind.body c s = (eState, s) := by
  have hne : c.u 18 2 ≠ 0xFFFF := by omega
  exact (if_neg (by simp; omega)).trans (if_pos (by rw [hstop]; simp [hne]))

end

end Sys2Proof.Machine

namespace Sys2Proof
open Sys2Proof.Machine Sys2Proof.Claim

/-- Settles O21: each opcode's effect under its conditions, from the state in which its command has been copied. -/
theorem family06CommandsAnswer : Obligations.Family06CommandsAnswer := by
  unfold Obligations.Family06CommandsAnswer
  dsimp only
  refine ⟨?add, ?occupied, ?modify, ?unknown, ?remove, ?flows, ?counters, ?parameters, ?access, ?turns, ?late, ?gates, ?beacon, ?short,
    ?steer, ?unbound, ?stopped⟩
  case add =>
    intro s d p hready ⟨hok, hnone, haddr, haid⟩
    refine answers_of_keeps hready (specStaAdd_keeps (by decide) (copied_keeps (by decide)))
      (specStaAdd_body hok hnone haddr haid) Nat.zero_ne_one ⟨?_, fun m hm => ?_, rfl⟩
    · rw [getSta_enterSta, if_pos rfl]
    · rw [getSta_enterSta, if_neg hm, getSta_copied]
  case occupied =>
    intro s d p hready ⟨hok, hsome⟩
    exact answers_of_keeps hready (specStaAdd_keeps (by decide) (copied_keeps (by decide)))
      (specStaAdd_body_occupied hok hsome) (by decide) rfl
  case modify =>
    intro s d p x hready ⟨hok, hx, hbss, haid, hmld, hm, hh⟩
    rw [← getSta_copied (o := specStaModify) (d := d) (p := p)] at hx
    exact answers_of_keeps hready (specStaModify_keeps (by decide) (copied_keeps (by decide)))
      (specStaModify_body hok hx hbss haid hmld hm hh) Nat.zero_ne_one ⟨getSta_onSta_same hx, fun m hne => getSta_onSta_ne hne, onSta_air⟩
  case unknown =>
    intro s d p hready ⟨hok, hnone⟩
    exact answers_of_keeps hready (specStaModify_keeps (by decide) (copied_keeps (by decide)))
      (specStaModify_body_absent hok hnone) (by decide) rfl
  case remove =>
    intro s d p x hready ⟨hn, hx, hfree⟩
    exact answers_of_keeps hready (specStaRemove_keeps (by decide) (copied_keeps (by decide)))
      (specStaRemove_body hn hx hfree) Nat.zero_ne_one rfl
  case flows =>
    intro s d p x hready ⟨hn, hx, hflow⟩
    exact answers_of_keeps hready (specStaRemove_keeps (by decide) (copied_keeps (by decide)))
      (specStaRemove_body_flows hn (x := x) hx hflow) (by decide) rfl
  case counters =>
    intro s d p hready ⟨hkind, hb⟩
    exact answers_ok_of_keeps hready (specStaGet_keeps (by decide) (copied_keeps (by decide))) (specStaGet_body_band hkind hb) rfl
  case parameters =>
    intro s d p x hready ⟨hkind, hn, hx⟩
    exact answers_ok_of_keeps hready (specStaGet_keeps (by decide) (copied_keeps (by decide)))
      (specStaGet_body_parameters hkind hn hx) rfl
  case access =>
    intro s d p hready hrange
    exact answers_of_keeps hready (specAcParamSet_keeps (by decide) (copied_keeps (by decide))) (specAcParamSet_body hrange)
      Nat.zero_ne_one getAB_onAB
  case turns =>
    intro s d p first start hready ⟨hb, hn, hn', hkinds, hstart⟩
    exact answers_of_keeps hready (specTurnPlanSet_keeps (by decide) (copied_keeps (by decide)))
      (specTurnPlanSet_body ⟨hb, hn, hn', hkinds⟩ (startBeat_copied.trans hstart)) Nat.zero_ne_one getAB_onAB
  case late =>
    intro s d p hready ⟨hb, hn, hn', hkinds, h0, hlate, hnot⟩
    exact answers_of_keeps hready (specTurnPlanSet_keeps (by decide) (copied_keeps (by decide)))
      (specTurnPlanSet_body_late ⟨hb, hn, hn', hkinds⟩ (hnot ▸ startBeat_late h0 hlate)) (by decide) rfl
  case gates =>
    intro s d p first start hready ⟨hb, hn, hcycle, hcycle', hair, hbeats, hgates, hstart⟩
    exact answers_of_keeps hready (specAirGateSet_keeps (by decide) (copied_keeps (by decide)))
      (specAirGateSet_body hb hn hcycle hcycle' hair hbeats (badGate_copied.trans hgates) (startBeat_copied.trans hstart)) Nat.zero_ne_one getAB_onAB
  case beacon =>
    intro s d p hready ⟨hb, hbss, hdtim, hint, hint', hlen, hlen', hgtk, hrate, hring, hring', hfits⟩
    exact answers_of_keeps hready (specBeaconTemplate_keeps (by decide) (copied_keeps (by decide)))
      (specBeaconTemplate_body ⟨hb, hbss, hdtim, hint, hint', hlen, hlen', hgtk, hrate, hring, hring'⟩ hfits) Nat.zero_ne_one
      (AirBand.withBss_facts getAB_onAB)
  case short =>
    intro s d p hready ⟨hb, hbss, hdtim, hint, hint', hlen, hlen', hgtk, hrate, hring, hshort⟩
    have hrange : BeaconInRange (cmdOf specBeaconTemplate d p s) :=
      ⟨hb, hbss, hdtim, hint, hint', hlen, hlen', hgtk, by simp [hrate], by omega, by omega⟩
    exact answers_of_keeps hready (specBeaconTemplate_keeps (by decide) (copied_keeps (by decide)))
      (specBeaconTemplate_body_short hrange hshort) (by decide) rfl
  case steer =>
    intro s d p x hready ⟨hn, hsteer, hx, hmld⟩
    rw [← getSta_copied (o := specLinkSteer) (d := d) (p := p)] at hx
    exact answers_of_keeps hready (specLinkSteer_keeps (by decide) (copied_keeps (by decide)))
      (specLinkSteer_body hn hsteer hx hmld) Nat.zero_ne_one ⟨getSta_onSta_same hx, onSta_air⟩
  case unbound =>
    intro s d p hready ⟨hb, hk, hcand, hcand'⟩
    exact answers_of_keeps hready (specPolicyBind_keeps (by decide) (copied_keeps (by decide)))
      (specPolicyBind_body_unbound hb hk hcand hcand') Nat.zero_ne_one getAB_onAB
  case stopped =>
    intro s d p hready ⟨hb, hk, hcand, hcand', hstop⟩
    exact answers_of_keeps hready (specPolicyBind_keeps (by decide) (copied_keeps (by decide)))
      (specPolicyBind_body_stopped hb hk hcand hcand' hstop) (by decide) rfl

end Sys2Proof
end

section
/-!
The opcodes of family 0x07 (R408 to R413), the deadline of a period (R397) and the completion of a weight set (R315): the effect of
each, as one equation per outcome, under the conditions that its rule states. The statement on them (O22) follows.
-/

namespace Sys2Proof.Machine
open Sys2Proof.Claim

section
variable {o : OpSpec} {d : Doorbell} {p : List Byte} {s : State} {c : Cmd} {x f : Bf} {b n m e k reason : Nat} {r : AirTest}

/-! The copying of a command leaves what the effects of the family read. -/

@[simp] theorem getBf_copied : getBf (copied o d p s) n = getBf s n := rfl
theorem admitTest_copied : admitTest (copied o d p s) n e f = admitTest s n e f := rfl

/-! A flow is set, replaced, decided. -/

/-- A flow stands at an index. -/
def enterBf (n : Nat) (f : Bf) (s : State) : State := s.onAir fun a => { a with bfs := Tab.set a.bfs n f }

theorem getBf_enterBf : getBf (enterBf n f s) m = if m = n then some f else getBf s m := Tab.get?_set
theorem getBf_enterBf_same : getBf (enterBf n f s) n = some f := getBf_enterBf.trans (if_pos rfl)
theorem getBf_enterBf_ne (h : m ≠ n) : getBf (enterBf n f s) m = getBf s m := getBf_enterBf.trans (if_neg h)

theorem getBf_onBf {g : Bf → Bf} (hx : getBf s n = some x) : getBf (onBf n g s) n = some (g x) := by
  simp only [onBf, hx]
  exact getBf_enterBf_same

theorem getBf_countBf {i : Nat} (hx : getBf s n = some x) : getBf (countBf n i s k) n = some { x with ctr := bump x.ctr i k } :=
  getBf_onBf hx

/-- A flow without one of its periods. -/
def Bf.closed (k : Nat) (x : Bf) : Bf := { x with periods := x.periods.filter fun q => q.k != k }

theorem Bf.period_closed : (x.closed k).period k = none := by simp [Bf.closed, Bf.period]

/-- A decision closes the period, and otherwise counts at most (R397, R413). -/
theorem getBf_decide {q : BfPeriod} (hx : getBf s n = some x) (hq : x.period k = some q) :
    ∃ l, getBf (decide_ n k reason s) n = some { x.closed k with ctr := l } := by
  have hclosed : getBf (onBf n (Bf.closed k) s) n = some (x.closed k) := getBf_onBf hx
  simp only [decide_, hx, hq]
  split
  · exact ⟨_, hclosed⟩
  · rw [getBf_congr (congrArg Air.bfs raise_air)]
    exact ⟨_, (getBf_countBf (getBf_countBf hclosed)).trans rfl⟩

/-! Admission and modification (R391, R408, R409). -/

/-- The flow that BF_ADMIT asks for, from a beat on (R408). -/
def flowOf (c : Cmd) (e : Nat) : Bf :=
  { p := bfParm c e, from_ := e, nextK := ceilDiv (e - (bfParm c e).first) (bfParm c e).period }

/-- The parameters of a flow after BF_MODIFY (R409). -/
def Bf.modifiedParm (c : Cmd) (x : Bf) : BfParm :=
  { x.newest with maxFrame := c.u 24 2, fpp := c.u 26 1, attempts := c.u 27 1, deadline := c.u 30 2, flags := c.u 23 1 }

/-- A flow whose periods from a beat on have the parameters of BF_MODIFY (R409). -/
def Bf.modified (c : Cmd) (e : Nat) (x : Bf) : Bf := { x with next := (e, x.modifiedParm c) :: x.next }

theorem admitAnswer_passes (h : admitTest s n e f = (0, 0, r)) :
    admitAnswer s n e f = (.okAir (bfData s f.p.link 0 r), enterBf n f s) := by
  simp only [admitAnswer, h]
  rfl

/-- FIRST_BEAT 0 stands for the effective beat, which is not too early (R408). -/
theorem bfParm_first (h : c.u 32 6 = 0) : (bfParm c e).first = e := by simp [bfParm, h]

theorem specBfAdmit_body (hok : bfOk s (c.u 16 2) (bfParm c (effBeat s true)) = true) (hnone : getBf s (c.u 16 2) = none)
    (hfirst : c.u 32 6 = 0) (htest : admitTest s (c.u 16 2) (effBeat s true) (flowOf c (effBeat s true)) = (0, 0, r)) :
    specBfAdmit.body c s = (.okAir (bfData s (bfParm c (effBeat s true)).link 0 r), enterBf (c.u 16 2) (flowOf c (effBeat s true)) s) :=
  (if_neg (by simp [hok])).trans ((if_neg (by simp [hnone])).trans
    ((if_neg (by simp [bfParm_first hfirst])).trans (admitAnswer_passes htest)))

theorem specBfAdmit_body_admitted (hok : bfOk s (c.u 16 2) (bfParm c (effBeat s true)) = true)
    (hsome : (getBf s (c.u 16 2)).isSome = true) : specBfAdmit.body c s = (.err 0x0706, s) :=
  (if_neg (by simp [hok])).trans (if_pos hsome)

theorem specBfModify_body_unknown (hok : bfOk s (c.u 16 2) (bfParm c (effBeat s true)) = true) (hnone : getBf s (c.u 16 2) = none) :
    specBfModify.body c s = (.err 0x0707, s) := by
  simp only [specBfModify, hok, hnone]
  rfl

/-- Nothing but what BF_MODIFY may change differs, and bit 0 of FLAGS stays (R409). -/
theorem specBfModify_body (hok : bfOk s (c.u 16 2) (bfParm c (effBeat s true)) = true) (hx : getBf s (c.u 16 2) = some x)
    (hparm : { bfParm c (effBeat s true) with first := x.newest.first } = x.modifiedParm c) (hflag : x.newest.flags % 2 = c.u 23 1 % 2)
    (htest : admitTest s (c.u 16 2) (effBeat s true) (x.modified c (effBeat s true)) = (0, 0, r)) :
    specBfModify.body c s = (.okAir (bfData s x.p.link 0 r), enterBf (c.u 16 2) (x.modified c (effBeat s true)) s) := by
  simp only [specBfModify, hok, hx]
  refine (if_neg (by decide)).trans ((if_neg fun hchanged => ?_).trans (admitAnswer_passes htest))
  rcases (Bool.or_eq_true ..).mp hchanged with hne | hne
  · exact bne_iff_ne.mp hne hparm
  · exact bne_iff_ne.mp hne hflag

/-! Release, state and counters (R410, R411, R413). -/

theorem specBfRelease_body (hn : c.u 16 2 ≤ 1023) (hsome : (getBf s (c.u 16 2)).isSome = true) :
    specBfRelease.body c s = (.okAir, endFlow (c.u 16 2) 13 0 s) :=
  (if_neg (Nat.not_lt.2 hn)).trans (if_neg (by simp [Option.isSome_iff_ne_none.1 hsome]))

theorem specBfRelease_body_unknown (hn : c.u 16 2 ≤ 1023) (hnone : getBf s (c.u 16 2) = none) :
    specBfRelease.body c s = (.err 0x0707, s) :=
  (if_neg (Nat.not_lt.2 hn)).trans (if_pos (by simp [hnone]))

theorem specBfStatus_body_unknown (hn : c.u 16 2 ≤ 1023) (hnone : getBf s (c.u 16 2) = none) :
    specBfStatus.body c s = (.ok ([0, 0, 0x80] ++ List.replicate 57 0), s) := by
  simp only [specBfStatus, hnone]
  exact if_neg (Nat.not_lt.2 hn)

/-- Without a pledge the margin reads as -128; without an open period no deadline is due (R411). -/
theorem specBfStatus_body (hn : c.u 16 2 ≤ 1023) (hx : getBf s (c.u 16 2) = some x) (hpledge : pledgeOf s x.p.sta x.p.link = none)
    (hperiods : x.periods = []) :
    specBfStatus.body c s = (.ok (le 1 x.st ++ le 1 x.causes.toNat ++ leI 1 (-128) ++ [0] ++
      le 4 ((curBeat s - x.p.first) / max 1 x.p.period) ++ le 6 0 ++ [0, 0] ++ bfBytes (c.u 16 2) x.newest), s) := by
  simp only [specBfStatus, hx, hpledge, hperiods]
  exact if_neg (Nat.not_lt.2 hn)

theorem specBfStats_body_cleared (hn : c.u 16 2 ≤ 1023) (hx : getBf s (c.u 16 2) = some x) (hbit : bit (c.u 18 1) 0 = true) :
    specBfStats.body c s = (.ok (ctrBytes x.ctr), onBf (c.u 16 2) (fun x => { x with ctr := zeroed x.ctr }) s) := by
  simp only [specBfStats, hx, hbit]
  exact if_neg (Nat.not_lt.2 hn)

theorem specBfStats_body_kept (hn : c.u 16 2 ≤ 1023) (hx : getBf s (c.u 16 2) = some x) (hbit : bit (c.u 18 1) 0 = false) :
    specBfStats.body c s = (.ok (ctrBytes x.ctr), s) := by
  simp only [specBfStats, hx, hbit]
  exact if_neg (Nat.not_lt.2 hn)

/-! Pledges and the limits of a band (R412). -/

/-- A pledge of a station on a link is stored. -/
def enterPledge (n b : Nat) (q : Pledge) (s : State) : State :=
  s.onAir fun a => { a with pledges := Tab.set a.pledges (2 * n + b) q }

theorem pledgeOf_enterPledge {q : Pledge} : pledgeOf (enterPledge n b q s) n b = some q := Tab.get?_set.trans (if_pos rfl)

/-- No flow is affected, so that none can fail (R412). -/
theorem pledgeTest_unaffected : pledgeTest s b false = (.okAir, s) := rfl

/-- The pledge of BF_PLEDGE_SET. -/
def pledgeIn (c : Cmd) : Pledge := { mcs := c.u 23 1, ss := c.u 24 1, margin := c.u 25 1 }

/-- A first pledge on band M, on which no flow depends yet (R412). -/
theorem specBfPledgeSet_body_pledge {x : Sta} (hkind : c.u 16 1 = 0) (hb : c.u 22 1 = 0) (hx : getSta s (c.u 20 2) = some x)
    (hlink : x.p.links.getLsbD 0 = true) (hmcs : c.u 23 1 ≤ x.p.mcsM) (hss : 1 ≤ c.u 24 1) (hss' : c.u 24 1 ≤ 4) (hmargin : c.u 25 1 ≤ 40)
    (hflows : (s.air.bfs.filter fun f => f.2.p.sta = c.u 20 2 && f.2.p.link = 0) = []) (hnone : pledgeOf s (c.u 20 2) 0 = none) :
    specBfPledgeSet.body c s = (.okAir, enterPledge (c.u 20 2) 0 (pledgeIn c) s) := by
  simp only [specBfPledgeSet, hkind, hb, hx, hflows, hnone, List.isEmpty_nil, Bool.not_true, pledgeTest_unaffected]
  exact if_neg (by simp [hlink]; omega)

/-- The pledged fraction, the cap and the time of review of a band. -/
def AirBand.limited (c : Cmd) (a : AirBand) : AirBand := { a with frac := c.u 21 1, cap := c.u 22 1, review := c.u 23 1 }

theorem specBfPledgeSet_body_band (hkind : c.u 16 1 = 1) (hb : c.u 20 1 ≤ 1) (hfrac : 10 ≤ c.u 21 1) (hfrac' : c.u 21 1 ≤ 90)
    (hcap : c.u 21 1 ≤ c.u 22 1) (hcap' : c.u 22 1 ≤ 95) (hreview : 1 ≤ c.u 23 1) (hflows : bandBfs s (c.u 20 1) = []) :
    specBfPledgeSet.body c s = (.okAir, onAB (c.u 20 1) (AirBand.limited c) s) := by
  simp only [specBfPledgeSet, hkind, hflows, List.isEmpty_nil, Bool.not_true, pledgeTest_unaffected]
  exact if_neg (by simp; omega)

/-! A period's deadline (R397) and a weight set (R315). -/

theorem execBfDeadline_decides {q : BfPeriod} (h5 : s.modes.mode = 5) (hx : getBf s n = some x) (hq : x.period k = some q) :
    execBfDeadline n k s = .next (decide_ n k (if x.st = 3 then 10 else q.reason) (advanceTo (beatNs s (x.start k + q.deadline)) s)) := by
  simp [execBfDeadline, h5, hx, hq]

theorem execBfDeadline_outside (h5 : s.modes.mode ≠ 5) : execBfDeadline n k s = .next s := by simp [execBfDeadline, h5]

/-- A plan whose first grouping has been computed, for its PPDU. -/
def Plan.weighted (i : Nat) (rest : List Grouping) (q : Plan) : Plan :=
  { q with groupings := rest, ppdus := updAt q.ppdus i fun x => { x with mf := false } }

theorem getPhy_onPlan {g : Plan → Plan} : getPhy (onPlan b k g s) m = getPhy s m := by
  unfold onPlan
  split
  · exact getPhy_onAB
  · rfl

theorem getPlan_countPhy {i l : Nat} : getPlan (countPhy b i s l) m k = getPlan s m k := by simp only [getPlan, countPhy, getAB_onPhy]

/-- The state in which the first grouping of an open plan, which is that of a PPDU, has been computed and counted (R315). -/
def weightsDone (b beat i : Nat) (rest : List Grouping) (s : State) : State :=
  onPlan b beat (fun q => { q with ppdus := updAt q.ppdus i fun x => { x with mf := false } })
    (countPhy b 0 (onPlan b beat (fun q => { q with groupings := rest }) s))

theorem getPlan_weightsDone {i : Nat} {rest : List Grouping} :
    getPlan (weightsDone b k i rest s) b k = (getPlan s b k).map (Plan.weighted i rest) := by
  rw [weightsDone, getPlan_onPlan, getPlan_countPhy, getPlan_onPlan, Option.map_map]
  rfl

theorem getPhy_weightsDone {i : Nat} {rest : List Grouping} :
    getPhy (weightsDone b k i rest s) b = { getPhy s b with ctr := bump (getPhy s b).ctr 0 } := by
  rw [weightsDone, getPhy_onPlan, getPhy_countPhy, getPhy_onPlan]

theorem execWeightSetComplete_computes {band : BandId} {i : Nat} {q : Plan} {g : Grouping} {rest : List Grouping}
    (hq : getPlan s band.num k = some q) (hg : q.groupings = g :: rest) (hst : q.st = 0) (hopen : q.completed = false)
    (hi : g.ppdu = some i) : execWeightSetComplete band k s = .next (weightsDone band.num k i rest s) := by
  simp only [execWeightSetComplete, hq, hg, hi]
  exact congrArg _ (if_neg (by simp [hst, hopen]))

end

end Sys2Proof.Machine

namespace Sys2Proof
open Sys2Proof.Machine Sys2Proof.Claim

/-- Settles O22: each opcode's effect under its conditions, from the state in which its command has been copied; of a flow and a
plan, what the deadline and the weight set leave. -/
theorem family07CommandsAnswer : Obligations.Family07CommandsAnswer := by
  unfold Obligations.Family07CommandsAnswer
  dsimp only
  refine ⟨?accepted, ?admitted, ?unknown, ?modify, ?release, ?unreleased, ?absent, ?status, ?pledge, ?limits, ?cleared, ?counters, ?deadline,
    ?outside, ?weights⟩
  case accepted =>
    intro s d p r hready ⟨hok, hnone, hfirst, htest⟩
    refine answers_of_keeps hready (specBfAdmit_keeps (by decide) (copied_keeps (by decide)))
      (specBfAdmit_body hok hnone hfirst (admitTest_copied.trans htest)) Nat.zero_ne_one ⟨?_, ?_, fun m hm => getBf_enterBf_ne hm, rfl⟩
    · rw [getBf_enterBf_same]; rfl
    · rw [getBf_enterBf_same]; rfl
  case admitted =>
    intro s d p hready ⟨hok, hsome⟩
    exact answers_of_keeps hready (specBfAdmit_keeps (by decide) (copied_keeps (by decide)))
      (specBfAdmit_body_admitted hok hsome) (by decide) rfl
  case unknown =>
    intro s d p hready ⟨hok, hnone⟩
    exact answers_of_keeps hready (specBfModify_keeps (by decide) (copied_keeps (by decide)))
      (specBfModify_body_unknown hok hnone) (by decide) rfl
  case modify =>
    intro s d p x r hready ⟨hok, hx, hparm, hflag, htest⟩
    exact answers_of_keeps hready (specBfModify_keeps (by decide) (copied_keeps (by decide)))
      (specBfModify_body hok hx hparm hflag (admitTest_copied.trans htest)) Nat.zero_ne_one ⟨getBf_enterBf_same, rfl⟩
  case release =>
    intro s d p hready ⟨hn, hsome⟩
    exact answers_of_keeps hready (specBfRelease_keeps (by decide) (copied_keeps (by decide)))
      (specBfRelease_body hn hsome) Nat.zero_ne_one getBf_endFlow
  case unreleased =>
    intro s d p hready ⟨hn, hnone⟩
    exact answers_of_keeps hready (specBfRelease_keeps (by decide) (copied_keeps (by decide)))
      (specBfRelease_body_unknown hn hnone) (by decide) rfl
  case absent =>
    intro s d p hready ⟨hn, hnone⟩
    exact answers_ok_of_keeps hready (specBfStatus_keeps (by decide) (copied_keeps (by decide)))
      (specBfStatus_body_unknown hn hnone) rfl
  case status =>
    intro s d p x hready ⟨hn, hx, hpledge, hperiods⟩
    exact answers_ok_of_keeps hready (specBfStatus_keeps (by decide) (copied_keeps (by decide)))
      (specBfStatus_body hn hx hpledge hperiods) rfl
  case pledge =>
    intro s d p x hready ⟨hkind, hb, hx, hlink, hmcs, hss, hss', hmargin, hflows, hnone⟩
    exact answers_of_keeps hready (specBfPledgeSet_keeps (by decide) (copied_keeps (by decide)))
      (specBfPledgeSet_body_pledge hkind hb hx hlink hmcs hss hss' hmargin hflows hnone) Nat.zero_ne_one ⟨pledgeOf_enterPledge, rfl⟩
  case limits =>
    intro s d p hready ⟨hkind, hb, hfrac, hfrac', hcap, hcap', hreview, hflows⟩
    exact answers_of_keeps hready (specBfPledgeSet_keeps (by decide) (copied_keeps (by decide)))
      (specBfPledgeSet_body_band hkind hb hfrac hfrac' hcap hcap' hreview hflows) Nat.zero_ne_one getAB_onAB
  case cleared =>
    intro s d p x hready ⟨hn, hx, hbit⟩
    rw [← getBf_copied (o := specBfStats) (d := d) (p := p)] at hx
    exact answers_ok_of_keeps hready (specBfStats_keeps (by decide) (copied_keeps (by decide)))
      (specBfStats_body_cleared hn hx hbit) (getBf_onBf hx)
  case counters =>
    intro s d p x hready ⟨hn, hx, hbit⟩
    exact answers_ok_of_keeps hready (specBfStats_keeps (by decide) (copied_keeps (by decide)))
      (specBfStats_body_kept hn hx hbit) rfl
  case deadline =>
    intro s bf k x q ⟨h5, hx, hq⟩
    have hx' : getBf (advanceTo (beatNs s (x.start k + q.deadline)) s) bf = some x := (getBf_congr (congrArg Air.bfs advanceTo_air)).trans hx
    obtain ⟨l, hl⟩ := getBf_decide (reason := if x.st = 3 then 10 else q.reason) hx' hq
    exact does_of_keeps (execBfDeadline_keeps (maskOf_all _) (Keeps.refl s)) (execBfDeadline_decides h5 hx hq)
      ⟨_, hl, Bf.period_closed (x := x)⟩
  case outside =>
    intro s bf k h5
    exact does_of_keeps (execBfDeadline_keeps (maskOf_all _) (Keeps.refl s)) (execBfDeadline_outside h5) rfl
  case weights =>
    intro s band beat q g rest i ⟨hq, hg, hst, hopen, hi⟩
    refine does_of_keeps (execWeightSetComplete_keeps (maskOf_all _) (Keeps.refl s)) (execWeightSetComplete_computes hq hg hst hopen hi)
      ⟨?_, getPhy_weightsDone⟩
    rw [getPlan_weightsDone, hq]
    rfl

end Sys2Proof
end

section
/-!
The rows and the opcodes of the Mladmer MAC (R458 to R478): what the failing of a frame, its next attempt and the handing over of
requests leave of the MAC, and the effect of each row and opcode, as one equation per outcome, under the conditions that its rule
states. The statement on them (O31) follows.
-/

namespace Sys2Proof.Machine
open Sys2Proof.Claim

section
variable {s t : State} {c : Cmd} {i n m k key node reason a last fin b : Nat} {f : NbFrame} {q : NbReq} {j : Job} {x : Node} {u : W64}

/-! Parameters are within their widths (R7). -/

theorem unLe_lt : ∀ b : List Byte, unLe b < 256 ^ b.length
  | [] => Nat.one_pos
  | a :: b => by
    have ha : a.toNat < 256 := a.isLt
    have hb := unLe_lt b
    rw [unLe, List.length_cons, Nat.pow_succ]
    omega

@[simp] theorem slice_length {b : List Byte} {off k : Nat} : (slice b off k).length = k := by simp [slice]

theorem Cmd.u_lt {off k : Nat} : c.u off k < 256 ^ k := (unLe_lt _).trans_eq (congrArg _ slice_length)

/-- A register of 32 bits takes a parameter of 4 bytes whole. -/
theorem param32_ne {off v : Nat} (hv : c.u off 4 ≠ v) (h32 : v < 2 ^ 32) : BitVec.ofNat 32 (c.u off 4) ≠ BitVec.ofNat 32 v := by
  intro e
  have hu : c.u off 4 < 2 ^ 32 := Cmd.u_lt
  have hnat := congrArg BitVec.toNat e
  rw [BitVec.toNat_ofNat, BitVec.toNat_ofNat, Nat.mod_eq_of_lt hu, Nat.mod_eq_of_lt h32] at hnat
  exact hv hnat

/-! A failing frame changes the counters of its node and counts, and no more of the MAC (R461, R462). -/

theorem onNode_mlad {g : Node → Node} : ∃ l, (onNode n g s).mlad = { s.mlad with nodes := l } := by
  unfold onNode
  split
  · exact ⟨_, rfl⟩
  · exact ⟨_, rfl⟩

theorem failNb_mlad : ∃ l, (failNb f reason a last u s).mlad = { s.mlad with nodes := l, ctr := bump s.mlad.ctr 14 } := by
  have hcount : ∀ {t m i l}, t.mlad = { s.mlad with nodes := l, ctr := bump s.mlad.ctr 14 } →
      ∃ l, (countNode m i t).mlad = { s.mlad with nodes := l, ctr := bump s.mlad.ctr 14 } := fun ht => by
    obtain ⟨l, hl⟩ := onNode_mlad
    exact ⟨l, hl.trans (by rw [ht])⟩
  obtain ⟨l, hl⟩ := hcount (m := f.node) (i := 2) (show (countMlad 14 s).mlad = _ from rfl)
  unfold failNb
  simp only [apply_ite State.mlad, raise_mlad, ite_self]
  split
  · exact hcount hl
  split
  · exact hcount hl
  · exact ⟨l, hl⟩

/-! A direct frame: its job is stored, tried again, or fails (R461). -/

/-- A job stands at its key. -/
def enterJob (key : Nat) (j : Job) (s : State) : State := s.onMlad fun m => { m with jobs := Tab.set m.jobs key j }

theorem get?_enterJob : Tab.get? (enterJob key j s).mlad.jobs key = some j := Tab.get?_set.trans (if_pos rfl)

theorem onJob_eq {g : Job → Job} (hj : Tab.get? s.mlad.jobs key = some j) : onJob key g s = enterJob key (g j) s := by
  simp only [onJob, hj]
  rfl

/-- A job in its backoff until an instant. -/
def Job.backingOff (w : Nat) (j : Job) : Job := { j with st := .backoff, wake := w }

/-- Before its eighth attempt is consumed, a frame goes to its backoff, which ends a whole number of ms from now. -/
theorem jobRetry_again (hj : Tab.get? s.mlad.jobs key = some j) (hk : j.k < 8) :
    jobRetry key s = enterJob key (j.backingOff (nowNs s + (s.draw (2 ^ min (j.k + 2) 8)).1 * 10 ^ 6))
      ((countMlad 13 s).draw (2 ^ min (j.k + 2) 8)).2 := by
  have hdrawn : Tab.get? ((countMlad 13 s).draw (2 ^ min (j.k + 2) 8)).2.mlad.jobs key = some j := hj
  unfold jobRetry
  simp only [hj, if_neg (Nat.not_le.2 hk)]
  exact onJob_eq hdrawn

/-- After its eighth attempt it fails. -/
theorem jobRetry_last (hj : Tab.get? s.mlad.jobs key = some j) (hk : 8 ≤ j.k) : jobRetry key s = failJob key 1 s := by
  simp only [jobRetry, hj, if_pos (ge_iff_le.2 hk)]

theorem failJob_mlad (hj : Tab.get? s.mlad.jobs key = some j) :
    ∃ l, (failJob key reason s).mlad = { s.mlad with nodes := l, jobs := Tab.erase s.mlad.jobs key, ctr := bump s.mlad.ctr 14 } := by
  simp only [failJob, hj]
  exact failNb_mlad

/-- The request for the next attempt of a job (R461). -/
def Job.request (key now : Nat) (j : Job) : NbReq := { kind := .data, key, frame := some j.frame, earliest := now, latest := j.until_ }

/-- A job whose request waits for a transceiver. -/
def Job.waiting (j : Job) : Job := { j with st := .queued }

theorem jobRequest_eq (hj : Tab.get? s.mlad.jobs key = some j) :
    jobRequest key s = putReq j.xcvr (j.request key (nowNs s)) (enterJob key j.waiting s) := by
  simp only [jobRequest, hj, onJob_eq hj]
  rfl

theorem Tab.get?_singleton {α : Type} {a : α} : Tab.get? [(key, a)] key = some a := if_pos rfl

theorem Tab.erase_singleton {α : Type} {a : α} : Tab.erase [(key, a)] key = [] := by simp [Tab.erase]

/-! A held frame expires (R462). -/

theorem dropHeld_expired_mlad {h : HeldFrame} : ∃ l, (dropHeld h 3 s).mlad =
    { s.mlad with nodes := l, store := s.mlad.store.filter fun g => g.key != h.key, ctr := bump (bump s.mlad.ctr 18) 14 } := failNb_mlad

theorem dropHeld_nb {h : HeldFrame} : (dropHeld h reason s).nb = s.nb := dropHeld_frame.2 .nb (by decide)

/-! Transceivers with no request to hand over. -/

/-- What holds of every transceiver, and of the default, holds of each that is read. -/
theorem getX_of_all {P : Xcvr → Prop} (h : ∀ y ∈ s.nb.x, P y) (h0 : P {}) : P (getX s i) := by
  unfold getX
  rw [List.getD_eq_getElem?_getD]
  cases hy : s.nb.x[i]? with
  | none => exact h0
  | some y => exact h y (List.mem_of_getElem? hy)

/-- What holds of every transceiver, and of the image of each, holds where one is replaced by its image. -/
theorem onX_all {P : Xcvr → Prop} {g : Xcvr → Xcvr} (hg : ∀ y, P y → P (g y)) (h : ∀ y ∈ s.nb.x, P y) :
    ∀ y ∈ (onX i g s).nb.x, P y := by
  intro y hy
  obtain ⟨k, hk⟩ := List.mem_iff_getElem?.1 hy
  obtain ⟨z, hz, rfl⟩ := Option.map_eq_some_iff.1 ((List.getElem?_modify ..).symm.trans hk)
  have hPz : P z := h z (List.mem_of_getElem? hz)
  split
  · exact hg z hPz
  · exact hPz

/-- A transceiver freed of a wait keeps what does not depend on the wait. -/
theorem unhold_all {P : Xcvr → Prop} (hP : ∀ y, P y → P { y with hold := none }) (h : ∀ y ∈ s.nb.x, P y) :
    ∀ y ∈ (unhold key s).nb.x, P y := by
  intro y hy
  obtain ⟨z, hz, rfl⟩ := List.mem_map.1 hy
  split
  · exact hP z (h z hz)
  · exact h z hz

theorem canHand_idle (h : ∀ y ∈ s.nb.x, y.reqs = [] ∨ y.hold.isSome = true) : canHand s i = false := by
  have hx : (getX s i).reqs = [] ∨ (getX s i).hold.isSome = true := getX_of_all h (.inl rfl)
  unfold canHand
  rcases hx with hx | hx
  · simp [nextReq, hx]
  · dsimp only
    split
    · rfl
    · simp [Option.isSome_iff_ne_none.1 hx]

theorem pumpN_idle (h : ∀ y ∈ s.nb.x, y.reqs = [] ∨ y.hold.isSome = true) : pumpN n s = s := by
  cases n with
  | zero => rfl
  | succ n =>
    have hnone : (List.range 4).find? (canHand s) = none := List.find?_eq_none.2 fun i _ => by simp [canHand_idle h]
    rw [pumpN, hnone]

/-- While every transceiver waits for an ACK, the MAC asks for a write of CTR_FLOOR at most (R459). -/
theorem pump_waiting (h : ∀ y ∈ s.nb.x, y.hold.isSome = true) : pump s = s ∨ pump s = wantFloor s := by
  have hidle : ∀ y ∈ s.nb.x, y.reqs = [] ∨ y.hold.isSome = true := fun y hy => .inr (h y hy)
  unfold pump
  dsimp only
  split
  · exact .inr (pumpN_idle (s := wantFloor s) hidle)
  · exact .inl (pumpN_idle hidle)

theorem pump_waiting_nb (h : ∀ y ∈ s.nb.x, y.hold.isSome = true) : (pump s).nb = s.nb := by
  rcases pump_waiting h with e | e
  · rw [e]
  · rw [e, wantFloor, State.onMlad_nb]

theorem pump_waiting_mlad (h : ∀ y ∈ s.nb.x, y.hold.isSome = true) : ∃ b, (pump s).mlad = { s.mlad with floorWriting := b } := by
  rcases pump_waiting h with e | e
  · exact ⟨s.mlad.floorWriting, by rw [e]⟩
  · exact ⟨true, by rw [e, wantFloor, State.onMlad_mlad]⟩

/-- A request that joins a queue changes the queue alone (R460). -/
theorem putReq_x : (putReq i q s).nb.x = updAt s.nb.x i fun y => { y with reqs := y.reqs ++ [q] } := rfl
theorem putReq_mlad : (putReq i q s).mlad = s.mlad := rfl
theorem enterJob_nb : (enterJob key j s).nb = s.nb := rfl

/-- Without requests, the MAC hands over nothing. -/
theorem pump_empty (h : ∀ y ∈ s.nb.x, y.reqs = []) : pump s = s := by
  have hready : (s.nb.x.any fun y => y.reqs.any fun q => !reqReady s q) = false :=
    List.any_eq_false.2 fun y hy => by simp [h y hy]
  unfold pump
  simp only [hready]
  exact pumpN_idle fun y hy => .inl (h y hy)

/-- A transceiver with no request of its own and none handed over. -/
def Xcvr.Quiet (y : Xcvr) : Prop := y.reqs = [] ∧ y.handed = none ∧ y.tx = none

/-- Withdrawing requests leaves it as it is. -/
theorem Xcvr.withdraw_quiet {y : Xcvr} {p : NbReq → Bool} {g : NbTx → Bool} (h : y.Quiet) :
    { y with reqs := y.reqs.filter p, handed := y.handed.filter p, tx := y.tx.filter g } = y := by
  obtain ⟨hreqs, hhanded, htx⟩ := h
  cases y
  cases hreqs
  cases hhanded
  cases htx
  rfl

theorem onNb_withdraw_quiet {p : NbReq → Bool} {g : NbTx → Bool} (h : ∀ y ∈ s.nb.x, y.Quiet) :
    (s.onNb fun n => { n with x := n.x.map fun y =>
      { y with reqs := y.reqs.filter p, handed := y.handed.filter p, tx := y.tx.filter g } }) = s := by
  have hx : (s.nb.x.map fun y => { y with reqs := y.reqs.filter p, handed := y.handed.filter p, tx := y.tx.filter g }) = s.nb.x :=
    (List.map_congr_left fun y hy => Xcvr.withdraw_quiet (h y hy)).trans (List.map_id _)
  simp only [State.onNb, hx]

theorem withdrawHeld_quiet (h : ∀ y ∈ s.nb.x, y.Quiet) : withdrawHeld node key s = s := by
  unfold withdrawHeld
  dsimp only
  rw [onNb_withdraw_quiet h]
  split
  case h_1 hhad _ =>
    obtain ⟨y, hy, hmine⟩ := List.any_eq_true.1 hhad
    obtain ⟨hreqs, hhanded, htx⟩ := h y hy
    simp [hreqs, hhanded, htx] at hmine
  case h_2 => rfl

theorem dropReqs_quiet (h : ∀ y ∈ s.nb.x, y.Quiet) : dropReqs node s = s := onNb_withdraw_quiet h

/-! The SEQ of the next broadcast is taken by NB_SEND and by a round of beacons alone: handing over what waits leaves
it (R460, R461, R468). -/

theorem onNode_bcastSeq {g : Node → Node} : (onNode n g s).mlad.bcastSeq = s.mlad.bcastSeq := by
  obtain ⟨l, hl⟩ := onNode_mlad (n := n) (g := g) (s := s)
  rw [hl]

theorem countNode_bcastSeq : (countNode n i s).mlad.bcastSeq = s.mlad.bcastSeq := onNode_bcastSeq

theorem failNb_bcastSeq : (failNb f reason a last u s).mlad.bcastSeq = s.mlad.bcastSeq := by
  obtain ⟨l, hl⟩ := failNb_mlad (f := f) (reason := reason) (a := a) (last := last) (u := u) (s := s)
  rw [hl]

theorem onJob_bcastSeq {g : Job → Job} : (onJob key g s).mlad.bcastSeq = s.mlad.bcastSeq := by
  unfold onJob
  split <;> rfl

theorem failJob_bcastSeq : (failJob key reason s).mlad.bcastSeq = s.mlad.bcastSeq := by
  unfold failJob
  split
  · exact failNb_bcastSeq
  · rfl

theorem jobRetry_bcastSeq : (jobRetry key s).mlad.bcastSeq = s.mlad.bcastSeq := by
  unfold jobRetry
  split
  · rfl
  split
  · exact failJob_bcastSeq
  · exact onJob_bcastSeq

theorem dropHeld_bcastSeq {h : HeldFrame} : (dropHeld h reason s).mlad.bcastSeq = s.mlad.bcastSeq := by
  unfold dropHeld
  refine failNb_bcastSeq.trans ?_
  split
  · rfl
  split
  · rfl
  split <;> rfl

theorem serviceNext_bcastSeq : (serviceNext node m fin s).mlad.bcastSeq = s.mlad.bcastSeq := by
  unfold serviceNext
  split
  · exact onNode_bcastSeq
  · exact onNode_bcastSeq

theorem serviceStart_bcastSeq : (serviceStart node fin s).mlad.bcastSeq = s.mlad.bcastSeq := by
  unfold serviceStart
  split
  · rfl
  · exact serviceNext_bcastSeq

theorem heldResult_bcastSeq {ok : Bool} : (heldResult node key ok b fin s).mlad.bcastSeq = s.mlad.bcastSeq := by
  unfold heldResult
  dsimp only
  split
  · exact serviceNext_bcastSeq
  · split
    · exact serviceNext_bcastSeq
    · exact onNode_bcastSeq
  · refine serviceNext_bcastSeq.trans ?_
    split
    · split
      · exact dropHeld_bcastSeq
      · rfl
    · rfl

theorem takeCtr_bcastSeq : (takeCtr f s).2.mlad.bcastSeq = s.mlad.bcastSeq := by
  unfold takeCtr
  split
  · rfl
  dsimp only
  split
  · rfl
  · exact onNode_bcastSeq

theorem countOutcome_mlad : (countOutcome i b s).mlad = s.mlad := by
  unfold countOutcome
  split <;> rfl

theorem nbMoves_mlad : (nbMoves s).mlad = s.mlad := nbMoves_frame.2 .mlad (by decide)
theorem buildNb_mlad {more : Bool} : (buildNb f more s).2.mlad = s.mlad :=
  (frame_of_keeps (keeps_snd (buildNb_keeps (maskOf_all _) (Keeps.refl s)))).2 .mlad (by decide)

theorem macOutcome_bcastSeq : (macOutcome i q b fin s).mlad.bcastSeq = s.mlad.bcastSeq := by
  unfold macOutcome
  dsimp only
  split
  case h_1 =>
    have hcount : (if b = 0 then countNode ((q.frame.map (·.node)).getD 0xFFFF) 1 (countMlad 11 s) else countMlad 12 s).mlad.bcastSeq =
        s.mlad.bcastSeq := by
      split
      · exact countNode_bcastSeq
      · rfl
    split
    · exact serviceStart_bcastSeq.trans (onNode_bcastSeq.trans hcount)
    · exact hcount
  case h_2 => rfl
  case h_3 => split <;> rfl
  case h_4 =>
    split
    · exact countNode_bcastSeq
    · exact heldResult_bcastSeq
  case h_5 =>
    split
    · rfl
    split
    · split
      · exact onJob_bcastSeq.trans (countNode_bcastSeq.trans onJob_bcastSeq)
      · exact countNode_bcastSeq.trans onJob_bcastSeq
    split
    · exact failJob_bcastSeq.trans onJob_bcastSeq
    · exact jobRetry_bcastSeq.trans onJob_bcastSeq
  case h_6 => rfl

theorem fillReq_bcastSeq : (fillReq q s).2.2.mlad.bcastSeq = s.mlad.bcastSeq := by
  have hbuilt : ∀ {f g : NbFrame} {more : Bool} {h : HeldFrame → HeldFrame} {k : Node → Node} {r},
      buildNb f more (if q.kind = .held then onHeld q.key h (onNode f.node k (takeCtr g s).2) else (takeCtr g s).2) = r →
        r.2.mlad.bcastSeq = s.mlad.bcastSeq := fun e => by
    rw [← e, buildNb_mlad]
    split
    · exact onNode_bcastSeq.trans takeCtr_bcastSeq
    · exact takeCtr_bcastSeq
  unfold fillReq
  split
  · rfl
  split
  · rfl
  dsimp only
  split
  case h_1 e => exact hbuilt e
  case h_2 e => exact hbuilt e

theorem giveUp_bcastSeq : (giveUp i q reason s).mlad.bcastSeq = s.mlad.bcastSeq := by
  unfold giveUp
  dsimp only
  split
  case h_1 =>
    split
    · exact failJob_bcastSeq
    · rfl
  case h_2 =>
    refine serviceNext_bcastSeq.trans ?_
    split
    · exact dropHeld_bcastSeq
    · rfl
  case h_3 =>
    refine macOutcome_bcastSeq.trans ?_
    split
    · split
      · exact failNb_bcastSeq
      · rfl
    · rfl
  case h_4 => rfl

theorem handOne_bcastSeq : (handOne i s).mlad.bcastSeq = s.mlad.bcastSeq := by
  have hfill : ∀ {q : NbReq} {g : Xcvr → Xcvr} {r}, fillReq q (nbMoves (onX i g s)) = r → r.2.2.mlad.bcastSeq = s.mlad.bcastSeq :=
    fun e => e ▸ fillReq_bcastSeq.trans (congrArg Mlad.bcastSeq nbMoves_mlad)
  unfold handOne
  split
  · rfl
  dsimp only
  split
  case h_1 e => exact giveUp_bcastSeq.trans (hfill e)
  case h_2 e =>
    have hstop : ∀ {q b}, (macOutcome i q b 0 (countOutcome i b _)).mlad.bcastSeq = s.mlad.bcastSeq := fun {_ _} =>
      macOutcome_bcastSeq.trans ((congrArg Mlad.bcastSeq countOutcome_mlad).trans (hfill e))
    split
    · exact hstop
    split
    · exact hstop
    · exact hfill e

theorem pumpN_bcastSeq : (pumpN n s).mlad.bcastSeq = s.mlad.bcastSeq := by
  induction n generalizing s with
  | zero => rfl
  | succ n ih =>
    unfold pumpN
    split
    · rfl
    · exact ih.trans handOne_bcastSeq

theorem pump_bcastSeq : (pump s).mlad.bcastSeq = s.mlad.bcastSeq := by
  refine pumpN_bcastSeq.trans ?_
  split <;> rfl

end

section
variable {s t : State} {c : Cmd} {n key job : Nat} {j : Job} {h : HeldFrame} {x : Node} {src : W32} {seq : W16} {r : Relay} {e : Seen}

/-! The end of a wait for an ACK (R461). -/

/-- The frame whose ACK has not come is tried again, or fails. -/
theorem execNbAckTimeout_unacked (hj : Tab.get? s.mlad.jobs job = some j) (hst : j.st = .waitAck) (hreqs : ∀ y ∈ s.nb.x, y.reqs = []) :
    execNbAckTimeout job s = .next (jobRetry job (unhold job (advanceTo j.wake s))) := by
  have hnb : (jobRetry job (unhold job (advanceTo j.wake s))).nb = (unhold job (advanceTo j.wake s)).nb :=
    (frame_of_keeps (jobRetry_keeps (maskOf_all _) (Keeps.refl _))).2 .nb (by decide)
  have hidle : ∀ y ∈ (jobRetry job (unhold job (advanceTo j.wake s))).nb.x, y.reqs = [] := by
    rw [hnb]
    exact unhold_all (fun _ hy => hy) (by rwa [advanceTo_nb])
  simp only [execNbAckTimeout, hj, if_pos hst, pump_empty hidle]

theorem execNbAckTimeout_absent (hj : Tab.get? s.mlad.jobs job = none) (hstore : s.mlad.store = []) : execNbAckTimeout job s = .next s := by
  simp [execNbAckTimeout, hj, heldAt, hstore]

/-! The end of a backoff (R461). -/

/-- An instant that has come is not waited for. -/
theorem advanceTo_past {w : Nat} (h5 : s.modes.mode = 5) (hw : w ≤ nowNs s) : advanceTo w s = s := by
  have hnow : nowNs s = s.cad.tod / 2 ^ 32 := by simp [nowNs, h5]
  have hpast : ¬ ((s.cad.tod / 2 ^ 32 : Nat) : Int) < (w : Int) := Int.not_lt.2 (Int.ofNat_le.2 (hnow ▸ hw))
  unfold advanceTo
  rw [h5]
  dsimp only
  exact if_neg (by simp only [decide_eq_false hpast, Bool.and_false]; exact Bool.false_ne_true)

theorem execNbBackoffExpiry_expired (hj : Tab.get? s.mlad.jobs job = some j) (hst : j.st = .backoff) (h5 : s.modes.mode = 5)
    (huntil : j.until_ ≤ nowNs s) (hw : j.wake ≤ nowNs s) : execNbBackoffExpiry job s = .next (failJob job 2 s) := by
  simp [execNbBackoffExpiry, hj, hst, advanceTo_past h5 hw, huntil]

/-- A job at its next attempt. -/
def Job.again (j : Job) : Job := { j with k := j.k + 1 }

theorem execNbBackoffExpiry_requests (hj : Tab.get? s.mlad.jobs job = some j) (hst : j.st = .backoff) (h5 : s.modes.mode = 5)
    (hw : j.wake ≤ nowNs s) (huntil : nowNs s < j.until_) :
    execNbBackoffExpiry job s =
      .next (pump (putReq j.xcvr (j.request job (nowNs s)) (enterJob job j.again.waiting (enterJob job j.again s)))) := by
  simp only [execNbBackoffExpiry, hj, advanceTo_past h5 hw, if_neg (Nat.not_le.2 huntil), onJob_eq hj, jobRequest_eq get?_enterJob]
  exact congrArg _ (if_neg (by simp [hst]))

/-! Held frames, relays and the seen-cache (R462, R466, R467). -/

theorem execHeldFrameExpiry_expires (hh : heldAt s key = some h) (hquiet : ∀ y ∈ s.nb.x, y.Quiet) :
    ∃ t, execHeldFrameExpiry key s = .next (unhold key (dropHeld h 3 (advanceTo t s))) := by
  refine ⟨((h.at_ + 10 ^ 9 * ((getNode s h.frame.node).map (·.holdS)).getD 60 : Nat)), ?_⟩
  have hall : ∀ t : Int, ∀ y ∈ (unhold key (dropHeld h 3 (advanceTo t s))).nb.x, y.Quiet := fun t =>
    unhold_all (fun _ hy => hy) (by rwa [dropHeld_nb, advanceTo_nb])
  simp only [execHeldFrameExpiry, hh, withdrawHeld_quiet (hall _)]
  rw [pump_empty fun y hy => (hall _ y hy).1]

theorem find_relay (hrelays : s.mlad.relays = [r]) (hsrc : r.src = src) (hseq : r.seq = seq) :
    (s.mlad.relays.find? fun r => r.src == src && r.seq == seq) = some r := by simp [hrelays, hsrc, hseq]

/-- A relay no longer waits once its instant has come. -/
def relayDue (r : Relay) (s : State) : State := (advanceTo r.t0 s).onMlad fun m => { m with relays := m.relays.erase r }

theorem relayDue_relays (hrelays : s.mlad.relays = [r]) : (relayDue r s).mlad.relays = [] := by simp [relayDue, hrelays]
theorem relayDue_ctr : (relayDue r s).mlad.ctr = s.mlad.ctr := by rw [relayDue, State.onMlad_mlad, advanceTo_mlad]
theorem relayDue_nb : (relayDue r s).nb = s.nb := advanceTo_nb

/-- The request for a relay (R467). -/
def Relay.request (r : Relay) : NbReq := { kind := .relay, psdu := r.frame, earliest := r.t0, latest := r.t0 + 100000000 }

theorem execRelayJitterExpiry_suppressed (hr : (s.mlad.relays.find? fun r => r.src == src && r.seq == seq) = some r)
    (hone : s.mlad.suppress = 1) : execRelayJitterExpiry src seq s = .next (countMlad 20 (relayDue r s)) := by
  simp only [execRelayJitterExpiry, hr]
  exact congrArg _ (if_pos (by simp [hone]))

theorem execRelayJitterExpiry_relays (hr : (s.mlad.relays.find? fun r => r.src == src && r.seq == seq) = some r)
    (hnone : s.mlad.suppress = 0) : execRelayJitterExpiry src seq s =
      .next (pump (putReq r.xcvr r.request (relayDue r s))) := by
  simp only [execRelayJitterExpiry, hr]
  exact congrArg _ (if_neg (by simp [hnone]))

theorem execSeenEntryExpiry_ages (he : (s.mlad.seen.find? fun e => e.src == src && e.seq == seq) = some e) :
    execSeenEntryExpiry src seq s =
      .next ((advanceTo ((e.at_ + 10 ^ 9 * s.mlad.seenS : Nat)) s).onMlad fun m => { m with seen := m.seen.erase e }) := by
  simp only [execSeenEntryExpiry, he]

/-! Beacons, CTR_FLOOR and the move of the store (R459, R463, R468). -/

theorem execNbBeaconInterval_seq (hen : s.mlad.beaconEn = true) (hgw : s.mlad.gw ≠ 0) (hlive : nbLive s = true) :
    ∃ u, execNbBeaconInterval s = .next u ∧ u.mlad.bcastSeq = s.mlad.bcastSeq + 1 := by
  have hdue : (s.mlad.beaconEn && s.mlad.gw != 0 && nbLive s) = true := by rw [hen, bne_iff_ne.2 hgw, hlive]; rfl
  unfold execNbBeaconInterval
  rw [next_onlyIf hdue]
  refine ⟨_, rfl, ?_⟩
  dsimp only
  rw [pump_bcastSeq, foldl_field (φ := fun t => t.mlad.bcastSeq) fun t i => by split <;> rfl]
  split
  · exact takeCtr_bcastSeq
  · rfl

theorem execNbBeaconInterval_off (hen : s.mlad.beaconEn = false) : execNbBeaconInterval s = .next s := by
  simp [execNbBeaconInterval, onlyIf, hen]

/-- CTR_FLOOR rises by 65,536 in MRAM (R459). -/
def floorRaised (s : State) : State :=
  (mramWrite 0x6FFF0 (le 8 (s.mlad.stored + 65536)) s).onMlad fun m => { m with stored := s.mlad.stored + 65536, floorWriting := false }

theorem floorRaised_mlad : (floorRaised s).mlad = { s.mlad with stored := s.mlad.stored + 65536, floorWriting := false } := by
  rw [floorRaised, State.onMlad_mlad, mramWrite_mlad]
theorem floorRaised_nb : (floorRaised s).nb = s.nb := by rw [floorRaised, State.onMlad_nb, mramWrite_nb]
theorem floorRaised_mram : (floorRaised s).boot.mram = memWrite s.boot.mram 0x6FFF0 (le 8 (s.mlad.stored + 65536)) := by
  rw [floorRaised, State.onMlad_boot, mramWrite, State.onBoot_boot]

theorem resumeFloor_empty (hjobs : s.mlad.jobs = []) : resumeFloor s = s := by simp [resumeFloor, hjobs]

theorem execCtrFloorWriteDone_raises (hw : s.mlad.floorWriting = true) (hjobs : s.mlad.jobs = []) (hreqs : ∀ y ∈ s.nb.x, y.reqs = []) :
    execCtrFloorWriteDone s = .next (floorRaised s) := by
  have hfloor : execCtrFloorWriteDone s = .next (pump (resumeFloor (floorRaised s))) := next_onlyIf hw
  rw [hfloor, resumeFloor_empty (by rw [floorRaised_mlad]; exact hjobs), pump_empty (by rwa [floorRaised_nb])]

theorem execHeldStoreMoveDone_moved (hmoving : s.mlad.moving = true) (hdram : dramReady s = true) (h3 : s.modes.mode ≠ 3) :
    execHeldStoreMoveDone s =
      .next (s.onMlad fun m => { m with moving := false, store := m.store.map fun h => { h with dram := true } }) :=
  next_onlyIf (by simp [hmoving, hdram, h3])

/-! NODE_ADD, NODE_REMOVE and NODE_GET (R474 to R476). -/

/-- The operands of NODE_ADD that are within their ranges, for a node without a key (R474). -/
structure NodeInRange (c : Cmd) : Prop where
  index : c.u 16 2 ≤ 8191
  xcvr : c.u 19 1 ≤ 3
  nonzero : c.u 20 4 ≠ 0
  single : c.u 20 4 ≠ 0xFFFFFFFF
  keyless : c.u 24 2 = 0xFFFF
  deliver : c.u 26 1 ≤ 1
  ring : 32 ≤ c.u 27 1 ∧ c.u 27 1 ≤ 61
  hold : 1 ≤ c.u 28 1 ∧ c.u 28 1 ≤ 60
  held : 1 ≤ c.u 29 1 ∧ c.u 29 1 ≤ 16

/-- The node that NODE_ADD enters, whose counter begins at CTR_FLOOR or above (R458, R474). -/
def nodeIn (c : Cmd) (s : State) : Node :=
  { flags := BitVec.ofNat 4 (c.u 18 1), xcvr := c.u 19 1, addr := BitVec.ofNat 32 (c.u 20 4), ks := 0xFFFF, deliver := c.u 26 1,
    ring := c.u 27 1, holdS := c.u 28 1, heldMax := c.u 29 1, txCtr := max s.mlad.floor (c.u 32 4), rxCtr := c.u 36 4 }

/-- A node stands at an index. -/
def enterNode (n : Nat) (x : Node) (s : State) : State := s.onMlad fun m => { m with nodes := Tab.set m.nodes n x }

theorem onNode_eq {g : Node → Node} (hx : getNode s n = some x) : onNode n g s = enterNode n (g x) s := by
  simp only [onNode, hx]
  rfl

theorem getNode_enterNode : getNode (enterNode n x s) n = some x := Tab.get?_set.trans (if_pos rfl)

/-- With such operands NODE_ADD asks only whether the index and the address are unused (R474). -/
theorem NodeInRange.body (hr : NodeInRange c) : specNodeAdd.body c s =
    if (getNode s (c.u 16 2)).isSome || (nodeAt s (BitVec.ofNat 32 (c.u 20 4))).isSome then (.err 0x0805, s)
    else (.ok, enterNode (c.u 16 2) (nodeIn c s) s) := by
  obtain ⟨hindex, hxcvr, hnonzero, hsingle, hkeyless, hdeliver, ⟨hring, hring'⟩, ⟨hhold, hhold'⟩, hheld, hheld'⟩ := hr
  have hzero : (BitVec.ofNat 32 (c.u 20 4) : W32) ≠ 0 := param32_ne hnonzero (by decide)
  have hall : (BitVec.ofNat 32 (c.u 20 4) : W32) ≠ 0xFFFFFFFF := param32_ne hsingle (by decide)
  simp only [specNodeAdd, hzero, hall, hkeyless, decide_false, Bool.or_false, bne_self_eq_false, Bool.false_and, Bool.false_eq_true,
    if_false]
  exact if_neg (by simp; omega)

theorem specNodeAdd_body (hr : NodeInRange c) (hnone : getNode s (c.u 16 2) = none)
    (haddr : nodeAt s (BitVec.ofNat 32 (c.u 20 4)) = none) : specNodeAdd.body c s = (.ok, enterNode (c.u 16 2) (nodeIn c s) s) :=
  hr.body.trans (if_neg (by simp [hnone, haddr]))

theorem specNodeAdd_body_used (hr : NodeInRange c) (hsome : (getNode s (c.u 16 2)).isSome = true) :
    specNodeAdd.body c s = (.err 0x0805, s) :=
  hr.body.trans (if_pos (by simp [hsome]))

/-- A node without frames of its own leaves the table (R475). -/
theorem specNodeRemove_body (hn : c.u 16 2 ≤ 8191) (hx : getNode s (c.u 16 2) = some x) (hstore : s.mlad.store = [])
    (hjobs : s.mlad.jobs = []) (hquiet : ∀ y ∈ s.nb.x, y.Quiet) :
    specNodeRemove.body c s = (.ok, s.onMlad fun m => { m with nodes := Tab.erase m.nodes (c.u 16 2) }) := by
  have hidle : pump (s.onMlad fun m => { m with nodes := Tab.erase m.nodes (c.u 16 2) }) = _ := pump_empty fun y hy => (hquiet y hy).1
  simp only [specNodeRemove, hx, hstore, hjobs, dropReqs_quiet hquiet, List.filter_nil, List.foldl_nil, hidle]
  exact if_neg (Nat.not_lt.2 hn)

theorem specNodeRemove_body_absent (hn : c.u 16 2 ≤ 8191) (hnone : getNode s (c.u 16 2) = none) :
    specNodeRemove.body c s = (.err 0x0806, s) :=
  (if_neg (Nat.not_lt.2 hn)).trans (if_pos (by simp [hnone]))

/-- The settings of a node (R476). -/
theorem specNodeGet_body (hn : c.u 16 2 ≤ 8191) (hkind : c.u 18 1 = 0) (hx : getNode s (c.u 16 2) = some x) :
    specNodeGet.body c s = (.ok (le 2 (c.u 16 2) ++ le 1 x.flags.toNat ++ le 1 x.xcvr ++ le 4 x.addr.toNat ++ le 2 x.ks ++ le 1 x.deliver ++
      le 1 x.ring ++ le 1 x.holdS ++ le 1 x.heldMax ++ [0, 0] ++ le 4 (min 0xFFFFFFFF x.txCtr) ++ le 4 x.rxCtr ++
      List.replicate 8 0), s) := by
  simp only [specNodeGet, hx, hkind]
  exact if_neg (by simpa using hn)

theorem specNodeGet_body_absent (hn : c.u 16 2 ≤ 8191) (hkind : c.u 18 1 ≤ 1) (hnone : getNode s (c.u 16 2) = none) :
    specNodeGet.body c s = (.err 0x0806, s) := by
  simp only [specNodeGet, hnone]
  exact if_neg (by simp; omega)

/-! NB_SEND (R461, R462, R477). -/

/-- The operands of NB_SEND that are within their ranges, for a frame without protection that is not flooded (R450, R477). -/
structure SendInRange (c : Cmd) : Prop where
  length : c.par.length = 20 + c.u 24 1
  data : c.u 24 1 ≤ 196
  flags : c.u 18 1 ≤ 1
  ttl : c.u 19 1 = 0
  xcvr : c.u 20 1 ≤ 3
  life : 10 ≤ c.u 22 2 ∧ c.u 22 2 ≤ 60000

/-- Such a frame is refused for its node or for the want of an address alone (R473, R477). -/
theorem SendInRange.refusal (hr : SendInRange c) (hn : c.u 16 2 ≤ 8191 ∨ c.u 16 2 = 0xFFFF) :
    nbRefusal (c.u 16 2) (c.u 18 1) (c.u 19 1) (c.u 20 1) (c.u 22 2) (c.bytes 36 (c.u 24 1)).length s =
      if c.u 16 2 ≠ 0xFFFF ∧ getNode s (c.u 16 2) = none then some 0x0806 else if s.mlad.gw = 0 then some 0x0809 else none := by
  obtain ⟨_, hdata, hflags, httl, hxcvr, hlife, hlife'⟩ := hr
  have hbits : bit (c.u 18 1) 1 = false ∧ bit (c.u 18 1) 2 = false ∧ bit (c.u 18 1) 3 = false := by
    obtain h | h : c.u 18 1 = 0 ∨ c.u 18 1 = 1 := by omega
    · rw [h]; decide
    · rw [h]; decide
  have hlen : (c.bytes 36 (c.u 24 1)).length = c.u 24 1 := slice_length
  obtain ⟨hflood, hsec, hmic⟩ := hbits
  simp only [nbRefusal, hflood, hsec, hmic, httl, hlen]
  refine (if_neg (by simp; omega)).trans ((if_neg (by simp; omega)).trans ?_)
  by_cases hx : c.u 16 2 ≠ 0xFFFF ∧ getNode s (c.u 16 2) = none
  · rw [if_pos hx]
    exact if_pos (by simpa using hx)
  · rw [if_neg hx]
    refine (if_neg (by simpa using hx)).trans ?_
    simp

theorem nbSend_refused {flags ttl xcvr lifeMs e : Nat} {data : List Byte} {cookie : W64}
    (h : nbRefusal n flags ttl xcvr lifeMs data.length s = some e) : nbSend n flags ttl xcvr lifeMs data cookie s = (e, 0, s) := by
  simp only [nbSend, h]

theorem specNbSend_body {st : Nat} (hlen : c.par.length = 20 + c.u 24 1)
    (h : nbSend (c.u 16 2) (c.u 18 1) (c.u 19 1) (c.u 20 1) (c.u 22 2) (c.bytes 36 (c.u 24 1)) (BitVec.ofNat 64 (c.u 28 8)) s =
      (st, seq, t)) :
    specNbSend.body c s = (if st = 0 then .ok (le 2 seq.toNat) else .err st, t) := by
  simp only [specNbSend, hlen, h]
  exact if_neg (by simp)

/-- A broadcast of a device without an address of its own is refused (R473). -/
theorem specNbSend_body_addressless (hr : SendInRange c) (hn : c.u 16 2 = 0xFFFF) (hgw : s.mlad.gw = 0) :
    specNbSend.body c s = (.err 0x0809, s) :=
  specNbSend_body hr.length (nbSend_refused ((hr.refusal (.inr hn)).trans ((if_neg fun h => h.1 hn).trans (if_pos hgw))))

/-- The DATA frame of NB_SEND that asks for an ACK (R450, R461). -/
def dataFrame (n : Nat) (x : Node) (data : List Byte) : NbFrame :=
  { node := n, type := 0, ackReq := true, dst := x.addr, seq := x.txSeq, data }

/-- A node that has taken its next SEQ. -/
def Node.sent (x : Node) : Node := { x with txSeq := x.txSeq + 1 }

/-- A frame for a sleepy node is not sent: the node takes its SEQ, and the frame is held (R461, R462). -/
theorem nbSend_sleepy {flags ttl xcvr lifeMs : Nat} {data : List Byte} {cookie : W64} (hflags : flags = 1)
    (hrefuse : nbRefusal n flags ttl xcvr lifeMs data.length s = none) (hn : n ≠ 0xFFFF) (hx : getNode s n = some x)
    (hsleepy : x.flags.getLsbD 0 = true) :
    nbSend n flags ttl xcvr lifeMs data cookie s = (0, x.txSeq, hold (dataFrame n x data) cookie (enterNode n x.sent s)) := by
  subst hflags
  have hbits : bit 1 0 = true ∧ bit 1 1 = false ∧ bit 1 2 = false ∧ bit 1 3 = false ∧ bit 1 4 = false := by decide
  obtain ⟨hack, hflood, hsec, hmic, hdirect⟩ := hbits
  simp only [nbSend, hrefuse, hack, hflood, hsec, hmic, hdirect, if_neg hn, decide_eq_false hn, hx, Bool.false_eq_true, if_false,
    onNode_eq hx, getNode_enterNode, Option.map_some, Option.getD_some, hsleepy]
  rfl

/-- The entry that a frame becomes in the store (R462). -/
def heldIn (f : NbFrame) (cookie : W64) (s : State) : HeldFrame :=
  { key := s.mlad.nextKey, frame := f, cookie, at_ := nowNs s, dram := storeInDram s }

/-- Nothing leaves an empty store for a frame that enters it. -/
theorem hold_empty {f : NbFrame} {cookie : W64} (hstore : s.mlad.store = []) :
    hold f cookie s = s.onMlad fun m => { m with nextKey := m.nextKey + 1, store := [heldIn f cookie s] } := by
  simp only [hold, newKey, State.onMlad, hstore, List.filter_nil]
  rfl

/-- The frame of NB_SEND for a node is the only one held. -/
def soleHeld (c : Cmd) (x : Node) (s : State) : State :=
  (enterNode (c.u 16 2) x.sent s).onMlad fun m => { m with
    nextKey := m.nextKey + 1, store := [heldIn (dataFrame (c.u 16 2) x (c.bytes 36 (c.u 24 1))) (BitVec.ofNat 64 (c.u 28 8)) s] }

theorem specNbSend_body_sleepy (hr : SendInRange c) (hn : c.u 16 2 ≤ 8191) (hack : c.u 18 1 = 1) (hgw : s.mlad.gw ≠ 0)
    (hx : getNode s (c.u 16 2) = some x) (hsleepy : x.flags.getLsbD 0 = true) (hstore : s.mlad.store = []) :
    specNbSend.body c s = (.ok (le 2 x.txSeq.toNat), soleHeld c x s) := by
  have hrefuse := (hr.refusal (s := s) (.inl hn)).trans ((if_neg (by simp [hx])).trans (if_neg hgw))
  have hheld : hold (dataFrame (c.u 16 2) x (c.bytes 36 (c.u 24 1))) (BitVec.ofNat 64 (c.u 28 8)) (enterNode (c.u 16 2) x.sent s) =
      soleHeld c x s := hold_empty hstore
  have hsend := nbSend_sleepy (cookie := BitVec.ofNat 64 (c.u 28 8)) hack hrefuse (by omega) hx hsleepy
  rw [hheld] at hsend
  exact specNbSend_body hr.length hsend

/-! FLOOD_CONFIG and HELD_STATUS (R478, R479). -/

/-- The settings of FLOOD_CONFIG. -/
def Mlad.flooding (c : Cmd) (m : Mlad) : Mlad :=
  { m with
    gw := BitVec.ofNat 32 (c.u 16 4), netId := BitVec.ofNat 16 (c.u 20 2), relay := bit (c.u 22 1) 0, unkHost := bit (c.u 22 1) 1,
    udp6 := bit (c.u 22 1) 2, beaconEn := bit (c.u 22 1) 3, suppress := c.u 23 1, jitter := c.u 24 1, seenS := c.u 25 1,
    beaconS := c.u 26 1, hostRing := c.u 27 1, groupKs := c.u 28 2, port := c.u 30 2, srcIp := c.bytes 32 16, dstIp := c.bytes 48 16 }

theorem specFloodConfig_body (hgw : c.u 16 4 ≠ 0xFFFFFFFF) (hone : c.u 23 1 ≠ 1) (hsuppress : c.u 23 1 ≤ 15) (hjitter : c.u 24 1 ≤ 20)
    (hseen : 1 ≤ c.u 25 1 ∧ c.u 25 1 ≤ 32) (hbeacon : 1 ≤ c.u 26 1) (hring : 32 ≤ c.u 27 1 ∧ c.u 27 1 ≤ 61) (hks : c.u 28 2 ≤ 8191) :
    specFloodConfig.body c s = (.ok, s.onMlad (Mlad.flooding c)) := by
  have hall : (BitVec.ofNat 32 (c.u 16 4) : W32) ≠ 0xFFFFFFFF := param32_ne hgw (by decide)
  simp only [specFloodConfig, hall, decide_false, Bool.false_or]
  exact if_neg (by simp; omega)

/-- A SUPPRESS of 1 would suppress every relay (R478). -/
theorem specFloodConfig_body_suppress (hone : c.u 23 1 = 1) : specFloodConfig.body c s = (eArg, s) := if_pos (by simp [hone])

theorem specHeldStatus_body (hkind : c.u 18 1 = 1) :
    specHeldStatus.body c s = (.ok (le 4 s.mlad.store.length ++ le 4 (storeCap s) ++ ctrBytes s.mlad.ctr),
      s.onMlad fun m => { m with ctr := if bit (c.u 19 1) 0 then zeroed m.ctr else m.ctr }) := by
  simp only [specHeldStatus, hkind]
  split
  · rfl
  · rfl

theorem specHeldStatus_body_absent (hkind : c.u 18 1 = 0) (hn : c.u 16 2 ≤ 8191) (hnone : getNode s (c.u 16 2) = none) :
    specHeldStatus.body c s = (.err 0x0806, s) := by
  simp only [specHeldStatus, hkind, hnone]
  exact if_neg (Nat.not_lt.2 hn)

end
end Sys2Proof.Machine

namespace Sys2Proof
open Sys2Proof.Machine Sys2Proof.Claim

/-- Settles O31: each row's outcome under its conditions; of the MAC, what a failing frame, the wait of a job and the handing over of
requests leave. -/
theorem mladmerRowsTakeEffect : Obligations.MladmerRowsTakeEffect := by
  unfold Obligations.MladmerRowsTakeEffect
  dsimp only
  refine ⟨?retry, ?unacked, ?noJob, ?expired, ?request, ?held, ?suppressed, ?relay, ?seen, ?beacon, ?beaconOff, ?floor, ?moved, ?add, ?used,
    ?remove, ?unknown, ?get, ?absent, ?noAddress, ?hold, ?flood, ?suppressOne, ?status, ?statusAbsent⟩
  case retry =>
    intro s job j ⟨hj, hst, hk, hreqs⟩
    have hj' : Tab.get? (unhold job (advanceTo j.wake s)).mlad.jobs job = some j :=
      (congrArg (Tab.get? ·.jobs job) advanceTo_mlad).trans hj
    refine does_of_keeps (execNbAckTimeout_keeps (maskOf_all _) (Keeps.refl s)) ((execNbAckTimeout_unacked hj hst hreqs).trans
      (congrArg _ (jobRetry_again hj' hk))) ⟨?_, ?_, congrArg (fun m : Mlad => bump m.ctr 13) advanceTo_mlad⟩
    · rw [get?_enterJob]; rfl
    · rw [get?_enterJob]; rfl
  case unacked =>
    intro s job j ⟨hjobs, hst, hk, hreqs⟩
    have hj : Tab.get? s.mlad.jobs job = some j := hjobs ▸ Tab.get?_singleton
    have hmlad : (unhold job (advanceTo j.wake s)).mlad = s.mlad := advanceTo_mlad
    obtain ⟨l, hl⟩ := failJob_mlad (reason := 1) (hmlad ▸ hj)
    rw [hmlad, hjobs, Tab.erase_singleton] at hl
    refine does_of_keeps (execNbAckTimeout_keeps (maskOf_all _) (Keeps.refl s)) ((execNbAckTimeout_unacked hj hst hreqs).trans
      (congrArg _ (jobRetry_last (hmlad ▸ hj) hk))) ?_
    rw [hl]
    exact ⟨rfl, rfl⟩
  case noJob =>
    intro s job ⟨hj, hstore⟩
    exact does_of_keeps (execNbAckTimeout_keeps (maskOf_all _) (Keeps.refl s)) (execNbAckTimeout_absent hj hstore) rfl
  case expired =>
    intro s job j ⟨hjobs, hst, h5, huntil, hw⟩
    have hj : Tab.get? s.mlad.jobs job = some j := hjobs ▸ Tab.get?_singleton
    obtain ⟨l, hl⟩ := failJob_mlad (reason := 2) hj
    rw [hjobs, Tab.erase_singleton] at hl
    refine does_of_keeps (execNbBackoffExpiry_keeps (maskOf_all _) (Keeps.refl s)) (execNbBackoffExpiry_expired hj hst h5 huntil hw) ?_
    rw [hl]
    exact ⟨rfl, rfl⟩
  case request =>
    intro s job j ⟨hj, hst, h5, hw, huntil, hhold⟩
    have hwait : ∀ y ∈ (putReq j.xcvr (j.request job (nowNs s)) (enterJob job j.again.waiting (enterJob job j.again s))).nb.x,
        y.hold.isSome = true := onX_all (fun _ hy => hy) hhold
    obtain ⟨b, hb⟩ := pump_waiting_mlad hwait
    refine does_of_keeps (execNbBackoffExpiry_keeps (maskOf_all _) (Keeps.refl s)) (execNbBackoffExpiry_requests hj hst h5 hw huntil)
      ⟨?_, ?_, ?_⟩
    · rw [hb, putReq_mlad, get?_enterJob]; rfl
    · rw [hb, putReq_mlad, get?_enterJob]; rfl
    · rw [pump_waiting_nb hwait, putReq_x, enterJob_nb, enterJob_nb]; rfl
  case held =>
    intro s key h ⟨hstore, hkey, hquiet⟩
    have hh : heldAt s key = some h := by simp [heldAt, hstore, hkey]
    obtain ⟨t, ht⟩ := execHeldFrameExpiry_expires hh hquiet
    obtain ⟨l, hl⟩ := dropHeld_expired_mlad (h := h) (s := advanceTo t s)
    rw [advanceTo_mlad, hstore, List.filter_singleton, bne_self_eq_false] at hl
    exact does_of_keeps (execHeldFrameExpiry_keeps (maskOf_all _) (Keeps.refl s)) ht ⟨congrArg Mlad.store hl, congrArg Mlad.ctr hl⟩
  case suppressed =>
    intro s src seq r ⟨hrelays, hsrc, hseq, hone⟩
    exact does_of_keeps (execRelayJitterExpiry_keeps (maskOf_all _) (Keeps.refl s))
      (execRelayJitterExpiry_suppressed (find_relay hrelays hsrc hseq) hone)
      ⟨relayDue_relays hrelays, congrArg (bump · 20) relayDue_ctr, relayDue_nb⟩
  case relay =>
    intro s src seq r ⟨hrelays, hsrc, hseq, hnone, hhold⟩
    have hwait : ∀ y ∈ (putReq r.xcvr r.request (relayDue r s)).nb.x, y.hold.isSome = true :=
      onX_all (fun _ hy => hy) (by rwa [relayDue_nb])
    obtain ⟨b, hb⟩ := pump_waiting_mlad hwait
    refine does_of_keeps (execRelayJitterExpiry_keeps (maskOf_all _) (Keeps.refl s))
      (execRelayJitterExpiry_relays (find_relay hrelays hsrc hseq) hnone) ⟨?_, ?_⟩
    · rw [hb, putReq_mlad, relayDue_relays hrelays]
    · rw [pump_waiting_nb hwait, putReq_x, relayDue_nb]; rfl
  case seen =>
    intro s src seq e ⟨hseen, hsrc, hseq⟩
    refine does_of_keeps (execSeenEntryExpiry_keeps (maskOf_all _) (Keeps.refl s)) (execSeenEntryExpiry_ages (e := e) ?_) ?_
    · simp [hseen, hsrc, hseq]
    · simp [hseen]
  case beacon =>
    intro s ⟨hen, hgw, hlive, _⟩
    obtain ⟨u, hu, hseq⟩ := execNbBeaconInterval_seq hen hgw hlive
    exact does_of_keeps (execNbBeaconInterval_keeps (maskOf_all _) (Keeps.refl s)) hu hseq
  case beaconOff =>
    intro s hen
    exact does_of_keeps (execNbBeaconInterval_keeps (maskOf_all _) (Keeps.refl s)) (execNbBeaconInterval_off hen) rfl
  case floor =>
    intro s ⟨hw, hjobs, hreqs⟩
    refine does_of_keeps (execCtrFloorWriteDone_keeps (maskOf_all _) (Keeps.refl s)) (execCtrFloorWriteDone_raises hw hjobs hreqs)
      ⟨?_, ?_, floorRaised_mram⟩
    · rw [floorRaised_mlad]
    · rw [floorRaised_mlad]
  case moved =>
    intro s ⟨hmoving, hdram, h3⟩
    exact does_of_keeps (execHeldStoreMoveDone_keeps (maskOf_all _) (Keeps.refl s)) (execHeldStoreMoveDone_moved hmoving hdram h3) rfl
  case add =>
    intro s d p hready ⟨hindex, hxcvr, hnonzero, hsingle, hkeyless, hdeliver, hring, hring', hhold, hhold', hheld, hheld', hnone, haddr⟩
    have hr : NodeInRange (cmdOf specNodeAdd d p s) :=
      ⟨hindex, hxcvr, hnonzero, hsingle, hkeyless, hdeliver, ⟨hring, hring'⟩, ⟨hhold, hhold'⟩, hheld, hheld'⟩
    exact answers_of_keeps hready (specNodeAdd_keeps (by decide) (copied_keeps (by decide))) (specNodeAdd_body hr hnone haddr)
      Nat.zero_ne_one getNode_enterNode
  case used =>
    intro s d p hready ⟨hindex, hxcvr, hnonzero, hsingle, hkeyless, hdeliver, hring, hring', hhold, hhold', hheld, hheld', hsome⟩
    have hr : NodeInRange (cmdOf specNodeAdd d p s) :=
      ⟨hindex, hxcvr, hnonzero, hsingle, hkeyless, hdeliver, ⟨hring, hring'⟩, ⟨hhold, hhold'⟩, hheld, hheld'⟩
    exact answers_of_keeps hready (specNodeAdd_keeps (by decide) (copied_keeps (by decide))) (specNodeAdd_body_used hr hsome) (by decide) rfl
  case remove =>
    intro s d p n x hready ⟨hn, hnodes, hindex, hstore, hjobs, hquiet⟩
    rw [hindex] at hnodes
    have hx : getNode s ((cmdOf specNodeRemove d p s).u 16 2) = some x := by rw [getNode, hnodes]; exact Tab.get?_singleton
    have hlast : Tab.erase s.mlad.nodes ((cmdOf specNodeRemove d p s).u 16 2) = [] := by rw [hnodes]; exact Tab.erase_singleton
    exact answers_of_keeps hready (specNodeRemove_keeps (by decide) (copied_keeps (by decide)))
      (specNodeRemove_body hn hx hstore hjobs hquiet) Nat.zero_ne_one hlast
  case unknown =>
    intro s d p hready ⟨hn, hnone⟩
    exact answers_of_keeps hready (specNodeRemove_keeps (by decide) (copied_keeps (by decide))) (specNodeRemove_body_absent hn hnone)
      (by decide) rfl
  case get =>
    intro s d p x hready ⟨hn, hkind, hx⟩
    exact answers_ok_of_keeps hready (specNodeGet_keeps (by decide) (copied_keeps (by decide))) (specNodeGet_body hn hkind hx) rfl
  case absent =>
    intro s d p hready ⟨hn, hkind, hnone⟩
    exact answers_of_keeps hready (specNodeGet_keeps (by decide) (copied_keeps (by decide))) (specNodeGet_body_absent hn hkind hnone)
      (by decide) rfl
  case noAddress =>
    intro s d p hready ⟨hlen, hdata, hn, hflags, httl, hxcvr, hlife, hlife', hgw⟩
    exact answers_of_keeps hready (specNbSend_keeps (by decide) (copied_keeps (by decide)))
      (specNbSend_body_addressless ⟨hlen, hdata, hflags.trans_le (Nat.zero_le 1), httl, hxcvr, hlife, hlife'⟩ hn hgw) (by decide)
      ⟨rfl, rfl⟩
  case hold =>
    intro s d p x hready ⟨hlen, hdata, hn, hflags, httl, hxcvr, hlife, hlife', hgw, hx, hsleepy, hstore⟩
    refine answers_ok_of_keeps hready (specNbSend_keeps (by decide) (copied_keeps (by decide)))
      (specNbSend_body_sleepy ⟨hlen, hdata, hflags.le, httl, hxcvr, hlife, hlife'⟩ hn hflags hgw hx hsleepy hstore) ⟨rfl, ?_, rfl⟩
    exact congrArg (Option.map _) getNode_enterNode
  case flood =>
    intro s d p hready ⟨hgw, hone, hsuppress, hjitter, hseen, hseen', hbeacon, hring, hring', hks⟩
    exact answers_of_keeps hready (specFloodConfig_keeps (by decide) (copied_keeps (by decide)))
      (specFloodConfig_body hgw hone hsuppress hjitter ⟨hseen, hseen'⟩ hbeacon ⟨hring, hring'⟩ hks) Nat.zero_ne_one rfl
  case suppressOne =>
    intro s d p hready hone
    exact answers_of_keeps hready (specFloodConfig_keeps (by decide) (copied_keeps (by decide))) (specFloodConfig_body_suppress hone)
      (by decide) rfl
  case status =>
    intro s d p hready hkind
    exact answers_ok_of_keeps hready (specHeldStatus_keeps (by decide) (copied_keeps (by decide))) (specHeldStatus_body hkind) rfl
  case statusAbsent =>
    intro s d p hready ⟨hkind, hn, hnone⟩
    exact answers_of_keeps hready (specHeldStatus_keeps (by decide) (copied_keeps (by decide))) (specHeldStatus_body_absent hkind hn hnone)
      (by decide) rfl

end Sys2Proof
end

section
/-!
The lock fuse of KEK0 (R583): the law of `exec` and that of the tick say that a blown lock stays blown. The statement on it (O46)
follows from them.
-/

namespace Sys2Proof
open Sys2Proof.Machine

/-- Settles O46: a step is a tick, or the command at the front on the state without it, and the lock is no part of the queue. -/
theorem lockFuseStaysBlown : Obligations.LockFuseStaysBlown := by
  intro s t hlocked hstep
  unfold step at hstep
  split at hstep
  case h_1 =>
    cases hstep
    exact (tick_keeps (pm := everyPart) rfl (.refl s)).lock hlocked
  case h_2 => exact (exec_keeps _ _ t hstep).lock hlocked

end Sys2Proof
end

section
/-!
A step of a Crag core, and saturation. What `crag` does is said once, by what the instruction gives: it goes on, jumps, calls, returns or
faults; saturation is a clamp (R617). The statement on the ALU instructions (O35) follows from them.
-/

namespace Sys2Proof.Machine

/-! The form of a step (R598, R615, R625). -/

/-- A core runs and stands in its code; a control instruction does not stand at the end of a loop (R615, R625). -/
structure Executes (s : State) (core : Fin 33) (ctl : Bool) : Prop where
  runs : cragRuns s core.val = true
  code : inCode s core.val (getCore s core.val) = true
  loop : (ctl && atLoopEnd (getCore s core.val)) = false

section
variable {s t : State} {core : Fin 33} {ctl : Bool} {f : Core → State → CragRes} {k : Core} {a : W32}

theorem Executes.plain (h : cragRuns s core.val = true ∧ inCode s core.val (getCore s core.val) = true) : Executes s core false :=
  ⟨h.1, h.2, rfl⟩

theorem Executes.control (hruns : cragRuns s core.val = true) (hcode : inCode s core.val (getCore s core.val) = true)
    (hloop : atLoopEnd (getCore s core.val) = false) : Executes s core true := ⟨hruns, hcode, hloop⟩

theorem crag_next (h : Executes s core ctl) (hf : f (getCore s core.val) s = .next k t) :
    crag core ctl f s = .next (onCore core.val (fun _ => advance k) t) := by simp [crag, h.runs, h.code, h.loop, hf]

theorem crag_jump (h : Executes s core ctl) (hf : f (getCore s core.val) s = .jump k a t) :
    crag core ctl f s = .next (onCore core.val (fun _ => jumpTo k a) t) := by simp [crag, h.runs, h.code, h.loop, hf]

theorem crag_call (h : Executes s core ctl) (hf : f (getCore s core.val) s = .call k a t) :
    crag core ctl f s = .next (onCore core.val (fun _ => { k with pc := a }) t) := by simp [crag, h.runs, h.code, h.loop, hf]

theorem crag_done (h : Executes s core ctl) (hf : f (getCore s core.val) s = .done k) :
    crag core ctl f s = .next (onCore core.val (fun _ => { k with run := k.run.map fun d => { d with returned := true } }) s) := by
  simp [crag, h.runs, h.code, h.loop, hf]

theorem crag_fault (h : Executes s core ctl) (hf : f (getCore s core.val) s = .fault a) :
    crag core ctl f s = .next (cragFault core.val a s) := by simp [crag, h.runs, h.code, h.loop, hf]

theorem crag_stopped (h : cragRuns s core.val = false) : crag core ctl f s = .next s := by simp [crag, h]

/-- A control instruction at the end of a loop is a fault (R625). -/
theorem crag_atLoopEnd (hruns : cragRuns s core.val = true) (hloop : atLoopEnd (getCore s core.val) = true) :
    crag core true f s = .next (cragFault core.val (getCore s core.val).pc s) := by simp [crag, hruns, hloop]

end

/-! Saturation (R617). -/

section
variable {w : Nat} {x re im : Int} {a b : W32}

theorem clampTo_eq {lo hi : Int} (h : lo ≤ hi) : clampTo lo hi x = (max lo (min hi x), decide (x ≠ max lo (min hi x))) := by
  unfold clampTo
  split
  · next hx => rw [max_eq_left (by omega), decide_eq_true (by omega)]
  · split
    · next hx => rw [min_eq_left hx.le, max_eq_right h, decide_eq_true (by omega)]
    · rw [min_eq_right (by omega), max_eq_right (by omega), decide_eq_false (by omega)]

/-- Saturation to 16 signed bits. -/
theorem satS_16 : satS 16 x = (max (-(2 ^ 15)) (min (2 ^ 15 - 1) x), decide (x ≠ max (-(2 ^ 15)) (min (2 ^ 15 - 1) x))) :=
  clampTo_eq (by decide)
theorem satS_32 : satS 32 x = (max (-(2 ^ 31)) (min (2 ^ 31 - 1) x), decide (x ≠ max (-(2 ^ 31)) (min (2 ^ 31 - 1) x))) :=
  clampTo_eq (by decide)
theorem satS_64 : satS 64 x = (max (-(2 ^ 63)) (min (2 ^ 63 - 1) x), decide (x ≠ max (-(2 ^ 63)) (min (2 ^ 63 - 1) x))) :=
  clampTo_eq (by decide)
theorem satS_72 : satS 72 x = (max (-(2 ^ 71)) (min (2 ^ 71 - 1) x), decide (x ≠ max (-(2 ^ 71)) (min (2 ^ 71 - 1) x))) :=
  clampTo_eq (by decide)

/-- A sum or difference of words overflows where it leaves the signed words. -/
theorem satS_32_overflows : (satS 32 x).2 = decide (x < -(2 ^ 31) ∨ 2 ^ 31 ≤ x) := by
  rw [satS_32]
  exact decide_eq_decide.2 (by omega)

theorem signed_16_bounds (n : Nat) : -(2 ^ 15) ≤ signed 16 n ∧ signed 16 n ≤ 2 ^ 15 - 1 := by
  unfold signed
  split <;> omega

/-- The parts of a complex value are saturated already. -/
theorem clamp_reOf : max (-(2 ^ 15)) (min (2 ^ 15 - 1) (reOf a)) = reOf a := by
  obtain ⟨hlo, hhi⟩ := signed_16_bounds a.toNat
  exact (congrArg _ (min_eq_right hhi)).trans (max_eq_right hlo)

/-! Results of the ALU (R616, R622). -/

theorem satRes_eq : satRes x = { val := BitVec.ofInt 32 (max (-(2 ^ 31)) (min (2 ^ 31 - 1) x)), sat := decide (x ≠ max (-(2 ^ 31)) (min (2 ^ 31 - 1) x)) } := by
  simp only [satRes, satS_32]

theorem addRes_eq : addRes a b = { val := a + b, cv := some (decide (2 ^ 32 ≤ a.toNat + b.toNat),
    decide (a.toInt + b.toInt < -(2 ^ 31) ∨ 2 ^ 31 ≤ a.toInt + b.toInt)) } := by
  simp only [addRes, satS_32_overflows]

theorem subRes_eq : subRes a b = { val := a - b, cv := some (decide (b.toNat ≤ a.toNat),
    decide (a.toInt - b.toInt < -(2 ^ 31) ∨ 2 ^ 31 ≤ a.toInt - b.toInt)) } := by
  simp only [subRes, satS_32_overflows]

theorem cxRes_eq : cxRes re im =
    { val := cxOf (max (-(2 ^ 15)) (min (2 ^ 15 - 1) re)) (max (-(2 ^ 15)) (min (2 ^ 15 - 1) im)),
      sat := decide (re ≠ max (-(2 ^ 15)) (min (2 ^ 15 - 1) re) ∨ im ≠ max (-(2 ^ 15)) (min (2 ^ 15 - 1) im)) } := by
  simp only [cxRes, satS_16, Bool.decide_or]

/-- Of a conjugate only the imaginary part can saturate (R622). -/
theorem cxRes_conj : cxRes (reOf a) im =
    { val := cxOf (max (-(2 ^ 15)) (min (2 ^ 15 - 1) (reOf a))) (max (-(2 ^ 15)) (min (2 ^ 15 - 1) im)),
      sat := decide (im ≠ max (-(2 ^ 15)) (min (2 ^ 15 - 1) im)) } := by
  rw [cxRes_eq]
  congr 1
  exact decide_eq_decide.2 (or_iff_right (not_not.2 clamp_reOf.symm))

end

/-! The flags that a result sets (R616): Z and N always, C and V where the operation has them, SATF where it saturated. -/

section
variable {k : Core} {v : W32} {c o sat : Bool}

theorem Core.flags_zn : k.flags { val := v } = (k.setSt 0 (decide (v = 0))).setSt 1 (v.getLsbD 31) := rfl
theorem Core.flags_cv : k.flags { val := v, cv := some (c, o) } =
    (((k.setSt 0 (decide (v = 0))).setSt 1 (v.getLsbD 31)).setSt 2 c).setSt 3 o := rfl
theorem Core.flags_sat : k.flags { val := v, sat := sat } = ((k.setSt 0 (decide (v = 0))).setSt 1 (v.getLsbD 31)).stick 7 sat := rfl
theorem Core.flags_cv_sat : k.flags { val := v, cv := some (c, o), sat := sat } =
    ((((k.setSt 0 (decide (v = 0))).setSt 1 (v.getLsbD 31)).setSt 2 c).setSt 3 o).stick 7 sat := rfl

end

/-! The forms of the ALU instructions. -/

section
variable {s : State} {core : Fin 33} {dst srcA : BitVec 5} {b : Src2} {v : W32} {cv : Option (Bool × Bool)} {sat : Bool} {j : Core}

theorem alu_writes {f : Core → W32 → W32 → AluRes} (h : Executes s core false)
    (hr : f (getCore s core.val) ((getCore s core.val).dr srcA) (Src2.value b (getCore s core.val)) = { val := v, cv := cv, sat := sat })
    (hj : (getCore s core.val).flags { val := v, cv := cv, sat := sat } = j) :
    alu core dst srcA b f s = .next (onCore core.val (fun _ => advance (j.setD dst v)) s) :=
  crag_next h (by dsimp only; rw [hr, hj])

theorem Src2.isZero_iff : Src2.isZero b = true ↔ b = .reg 0 ∨ b = .imm 0 := by simp [Src2.isZero]

theorem alu1_writes {f : W32 → AluRes} (h : Executes s core false) (hb : b = .reg 0 ∨ b = .imm 0)
    (hr : f ((getCore s core.val).dr srcA) = { val := v, cv := cv, sat := sat }) (hj : (getCore s core.val).flags { val := v, cv := cv, sat := sat } = j) :
    alu1 core dst srcA b f s = .next (onCore core.val (fun _ => advance (j.setD dst v)) s) :=
  crag_next h (by simp [Src2.isZero_iff.2 hb, hr, hj])

/-- A second operand that must be 0 and is not (R622). -/
theorem alu1_faults {f : W32 → AluRes} (h : Executes s core false) (hreg : b ≠ .reg 0) (himm : b ≠ .imm 0) :
    alu1 core dst srcA b f s = .next (cragFault core.val (getCore s core.val).pc s) :=
  crag_fault h (by simpa [Src2.isZero] using ⟨hreg, himm⟩)

theorem execCmp_compares (h : Executes s core false) (hdst : dst = 0)
    (hr : subRes ((getCore s core.val).dr srcA) (Src2.value b (getCore s core.val)) = { val := v, cv := cv, sat := sat })
    (hj : (getCore s core.val).flags { val := v, cv := cv, sat := sat } = j) :
    execCmp core dst srcA b s = .next (onCore core.val (fun _ => advance j) s) :=
  crag_next h (by simp [hdst, hr, hj])

theorem execCmp_faults (h : Executes s core false) (hdst : dst ≠ 0) :
    execCmp core dst srcA b s = .next (cragFault core.val (getCore s core.val).pc s) :=
  crag_fault h (by simpa using hdst)

end

end Sys2Proof.Machine

namespace Sys2Proof
open Sys2Proof.Machine

/-- Settles O35: each instruction is one of the forms above with its own result; a saturated result is a clamp. -/
theorem cragArithmeticResults : Obligations.CragArithmeticResults := by
  refine ⟨?add, ?sub, ?adds, ?subs, ?and, ?or, ?xor, ?shl, ?shr, ?shra, ?mul, ?min, ?max, ?mulq, ?abs, ?neg, ?absFault, ?cmp, ?cmpFault,
    ?cadd, ?csub, ?conj, ?pack, ?padd, ?movi, ?movhi, ?moviP⟩
  case add => exact fun s core dst srcA b h => (exec_add ..).trans (alu_writes (.plain h) addRes_eq Core.flags_cv)
  case sub => exact fun s core dst srcA b h => (exec_sub ..).trans (alu_writes (.plain h) subRes_eq Core.flags_cv)
  case adds => exact fun s core dst srcA b h => (exec_adds ..).trans (alu_writes (.plain h) (by rw [satRes_eq, addRes_eq]) Core.flags_cv_sat)
  case subs => exact fun s core dst srcA b h => (exec_subs ..).trans (alu_writes (.plain h) (by rw [satRes_eq, subRes_eq]) Core.flags_cv_sat)
  case and => exact fun s core dst srcA b h => (exec_and_ ..).trans (alu_writes (.plain h) rfl Core.flags_zn)
  case or => exact fun s core dst srcA b h => (exec_or_ ..).trans (alu_writes (.plain h) rfl Core.flags_zn)
  case xor => exact fun s core dst srcA b h => (exec_xor ..).trans (alu_writes (.plain h) rfl Core.flags_zn)
  case shl => exact fun s core dst srcA b h => (exec_shl ..).trans (alu_writes (.plain h) rfl Core.flags_zn)
  case shr => exact fun s core dst srcA b h => (exec_shr ..).trans (alu_writes (.plain h) rfl Core.flags_zn)
  case shra => exact fun s core dst srcA b h => (exec_shra ..).trans (alu_writes (.plain h) rfl Core.flags_zn)
  case mul => exact fun s core dst srcA b h => (exec_mul ..).trans (alu_writes (.plain h) rfl Core.flags_zn)
  case min => exact fun s core dst srcA b h => (exec_min ..).trans (alu_writes (.plain h) (by simp only [BitVec.sle_iff_toInt_le]) Core.flags_zn)
  case max => exact fun s core dst srcA b h => (exec_max ..).trans (alu_writes (.plain h) (by simp only [BitVec.sle_iff_toInt_le]) Core.flags_zn)
  case mulq => exact fun s core dst srcA b h => (exec_mulq ..).trans (alu_writes (.plain h) satRes_eq Core.flags_sat)
  case abs => exact fun s core dst srcA b ⟨hruns, hcode, hb⟩ => (exec_abs ..).trans (alu1_writes (.plain ⟨hruns, hcode⟩) hb satRes_eq Core.flags_sat)
  case neg => exact fun s core dst srcA b ⟨hruns, hcode, hb⟩ => (exec_neg ..).trans (alu1_writes (.plain ⟨hruns, hcode⟩) hb satRes_eq Core.flags_sat)
  case absFault => exact fun s core dst srcA b ⟨hruns, hcode, hreg, himm⟩ => (exec_abs ..).trans (alu1_faults (.plain ⟨hruns, hcode⟩) hreg himm)
  case cmp => exact fun s core dst srcA b ⟨hruns, hcode, hdst⟩ => (exec_cmp ..).trans (execCmp_compares (.plain ⟨hruns, hcode⟩) hdst subRes_eq Core.flags_cv)
  case cmpFault => exact fun s core dst srcA b ⟨hruns, hcode, hdst⟩ => (exec_cmp ..).trans (execCmp_faults (.plain ⟨hruns, hcode⟩) hdst)
  case cadd => exact fun s core dst srcA b h => (exec_cadd ..).trans (alu_writes (.plain h) cxRes_eq Core.flags_sat)
  case csub => exact fun s core dst srcA b h => (exec_csub ..).trans (alu_writes (.plain h) cxRes_eq Core.flags_sat)
  case conj => exact fun s core dst srcA b ⟨hruns, hcode, hb⟩ => (exec_conj ..).trans (alu1_writes (.plain ⟨hruns, hcode⟩) hb cxRes_conj Core.flags_sat)
  case pack => exact fun s core dst srcA srcB h => (exec_pack ..).trans (alu_writes (.plain h) rfl Core.flags_zn)
  case padd => exact fun s core dst srcA b h => (exec_padd ..).trans (crag_next (.plain h) rfl)
  case movi => exact fun s core dst imm h => (exec_movi ..).trans (crag_next (.plain h) rfl)
  case movhi => exact fun s core dst imm h => (exec_movhi ..).trans (crag_next (.plain h) rfl)
  case moviP => exact fun s core dst imm h => (exec_moviP ..).trans (crag_next (.plain h) rfl)

end Sys2Proof
end

section
/-!
The accumulators: an accumulation with the limits of R618, the halves of the words that the vector instructions read, the extraction and
the moves of raw bits. The statement on the multiply-accumulate and extract instructions (O36) follows from them.
-/

namespace Sys2Proof.Machine

/-! An accumulation (R618). -/

section
variable {s : State} {core : Fin 33} {acc : BitVec 3} {k : Core} {v : Int}

theorem Core.accum_eq : k.accum acc v =
    (k.setA acc (max (-(2 ^ 71)) (min (2 ^ 71 - 1) v))).stick 6 (decide (v ≠ max (-(2 ^ 71)) (min (2 ^ 71 - 1) v))) := by
  simp only [Core.accum, satS_72]

theorem mac_adds {f : Core → Int} {x : Int} (h : Executes s core false)
    (hx : (getCore s core.val).ac acc + f (getCore s core.val) = x) :
    mac core acc f s = .next (onCore core.val (fun _ => advance (((getCore s core.val).setA acc (max (-(2 ^ 71)) (min (2 ^ 71 - 1) x))).stick 6
      (decide (x ≠ max (-(2 ^ 71)) (min (2 ^ 71 - 1) x))))) s) :=
  crag_next h (by rw [hx, Core.accum_eq])

/-- A pair of accumulators takes a real and an imaginary sum. -/
def Core.accumPair (k : Core) (acc : BitVec 3) (x z : Int) : Core :=
  (((k.setA acc (max (-(2 ^ 71)) (min (2 ^ 71 - 1) x))).stick 6 (decide (x ≠ max (-(2 ^ 71)) (min (2 ^ 71 - 1) x)))).setA (acc + 1)
    (max (-(2 ^ 71)) (min (2 ^ 71 - 1) z))).stick 6 (decide (z ≠ max (-(2 ^ 71)) (min (2 ^ 71 - 1) z)))

theorem Core.accum_accum {x z : Int} : (k.accum acc x).accum (acc + 1) z = k.accumPair acc x z := by
  simp only [Core.accum_eq, Core.accumPair]

theorem mac2_adds {f : Core → Int × Int} {x z : Int} (h : Executes s core false) (heven : acc.getLsbD 0 = false)
    (hf : f (getCore s core.val) = (x, z)) :
    mac2 core acc f s = .next (onCore core.val (fun _ => advance
      ((getCore s core.val).accumPair acc ((getCore s core.val).ac acc + x) ((getCore s core.val).ac (acc + 1) + z))) s) :=
  crag_next h (by simp only [heven, hf, Core.accum_accum, Bool.false_eq_true, if_false])

/-- An odd accumulator begins no pair (R614). -/
theorem mac2_faults {f : Core → Int × Int} (h : Executes s core false) (hodd : acc.getLsbD 0 = true) :
    mac2 core acc f s = .next (cragFault core.val (getCore s core.val).pc s) := crag_fault h (if_pos hodd)

theorem execClr2_clears (h : Executes s core false) (heven : acc.getLsbD 0 = false) :
    execClr2 core acc s = .next (onCore core.val (fun _ => advance (((getCore s core.val).setA acc 0).setA (acc + 1) 0)) s) :=
  crag_next h (by simp only [heven, Bool.false_eq_true, if_false])

theorem execClr2_faults (h : Executes s core false) (hodd : acc.getLsbD 0 = true) :
    execClr2 core acc s = .next (cragFault core.val (getCore s core.val).pc s) := crag_fault h (if_pos hodd)

end

/-! The vector instructions (R622, R623). -/

section
variable {s : State} {core : Fin 33} {acc : BitVec 3} {pa pb : BitVec 4} {incA incB : Bool} {f : List W32 → List W32 → Int × Int}
  {p q : List Byte} {v : Int × Int}

/-- Pointers are no accumulators. -/
theorem vecInc_ac {k : Core} {a : BitVec 3} : (vecInc k pa pb incA incB).ac a = k.ac a := by
  unfold vecInc
  dsimp only
  split <;> split <;> rfl

theorem vec_adds {x : Int} (h : Executes s core false)
    (hp : cragRead s core.val (getCore s core.val) ((getCore s core.val).pr pa).toNat 16 = some p)
    (hq : cragRead s core.val (getCore s core.val) ((getCore s core.val).pr pb).toNat 16 = some q)
    (hx : (getCore s core.val).ac acc + (f (words4 p) (words4 q)).1 = x) :
    vec core false acc pa pb incA incB f s = .next (onCore core.val (fun _ => advance
      (((vecInc (getCore s core.val) pa pb incA incB).setA acc (max (-(2 ^ 71)) (min (2 ^ 71 - 1) x))).stick 6
        (decide (x ≠ max (-(2 ^ 71)) (min (2 ^ 71 - 1) x))))) s) :=
  crag_next h (by simp only [hp, hq, vecInc_ac, hx, Core.accum_eq, Bool.false_and, Bool.false_eq_true, if_false])

theorem vec_adds_pair {x z : Int} (h : Executes s core false) (heven : acc.getLsbD 0 = false)
    (hp : cragRead s core.val (getCore s core.val) ((getCore s core.val).pr pa).toNat 16 = some p)
    (hq : cragRead s core.val (getCore s core.val) ((getCore s core.val).pr pb).toNat 16 = some q) (hf : f (words4 p) (words4 q) = (x, z)) :
    vec core true acc pa pb incA incB f s = .next (onCore core.val (fun _ => advance
      ((vecInc (getCore s core.val) pa pb incA incB).accumPair acc ((getCore s core.val).ac acc + x)
        ((getCore s core.val).ac (acc + 1) + z))) s) :=
  crag_next h (by simp only [heven, hp, hq, hf, vecInc_ac, Core.accum_accum, Bool.and_false, Bool.false_eq_true, if_false, if_true])

end

/-! The halves of a word in memory (R614): the real part is the lower one. -/

section
variable {b : List Byte} {o n m : Nat}

theorem signed_16_congr (h : n % 65536 = m % 65536) : signed 16 n = signed 16 m := by
  simp only [signed, show (2 : Nat) ^ 16 = 65536 from rfl, h]

theorem fld_four : fld b o 4 = fld b o 2 + 65536 * fld b (o + 2) 2 := by
  simp only [fld, slice, show List.range 4 = [0, 1, 2, 3] from rfl, show List.range 2 = [0, 1] from rfl, List.map_cons, List.map_nil, unLe,
    Nat.add_assoc, Nat.reduceAdd]
  omega

theorem fld_two_lt : fld b o 2 < 65536 := (unLe_lt _).trans_eq (by rw [slice_length]; rfl)

theorem reOf_word : reOf (BitVec.ofNat 32 (fld b o 4)) = signed 16 (fld b o 2) := by
  refine signed_16_congr ?_
  rw [BitVec.toNat_ofNat, fld_four]
  omega

theorem imOf_word : imOf (BitVec.ofNat 32 (fld b o 4)) = signed 16 (fld b (o + 2) 2) := by
  refine signed_16_congr ?_
  have hlo : fld b o 2 < 65536 := fld_two_lt
  have hhi : fld b (o + 2) 2 < 65536 := fld_two_lt
  rw [BitVec.toNat_ofNat, fld_four]
  omega

theorem words4_eq : words4 b = [BitVec.ofNat 32 (fld b 0 4), BitVec.ofNat 32 (fld b 4 4), BitVec.ofNat 32 (fld b 8 4), BitVec.ofNat 32 (fld b 12 4)] :=
  rfl

variable {p q : List Byte}

/-- The sum of eight products of halves. -/
theorem sumCx_dot : (sumCx (fun a b => (2 ^ 32 * (reOf a * reOf b + imOf a * imOf b), 0)) (words4 p) (words4 q)).1 =
    2 ^ 32 * (([0, 1, 2, 3, 4, 5, 6, 7] : List Nat).map fun i => signed 16 (fld p (2 * i) 2) * signed 16 (fld q (2 * i) 2)).sum := by
  simp [sumCx, words4_eq, reOf_word, imOf_word]
  ring

theorem sumCx_cxMul : sumCx cxMul (words4 p) (words4 q) =
    (2 ^ 32 * (([0, 1, 2, 3] : List Nat).map fun i => signed 16 (fld p (2 * (2 * i)) 2) * signed 16 (fld q (2 * (2 * i)) 2) -
      signed 16 (fld p (2 * (2 * i + 1)) 2) * signed 16 (fld q (2 * (2 * i + 1)) 2)).sum,
     2 ^ 32 * (([0, 1, 2, 3] : List Nat).map fun i => signed 16 (fld p (2 * (2 * i)) 2) * signed 16 (fld q (2 * (2 * i + 1)) 2) +
      signed 16 (fld p (2 * (2 * i + 1)) 2) * signed 16 (fld q (2 * (2 * i)) 2)).sum) := by
  simp [sumCx, cxMul, words4_eq, reOf_word, imOf_word]
  constructor <;> ring

theorem sumCx_cxMulJ : sumCx cxMulJ (words4 p) (words4 q) =
    (2 ^ 32 * (([0, 1, 2, 3] : List Nat).map fun i => signed 16 (fld p (2 * (2 * i)) 2) * signed 16 (fld q (2 * (2 * i)) 2) +
      signed 16 (fld p (2 * (2 * i + 1)) 2) * signed 16 (fld q (2 * (2 * i + 1)) 2)).sum,
     2 ^ 32 * (([0, 1, 2, 3] : List Nat).map fun i => signed 16 (fld p (2 * (2 * i)) 2) * signed 16 (fld q (2 * (2 * i + 1)) 2) -
      signed 16 (fld p (2 * (2 * i + 1)) 2) * signed 16 (fld q (2 * (2 * i)) 2)).sum) := by
  simp [sumCx, cxMulJ, words4_eq, reOf_word, imOf_word]
  constructor <;> ring

end

/-! Extraction (R619, R620). -/

section
variable {k : Core} {acc : BitVec 3} {sh : BitVec 6}

/-- The scaled, rounded value of an accumulator. -/
def Core.scaled (k : Core) (acc : BitVec 3) (e : Int) : Int :=
  if e < 0 then k.ac acc * 2 ^ (-e).toNat else roundBy k.rnd (k.ac acc) e.toNat

theorem extract_eq {base w : Nat} : extract k acc sh base w = satS w (k.scaled acc (base - sh.toInt)) := rfl

/-- A shift of six signed bits does not reach below the halves of an accumulator. -/
theorem Core.scaled_half : k.scaled acc (47 - sh.toInt) = roundBy k.rnd (k.ac acc) (47 - sh.toInt).toNat := by
  have hsh : 2 * sh.toInt < 2 ^ 6 := BitVec.two_mul_toInt_lt
  exact if_neg (by omega)

end

/-! Raw bits (R622). -/

section
variable {A : BitVec 72} {v : W32}

/-- Bits of a number above the n lowest are the bits of the arithmetic shift. -/
theorem ofInt_toInt_div (n : Nat) : BitVec.ofInt 32 (A.toInt / 2 ^ n) = (A.sshiftRight n).signExtend 32 := by
  rw [BitVec.signExtend, BitVec.toInt_sshiftRight, Int.shiftRight_eq_div_pow]
  rfl

theorem raw_lo : BitVec.ofInt 32 A.toInt = A.extractLsb' 0 32 := by
  rw [show BitVec.ofInt 32 A.toInt = A.signExtend 32 from rfl]
  ext i hi
  simp [BitVec.getElem_signExtend, show i < 72 by omega]

theorem raw_mid : BitVec.ofInt 32 (A.toInt / 2 ^ 32) = A.extractLsb' 32 32 := by
  rw [ofInt_toInt_div]
  ext i hi
  simp [BitVec.getElem_signExtend, BitVec.getElem_sshiftRight, show i < 72 by omega, show 32 + i < 72 by omega]

theorem raw_hi : BitVec.ofInt 32 (A.toInt / 2 ^ 64) = (A.extractLsb' 64 8).signExtend 32 := by
  rw [ofInt_toInt_div]
  ext i hi
  simp [BitVec.getElem_signExtend, BitVec.getElem_sshiftRight, show i < 72 by omega]
  by_cases h8 : i < 8
  · simp [h8, show 64 + i < 72 by omega, BitVec.getLsbD_eq_getElem]
  · simp [h8, show ¬ 64 + i < 72 by omega, BitVec.msb]

end

section
variable {k : Core} {acc : BitVec 3} {v : W32}

theorem toNat_append_eq_add {m n : Nat} (x : BitVec m) (y : BitVec n) : (x ++ y).toNat = x.toNat * 2 ^ n + y.toNat := by
  rw [BitVec.toNat_append, ← Nat.shiftLeft_add_eq_or_of_lt y.isLt, Nat.shiftLeft_eq]

/-- Bits of an accumulator that are replaced, as the concatenation of what stays and of what comes in. -/
theorem insAcc_of_toNat {lo w n : Nat} {A : BitVec 72}
    (h : ∀ a : BitVec 72, a = k.acc.getD acc.toNat 0 →
      (a.toNat % 2 ^ lo + n % 2 ^ w * 2 ^ lo + a.toNat / 2 ^ (lo + w) * 2 ^ (lo + w)) % 2 ^ 72 = A.toNat) :
    insAcc k acc lo w n = { k with acc := setAt k.acc acc.toNat A } := by
  have hA : BitVec.ofNat 72 ((k.acc.getD acc.toNat 0).toNat % 2 ^ lo + n % 2 ^ w * 2 ^ lo +
      (k.acc.getD acc.toNat 0).toNat / 2 ^ (lo + w) * 2 ^ (lo + w)) = A :=
    BitVec.eq_of_toNat_eq ((BitVec.toNat_ofNat ..).trans (h _ rfl))
  unfold insAcc
  exact congrArg (fun a => { k with acc := setAt k.acc acc.toNat a }) hA

theorem insAcc_lo : insAcc k acc 0 32 v.toNat = { k with acc := setAt k.acc acc.toNat ((k.acc.getD acc.toNat 0).extractLsb' 64 8 ++
    (k.acc.getD acc.toNat 0).extractLsb' 32 32 ++ v : BitVec 72) } :=
  insAcc_of_toNat fun a ha => by
    have hlt := a.isLt
    have hv := v.isLt
    simp only [← ha, toNat_append_eq_add, BitVec.extractLsb'_toNat, Nat.shiftRight_eq_div_pow]
    omega

theorem insAcc_mid : insAcc k acc 32 32 v.toNat = { k with acc := setAt k.acc acc.toNat ((k.acc.getD acc.toNat 0).extractLsb' 64 8 ++ v ++
    (k.acc.getD acc.toNat 0).extractLsb' 0 32 : BitVec 72) } :=
  insAcc_of_toNat fun a ha => by
    have hlt := a.isLt
    have hv := v.isLt
    simp only [← ha, toNat_append_eq_add, BitVec.extractLsb'_toNat, Nat.shiftRight_eq_div_pow]
    omega

theorem insAcc_hi : insAcc k acc 64 8 v.toNat = { k with acc := setAt k.acc acc.toNat (v.extractLsb' 0 8 ++
    (k.acc.getD acc.toNat 0).extractLsb' 32 32 ++ (k.acc.getD acc.toNat 0).extractLsb' 0 32 : BitVec 72) } :=
  insAcc_of_toNat fun a ha => by
    have hlt := a.isLt
    have hv := v.isLt
    simp only [← ha, toNat_append_eq_add, BitVec.extractLsb'_toNat, Nat.shiftRight_eq_div_pow]
    omega

end

/-! The extract instructions. -/

section
variable {s : State} {core : Fin 33} {dst : BitVec 5} {acc : BitVec 3} {sh : BitVec 6} {x z : Int}

theorem execExtW_extracts (h : Executes s core false) (hx : (getCore s core.val).scaled acc (31 - sh.toInt) = x) :
    execExtW core dst acc sh s = .next (onCore core.val (fun _ => advance (((getCore s core.val).setD dst
      (BitVec.ofInt 32 (max (-(2 ^ 31)) (min (2 ^ 31 - 1) x)))).stick 7 (decide (x ≠ max (-(2 ^ 31)) (min (2 ^ 31 - 1) x))))) s) :=
  crag_next h (by simp only [extract_eq, Nat.cast_ofNat, hx, satS_32])

theorem execExtH_extracts (h : Executes s core false) (hx : (getCore s core.val).scaled acc (47 - sh.toInt) = x) :
    execExtH core dst acc sh s = .next (onCore core.val (fun _ => advance (((getCore s core.val).setD dst
      (BitVec.ofInt 32 (max (-(2 ^ 15)) (min (2 ^ 15 - 1) x)))).stick 7 (decide (x ≠ max (-(2 ^ 15)) (min (2 ^ 15 - 1) x))))) s) :=
  crag_next h (by simp only [extract_eq, Nat.cast_ofNat, hx, satS_16])

theorem execExtI_extracts (h : Executes s core false) (hx : (getCore s core.val).scaled acc (0 - sh.toInt) = x) :
    execExtI core dst acc sh s = .next (onCore core.val (fun _ => advance (((getCore s core.val).setD dst
      (BitVec.ofInt 32 (max (-(2 ^ 31)) (min (2 ^ 31 - 1) x)))).stick 7 (decide (x ≠ max (-(2 ^ 31)) (min (2 ^ 31 - 1) x))))) s) :=
  crag_next h (by simp only [extract_eq, Nat.cast_zero, hx, satS_32])

theorem execExtCx_extracts (h : Executes s core false) (heven : acc.getLsbD 0 = false)
    (hx : (getCore s core.val).scaled acc (47 - sh.toInt) = x) (hz : (getCore s core.val).scaled (acc + 1) (47 - sh.toInt) = z) :
    execExtCx core dst acc sh s = .next (onCore core.val (fun _ => advance (((getCore s core.val).setD dst
      (cxOf (max (-(2 ^ 15)) (min (2 ^ 15 - 1) x)) (max (-(2 ^ 15)) (min (2 ^ 15 - 1) z)))).stick 7
      (decide (x ≠ max (-(2 ^ 15)) (min (2 ^ 15 - 1) x) ∨ z ≠ max (-(2 ^ 15)) (min (2 ^ 15 - 1) z))))) s) :=
  crag_next h (by simp only [heven, extract_eq, Nat.cast_ofNat, hx, hz, satS_16, Bool.decide_or, Bool.false_eq_true, if_false])

end

end Sys2Proof.Machine

namespace Sys2Proof
open Sys2Proof.Machine

/-- Settles O36: each instruction is one of the forms above; its products, extracts and raw bits are those of the statement. -/
theorem cragAccumulatorResults : Obligations.CragAccumulatorResults := by
  refine ⟨?macH, ?msuH, ?macW, ?msuW, ?macI, ?adda, ?cmac, ?cmacj, ?cmsu, ?cmacFault, ?clr, ?clr2, ?clr2Fault, ?mova, ?vmacH, ?vcmac, ?vcmacj,
    ?extW, ?extH, ?extI, ?extCx, ?rawlo, ?rawmi, ?rawhi, ?inslo, ?insmi, ?inshi⟩
  case macH => exact fun s core acc srcA srcB h => (exec_macH ..).trans (mac_adds (.plain h) rfl)
  case msuH => exact fun s core acc srcA srcB h => (exec_msuH ..).trans (mac_adds (.plain h) rfl)
  case macW => exact fun s core acc srcA srcB h => (exec_macW ..).trans (mac_adds (.plain h) rfl)
  case msuW => exact fun s core acc srcA srcB h => (exec_msuW ..).trans (mac_adds (.plain h) rfl)
  case macI => exact fun s core acc srcA srcB h => (exec_macI ..).trans (mac_adds (.plain h) rfl)
  case adda => exact fun s core acc src h => (exec_adda ..).trans (mac_adds (.plain h) rfl)
  case cmac => exact fun s core acc srcA srcB ⟨hruns, hcode, heven⟩ => (exec_cmac ..).trans (mac2_adds (.plain ⟨hruns, hcode⟩) heven rfl)
  case cmacj => exact fun s core acc srcA srcB ⟨hruns, hcode, heven⟩ => (exec_cmacj ..).trans (mac2_adds (.plain ⟨hruns, hcode⟩) heven rfl)
  case cmsu => exact fun s core acc srcA srcB ⟨hruns, hcode, heven⟩ => (exec_cmsu ..).trans (mac2_adds (.plain ⟨hruns, hcode⟩) heven rfl)
  case cmacFault => exact fun s core acc srcA srcB ⟨hruns, hcode, hodd⟩ => (exec_cmac ..).trans (mac2_faults (.plain ⟨hruns, hcode⟩) hodd)
  case clr => exact fun s core acc h => (exec_clr ..).trans (crag_next (.plain h) rfl)
  case clr2 => exact fun s core acc ⟨hruns, hcode, heven⟩ => (exec_clr2 ..).trans (execClr2_clears (.plain ⟨hruns, hcode⟩) heven)
  case clr2Fault => exact fun s core acc ⟨hruns, hcode, hodd⟩ => (exec_clr2 ..).trans (execClr2_faults (.plain ⟨hruns, hcode⟩) hodd)
  case mova => exact fun s core acc srcA h => (exec_mova ..).trans (crag_next (.plain h) rfl)
  case vmacH =>
    exact fun s core acc pa pb incA incB p q ⟨hruns, hcode, hp, hq⟩ =>
      (exec_vmacH ..).trans (vec_adds (.plain ⟨hruns, hcode⟩) hp hq (by rw [sumCx_dot]))
  case vcmac =>
    exact fun s core acc pa pb incA incB p q ⟨hruns, hcode, heven, hp, hq⟩ =>
      (exec_vcmac ..).trans (vec_adds_pair (.plain ⟨hruns, hcode⟩) heven hp hq sumCx_cxMul)
  case vcmacj =>
    exact fun s core acc pa pb incA incB p q ⟨hruns, hcode, heven, hp, hq⟩ =>
      (exec_vcmacj ..).trans (vec_adds_pair (.plain ⟨hruns, hcode⟩) heven hp hq sumCx_cxMulJ)
  case extW => exact fun s core dst acc sh h => (exec_extW ..).trans (execExtW_extracts (.plain h) rfl)
  case extH => exact fun s core dst acc sh h => (exec_extH ..).trans (execExtH_extracts (.plain h) rfl)
  case extI => exact fun s core dst acc sh h => (exec_extI ..).trans (execExtI_extracts (.plain h) rfl)
  case extCx =>
    exact fun s core dst acc sh ⟨hruns, hcode, heven⟩ =>
      (exec_extCx ..).trans (execExtCx_extracts (.plain ⟨hruns, hcode⟩) heven Core.scaled_half Core.scaled_half)
  case rawlo => exact fun s core dst acc h => (exec_rawlo ..).trans (crag_next (.plain h) (by rw [Core.ac, raw_lo]))
  case rawmi => exact fun s core dst acc h => (exec_rawmi ..).trans (crag_next (.plain h) (by rw [Core.ac, raw_mid]))
  case rawhi => exact fun s core dst acc h => (exec_rawhi ..).trans (crag_next (.plain h) (by rw [Core.ac, raw_hi]))
  case inslo => exact fun s core dst acc h => (exec_inslo ..).trans (crag_next (.plain h) (by rw [insAcc_lo]))
  case insmi => exact fun s core dst acc h => (exec_insmi ..).trans (crag_next (.plain h) (by rw [insAcc_mid]))
  case inshi => exact fun s core dst acc h => (exec_inshi ..).trans (crag_next (.plain h) (by rw [insAcc_hi]))

end Sys2Proof
end

section
/-!
How a value whose low bits are discarded is rounded (R619). With X = f m + d for m = 2^k, truncation gives f; the two other modes give f or
f + 1, by where d stands to m / 2. The statement on rounding (O54) follows.
-/

namespace Sys2Proof.Machine

section
variable {x r : Int} {k mode : Nat}

theorem roundBy_truncate : roundBy 0 x k = x / 2 ^ k := by simp [roundBy]

theorem roundBy_halfUp : roundBy 1 x k = if 2 ^ k ≤ 2 * (x % 2 ^ k) then x / 2 ^ k + 1 else x / 2 ^ k := by simp [roundBy]

theorem roundBy_convergent (h : 2 ≤ mode) : roundBy mode x k =
    if 2 * (x % 2 ^ k) < 2 ^ k then x / 2 ^ k else if 2 ^ k < 2 * (x % 2 ^ k) then x / 2 ^ k + 1
    else if x / 2 ^ k % 2 = 0 then x / 2 ^ k else x / 2 ^ k + 1 := by
  obtain ⟨n, rfl⟩ := Nat.exists_eq_add_of_le' h
  simp [roundBy]

/-- X by its quotient and its remainder. -/
theorem quotient_remainder : x = x / 2 ^ k * 2 ^ k + x % 2 ^ k ∧ 0 ≤ x % 2 ^ k ∧ x % 2 ^ k < 2 ^ k :=
  ⟨(Int.ediv_mul_add_emod x (2 ^ k)).symm, Int.emod_nonneg x (by positivity), Int.emod_lt_of_pos x (by positivity)⟩

/-- Where a multiple of 2^k stands to the two that enclose X. -/
theorem multiple_cases : (r = x / 2 ^ k ∧ r * 2 ^ k = x / 2 ^ k * 2 ^ k) ∨ (r = x / 2 ^ k + 1 ∧ r * 2 ^ k = x / 2 ^ k * 2 ^ k + 2 ^ k) ∨
    r * 2 ^ k ≤ x / 2 ^ k * 2 ^ k - 2 ^ k ∨ x / 2 ^ k * 2 ^ k + 2 * 2 ^ k ≤ r * 2 ^ k := by
  have hm : (0 : Int) ≤ 2 ^ k := by positivity
  rcases lt_trichotomy r (x / 2 ^ k) with hlow | rfl | hge
  · exact .inr (.inr (.inl (by nlinarith)))
  · exact .inl ⟨rfl, rfl⟩
  · rcases eq_or_lt_of_le (Int.add_one_le_of_lt hge) with rfl | hhigh
    · exact .inr (.inl ⟨rfl, add_one_mul ..⟩)
    · exact .inr (.inr (.inr (by nlinarith)))

theorem roundBy_truncate_greatest : roundBy 0 x k * 2 ^ k ≤ x ∧ x < (roundBy 0 x k + 1) * 2 ^ k := by
  obtain ⟨hx, hlo, hhi⟩ := quotient_remainder (x := x) (k := k)
  rw [roundBy_truncate, add_mul, one_mul]
  omega

theorem roundBy_halfUp_greatest : 2 * (roundBy 1 x k * 2 ^ k) ≤ 2 * x + 2 ^ k ∧ 2 * x + 2 ^ k < 2 * ((roundBy 1 x k + 1) * 2 ^ k) := by
  obtain ⟨hx, hlo, hhi⟩ := quotient_remainder (x := x) (k := k)
  rw [roundBy_halfUp]
  split <;> simp only [add_mul, one_mul] <;> omega

/-- Which of the two enclosing multiples the value of convergent rounding is. -/
theorem roundBy_convergent_cases (h : 2 ≤ mode) :
    (roundBy mode x k = x / 2 ^ k ∧ 2 * (x % 2 ^ k) ≤ 2 ^ k ∨ roundBy mode x k = x / 2 ^ k + 1 ∧ 2 ^ k ≤ 2 * (x % 2 ^ k)) ∧
      (2 * (x % 2 ^ k) = 2 ^ k → roundBy mode x k % 2 = 0) := by
  rw [roundBy_convergent h]
  split
  · omega
  · split
    · omega
    · split <;> omega

/-- The distances of X to a multiple of 2^k and to the value of convergent rounding. -/
theorem roundBy_convergent_distance (h : 2 ≤ mode) :
    r = roundBy mode x k ∨ (x - roundBy mode x k * 2 ^ k).natAbs < (x - r * 2 ^ k).natAbs ∨
      (x - roundBy mode x k * 2 ^ k).natAbs = (x - r * 2 ^ k).natAbs ∧ 2 * (x % 2 ^ k) = 2 ^ k := by
  obtain ⟨hx, hlo, hhi⟩ := quotient_remainder (x := x) (k := k)
  obtain ⟨⟨hy, hd⟩ | ⟨hy, hd⟩, -⟩ := roundBy_convergent_cases (x := x) (k := k) h
  · rw [hy]
    rcases multiple_cases (x := x) (r := r) (k := k) with hr | hr | hr | hr <;> omega
  · rw [hy, add_one_mul]
    rcases multiple_cases (x := x) (r := r) (k := k) with hr | hr | hr | hr <;> omega

theorem roundBy_convergent_nearest (h : 2 ≤ mode) : (x - roundBy mode x k * 2 ^ k).natAbs ≤ (x - r * 2 ^ k).natAbs := by
  obtain rfl | hlt | ⟨heq, -⟩ := roundBy_convergent_distance (x := x) (k := k) (r := r) h
  · exact le_rfl
  · exact hlt.le
  · exact heq.le

/-- Of two nearest values it is the even one. -/
theorem roundBy_convergent_even (h : 2 ≤ mode) (hr : r ≠ roundBy mode x k)
    (heq : (x - r * 2 ^ k).natAbs = (x - roundBy mode x k * 2 ^ k).natAbs) : roundBy mode x k % 2 = 0 := by
  obtain rfl | hlt | ⟨-, hhalf⟩ := roundBy_convergent_distance (x := x) (k := k) (r := r) h
  · exact absurd rfl hr
  · exact absurd heq hlt.ne'
  · exact (roundBy_convergent_cases h).2 hhalf

end

end Sys2Proof.Machine

namespace Sys2Proof
open Sys2Proof.Machine

/-- Settles O54: MULQ and EXT.W saturate what `roundBy` gives; `roundBy` is, mode by mode, one of the two multiples that enclose X. -/
theorem discardedBitsAreRounded : Obligations.DiscardedBitsAreRounded := by
  refine ⟨?mulq, ?extW, ?truncate, ?halfUp, ?convergent, ?rnd⟩
  case mulq => exact fun s core dst srcA b h => (exec_mulq ..).trans (alu_writes (.plain h) satRes_eq Core.flags_sat)
  case extW => exact fun s core dst acc sh h => (exec_extW ..).trans (execExtW_extracts (.plain h) rfl)
  case truncate => exact fun x k => roundBy_truncate_greatest
  case halfUp => exact fun x k => roundBy_halfUp_greatest
  case convergent => exact fun x k m h => ⟨fun r => roundBy_convergent_nearest h, fun r => roundBy_convergent_even h⟩
  case rnd => exact fun k => rfl

end Sys2Proof
end

section
/-!
The end of an instruction that does not branch (R624, R625). The statement on the loop test (O56) follows.
-/

namespace Sys2Proof.Machine

section
variable {k : Core} {i : Nat}

theorem Core.setDepth_depth (h : i < 4) : (k.setDepth i).depth = i := by
  have hbits : (k.setDepth i).st.extractLsb' 16 2 = BitVec.ofNat 2 i := by
    simp only [Core.setDepth, BitVec.extractLsb'_or, BitVec.extractLsb'_and]
    interval_cases i <;> simp
  have hnat := congrArg BitVec.toNat hbits
  rw [BitVec.extractLsb'_toNat, Nat.shiftRight_eq_div_pow, BitVec.toNat_ofNat] at hnat
  exact hnat.trans (Nat.mod_eq_of_lt h)

theorem Core.depth_lt : k.depth < 4 := Nat.mod_lt _ (by decide)

theorem advance_of_depth_zero (h : k.depth = 0) : advance k = { k with pc := k.pc + 4 } := by simp [advance, endTest, h]

theorem advance_inside (h : k.depth = i + 1) (hle : k.le.getD i 0 ≠ k.pc) : advance k = { k with pc := k.pc + 4 } := by
  rw [advance, h, endTest, if_pos (bne_iff_ne.2 hle)]

theorem advance_repeats (h : k.depth = i + 1) (hle : k.le.getD i 0 = k.pc) (hlc : 1 < (k.lc.getD i 0).toNat) :
    advance k = { k with lc := setAt k.lc i (k.lc.getD i 0 - 1), pc := k.ls.getD i 0 } := by
  rw [advance, h, endTest, if_neg (by simpa using hle), if_pos hlc]

theorem advance_leaves (h : k.depth = i + 1) (hle : k.le.getD i 0 = k.pc) (hlc : (k.lc.getD i 0).toNat ≤ 1) :
    advance k = advance (({ k with lc := setAt k.lc i 0 }).setDepth i) := by
  have hi : i < 4 := by have := Core.depth_lt (k := k); omega
  rw [advance, h, endTest, if_neg (by simpa using hle), if_neg (by omega), advance, Core.setDepth_depth hi]

end

end Sys2Proof.Machine

namespace Sys2Proof
open Sys2Proof.Machine

/-- Settles O56, branch by branch of the test. -/
theorem loopEndTest : Obligations.LoopEndTest := by
  refine ⟨?inside, ?repeats, ?leaves⟩
  case inside =>
    rintro k (h | ⟨i, h, hle⟩)
    · exact advance_of_depth_zero h
    · exact advance_inside h hle
  case repeats => exact fun k i => advance_repeats
  case leaves => exact fun k i => advance_leaves

end Sys2Proof
end

section
/-!
Loads and stores (R620, R623). A load and a store are each said once, by what the access gives; the statement on them (O37) follows.
-/

namespace Sys2Proof.Machine

section
variable {s t : State} {core : Fin 33} {ptr : BitVec 4} {m : AddrMode} {size : Nat} {j : Core} {v : List Byte} {x : Int} {sat : Bool}

theorem load_loads {f : Nat → Core → Core} (h : Executes s core false)
    (hv : cragRead s core.val (getCore s core.val) (cragAddr (getCore s core.val) ptr m size).1.toNat size = some v) :
    load core ptr m size f s = .next (onCore core.val (fun _ => advance (f (unLe v)
      ((getCore s core.val).setP ptr (cragAddr (getCore s core.val) ptr m size).2))) s) :=
  crag_next h (by simp only [hv])

theorem load_faults {f : Nat → Core → Core} (h : Executes s core false)
    (hv : cragRead s core.val (getCore s core.val) (cragAddr (getCore s core.val) ptr m size).1.toNat size = none) :
    load core ptr m size f s = .next (cragFault core.val (cragAddr (getCore s core.val) ptr m size).1 s) :=
  crag_fault h (by simp only [hv])

theorem store_stores {f : Core → Int × Bool} (h : Executes s core false) (hx : f (getCore s core.val) = (x, sat))
    (hw : cragWrite core.val (cragAddr (getCore s core.val) ptr m size).1.toNat (leI size x) (getCore s core.val) s = some (j, t)) :
    store core ptr m size f s = .next (onCore core.val (fun _ => advance
      ((j.setP ptr (cragAddr (getCore s core.val) ptr m size).2).stick 7 sat)) t) :=
  crag_next h (by simp only [hx, hw])

/-- A store whose value cannot saturate. -/
theorem store_whole {g : Core → Int} (h : Executes s core false)
    (hw : cragWrite core.val (cragAddr (getCore s core.val) ptr m size).1.toNat (leI size (g (getCore s core.val))) (getCore s core.val) s = some (j, t)) :
    store core ptr m size (fun k => (g k, false)) s = .next (onCore core.val (fun _ => advance
      (j.setP ptr (cragAddr (getCore s core.val) ptr m size).2)) t) :=
  store_stores (sat := false) h rfl hw

theorem store_faults {f : Core → Int × Bool} (h : Executes s core false)
    (hw : cragWrite core.val (cragAddr (getCore s core.val) ptr m size).1.toNat (leI size (f (getCore s core.val)).1) (getCore s core.val) s = none) :
    store core ptr m size f s = .next (cragFault core.val (cragAddr (getCore s core.val) ptr m size).1 s) :=
  crag_fault h (by simp only [hw])

theorem le_bytes_length (n : Nat) : (le size n).length = size := by
  induction size generalizing n with
  | zero => rfl
  | succ size ih => exact congrArg (· + 1) (ih _)

theorem leI_length : (leI size x).length = size := le_bytes_length _

/-- An aligned write of a core but Summit below 0x1C000 goes to its own memory (R615). -/
theorem cragWrite_local {n a : Nat} {b : List Byte} {k : Core} (hn : n ≠ 32) (halign : a % b.length = 0) (ha : a < 0x1C000) :
    cragWrite n a b k s = some ({ k with mem := memWrite k.mem a b }, s) := by
  simp [cragWrite, hn, halign, ha]

end

end Sys2Proof.Machine

namespace Sys2Proof
open Sys2Proof.Machine

/-- Settles O37: each instruction is a load or a store; a saturated value is a clamp, and words are stored as they are. -/
theorem cragLoadsAndStoresResults : Obligations.CragLoadsAndStoresResults := by
  refine ⟨?ldBu, ?ldB, ?ldHu, ?ldH, ?ldW, ?ldP, ?ldA, ?ldFault, ?stB, ?stH, ?stHu, ?stW, ?stP, ?stA, ?stHf, ?stLocal, ?stFault⟩
  case ldBu => exact fun s core reg ptr m v ⟨hruns, hcode, hv⟩ => (exec_ldBu ..).trans (load_loads (.plain ⟨hruns, hcode⟩) hv)
  case ldB => exact fun s core reg ptr m v ⟨hruns, hcode, hv⟩ => (exec_ldB ..).trans (load_loads (.plain ⟨hruns, hcode⟩) hv)
  case ldHu => exact fun s core reg ptr m v ⟨hruns, hcode, hv⟩ => (exec_ldHu ..).trans (load_loads (.plain ⟨hruns, hcode⟩) hv)
  case ldH => exact fun s core reg ptr m v ⟨hruns, hcode, hv⟩ => (exec_ldH ..).trans (load_loads (.plain ⟨hruns, hcode⟩) hv)
  case ldW => exact fun s core reg ptr m v ⟨hruns, hcode, hv⟩ => (exec_ldW ..).trans (load_loads (.plain ⟨hruns, hcode⟩) hv)
  case ldP => exact fun s core reg ptr m v ⟨hruns, hcode, hv⟩ => (exec_ldP ..).trans (load_loads (.plain ⟨hruns, hcode⟩) hv)
  case ldA => exact fun s core reg ptr m v ⟨hruns, hcode, hv⟩ => (exec_ldA ..).trans (load_loads (.plain ⟨hruns, hcode⟩) hv)
  case ldFault => exact fun s core reg ptr m ⟨hruns, hcode, hv⟩ => (exec_ldW ..).trans (load_faults (.plain ⟨hruns, hcode⟩) hv)
  case stB =>
    exact fun s core reg ptr m j t ⟨hruns, hcode, hw⟩ => (exec_stB ..).trans (store_stores (.plain ⟨hruns, hcode⟩) (clampTo_eq (by decide)) hw)
  case stH => exact fun s core reg ptr m j t ⟨hruns, hcode, hw⟩ => (exec_stH ..).trans (store_stores (.plain ⟨hruns, hcode⟩) satS_16 hw)
  case stHu =>
    exact fun s core reg ptr m j t ⟨hruns, hcode, hw⟩ => (exec_stHu ..).trans (store_stores (.plain ⟨hruns, hcode⟩) (clampTo_eq (by decide)) hw)
  case stW => exact fun s core reg ptr m j t ⟨hruns, hcode, hw⟩ => (exec_stW ..).trans (store_whole (.plain ⟨hruns, hcode⟩) hw)
  case stP => exact fun s core reg ptr m j t ⟨hruns, hcode, hw⟩ => (exec_stP ..).trans (store_whole (.plain ⟨hruns, hcode⟩) hw)
  case stA => exact fun s core reg ptr m j t ⟨hruns, hcode, hw⟩ => (exec_stA ..).trans (store_stores (.plain ⟨hruns, hcode⟩) satS_64 hw)
  case stHf => exact fun s core reg ptr m j t ⟨hruns, hcode, hw⟩ => (exec_stHf ..).trans (store_stores (.plain ⟨hruns, hcode⟩) satS_16 hw)
  case stLocal =>
    exact fun s core reg ptr m ⟨hruns, hcode, hn, halign, ha⟩ => (exec_stW ..).trans (store_whole (.plain ⟨hruns, hcode⟩)
      (cragWrite_local hn (by rwa [leI_length]) ha))
  case stFault => exact fun s core reg ptr m ⟨hruns, hcode, hw⟩ => (exec_stW ..).trans (store_faults (.plain ⟨hruns, hcode⟩) hw)

end Sys2Proof
end

section
/-!
Branches, calls, loops and system instructions (R621 to R631): what each gives where it completes, by the forms of a step. The statement on
control flow (O38) follows.
-/

namespace Sys2Proof.Machine

section
variable {s t : State} {core : Fin 33} {k j : Core}

/-! Calls (R627, R628). -/

theorem pushCall_pushes {n : Nat} {mask : W16} {target : W32} (halign : (k.pr 15).toNat % 4 = 0)
    (hw : cragWords n (k.pr 15 - BitVec.ofNat 32 (8 + 4 * (maskRegs mask).length)).toNat
      ([k.lk, mask.setWidth 32] ++ (maskRegs mask).map fun i => k.d.getD (16 + i) 0) k s = some (j, t)) :
    pushCall n mask target k s =
      .call { j.setP 15 (k.pr 15 - BitVec.ofNat 32 (8 + 4 * (maskRegs mask).length)) with lk := k.pc + 4 } target t := by
  simp only [pushCall, halign, hw, bne_self_eq_false, Bool.false_eq_true, if_false]

theorem maskRegs_zero : maskRegs 0 = [] := by decide

theorem execRet_ends (h : Executes s core true) (hn : core.val ≠ 32) (hlk : (getCore s core.val).lk = 0xFFFFFFF0) :
    execRet core 0 s = .next (onCore core.val (fun _ =>
      { getCore s core.val with run := (getCore s core.val).run.map fun d => { d with returned := true } }) s) :=
  crag_done h (by simp [hn, hlk])

/-- A frame that holds no register. -/
theorem execRet_returns {q : W32} (h : Executes s core true) (hlk : (getCore s core.val).lk ≠ 0xFFFFFFF0)
    (hq : readWords s core.val ((getCore s core.val).pr 15).toNat (getCore s core.val) 2 = some [q, 0]) :
    execRet core 0 s = .next (onCore core.val (fun _ =>
      jumpTo { (getCore s core.val).setP 15 ((getCore s core.val).pr 15 + 8) with lk := q } (getCore s core.val).lk) s) :=
  crag_jump h (by
    simp only [hlk, maskRegs_zero, hq, List.length_nil, Nat.add_zero, decide_false, Bool.and_false, Bool.false_eq_true, if_false,
      show ((0 : W32) != (0 : W16).setWidth 32) = false from rfl, List.zip_nil_left, List.foldl_nil, Nat.mul_zero]
    rfl)

/-! Loops (R624, R625). -/

section
variable {count : LoopCount} {last : W16}

/-- The first loop level, from the next instruction to an end. -/
def Core.firstLevel (k : Core) (e n : W32) : Core := { k with ls := setAt k.ls 0 (k.pc + 4), le := setAt k.le 0 e, lc := setAt k.lc 0 n }

theorem execLoop_opens {n : BitVec 11} (h : Executes s core true) (hlast : last ≠ 0) (hdepth : (getCore s core.val).depth = 0) (hn : n ≠ 0) :
    execLoop core (.imm n) last s = .next (onCore core.val (fun _ =>
      { ((getCore s core.val).firstLevel ((getCore s core.val).pc + BitVec.ofNat 32 (4 * last.toNat)) (n.setWidth 32)).setDepth 1 with
        pc := (getCore s core.val).pc + 4 }) s) := by
  have hw : n.setWidth 32 ≠ 0 := fun hz => hn (by bv_omega)
  exact crag_call h (by simp only [Core.firstLevel, hlast, hdepth, hw, List.range_zero, List.any_nil, decide_false, Bool.or_false,
    Bool.false_eq_true, if_false, show decide (3 ≤ 0) = false from rfl, Nat.zero_add])

/-- A loop whose count is 0 skips its body. -/
theorem execLoop_skips {r : BitVec 5} (h : Executes s core true) (hlast : last ≠ 0) (hdepth : (getCore s core.val).depth = 0)
    (hr : (getCore s core.val).dr r = 0) :
    execLoop core (.reg r) last s = .next (onCore core.val (fun _ =>
      { (getCore s core.val).firstLevel ((getCore s core.val).pc + BitVec.ofNat 32 (4 * last.toNat)) 0 with
        pc := (getCore s core.val).pc + BitVec.ofNat 32 (4 * last.toNat) + 4 }) s) :=
  crag_call h (by simp only [Core.firstLevel, hlast, hdepth, hr, List.range_zero, List.any_nil, decide_false, Bool.or_false,
    Bool.false_eq_true, if_false, if_true, show decide (3 ≤ 0) = false from rfl])

/-- There are three levels. -/
theorem execLoop_full (h : Executes s core true) (hdepth : (getCore s core.val).depth = 3) :
    execLoop core count last s = .next (cragFault core.val (getCore s core.val).pc s) := crag_fault h (by simp [hdepth])

end

/-! Special registers (R622). -/

section
variable {reg spec : BitVec 5} {v : W32}

theorem special_undefined {c : Nat} (hc : 10 < c) (hlc : k.lc.length = 3) : special k c = none := by
  rw [special, if_neg (by omega), if_neg (by omega), if_neg (by omega), if_neg (by omega), List.getElem?_eq_none (by omega)]

theorem execMfs_reads (h : Executes s core false) (hv : special (getCore s core.val) spec.toNat = some v) :
    execMfs core reg spec s = .next (onCore core.val (fun _ => advance ((getCore s core.val).setD reg v)) s) := crag_next h (by simp only [hv])

theorem execMfs_faults (h : Executes s core false) (hv : special (getCore s core.val) spec.toNat = none) :
    execMfs core reg spec s = .next (cragFault core.val (getCore s core.val).pc s) := crag_fault h (by simp only [hv])

/-- What is written to a special register acts from the next instruction on. -/
theorem execMts_writes (h : Executes s core false) (hv : special (getCore s core.val) spec.toNat = some v)
    (hj : setSpecial (advance (getCore s core.val)) spec.toNat ((getCore s core.val).dr reg) = j) (hpc : j.pc = (advance (getCore s core.val)).pc) :
    execMts core reg spec s = .next (onCore core.val (fun _ => j) s) :=
  crag_call (k := j) (a := j.pc) h (by simp only [hv, hj, hpc, Option.isNone_some, Bool.false_eq_true, if_false])

end

/-! Privileged instructions (R598, R630, R631). -/

section
variable {f : Core → State → CragRes} {a : W32}

/-- Summit's core executes wherever its PC stands. -/
theorem summit_executes (hruns : cragRuns s 32 = true) : Executes s 32 false := ⟨hruns, rfl, rfl⟩

theorem privileged_next (hn : core.val = 32) (hruns : cragRuns s 32 = true) (hpriv : (getCore s 32).priv = true)
    (hf : f (getCore s 32) s = .next k t) : privileged core f s = .next (onCore 32 (fun _ => advance k) t) := by
  obtain rfl : core = 32 := Fin.ext hn
  exact crag_next (summit_executes hruns) ((if_pos hpriv).trans hf)

theorem privileged_call (hn : core.val = 32) (hruns : cragRuns s 32 = true) (hpriv : (getCore s 32).priv = true)
    (hf : f (getCore s 32) s = .call k a t) : privileged core f s = .next (onCore 32 (fun _ => { k with pc := a }) t) := by
  obtain rfl : core = 32 := Fin.ext hn
  exact crag_call (summit_executes hruns) ((if_pos hpriv).trans hf)

theorem privileged_faults (h : Executes s core false) (hn : core.val ≠ 32) :
    privileged core f s = .next (cragFault core.val (getCore s core.val).pc s) := crag_fault h (by simp [hn])

theorem privileged_unprivileged (hn : core.val = 32) (hruns : cragRuns s 32 = true) (hpriv : (getCore s 32).priv = false) :
    privileged core f s = .next (onCore 32 summitException s) := by
  obtain rfl : core = 32 := Fin.ext hn
  exact crag_fault (summit_executes hruns) (if_neg (by simp [hpriv]))

end

/-! Words that spell no instruction (R622). -/

section
variable {word : W32}

theorem execUndefinedEncoding_faults (h : Executes s core false) (hword : cragDecode core word.toNat = none) :
    execUndefinedEncoding core word s = .next (cragFault core.val (getCore s core.val).pc s) :=
  (if_neg (by simp [hword])).trans (crag_fault h rfl)

theorem execUndefinedEncoding_summit (hn : core.val = 32) (hruns : cragRuns s 32 = true) (hword : cragDecode core word.toNat = none) :
    execUndefinedEncoding core word s = .next (onCore 32 summitException s) := by
  obtain rfl : core = 32 := Fin.ext hn
  exact execUndefinedEncoding_faults (summit_executes hruns) hword

end

end

end Sys2Proof.Machine

namespace Sys2Proof
open Sys2Proof.Machine

/-- Settles O38, instruction by instruction, each by what it gives. -/
theorem cragControlFlowResults : Obligations.CragControlFlowResults := by
  refine ⟨?branchTaken, ?branchNot, ?branchLoopEnd, ?branchStopped, ?call, ?callr, ?retEnds, ?retReturns, ?br, ?loopOpens, ?loopSkips, ?loopFull,
    ?mfs, ?mfsUndefined, ?mtsLk, ?mtsSt, ?nop, ?setrnd, ?csrr, ?csrw, ?rfe, ?wait, ?fence, ?csrrFault, ?csrwFault, ?rfeFault, ?waitFault,
    ?fenceFault, ?rfeUnprivileged, ?undefined, ?undefinedSummit⟩
  case branchTaken =>
    exact fun s core cond off ⟨hruns, hcode, hloop, hc⟩ => (exec_branch ..).trans (crag_jump (.control hruns hcode hloop) (by simp only [hc, wordsFrom]))
  case branchNot =>
    exact fun s core cond off ⟨hruns, hcode, hloop, hc⟩ => (exec_branch ..).trans (crag_next (.control hruns hcode hloop) (by simp only [hc]))
  case branchLoopEnd => exact fun s core cond off ⟨hruns, hcode, hloop⟩ => (exec_branch ..).trans (crag_atLoopEnd hruns hloop)
  case branchStopped => exact fun s core cond off hruns => (exec_branch ..).trans (crag_stopped hruns)
  case call =>
    exact fun s core off mask j t ⟨hruns, hcode, hloop, halign, hw⟩ =>
      (exec_call ..).trans (crag_call (.control hruns hcode hloop) (pushCall_pushes halign hw))
  case callr =>
    exact fun s core ptr mask j t ⟨hruns, hcode, hloop, halign, hw⟩ =>
      (exec_callr ..).trans (crag_call (.control hruns hcode hloop) (pushCall_pushes halign hw))
  case retEnds =>
    rintro s core mask ⟨hruns, hcode, hloop, hn, hlk, rfl⟩
    exact (exec_ret ..).trans (execRet_ends (.control hruns hcode hloop) hn hlk)
  case retReturns =>
    rintro s core mask q ⟨hruns, hcode, hloop, hlk, rfl, hq⟩
    exact (exec_ret ..).trans (execRet_returns (.control hruns hcode hloop) hlk hq)
  case br => exact fun s core ptr ⟨hruns, hcode, hloop⟩ => (exec_br ..).trans (crag_jump (.control hruns hcode hloop) rfl)
  case loopOpens =>
    rintro s core count last n ⟨hruns, hcode, hloop, hlast, hdepth, rfl, hn⟩
    exact (exec_loop ..).trans (execLoop_opens (.control hruns hcode hloop) hlast hdepth hn)
  case loopSkips =>
    rintro s core count last r ⟨hruns, hcode, hloop, hlast, hdepth, rfl, hr⟩
    exact (exec_loop ..).trans (execLoop_skips (.control hruns hcode hloop) hlast hdepth hr)
  case loopFull =>
    exact fun s core count last ⟨hruns, hcode, hloop, hdepth⟩ => (exec_loop ..).trans (execLoop_full (.control hruns hcode hloop) hdepth)
  case mfs => exact fun s core reg spec v ⟨hruns, hcode, hv⟩ => (exec_mfs ..).trans (execMfs_reads (.plain ⟨hruns, hcode⟩) hv)
  case mfsUndefined =>
    exact fun s core reg spec ⟨hruns, hcode, hc, hlc⟩ => (exec_mfs ..).trans (execMfs_faults (.plain ⟨hruns, hcode⟩) (special_undefined hc hlc))
  case mtsLk =>
    rintro s core reg spec ⟨hruns, hcode, rfl⟩
    exact (exec_mts ..).trans (execMts_writes (.plain ⟨hruns, hcode⟩) rfl rfl rfl)
  case mtsSt =>
    rintro s core reg spec ⟨hruns, hcode, rfl⟩
    exact (exec_mts ..).trans (execMts_writes (.plain ⟨hruns, hcode⟩) rfl rfl rfl)
  case nop => exact fun s core h => (exec_nop ..).trans (crag_next (.plain h) rfl)
  case setrnd => exact fun s core rnd h => (exec_setrnd ..).trans (crag_next (.plain h) rfl)
  case csrr => exact fun s core reg csr ⟨hn, hruns, hpriv⟩ => (exec_csrr ..).trans (privileged_next hn hruns hpriv rfl)
  case csrw => exact fun s core reg csr ⟨hn, hruns, hpriv⟩ => (exec_csrw ..).trans (privileged_next hn hruns hpriv rfl)
  case rfe => exact fun s core ⟨hn, hruns, hpriv⟩ => (exec_rfe ..).trans (privileged_call hn hruns hpriv rfl)
  case wait => exact fun s core ⟨hn, hruns, hpriv⟩ => (exec_wait ..).trans (privileged_next hn hruns hpriv rfl)
  case fence => exact fun s core ⟨hn, hruns, hpriv⟩ => (exec_fence ..).trans (privileged_next hn hruns hpriv rfl)
  case csrrFault => exact fun s core reg csr ⟨hruns, hcode, hn⟩ => (exec_csrr ..).trans (privileged_faults (.plain ⟨hruns, hcode⟩) hn)
  case csrwFault => exact fun s core reg csr ⟨hruns, hcode, hn⟩ => (exec_csrw ..).trans (privileged_faults (.plain ⟨hruns, hcode⟩) hn)
  case rfeFault => exact fun s core ⟨hruns, hcode, hn⟩ => (exec_rfe ..).trans (privileged_faults (.plain ⟨hruns, hcode⟩) hn)
  case waitFault => exact fun s core ⟨hruns, hcode, hn⟩ => (exec_wait ..).trans (privileged_faults (.plain ⟨hruns, hcode⟩) hn)
  case fenceFault => exact fun s core ⟨hruns, hcode, hn⟩ => (exec_fence ..).trans (privileged_faults (.plain ⟨hruns, hcode⟩) hn)
  case rfeUnprivileged => exact fun s core ⟨hn, hruns, hpriv⟩ => (exec_rfe ..).trans (privileged_unprivileged hn hruns hpriv)
  case undefined =>
    exact fun s core word ⟨hruns, hcode, hword⟩ => (exec_undefinedEncoding ..).trans (execUndefinedEncoding_faults (.plain ⟨hruns, hcode⟩) hword)
  case undefinedSummit => exact fun s core word ⟨hn, hruns, hword⟩ => (exec_undefinedEncoding ..).trans (execUndefinedEncoding_summit hn hruns hword)

end Sys2Proof
end

section
/-!
What a store leaves unchanged (R615, R622, R623). A write that succeeds changes bytes of the core's own memory or of one kernel's shared
window; the rest of the instruction changes the pointer, PC, st and the loop counts. The statement on stores (O55) follows.
-/

namespace Sys2Proof.Machine
open Sys2Proof.Claim

/-! Bytes outside what is written. -/

section
variable {a c k : Nat} {b : List Byte} {v : Byte} {m : Tab Byte}

theorem Tab.get?_erase_ne {α : Type} {t : Tab α} (h : c ≠ k) : Tab.get? (Tab.erase t k) c = Tab.get? t c := by
  induction t with
  | nil => rfl
  | cons e t ih =>
    obtain ⟨i, x⟩ := e
    by_cases hi : i = k
    · subst hi
      simpa [Tab.erase, Tab.get?, h.symm] using ih
    · simpa [Tab.erase, Tab.get?, hi] using congrArg (fun y => if i = c then some x else y) ih

theorem get?_memSet_ne (h : c ≠ a) : Tab.get? (memSet m a v) c = Tab.get? m c := by
  unfold memSet
  split
  · exact Tab.get?_erase_ne h
  · rw [Tab.get?_set, if_neg h]

theorem get?_memWrite_outside (h : ¬ (a ≤ c ∧ c < a + b.length)) : Tab.get? (memWrite m a b) c = Tab.get? m c := by
  induction b generalizing m a with
  | nil => rfl
  | cons v t ih =>
    rw [List.length_cons] at h
    exact (ih (by omega)).trans (get?_memSet_ne (by omega))

theorem get?_putBytes_outside (h : ¬ (a ≤ c ∧ c < a + b.length)) : Tab.get? (putBytes m a b) c = Tab.get? m c := by
  induction b generalizing m a with
  | nil => rfl
  | cons v t ih =>
    rw [List.length_cons] at h
    exact (ih (by omega)).trans (by rw [Tab.get?_set, if_neg (by omega)])

theorem memGet_memWrite_outside (h : ¬ (a ≤ c ∧ c < a + b.length)) : memGet (memWrite m a b) c = memGet m c := by
  simp only [memGet, Tab.getD, get?_memWrite_outside h]

end

/-! A write of a core. -/

section
variable {s t : State} {n a len : Nat} {b b' : List Byte} {k j : Core}

/-- Of the memories of a core and of the kernels, only bytes from an address on change. -/
structure WritesAt (a len : Nat) (k j : Core) (s t : State) : Prop where
  core : ∃ mem, j = { k with mem := mem } ∧ ∀ c, ¬ (a ≤ c ∧ c < a + len) → Tab.get? mem c = Tab.get? k.mem c
  cores : t.col.cores = s.col.cores
  kernels : ∀ q x, Tab.get? s.col.kernels q = some x → ∃ y, Tab.get? t.col.kernels q = some y ∧ y.code = x.code ∧
    ∀ c, ¬ (a ≤ c + 0x10000000 ∧ c + 0x10000000 < a + len) → memGet y.shared c = memGet x.shared c

theorem WritesAt.own {mem : Tab Byte} (h : ∀ c, ¬ (a ≤ c ∧ c < a + len) → Tab.get? mem c = Tab.get? k.mem c) :
    WritesAt a len k { k with mem := mem } s s :=
  ⟨⟨mem, rfl, h⟩, rfl, fun _ x hx => ⟨x, hx, rfl, fun _ _ => rfl⟩⟩

theorem WritesAt.shared {i : Nat} (ha : 0x10000000 ≤ a) :
    WritesAt a b.length k k s (onKernel i (fun y => { y with shared := memWrite y.shared (a - 0x10000000) b }) s) := by
  refine ⟨⟨k.mem, rfl, fun _ _ => rfl⟩, ?_, fun q x hx => ?_⟩
  · unfold onKernel
    split <;> rfl
  · unfold onKernel
    split
    · next z hz =>
      rw [State.onCol_col]
      by_cases hq : q = i
      · subst hq
        obtain rfl : z = x := Option.some.inj (hz.symm.trans hx)
        exact ⟨_, Tab.get?_set.trans (if_pos rfl), rfl, fun c hc => memGet_memWrite_outside (by omega)⟩
      · exact ⟨x, Tab.get?_set.trans ((if_neg hq).trans hx), rfl, fun _ _ => rfl⟩
    · exact ⟨x, hx, rfl, fun _ _ => rfl⟩

theorem cragWrite_writesAt (h : cragWrite n a b k s = some (j, t)) : WritesAt a b.length k j s t := by
  unfold cragWrite at h
  split at h
  · cases h
  split at h
  · cases h
    exact .own fun c hc => get?_putBytes_outside hc
  split at h
  · cases h
    exact .own fun c hc => get?_memWrite_outside hc
  split at h
  · next hwin =>
    obtain ⟨x, -, hx⟩ := Option.bind_eq_some_iff.1 h
    split at hx
    · cases hx
      exact .shared (by simpa using (Bool.and_eq_true_iff.1 hwin).1)
    · cases hx
  · cases h

/-- Whether a write can be made depends on its size only. -/
theorem cragWrite_isSome_congr (h : b.length = b'.length) : (cragWrite n a b k s).isSome = (cragWrite n a b' k s).isSome := by
  simp only [cragWrite, h, apply_ite Option.isSome, Option.isSome_some, Option.isSome_bind]

end

/-! The end of an instruction. -/

section
variable {k : Core} {s : State} {n o : Nat} {f : Core → Core}

theorem endTest_frame (i : Nat) : ∃ lc st, (endTest k i).1 = { k with lc := lc, st := st } := by
  induction i generalizing k with
  | zero => exact ⟨_, _, rfl⟩
  | succ i ih =>
    unfold endTest
    split
    · exact ⟨_, _, rfl⟩
    · dsimp only
      split
      · exact ⟨_, _, rfl⟩
      · obtain ⟨lc, st, h⟩ := ih (k := ({ k with lc := setAt k.lc i 0 }).setDepth i)
        exact ⟨lc, st, h⟩

theorem advance_frame : ∃ lc st pc, advance k = { k with lc := lc, st := st, pc := pc } := by
  obtain ⟨lc, st, h⟩ := endTest_frame (k := k) k.depth
  exact ⟨lc, st, _, by rw [advance, h]⟩

theorem Core.stick_frame {i : Nat} {v : Bool} : ∃ st, k.stick i v = { k with st := st } := by
  unfold Core.stick
  split
  · exact ⟨_, rfl⟩
  · exact ⟨_, rfl⟩

theorem getCore_onCore_ne (h : o ≠ n) : getCore (onCore n f s) o = getCore s o := by
  simp [getCore, onCore, updAt, List.getD_eq_getElem?_getD, h.symm]

/-- A core that a state does not have reads as it did. -/
theorem getCore_onCore : getCore (onCore n f s) n = f (getCore s n) ∨ getCore (onCore n f s) n = getCore s n := by
  simp only [getCore, onCore, updAt, State.onCol_col, List.getD_eq_getElem?_getD, List.getElem?_modify, if_true]
  cases s.col.cores[n]? with
  | none => exact .inr rfl
  | some x => exact .inl rfl

theorem Core.pr_setP_ne {p q : BitVec 4} {v : W32} (h : q ≠ p) : (k.setP p v).pr q = k.pr q := by
  have hn : p.toNat ≠ q.toNat := fun he => h (BitVec.eq_of_toNat_eq he.symm)
  simp [Core.pr, Core.setP, setAt, List.getD_eq_getElem?_getD, hn]

end

/-! Stores. -/

section
variable {s t : State} {core : Fin 33} {ptr : BitVec 4} {m : AddrMode} {n a : Nat} {k j : Core} {i : Instr} {f : Core → Int × Bool}

/-- The registers that a store leaves are left; of the memory only bytes from an address on change. -/
structure CoreStores (ptr : BitVec 4) (a len : Nat) (k u : Core) : Prop where
  d : u.d = k.d
  acc : u.acc = k.acc
  lk : u.lk = k.lk
  pr : ∀ q, q ≠ ptr → u.pr q = k.pr q
  mem : ∀ c, ¬ (a ≤ c ∧ c < a + len) → Tab.get? u.mem c = Tab.get? k.mem c

theorem CoreStores.refl : CoreStores ptr a n k k := ⟨rfl, rfl, rfl, fun _ _ => rfl, fun _ _ => rfl⟩

theorem WritesAt.coreStores {v : W32} {sat : Bool} (h : WritesAt a n k j s t) : CoreStores ptr a n k (advance ((j.setP ptr v).stick 7 sat)) := by
  obtain ⟨⟨mem, rfl, hmem⟩, -, -⟩ := h
  obtain ⟨st, hst⟩ := Core.stick_frame (k := { k with mem := mem }.setP ptr v) (i := 7) (v := sat)
  obtain ⟨lc, st', pc, hadv⟩ := advance_frame (k := { { k with mem := mem }.setP ptr v with st := st })
  rw [hst, hadv]
  exact ⟨rfl, rfl, rfl, fun q hq => Core.pr_setP_ne hq, hmem⟩

/-- A store that can be made, however the instruction is written. -/
theorem store_touches (he : exec i s = store core ptr m n f s) (h : Executes s core false)
    (hw : (cragWrite core.val (cragAddr (getCore s core.val) ptr m n).1.toNat (List.replicate n 0) (getCore s core.val) s).isSome = true) :
    ∃ u, exec i s = .next u ∧ Framed [.col] s u ∧ (∀ o, o ≠ core.val → getCore u o = getCore s o) ∧
      CoreStores ptr (cragAddr (getCore s core.val) ptr m n).1.toNat n (getCore s core.val) (getCore u core.val) ∧
      ∀ q x, Tab.get? s.col.kernels q = some x → ∃ y, Tab.get? u.col.kernels q = some y ∧ y.code = x.code ∧
        ∀ c, ¬ ((cragAddr (getCore s core.val) ptr m n).1.toNat ≤ c + 0x10000000 ∧
          c + 0x10000000 < (cragAddr (getCore s core.val) ptr m n).1.toNat + n) → memGet y.shared c = memGet x.shared c := by
  have hsome := (cragWrite_isSome_congr (n := core.val) (a := (cragAddr (getCore s core.val) ptr m n).1.toNat) (k := getCore s core.val) (s := s)
    (show (leI n (f (getCore s core.val)).1).length = (List.replicate n (0 : Byte)).length by rw [leI_length, List.length_replicate])).trans hw
  obtain ⟨⟨j, t⟩, hjt⟩ := Option.isSome_iff_exists.1 hsome
  have hwrite := cragWrite_writesAt hjt
  rw [leI_length] at hwrite
  have hkeeps : Keeps (maskOf [.col]) s t := keeps_of_someR (cragWrite_keeps (by decide) (Keeps.refl s)) hjt
  have hcores : ∀ o, getCore t o = getCore s o := fun o => by rw [getCore, hwrite.cores, getCore]
  refine ⟨_, he.trans (store_stores h rfl hjt), frame_of_keeps (onCore_keeps (by decide) hkeeps),
    fun o ho => (getCore_onCore_ne ho).trans (hcores o), ?_, hwrite.kernels⟩
  rcases getCore_onCore (n := core.val) (s := t) with hu | hu <;> rw [hu]
  · exact hwrite.coreStores
  · rw [hcores]
    exact .refl

end

end Sys2Proof.Machine

namespace Sys2Proof
open Sys2Proof.Machine

/-- Settles O55: each form is a store, and what a store leaves is left by its write, by the pointer's move and by the end of the instruction. -/
theorem storesTouchOnlyTheirBytes : Obligations.StoresTouchOnlyTheirBytes := by
  intro s core rd rp ra ptr m e he hruns hcode hw
  have hstore : ∃ f, exec e.1 s = store core ptr m e.2 f s := by
    simp only [List.mem_cons, List.not_mem_nil, or_false] at he
    obtain rfl | rfl | rfl | rfl | rfl | rfl | rfl := he
    · exact ⟨_, exec_stB ..⟩
    · exact ⟨_, exec_stH ..⟩
    · exact ⟨_, exec_stHu ..⟩
    · exact ⟨_, exec_stHf ..⟩
    · exact ⟨_, exec_stW ..⟩
    · exact ⟨_, exec_stP ..⟩
    · exact ⟨_, exec_stA ..⟩
  obtain ⟨f, hf⟩ := hstore
  obtain ⟨u, hu, hframe, hothers, ⟨hd, hacc, hlk, hpr, hmem⟩, hkernels⟩ := store_touches hf (.plain ⟨hruns, hcode⟩) hw
  exact ⟨u, hu, hframe, hothers, hd, hacc, hlk, hpr, hmem, hkernels⟩

end Sys2Proof
end

section
/-!
Restarts (R693 to R704), the last-gasp record (R700), the heartbeat and the time spent in SERVE (R708). What every restart leads to is said
once; the statement on these rows (O3) follows.
-/

namespace Sys2Proof.Machine
open Sys2Proof.Claim

section
variable {s : State} {safeN : Bool}

/-! Every restart begins the boot sequence (R703). -/

@[simp] theorem restart_mode : (restart s).modes.mode = 7 := rfl
@[simp] theorem restart_phase : (restart s).boot.phase = .sequence := rfl
@[simp] theorem restart_restarting : (restart s).boot.restarting = true := rfl
@[simp] theorem restart_cause : (restart s).boot.cause = 5 := rfl
@[simp] theorem restart_summitRun : (restart s).flt.summitRun = false := rfl
@[simp] theorem restart_faultN : (restart s).outs.faultN = true := rfl
@[simp] theorem restart_paen : (restart s).outs.paen = 0 := rfl

theorem loadCounter_flt : (loadCounter s).flt = s.flt := loadCounter_frame.2 .flt (by decide)

@[simp] theorem restart_wdtHit : (restart s).flt.wdtHit = s.flt.wdtHit := by
  show Flt.wdtHit (State.flt (if s.modes.mode = 3 then _ else _)) = _
  simp only [apply_ite State.flt, State.onClk_flt, loadCounter_flt, ite_self]

@[simp] theorem restart_autoTimes : (restart s).flt.autoTimes = s.flt.autoTimes := by
  show Flt.autoTimes (State.flt (if s.modes.mode = 3 then _ else _)) = _
  simp only [apply_ite State.flt, State.onClk_flt, loadCounter_flt, ite_self]

/-! The watchdog (R695) and automatic restarts (R704). -/

theorem execWdtResetExpiry_restarts (hacts : watchdogActs s = true) (hms : s.flt.wdtResetMs ≠ 0) (hsafe : safeN = true) :
    execWdtResetExpiry safeN s = .next (restart
      ((watchdogRecord (countCairn 13 (s.onPwr fun p => { p with safeN }))).onFlt fun f => { f with wdtHit := true })) := by
  subst hsafe
  exact next_onlyIf (Bool.and_eq_true_iff.2 ⟨Bool.and_eq_true_iff.2 ⟨hacts, bne_iff_ne.2 hms⟩, rfl⟩)

/-- An automatic restart may be made (R704). -/
def autoAllowed (s : State) (safeN : Bool) : Bool :=
  s.modes.mode = 7 && !s.boot.restarting && [3, 4, 5, 6, 7, 9].contains s.flt.cause && s.flt.autoMask.getLsbD s.flt.cause && safeN

theorem autoAllowed_of (hmode : s.modes.mode = 7) (hrest : s.boot.restarting = false) (hcause : s.flt.cause ∈ [3, 4, 5, 6, 7, 9])
    (hmask : s.flt.autoMask.getLsbD s.flt.cause = true) (hsafe : safeN = true) : autoAllowed s safeN = true := by
  simp only [autoAllowed, hmode, hrest, List.contains_iff_mem.2 hcause, hmask, hsafe, decide_true, Bool.not_false, Bool.and_self]

theorem execAutoRestartExpiry_due (h : autoAllowed s safeN = true) (hdone : s.flt.gaspDone = true) :
    execAutoRestartExpiry safeN s = .next (autoRestart (s.onPwr fun p => { p with safeN })) :=
  (next_onlyIf h).trans (congrArg _ (if_pos hdone))

theorem execAutoRestartExpiry_waits (h : autoAllowed s safeN = true) (hdone : s.flt.gaspDone = false) :
    execAutoRestartExpiry safeN s = .next ((s.onPwr fun p => { p with safeN }).onFlt fun f => { f with autoDue := true }) :=
  (next_onlyIf h).trans (congrArg _ (if_neg (by simp [hdone])))

theorem autoRestart_restarts (h : (recentAuto s).length < s.flt.autoLimit) :
    autoRestart s = restart ((countCairn 14 s).onFlt fun f => { f with autoTimes := (nowNs s / 10 ^ 9) :: recentAuto s, autoDue := false }) :=
  if_neg (not_le.2 h)

theorem autoRestart_limited (h : s.flt.autoLimit ≤ (recentAuto s).length) :
    autoRestart s = s.onFlt fun f => { f with autoTimes := recentAuto s, limitHit := true, autoDue := false } := if_pos h

/-! The last-gasp record (R700). -/

section
variable {slot : Nat} {head : List Byte} {loss : Bool}

theorem endGasp_flt (h : s.flt.gasp = .writing slot head loss) : ∃ img, (endGasp s).flt = { s.flt with
    gasp := if s.modes.mode = 7 && !s.boot.restarting then .done slot loss else .idle, gaspDone := true, recValid := true, window := img,
    newest := some slot, faultSeq := s.flt.faultSeq + 1 } := by
  unfold endGasp
  rw [h]
  exact ⟨_, rfl⟩

theorem execLastGaspDone_ends (h : (endGasp s).flt.autoDue = false) : execLastGaspDone s = .next (endGasp s) := by
  simp [execLastGaspDone, h]

end

/-! Availability (R708). -/

theorem execAvailabilityWrite_serving {since : Nat} (hrun : s.flt.summitRun = true) (hfrom : s.flt.serveFrom = some since) :
    execAvailabilityWrite s = .next (s.onFlt fun f =>
      { f with serveS := servedS s, serveNs := servedNs s % 10 ^ 9, serveFrom := some (nowNs s) }) :=
  (next_onlyIf hrun).trans (by simp only [hfrom])

theorem servedNs_serving {since : Nat} (h : s.flt.serveFrom = some since) : servedNs s = s.flt.serveNs + (nowNs s - since) := by
  simp only [servedNs, h]

end

end Sys2Proof.Machine

namespace Sys2Proof
open Sys2Proof.Machine Sys2Proof.Claim

/-- Settles O3, row by row: each row leads to a restart, to the end of the record, or to a change of the fault part alone. -/
theorem restartRowsTakeEffect : Obligations.RestartRowsTakeEffect := by
  refine ⟨?watchdog, ?restart, ?limited, ?waits, ?gasp, ?availability, ?heartbeat⟩
  case watchdog =>
    rintro s safeN ⟨hacts, hms, hsafe⟩
    exact does_of_keeps (execWdtResetExpiry_keeps (maskOf_all _) (Keeps.refl s)) (execWdtResetExpiry_restarts hacts hms hsafe)
      ⟨restart_mode, restart_phase, restart_restarting, restart_cause, restart_summitRun, restart_wdtHit, restart_faultN, restart_paen⟩
  case restart =>
    rintro s safeN ⟨hmode, hrest, hcause, hmask, hsafe, hdone, hlimit⟩
    refine does_of_keeps (execAutoRestartExpiry_keeps (maskOf_all _) (Keeps.refl s))
      ((execAutoRestartExpiry_due (autoAllowed_of hmode hrest hcause hmask hsafe) hdone).trans (congrArg _ (autoRestart_restarts hlimit))) ?_
    exact ⟨restart_mode, restart_phase, restart_restarting, restart_summitRun, restart_autoTimes⟩
  case limited =>
    rintro s safeN ⟨hmode, hrest, hcause, hmask, hsafe, hdone, hlimit⟩
    exact does_of_keeps (execAutoRestartExpiry_keeps (maskOf_all _) (Keeps.refl s))
      ((execAutoRestartExpiry_due (autoAllowed_of hmode hrest hcause hmask hsafe) hdone).trans (congrArg _ (autoRestart_limited hlimit)))
      ⟨rfl, rfl, rfl⟩
  case waits =>
    rintro s safeN ⟨hmode, hrest, hcause, hmask, hsafe, hdone⟩
    exact does_of_keeps (execAutoRestartExpiry_keeps (maskOf_all _) (Keeps.refl s))
      (execAutoRestartExpiry_waits (autoAllowed_of hmode hrest hcause hmask hsafe) hdone) ⟨rfl, rfl, rfl⟩
  case gasp =>
    rintro s slot head loss ⟨hgasp, hdue⟩
    obtain ⟨img, hflt⟩ := endGasp_flt hgasp
    refine does_of_keeps (execLastGaspDone_keeps (maskOf_all _) (Keeps.refl s)) (execLastGaspDone_ends (by rw [hflt]; exact hdue)) ?_
    rw [hflt]
    exact ⟨rfl, rfl, rfl, rfl, endGasp_frame.2 .modes (by decide), by simp⟩
  case availability =>
    rintro s since ⟨hrun, hfrom⟩
    refine does_of_keeps (execAvailabilityWrite_keeps (maskOf_all _) (Keeps.refl s)) (execAvailabilityWrite_serving hrun hfrom) ?_
    rw [← servedNs_serving hfrom]
    exact ⟨rfl, rfl, rfl⟩
  case heartbeat => exact fun s hrun => does_of_keeps (execHeartbeatTick_keeps (maskOf_all _) (Keeps.refl s)) (next_onlyIf hrun) ⟨rfl, rfl⟩

end Sys2Proof
end

section
/-!
The commands of family 0x1F (R710 to R716): what each body gives in range. The statement on them (O13) follows.
-/

namespace Sys2Proof.Machine
open Sys2Proof.Claim

section
variable {s : State} {c : Cmd} {o : OpSpec} {d : Doorbell} {p : List Byte}

/-! Reading (R711 to R714). -/

/-- The records of Summit's log that LOG_READ finds (R711). -/
def logFound (c : Cmd) (s : State) : List (List Byte) :=
  ((s.evt.log.reverse.map recBytes).filter fun r => (fld r 4 4 + 2 ^ 32 - c.u 20 4) % 2 ^ 32 < 2 ^ 31).take (c.u 17 1)

theorem specLogRead_body (h0 : c.u 16 1 = 0) (hleast : 1 ≤ c.u 17 1) (hmost : c.u 17 1 ≤ 7) :
    specLogRead.body c s = if (logFound c s).isEmpty then (.err 0x1F01, s)
      else (.ok (le 1 (logFound c s).length ++ [0, 0, 0] ++ (logFound c s).flatten), s) := by
  refine (if_neg (by simp [h0]; omega)).trans ?_
  rw [if_pos h0]
  rfl

theorem specFaultRead_body (hn : c.u 16 1 ≤ 15) (ho16 : c.u 18 2 % 16 = 0) (ho : c.u 18 2 ≤ 496) (hk16 : c.u 20 2 % 16 = 0)
    (hleast : 16 ≤ c.u 20 2) (hmost : c.u 20 2 ≤ 480) (hend : c.u 18 2 + c.u 20 2 ≤ 512) (hv : slotValid (slotBytes s (c.u 16 1)) = true) :
    specFaultRead.body c s = (.ok (slice (slotBytes s (c.u 16 1)) (c.u 18 2) (c.u 20 2)), s) := by
  refine (if_neg (by simp [ho16, hk16]; omega)).trans ?_
  simp only [show c.u 16 1 ≠ 0xFF by omega, if_false, hv, if_true]

theorem specCounterRead_body (hend : c.u 16 1 + c.u 17 1 ≤ 29) :
    specCounterRead.body c s = (.ok (((s.flt.counters.drop (c.u 16 1)).take (c.u 17 1)).flatMap fun n => le 4 n.toNat),
      if bit (c.u 18 1) 0 = true then s.onFlt fun f => { f with
        counters := f.counters.zipIdx.map fun x => if c.u 16 1 ≤ x.2 && x.2 < c.u 16 1 + c.u 17 1 then 0 else x.1 } else s) := by
  refine (if_neg (by omega)).trans ?_
  cases bit (c.u 18 1) 0 <;> rfl

theorem servedS_eq : servedS s = s.flt.serveS + (s.flt.serveNs + ((s.flt.serveFrom.map fun t => nowNs s - t).getD 0)) / 10 ^ 9 := by
  simp only [servedS, servedNs]
  cases s.flt.serveFrom <;> rfl

/-- What STATUS_READ answers (R714). -/
def statusData (s : State) : List Byte :=
  statusBytes s ++ ((tjs s).flatMap fun q => leI 2 q) ++ [0, 0] ++ le 8 (servedS s) ++ le 4 s.flt.outages ++ le 8 s.flt.outageMs

/-- The copying of a command shows nowhere in the status. -/
theorem statusData_copied : statusData (copied o d p s) = statusData s := by
  have hstatus : statusBytes (copied o d p s) = statusBytes s := rfl
  have htjs : tjs (copied o d p s) = tjs s := rfl
  have hserved : servedS (copied o d p s) = servedS s := rfl
  have hflt : (copied o d p s).flt = s.flt := rfl
  simp only [statusData, hstatus, htjs, hserved, hflt]

theorem specStatusRead_body : specStatusRead.body c s = (.ok (statusData s), s) := rfl

/-! Settings (R715). -/

/-- The settings of a WATCHDOG_SET are in range (R715). -/
def watchdogInRange (c : Cmd) : Prop :=
  (c.u 16 2 = 0 ∨ (10 ≤ c.u 16 2 ∧ c.u 16 2 ≤ 10000)) ∧ (c.u 18 2 = 0 ∨ (100 ≤ c.u 18 2 ∧ c.u 18 2 ≤ 60000)) ∧ autoMaskOk (c.u 20 2) = true ∧
    c.u 22 2 ≤ 60000 ∧ 1 ≤ c.u 24 1 ∧ c.u 24 1 ≤ 16 ∧ 60 ≤ c.u 25 1 ∧ c.u 25 1 + 5 ≤ tjShutdown

theorem specWatchdogSet_body (h : watchdogInRange c) :
    specWatchdogSet.body c s = (.ok, s.onFlt fun f => { f with
      wdtMs := c.u 16 2, wdtResetMs := c.u 18 2, autoMask := BitVec.ofNat 16 (c.u 20 2), autoDelayMs := c.u 22 2, autoLimit := c.u 24 1,
      warnC := some (c.u 25 1) }) := by
  obtain ⟨hms, hreset, hmask, hdelay, hlimit, hlimit', hwarn, hwarn'⟩ := h
  exact if_neg (by simpa [hmask, hdelay, hlimit, hlimit', hwarn, hwarn'] using ⟨hms.resolve_left, hreset.resolve_left⟩)

/-! Clearing the logs (R716). -/

theorem specLogClear_body (h : c.u 20 4 = 0x52535452) : specLogClear.body c s = (.pending, s) := if_neg (by simp [h])

/-- MRAM without the regions that LOG_CLEAR names. -/
def clearedLogs (w : Nat) (m : List (Nat × Byte)) : List (Nat × Byte) :=
  let m := if bit w 0 then memClear m 0x62000 56320 else m
  if bit w 1 then memClear m 0x60000 8192 else m

theorem execLogClearDone_ends {l : LongCmd} (h : findLong s 0x1F06 = some l) :
    execLogClearDone s = .next (endLong l .ok (s.onBoot fun b => { b with mram := clearedLogs (l.cmd.u 16 1) b.mram })) := by
  simp only [execLogClearDone, h]
  rfl

theorem execLogClearDone_idle (h : findLong s 0x1F06 = none) : execLogClearDone s = .next s := by simp only [execLogClearDone, h]

/-- A record below WARNING is kept in no persistent log (R702). -/
theorem logRec_boot_of_lenient {r : EvtRec} (hsev : r.sev < 2) (hcode : r.code ≠ 0x0180) : (logRec r s).boot = s.boot := by
  unfold logRec
  rw [if_neg (by simp [hcode]; omega)]
  rfl

theorem raise_boot_of_lenient {code : Nat} {obj : Option Nat} {pl : List Byte} {mb : Nat} {q : W16} (hsev : severity code < 2)
    (hcode : code ≠ 0x0180) : (raise code obj pl s mb q).boot = s.boot := by
  have hlog : (logRec (mkRec s code obj pl mb q) (noteTime s)).boot = s.boot :=
    (logRec_boot_of_lenient (by exact hsev) (by exact hcode)).trans noteTime_boot
  unfold raise
  split
  · rfl
  · dsimp only
    split
    · exact (ringRoute_frame.2 .boot (by decide)).trans hlog
    · exact hlog

theorem endLong_boot_of_bar {l : LongCmd} {a : Ans} (h : l.cmd.path = .bar) : (endLong l a s).boot = s.boot := by
  unfold endLong
  rw [h]
  exact raise_boot_of_lenient (by decide) (by decide)

end

end Sys2Proof.Machine

namespace Sys2Proof
open Sys2Proof.Machine Sys2Proof.Claim

/-- Settles O13: each opcode's body under its conditions, and the end of LOG_CLEAR. -/
theorem family1FCommandsAnswer : Obligations.Family1FCommandsAnswer := by
  refine ⟨?logNone, ?logSome, ?fault, ?counters, ?countersCleared, ?status, ?watchdog, ?logClear, ?logCleared, ?logClearIdle⟩
  case logNone =>
    intro s d p hready c ⟨h0, hleast, hmost, hnone⟩
    exact answers_of_keeps hready (specLogRead_keeps (by decide) (copied_keeps (by decide)))
      ((specLogRead_body h0 hleast hmost).trans (if_pos hnone)) (by decide) rfl
  case logSome =>
    intro s d p hready c ⟨h0, hleast, hmost, hsome⟩
    exact answers_ok_of_keeps hready (specLogRead_keeps (by decide) (copied_keeps (by decide)))
      ((specLogRead_body h0 hleast hmost).trans (if_neg (by rw [Bool.not_eq_true]; exact hsome))) rfl
  case fault =>
    intro s d p hready c ⟨hn, ho16, ho, hk16, hleast, hmost, hend, hv⟩
    exact answers_ok_of_keeps hready (specFaultRead_keeps (by decide) (copied_keeps (by decide)))
      (specFaultRead_body hn ho16 ho hk16 hleast hmost hend hv) rfl
  case counters =>
    intro s d p hready c ⟨hend, hclear⟩
    refine answers_ok_of_keeps hready (specCounterRead_keeps (by decide) (copied_keeps (by decide))) (specCounterRead_body hend) ?_
    rw [if_neg (by rw [Bool.not_eq_true]; exact hclear)]
    rfl
  case countersCleared =>
    intro s d p hready c ⟨hend, hclear⟩
    refine answers_ok_of_keeps hready (specCounterRead_keeps (by decide) (copied_keeps (by decide))) (specCounterRead_body hend) ?_
    rw [if_pos hclear]
    rfl
  case status =>
    intro s d p hready
    rw [← servedS_eq]
    exact command_answers hready (specStatusRead_body.trans (by rw [statusData_copied, statusData])) Nat.zero_ne_one
      (frame_of_keeps (copied_keeps (by decide))) rfl
  case watchdog =>
    exact fun s d p hready h => answers_ok_of_keeps hready (specWatchdogSet_keeps (by decide) (copied_keeps (by decide)))
      (specWatchdogSet_body h) rfl
  case logClear =>
    exact fun s d p hready hpending h => accepts_of_keeps hready (specLogClear_keeps (by decide) (copied_keeps (by decide)))
      (specLogClear_body h) hpending (by decide) fun f => rfl
  case logCleared =>
    rintro s l ⟨hl, hpath⟩
    refine does_of_keeps (execLogClearDone_keeps (maskOf_all _) (Keeps.refl s)) (execLogClearDone_ends hl) ⟨?_, endLong_longs⟩
    rw [endLong_boot_of_bar hpath]
    rfl
  case logClearIdle =>
    exact fun s hl => does_of_keeps (execLogClearDone_keeps (maskOf_all _) (Keeps.refl s)) (execLogClearDone_idle hl) rfl

end Sys2Proof
end

section
/-!
The cipher engine's commands (R580 to R590): what each body gives under its conditions. The statement on them (O26) follows.
-/

namespace Sys2Proof.Machine
open Sys2Proof.Claim

section
variable {s : State} {c : Cmd} {kek key b : List Byte}

/-! Blobs (R582, R586). -/

theorem specKeyUnwrap_body_fails (hfailed : s.cipher.failed = false) (hform : blobBad c.par = none) (hn : fld c.par 3 1 ≠ 0)
    (hkek : Tab.get? s.cipher.keks (fld c.par 3 1) = some kek) (hkey : keyUnwrap kek (c.par.take 8) (c.par.drop 16) = none) :
    specKeyUnwrap.body c s = (eAuth, countCipher 7 s) := by
  simp only [specKeyUnwrap, hfailed, hform, kekOf, hn, hkek, hkey, decide_false, Bool.false_and, Bool.false_eq_true, if_false]

theorem specKeyUnwrap_body_loads (hfailed : s.cipher.failed = false) (hform : blobBad c.par = none) (hn : fld c.par 3 1 ≠ 0)
    (hkek : Tab.get? s.cipher.keks (fld c.par 3 1) = some kek) (hkey : keyUnwrap kek (c.par.take 8) (c.par.drop 16) = some key) :
    specKeyUnwrap.body c s = (.ok (slice c.par 4 2 ++ slice c.par 2 1 ++ [0] ++ le 4 (crc32 c.par)), countCipher 6 (loadBlob c.par kek key s)) := by
  simp only [specKeyUnwrap, hfailed, hform, kekOf, hn, hkek, hkey, decide_false, Bool.false_and, Bool.false_eq_true, if_false]

theorem specKeyUnwrap_body_missing (hfailed : s.cipher.failed = false) (hform : blobBad c.par = none) (hn : fld c.par 3 1 ≠ 0)
    (hkek : Tab.get? s.cipher.keks (fld c.par 3 1) = none) : specKeyUnwrap.body c s = (.err 0x0C02, s) := by
  simp only [specKeyUnwrap, hfailed, hform, kekOf, hn, hkek, decide_false, Bool.false_and, Bool.false_eq_true, if_false]

/-- The slot that the key of a blob is loaded into (R572). -/
def slotOf (b kek : List Byte) (s : State) : Slot :=
  { type := fld b 2 1, usage := byteAt b 6, keyId := fld b 8 1, kek := fld b 3 1, bind := byteAt b 9, kekVal := kek, blob := b,
    pn := fld b 10 6, initPn := fld b 10 6, fingerprint := BitVec.ofNat 32 (crc32 b), order := s.cipher.order + 1 }

theorem loadBlob_cipher (h : fld b 2 1 ≠ 15) : (loadBlob b kek key s).cipher =
    { s.cipher with slots := Tab.set s.cipher.slots (fld b 4 2) (slotOf b kek s), order := s.cipher.order + 1 } := by
  unfold loadBlob
  rw [if_neg h]
  rfl

theorem loadBlob_slot (h : fld b 2 1 ≠ 15) :
    Tab.get? (countCipher 6 (loadBlob b kek key s)).cipher.slots (fld b 4 2) = some (slotOf b kek s) := by
  show Tab.get? (loadBlob b kek key s).cipher.slots _ = _
  rw [loadBlob_cipher h, Tab.get?_set, if_pos rfl]

theorem loadBlob_ctr (h : fld b 2 1 ≠ 15) : (countCipher 6 (loadBlob b kek key s)).cipher.ctr = bump s.cipher.ctr 6 := by
  show bump (loadBlob b kek key s).cipher.ctr 6 = _
  rw [loadBlob_cipher h]

/-- What an unwrap brings: the slot and the answer, or a refusal that is counted. -/
theorem specKeyUnwrap_outcome (hfailed : s.cipher.failed = false) (hform : blobBad c.par = none) (hn : fld c.par 3 1 ≠ 0)
    (htype : fld c.par 2 1 ≠ 15) (hkek : Tab.get? s.cipher.keks (fld c.par 3 1) = some kek) {r : Option (List Byte)}
    (hr : keyUnwrap kek (c.par.take 8) (c.par.drop 16) = r) : ∃ u,
    specKeyUnwrap.body c s = (if r.isSome = true then .ok (slice c.par 4 2 ++ slice c.par 2 1 ++ [0] ++ le 4 (crc32 c.par)) else eAuth, u) ∧
      (r.isSome = true → Tab.get? u.cipher.slots (fld c.par 4 2) = some (slotOf c.par kek s) ∧ u.cipher.ctr = bump s.cipher.ctr 6) ∧
      (r.isSome = false → u.cipher = { s.cipher with ctr := bump s.cipher.ctr 7 }) := by
  cases r with
  | none => exact ⟨_, specKeyUnwrap_body_fails hfailed hform hn hkek hr, fun h => (by cases h), fun _ => rfl⟩
  | some key =>
    exact ⟨_, specKeyUnwrap_body_loads hfailed hform hn hkek hr, fun _ => ⟨loadBlob_slot htype, loadBlob_ctr htype⟩, fun h => (by cases h)⟩

/-! Erasing and provisioning (R583, R587, R588). -/

theorem specKeyErase_body_slots (h0 : c.u 16 1 = 0) (hleast : 1 ≤ c.u 20 2) (hend : c.u 18 2 + c.u 20 2 ≤ 8192) :
    specKeyErase.body c s = (.ok, s.onCipher fun x => { x with
      slots := x.slots.filter fun e => e.1 < c.u 18 2 || c.u 18 2 + c.u 20 2 ≤ e.1 }) := by
  simp only [specKeyErase, h0]
  exact if_neg (by simp; omega)

theorem specKeyErase_body_keks (h1 : c.u 16 1 = 1) (hfirst : 1 ≤ c.u 18 2) (hleast : 1 ≤ c.u 20 2) (hend : c.u 18 2 + c.u 20 2 ≤ 4) :
    specKeyErase.body c s = (.ok, s.onCipher fun x => { x with
      keks := x.keks.filter fun e => e.1 < c.u 18 2 || c.u 18 2 + c.u 20 2 ≤ e.1 }) := by
  simp only [specKeyErase, h1]
  exact if_neg (by simp; omega)

theorem specKekProvision_body_locked (h : s.cipher.locked = true) : specKekProvision.body c s = (.err 0x0C03, s) := if_pos h

/-- KEK_PROVISION may run: on MB2, in BOOT-ready with BOOT_HALT strapped, with the lock whole (R588). -/
structure ProvisionOpen (c : Cmd) (s : State) : Prop where
  whole : s.cipher.locked = false
  page : c.mb = 2
  mode : s.modes.mode = 2
  ready : s.boot.phase = .ready
  strap : s.pwr.bootHalt = true

theorem specKekProvision_body_open (h : ProvisionOpen c s) : specKekProvision.body c s =
    if c.u 52 4 != 0x30304B45 then (eArg, s) else if kcvOf (c.bytes 16 32) != c.bytes 48 4 then (eAuth, s) else (.pending, s) := by
  obtain ⟨hwhole, hpage, hmode, hready, hstrap⟩ := h
  exact (if_neg (by simp [hwhole])).trans (if_neg (by simp [hpage, hmode, hready, hstrap]))

theorem specKekProvision_body_unconfirmed (h : ProvisionOpen c s) (hconfirm : c.u 52 4 ≠ 0x30304B45) :
    specKekProvision.body c s = (eArg, s) := (specKekProvision_body_open h).trans (if_pos (by simpa using hconfirm))

theorem specKekProvision_body (h : ProvisionOpen c s) (hconfirm : c.u 52 4 = 0x30304B45) (hkcv : kcvOf (c.bytes 16 32) = c.bytes 48 4) :
    specKekProvision.body c s = (.pending, s) :=
  (specKekProvision_body_open h).trans ((if_neg (by simp [hconfirm])).trans (if_neg (by simp [hkcv])))

theorem execKekProvisionDone_ends {l : LongCmd} (h : findLong s 0x0C03 = some l) :
    execKekProvisionDone s = .next (endLong l (.ok (l.cmd.bytes 48 4)) (s.onCipher fun c =>
      { c with kek0 := some (l.cmd.bytes 16 32, l.cmd.bytes 16 32), kcv := l.cmd.bytes 48 4, locked := true, provBeat := curBeat s })) := by
  simp only [execKekProvisionDone, h]

/-! The level, the slots and the engine's state (R589, R590). -/

theorem specCmLevelSet_body (h : c.u 16 1 ≤ 3) : specCmLevelSet.body c s = (.ok, s.onCipher fun x => { x with level := c.u 16 1 }) :=
  if_neg (by omega)

theorem specKeySlotInfo_body_slots (h0 : c.u 16 1 = 0) (hleast : 1 ≤ c.u 20 2) (hmost : c.u 20 2 ≤ 30) (hend : c.u 18 2 + c.u 20 2 ≤ 8192) :
    specKeySlotInfo.body c s = (.ok ((List.range (c.u 20 2)).flatMap fun k => slotInfo s (c.u 18 2 + k)), s) := by
  simp only [specKeySlotInfo, h0]
  exact if_neg (by simp; omega)

/-- What KEY_SLOT_INFO answers of the engine (R590). -/
def engineInfo (s : State) : List Byte :=
  le 1 s.cipher.level ++ le 1 (if s.cipher.rngFail then 0 else s.cipher.level) ++
  le 1 (b2n (kek0Ok s) + sumOf (s.cipher.keks.map fun e => 2 ^ e.1) + 16 * b2n s.cipher.kek0Failed + 32 * b2n s.cipher.failed) ++ [0] ++
  le 4 s.cipher.slots.length ++ ctrBytes s.cipher.ctr

theorem specKeySlotInfo_body_engine (h1 : c.u 16 1 = 1) (hclear : bit (c.u 17 1) 0 = true) :
    specKeySlotInfo.body c s = (.ok (engineInfo s), s.onCipher fun x => { x with ctr := zeroed x.ctr }) := by
  simp only [specKeySlotInfo, h1, hclear, if_true, engineInfo]

end

end Sys2Proof.Machine

namespace Sys2Proof
open Sys2Proof.Machine Sys2Proof.Claim

/-- Settles O26: each opcode's body under its conditions, the end of KEK_PROVISION, and the failure of a health test. -/
theorem cipherRowsTakeEffect : Obligations.CipherRowsTakeEffect := by
  refine ⟨?unwrap, ?unwrapMissing, ?eraseSlots, ?eraseKeks, ?provisionLocked, ?provision, ?provisionUnconfirmed, ?provisionDone, ?level,
    ?infoEngine, ?infoSlots, ?rng⟩
  case unwrap =>
    intro s d p kek hready c ⟨hfailed, hform, hn, htype, hkek⟩
    obtain ⟨u, hbody, hloaded, hrefused⟩ := specKeyUnwrap_outcome (c := cmdOf specKeyUnwrap d p s) (s := copied specKeyUnwrap d p s) hfailed hform hn htype hkek rfl
    refine answers_of_keeps hready (specKeyUnwrap_keeps (by decide) (copied_keeps (by decide))) hbody ?_ ⟨fun h => ?_, hrefused⟩
    · split
      · exact Nat.zero_ne_one
      · decide
    · obtain ⟨hslot, hctr⟩ := hloaded h
      rw [hslot]
      exact ⟨rfl, rfl, rfl, rfl, hctr⟩
  case unwrapMissing =>
    intro s d p hready c ⟨hfailed, hform, hn, hkek⟩
    exact answers_of_keeps hready (specKeyUnwrap_keeps (by decide) (copied_keeps (by decide)))
      (specKeyUnwrap_body_missing hfailed hform hn hkek) (by decide) rfl
  case eraseSlots =>
    intro s d p hready c ⟨h0, hleast, hend⟩
    exact answers_ok_of_keeps hready (specKeyErase_keeps (by decide) (copied_keeps (by decide))) (specKeyErase_body_slots h0 hleast hend) rfl
  case eraseKeks =>
    intro s d p hready c ⟨h1, hfirst, hleast, hend⟩
    exact answers_ok_of_keeps hready (specKeyErase_keeps (by decide) (copied_keeps (by decide)))
      (specKeyErase_body_keks h1 hfirst hleast hend) rfl
  case provisionLocked =>
    exact fun s d p hready hlocked => answers_of_keeps hready (specKekProvision_keeps (by decide) (copied_keeps (by decide)))
      (specKekProvision_body_locked hlocked) (by decide) rfl
  case provision =>
    intro s d p hready hpending c ⟨hwhole, hpage, hmode, hphase, hstrap, hconfirm, hkcv⟩
    exact accepts_of_keeps hready (specKekProvision_keeps (by decide) (copied_keeps (by decide)))
      (specKekProvision_body ⟨hwhole, hpage, hmode, hphase, hstrap⟩ hconfirm hkcv) hpending (by decide) fun f => rfl
  case provisionUnconfirmed =>
    intro s d p hready c ⟨hwhole, hpage, hmode, hphase, hstrap, hconfirm⟩
    exact answers_of_keeps hready (specKekProvision_keeps (by decide) (copied_keeps (by decide)))
      (specKekProvision_body_unconfirmed ⟨hwhole, hpage, hmode, hphase, hstrap⟩ hconfirm) (by decide) rfl
  case provisionDone =>
    exact fun s l hl => does_of_keeps (execKekProvisionDone_keeps (maskOf_all _) (Keeps.refl s)) (execKekProvisionDone_ends hl)
      ⟨endLong_cipher, endLong_longs⟩
  case level =>
    exact fun s d p hready hlevel => answers_ok_of_keeps hready (specCmLevelSet_keeps (by decide) (copied_keeps (by decide)))
      (specCmLevelSet_body hlevel) rfl
  case infoEngine =>
    intro s d p hready c ⟨h1, hclear⟩
    exact answers_ok_of_keeps hready (specKeySlotInfo_keeps (by decide) (copied_keeps (by decide)))
      (specKeySlotInfo_body_engine h1 hclear) rfl
  case infoSlots =>
    intro s d p hready c ⟨h0, hleast, hmost, hend⟩
    exact answers_ok_of_keeps hready (specKeySlotInfo_keeps (by decide) (copied_keeps (by decide)))
      (specKeySlotInfo_body_slots h0 hleast hmost hend) rfl
  case rng =>
    exact fun s test hdom => does_of_keeps (execRngHealthFail_keeps (maskOf_all _) (Keeps.refl s)) (next_onlyIf hdom) raise_cipher

end Sys2Proof
end

section
/-!
Col's dispatches and the commands of family 0x0D (R593 to R613). What a dispatch does to a core and to its task is said once, as is the end of
one; the bodies of the commands follow, and with them the statement on these rows (O32).
-/

namespace Sys2Proof.Machine
open Sys2Proof.Claim

/-! Tasks, kernels and cores of a state. -/

theorem Tab.get?_set_self {α : Type} {t : Tab α} {k : Nat} {a : α} : Tab.get? (Tab.set t k a) k = some a := Tab.get?_set.trans (if_pos rfl)

section
variable {s : State} {n c : Nat} {t : Task} {x : Kernel} {f : Task → Task} {g : Kernel → Kernel} {h : Core → Core}

theorem traceRec_off {task core kind flags wait prio : Nat} (hoff : s.col.observe = 0) : traceRec task core kind flags wait prio s = s := by
  simp [traceRec, hoff]

theorem onKernel_eq (hx : Tab.get? s.col.kernels n = some x) :
    onKernel n g s = s.onCol fun c => { c with kernels := Tab.set c.kernels n (g x) } := by simp only [onKernel, hx]

theorem onKernel_kernel (hx : Tab.get? s.col.kernels n = some x) : Tab.get? (onKernel n g s).col.kernels n = some (g x) := by
  rw [onKernel_eq hx]
  exact Tab.get?_set_self

theorem onKernel_cores : (onKernel n g s).col.cores = s.col.cores := by unfold onKernel; split <;> rfl
theorem onKernel_ctr : (onKernel n g s).col.ctr = s.col.ctr := by unfold onKernel; split <;> rfl
theorem onKernel_tasks : (onKernel n g s).col.tasks = s.col.tasks := by unfold onKernel; split <;> rfl
theorem getCore_onKernel : getCore (onKernel n g s) c = getCore s c := by rw [getCore, onKernel_cores, getCore]

theorem getCore_of_cores {u : State} {k : Core} (hu : u.col.cores = updAt s.col.cores n h) (hk : s.col.cores[n]? = some k) :
    getCore u n = h k := by
  simp [getCore, hu, updAt, List.getD_eq_getElem?_getD, hk]

/-- A core that no dispatch runs on stays so, unless one is put on it. -/
theorem getCore_onCore_run (hh : ∀ k, (h k).run = k.run) : (getCore (onCore n h s) n).run = (getCore s n).run := by
  rcases getCore_onCore (n := n) (s := s) (f := h) with hu | hu <;> rw [hu]
  exact hh _

theorem freeCore_run : (getCore (freeCore n s) n).run = none := by
  simp only [freeCore, getCore, onCore, updAt, State.onCol_col, List.getD_eq_getElem?_getD, List.getElem?_modify, if_true]
  cases s.col.cores[n]? <;> rfl

theorem onTask_of_ready (ht : getTask s n = some t) (hr : taskReady s.col t = true) :
    onTask n f s = s.onCol fun c => { c with tasks := Tab.set c.tasks n (f t) } := by
  simp only [onTask, ht, hr, Bool.not_true, Bool.false_and, Bool.false_eq_true, if_false]

theorem onTask_of_fixed (ht : getTask s n = some t) (hf : f t = t) : onTask n f s = s.onCol fun c => { c with tasks := Tab.set c.tasks n t } := by
  simp only [onTask, ht, hf, Bool.not_and_self, Bool.false_eq_true, if_false]

end

/-! A dispatch of a task without bindings (R593, R594, R596). -/

section
variable {s : State} {n core : Nat} {t : Task} {x : Kernel}

theorem servesPacket_unbound (h : t.binds = []) : t.servesPacket = false := by simp [Task.servesPacket, Task.bound, h]
theorem kindOf_unbound (h : t.binds = []) : t.kindOf = .other := by simp [Task.kindOf, servesPacket_unbound h, h]
theorem robHolds_unbound (h : t.binds = []) : robHolds s t = false := by simp [robHolds, servesPacket_unbound h]

theorem repacket_unbound (h : t.binds = []) : t.repacket = t := by
  unfold Task.repacket
  split
  · rfl
  · have hbound : t.bound 3 0 = 0 := by simp [Task.bound, h]
    rw [hbound, show t.flags ||| 0 = t.flags from BitVec.or_zero]

theorem curBeat_onCol {f : Col → Col} : curBeat (s.onCol f) = curBeat s := rfl

/-- A task whose dispatch has taken its flags. -/
def Task.consumed (t : Task) : Task := { t with flags := t.flags &&& ~~~t.taken }

/-- A core on which the dispatch of such a task starts. -/
def startedCore (s : State) (n core : Nat) (t : Task) (x : Kernel) (k : Core) : Core :=
  { d := [t.taken.setWidth 32, (t.taken >>> 32).setWidth 32, BitVec.ofNat 32 n, BitVec.ofNat 32 core] ++ List.replicate 28 0
    p := [BitVec.ofNat 32 descAt, 0x10000000, BitVec.ofNat 32 outAt] ++ List.replicate 12 0 ++ [0x1C000]
    pc := BitVec.ofNat 32 (0x80000000 + x.entry)
    mem := memWrite (if x.retain then k.mem else []) descAt (descriptor s n .other none)
    run := some { task := n, kernel := t.kernel, flags := t.taken, startNs := nowNs s, beat := curBeat s }
    busyNs := k.busyNs, gauge := updAt k.gauge 1 (· + 1) }

theorem startDispatch_unbound (hbinds : t.binds = []) (ht : getTask s n = some t) (hr : taskReady s.col t = true) (hoff : s.col.observe = 0) :
    startDispatch n core t x s = s.onCol fun c => { c with
      tasks := Tab.set (Tab.set c.tasks n t.consumed) n t.consumed
      cores := updAt c.cores core fun k => startedCore s n core t x k
      hist := updAt c.hist (16 * t.prio + waitBin (nowNs s - t.readyNs)) (· + 1)
      ctr := bump c.ctr 0 } := by
  have htaken : onTask n (fun u => { u with flags := u.flags &&& ~~~t.taken, queue := u.queue }) s =
      s.onCol fun c => { c with tasks := Tab.set c.tasks n t.consumed } := onTask_of_ready ht hr
  have hpacked := onTask_of_fixed (s := s.onCol fun c => { c with tasks := Tab.set c.tasks n t.consumed }) (f := Task.repacket) (t := t.consumed)
    (n := n) Tab.get?_set_self (repacket_unbound hbinds)
  unfold startDispatch
  simp only [kindOf_unbound hbinds, reduceCtorEq, if_false, Option.bind_none, Option.map_none, htaken, hpacked, curBeat_onCol]
  refine (traceRec_off ?_).trans ?_
  · exact hoff
  · simp only [countCol, onCore, State.onCol, startedCore]


theorem execColDispatch_starts (hmode : s.modes.mode = 5) (hdom : domOn s 4 = true) (htasks : s.col.tasks = [(n, t)]) (hbinds : t.binds = [])
    (hstart : startable s n t = true) (hfree : freeFor s t = some core) (hx : Tab.get? s.col.kernels t.kernel = some x) :
    execColDispatch s = .next (startDispatch n core t x (countCol 4 s 0)) := by
  have hfree' : ∀ k, freeFor (countCol 4 s k) t = some core := fun _ => hfree
  have hx' : ∀ k, Tab.get? (countCol 4 s k).col.kernels t.kernel = some x := fun _ => hx
  refine (next_onlyIf (by simp [hmode, hdom])).trans ?_
  simp only [htasks, List.filter_cons, List.filter_nil, hstart, robHolds_unbound hbinds, Bool.not_false, if_true, chooseTask, List.foldl_cons,
    List.foldl_nil, hfree', hx']
  rw [show b2n ([(n, t)].any fun e => robHolds s e.2) = 0 by simp [robHolds_unbound hbinds, b2n]]

/-- Without tasks no dispatch starts. -/
theorem execColDispatch_idle (htasks : s.col.tasks = []) :
    ∃ u, execColDispatch s = .next u ∧ u.col.cores = s.col.cores ∧ u.col.tasks = [] := by
  unfold execColDispatch onlyIf
  split
  · simp only [htasks]
    exact ⟨_, rfl, rfl, htasks⟩
  · exact ⟨s, rfl, rfl, htasks⟩

theorem ready_of_startable (h : startable s n t = true) : taskReady s.col t = true := by
  simp only [startable, Bool.and_eq_true] at h
  exact h.1.1

end

/-! The end of a dispatch (R598, R599, R602, R603). -/

section
variable {s : State} {n : Nat} {core : Fin 32} {d : Disp} {x : Kernel}

theorem execKernelReturn_ends (hrun : (getCore s core.val).run = some d) (hret : d.returned = true) (hcount : (getCore s core.val).dr 0 = 0)
    (hpkt : d.pkt = none) (hoff : s.col.observe = 0) :
    execKernelReturn core s = .next (onKernel d.kernel (fun x => { x with fails := 0 }) (freeCore core.val s)) := by
  have hfew : ¬ 64 < ((getCore s core.val).dr 0).toNat := by
    rw [hcount]
    decide
  simp only [execKernelReturn, hrun, hret, hpkt, traceEnd, traceRec_off hoff, Bool.not_true, Bool.false_eq_true, if_false, if_neg hfew]
  rw [hcount]
  rfl

theorem execKernelReturn_running (hrun : (getCore s core.val).run = some d) (hret : d.returned = false) :
    execKernelReturn core s = .next s := by
  simp only [execKernelReturn, hrun, hret, Bool.not_false, if_true]

/-- A core that is freed at an overrun, which is counted. -/
def overran (n : Nat) (s : State) : State := countCol 1 (onCore n (fun k => { k with gauge := updAt k.gauge 2 (· + 1) }) (freeCore n s))

theorem overran_run : (getCore (overran n s) n).run = none :=
  (getCore_onCore_run (s := freeCore n s) (h := fun k => { k with gauge := updAt k.gauge 2 (· + 1) }) fun _ => rfl).trans freeCore_run

/-- Of an overrun without a packet, what is left is the failure of its kernel. -/
theorem overrun_eq (hrun : (getCore s n).run = some d) (hpkt : d.pkt = none) (hoff : s.col.observe = 0)
    (hx : Tab.get? s.col.kernels d.kernel = some x) :
    ∃ v y, overrun n s = kernelFails d.kernel v ∧ v.col.cores = (overran n s).col.cores ∧ v.col.ctr = (overran n s).col.ctr ∧
      Tab.get? v.col.kernels d.kernel = some y ∧ y.fails = x.fails ∧ y.limit = x.limit := by
  have hx' : Tab.get? (overran n s).col.kernels d.kernel = some x := hx
  have heq : overrun n s = kernelFails d.kernel
      (if ((Tab.get? (overran n s).col.kernels d.kernel).map fun k => k.overrunBeat == some (curBeat (overran n s))).getD false then overran n s
        else raise 0x0D81 none (le 2 d.kernel ++ le 2 d.task ++ le 1 n)
          (onKernel d.kernel (fun k => { k with overrunBeat := some (curBeat (overran n s)) }) (overran n s))) := by
    simp only [overrun, hrun, traceEnd, traceRec_off hoff, endPacket, hpkt, overran] <;> rfl
  by_cases hagain : ((Tab.get? (overran n s).col.kernels d.kernel).map fun k => k.overrunBeat == some (curBeat (overran n s))).getD false = true
  · rw [if_pos hagain] at heq
    exact ⟨_, x, heq, rfl, rfl, hx', rfl, rfl⟩
  · rw [if_neg hagain] at heq
    refine ⟨_, { x with overrunBeat := some (curBeat (overran n s)) }, heq, ?_, ?_, ?_, rfl, rfl⟩
    · rw [raise_col, onKernel_cores]
    · rw [raise_col, onKernel_ctr]
    · rw [raise_col, onKernel_kernel hx']

theorem kernelFails_counts (hx : Tab.get? s.col.kernels n = some x) (hlimit : x.fails + 1 < x.limit) :
    kernelFails n s = onKernel n (fun k => { k with fails := k.fails + 1 }) s := by
  simp only [kernelFails, hx]
  exact if_neg (by simp [hlimit])

/-- A budget that ends frees the core and counts the overrun and the failure. -/
theorem overrun_counts (hrun : (getCore s n).run = some d) (hpkt : d.pkt = none) (hoff : s.col.observe = 0)
    (hx : Tab.get? s.col.kernels d.kernel = some x) (hlimit : x.fails + 1 < x.limit) :
    (getCore (overrun n s) n).run = none ∧ (Tab.get? (overrun n s).col.kernels d.kernel).map (·.fails) = some (x.fails + 1) ∧
      (overrun n s).col.ctr = bump s.col.ctr 1 := by
  obtain ⟨v, y, heq, hcores, hctr, hy, hfails, hlim⟩ := overrun_eq hrun hpkt hoff hx
  rw [heq, kernelFails_counts hy (by omega), getCore_onKernel, onKernel_kernel hy, onKernel_ctr, hctr, getCore, hcores]
  exact ⟨overran_run, by rw [Option.map_some, hfails], rfl⟩

theorem execKernelBudgetExpiry_overruns (hrun : (getCore s core.val).run = some d) : ∃ t, execKernelBudgetExpiry core s =
    .next (overrun core.val (advanceTo t s)) := by
  simp only [execKernelBudgetExpiry, hrun]
  exact ⟨_, rfl⟩

theorem execKernelBudgetExpiry_idle (hrun : (getCore s core.val).run = none) : execKernelBudgetExpiry core s = .next s := by
  simp only [execKernelBudgetExpiry, hrun]

end

/-! Kernels (R606, R609, R610). -/

section
variable {s : State} {c : Cmd} {n : Nat} {x : Kernel} {l : LongCmd} {image : List Byte} {old : Col}

theorem specKernelLoad_body (hn : c.u 16 2 ≤ 63) (haddr : c.u 20 8 % 8 = 0) (hstarted : kernelStarted s (c.u 16 2) = false)
    (hdram : dramReady s = true) : specKernelLoad.body c s = (.pending, s) :=
  (if_neg (by simp [haddr, hn])).trans (if_neg (by simp [hstarted, hdram]))

theorem specKernelLoad_body_started (hn : c.u 16 2 ≤ 63) (haddr : c.u 20 8 % 8 = 0) (hstarted : kernelStarted s (c.u 16 2) = true) :
    specKernelLoad.body c s = (eState, s) :=
  (if_neg (by simp [haddr, hn])).trans (if_pos (by simp [hstarted]))

/-- The kernel of an image (R606). -/
def kernelOfImage (b : List Byte) : Kernel :=
  { code := b.drop 64, localNeed := fld b 12 4, sharedNeed := fld b 16 4, entry := fld b 20 4, crc := BitVec.ofNat 32 (fld b 24 4) }

theorem execKernelLoadDone_stores (hl : findLong s 0x0D01 = some l) (hgood : imageBad (pad (l.cmd.u 28 4) image) = none) :
    execKernelLoadDone image s = .next (endLong l (.ok (le 4 (fld (pad (l.cmd.u 28 4) image) 24 4))) (s.onCol fun c =>
      { c with kernels := Tab.set c.kernels (l.cmd.u 16 2) (kernelOfImage (pad (l.cmd.u 28 4) image)) })) := by
  simp only [execKernelLoadDone, hl, hgood, kernelOfImage]

theorem execKernelLoadDone_refuses (hl : findLong s 0x0D01 = some l) (hbad : (imageBad (pad (l.cmd.u 28 4) image)).isSome = true) :
    ∃ a, execKernelLoadDone image s = .next (endLong l a s) := by
  obtain ⟨⟨o, k⟩, hok⟩ := Option.isSome_iff_exists.1 hbad
  exact ⟨.err 0x0D01 (le 4 o ++ le 1 k), by simp only [execKernelLoadDone, hl, hok]⟩

theorem readied_kernels : (readied old s).col.kernels = s.col.kernels := rfl

/-- Without kernels no task is ready. -/
theorem readied_tasks (h : s.col.kernels = []) : (readied old s).col.tasks = s.col.tasks := by
  simp [readied, taskReady, h, Tab.get?]

theorem getTask_written {t : Task} (h : s.col.kernels = []) :
    getTask (readied old (s.onCol fun x => { x with tasks := Tab.set x.tasks n t })) n = some t := by
  rw [getTask, readied_tasks (s := s.onCol fun x => { x with tasks := Tab.set x.tasks n t }) h]
  exact Tab.get?_set_self

/-- A kernel as KERNEL_START leaves it (R610). -/
def Kernel.startedBy (c : Cmd) (x : Kernel) : Kernel :=
  { x with started := true, retain := bit (c.u 18 1) 0, limit := c.u 19 1, sharedKb := c.u 20 4, shared := [], fails := 0 }

/-- The only kernel starts where its window fits. -/
theorem specKernelStart_body (hx : s.col.kernels = [(c.u 16 2, x)]) (hn : c.u 16 2 ≤ 63) (hstarted : x.started = false) (hlimit : 1 ≤ c.u 19 1)
    (hkb : c.u 20 4 ≤ 1024) (hkb16 : c.u 20 4 % 16 = 0) (hneed : x.sharedNeed ≤ c.u 20 4) :
    specKernelStart.body c s = (.ok, readied s.col (onKernel (c.u 16 2) (Kernel.startedBy c) s)) := by
  have hget : Tab.get? s.col.kernels (c.u 16 2) = some x := by rw [hx, Tab.get?_singleton]
  have hused : sumOf (s.col.kernels.map fun e => if e.2.started then e.2.sharedKb else 0) = 0 := by simp [hx, hstarted, sumOf]
  refine (if_neg (by simp [hkb16]; omega)).trans ?_
  simp only [hget, hused]
  exact (if_neg (by simp [hstarted])).trans ((if_neg (by omega)).trans (if_neg (by omega)))

theorem specKernelStart_body_missing (hn : c.u 16 2 ≤ 63) (hlimit : 1 ≤ c.u 19 1) (hkb : c.u 20 4 ≤ 1024) (hkb16 : c.u 20 4 % 16 = 0)
    (hget : Tab.get? s.col.kernels (c.u 16 2) = none) : specKernelStart.body c s = (eState, s) := by
  refine (if_neg (by simp [hkb16]; omega)).trans ?_
  simp only [hget]

theorem specKernelStop_body (hn : c.u 16 2 ≤ 63) (hstarted : kernelStarted s (c.u 16 2) = true) :
    specKernelStop.body c s = (.ok, stopKernel (c.u 16 2) s) := (if_neg (by omega)).trans (if_pos hstarted)

theorem specKernelStop_body_stopped (hn : c.u 16 2 ≤ 63) (hstarted : kernelStarted s (c.u 16 2) = false) :
    specKernelStop.body c s = (eState, s) := (if_neg (by omega)).trans (if_neg (by simp [hstarted]))

theorem stopKernel_tasks :
    (stopKernel n s).col.tasks = s.col.tasks.map (fun e => if e.2.kernel = n then (e.1, { e.2 with queue := [] }) else e) :=
  onKernel_tasks (s := s.onCol fun c => { c with tasks := c.tasks.map fun e => if e.2.kernel = n then (e.1, { e.2 with queue := [] }) else e })

theorem stopKernel_stopped : kernelStarted (stopKernel n s) n = false := by
  unfold kernelStarted stopKernel
  cases hx : Tab.get? s.col.kernels n with
  | none => simp [countCol, onKernel, hx]
  | some x => simp [countCol, onKernel, hx, Tab.get?_set]

/-! Tasks, observation and counters (R611 to R613). -/

theorem specTaskConfig_body_deletes (hlo : 16 ≤ c.u 16 2) (hhi : c.u 16 2 ≤ 1023) (hvalid : bit (c.u 18 1) 0 = false) :
    specTaskConfig.body c s = (.ok, s.onCol fun x => { x with tasks := Tab.erase x.tasks (c.u 16 2) }) :=
  (if_neg (by simp; omega)).trans (if_pos (by simp [hvalid]))

/-- A task as TASK_CONFIG writes it (R611), without bindings. -/
def taskOf (c : Cmd) (now : Nat) : Task :=
  { kernel := c.u 20 2, all := bit (c.u 18 1) 1, ordered := bit (c.u 18 1) 2, prio := c.u 19 1, orderBits := c.u 22 1, parallel := c.u 23 1,
    coreMask := BitVec.ofNat 32 (c.u 24 4), waitMask := BitVec.ofNat 64 (c.u 28 8), budget := c.u 36 2, qdepth := c.u 38 2, readyNs := now }

/-- The settings of a TASK_CONFIG are in range (R611). -/
structure TaskInRange (c : Cmd) : Prop where
  lo : 16 ≤ c.u 16 2
  hi : c.u 16 2 ≤ 1023
  valid : bit (c.u 18 1) 0 = true
  prio : c.u 19 1 ≤ 6
  kernel : c.u 20 2 ≤ 63
  order : c.u 22 1 ≤ 12
  parallel : 1 ≤ c.u 23 1 ∧ c.u 23 1 ≤ 32
  budget : 1 ≤ c.u 36 2 ∧ c.u 36 2 ≤ 10000
  depth : 16 ≤ c.u 38 2 ∧ c.u 38 2 ≤ 4096

theorem specTaskConfig_body_writes (h : TaskInRange c) (hbinds : taskBinds c = []) (hnew : getTask s (c.u 16 2) = none) :
    specTaskConfig.body c s = (.ok, readied s.col (s.onCol fun x => { x with tasks := Tab.set x.tasks (c.u 16 2) (taskOf c (nowNs s)) })) := by
  obtain ⟨hlo, hhi, hvalid, hprio, hkernel, horder, ⟨hpar, hpar'⟩, ⟨hbudget, hbudget'⟩, ⟨hdepth, hdepth'⟩⟩ := h
  refine (if_neg (by simp; omega)).trans ((if_neg (by simp [hvalid])).trans ((if_neg ?_).trans ?_))
  · simp [hbinds]
    omega
  · simp only [hnew, hbinds] <;> rfl

theorem specColObserveSet_body_changes (hm : c.u 16 1 ≤ 2) (hne : c.u 16 1 ≠ s.col.observe) :
    specColObserveSet.body c s = (.ok, (s.onCol fun x => { x with observe := c.u 16 1, wrap := bit (c.u 17 1) 0 }).onCol fun x =>
      { x with trace := [], wr := 0, full := false }) := by
  refine (if_neg (by omega)).trans ?_
  rw [if_neg hne]

theorem specColObserveSet_body_keeps (hm : c.u 16 1 ≤ 2) (heq : c.u 16 1 = s.col.observe) :
    specColObserveSet.body c s = (.ok, s.onCol fun x => { x with observe := c.u 16 1, wrap := bit (c.u 17 1) 0 }) := by
  refine (if_neg (by omega)).trans ?_
  rw [if_pos heq]

/-- What MASSIF_STATS answers (R613). -/
def massifStats (s : State) : List Byte :=
  ctrBytes s.col.ctr ++ le 4 s.col.rob.length ++ ((List.range 32).flatMap fun i => le 4 (min 0xFFFFFFFF ((getCore s i).busyNs / 1000)))

theorem specMassifStats_body : specMassifStats.body c s = (.ok (massifStats s), if bit (c.u 16 1) 0 then s.onCol fun x =>
    { x with ctr := zeroed x.ctr, cores := x.cores.map fun k => { k with busyNs := 0 } } else s) := rfl

end

end Sys2Proof.Machine

namespace Sys2Proof
open Sys2Proof.Machine Sys2Proof.Claim

/-- Settles O32, row by row: a dispatch's start and ends, and each opcode's body under its conditions. -/
theorem colRowsTakeEffect : Obligations.ColRowsTakeEffect := by
  refine ⟨?dispatch, ?dispatchIdle, ?returns, ?returnsRunning, ?budget, ?budgetIdle, ?load, ?loadStarted, ?loadDone, ?loadBad, ?start,
    ?startMissing, ?stop, ?stopStopped, ?taskDelete, ?taskWrite, ?observe, ?observeSame, ?statsCleared, ?stats, ?traceRestart, ?traceFreeze,
    ?traceLost⟩
  case dispatch =>
    rintro s n c t x k ⟨hmode, hdom, hoff, htasks, hbinds, hstart, hfree, hk, hx⟩
    have ht : getTask (countCol 4 s 0) n = some t := by
      show Tab.get? s.col.tasks n = some t
      rw [htasks, Tab.get?_singleton]
    have hstarted := startDispatch_unbound (core := c) (x := x) (s := countCol 4 s 0) hbinds ht (ready_of_startable hstart) hoff
    have hcore : getCore (startDispatch n c t x (countCol 4 s 0)) c = startedCore (countCol 4 s 0) n c t x k :=
      getCore_of_cores (s := s) (by rw [hstarted]; rfl) hk
    have htask : getTask (startDispatch n c t x (countCol 4 s 0)) n = some t.consumed := by
      rw [hstarted]
      exact Tab.get?_set_self
    refine does_of_keeps (execColDispatch_keeps (maskOf_all _) (Keeps.refl s))
      (execColDispatch_starts hmode hdom htasks hbinds hstart hfree hx) ?_
    rw [hcore, htask]
    exact ⟨rfl, rfl, rfl, rfl, rfl⟩
  case dispatchIdle =>
    intro s htasks
    obtain ⟨u, hu, hcores, htasks'⟩ := execColDispatch_idle htasks
    exact does_of_keeps (execColDispatch_keeps (maskOf_all _) (Keeps.refl s)) hu ⟨hcores, htasks'⟩
  case returns =>
    rintro s core d x ⟨hrun, hret, hcount, hpkt, hx, hoff⟩
    refine does_of_keeps (execKernelReturn_keeps (maskOf_all _) (Keeps.refl s)) (execKernelReturn_ends hrun hret hcount hpkt hoff) ?_
    rw [getCore_onKernel, onKernel_kernel (s := freeCore core.val s) hx, onKernel_ctr]
    exact ⟨freeCore_run, rfl, rfl⟩
  case returnsRunning =>
    exact fun s core d ⟨hrun, hret⟩ => does_of_keeps (execKernelReturn_keeps (maskOf_all _) (Keeps.refl s))
      (execKernelReturn_running hrun hret) rfl
  case budget =>
    rintro s core d x ⟨hrun, hpkt, hx, hlimit, hoff⟩
    obtain ⟨t, ht⟩ := execKernelBudgetExpiry_overruns hrun
    have hcol : (advanceTo t s).col = s.col := advanceTo_col
    refine does_of_keeps (execKernelBudgetExpiry_keeps (maskOf_all _) (Keeps.refl s)) ht ?_
    rw [← hcol]
    exact overrun_counts (by rwa [getCore, hcol]) hpkt (by rwa [hcol]) (by rwa [hcol]) hlimit
  case budgetIdle =>
    exact fun s core hrun => does_of_keeps (execKernelBudgetExpiry_keeps (maskOf_all _) (Keeps.refl s)) (execKernelBudgetExpiry_idle hrun) rfl
  case load =>
    intro s d p hready hpending c ⟨hn, haddr, hstarted, hdram⟩
    exact accepts_of_keeps hready (specKernelLoad_keeps (by decide) (copied_keeps (by decide)))
      (specKernelLoad_body hn haddr hstarted hdram) hpending (by decide) fun f => rfl
  case loadStarted =>
    intro s d p hready c ⟨hn, haddr, hstarted⟩
    exact answers_of_keeps hready (specKernelLoad_keeps (by decide) (copied_keeps (by decide)))
      (specKernelLoad_body_started hn haddr hstarted) (by decide) rfl
  case loadDone =>
    rintro s image l ⟨hl, hgood⟩
    rw [exec_kernelLoadDone]
    refine does_of_keeps (execKernelLoadDone_keeps (maskOf_all _) (Keeps.refl s)) (execKernelLoadDone_stores hl hgood) ⟨?_, endLong_longs⟩
    rw [endLong_col]
    exact Tab.get?_set_self
  case loadBad =>
    rintro s image l ⟨hl, hbad⟩
    obtain ⟨a, ha⟩ := execKernelLoadDone_refuses hl hbad
    rw [exec_kernelLoadDone]
    exact does_of_keeps (execKernelLoadDone_keeps (maskOf_all _) (Keeps.refl s)) ha ⟨endLong_col, endLong_longs⟩
  case start =>
    intro s d p n x hready c ⟨hx, hcn, hn, hstarted, hlimit, hkb, hkb16, hneed⟩
    obtain rfl : n = (cmdOf specKernelStart d p s).u 16 2 := hcn
    refine answers_ok_of_keeps hready (specKernelStart_keeps (by decide) (copied_keeps (by decide)))
      (specKernelStart_body hx hn hstarted hlimit hkb hkb16 hneed) ?_
    rw [readied_kernels]
    exact onKernel_kernel (by rw [show (copied specKernelStart d p s).col = s.col from rfl, hx, Tab.get?_singleton])
  case startMissing =>
    intro s d p hready c ⟨hn, hlimit, hkb, hkb16, hget⟩
    exact answers_of_keeps hready (specKernelStart_keeps (by decide) (copied_keeps (by decide)))
      (specKernelStart_body_missing hn hlimit hkb hkb16 hget) (by decide) rfl
  case stop =>
    intro s d p hready c ⟨hn, hstarted⟩
    exact answers_ok_of_keeps hready (specKernelStop_keeps (by decide) (copied_keeps (by decide))) (specKernelStop_body hn hstarted)
      ⟨stopKernel_stopped, stopKernel_tasks⟩
  case stopStopped =>
    intro s d p hready c ⟨hn, hstarted⟩
    exact answers_of_keeps hready (specKernelStop_keeps (by decide) (copied_keeps (by decide))) (specKernelStop_body_stopped hn hstarted)
      (by decide) rfl
  case taskDelete =>
    intro s d p hready c ⟨hlo, hhi, hvalid⟩
    exact answers_ok_of_keeps hready (specTaskConfig_keeps (by decide) (copied_keeps (by decide)))
      (specTaskConfig_body_deletes hlo hhi hvalid) rfl
  case taskWrite =>
    intro s d p hready c ⟨hkernels, hlo, hhi, hvalid, hprio, hkernel, horder, hpar, hpar', hbudget, hbudget', hdepth, hdepth', hbinds, hnew⟩
    refine answers_ok_of_keeps hready (specTaskConfig_keeps (by decide) (copied_keeps (by decide)))
      (specTaskConfig_body_writes ⟨hlo, hhi, hvalid, hprio, hkernel, horder, ⟨hpar, hpar'⟩, ⟨hbudget, hbudget'⟩, ⟨hdepth, hdepth'⟩⟩ hbinds hnew) ?_
    exact getTask_written hkernels
  case observe =>
    intro s d p hready c ⟨hm, hne⟩
    exact answers_ok_of_keeps hready (specColObserveSet_keeps (by decide) (copied_keeps (by decide)))
      (specColObserveSet_body_changes hm hne) rfl
  case observeSame =>
    intro s d p hready c ⟨hm, heq⟩
    refine answers_ok_of_keeps hready (specColObserveSet_keeps (by decide) (copied_keeps (by decide)))
      (specColObserveSet_body_keeps hm heq) ?_
    rw [heq]
    rfl
  case statsCleared =>
    intro s d p hready c hclear
    refine answers_ok_of_keeps hready (specMassifStats_keeps (by decide) (copied_keeps (by decide))) specMassifStats_body ?_
    rw [if_pos hclear]
    rfl
  case stats =>
    intro s d p hready c hclear
    refine answers_ok_of_keeps hready (specMassifStats_keeps (by decide) (copied_keeps (by decide))) specMassifStats_body ?_
    rw [if_neg (by rw [Bool.not_eq_true]; exact hclear)]
    rfl
  case traceRestart => exact fun s hlink => does_of_keeps (execTraceRestart_keeps (maskOf_all _) (Keeps.refl s)) (next_onlyIf hlink) rfl
  case traceFreeze => exact fun s on hlink => does_of_keeps (execTraceFreeze_keeps (maskOf_all _) (Keeps.refl s)) (next_onlyIf hlink) rfl
  case traceLost => exact fun s hlink => does_of_keeps (execTraceLostRead_keeps (maskOf_all _) (Keeps.refl s)) (next_onlyIf hlink) rfl

end Sys2Proof
end
